-- ==== Sys2Proof/Word.lean ====
section
/-! DEFINITION. Words, bytes and their plainest arithmetic; finite maps held as plain lists. -/

namespace Sys2Proof

/-- A byte (R6). -/
abbrev Byte := BitVec 8
/-- A register or scalar word (R9). -/
abbrev Word64 := BitVec 64
/-- A string of bytes, lowest address first. -/
abbrev Bytes := List (BitVec 8)

/-- A finite map from natural numbers to data, held as a list of pairs: what a key that is not listed holds is the reader's
default. A key is listed at most once, because `set` replaces. -/
abbrev Smap (α : Type) := List (Nat × α)

/-- The entry of a key, or the default. -/
def Smap.get {α : Type} (d : α) : Smap α → Nat → α
  | [], _ => d
  | (k', v) :: m, k => if k' = k then v else Smap.get d m k

/-- The map with one key set. -/
def Smap.set {α : Type} : Smap α → Nat → α → Smap α
  | [], k, v => [(k, v)]
  | (k', v') :: m, k, v => if k' = k then (k, v) :: m else (k', v') :: Smap.set m k v

/-- The entry of a key, if it is listed. -/
def Smap.find? {α : Type} : Smap α → Nat → Option α
  | [], _ => none
  | (k', v) :: m, k => if k' = k then some v else Smap.find? m k

/-- The map without one key. -/
def Smap.erase {α : Type} : Smap α → Nat → Smap α
  | [], _ => []
  | (k', v) :: m, k => if k' = k then Smap.erase m k else (k', v) :: Smap.erase m k

theorem Smap.get_set_same {α : Type} (d : α) (m : Smap α) (k : Nat) (v : α) : (m.set k v).get d k = v := by
  induction m with
  | nil => simp [Smap.set, Smap.get]
  | cons p m ih =>
    obtain ⟨k', v'⟩ := p
    by_cases h : k' = k <;> simp [Smap.set, Smap.get, h, ih]

theorem Smap.get_set_ne {α : Type} (d : α) (m : Smap α) {k k₂ : Nat} (v : α) (h : k ≠ k₂) :
    (m.set k v).get d k₂ = m.get d k₂ := by
  induction m with
  | nil => simp [Smap.set, Smap.get, h]
  | cons p m ih =>
    obtain ⟨k', v'⟩ := p
    by_cases h' : k' = k
    · subst h'; simp [Smap.set, Smap.get, h]
    · simp only [Smap.set, h', if_false, Smap.get, ih]

/-- Little-endian reading of bytes as a number (R6). -/
def leNat : Bytes → Nat
  | [] => 0
  | b :: bs => b.toNat + 256 * leNat bs

/-- Little-endian bytes of a number (R6). -/
def leBytes : Nat → Nat → Bytes
  | 0, _ => []
  | n + 1, v => BitVec.ofNat 8 v :: leBytes n (v / 256)

/-- `n` bytes of a structure from byte `off`, read little-endian; bytes beyond its end read as zero. -/
def field (b : Bytes) (off n : Nat) : Nat := leNat ((b.drop off).take n)

/-- Bits [lo+w-1:lo] of a number. -/
def bits (v lo w : Nat) : Nat := v / 2 ^ lo % 2 ^ w

/-- One bit of a number. -/
def bit (v i : Nat) : Bool := v / 2 ^ i % 2 == 1

/-- Division rounding up; zero for a zero divisor. -/
def ceilDiv (a b : Nat) : Nat := if b = 0 then 0 else (a + b - 1) / b

/-- A bytes string of zeros. -/
def zeros (n : Nat) : Bytes := List.replicate n 0

/-- All bytes are zero. -/
def allZero (b : Bytes) : Bool := b.all (· == 0)

/-- Reserved bytes `off` to `off + n - 1` of a structure are zero (R7). -/
def rsvdZero (b : Bytes) (off n : Nat) : Bool := allZero ((b.drop off).take n)

/-- a is later than b in the order of R8: the signed 32-bit difference a − b is positive. -/
def later32 (a b : Nat) : Bool :=
  let d := (a + 2 ^ 32 - b % 2 ^ 32) % 2 ^ 32
  d != 0 && decide (d < 2 ^ 31)

/-- The signed value of the low `w` bits. -/
def sext (w v : Nat) : Int :=
  let x := v % 2 ^ w
  if 2 ^ (w - 1) ≤ x ∧ 0 < w then (x : Int) - 2 ^ w else x

/-- The bits of a mask that are set, lowest first, below `n`. -/
def maskBits (m n : Nat) : List Nat := (List.range n).filter (bit m ·)

/-- The number of set bits below `n`. -/
def popcount (m n : Nat) : Nat := (maskBits m n).length

end Sys2Proof
end

