-- ==== Sys2Proof/Syntax.lean ====
section
/-! DEFINITION. The commands the block takes (the rows of the spec's table of operations and events) and the types of their
operands. An operand is what reaches the block from outside with the event: a written value, a frame, a sensor reading, the
outcome of a training. -/

namespace Sys2Proof

/-- An Awl core (R13, R164): core c of hearth h, or supervisor core n. -/
inductive Core where
  | hearth (h : Fin 16) (c : Fin 8)
  | sup (n : Fin 4)
  deriving DecidableEq, Repr

/-- Who writes or reads a BAR0 register: the host of a port, or supervisor code, which counts as the non-lead host (R192). -/
inductive Src where
  | host (p : Fin 2)
  | supervisor
  deriving DecidableEq, Repr

/-- The outcome of training a PCIe port (R369). -/
structure PcieTrain where
  trained : Bool
  lanes : Nat
  rate32 : Bool
  flit : Bool
  deriving DecidableEq, Repr

/-- The outcome of training and enumerating a CXL port (R322, R323): capacity in bytes. -/
structure CxlTrain where
  trained : Bool
  lanes : Nat
  rate32 : Bool
  type3 : Bool
  capacity : Nat
  vendor : BitVec 16
  device : BitVec 16
  deriving DecidableEq, Repr

/-- The outcome of training a Colkin or Girth link (R384, R393, R394): which lanes work (bit j: lane j), and the HELLO payload
that the peer sent, if one arrived. -/
structure LinkTrain where
  trained : Bool
  lanes : BitVec 8
  hello : Option Bytes
  deriving DecidableEq, Repr

/-- What a Kindling stage that takes time found (Table 2-5, stages 0x07 to 0x0B), or that the rollback fuses are blown (stage
0x0D). -/
inductive StageResult where
  | gddr (okA okB : Bool)
  | pcie (p0 p1 : PcieTrain)
  | cxl (n0 n1 n2 n3 : CxlTrain)
  | links (ts : List LinkTrain)
  | banks (ok : Bool) (spare : Nat)
  | fuses
  deriving DecidableEq, Repr

/-- What the training found that a restart of a port or link function makes (R322, R369, R393). -/
inductive Training where
  | none
  | pcie (t : PcieTrain)
  | cxl (t : CxlTrain)
  | link (t : LinkTrain)
  deriving DecidableEq, Repr

/-- How a read of a ticket entry in a host window ended (R375 to R377): the 64 bytes, or the code of class 0x0B. -/
inductive HostRead where
  | data (entry : Bytes)
  | failed (code : BitVec 16)
  deriving DecidableEq, Repr

/-- One round of sensor readings (R62 to R68); none is a reading that is absent or invalid (R64). Temperatures are in units of
0.25 °C, hearth currents in mA, powers in W, GDDR7 device powers in units of 0.25 W. -/
structure Sensors where
  hearthT : List (Option Nat)
  memT : List (Option Nat)
  ioT : Option Nat
  codT : Option Nat
  hearthI : List (Option Nat)
  memW : List (Option Nat)
  ioW : Option Nat
  codW : Option Nat
  inputW : Option Nat
  gddr : List (Option Nat)
  deriving DecidableEq, Repr

/-- A unit that scrubs its protected words in idle waves (R129, R167, R250, R342), or the landing buffers, which no unit scrubs (R295). -/
inductive ScrubUnit where
  | me (h : Fin 16) (i : Fin 16)
  | awl (core : Core)
  | row (h : Fin 16)
  | codec
  | landing
  deriving DecidableEq, Repr

/-- An idle scrub of a unit, with the bits that have flipped in its words since, by word and number (R129). -/
structure IdleScrub where
  unit : ScrubUnit
  arisen : List (Nat × Nat)
  deriving DecidableEq, Repr

/-- A host access through BAR4 (R378): bytes from offset x. -/
inductive BarAccess where
  | read (x len : Nat)
  | write (x : Nat) (d : Bytes)
  deriving DecidableEq, Repr

/-- An edge clock domain that loses its link, its clock or its partner (R21, R22, Table 1-5). -/
inductive EdgeDomain where
  | link (l : Fin 13)
  | pcie (p : Fin 2)
  | cxl (n : Fin 4)
  | gddr (d : Fin 2)
  | flash
  deriving DecidableEq, Repr

/-- A host configuration write to a PCIe port, by what it sets (R369, R377, R380). -/
inductive PciWrite where
  | busMaster (on : Bool)
  | power (d3hot : Bool)
  | msixEnable (on : Bool)
  | msixFunctionMask (on : Bool)
  | completionTimeout (v : Nat)
  | other
  deriving DecidableEq, Repr

/-- A frame as it arrives on a Colkin or Girth link (R385 to R387): the 12-byte header, the payload, whether the FEC and the CRC found it
good, and the codewords that the FEC corrected (Table 15-12). -/
structure Frame where
  hdr : Bytes
  payload : Bytes
  fecOk : Bool
  crcOk : Bool
  corrected : BitVec 16
  deriving DecidableEq, Repr

/-- The commands and events the block takes: one constructor per row of the spec's table of operations and events. -/
inductive Instr where
  /-- AUX_TURN_ON: 3V3_AUX rises through 3.10 V: the module enters AUX, the management endpoint starts and derives its attestation key (R469) -/
  | auxTurnOn
  /-- AUX_TURN_OFF: 3V3_AUX falls below 3.00 V: everything stops and the module enters OFF (R469) -/
  | auxTurnOff
  /-- MAIN_INPUT_VALID: VIN has stayed in window with PWR_EN high for 20 ms after the switch closed: the rails rise and Kindling starts at stage 0x01, or holds under SCAN_HOLD (R466) -/
  | mainInputValid (scanHold fuseOk : Bool)
  /-- MAIN_INPUT_INVALID: VIN stays below 37 V for 200 us, exceeds 62 V, or PWR_EN goes low: the main rails switch off and the module enters AUX (R469) -/
  | mainInputInvalid
  /-- THERMAL_TRIP: A second successive sensor reading at 112 C or more drives THERM_TRIP_N low and shuts the main rails down (R471) -/
  | thermalTrip
  /-- REGULATOR_TRIP: A regulator trips on current, voltage or sequencing; PWR_FAULT_N goes low and the module enters AUX (R471) -/
  | regulatorTrip
  /-- TRIP_RELEASE: PWR_EN has been low for 100 ms, so THERM_TRIP_N and PWR_FAULT_N are released and the input switch may close again (R471) -/
  | tripRelease
  /-- STOP_REQ_EDGE: A qualified rising edge on STOP_REQ starts a global stop (R465) -/
  | stopReqEdge
  /-- TWIN_PRESENT_FALL: TWIN_PRS_IN falls, and Girth becomes FAILED without retraining (R395) -/
  | twinPresentFall
  /-- KINDLE_STAGE_DONE: A Kindling stage that took time (training or bank clear) completes, and Kindling goes on to the next stage or ends fatally (R37) -/
  | kindleStageDone (r : StageResult)
  /-- REKINDLE: The lead host writes 0x4B49 to DEV_CTL.REKINDLE_KEY, which starts a global stop ahead of a re-kindle (R53) -/
  | rekindle (src : Src) (v : BitVec 64)
  /-- REKINDLE_ENTER: Once the global stop is complete, REKINDLED records are written for every open ticket and the device enters KINDLING (R53) -/
  | rekindleEnter (fuseOk : Bool)
  /-- FUNC_STOP: DEV_FUNC_CTL OP 1 from the lead host moves a RUN function to STOPPING (R44) -/
  | funcStop (src : Src) (f : BitVec 8)
  /-- FUNC_STOP_COMPLETE: A STOPPING function finishes its begun work and becomes STOPPED (R44) -/
  | funcStopComplete (f : BitVec 8)
  /-- FUNC_RESTART: DEV_FUNC_CTL OP 2 validates all pending values of a STOPPED function together, applies them and enters RUN, or records CFG_INVALID (R45) -/
  | funcRestart (src : Src) (f : BitVec 8) (t : Training)
  /-- CONFIG_WRITE: A write to a configuration register is held as a pending value if its function is STOPPED, and is otherwise ignored with CFG_RUNNING (R45) -/
  | configWrite (src : Src) (off : Nat) (v : BitVec 64)
  /-- REGISTER_WRITE: A BAR0 write to a register that has no row of its own acts according to the access codes of its fields (R10) -/
  | registerWrite (src : Src) (off len : Nat) (v : BitVec 64)
  /-- READ_CLEAR: A read of an RC register returns its value and then clears it (R10) -/
  | readClear (src : Src) (off : Nat)
  /-- CANCEL_TICKET: A write to DEV_CANCEL cancels a ticket: no further command starts, prefetch is discarded and the step in progress is abandoned (R52) -/
  | cancelTicket (src : Src) (t : BitVec 48)
  /-- DOORBELL_WRITE: A write to a ring doorbell sets TAIL if the value is in range, and is otherwise refused with DOORBELL_INVALID (R374) -/
  | doorbellWrite (p : Fin 2) (r : Fin 4) (len : Nat) (v : BitVec 64)
  /-- RING_ENABLE: Setting ENABLE checks the ring placement, zeroes HEAD and TAIL and enables the ring (R373) -/
  | ringEnable (src : Src) (p : Fin 2) (r : Fin 4) (v : BitVec 64)
  /-- RING_DISABLE: Clearing ENABLE stops intake and discards the untaken entries (R376) -/
  | ringDisable (src : Src) (p : Fin 2) (r : Fin 4)
  /-- TICKET_INTAKE: Supervisor core 0 takes the next ticket from a ring in round-robin order and checks it under R48 (R375) -/
  | ticketIntake (rd : HostRead)
  /-- TICKET_START: Supervisor cores start accepted tickets by priority and order of acceptance once their functions allow (R50) -/
  | ticketStart
  /-- KIND2_START: Supervisor core 3 loads and starts the next KIND 2 program (R195) -/
  | kind2Start
  /-- COMMAND_FETCH: A dispatcher fetches the next command of a ticket into its window, gives it a sequence number and decodes it (R135) -/
  | commandFetch (h : Fin 16)
  /-- COMMAND_READY: A command's dependencies and queue conditions are met, so it pops its inputs, reserves its OUT_Q entry and makes its deferred checks (R155) -/
  | commandReady (h : Fin 16) (seq : BitVec 32)
  /-- TILE_FETCH_COMPLETE: A prefetched staging tile arrives at its level (R149) -/
  | tileFetchComplete (h : Fin 16) (seq : BitVec 32) (level : Fin 3) (ref : BitVec 8)
  /-- COMMAND_COMPLETE: A command's last unit finishes: its units and staging are released, its handle is put, and the dispatcher schedules again (R155) -/
  | commandComplete (h : Fin 16) (seq : BitVec 32)
  /-- HANDLE_PUT: A handle put arrives over the tack path and takes effect in the named queue (R156) -/
  | handlePut (n : Nat)
  /-- COMMIT: Every update and gather of step n is done and the twin has acknowledged step n-1, so the step commits indivisibly and the generation increases (R24) -/
  | commit (t : BitVec 48)
  /-- GRANT_REQUEST: The Damper handles a pending core-pool request and grants it whole if it fits under the effective ceiling (R71) -/
  | grantRequest
  /-- RESERVATION: A request passed over STARVE_LIMIT times is reserved (R72) -/
  | reservation (h : Fin 16)
  /-- SHED_STEP: After SHED_COUNT successive refusals, the hearths holding ME increments are lowered one step (R69) -/
  | shedStep
  /-- TOKEN_RELEASE: A command's increment, or an Awl holding, is returned to the pool (R57) -/
  | tokenRelease (h : Fin 16)
  /-- REGULATOR_IN_WINDOW: A regulator reports its new voltage in window, and the voltage step completes with its holding adjusted (R70) -/
  | regulatorInWindow (h : Fin 16)
  /-- SENSOR_READING: The Damper takes a sensor reading and recomputes the effective ceiling (R62) -/
  | sensorReading (r : Sensors)
  /-- OVERDRAW_RECOVER_STEP: After 16 consecutive readings within the holding, the hearth is raised one step towards its set voltage (R65) -/
  | overdrawRecoverStep (h : Fin 16)
  /-- BELLOWS_STEP: After each group interval, Bellows enables or disables the next 16 rows of an ME (R77) -/
  | bellowsStep (h : Fin 16) (i : Fin 16)
  /-- ME_WAKE_COMPLETE: A power-gated ME finishes waking, about 256 waves after its wake began (R59) -/
  | meWakeComplete (h : Fin 16) (i : Fin 16)
  /-- SLOT_READOUT: The readout of a finished output completes, and its slots become FREE (R126) -/
  | slotReadout (h : Fin 16) (i : Fin 16)
  /-- ME_TEST: Writing MXE_CTL.TEST in a STOPPED hearth wakes the ME and requests tokens for its built-in test (R131) -/
  | meTest (src : Src) (h : Fin 16) (i : Fin 16)
  /-- ME_TEST_COMPLETE: The built-in test ends, reports its result, and clears FAULTED if it passed (R131) -/
  | meTestComplete (h : Fin 16) (i : Fin 16) (pass : Bool)
  /-- IDLE_SCRUB: In idle waves a unit rewrites its protected words: kept slots, local stores, statistics memory or syntax buffer (R129) -/
  | idleScrub (u : IdleScrub)
  /-- NOP: NOP command; does no work (R138) -/
  | nop (h : Fin 16) (seq : BitVec 32)
  /-- STEP_END: Closes a step on its hearth and completes as it is fetched (R136) -/
  | stepEnd (h : Fin 16) (seq : BitVec 32)
  /-- QPUT: QPUT command places a handle in a queue (R157) -/
  | qput (h : Fin 16) (seq : BitVec 32)
  /-- XFER: Executes a list of transfer descriptors (R152) -/
  | xfer (h : Fin 16) (seq : BitVec 32)
  /-- TACK: Moves up to 256 bytes over the tack path (R154) -/
  | tack (h : Fin 16) (seq : BitVec 32)
  /-- HANDOVER_WORD: A handover word reaches the bank control region and changes or refuses a bank's owner (R328) -/
  | handoverWord (who : BitVec 8) (w : BitVec 64)
  /-- MM: Matrix product on the MEs of ME_MASK (R140) -/
  | mm (h : Fin 16) (seq : BitVec 32)
  /-- CONV: Implicit convolution on the MEs (R198) -/
  | conv (h : Fin 16) (seq : BitVec 32)
  /-- POOL: Pooling on the Awl cores (R221) -/
  | pool (h : Fin 16) (seq : BitVec 32)
  /-- ATTN: Attention over two sweeps with the row engine, dense or as a paged walk (R224) -/
  | attn (h : Fin 16) (seq : BitVec 32)
  /-- KV_HOME_REQUEST: The home sequencer handles a latch, release, allocation or commit request for its cache (R241) -/
  | kvHomeRequest (h : Fin 16) (seq : BitVec 32)
  /-- SWAP_OUT_COMPLETE: A victim's page copies take effect: entries are rewritten, pages are freed and the sequence becomes SWAPPED (R246) -/
  | swapOutComplete (h : Fin 16) (seq : BitVec 32)
  /-- SWAP_IN_COMPLETE: A resumed sequence's pages have been copied back and it becomes ACTIVE (R247) -/
  | swapInComplete (h : Fin 16) (seq : BitVec 32)
  /-- KV_RETRY: A walk waiting for pages retries when pages are pushed or holds fall (R248) -/
  | kvRetry (h : Fin 16) (seq : BitVec 32)
  /-- PT_COMMIT: Publishes the edit slot of a KV cache as live (R245) -/
  | ptCommit (h : Fin 16) (seq : BitVec 32)
  /-- PT_COMMIT_RELEASE: Once the former live slot has no walks, released pages are pushed and the tables are copied (R245) -/
  | ptCommitRelease (h : Fin 16) (seq : BitVec 32)
  /-- ROW_FWD: Row engine softmax or normalisation (R236) -/
  | rowFwd (h : Fin 16) (seq : BitVec 32)
  /-- ROW_BWD: Row engine backward, or statistics export and import (R257) -/
  | rowBwd (h : Fin 16) (seq : BitVec 32)
  /-- AWL: Starts Awl code on the cores of AWL_MASK (R168) -/
  | awl (h : Fin 16) (seq : BitVec 32)
  /-- STASH_PUT: Narrows an activation and places it near, far, dropped or waiting (R265) -/
  | stashPut (h : Fin 16) (seq : BitVec 32)
  /-- STASH_STORE_COMPLETE: A stash entry's last byte takes effect; it becomes NEAR or FAR and the PUT completes (R265) -/
  | stashStoreComplete (h : Fin 16) (seq : BitVec 32)
  /-- STASH_PUT_RETRY: Waiting PUTs are retried, oldest first, when pages are freed (R266) -/
  | stashPutRetry (h : Fin 16) (seq : BitVec 32)
  /-- STASH_GET: Reads a stash entry back, or runs its recompute segment (R268) -/
  | stashGet (h : Fin 16) (seq : BitVec 32)
  /-- REDUCE: Reduces gradients onto owners or onto a root (R286) -/
  | reduce (h : Fin 16) (seq : BitVec 32)
  /-- UPDATE: Runs the optimiser on the owned shard into the other slot (R299) -/
  | update (h : Fin 16) (seq : BitVec 32)
  /-- UPDATE_RESUME: An UPDATE waiting for holds or an earlier pending step proceeds (R299) -/
  | updateResume (h : Fin 16) (seq : BitVec 32)
  /-- GATHER: Spreads updated shards, or sends or receives a tensor point-to-point (R307) -/
  | gather (h : Fin 16) (seq : BitVec 32)
  /-- DECODE: Decodes one clip and optionally ingests it (R345) -/
  | decode (h : Fin 16) (seq : BitVec 32)
  /-- CODEC_LANE_START: A waiting codec command starts on an idle lane once its pool and rail grant allow (R340) -/
  | codecLaneStart (h : Fin 16) (seq : BitVec 32)
  /-- INGEST_GROUP: The ingest path writes a group of PT pictures once all are present, then frees their slots (R360) -/
  | ingestGroup (h : Fin 16) (seq : BitVec 32)
  /-- INGEST: Converts kept pictures into tensors (R361) -/
  | ingest (h : Fin 16) (seq : BitVec 32)
  /-- ENCODE: Encodes tensors into an HEVC or AV1 bitstream (R362) -/
  | encode (h : Fin 16) (seq : BitVec 32)
  /-- CKPT: Stages the committed state as an image for flash, host or parity (R415) -/
  | ckpt (h : Fin 16) (seq : BitVec 32)
  /-- FLASH_DRAIN: A staged image is drained into a flash slot, header written last (R416) -/
  | flashDrain (retired : Nat)
  /-- HOST_STORE_DRAIN: A staged image is written to a host window, COMPLETE last (R418) -/
  | hostStoreDrain
  /-- ADD: rd := ra + rb (R178) -/
  | add (core : Core) (rd : Fin 32) (ra : Fin 32) (rb : Fin 32)
  /-- SUB: rd := ra - rb (R178) -/
  | sub (core : Core) (rd : Fin 32) (ra : Fin 32) (rb : Fin 32)
  /-- AND: Bitwise AND (R178) -/
  | and (core : Core) (rd : Fin 32) (ra : Fin 32) (rb : Fin 32)
  /-- OR: Bitwise OR (R178) -/
  | or (core : Core) (rd : Fin 32) (ra : Fin 32) (rb : Fin 32)
  /-- XOR: Bitwise XOR (R178) -/
  | xor (core : Core) (rd : Fin 32) (ra : Fin 32) (rb : Fin 32)
  /-- SLL: Logical shift left (R178) -/
  | sll (core : Core) (rd : Fin 32) (ra : Fin 32) (rb : Fin 32)
  /-- SRL: Logical shift right (R178) -/
  | srl (core : Core) (rd : Fin 32) (ra : Fin 32) (rb : Fin 32)
  /-- SRA: Arithmetic shift right (R178) -/
  | sra (core : Core) (rd : Fin 32) (ra : Fin 32) (rb : Fin 32)
  /-- SLT: Signed set-less-than (R178) -/
  | slt (core : Core) (rd : Fin 32) (ra : Fin 32) (rb : Fin 32)
  /-- SLTU: Unsigned set-less-than (R178) -/
  | sltu (core : Core) (rd : Fin 32) (ra : Fin 32) (rb : Fin 32)
  /-- MUL: Low 64 bits of the product (R178) -/
  | mul (core : Core) (rd : Fin 32) (ra : Fin 32) (rb : Fin 32)
  /-- MULH: High 64 bits of the signed product (R178) -/
  | mulh (core : Core) (rd : Fin 32) (ra : Fin 32) (rb : Fin 32)
  /-- MULHU: High 64 bits of the unsigned product (R178) -/
  | mulhu (core : Core) (rd : Fin 32) (ra : Fin 32) (rb : Fin 32)
  /-- DIV: Signed quotient (R179) -/
  | div (core : Core) (rd : Fin 32) (ra : Fin 32) (rb : Fin 32)
  /-- DIVU: Unsigned quotient (R179) -/
  | divu (core : Core) (rd : Fin 32) (ra : Fin 32) (rb : Fin 32)
  /-- REM: Signed remainder (R179) -/
  | rem (core : Core) (rd : Fin 32) (ra : Fin 32) (rb : Fin 32)
  /-- REMU: Unsigned remainder (R179) -/
  | remu (core : Core) (rd : Fin 32) (ra : Fin 32) (rb : Fin 32)
  /-- MIN: Signed minimum (R178) -/
  | min (core : Core) (rd : Fin 32) (ra : Fin 32) (rb : Fin 32)
  /-- MAX: Signed maximum (R178) -/
  | max (core : Core) (rd : Fin 32) (ra : Fin 32) (rb : Fin 32)
  /-- MINU: Unsigned minimum (R178) -/
  | minu (core : Core) (rd : Fin 32) (ra : Fin 32) (rb : Fin 32)
  /-- MAXU: Unsigned maximum (R178) -/
  | maxu (core : Core) (rd : Fin 32) (ra : Fin 32) (rb : Fin 32)
  /-- CLZ: Counts leading zeros (R178) -/
  | clz (core : Core) (rd : Fin 32) (ra : Fin 32)
  /-- POPC: Counts set bits (R178) -/
  | popc (core : Core) (rd : Fin 32) (ra : Fin 32)
  /-- ADDI: Adds an immediate (R178) -/
  | addi (core : Core) (rd : Fin 32) (ra : Fin 32) (imm : BitVec 16)
  /-- ANDI: ANDs a zero-extended immediate (R178) -/
  | andi (core : Core) (rd : Fin 32) (ra : Fin 32) (imm : BitVec 16)
  /-- ORI: ORs a zero-extended immediate (R178) -/
  | ori (core : Core) (rd : Fin 32) (ra : Fin 32) (imm : BitVec 16)
  /-- XORI: XORs a zero-extended immediate (R178) -/
  | xori (core : Core) (rd : Fin 32) (ra : Fin 32) (imm : BitVec 16)
  /-- SLTI: Signed compare with an immediate (R178) -/
  | slti (core : Core) (rd : Fin 32) (ra : Fin 32) (imm : BitVec 16)
  /-- SLTIU: Unsigned compare with an immediate (R178) -/
  | sltiu (core : Core) (rd : Fin 32) (ra : Fin 32) (imm : BitVec 16)
  /-- SHI: Shift by an immediate amount (R178) -/
  | shi (core : Core) (rd : Fin 32) (ra : Fin 32) (kind : Fin 3) (amt : Fin 64)
  /-- SHLO: Shifts left 16 bits and ORs in an immediate (R178) -/
  | shlo (core : Core) (rd : Fin 32) (ra : Fin 32) (imm : BitVec 16)
  /-- BEQ: Branch if equal (R176) -/
  | beq (core : Core) (ra : Fin 32) (rb : Fin 32) (off : BitVec 16)
  /-- BNE: Branch if not equal (R176) -/
  | bne (core : Core) (ra : Fin 32) (rb : Fin 32) (off : BitVec 16)
  /-- BLT: Branch if less, signed (R176) -/
  | blt (core : Core) (ra : Fin 32) (rb : Fin 32) (off : BitVec 16)
  /-- BGE: Branch if greater or equal, signed (R176) -/
  | bge (core : Core) (ra : Fin 32) (rb : Fin 32) (off : BitVec 16)
  /-- BLTU: Branch if less, unsigned (R176) -/
  | bltu (core : Core) (ra : Fin 32) (rb : Fin 32) (off : BitVec 16)
  /-- BGEU: Branch if greater or equal, unsigned (R176) -/
  | bgeu (core : Core) (ra : Fin 32) (rb : Fin 32) (off : BitVec 16)
  /-- J: Jump (R176) -/
  | j (core : Core) (off : BitVec 26)
  /-- JAL: Jump and link to s31 (R176) -/
  | jal (core : Core) (off : BitVec 26)
  /-- JALR: Jump to a register plus an offset, and link (R176) -/
  | jalr (core : Core) (rd : Fin 32) (ra : Fin 32) (imm : BitVec 16)
  /-- LB: Load byte, sign-extended (R165) -/
  | lb (core : Core) (rd : Fin 32) (ra : Fin 32) (imm : BitVec 16)
  /-- LBU: Load byte, zero-extended (R165) -/
  | lbu (core : Core) (rd : Fin 32) (ra : Fin 32) (imm : BitVec 16)
  /-- LH: Load half-word, sign-extended (R165) -/
  | lh (core : Core) (rd : Fin 32) (ra : Fin 32) (imm : BitVec 16)
  /-- LHU: Load half-word, zero-extended (R165) -/
  | lhu (core : Core) (rd : Fin 32) (ra : Fin 32) (imm : BitVec 16)
  /-- LW: Load word, sign-extended (R165) -/
  | lw (core : Core) (rd : Fin 32) (ra : Fin 32) (imm : BitVec 16)
  /-- LWU: Load word, zero-extended (R165) -/
  | lwu (core : Core) (rd : Fin 32) (ra : Fin 32) (imm : BitVec 16)
  /-- LD: Load double-word (R165) -/
  | ld (core : Core) (rd : Fin 32) (ra : Fin 32) (imm : BitVec 16)
  /-- SB: Store byte (R165) -/
  | sb (core : Core) (rd : Fin 32) (ra : Fin 32) (imm : BitVec 16)
  /-- SH: Store half-word (R165) -/
  | sh (core : Core) (rd : Fin 32) (ra : Fin 32) (imm : BitVec 16)
  /-- SW: Store word (R165) -/
  | sw (core : Core) (rd : Fin 32) (ra : Fin 32) (imm : BitVec 16)
  /-- SD: Store double-word (R165) -/
  | sd (core : Core) (rd : Fin 32) (ra : Fin 32) (imm : BitVec 16)
  /-- VLD: 64-byte vector load (R165) -/
  | vld (core : Core) (vd : Fin 16) (ra : Fin 32) (imm : BitVec 16)
  /-- VST: 64-byte vector store (R165) -/
  | vst (core : Core) (vd : Fin 16) (ra : Fin 32) (imm : BitVec 16)
  /-- VADD: Lane-wise add (R181) -/
  | vadd (core : Core) (et : Fin 8) (vd : Fin 16) (va : Fin 16) (vb : Fin 16)
  /-- VSUB: Lane-wise subtract (R181) -/
  | vsub (core : Core) (et : Fin 8) (vd : Fin 16) (va : Fin 16) (vb : Fin 16)
  /-- VMUL: Lane-wise multiply (R181) -/
  | vmul (core : Core) (et : Fin 8) (vd : Fin 16) (va : Fin 16) (vb : Fin 16)
  /-- VFMA: Fused multiply-add (R181) -/
  | vfma (core : Core) (et : Fin 8) (vd : Fin 16) (va : Fin 16) (vb : Fin 16)
  /-- VFMAW: Widening FMA into an FP32 pair (R181) -/
  | vfmaw (core : Core) (et : Fin 8) (vd : Fin 16) (va : Fin 16) (x : Fin 32)
  /-- VMIN: Lane minimum (R181) -/
  | vmin (core : Core) (et : Fin 8) (vd : Fin 16) (va : Fin 16) (vb : Fin 16)
  /-- VMAX: Lane maximum (R181) -/
  | vmax (core : Core) (et : Fin 8) (vd : Fin 16) (va : Fin 16) (vb : Fin 16)
  /-- VABS: Absolute value (R181) -/
  | vabs (core : Core) (et : Fin 8) (vd : Fin 16) (va : Fin 16)
  /-- VNEG: Negation (R181) -/
  | vneg (core : Core) (et : Fin 8) (vd : Fin 16) (va : Fin 16)
  /-- VAND: Bitwise AND (R181) -/
  | vand (core : Core) (et : Fin 8) (vd : Fin 16) (va : Fin 16) (vb : Fin 16)
  /-- VOR: Bitwise OR (R181) -/
  | vor (core : Core) (et : Fin 8) (vd : Fin 16) (va : Fin 16) (vb : Fin 16)
  /-- VXOR: Bitwise XOR (R181) -/
  | vxor (core : Core) (et : Fin 8) (vd : Fin 16) (va : Fin 16) (vb : Fin 16)
  /-- VSHL: Shift left (R181) -/
  | vshl (core : Core) (et : Fin 8) (vd : Fin 16) (va : Fin 16) (x : Fin 32)
  /-- VSHRL: Logical shift right (R181) -/
  | vshrl (core : Core) (et : Fin 8) (vd : Fin 16) (va : Fin 16) (x : Fin 32)
  /-- VSHRA: Arithmetic shift right (R181) -/
  | vshra (core : Core) (et : Fin 8) (vd : Fin 16) (va : Fin 16) (x : Fin 32)
  /-- VADDS: Saturating add (R181) -/
  | vadds (core : Core) (et : Fin 8) (vd : Fin 16) (va : Fin 16) (vb : Fin 16)
  /-- VSUBS: Saturating subtract (R181) -/
  | vsubs (core : Core) (et : Fin 8) (vd : Fin 16) (va : Fin 16) (vb : Fin 16)
  /-- VCEQ: Compare equal (R181) -/
  | vceq (core : Core) (et : Fin 8) (vd : Fin 16) (va : Fin 16) (vb : Fin 16)
  /-- VCLT: Compare less (R181) -/
  | vclt (core : Core) (et : Fin 8) (vd : Fin 16) (va : Fin 16) (vb : Fin 16)
  /-- VCLE: Compare less or equal (R181) -/
  | vcle (core : Core) (et : Fin 8) (vd : Fin 16) (va : Fin 16) (vb : Fin 16)
  /-- VSEL: Lane select (R181) -/
  | vsel (core : Core) (et : Fin 8) (vd : Fin 16) (va : Fin 16) (vb : Fin 16)
  /-- VDIV: Floating-point division (R181) -/
  | vdiv (core : Core) (et : Fin 8) (vd : Fin 16) (va : Fin 16) (vb : Fin 16)
  /-- VSQRT: Floating-point square root (R181) -/
  | vsqrt (core : Core) (et : Fin 8) (vd : Fin 16) (va : Fin 16)
  /-- VEXP: Exponential (R182) -/
  | vexp (core : Core) (et : Fin 8) (vd : Fin 16) (va : Fin 16)
  /-- VLOG: Natural logarithm (R182) -/
  | vlog (core : Core) (et : Fin 8) (vd : Fin 16) (va : Fin 16)
  /-- VTANH: Hyperbolic tangent (R182) -/
  | vtanh (core : Core) (et : Fin 8) (vd : Fin 16) (va : Fin 16)
  /-- VERF: Error function (R182) -/
  | verf (core : Core) (et : Fin 8) (vd : Fin 16) (va : Fin 16)
  /-- VBCAST: Broadcasts a scalar to every lane (R181) -/
  | vbcast (core : Core) (et : Fin 8) (vd : Fin 16) (x : Fin 32)
  /-- VEXT: Extracts a lane to a scalar register (R181) -/
  | vext (core : Core) (et : Fin 8) (va : Fin 16) (lane : BitVec 8) (x : Fin 32)
  /-- VINS: Inserts a scalar into a lane (R181) -/
  | vins (core : Core) (et : Fin 8) (vd : Fin 16) (lane : BitVec 8) (x : Fin 32)
  /-- VMOV: Vector move (R181) -/
  | vmov (core : Core) (et : Fin 8) (vd : Fin 16) (va : Fin 16)
  /-- VPERM: Lane permute (R181) -/
  | vperm (core : Core) (et : Fin 8) (vd : Fin 16) (va : Fin 16) (vb : Fin 16)
  /-- VRSUM: Sum of the lanes to a scalar register (R183) -/
  | vrsum (core : Core) (et : Fin 8) (va : Fin 16) (x : Fin 32)
  /-- VRMAX: Largest lane to a scalar register (R183) -/
  | vrmax (core : Core) (et : Fin 8) (va : Fin 16) (x : Fin 32)
  /-- VRMIN: Smallest lane to a scalar register (R183) -/
  | vrmin (core : Core) (et : Fin 8) (va : Fin 16) (x : Fin 32)
  /-- VAMAX: Folds finite lane magnitudes into AMAX (R183) -/
  | vamax (core : Core) (et : Fin 8) (va : Fin 16)
  /-- CR_READ: Reads a control register (R184) -/
  | crRead (core : Core) (rd : Fin 32) (n : Fin 8)
  /-- CR_WRITE: Writes a control register (R184) -/
  | crWrite (core : Core) (ra : Fin 32) (n : Fin 8)
  /-- VCVT: Converts 32 elements between formats (R186) -/
  | vcvt (core : Core) (vd : Fin 16) (va : Fin 16) (rm : Fin 2) (dfmt sfmt : BitVec 8)
  /-- TACK_READ: Tack-path read of device bytes into the local store (R187) -/
  | tackRead (core : Core) (rd : Fin 32) (ra : Fin 32) (rb : Fin 32)
  /-- TACK_WRITE: Tack-path write of local-store bytes to a device address (R187) -/
  | tackWrite (core : Core) (rd : Fin 32) (ra : Fin 32) (rb : Fin 32)
  /-- TACK_READ_FILL: An outstanding tack read fills its local destination (R188) -/
  | tackReadFill (core : Core) (n : Nat)
  /-- AWL_QPUT: QOP QPUT puts a handle into a queue (R189) -/
  | awlQput (core : Core) (ra : Fin 32) (rb : Fin 32)
  /-- QGET: Pops the oldest entry of a queue, waiting if the queue is empty (R189) -/
  | qget (core : Core) (rd : Fin 32) (rb : Fin 32)
  /-- QTRY: Pops an entry without waiting (R189) -/
  | qtry (core : Core) (rd : Fin 32) (rb : Fin 32)
  /-- WAIT_OWN: Waits for the core's own outstanding transfers and puts (R190) -/
  | waitOwn (core : Core)
  /-- WAIT_SEQ: Waits for a command to complete or be dropped (R190) -/
  | waitSeq (core : Core) (ra : Fin 32)
  /-- AWL_WAIT_END: A core waiting in QGET, QPUT, WAIT, TOK or the outstanding limit finds its condition met and continues (R188) -/
  | awlWaitEnd (core : Core)
  /-- TOK_REQUEST: Requests an increment of RP tokens and waits for the grant (R191) -/
  | tokRequest (core : Core) (n : BitVec 8)
  /-- TOK_RELEASE: Releases the core's token holding (R191) -/
  | tokRelease (core : Core)
  /-- HALT: Ends the core's part of its command or program (R172) -/
  | halt (core : Core)
  /-- TRAP: Faults with AWL_TRAP (R192) -/
  | trap (core : Core) (ra : Fin 32)
  /-- FENCE: Orders the core's earlier accesses before its later ones (R192) -/
  | fence (core : Core)
  /-- EMIT: Records an Ember program event (R192) -/
  | emit (core : Core) (ra : Fin 32)
  /-- SREGR: A supervisor core reads a BAR0 register (R192) -/
  | sregr (core : Core) (rd : Fin 32) (ra : Fin 32)
  /-- SREGW: A supervisor core writes a BAR0 register as the non-lead host (R192) -/
  | sregw (core : Core) (ra : Fin 32) (rb : Fin 32)
  /-- AWL_BUDGET: A core reaches INSN_LIMIT x 1,024 retired instructions and faults (R175) -/
  | awlBudget (core : Core)
  /-- BAR4_ACCESS: A host access through BAR4 to a shared bank is checked against ownership and served (R378) -/
  | bar4Access (p : Fin 2) (acc : BarAccess)
  /-- BNK_HANDOVER_WRITE: A write of BNK_HANDOVER changes a bank's owner or is refused (R328) -/
  | bnkHandoverWrite (src : Src) (v : BitVec 64)
  /-- BANK_CLEAR_COMPLETE: A waking bank finishes clearing, and its waiting accesses proceed (R332) -/
  | bankClearComplete (n : Fin 144)
  /-- MEM_SCRUB_GROUP: After SCRUB_REF refresh commands, a controller scrubs its next group (R318) -/
  | memScrubGroup (c : Fin 24) (arisen : List (Nat × Nat))
  /-- GDDR7_RETRAIN: After RETRY_MAX consecutive CRC failures, a controller retrains its device (R319) -/
  | gddr7Retrain (c : Fin 24)
  /-- GDDR7_RETRAIN_COMPLETE: The retraining ends, and the controller resumes its requests or becomes FAILED (R319) -/
  | gddr7RetrainComplete (c : Fin 24) (ok : Bool)
  /-- EDGE_DOMAIN_LOSS: An edge domain loses its link, clock or partner and completes its pending requests with an error (R22) -/
  | edgeDomainLoss (d : EdgeDomain)
  /-- PORT_LINK_UP: A PCIe port's link comes up; the lead may be recovered and held messages sent (R379) -/
  | portLinkUp (p : Fin 2) (t : PcieTrain)
  /-- PORT_LINK_DOWN: A PCIe port's link goes down; its host-window requests fail and the lead may pass to the other port (R379) -/
  | portLinkDown (p : Fin 2)
  /-- PORT_RESET: A fundamental, hot or function-level reset (or PERST_N) disables the port's rings and clears its interrupts (R370) -/
  | portReset (p : Fin 2)
  /-- PCIE_CONFIG_WRITE: A host configuration write, for example to Bus Master Enable or the power state, changes the port's request behaviour (R377) -/
  | pcieConfigWrite (p : Fin 2) (w : PciWrite)
  /-- LEAD_GIVE: HIF_LEAD.OP 1 passes the lead to the other port or is refused (R379) -/
  | leadGive (src : Src)
  /-- IRQ_CLEAR: A W1C write to HIF_IRQ_p clears pending bits so that the next cause sends a message (R380) -/
  | irqClear (src : Src) (p : Fin 2) (v : BitVec 64)
  /-- ACK: An ACK frame releases the acknowledged frames from the replay buffer (R387) -/
  | ack (l : Fin 13) (f : Frame)
  /-- NAK: A NAK frame makes the sender replay from its LSEQ (R387) -/
  | nak (l : Fin 13) (f : Frame)
  /-- LINK_RETRAIN: After REPLAY_MAX NAKs, or on loss of lane lock, a link retrains (R395) -/
  | linkRetrain (l : Fin 13)
  /-- LINK_RETRAIN_COMPLETE: A retraining succeeds and the link resumes, or the link becomes FAILED (R395) -/
  | linkRetrainComplete (l : Fin 13) (t : LinkTrain)
  /-- LCREDIT: An LCREDIT frame grants link credits for each pair (VC, HOP) (R388) -/
  | lcredit (l : Fin 13) (f : Frame)
  /-- HELLO: A HELLO frame is checked against the expected peer (R393) -/
  | hello (l : Fin 13) (f : Frame)
  /-- REJECT: A REJECT frame fails the command that owns the stream (R390) -/
  | reject (l : Fin 13) (f : Frame)
  /-- ECREDIT: An ECREDIT frame returns landing credit, and waiting segments may proceed (R295) -/
  | ecredit (l : Fin 13) (f : Frame)
  /-- STOP_MARK: A STOP_MARK frame acts as a marker, starts a followed stop, is echoed, or resumes (R443) -/
  | stopMark (l : Fin 13) (f : Frame)
  /-- OPEN: An OPEN frame starts a stream and is matched with the local command or forwarded (R391) -/
  | openFrame (l : Fin 13) (f : Frame)
  /-- DATA: A DATA frame's bytes are consumed by their units, or the frame is forwarded (R392) -/
  | dataFrame (l : Fin 13) (f : Frame)
  /-- MIRROR_SEND: After a commit, supervisor core 1 takes holds and sends the mirror image to the twin (R396) -/
  | mirrorSend
  /-- MIRROR_ACK: A MIRROR_ACK frame meets the twin condition of R24 and releases the holds (R396) -/
  | mirrorAck (l : Fin 13) (f : Frame)
  /-- MIRROR_NAK: A MIRROR_NAK frame makes the sender resend the image or fail the mirror (R398) -/
  | mirrorNak (l : Fin 13) (f : Frame)
  /-- TWIN_RETURN: GRT_CTL.OP 1 sends the held image back to the twin as a RETURN stream (R401) -/
  | twinReturn (src : Src)
  /-- LANE_TEST_CLEAR: CLK_LT_CTL.CLEAR clears a lane's bit and error counts (R402) -/
  | laneTestClear (src : Src) (n : Fin 104)
  /-- RESTORE: MGT_RESTORE OP 1 checks an image and writes the committed state from it (R428) -/
  | restore (src : Src) (v : BitVec 64) (corrected : Nat) (uncorrectable : Bool)
  /-- ROLLBACK: MGT_RESTORE OP 2 returns the module to its previous commit (R424) -/
  | rollback (src : Src) (v : BitVec 64)
  /-- FILL: MGT_RESTORE OP 3 exchanges working and forward shards among members (R429) -/
  | fill (src : Src) (v : BitVec 64)
  /-- SERVE: MGT_RESTORE OP 4 sends parity chunks from flash to a peer (R430) -/
  | serve (src : Src) (v : BitVec 64) (corrected : Nat) (uncorrectable : Bool)
  /-- EMBER_FREEZE: EMB_CTL.FREEZE 1 stops every ring from taking entries (R439) -/
  | emberFreeze (src : Src)
  /-- EMBER_UNFREEZE: EMB_CTL.FREEZE 0 unfreezes the rings and writes LOST entries (R439) -/
  | emberUnfreeze (src : Src)
  /-- GLOBAL_STOP: MGT_STOP_CTL OP 1 from the lead host starts a global stop (R440) -/
  | globalStop (src : Src)
  /-- STOP_MARKER: A unit receives the stop marker on an input, stops, records its state and passes the marker on (R441) -/
  | stopMarker (u chan items : Nat) (last : Bool)
  /-- RESUME: MGT_STOP_CTL OP 2 resumes a stopped device (R444) -/
  | resume (src : Src)
  /-- DEBUG_READ: A read of MGT_DBG_DATA returns the selected word of unit state (R445) -/
  | debugRead (src : Src)
  /-- ENTDAA: The I3C controller assigns the endpoint a dynamic address (R446) -/
  | entdaa (addr : BitVec 7)
  /-- SET_ENDPOINT_ID: MCTP Set Endpoint ID sets the EID (R446) -/
  | setEndpointId (eid : BitVec 8)
  /-- PLDM_MONITOR_REQUEST: A PLDM base or monitoring request is answered from the sensors (R447) -/
  | pldmMonitorRequest (m : Bytes)
  /-- REQUEST_UPDATE: PLDM RequestUpdate chooses and erases the slot to be written (R448) -/
  | requestUpdate
  /-- PLDM_IMAGE_DATA: Image data transferred over PLDM is written into the chosen slot (R448) -/
  | pldmImageData (off : Nat) (d : Bytes)
  /-- VERIFY_COMPLETE: PLDM VerifyComplete checks the image and programs SEQ or marks the slot BAD (R448) -/
  | verifyComplete
  /-- ACTIVATE_FIRMWARE: PLDM ActivateFirmware re-kindles at once in STOPPED or defers activation (R448) -/
  | activateFirmware
  /-- GET_VERSION: SPDM GET_VERSION (R449) -/
  | getVersion (m : Bytes)
  /-- GET_CAPABILITIES: SPDM GET_CAPABILITIES (R449) -/
  | getCapabilities (m : Bytes)
  /-- NEGOTIATE_ALGORITHMS: SPDM NEGOTIATE_ALGORITHMS (R449) -/
  | negotiateAlgorithms (m : Bytes)
  /-- GET_DIGESTS: SPDM GET_DIGESTS (R449) -/
  | getDigests (m : Bytes)
  /-- GET_CERTIFICATE: SPDM GET_CERTIFICATE returns the certificate chain (R449) -/
  | getCertificate (m : Bytes)
  /-- CHALLENGE: SPDM CHALLENGE is answered with an ML-DSA-65 signature (R449) -/
  | challenge (m : Bytes)
  /-- GET_MEASUREMENTS: SPDM GET_MEASUREMENTS returns the measurements of Table 17-7 (R449) -/
  | getMeasurements (m : Bytes)
  /-- UNIT_REPORT: The vendor-defined UNIT_REPORT returns a function's reported state, with STALE where it applies (R450) -/
  | unitReport (f : BitVec 8)
  /-- TAP_RESET: TRST_N low holds the TAP controller in Test-Logic-Reset (R473) -/
  | tapReset
  /-- IDCODE: IDCODE instruction (R474) -/
  | idcode
  /-- BYPASS: BYPASS instruction (R474) -/
  | bypass
  /-- SAMPLE: SAMPLE instruction (R474) -/
  | sample (pins : Bytes)
  /-- PRELOAD: PRELOAD instruction (R474) -/
  | preload (v : Bytes)
  /-- EXTEST: EXTEST in the scan hold; acts as BYPASS elsewhere (R475) -/
  | extest (pins : Bytes)
  /-- CLAMP: CLAMP in the scan hold; acts as BYPASS elsewhere (R475) -/
  | clamp
  /-- HIGHZ: HIGHZ in the scan hold; acts as BYPASS elsewhere (R475) -/
  | highz
  /-- COMPLETION_TIMEOUT: A host-window read is not completed within the port's completion-timeout setting and fails with HOST_ACCESS (R377) -/
  | completionTimeout (p : Fin 2) (h : Fin 16) (seq : BitVec 32)
  /-- FRAME_DISCARD: A Colkin or Girth frame arrives with an uncorrectable FEC codeword, a bad CRC, an unexpected LSEQ, a reserved bit or an unknown TYPE; it and later frames are discarded and one NAK is sent (R387) -/
  | frameDiscard (l : Fin 13) (f : Frame)
  /-- PACE_RING_STEP: A hearth's pace ring steps once and PACE increases by one, in every state in which the rail is powered, STOPPED included (R435) -/
  | paceRingStep (h : Fin 16)
  /-- LANE_CHECKER_BITS: Bits arriving at an enabled lane pattern checker lock it after 64 error-free bits, and are then compared and counted in BITS and ERRORS (R402) -/
  | laneCheckerBits (n : Fin 104) (bs : List Bool)
  /-- MSIX_TABLE_WRITE: A host write to the MSI-X table or PBA of a port changes a vector's address, data or mask, and unmasking sends a held message whose pending bit is still set (R380) -/
  | msixTableWrite (p : Fin 2) (off len : Nat) (v : BitVec 64)
  /-- TWIN_PRESENT_RISE: TWIN_PRS_IN rises and GRT_STATE.TWIN_PRESENT reads 1 (R465) -/
  | twinPresentRise
  /-- MCTP_CONTROL_MESSAGE: An MCTP control message other than Set Endpoint ID is received by the management endpoint and answered (R446) -/
  | mctpControlMessage (m : Bytes)
  deriving DecidableEq, Repr

end Sys2Proof
end

