-- ==== Sys2Proof/Machine/AwlDecode.lean ====
section
/-! DEFINITION. The Awl instruction word (R176, R177, Tables 7-5 to 7-12), its decoder and its encoder: which instruction a word is on a core, and none where
the word is undefined, has a non-zero reserved field, breaks a "must be 0", names an odd register for a pair, or is not allowed
on that core. -/

namespace Sys2Proof.Machine

def f5 (w lo : Nat) : Fin 32 := Fin.ofNat 32 (bits w lo 5)
def f4 (w lo : Nat) : Fin 16 := Fin.ofNat 16 (bits w lo 4)
def f3 (w lo : Nat) : Fin 8 := Fin.ofNat 8 (bits w lo 3)

/-- Element types (Table 7-8): lanes, and whether it is floating point. -/
def etLanes (et : Nat) : Nat := match et with | 0 => 64 | 1 => 32 | 2 => 16 | 4 => 32 | 5 => 32 | 6 => 16 | _ => 0
def etFloat (et : Nat) : Bool := et == 4 || et == 5 || et == 6
def etValid (et : Nat) : Bool := etLanes et != 0

/-- Scalar ALU functions with three register operands (Table 7-7). -/
def decodeAlu (k : Core) (w : Nat) : Option Instr :=
  let rd := f5 w 21
  let ra := f5 w 16
  let rb := f5 w 11
  match bits w 0 11 with
  | 0x000 => some (.add k rd ra rb)
  | 0x001 => some (.sub k rd ra rb)
  | 0x002 => some (.and k rd ra rb)
  | 0x003 => some (.or k rd ra rb)
  | 0x004 => some (.xor k rd ra rb)
  | 0x005 => some (.sll k rd ra rb)
  | 0x006 => some (.srl k rd ra rb)
  | 0x007 => some (.sra k rd ra rb)
  | 0x008 => some (.slt k rd ra rb)
  | 0x009 => some (.sltu k rd ra rb)
  | 0x00A => some (.mul k rd ra rb)
  | 0x00B => some (.mulh k rd ra rb)
  | 0x00C => some (.mulhu k rd ra rb)
  | 0x00D => some (.div k rd ra rb)
  | 0x00E => some (.divu k rd ra rb)
  | 0x00F => some (.rem k rd ra rb)
  | 0x010 => some (.remu k rd ra rb)
  | 0x011 => some (.min k rd ra rb)
  | 0x012 => some (.max k rd ra rb)
  | 0x013 => some (.minu k rd ra rb)
  | 0x014 => some (.maxu k rd ra rb)
  | 0x015 => if bits w 11 5 = 0 then some (.clz k rd ra) else none
  | 0x016 => if bits w 11 5 = 0 then some (.popc k rd ra) else none
  | _ => none

/-- Vector operations of major 0x30 (Table 7-9); a field an operation does not use must be 0 (R181). -/
def decodeVec (k : Core) (w : Nat) : Option Instr :=
  let vd := f4 w 16
  let va := f4 w 12
  let vb := f4 w 8
  let et := f3 w 5
  let e := et.val
  let x := f5 w 0
  let lane2 : BitVec 8 := BitVec.ofNat 8 (16 * vd.val + vb.val)
  let lane3 : BitVec 8 := BitVec.ofNat 8 (16 * va.val + vb.val)
  let fp := etFloat e
  if !etValid e then none else
  match bits w 20 6 with
  | 0x00 => if x = 0 then some (.vadd k et vd va vb) else none
  | 0x01 => if x = 0 then some (.vsub k et vd va vb) else none
  | 0x02 => if x = 0 then some (.vmul k et vd va vb) else none
  | 0x03 => if x = 0 then some (.vfma k et vd va vb) else none
  | 0x04 => if (e = 4 ∨ e = 5) ∧ vb = 0 ∧ vd.val % 2 = 0 then some (.vfmaw k et vd va x) else none
  | 0x05 => if x = 0 then some (.vmin k et vd va vb) else none
  | 0x06 => if x = 0 then some (.vmax k et vd va vb) else none
  | 0x07 => if x = 0 ∧ vb = 0 then some (.vabs k et vd va) else none
  | 0x08 => if x = 0 ∧ vb = 0 then some (.vneg k et vd va) else none
  | 0x09 => if x = 0 then some (.vand k et vd va vb) else none
  | 0x0A => if x = 0 then some (.vor k et vd va vb) else none
  | 0x0B => if x = 0 then some (.vxor k et vd va vb) else none
  | 0x0C => if !fp ∧ vb = 0 then some (.vshl k et vd va x) else none
  | 0x0D => if !fp ∧ vb = 0 then some (.vshrl k et vd va x) else none
  | 0x0E => if !fp ∧ vb = 0 then some (.vshra k et vd va x) else none
  | 0x0F => if !fp ∧ x = 0 then some (.vadds k et vd va vb) else none
  | 0x10 => if !fp ∧ x = 0 then some (.vsubs k et vd va vb) else none
  | 0x11 => if x = 0 then some (.vceq k et vd va vb) else none
  | 0x12 => if x = 0 then some (.vclt k et vd va vb) else none
  | 0x13 => if x = 0 then some (.vcle k et vd va vb) else none
  | 0x14 => if x = 0 then some (.vsel k et vd va vb) else none
  | 0x15 => if fp ∧ x = 0 then some (.vdiv k et vd va vb) else none
  | 0x16 => if fp ∧ x = 0 ∧ vb = 0 then some (.vsqrt k et vd va) else none
  | 0x17 => if fp ∧ x = 0 ∧ vb = 0 then some (.vexp k et vd va) else none
  | 0x18 => if fp ∧ x = 0 ∧ vb = 0 then some (.vlog k et vd va) else none
  | 0x19 => if fp ∧ x = 0 ∧ vb = 0 then some (.vtanh k et vd va) else none
  | 0x1A => if fp ∧ x = 0 ∧ vb = 0 then some (.verf k et vd va) else none
  | 0x1B => if va = 0 ∧ vb = 0 then some (.vbcast k et vd x) else none
  | 0x1C => if lane2.toNat < etLanes e then some (.vext k et va lane2 x) else none
  | 0x1D => if lane3.toNat < etLanes e then some (.vins k et vd lane3 x) else none
  | 0x1E => if x = 0 ∧ vb = 0 then some (.vmov k et vd va) else none
  | 0x1F => if x = 0 then some (.vperm k et vd va vb) else none
  | 0x20 => if vd = 0 ∧ vb = 0 then some (.vrsum k et va x) else none
  | 0x21 => if vd = 0 ∧ vb = 0 then some (.vrmax k et va x) else none
  | 0x22 => if vd = 0 ∧ vb = 0 then some (.vrmin k et va x) else none
  | 0x23 => if fp ∧ vd = 0 ∧ vb = 0 ∧ x = 0 then some (.vamax k et va) else none
  | _ => none

def isSup : Core → Bool
  | .sup _ => true
  | _ => false

/-- SYS operations (Table 7-12). -/
def decodeSys (k : Core) (w : Nat) : Option Instr :=
  let rd := f5 w 21
  let ra := f5 w 16
  let rb := f5 w 11
  match bits w 0 11 with
  | 0x000 => if rd = 0 ∧ rb = 0 then some (.halt k) else none
  | 0x001 => if rd = 0 ∧ rb = 0 then some (.trap k ra) else none
  | 0x002 => if rd = 0 ∧ rb = 0 then some (.fence k) else none
  | 0x003 => if rd = 0 ∧ rb = 0 then some (.emit k ra) else none
  | 0x004 => if isSup k ∧ rb = 0 then some (.sregr k rd ra) else none
  | 0x005 => if isSup k ∧ rd = 0 then some (.sregw k ra rb) else none
  | _ => none

/-- A register of the pair that a format of 128 bytes needs is even (Table 7-11, R177). -/
def pairOk (fmt : Nat) (r : Fin 16) : Bool := !(fmt == 0x04 || fmt == 0x12) || r.val % 2 == 0

/-- The instruction that a word is on a core (R176, R177). DEDUCED (log entry 23). -/
def awlDecode (k : Core) (w : Nat) : Option Instr :=
  let rd := f5 w 21
  let ra := f5 w 16
  let rb := f5 w 11
  let imm := BitVec.ofNat 16 (bits w 0 16)
  let vd := f4 w 21
  match bits w 26 6 with
  | 0x00 => decodeAlu k w
  | 0x01 => some (.addi k rd ra imm)
  | 0x02 => some (.andi k rd ra imm)
  | 0x03 => some (.ori k rd ra imm)
  | 0x04 => some (.xori k rd ra imm)
  | 0x05 => some (.slti k rd ra imm)
  | 0x06 => some (.sltiu k rd ra imm)
  | 0x07 => if bits w 8 8 = 0 ∧ bits w 6 2 < 3 then some (.shi k rd ra (Fin.ofNat 3 (bits w 6 2)) (Fin.ofNat 64 (bits w 0 6))) else none
  | 0x08 => some (.shlo k rd ra imm)
  | 0x10 => some (.beq k rd ra imm)
  | 0x11 => some (.bne k rd ra imm)
  | 0x12 => some (.blt k rd ra imm)
  | 0x13 => some (.bge k rd ra imm)
  | 0x14 => some (.bltu k rd ra imm)
  | 0x15 => some (.bgeu k rd ra imm)
  | 0x16 => some (.j k (BitVec.ofNat 26 (bits w 0 26)))
  | 0x17 => some (.jal k (BitVec.ofNat 26 (bits w 0 26)))
  | 0x18 => some (.jalr k rd ra imm)
  | 0x20 => some (.lb k rd ra imm)
  | 0x21 => some (.lbu k rd ra imm)
  | 0x22 => some (.lh k rd ra imm)
  | 0x23 => some (.lhu k rd ra imm)
  | 0x24 => some (.lw k rd ra imm)
  | 0x25 => some (.lwu k rd ra imm)
  | 0x26 => some (.ld k rd ra imm)
  | 0x27 => some (.sb k rd ra imm)
  | 0x28 => some (.sh k rd ra imm)
  | 0x29 => some (.sw k rd ra imm)
  | 0x2A => some (.sd k rd ra imm)
  | 0x2C => if bits w 25 1 = 0 then some (.vld k vd ra imm) else none
  | 0x2D => if bits w 25 1 = 0 then some (.vst k vd ra imm) else none
  | 0x30 => decodeVec k w
  | 0x31 =>
    let n := bits w 0 4
    if bits w 4 11 ≠ 0 ∨ 8 ≤ n then none
    else if bit w 15 then (if 1 ≤ n ∧ n ≤ 4 then some (.crWrite k ra (Fin.ofNat 8 n)) else none)
    else some (.crRead k rd (Fin.ofNat 8 n))
  | 0x32 =>
    let vd := f4 w 22
    let va := f4 w 18
    let d := bits w 8 8
    let sf := bits w 0 8
    if bits w 16 2 < 2 ∧ pairOk d vd ∧ pairOk sf va then
      some (.vcvt k vd va (Fin.ofNat 2 (bits w 16 2)) (BitVec.ofNat 8 d) (BitVec.ofNat 8 sf)) else none
  | 0x38 => if bits w 1 10 ≠ 0 then none else if bit w 0 then some (.tackWrite k rd ra rb) else some (.tackRead k rd ra rb)
  | 0x3A =>
    match bits w 0 11 with
    | 0 => some (.awlQput k ra rb)
    | 1 => if isSup k then none else some (.qget k rd rb)
    | 2 => if isSup k then none else some (.qtry k rd rb)
    | _ => none
  | 0x3B =>
    if bits w 2 14 ≠ 0 ∨ rd ≠ 0 then none else
    match bits w 0 2 with
    | 0 => some (.waitOwn k)
    | 1 => if isSup k then none else some (.waitSeq k ra)
    | _ => none
  | 0x3C => if bit w 15 then some (.tokRelease k) else if bits w 8 7 ≠ 0 then none else some (.tokRequest k (BitVec.ofNat 8 (bits w 0 8)))
  | 0x3F => decodeSys k w
  | _ => none

/-! ### The encoder (Tables 7-5 to 7-12) -/

/-- Formats R, I, B, J, VM, V and C of Table 7-5. -/
def encR (major rd ra rb fn : Nat) : Nat := major * 2 ^ 26 + rd * 2 ^ 21 + ra * 2 ^ 16 + rb * 2 ^ 11 + fn
def encI (major rd ra imm : Nat) : Nat := major * 2 ^ 26 + rd * 2 ^ 21 + ra * 2 ^ 16 + imm
def encJ (major off : Nat) : Nat := major * 2 ^ 26 + off
def encVM (major vd ra imm : Nat) : Nat := major * 2 ^ 26 + vd * 2 ^ 21 + ra * 2 ^ 16 + imm
def encV (fn vd va vb et x : Nat) : Nat := 0x30 * 2 ^ 26 + fn * 2 ^ 20 + vd * 2 ^ 16 + va * 2 ^ 12 + vb * 2 ^ 8 + et * 2 ^ 5 + x
def encC (vd va rm d sf : Nat) : Nat := 0x32 * 2 ^ 26 + vd * 2 ^ 22 + va * 2 ^ 18 + rm * 2 ^ 16 + d * 2 ^ 8 + sf

/-- The word of an Awl instruction; 0 for a command that is no instruction word. -/
def awlEncode : Instr → Nat
  | .add _ rd ra rb => encR 0x00 rd ra rb 0x000
  | .sub _ rd ra rb => encR 0x00 rd ra rb 0x001
  | .and _ rd ra rb => encR 0x00 rd ra rb 0x002
  | .or _ rd ra rb => encR 0x00 rd ra rb 0x003
  | .xor _ rd ra rb => encR 0x00 rd ra rb 0x004
  | .sll _ rd ra rb => encR 0x00 rd ra rb 0x005
  | .srl _ rd ra rb => encR 0x00 rd ra rb 0x006
  | .sra _ rd ra rb => encR 0x00 rd ra rb 0x007
  | .slt _ rd ra rb => encR 0x00 rd ra rb 0x008
  | .sltu _ rd ra rb => encR 0x00 rd ra rb 0x009
  | .mul _ rd ra rb => encR 0x00 rd ra rb 0x00A
  | .mulh _ rd ra rb => encR 0x00 rd ra rb 0x00B
  | .mulhu _ rd ra rb => encR 0x00 rd ra rb 0x00C
  | .div _ rd ra rb => encR 0x00 rd ra rb 0x00D
  | .divu _ rd ra rb => encR 0x00 rd ra rb 0x00E
  | .rem _ rd ra rb => encR 0x00 rd ra rb 0x00F
  | .remu _ rd ra rb => encR 0x00 rd ra rb 0x010
  | .min _ rd ra rb => encR 0x00 rd ra rb 0x011
  | .max _ rd ra rb => encR 0x00 rd ra rb 0x012
  | .minu _ rd ra rb => encR 0x00 rd ra rb 0x013
  | .maxu _ rd ra rb => encR 0x00 rd ra rb 0x014
  | .clz _ rd ra => encR 0x00 rd ra 0 0x015
  | .popc _ rd ra => encR 0x00 rd ra 0 0x016
  | .addi _ rd ra imm => encI 0x01 rd ra imm.toNat
  | .andi _ rd ra imm => encI 0x02 rd ra imm.toNat
  | .ori _ rd ra imm => encI 0x03 rd ra imm.toNat
  | .xori _ rd ra imm => encI 0x04 rd ra imm.toNat
  | .slti _ rd ra imm => encI 0x05 rd ra imm.toNat
  | .sltiu _ rd ra imm => encI 0x06 rd ra imm.toNat
  | .shi _ rd ra kind amt => encI 0x07 rd ra (kind.val * 64 + amt.val)
  | .shlo _ rd ra imm => encI 0x08 rd ra imm.toNat
  | .beq _ ra rb off => encI 0x10 ra rb off.toNat
  | .bne _ ra rb off => encI 0x11 ra rb off.toNat
  | .blt _ ra rb off => encI 0x12 ra rb off.toNat
  | .bge _ ra rb off => encI 0x13 ra rb off.toNat
  | .bltu _ ra rb off => encI 0x14 ra rb off.toNat
  | .bgeu _ ra rb off => encI 0x15 ra rb off.toNat
  | .j _ off => encJ 0x16 off.toNat
  | .jal _ off => encJ 0x17 off.toNat
  | .jalr _ rd ra imm => encI 0x18 rd ra imm.toNat
  | .lb _ rd ra imm => encI 0x20 rd ra imm.toNat
  | .lbu _ rd ra imm => encI 0x21 rd ra imm.toNat
  | .lh _ rd ra imm => encI 0x22 rd ra imm.toNat
  | .lhu _ rd ra imm => encI 0x23 rd ra imm.toNat
  | .lw _ rd ra imm => encI 0x24 rd ra imm.toNat
  | .lwu _ rd ra imm => encI 0x25 rd ra imm.toNat
  | .ld _ rd ra imm => encI 0x26 rd ra imm.toNat
  | .sb _ rd ra imm => encI 0x27 rd ra imm.toNat
  | .sh _ rd ra imm => encI 0x28 rd ra imm.toNat
  | .sw _ rd ra imm => encI 0x29 rd ra imm.toNat
  | .sd _ rd ra imm => encI 0x2A rd ra imm.toNat
  | .vld _ vd ra imm => encVM 0x2C vd ra imm.toNat
  | .vst _ vd ra imm => encVM 0x2D vd ra imm.toNat
  | .vadd _ et vd va vb => encV 0x00 vd va vb et 0
  | .vsub _ et vd va vb => encV 0x01 vd va vb et 0
  | .vmul _ et vd va vb => encV 0x02 vd va vb et 0
  | .vfma _ et vd va vb => encV 0x03 vd va vb et 0
  | .vfmaw _ et vd va x => encV 0x04 vd va 0 et x
  | .vmin _ et vd va vb => encV 0x05 vd va vb et 0
  | .vmax _ et vd va vb => encV 0x06 vd va vb et 0
  | .vabs _ et vd va => encV 0x07 vd va 0 et 0
  | .vneg _ et vd va => encV 0x08 vd va 0 et 0
  | .vand _ et vd va vb => encV 0x09 vd va vb et 0
  | .vor _ et vd va vb => encV 0x0A vd va vb et 0
  | .vxor _ et vd va vb => encV 0x0B vd va vb et 0
  | .vshl _ et vd va x => encV 0x0C vd va 0 et x
  | .vshrl _ et vd va x => encV 0x0D vd va 0 et x
  | .vshra _ et vd va x => encV 0x0E vd va 0 et x
  | .vadds _ et vd va vb => encV 0x0F vd va vb et 0
  | .vsubs _ et vd va vb => encV 0x10 vd va vb et 0
  | .vceq _ et vd va vb => encV 0x11 vd va vb et 0
  | .vclt _ et vd va vb => encV 0x12 vd va vb et 0
  | .vcle _ et vd va vb => encV 0x13 vd va vb et 0
  | .vsel _ et vd va vb => encV 0x14 vd va vb et 0
  | .vdiv _ et vd va vb => encV 0x15 vd va vb et 0
  | .vsqrt _ et vd va => encV 0x16 vd va 0 et 0
  | .vexp _ et vd va => encV 0x17 vd va 0 et 0
  | .vlog _ et vd va => encV 0x18 vd va 0 et 0
  | .vtanh _ et vd va => encV 0x19 vd va 0 et 0
  | .verf _ et vd va => encV 0x1A vd va 0 et 0
  | .vbcast _ et vd x => encV 0x1B vd 0 0 et x
  | .vmov _ et vd va => encV 0x1E vd va 0 et 0
  | .vperm _ et vd va vb => encV 0x1F vd va vb et 0
  | .vrsum _ et va x => encV 0x20 0 va 0 et x
  | .vrmax _ et va x => encV 0x21 0 va 0 et x
  | .vrmin _ et va x => encV 0x22 0 va 0 et x
  | .vamax _ et va => encV 0x23 0 va 0 et 0
  | .vext _ et va lane x => encV 0x1C (lane.toNat / 16) va (lane.toNat % 16) et x
  | .vins _ et vd lane x => encV 0x1D vd (lane.toNat / 16) (lane.toNat % 16) et x
  | .crRead _ rd n => encI 0x31 rd 0 n
  | .crWrite _ ra n => encI 0x31 0 ra (0x8000 + n)
  | .vcvt _ vd va rm dfmt sfmt => encC vd va rm dfmt.toNat sfmt.toNat
  | .tackRead _ rd ra rb => encR 0x38 rd ra rb 0
  | .tackWrite _ rd ra rb => encR 0x38 rd ra rb 1
  | .awlQput _ ra rb => encR 0x3A 0 ra rb 0
  | .qget _ rd rb => encR 0x3A rd 0 rb 1
  | .qtry _ rd rb => encR 0x3A rd 0 rb 2
  | .waitOwn _ => encI 0x3B 0 0 0
  | .waitSeq _ ra => encI 0x3B 0 ra 1
  | .tokRequest _ n => encI 0x3C 0 0 n.toNat
  | .tokRelease _ => encI 0x3C 0 0 0x8000
  | .halt _ => encR 0x3F 0 0 0 0x000
  | .trap _ ra => encR 0x3F 0 ra 0 0x001
  | .fence _ => encR 0x3F 0 0 0 0x002
  | .emit _ ra => encR 0x3F 0 ra 0 0x003
  | .sregr _ rd ra => encR 0x3F rd ra 0 0x004
  | .sregw _ ra rb => encR 0x3F 0 ra rb 0x005
  | _ => 0

/-- The core that an instruction row names, where the row is an instruction word. -/
def awlCoreOf : Instr → Option Core
  | .add k _ _ _ => some k
  | .sub k _ _ _ => some k
  | .and k _ _ _ => some k
  | .or k _ _ _ => some k
  | .xor k _ _ _ => some k
  | .sll k _ _ _ => some k
  | .srl k _ _ _ => some k
  | .sra k _ _ _ => some k
  | .slt k _ _ _ => some k
  | .sltu k _ _ _ => some k
  | .mul k _ _ _ => some k
  | .mulh k _ _ _ => some k
  | .mulhu k _ _ _ => some k
  | .div k _ _ _ => some k
  | .divu k _ _ _ => some k
  | .rem k _ _ _ => some k
  | .remu k _ _ _ => some k
  | .min k _ _ _ => some k
  | .max k _ _ _ => some k
  | .minu k _ _ _ => some k
  | .maxu k _ _ _ => some k
  | .clz k _ _ => some k
  | .popc k _ _ => some k
  | .addi k _ _ _ => some k
  | .andi k _ _ _ => some k
  | .ori k _ _ _ => some k
  | .xori k _ _ _ => some k
  | .slti k _ _ _ => some k
  | .sltiu k _ _ _ => some k
  | .shi k _ _ _ _ => some k
  | .shlo k _ _ _ => some k
  | .beq k _ _ _ => some k
  | .bne k _ _ _ => some k
  | .blt k _ _ _ => some k
  | .bge k _ _ _ => some k
  | .bltu k _ _ _ => some k
  | .bgeu k _ _ _ => some k
  | .j k _ => some k
  | .jal k _ => some k
  | .jalr k _ _ _ => some k
  | .lb k _ _ _ => some k
  | .lbu k _ _ _ => some k
  | .lh k _ _ _ => some k
  | .lhu k _ _ _ => some k
  | .lw k _ _ _ => some k
  | .lwu k _ _ _ => some k
  | .ld k _ _ _ => some k
  | .sb k _ _ _ => some k
  | .sh k _ _ _ => some k
  | .sw k _ _ _ => some k
  | .sd k _ _ _ => some k
  | .vld k _ _ _ => some k
  | .vst k _ _ _ => some k
  | .vadd k _ _ _ _ => some k
  | .vsub k _ _ _ _ => some k
  | .vmul k _ _ _ _ => some k
  | .vfma k _ _ _ _ => some k
  | .vfmaw k _ _ _ _ => some k
  | .vmin k _ _ _ _ => some k
  | .vmax k _ _ _ _ => some k
  | .vabs k _ _ _ => some k
  | .vneg k _ _ _ => some k
  | .vand k _ _ _ _ => some k
  | .vor k _ _ _ _ => some k
  | .vxor k _ _ _ _ => some k
  | .vshl k _ _ _ _ => some k
  | .vshrl k _ _ _ _ => some k
  | .vshra k _ _ _ _ => some k
  | .vadds k _ _ _ _ => some k
  | .vsubs k _ _ _ _ => some k
  | .vceq k _ _ _ _ => some k
  | .vclt k _ _ _ _ => some k
  | .vcle k _ _ _ _ => some k
  | .vsel k _ _ _ _ => some k
  | .vdiv k _ _ _ _ => some k
  | .vsqrt k _ _ _ => some k
  | .vexp k _ _ _ => some k
  | .vlog k _ _ _ => some k
  | .vtanh k _ _ _ => some k
  | .verf k _ _ _ => some k
  | .vbcast k _ _ _ => some k
  | .vmov k _ _ _ => some k
  | .vperm k _ _ _ _ => some k
  | .vrsum k _ _ _ => some k
  | .vrmax k _ _ _ => some k
  | .vrmin k _ _ _ => some k
  | .vamax k _ _ => some k
  | .vext k _ _ _ _ => some k
  | .vins k _ _ _ _ => some k
  | .crRead k _ _ => some k
  | .crWrite k _ _ => some k
  | .vcvt k _ _ _ _ _ => some k
  | .tackRead k _ _ _ => some k
  | .tackWrite k _ _ _ => some k
  | .awlQput k _ _ => some k
  | .qget k _ _ => some k
  | .qtry k _ _ => some k
  | .waitOwn k => some k
  | .waitSeq k _ => some k
  | .tokRequest k _ => some k
  | .tokRelease k => some k
  | .halt k => some k
  | .trap k _ => some k
  | .fence k => some k
  | .emit k _ => some k
  | .sregr k _ _ => some k
  | .sregw k _ _ => some k
  | _ => none

/-- The operands of an instruction are ones that R177 and the tables allow: an element type that exists, a floating-point or an
integer one where the operation takes only that, an even register for a pair, a lane that exists, a writable control register, a
queue, wait or system operation that the core may use. -/
def awlForm : Instr → Bool
  | .vfmaw _ et vd _ _ => (et.val == 4 || et.val == 5) && vd.val % 2 == 0
  | .vadd _ et _ _ _ => etValid et.val
  | .vsub _ et _ _ _ => etValid et.val
  | .vmul _ et _ _ _ => etValid et.val
  | .vfma _ et _ _ _ => etValid et.val
  | .vmin _ et _ _ _ => etValid et.val
  | .vmax _ et _ _ _ => etValid et.val
  | .vabs _ et _ _ => etValid et.val
  | .vneg _ et _ _ => etValid et.val
  | .vand _ et _ _ _ => etValid et.val
  | .vor _ et _ _ _ => etValid et.val
  | .vxor _ et _ _ _ => etValid et.val
  | .vshl _ et _ _ _ => etValid et.val && !etFloat et.val
  | .vshrl _ et _ _ _ => etValid et.val && !etFloat et.val
  | .vshra _ et _ _ _ => etValid et.val && !etFloat et.val
  | .vadds _ et _ _ _ => etValid et.val && !etFloat et.val
  | .vsubs _ et _ _ _ => etValid et.val && !etFloat et.val
  | .vceq _ et _ _ _ => etValid et.val
  | .vclt _ et _ _ _ => etValid et.val
  | .vcle _ et _ _ _ => etValid et.val
  | .vsel _ et _ _ _ => etValid et.val
  | .vdiv _ et _ _ _ => etFloat et.val
  | .vsqrt _ et _ _ => etFloat et.val
  | .vexp _ et _ _ => etFloat et.val
  | .vlog _ et _ _ => etFloat et.val
  | .vtanh _ et _ _ => etFloat et.val
  | .verf _ et _ _ => etFloat et.val
  | .vbcast _ et _ _ => etValid et.val
  | .vmov _ et _ _ => etValid et.val
  | .vperm _ et _ _ _ => etValid et.val
  | .vrsum _ et _ _ => etValid et.val
  | .vrmax _ et _ _ => etValid et.val
  | .vrmin _ et _ _ => etValid et.val
  | .vamax _ et _ => etFloat et.val
  | .vext _ et _ lane _ => decide (lane.toNat < etLanes et.val)
  | .vins _ et _ lane _ => decide (lane.toNat < etLanes et.val)
  | .crWrite _ _ n => decide (1 ≤ n.val) && decide (n.val ≤ 4)
  | .vcvt _ vd va _ dfmt sfmt => pairOk dfmt.toNat vd && pairOk sfmt.toNat va
  | .qget k _ _ => !isSup k
  | .qtry k _ _ => !isSup k
  | .waitSeq k _ => !isSup k
  | .sregr k _ _ => isSup k
  | .sregw k _ _ => isSup k
  | _ => true

end Sys2Proof.Machine
end

