-- ==== Sys2Proof/Machine/Fp.lean ====
section
/-! DEFINITION. Floating-point arithmetic over exact dyadic values (R83 to R85, R104, R106): decode, compute exactly, round once. -/

namespace Sys2Proof.Machine

/-- Exponent and fraction widths of a floating-point format (Table 4-2). -/
structure FFmt where
  eb : Nat
  mb : Nat
  deriving DecidableEq, Repr

def fp16 : FFmt := ⟨5, 10⟩
def bf16 : FFmt := ⟨8, 7⟩
def fp32 : FFmt := ⟨8, 23⟩

def FFmt.bias (f : FFmt) : Int := 2 ^ (f.eb - 1) - 1
/-- Exponent of the lowest fraction bit of a subnormal. -/
def FFmt.emin (f : FFmt) : Int := 1 - f.bias - f.mb
def FFmt.width (f : FFmt) : Nat := 1 + f.eb + f.mb
/-- The canonical NaN (R84, Table 4-2). -/
def FFmt.nan (f : FFmt) : Nat := (2 ^ f.eb - 1) * 2 ^ f.mb + 2 ^ (f.mb - 1)
def FFmt.inf (f : FFmt) (neg : Bool) : Nat := (2 ^ f.eb - 1) * 2 ^ f.mb + if neg then 2 ^ (f.eb + f.mb) else 0
/-- The largest finite value. -/
def FFmt.maxFinite (f : FFmt) (neg : Bool) : Nat := (2 ^ f.eb - 1) * 2 ^ f.mb - 1 + if neg then 2 ^ (f.eb + f.mb) else 0
def FFmt.zero (f : FFmt) (neg : Bool) : Nat := if neg then 2 ^ (f.eb + f.mb) else 0

/-- A floating-point value: NaN, an infinity, or sign × m × 2^e exactly. -/
inductive FVal where
  | nan
  | inf (neg : Bool)
  | fin (neg : Bool) (m : Nat) (e : Int)
  deriving DecidableEq, Repr

/-- The value of an encoding (R83). -/
def FFmt.decode (f : FFmt) (n : Nat) : FVal :=
  let neg := bit n (f.eb + f.mb)
  let ex := bits n f.mb f.eb
  let fr := bits n 0 f.mb
  if ex = 2 ^ f.eb - 1 then (if fr = 0 then .inf neg else .nan)
  else if ex = 0 then .fin neg fr f.emin
  else .fin neg (2 ^ f.mb + fr) (ex - f.bias - f.mb)

/-- The value of an input in a subnormal mode, and whether a non-zero value was flushed (R106, R107). -/
def FFmt.load (f : FFmt) (flush : Bool) (n : Nat) : FVal × Bool :=
  let neg := bit n (f.eb + f.mb)
  if flush && bits n f.mb f.eb == 0 && bits n 0 f.mb != 0 then (.fin neg 0 0, true) else (f.decode n, false)

/-- m / 2^s rounded to nearest, ties to even. -/
def rneShift (m s : Nat) : Nat :=
  let q := m / 2 ^ s
  let r := m % 2 ^ s
  if s = 0 then m else if 2 * r > 2 ^ s ∨ (2 * r = 2 ^ s ∧ q % 2 = 1) then q + 1 else q

/-- The number of significant bits. -/
def bitLen (m : Nat) : Nat := if m = 0 then 0 else Nat.log2 m + 1

/-- The encoding of an exact value by roundTiesToEven, overflow to infinity (R85), and whether the result was flushed under R106. -/
def FFmt.round (f : FFmt) (flush : Bool) : FVal → Nat × Bool
  | .nan => (f.nan, false)
  | .inf neg => (f.inf neg, false)
  | .fin neg m e =>
    let sgn := if neg then 2 ^ (f.eb + f.mb) else 0
    if m = 0 then (sgn, false) else
    let t := max (e + bitLen m - (f.mb + 1)) f.emin
    let q := if t ≤ e then m * 2 ^ (e - t).toNat else rneShift m (t - e).toNat
    let (q, t) := if 2 ^ (f.mb + 1) ≤ q then (q / 2, t + 1) else (q, t)
    if q < 2 ^ f.mb then (if flush && q != 0 then (sgn, true) else (sgn + q, false))
    else
      let ex := (t + f.bias + f.mb).toNat
      if 2 ^ f.eb - 1 ≤ ex then (f.inf neg, false) else (sgn + ex * 2 ^ f.mb + (q - 2 ^ f.mb), false)

/-- Out-of-range notices of R104. -/
inductive Range where
  | inRange | ovf | unf
  deriving DecidableEq, Repr

/-- The encoding of a finite scaled value under R104; infinities and NaN keep R85. -/
def FFmt.roundScaled (f : FFmt) : FVal → Nat × Range
  | .nan => (f.nan, .inRange)
  | .inf neg => (f.inf neg, .inRange)
  | .fin neg m e =>
    if m = 0 then (f.zero neg, .inRange) else
    let l := bitLen m
    let (q, t) := if l ≤ f.mb + 1 then (m, e) else (rneShift m (l - (f.mb + 1)), e + (l - (f.mb + 1) : Nat))
    let top := t + bitLen q - 1
    if f.bias < top then (f.maxFinite neg, .ovf)
    else if top < 1 - f.bias then (f.zero neg, .unf)
    else ((f.round false (.fin neg q t)).1, .inRange)

/-! ### Exact operations -/

def FVal.neg : FVal → FVal
  | .nan => .nan
  | .inf n => .inf (!n)
  | .fin n m e => .fin (!n) m e

def FVal.abs : FVal → FVal
  | .nan => .nan
  | .inf _ => .inf false
  | .fin _ m e => .fin false m e

/-- The signed significand at exponent t ≤ e. -/
def alignTo (neg : Bool) (m : Nat) (e t : Int) : Int :=
  let v : Int := (m * 2 ^ (e - t).toNat : Nat)
  if neg then -v else v

/-- The exact sum; zero results follow IEEE 754 under roundTiesToEven. -/
def FVal.add : FVal → FVal → FVal
  | .nan, _ => .nan
  | _, .nan => .nan
  | .inf a, .inf b => if a = b then .inf a else .nan
  | .inf a, _ => .inf a
  | _, .inf b => .inf b
  | .fin n1 m1 e1, .fin n2 m2 e2 =>
    if m1 = 0 ∧ m2 = 0 then .fin (n1 && n2) 0 0
    else
      let t := min e1 e2
      let v := alignTo n1 m1 e1 t + alignTo n2 m2 e2 t
      .fin (decide (v < 0)) v.natAbs t

/-- The exact product. -/
def FVal.mul : FVal → FVal → FVal
  | .nan, _ => .nan
  | _, .nan => .nan
  | .inf a, .inf b => .inf (a != b)
  | .inf a, .fin b m _ => if m = 0 then .nan else .inf (a != b)
  | .fin a m _, .inf b => if m = 0 then .nan else .inf (a != b)
  | .fin a m1 e1, .fin b m2 e2 => .fin (a != b) (m1 * m2) (e1 + e2)

def FVal.sub (a b : FVal) : FVal := a.add b.neg

/-- a + b × c exactly. -/
def FVal.fma (a b c : FVal) : FVal := a.add (b.mul c)

/-- The quotient with at least 64 significant bits and a sticky bit below them, which every rounding of this model decides
correctly. -/
def FVal.div : FVal → FVal → FVal
  | .nan, _ => .nan
  | _, .nan => .nan
  | .inf _, .inf _ => .nan
  | .inf a, .fin b _ _ => .inf (a != b)
  | .fin a _ _, .inf b => .fin (a != b) 0 0
  | .fin a m1 e1, .fin b m2 e2 =>
    if m2 = 0 then (if m1 = 0 then .nan else .inf (a != b))
    else
      let k := bitLen m2 + 64
      let q := m1 * 2 ^ k / m2
      let st := if m1 * 2 ^ k % m2 = 0 then 0 else 1
      .fin (a != b) (2 * q + st) (e1 - e2 - k - 1)

/-- The integer square root, bit by bit from 2^n down. -/
def isqrt : Nat → Nat → Nat → Nat
  | 0, _, r => r
  | n + 1, x, r => let c := r + 2 ^ n; isqrt n x (if c * c ≤ x then c else r)

/-- The square root with at least 64 significant bits and a sticky bit. -/
def FVal.sqrt : FVal → FVal
  | .nan => .nan
  | .inf true => .nan
  | .inf false => .inf false
  | .fin neg m e =>
    if m = 0 then .fin neg 0 0
    else if neg then .nan
    else
      let (m, e) := if e % 2 = 0 then (m, e) else (2 * m, e - 1)
      let x := m * 2 ^ 128
      let r := isqrt (bitLen x / 2 + 1) x 0
      let st := if r * r = x then 0 else 1
      .fin false (2 * r + st) (e / 2 - 65)

/-- The sign of a − b for finite values: less, equal or greater. -/
def cmpFin (n1 : Bool) (m1 : Nat) (e1 : Int) (n2 : Bool) (m2 : Nat) (e2 : Int) : Ordering :=
  let t := min e1 e2
  compare (alignTo n1 m1 e1 t) (alignTo n2 m2 e2 t)

/-- The order of two values that are no NaN. -/
def FVal.cmp : FVal → FVal → Ordering
  | .inf a, .inf b => if a = b then .eq else if a then .lt else .gt
  | .inf a, _ => if a then .lt else .gt
  | _, .inf b => if b then .gt else .lt
  | .fin n1 m1 e1, .fin n2 m2 e2 => cmpFin n1 m1 e1 n2 m2 e2
  | _, _ => .eq

def FVal.isNan : FVal → Bool
  | .nan => true
  | _ => false

def FVal.isFinite : FVal → Bool
  | .fin _ _ _ => true
  | _ => false

def FVal.isZero : FVal → Bool
  | .fin _ m _ => m == 0
  | _ => false

def FVal.isNeg : FVal → Bool
  | .nan => false
  | .inf n => n
  | .fin n _ _ => n

/-- The lesser of two values: NaN if either is, and −0 below +0 (Table 7-9). -/
def FVal.min (a b : FVal) : FVal :=
  if a.isNan || b.isNan then .nan else
  match a.cmp b with
  | .lt => a
  | .gt => b
  | .eq => if a.isNeg then a else b

/-- The greater of two values. -/
def FVal.max (a b : FVal) : FVal :=
  if a.isNan || b.isNan then .nan else
  match a.cmp b with
  | .lt => b
  | .gt => a
  | .eq => if a.isNeg then b else a

/-- A finite value rounded to an integer, ties to even; 0 for others. -/
def FVal.toInt : FVal → Int
  | .fin neg m e =>
    let v : Int := if 0 ≤ e then (m * 2 ^ e.toNat : Nat) else (rneShift m (-e).toNat : Nat)
    if neg then -v else v
  | _ => 0

/-- floor of a finite value, and 0 for others. -/
def FVal.floor : FVal → Int
  | .fin neg m e => let v : Int := if neg then -(m : Int) else m; if 0 ≤ e then v * 2 ^ e.toNat else v / 2 ^ (-e).toNat
  | _ => 0

def FVal.ofInt (v : Int) : FVal := .fin (decide (v < 0)) v.natAbs 0

/-- Scale by a power of two. -/
def FVal.shift (k : Int) : FVal → FVal
  | .fin n m e => .fin n m (e + k)
  | v => v

/-- fp32 operations on encodings, rounded once (R85, R92). -/
def fp32Mul (a b : Nat) : Nat := (fp32.round false ((fp32.decode a).mul (fp32.decode b))).1
def fp32Div (a b : Nat) : Nat := (fp32.round false ((fp32.decode a).div (fp32.decode b))).1
def fp32Add (a b : Nat) : Nat := (fp32.round false ((fp32.decode a).add (fp32.decode b))).1
/-- The larger of two non-negative finite FP32 encodings. -/
def fp32MaxMag (a b : Nat) : Nat := max (a % 2 ^ 31) (b % 2 ^ 31)
/-- 1.0 in FP32. -/
def fp32One : Nat := 0x3F800000

end Sys2Proof.Machine
end

