-- ==== Sys2Proof/Machine/Formats.lean ====
section
/-! DEFINITION. The number formats of Table 4-1: storage, block formats, scale application, narrowing and stochastic rounding
(R81 to R107). -/

namespace Sys2Proof.Machine

/-- The formats of Table 4-1. -/
inductive Fmt where
  | int4 | int8 | int16 | int32 | fp16 | bf16 | fp32 | dq4 | dq8
  deriving DecidableEq, Repr

/-- The format of a code; none for a reserved code (R81). -/
def Fmt.ofCode : Nat → Option Fmt
  | 0x01 => some .int4
  | 0x02 => some .int8
  | 0x03 => some .int16
  | 0x04 => some .int32
  | 0x10 => some .fp16
  | 0x11 => some .bf16
  | 0x12 => some .fp32
  | 0x20 => some .dq4
  | 0x21 => some .dq8
  | _ => none

def Fmt.isDq : Fmt → Bool
  | .dq4 => true
  | .dq8 => true
  | _ => false

def Fmt.isInt : Fmt → Bool
  | .int4 => true
  | .int8 => true
  | .int16 => true
  | .int32 => true
  | _ => false

/-- The floating-point format, if it is one. -/
def Fmt.float : Fmt → Option FFmt
  | .fp16 => some Machine.fp16
  | .bf16 => some Machine.bf16
  | .fp32 => some Machine.fp32
  | _ => none

/-- Bits per element in storage; DQ elements without their exponent byte. -/
def Fmt.bits : Fmt → Nat
  | .int4 => 4
  | .dq4 => 4
  | .int8 => 8
  | .dq8 => 8
  | .int16 => 16
  | .fp16 => 16
  | .bf16 => 16
  | .int32 => 32
  | .fp32 => 32

/-- qmax of R87. -/
def Fmt.qmax : Fmt → Int
  | .int4 => 7
  | .dq4 => 7
  | .int8 => 127
  | .dq8 => 127
  | .int16 => 2 ^ 15 - 1
  | _ => 2 ^ 31 - 1

/-- STATUS and CSTAT bits (Table 4-5). -/
def stSubn : Nat := 1
def stOvf : Nat := 2
def stUnf : Nat := 4
def stInvalid : Nat := 8
def stNonfiniteInt : Nat := 16
def stNonfiniteAmax : Nat := 32
def stIntSat : Nat := 64

def rangeFlag : Range → Nat
  | .inRange => 0
  | .ovf => stOvf
  | .unf => stUnf

def flagIf (b : Bool) (m : Nat) : Nat := if b then m else 0

def clampInt (lo hi v : Int) : Int := if v < lo then lo else if hi < v then hi else v

/-- Multiplication by a per-tensor or block scale, rounded to the target under R104 (R106 does not matter to it): a finite value times
an infinite scale exceeds the largest finite value. -/
def scaleTo (f : FFmt) (v sc : FVal) : Nat × Nat :=
  match v, v.mul sc with
  | .fin _ _ _, .inf neg => (f.maxFinite neg, rangeFlag .ovf)
  | .fin _ _ _, r => let (n, g) := f.roundScaled r; (n, rangeFlag g)
  | _, r => ((f.round false r).1, 0)

/-! ### Stochastic rounding (R102, R103) -/

def golden : BitVec 64 := 0x9E3779B97F4A7C15

/-- The seed of a command (R102). -/
def srSeed (ticketSeed : BitVec 64) (step : Nat) (cmdSeed : Nat) : BitVec 64 :=
  ticketSeed ^^^ (BitVec.ofNat 64 step * golden) ^^^ BitVec.ofNat 64 cmdSeed

/-- The 16 rounding bits of the element with linear index i (R102). -/
def srBits (seed : BitVec 64) (i : BitVec 64) : Nat :=
  let z := seed + (i + 1) * golden
  let z := (z ^^^ (z >>> 30)) * 0xBF58476D1CE4E5B9
  let z := (z ^^^ (z >>> 27)) * 0x94D049BB133111EB
  let z := z ^^^ (z >>> 31)
  z.toNat % 65536

/-- Stochastic rounding of a finite FP32 encoding to BF16: add r to the encoding and keep bits [31:16] (R103). -/
def srBf16 (n r : Nat) : Nat := (n + r) % 2 ^ 32 / 65536

/-- Stochastic rounding of a DQ quotient (R103): q := floor(t), plus one if r is below the fraction in 65,536ths. -/
def srDq (t : FVal) (r : Nat) : Int :=
  let fl := t.floor
  let g := (t.shift 16).floor - fl * 65536
  if (r : Int) < g then fl + 1 else fl

/-! ### Narrowing single values (R99, R186) -/

/-- A rounding choice: ties to even, or the bits of stochastic rounding. -/
abbrev Rnd := Option Nat

/-- Narrow a value to a floating-point format, with its notices (R85, R99, R103, R106). -/
def narrowF (f : FFmt) (flush : Bool) (rnd : Rnd) (v : FVal) : Nat × Nat :=
  match rnd with
  | none => let (n, fl) := f.round flush v; (n, flagIf fl stSubn)
  | some r =>
    match v with
    | .fin _ _ _ =>
      let (n32, fl0) := fp32.round flush v
      let n := srBf16 n32 r
      if flush && Sys2Proof.bits n 7 8 == 0 && Sys2Proof.bits n 0 7 != 0 then (n / 32768 * 32768, stSubn) else (n, flagIf fl0 stSubn)
    | v => ((f.round flush v).1, 0)

/-- Narrow a value to an integer format (R87, R99): rounded ties to even and clamped; NaN gives 0, an infinity the extreme. -/
def narrowI (f : Fmt) (v : FVal) : Int × Nat :=
  let lo := match f with | .int16 => -(2 ^ 15) | .int32 => -(2 ^ 31) | f => -f.qmax
  match v with
  | .nan => (0, stNonfiniteInt)
  | .inf neg => (if neg then lo else f.qmax, stNonfiniteInt)
  | v => (clampInt lo f.qmax v.toInt, 0)

/-! ### DQ blocks (R86, R89, R100, R101) -/

/-- A DQ block as stored: exponent code and 32 elements; with the notices and whether it is dominated. -/
structure Block where
  code : Nat
  elems : List Int
  flags : Nat
  dominated : Bool
  deriving DecidableEq, Repr

/-- The smallest integer e with a ≤ qmax × 2^e, for a = m × 2^x, m > 0. -/
def blockExp (qmax m : Nat) (x : Int) : Int :=
  let l := bitLen m
  let k : Int := (l : Int) - bitLen qmax
  let fits (e : Int) : Bool := if 0 ≤ e then decide (m ≤ qmax * 2 ^ e.toNat) else decide (m * 2 ^ (-e).toNat ≤ qmax)
  x + if fits (k - 1) then k - 1 else if fits k then k else k + 1

/-- Write one block from its inputs v and scaled values y; rnd gives the stochastic bits per element (R100). -/
def storeBlock (f : Fmt) (vs ys : List FVal) (rnd : Nat → Rnd) (flags0 : Nat) : Block :=
  if vs.any fun v => !v.isFinite then
    { code := 0xFF, elems := vs.map fun _ => 0, flags := flags0 ||| stInvalid, dominated := false }
  else
    let a : FVal := ys.foldl (fun (a : FVal) y => FVal.max a y.abs) (FVal.fin false 0 0)
    match a with
    | .fin _ m x =>
      if m = 0 then { code := 0, elems := vs.map fun _ => 0, flags := flags0, dominated := false }
      else
        let e := blockExp f.qmax.toNat m x
        if e < -126 then { code := 0, elems := vs.map fun _ => 0, flags := flags0 ||| stUnf, dominated := false }
        else
          let qs := (ys.zip (List.range ys.length)).map fun p =>
            let t := p.1.shift (-e)
            clampInt (-f.qmax) f.qmax (match rnd p.2 with | none => t.toInt | some r => srDq t r)
          let z := ((ys.zip qs).filter fun p => !p.1.isZero && p.2 == 0).length
          { code := (e + 127).toNat, elems := qs, flags := flags0, dominated := decide (16 ≤ z) }
    | _ => { code := 0, elems := vs.map fun _ => 0, flags := flags0, dominated := false }

/-- The value of an element of a block before the per-tensor scale (R86). -/
def blockElem (code : Nat) (q : Int) : FVal :=
  if code = 0 then .fin false 0 0 else if code = 0xFF then .nan
  else (FVal.ofInt q).shift ((code : Int) - 127)

/-! ### Element storage (R82) -/

/-- The i-th element of a packed line, as an unsigned number. -/
def packedGet (w : Nat) (d : Bytes) (i : Nat) : Nat :=
  if w = 4 then Sys2Proof.bits (d.getD (i / 2) 0).toNat (4 * (i % 2)) 4 else field d (i * (w / 8)) (w / 8)



/-- Pack unsigned elements of width w into bytes (R82). -/
def pack (w : Nat) : List Nat → Bytes
  | [] => []
  | [x] => if w = 4 then [BitVec.ofNat 8 (x % 16)] else leBytes (w / 8) x
  | x :: y :: r => if w = 4 then BitVec.ofNat 8 (x % 16 + 16 * (y % 16)) :: pack w r else leBytes (w / 8) x ++ pack w (y :: r)

/-- The low w bits of an integer. -/
def intBits (w : Nat) (v : Int) : Nat := (v % (2 ^ w : Int)).toNat

end Sys2Proof.Machine
end

