-- ==== Sys2Proof/Machine/Ecc.lean ====
section
/-! DEFINITION. Arithmetic in GF(2^8) and the outer code of the near tier, Reed–Solomon (68, 64) (R315, R419). -/

namespace Sys2Proof.Machine

/-! ### GF(2^8) with x^8 + x^4 + x^3 + x^2 + 1 -/

def gfDouble (x : Nat) : Nat := if 128 ≤ x then (2 * x) ^^^ 0x11D else 2 * x
def gfMul (a b : Nat) : Nat :=
  ((List.range 8).foldl (fun (p : Nat × Nat) i => (if bit b i then p.1 ^^^ p.2 else p.1, gfDouble p.2)) (0, a)).1
def gfPow2 (j : Nat) : Nat := (List.range j).foldl (fun x _ => gfDouble x) 1
/-- The inverse: a to the power 254. -/
def gfInv (a : Nat) : Nat := ((List.range 254).foldl (fun x _ => gfMul x a) 1)

/-! ### Codewords -/

/-- The four check bytes of 64 data bytes: the remainder of data × x^4 by the generator polynomial, whose roots are α^0 to α^3. The first byte
is the highest coefficient. DESIGN CHOICE (log entry 117). -/
def checkBytes (data : List Nat) : List Nat :=
  data.foldl (fun r m =>
    let f := m ^^^ r.getD 0 0
    [r.getD 1 0 ^^^ gfMul 15 f, r.getD 2 0 ^^^ gfMul 54 f, r.getD 3 0 ^^^ gfMul 120 f, gfMul 64 f]) [0, 0, 0, 0]

/-- The value of a word at α^j, which is 0 for each j below 4 exactly in a codeword. -/
def syndrome (w : List Nat) (j : Nat) : Nat := let x := gfPow2 j; w.foldl (fun a c => gfMul a x ^^^ c) 0

/-- What a symbol counts as in the locators: α^(67 − i). -/
def symbolX (i : Nat) : Nat := gfPow2 (67 - i)

/-- The one symbol, and what to add to it, that explains four syndromes. -/
def locate1 (s0 s1 s2 s3 : Nat) : List (Nat × Nat) :=
  ((List.range 68).filter fun i => let x := symbolX i; s0 != 0 && gfMul s0 x == s1 && gfMul s1 x == s2 && gfMul s2 x == s3).map fun i => (i, s0)

/-- The two symbols that explain four syndromes: the roots of their locator polynomial. -/
def locate2 (s0 s1 s2 s3 : Nat) : List (Nat × Nat) :=
  let det := gfMul s0 s2 ^^^ gfMul s1 s1
  let b := gfMul s0 s3 ^^^ gfMul s1 s2
  let c := gfMul s1 s3 ^^^ gfMul s2 s2
  let roots := (List.range 68).filter fun i => let x := symbolX i; (gfMul det (gfMul x x) ^^^ gfMul b x ^^^ c) == 0
  match det == 0, roots with
  | false, [i, j] =>
    let e := gfMul (s1 ^^^ gfMul s0 (symbolX j)) (gfInv (symbolX i ^^^ symbolX j))
    [(i, e), (j, s0 ^^^ e)]
  | _, _ => []

/-- What the decoder makes of a stored word: a codeword, one that it corrects (symbols and what to add to them), or an error that it does not
correct (Table 12-3). -/
inductive Decoded where
  | good
  | fixed (errs : List (Nat × Nat))
  | bad
  deriving DecidableEq, Repr

/-- The decoder in an ECC_MODE: C2 corrects up to two symbols, C1D3 one, D4 none. Beyond what the code guarantees it does the same (DEDUCED,
log entry 10). -/
def eccDecode (mode : Nat) (w : List Nat) : Decoded :=
  let s0 := syndrome w 0
  let s1 := syndrome w 1
  let s2 := syndrome w 2
  let s3 := syndrome w 3
  if s0 = 0 ∧ s1 = 0 ∧ s2 = 0 ∧ s3 = 0 then .good
  else
    match if 2 ≤ mode then [] else locate1 s0 s1 s2 s3, if mode = 0 then locate2 s0 s1 s2 s3 else [] with
    | e :: _, _ => .fixed [e]
    | [], [] => .bad
    | [], es => .fixed es

/-- A word with what the decoder adds to its symbols. -/
def repair (w : List Nat) (es : List (Nat × Nat)) : List Nat := es.foldl (fun w e => w.set e.1 (w.getD e.1 0 ^^^ e.2)) w

end Sys2Proof.Machine
end

