-- ==== Sys2Proof/Machine/Codes.lean ====
section
/-! DEFINITION. The error and notice codes (R12 and the code tables of every chapter), by the spec's own names, and the unit
numbers of Table 17-1. -/

namespace Sys2Proof.Machine

/-- `IMG_SIG_FAIL`: Signature verification failed -/
def Code.IMG_SIG_FAIL : Nat := 0x0A01
/-- `IMG_FORMAT`: Header, section table or section content malformed -/
def Code.IMG_FORMAT : Nat := 0x0A02
/-- `IMG_ROLLBACK`: ROLLBACK below the fuse counter -/
def Code.IMG_ROLLBACK : Nat := 0x0A03
/-- `IMG_KEY_REVOKED`: Key revoked, or key record malformed or not matching the fuses (R26) -/
def Code.IMG_KEY_REVOKED : Nat := 0x0A04
/-- `IMG_PART`: Part or stepping mismatch -/
def Code.IMG_PART : Nat := 0x0A05
/-- `IMG_NONE`: No candidate slot -/
def Code.IMG_NONE : Nat := 0x0A06
/-- `KDL_FUSE_FAIL`: Fuse read failed -/
def Code.KDL_FUSE_FAIL : Nat := 0x0A07
/-- `KDL_TRAIN_FAIL`: GDDR7 training or bank clear failed -/
def Code.KDL_TRAIN_FAIL : Nat := 0x0A08
/-- `CFG_RUNNING`: Configuration write to a function not STOPPED -/
def Code.CFG_RUNNING : Nat := 0x0A10
/-- `CFG_INVALID`: Pending configuration rejected at restart -/
def Code.CFG_INVALID : Nat := 0x0A11
/-- `FUNC_STATE`: Request not allowed in the function's state -/
def Code.FUNC_STATE : Nat := 0x0A12
/-- `NOT_LEAD`: Request from other than the lead host -/
def Code.NOT_LEAD : Nat := 0x0A13
/-- `TICKET_FORMAT`: See Table 2-8 -/
def Code.TICKET_FORMAT : Nat := 0x0A20
/-- `TICKET_DUP`: See Table 2-8 -/
def Code.TICKET_DUP : Nat := 0x0A21
/-- `TICKET_PROGRAM`: See Table 2-8 -/
def Code.TICKET_PROGRAM : Nat := 0x0A22
/-- `TICKET_BUFFERS`: See Table 2-8 -/
def Code.TICKET_BUFFERS : Nat := 0x0A23
/-- `FUNC_UNAVAIL`: See Table 2-8 -/
def Code.FUNC_UNAVAIL : Nat := 0x0A24
/-- `CANCELLED`: Ticket cancelled -/
def Code.CANCELLED : Nat := 0x0A25
/-- `REKINDLED`: Ticket ended by re-kindle -/
def Code.REKINDLED : Nat := 0x0A26
/-- `STALE`: Management view behind the data path; see Dependability, checkpoints and the coherent state -/
def Code.STALE : Nat := 0x0A30
/-- `TOKEN_WAIT`: Command or request waiting for tokens (R73) -/
def Code.TOKEN_WAIT : Nat := 0x0901
/-- `THERM_LIMIT`: Holdings above the thermal ceiling (R63) -/
def Code.THERM_LIMIT : Nat := 0x0902
/-- `OVERDRAW`: Measured hearth current above its holding (R65) -/
def Code.OVERDRAW : Nat := 0x0903
/-- `INPUT_LIMIT`: Module input above INPUT_W (R66) -/
def Code.INPUT_LIMIT : Nat := 0x0904
/-- `RAIL_LIMIT`: A memory, codec, I/O or GDDR7 rail at its ceiling (R68) -/
def Code.RAIL_LIMIT : Nat := 0x0905
/-- `TOKEN_EXCEEDS`: Command can never be granted (R74) -/
def Code.TOKEN_EXCEEDS : Nat := 0x0906
/-- `SENSOR_FAIL`: Sensor reading absent or invalid (R64) -/
def Code.SENSOR_FAIL : Nat := 0x0907
/-- `FMT_RESERVED`: Reserved format code (R81) -/
def Code.FMT_RESERVED : Nat := 0x0101
/-- `FMT_PAIR`: Operand pair or pass count not in Table 4-6 (R96) -/
def Code.FMT_PAIR : Nat := 0x0102
/-- `FMT_ENGINE`: Format not accepted by the engine (R96) -/
def Code.FMT_ENGINE : Nat := 0x0103
/-- `FMT_LAYOUT`: Invalid block layout (R88) -/
def Code.FMT_LAYOUT : Nat := 0x0104
/-- `SCALE_RECORD`: Malformed or mismatched scale record (R90) -/
def Code.SCALE_RECORD : Nat := 0x0105
/-- `FMT_ROUND`: Stochastic rounding selected for a format that does not allow it (R102) -/
def Code.FMT_ROUND : Nat := 0x0106
/-- `SUBN_FLUSHED`: Subnormal value flushed (R107) -/
def Code.SUBN_FLUSHED : Nat := 0x0110
/-- `SCALE_OVF`: Scaled result saturated (R104) -/
def Code.SCALE_OVF : Nat := 0x0111
/-- `SCALE_UNF`: Scaled result flushed to zero (R104) -/
def Code.SCALE_UNF : Nat := 0x0112
/-- `BLOCK_DOMINANCE`: Dominated block stored; counted only (R101) -/
def Code.BLOCK_DOMINANCE : Nat := 0x0113
/-- `INVALID_BLOCK`: Block of code 0xFF written, or read into a floating-point result -/
def Code.INVALID_BLOCK : Nat := 0x0114
/-- `NONFINITE_INT`: NaN or infinity stored to an integer format (R99, R186) -/
def Code.NONFINITE_INT : Nat := 0x0115
/-- `INT_SAT`: INT32 accumulator saturated (R98) -/
def Code.INT_SAT : Nat := 0x0116
/-- `ACC_CAPACITY`: Live set does not fit the free slots (R125, R127) -/
def Code.ACC_CAPACITY : Nat := 0x0201
/-- `ACC_SLOT`: Accumulate-in or keep names slots in the wrong state (R127) -/
def Code.ACC_SLOT : Nat := 0x0202
/-- `SHAPE_INVALID`: Stationary tile beyond the shape's bounds (R118) -/
def Code.SHAPE_INVALID : Nat := 0x0203
/-- `ME_FAULTED`: Command names a FAULTED ME (R130) -/
def Code.ME_FAULTED : Nat := 0x0204
/-- `ACC_ECC`: Uncorrectable accumulator error (R129) -/
def Code.ACC_ECC : Nat := 0x0205
/-- `STAT_PARITY`: Stationary register parity error (R129) -/
def Code.STAT_PARITY : Nat := 0x0206
/-- `ACC_CORR`: Accumulator single-bit error corrected (R129) -/
def Code.ACC_CORR : Nat := 0x0210
/-- `ACC_ORPHAN`: Kept slot freed at commit (R128) -/
def Code.ACC_ORPHAN : Nat := 0x0211
/-- `CMD_FORMAT`: Reserved field non-zero, or a field value not allowed, including a required reference of KIND 0b00, a slice without a SLICED descriptor, and OUT_Q without a destination (R7, R136, R139, R140, R155, R156) -/
def Code.CMD_FORMAT : Nat := 0x0301
/-- `CMD_OPCODE`: Reserved opcode (R138) -/
def Code.CMD_OPCODE : Nat := 0x0302
/-- `CMD_UNITS`: Mask not allowed for the opcode, or bank not in BANKS (R138) -/
def Code.CMD_UNITS : Nat := 0x0303
/-- `DESC_FORMAT`: Malformed tensor descriptor (R144) -/
def Code.DESC_FORMAT : Nat := 0x0304
/-- `DESC_SHAPE`: Operand dimensions disagree (R141) -/
def Code.DESC_SHAPE : Nat := 0x0305
/-- `DESC_RANGE`: Address, slice or extent out of range (R139, R144) -/
def Code.DESC_RANGE : Nat := 0x0306
/-- `DESC_ALIAS`: Destination overlaps an operand or itself (R142) -/
def Code.DESC_ALIAS : Nat := 0x0307
/-- `XFER_FORMAT`: Malformed transfer descriptor (R153) -/
def Code.XFER_FORMAT : Nat := 0x0308
/-- `TACK_FORMAT`: Tack transfer too long or crossing a 256-byte boundary (R154) -/
def Code.TACK_FORMAT : Nat := 0x0309
/-- `TILE_INVALID`: Tile fields or loop orders break R145 or R147 -/
def Code.TILE_INVALID : Nat := 0x030A
/-- `TILE_CAPACITY`: Staging need exceeds a staging region (R148) -/
def Code.TILE_CAPACITY : Nat := 0x030B
/-- `CHAIN_MODE`: Chain flag or queue use against the program's mode (R158) -/
def Code.CHAIN_MODE : Nat := 0x030C
/-- `CHAIN_FORM`: Malformed chain (R158) -/
def Code.CHAIN_FORM : Nat := 0x030D
/-- `QUEUE_HANDLE`: Popped handle, or handle of a QPUT command, malformed (R156, R157) -/
def Code.QUEUE_HANDLE : Nat := 0x030E
/-- `AWL_ILLEGAL`: Undefined or disallowed instruction or field (R177) -/
def Code.AWL_ILLEGAL : Nat := 0x0220
/-- `AWL_ALIGN`: Misaligned access or target (R165, R192) -/
def Code.AWL_ALIGN : Nat := 0x0221
/-- `AWL_ADDR`: Address not reachable, or a store into code (R165, R171, R187) -/
def Code.AWL_ADDR : Nat := 0x0222
/-- `AWL_BANK`: Bank not in BANKS (R165) -/
def Code.AWL_BANK : Nat := 0x0223
/-- `AWL_CODE`: Code range or entry invalid (R169) -/
def Code.AWL_CODE : Nat := 0x0224
/-- `AWL_BUDGET`: INSN_LIMIT exhausted (R175) -/
def Code.AWL_BUDGET : Nat := 0x0225
/-- `AWL_TRAP`: TRAP executed (R192) -/
def Code.AWL_TRAP : Nat := 0x0226
/-- `AWL_TOKEN`: Second token request while holding one (R191) -/
def Code.AWL_TOKEN : Nat := 0x0227
/-- `AWL_LS_ECC`: Uncorrectable local-store error (R167) -/
def Code.AWL_LS_ECC : Nat := 0x0228
/-- `AWL_LS_CORR`: Local-store single-bit error corrected (R167) -/
def Code.AWL_LS_CORR : Nat := 0x0230
/-- `CONV_GEOM`: Geometry record, groups, role, shape or regrouping not allowed (R200, R202, R203, R212, R219, R221) -/
def Code.CONV_GEOM : Nat := 0x0240
/-- `CONV_FILTER`: Filter beyond 16 × 16 × 8 (R213) -/
def Code.CONV_FILTER : Nat := 0x0241
/-- `WINO_INVALID`: Winograd conditions not met (R215) -/
def Code.WINO_INVALID : Nat := 0x0242
/-- `EMPTY_OUTPUT`: Output extent zero or less; nothing written (R209) -/
def Code.EMPTY_OUTPUT : Nat := 0x0250
/-- `ATTN_SHAPE`: Shape, head width or SCALE not allowed (R224, R225) -/
def Code.ATTN_SHAPE : Nat := 0x0260
/-- `ATTN_BIAS`: Bias record, table entry or per-key bias invalid (R231–R234) -/
def Code.ATTN_BIAS : Nat := 0x0261
/-- `KV_RECORD`: Cache record malformed (R237) -/
def Code.KV_RECORD : Nat := 0x0262
/-- `KV_SEQ`: Sequence index, state or entries invalid (R232, R239, R240) -/
def Code.KV_SEQ : Nat := 0x0263
/-- `KV_APPEND`: Uncommitted edit of the sequence, or MAX_PAGES exceeded (R244) -/
def Code.KV_APPEND : Nat := 0x0264
/-- `KV_EXHAUSTED`: No pages can be freed (R248) -/
def Code.KV_EXHAUSTED : Nat := 0x0265
/-- `KV_FREE`: Free ring overflow or bad page address (R245) -/
def Code.KV_FREE : Nat := 0x0266
/-- `ROW_FORMAT`: ROW_FWD field or statistics tag invalid (R230, R235) -/
def Code.ROW_FORMAT : Nat := 0x0267
/-- `ROW_ECC`: Uncorrectable statistics-memory or row-buffer error (R250) -/
def Code.ROW_ECC : Nat := 0x0268
/-- `KV_WAIT`: Walk waiting for pages (R248) -/
def Code.KV_WAIT : Nat := 0x0270
/-- `KV_PREEMPT`: Sequence pre-empted (R246) -/
def Code.KV_PREEMPT : Nat := 0x0271
/-- `KV_RESUME`: Sequence resumed (R247) -/
def Code.KV_RESUME : Nat := 0x0272
/-- `MASKED_ROW`: Fully masked row (R228) -/
def Code.MASKED_ROW : Nat := 0x0273
/-- `ROW_CORR`: Single-bit error corrected (R250) -/
def Code.ROW_CORR : Nat := 0x0274
/-- `STASH_FORMAT`: PUT or GET field, segment or EVAL use not allowed (R263, R268, R270, R275) -/
def Code.STASH_FORMAT : Nat := 0x0501
/-- `STASH_NOQUOTA`: Program has no quota set (R263) -/
def Code.STASH_NOQUOTA : Nat := 0x0502
/-- `STASH_KEY`: Key present at PUT, absent or DROPPED without segment at GET, or rows out of range (R263, R268, R270) -/
def Code.STASH_KEY : Nat := 0x0503
/-- `STASH_DEADLOCK`: Waiting PUT can never be placed (R267) -/
def Code.STASH_DEADLOCK : Nat := 0x0504
/-- `STASH_WAIT`: PUT waiting for pages (R266) -/
def Code.STASH_WAIT : Nat := 0x0510
/-- `STASH_SPILL`: Entry placed in the far tier (R265) -/
def Code.STASH_SPILL : Nat := 0x0511
/-- `STASH_DROP`: Eligible entry not stored (R265) -/
def Code.STASH_DROP : Nat := 0x0512
/-- `STASH_RECOMPUTE`: Recompute segment run (R270) -/
def Code.STASH_RECOMPUTE : Nat := 0x0513
/-- `STASH_ORPHAN`: Entry freed at commit (R271) -/
def Code.STASH_ORPHAN : Nat := 0x0514
/-- `STAT_MISSING`: Tag rows absent, kind mismatched, or STAT_IN to a tag in use (R254, R258, R261) -/
def Code.STAT_MISSING : Nat := 0x0269
/-- `STAT_FULL`: No room in memory or spill region (R255) -/
def Code.STAT_FULL : Nat := 0x026A
/-- `STAT_SPILL`: Tag spilled to hearth banks (R255) -/
def Code.STAT_SPILL : Nat := 0x0275
/-- `STAT_ORPHAN`: Tag freed at commit (R256) -/
def Code.STAT_ORPHAN : Nat := 0x0276
/-- `COLL_FORMAT`: Body, form, member set or identifier invalid (R279, R286, R297, R306) -/
def Code.COLL_FORMAT : Nat := 0x0601
/-- `PARAM_RECORD`: Parameter record or its descriptors invalid (R282, R283) -/
def Code.PARAM_RECORD : Nat := 0x0602
/-- `OPT_RECORD`: Optimiser record invalid (R298) -/
def Code.OPT_RECORD : Nat := 0x0603
/-- `COLL_MISMATCH`: Segment disagrees with the local command; identifier reused (R294, R308) -/
def Code.COLL_MISMATCH : Nat := 0x0604
/-- `DIGEST_MISMATCH`: Digests of the collective disagree (R293) -/
def Code.DIGEST_MISMATCH : Nat := 0x0605
/-- `PARAM_STATE`: Update outside a TRAINING program, second update in a step, or gather without an update (R297, R299, R307) -/
def Code.PARAM_STATE : Nat := 0x0606
/-- `HOLD_OVERFLOW`: Hold count above 65,535 (R304) -/
def Code.HOLD_OVERFLOW : Nat := 0x0607
/-- `LAND_ECC`: Uncorrectable landing-buffer error (R295) -/
def Code.LAND_ECC : Nat := 0x0608
/-- `HOLD_WAIT`: Update waiting for holds (R299) -/
def Code.HOLD_WAIT : Nat := 0x0610
/-- `UPD_NONFINITE`: Non-finite value in an update (R301) -/
def Code.UPD_NONFINITE : Nat := 0x0611
/-- `CREDIT_WAIT`: Segment waiting for landing credit (R295) -/
def Code.CREDIT_WAIT : Nat := 0x0612
/-- `LAND_CORR`: Landing-buffer single-bit error corrected (R295) -/
def Code.LAND_CORR : Nat := 0x0613
/-- `OWNER_FAULT`: Bank access by a non-owner, or handover word refused (R327, R328) -/
def Code.OWNER_FAULT : Nat := 0x0401
/-- `ADDR_UNMAPPED`: Address outside every region (R312, R328) -/
def Code.ADDR_UNMAPPED : Nat := 0x0402
/-- `MEM_READONLY`: Write to a read-only page (R320) -/
def Code.MEM_READONLY : Nat := 0x0403
/-- `MEM_UNCORR`: Near-tier error not corrected (R317) -/
def Code.MEM_UNCORR : Nat := 0x0404
/-- `MEM_POISON`: Read, partial write or accumulate on a poisoned sector (R317) -/
def Code.MEM_POISON : Nat := 0x0405
/-- `MEM_LINK`: GDDR7 controller FAILED or interface lost (R319, R22) -/
def Code.MEM_LINK : Nat := 0x0406
/-- `FAR_LINK`: CXL link failed or lost (R322, R324, R22) -/
def Code.FAR_LINK : Nat := 0x0407
/-- `FAR_POISON`: Poison returned by a far-tier device (R324) -/
def Code.FAR_POISON : Nat := 0x0408
/-- `FAR_DEVICE`: Far-tier device not usable (R322) -/
def Code.FAR_DEVICE : Nat := 0x0409
/-- `MEM_CORR`: Near-tier error corrected (R316) -/
def Code.MEM_CORR : Nat := 0x0410
/-- `MEM_SCRUB_POISON`: Sector poisoned by scrub (R318) -/
def Code.MEM_SCRUB_POISON : Nat := 0x0411
/-- `MEM_RETRY`: GDDR7 transfer repeated after a CRC failure (R319) -/
def Code.MEM_RETRY : Nat := 0x0412
/-- `COD_FORMAT`: Body or record invalid (R346, R355, R359, R362) -/
def Code.COD_FORMAT : Nat := 0x0701
/-- `COD_UNSUPPORTED`: Stream or encode setting outside Tables 13-1 and 13-2 (R337, R350, R362) -/
def Code.COD_UNSUPPORTED : Nat := 0x0702
/-- `COD_HEADER`: No valid parameter set or sequence header (R350) -/
def Code.COD_HEADER : Nat := 0x0703
/-- `COD_POOL`: Pool or slot too small (R344) -/
def Code.COD_POOL : Nat := 0x0704
/-- `COD_INGEST`: Crop, field selection or slot invalid for the picture (R359, R361) -/
def Code.COD_INGEST : Nat := 0x0705
/-- `COD_OUT_FULL`: Encode output buffer full (R364) -/
def Code.COD_OUT_FULL : Nat := 0x0706
/-- `COD_ECC`: Uncorrectable syntax-buffer error (R342) -/
def Code.COD_ECC : Nat := 0x0707
/-- `COD_DAMAGE`: Delivered picture carries damage (R353) -/
def Code.COD_DAMAGE : Nat := 0x0710
/-- `COD_DROPPED`: Picture dropped (R353) -/
def Code.COD_DROPPED : Nat := 0x0711
/-- `COD_SHORT`: Fewer pictures than OUT_COUNT (R349) -/
def Code.COD_SHORT : Nat := 0x0712
/-- `COD_CORR`: Syntax-buffer single-bit error corrected (R342) -/
def Code.COD_CORR : Nat := 0x0713
/-- `HOST_LINK`: Port link down or lost (R22, R377) -/
def Code.HOST_LINK : Nat := 0x0B01
/-- `HOST_ACCESS`: Host refused or timed out a request; bus mastering off; D3hot (R369, R377) -/
def Code.HOST_ACCESS : Nat := 0x0B02
/-- `HOST_POISON`: Poisoned completion (R377) -/
def Code.HOST_POISON : Nat := 0x0B03
/-- `BAR_WIDTH`: BAR0 or BAR2 access refused (R372) -/
def Code.BAR_WIDTH : Nat := 0x0B10
/-- `DOORBELL_INVALID`: Doorbell value or ring state not accepted (R374) -/
def Code.DOORBELL_INVALID : Nat := 0x0B11
/-- `RING_BUSY`: Ring register write refused, or ring failed its enable check (R373) -/
def Code.RING_BUSY : Nat := 0x0B12
/-- `RECORD_LOST`: Completion record write failed (R381) -/
def Code.RECORD_LOST : Nat := 0x0B13
/-- `LINK_DOWN`: Link FAILED or partner lost (R22, R395) -/
def Code.LINK_DOWN : Nat := 0x0801
/-- `LINK_ROUTE`: No link towards the destination (R389, R390) -/
def Code.LINK_ROUTE : Nat := 0x0802
/-- `LINK_HOP`: Route longer than four links (R390) -/
def Code.LINK_HOP : Nat := 0x0803
/-- `LINK_PEER`: HELLO does not match the configuration (R393) -/
def Code.LINK_PEER : Nat := 0x0804
/-- `LINK_TRAIN`: Lanes did not train at an allowed width (R393, R394) -/
def Code.LINK_TRAIN : Nat := 0x0805
/-- `MIRROR_FAIL`: Mirror or return not completed (R398, R401) -/
def Code.MIRROR_FAIL : Nat := 0x0806
/-- `LINK_REPLAY`: Frames resent (R387) -/
def Code.LINK_REPLAY : Nat := 0x0810
/-- `LINK_RETRAIN`: Link retrained and resumed (R395) -/
def Code.LINK_RETRAIN : Nat := 0x0811
/-- `LINK_DEGRADED`: Link running at reduced width (R394) -/
def Code.LINK_DEGRADED : Nat := 0x0812
/-- `CKPT_FORMAT`: CKPT body or use invalid (R414) -/
def Code.CKPT_FORMAT : Nat := 0x0440
/-- `CKPT_SIZE`: Image too large for staging, slot, k × C or DST_LEN (R415, R416, R419) -/
def Code.CKPT_SIZE : Nat := 0x0441
/-- `FLASH_UNCORR`: Flash read not correctable (R417) -/
def Code.FLASH_UNCORR : Nat := 0x0442
/-- `FLASH_PROGRAM`: No spare block left (R417) -/
def Code.FLASH_PROGRAM : Nat := 0x0443
/-- `FLASH_LINK`: ONFI domain lost (R417, R22) -/
def Code.FLASH_LINK : Nat := 0x0444
/-- `RESTORE_IMAGE`: Image incomplete, corrupt or not matching (R428, R430) -/
def Code.RESTORE_IMAGE : Nat := 0x0445
/-- `RESTORE_STATE`: Operation not allowed in the present state (R424, R427) -/
def Code.RESTORE_STATE : Nat := 0x0446
/-- `CKPT_SKIPPED`: CKPT skipped with SKIP_BUSY (R415) -/
def Code.CKPT_SKIPPED : Nat := 0x0450
/-- `RLOG_LOST`: Replay-log entry not written (R422) -/
def Code.RLOG_LOST : Nat := 0x0451
/-- `FLASH_CORR`: Flash read corrected (R417) -/
def Code.FLASH_CORR : Nat := 0x0452
/-- `FLASH_RETIRED`: Flash block retired (R417) -/
def Code.FLASH_RETIRED : Nat := 0x0453

/-- Unit numbers (Table 17-1). -/
def U.disp (h : Nat) : Nat := 32 * h
def U.xfer (h : Nat) : Nat := 32 * h + 1
def U.row (h : Nat) : Nat := 32 * h + 2
def U.ats (h : Nat) : Nat := 32 * h + 3
def U.router (h : Nat) : Nat := 32 * h + 4
def U.awl (h c : Nat) : Nat := 32 * h + 8 + c
def U.me (h i : Nat) : Nat := 32 * h + 16 + i
def U.gddr (c : Nat) : Nat := 0x200 + c
def U.stitch (c : Nat) : Nat := 0x220 + c
def U.burnish (c : Nat) : Nat := 0x240 + c
def U.saddle (c : Nat) : Nat := 0x260 + c
def U.lane (i : Nat) : Nat := 0x280 + i
def U.ingest : Nat := 0x288
def U.link (l : Nat) : Nat := 0x290 + l
def U.girth : Nat := 0x29C
def U.pcie (p : Nat) : Nat := 0x2A0 + p
def U.cxl (n : Nat) : Nat := 0x2A4 + n
def U.sup (n : Nat) : Nat := 0x2A8 + n
def U.damper : Nat := 0x2AC
def U.flash : Nat := 0x2AD
def U.mgmt : Nat := 0x2AE

/-- The 595 unit numbers that Table 17-1 assigns. -/
def unitNumbers : List Nat :=
  ((List.range 16).flatMap fun h => [32 * h, 32 * h + 1, 32 * h + 2, 32 * h + 3, 32 * h + 4] ++
    (List.range 8).map (32 * h + 8 + ·) ++ (List.range 16).map (32 * h + 16 + ·)) ++
  (List.range 24).map (0x200 + ·) ++ (List.range 24).map (0x220 + ·) ++ (List.range 24).map (0x240 + ·) ++
  (List.range 24).map (0x260 + ·) ++ (List.range 9).map (0x280 + ·) ++ (List.range 13).map (0x290 + ·) ++
  [0x2A0, 0x2A1, 0x2A4, 0x2A5, 0x2A6, 0x2A7, 0x2A8, 0x2A9, 0x2AA, 0x2AB, 0x2AC, 0x2AD, 0x2AE]

end Sys2Proof.Machine
end

