-- ==== Sys2Proof/Config.lean ====
section
/-! DEFINITION. What the spec leaves open, as constants without a body: nothing in Lean can evaluate them or prove a value of
them. A free value is one of these applied to a counter that State carries, or to the operands it depends on. -/

namespace Sys2Proof

/-- A free number for the n-th open choice of a run (DESIGN CHOICE, log entry 2). -/
opaque Config.freeNat : Nat → Nat
/-- A free byte: the n-th open choice, at an index within it (DESIGN CHOICE, log entry 2). -/
opaque Config.freeByte : Nat → Nat → BitVec 8
/-- SHAKE256 of FIPS 202: the first n output bytes over a string (R26, R36, R449; PRESUMED, log entry 3). -/
opaque Config.shake256 : Bytes → Nat → Bytes
/-- ML-DSA-65 verification of FIPS 204 with an empty context string: public key, digest, signature (R36; PRESUMED, log entry 3). -/
opaque Config.mldsaVerify : Bytes → Bytes → Bytes → Bool
/-- ML-DSA-65 key generation from a 32-byte seed: the secret key (R449; PRESUMED, log entry 3). -/
opaque Config.mldsaKey : Bytes → Bytes
/-- ML-DSA-65 signature of a digest under a secret key (R449; PRESUMED, log entry 3). -/
opaque Config.mldsaSign : Bytes → Bytes → Bytes
/-- The contents of the boot ROM, measurement index 1 (Table 17-7; DESIGN CHOICE, log entry 4). -/
opaque Config.bootRom : Bytes
/-- The vendor's enterprise number in `MGT_ID` (R446; the reset entry is "Fixed", DESIGN CHOICE, log entry 4). -/
opaque Config.iana : Nat
/-- Transcendental results within the bounds of R182: function number, element type, subnormal mode, operand (DEDUCED, log entry 5). -/
opaque Config.transcend : Nat → Nat → Bool → Nat → Nat
/-- The row engine's exp (R182, R227, R236), subnormal mode and operand in FP32 (DEDUCED, log entry 5). -/
opaque Config.rowExp : Bool → Nat → Nat
/-- What a decoder that conforms to the stream's standard reconstructs of a block that it does not conceal (R336 to R352): standard and
stream bytes, then the coded picture, plane, row and column of a sample (DEDUCED, log entry 6). -/
opaque Config.decoded : Nat → Bytes → Nat → Nat → Nat → Nat → Nat
/-- What a stream codes of a picture (R348, R350): the parts that its standard names units, by number; those of them in which a
syntax error lies; whether its header is broken; the field that is present when the other is missing (true: the bottom field). -/
structure CodedPicture where
  units : Nat
  broken : List Nat
  headerBroken : Bool
  oneField : Option Bool
  deriving DecidableEq, Repr, Inhabited
/-- What a stream codes of a 16 × 16 luma block (R351, R352): its unit; whether it is inter-coded and with which vector, in eighths of a
luma sample; the blocks (coded picture, column, row) of which its prediction reads a sample, interpolation taps included. -/
structure CodedBlock where
  unit : Nat
  inter : Bool
  vx : Int
  vy : Int
  reads : List (Nat × Nat × Nat)
  deriving DecidableEq, Repr, Inhabited
/-- The coded pictures of a stream in decode order, by number (DEDUCED, log entry 6). -/
opaque Config.codedPicture : Nat → Bytes → Nat → CodedPicture
/-- A block of a coded picture by column and row (DEDUCED, log entry 6). -/
opaque Config.codedBlock : Nat → Bytes → Nat → Nat → Nat → CodedBlock
/-- The coded pictures that the standard shows, in output order (DEDUCED, log entry 6). -/
opaque Config.shown : Nat → Bytes → List Nat
/-- A copy by a vector between sample positions, under the standard's interpolation (R351): coded picture, plane, row and column of the
copied sample (DEDUCED, log entry 6). -/
opaque Config.copied : Nat → Bytes → Nat → Nat → Nat → Nat → Nat
/-- AV1 film grain on a sample of an output picture (R338): picture, plane, row, column, sample without grain (DEDUCED, log entry 6). -/
opaque Config.filmGrain : Bytes → Nat → Nat → Nat → Nat → Nat → Nat
/-- What the decoder finds of a stream's form (R345 to R352): standard, stream, and the number of the property (DEDUCED, log entry 6). -/
opaque Config.streamProp : Nat → Bytes → Nat → Nat
/-- The bitstream of a picture (R362 to R366; DEDUCED, log entry 6): standard, parameters, the source samples' bytes and the vectors that
the motion search keeps. -/
opaque Config.encoded : Nat → Bytes → Bytes → Bytes → Bytes
/-- A prediction block of an inter block: left, top, width and height in luma samples. -/
structure PredBlock where
  x : Nat
  y : Nat
  w : Nat
  h : Nat
  deriving DecidableEq, Repr, Inhabited
/-- The prediction blocks of a picture's inter blocks (R365): standard, record and source, picture (DEDUCED, log entry 6). -/
opaque Config.predBlocks : Nat → Bytes → Nat → List PredBlock
/-- The pictures that a picture refers to (DEDUCED, log entry 6). -/
opaque Config.encoderRefs : Nat → Bytes → Nat → List Nat
/-- Luma of a picture as it enters its slot: picture, column, row (DEDUCED, log entry 6). -/
opaque Config.slotLuma : Nat → Bytes → Nat → Nat → Nat → Nat
/-- Luma of a slot picture between its samples: picture, and the position in quarter samples (DEDUCED, log entry 6). -/
opaque Config.slotQuarter : Nat → Bytes → Nat → Int → Int → Int
/-- Merge and reference-vector candidates of a prediction block for a reference, in samples (DEDUCED, log entry 6). -/
opaque Config.vectorCandidates : Nat → Bytes → Nat → PredBlock → Nat → List (Int × Int)
/-- SATD of a block's residual, row by row, of a width (DEDUCED, log entry 6). -/
opaque Config.satd : Nat → List Int → Nat
/-- λ × vector bits of a vector in quarter samples (DEDUCED, log entry 6). -/
opaque Config.vectorCost : Nat → Bytes → Nat → PredBlock → Int × Int → Nat

/-- The bytes of a reply of the management endpoint in the encodings of the DMTF standards (R446 to R449): the request, and the content
that the spec gives (PRESUMED, log entry 20). -/
opaque Config.mctpReply : Bytes → Bytes → Bytes
/-- PRESUMED (log entry 20). -/
opaque Config.pldmReply : Bytes → Bytes → Bytes
/-- PRESUMED (log entry 20). -/
opaque Config.spdmReply : Bytes → Bytes → Bytes

end Sys2Proof
end

