-- ==== Sys2Proof/Machine/RegTable.lean ====
section
/-! DEFINITION. The register file's layout (R9, R10, R55, R371, Table 14-3 and the register tables of every chapter): one
row per register or register array, its place in BAR0, the bits of each access code, the reset value and the function of
which it is a configuration register (R43, R45). The field accessors name every field by the spec's own register and field. -/

namespace Sys2Proof.Machine

/-- A field of a register: its BAR0 offset, its lowest bit and its width (R9). -/
structure Fld where
  off : Nat
  lo : Nat
  width : Nat
  deriving DecidableEq, Repr

/-- Of which function a register is a configuration register (R43, R45; R331 for `bank`, R405 for `route`). -/
inductive FuncOf where
  /-- no configuration register -/
  | none
  /-- of the function of this number -/
  | const (f : Nat)
  /-- of the function of this number plus the register's first index -/
  | idx (f : Nat)
  /-- `BNK_INIT_n`: the hearth of bank n -/
  | bank
  /-- `CLK_ROUTE_m`: bit l belongs to function 0x20 + l -/
  | route
  deriving DecidableEq, Repr

/-- One register or array of registers: base offset, two index ranges with their strides, the masks of the access codes of
R10, the bits whose reset entry is image, and the reset value. -/
structure RegGroup where
  name : String
  base : Nat
  n1 : Nat
  s1 : Nat
  n2 : Nat
  s2 : Nat
  rw : Nat
  w1c : Nat
  rc : Nat
  wo : Nat
  image : Nat
  reset : Nat
  func : FuncOf
  deriving DecidableEq, Repr

/-- Registers of block `DEV`. -/
def regsDev : List RegGroup := [
  ⟨"DEV_ID", 0x0, 1, 0x0, 1, 0x0, 0x0, 0x0, 0x0, 0x0, 0x0, 0x9024, .none⟩,
  ⟨"DEV_STATE", 0x8, 1, 0x0, 1, 0x0, 0x0, 0x0, 0x0, 0x0, 0x0, 0x2, .none⟩,
  ⟨"DEV_IDENT", 0x10, 1, 0x0, 1, 0x0, 0x0, 0x0, 0x0, 0x0, 0x0, 0x0, .none⟩,
  ⟨"DEV_GROUP", 0x18, 1, 0x0, 1, 0x0, 0x0, 0x0, 0x0, 0x0, 0x0, 0x0, .none⟩,
  ⟨"DEV_COMMIT_GEN", 0x20, 1, 0x0, 1, 0x0, 0x0, 0x0, 0x0, 0x0, 0x0, 0x0, .none⟩,
  ⟨"DEV_FUNC_CTL", 0x40, 1, 0x0, 1, 0x0, 0x0, 0x0, 0x0, 0x3ff, 0x0, 0x0, .none⟩,
  ⟨"DEV_FUNC_STATE0", 0x48, 1, 0x0, 1, 0x0, 0x0, 0x0, 0x0, 0x0, 0x0, 0x0, .none⟩,
  ⟨"DEV_FUNC_STATE1", 0x50, 1, 0x0, 1, 0x0, 0x0, 0x0, 0x0, 0x0, 0x0, 0x0, .none⟩,
  ⟨"DEV_CFG_ERR", 0x58, 1, 0x0, 1, 0x0, 0x0, 0x0, 0xffffffffffffff, 0x0, 0x0, 0x0, .none⟩,
  ⟨"DEV_CANCEL", 0x60, 1, 0x0, 1, 0x0, 0x0, 0x0, 0x0, 0xffffffffffff, 0x0, 0x0, .none⟩,
  ⟨"DEV_CTL", 0x68, 1, 0x0, 1, 0x0, 0x30000, 0x0, 0x0, 0xffff, 0x0, 0x0, .none⟩]

/-- Registers of block `KDL`. -/
def regsKdl : List RegGroup := [
  ⟨"KDL_STATUS", 0x1000, 1, 0x0, 1, 0x0, 0x0, 0x0, 0x0, 0x0, 0x0, 0x1, .none⟩,
  ⟨"KDL_IMAGE", 0x1008, 1, 0x0, 1, 0x0, 0x0, 0x0, 0x0, 0x0, 0x0, 0x0, .none⟩,
  ⟨"KDL_BUILD", 0x1010, 1, 0x0, 1, 0x0, 0x0, 0x0, 0x0, 0x0, 0x0, 0x0, .none⟩,
  ⟨"KDL_FUSE", 0x1018, 1, 0x0, 1, 0x0, 0x0, 0x0, 0x0, 0x0, 0x0, 0x0, .none⟩,
  ⟨"KDL_SLOTSEQ", 0x1030, 1, 0x0, 1, 0x0, 0x0, 0x0, 0x0, 0x0, 0x0, 0x0, .none⟩,
  ⟨"KDL_SPARE", 0x1020, 2, 0x8, 1, 0x0, 0x0, 0x0, 0x0, 0x0, 0x0, 0x0, .none⟩]

/-- Registers of block `DMP`. -/
def regsDmp : List RegGroup := [
  ⟨"DMP_POLICY", 0x2000, 1, 0x0, 1, 0x0, 0x1ffffffff1f, 0x0, 0x0, 0x0, 0x1ffffffff1f, 0x0, .const 0x13⟩,
  ⟨"DMP_CEIL", 0x2008, 1, 0x0, 1, 0x0, 0xfff0fff, 0x0, 0x0, 0x0, 0xfff0fff, 0x8980fa0, .const 0x13⟩,
  ⟨"DMP_RAILS", 0x2010, 1, 0x0, 1, 0x0, 0x1fffffff, 0x0, 0x0, 0x0, 0x1fffffff, 0x103c9678, .const 0x13⟩,
  ⟨"DMP_VSET", 0x2018, 2, 0x8, 1, 0x0, 0x1f1f1f1f1f1f1f1f, 0x0, 0x0, 0x0, 0x1f1f1f1f1f1f1f1f, 0x0, .const 0x13⟩,
  ⟨"DMP_VNOW", 0x2028, 2, 0x8, 1, 0x0, 0x0, 0x0, 0x0, 0x0, 0x0, 0x0, .none⟩,
  ⟨"DMP_POOL", 0x2038, 1, 0x0, 1, 0x0, 0x0, 0x0, 0x0, 0x0, 0x0, 0x0, .none⟩,
  ⟨"DMP_TEMP", 0x2040, 4, 0x8, 1, 0x0, 0x0, 0x0, 0x0, 0x0, 0x0, 0x0, .none⟩,
  ⟨"DMP_RAIL_PWR", 0x2060, 1, 0x0, 1, 0x0, 0x0, 0x0, 0x0, 0x0, 0x0, 0x0, .none⟩,
  ⟨"DMP_EVENT", 0x2068, 1, 0x0, 1, 0x0, 0x0, 0x3ff, 0x0, 0x0, 0x0, 0x0, .none⟩,
  ⟨"DMP_RAIL_GRANT", 0x2070, 1, 0x0, 1, 0x0, 0x0, 0x0, 0x0, 0x0, 0x0, 0x0, .none⟩,
  ⟨"DMP_GRANT", 0x2100, 16, 0x8, 1, 0x0, 0x0, 0x0, 0x0, 0x0, 0x0, 0x0, .none⟩]

/-- Registers of block `MXE`. -/
def regsMxe : List RegGroup := [
  ⟨"MXE_HCFG", 0x100000, 16, 0x1000, 1, 0x0, 0x1, 0x0, 0x0, 0x0, 0x1, 0x0, .idx 0⟩,
  ⟨"MXE_STATE", 0x100100, 16, 0x1000, 16, 0x40, 0x0, 0x0, 0x0, 0x0, 0x0, 0x0, .none⟩,
  ⟨"MXE_CMD", 0x100108, 16, 0x1000, 16, 0x40, 0x0, 0x0, 0x0, 0x0, 0x0, 0x0, .none⟩,
  ⟨"MXE_SLOTS", 0x100110, 16, 0x1000, 16, 0x40, 0x0, 0x0, 0x0, 0x0, 0x0, 0x0, .none⟩,
  ⟨"MXE_ERR", 0x100118, 16, 0x1000, 16, 0x40, 0x0, 0x7, 0x0, 0x0, 0x0, 0x0, .none⟩,
  ⟨"MXE_CTL", 0x100120, 16, 0x1000, 16, 0x40, 0x0, 0x0, 0x0, 0x1, 0x0, 0x0, .none⟩,
  ⟨"MXE_MAP", 0x100128, 16, 0x1000, 16, 0x40, 0x0, 0x0, 0x0, 0x0, 0x0, 0x0, .none⟩]

/-- Registers of block `HRT`. -/
def regsHrt : List RegGroup := [
  ⟨"HRT_STAGE_L1", 0x110000, 16, 0x1000, 1, 0x0, 0x1fff0fff, 0x0, 0x0, 0x0, 0x1fff0fff, 0x0, .idx 0⟩,
  ⟨"HRT_STAGE_L2", 0x110008, 16, 0x1000, 1, 0x0, 0xfff07ff000f, 0x0, 0x0, 0x0, 0xfff07ff000f, 0x0, .idx 0⟩,
  ⟨"HRT_STAGE_L3", 0x110010, 16, 0x1000, 1, 0x0, 0xffffffffffff, 0x0, 0x0, 0x0, 0xffffffffffff, 0x0, .idx 0⟩,
  ⟨"HRT_DISP", 0x110018, 16, 0x1000, 1, 0x0, 0x0, 0x0, 0x0, 0x0, 0x0, 0x0, .none⟩,
  ⟨"HRT_QOCC", 0x110040, 16, 0x1000, 8, 0x8, 0x0, 0x0, 0x0, 0x0, 0x0, 0x0, .none⟩]

/-- Registers of block `AWL`. -/
def regsAwl : List RegGroup := [
  ⟨"AWL_HCFG", 0x120000, 16, 0x1000, 1, 0x0, 0x1, 0x0, 0x0, 0x0, 0x1, 0x0, .idx 0⟩,
  ⟨"AWL_STATE", 0x120100, 16, 0x1000, 8, 0x40, 0x0, 0x0, 0x0, 0x0, 0x0, 0x0, .none⟩,
  ⟨"AWL_CMD", 0x120108, 16, 0x1000, 8, 0x40, 0x0, 0x0, 0x0, 0x0, 0x0, 0x0, .none⟩,
  ⟨"AWL_FAULT", 0x120110, 16, 0x1000, 8, 0x40, 0x0, 0x0, 0x0, 0x0, 0x0, 0x0, .none⟩,
  ⟨"AWL_FAULT_INSN", 0x120118, 16, 0x1000, 8, 0x40, 0x0, 0x0, 0x0, 0x0, 0x0, 0x0, .none⟩,
  ⟨"AWL_ERR", 0x120120, 16, 0x1000, 8, 0x40, 0x0, 0x3, 0x0, 0x0, 0x0, 0x0, .none⟩,
  ⟨"AWL_RESIDENT", 0x120128, 16, 0x1000, 8, 0x40, 0x0, 0x0, 0x0, 0x0, 0x0, 0x0, .none⟩,
  ⟨"AWL_ICOUNT", 0x120130, 16, 0x1000, 8, 0x40, 0x0, 0x0, 0x0, 0x0, 0x0, 0x0, .none⟩]

/-- Registers of block `SAWL`. -/
def regsSawl : List RegGroup := [
  ⟨"SAWL_STATE", 0x130100, 4, 0x40, 1, 0x0, 0x0, 0x0, 0x0, 0x0, 0x0, 0x0, .none⟩,
  ⟨"SAWL_CMD", 0x130108, 4, 0x40, 1, 0x0, 0x0, 0x0, 0x0, 0x0, 0x0, 0x0, .none⟩,
  ⟨"SAWL_FAULT", 0x130110, 4, 0x40, 1, 0x0, 0x0, 0x0, 0x0, 0x0, 0x0, 0x0, .none⟩,
  ⟨"SAWL_FAULT_INSN", 0x130118, 4, 0x40, 1, 0x0, 0x0, 0x0, 0x0, 0x0, 0x0, 0x0, .none⟩,
  ⟨"SAWL_ERR", 0x130120, 4, 0x40, 1, 0x0, 0x0, 0x3, 0x0, 0x0, 0x0, 0x0, .none⟩,
  ⟨"SAWL_RESIDENT", 0x130128, 4, 0x40, 1, 0x0, 0x0, 0x0, 0x0, 0x0, 0x0, 0x0, .none⟩,
  ⟨"SAWL_ICOUNT", 0x130130, 4, 0x40, 1, 0x0, 0x0, 0x0, 0x0, 0x0, 0x0, 0x0, .none⟩]

/-- Registers of block `ATS`. -/
def regsAts : List RegGroup := [
  ⟨"ATS_CFG", 0x140000, 16, 0x1000, 1, 0x0, 0xff, 0x0, 0x0, 0x0, 0xff, 0x0, .idx 0⟩,
  ⟨"ATS_STATE", 0x140008, 16, 0x1000, 1, 0x0, 0x0, 0x0, 0x0, 0x0, 0x0, 0x0, .none⟩,
  ⟨"ATS_CMD", 0x140010, 16, 0x1000, 1, 0x0, 0x0, 0x0, 0x0, 0x0, 0x0, 0x0, .none⟩,
  ⟨"ATS_KV", 0x140018, 16, 0x1000, 1, 0x0, 0x0, 0x0, 0x0, 0x0, 0x0, 0x0, .none⟩,
  ⟨"ATS_PREEMPT", 0x140020, 16, 0x1000, 1, 0x0, 0x0, 0x0, 0x0, 0x0, 0x0, 0x0, .none⟩]

/-- Registers of block `ROW`. -/
def regsRow : List RegGroup := [
  ⟨"ROW_CFG", 0x150000, 16, 0x1000, 1, 0x0, 0x1, 0x0, 0x0, 0x0, 0x1, 0x0, .idx 0⟩,
  ⟨"ROW_STATE", 0x150008, 16, 0x1000, 1, 0x0, 0x0, 0x0, 0x0, 0x0, 0x0, 0x0, .none⟩,
  ⟨"ROW_CMD", 0x150010, 16, 0x1000, 1, 0x0, 0x0, 0x0, 0x0, 0x0, 0x0, 0x0, .none⟩,
  ⟨"ROW_STATS", 0x150018, 16, 0x1000, 1, 0x0, 0x0, 0x0, 0x0, 0x0, 0x0, 0x0, .none⟩,
  ⟨"ROW_ERR", 0x150020, 16, 0x1000, 1, 0x0, 0x0, 0x3, 0x0, 0x0, 0x0, 0x0, .none⟩]

/-- Registers of block `SBG`. -/
def regsSbg : List RegGroup := [
  ⟨"SBG_CFG", 0x160000, 1, 0x0, 1, 0x0, 0xfff, 0x0, 0x0, 0x0, 0xfff, 0x0, .const 0x11⟩,
  ⟨"SBG_NEAR", 0x160008, 1, 0x0, 1, 0x0, 0x3fffffffffffff, 0x0, 0x0, 0x0, 0x3fffffffffffff, 0x0, .const 0x11⟩,
  ⟨"SBG_FAR", 0x160010, 4, 0x8, 1, 0x0, 0xfffffffffffffff, 0x0, 0x0, 0x0, 0xfffffffffffffff, 0x0, .const 0x11⟩,
  ⟨"SBG_PQ", 0x160040, 16, 0x8, 1, 0x0, 0x3ffffffffffffff, 0x0, 0x0, 0x0, 0x3ffffffffffffff, 0x0, .const 0x11⟩,
  ⟨"SBG_PUSE", 0x1600c0, 16, 0x8, 1, 0x0, 0x0, 0x0, 0x0, 0x0, 0x0, 0x0, .none⟩,
  ⟨"SBG_STATE", 0x160140, 1, 0x0, 1, 0x0, 0x0, 0x0, 0x0, 0x0, 0x0, 0x0, .none⟩,
  ⟨"SBG_EVENT", 0x160148, 1, 0x0, 1, 0x0, 0x0, 0x7f, 0x0, 0x0, 0x0, 0x0, .none⟩,
  ⟨"SBG_LAST_DEADLOCK", 0x160150, 1, 0x0, 1, 0x0, 0x0, 0x0, 0x0, 0x0, 0x0, 0x0, .none⟩,
  ⟨"SBG_RSPILL", 0x160200, 16, 0x8, 1, 0x0, 0x1fff0fff, 0x0, 0x0, 0x0, 0x1fff0fff, 0x0, .idx 0⟩]

/-- Registers of block `STI`. -/
def regsSti : List RegGroup := [
  ⟨"STI_CFG", 0x170000, 1, 0x0, 1, 0x0, 0xff, 0x0, 0x0, 0x0, 0xff, 0x0, .const 0x11⟩,
  ⟨"STI_DLOG", 0x170008, 1, 0x0, 1, 0x0, 0x3ffffffffffffff, 0x0, 0x0, 0x0, 0x3ffffffffffffff, 0x0, .const 0x11⟩,
  ⟨"STI_STATE", 0x170010, 1, 0x0, 1, 0x0, 0x0, 0x0, 0x0, 0x0, 0x0, 0x0, .none⟩,
  ⟨"STI_LAST", 0x170018, 1, 0x0, 1, 0x0, 0x0, 0x0, 0x0, 0x0, 0x0, 0x0, .none⟩,
  ⟨"STI_DSENT", 0x170020, 1, 0x0, 1, 0x0, 0x0, 0x0, 0x0, 0x0, 0x0, 0x0, .none⟩,
  ⟨"STI_DRECV", 0x170028, 1, 0x0, 1, 0x0, 0x0, 0x0, 0x0, 0x0, 0x0, 0x0, .none⟩,
  ⟨"STI_EVENT", 0x170030, 1, 0x0, 1, 0x0, 0x0, 0x1f, 0x0, 0x0, 0x0, 0x0, .none⟩,
  ⟨"STI_ERR", 0x170038, 1, 0x0, 1, 0x0, 0x0, 0x0, 0x0, 0x0, 0x0, 0x0, .none⟩]

/-- Registers of block `BUR`. -/
def regsBur : List RegGroup := [
  ⟨"BUR_PDIR", 0x180000, 1, 0x0, 1, 0x0, 0x3ffffffffffffff, 0x0, 0x0, 0x0, 0x3ffffffffffffff, 0x0, .const 0x11⟩,
  ⟨"BUR_STATE", 0x180008, 1, 0x0, 1, 0x0, 0x0, 0x0, 0x0, 0x0, 0x0, 0x0, .none⟩,
  ⟨"BUR_LAST", 0x180010, 1, 0x0, 1, 0x0, 0x0, 0x0, 0x0, 0x0, 0x0, 0x0, .none⟩,
  ⟨"BUR_LASTSTEP", 0x180018, 1, 0x0, 1, 0x0, 0x0, 0x0, 0x0, 0x0, 0x0, 0x0, .none⟩,
  ⟨"BUR_EVENT", 0x180020, 1, 0x0, 1, 0x0, 0x0, 0xf, 0x0, 0x0, 0x0, 0x0, .none⟩]

/-- Registers of block `MEM`. -/
def regsMem : List RegGroup := [
  ⟨"MEM_CFG", 0x190000, 2, 0x8, 1, 0x0, 0xfff07, 0x0, 0x0, 0x0, 0xfff07, 0x0, .idx 0x11⟩,
  ⟨"MEM_RO_PAGES", 0x190010, 1, 0x0, 1, 0x0, 0x0, 0x0, 0x0, 0x0, 0x0, 0x0, .none⟩,
  ⟨"MEM_STATE", 0x190100, 24, 0x40, 1, 0x0, 0x0, 0x0, 0x0, 0x0, 0x0, 0x0, .none⟩,
  ⟨"MEM_ERR", 0x190108, 24, 0x40, 1, 0x0, 0x0, 0xf, 0x0, 0x0, 0x0, 0x0, .none⟩,
  ⟨"MEM_ERR_ADDR", 0x190110, 24, 0x40, 1, 0x0, 0x0, 0x0, 0x0, 0x0, 0x0, 0x0, .none⟩,
  ⟨"MEM_SCRUB", 0x190118, 24, 0x40, 1, 0x0, 0x0, 0x0, 0x0, 0x0, 0x0, 0x0, .none⟩]

/-- Registers of block `CXL`. -/
def regsCxl : List RegGroup := [
  ⟨"CXL_CFG", 0x1a0000, 4, 0x100, 1, 0x0, 0x7, 0x0, 0x0, 0x0, 0x7, 0x0, .idx 0x30⟩,
  ⟨"CXL_STATE", 0x1a0008, 4, 0x100, 1, 0x0, 0x0, 0x0, 0x0, 0x0, 0x0, 0x0, .none⟩,
  ⟨"CXL_ID", 0x1a0010, 4, 0x100, 1, 0x0, 0x0, 0x0, 0x0, 0x0, 0x0, 0x0, .none⟩,
  ⟨"CXL_ERR", 0x1a0018, 4, 0x100, 1, 0x0, 0x0, 0x3, 0x0, 0x0, 0x0, 0x0, .none⟩,
  ⟨"CXL_ERR_ADDR", 0x1a0020, 4, 0x100, 1, 0x0, 0x0, 0x0, 0x0, 0x0, 0x0, 0x0, .none⟩]

/-- Registers of block `BNK`. -/
def regsBnk : List RegGroup := [
  ⟨"BNK_HANDOVER", 0x1b0000, 1, 0x0, 1, 0x0, 0x0, 0x0, 0x0, 0xffff, 0x0, 0x0, .none⟩,
  ⟨"BNK_EVENT", 0x1b0008, 1, 0x0, 1, 0x0, 0x0, 0x3, 0x0, 0x0, 0x0, 0x0, .none⟩,
  ⟨"BNK_FAULT", 0x1b0010, 1, 0x0, 1, 0x0, 0x0, 0x0, 0x0, 0x0, 0x0, 0x0, .none⟩,
  ⟨"BNK_FAULT_ADDR", 0x1b0018, 1, 0x0, 1, 0x0, 0x0, 0x0, 0x0, 0x0, 0x0, 0x0, .none⟩,
  ⟨"BNK_OWNER", 0x1b0100, 144, 0x8, 1, 0x0, 0x0, 0x0, 0x0, 0x0, 0x0, 0x0, .none⟩,
  ⟨"BNK_INIT", 0x1b0600, 144, 0x8, 1, 0x0, 0xff, 0x0, 0x0, 0x0, 0xff, 0x0, .bank⟩]

/-- Registers of block `COD`. -/
def regsCod : List RegGroup := [
  ⟨"COD_CFG", 0x1c0000, 1, 0x0, 1, 0x0, 0xff01, 0x0, 0x0, 0x0, 0xff01, 0x0, .const 0x10⟩,
  ⟨"COD_STATE", 0x1c0008, 1, 0x0, 1, 0x0, 0x0, 0x0, 0x0, 0x0, 0x0, 0x0, .none⟩,
  ⟨"COD_EVENT", 0x1c0010, 1, 0x0, 1, 0x0, 0x0, 0x7f, 0x0, 0x0, 0x0, 0x0, .none⟩,
  ⟨"COD_ERR", 0x1c0018, 1, 0x0, 1, 0x0, 0x0, 0x0, 0x0, 0x0, 0x0, 0x0, .none⟩,
  ⟨"COD_LANE", 0x1c0100, 8, 0x8, 1, 0x0, 0x0, 0x0, 0x0, 0x0, 0x0, 0x0, .none⟩]

/-- Registers of block `HIF`. -/
def regsHif : List RegGroup := [
  ⟨"HIF_CFG", 0x1d0000, 2, 0x8, 1, 0x0, 0x3, 0x0, 0x0, 0x0, 0x3, 0x0, .idx 0x34⟩,
  ⟨"HIF_PORT", 0x1d0010, 2, 0x8, 1, 0x0, 0x100, 0x0, 0x0, 0x0, 0x0, 0x0, .none⟩,
  ⟨"HIF_LEAD", 0x1d0020, 1, 0x0, 1, 0x0, 0x0, 0x8, 0x0, 0x3, 0x0, 0x0, .none⟩,
  ⟨"HIF_RING_BASE", 0x1d0100, 2, 0x100, 4, 0x20, 0xffffffffffff, 0x0, 0x0, 0x0, 0x0, 0x0, .none⟩,
  ⟨"HIF_RING_CTL", 0x1d0108, 2, 0x100, 4, 0x20, 0x1f1, 0x0, 0x0, 0x0, 0x0, 0x0, .none⟩,
  ⟨"HIF_RING_IDX", 0x1d0110, 2, 0x100, 4, 0x20, 0x0, 0x0, 0x0, 0x0, 0x0, 0x0, .none⟩,
  ⟨"HIF_IRQ", 0x1d0300, 2, 0x8, 1, 0x0, 0x0, 0xff, 0x0, 0x0, 0x0, 0x0, .none⟩,
  ⟨"HIF_ERR", 0x1d0310, 1, 0x0, 1, 0x0, 0x0, 0x0, 0x7ffff, 0x0, 0x0, 0x0, .none⟩,
  ⟨"HIF_ERR_ADDR", 0x1d0318, 1, 0x0, 1, 0x0, 0x0, 0x0, 0xffffffffffff, 0x0, 0x0, 0x0, .none⟩,
  ⟨"HIF_PCI_ID", 0x1d0320, 1, 0x0, 1, 0x0, 0x0, 0x0, 0x0, 0x0, 0x0, 0x90241f6e, .none⟩]

/-- Registers of block `CLK`. -/
def regsClk : List RegGroup := [
  ⟨"CLK_CFG", 0x1e0000, 12, 0x40, 1, 0x0, 0xff03ffff, 0x0, 0x0, 0x0, 0xff03ffff, 0x0, .idx 0x20⟩,
  ⟨"CLK_STATE", 0x1e0008, 12, 0x40, 1, 0x0, 0x0, 0x0, 0x0, 0x0, 0x0, 0x0, .none⟩,
  ⟨"CLK_ERR", 0x1e0010, 12, 0x40, 1, 0x0, 0x0, 0xf, 0x0, 0x0, 0x0, 0x0, .none⟩,
  ⟨"CLK_FEC", 0x1e0018, 12, 0x40, 1, 0x0, 0x0, 0x0, 0x0, 0x0, 0x0, 0x0, .none⟩,
  ⟨"CLK_EVENT", 0x1e0300, 1, 0x0, 1, 0x0, 0x0, 0x7, 0x0, 0x0, 0x0, 0x0, .none⟩,
  ⟨"CLK_DROP", 0x1e0308, 1, 0x0, 1, 0x0, 0x0, 0x0, 0x0, 0x0, 0x0, 0x0, .none⟩,
  ⟨"CLK_ROUTE", 0x1e1000, 4096, 0x8, 1, 0x0, 0xfff, 0x0, 0x0, 0x0, 0xfff, 0x0, .route⟩,
  ⟨"CLK_LT_CTL", 0x1ea000, 104, 0x20, 1, 0x0, 0x7f, 0x0, 0x0, 0x100, 0x0, 0x0, .none⟩,
  ⟨"CLK_LT_BITS", 0x1ea008, 104, 0x20, 1, 0x0, 0x0, 0x0, 0x0, 0x0, 0x0, 0x0, .none⟩,
  ⟨"CLK_LT_ERRS", 0x1ea010, 104, 0x20, 1, 0x0, 0x0, 0x0, 0x0, 0x0, 0x0, 0x0, .none⟩,
  ⟨"CLK_LT_USER", 0x1ea018, 104, 0x20, 1, 0x0, 0xffffffffffffffff, 0x0, 0x0, 0x0, 0x0, 0x0, .none⟩]

/-- Registers of block `GRT`. -/
def regsGrt : List RegGroup := [
  ⟨"GRT_CFG", 0x1f0000, 1, 0x0, 1, 0x0, 0xff0f, 0x0, 0x0, 0x0, 0xff0f, 0x0, .const 0x2C⟩,
  ⟨"GRT_MIRROR", 0x1f0008, 1, 0x0, 1, 0x0, 0x3fffffffffffff, 0x0, 0x0, 0x0, 0x3fffffffffffff, 0x0, .const 0x2C⟩,
  ⟨"GRT_RETURN", 0x1f0010, 1, 0x0, 1, 0x0, 0x3fffffffffffff, 0x0, 0x0, 0x0, 0x3fffffffffffff, 0x0, .const 0x2C⟩,
  ⟨"GRT_XLIST", 0x1f0018, 1, 0x0, 1, 0x0, 0x3ffffffffffffff, 0x0, 0x0, 0x0, 0x3ffffffffffffff, 0x0, .const 0x2C⟩,
  ⟨"GRT_STATE", 0x1f0020, 1, 0x0, 1, 0x0, 0x0, 0x0, 0x0, 0x0, 0x0, 0x0, .none⟩,
  ⟨"GRT_GEN", 0x1f0028, 1, 0x0, 1, 0x0, 0x0, 0x0, 0x0, 0x0, 0x0, 0x0, .none⟩,
  ⟨"GRT_CTL", 0x1f0030, 1, 0x0, 1, 0x0, 0x0, 0x0, 0x0, 0x3, 0x0, 0x0, .none⟩,
  ⟨"GRT_ERR", 0x1f0038, 1, 0x0, 1, 0x0, 0x0, 0x3f, 0x0, 0x0, 0x0, 0x0, .none⟩,
  ⟨"GRT_FEC", 0x1f0040, 1, 0x0, 1, 0x0, 0x0, 0x0, 0x0, 0x0, 0x0, 0x0, .none⟩]

/-- Registers of block `MGT`. -/
def regsMgt : List RegGroup := [
  ⟨"MGT_STOP_CTL", 0x200000, 1, 0x0, 1, 0x0, 0x0, 0x0, 0x0, 0x3, 0x0, 0x0, .none⟩,
  ⟨"MGT_STOP_CFG", 0x200008, 1, 0x0, 1, 0x0, 0x1, 0x0, 0x0, 0x0, 0x1, 0x0, .const 0x14⟩,
  ⟨"MGT_STOP_STATE", 0x200010, 1, 0x0, 1, 0x0, 0x0, 0x0, 0x0, 0x0, 0x0, 0x0, .none⟩,
  ⟨"MGT_STOP_UNITS", 0x200018, 1, 0x0, 1, 0x0, 0x0, 0x0, 0x0, 0x0, 0x0, 0x0, .none⟩,
  ⟨"MGT_DBG_SEL", 0x200020, 1, 0x0, 1, 0x0, 0x1ffff1fff, 0x0, 0x0, 0x0, 0x0, 0x0, .none⟩,
  ⟨"MGT_DBG_DATA", 0x200028, 1, 0x0, 1, 0x0, 0x0, 0x0, 0x0, 0x0, 0x0, 0x0, .none⟩,
  ⟨"MGT_I3C", 0x200030, 1, 0x0, 1, 0x0, 0x0, 0x0, 0x0, 0x0, 0x0, 0x0, .none⟩,
  ⟨"MGT_ID", 0x200038, 1, 0x0, 1, 0x0, 0x0, 0x0, 0x0, 0x0, 0x0, 0x0, .none⟩,
  ⟨"MGT_UPDATE", 0x200040, 1, 0x0, 1, 0x0, 0x0, 0x0, 0x0, 0x0, 0x0, 0x0, .none⟩,
  ⟨"MGT_REPORT", 0x200048, 1, 0x0, 1, 0x0, 0x0, 0x0, 0x0, 0x0, 0x0, 0x0, .none⟩,
  ⟨"MGT_CKPT_CFG", 0x208000, 1, 0x0, 1, 0x0, 0xffff01ff, 0x0, 0x0, 0x0, 0xffff01ff, 0x0, .const 0x14⟩,
  ⟨"MGT_CKPT_STAGE", 0x208008, 1, 0x0, 1, 0x0, 0x3fffffffffffff, 0x0, 0x0, 0x0, 0x3fffffffffffff, 0x0, .const 0x14⟩,
  ⟨"MGT_CKPT_UNDO", 0x208010, 1, 0x0, 1, 0x0, 0x3fffffffffffff, 0x0, 0x0, 0x0, 0x3fffffffffffff, 0x0, .const 0x14⟩,
  ⟨"MGT_CKPT_PARITY", 0x208018, 1, 0x0, 1, 0x0, 0x1fffffff, 0x0, 0x0, 0x0, 0x1fffffff, 0x0, .const 0x14⟩,
  ⟨"MGT_RLOG", 0x208020, 1, 0x0, 1, 0x0, 0x1fffffffffffff, 0x0, 0x0, 0x0, 0x1fffffffffffff, 0x0, .const 0x14⟩,
  ⟨"MGT_RLOG_IDX", 0x208028, 1, 0x0, 1, 0x0, 0x0, 0x100000000, 0x0, 0x0, 0x0, 0x0, .none⟩,
  ⟨"MGT_CKPT_STATE", 0x208030, 1, 0x0, 1, 0x0, 0x0, 0x0, 0x0, 0x0, 0x0, 0x0, .none⟩,
  ⟨"MGT_CKPT_DONE", 0x208038, 1, 0x0, 1, 0x0, 0x0, 0x0, 0x0, 0x0, 0x0, 0x0, .none⟩,
  ⟨"MGT_RESTORE", 0x208040, 1, 0x0, 1, 0x0, 0x0, 0x0, 0x0, 0x7fffff, 0x0, 0x0, .none⟩,
  ⟨"MGT_RESTORE_ARG", 0x208048, 1, 0x0, 1, 0x0, 0xffffffffffff, 0x0, 0x0, 0x0, 0x0, 0x0, .none⟩,
  ⟨"MGT_RESTORE_STATE", 0x208050, 1, 0x0, 1, 0x0, 0x0, 0x0, 0x0, 0x0, 0x0, 0x0, .none⟩,
  ⟨"MGT_FLASH_ERR", 0x208058, 1, 0x0, 1, 0x0, 0x0, 0x7, 0x0, 0x0, 0x0, 0x0, .none⟩]

/-- Registers of block `CNT`. -/
def regsCnt : List RegGroup := [
  ⟨"CNT_HEARTH", 0x400000, 16, 0x1000, 19, 0x8, 0x0, 0x0, 0x0, 0x0, 0x0, 0x0, .none⟩,
  ⟨"CNT_ME", 0x410000, 16, 0x1000, 64, 0x8, 0x0, 0x0, 0x0, 0x0, 0x0, 0x0, .none⟩,
  ⟨"CNT_MEM", 0x420000, 2, 0x1000, 13, 0x8, 0x0, 0x0, 0x0, 0x0, 0x0, 0x0, .none⟩,
  ⟨"CNT_COD", 0x422000, 10, 0x8, 1, 0x0, 0x0, 0x0, 0x0, 0x0, 0x0, 0x0, .none⟩,
  ⟨"CNT_IO", 0x423000, 15, 0x8, 1, 0x0, 0x0, 0x0, 0x0, 0x0, 0x0, 0x0, .none⟩,
  ⟨"CNT_LINK", 0x424000, 13, 0x80, 11, 0x8, 0x0, 0x0, 0x0, 0x0, 0x0, 0x0, .none⟩]

/-- Registers of block `EMB`. -/
def regsEmb : List RegGroup := [
  ⟨"EMB_CTL", 0x1f00000, 1, 0x0, 1, 0x0, 0x1, 0x0, 0x0, 0x0, 0x0, 0x0, .none⟩,
  ⟨"EMB_LOST", 0x1f00008, 1, 0x0, 1, 0x0, 0x0, 0x0, 0x0, 0x0, 0x0, 0x0, .none⟩,
  ⟨"EMB_HEAD", 0x1f01000, 1024, 0x8, 1, 0x0, 0x0, 0x0, 0x0, 0x0, 0x0, 0x0, .none⟩]

/-- Every register of BAR0 (Table 14-3). -/
def regGroups : List RegGroup :=
  regsDev ++ regsKdl ++ regsDmp ++ regsMxe ++ regsHrt ++ regsAwl ++ regsSawl ++ regsAts ++ regsRow ++ regsSbg ++ regsSti ++ regsBur ++ regsMem ++ regsCxl ++ regsBnk ++ regsCod ++ regsHif ++ regsClk ++ regsGrt ++ regsMgt ++ regsCnt ++ regsEmb

/-- The indices of an offset within a group, if it is one of the group's registers. -/
def RegGroup.find (g : RegGroup) (off : Nat) : Option (Nat × Nat) :=
  if off < g.base then none else
  let d := off - g.base
  let i := if g.s1 = 0 then 0 else min (d / g.s1) (g.n1 - 1)
  let e := d - g.s1 * i
  let j := if g.s2 = 0 then 0 else e / g.s2
  if i < g.n1 ∧ j < g.n2 ∧ g.s1 * i + g.s2 * j = d then some (i, j) else none

/-- The register at a BAR0 offset, with its indices; none where no block defines one (R371). -/
def lookupReg (off : Nat) : Option (RegGroup × Nat × Nat) :=
  regGroups.findSome? fun g => (g.find off).map fun p => (g, p.1, p.2)

/-- The function whose configuration register it is (R45); for `CLK_ROUTE_m` see R405. -/
def RegGroup.funcOf (g : RegGroup) (i : Nat) : Option Nat :=
  match g.func with
  | .none => none
  | .const f => some f
  | .idx f => some (f + i)
  | .bank => some (if i < 16 then i else (i - 16) / 8)
  | .route => none

/-- The registers whose reset value is not zero (the Reset columns). -/
def regResetNonzero : List (Nat × Nat) := [
  (0x0, 0x9024),
  (0x8, 0x2),
  (0x1000, 0x1),
  (0x2008, 0x8980fa0),
  (0x2010, 0x103c9678),
  (0x1d0320, 0x90241f6e),
  (0x48, 0xFFFFFFFFFFFFFFFF),
  (0x50, 0xFFFFFFFFFFFFFFFF)]

/-- What a register holds at reset: the Reset column's value, with the default of an image field where it names one (R11). -/
def regReset (off : Nat) : BitVec 64 :=
  match regResetNonzero.find? (fun p => p.1 == off) with
  | some p => BitVec.ofNat 64 p.2
  | none => 0

def F.DEV_ID_PART : Fld := ⟨0x0, 0, 32⟩
def F.DEV_ID_STEPPING : Fld := ⟨0x0, 32, 8⟩
def F.DEV_STATE_POWER : Fld := ⟨0x8, 0, 3⟩
def F.DEV_STATE_LEAD_PORT : Fld := ⟨0x8, 3, 1⟩
def F.DEV_IDENT_MODULE_ID : Fld := ⟨0x10, 0, 12⟩
def F.DEV_IDENT_TWIN_ID : Fld := ⟨0x10, 16, 12⟩
def F.DEV_IDENT_TWIN_CFG : Fld := ⟨0x10, 28, 1⟩
def F.DEV_IDENT_GROUP_SIZE : Fld := ⟨0x10, 32, 13⟩
def F.DEV_GROUP_GROUP_ID : Fld := ⟨0x18, 0, 32⟩
def F.DEV_GROUP_PARITY_GROUP : Fld := ⟨0x18, 32, 16⟩
def F.DEV_COMMIT_GEN_GEN : Fld := ⟨0x20, 0, 32⟩
def F.DEV_FUNC_CTL_FUNC : Fld := ⟨0x40, 0, 8⟩
def F.DEV_FUNC_CTL_OP : Fld := ⟨0x40, 8, 2⟩
def F.DEV_FUNC_STATE0_STATE (f : Nat) : Fld := ⟨0x48, 0 + 2 * f, 2⟩
def F.DEV_FUNC_STATE1_STATE (g : Nat) : Fld := ⟨0x50, 0 + 2 * g, 2⟩
def F.DEV_CFG_ERR_CODE : Fld := ⟨0x58, 0, 16⟩
def F.DEV_CFG_ERR_FUNC : Fld := ⟨0x58, 16, 8⟩
def F.DEV_CFG_ERR_OFFSET : Fld := ⟨0x58, 24, 32⟩
def F.DEV_CANCEL_TICKET : Fld := ⟨0x60, 0, 48⟩
def F.DEV_CANCEL_RESULT : Fld := ⟨0x60, 48, 2⟩
def F.DEV_CTL_REKINDLE_KEY : Fld := ⟨0x68, 0, 16⟩
def F.DEV_CTL_SLOT_OVR : Fld := ⟨0x68, 16, 1⟩
def F.DEV_CTL_SLOT : Fld := ⟨0x68, 17, 1⟩
def F.KDL_STATUS_STAGE : Fld := ⟨0x1000, 0, 8⟩
def F.KDL_STATUS_FAILED : Fld := ⟨0x1000, 8, 1⟩
def F.KDL_STATUS_SLOT : Fld := ⟨0x1000, 9, 1⟩
def F.KDL_STATUS_FALLBACK : Fld := ⟨0x1000, 10, 1⟩
def F.KDL_STATUS_CODE : Fld := ⟨0x1000, 16, 16⟩
def F.KDL_IMAGE_ROLLBACK : Fld := ⟨0x1008, 0, 32⟩
def F.KDL_IMAGE_KEY_INDEX : Fld := ⟨0x1008, 32, 1⟩
def F.KDL_BUILD_ID : Fld := ⟨0x1010, 0, 64⟩
def F.KDL_FUSE_ROLLBACK_CTR : Fld := ⟨0x1018, 0, 8⟩
def F.KDL_FUSE_KEY0_REVOKED : Fld := ⟨0x1018, 8, 1⟩
def F.KDL_FUSE_KEY1_REVOKED : Fld := ⟨0x1018, 9, 1⟩
def F.KDL_SLOTSEQ_SEQ_A : Fld := ⟨0x1030, 0, 32⟩
def F.KDL_SLOTSEQ_SEQ_B : Fld := ⟨0x1030, 32, 32⟩
def F.KDL_SPARE_PHYS (n : Nat) (b : Nat) : Fld := ⟨0x1020 + 0x8 * n, 0 + 8 * b, 5⟩
def F.KDL_SPARE_RETIRED (n : Nat) (b : Nat) : Fld := ⟨0x1020 + 0x8 * n, 5 + 8 * b, 1⟩
def F.KDL_SPARE_SOURCE (n : Nat) (b : Nat) : Fld := ⟨0x1020 + 0x8 * n, 6 + 8 * b, 1⟩
def F.KDL_SPARE_DEGRADED (n : Nat) (b : Nat) : Fld := ⟨0x1020 + 0x8 * n, 7 + 8 * b, 1⟩
def F.DMP_POLICY_MODE : Fld := ⟨0x2000, 0, 2⟩
def F.DMP_POLICY_STRETCH : Fld := ⟨0x2000, 2, 2⟩
def F.DMP_POLICY_AUTO_GATE : Fld := ⟨0x2000, 4, 1⟩
def F.DMP_POLICY_SHED_COUNT : Fld := ⟨0x2000, 8, 8⟩
def F.DMP_POLICY_STARVE_LIMIT : Fld := ⟨0x2000, 16, 8⟩
def F.DMP_POLICY_RAISE_MARGIN : Fld := ⟨0x2000, 24, 12⟩
def F.DMP_POLICY_V_MIN : Fld := ⟨0x2000, 36, 5⟩
def F.DMP_CEIL_CORE_TOKENS : Fld := ⟨0x2008, 0, 12⟩
def F.DMP_CEIL_INPUT_W : Fld := ⟨0x2008, 16, 12⟩
def F.DMP_RAILS_MEM_W : Fld := ⟨0x2010, 0, 8⟩
def F.DMP_RAILS_IO_W : Fld := ⟨0x2010, 8, 8⟩
def F.DMP_RAILS_COD_W : Fld := ⟨0x2010, 16, 8⟩
def F.DMP_RAILS_GDDR_QW : Fld := ⟨0x2010, 24, 5⟩
def F.DMP_VSET_VSET (n : Nat) (b : Nat) : Fld := ⟨0x2018 + 0x8 * n, 0 + 8 * b, 5⟩
def F.DMP_VNOW_VNOW (n : Nat) (b : Nat) : Fld := ⟨0x2028 + 0x8 * n, 0 + 8 * b, 5⟩
def F.DMP_POOL_HELD : Fld := ⟨0x2038, 0, 13⟩
def F.DMP_POOL_CEIL_NOW : Fld := ⟨0x2038, 13, 13⟩
def F.DMP_POOL_THERM_CEIL : Fld := ⟨0x2038, 26, 13⟩
def F.DMP_POOL_INPUT_DERATE : Fld := ⟨0x2038, 39, 13⟩
def F.DMP_TEMP_TJ (n : Nat) (j : Nat) : Fld := ⟨0x2040 + 0x8 * n, 0 + 16 * j, 16⟩
def F.DMP_RAIL_PWR_MEMA_W : Fld := ⟨0x2060, 0, 8⟩
def F.DMP_RAIL_PWR_MEMB_W : Fld := ⟨0x2060, 8, 8⟩
def F.DMP_RAIL_PWR_IO_W : Fld := ⟨0x2060, 16, 8⟩
def F.DMP_RAIL_PWR_COD_W : Fld := ⟨0x2060, 24, 8⟩
def F.DMP_RAIL_PWR_INPUT_W : Fld := ⟨0x2060, 32, 12⟩
def F.DMP_EVENT_THERM_LIMIT : Fld := ⟨0x2068, 0, 1⟩
def F.DMP_EVENT_OVERDRAW : Fld := ⟨0x2068, 1, 1⟩
def F.DMP_EVENT_INPUT_LIMIT : Fld := ⟨0x2068, 2, 1⟩
def F.DMP_EVENT_RAIL_MEM : Fld := ⟨0x2068, 3, 1⟩
def F.DMP_EVENT_RAIL_IO : Fld := ⟨0x2068, 4, 1⟩
def F.DMP_EVENT_RAIL_COD : Fld := ⟨0x2068, 5, 1⟩
def F.DMP_EVENT_RAIL_GDDR : Fld := ⟨0x2068, 6, 1⟩
def F.DMP_EVENT_SENSOR_FAIL : Fld := ⟨0x2068, 7, 1⟩
def F.DMP_EVENT_TOKEN_WAIT : Fld := ⟨0x2068, 8, 1⟩
def F.DMP_EVENT_SHED : Fld := ⟨0x2068, 9, 1⟩
def F.DMP_RAIL_GRANT_MEMA : Fld := ⟨0x2070, 0, 9⟩
def F.DMP_RAIL_GRANT_MEMB : Fld := ⟨0x2070, 9, 9⟩
def F.DMP_RAIL_GRANT_COD : Fld := ⟨0x2070, 18, 9⟩
def F.DMP_GRANT_HELD (h : Nat) : Fld := ⟨0x2100 + 0x8 * h, 0, 12⟩
def F.DMP_GRANT_RP_SUM (h : Nat) : Fld := ⟨0x2100 + 0x8 * h, 12, 12⟩
def F.DMP_GRANT_PENDING (h : Nat) : Fld := ⟨0x2100 + 0x8 * h, 24, 12⟩
def F.DMP_GRANT_RESERVED (h : Nat) : Fld := ⟨0x2100 + 0x8 * h, 36, 1⟩
def F.MXE_HCFG_SCRUB_EN (h : Nat) : Fld := ⟨0x100000 + 0x1000 * h, 0, 1⟩
def F.MXE_STATE_STATE (h : Nat) (i : Nat) : Fld := ⟨0x100100 + 0x1000 * h + 0x40 * i, 0, 3⟩
def F.MXE_STATE_SHAPE (h : Nat) (i : Nat) : Fld := ⟨0x100100 + 0x1000 * h + 0x40 * i, 3, 2⟩
def F.MXE_STATE_FORMAT (h : Nat) (i : Nat) : Fld := ⟨0x100100 + 0x1000 * h + 0x40 * i, 5, 8⟩
def F.MXE_STATE_PASSES (h : Nat) (i : Nat) : Fld := ⟨0x100100 + 0x1000 * h + 0x40 * i, 13, 2⟩
def F.MXE_STATE_TEST_RESULT (h : Nat) (i : Nat) : Fld := ⟨0x100100 + 0x1000 * h + 0x40 * i, 15, 2⟩
def F.MXE_CMD_SEQ (h : Nat) (i : Nat) : Fld := ⟨0x100108 + 0x1000 * h + 0x40 * i, 0, 32⟩
def F.MXE_CMD_ACTIVE (h : Nat) (i : Nat) : Fld := ⟨0x100108 + 0x1000 * h + 0x40 * i, 32, 1⟩
def F.MXE_SLOTS_SLOT (h : Nat) (i : Nat) (s : Nat) : Fld := ⟨0x100110 + 0x1000 * h + 0x40 * i, 0 + 2 * s, 2⟩
def F.MXE_ERR_ACC_CORR (h : Nat) (i : Nat) : Fld := ⟨0x100118 + 0x1000 * h + 0x40 * i, 0, 1⟩
def F.MXE_ERR_ACC_UNCORR (h : Nat) (i : Nat) : Fld := ⟨0x100118 + 0x1000 * h + 0x40 * i, 1, 1⟩
def F.MXE_ERR_STAT_PARITY (h : Nat) (i : Nat) : Fld := ⟨0x100118 + 0x1000 * h + 0x40 * i, 2, 1⟩
def F.MXE_ERR_FAULTED (h : Nat) (i : Nat) : Fld := ⟨0x100118 + 0x1000 * h + 0x40 * i, 3, 1⟩
def F.MXE_ERR_CORR_COUNT (h : Nat) (i : Nat) : Fld := ⟨0x100118 + 0x1000 * h + 0x40 * i, 16, 16⟩
def F.MXE_CTL_TEST (h : Nat) (i : Nat) : Fld := ⟨0x100120 + 0x1000 * h + 0x40 * i, 0, 1⟩
def F.MXE_MAP_PHYS (h : Nat) (i : Nat) : Fld := ⟨0x100128 + 0x1000 * h + 0x40 * i, 0, 5⟩
def F.HRT_STAGE_L1_OFFSET_4K (h : Nat) : Fld := ⟨0x110000 + 0x1000 * h, 0, 12⟩
def F.HRT_STAGE_L1_SIZE_4K (h : Nat) : Fld := ⟨0x110000 + 0x1000 * h, 16, 13⟩
def F.HRT_STAGE_L2_SBANK (h : Nat) : Fld := ⟨0x110008 + 0x1000 * h, 0, 4⟩
def F.HRT_STAGE_L2_OFFSET_4K (h : Nat) : Fld := ⟨0x110008 + 0x1000 * h, 16, 11⟩
def F.HRT_STAGE_L2_SIZE_4K (h : Nat) : Fld := ⟨0x110008 + 0x1000 * h, 32, 12⟩
def F.HRT_STAGE_L3_BASE_64K (h : Nat) : Fld := ⟨0x110010 + 0x1000 * h, 0, 32⟩
def F.HRT_STAGE_L3_SIZE_64K (h : Nat) : Fld := ⟨0x110010 + 0x1000 * h, 32, 16⟩
def F.HRT_DISP_INFLIGHT (h : Nat) : Fld := ⟨0x110018 + 0x1000 * h, 0, 9⟩
def F.HRT_DISP_SEQ_NEXT (h : Nat) : Fld := ⟨0x110018 + 0x1000 * h, 16, 32⟩
def F.HRT_DISP_TOKEN_PENDING (h : Nat) : Fld := ⟨0x110018 + 0x1000 * h, 48, 1⟩
def F.HRT_QOCC_OCC (h : Nat) (n : Nat) (j : Nat) : Fld := ⟨0x110040 + 0x1000 * h + 0x8 * n, 0 + 8 * j, 5⟩
def F.HRT_QOCC_HELD (h : Nat) (n : Nat) (j : Nat) : Fld := ⟨0x110040 + 0x1000 * h + 0x8 * n, 7 + 8 * j, 1⟩
def F.AWL_HCFG_SCRUB_EN (h : Nat) : Fld := ⟨0x120000 + 0x1000 * h, 0, 1⟩
def F.AWL_STATE_STATE (h : Nat) (c : Nat) : Fld := ⟨0x120100 + 0x1000 * h + 0x40 * c, 0, 3⟩
def F.AWL_STATE_LEAN (h : Nat) (c : Nat) : Fld := ⟨0x120100 + 0x1000 * h + 0x40 * c, 3, 1⟩
def F.AWL_STATE_TOKEN_HELD (h : Nat) (c : Nat) : Fld := ⟨0x120100 + 0x1000 * h + 0x40 * c, 4, 1⟩
def F.AWL_STATE_PC (h : Nat) (c : Nat) : Fld := ⟨0x120100 + 0x1000 * h + 0x40 * c, 16, 18⟩
def F.SAWL_STATE_STATE (c : Nat) : Fld := ⟨0x130100 + 0x40 * c, 0, 3⟩
def F.SAWL_STATE_LEAN (c : Nat) : Fld := ⟨0x130100 + 0x40 * c, 3, 1⟩
def F.SAWL_STATE_TOKEN_HELD (c : Nat) : Fld := ⟨0x130100 + 0x40 * c, 4, 1⟩
def F.SAWL_STATE_PC (c : Nat) : Fld := ⟨0x130100 + 0x40 * c, 16, 18⟩
def F.AWL_CMD_SEQ (h : Nat) (c : Nat) : Fld := ⟨0x120108 + 0x1000 * h + 0x40 * c, 0, 32⟩
def F.AWL_CMD_ACTIVE (h : Nat) (c : Nat) : Fld := ⟨0x120108 + 0x1000 * h + 0x40 * c, 32, 1⟩
def F.SAWL_CMD_SEQ (c : Nat) : Fld := ⟨0x130108 + 0x40 * c, 0, 32⟩
def F.SAWL_CMD_ACTIVE (c : Nat) : Fld := ⟨0x130108 + 0x40 * c, 32, 1⟩
def F.AWL_FAULT_CODE (h : Nat) (c : Nat) : Fld := ⟨0x120110 + 0x1000 * h + 0x40 * c, 0, 16⟩
def F.AWL_FAULT_PC (h : Nat) (c : Nat) : Fld := ⟨0x120110 + 0x1000 * h + 0x40 * c, 16, 18⟩
def F.AWL_FAULT_INFO (h : Nat) (c : Nat) : Fld := ⟨0x120110 + 0x1000 * h + 0x40 * c, 48, 16⟩
def F.SAWL_FAULT_CODE (c : Nat) : Fld := ⟨0x130110 + 0x40 * c, 0, 16⟩
def F.SAWL_FAULT_PC (c : Nat) : Fld := ⟨0x130110 + 0x40 * c, 16, 18⟩
def F.SAWL_FAULT_INFO (c : Nat) : Fld := ⟨0x130110 + 0x40 * c, 48, 16⟩
def F.AWL_FAULT_INSN_INSN (h : Nat) (c : Nat) : Fld := ⟨0x120118 + 0x1000 * h + 0x40 * c, 0, 32⟩
def F.SAWL_FAULT_INSN_INSN (c : Nat) : Fld := ⟨0x130118 + 0x40 * c, 0, 32⟩
def F.AWL_ERR_LS_CORR (h : Nat) (c : Nat) : Fld := ⟨0x120120 + 0x1000 * h + 0x40 * c, 0, 1⟩
def F.AWL_ERR_LS_UNCORR (h : Nat) (c : Nat) : Fld := ⟨0x120120 + 0x1000 * h + 0x40 * c, 1, 1⟩
def F.AWL_ERR_CORR_COUNT (h : Nat) (c : Nat) : Fld := ⟨0x120120 + 0x1000 * h + 0x40 * c, 16, 16⟩
def F.SAWL_ERR_LS_CORR (c : Nat) : Fld := ⟨0x130120 + 0x40 * c, 0, 1⟩
def F.SAWL_ERR_LS_UNCORR (c : Nat) : Fld := ⟨0x130120 + 0x40 * c, 1, 1⟩
def F.SAWL_ERR_CORR_COUNT (c : Nat) : Fld := ⟨0x130120 + 0x40 * c, 16, 16⟩
def F.AWL_RESIDENT_ADDR_64 (h : Nat) (c : Nat) : Fld := ⟨0x120128 + 0x1000 * h + 0x40 * c, 0, 42⟩
def F.AWL_RESIDENT_LEN (h : Nat) (c : Nat) : Fld := ⟨0x120128 + 0x1000 * h + 0x40 * c, 42, 19⟩
def F.AWL_RESIDENT_VALID (h : Nat) (c : Nat) : Fld := ⟨0x120128 + 0x1000 * h + 0x40 * c, 61, 1⟩
def F.SAWL_RESIDENT_ADDR_64 (c : Nat) : Fld := ⟨0x130128 + 0x40 * c, 0, 42⟩
def F.SAWL_RESIDENT_LEN (c : Nat) : Fld := ⟨0x130128 + 0x40 * c, 42, 19⟩
def F.SAWL_RESIDENT_VALID (c : Nat) : Fld := ⟨0x130128 + 0x40 * c, 61, 1⟩
def F.AWL_ICOUNT_COUNT (h : Nat) (c : Nat) : Fld := ⟨0x120130 + 0x1000 * h + 0x40 * c, 0, 48⟩
def F.SAWL_ICOUNT_COUNT (c : Nat) : Fld := ⟨0x130130 + 0x40 * c, 0, 48⟩
def F.ATS_CFG_PREEMPT_MAX (h : Nat) : Fld := ⟨0x140000 + 0x1000 * h, 0, 8⟩
def F.ATS_STATE_STATE (h : Nat) : Fld := ⟨0x140008 + 0x1000 * h, 0, 3⟩
def F.ATS_CMD_SEQ (h : Nat) : Fld := ⟨0x140010 + 0x1000 * h, 0, 32⟩
def F.ATS_CMD_ACTIVE (h : Nat) : Fld := ⟨0x140010 + 0x1000 * h, 32, 1⟩
def F.ATS_KV_CACHE_128 (h : Nat) : Fld := ⟨0x140018 + 0x1000 * h, 0, 41⟩
def F.ATS_KV_LATCHED (h : Nat) : Fld := ⟨0x140018 + 0x1000 * h, 41, 1⟩
def F.ATS_KV_WALKING (h : Nat) : Fld := ⟨0x140018 + 0x1000 * h, 42, 1⟩
def F.ATS_PREEMPT_LAST_SEQ (h : Nat) : Fld := ⟨0x140020 + 0x1000 * h, 0, 12⟩
def F.ATS_PREEMPT_PREEMPTS (h : Nat) : Fld := ⟨0x140020 + 0x1000 * h, 16, 16⟩
def F.ATS_PREEMPT_RESUMES (h : Nat) : Fld := ⟨0x140020 + 0x1000 * h, 32, 16⟩
def F.ATS_PREEMPT_WAITS (h : Nat) : Fld := ⟨0x140020 + 0x1000 * h, 48, 16⟩
def F.ROW_CFG_SCRUB_EN (h : Nat) : Fld := ⟨0x150000 + 0x1000 * h, 0, 1⟩
def F.ROW_STATE_STATE (h : Nat) : Fld := ⟨0x150008 + 0x1000 * h, 0, 3⟩
def F.ROW_STATE_OP (h : Nat) : Fld := ⟨0x150008 + 0x1000 * h, 3, 2⟩
def F.ROW_CMD_SEQ (h : Nat) : Fld := ⟨0x150010 + 0x1000 * h, 0, 32⟩
def F.ROW_CMD_ACTIVE (h : Nat) : Fld := ⟨0x150010 + 0x1000 * h, 32, 1⟩
def F.ROW_STATS_USED (h : Nat) : Fld := ⟨0x150018 + 0x1000 * h, 0, 18⟩
def F.ROW_STATS_TAGS (h : Nat) : Fld := ⟨0x150018 + 0x1000 * h, 32, 16⟩
def F.ROW_ERR_CORR (h : Nat) : Fld := ⟨0x150020 + 0x1000 * h, 0, 1⟩
def F.ROW_ERR_UNCORR (h : Nat) : Fld := ⟨0x150020 + 0x1000 * h, 1, 1⟩
def F.ROW_ERR_CORR_COUNT (h : Nat) : Fld := ⟨0x150020 + 0x1000 * h, 16, 16⟩
def F.SBG_CFG_DIR_1K : Fld := ⟨0x160000, 0, 12⟩
def F.SBG_NEAR_BASE_64K : Fld := ⟨0x160008, 0, 32⟩
def F.SBG_NEAR_SIZE_64K : Fld := ⟨0x160008, 32, 22⟩
def F.SBG_FAR_BASE_64K (n : Nat) : Fld := ⟨0x160010 + 0x8 * n, 0, 36⟩
def F.SBG_FAR_SIZE_64K (n : Nat) : Fld := ⟨0x160010 + 0x8 * n, 36, 24⟩
def F.SBG_PQ_PROGRAM_ID (n : Nat) : Fld := ⟨0x160040 + 0x8 * n, 0, 16⟩
def F.SBG_PQ_NEAR_MIB (n : Nat) : Fld := ⟨0x160040 + 0x8 * n, 16, 18⟩
def F.SBG_PQ_FAR_MIB (n : Nat) : Fld := ⟨0x160040 + 0x8 * n, 34, 23⟩
def F.SBG_PQ_ELIG_FAR (n : Nat) : Fld := ⟨0x160040 + 0x8 * n, 57, 1⟩
def F.SBG_PUSE_NEAR_PAGES (n : Nat) : Fld := ⟨0x1600c0 + 0x8 * n, 0, 22⟩
def F.SBG_PUSE_FAR_PAGES (n : Nat) : Fld := ⟨0x1600c0 + 0x8 * n, 22, 26⟩
def F.SBG_STATE_WAITING : Fld := ⟨0x160140, 0, 16⟩
def F.SBG_STATE_DIR_USED : Fld := ⟨0x160140, 16, 32⟩
def F.SBG_EVENT_SPILL : Fld := ⟨0x160148, 0, 1⟩
def F.SBG_EVENT_DROP : Fld := ⟨0x160148, 1, 1⟩
def F.SBG_EVENT_WAIT : Fld := ⟨0x160148, 2, 1⟩
def F.SBG_EVENT_DEADLOCK : Fld := ⟨0x160148, 3, 1⟩
def F.SBG_EVENT_ORPHAN : Fld := ⟨0x160148, 4, 1⟩
def F.SBG_EVENT_RECOMPUTE : Fld := ⟨0x160148, 5, 1⟩
def F.SBG_EVENT_STAT_SPILL : Fld := ⟨0x160148, 6, 1⟩
def F.SBG_LAST_DEADLOCK_TICKET : Fld := ⟨0x160150, 0, 48⟩
def F.SBG_LAST_DEADLOCK_STASH_ID : Fld := ⟨0x160150, 48, 16⟩
def F.SBG_RSPILL_OFFSET_4K (h : Nat) : Fld := ⟨0x160200 + 0x8 * h, 0, 12⟩
def F.SBG_RSPILL_SIZE_4K (h : Nat) : Fld := ⟨0x160200 + 0x8 * h, 16, 13⟩
def F.STI_CFG_CREDIT_KIB : Fld := ⟨0x170000, 0, 8⟩
def F.STI_DLOG_BASE_64 : Fld := ⟨0x170008, 0, 42⟩
def F.STI_DLOG_ENTRIES : Fld := ⟨0x170008, 42, 16⟩
def F.STI_STATE_ACTIVE : Fld := ⟨0x170010, 0, 12⟩
def F.STI_STATE_LANDA_KIB : Fld := ⟨0x170010, 16, 14⟩
def F.STI_STATE_LANDB_KIB : Fld := ⟨0x170010, 32, 14⟩
def F.STI_LAST_COLL_ID : Fld := ⟨0x170018, 0, 32⟩
def F.STI_LAST_STEP : Fld := ⟨0x170018, 32, 32⟩
def F.STI_DSENT_SENT : Fld := ⟨0x170020, 0, 64⟩
def F.STI_DRECV_RECV : Fld := ⟨0x170028, 0, 64⟩
def F.STI_EVENT_COLL_MISMATCH : Fld := ⟨0x170030, 0, 1⟩
def F.STI_EVENT_DIGEST_MISMATCH : Fld := ⟨0x170030, 1, 1⟩
def F.STI_EVENT_CREDIT_WAIT : Fld := ⟨0x170030, 2, 1⟩
def F.STI_EVENT_LAND_CORR : Fld := ⟨0x170030, 3, 1⟩
def F.STI_EVENT_LAND_UNCORR : Fld := ⟨0x170030, 4, 1⟩
def F.STI_ERR_CORR_COUNT : Fld := ⟨0x170038, 16, 16⟩
def F.BUR_PDIR_BASE_64 : Fld := ⟨0x180000, 0, 42⟩
def F.BUR_PDIR_COUNT : Fld := ⟨0x180000, 42, 16⟩
def F.BUR_STATE_ACTIVE : Fld := ⟨0x180008, 0, 8⟩
def F.BUR_STATE_HOLD_WAITING : Fld := ⟨0x180008, 8, 8⟩
def F.BUR_LAST_RECORD_256 : Fld := ⟨0x180010, 0, 40⟩
def F.BUR_LAST_SLOT : Fld := ⟨0x180010, 40, 1⟩
def F.BUR_LASTSTEP_STEP : Fld := ⟨0x180018, 0, 32⟩
def F.BUR_EVENT_HOLD_WAIT : Fld := ⟨0x180020, 0, 1⟩
def F.BUR_EVENT_NONFINITE : Fld := ⟨0x180020, 1, 1⟩
def F.BUR_EVENT_SCALE_OVF : Fld := ⟨0x180020, 2, 1⟩
def F.BUR_EVENT_HOLD_OVERFLOW : Fld := ⟨0x180020, 3, 1⟩
def F.MEM_CFG_ECC_MODE (d : Nat) : Fld := ⟨0x190000 + 0x8 * d, 0, 2⟩
def F.MEM_CFG_SCRUB_EN (d : Nat) : Fld := ⟨0x190000 + 0x8 * d, 2, 1⟩
def F.MEM_CFG_SCRUB_REF (d : Nat) : Fld := ⟨0x190000 + 0x8 * d, 8, 8⟩
def F.MEM_CFG_RETRY_MAX (d : Nat) : Fld := ⟨0x190000 + 0x8 * d, 16, 4⟩
def F.MEM_RO_PAGES_COUNT : Fld := ⟨0x190010, 0, 22⟩
def F.MEM_STATE_STATE (c : Nat) : Fld := ⟨0x190100 + 0x40 * c, 0, 2⟩
def F.MEM_ERR_CORR (c : Nat) : Fld := ⟨0x190108 + 0x40 * c, 0, 1⟩
def F.MEM_ERR_UNCORR (c : Nat) : Fld := ⟨0x190108 + 0x40 * c, 1, 1⟩
def F.MEM_ERR_SCRUB_POISON (c : Nat) : Fld := ⟨0x190108 + 0x40 * c, 2, 1⟩
def F.MEM_ERR_RETRY (c : Nat) : Fld := ⟨0x190108 + 0x40 * c, 3, 1⟩
def F.MEM_ERR_CORR_COUNT (c : Nat) : Fld := ⟨0x190108 + 0x40 * c, 16, 16⟩
def F.MEM_ERR_UNCORR_COUNT (c : Nat) : Fld := ⟨0x190108 + 0x40 * c, 32, 16⟩
def F.MEM_ERR_RETRY_COUNT (c : Nat) : Fld := ⟨0x190108 + 0x40 * c, 48, 16⟩
def F.MEM_ERR_ADDR_ADDR (c : Nat) : Fld := ⟨0x190110 + 0x40 * c, 0, 48⟩
def F.MEM_ERR_ADDR_KIND (c : Nat) : Fld := ⟨0x190110 + 0x40 * c, 48, 2⟩
def F.MEM_SCRUB_NEXT_GROUP (c : Nat) : Fld := ⟨0x190118 + 0x40 * c, 0, 23⟩
def F.MEM_SCRUB_PASSES (c : Nat) : Fld := ⟨0x190118 + 0x40 * c, 32, 16⟩
def F.CXL_CFG_ENABLE (n : Nat) : Fld := ⟨0x1a0000 + 0x100 * n, 0, 1⟩
def F.CXL_CFG_ALLOW_X4 (n : Nat) : Fld := ⟨0x1a0000 + 0x100 * n, 1, 1⟩
def F.CXL_CFG_ALLOW_32GT (n : Nat) : Fld := ⟨0x1a0000 + 0x100 * n, 2, 1⟩
def F.CXL_STATE_STATE (n : Nat) : Fld := ⟨0x1a0008 + 0x100 * n, 0, 2⟩
def F.CXL_STATE_WIDTH (n : Nat) : Fld := ⟨0x1a0008 + 0x100 * n, 2, 4⟩
def F.CXL_STATE_RATE (n : Nat) : Fld := ⟨0x1a0008 + 0x100 * n, 6, 1⟩
def F.CXL_STATE_CODE (n : Nat) : Fld := ⟨0x1a0008 + 0x100 * n, 16, 16⟩
def F.CXL_ID_CAP_256M (n : Nat) : Fld := ⟨0x1a0010 + 0x100 * n, 0, 13⟩
def F.CXL_ID_VENDOR_ID (n : Nat) : Fld := ⟨0x1a0010 + 0x100 * n, 16, 16⟩
def F.CXL_ID_DEVICE_ID (n : Nat) : Fld := ⟨0x1a0010 + 0x100 * n, 32, 16⟩
def F.CXL_ERR_POISON (n : Nat) : Fld := ⟨0x1a0018 + 0x100 * n, 0, 1⟩
def F.CXL_ERR_LINK_DOWN (n : Nat) : Fld := ⟨0x1a0018 + 0x100 * n, 1, 1⟩
def F.CXL_ERR_POISON_COUNT (n : Nat) : Fld := ⟨0x1a0018 + 0x100 * n, 16, 16⟩
def F.CXL_ERR_ADDR_ADDR (n : Nat) : Fld := ⟨0x1a0020 + 0x100 * n, 0, 48⟩
def F.BNK_HANDOVER_BANK : Fld := ⟨0x1b0000, 0, 8⟩
def F.BNK_HANDOVER_OWNER : Fld := ⟨0x1b0000, 8, 8⟩
def F.BNK_EVENT_OWNER_FAULT : Fld := ⟨0x1b0008, 0, 1⟩
def F.BNK_EVENT_REFUSED : Fld := ⟨0x1b0008, 1, 1⟩
def F.BNK_FAULT_BANK : Fld := ⟨0x1b0010, 0, 8⟩
def F.BNK_FAULT_INITIATOR : Fld := ⟨0x1b0010, 8, 8⟩
def F.BNK_FAULT_WRITE : Fld := ⟨0x1b0010, 16, 1⟩
def F.BNK_FAULT_ADDR_ADDR : Fld := ⟨0x1b0018, 0, 48⟩
def F.BNK_OWNER_OWNER (n : Nat) : Fld := ⟨0x1b0100 + 0x8 * n, 0, 8⟩
def F.BNK_OWNER_CLEARING (n : Nat) : Fld := ⟨0x1b0100 + 0x8 * n, 8, 1⟩
def F.BNK_OWNER_OFF (n : Nat) : Fld := ⟨0x1b0100 + 0x8 * n, 9, 1⟩
def F.BNK_INIT_OWNER (n : Nat) : Fld := ⟨0x1b0600 + 0x8 * n, 0, 8⟩
def F.COD_CFG_SCRUB_EN : Fld := ⟨0x1c0000, 0, 1⟩
def F.COD_CFG_LANES : Fld := ⟨0x1c0000, 8, 8⟩
def F.COD_STATE_QUEUED : Fld := ⟨0x1c0008, 0, 8⟩
def F.COD_STATE_ACTIVE : Fld := ⟨0x1c0008, 8, 8⟩
def F.COD_STATE_INGEST_BUSY : Fld := ⟨0x1c0008, 16, 1⟩
def F.COD_EVENT_DAMAGE : Fld := ⟨0x1c0010, 0, 1⟩
def F.COD_EVENT_DROPPED : Fld := ⟨0x1c0010, 1, 1⟩
def F.COD_EVENT_SHORT : Fld := ⟨0x1c0010, 2, 1⟩
def F.COD_EVENT_UNSUPPORTED : Fld := ⟨0x1c0010, 3, 1⟩
def F.COD_EVENT_OUT_FULL : Fld := ⟨0x1c0010, 4, 1⟩
def F.COD_EVENT_SBUF_CORR : Fld := ⟨0x1c0010, 5, 1⟩
def F.COD_EVENT_SBUF_UNCORR : Fld := ⟨0x1c0010, 6, 1⟩
def F.COD_ERR_CORR_COUNT : Fld := ⟨0x1c0018, 16, 16⟩
def F.COD_LANE_STATE (n : Nat) : Fld := ⟨0x1c0100 + 0x8 * n, 0, 3⟩
def F.COD_LANE_STANDARD (n : Nat) : Fld := ⟨0x1c0100 + 0x8 * n, 4, 3⟩
def F.COD_LANE_HEARTH (n : Nat) : Fld := ⟨0x1c0100 + 0x8 * n, 8, 4⟩
def F.COD_LANE_SEQ (n : Nat) : Fld := ⟨0x1c0100 + 0x8 * n, 16, 32⟩
def F.HIF_CFG_ALLOW_X4 (p : Nat) : Fld := ⟨0x1d0000 + 0x8 * p, 0, 1⟩
def F.HIF_CFG_ALLOW_32GT (p : Nat) : Fld := ⟨0x1d0000 + 0x8 * p, 1, 1⟩
def F.HIF_PORT_STATE (p : Nat) : Fld := ⟨0x1d0010 + 0x8 * p, 0, 2⟩
def F.HIF_PORT_WIDTH (p : Nat) : Fld := ⟨0x1d0010 + 0x8 * p, 2, 4⟩
def F.HIF_PORT_RATE (p : Nat) : Fld := ⟨0x1d0010 + 0x8 * p, 6, 1⟩
def F.HIF_PORT_BME (p : Nat) : Fld := ⟨0x1d0010 + 0x8 * p, 7, 1⟩
def F.HIF_PORT_DRIVER_READY (p : Nat) : Fld := ⟨0x1d0010 + 0x8 * p, 8, 1⟩
def F.HIF_LEAD_OP : Fld := ⟨0x1d0020, 0, 2⟩
def F.HIF_LEAD_LEAD_PORT : Fld := ⟨0x1d0020, 2, 1⟩
def F.HIF_LEAD_REFUSED : Fld := ⟨0x1d0020, 3, 1⟩
def F.HIF_LEAD_CHANGES : Fld := ⟨0x1d0020, 32, 16⟩
def F.HIF_RING_BASE_BASE (p : Nat) (r : Nat) : Fld := ⟨0x1d0100 + 0x100 * p + 0x20 * r, 0, 48⟩
def F.HIF_RING_CTL_ENABLE (p : Nat) (r : Nat) : Fld := ⟨0x1d0108 + 0x100 * p + 0x20 * r, 0, 1⟩
def F.HIF_RING_CTL_SIZE_LOG2 (p : Nat) (r : Nat) : Fld := ⟨0x1d0108 + 0x100 * p + 0x20 * r, 4, 5⟩
def F.HIF_RING_IDX_HEAD (p : Nat) (r : Nat) : Fld := ⟨0x1d0110 + 0x100 * p + 0x20 * r, 0, 32⟩
def F.HIF_RING_IDX_TAIL (p : Nat) (r : Nat) : Fld := ⟨0x1d0110 + 0x100 * p + 0x20 * r, 32, 32⟩
def F.HIF_IRQ_PEND (p : Nat) : Fld := ⟨0x1d0300 + 0x8 * p, 0, 8⟩
def F.HIF_ERR_CODE : Fld := ⟨0x1d0310, 0, 16⟩
def F.HIF_ERR_PORT : Fld := ⟨0x1d0310, 16, 1⟩
def F.HIF_ERR_RING : Fld := ⟨0x1d0310, 17, 2⟩
def F.HIF_ERR_ADDR_ADDR : Fld := ⟨0x1d0318, 0, 48⟩
def F.HIF_PCI_ID_VENDOR : Fld := ⟨0x1d0320, 0, 16⟩
def F.HIF_PCI_ID_DEVICE : Fld := ⟨0x1d0320, 16, 16⟩
def F.CLK_CFG_PEER (l : Nat) : Fld := ⟨0x1e0000 + 0x40 * l, 0, 12⟩
def F.CLK_CFG_PEER_LINK (l : Nat) : Fld := ⟨0x1e0000 + 0x40 * l, 12, 4⟩
def F.CLK_CFG_ENABLE (l : Nat) : Fld := ⟨0x1e0000 + 0x40 * l, 16, 1⟩
def F.CLK_CFG_ALLOW_X2 (l : Nat) : Fld := ⟨0x1e0000 + 0x40 * l, 17, 1⟩
def F.CLK_CFG_REPLAY_MAX (l : Nat) : Fld := ⟨0x1e0000 + 0x40 * l, 24, 4⟩
def F.CLK_CFG_RETRAIN_MAX (l : Nat) : Fld := ⟨0x1e0000 + 0x40 * l, 28, 4⟩
def F.CLK_STATE_STATE (l : Nat) : Fld := ⟨0x1e0008 + 0x40 * l, 0, 3⟩
def F.CLK_STATE_WIDTH (l : Nat) : Fld := ⟨0x1e0008 + 0x40 * l, 3, 3⟩
def F.CLK_STATE_LANES_OK (l : Nat) : Fld := ⟨0x1e0008 + 0x40 * l, 6, 4⟩
def F.CLK_STATE_CODE (l : Nat) : Fld := ⟨0x1e0008 + 0x40 * l, 16, 16⟩
def F.CLK_STATE_PEER_SEEN (l : Nat) : Fld := ⟨0x1e0008 + 0x40 * l, 32, 12⟩
def F.CLK_STATE_LINK_SEEN (l : Nat) : Fld := ⟨0x1e0008 + 0x40 * l, 44, 4⟩
def F.CLK_ERR_REPLAY (l : Nat) : Fld := ⟨0x1e0010 + 0x40 * l, 0, 1⟩
def F.CLK_ERR_RETRAIN (l : Nat) : Fld := ⟨0x1e0010 + 0x40 * l, 1, 1⟩
def F.CLK_ERR_DOWN (l : Nat) : Fld := ⟨0x1e0010 + 0x40 * l, 2, 1⟩
def F.CLK_ERR_DEGRADED (l : Nat) : Fld := ⟨0x1e0010 + 0x40 * l, 3, 1⟩
def F.CLK_ERR_REPLAY_COUNT (l : Nat) : Fld := ⟨0x1e0010 + 0x40 * l, 16, 16⟩
def F.CLK_ERR_RETRAIN_COUNT (l : Nat) : Fld := ⟨0x1e0010 + 0x40 * l, 32, 16⟩
def F.CLK_FEC_CORR_CW (l : Nat) : Fld := ⟨0x1e0018 + 0x40 * l, 0, 32⟩
def F.CLK_FEC_UNCORR_CW (l : Nat) : Fld := ⟨0x1e0018 + 0x40 * l, 32, 32⟩
def F.CLK_EVENT_ROUTE : Fld := ⟨0x1e0300, 0, 1⟩
def F.CLK_EVENT_HOP : Fld := ⟨0x1e0300, 1, 1⟩
def F.CLK_EVENT_PEER : Fld := ⟨0x1e0300, 2, 1⟩
def F.CLK_DROP_ROUTE_COUNT : Fld := ⟨0x1e0308, 0, 16⟩
def F.CLK_DROP_HOP_COUNT : Fld := ⟨0x1e0308, 16, 16⟩
def F.CLK_ROUTE_LINKS (m : Nat) : Fld := ⟨0x1e1000 + 0x8 * m, 0, 12⟩
def F.CLK_LT_CTL_GEN (n : Nat) : Fld := ⟨0x1ea000 + 0x20 * n, 0, 3⟩
def F.CLK_LT_CTL_CHK (n : Nat) : Fld := ⟨0x1ea000 + 0x20 * n, 3, 3⟩
def F.CLK_LT_CTL_LOOP (n : Nat) : Fld := ⟨0x1ea000 + 0x20 * n, 6, 1⟩
def F.CLK_LT_CTL_LOCK (n : Nat) : Fld := ⟨0x1ea000 + 0x20 * n, 7, 1⟩
def F.CLK_LT_CTL_CLEAR (n : Nat) : Fld := ⟨0x1ea000 + 0x20 * n, 8, 1⟩
def F.CLK_LT_BITS_BITS_64K (n : Nat) : Fld := ⟨0x1ea008 + 0x20 * n, 0, 48⟩
def F.CLK_LT_ERRS_ERRORS (n : Nat) : Fld := ⟨0x1ea010 + 0x20 * n, 0, 48⟩
def F.CLK_LT_USER_PATTERN (n : Nat) : Fld := ⟨0x1ea018 + 0x20 * n, 0, 64⟩
def F.GRT_CFG_ENABLE : Fld := ⟨0x1f0000, 0, 1⟩
def F.GRT_CFG_ALLOW_X4 : Fld := ⟨0x1f0000, 1, 1⟩
def F.GRT_CFG_SOLO : Fld := ⟨0x1f0000, 2, 1⟩
def F.GRT_CFG_MIRROR_EN : Fld := ⟨0x1f0000, 3, 1⟩
def F.GRT_CFG_REPLAY_MAX : Fld := ⟨0x1f0000, 8, 4⟩
def F.GRT_CFG_RETRAIN_MAX : Fld := ⟨0x1f0000, 12, 4⟩
def F.GRT_MIRROR_BASE_64K : Fld := ⟨0x1f0008, 0, 32⟩
def F.GRT_MIRROR_SIZE_64K : Fld := ⟨0x1f0008, 32, 22⟩
def F.GRT_RETURN_BASE_64K : Fld := ⟨0x1f0010, 0, 32⟩
def F.GRT_RETURN_SIZE_64K : Fld := ⟨0x1f0010, 32, 22⟩
def F.GRT_XLIST_BASE_64 : Fld := ⟨0x1f0018, 0, 42⟩
def F.GRT_XLIST_COUNT : Fld := ⟨0x1f0018, 42, 16⟩
def F.GRT_STATE_STATE : Fld := ⟨0x1f0020, 0, 3⟩
def F.GRT_STATE_WIDTH : Fld := ⟨0x1f0020, 3, 4⟩
def F.GRT_STATE_TWIN_PRESENT : Fld := ⟨0x1f0020, 7, 1⟩
def F.GRT_STATE_MIRROR : Fld := ⟨0x1f0020, 8, 2⟩
def F.GRT_STATE_RECEIVING : Fld := ⟨0x1f0020, 10, 1⟩
def F.GRT_STATE_CODE : Fld := ⟨0x1f0020, 16, 16⟩
def F.GRT_STATE_PEER_SEEN : Fld := ⟨0x1f0020, 32, 12⟩
def F.GRT_GEN_ACKED : Fld := ⟨0x1f0028, 0, 32⟩
def F.GRT_GEN_HELD : Fld := ⟨0x1f0028, 32, 32⟩
def F.GRT_CTL_OP : Fld := ⟨0x1f0030, 0, 2⟩
def F.GRT_CTL_RESULT : Fld := ⟨0x1f0030, 2, 2⟩
def F.GRT_ERR_REPLAY : Fld := ⟨0x1f0038, 0, 1⟩
def F.GRT_ERR_RETRAIN : Fld := ⟨0x1f0038, 1, 1⟩
def F.GRT_ERR_DOWN : Fld := ⟨0x1f0038, 2, 1⟩
def F.GRT_ERR_DEGRADED : Fld := ⟨0x1f0038, 3, 1⟩
def F.GRT_ERR_MIRROR_FAIL : Fld := ⟨0x1f0038, 4, 1⟩
def F.GRT_ERR_MIRROR_NAK : Fld := ⟨0x1f0038, 5, 1⟩
def F.GRT_ERR_REPLAY_COUNT : Fld := ⟨0x1f0038, 16, 16⟩
def F.GRT_ERR_RETRAIN_COUNT : Fld := ⟨0x1f0038, 32, 16⟩
def F.GRT_FEC_CORR_CW : Fld := ⟨0x1f0040, 0, 32⟩
def F.GRT_FEC_UNCORR_CW : Fld := ⟨0x1f0040, 32, 32⟩
def F.MGT_STOP_CTL_OP : Fld := ⟨0x200000, 0, 2⟩
def F.MGT_STOP_CFG_FOLLOW : Fld := ⟨0x200008, 0, 1⟩
def F.MGT_STOP_STATE_STATE : Fld := ⟨0x200010, 0, 2⟩
def F.MGT_STOP_STATE_SOURCE : Fld := ⟨0x200010, 2, 2⟩
def F.MGT_STOP_STATE_ORIGIN : Fld := ⟨0x200010, 16, 12⟩
def F.MGT_STOP_STATE_STOP_ID : Fld := ⟨0x200010, 32, 32⟩
def F.MGT_STOP_UNITS_STOPPED : Fld := ⟨0x200018, 0, 10⟩
def F.MGT_STOP_UNITS_HOLDING : Fld := ⟨0x200018, 16, 10⟩
def F.MGT_DBG_SEL_UNIT : Fld := ⟨0x200020, 0, 10⟩
def F.MGT_DBG_SEL_SPACE : Fld := ⟨0x200020, 10, 3⟩
def F.MGT_DBG_SEL_INDEX : Fld := ⟨0x200020, 16, 17⟩
def F.MGT_DBG_SEL_ERR : Fld := ⟨0x200020, 33, 1⟩
def F.MGT_DBG_DATA_DATA : Fld := ⟨0x200028, 0, 64⟩
def F.MGT_I3C_DYN_ADDR : Fld := ⟨0x200030, 0, 7⟩
def F.MGT_I3C_ADDR_VALID : Fld := ⟨0x200030, 7, 1⟩
def F.MGT_I3C_EID : Fld := ⟨0x200030, 8, 8⟩
def F.MGT_ID_IANA : Fld := ⟨0x200038, 0, 32⟩
def F.MGT_UPDATE_STATE : Fld := ⟨0x200040, 0, 3⟩
def F.MGT_UPDATE_SLOT : Fld := ⟨0x200040, 3, 1⟩
def F.MGT_UPDATE_ACTIVATE_PENDING : Fld := ⟨0x200040, 4, 1⟩
def F.MGT_UPDATE_CODE : Fld := ⟨0x200040, 16, 16⟩
def F.MGT_REPORT_GEN : Fld := ⟨0x200048, 0, 32⟩
def F.MGT_REPORT_STALE_ANY : Fld := ⟨0x200048, 32, 1⟩
def F.MGT_CKPT_CFG_FLASH_SLOTS : Fld := ⟨0x208000, 0, 7⟩
def F.MGT_CKPT_CFG_UNDO_EN : Fld := ⟨0x208000, 7, 1⟩
def F.MGT_CKPT_CFG_RETIRE_ON_TEST : Fld := ⟨0x208000, 8, 1⟩
def F.MGT_CKPT_CFG_CHUNK_64K : Fld := ⟨0x208000, 16, 16⟩
def F.MGT_CKPT_STAGE_BASE_64K : Fld := ⟨0x208008, 0, 32⟩
def F.MGT_CKPT_STAGE_SIZE_64K : Fld := ⟨0x208008, 32, 22⟩
def F.MGT_CKPT_UNDO_BASE_64K : Fld := ⟨0x208010, 0, 32⟩
def F.MGT_CKPT_UNDO_SIZE_64K : Fld := ⟨0x208010, 32, 22⟩
def F.MGT_CKPT_PARITY_FIRST : Fld := ⟨0x208018, 0, 12⟩
def F.MGT_CKPT_PARITY_STRIDE : Fld := ⟨0x208018, 12, 12⟩
def F.MGT_CKPT_PARITY_G : Fld := ⟨0x208018, 24, 5⟩
def F.MGT_RLOG_BASE : Fld := ⟨0x208020, 0, 48⟩
def F.MGT_RLOG_SIZE_LOG2 : Fld := ⟨0x208020, 48, 5⟩
def F.MGT_RLOG_IDX_NEXT : Fld := ⟨0x208028, 0, 32⟩
def F.MGT_RLOG_IDX_LOST : Fld := ⟨0x208028, 32, 1⟩
def F.MGT_CKPT_STATE_STATE : Fld := ⟨0x208030, 0, 3⟩
def F.MGT_CKPT_STATE_SLOT : Fld := ⟨0x208030, 3, 6⟩
def F.MGT_CKPT_STATE_CODE : Fld := ⟨0x208030, 16, 16⟩
def F.MGT_CKPT_STATE_GEN : Fld := ⟨0x208030, 32, 32⟩
def F.MGT_CKPT_DONE_GEN : Fld := ⟨0x208038, 0, 32⟩
def F.MGT_CKPT_DONE_STEP : Fld := ⟨0x208038, 32, 32⟩
def F.MGT_RESTORE_OP : Fld := ⟨0x208040, 0, 3⟩
def F.MGT_RESTORE_SOURCE : Fld := ⟨0x208040, 3, 2⟩
def F.MGT_RESTORE_SLOT : Fld := ⟨0x208040, 5, 6⟩
def F.MGT_RESTORE_PEER : Fld := ⟨0x208040, 11, 12⟩
def F.MGT_RESTORE_ARG_ARG : Fld := ⟨0x208048, 0, 48⟩
def F.MGT_RESTORE_STATE_RESULT : Fld := ⟨0x208050, 0, 2⟩
def F.MGT_RESTORE_STATE_CODE : Fld := ⟨0x208050, 16, 16⟩
def F.MGT_RESTORE_STATE_EPOCH : Fld := ⟨0x208050, 32, 16⟩
def F.MGT_FLASH_ERR_CORR : Fld := ⟨0x208058, 0, 1⟩
def F.MGT_FLASH_ERR_UNCORR : Fld := ⟨0x208058, 1, 1⟩
def F.MGT_FLASH_ERR_RETIRED : Fld := ⟨0x208058, 2, 1⟩
def F.MGT_FLASH_ERR_CORR_COUNT : Fld := ⟨0x208058, 16, 16⟩
def F.MGT_FLASH_ERR_SPARE_BLOCKS : Fld := ⟨0x208058, 32, 16⟩
def F.CNT_HEARTH_VALUE (h : Nat) (k : Nat) : Fld := ⟨0x400000 + 0x1000 * h + 0x8 * k, 0, 48⟩
def F.CNT_ME_VALUE (h : Nat) (k : Nat) : Fld := ⟨0x410000 + 0x1000 * h + 0x8 * k, 0, 48⟩
def F.CNT_ME_TAG (h : Nat) (k : Nat) : Fld := ⟨0x410000 + 0x1000 * h + 0x8 * k, 48, 16⟩
def F.CNT_MEM_VALUE (d : Nat) (k : Nat) : Fld := ⟨0x420000 + 0x1000 * d + 0x8 * k, 0, 48⟩
def F.CNT_COD_VALUE (k : Nat) : Fld := ⟨0x422000 + 0x8 * k, 0, 48⟩
def F.CNT_IO_VALUE (k : Nat) : Fld := ⟨0x423000 + 0x8 * k, 0, 48⟩
def F.CNT_LINK_VALUE (l : Nat) (k : Nat) : Fld := ⟨0x424000 + 0x80 * l + 0x8 * k, 0, 48⟩
def F.EMB_CTL_FREEZE : Fld := ⟨0x1f00000, 0, 1⟩
def F.EMB_LOST_COUNT : Fld := ⟨0x1f00008, 0, 32⟩
def F.EMB_HEAD_NEXT (u : Nat) : Fld := ⟨0x1f01000 + 0x8 * u, 0, 32⟩

end Sys2Proof.Machine
end

