-- ==== Sys2Proof/Machine/State.lean ====
section
/-! DEFINITION. The state of the block: every register, memory, queue, buffer, mode and pin that the spec gives it, as plain
data, with the queue of waiting commands; why a step can stop; and the machine right after reset. -/

namespace Sys2Proof.Machine

/-- Why a step ends in a fault. No meaning of this model raises one: every error of the spec is an effect on the state. Safe. -/
inductive Fault where
  /-- Raised by nobody. Safe. -/
  | unused
  deriving DecidableEq, Repr

/-- Why a command has no meaning here. -/
inductive Refusal where
  /-- Raised by an arm of `exec` whose row has no meaning yet. Safe. -/
  | notModelled (mnemonic : String)
  deriving DecidableEq, Repr

/-- The five power states of Table 18-11. -/
inductive Power where
  | off | aux | kindling | run | stopped
  deriving DecidableEq, Repr

/-- Byte-addressed memory in one canonical form: strictly rising addresses, no entry equal to what an unlisted address reads
as. `gen` numbers the losses of the near tier's contents (R53, R470): 0 before the first. -/
structure Memory where
  cells : List Host.Cell
  gen : Nat
  deriving DecidableEq, Repr

/-- The fuses (R26, R37, R39, R41, R449): key hashes and revocation bits by key index, the number of blown rollback bits, the
factory's retired physical MEs by hearth, the stepping and the attestation seed. -/
structure Fuses where
  keyHash0 : Bytes
  keyHash1 : Bytes
  revoked0 : Bool
  revoked1 : Bool
  counter : Nat
  meMap : List Nat
  stepping : BitVec 8
  seed : Bytes
  deriving DecidableEq, Repr

/-- A program of the running image (Table 2-4): its section's address and length in the near tier and the entry's offset. -/
structure Program where
  id : Nat
  kind : Nat
  chain : Bool
  hearthMask : Nat
  bufCount : Nat
  flags : Nat
  funcMask : Nat
  secAddr : Nat
  secLen : Nat
  entry : Nat
  deriving DecidableEq, Repr

/-- What the device keeps of the image that Kindling verified (R29 to R36). Sections are address and length pairs. -/
structure Image where
  slot : Nat
  rollback : Nat
  keyIndex : Nat
  advance : Bool
  buildId : Nat
  digest : Bytes
  progs : List Program
  codeSecs : List (Nat × Nat)
  roSecs : List (Nat × Nat)
  deriving DecidableEq, Repr

/-- A job ticket accepted and not yet completed (R47 to R52). `key` is its order of acceptance, which names it inside the
device; `ring` is the port and ring it came from; `flags` are the sticky bits of its record. -/
structure Ticket where
  key : Nat
  num : Nat
  raw : Bytes
  prog : Program
  ring : Nat × Nat
  started : Bool
  cancelling : Bool
  flags : Nat
  status : Nat
  faultSeq : Nat
  faultHearth : Nat
  steps : Nat
  lastGen : Option Nat
  deriving DecidableEq, Repr

/-- A handle (R156): a tensor reference and a slice. -/
structure Handle where
  ref : Nat
  slice : Nat
  deriving DecidableEq, Repr

/-- One of a hearth's 64 handle queues (R156): the ticket it belongs to, the entries, oldest first, and the entries reserved. -/
structure HQueue where
  owner : Option Nat
  entries : List Handle
  reserved : Nat
  deriving DecidableEq, Repr

/-- A handle put on its way over the tack path (R156, R157, R189): target hearth and queue, the ticket it belongs to, whether
its entry was reserved, and the core or the command (hearth and sequence number) that waits for it. -/
structure Put where
  hearth : Nat
  queue : Nat
  handle : Handle
  ticket : Nat
  reserved : Bool
  core : Option Core
  cmd : Option (Nat × Nat)
  deriving DecidableEq, Repr

/-- How far a command of a window has come (R155): decoded; ready; its token request is pending; granted, so that its units
run; its units are done; its put is on its way. -/
inductive CmdSt where
  | decoded | ready | requested | granted | working | done | putting
  deriving DecidableEq, Repr

/-- A command in a dispatcher's window or recompute area (R135, R155). `pos` is its position in its ticket's stream, `step` its
step within the ticket, `chain` the sequence number of its chain's first member. `pops` are the handles it popped by the body
offset of the reference; `inc` its increment in RP tokens; `flags` what it reports into the completion record; `amax`, `dom`
and `stat` what it reports into its destination's scale record (R91); `phase` counts the steps of its own work; `tiles` are the
staging tiles that have arrived (level, body offset of the reference, bytes; R149); `geom` is the geometry record read at decode
(R198); `statRow` the first row index that it received of its statistics tag (R254); `views` the slots to which its view references resolved,
by address (R285); `stage` the bytes of staging that it needs at L1, L2 and L3 and `placed` whether it has them (R148); `slots` the
accumulator slots that it takes on each of its MEs (R125, R127); `noted` the notices that it has recorded (R105, R107). -/
structure Cmd where
  seq : Nat
  ticket : Nat
  pos : Nat
  step : Nat
  raw : Bytes
  recompute : Bool
  chain : Option Nat
  st : CmdSt
  pops : List (Nat × Handle)
  inc : Nat
  kind : Nat
  waited : Bool
  flags : Nat
  fail : Nat
  amax : Nat
  dom : Nat
  stat : Nat
  phase : Nat
  tiles : List (Nat × Nat × Nat)
  geom : Bytes
  statRow : Nat
  views : List (Nat × Nat)
  stage : List Nat
  placed : Bool
  slots : List (Nat × Nat)
  noted : Nat
  deriving DecidableEq, Repr

/-- Where a dispatcher stands in a ticket's list (R135, R136): byte offset of the next command within the section, commands
fetched, steps closed by STEP_END, and whether the last step's STEP_END was fetched. -/
structure Cursor where
  ticket : Nat
  off : Nat
  pos : Nat
  step : Nat
  ended : Bool
  deriving DecidableEq, Repr

/-- A token request waiting in a dispatcher (R71, R75, R191): of a command, of an Awl core, or of an ME's built-in test. -/
inductive TokReq where
  | cmd (seq : Nat) (rp : Nat)
  | core (c : Nat) (rp : Nat) (implicit : Bool)
  | meTest (i : Nat) (rp : Nat)
  deriving DecidableEq, Repr

/-- A hearth dispatcher: window and recompute area, list cursors, queues, token requests not yet forwarded and the one that is
pending, increments released and not yet returned with the part of them that is of MEs, the sum of increments charged. -/
structure Disp where
  cmds : List Cmd
  cursors : List Cursor
  queues : Smap HQueue
  awlReqs : List TokReq
  pending : Option TokReq
  releases : Nat
  meBack : Nat
  incs : Nat
  deriving DecidableEq, Repr

/-- What a waiting Awl core waits for (R188 to R191). -/
inductive Wait where
  | own
  | seq (n : Nat)
  | outstanding (put : Bool)
  | qput (hearth queue : Nat) (handle : Handle)
  | qget (rd queue : Nat)
  | qtry (rd queue : Nat)
  | tok (n : Nat) (implicit : Bool)
  deriving DecidableEq, Repr

/-- The waits of QGET, QPUT, WAIT and TOK, which a cancelled or failed ticket ends (R161, R193): not those of a TACK, of a QTRY or
of an implicit token request. -/
def Wait.ends : Wait → Bool
  | .outstanding put => put
  | .qtry _ _ => false
  | .tok _ implicit => !implicit
  | _ => true

/-- A TACK read that has issued and not yet filled its local destination (R188): the local-store offset and the bytes read. -/
structure TackOp where
  ls : Nat
  data : Bytes
  deriving DecidableEq, Repr

/-- An Awl core (R164): scalar and vector registers, pc, the control registers of Table 7-10, the local store and its words
that hold flipped bits (word index and number of bits), and what the dispatcher set when it started the core (R168 to R174);
`held` is the increment it requested and holds, `noted` that its request has raised TOKEN_WAIT (R191). -/
structure AwlCore where
  sregs : Smap (BitVec 64)
  vregs : Smap (BitVec 512)
  pc : Nat
  cstat : Nat
  cvscale : Nat
  srseed : BitVec 64
  sridx : BitVec 64
  amax : Nat
  domcnt : Nat
  icount : Nat
  ident : BitVec 64
  ls : Smap (BitVec 8)
  lsErr : Smap Nat
  codeLen : Nat
  banks : Nat
  limit : Nat
  seq : Nat
  ticket : Nat
  lastTicket : Option Nat
  woken : Bool
  lean : Bool
  held : Nat
  noted : Bool
  subn : Bool
  ops : List TackOp
  puts : Nat
  wait : Option Wait
  deriving DecidableEq, Repr

/-- An Ember entry (Table 17-4). -/
structure EmberEntry where
  useq : Nat
  cmd : Nat
  value : Nat
  type : Nat
  cmdValid : Bool
  hearth : Nat
  check : Nat
  arg : Nat
  deriving DecidableEq, Repr

/-- A unit in a global stop (R441): whether it has received the marker, the inputs that delivered it with the items held there,
and whether it is stopped. -/
structure StopRec where
  seen : Bool
  chans : List (Nat × Nat)
  stopped : Bool
  deriving DecidableEq, Repr

/-- What leaves the block and is seen outside (R380, R378, R385, R446 to R450, R474): an MSI-X message, the answer to a read or a
refused access, a frame on a link, a management reply, a TAP shift. -/
inductive Out where
  | msix (port vector addr data : Nat)
  | readReply (v : BitVec 64)
  | readBytes (d : Bytes)
  | completerAbort
  | unsupportedRequest
  | frame (link : Nat) (hdr payload : Bytes)
  | reply (d : Bytes)
  | tdo (v : Nat)
  deriving DecidableEq, Repr

/-- A PCIe port beyond its registers (R369, R370, R377, R380): D3hot, MSI-X enable and function mask, completion-timeout
setting, the MSI-X table and PBA bytes, vectors whose message is held, and the BAR4 accesses that wait, in order (R332, R442). -/
structure PciPort where
  d3hot : Bool
  msixEnable : Bool
  msixMask : Bool
  timeout : Nat
  table : Smap (BitVec 8)
  held : List Nat
  bar4 : List BarAccess
  deriving DecidableEq, Repr

/-- The Damper beyond its registers (R63 to R72): the hearth last served, refusals in succession, passes of each hearth's
request, the voltage step in progress of each hearth (its target code), overdraw readings, runs of readings within the holding,
steps lowered by the overdraw guard, sensors that stand failed, pool holdings of the rail units, hot readings in succession. -/
structure Damper where
  last : Nat
  refused : Nat
  passed : Smap Nat
  steps : Smap Nat
  past : Smap Bool
  okRun : Smap Nat
  overLow : Smap Nat
  failed : List Nat
  railCeil : Smap Nat
  gddrOver : List Nat
  hot : Smap Nat
  deriving DecidableEq, Repr

/-- The management endpoint (R446 to R450): attestation secret key, SPDM transcript and negotiation, the data-path report of
each function (state, generation, epoch), measurements' validity. -/
structure Mgmt where
  key : Bytes
  transcript : Bytes
  negotiated : Bool
  reports : Smap (Nat × Nat × Nat)
  kindled : Bool
  erased : Bool
  deriving DecidableEq, Repr

/-- The TAP (R473 to R475): the instruction in force and the boundary register's held value. -/
structure Tap where
  inst : Nat
  boundary : Bytes
  deriving DecidableEq, Repr
/-- Whose write waits: that of a command's unit, a completion record with the ring and INTR of its ticket, or a replay-log entry. -/
inductive HeldFor where
  | cmd (hearth seq unit : Nat)
  | record (port ring : Nat) (intr : Bool)
  | rlog
  deriving DecidableEq, Repr

/-- A write that must wait at its target while the other requests of its unit proceed (R46, R319, R332): identity, address and bytes. -/
structure HeldWrite where
  target : HeldFor
  who : Nat
  addr : Nat
  data : Bytes
  deriving DecidableEq, Repr

/-- A kept slot of an ME's accumulator buffer (R127, R129): ME 16h + i, slot, ticket and step that kept it, the 32-bit contents by
position (0 where not listed) and the 64-bit words with flipped bits. -/
structure KeptSlot where
  me : Nat
  slot : Nat
  ticket : Nat
  step : Nat
  vals : Smap Nat
  errs : Smap Nat
  deriving DecidableEq, Repr

/-- A tag of a hearth's row statistics (R254 to R256): its ticket and STAT_TAG, its kind once its first writer has started (true:
SOFTMAX), its row counter, its entries by row index, the words with flipped bits, the order of its first claim, whether it has
spilled and the step in which it was written. -/
structure StatTag where
  hearth : Nat
  ticket : Nat
  tag : Nat
  softmax : Option Bool
  next : Nat
  rows : Smap (Nat × Nat)
  errs : Smap Nat
  order : Nat
  spilled : Bool
  step : Nat
  deriving DecidableEq, Repr

/-- A walk on a KV cache (R242 to R248): the command, its cache record, how far it has come (0 not latched, 1 latched, 2 pages
taken, 3 its end waits for the home sequencer), the latched slot, the sequences it names, victims being swapped out, the sequence
being swapped in with the pages taken for it, the victims chosen for the request, the new pages by sequence, and whether it waits
for pages. -/
structure KvWalk where
  hearth : Nat
  cmd : Nat
  cache : Nat
  append : Bool
  phase : Nat
  slot : Nat
  seqs : List Nat
  victims : List Nat
  swapIn : Option (Nat × List Nat)
  used : Nat
  pages : List (Nat × List Nat)
  waiting : Bool
  noted : Bool
  deriving DecidableEq, Repr

/-- A PT_COMMIT under way (R245): the command, its cache record, whether it has set LIVE, the former live slot and the released
page addresses. -/
structure KvCommit where
  hearth : Nat
  cmd : Nat
  cache : Nat
  published : Bool
  former : Nat
  released : List Nat
  deriving DecidableEq, Repr

/-- A report of a command into a scale record, held until the step before it has committed or been abandoned (R91, R93). -/
structure ScaleReport where
  addr : Nat
  ticket : Nat
  step : Nat
  amax : Option Nat
  dom : Nat
  stat : Nat
  deriving DecidableEq, Repr

/-- A stash entry (R262): its key (ticket, STASH_ID, MICRO), format code, line length and rows, the step of its PUT, its state (0
STORING, 1 NEAR, 2 FAR, 3 DROPPED), quota set and whether its pages are far; the pages that hold its bytes, as addresses / 65,536 in the
order of the entry's bytes (log entry 33); the PUT that waits for its store; whether it has been freed, and the STASH_GETs that had
started on it by then (R271). -/
structure StashEntry where
  ticket : Nat
  id : Nat
  micro : Nat
  fmt : Nat
  size0 : Nat
  rows : Nat
  step : Nat
  st : Nat
  quota : Nat
  far : Bool
  places : List Nat
  cmd : Nat × Nat
  gone : Bool
  readers : List (Nat × Nat)
  deriving DecidableEq, Repr

/-- A recompute segment in progress (R270): hearth, the GET, byte offset of the next command, commands left to fetch, and the position
of the next within the segment. -/
structure Recomp where
  hearth : Nat
  get : Nat
  ticket : Nat
  off : Nat
  left : Nat
  pos : Nat
  deriving DecidableEq, Repr

/-- A segment of a collective that has been sent and consumed: receiver, descriptor, CRC-64, and the command that sent it (R290, R291). -/
structure Shipped where
  dst : Nat
  desc : Bytes
  crc : Nat
  cmd : Nat × Nat
  deriving DecidableEq, Repr

/-- A collective on this module (R286 to R308): KIND as in Table 15-3 (1 REDUCE, 2 UPDATE amax, 3 GATHER, 4 SEND or RECV), its
identifier and step index, the commands that take part (hearth, sequence number, part), form, ring order, parts, member set, this
member's position, record, and the extents; `own` the module's own contributions by part and shard; `sent` and `recv` the digests; `chk`
how far a check has come, with the values of R293; `written` once the destination is written; `no` the step of the ticket; `shipped` the
segments that have been consumed. -/
structure Coll where
  kind : Nat
  id : Nat
  step : Nat
  ticket : Nat
  cmds : List (Nat × Nat × Nat)
  form : Nat
  ring : Bool
  parts : Nat
  first : Nat
  count : Nat
  stride : Nat
  pos : Nat
  root : Nat
  record : Nat
  fmt : Nat
  elems : Nat
  check : Bool
  own : List (Nat × Nat × List Nat)
  sent : Nat
  recv : Nat
  chk : Nat
  chkVals : List (Nat × Nat)
  written : Bool
  no : Nat
  shipped : List Shipped
  deriving DecidableEq, Repr

/-- A segment being sent (R291, R391): STREAM, receiver, VC, link, segment descriptor, the bytes known so far and how many there will
be, how many are framed, the KiB framed and not returned, the command and the collective it belongs to. -/
structure TxStream where
  num : Nat
  dst : Nat
  vc : Nat
  link : Nat
  desc : Bytes
  bytes : Bytes
  total : Nat
  framed : Nat
  flight : Nat
  opened : Bool
  finished : Bool
  cmd : Nat × Nat
  coll : Nat × Nat
  deriving DecidableEq, Repr

/-- A segment being received (R294, R391): sender, STREAM, link, descriptor, bytes, whether LAST has come, bytes consumed, and the
landing-buffer words with flipped bits. -/
structure RxStream where
  src : Nat
  num : Nat
  link : Nat
  desc : Bytes
  bytes : Bytes
  last : Bool
  consumed : Nat
  counted : Bool
  errs : Smap Nat
  deriving DecidableEq, Repr


/-- A picture that the decoder keeps in a slot (R343, R354): pool address, slot, standard, what was decoded (DEDUCED, log entry 6), and its number
in output order. -/
structure KeptPic where
  pool : Nat
  slot : Nat
  std : Nat
  query : Bytes
  index : Nat
  deriving DecidableEq, Repr

/-- A codec command on a lane (R340): hearth, sequence number, pool address and size, whether it ingests. -/
structure LaneRun where
  hearth : Nat
  seq : Nat
  pool : Nat
  size : Nat
  ingest : Bool
  deriving DecidableEq, Repr

/-- What the ingest path holds of a command (R360): its lane (8 for an INGEST), its ingest record and the destination's scale factor, both
read once at its start (R91), what a DECODE decodes (standard and query), the pictures in output order (standard, query, number; none:
missing), and the groups written. -/
structure IngestRun where
  hearth : Nat
  seq : Nat
  lane : Nat
  record : Bytes
  factor : Option Nat
  std : Nat
  query : Bytes
  pics : List (Option (Nat × Bytes × Nat))
  group : Nat
  deriving DecidableEq, Repr
/-- A frame without its link sequence number (Table 15-1). -/
structure Pkt where
  type : Nat
  vc : Nat
  hop : Nat
  last : Bool
  dst : Nat
  src : Nat
  stream : Nat
  offset : Nat
  payload : Bytes
  deriving DecidableEq, Repr

/-- A Colkin link or, at 12, Girth beyond its registers (R387, R388, R395): next LSEQ to send and to receive, the replay buffer, frames
that wait for credit, link credits by 4 × VC + HOP, the LSEQ of the last NAKs and their number in succession, whether a NAK was sent for
the expected LSEQ, failed training attempts in succession, frames held during a stop, whether a STOP_MARK was sent that a RESUME must
follow, whether the peer's stop keeps OPEN and DATA frames back, and whether the peer's
marker has arrived (R443, R444), and whether this bring-up has recorded LINK_DEGRADED (R394). -/
structure LinkSt where
  txNext : Nat
  rxNext : Nat
  replay : List (Nat × Pkt)
  queue : List Pkt
  credit : Smap Nat
  nakSeq : Nat
  naks : Nat
  nakSent : Bool
  attempts : Nat
  held : List (Bytes × Bytes)
  marked : Bool
  blocked : Bool
  peerMark : Bool
  narrow : Bool
  deriving DecidableEq, Repr

/-- A mirror or return that leaves (R396 to R401): KIND, generation, step index, times sent, the image, the holds taken (record, slot). -/
structure MirrorOut where
  kind : Nat
  gen : Nat
  step : Nat
  tries : Nat
  image : Bytes
  holds : List (Nat × Nat)
  stream : Nat
  deriving DecidableEq, Repr

/-- An image that arrives (R398): KIND, base and size of the region it is written into, MSEQ, bytes received, whether it fits, and the code of a
write of it that failed. -/
structure MirrorIn where
  kind : Nat
  base : Nat
  size : Nat
  mseq : Nat
  bytes : Bytes
  fits : Bool
  code : Nat
  stream : Nat
  deriving DecidableEq, Repr

/-- A lane's pattern checker (R402): the bits seen until it locks, bits compared, and the bits that determine the next one; and its
generator's last bits, newest first, with the phase of a USER pattern. -/
structure LaneChk where
  recent : List Bool
  good : Nat
  bits : Nat
  phase : Nat
  gen : List Bool
  genPhase : Nat
  deriving DecidableEq, Repr


/-- A CKPT between its staging and the end of its drain (R415 to R420): OP, generation, step index, length of the image, host address,
ticket, collective identifier, and the parity chunks once they are whole. -/
structure Staged where
  op : Nat
  gen : Nat
  step : Nat
  size : Nat
  dst : Nat
  ticket : Nat
  coll : Nat
  p : Option Bytes
  q : Option Bytes
  deriving DecidableEq, Repr
/-- The whole block. -/
structure State where
  /-- commands waiting, first in first out -/
  pending : List Instr
  /-- the number of open choices made so far (the model's own field, DESIGN CHOICE, log entry 2) -/
  free : Nat
  /-- what has left the block, oldest first (the model's own field, DESIGN CHOICE, log entry 7) -/
  out : List Out
  /-- every register, by BAR0 offset; one that is not listed holds its reset value (R9, R371) -/
  regs : Smap (BitVec 64)
  /-- pending values of configuration registers of STOPPED functions (R45) -/
  pend : Smap (BitVec 64)
  /-- 3V3_AUX is valid (R469) -/
  auxOn : Bool
  /-- the main-derived rails are on (R466, R469) -/
  mainOn : Bool
  /-- the pin THERM_TRIP_N is driven low (R471) -/
  thermTrip : Bool
  /-- the pin PWR_FAULT_N is driven low (R471) -/
  pwrFault : Bool
  /-- the level of TWIN_PRS_IN (R465) -/
  twinIn : Bool
  /-- held before stage 0x01 under SCAN_HOLD (R475) -/
  scanHold : Bool
  /-- the fuse bank (R26, R37, R39, R41, R449) -/
  fuses : Fuses
  /-- configuration flash, 64 MiB (R25); an unlisted byte is erased, 0xFF -/
  flash : Smap (BitVec 8)
  /-- a re-kindle has been requested: 1 it waits for the global stop, 2 it starts at once (R53, R442) -/
  rekindle : Nat
  /-- the only candidate slot that the request named, if SLOT_OVR was set (R38) -/
  slotOvr : Option Nat
  /-- candidate slots that this Kindling has still to try, first first (R38) -/
  cands : List Nat
  /-- the image of the slot that passed stages 0x03 to 0x05: the running image once RUN is reached (R38) -/
  image : Option Image
  /-- the image's LOAD_LIST values by BAR0 offset (R11, R32) -/
  loads : Smap (BitVec 64)
  /-- the device address space (R311) -/
  mem : Memory
  /-- flipped bits of the near tier by symbol: 68 × the sector's number + the symbol (its 64 bytes, then its check bytes) (R315) -/
  symErr : Smap Nat
  /-- near-tier sectors whose poison bit is set (R314, R317) -/
  poison : List Nat
  /-- far-tier sectors that return poison (R324) -/
  farPoison : List Nat
  /-- host-window sectors whose reads the host refuses (1) or completes poisoned (2) (R377) -/
  hostBad : Smap Nat
  /-- memory dies whose GDDR7 domain is lost (R22) -/
  lostGddr : List Nat
  /-- the checkpoint flash is lost (R22) -/
  lostFlash : Bool
  /-- tickets accepted and not completed, in order of acceptance (R50) -/
  tickets : List Ticket
  /-- the next order number of a ticket (R50) -/
  nextKey : Nat
  /-- the ring that intake visits next, 0 to 7 (R375) -/
  nextRing : Nat
  /-- the dispatchers by hearth: windows, queues and token counts (R135, R155) -/
  disps : Smap Disp
  /-- puts of handles on their way (R156) -/
  puts : List Put
  /-- writes that wait at their target, oldest first (R46) -/
  held : List HeldWrite
  /-- the Awl cores by index 8h + c, supervisor cores from 128 (R164) -/
  cores : Smap AwlCore
  /-- the Damper's counts between readings (R63 to R72) -/
  damper : Damper
  /-- the Ember rings by unit (R436) -/
  ember : Smap EmberEntry
  /-- entries that a full Ember ring has lost, by unit (R439) -/
  emberLost : Smap Nat
  /-- what each unit recorded at its stop marker (R441) -/
  stops : Smap StopRec
  /-- the PCIe ports: MSI-X table, held messages, writes that wait (R369, R378, R380) -/
  ports : Smap PciPort
  /-- the management endpoint (R445 to R449) -/
  mgmt : Mgmt
  /-- the TAP: its instruction and boundary register (R473) -/
  tap : Tap
  /-- kept accumulator slots (R127) -/
  kept : List KeptSlot
  /-- rows that Bellows has enabled, by ME 16h + i (R77) -/
  bellows : Smap Nat
  /-- MEs whose stationary rows fail parity (R129) -/
  parityBad : List Nat
  /-- words with flipped bits that no other field holds, with the number of bits (R129, R250): words of LIVE and READOUT accumulator slots, by
  2^18 × (ME 16h + i) + word, and row-buffer words, by 2^26 + 2^16 × hearth + word -/
  wordErrs : Smap Nat
  /-- the tests that wait for their turn (R131) -/
  meTests : List Nat
  /-- statistics memories with what has spilled (R254) -/
  stats : List StatTag
  /-- KV walks in flight (R241) -/
  walks : List KvWalk
  /-- KV commits in flight (R241) -/
  commits : List KvCommit
  /-- scale records that hold a report of a step: record address, ticket, step (R93) -/
  scaleOpen : List (Nat × Nat × Nat)
  /-- reports held for later steps (R93) -/
  scaleHeld : List ScaleReport
  /-- stash entries (R262) -/
  stash : List StashEntry
  /-- waiting PUTs, oldest first (R266) -/
  stashWait : List (Nat × Nat)
  /-- recompute segments (R270) -/
  recomps : List Recomp
  /-- collectives in progress (R292) -/
  colls : List Coll
  /-- collectives whose commands have ended: identifier, step index, ticket, step of the ticket (R294, R296) -/
  collEnded : List (Nat × Nat × Nat × Nat)
  /-- the count of completed collectives (R292) -/
  collCount : Nat
  /-- segments on their way out (R291) -/
  txs : List TxStream
  /-- segments on their way in (R295) -/
  rxs : List RxStream
  /-- updates not yet committed: record, ticket, step (R303) -/
  pends : List (Nat × Nat × Nat)
  /-- the holds of EVAL steps: ticket, step, record, slot (R304) -/
  evalHolds : List (Nat × Nat × Nat × Nat)
  /-- codec commands that wait, in order of arrival: hearth, sequence number (R340) -/
  codQueue : List (Nat × Nat)
  /-- codec lanes that run a command (R340) -/
  codLanes : Smap LaneRun
  /-- kept pictures (R343) -/
  codKept : List KeptPic
  /-- what the ingest path holds (R360) -/
  codIngest : List IngestRun
  /-- the lane that the ingest path served last (R360) -/
  codLast : Nat
  /-- syntax-buffer words with flipped bits, by 2^19 × partition + word (R342) -/
  codErrs : Smap Nat
  /-- the links; 12 is Girth (R384) -/
  links : Smap LinkSt
  /-- streams whose frames this module has rejected: source, stream (R390) -/
  rejected : List (Nat × Nat)
  /-- streams that this module forwards: source, stream, and the link that they leave on; 13 when they have none (R389, R390) -/
  forwarded : List (Nat × Nat × Nat)
  /-- the mirror image on its way out (R396) -/
  mirrorOut : Option MirrorOut
  /-- the mirror image on its way in (R396) -/
  mirrorIn : Option MirrorIn
  /-- a commit whose mirror is due: generation, step (R396) -/
  mirrorDue : Option (Nat × Nat)
  /-- a return that waits (R400) -/
  returnDue : Bool
  /-- the generation whose mirror the next commit needs acknowledged (R24, R396) -/
  mirrorOwed : Option Nat
  /-- lane checkers (R402) -/
  laneChk : Smap LaneChk
  /-- step index of the committed state (R410) -/
  commitStep : Nat
  /-- the staged image (R414) -/
  staged : Option Staged
  /-- the checkpoint flash; an unlisted byte is erased, 0xFF (R415) -/
  ckptFlash : Smap (BitVec 8)
  /-- the generation whose commit made the undo copy, with the step index of the commit before it (R424) -/
  undoGen : Option (Nat × Nat)
  /-- a rollback has been made since (R424) -/
  rolledBack : Bool
  /-- MEs that passed a test in this Kindling (R409) -/
  meProven : List Nat
  /-- stops that this module has originated (R440) -/
  stopId : Nat
  deriving DecidableEq, Repr

/-- A port as reset leaves it (R370): every vector of the MSI-X table masked, as the PCIe specification has it (DESIGN CHOICE, log entry 8). -/
def PciPort.blank : PciPort :=
  { d3hot := false, msixEnable := false, msixMask := false, timeout := 0,
    table := (List.range 8).map fun v => (16 * v + 12, 1), held := [], bar4 := [] }

/-- A queue that no ticket owns. -/
def HQueue.blank : HQueue := { owner := none, entries := [], reserved := 0 }

/-- A dispatcher with nothing in it. -/
def Disp.blank : Disp :=
  { cmds := [], cursors := [], queues := [], awlReqs := [], pending := none, releases := 0, meBack := 0, incs := 0 }

/-- An Awl core before its first command. DESIGN CHOICE (log entry 8). -/
def AwlCore.blank : AwlCore :=
  { sregs := [], vregs := [], pc := 0, cstat := 0, cvscale := 0x3F800000, srseed := 0, sridx := 0, amax := 0, domcnt := 0,
    icount := 0, ident := 0, ls := [], lsErr := [], codeLen := 0, banks := 0, limit := 0, seq := 0, ticket := 0,
    lastTicket := none, woken := true, lean := false, held := 0, noted := false, subn := false, ops := [], puts := 0, wait := none }

/-- The Damper before its first input. -/
def Damper.blank : Damper :=
  { last := 15, refused := 0, passed := [], steps := [], past := [], okRun := [], overLow := [], failed := [],
    railCeil := [], gddrOver := [], hot := [] }

/-- A link before it is brought up. -/
def LinkSt.blank : LinkSt :=
  { txNext := 0, rxNext := 0, replay := [], queue := [], credit := [], nakSeq := 0, naks := 0, nakSent := false, attempts := 0, held := [],
    marked := false, blocked := false, peerMark := false, narrow := false }
/-- A checker that has seen nothing. -/
def LaneChk.blank : LaneChk := { recent := [], good := 0, bits := 0, phase := 0, gen := [], genPhase := 0 }

/-- The block right after reset: the power state OFF (R469), every register at the value its Reset column gives (DESIGN CHOICE, log entry 8),
flash erased, memory with nothing listed. -/
def State.reset : State :=
  { pending := [], free := 0, out := [], regs := [], pend := [], auxOn := false, mainOn := false, thermTrip := false,
    pwrFault := false, twinIn := false, scanHold := false,
    fuses := { keyHash0 := zeros 32, keyHash1 := zeros 32, revoked0 := false, revoked1 := false, counter := 0,
               meMap := List.replicate 16 0, stepping := 0, seed := zeros 32 },
    flash := [], rekindle := 0, slotOvr := none, cands := [], image := none, loads := [], mem := { cells := [], gen := 0 }, symErr := [], poison := [],
    farPoison := [], hostBad := [], lostGddr := [], lostFlash := false, tickets := [], nextKey := 0, nextRing := 0,
    disps := [], puts := [], held := [], cores := [], damper := Damper.blank, ember := [], emberLost := [], stops := [], ports := [],
    mgmt := { key := [], transcript := [], negotiated := false, reports := [], kindled := false, erased := false },
    tap := { inst := 0xFF, boundary := [] },
    kept := [], bellows := [], parityBad := [], wordErrs := [], meTests := [],
    stats := [], walks := [], commits := [],
    scaleOpen := [], scaleHeld := [], stash := [], stashWait := [], recomps := [],
    colls := [], collEnded := [], collCount := 0, txs := [], rxs := [], evalHolds := [], pends := [],
    codQueue := [], codLanes := [], codKept := [], codIngest := [], codLast := 8, codErrs := [],
    links := [], rejected := [], forwarded := [], mirrorOut := none, mirrorIn := none, mirrorDue := none, returnDue := false, mirrorOwed := none, laneChk := [],
    commitStep := 0, staged := none, ckptFlash := [], undoGen := none, rolledBack := false, meProven := [],
    stopId := 0 }

end Sys2Proof.Machine
end

