-- ==== Sys2Proof/Machine/Ops.lean ====
section
/-! DEFINITION. The named operations over registers, functions, counters, Ember rings and interrupts that every meaning uses. -/

namespace Sys2Proof.Machine

/-- How a command ends: it always has a next state. -/
abbrev Res := Host.Outcome State Fault Refusal

/-- The value in force in a register (R9). -/
def regVal (s : State) (off : Nat) : BitVec 64 := s.regs.get (regReset off) off

/-- Set a register whole. -/
def setReg (s : State) (off : Nat) (v : BitVec 64) : State := { s with regs := s.regs.set off v }

/-- A field of a register. -/
def rd (s : State) (f : Fld) : Nat := bits (regVal s f.off).toNat f.lo f.width

/-- The number whose bits [lo+w-1:lo] are v and whose other bits are those of x. -/
def putBits (x lo w v : Nat) : Nat := x % 2 ^ lo + 2 ^ lo * (v % 2 ^ w) + 2 ^ (lo + w) * (x / 2 ^ (lo + w))

/-- Set a field of a register and no other bit. -/
def wr (s : State) (f : Fld) (v : Nat) : State :=
  setReg s f.off (BitVec.ofNat 64 (putBits (regVal s f.off).toNat f.lo f.width v))

/-- A count that stops at the field's largest value. -/
def satAdd (s : State) (f : Fld) (n : Nat) : State := wr s f (min (rd s f + n) (2 ^ f.width - 1))

/-- A count that wraps modulo the field's width. -/
def wrapAdd (s : State) (f : Fld) (n : Nat) : State := wr s f (rd s f + n)

/-- Fold an update over a list. -/
def each {α : Type} (xs : List α) (s : State) (f : State → α → State) : State := xs.foldl f s

/-- A free number for the next open choice (DESIGN CHOICE, log entry 2). -/
def takeFree (s : State) : Nat × State := (Config.freeNat s.free, { s with free := s.free + 1 })

/-- n free bytes for the next open choice (DESIGN CHOICE, log entry 2). -/
def takeFreeBytes (s : State) (n : Nat) : Bytes × State :=
  ((List.range n).map (Config.freeByte s.free ·), { s with free := s.free + 1 })

/-- Record something that leaves the block. DESIGN CHOICE (log entry 7). -/
def emit (s : State) (o : Out) : State := { s with out := s.out ++ [o] }

/-! ### Power and functions -/

/-- The power state (R469): OFF while 3V3_AUX is not valid, else what `DEV_STATE.POWER` encodes. -/
def State.power (s : State) : Power :=
  if !s.auxOn then .off else
  match rd s F.DEV_STATE_POWER with
  | 1 => .aux
  | 2 => .kindling
  | 3 => .run
  | _ => .stopped

/-- PWR_GOOD: every main-derived rail is in window (R465). -/
def pwrGood (s : State) : Bool := s.auxOn && decide (2 ≤ rd s F.DEV_STATE_POWER) && decide (rd s F.DEV_STATE_POWER ≤ 4)

/-- TWIN_PRS_OUT (R465). -/
def twinPrsOut (s : State) : Bool := s.auxOn

/-- The function numbers of Table 2-6 that are not reserved. -/
def isFunc (f : Nat) : Bool :=
  decide (f ≤ 0x14) || (decide (0x20 ≤ f) && decide (f ≤ 0x2C)) || (decide (0x30 ≤ f) && decide (f ≤ 0x35))

def allFuncs : List Nat := (List.range 0x36).filter isFunc

/-- States of a function (Table 2-17). -/
def fnRUN : Nat := 0
def fnSTOPPING : Nat := 1
def fnSTOPPED : Nat := 2
def fnUNAVAIL : Nat := 3

def fnFld (f : Nat) : Fld := if f < 0x20 then ⟨0x48, 2 * f, 2⟩ else ⟨0x50, 2 * (f - 0x20), 2⟩

/-- The state of a function (R43); reserved numbers read UNAVAILABLE. -/
def fnState (s : State) (f : Nat) : Nat := if isFunc f then rd s (fnFld f) else 3

/-- A global stop is in progress or complete (R440 to R442). -/
def stopActive (s : State) : Bool := rd s F.MGT_STOP_STATE_STATE != 0

/-- The device takes steps of its own: POWER reads RUN (R50, R442). -/
def isRun (s : State) : Bool := s.power == .run

/-- The unit has received the stop marker and takes no further step until resume (R441). -/
def unitHalted (s : State) (u : Nat) : Bool := (s.stops.get { seen := false, chans := [], stopped := false } u).seen

/-- A unit of the running device may take a step: POWER reads RUN and no marker has reached it. -/
def unitLive (s : State) (u : Nat) : Bool := isRun s && !unitHalted s u

/-! ### Counters (R433 to R435) -/

def cntHearth (s : State) (h k n : Nat) : State := wrapAdd s (F.CNT_HEARTH_VALUE h k) n
def cntMem (s : State) (d k n : Nat) : State := wrapAdd s (F.CNT_MEM_VALUE d k) n
def cntCod (s : State) (k n : Nat) : State := wrapAdd s (F.CNT_COD_VALUE k) n
def cntIo (s : State) (k n : Nat) : State := wrapAdd s (F.CNT_IO_VALUE k) n
def cntLink (s : State) (l k n : Nat) : State := wrapAdd s (F.CNT_LINK_VALUE l k) n

/-! ### Ember rings (R436 to R439) -/

/-- The command that an Ember entry concerns (R437): sequence number, hearth and ticket number. -/
structure CmdId where
  seq : Nat
  hearth : Nat
  ticket : Nat
  deriving DecidableEq, Repr

/-- Write an entry to unit u's ring, or count it as lost while the rings are frozen (R436, R439). -/
def emberPut (s : State) (u type value cmd : Nat) (valid : Bool) (hearth arg : Nat) : State :=
  if rd s F.EMB_CTL_FREEZE = 1 then
    satAdd { s with emberLost := s.emberLost.set u (s.emberLost.get 0 u + 1) } F.EMB_LOST_COUNT 1
  else
    let q := rd s (F.EMB_HEAD_NEXT u)
    let e : EmberEntry := { useq := q, cmd := cmd % 2 ^ 32, value := value % 2 ^ 16, type := type, cmdValid := valid,
                            hearth := hearth, check := bits q 8 8, arg := arg % 2 ^ 32 }
    wrapAdd { s with ember := s.ember.set (256 * u + q % 256) e } (F.EMB_HEAD_NEXT u) 1

/-- A CODE entry of unit u (Table 17-5, R437). -/
def emberCode (s : State) (u code : Nat) (c : Option CmdId) : State :=
  match c with
  | some c => emberPut s u 1 code c.seq true c.hearth (c.ticket % 2 ^ 32)
  | none => emberPut s u 1 code 0 false 0 0

/-- A CODE entry that carries a ticket but no command (R49). -/
def emberTicket (s : State) (u code ticket : Nat) : State := emberPut s u 1 code 0 false 0 ticket

/-- The USEQ that a CODE event of unit u takes, and the entry at a ring index (R438). -/
def emberAt (s : State) (u i : Nat) : Option EmberEntry := s.ember.find? (256 * u + i)

/-- Unfreeze the rings: each unit that lost entries writes one LOST entry (R439). -/
def emberUnfreeze (s : State) : State :=
  let lost := s.emberLost
  each lost (wr { s with emberLost := [] } F.EMB_CTL_FREEZE 0) fun s p =>
    if p.2 = 0 then s else emberPut s p.1 7 0 0 false 0 p.2

/-! ### Interrupts and host errors (R379 to R382) -/

/-- The port can send a message: link up, Bus Master Enable set, not in D3hot, MSI-X enabled (R380). -/
def portCanSend (s : State) (p : Nat) : Bool :=
  let q := s.ports.get PciPort.blank p
  rd s (F.HIF_PORT_STATE p) == 2 && rd s (F.HIF_PORT_BME p) == 1 && !q.d3hot && q.msixEnable

/-- Bytes of a vector's MSI-X entry (R383). -/
def msixEntry (q : PciPort) (v off n : Nat) : Nat := leNat ((List.range n).map fun i => q.table.get 0 (16 * v + off + i))

/-- The vector is masked by function or by vector (R380). -/
def msixMasked (q : PciPort) (v : Nat) : Bool := q.msixMask || msixEntry q v 12 4 % 2 == 1

/-- Send a vector's message, or hold it (R380). -/
def msixSend (s : State) (p v : Nat) : State :=
  let q := s.ports.get PciPort.blank p
  if portCanSend s p && !msixMasked q v then emit s (.msix p v (msixEntry q v 0 8) (msixEntry q v 8 4))
  else { s with ports := s.ports.set p { q with held := q.held ++ [v] } }

/-- Raise a cause of vector v of port p: set the pending bit and send one message only if the bit was clear (R380). -/
def raiseVec (s : State) (p v : Nat) : State :=
  let f : Fld := ⟨(F.HIF_IRQ_PEND p).off, v, 1⟩
  if rd s f = 1 then s else msixSend (wr s f 1) p v

/-- Send the held messages of a port that can travel again, each only if its pending bit is still set (R380). -/
def msixRelease (s : State) (p : Nat) : State :=
  let q := s.ports.get PciPort.blank p
  each q.held { s with ports := s.ports.set p { q with held := [] } } fun s v =>
    if rd s ⟨(F.HIF_IRQ_PEND p).off, v, 1⟩ = 1 then msixSend s p v else s

/-- Record a class 0x0B code in `HIF_ERR` and raise vector 4 of its port (R380, R382, Table 14-13). -/
def hifErr (s : State) (code p ring addr : Nat) : State :=
  let s := wr (wr (wr s F.HIF_ERR_CODE code) F.HIF_ERR_PORT p) F.HIF_ERR_RING ring
  raiseVec (wr s F.HIF_ERR_ADDR_ADDR addr) p 4

/-- Record a class 0x0A control error in `DEV_CFG_ERR` (Table 2-19). DEDUCED (log entry 52). -/
def cfgErr (s : State) (code func off : Nat) : State :=
  wr (wr (wr s F.DEV_CFG_ERR_CODE code) F.DEV_CFG_ERR_FUNC func) F.DEV_CFG_ERR_OFFSET off

/-- The lead port (R379). -/
def leadPort (s : State) : Nat := rd s F.DEV_STATE_LEAD_PORT

/-- The writer is the lead host (R44, R379); supervisor code counts as the non-lead host (R192). -/
def isLead (s : State) : Src → Bool
  | .host p => p.val == leadPort s
  | .supervisor => false

/-- A register access of this writer is served: the main rails are on, and a host's port is not in D3hot (R369). -/
def served (s : State) : Src → Bool
  | .host p => pwrGood s && !(s.ports.get PciPort.blank p.val).d3hot
  | .supervisor => pwrGood s

/-- `MGT_REPORT.STALE_ANY` follows the reports (R425, Table 17-20). -/
def syncReports (s : State) : State :=
  let stale (f : Nat) : Bool :=
    match s.mgmt.reports.find? f with
    | some r => r.1 != fnState s f || r.2.1 != rd s F.DEV_COMMIT_GEN_GEN
    | none => false
  wr s F.MGT_REPORT_STALE_ANY (if allFuncs.any stale then 1 else 0)

/-- The data path posts its reports of functions to supervisor core 2, with the generation and the restore epoch (R411, R425).
DEDUCED (log entry 60). -/
def postReports (s : State) (fs : List Nat) : State :=
  if unitHalted s (U.sup 2) then syncReports s else
  let g := rd s F.DEV_COMMIT_GEN_GEN
  let s := each fs s fun s f =>
    { s with mgmt := { s.mgmt with reports := s.mgmt.reports.set f (fnState s f, g, rd s F.MGT_RESTORE_STATE_EPOCH) } }
  syncReports (wr s F.MGT_REPORT_GEN g)

/-- Change a function's state: its register, the FUNC entry of supervisor core 0 (Table 17-5), its report (R425), and vector 6 of both
ports when it reaches RUN, STOPPED or UNAVAILABLE (Table 14-4). -/
def setFn (s : State) (f st : Nat) : State :=
  let s := postReports (emberPut (wr s (fnFld f) st) (U.sup 0) 5 f 0 false 0 st) [f]
  if st = fnSTOPPING then s else raiseVec (raiseVec s 0 6) 1 6

/-- The notices sticky over a ticket (Table 2-9): OR bits into the completion flags of the ticket of a key. -/
def ticketFlags (s : State) (key m : Nat) : State :=
  { s with tickets := s.tickets.map fun t => if t.key = key then { t with flags := t.flags ||| m } else t }

def findTicket (s : State) (key : Nat) : Option Ticket := s.tickets.find? (·.key == key)

def updTicket (s : State) (key : Nat) (f : Ticket → Ticket) : State :=
  { s with tickets := s.tickets.map fun t => if t.key = key then f t else t }

/-! ### Dispatchers and their commands -/

def getDisp (s : State) (h : Nat) : Disp := s.disps.get Disp.blank h
def setDisp (s : State) (h : Nat) (d : Disp) : State := { s with disps := s.disps.set h d }

/-- The command of a sequence number on a dispatcher (R135). -/
def findCmd (s : State) (h seq : Nat) : Option Cmd := (getDisp s h).cmds.find? (·.seq == seq)

def updCmd (s : State) (h seq : Nat) (f : Cmd → Cmd) : State :=
  let d := getDisp s h
  setDisp s h { d with cmds := d.cmds.map fun c => if c.seq = seq then f c else c }

/-- What names a command in Ember entries (R437). -/
def cmdId (s : State) (h : Nat) (c : Cmd) : CmdId :=
  { seq := c.seq, hearth := h, ticket := match findTicket s c.ticket with | some t => t.num | none => 0 }

/-- Bytes of a command's header or body, little-endian (R137). -/
def Cmd.fld (c : Cmd) (off n : Nat) : Nat := field c.raw off n
def Cmd.opcode (c : Cmd) : Nat := c.fld 0 1
def Cmd.meMask (c : Cmd) : Nat := c.fld 2 2
def Cmd.awlMask (c : Cmd) : Nat := c.fld 4 1
def Cmd.unitMask (c : Cmd) : Nat := c.fld 5 1
def Cmd.bankMask (c : Cmd) : Nat := c.fld 6 1
/-- FLAGS.SUBN_FLUSH, SR, CHAIN, WAIT_ALL, WAIT_COMMIT (Table 6-1). -/
def Cmd.subn (c : Cmd) : Bool := bit (c.fld 1 1) 0
def Cmd.sr (c : Cmd) : Bool := bit (c.fld 1 1) 1
def Cmd.chained (c : Cmd) : Bool := bit (c.fld 1 1) 2
def Cmd.waitAll (c : Cmd) : Bool := bit (c.fld 1 1) 3
def Cmd.waitCommit (c : Cmd) : Bool := bit (c.fld 1 1) 4

/-- The attention sequencer's state as it begins to work on the keys: it loads its bias tables where there are any, or sweeps (Table 9-11). -/
def atsBegin (c : Cmd) : Nat := if c.fld 0x28 8 = 0 then 2 else 1

/-- The row engine's state while it runs a command (Table 9-16). -/
def rowBusy (c : Cmd) : Nat := match c.opcode with | 0x20 => 1 | 0x21 => 2 | _ => 3
def Cmd.outQ (c : Cmd) : Nat := c.fld 0x0C 2
def Cmd.outValid (c : Cmd) : Bool := bit c.outQ 15

/-- The part of a command's increment that its MEs charge (R58): what is left of it without its banks, cores, row engine and sequencer. -/
def Cmd.meInc (c : Cmd) : Nat :=
  if c.kind = 3 then
    c.inc - (popcount c.bankMask 8 + 3 * popcount c.awlMask 8 + (if bit c.unitMask 0 then 10 else 0) + (if bit c.unitMask 1 then 7 else 0))
  else 0

/-- The identity of a request made in the execution of a command of hearth h (R326). -/
def idDisp (h : Nat) : Nat := 0x10 + h
def idHost (p : Nat) : Nat := 0x20 + p
def idSup : Nat := 0x30
/-- What marks the writes of the Girth receive path, which goes to the near tier alone (R400; DESIGN CHOICE, log entry 109). -/
def idGirth : Nat := 0x31

def getCore (s : State) (k : Nat) : AwlCore := s.cores.get AwlCore.blank k
def setCore (s : State) (k : Nat) (c : AwlCore) : State := { s with cores := s.cores.set k c }
def updCore (s : State) (k : Nat) (f : AwlCore → AwlCore) : State := setCore s k (f (getCore s k))

/-- The number of a core: 8h + c for hearth cores, 128 + n for supervisors. -/
def coreKey : Core → Nat
  | .hearth h c => 8 * h.val + c.val
  | .sup n => 128 + n.val

end Sys2Proof.Machine
end

