-- ==== Sys2Proof/Machine/Standing.lean ====
section
/-! DEFINITION. What the Damper charges a hearth (R56 to R60): the standing charge of its awake units, its increments and its holding. -/

namespace Sys2Proof.Machine

/-! ### Charges (R56 to R59) -/

/-- Voltage in mV and nominal wave rate in M waves/s of a voltage code (R60, Table 3-2). -/
def codeMv (c : Nat) : Nat := 600 + 10 * c
def codeRate (c : Nat) : Nat :=
  if c ≤ 10 then 1200 + 35 * c else if c ≤ 20 then 1550 + 30 * (c - 10) else 1850 + 25 * (c - 20)

/-- The holding of r RP tokens at a voltage code (R56). -/
def holding (r c : Nat) : Nat := ceilDiv (r * codeMv c * codeRate c) 1480000

def vNowF (h : Nat) : Fld := F.DMP_VNOW_VNOW (h / 8) (h % 8)
def vSetF (h : Nat) : Fld := F.DMP_VSET_VSET (h / 8) (h % 8)

/-- The voltage code at which a hearth is charged: while a raise is in progress, already the new one (R70). -/
def chargeCode (s : State) (h : Nat) : Nat :=
  Nat.max (rd s (vNowF h)) (s.damper.steps.get 0 h)

/-- The standing charge of a hearth in RP tokens (R57, R59, Table 3-1): the floor, and every unit that is not power-gated. -/
def standing (s : State) (h : Nat) : Nat :=
  if s.power ≠ .run ∧ s.power ≠ .stopped then 0 else
  let banks := ((List.range 8).filter fun b => rd s (F.BNK_OWNER_OFF (16 + 8 * h + b)) == 0 && decide (fnState s h ≤ 1)).length
  let cores := ((List.range 8).filter fun c => rd s (F.AWL_STATE_STATE h c) != 0).length
  let mes := ((List.range 16).filter fun i => rd s (F.MXE_STATE_STATE h i) != 0 && rd s (F.MXE_STATE_STATE h i) != 6 &&
    decide (fnState s h ≤ 1)).length
  12 + banks + cores + mes + (if fnState s h ≤ 1 then 2 + 1 else 0)

/-- Bring a hearth's charge registers up to date with its standing charge and its increments (R56, Tables 3-11 and 3-15). -/
def recharge (s : State) (h : Nat) : State :=
  let r := standing s h + (getDisp s h).incs
  let s := wr (wr s (F.DMP_GRANT_RP_SUM h) r) (F.DMP_GRANT_HELD h) (holding r (chargeCode s h))
  wr s F.DMP_POOL_HELD ((List.range 16).foldl (fun a h => a + rd s (F.DMP_GRANT_HELD h)) 0)

/-- Every hearth's charge. -/
def rechargeAll (s : State) : State := each (List.range 16) s recharge

end Sys2Proof.Machine
end

