-- ==== Sys2Proof/Machine/Mem.lean ====
section
/-! DEFINITION. The memory of the block (R311 to R333, R377): the canonical list of bytes, the address map, and the requests
that units make, with the checks and effects of the near tier, the far tier, the host windows and the banks. -/

namespace Sys2Proof.Machine

/-! ### The list of bytes -/

/-- The near tier's first address after its end (Table 12-1). -/
def nearEnd : Nat := 0x002D00000000

/-- What an unlisted address reads as: zero, until a loss of the near tier's contents, and afterwards a free byte within the
near tier (R53, R470; DESIGN CHOICE, log entry 9). -/
def Memory.blank (gen a : Nat) : BitVec 8 := if gen = 0 ∨ nearEnd ≤ a then 0 else Config.freeByte gen a

/-- The byte that a list gives an address. -/
def cellsGet (d : BitVec 8) : List Host.Cell → Nat → BitVec 8
  | [], _ => d
  | (a', b) :: cs, a => if a' = a then b else cellsGet d cs a

/-- The list with an address's byte replaced by an entry, or, where the byte is what the address reads as unlisted, without. -/
def cellsSet (d : BitVec 8) : List Host.Cell → Nat → BitVec 8 → List Host.Cell
  | [], a, b => if b = d then [] else [(a, b)]
  | (a', b') :: cs, a, b =>
    if a < a' then (if b = d then (a', b') :: cs else (a, b) :: (a', b') :: cs)
    else if a' = a then (if b = d then cs else (a, b) :: cs)
    else (a', b') :: cellsSet d cs a b

def Memory.get (m : Memory) (a : Nat) : BitVec 8 := cellsGet (Memory.blank m.gen a) m.cells a
def Memory.set (m : Memory) (a : Nat) (b : BitVec 8) : Memory :=
  { m with cells := cellsSet (Memory.blank m.gen a) m.cells a b }

def Memory.setBytes (m : Memory) (a : Nat) : Bytes → Memory
  | [] => m
  | b :: bs => Memory.setBytes (m.set a b) (a + 1) bs

def Memory.getBytes (m : Memory) (a n : Nat) : Bytes := (List.range n).map fun i => m.get (a + i)

/-- Addresses strictly rise. -/
def cellsSorted : List Host.Cell → Bool
  | [] => true
  | [_] => true
  | (a, _) :: (a', b') :: cs => decide (a < a') && cellsSorted ((a', b') :: cs)

/-- The canonical form: addresses strictly rising, no entry equal to what an unlisted address reads as. -/
def Memory.wf (m : Memory) : Bool := cellsSorted m.cells && m.cells.all fun c => c.2 != Memory.blank m.gen c.1

/-- A loss of the near tier's contents: its entries go, and its bytes become free values of a new generation (DESIGN CHOICE, log entry 9). -/
def Memory.loseNear (m : Memory) (g : Nat) : Memory :=
  { cells := m.cells.filter fun c => decide (nearEnd ≤ c.1), gen := g + 1 }

/-- Drop the entries of a range, which then reads as blank: a range of banks reads zero. -/
def Memory.clear (m : Memory) (a n : Nat) : Memory :=
  { m with cells := m.cells.filter fun c => decide (c.1 < a) || decide (a + n ≤ c.1) }

/-- The byte at an address of the device (after the aliases of R333 are resolved). -/
def peek (s : State) (a : Nat) : BitVec 8 := s.mem.get a
def peekBytes (s : State) (a n : Nat) : Bytes := s.mem.getBytes a n
def peekNat (s : State) (a n : Nat) : Nat := leNat (peekBytes s a n)
def poke (s : State) (a : Nat) (d : Bytes) : State := { s with mem := s.mem.setBytes a d }

/-! ### The address map (R311) -/

/-- A region of Table 12-1 that an address can lie in; `mode` is 0 plain, 1 set, 2 clear. -/
inductive Region where
  | near
  | far (n : Nat)
  | host (p : Nat)
  | shared (mode : Nat)
  | hearth (h mode : Nat)
  | control
  deriving DecidableEq, Repr

/-- Size of far-tier port n's region (R322). -/
def farSize (s : State) (n : Nat) : Nat := rd s (F.CXL_ID_CAP_256M n) * 0x10000000

/-- First address and size of a region. -/
def Region.range (s : State) : Region → Nat × Nat
  | .near => (0, nearEnd)
  | .far n => (0x010000000000 + n * 0x010000000000, farSize s n)
  | .host p => (0x100000000000 + p * 0x100000000000, 0x100000000000)
  | .shared k => (0xF00000000000 + k * 0x40000000, 0x08000000)
  | .hearth h k => (0xF00010000000 + k * 0x40000000 + h * 0x01000000, 0x01000000)
  | .control => (0xF000F0000000, 0x1000)

/-- The region of an address; none where it is unmapped. -/
def regionOf (s : State) (a : Nat) : Option Region :=
  if a < nearEnd then some .near
  else if 0x010000000000 ≤ a ∧ a < 0x050000000000 then
    let n := a / 0x010000000000 - 1
    if a % 0x010000000000 < farSize s n then some (.far n) else none
  else if 0x100000000000 ≤ a ∧ a < 0x300000000000 then some (.host (a / 0x100000000000 - 1))
  else if 0xF00000000000 ≤ a ∧ a < 0xF000C0000000 then
    let k := (a - 0xF00000000000) / 0x40000000
    let x := (a - 0xF00000000000) % 0x40000000
    if x < 0x08000000 then some (.shared k)
    else if 0x10000000 ≤ x ∧ x < 0x20000000 then some (.hearth ((x - 0x10000000) / 0x01000000) k)
    else none
  else if 0xF000F0000000 ≤ a ∧ a < 0xF000F0001000 then some .control
  else none

/-- Every byte of a range lies in one region (R144, R153, R187, R202); an empty range lies in any. -/
def inOneRegion (s : State) (a n : Nat) : Bool :=
  n == 0 || match regionOf s a with
    | none => false
    | some r => let q := r.range s; decide (q.1 ≤ a) && decide (a + n ≤ q.1 + q.2)

/-- The bank of an address and the plain address behind it (R325, R333). -/
def bankOf (s : State) (a : Nat) : Option (Nat × Nat × Nat) :=
  match regionOf s a with
  | some (.shared k) => let p := a - k * 0x40000000; some ((p - 0xF00000000000) / 0x800000, p, k)
  | some (.hearth h k) =>
    let p := a - k * 0x40000000
    some (16 + 8 * h + (p - 0xF00010000000 - h * 0x01000000) / 0x200000, p, k)
  | _ => none

/-- First device address of bank n and its size. -/
def bankBase (n : Nat) : Nat :=
  if n < 16 then 0xF00000000000 + n * 0x800000 else 0xF00010000000 + (n - 16) / 8 * 0x01000000 + (n - 16) % 8 * 0x200000
def bankSize (n : Nat) : Nat := if n < 16 then 0x800000 else 0x200000

/-- The controller of a near-tier address (R313). -/
def controllerOf (a : Nat) : Nat := let g := a / 2048; (g + 5 * (g / 24)) % 24

/-- The controller-local data offset of a near-tier address (R313). -/
def localOffset (a : Nat) : Nat := a / 2048 / 24 * 2048 + a % 2048

/-- The near-tier address of a controller-local data offset (the inverse of R313). -/
def nearAddr (c off : Nat) : Nat :=
  let q := off / 2048
  (q * 24 + (c + 24 * (5 * q) - 5 * q) % 24) * 2048 + off % 2048

/-- The memory die and function of a controller. -/
def dieOf (c : Nat) : Nat := if c < 12 then 0 else 1

/-- A near-tier page of 64 KiB is read-only (R320). -/
def readOnlyPage (s : State) (a : Nat) : Bool :=
  match s.image with
  | none => false
  | some i => i.roSecs.any fun r => decide (0 < r.2) && decide (r.1 / 65536 ≤ a / 65536) && decide (a / 65536 ≤ (r.1 + r.2 - 1) / 65536)

/-- The mirror or the return region holds an address: while Girth is enabled only its receive path writes there (R400). -/
def girthRegion (s : State) (a : Nat) : Bool :=
  let within (b n : Fld) : Bool := decide (rd s b * 65536 ≤ a) && decide (a < (rd s b + rd s n) * 65536)
  rd s F.GRT_CFG_ENABLE == 1 &&
    (within F.GRT_MIRROR_BASE_64K F.GRT_MIRROR_SIZE_64K || within F.GRT_RETURN_BASE_64K F.GRT_RETURN_SIZE_64K)

/-- How a request ends: it is served, it fails with a code, or it waits (R46, R319, R332). -/
inductive Req (α : Type) where
  | ok (v : α)
  | fail (code : Nat)
  | wait
  deriving DecidableEq, Repr

/-! ### The outer code (R314 to R317) -/

/-- Flipped bits in the symbols of a near-tier sector: symbol (its 64 bytes, then its check bytes) and what has been added to it. -/
def sectorErrs (s : State) (sec : Nat) : List (Nat × Nat) := (s.symErr.filter fun e => e.1 / 68 == sec / 64).map fun e => (e.1 % 68, e.2)

/-- The flipped bits of a sector are gone: it has been written, or rewritten. -/
def healSector (s : State) (sec : Nat) : State := { s with symErr := s.symErr.filter fun e => e.1 / 68 != sec / 64 }

/-- The 68 symbols that the device holds of a sector (R315). -/
def storedWord (s : State) (sec : Nat) : List Nat :=
  let d := (peekBytes s sec 64).map BitVec.toNat
  repair (d ++ checkBytes d) (sectorErrs s sec)

/-- Write near-tier bytes before any controller takes requests: sectors that are written whole have fresh check bytes and no poison. -/
def overwrite (s : State) (a : Nat) (d : Bytes) : State :=
  let whole (sec : Nat) : Bool := decide (a ≤ sec) && decide (sec + 64 ≤ a + d.length)
  poke { s with poison := s.poison.filter fun x => !whole x, symErr := s.symErr.filter fun e => !whole (e.1 / 68 * 64) } a d

/-- A byte of the device space of controller c (R314): groups of 15 data sectors with their check sector, whose last words are the poison
bits and a reserved one. -/
def deviceByte (s : State) (c a : Nat) : Nat :=
  let g := a / 1024
  let o := a % 1024
  let sec (i : Nat) : Nat := nearAddr c (64 * (15 * g + i))
  if o < 960 then (storedWord s (sec (o / 64))).getD (o % 64) 0
  else if o < 1020 then (storedWord s (sec ((o - 960) / 4))).getD (64 + (o - 960) % 4) 0
  else if o < 1022 then
    (List.range 8).foldl (fun w k => let i := 8 * (o - 1020) + k; if decide (i < 15) && s.poison.contains (sec i) then w + 2 ^ k else w) 0
  else 0

/-- A stored sector is read (R315 to R317): what the decoder makes of its word in the mode of its die. Returns the code, 0 for good data.
DEDUCED (log entry 10). -/
def eccRead (s : State) (sec : Nat) (scrub : Bool) (cmd : Option CmdId) : State × Nat :=
  if (sectorErrs s sec).isEmpty then (s, 0) else
  let c := controllerOf sec
  let w := storedWord s sec
  let rewrite (s : State) (w : List Nat) : State := healSector (poke s sec ((w.take 64).map (BitVec.ofNat 8))) sec
  match eccDecode (rd s (F.MEM_CFG_ECC_MODE (dieOf c))) w with
  | .good => (rewrite s w, 0)
  | .fixed es =>
    let s := satAdd (wr (rewrite s (repair w es)) (F.MEM_ERR_CORR c) 1) (F.MEM_ERR_CORR_COUNT c) 1
    (emberCode (cntMem (cntMem s (dieOf c) 10 1) (dieOf c) 1 1) (U.gddr c) Code.MEM_CORR cmd, 0)
  | .bad =>
    let s := { s with poison := if s.poison.contains sec then s.poison else s.poison ++ [sec] }
    let s := wr (wr s (F.MEM_ERR_ADDR_ADDR c) sec) (F.MEM_ERR_ADDR_KIND c) (if scrub then 2 else 1)
    let s := satAdd (wr s (F.MEM_ERR_UNCORR c) 1) (F.MEM_ERR_UNCORR_COUNT c) 1
    let s := cntMem s (dieOf c) 11 1
    if scrub then (emberCode (wr s (F.MEM_ERR_SCRUB_POISON c) 1) (U.gddr c) Code.MEM_SCRUB_POISON cmd, Code.MEM_SCRUB_POISON)
    else (emberCode s (U.gddr c) Code.MEM_UNCORR cmd, Code.MEM_UNCORR)

/-- A failing access of a bank by a non-owner (R327). -/
def ownerFault (s : State) (n who a : Nat) (write : Bool) : State :=
  let s := wr (wr (wr s F.BNK_FAULT_BANK n) F.BNK_FAULT_INITIATOR who) F.BNK_FAULT_WRITE (if write then 1 else 0)
  wr (wr s F.BNK_FAULT_ADDR_ADDR a) F.BNK_EVENT_OWNER_FAULT 1

/-- The function of bank n's hearth. -/
def bankHearth (n : Nat) : Nat := if n < 16 then n else (n - 16) / 8

/-- The checks that a request meets at its target, and their effects, for the bytes a .. a+n-1 of one 64-byte sector: R317 and
R319 for the near tier, R324 for the far tier, R377 for the host windows, R327 and R332 for the banks, R46 for stopped functions.
A write of the whole sector needs no read of it (R317). DEDUCED (log entry 53). -/
def access (s : State) (who a n : Nat) (write : Bool) (cmd : Option CmdId) : State × Req Unit :=
  let sec := a / 64 * 64
  match regionOf s a with
  | none => (s, .fail Code.ADDR_UNMAPPED)
  | some .control => (s, .fail Code.ADDR_UNMAPPED)
  | some .near =>
    let c := controllerOf a
    let d := dieOf c
    if fnState s (0x11 + d) = fnSTOPPED ∧ isRun s then (cntMem s d 12 1, .wait)
    else if s.lostGddr.contains d || rd s (F.MEM_STATE_STATE c) == 2 then (s, .fail Code.MEM_LINK)
    else if rd s (F.MEM_STATE_STATE c) = 1 then (cntMem s d 12 1, .wait)
    else if write && (readOnlyPage s a || (girthRegion s a && who != idGirth)) then (s, .fail Code.MEM_READONLY)
    else if write && n == 64 then
      (cntMem (healSector { s with poison := s.poison.filter (· != sec) } sec) d 1 1, .ok ())
    else if s.poison.contains sec then
      (wr (wr s (F.MEM_ERR_ADDR_ADDR c) sec) (F.MEM_ERR_ADDR_KIND c) 3, .fail Code.MEM_POISON)
    else
      match eccRead s sec false cmd with
      | (s, 0) => (cntMem s d (if write then 1 else 0) 1, .ok ())
      | (s, code) => (s, .fail code)
  | some (.far k) =>
    if rd s (F.CXL_STATE_STATE k) ≠ 2 then
      (if fnState s (0x30 + k) = fnSTOPPED ∧ isRun s then (s, .wait) else (s, .fail Code.FAR_LINK))
    else if fnState s (0x30 + k) = fnSTOPPED ∧ isRun s then (s, .wait)
    else if !write && s.farPoison.contains sec then
      let s := satAdd (wr s (F.CXL_ERR_POISON k) 1) (F.CXL_ERR_POISON_COUNT k) 1
      (wr s (F.CXL_ERR_ADDR_ADDR k) sec, .fail Code.FAR_POISON)
    else (cntIo (if write then { s with farPoison := s.farPoison.filter (· != sec) } else s) (if write then 4 + k else k) 1, .ok ())
  | some (.host p) =>
    if fnState s (0x34 + p) = fnSTOPPED ∧ isRun s then (s, .wait)
    else if rd s (F.HIF_PORT_STATE p) ≠ 2 then (raiseVec s p 4, .fail Code.HOST_LINK)
    else if rd s (F.HIF_PORT_BME p) = 0 ∨ (s.ports.get PciPort.blank p).d3hot then (raiseVec s p 4, .fail Code.HOST_ACCESS)
    else if !write && s.hostBad.get 0 sec == 1 then (raiseVec s p 4, .fail Code.HOST_ACCESS)
    else if !write && s.hostBad.get 0 sec == 2 then (raiseVec s p 4, .fail Code.HOST_POISON)
    else (cntIo s (if write then 10 + p else 8 + p) 1, .ok ())
  | some _ =>
    match bankOf s a with
    | none => (s, .fail Code.ADDR_UNMAPPED)
    | some (b, p, _) =>
      if rd s (F.BNK_OWNER_OWNER b) ≠ who ∨ who = 0 then (ownerFault s b who p write, .fail Code.OWNER_FAULT)
      else if rd s (F.BNK_OWNER_CLEARING b) = 1 then (s, .wait)
      else if 16 ≤ b ∧ fnState s (bankHearth b) = fnSTOPPED ∧ isRun s then (s, .wait)
      else (s, .ok ())

/-- The plain address behind an address. -/
def plainAddr (s : State) (a : Nat) : Nat := match bankOf s a with | some (_, p, _) => p | none => a

/-- Read n bytes from a, sector by sector in ascending order; the first sector that fails or waits ends the request. `fuel`
bounds the number of sectors. -/
def readFrom (s : State) (who : Nat) (cmd : Option CmdId) : Nat → Nat → Nat → State × Req Bytes
  | 0, _, _ => (s, .ok [])
  | fuel + 1, a, n =>
    if n = 0 then (s, .ok []) else
    let k := min n (64 - a % 64)
    match access s who a k false cmd with
    | (s, .fail c) => (s, .fail c)
    | (s, .wait) => (s, .wait)
    | (s, .ok _) =>
      let d := peekBytes s (plainAddr s a) k
      match readFrom s who cmd fuel (a + k) (n - k) with
      | (s, .ok ds) => (s, .ok (d ++ ds))
      | r => r

/-- A request to read n bytes from device address a under an identity (R312, R326). -/
def memRead (s : State) (who a n : Nat) (cmd : Option CmdId) : State × Req Bytes := readFrom s who cmd (n + 1) a n

/-- What a write of bytes leaves in a bank: the set and clear addresses OR or clear (R333). -/
def mergeAlias (s : State) (a : Nat) (d : Bytes) : Bytes :=
  match bankOf s a with
  | some (_, p, 1) => (peekBytes s p d.length).zipWith (· ||| ·) d
  | some (_, p, 2) => (peekBytes s p d.length).zipWith (fun x y => x &&& ~~~y) d
  | _ => d

/-- DESIGN CHOICE (log entry 24). -/
def writeTo (s : State) (who : Nat) (cmd : Option CmdId) : Nat → Nat → Bytes → State × Req Unit
  | 0, _, _ => (s, .ok ())
  | fuel + 1, a, d =>
    if d.length = 0 then (s, .ok ()) else
    let k := min d.length (64 - a % 64)
    match access s who a k true cmd with
    | (s, .ok _) =>
      let s := poke s (plainAddr s a) (mergeAlias s a (d.take k))
      writeTo s who cmd fuel (a + k) (d.drop k)
    | r => r

/-- A request to write bytes at device address a under an identity (R312, R326). DESIGN CHOICE (log entry 72). -/
def memWrite (s : State) (who a : Nat) (d : Bytes) (cmd : Option CmdId) : State × Req Unit :=
  writeTo s who cmd (d.length + 1) a d

/-! ### Bank ownership (R325 to R332) -/

/-- Table 12-5: bank n may hold this owner. DEDUCED (log entry 48). -/
def ownerAllowed (n owner : Nat) : Bool :=
  owner == 0 || owner == 0x30 ||
  (decide (0x10 ≤ owner) && decide (owner ≤ 0x1F) && (decide (n < 16) || owner - 0x10 == (n - 16) / 8)) ||
  ((owner == 0x20 || owner == 0x21) && decide (n < 16))

/-- Start a clear of bank n: it waits at `CLEARING` until BANK_CLEAR_COMPLETE (R332). -/
def wakeBank (s : State) (n : Nat) : State :=
  wr (wr { s with mem := s.mem.clear (bankBase n) (bankSize n) } (F.BNK_OWNER_OFF n) 0) (F.BNK_OWNER_CLEARING n) 1

/-- Set a bank's owner with the power-off and wake rules of R330 and R332; the standing charge of its hearth follows (R57). -/
def setOwner (s : State) (n owner : Nat) : State :=
  let old := rd s (F.BNK_OWNER_OWNER n)
  let s' := wr s (F.BNK_OWNER_OWNER n) owner
  if n < 16 ∨ old = owner then s'
  else if owner = 0 then recharge (wr (wr s' (F.BNK_OWNER_OFF n) 1) (F.BNK_OWNER_CLEARING n) 0) (bankHearth n)
  else if old = 0 ∧ fnState s (bankHearth n) ≤ 1 then recharge (wakeBank s' n) (bankHearth n)
  else s'

/-- The refusal conditions of a handover word of an identity (R328). -/
def handoverRefused (s : State) (who w : Nat) : Bool :=
  let n := bits w 0 8
  let owner := bits w 8 8
  decide (143 < n) || decide (w / 65536 ≠ 0) || !ownerAllowed n owner ||
    (who != rd s (F.BNK_OWNER_OWNER n) && who != idSup)

/-- A handover word reaches the bank control region (R328 to R330): 0 when it is taken, else the code. DEDUCED (log entry 48). -/
def handover (s : State) (who w : Nat) : State × Nat :=
  if handoverRefused s who w then (s, Code.OWNER_FAULT) else (setOwner s (bits w 0 8) (bits w 8 8), 0)

/-! ### The tack path (R154, R187, R328) -/

/-- A tack-path write, the bank control region included (R328). -/
def tackWrite (s : State) (who a : Nat) (d : Bytes) (cmd : Option CmdId) : State × Req Unit :=
  if regionOf s a = some .control ∧ d.length ≠ 0 then
    if a = 0xF000F0000000 ∧ d.length = 8 then
      match handover s who (leNat d) with
      | (s, 0) => (s, .ok ())
      | (s, c) => (s, .fail c)
    else (s, .fail Code.ADDR_UNMAPPED)
  else memWrite s who a d cmd

/-- A tack-path read; 8 bytes at 0xF000_F000_0400 + 8n return `BNK_OWNER_n` (R328). -/
def tackRead (s : State) (who a n : Nat) (cmd : Option CmdId) : State × Req Bytes :=
  if regionOf s a = some .control ∧ n ≠ 0 then
    let k := (a - 0xF000F0000400) / 8
    if 0xF000F0000400 ≤ a ∧ a % 8 = 0 ∧ k < 144 ∧ n = 8 then (s, .ok (leBytes 8 (regVal s (0x1B0100 + 8 * k)).toNat))
    else (s, .fail Code.ADDR_UNMAPPED)
  else memRead s who a n cmd

end Sys2Proof.Machine
end

