-- ==== Sys2Proof/Machine/Desc.lean ====
section
/-! DEFINITION. Tensor references, tensor descriptors and scale records (R90, R139, R143, R144): their fields, their checks and
the element addresses they give. -/

namespace Sys2Proof.Machine

/-- A tensor descriptor (Table 6-5), after slicing when it has SLICED set (R144). Sizes and strides are lists by dim; stride 0 is
the element step of dim 0 and is not used. -/
structure Desc where
  base : Nat
  fmt : Nat
  rank : Nat
  layout : Nat
  blockDim : Nat
  sliced : Bool
  sizes : List Nat
  strides : List Nat
  scalePtr : Nat
  expBase : Nat
  deriving DecidableEq, Repr

/-- Read a descriptor's 128 bytes (Table 6-5). -/
def Desc.parse (b : Bytes) : Desc :=
  let rank := field b 9 1
  { base := field b 0 8, fmt := field b 8 1, rank := rank, layout := field b 0xA 1, blockDim := field b 0xB 1,
    sliced := bit (field b 0xC 1) 0,
    sizes := (List.range rank).map fun i => field b (0x10 + 4 * i) 4,
    strides := (List.range rank).map fun i => if i = 0 then 0 else field b (0x28 + 8 * (i - 1)) 8,
    scalePtr := field b 0x50 8, expBase := field b 0x58 8 }

def Desc.size (d : Desc) (i : Nat) : Nat := if i < d.rank then d.sizes.getD i 0 else 1
def Desc.stride (d : Desc) (i : Nat) : Nat := d.strides.getD i 0

def Desc.format (d : Desc) : Option Fmt := Fmt.ofCode d.fmt

/-- The number of elements; 0 for rank 0. -/
def Desc.count (d : Desc) : Nat := if d.rank = 0 then 0 else d.sizes.foldl (· * ·) 1

/-- Bytes of one line along dim 0: packed elements, or whole interleaved blocks (R82, R88). -/
def Desc.lineBytes (d : Desc) : Nat :=
  match d.format with
  | none => 0
  | some f =>
    if f.isDq && d.layout == 0 then ceilDiv (d.size 0) 32 * (if f = .dq4 then 17 else 33)
    else ceilDiv (d.size 0 * f.bits) 8

/-- One past the last byte of the elements, from BASE (0 for an empty tensor). -/
def Desc.span (d : Desc) : Nat :=
  if d.count = 0 then 0 else
  d.lineBytes + ((List.range d.rank).foldl (fun a i => if i = 0 then a else a + (d.size i - 1) * d.stride i) 0)

/-- The extent of a dim in the exponent plane (R143). -/
def Desc.planeExt (d : Desc) (i : Nat) : Nat := if i = d.blockDim then ceilDiv (d.size i) 32 else d.size i
/-- The plane stride of a dim (R143). -/
def Desc.planeStride (d : Desc) (i : Nat) : Nat := (List.range i).foldl (fun a j => a * d.planeExt j) 1
/-- Bytes of the exponent plane. -/
def Desc.planeBytes (d : Desc) : Nat := if d.count = 0 then 0 else d.planeStride d.rank

/-- `DESC_FORMAT`, by the list of R144. -/
def descFormatBad (b : Bytes) : Bool :=
  let d := Desc.parse b
  let rank := d.rank
  let dq := d.fmt == 0x20 || d.fmt == 0x21
  let es := match d.format with | some f => max 1 (f.bits / 8) | none => 1
  decide (6 < rank) || !rsvdZero b 0xD 3 || !rsvdZero b 0x60 32 || decide (2 ≤ field b 0xC 1) ||
  ((List.range 6).any fun i => decide (rank ≤ i) && (field b (0x10 + 4 * i) 4 != 0 || (i != 0 && field b (0x28 + 8 * (i - 1)) 8 != 0))) ||
  (d.blockDim != 0 && (!dq || rank == 0)) || (dq && decide (1 ≤ rank) && decide (rank ≤ d.blockDim)) ||
  (!dq && (d.base % es != 0 || d.strides.any (· % es != 0))) || (d.sliced && rank == 0)

/-- The descriptor without its last dim, at a slice (R144). -/
def Desc.slice (d : Desc) (k : Nat) : Desc :=
  let r := d.rank - 1
  { d with base := d.base + k * d.stride r, rank := r, sizes := d.sizes.take r, strides := d.strides.take r, sliced := false,
           expBase := if d.fmt ≥ 0x20 && d.layout == 1 then d.expBase + k * d.planeStride r else d.expBase }

/-! ### Scale records (R90) -/

structure ScaleRec where
  length : Nat
  margin : Nat
  qfmt : Nat
  head : Nat
  count : Nat
  scale : Nat
  pending : Nat
  status : Nat
  pendValid : Bool
  dom : Nat
  deriving DecidableEq, Repr

def ScaleRec.parse (b : Bytes) : ScaleRec :=
  { length := field b 0 2, margin := bits (field b 2 1) 0 4, qfmt := field b 3 1, head := field b 4 2, count := field b 6 2,
    scale := field b 8 4, pending := field b 0xC 4, status := field b 0x10 2, pendValid := field b 0x12 1 == 1,
    dom := field b 0x14 4 }

/-- A record breaks a rule of R90 for a tensor of format code fmt. -/
def scaleRecBad (s : State) (ptr fmt : Nat) : Bool :=
  let b := peekBytes s ptr 32
  let r := ScaleRec.parse b
  ptr % 32 != 0 || decide (1024 < r.length) || decide (16 ≤ field b 2 1) || r.qfmt != fmt ||
  (r.length != 0 && decide (r.length ≤ r.head)) || (r.length == 0 && r.head != 0) || decide (r.length < r.count) ||
  decide (128 ≤ r.status) || decide (2 ≤ field b 0x12 1) || !rsvdZero b 0x13 1 || !rsvdZero b 0x18 8 ||
  (match regionOf s ptr with
   | some .near => !inOneRegion s ptr (32 + 4 * r.length)
   | some (.shared 0) => r.length != 0
   | some (.hearth _ 0) => r.length != 0
   | _ => true)

/-- The per-tensor scale of a tensor: SCALE for integer and DQ formats of up to 8 bits, else 1.0 (R90, R97). -/
def tensorScale (s : State) (d : Desc) : Nat :=
  if d.scalePtr = 0 then fp32One else
  match d.format with
  | some .int4 => peekNat s (d.scalePtr + 8) 4
  | some .int8 => peekNat s (d.scalePtr + 8) 4
  | some .dq4 => peekNat s (d.scalePtr + 8) 4
  | some .dq8 => peekNat s (d.scalePtr + 8) 4
  | _ => fp32One

/-- Checks of a descriptor as it is named by a command (R81, R88, R90, R144): the code, or 0, and the tensor the command sees.
`slice` is that of the command or handle. -/
def checkDesc (s : State) (b : Bytes) (slice : Nat) : Nat × Desc :=
  let d := Desc.parse b
  if descFormatBad b then (Code.DESC_FORMAT, d)
  else if d.format = none then (Code.FMT_RESERVED, d)
  else
    let dq := match d.format with | some f => f.isDq | none => false
    if decide (2 ≤ d.layout) || (d.layout != 0 && !dq) || (dq && d.layout == 0 && d.blockDim != 0) then (Code.FMT_LAYOUT, d)
    else if dq && d.sliced && d.blockDim + 1 == d.rank then (Code.FMT_LAYOUT, d)
    else if !inOneRegion s d.base d.span then (Code.DESC_RANGE, d)
    else if dq && d.layout == 1 && !inOneRegion s d.expBase d.planeBytes then (Code.DESC_RANGE, d)
    else if d.sliced && decide (d.size (d.rank - 1) ≤ slice) then (Code.DESC_RANGE, d)
    else if d.scalePtr ≠ 0 ∧ scaleRecBad s d.scalePtr d.fmt then (Code.SCALE_RECORD, d)
    else (0, if d.sliced then d.slice slice else d)

/-! ### Element addresses and values -/

/-- Byte address of the line that holds an index list's dims 1 and up (dim 0 contiguous). -/
def Desc.lineAddr (d : Desc) (ix : List Nat) : Nat :=
  (List.range d.rank).foldl (fun a i => if i = 0 then a else a + ix.getD i 0 * d.stride i) d.base

/-- Byte address of a block's exponent in the plane (R143). -/
def Desc.planeAddr (d : Desc) (ix : List Nat) : Nat :=
  (List.range d.rank).foldl (fun a i => a + (if i = d.blockDim then ix.getD i 0 / 32 else ix.getD i 0) * d.planeStride i) d.expBase

/-- The bytes that one element occupies: address, number of bytes and whether it is the high nibble; for an interleaved DQ
element the address within its block. -/
def Desc.elemAddr (d : Desc) (f : Fmt) (ix : List Nat) : Nat × Nat × Nat :=
  let l := d.lineAddr ix
  let i := ix.getD 0 0
  if f.isDq && d.layout == 0 then
    if f = .dq4 then (l + i / 32 * 17 + 1 + i % 32 / 2, 1, i % 2) else (l + i / 32 * 33 + 1 + i % 32, 1, 0)
  else if f.bits = 4 then (l + i / 2, 1, i % 2)
  else (l + i * (f.bits / 8), f.bits / 8, 0)

/-- Address of the exponent byte of an element's block. -/
def Desc.expAddr (d : Desc) (f : Fmt) (ix : List Nat) : Nat :=
  if d.layout = 0 then d.lineAddr ix + ix.getD 0 0 / 32 * (if f = .dq4 then 17 else 33) else d.planeAddr ix

/-- The stored bits of an element. -/
def Desc.rawElem (s : State) (d : Desc) (f : Fmt) (ix : List Nat) : Nat :=
  let (a, n, hi) := d.elemAddr f ix
  let v := peekNat s (plainAddr s a) n
  if f.bits = 4 then bits v (4 * hi) 4 else v

/-- The exponent code of an element's block. -/
def Desc.expCode (s : State) (d : Desc) (f : Fmt) (ix : List Nat) : Nat := peekNat s (plainAddr s (d.expAddr f ix)) 1

/-- The value of an element before the per-tensor scale (R82, R83, R86). -/
def Desc.elem (s : State) (d : Desc) (f : Fmt) (ix : List Nat) : FVal :=
  let n := d.rawElem s f ix
  match f.float with
  | some ff => ff.decode n
  | none => if f.isDq then blockElem (d.expCode s f ix) (sext f.bits n) else FVal.ofInt (sext f.bits n)

/-- Write the bits of an element in place; a nibble leaves its neighbour, and the last of an odd row clears the unused one (R82, R88). -/
def Desc.setRaw (s : State) (d : Desc) (f : Fmt) (ix : List Nat) (v : Nat) : State :=
  let (a, n, hi) := d.elemAddr f ix
  let a := plainAddr s a
  if f.bits = 4 then
    let last := ix.getD 0 0 + 1 == d.size 0 && hi == 0 && !(f.isDq && d.layout == 0)
    let old := peekNat s a 1
    poke s a [BitVec.ofNat 8 (if hi = 1 then old % 16 + 16 * (v % 16) else (if last then 0 else old / 16 * 16) + v % 16)]
  else poke s a (leBytes n v)

/-- All index lists of a descriptor, dim 0 fastest. -/
def indexLists : List Nat → List (List Nat)
  | [] => [[]]
  | n :: ns => (indexLists ns).flatMap fun t => (List.range n).map fun i => i :: t

def Desc.indices (d : Desc) : List (List Nat) := if d.rank = 0 then [] else indexLists d.sizes

/-- The linear index of an element in row-major order over the logical dimensions (R102): dim 0, which is contiguous, fastest.
DEDUCED (log entry 22). -/
def Desc.linear (d : Desc) (ix : List Nat) : Nat :=
  ((List.range d.rank).foldl (fun (a : Nat × Nat) i => (a.1 + ix.getD i 0 * a.2, a.2 * d.size i)) (0, 1)).1

/-! ### Checked access to a whole tensor -/

/-- The byte ranges of a tensor's lines, and of its exponent plane. -/
def Desc.ranges (d : Desc) : List (Nat × Nat) :=
  if d.count = 0 then [] else
  ((indexLists (1 :: d.sizes.drop 1)).map fun ix => (d.lineAddr ix, d.lineBytes)) ++
    (if d.fmt ≥ 0x20 && d.layout == 1 then [(d.expBase, d.planeBytes)] else [])

/-- The bytes of part of a two-dimensional tensor: the indices k0 .. k0+n0-1 of dim 0 on the lines j0 .. j0+nj-1 of dim 1, with the exponents
of their blocks. -/
def Desc.partRanges (d : Desc) (k0 n0 j0 nj : Nat) : List (Nat × Nat) :=
  match d.format with
  | none => []
  | some f =>
    if n0 = 0 then [] else
    let lines := (List.range nj).map (j0 + ·)
    if f.isDq && d.layout == 0 then
      lines.map fun j => (d.expAddr f [k0, j], ceilDiv n0 32 * if f = .dq4 then 17 else 33)
    else
      (lines.map fun j => ((d.elemAddr f [k0, j]).1, ceilDiv (n0 * f.bits) 8)) ++
        if f.isDq then
          (lines.filter fun j => d.blockDim == 0 || j % 32 == 0).map fun j => (d.planeAddr [k0, j], if d.blockDim = 0 then ceilDiv n0 32 else n0)
        else []

/-- Bytes of a tensor of a format on the wire: packed elements, then one exponent a block (R291). -/
def Desc.wireSize (d : Desc) : Nat :=
  match d.format with
  | none => 0
  | some f => ceilDiv (d.count * f.bits) 8 + if f.isDq then d.planeBytes else 0

/-- The memory dies whose controllers serve near-tier bytes of ranges (R46, R313). -/
def diesOf (rs : List (Nat × Nat)) : List Nat :=
  [0, 1].filter fun d => rs.any fun r => r.2 != 0 && decide (r.1 < nearEnd) &&
    (List.range (min 24 ((r.1 + r.2 - 1) / 2048 - r.1 / 2048 + 1))).any fun i => dieOf (controllerOf (r.1 + 2048 * i)) == d

/-- Work of the Stitch, Burnish or Saddlebag units on ranges of bytes may begin: every memory die that it needs runs (R44, R46). -/
def dieTakes (s : State) (rs : List (Nat × Nat)) : Bool :=
  (fnState s 0x11 == fnRUN && fnState s 0x12 == fnRUN) || (diesOf rs).all fun d => fnState s (0x11 + d) == fnRUN

/-- Make the requests for ranges of bytes in order; the first that fails or waits ends them. Sectors that the request reaches
are touched as reads or writes (R312, R317, R326). -/
def touchFrom (s : State) (who : Nat) (write : Bool) (cmd : Option CmdId) : Nat → Nat → Nat → State × Req Unit
  | 0, _, _ => (s, .ok ())
  | fuel + 1, a, n =>
    if n = 0 then (s, .ok ()) else
    let k := min n (64 - a % 64)
    match access s who a k write cmd with
    | (s, .ok _) => touchFrom s who write cmd fuel (a + k) (n - k)
    | r => r

/-- As `touchFrom` for writes, going on past what waits. -/
def holesFrom (s : State) (who : Nat) (cmd : Option CmdId) : Nat → Nat → Nat → State × Req (List (Nat × Nat))
  | 0, _, _ => (s, .ok [])
  | fuel + 1, a, n =>
    if n = 0 then (s, .ok []) else
    let k := min n (64 - a % 64)
    match access s who a k true cmd with
    | (s, .fail c) => (s, .fail c)
    | (s, r) =>
      match holesFrom s who cmd fuel (a + k) (n - k) with
      | (s, .ok xs) => (s, .ok (if r = .wait then (a, k) :: xs else xs))
      | q => q

/-- Make the requests for the writes of ranges of bytes in order; the first that fails ends them. The answer names the parts that wait,
as address and length: the others proceed (R46). -/
def touchWrites (s : State) (who : Nat) (cmd : Option CmdId) : List (Nat × Nat) → State × Req (List (Nat × Nat))
  | [] => (s, .ok [])
  | (a, n) :: rs =>
    match holesFrom s who cmd (n / 64 + 2) a n with
    | (s, .ok xs) =>
      match touchWrites s who cmd rs with
      | (s, .ok ys) => (s, .ok (xs ++ ys))
      | r => r
    | r => r

def touchRanges (s : State) (who : Nat) (write : Bool) (cmd : Option CmdId) : List (Nat × Nat) → State × Req Unit
  | [] => (s, .ok ())
  | (a, n) :: rs =>
    match touchFrom s who write cmd (n / 64 + 2) a n with
    | (s, .ok _) => touchRanges s who write cmd rs
    | r => r

/-- A unit makes the requests of an update of its own in the near tier, for no command: the code of the one that fails, or 0. One that must wait
counts as made, for nobody can read what it writes until the wait is over (R46, R317). DESIGN CHOICE (log entry 109). -/
def unitTouch (s : State) (rs : List (Nat × Nat)) : State × Nat :=
  match touchRanges s idSup true none (rs.filter fun r => decide (r.1 < nearEnd)) with
  | (s, .fail code) => (s, code)
  | (s, _) => (s, 0)

/-- A unit's own update is made, unless one of its requests fails (R317). -/
def unitUpdate (s : State) (rs : List (Nat × Nat)) (k : State → State) : State :=
  match unitTouch s rs with
  | (s, 0) => k s
  | (s, _) => s

end Sys2Proof.Machine
end

