-- ==== Sys2Proof/Machine/Params.lean ====
section
/-! DEFINITION. Ticket fields (Table 2-7), the parameter directory and parameter records (R280 to R285, R303, R304). -/

namespace Sys2Proof.Machine

/-! ### Ticket fields (Table 2-7) -/

def Ticket.prio (t : Ticket) : Nat := bits (field t.raw 0xA 1) 0 3
def Ticket.intr (t : Ticket) : Bool := bit (field t.raw 0xB 1) 0
def Ticket.eval (t : Ticket) : Bool := bit (field t.raw 0xB 1) 1
def Ticket.stepCount (t : Ticket) : Nat := field t.raw 0xC 4
def Ticket.ticketSeed (t : Ticket) : BitVec 64 := BitVec.ofNat 64 (field t.raw 0x10 8)
def Ticket.bufTable (t : Ticket) : Nat := field t.raw 0x18 8
def Ticket.bufCount (t : Ticket) : Nat := field t.raw 0x20 1
def Ticket.firstStep (t : Ticket) : Nat := field t.raw 0x24 4
def Ticket.recordAddr (t : Ticket) : Nat := field t.raw 0x28 8
def Program.training (p : Program) : Bool := bit p.flags 0
def Program.evalOnly (p : Program) : Bool := bit p.flags 1

/-- Step index of step k (R50, R102): FIRST_STEP + k for TRAINING programs, else FIRST_STEP. -/
def Ticket.stepIndex (t : Ticket) (k : Nat) : Nat := if t.prog.training then (t.firstStep + k) % 2 ^ 32 else t.firstStep

/-! ### The parameter directory -/

/-- Near-tier address of entry i of the parameter directory, and the record listed there (Table 11-20). -/
def pdirCount (s : State) : Nat := rd s F.BUR_PDIR_COUNT
def pdirRecord (s : State) (i : Nat) : Nat := peekNat s (rd s F.BUR_PDIR_BASE_64 * 64 + 8 * i) 8
def pdirRecords (s : State) : List Nat := (List.range (pdirCount s)).map (pdirRecord s)

/-- The listed record that a view address belongs to, and whether it means the forward copy. -/
def viewOf (s : State) (a : Nat) : Option (Nat × Bool) :=
  if pdirCount s = 0 then none else
  let ls := pdirRecords s
  if 0x200 ≤ a ∧ ls.contains (a - 0x200) then some (a - 0x200, true)
  else if 0x100 ≤ a ∧ ls.contains (a - 0x100) then some (a - 0x100, false) else none

/-- Descriptor address of a record's working or forward copy in a slot (Table 11-1). -/
def viewDesc (s : State) (r : Nat) (fwd : Bool) (slot : Nat) : Nat := peekNat s (r + (if fwd then 0x40 else 0x30) + 8 * slot) 8

/-! ### Records (Table 11-1) -/

def recPtr (s : State) (r o : Nat) : Nat := peekNat s (r + o) 8
def recLive (s : State) (r : Nat) : Nat := peekNat s (r + 0x70) 1 % 2
def recOther (s : State) (r : Nat) : Nat := 1 - recLive s r
def recPend (s : State) (r : Nat) : Nat := peekNat s (r + 0x71) 1
def recHold (s : State) (r slot : Nat) : Nat := peekNat s (r + 0x74 + 2 * slot) 2
def recStep (s : State) (r slot : Nat) : Nat := peekNat s (r + 0x78 + 4 * slot) 4
def recBc1 (s : State) (r slot : Nat) : Nat := peekNat s (r + 0x80 + 8 * slot) 4
def recBc2 (s : State) (r slot : Nat) : Nat := peekNat s (r + 0x84 + 8 * slot) 4
def recSstep (s : State) (r slot : Nat) : Nat := peekNat s (r + 0x90 + 4 * slot) 4
def recEa (s : State) (r : Nat) : Nat := peekNat s (r + 0x60) 4
def recEb (s : State) (r : Nat) : Nat := peekNat s (r + 0x64) 4
def recFirst (s : State) (r : Nat) : Nat := peekNat s (r + 0x68) 2
def recCount (s : State) (r : Nat) : Nat := peekNat s (r + 0x6A) 2
def recStride (s : State) (r : Nat) : Nat := peekNat s (r + 0x6C) 2
def recLayout (s : State) (r : Nat) : Nat := peekNat s (r + 0x6E) 1
def recOrder (s : State) (r : Nat) : Nat := peekNat s (r + 0x6F) 1

/-- The descriptor at a near-tier address, as it stands; rank 0 for address 0. -/
def descAt (s : State) (a : Nat) : Desc := Desc.parse (if a = 0 then zeros 128 else peekBytes s a 128)

/-- Tensors of a record in a slot. -/
def recMaster (s : State) (r slot : Nat) : Desc := descAt s (recPtr s r (0x00 + 8 * slot))
def recM1 (s : State) (r slot : Nat) : Desc := descAt s (recPtr s r (0x10 + 8 * slot))
def recM2 (s : State) (r slot : Nat) : Desc := descAt s (recPtr s r (0x20 + 8 * slot))
def recWork (s : State) (r slot : Nat) : Desc := descAt s (recPtr s r (0x30 + 8 * slot))
def recFwd (s : State) (r slot : Nat) : Desc := descAt s (recPtr s r (0x40 + 8 * slot))
def recGshard (s : State) (r : Nat) : Desc := descAt s (recPtr s r 0x50)
def recHasFwd (s : State) (r : Nat) : Bool := recPtr s r 0x40 != 0

/-- The position of this module in a member set, if it is a member (R279). -/
def positionIn (s : State) (first count stride : Nat) : Option Nat :=
  let me := rd s F.DEV_IDENT_MODULE_ID
  if stride = 0 ∨ me < first ∨ (me - first) % stride ≠ 0 ∨ count ≤ (me - first) / stride then none else some ((me - first) / stride)

/-- First shard-dim index of the shard of position i among p (R280); the shard ends where the next one begins. -/
def shardLo (ea p i : Nat) : Nat := min ea (32 * (i * ceilDiv ea 32 / max p 1))
def shardLen (ea p i : Nat) : Nat := shardLo ea p (i + 1) - shardLo ea p i

/-! ### Holds (R304) -/

/-- Take one hold on a slot: 0, or the code that fails its taker: the count would exceed 65,535, or the record cannot be written. -/
def takeHold (s : State) (r slot : Nat) : State × Nat :=
  let a := r + 0x74 + 2 * slot
  match unitTouch s [(a, 2)] with
  | (s, 0) =>
    let n := recHold s r slot
    if 65535 ≤ n then (wr s F.BUR_EVENT_HOLD_OVERFLOW 1, Code.HOLD_OVERFLOW) else (poke s a (leBytes 2 (n + 1)), 0)
  | r => r
def dropHold (s : State) (r slot : Nat) : State :=
  let a := r + 0x74 + 2 * slot
  unitUpdate s [(a, 2)] fun s => poke s a (leBytes 2 (recHold s r slot - 1))

/-- An EVAL step takes one hold on the live slot of every listed record (R275, R304): the code, or 0. -/
def evalTake (s : State) (ticket step : Nat) : State × Nat :=
  (pdirRecords s).foldl (fun (a : State × Nat) r =>
    if a.2 ≠ 0 then a else
    let slot := recLive a.1 r
    match takeHold a.1 r slot with
    | (s, 0) => ({ s with evalHolds := s.evalHolds ++ [(ticket, step, r, slot)] }, 0)
    | q => q) (s, 0)

/-- EVAL steps that a test selects release their holds. -/
def evalDrop (s : State) (p : Nat × Nat × Nat × Nat → Bool) : State :=
  each (s.evalHolds.filter p) { s with evalHolds := s.evalHolds.filter fun x => !p x } fun s x => dropHold s x.2.2.1 x.2.2.2

/-! ### Commit and abandonment of slots (R303) -/

/-- The commit of a step of a ticket: records with an update of it change their live slot. -/
def commitRecords (s : State) (ticket step index : Nat) : State :=
  let mine (x : Nat × Nat × Nat) : Bool := x.2.1 == ticket && x.2.2 == step
  each (s.pends.filter mine) { s with pends := s.pends.filter fun x => !mine x } fun s x =>
    unitUpdate s [(x.1 + 0x70, 40)] fun s =>
      let o := recOther s x.1
      if recPend s x.1 = 1 ∧ recSstep s x.1 o = index then poke (poke s (x.1 + 0x70) (leBytes 1 o)) (x.1 + 0x71) [0] else s

/-- Steps of a ticket are abandoned: PEND becomes 0 and the contents of slot O undefined, which is to say free. -/
def abandonRecords (s : State) (ticket : Nat) : State :=
  let mine (x : Nat × Nat × Nat) : Bool := x.2.1 == ticket
  each (s.pends.filter mine) { s with pends := s.pends.filter fun x => !mine x } fun s x =>
    let o := recOther s x.1
    let ts := [recMaster s x.1 o, recM1 s x.1 o, recM2 s x.1 o, recWork s x.1 o, recFwd s x.1 o]
    let s := unitUpdate s [(x.1 + 0x71, 1)] fun s => poke s (x.1 + 0x71) [0]
    each (ts.flatMap Desc.ranges) s fun s r =>
      let (d, s) := takeFreeBytes s r.2
      poke s r.1 d

end Sys2Proof.Machine
end

