-- ==== Sys2Proof/Machine/Charge.lean ====
section
/-! DEFINITION. The power gating of idle MEs (R59). -/

namespace Sys2Proof.Machine

/-- A dispatcher power-gates under AUTO_GATE those MEs of a mask, which finished a command or lost their last KEPT slot, that stand idle,
hold no KEPT slot and are in no ready command (R59). -/
def gateMes (s : State) (h mask : Nat) : State :=
  if rd s F.DMP_POLICY_AUTO_GATE = 0 then s else
  let wanted (i : Nat) : Bool := (getDisp s h).cmds.any fun c => c.st != .decoded && c.kind == 3 && bit c.meMask i
  let go := (maskBits mask 16).filter fun i =>
    rd s (F.MXE_STATE_STATE h i) == 2 && !(s.kept.any fun x => x.me == 16 * h + i) && !wanted i
  if go.isEmpty then s else recharge (each go s fun s i => wr s (F.MXE_STATE_STATE h i) 0) h

end Sys2Proof.Machine
end

