-- ==== Sys2Proof/Machine/Abandon.lean ====
section
/-! DEFINITION. What ends with a step: the reports of its commands into scale records, and what an abandoned step discards
(R92, R93, R408). -/

namespace Sys2Proof.Machine

/-- Merge a report into its record in one indivisible update (R91, R101, R105). -/
def mergeReport (s : State) (r : ScaleReport) : State :=
  unitUpdate s [(r.addr, 32)] fun s =>
  let c := ScaleRec.parse (peekBytes s r.addr 32)
  let s := poke s (r.addr + 0x10) (leBytes 2 (c.status ||| r.stat))
  let s := poke s (r.addr + 0x14) (leBytes 4 (c.dom + r.dom))
  match r.amax with
  | none => s
  | some a =>
    let p := if c.pendValid then fp32MaxMag c.pending a else a
    let s := poke s (r.addr + 0xC) (leBytes 4 p)
    let s := poke s (r.addr + 0x12) [1]
    let e := (r.addr, r.ticket, r.step)
    if s.scaleOpen.contains e then s else { s with scaleOpen := s.scaleOpen ++ [e] }

/-- A command's report: merged at once, or held while an earlier step of its TRAINING ticket is still open (R93). -/
def reportScale (s : State) (r : ScaleReport) (openStep : Nat) : State :=
  if openStep < r.step then { s with scaleHeld := s.scaleHeld ++ [r] } else mergeReport s r

/-- Append a record's pending report to its history and recompute SCALE, in one indivisible update (R92). -/
def appendScale (s : State) (a : Nat) : State :=
  unitUpdate s [(a, 32 + 4 * peekNat s a 2)] fun s =>
  let c := ScaleRec.parse (peekBytes s a 32)
  if !c.pendValid then s else
  let s :=
    if c.length = 0 then s else
    let s := poke s (a + 0x20 + 4 * c.head) (leBytes 4 c.pending)
    let n := min (c.count + 1) c.length
    let s := poke s (a + 4) (leBytes 2 ((c.head + 1) % c.length))
    let s := poke s (a + 6) (leBytes 2 n)
    let m := (List.range n).foldl (fun m i => fp32MaxMag m (peekNat s (a + 0x20 + 4 * i) 4)) 0
    match Fmt.ofCode c.qfmt with
    | some f =>
      if f.bits ≤ 8 ∧ 0 < m then
        let v := (fp32.decode m).shift c.margin
        let p := (fp32.round false v).1
        let (p, o) := if p = fp32.inf false then (fp32.maxFinite false, stOvf) else (p, 0)
        let q := fp32Div p (fp32.round false (FVal.ofInt f.qmax)).1
        let s := poke s (a + 8) (leBytes 4 q)
        poke s (a + 0x10) (leBytes 2 (peekNat s (a + 0x10) 2 ||| o))
      else s
    | none => s
  poke (poke s (a + 0xC) (leBytes 4 0)) (a + 0x12) [0]

/-- At the commit of a step, or at the end of another program's ticket: update every record that holds a report of it, then merge
the reports held for the next step (R92, R93). `step` none takes every step. -/
def closeScales (s : State) (ticket : Nat) (step : Option Nat) : State :=
  let mine (e : Nat × Nat × Nat) : Bool := e.2.1 == ticket && (step == none || step == some e.2.2)
  let s := each (s.scaleOpen.filter mine) { s with scaleOpen := s.scaleOpen.filter fun e => !mine e } fun s e => appendScale s e.1
  match step with
  | none => s
  | some k =>
    let next (r : ScaleReport) : Bool := r.ticket == ticket && r.step == k + 1
    each (s.scaleHeld.filter next) { s with scaleHeld := s.scaleHeld.filter fun r => !next r } mergeReport

/-- An abandoned step: clear PENDING and PEND_VALID of every record that holds its reports and append nothing; drop the reports
held for later steps of the ticket (R93). -/
def abandonScales (s : State) (ticket : Nat) : State :=
  let mine (e : Nat × Nat × Nat) : Bool := e.2.1 == ticket
  each (s.scaleOpen.filter mine)
    { s with scaleOpen := s.scaleOpen.filter (fun e => !mine e), scaleHeld := s.scaleHeld.filter fun r => r.ticket != ticket }
    fun s e => unitUpdate s [(e.1 + 0xC, 7)] fun s => poke (poke s (e.1 + 0xC) (leBytes 4 0)) (e.1 + 0x12) [0]

/-! ### Kept slots (R124, R128) -/

def slotF (h i k : Nat) : Fld := F.MXE_SLOTS_SLOT h i k
def slotFREE : Nat := 0
def slotLIVE : Nat := 1
def slotKEPT : Nat := 2
def slotREADOUT : Nat := 3

def keptAt (s : State) (me k : Nat) : Option KeptSlot := s.kept.find? fun x => x.me == me && x.slot == k

/-- Free the kept slots that a test selects: their contents are discarded (R128), and an ME without a KEPT slot may be
gated (R59). DEDUCED (log entry 94). -/
def freeKept (s : State) (p : KeptSlot → Bool) : State :=
  let gone := s.kept.filter p
  let s := each gone { s with kept := s.kept.filter fun x => !p x } fun s x => wr s (slotF (x.me / 16) (x.me % 16) x.slot) slotFREE
  if gone.isEmpty then s else each (List.range 16) s fun s h =>
    gateMes s h (gone.foldl (fun m x => if x.me / 16 = h then m ||| 1 <<< (x.me % 16) else m) 0)

/-! ### Row statistics (R256) -/

/-- `ROW_STATS` follows the memory (Table 9-18). -/
def syncStats (s : State) (h : Nat) : State :=
  let here := s.stats.filter fun x => x.hearth == h && !x.spilled && !x.rows.isEmpty
  wr (wr s (F.ROW_STATS_USED h) (here.foldl (fun a x => a + x.rows.length) 0)) (F.ROW_STATS_TAGS h) here.length

/-- Free tags that a test selects (R256). -/
def freeStats (s : State) (p : StatTag → Bool) : State :=
  each (List.range 16) { s with stats := s.stats.filter fun x => !p x } syncStats

/-! ### The stash (R262, R265, R271) -/

/-- The pages of an entry (R264). -/
def StashEntry.pages (e : StashEntry) : Nat := e.places.length

/-- Pages held by a set, near or far. -/
def setPages (s : State) (q : Nat) (far : Bool) : Nat :=
  (s.stash.filter fun e => e.quota == q && e.far == far).foldl (fun a e => a + e.pages) 0
/-- An UPDATE is at work. -/
def updating (s : State) : Bool := (List.range 16).any fun h => (getDisp s h).cmds.any fun c => c.opcode == 0x39 && c.st == .working

/-- Work of the Stitch, Burnish and Saddlebag units is under way: a collective, an UPDATE or the store of a stash entry. Such work is taken
to use both memory dies. DEDUCED (log entry 102). -/
def memWork (s : State) : Bool := !s.colls.isEmpty || s.stash.any (·.st == 0) || updating s

/-- The rail units that a memory die asks for (Table 3-3): its floor, and while such work is under way its twelve controllers and their
units of the kinds at work. DEDUCED (log entry 46). -/
def memRail (s : State) : Nat :=
  40 + 12 * ((if memWork s then 8 else 0) + (if s.colls.isEmpty then 0 else 3) + (if updating s then 4 else 0) + if s.stash.any (·.st == 0) then 3 else 0)

/-- The grants of the memory-die pools follow, up to each pool's ceiling, at which `RAIL_MEM` is set (R62, R67, Table 3-14).
DEDUCED (log entry 46). -/
def syncRails (s : State) : State :=
  let ceil (d : Nat) : Nat := min (2 * rd s F.DMP_RAILS_MEM_W) (s.damper.railCeil.get 512 d)
  let n := memRail s
  let s' := wr (wr s F.DMP_RAIL_GRANT_MEMA (min n (ceil 0))) F.DMP_RAIL_GRANT_MEMB (min n (ceil 1))
  if ceil 0 < n ∨ ceil 1 < n then wr s' F.DMP_EVENT_RAIL_MEM 1 else s'

/-- The registers of Tables 10-12 and 10-13 follow the directory. -/
def syncStash (s : State) : State :=
  let s := each (List.range 16) s fun s n =>
    wr (wr s (F.SBG_PUSE_NEAR_PAGES n) (setPages s n false)) (F.SBG_PUSE_FAR_PAGES n) (setPages s n true)
  syncRails (wr (wr s F.SBG_STATE_WAITING s.stashWait.length) F.SBG_STATE_DIR_USED s.stash.length)

/-- A unit of a kind that stands beside the memory controllers: the one whose controller serves the first near-tier byte of some ranges, else
any of them (R19). DESIGN CHOICE (log entry 34). -/
def unitAt (s : State) (unit : Nat → Nat) (rs : List (Nat × Nat)) : Nat × State :=
  match rs.find? fun r => r.2 != 0 && decide (r.1 < nearEnd) with
  | some r => (unit (controllerOf r.1), s)
  | none => let (x, s) := takeFree s; (unit (x % 24), s)

/-- The Saddlebag engine of an entry (R19, R262). -/
def saddleOf (s : State) (e : StashEntry) : Nat × State := unitAt s U.saddle (e.places.map fun p => (p * 65536, 65536))

/-- The entry of a key, unless it has been freed (R262). -/
def findStash (s : State) (ticket id micro : Nat) : Option StashEntry :=
  s.stash.find? fun e => !e.gone && e.ticket == ticket && e.id == id && e.micro == micro

/-- Count one event of a Saddlebag engine (R19, Table 17-3). -/
def saddleCount (s : State) (unit k n : Nat) : State := cntMem s (dieOf (unit - U.saddle 0)) k n

/-- Free the entries that a test selects (R271). -/
def freeStash (s : State) (p : StashEntry → Bool) : State := syncStash { s with stash := s.stash.filter fun e => !p e }

/-! ### The end of a step -/

/-- At the commit of a step: what its ticket still keeps of it is freed, with an Ember event for each (R128, R256, R271). -/
def freeOrphans (s : State) (ticket step : Nat) : State :=
  let kept := s.kept.filter fun x => x.ticket == ticket && decide (x.step ≤ step)
  let s := freeKept (each kept s fun s x => emberCode s (U.me (x.me / 16) (x.me % 16)) Code.ACC_ORPHAN none)
    fun x => x.ticket == ticket && decide (x.step ≤ step)
  let tag (x : StatTag) : Bool := x.ticket == ticket && decide (x.step ≤ step)
  let s := freeStats (each (s.stats.filter fun x => tag x && !x.rows.isEmpty) s fun s x => emberCode s (U.row x.hearth) Code.STAT_ORPHAN none)
    fun x => tag x && !x.rows.isEmpty
  let ent (e : StashEntry) : Bool := e.ticket == ticket && decide (e.step ≤ step)
  let orphan (s : State) (e : StashEntry) : State :=
    let (u, s) := saddleOf s e
    wr (emberCode s u Code.STASH_ORPHAN none) F.SBG_EVENT_ORPHAN 1
  freeStash (each (s.stash.filter fun e => ent e && !e.gone) s orphan) ent

/-- At the end of a ticket: kept slots, statistics, stash entries, holds and collectives of it are gone (R128, R256, R271, R296,
R304, R426). -/
def freeTicket (s : State) (ticket : Nat) : State :=
  let s := freeKept s fun x => x.ticket == ticket
  let s := freeStats s fun x => x.ticket == ticket
  let s := freeStash s fun e => e.ticket == ticket
  let s := evalDrop s fun x => x.1 == ticket
  let past := match findTicket s ticket with | some t => t.cancelling | none => true
  let gone (c : Coll) : Bool := c.ticket == ticket && (decide (c.kind ≤ 4) || (c.kind == 5 && past))
  let mine := s.colls.filter gone
  let s := if mine.any (·.kind == 5) then wr { s with staged := none } F.MGT_CKPT_STATE_STATE 0 else s
  { s with colls := s.colls.filter (fun c => !gone c), collEnded := s.collEnded ++ mine.map (fun c => (c.id, c.step, ticket, c.no)),
           txs := s.txs.filter fun t => !mine.any fun c => t.coll == (c.id, c.step) }

/-- A ticket's uncommitted steps are abandoned (R52, R93, R303, R408). -/
def abandonStep (s : State) (ticket : Nat) : State := abandonRecords (abandonScales s ticket) ticket

end Sys2Proof.Machine
end

