-- ==== Sys2Proof/Machine/Refs.lean ====
section
/-! DEFINITION. The tensor references of a command's body (R139, R156): where they stand, which one is the destination, and the queues that a
command names. -/

namespace Sys2Proof.Machine

/-- ATTN in paged mode (Table 9-2). -/
def kvPaged (c : Cmd) : Bool := c.opcode == 0x18 && bit (c.fld 0x38 4) 2

/-- Body offsets of an opcode's tensor references, ascending, and whether the slice field takes part. -/
def refOffsets (c : Cmd) : List Nat :=
  match c.opcode with
  | 0x10 => [0x10, 0x14, 0x18]
  | 0x11 => [0x10, 0x14, 0x18]
  | 0x12 => [0x10, 0x14]
  | 0x18 => if kvPaged c then [0x10, 0x14, 0x18, 0x1C, 0x24] else [0x10, 0x14, 0x18, 0x1C]
  | 0x20 => [0x10, 0x14, 0x18, 0x1C, 0x24]
  | 0x21 => [0x10, 0x14, 0x18, 0x1C, 0x28, 0x2C]
  | 0x28 => [0x24, 0x28, 0x2C]
  | 0x30 => [0x10]
  | 0x31 => [0x10]
  | 0x38 => [0x10, 0x30]
  | 0x3A => [0x20]
  | 0x40 => [0x20, 0x24]
  | 0x41 => [0x20, 0x24]
  | 0x42 => [0x10]
  | _ => []

/-- The body offsets of the destination reference and of its slice field (R156); none for an opcode that names no destination. A slice
offset 0 means slice 0. -/
def destOffset (c : Cmd) : Option (Nat × Nat) :=
  match c.opcode with
  | 0x10 => some (0x18, 0x20)
  | 0x11 => some (0x18, 0x20)
  | 0x12 => some (0x14, 0x1A)
  | 0x18 => some (0x1C, 0x22)
  | 0x20 => some (0x14, 0x22)
  | 0x21 => some (0x14, 0x22)
  | 0x28 => some (0x24, 0)
  | 0x31 => some (0x10, 0x14)
  | 0x38 => some (0x30, 0x2E)
  | 0x3A => if c.fld 0x18 1 = 2 then some (0x20, 0x24) else none
  | 0x40 => some (0x20, 0x28)
  | 0x41 => some (0x20, 0x28)
  | _ => none

/-- Body offset of the slice field of a reference; 0 for a reference without one. -/
def sliceOffset (c : Cmd) (o : Nat) : Nat :=
  match c.opcode, o with
  | 0x10, 0x10 => 0x1C
  | 0x10, 0x14 => 0x1E
  | 0x10, 0x18 => 0x20
  | 0x11, 0x10 => 0x1C
  | 0x11, 0x14 => 0x1E
  | 0x11, 0x18 => 0x20
  | 0x12, 0x10 => 0x18
  | 0x12, 0x14 => 0x1A
  | 0x18, 0x10 => 0x20
  | 0x18, 0x1C => 0x22
  | 0x18, 0x14 => if kvPaged c then 0 else 0x24
  | 0x18, 0x18 => if kvPaged c then 0 else 0x26
  | 0x20, 0x10 => 0x20
  | 0x20, 0x14 => 0x22
  | 0x21, 0x10 => 0x20
  | 0x21, 0x14 => 0x22
  | 0x21, 0x18 => 0x24
  | 0x30, 0x10 => 0x14
  | 0x31, 0x10 => 0x14
  | 0x38, 0x10 => 0x14
  | 0x38, 0x30 => 0x2E
  | 0x3A, 0x20 => 0x24
  | 0x40, 0x20 => 0x28
  | 0x40, 0x24 => 0x2A
  | 0x41, 0x20 => 0x28
  | 0x41, 0x24 => 0x2A
  | 0x42, 0x10 => 0x14
  | _, _ => 0

/-- References that pop a queue, as offset and queue, ascending. -/
def popRefs (c : Cmd) : List (Nat × Nat) :=
  ((refOffsets c).filter fun o => bits (c.fld o 4) 30 2 == 3).map fun o => (o, c.fld o 4 % 64)

/-- The queue that a command's put goes to: OUT_Q, or the body of a QPUT; none where it puts nothing. -/
def putQueue (c : Cmd) : Option (Nat × Nat) :=
  if c.opcode = 0x03 then some (bits (c.fld 0x10 2) 8 4, bits (c.fld 0x10 2) 0 6)
  else if c.outValid then some (bits c.outQ 8 4, bits c.outQ 0 6) else none

/-- Core k waits for a queue: for an entry, for room, or for the ticket that holds it (R156, R189). -/
def Wait.names (k h q : Nat) : Wait → Bool
  | .qput g r _ => g == h && r == q
  | .qget _ r | .qtry _ r => k / 8 == h && r == q
  | _ => false

end Sys2Proof.Machine
end

