-- ==== Sys2Proof/Machine/Tickets.lean ====
section
/-! DEFINITION. The ends of commands and tickets: completion records, failing, cancelling, queues (R51, R52, R156, R160, R161,
R172, R381). -/

namespace Sys2Proof.Machine

/-! ### Completion records (R51, R381) -/

/-- Bytes 0x00 to 0x1E of a completion record (Table 2-9). -/
def recordBytes (num status flags steps gen seq hearth progId : Nat) : Bytes :=
  leBytes 8 num ++ leBytes 2 status ++ leBytes 2 flags ++ leBytes 4 steps ++ leBytes 4 gen ++ leBytes 4 seq ++
    leBytes 1 hearth ++ [0] ++ leBytes 2 progId ++ zeros 3

/-- Write bytes as supervisor code, and then, ordered after them, a 1 in a byte that marks them whole. -/
def writeMarked (s : State) (addr : Nat) (body : Bytes) (mark : Nat) : State × Req Unit :=
  match memWrite s idSup addr body none with
  | (s, .ok _) => memWrite s idSup (addr + mark) [1] none
  | r => r

/-- A write waits until the wait at its target is over (R46). -/
def holdWrite (s : State) (w : HeldWrite) : State := { s with held := s.held ++ [w] }

/-- Write a record at an address as supervisor code, byte 0x1F last, and raise the ring's vector if INTR is set; a write that
fails under R377 sets `HIF_ERR` with `RECORD_LOST` and raises vector 4 instead, and one that must wait is made when the wait is over
(R46, R51, R381). -/
def writeRecord (s : State) (addr : Nat) (body : Bytes) (ring : Nat × Nat) (intr : Bool) : State :=
  let told (s : State) : State := if intr then raiseVec s ring.1 ring.2 else s
  match writeMarked s addr body 0x1F with
  | (t, .fail c) => if 0x0B00 ≤ c then hifErr s Code.RECORD_LOST ring.1 ring.2 addr else told t
  | (t, .wait) => holdWrite t { target := .record ring.1 ring.2 intr, who := idSup, addr := addr, data := body }
  | (t, .ok _) => told t

/-- Write an entry of the replay log: its first 63 bytes, VALID last (R422). -/
def rlogPut (s : State) (addr : Nat) (body : Bytes) : State :=
  match writeMarked s addr body 0x3F with
  | (t, .fail _) => emberCode (wr t F.MGT_RLOG_IDX_LOST 1) (U.sup 1) Code.RLOG_LOST none
  | (t, .wait) => holdWrite t { target := .rlog, who := idSup, addr := addr, data := body }
  | (t, .ok _) => t

/-- The completion record of an accepted ticket. -/
def completeRecord (s : State) (t : Ticket) : State :=
  let gen := match t.lastGen with | some g => g | none => rd s F.DEV_COMMIT_GEN_GEN
  writeRecord s t.recordAddr (recordBytes t.num t.status t.flags t.steps gen t.faultSeq t.faultHearth t.prog.id) t.ring t.intr

/-! ### Queues (R156) -/

def Disp.queue (d : Disp) (q : Nat) : HQueue := d.queues.get HQueue.blank q

/-- The occupancy registers follow the queue (Table 6-15). -/
def setQueue (s : State) (h q : Nat) (x : HQueue) : State :=
  let d := getDisp s h
  let s := setDisp s h { d with queues := d.queues.set q x }
  let s := wr s (F.HRT_QOCC_OCC h (q / 8) (q % 8)) (x.entries.length + x.reserved)
  wr s (F.HRT_QOCC_HELD h (q / 8) (q % 8)) (if x.owner.isSome then 1 else 0)

/-- The ticket to which a queue goes that its ticket has left (R156): of the tickets with a command or a waiting core that names it, the first
accepted. DEDUCED (log entry 103). -/
def nextOwner (s : State) (key h q : Nat) : Option Nat :=
  let names (g : Nat) (c : Cmd) : Bool := (g == h && (popRefs c).any fun p => p.2 == q) || putQueue c == some (h, q)
  (s.tickets.find? fun t => t.key != key && !t.cancelling &&
    (((List.range 16).any fun g => (getDisp s g).cmds.any fun c => c.ticket == t.key && names g c) ||
      (List.range 132).any fun k => (getCore s k).ticket == t.key && (getCore s k).wait.any (Wait.names k h q))).map (·.key)

/-- At the end of a ticket its queues are emptied, and each belongs to the ticket that waits for it, or to nobody. -/
def freeQueues (s : State) (key : Nat) : State :=
  each (List.range 16) s fun s h => each (List.range 64) s fun s q =>
    if ((getDisp s h).queue q).owner = some key then setQueue s h q { HQueue.blank with owner := nextOwner s key h q } else s

/-! ### Awl cores of a command -/

def coreFld (k : Nat) (fh : Nat → Nat → Fld) (fs : Nat → Fld) : Fld := if k < 128 then fh (k / 8) (k % 8) else fs (k - 128)
def coreStateF (k : Nat) : Fld := coreFld k F.AWL_STATE_STATE F.SAWL_STATE_STATE
def corePcF (k : Nat) : Fld := coreFld k F.AWL_STATE_PC F.SAWL_STATE_PC
def coreHeldF (k : Nat) : Fld := coreFld k F.AWL_STATE_TOKEN_HELD F.SAWL_STATE_TOKEN_HELD
def coreLeanF (k : Nat) : Fld := coreFld k F.AWL_STATE_LEAN F.SAWL_STATE_LEAN
def coreSeqF (k : Nat) : Fld := coreFld k F.AWL_CMD_SEQ F.SAWL_CMD_SEQ
def coreActiveF (k : Nat) : Fld := coreFld k F.AWL_CMD_ACTIVE F.SAWL_CMD_ACTIVE
def coreIcountF (k : Nat) : Fld := coreFld k F.AWL_ICOUNT_COUNT F.SAWL_ICOUNT_COUNT
def coreUnit (k : Nat) : Nat := if k < 128 then U.awl (k / 8) (k % 8) else U.sup (k - 128)

/-- States of a core (Table 7-17). -/
def awlGATED : Nat := 0
def awlIDLE : Nat := 1
def awlRUNNING : Nat := 3
def awlWAITING : Nat := 4
def awlHALTED : Nat := 5
def awlFAULTED : Nat := 6

/-- A core gives back its requested increment (R191, R193): the release waits for the Damper (R71). -/
def releaseHeld (s : State) (k : Nat) : State :=
  let c := getCore s k
  if c.held = 0 then s else
  let s := wr (setCore s k { c with held := 0 }) (coreHeldF k) 0
  let d := getDisp s (k / 8)
  setDisp s (k / 8) { d with releases := d.releases + c.held }

/-- A token request is that of core k's code. -/
def TokReq.ofCore (k : Nat) : TokReq → Bool
  | .core c _ _ => c == k % 8
  | _ => false

/-- Withdraw a dispatcher's pending request (R73). -/
def clearPending (s : State) (h : Nat) : State :=
  let s := setDisp s h { getDisp s h with pending := none }
  wr (wr (wr s (F.DMP_GRANT_PENDING h) 0) (F.DMP_GRANT_RESERVED h) 0) (F.HRT_DISP_TOKEN_PENDING h) 0

/-- The token requests of a core go: the one that its dispatcher holds and the one that it has forwarded (R73, R75). -/
def withdrawCore (s : State) (k : Nat) : State :=
  if 128 ≤ k then s else
  let d := getDisp s (k / 8)
  let s := setDisp s (k / 8) { d with awlReqs := d.awlReqs.filter fun r => !r.ofCore k }
  if d.pending.any (TokReq.ofCore k) then clearPending s (k / 8) else s

/-- A core stops for good in a state: halted or faulted. -/
def coreStop (s : State) (k st : Nat) : State :=
  let s := withdrawCore (releaseHeld s k) k
  let c := getCore s k
  wr (wr (setCore s k { c with wait := none }) (coreStateF k) st) (corePcF k) c.pc

/-- The codes of CSTAT and STATUS bits 0 to 4 and 6 that record one Ember event per command (R105, R107, R172, Table 4-9). -/
def noticeCodes : List (Nat × Nat) :=
  [(0, Code.SUBN_FLUSHED), (1, Code.SCALE_OVF), (2, Code.SCALE_UNF), (3, Code.INVALID_BLOCK)]

/-- Notices of a command with one Ember event per command and code: those that it has not recorded yet, by their bits. -/
def noteOnce (s : State) (h : Nat) (c : Cmd) (unit : Nat) (codes : List (Nat × Nat)) (stat : Nat) : State :=
  let had := match findCmd s h c.seq with | some x => x.noted | none => c.noted
  let s := each codes s fun s p => if bit stat p.1 && !bit had p.1 then emberCode s unit p.2 (some (cmdId s h c)) else s
  updCmd s h c.seq fun x => { x with noted := x.noted ||| codes.foldl (fun a p => if bit stat p.1 then a ||| 2 ^ p.1 else a) 0 }

/-- A command's format notices: sticky in the ticket's FLAGS (bits 0 to 2), and one Ember event per command and code, recorded
by a unit (R98, R105, R107). -/
def notices (s : State) (h : Nat) (c : Cmd) (unit stat : Nat) : State :=
  noteOnce (ticketFlags s c.ticket (stat % 8)) h c unit noticeCodes stat

/-- Cores of a command. -/
def cmdCores (h : Nat) (c : Cmd) : List Nat := (maskBits c.awlMask 8).map (8 * h + ·)

/-- The tensor reference at a body offset, with a popped handle in place of KIND 0b11 (R139, R155): kind, low bits, slice. -/
def Cmd.refAt (c : Cmd) (off slice : Nat) : Nat × Nat × Nat :=
  let r := c.fld off 4
  match c.pops.find? (·.1 == off) with
  | some p => (bits p.2.ref 30 2, bits p.2.ref 0 30, p.2.slice)
  | none => (bits r 30 2, bits r 0 30, slice)

/-! ### View references (R285) -/

/-- The slot that a view of a record resolves to for a command: the slot its EVAL step holds, else the one that LIVE names (R285). -/
def viewSlot (s : State) (c : Cmd) (r : Nat) : Nat :=
  match s.evalHolds.find? fun x => x.1 == c.ticket && x.2.1 == c.step && x.2.2.1 == r with
  | some x => x.2.2.2
  | none => peekNat s (r + 0x70) 1 % 2

/-- Address of the descriptor that a KIND 0b10 reference names: its own, or that of the slot to which a view resolves. -/
def programDesc (s : State) (c : Cmd) (a : Nat) : Nat :=
  match viewOf s a with
  | none => a
  | some (r, fwd) => viewDesc s r fwd (match c.views.find? (·.1 == a) with | some v => v.2 | none => viewSlot s c r)

/-- Address of the descriptor that a resolved reference names (Table 6-3, R170); 0 for none. -/
def descAddr (s : State) (c : Cmd) (r : Nat × Nat × Nat) : Nat :=
  match r.1, findTicket s c.ticket with
  | 1, some t => t.bufTable + 128 * r.2.1
  | 2, _ => programDesc s c (r.2.1 * 256)
  | _, _ => 0

/-- The descriptor bytes of a reference at a body offset. -/
def refBytes (s : State) (c : Cmd) (off slice : Nat) : Bytes := peekBytes s (plainAddr s (descAddr s c (c.refAt off slice))) 128

/-- The tensor that a reference gives the command (R144); rank 0 for none. -/
def refDesc (s : State) (c : Cmd) (off sliceOff : Nat) : Desc :=
  let r := c.refAt off (if sliceOff = 0 then 0 else c.fld sliceOff 2)
  if r.1 = 0 then Desc.parse (zeros 128) else
  let d := Desc.parse (peekBytes s (plainAddr s (descAddr s c r)) 128)
  if d.sliced then d.slice r.2.2 else d

/-- The step of its ticket that is open: reports of later steps are held (R93). -/
def openStepOf (s : State) (key : Nat) : Nat :=
  match findTicket s key with
  | some t => if t.prog.training then t.steps else 2 ^ 32
  | none => 2 ^ 32

/-- A command's report to a tensor's record, if it has one (R91, R101, R105). -/
def reportTo (s : State) (c : Cmd) (d : Desc) (amax : Option Nat) (dom stat : Nat) : State :=
  if d.scalePtr = 0 then s else
  reportScale s { addr := d.scalePtr, ticket := c.ticket, step := c.step, amax := amax, dom := dom, stat := stat } (openStepOf s c.ticket)

/-- An AWL or POOL command is done when its cores have halted and their tack writes and puts have taken effect: the cores'
reports merge (R172), and the cores stand idle. -/
def awlCheckDone (s : State) (h seq : Nat) : State :=
  match findCmd s h seq with
  | none => s
  | some c =>
    let ks := cmdCores h c
    let mine := ks.filter fun k => (getCore s k).seq == seq
    if c.st ≠ .working ∨ !(c.opcode == 0x28) ∨
       !(mine.all fun k => decide (awlHALTED ≤ rd s (coreStateF k)) && (getCore s k).puts == 0) then s
    else
      let cs := mine.map (getCore s)
      let stat := cs.foldl (fun a k => a ||| k.cstat) 0
      let dom := cs.foldl (fun a k => a + k.domcnt) 0
      let amax := cs.foldl (fun a k => fp32MaxMag a k.amax) 0
      let s := notices s h c (U.disp h) stat
      let s := cntHearth s h 15 dom
      let rec_ := c.fld 0x3D 1 % 4
      let s := if rec_ = 0 then s else reportTo s c (refDesc s c (0x24 + 4 * (rec_ - 1)) 0) (some amax) dom (stat % 128)
      let s := each mine s fun s k =>
        wr (if rd s (coreStateF k) = awlHALTED then wr s (coreStateF k) awlIDLE else s) (coreActiveF k) 0
      updCmd s h seq fun c => { c with st := .done, stat := stat, flags := c.flags }

/-! ### Dropping unstarted work (R160) -/

def CmdSt.started : CmdSt → Bool
  | .decoded => false
  | .ready => false
  | .requested => false
  | _ => true

/-- Release the entry that a ready command reserved. -/
def unreserve (s : State) (c : Cmd) : State :=
  match putQueue c with
  | none => s
  | some (h, q) =>
    if c.st = .decoded then s else
    let x := (getDisp s h).queue q
    setQueue s h q { x with reserved := x.reserved - 1 }

/-- INFLIGHT follows the window (Table 6-14). -/
def syncInflight (s : State) (h : Nat) : State :=
  wr s (F.HRT_DISP_INFLIGHT h) ((getDisp s h).cmds.filter fun c => !c.recompute).length

/-- A recompute segment has run: what its GET records (R270). -/
def segmentRun (s : State) (h : Nat) (c : Cmd) : State :=
  let (u, s) := match findStash s c.ticket (c.fld 0x16 2) (c.fld 0x18 1) with
    | some e => saddleOf s e
    | none => unitAt s U.saddle []
  let s := emberCode (ticketFlags s c.ticket 32) u Code.STASH_RECOMPUTE (some (cmdId s h c))
  saddleCount (wr s F.SBG_EVENT_RECOMPUTE 1) u 8 1

/-- A recompute segment whose commands are all fetched and gone completes its GET, which then records it (R270); one of a cancelled ticket
fetches no more. -/
def recompCheck (s : State) (h : Nat) : State :=
  match s.recomps.find? (·.hearth == h) with
  | none => s
  | some r =>
    let goes := match findTicket s r.ticket with | some t => !t.cancelling | none => false
    if (r.left == 0 || !goes) && !(getDisp s h).cmds.any (·.recompute) then
      let s := match findCmd s h r.get with | some c => if goes && c.fail == 0 then segmentRun s h c else s | none => s
      updCmd { s with recomps := s.recomps.filter fun x => x.hearth != h } h r.get fun c => { c with st := .done }
    else s

/-- Bytes of the tiles that have arrived for a command. -/
def Cmd.fetched (c : Cmd) : Nat := c.tiles.foldl (fun b t => b + t.2.2) 0

/-- Count the bytes that prefetch has read for a command that is dropped; reads that had already issued complete and count too, and how many
those are is an open choice within the staging that the command holds (R160). DESIGN CHOICE (log entry 118). -/
def wasteTiles (s : State) (h : Nat) (c : Cmd) : State :=
  let left := if c.placed then c.stage.foldl (· + ·) 0 - c.fetched else 0
  if left = 0 then cntHearth s h 14 c.fetched else
  let (n, s) := takeFree s
  cntHearth s h 14 (c.fetched + n % (left + 1))

/-- The step index of a command (R50). -/
def cmdStepIndex (s : State) (c : Cmd) : Nat := match findTicket s c.ticket with | some t => t.stepIndex c.step | none => 0

/-- The identifier of a command's collective, 0 for none (R286, R297, R306). -/
def collId (c : Cmd) : Nat :=
  match c.opcode with
  | 0x38 => c.fld 0x20 4
  | 0x39 => c.fld 0x18 4
  | 0x3A => c.fld 0x1C 4
  | _ => 0

/-- A collective's command ends before it has begun: segments for it are discarded (R296). -/
def endUnbegun (s : State) (c : Cmd) : State :=
  let key := (collId c, cmdStepIndex s c)
  if collId c = 0 ∨ s.colls.any (fun x => (x.id, x.step) == key) ∨ s.collEnded.any (fun e => (e.1, e.2.1) == key) then s
  else { s with collEnded := s.collEnded ++ [(key.1, key.2, c.ticket, c.step)] }

/-- Drop a ticket's unstarted commands on a hearth: tiles are discarded and counted, requests withdrawn, reservations freed. -/
def dropUnstarted (s : State) (key h : Nat) : State :=
  let d := getDisp s h
  let gone := d.cmds.filter fun c => c.ticket == key && !c.st.started
  let s := each gone s fun s c => endUnbegun (wasteTiles (unreserve s c) h c) c
  let d := getDisp s h
  let withdrawn := match d.pending with | some (.cmd q _) => gone.any (·.seq == q) | _ => false
  let s := setDisp s h { d with cmds := d.cmds.filter fun c => !(c.ticket == key && !c.st.started) }
  recompCheck (syncInflight (if withdrawn then clearPending s h else s) h) h

/-- The cores of a ticket's begun commands that wait in a QGET, QPUT, WAIT or TOK end as at HALT (R161, R193). -/
def endWaitingCores (s : State) (key : Nat) : State :=
  each (List.range 132) s fun s k =>
    let c := getCore s k
    if c.ticket = key ∧ rd s (coreStateF k) = awlWAITING ∧ rd s (coreActiveF k) = 1 ∧ c.wait.any Wait.ends then
      let s := coreStop s k awlHALTED
      if k < 128 then awlCheckDone s (k / 8) c.seq else s
    else s

/-- No dispatcher holds a command of the ticket and no core of supervisor 3 runs it. -/
def ticketIdle (s : State) (key : Nat) : Bool :=
  (List.range 16).all (fun h => (getDisp s h).cmds.all fun c => c.ticket != key) &&
  !(rd s (coreActiveF 131) == 1 && (getCore s 131).ticket == key)

/-- The ticket ends with its record (R51): its queues are emptied, its step in progress is abandoned if it was cancelled or
failed, records of other programs are updated (R92), and its list cursors go. -/
def endTicket (s : State) (key : Nat) : State :=
  match findTicket s key with
  | none => s
  | some t =>
    let s := if t.status ≠ 0 ∧ t.prog.training then abandonStep s key
             else if !t.prog.training then closeScales s key none else s
    let s := freeTicket (freeQueues s key) key
    let s := { s with puts := s.puts.filter fun p => p.ticket != key }
    let s := each (List.range 16) s fun s h =>
      let d := getDisp s h
      setDisp s h { d with cursors := d.cursors.filter fun c => c.ticket != key }
    let s := completeRecord s t
    { s with tickets := s.tickets.filter fun t => t.key != key }

/-- A cancelled or failed ticket ends when its begun commands have finished (R52, R161). -/
def tryEnd (s : State) (key : Nat) : State :=
  match findTicket s key with
  | some t => if t.cancelling && ticketIdle s key then endTicket s key else s
  | none => s

/-- Start no further command of a ticket (R52, R160, R161), with the status it will end with. -/
def stopTicket (s : State) (key status seq hearth : Nat) : State :=
  let s := updTicket s key fun t =>
    if t.cancelling then t else { t with cancelling := true, status := status, faultSeq := seq, faultHearth := hearth }
  let s := each (List.range 16) s fun s h => dropUnstarted s key h
  tryEnd (endWaitingCores s key) key

/-- A command fails at decode or while running (R161): the unit that fails it records one CODE entry (R437), and the ticket ends
with that code. -/
def failCmd (s : State) (h : Nat) (c : Cmd) (unit code : Nat) : State :=
  let s := endUnbegun (emberCode s unit code (some (cmdId s h c))) c
  stopTicket (updCmd s h c.seq fun x => { x with fail := if x.fail = 0 then code else x.fail }) c.ticket code c.seq h

/-- A running command fails and its work is over: it goes on to its completion, which puts nothing. -/
def failRunning (s : State) (h : Nat) (c : Cmd) (unit code : Nat) : State :=
  failCmd (updCmd s h c.seq fun x => { x with st := .done, fail := code }) h c unit code

/-- A held write is tried again. -/
def retryWrite (s : State) (w : HeldWrite) : State :=
  match w.target with
  | .record p r intr => writeRecord s w.addr w.data (p, r) intr
  | .rlog => rlogPut s w.addr w.data
  | .cmd h q unit =>
    match findCmd s h q with
    | none => s
    | some c =>
      match memWrite s w.who w.addr w.data (some (cmdId s h c)) with
      | (s, .ok _) => s
      | (s, .wait) => holdWrite s w
      | (s, .fail code) => failRunning s h c unit code

/-- A wait is over somewhere: the held writes are tried again in order (R46); during a stop they wait for the resume. -/
def flushHeld (s : State) : State := if stopActive s then s else each s.held { s with held := [] } retryWrite

end Sys2Proof.Machine
end

