-- ==== Sys2Proof/Machine/AwlStep.lean ====
section
/-! DEFINITION. One instruction of an Awl core (R164 to R177, R193): fetch from the local store, what an instruction can come
to, faults, the register file and the local store. -/

namespace Sys2Proof.Machine

/-! ### Registers -/

/-- s0 reads zero (R164). -/
def AwlCore.sreg (c : AwlCore) (n : Fin 32) : BitVec 64 := if n = 0 then 0 else c.sregs.get 0 n.val
/-- A write to s0 is discarded (R164). -/
def AwlCore.setS (c : AwlCore) (n : Fin 32) (v : BitVec 64) : AwlCore := if n = 0 then c else { c with sregs := c.sregs.set n.val v }
def AwlCore.vreg (c : AwlCore) (n : Nat) : BitVec 512 := c.vregs.get 0 n
def AwlCore.setV (c : AwlCore) (n : Nat) (v : BitVec 512) : AwlCore := { c with vregs := c.vregs.set n v }

/-- A 512-bit register as 64 bytes, lowest first, and back. -/
def vBytes (v : BitVec 512) : Bytes := leBytes 64 v.toNat
def bytesV (b : Bytes) : BitVec 512 := BitVec.ofNat 512 (leNat (b.take 64))

/-! ### Local store (R164, R167) -/

def lsSize : Nat := 0x40000
def AwlCore.lsBytes (c : AwlCore) (a n : Nat) : Bytes := (List.range n).map fun i => c.ls.get 0 (a + i)
def AwlCore.lsSet (c : AwlCore) (a : Nat) : Bytes → AwlCore
  | [] => c
  | b :: bs => AwlCore.lsSet { c with ls := c.ls.set a b, lsErr := c.lsErr.erase (a / 8) } (a + 1) bs

/-- What an instruction comes to: it retires; it faults with a code and INFO; it waits; a request of it waits (R46, R332) and it
has not yet taken effect; or it retires and ends the core's part as HALT does. -/
inductive AwlRes where
  | done (s : State) (c : AwlCore)
  | fault (s : State) (code info : Nat)
  | wait (s : State) (w : Wait)
  | stall (s : State)
  | halt (s : State) (c : AwlCore)
  deriving DecidableEq, Repr

/-- The 64-bit words of the local store that a read touches are checked (R167): a single flipped bit is corrected and counted, two
are not corrected. Returns true for an uncorrectable word. -/
def lsCheck (s : State) (k a n : Nat) : State × Bool :=
  let c := getCore s k
  let ws := (List.range (n / 8 + 2)).map (a / 8 + ·) |>.filter fun w => decide (8 * w < a + n) && c.lsErr.get 0 w != 0
  if ws.any fun w => decide (2 ≤ c.lsErr.get 0 w) then
    (cntHearthCore (wr s (coreFld k F.AWL_ERR_LS_UNCORR F.SAWL_ERR_LS_UNCORR) 1) 18 1, true)
  else
    (each ws s fun s w =>
      let s := updCore s k fun c => { c with lsErr := c.lsErr.erase w }
      let s := satAdd (wr s (coreFld k F.AWL_ERR_LS_CORR F.SAWL_ERR_LS_CORR) 1) (coreFld k F.AWL_ERR_CORR_COUNT F.SAWL_ERR_CORR_COUNT) 1
      cntHearthCore (emberCode s (coreUnit k) Code.AWL_LS_CORR none) 17 1, false)
where
  cntHearthCore (s : State) (i n : Nat) : State := if k < 128 then cntHearth s (k / 8) i n else s

/-- The command of a hearth core. -/
def coreCmd (s : State) (k : Nat) : Option Cmd := if k < 128 then findCmd s (k / 8) (getCore s k).seq else none
def coreCmdId (s : State) (k : Nat) : Option CmdId := (coreCmd s k).map (cmdId s (k / 8))

/-- Identity of the core's requests (R326). -/
def coreWho (k : Nat) : Nat := if k < 128 then idDisp (k / 8) else idSup

/-- A fault (R193): the instruction takes no effect; code, pc and word are recorded and the core stops and gives back its tokens;
the command's other cores stop at their next boundary; the command fails and its ticket ends. A KIND 2 program ends its ticket
with the code (R195). -/
def awlFault (s : State) (k code info insn : Nat) : State :=
  let c := getCore s k
  let s := wr (wr (wr s (coreFld k F.AWL_FAULT_CODE F.SAWL_FAULT_CODE) code) (coreFld k F.AWL_FAULT_PC F.SAWL_FAULT_PC) c.pc)
    (coreFld k F.AWL_FAULT_INFO F.SAWL_FAULT_INFO) info
  let s := wr s (coreFld k F.AWL_FAULT_INSN_INSN F.SAWL_FAULT_INSN_INSN) insn
  let s := coreStop s k awlFAULTED
  if k < 128 then
    match coreCmd s k with
    | none => s
    | some cmd =>
      let s := each ((cmdCores (k / 8) cmd).filter fun j => j != k && (getCore s j).seq == c.seq &&
          (rd s (coreStateF j) == awlRUNNING || rd s (coreStateF j) == awlWAITING)) s fun s j => coreStop s j awlHALTED
      awlCheckDone (failCmd s (k / 8) cmd (coreUnit k) code) (k / 8) c.seq
  else
    let s := emberCode (wr s (coreActiveF k) 0) (coreUnit k) code none
    endTicket (updTicket s c.ticket fun t => { t with status := code, faultSeq := 0, faultHearth := 0xFF }) c.ticket

/-- An instruction retires (R175): the counts rise and the pc stands where the instruction left it. -/
def retire (s : State) (k : Nat) (c : AwlCore) : State :=
  let s := setCore s k { c with icount := c.icount + 1 }
  let s := wr (wr s (corePcF k) c.pc) (coreIcountF k) (c.icount + 1)
  if k < 128 then cntHearth s (k / 8) 9 1 else s

/-- A core that may execute: its state is RUNNING, and no stop marker has reached it (R441). Supervisor cores 0 to 2 run the boot
ROM, whose code the spec does not give (R194, DEDUCED, log entry 13): their duties are rows of their own. -/
def coreLive (s : State) (k : Nat) : Bool :=
  unitLive s (coreUnit k) && rd s (coreStateF k) == awlRUNNING && (decide (k < 128) || k == 131)

/-- A hearth core has retired INSN_LIMIT × 1,024 instructions (R175); KIND 2 programs have no budget (R195). -/
def budgetSpent (k : Nat) (c : AwlCore) : Bool := decide (k < 128) && decide (c.limit * 1024 ≤ c.icount)

/-- The instruction word at the pc. -/
def AwlCore.word (c : AwlCore) : Nat := leNat (c.lsBytes c.pc 4)

/-- HALT: a hearth core ends its part of the command; supervisor core 3 completes its ticket with STEPS_DONE s7[31:0] (R172, R195). -/
def haltCore (s : State) (k : Nat) : State :=
  let c := getCore s k
  let s := coreStop s k (if k < 128 then awlHALTED else awlIDLE)
  if k < 128 then
    let s := awlCheckDone s (k / 8) c.seq
    match findCmd s (k / 8) c.seq with
    | some cmd => tryEnd s cmd.ticket
    | none => s
  else
    let s := wr s (coreActiveF k) 0
    endTicket (updTicket s c.ticket fun t => if t.cancelling then t else { t with steps := (c.sreg 7).toNat % 2 ^ 32 }) c.ticket

/-- The core's ticket has been cancelled or has failed (R193). -/
def coreCancelled (s : State) (k : Nat) : Bool :=
  match findTicket s (getCore s k).ticket with | some t => t.cancelling | none => true

/-- Instruction i on a core. A core that is not running, has spent its budget or has another instruction at its pc does nothing
(DEDUCED, log entry 11). A pc outside the code region faults with `AWL_ADDR` (R171), a local-store error with `AWL_LS_ECC` (R167), an
undefined word with `AWL_ILLEGAL` (R177). Else `body` acts on the core whose pc stands at the next instruction. -/
def awlStep (core : Core) (i : Instr) (body : State → AwlCore → AwlRes) (s : State) : Res :=
  let k := coreKey core
  let c := getCore s k
  if !coreLive s k || budgetSpent k c then .next s
  else if c.codeLen ≤ c.pc then .next (awlFault s k Code.AWL_ADDR 0 0)
  else
    match lsCheck s k c.pc 4 with
    | (s, true) => .next (awlFault s k Code.AWL_LS_ECC 0 0)
    | (s, false) =>
      match awlDecode core c.word with
      | none => .next (awlFault s k Code.AWL_ILLEGAL 0 c.word)
      | some i' =>
        if i' ≠ i then .next s else
        match body s { getCore s k with pc := c.pc + 4 } with
        | .done s c' => .next (retire s k c')
        | .fault s code info => .next (awlFault s k code info c.word)
        | .wait s w => .next (wr (updCore s k fun c => { c with wait := some w }) (coreStateF k) awlWAITING)
        | .stall s => .next s
        | .halt s c' => .next (haltCore (retire s k c') k)

/-- A register instruction: it changes the core alone. -/
def awlReg (core : Core) (i : Instr) (f : AwlCore → AwlCore) (s : State) : Res :=
  awlStep core i (fun s c => .done s (f c)) s

end Sys2Proof.Machine
end

