-- ==== Sys2Proof/Machine/Damper.lean ====
section
/-! DEFINITION. The Damper (R56 to R78): standing charges, holdings, ceilings, voltage steps, the grant protocol, and the sensor
readings. -/

namespace Sys2Proof.Machine

/-! ### Ceilings (R62, R63) -/

/-- The thermal ceiling of a pool at a temperature in units of 0.25 °C (R62). -/
def thermCeil (pool tq : Nat) : Nat :=
  if tq ≤ 380 then pool else if tq < 420 then pool * (460 - tq) / 80 else pool / 2

/-- The hottest hearth at the last readings; a sensor that stands failed reads 105 °C (R62, R64). -/
def hottest (s : State) : Nat :=
  (List.range 16).foldl (fun a h => max a (if s.damper.failed.contains h then 420 else rd s (F.DMP_TEMP_TJ (h / 4) (h % 4)))) 0

/-- The effective ceiling (R62). DEDUCED (log entry 46). -/
def computeCeil (s : State) : State :=
  let core := rd s F.DMP_CEIL_CORE_TOKENS
  wr s F.DMP_POOL_CEIL_NOW (Nat.min core (Nat.min (rd s F.DMP_POOL_THERM_CEIL) (core - rd s F.DMP_POOL_INPUT_DERATE)))

/-- The sum of holdings exceeds the effective ceiling (R63). DEDUCED (log entry 44). -/
def overCeil (s : State) : Bool := decide (rd s F.DMP_POOL_CEIL_NOW < rd s F.DMP_POOL_HELD)

/-- Set the event of the ceiling that is the least, and at a sensor reading its Ember event too (R63, R79); neither where CORE_TOKENS
itself is the least, and `THERM_LIMIT` alone where both others are equal. DEDUCED (log entry 44). -/
def limitEvent (s : State) (reading : Bool) : State :=
  let core := rd s F.DMP_CEIL_CORE_TOKENS
  let therm := rd s F.DMP_POOL_THERM_CEIL
  let inp := core - rd s F.DMP_POOL_INPUT_DERATE
  let note (s : State) (code : Nat) : State := if reading then emberCode s U.damper code none else s
  if !overCeil s then s
  else if therm ≤ inp ∧ therm < core then note (wr s F.DMP_EVENT_THERM_LIMIT 1) Code.THERM_LIMIT
  else if inp < core then note (wr s F.DMP_EVENT_INPUT_LIMIT 1) Code.INPUT_LIMIT
  else s

/-- Tokens that a grant may still take (R62). -/
def freeTokens (s : State) : Nat := rd s F.DMP_POOL_CEIL_NOW - rd s F.DMP_POOL_HELD

/-! ### Voltage steps (R69, R70) -/

/-- A step of a hearth's rail is in progress (R70). -/
def stepping (s : State) (h : Nat) : Bool := (s.damper.steps.find? h).isSome

/-- Command a step to a code: a raise is charged first, a lowering only when the regulator reports (R70). -/
def commandStep (s : State) (h target : Nat) : State :=
  if stepping s h then s else
  recharge { s with damper := { s.damper with steps := s.damper.steps.set h target } } h

/-- Lower a hearth by one step, to no less than a code. DEDUCED (log entry 32). -/
def lowerStep (s : State) (h floor : Nat) : State :=
  let v := rd s (vNowF h)
  if v ≤ floor then s else commandStep s h (v - 1)

/-- Raise a hearth by one step towards its set voltage; a hearth that is UNAVAILABLE stays at 0.60 V (R69). DEDUCED (log entry 32). -/
def raiseStep (s : State) (h : Nat) : State :=
  let v := rd s (vNowF h)
  if rd s (vSetF h) ≤ v ∨ fnState s h = fnUNAVAIL then s else commandStep s h (v + 1)

/-- The cost kinds of Table 6-2. -/
def kTransfer : Nat := 0
def kAwl : Nat := 1
def kRow : Nat := 2
def kMe : Nat := 3

/-- A hearth holds ME increments: those of a started command, those of a completed one that the Damper has not yet taken back, or that of
an ME under test (R63). -/
def holdsMe (s : State) (h : Nat) : Bool :=
  (getDisp s h).cmds.any (fun c => c.st.started && decide (0 < c.meInc)) || decide (0 < (getDisp s h).meBack) ||
  (List.range 16).any fun i => rd s (F.MXE_STATE_STATE h i) == 7

/-- The new holding of a raise fits in the free pool (R69). -/
def raiseFits (s : State) (h : Nat) : Bool :=
  decide (holding (rd s (F.DMP_GRANT_RP_SUM h)) (rd s (vNowF h) + 1) ≤ rd s (F.DMP_GRANT_HELD h) + freeTokens s)

/-- Bring a hearth one step nearer to its set voltage: down in either mode, and in FIXED mode up where the new holding fits, unless the
overdraw guard holds it lower (R63, R65, R69). DEDUCED (log entry 32). -/
def seekStep (s : State) (h : Nat) : State :=
  if rd s (vSetF h) < rd s (vNowF h) then lowerStep s h (rd s (vSetF h))
  else if rd s F.DMP_POLICY_MODE = 0 ∧ s.damper.overLow.get 0 h = 0 ∧ !overCeil s ∧ raiseFits s h then raiseStep s h
  else s

/-- The Damper's policy begins: the derate's limit and the thermal ceiling of the pool in force, every charge, and a first step of every
hearth (R62, R66, R69).
DEDUCED (log entry 32). DEDUCED (log entry 47). -/
def beginPolicy (s : State) : State :=
  let s := wr s F.DMP_POOL_INPUT_DERATE (min (rd s F.DMP_POOL_INPUT_DERATE) (rd s F.DMP_CEIL_CORE_TOKENS - 512))
  let s := computeCeil (wr s F.DMP_POOL_THERM_CEIL (thermCeil (rd s F.DMP_CEIL_CORE_TOKENS) (hottest s)))
  each (List.range 16) (rechargeAll (syncRails s)) seekStep

/-- After a grant decision under SHED: raise the lowest hearth below its set voltage if RAISE_MARGIN tokens are free (R69). Of hearths
equally low the first is raised, and one whose rail is mid-step is passed over. DEDUCED (log entry 101). -/
def shedRaise (s : State) : State :=
  if rd s F.DMP_POLICY_MODE ≠ 1 ∨ overCeil s ∨ freeTokens s < rd s F.DMP_POLICY_RAISE_MARGIN then s else
  let cands := (List.range 16).filter fun h => !stepping s h && fnState s h != fnUNAVAIL && decide (rd s (vNowF h) < rd s (vSetF h))
  match cands.foldl (fun (b : Option Nat) h => match b with
      | none => some h
      | some g => if rd s (vNowF h) < rd s (vNowF g) then some h else some g) none with
  | some h => if raiseFits s h then raiseStep s h else s
  | none => s

/-! ### Requests (R71 to R76) -/

/-- RP tokens of a request. -/
def TokReq.rp : TokReq → Nat
  | .cmd _ r => r
  | .core _ r _ => r
  | .meTest _ r => r

/-- The members of a command's chain, or the command alone. -/
def chainOf (s : State) (h : Nat) (c : Cmd) : List Cmd :=
  match c.chain with
  | none => [c]
  | some q => (getDisp s h).cmds.filter fun x => x.chain == some q

/-- The standing charge of the power-gated MEs that a command's start wakes (R59). -/
def wakeCost (s : State) (h : Nat) (c : Cmd) : Nat :=
  let mes := (chainOf s h c).foldl (fun a m => a ||| (if m.kind = kMe then m.meMask else 0)) 0
  ((maskBits mes 16).filter fun i => rd s (F.MXE_STATE_STATE h i) == 0).length

/-- What the grant of a request charges in all: its increment, and the standing charge of the MEs that it wakes (R59, R62). -/
def TokReq.cost (s : State) (h : Nat) : TokReq → Nat
  | .cmd q r => match findCmd s h q with | some c => r + wakeCost s h c | none => r
  | r => r.rp

/-- An increment of a hearth fits in the free pool (R62, R71). -/
def incFits (s : State) (h rp : Nat) : Bool :=
  !overCeil s &&
  decide (holding (rd s (F.DMP_GRANT_RP_SUM h) + rp) (chargeCode s h) ≤ rd s (F.DMP_GRANT_HELD h) + freeTokens s)

/-- An increment that could never be granted (R74). -/
def neverFits (s : State) (h rp : Nat) : Bool :=
  let floors := (List.range 16).foldl (fun a j => a + holding 12 (rd s (vSetF j))) 0
  decide (rd s F.DMP_CEIL_CORE_TOKENS < holding rp (rd s (vSetF h)) + floors)

/-- Hearths from the one after that last served, round robin (R71). -/
def robin (s : State) : List Nat := (List.range 16).map fun i => (s.damper.last + 1 + i) % 16

/-- The first reserved request in round-robin order (R72). -/
def reservedAny (s : State) : Option Nat :=
  (robin s).find? fun h => (getDisp s h).pending.isSome && rd s (F.DMP_GRANT_RESERVED h) == 1

/-- Forward a request to the Damper: it is the dispatcher's pending request (R71). -/
def forward (s : State) (h : Nat) (r : TokReq) : State :=
  let s := setDisp { s with damper := { s.damper with passed := s.damper.passed.set h 0 } } h { getDisp s h with pending := some r }
  wr (wr s (F.DMP_GRANT_PENDING h) r.rp) (F.HRT_DISP_TOKEN_PENDING h) 1

/-- A refused request raises TOKEN_WAIT once (R73, R191). -/
def tokenWait (s : State) (h : Nat) (r : TokReq) : State :=
  let note (s : State) (c : Option CmdId) : State :=
    emberCode (cntHearth (wr s F.DMP_EVENT_TOKEN_WAIT 1) h 11 1) (U.disp h) Code.TOKEN_WAIT c
  match r with
  | .cmd q _ =>
    match findCmd s h q with
    | some c => if c.waited then s else updCmd (note s (some (cmdId s h c))) h q fun c => { c with waited := true }
    | none => s
  | .core k _ _ =>
    if (getCore s (8 * h + k)).noted then s
    else note (updCore s (8 * h + k) fun c => { c with noted := true }) (coreCmdId s (8 * h + k))
  | .meTest _ _ => s

/-- An ME begins to load its command's first tile; no row of its array is enabled yet (R77). DESIGN CHOICE (log entry 90). -/
def meLoad (s : State) (h i : Nat) : State :=
  wr { s with bellows := s.bellows.set (16 * h + i) 0 } (F.MXE_STATE_STATE h i) 3

/-- The MEs of a starting command: a gated one begins to wake (R59), another begins to load. -/
def wakeMes (s : State) (h seq mask : Nat) : State :=
  each (maskBits mask 16) s fun s i =>
    let s := wr (wr s (F.MXE_CMD_SEQ h i) seq) (F.MXE_CMD_ACTIVE h i) 1
    if rd s (F.MXE_STATE_STATE h i) = 0 then wr s (F.MXE_STATE_STATE h i) 1 else meLoad s h i

/-- The row engine and the attention sequencer begin a command (Tables 9-11, 9-12, 9-16 and 9-17): a paged attention first waits for its walk.
DEDUCED (log entry 91). -/
def beginRows (s : State) (h : Nat) (c : Cmd) : State :=
  let s := if bit c.unitMask 0 then
      wr (wr (wr s (F.ROW_CMD_SEQ h) c.seq) (F.ROW_CMD_ACTIVE h) 1) (F.ROW_STATE_STATE h)
        (rowBusy c)
    else s
  if bit c.unitMask 1 then
    wr (wr (wr s (F.ATS_CMD_SEQ h) c.seq) (F.ATS_CMD_ACTIVE h) 1) (F.ATS_STATE_STATE h) (if bit (c.fld 0x38 4) 2 then 6 else atsBegin c)
  else s

/-- A command starts: its request is granted, its units are its own until it completes, its gated MEs wake (R57, R59, R155).
DEDUCED (log entry 25). -/
def startCmd (s : State) (h : Nat) (c : Cmd) : State :=
  each (chainOf s h c) s fun s m =>
    let s := updCmd s h m.seq fun x => { x with st := .granted }
    recharge (beginRows (wakeMes s h m.seq (if m.kind = kMe then m.meMask else 0)) h m) h

/-- A grant passes over every other hearth's pending request (R72): a command that starts under R76 does not pass over its own hearth's.
DEDUCED (log entry 42). -/
def passOver (s : State) (h : Nat) : State :=
  let waits := (List.range 16).filter fun j => j != h && (getDisp s j).pending.isSome
  { s with damper := { s.damper with last := h, passed := waits.foldl (fun m j => m.set j (m.get 0 j + 1)) s.damper.passed } }

/-- Grant a request of a hearth (R57, R71): the increment is charged, and what asked for it goes on. -/
def grant (s : State) (h : Nat) (r : TokReq) : State :=
  let d := getDisp s h
  let s := passOver (setDisp s h { d with incs := d.incs + r.rp }) h
  let s := match r with
    | .cmd q _ => match findCmd s h q with | some c => startCmd s h c | none => s
    | .core k rp _ => wr (updCore s (8 * h + k) fun c => { c with held := rp, noted := false }) (coreHeldF (8 * h + k)) 1
    | .meTest i _ => wr (wr s (F.MXE_STATE_STATE h i) 7) (F.MXE_STATE_TEST_RESULT h i) 1
  recharge s h

/-- What every decision does at its end (R62, R63, R69). -/
def decided (s : State) : State := shedRaise (limitEvent (computeCeil s) false)

end Sys2Proof.Machine
end

