-- ==== Sys2Proof/Machine/Schedule.lean ====
section
/-! DEFINITION. What a dispatcher starts next (R155, R159, R76), and the queues that commands and cores share (R156, R189). -/

namespace Sys2Proof.Machine

/-- Two commands name a unit in common (R155). -/
def unitsMeet (a b : Cmd) : Bool :=
  (a.meMask &&& b.meMask) != 0 || (a.awlMask &&& b.awlMask) != 0 || (a.unitMask &&& b.unitMask) != 0 ||
  ((a.opcode == 0x08 || a.opcode == 0x09) && (b.opcode == 0x08 || b.opcode == 0x09))

/-- An ME of the command's mask cannot start it: FAULTED or under test (R130, R131). A command decoded before its ME became FAULTED waits
until the ME is so no longer: DESIGN CHOICE (log entry 115). -/
def meBlocked (s : State) (h : Nat) (c : Cmd) : Bool :=
  c.kind == kMe && (maskBits c.meMask 16).any fun i => decide (6 ≤ rd s (F.MXE_STATE_STATE h i))

/-- A command's units are free, and every earlier command of its ticket in its area that names one of them has started (R155). -/
def unitsFree (s : State) (h : Nat) (c : Cmd) : Bool :=
  let cmds := (getDisp s h).cmds
  !cmds.any (fun x => x.st.started && x.seq != c.seq && unitsMeet x c) && !meBlocked s h c &&
  !cmds.any fun x => !x.st.started && x.ticket == c.ticket && x.recompute == c.recompute && decide (x.pos < c.pos) &&
    !(x.chain.isSome && x.chain == c.chain) && unitsMeet x c

def isEval (s : State) (c : Cmd) : Bool := match findTicket s c.ticket with | some t => t.eval | none => false

/-- The order of consideration of R159: tickets without EVAL first, PRIORITY, order of acceptance, sequence number. -/
def before (s : State) (a b : Cmd) : Bool :=
  match findTicket s a.ticket, findTicket s b.ticket with
  | some x, some y =>
    if x.eval ≠ y.eval then y.eval
    else if x.prio ≠ y.prio then decide (y.prio < x.prio)
    else if x.key ≠ y.key then decide (x.key < y.key) else later32 b.seq a.seq
  | _, _ => later32 b.seq a.seq

def insertBy {α : Type} (lt : α → α → Bool) (x : α) : List α → List α
  | [] => [x]
  | y :: ys => if lt x y then x :: y :: ys else y :: insertBy lt x ys
def sortBy {α : Type} (lt : α → α → Bool) (xs : List α) : List α := xs.foldr (insertBy lt) []

/-- Sizes of the staging regions L1 to L3 of hearth h. -/
def stageSize (s : State) (h l : Nat) : Nat :=
  match l with
  | 1 => rd s (F.HRT_STAGE_L1_SIZE_4K h) * 4096
  | 2 => rd s (F.HRT_STAGE_L2_SIZE_4K h) * 4096
  | _ => rd s (F.HRT_STAGE_L3_SIZE_64K h) * 65536

/-- A command has the staging space that it needs, until it completes (R148). -/
def staged (c : Cmd) : Bool := c.placed || c.stage.all (· == 0)

/-- Commands that wait for staging space, in the order of R159. -/
def unplaced (s : State) (h : Nat) : List Cmd := sortBy (before s) ((getDisp s h).cmds.filter fun c => c.st != .decoded && !staged c)

/-- The space that a command needs is free at every level, beside what other commands have (R148). -/
def stageFree (s : State) (h : Nat) (c : Cmd) : Bool :=
  (List.range 3).all fun i =>
    let need (x : Cmd) : Nat := x.stage.getD i 0
    need c == 0 || decide (((getDisp s h).cmds.filter (·.placed)).foldl (fun a x => a + need x) (need c) ≤ stageSize s h (i + 1))

/-- Give staging space to waiting commands in order; a younger command never takes space at a level for which an older one still waits:
`kept` are the levels, 0 to 2, for which one does (R148). -/
def placeFrom (s : State) (h : Nat) (kept : List Nat) : List Cmd → State
  | [] => s
  | c :: cs =>
    let wants (i : Nat) : Bool := c.stage.getD i 0 != 0
    if !kept.any wants && stageFree s h c then placeFrom (updCmd s h c.seq fun x => { x with placed := true }) h kept cs
    else placeFrom s h (kept ++ (List.range 3).filter wants) cs

/-- Staging space goes to ready commands (R148). -/
def placeStage (s : State) (h : Nat) : State := placeFrom s h [] (unplaced s h)

/-- A hearth's function takes a command: it runs, or it is stopping and the command belongs to the segment of a begun GET (R44, R46, R270).
DEDUCED (log entry 71). -/
def hearthTakes (s : State) (h : Nat) (c : Cmd) : Bool := fnState s h == fnRUN || (fnState s h == fnSTOPPING && c.recompute)

/-- The functions that a ticket's program needs let it start: none of them is stopping or STOPPED (R46, R50). DEDUCED (log entry 70). -/
def ticketFuncsOk (s : State) (t : Ticket) : Bool :=
  (maskBits t.prog.funcMask 64 ++ maskBits t.prog.hearthMask 16).all fun f => fnState s f == fnRUN || fnState s f == fnUNAVAIL

/-- A command, or the whole chain of which it is the first member, is ready and its units are free (R158). DEDUCED (log entry 25). -/
def readyFree (s : State) (h : Nat) (c : Cmd) : Bool :=
  let ms := chainOf s h c
  ms.all (fun m => m.st == .ready && unitsFree s h m && hearthTakes s h m) &&
  (c.chain == none || (c.chain == some c.seq && ms.any fun m => !m.chained))

/-- Such a command, or its whole chain, has the staging that it needs too (R148). -/
def startable (s : State) (h : Nat) (c : Cmd) : Bool := readyFree s h c && (chainOf s h c).all staged

/-- The commands that the dispatcher may start, in the order of R159: those of EVAL tickets only when no other is ready with its
units free. -/
def candidates (s : State) (h : Nat) : List Cmd :=
  let cs := (getDisp s h).cmds.filter (startable s h)
  let first := (getDisp s h).cmds.any fun c => !isEval s c && (c.st == .requested || readyFree s h c)
  sortBy (before s) (if first then cs.filter fun c => !isEval s c else cs)

/-- The increment of a command, or the sum of its chain's members (R158). -/
def totalInc (s : State) (h : Nat) (c : Cmd) : Nat := (chainOf s h c).foldl (fun a m => a + m.inc) 0

/-- Start every startable command without an increment, in order, and forward a request for the first one with an increment
(R159); a request of an Awl core goes first (R191). `fuel` bounds the commands started at once. -/
def scheduleFrom (s : State) (h : Nat) : Nat → State
  | 0 => s
  | n + 1 =>
    let d := getDisp s h
    let s := match d.pending, d.awlReqs with
      | none, r :: rs => forward (setDisp s h { d with awlReqs := rs }) h r
      | _, _ => s
    match candidates s h with
    | [] => s
    | c :: cs =>
      match (c :: cs).find? fun c => totalInc s h c == 0 with
      | some z => if z.seq = c.seq ∨ (getDisp s h).pending.isSome then scheduleFrom (startCmd s h z) h n else
                  let s := each (chainOf s h c) s fun s m => updCmd s h m.seq fun x => { x with st := .requested }
                  scheduleFrom (forward s h (.cmd c.seq (totalInc s h c))) h n
      | none =>
        if (getDisp s h).pending.isSome then s else
        let s := each (chainOf s h c) s fun s m => updCmd s h m.seq fun x => { x with st := .requested }
        forward s h (.cmd c.seq (totalInc s h c))

/-- The dispatcher considers its ready commands (R159); it starts nothing during a stop (R441) or while the device does not run. -/
def schedule (s : State) (h : Nat) : State :=
  if unitLive s (U.disp h) then scheduleFrom (placeStage s h) h 300 else s

/-- The cost kind of a command or of its chain (R158). -/
def costKind (s : State) (h : Nat) (c : Cmd) : Nat := if (chainOf s h c).any fun m => m.kind == kMe then kMe else c.kind

/-- The order of R76 among the ready commands that fit. DEDUCED (log entry 43). -/
def fillBefore (s : State) (h : Nat) (a b : Cmd) : Bool :=
  let ka := costKind s h a
  let kb := costKind s h b
  if ka ≠ kb then decide (ka < kb)
  else if ka = kMe ∧ totalInc s h a ≠ totalInc s h b then decide (totalInc s h a < totalInc s h b) else before s a b

/-- While its request waits, the dispatcher starts the first other ready command that fits (R76). DEDUCED (log entry 43). -/
def fillShortfall (s : State) (h : Nat) : State :=
  if (reservedAny s).isSome then s else
  match (sortBy (fillBefore s h) (candidates s h)).find? fun c => incFits s h (totalInc s h c + wakeCost s h c) with
  | some c => grant s h (.cmd c.seq (totalInc s h c))
  | none => s

/-! ### Queues shared by commands and cores -/

/-- A queue is the ticket's own, or nobody's (R156). -/
def queueFor (q : HQueue) (ticket : Nat) : Bool := q.owner == none || q.owner == some ticket

/-- A well-formed handle (R156): a reference of KIND 0b01 with an index below BUF_COUNT or of KIND 0b10, a slice, zeros. -/
def handleOk (s : State) (ticket v : Nat) : Bool :=
  let r := v % 2 ^ 32
  v / 2 ^ 48 == 0 &&
  (match bits r 30 2 with
   | 1 => bits r 6 24 == 0 && (match findTicket s ticket with | some t => decide (bits r 0 6 < t.bufCount) | none => false)
   | 2 => true
   | _ => false)

def handleOf (v : Nat) : Handle := { ref := v % 2 ^ 32, slice := bits v 32 16 }
def Handle.value (x : Handle) : Nat := x.ref + 2 ^ 32 * x.slice

/-- Take the oldest entry of a queue for a ticket. -/
def popQueue (s : State) (h q ticket : Nat) : Option (Handle × State) :=
  let x := (getDisp s h).queue q
  match x.entries with
  | e :: es => if queueFor x ticket then some (e, setQueue s h q { x with owner := some ticket, entries := es }) else none
  | [] => none

/-- Name a queue: it belongs to the first running ticket that does (R156). -/
def claimQueue (s : State) (h q ticket : Nat) : State :=
  let x := (getDisp s h).queue q
  if x.owner = none then setQueue s h q { x with owner := some ticket } else s

end Sys2Proof.Machine
end

