-- ==== Sys2Proof/Machine/CmdDecode.lean ====
section
/-! DEFINITION. What every command's decoding and running share (R137 to R139, R144, R155, R158, R160, R161): operand references, masks,
aliasing, the bank mask, and the frame of a row that runs a started command. -/

namespace Sys2Proof.Machine

/-- A failing code, or 0: the first that is not 0. -/
def firstCode (xs : List Nat) : Nat := (xs.find? (· != 0)).getD 0

def codeIf (b : Bool) (code : Nat) : Nat := if b then code else 0

/-- What a tensor reference gives at a check: a rejection, no tensor, a tensor not known before the pop (R155), or the tensor. -/
inductive Opnd where
  | bad (code : Nat)
  | none
  | later
  | some (d : Desc)
  deriving DecidableEq, Repr

/-- The reference at a body offset under R139, R144 and R156; `slice` is the slice field (0 where the opcode has none). -/
def Cmd.opnd (s : State) (c : Cmd) (off slice : Nat) (required : Bool) : Opnd :=
  let raw := c.fld off 4
  let low := bits raw 0 30
  let kind := bits raw 30 2
  match kind with
  | 0 => if low ≠ 0 ∨ required ∨ slice ≠ 0 then .bad Code.CMD_FORMAT else .none
  | 3 =>
    if bits raw 6 24 ≠ 0 ∨ slice ≠ 0 then .bad Code.CMD_FORMAT
    else
      match c.pops.find? (·.1 == off) with
      | none => .later
      | some _ => look (c.refAt off 0) true
  | 1 =>
    if bits raw 6 24 ≠ 0 ∨ (match findTicket s c.ticket with | some t => t.bufCount | none => 0) ≤ bits raw 0 6 then .bad Code.CMD_FORMAT
    else look (1, low, slice) false
  | _ => if nearEnd < low * 256 + 128 then .bad Code.DESC_RANGE else look (2, low, slice) false
where
  look (r : Nat × Nat × Nat) (handle : Bool) : Opnd :=
    let b := peekBytes s (plainAddr s (descAddr s c r)) 128
    let both := match viewOf s (r.2.1 * 256) with
      | some (p, fwd) => if r.1 = 2 then firstCode ([0, 1].map fun k => (checkDesc s (peekBytes s (viewDesc s p fwd k) 128) r.2.2).1) else 0
      | none => 0
    if both ≠ 0 then .bad both
    else if r.2.2 ≠ 0 ∧ !(Desc.parse b).sliced then .bad Code.CMD_FORMAT
    else if handle && r.1 == 2 && decide (nearEnd < r.2.1 * 256 + 128) then .bad Code.DESC_RANGE
    else match checkDesc s b r.2.2 with
      | (0, d) => .some d
      | (code, _) => .bad code

/-- The code of a rejected reference, else 0. -/
def Opnd.code : Opnd → Nat
  | .bad c => c
  | _ => 0

/-- The tensor, or rank 0. -/
def Opnd.desc : Opnd → Desc
  | .some d => d
  | _ => Desc.parse (zeros 128)

def Opnd.isLater : Opnd → Bool
  | .later => true
  | _ => false

def Opnd.isSome : Opnd → Bool
  | .some _ => true
  | _ => false

/-- Check the tensors of known operands: a check over descriptors is made once none of them waits for a pop (R155). -/
def whenKnown (os : List Opnd) (code : Nat) : Nat := if os.any Opnd.isLater then 0 else code

/-! ### Bytes of tensors -/

/-- Two lists of byte ranges share a byte. -/
def rangesMeet (xs ys : List (Nat × Nat)) : Bool :=
  xs.any fun x => ys.any fun y => decide (0 < x.2) && decide (0 < y.2) && decide (x.1 < y.1 + y.2) && decide (y.1 < x.1 + x.2)

/-- Ranges behind aliases. -/
def plainRanges (s : State) (xs : List (Nat × Nat)) : List (Nat × Nat) := xs.map fun r => (plainAddr s r.1, r.2)

/-- Two tensors share a byte. -/
def tensorsMeet (s : State) (a b : Desc) : Bool := rangesMeet (plainRanges s a.ranges) (plainRanges s b.ranges)

/-- A tensor's own lines overlap one another. -/
def selfOverlap (s : State) (d : Desc) : Bool :=
  let rs := plainRanges s d.ranges
  (List.range rs.length).any fun i => rangesMeet [rs.getD i (0, 0)] (rs.drop (i + 1))

/-- The banks of hearth h that byte ranges touch, as a mask. -/
def banksOf (s : State) (h : Nat) (xs : List (Nat × Nat)) : Nat :=
  (plainRanges s xs).foldl (fun m r =>
    let base := bankBase (16 + 8 * h)
    (List.range 8).foldl (fun m b =>
      if 0 < r.2 ∧ r.1 < base + (b + 1) * 0x200000 ∧ base + b * 0x200000 < r.1 + r.2 then m ||| 2 ^ b else m) m) 0

/-- The bytes of a tensor's scale record that a command reads or writes: all of the header where its format has a scale, or where the command
stores into the tensor (R90, R91). -/
def recRanges (d : Desc) (dest : Bool) : List (Nat × Nat) :=
  let scaled := match d.format with | some .int4 => true | some .int8 => true | some f => f.isDq | none => false
  if d.scalePtr != 0 && d.count != 0 && (scaled || dest) then [(d.scalePtr, 32)] else []

/-- Some byte of the tensors, or of the scale records in use, lies in a hearth bank that BANKS does not name (R138). -/
def bankMissing (s : State) (h : Nat) (c : Cmd) (ds : List Desc) : Bool :=
  let dest := match destOffset c with | some o => recRanges (refDesc s c o.1 o.2) true | none => []
  let m := (dest :: ds.map fun d => d.ranges ++ recRanges d false).foldl (fun m rs => m ||| banksOf s h rs) 0
  (maskBits m 8).any fun b => !bit c.bankMask b

/-- Some tensor lies in another hearth's banks (R145). -/
def foreignBank (s : State) (h : Nat) (ds : List Desc) : Bool :=
  ds.any fun d => decide (d.count ≠ 0) && match regionOf s d.base with | some (.hearth g _) => g != h | _ => false

/-- The header masks that an opcode does not allow are zero (Table 6-2). -/
def maskBad (c : Cmd) (me awl units banks : Bool) : Bool :=
  (!me && c.meMask != 0) || (!awl && c.awlMask != 0) || (!units && c.unitMask != 0) || (!banks && c.bankMask != 0)

/-! ### The frame of a row that runs a command -/

/-- The earlier members of a command's chain have done their work (R158). -/
def chainReady (s : State) (h : Nat) (c : Cmd) : Bool :=
  (chainOf s h c).all fun m => decide (c.pos ≤ m.pos) || m.st == .done || c.chain == none

/-- Every ME of the command is awake (R59). -/
def mesAwake (s : State) (h : Nat) (c : Cmd) : Bool :=
  c.kind != kMe || (maskBits c.meMask 16).all fun i => decide (2 ≤ rd s (F.MXE_STATE_STATE h i))

/-- Run command seq of hearth h if it has started, carries the row's opcode, and its chain and its MEs let it. -/
def opRow (h : Fin 16) (seq : BitVec 32) (opcode : Nat) (s : State) (body : State → Cmd → State) : Res :=
  if !unitLive s (U.disp h) then .next s else
  match findCmd s h seq.toNat with
  | none => .next s
  | some c => .next (if c.st == .granted && c.opcode == opcode && chainReady s h c && mesAwake s h c then body s c else s)

/-- The command's work is done; its COMMAND_COMPLETE follows. -/
def cmdDone (s : State) (h : Nat) (c : Cmd) : State := updCmd s h c.seq fun x => { x with st := .done }

/-- Go on with what a request gave; a request that fails fails the command, one that waits leaves it as it is (R46, R332).
DESIGN CHOICE (log entry 16). -/
def orFail {α : Type} (h : Nat) (c : Cmd) (unit : Nat) (r : State × Req α) (k : State → α → State) : State :=
  match r with
  | (s, .ok a) => k s a
  | (s, .fail code) => failRunning s h c unit code
  | (s, .wait) => cntHearth s h 13 1

/-- Read every byte of the tensors that a command reads, and the scale records in use, as its dispatcher (R91, R312, R326). -/
def readTensors (s : State) (h : Nat) (c : Cmd) (ds : List Desc) : State × Req Unit :=
  touchRanges s (idDisp h) false (some (cmdId s h c)) (ds.flatMap Desc.ranges ++ (ds.flatMap fun d => recRanges d false).eraseDups)

/-- As `readTensors` for byte ranges. -/
def readRanges (s : State) (h : Nat) (c : Cmd) (rs : List (Nat × Nat)) : State × Req Unit :=
  touchRanges s (idDisp h) false (some (cmdId s h c)) rs

/-- What a command that fails has written of its destination: values that it had handed to the store path stand there, the rest keeps
its contents, and programs must treat the whole of it as undefined (R129). Which bytes were written and what they hold are free choices;
a byte that the command may not write keeps its content. DESIGN CHOICE (log entry 24). -/
def partWritten (s : State) (h : Nat) (c : Cmd) (rs : List (Nat × Nat)) : State :=
  let as := rs.flatMap fun r => (List.range r.2).map (r.1 + ·)
  let (n, s) := takeFree s
  let (d, s) := takeFreeBytes s as.length
  each ((as.zip d).zip (List.range as.length)) s fun s p =>
    match access s (idDisp h) p.1.1 1 true (some (cmdId s h c)) with
    | (_, .ok _) => if bit n p.2 then poke s (plainAddr s p.1.1) [p.1.2] else s
    | _ => s

/-- Make the requests of a tensor's writes; its bytes follow through `Desc.setRaw`. DESIGN CHOICE (log entry 24). -/
def writeTensors (s : State) (h : Nat) (c : Cmd) (ds : List Desc) : State × Req Unit :=
  match touchRanges s (idDisp h) true (some (cmdId s h c)) (ds.flatMap Desc.ranges) with
  | (s, .fail code) => (partWritten s h c (ds.flatMap Desc.ranges), .fail code)
  | r => r

/-- Make the requests for a command's writes to ranges of bytes: the answer names the parts that wait (R46). DESIGN CHOICE (log entry 24). -/
def writeRanges (s : State) (h : Nat) (c : Cmd) (rs : List (Nat × Nat)) : State × Req (List (Nat × Nat)) :=
  match touchWrites s (idDisp h) (some (cmdId s h c)) rs with
  | (s, .fail code) => (partWritten s h c rs, .fail code)
  | r => r

/-- What a store left at the places that wait is taken back, and held until the wait there is over; the wait is counted (R46). -/
def holdBack (s t : State) (h : Nat) (c : Cmd) (unit : Nat) (holes : List (Nat × Nat)) : State :=
  each holes (if holes.isEmpty then t else cntHearth t h 13 1) fun t x =>
    let a := plainAddr s x.1
    let w : HeldWrite := { target := .cmd h c.seq unit, who := idDisp h, addr := x.1, data := peekBytes t a x.2 }
    { poke t a (peekBytes s a x.2) with held := t.held ++ [w] }

/-- A command writes tensors and reports to their scale records: the requests are made, and what `k` stores stands wherever its request need not wait; a request that fails fails
the command (R46, R161). DESIGN CHOICE (log entry 72). -/
def storing (s : State) (h : Nat) (c : Cmd) (unit : Nat) (ds : List Desc) (k : State → State) : State :=
  match touchRanges s (idDisp h) true (some (cmdId s h c)) (ds.flatMap fun d => recRanges d true).eraseDups with
  | (s, .wait) => cntHearth s h 13 1
  | (s, .fail code) => failRunning (partWritten s h c (ds.flatMap Desc.ranges)) h c unit code
  | (s, .ok _) =>
    match writeRanges s h c (ds.flatMap Desc.ranges) with
    | (s, .ok holes) => holdBack s (k s) h c unit holes
    | (s, .fail code) => failRunning s h c unit code
    | (s, .wait) => s

/-- A write of the command waits at its target (R46). -/
def heldFor (s : State) (h : Nat) (c : Cmd) : Bool := s.held.any fun w => match w.target with | .cmd g q _ => g == h && q == c.seq | _ => false

/-- The seed of R102 of a command. -/
def cmdSrSeed (s : State) (c : Cmd) : BitVec 64 :=
  match findTicket s c.ticket with
  | some t => srSeed t.ticketSeed (t.stepIndex c.step) (c.fld 8 4)
  | none => 0

/-- Narrowing choice of an element with linear index i. -/
def cmdRnd (s : State) (c : Cmd) (i : Nat) : Rnd :=
  if c.sr then some (srBits (cmdSrSeed s c) (BitVec.ofNat 64 i)) else none

end Sys2Proof.Machine
end

