-- ==== Sys2Proof/Machine/Store.lean ====
section
/-! DEFINITION. The store path (R97, R99 to R101, R103, R104): a whole tensor stored from values, with what it reports. -/

namespace Sys2Proof.Machine

/-- What a store reports (R91, R101, R105): the largest finite magnitude, dominated blocks, flags in the bits of STATUS. -/
structure Report where
  amax : Nat
  dom : Nat
  stat : Nat
  deriving DecidableEq, Repr

def Report.empty : Report := { amax := 0, dom := 0, stat := 0 }
def Report.merge (a b : Report) : Report :=
  { amax := fp32MaxMag a.amax b.amax, dom := a.dom + b.dom, stat := a.stat ||| b.stat }

/-- How a store scales: `factor` multiplies each value (none: not at all); `before` multiplies it for amax (R91, DEDUCED, log entry 15);
`flush` is the subnormal mode and `rnd` the rounding choice by linear index. -/
structure StoreMode where
  factor : Option Nat
  before : Nat
  flush : Bool
  rnd : Nat → Rnd

/-- The scaled value y of a value, rounded to FP32 under R104, with its flags; and y as a value. DEDUCED (log entry 15). -/
def StoreMode.scale (m : StoreMode) (v : FVal) : FVal × Nat :=
  match m.factor with
  | none => (v, 0)
  | some f => let (n, g) := scaleTo fp32 v (fp32.decode f); (fp32.decode n, g)

/-- A value's report to amax (R91). DEDUCED (log entry 15). -/
def StoreMode.amaxOf (m : StoreMode) (v : FVal) : Nat × Nat :=
  if v.isFinite then ((if m.before = fp32One then (fp32.round false v).1 else (scaleTo fp32 v (fp32.decode m.before)).1) % 2 ^ 31, 0)
  else (0, stNonfiniteAmax)

/-- One element that is no DQ element: its stored bits and flags (R99). -/
def storeElem (f : Fmt) (m : StoreMode) (i : Nat) (v : FVal) : Nat × Nat :=
  let (y, g) := m.scale v
  match f.float with
  | some ff => let (n, h) := narrowF ff m.flush (if f = .bf16 then m.rnd i else none) y; (n, g ||| h)
  | none => let (q, h) := narrowI f y; (intBits f.bits q, g ||| h)

/-- Write one block of a DQ tensor at the index list of its first element: exponent code and elements, and zero at the positions of an
interleaved block beyond the extent (R82, R88, R89). -/
def Desc.setBlock (s : State) (d : Desc) (f : Fmt) (ix : List Nat) (code : Nat) (elems : List Nat) : State :=
  let b := d.blockDim
  let place (j : Nat) : List Nat := ix.set b (ix.getD b 0 + j)
  let s := each ((List.range elems.length).zip elems) s fun s p => d.setRaw s f (place p.1) p.2
  let s := poke s (plainAddr s (d.expAddr f ix)) [BitVec.ofNat 8 code]
  each (if d.layout = 0 then (List.range 32).drop elems.length else []) s fun s j => d.setRaw s f (place j) 0

/-- One block of a DQ tensor at the index list of its first element (R100): bits are written in place. -/
def storeBlockAt (s : State) (d : Desc) (f : Fmt) (m : StoreMode) (v : List Nat → FVal) (ix : List Nat) : State × Report :=
  let b := d.blockDim
  let n := min 32 (d.size b - ix.getD b 0)
  let ixs := (List.range n).map fun j => ix.set b (ix.getD b 0 + j)
  let vs := ixs.map v
  let ys := vs.map m.scale
  let blk := storeBlock f vs (ys.map (·.1)) (fun j => m.rnd (d.linear (ixs.getD j [])))
    (ys.foldl (fun a y => a ||| y.2) 0)
  let s := d.setBlock s f ix blk.code (blk.elems.map (intBits f.bits))
  let am := vs.map m.amaxOf
  (s, { amax := am.foldl (fun a x => fp32MaxMag a x.1) 0, dom := if blk.dominated then 1 else 0,
        stat := am.foldl (fun a x => a ||| x.2) blk.flags })

/-- Store a whole tensor from its elements' values (R99, R100). -/
def storeTensor (s : State) (d : Desc) (m : StoreMode) (v : List Nat → FVal) : State × Report :=
  match d.format with
  | none => (s, Report.empty)
  | some f =>
    if d.count = 0 then (s, Report.empty)
    else if f.isDq then
      let firsts := d.indices.filter fun ix => ix.getD d.blockDim 0 % 32 == 0
      firsts.foldl (fun (p : State × Report) ix => let (s, r) := storeBlockAt p.1 d f m v ix; (s, p.2.merge r)) (s, Report.empty)
    else
      d.indices.foldl (fun (p : State × Report) ix =>
        let x := v ix
        let (n, g) := storeElem f m (d.linear ix) x
        let (a, ga) := m.amaxOf x
        (d.setRaw p.1 f ix n, p.2.merge { amax := a, dom := 0, stat := g ||| ga })) (s, Report.empty)

/-- The store mode of a command for a destination that is no accumulator readout: y := v × fp32_div(1, s_d) for the formats with a
scale, v otherwise (R99, R100). -/
def plainMode (s : State) (c : Cmd) (d : Desc) : StoreMode :=
  let scaled := d.scalePtr != 0 && match d.format with
    | some .int4 => true | some .int8 => true | some .dq4 => true | some .dq8 => true | _ => false
  { factor := if scaled then some (fp32Div fp32One (tensorScale s d)) else none, before := fp32One, flush := c.subn, rnd := cmdRnd s c }

/-- The store mode of an accumulator readout (R97). -/
def readoutMode (s : State) (c : Cmd) (a b d : Desc) : StoreMode :=
  let ab := fp32Mul (tensorScale s a) (tensorScale s b)
  { factor := some (fp32Div ab (tensorScale s d)), before := ab, flush := c.subn, rnd := cmdRnd s c }

/-- The notices that a command's arithmetic raises (R98, R105, R107). -/
def noteStat (s : State) (h : Nat) (c : Cmd) (unit stat : Nat) : State :=
  noteOnce (notices s h c unit stat) h c unit [(6, Code.INT_SAT)] stat

/-- What a store reports goes to the destination's record, the ticket, the Ember rings and the block-dominance counter (R91,
R101, R105, R107); `unit` is the unit that stores. -/
def reportStore (s : State) (h : Nat) (c : Cmd) (unit : Nat) (d : Desc) (r : Report) : State :=
  reportTo (cntHearth (noteStat s h c unit r.stat) h 15 r.dom) c d (some r.amax) r.dom (r.stat % 128)

/-- A command stores its destination: the requests, the bytes, the report; then it is done. -/
def storeAndDone (s : State) (h : Nat) (c : Cmd) (unit : Nat) (d : Desc) (m : StoreMode) (v : List Nat → FVal) (stat : Nat) : State :=
  storing s h c unit [d] fun s =>
    let (s, r) := storeTensor s d m v
    cmdDone (reportStore s h c unit d { r with stat := r.stat ||| stat }) h c

end Sys2Proof.Machine
end

