-- ==== Sys2Proof/Machine/Product.lean ====
section
/-! DEFINITION. The array of a matrix engine (R96, R98, R108, R112 to R127): operand pairs, lanes, the order of additions, tiling, the
dealing of output units to MEs, and the accumulator slots. -/

namespace Sys2Proof.Machine

/-! ### Operand pairs (R96, Table 4-6) -/

/-- The array format of a streamed and a stationary format with a pass count; none where the pair is not listed. -/
def pairFormat (a b : Fmt) (passes : Nat) : Option Fmt :=
  let one (f : Fmt) : Option Fmt := if passes = 1 then some f else none
  match a, b with
  | .int4, .int4 => one .int4
  | .int4, .int8 => one .int8
  | .int8, .int4 => one .int8
  | .int8, .int8 => one .int8
  | .dq4, .dq4 => one .dq4
  | .int4, .dq4 => one .dq4
  | .dq4, .int4 => one .dq4
  | .dq8, .dq8 => one .dq8
  | .dq4, .dq8 => one .dq8
  | .dq8, .dq4 => one .dq8
  | .int4, .dq8 => one .dq8
  | .dq8, .int4 => one .dq8
  | .int8, .dq4 => one .dq8
  | .dq4, .int8 => one .dq8
  | .int8, .dq8 => one .dq8
  | .dq8, .int8 => one .dq8
  | .bf16, .fp32 => if passes = 3 then some .bf16 else none
  | .fp32, .bf16 => if passes = 2 ∨ passes = 3 then some .bf16 else none
  | .fp32, .fp32 => if passes = 3 then some .bf16 else none
  | .bf16, .bf16 => one .bf16
  | .bf16, .int4 => one .bf16
  | .bf16, .int8 => one .bf16
  | .bf16, .dq4 => one .bf16
  | .bf16, .dq8 => one .bf16
  | .int4, .bf16 => one .bf16
  | .int8, .bf16 => one .bf16
  | .dq4, .bf16 => one .bf16
  | .dq8, .bf16 => one .bf16
  | .fp16, .fp16 => one .fp16
  | .fp16, .int4 => one .fp16
  | .fp16, .int8 => one .fp16
  | .int4, .fp16 => one .fp16
  | .int8, .fp16 => one .fp16
  | _, _ => none

/-- An engine does not accept INT16 or INT32 operands (R96). -/
def engineBad (f : Fmt) : Bool := f == .int16 || f == .int32

/-- The ME increment at an array format (Table 3-1). -/
def meInc : Fmt → Nat
  | .int4 => 13
  | .dq4 => 13
  | .fp16 => 8
  | _ => 11

/-- The increment with q of t sub-arrays active (R58): ceil((c − 1) × q / t) with c − 1 the full increment. -/
def meIncShape (f : Fmt) (q t : Nat) : Nat := ceilDiv (meInc f * q) t

/-! ### Lanes (R96, R108) -/

/-- An element as it enters the array: the integer and block code of the integer and DQ formats; the encodings of the passes of the
floating-point formats; flags. -/
structure Lane where
  q : Int
  code : Nat
  hi : Nat
  lo : Nat
  stat : Nat
  deriving DecidableEq, Repr

def Lane.zero : Lane := { q := 0, code := 0, hi := 0, lo := 0, stat := 0 }

/-- The high and low parts of an FP32 operand (R108). -/
def splitFp32 (flush : Bool) (n : Nat) : Lane :=
  let (x, fl) := fp32.load flush n
  match x with
  | .fin neg _ _ =>
    let (h, f1) := bf16.round flush x
    let h := if h = bf16.inf neg then bf16.maxFinite neg else h
    let (l, f2) := bf16.round flush (x.sub (bf16.decode h))
    { q := 0, code := 0, hi := h, lo := l, stat := flagIf (fl || f1 || f2) stSubn }
  | x => { q := 0, code := 0, hi := (bf16.round flush x).1, lo := 0, stat := 0 }

/-- An element of format f, with its block code, as a lane of an array format (Table 4-6). -/
def laneOf (arr : Fmt) (passes : Nat) (flush : Bool) (f : Fmt) (code raw : Nat) : Lane :=
  let q := sext f.bits raw
  match arr with
  | .bf16 =>
    match f with
    | .bf16 => let (x, fl) := bf16.load flush raw; { q := 0, code := 0, hi := (bf16.round flush x).1, lo := 0, stat := flagIf fl stSubn }
    | .fp32 => if passes = 1 then Lane.zero else splitFp32 flush raw
    | f =>
      if f.isDq then
        if code = 0 then Lane.zero
        else if code = 0xFF then { q := 0, code := 0, hi := bf16.nan, lo := 0, stat := stInvalid }
        else
          let (n, g) := scaleTo bf16 (FVal.ofInt q) (FVal.fin false 1 ((code : Int) - 127))
          { q := 0, code := 0, hi := n, lo := 0, stat := g }
      else { q := 0, code := 0, hi := (bf16.round flush (FVal.ofInt q)).1, lo := 0, stat := 0 }
  | .fp16 =>
    match f with
    | .fp16 => let (x, fl) := fp16.load flush raw; { q := 0, code := 0, hi := (fp16.round flush x).1, lo := 0, stat := flagIf fl stSubn }
    | _ => { q := 0, code := 0, hi := (fp16.round flush (FVal.ofInt q)).1, lo := 0, stat := 0 }
  | _ => { q := q, code := if f.isDq then code else 0x7F, hi := 0, lo := 0, stat := 0 }

/-- The lane of an element of a tensor. -/
def tensorLane (s : State) (arr : Fmt) (passes : Nat) (flush : Bool) (d : Desc) (f : Fmt) (ix : List Nat) : Lane :=
  laneOf arr passes flush f (if f.isDq then d.expCode s f ix else 0) (d.rawElem s f ix)

/-! ### Order of additions (R114) -/

/-- A product of an engine: array format, passes, subnormal mode, the K rows of a stationary tile, extents and operands by batch,
row and K position, and by batch, K position and column. `seg` is the length of a segment between DQ block boundaries along K:
32, or 1 where a block of the stationary operand lies along N. -/
structure Prod where
  arr : Fmt
  passes : Nat
  flush : Bool
  kt : Nat
  m : Nat
  n : Nat
  k : Nat
  batches : Nat
  seg : Nat
  a : Nat → Nat → Nat → Lane
  b : Nat → Nat → Nat → Lane

/-- Accumulator values are 32-bit patterns: INT32 in the integer formats, FP32 otherwise. -/
def accInt (arr : Fmt) : Bool := arr == .int4 || arr == .int8

/-- FP32 addition of two values with flushing (R85, R106). -/
def addF (flush : Bool) (a b : FVal) : Nat × Nat := let (n, fl) := fp32.round flush (a.add b); (n, flagIf fl stSubn)

/-- ((p0 + p1) + p2) …, each addition in FP32; +0 of no products. -/
def sumProducts (flush : Bool) : List FVal → Nat × Nat
  | [] => (0, 0)
  | [p] => let (n, fl) := fp32.round flush p; (n, flagIf fl stSubn)
  | p :: q :: ps =>
    let (n, g) := addF flush p q
    ps.foldl (fun (t : Nat × Nat) x => let (n, g) := addF flush (fp32.decode t.1) x; (n, t.2 ||| g)) (n, g)

/-- One DQ segment: the exact integer sum, scaled by its pair of block codes (R96, R104, R114). -/
def segment (xs : List (Lane × Lane)) : Nat × Nat :=
  match xs with
  | [] => (0, 0)
  | (a, b) :: _ =>
    if a.code = 0xFF ∨ b.code = 0xFF then (fp32.nan, stInvalid)
    else if a.code = 0 ∨ b.code = 0 then (0, 0)
    else scaleTo fp32 (FVal.ofInt (xs.foldl (fun t x => t + x.1.q * x.2.q) 0)) (FVal.fin false 1 ((a.code : Int) + b.code - 254))

/-- Cut a tile's positions at the block boundaries (R114). DEDUCED (log entry 27). -/
def segmentsOf (w k0 len : Nat) : List (Nat × Nat) :=
  (List.range (ceilDiv (k0 % w + len) w)).map fun j =>
    let lo := Nat.max k0 (k0 / w * w + w * j)
    let hi := Nat.min (k0 + len) (k0 / w * w + w * (j + 1))
    (lo, hi - lo)

/-- a := a + t of INT32 accumulation, saturating (R98). -/
def satAcc (a t : Int) : Nat × Nat :=
  let v := a + t
  let c := clampInt (-(2 ^ 31)) (2 ^ 31 - 1) v
  (intBits 32 c, flagIf (c != v) stIntSat)

/-- One pass's tile sum in a floating-point array format: `pick` chooses the parts of the two lanes. -/
def passSum (P : Prod) (f : FFmt) (pick : Lane → Lane → Nat × Nat) (ls : List (Lane × Lane)) : Nat × Nat :=
  sumProducts P.flush (ls.map fun x => let (u, v) := pick x.1 x.2; (f.decode u).mul (f.decode v))

/-- The sums that one stationary tile sends to an accumulator element, in order (R114). -/
def tileSums (P : Prod) (bt m n k0 len : Nat) : List (Nat × Nat) :=
  let ks := (List.range len).map (k0 + ·)
  let ls := ks.map fun k => (P.a bt m k, P.b bt k n)
  match P.arr with
  | .int4 => [satAcc 0 (ls.foldl (fun t x => t + x.1.q * x.2.q) 0)]
  | .int8 => [satAcc 0 (ls.foldl (fun t x => t + x.1.q * x.2.q) 0)]
  | .fp16 => [passSum P Machine.fp16 (fun x y => (x.hi, y.hi)) ls]
  | .bf16 =>
    let hh := passSum P Machine.bf16 (fun x y => (x.hi, y.hi)) ls
    let lh := passSum P Machine.bf16 (fun x y => (x.lo, y.hi)) ls
    let hl := passSum P Machine.bf16 (fun x y => (x.hi, y.lo)) ls
    match P.passes with
    | 2 => [hh, lh]
    | 3 => [hh, lh, hl]
    | _ => [hh]
  | _ =>
    let us := (segmentsOf P.seg k0 len).map fun g =>
      segment ((List.range g.2).map fun j => (P.a bt m (g.1 + j), P.b bt (g.1 + j) n))
    match us with
    | [] => [(0, 0)]
    | u :: us => [us.foldl (fun (t : Nat × Nat) x => let (n, g) := addF P.flush (fp32.decode t.1) (fp32.decode x.1); (n, t.2 ||| x.2 ||| g)) u]

/-- Flags that the lanes of a tile raised as they were loaded. -/
def tileStat (P : Prod) (bt m n k0 len : Nat) : Nat :=
  (List.range len).foldl (fun t j => t ||| (P.a bt m (k0 + j)).stat ||| (P.b bt (k0 + j) n).stat) 0

/-- The accumulator element of an output after every tile of the K loop, ascending K: the first contribution is assigned where
nothing was accumulated before (R114). DEDUCED (log entry 96). -/
def accumulate (P : Prod) (bt m n : Nat) (init : Option Nat) : Nat × Nat :=
  let tiles := if P.kt = 0 then [] else (List.range (ceilDiv P.k P.kt)).map fun j => (j * P.kt, min P.kt (P.k - j * P.kt))
  let step (acc : Option Nat × Nat) (t : Nat × Nat) : Option Nat × Nat :=
    match acc.1 with
    | none => (some t.1, acc.2 ||| t.2)
    | some a =>
      let (v, g) := if accInt P.arr then satAcc (sext 32 a) (sext 32 t.1) else addF P.flush (fp32.decode a) (fp32.decode t.1)
      (some v, acc.2 ||| t.2 ||| g)
  let r := tiles.foldl (fun acc t =>
    let acc := (tileSums P bt m n t.1 t.2).foldl step acc
    (acc.1, acc.2 ||| tileStat P bt m n t.1 t.2)) (init, 0)
  (r.1.getD 0, r.2)

/-- The value of an accumulator at readout, before the factor of R97. -/
def accValue (arr : Fmt) (a : Nat) : FVal :=
  if accInt arr then fp32.decode (fp32.round false (FVal.ofInt (sext 32 a))).1 else fp32.decode a

/-! ### Tiling (R118, R145 to R150) -/

/-- Sub-arrays and their side (Table 5-3). -/
def shapeSubs (shape : Nat) : Nat := match shape with | 1 => 4 | 2 => 16 | _ => 1
def shapeSide (shape : Nat) : Nat := match shape with | 1 => 64 | 2 => 32 | _ => 128
/-- Longest stream run. -/
def shapeRun (shape : Nat) : Nat := match shape with | 1 => 512 | 2 => 256 | _ => 1024
/-- Rows of B that a cell holds (R113). -/
def kappa (arr : Fmt) : Nat := if arr = .int4 ∨ arr = .dq4 then 2 else 1

/-- Cut a range into tiles of t; a tile of 0 leaves it whole. -/
def cut (r : Nat × Nat) (t : Nat) : List (Nat × Nat) :=
  if t = 0 then [r] else (List.range (ceilDiv r.2 t)).map fun j => (r.1 + j * t, min t (r.2 - j * t))

/-- A tile: ranges of M, N and K. -/
structure Tile where
  m : Nat × Nat
  n : Nat × Nat
  k : Nat × Nat
  deriving DecidableEq, Repr

/-- Tiles in a loop order of Table 6-7. -/
def orderTiles (code : Nat) (ms ns ks : List (Nat × Nat)) : List Tile :=
  match code with
  | 0 => ms.flatMap fun m => ns.flatMap fun n => ks.map fun k => ⟨m, n, k⟩
  | 1 => ns.flatMap fun n => ms.flatMap fun m => ks.map fun k => ⟨m, n, k⟩
  | 2 => ms.flatMap fun m => ks.flatMap fun k => ns.map fun n => ⟨m, n, k⟩
  | 3 => ns.flatMap fun n => ks.flatMap fun k => ms.map fun m => ⟨m, n, k⟩
  | 4 => ks.flatMap fun k => ms.flatMap fun m => ns.map fun n => ⟨m, n, k⟩
  | _ => ks.flatMap fun k => ns.flatMap fun n => ms.map fun m => ⟨m, n, k⟩

/-- A level: tile extents in elements and its loop order. -/
structure Level where
  m : Nat
  n : Nat
  k : Nat
  order : Nat
  deriving DecidableEq, Repr

/-- The L0 tiles of a region, in the order of the nested loops, outermost level first (R146). -/
def nest : List Level → Tile → List Tile
  | [], t => [t]
  | l :: ls, t => (orderTiles l.order (cut t.m l.m) (cut t.n l.n) (cut t.k l.k)).flatMap (nest ls)

/-- How a command's work is cut: shape, run, column tile, the used levels from the outermost to L1, the L0 level, the M extent
within which runs are dealt (R150), and the logical MEs. -/
structure Tiling where
  shape : Nat
  run : Nat
  nt : Nat
  levels : List Level
  l0 : Level
  dealM : Nat
  mes : List Nat
  deriving DecidableEq, Repr

/-- The ME that streams the run that starts at row m0: the runs of an L1 tile are dealt in ascending logical order (R150). -/
def Tiling.meOf (T : Tiling) (m0 : Nat) : Nat :=
  let i := (if T.dealM = 0 then m0 else m0 % T.dealM) / max T.run 1
  T.mes.getD (i % max T.mes.length 1) 0

/-- Keep the first of equal entries. -/
def dedup {α : Type} [DecidableEq α] (xs : List α) : List α :=
  xs.foldl (fun acc x => if acc.contains x then acc else acc ++ [x]) []

/-- The output units of an ME within one batch group, in the order in which it first receives sums for them (R127). -/
def Tiling.groupUnits (T : Tiling) (P : Prod) (me : Nat) : List ((Nat × Nat) × (Nat × Nat)) :=
  let tiles := nest (T.levels ++ [T.l0]) ⟨(0, P.m), (0, P.n), (0, max P.k 1)⟩
  dedup ((tiles.filter fun t => T.meOf t.m.1 == me).map fun t => (t.m, t.n))

/-- Slots that one output unit needs (R124): r. -/
def Tiling.slotsPer (T : Tiling) : Nat := ceilDiv T.run (shapeSide T.shape)

/-- Batch groups (R150). -/
def Tiling.groups (T : Tiling) (P : Prod) : Nat := ceilDiv P.batches (shapeSubs T.shape)

/-- The slots that the command's output units take on an ME under R127: L. -/
def Tiling.liveAll (T : Tiling) (P : Prod) (me : Nat) : Nat := T.slotsPer * T.groups P * (T.groupUnits P me).length

/-- Where an output lies on its ME: slot, counted from the base slot, and position within it (R124, R127). Within a slot the sub-arrays
follow one another, each with its rows in order. DESIGN CHOICE (log entry 105). -/
def Tiling.place (T : Tiling) (P : Prod) (bt m n : Nat) : Nat × Nat × Nat :=
  let side := shapeSide T.shape
  let me := T.meOf (m / max T.run 1 * T.run)
  let us := T.groupUnits P me
  let i := us.findIdx fun u => decide (u.1.1 ≤ m) && decide (m < u.1.1 + u.1.2) && decide (u.2.1 ≤ n) && decide (n < u.2.1 + u.2.2)
  match us[i]? with
  | none => (me, 0, 0)
  | some u =>
    let g := bt / shapeSubs T.shape
    let sub := bt % shapeSubs T.shape
    let row := m - u.1.1
    (me, (g * us.length + i) * T.slotsPer + row / side, sub * side * side + row % side * side + (n - u.2.1))

/-! ### The live set (R125, R147) -/

/-- Stream runs that one ME takes of mM rows, at most: those of each L1 tile are dealt in turn (R147, R150). -/
def Tiling.runsOf (T : Tiling) (mM : Nat) : Nat :=
  (cut (0, mM) T.dealM).foldl (fun a t => a + ceilDiv (ceilDiv t.2 (max T.run 1)) (max T.mes.length 1)) 0

/-- Live set of a command without accumulate-in and keep: `mM` and `mN` are the extents of the region within which p and n_e are
counted, clipped to the command's; a partial last run or column counts as a whole one. DEDUCED (log entry 104). -/
def Tiling.liveSet (T : Tiling) (order mM mN : Nat) : Nat :=
  let p := T.runsOf mM
  let ne := ceilDiv mN (max T.nt 1)
  let r := T.slotsPer
  match order with
  | 0 => r
  | 1 => r
  | 2 => r * ne
  | 3 => r * p
  | _ => r * p * ne

/-- The live set at the highest used level whose tile covers less than the whole K extent (R147); none where the loop order breaks the rule. -/
def Tiling.checkLive (T : Tiling) (m n k : Nat) : Option Nat :=
  match T.levels.find? fun l => decide (l.k < k) with
  | none =>
    match T.levels.getLast? with
    | none => some (T.liveSet T.l0.order m n)
    | some l => some (T.liveSet T.l0.order (min l.m m) (min l.n n))
  | some l => if l.order ≤ 1 then some (T.liveSet 4 (min l.m m) (min l.n n)) else none

end Sys2Proof.Machine
end

