-- ==== Sys2Proof/Machine/Matrix.lean ====
section
/-! DEFINITION. Matrix engines (R112 to R133, R140 to R151): the MM command, accumulator slots, faults, wake, ramps, readout, and the
built-in test. -/

namespace Sys2Proof.Machine

/-! ### Slots (R124 to R129) -/

/-- Slot flags of a command: accumulate-in, keep and base slot (Table 6-4). -/
structure AccMode where
  accIn : Bool
  keep : Bool
  base : Nat
  deriving DecidableEq, Repr

/-- The fields of an MM or CONV body that the two share (Tables 6-4 and 8-1). -/
def Cmd.loops (c : Cmd) : Nat := c.fld 0x22 2
def Cmd.mode (c : Cmd) : Nat := c.fld 0x24 4
def Cmd.shape (c : Cmd) : Nat := bits c.mode 0 2
def Cmd.passes (c : Cmd) : Nat := bits c.mode 2 2
def Cmd.acc (c : Cmd) : AccMode := { accIn := bit c.mode 4, keep := bit c.mode 5, base := bits c.mode 6 3 }

/-! ### Configuration flash and retirement (R25, R41, R42, R409) -/

/-- A byte of the configuration flash; erased, 0xFF, where nothing was programmed. -/
def flashByte (s : State) (a : Nat) : BitVec 8 := s.flash.get 0xFF a
def flashBytes (s : State) (a n : Nat) : Bytes := (List.range n).map fun i => flashByte s (a + i)
def flashNat (s : State) (a n : Nat) : Nat := leNat (flashBytes s a n)
def flashWrite (s : State) (a : Nat) : Bytes → State
  | [] => s
  | b :: bs => flashWrite { s with flash := s.flash.set a b } (a + 1) bs

/-- CRC-32 with the IEEE 802.3 polynomial. -/
def crc32 (bs : Bytes) : Nat :=
  let step (c : BitVec 32) (b : BitVec 8) : BitVec 32 :=
    (List.range 8).foldl (fun (c : BitVec 32) _ => if c.getLsbD 0 then (c >>> 1) ^^^ 0xEDB88320 else c >>> 1) (c ^^^ b.setWidth 32)
  ((bs.foldl step 0xFFFFFFFF) ^^^ 0xFFFFFFFF).toNat

/-- The physical ME of a logical one (R41). -/
def physicalMe (s : State) (h i : Nat) : Nat :=
  let n := h / 8
  let b := h % 8
  if rd s (F.KDL_SPARE_RETIRED n b) = 1 ∧ rd s (F.KDL_SPARE_PHYS n b) ≤ i then i + 1 else i

/-- Append a retirement record for an ME; a full area takes none (R42, R409). DEDUCED (log entry 56). -/
def retireRecord (s : State) (h i : Nat) : State :=
  match (List.range 1024).find? fun k => (flashBytes s (0x03110000 + 16 * k) 16).all (· == 0xFF) with
  | none => s
  | some k =>
    let r := leBytes 2 0x4D52 ++ leBytes 1 h ++ leBytes 1 (physicalMe s h i) ++ zeros 8
    flashWrite s (0x03110000 + 16 * k) (r ++ leBytes 4 (crc32 r))

/-- An ME reports an error and becomes FAULTED, and so power-gated (R130); it is retired at once, or when it has passed a test before
(R409). DEDUCED (log entry 56). -/
def faultMe (s : State) (h i : Nat) : State :=
  let s := if rd s (F.MXE_ERR_FAULTED h i) = 0 ∧ (rd s F.MGT_CKPT_CFG_RETIRE_ON_TEST = 0 ∨ s.meProven.contains (16 * h + i)) then retireRecord s h i else s
  recharge (wr (wr s (F.MXE_STATE_STATE h i) 6) (F.MXE_ERR_FAULTED h i) 1) h

/-- What an ME makes of accumulator words with flipped bits as it reads them: one flipped bit is corrected, counted and recorded; true where a
word has two (R129). -/
def readWords (s : State) (h i : Nat) (errs : Smap Nat) (cmd : Option CmdId) : State × Bool :=
  if errs.any fun e => decide (2 ≤ e.2) then (cntHearth (wr s (F.MXE_ERR_ACC_UNCORR h i) 1) h 18 1, true)
  else
    (each errs s fun s _ =>
      emberCode (cntHearth (satAdd (wr s (F.MXE_ERR_ACC_CORR h i) 1) (F.MXE_ERR_CORR_COUNT h i) 1) h 17 1) (U.me h i) Code.ACC_CORR cmd, false)

/-- Read a kept slot's words (R129). -/
def readSlot (s : State) (h i k : Nat) (cmd : Option CmdId) : State × Bool :=
  match keptAt s (16 * h + i) k with
  | none => (s, false)
  | some x =>
    match readWords s h i x.errs cmd with
    | (s, true) => (s, true)
    | (s, false) => ({ s with kept := s.kept.map fun y => if y.me = x.me ∧ y.slot = k then { y with errs := [] } else y }, false)

/-- Read the words of an ME's LIVE and READOUT slots (R129). -/
def readLive (s : State) (h i : Nat) (cmd : Option CmdId) : State × Bool :=
  let mine (e : Nat × Nat) : Bool := e.1 / 2 ^ 18 == 16 * h + i
  readWords { s with wordErrs := s.wordErrs.filter fun e => !mine e } h i (s.wordErrs.filter mine) cmd

/-! ### Running a product -/

/-- The slot rules of R127 as they stand when the command runs, where its decoding has not foreseen them: 0, or `ACC_SLOT`.
DEDUCED (log entry 28). DEDUCED (log entry 96). -/
def slotRule (s : State) (h : Nat) (c : Cmd) (P : Prod) (T : Tiling) (A : AccMode) : Nat :=
  codeIf (T.mes.any fun i => (List.range (T.liveAll P i)).any fun j =>
    match keptAt s (16 * h + i) (A.base + j) with
    | some x => if A.accIn then x.ticket != c.ticket else A.keep
    | none => A.accIn) Code.ACC_SLOT

/-- An ME checks the parity of the stationary rows that it loads, if any, and reads its slots, the kept ones `ks` among them: the code of
what fails it (R129). -/
def readMe (s : State) (h i : Nat) (loads : Bool) (ks : List Nat) (cmd : Option CmdId) : State × Nat :=
  if loads && s.parityBad.contains (16 * h + i) then (wr s (F.MXE_ERR_STAT_PARITY h i) 1, Code.STAT_PARITY)
  else
    let (s, bad) := ks.foldl (fun (p : State × Bool) k => if p.2 then p else readSlot p.1 h i k cmd) (readLive s h i cmd)
    (s, if bad then Code.ACC_ECC else 0)

/-- The MEs of a command check what they load and read: the first that fails, with its code (R129). -/
def readMes (s : State) (h : Nat) (mes : List Nat) (loads : Bool) (ks : Nat → List Nat) (cmd : Option CmdId) : State × Option (Nat × Nat) :=
  mes.foldl (fun (p : State × Option (Nat × Nat)) i =>
    match p.2 with
    | some _ => p
    | none => let (s, code) := readMe p.1 h i loads (ks i) cmd; (s, if code = 0 then none else some (i, code))) (s, none)

/-- Free values for the counts that depend on timing alone: waves streamed, none of a command without waves (R123), and stalls
(DESIGN CHOICE, log entry 16). -/
def meTiming (s : State) (h : Nat) (mes : List Nat) (waves : Bool) : State :=
  each mes s fun s i =>
    let (b, s) := if waves then takeFree s else (0, s)
    let (x, s) := takeFree s
    let (y, s) := takeFree s
    let s := wr (wr (wr s (F.CNT_ME_VALUE h (4 * i)) b) (F.CNT_ME_VALUE h (4 * i + 2)) x) (F.CNT_ME_VALUE h (4 * i + 3)) y
    cntHearth (cntHearth s h 1 b) h 2 (x + y)

/-- Counter index of an array format (Table 17-3). -/
def opsIndex : Fmt → Nat
  | .int4 => 3
  | .int8 => 4
  | .fp16 => 5
  | .dq4 => 7
  | .dq8 => 8
  | _ => 6

/-- Operations by array format and ME, counted under the command's tag (R434, Table 17-3). -/
def countOps (s : State) (h : Nat) (c : Cmd) (arr : Fmt) (waves : Bool) (per : List (Nat × Nat)) : State :=
  let s := each per s fun s p =>
    let s := each (List.range 4) s fun s k => wr s (F.CNT_ME_TAG h (4 * p.1 + k)) (c.seq % 65536)
    wr s (F.CNT_ME_VALUE h (4 * p.1 + 1)) p.2
  meTiming (cntHearth s h (opsIndex arr) (per.foldl (fun a p => a + p.2) 0)) h (per.map (·.1)) waves

/-- Operations of a product on one ME: two per element product and pass (R23, R229). -/
def opsOf (P : Prod) (T : Tiling) (i : Nat) : Nat :=
  2 * P.passes * P.k * P.batches * (T.groupUnits P i).foldl (fun a u => a + u.1.2 * u.2.2) 0

/-- An ME's registers as its command has run on it, and the state it is left in: draining, with every row still enabled if it streamed
(R77, Tables 5-7 and 5-8). DESIGN CHOICE (log entry 90). -/
def meRan (s : State) (h i shape arr passes : Nat) (waves : Bool) : State :=
  let s := wr (wr (wr s (F.MXE_STATE_SHAPE h i) shape) (F.MXE_STATE_FORMAT h i) arr) (F.MXE_STATE_PASSES h i) passes
  wr (if waves then { s with bellows := s.bellows.set (16 * h + i) 128 } else s) (F.MXE_STATE_STATE h i) 5

/-- Code of an array format (Table 4-1). -/
def fmtCode : Fmt → Nat
  | .int4 => 0x01
  | .int8 => 0x02
  | .int16 => 0x03
  | .int32 => 0x04
  | .fp16 => 0x10
  | .bf16 => 0x11
  | .fp32 => 0x12
  | .dq4 => 0x20
  | .dq8 => 0x21

/-- All outputs of a product. -/
def outputs (P : Prod) : List (Nat × Nat × Nat) :=
  (List.range P.batches).flatMap fun b => (List.range P.m).flatMap fun m => (List.range P.n).map fun n => (b, m, n)

/-- Accumulator value of an output that a command adds to: the kept contents, or nothing. -/
def initOf (s : State) (h : Nat) (P : Prod) (T : Tiling) (A : AccMode) (b m n : Nat) : Option Nat :=
  if !A.accIn then none else
  let (i, k, pos) := T.place P b m n
  (keptAt s (16 * h + i) (A.base + k)).map fun x => x.vals.get 0 pos

/-- The slots that a keeping command leaves (R127). -/
def keepSlots (s : State) (h : Nat) (c : Cmd) (P : Prod) (T : Tiling) (A : AccMode) (acc : Nat → Nat → Nat → Nat) : State :=
  let vals (i k : Nat) : Smap Nat :=
    ((outputs P).filter fun o => let p := T.place P o.1 o.2.1 o.2.2; p.1 == i && p.2.1 == k).foldl
      (fun v o => v.set (T.place P o.1 o.2.1 o.2.2).2.2 (acc o.1 o.2.1 o.2.2))
      (match keptAt s (16 * h + i) (A.base + k) with | some x => if A.accIn then x.vals else [] | none => [])
  let new := T.mes.flatMap fun i => (List.range (T.liveAll P i)).map fun k =>
    ({ me := 16 * h + i, slot := A.base + k, ticket := c.ticket, step := c.step, vals := vals i k, errs := [] } : KeptSlot)
  let s := { s with kept := s.kept.filter (fun x => !new.any fun y => y.me == x.me && y.slot == x.slot) ++ new }
  each new s fun s x => wr s (slotF h (x.me % 16) x.slot) slotKEPT

/-- A command's LIVE slots on an ME are so no longer: FREE again, or KEPT as they were before it (R125, R127). -/
def endLive (s : State) (h i : Nat) : State :=
  each (List.range 8) s fun s k =>
    if rd s (slotF h i k) ≠ slotLIVE then s else wr s (slotF h i k) (if (keptAt s (16 * h + i) k).isSome then slotKEPT else slotFREE)

/-- The slots that a command takes on an ME as it begins to stream (R125, R127): those that its flags name, else the lowest-numbered FREE
ones, a choice that the spec leaves to the dispatcher. DESIGN CHOICE (log entry 106). -/
def takeSlots (s : State) (h i : Nat) (c : Cmd) : State :=
  let n := match c.slots.find? (·.1 == i) with | some p => p.2 | none => 0
  let A := c.acc
  let ks := if c.opcode != 0x18 && (A.accIn || A.keep) then (List.range n).map (A.base + ·)
            else ((List.range 8).filter fun k => rd s (slotF h i k) == slotFREE).take n
  each ks s fun s k => wr s (slotF h i k) slotLIVE

/-- The slots whose readout is in progress: those accumulated in, or as many as the last output unit needs (R126), the lowest-numbered ones
that are not KEPT. DESIGN CHOICE (log entry 106). -/
def readoutSlots (s : State) (h : Nat) (P : Prod) (T : Tiling) (A : AccMode) : State :=
  each T.mes s fun s i =>
    let s := endLive s h i
    let ks := if A.accIn then (List.range (T.liveAll P i)).map (A.base + ·)
              else ((List.range 8).filter fun k => rd s (slotF h i k) == slotFREE).take (min T.slotsPer (T.liveAll P i))
    let s := { s with kept := s.kept.filter fun x => !(x.me == 16 * h + i && ks.contains x.slot) }
    each ks s fun s k => wr s (slotF h i k) slotREADOUT

/-- Run a product on its MEs (R112 to R129): slot rules, sums, and either keeping or the readout into the destination; a command that fails
has written a part of it. `at_` gives
batch, row and column of a destination element, `val` the accumulator element of an output over what it adds to, `ops` the
operations of an ME. DESIGN CHOICE (log entry 24). -/
def runProduct (s : State) (h : Nat) (c : Cmd) (P : Prod) (T : Tiling) (A : AccMode) (d : Desc) (m : StoreMode)
    (at_ : List Nat → Nat × Nat × Nat) (val : Nat → Nat → Nat → Option Nat → Nat × Nat) (ops : Nat → Nat) (stat0 : Nat) : State :=
  match slotRule s h c P T A with
  | 0 =>
    match readMes s h T.mes (P.k != 0) (fun i => if A.accIn then (List.range (T.liveAll P i)).map (A.base + ·) else []) (some (cmdId s h c)) with
    | (s, some (i, code)) => failRunning (faultMe (if A.keep then s else partWritten s h c d.ranges) h i) h c (U.me h i) code
    | (s, none) =>
      let res (b x y : Nat) : Nat × Nat := val b x y (initOf s h P T A b x y)
      let stat := (outputs P).foldl (fun a o => a ||| (res o.1 o.2.1 o.2.2).2) stat0
      let unit := U.me h (T.mes.getD 0 0)
      let after (s : State) : State :=
        let s := countOps s h c P.arr (P.k != 0) (T.mes.map fun i => (i, ops i))
        each T.mes s fun s i => meRan s h i T.shape (fmtCode P.arr) P.passes (P.k != 0)
      if A.keep then
        let s := keepSlots s h c P T A fun b x y => (res b x y).1
        cmdDone (after (reportTo (noteStat s h c unit stat) c d none 0 (stat % 128))) h c
      else
        storing s h c unit [d] fun s =>
          let (s, r) := storeTensor s d m fun ix => let o := at_ ix; accValue P.arr (res o.1 o.2.1 o.2.2).1
          let s := readoutSlots (reportStore s h c unit d { r with stat := r.stat ||| stat }) h P T A
          cmdDone (after s) h c
  | code => failRunning s h c (U.disp h) code

/-! ### The MM command (R140 to R148) -/

def Cmd.ktF (c : Cmd) : Nat := bits (c.fld 0x28 4) 0 9
def Cmd.ntF (c : Cmd) : Nat := bits (c.fld 0x28 4) 9 8
def Cmd.runF (c : Cmd) : Nat := bits (c.fld 0x28 4) 17 11
/-- The three tile fields of level ℓ = 1, 2, 3. -/
def Cmd.lvl (c : Cmd) (l : Nat) : Nat × Nat × Nat :=
  let o := 0x2C + 6 * (l - 1)
  (c.fld o 2, c.fld (o + 2) 2, c.fld (o + 4) 2)

def used (t : Nat × Nat × Nat) : Bool := t.1 != 0 && t.2.1 != 0 && t.2.2 != 0
def unusedLvl (t : Nat × Nat × Nat) : Bool := t.1 == 0 && t.2.1 == 0 && t.2.2 == 0

/-- The tiling of a command: levels above L1 count tiles of the next used level below (R146). -/
def Cmd.tiling (c : Cmd) (upper : Bool) : Tiling :=
  let l0 : Level := { m := c.runF, n := c.ntF, k := c.ktF, order := bits c.loops 0 3 }
  let t1 := c.lvl 1
  let t2 := if upper then c.lvl 2 else (0, 0, 0)
  let t3 := if upper then c.lvl 3 else (0, 0, 0)
  let l1 : Level := { m := t1.1, n := t1.2.1, k := t1.2.2, order := bits c.loops 3 3 }
  let b2 := if used t1 then l1 else l0
  let l2 : Level := { m := t2.1 * b2.m, n := t2.2.1 * b2.n, k := t2.2.2 * b2.k, order := bits c.loops 6 3 }
  let b3 := if used t2 then l2 else b2
  let l3 : Level := { m := t3.1 * b3.m, n := t3.2.1 * b3.n, k := t3.2.2 * b3.k, order := bits c.loops 9 3 }
  let ls := (if used t3 then [l3] else []) ++ (if used t2 then [l2] else []) ++ (if used t1 then [l1] else [])
  { shape := c.shape, run := c.runF, nt := c.ntF, levels := ls, l0 := l0,
    dealM := match ls.getLast? with | some l => l.m | none => 0, mes := maskBits c.meMask 16 }

/-- The home level of an operand in hearth h (Table 6-6); 0 for a bank of another hearth or no region. -/
def homeLevel (s : State) (h : Nat) (d : Desc) : Nat :=
  match regionOf s d.base with
  | some (.hearth g _) => if g = h then 1 else 0
  | some (.shared _) => 2
  | some .near => 3
  | some (.far _) => 4
  | some (.host _) => 4
  | _ => 0

/-- Bounds of Table 5-3 on KT, NT and RUN. -/
def tileBoundsBad (c : Cmd) (arr : Fmt) : Bool :=
  let side := shapeSide c.shape
  decide (side * kappa arr < c.ktF) || decide (side < c.ntF) || decide (shapeRun c.shape < c.runF)

/-- The tile rules of R145 on the command's M, N and K; `upper` where L2 and L3 exist. -/
def tileRulesBad (s : State) (h : Nat) (c : Cmd) (upper : Bool) (ds : List Desc) (m n k : Nat) : Bool :=
  let ls := if upper then [c.lvl 1, c.lvl 2, c.lvl 3] else [c.lvl 1]
  let t := c.lvl 1
  let loops := if upper then [0, 3, 6, 9] else [0, 3]
  let off (x unit whole : Nat) : Bool := decide (x < whole) && decide (unit ≠ 0) && x % max unit 1 != 0
  ls.any (fun l => !used l && !unusedLvl l) ||
  (unusedLvl t && ds.any fun d => decide (d.count ≠ 0) && decide (2 ≤ homeLevel s h d)) ||
  (used t && (off t.1 c.runF m || off t.2.1 c.ntF n || off t.2.2 c.ktF k)) ||
  loops.any fun o => decide (6 ≤ bits c.loops o 3)

/-- Blocks of 32 that a run of t elements touches at most, as runs of t follow one another. -/
def blocksIn (t : Nat) : Nat :=
  let g := if t % 32 = 0 then 32 else if t % 16 = 0 then 16 else if t % 8 = 0 then 8 else if t % 4 = 0 then 4 else if t % 2 = 0 then 2 else 1
  ceilDiv (t + 32 - g) 32

/-- Bytes of a tile of x lines of y elements of a format, the exponents of blocks along the lines included (R148). -/
def tileBytes (f : Fmt) (x y : Nat) : Nat := ceilDiv (x * y * f.bits) 8 + if f.isDq then x * blocksIn y else 0

/-- The level number of a used level counted from L1. -/
def usedLevels (c : Cmd) (upper : Bool) : List Nat :=
  ((if upper then [1, 2, 3] else [1]).filter fun l => used (c.lvl l))

/-- Bytes that one staged operand needs at a level for one tile (R148). -/
def stageNeed (s : State) (h : Nat) (c : Cmd) (upper : Bool) (l : Nat) (a b : Desc) : Nat :=
  let T := c.tiling upper
  let i := (usedLevels c upper).length - 1 - ((usedLevels c upper).findIdx (· == l))
  match T.levels[i]? with
  | none => 0
  | some lv =>
    let need (d : Desc) (x y : Nat) : Nat :=
      match d.format with
      | some f => if l < homeLevel s h d then tileBytes f x y else 0
      | none => 0
    5 * ((if c.shape == 3 && a.blockDim == 0 then need a lv.k lv.m else need a lv.m lv.k) + need b lv.n lv.k)

/-- The staging need exceeds a region (R148). -/
def stageBad (s : State) (h : Nat) (c : Cmd) (upper : Bool) (a b : Desc) : Bool :=
  (usedLevels c upper).any fun l => decide (stageSize s h l < stageNeed s h c upper l a b)

/-- A used level has no staging region (R163). -/
def stageGone (s : State) (h : Nat) (c : Cmd) (upper : Bool) : Bool := (usedLevels c upper).any fun l => stageSize s h l == 0

/-- The banks of the L1 staging region, if the command stages there. -/
def stageBanks (s : State) (h : Nat) (c : Cmd) (upper : Bool) (a b : Desc) : Nat :=
  if used (c.lvl 1) && stageNeed s h c upper 1 a b != 0 then
    banksOf s h [(bankBase (16 + 8 * h) + rd s (F.HRT_STAGE_L1_OFFSET_4K h) * 4096, stageSize s h 1)] else 0

/-- The KEPT slots of an ME, as slot and ticket, once a command that takes slots of it has completed (R127). -/
def keptAfter (i : Nat) (ks : List (Nat × Nat)) (x : Cmd) : List (Nat × Nat) :=
  match x.slots.find? (·.1 == i) with
  | none => ks
  | some p =>
    let A := x.acc
    if x.opcode == 0x18 || (!A.accIn && !A.keep) then ks else
    ks.filter (fun k => decide (k.1 < A.base) || decide (A.base + p.2 ≤ k.1)) ++
      if A.keep then (List.range p.2).map fun j => (A.base + j, x.ticket) else []

/-- The slots of ME i that will be KEPT when a command starts: those that are, and what every earlier command queued on the same ME leaves of
them (R127). One whose operands are not known yet does not count. DEDUCED (log entry 28). -/
def keptThen (s : State) (h : Nat) (c : Cmd) (i : Nat) : List (Nat × Nat) :=
  ((getDisp s h).cmds.filter fun x => x.seq != c.seq && later32 c.seq x.seq && x.fail == 0).foldl (keptAfter i)
    ((s.kept.filter fun x => x.me == 16 * h + i).map fun x => (x.slot, x.ticket))

/-- A live set of l slots does not fit beside the KEPT slots of some ME (R125). -/
def roomCode (s : State) (h : Nat) (c : Cmd) (mes : List Nat) (l : Nat) : Nat :=
  codeIf (mes.any fun i => decide (8 - (keptThen s h c i).length < l)) Code.ACC_CAPACITY

/-- The codes of a command whose flags name slots (R127): `l` of them on each ME from its base on; `more` others must fit after them (R218). -/
def slotCode (s : State) (h : Nat) (c : Cmd) (mes : List Nat) (l : Nat → Nat) (more : Nat) : Nat :=
  let A := c.acc
  firstCode [
    codeIf (mes.any fun i => decide (8 < A.base + l i + more)) Code.ACC_CAPACITY,
    codeIf (mes.any fun i => (List.range (l i)).any fun j =>
      match (keptThen s h c i).find? fun k => k.1 == A.base + j with
      | some k => if A.accIn then k.2 != c.ticket else true
      | none => A.accIn) Code.ACC_SLOT]

/-- The codes of the live set of R125, R127 and R147. -/
def liveCode (s : State) (h : Nat) (c : Cmd) (P : Prod) (T : Tiling) : Nat :=
  match T.checkLive P.m P.n P.k with
  | none => Code.TILE_INVALID
  | some l => if c.acc.accIn || c.acc.keep then slotCode s h c T.mes (T.liveAll P) 0 else roomCode s h c T.mes l

/-- The slots that a command takes on each of its MEs (R125, R127). -/
def liveSlots (c : Cmd) (P : Prod) (T : Tiling) : List (Nat × Nat) :=
  T.mes.map fun i => (i, if c.acc.accIn || c.acc.keep then T.liveAll P i else (T.checkLive P.m P.n P.k).getD 0)

/-- The product of an MM command over its tensors: A is M × K, or K × M under T128. -/
def mmProd (s : State) (c : Cmd) (arr : Fmt) (a b d : Desc) : Prod :=
  let t := c.shape == 3
  let fa := a.format.getD .bf16
  let fb := b.format.getD .bf16
  let b2 := d.size 2
  let pick (x : Desc) (bt : Nat) : List Nat := [if x.size 2 = 1 then 0 else bt % max b2 1, if x.size 3 = 1 then 0 else bt / max b2 1]
  { arr := arr, passes := c.passes, flush := c.subn, kt := c.ktF, m := d.size 1, n := d.size 0,
    k := if t then a.size 1 else a.size 0, batches := d.size 2 * d.size 3, seg := 32,
    a := fun bt m k => tensorLane s arr c.passes c.subn a fa ((if t then [m, k] else [k, m]) ++ pick a bt),
    b := fun bt k n => tensorLane s arr c.passes c.subn b fb ([n, k] ++ pick b bt) }

def mmA (s : State) (c : Cmd) : Opnd := c.opnd s 0x10 (c.fld 0x1C 2) true
def mmB (s : State) (c : Cmd) : Opnd := c.opnd s 0x14 (c.fld 0x1E 2) true
def mmC (s : State) (c : Cmd) : Opnd := c.opnd s 0x18 (c.fld 0x20 2) true

/-- A command of a matrix engine names no work (R123, R144): an empty tensor, no rows, no columns, no run. -/
def noStream (P : Prod) (c : Cmd) : Bool :=
  P.m == 0 || P.n == 0 || P.batches == 0 || c.ktF == 0 || c.ntF == 0 || c.runF == 0

/-- Stochastic rounding is selected for a destination that does not allow it (R102). -/
def roundBad (c : Cmd) (d : Desc) : Bool :=
  c.sr && match d.format with | some .bf16 => false | some .dq4 => false | some .dq8 => false | _ => true

/-- The format codes of an operand pair (R96, R120, R140). -/
def pairCode (c : Cmd) (a b : Desc) : Nat :=
  match a.format, b.format with
  | some fa, some fb =>
    if engineBad fa || engineBad fb || (c.shape == 3 && fa == .int4) then Code.FMT_ENGINE
    else if c.shape == 3 && fa.isDq && fb != .bf16 then Code.FMT_PAIR
    else codeIf (pairFormat fa fb c.passes).isNone Code.FMT_PAIR
  | _, _ => 0

/-- The increment of an ME command (R58): its MEs at the array format and the sub-arrays of its largest batch group, and its banks;
a command that streams nothing, or has K = 0, charges no ME increment (R123). -/
def meCharge (c : Cmd) (P : Prod) : Nat :=
  let t := shapeSubs c.shape
  (if noStream P c || P.k == 0 then 0 else popcount c.meMask 16 * meIncShape P.arr (min t P.batches) t) + popcount c.bankMask 8

/-- What can be said of an ME command's tiles and MEs before its operands are known (R118, R130, R145, R155, R163). -/
def earlyCode (s : State) (h : Nat) (c : Cmd) (upper : Bool) : Nat :=
  let ls := if upper then [c.lvl 1, c.lvl 2, c.lvl 3] else [c.lvl 1]
  firstCode [
    codeIf (decide (2 * shapeSide c.shape < c.ktF) || decide (shapeSide c.shape < c.ntF) || decide (shapeRun c.shape < c.runF)) Code.SHAPE_INVALID,
    codeIf (ls.any (fun l => !used l && !unusedLvl l) ||
      (if upper then [0, 3, 6, 9] else [0, 3]).any fun o => decide (6 ≤ bits c.loops o 3)) Code.TILE_INVALID,
    codeIf (stageGone s h c upper) Code.TILE_CAPACITY,
    codeIf ((maskBits c.meMask 16).any fun i => rd s (F.MXE_ERR_FAULTED h i) == 1) Code.ME_FAULTED]

/-- MM's checks at decode or when it is ready (R138 to R148): the code, or 0, and the increment. -/
def checkMm (s : State) (h : Nat) (c : Cmd) : Nat × Nat :=
  let oa := mmA s c
  let ob := mmB s c
  let od := mmC s c
  let a := oa.desc
  let b := ob.desc
  let d := od.desc
  let form := firstCode [
    codeIf (maskBad c true false false true || c.meMask == 0) Code.CMD_UNITS,
    codeIf (bits c.loops 12 4 != 0 || bits c.mode 9 23 != 0 || bits (c.fld 0x28 4) 28 4 != 0 || c.fld 0x3E 2 != 0 ||
      (c.acc.base != 0 && !c.acc.accIn && !c.acc.keep)) Code.CMD_FORMAT,
    codeIf (c.passes == 0) Code.FMT_PAIR, oa.code, ob.code, od.code]
  if form ≠ 0 then (form, 0)
  else if oa.isLater || ob.isLater || od.isLater then (earlyCode s h c true, 0)
  else
    let known := a.rank != 0 && b.rank != 0 && d.rank != 0
    let arr := match a.format, b.format with | some fa, some fb => (pairFormat fa fb c.passes).getD .bf16 | _, _ => .bf16
    let P := mmProd s c arr a b d
    let T := c.tiling true
    let t := c.shape == 3
    let am := if t then a.size 0 else a.size 1
    let inc := if known then meCharge c P else popcount c.bankMask 8
    (firstCode [
      if known then pairCode c a b else 0,
      codeIf (roundBad c d) Code.FMT_ROUND,
      codeIf (tileBoundsBad c arr) Code.SHAPE_INVALID,
      codeIf (known && (decide (4 < a.rank) || decide (4 < b.rank) || decide (4 < d.rank) || P.k != b.size 1 || am != d.size 1 ||
        b.size 0 != d.size 0 || [2, 3].any fun i => (a.size i != d.size i && a.size i != 1) || (b.size i != d.size i && b.size i != 1)))
        Code.DESC_SHAPE,
      codeIf (known && ((decide (0x20 ≤ a.fmt) && !t && a.blockDim != 0) || (decide (0x20 ≤ b.fmt) && b.blockDim != 1) ||
        (decide (0x20 ≤ d.fmt) && decide (2 ≤ d.blockDim)))) Code.FMT_LAYOUT,
      codeIf (known && (tensorsMeet s d a || tensorsMeet s d b || selfOverlap s d)) Code.DESC_ALIAS,
      codeIf (foreignBank s h [a, b, d]) Code.OWNER_FAULT,
      codeIf (tileRulesBad s h c true [a, b] P.m P.n P.k) Code.TILE_INVALID,
      if known && !noStream P c then liveCode s h c P T else 0,
      codeIf (stageGone s h c true || (known && stageBad s h c true a b)) Code.TILE_CAPACITY,
      codeIf (bankMissing s h c [a, b, d] || (maskBits (stageBanks s h c true a b) 8).any fun k => !bit c.bankMask k) Code.CMD_UNITS,
      codeIf (T.mes.any fun i => rd s (F.MXE_ERR_FAULTED h i) == 1) Code.ME_FAULTED], inc)

/-- The slots of an MM (R125, R127). -/
def mmSlots (s : State) (c : Cmd) : List (Nat × Nat) :=
  let a := (mmA s c).desc
  let b := (mmB s c).desc
  let d := (mmC s c).desc
  let P := mmProd s c .bf16 a b d
  if a.rank = 0 ∨ b.rank = 0 ∨ d.rank = 0 ∨ noStream P c then [] else liveSlots c P (c.tiling true)

/-- MM: C := A × B on the MEs of ME_MASK (R140). -/
def execMm (h : Fin 16) (seq : BitVec 32) (s : State) : Res :=
  opRow h seq 0x10 s fun s c =>
    let a := (mmA s c).desc
    let b := (mmB s c).desc
    let d := (mmC s c).desc
    match a.format, b.format with
    | some fa, some fb =>
      let P := mmProd s c ((pairFormat fa fb c.passes).getD .bf16) a b d
      if a.rank = 0 ∨ b.rank = 0 ∨ d.rank = 0 ∨ noStream P c then cmdDone s h c
      else
        orFail h c (U.disp h) (readTensors s h c [a, b]) fun s _ =>
          runProduct s h c P (c.tiling true) c.acc d (readoutMode s c a b d)
            (fun ix => (ix.getD 2 0 + d.size 2 * ix.getD 3 0, ix.getD 1 0, ix.getD 0 0)) (accumulate P)
            (opsOf P (c.tiling true)) 0
    | _, _ => cmdDone s h c

/-! ### Events of an ME -/

/-- A power-gated ME finishes waking (R59): it begins its command, or stands idle. DEDUCED (log entry 29). -/
def execMeWakeComplete (h i : Fin 16) (s : State) : Res :=
  if !unitLive s (U.me h i) || rd s (F.MXE_STATE_STATE h i) != 1 || (s.meTests.contains (16 * h.val + i.val)) then .next s
  else .next (if rd s (F.MXE_CMD_ACTIVE h i) = 1 then meLoad s h i else wr s (F.MXE_STATE_STATE h i) 2)

/-- An ME streams: the slots of its command's live set are LIVE, and `n` of its rows are enabled (R77, R124). -/
def beginStream (s : State) (h i : Nat) (c : Cmd) (n : Nat) : State :=
  wr { takeSlots s h i c with bellows := s.bellows.set (16 * h + i) n } (F.MXE_STATE_STATE h i) 4

/-- The command that an ME runs. -/
def meCmd (s : State) (h i : Nat) : Option Cmd :=
  if rd s (F.MXE_CMD_ACTIVE h i) = 1 then findCmd s h (rd s (F.MXE_CMD_SEQ h i)) else none

/-- Bellows enables the next 16 rows of an ME, the first as it goes from loading to streaming, or disables the next 16 of one that drains
(R77). DESIGN CHOICE (log entry 90). -/
def execBellowsStep (h i : Fin 16) (s : State) : Res :=
  if !unitLive s (U.me h i) then .next s else
  let k := 16 * h.val + i.val
  let n := s.bellows.get 0 k
  match rd s (F.MXE_STATE_STATE h i), meCmd s h i with
  | 3, some c => .next (if c.meInc = 0 then s else beginStream s h i c 16)
  | 4, _ => .next (if n < 128 then { s with bellows := s.bellows.set k (n + 16) } else s)
  | 5, _ => .next (if 0 < n then { s with bellows := s.bellows.set k (n - 16) } else s)
  | _, _ => .next s

/-- The readout of an ME's finished outputs completes: their slots become FREE (R126); a word of them with two flipped bits fails the
command (R129). DEDUCED (log entry 29). -/
def execSlotReadout (h i : Fin 16) (s : State) : Res :=
  if !unitLive s (U.me h i) then .next s else
  if !(List.range 8).any (fun k => rd s (slotF h i k) == slotREADOUT) then .next s else
  let free (s : State) : State := each (List.range 8) s fun s k => if rd s (slotF h i k) = slotREADOUT then wr s (slotF h i k) slotFREE else s
  match readLive s h i ((meCmd s h i).map (cmdId s h)) with
  | (s, false) => .next (free s)
  | (s, true) =>
    let s := faultMe (free s) h i
    .next (match meCmd s h i with | some c => failRunning s h c (U.me h i) Code.ACC_ECC | none => s)

/-- The first waiting test of a hearth starts: the ME wakes and the dispatcher requests 14 RP tokens (R131). -/
def startTest (s : State) (h : Nat) : State :=
  match s.meTests.find? fun k => k / 16 == h with
  | none => s
  | some k =>
    let d := getDisp s h
    schedule (wr (setDisp s h { d with awlReqs := d.awlReqs ++ [.meTest (k % 16) 14] }) (F.MXE_STATE_STATE h (k % 16)) 1) h

/-- A write of 1 to `MXE_CTL.TEST` (R131). A write to an ME whose own test waits or runs changes nothing: DESIGN CHOICE (log entry 116). -/
def execMeTest (src : Src) (h i : Fin 16) (s : State) : Res :=
  if !served s src || !isRun s then .next s
  else if fnState s h ≠ fnSTOPPED then .next (cfgErr s Code.FUNC_STATE h (F.MXE_CTL_TEST h i).off)
  else
    let k := 16 * h.val + i.val
    if s.meTests.contains k then .next s else
    let first := !s.meTests.any fun x => x / 16 == h.val
    let s := { s with meTests := s.meTests ++ [k] }
    .next (if first then startTest s h else s)

/-- The end of a running test: its result, the release of its tokens, the discarded slots, FAULTED cleared if it passed, and the
retirement that a failure decides (R131, R409). -/
def endTest (s : State) (h i : Nat) (pass : Bool) : State :=
  let s := wr s (F.MXE_STATE_TEST_RESULT h i) (if pass then 2 else 3)
  let s := if pass then wr { s with meProven := s.meProven ++ [16 * h + i] } (F.MXE_ERR_FAULTED h i) 0
           else if rd s F.MGT_CKPT_CFG_RETIRE_ON_TEST = 1 then retireRecord s h i else s
  let s := wr s (F.MXE_STATE_STATE h i) (if rd s (F.MXE_ERR_FAULTED h i) = 1 then 6 else 0)
  let s := freeKept s fun x => x.me == 16 * h + i
  let s := each (List.range 8) s fun s k => wr s (slotF h i k) slotFREE
  let d := getDisp s h
  let s := setDisp s h { d with releases := d.releases + 14, meBack := d.meBack + 13 }
  startTest { s with meTests := s.meTests.filter (· != 16 * h + i) } h

/-- ME_TEST_COMPLETE (R131). -/
def execMeTestComplete (h i : Fin 16) (pass : Bool) (s : State) : Res :=
  if !unitLive s (U.me h i) || rd s (F.MXE_STATE_STATE h i) != 7 then .next s else .next (endTest s h i pass)

end Sys2Proof.Machine
end

