-- ==== Sys2Proof/Machine/Conv.lean ====
section
/-! DEFINITION. Implicit convolutions on the matrix engines and pooling on the Awl cores (R198 to R223). -/

namespace Sys2Proof.Machine

/-! ### Geometry (R202 to R211, R219) -/

/-- A geometry record (Table 8-3); lists are by W, H, T. -/
structure Geom where
  dims : Nat
  pool : Nat
  padMode : Nat
  groups : Nat
  k : List Nat
  st : List Nat
  dil : List Nat
  lo : List Nat
  hi : List Nat
  padValue : Nat
  patch : List Nat
  rg : Nat
  deriving DecidableEq, Repr

def Geom.parse (b : Bytes) : Geom :=
  let three (o w : Nat) : List Nat := (List.range 3).map fun i => field b (o + w * i) w
  { dims := field b 0 1, pool := field b 1 1, padMode := field b 2 1, groups := field b 4 2, k := three 8 1, st := three 0xC 1,
    dil := three 0x10 1, lo := three 0x14 2, hi := three 0x1A 2, padValue := field b 0x20 4, patch := three 0x24 1,
    rg := field b 0x27 1 }

def at3 (l : List Nat) (i : Nat) : Nat := l.getD i 0

/-- A record breaks a rule of Table 8-3 or R203. -/
def Geom.bad (b : Bytes) : Bool :=
  let g := Geom.parse b
  let any := g.rg % 8 != 0
  (g.dims != 2 && g.dims != 3) || decide (3 < g.pool) || decide (1 < g.padMode) || decide (8 ≤ g.rg) ||
  !rsvdZero b 3 1 || !rsvdZero b 6 2 || !rsvdZero b 0xB 1 || !rsvdZero b 0xF 1 || !rsvdZero b 0x13 1 || !rsvdZero b 0x28 24 ||
  g.st.contains 0 || g.dil.contains 0 || !(fp32.decode g.padValue).isFinite || (g.padMode == 0 && g.padValue != 0) ||
  (if any then [(0, 16), (1, 16), (2, 4)].any fun p => decide (at3 g.patch p.1 < 1) || decide (p.2 < at3 g.patch p.1)
   else g.patch.any (· != 0)) ||
  (g.dims == 2 && (at3 g.k 2 != 1 || at3 g.st 2 != 1 || at3 g.dil 2 != 1 || at3 g.lo 2 != 0 || at3 g.hi 2 != 0 || decide (1 < at3 g.patch 2)))

def Geom.taps (g : Geom) : Nat := at3 g.k 0 * at3 g.k 1 * at3 g.k 2

/-- The output extent of a spatial dim (R208). -/
def Geom.out (g : Geom) (i inp : Nat) : Int :=
  ((inp : Int) + at3 g.lo i + at3 g.hi i - at3 g.dil i * ((at3 g.k i : Int) - 1) - 1).fdiv (at3 g.st i) + 1

/-- An image-like tensor as the operator sees it: channels, W, H, T, batch, and its index lists (R199, R219). -/
structure View where
  c : Nat
  x : List Nat
  n : Nat
  ix : Nat → List Nat → Nat → List Nat

/-- Index list of an image-like tensor. -/
def imgIx (dims ch : Nat) (p : List Nat) (n : Nat) : List Nat :=
  if dims = 2 then [ch, at3 p 0, at3 p 1, n] else [ch, at3 p 0, at3 p 1, at3 p 2, n]

/-- The plain view of a descriptor. -/
def View.plain (dims : Nat) (d : Desc) : View :=
  { c := d.size 0, x := [d.size 1, d.size 2, if dims = 2 then 1 else d.size 3], n := d.size (dims + 1), ix := imgIx dims }

/-- The view of a tensor regrouped on load: the original channel fastest, then the W, H and T offsets within the patch (R219). -/
def View.regroup (g : Geom) (d : Desc) : View :=
  let v := View.plain g.dims d
  let pw := max (at3 g.patch 0) 1
  let ph := max (at3 g.patch 1) 1
  let pt := max (at3 g.patch 2) 1
  { c := v.c * pw * ph * pt, x := [at3 v.x 0 / pw, at3 v.x 1 / ph, at3 v.x 2 / pt], n := v.n,
    ix := fun ch p n =>
      let ch0 := ch % max v.c 1
      let o := ch / max v.c 1
      v.ix ch0 [at3 p 0 * pw + o % pw, at3 p 1 * ph + o / pw % ph, at3 p 2 * pt + o / pw / ph] n }

/-- A regrouped destination (RG_C): channel and position of the product that an element of the tensor holds. -/
def ungroup (g : Geom) (c : Nat) (ch : Nat) (p : List Nat) : Nat × List Nat :=
  let pw := max (at3 g.patch 0) 1
  let ph := max (at3 g.patch 1) 1
  let pt := max (at3 g.patch 2) 1
  (ch + c * (at3 p 0 % pw + pw * (at3 p 1 % ph + ph * (at3 p 2 % pt))), [at3 p 0 / pw, at3 p 1 / ph, at3 p 2 / pt])

/-- A regrouped tensor is of DQ format, or, where `div` asks it, does not divide exactly under the patch (R219). -/
def regroupBad (g : Geom) (d : Desc) (div : Bool) : Bool :=
  let v := View.plain g.dims d
  let pw := max (at3 g.patch 0) 1
  let ph := max (at3 g.patch 1) 1
  let pt := max (at3 g.patch 2) 1
  decide (0x20 ≤ d.fmt) || (div && (at3 v.x 0 % pw != 0 || at3 v.x 1 % ph != 0 || at3 v.x 2 % pt != 0))

/-- Elements of a patch (R219). -/
def Geom.patchSize (g : Geom) : Nat := max (at3 g.patch 0) 1 * max (at3 g.patch 1) 1 * max (at3 g.patch 2) 1

/-- Position number p among extents, W fastest, and back (R205). -/
def posOf (x : List Nat) (p : Nat) : List Nat × Nat :=
  let w := max (at3 x 0) 1
  let h := max (at3 x 1) 1
  let t := max (at3 x 2) 1
  ([p % w, p / w % h, p / w / h % t], p / w / h / t)
def posNum (x : List Nat) (p : List Nat) (n : Nat) : Nat := at3 p 0 + at3 x 0 * (at3 p 1 + at3 x 1 * (at3 p 2 + at3 x 2 * n))

/-- The input position that a tap reads, or none for a pad tap (R204). -/
def Geom.tapPos (g : Geom) (x : List Nat) (o : List Nat) (tap : List Nat) : Option (List Nat) :=
  let i (j : Nat) : Int := (at3 o j : Int) * at3 g.st j + (at3 tap j : Int) * at3 g.dil j - at3 g.lo j
  if (List.range 3).all fun j => decide (0 ≤ i j) && decide (i j < at3 x j) then some ((List.range 3).map fun j => (i j).toNat) else none

/-- The position of dY that a tap of an input position stems from, or none (R211). -/
def Geom.backPos (g : Geom) (x : List Nat) (p : List Nat) (tap : List Nat) : Option (List Nat) :=
  let v (j : Nat) : Int := (at3 p j : Int) + at3 g.lo j - (at3 tap j : Int) * at3 g.dil j
  if (List.range 3).all fun j => decide (0 ≤ v j) && decide (v j % at3 g.st j = 0) && decide (v j / at3 g.st j < at3 x j)
  then some ((List.range 3).map fun j => (v j / at3 g.st j).toNat) else none

/-- Tap number t: KW fastest, then KH, then KT. -/
def Geom.tap (g : Geom) (t : Nat) : List Nat :=
  let w := max (at3 g.k 0) 1
  let h := max (at3 g.k 1) 1
  [t % w, t / w % h, t / w / h]

/-- Index list of the filter at output channel, input channel, tap and group (Table 8-2). -/
def filterIx (dims : Nat) (co ci : Nat) (t : List Nat) (gr : Nat) : List Nat :=
  if dims = 2 then [co, ci, at3 t 0, at3 t 1, gr] else [co, ci, at3 t 0, at3 t 1, at3 t 2, gr]

/-- PAD_VALUE as an element of A (R204): its stored bits, its block code and the notices of its conversion. -/
def padElem (s : State) (g : Geom) (flush : Bool) (a : Desc) (f : Fmt) : Nat × Nat × Nat :=
  let v := fp32.decode g.padValue
  match f.float with
  | some ff => let (n, fl) := ff.round flush v; (n, 0, flagIf fl stSubn)
  | none =>
    let (y, gf) := if a.scalePtr = 0 then (v, 0) else
      let (n, gf) := scaleTo fp32 v (fp32.decode (fp32Div fp32One (tensorScale s a))); (fp32.decode n, gf)
    if f.isDq then
      let b := storeBlock f (List.replicate 32 v) (List.replicate 32 y) (fun _ => none) gf
      (intBits f.bits (b.elems.getD 0 0), b.code, b.flags)
    else
      let (q, h) := narrowI f y
      (intBits f.bits q, 0, gf ||| h)

/-- The lane that a pad tap supplies, formed as any element of A would be (R204). -/
def padLane (s : State) (g : Geom) (arr : Fmt) (passes : Nat) (flush : Bool) (a : Desc) : Lane :=
  match a.format with
  | none => Lane.zero
  | some f =>
    let (n, code, st) := padElem s g flush a f
    let l := laneOf arr passes flush f code n
    { l with stat := l.stat ||| st }

/-! ### The CONV command -/

def Cmd.role (c : Cmd) : Nat := bits c.mode 9 2
def Cmd.wino (c : Cmd) : Nat := bits c.mode 11 2
def convA (s : State) (c : Cmd) : Opnd := c.opnd s 0x10 (c.fld 0x1C 2) true
def convB (s : State) (c : Cmd) : Opnd := c.opnd s 0x14 (c.fld 0x1E 2) true
def convC (s : State) (c : Cmd) : Opnd := c.opnd s 0x18 (c.fld 0x20 2) true

/-- What a convolution works on: geometry, the views of A, B and C (B as an image only in WGRAD), groups, channels per group. -/
structure ConvOp where
  g : Geom
  a : View
  b : View
  cv : View
  out : List Nat
  cin : Nat
  cout : Nat

/-- The operator of a command over its tensors. `out` are the output extents of the forward geometry. -/
def convOp (c : Cmd) (a b d : Desc) : ConvOp :=
  let g := Geom.parse c.geom
  let va := if bit g.rg 0 then View.regroup g a else View.plain g.dims a
  let vb := if bit g.rg 1 then View.regroup g b else View.plain g.dims b
  let vc0 := View.plain g.dims d
  let vc := if bit g.rg 2 then
      { vc0 with c := vc0.c * g.patchSize,
                 x := (List.range 3).map fun i => at3 vc0.x i / max (at3 g.patch i) 1 } else vc0
  let fwdIn := if c.role = 1 then vc.x else va.x
  { g := g, a := va, b := vb, cv := vc, out := (List.range 3).map fun i => (g.out i (at3 fwdIn i)).toNat,
    cin := (if c.role = 1 then vc.c else va.c) / max g.groups 1,
    cout := (match c.role with | 0 => vc.c | 1 => va.c | _ => vb.c) / max g.groups 1 }

/-- The output extents are empty (R209). -/
def convEmpty (c : Cmd) (o : ConvOp) : Bool :=
  let inp := if c.role = 1 then o.cv.x else o.a.x
  (List.range 3).any fun i => decide (o.g.out i (at3 inp i) ≤ 0) || at3 inp i == 0

/-- The implicit product of a role (Table 8-2, R204, R205, R211). DEDUCED (log entry 27). -/
def convProd (s : State) (c : Cmd) (arr : Fmt) (a b d : Desc) : Prod :=
  let o := convOp c a b d
  let g := o.g
  let fa := a.format.getD .bf16
  let fb := b.format.getD .bf16
  let ci := max o.cin 1
  let co := max o.cout 1
  let pad := padLane s g arr c.passes c.subn a
  let la (ix : List Nat) : Lane := tensorLane s arr c.passes c.subn a fa ix
  let lb (ix : List Nat) : Lane := tensorLane s arr c.passes c.subn b fb ix
  let base : Prod :=
    { arr := arr, passes := c.passes, flush := c.subn, kt := c.ktF, m := 0, n := 0, k := 0, batches := g.groups,
      seg := 32, a := fun _ _ _ => Lane.zero, b := fun _ _ _ => Lane.zero }
  match c.role with
  | 0 =>
    { base with
      m := o.a.n * (at3 o.out 0 * at3 o.out 1 * at3 o.out 2), n := o.cout, k := o.cin * g.taps,
      a := fun gr m k =>
        let p := posOf o.out m
        match g.tapPos o.a.x p.1 (g.tap (k / ci)) with
        | some q => la (o.a.ix (gr * o.cin + k % ci) q p.2)
        | none => pad,
      b := fun gr k n => lb (filterIx g.dims n (k % ci) (g.tap (k / ci)) gr) }
  | 1 =>
    { base with
      m := o.cv.n * (at3 o.cv.x 0 * at3 o.cv.x 1 * at3 o.cv.x 2), n := o.cin, k := o.cout * g.taps,
      seg := if decide (0x20 ≤ b.fmt) then 1 else 32,
      a := fun gr m k =>
        let p := posOf o.cv.x m
        match g.backPos o.a.x p.1 (g.tap (g.taps - 1 - k / co)) with
        | some q => la (o.a.ix (gr * o.cout + k % co) q p.2)
        | none => Lane.zero,
      b := fun gr k n => lb (filterIx g.dims (k % co) n (g.tap (g.taps - 1 - k / co)) gr) }
  | _ =>
    { base with
      m := o.cin * g.taps, n := o.cout, k := o.a.n * (at3 o.out 0 * at3 o.out 1 * at3 o.out 2),
      a := fun gr m k =>
        let p := posOf o.out k
        match g.tapPos o.a.x p.1 (g.tap (m / ci)) with
        | some q => la (o.a.ix (gr * o.cin + m % ci) q p.2)
        | none => pad,
      b := fun gr k n => let p := posOf o.out k; lb (o.b.ix (gr * o.cout + n) p.1 p.2) }

/-- Batch, row and column of the product at an index list of the destination. -/
def convAt (c : Cmd) (o : ConvOp) (ix : List Nat) : Nat × Nat × Nat :=
  let g := o.g
  let sp := if g.dims = 2 then [ix.getD 1 0, ix.getD 2 0, 0] else [ix.getD 1 0, ix.getD 2 0, ix.getD 3 0]
  let n := ix.getD (g.dims + 1) 0
  match c.role with
  | 2 =>
    let tap := if g.dims = 2 then [ix.getD 2 0, ix.getD 3 0, 0] else [ix.getD 2 0, ix.getD 3 0, ix.getD 4 0]
    let t := at3 tap 0 + at3 g.k 0 * (at3 tap 1 + at3 g.k 1 * at3 tap 2)
    (ix.getD (g.dims + 2) 0, ix.getD 1 0 + o.cin * t, ix.getD 0 0)
  | r =>
    let per := max (if r = 0 then o.cout else o.cin) 1
    let (ch, p) := if bit g.rg 2 then
        ungroup g (o.cv.c / g.patchSize) (ix.getD 0 0) sp
      else (ix.getD 0 0, sp)
    (ch / per, posNum (if r = 0 then o.out else o.cv.x) p n, ch % per)

/-! ### Winograd (R215 to R218) -/

/-- Bᵀ, G' and Aᵀ of a mode as integers; G' is 2G of F(2×2, 3×3) and 24G of F(4×4, 3×3) (Table 8-5, R217). -/
def winoBt (w : Nat) : List (List Int) :=
  if w = 1 then [[1, 0, -1, 0], [0, 1, 1, 0], [0, -1, 1, 0], [0, 1, 0, -1]]
  else [[4, 0, -5, 0, 1, 0], [0, -4, -4, 1, 1, 0], [0, 4, -4, -1, 1, 0], [0, -2, -1, 2, 1, 0], [0, 2, -1, -2, 1, 0], [0, 4, 0, -5, 0, 1]]
def winoAt (w : Nat) : List (List Int) :=
  if w = 1 then [[1, 1, 1, 0], [0, 1, -1, -1]]
  else [[1, 1, 1, 1, 1, 0], [0, 1, -1, 2, -2, 0], [0, 1, 1, 4, 4, 0], [0, 1, -1, 8, -8, 1]]
def winoG (w : Nat) : List (List Int) :=
  if w = 1 then [[2, 0, 0], [1, 1, 1], [1, -1, 1], [0, 0, 2]]
  else [[6, 0, 0], [-4, -4, -4], [-4, 4, -4], [1, 2, 4], [1, -2, 4], [0, 0, 24]]

def ent (m : List (List Int)) (i j : Nat) : Int := (m.getD i []).getD j 0
/-- The side of an output tile. -/
def winoM (w : Nat) : Nat := if w = 1 then 2 else 4

/-- A sum of products of coefficients and values with their notices: exact (WINO 1), or in FP32 in ascending column order (WINO 2), where a
coefficient of F(4×4, 3×3)'s G is first rounded to FP32 (DEDUCED, log entry 17). -/
def winoSum (w : Nat) (flush : Bool) (den : Nat) (xs : List (Int × (FVal × Nat))) : FVal × Nat :=
  let g := xs.foldl (fun a x => a ||| x.2.2) 0
  let zero := FVal.fin false 0 0
  if w = 1 then (xs.foldl (fun a x => a.add ((FVal.ofInt x.1).mul x.2.1)) zero, g)
  else
    let rnd (v : FVal) : FVal × Nat := let (n, fl) := fp32.round flush v; (fp32.decode n, flagIf fl stSubn)
    let terms := (xs.filter fun x => x.1 != 0).map fun x =>
      rnd ((fp32.decode (fp32.round false ((FVal.ofInt x.1).div (FVal.ofInt den))).1).mul x.2.1)
    match terms with
    | [] => (zero, g)
    | t :: ts => ts.foldl (fun a x => let (v, h) := rnd (a.1.add x.1); (v, a.2 ||| x.2 ||| h)) (t.1, t.2 ||| g)

/-- M · X · Mᵀ at row i and column j, for M with rows of n entries and X given by row and column (rows along H). -/
def winoBoth (w : Nat) (flush : Bool) (den : Nat) (M : List (List Int)) (n : Nat) (X : Nat → Nat → FVal × Nat) (i j : Nat) : FVal × Nat :=
  winoSum w flush den ((List.range n).map fun y =>
    (ent M j y, winoSum w flush den ((List.range n).map fun x => (ent M i x, X x y))))

/-- The value of stored bits before per-tensor scales, with the flush of a subnormal (R86, R106). -/
def loadValue (f : Fmt) (flush : Bool) (code raw : Nat) : FVal × Nat :=
  match f.float with
  | some ff => let (v, fl) := ff.load flush raw; (v, flagIf fl stSubn)
  | none =>
    if f.isDq then (blockElem code (sext f.bits raw), flagIf (code == 0xFF) stInvalid) else (FVal.ofInt (sext f.bits raw), 0)

/-- An element as it enters a transform. -/
def rawValue (s : State) (flush : Bool) (d : Desc) (ix : List Nat) : FVal × Nat :=
  match d.format with
  | some f => loadValue f flush (if f.isDq then d.expCode s f ix else 0) (d.rawElem s f ix)
  | none => (FVal.fin false 0 0, 0)

/-- The value of a pad tap of a Winograd patch (R204). -/
def padValueOf (s : State) (g : Geom) (flush : Bool) (a : Desc) : FVal × Nat :=
  match a.format with
  | some f => let (n, code, st) := padElem s g flush a f; let (v, h) := loadValue f flush code n; (v, st ||| h)
  | none => (FVal.fin false 0 0, 0)

/-- Tiles of m × m output positions along W and H, and output positions along T (R216). -/
def winoTiles (c : Cmd) (o : ConvOp) : List Nat := [ceilDiv (at3 o.out 0) (winoM c.wino), ceilDiv (at3 o.out 1) (winoM c.wino), at3 o.out 2]

/-- V of a transform point at a tile and a K position: channel, then temporal tap (R216). -/
def winoV (s : State) (c : Cmd) (a : Desc) (o : ConvOp) (pt row k : Nat) : FVal × Nat :=
  let m := winoM c.wino
  let ci := max o.cin 1
  let p := posOf (winoTiles c o) row
  winoBoth c.wino c.subn 1 (winoBt c.wino) (m + 2) (fun y x =>
    match o.g.tapPos o.a.x [at3 p.1 0 * m + x, at3 p.1 1 * m + y, at3 p.1 2] [0, 0, k / ci] with
    | some q => rawValue s c.subn a (o.a.ix (k % ci) q p.2)
    | none => padValueOf s o.g c.subn a) (pt / (m + 2)) (pt % (m + 2))

/-- U of a transform point at a K position and an output channel (R216, R217). -/
def winoU (s : State) (c : Cmd) (b : Desc) (o : ConvOp) (pt k n : Nat) : FVal × Nat :=
  let m := winoM c.wino
  let ci := max o.cin 1
  winoBoth c.wino c.subn (if c.wino = 1 then 1 else 24) (winoG c.wino) 3
    (fun y x => rawValue s c.subn b (filterIx o.g.dims n (k % ci) [x, y, k / ci] 0)) (pt / (m + 2)) (pt % (m + 2))

/-- The K extent of a transform point's product. -/
def winoK (o : ConvOp) : Nat := o.cin * at3 o.g.k 2

/-- The DQ8 block that holds K position k of a transformed operand (R217): each value that is beyond FP32 saturates first (R100). -/
def winoBlock (o : ConvOp) (X : Nat → FVal × Nat) (k : Nat) : Block :=
  let b0 := k / 32 * 32
  let xs := (List.range (min 32 (winoK o - b0))).map fun j => X (b0 + j)
  let ys := xs.map fun x => let (n, g) := scaleTo fp32 x.1 (FVal.ofInt 1); if bit g 1 then (fp32.decode n, stOvf) else (x.1, 0)
  storeBlock .dq8 (xs.map (·.1)) (ys.map (·.1)) (fun _ => none) ((xs.zip ys).foldl (fun a x => a ||| x.1.2 ||| x.2.2) 0)

/-- The product of one transform point of a Winograd convolution: rows are tiles, K is channels and temporal taps (R216). -/
def winoProd (s : State) (c : Cmd) (a b : Desc) (o : ConvOp) (pt : Nat) : Prod :=
  let dq (X : Nat → FVal × Nat) (k : Nat) : Lane :=
    let blk := winoBlock o X k
    { q := blk.elems.getD (k % 32) 0, code := blk.code, hi := 0, lo := 0, stat := blk.flags }
  let bf (x : FVal × Nat) : Lane := let (n, fl) := bf16.round c.subn x.1; { q := 0, code := 0, hi := n, lo := 0, stat := x.2 ||| flagIf fl stSubn }
  let t := winoTiles c o
  { arr := if c.wino = 1 then .dq8 else .bf16, passes := 1, flush := c.subn, kt := c.ktF, m := o.a.n * (at3 t 0 * at3 t 1 * at3 t 2), n := o.cout,
    k := winoK o, batches := 1, seg := 32,
    a := fun _ r k => if c.wino = 1 then dq (winoV s c a o pt r) k else bf (winoV s c a o pt r k),
    b := fun _ k n => if c.wino = 1 then dq (fun k => winoU s c b o pt k n) k else bf (winoU s c b o pt k n) }

/-- Dominated blocks among those that the transforms of WINO 1 requantise, each counted once (R217). DEDUCED (log entry 17). -/
def winoDom (s : State) (c : Cmd) (a b : Desc) (o : ConvOp) : Nat :=
  if c.wino ≠ 1 then 0 else
  let P := winoProd s c a b o 0
  let dom (X : Nat → FVal × Nat) : Nat := ((List.range (ceilDiv (winoK o) 32)).filter fun j => (winoBlock o X (32 * j)).dominated).length
  (List.range 16).foldl (fun t pt =>
    (List.range P.n).foldl (fun t n => t + dom fun k => winoU s c b o pt k n) ((List.range P.m).foldl (fun t r => t + dom (winoV s c a o pt r)) t)) 0

/-- Points with a non-zero coefficient in an output of its tile, in ascending p, with the coefficient (R216). -/
def winoCoeffs (w pos : Nat) : List (Nat × Int) :=
  let m := winoM w
  let side := m + 2
  ((List.range (side * side)).map fun p => (p, ent (winoAt w) (pos / m) (p / side) * ent (winoAt w) (pos % m) (p % side))).filter fun x => x.2 != 0

/-- The factor of a WINO 1 command's internal readout: 2^−2 and the per-tensor scales of R97 (R217). DEDUCED (log entry 17). -/
def winoFactor (s : State) (a b d : Desc) : FVal :=
  (fp32.decode (fp32Div (fp32Mul (tensorScale s a) (tensorScale s b)) (tensorScale s d))).shift (-2)

/-- The store mode of a Winograd command: under WINO 1 the internal readout has applied the factor of R97. -/
def winoMode (s : State) (c : Cmd) (a b d : Desc) : StoreMode :=
  if c.wino = 1 then { factor := none, before := tensorScale s d, flush := c.subn, rnd := cmdRnd s c } else readoutMode s c a b d

/-- The accumulator element of a Winograd output: row tile × m² + position within the tile; `f` is the factor of WINO 1 (R216, R217). -/
def winoVal (s : State) (c : Cmd) (a b : Desc) (o : ConvOp) (f : FVal) (row n : Nat) (init : Option Nat) : Nat × Nat :=
  let m2 := winoM c.wino * winoM c.wino
  let r := (winoCoeffs c.wino (row % m2)).foldl (fun (acc : Option Nat × Nat) x =>
    let (z, g) := accumulate (winoProd s c a b o x.1) 0 (row / m2) n none
    let (z, g) := if c.wino = 1 then let (n, h) := scaleTo fp32 (fp32.decode z) f; (n, g ||| h) else (z, g)
    let t := (FVal.ofInt x.2).mul (fp32.decode z)
    match acc.1 with
    | none => let (v, g2) := addF c.subn (FVal.fin true 0 0) t; (some v, acc.2 ||| g ||| g2)
    | some y => let (v, g2) := addF c.subn (fp32.decode y) t; (some v, acc.2 ||| g ||| g2)) (init, 0)
  (r.1.getD 0, r.2)

/-- R215: the combination that WINO requires does not hold. -/
def winoBad (c : Cmd) (g : Geom) (arr : Fmt) : Bool :=
  c.wino != 0 &&
  (c.role != 0 || at3 g.k 0 != 3 || at3 g.k 1 != 3 || at3 g.st 0 != 1 || at3 g.st 1 != 1 || at3 g.dil 0 != 1 || at3 g.dil 1 != 1 ||
   g.groups != 1 || c.shape != 0 || c.passes != 1 || g.rg != 0 ||
   (if c.wino = 1 then arr != .int8 && arr != .dq8 else arr != .bf16) || decide (128 < c.runF))

/-- The product that carries a Winograd command's rows: one row for each of a tile's m × m outputs. -/
def winoRows (s : State) (c : Cmd) (a b : Desc) (o : ConvOp) : Prod :=
  let P := winoProd s c a b o 0
  { P with m := P.m * (winoM c.wino * winoM c.wino) }
def winoTiling (c : Cmd) : Tiling :=
  let T := c.tiling false
  let m2 := winoM c.wino * winoM c.wino
  { T with run := T.run * m2, dealM := T.dealM * m2, levels := T.levels.map fun l => { l with m := l.m * m2 },
           l0 := { T.l0 with m := T.l0.m * m2 } }

/-! ### Checks -/

/-- Descriptors that disagree with Table 8-2; where the output is empty nothing is asked of the destination, whose channels the filter then
need not match (R199, R209). -/
def convShapeBad (c : Cmd) (o : ConvOp) (a b d : Desc) : Bool :=
  let g := o.g
  let empty := convEmpty c o
  let fdims := [o.cout, o.cin, at3 g.k 0, at3 g.k 1] ++ (if g.dims = 3 then [at3 g.k 2] else []) ++ [g.groups]
  let filter (x : Desc) (free : Nat) : Bool := decide (g.dims + 3 < x.rank) || (List.range 6).any fun i => !(empty && i == free) && x.size i != fdims.getD i 1
  let image (x : Desc) : Bool := decide (g.dims + 2 < x.rank)
  image a ||
  (match c.role with
   | 0 => filter b 0 || (!empty && (image d || o.cv.n != o.a.n || o.cv.x != o.out))
   | 1 => filter b 1 || (!empty && (image d || o.cv.n != o.a.n || o.a.x != o.out))
   | _ => image b || o.b.n != o.a.n || (!empty && (filter d 6 || o.b.x != o.out)))

/-- Block dimensions and channels of DQ operands (R201). -/
def convDqBad (c : Cmd) (o : ConvOp) (a b d : Desc) : Bool :=
  let per := if c.role = 1 then o.cout else o.cin
  (decide (0x20 ≤ a.fmt) && (a.blockDim != 0 || per % 32 != 0)) ||
  (decide (0x20 ≤ b.fmt) && (c.role == 2 || b.blockDim != 1 || o.cin % 32 != 0)) || (decide (0x20 ≤ d.fmt) && decide (2 ≤ d.blockDim))

/-- `CONV_GEOM` beyond the record itself (R200, R212, R219, Table 8-3). -/
def convGeomBad (s : State) (c : Cmd) (o : ConvOp) (a b d : Desc) : Bool :=
  let g := o.g
  let cinAll := if c.role = 1 then o.cv.c else o.a.c
  let coutAll := match c.role with | 0 => o.cv.c | 1 => o.a.c | _ => o.b.c
  let stored := if c.role = 1 then b.size 1 * g.groups else b.size 0 * g.groups
  let addr := c.fld 0x38 8
  addr % 64 != 0 || !inOneRegion s addr 64 || Geom.bad c.geom || g.pool != 0 ||
  (g.groups != 0 && (cinAll % g.groups != 0 || coutAll % g.groups != 0)) ||
  (c.role == 2 && (c.shape != 3 || bit g.rg 2 || c.wino != 0)) || (c.role != 2 && bit g.rg 1) ||
  (bit g.rg 0 && regroupBad g a true) || (bit g.rg 1 && regroupBad g b true) ||
  (bit g.rg 2 && (regroupBad g d (!convEmpty c o) || (b.rank != 0 && stored % g.patchSize != 0)))

/-- Along one spatial dim, an input position that a tap of one of the first n outputs reads (R204). -/
def Geom.reads (g : Geom) (n j p : Nat) : Bool :=
  (List.range n).any fun x => (List.range (at3 g.k j)).any fun t => x * at3 g.st j + t * at3 g.dil j == p + at3 g.lo j

/-- The byte ranges of the lines of a tensor that `keep` holds: elements, and DQ SPLIT exponents. -/
def lineRanges (a : Desc) (keep : List Nat → Bool) : List (Nat × Nat) :=
  if a.count = 0 then [] else
  let lines := (indexLists (1 :: a.sizes.drop 1)).filter keep
  lines.map (fun ix => (a.lineAddr ix, a.lineBytes)) ++
    if a.fmt ≥ 0x20 && a.layout == 1 then lines.map fun ix => (a.planeAddr ix, a.planeExt 0) else []

/-- Along one spatial dim, an input position of A that some tap reads (R204, R211, R216). -/
def posRead (c : Cmd) (o : ConvOp) (j p : Nat) : Bool :=
  let g := o.g
  let taps := List.range (at3 g.k j)
  if c.role = 1 then
    taps.any fun t => decide (at3 g.lo j ≤ p * at3 g.st j + t * at3 g.dil j) && decide (p * at3 g.st j + t * at3 g.dil j - at3 g.lo j < at3 o.cv.x j)
  else
    g.reads (if c.wino ≠ 0 ∧ j < 2 then at3 (winoTiles c o) j * winoM c.wino else at3 o.out j) j p

/-- The byte ranges of A that the address generator fetches: lines of channels at positions that some tap reads (R204). -/
def convReads (c : Cmd) (o : ConvOp) (a : Desc) : List (Nat × Nat) :=
  let pos (ix : List Nat) (j : Nat) : Nat := ix.getD (j + 1) 0 / (if bit o.g.rg 0 then max (at3 o.g.patch j) 1 else 1)
  lineRanges a fun ix => (List.range o.g.dims).all fun j => posRead c o j (pos ix j)

/-- The elements of A that a row and a K position of the product read. -/
def convElems (c : Cmd) (o : ConvOp) (gr m k : Nat) : List (List Nat) :=
  let g := o.g
  let one (p : Option (List Nat)) (ch n : Nat) : List (List Nat) := match p with | some q => [o.a.ix ch q n] | none => []
  let ci := max (if c.role = 1 then o.cout else o.cin) 1
  if c.wino ≠ 0 then
    let w := winoM c.wino
    let p := posOf (winoTiles c o) m
    (List.range (w + 2)).flatMap fun y => (List.range (w + 2)).flatMap fun x =>
      one (g.tapPos o.a.x [at3 p.1 0 * w + x, at3 p.1 1 * w + y, at3 p.1 2] [0, 0, k / ci]) (k % ci) p.2
  else
    match c.role with
    | 0 => let p := posOf o.out m; one (g.tapPos o.a.x p.1 (g.tap (k / ci))) (gr * o.cin + k % ci) p.2
    | 1 => let p := posOf o.cv.x m; one (g.backPos o.a.x p.1 (g.tap (g.taps - 1 - k / ci))) (gr * o.cout + k % ci) p.2
    | _ => let p := posOf o.out k; one (g.tapPos o.a.x p.1 (g.tap (m / ci))) (gr * o.cin + m % ci) p.2

/-- The elements of B that a K position and a column of the product read. -/
def convElemsB (c : Cmd) (o : ConvOp) (gr k n : Nat) : List (List Nat) :=
  let g := o.g
  let ci := max o.cin 1
  let co := max o.cout 1
  if c.wino ≠ 0 then (List.range 3).flatMap fun y => (List.range 3).map fun x => filterIx g.dims n (k % ci) [x, y, k / ci] 0
  else
    match c.role with
    | 0 => [filterIx g.dims n (k % ci) (g.tap (k / ci)) gr]
    | 1 => [filterIx g.dims (k % co) n (g.tap (g.taps - 1 - k / co)) gr]
    | _ => let p := posOf o.out k; [o.b.ix (gr * o.cout + n) p.1 p.2]

/-- Bytes of the sectors of A that an L1 tile touches, exponents included, largest over the tiles (R207); `P` is the product, of one
transform point under WINO. -/
def convStageA (s : State) (h : Nat) (c : Cmd) (P : Prod) (o : ConvOp) (a : Desc) : Nat :=
  let t := c.lvl 1
  if !used t || homeLevel s h a ≤ 1 then 0 else
  match a.format with
  | none => 0
  | some f =>
    let addrs (gr m k : Nat) : List Nat := (convElems c o gr m k).flatMap fun ix => (a.elemAddr f ix).1 :: if f.isDq then [a.expAddr f ix] else []
    ((List.range P.batches).flatMap fun gr => (cut (0, P.m) t.1).flatMap fun m => (cut (0, P.k) t.2.2).map fun k =>
      64 * (dedup (((List.range m.2).flatMap fun i => (List.range k.2).flatMap fun j => addrs gr (m.1 + i) (k.1 + j)).map (· / 64))).length).foldl max 0

/-- The product whose L1 tiles are staged. -/
def stageProd (s : State) (c : Cmd) (a b d : Desc) (o : ConvOp) : Prod :=
  if c.wino = 0 then convProd s c .bf16 a b d else winoProd s c a b o 0

/-- CONV's checks (R198 to R219): the code, or 0, and the increment. -/
def checkConv (s : State) (h : Nat) (c : Cmd) : Nat × Nat :=
  let oa := convA s c
  let ob := convB s c
  let od := convC s c
  let a := oa.desc
  let b := ob.desc
  let d := od.desc
  let g := Geom.parse c.geom
  let form := firstCode [
    codeIf (maskBad c true false false true || c.meMask == 0) Code.CMD_UNITS,
    codeIf (bits c.loops 6 10 != 0 || bits c.mode 13 19 != 0 || bits (c.fld 0x28 4) 28 4 != 0 || !rsvdZero c.raw 0x32 6 ||
      c.role == 3 || c.wino == 3 || (c.acc.base != 0 && !c.acc.accIn && !c.acc.keep)) Code.CMD_FORMAT,
    codeIf (c.passes == 0) Code.FMT_PAIR, oa.code, ob.code, od.code]
  if form ≠ 0 then (form, 0)
  else if oa.isLater || ob.isLater || od.isLater then (earlyCode s h c false, 0)
  else
    let known := a.rank != 0 && b.rank != 0 && d.rank != 0
    let arr := match a.format, b.format with | some fa, some fb => (pairFormat fa fb c.passes).getD .bf16 | _, _ => .bf16
    let o := convOp c a b d
    let work := g.taps != 0 && g.groups != 0
    let empty := convEmpty c o
    let P := if c.wino = 0 then convProd s c arr a b d else winoRows s c a b o
    let T := if c.wino = 0 then c.tiling false else winoTiling c
    let live := if c.wino = 0 then liveCode s h c P T
      else if c.acc.accIn || c.acc.keep then slotCode s h c T.mes (T.liveAll P) 2 else roomCode s h c T.mes (ceilDiv T.run 128 + 2)
    let stageA := convStageA s h c (stageProd s c a b d o) o a
    let stageB := if used (c.lvl 1) then match b.format with
        | some f => if 1 < homeLevel s h b then tileBytes f (c.lvl 1).2.1 (c.lvl 1).2.2 else 0
        | none => 0 else 0
    let banks := if stageA + stageB = 0 then 0 else
      banksOf s h [(bankBase (16 + 8 * h) + rd s (F.HRT_STAGE_L1_OFFSET_4K h) * 4096, stageSize s h 1)]
    let inc := if known && work && !empty then meCharge c P else popcount c.bankMask 8
    (firstCode [
      codeIf (convGeomBad s c o a b d) Code.CONV_GEOM,
      codeIf (decide (16 < at3 g.k 0) || decide (16 < at3 g.k 1) || decide (8 < at3 g.k 2)) Code.CONV_FILTER,
      if known then pairCode c a b else 0,
      codeIf (known && winoBad c g arr) Code.WINO_INVALID,
      codeIf (roundBad c d) Code.FMT_ROUND,
      codeIf (tileBoundsBad c arr) Code.SHAPE_INVALID,
      codeIf (known && convDqBad c o a b d) Code.FMT_LAYOUT,
      codeIf (known && work && convShapeBad c o a b d) Code.DESC_SHAPE,
      codeIf (known && (tensorsMeet s d a || tensorsMeet s d b || selfOverlap s d)) Code.DESC_ALIAS,
      codeIf (foreignBank s h [a, b, d]) Code.OWNER_FAULT,
      codeIf (tileRulesBad s h c false [a, b] (if c.wino = 0 then P.m else P.m / (winoM c.wino * winoM c.wino)) P.n P.k) Code.TILE_INVALID,
      if known && work && !empty && !noStream P c then live else 0,
      codeIf (stageGone s h c false || (known && decide (stageSize s h 1 < 5 * (stageA + stageB)))) Code.TILE_CAPACITY,
      codeIf (bankMissing s h c [a, b, d] || (maskBits banks 8).any fun k => !bit c.bankMask k) Code.CMD_UNITS,
      codeIf (T.mes.any fun i => rd s (F.MXE_ERR_FAULTED h i) == 1) Code.ME_FAULTED], inc)

/-- The slots of a CONV (R125, R127, R209, R218). -/
def convSlots (s : State) (c : Cmd) : List (Nat × Nat) :=
  let a := (convA s c).desc
  let b := (convB s c).desc
  let d := (convC s c).desc
  let o := convOp c a b d
  let P := if c.wino = 0 then convProd s c .bf16 a b d else winoRows s c a b o
  if a.rank = 0 ∨ b.rank = 0 ∨ d.rank = 0 ∨ o.g.taps = 0 ∨ o.g.groups = 0 ∨ convEmpty c o ∨ noStream P c then []
  else if c.wino = 0 then liveSlots c P (c.tiling false)
  else
    let T := winoTiling c
    T.mes.map fun i => (i, if c.acc.accIn || c.acc.keep then T.liveAll P i else ceilDiv T.run 128 + 2)

/-- DGRAD's accumulator element: an input position that no tap of dY reaches receives +0 (R211). DEDUCED (log entry 107). -/
def dgradVal (o : ConvOp) (P : Prod) (b m n : Nat) (init : Option Nat) : Nat × Nat :=
  let p := (posOf o.cv.x m).1
  if (List.range o.g.taps).any fun t => (o.g.backPos o.a.x p (o.g.tap t)).isSome then accumulate P b m n init
  else match init with
    | none => (0, 0)
    | some a => if accInt P.arr then (a, 0) else addF P.flush (fp32.decode a) (FVal.fin false 0 0)

/-- The notice of an empty output (R209). -/
def emptyOutput (s : State) (h : Nat) (c : Cmd) (unit : Nat) : State :=
  cmdDone (emberCode (ticketFlags s c.ticket 8) unit Code.EMPTY_OUTPUT (some (cmdId s h c))) h c

/-- CONV: an implicit convolution on the MEs (R198). -/
def execConv (h : Fin 16) (seq : BitVec 32) (s : State) : Res :=
  opRow h seq 0x11 s fun s c =>
    let a := (convA s c).desc
    let b := (convB s c).desc
    let d := (convC s c).desc
    match a.format, b.format with
    | some fa, some fb =>
      let o := convOp c a b d
      let P := if c.wino = 0 then convProd s c ((pairFormat fa fb c.passes).getD .bf16) a b d else winoRows s c a b o
      let T := if c.wino = 0 then c.tiling false else winoTiling c
      if a.rank = 0 ∨ b.rank = 0 ∨ d.rank = 0 ∨ o.g.taps = 0 ∨ o.g.groups = 0 then cmdDone s h c
      else if convEmpty c o then emptyOutput s h c (U.disp h)
      else if noStream P c then cmdDone s h c
      else
        orFail h c (U.disp h) (readRanges s h c (convReads c o a ++ b.ranges ++ recRanges a false ++ recRanges b false)) fun s _ =>
          if c.wino = 0 then
            runProduct s h c P T c.acc d (readoutMode s c a b d) (convAt c o) (if c.role = 1 then dgradVal o P else accumulate P) (opsOf P T)
              (padLane s o.g P.arr c.passes c.subn a).stat
          else
            let m := winoM c.wino
            let at_ (ix : List Nat) : Nat × Nat × Nat :=
              let p := posOf o.out (convAt c o ix).2.1
              let tile := posNum (winoTiles c o) [at3 p.1 0 / m, at3 p.1 1 / m, at3 p.1 2] p.2
              (0, tile * (m * m) + at3 p.1 1 % m * m + at3 p.1 0 % m, (convAt c o ix).2.2)
            let pts := (m + 2) * (m + 2)
            runProduct (cntHearth s h 15 (winoDom s c a b o)) h c P T c.acc d (winoMode s c a b d) at_
              (fun _ r n => winoVal s c a b o (winoFactor s a b d) r n) (fun i => opsOf P T i / (m * m) * pts) (padValueOf s o.g c.subn a).2
    | _, _ => cmdDone s h c

/-! ### Pooling (R221, R222) -/

def poolA (s : State) (c : Cmd) : Opnd := c.opnd s 0x10 (c.fld 0x18 2) true
def poolC (s : State) (c : Cmd) : Opnd := c.opnd s 0x14 (c.fld 0x1A 2) true

/-- POOL's checks (R221): the code, or 0, and the increment. -/
def checkPool (s : State) (h : Nat) (c : Cmd) : Nat × Nat :=
  let oa := poolA s c
  let od := poolC s c
  let a := oa.desc
  let d := od.desc
  let g := Geom.parse c.geom
  let form := firstCode [
    codeIf (maskBad c false true false true) Code.CMD_UNITS,
    codeIf (!rsvdZero c.raw 0x1C 4 || !rsvdZero c.raw 0x28 24) Code.CMD_FORMAT, oa.code, od.code]
  if form ≠ 0 then (form, 0)
  else if oa.isLater || od.isLater then (0, 0)
  else
    let known := a.rank != 0 && d.rank != 0
    let va := View.plain g.dims a
    let vd := View.plain g.dims d
    let out := (List.range 3).map fun i => g.out i (at3 va.x i)
    let empty := (List.range 3).any fun i => decide (out.getD i 0 ≤ 0) || at3 va.x i == 0
    (firstCode [
      codeIf (c.fld 0x20 8 % 64 != 0 || !inOneRegion s (c.fld 0x20 8) 64 || Geom.bad c.geom || g.pool == 0 || g.rg != 0 || g.groups != 1) Code.CONV_GEOM,
      codeIf (decide (16 < at3 g.k 0) || decide (16 < at3 g.k 1) || decide (8 < at3 g.k 2)) Code.CONV_FILTER,
      codeIf (roundBad c d) Code.FMT_ROUND,
      codeIf (known && g.taps != 0 && (decide (g.dims + 2 < a.rank) || decide (g.dims + 2 < d.rank) || 
        (!empty && (va.c != vd.c || va.n != vd.n || vd.x.map Int.ofNat != out)))) Code.DESC_SHAPE,
      codeIf (known && (tensorsMeet s d a || selfOverlap s d)) Code.DESC_ALIAS,
      codeIf (foreignBank s h [a, d]) Code.OWNER_FAULT,
      codeIf (bankMissing s h c [a, d]) Code.CMD_UNITS], 3 * popcount c.awlMask 8 + popcount c.bankMask 8)

/-- An element widened to FP32 with its block and per-tensor scales (R104, R222). -/
def scaledElem (s : State) (flush : Bool) (d : Desc) (ix : List Nat) : FVal × Nat :=
  match d.format with
  | none => (FVal.fin false 0 0, 0)
  | some f =>
    match f.float with
    | some ff => let (v, fl) := ff.load flush (d.rawElem s f ix); (v, flagIf fl stSubn)
    | none =>
      let v := d.elem s f ix
      if !f.isDq && d.scalePtr == 0 then let (n, fl) := fp32.round flush v; (fp32.decode n, flagIf fl stSubn)
      else
        let (n, g) := scaleTo fp32 v (fp32.decode (tensorScale s d))
        (fp32.decode n, g ||| flagIf (f.isDq && d.expCode s f ix == 0xFF) stInvalid)

/-- The value of one pooled output, with its flags (R222). -/
def poolValue (s : State) (c : Cmd) (g : Geom) (a : Desc) (ix : List Nat) : FVal × Nat :=
  let v := View.plain g.dims a
  let o := if g.dims = 2 then [ix.getD 1 0, ix.getD 2 0, 0] else [ix.getD 1 0, ix.getD 2 0, ix.getD 3 0]
  let n := ix.getD (g.dims + 1) 0
  let pos := (List.range g.taps).map fun t => g.tapPos v.x o (g.tap t)
  let image := pos.filterMap id
  let (pad, fp) := fp32.load c.subn g.padValue
  let pad := (pad, flagIf fp stSubn)
  let val (p : List Nat) : FVal × Nat := scaledElem s c.subn a (v.ix (ix.getD 0 0) p n)
  let sum (xs : List (FVal × Nat)) : FVal × Nat :=
    match xs with
    | [] => (FVal.fin false 0 0, 0)
    | x :: xs => xs.foldl (fun t x => let (r, fl) := addF c.subn t.1 x.1; (fp32.decode r, t.2 ||| x.2 ||| fl)) x
  if image.isEmpty then pad
  else
    match g.pool with
    | 1 => let xs := image.map val; (xs.foldl (fun a x => FVal.max a x.1) (FVal.inf true), xs.foldl (fun a x => a ||| x.2) 0)
    | p =>
      let xs := if p = 2 then pos.map fun q => match q with | some q => val q | none => pad else image.map val
      let (t, fl) := sum xs
      let (r, f2) := fp32.round c.subn (t.div (FVal.ofInt xs.length))
      (fp32.decode r, fl ||| flagIf f2 stSubn)

/-- The byte ranges of A that a POOL reads: the lines that a tap reads (R204). -/
def poolReads (g : Geom) (a : Desc) : List (Nat × Nat) :=
  let v := View.plain g.dims a
  lineRanges a fun ix => (List.range g.dims).all fun j => g.reads (g.out j (at3 v.x j)).toNat j (ix.getD (j + 1) 0)

/-- A POOL has run on the cores of its AWL_MASK: it is their last command, and they stand idle (R170, R172, R197). -/
def poolCores (s : State) (h : Nat) (c : Cmd) : State :=
  each (cmdCores h c) s fun s k =>
    let s := setCore s k { getCore s k with seq := c.seq, ticket := c.ticket, lastTicket := some c.ticket, lean := false }
    wr (wr (wr (wr s (coreSeqF k) c.seq) (coreActiveF k) 0) (coreLeanF k) 0) (coreStateF k) awlIDLE

/-- POOL: pooling on the Awl cores (R221, R222). -/
def execPool (h : Fin 16) (seq : BitVec 32) (s : State) : Res :=
  opRow h seq 0x12 s fun s c =>
    let a := (poolA s c).desc
    let d := (poolC s c).desc
    let g := Geom.parse c.geom
    let va := View.plain g.dims a
    if a.rank = 0 ∨ d.rank = 0 ∨ g.taps = 0 ∨ c.awlMask = 0 then cmdDone s h c
    else if (List.range 3).any fun i => decide (g.out i (at3 va.x i) ≤ 0) || at3 va.x i == 0 then emptyOutput s h c (U.disp h)
    else
      orFail h c (U.disp h) (readRanges (poolCores s h c) h c (poolReads g a ++ recRanges a false)) fun s _ =>
        let stat := d.indices.foldl (fun t ix => t ||| (poolValue s c g a ix).2) 0
        let unit := match cmdCores h c with | k :: _ => coreUnit k | [] => U.disp h
        storeAndDone s h c unit d (plainMode s c d) (fun ix => (poolValue s c g a ix).1) stat

end Sys2Proof.Machine
end

