-- ==== Sys2Proof/Machine/Transcend.lean ====
section
/-! DEFINITION. The exact values of the transcendental functions, to well beyond every format, and the encodings that R182 lets
a result take. -/

namespace Sys2Proof.Machine

/-! ### Fixed-point series with 320 fraction bits -/

def fxOne : Int := 2 ^ 320
def fxMul (a b : Int) : Int := a * b / fxOne
def fxDiv (a b : Int) : Int := a * fxOne / b

/-- Σ x^k / (2k + 1): atanh t is t times it at t², atan t is t times it at −t² (|t| ≤ 1/3). -/
def fxOdd (x : Int) : Int := (List.range 110).foldr (fun k acc => fxOne / ((2 * k + 1 : Nat) : Int) + fxMul acc x) 0
def fxAtanh (t : Int) : Int := fxMul t (fxOdd (fxMul t t))
def fxAtan (t : Int) : Int := fxMul t (fxOdd (-(fxMul t t)))
def fxLn2 : Int := 2 * fxAtanh (fxOne / 3)
/-- The square root of π (Machin's series for π). -/
def fxRootPi : Int :=
  let x := (16 * fxAtan (fxOne / 5) - 4 * fxAtan (fxOne / 239)).toNat * 2 ^ 320
  isqrt (bitLen x / 2 + 1) x 0
/-- Σ r^n / n! for 0 ≤ r < 1. -/
def fxExp (r : Int) : Int := (List.range 90).foldr (fun n acc => fxOne + fxMul acc r / ((n + 1 : Nat) : Int)) fxOne
/-- Σ (2x)^n / (3 · 5 ⋯ (2n + 1)) for x < 64. -/
def fxErfSum (x : Int) : Int := (List.range 420).foldr (fun n acc => fxOne + fxMul acc (2 * x) / ((2 * n + 3 : Nat) : Int)) fxOne

/-- A finite value in fixed point; exact for every encoding of Table 4-2 below 2^512. -/
def FVal.fx : FVal → Int
  | .fin neg m e => alignTo neg (if 0 ≤ e then m * 2 ^ e.toNat * 2 ^ 320 else m * 2 ^ 320 / 2 ^ (-e).toNat) 0 0
  | _ => 0

/-- A fixed-point number times 2^k as a value. -/
def fxVal (x : Int) (k : Int) : FVal := .fin (decide (x < 0)) x.natAbs (k - 320)

/-- exp of a fixed-point number, as a value: x = k ln 2 + r. -/
def fxExpVal (x : Int) : FVal := fxVal (fxExp (x - x / fxLn2 * fxLn2)) (x / fxLn2)

/-- |x| is at least n. -/
def FVal.reaches (x : FVal) (n : Nat) : Bool :=
  match x with
  | .fin _ m e => cmpFin false m e false n 0 != .lt
  | _ => true

/-! ### The functions at finite values -/

/-- e^x; beyond every format it is given as an infinity or as a value below every rounding step. -/
def FVal.expOf (x : FVal) : FVal :=
  if x.reaches 256 then (if x.isNeg then .fin false 1 (-400) else .inf false) else fxExpVal x.fx

/-- ln x for x > 0. -/
def FVal.logOf : FVal → FVal
  | .fin _ m e =>
    let l := bitLen m - 1
    let f : Int := (m * 2 ^ 320 / 2 ^ l : Nat)
    fxVal (2 * fxAtanh (fxDiv (f - fxOne) (f + fxOne)) + (e + l) * fxLn2) 0
  | x => x

/-- An odd function that stays below 1 in magnitude, from its value at |x|; a zero keeps its sign. -/
def FVal.oddOf (x : FVal) (y : FVal) : FVal :=
  match x, y with
  | .fin neg m _, .fin _ m' e' => if m = 0 then x else .fin neg m' e'
  | _, _ => y

/-- The value just below 1 that stands for results within 2^−96 of it. -/
def nearOne : FVal := .fin false (2 ^ 100 - 1) (-100)

/-- tanh x = (e^2x − 1) / (e^2x + 1). -/
def FVal.tanhOf (x : FVal) : FVal :=
  x.oddOf (if x.reaches 64 then nearOne else
    let y := (fxExpVal (2 * x.abs.fx)).fx
    fxVal (fxDiv (y - fxOne) (y + fxOne)) 0)

/-- erf x = 2/√π · e^(−x²) · x · Σ (2x²)^n / (3 · 5 ⋯ (2n + 1)). -/
def FVal.erfOf (x : FVal) : FVal :=
  x.oddOf (if x.reaches 8 then nearOne else
    let v := x.abs.fx
    let q := fxMul v v
    fxVal (fxDiv (2 * fxMul (fxMul (fxExpVal (-q)).fx v) (fxErfSum q)) fxRootPi) 0)

/-! ### What a result may be (R182) -/

/-- The encodings of a format within n ulp of an exact value, of the sign of that value, in rising magnitude: the ulp is the step of
the format at the value, and infinity stands one step above the largest finite value. An exact zero is returned as it is
(DEDUCED, log entry 5). -/
def FFmt.within (f : FFmt) (n : Nat) (v : FVal) : List Nat :=
  let c := (f.round false v).1
  match v with
  | .fin neg m e =>
    if m = 0 then [c] else
    let u := min (max (e + bitLen m - 1 - f.mb) f.emin) (f.bias - f.mb)
    let top := f.inf false
    let c0 := c % 2 ^ (f.eb + f.mb)
    let mag (x : Nat) : FVal := if x = top then .fin false (2 ^ f.mb) (f.bias + 1 - f.mb) else f.decode x
    let near (x : Nat) : Bool :=
      match (mag x).sub (.fin false m e) with
      | .fin _ d t => cmpFin false d t false n u != .gt
      | _ => false
    let xs := (List.range (4 * n + 1)).filterMap fun i =>
      if c0 + i < 2 * n ∨ top < c0 + i - 2 * n then none
      else if c0 + i - 2 * n = c0 ∨ near (c0 + i - 2 * n) then some (f.zero neg + (c0 + i - 2 * n)) else none
    xs
  | _ => [c]

/-- A result that R182 leaves open: the k-th of the encodings within n ulp; a subnormal one is flushed in that mode (R106). -/
def FFmt.choose (f : FFmt) (flush : Bool) (n : Nat) (v : FVal) (k : Nat) : Nat × Bool :=
  let xs := f.within n v
  let x := xs.getD (k % xs.length) (f.round false v).1
  if flush && bits x f.mb f.eb == 0 && bits x 0 f.mb != 0 then (f.zero (bit x (f.eb + f.mb)), true) else (x, false)

end Sys2Proof.Machine
end

