-- ==== Sys2Proof/Machine/RowEngine.lean ====
section
/-! DEFINITION. The row engine (R235, R236, R250, R254 to R261): its arithmetic, the statistics memory and its spill region, ROW_FWD
and ROW_BWD. -/

namespace Sys2Proof.Machine

/-! ### FP32 steps with their flags -/

/-- An FP32 value with the flags met in computing it. -/
structure FR where
  v : FVal
  g : Nat
  deriving DecidableEq, Repr

def FR.zero : FR := ⟨FVal.fin false 0 0, 0⟩
def FR.ofBits (n : Nat) : FR := ⟨fp32.decode n, 0⟩
/-- An FP32 operand in a subnormal mode (R106, R107). -/
def FR.load (flush : Bool) (n : Nat) : FR := let (v, fl) := fp32.load flush n; ⟨v, flagIf fl stSubn⟩
/-- The FP32 encoding. -/
def FR.bits (a : FR) : Nat := (fp32.round false a.v).1

/-- Round an exact result to FP32 (R85, R106). -/
def FR.mk1 (flush : Bool) (v : FVal) (g : Nat) : FR := let (n, fl) := fp32.round flush v; ⟨fp32.decode n, g ||| flagIf fl stSubn⟩
def FR.add (flush : Bool) (a b : FR) : FR := FR.mk1 flush (a.v.add b.v) (a.g ||| b.g)
def FR.sub (flush : Bool) (a b : FR) : FR := FR.mk1 flush (a.v.sub b.v) (a.g ||| b.g)
def FR.mul (flush : Bool) (a b : FR) : FR := FR.mk1 flush (a.v.mul b.v) (a.g ||| b.g)
def FR.div (flush : Bool) (a b : FR) : FR := FR.mk1 flush (a.v.div b.v) (a.g ||| b.g)
def FR.sqrt (flush : Bool) (a : FR) : FR := FR.mk1 flush a.v.sqrt a.g
/-- The VMAX rule. -/
def FR.max (a b : FR) : FR := ⟨FVal.max a.v b.v, a.g ||| b.g⟩
/-- Sum in ascending order from +0. -/
def FR.sum (flush : Bool) (xs : List FR) : FR :=
  match xs with
  | [] => FR.zero
  | x :: xs => xs.foldl (FR.add flush) x

/-- The row engine's exp (R182, R227): the special cases are fixed; any other result is one of the encodings within 2 ulp, which
the constant `Config.rowExp` of subnormal mode and operand selects (DEDUCED, log entry 5). -/
def FR.exp (flush : Bool) (a : FR) : FR :=
  match a.v with
  | .nan => a
  | .inf neg => if neg then ⟨FVal.fin false 0 0, a.g⟩ else a
  | v =>
    let r := fp32.choose flush 2 v.expOf (Config.rowExp flush a.bits)
    ⟨fp32.decode r.1, a.g ||| flagIf r.2 stSubn⟩

def FVal.isNegInf : FVal → Bool
  | .inf neg => neg
  | _ => false

/-- x > y of values that are no NaN. -/
def FVal.gt (x y : FVal) : Bool := !x.isNan && !y.isNan && FVal.cmp x y == .gt

/-- The statistics (m, l) of a row over its key blocks (R227, sweep 1). -/
def softStats (flush : Bool) (blocks : List (List FR)) : FR × FR :=
  blocks.foldl (fun (a : FR × FR) z =>
    let mj := z.foldl FR.max ⟨FVal.inf true, 0⟩
    let (m, l) := if mj.v.isNan || a.1.v.isNan then (⟨.nan, a.1.g ||| mj.g⟩, FR.mul flush a.2 (FR.exp flush ⟨.nan, 0⟩))
      else if FVal.gt mj.v a.1.v then (mj, FR.mul flush a.2 (FR.exp flush (FR.sub flush a.1 mj)))
      else a
    if m.v.isNan || FVal.gt m.v (FVal.inf true) then (m, z.foldl (fun l x => FR.add flush l (FR.exp flush (FR.sub flush x m))) l)
    else (m, l)) (⟨FVal.inf true, 0⟩, FR.zero)

/-- l > 0, or a NaN that makes every output NaN (R227). -/
def softLive (l : FR) : Bool := l.v.isNan || FVal.gt l.v (FVal.fin false 0 0)

/-- exp(z − m) × r (R227, sweep 2). -/
def softProb (flush : Bool) (m l z : FR) : FR :=
  FR.mul flush (FR.exp flush (FR.sub flush z m)) (FR.div flush (FR.ofBits fp32One) l)

/-! ### Statistics memory (R254 to R256) -/

def statMemSize : Nat := 131072
def findStat (s : State) (h ticket tag : Nat) : Option StatTag :=
  s.stats.find? fun x => x.hearth == h && x.ticket == ticket && x.tag == tag
def setStat (s : State) (x : StatTag) : State :=
  let same (y : StatTag) : Bool := y.hearth == x.hearth && y.ticket == x.ticket && y.tag == x.tag
  { s with stats := if s.stats.any same then s.stats.map (fun y => if same y then x else y) else s.stats ++ [x] }

/-- The tag that a command reads or writes, if any. -/
def statTagOf (c : Cmd) : Nat :=
  match c.opcode with
  | 0x18 => if bit (c.fld 0x38 4) 4 then bits (c.fld 0x38 4) 16 16 else 0
  | 0x20 => if bit (c.fld 0x29 1) 0 then c.fld 0x2A 2 else 0
  | 0x21 => c.fld 0x32 2
  | _ => 0

/-- At decode a command with STATS set receives the next run of row indices of its tag (R254). -/
def assignRows (s : State) (h : Nat) (c : Cmd) (rows : Nat) : State :=
  let tag := statTagOf c
  let x := (findStat s h c.ticket tag).getD
    { hearth := h, ticket := c.ticket, tag := tag, softmax := none, next := 0, rows := [], errs := [], order := 0, spilled := false, step := c.step }
  updCmd (setStat s { x with next := x.next + rows }) h c.seq fun c => { c with statRow := x.next }

/-- Bytes of the spill region that a tag takes. -/
def spillBytes (n : Nat) : Nat := ceilDiv n 32 * 256
def spillUsed (s : State) (h : Nat) : Nat :=
  (s.stats.filter fun x => x.hearth == h && x.spilled).foldl (fun a x => a + spillBytes x.rows.length) 0
def spillSize (s : State) (h : Nat) : Nat := rd s (F.SBG_RSPILL_SIZE_4K h) * 4096

/-- A spill writes the region; where in it each row lies is not stated, so its bytes become free values (DESIGN CHOICE, log entry 18). -/
def scrambleSpill (s : State) (h : Nat) : State :=
  let (d, s) := takeFreeBytes s (spillSize s h)
  poke s (bankBase (16 + 8 * h) + rd s (F.SBG_RSPILL_OFFSET_4K h) * 4096) d

/-- What a claim of statistics memory comes to (R255): the rows have room, whole tags have been spilled to make it, or nothing more
can be spilled. -/
inductive Claim where
  | ok (s : State)
  | spilled (s : State)
  | full (s : State)
  deriving DecidableEq, Repr

/-- Spill whole tags until `need` entries are free (R255). The tags spilled stay spilled where no further one can be. -/
def makeRoom (s : State) (h : Nat) (c : Cmd) (need : Nat) (did : Bool) : Nat → Claim
  | 0 => .full s
  | fuel + 1 =>
    let used := (s.stats.filter fun x => x.hearth == h && !x.spilled).foldl (fun a x => a + x.rows.length) 0
    if used + need ≤ statMemSize then (if did then .spilled s else .ok s) else
    let busy (x : StatTag) : Bool := (getDisp s h).cmds.any fun y => y.st.started && y.ticket == x.ticket && statTagOf y == x.tag
    let cands := s.stats.filter fun x => x.hearth == h && !x.spilled && !x.rows.isEmpty && !busy x
    match cands.foldl (fun (b : Option StatTag) x => match b with
        | none => some x
        | some y => if x.order < y.order then some x else some y) none with
    | none => .full s
    | some x =>
      if spillSize s h < spillUsed s h + spillBytes x.rows.length then .full s
      else
        let s := scrambleSpill (setStat s { x with spilled := true }) h
        let s := wr (emberCode s (U.row h) Code.STAT_SPILL (some (cmdId s h c))) F.SBG_EVENT_STAT_SPILL 1
        makeRoom (syncStats s h) h c need true fuel

/-- The tag that a command writes, or a new one: its row counter stands at zero (R256). -/
def tagOf (s : State) (h : Nat) (c : Cmd) : StatTag :=
  (findStat s h c.ticket (statTagOf c)).getD
    { hearth := h, ticket := c.ticket, tag := statTagOf c, softmax := none, next := 0, rows := [], errs := [], order := 0,
      spilled := false, step := c.step }

/-- A command claims memory for n rows of its tag (R255): a tag that has spilled grows in the spill region. -/
def claimRoom (s : State) (h : Nat) (c : Cmd) (n : Nat) : Claim :=
  let x := tagOf s h c
  if !x.spilled then makeRoom s h c n false (s.stats.length + 2)
  else if spillSize s h < spillUsed s h - spillBytes x.rows.length + spillBytes (x.rows.length + n) then .full s
  else .ok (scrambleSpill s h)

/-- Write rows of the command's tag from index `first` on. The step in which a tag is written is that of its first rows, whose commit
frees it (R256). -/
def writeRows (s : State) (h : Nat) (c : Cmd) (softmax : Bool) (first : Nat) (vals : List (Nat × Nat)) : State :=
  let x := tagOf s h c
  let order := if x.rows.isEmpty then s.stats.foldl (fun a y => Nat.max a y.order) 0 + 1 else x.order
  let rows := (vals.zip (List.range vals.length)).foldl (fun (m : Smap (Nat × Nat)) p => m.set (first + p.2) p.1) x.rows
  syncStats (setStat s { x with softmax := some softmax, rows := rows, order := order, step := if x.rows.isEmpty then c.step else x.step }) h

/-- A command claims memory for rows and writes them, and goes on; a spill holds it until its next step, the row engine showing SPILL
meanwhile (R254, R255, Table 9-16). A tag of the other kind fails it. -/
def claiming (s : State) (h : Nat) (c : Cmd) (softmax : Bool) (first : Nat) (vals : List (Nat × Nat)) (k : State → State) : State :=
  if (tagOf s h c).softmax = some (!softmax) then failRunning s h c (U.row h) Code.STAT_MISSING
  else
    match claimRoom s h c vals.length with
    | .full s => failRunning s h c (U.row h) Code.STAT_FULL
    | .spilled s => cntHearth (wr s (F.ROW_STATE_STATE h) 4) h 13 1
    | .ok s => k (writeRows s h c softmax first vals)

/-- What the row engine makes of words with these numbers of flipped bits (R250). -/
def rowWords (s : State) (h : Nat) (errs : List Nat) (cmd : Option CmdId) : State × Req Unit :=
  if errs.any fun n => decide (2 ≤ n) then (cntHearth (wr s (F.ROW_ERR_UNCORR h) 1) h 18 1, .fail Code.ROW_ECC)
  else
    (each errs s fun s _ =>
      emberCode (cntHearth (satAdd (wr s (F.ROW_ERR_CORR h) 1) (F.ROW_ERR_CORR_COUNT h) 1) h 17 1) (U.row h) Code.ROW_CORR cmd, .ok ())

/-- Read the words of the row buffer: single-bit errors are corrected, counted and recorded, a double-bit error fails with `ROW_ECC` (R250). -/
def readBuffer (s : State) (h : Nat) (cmd : CmdId) : State × Req Unit :=
  let mine (e : Nat × Nat) : Bool := e.1 / 2 ^ 16 == 2 ^ 10 + h
  let s' := { s with wordErrs := s.wordErrs.filter fun e => !mine e }
  rowWords s' h ((s.wordErrs.filter mine).map (·.2)) (some cmd)

/-- Read rows of a tag: single-bit errors are corrected and counted, double-bit errors fail with `ROW_ECC` (R250). -/
def readRows (s : State) (h : Nat) (c : Cmd) (softmax : Bool) (first n : Nat) : State × Req (List (Nat × Nat)) :=
  match findStat s h c.ticket (statTagOf c) with
  | none => (s, if n = 0 then .ok [] else .fail Code.STAT_MISSING)
  | some x =>
    let want := (List.range n).map (first + ·)
    if x.softmax = some (!softmax) ∨ want.any fun i => (x.rows.find? i).isNone then (s, .fail Code.STAT_MISSING)
    else
      match rowWords s h ((x.errs.filter fun e => want.contains e.1).map (·.2)) (some (cmdId s h c)) with
      | (s, .fail code) => (s, .fail code)
      | (s, _) => (setStat s { x with errs := x.errs.filter fun e => !want.contains e.1 }, .ok (want.map fun i => x.rows.get (0, 0) i))

/-! ### Rows -/

/-- Index lists of a tensor's rows (dim 0 left at 0), in row order. -/
def Desc.rowIx (d : Desc) : List (List Nat) := if d.rank = 0 then [] else (indexLists (1 :: d.sizes.drop 1))

/-- A row's elements in FP32 with its scales (R104, R235). -/
def rowValues (s : State) (flush : Bool) (d : Desc) (ix : List Nat) : List FR :=
  (List.range (d.size 0)).map fun k => let (v, g) := scaledElem s flush d (ix.set 0 k); ⟨v, g⟩

/-- The number of rows. -/
def Desc.rowCount (d : Desc) : Nat := if d.rank = 0 then 0 else (d.sizes.drop 1).foldl (· * ·) 1

/-- A finite, non-negative FP32 pattern. -/
def epsBad (n : Nat) : Bool := !(fp32.decode n).isFinite || bit n 31 && n % 2 ^ 31 != 0

/-- The row engine's registers as it runs a command. -/
def rowRan (s : State) (h : Nat) (c : Cmd) (elems : Nat) : State :=
  cntHearth (wr (wr s (F.ROW_CMD_SEQ h) c.seq) (F.ROW_STATE_STATE h) (rowBusy c)) h 10 elems

/-! ### ROW_FWD (R235, R236) -/

def rfX (s : State) (c : Cmd) : Opnd := c.opnd s 0x10 (c.fld 0x20 2) true
def rfY (s : State) (c : Cmd) : Opnd := c.opnd s 0x14 (c.fld 0x22 2) true
def rfG (s : State) (c : Cmd) : Opnd := c.opnd s 0x18 0 false
def rfB (s : State) (c : Cmd) : Opnd := c.opnd s 0x1C 0 false
def rfM (s : State) (c : Cmd) : Opnd := c.opnd s 0x24 0 false
def rfOp (c : Cmd) : Nat := c.fld 0x28 1
def rfStats (c : Cmd) : Bool := bit (c.fld 0x29 1) 0

/-- A vector operand is BF16 or FP32, of rank 1 and size n. -/
def vecFormatBad (d : Desc) : Bool := d.rank != 0 && d.fmt != 0x11 && d.fmt != 0x12
def vecShapeBad (d : Desc) (n : Nat) : Bool := d.rank != 1 || d.size 0 != n

def isEvalTicket (s : State) (c : Cmd) : Bool := match findTicket s c.ticket with | some t => t.eval | none => false

/-- ROW_FWD's checks: the code, or 0, and the increment. -/
def checkRowFwd (s : State) (h : Nat) (c : Cmd) : Nat × Nat :=
  let ox := rfX s c
  let oy := rfY s c
  let og := rfG s c
  let ob := rfB s c
  let om := rfM s c
  let x := ox.desc
  let y := oy.desc
  let op := rfOp c
  let kind (o : Nat) : Nat := bits (c.fld o 4) 30 2
  let form := firstCode [
    codeIf (maskBad c false false true true || c.unitMask != 1) Code.CMD_UNITS,
    codeIf (decide (2 ≤ c.fld 0x29 1) || !rsvdZero c.raw 0x34 12) Code.CMD_FORMAT,
    codeIf (op == 0 || decide (3 < op) || (op == 1 && (kind 0x18 != 0 || kind 0x1C != 0)) || (op != 1 && kind 0x24 != 0) ||
      epsBad (c.fld 0x2C 4) || !(fp32.decode (c.fld 0x30 4)).isFinite || (op != 1 && c.fld 0x30 4 != 0) ||
      (rfStats c && c.fld 0x2A 2 == 0) || (rfStats c && isEvalTicket s c)) Code.ROW_FORMAT,
    ox.code, oy.code, og.code, ob.code, om.code]
  if form ≠ 0 then (form, 0)
  else if [ox, oy, og, ob, om].any Opnd.isLater then (0, 0)
  else
    let known := x.rank != 0 && y.rank != 0
    (firstCode [
      codeIf (known && decide (65536 < x.size 0)) Code.ROW_FORMAT,
      codeIf (rfStats c && decide (statMemSize < x.rowCount)) Code.ROW_FORMAT,
      codeIf (known && (x.fmt == 0x03 || x.fmt == 0x04)) Code.FMT_ENGINE,
      codeIf ((og.isSome && vecFormatBad og.desc) || (ob.isSome && vecFormatBad ob.desc)) Code.FMT_ENGINE,
      codeIf (roundBad c y) Code.FMT_ROUND,
      codeIf (known && (x.sizes != y.sizes || (om.isSome && om.desc.rank != 0 && om.desc.sizes != x.sizes) ||
        (og.isSome && og.desc.rank != 0 && vecShapeBad og.desc (x.size 0)) ||
        (ob.isSome && ob.desc.rank != 0 && vecShapeBad ob.desc (x.size 0)))) Code.DESC_SHAPE,
      codeIf (known && selfOverlap s y) Code.DESC_ALIAS,
      codeIf (foreignBank s h [x, y, og.desc, ob.desc, om.desc]) Code.OWNER_FAULT,
      codeIf (bankMissing s h c [x, y, og.desc, ob.desc, om.desc]) Code.CMD_UNITS],
     (if x.size 0 = 0 ∨ x.count = 0 then 0 else 10) + popcount c.bankMask 8)

/-- One row of a normalisation: its statistics and its outputs (R236). -/
def normRow (flush layer : Bool) (eps : FR) (g b : Nat → FR) (xs : List FR) : (FR × FR) × List FR :=
  let n : FR := ⟨FVal.ofInt xs.length, 0⟩
  let one := FR.ofBits fp32One
  let mean := if layer then FR.div flush (FR.sum flush xs) n else FR.zero
  let cs := if layer then xs.map fun x => FR.sub flush x mean else xs
  let var := FR.div flush (FR.sum flush (cs.map fun x => FR.mul flush x x)) n
  let rstd := FR.div flush one (FR.sqrt flush (FR.add flush var eps))
  ((mean, rstd), (cs.zip (List.range cs.length)).map fun p =>
    FR.add flush (FR.mul flush (FR.mul flush p.1 rstd) (g p.2)) (b p.2))

/-- One row of a soft maximum over a single block: (m, l) and the outputs (R227, R236). -/
def softRow (flush : Bool) (zs : List FR) : (FR × FR) × List FR :=
  let (m, l) := softStats flush [zs]
  if softLive l then ((m, l), zs.map (softProb flush m l)) else ((⟨FVal.inf true, 0⟩, FR.zero), zs.map fun _ => FR.zero)

/-- A vector operand's element; 1.0 or +0 where there is none. -/
def vecElem (s : State) (flush : Bool) (o : Opnd) (dflt : Nat) (k : Nat) : FR :=
  match o with
  | .some d => if d.rank = 0 then FR.ofBits dflt else let (v, g) := scaledElem s flush d [k]; ⟨v, g⟩
  | _ => FR.ofBits dflt

/-- A score with its bias: −∞ masks whatever the score (R234). -/
def addBias (flush : Bool) (z m : FR) : FR := if m.v.isNegInf then ⟨FVal.inf true, 0⟩ else FR.add flush z m

/-- The row results of ROW_FWD, in row order. -/
def rowFwdRows (s : State) (c : Cmd) (x : Desc) : List ((FR × FR) × List FR) :=
  let f := c.subn
  x.rowIx.map fun ix =>
    let xs := rowValues s f x ix
    match rfOp c with
    | 1 =>
      let sc := FR.load f (c.fld 0x30 4)
      let ms := match rfM s c with | .some m => if m.rank = 0 then xs.map fun _ => FR.zero else rowValues s f m ix | _ => xs.map fun _ => FR.zero
      softRow f ((xs.zip ms).map fun p => FR.add f (FR.mul f p.1 sc) p.2)
    | op => normRow f (op == 2) (FR.load f (c.fld 0x2C 4)) (vecElem s f (rfG s c) fp32One) (vecElem s f (rfB s c) 0) xs

/-- Fully masked rows of a soft maximum: counted, with one Ember event per command where `note` is set (R228). -/
def maskedRows (s : State) (h : Nat) (c : Cmd) (n : Nat) (note : Bool) : State :=
  let s := cntHearth s h 16 n
  if n ≠ 0 ∧ note then emberCode s (U.row h) Code.MASKED_ROW (some (cmdId s h c)) else s

/-- Index of a row among a tensor's rows. -/
def Desc.rowNum (d : Desc) (ix : List Nat) : Nat := d.linear (ix.set 0 0) / max (d.size 0) 1

/-- ROW_FWD (R235, R236). -/
def execRowFwd (h : Fin 16) (seq : BitVec 32) (s : State) : Res :=
  opRow h seq 0x20 s fun s c =>
    let x := (rfX s c).desc
    let y := (rfY s c).desc
    let s := wr s (F.ROW_STATE_OP h) (rfOp c)
    if x.count = 0 ∨ y.rank = 0 then cmdDone s h c
    else
      orFail h c (U.row h) (readTensors s h c ([x] ++ ([rfG s c, rfB s c, rfM s c].filter Opnd.isSome).map Opnd.desc)) fun s _ =>
      orFail h c (U.row h) (readBuffer s h (cmdId s h c)) fun s _ =>
        let rows := rowFwdRows s c x
        let soft := rfOp c == 1
        let finish (s : State) : State :=
          let s := rowRan s h c x.count
          let s := if soft then maskedRows s h c (rows.filter fun r => !softLive r.1.2).length true else s
          storeAndDone s h c (U.row h) y (plainMode s c y)
            (fun ix => (((rows.getD (y.rowNum ix) ((FR.zero, FR.zero), [])).2.getD (ix.getD 0 0) FR.zero)).v)
            (rows.foldl (fun a r => r.2.foldl (fun a v => a ||| v.g) a) 0)
        if rfStats c then claiming s h c soft c.statRow (rows.map fun r => (r.1.1.bits, r.1.2.bits)) finish else finish s

/-! ### Position biases (R231 to R234) -/

/-- A bias record (Table 9-3). -/
structure BiasRec where
  tables : Nat
  heads : Nat
  gw : Nat
  gh : Nat
  qOff : Nat
  kOff : Nat
  keyBias : Nat
  deriving DecidableEq, Repr

def BiasRec.parse (b : Bytes) : BiasRec :=
  { tables := field b 0 8, heads := field b 8 2, gw := field b 0xA 2, gh := field b 0xC 2, qOff := field b 0x10 4,
    kOff := field b 0x14 4, keyBias := field b 0x18 8 }

/-- The bias record at an address; none at 0. -/
def BiasRec.at (s : State) (addr : Nat) : Option BiasRec :=
  if addr = 0 then none else some (BiasRec.parse (peekBytes s (plainAddr s addr) 64))

/-- A record breaks a rule of Table 9-3 for Hq query heads. DEDUCED (log entry 77). -/
def biasBad (s : State) (addr hq : Nat) (paged : Bool) : Bool :=
  let b := peekBytes s (plainAddr s addr) 64
  let r := BiasRec.parse b
  addr % 64 != 0 || r.tables % 64 != 0 || (if r.tables = 0 then r.heads != 0 else r.heads != hq || r.heads == 0 || decide (64 < r.heads)) ||
  r.gw == 0 || r.gh == 0 || (paged && (r.qOff != 0 || r.kOff != 0)) || !rsvdZero b 0xE 2 || !rsvdZero b 0x20 32

/-- Coordinates of a token index: t, y, x (R232). -/
def BiasRec.pos (r : BiasRec) (n : Int) : Int × Int × Int := (n / (r.gw * r.gh), n / r.gw % r.gh, n % r.gw)

/-- A BF16 table entry of a head (R233). -/
def BiasRec.entry (s : State) (r : BiasRec) (head i : Nat) : FVal :=
  bf16.decode (peekNat s (plainAddr s (r.tables + 1280 * head + 2 * i)) 2)

/-- Entries that a table may not hold: NaN or +∞ (R233). -/
def biasEntryBad (v : FVal) : Bool := match v with | .nan => true | .inf neg => !neg | _ => false

def BiasRec.tablesBad (s : State) (r : BiasRec) : Bool :=
  r.tables != 0 && (List.range r.heads).any fun hd => (List.range 640).any fun i =>
    i != 127 && i != 383 && i != 639 && biasEntryBad (r.entry s hd i)

/-- The per-key bias tensor, if there is one. -/
def BiasRec.keyDesc (s : State) (r : BiasRec) : Desc :=
  if r.keyBias = 0 then Desc.parse (zeros 128) else Desc.parse (peekBytes s (plainAddr s r.keyBias) 128)

def BiasRec.keyBad (s : State) (r : BiasRec) : Bool :=
  let d := r.keyDesc s
  d.rank != 0 && d.indices.any fun ix => biasEntryBad (scaledElem s false d ix).1

/-- The bias of a query and a key with token indices q and k; `kx` is the key's index list in the per-key bias (R233). −∞ in any term
gives −∞. -/
def biasOf (s : State) (flush : Bool) (r : Option BiasRec) (causal head : Nat) (q k : Int) (kx : List Nat) : FR :=
  match r with
  | none => FR.zero
  | some r =>
    let pq := r.pos q
    let pk := r.pos k
    let cl (lim v : Int) : Int := clampInt (-lim) lim v
    let e (i : Int) : FR := if r.tables = 0 then FR.zero else let (v, g) := bf16.load flush (peekNat s (plainAddr s (r.tables + 1280 * head + 2 * i.toNat)) 2); ⟨v, flagIf g stSubn⟩
    let tt := e (63 + cl 63 (pq.1 - pk.1))
    let ty := e (255 + cl 127 (pq.2.1 - pk.2.1))
    let tx := e (511 + cl 127 (pq.2.2 - pk.2.2))
    let d := r.keyDesc s
    let kb := if d.rank = 0 then FR.zero else let (v, g) := scaledElem s flush d kx; ⟨v, g⟩
    let masked := (causal == 1 && decide (q < k)) || (causal == 2 && decide (pq.1 < pk.1))
    if masked || [tt, ty, tx, kb].any fun x => x.v.isNegInf then ⟨FVal.inf true, 0⟩
    else FR.add flush (FR.add flush (FR.add flush (FR.add flush tt ty) tx) kb) FR.zero

/-- What a command reads of its biases as it starts: the record, the tables and the per-key bias (R233, R234, R312). -/
def biasRanges (s : State) (addr : Nat) : List (Nat × Nat) :=
  match BiasRec.at s addr with
  | none => []
  | some r => [(addr, 64), (r.tables, 1280 * r.heads), (r.keyBias, if r.keyBias = 0 then 0 else 128)] ++ (r.keyDesc s).ranges

/-- A table entry, or the per-key bias, that ends a command with `ATTN_BIAS` (R233, R234). -/
def biasDataBad (s : State) (r : Option BiasRec) : Bool :=
  match r with
  | some r => r.tablesBad s || (r.keyBias != 0 && (checkDesc s (peekBytes s (plainAddr s r.keyBias) 128) 0).1 != 0) || r.keyBad s
  | none => false

/-! ### ROW_BWD (R257 to R261) -/

def rbDy (s : State) (c : Cmd) : Opnd := c.opnd s 0x10 (c.fld 0x20 2) false
def rbDx (s : State) (c : Cmd) : Opnd := c.opnd s 0x14 (c.fld 0x22 2) false
def rbX (s : State) (c : Cmd) : Opnd := c.opnd s 0x18 (c.fld 0x24 2) false
def rbG (s : State) (c : Cmd) : Opnd := c.opnd s 0x1C 0 false
def rbDg (s : State) (c : Cmd) : Opnd := c.opnd s 0x28 0 false
def rbDb (s : State) (c : Cmd) : Opnd := c.opnd s 0x2C 0 false
def rbOp (c : Cmd) : Nat := c.fld 0x30 1
def rbFlags (c : Cmd) : Nat := c.fld 0x31 1
def rbCausal (c : Cmd) : Nat := bits (rbFlags c) 2 2
def rbBias (c : Cmd) : Nat := c.fld 0x3C 4 * 64

/-- ROW_BWD's checks (R258): the code, or 0, and the increment. -/
def checkRowBwd (s : State) (h : Nat) (c : Cmd) : Nat × Nat :=
  let ody := rbDy s c
  let odx := rbDx s c
  let ox := rbX s c
  let og := rbG s c
  let odg := rbDg s c
  let odb := rbDb s c
  let op := rbOp c
  let soft := op == 1
  let norm := op == 2 || op == 3
  let kind (o : Nat) : Nat := bits (c.fld o 4) 30 2
  let need (b : Bool) (o : Nat) : Bool := b && kind o == 0
  let form := firstCode [
    codeIf (maskBad c false false true true || c.unitMask != 1) Code.CMD_UNITS,
    codeIf (isEvalTicket s c) Code.ROW_FORMAT,
    codeIf (op == 0 || decide (5 < op) || c.fld 0x32 2 == 0 || !(fp32.decode (c.fld 0x38 4)).isFinite || (!soft && c.fld 0x38 4 != 0) ||
      (!soft && (c.fld 0x3C 4 != 0 || rbCausal c != 0)) || (!soft && !norm && kind 0x2C != 0) || (!soft && !norm && (kind 0x28 != 0 || kind 0x1C != 0 || kind 0x10 != 0)) ||
      (op == 5 && (bit (rbFlags c) 0 || c.fld 0x34 4 != 0)) || (op != 5 && bit (rbFlags c) 4) ||
      decide (32 ≤ rbFlags c) || c.fld 0x26 2 != 0 || rbCausal c == 3) Code.ROW_FORMAT,
    codeIf (need (soft || norm) 0x10 || need (op != 5) 0x14 || need (op != 4) 0x18 || (op == 5 && kind 0x14 != 0) || (op == 4 && kind 0x18 != 0))
      Code.CMD_FORMAT,
    ody.code, odx.code, ox.code, og.code, odg.code, odb.code]
  if form ≠ 0 then (form, 0)
  else if [ody, odx, ox, og, odg, odb].any Opnd.isLater then (0, 0)
  else
    let dy := ody.desc
    let dx := odx.desc
    let x := ox.desc
    let known := if soft || norm then dy.rank != 0 && dx.rank != 0 && x.rank != 0 else true
    let bf (d : Desc) : Bool := d.rank == 0 || d.fmt == 0x11
    let f32 (d : Desc) : Bool := d.rank == 0 || d.fmt == 0x12
    let n := x.size 0
    let statD := if op = 4 then dx else x
    let inc := (if (if op = 4 then dx.count else x.count) = 0 then 0 else 10) + popcount c.bankMask 8
    (firstCode [
      codeIf (known && (soft || norm) && decide (32768 < n)) Code.ROW_FORMAT,
      codeIf ((soft || norm) && (!bf dy || !bf dx || (soft && !bf odg.desc) || (norm && !f32 odg.desc) || !f32 odb.desc || x.fmt == 0x03 || x.fmt == 0x04))
        Code.FMT_ENGINE,
      codeIf (!(soft || norm) && !f32 statD) Code.FMT_ENGINE,
      codeIf ((op != 5 && roundBad c dx) || (norm && [odg, odb].any fun o => o.isSome && roundBad c o.desc) ||
        (soft && odg.isSome && roundBad c odg.desc)) Code.FMT_ROUND,
      codeIf (known && (soft || norm) && (dy.sizes != x.sizes || dx.sizes != x.sizes ||
        (soft && og.isSome && og.desc.rank != 0 && og.desc.sizes != x.sizes) ||
        (norm && [og, odg, odb].any fun o => o.isSome && o.desc.rank != 0 && vecShapeBad o.desc n) ||
        (soft && odg.isSome && odg.desc.rank != 0 && odg.desc.sizes != x.sizes) ||
        (soft && odb.isSome && odb.desc.rank != 0 && vecShapeBad odb.desc x.rowCount) ||
        (match BiasRec.at s (rbBias c) with | some r => x.rank != 4 || x.size 2 != r.heads | none => false))) Code.DESC_SHAPE,
      codeIf (!(soft || norm) && statD.rank != 0 && (statD.size 0 != 2 || decide (2 < statD.rank))) Code.DESC_SHAPE,
      codeIf (match BiasRec.at s (rbBias c) with | some r => biasBad s (rbBias c) r.heads false | none => rbCausal c != 0) Code.ATTN_BIAS,
      codeIf (foreignBank s h [dy, dx, x, og.desc, odg.desc, odb.desc]) Code.OWNER_FAULT,
      codeIf (bankMissing s h c [dy, dx, x, og.desc, odg.desc, odb.desc]) Code.CMD_UNITS], inc)

/-- The norm gradients of one row: dx, and what it adds to dgain and dshift (R259). -/
def normBack (flush layer : Bool) (mean rstd : FR) (g : Nat → FR) (xs dys : List FR) : List FR × List FR :=
  let n : FR := ⟨FVal.ofInt xs.length, 0⟩
  let xh := xs.map fun x => FR.mul flush (if layer then FR.sub flush x mean else x) rstd
  let gh := (dys.zip (List.range dys.length)).map fun p => FR.mul flush p.1 (g p.2)
  let mg := FR.div flush (FR.sum flush gh) n
  let mgx := FR.div flush (FR.sum flush ((gh.zip xh).map fun p => FR.mul flush p.1 p.2)) n
  let dx := (gh.zip xh).map fun p =>
    let a := if layer then FR.sub flush p.1 mg else p.1
    FR.mul flush rstd (FR.sub flush a (FR.mul flush p.2 mgx))
  (dx, (dys.zip xh).map fun p => FR.mul flush p.1 p.2)

/-- A row whose l is +0 is fully masked (R260). -/
def rowMasked (l : FR) : Bool := l.v.isZero && !l.v.isNeg

/-- The soft-maximum gradient of one row: dx and p (R260). `d0` is D where it is given. -/
def softBack (flush : Bool) (m l scale : FR) (d0 : Option FR) (zs dys : List FR) : List FR × List FR :=
  if rowMasked l then (zs.map fun _ => FR.zero, zs.map fun _ => FR.zero)
  else
    let rnd (v : FR) : FR := let (n, fl) := bf16.round flush v.v; ⟨bf16.decode n, v.g ||| flagIf fl stSubn⟩
    let ps := zs.map fun z => rnd (softProb flush m l z)
    let d := match d0 with | some d => d | none => FR.sum flush ((ps.zip dys).map fun p => FR.mul flush p.1 p.2)
    ((ps.zip dys).map fun p => FR.mul flush scale (FR.mul flush p.1 (FR.sub flush p.2 d)), ps)

/-- The flags of a list of values. -/
def flagsOf (vs : List FR) : Nat := vs.foldl (fun a v => a ||| v.g) 0

/-- Store a tensor of computed values, if there is one, with what the values and the store report. -/
def storeVals (s : State) (c : Cmd) (o : Opnd) (v : List Nat → FR) : State × Report :=
  match o with
  | .some d =>
    let (s, r) := storeTensor s d (plainMode s c d) fun ix => (v ix).v
    (s, { r with stat := r.stat ||| flagsOf (d.indices.map v) })
  | _ => (s, Report.empty)

/-- The reports of ROW_BWD's second and third destination go to their records; the flags of all go to the ticket (R91, R105). -/
def reportMore (s : State) (h : Nat) (c : Cmd) (o : Opnd) (r : Report) : State :=
  if o.isSome then reportStore s h c (U.row h) o.desc r else s

/-- Free the command's tag where FREE is set (R256). -/
def freeTag (s : State) (h : Nat) (c : Cmd) : State :=
  if bit (rbFlags c) 0 then freeStats s fun x => x.hearth == h && x.ticket == c.ticket && x.tag == statTagOf c else s

/-- ROW_BWD of a normalisation (R259). -/
def rowBwdNorm (s : State) (h : Nat) (c : Cmd) (x dy dx : Desc) (st : List (Nat × Nat)) : State :=
  let f := c.subn
  let layer := rbOp c == 2
  let rows := (x.rowIx.zip st).map fun p =>
    let dys := rowValues s f dy p.1
    (normBack f layer (FR.load f p.2.1) (FR.load f p.2.2) (vecElem s f (rbG s c) fp32One) (rowValues s f x p.1) dys, dys)
  let start (o : Opnd) (k : Nat) : FR := if bit (rbFlags c) 1 then vecElem s f o 0 k else FR.zero
  let gain (k : Nat) : FR := rows.foldl (fun a r => FR.add f a (r.1.2.getD k FR.zero)) (start (rbDg s c) k)
  let shift (k : Nat) : FR := rows.foldl (fun a r => FR.add f a (r.2.getD k FR.zero)) (start (rbDb s c) k)
  let outs := ([rbDg s c, rbDb s c].filter Opnd.isSome).map Opnd.desc
  storing s h c (U.row h) (dx :: outs) fun s =>
    let (s, r) := storeVals s c (rbDx s c) fun ix => (rows.getD (dx.rowNum ix) (([], []), [])).1.1.getD (ix.getD 0 0) FR.zero
    let (s, r1) := storeVals s c (rbDg s c) fun ix => gain (ix.getD 0 0)
    let (s, r2) := storeVals s c (rbDb s c) fun ix => shift (ix.getD 0 0)
    let s := reportMore (reportMore (reportStore s h c (U.row h) dx r) h c (rbDg s c) r1) h c (rbDb s c) r2
    cmdDone (freeTag (rowRan s h c x.count) h c) h c

/-- ROW_BWD of a soft maximum (R260). -/
def rowBwdSoft (s : State) (h : Nat) (c : Cmd) (x dy dx : Desc) (st : List (Nat × Nat)) : State :=
  let f := c.subn
  let rec_ := BiasRec.at s (rbBias c)
  let sc := FR.load f (c.fld 0x38 4)
  let rows := (x.rowIx.zip st).map fun p =>
    let i := p.1.getD 1 0
    let xs := rowValues s f x p.1
    let ms := match rbG s c with | .some m => if m.rank = 0 then xs.map fun _ => FR.zero else rowValues s f m p.1 | _ => xs.map fun _ => FR.zero
    let zs := ((xs.zip ms).zip (List.range xs.length)).map fun q =>
      let b := match rec_ with
        | none => FR.zero
        | some r => biasOf s f rec_ (rbCausal c) (p.1.getD 2 0) (r.qOff + i : Int) (r.kOff + q.2 : Int) [q.2, p.1.getD 3 0]
      FR.add f (addBias f (FR.mul f q.1.1 sc) b) q.1.2
    let d0 := match rbDb s c with | .some d => if d.rank = 0 then none else some (vecElem s f (.some d) 0 (x.rowNum p.1)) | _ => none
    softBack f (FR.load f p.2.1) (FR.load f p.2.2) sc d0 zs (rowValues s f dy p.1)
  let masked := (st.filter fun p => rowMasked (FR.load f p.2)).length
  let outs := ([rbDg s c].filter Opnd.isSome).map Opnd.desc
  storing s h c (U.row h) (dx :: outs) fun s =>
    let (s, r) := storeVals s c (rbDx s c) fun ix => (rows.getD (dx.rowNum ix) ([], [])).1.getD (ix.getD 0 0) FR.zero
    let (s, r1) := storeVals s c (rbDg s c) fun ix => (rows.getD ((rbDg s c).desc.rowNum ix) ([], [])).2.getD (ix.getD 0 0) FR.zero
    let s := reportMore (reportStore s h c (U.row h) dx r) h c (rbDg s c) r1
    let s := maskedRows s h c masked false
    cmdDone (freeTag (rowRan s h c x.count) h c) h c

/-- ROW_BWD (R257 to R261). -/
def execRowBwd (h : Fin 16) (seq : BitVec 32) (s : State) : Res :=
  opRow h seq 0x21 s fun s c =>
    let x := (rbX s c).desc
    let dy := (rbDy s c).desc
    let dx := (rbDx s c).desc
    let op := rbOp c
    match op with
    | 4 =>
      if dx.count = 0 then cmdDone (freeTag s h c) h c else
      let soft := match findStat s h c.ticket (statTagOf c) with | some t => t.softmax == some true | none => false
      orFail h c (U.row h) (readRows s h c soft (c.fld 0x34 4) (dx.size 1)) fun s st =>
        storing s h c (U.row h) [dx] fun s =>
          let (s, r) := storeTensor s dx (plainMode s c dx) fun ix =>
            let p := st.getD (ix.getD 1 0) (0, 0)
            fp32.decode (if ix.getD 0 0 = 0 then p.1 else p.2)
          cmdDone (freeTag (reportStore (rowRan s h c dx.count) h c (U.row h) dx r) h c) h c
    | 5 =>
      if x.count = 0 then cmdDone s h c else
      orFail h c (U.row h) (readTensors s h c [x]) fun s _ =>
        let used := match findStat s h c.ticket (statTagOf c) with | some t => !t.rows.isEmpty | none => false
        if used then failRunning s h c (U.row h) Code.STAT_MISSING
        else
          let vals := (List.range (x.size 1)).map fun i => (x.rawElem s .fp32 [0, i], x.rawElem s .fp32 [1, i])
          claiming s h c (bit (rbFlags c) 4) 0 vals fun s => cmdDone (rowRan s h c x.count) h c
    | _ =>
      if x.count = 0 ∨ dy.rank = 0 ∨ dx.rank = 0 then cmdDone (freeTag s h c) h c else
      let ins := [x, dy] ++ ([rbG s c].filter Opnd.isSome).map Opnd.desc ++
        (if bit (rbFlags c) 1 || op == 1 then ([rbDb s c].filter Opnd.isSome).map Opnd.desc else [])
      orFail h c (U.row h) (readTensors s h c ins) fun s _ =>
      orFail h c (U.row h) (readRanges s h c (biasRanges s (rbBias c))) fun s _ =>
      orFail h c (U.row h) (readBuffer s h (cmdId s h c)) fun s _ =>
        if biasDataBad s (BiasRec.at s (rbBias c)) then failRunning s h c (U.row h) Code.ATTN_BIAS
        else
          orFail h c (U.row h) (readRows s h c (op == 1) (c.fld 0x34 4) x.rowCount) fun s st =>
            if op = 1 then rowBwdSoft s h c x dy dx st else rowBwdNorm s h c x dy dx st

end Sys2Proof.Machine
end

