-- ==== Sys2Proof/Machine/Kv.lean ====
section
/-! DEFINITION. The paged KV cache (R237 to R248): cache records, page tables, the home sequencer's latches, allocations, pre-emptions,
resumptions and commits. Every row here is one indivisible operation of a home sequencer (R241). -/

namespace Sys2Proof.Machine

/-! ### Cache records (R237, R238) -/

/-- A cache record (Table 9-5). -/
structure KvRec where
  addr : Nat
  live : Nat
  fmt : Nat
  home : Nat
  heads : Nat
  dim : Nat
  seqs : Nat
  maxPages : Nat
  pageBytes : Nat
  tableA : Nat
  tableB : Nat
  seqTable : Nat
  ring : Nat
  ringSize : Nat
  swapBase : Nat
  kScale : Nat
  vScale : Nat
  deriving DecidableEq, Repr

/-- The cache record at a near-tier address. -/
def KvRec.at (s : State) (a : Nat) : KvRec :=
  let b := peekBytes s a 128
  { addr := a, live := field b 0 1, fmt := field b 1 1, home := bits (field b 2 1) 0 4, heads := field b 4 2, dim := field b 6 2,
    seqs := field b 8 2, maxPages := field b 0xA 2, pageBytes := field b 0xC 4, tableA := field b 0x10 8, tableB := field b 0x18 8,
    seqTable := field b 0x20 8, ring := field b 0x28 8, ringSize := field b 0x30 4, swapBase := field b 0x48 8,
    kScale := field b 0x50 8, vScale := field b 0x58 8 }

/-- Bytes of one head of one token: e of R238. -/
def KvRec.headBytes (r : KvRec) : Nat :=
  match Fmt.ofCode r.fmt with
  | some .dq8 => r.dim / 32 * 33
  | some .dq4 => r.dim / 32 * 17
  | some f => r.dim * (f.bits / 8)
  | none => 0
def KvRec.kb (r : KvRec) : Nat := 16 * r.heads * r.headBytes
def KvRec.vo (r : KvRec) : Nat := ceilDiv r.kb 64 * 64
def KvRec.pageSize (r : KvRec) : Nat := ceilDiv (r.vo + r.kb) 256 * 256
def KvRec.tableBytes (r : KvRec) : Nat := r.seqs * r.maxPages * 8
def KvRec.table (r : KvRec) (slot : Nat) : Nat := if slot = 0 then r.tableA else r.tableB
def KvRec.edit (r : KvRec) : Nat := 1 - r.live

/-- A range lies in the near tier. -/
def inNear (a n : Nat) : Bool := decide (a + n ≤ nearEnd)

/-- The record breaks a rule of R237 in a field that programs set. DEDUCED (log entry 77). -/
def kvRecordBad (s : State) (a : Nat) : Bool :=
  let b := peekBytes s a 128
  let r := KvRec.at s a
  let dq := r.fmt == 0x20 || r.fmt == 0x21
  !inNear a 128 || !(dq || r.fmt == 0x02 || r.fmt == 0x10 || r.fmt == 0x11) || decide (16 ≤ field b 2 1) || field b 3 1 != 0 ||
  r.heads == 0 || decide (256 < r.heads) || r.dim == 0 || decide (128 < r.dim) || (dq && r.dim % 32 != 0) ||
  r.seqs == 0 || decide (4096 < r.seqs) || r.maxPages == 0 || decide (4096 < r.maxPages) || r.pageBytes != r.pageSize ||
  [r.tableA, r.tableB, r.seqTable, r.ring].any (· % 64 != 0) || !inNear r.tableA r.tableBytes || !inNear r.tableB r.tableBytes ||
  !inNear r.seqTable (16 * r.seqs) || r.ringSize == 0 || !inNear r.ring (8 * r.ringSize) ||
  (field b 0x3C 4 != 0 && !inNear (field b 0x40 8) (8 * field b 0x3C 4)) || r.swapBase % 256 != 0 ||
  (r.swapBase != 0 && (!inOneRegion s r.swapBase (r.seqs * r.maxPages * r.pageBytes) ||
    match regionOf s r.swapBase with | some (.far _) => false | some (.host _) => false | _ => true)) ||
  !rsvdZero b 0x64 28

/-- The scale records of a cache break R90. -/
def kvScaleBad (s : State) (r : KvRec) : Bool :=
  [r.kScale, r.vScale].any fun p => p != 0 && scaleRecBad s p r.fmt

/-! ### Page-table entries and sequence records (R239, R240) -/

def KvRec.entryAddr (r : KvRec) (slot sq p : Nat) : Nat := r.table slot + (sq * r.maxPages + p) * 8
def KvRec.entry (s : State) (r : KvRec) (slot sq p : Nat) : Nat := peekNat s (r.entryAddr slot sq p) 8
def entValid (e : Nat) : Bool := bit e 0
def entResident (e : Nat) : Bool := bit e 1
def entFill (e : Nat) : Nat := bits e 3 5
def entAddr (e : Nat) : Nat := bits e 8 40 * 256
def entSeq (e : Nat) : Nat := bits e 48 16
/-- A valid entry. -/
def entOf (resident : Bool) (fill addr sq : Nat) : Nat :=
  1 + (if resident then 2 else 0) + 8 * fill + addr / 256 * 256 + sq % 65536 * 2 ^ 48

/-- The valid entries of a sequence in a slot, from entry 0 up to the first that is not valid. -/
def KvRec.entries (s : State) (r : KvRec) (slot sq : Nat) : List Nat :=
  ((List.range r.maxPages).map (r.entry s slot sq)).takeWhile entValid

/-- Length of a sequence in a version. -/
def lengthOf (es : List Nat) : Nat := es.foldl (fun a e => a + entFill e) 0

/-- A walk that finds these entries of a sequence fails with `KV_SEQ` (R239). -/
def entriesBad (sq : Nat) (es : List Nat) : Bool :=
  (es.zip (List.range es.length)).any fun p =>
    entFill p.1 == 0 || decide (16 < entFill p.1) || entSeq p.1 != sq || (entFill p.1 != 16 && p.2 + 1 != es.length)

/-- A sequence's entries are equal in both slots (R244, R246). -/
def KvRec.sameSlots (s : State) (r : KvRec) (sq : Nat) : Bool :=
  (List.range r.maxPages).all fun p => r.entry s 0 sq p == r.entry s 1 sq p

def KvRec.seqAddr (r : KvRec) (sq : Nat) : Nat := r.seqTable + 16 * sq
def KvRec.seqState (s : State) (r : KvRec) (sq : Nat) : Nat := peekNat s (r.seqAddr sq) 1
def KvRec.seqPrio (s : State) (r : KvRec) (sq : Nat) : Nat := peekNat s (r.seqAddr sq + 1) 1
def KvRec.seqPin (s : State) (r : KvRec) (sq : Nat) : Nat := peekNat s (r.seqAddr sq + 2) 1
def KvRec.seqHolds (s : State) (r : KvRec) (sq : Nat) : Nat := peekNat s (r.seqAddr sq + 4) 2
def KvRec.setSeqState (s : State) (r : KvRec) (sq v : Nat) : State := poke s (r.seqAddr sq) (leBytes 1 v)

def sqFREE : Nat := 0
def sqACTIVE : Nat := 1
def sqOUT : Nat := 2
def sqSWAPPED : Nat := 3
def sqIN : Nat := 4

/-! ### The free ring -/

def KvRec.freeHead (s : State) (r : KvRec) : Nat := peekNat s (r.addr + 0x34) 4
def KvRec.freeCount (s : State) (r : KvRec) : Nat := peekNat s (r.addr + 0x38) 4

/-- The ring entries from index i on, as byte ranges. -/
def KvRec.ringRanges (r : KvRec) (i n : Nat) : List (Nat × Nat) :=
  (List.range n).map fun j => (r.ring + 8 * ((i + j) % r.ringSize), 8)

/-- The requests of a home sequencer's step: what it reads, then what it writes; each is checked as any request is, for the command on
whose behalf the step is made (R312, R317). -/
def kvTouch (s : State) (h : Nat) (c : Cmd) (reads writes : List (Nat × Nat)) : State × Req Unit :=
  match touchRanges s (idDisp h) false (some (cmdId s h c)) reads with
  | (s, .ok _) => touchRanges s (idDisp h) true (some (cmdId s h c)) writes
  | x => x

/-- Pop n page addresses, oldest first. -/
def KvRec.popN (s : State) (r : KvRec) (h : Nat) (c : Cmd) (n : Nat) : State × Req (List Nat) :=
  let hd := r.freeHead s
  let slots := r.ringRanges hd n
  match kvTouch s h c slots (if n = 0 then [] else [(r.addr + 0x34, 8)]) with
  | (s, .ok _) =>
    let ps := slots.map fun x => peekNat s x.1 8
    let s := poke s (r.addr + 0x34) (leBytes 4 ((hd + n) % r.ringSize))
    (poke s (r.addr + 0x38) (leBytes 4 (r.freeCount s - n)), .ok ps)
  | (s, .fail code) => (s, .fail code)
  | (s, .wait) => (s, .wait)

/-- Push page addresses onto the ring, in order; a ring that is full takes no more. -/
def KvRec.push (s : State) (r : KvRec) (h : Nat) (c : Cmd) (ps : List Nat) : State × Req Unit :=
  let n := r.freeCount s
  let ps := ps.take (r.ringSize - n)
  let slots := r.ringRanges (r.freeHead s + n) ps.length
  match kvTouch s h c [] (slots ++ if ps.isEmpty then [] else [(r.addr + 0x38, 4)]) with
  | (s, .ok _) => (poke (each (slots.zip ps) s fun s x => poke s x.1.1 (leBytes 8 x.2)) (r.addr + 0x38) (leBytes 4 (n + ps.length)), .ok ())
  | x => x

/-! ### Walks -/

def kvAppend (c : Cmd) : Bool := bit (c.fld 0x38 4) 3
def kvAddr (c : Cmd) : Nat := if c.opcode = 0x19 then c.fld 0x10 8 else c.fld 0x30 8

def findWalk (s : State) (h seq : Nat) : Option KvWalk := s.walks.find? fun w => w.hearth == h && w.cmd == seq
def setWalk (s : State) (w : KvWalk) : State :=
  let same (x : KvWalk) : Bool := x.hearth == w.hearth && x.cmd == w.cmd
  { s with walks := if s.walks.any same then s.walks.map (fun x => if same x then w else x) else s.walks ++ [w] }
def dropWalk (s : State) (w : KvWalk) : State := { s with walks := s.walks.filter fun x => !(x.hearth == w.hearth && x.cmd == w.cmd) }

/-- The home sequencer of a cache may act: its hearth is not STOPPED and no marker has reached it (R46, R241, R441). -/
def homeLive (s : State) (r : KvRec) : Bool := unitLive s (U.ats r.home) && decide (fnState s r.home ≤ 1)

/-- Some started command of any hearth meets a test. -/
def startedAny (s : State) (p : Nat → Cmd → Bool) : Bool :=
  (List.range 16).any fun h => (getDisp s h).cmds.any fun c => c.st == .granted && p h c

/-- Another walk on the cache is in flight on some hearth, latched or not, or a PT_COMMIT with releases is pending (R248). -/
def kvMayFree (s : State) (w : KvWalk) : Bool :=
  let other (h q : Nat) : Bool := !(h == w.hearth && q == w.cmd)
  s.walks.any (fun x => x.cache == w.cache && other x.hearth x.cmd) ||
  startedAny s (fun h c => kvPaged c && kvAddr c == w.cache && other h c.seq) ||
  s.commits.any (fun x => x.cache == w.cache && !x.released.isEmpty) ||
  (peekNat s (w.cache + 0x3C) 4 != 0 && startedAny s fun h c => c.opcode == 0x19 && kvAddr c == w.cache &&
    !s.commits.any fun x => x.hearth == h && x.cmd == c.seq && x.published)

/-- Resident pages of a sequence, as entry numbers with their addresses. -/
def KvRec.resident (s : State) (r : KvRec) (sq : Nat) : List (Nat × Nat) :=
  (((r.entries s r.live sq).zip (List.range r.maxPages)).filter fun p => entResident p.1).map fun p => (p.2, entAddr p.1)
/-- Entries of a sequence that are not resident, as entry numbers with their swap addresses. -/
def KvRec.absent (s : State) (r : KvRec) (sq : Nat) : List (Nat × Nat) :=
  (((r.entries s r.live sq).zip (List.range r.maxPages)).filter fun p => !entResident p.1).map fun p => (p.2, entAddr p.1)

/-- The eligible victim of R246: lowest PRIO, then highest index. DEDUCED (log entry 75). -/
def KvRec.victim (s : State) (r : KvRec) (sq : Nat) : Option Nat :=
  let ok (v : Nat) : Bool := r.seqState s v == sqACTIVE && r.seqPin s v == 0 && r.seqHolds s v == 0 &&
    decide (r.seqPrio s v ≤ r.seqPrio s sq) && v != sq && r.sameSlots s v && !(r.resident s v).isEmpty
  ((List.range r.seqs).filter ok).foldl (fun b v => match b with
    | none => some v
    | some u => if r.seqPrio s v ≤ r.seqPrio s u then some v else some u) none

/-- Pages that the victims of a walk will free. -/
def KvRec.coming (s : State) (r : KvRec) (w : KvWalk) : Nat := w.victims.foldl (fun a v => a + (r.resident s v).length) 0

/-- Choose victims until k pages are free or no more may be chosen (R246, R248). DEDUCED (log entry 75). -/
def preempt (s : State) (r : KvRec) (w : KvWalk) (k sq : Nat) : Nat → State × KvWalk
  | 0 => (s, w)
  | n + 1 =>
    if k ≤ r.freeCount s + r.coming s w ∨ r.swapBase = 0 ∨ rd s (F.ATS_CFG_PREEMPT_MAX r.home) ≤ w.used then (s, w)
    else
      match r.victim s sq with
      | none => (s, w)
      | some v => preempt (r.setSeqState s v sqOUT) r { w with victims := w.victims ++ [v], used := w.used + 1 } k sq n

/-- What a request for k pages for sequence sq comes to: the pages; or it goes on later, when its victims are out or pages are freed;
or it fails with `KV_EXHAUSTED` (R246, R248). -/
def takePages (s : State) (r : KvRec) (w : KvWalk) (c : Cmd) (k sq : Nat) : State × KvWalk × Req (List Nat) :=
  if k ≤ r.freeCount s then
    match r.popN s w.hearth c k with
    | (s, x) => (s, { w with used := 0, waiting := false }, x)
  else
    let looks := (r.addr, 128) :: if r.swapBase = 0 then [] else
      (r.seqTable, 16 * r.seqs) :: [0, 1].map fun slot => (r.table slot, r.tableBytes)
    match kvTouch s w.hearth c looks [] with
    | (s, .fail code) => (s, { w with waiting := false }, .fail code)
    | (s, .wait) => (s, w, .wait)
    | (s, .ok _) =>
      let (s, w) := preempt s r w k sq 256
      if !w.victims.isEmpty then (s, { w with waiting := false }, .wait)
      else if kvMayFree s w then
        let s := if w.noted then s else
          satAdd (emberCode s (U.ats r.home) Code.KV_WAIT (some (cmdId s w.hearth c))) (F.ATS_PREEMPT_WAITS r.home) 1
        (s, { w with waiting := true, noted := true }, .wait)
      else (s, { w with waiting := false }, .fail Code.KV_EXHAUSTED)

/-- Pages that a walk took and wrote into no table go back to the ring (DEDUCED, log entry 31), and a resumption is undone. The answer
says whether the pushes must wait. -/
def giveBack (s : State) (r : KvRec) (w : KvWalk) (c : Cmd) : State × KvWalk × Bool :=
  let ps := (if w.phase < 3 then w.pages.flatMap (·.2) else []) ++ (match w.swapIn with | some x => x.2 | none => [])
  match r.push s w.hearth c ps with
  | (s, .wait) => (s, { w with waiting := false }, true)
  | (s, _) =>
    (match w.swapIn with | some x => r.setSeqState s x.1 sqSWAPPED | none => s,
      { w with pages := if w.phase < 3 then [] else w.pages, swapIn := none, waiting := false }, false)

/-- A walk fails; what it holds of the home sequencer goes back, now or at its release (R242). -/
def failWalk (s : State) (r : KvRec) (w : KvWalk) (c : Cmd) (code : Nat) : State :=
  let g := giveBack s r w c
  let s := if w.phase = 0 ∧ w.victims.isEmpty ∧ !g.2.2 then dropWalk g.1 w else setWalk g.1 g.2.1
  failRunning s w.hearth c (U.ats w.hearth) code

/-- The sequence indices of SEQ_REF. DEDUCED (log entry 75). -/
def walkSeqs (s : State) (c : Cmd) : List Int :=
  match c.opnd s 0x24 0 true with
  | .some d => (List.range (d.size 0)).map fun b => match d.format with | some f => sext 32 (d.rawElem s f [b]) | none => -1
  | _ => []

/-- The counts that a walk raises and lowers: the slot's WALKS and the HOLDS of its sequences (R242). -/
def holdRanges (r : KvRec) (slot : Nat) (seqs : List Nat) : List (Nat × Nat) :=
  (r.addr + (if slot = 0 then 0x60 else 0x62), 2) :: seqs.map fun q => (r.seqAddr q + 4, 2)

/-- The latch (R242): the slot's WALKS rises, and HOLDS of every named sequence. -/
def latchWalk (s : State) (r : KvRec) (w : KvWalk) (seqs : List Nat) : State :=
  let o := if r.live = 0 then 0x60 else 0x62
  let s := poke s (r.addr + o) (leBytes 2 (peekNat s (r.addr + o) 2 + 1))
  let s := each (dedupNat seqs) s fun s q => poke s (r.seqAddr q + 4) (leBytes 2 (r.seqHolds s q + 1))
  let s := wr (wr (wr s (F.ATS_KV_CACHE_128 w.hearth) (r.addr / 128)) (F.ATS_KV_LATCHED w.hearth) r.live) (F.ATS_KV_WALKING w.hearth) 1
  setWalk s { w with phase := 1, slot := r.live, seqs := seqs }
where
  dedupNat (xs : List Nat) : List Nat := xs.foldl (fun acc x => if acc.contains x then acc else acc ++ [x]) []

/-- The release of a walk's latch (R242); where its requests fail the command fails. DEDUCED (log entry 76). -/
def releaseWalk (s : State) (w : KvWalk) (c : Cmd) : State :=
  let r := KvRec.at s w.cache
  if w.phase = 0 then dropWalk s w else
  let qs := latchWalk.dedupNat w.seqs
  match kvTouch s w.hearth c [] (holdRanges r w.slot qs) with
  | (s, .wait) => s
  | (s, .fail code) => failRunning (wr (dropWalk s w) (F.ATS_KV_WALKING w.hearth) 0) w.hearth c (U.ats r.home) code
  | (s, .ok _) =>
    let s := dropWalk s w
    let o := if w.slot = 0 then 0x60 else 0x62
    let s := poke s (r.addr + o) (leBytes 2 (peekNat s (r.addr + o) 2 - 1))
    let s := each qs s fun s q => poke s (r.seqAddr q + 4) (leBytes 2 (r.seqHolds s q - 1))
    wr s (F.ATS_KV_WALKING w.hearth) 0

/-- New pages that Lq more tokens need after the entries of a sequence. -/
def newPages (es : List Nat) (lq : Nat) : Nat := ceilDiv (lengthOf es + lq) 16 - ceilDiv (lengthOf es) 16

/-- Query tokens of a walk. -/
def walkLq (s : State) (c : Cmd) : Nat := (c.opnd s 0x10 (c.fld 0x20 2) true).desc.size 2

/-- The allocation of an APPEND walk, sequence by sequence (R244). -/
def allocWalk (s : State) (r : KvRec) (w : KvWalk) (c : Cmd) : Nat → State
  | 0 => setWalk s w
  | fuel + 1 =>
    let lq := walkLq s c
    match w.seqs.find? fun q => !w.pages.any (·.1 == q) with
    | none => setWalk s { w with phase := 2 }
    | some q =>
      let es := r.entries s w.slot q
      match kvTouch s w.hearth c ([0, 1].map fun slot => (r.entryAddr slot q 0, 8 * r.maxPages)) [] with
      | (s, .wait) => setWalk s w
      | (s, .fail code) => failWalk s r w c code
      | (s, .ok _) =>
        if !r.sameSlots s q || decide (r.maxPages < ceilDiv (lengthOf es + lq) 16) then failWalk s r w c Code.KV_APPEND
        else
          match takePages s r w c (newPages es lq) q with
          | (s, w, .ok ps) => allocWalk s r { w with pages := w.pages ++ [(q, ps)] } c fuel
          | (s, w, .wait) => setWalk s w
          | (s, w, .fail code) => failWalk s r w c code

/-- The pages of a resumption (R247). -/
def resumeSeq (s : State) (r : KvRec) (w : KvWalk) (c : Cmd) (q : Nat) : State :=
  match takePages s r w c (r.absent s q).length q with
  | (s, w, .ok ps) => setWalk s { w with swapIn := some (q, ps) }
  | (s, w, .wait) => setWalk s w
  | (s, w, .fail code) => failWalk s r w c code

/-- A walk asks for its latch (R240, R242, R247): a sequence that is swapped is resumed first, one on its way makes the walk wait. -/
def latchRequest (s : State) (r : KvRec) (w : KvWalk) (c : Cmd) : State :=
  let qs := walkSeqs s c
  let ns := qs.map Int.toNat
  if qs.any (fun q => decide (q < 0) || decide (r.seqs ≤ q.toNat)) || ns.any fun q => r.seqState s q == sqFREE then
    failWalk s r w c Code.KV_SEQ
  else
    let tables := ns.map fun q => (r.entryAddr r.live q 0, 8 * r.maxPages)
    match touchRanges s (idDisp w.hearth) false (some (cmdId s w.hearth c)) ([(r.addr, 128)] ++ ns.map (fun q => (r.seqAddr q, 16)) ++ tables) with
    | (s, .wait) => setWalk s w
    | (s, .fail code) => failWalk s r w c code
    | (s, .ok _) =>
      if ns.any fun q => r.seqState s q != sqACTIVE && r.seqState s q != sqSWAPPED then setWalk s w
      else
        match ns.find? fun q => r.seqState s q == sqSWAPPED with
        | some q =>
          match kvTouch s w.hearth c [] [(r.seqAddr q, 1)] with
          | (s, .wait) => setWalk s w
          | (s, .fail code) => failWalk s r w c code
          | (s, .ok _) => resumeSeq (r.setSeqState s q sqIN) r { w with swapIn := some (q, []) } c q
        | none =>
          if ns.any fun q => entriesBad q (r.entries s r.live q) then failWalk s r w c Code.KV_SEQ
          else
            match kvTouch s w.hearth c [] (holdRanges r r.live (latchWalk.dedupNat ns)) with
            | (s, .wait) => setWalk s w
            | (s, .fail code) => failWalk s r w c code
            | (s, .ok _) => latchWalk s r w ns

/-- A walk's own request goes on: its resumption, its latch, its allocation; the end of a cancelled walk that waits (R242). -/
def kvGoOn (s : State) (r : KvRec) (w : KvWalk) (c : Cmd) : State :=
  let cancelled := match findTicket s c.ticket with | some t => t.cancelling | none => true
  if c.st == .done then
    if w.victims.isEmpty then
      match giveBack s r w c with
      | (s, w, true) => setWalk s w
      | (s, w, false) => releaseWalk (setWalk s w) w c
    else s
  else if !w.victims.isEmpty then s
  else if cancelled && w.waiting then cmdDone (setWalk s { w with waiting := false }) w.hearth c
  else
    match w.swapIn with
    | some (q, []) => if (r.absent s q).isEmpty then s else resumeSeq s r w c q
    | some _ => s
    | none => if w.phase = 0 then latchRequest s r w c else if w.append && w.phase == 1 then allocWalk s r w c (w.seqs.length + 1) else s

/-- The state that the attention sequencer of a walk's hearth shows (Table 9-11): waiting until it has its latch and its pages, then
loading its bias tables or sweeping, or appending. DEDUCED (log entry 91). -/
def walkState (w : KvWalk) (c : Cmd) : Nat :=
  if w.phase = 0 || w.waiting || !w.victims.isEmpty || w.swapIn.isSome then 6
  else if w.append && decide (w.phase ≤ 2) then 4
  else atsBegin c

/-- The register follows the walk while its command runs. -/
def showWalk (s : State) (h seq : Nat) : State :=
  match findWalk s h seq, findCmd s h seq with
  | some w, some c => if c.st = .granted then wr s (F.ATS_STATE_STATE h) (walkState w c) else s
  | _, _ => s

/-- The command and the walk of a row of this chapter: its walk if there is one, or a new one where an APPEND walk may arrive (R245). -/
def kvRow (h : Fin 16) (seq : BitVec 32) (s : State) (body : State → KvRec → KvWalk → Cmd → State) : Res :=
  match findCmd s h seq.toNat with
  | none => .next s
  | some c =>
    let r := KvRec.at s (kvAddr c)
    if !kvPaged c || !homeLive s r || !(c.st == .granted || c.st == .done) then .next s else
    match findWalk s h c.seq with
    | some w => .next (showWalk (body s r w c) h c.seq)
    | none =>
      if c.st == .done || (kvAppend c && s.commits.any (·.cache == r.addr)) then .next s
      else
        let w : KvWalk := { hearth := h, cmd := c.seq, cache := r.addr, append := kvAppend c, phase := 0, slot := 0, seqs := [], victims := [],
                            swapIn := none, used := 0, pages := [], waiting := false, noted := false }
        .next (showWalk (body s r w c) h c.seq)

/-- The home sequencer handles a walk's request: latch, resumption, allocation, or the release at its end (R241 to R248). -/
def execKvHomeRequest (h : Fin 16) (seq : BitVec 32) (s : State) : Res := kvRow h seq s kvGoOn

/-- Copy whole pages for a command; the first request that fails or waits ends it. -/
def copyPages (s : State) (who : Nat) (cmd : Option CmdId) (n : Nat) : List (Nat × Nat) → State × Req Unit
  | [] => (s, .ok ())
  | (src, dst) :: ps =>
    match memRead s who src n cmd with
    | (s, .fail code) => (s, .fail code)
    | (s, .wait) => (s, .wait)
    | (s, .ok d) =>
      match memWrite s who dst d cmd with
      | (s, .ok _) => copyPages s who cmd n ps
      | x => x

/-- The copies of a swap, as entry number, source and destination, then the requests that write the entries in both slots and the
sequence's STATE (R246, R247). -/
def swapPages (s : State) (r : KvRec) (w : KvWalk) (c : Cmd) (sq : Nat) (ps : List (Nat × Nat × Nat)) : State × Req Unit :=
  match copyPages s (idDisp w.hearth) (some (cmdId s w.hearth c)) r.pageBytes (ps.map (·.2)) with
  | (s, .ok _) => kvTouch s w.hearth c [] (ps.flatMap (fun p => [0, 1].map fun slot => (r.entryAddr slot sq p.1, 8)) ++ [(r.seqAddr sq, 1)])
  | x => x

/-- A step that succeeded pushes pages onto the ring. -/
def thenPush (r : KvRec) (w : KvWalk) (c : Cmd) (ps : List Nat) : State × Req Unit → State × Req Unit
  | (s, .ok _) => r.push s w.hearth c ps
  | x => x

/-- A victim's page copies take effect (R246, steps 2 to 4). -/
def execSwapOutComplete (h : Fin 16) (seq : BitVec 32) (s : State) : Res :=
  kvRow h seq s fun s r w c =>
    match w.victims with
    | [] => s
    | v :: vs =>
      let pages := r.resident s v
      let dst (p : Nat) : Nat := r.swapBase + (v * r.maxPages + p) * r.pageBytes
      match thenPush r w c (pages.map (·.2)) (swapPages s r w c v (pages.map fun p => (p.1, p.2, dst p.1))) with
      | (s, .wait) => s
      | (s, .fail code) => failWalk (r.setSeqState s v sqACTIVE) r { w with victims := vs } c code
      | (s, .ok _) =>
        let s := each pages s fun s p => each [0, 1] s fun s slot =>
          poke s (r.entryAddr slot v p.1) (leBytes 8 (entOf false (entFill (r.entry s slot v p.1)) (dst p.1) v))
        let s := r.setSeqState s v sqSWAPPED
        let s := emberCode s (U.ats r.home) Code.KV_PREEMPT (some (cmdId s w.hearth c))
        let s := satAdd (wr s (F.ATS_PREEMPT_LAST_SEQ r.home) v) (F.ATS_PREEMPT_PREEMPTS r.home) 1
        let w := { w with victims := vs }
        kvGoOn (setWalk s w) r w c

/-- A resumed sequence's pages have been copied back (R247, steps 3 to 5). -/
def execSwapInComplete (h : Fin 16) (seq : BitVec 32) (s : State) : Res :=
  kvRow h seq s fun s r w c =>
    match w.swapIn with
    | none => s
    | some (q, ps) =>
      let gone := r.absent s q
      if ps.length ≠ gone.length then s else
      match swapPages s r w c q ((gone.zip ps).map fun p => (p.1.1, p.1.2, p.2)) with
      | (s, .wait) => s
      | (s, .fail code) => failWalk s r w c code
      | (s, .ok _) =>
        let s := each (gone.zip ps) s fun s p => each [0, 1] s fun s slot =>
          poke s (r.entryAddr slot q p.1.1) (leBytes 8 (entOf true (entFill (r.entry s slot q p.1.1)) p.2 q))
        let s := emberCode (r.setSeqState s q sqACTIVE) (U.ats r.home) Code.KV_RESUME (some (cmdId s w.hearth c))
        let w := { w with swapIn := none }
        let s := setWalk (satAdd s (F.ATS_PREEMPT_RESUMES r.home) 1) w
        kvGoOn s r w c

/-- A walk that waits for pages retries (R248). -/
def execKvRetry (h : Fin 16) (seq : BitVec 32) (s : State) : Res :=
  kvRow h seq s fun s r w c => if w.waiting then kvGoOn s r w c else s

/-! ### PT_COMMIT (R245) -/

/-- PT_COMMIT's checks: the code, or 0, and its increment. -/
def checkPtCommit (s : State) (_h : Nat) (c : Cmd) : Nat × Nat :=
  (firstCode [
    codeIf (maskBad c false false false false) Code.CMD_UNITS,
    codeIf (!rsvdZero c.raw 0x18 40 || kvAddr c % 128 != 0) Code.CMD_FORMAT,
    codeIf (kvRecordBad s (kvAddr c)) Code.KV_RECORD], 0)

def findCommit (s : State) (h seq : Nat) : Option KvCommit := s.commits.find? fun x => x.hearth == h && x.cmd == seq
def setCommit (s : State) (x : KvCommit) : State :=
  let same (y : KvCommit) : Bool := y.hearth == x.hearth && y.cmd == x.cmd
  { s with commits := if s.commits.any same then s.commits.map (fun y => if same y then x else y) else s.commits ++ [x] }
def dropCommit (s : State) (x : KvCommit) : State := { s with commits := s.commits.filter fun y => !(y.hearth == x.hearth && y.cmd == x.cmd) }

/-- A page address that a ring may hold: 256-byte aligned, in the near tier (R245). DEDUCED (log entry 76). -/
def pageAddrBad (p : Nat) : Bool := p % 256 != 0 || decide (nearEnd ≤ p)

/-- PT_COMMIT, steps 1 to 3 (R245): the record, then its RELEASE_LIST. DEDUCED (log entry 76). -/
def execPtCommit (h : Fin 16) (seq : BitVec 32) (s : State) : Res :=
  opRow h seq 0x19 s fun s c =>
    let r := KvRec.at s (kvAddr c)
    let others := s.commits.filter fun x => x.cache == r.addr && !(x.hearth == h.val && x.cmd == c.seq)
    if !homeLive s r || !others.isEmpty then s
    else
      match findCommit s h c.seq with
      | some x =>
        if x.published || s.walks.any (fun w => w.cache == r.addr && w.append) then s else publish s r c x
      | none =>
        let x : KvCommit := { hearth := h, cmd := c.seq, cache := r.addr, published := false, former := r.live, released := [] }
        if s.walks.any fun w => w.cache == r.addr && w.append then setCommit s x else publish s r c x
where
  publish (s : State) (r : KvRec) (c : Cmd) (x : KvCommit) : State :=
    let n := peekNat s (r.addr + 0x3C) 4
    match readList s r c n with
    | (s, .wait) => setCommit s x
    | (s, .fail code) => failRunning (dropCommit s x) h c (U.ats r.home) code
    | (s, .ok d) =>
      let ps := (List.range n).map fun i => field d (8 * i) 8
      if ps.any pageAddrBad then failRunning (dropCommit s x) h c (U.ats r.home) Code.KV_FREE
      else
        match kvTouch s h c [] [(r.addr + 0x3C, 4), (r.addr, 1)] with
        | (s, .wait) => setCommit s x
        | (s, .fail code) => failRunning (dropCommit s x) h c (U.ats r.home) code
        | (s, .ok _) =>
          let s := poke s (r.addr + 0x3C) (leBytes 4 0)
          let s := poke s r.addr (leBytes 1 (1 - r.live))
          setCommit s { x with published := true, former := r.live, released := ps }
  readList (s : State) (r : KvRec) (c : Cmd) (n : Nat) : State × Req Bytes :=
    match kvTouch s h c [(r.addr, 128)] [] with
    | (s, .ok _) => memRead s (idDisp h) (peekNat s (r.addr + 0x40) 8) (8 * n) (some (cmdId s h c))
    | (s, .fail code) => (s, .fail code)
    | (s, .wait) => (s, .wait)

/-- PT_COMMIT, steps 4 and 5 (R245). -/
def execPtCommitRelease (h : Fin 16) (seq : BitVec 32) (s : State) : Res :=
  opRow h seq 0x19 s fun s c =>
    match findCommit s h c.seq with
    | none => s
    | some x =>
      let r := KvRec.at s x.cache
      if !homeLive s r || !x.published || peekNat s (r.addr + (if x.former = 0 then 0x60 else 0x62)) 2 != 0 then s
      else if r.ringSize < r.freeCount s + x.released.length then failRunning (dropCommit s x) h c (U.ats r.home) Code.KV_FREE
      else
        match kvTouch s h c [(r.addr, 128)] [] with
        | (s, .wait) => s
        | (s, .fail code) => failRunning (dropCommit s x) h c (U.ats r.home) code
        | (s, .ok _) =>
        match memRead s (idDisp h) (r.table (1 - x.former)) r.tableBytes (some (cmdId s h c)) with
        | (s, .wait) => s
        | (s, .fail code) => failRunning (dropCommit s x) h c (U.ats r.home) code
        | (s, .ok d) =>
          match memWrite s (idDisp h) (r.table x.former) d (some (cmdId s h c)) with
          | (s, .wait) => s
          | (s, .fail code) => failRunning (dropCommit s x) h c (U.ats r.home) code
          | (s, .ok _) =>
            match r.push s h c x.released with
            | (s, .wait) => s
            | (s, .fail code) => failRunning (dropCommit s x) h c (U.ats r.home) code
            | (s, .ok _) => cmdDone (dropCommit s x) h c

end Sys2Proof.Machine
end

