-- ==== Sys2Proof/Machine/Attn.lean ====
section
/-! DEFINITION. The ATTN command (R224 to R234, R242 to R244): its checks, the two sweeps, the soft maximum, and the append of a walk. -/

namespace Sys2Proof.Machine

/-! ### Fields and operands (Tables 9-1 and 9-2) -/

def atMode (c : Cmd) : Nat := c.fld 0x38 4
def atShape (c : Cmd) : Nat := bits (atMode c) 0 2
def atStats (c : Cmd) : Bool := bit (atMode c) 4
def atCausal (c : Cmd) : Nat := bits (atMode c) 5 2
def atBias (c : Cmd) : Nat := c.fld 0x28 8
def atQ (s : State) (c : Cmd) : Opnd := c.opnd s 0x10 (c.fld 0x20 2) true
def atO (s : State) (c : Cmd) : Opnd := c.opnd s 0x1C (c.fld 0x22 2) true
def atK (s : State) (c : Cmd) : Opnd :=
  if kvPaged c then c.opnd s 0x14 0 (kvAppend c) else c.opnd s 0x14 (bits (c.fld 0x24 4) 0 16) true
def atV (s : State) (c : Cmd) : Opnd :=
  if kvPaged c then c.opnd s 0x18 0 (kvAppend c) else c.opnd s 0x18 (bits (c.fld 0x24 4) 16 16) true
def atSeq (s : State) (c : Cmd) : Opnd := if kvPaged c then c.opnd s 0x24 0 true else .none
/-- Keys in a block of the sweeps (R227). -/
def atBlock (c : Cmd) : Nat := if atShape c = 1 then 64 else 128

/-- The bias record of a command. -/
def atRec (s : State) (c : Cmd) : Option BiasRec := BiasRec.at s (atBias c)

/-- Formats of the keys and the values that are multiplied: the cache's in paged mode (R226). -/
def atKFmt (s : State) (c : Cmd) : Option Fmt := if kvPaged c then Fmt.ofCode (KvRec.at s (kvAddr c)).fmt else (atK s c).desc.format
def atVFmt (s : State) (c : Cmd) : Option Fmt := if kvPaged c then Fmt.ofCode (KvRec.at s (kvAddr c)).fmt else (atV s c).desc.format

/-- Array formats of the score and of the value product (R226). -/
def atScoreArr (s : State) (c : Cmd) : Fmt :=
  match (atQ s c).desc.format, atKFmt s c with
  | some q, some k => (pairFormat q k 1).getD .bf16
  | _, _ => .bf16
def atValueArr (s : State) (c : Cmd) : Fmt := if atVFmt s c = some .fp16 then .fp16 else .bf16

def atRuns (c : Cmd) : Nat := if atShape c = 1 then 2 else 1

/-- A format that no operand of ATTN may have (R226). -/
def atEngineBad (d : Desc) : Bool := d.rank != 0 && match d.format with
  | some .fp32 => true
  | some f => engineBad f
  | none => false

/-- A value format that R226 does not list. -/
def atValueBad (f : Option Fmt) : Bool := match f with
  | some .bf16 => false
  | some .fp16 => false
  | some .int8 => false
  | some .dq4 => false
  | some .dq8 => false
  | _ => true

/-- The key bias tensor breaks R234. -/
def keyBiasBad (s : State) (c : Cmd) (lk b : Nat) : Bool :=
  match atRec s c with
  | none => false
  | some r =>
    let d := r.keyDesc s
    r.keyBias != 0 && d.rank != 0 &&
      ((d.fmt != 0x11 && d.fmt != 0x12) || d.size 0 != lk || d.size 1 != b || decide (2 < d.rank))

/-- ATTN's checks (R138 to R144, R224 to R237): the code, or 0, and the increment. DEDUCED (log entry 77). -/
def checkAttn (s : State) (h : Nat) (c : Cmd) : Nat × Nat :=
  let oq := atQ s c
  let ok := atK s c
  let ov := atV s c
  let oo := atO s c
  let os := atSeq s c
  let paged := kvPaged c
  let app := kvAppend c
  let kind (o : Nat) : Nat := bits (c.fld o 4) 30 2
  let rec_ := atBias c
  let form := firstCode [
    codeIf (maskBad c true false true true || c.unitMask != 3 || c.meMask == 0) Code.CMD_UNITS,
    codeIf (bits (atMode c) 7 9 != 0 || atCausal c == 3 || (app && !paged) || (paged && kvAddr c == 0) || (!paged && kvAddr c != 0) ||
      kvAddr c % 128 != 0 || rec_ % 64 != 0 || (paged && !app && (kind 0x14 != 0 || kind 0x18 != 0))) Code.CMD_FORMAT,
    codeIf (decide (2 ≤ atShape c) || !(fp32.decode (c.fld 0x3C 4)).isFinite) Code.ATTN_SHAPE,
    codeIf (atStats c && (bits (atMode c) 16 16 == 0 || isEvalTicket s c)) Code.ROW_FORMAT,
    codeIf (paged && kvRecordBad s (kvAddr c)) Code.KV_RECORD,
    codeIf (paged && kvScaleBad s (KvRec.at s (kvAddr c))) Code.SCALE_RECORD,
    oq.code, ok.code, ov.code, oo.code, os.code]
  if form ≠ 0 then (form, 0)
  else if [oq, ok, ov, oo, os].any Opnd.isLater then (codeIf ((maskBits c.meMask 16).any fun i => rd s (F.MXE_ERR_FAULTED h i) == 1) Code.ME_FAULTED, 0)
  else
    let q := oq.desc
    let k := ok.desc
    let v := ov.desc
    let o := oo.desc
    let sq := os.desc
    let r := KvRec.at s (kvAddr c)
    let known := q.rank != 0 && o.rank != 0 && (if paged then sq.rank != 0 && (!app || (k.rank != 0 && v.rank != 0)) else k.rank != 0 && v.rank != 0)
    let d := q.size 0
    let hq := q.size 1
    let lq := q.size 2
    let b := q.size 3
    let hkv := if paged then r.heads else k.size 1
    let lk := if paged then r.maxPages * 16 else k.size 2
    let kf := atKFmt s c
    let vf := atVFmt s c
    let sArr := atScoreArr s c
    let vArr := atValueArr s c
    let streams := known && hq * lq * b != 0 && lk != 0
    let t := shapeSubs (atShape c)
    let per := Nat.max (meIncShape sArr (Nat.min t (Nat.max hq 1)) t) (meIncShape vArr (Nat.min t (Nat.max hq 1)) t)
    let tensors := [q, o, sq] ++ (if paged && !app then [] else [k, v])
    let kvDims : List Nat := if paged then [d, hkv, lq, b] else [d, hkv, lk, b]
    let dims4 (x : Desc) : List Nat := (List.range 4).map x.size
    let inc := 10 + 7 + (if streams then popcount c.meMask 16 * per else 0) + popcount c.bankMask 8
    (firstCode [
      codeIf (known && (d == 0 || decide ((if atShape c = 1 then 64 else 128) < d))) Code.ATTN_SHAPE,
      codeIf (rec_ != 0 && biasBad s rec_ hq paged) Code.ATTN_BIAS,
      codeIf (rec_ == 0 && atCausal c != 0) Code.ATTN_BIAS,
      codeIf (known && (decide (4 < q.rank) || decide (4 < o.rank) || dims4 o != dims4 q || hkv == 0 || hq % Nat.max hkv 1 != 0 ||
        (if paged then sq.rank != 1 || sq.size 0 != b || r.dim != d else false) ||
        ((!paged || app) && (decide (4 < k.rank) || decide (4 < v.rank) || dims4 k != kvDims || dims4 v != kvDims)) ||
        keyBiasBad s c lk b)) Code.DESC_SHAPE,
      codeIf (known && paged && sq.fmt != 0x04) Code.FMT_ENGINE,
      codeIf (known && (atEngineBad q || ((!paged || app) && (atEngineBad k || atEngineBad v)))) Code.FMT_ENGINE,
      codeIf (known && ((match q.format, kf with | some qf, some kf => (pairFormat qf kf 1).isNone | _, _ => true) || atValueBad vf)) Code.FMT_PAIR,
      codeIf (known && ([q, o] ++ (if paged && !app then [] else [k, v])).any (fun x => decide (0x20 ≤ x.fmt) && (x.blockDim != 0 || d % 32 != 0)))
        Code.FMT_LAYOUT,
      codeIf (roundBad c o) Code.FMT_ROUND,
      codeIf (atStats c && decide (statMemSize < hq * lq * b)) Code.ROW_FORMAT,
      codeIf (known && selfOverlap s o) Code.DESC_ALIAS,
      codeIf (foreignBank s h tensors) Code.OWNER_FAULT,
      if streams then roomCode s h c (maskBits c.meMask 16) (3 * atRuns c) else 0,
      codeIf (bankMissing s h c tensors) Code.CMD_UNITS,
      codeIf ((maskBits c.meMask 16).any fun i => rd s (F.MXE_ERR_FAULTED h i) == 1) Code.ME_FAULTED], inc)

/-! ### Lanes -/

/-- An operand element as it enters an array (R226): in a BF16 or FP16 array its block and per-tensor scales are applied as it is
widened; in an integer or DQ array they are not. -/
def atLane (s : State) (arr : Fmt) (flush : Bool) (d : Desc) (ix : List Nat) : Lane :=
  match d.format with
  | none => Lane.zero
  | some f =>
    match arr.float, f.float with
    | some ff, none =>
      let code := if f.isDq then d.expCode s f ix else 0x7F
      if f.isDq && code == 0xFF then { q := 0, code := 0, hi := ff.nan, lo := 0, stat := stInvalid }
      else
        let (n, g) := scaleTo ff (d.elem s f ix) (fp32.decode (tensorScale s d))
        { q := 0, code := 0, hi := n, lo := 0, stat := g }
    | _, _ => tensorLane s arr 1 flush d f ix

/-- A key or value row: the descriptor and the index list of its element x. -/
structure KvRow where
  d : Desc
  ix : List Nat
  deriving DecidableEq, Repr

def KvRow.elem (r : KvRow) (x : Nat) : List Nat := x :: r.ix

/-- One head of one token in a page, as a tensor of one line (R238). -/
def pageRow (r : KvRec) (page tok head : Nat) (value : Bool) : KvRow :=
  { d := { base := page + (if value then r.vo else 0) + (tok * r.heads + head) * r.headBytes, fmt := r.fmt, rank := 1, layout := 0, blockDim := 0,
           sliced := false, sizes := [r.dim], strides := [0], scalePtr := if value then r.vScale else r.kScale, expBase := 0 },
    ix := [] }

/-- The pages of a sequence as a walk sees them: those of the latched version, then its own new ones (R244). -/
def walkPages (s : State) (r : KvRec) (w : KvWalk) (q : Nat) : List Nat :=
  (r.entries s w.slot q).map entAddr ++ (match w.pages.find? (·.1 == q) with | some p => p.2 | none => [])

/-- Key or value rows of a batch and a key head, in key order. -/
def kvRows (s : State) (c : Cmd) (r : KvRec) (w : Option KvWalk) (lq : Nat) (value : Bool) (b head : Nat) : List KvRow :=
  match w with
  | none =>
    let d := if value then (atV s c).desc else (atK s c).desc
    (List.range (d.size 2)).map fun j => { d := d, ix := [head, j, b] }
  | some w =>
    let q := w.seqs.getD b 0
    let ps := walkPages s r w q
    let n := lengthOf (r.entries s w.slot q) + if w.append then lq else 0
    (List.range n).map fun j => pageRow r (ps.getD (j / 16) 0) (j % 16) head value

/-! ### Sweeps (R227) -/

/-- The scores of a query row over the keys, as FP32 values with flags (R226, R227): the array's sum, and in an integer or DQ array the
factor s_q × s_k of R97. DEDUCED (log entry 74). -/
def atScores (s : State) (c : Cmd) (arr : Fmt) (q : Desc) (qix : Nat → List Nat) (ks : List KvRow) : List FR :=
  let f := c.subn
  let dw := q.size 0
  ks.map fun k =>
    let P : Prod := { arr := arr, passes := 1, flush := f, kt := dw, m := 1, n := 1, k := dw, batches := 1, seg := 32,
                      a := fun _ _ x => atLane s arr f q (qix x), b := fun _ x _ => atLane s arr f k.d (k.elem x) }
    let (a, g) := accumulate P 0 0 0 none
    let v := accValue arr a
    if arr.float.isSome then ⟨v, g⟩
    else
      let (n, g2) := scaleTo fp32 v (fp32.decode (fp32Div (fp32Mul (tensorScale s q) (tensorScale s k.d)) fp32One))
      ⟨fp32.decode n, g ||| g2⟩

/-- What attention gives one query row: (m, l), whether it is live, the outputs, and flags. -/
structure AtRow where
  m : FR
  l : FR
  live : Bool
  out : List FVal
  g : Nat
  deriving DecidableEq, Repr

/-- Cut a list into blocks of n. -/
def blocksOf (n : Nat) (zs : List FR) : List (List FR) := (cut (0, zs.length) n).map fun t => (zs.drop t.1).take t.2

/-- Both sweeps of one query row (R227, R228): z over the keys gives (m, l); the probabilities are rounded to the format of P and
multiply the values in the order of R114. -/
def atRow (s : State) (c : Cmd) (dw : Nat) (zs : List FR) (vs : List KvRow) : AtRow :=
  let f := c.subn
  let (m, l) := softStats f (blocksOf (atBlock c) zs)
  if softLive l then
    let arr := atValueArr s c
    let pf := if arr = .fp16 then Machine.fp16 else Machine.bf16
    let ps := zs.map fun z => let p := softProb f m l z; let (n, fl) := pf.round f p.v; (n, p.g ||| flagIf fl stSubn)
    let vals := (List.range dw).map fun x =>
      let P : Prod := { arr := arr, passes := 1, flush := f, kt := atBlock c, m := 1, n := 1, k := vs.length, batches := 1, seg := 32,
                        a := fun _ _ k => { Lane.zero with hi := (ps.getD k (0, 0)).1, stat := (ps.getD k (0, 0)).2 },
                        b := fun _ k _ => match vs[k]? with | some r => atLane s arr f r.d (r.elem x) | none => Lane.zero }
      let (a, g) := accumulate P 0 0 0 none
      (accValue arr a, g)
    { m := m, l := l, live := true, out := vals.map (·.1), g := vals.foldl (fun a x => a ||| x.2) (m.g ||| l.g) }
  else { m := ⟨FVal.inf true, 0⟩, l := FR.zero, live := false, out := [], g := m.g ||| l.g }

/-- Token index of query i of a batch (R232). -/
def queryToken (s : State) (c : Cmd) (r : KvRec) (w : Option KvWalk) (lq b i : Nat) : Int :=
  match w, atRec s c with
  | none, some x => x.qOff + i
  | none, none => i
  | some w, _ =>
    let l := lengthOf (r.entries s w.slot (w.seqs.getD b 0))
    if w.append then (l : Int) + i else (l : Int) - lq + i

/-- Every query row: query fastest, then head, then batch (R230). -/
def atRows (s : State) (c : Cmd) (q : Desc) (w : Option KvWalk) : List AtRow :=
  let r := KvRec.at s (kvAddr c)
  let hq := q.size 1
  let lq := q.size 2
  let hkv := if kvPaged c then r.heads else (atK s c).desc.size 1
  let bias := atRec s c
  let kOff : Nat := match w, bias with | none, some x => x.kOff | _, _ => 0
  let sc := FR.load c.subn (c.fld 0x3C 4)
  let arr := atScoreArr s c
  (List.range (q.size 3)).flatMap fun b => (List.range hq).flatMap fun hd =>
    let kh := hd * hkv / hq
    let ks := kvRows s c r w lq false b kh
    let vs := kvRows s c r w lq true b kh
    (List.range lq).map fun i =>
      let tok := queryToken s c r w lq b i
      let zs := ((atScores s c arr q (fun x => [x, hd, i, b]) ks).zip (List.range ks.length)).map fun p =>
        addBias c.subn (FR.mul c.subn p.1 sc) (biasOf s c.subn bias (atCausal c) hd tok ((kOff + p.2 : Nat) : Int) [p.2, b])
      atRow s c (q.size 0) zs vs

/-! ### The append of a walk (R244) -/

/-- Store the new keys or values of one batch into its pages, with what they report. -/
def storeNew (s : State) (c : Cmd) (r : KvRec) (w : KvWalk) (src : Desc) (value : Bool) (b : Nat) : State × Report :=
  let q := w.seqs.getD b 0
  let l := lengthOf (r.entries s w.slot q)
  let ps := walkPages s r w q
  let items := (List.range (src.size 2)).flatMap fun i => (List.range r.heads).map fun hd => (i, hd)
  items.foldl (fun (a : State × Report) p =>
    let row := pageRow r (ps.getD ((l + p.1) / 16) 0) ((l + p.1) % 16) p.2 value
    let m := { plainMode a.1 c row.d with rnd := fun _ => none }
    let elem (x : Nat) : FVal × Nat := scaledElem s c.subn src [x, p.2, p.1, b]
    let (t, rep) := storeTensor a.1 row.d m fun ix => (elem (ix.getD 0 0)).1
    (t, a.2.merge { rep with stat := (List.range r.dim).foldl (fun g x => g ||| (elem x).2) rep.stat })) (s, Report.empty)

/-- Write the new FILL and the new entries of a sequence into the edit slot (R244, step 4). -/
def writeEntries (s : State) (r : KvRec) (w : KvWalk) (lq q : Nat) : State :=
  let l := lengthOf (r.entries s w.slot q) + lq
  let ps := walkPages s r w q
  each ((ps.zip (List.range ps.length)).drop (lengthOf (r.entries s w.slot q) / 16)) s fun s p =>
    let fill := min 16 (l - 16 * p.2)
    if fill = 0 then s else poke s (r.entryAddr r.edit q p.2) (leBytes 8 (entOf true fill p.1 q))

/-- The whole append: bytes, reports to K_SCALE and V_SCALE, entries. DEDUCED (log entry 74). -/
def appendWalk (s : State) (h : Nat) (c : Cmd) (r : KvRec) (w : KvWalk) : State :=
  let k := (atK s c).desc
  let v := (atV s c).desc
  let bs := List.range w.seqs.length
  let run (s : State) (src : Desc) (value : Bool) : State :=
    let (s, rep) := bs.foldl (fun (a : State × Report) b => let (s, x) := storeNew a.1 c r w src value b; (s, a.2.merge x)) (s, Report.empty)
    reportStore s h c (U.ats h) (pageRow r 0 0 0 value).d rep
  let s := run (run s k false) v true
  each (latchWalk.dedupNat w.seqs) s fun s q => writeEntries s r w (k.size 2) q

/-- The scale records of a cache, as byte ranges. -/
def KvRec.scaleRanges (r : KvRec) : List (Nat × Nat) := ([r.kScale, r.vScale].filter (· != 0)).map fun p => (p, 32)

/-- The byte ranges that an append writes: pages and entries, and the records that it reports to. -/
def appendRanges (s : State) (r : KvRec) (w : KvWalk) : List (Nat × Nat) :=
  r.scaleRanges ++ w.seqs.flatMap fun q =>
    let n := lengthOf (r.entries s w.slot q)
    ((walkPages s r w q).drop (n / 16)).map (fun p => (p, r.pageBytes)) ++ [(r.entryAddr r.edit q 0, 8 * r.maxPages)]

/-! ### The command -/

/-- Operations of the attention products (R229, Table 17-3): the scores twice and the values once, over every query row and key. -/
def atCount (s : State) (h : Nat) (c : Cmd) (dw : Nat) (lens : List Nat) (hq lq : Nat) : State :=
  let mes := maskBits c.meMask 16
  let runs := cut (0, lq) 128
  let share (i : Nat) : Nat := (runs.filter fun t => mes.getD (t.1 / 128 % max mes.length 1) 0 == i).foldl (fun a t => a + t.2) 0
  let one (i : Nat) : Nat := lens.foldl (fun a lk => a + 2 * dw * lk * hq * share i) 0
  let total := mes.foldl (fun a i => a + one i) 0
  let s := cntHearth s h (opsIndex (atScoreArr s c)) (2 * total)
  let s := cntHearth s h (opsIndex (atValueArr s c)) total
  let s := each mes s fun s i =>
    let s := each (List.range 4) s fun s k => wr s (F.CNT_ME_TAG h (4 * i + k)) (c.seq % 65536)
    wr s (F.CNT_ME_VALUE h (4 * i + 1)) (3 * one i)
  let s := meTiming s h mes (total != 0)
  each mes s fun s i =>
    let s := meRan (endLive s h i) h i (atShape c) (fmtCode (atScoreArr s c)) 1 (total != 0)
    let free := ((List.range 8).filter fun k => rd s (slotF h i k) == slotFREE).take (if share i = 0 then 0 else atRuns c)
    each free s fun s k => wr s (slotF h i k) slotREADOUT

/-- The attention itself, once the operands have been read and its MEs and the row engine have checked what they hold (R129, R250). -/
def runAttn (s : State) (h : Nat) (c : Cmd) (q o : Desc) (w : Option KvWalk) (lens : List Nat) : State :=
  match readMes s h (maskBits c.meMask 16) true (fun _ => []) (some (cmdId s h c)) with
  | (s, some (i, code)) => failRunning (faultMe (partWritten s h c o.ranges) h i) h c (U.me h i) code
  | (s, none) =>
  orFail h c (U.row h) (readBuffer s h (cmdId s h c)) fun s _ =>
  let rows := atRows s c q w
  let hq := q.size 1
  let lq := q.size 2
  let finish (s : State) : State :=
    let s := rowRan (wr (wr s (F.ATS_CMD_SEQ h) c.seq) (F.ATS_STATE_STATE h) 3) h c (lens.foldl (fun a lk => a + 2 * hq * lq * lk) 0)
    let s := maskedRows s h c (rows.filter fun r => !r.live).length true
    let s := atCount s h c (q.size 0) lens hq lq
    storeAndDone s h c (U.row h) o (plainMode s c o)
      (fun ix =>
        match rows[ix.getD 2 0 + lq * (ix.getD 1 0 + hq * ix.getD 3 0)]? with
        | some r => r.out.getD (ix.getD 0 0) (FVal.fin false 0 0)
        | none => FVal.fin false 0 0)
      (rows.foldl (fun a r => a ||| r.g) 0)
  if atStats c then claiming s h c true c.statRow (rows.map fun r => (r.m.bits, r.l.bits)) finish else finish s

/-- ATTN: dense, or a paged walk that has latched and has its pages (R224 to R234, R242 to R244). -/
def execAttn (h : Fin 16) (seq : BitVec 32) (s : State) : Res :=
  opRow h seq 0x18 s fun s c =>
    let q := (atQ s c).desc
    let o := (atO s c).desc
    let k := (atK s c).desc
    let v := (atV s c).desc
    if !kvPaged c then
      if q.rank = 0 ∨ o.rank = 0 ∨ k.rank = 0 ∨ v.rank = 0 then cmdDone s h c
      else
        orFail h c (U.ats h) (readTensors s h c [q, k, v]) fun s _ =>
          orFail h c (U.ats h) (touchRanges s (idDisp h) false (some (cmdId s h c)) (biasRanges s (atBias c))) fun s _ =>
            if biasDataBad s (atRec s c) then failRunning s h c (U.ats h) Code.ATTN_BIAS
            else if q.count = 0 then cmdDone s h c
            else runAttn s h c q o none (List.replicate (q.size 3) (k.size 2))
    else
      match findWalk s h c.seq with
      | none => s
      | some w =>
        let r := KvRec.at s (kvAddr c)
        let lq := q.size 2
        let lens := w.seqs.map fun x => lengthOf (r.entries s w.slot x) + if w.append then lq else 0
        if w.phase < (if w.append then 2 else 1) then s
        else if !w.append && lens.any fun l => decide (l < lq) then failRunning s h c (U.ats h) Code.KV_SEQ
        else
          orFail h c (U.ats h) (readTensors s h c ([q] ++ (if w.append && w.phase == 2 then [k, v] else []))) fun s _ =>
            let pages := (w.seqs.flatMap fun x => (r.entries s w.slot x).map entAddr).map fun p => (p, r.pageBytes)
            orFail h c (U.ats h) (touchRanges s (idDisp h) false (some (cmdId s h c)) (biasRanges s (atBias c) ++ r.scaleRanges ++ pages)) fun s _ =>
              orFail h c (U.ats h) (touchRanges s (idDisp h) true (some (cmdId s h c)) (if w.append && w.phase == 2 then appendRanges s r w else [])) fun s _ =>
                if biasDataBad s (atRec s c) then failRunning s h c (U.ats h) Code.ATTN_BIAS
                else
                  let s := if w.append && w.phase == 2 then setWalk (appendWalk s h c r w) { w with phase := 3 } else s
                  if q.count = 0 then cmdDone s h c else runAttn s h c q o (some w) lens

end Sys2Proof.Machine
end

