-- ==== Sys2Proof/Machine/AwlSystem.lean ====
section
/-! DEFINITION. The control-register, transfer, queue, wait, token and system instructions of the Awl cores (R184, R187 to R193),
and the ends of waits and of budgets. SREGR and SREGW stand with the registers they reach. -/

namespace Sys2Proof.Machine

/-! ### Control registers (R184, Table 7-10) -/

/-- A control register's content. -/
def AwlCore.cr (c : AwlCore) : Nat → BitVec 64
  | 0 => BitVec.ofNat 64 c.cstat
  | 1 => BitVec.ofNat 64 c.cvscale
  | 2 => c.srseed
  | 3 => c.sridx
  | 4 => BitVec.ofNat 64 c.amax
  | 5 => BitVec.ofNat 64 c.domcnt
  | 6 => BitVec.ofNat 64 c.icount
  | _ => c.ident

/-- The core with a writable control register set; FP32 registers keep bits [31:0]. -/
def AwlCore.setCr (c : AwlCore) (n : Nat) (v : BitVec 64) : AwlCore :=
  match n with
  | 1 => { c with cvscale := v.toNat % 2 ^ 32 }
  | 2 => { c with srseed := v }
  | 3 => { c with sridx := v }
  | 4 => { c with amax := v.toNat % 2 ^ 32 }
  | _ => c

/-- CR with IMM[15] = 0: rd := control register n (R184). -/
def execCrRead (core : Core) (rd : Fin 32) (n : Fin 8) (s : State) : Res :=
  awlReg core (.crRead core rd n) (fun c => c.setS rd (c.cr n.val)) s
/-- CR with IMM[15] = 1: control register n := ra (R184). -/
def execCrWrite (core : Core) (ra : Fin 32) (n : Fin 8) (s : State) : Res :=
  awlReg core (.crWrite core ra n) (fun c => c.setCr n.val (c.sreg ra)) s

/-! ### Ends of cores -/

/-- Run a QOP, WAIT or TOK instruction: on a cancelled ticket the core ends as at HALT (R193). -/
def waitStep (core : Core) (i : Instr) (body : State → AwlCore → AwlRes) (s : State) : Res :=
  awlStep core i (fun s c => if coreCancelled s (coreKey core) then .halt s c else body s c) s

/-! ### Tack transfers (R187, R188) -/

/-- A core's transfers and puts that have not taken effect. -/
def AwlCore.outstanding (c : AwlCore) : Nat := c.ops.length + c.puts

/-- A range of n bytes from a crosses a 256-byte boundary. -/
def crosses256 (a n : Nat) : Bool := n != 0 && a / 256 != (a + n - 1) / 256

/-- The checks of R187 on local offset l, device address a and length n; 0 where they pass. -/
def tackBad (s : State) (c : AwlCore) (l a n : Nat) (write : Bool) : Nat :=
  if n = 0 then 0
  else if 256 < n ∨ crosses256 l n ∨ crosses256 a n then Code.TACK_FORMAT
  else if !inOneRegion s a n || decide (lsSize < l + n) || (!write && decide (l < c.codeLen)) then Code.AWL_ADDR
  else 0

/-- TACK with FN[0] = 0: read RB bytes at device address RA; they fill the local store at RD later (R187, R188). DEDUCED (log entry 26). -/
def execTackRead (core : Core) (rd ra rb : Fin 32) (s : State) : Res :=
  awlStep core (.tackRead core rd ra rb) (fun s c =>
    let k := coreKey core
    let l := (c.sreg rd).toNat
    let a := (c.sreg ra).toNat
    let n := (c.sreg rb).toNat
    match tackBad s c l a n false with
    | 0 =>
      if n = 0 then .done s c
      else if 16 ≤ c.outstanding then .wait s (.outstanding false)
      else
        match tackRead s (coreWho k) a n (coreCmdId s k) with
        | (s, .ok d) => .done s { c with ops := c.ops ++ [{ ls := l, data := d }] }
        | (s, .fail code) => .fault s code 0
        | (s, .wait) => .stall s
    | code => .fault s code 0) s

/-- TACK with FN[0] = 1: write RB bytes of the local store at RD to device address RA (R187, R188). It takes effect after the
core's earlier puts (R154; DEDUCED, log entry 26). -/
def execTackWrite (core : Core) (rd ra rb : Fin 32) (s : State) : Res :=
  awlStep core (.tackWrite core rd ra rb) (fun s c =>
    let k := coreKey core
    let l := (c.sreg rd).toNat
    let a := (c.sreg ra).toNat
    let n := (c.sreg rb).toNat
    match tackBad s c l a n true with
    | 0 =>
      if n = 0 then .done s c
      else if 16 ≤ c.outstanding then .wait s (.outstanding false)
      else if c.puts ≠ 0 then .stall s
      else
        match lsCheck s k l n with
        | (s, true) => .fault s Code.AWL_LS_ECC 0
        | (s, false) =>
          match tackWrite s (coreWho k) a ((getCore s k).lsBytes l n) (coreCmdId s k) with
          | (s, .ok _) => .done s { getCore s k with pc := c.pc }
          | (s, .fail code) => .fault s code 0
          | (s, .wait) => .stall s
    | code => .fault s code 0) s

/-- The n-th outstanding TACK read of a core fills its local destination (R188). DEDUCED (log entry 26). -/
def execTackReadFill (core : Core) (n : Nat) (s : State) : Res :=
  let k := coreKey core
  let c := getCore s k
  if !unitLive s (coreUnit k) then .next s else
  match c.ops[n]? with
  | none => .next s
  | some o =>
    .next (setCore s k { c.lsSet o.ls o.data with ops := c.ops.eraseIdx n })

/-! ### Queues (R189) -/

/-- The queue that rb names; none where a bit outside [5:0] and [11:8] is set (DEDUCED, log entry 14). -/
def queueReg (v : BitVec 64) : Option (Nat × Nat) :=
  let n := v.toNat
  if bits n 6 2 = 0 ∧ n / 4096 = 0 then some (bits n 8 4, bits n 0 6) else none

/-- Put a handle on its way from a core; it takes effect at HANDLE_PUT. -/
def corePut (s : State) (core : Core) (c : AwlCore) (h q : Nat) (x : Handle) : State × AwlCore :=
  let s := claimQueue s h q c.ticket
  ({ s with puts := s.puts ++ [{ hearth := h, queue := q, handle := x, ticket := c.ticket, reserved := false, core := some core, cmd := none }] },
   { c with puts := c.puts + 1 })

/-- The queue has room and is the ticket's own or nobody's. -/
def putOpen (s : State) (h q ticket : Nat) : Bool :=
  let x := (getDisp s h).queue q
  queueFor x ticket && decide (x.entries.length + x.reserved < 16)

/-- QPUT of a core (R189). -/
def execAwlQput (core : Core) (ra rb : Fin 32) (s : State) : Res :=
  waitStep core (.awlQput core ra rb) (fun s c =>
    match queueReg (c.sreg rb) with
    | none => .fault s Code.AWL_ILLEGAL 0
    | some (h, q) =>
      let v := (c.sreg ra).toNat
      if !handleOk s c.ticket v then .fault s Code.QUEUE_HANDLE 0
      else if 16 ≤ c.outstanding then .wait s (.outstanding true)
      else if !putOpen s h q c.ticket then .wait s (.qput h q (handleOf v))
      else let (s, c) := corePut s core c h q (handleOf v); .done s c) s

/-- QGET: wait for an entry and pop the oldest into rd (R189). -/
def execQget (core : Core) (rd rb : Fin 32) (s : State) : Res :=
  waitStep core (.qget core rd rb) (fun s c =>
    let k := coreKey core
    match queueReg (c.sreg rb) with
    | none => .fault s Code.AWL_ILLEGAL 0
    | some (h, q) =>
      if h ≠ k / 8 then .fault s Code.AWL_ILLEGAL 0 else
      match popQueue (claimQueue s h q c.ticket) h q c.ticket with
      | some (x, s) => .done s (c.setS rd (BitVec.ofNat 64 x.value))
      | none => .wait (claimQueue s h q c.ticket) (.qget rd.val q)) s

/-- What QTRY leaves in rd once the queue is its ticket's: the oldest entry, or 0 (R189). -/
def tryPop (s : State) (h q ticket : Nat) : Nat × State :=
  let s := claimQueue s h q ticket
  match popQueue s h q ticket with
  | some (x, s) => (x.value, s)
  | none => (0, s)

/-- QTRY: pop without waiting for an entry; rd := 0 when the queue is empty (R189). Only a queue that another ticket holds makes it
wait (R156), and a cancelled ticket's core goes on from there (R193 names QGET, QPUT, WAIT and TOK alone). -/
def execQtry (core : Core) (rd rb : Fin 32) (s : State) : Res :=
  awlStep core (.qtry core rd rb) (fun s c =>
    let k := coreKey core
    match queueReg (c.sreg rb) with
    | none => .fault s Code.AWL_ILLEGAL 0
    | some (h, q) =>
      if h ≠ k / 8 then .fault s Code.AWL_ILLEGAL 0
      else if !queueFor ((getDisp s h).queue q) c.ticket then .wait s (.qtry rd.val q)
      else let r := tryPop s h q c.ticket; .done r.2 (c.setS rd (BitVec.ofNat 64 r.1))) s

/-! ### Waits (R190) -/

/-- WAIT OWN: until every transfer and put of the core has taken effect (R190). -/
def execWaitOwn (core : Core) (s : State) : Res :=
  waitStep core (.waitOwn core) (fun s c => if c.outstanding = 0 then .done s c else .wait s .own) s

/-- A command of the core's dispatcher has been fetched and has completed or been dropped (R190). -/
def seqOver (s : State) (h n : Nat) : Bool :=
  (findCmd s h n).isNone && later32 (rd s (F.HRT_DISP_SEQ_NEXT h)) n

/-- WAIT SEQ: until the command of sequence number ra[31:0] is over (R190). -/
def execWaitSeq (core : Core) (ra : Fin 32) (s : State) : Res :=
  waitStep core (.waitSeq core ra) (fun s c =>
    let n := (c.sreg ra).toNat % 2 ^ 32
    if n = c.seq then .fault s Code.AWL_ILLEGAL 0
    else if seqOver s (coreKey core / 8) n then .done s c else .wait s (.seq n)) s

/-! ### Tokens (R191) -/

/-- Ask for an increment: the dispatcher forwards it when its turn comes (R191). -/
def coreAsks (s : State) (k n : Nat) (implicit : Bool) : State :=
  let d := getDisp s (k / 8)
  if d.awlReqs.any (TokReq.ofCore k) || d.pending.any (TokReq.ofCore k) then s
  else schedule (setDisp s (k / 8) { d with awlReqs := d.awlReqs ++ [.core (k % 8) n implicit] }) (k / 8)

/-- TOK with IMM[15] = 0 (R191). -/
def execTokRequest (core : Core) (n : BitVec 8) (s : State) : Res :=
  waitStep core (.tokRequest core n) (fun s c =>
    let k := coreKey core
    if n = 0 ∨ 128 ≤ k then .done s c
    else if c.held ≠ 0 then .fault s Code.AWL_TOKEN 0
    else if neverFits s (k / 8) n.toNat then .fault s Code.TOKEN_EXCEEDS 0
    else .wait (coreAsks s k n.toNat false) (.tok n.toNat false)) s

/-- TOK with IMM[15] = 1: give back the holding, if there is one (R191). -/
def execTokRelease (core : Core) (s : State) : Res :=
  waitStep core (.tokRelease core) (fun s c =>
    let k := coreKey core
    let s := releaseHeld s k
    .done s { c with held := 0 }) s

/-! ### The end of a wait -/

/-- The core continues at its instruction, which then runs anew. -/
def resumeCore (s : State) (k : Nat) : State := wr (updCore s k fun c => { c with wait := none }) (coreStateF k) awlRUNNING

/-- The waiting instruction is over: it retires. -/
def retireWait (s : State) (k : Nat) (f : AwlCore → AwlCore) : State :=
  let s := resumeCore s k
  let c := getCore s k
  retire s k (f { c with pc := c.pc + 4 })

/-- A waiting core finds its condition met and continues (R188 to R191); in a QGET, QPUT, WAIT or TOK of a cancelled ticket it ends
as at HALT (R193). A core whose implicit token request (R174) has yet to reach the dispatcher makes it here. -/
def execAwlWaitEnd (core : Core) (s : State) : Res :=
  let k := coreKey core
  let c := getCore s k
  if !unitLive s (coreUnit k) || rd s (coreStateF k) != awlWAITING then .next s
  else
    match c.wait with
    | none => .next s
    | some w =>
      if w.ends && coreCancelled s k then .next (haltCore s k) else
      match w with
      | .outstanding _ => .next (if c.outstanding < 16 then resumeCore s k else s)
      | .own => .next (if c.outstanding = 0 then retireWait s k id else s)
      | .seq n => .next (if seqOver s (k / 8) n then retireWait s k id else s)
      | .qput h q x =>
        .next (if putOpen s h q c.ticket then
          let (s, c') := corePut s core c h q x
          retireWait (setCore s k c') k id else s)
      | .qget rd q =>
        match popQueue (claimQueue s (k / 8) q c.ticket) (k / 8) q c.ticket with
        | some (x, s) => .next (retireWait s k fun c => c.setS (Fin.ofNat 32 rd) (BitVec.ofNat 64 x.value))
        | none => .next (claimQueue s (k / 8) q c.ticket)
      | .qtry rd q =>
        .next (if !queueFor ((getDisp s (k / 8)).queue q) c.ticket then s else
          let r := tryPop s (k / 8) q c.ticket
          retireWait r.2 k fun c => c.setS (Fin.ofNat 32 rd) (BitVec.ofNat 64 r.1))
      | .tok n implicit =>
        .next (if c.held = 0 then coreAsks s k n implicit else if implicit then resumeCore s k else retireWait s k id)

/-! ### System instructions (R192) -/

/-- HALT (R172, R192). -/
def execHalt (core : Core) (s : State) : Res := awlStep core (.halt core) (fun s c => .halt s c) s

/-- TRAP: faults with `AWL_TRAP` and INFO ra[15:0] (R192). -/
def execTrap (core : Core) (ra : Fin 32) (s : State) : Res :=
  awlStep core (.trap core ra) (fun s c => .fault s Code.AWL_TRAP ((c.sreg ra).toNat % 65536)) s

/-- FENCE: it retires once every earlier transfer and put has taken effect (R192). -/
def execFence (core : Core) (s : State) : Res :=
  awlStep core (.fence core) (fun s c => if c.outstanding = 0 then .done s c else .stall s) s

/-- EMIT: an Ember PROGRAM event with ra[15:0] (R192, Table 17-5). -/
def execEmit (core : Core) (ra : Fin 32) (s : State) : Res :=
  awlStep core (.emit core ra) (fun s c =>
    let k := coreKey core
    let v := (c.sreg ra).toNat % 65536
    .done (match coreCmdId s k with
      | some i => emberPut s (coreUnit k) 2 v i.seq true i.hearth (i.ticket % 2 ^ 32)
      | none => emberPut s (coreUnit k) 2 v 0 false 0 ((match findTicket s c.ticket with | some t => t.num | none => 0) % 2 ^ 32)) c) s

/-- A hearth core that has retired INSN_LIMIT × 1,024 instructions without a HALT faults (R175). -/
def execAwlBudget (core : Core) (s : State) : Res :=
  let k := coreKey core
  let c := getCore s k
  if coreLive s k && budgetSpent k c then .next (awlFault s k Code.AWL_BUDGET 0 c.word) else .next s

end Sys2Proof.Machine
end

