-- ==== Sys2Proof/Machine/AwlCommand.lean ====
section
/-! DEFINITION. The AWL command and the start of KIND 2 programs (R168 to R175, R195). -/

namespace Sys2Proof.Machine

def awlCodeAddr (c : Cmd) : Nat := c.fld 0x10 8
def awlCodeLen (c : Cmd) : Nat := c.fld 0x18 4
def awlRef (s : State) (c : Cmd) (i : Nat) : Opnd := c.opnd s (0x24 + 4 * i) 0 false

/-- The code range lies in one AWL_CODE section of the running image (R35, R169). -/
def inCodeSection (s : State) (a n : Nat) : Bool :=
  match s.image with
  | some i => i.codeSecs.any fun r => decide (r.1 ≤ a) && decide (a + n ≤ r.1 + r.2)
  | none => false

/-- The command starts no core (R169). -/
def awlIdle (c : Cmd) : Bool := awlCodeLen c == 0 || c.fld 0x20 4 == 0 || c.awlMask == 0

/-- AWL's checks (R138, R139, R169): the code, or 0, and the increment (R174). -/
def checkAwl (s : State) (_h : Nat) (c : Cmd) : Nat × Nat :=
  let os := (List.range 3).map (awlRef s c)
  let kind (i : Nat) : Nat := bits (c.fld (0x24 + 4 * i) 4) 30 2
  let rec_ := c.fld 0x3D 1
  let cores := if awlIdle c || bit (c.fld 0x3C 1) 0 then 0 else 3 * popcount c.awlMask 8
  (firstCode ([
    codeIf (maskBad c false true false true) Code.CMD_UNITS,
    codeIf (decide (2 ≤ c.fld 0x3C 1) || decide (4 ≤ rec_) || c.fld 0x3E 2 != 0 || (c.outValid && kind 0 == 0) ||
      (rec_ != 0 && kind (rec_ - 1) == 0)) Code.CMD_FORMAT,
    codeIf (awlCodeAddr c % 64 != 0 || awlCodeLen c % 4 != 0 || decide (262144 < awlCodeLen c) || c.fld 0x1C 4 % 4 != 0 ||
      (awlCodeLen c != 0 && (decide (awlCodeLen c ≤ c.fld 0x1C 4) || !inCodeSection s (awlCodeAddr c) (awlCodeLen c)))) Code.AWL_CODE]
    ++ os.map Opnd.code), cores + popcount c.bankMask 8)

/-- A core's local store after its code copy and clear (R170). -/
def loadCore (c : AwlCore) (code : Bytes) (copy clear : Bool) : AwlCore :=
  let c := if clear then { c with ls := c.ls.filter (fun p => decide (p.1 < code.length)), lsErr := c.lsErr.filter fun p => decide (8 * p.1 < code.length) } else c
  if copy then c.lsSet 0 code else c

/-- The registers of Table 7-4, given as pairs of a register number and its content. -/
def startRegs (xs : List (Nat × Nat)) : Smap (BitVec 64) := xs.map fun p => (p.1, BitVec.ofNat 64 p.2)

/-- The code that a core's AWL_RESIDENT names is the command's (R170). -/
def codeResident (s : State) (k : Nat) (c : Cmd) : Bool :=
  rd s (F.AWL_RESIDENT_VALID (k / 8) (k % 8)) == 1 && rd s (F.AWL_RESIDENT_ADDR_64 (k / 8) (k % 8)) == awlCodeAddr c / 64 &&
    rd s (F.AWL_RESIDENT_LEN (k / 8) (k % 8)) == awlCodeLen c

/-- The code bytes to copy; none are read where every started core holds them (R170). -/
def readCode (h : Nat) (c : Cmd) (s : State) : State × Req Bytes :=
  if (cmdCores h c).all fun k => codeResident s k c then (s, .ok (zeros (awlCodeLen c)))
  else memRead s (idDisp h) (awlCodeAddr c) (awlCodeLen c) (some (cmdId s h c))

/-- Start Awl code on the cores of AWL_MASK: copy, clear, registers, pc (R170). -/
def execAwl (h : Fin 16) (seq : BitVec 32) (s : State) : Res :=
  opRow h seq 0x28 s fun s c =>
    if awlIdle c then cmdDone s h c
    else
      orFail h c (U.disp h) (readCode h c s) fun s code =>
        match findTicket s c.ticket with
        | none => s
        | some t =>
          let ks := cmdCores h c
          let refs := [0x24, 0x28, 0x2C].map fun o => c.refAt o 0
          let slices := (refs.getD 0 (0, 0, 0)).2.2 + 65536 * ((refs.getD 1 (0, 0, 0)).2.2 + 65536 * (refs.getD 2 (0, 0, 0)).2.2)
          let s := each (ks.zip (List.range ks.length)) s fun s p =>
            let k := p.1
            let old := getCore s k
            let fld (fh : Nat → Nat → Fld) : Fld := fh (k / 8) (k % 8)
            let ident := k % 8 + 256 * (k / 8) + 65536 * p.2 + 2 ^ 24 * ks.length
            let core := loadCore old code (!codeResident s k c) (old.lastTicket != some c.ticket || old.woken)
            let core : AwlCore :=
              { core with
                sregs := startRegs [(1, ident), (2, c.seq), (3, c.fld 0x30 8), (4, c.fld 0x38 4),
                  (5, descAddr s c (refs.getD 0 (0, 0, 0))), (6, descAddr s c (refs.getD 1 (0, 0, 0))),
                  (7, descAddr s c (refs.getD 2 (0, 0, 0))), (8, slices), (9, t.stepIndex c.step), (10, t.num)],
                vregs := [], pc := c.fld 0x1C 4, cstat := 0, cvscale := fp32One, srseed := cmdSrSeed s c, sridx := 0, amax := 0,
                domcnt := 0, icount := 0, ident := BitVec.ofNat 64 ident, codeLen := awlCodeLen c, banks := c.bankMask,
                limit := c.fld 0x20 4, seq := c.seq, ticket := c.ticket, lastTicket := some c.ticket, woken := false,
                lean := bit (c.fld 0x3C 1) 0, held := 0, noted := false, subn := c.subn, puts := 0, wait := none }
            let s := setCore s k core
            let s := wr (wr (wr s (coreStateF k) awlRUNNING) (coreLeanF k) (if core.lean then 1 else 0)) (coreHeldF k) 0
            let s := wr (wr (wr (wr s (corePcF k) core.pc) (coreSeqF k) c.seq) (coreActiveF k) 1) (coreIcountF k) 0
            let s := wr (wr s (fld F.AWL_RESIDENT_VALID) 1) (fld F.AWL_RESIDENT_ADDR_64) (awlCodeAddr c / 64)
            wr s (fld F.AWL_RESIDENT_LEN) (awlCodeLen c)
          updCmd s h c.seq fun x => { x with st := .working }

/-! ### KIND 2 programs (R195) -/

/-- Accepted KIND 2 tickets that have not started and whose functions let them, in the order of R50. -/
def kind2Waiting (s : State) : List Ticket :=
  sortBy (fun a b => if a.prio ≠ b.prio then decide (b.prio < a.prio) else decide (a.key < b.key))
    (s.tickets.filter fun t => t.prog.kind == 2 && !t.started && !t.cancelling && ticketFuncsOk s t)

/-- Supervisor core 3 is free. -/
def sup3Free (s : State) : Bool := rd s (coreActiveF 131) == 0

/-- Supervisor core 3 loads and starts the next KIND 2 program (R195): the AWL_CODE section that holds the entry, the rest of the
store cleared. -/
def execKind2Start (s : State) : Res :=
  if !unitLive s (U.sup 3) || !sup3Free s then .next s else
  match kind2Waiting s with
  | [] => .next s
  | t :: _ =>
    match memRead s idSup t.prog.secAddr t.prog.secLen none with
    | (s, .wait) => .next s
    | (s, .fail code) =>
      .next (endTicket (emberCode (updTicket s t.key fun t => { t with status := code, faultSeq := 0, faultHearth := 0xFF }) (U.sup 3) code none) t.key)
    | (s, .ok code) =>
      let core : AwlCore :=
        { loadCore (getCore s 131) code true true with
          sregs := startRegs [(1, 0x1003), (2, t.num), (3, field t.raw 0x30 8), (4, field t.raw 0x38 8), (5, t.bufTable), (6, t.bufCount),
            (7, t.stepCount), (9, t.firstStep), (10, t.num)],
          vregs := [], pc := t.prog.entry, cstat := 0, cvscale := fp32One, srseed := srSeed t.ticketSeed t.firstStep 0, sridx := 0,
          amax := 0, domcnt := 0, icount := 0, ident := 0x1003, codeLen := t.prog.secLen, banks := 0, limit := 0, seq := 0,
          ticket := t.key, lastTicket := some t.key, woken := false, lean := false, held := 0, noted := false, subn := false,
          puts := 0, wait := none }
      let s := updTicket (setCore s 131 core) t.key fun t => { t with started := true }
      let s := wr (wr (wr s (coreStateF 131) awlRUNNING) (corePcF 131) core.pc) (coreActiveF 131) 1
      .next (wr s (coreIcountF 131) 0)

end Sys2Proof.Machine
end

