-- ==== Sys2Proof/Machine/AwlScalar.lean ====
section
/-! DEFINITION. The scalar instructions (R176, R178, R179), branches and jumps, and loads and stores (R165 to R167, R171). -/

namespace Sys2Proof.Machine

/-! ### Scalar arithmetic (Table 7-7) -/

def aluSdiv (a b : BitVec 64) : BitVec 64 := if b = 0 then -1 else a.sdiv b
def aluUdiv (a b : BitVec 64) : BitVec 64 := if b = 0 then -1 else a / b
def aluSrem (a b : BitVec 64) : BitVec 64 := if b = 0 then a else a.srem b
def aluUrem (a b : BitVec 64) : BitVec 64 := if b = 0 then a else a % b
def aluMulh (a b : BitVec 64) : BitVec 64 := BitVec.ofInt 64 (a.toInt * b.toInt / 2 ^ 64)
def aluMulhu (a b : BitVec 64) : BitVec 64 := BitVec.ofNat 64 (a.toNat * b.toNat / 2 ^ 64)
def shAmt (b : BitVec 64) : Nat := b.toNat % 64
def ofBool (b : Bool) : BitVec 64 := if b then 1 else 0
def clz64 (a : BitVec 64) : Nat := 64 - (if a.toNat = 0 then 0 else Nat.log2 a.toNat + 1)
def popc64 (a : BitVec 64) : Nat := popcount a.toNat 64

/-- rd := op ra rb. -/
def alu3 (core : Core) (i : Instr) (op : BitVec 64 → BitVec 64 → BitVec 64) (rd ra rb : Fin 32) (s : State) : Res :=
  awlReg core i (fun c => c.setS rd (op (c.sreg ra) (c.sreg rb))) s

/-- rd := op ra. -/
def alu2 (core : Core) (i : Instr) (op : BitVec 64 → BitVec 64) (rd ra : Fin 32) (s : State) : Res :=
  awlReg core i (fun c => c.setS rd (op (c.sreg ra))) s

/-- ADD (R178, Table 7-7). -/
def execAdd (core : Core) (rd ra rb : Fin 32) (s : State) : Res :=
  alu3 core (.add core rd ra rb) (fun a b => a + b) rd ra rb s
/-- SUB (R178, Table 7-7). -/
def execSub (core : Core) (rd ra rb : Fin 32) (s : State) : Res :=
  alu3 core (.sub core rd ra rb) (fun a b => a - b) rd ra rb s
/-- AND (R178, Table 7-7). -/
def execAnd (core : Core) (rd ra rb : Fin 32) (s : State) : Res :=
  alu3 core (.and core rd ra rb) (fun a b => a &&& b) rd ra rb s
/-- OR (R178, Table 7-7). -/
def execOr (core : Core) (rd ra rb : Fin 32) (s : State) : Res :=
  alu3 core (.or core rd ra rb) (fun a b => a ||| b) rd ra rb s
/-- XOR (R178, Table 7-7). -/
def execXor (core : Core) (rd ra rb : Fin 32) (s : State) : Res :=
  alu3 core (.xor core rd ra rb) (fun a b => a ^^^ b) rd ra rb s
/-- SLL (R178, Table 7-7). -/
def execSll (core : Core) (rd ra rb : Fin 32) (s : State) : Res :=
  alu3 core (.sll core rd ra rb) (fun a b => a <<< shAmt b) rd ra rb s
/-- SRL (R178, Table 7-7). -/
def execSrl (core : Core) (rd ra rb : Fin 32) (s : State) : Res :=
  alu3 core (.srl core rd ra rb) (fun a b => a >>> shAmt b) rd ra rb s
/-- SRA (R178, Table 7-7). -/
def execSra (core : Core) (rd ra rb : Fin 32) (s : State) : Res :=
  alu3 core (.sra core rd ra rb) (fun a b => a.sshiftRight (shAmt b)) rd ra rb s
/-- SLT (R178, Table 7-7). -/
def execSlt (core : Core) (rd ra rb : Fin 32) (s : State) : Res :=
  alu3 core (.slt core rd ra rb) (fun a b => ofBool (a.slt b)) rd ra rb s
/-- SLTU (R178, Table 7-7). -/
def execSltu (core : Core) (rd ra rb : Fin 32) (s : State) : Res :=
  alu3 core (.sltu core rd ra rb) (fun a b => ofBool (a.ult b)) rd ra rb s
/-- MUL (R178, Table 7-7). -/
def execMul (core : Core) (rd ra rb : Fin 32) (s : State) : Res :=
  alu3 core (.mul core rd ra rb) (fun a b => a * b) rd ra rb s
/-- MULH (R178, Table 7-7). -/
def execMulh (core : Core) (rd ra rb : Fin 32) (s : State) : Res :=
  alu3 core (.mulh core rd ra rb) (aluMulh) rd ra rb s
/-- MULHU (R178, Table 7-7). -/
def execMulhu (core : Core) (rd ra rb : Fin 32) (s : State) : Res :=
  alu3 core (.mulhu core rd ra rb) (aluMulhu) rd ra rb s
/-- DIV (R179). -/
def execDiv (core : Core) (rd ra rb : Fin 32) (s : State) : Res :=
  alu3 core (.div core rd ra rb) (aluSdiv) rd ra rb s
/-- DIVU (R179). -/
def execDivu (core : Core) (rd ra rb : Fin 32) (s : State) : Res :=
  alu3 core (.divu core rd ra rb) (aluUdiv) rd ra rb s
/-- REM (R179). -/
def execRem (core : Core) (rd ra rb : Fin 32) (s : State) : Res :=
  alu3 core (.rem core rd ra rb) (aluSrem) rd ra rb s
/-- REMU (R179). -/
def execRemu (core : Core) (rd ra rb : Fin 32) (s : State) : Res :=
  alu3 core (.remu core rd ra rb) (aluUrem) rd ra rb s
/-- MIN (R178, Table 7-7). -/
def execMin (core : Core) (rd ra rb : Fin 32) (s : State) : Res :=
  alu3 core (.min core rd ra rb) (fun a b => if a.slt b then a else b) rd ra rb s
/-- MAX (R178, Table 7-7). -/
def execMax (core : Core) (rd ra rb : Fin 32) (s : State) : Res :=
  alu3 core (.max core rd ra rb) (fun a b => if a.slt b then b else a) rd ra rb s
/-- MINU (R178, Table 7-7). -/
def execMinu (core : Core) (rd ra rb : Fin 32) (s : State) : Res :=
  alu3 core (.minu core rd ra rb) (fun a b => if a.ult b then a else b) rd ra rb s
/-- MAXU (R178, Table 7-7). -/
def execMaxu (core : Core) (rd ra rb : Fin 32) (s : State) : Res :=
  alu3 core (.maxu core rd ra rb) (fun a b => if a.ult b then b else a) rd ra rb s
/-- CLZ (R178, Table 7-7). -/
def execClz (core : Core) (rd ra : Fin 32) (s : State) : Res :=
  alu2 core (.clz core rd ra) (fun a => BitVec.ofNat 64 (clz64 a)) rd ra s
/-- POPC (R178, Table 7-7). -/
def execPopc (core : Core) (rd ra : Fin 32) (s : State) : Res :=
  alu2 core (.popc core rd ra) (fun a => BitVec.ofNat 64 (popc64 a)) rd ra s
/-- ADDI (Table 7-6). -/
def execAddi (core : Core) (rd ra : Fin 32) (imm : BitVec 16) (s : State) : Res :=
  alu2 core (.addi core rd ra imm) (fun a => a + imm.signExtend 64) rd ra s
/-- ANDI (Table 7-6). -/
def execAndi (core : Core) (rd ra : Fin 32) (imm : BitVec 16) (s : State) : Res :=
  alu2 core (.andi core rd ra imm) (fun a => a &&& imm.zeroExtend 64) rd ra s
/-- ORI (Table 7-6). -/
def execOri (core : Core) (rd ra : Fin 32) (imm : BitVec 16) (s : State) : Res :=
  alu2 core (.ori core rd ra imm) (fun a => a ||| imm.zeroExtend 64) rd ra s
/-- XORI (Table 7-6). -/
def execXori (core : Core) (rd ra : Fin 32) (imm : BitVec 16) (s : State) : Res :=
  alu2 core (.xori core rd ra imm) (fun a => a ^^^ imm.zeroExtend 64) rd ra s
/-- SLTI (Table 7-6). -/
def execSlti (core : Core) (rd ra : Fin 32) (imm : BitVec 16) (s : State) : Res :=
  alu2 core (.slti core rd ra imm) (fun a => ofBool (a.slt (imm.signExtend 64))) rd ra s
/-- SLTIU (Table 7-6). -/
def execSltiu (core : Core) (rd ra : Fin 32) (imm : BitVec 16) (s : State) : Res :=
  alu2 core (.sltiu core rd ra imm) (fun a => ofBool (a.ult (imm.signExtend 64))) rd ra s
/-- SHLO (Table 7-6). -/
def execShlo (core : Core) (rd ra : Fin 32) (imm : BitVec 16) (s : State) : Res :=
  alu2 core (.shlo core rd ra imm) (fun a => (a <<< 16) ||| imm.zeroExtend 64) rd ra s
/-- The shifts of SHI (Table 7-6). -/
def shiShift (kind : Fin 3) (amt : Fin 64) (a : BitVec 64) : BitVec 64 :=
  match kind with
  | 0 => a <<< amt.val
  | 1 => a >>> amt.val
  | 2 => a.sshiftRight amt.val
/-- SHI (Table 7-6). -/
def execShi (core : Core) (rd ra : Fin 32) (kind : Fin 3) (amt : Fin 64) (s : State) : Res :=
  alu2 core (.shi core rd ra kind amt) (shiShift kind amt) rd ra s

/-! ### Branches and jumps (R176) -/

/-- The address of the branch plus 4 × OFF modulo 2^64; the core's pc is one instruction on. DEDUCED (log entry 98): a target before the
store's first byte thus stands outside the code region (R171). -/
def branchTarget (pc : Nat) (off : Int) : Nat := (((pc : Int) - 4 + 4 * off) % 2 ^ 64).toNat

def jumpTo (c : AwlCore) (off : Int) : AwlCore := { c with pc := branchTarget c.pc off }

/-- Branch if the condition on ra and rb holds. -/
def branch (core : Core) (i : Instr) (cond : BitVec 64 → BitVec 64 → Bool) (ra rb : Fin 32) (off : BitVec 16) (s : State) : Res :=
  awlReg core i (fun c => if cond (c.sreg ra) (c.sreg rb) then jumpTo c off.toInt else c) s

/-- BEQ (Table 7-6, R176). -/
def execBeq (core : Core) (ra rb : Fin 32) (off : BitVec 16) (s : State) : Res :=
  branch core (.beq core ra rb off) (fun a b => a == b) ra rb off s
/-- BNE (Table 7-6, R176). -/
def execBne (core : Core) (ra rb : Fin 32) (off : BitVec 16) (s : State) : Res :=
  branch core (.bne core ra rb off) (fun a b => a != b) ra rb off s
/-- BLT (Table 7-6, R176). -/
def execBlt (core : Core) (ra rb : Fin 32) (off : BitVec 16) (s : State) : Res :=
  branch core (.blt core ra rb off) (fun a b => a.slt b) ra rb off s
/-- BGE (Table 7-6, R176). -/
def execBge (core : Core) (ra rb : Fin 32) (off : BitVec 16) (s : State) : Res :=
  branch core (.bge core ra rb off) (fun a b => !a.slt b) ra rb off s
/-- BLTU (Table 7-6, R176). -/
def execBltu (core : Core) (ra rb : Fin 32) (off : BitVec 16) (s : State) : Res :=
  branch core (.bltu core ra rb off) (fun a b => a.ult b) ra rb off s
/-- BGEU (Table 7-6, R176). -/
def execBgeu (core : Core) (ra rb : Fin 32) (off : BitVec 16) (s : State) : Res :=
  branch core (.bgeu core ra rb off) (fun a b => !a.ult b) ra rb off s
/-- J (R176). -/
def execJ (core : Core) (off : BitVec 26) (s : State) : Res := awlReg core (.j core off) (fun c => jumpTo c off.toInt) s
/-- JAL: also s31 := pc + 4 (Table 7-6). -/
def execJal (core : Core) (off : BitVec 26) (s : State) : Res :=
  awlReg core (.jal core off) (fun c => jumpTo (c.setS 31 (BitVec.ofNat 64 c.pc)) off.toInt) s
/-- JALR: rd := pc + 4, pc := ra + IMM; a target that is no multiple of 4 faults with `AWL_ALIGN` (Tables 7-6, 7-15). -/
def execJalr (core : Core) (rd ra : Fin 32) (imm : BitVec 16) (s : State) : Res :=
  awlStep core (.jalr core rd ra imm) (fun s c =>
    let t := (c.sreg ra + imm.signExtend 64).toNat
    if t % 4 ≠ 0 then .fault s Code.AWL_ALIGN 0
    else .done s { c.setS rd (BitVec.ofNat 64 c.pc) with pc := t }) s

/-! ### Loads and stores (R165 to R167, R171) -/

/-- Where an address of a load or store lies (Table 7-1). -/
inductive DataAddr where
  | local (a : Nat)
  | bank (n a : Nat)
  | bad
  deriving DecidableEq, Repr

/-- Table 7-1 for core number k. -/
def dataAddr (k a n : Nat) : DataAddr :=
  let base := 0xF00010000000 + k / 8 * 0x01000000
  if a + n ≤ lsSize then .local a
  else if k < 128 ∧ base ≤ a ∧ a + n ≤ base + 0x01000000 then .bank ((a - base) / 0x200000) a
  else .bad

/-- Load n bytes and give them to `f`; an access is aligned to n bytes (R165), which is judged first (DEDUCED, log
entry 99). -/
def loadBytes (k : Nat) (a n : Nat) (s : State) (f : State → Bytes → AwlRes) : AwlRes :=
  if a % n ≠ 0 then .fault s Code.AWL_ALIGN 0 else
  match dataAddr k a n with
  | .bad => .fault s Code.AWL_ADDR 0
  | .local a =>
    match lsCheck s k a n with
    | (s, true) => .fault s Code.AWL_LS_ECC 0
    | (s, false) => f s ((getCore s k).lsBytes a n)
  | .bank b a =>
    if !bit (getCore s k).banks b then .fault s Code.AWL_BANK 0 else
    match memRead s (coreWho k) a n (coreCmdId s k) with
    | (s, .ok d) => f s d
    | (s, .fail code) => .fault s code 0
    | (s, .wait) => .stall s

/-- Store bytes; the code region is read-only to the core (R171). -/
def storeBytes (k : Nat) (a : Nat) (d : Bytes) (s : State) (c : AwlCore) : AwlRes :=
  if a % d.length ≠ 0 then .fault s Code.AWL_ALIGN 0 else
  match dataAddr k a d.length with
  | .bad => .fault s Code.AWL_ADDR 0
  | .local a => if a < c.codeLen then .fault s Code.AWL_ADDR 0 else .done s (c.lsSet a d)
  | .bank b a =>
    if !bit c.banks b then .fault s Code.AWL_BANK 0 else
    match memWrite s (coreWho k) a d (coreCmdId s k) with
    | (s, .ok _) => .done s c
    | (s, .fail code) => .fault s code 0
    | (s, .wait) => .stall s

/-- A scalar load of n bytes, widened by ext. -/
def scalarLoad (core : Core) (i : Instr) (n : Nat) (ext : Nat → BitVec 64) (rd ra : Fin 32) (imm : BitVec 16) (s : State) : Res :=
  awlStep core i (fun s c =>
    loadBytes (coreKey core) (c.sreg ra + imm.signExtend 64).toNat n s fun s d =>
      .done s ({ getCore s (coreKey core) with pc := c.pc }.setS rd (ext (leNat d)))) s

/-- A scalar store of the low n bytes of rd. -/
def scalarStore (core : Core) (i : Instr) (n : Nat) (rd ra : Fin 32) (imm : BitVec 16) (s : State) : Res :=
  awlStep core i (fun s c =>
    storeBytes (coreKey core) (c.sreg ra + imm.signExtend 64).toNat (leBytes n (c.sreg rd).toNat) s c) s

def sext64 (w v : Nat) : BitVec 64 := BitVec.ofInt 64 (sext w v)
def zext64 (v : Nat) : BitVec 64 := BitVec.ofNat 64 v

/-- LB (R165, R178). -/
def execLb (core : Core) (rd ra : Fin 32) (imm : BitVec 16) (s : State) : Res :=
  scalarLoad core (.lb core rd ra imm) 1 (sext64 8) rd ra imm s
/-- LBU (R165, R178). -/
def execLbu (core : Core) (rd ra : Fin 32) (imm : BitVec 16) (s : State) : Res :=
  scalarLoad core (.lbu core rd ra imm) 1 (zext64) rd ra imm s
/-- LH (R165, R178). -/
def execLh (core : Core) (rd ra : Fin 32) (imm : BitVec 16) (s : State) : Res :=
  scalarLoad core (.lh core rd ra imm) 2 (sext64 16) rd ra imm s
/-- LHU (R165, R178). -/
def execLhu (core : Core) (rd ra : Fin 32) (imm : BitVec 16) (s : State) : Res :=
  scalarLoad core (.lhu core rd ra imm) 2 (zext64) rd ra imm s
/-- LW (R165, R178). -/
def execLw (core : Core) (rd ra : Fin 32) (imm : BitVec 16) (s : State) : Res :=
  scalarLoad core (.lw core rd ra imm) 4 (sext64 32) rd ra imm s
/-- LWU (R165, R178). -/
def execLwu (core : Core) (rd ra : Fin 32) (imm : BitVec 16) (s : State) : Res :=
  scalarLoad core (.lwu core rd ra imm) 4 (zext64) rd ra imm s
/-- LD (R165, R178). -/
def execLd (core : Core) (rd ra : Fin 32) (imm : BitVec 16) (s : State) : Res :=
  scalarLoad core (.ld core rd ra imm) 8 (zext64) rd ra imm s
/-- SB (R165, R171). -/
def execSb (core : Core) (rd ra : Fin 32) (imm : BitVec 16) (s : State) : Res :=
  scalarStore core (.sb core rd ra imm) 1 rd ra imm s
/-- SH (R165, R171). -/
def execSh (core : Core) (rd ra : Fin 32) (imm : BitVec 16) (s : State) : Res :=
  scalarStore core (.sh core rd ra imm) 2 rd ra imm s
/-- SW (R165, R171). -/
def execSw (core : Core) (rd ra : Fin 32) (imm : BitVec 16) (s : State) : Res :=
  scalarStore core (.sw core rd ra imm) 4 rd ra imm s
/-- SD (R165, R171). -/
def execSd (core : Core) (rd ra : Fin 32) (imm : BitVec 16) (s : State) : Res :=
  scalarStore core (.sd core rd ra imm) 8 rd ra imm s
/-- VLD: 64 bytes at ra + 64 × IMM into vd (Table 7-6, R165). -/
def execVld (core : Core) (vd : Fin 16) (ra : Fin 32) (imm : BitVec 16) (s : State) : Res :=
  awlStep core (.vld core vd ra imm) (fun s c =>
    loadBytes (coreKey core) (c.sreg ra + (imm.signExtend 64) <<< 6).toNat 64 s fun s d =>
      .done s ({ getCore s (coreKey core) with pc := c.pc }.setV vd.val (bytesV d))) s
/-- VST: the 64 bytes of vd to ra + 64 × IMM (Table 7-6, R165). -/
def execVst (core : Core) (vd : Fin 16) (ra : Fin 32) (imm : BitVec 16) (s : State) : Res :=
  awlStep core (.vst core vd ra imm) (fun s c =>
    storeBytes (coreKey core) (c.sreg ra + (imm.signExtend 64) <<< 6).toNat (vBytes (c.vreg vd.val)) s c) s

end Sys2Proof.Machine
end

