-- ==== Sys2Proof/Machine/AwlVector.lean ====
section
/-! DEFINITION. The vector instructions (R180 to R183) and VCVT (R185, R186). -/

namespace Sys2Proof.Machine

/-! ### Lanes (R180, Table 7-8) -/

/-- Lane width in bits of an element type. -/
def etBits (et : Nat) : Nat := match et with | 0 => 8 | 1 => 16 | 2 => 32 | 4 => 16 | 5 => 16 | _ => 32
/-- The floating-point format of an element type. -/
def etFmt (et : Nat) : FFmt := match et with | 4 => fp16 | 5 => bf16 | _ => fp32

/-- Lane i of a register, and all lanes. -/
def vLane (et : Nat) (v : BitVec 512) (i : Nat) : Nat := bits v.toNat (i * etBits et) (etBits et)
def vLanes (et : Nat) (v : BitVec 512) : List Nat := (List.range (etLanes et)).map (vLane et v)
/-- A register from lanes of w bits, lowest first. -/
def ofLanes (w : Nat) : List Nat → Nat
  | [] => 0
  | x :: xs => x % 2 ^ w + 2 ^ w * ofLanes w xs
def vOf (et : Nat) (xs : List Nat) : BitVec 512 := BitVec.ofNat 512 (ofLanes (etBits et) xs)

/-- A lane result with the flags it raises in CSTAT. -/
abbrev LaneRes := Nat × Nat

/-- A floating-point lane operation under R84, R85 and the subnormal mode (R106, R107). -/
def fpLane2 (f : FFmt) (flush : Bool) (op : FVal → FVal → FVal) (a b : Nat) : LaneRes :=
  let (x, fx) := f.load flush a
  let (y, fy) := f.load flush b
  let (r, fr) := f.round flush (op x y)
  (r, flagIf (fx || fy || fr) stSubn)

def fpLane1 (f : FFmt) (flush : Bool) (op : FVal → FVal) (a : Nat) : LaneRes :=
  let (x, fx) := f.load flush a
  let (r, fr) := f.round flush (op x)
  (r, flagIf (fx || fr) stSubn)

/-- Integer lanes wrap modulo their width (R181). -/
def intLane (w : Nat) (v : Int) : LaneRes := (intBits w v, 0)

/-- A lane-wise operation of va and vb on vd, with its flags ORed into CSTAT. -/
def lanes2 (et : Fin 8) (op : Bool → Nat → Nat → LaneRes) (vd va vb : Fin 16) : AwlCore → AwlCore :=
  fun c =>
    let rs := (List.range (etLanes et.val)).map fun j => op c.subn (vLane et.val (c.vreg va.val) j) (vLane et.val (c.vreg vb.val) j)
    { c.setV vd.val (vOf et.val (rs.map (·.1))) with cstat := rs.foldl (fun (a : Nat) (r : Nat × Nat) => a ||| r.2) c.cstat }

/-- Before its first vector arithmetic, reduction or VCVT, a lean core that holds no increment requests 3 RP tokens and waits
(R174). -/
def leanGate (s : State) (c : AwlCore) (go : AwlRes) : AwlRes :=
  if c.lean && c.held == 0 then .wait s (.tok 3 true) else go

/-- A vector arithmetic instruction that changes the core alone. -/
def vecOp (core : Core) (i : Instr) (f : AwlCore → AwlCore) (s : State) : Res :=
  awlStep core i (fun s c => leanGate s c (.done s (f c))) s

/-- A vector instruction that is no arithmetic. -/
def vecMove (core : Core) (i : Instr) (f : AwlCore → AwlCore) (s : State) : Res := awlReg core i f s

/-- Lane-wise op with an integer and a floating-point form. -/
def arith2 (core : Core) (i : Instr) (et : Fin 8) (iop : Nat → Int → Int → Int) (fop : FVal → FVal → FVal) (vd va vb : Fin 16)
    (s : State) : Res :=
  vecOp core i (lanes2 et (fun flush a b =>
    if etFloat et.val then fpLane2 (etFmt et.val) flush fop a b
    else intLane (etBits et.val) (iop (etBits et.val) (sext (etBits et.val) a) (sext (etBits et.val) b))) vd va vb) s

/-- VADD (Table 7-9, R181). -/
def execVadd (core : Core) (et : Fin 8) (vd va vb : Fin 16) (s : State) : Res :=
  arith2 core (.vadd core et vd va vb) et (fun _ a b => a + b) FVal.add vd va vb s
/-- VSUB (Table 7-9, R181). -/
def execVsub (core : Core) (et : Fin 8) (vd va vb : Fin 16) (s : State) : Res :=
  arith2 core (.vsub core et vd va vb) et (fun _ a b => a - b) FVal.sub vd va vb s
/-- VMUL keeps the low half of integer products (Table 7-9, R181). -/
def execVmul (core : Core) (et : Fin 8) (vd va vb : Fin 16) (s : State) : Res :=
  arith2 core (.vmul core et vd va vb) et (fun _ a b => a * b) FVal.mul vd va vb s
/-- VMIN (Table 7-9). -/
def execVmin (core : Core) (et : Fin 8) (vd va vb : Fin 16) (s : State) : Res :=
  arith2 core (.vmin core et vd va vb) et (fun _ a b => if a ≤ b then a else b) FVal.min vd va vb s
/-- VMAX (Table 7-9). -/
def execVmax (core : Core) (et : Fin 8) (vd va vb : Fin 16) (s : State) : Res :=
  arith2 core (.vmax core et vd va vb) et (fun _ a b => if a ≤ b then b else a) FVal.max vd va vb s
/-- VADDS saturates (Table 7-9, R181). -/
def execVadds (core : Core) (et : Fin 8) (vd va vb : Fin 16) (s : State) : Res :=
  arith2 core (.vadds core et vd va vb) et (fun w a b => clampInt (-(2 ^ (w - 1))) (2 ^ (w - 1) - 1) (a + b)) FVal.add vd va vb s
/-- VSUBS saturates (Table 7-9, R181). -/
def execVsubs (core : Core) (et : Fin 8) (vd va vb : Fin 16) (s : State) : Res :=
  arith2 core (.vsubs core et vd va vb) et (fun w a b => clampInt (-(2 ^ (w - 1))) (2 ^ (w - 1) - 1) (a - b)) FVal.sub vd va vb s
/-- VDIV (Table 7-9, R181); floating point only. -/
def execVdiv (core : Core) (et : Fin 8) (vd va vb : Fin 16) (s : State) : Res :=
  arith2 core (.vdiv core et vd va vb) et (fun _ a _ => a) FVal.div vd va vb s

/-- VFMA: vd := vd + va × vb, one rounding in floating point (Table 7-9, R181). -/
def execVfma (core : Core) (et : Fin 8) (vd va vb : Fin 16) (s : State) : Res :=
  vecOp core (.vfma core et vd va vb) (fun c =>
    let rs := (List.range (etLanes et.val)).map fun j =>
      let d := vLane et.val (c.vreg vd.val) j
      let a := vLane et.val (c.vreg va.val) j
      let b := vLane et.val (c.vreg vb.val) j
      let w := etBits et.val
      if etFloat et.val then
        let f := etFmt et.val
        let (x, fx) := f.load c.subn d
        let (y, fy) := f.load c.subn a
        let (z, fz) := f.load c.subn b
        let (r, fr) := f.round c.subn (FVal.fma x y z)
        (r, flagIf (fx || fy || fz || fr) stSubn)
      else intLane w (sext w d + sext w a * sext w b)
    { c.setV vd.val (vOf et.val (rs.map (·.1))) with cstat := rs.foldl (fun (a : Nat) (r : Nat × Nat) => a ||| r.2) c.cstat }) s

/-- VFMAW: the FP32 pair vd := vd + va[i] × x, where x is bits [15:0] of scalar register X; one FP32 rounding (Table 7-9). -/
def execVfmaw (core : Core) (et : Fin 8) (vd va : Fin 16) (x : Fin 32) (s : State) : Res :=
  vecOp core (.vfmaw core et vd va x) (fun c =>
    let f := etFmt et.val
    let (xv, fx) := f.load c.subn ((c.sreg x).toNat % 65536)
    let rs := (List.range 32).map fun j =>
      let (a, fa) := f.load c.subn (vLane et.val (c.vreg va.val) j)
      let (d, fd) := fp32.load c.subn (vLane 6 (c.vreg (vd.val + j / 16)) (j % 16))
      let (r, fr) := fp32.round c.subn (FVal.fma d a xv)
      (r, flagIf (fx || fa || fd || fr) stSubn)
    let c := { c with cstat := rs.foldl (fun (a : Nat) (r : Nat × Nat) => a ||| r.2) c.cstat }
    let ns := rs.map (·.1)
    (c.setV vd.val (vOf 6 (ns.take 16))).setV (vd.val + 1) (vOf 6 (ns.drop 16))) s

/-- Lane-wise op of one operand. -/
def lanes1 (core : Core) (i : Instr) (et : Fin 8) (iop : Int → Int) (fop : Bool → FFmt → Nat → LaneRes) (vd va : Fin 16) (s : State) : Res :=
  vecOp core i (fun c =>
    let rs := (vLanes et.val (c.vreg va.val)).map fun a =>
      if etFloat et.val then fop c.subn (etFmt et.val) a else intLane (etBits et.val) (iop (sext (etBits et.val) a))
    { c.setV vd.val (vOf et.val (rs.map (·.1))) with cstat := rs.foldl (fun (a : Nat) (r : Nat × Nat) => a ||| r.2) c.cstat }) s

/-- VABS (Table 7-9): the integer VABS of the most negative value gives that value. -/
def execVabs (core : Core) (et : Fin 8) (vd va : Fin 16) (s : State) : Res :=
  lanes1 core (.vabs core et vd va) et (fun a => if a < 0 then -a else a) (fun fl f a => fpLane1 f fl FVal.abs a) vd va s
/-- VNEG (Table 7-9). -/
def execVneg (core : Core) (et : Fin 8) (vd va : Fin 16) (s : State) : Res :=
  lanes1 core (.vneg core et vd va) et (fun a => -a) (fun fl f a => fpLane1 f fl FVal.neg a) vd va s
/-- VSQRT, correctly rounded (Table 7-9). -/
def execVsqrt (core : Core) (et : Fin 8) (vd va : Fin 16) (s : State) : Res :=
  lanes1 core (.vsqrt core et vd va) et id (fun fl f a => fpLane1 f fl FVal.sqrt a) vd va s

/-- A transcendental lane: the special cases of R182 are fixed and NaN gives the canonical NaN; any other result is one of the
encodings within the bound of R182 (`ulps` in FP32, 1 elsewhere), which the constant `Config.transcend` of function, element type,
subnormal mode and operand selects (DEDUCED, log entry 5). -/
def transLane (fn ulps : Nat) (et : Nat) (special : FVal → Option FVal) (exact : FVal → FVal) (flush : Bool) (f : FFmt) (a : Nat) : LaneRes :=
  let (x, fx) := f.load flush a
  let fl := flagIf fx stSubn
  match x with
  | .nan => (f.nan, fl)
  | x =>
    match special x with
    | some v => ((f.round flush v).1, fl)
    | none =>
      let k := Config.transcend fn et flush (if fx then f.zero (bit a (f.eb + f.mb)) else a)
      let r := f.choose flush (if et = 6 then ulps else 1) (exact x) k
      (r.1, fl ||| flagIf r.2 stSubn)

/-- VEXP (R182). -/
def execVexp (core : Core) (et : Fin 8) (vd va : Fin 16) (s : State) : Res :=
  lanes1 core (.vexp core et vd va) et id
    (transLane 0 2 et.val (fun x => match x with | .inf true => some (.fin false 0 0) | .inf false => some (.inf false) | _ => none) FVal.expOf)
    vd va s
/-- VLOG (R182). -/
def execVlog (core : Core) (et : Fin 8) (vd va : Fin 16) (s : State) : Res :=
  lanes1 core (.vlog core et vd va) et id
    (transLane 1 2 et.val (fun x => if x.isZero then some (.inf true) else if x.isNeg then some .nan else
      match x with | .inf false => some (.inf false) | _ => none) FVal.logOf) vd va s
/-- VTANH (R182). -/
def execVtanh (core : Core) (et : Fin 8) (vd va : Fin 16) (s : State) : Res :=
  lanes1 core (.vtanh core et vd va) et id
    (transLane 2 3 et.val (fun x => match x with | .inf n => some (.fin n 1 0) | _ => none) FVal.tanhOf) vd va s
/-- VERF (R182). -/
def execVerf (core : Core) (et : Fin 8) (vd va : Fin 16) (s : State) : Res :=
  lanes1 core (.verf core et vd va) et id
    (transLane 3 3 et.val (fun x => match x with | .inf n => some (.fin n 1 0) | _ => none) FVal.erfOf) vd va s

/-! ### Bitwise, shifts, compares, selection -/

/-- VAND (Table 7-9). -/
def execVand (core : Core) (et : Fin 8) (vd va vb : Fin 16) (s : State) : Res :=
  vecOp core (.vand core et vd va vb) (fun c => c.setV vd.val (c.vreg va.val &&& c.vreg vb.val)) s
/-- VOR (Table 7-9). -/
def execVor (core : Core) (et : Fin 8) (vd va vb : Fin 16) (s : State) : Res :=
  vecOp core (.vor core et vd va vb) (fun c => c.setV vd.val (c.vreg va.val ||| c.vreg vb.val)) s
/-- VXOR (Table 7-9). -/
def execVxor (core : Core) (et : Fin 8) (vd va vb : Fin 16) (s : State) : Res :=
  vecOp core (.vxor core et vd va vb) (fun c => c.setV vd.val (c.vreg va.val ^^^ c.vreg vb.val)) s

/-- Shift each lane by X (Table 7-9, R181): an amount at or beyond the width gives 0 or copies of the sign. -/
def vShift (core : Core) (i : Instr) (et : Fin 8) (op : Nat → Nat → Nat) (vd va : Fin 16) (s : State) : Res :=
  vecOp core i (fun c => c.setV vd.val (vOf et.val ((vLanes et.val (c.vreg va.val)).map (op (etBits et.val))))) s

/-- VSHL (Table 7-9). -/
def execVshl (core : Core) (et : Fin 8) (vd va : Fin 16) (x : Fin 32) (s : State) : Res :=
  vShift core (.vshl core et vd va x) et (fun w a => if w ≤ x.val then 0 else a * 2 ^ x.val % 2 ^ w) vd va s
/-- VSHRL (Table 7-9). -/
def execVshrl (core : Core) (et : Fin 8) (vd va : Fin 16) (x : Fin 32) (s : State) : Res :=
  vShift core (.vshrl core et vd va x) et (fun w a => if w ≤ x.val then 0 else a / 2 ^ x.val) vd va s
/-- VSHRA (Table 7-9). -/
def execVshra (core : Core) (et : Fin 8) (vd va : Fin 16) (x : Fin 32) (s : State) : Res :=
  vShift core (.vshra core et vd va x) et (fun w a => intBits w (sext w a / 2 ^ x.val)) vd va s

/-- Compare lanes: all ones if true, else 0; a NaN compares false (Table 7-9). -/
def vCompare (core : Core) (i : Instr) (et : Fin 8) (iop : Int → Int → Bool) (fop : Ordering → Bool) (vd va vb : Fin 16)
    (s : State) : Res :=
  vecOp core i (lanes2 et (fun flush a b =>
    let w := etBits et.val
    if etFloat et.val then
      let f := etFmt et.val
      let (x, fx) := f.load flush a
      let (y, fy) := f.load flush b
      (if !x.isNan && !y.isNan && fop (x.cmp y) then 2 ^ w - 1 else 0, flagIf (fx || fy) stSubn)
    else (if iop (sext w a) (sext w b) then 2 ^ w - 1 else 0, 0)) vd va vb) s

/-- VCEQ (Table 7-9). -/
def execVceq (core : Core) (et : Fin 8) (vd va vb : Fin 16) (s : State) : Res :=
  vCompare core (.vceq core et vd va vb) et (fun a b => a == b) (fun o => o == .eq) vd va vb s
/-- VCLT (Table 7-9). -/
def execVclt (core : Core) (et : Fin 8) (vd va vb : Fin 16) (s : State) : Res :=
  vCompare core (.vclt core et vd va vb) et (fun a b => decide (a < b)) (fun o => o == .lt) vd va vb s
/-- VCLE (Table 7-9). -/
def execVcle (core : Core) (et : Fin 8) (vd va vb : Fin 16) (s : State) : Res :=
  vCompare core (.vcle core et vd va vb) et (fun a b => decide (a ≤ b)) (fun o => o != .gt) vd va vb s

/-- VSEL: vd[i] := va[i] if the lane vb[i] is not 0, else vd[i] (Table 7-9); a floating-point lane is 0 when its value is ±0
(DEDUCED, log entry 12). -/
def execVsel (core : Core) (et : Fin 8) (vd va vb : Fin 16) (s : State) : Res :=
  vecOp core (.vsel core et vd va vb) (fun c =>
    let pick (j : Nat) : Nat :=
      let b := vLane et.val (c.vreg vb.val) j
      let zero := if etFloat et.val then b % 2 ^ (etBits et.val - 1) == 0 else b == 0
      if zero then vLane et.val (c.vreg vd.val) j else vLane et.val (c.vreg va.val) j
    c.setV vd.val (vOf et.val ((List.range (etLanes et.val)).map pick))) s

/-! ### Moves -/

/-- VBCAST: every lane := the low bits of scalar register X (Table 7-9). -/
def execVbcast (core : Core) (et : Fin 8) (vd : Fin 16) (x : Fin 32) (s : State) : Res :=
  vecMove core (.vbcast core et vd x) (fun c => c.setV vd.val (vOf et.val (List.replicate (etLanes et.val) (c.sreg x).toNat))) s
/-- VEXT: scalar register X := lane L, zero-extended (Table 7-9). -/
def execVext (core : Core) (et : Fin 8) (va : Fin 16) (lane : BitVec 8) (x : Fin 32) (s : State) : Res :=
  vecMove core (.vext core et va lane x) (fun c => c.setS x (BitVec.ofNat 64 (vLane et.val (c.vreg va.val) lane.toNat))) s
/-- VINS: lane L of vd := the low bits of scalar register X (Table 7-9). -/
def execVins (core : Core) (et : Fin 8) (vd : Fin 16) (lane : BitVec 8) (x : Fin 32) (s : State) : Res :=
  vecMove core (.vins core et vd lane x) (fun c =>
    c.setV vd.val (vOf et.val ((vLanes et.val (c.vreg vd.val)).set lane.toNat ((c.sreg x).toNat % 2 ^ etBits et.val)))) s
/-- VMOV (Table 7-9). -/
def execVmov (core : Core) (et : Fin 8) (vd va : Fin 16) (s : State) : Res :=
  vecMove core (.vmov core et vd va) (fun c => c.setV vd.val (c.vreg va.val)) s
/-- VPERM: vd[i] := va[j], j byte i of vb modulo the lane count (Table 7-9). -/
def execVperm (core : Core) (et : Fin 8) (vd va vb : Fin 16) (s : State) : Res :=
  vecMove core (.vperm core et vd va vb) (fun c =>
    let n := etLanes et.val
    c.setV vd.val (vOf et.val ((List.range n).map fun i => vLane et.val (c.vreg va.val) (vLane 0 (c.vreg vb.val) i % n)))) s

/-! ### Reductions (R183) -/

/-- VRSUM: the exact integer sum, or the FP32 sum in ascending lane order (R183). -/
def execVrsum (core : Core) (et : Fin 8) (va : Fin 16) (x : Fin 32) (s : State) : Res :=
  vecOp core (.vrsum core et va x) (fun c =>
    let ls := vLanes et.val (c.vreg va.val)
    if etFloat et.val then
      let f := etFmt et.val
      let r := ls.foldl (fun (a : Option Nat × Nat) n =>
        let (v, fv) := f.load c.subn n
        match a.1 with
        | none => let (r, fr) := fp32.round c.subn v; (some r, a.2 ||| flagIf (fv || fr) stSubn)
        | some t => let (r, fr) := fp32.round c.subn ((fp32.decode t).add v); (some r, a.2 ||| flagIf (fv || fr) stSubn)) (none, 0)
      { c.setS x (BitVec.ofNat 64 (r.1.getD 0)) with cstat := c.cstat ||| r.2 }
    else c.setS x (BitVec.ofInt 64 (ls.foldl (fun a n => a + sext (etBits et.val) n) 0))) s

/-- The largest or smallest lane: integers signed and sign-extended, floating point as an FP32 encoding, NaN if any lane is NaN
(R183). -/
def vReduce (core : Core) (i : Instr) (et : Fin 8) (iop : Int → Int → Int) (fop : FVal → FVal → FVal) (va : Fin 16) (x : Fin 32)
    (s : State) : Res :=
  vecOp core i (fun c =>
    let ls := vLanes et.val (c.vreg va.val)
    if etFloat et.val then
      let vs := ls.map ((etFmt et.val).load c.subn)
      let r := vs.tail.foldl (fun a v => fop a v.1) (vs.headD (.nan, false)).1
      let (n, fr) := fp32.round c.subn r
      { c.setS x (BitVec.ofNat 64 n) with cstat := c.cstat ||| flagIf (fr || vs.any (·.2)) stSubn }
    else
      let vs := ls.map (sext (etBits et.val))
      c.setS x (BitVec.ofInt 64 (vs.tail.foldl iop (vs.headD 0)))) s

/-- VRMAX (R183). -/
def execVrmax (core : Core) (et : Fin 8) (va : Fin 16) (x : Fin 32) (s : State) : Res :=
  vReduce core (.vrmax core et va x) et (fun a b => if a ≤ b then b else a) FVal.max va x s
/-- VRMIN (R183). -/
def execVrmin (core : Core) (et : Fin 8) (va : Fin 16) (x : Fin 32) (s : State) : Res :=
  vReduce core (.vrmin core et va x) et (fun a b => if a ≤ b then a else b) FVal.min va x s

/-- VAMAX: fold the finite lanes' magnitudes into AMAX; a NaN or infinite lane is left out and sets CSTAT bit 5 (R183). -/
def execVamax (core : Core) (et : Fin 8) (va : Fin 16) (s : State) : Res :=
  vecOp core (.vamax core et va) (fun c =>
    (vLanes et.val (c.vreg va.val)).foldl (fun (c : AwlCore) n =>
      let (v, fv) := (etFmt et.val).load c.subn n
      let c := { c with cstat := c.cstat ||| flagIf fv stSubn }
      if v.isFinite then { c with amax := fp32MaxMag c.amax (fp32.round false v.abs).1 }
      else { c with cstat := c.cstat ||| stNonfiniteAmax }) c) s

/-! ### VCVT (R185, R186) -/

/-- The allowed pairs of R185. -/
def vcvtPair (d sf : Fmt) : Bool :=
  (d != sf && !d.isDq && !sf.isDq) || (sf.isDq && d.float.isSome) || (sf.float.isSome && d.isDq)

/-- The bytes of an operand (Table 7-11): one register, or a pair. -/
def vcvtSrc (c : AwlCore) (va : Nat) : Bytes := vBytes (c.vreg va) ++ vBytes (c.vreg (va + 1))

/-- CVSCALE as an operand in the core's subnormal mode, with its notice (R106, R107). -/
def AwlCore.scale (c : AwlCore) : FVal × Nat := let (v, fl) := fp32.load c.subn c.cvscale; (v, flagIf fl stSubn)

/-- One element that is no DQ destination, with its notices. -/
def vcvtElem (c : AwlCore) (rm : Nat) (d sf : Fmt) (code raw i : Nat) : Nat × Nat :=
  let (cv, gc) := c.scale
  let rnd : Rnd := if rm = 1 then some (srBits c.srseed (c.sridx + BitVec.ofNat 64 i)) else none
  match sf.float, d.float with
  | some f, some g =>
    let (v, fv) := f.load c.subn raw
    let (n, fl) := narrowF g c.subn rnd v
    (n, fl ||| flagIf fv stSubn)
  | some f, none =>
    let (v, fv) := f.load c.subn raw
    let (y, fy) := scaleTo fp32 v cv
    let (q, fq) := narrowI d (fp32.decode y)
    (intBits d.bits q, fy ||| fq ||| gc ||| flagIf fv stSubn)
  | none, some g =>
    if sf.isDq then
      if code = 0 then (g.zero false, 0)
      else if code = 0xFF then (g.nan, stInvalid)
      else let (n, fl) := scaleTo g (blockElem code (sext sf.bits raw)) cv; (n, fl ||| gc)
    else let (n, fl) := scaleTo g (FVal.ofInt (sext sf.bits raw)) cv; (n, fl ||| gc)
  | none, none =>
    let v := sext sf.bits raw
    let lo := match d with | .int16 => -(2 ^ 15) | .int32 => -(2 ^ 31) | d => -d.qmax
    let q := clampInt lo d.qmax v
    (intBits d.bits q, flagIf (q != v) stIntSat)

/-- The converted bytes, the flags, and the dominated blocks. -/
def vcvtBytes (c : AwlCore) (rm : Nat) (d sf : Fmt) (va : Nat) : Bytes × Nat × Nat :=
  let src := vcvtSrc c va
  let code := if sf.isDq then field src 0 1 else 0
  let src := if sf.isDq then src.drop 1 else src
  let raws := (List.range 32).map (packedGet sf.bits src)
  if d.isDq then
    match sf.float with
    | some f =>
      let ls := raws.map (f.load c.subn)
      let vs := ls.map (·.1)
      let (cv, gc) := c.scale
      let ys := vs.map fun v => scaleTo fp32 v cv
      let fl := ys.foldl (fun a y => a ||| y.2) (gc ||| flagIf (ls.any (·.2)) stSubn)
      let rnd (i : Nat) : Rnd := if rm = 1 then some (srBits c.srseed (c.sridx + BitVec.ofNat 64 i)) else none
      let b := storeBlock d vs (ys.map fun y => fp32.decode y.1) rnd fl
      (BitVec.ofNat 8 b.code :: pack d.bits (b.elems.map (intBits d.bits)), b.flags, if b.dominated then 1 else 0)
    | none => ([], 0, 0)
  else
    let rs := (raws.zip (List.range 32)).map fun p => vcvtElem c rm d sf code p.1 p.2
    (pack d.bits (rs.map (·.1)), rs.foldl (fun a r => a ||| r.2) 0, 0)

/-- VCVT (R185, R186): 32 elements from SFMT in va to DFMT in vd; every flag it raises is set in CSTAT, and a stochastic VCVT
advances SRIDX by 32. -/
def execVcvt (core : Core) (vd va : Fin 16) (rm : Fin 2) (dfmt sfmt : BitVec 8) (s : State) : Res :=
  awlStep core (.vcvt core vd va rm dfmt sfmt) (fun s c =>
    match Fmt.ofCode dfmt.toNat, Fmt.ofCode sfmt.toNat with
    | some d, some sf =>
      if !vcvtPair d sf then .fault s Code.FMT_PAIR 0
      else if rm.val = 1 ∧ d ≠ .bf16 ∧ !d.isDq then .fault s Code.FMT_ROUND 0
      else
        leanGate s c
          (let r := vcvtBytes c rm.val d sf va.val
           let b := r.1 ++ zeros (128 - r.1.length)
           let c := { c with cstat := c.cstat ||| r.2.1, domcnt := c.domcnt + r.2.2,
                             sridx := if rm.val = 1 then c.sridx + 32 else c.sridx }
           let c := c.setV vd.val (bytesV b)
           .done s (if d.bits = 32 then c.setV (vd.val + 1) (bytesV (b.drop 64)) else c))
    | _, _ => .fault s Code.FMT_RESERVED 0) s

end Sys2Proof.Machine
end

