-- ==== Sys2Proof/Machine/Clip.lean ====
section
/-! DEFINITION. What a decoder makes of a clip (R336 to R352): the pictures that it decodes and drops, the damage map, concealment, and
the samples of its output pictures. What the standards say of a stream comes from the constants of Config (DEDUCED, log entry 6). -/

namespace Sys2Proof.Machine

/-- What identifies a decode: header buffer, clip, film grain, and the number of output pictures after which it stops. -/
def clipQuery (hdr bs : Bytes) (grain : Bool) (stop : Nat) : Bytes :=
  leBytes 8 hdr.length ++ hdr ++ bs ++ leBytes 1 (if grain then 1 else 0) ++ leBytes 8 stop

/-- FILM_GRAIN of a query, and the query without it. -/
def clipGrain (q : Bytes) : Bool := q.getD (q.length - 9) 0 != 0
def clipPlain (q : Bytes) : Bytes := q.set (q.length - 9) 0

/-- Properties of a decode, by number. DEDUCED (log entry 6). -/
def clipOutcome (std : Nat) (q : Bytes) : Nat := Config.streamProp std q 0 % 3
def clipW (std : Nat) (q : Bytes) : Nat := Config.streamProp std q 1
def clipH (std : Nat) (q : Bytes) : Nat := Config.streamProp std q 2
def clipDepth (std : Nat) (q : Bytes) : Nat := if std = 1 then 8 else 8 + Config.streamProp std q 3 % 3
def clipChroma (std : Nat) (q : Bytes) : Nat := Config.streamProp std q 4 % 3
def clipDpb (std : Nat) (q : Bytes) : Nat := if std = 1 then 2 else if std = 4 then 8 else Config.streamProp std q 5
/-- Left, top, width and height of the display window in the coded picture. -/
def clipWin (std : Nat) (q : Bytes) (k : Nat) : Nat := Config.streamProp std q (16 + k)
/-- Coded pictures that the decoder parses before it stops (R347). -/
def clipCoded (std : Nat) (q : Bytes) : Nat := Config.streamProp std q 7
/-- Width and height of the grid of 16 × 16 luma blocks. -/
def clipCols (std : Nat) (q : Bytes) : Nat := ceilDiv (clipW std q) 16
def clipRows (std : Nat) (q : Bytes) : Nat := ceilDiv (clipH std q) 16

/-- The picture is dropped: its header is broken, or every unit of it is lost (Table 13-7). -/
def clipDrops (std : Nat) (q : Bytes) (k : Nat) : Bool :=
  let p := Config.codedPicture std q k
  p.headerBroken || (decide (0 < p.units) && (List.range p.units).all p.broken.contains)

/-- The pictures that are decoded, in decode order: the others are neither output nor used as a reference. -/
def clipDecoded (std : Nat) (q : Bytes) : List Nat := (List.range (clipCoded std q)).filter fun k => !clipDrops std q k

/-- The output pictures, as coded pictures (R347). -/
def clipShown (std : Nat) (q : Bytes) : List Nat := (Config.shown std q).filter (clipDecoded std q).contains
def clipOutputs (std : Nat) (q : Bytes) : Nat := (clipShown std q).length

/-! ### The damage map (R350 to R352) -/

/-- The present field of a picture whose other field is missing: MPEG-2 and H.264 only (R348). -/
def clipField (std : Nat) (q : Bytes) (k : Nat) : Option Bool := if 3 ≤ std then none else (Config.codedPicture std q k).oneField

/-- The block lies in a unit with a syntax error, so it is concealed (R350). -/
def clipLost (std : Nat) (q : Bytes) (k x y : Nat) : Bool :=
  (Config.codedPicture std q k).broken.contains (Config.codedBlock std q k x y).unit

/-- The damage maps of the pictures decoded so far: picture, and the codes of its blocks row by row. -/
abbrev DamageMaps := List (Nat × List Nat)

def DamageMaps.codes (m : DamageMaps) (k : Nat) : Option (List Nat) := (m.find? fun e => e.1 == k).map (·.2)

/-- Codes before propagation: 2 for a repeated field or a fill, 1 for a copy (R348, R351). -/
def ownCode (std : Nat) (q : Bytes) (before : DamageMaps) (k x y : Nat) : Nat :=
  if (clipField std q k).isSome then 2
  else if clipLost std q k x y then (if before.isEmpty then 2 else 1)
  else 0

/-- One round of propagation (R352): an intact block whose prediction reads a block of another code, or a picture that is not among
those decoded before (a substituted reference), takes code 3. -/
def spread (std : Nat) (q : Bytes) (before : DamageMaps) (k : Nat) (codes : List Nat) : List Nat :=
  let cols := clipCols std q
  (List.range codes.length).map fun i =>
    let c := codes.getD i 0
    if c ≠ 0 then c
    else if (Config.codedBlock std q k (i % cols) (i / cols)).reads.any fun r =>
        let at_ := r.2.2 * cols + r.2.1
        if r.1 = k then codes.getD at_ 0 != 0
        else match before.codes r.1 with
          | some m => m.getD at_ 0 != 0
          | none => true
      then 3
    else 0

/-- The damage map of a picture: propagation goes on until every block has met every other. -/
def pictureCodes (std : Nat) (q : Bytes) (before : DamageMaps) (k : Nat) : List Nat :=
  let cols := clipCols std q
  let n := cols * clipRows std q
  (List.range n).foldl (fun codes _ => spread std q before k codes) ((List.range n).map fun i => ownCode std q before k (i % cols) (i / cols))

/-- The damage maps of a clip's decoded pictures. -/
def damageMaps (std : Nat) (q : Bytes) : DamageMaps :=
  (clipDecoded std q).foldl (fun m k => m ++ [(k, pictureCodes std q m k)]) []

/-- The damage code of a 16 × 16 block of output picture i (R351). -/
def clipCode (std : Nat) (q : Bytes) (i bx by_ : Nat) : Nat :=
  let q := clipPlain q
  (((damageMaps std q).codes ((clipShown std q).getD i 0)).getD []).getD (by_ * clipCols std q + bx) 0

/-! ### Samples and concealment (R351) -/

def medianInt (a b c : Int) : Int := max (min a b) (min (max a b) c)

/-- The vector of a concealed block, in eighths of a luma sample: from its left, above and above-right neighbours that are intact
and inter-coded. -/
def copyVector (std : Nat) (q : Bytes) (m : DamageMaps) (k x y : Nat) : Int × Int :=
  let cols := clipCols std q
  let usable (p : Nat × Nat) : Bool :=
    decide (p.1 < cols) && ((m.codes k).getD []).getD (p.2 * cols + p.1) 0 == 0 && (Config.codedBlock std q k p.1 p.2).inter
  let around := ((if x = 0 then [] else [(x - 1, y)]) ++ (if y = 0 then [] else [(x, y - 1), (x + 1, y - 1)])).filter usable
  let v (p : Nat × Nat) : Int × Int := let b := Config.codedBlock std q k p.1 p.2; (b.vx, b.vy)
  match around with
  | [a, b, c] => (medianInt (v a).1 (v b).1 (v c).1, medianInt (v a).2 (v b).2 (v c).2)
  | a :: _ => v a
  | [] => (0, 0)

/-- Luma samples that a sample of a plane covers, across and down. -/
def planeStep (chroma p : Nat) : Nat × Nat := if p = 0 then (1, 1) else (2, if chroma = 1 then 2 else 1)

/-- A sample of the first of a list of decoded pictures, the latest first: as coded, with a missing field repeated (R348), or concealed
by a copy from the picture before it or by a fill (R351). -/
def sampleOf (std : Nat) (q : Bytes) (m : DamageMaps) : List Nat → Nat → Nat → Nat → Nat
  | [], _, _, _ => 0
  | k :: before, p, row, col =>
    let d := clipDepth std q
    let row := match clipField std q k with
      | none => row
      | some bottom => row / 2 * 2 + if bottom then 1 else 0
    let (sx, sy) := planeStep (clipChroma std q) p
    let bx := col * sx / 16
    let by_ := row * sy / 16
    if clipLost std q k bx by_ then
      if before.isEmpty then 2 ^ (d - 1)
      else
        let (vx, vy) := copyVector std q m k bx by_
        if vx % (8 * sx) = 0 ∧ vy % (8 * sy) = 0 then
          let clamp (n size : Nat) (v : Int) (step : Nat) : Nat := (clampInt 0 (ceilDiv size step - 1) (n + v / (8 * step))).toNat
          sampleOf std q m before p (clamp row (clipH std q) vy sy) (clamp col (clipW std q) vx sx)
        else Config.copied std q k p row col % 2 ^ d
    else Config.decoded std q k p row col % 2 ^ d

/-- A sample of output picture i, plane p (0 to 2), in the coded picture; with FILM_GRAIN, AV1's grain is applied to it (R338). -/
def clipSample (std : Nat) (q : Bytes) (i p row col : Nat) : Nat :=
  let q0 := clipPlain q
  let k := (clipShown std q0).getD i 0
  let v := sampleOf std q0 (damageMaps std q0) ((clipDecoded std q0).filter fun j => decide (j ≤ k)).reverse p row col
  if std = 4 ∧ clipGrain q then Config.filmGrain q i p row col v % 2 ^ clipDepth std q else v

end Sys2Proof.Machine
end

