-- ==== Sys2Proof/Machine/Ready.lean ====
section
/-! DEFINITION. When a decoded command is ready (R155), and the queues that it names (R139, R156, R157). -/

namespace Sys2Proof.Machine

/-- No earlier command of the same stream that a test selects is still held (R155). -/
def noEarlier (s : State) (h : Nat) (c : Cmd) (p : Cmd → Bool) : Bool :=
  !(getDisp s h).cmds.any fun x => x.ticket == c.ticket && x.recompute == c.recompute && decide (x.pos < c.pos) && p x

/-- WAIT_COMMIT (R155). -/
def commitMet (s : State) (c : Cmd) : Bool :=
  c.step == 0 ||
  match findTicket s c.ticket with
  | none => false
  | some t =>
    if t.prog.training then decide (c.step ≤ t.steps)
    else (List.range 16).all fun g =>
      let d := getDisp s g
      !d.cmds.any (fun x => x.ticket == c.ticket && decide (x.step < c.step)) &&
      !d.cursors.any fun x => x.ticket == c.ticket && !x.ended && decide (x.step < c.step)

/-- The queues let a command pop and reserve (R155, R156). -/
def queuesMet (s : State) (h : Nat) (c : Cmd) : Bool :=
  let pops := popRefs c
  pops.all (fun p =>
    let q := (getDisp s h).queue p.2
    queueFor q c.ticket && decide ((pops.filter fun x => x.2 == p.2).length ≤ q.entries.length)) &&
  match putQueue c with
  | none => true
  | some (g, q) => let x := (getDisp s g).queue q; queueFor x c.ticket && decide (x.entries.length + x.reserved < 16)

/-- The conditions of R155. -/
def readyMet (s : State) (h : Nat) (c : Cmd) : Bool :=
  let back := c.fld 7 1
  (back == 0 || noEarlier s h c fun x => x.pos + back == c.pos) &&
  (!c.waitAll || noEarlier s h c fun _ => true) &&
  (!c.waitCommit || commitMet s c) && queuesMet s h c

end Sys2Proof.Machine
end

