-- ==== Sys2Proof/Machine/Stash.lean ====
section
/-! DEFINITION. The activation stash (R262 to R271, R275, R278): placement, waiting PUTs, deadlock, copies back, recompute segments. -/

namespace Sys2Proof.Machine

/-! ### Quotas and arenas (R265, R278) -/

/-- The quota set of a program (R263). -/
def quotaOf (s : State) (prog : Nat) : Option Nat := (List.range 16).find? fun n => prog != 0 && rd s (F.SBG_PQ_PROGRAM_ID n) == prog

/-- The pages of the near arena behind the directory, or of the far arenas: addresses / 65,536. -/
def arena (s : State) (far : Bool) : List Nat :=
  if far then (List.range 4).flatMap fun n => (List.range (rd s (F.SBG_FAR_SIZE_64K n))).map (rd s (F.SBG_FAR_BASE_64K n) + ·)
  else
    let dir := ceilDiv (rd s F.SBG_CFG_DIR_1K * 32768) 65536
    (List.range (rd s F.SBG_NEAR_SIZE_64K - dir)).map (rd s F.SBG_NEAR_BASE_64K + dir + ·)

/-- Those of them that hold no entry. -/
def freeArena (s : State) (far : Bool) : List Nat :=
  let used := s.stash.flatMap (·.places)
  (arena s far).filter fun p => !used.contains p

/-- n pages of a list, or all of a list that has no more: which of them the spec does not show (R262). DESIGN CHOICE (log entry 33). -/
def drawPages (s : State) : Nat → List Nat → List Nat × State
  | 0, _ => ([], s)
  | n + 1, ps =>
    if ps.length ≤ n + 1 then (ps, s) else
    let (x, s) := takeFree s
    let p := ps.getD (x % ps.length) 0
    let (qs, s) := drawPages s n (ps.erase p)
    (p :: qs, s)

/-- Where a PUT goes (R265): near, far, dropped, or it waits. -/
inductive Place where
  | near | far | drop | wait
  deriving DecidableEq, Repr

def place (s : State) (q need : Nat) (eligible : Bool) : Place :=
  let fits (far : Bool) (mib : Nat) : Bool := decide (setPages s q far + need ≤ mib * 16) && decide (need ≤ (freeArena s far).length)
  if rd s F.SBG_CFG_DIR_1K * 1024 ≤ s.stash.length then .wait
  else if fits false (rd s (F.SBG_PQ_NEAR_MIB q)) then .near
  else if eligible && rd s (F.SBG_PQ_ELIG_FAR q) == 0 then .drop
  else if fits true (rd s (F.SBG_PQ_FAR_MIB q)) then .far
  else if eligible then .drop else .wait

/-- Two entries are the same: of one key, freed or not (R262, R271). -/
def sameEntry (a b : StashEntry) : Bool := a.ticket == b.ticket && a.id == b.id && a.micro == b.micro && a.gone == b.gone && a.readers == b.readers

/-! ### The bytes of an entry (R264) -/

/-- Line bytes of an entry (R264). -/
def stashLine (fmt size0 : Nat) : Nat := if fmt = 0x21 then ceilDiv size0 32 * 33 else if fmt = 0x20 then ceilDiv size0 32 * 17 else size0 * 2

/-- An entry's bytes as a tensor that begins at address 0: lines one after another, DQ blocks INTERLEAVED along dim 0 (R264). -/
def StashEntry.desc (e : StashEntry) : Desc :=
  { base := 0, fmt := e.fmt, rank := 2, layout := 0, blockDim := 0, sliced := false, sizes := [e.size0, e.rows],
    strides := [0, stashLine e.fmt e.size0], scalePtr := 0, expBase := 0 }

/-- Where the bytes o .. o+n-1 of an entry lie: address and length, page by page (R262, R264). -/
def StashEntry.spans (e : StashEntry) (o n : Nat) : List (Nat × Nat) :=
  if n = 0 then [] else
  (List.range ((o + n - 1) / 65536 + 1 - o / 65536)).map fun i =>
    let j := o / 65536 + i
    let lo := max o (j * 65536)
    (e.places.getD j 0 * 65536 + (lo - j * 65536), min (o + n) ((j + 1) * 65536) - lo)

/-- Write the bytes of ranges, one after another. -/
def pokeSpans (s : State) : List (Nat × Nat) → Bytes → State
  | [], _ => s
  | (a, n) :: rs, d => pokeSpans (poke s a (d.take n)) rs (d.drop n)

/-- Read the bytes of ranges, one after another, as a dispatcher. -/
def readSpans (s : State) (h : Nat) (cmd : Option CmdId) : List (Nat × Nat) → State × Req Bytes
  | [] => (s, .ok [])
  | (a, n) :: rs =>
    match memRead s (idDisp h) a n cmd with
    | (s, .ok d) =>
      match readSpans s h cmd rs with
      | (s, .ok ds) => (s, .ok (d ++ ds))
      | r => r
    | r => r

/-- Near-tier sectors of a range that a memory die's controllers serve. -/
def dieSectors (d : Nat) (r : Nat × Nat) : Nat :=
  if r.2 = 0 then 0 else
  (List.range ((r.1 + r.2 - 1) / 2048 + 1 - r.1 / 2048)).foldl (fun n i =>
    let g := r.1 / 2048 + i
    let lo := max r.1 (g * 2048)
    let hi := min (r.1 + r.2) ((g + 1) * 2048)
    if dieOf (controllerOf (g * 2048)) = d then n + (ceilDiv hi 64 - lo / 64) else n) 0

/-- Sectors of stash traffic are counted on the memory die of each controller; those of the far tier split over the two dies in a way that
the spec does not show (R19; DESIGN CHOICE, log entry 34). -/
def stashCount (s : State) (k : Nat) (far : Bool) (rs : List (Nat × Nat)) : State :=
  if far then
    let n := rs.foldl (fun a r => a + (ceilDiv (r.1 + r.2) 64 - r.1 / 64)) 0
    let (x, s) := takeFree s
    cntMem (cntMem s 0 k (x % (n + 1))) 1 k (n - x % (n + 1))
  else
    let n (d : Nat) : Nat := rs.foldl (fun a r => a + dieSectors d r) 0
    cntMem (cntMem s 0 k (n 0)) 1 k (n 1)

/-! ### STASH_PUT (R263 to R267) -/

def spSrc (s : State) (c : Cmd) : Opnd := c.opnd s 0x10 (c.fld 0x14 2) true
def spFmt (c : Cmd) : Nat := c.fld 0x19 1
def spEligible (c : Cmd) : Bool := bit (c.fld 0x1A 1) 0
def cmdProg (s : State) (c : Cmd) : Nat := match findTicket s c.ticket with | some t => t.prog.id | none => 0

/-- STASH_PUT's checks (R263, R275): the code, or 0, and the increment. -/
def checkStashPut (s : State) (h : Nat) (c : Cmd) : Nat × Nat :=
  let o := spSrc s c
  let d := o.desc
  let dq := decide (0x20 ≤ d.fmt)
  (firstCode [
    codeIf (maskBad c false false false true) Code.CMD_UNITS,
    codeIf (isEvalTicket s c || !(spFmt c == 0x11 || spFmt c == 0x20 || spFmt c == 0x21) || decide (2 ≤ c.fld 0x1A 1) || !rsvdZero c.raw 0x1B 37)
      Code.STASH_FORMAT,
    codeIf (c.outValid) Code.CMD_FORMAT,
    codeIf (quotaOf s (cmdProg s c)).isNone Code.STASH_NOQUOTA,
    o.code,
    if o.isLater || d.rank == 0 then 0 else
      codeIf (d.fmt ≤ 0x04 || (dq && (d.fmt != spFmt c || d.blockDim != 0))) Code.STASH_FORMAT,
    codeIf (foreignBank s h [d]) Code.OWNER_FAULT,
    codeIf (bankMissing s h c [d]) Code.CMD_UNITS], popcount c.bankMask 8)

/-- A piece of an entry as the store path leaves it: its bytes, its notices, and whether it is a dominated block (R264). -/
structure StashPiece where
  bytes : Bytes
  stat : Nat
  dominated : Bool
  deriving DecidableEq, Repr

/-- A block as an entry holds it: exponent code and 32 elements, those beyond the extent zero (R88, R89). -/
def blockBytes (f : Fmt) (code : Nat) (elems : List Nat) : Bytes :=
  BitVec.ofNat 8 code :: pack f.bits ((elems ++ List.replicate 32 0).take 32)

/-- The pieces of an entry, in the order of its bytes: whole blocks, or elements (R264). -/
def narrowEntry (s : State) (c : Cmd) (d : Desc) : List StashPiece :=
  let n := d.size 0
  let rows := d.rowIx.zip (List.range d.rowIx.length)
  let blocks (k : List Nat × Nat → Nat → StashPiece) : List StashPiece :=
    rows.flatMap fun r => (List.range (ceilDiv n 32)).map fun b => k r b
  match d.format, Fmt.ofCode (spFmt c) with
  | some f, some g =>
    if f.isDq then blocks fun r b =>
      let code := d.expCode s f (r.1.set 0 (32 * b))
      { bytes := blockBytes f code ((List.range (min 32 (n - 32 * b))).map fun j => d.rawElem s f (r.1.set 0 (32 * b + j)))
        stat := flagIf (code == 0xFF) stInvalid, dominated := false }
    else
      let val (ix : List Nat) (k : Nat) : FVal × Nat := scaledElem s c.subn d (ix.set 0 k)
      if g.isDq then blocks fun r b =>
        let xs := (List.range (min 32 (n - 32 * b))).map fun j => val r.1 (32 * b + j)
        let vs := xs.map (·.1)
        let blk := storeBlock g vs vs (fun j => cmdRnd s c (n * r.2 + 32 * b + j)) (xs.foldl (fun a x => a ||| x.2) 0)
        { bytes := blockBytes g blk.code (blk.elems.map (intBits g.bits)), stat := blk.flags, dominated := blk.dominated }
      else rows.flatMap fun r => (List.range n).map fun k =>
        let (v, a) := val r.1 k
        let (x, b) := narrowF Machine.bf16 c.subn (cmdRnd s c (n * r.2 + k)) v
        { bytes := leBytes 2 x, stat := a ||| b, dominated := false }
  | _, _ => []

/-- A Saddlebag engine that acts for no address, since an entry has none or is not there (DESIGN CHOICE, log entry 34). -/
def saddleAny (s : State) : Nat × State := unitAt s U.saddle []

/-- A stash command fails where no address names an engine. -/
def saddleFail (s : State) (h : Nat) (c : Cmd) (code : Nat) : State :=
  let (u, s) := saddleAny s
  failRunning s h c u code

/-- An entry is placed on its pages, and its bytes go there (R264, R265). What a store to a page must wait for is held (R46); a store that fails
fails the command, and there is no entry (log entry 34). -/
def storeEntry (s : State) (h : Nat) (c : Cmd) (d : Desc) (e : StashEntry) : State :=
  let (u, s) := saddleOf s e
  let ps := narrowEntry s c d
  let rs := e.spans 0 (e.rows * stashLine e.fmt e.size0)
  let placed (s : State) : State :=
    let s := notices s h c u (ps.foldl (fun a p => a ||| p.stat) 0)
    let s := saddleCount s u 9 (ps.filter (·.dominated)).length
    let s := stashCount s 4 e.far rs
    let s := pokeSpans { s with stash := s.stash ++ [e] } rs (ps.flatMap (·.bytes))
    syncStash (updCmd s h c.seq fun x => { x with st := .working, phase := 0 })
  match touchWrites s (idDisp h) (some (cmdId s h c)) rs with
  | (s, .ok holes) => holdBack s (placed s) h c u holes
  | (s, .fail code) => failRunning s h c u code
  | (s, .wait) => s

/-- One placement decision of a PUT (R263, R265). -/
def placePut (s : State) (h : Nat) (c : Cmd) (d : Desc) : State :=
  let s := { s with stashWait := s.stashWait.filter (· != (h, c.seq)) }
  match quotaOf s (cmdProg s c) with
  | none => saddleFail (syncStash s) h c Code.STASH_NOQUOTA
  | some q =>
    if (findStash s c.ticket (c.fld 0x16 2) (c.fld 0x18 1)).isSome then saddleFail (syncStash s) h c Code.STASH_KEY else
    let rows := d.rowCount
    let need := ceilDiv (rows * stashLine (spFmt c) (d.size 0)) 65536
    let entry (st : Nat) (far : Bool) (ps : List Nat) : StashEntry :=
      { ticket := c.ticket, id := c.fld 0x16 2, micro := c.fld 0x18 1, fmt := spFmt c, size0 := d.size 0, rows := rows,
        step := c.step, st := st, quota := q, far := far, places := ps, cmd := (h, c.seq), gone := false, readers := [] }
    let draw (far : Bool) (s : State) : State :=
      let (ps, s) := drawPages s need (freeArena s far)
      storeEntry s h c d (entry 0 far ps)
    let cmd := some (cmdId s h c)
    match place s q need (spEligible c) with
    | .near => draw false s
    | .far =>
      let (u, s) := saddleAny s
      let s := wr (emberCode (ticketFlags s c.ticket 16) u Code.STASH_SPILL cmd) F.SBG_EVENT_SPILL 1
      draw true (saddleCount s u 6 1)
    | .drop =>
      let (u, s) := saddleAny s
      let s := wr (emberCode s u Code.STASH_DROP cmd) F.SBG_EVENT_DROP 1
      cmdDone (syncStash (saddleCount { s with stash := s.stash ++ [entry 3 false []] } u 7 1)) h c
    | .wait =>
      let (u, s) := saddleAny s
      let s := if c.phase = 1 then s else wr (emberCode s u Code.STASH_WAIT cmd) F.SBG_EVENT_WAIT 1
      let s := { s with stashWait := (s.stashWait ++ [(h, c.seq)]) }
      syncStash (updCmd s h c.seq fun x => { x with st := .working, phase := 1 })

/-- A dispatcher has stopped fetching for a ticket (R267): its window, or the ticket's share of it, is full, or its list has been
fetched. -/
def fetchStopped (s : State) (h key : Nat) : Bool :=
  let d := getDisp s h
  let win := d.cmds.filter fun c => !c.recompute
  let share := (win.filter fun c => c.ticket == key).length
  let eval := match findTicket s key with | some t => t.eval | none => false
  decide (256 ≤ win.length) || (eval && decide (64 ≤ share)) || !d.cursors.any fun c => c.ticket == key && !c.ended

/-- The conditions of R267. -/
def stashStuck (s : State) : Bool :=
  let waiting (h : Nat) (c : Cmd) : Bool := s.stashWait.contains (h, c.seq)
  let holders := s.stash.map (·.ticket)
  !s.stashWait.isEmpty &&
  (List.range 16).all (fun h => (getDisp s h).cmds.all fun c => waiting h c || (c.st == .decoded && !readyMet s h c)) &&
  (List.range 16).all (fun h => holders.all fun k => !(getDisp s h).cmds.any (·.ticket == k) || fetchStopped s h k) &&
  ((List.range 16) ++ [0x11, 0x12]).all fun f => fnState s f != fnSTOPPING && fnState s f != fnSTOPPED

/-- When the conditions hold, the PUT that has waited longest fails (R267). -/
def stashDeadlock (s : State) : State :=
  if !stashStuck s then s else
  match s.stashWait with
  | [] => s
  | (h, q) :: ws =>
    match findCmd s h q with
    | none => s
    | some c =>
      let num := match findTicket s c.ticket with | some t => t.num | none => 0
      let s := wr (wr (wr { s with stashWait := ws } F.SBG_EVENT_DEADLOCK 1) F.SBG_LAST_DEADLOCK_TICKET num) F.SBG_LAST_DEADLOCK_STASH_ID (c.fld 0x16 2)
      saddleFail (syncStash s) h c Code.STASH_DEADLOCK

/-- As `orFail`, where no address names an engine. -/
def orStash {α : Type} (h : Nat) (c : Cmd) (r : State × Req α) (k : State → α → State) : State :=
  let (u, s) := saddleAny r.1
  match r.2 with
  | .fail code => failRunning s h c u code
  | q => orFail h c u (r.1, q) k

/-- STASH_PUT (R263 to R267). -/
def execStashPut (h : Fin 16) (seq : BitVec 32) (s : State) : Res :=
  opRow h seq 0x30 s fun s c =>
    let d := (spSrc s c).desc
    orStash h c (readTensors s h c [d]) fun s _ => stashDeadlock (placePut s h c d)

/-- The last byte of an entry takes effect: it becomes NEAR or FAR and its PUT completes (R265). -/
def execStashStoreComplete (h : Fin 16) (seq : BitVec 32) (s : State) : Res :=
  if !isRun s then .next s else
  match s.stash.find? fun e => e.cmd == (h.val, seq.toNat) && e.st == 0 with
  | none => .next s
  | some e =>
    match findCmd s h seq.toNat with
    | none => .next s
    | some c =>
      if c.st ≠ .working ∨ heldFor s h c then .next s else
      let s := { s with stash := s.stash.map fun x => if sameEntry x e then { x with st := if e.far then 2 else 1 } else x }
      .next (syncRails (cmdDone s h c))

/-- A waiting PUT is retried; those that have waited longer come first (R266). -/
def execStashPutRetry (h : Fin 16) (seq : BitVec 32) (s : State) : Res :=
  if !unitLive s (U.disp h) then .next s else
  let older := s.stashWait.takeWhile (· != (h.val, seq.toNat))
  let placeable (w : Nat × Nat) : Bool :=
    match findCmd s w.1 w.2 with
    | none => false
    | some c =>
      match quotaOf s (cmdProg s c) with
      | none => true
      | some q =>
        let d := (spSrc s c).desc
        (findStash s c.ticket (c.fld 0x16 2) (c.fld 0x18 1)).isSome ||
          place s q (ceilDiv (d.rowCount * stashLine (spFmt c) (d.size 0)) 65536) (spEligible c) != .wait
  if !s.stashWait.contains (h.val, seq.toNat) || older.any placeable || !placeable (h.val, seq.toNat) then .next s else
  match findCmd s h seq.toNat with
  | none => .next s
  | some c =>
    let d := (spSrc s c).desc
    .next (orStash h c (readTensors s h c [d]) fun s _ => placePut s h c d)

/-! ### STASH_GET (R268 to R271) -/

def sgDst (s : State) (c : Cmd) : Opnd := c.opnd s 0x10 (c.fld 0x14 2) true
def sgCount (c : Cmd) : Nat := c.fld 0x20 2

/-- The entry that a GET reads: that of its key, or the one that it had started on when it was freed (R268, R271). -/
def getEntry (s : State) (h : Nat) (c : Cmd) : Option StashEntry :=
  match s.stash.find? fun e => e.gone && e.readers.contains (h, c.seq) with
  | some e => some e
  | none => findStash s c.ticket (c.fld 0x16 2) (c.fld 0x18 1)

/-- STASH_GET's checks (R102, R268, R275): the code, or 0, and the increment. The entry's format can be judged where the entry is there
already (DEDUCED, log entry 77). -/
def checkStashGet (s : State) (h : Nat) (c : Cmd) : Nat × Nat :=
  let o := sgDst s c
  let d := o.desc
  let len := match findTicket s c.ticket with | some t => t.prog.secLen | none => 0
  let absent := o.isLater || d.rank == 0
  let entry := match getEntry s h c with | some e => d.fmt == e.fmt | none => true
  (firstCode [
    codeIf (maskBad c false false false true) Code.CMD_UNITS,
    codeIf (isEvalTicket s c || decide (2 ≤ c.fld 0x19 1) || c.fld 0x1A 2 != 0 || c.fld 0x22 2 != 0 || !rsvdZero c.raw 0x2C 20 ||
      c.fld 0x1C 4 % 64 != 0 || decide (256 < sgCount c) || (sgCount c != 0 && decide (len < c.fld 0x1C 4 + 64 * sgCount c)) ||
      (c.recompute && sgCount c != 0)) Code.STASH_FORMAT,
    o.code,
    if absent then 0 else
      codeIf (!(d.fmt == 0x11 || d.fmt == 0x12 || ((d.fmt == 0x20 || d.fmt == 0x21) && entry)) || (decide (0x20 ≤ d.fmt) && d.blockDim != 0))
        Code.STASH_FORMAT,
    if absent then 0 else codeIf (roundBad c d) Code.FMT_ROUND,
    if absent then 0 else codeIf (c.fld 0x28 4 != 0 && d.rowCount != c.fld 0x28 4) Code.DESC_SHAPE,
    codeIf (selfOverlap s d) Code.DESC_ALIAS,
    codeIf (foreignBank s h [d]) Code.OWNER_FAULT,
    codeIf (bankMissing s h c [d]) Code.CMD_UNITS], popcount c.bankMask 8)

/-- An element, and the exponent code of its block, in the bytes that a GET read of an entry. -/
def entryElem (e : StashEntry) (f : Fmt) (b : Bytes) (row k : Nat) : Nat :=
  let (a, n, hi) := e.desc.elemAddr f [k, row]
  if f.bits = 4 then bits (field b a n) (4 * hi) 4 else field b a n
def entryCode (e : StashEntry) (f : Fmt) (b : Bytes) (row k : Nat) : Nat := field b (e.desc.expAddr f [k, row]) 1

/-- The value of an element of an entry, with its notices; a BF16 element is read in the command's subnormal mode (R86, R106). -/
def entryVal (e : StashEntry) (flush : Bool) (b : Bytes) (row k : Nat) : FVal × Nat :=
  match Fmt.ofCode e.fmt with
  | none => (FVal.ofInt 0, 0)
  | some f =>
    if f.isDq then
      let code := entryCode e f b row k
      (blockElem code (sext f.bits (entryElem e f b row k)), flagIf (code == 0xFF) stInvalid)
    else
      let (v, fl) := Machine.bf16.load flush (entryElem e f b row k)
      (v, flagIf fl stSubn)

/-- Widen a value of an entry to BF16 or FP32: a DQ element by R104, a BF16 element exactly (R269). -/
def widenTo (e : StashEntry) (ff : FFmt) (v : FVal) : Nat × Nat :=
  if 0x20 ≤ e.fmt then scaleTo ff v (FVal.ofInt 1) else ((ff.round false v).1, 0)

/-- Copy the rows that a GET read into its destination, and what it reports of them (R91, R105, R269). -/
def copyBack (s : State) (c : Cmd) (e : StashEntry) (d : Desc) (b : Bytes) : State × Report :=
  match d.format with
  | none => (s, Report.empty)
  | some f =>
    let mode : StoreMode := { factor := none, before := fp32One, flush := c.subn, rnd := fun _ => none }
    let one (row k : Nat) : Report :=
      let (v, g) := entryVal e c.subn b row k
      let (a, ga) := mode.amaxOf v
      { amax := a, dom := 0, stat := g ||| ga }
    (d.rowIx.zip (List.range d.rowIx.length)).foldl (fun (p : State × Report) r =>
      if f.isDq then
        (each (List.range (ceilDiv (d.size 0) 32)) p.1 fun s i =>
          d.setBlock s f (r.1.set 0 (32 * i)) (entryCode e f b r.2 (32 * i))
            ((List.range (min 32 (d.size 0 - 32 * i))).map fun j => entryElem e f b r.2 (32 * i + j)),
         (List.range (d.size 0)).foldl (fun a k => a.merge (one r.2 k)) p.2)
      else
        (List.range (d.size 0)).foldl (fun (p : State × Report) k =>
          let (n, g) := widenTo e (f.float.getD Machine.fp32) (entryVal e c.subn b r.2 k).1
          (d.setRaw p.1 f (r.1.set 0 k) n, (p.2.merge (one r.2 k)).merge { amax := 0, dom := 0, stat := g })) p) (s, Report.empty)

/-- A GET of an entry that is stored copies its rows (R46, R269). -/
def getRows (s : State) (h : Nat) (c : Cmd) (d : Desc) (e : StashEntry) : State :=
  let (u, s) := saddleOf s e
  let line := stashLine e.fmt e.size0
  let rs := e.spans (c.fld 0x24 4 * line) (c.fld 0x28 4 * line)
  orFail h c u (readSpans s h (some (cmdId s h c)) rs) fun s b =>
    storing s h c u [d] fun s =>
      let (s, r) := if d.rank = 0 then (s, Report.empty) else copyBack s c e d b
      cmdDone (stashCount (reportStore s h c u d r) 5 e.far rs) h c

/-- STASH_GET (R268 to R271). DEDUCED (log entry 77). -/
def execStashGet (h : Fin 16) (seq : BitVec 32) (s : State) : Res :=
  opRow h seq 0x31 s fun s c =>
    let d := (sgDst s c).desc
    match getEntry s h c with
    | none => saddleFail s h c Code.STASH_KEY
    | some e =>
      let fails (code : Nat) : State := let (u, s) := saddleOf s e; failRunning s h c u code
      if e.rows < c.fld 0x24 4 + c.fld 0x28 4 then fails Code.STASH_KEY
      else if e.st = 0 then s
      else if e.st = 3 then
        if sgCount c = 0 ∨ c.recompute then fails Code.STASH_KEY
        else if s.recomps.any (·.hearth == h.val) then cntHearth s h 13 1
        else
          let s := { s with recomps := s.recomps ++
            [{ hearth := h, get := c.seq, ticket := c.ticket, off := c.fld 0x1C 4, left := sgCount c, pos := 0 }] }
          updCmd s h c.seq fun x => { x with st := .working }
      else if d.rank ≠ 0 ∧ decide (0x20 ≤ d.fmt) && d.fmt != e.fmt then fails Code.STASH_FORMAT
      else if d.rank ≠ 0 ∧ c.fld 0x28 4 ≠ 0 ∧ d.size 0 ≠ e.size0 then fails Code.DESC_SHAPE
      else getRows s h c d e

/-- The other GETs that have started on the entry of a GET (R271). -/
def otherGets (s : State) (h : Nat) (c : Cmd) : List (Nat × Nat) :=
  (List.range 16).flatMap fun g => ((getDisp s g).cmds.filter fun x =>
    x.opcode == 0x31 && x.ticket == c.ticket && x.fld 0x16 2 == c.fld 0x16 2 && x.fld 0x18 1 == c.fld 0x18 1 &&
      (x.st == .granted || x.st == .working) && (g, x.seq) != (h, c.seq)).map fun x => (g, x.seq)

/-- A GET has completed: with FREE, the entry of its key is freed, but stays readable by the GETs that have started on it (R271). -/
def getEnds (s : State) (h : Nat) (c : Cmd) : State :=
  if s.stash.any fun e => e.gone && e.readers.contains (h, c.seq) then
    let drop (e : StashEntry) : StashEntry := { e with readers := e.readers.filter (· != (h, c.seq)) }
    let s := { s with stash := s.stash.map fun e => if e.gone then drop e else e }
    freeStash s fun e => e.gone && e.readers.isEmpty
  else if bit (c.fld 0x19 1) 0 ∧ c.fail = 0 then
    match findStash s c.ticket (c.fld 0x16 2) (c.fld 0x18 1) with
    | none => s
    | some e =>
      match otherGets s h c with
      | [] => freeStash s (sameEntry e)
      | rs => { s with stash := s.stash.map fun x => if sameEntry x e then { x with gone := true, readers := rs } else x }
  else s

end Sys2Proof.Machine
end

