-- ==== Sys2Proof/Machine/Links.lean ====
section
/-! DEFINITION. Colkin and Girth links (R385 to R395): frames, link credit, replay, routing, streams, bring-up and loss. Link 12 is
Girth. -/

namespace Sys2Proof.Machine

/-! ### Registers that the two kinds of link share (Tables 15-9 to 15-24) -/

def lkPick (l : Nat) (c : Nat → Fld) (g : Fld) : Fld := if l = 12 then g else c l
def lkEnable (l : Nat) : Fld := lkPick l F.CLK_CFG_ENABLE F.GRT_CFG_ENABLE
def lkNarrow (l : Nat) : Fld := lkPick l F.CLK_CFG_ALLOW_X2 F.GRT_CFG_ALLOW_X4
def lkReplayMax (l : Nat) : Fld := lkPick l F.CLK_CFG_REPLAY_MAX F.GRT_CFG_REPLAY_MAX
def lkRetrainMax (l : Nat) : Fld := lkPick l F.CLK_CFG_RETRAIN_MAX F.GRT_CFG_RETRAIN_MAX
def lkState (l : Nat) : Fld := lkPick l F.CLK_STATE_STATE F.GRT_STATE_STATE
def lkWidth (l : Nat) : Fld := lkPick l F.CLK_STATE_WIDTH F.GRT_STATE_WIDTH
def lkCode (l : Nat) : Fld := lkPick l F.CLK_STATE_CODE F.GRT_STATE_CODE
def lkPeerSeen (l : Nat) : Fld := lkPick l F.CLK_STATE_PEER_SEEN F.GRT_STATE_PEER_SEEN
def lkErrReplay (l : Nat) : Fld := lkPick l F.CLK_ERR_REPLAY F.GRT_ERR_REPLAY
def lkErrRetrain (l : Nat) : Fld := lkPick l F.CLK_ERR_RETRAIN F.GRT_ERR_RETRAIN
def lkErrDown (l : Nat) : Fld := lkPick l F.CLK_ERR_DOWN F.GRT_ERR_DOWN
def lkErrDegraded (l : Nat) : Fld := lkPick l F.CLK_ERR_DEGRADED F.GRT_ERR_DEGRADED
def lkReplayCount (l : Nat) : Fld := lkPick l F.CLK_ERR_REPLAY_COUNT F.GRT_ERR_REPLAY_COUNT
def lkRetrainCount (l : Nat) : Fld := lkPick l F.CLK_ERR_RETRAIN_COUNT F.GRT_ERR_RETRAIN_COUNT
def lkCorr (l : Nat) : Fld := lkPick l F.CLK_FEC_CORR_CW F.GRT_FEC_CORR_CW
def lkUncorr (l : Nat) : Fld := lkPick l F.CLK_FEC_UNCORR_CW F.GRT_FEC_UNCORR_CW
/-- States of a link (Table 15-10). -/
def lkDOWN : Nat := 0
def lkTRAINING : Nat := 1
def lkUP : Nat := 2
def lkDEGRADED : Nat := 3
def lkFAILED : Nat := 4
/-- The function of a link (Table 2-6). -/
def lkFunc (l : Nat) : Nat := 0x20 + l
def lkLanes (l : Nat) : Nat := if l = 12 then 8 else 4

def getLink (s : State) (l : Nat) : LinkSt := s.links.get LinkSt.blank l
def setLink (s : State) (l : Nat) (x : LinkSt) : State := { s with links := s.links.set l x }

/-- The link carries frames: UP or DEGRADED. -/
def linkUp (s : State) (l : Nat) : Bool := rd s (lkState l) == lkUP || rd s (lkState l) == lkDEGRADED

def moduleId (s : State) : Nat := rd s F.DEV_IDENT_MODULE_ID

/-! ### Frames (Tables 15-1 and 15-2) -/

def tACK : Nat := 0x01
def tNAK : Nat := 0x02
def tLCREDIT : Nat := 0x03
def tHELLO : Nat := 0x04
def tREJECT : Nat := 0x05
def tECREDIT : Nat := 0x06
def tSTOP : Nat := 0x07
def tOPEN : Nat := 0x10
def tDATA : Nat := 0x11
def tMACK : Nat := 0x20
def tMNAK : Nat := 0x21

/-- The frame types that a link carries. -/
def typeKnown (l t : Nat) : Bool :=
  [tACK, tNAK, tLCREDIT, tHELLO, tSTOP, tOPEN, tDATA].contains t || (l != 12 && [tREJECT, tECREDIT].contains t) ||
  (l == 12 && [tMACK, tMNAK].contains t)

/-- Link-local frames: not sequenced, not acknowledged, never forwarded (R386). -/
def linkLocal (t : Nat) : Bool := t == tACK || t == tNAK || t == tLCREDIT

/-- Payload length in units of 64 bytes. -/
def Pkt.len (p : Pkt) : Nat := ceilDiv p.payload.length 64

/-- The 12 header bytes (Table 15-1). -/
def Pkt.header (p : Pkt) (lseq : Nat) : Bytes :=
  leBytes 12 (p.type + 2 ^ 8 * (p.vc % 4) + 2 ^ 10 * (p.hop % 4) + (if p.last then 2 ^ 12 else 0) + 2 ^ 16 * (p.dst % 4096) +
    2 ^ 28 * (p.src % 4096) + 2 ^ 40 * (p.stream % 4096) + 2 ^ 52 * (lseq % 4096) + 2 ^ 64 * p.len + 2 ^ 69 * p.offset)

/-- The payload padded with zeros to whole units (R392). -/
def Pkt.padded (p : Pkt) : Bytes := p.payload ++ zeros (64 * p.len - p.payload.length)

/-- A header and payload as a frame. -/
def Pkt.parse (h payload : Bytes) : Pkt :=
  let v := leNat (h.take 12)
  { type := bits v 0 8, vc := bits v 8 2, hop := bits v 10 2, last := bit v 12, dst := bits v 16 12, src := bits v 28 12,
    stream := bits v 40 12, offset := bits v 69 27, payload := payload }
def hdrLseq (h : Bytes) : Nat := bits (leNat (h.take 12)) 52 12
def hdrLen (h : Bytes) : Nat := bits (leNat (h.take 12)) 64 5

/-- A frame without a stream or an offset. -/
def ctlPkt (type vc dst src : Nat) (payload : Bytes) : Pkt :=
  { type := type, vc := vc, hop := 0, last := false, dst := dst, src := src, stream := 0, offset := 0, payload := payload }

/-! ### Sending (R386 to R388) -/

/-- The units of link credit that a frame takes (DEDUCED, log entry 36). -/
def Pkt.units (p : Pkt) : Nat := max p.len 1

/-- A link-local frame leaves at once. -/
def sendLocal (s : State) (l type lseq : Nat) (payload : Bytes) : State :=
  let p := ctlPkt type 0 0 0 payload
  emit s (.frame l (p.header lseq) p.padded)

/-- A frame of a transfer waits at a function that is STOPPED, and one that begins a transfer also while it is STOPPING (R44, R46).
DEDUCED (log entry 61). -/
def fnHolds (s : State) (l : Nat) (p : Pkt) : Bool :=
  (p.type == tOPEN && (fnState s (lkFunc l) == fnSTOPPING || fnState s (lkFunc l) == fnSTOPPED)) ||
  (p.type == tDATA && fnState s (lkFunc l) == fnSTOPPED)

/-- The link unit may send a frame now: the link is up, its replay buffer has room, its function takes it, no marker and no peer's stop
keeps it back, and its pair holds credit; VC 0 always does (R44, R387, R388, R441, R443). -/
def mayStart (s : State) (l : Nat) (p : Pkt) : Bool :=
  let x := getLink s l
  linkUp s l && !fnHolds s l p && decide (x.replay.length < 1024) && (p.type == tSTOP || p.type == tHELLO || !unitHalted s (U.link l)) &&
  !(x.blocked && (p.type == tOPEN || p.type == tDATA))
def hasCredit (s : State) (l : Nat) (p : Pkt) : Bool := p.vc == 0 || decide (p.units ≤ (getLink s l).credit.get 0 (4 * p.vc + p.hop))

/-- Transmit a frame: it takes the next LSEQ and stays in the replay buffer. DEDUCED (log entry 78). -/
def transmit (s : State) (l : Nat) (p : Pkt) : State :=
  let x := getLink s l
  let k := 4 * p.vc + p.hop
  let s := setLink s l { x with txNext := (x.txNext + 1) % 4096, replay := x.replay ++ [(x.txNext, p)],
                                credit := if p.vc = 0 then x.credit else x.credit.set k (x.credit.get 0 k - p.units) }
  let s := cntLink s l p.vc (p.len + 1)
  let s := if l = 12 ∧ p.vc = 3 ∧ (p.type = tOPEN ∨ p.type = tDATA) then cntLink s l 9 (p.len + 1) else s
  emit s (.frame l (p.header x.txNext) p.padded)

/-- Send the waiting frames of a link that can go, in order; a frame that cannot keeps later ones of its pair back (R386, R388). -/
def pumpLink (s : State) (l : Nat) : State :=
  let q := (getLink s l).queue
  let r := q.foldl (fun (a : State × List (Nat × Nat) × List Pkt) p =>
    let (s, stuck, kept) := a
    if stuck.contains (p.vc, p.hop) || !mayStart s l p || !hasCredit s l p then (s, stuck ++ [(p.vc, p.hop)], kept ++ [p])
    else (transmit s l p, stuck, kept)) (setLink s l { getLink s l with queue := [] }, [], [])
  let s := setLink r.1 l { getLink r.1 l with queue := r.2.2 }
  if l = 12 ∧ rd s F.GRT_STATE_MIRROR = 1 ∧ !(r.2.2.any fun p => p.vc == 3) then wr s F.GRT_STATE_MIRROR 2 else s

/-- Hand a frame to a link. -/
def post (s : State) (l : Nat) (p : Pkt) : State :=
  let s := if linkUp s l && !hasCredit s l p then cntLink s l 10 1 else s
  pumpLink (setLink s l { getLink s l with queue := (getLink s l).queue ++ [p] }) l

/-! ### Routing (R389, R390) -/

/-- The link that frames of a stream take towards a module. -/
def routeLink (s : State) (src stream dst : Nat) : Option Nat :=
  let ls := (List.range 12).filter fun l => linkUp s l && bit (rd s (F.CLK_ROUTE_LINKS dst)) l
  if ls.isEmpty then none else ls[(src + stream) % ls.length]?

/-- A control frame to a module over Colkin; one that finds no link goes nowhere. -/
def sendTo (s : State) (type dst stream : Nat) (payload : Bytes) : State :=
  match routeLink s (moduleId s) stream dst with
  | none => s
  | some l => post s l { ctlPkt type 0 dst (moduleId s) payload with stream := stream }

/-- A forwarded frame is discarded: it is counted, and the first of its stream answered with a REJECT (R390). DEDUCED (log entry 80). -/
def rejectFrame (s : State) (p : Pkt) (code : Nat) : State :=
  let s := if code = Code.LINK_HOP then satAdd (wr s F.CLK_EVENT_HOP 1) F.CLK_DROP_HOP_COUNT 1
           else satAdd (wr s F.CLK_EVENT_ROUTE 1) F.CLK_DROP_ROUTE_COUNT 1
  if s.rejected.contains (p.src, p.stream) || p.type == tREJECT then s
  else sendTo { s with rejected := s.rejected ++ [(p.src, p.stream)] } tREJECT p.src p.stream
    (leBytes 2 code ++ leBytes 2 p.stream ++ leBytes 2 p.dst ++ zeros 58)

/-- The link that a frame is forwarded on: a stream's DATA frames follow its OPEN, and a stream whose link failed is not moved to another
(R389). -/
def forwardLink (s : State) (p : Pkt) : Option Nat :=
  match if p.type = tDATA then s.forwarded.find? fun f => f.1 == p.src && f.2.1 == p.stream else none with
  | some f => if f.2.2 < 13 then some f.2.2 else none
  | none => routeLink s p.src p.stream p.dst

/-- What an OPEN or the last DATA frame changes in the streams that this module forwards. -/
def noteForward (s : State) (p : Pkt) (l : Option Nat) : State :=
  let rest := s.forwarded.filter fun f => !(f.1 == p.src && f.2.1 == p.stream)
  if p.type = tOPEN then { s with forwarded := rest ++ [(p.src, p.stream, l.getD 13)], rejected := s.rejected.filter (· != (p.src, p.stream)) }
  else if p.type = tDATA ∧ p.last then { s with forwarded := rest }
  else s

/-- Forward a frame for another module (R390). DEDUCED (log entry 78). -/
def forwardFrame (s : State) (p : Pkt) : State :=
  let route := if 3 ≤ p.hop then none else forwardLink s p
  let s := noteForward s p route
  if 3 ≤ p.hop then rejectFrame s p Code.LINK_HOP
  else
    match route with
    | none => rejectFrame s p Code.LINK_ROUTE
    | some l => post (cntLink s l 8 1) l { p with hop := p.hop + 1 }

/-! ### Streams (R291, R391, R392) -/

/-- The lowest STREAM number that no open stream and no unacknowledged frame of this module uses. DEDUCED (log entry 80). -/
def freeStream (s : State) : Option Nat :=
  let me := moduleId s
  let used (n : Nat) : Bool := s.txs.any (·.num == n) || (match s.mirrorOut with | some m => m.stream == n | none => false) ||
    (List.range 13).any fun l => let x := getLink s l; (x.replay.any fun r => r.2.src == me && r.2.stream == n) || x.queue.any fun p => p.src == me && p.stream == n
  (List.range 4096).find? fun n => !used n

/-- CRC-64 of R291: bytes most significant bit first. -/
def crc64Byte (c : BitVec 64) (b : BitVec 8) : BitVec 64 :=
  (List.range 8).foldl (fun c _ => if c.msb then (c <<< 1) ^^^ 0x42F0E1EBA9EA3693 else c <<< 1) (c ^^^ (b.setWidth 64 <<< 56))
def crc64 (bs : Bytes) : Nat := (bs.foldl crc64Byte 0).toNat

/-- Landing credit at a receiver that this module's streams have in use, in KiB (R295). -/
def creditUsed (s : State) (dst : Nat) : Nat := (s.txs.filter fun t => t.dst == dst && decide (t.vc < 3)).foldl (fun a t => a + t.flight) 0

def setTx (s : State) (t : TxStream) : State := { s with txs := s.txs.map fun x => if x.num = t.num then t else x }

/-- Frames of a stream that can be formed and have landing credit (R295, R392). `fuel` bounds them. -/
def pumpTx (s : State) (num : Nat) : Nat → State
  | 0 => s
  | n + 1 =>
    match s.txs.find? (·.num == num) with
    | none => s
    | some t =>
      let me := moduleId s
      if !t.opened then
        let s := post s t.link { ctlPkt tOPEN t.vc t.dst me t.desc with stream := t.num }
        pumpTx (setTx s { t with opened := true }) num n
      else
        let left := t.bytes.length - t.framed
        let k := min 1024 left
        let last := t.framed + k == t.total
        if t.finished || (k < 1024 && !last) || k == 0 then s
        else if rd s F.STI_CFG_CREDIT_KIB ≤ creditUsed s t.dst then
          match findCmd s t.cmd.1 t.cmd.2 with
          | some c =>
            if c.phase / 16 % 2 = 1 then s
            else
              let r := field t.desc 0x28 8
              let (u, s) := unitAt s U.stitch (if r = 0 then [] else [(r, 768)])
              let s := cntMem s (dieOf (u - U.stitch 0)) 12 1
              let s := wr (emberCode s u Code.CREDIT_WAIT (some (cmdId s t.cmd.1 c))) F.STI_EVENT_CREDIT_WAIT 1
              updCmd s t.cmd.1 c.seq fun c => { c with phase := c.phase + 16 }
          | none => s
        else
          let s := post s t.link { type := tDATA, vc := t.vc, hop := 0, last := last, dst := t.dst, src := me, stream := t.num,
                                   offset := t.framed / 1024, payload := (t.bytes.drop t.framed).take k }
          pumpTx (setTx s { t with framed := t.framed + k, flight := t.flight + 1, finished := last }) num n

def pumpStream (s : State) (t : TxStream) : State := pumpTx s t.num (t.total / 1024 + 4)

/-- Open a stream to a member for a command; without a link the command fails (R389): true. -/
def openStream (s : State) (dst vc : Nat) (desc bytes : Bytes) (total : Nat) (cmd coll : Nat × Nat) : State × Bool :=
  match freeStream s with
  | none => (s, false)
  | some n =>
    match routeLink s (moduleId s) n dst with
    | none => (s, true)
    | some l =>
      let t : TxStream := { num := n, dst := dst, vc := vc, link := l, desc := desc, bytes := bytes, total := total, framed := 0,
                            flight := 0, opened := false, finished := false, cmd := cmd, coll := coll }
      let s := if (getLink s l).blocked then cntHearth s cmd.1 13 1 else s
      (pumpStream { s with txs := s.txs ++ [t] } t, false)

/-! ### Receiving (R387) -/

/-- The frame is intact: FEC, CRC, reserved bits, type, length. -/
def frameIntact (l : Nat) (f : Frame) : Bool :=
  let v := leNat (f.hdr.take 12)
  f.fecOk && f.crcOk && f.hdr.length == 12 && bits v 13 3 == 0 && typeKnown l (bits v 0 8) && decide (hdrLen f.hdr ≤ 16) &&
  f.payload.length == 64 * hdrLen f.hdr

/-- The receiver accepts a frame of a type: intact, and with the LSEQ that is due. -/
def accepts (s : State) (l : Nat) (f : Frame) : Bool :=
  frameIntact l f && (linkLocal (bits (leNat (f.hdr.take 12)) 0 8) || hdrLseq f.hdr == (getLink s l).rxNext)

/-- What the receiver does with every sequenced frame that it accepts: it counts and acknowledges it.
DEDUCED (log entry 78). DEDUCED (log entry 79). -/
def acceptFrame (s : State) (l : Nat) (f : Frame) : State :=
  let x := getLink s l
  let p := Pkt.parse f.hdr f.payload
  let s := satAdd s (lkCorr l) f.corrected.toNat
  let s := setLink s l { x with rxNext := (x.rxNext + 1) % 4096, nakSent := false }
  let s := cntLink s l (4 + p.vc) (p.len + 1)
  sendLocal s l tACK (hdrLseq f.hdr) []

/-- The buffer of a frame's pair is free again: its link credit is granted anew (R388). DEDUCED (log entry 36). -/
def grantBack (s : State) (l : Nat) (p : Pkt) : State :=
  if p.vc = 0 then s
  else sendLocal s l tLCREDIT 0 ((List.range 16).flatMap (fun k => leBytes 2 (if k = 4 * p.vc + p.hop then p.units else 0)) ++ zeros 32)

/-- FRAME_DISCARD: a frame that is not accepted is discarded, and one NAK is sent for the LSEQ that is due (R387). -/
def execFrameDiscard (l : Fin 13) (f : Frame) (s : State) : Res :=
  if !linkUp s l || accepts s l f then .next s else
  let s := satAdd s (lkCorr l) f.corrected.toNat
  let s := if f.fecOk then s else satAdd s (lkUncorr l) 1
  let x := getLink s l
  if x.nakSent then .next s
  else .next (sendLocal (setLink s l { x with nakSent := true }) l tNAK x.rxNext [])

/-- Frames up to an LSEQ, in replay order, that it acknowledges; all of them when it names none. -/
def ackUpTo (rs : List (Nat × Pkt)) (lseq : Nat) : List (Nat × Pkt) :=
  if rs.any fun r => r.1 == lseq then (rs.dropWhile fun r => r.1 != lseq).drop 1 else rs

/-- ACK (R387). -/
def execAck (l : Fin 13) (f : Frame) (s : State) : Res :=
  if !linkUp s l || !accepts s l f || bits (leNat (f.hdr.take 12)) 0 8 != tACK then .next s else
  let s := satAdd s (lkCorr l) f.corrected.toNat
  let x := getLink s l
  .next (pumpLink (setLink s l { x with replay := ackUpTo x.replay (hdrLseq f.hdr), naks := 0 }) l)

/-- Resend the replay buffer in order (R387, R395). -/
def resend (s : State) (l : Nat) : State :=
  each (getLink s l).replay s fun s r => emit s (.frame l (r.2.header r.1) r.2.padded)

/-- NAK: the sender resends from its LSEQ; after REPLAY_MAX of them in succession for one LSEQ the link retrains instead (R387, R395).
DEDUCED (log entry 110). -/
def execNak (l : Fin 13) (f : Frame) (s : State) : Res :=
  if !linkUp s l || !accepts s l f || bits (leNat (f.hdr.take 12)) 0 8 != tNAK then .next s else
  let s := satAdd s (lkCorr l) f.corrected.toNat
  let x := getLink s l
  let q := hdrLseq f.hdr
  let naks := if x.nakSeq = q ∧ x.naks ≠ 0 then x.naks + 1 else 1
  let rs := if x.replay.any fun r => r.1 == q then x.replay.dropWhile fun r => r.1 != q else if q = x.txNext then [] else x.replay
  let s := setLink s l { x with replay := rs, nakSeq := q, naks := naks }
  if rd s (lkReplayMax l) ≤ naks then .next (wr s (lkState l) lkTRAINING) else
  let s := satAdd (wr s (lkErrReplay l) 1) (lkReplayCount l) 1
  let s := emberCode s (U.link l) Code.LINK_REPLAY none
  .next (resend s l)

/-- LCREDIT: credit for each pair (R388). -/
def execLcredit (l : Fin 13) (f : Frame) (s : State) : Res :=
  if !linkUp s l || !accepts s l f || bits (leNat (f.hdr.take 12)) 0 8 != tLCREDIT then .next s else
  let s := satAdd s (lkCorr l) f.corrected.toNat
  let x := getLink s l
  let credit := (List.range 16).foldl (fun (m : Smap Nat) k => m.set k (m.get 0 k + field f.payload (2 * k) 2)) x.credit
  .next (pumpLink (setLink s l { x with credit := credit }) l)

/-! ### Loss (R22, R395, R398) -/

/-- Forget a collective whose command has ended: later segments of it are discarded (R296). -/
def endColl (s : State) (id step : Nat) : State :=
  { s with colls := s.colls.filter (fun c => !(c.id == id && c.step == step)), 
           collEnded := s.collEnded ++ ((s.colls.filter fun c => c.id == id && c.step == step).map fun c => (id, step, c.ticket, c.no)),
           txs := s.txs.filter fun t => t.coll != (id, step) }

/-- An exchange of the checkpoint unit ends with a code: a parity exchange in `MGT_CKPT_STATE`, a FILL, a SERVE or a reconstruction in
`MGT_RESTORE_STATE` (R431). -/
def endExchange (s : State) (kind code : Nat) : State :=
  if kind = 5 then wr (wr { s with staged := none } F.MGT_CKPT_STATE_STATE 4) F.MGT_CKPT_STATE_CODE code
  else if 6 ≤ kind then wr (wr s F.MGT_RESTORE_STATE_RESULT 3) F.MGT_RESTORE_STATE_CODE code
  else s

/-- Fail the commands of a collective. -/
def failColl (s : State) (c : Coll) (unit code : Nat) : State :=
  each c.cmds (endExchange (endColl s c.id c.step) c.kind code) fun s m =>
    match findCmd s m.1 m.2.1 with
    | some x => if x.st == .done then s else failRunning s m.1 x unit code
    | none => s

/-- The mirror fails a final time (R398): holds go, the flag is set, an Ember event is recorded. -/
def mirrorFail (s : State) (m : MirrorOut) : State :=
  let s := each m.holds { s with mirrorOut := none } fun s x => dropHold s x.1 x.2
  let s := wr (emberCode s U.girth Code.MIRROR_FAIL none) F.GRT_ERR_MIRROR_FAIL 1
  if m.kind = 2 then wr s F.GRT_CTL_RESULT 3 else wr s F.GRT_STATE_MIRROR 3

/-- R22 ends every stream on a link that is DOWN or FAILED (R389). -/
def dropStreams (s : State) (l : Nat) : State :=
  let x := getLink s l
  let s := setLink s l { LinkSt.blank with marked := x.marked }
  let outs := s.txs.filter (·.link == l)
  let ins := s.rxs.filter fun r => r.link == l && !r.last
  let s := { s with txs := s.txs.filter (·.link != l), rxs := s.rxs.filter (fun r => !(r.link == l && !r.last)),
                    forwarded := s.forwarded.map fun f => if f.2.2 = l then (f.1, f.2.1, 13) else f }
  let hit := (outs.map (·.coll)) ++ ins.map fun r => (field r.desc 0 4, field r.desc 4 4)
  let s := each (s.colls.filter fun c => hit.contains (c.id, c.step)) s fun s c => failColl s c (U.link l) Code.LINK_DOWN
  if l = 12 then
    let s := { s with mirrorIn := none }
    let s := wr s F.GRT_STATE_RECEIVING 0
    match s.mirrorOut with
    | some m => mirrorFail s m
    | none => s
  else s

/-- A link becomes FAILED (R395). -/
def linkFail (s : State) (l code : Nat) : State :=
  let s := wr (wr (wr (wr s (lkState l) lkFAILED) (lkWidth l) 0) (lkCode l) code) (lkErrDown l) 1
  dropStreams (emberCode s (U.link l) code none) l

/-- A link retrains (R395): after REPLAY_MAX NAKs for one LSEQ, or when it loses lane lock. -/
def execLinkRetrain (l : Fin 13) (s : State) : Res :=
  if !pwrGood s || !linkUp s l then .next s else .next (wr s (lkState l) lkTRAINING)

/-- The width that working lanes allow: all, the reduced width, or none (R394). -/
def trainedWidth (s : State) (l : Nat) (t : LinkTrain) : Option Nat :=
  let n := popcount t.lanes.toNat (lkLanes l)
  if !t.trained then none
  else if n = lkLanes l then some n
  else if rd s (lkNarrow l) = 1 ∧ lkLanes l / 2 ≤ n then some (lkLanes l / 2)
  else none

/-- The state and registers of a link that has trained (R394). -/
def setTrained (s : State) (l : Nat) (t : LinkTrain) (w : Nat) : State :=
  let s := wr (wr s (lkState l) (if w = lkLanes l then lkUP else lkDEGRADED)) (lkWidth l) w
  let s := if l = 12 then s else wr s (F.CLK_STATE_LANES_OK l) t.lanes.toNat
  if w = lkLanes l ∨ (getLink s l).narrow then s
  else emberCode (wr (setLink s l { getLink s l with narrow := true }) (lkErrDegraded l) 1) (U.link l) Code.LINK_DEGRADED none

/-- A retraining succeeds, and the link resumes at the first unacknowledged LSEQ; or fails, and after RETRAIN_MAX + 1 attempts in
succession the link is FAILED (R395). -/
def execLinkRetrainComplete (l : Fin 13) (t : LinkTrain) (s : State) : Res :=
  if !pwrGood s || rd s (lkState l) != lkTRAINING || fnState s (lkFunc l) == fnUNAVAIL then .next s else
  let x := getLink s l
  match trainedWidth s l t with
  | some w =>
    let s := setTrained (setLink s l { x with attempts := 0, naks := 0 }) l t w
    let s := satAdd (wr s (lkErrRetrain l) 1) (lkRetrainCount l) 1
    .next (pumpLink (resend (emberCode s (U.link l) Code.LINK_RETRAIN none) l) l)
  | none =>
    if rd s (lkRetrainMax l) < x.attempts + 1 then .next (linkFail s l Code.LINK_DOWN)
    else .next (setLink s l { x with attempts := x.attempts + 1 })

/-! ### Bring-up (R393, R394) -/

/-- A HELLO payload is that of the expected peer (R393). -/
def helloOk (s : State) (l : Nat) (h : Bytes) : Bool :=
  field h 0 4 == 0x4E4B4C43 && field h 8 4 == rd s F.DEV_GROUP_GROUP_ID &&
  if l = 12 then field h 4 2 == rd s F.DEV_IDENT_TWIN_ID && field h 6 2 == 0x8000 + moduleId s
  else field h 4 2 == rd s (F.CLK_CFG_PEER l) && field h 0xC 1 == rd s (F.CLK_CFG_PEER_LINK l)

/-- What a HELLO shows in the registers. -/
def seeHello (s : State) (l : Nat) (h : Bytes) : State :=
  let s := wr s (lkPeerSeen l) (field h 4 2)
  if l = 12 then s else wr s (F.CLK_STATE_LINK_SEEN l) (field h 0xC 1)

/-- This module's HELLO (Table 15-4). -/
def ownHello (s : State) (l w : Nat) : Bytes :=
  leBytes 4 0x4E4B4C43 ++ leBytes 2 (moduleId s) ++ leBytes 2 (rd s F.DEV_IDENT_TWIN_ID + 0x8000 * rd s F.DEV_IDENT_TWIN_CFG) ++
    leBytes 4 (rd s F.DEV_GROUP_GROUP_ID) ++ leBytes 1 (if l = 12 then 0xFF else l) ++ leBytes 1 w ++ zeros 50

/-- A peer check fails (R393). -/
def peerFail (s : State) (l : Nat) : State :=
  let s := linkFail s l Code.LINK_PEER
  if l = 12 then s else wr s F.CLK_EVENT_PEER 1

/-- Bring a link up at stage 0x0A or a restart: true where it carries frames; frames that wait stay in their queue (R44). A link whose
ENABLE is clear stays DOWN. DEDUCED (log entry 36). DEDUCED (log entry 61). -/
def bringUp (s : State) (l : Nat) (t : LinkTrain) : State × Bool :=
  let s := setLink s l { LinkSt.blank with marked := (getLink s l).marked, queue := (getLink s l).queue }
  if rd s (lkEnable l) = 0 then (dropStreams (wr (wr s (lkState l) lkDOWN) (lkWidth l) 0) l, true)
  else
    match trainedWidth s l t with
    | none => (linkFail s l Code.LINK_TRAIN, false)
    | some w =>
      let s := setTrained (wr s (lkCode l) 0) l t w
      let (g, s) := takeFreeBytes s 32
      let x := getLink s l
      let s := pumpLink (setLink s l { x with queue := ctlPkt tHELLO 0 0 (moduleId s) (ownHello s l w) :: x.queue }) l
      let s := sendLocal s l tLCREDIT 0 (g ++ zeros 32)
      match t.hello with
      | none => (peerFail s l, false)
      | some h =>
      let s := seeHello (sendLocal (setLink s l { getLink s l with rxNext := 1 }) l tACK 0 []) l h
      if helloOk s l h then (s, true) else (peerFail s l, false)

end Sys2Proof.Machine
end

