-- ==== Sys2Proof/Machine/Reduce.lean ====
section
/-! DEFINITION. Collectives (R279 to R296, R305 to R308): checks of records and commands, contributions, orders of addition, segments,
digests, and the progress of REDUCE, GATHER and the amax exchange. -/

namespace Sys2Proof.Machine

/-! ### Parameter records (R282, R283) -/

/-- A tensor that a record names breaks R144 or its row of Table 11-2. -/
def recTensorBad (s : State) (ptr : Nat) (fmts dims : List Nat) : Bool :=
  let b := peekBytes s ptr 128
  let (code, d) := checkDesc s b 0
  ptr % 128 != 0 || !inNear ptr 128 || code != 0 || (Desc.parse b).sliced || !fmts.contains d.fmt || d.sizes != dims

/-- Own shard length of a record's member set; 0 where this module is no member. -/
def ownLen (s : State) (r : Nat) : Nat :=
  match positionIn s (recFirst s r) (recCount s r) (recStride s r) with
  | some i => shardLen (recEa s r) (recCount s r) i
  | none => 0

/-- The member set of a record or a body breaks R279. -/
def setBad (s : State) (first count stride : Nat) : Bool :=
  count == 0 || decide (4096 < count) || stride == 0 || decide (rd s F.DEV_IDENT_GROUP_SIZE ≤ first + (count - 1) * stride) ||
  (positionIn s first count stride).isNone

/-- A parameter record breaks R282 or R283; where this module is no member of its set no extent of a shard is judged (R279). -/
def paramBad (s : State) (r : Nat) : Bool :=
  let b := peekBytes s r 768
  let fld (o : Nat) : Nat := field b o 8
  let ea := recEa s r
  let eb := recEb s r
  let member := (positionIn s (recFirst s r) (recCount s r) (recStride s r)).isSome
  let shard (o : Nat) : List Nat := if member then [eb, ownLen s r] else (descAt s (fld o)).sizes
  let whole (sd0 : Bool) : List Nat := if sd0 then [ea, eb] else [eb, ea]
  let kind := peekNat s (fld 0x58) 1
  let fwd := fld 0x40 != 0
  let momFmts := [(descAt s (fld 0x10)).fmt]
  let tens := [0, 1].flatMap fun k =>
    [recMaster s r k, recM1 s r k, recM2 s r k, recWork s r k, recFwd s r k]
  let rs := (tens ++ [recGshard s r]).map Desc.ranges ++ [0, 1].map fun k => if fwd then [((recFwd s r k).scalePtr, 32 + 4 * peekNat s (recFwd s r k).scalePtr 2)] else []
  r % 256 != 0 || !inNear r 768 || !rsvdZero b 0x72 2 || !rsvdZero b 0x98 104 || !rsvdZero b 0x100 512 ||
  (fld 0x40 == 0) != (fld 0x48 == 0) || (fld 0x20 == 0) != (fld 0x28 == 0) || (decide (1 ≤ kind ∧ kind ≤ 4) && (fld 0x20 != 0) != decide (kind ≤ 2)) ||
  fld 0x58 % 64 != 0 || !inNear (fld 0x58) 64 || ea == 0 || eb == 0 || decide (4096 ≤ recFirst s r) || recCount s r == 0 ||
  decide (4096 < recCount s r) || recStride s r == 0 || decide (4 ≤ recLayout s r) || decide (2 ≤ recOrder s r) ||
  decide (2 ≤ field b 0x70 1) || decide (2 ≤ field b 0x71 1) ||
  [0x00, 0x08, 0x50].any (fun o => recTensorBad s (fld o) [0x12] (shard o)) ||
  [0x10, 0x18].any (fun o => recTensorBad s (fld o) [0x11, 0x12] (shard o) || !momFmts.contains (descAt s (fld o)).fmt) ||
  [0x20, 0x28].any (fun o => fld o != 0 && (recTensorBad s (fld o) momFmts (shard o))) ||
  [0x30, 0x38].any (fun o => recTensorBad s (fld o) [0x11] (whole (bit (recLayout s r) 0))) ||
  (fwd && ([0x40, 0x48].any (fun o => recTensorBad s (fld o) [0x20, 0x21] (whole (bit (recLayout s r) 1)) ||
      (descAt s (fld o)).scalePtr == 0 || peekNat s (descAt s (fld o)).scalePtr 2 == 0) ||
    (recFwd s r 0).scalePtr == (recFwd s r 1).scalePtr)) ||
  (List.range rs.length).any fun i => rangesMeet (rs.getD i []) ((rs.drop (i + 1)).flatten)

/-- Ring order applies (R288). -/
def recRing (s : State) (r : Nat) : Bool := recOrder s r == 1 || decide (64 < recCount s r)

/-! ### The commands' fields and checks -/

def rdForm (c : Cmd) : Nat := c.fld 0x16 1
def rdFlags (c : Cmd) : Nat := c.fld 0x17 1
def rdRecord (c : Cmd) : Nat := c.fld 0x18 8
def rdSrc (s : State) (c : Cmd) : Opnd := c.opnd s 0x10 (c.fld 0x14 2) true
/-- First rank, count and stride of a REDUCE's member set. -/
def rdSet (s : State) (c : Cmd) : Nat × Nat × Nat :=
  if rdForm c = 0 then (recFirst s (rdRecord c), recCount s (rdRecord c), recStride s (rdRecord c))
  else (c.fld 0x28 2, c.fld 0x2A 2, c.fld 0x2C 2)
def rdAtRoot (s : State) (c : Cmd) : Bool :=
  let m := rdSet s c
  rdForm c == 1 && positionIn s m.1 m.2.1 m.2.2 == some (c.fld 0x26 2)
def rdDst (s : State) (c : Cmd) : Opnd := c.opnd s 0x30 (c.fld 0x2E 2) (rdAtRoot s c)

/-- Bytes of the longest of the segments that carry some shards, from the bytes of a shard (R391). -/
def longestSegment (size : Nat → Nat) (shards : List Nat) : Nat := shards.foldl (fun m i => max m (size i)) 0

/-- The longest segment that a REDUCE sends (R286, R291, R391). -/
def redSegment (s : State) (c : Cmd) (count : Nat) : Nat :=
  let m := rdSet s c
  let r := rdRecord c
  let pos := (positionIn s m.1 m.2.1 m.2.2).getD 0
  if rdForm c = 0 then
    let w := if recRing s r then 4 else 2
    longestSegment (fun i => w * (shardLen (recEa s r) m.2.1 i * recEb s r)) ((List.range m.2.1).filter (· != pos))
  else if rdAtRoot s c then 0 else 2 * count

/-- REDUCE's checks (R286, R391): the code, or 0, and the increment. -/
def checkReduce (s : State) (h : Nat) (c : Cmd) : Nat × Nat :=
  let os := rdSrc s c
  let od := rdDst s c
  let src := os.desc
  let dst := od.desc
  let form := rdForm c
  let m := rdSet s c
  let root := rdAtRoot s c
  let r := rdRecord c
  (firstCode [
    codeIf (maskBad c false false false true) Code.CMD_UNITS,
    codeIf (decide (1 < form) || c.fld 0x20 4 == 0 || c.fld 0x24 1 == 0 || decide (8 < c.fld 0x24 1) || decide (c.fld 0x24 1 ≤ c.fld 0x25 1) ||
      decide (4 ≤ rdFlags c) || !rsvdZero c.raw 0x34 12 ||
      (form == 0 && (c.fld 0x26 2 != 0 || !rsvdZero c.raw 0x28 12)) ||
      (form == 1 && (r != 0 || bit (rdFlags c) 0 || decide (64 < m.2.1) || decide (m.2.1 ≤ c.fld 0x26 2) ||
        (!root && (c.fld 0x2E 2 != 0 || c.fld 0x30 4 != 0))))) Code.COLL_FORMAT,
    codeIf (form == 0 && paramBad s r) Code.PARAM_RECORD,
    codeIf (setBad s m.1 m.2.1 m.2.2) Code.COLL_FORMAT,
    os.code, od.code,
    if os.isLater then 0 else codeIf (src.fmt != 0x11) Code.FMT_ENGINE,
    if od.isLater || !root then 0 else codeIf (dst.fmt != 0x11 && dst.fmt != 0x12) Code.FMT_ENGINE,
    if od.isLater || !root then 0 else codeIf (roundBad c dst) Code.FMT_ROUND,
    if os.isLater then 0 else
      codeIf (form == 0 && src.sizes != (if bit (rdFlags c) 0 then [recEa s r, recEb s r] else [recEb s r, recEa s r])) Code.DESC_SHAPE,
    if os.isLater || od.isLater then 0 else codeIf (root && src.sizes != dst.sizes) Code.DESC_SHAPE,
    if os.isLater || od.isLater then 0 else codeIf (tensorsMeet s dst src || selfOverlap s dst) Code.DESC_ALIAS,
    codeIf (decide (2 ^ 37 < redSegment s c src.count)) Code.COLL_FORMAT,
    codeIf (foreignBank s h [src, dst]) Code.OWNER_FAULT,
    codeIf (bankMissing s h c [src, dst]) Code.CMD_UNITS], popcount c.bankMask 8)

def gaForm (c : Cmd) : Nat := c.fld 0x18 1
def gaRecord (c : Cmd) : Nat := c.fld 0x10 8
def gaPeer (c : Cmd) : Nat := c.fld 0x1A 2
def gaRef (s : State) (c : Cmd) : Opnd := c.opnd s 0x20 (c.fld 0x24 2) (gaForm c != 0)

/-- The extents of a shard of a copy as dim 0's first index and length, and dim 1's (R280, Table 11-1). -/
def shardBox (s : State) (r : Nat) (sd0 : Bool) (i : Nat) : Nat × Nat × Nat × Nat :=
  let lo := shardLo (recEa s r) (recCount s r) i
  let n := shardLen (recEa s r) (recCount s r) i
  if sd0 then (lo, n, 0, recEb s r) else (0, recEb s r, lo, n)

/-- The bytes of a shard of a copy. -/
def shardRanges (s : State) (r : Nat) (d : Desc) (sd0 : Bool) (i : Nat) : List (Nat × Nat) :=
  let b := shardBox s r sd0 i
  d.partRanges b.1 b.2.1 b.2.2.1 b.2.2.2

/-- The bytes of a shard of the working and the forward copy in a slot. -/
def copyRanges (s : State) (r slot i : Nat) : List (Nat × Nat) :=
  shardRanges s r (recWork s r slot) (bit (recLayout s r) 0) i ++
    if recHasFwd s r then shardRanges s r (recFwd s r slot) (bit (recLayout s r) 1) i else []

/-- Bytes of a gather segment from a slot: the working copy's shard, then the forward copy's elements and its exponents (R307). -/
def gatherBytes (s : State) (r slot i : Nat) : Nat :=
  let n := shardLen (recEa s r) (recCount s r) i * recEb s r
  let f := recFwd s r slot
  let b := shardBox s r (bit (recLayout s r) 1) i
  let exps := if f.blockDim = 0 then ceilDiv b.2.1 32 * b.2.2.2 else b.2.1 * ceilDiv b.2.2.2 32
  2 * n + if recHasFwd s r then ceilDiv (n * (if f.fmt = 0x20 then 4 else 8)) 8 + exps else 0

/-- The longest segment that a GATHER sends (R306, R391). -/
def gaSegment (s : State) (c : Cmd) (d : Desc) : Nat :=
  let r := gaRecord c
  if gaForm c = 1 then d.wireSize
  else if gaForm c = 0 then
    let pos := (positionIn s (recFirst s r) (recCount s r) (recStride s r)).getD 0
    let p := recCount s r
    longestSegment (gatherBytes s r (recOther s r)) (if p ≤ 1 then [] else if recRing s r then (List.range p).filter (· != (pos + 1) % p) else [pos])
  else 0

/-- GATHER's checks (R306, R391): the code, or 0, and the increment. -/
def checkGather (s : State) (h : Nat) (c : Cmd) : Nat × Nat :=
  let o := gaRef s c
  let d := o.desc
  let form := gaForm c
  let r := gaRecord c
  (firstCode [
    codeIf (maskBad c false false false true) Code.CMD_UNITS,
    codeIf (decide (2 < form) || c.fld 0x1C 4 == 0 || decide (2 ≤ c.fld 0x19 1) || !rsvdZero c.raw 0x26 26 ||
      (form == 0 && (gaPeer c != 0 || c.fld 0x20 4 != 0 || c.fld 0x24 2 != 0)) ||
      (form != 0 && (r != 0 || gaPeer c == moduleId s || decide (rd s F.DEV_IDENT_GROUP_SIZE ≤ gaPeer c)))) Code.COLL_FORMAT,
    codeIf (c.outValid && form != 2) Code.CMD_FORMAT,
    codeIf (form == 0 && paramBad s r) Code.PARAM_RECORD,
    codeIf (form == 0 && setBad s (recFirst s r) (recCount s r) (recStride s r)) Code.COLL_FORMAT,
    o.code,
    codeIf (decide (2 ^ 37 < gaSegment s c d)) Code.COLL_FORMAT,
    if o.isLater then 0 else codeIf (form == 2 && selfOverlap s d) Code.DESC_ALIAS,
    codeIf (foreignBank s h [d]) Code.OWNER_FAULT,
    codeIf (bankMissing s h c [d]) Code.CMD_UNITS], popcount c.bankMask 8)

/-! ### Members, shards and their elements -/

/-- Rank of a position, and the position of a rank; of a SEND and its RECV the sender is taken to be at position 0, and `first` is the peer
(DESIGN CHOICE, log entry 83). -/
def Coll.rank (c : Coll) (p : Nat) : Nat := if c.kind = 4 then c.first else c.first + p * c.stride
def Coll.posOf (c : Coll) (rank : Nat) : Option Nat :=
  if c.kind = 4 then (if rank = c.first then some (1 - c.pos) else none)
  else if c.stride = 0 ∨ rank < c.first ∨ (rank - c.first) % c.stride ≠ 0 ∨ c.count ≤ (rank - c.first) / c.stride then none
  else some ((rank - c.first) / c.stride)
/-- Position p − k around the ring. -/
def Coll.back (c : Coll) (p k : Nat) : Nat := (p + c.count * (k / max c.count 1 + 1) - k) % max c.count 1

/-- Index lists of a shard of a copy in canonical order: ascending shard-dim index, the other fastest (R291). -/
def shardIx (s : State) (r : Nat) (sd0 : Bool) (i : Nat) : List (List Nat) :=
  let lo := shardLo (recEa s r) (recCount s r) i
  (List.range (shardLen (recEa s r) (recCount s r) i)).flatMap fun a => (List.range (recEb s r)).map fun b => if sd0 then [lo + a, b] else [b, lo + a]

/-- Elements of a shard of a REDUCE, or of its whole tensor. -/
def Coll.shardElems (s : State) (c : Coll) (i : Nat) : Nat :=
  if c.form = 1 then (if i = c.root then c.elems else 0) else shardLen (recEa s c.record) c.count i * recEb s c.record

/-! ### Segment descriptors (Table 15-3) -/

def segDesc (kind id step form order parts part fmt hop first count stride shard elems bytes record : Nat) : Bytes :=
  leBytes 4 id ++ leBytes 4 step ++ leBytes 1 kind ++ leBytes 1 form ++ leBytes 1 order ++ leBytes 1 parts ++ leBytes 1 part ++
    leBytes 1 fmt ++ leBytes 2 hop ++ leBytes 2 first ++ leBytes 2 count ++ leBytes 2 stride ++ leBytes 2 shard ++ leBytes 8 elems ++
    leBytes 8 bytes ++ leBytes 8 record ++ zeros 16

/-- The descriptor of a segment of a collective: its kind (5 for a CHECK segment), part, hop and shard (R294, R391).
DEDUCED (log entry 81). -/
def Coll.desc (s : State) (c : Coll) (kind part hop shard : Nat) : Bytes :=
  let ord := if c.ring then 1 else 0
  match kind with
  | 1 =>
    let n := c.shardElems s shard
    segDesc 1 c.id c.step c.form ord c.parts (if c.ring then 0 else part) (if c.ring then 0x12 else 0x11) hop c.first c.count c.stride shard n
      (n * if c.ring then 4 else 2) c.record
  | 2 => segDesc 2 c.id c.step 0 ord 1 0 0x12 hop c.first c.count c.stride 0 1 4 c.record
  | 3 =>
    segDesc 3 c.id c.step 0 ord 1 0 0x11 hop c.first c.count c.stride shard (shardLen (recEa s c.record) c.count shard * recEb s c.record)
      (gatherBytes s c.record c.root shard) c.record
  | 4 => segDesc 4 c.id c.step 1 0 1 0 c.fmt 0 0 0 0 0 c.elems c.root 0
  | _ =>
    let (a, n, k) := if c.kind = 4 then (0, 0, 0) else (c.first, c.count, c.stride)
    segDesc 5 c.id c.step 0 0 0 0 0 hop a n k 0 1 8 0

def RxStream.kind (r : RxStream) : Nat := field r.desc 8 1
def RxStream.part (r : RxStream) : Nat := field r.desc 0xC 1
def RxStream.hop (r : RxStream) : Nat := field r.desc 0xE 2
def RxStream.shard (r : RxStream) : Nat := field r.desc 0x16 2
def RxStream.size (r : RxStream) : Nat := field r.desc 0x20 8
def RxStream.key (r : RxStream) : Nat × Nat := (field r.desc 0 4, field r.desc 4 4)

/-- Segments of a collective that have begun to arrive. -/
def collRx (s : State) (c : Coll) : List RxStream := s.rxs.filter fun r => r.key == (c.id, c.step)

/-- A segment is one that the local command expects from its sender (R294). -/
def Coll.expects (s : State) (c : Coll) (r : RxStream) : Bool :=
  let prev := c.rank (c.back c.pos 1)
  let member := (c.posOf r.src).isSome && r.src != moduleId s
  match r.kind with
  | 1 => c.kind == 1 && decide (r.part < max c.parts 1) && member && r.desc == c.desc s 1 r.part r.hop r.shard &&
      (if c.ring then r.src == prev && decide (1 ≤ r.hop) && decide (r.hop < c.count) && r.shard == c.back c.pos (1 + r.hop)
       else r.hop == 0 && r.shard == (if c.form = 1 then c.root else c.pos))
  | 2 => c.kind == 2 && member && r.desc == c.desc s 2 0 r.hop 0 &&
      (if c.ring then r.src == prev && decide (1 ≤ r.hop) && decide (r.hop ≤ 2 * (c.count - 1)) else r.hop == 0)
  | 3 => c.kind == 3 && member && r.desc == c.desc s 3 0 r.hop r.shard &&
      (if c.ring then r.src == prev && decide (1 ≤ r.hop) && decide (r.hop < c.count) && r.shard == c.back c.pos r.hop
       else r.hop == 0 && c.posOf r.src == some r.shard)
  | 4 => c.kind == 4 && c.form == 2 && r.src == c.first && r.desc == c.desc s 4 0 0 0
  | 5 => c.check && member && r.desc == c.desc s 5 0 r.hop 0
  | _ => false

/-! ### Where a collective works (R19, R284, R392) -/

/-- The e-th index list of a tensor in ascending linear index. -/
def Desc.nth (d : Desc) (e : Nat) : List Nat :=
  (d.sizes.foldl (fun (a : List Nat × Nat) n => (a.1 ++ [a.2 % max n 1], a.2 / max n 1)) ([], e)).1

/-- Device address of a tensor's element. -/
def Desc.at (d : Desc) (ix : List Nat) : Nat := match d.format with | some f => (d.elemAddr f ix).1 | none => d.base

/-- The command that a collective acts for, with its hearth. -/
def Coll.head (s : State) (c : Coll) : Option (Nat × Cmd) :=
  match c.cmds with | (h, q, _) :: _ => (findCmd s h q).map fun x => (h, x) | [] => none

/-- The destination of a SEND's receiver, or of a TO_ONE's root. -/
def Coll.ref (s : State) (c : Coll) : Desc :=
  match c.head s with
  | some (_, x) => if c.kind = 4 then (gaRef s x).desc else if c.pos = c.root then (rdDst s x).desc else (rdSrc s x).desc
  | none => descAt s 0

/-- The bytes that name the unit of what concerns a collective as a whole: its gradient shard, its record, or its tensor. -/
def Coll.site (s : State) (c : Coll) : List (Nat × Nat) :=
  (if c.kind = 1 ∧ c.form = 0 then (recGshard s c.record).ranges else []) ++
    if c.record ≠ 0 then [(c.record, 768)] else if c.kind = 1 ∨ c.kind = 4 then (c.ref s).ranges else []

/-- The unit that records a code of a collective (R19, R284). DESIGN CHOICE (log entry 34). -/
def Coll.unit (s : State) (c : Coll) : Nat × State := unitAt s (if c.kind = 2 then U.burnish else U.stitch) (c.site s)

/-- A collective fails. -/
def failAt (s : State) (c : Coll) (code : Nat) : State := let (u, s) := c.unit s; failColl s c u code

/-- Where a byte of a segment that arrives goes: the address of its destination element (R284, R392); none where this module only passes it
on, or for a byte that is no element's. -/
def landAddr (s : State) (c : Coll) (r : RxStream) (off : Nat) : Option Nat :=
  let ofRec (d : Desc) (sd0 : Bool) (e : Nat) : Nat :=
    let b := shardBox s c.record sd0 r.shard
    let i := e / max (recEb s c.record) 1
    let j := e % max (recEb s c.record) 1
    d.at (if sd0 then [b.1 + i, j] else [j, b.2.2.1 + i])
  let size (d : Desc) (k : Nat) : Nat := match d.format with | some f => 8 * k / f.bits | none => 0
  if r.kind = 1 ∧ c.kind = 1 then
    if c.form = 1 then some ((c.ref s).at ((c.ref s).nth (off / 2)))
    else if r.shard ≠ c.pos then none
    else let d := recGshard s c.record; some (d.at (d.nth (off / if c.ring then 4 else 2)))
  else if r.kind = 3 ∧ c.kind = 3 then
    let n := shardLen (recEa s c.record) (recCount s c.record) r.shard * recEb s c.record
    let f := recFwd s c.record c.root
    if off < 2 * n then some (ofRec (recWork s c.record c.root) (bit (recLayout s c.record) 0) (off / 2))
    else if size f (off - 2 * n) < n then some (ofRec f (bit (recLayout s c.record) 1) (size f (off - 2 * n))) else none
  else if r.kind = 4 ∧ c.kind = 4 then
    let d := c.ref s
    if size d off < d.count then some (d.at (d.nth (size d off))) else none
  else none

/-! ### Credit returned and digests -/

/-- KiB of a segment whose bytes have been consumed. -/
def kibDone (bytes size : Nat) : Nat := if bytes = size then ceilDiv size 1024 else bytes / 1024

/-- Bytes of a segment are consumed: landing-buffer errors show, and credit returns to the sender (R295). True on a double-bit
error. -/
def consume (s : State) (c : Coll) (r : RxStream) (bytes : Nat) : State × Bool :=
  if bytes ≤ r.consumed then (s, false)
  else
    let words := r.errs.filter fun e => decide (8 * e.1 < bytes) && decide (r.consumed ≤ 8 * e.1 + 7)
    let cmd := (c.head s).map fun x => cmdId s x.1 x.2
    if words.any fun e => decide (2 ≤ e.2) then (wr s F.STI_EVENT_LAND_UNCORR 1, true)
    else
      let s := each words s fun s e =>
        let (u, s) := unitAt s U.stitch (match landAddr s c r (8 * e.1) with | some a => [(a, 1)] | none => [])
        satAdd (wr (emberCode s u Code.LAND_CORR cmd) F.STI_EVENT_LAND_CORR 1) F.STI_ERR_CORR_COUNT 1
      let k := kibDone bytes r.size - kibDone r.consumed r.size
      let s := { s with rxs := s.rxs.map fun x => if x.src = r.src ∧ x.num = r.num ∧ x.key = r.key then { x with consumed := bytes } else x }
      (if k = 0 then s else sendTo s tECREDIT r.src r.num (leBytes 4 k ++ zeros 60), false)

/-- Consume every segment of a collective up to a number of bytes each; the code, or 0. DESIGN CHOICE (log entry 82). -/
def consumeAll (s : State) (c : Coll) (upTo : RxStream → Nat) : State × Nat :=
  (collRx s c).foldl (fun (a : State × Nat) r =>
    if a.2 ≠ 0 then a else
    let (s, bad) := consume a.1 c r (upTo r)
    (s, if bad then Code.LAND_ECC else 0)) (s, 0)

def xorAll (xs : List Nat) : Nat := xs.foldl (· ^^^ ·) 0

/-- Sent and received digests over the segments of the collective proper (R291). -/
def sentDigest (s : State) (c : Coll) : Nat :=
  xorAll (((c.shipped.filter fun x => field x.desc 8 1 != 5).map (·.crc)) ++
    (s.txs.filter fun t => t.coll == (c.id, c.step) && field t.desc 8 1 != 5).map fun t => crc64 t.bytes)
def recvDigest (s : State) (c : Coll) : Nat := xorAll (((collRx s c).filter fun r => r.kind != 5).map fun r => crc64 r.bytes)

/-- Put a collective back. -/
def setColl (s : State) (c : Coll) : State :=
  { s with colls := s.colls.map fun x => if x.id = c.id ∧ x.step = c.step then c else x }

/-- Bytes of a segment that wait in the landing buffers, by memory die: those of die A, those of die B, and those with no destination
element, or none in the near tier, whose die the spec does not show (R392). -/
def landSplit (s : State) (r : RxStream) : Nat × Nat × Nat :=
  let c := s.colls.find? fun c => (c.id, c.step) == r.key
  (List.range (r.bytes.length - r.consumed)).foldl (fun (n : Nat × Nat × Nat) i =>
    match c.bind fun c => landAddr s c r (r.consumed + i) with
    | some a => if nearEnd ≤ a then (n.1, n.2.1, n.2.2 + 1) else if dieOf (controllerOf a) = 0 then (n.1 + 1, n.2) else (n.1, n.2.1 + 1, n.2.2)
    | none => (n.1, n.2.1, n.2.2 + 1)) (0, 0, 0)

/-- The state of the Stitch units follows (Table 11-14). DESIGN CHOICE (log entry 35). -/
def syncStitch (s : State) : State :=
  let n := s.rxs.foldl (fun (n : Nat × Nat × Nat) r => let x := landSplit s r; (n.1 + x.1, n.2.1 + x.2.1, n.2.2 + x.2.2)) (0, 0, 0)
  let (x, s) := if n.2.2 = 0 then (0, s) else let (x, s) := takeFree s; (x % (n.2.2 + 1), s)
  let s := wr s F.STI_STATE_ACTIVE s.colls.length
  syncRails (wr (wr s F.STI_STATE_LANDA_KIB (ceilDiv (n.1 + x) 1024)) F.STI_STATE_LANDB_KIB (ceilDiv (n.2.1 + (n.2.2 - x)) 1024))

/-- A collective completes on this module: registers and the digest log (R292). -/
def logDigests (s : State) (c : Coll) : State :=
  let s := wr (wr s F.STI_LAST_COLL_ID c.id) F.STI_LAST_STEP c.step
  let s := wr (wr s F.STI_DSENT_SENT c.sent) F.STI_DRECV_RECV c.recv
  let n := rd s F.STI_DLOG_ENTRIES
  let entry := leBytes 4 c.id ++ leBytes 4 c.step ++ leBytes 8 c.sent ++ leBytes 8 c.recv ++ leBytes 2 c.pos ++ leBytes 1 (min c.kind 3) ++ zeros 5
  let a := rd s F.STI_DLOG_BASE_64 * 64 + 32 * (s.collCount % max n 1)
  let s := if n = 0 then s else unitUpdate s [(a, 32)] fun s => poke s a entry
  { s with collCount := s.collCount + 1 }

/-! ### Streams out -/

/-- The collective's stream with a descriptor to a member, if it is open. -/
def collTx (s : State) (c : Coll) (desc : Bytes) (dst : Nat) : Option TxStream :=
  s.txs.find? fun t => t.coll == (c.id, c.step) && t.desc == desc && t.dst == dst

/-- A segment has been sent and consumed. -/
def Coll.sent? (c : Coll) (dst : Nat) (desc : Bytes) : Bool := c.shipped.any fun x => x.dst == dst && x.desc == desc

/-- Send a segment, or more of it: `bytes` is its prefix known so far. The code of a failure, or 0. Where no STREAM is free it waits (R391). -/
def feed (s : State) (c : Coll) (cmd : Nat × Nat) (dst vc : Nat) (desc bytes : Bytes) : State × Nat :=
  let total := field desc 0x20 8
  if total = 0 || c.sent? dst desc then (s, 0) else
  match collTx s c desc dst with
  | some t => let t := { t with bytes := bytes }; (pumpStream (setTx s t) t, 0)
  | none =>
    if bytes.isEmpty then (s, 0)
    else match openStream s dst vc desc bytes total cmd (c.id, c.step) with
      | (s, true) => (s, Code.LINK_ROUTE)
      | (s, false) => (s, 0)

/-- Feed a list of segments: destination, descriptor, bytes. -/
def feedAll (s : State) (c : Coll) (cmd : Nat × Nat) (xs : List (Nat × Bytes × Bytes)) : State × Nat :=
  xs.foldl (fun (a : State × Nat) x => if a.2 ≠ 0 then a else feed a.1 c cmd x.1 (if c.kind = 4 then 2 else 1) x.2.1 x.2.2) (s, 0)

/-- Every segment of a list has been sent and consumed (R290). -/
def segsDone (c : Coll) (xs : List (Nat × Bytes × Bytes)) : Bool := xs.all fun x => field x.2.1 0x20 8 == 0 || c.sent? x.1 x.2.1

/-- Segments that have been sent and consumed give their STREAMs back (R391). -/
def shipDone (s : State) (c : Coll) : State × Coll :=
  let consumed (t : TxStream) : Bool := t.coll == (c.id, c.step) && t.finished && t.flight == 0
  let c := { c with shipped := c.shipped ++ (s.txs.filter consumed).map fun t => { dst := t.dst, desc := t.desc, crc := crc64 t.bytes, cmd := t.cmd } }
  (setColl { s with txs := s.txs.filter fun t => !consumed t } c, c)

/-! ### Contributions -/

/-- The module's own contributions to a shard, by part in ascending order. -/
def Coll.ownParts (c : Coll) (shard : Nat) : List (List Nat) :=
  (List.range c.parts).filterMap fun p => (c.own.find? fun x => x.1 == p && x.2.1 == shard).map (·.2.2)

/-- Add BF16 terms to a running FP32 sum, in a subnormal mode: the first is assigned where there is none (R106, R287); with whether a value
was flushed. -/
def addTerms (flush : Bool) (acc : Option Nat) (ts : List Nat) : Nat × Bool :=
  let r := ts.foldl (fun (a : Option Nat × Bool) t =>
    let (x, f) := Machine.bf16.load flush t
    let (v, g) := match a.1 with | none => (FVal.ofInt 0, false) | some n => fp32.load flush n
    let (n, k) := fp32.round flush (match a.1 with | none => x | some _ => v.add x)
    (some n, a.2 || f || g || k)) (acc, false)
  (r.1.getD 0, r.2)

/-- Running sums of a shard in ring order as far as they are known: `inc` are the sums received (none at the first hop). -/
def ringSums (flush : Bool) (c : Coll) (shard n : Nat) (inc : Option (List Nat)) : List (Nat × Bool) :=
  let own := c.ownParts shard
  if own.length < c.parts then [] else
  let k := match inc with | some xs => xs.length | none => n
  (List.range (min k n)).map fun e => addTerms flush (inc.map fun xs => xs.getD e 0) (own.map fun o => o.getD e 0)

/-- Whole elements of w bytes of a segment that have arrived. -/
def RxStream.words (r : RxStream) (w : Nat) : List Nat := (List.range (r.bytes.length / w)).map fun i => field r.bytes (w * i) w

def Coll.flush (s : State) (c : Coll) : Bool := match c.head s with | some (_, x) => x.subn | none => false

/-- A flush of a collective's sums is noted (R107), at the unit of some bytes. -/
def Coll.note (s : State) (c : Coll) (flushed : Bool) (rs : List (Nat × Nat)) : State :=
  match c.head s with
  | some (h, x) => if flushed then let (u, s) := unitAt s U.stitch rs; notices s h x u stSubn else s
  | none => s

/-! ### Completion -/

/-- Complete commands of a collective, and the collective when all its parts have completed (R290, R292). -/
def finishCmds (s : State) (c : Coll) (p : Nat × Nat → Bool) : State :=
  let s := each (c.cmds.filter fun m => p (m.1, m.2.1)) s fun s m =>
    match findCmd s m.1 m.2.1 with | some x => cmdDone s m.1 x | none => s
  let past (m : Nat × Nat × Nat) : Bool := match findCmd s m.1 m.2.1 with | some x => x.st == .done || x.st == .putting | none => true
  if c.cmds.length = c.parts ∧ c.cmds.all past then
    let c := { c with sent := sentDigest s c, recv := recvDigest s c }
    let s := logDigests s c
    let s := { s with rxs := s.rxs.filter fun r => r.key != (c.id, c.step) }
    endColl s c.id c.step
  else s

/-- The check of R293, once the work is done and the digests are final. -/
def checkGo (s : State) (c : Coll) : State :=
  let sent := sentDigest s c
  let recv := recvDigest s c
  let fail (s : State) : State := failAt (wr s F.STI_EVENT_DIGEST_MISMATCH 1) c Code.DIGEST_MISMATCH
  let val (r : RxStream) : Nat := field r.bytes 0 8
  let cmd := match c.cmds with | (h, q, _) :: _ => (h, q) | [] => (0, 0)
  let got := (collRx s c).filter fun r => r.kind == 5 && r.last
  let (s, code) := consumeAll s c fun r => if r.kind = 5 then r.bytes.length else 0
  if code ≠ 0 then failAt s c code
  else if c.count ≤ 1 then (if sent ^^^ recv = 0 then finishCmds s c fun _ => true else fail s)
  else if c.pos = 0 then
    if got.length + 1 < c.count then s
    else
      let x := xorAll ((sent ^^^ recv) :: got.map val)
      let out := ((List.range c.count).filter (· != 0)).map fun p => (c.rank p, c.desc s 5 0 2 0, leBytes 8 x)
      let (s, code) := feedAll s c cmd out
      if code ≠ 0 then failAt s c code
      else if !segsDone c out then s
      else if x = 0 then finishCmds s c fun _ => true else fail s
  else
    let (s, code) := feedAll s c cmd [(c.rank 0, c.desc s 5 0 1 0, leBytes 8 (sent ^^^ recv))]
    if code ≠ 0 then failAt s c code
    else match got with
      | [] => s
      | r :: _ => if val r = 0 then finishCmds s c fun _ => true else fail s

/-- A collective's work is done, and its segments have been consumed: it is checked where CHECK is set, or complete (R290, R293). -/
def workDone (s : State) (c : Coll) : State := if c.check then checkGo s c else finishCmds s c fun _ => true

/-! ### REDUCE (R286 to R290) -/

/-- Destination of this module's sum: its gradient shard, or DST at the root; with its index lists in canonical order. -/
def Coll.dest (s : State) (c : Coll) : Option (Nat × Cmd × Desc × List (List Nat)) :=
  match c.head s with
  | none => none
  | some (h, x) =>
    if c.form = 1 then (if c.pos = c.root then let d := (rdDst s x).desc; some (h, x, d, d.indices) else none)
    else let d := recGshard s c.record; if d.count = 0 then none else some (h, x, d, d.indices)

/-- Write the sum (R287): FP32 unchanged, BF16 under R99; the unit is that of the first element that was flushed, else of the first byte. The
code of a failure, or 0. What a request must wait for is held (R46). -/
def writeSum (s : State) (c : Coll) (sums : List (Nat × Bool)) : State × Nat :=
  match c.dest s with
  | none => (s, 0)
  | some (h, x, d, ixs) =>
    let first := (sums.zip ixs).find? fun p => p.1.2
    let (u, s) := unitAt s U.stitch (match first with | some p => [(d.at p.2, 1)] | none => d.ranges)
    match writeRanges s h x d.ranges with
    | (s, .wait) => (s, 0)
    | (s, .fail code) => (s, code)
    | (s, .ok holes) =>
      let m : StoreMode := { factor := none, before := fp32One, flush := x.subn, rnd := cmdRnd s x }
      let vals := (ixs.zip sums).foldl (fun (a : Smap Nat) p => a.set (d.linear p.1) p.2.1) []
      let (t, rep) := storeTensor s d m fun ix => fp32.decode (vals.get 0 (d.linear ix))
      let t := reportStore t h x u d { rep with stat := rep.stat ||| flagIf first.isSome stSubn }
      (holdBack s t h x u holes, 0)

/-- Count the contributions that Stitch units add (Table 17-3): by the controller of the GSHARD word, else as the spec does not show. -/
def stitchCount (s : State) (c : Coll) (terms : Nat) : State :=
  match c.dest s with
  | some (_, _, d, ixs) =>
    if c.form = 0 then
      let n0 := (ixs.filter fun ix => dieOf (controllerOf (d.lineAddr ix + 4 * ix.getD 0 0)) == 0).length
      cntMem (cntMem s 0 2 (n0 * terms)) 1 2 ((ixs.length - n0) * terms)
    else
      let n := ixs.length * terms
      let (x, s) := takeFree s
      cntMem (cntMem s 0 2 (x % (n + 1))) 1 2 (n - x % (n + 1))
  | none => s

/-- The sum in rank order is complete: every term has arrived. -/
def rankTerms (s : State) (c : Coll) (n : Nat) : List (List Nat) :=
  let me := if c.form = 1 then c.root else c.pos
  (List.range c.count).flatMap fun p => (List.range c.parts).map fun part =>
    if p = c.pos then (match c.own.find? fun x => x.1 == part && x.2.1 == me with | some x => x.2.2 | none => [])
    else match (collRx s c).find? fun r => r.kind == 1 && r.src == c.rank p && r.part == part with
      | some r => (r.words 2).take n
      | none => []

/-- The segments of a command's own contribution in rank order (R287, R288). -/
def reduceOut (s : State) (c : Coll) (part : Nat) : List (Nat × Bytes × Bytes) :=
  let shardOf (p : Nat) : List Nat := match c.own.find? fun x => x.1 == part && x.2.1 == p with | some x => x.2.2 | none => []
  ((if c.form = 1 then [c.root] else List.range c.count).filter (· != c.pos)).map fun p =>
    (c.rank p, c.desc s 1 part 0 p, (shardOf p).flatMap (leBytes 2))

/-- Progress of a REDUCE in ring order (R289, R290): sums are passed on, and the last is written. -/
def ringGo (s : State) (c : Coll) : State :=
  let f := c.flush s
  let cmd0 := match c.cmds with | (h, q, _) :: _ => (h, q) | [] => (0, 0)
  let inc (h : Nat) : Option (List Nat) := ((collRx s c).find? fun r => r.kind == 1 && r.hop == h).map fun r => r.words 4
  let sums (h : Nat) : List (Nat × Bool) :=
    let sh := c.back c.pos h
    ringSums f c sh (c.shardElems s sh) (if h = 1 then none else some ((inc (h - 1)).getD []))
  let hops := (List.range (c.count - 1)).map (· + 1)
  let out := hops.map fun h => (c.rank ((c.pos + 1) % max c.count 1), c.desc s 1 0 h (c.back c.pos h), (sums h).flatMap fun x => leBytes 4 x.1)
  let ready := (c.ownParts c.pos).length == c.parts
  let (s, code) := consumeAll s c fun r => if r.kind = 1 ∧ ready then r.bytes.length / 4 * 4 else r.consumed
  if code ≠ 0 then failAt s c code else
  let (s, code) := feedAll s c cmd0 out
  if code ≠ 0 then failAt s c code else
  let s := c.note s (hops.any fun h => (sums h).any (·.2)) (c.site s)
  let n := c.shardElems s c.pos
  let mine := ringSums f c c.pos n (if c.count = 1 then none else some ((inc (c.count - 1)).getD []))
  if c.written then (if ready && segsDone c out then workDone s c else s)
  else if ready && mine.length == n then
    match writeSum s c mine with
    | (s, 0) =>
      let c := { c with written := true }
      let s := stitchCount (setColl s c) c c.parts
      if segsDone c out then workDone s c else s
    | (s, code) => failAt s c code
  else s

/-- The end of a REDUCE in rank order whose sum is written: each command ends when its own segments are sent, or the CHECK begins (R290,
R293). -/
def rankFinish (s : State) (c : Coll) : State :=
  if c.check then (if c.cmds.length == c.parts && c.cmds.all fun m => segsDone c (reduceOut s c m.2.2) then checkGo s c else s)
  else finishCmds s c fun m => c.cmds.any fun x => (x.1, x.2.1) == m && segsDone c (reduceOut s c x.2.2)

/-- Progress of a REDUCE in rank order (R288, R290): contributions go to their owners, and this module's sum is written once it has every
term. -/
def rankGo (s : State) (c : Coll) : State :=
  let mine := if c.form = 1 then (if c.pos = c.root then c.elems else 0) else c.shardElems s c.pos
  let terms := rankTerms s c mine
  let upTo (k : Nat) : Nat := (terms.take (k + 1)).foldl (fun m t => min m t.length) mine
  let (s, code) := consumeAll s c fun r =>
    if r.kind = 1 then 2 * upTo ((c.posOf r.src).getD 0 * c.parts + r.part) else r.consumed
  if code ≠ 0 then failAt s c code else
  let (s, code) := c.cmds.foldl (fun (a : State × Nat) m => if a.2 ≠ 0 then a else feedAll a.1 c (m.1, m.2.1) (reduceOut a.1 c m.2.2)) (s, 0)
  if code ≠ 0 then failAt s c code else
  if c.written then rankFinish s c
  else if mine = 0 then let c := { c with written := true }; rankFinish (setColl s c) c
  else if terms.all fun t => t.length == mine then
    match writeSum s c ((List.range mine).map fun e => addTerms (c.flush s) none (terms.map fun t => t.getD e 0)) with
    | (s, 0) => let c := { c with written := true }; rankFinish (stitchCount (setColl s c) c terms.length) c
    | (s, code) => failAt s c code
  else s

/-- Progress of a REDUCE: consume, forward, write, complete. -/
def reduceGo (s : State) (c : Coll) : State := if c.ring then ringGo s c else rankGo s c

/-! ### GATHER and SEND, RECV (R306 to R308) -/

/-- Element bits and block codes of a tensor over index lists, as wire bytes: elements before exponents (R291). -/
def wireBytes (s : State) (d : Desc) (ixs : List (List Nat)) : Bytes :=
  match d.format with
  | none => []
  | some f =>
    pack f.bits (ixs.map fun ix => d.rawElem s f ix) ++
      if f.isDq then (ixs.filter fun ix => ix.getD d.blockDim 0 % 32 == 0).map fun ix => BitVec.ofNat 8 (d.expCode s f ix) else []

/-- Place wire bytes through a descriptor, unchanged (R95, R307, R308). -/
def placeBytes (s : State) (d : Desc) (ixs : List (List Nat)) (b : Bytes) : State :=
  match d.format with
  | none => s
  | some f =>
    let s := each (ixs.zip (List.range ixs.length)) s fun s p => d.setRaw s f p.1 (packedGet f.bits b p.2)
    if f.isDq then
      let ex := b.drop (ceilDiv (ixs.length * f.bits) 8)
      let firsts := ixs.filter fun ix => ix.getD d.blockDim 0 % 32 == 0
      each (firsts.zip (List.range firsts.length)) s fun s p => poke s (plainAddr s (d.expAddr f p.1)) [ex.getD p.2 0]
    else s

/-- The segment of a shard of slot O of a record (R307). DEDUCED (log entry 81). -/
def gatherSeg (s : State) (r i : Nat) : Bytes :=
  let o := recOther s r
  wireBytes s (recWork s r o) (shardIx s r (bit (recLayout s r) 0) i) ++
    if recHasFwd s r then wireBytes s (recFwd s r o) (shardIx s r (bit (recLayout s r) 1) i) else []

/-- Write a received shard to its place in slot O. -/
def placeShard (s : State) (r i : Nat) (b : Bytes) : State :=
  let o := recOther s r
  let w := recWork s r o
  let ixs := shardIx s r (bit (recLayout s r) 0) i
  let s := placeBytes s w ixs b
  if recHasFwd s r then placeBytes s (recFwd s r o) (shardIx s r (bit (recLayout s r) 1) i) (b.drop (2 * ixs.length)) else s

/-- The segments that a gather sends (R307): this member's shard to every other, or around the ring its own and those that have come. -/
def gatherOut (s : State) (c : Coll) (own : Bytes) (rxOf : Nat → Option RxStream) : List (Nat × Bytes × Bytes) :=
  if c.ring then
    (List.range (c.count - 1)).map fun h =>
      let sh := c.back c.pos h
      (c.rank ((c.pos + 1) % max c.count 1), c.desc s 3 0 (h + 1) sh,
       if h = 0 then own else match rxOf sh with | some r => r.bytes | none => [])
  else ((List.range c.count).filter (· != c.pos)).map fun p => (c.rank p, c.desc s 3 0 0 c.pos, own)

/-- Progress of a GATHER of the PARAM form (R307); `root` is the slot. -/
def gatherGo (s : State) (c : Coll) : State :=
  let cmd0 := match c.cmds with | (h, q, _) :: _ => (h, q) | [] => (0, 0)
  let (s, code) := consumeAll s c fun r => if r.kind = 3 then r.bytes.length else r.consumed
  if code ≠ 0 then failAt s c code else
  let rxOf (sh : Nat) : Option RxStream := (collRx s c).find? fun r => r.kind == 3 && r.shard == sh
  let out := gatherOut s c (gatherSeg s c.record c.pos) rxOf
  let (s, code) := feedAll s c cmd0 out
  if code ≠ 0 then failAt s c code else
  let others := ((List.range c.count).filter fun p => p != c.pos && gatherBytes s c.record c.root p != 0)
  let full := others.all fun p => match rxOf p with | some r => r.last && r.bytes.length == r.size | none => false
  if c.written then (if segsDone c out then workDone s c else s)
  else if !full then s
  else
    match c.head s with
    | none => s
    | some (h, x) =>
      let (u, s) := c.unit s
      match writeRanges s h x (others.flatMap (copyRanges s c.record c.root)) with
      | (s, .wait) => s
      | (s, .fail code) => failColl s c u code
      | (s, .ok holes) =>
        let t := each others s fun s p => match rxOf p with | some r => placeShard s c.record p r.bytes | none => s
        let c := { c with written := true }
        let s := setColl (holdBack s t h x u holes) c
        if segsDone c out then workDone s c else s

/-- Progress of a SEND (form 1) or a RECV (form 2) (R308); `first` is the peer, `root` the segment's bytes, and `own` of a SEND its elements. -/
def sendRecvGo (s : State) (c : Coll) : State :=
  if c.form = 1 then
    let cmd := match c.cmds with | (h, q, _) :: _ => (h, q) | [] => (0, 0)
    let out := [(c.first, c.desc s 4 0 0 0, (c.own.flatMap (·.2.2)).flatMap (leBytes 1))]
    let (s, code) := feedAll s c cmd out
    if code ≠ 0 then failAt s c code else if segsDone c out then workDone s c else s
  else
    let (s, code) := consumeAll s c fun r => if r.kind = 4 then r.bytes.length else r.consumed
    if code ≠ 0 then failAt s c code else
    if c.root = 0 || c.written then workDone s c else
    match (collRx s c).find? fun r => r.kind == 4 && r.last, c.head s with
    | some r, some (h, x) =>
      let d := (gaRef s x).desc
      let (u, s) := c.unit s
      match writeRanges s h x d.ranges with
      | (s, .wait) => s
      | (s, .fail code) => failColl s c u code
      | (s, .ok holes) =>
        let c := { c with written := true }
        workDone (setColl (holdBack s (placeBytes s d d.indices r.bytes) h x u holes) c) c
    | _, _ => s

/-! ### The optimiser's forward copy (R302) -/

/-- Ordered index lists of a shard's block firsts in the forward copy. -/
def fwdFirsts (s : State) (r i : Nat) (d : Desc) : List (List Nat) :=
  (shardIx s r (bit (recLayout s r) 1) i).filter fun ix => ix.getD d.blockDim 0 % 32 == 0

/-- `appendScale`, with whether its own scale overflowed (R92). -/
def appendOvf (s : State) (a : Nat) : State × Bool :=
  let old := peekNat s (a + 0x10) 2
  let s := appendScale (poke s (a + 0x10) (leBytes 2 (old - old % 4 / 2 * 2))) a
  let new := peekNat s (a + 0x10) 2
  (poke s (a + 0x10) (leBytes 2 (new ||| old)), bit new 1)

/-- Steps 4 to 6 of R302 with the maximum M. -/
def finishFwd (s : State) (h : Nat) (x : Cmd) (r m : Nat) : State :=
  let l := recLive s r
  let o := recOther s r
  let pos := (positionIn s (recFirst s r) (recCount s r) (recStride s r)).getD 0
  let lo := shardLo (recEa s r) (recCount s r) pos
  let d := recFwd s r o
  let src := (recFwd s r l).scalePtr
  let dst := d.scalePtr
  let len := 32 + 4 * peekNat s src 2
  let sd0 := bit (recLayout s r) 1
  let (u, s) := unitAt s U.burnish ((recMaster s r o).ranges ++ [(r, 768)])
  orFail h x u (touchRanges s (idDisp h) false (some (cmdId s h x)) [(src, len)]) fun s _ =>
  orFail h x u (writeRanges s h x (shardRanges s r d sd0 pos ++ [(dst, len)])) fun s holes =>
    let t := poke s dst (peekBytes s src len)
    let t := poke (poke t (dst + 0xC) (leBytes 4 m)) (dst + 0x12) [1]
    let (t, ovf) := appendOvf t dst
    let t := if ovf then wr t F.BUR_EVENT_SCALE_OVF 1 else t
    match d.format with
    | none => t
    | some f =>
      let w := recMaster t r o
      let val (ix : List Nat) : FVal :=
        let a := if sd0 then ix.getD 0 0 else ix.getD 1 0
        let b := if sd0 then ix.getD 1 0 else ix.getD 0 0
        fp32.decode (w.rawElem t .fp32 [b, a - lo])
      let mode : StoreMode := { factor := some (fp32Div fp32One (peekNat t (dst + 8) 4)), before := fp32One, flush := x.subn, rnd := cmdRnd t x }
      let (t, rep) := (fwdFirsts t r pos d).foldl (fun (a : State × Report) ix =>
        let (t, q) := storeBlockAt a.1 d f mode val ix; (t, a.2.merge q)) (t, Report.empty)
      let t := poke t (dst + 0x10) (leBytes 2 (peekNat t (dst + 0x10) 2 ||| rep.stat % 128))
      let t := poke t (dst + 0x14) (leBytes 4 (peekNat t (dst + 0x14) 4 + rep.dom))
      let t := holdBack s (notices t h x u rep.stat) h x u holes
      let t := wr (wr (wr t F.BUR_LAST_RECORD_256 (r / 256)) F.BUR_LAST_SLOT o) F.BUR_LASTSTEP_STEP (recSstep t r o)
      cmdDone t h x

/-- Progress of an amax exchange (R302): `own` holds this member's amax. DEDUCED (log entry 81). -/
def amaxGo (s : State) (c : Coll) : State :=
  let cmd0 := match c.cmds with | (h, q, _) :: _ => (h, q) | [] => (0, 0)
  let mine := match c.own with | (_, _, v :: _) :: _ => v | _ => 0
  let (s, code) := consumeAll s c fun r => if r.kind = 2 then r.bytes.length else r.consumed
  if code ≠ 0 then failAt s c code else
  let inc (h : Nat) : Option Nat := ((collRx s c).find? fun r => r.kind == 2 && r.hop == h && r.last).map fun r => field r.bytes 0 4
  let run (h : Nat) : Bytes :=
    if h = 1 then leBytes 4 mine else match inc (h - 1) with | some v => leBytes 4 (fp32MaxMag v mine) | none => []
  let out := if c.ring then
      (List.range (2 * (c.count - 1))).map fun h => (c.rank ((c.pos + 1) % max c.count 1), c.desc s 2 0 (h + 1) 0, run (h + 1))
    else ((List.range c.count).filter (· != c.pos)).map fun p => (c.rank p, c.desc s 2 0 0 0, leBytes 4 mine)
  let (s, code) := feedAll s c cmd0 out
  if code ≠ 0 then failAt s c code else
  let got := (collRx s c).filter fun r => r.kind == 2 && r.last
  let need := if c.ring then 2 * (c.count - 1) else c.count - 1
  if got.length < need || !segsDone c out then s
  else
    let m := got.foldl (fun a r => fp32MaxMag a (field r.bytes 0 4)) mine
    match c.head s with
    | some (h, x) =>
      let s := finishFwd s h x c.record m
      if (findCmd s h x.seq).any fun y => y.fail != 0 then endColl s c.id c.step else finishCmds s c fun _ => false
    | none => s

end Sys2Proof.Machine
end

