-- ==== Sys2Proof/Machine/Stop.lean ====
section
/-! DEFINITION. The global stop (R440 to R443): its start, and what a unit does when markers reach it. -/

namespace Sys2Proof.Machine

/-- A STOP_MARK frame (Table 17-6). -/
def stopMark (origin flags id dst src : Nat) : Pkt :=
  ctlPkt tSTOP 0 dst src (leBytes 2 origin ++ leBytes 2 flags ++ leBytes 4 id ++ zeros 56)

/-- The module at the other end of a link. -/
def peerOf (s : State) (l : Nat) : Nat := if l = 12 then rd s F.DEV_IDENT_TWIN_ID else rd s (F.CLK_CFG_PEER l)

/-- Send a STOP_MARK on a link. -/
def sendMark (s : State) (l origin flags id : Nat) : State := post s l (stopMark origin flags id (peerOf s l) (moduleId s))

/-- A global stop starts, if the device is in RUN and none is in progress (R440): SOURCE, ORIGIN and STOP_ID. -/
def startStop (s : State) (source origin id : Nat) : State :=
  if !isRun s || stopActive s then s else
  let s := wr (wr (wr (wr s F.MGT_STOP_STATE_STATE 1) F.MGT_STOP_STATE_SOURCE source) F.MGT_STOP_STATE_ORIGIN origin) F.MGT_STOP_STATE_STOP_ID id
  wr (wr { s with stops := [] } F.MGT_STOP_UNITS_STOPPED 0) F.MGT_STOP_UNITS_HOLDING 0

/-- A stop that this module originates: each increments its STOP_ID (R440). -/
def ownStop (s : State) (source : Nat) : State :=
  if !isRun s || stopActive s then s
  else startStop { s with stopId := (s.stopId + 1) % 2 ^ 32 } source (moduleId s) ((s.stopId + 1) % 2 ^ 32)

/-- The state that a unit's STOP_UNIT entry carries (Table 17-5). -/
def unitArg (s : State) (u : Nat) : Nat :=
  if u < 0x200 then
    let h := u / 32
    let k := u % 32
    if 16 ≤ k then (regVal s (F.MXE_STATE_STATE h (k - 16)).off).toNat % 2 ^ 32
    else if 8 ≤ k then (getCore s (8 * h + (k - 8))).pc
    else 0
  else if 0x2A8 ≤ u ∧ u < 0x2AC then (getCore s (128 + (u - 0x2A8))).pc
  else 0

/-- The Colkin or Girth link of a unit. -/
def unitLink (u : Nat) : Option Nat := if 0x290 ≤ u ∧ u ≤ 0x29C then some (u - 0x290) else none

def noStop : StopRec := { seen := false, chans := [], stopped := false }

/-- The first marker at a unit (R441): its STOP_UNIT entry; a link unit sends its STOP_MARK (R443). -/
def firstMarker (s : State) (u : Nat) : State :=
  let id := rd s F.MGT_STOP_STATE_STOP_ID
  let s := emberPut s u 3 (id % 65536) 0 false 0 (unitArg s u)
  let s := { s with stops := s.stops.set u { s.stops.get noStop u with seen := true } }
  match unitLink u with
  | none => s
  | some l =>
    if !linkUp s l then s
    else sendMark (setLink s l { getLink s l with marked := true }) l (rd s F.MGT_STOP_STATE_ORIGIN) 0 id

/-- A link unit's input is the link: its marker is the peer's STOP_MARK (R443). -/
def inputsDone (s : State) (u : Nat) : Bool :=
  match unitLink u with
  | none => true
  | some l => !linkUp s l || (getLink s l).peerMark

/-- When every unit has stopped, the device is STOPPED and the rings freeze (R439, R441). -/
def stopComplete (s : State) : State :=
  if unitNumbers.all fun u => (s.stops.get noStop u).stopped then
    wr (wr (wr s F.MGT_STOP_STATE_STATE 2) F.DEV_STATE_POWER 4) F.EMB_CTL_FREEZE 1
  else s

/-- STOP_MARKER: unit u receives the marker on input `chan`, on which it holds `items` items, a link unit the frames held on its receive
side (R443); `last` says that every input has delivered it (R441). DESIGN CHOICE (log entry 49). -/
def execStopMarker (u chan items : Nat) (last : Bool) (s : State) : Res :=
  if rd s F.MGT_STOP_STATE_STATE != 1 || !isRun s || !unitNumbers.contains u || (s.stops.get noStop u).stopped then .next s else
  let s := if (s.stops.get noStop u).seen then s else firstMarker s u
  let r := s.stops.get noStop u
  let r := match unitLink u with
    | some l => { r with chans := if (getLink s l).held.isEmpty then [] else [(chan, (getLink s l).held.length)] }
    | none => { r with chans := if items = 0 then r.chans else r.chans ++ [(chan, items)] }
  if last && inputsDone s u then
    let s := each r.chans { s with stops := s.stops.set u { r with stopped := true } } fun s c => emberPut s u 4 c.1 0 false 0 c.2
    let s := wrapAdd s F.MGT_STOP_UNITS_STOPPED 1
    let s := if r.chans.isEmpty then s else wrapAdd s F.MGT_STOP_UNITS_HOLDING 1
    .next (stopComplete s)
  else .next { s with stops := s.stops.set u r }

/-- GLOBAL_STOP: `MGT_STOP_CTL.OP` 1 from the lead host (R440, R453). -/
def execGlobalStop (src : Src) (s : State) : Res :=
  if !served s src then .next s
  else if !isLead s src then .next (cfgErr s Code.NOT_LEAD 0x14 0x200000)
  else .next (ownStop s 0)

/-- STOP_REQ_EDGE: the stop-request input (R440, R465). -/
def execStopReqEdge (s : State) : Res := .next (ownStop s 1)

end Sys2Proof.Machine
end

