-- ==== Sys2Proof/Machine/Image.lean ====
section
/-! DEFINITION. Images of the committed state (R397, R413): how they are built, checked and taken apart. -/

namespace Sys2Proof.Machine

/-- Pad to a multiple of 64 bytes. -/
def pad64 (b : Bytes) : Bytes := b ++ zeros ((64 - b.length % 64) % 64)

/-- Entries of the extra list: address and length (Table 15-20). -/
def extraList (s : State) : List (Nat × Nat) :=
  (List.range (rd s F.GRT_XLIST_COUNT)).map fun i =>
    let a := rd s F.GRT_XLIST_BASE_64 * 64 + 16 * i
    (peekNat s a 8, peekNat s (a + 8) 8)

/-- Bytes of the scale record of a forward copy, or 0. -/
def scaleBytes (s : State) (r slot : Nat) : Nat :=
  if recHasFwd s r then 32 + 4 * peekNat s (recFwd s r slot).scalePtr 2 else 0

/-- The elements of a shard tensor in canonical order (R291; DEDUCED, log entry 37). -/
def tensorBytes (s : State) (d : Desc) : Bytes := wireBytes s d d.indices

/-- The tensors of a record's slot that an image holds, in order. -/
def imageTensors (s : State) (r slot : Nat) : List Desc :=
  [recMaster s r slot, recM1 s r slot] ++ if recPtr s r 0x20 != 0 then [recM2 s r slot] else []

/-- A record's block header (Table 15-5). -/
def blockHeader (s : State) (r : Nat) : Bytes :=
  let l := recLive s r
  leBytes 8 r ++ leBytes 4 (ownLen s r) ++ leBytes 4 (recEb s r) ++ peekBytes s (r + 0x70) 40 ++ leBytes 1 (recM1 s r l).fmt ++
    leBytes 1 ((if recPtr s r 0x20 != 0 then 1 else 0) + if recHasFwd s r then 2 else 0) ++ zeros 2 ++ leBytes 4 (scaleBytes s r l)

/-- A record's block: header, tensors of the live slot, scale record of the live forward copy, each on a 64-byte boundary.
DEDUCED (log entry 37). -/
def imageBlock (s : State) (r : Nat) : Bytes :=
  let l := recLive s r
  blockHeader s r ++ (imageTensors s r l).flatMap (fun d => pad64 (tensorBytes s d)) ++
    if recHasFwd s r then pad64 (peekBytes s (recFwd s r l).scalePtr (scaleBytes s r l)) else []

/-- The body of an image: every record of the parameter directory, then every region of the extra list (R397). -/
def imageBody (s : State) : Bytes :=
  (pdirRecords s).flatMap (imageBlock s) ++ (extraList s).flatMap fun e => pad64 (peekBytes s e.1 e.2)

/-- An image of the committed state (Table 15-5). -/
def buildImage (s : State) (kind gen step : Nat) : Bytes :=
  let body := imageBody s
  leBytes 4 0x54524947 ++ leBytes 2 1 ++ leBytes 2 (moduleId s) ++ leBytes 4 gen ++ leBytes 4 step ++ leBytes 8 body.length ++
    leBytes 8 (crc64 body) ++ leBytes 4 (pdirCount s) ++ leBytes 1 kind ++ zeros 3 ++ zeros 4 ++ zeros 211 ++ [1] ++ body

/-- The bytes that an image is built from: the directory and the extra list themselves, every record, the tensors of its live slot and
the scale record of its forward copy, and the regions of the extra list. -/
def imageRanges (s : State) : List (Nat × Nat) :=
  (rd s F.BUR_PDIR_BASE_64 * 64, 8 * pdirCount s) :: (rd s F.GRT_XLIST_BASE_64 * 64, 16 * rd s F.GRT_XLIST_COUNT) ::
    ((pdirRecords s).flatMap fun r =>
      let l := recLive s r
      (r, 768) :: (imageTensors s r l).flatMap Desc.ranges ++ if recHasFwd s r then [((recFwd s r l).scalePtr, scaleBytes s r l)] else []) ++
    extraList s

def imgGen (b : Bytes) : Nat := field b 8 4
def imgStep (b : Bytes) : Nat := field b 0xC 4
def imgBytes (b : Bytes) : Nat := field b 0x10 8

/-- An image is complete (R413). -/
def imgComplete (b : Bytes) : Bool :=
  field b 0xFF 1 == 1 && b.length == 256 + imgBytes b && field b 0x18 8 == crc64 (b.drop 256)

/-! ### Taking an image apart (R428) -/

/-- A block of an image as the directory describes it: its length, or none where it does not match record r (R428). -/
def blockSize (s : State) (r : Nat) (b : Bytes) : Option Nat :=
  let fl := field b 0x39 1
  let hasM2 := recPtr s r 0x20 != 0
  let dims := [recEb s r, ownLen s r]
  if field b 0 8 != r || field b 8 4 != ownLen s r || field b 0xC 4 != recEb s r || bit fl 0 != hasM2 || bit fl 1 != recHasFwd s r then none
  else
    let n := dims.foldl (· * ·) 1
    let w := if field b 0x38 1 = 0x11 then 2 else 4
    let up (x : Nat) : Nat := ceilDiv x 64 * 64
    some (64 + up (4 * n) + (if hasM2 then 2 else 1) * up (w * n) + up (field b 0x3C 4))

/-- The blocks of an image's body with their records, and the offset of the extra regions; none where some block does not match. -/
def splitBlocks (s : State) : List Nat → Bytes → Option (List (Nat × Bytes) × Bytes)
  | [], b => some ([], b)
  | r :: rs, b =>
    match blockSize s r b with
    | none => none
    | some n =>
      if b.length < n then none
      else match splitBlocks s rs (b.drop n) with
        | none => none
        | some (xs, rest) => some ((r, b.take n) :: xs, rest)

/-- The checks of R428 on an image. -/
def imageFits (s : State) (b : Bytes) : Bool :=
  imgComplete b && field b 0 4 == 0x54524947 && field b 4 2 == 1 && field b 6 2 == moduleId s && field b 0x20 4 == pdirCount s &&
  match splitBlocks s (pdirRecords s) (b.drop 256) with
  | none => false
  | some (_, rest) => rest.length == (extraList s).foldl (fun a e => a + ceilDiv e.2 64 * 64) 0

/-- Recompute the own shard of WORK and FWD of the live slot from its master (R428). -/
def recompute (s : State) (r : Nat) : State :=
  let l := recLive s r
  let w := recMaster s r l
  let pos := (positionIn s (recFirst s r) (recCount s r) (recStride s r)).getD 0
  let lo := shardLo (recEa s r) (recCount s r) pos
  let val (sd0 : Bool) (ix : List Nat) : FVal :=
    let a := if sd0 then ix.getD 0 0 else ix.getD 1 0
    let b := if sd0 then ix.getD 1 0 else ix.getD 0 0
    fp32.decode (w.rawElem s .fp32 [b, a - lo])
  let sdw := bit (recLayout s r) 0
  let work := recWork s r l
  let s := each (shardIx s r sdw pos) s fun s ix => work.setRaw s .bf16 ix (bf16.round false (val sdw ix)).1
  if !recHasFwd s r then s else
  let d := recFwd s r l
  match d.format with
  | none => s
  | some f =>
    let mode : StoreMode := { factor := some (fp32Div fp32One (peekNat s (d.scalePtr + 8) 4)), before := fp32One, flush := false, rnd := fun _ => none }
    (fwdFirsts s r pos d).foldl (fun s ix => (storeBlockAt s d f mode (val (bit (recLayout s r) 1)) ix).1) s

/-- Write one block back (Table 16-2): record bytes 0x70 to 0x97 with PEND and the holds 0, the tensors of the slot that LIVE names and the
scale record of its forward copy. -/
def restoreBlock (s : State) (r : Nat) (b : Bytes) : State :=
  let s := poke s (r + 0x70) ((b.drop 0x10).take 40)
  let s := poke (poke s (r + 0x71) [0]) (r + 0x74) (zeros 4)
  let l := recLive s r
  let (s, off) := (imageTensors s r l).foldl (fun (a : State × Nat) d =>
    let n := (tensorBytes a.1 d).length
    (placeBytes a.1 d d.indices ((b.drop a.2).take n), a.2 + ceilDiv n 64 * 64)) (s, 64)
  let s := if recHasFwd s r then poke s (recFwd s r l).scalePtr ((b.drop off).take (field b 0x3C 4)) else s
  recompute s r

/-- Write every part of an image that has been checked. -/
def restoreParts (s : State) (b : Bytes) : State :=
  match splitBlocks s (pdirRecords s) (b.drop 256) with
  | none => s
  | some (xs, rest) =>
    let ext := extraList s
    let s := xs.foldl (fun s x => restoreBlock s x.1 x.2) s
    (ext.foldl (fun (a : State × Bytes) e => (poke a.1 e.1 (a.2.take e.2), a.2.drop (ceilDiv e.2 64 * 64))) (s, rest)).1

/-- The ranges that a restore writes, in either slot, since the image says which is live (Table 16-2). -/
def restoreRanges (s : State) : List (Nat × Nat) :=
  ((pdirRecords s).flatMap fun r => (r + 0x70, 40) :: [0, 1].flatMap fun l =>
    let pos := (positionIn s (recFirst s r) (recCount s r) (recStride s r)).getD 0
    (imageTensors s r l).flatMap Desc.ranges ++ copyRanges s r l pos ++
      if recHasFwd s r then [((recFwd s r l).scalePtr, scaleBytes s r l)] else []) ++ extraList s

end Sys2Proof.Machine
end

