-- ==== Sys2Proof/Machine/Parity.lean ====
section
/-! DEFINITION. The replay log, restores, coded snapshots and the exchanges of FILL and SERVE (R419 to R422, R428 to R430). -/

namespace Sys2Proof.Machine

/-! ### The replay log (R422) -/

/-- An entry goes to its place in the replay log (R422). -/
def rlogWrite (s : State) (e : Bytes) : State :=
  let k := rd s F.MGT_RLOG_SIZE_LOG2
  if k = 0 then s else
  rlogPut (wrapAdd s F.MGT_RLOG_IDX_NEXT 1) (rd s F.MGT_RLOG_BASE + 64 * (rd s F.MGT_RLOG_IDX_NEXT % 2 ^ k)) (e.take 63)

/-- The RESTORE entry of a restore or rollback (Table 16-6). -/
def rlogRestore (s : State) (source gen step : Nat) : State :=
  rlogWrite s (leBytes 1 3 ++ leBytes 1 source ++ leBytes 2 (rd s F.MGT_RESTORE_STATE_EPOCH) ++ leBytes 4 gen ++ zeros 8 ++ leBytes 4 step ++ zeros 43)

/-! ### Ends of operations (Table 16-14) -/

def restoreFail (s : State) (code : Nat) : State := wr (wr s F.MGT_RESTORE_STATE_RESULT 3) F.MGT_RESTORE_STATE_CODE code
def restoreDone (s : State) : State := wr s F.MGT_RESTORE_STATE_RESULT 2

/-- The generation goes back: EPOCH and the replay log follow (R411, R424, R428). DEDUCED (log entry 88). -/
def setGeneration (s : State) (source gen step : Nat) : State :=
  let s := wrapAdd (wr { s with commitStep := step } F.DEV_COMMIT_GEN_GEN gen) F.MGT_RESTORE_STATE_EPOCH 1
  syncReports (rlogRestore s source gen step)

/-- Restore from the bytes of an image (R428). A write that fails leaves the parts with free contents. DEDUCED (log entry 88). -/
def restoreFrom (s : State) (source : Nat) (b : Bytes) : State :=
  if !imageFits s b then restoreFail s Code.RESTORE_IMAGE else
  match touchRanges s idSup true none (restoreRanges s) with
  | (s, .ok _) =>
    let s := { restoreParts s b with undoGen := none }
    restoreDone (setGeneration s source (imgGen b) (imgStep b))
  | (s, r) =>
    let s := each (restoreRanges s) s fun s x =>
      let (d, s) := takeFreeBytes s x.2
      poke s x.1 d
    restoreFail s (match r with | .fail c => c | _ => Code.RESTORE_STATE)

/-! ### Chunks as vectors over GF(2^8) (R419) -/

def xorBytes (a b : List Nat) : List Nat := a.zipWith (· ^^^ ·) b
def gfScale (m : Nat) (a : List Nat) : List Nat := a.map (gfMul m)

/-! ### Rows of the parity group (R419) -/

def pgSize (s : State) : Nat := rd s F.MGT_CKPT_PARITY_G
def pgChunk (s : State) : Nat := rd s F.MGT_CKPT_CFG_CHUNK_64K * 65536
def pgRank (s : State) (i : Nat) : Nat := rd s F.MGT_CKPT_PARITY_FIRST + i * rd s F.MGT_CKPT_PARITY_STRIDE
def pgPosOf (s : State) (rank : Nat) : Option Nat := (List.range (pgSize s)).find? fun i => pgRank s i == rank
def pgPos (s : State) : Option Nat := pgPosOf s (moduleId s)

/-- The contributors of a row, in ascending position, and the rows to which a member contributes, ascending. -/
def rowMembers (g r : Nat) : List Nat := (List.range g).filter fun i => i != r && i != (r + 1) % max g 1
def memberRows (g i : Nat) : List Nat := (List.range g).filter fun r => r != i && i != (r + 1) % max g 1
def rowIndex (g r i : Nat) : Nat := (rowMembers g r).findIdx (· == i)

/-- Chunk t of an image padded with zeros to k × C bytes. -/
def chunkOf (s : State) (b : Bytes) (t : Nat) : List Nat :=
  let c := pgChunk s
  let x := ((b.drop (t * c)).take c).map BitVec.toNat
  x ++ List.replicate (c - x.length) 0

/-- The descriptor of a chunk's segment: a SEND segment whose shard is the row (DEDUCED, log entry 38). -/
def chunkDesc (s : State) (id step row : Nat) : Bytes := segDesc 4 id step 1 0 1 0 0x02 0 0 0 0 row (pgChunk s) (pgChunk s) 0

/-- The segments of an exchange of chunks that have arrived whole for a row: source and bytes. -/
def chunkRx (s : State) (c : Coll) (row : Nat) : List (Nat × List Nat) :=
  ((collRx s c).filter fun r => r.desc == chunkDesc s c.id c.step row && r.last && r.bytes.length == r.size).map fun r =>
    (r.src, r.bytes.map BitVec.toNat)

/-- Feed a list of chunk segments on VC 2. -/
def feedChunks (s : State) (c : Coll) (xs : List (Nat × Nat × List Nat)) : State × Nat :=
  xs.foldl (fun (a : State × Nat) x =>
    if a.2 ≠ 0 then a else feed a.1 c (0, 0) x.1 2 (chunkDesc a.1 c.id c.step x.2.1) (x.2.2.flatMap (leBytes 1))) (s, 0)

/-- Every stream of a list of chunks is open, sent and consumed. -/
def chunksSent (s : State) (c : Coll) (xs : List (Nat × Nat × List Nat)) : Bool :=
  xs.all fun x => x.2.2.isEmpty || c.sent? x.1 (chunkDesc s c.id c.step x.2.1)

/-- Fail an exchange. -/
def exchangeFail (s : State) (c : Coll) (code : Nat) : State := endExchange (endColl s c.id c.step) c.kind code

/-- Progress of the parity exchange of a CKPT (R420): chunks go to the holders; the two parity chunks of this member become whole.
DEDUCED (log entry 86). -/
def parityGo (s : State) (c : Coll) : State :=
  match s.staged, pgPos s with
  | some st, some i =>
    let g := pgSize s
    let img := peekBytes s (rd s F.MGT_CKPT_STAGE_BASE_64K * 65536) st.size
    let out := (((memberRows g i).zip (List.range g)).flatMap fun x =>
      let d := chunkOf s img x.2
      [(pgRank s x.1, x.1, d), (pgRank s ((x.1 + 1) % max g 1), x.1, gfScale (gfPow2 (rowIndex g x.1 i)) d)])
    let (s, code) := consumeAll s c fun r => r.bytes.length
    if code ≠ 0 then exchangeFail s c code else
    let (s, code) := feedChunks s c out
    if code ≠ 0 then exchangeFail s c code else
    let sum (row : Nat) : Option Bytes :=
      let xs := chunkRx s c row
      if xs.length < g - 2 then none
      else some ((xs.foldl (fun a x => xorBytes a x.2) (List.replicate (pgChunk s) 0)).flatMap (leBytes 1))
    let st := { st with p := sum i, q := sum ((i + g - 1) % max g 1) }
    let s := { s with staged := some st }
    if st.p.isSome && st.q.isSome && chunksSent s c out then wr (endColl s c.id c.step) F.MGT_CKPT_STATE_STATE 3 else s
  | _, _ => s

/-! ### FILL (R429) -/

/-- The segment of a shard of the live slot of a record. -/
def fillSeg (s : State) (r i : Nat) : Bytes :=
  let l := recLive s r
  wireBytes s (recWork s r l) (shardIx s r (bit (recLayout s r) 0) i) ++
    if recHasFwd s r then wireBytes s (recFwd s r l) (shardIx s r (bit (recLayout s r) 1) i) else []

/-- Write a received shard to its place in the live slot. -/
def fillPlace (s : State) (r i : Nat) (b : Bytes) : State :=
  let l := recLive s r
  let w := recWork s r l
  let ixs := shardIx s r (bit (recLayout s r) 0) i
  let s := placeBytes s w ixs b
  if recHasFwd s r then placeBytes s (recFwd s r l) (shardIx s r (bit (recLayout s r) 1) i) (b.drop (2 * ixs.length)) else s

/-- The exchange of one record as a GATHER: none where this module is no member of its set. -/
def fillColl (s : State) (c : Coll) (r : Nat) : Option Coll :=
  (positionIn s (recFirst s r) (recCount s r) (recStride s r)).map fun p =>
    { c with kind := 3, root := recLive s r, record := r, ring := recRing s r, first := recFirst s r, count := recCount s r, stride := recStride s r, pos := p }

/-- The segment of a shard of a record that has arrived. -/
def fillRx (s : State) (x : Coll) (shard : Nat) : Option RxStream :=
  (collRx s x).find? fun r => r.kind == 3 && r.shard == shard && field r.desc 0x28 8 == x.record

/-- Progress of a FILL. -/
def fillGo (s : State) (c : Coll) : State :=
  let (s, code) := consumeAll s c fun r => r.bytes.length
  if code ≠ 0 then exchangeFail s c code else
  let xs := (pdirRecords s).filterMap (fillColl s c)
  let out := xs.flatMap fun x => gatherOut s x (fillSeg s x.record x.pos) (fillRx s x)
  let (s, code) := feedAll s c (0, 0) out
  if code ≠ 0 then exchangeFail s c code else
  let others := xs.flatMap fun x => ((List.range x.count).filter fun p => p != x.pos && gatherBytes s x.record x.root p != 0).map fun p => (x, p)
  let full := others.all fun o => match fillRx s o.1 o.2 with | some r => r.last && r.bytes.length == r.size | none => false
  if !full then s else
  let ranges := others.flatMap fun o => copyRanges s o.1.record o.1.root o.2
  match touchRanges s idSup true none (if c.written then [] else ranges) with
  | (s, .fail code) => exchangeFail s c code
  | (s, .wait) => s
  | (s, .ok _) =>
    let s := if c.written then s
      else setColl (each others s fun s o => match fillRx s o.1 o.2 with | some r => fillPlace s o.1.record o.2 r.bytes | none => s) { c with written := true }
    if segsDone c out then
      restoreDone (endColl { s with rxs := s.rxs.filter fun r => r.key != (c.id, c.step) } c.id c.step)
    else s

/-! ### SERVE and reconstruction (R421, R428, R430) -/

/-- Progress of a SERVE: `own` holds the chunks by row, `root` the module that receives them. -/
def serveGo (s : State) (c : Coll) : State :=
  let out := c.own.map fun x => (c.root, x.2.1, x.2.2)
  let (s, code) := feedChunks s c out
  if code ≠ 0 then exchangeFail s c code
  else if chunksSent s c out then restoreDone (endColl s c.id c.step) else s

/-- The data chunk of position m in a row, from the symbols of others by position: data chunks, P at the row's number and Q at the next
(R421); none while too few have come. -/
def solveRow (g r m : Nat) (got : List (Nat × List Nat)) : Option (List Nat) :=
  let sym (i : Nat) : Option (List Nat) := (got.find? fun x => x.1 == i).map (·.2)
  let data := rowMembers g r
  let missing := data.filter fun i => i != m && (sym i).isNone
  let known := data.filterMap fun i => if i = m then none else (sym i).map fun d => (rowIndex g r i, d)
  let a := (sym r).map fun p => known.foldl (fun a x => xorBytes a x.2) p
  let b := (sym ((r + 1) % max g 1)).map fun q => known.foldl (fun a x => xorBytes a (gfScale (gfPow2 x.1) x.2)) q
  let wm := gfPow2 (rowIndex g r m)
  match missing, a, b with
  | [], some a, _ => some a
  | [], none, some b => some (gfScale (gfInv wm) b)
  | [n], some a, some b =>
    let wn := gfPow2 (rowIndex g r n)
    some (gfScale (gfInv (wm ^^^ wn)) (xorBytes b (gfScale wn a)))
  | _, _, _ => none

/-- Progress of a reconstruction from parity: once every row can be solved, the image is put together and restored. -/
def gatherChunks (s : State) (c : Coll) : State :=
  match pgPos s with
  | none => s
  | some m =>
    let g := pgSize s
    let (s, code) := consumeAll s c fun r => r.bytes.length
    if code ≠ 0 then exchangeFail s c code else
    let rows := (memberRows g m).map fun r =>
      solveRow g r m ((chunkRx s c r).filterMap fun x => (pgPosOf s x.1).map fun p => (p, x.2))
    if rows.any Option.isNone then s
    else
      let b := (rows.flatMap fun r => r.getD []).flatMap (leBytes 1)
      let b := b.take (256 + imgBytes b)
      let s := endColl { s with rxs := s.rxs.filter fun r => r.key != (c.id, c.step) } c.id c.step
      if imgStep b = c.root then restoreFrom s 3 b else restoreFail s Code.RESTORE_IMAGE

end Sys2Proof.Machine
end

