-- ==== Sys2Proof/Machine/Collect.lean ====
section
/-! DEFINITION. The progress of every collective on the module, and the commands REDUCE and GATHER (R286 to R296, R305 to R308). -/

namespace Sys2Proof.Machine

/-! ### All collectives -/

/-- A segment that disagrees with the local command fails it (R294). -/
def mismatched (s : State) (c : Coll) : Bool := (collRx s c).any fun r => !c.expects s r

/-- One collective goes on as far as it can. -/
def collGo (s : State) (c : Coll) : State :=
  if c.kind = 5 then parityGo s c
  else if c.kind = 6 then fillGo s c
  else if c.kind = 7 then serveGo s c
  else if c.kind = 8 then gatherChunks s c
  else if mismatched s c then failAt (wr s F.STI_EVENT_COLL_MISMATCH 1) c Code.COLL_MISMATCH
  else
    match c.kind with
    | 1 => reduceGo s c
    | 2 => amaxGo s c
    | 3 => gatherGo s c
    | _ => sendRecvGo s c

/-- Segments for collectives whose local command has ended are discarded, with their credit returned (R296). -/
def dropDead (s : State) : State :=
  let dead (r : RxStream) : Bool := !s.colls.any (fun c => (c.id, c.step) == r.key) && s.collEnded.any fun e => (e.1, e.2.1) == r.key
  each (s.rxs.filter dead) { s with rxs := s.rxs.filter fun r => !dead r || !r.last } fun s r =>
    let k := kibDone r.bytes.length r.size - kibDone r.consumed r.size
    let s := { s with rxs := s.rxs.map fun x => if x.src = r.src ∧ x.num = r.num then { x with consumed := x.bytes.length } else x }
    if k = 0 then s else sendTo s tECREDIT r.src r.num (leBytes 4 k ++ zeros 60)

/-- Every collective goes on. -/
def collAll (s : State) : State :=
  let s := each s.colls s fun s c =>
    match s.colls.find? fun x => x.id == c.id && x.step == c.step with
    | some c => let (s, c) := shipDone s c; collGo s c
    | none => s
  syncStitch (dropDead s)

/-! ### The commands -/

/-- The identifier has been used in this step by the ticket for another collective (R294). -/
def idReused (s : State) (c : Cmd) (id : Nat) : Bool :=
  s.collEnded.contains (id, cmdStepIndex s c, c.ticket, c.step)

/-- Start a collective, or join one of which this command is a further part: it waits for the others (R286, R294). -/
def startColl (s : State) (h : Nat) (c : Cmd) (x : Coll) : State :=
  let mismatch (s : State) : State :=
    let (u, s) := x.unit (wr s F.STI_EVENT_COLL_MISMATCH 1)
    failRunning s h c u Code.COLL_MISMATCH
  let s' := updCmd s h c.seq fun y => { y with st := .working }
  match s.colls.find? fun y => y.id == x.id && y.step == x.step with
  | some y =>
    if y.ticket = x.ticket ∧ y.no ≠ x.no then cntHearth s h 13 1
    else if y.kind = 1 ∧ x.kind = 1 ∧ y.ticket = x.ticket ∧ y.form = x.form ∧ y.parts = x.parts ∧ y.record = x.record ∧ y.check = x.check ∧
       y.first = x.first ∧ y.count = x.count ∧ y.stride = x.stride ∧ !(y.cmds.any fun m => x.cmds.any fun n => n.2.2 == m.2.2) then
      setColl s' { y with cmds := y.cmds ++ x.cmds, own := y.own ++ x.own }
    else mismatch s
  | none =>
    if idReused s c x.id then mismatch s
    else { s' with colls := s'.colls ++ [x], collEnded := s'.collEnded.filter fun e => !(e.1 == x.id && e.2.1 == x.step) }

/-- An UPDATE of a record runs on the module (R305). -/
def updateRuns (s : State) (r : Nat) : Bool :=
  (List.range 16).any fun h => (getDisp s h).cmds.any fun c => c.opcode == 0x39 && c.st == .working && c.fld 0x10 8 == r

/-- REDUCE (R286 to R290, R305). -/
def execReduce (h : Fin 16) (seq : BitVec 32) (s : State) : Res :=
  opRow h seq 0x38 s fun s c =>
    let form := rdForm c
    let r := rdRecord c
    let src := (rdSrc s c).desc
    if form = 0 ∧ updateRuns s r then s
    else if !dieTakes s (if form = 0 then (recGshard s r).ranges else (rdDst s c).desc.ranges) then cntHearth s h 13 1
    else
      let (u, s) := unitAt s U.stitch (if form = 0 then (recGshard s r).ranges ++ [(r, 768)] else (rdDst s c).desc.ranges ++ src.ranges)
      orFail h c u (readTensors s h c [src]) fun s _ =>
        let m := rdSet s c
        let pos := (positionIn s m.1 m.2.1 m.2.2).getD 0
        let part := c.fld 0x25 1
        let raw (ix : List Nat) : Nat := src.rawElem s .bf16 ix
        let own := if src.rank = 0 then [] else
          if form = 1 then [(part, c.fld 0x26 2, src.indices.map raw)]
          else (List.range m.2.1).map fun i => (part, i, (shardIx s r (bit (rdFlags c) 0) i).map raw)
        let x : Coll :=
          { kind := 1, id := c.fld 0x20 4, step := cmdStepIndex s c, ticket := c.ticket, cmds := [(h.val, c.seq, part)], form := form,
            ring := form == 0 && recRing s r, parts := c.fld 0x24 1, first := m.1, count := m.2.1, stride := m.2.2, pos := pos,
            root := c.fld 0x26 2, record := r, fmt := 0x11, elems := src.count, check := bit (rdFlags c) 1, own := own, sent := 0, recv := 0,
            chk := 0, chkVals := [], written := false, no := c.step, shipped := [] }
        collAll (startColl s h c x)

/-- GATHER: the PARAM form, SEND or RECV (R306 to R308). DESIGN CHOICE (log entry 83). -/
def execGather (h : Fin 16) (seq : BitVec 32) (s : State) : Res :=
  opRow h seq 0x3A s fun s c =>
    let form := gaForm c
    let r := gaRecord c
    let d := (gaRef s c).desc
    let o := recOther s r
    let base : Coll :=
      { kind := 3, id := c.fld 0x1C 4, step := cmdStepIndex s c, ticket := c.ticket, cmds := [(h.val, c.seq, 0)], form := 0, ring := recRing s r,
        parts := 1, first := recFirst s r, count := recCount s r, stride := recStride s r,
        pos := (positionIn s (recFirst s r) (recCount s r) (recStride s r)).getD 0, root := o, record := r, fmt := 0x11, elems := 0,
        check := bit (c.fld 0x19 1) 0, own := [], sent := 0, recv := 0, chk := 0, chkVals := [], written := false, no := c.step, shipped := [] }
    let cmd := some (cmdId s h c)
    let (u, s) := unitAt s U.stitch (if form = 0 then [(r, 768)] else d.ranges)
    if form = 0 then
      let rs := copyRanges s r o base.pos
      if !dieTakes s ((r, 768) :: rs) then cntHearth s h 13 1 else
      orFail h c u (touchRanges s (idDisp h) false cmd [(r + 0x70, 40)]) fun s _ =>
        if recPend s r ≠ 1 ∨ recSstep s r o ≠ cmdStepIndex s c then failRunning s h c u Code.PARAM_STATE
        else orFail h c u (touchRanges s (idDisp h) false cmd rs) fun s _ => collAll (startColl s h c base)
    else
      let x := { base with kind := 4, form := form, ring := false, first := gaPeer c, count := 2, stride := 1, pos := form - 1, record := 0,
                           fmt := d.fmt, elems := d.count, root := d.wireSize }
      if !dieTakes s d.ranges then cntHearth s h 13 1
      else if form = 1 then
        orFail h c u (readTensors s h c [d]) fun s _ =>
          collAll (startColl s h c { x with own := [(0, 0, (wireBytes s d d.indices).map BitVec.toNat)] })
      else collAll (startColl s h c x)

end Sys2Proof.Machine
end

