-- ==== Sys2Proof/Machine/Update.lean ====
section
/-! DEFINITION. UPDATE on the Burnish units (R297 to R304). -/

namespace Sys2Proof.Machine

def upRecord (c : Cmd) : Nat := c.fld 0x10 8
def upColl (c : Cmd) : Nat := c.fld 0x18 4

/-- UPDATE's checks (R282, R283, R297): the code, or 0, and the increment. -/
def checkUpdate (s : State) (c : Cmd) : Nat × Nat :=
  let r := upRecord c
  let training := match findTicket s c.ticket with | some t => t.prog.training | none => false
  (firstCode [
    codeIf (maskBad c false false false true) Code.CMD_UNITS,
    codeIf (!rsvdZero c.raw 0x1C 36) Code.COLL_FORMAT,
    codeIf (paramBad s r) Code.PARAM_RECORD,
    codeIf (setBad s (recFirst s r) (recCount s r) (recStride s r)) Code.COLL_FORMAT,
    codeIf ((upColl c == 0) == recHasFwd s r) Code.COLL_FORMAT,
    codeIf (!training) Code.PARAM_STATE], popcount c.bankMask 8)

/-! ### The optimiser record (Table 11-7) -/

structure OptRec where
  kind : Nat
  momFmt : Nat
  nesterov : Bool
  lr : Nat
  beta1 : Nat
  beta2 : Nat
  eps : Nat
  wd : Nat
  gscale : Nat
  deriving DecidableEq, Repr

def OptRec.parse (b : Bytes) : OptRec :=
  { kind := field b 0 1, momFmt := field b 1 1, nesterov := bit (field b 2 1) 0, lr := field b 4 4, beta1 := field b 8 4,
    beta2 := field b 0xC 4, eps := field b 0x10 4, wd := field b 0x14 4, gscale := field b 0x18 4 }

/-- An FP32 encoding is finite. -/
def fp32Finite (n : Nat) : Bool := (fp32.decode n).isFinite
/-- Finite and not below zero; a zero of either sign is 0. -/
def fp32NonNeg (n : Nat) : Bool := fp32Finite n && (!(fp32.decode n).isNeg || (fp32.decode n).isZero)
/-- In [0, 1). -/
def fp32Unit (n : Nat) : Bool := fp32NonNeg n && decide (n % 2 ^ 31 < fp32One)

/-- The record breaks a rule of R298; `hasM2` and `fmt` are what the parameter record says of the moments. -/
def optBad (b : Bytes) (hasM2 : Bool) (fmt : Nat) : Bool :=
  let r := OptRec.parse b
  let two := r.kind == 1 || r.kind == 2
  r.kind == 0 || decide (4 < r.kind) || (r.momFmt != 0x11 && r.momFmt != 0x12) || r.momFmt != fmt || decide (2 ≤ field b 2 1) ||
  (r.nesterov && r.kind != 3) || !rsvdZero b 3 1 || !rsvdZero b 0x1C 36 || !fp32NonNeg r.lr || !fp32Unit r.beta1 ||
  (if r.kind = 3 then r.beta2 != 0 else !fp32Unit r.beta2) ||
  (if two then !fp32NonNeg r.eps || (fp32.decode r.eps).isZero else r.eps != 0) || !fp32NonNeg r.wd || !fp32Finite r.gscale ||
  hasM2 != two

/-! ### One element (R300) -/

/-- An FP32 number with whether a subnormal was flushed on the way to it (R106, R107). -/
structure FpNum where
  v : Nat
  flushed : Bool
  deriving DecidableEq, Repr

/-- One FP32 operation with roundTiesToEven under a subnormal mode. -/
def FpNum.op (flush : Bool) (f : FVal → FVal → FVal) (a b : FpNum) : FpNum :=
  let x := fp32.load flush a.v
  let y := fp32.load flush b.v
  let r := fp32.round flush (f x.1 y.1)
  { v := r.1, flushed := a.flushed || b.flushed || x.2 || y.2 || r.2 }

def FpNum.of (v : Nat) : FpNum := { v := v, flushed := false }

/-- sign of R300: +1.0, −1.0, +0 for either zero, NaN for NaN. -/
def FpNum.sign (a : FpNum) : FpNum :=
  let x := fp32.decode a.v
  { a with v := if x.isNan then fp32.nan else if x.isZero then 0 else if x.isNeg then fp32One + 2 ^ 31 else fp32One }

/-- The new w, m and v of an element from gs, w, m and v; `c1` and `c2` are 1 − BC1_O and 1 − BC2_O (R300). -/
def optElement (flush : Bool) (o : OptRec) (c1 c2 : FpNum) (gs w m v : FpNum) : FpNum × FpNum × FpNum :=
  let mul := FpNum.op flush FVal.mul
  let add := FpNum.op flush FVal.add
  let sub := FpNum.op flush FVal.sub
  let div := FpNum.op flush FVal.div
  let one := FpNum.of fp32One
  let beta1 := FpNum.of o.beta1
  let beta2 := FpNum.of o.beta2
  let wd := FpNum.of o.wd
  let lr := FpNum.of o.lr
  let om1 := sub one beta1
  let om2 := sub one beta2
  let g := mul gs (FpNum.of o.gscale)
  match o.kind with
  | 3 =>
    let g := add g (mul wd w)
    let m := add (mul beta1 m) g
    let u := if o.nesterov then add g (mul beta1 m) else m
    (sub w (mul lr u), m, v)
  | 4 =>
    let c := add (mul beta1 m) (mul om1 g)
    let w' := sub w (mul lr (add c.sign (mul wd w)))
    (w', add (mul beta2 m) (mul om2 g), v)
  | k =>
    let g := if k = 2 then add g (mul wd w) else g
    let m := add (mul beta1 m) (mul om1 g)
    let v := add (mul beta2 v) (mul om2 (mul g g))
    let root := FpNum.op flush (fun x _ => x.sqrt) (div v c2) one
    let u := div (div m c1) (add root (FpNum.of o.eps))
    let u := if k = 1 then add u (mul wd w) else u
    (sub w (mul lr u), m, v)

/-! ### The command (R299, R301) -/

/-- `BUR_STATE` follows the UPDATE commands (Table 11-21). DESIGN CHOICE (log entry 83). -/
def syncBurnish (s : State) : State :=
  let us := (List.range 16).flatMap fun h => (getDisp s h).cmds.filter fun c => c.opcode == 0x39 && (c.st == .working || c.st == .done)
  syncRails (wr (wr s F.BUR_STATE_ACTIVE us.length) F.BUR_STATE_HOLD_WAITING (us.filter fun c => c.st == .working && c.phase % 16 == 2).length)

/-- What a running update has gathered: the reports to the records of MASTER, M1, M2 and WORK, elements by die, and the controller of the
first element that raised each notice, by its bit in STATUS, or 7 for a non-finite value (R91, R301). -/
structure UpdRep where
  master : Report
  m1 : Report
  m2 : Report
  work : Report
  die0 : Nat
  die1 : Nat
  first : Smap Nat
  deriving DecidableEq, Repr

def UpdRep.empty : UpdRep :=
  { master := Report.empty, m1 := Report.empty, m2 := Report.empty, work := Report.empty, die0 := 0, die1 := 0, first := [] }

/-- Store a result in a destination's format, with its report (R91, R301) and whether the stored number is finite. -/
def storeNum (s : State) (c : Cmd) (d : Desc) (ix : List Nat) (n : FpNum) : State × Report × Bool :=
  let rep (g : Nat) : Report :=
    { amax := if fp32Finite n.v then n.v % 2 ^ 31 else 0, dom := 0,
      stat := g ||| flagIf n.flushed stSubn ||| flagIf (!fp32Finite n.v) stNonfiniteAmax }
  match d.format with
  | some .bf16 =>
    let (v, g) := narrowF bf16 c.subn (cmdRnd s c (d.linear ix)) (fp32.decode n.v)
    (d.setRaw s .bf16 ix v, rep g, (bf16.decode v).isFinite)
  | some f => (d.setRaw s f ix n.v, rep 0, fp32Finite n.v)
  | none => (s, Report.empty, true)

/-- Step 5 of R299 for the element at (other index, shard index). -/
def updElement (s : State) (c : Cmd) (r : Nat) (o : OptRec) (c1 c2 : FpNum) (lo : Nat) (rep : UpdRep) (ix : List Nat) : State × UpdRep :=
  let l := recLive s r
  let k := recOther s r
  let ld (d : Desc) : FpNum :=
    match d.format with
    | some .bf16 => FpNum.of (fp32.round false (bf16.decode (d.rawElem s .bf16 ix))).1
    | some f => FpNum.of (d.rawElem s f ix)
    | none => FpNum.of 0
  let gs := ld (recGshard s r)
  let hasM2 := recPtr s r 0x20 != 0
  let (w, m, v) := optElement c.subn o c1 c2 gs (ld (recMaster s r l)) (ld (recM1 s r l)) (if hasM2 then ld (recM2 s r l) else FpNum.of 0)
  let master := recMaster s r k
  let a := ix.getD 1 0 + lo
  let b := ix.getD 0 0
  let (s, q0, f0) := storeNum s c master ix w
  let (s, q1, f1) := storeNum s c (recM1 s r k) ix m
  let (s, q2, f2) := if hasM2 then storeNum s c (recM2 s r k) ix v else (s, Report.empty, true)
  let (s, q3, f3) := storeNum s c (recWork s r k) (if bit (recLayout s r) 0 then [a, b] else [b, a]) w
  let ctl := controllerOf (master.at ix)
  let raised := (q0.stat ||| q1.stat ||| q2.stat ||| q3.stat) % 32 ||| flagIf (!(fp32Finite gs.v && f0 && f1 && f2 && f3)) 128
  (s, { master := rep.master.merge q0, m1 := rep.m1.merge q1, m2 := rep.m2.merge q2, work := rep.work.merge q3,
        die0 := rep.die0 + (if dieOf ctl = 0 then 1 else 0), die1 := rep.die1 + (if dieOf ctl = 0 then 0 else 1),
        first := (List.range 8).foldl (fun f i => if bit raised i && f.get 99 i == 99 then f.set i ctl else f) rep.first })

/-- The notices of an update, each at the Burnish unit of the first element that raised it (R105, R107, R284, R301). -/
def updNotes (s : State) (h : Nat) (c : Cmd) (rep : UpdRep) : State :=
  let stat := rep.master.stat ||| rep.m1.stat ||| rep.m2.stat ||| rep.work.stat
  let unit (i : Nat) : Nat := U.burnish (rep.first.get 0 i)
  let s := each noticeCodes (ticketFlags s c.ticket (stat % 8)) fun s p => noteOnce s h c (unit p.1) [p] stat
  if rep.first.get 99 7 = 99 then s
  else wr (emberCode s (unit 7) Code.UPD_NONFINITE (some (cmdId s h c))) F.BUR_EVENT_NONFINITE 1

/-- The bytes of a record that an UPDATE reads and writes besides its pointers: LIVE to SSTEP_B (Table 11-1). -/
def recState (r : Nat) : Nat × Nat := (r + 0x70, 40)

/-- Steps 3 to 6 of R299. DESIGN CHOICE (log entry 34). -/
def updRun (s : State) (h : Nat) (c : Cmd) : State :=
  let r := upRecord c
  let l := recLive s r
  let k := recOther s r
  let hasM2 := recPtr s r 0x20 != 0
  let pos := (positionIn s (recFirst s r) (recCount s r) (recStride s r)).getD 0
  let lo := shardLo (recEa s r) (recCount s r) pos
  let two (x : Desc) : List Desc := if hasM2 then [x] else []
  let outs := [recMaster s r k, recM1 s r k] ++ two (recM2 s r k)
  let (u, s) := unitAt s U.burnish [(recPtr s r 0x58, 64)]
  orFail h c u (memRead s (idDisp h) (recPtr s r 0x58) 64 (some (cmdId s h c))) fun s b =>
    if optBad b hasM2 (recM1 s r l).fmt then failRunning s h c u Code.OPT_RECORD else
    let o := OptRec.parse b
    let (u, s) := unitAt s U.burnish ((recMaster s r k).ranges ++ [(r, 768)])
    orFail h c u (readTensors s h c ([recGshard s r, recMaster s r l, recM1 s r l] ++ two (recM2 s r l))) fun s _ =>
    orFail h c u (touchRanges s (idDisp h) true (some (cmdId s h c)) ((outs ++ [recWork s r k]).flatMap fun d => recRanges d true)) fun s _ =>
    orFail h c u (writeRanges s h c
        (recState r :: outs.flatMap Desc.ranges ++ shardRanges s r (recWork s r k) (bit (recLayout s r) 0) pos)) fun s holes =>
      let mul := FpNum.op c.subn FVal.mul
      let bc1 := mul (FpNum.of (recBc1 s r l)) (FpNum.of o.beta1)
      let bc2 := mul (FpNum.of (recBc2 s r l)) (FpNum.of o.beta2)
      let t := poke s (r + 0x90 + 4 * k) (leBytes 4 (cmdStepIndex s c))
      let t := poke t (r + 0x78 + 4 * k) (leBytes 4 (recStep s r l + 1))
      let t := poke (poke t (r + 0x80 + 8 * k) (leBytes 4 bc1.v)) (r + 0x84 + 8 * k) (leBytes 4 bc2.v)
      let t := poke t (r + 0x71) [1]
      let t := { t with pends := t.pends ++ [(r, c.ticket, c.step)] }
      let t := updCmd t h c.seq fun x => { x with st := .working, phase := 32 }
      let sub := FpNum.op c.subn FVal.sub
      let c1 := sub (FpNum.of fp32One) bc1
      let c2 := sub (FpNum.of fp32One) bc2
      let own := (recMaster t r k).indices
      let (t, rep) := own.foldl (fun (a : State × UpdRep) ix => updElement a.1 c r o c1 c2 lo a.2 ix) (t, UpdRep.empty)
      let bcs : UpdRep := { rep with
        master := { rep.master with stat := rep.master.stat ||| stSubn },
        first := if rep.first.get 99 0 = 99 then rep.first.set 0 (controllerOf r) else rep.first }
      let t := updNotes t h c (if bc1.flushed || bc2.flushed then bcs else rep)
      let tell (t : State) (d : Desc) (q : Report) : State := reportTo t c d (some q.amax) 0 (q.stat % 128)
      let t := tell (tell (tell t (recMaster t r k) rep.master) (recM1 t r k) rep.m1) (recWork t r k) rep.work
      let t := if hasM2 then tell t (recM2 t r k) rep.m2 else t
      let t := holdBack s (cntMem (cntMem t 0 3 rep.die0) 1 3 rep.die1) h c u holes
      if recHasFwd t r then
        let x : Coll :=
          { kind := 2, id := upColl c, step := cmdStepIndex t c, ticket := c.ticket, cmds := [(h, c.seq, 0)], form := 0, ring := recRing t r,
            parts := 1, first := recFirst t r, count := recCount t r, stride := recStride t r, pos := pos, root := 0, record := r,
            fmt := 0x12, elems := 1, check := false, own := [(0, 0, [rep.master.amax])], sent := 0, recv := 0, chk := 0, chkVals := [],
            written := false, no := c.step, shipped := [] }
        collAll (startColl t h c x)
      else
        let t := wr (wr (wr t F.BUR_LAST_RECORD_256 (r / 256)) F.BUR_LAST_SLOT k) F.BUR_LASTSTEP_STEP (recSstep t r k)
        cmdDone t h c

/-- UPDATE as far as it can go (R299): it fails, waits for an earlier step or for holds, or runs. -/
def updGo (s : State) (h : Nat) (c : Cmd) : State :=
  let r := upRecord c
  let k := recOther s r
  let (u, s) := unitAt s U.burnish [(r, 768)]
  let s :=
    if !dieTakes s ((r, 768) :: (recMaster s r k).ranges) then cntHearth s h 13 1 else
    orFail h c u (touchRanges s (idDisp h) false (some (cmdId s h c)) [recState r]) fun s _ =>
    if recPend s r = 1 then
      if recSstep s r k = cmdStepIndex s c then failRunning s h c u Code.PARAM_STATE
      else updCmd s h c.seq fun x => { x with st := .working, phase := x.phase / 16 * 16 + 1 }
    else if recHold s r k ≠ 0 then
      let s := if bit c.phase 5 then s
        else wr (emberCode s u Code.HOLD_WAIT (some (cmdId s h c))) F.BUR_EVENT_HOLD_WAIT 1
      updCmd s h c.seq fun x => { x with st := .working, phase := 34 }
    else updRun s h c
  syncBurnish s

/-- UPDATE (R299). -/
def execUpdate (h : Fin 16) (seq : BitVec 32) (s : State) : Res := opRow h seq 0x39 s fun s c => updGo s h c

/-- UPDATE_RESUME: a waiting UPDATE looks again (R299). -/
def execUpdateResume (h : Fin 16) (seq : BitVec 32) (s : State) : Res :=
  if !unitLive s (U.disp h) then .next s else
  match findCmd s h seq.toNat with
  | some c => .next (if c.opcode == 0x39 && c.st == .working && c.phase % 16 != 0 then updGo s h c else s)
  | none => .next s

end Sys2Proof.Machine
end

