-- ==== Sys2Proof/Machine/Frames.lean ====
section
/-! DEFINITION. What frames do when they arrive (R386 to R393, R443), the twin mirror and its return (R396 to R401), twin presence (R395,
R465), and the lane checkers (R402, R403). -/

namespace Sys2Proof.Machine

/-! ### Sending images (R396, R401) -/

/-- Send an image to the twin as one stream (R391, R396): an OPEN frame and DATA frames of 1,024 bytes on VC 3. DEDUCED (log entry 85). -/
def sendImage (s : State) (m : MirrorOut) : State :=
  let n := (freeStream s).getD m.stream
  let m := { m with stream := n }
  let twin := rd s F.DEV_IDENT_TWIN_ID
  let me := moduleId s
  let total := m.image.length
  let s := { s with mirrorOut := some m }
  let s := if m.kind = 2 then wr s F.GRT_CTL_RESULT 1 else wr s F.GRT_STATE_MIRROR 1
  let desc := segDesc (if m.kind = 2 then 7 else 6) 0 m.step 0 0 0 0 0 0 0 0 0 0 0 total 0
  let frames := (List.range (ceilDiv total 1024)).map fun k =>
    ({ type := tDATA, vc := 3, hop := 0, last := decide (total ≤ 1024 * (k + 1)), dst := twin, src := me, stream := n, offset := k,
       payload := (m.image.drop (1024 * k)).take 1024 } : Pkt)
  let x := getLink s 12
  pumpLink (setLink s 12 { x with queue := x.queue ++ ({ ctlPkt tOPEN 3 twin me desc with stream := n } :: frames) }) 12

/-- Base and size of a half of the mirror region. -/
def mirrorHalf (s : State) (k : Nat) : Nat × Nat :=
  let n := rd s F.GRT_MIRROR_SIZE_64K * 32768
  (rd s F.GRT_MIRROR_BASE_64K * 65536 + k * n, n)
def returnRegion (s : State) : Nat × Nat := (rd s F.GRT_RETURN_BASE_64K * 65536, rd s F.GRT_RETURN_SIZE_64K * 65536)

/-- A half holds a complete image; its MSEQ. -/
def halfComplete (s : State) (h : Nat × Nat) : Bool := h.2 != 0 && peekNat s (h.1 + 0xFF) 1 == 1
def halfMseq (s : State) (h : Nat × Nat) : Nat := peekNat s (h.1 + 0x28) 4

/-- The complete half of the highest MSEQ. -/
def heldHalf (s : State) : Option (Nat × Nat) :=
  let a := mirrorHalf s 0
  let b := mirrorHalf s 1
  if halfComplete s a && halfComplete s b then some (if later32 (halfMseq s b) (halfMseq s a) then b else a)
  else if halfComplete s a then some a else if halfComplete s b then some b else none

/-- A return starts, or fails (R401). -/
def startReturn (s : State) : State :=
  let fail (s : State) : State :=
    wr (wr (emberCode { s with returnDue := false } U.girth Code.MIRROR_FAIL none) F.GRT_ERR_MIRROR_FAIL 1) F.GRT_CTL_RESULT 3
  if !linkUp s 12 then fail s
  else match heldHalf s with
    | none => fail s
    | some h =>
      let n := 256 + peekNat s (h.1 + 0x10) 8
      match touchRanges s idSup false none [(h.1, n)] with
      | (s, .fail _) => fail s
      | (s, _) =>
      let img := peekBytes s h.1 n
      let img := img.take 0x24 ++ [2] ++ (img.drop 0x25).take 3 ++ zeros 4 ++ img.drop 0x2C
      sendImage { s with returnDue := false }
        { kind := 2, gen := imgGen img, step := imgStep img, tries := 1, image := img, holds := [], stream := 0 }

/-- What waits for Girth to be free to send (R400). -/
def nextImage (s : State) : State := if s.returnDue && s.mirrorOut.isNone && (freeStream s).isSome then startReturn s else s

/-- The mirror condition of R24 applies: a twin is configured, mirroring is on and the module is not SOLO (R396). -/
def mirrorOn (s : State) : Bool :=
  rd s F.DEV_IDENT_TWIN_CFG == 1 && rd s F.GRT_CFG_MIRROR_EN == 1 && rd s F.GRT_CFG_SOLO == 0

/-- MIRROR_SEND: supervisor core 1 takes holds and sends the image of the last commit (R396). -/
def execMirrorSend (s : State) : Res :=
  if !unitLive s (U.sup 1) || !mirrorOn s || s.mirrorOut.isSome || (freeStream s).isNone then .next s else
  match s.mirrorDue with
  | none => .next s
  | some (gen, step) =>
    let s := { s with mirrorDue := none }
    let (s, holds, ok) := (pdirRecords s).foldl (fun (a : State × List (Nat × Nat) × Bool) r =>
      if !a.2.2 then a else
      let slot := recLive a.1 r
      match takeHold a.1 r slot with
      | (s, 0) => (s, a.2.1 ++ [(r, slot)], true)
      | (s, _) => (s, a.2.1, false)) (s, [], true)
    let m : MirrorOut := { kind := 1, gen := gen, step := step, tries := 1, image := [], holds := holds, stream := 0 }
    let full := (pdirRecords s).find? fun r => decide (65535 ≤ recHold s r (recLive s r))
    let s := if ok ∨ full.isNone then s else emberCode s (U.burnish (controllerOf (full.getD 0))) Code.HOLD_OVERFLOW none
    if !ok || !linkUp s 12 then .next (nextImage (mirrorFail s m)) else
    match touchRanges s idSup false none (imageRanges s) with
    | (s, .ok _) => .next (sendImage s { m with image := buildImage s 1 gen step })
    | (s, _) => .next (nextImage (mirrorFail s m))

/-- TWIN_RETURN: `GRT_CTL.OP` 1 from the lead host (R401). -/
def execTwinReturn (src : Src) (s : State) : Res :=
  if !served s src then .next s
  else if !isLead s src then .next (cfgErr s Code.NOT_LEAD 0x2C F.GRT_CTL_OP.off)
  else if s.mirrorOut.isSome || (freeStream s).isNone then .next (wr { s with returnDue := true } F.GRT_CTL_RESULT 1)
  else .next (startReturn s)

/-! ### Receiving images (R398, R399) -/

/-- The Girth receive path writes bytes to the mirror or the return region (R317, R400): the code of a failure, or 0; a write that must
wait counts as made (log entry 109). -/
def girthWrite (s : State) (a : Nat) (d : Bytes) : State × Nat :=
  match touchRanges s idGirth true none [(a, d.length)] with
  | (s, .fail code) => (s, code)
  | (s, _) => (poke s a d, 0)

/-- COMPLETE 0 and an MSEQ in the header at an address: the code of a failure, or 0. -/
def girthHeader (s : State) (a mseq : Nat) : State × Nat :=
  let (s, c1) := girthWrite s (a + 0xFF) [0]
  let (s, c2) := girthWrite s (a + 0x28) (leBytes 4 mseq)
  (s, if c1 = 0 then c2 else c1)

/-- `GRT_GEN.HELD` follows the mirror region (Table 15-22). -/
def syncHeld (s : State) : State :=
  wr s F.GRT_GEN_HELD (match heldHalf s with | some h => peekNat s (h.1 + 8) 4 | none => 0)

/-- An image begins to arrive: the half it goes to, whose COMPLETE is cleared and whose MSEQ is written (R398). DEDUCED (log entry 85). -/
def imageOpen (s : State) (p : Pkt) : State :=
  let ret := field p.payload 8 1 == 7
  let total := field p.payload 0x20 8
  let a := mirrorHalf s 0
  let b := mirrorHalf s 1
  let (h, other) :=
    if ret then (returnRegion s, returnRegion s)
    else if !halfComplete s a then (a, b) else if !halfComplete s b then (b, a)
    else if later32 (halfMseq s a) (halfMseq s b) then (b, a) else (a, b)
  let fits := h.2 != 0 && decide (256 ≤ total) && decide (total ≤ h.2)
  let mseq := (halfMseq s other + 1) % 2 ^ 32
  let (s, code) := if fits then girthHeader s h.1 mseq else (s, 0)
  let s := if fits then syncHeld s else s
  wr { s with mirrorIn := some { kind := if ret then 2 else 1, base := h.1, size := total, mseq := mseq, bytes := [], fits := fits,
                                 code := code, stream := p.stream } } F.GRT_STATE_RECEIVING 1

/-- The image is whole: it is accepted, or refused (R398; DEDUCED, log entry 39). -/
def imageEnd (s : State) (m : MirrorIn) : State :=
  let s := wr { s with mirrorIn := none } F.GRT_STATE_RECEIVING 0
  let twin := rd s F.DEV_IDENT_TWIN_ID
  let nak (code : Nat) : State := post s 12 (ctlPkt tMNAK 3 twin (moduleId s) (leBytes 2 code ++ zeros 62))
  if !m.fits then nak Code.CKPT_SIZE
  else if m.code ≠ 0 then nak m.code
  else
    let img := m.bytes.take m.size
    if img.length != m.size || m.size != 256 + imgBytes img || field img 0x18 8 != crc64 (img.drop 256) then nak Code.RESTORE_IMAGE
    else
      match touchRanges s idGirth true none [(m.base + 0xFF, 1)] with
      | (s, .fail code) => post s 12 (ctlPkt tMNAK 3 twin (moduleId s) (leBytes 2 code ++ zeros 62))
      | (s, _) =>
      let s := syncHeld (poke s (m.base + 0xFF) [1])
      post s 12 (ctlPkt tMACK 3 twin (moduleId s) (leBytes 4 m.mseq ++ leBytes 4 (imgGen img) ++ zeros 56))

/-- Bytes of an image arrive: they are written, MSEQ and COMPLETE of the header apart. -/
def imageData (s : State) (m : MirrorIn) (p : Pkt) : State :=
  let at_ := m.bytes.length
  let d := if p.last then p.payload.take (m.size - at_) else p.payload
  let (s, code) := if !m.fits then (s, 0) else
    girthWrite s (m.base + at_) (if at_ = 0 then d.take 0x28 ++ leBytes 4 m.mseq ++ (d.drop 0x2C).take 211 ++ [0] ++ d.drop 256 else d)
  let m := { m with bytes := m.bytes ++ d, code := if m.code = 0 then code else m.code }
  if p.last then imageEnd s m else { s with mirrorIn := some m }

/-- COMPLETE 0 and MSEQ 0 in the header of each half and of the return region (R399). -/
def clearHalves (s : State) : State :=
  syncHeld (each [mirrorHalf s 0, mirrorHalf s 1, returnRegion s] s fun s h =>
    if h.2 = 0 then s else (girthHeader s h.1 0).1)

/-! ### What an accepted frame does -/

/-- HELLO after bring-up (R393): its peer check again. -/
def onHello (s : State) (l : Nat) (p : Pkt) : State :=
  let s := seeHello s l p.payload
  if helloOk s l p.payload then s else peerFail s l

/-- REJECT at the source: the command that owns the stream fails (R390). -/
def onReject (s : State) (l : Nat) (p : Pkt) : State :=
  match s.txs.find? fun t => t.num == field p.payload 2 2 with
  | none => s
  | some t =>
    match s.colls.find? fun c => (c.id, c.step) == t.coll with
    | some c => failColl s c (U.link l) (field p.payload 0 2)
    | none => { s with txs := s.txs.filter fun x => x.num != t.num }

/-- ECREDIT: landing credit comes back, and waiting segments proceed (R295). DEDUCED (log entry 80). -/
def onEcredit (s : State) (p : Pkt) : State :=
  let k := field p.payload 0 4
  let s := { s with txs := s.txs.map fun t => if t.num = p.stream ∧ t.dst = p.src then { t with flight := t.flight - k } else t }
  collAll (each (s.txs.filter fun t => t.dst == p.src) s pumpStream)

/-- STOP_MARK (R443): a resume, an echo, a marker, the start of a followed stop, or a mark to be echoed. DEDUCED (log entry 84). -/
def onStopMark (s : State) (l : Nat) (p : Pkt) : State :=
  let origin := field p.payload 0 2
  let flags := field p.payload 2 2
  let id := field p.payload 4 4
  let x := getLink s l
  if bit flags 1 then
    let s := pumpLink (setLink s l { x with blocked := false, peerMark := false }) l
    collAll (each s.txs s pumpStream)
  else if bit flags 0 || stopActive s then setLink s l { x with peerMark := true }
  else if rd s F.MGT_STOP_CFG_FOLLOW = 1 ∧ isRun s then startStop (setLink s l { x with peerMark := true }) 3 origin id
  else
    let s := each (s.txs.filter fun t => t.link == l && !t.finished) s fun s t => cntHearth s t.cmd.1 13 1
    sendMark (setLink s l { x with blocked := true, marked := true }) l origin 1 id

/-- OPEN for this module (R391, R398). -/
def onOpen (s : State) (l : Nat) (p : Pkt) : State :=
  let k := field p.payload 8 1
  if l = 12 then (if k = 6 ∨ k = 7 then imageOpen s p else s)
  else
    collAll { s with rxs := s.rxs ++ [{ src := p.src, num := p.stream, link := l, desc := p.payload.take 64, bytes := [],
                                         last := false, consumed := 0, counted := false, errs := [] }] }

/-- DATA for this module (R392). -/
def onData (s : State) (l : Nat) (p : Pkt) : State :=
  if l = 12 then
    match s.mirrorIn with
    | some m => if m.stream = p.stream then imageData s m p else s
    | none => s
  else
    collAll { s with rxs := s.rxs.map fun r =>
      if r.src = p.src ∧ r.num = p.stream ∧ !r.last then
        { r with bytes := r.bytes ++ (if p.last then p.payload.take (r.size - r.bytes.length) else p.payload), last := p.last }
      else r }

/-- The image that this module sent has arrived (R396, R401). -/
def onMirrorAck (s : State) (p : Pkt) : State :=
  match s.mirrorOut with
  | some m =>
    if field p.payload 4 4 ≠ m.gen then s else
    let s := each m.holds { s with mirrorOut := none } fun s x => dropHold s x.1 x.2
    nextImage (if m.kind = 2 then wr s F.GRT_CTL_RESULT 2 else wr (wr { s with mirrorOwed := none } F.GRT_STATE_MIRROR 0) F.GRT_GEN_ACKED m.gen)
  | none => s

/-- The image was refused: it is sent again, or the mirror fails (R398). -/
def onMirrorNak (s : State) (p : Pkt) : State :=
  match s.mirrorOut with
  | some m =>
    let s := wr s F.GRT_ERR_MIRROR_NAK 1
    if field p.payload 0 2 ≠ Code.CKPT_SIZE ∧ m.tries < 3 then sendImage s { m with tries := m.tries + 1 }
    else nextImage (mirrorFail s m)
  | none => s

/-- An accepted frame takes effect: one for another module is forwarded (R390). -/
def processFrame (s : State) (l : Nat) (p : Pkt) : State :=
  let here := p.dst == moduleId s || l == 12
  let s := grantBack s l p
  if p.type = tHELLO then onHello s l p
  else if p.type = tSTOP then onStopMark s l p
  else if !here then forwardFrame s p
  else if p.type = tREJECT then onReject s l p
  else if p.type = tECREDIT then onEcredit s p
  else if p.type = tOPEN then onOpen s l p
  else if p.type = tDATA then onData s l p
  else if p.type = tMACK then onMirrorAck s p
  else if p.type = tMNAK then onMirrorNak s p
  else s

/-- The frame of a row: accepted, acknowledged, and processed, or held while the link unit is stopped (R387, R441, R443), and during Kindling
until the device runs (R399). DEDUCED (log entry 84). -/
def frameRow (l : Fin 13) (f : Frame) (type : Nat) (s : State) : Res :=
  let p := Pkt.parse f.hdr f.payload
  if !linkUp s l || !accepts s l f || p.type != type then .next s else
  let s := acceptFrame s l f
  if (unitHalted s (U.link l) && type != tSTOP) || s.power == .kindling then
    .next (setLink s l { getLink s l with held := (getLink s l).held ++ [(f.hdr, f.payload)] })
  else .next (processFrame s l p)

/-- HELLO (R393). A link that has failed its peer check still shows the HELLO it receives. -/
def execHello (l : Fin 13) (f : Frame) (s : State) : Res :=
  if rd s (lkState l) = lkFAILED ∧ rd s (lkCode l) = Code.LINK_PEER ∧ frameIntact l f ∧ (Pkt.parse f.hdr f.payload).type = tHELLO ∧ pwrGood s
  then .next (seeHello s l f.payload) else frameRow l f tHELLO s
/-- REJECT (R390). -/
def execReject (l : Fin 13) (f : Frame) (s : State) : Res := frameRow l f tREJECT s
/-- ECREDIT (R295). -/
def execEcredit (l : Fin 13) (f : Frame) (s : State) : Res := frameRow l f tECREDIT s
/-- STOP_MARK (R443). -/
def execStopMark (l : Fin 13) (f : Frame) (s : State) : Res := frameRow l f tSTOP s
/-- OPEN (R391). -/
def execOpenFrame (l : Fin 13) (f : Frame) (s : State) : Res := frameRow l f tOPEN s
/-- DATA (R392). -/
def execDataFrame (l : Fin 13) (f : Frame) (s : State) : Res := frameRow l f tDATA s
/-- MIRROR_ACK (R396). -/
def execMirrorAck (l : Fin 13) (f : Frame) (s : State) : Res := frameRow l f tMACK s
/-- MIRROR_NAK (R398). -/
def execMirrorNak (l : Fin 13) (f : Frame) (s : State) : Res := frameRow l f tMNAK s

/-! ### Twin presence (R395, R465) -/

/-- TWIN_PRESENT_RISE (R465). -/
def execTwinPresentRise (s : State) : Res :=
  .next (let s := { s with twinIn := true }
         if pwrGood s then wr s F.GRT_STATE_TWIN_PRESENT 1 else s)

/-- TWIN_PRESENT_FALL: Girth becomes FAILED without retraining (R395). -/
def execTwinPresentFall (s : State) : Res :=
  .next (let s := { s with twinIn := false }
         if !pwrGood s then s
         else
           let s := wr s F.GRT_STATE_TWIN_PRESENT 0
           if linkUp s 12 || rd s F.GRT_STATE_STATE == lkTRAINING then linkFail s 12 Code.LINK_DOWN else s)

/-! ### Lane checkers (R402, R403) -/

/-- The function of a lane (Table 15-6). -/
def laneFunc (n : Nat) : Nat :=
  if n < 48 then 0x20 + n / 4 else if n < 56 then 0x2C else if n < 72 then 0x34 + (n - 56) / 8 else 0x30 + (n - 72) / 8

/-- The lane-test registers of a lane take effect (R403). -/
def laneTestable (s : State) (n : Nat) : Bool := decide (2 ≤ fnState s (laneFunc n))

/-- Taps of a pattern (Table 15-7): the next bit is the exclusive OR of the bits this many places back. -/
def patternTaps : Nat → List Nat
  | 1 => [7, 6]
  | 2 => [9, 5]
  | 3 => [13, 12, 2, 1]
  | 4 => [15, 14]
  | 5 => [23, 18]
  | 6 => [31, 28]
  | _ => []

/-- The bit that a pattern gives after the bits seen, newest first; none while they do not determine one. DEDUCED (log entry 89). -/
def nextBit (code pattern phase : Nat) (recent : List Bool) : Option Bool :=
  if code = 7 then some (bit pattern (phase % 64))
  else
    let taps := patternTaps code
    let n := taps.headD 0
    if n = 0 ∨ recent.length < n ∨ !((recent.take n).any id) then none
    else some (taps.foldl (fun a t => xor a (recent.getD (t - 1) false)) false)

/-- The phase at which the last 64 bits, newest first, agree with the 64 bits of a USER pattern. -/
def userPhase (pattern : Nat) (recent : List Bool) : Option Nat :=
  if recent.length < 64 then none
  else (List.range 64).find? fun k => (List.range 64).all fun i => recent.getD i false == bit pattern ((k + 63 - i) % 64)

/-- One bit arrives at an enabled checker. DEDUCED (log entry 89). -/
def laneBit (s : State) (n : Nat) (b : Bool) : State :=
  let code := rd s (F.CLK_LT_CTL_CHK n)
  let pattern := rd s (F.CLK_LT_USER_PATTERN n)
  let c := s.laneChk.get LaneChk.blank n
  let put (s : State) (c : LaneChk) : State := { s with laneChk := s.laneChk.set n c }
  if rd s (F.CLK_LT_CTL_LOCK n) = 1 then
    match nextBit code pattern c.phase c.recent with
    | none => s
    | some e =>
      let s := if e = b then s else satAdd s (F.CLK_LT_ERRS_ERRORS n) 1
      let k := c.bits + 1
      let s := if k = 65536 then wrapAdd s (F.CLK_LT_BITS_BITS_64K n) 1 else s
      put s { c with recent := (e :: c.recent).take 64, bits := k % 65536, phase := (c.phase + 1) % 64 }
  else
    let recent := (b :: c.recent).take 64
    let locked (s : State) (phase : Nat) : State :=
      put (wr (wr (wr s (F.CLK_LT_CTL_LOCK n) 1) (F.CLK_LT_BITS_BITS_64K n) 0) (F.CLK_LT_ERRS_ERRORS n) 0)
        { c with recent := recent, good := 64, bits := 0, phase := phase }
    if code = 7 then
      match userPhase pattern recent with
      | some k => locked s k
      | none => put s { c with recent := recent }
    else
      let good := if nextBit code pattern 0 c.recent = some b then c.good + 1 else 0
      if 64 ≤ good then locked s 0 else put s { c with recent := recent, good := good }

/-- The first bits of a pattern generator: any that the pattern can hold (R402). DESIGN CHOICE (log entry 2). -/
def seedBits (s : State) : List Bool × State :=
  let (x, s) := takeFree s
  let bs := (List.range 31).map (bit x)
  (if bs.any id then bs else true :: bs.drop 1, s)

/-- The next bit of a lane's generator. -/
def genBit (s : State) (n : Nat) : Bool × State :=
  let code := rd s (F.CLK_LT_CTL_GEN n)
  let c := s.laneChk.get LaneChk.blank n
  let (recent, s) := if c.gen.isEmpty then seedBits s else (c.gen, s)
  let b := if code = 7 then bit (rd s (F.CLK_LT_USER_PATTERN n)) (c.genPhase % 64)
    else (patternTaps code).foldl (fun a t => xor a (recent.getD (t - 1) false)) false
  (b, { s with laneChk := s.laneChk.set n { c with gen := (b :: recent).take 31, genPhase := (c.genPhase + 1) % 64 } })

/-- LANE_CHECKER_BITS (R402): with LOOP set, the bits are those of the lane's own generator; one that is off sends none. -/
def execLaneCheckerBits (n : Fin 104) (bs : List Bool) (s : State) : Res :=
  if !pwrGood s || !laneTestable s n || rd s (F.CLK_LT_CTL_CHK n) == 0 then .next s
  else if rd s (F.CLK_LT_CTL_LOOP n) = 1 then
    .next (if rd s (F.CLK_LT_CTL_GEN n) = 0 then s else bs.foldl (fun s _ => let (b, s) := genBit s n; laneBit s n b) s)
  else .next (bs.foldl (fun s b => laneBit s n b) s)

/-- LANE_TEST_CLEAR: `CLK_LT_CTL.CLEAR` (R402, R403). -/
def execLaneTestClear (src : Src) (n : Fin 104) (s : State) : Res :=
  if !served s src then .next s
  else if !laneTestable s n then .next (cfgErr s Code.FUNC_STATE (laneFunc n) (F.CLK_LT_CTL_GEN n).off)
  else
    let c := s.laneChk.get LaneChk.blank n
    .next (wr (wr { s with laneChk := s.laneChk.set n { c with bits := 0 } } (F.CLK_LT_BITS_BITS_64K n) 0) (F.CLK_LT_ERRS_ERRORS n) 0)

end Sys2Proof.Machine
end

