-- ==== Sys2Proof/Machine/Motion.lean ====
section
/-! DEFINITION. The encoder's motion search (R365, Table 13-13). Of candidates of equal cost the earlier one is kept; candidates, λ and
SATD come from the constants of Config (DEDUCED, log entry 6). -/

namespace Sys2Proof.Machine

/-- A picture plane, row by row. -/
structure Plane where
  w : Nat
  h : Nat
  data : List Nat
  deriving DecidableEq, Repr

/-- A sample; positions outside the picture take the nearest sample inside it. -/
def Plane.at (p : Plane) (x y : Int) : Nat :=
  p.data.getD ((clampInt 0 (p.h - 1) y).toNat * p.w + (clampInt 0 (p.w - 1) x).toNat) 0

def Plane.make (w h : Nat) (f : Nat → Nat → Nat) : Plane :=
  { w := w, h := h, data := (List.range h).flatMap fun y => (List.range w).map fun x => f x y }

/-- The picture of a quarter of the area: the rounded mean of each 2 × 2 group. -/
def Plane.halve (p : Plane) : Plane :=
  Plane.make (p.w / 2) (p.h / 2) fun x y =>
    let g (dx dy : Nat) : Nat := p.at (2 * x + dx : Nat) (2 * y + dy : Nat)
    (g 0 0 + g 1 0 + g 0 1 + g 1 1 + 2) / 4

/-- A picture as it enters its slot: full resolution, 1/4 area and 1/16 area. -/
structure Pyramid where
  full : Plane
  quarter : Plane
  sixteenth : Plane
  deriving DecidableEq, Repr

def Pyramid.of (p : Plane) : Pyramid := { full := p, quarter := p.halve, sixteenth := p.halve.halve }

/-- Vectors within ±r of a centre. -/
def around (r : Nat) (c : Int × Int) : List (Int × Int) :=
  (List.range (2 * r + 1)).flatMap fun (j : Nat) => (List.range (2 * r + 1)).map fun (i : Nat) => (c.1 + (i : Int) - r, c.2 + (j : Int) - r)

/-- Put a costed vector behind those of no higher cost. -/
def rank (e : Nat × Int × Int) : List (Nat × Int × Int) → List (Nat × Int × Int)
  | [] => [e]
  | x :: xs => if x.1 ≤ e.1 then x :: rank e xs else e :: x :: xs

/-- The n vectors of least cost. -/
def bestOf (n : Nat) (cost : Int × Int → Nat) (vs : List (Int × Int)) : List (Int × Int) :=
  ((vs.eraseDups.foldl (fun kept v => (rank (cost v, v) kept).take n) []).map (·.2))

/-- SAD of a 16 × 16 unit of a picture against a reference at the same scale. -/
def sad (cur ref : Plane) (ux uy : Nat) (v : Int × Int) : Nat :=
  ((List.range 16).flatMap fun j => (List.range 16).map fun i =>
    let x := 16 * ux + i
    let y := 16 * uy + j
    if x < cur.w ∧ y < cur.h then ((cur.at x y : Int) - ref.at (x + v.1) (y + v.2)).natAbs else 0).sum

/-- What a search runs over: the encoder's constants' arguments, and SEARCH. -/
structure Search where
  std : Nat
  query : Bytes
  range : Nat
  deriving DecidableEq, Repr

/-- A vector in quarter samples that the search keeps for a prediction block: the reference, the vector and its cost. -/
structure Kept where
  block : PredBlock
  ref : Nat
  x : Int
  y : Int
  cost : Nat
  deriving DecidableEq, Repr

def twice (v : Int × Int) : Int × Int := (2 * v.1, 2 * v.2)

/-- SATD + λ × vector bits of a block of picture t for a vector in quarter samples. -/
def Search.cost (q : Search) (cur : Plane) (ref : Plane) (t k : Nat) (b : PredBlock) (v : Int × Int) : Nat :=
  let residual := (List.range b.h).flatMap fun j => (List.range b.w).map fun i =>
    let x : Int := 4 * ((b.x + i : Nat) : Int) + v.1
    let y : Int := 4 * ((b.y + j : Nat) : Int) + v.2
    let p : Int := if v.1 % 4 = 0 ∧ v.2 % 4 = 0 then (ref.at (x / 4) (y / 4) : Int) else Config.slotQuarter q.std q.query k x y
    (cur.at (b.x + i : Nat) (b.y + j : Nat) : Int) - p
  Config.satd b.w residual + Config.vectorCost q.std q.query t b v

/-- The four stages for one prediction block of picture t and one reference k; `near` is the co-located vector of the previous picture
in quarter samples. -/
def Search.block (q : Search) (cur ref : Pyramid) (t k : Nat) (near : Int × Int) (b : PredBlock) : Kept :=
  let s1 := bestOf 4 (sad cur.sixteenth ref.sixteenth (b.x / 64) (b.y / 64)) (around q.range (0, 0) ++ around q.range (near.1 / 16, near.2 / 16))
  let s2 := bestOf 2 (sad cur.quarter ref.quarter (b.x / 32) (b.y / 32)) (s1.flatMap fun v => around 4 (twice v))
  let cost := q.cost cur.full ref.full t k b
  let s3 := bestOf 1 (fun v => cost (4 * v.1, 4 * v.2))
    ((s2.flatMap fun v => around 2 (twice v)) ++ Config.vectorCandidates q.std q.query t b k)
  let best (vs : List (Int × Int)) : Int × Int := (bestOf 1 cost vs).getD 0 (0, 0)
  let f := s3.getD 0 (0, 0)
  let half := best ((around 1 (0, 0)).map fun o => (4 * f.1 + 2 * o.1, 4 * f.2 + 2 * o.2))
  let v := best (around 1 half)
  { block := b, ref := k, x := v.1, y := v.2, cost := cost v }

/-- The vector of the previous picture at a block's corner: the co-located one. -/
def colocated (before : List Kept) (b : PredBlock) : Int × Int :=
  ((before.find? fun k => decide (k.block.x ≤ b.x) && decide (b.x < k.block.x + k.block.w) && decide (k.block.y ≤ b.y) &&
    decide (b.y < k.block.y + k.block.h)).map fun k => (k.x, k.y)).getD (0, 0)

/-- The motion search of one picture: every reference is searched, and a block keeps the lowest cost over all of them. -/
def Search.picture (q : Search) (w h refs : Nat) (cur : Plane) (t : Nat) (before : List Kept) : List Kept :=
  let ks := ((Config.encoderRefs q.std q.query t).filter (· != t)).take refs
  let slots := ks.map fun k => (k, Pyramid.of (Plane.make w h (Config.slotLuma q.std q.query k)))
  let cur := Pyramid.of cur
  (Config.predBlocks q.std q.query t).filterMap fun b =>
    (slots.map fun r => q.block cur r.2 t r.1 (colocated before b) b).foldl (fun best k => match best with
      | none => some k
      | some o => some (if k.cost < o.cost then k else o)) none

/-- The vectors kept, as bytes. -/
def Kept.bytes (k : Kept) : Bytes :=
  leBytes 4 k.block.x ++ leBytes 4 k.block.y ++ leBytes 4 k.block.w ++ leBytes 4 k.block.h ++ leBytes 4 k.ref ++
    leBytes 4 (k.x % 2 ^ 32).toNat ++ leBytes 4 (k.y % 2 ^ 32).toNat

/-- The motion search of an encode's pictures in turn. -/
def Search.pictures (q : Search) (w h refs : Nat) : List Kept → Nat → List Plane → List (List Kept)
  | _, _, [] => []
  | before, t, cur :: rest => let m := q.picture w h refs cur t before; m :: q.pictures w h refs m (t + 1) rest

end Sys2Proof.Machine
end

