-- ==== Sys2Proof/Machine/Codec.lean ====
section
/-! DEFINITION. The codec die (R336 to R366): checks of DECODE, INGEST and ENCODE, lanes and pools, ingest, and the encoder's source
conversion. What a conforming decoder or encoder makes of a stream is a free function of it (DEDUCED, log entry 6). -/

namespace Sys2Proof.Machine

/-! ### Records (Tables 13-6, 13-10, 13-12) -/

structure StreamRec where
  std : Nat
  hdrLen : Nat
  hdrAddr : Nat
  bsAddr : Nat
  bsLen : Nat
  pool : Nat
  slotBytes : Nat
  slots : Nat
  list : Nat
  deriving DecidableEq, Repr

def StreamRec.parse (b : Bytes) : StreamRec :=
  { std := field b 0 1, hdrLen := field b 4 4, hdrAddr := field b 8 8, bsAddr := field b 0x10 8, bsLen := field b 0x18 8,
    pool := field b 0x20 8, slotBytes := field b 0x28 4, slots := field b 0x2C 2, list := field b 0x30 8 }

/-- A stream record breaks its rules (R346). -/
def streamRecBad (b : Bytes) : Bool :=
  let r := StreamRec.parse b
  r.std == 0 || decide (4 < r.std) || !rsvdZero b 1 3 || r.pool % 65536 != 0 || r.slotBytes % 65536 != 0 || r.slots == 0 ||
  decide (64 < r.slots) || !rsvdZero b 0x2E 2 || !rsvdZero b 0x38 8 || !inNear r.hdrAddr r.hdrLen || !inNear r.bsAddr r.bsLen ||
  !inNear r.pool (r.slotBytes * r.slots)

structure IngestRec where
  cropX : Nat
  cropY : Nat
  cropW : Nat
  cropH : Nat
  planes : Nat
  field : Nat
  matrix : Nat
  range : Nat
  pw : Nat
  ph : Nat
  pt : Nat
  damage : Nat
  mean : List Nat
  invStd : List Nat
  maskFmt : Nat
  maskMode : Nat
  deriving DecidableEq, Repr

def IngestRec.parse (b : Bytes) : IngestRec :=
  { cropX := Sys2Proof.field b 0 2, cropY := Sys2Proof.field b 2 2, cropW := Sys2Proof.field b 4 2, cropH := Sys2Proof.field b 6 2,
    planes := Sys2Proof.field b 8 1, field := Sys2Proof.field b 9 1, matrix := Sys2Proof.field b 0xA 1, range := Sys2Proof.field b 0xB 1,
    pw := Sys2Proof.field b 0xC 1, ph := Sys2Proof.field b 0xD 1, pt := Sys2Proof.field b 0xE 1, damage := Sys2Proof.field b 0xF 1,
    mean := (List.range 3).map fun i => Sys2Proof.field b (0x10 + 4 * i) 4,
    invStd := (List.range 3).map fun i => Sys2Proof.field b (0x1C + 4 * i) 4, maskFmt := Sys2Proof.field b 0x28 1,
    maskMode := Sys2Proof.field b 0x29 1 }

def IngestRec.chans (r : IngestRec) : Nat := if r.planes = 0 then 1 else 3

/-- An ingest record breaks R355. -/
def ingestRecBad (b : Bytes) : Bool :=
  let r := IngestRec.parse b
  decide (2 < r.planes) || decide (3 < r.field) || decide (3 < r.matrix) || decide (2 < r.range) || r.pw == 0 || decide (16 < r.pw) ||
  r.ph == 0 || decide (16 < r.ph) || r.pt == 0 || decide (4 < r.pt) || bit r.damage 0 || decide (16 ≤ r.damage) ||
  (r.mean ++ r.invStd).any (fun n => !fp32Finite n) ||
  (r.planes == 0 && (r.mean.drop 1 ++ r.invStd.drop 1).any (· != 0)) || !([0x02, 0x11, 0x12].contains r.maskFmt) ||
  decide (1 < r.maskMode) || (r.maskMode == 1 && r.maskFmt == 0x02) || !rsvdZero b 0x2A 22

structure EncRec where
  std : Nat
  depth : Nat
  planes : Nat
  matrix : Nat
  range : Nat
  gop : Nat
  refresh : Nat
  refs : Nat
  keyInt : Nat
  period : Nat
  rc : Nat
  qp : Nat
  level : Nat
  targetBits : Nat
  vbvBits : Nat
  search : Nat
  gain : List Nat
  offset : List Nat
  pool : Nat
  slotBytes : Nat
  slots : Nat
  deriving DecidableEq, Repr

def EncRec.parse (b : Bytes) : EncRec :=
  { std := field b 0 1, depth := field b 1 1, planes := field b 2 1, matrix := field b 3 1, range := field b 4 1, gop := field b 5 1,
    refresh := field b 6 1, refs := field b 7 1, keyInt := field b 8 4, period := field b 0xC 4, rc := field b 0x10 1, qp := field b 0x11 1,
    level := field b 0x12 1, targetBits := field b 0x14 4, vbvBits := field b 0x18 4, search := field b 0x1C 1,
    gain := (List.range 3).map fun i => field b (0x20 + 4 * i) 4, offset := (List.range 3).map fun i => field b (0x2C + 4 * i) 4,
    pool := field b 0x38 8, slotBytes := field b 0x40 4, slots := field b 0x44 2 }

/-- Largest picture of a level in luma samples, from the standards; none for a level they do not define (PRESUMED, log entry 40). -/
def levelSamples (std level : Nat) : Option Nat :=
  if std = 3 then
    match level with
    | 30 => some 36864 | 60 => some 122880 | 63 => some 245760 | 90 => some 552960 | 93 => some 983040 | 120 => some 2228224
    | 123 => some 2228224 | 150 => some 8912896 | 153 => some 8912896 | 156 => some 8912896 | 180 => some 35651584
    | 183 => some 35651584 | 186 => some 35651584 | _ => none
  else
    match level with
    | 0 => some 147456 | 1 => some 278784 | 4 => some 665856 | 5 => some 1065024 | 8 => some 2359296 | 9 => some 2359296
    | 12 => some 8912896 | 13 => some 8912896 | 14 => some 8912896 | 15 => some 8912896 | 16 => some 35651584 | 17 => some 35651584
    | 18 => some 35651584 | 19 => some 35651584 | _ => none

/-- An encode record breaks R362. -/
def encRecBad (b : Bytes) : Bool :=
  let r := EncRec.parse b
  (r.std != 3 && r.std != 4) || (r.depth != 8 && r.depth != 10) || r.planes == 0 || decide (2 < r.planes) || r.matrix == 0 ||
  decide (3 < r.matrix) || r.range == 0 || decide (2 < r.range) || decide (2 < r.gop) || decide (1 < r.refresh) ||
  (r.refresh == 1 && r.gop != 1) || r.refs == 0 || decide (4 < r.refs) || (r.refresh == 0) != decide (1 ≤ r.keyInt) ||
  (if r.refresh = 1 then decide (r.period < 2) || decide (64 < r.period) else r.period != 0) || decide (1 < r.rc) ||
  (r.std == 3 && decide (51 < r.qp)) || (levelSamples r.std r.level).isNone || field b 0x13 1 != 0 ||
  (r.rc == 0 && (r.targetBits != 0 || r.vbvBits != 0)) || decide (r.search < 8) || decide (64 < r.search) || !rsvdZero b 0x1D 3 ||
  (r.gain ++ r.offset).any (fun n => !fp32Finite n) || r.pool % 65536 != 0 || r.slotBytes % 65536 != 0 || r.slots == 0 ||
  decide (64 < r.slots) || !rsvdZero b 0x46 58 || !inNear r.pool (r.slotBytes * r.slots)

/-! ### Checks at decode (R346, R359, R361, R362) -/

def cdStream (c : Cmd) : Nat := c.fld 0x10 8
def cdIngest (c : Cmd) : Nat := c.fld 0x18 8
def cdIngests (c : Cmd) : Bool := c.opcode == 0x41 || cdIngest c != 0
/-- Pictures asked for: OUT_COUNT, or COUNT of an INGEST. -/
def cdCount (c : Cmd) : Nat := if c.opcode = 0x41 then c.fld 0x2C 4 else c.fld 0x30 4
def cdDst (s : State) (c : Cmd) : Opnd := c.opnd s 0x20 (c.fld 0x28 2) (cdIngests c)
def cdMask (s : State) (c : Cmd) : Opnd := c.opnd s 0x24 (c.fld 0x2A 2) false

/-- A tensor lies in the near tier or in the issuing hearth's banks (R359). -/
def nearOrOwn (s : State) (h : Nat) (d : Desc) : Bool :=
  decide (d.count = 0) || match regionOf s d.base with
    | some .near => true
    | some (.hearth g _) => g == h
    | _ => false

/-- Pictures produced: twice as many with FIELD 3 (R358). -/
def IngestRec.produced (r : IngestRec) (n : Nat) : Nat := if r.field = 3 then 2 * n else n

/-- The destination and mask disagree with R358 or R359. -/
def ingestShapeBad (s : State) (h : Nat) (c : Cmd) (r : IngestRec) : Bool :=
  let n := r.produced (cdCount c)
  let od := cdDst s c
  let om := cdMask s c
  let d := od.desc
  let m := om.desc
  let grid := [r.cropW / r.pw, r.cropH / r.ph, n / r.pt]
  r.cropW % r.pw != 0 || r.cropH % r.ph != 0 || n % r.pt != 0 ||
  (od.isSome && (d.sizes != (r.chans * r.pw * r.ph * r.pt) :: grid || !nearOrOwn s h d)) ||
  (om.isSome && (m.sizes != grid || m.fmt != r.maskFmt || !nearOrOwn s h m))

/-- DECODE's and INGEST's checks: the code, or 0, and the increment. -/
def checkDecodeIngest (s : State) (h : Nat) (c : Cmd) : Nat × Nat :=
  let dec := c.opcode == 0x40
  let sb := peekBytes s (cdStream c) 64
  let sr := StreamRec.parse sb
  let ib := peekBytes s (cdIngest c) 64
  let ing := cdIngests c
  let od := cdDst s c
  let om := cdMask s c
  let list := if dec then sr.list else c.fld 0x30 8
  (firstCode [
    codeIf (maskBad c false false false true) Code.CMD_UNITS,
    codeIf (if dec then decide (2 ≤ c.fld 0x34 4) || c.fld 0x38 8 % 64 != 0 else !rsvdZero c.raw 0x38 8) Code.COD_FORMAT,
    codeIf (cdStream c % 64 != 0 || cdIngest c % 64 != 0 || !inNear (cdStream c) 64 || streamRecBad sb) Code.COD_FORMAT,
    codeIf (!dec && cdIngest c == 0) Code.COD_FORMAT,
    codeIf (!ing && (c.fld 0x20 4 != 0 || c.fld 0x24 4 != 0 || c.fld 0x28 4 != 0)) Code.COD_FORMAT,
    codeIf (dec && (ing == (sr.list != 0) && (ing || cdCount c != 0))) Code.COD_FORMAT,
    codeIf ((!ing || !dec) && !inNear list (2 * cdCount c)) Code.COD_FORMAT,
    codeIf (ing && (!inNear (cdIngest c) 64 || ingestRecBad ib)) Code.COD_FORMAT,
    od.code, om.code,
    codeIf (ing && ingestShapeBad s h c (IngestRec.parse ib)) Code.COD_FORMAT,
    if od.isLater || od.desc.rank == 0 then 0 else codeIf (c.sr && !(od.desc.fmt == 0x11 || od.desc.fmt == 0x20 || od.desc.fmt == 0x21)) Code.FMT_ROUND,
    if od.isLater || om.isLater then 0 else
      codeIf (selfOverlap s od.desc || selfOverlap s om.desc || tensorsMeet s od.desc om.desc) Code.DESC_ALIAS,
    codeIf (bankMissing s h c [od.desc, om.desc]) Code.CMD_UNITS], popcount c.bankMask 8)

/-- ENCODE's checks: the code, or 0, and the increment. -/
def checkEncode (s : State) (h : Nat) (c : Cmd) : Nat × Nat :=
  let eb := peekBytes s (c.fld 0x18 8) 128
  let os := c.opnd s 0x10 (c.fld 0x14 2) true
  let d := os.desc
  let even (n : Nat) : Bool := n % 2 == 0 && decide (16 ≤ n) && decide (n ≤ 8192)
  (firstCode [
    codeIf (maskBad c false false false true) Code.CMD_UNITS,
    codeIf (!rsvdZero c.raw 0x16 2 || !rsvdZero c.raw 0x38 8 || c.fld 0x18 8 % 64 != 0 || c.fld 0x30 8 % 64 != 0 ||
      !inNear (c.fld 0x18 8) 128 || encRecBad eb || !inNear (c.fld 0x20 8) (c.fld 0x28 8)) Code.COD_FORMAT,
    os.code,
    if os.isLater then 0 else codeIf (d.rank != 4 || d.size 0 != 3 || !even (d.size 1) || !even (d.size 2) ||
      !([0x10, 0x11, 0x12].contains d.fmt)) Code.COD_FORMAT,
    if os.isLater then 0 else
      codeIf (match levelSamples (field eb 0 1) (field eb 0x12 1) with | some m => decide (m < d.size 1 * d.size 2) | none => false) Code.COD_UNSUPPORTED,
    codeIf (foreignBank s h [d]) Code.OWNER_FAULT,
    codeIf (bankMissing s h c [d]) Code.CMD_UNITS], popcount c.bankMask 8)

/-! ### Limits of a stream (R337, R343) -/

/-- Table 13-1: the coded picture lies outside what the decoder supports. -/
def clipUnsupported (std : Nat) (q : Bytes) : Bool :=
  let w := clipW std q
  let h := clipH std q
  clipOutcome std q == 2 ||
  match std with
  | 1 => decide (1920 < w) || decide (1152 < h) || clipChroma std q == 0
  | 2 => decide (36864 < ceilDiv w 16 * ceilDiv h 16) || decide (4096 < w) || decide (4096 < h)
  | 3 => decide (35651584 < w * h) || decide (8192 < w) || decide (8192 < h)
  | _ => decide (35651584 < w * h) || decide (8192 < w) || decide (8192 < h) || clipChroma std q == 2

/-- SLOT_NEED (R343). -/
def slotNeed (w h depth chroma : Nat) (encode : Bool) : Nat :=
  let w16 := ceilDiv w 16 * 16
  let h16 := ceilDiv h 16 * 16
  let bps := if depth = 8 then 1 else 2
  let luma := (w16 / 4) * (h16 / 4)
  let blocks := luma + (if chroma = 0 then 0 else if chroma = 1 then luma / 2 else luma)
  let need := blocks * (1 + 16 * bps) + (w16 / 16) * (h16 / 16) * 17 + 4096 + (if encode then w16 * h16 * 5 / 256 else 0)
  ceilDiv need 65536 * 65536

/-! ### Lanes and rails (R340, R341, R67) -/

/-- Codec registers and the rail grant follow the lanes (Tables 13-16, 3-3). DEDUCED (log entry 46). -/
def syncCodec (s : State) : State :=
  let active := s.codLanes.foldl (fun m p => m ||| 2 ^ p.1) 0
  let busy := s.codIngest != []
  let s := wr (wr (wr s F.COD_STATE_ACTIVE active) F.COD_STATE_INGEST_BUSY (if busy then 1 else 0)) F.COD_STATE_QUEUED s.codQueue.length
  wr s F.DMP_RAIL_GRANT_COD (8 + 12 * s.codLanes.length + if busy then 16 else 0)

/-- Units of the codec pool that a grant may still take (R62, R67). -/
def codecFree (s : State) : Nat :=
  min (2 * rd s F.DMP_RAILS_COD_W) (s.damper.railCeil.get 512 2) - rd s F.DMP_RAIL_GRANT_COD

/-- The lowest enabled idle lane. -/
def idleLane (s : State) : Option Nat :=
  (List.range 8).find? fun i => bit (rd s F.COD_CFG_LANES) i && (s.codLanes.find? i).isNone

def overlaps (a n b m : Nat) : Bool := decide (0 < n) && decide (0 < m) && decide (a < b + m) && decide (b < a + n)

/-- Pool of a codec command. -/
def codPool (s : State) (c : Cmd) : Nat × Nat :=
  if c.opcode = 0x42 then let r := EncRec.parse (peekBytes s (c.fld 0x18 8) 128); (r.pool, r.slotBytes * r.slots)
  else let r := StreamRec.parse (peekBytes s (cdStream c) 64); (r.pool, r.slotBytes * r.slots)

/-- The command leaves its lane and the ingest path, at its completion or end (R340, R341). -/
def codecRelease (s : State) (h seq : Nat) : State :=
  let mine (r : LaneRun) : Bool := r.hearth == h && r.seq == seq
  let s := each (s.codLanes.filter fun p => mine p.2) s fun s p => wr s (F.COD_LANE_STATE p.1) 0
  syncCodec { s with codLanes := s.codLanes.filter (fun p => !mine p.2), codQueue := s.codQueue.filter (fun q => q != (h, seq)),
                     codIngest := s.codIngest.filter fun r => !(r.hearth == h && r.seq == seq) }

/-- Syntax-buffer errors that a lane meets in its partition (R342): corrected, or the command fails: true. -/
def sbufMeet (s : State) (lane : Nat) (cmd : Option CmdId) : State × Bool :=
  let mine := s.codErrs.filter fun e => e.1 / 2 ^ 19 == lane
  let s := { s with codErrs := s.codErrs.filter fun e => e.1 / 2 ^ 19 != lane }
  if mine.any fun e => decide (2 ≤ e.2) then (wr s F.COD_EVENT_SBUF_UNCORR 1, true)
  else (each mine s fun s _ =>
    emberCode (cntCod (satAdd (wr s F.COD_EVENT_SBUF_CORR 1) F.COD_ERR_CORR_COUNT 1) 9 1) (U.lane lane) Code.COD_CORR cmd, false)

/-! ### Ingest (R356 to R360) -/

/-- The nearest FP32 value of a decimal n / d. -/
def dec32 (n d : Int) : Nat := (fp32.round false ((FVal.ofInt n).div (FVal.ofInt d))).1
/-- The nearest FP32 value of an integer. -/
def intFR (n : Int) : FR := FR.ofBits (fp32.round false (FVal.ofInt n)).1

/-- KCR, KCB, KGB and KGR (Table 13-11). -/
def convK (m k : Nat) : FR :=
  let t : List Int := match m with
    | 1 => [1402000, 1772000, 344136, 714136]
    | 2 => [1574800, 1855600, 187324, 468124]
    | _ => [1474600, 1881400, 164553, 571353]
  FR.ofBits (dec32 (t.getD k 0) 1000000)

/-- The matrix and whether the range is limited, for a picture (R357). -/
def ingestMatrix (r : IngestRec) (std : Nat) (q : Bytes) : Nat :=
  if r.matrix ≠ 0 then r.matrix
  else match Config.streamProp std q 13 with
    | 1 => 2 | 5 => 1 | 6 => 1 | 9 => 3
    | _ => if clipWin std q 3 ≤ 576 then 1 else 2
def ingestLimited (r : IngestRec) (std : Nat) (q : Bytes) : Bool :=
  if r.range = 0 then std == 1 || Config.streamProp std q 14 % 2 == 0 else r.range == 1

/-- The frame line of a line after FIELD selection; `odd` is the field of this picture. -/
def fieldLine (r : IngestRec) (odd : Bool) (line : Nat) : Nat := if r.field = 0 then line else 2 * line + if odd then 1 else 0

/-- A sample of a plane brought to unit range (R357). -/
def unitSample (flush limited luma : Bool) (d v : Nat) : FR :=
  let k : Int := 2 ^ (d - 8)
  let v : Int := v
  let quot (a b : Int) : FR := FR.div flush (intFR a) (intFR b)
  if limited then (if luma then quot (v - 16 * k) (219 * k) else quot (v - 128 * k) (224 * k))
  else if luma then quot v (2 ^ d - 1) else quot (v - 2 ^ (d - 1)) (2 ^ d - 1)

/-- Channel c of the pixel at column x, line y after FIELD selection of output picture i (R356, R357) in a subnormal mode (R106). -/
def ingestChannel (flush : Bool) (r : IngestRec) (std : Nat) (q : Bytes) (i : Nat) (odd : Bool) (c x y : Nat) : FR :=
  let d := clipDepth std q
  let lim := ingestLimited r std q
  let col := clipWin std q 0 + x
  let row := clipWin std q 1 + fieldLine r odd y
  let ch := clipChroma std q
  let crow := if ch = 1 then clipWin std q 1 / 2 + fieldLine r odd (y / 2) else row
  let plane (p : Nat) : FR := if ch = 0 then FR.zero else unitSample flush lim false d (clipSample std q i p crow (col / 2))
  let yv := unitSample flush lim true d (clipSample std q i 0 row col)
  let cb := plane 1
  let cr := plane 2
  let m := ingestMatrix r std q
  let v :=
    if r.planes = 0 then yv
    else if r.planes = 1 then (if c = 0 then yv else if c = 1 then cb else cr)
    else if c = 0 then FR.add flush yv (FR.mul flush (convK m 0) cr)
    else if c = 2 then FR.add flush yv (FR.mul flush (convK m 1) cb)
    else FR.sub flush (FR.sub flush yv (FR.mul flush (convK m 2) cb)) (FR.mul flush (convK m 3) cr)
  FR.mul flush (FR.sub flush v (FR.load flush (r.mean.getD c 0))) (FR.load flush (r.invStd.getD c 0))

/-- The picture that position p of the produced pictures comes from, and its field (R356). -/
def IngestRec.source (r : IngestRec) (p : Nat) : Nat × Bool := if r.field = 3 then (p / 2, p % 2 == 1) else (p, r.field == 2)

/-- The picture breaks a rule of R359 that is checked once it is known. -/
def ingestPicBad (r : IngestRec) (std : Nat) (q : Bytes) : Bool :=
  let ch := clipChroma std q
  let h := clipWin std q 3
  let h := if r.field = 0 then h else if r.field = 2 then h / 2 else if r.field = 1 then (h + 1) / 2 else h / 2
  decide (clipWin std q 2 < r.cropX + r.cropW) || decide (h < r.cropY + r.cropH) ||
  (ch != 0 && (r.cropX % 2 == 1 || r.cropW % 2 == 1)) || (ch == 1 && (r.cropY % 2 == 1 || r.cropH % 2 == 1)) ||
  (std == 3 && Config.streamProp std q 15 % 2 == 1 && r.field != 0)

/-- A token is damaged (R358): some source sample lies in a damaged block, or its picture is missing. -/
def tokenDamaged (r : IngestRec) (pics : List (Option (Nat × Bytes × Nat))) (x y t : Nat) : Bool :=
  (List.range r.pt).any fun k =>
    let (p, odd) := r.source (r.pt * t + k)
    match pics.getD p none with
    | none => true
    | some (std, q, i) =>
      (List.range r.ph).any fun dy => (List.range r.pw).any fun dx =>
        let col := clipWin std q 0 + r.cropX + r.pw * x + dx
        let row := clipWin std q 1 + fieldLine r odd (r.cropY + r.ph * y + dy)
        bit r.damage (clipCode std q i (col / 16) (row / 16))

/-- The value of an element of the destination (R356 to R358). -/
def ingestValue (flush : Bool) (r : IngestRec) (pics : List (Option (Nat × Bytes × Nat))) (ix : List Nat) : FR :=
  let f := ix.getD 0 0
  let n := r.chans
  let c := f % n
  let i := f / n % r.pw
  let j := f / n / r.pw % r.ph
  let k := f / n / r.pw / r.ph
  let (p, odd) := r.source (r.pt * ix.getD 3 0 + k)
  match pics.getD p none with
  | none => FR.zero
  | some (std, q, num) => ingestChannel flush r std q num odd c (r.cropX + r.pw * ix.getD 1 0 + i) (r.cropY + r.ph * ix.getD 2 0 + j)

/-- The byte ranges of a group of the destination or of the mask. -/
def groupRanges (d : Desc) (dim g : Nat) : List (Nat × Nat) :=
  if d.count = 0 then [] else
  ((indexLists (1 :: d.sizes.drop 1)).filter fun ix => ix.getD dim 0 == g).map fun ix => (d.lineAddr ix, d.lineBytes)

/-- Sectors of byte ranges. -/
def sectorsOf (rs : List (Nat × Nat)) : Nat := rs.foldl (fun a r => if r.2 = 0 then a else a + ((r.1 + r.2 - 1) / 64 - r.1 / 64 + 1)) 0

/-- Store one group of the destination in a store mode (R99, R100): its elements, or the blocks that are whole with it. DEDUCED (log
entry 87). -/
def storeGroup (s : State) (m : StoreMode) (d : Desc) (v : List Nat → FR) (g : Nat) : State × Report :=
  match d.format with
  | none => (s, Report.empty)
  | some f =>
    if d.count = 0 then (s, Report.empty)
    else if f.isDq then
      let firsts := d.indices.filter fun ix => ix.getD d.blockDim 0 % 32 == 0 &&
        (if d.blockDim = 3 then min (ix.getD 3 0 + 31) (d.size 3 - 1) == g else ix.getD 3 0 == g)
      firsts.foldl (fun (p : State × Report) ix =>
        let b := d.blockDim
        let stat := (List.range (min 32 (d.size b - ix.getD b 0))).foldl (fun a j => a ||| (v (ix.set b (ix.getD b 0 + j))).g) 0
        let (s, r) := storeBlockAt p.1 d f m (fun ix => (v ix).v) ix
        (s, p.2.merge { r with stat := r.stat ||| stat })) (s, Report.empty)
    else
      (d.indices.filter fun ix => ix.getD 3 0 == g).foldl (fun (p : State × Report) ix =>
        let x := v ix
        let (n, fl) := storeElem f m (d.linear ix) x.v
        let (a, ga) := m.amaxOf x.v
        (d.setRaw p.1 f ix n, p.2.merge { amax := a, dom := 0, stat := x.g ||| fl ||| ga })) (s, Report.empty)

/-- Groups that a command's ingest has in all. -/
def ingestGroups (r : IngestRec) (c : Cmd) : Nat := r.produced (cdCount c) / max r.pt 1

/-- The mask's stored bits of a token. -/
def maskBits' (r : IngestRec) (damaged : Bool) : Nat :=
  if !damaged then 0
  else if r.maskMode = 1 then (if r.maskFmt = 0x11 then bf16.inf true else fp32.inf true)
  else if r.maskFmt = 0x02 then 1 else if r.maskFmt = 0x11 then 0x3F80 else fp32One

/-! ### The result of a DECODE (R353, R354) -/

/-- Damage codes of the delivered pictures. -/
def clipCodes (std : Nat) (q : Bytes) (ps : List Nat) : List (List Nat) :=
  let bw := ceilDiv (clipW std q) 16
  let bh := ceilDiv (clipH std q) 16
  ps.map fun i => (List.range bh).flatMap fun y => (List.range bw).map fun x => clipCode std q i x y

/-- The result record (Table 13-9), after `decoded` pictures decoded and `dropped` dropped. -/
def decodeResult (std : Nat) (q : Bytes) (decoded dropped : Nat) (ps : List Nat) (matrix : Nat) : Bytes :=
  let codes := clipCodes std q ps
  let all := codes.flatten
  let p (k : Nat) : Nat := Config.streamProp std q k
  let some_ := !ps.isEmpty
  leBytes 4 decoded ++ leBytes 4 ps.length ++ leBytes 4 dropped ++ leBytes 4 (codes.filter fun l => l.any (· != 0)).length ++
    leBytes 4 (all.filter fun c => c == 1 || c == 2).length ++ leBytes 4 (all.filter (· == 3)).length ++ leBytes 4 (p 9) ++
    leBytes 4 (p 10) ++ leBytes 2 (if some_ then clipWin std q 2 else 0) ++ leBytes 2 (if some_ then clipWin std q 3 else 0) ++
    leBytes 1 (clipChroma std q) ++ leBytes 1 (clipDepth std q) ++ leBytes 1 matrix ++ leBytes 1 (p 12 % 2) ++ leBytes 8 (p 11) ++ zeros 16

/-- Pictures that a whole decode decodes and drops (R350). -/
def clipCounts (std : Nat) (q : Bytes) : Nat × Nat :=
  let n := (clipDecoded std (clipPlain q)).length
  (n, clipCoded std (clipPlain q) - n)

/-- Choose n different slots of a pool: which ones is the device's choice (R343). DESIGN CHOICE (log entry 30). -/
def pickSlots (s : State) : Nat → List Nat → State × List Nat
  | 0, _ => (s, [])
  | n + 1, free =>
    match free with
    | [] => (s, [])
    | f :: fs =>
      let (x, s) := takeFree s
      let k := (f :: fs).getD (x % (fs.length + 1)) f
      let (s, r) := pickSlots s n ((f :: fs).filter (· != k))
      (s, k :: r)

/-- A codec command fails on its lane, or completes: its result record is written either way (R354, R364). -/
def codecEnd (s : State) (h : Nat) (c : Cmd) (unit : Nat) (at_ : Nat) (result : Bytes) (code : Nat) : State :=
  match memWrite s (idDisp h) at_ result (some (cmdId s h c)) with
  | (s, .fail k) => failRunning s h c unit (if code = 0 then k else code)
  | (s, _) => if code = 0 then cmdDone s h c else failRunning s h c unit code

/-- Completion of a DECODE once its pictures are delivered: reports, notices, counters, record, slot list (R349, R353, R354);
`record` is the ingest record. -/
def decodeFinish (s : State) (h : Nat) (c : Cmd) (lane std : Nat) (q : Bytes) (record : Bytes) (ps : List Nat) (slots : List Nat) : State :=
  let codes := (clipCodes std q ps).flatten
  let missing := cdCount c - ps.length
  let damaged := codes.any (· != 0)
  let id := some (cmdId s h c)
  let s := if damaged then emberCode (wr s F.COD_EVENT_DAMAGE 1) (U.lane lane) Code.COD_DAMAGE id else s
  let (decoded, dropped) := clipCounts std q
  let s := if dropped ≠ 0 then emberCode (wr (cntCod s 4 dropped) F.COD_EVENT_DROPPED 1) (U.lane lane) Code.COD_DROPPED id else s
  let s := if missing ≠ 0 then emberCode (wr s F.COD_EVENT_SHORT 1) (U.lane lane) Code.COD_SHORT id else s
  let s := if damaged || (cdIngests c && missing != 0) then ticketFlags s c.ticket 64 else s
  let s := cntCod (cntCod s 2 (codes.filter fun k => k == 1 || k == 2).length) 3 (codes.filter (· == 3)).length
  let r := IngestRec.parse record
  let s := if cdIngests c then reportTo (notices s h c U.ingest c.stat) c (cdDst s c).desc (some c.amax) c.dom (c.stat % 128) else s
  let result := decodeResult std q decoded dropped ps (if cdIngests c then ingestMatrix r std q else 0)
  if cdIngests c then codecEnd s h c (U.lane lane) (c.fld 0x38 8) result 0
  else
    orFail h c (U.lane lane) (memWrite s (idDisp h) (StreamRec.parse (peekBytes s (cdStream c) 64)).list (slots.flatMap (leBytes 2)) id) fun s _ =>
      codecEnd s h c (U.lane lane) (c.fld 0x38 8) result 0

/-- Run a DECODE on its lane (R347 to R354): header checks, decoding, and delivery into slots or to the ingest path.
DEDUCED (log entry 87). -/
def decodeRun (s : State) (h : Nat) (c : Cmd) (lane : Nat) : State :=
  let sr := StreamRec.parse (peekBytes s (cdStream c) 64)
  let id := some (cmdId s h c)
  let unit := U.lane lane
  orFail h c unit (memRead s (idDisp h) sr.hdrAddr sr.hdrLen id) fun s hdr =>
  orFail h c unit (memRead s (idDisp h) sr.bsAddr sr.bsLen id) fun s bs =>
    let std := sr.std
    let q := clipQuery hdr bs (bit (c.fld 0x34 4) 0) (c.fld 0x2C 4 + cdCount c)
    let record := peekBytes s (cdIngest c) 64
    let r := IngestRec.parse record
    let far (k : Nat) : Nat := Config.streamProp std q (40 + k)
    let fail (s : State) (code : Nat) : State := codecEnd s h c unit (c.fld 0x38 8) (decodeResult std q (far 0) (far 1) [] 0) code
    let (s, ecc) := sbufMeet s lane id
    if ecc then fail s Code.COD_ECC
    else if clipOutcome std q = 1 then fail s Code.COD_HEADER
    else if clipUnsupported std q then fail (wr s F.COD_EVENT_UNSUPPORTED 1) Code.COD_UNSUPPORTED
    else if sr.slots < clipDpb std q + (if cdIngests c then r.pt else cdCount c) + 1 ∨
        sr.slotBytes < slotNeed (clipW std q) (clipH std q) (clipDepth std q) (clipChroma std q) false then fail s Code.COD_POOL
    else if cdIngests c && ingestPicBad r std q then fail s Code.COD_INGEST
    else
      orFail h c unit (touchRanges s (idDisp h) true id [(sr.pool, sr.slotBytes * sr.slots)]) fun s _ =>
        let (d, s) := takeFreeBytes s (sr.slotBytes * sr.slots)
        let s := poke s sr.pool d
        let got := min (cdCount c) (clipOutputs std q - c.fld 0x2C 4)
        let ps := (List.range got).map (c.fld 0x2C 4 + ·)
        let s := cntCod (cntCod s 0 ((clipCounts std q).1 * (clipW std q * clipH std q))) 1 (Config.streamProp std q 20)
        if cdIngests c then
          let pics := ps.map (fun i => some (std, q, i)) ++ List.replicate (cdCount c - got) none
          let run : IngestRun := { hearth := h, seq := c.seq, lane := lane, record := record,
                                   factor := (plainMode s c (cdDst s c).desc).factor, std := std, query := q, pics := pics, group := 0 }
          if ingestGroups r c = 0 ∨ r.cropW = 0 ∨ r.cropH = 0 then decodeFinish s h c lane std q record ps []
          else { s with codIngest := s.codIngest ++ [run] }
        else
          let (s, slots) := pickSlots s got (List.range sr.slots)
          let s := { s with codKept := s.codKept ++ (slots.zip ps).map fun p =>
            { pool := sr.pool, slot := p.1, std := std, query := q, index := p.2 } }
          decodeFinish s h c lane std q record ps slots

/-! ### ENCODE (R362 to R366) -/

/-- Kr, Kg and Kb of a matrix as FP32 constants (R363); Kg is the decimal 1 − Kr − Kb. DEDUCED (log entry 87). -/
def encK (m : Nat) : FR × FR × FR :=
  let k (n : Int) : FR := FR.ofBits (dec32 n 10000)
  match m with
  | 1 => (k 2990, k 5870, k 1140)
  | 2 => (k 2126, k 7152, k 722)
  | _ => (k 2627, k 6780, k 593)

/-- A unit-range value mapped to a sample: the inverse of R357, rounded to nearest even and clamped; NaN counts as 0 (R363). With
the flags met on the way. -/
def toSample (flush limited luma : Bool) (d : Nat) (u : FR) : Nat × Nat :=
  let k : Int := 2 ^ (d - 8)
  let u := if u.v.isNan then { u with v := .fin false 0 0 } else u
  let lin (a b : Int) : FR := FR.add flush (FR.mul flush u (intFR a)) (intFR b)
  let v :=
    if limited then (if luma then lin (219 * k) (16 * k) else lin (224 * k) (128 * k))
    else if luma then FR.mul flush u (intFR (2 ^ d - 1)) else lin (2 ^ d - 1) (2 ^ (d - 1))
  (match v.v with
  | .nan => 0
  | .inf neg => if neg then 0 else 2 ^ d - 1
  | x => (clampInt 0 (2 ^ d - 1) x.toInt).toNat, v.g)

/-- An FP16, BF16 or FP32 element in a subnormal mode (R106), as FP32. -/
def Desc.loadFR (s : State) (d : Desc) (f : Fmt) (flush : Bool) (ix : List Nat) : FR :=
  match f.float with
  | some ff => let (v, fl) := ff.load flush (d.rawElem s f ix); ⟨v, flagIf fl stSubn⟩
  | none => FR.zero

/-- The samples of one picture with the flags met: luma, then Cb and Cr reduced to 4:2:0, each in raster order (R363). -/
def encodePicture (s : State) (d : Desc) (f : Fmt) (r : EncRec) (flush : Bool) (t : Nat) : List (Nat × Nat) :=
  let w := d.size 1
  let h := d.size 2
  let lim := r.range == 1
  let u (c x y : Nat) : FR :=
    let n := FR.add flush (FR.mul flush (d.loadFR s f flush [c, x, y, t]) (FR.load flush (r.gain.getD c 0))) (FR.load flush (r.offset.getD c 0))
    if n.v.isNan then { n with v := .fin false 0 0 } else n
  let (kr, kg, kb) := encK r.matrix
  let two (k : FR) : FR := FR.mul flush (intFR 2) (FR.sub flush (FR.ofBits fp32One) k)
  let ycc (x y : Nat) : FR × FR × FR :=
    if r.planes = 1 then (u 0 x y, u 1 x y, u 2 x y)
    else
      let (a, b, c) := (u 0 x y, u 1 x y, u 2 x y)
      let yv := FR.add flush (FR.add flush (FR.mul flush kr a) (FR.mul flush kg b)) (FR.mul flush kb c)
      (yv, FR.div flush (FR.sub flush c yv) (two kb), FR.div flush (FR.sub flush a yv) (two kr))
  let luma := (List.range h).flatMap fun y => (List.range w).map fun x => toSample flush lim true r.depth (ycc x y).1
  let chroma (pick : FR × FR × FR → FR) : List (Nat × Nat) :=
    (List.range (h / 2)).flatMap fun y => (List.range (w / 2)).map fun x =>
      let g (dx dy : Nat) : FR := pick (ycc (2 * x + dx) (2 * y + dy))
      let sum := FR.add flush (FR.add flush (FR.add flush (g 0 0) (g 1 0)) (g 0 1)) (g 1 1)
      toSample flush lim false r.depth (FR.mul flush sum (FR.ofBits (dec32 1 4)))
  luma ++ chroma (fun p => p.2.1) ++ chroma (fun p => p.2.2)

/-- The motion search of a command's pictures (R365): none in an all-intra group. -/
def encodeMotion (r : EncRec) (eb src : Bytes) (w h : Nat) (pics : List (List (Nat × Nat))) : List (List Kept) :=
  if r.gop = 0 then pics.map fun _ => []
  else Search.pictures { std := r.std, query := eb ++ src, range := r.search } w h r.refs [] 0
    (pics.map fun p => { w := w, h := h, data := (p.take (w * h)).map (·.1) })

/-- The unit that codes picture t of a command from its source and its vectors (R364; DEDUCED, log entry 6). -/
def encodeUnit (r : EncRec) (eb src : Bytes) (t : Nat) (motion : List Kept) : Bytes :=
  Config.encoded r.std (eb ++ leBytes 4 t) src (motion.flatMap Kept.bytes)

/-- How many units fit, and their bytes. -/
def encodeFit (len : Nat) : List Bytes → Nat × Bytes
  | [] => (0, [])
  | u :: us => if len < u.length then (0, []) else let (n, b) := encodeFit (len - u.length) us; (n + 1, u ++ b)

/-- ENCODE's result record (R364). -/
def encodeResult (r : EncRec) (eb src : Bytes) (n bytes nonfinite : Nat) : Bytes :=
  let keys := if r.refresh = 1 then min n 1 else ceilDiv n r.keyInt
  let p (k : Nat) : Nat := Config.streamProp (16 + r.std) (eb ++ src ++ leBytes 4 n) k
  leBytes 4 n ++ leBytes 4 keys ++ leBytes 8 bytes ++ leBytes 4 (if r.rc = 0 then 0 else p 0 % (n + 1)) ++
    leBytes 4 (if r.rc = 0 then r.qp * n else p 1) ++ leBytes 4 nonfinite ++ zeros 36

/-- Run an ENCODE on its lane. -/
def encodeRun (s : State) (h : Nat) (c : Cmd) (lane : Nat) : State :=
  let eb := peekBytes s (c.fld 0x18 8) 128
  let r := EncRec.parse eb
  let id := some (cmdId s h c)
  let unit := U.lane lane
  let d := (c.opnd s 0x10 (c.fld 0x14 2) true).desc
  orFail h c unit (readTensors s h c [d]) fun s _ =>
    match d.format with
    | none => s
    | some f =>
      let n := d.size 3
      let pics := (List.range n).map (encodePicture s d f r c.subn)
      let src := pics.flatten.flatMap fun p => leBytes 2 p.1
      let flags := pics.flatten.foldl (fun a p => a ||| p.2) 0
      let bad := (d.indices.filter fun ix => !(d.elem s f ix).isFinite).length
      let fail (s : State) (code : Nat) : State := codecEnd s h c unit (c.fld 0x30 8) (encodeResult r eb src 0 0 bad) code
      let (s, ecc) := sbufMeet s lane id
      if ecc then fail s Code.COD_ECC
      else if r.slots < r.refs + 2 ∨ r.slotBytes < slotNeed (d.size 1) (d.size 2) r.depth 1 true then fail s Code.COD_POOL
      else
        orFail h c unit (touchRanges s (idDisp h) true id [(r.pool, r.slotBytes * r.slots)]) fun s _ =>
          let (fb, s) := takeFreeBytes s (r.slotBytes * r.slots)
          let s := poke s r.pool fb
          let units := (encodeMotion r eb src (d.size 1) (d.size 2) pics).zipIdx.map fun m => encodeUnit r eb src m.2 m.1
          let (k, out) := encodeFit (c.fld 0x28 8) units
          orFail h c unit (memWrite s (idDisp h) (c.fld 0x20 8) out id) fun s _ =>
            let s := notices s h c unit flags
            let s := if bad ≠ 0 then emberCode s unit Code.NONFINITE_INT id else s
            let s := cntCod (cntCod s 6 (k * (d.size 1 * d.size 2))) 7 out.length
            let s := if k < n then wr s F.COD_EVENT_OUT_FULL 1 else s
            codecEnd s h c unit (c.fld 0x30 8) (encodeResult r eb src k out.length bad) (if k < n then Code.COD_OUT_FULL else 0)

/-! ### The rows -/

/-- A DECODE or ENCODE reaches the die and waits for a lane (R340); one that has nothing to do completes at once (R346, R362). -/
def codecArrive (s : State) (h : Nat) (c : Cmd) : State :=
  if c.opcode = 0x40 ∧ (cdCount c = 0 ∨ (StreamRec.parse (peekBytes s (cdStream c) 64)).bsLen = 0) then
    codecEnd s h c (U.disp h) (c.fld 0x38 8) (zeros 64) 0
  else if c.opcode = 0x42 ∧ (c.opnd s 0x10 (c.fld 0x14 2) true).desc.size 3 = 0 then codecEnd s h c (U.disp h) (c.fld 0x30 8) (zeros 64) 0
  else syncCodec (updCmd { s with codQueue := s.codQueue ++ [(h, c.seq)] } h c.seq fun x => { x with st := .working, phase := 1 })

/-- DECODE (R345). -/
def execDecode (h : Fin 16) (seq : BitVec 32) (s : State) : Res := opRow h seq 0x40 s fun s c => codecArrive s h c
/-- ENCODE (R362). -/
def execEncode (h : Fin 16) (seq : BitVec 32) (s : State) : Res := opRow h seq 0x42 s fun s c => codecArrive s h c

/-- CODEC_LANE_START: the command at the head of the queue starts on the lowest idle lane, once its pool and its rail grant let it (R340,
R341). -/
def execCodecLaneStart (h : Fin 16) (seq : BitVec 32) (s : State) : Res :=
  if !isRun s || fnState s 0x10 != fnRUN || s.codQueue.head? != some (h.val, seq.toNat) then .next s else
  match findCmd s h seq.toNat, idleLane s with
  | some c, some lane =>
    if unitHalted s (U.lane lane) then .next s else
    let pool := codPool s c
    let ing := c.opcode == 0x40 && cdIngests c
    let std := if c.opcode = 0x42 then peekNat s (c.fld 0x18 8) 1 else peekNat s (cdStream c) 1
    if s.codLanes.any fun p => overlaps p.2.pool p.2.size pool.1 pool.2 then .next (cntCod s 8 1)
    else
      let s := wr (wr (wr s (F.COD_LANE_STANDARD lane) std) (F.COD_LANE_HEARTH lane) h.val) (F.COD_LANE_SEQ lane) seq.toNat
      if codecFree s < 12 + (if ing && s.codIngest == [] then 16 else 0) then
        .next (cntCod (wr (wr s (F.COD_LANE_STATE lane) 4) F.DMP_EVENT_RAIL_COD 1) 8 1)
      else
        let run : LaneRun := { hearth := h.val, seq := c.seq, pool := pool.1, size := pool.2, ingest := ing }
        let s := { s with codQueue := s.codQueue.drop 1, codLanes := s.codLanes.set lane run,
                          codKept := s.codKept.filter fun k => !overlaps k.pool 1 pool.1 pool.2 }
        let s := wr s (F.COD_LANE_STATE lane) (if c.opcode = 0x42 then 3 else 2)
        let s := updCmd s h c.seq fun x => { x with phase := 2 }
        .next (syncCodec (if c.opcode = 0x42 then encodeRun s h c lane else decodeRun s h c lane))
  | _, none => .next (cntCod s 8 1)
  | none, _ => .next s

/-- Whose group the ingest path takes next (R360): lanes in turn, INGEST commands after lane 7. -/
def nextIngest (s : State) : Option IngestRun :=
  let order := (List.range 9).map fun k => (s.codLast + 1 + k) % 9
  (order.findSome? fun l => s.codIngest.find? fun r => r.lane == l)

/-- The ingest of a command is over. -/
def ingestFinish (s : State) (h : Nat) (c : Cmd) (run : IngestRun) : State :=
  if c.opcode = 0x40 then
    let first := c.fld 0x2C 4
    decodeFinish s h c run.lane run.std run.query run.record ((List.range (run.pics.filter Option.isSome).length).map (first + ·)) []
  else
    cmdDone (reportTo (notices s h c U.ingest c.stat) c (cdDst s c).desc (some c.amax) c.dom (c.stat % 128)) h c

/-- INGEST_GROUP: the ingest path writes the next group of PT pictures of a command and its mask (R356 to R360). -/
def execIngestGroup (h : Fin 16) (seq : BitVec 32) (s : State) : Res :=
  if !unitLive s U.ingest || decide (fnSTOPPED ≤ fnState s 0x10) then .next s else
  match nextIngest s, findCmd s h seq.toNat with
  | some run, some c =>
    if run.hearth != h.val || run.seq != seq.toNat || c.st != .working then .next s else
    let r := IngestRec.parse run.record
    let d := (cdDst s c).desc
    let m := (cdMask s c).desc
    let g := run.group
    let last := g + 1 == ingestGroups r c
    let ranges := groupRanges d 3 g ++ groupRanges m 2 g ++ (if last && d.fmt ≥ 0x20 && d.layout == 1 then [(d.expBase, d.planeBytes)] else [])
    .next (orFail h c U.ingest (touchRanges s (idDisp h) true (some (cmdId s h c)) ranges) fun s _ =>
      let (s, rep) := storeGroup s { plainMode s c d with factor := run.factor } d (ingestValue c.subn r run.pics) g
      let s := match m.format with
        | none => s
        | some f => each (m.indices.filter fun ix => ix.getD 2 0 == g) s fun s ix =>
            m.setRaw s f ix (maskBits' r (tokenDamaged r run.pics (ix.getD 0 0) (ix.getD 1 0) g))
      let s := cntCod s 5 (sectorsOf ranges)
      let s := updCmd s h c.seq fun x => { x with amax := fp32MaxMag x.amax rep.amax, dom := x.dom + rep.dom, stat := x.stat ||| rep.stat }
      let run' := { run with group := g + 1 }
      let s := { s with codLast := run.lane, codIngest := s.codIngest.map fun x => if x = run then run' else x }
      if last then
        let s := { s with codIngest := s.codIngest.filter (· != run') }
        match findCmd s h c.seq with
        | some c => syncCodec (ingestFinish s h c run)
        | none => syncCodec s
      else s)
  | _, _ => .next s

/-- INGEST: kept pictures go to the ingest path (R361). -/
def execIngest (h : Fin 16) (seq : BitVec 32) (s : State) : Res :=
  opRow h seq 0x41 s fun s c =>
    if fnState s 0x10 ≠ fnRUN then s else
    let sr := StreamRec.parse (peekBytes s (cdStream c) 64)
    let record := peekBytes s (cdIngest c) 64
    let r := IngestRec.parse record
    let n := cdCount c
    orFail h c U.ingest (memRead s (idDisp h) (c.fld 0x30 8) (2 * n) (some (cmdId s h c))) fun s b =>
      let picks := (List.range n).map fun i => s.codKept.find? fun k => k.pool == sr.pool && k.slot == field b (2 * i) 2
      if picks.any (fun k => match k with | none => true | some k => ingestPicBad r k.std k.query || decide (sr.slots ≤ k.slot)) then
        failRunning s h c U.ingest Code.COD_INGEST
      else if r.produced n = 0 ∨ r.cropW = 0 ∨ r.cropH = 0 then cmdDone s h c
      else if s.codIngest == [] && decide (codecFree s < 16) then wr s F.DMP_EVENT_RAIL_COD 1
      else
        let run : IngestRun := { hearth := h.val, seq := c.seq, lane := 8, record := record,
                                 factor := (plainMode s c (cdDst s c).desc).factor, std := 0, query := [],
                                 pics := picks.map fun k => k.map fun k => (k.std, k.query, k.index), group := 0 }
        syncCodec (updCmd { s with codIngest := s.codIngest ++ [run] } h c.seq fun x => { x with st := .working, phase := 2 })

end Sys2Proof.Machine
end

