-- ==== Sys2Proof/Machine/Ckpt.lean ====
section
/-! DEFINITION. CKPT, its drains, and the operations of `MGT_RESTORE` (R414 to R430). -/

namespace Sys2Proof.Machine

/-! ### The checkpoint flash (R416, R417) -/

def ckByte (s : State) (a : Nat) : BitVec 8 := s.ckptFlash.get 0xFF a
def ckBytes (s : State) (a n : Nat) : Bytes := (List.range n).map fun i => ckByte s (a + i)
def ckWrite (s : State) (a : Nat) : Bytes → State
  | [] => s
  | b :: bs => ckWrite { s with ckptFlash := s.ckptFlash.set a b } (a + 1) bs

/-- Length of a flash slot: 4 TiB ÷ FLASH_SLOTS rounded down to a multiple of 64 KiB. -/
def slotLen (s : State) : Nat := 0x40000000000 / max (rd s F.MGT_CKPT_CFG_FLASH_SLOTS) 1 / 65536 * 65536
def slotBase (s : State) (k : Nat) : Nat := k * slotLen s
/-- A slot holds a complete header (Table 16-5). -/
def slotWhole (s : State) (k : Nat) : Bool :=
  let b := ckBytes s (slotBase s k) 256
  field b 0 4 == 0x544B4643 && field b 0xFF 1 == 1
def slotFld (s : State) (k o n : Nat) : Nat := leNat (ckBytes s (slotBase s k + o) n)
def slotCount (s : State) : Nat := rd s F.MGT_CKPT_CFG_FLASH_SLOTS

/-- The slot that a drain writes (R416). -/
def drainSlot (s : State) : Nat :=
  match (List.range (slotCount s)).find? fun k => !slotWhole s k with
  | some k => k
  | none =>
    ((List.range (slotCount s)).foldl (fun (b : Option Nat) k => match b with
      | none => some k
      | some j => if slotFld s k 0xC 4 < slotFld s j 0xC 4 then some k else some j) none).getD 0

/-- What the pages' own code finds when flash is read (R417): pages corrected, or a page that cannot be: the code, or 0. -/
def flashReadErrors (s : State) (corrected : Nat) (uncorrectable : Bool) : State × Nat :=
  if s.lostFlash then (emberCode s U.flash Code.FLASH_LINK none, Code.FLASH_LINK) else
  let s := each (List.range corrected) s fun s _ =>
    emberCode (satAdd (wr s F.MGT_FLASH_ERR_CORR 1) F.MGT_FLASH_ERR_CORR_COUNT 1) U.flash Code.FLASH_CORR none
  if uncorrectable then (emberCode (wr s F.MGT_FLASH_ERR_UNCORR 1) U.flash Code.FLASH_UNCORR none, Code.FLASH_UNCORR) else (s, 0)

/-! ### CKPT (R414, R415) -/

def ckOp (c : Cmd) : Nat := c.fld 0x10 1
def ckSkip (c : Cmd) : Bool := bit (c.fld 0x11 1) 0

/-- CKPT's checks (R414): the code, or 0, and the increment. -/
def checkCkpt (s : State) (c : Cmd) : Nat × Nat :=
  let op := ckOp c
  let training := match findTicket s c.ticket with | some t => t.prog.training | none => false
  let dst := c.fld 0x18 8
  let len := c.fld 0x20 8
  (firstCode [
    codeIf (maskBad c false false false false) Code.CMD_UNITS,
    codeIf (op == 0 || decide (3 < op) || decide (2 ≤ c.fld 0x11 1) || c.fld 0x12 2 != 0 || !rsvdZero c.raw 0x28 24 || !training ||
      (op == 3) != (c.fld 0x14 4 != 0) || (op == 3 && (!c.waitCommit || ckSkip c || rd s F.MGT_CKPT_PARITY_G == 0)) ||
      (op != 2 && (dst != 0 || len != 0)) ||
      (op == 2 && (dst % 4096 != 0 || !inOneRegion s dst len || match regionOf s dst with | some (.host _) => false | _ => true))) Code.CKPT_FORMAT], 0)

/-- CKPT: supervisor core 1 stages an image of the newest committed state (R415). -/
def execCkpt (h : Fin 16) (seq : BitVec 32) (s : State) : Res :=
  opRow h seq 0x48 s fun s c =>
    let unit := U.sup 1
    if unitHalted s unit then s
    else if s.staged.isSome then
      if ckSkip c then cmdDone (emberCode s unit Code.CKPT_SKIPPED (some (cmdId s h c))) h c else cntHearth s h 13 1
    else
      let kind := if ckOp c = 2 then 4 else 3
      let gen := rd s F.DEV_COMMIT_GEN_GEN
      let base := rd s F.MGT_CKPT_STAGE_BASE_64K * 65536
      orFail h c unit (touchRanges s idSup false (some (cmdId s h c)) (imageRanges s)) fun s _ =>
        if (pdirRecords s).any fun r => decide (65535 ≤ recHold s r (recLive s r)) then
          failRunning (wr s F.BUR_EVENT_HOLD_OVERFLOW 1) h c unit Code.HOLD_OVERFLOW
        else
          let img := buildImage s kind gen s.commitStep
          if rd s F.MGT_CKPT_STAGE_SIZE_64K * 65536 < img.length ∨ (ckOp c = 2 ∧ c.fld 0x20 8 < img.length) ∨
              (ckOp c = 3 ∧ (pgSize s - 2) * pgChunk s < img.length) then failRunning s h c unit Code.CKPT_SIZE
          else
            orFail h c unit (touchRanges s idSup true (some (cmdId s h c)) [(base, img.length)]) fun s _ =>
              let s := poke s base img
              let st : Staged := { op := ckOp c, gen := gen, step := s.commitStep, size := img.length, dst := c.fld 0x18 8, ticket := c.ticket,
                                   coll := c.fld 0x14 4, p := none, q := none }
              let s := { s with staged := some st }
              let s := wr (wr s F.MGT_CKPT_STATE_STATE (if ckOp c = 3 then 2 else 3)) F.MGT_CKPT_STATE_GEN gen
              let s := cmdDone s h c
              if ckOp c = 3 then
                let x : Coll :=
                  { kind := 5, id := st.coll, step := st.step, ticket := c.ticket, cmds := [], form := 0, ring := false, parts := 0,
                    first := rd s F.MGT_CKPT_PARITY_FIRST, count := pgSize s, stride := rd s F.MGT_CKPT_PARITY_STRIDE, pos := (pgPos s).getD 0,
                    root := 0, record := 0, fmt := 2, elems := pgChunk s, check := false, own := [], sent := 0, recv := 0, chk := 0,
                    chkVals := [], written := false, no := 0, shipped := [] }
                collAll { s with colls := s.colls ++ [x], collEnded := s.collEnded.filter fun e => !(e.1 == x.id && e.2.1 == x.step) }
              else s

/-! ### Drains (R416 to R418) -/

/-- A drain ends at a unit without a complete image. -/
def drainFail (s : State) (unit code : Nat) : State :=
  wr (wr (emberCode { s with staged := none } unit code none) F.MGT_CKPT_STATE_STATE 4) F.MGT_CKPT_STATE_CODE code

/-- A drain takes its slot: the slot's header is invalid from here on (R416). -/
def drainOpen (s : State) : State :=
  let k := drainSlot s
  ckWrite (wr s F.MGT_CKPT_STATE_SLOT k) (slotBase s k + 0xFF) [0]

/-- The staged image with its parity chunks, whose bytes are `body`, goes into a flash slot (R416, R417, R420). DEDUCED (log entry 86). -/
def drainTo (s : State) (st : Staged) (retired : Nat) (body : Bytes) : State :=
  let k := drainSlot s
  let top := ((List.range (slotCount s)).filter (slotWhole s)).foldl (fun m j => max m (slotFld s j 0xC 4)) 0
  let hdr := leBytes 4 0x544B4643 ++ leBytes 4 st.gen ++ leBytes 4 st.step ++ leBytes 4 (top + 1) ++ leBytes 2 (rd s F.MGT_RESTORE_STATE_EPOCH) ++
    leBytes 2 (moduleId s) ++ leBytes 1 (if st.op = 3 then 1 else 0) ++ leBytes 1 (if st.op = 3 then pgSize s else 0) ++
    leBytes 1 (if st.op = 3 then (pgPos s).getD 0 else 0) ++ [0] ++ leBytes 4 (if st.op = 3 then rd s F.MGT_CKPT_CFG_CHUNK_64K else 0) ++ zeros 4 ++
    leBytes 8 st.size ++ leBytes 8 (crc64 body) ++ zeros 207
  let s := drainOpen s
  let spare := rd s F.MGT_FLASH_ERR_SPARE_BLOCKS
  let s := each (List.range (min retired spare)) s fun s _ => emberCode (wr s F.MGT_FLASH_ERR_RETIRED 1) U.flash Code.FLASH_RETIRED none
  let s := wr s F.MGT_FLASH_ERR_SPARE_BLOCKS (spare - min retired spare)
  if spare < retired then drainFail s U.flash Code.FLASH_PROGRAM
  else
    let s := ckWrite (ckWrite s (slotBase s k + 256) body) (slotBase s k) (hdr ++ [1])
    let s := cntIo { s with staged := none } 14 (ceilDiv (256 + body.length) 16384)
    wr (wr (wr s F.MGT_CKPT_STATE_STATE 0) F.MGT_CKPT_DONE_GEN st.gen) F.MGT_CKPT_DONE_STEP st.step

/-- A staged image is ready for the flash: under OP 3 its parity chunks are whole (R416, R420). -/
def drainReady (s : State) (st : Staged) : Bool :=
  st.op != 2 && (st.op != 3 || (st.p.isSome && st.q.isSome && rd s F.MGT_CKPT_STATE_STATE == 3))

/-- FLASH_DRAIN: the staged image is read and drained; `retired` blocks fail on the way (R22, R46, R312, R416, R417). -/
def execFlashDrain (retired : Nat) (s : State) : Res :=
  if !unitLive s U.flash || decide (fnSTOPPED ≤ fnState s 0x14) then .next s else
  match s.staged with
  | none => .next s
  | some st =>
    if !drainReady s st then .next s
    else if s.lostFlash then .next (drainFail s U.flash Code.FLASH_LINK)
    else if slotLen s < 256 + st.size + (st.p.getD []).length + (st.q.getD []).length then .next (drainFail (drainOpen s) U.flash Code.CKPT_SIZE) else
    match memRead s idSup (rd s F.MGT_CKPT_STAGE_BASE_64K * 65536) st.size none with
    | (_, .wait) => .next s
    | (s, .fail code) => .next (drainFail s U.flash code)
    | (s, .ok img) => .next (drainTo s st retired (img ++ st.p.getD [] ++ st.q.getD []))

/-- HOST_STORE_DRAIN: the staged image is read and goes to a host window, COMPLETE last (R312, R418). -/
def execHostStoreDrain (s : State) : Res :=
  if !unitLive s (U.sup 1) then .next s else
  match s.staged with
  | none => .next s
  | some st =>
    if st.op ≠ 2 then .next s else
    match memRead s idSup (rd s F.MGT_CKPT_STAGE_BASE_64K * 65536) st.size none with
    | (_, .wait) => .next s
    | (s, .fail code) => .next (drainFail s (U.sup 1) code)
    | (s, .ok img) =>
      match memWrite s idSup st.dst (img.take 0xFF ++ [0] ++ img.drop 256) none with
      | (_, .wait) => .next s
      | (s, .fail code) => .next (drainFail s (U.sup 1) code)
      | (s, .ok _) =>
        match memWrite s idSup (st.dst + 0xFF) [1] none with
        | (s, .fail code) => .next (drainFail s (U.sup 1) code)
        | (s, _) => .next (wr { s with staged := none } F.MGT_CKPT_STATE_STATE 0)

/-! ### MGT_RESTORE (R424, R427 to R430) -/

/-- The conditions of R427: the code of a refusal, or 0. -/
def restoreRefused (s : State) : Bool :=
  ((List.range 17).any fun f => fnState s f != fnSTOPPED) || s.tickets.any (fun t => t.prog.training) ||
  rd s F.MGT_RESTORE_STATE_RESULT == 1 || fnState s 0x11 != fnRUN || fnState s 0x12 != fnRUN

/-- A write of `MGT_RESTORE` with an operation: who may write it, when it is taken, and what runs (R427, R442). -/
def restoreRow (src : Src) (s : State) (body : State → State) : Res :=
  if !served s src then .next s
  else if !isLead s src then .next (cfgErr s Code.NOT_LEAD 0x14 F.MGT_RESTORE_OP.off)
  else if stopActive s then .next (cfgErr s Code.FUNC_STATE 0x14 F.MGT_RESTORE_OP.off)
  else if !isRun s then .next s
  else if restoreRefused s then
    .next (if rd s F.MGT_RESTORE_STATE_RESULT = 1 then wr s F.MGT_RESTORE_STATE_CODE Code.RESTORE_STATE else restoreFail s Code.RESTORE_STATE)
  else .next (body (wr (wr s F.MGT_RESTORE_STATE_RESULT 1) F.MGT_RESTORE_STATE_CODE 0))

/-- Fields of the written word (Table 16-13). -/
def rsSource (v : BitVec 64) : Nat := bits v.toNat 3 2
def rsSlot (v : BitVec 64) : Nat := bits v.toNat 5 6
def rsPeer (v : BitVec 64) : Nat := bits v.toNat 11 12

/-- An exchange of the checkpoint unit as a collective. -/
def exchange (s : State) (kind id step root : Nat) (own : List (Nat × Nat × List Nat)) : Coll :=
  { kind := kind, id := id, step := step, ticket := 0, cmds := [], form := 0, ring := false, parts := 0, first := 0, count := 0, stride := 1,
    pos := (pgPos s).getD 0, root := root, record := 0, fmt := 2, elems := 0, check := false, own := own, sent := 0, recv := 0, chk := 0,
    chkVals := [], written := false, no := 0, shipped := [] }

/-- Start an exchange. -/
def startExchange (s : State) (x : Coll) : State :=
  collAll { s with colls := s.colls ++ [x], collEnded := s.collEnded.filter fun e => !(e.1 == x.id && e.2.1 == x.step) }

/-- Read an image at a device address: its header, then its body. -/
def readImage (s : State) (a : Nat) : State × Req Bytes :=
  match memRead s idSup a 256 none with
  | (s, .ok hdr) =>
    if 2 ^ 48 < imgBytes hdr then (s, .fail Code.RESTORE_IMAGE)
    else match memRead s idSup (a + 256) (imgBytes hdr) none with
      | (s, .ok body) => (s, .ok (hdr ++ body))
      | r => r
  | r => r

/-- RESTORE (R428). DESIGN CHOICE (log entry 50). -/
def execRestore (src : Src) (v : BitVec 64) (corrected : Nat) (uncorrectable : Bool) (s : State) : Res :=
  restoreRow src s fun s =>
    let arg := rd s F.MGT_RESTORE_ARG_ARG
    let from_ (s : State) (r : State × Req Bytes) : State :=
      match r with
      | (s, .ok b) => restoreFrom s (rsSource v) b
      | (s, .fail code) => restoreFail s code
      | (_, .wait) => restoreFail s Code.RESTORE_STATE
    match rsSource v with
    | 0 =>
      let h := returnRegion s
      if halfComplete s h then from_ s (readImage s h.1) else restoreFail s Code.RESTORE_IMAGE
    | 1 =>
      let k := rsSlot v
      match flashReadErrors s corrected uncorrectable with
      | (s, 0) =>
        if slotCount s ≤ k ∨ !slotWhole s k then restoreFail s Code.RESTORE_IMAGE
        else restoreFrom s 1 (ckBytes s (slotBase s k + 256) (slotFld s k 0x20 8))
      | (s, code) => restoreFail s code
    | 2 =>
      match regionOf s arg with
      | some (.host _) => from_ s (readImage s arg)
      | _ => restoreFail s Code.RESTORE_IMAGE
    | _ =>
      let step := arg % 2 ^ 32
      if (pgPos s).isNone then restoreFail s Code.RESTORE_STATE else startExchange s (exchange s 8 0 step step [])

/-- The parts of the undo copy, one for each region of the extra list (R424). -/
def undoRanges (s : State) (base : Nat) : List (Nat × Nat) :=
  ((extraList s).foldl (fun (a : List (Nat × Nat) × Nat) e => (a.1 ++ [(base + a.2, e.2)], a.2 + ceilDiv e.2 64 * 64)) ([], 0)).1

/-- ROLLBACK (R424). -/
def execRollback (src : Src) (_v : BitVec 64) (s : State) : Res :=
  restoreRow src s fun s =>
    let gen := rd s F.DEV_COMMIT_GEN_GEN
    match s.undoGen with
    | none => restoreFail s Code.RESTORE_STATE
    | some (g, before) =>
      if g ≠ gen ∨ s.rolledBack ∨ (pdirRecords s).any fun r => recPend s r == 1 then restoreFail s Code.RESTORE_STATE
      else
        let base := rd s F.MGT_CKPT_UNDO_BASE_64K * 65536
        match touchRanges s idSup false none (undoRanges s base) with
        | (s, .fail code) => restoreFail s code
        | (s, _) =>
        match touchRanges s idSup true none ((pdirRecords s).map (fun r => (r + 0x70, 40)) ++ extraList s) with
        | (s, .fail code) => restoreFail s code
        | (s, _) =>
        let s := each (pdirRecords s) s fun s r =>
          if recSstep s r (recLive s r) = s.commitStep then poke s (r + 0x70) (leBytes 1 (recOther s r)) else s
        let s := ((extraList s).foldl (fun (a : State × Nat) e =>
          (poke a.1 e.1 (peekBytes a.1 (base + a.2) e.2), a.2 + ceilDiv e.2 64 * 64)) (s, 0)).1
        restoreDone (setGeneration { s with rolledBack := true } 0 ((gen + 2 ^ 32 - 1) % 2 ^ 32) before)

/-- FILL (R429). -/
def execFill (src : Src) (_v : BitVec 64) (s : State) : Res :=
  restoreRow src s fun s => startExchange s (exchange s 6 (rd s F.MGT_RESTORE_ARG_ARG % 2 ^ 32) s.commitStep 0 [])

/-- SERVE (R430): the chunks of a flash slot that belong to rows in which the peer contributes. DESIGN CHOICE (log entry 50). -/
def execServe (src : Src) (v : BitVec 64) (corrected : Nat) (uncorrectable : Bool) (s : State) : Res :=
  restoreRow src s fun s =>
    let step := rd s F.MGT_RESTORE_ARG_ARG % 2 ^ 32
    match (List.range (slotCount s)).find? fun k => slotWhole s k && slotFld s k 8 4 == step && slotFld s k 0x14 1 == 1, pgPos s, pgPosOf s (rsPeer v) with
    | some k, some i, some p =>
      match flashReadErrors s corrected uncorrectable with
      | (s, 0) =>
        let n := slotFld s k 0x20 8
        let c := pgChunk s
        let g := pgSize s
        let at_ := slotBase s k + 256
        let img := ckBytes s at_ n
        let nums (b : Bytes) : List Nat := b.map BitVec.toNat
        let sym (r : Nat) : List Nat :=
          if r = i then nums (ckBytes s (at_ + n) c)
          else if (r + 1) % max g 1 = i then nums (ckBytes s (at_ + n + c) c)
          else chunkOf s img ((memberRows g i).findIdx (· == r))
        startExchange s (exchange s 7 0 step (rsPeer v) ((memberRows g p).map fun r => (0, r, sym r)))
      | (s, code) => restoreFail s code
    | _, _, _ => restoreFail s Code.RESTORE_IMAGE

/-! ### What a commit adds (R422, R424) -/

/-- The undo copy of a commit: the extra-list regions as they stand before it (R424; DEDUCED, log entry 41). -/
def undoCopy (s : State) (gen before : Nat) : State :=
  if rd s F.MGT_CKPT_CFG_UNDO_EN = 0 then { s with undoGen := none } else
  let base := rd s F.MGT_CKPT_UNDO_BASE_64K * 65536
  let need := (extraList s).foldl (fun a e => a + ceilDiv e.2 64 * 64) 0
  if rd s F.MGT_CKPT_UNDO_SIZE_64K * 65536 < need then { s with undoGen := none }
  else
    match touchRanges s idSup false none (extraList s) with
    | (s, .fail _) => { s with undoGen := none }
    | (s, _) =>
    match touchRanges s idSup true none (undoRanges s base) with
    | (s, .fail _) => { s with undoGen := none }
    | (s, _) =>
    let s := ((extraList s).foldl (fun (a : State × Nat) e => (poke a.1 (base + a.2) (peekBytes a.1 e.1 e.2), a.2 + ceilDiv e.2 64 * 64)) (s, 0)).1
    { s with undoGen := some (gen, before), rolledBack := false }

/-- The STEP entry of a commit (Table 16-6). -/
def rlogStep (s : State) (t : Ticket) (gen step : Nat) : State :=
  let descs := peekBytes s t.bufTable (128 * t.bufCount)
  rlogWrite s (leBytes 1 1 ++ [0] ++ leBytes 2 t.prog.id ++ leBytes 4 gen ++ leBytes 8 t.num ++ leBytes 4 step ++ leBytes 4 t.firstStep ++
    leBytes 8 t.ticketSeed.toNat ++ (t.raw.drop 0x30).take 16 ++ leBytes 8 (crc64 descs) ++ leBytes 2 t.flags ++ zeros 5)

/-- The sixteen QUOTA entries of a restart of memory die A (R422). -/
def rlogQuotas (s : State) : State :=
  each (List.range 16) s fun s n =>
    rlogWrite s (leBytes 1 2 ++ leBytes 1 n ++ zeros 2 ++ leBytes 4 (rd s F.DEV_COMMIT_GEN_GEN) ++
      leBytes 8 (regVal s (F.SBG_PQ_PROGRAM_ID n).off).toNat ++ zeros 47)

end Sys2Proof.Machine
end

