-- ==== Sys2Proof/Machine/Dispatcher.lean ====
section
/-! DEFINITION. Hearth dispatchers (R134 to R161): starting tickets, fetching and decoding commands, readiness, staging, completion, handle
puts, the commit, and the commands that a dispatcher and its transfer engine run themselves. -/

namespace Sys2Proof.Machine

/-! ### Starting tickets (R50, R134, R135) -/

/-- The step in which a non-TRAINING ticket stands: steps completed on every hearth of its mask (R51, R136). -/
def stepsOf (s : State) (t : Ticket) : Nat :=
  (maskBits t.prog.hearthMask 16).foldl (fun a h =>
    let d := getDisp s h
    let base := match d.cursors.find? fun x => x.ticket == t.key with | some x => x.step | none => 0
    (d.cmds.filter fun c => c.ticket == t.key).foldl (fun a c => min a c.step) (min a base)) t.stepCount

/-- What a completed command means for its ticket: steps of a non-TRAINING ticket complete, and it ends with its last step; EVAL steps
release their holds (R51, R136, R304); a cancelled or failed ticket ends when nothing of it is left (R52, R161). -/
def ticketAdvance (s : State) (key : Nat) : State :=
  match findTicket s key with
  | none => s
  | some t =>
    if t.prog.training || t.cancelling then tryEnd s key else
    let n := stepsOf s t
    let s := evalDrop (updTicket s key fun t => { t with steps := n }) fun x => x.1 == key && decide (x.2.1 < n)
    if n = t.stepCount then endTicket s key else s

/-- Accepted KIND 1 tickets that may start, in the order of R50. -/
def startQueue (s : State) : List Ticket :=
  sortBy (fun a b => if a.prio ≠ b.prio then decide (b.prio < a.prio) else decide (a.key < b.key))
    (s.tickets.filter fun t => t.prog.kind == 1 && !t.started && !t.cancelling && ticketFuncsOk s t)

/-- Byte offset of a hearth's command list within its section (R134). -/
def listStart (s : State) (t : Ticket) (h : Nat) : Nat := peekNat s (t.prog.secAddr + t.prog.entry + 4 * h) 4

/-- TICKET_START: the first ticket in the order of R50 starts on the dispatchers of its hearths (R50, R135). DEDUCED (log entry 70). -/
def execTicketStart (s : State) : Res :=
  if !unitLive s (U.sup 0) then .next s else
  match startQueue s with
  | [] => .next s
  | t :: _ =>
    match memRead s idSup (t.prog.secAddr + t.prog.entry) 64 none with
    | (s, .wait) => .next s
    | (s, .fail code) => .next (stopTicket (emberTicket (updTicket s t.key fun t => { t with started := true }) (U.sup 0) code t.num) t.key code 0 0xFF)
    | (s, .ok _) =>
      let s := updTicket s t.key fun t => { t with started := true }
      let s := each (maskBits t.prog.hearthMask 16) s fun s h =>
        let d := getDisp s h
        setDisp s h { d with cursors := d.cursors ++ [{ ticket := t.key, off := listStart s t h, pos := 0, step := 0, ended := false }] }
      .next (ticketAdvance s t.key)

/-! ### Checks at decode (R137 to R148, R155 to R158) -/

/-- The cost kind of an opcode (Table 6-2). -/
def opKind : Nat → Nat
  | 0x10 => kMe
  | 0x11 => kMe
  | 0x12 => kAwl
  | 0x18 => kMe
  | 0x20 => kRow
  | 0x21 => kRow
  | 0x28 => kAwl
  | _ => kTransfer

/-- The opcodes of Table 6-2. -/
def opKnown (op : Nat) : Bool :=
  [0x01, 0x02, 0x03, 0x08, 0x09, 0x10, 0x11, 0x12, 0x18, 0x19, 0x20, 0x21, 0x28, 0x30, 0x31, 0x38, 0x39, 0x3A, 0x40, 0x41, 0x42, 0x48].contains op

/-- What R137, R139, R155, R156, R158 and R270 say of any command's header and references. -/
def headerCode (t : Ticket) (c : Cmd) : Nat :=
  firstCode [
    codeIf (!opKnown c.opcode) Code.CMD_OPCODE,
    codeIf (decide (32 ≤ c.fld 1 1) || decide (4 ≤ c.unitMask) || bits c.outQ 6 2 != 0 || bits c.outQ 12 3 != 0 || c.fld 0xE 2 != 0) Code.CMD_FORMAT,
    codeIf ((!t.prog.chain && c.chained) || (t.prog.chain && (c.outValid || !(popRefs c).isEmpty))) Code.CHAIN_MODE,
    codeIf (c.recompute && (c.opcode == 0x02 || c.opcode == 0x30)) Code.STASH_FORMAT,
    codeIf (c.outValid && (match destOffset c with | none => true | some o => bits (c.fld o.1 4) 30 2 == 0)) Code.CMD_FORMAT,
    codeIf (c.waitCommit && !t.prog.training && decide (t.stepCount ≤ 1)) Code.CMD_FORMAT]

/-- NOP and STEP_END: no masks, a reserved body (Table 6-2). -/
def checkPlain (c : Cmd) : Nat :=
  firstCode [codeIf (maskBad c false false false false) Code.CMD_UNITS, codeIf (!rsvdZero c.raw 0x10 48) Code.CMD_FORMAT]

/-- QPUT (R157). -/
def checkQput (s : State) (c : Cmd) : Nat :=
  firstCode [
    codeIf (maskBad c false false false false) Code.CMD_UNITS,
    codeIf (bits (c.fld 0x10 2) 6 2 != 0 || bits (c.fld 0x10 2) 12 4 != 0 || !rsvdZero c.raw 0x12 6 || !rsvdZero c.raw 0x20 32) Code.CMD_FORMAT,
    codeIf (!handleOk s c.ticket (c.fld 0x18 8)) Code.QUEUE_HANDLE]

/-- A bank of the hearth that a byte range touches is missing from BANKS (R138). -/
def rangeBanksMissing (s : State) (h : Nat) (c : Cmd) (rs : List (Nat × Nat)) : Bool :=
  (maskBits (banksOf s h rs) 8).any fun b => !bit c.bankMask b

/-- XFER: the list's place (R152). The banks of its further descriptors, and the descriptors, are checked as the command runs.
DEDUCED (log entry 73). -/
def checkXfer (s : State) (h : Nat) (c : Cmd) : Nat :=
  let a := c.fld 0x10 8
  firstCode [
    codeIf (maskBad c false false false true) Code.CMD_UNITS,
    codeIf (a % 32 != 0 || !rsvdZero c.raw 0x1C 36 || !(match regionOf s a with
      | some .near => true | some (.shared 0) => true | some (.hearth _ 0) => true | _ => false)) Code.CMD_FORMAT,
    codeIf (rangeBanksMissing s h c [(a, min 32 (32 * c.fld 0x18 4))]) Code.CMD_UNITS]

/-- TACK (R154). -/
def checkTack (s : State) (h : Nat) (c : Cmd) : Nat :=
  let n := c.fld 0x20 2
  firstCode [
    codeIf (maskBad c false false false true) Code.CMD_UNITS,
    codeIf (!rsvdZero c.raw 0x22 30) Code.CMD_FORMAT,
    codeIf (decide (256 < n) || crosses256 (c.fld 0x10 8) n || crosses256 (c.fld 0x18 8) n) Code.TACK_FORMAT,
    codeIf (rangeBanksMissing s h c [(c.fld 0x10 8, n), (c.fld 0x18 8, n)]) Code.CMD_UNITS]

/-- The checks of a command's own opcode: the code, or 0, and the increment (R58). -/
def checkOp (s : State) (h : Nat) (c : Cmd) : Nat × Nat :=
  let banks := popcount c.bankMask 8
  match c.opcode with
  | 0x01 => (checkPlain c, 0)
  | 0x02 => (checkPlain c, 0)
  | 0x03 => (checkQput s c, 0)
  | 0x08 => (checkXfer s h c, banks)
  | 0x09 => (checkTack s h c, banks)
  | 0x10 => checkMm s h c
  | 0x11 => checkConv s h c
  | 0x12 => checkPool s h c
  | 0x18 => checkAttn s h c
  | 0x19 => checkPtCommit s h c
  | 0x20 => checkRowFwd s h c
  | 0x21 => checkRowBwd s h c
  | 0x28 => checkAwl s h c
  | 0x30 => checkStashPut s h c
  | 0x31 => checkStashGet s h c
  | 0x38 => checkReduce s h c
  | 0x39 => checkUpdate s c
  | 0x3A => checkGather s h c
  | 0x40 => checkDecodeIngest s h c
  | 0x41 => checkDecodeIngest s h c
  | 0x42 => checkEncode s h c
  | 0x48 => checkCkpt s c
  | _ => (Code.CMD_OPCODE, 0)

/-- The command before this one in its stream and area, if it is still held. -/
def prevCmd (s : State) (h : Nat) (c : Cmd) : Option Cmd :=
  (getDisp s h).cmds.find? fun x => x.ticket == c.ticket && x.recompute == c.recompute && x.pos + 1 == c.pos

/-- The destination tensor of a command. -/
def destDesc (s : State) (c : Cmd) : Option Desc := (destOffset c).map fun o => refDesc s c o.1 o.2

/-- A member reads its predecessor's destination: one of its input references names it, or shares bytes with it; that of an AWL command is
REF1 (R158, R173). -/
def readsFrom (s : State) (c p : Cmd) : Bool :=
  match destOffset p with
  | none => false
  | some po =>
    let pr := p.refAt po.1 (if po.2 = 0 then 0 else p.fld po.2 2)
    let pd := refDesc s p po.1 po.2
    let inputs := if c.opcode = 0x28 then [0x28] else (refOffsets c).filter fun o => (match destOffset c with | some d => d.1 != o | none => true)
    inputs.any fun o =>
      let so := sliceOffset c o
      let r := c.refAt o (if so = 0 then 0 else c.fld so 2)
      (r.1 != 0 && descAddr s c r == descAddr s p pr && r.2.2 == pr.2.2) || tensorsMeet s (refDesc s c o so) pd

/-- The rules of R158 for a member of a chain. -/
def chainCode (s : State) (h : Nat) (c : Cmd) : Nat :=
  if c.chain = none then 0 else
  codeIf (decide (8 < (chainOf s h c).length) || [0x01, 0x02, 0x03, 0x08, 0x09].contains c.opcode ||
    (c.chained && match destDesc s c with
      | none => true
      | some d => d.count != 0 && !(match regionOf s d.base with | some (.hearth g _) => g == h | _ => false)) ||
    (c.chain != some c.seq && match prevCmd s h c with | some p => !readsFrom s c p | none => true)) Code.CHAIN_FORM

/-- All checks that a command meets at decode, or, once it has popped its handles, when it becomes ready (R155): the code, or 0, and the
increment. -/
def decodeCode (s : State) (h : Nat) (t : Ticket) (c : Cmd) : Nat × Nat :=
  match headerCode t c with
  | 0 =>
    match checkOp s h c with
    | (0, inc) =>
      let sum := ((chainOf s h c).filter fun m => m.seq != c.seq).foldl (fun a m => a + m.inc) inc
      (firstCode [chainCode s h c, codeIf (decide (sum ≠ 0) && neverFits s h sum) Code.TOKEN_EXCEEDS], inc)
    | r => r
  | code => (code, 0)

/-- Bytes of staging at L1, L2 and L3 (R148, R207). -/
def stageOf (s : State) (h : Nat) (c : Cmd) : List Nat :=
  match c.opcode with
  | 0x10 =>
    let a := (mmA s c).desc
    let b := (mmB s c).desc
    [1, 2, 3].map fun l => if used (c.lvl l) then stageNeed s h c true l a b else 0
  | 0x11 =>
    let a := (convA s c).desc
    let b := (convB s c).desc
    let d := (convC s c).desc
    let o := convOp c a b d
    let P := stageProd s c a b d o
    let stageB := match b.format with
      | some f => if used (c.lvl 1) && decide (1 < homeLevel s h b) then tileBytes f (c.lvl 1).2.1 (c.lvl 1).2.2 else 0
      | none => 0
    [5 * (convStageA s h c P o a + stageB), 0, 0]
  | _ => [0, 0, 0]

/-- The accumulator slots that a command takes on each of its MEs (R125, R127, R218, R229). -/
def slotsOf (s : State) (c : Cmd) : List (Nat × Nat) :=
  match c.opcode with
  | 0x10 => mmSlots s c
  | 0x11 => convSlots s c
  | 0x18 => (maskBits c.meMask 16).map fun i => (i, 3 * atRuns c)
  | _ => []

/-- Rows that a command with STATS set adds to its tag (R230, R254); none without STATS. -/
def statRowsOf (s : State) (c : Cmd) : Option Nat :=
  match c.opcode with
  | 0x18 => if atStats c then let q := (atQ s c).desc; some (q.size 1 * q.size 2 * q.size 3) else none
  | 0x20 => if rfStats c then some (rfX s c).desc.rowCount else none
  | _ => none

/-! ### Reading what a command names -/

/-- Read ranges as a dispatcher, in order: the first that fails or waits ends it. -/
def readAll (s : State) (h : Nat) (cmd : Option CmdId) : List (Nat × Nat) → State × Req Unit
  | [] => (s, .ok ())
  | (a, n) :: rs =>
    match memRead s (idDisp h) a n cmd with
    | (s, .ok _) => readAll s h cmd rs
    | (s, .fail code) => (s, .fail code)
    | (s, .wait) => (s, .wait)

/-- As `readAll`, for lists of ranges each of which may depend on what the reads before it left. -/
def readEach (s : State) (h : Nat) (cmd : Option CmdId) : List (State → List (Nat × Nat)) → State × Req Unit
  | [] => (s, .ok ())
  | f :: fs =>
    match readAll s h cmd (f s) with
    | (s, .ok _) => readEach s h cmd fs
    | r => r

/-- Addresses of the descriptors that a command's references name, where they are well formed; at readiness those that it popped. -/
def descReads (s : State) (c : Cmd) : List (Nat × Nat) :=
  ((refOffsets c).filter fun o => c.pops.isEmpty || c.pops.any fun p => p.1 == o).filterMap fun o =>
    let r := c.refAt o 0
    let a := descAddr s c r
    match r.1 with
    | 1 => if (match findTicket s c.ticket with | some t => decide (r.2.1 < t.bufCount) | none => false) then some (a, 128) else none
    | 2 => if r.2.1 * 256 + 128 ≤ nearEnd ∧ a + 128 ≤ nearEnd then some (a, 128) else none
    | _ => none

/-- Address of the geometry record of CONV and POOL, where it can be read (R198). -/
def geomRead (s : State) (c : Cmd) : Option Nat :=
  let a := if c.opcode = 0x11 then c.fld 0x38 8 else c.fld 0x20 8
  if (c.opcode = 0x11 ∨ c.opcode = 0x12) ∧ a % 64 = 0 ∧ inOneRegion s a 64 then some a else none

/-- An aligned range of the near tier, where the checks let the command read it. -/
def nearRead (align a n : Nat) : List (Nat × Nat) := if a % align = 0 ∧ inNear a n then [(a, n)] else []

/-- The parameter record that a command names (R282). -/
def paramRead (c : Cmd) : List (Nat × Nat) :=
  match c.opcode with
  | 0x38 => if rdForm c = 0 then nearRead 256 (rdRecord c) 768 else []
  | 0x39 => nearRead 256 (upRecord c) 768
  | 0x3A => if gaForm c = 0 then nearRead 256 (gaRecord c) 768 else []
  | _ => []

/-- The bias record that a command names (R231). -/
def biasRead (c : Cmd) : Nat := match c.opcode with | 0x18 => atBias c | 0x21 => rbBias c | _ => 0

/-- The records that a command names beside its tensors, which its checks read at decode (R198, R231, R237, R282, R338, R354, R361). -/
def structReads (s : State) (c : Cmd) : List (Nat × Nat) :=
  (match geomRead s c with | some a => [(a, 64)] | none => []) ++ (if biasRead c = 0 then [] else [(biasRead c, 64)]) ++ paramRead c ++
  match c.opcode with
  | 0x18 => if kvPaged c ∧ kvAddr c ≠ 0 then nearRead 128 (kvAddr c) 128 else []
  | 0x19 => nearRead 128 (kvAddr c) 128
  | 0x40 => nearRead 64 (cdStream c) 64 ++ if cdIngest c = 0 then [] else nearRead 64 (cdIngest c) 64
  | 0x41 => nearRead 64 (cdStream c) 64 ++ if cdIngest c = 0 then [] else nearRead 64 (cdIngest c) 64
  | 0x42 => nearRead 64 (c.fld 0x18 8) 128
  | _ => []

/-- What those records name and the checks read: descriptors, the optimiser record, a cache's scale records. -/
def namedReads (s : State) (c : Cmd) : List (Nat × Nat) :=
  let r := KvRec.at s (kvAddr c)
  (match BiasRec.at s (biasRead c) with | some b => if b.keyBias = 0 then [] else [(b.keyBias, 128)] | none => []) ++
  (paramRead c).flatMap (fun x => ((List.range 11).map (8 * ·)).flatMap (fun o => if recPtr s x.1 o = 0 then [] else nearRead 1 (recPtr s x.1 o) 128) ++
    nearRead 64 (recPtr s x.1 0x58) 64) ++
  if kvPaged c ∧ kvAddr c ≠ 0 then [r.kScale, r.vScale].flatMap (fun p => if p = 0 then [] else nearRead 32 p 32) else []

/-- The headers of the scale records of the tensors that a command names (R90). -/
def scaleReads (s : State) (c : Cmd) : List (Nat × Nat) :=
  let own (d : Desc) : List (Nat × Nat) :=
    if d.scalePtr ≠ 0 ∧ d.scalePtr % 32 = 0 ∧ inOneRegion s d.scalePtr 32 then
      match regionOf s d.scalePtr with
      | some .near => [(d.scalePtr, 32)]
      | some (.shared 0) => [(d.scalePtr, 32)]
      | some (.hearth _ 0) => [(d.scalePtr, 32)]
      | _ => []
    else []
  ((descReads s c).map fun x => Desc.parse (peekBytes s (plainAddr s x.1) 128)).flatMap own ++
  (paramRead c).flatMap fun x => if recHasFwd s x.1 then own (recFwd s x.1 0) ++ own (recFwd s x.1 1) else []

/-- Everything that the checks of a command read at decode, or what remains to be read of it once it has popped its handles. -/
def checkReads (c : Cmd) : List (State → List (Nat × Nat)) :=
  [fun s => descReads s c, fun s => if c.pops.isEmpty then structReads s c else [], fun s => if c.pops.isEmpty then namedReads s c else [],
   fun s => scaleReads s c]

/-- The slots to which the view references of a command resolve as it becomes ready (R285). -/
def resolveViews (s : State) (c : Cmd) : List (Nat × Nat) :=
  (refOffsets c).filterMap fun o =>
    let r := c.refAt o 0
    if r.1 ≠ 2 then none else
    match viewOf s (r.2.1 * 256) with
    | some (p, _) => some (r.2.1 * 256, viewSlot s c p)
    | none => none

/-! ### Fetching (R135, R136, R270) -/

/-- What a dispatcher fetches next: the ticket, the byte offset within its section, the position in the stream, the step, and whether it
belongs to a recompute segment. -/
structure NextFetch where
  ticket : Ticket
  off : Nat
  pos : Nat
  step : Nat
  recompute : Bool

/-- Tickets with commands left to fetch on a hearth, in the order of R135. -/
def fetchQueue (s : State) (h : Nat) : List (Ticket × Cursor) :=
  let d := getDisp s h
  let win := d.cmds.filter fun c => !c.recompute
  let open_ := d.cursors.filterMap fun x =>
    match findTicket s x.ticket with
    | some t =>
      if x.ended || t.cancelling || (t.eval && decide (64 ≤ (win.filter fun c => c.ticket == t.key).length)) ||
         win.any (fun c => c.ticket == t.key && c.opcode == 0x02) then none else some (t, x)
    | none => none
  sortBy (fun a b => if a.1.prio ≠ b.1.prio then decide (b.1.prio < a.1.prio) else decide (a.1.key < b.1.key)) open_

/-- The next command to fetch: one of the running segment, else one for the window (R135, R270). -/
def nextFetch (s : State) (h : Nat) : Option NextFetch :=
  let d := getDisp s h
  let seg : Option NextFetch :=
    match s.recomps.find? fun r => r.hearth == h && decide (0 < r.left) with
    | none => none
    | some r =>
      match findTicket s r.ticket, findCmd s h r.get with
      | some t, some g => if t.cancelling then none else some { ticket := t, off := r.off, pos := r.pos, step := g.step, recompute := true }
      | _, _ => none
  match seg with
  | some f => some f
  | none =>
    if 256 ≤ (d.cmds.filter fun c => !c.recompute).length then none else
    match fetchQueue s h with
    | [] => none
    | (t, x) :: _ => some { ticket := t, off := x.off, pos := x.pos, step := x.step, recompute := false }

/-- The command that bytes fetched give, before its checks. -/
def newCmd (s : State) (h : Nat) (f : NextFetch) (raw : Bytes) : Cmd :=
  let c : Cmd :=
    { seq := rd s (F.HRT_DISP_SEQ_NEXT h), ticket := f.ticket.key, pos := f.pos, step := f.step, raw := raw, recompute := f.recompute,
      chain := none, st := .decoded, pops := [], inc := 0, kind := opKind (field raw 0 1), waited := false, flags := 0, fail := 0, amax := 0,
      dom := 0, stat := 0, phase := 0, tiles := [], geom := [], statRow := 0, views := [], stage := [0, 0, 0], placed := false, slots := [], noted := 0 }
  let prev := match prevCmd s h c with | some p => if p.chained then p.chain else none | none => none
  { c with chain := match prev with | some q => some q | none => if c.chained then some c.seq else none }

/-- The cursor or the segment moves past a fetched command (R135, R136, R270). -/
def advanceFetch (s : State) (h : Nat) (f : NextFetch) (c : Cmd) : State :=
  if f.recompute then
    { s with recomps := s.recomps.map fun r => if r.hearth = h then { r with off := r.off + 64, left := r.left - 1, pos := r.pos + 1 } else r }
  else
    let d := getDisp s h
    setDisp s h { d with cursors := d.cursors.map fun x =>
      if x.ticket ≠ f.ticket.key then x
      else if c.opcode = 0x02 then
        { x with off := listStart s f.ticket h, pos := x.pos + 1, step := x.step + 1, ended := x.step + 1 == f.ticket.stepCount }
      else { x with off := x.off + 64, pos := x.pos + 1 } }

/-- The queues that a command names belong to its ticket if to nobody (R156). -/
def claimQueues (s : State) (h : Nat) (c : Cmd) : State :=
  let s := each (popRefs c) s fun s p => claimQueue s h p.2 c.ticket
  match putQueue c with
  | some (g, q) => claimQueue s g q c.ticket
  | none => s

/-- A decoded command that passed its checks, or whose checks wait for its pops. -/
def accept (s : State) (h : Nat) (c : Cmd) (inc : Nat) : State :=
  let known := (popRefs c).isEmpty
  let s := updCmd s h c.seq fun x => { x with inc := inc, stage := if known then stageOf s h c else [0, 0, 0], slots := if known then slotsOf s c else [] }
  let s := claimQueues s h c
  match statRowsOf s c with
  | some n => if known then assignRows s h c n else s
  | none => s

/-- At the start of an EVAL ticket's step, the step takes its holds (R275, R304). DEDUCED (log entry 68). -/
def evalStart (s : State) (h : Nat) (t : Ticket) (step : Nat) : State :=
  if !t.eval || s.evalHolds.any (fun x => x.1 == t.key && x.2.1 == step) then s else
  match evalTake s t.key step with
  | (s, 0) => s
  | (s, code) => stopTicket (emberTicket s (U.disp h) code t.num) t.key code 0 0xFF

/-- A list ends before its STEP_END, or a chain with its list (R136, R158). DEDUCED (log entry 67). -/
def endOfList (s : State) (h : Nat) (f : NextFetch) : State :=
  let open_ := (getDisp s h).cmds.any fun c => c.ticket == f.ticket.key && !c.recompute && c.pos + 1 == f.pos && c.chained
  let code := if open_ then Code.CHAIN_FORM else Code.CMD_FORMAT
  stopTicket (emberTicket s (U.disp h) code f.ticket.num) f.ticket.key code 0 0xFF

/-- A segment that ends within a chain (R158, R270). DEDUCED (log entry 67). -/
def segmentCut (s : State) (h : Nat) (c : Cmd) : Bool :=
  c.recompute && c.chained && (s.recomps.any fun r => r.hearth == h && r.left == 0)

/-- COMMAND_FETCH: fetch the next command, number it and decode it (R135 to R148, R155 to R158, R161).
DEDUCED (log entry 67). DEDUCED (log entry 69). -/
def execCommandFetch (h : Fin 16) (s : State) : Res :=
  if !unitLive s (U.disp h) || fnState s h == fnUNAVAIL then .next s
  else if fnState s h = fnSTOPPED then .next (if (nextFetch s h).isSome then cntHearth s h 13 1 else s)
  else
  match nextFetch s h with
  | none => .next (if (getDisp s h).cursors.any (fun x => !x.ended) then cntHearth s h 13 1 else s)
  | some f =>
    if !f.recompute && fnState s h != fnRUN then .next s
    else if f.ticket.prog.secLen < f.off + 64 then .next (endOfList s h f)
    else
      match memRead s (idDisp h) (f.ticket.prog.secAddr + f.off) 64 none with
      | (s, .wait) => .next (cntHearth s h 13 1)
      | (s, .fail code) => .next (stopTicket (emberTicket s (U.disp h) code f.ticket.num) f.ticket.key code 0 0xFF)
      | (s, .ok raw) =>
        let c := newCmd s h f raw
        match readEach s h (some (cmdId s h c)) (checkReads c) with
        | (s, .wait) => .next (cntHearth s h 13 1)
        | (s, r) =>
          let s := if f.recompute then s else evalStart s h f.ticket f.step
          if (match findTicket s f.ticket.key with | some t => t.cancelling | none => true) then .next s else
          let c := { c with geom := match geomRead s c with | some a => peekBytes s (plainAddr s a) 64 | none => zeros 64 }
          let d := getDisp s h
          let s := wrapAdd (setDisp s h { d with cmds := d.cmds ++ [c] }) (F.HRT_DISP_SEQ_NEXT h) 1
          let s := syncInflight (advanceFetch s h f c) h
          match r with
          | .fail code => .next (failCmd s h c (U.disp h) code)
          | _ =>
            match decodeCode s h f.ticket c with
            | (0, inc) => .next (if segmentCut s h c then failCmd s h c (U.disp h) Code.CHAIN_FORM else accept s h c inc)
            | (code, _) => .next (failCmd s h c (U.disp h) code)

/-! ### Readiness (R155, R156) -/

/-- Pop the handles of a command, oldest first, in ascending order of its references (R155). -/
def popAll (s : State) (h : Nat) (ticket : Nat) : List (Nat × Nat) → State × List (Nat × Handle)
  | [] => (s, [])
  | (o, q) :: ps =>
    match popQueue s h q ticket with
    | none => popAll s h ticket ps
    | some (x, s) => let (s, xs) := popAll s h ticket ps; (s, (o, x) :: xs)

/-- Reserve the entry of a command's put (R155). -/
def reservePut (s : State) (c : Cmd) : State :=
  match putQueue c with
  | none => s
  | some (g, q) =>
    let x := (getDisp s g).queue q
    setQueue s g q { x with owner := some c.ticket, reserved := x.reserved + 1 }

/-- COMMAND_READY: the command pops and reserves, makes the checks that waited for its pops, and may start (R155, R159).
DEDUCED (log entry 68). -/
def execCommandReady (h : Fin 16) (seq : BitVec 32) (s : State) : Res :=
  if !unitLive s (U.disp h) then .next s else
  match findCmd s h seq.toNat with
  | none => .next s
  | some c =>
    if c.st != .decoded || c.opcode == 0x02 || !readyMet s h c then .next s
    else if !hearthTakes s h c then .next (cntHearth s h 13 1) else
    let (s1, pops) := popAll s h c.ticket (popRefs c)
    let c1 := { c with st := .ready, pops := pops }
    let c1 := { c1 with views := resolveViews s1 c1 }
    let s1 := reservePut (updCmd s1 h c.seq fun _ => c1) c1
    let told (s : State) : State := if (findCmd s h c.seq).any fun x => staged x then s else cntHearth s h 13 1
    if pops.isEmpty then .next (told (schedule s1 h))
    else
      match findTicket s1 c.ticket with
      | none => .next s
      | some t =>
        match readEach s1 h (some (cmdId s1 h c1)) (checkReads c1) with
        | (_, .wait) => .next (cntHearth s h 13 1)
        | (s1, .fail code) => .next (failCmd s1 h c1 (U.disp h) code)
        | (s1, .ok _) =>
          if pops.any fun p => !handleOk s1 c.ticket p.2.value then .next (failCmd s1 h c1 (U.disp h) Code.QUEUE_HANDLE)
          else
            match decodeCode s1 h t c1 with
            | (0, inc) =>
              let s1 := updCmd s1 h c.seq fun x => { x with inc := inc, stage := stageOf s1 h c1, slots := slotsOf s1 c1 }
              let s1 := match statRowsOf s1 c1 with | some n => assignRows s1 h c1 n | none => s1
              .next (told (schedule s1 h))
            | (code, _) => .next (failCmd s1 h c1 (U.disp h) code)

/-! ### Prefetch (R149) -/

/-- Bytes of one tile of an operand at a level. -/
def tileOf (s : State) (h : Nat) (c : Cmd) (l ref : Nat) : Nat :=
  let so := sliceOffset c ref
  let d := refDesc s c ref so
  if !(ref == 0x10 || ref == 0x14) || !(c.opcode == 0x10 || c.opcode == 0x11) || !used (c.lvl l) || decide (homeLevel s h d ≤ l) then 0 else
  let none_ := Desc.parse (zeros 128)
  if c.opcode = 0x10 then (if ref = 0x10 then stageNeed s h c true l d none_ else stageNeed s h c true l none_ d) / 5
  else if l ≠ 1 then 0
  else
    let b := (convB s c).desc
    let stageB := match b.format with | some f => if 1 < homeLevel s h b then tileBytes f (c.lvl 1).2.1 (c.lvl 1).2.2 else 0 | none => 0
    if ref = 0x14 then stageB else c.stage.getD 0 0 / 5 - stageB

/-- A tile of an operand: batch, range of rows or columns, and range of K. -/
structure OpTile where
  bt : Nat
  x : Nat × Nat
  k : Nat × Nat
  deriving DecidableEq, Repr

/-- Drop an entry that follows its equal. -/
def squeeze {α : Type} [DecidableEq α] : List α → List α
  | x :: y :: r => if x = y then squeeze (y :: r) else x :: squeeze (y :: r)
  | xs => xs

/-- The tiles of an operand at a level, in the order in which the command consumes them; a tile used twice in succession counts once (R149).
`batches` are the operand's slices in turn. -/
def opTiles (T : Tiling) (m n k : Nat) (depth : Nat) (isA : Bool) (batches : List Nat) : List OpTile :=
  squeeze (batches.flatMap fun bt => (nest (T.levels.take depth) ⟨(0, m), (0, n), (0, k)⟩).map fun t => ⟨bt, if isA then t.m else t.n, t.k⟩)

/-- The tensor of an operand and its tiles at level l. -/
def tilesOf (s : State) (c : Cmd) (l : Nat) (isA : Bool) : List OpTile :=
  let upper := c.opcode == 0x10
  let depth := ((usedLevels c upper).filter fun x => decide (l ≤ x)).length
  if upper then
    let a := (mmA s c).desc
    let b := (mmB s c).desc
    let d := (mmC s c).desc
    let P := mmProd s c .bf16 a b d
    let x := if isA then a else b
    let b2 := max (d.size 2) 1
    opTiles (c.tiling true) P.m P.n P.k depth isA
      ((List.range P.batches).map fun bt => (if x.size 2 = 1 then 0 else bt % b2) + b2 * (if x.size 3 = 1 then 0 else bt / b2))
  else
    let a := (convA s c).desc
    let b := (convB s c).desc
    let d := (convC s c).desc
    let P := stageProd s c a b d (convOp c a b d)
    opTiles (c.tiling false) P.m P.n P.k depth isA (List.range P.batches)

/-- The bytes of elements of a tensor, exponents included, as sectors. -/
def elemSectors (d : Desc) (ixs : List (List Nat)) : List (Nat × Nat) :=
  match d.format with
  | none => []
  | some f => (dedup (ixs.flatMap fun ix => (d.elemAddr f ix).1 / 64 :: if f.isDq then [d.expAddr f ix / 64] else [])).map fun x => (64 * x, 64)

/-- The sectors that the fetch of a tile reads at the operand's home (R149, R207). -/
def tileReads (s : State) (c : Cmd) (isA : Bool) (t : OpTile) : List (Nat × Nat) :=
  let within (f : Nat → Nat → List (List Nat)) : List (List Nat) :=
    (List.range t.x.2).flatMap fun i => (List.range t.k.2).flatMap fun j => f (t.x.1 + i) (t.k.1 + j)
  if c.opcode = 0x10 then
    let d := (mmC s c).desc
    let b2 := max (d.size 2) 1
    let tail := [t.bt % b2, t.bt / b2]
    if isA then elemSectors (mmA s c).desc (within fun m k => [(if c.shape == 3 then [m, k] else [k, m]) ++ tail])
    else elemSectors (mmB s c).desc (within fun n k => [[n, k] ++ tail])
  else
    let a := (convA s c).desc
    let b := (convB s c).desc
    let o := convOp c a b (convC s c).desc
    if isA then elemSectors a (within fun m k => convElems c o t.bt m k) else elemSectors b (within fun n k => convElemsB c o t.bt k n)

/-- First address of a staging region (Tables 6-11 to 6-13). -/
def stageBase (s : State) (h l : Nat) : Nat :=
  match l with
  | 1 => bankBase (16 + 8 * h) + rd s (F.HRT_STAGE_L1_OFFSET_4K h) * 4096
  | 2 => bankBase (rd s (F.HRT_STAGE_L2_SBANK h)) + rd s (F.HRT_STAGE_L2_OFFSET_4K h) * 4096
  | _ => rd s (F.HRT_STAGE_L3_BASE_64K h) * 65536

/-- A tile arrives in its staging region: n bytes of it are written at a place, and in an order, that the spec does not fix.
DESIGN CHOICE (log entry 118). -/
def fillStage (s : State) (h : Nat) (cmd : CmdId) (l n : Nat) : State × Req Unit :=
  let (o, s) := takeFree s
  let (d, s) := takeFreeBytes s n
  memWrite s (idDisp h) (stageBase s h l + o % (stageSize s h l - n + 1)) d (some cmd)

/-- TILE_FETCH_COMPLETE: the next tile of an operand arrives at a used level, in the order of its use: the tile in use and at most four ahead
are staged (R148, R149). It is read at the operand's home where no used level lies between, else at that level.
DEDUCED (log entry 69). DESIGN CHOICE (log entry 118). -/
def execTileFetchComplete (h : Fin 16) (seq : BitVec 32) (level : Fin 3) (ref : BitVec 8) (s : State) : Res :=
  if !unitLive s (U.disp h) then .next s else
  match findCmd s h seq.toNat with
  | none => .next s
  | some c =>
    let l := level.val + 1
    let isA := ref == 0x10
    let got (l : Nat) : Nat := (c.tiles.filter fun t => t.1 == l && t.2.1 == ref.toNat).length
    let above := ([2, 3].filter fun x => decide (l < x) && tileOf s h c x ref.toNat != 0).head?
    if !((c.st == .ready || c.st == .requested || c.st == .granted) && c.placed && tileOf s h c l ref.toNat != 0 && decide (got l < 5) &&
         (match above with | some x => got x != 0 | none => true)) then .next s
    else
      match (tilesOf s c l isA)[got l]? with
      | none => .next s
      | some t =>
        let id := cmdId s h c
        let rs := tileReads s c isA t
        let lose (s : State) (code : Nat) : State := if c.st.started then failRunning s h c (U.disp h) code else failCmd s h c (U.disp h) code
        match (if above.isSome then (s, .ok ()) else touchRanges s (idDisp h) false (some id) rs) with
        | (s, .wait) => .next (cntHearth s h 13 1)
        | (s, .fail code) => .next (lose s code)
        | (s, .ok _) =>
          let n := min (tileOf s h c l ref.toNat) (64 * rs.length)
          match fillStage s h id l n with
          | (s, .wait) => .next (cntHearth s h 13 1)
          | (s, .fail code) => .next (lose s code)
          | (s, .ok _) => .next (updCmd s h c.seq fun x => { x with tiles := x.tiles ++ [(l, ref.toNat, n)] })

/-! ### Completion (R155, R158, R160, R161) -/

/-- The MEs of a command have read out and wound down (R77, R126). -/
def drained (s : State) (h : Nat) (c : Cmd) : Bool :=
  c.kind != kMe || (maskBits c.meMask 16).all fun i =>
    rd s (F.MXE_STATE_STATE h i) != 5 ||
      ((List.range 8).all fun k => rd s (slotF h i k) != slotREADOUT) && s.bellows.get 0 (16 * h + i) == 0


/-- A command has no work left. -/
def completable (s : State) (h : Nat) (c : Cmd) : Bool :=
  c.st == .done && drained s h c && (findWalk s h c.seq).isNone && !heldFor s h c

/-- The row engine and the sequencer of a command stand idle. DEDUCED (log entry 91). -/
def releaseRows (s : State) (h : Nat) (c : Cmd) : State :=
  let s := if bit c.unitMask 0 then wr (wr s (F.ROW_CMD_ACTIVE h) 0) (F.ROW_STATE_STATE h) 0 else s
  if bit c.unitMask 1 then wr (wr s (F.ATS_CMD_ACTIVE h) 0) (F.ATS_STATE_STATE h) 0 else s

/-- The units of a command are its own no longer: its MEs, the row engine and the sequencer stand idle (R155). DEDUCED (log entry 91). -/
def releaseUnits (s : State) (h : Nat) (c : Cmd) : State :=
  releaseRows (if c.kind = kMe then each (maskBits c.meMask 16) s fun s i =>
      let st := rd s (F.MXE_STATE_STATE h i)
      let s := endLive (wr s (F.MXE_CMD_ACTIVE h i) 0) h i
      if 2 ≤ st ∧ st ≤ 5 then wr { s with bellows := s.bellows.set (16 * h + i) 0 } (F.MXE_STATE_STATE h i) 2 else s
    else s) h c

/-- The handle of a command's destination (R156). -/
def destHandle (c : Cmd) : Option Handle :=
  (destOffset c).map fun o =>
    let r := c.refAt o.1 (if o.2 = 0 then 0 else c.fld o.2 2)
    { ref := r.1 * 2 ^ 30 + r.2.1, slice := r.2.2 }

/-- A completed command leaves its area: its put goes on its way, and `back` of its increment, of which `meBack` is of MEs, waits to be
returned. DEDUCED (log entry 69). -/
def retireCmd (s : State) (h : Nat) (c : Cmd) (back meBack : Nat) : State :=
  let s := match putQueue c, destHandle c with
    | some (g, q), some x =>
      if c.fail = 0 then { s with puts := s.puts ++ [{ hearth := g, queue := q, handle := x, ticket := c.ticket, reserved := true, core := none, cmd := some (h, c.seq) }] }
      else unreserve s c
    | _, _ => s
  let d := getDisp s h
  let s := syncInflight (setDisp s h { d with cmds := d.cmds.filter (fun x => x.seq != c.seq), releases := d.releases + back, meBack := d.meBack + meBack }) h
  let s := ticketFlags s c.ticket c.flags
  let s := if c.fail = 0 then cntHearth s h 12 1 else s
  let s := if c.opcode = 0x31 then getEnds s h c else s
  let s := if 0x40 ≤ c.opcode ∧ c.opcode ≤ 0x42 then codecRelease s h c.seq else s
  if c.opcode = 0x39 then syncBurnish s else s

/-- One command completes: its units are free, and its whole increment waits to be returned. -/
def finishCmd (s : State) (h : Nat) (c : Cmd) : State := retireCmd (releaseUnits s h c) h c c.inc c.meInc

/-- A command of MEs has read out, and none of its MEs has begun to wind down (R78). DESIGN CHOICE (log entry 90). -/
def atSwap (s : State) (h : Nat) (c : Cmd) : Bool :=
  c.kind == kMe && c.chain == none && c.st == .done && c.fail == 0 && c.meMask != 0 && (findWalk s h c.seq).isNone && !heldFor s h c &&
    (maskBits c.meMask 16).all fun i =>
      rd s (F.MXE_STATE_STATE h i) == 5 && s.bellows.get 0 (16 * h + i) == 128 && (List.range 8).all fun k => rd s (slotF h i k) != slotREADOUT

/-- The command that follows on the same MEs with no idle wave between (R78): the first that the dispatcher may start, if the tokens that it
needs beyond those held fit in the free pool. DESIGN CHOICE (log entry 90). -/
def swapNext (s : State) (h : Nat) (c : Cmd) : Option Cmd :=
  if !atSwap s h c || (getDisp s h).pending.isSome || !unitLive s U.damper then none else
  let d := getDisp s h
  match candidates (setDisp s h { d with cmds := d.cmds.filter fun x => x.seq != c.seq }) h with
  | b :: _ =>
    if b.kind == kMe && b.chain == none && b.meMask == c.meMask && b.meInc != 0 && (reservedAny s).isNone && (decide (b.inc ≤ c.inc) || incFits s h (b.inc - c.inc))
    then some b else none
  | [] => none

/-- MEs go from one command to the next without a ramp: the difference of the increments is charged before the next begins, or waits to be
returned (R78). -/
def swapTo (s : State) (h : Nat) (c b : Cmd) : State :=
  let s := retireCmd (releaseRows s h c) h c (c.inc - b.inc) (c.meInc - b.meInc)
  let d := getDisp s h
  let s := updCmd (setDisp s h { d with incs := d.incs + (b.inc - c.inc) }) h b.seq fun x => { x with st := .granted }
  let s := each (maskBits b.meMask 16) s fun s i =>
    beginStream (endLive (wr (wr s (F.MXE_CMD_SEQ h i) b.seq) (F.MXE_CMD_ACTIVE h i) 1) h i) h i b 128
  recharge (beginRows s h b) h

/-- What follows a completion: the segment, gating, the ticket, waiting PUTs, and the next start (R59, R136, R159, R267, R270). -/
def afterComplete (s : State) (h key mes : Nat) : State :=
  schedule (stashDeadlock (ticketAdvance (gateMes (recompCheck s h) h mes) key)) h

/-- The MEs of commands. -/
def mesOf (ms : List Cmd) : Nat := ms.foldl (fun a m => a ||| (if m.kind = kMe then m.meMask else 0)) 0

/-- COMMAND_COMPLETE: a command, or the whole of its chain, completes (R155, R158); an ME command may hand its MEs to the next before they
wind down (R78). DEDUCED (log entry 95). -/
def execCommandComplete (h : Fin 16) (seq : BitVec 32) (s : State) : Res :=
  if !unitLive s (U.disp h) then .next s else
  match findCmd s h seq.toNat with
  | none => .next s
  | some c =>
    let ms := chainOf s h c
    match swapNext s h c with
    | some b => .next (afterComplete (swapTo s h c b) h c.ticket 0)
    | none =>
    if ms.all (completable s h) then .next (afterComplete (each ms s fun s m => finishCmd s h m) h c.ticket (mesOf ms)) else .next s

/-! ### Puts (R154, R156, R157, R189) -/

/-- Two puts come from one initiator: a core, or a dispatcher. -/
def samePutter (a b : Put) : Bool :=
  match a.core, b.core with
  | some x, some y => x == y
  | none, none => (a.cmd.map (·.1)) == (b.cmd.map (·.1))
  | _, _ => false

/-- HANDLE_PUT: the n-th put on its way takes effect in its queue; puts of one initiator take effect in order. -/
def execHandlePut (n : Nat) (s : State) : Res :=
  match s.puts[n]? with
  | none => .next s
  | some p =>
    let x := (getDisp s p.hearth).queue p.queue
    if !unitLive s (U.disp p.hearth) || (s.puts.take n).any (samePutter p) ||
       (!p.reserved && decide (16 ≤ x.entries.length + x.reserved)) then .next s
    else
      let x := { x with owner := some p.ticket, entries := x.entries ++ [p.handle], reserved := x.reserved - (if p.reserved then 1 else 0) }
      let s := setQueue { s with puts := s.puts.eraseIdx n } p.hearth p.queue x
      let s := match p.cmd with
        | some (h, q) => updCmd s h q fun c => if c.st = .putting then { c with st := .done } else c
        | none => s
      .next (match p.core with
        | some k =>
          let s := updCore s (coreKey k) fun c => { c with puts := c.puts - 1 }
          if coreKey k < 128 then awlCheckDone s (coreKey k / 8) (getCore s (coreKey k)).seq else s
        | none => s)

/-! ### Commands of the dispatcher itself -/

/-- NOP (Table 6-2). -/
def execNop (h : Fin 16) (seq : BitVec 32) (s : State) : Res := opRow h seq 0x01 s fun s c => cmdDone s h c

/-- STEP_END: it closes a step on its hearth as soon as it is fetched (R136). DEDUCED (log entry 68). -/
def execStepEnd (h : Fin 16) (seq : BitVec 32) (s : State) : Res :=
  if !unitLive s (U.disp h) then .next s else
  match findCmd s h seq.toNat with
  | none => .next s
  | some c => .next (if c.opcode = 0x02 then afterComplete (finishCmd s h c) h c.ticket 0 else s)

/-- QPUT: its handle goes on its way over the tack path (R157). -/
def execQput (h : Fin 16) (seq : BitVec 32) (s : State) : Res :=
  opRow h seq 0x03 s fun s c =>
    let q := c.fld 0x10 2
    updCmd { s with puts := s.puts ++ [{ hearth := bits q 8 4, queue := bits q 0 6, handle := handleOf (c.fld 0x18 8), ticket := c.ticket,
                                         reserved := true, core := none, cmd := some (h, c.seq) }] }
      h c.seq fun x => { x with st := .putting }

/-! ### Transfers (R152 to R154) -/

/-- A transfer descriptor (Table 6-8). -/
structure XferDesc where
  src : Nat
  dst : Nat
  length : Nat
  rows : Nat
  flags : Nat
  srcPitch : Nat
  dstPitch : Nat
  deriving DecidableEq, Repr

def XferDesc.parse (b : Bytes) : XferDesc :=
  { src := field b 0 8, dst := field b 8 8, length := field b 0x10 4, rows := field b 0x14 2, flags := field b 0x16 2,
    srcPitch := field b 0x18 4, dstPitch := field b 0x1C 4 }

/-- Byte ranges of a descriptor's rows. -/
def XferDesc.ranges (x : XferDesc) (dst : Bool) : List (Nat × Nat) :=
  if x.length = 0 then [] else
  (List.range x.rows).map fun i => (if dst then x.dst + i * x.dstPitch else x.src + i * x.srcPitch, x.length)

/-- One past the last byte of a descriptor's rows, from the first. -/
def XferDesc.span (x : XferDesc) (dst : Bool) : Nat :=
  if x.length = 0 ∨ x.rows = 0 then 0 else (x.rows - 1) * (if dst then x.dstPitch else x.srcPitch) + x.length

/-- A descriptor breaks R153. DEDUCED (log entry 73). -/
def XferDesc.bad (s : State) (x : XferDesc) : Bool :=
  decide (4 ≤ x.flags) || (decide (1 < x.rows) && decide (x.dstPitch < x.length)) ||
  rangesMeet (plainRanges s (x.ranges false)) (plainRanges s (x.ranges true)) ||
  !inOneRegion s x.src (x.span false) || !inOneRegion s x.dst (x.span true)

/-- Copy the rows of a descriptor. -/
def copyRows (s : State) (h : Nat) (cmd : Option CmdId) : List ((Nat × Nat) × (Nat × Nat)) → State × Req Unit
  | [] => (s, .ok ())
  | ((a, n), (b, _)) :: rs =>
    match memRead s (idDisp h) a n cmd with
    | (s, .ok d) =>
      match memWrite s (idDisp h) b d cmd with
      | (s, .ok _) => copyRows s h cmd rs
      | r => r
    | (s, .fail code) => (s, .fail code)
    | (s, .wait) => (s, .wait)

/-- Fetch a burst of at most n descriptors, no further than one with LAST (R152). -/
def fetchBurst (s : State) (h : Nat) (c : Cmd) : Nat → Nat → State × Req (List Bytes)
  | 0, _ => (s, .ok [])
  | n + 1, a =>
    match memRead s (idDisp h) a 32 (some (cmdId s h c)) with
    | (s, .fail code) => (s, .fail code)
    | (s, .wait) => (s, .wait)
    | (s, .ok b) =>
      if bit (field b 0x16 2) 0 then (s, .ok [b]) else
      match fetchBurst s h c n (a + 32) with
      | (s, .ok bs) => (s, .ok (b :: bs))
      | r => r

/-- Execute a descriptor (R152, R153): whether it was the last of its list. -/
def runDesc (s : State) (h : Nat) (c : Cmd) (b : Bytes) : State × Req Bool :=
  let x := XferDesc.parse b
  if x.bad s then (s, .fail Code.XFER_FORMAT)
  else if rangeBanksMissing s h c (x.ranges false ++ x.ranges true) then (s, .fail Code.CMD_UNITS)
  else
    match copyRows s h (some (cmdId s h c)) ((x.ranges false).zip (x.ranges true)) with
    | (s, .ok _) => (s, .ok (bit x.flags 0))
    | (s, .fail code) => (s, .fail code)
    | (s, .wait) => (s, .wait)

/-- Execute the descriptors of a burst in order: how it ended, whether the last of the list was among them, and the index of the next. -/
def runDescs (s : State) (h : Nat) (c : Cmd) : List Bytes → Nat → State × Req Bool × Nat
  | [], i => (s, .ok false, i)
  | b :: bs, i =>
    match runDesc s h c b with
    | (s, .ok false) => runDescs s h c bs (i + 1)
    | (s, r) => (s, r, i)

/-- Execute a list from descriptor `i` on, up to COUNT or to one with LAST; `fuel` bounds the bursts. A list that must wait goes on at the
descriptor that waits; `phase` counts those executed (R46). DEDUCED (log entry 73). -/
def runList (s : State) (h : Nat) (c : Cmd) : Nat → Nat → State
  | 0, _ => cmdDone s h c
  | fuel + 1, i =>
    let a := c.fld 0x10 8 + 32 * i
    let n := min 16 (c.fld 0x18 4 - i)
    let waits (s : State) (i : Nat) : State := updCmd (cntHearth s h 13 1) h c.seq fun x => { x with phase := i }
    if n = 0 then cmdDone s h c else
    match fetchBurst s h c n a with
    | (s, .fail code) => failRunning s h c (U.xfer h) code
    | (s, .wait) => waits s i
    | (s, .ok bs) =>
      if rangeBanksMissing s h c [(a, 32 * bs.length)] then failRunning s h c (U.xfer h) Code.CMD_UNITS else
      match runDescs s h c bs i with
      | (s, .ok true, _) => cmdDone s h c
      | (s, .ok false, j) => runList s h c fuel j
      | (s, .fail code, _) => failRunning s h c (U.xfer h) code
      | (s, .wait, j) => waits s j

/-- XFER: the hearth's transfer engine executes a descriptor list (R152, R153). -/
def execXfer (h : Fin 16) (seq : BitVec 32) (s : State) : Res :=
  opRow h seq 0x08 s fun s c => runList s h c (c.fld 0x18 4 / 16 + 2) c.phase

/-- TACK: up to 256 bytes over the tack path, after the dispatcher's earlier writes on it (R154). -/
def execTack (h : Fin 16) (seq : BitVec 32) (s : State) : Res :=
  opRow h seq 0x09 s fun s c =>
    let n := c.fld 0x20 2
    let cmd := some (cmdId s h c)
    if n = 0 then cmdDone s h c
    else if s.puts.any fun p => p.core.isNone && p.cmd.map (·.1) == some h.val then s else
    orFail h c (U.xfer h) (tackRead s (idDisp h) (c.fld 0x10 8) n cmd) fun s d =>
      orFail h c (U.xfer h) (tackWrite s (idDisp h) (c.fld 0x18 8) d cmd) fun s _ => cmdDone s h c

/-! ### The commit (R24, R92, R128, R256, R271, R303, R422, R424) -/

/-- Every command of step k of a ticket has completed on every hearth of its mask (R136). -/
def stepClosed (s : State) (t : Ticket) (k : Nat) : Bool :=
  (maskBits t.prog.hearthMask 16).all fun h =>
    let d := getDisp s h
    !d.cmds.any (fun c => c.ticket == t.key && decide (c.step ≤ k)) &&
    d.cursors.any fun x => x.ticket == t.key && decide (k < x.step)

/-- The twin has acknowledged the mirror of the last commit, or the condition is waived (R24, R396). DEDUCED (log entry 71). -/
def twinMet (s : State) : Bool := !mirrorOn s || s.mirrorOwed.isNone

/-- The indivisible commit of a ticket's open step. -/
def commitStepOf (s : State) (t : Ticket) : State :=
  let k := t.steps
  let ix := t.stepIndex k
  let gen := (rd s F.DEV_COMMIT_GEN_GEN + 1) % 2 ^ 32
  let s := undoCopy s gen s.commitStep
  let s := closeScales s t.key (some k)
  let s := commitRecords s t.key k ix
  let s := freeOrphans s t.key k
  let s := wr s F.DEV_COMMIT_GEN_GEN gen
  let s := rlogStep { s with commitStep := ix } t gen ix
  let s := postReports (emberPut (cntIo s 13 1) (U.sup 1) 6 0 ix false 0 gen) allFuncs
  let s := updTicket s t.key fun t => { t with steps := k + 1, lastGen := some gen }
  let s := if mirrorOn s then { s with mirrorDue := some (gen, ix), mirrorOwed := some gen } else { s with mirrorDue := none, mirrorOwed := none }
  if k + 1 = t.stepCount then endTicket s t.key else s

/-- COMMIT: the open step of a TRAINING ticket commits once all its commands have completed and the twin lets it (R24, R136). -/
def execCommit (t : BitVec 48) (s : State) : Res :=
  if !unitLive s (U.sup 1) then .next s else
  match s.tickets.find? fun x => x.num == t.toNat with
  | none => .next s
  | some x =>
    if x.started && !x.cancelling && x.prog.training && x.prog.kind == 1 && stepClosed s x x.steps && twinMet s then .next (commitStepOf s x)
    else .next s

end Sys2Proof.Machine
end

