-- ==== Sys2Proof/Machine/MemorySys.lean ====
section
/-! DEFINITION. What the memory system does of itself or at a host's word: handovers, clears, scrubbing, retraining, idle scrubs of
the units' own memories (R129, R167, R250, R318, R319, R328 to R332, R342). -/

namespace Sys2Proof.Machine

/-! ### Banks -/

/-- HANDOVER_WORD: a word of an identity reaches the bank control region over the tack path (R328). DEDUCED (log entry 48). -/
def execHandoverWord (who : BitVec 8) (w : BitVec 64) (s : State) : Res :=
  let id := who.toNat
  if !isRun s || !((decide (0x10 ≤ id) && decide (id ≤ 0x1F)) || id == idSup) then .next s
  else .next (handover s id w.toNat).1

/-- The identity of a register writer (R326, R328). -/
def srcId : Src → Nat
  | .host p => idHost p.val
  | .supervisor => idSup

/-- A write of `BNK_HANDOVER`: a refused one is ignored and sets REFUSED (R328). -/
def bankHandover (s : State) (src : Src) (v : Nat) : State :=
  match handover s (srcId src) v with
  | (s, 0) => s
  | (s, _) => wr s F.BNK_EVENT_REFUSED 1

/-- BNK_HANDOVER_WRITE (R328). -/
def execBnkHandoverWrite (src : Src) (v : BitVec 64) (s : State) : Res :=
  if served s src then .next (bankHandover s src v.toNat) else .next s

/-! ### BAR4 accesses that are held (R332, R378, R442) -/

def getPort (s : State) (p : Nat) : PciPort := s.ports.get PciPort.blank p
def setPort (s : State) (p : Nat) (q : PciPort) : State := { s with ports := s.ports.set p q }

/-- A BAR4 access reaches its bank: a failed write is discarded, a failed read completes with Completer Abort (R378); none where it must
wait. DEDUCED (log entry 66). -/
def bar4Do (s : State) (p : Nat) : BarAccess → Option State
  | .read x n =>
    match memRead s (idHost p) (0xF00000000000 + x) n none with
    | (_, .wait) => none
    | (s, .fail _) => some (emit s .completerAbort)
    | (s, .ok d) => some (emit s (.readBytes d))
  | .write x d =>
    match memWrite s (idHost p) (0xF00000000000 + x) d none with
    | (_, .wait) => none
    | (s, _) => some s

/-- The held BAR4 accesses of a port take effect in order, up to the first that must wait for its bank. DEDUCED (log entry 66). -/
def flushBar4 (s : State) (p : Nat) : State :=
  let held := (getPort s p).bar4
  let r := held.foldl (fun (a : State × List BarAccess) w =>
    if !a.2.isEmpty then (a.1, a.2 ++ [w])
    else
      match bar4Do a.1 p w with
      | none => (a.1, [w])
      | some s => (s, [])) (setPort s p { getPort s p with bar4 := [] }, [])
  setPort r.1 p { getPort r.1 p with bar4 := r.2 }

/-- BANK_CLEAR_COMPLETE: a waking bank has been cleared; accesses that waited proceed (R332). -/
def execBankClearComplete (n : Fin 144) (s : State) : Res :=
  if !pwrGood s then .next s else
  let s := wr s (F.BNK_OWNER_CLEARING n.val) 0
  .next (if stopActive s then s else flushHeld (flushBar4 (flushBar4 s 0) 1))

/-! ### The near tier (R315 to R319) -/

/-- The controller takes no part in a stop's cut before its marker, its die runs and its device is READY. -/
def scrubs (s : State) (c : Nat) : Bool :=
  let d := dieOf c
  unitLive s (U.gddr c) && rd s (F.MEM_CFG_SCRUB_EN d) == 1 && decide (fnState s (0x11 + d) ≤ 1) &&
    rd s (F.MEM_STATE_STATE c) == 0 && !s.lostGddr.contains d

/-- Bits that have flipped in symbols of a group: 68 × the sector within the group + the symbol, and the flipped bits. -/
def ariseErrs (s : State) (c g : Nat) (es : List (Nat × Nat)) : State :=
  each (es.filter fun e => decide (e.1 < 15 * 68)) s fun s e =>
    let k := 68 * (nearAddr c (64 * (15 * g + e.1 / 68)) / 64) + e.1 % 68
    let v := s.symErr.get 0 k ^^^ (e.2 % 256)
    { s with symErr := if v = 0 then s.symErr.erase k else s.symErr.set k v }

/-- MEM_SCRUB_GROUP: after SCRUB_REF refresh commands the controller reads its next group, a sector at a time; a poisoned sector is
skipped (R318). `arisen` are bits that have flipped in the group's symbols since it was last read. DESIGN CHOICE (log entry 50). -/
def execMemScrubGroup (c : Fin 24) (arisen : List (Nat × Nat)) (s : State) : Res :=
  if !scrubs s c then .next s else
  let g := rd s (F.MEM_SCRUB_NEXT_GROUP c)
  let s := ariseErrs s c g arisen
  let s := each (List.range 15) s fun s i =>
    let sec := nearAddr c (64 * (15 * g + i))
    if s.poison.contains sec then s else (eccRead (cntMem s (dieOf c) 0 1) sec true none).1
  let s := wrapAdd s (F.MEM_SCRUB_NEXT_GROUP c) 1
  .next (if rd s (F.MEM_SCRUB_NEXT_GROUP c) = 0 then satAdd s (F.MEM_SCRUB_PASSES c) 1 else s)

/-- GDDR7_RETRAIN: RETRY_MAX transfers have failed in succession, each repeated, recorded and counted; the controller retrains its
device (R319). DEDUCED (log entry 57). -/
def execGddr7Retrain (c : Fin 24) (s : State) : Res :=
  let d := dieOf c
  if !pwrGood s || s.power == .kindling || rd s (F.MEM_STATE_STATE c) != 0 || s.lostGddr.contains d then .next s else
  let s := each (List.range (rd s (F.MEM_CFG_RETRY_MAX d))) s fun s _ =>
    emberCode (satAdd (wr s (F.MEM_ERR_RETRY c) 1) (F.MEM_ERR_RETRY_COUNT c) 1) (U.gddr c) Code.MEM_RETRY none
  .next (wr s (F.MEM_STATE_STATE c) 1)

/-- GDDR7_RETRAIN_COMPLETE: the waiting requests resume, or the controller is FAILED until the next Kindling (R319). -/
def execGddr7RetrainComplete (c : Fin 24) (ok : Bool) (s : State) : Res :=
  if !pwrGood s || rd s (F.MEM_STATE_STATE c) != 1 then .next s
  else .next (flushHeld (wr s (F.MEM_STATE_STATE c) (if ok then 0 else 2)))

/-! ### Idle scrubs -/

/-- An ME rewrites the words of its KEPT slots; a word with two flipped bits is reported as `ACC_ECC` and the ME becomes FAULTED
(R129, R130). DEDUCED (log entry 56). -/
def scrubMe (s : State) (h i : Nat) : State :=
  let ks := (s.kept.filter fun x => x.me == 16 * h + i).map (·.slot)
  each ks s fun s k =>
    match readSlot s h i k none with
    | (s, false) => s
    | (s, true) =>
      if rd s (F.MXE_ERR_FAULTED h i) = 1 then s else faultMe (emberCode s (U.me h i) Code.ACC_ECC none) h i

/-- A core rewrites the words of its local store: single flipped bits are corrected, counted and recorded; a word with two keeps them
until an instruction reads it (R167). -/
def scrubAwl (s : State) (k : Nat) : State :=
  each ((getCore s k).lsErr.filter fun e => e.2 == 1) s fun s e => (lsCheck s k (8 * e.1) 8).1

/-- The row engine rewrites the words of its statistics memory and its row buffer: single flipped bits are corrected (R250). -/
def scrubRow (s : State) (h : Nat) : State :=
  let mine (x : StatTag) : Bool := x.hearth == h && !x.spilled
  let buf (e : Nat × Nat) : Bool := e.1 / 2 ^ 16 == 2 ^ 10 + h && e.2 == 1
  let ones := (s.stats.filter mine).flatMap (fun x => (x.errs.filter fun e => e.2 == 1).map (·.2)) ++ (s.wordErrs.filter buf).map (·.2)
  (rowWords { s with stats := s.stats.map (fun x => if mine x then { x with errs := x.errs.filter fun e => e.2 != 1 } else x),
                     wordErrs := s.wordErrs.filter fun e => !buf e } h ones none).1

/-- The codec die rewrites the words of idle partitions of the syntax buffer (R342). -/
def scrubCodec (s : State) : State :=
  let idle (e : Nat × Nat) : Bool := e.2 == 1 && (s.codLanes.find? (e.1 / 2 ^ 19)).isNone
  each (s.codErrs.filter idle) { s with codErrs := s.codErrs.filter fun e => !idle e } fun s e =>
    emberCode (cntCod (satAdd (wr s F.COD_EVENT_SBUF_CORR 1) F.COD_ERR_CORR_COUNT 1) 9 1) (U.lane (e.1 / 2 ^ 19)) Code.COD_CORR none

/-- Add flipped bits to a word. -/
def flip (m : Smap Nat) (w n : Nat) : Smap Nat := m.set w (m.get 0 w + n)

/-- One word of an ME has flipped bits (R129): words below 2^18 are those of its slots, 2^15 to a slot; words from there on are stationary rows,
whose parity an odd number of flipped bits breaks. -/
def ariseMe (s : State) (h i w n : Nat) : State :=
  let k := 16 * h + i
  if 2 ^ 18 ≤ w then (if n % 2 = 1 ∧ !s.parityBad.contains k then { s with parityBad := s.parityBad ++ [k] } else s)
  else if (keptAt s k (w / 2 ^ 15)).isSome then
    { s with kept := s.kept.map fun x => if x.me = k ∧ x.slot = w / 2 ^ 15 then { x with errs := flip x.errs (w % 2 ^ 15) n } else x }
  else if rd s (slotF h i (w / 2 ^ 15)) = slotFREE then s
  else { s with wordErrs := flip s.wordErrs (2 ^ 18 * k + w) n }

/-- One word of a row engine has flipped bits (R250): words below 2^16 are those of the row buffer, the others the rows of the statistics memory,
tag by tag. -/
def ariseRow (s : State) (h w n : Nat) : State :=
  if w < 2 ^ 16 then { s with wordErrs := flip s.wordErrs (2 ^ 26 + 2 ^ 16 * h + w) n }
  else
    let rows := (s.stats.filter fun x => x.hearth == h && !x.spilled).flatMap fun x => x.rows.map fun r => (x.ticket, x.tag, r.1)
    match rows[w - 2 ^ 16]? with
    | none => s
    | some (t, g, r) =>
      { s with stats := s.stats.map fun x => if x.hearth = h ∧ x.ticket = t ∧ x.tag = g then { x with errs := flip x.errs r n } else x }

/-- Bits have flipped in the protected words of a unit. DESIGN CHOICE (log entry 50). -/
def ariseIn (s : State) (u : ScrubUnit) (es : List (Nat × Nat)) : State :=
  each es s fun s e =>
    match u with
    | .me h i => ariseMe s h i e.1 e.2
    | .awl k => updCore s (coreKey k) fun c => { c with lsErr := flip c.lsErr e.1 e.2 }
    | .row h => ariseRow s h e.1 e.2
    | .codec => { s with codErrs := flip s.codErrs e.1 e.2 }
    | .landing =>
      match s.rxs[e.1 / 2 ^ 34]? with
      | none => s
      | some r =>
        { s with rxs := s.rxs.map fun x => if x.src = r.src ∧ x.num = r.num then { x with errs := flip x.errs (e.1 % 2 ^ 34) e.2 } else x }

/-- IDLE_SCRUB: in idle waves a unit reads and rewrites its protected words, where its function's SCRUB_EN is set (R129, R167,
R250, R342). DESIGN CHOICE (log entry 50). -/
def execIdleScrub (u : IdleScrub) (s : State) : Res :=
  let s := ariseIn s u.unit u.arisen
  match u.unit with
  | .landing => .next s
  | .me h i => if unitLive s (U.me h i) && rd s (F.MXE_HCFG_SCRUB_EN h) == 1 && rd s (F.MXE_STATE_STATE h i) == 2 then .next (scrubMe s h i) else .next s
  | .awl (.hearth h c) =>
    if unitLive s (U.awl h c) && rd s (F.AWL_HCFG_SCRUB_EN h) == 1 && rd s (F.AWL_STATE_STATE h c) != 0 then
      .next (scrubAwl s (8 * h.val + c.val)) else .next s
  | .awl (.sup _) => .next s
  | .row h => if unitLive s (U.row h) && rd s (F.ROW_CFG_SCRUB_EN h) == 1 && decide (fnState s h ≤ 1) then .next (scrubRow s h) else .next s
  | .codec => if isRun s && !stopActive s && rd s F.COD_CFG_SCRUB_EN == 1 && decide (fnState s 0x10 ≤ 1) then .next (scrubCodec s) else .next s

end Sys2Proof.Machine
end

