-- ==== Sys2Proof/Machine/HostIf.lean ====
section
/-! DEFINITION. The host interface (R369 to R383): rings and doorbells, ticket intake, the BAR4 aperture, interrupts, the lead host, link
changes and resets of the PCIe ports, and the loss of an edge domain (R22). -/

namespace Sys2Proof.Machine

def portUp (s : State) (p : Nat) : Bool := rd s (F.HIF_PORT_STATE p) == 2

/-! ### The lead (R379) -/

/-- A change of lead: the registers, the count, vector 5 of both ports (R379). DEDUCED (log entry 58). -/
def changeLead (s : State) (p : Nat) : State :=
  let s := satAdd (wr (wr s F.DEV_STATE_LEAD_PORT p) F.HIF_LEAD_LEAD_PORT p) F.HIF_LEAD_CHANGES 1
  raiseVec (raiseVec s 0 5) 1 5

/-- The lead port has lost its link or was reset: the lead passes if the other port's link is up. DEDUCED (log entry 58). -/
def loseLead (s : State) (p : Nat) : State := if p = leadPort s ∧ portUp s (1 - p) then changeLead s (1 - p) else s

/-- `HIF_LEAD.OP` 1 from the lead: given, or refused. -/
def giveLead (s : State) : State :=
  let o := 1 - leadPort s
  if portUp s o && rd s (F.HIF_PORT_DRIVER_READY o) == 1 then changeLead s o else wr s F.HIF_LEAD_REFUSED 1

/-- LEAD_GIVE (R379). -/
def execLeadGive (src : Src) (s : State) : Res :=
  if !served s src then .next s
  else if !isLead s src then .next (cfgErr s Code.NOT_LEAD 0 F.HIF_LEAD_OP.off)
  else .next (giveLead s)

/-! ### Rings (R373 to R376) -/

def ringSize (s : State) (p r : Nat) : Nat := 2 ^ rd s (F.HIF_RING_CTL_SIZE_LOG2 p r)
def ringBase (s : State) (p r : Nat) : Nat := rd s (F.HIF_RING_BASE_BASE p r)
def ringOn (s : State) (p r : Nat) : Bool := rd s (F.HIF_RING_CTL_ENABLE p r) == 1

/-- A ring register write that is not accepted (R373). -/
def ringBusy (s : State) (p r off : Nat) : State := hifErr s Code.RING_BUSY p r off

/-- The check that ENABLE makes (R373): BASE a multiple of 64, SIZE_LOG2 from 4 to 16, the ring within the port's own window. -/
def ringFits (s : State) (p r : Nat) : Bool :=
  let lg := rd s (F.HIF_RING_CTL_SIZE_LOG2 p r)
  let b := ringBase s p r
  decide (4 ≤ lg) && decide (lg ≤ 16) && b % 64 == 0 && decide (0x100000000000 * (p + 1) ≤ b) &&
    decide (b + 64 * 2 ^ lg ≤ 0x100000000000 * (p + 2))

/-- A write of `HIF_RING_CTL_p_r` (R373, R376). -/
def ringCtlWrite (s : State) (src : Src) (p r v : Nat) : State :=
  let f := F.HIF_RING_CTL_ENABLE p r
  if srcId src ≠ idHost p then ringBusy s p r f.off
  else if ringOn s p r then
    if v % 2 = 0 then wr s f 0 else ringBusy s p r f.off
  else
    let s := wr s (F.HIF_RING_CTL_SIZE_LOG2 p r) (bits v 4 5)
    if v % 2 = 0 then s
    else if ringFits s p r then wr (wr (wr s (F.HIF_RING_IDX_HEAD p r) 0) (F.HIF_RING_IDX_TAIL p r) 0) f 1
    else ringBusy s p r f.off

/-- A write of `HIF_RING_BASE_p_r` (R373). -/
def ringBaseWrite (s : State) (src : Src) (p r v : Nat) : State :=
  let f := F.HIF_RING_BASE_BASE p r
  if srcId src ≠ idHost p ∨ ringOn s p r then ringBusy s p r f.off else wr s f v

/-- RING_ENABLE: a write of `HIF_RING_CTL_p_r` that sets ENABLE (R373). -/
def execRingEnable (src : Src) (p : Fin 2) (r : Fin 4) (v : BitVec 64) (s : State) : Res :=
  if served s src && v.getLsbD 0 then .next (ringCtlWrite s src p r v.toNat) else .next s

/-- RING_DISABLE: a write of `HIF_RING_CTL_p_r` that clears ENABLE; the untaken entries are discarded (R376). -/
def execRingDisable (src : Src) (p : Fin 2) (r : Fin 4) (s : State) : Res :=
  if served s src && (ringOn s p r || srcId src != idHost p.val) then .next (ringCtlWrite s src p r 0) else .next s

/-- A 32-bit difference taken as signed. -/
def diff32 (a b : Nat) : Int := (BitVec.ofNat 32 a - BitVec.ofNat 32 b).toInt

/-- A doorbell value is accepted (R374). -/
def doorbellOk (s : State) (p r d : Nat) : Bool :=
  ringOn s p r && decide (0 ≤ diff32 d (rd s (F.HIF_RING_IDX_TAIL p r))) &&
    decide (diff32 d (rd s (F.HIF_RING_IDX_HEAD p r)) ≤ ringSize s p r)

/-- DOORBELL_WRITE: a write of `len` bytes to ring r's doorbell in BAR2 of port p (R372, R374). -/
def execDoorbellWrite (p : Fin 2) (r : Fin 4) (len : Nat) (v : BitVec 64) (s : State) : Res :=
  if !served s (.host p) then .next s
  else if len ≠ 8 then .next (hifErr s Code.BAR_WIDTH p r (8 * r.val))
  else
    let d := v.toNat % 2 ^ 32
    if doorbellOk s p r d then .next (wr s (F.HIF_RING_IDX_TAIL p r) d)
    else .next (hifErr s Code.DOORBELL_INVALID p r (8 * r.val))

/-! ### Ticket intake (R48 to R50, R375) -/

/-- The record's address is aligned and its 32 bytes lie within one region (Table 2-8). -/
def recordOk (s : State) (raw : Bytes) : Bool :=
  let a := field raw 0x28 8
  a % 32 == 0 && inOneRegion s a 32

/-- The first row of Table 2-8 but for the record's address. -/
def ticketFormatOk (s : State) (raw : Bytes) : Bool :=
  field raw 6 2 == 0 && decide (field raw 0xA 1 < 8) && decide (field raw 0xB 1 < 4) && rsvdZero raw 0x21 3 &&
    field raw 0x18 8 % 128 == 0 && inOneRegion s (field raw 0x18 8) (128 * field raw 0x20 1)

/-- Rows 4 and 5 of Table 2-8, for the program that the ticket names. -/
def ticketProgramCode (s : State) (raw : Bytes) (p : Program) : Nat :=
  let eval := bit (field raw 0xB 1) 1
  if field raw 0x20 1 ≠ p.bufCount ∨ (eval ∧ p.training) ∨ (!eval ∧ p.evalOnly) then Code.TICKET_BUFFERS
  else if (maskBits p.funcMask 64).any (fun f => fnState s f == fnUNAVAIL) || (maskBits p.hearthMask 16).any (fun h => fnState s h == fnUNAVAIL)
  then Code.FUNC_UNAVAIL
  else 0

/-- The program of an identifier in the running image. -/
def findProgram (s : State) (id : Nat) : Option Program := s.image.bind fun i => i.progs.find? (·.id == id)

/-- The checks of Table 2-8 in order: the code, or the program. -/
def ticketCheck (s : State) (raw : Bytes) : Nat × Option Program :=
  if !(recordOk s raw && ticketFormatOk s raw) then (Code.TICKET_FORMAT, none)
  else if s.tickets.any fun t => t.num == field raw 0 6 then (Code.TICKET_DUP, none)
  else
    match findProgram s (field raw 8 2) with
    | none => (Code.TICKET_PROGRAM, none)
    | some p => (ticketProgramCode s raw p, some p)

/-- A rejected ticket (R48, R49). -/
def rejectTicket (s : State) (ring : Nat × Nat) (raw : Bytes) (code : Nat) : State :=
  let num := field raw 0 6
  if recordOk s raw then
    writeRecord s (field raw 0x28 8) (recordBytes num code 0 0 (rd s F.DEV_COMMIT_GEN_GEN) 0 0xFF (field raw 8 2)) ring (bit (field raw 0xB 1) 0)
  else
    let s := emberTicket (cfgErr s Code.TICKET_FORMAT 0 (num % 2 ^ 32)) (U.sup 0) Code.TICKET_FORMAT (num % 2 ^ 32)
    hifErr s Code.RECORD_LOST ring.1 ring.2 (field raw 0x28 8)

/-- An accepted ticket; one with STEP_COUNT 0 completes at once (R48). The FAULT_SEQ of its record stays 0 where no command of it fails
(R51): DESIGN CHOICE (log entry 113). -/
def acceptTicket (s : State) (ring : Nat × Nat) (raw : Bytes) (p : Program) : State :=
  let t : Ticket :=
    { key := s.nextKey, num := field raw 0 6, raw := raw, prog := p, ring := ring, started := false, cancelling := false, flags := 0,
      status := 0, faultSeq := 0, faultHearth := 0xFF, steps := 0, lastGen := none }
  let s := cntIo { s with nextKey := s.nextKey + 1 } 12 1
  if t.stepCount = 0 then completeRecord s t else { s with tickets := s.tickets ++ [t] }

/-- A taken entry is checked (R48). -/
def intakeEntry (s : State) (ring : Nat × Nat) (raw : Bytes) : State :=
  match ticketCheck s raw with
  | (0, some p) => acceptTicket s ring raw p
  | (code, _) => rejectTicket s ring raw code

/-- Rings in the order in which intake visits them (R375). -/
def ringOrder (s : State) : List (Nat × Nat) := (List.range 8).map fun i => let k := (s.nextRing + i) % 8; (k / 4, k % 4)

/-- The ring that intake takes from next: enabled, HEAD differs from TAIL. -/
def intakeRing (s : State) : Option (Nat × Nat) :=
  (ringOrder s).find? fun q => ringOn s q.1 q.2 && rd s (F.HIF_RING_IDX_HEAD q.1 q.2) != rd s (F.HIF_RING_IDX_TAIL q.1 q.2)

/-- The read of an entry fails (R376). -/
def intakeFail (s : State) (p r addr code : Nat) : State := hifErr (wr s (F.HIF_RING_CTL_ENABLE p r) 0) code p r addr

/-- The read of an entry succeeds: HEAD goes on, and the ticket is checked (R375). -/
def intakeTake (s : State) (p r : Nat) (raw : Bytes) : State :=
  intakeEntry (wrapAdd s (F.HIF_RING_IDX_HEAD p r) 1) (p, r) raw

/-- TICKET_INTAKE: supervisor core 0 reads the entry at HEAD of the next ring as one sector and checks the ticket (R375, R376). The
operand is what the host's read gives. DESIGN CHOICE (log entry 50). -/
def execTicketIntake (rd_ : HostRead) (s : State) : Res :=
  if !unitLive s (U.sup 0) || stopActive s then .next s else
  match intakeRing s with
  | none => .next s
  | some (p, r) =>
    let addr := ringBase s p r + 64 * (rd s (F.HIF_RING_IDX_HEAD p r) % ringSize s p r)
    let go (s : State) : State := { s with nextRing := (4 * p + r + 1) % 8 }
    match access s idSup addr 64 false none with
    | (_, .wait) => .next s
    | (s, .fail c) => .next (intakeFail (go s) p r addr c)
    | (s, .ok _) =>
      match rd_ with
      | .data e => .next (intakeTake (go s) p r ((e ++ zeros 64).take 64))
      | .failed c =>
        if c.toNat = Code.HOST_LINK ∨ c.toNat = Code.HOST_ACCESS ∨ c.toNat = Code.HOST_POISON then .next (intakeFail (go s) p r addr c.toNat)
        else .next s

/-! ### The aperture (R378, R442) -/

/-- BAR4_ACCESS (R378): accesses of a port take effect in order, and wait while their bank is being cleared (R332); during a stop
reads are served and writes are held (R442). -/
def execBar4Access (p : Fin 2) (acc : BarAccess) (s : State) : Res :=
  if !served s (.host p) then .next s else
  let held := setPort s p { getPort s p with bar4 := (getPort s p).bar4 ++ [acc] }
  match acc with
  | .read x n => .next (if 0x08000000 < x + n then s else if stopActive s then (bar4Do s p acc).getD held else flushBar4 held p)
  | .write x d => .next (if 0x08000000 < x + d.length then s else if stopActive s then held else flushBar4 held p)

/-! ### Interrupts (R380, R383) -/

/-- Clear pending bits of a port; a held message whose bit is cleared will not be sent (R380). -/
def irqClear (s : State) (p v : Nat) : State :=
  let f := F.HIF_IRQ_PEND p
  let s := wr s f (rd s f - (rd s f &&& v % 256))
  setPort s p { getPort s p with held := (getPort s p).held.filter fun k => !bit v k }

/-- IRQ_CLEAR (R380). -/
def execIrqClear (src : Src) (p : Fin 2) (v : BitVec 64) (s : State) : Res :=
  if served s src then .next (irqClear s p v.toNat) else .next s

/-- Write bytes of a port's MSI-X table. -/
def tableSet (q : PciPort) (off : Nat) : Bytes → PciPort
  | [] => q
  | b :: bs => tableSet { q with table := q.table.set off b } (off + 1) bs

/-- MSIX_TABLE_WRITE: a write of `len` bytes at an offset from the start of port p's MSI-X table, whose PBA lies 0x800 after it; it takes
aligned accesses of 4 and 8 bytes (R372, R380, R383). A write of the PBA changes nothing. -/
def execMsixTableWrite (p : Fin 2) (off len : Nat) (v : BitVec 64) (s : State) : Res :=
  if !served s (.host p) then .next s
  else if !((off < 128 && off + len ≤ 128) || (0x800 ≤ off && off + len ≤ 0x808 : Bool)) then .next s
  else if !((len == 4 || len == 8) && off % len == 0) then .next (hifErr s Code.BAR_WIDTH p 0 (0x1D1000 + 0x1000 * p.val + off))
  else if off < 128 then .next (msixRelease (setPort s p (tableSet (getPort s p) off (leBytes len v.toNat))) p)
  else .next s

/-- PCIE_CONFIG_WRITE: what the host sets in the port's configuration space (R369, R377, R380); held messages that can travel again are
sent. -/
def execPcieConfigWrite (p : Fin 2) (w : PciWrite) (s : State) : Res :=
  if !pwrGood s then .next s else
  let q := getPort s p
  let s := match w with
    | .busMaster on => wr s (F.HIF_PORT_BME p) (if on then 1 else 0)
    | .power d => setPort s p { q with d3hot := d }
    | .msixEnable on => setPort s p { q with msixEnable := on }
    | .msixFunctionMask on => setPort s p { q with msixMask := on }
    | .completionTimeout v => setPort s p { q with timeout := v }
    | .other => s
  .next (msixRelease s p)

/-! ### Link changes and resets (R369, R370, R379) -/

/-- A link within Table 14-1 and `HIF_CFG_p` (R369). -/
def pcieOk (s : State) (p : Nat) (t : PcieTrain) : Bool :=
  t.trained && t.flit && (t.lanes == 8 || (t.lanes == 4 && rd s (F.HIF_CFG_ALLOW_X4 p) == 1)) &&
    (!t.rate32 || rd s (F.HIF_CFG_ALLOW_32GT p) == 1)

/-- The port's registers after a training: UP, or FAILED. -/
def pcieTrained (s : State) (p : Nat) (t : PcieTrain) : State :=
  let ok := pcieOk s p t
  let s := wr s (F.HIF_PORT_STATE p) (if ok then 2 else 3)
  wr (wr s (F.HIF_PORT_WIDTH p) (if ok then t.lanes else 0)) (F.HIF_PORT_RATE p) (if ok ∧ t.rate32 then 1 else 0)

/-- Training of the ports is over (Table 2-5). -/
def portsTrained (s : State) : Bool := pwrGood s && (s.power != .kindling || decide (8 < rd s F.KDL_STATUS_STAGE))

/-- PORT_LINK_UP: the lead passes to the port if the lead port's link is down, and held messages are sent (R379, R380). -/
def execPortLinkUp (p : Fin 2) (t : PcieTrain) (s : State) : Res :=
  if !portsTrained s || portUp s p then .next s else
  let leadDown := !portUp s (leadPort s)
  let s := pcieTrained s p t
  if !portUp s p then .next s
  else
    let s := if leadDown && leadPort s != p.val then changeLead s p else s
    .next (msixRelease s p)

/-- The port's link is down (R377, R379). -/
def portDown (s : State) (p : Nat) : State :=
  loseLead (wr (wr (wr s (F.HIF_PORT_STATE p) 0) (F.HIF_PORT_WIDTH p) 0) (F.HIF_PORT_RATE p) 0) p

/-- PORT_LINK_DOWN (R379): host-window requests fail with `HOST_LINK` from now on (R377). -/
def execPortLinkDown (p : Fin 2) (s : State) : Res :=
  if !pwrGood s || !portUp s p then .next s else .next (portDown s p)

/-- What a reset of a port clears (R370, R377, R380): rings, pending and held interrupts, DRIVER_READY, Bus Master Enable, and what the
PCIe specification resets in its configuration space and MSI-X table. -/
def portReset (s : State) (p : Nat) : State :=
  let s := each (List.range 4) s fun s r => wr s (F.HIF_RING_CTL_ENABLE p r) 0
  let s := wr (wr (wr s (F.HIF_IRQ_PEND p) 0) (F.HIF_PORT_DRIVER_READY p) 0) (F.HIF_PORT_BME p) 0
  setPort s p { PciPort.blank with bar4 := (getPort s p).bar4 }

/-- PORT_RESET (R370, R461): it touches no function, ticket or bank; the lead passes if the other port's link is up (R379). -/
def execPortReset (p : Fin 2) (s : State) : Res :=
  if !pwrGood s then .next s else .next (loseLead (portReset s p) p)

/-! ### Time-outs and lost domains (R22, R377) -/

/-- The unit that makes a command's requests. DEDUCED (log entry 55). -/
def requester (h : Nat) (c : Cmd) : Nat :=
  match c.opcode with
  | 0x08 => U.xfer h
  | 0x20 => U.row h
  | 0x21 => U.row h
  | _ => U.disp h

/-- COMPLETION_TIMEOUT: a host-window read of a running command is not completed in time and fails with `HOST_ACCESS` (R377).
DEDUCED (log entry 55). -/
def execCompletionTimeout (p : Fin 2) (h : Fin 16) (seq : BitVec 32) (s : State) : Res :=
  if !isRun s || !portUp s p || rd s (F.HIF_PORT_BME p) != 1 then .next s else
  match findCmd s h seq.toNat with
  | none => .next s
  | some c =>
    if (c.st == .granted || c.st == .working) && decide (4 ≤ c.opcode) then .next (failRunning (raiseVec s p 4) h c (requester h c) Code.HOST_ACCESS)
    else .next s

/-- A CXL port has lost its link: its function becomes UNAVAILABLE, and its region keeps its size (R324). DEDUCED (log entry 54). -/
def cxlLost (s : State) (n : Nat) : State :=
  let s := wr (wr (wr s (F.CXL_STATE_STATE n) 0) (F.CXL_STATE_WIDTH n) 0) (F.CXL_STATE_RATE n) 0
  setFn (wr (wr s (F.CXL_STATE_CODE n) Code.FAR_LINK) (F.CXL_ERR_LINK_DOWN n) 1) (0x30 + n) fnUNAVAIL

/-- EDGE_DOMAIN_LOSS: the domain completes what is pending with an error of its class and rejects new requests with it until it has
been retrained (R22). -/
def execEdgeDomainLoss (d : EdgeDomain) (s : State) : Res :=
  if !pwrGood s then .next s else
  match d with
  | .link l => .next (if linkUp s l || rd s (lkState l) == lkTRAINING then linkFail s l Code.LINK_DOWN else s)
  | .pcie p => .next (if portUp s p then portDown s p else s)
  | .cxl n => .next (if rd s (F.CXL_STATE_STATE n) = 2 then cxlLost s n else s)
  | .gddr d => .next (if s.lostGddr.contains d.val then s else { s with lostGddr := s.lostGddr ++ [d.val] })
  | .flash =>
    let s := { s with lostFlash := true }
    .next (match s.staged with
      | some st => if drainReady s st then drainFail s U.flash Code.FLASH_LINK else s
      | none => s)

end Sys2Proof.Machine
end

