-- ==== Sys2Proof/Machine/CfgCheck.lean ====
section
/-! DEFINITION. What a restart, and Kindling's stage 0x03, refuse of a function's register values (R45, R477 and the rules of each
chapter's registers: R66, R68, R69, R163, R278, R310, R331, R335, R368, R405, R406, R432). -/

namespace Sys2Proof.Machine

/-- The values under judgement: every register as it will stand; the program sections; the owner that each bank will have; the sizes of the
far-tier regions, where they are known; rank and group size; the record addresses that the parameter directory lists, where they are
known. -/
structure CfgCtx where
  v : Nat → Nat
  secs : List (Nat × Nat)
  owner : Nat → Nat
  far : Option (List Nat)
  rank : Nat
  group : Nat
  records : List Nat

def CfgCtx.f (x : CfgCtx) (f : Fld) : Nat := bits (x.v f.off) f.lo f.width

/-- A range that is empty or lies in the near tier. -/
def cfgNear (a n : Nat) : Bool := n == 0 || decide (a + n ≤ nearEnd)

/-- A range meets a program section (R35). -/
def CfgCtx.meetsSec (x : CfgCtx) (a n : Nat) : Bool := x.secs.any fun r => overlaps a n r.1 r.2

/-- A region of a hearth's banks lies outside them or in banks that the dispatcher does not own (R163, R278). -/
def CfgCtx.bankRegionBad (x : CfgCtx) (h off size : Nat) : Bool :=
  size != 0 && (decide (4096 < off + size) ||
    (List.range 8).any fun b => overlaps (b * 512) 512 off size && x.owner (16 + 8 * h + b) != 0x10 + h)

/-- Hearth function h (R163, R278, R331). -/
def CfgCtx.hearthBad (x : CfgCtx) (h : Nat) : Bool :=
  let init (n : Nat) : Bool := !ownerAllowed n (x.f (F.BNK_INIT_OWNER n))
  let l2 := x.f (F.HRT_STAGE_L2_SIZE_4K h)
  init h || (List.range 8).any (fun b => init (16 + 8 * h + b)) ||
    x.bankRegionBad h (x.f (F.HRT_STAGE_L1_OFFSET_4K h)) (x.f (F.HRT_STAGE_L1_SIZE_4K h)) ||
    (l2 != 0 && (decide (2048 < x.f (F.HRT_STAGE_L2_OFFSET_4K h) + l2) || x.owner (x.f (F.HRT_STAGE_L2_SBANK h)) != 0x10 + h)) ||
    !cfgNear (x.f (F.HRT_STAGE_L3_BASE_64K h) * 65536) (x.f (F.HRT_STAGE_L3_SIZE_64K h) * 65536) ||
    x.bankRegionBad h (x.f (F.SBG_RSPILL_OFFSET_4K h)) (x.f (F.SBG_RSPILL_SIZE_4K h))

/-- A memory die's controllers (R335). -/
def CfgCtx.memBad (x : CfgCtx) (d : Nat) : Bool :=
  (x.f (F.MEM_CFG_SCRUB_EN d) == 1 && x.f (F.MEM_CFG_SCRUB_REF d) == 0) || x.f (F.MEM_CFG_RETRY_MAX d) == 0 || x.f (F.MEM_CFG_ECC_MODE d) == 3

/-- The Saddlebag's near arena and its far arenas by port, as address and length. -/
def CfgCtx.nearArena (x : CfgCtx) : Nat × Nat := (x.f F.SBG_NEAR_BASE_64K * 65536, x.f F.SBG_NEAR_SIZE_64K * 65536)
def CfgCtx.farArena (x : CfgCtx) (n : Nat) : Nat × Nat := (x.f (F.SBG_FAR_BASE_64K n) * 65536, x.f (F.SBG_FAR_SIZE_64K n) * 65536)

/-- A far arena lies outside its port's region; where the region's size is not known, outside the largest that it can have (R278,
R322). -/
def CfgCtx.farArenaBad (x : CfgCtx) (n : Nat) : Bool :=
  let a := x.farArena n
  let base := 0x010000000000 * (n + 1)
  let size := match x.far with | some fs => fs.getD n 0 | none => 0x010000000000
  a.2 != 0 && (decide (a.1 < base) || decide (base + size < a.1 + a.2))

/-- The stash (R278, Table 10-8). DEDUCED (log entry 59). -/
def CfgCtx.sbgBad (x : CfgCtx) : Bool :=
  let a := x.nearArena
  let ids := ((List.range 16).map fun n => x.f (F.SBG_PQ_PROGRAM_ID n)).filter (· != 0)
  x.f F.SBG_CFG_DIR_1K == 0 || !cfgNear a.1 a.2 || x.meetsSec a.1 a.2 || (List.range 4).any x.farArenaBad || !ids.Nodup

/-- Landing credit, digest log and parameter directory (R310, Table 11-12). DEDUCED (log entry 59). -/
def CfgCtx.dirBad (x : CfgCtx) : Bool :=
  let log := (x.f F.STI_DLOG_BASE_64 * 64, x.f F.STI_DLOG_ENTRIES * 32)
  let dir := (x.f F.BUR_PDIR_BASE_64 * 64, x.f F.BUR_PDIR_COUNT * 8)
  decide (x.f F.STI_CFG_CREDIT_KIB < 4) || decide (192 < x.f F.STI_CFG_CREDIT_KIB) || [log, dir].any (fun r => !cfgNear r.1 r.2 || x.meetsSec r.1 r.2) ||
    x.records.any fun a => a % 256 != 0 || decide (nearEnd ≤ a)

/-- The Damper's policy (R66, R68, R69, Tables 3-7 to 3-10). DEDUCED (log entry 59). -/
def CfgCtx.damperBad (x : CfgCtx) : Bool :=
  let vset := (List.range 16).map fun h => x.f (vSetF h)
  let vmin := x.f F.DMP_POLICY_V_MIN
  let rail (f : Fld) (top : Nat) : Bool := x.f f == 0 || decide (top < x.f f)
  decide (2 ≤ x.f F.DMP_POLICY_MODE) || x.f F.DMP_POLICY_STRETCH == 3 || decide (30 < vmin) || vset.any (fun v => decide (30 < v) || decide (v < vmin)) ||
    decide (x.f F.DMP_CEIL_CORE_TOKENS < 512) || decide (4000 < x.f F.DMP_CEIL_CORE_TOKENS) ||
    decide (x.f F.DMP_CEIL_INPUT_W < 1000) || decide (2400 < x.f F.DMP_CEIL_INPUT_W) ||
    rail F.DMP_RAILS_MEM_W 120 || rail F.DMP_RAILS_IO_W 150 || rail F.DMP_RAILS_COD_W 60 || rail F.DMP_RAILS_GDDR_QW 16

/-- Mirror and return region. -/
def CfgCtx.mirrorRegions (x : CfgCtx) : List (Nat × Nat) :=
  [(x.f F.GRT_MIRROR_BASE_64K * 65536, x.f F.GRT_MIRROR_SIZE_64K * 65536), (x.f F.GRT_RETURN_BASE_64K * 65536, x.f F.GRT_RETURN_SIZE_64K * 65536)]

/-- Two ranges overlap. -/
def meet (a b : Nat × Nat) : Bool := overlaps a.1 a.2 b.1 b.2

/-- The Girth function (R406). -/
def CfgCtx.girthBad (x : CfgCtx) : Bool :=
  let m := (x.f F.GRT_MIRROR_BASE_64K * 65536, x.f F.GRT_MIRROR_SIZE_64K * 65536)
  let r := (x.f F.GRT_RETURN_BASE_64K * 65536, x.f F.GRT_RETURN_SIZE_64K * 65536)
  [m, r].any (fun a => !cfgNear a.1 a.2 || x.meetsSec a.1 a.2 || meet a x.nearArena) || meet m r || x.f F.GRT_MIRROR_SIZE_64K % 2 == 1 ||
    (x.f F.GRT_CFG_MIRROR_EN == 1 && (m.2 == 0 || r.2 == 0)) || x.f F.GRT_CFG_REPLAY_MAX == 0

/-- The checkpoint flash function (R432). -/
def CfgCtx.ckptBad (x : CfgCtx) : Bool :=
  let slots := x.f F.MGT_CKPT_CFG_FLASH_SLOTS
  let stage := (x.f F.MGT_CKPT_STAGE_BASE_64K * 65536, x.f F.MGT_CKPT_STAGE_SIZE_64K * 65536)
  let undo := (x.f F.MGT_CKPT_UNDO_BASE_64K * 65536, x.f F.MGT_CKPT_UNDO_SIZE_64K * 65536)
  let g := x.f F.MGT_CKPT_PARITY_G
  let rank (i : Nat) : Nat := x.f F.MGT_CKPT_PARITY_FIRST + i * x.f F.MGT_CKPT_PARITY_STRIDE
  let lg := x.f F.MGT_RLOG_SIZE_LOG2
  let log := (x.f F.MGT_RLOG_BASE, 64 * 2 ^ lg)
  let window (p : Nat) : Bool := decide (0x100000000000 * (p + 1) ≤ log.1) && decide (log.1 + log.2 ≤ 0x100000000000 * (p + 2))
  slots == 0 || decide (64 < slots) ||
    [stage, undo].any (fun a => !cfgNear a.1 a.2 || x.meetsSec a.1 a.2 || meet a x.nearArena || x.mirrorRegions.any (meet a)) ||
    g == 1 || g == 2 || decide (16 < g) ||
    (g != 0 && (!((List.range g).any fun i => rank i == x.rank) || decide (x.group ≤ rank (g - 1)))) ||
    (lg != 0 && !(window 0 || window 1))

/-- A restart of function f with these values is refused with `CFG_INVALID`, as far as register values tell. DEDUCED (log entry 54). -/
def CfgCtx.bad (x : CfgCtx) (f : Nat) : Bool :=
  if f < 0x10 then x.hearthBad f
  else if f = 0x10 then x.f F.COD_CFG_LANES == 0
  else if f = 0x11 then x.memBad 0 || x.sbgBad || x.dirBad
  else if f = 0x12 then x.memBad 1
  else if f = 0x13 then x.damperBad
  else if f = 0x14 then x.ckptBad
  else if 0x20 ≤ f ∧ f ≤ 0x2B then x.f (F.CLK_CFG_ENABLE (f - 0x20)) == 1 && x.f (F.CLK_CFG_REPLAY_MAX (f - 0x20)) == 0
  else if f = 0x2C then x.girthBad
  else false

end Sys2Proof.Machine
end

