-- ==== Sys2Proof/Machine/Control.lean ====
section
/-! DEFINITION. Functions and their configuration (R43 to R46): configuration writes, stops and restarts; cancelling a ticket (R52);
the request for a re-kindle (R53). -/

namespace Sys2Proof.Machine

/-! ### Pending values (R45, R405) -/

/-- The value that a reader of a register sees: a pending value, where the register holds one (R45). -/
def pendOr (s : State) (off : Nat) : BitVec 64 :=
  match s.pend.find? off with
  | some v => v
  | none => regVal s off

/-- The bits of a mask from one value and the others from another. -/
def mergeMask (old : BitVec 64) (mask : Nat) (v : BitVec 64) : BitVec 64 :=
  (old &&& ~~~(BitVec.ofNat 64 mask)) ||| (v &&& BitVec.ofNat 64 mask)

/-- A write of `CLK_ROUTE_m`: pending for the bits of STOPPED links; `CFG_RUNNING` where it would change another bit (R405). The entry
holds the register as a reader sees it. -/
def routeWrite (s : State) (off : Nat) (v : BitVec 64) : State :=
  let open_ := (List.range 12).filter fun l => fnState s (0x20 + l) == fnSTOPPED
  let mask := open_.foldl (fun a l => a + 2 ^ l) 0
  let shut := (List.range 12).filter fun l => fnState s (0x20 + l) != fnSTOPPED && v.getLsbD l != (pendOr s off).getLsbD l
  let s := if open_.isEmpty then s else { s with pend := s.pend.set off (mergeMask (pendOr s off) mask v) }
  match shut with
  | [] => s
  | l :: _ => cfgErr s Code.CFG_RUNNING (0x20 + l) off

/-- A write of a configuration register (R45): pending for a STOPPED function, else ignored with `CFG_RUNNING`. -/
def configWrite (s : State) (off : Nat) (v : BitVec 64) : State :=
  match lookupReg off with
  | none => s
  | some (g, i, _) =>
    if g.func = .route then routeWrite s off v
    else
      match g.funcOf i with
      | none => s
      | some f =>
        if fnState s f = fnSTOPPED then { s with pend := s.pend.set off (mergeMask (pendOr s off) g.rw v) }
        else cfgErr s Code.CFG_RUNNING f off

/-- CONFIG_WRITE (R45): any host and supervisor code may write configuration registers. -/
def execConfigWrite (src : Src) (off : Nat) (v : BitVec 64) (s : State) : Res :=
  if served s src then .next (configWrite s off v) else .next s

/-- A pending value of register `off` takes effect with function f: whole, or for `CLK_ROUTE_m` the bit of the link (R45, R405). -/
def applyOne (f : Nat) (s : State) (p : Nat × BitVec 64) : State :=
  match lookupReg p.1 with
  | none => s
  | some (g, i, _) =>
    if g.func = .route then
      if 0x20 ≤ f ∧ f ≤ 0x2B then
        let s := setReg s p.1 (mergeMask (regVal s p.1) (2 ^ (f - 0x20)) p.2)
        if regVal s p.1 = p.2 then { s with pend := s.pend.erase p.1 } else s
      else s
    else if g.funcOf i = some f then { setReg s p.1 p.2 with pend := s.pend.erase p.1 }
    else s

/-- All pending values of function f take effect (R45). -/
def applyPend (s : State) (f : Nat) : State := s.pend.foldl (applyOne f) s

/-! ### Stopping (R44, R46, R59) -/

/-- A stop request from the lead host (R44, R46). -/
def funcStop (s : State) (src : Src) (f : Nat) : State :=
  if stopActive s || (decide (0x34 ≤ f) && srcId src == idHost (f - 0x34)) then cfgErr s Code.FUNC_STATE f F.DEV_FUNC_CTL_OP.off
  else if fnState s f = fnRUN then setFn s f fnSTOPPING
  else s

/-- FUNC_STOP: `DEV_FUNC_CTL` with OP 1 (R44). -/
def execFuncStop (src : Src) (f : BitVec 8) (s : State) : Res :=
  if !served s src then .next s
  else if !isLead s src then .next (cfgErr s Code.NOT_LEAD f.toNat F.DEV_FUNC_CTL_OP.off)
  else .next (funcStop s src f.toNat)

/-- A link holds no transfer that it has begun: a stream whose OPEN still waits is not begun (R44). -/
def linkDone (s : State) (l : Nat) : Bool :=
  let x := getLink s l
  let waits (src num : Nat) : Bool := x.queue.any fun p => p.type == tOPEN && p.src == src && p.stream == num
  x.replay.isEmpty && x.queue.all (fun p => p.type != tDATA || waits p.src p.stream) &&
    s.txs.all (fun t => t.link != l || !t.opened || t.finished || waits (moduleId s) t.num) &&
    s.rxs.all (fun r => r.link != l || r.last) && (l != 12 || (s.mirrorOut.isNone && s.mirrorIn.isNone))

/-- A function has finished every command and transfer that it had begun (R44). -/
def funcDone (s : State) (f : Nat) : Bool :=
  if f < 0x10 then (getDisp s f).cmds.all fun c => !c.st.started
  else if f = 0x10 then s.codLanes.isEmpty && s.codIngest.isEmpty
  else if f = 0x11 ∨ f = 0x12 then !memWork s
  else if f = 0x14 then match s.staged with | some st => st.op == 2 | none => true
  else if 0x20 ≤ f ∧ f ≤ 0x2C then linkDone s (f - 0x20)
  else true

/-- A pending request of a command that has not started is withdrawn: its command is ready again. -/
def withdraw (s : State) (h : Nat) : State :=
  match (getDisp s h).pending with
  | some (.cmd q _) =>
    let s := match findCmd s h q with
      | some c => each (chainOf s h c) s fun s m => updCmd s h m.seq fun x => { x with st := .ready }
      | none => s
    clearPending s h
  | _ => s

/-- The banks, cores and MEs of a hearth that is STOPPED are powered off (R59, R332). Kept slots stay (R59), and a FAULTED ME stays so.
DEDUCED (log entry 94). -/
def hearthDown (s : State) (h : Nat) : State :=
  let s := withdraw s h
  let s := each (List.range 8) s fun s b =>
    wr (wr s (F.BNK_OWNER_OFF (16 + 8 * h + b)) 1) (F.BNK_OWNER_CLEARING (16 + 8 * h + b)) 0
  let s := each (List.range 8) s fun s c =>
    wr (wr (updCore s (8 * h + c) fun k => { k with woken := true }) (F.AWL_STATE_STATE h c) awlGATED) (F.AWL_RESIDENT_VALID h c) 0
  each (List.range 16) s fun s i =>
    if rd s (F.MXE_STATE_STATE h i) = 6 then s else wr s (F.MXE_STATE_STATE h i) 0

/-- FUNC_STOP_COMPLETE (R44). -/
def execFuncStopComplete (f : BitVec 8) (s : State) : Res :=
  let n := f.toNat
  if !isRun s || stopActive s || fnState s n != fnSTOPPING || !funcDone s n then .next s
  else if n < 0x10 then .next (recharge (hearthDown (setFn s n fnSTOPPED) n) n)
  else .next (setFn s n fnSTOPPED)

/-! ### Restarting (R45) -/

/-- The owner that bank n will have once hearth function f has restarted (R163, R331). -/
def ownerAfter (s : State) (f n : Nat) : Nat :=
  if bankHearth n = f ∧ (16 ≤ n ∨ (s.pend.find? (F.BNK_INIT_OWNER n).off).isSome) then rd (applyPend s f) (F.BNK_INIT_OWNER n)
  else rd s (F.BNK_OWNER_OWNER n)

/-- What a restart of function f judges (R45). -/
def restartCtx (s : State) (f : Nat) : CfgCtx :=
  let t := applyPend s f
  { v := fun off => (regVal t off).toNat, secs := match s.image with | some i => i.roSecs | none => [], owner := ownerAfter s f,
    far := some ((List.range 4).map (farSize s)), rank := moduleId s, group := rd s F.DEV_IDENT_GROUP_SIZE,
    records := if f = 0x11 then pdirRecords t else [] }

/-- The lane tests of a function's lanes end before its training (R403). -/
def lanesOff (s : State) (f : Nat) : State :=
  each ((List.range 104).filter fun n => laneFunc n == f) s fun s n =>
    wr (wr (wr { s with laneChk := s.laneChk.erase n } (F.CLK_LT_CTL_GEN n) 0) (F.CLK_LT_CTL_CHK n) 0) (F.CLK_LT_CTL_LOOP n) 0

/-- Frames and segments that waited for a link go on. -/
def linkGo (s : State) (l : Nat) : State := let s := pumpLink s l; collAll (each s.txs s pumpStream)

/-- What training and enumerating CXL port n gave (R322, R323): the code, 0 for success, and the size in units of 256 MiB. -/
def cxlFound (s : State) (n : Nat) (t : CxlTrain) : Nat × Nat :=
  let cap := min (t.capacity / 0x10000000) 4096
  if !t.trained || !(t.lanes == 8 || (t.lanes == 4 && rd s (F.CXL_CFG_ALLOW_X4 n) == 1)) || (t.rate32 && rd s (F.CXL_CFG_ALLOW_32GT n) == 0)
  then (Code.FAR_LINK, 0)
  else if !t.type3 || cap == 0 then (Code.FAR_DEVICE, 0)
  else (0, cap)

/-- The registers of a CXL port that is up (Tables 12-14 and 12-15). -/
def cxlUp (s : State) (n cap : Nat) (t : CxlTrain) : State :=
  let s := wr (wr (wr (wr s (F.CXL_STATE_STATE n) 2) (F.CXL_STATE_WIDTH n) t.lanes) (F.CXL_STATE_RATE n) (if t.rate32 then 1 else 0)) (F.CXL_STATE_CODE n) 0
  wr (wr (wr s (F.CXL_ID_CAP_256M n) cap) (F.CXL_ID_VENDOR_ID n) t.vendor.toNat) (F.CXL_ID_DEVICE_ID n) t.device.toNat

/-- The registers of a CXL port whose training failed with a code. -/
def cxlFailed (s : State) (n code : Nat) : State :=
  wr (wr (wr (wr s (F.CXL_STATE_STATE n) 3) (F.CXL_STATE_WIDTH n) 0) (F.CXL_STATE_RATE n) 0) (F.CXL_STATE_CODE n) code

/-- A restart of CXL port n (R322 to R324). DEDUCED (log entry 54). -/
def restartCxl (s : State) (n : Nat) (t : CxlTrain) : State :=
  let f := 0x30 + n
  let a := lanesOff (applyPend s f) f
  if rd a (F.CXL_CFG_ENABLE n) = 0 then
    if farSize s n ≠ 0 then cfgErr s Code.CFG_INVALID f 0
    else setFn (wr (wr a (F.CXL_STATE_STATE n) 0) (F.CXL_STATE_CODE n) 0) f fnRUN
  else
    match cxlFound a n t with
    | (0, cap) => if cap < rd s (F.CXL_ID_CAP_256M n) then cfgErr s Code.CFG_INVALID f 0 else setFn (cxlUp a n cap t) f fnRUN
    | (code, _) => setFn (cxlFailed a n code) f fnUNAVAIL

/-- A restart of a PCIe port (R369). DEDUCED (log entry 58). -/
def restartPcie (s : State) (p : Nat) (t : PcieTrain) : State :=
  let f := 0x34 + p
  let s := pcieTrained (lanesOff (applyPend s f) f) p t
  if portUp s p then msixRelease (setFn s f fnRUN) p else loseLead (setFn s f fnUNAVAIL) p

/-- A restart of a link (R393, R399). DEDUCED (log entry 61). -/
def restartLink (s : State) (l : Nat) (t : LinkTrain) : State :=
  let f := 0x20 + l
  let old := (regVal s F.GRT_MIRROR_BASE_64K.off, regVal s F.GRT_RETURN_BASE_64K.off)
  let s := lanesOff (applyPend s f) f
  let s := if l = 12 ∧ (regVal s F.GRT_MIRROR_BASE_64K.off, regVal s F.GRT_RETURN_BASE_64K.off) ≠ old then clearHalves s else s
  linkGo (setFn (bringUp s l t).1 f fnRUN) l

/-- The units of a hearth that starts to run stand awake and idle: its cores, and its power-gated MEs (R57, R59). DEDUCED (log entry 29). -/
def wakeUnits (s : State) (h : Nat) : State :=
  let s := each (List.range 8) s fun s c => wr s (F.AWL_STATE_STATE h c) awlIDLE
  each (List.range 16) s fun s i => if rd s (F.MXE_STATE_STATE h i) = 0 then wr s (F.MXE_STATE_STATE h i) 2 else s

/-- A restart of a hearth: owners from `BNK_INIT`, banks wake, cores and MEs stand idle (R59, R331, R332). DEDUCED (log entry 29). -/
def restartHearth (s : State) (h : Nat) : State :=
  let shared := (s.pend.find? (F.BNK_INIT_OWNER h).off).isSome
  let s := applyPend s h
  let s := if shared then setOwner s h (rd s (F.BNK_INIT_OWNER h)) else s
  let s := setFn s h fnRUN
  let s := each (List.range 8) s fun s b =>
    let n := 16 + 8 * h + b
    let s := wr s (F.BNK_OWNER_OWNER n) (rd s (F.BNK_INIT_OWNER n))
    if rd s (F.BNK_OWNER_OWNER n) = 0 then s else wakeBank s n
  schedule (recharge (wakeUnits s h) h) h

/-- A valid restart of function f with what its training found; a training that does not fit the function changes nothing. It retrains no
lost GDDR7 or checkpoint-flash domain: DESIGN CHOICE (log entry 111). -/
def restartFunc (s : State) (f : Nat) (t : Training) : State :=
  if f < 0x10 then restartHearth s f
  else if f = 0x11 then rlogQuotas (setFn (applyPend s f) f fnRUN)
  else if f = 0x13 then beginPolicy (setFn (applyPend s f) f fnRUN)
  else
    match t with
    | .link t => if 0x20 ≤ f ∧ f ≤ 0x2C then restartLink s (f - 0x20) t else s
    | .cxl t => if 0x30 ≤ f ∧ f ≤ 0x33 then restartCxl s (f - 0x30) t else s
    | .pcie t => if 0x34 ≤ f ∧ f ≤ 0x35 then restartPcie s (f - 0x34) t else s
    | .none => if f < 0x20 then setFn (applyPend s f) f fnRUN else s

/-- The states from which a restart is taken: STOPPED, and for a CXL port that has lost its link UNAVAILABLE (R45, R324). -/
def restartable (s : State) (f : Nat) : Bool :=
  isRun s && !stopActive s && (fnState s f == fnSTOPPED || (decide (0x30 ≤ f) && decide (f ≤ 0x33) && fnState s f == fnUNAVAIL))

/-- A restart request from the lead host (R45). -/
def funcRestart (s : State) (f : Nat) (t : Training) : State :=
  if !restartable s f then cfgErr s Code.FUNC_STATE f F.DEV_FUNC_CTL_OP.off
  else if (restartCtx s f).bad f then cfgErr s Code.CFG_INVALID f 0
  else flushHeld (restartFunc s f t)

/-- FUNC_RESTART: `DEV_FUNC_CTL` with OP 2 (R45). -/
def execFuncRestart (src : Src) (f : BitVec 8) (t : Training) (s : State) : Res :=
  if !served s src then .next s
  else if !isLead s src then .next (cfgErr s Code.NOT_LEAD f.toNat F.DEV_FUNC_CTL_OP.off)
  else .next (funcRestart s f.toNat t)

/-! ### Cancelling (R52) -/

/-- A running KIND 2 program of the ticket stops at its next instruction boundary (R195). -/
def stopKind2 (s : State) (key : Nat) : State :=
  if rd s (coreActiveF 131) = 1 ∧ (getCore s 131).ticket = key then wr (coreStop s 131 awlIDLE) (coreActiveF 131) 0 else s

/-- A cancelled ticket gives up what has not started, its waiting cores end, and it ends once nothing of it runs. -/
def finishCancel (s : State) (key : Nat) : State :=
  let s := each (List.range 16) (stopKind2 s key) fun s h => dropUnstarted s key h
  tryEnd (endWaitingCores s key) key

/-- A write of `DEV_CANCEL` by the lead host; during a stop the cancel is taken at the resume (R52, R442). -/
def cancelTicket (s : State) (num : Nat) : State :=
  match s.tickets.find? (·.num == num) with
  | none => wr s F.DEV_CANCEL_RESULT 2
  | some t =>
    let s := updTicket (wr s F.DEV_CANCEL_RESULT 1) t.key fun t =>
      if t.cancelling then t else { t with cancelling := true, status := Code.CANCELLED, faultSeq := 0, faultHearth := 0xFF }
    if stopActive s then s else finishCancel s t.key

/-- CANCEL_TICKET (R52). -/
def execCancelTicket (src : Src) (t : BitVec 48) (s : State) : Res :=
  if !served s src then .next s
  else if !isLead s src then .next (cfgErr s Code.NOT_LEAD 0 F.DEV_CANCEL_TICKET.off)
  else .next (cancelTicket s t.toNat)

/-! ### The request for a re-kindle (R53, R38) -/

/-- The slot that a re-kindle requested now must load, if `SLOT_OVR` is set (R38). -/
def slotNow (s : State) : Option Nat := if rd s F.DEV_CTL_SLOT_OVR = 1 then some (rd s F.DEV_CTL_SLOT) else none

/-- A re-kindle is requested: from RUN it waits for a global stop; during a stop and in a failed Kindling it starts at once (R37, R53,
R442). DEDUCED (log entry 51). -/
def requestRekindle (s : State) : State :=
  let t := { s with slotOvr := slotNow s }
  match s.power with
  | .run => if stopActive s then { t with rekindle := 2 } else ownStop { t with rekindle := 1 } 2
  | .stopped => { t with rekindle := 2 }
  | .kindling => if rd s F.KDL_STATUS_FAILED = 1 then { t with rekindle := 2 } else s
  | _ => s

/-- A write of `DEV_CTL` by the lead host. DEDUCED (log entry 51). -/
def devCtlWrite (s : State) (v : Nat) : State :=
  let s := wr (wr s F.DEV_CTL_SLOT_OVR (bits v 16 1)) F.DEV_CTL_SLOT (bits v 17 1)
  if bits v 0 16 = 0x4B49 then requestRekindle s else s

/-- REKINDLE (R53). -/
def execRekindle (src : Src) (v : BitVec 64) (s : State) : Res :=
  if !served s src then .next s
  else if !isLead s src then .next (cfgErr s Code.NOT_LEAD 0 F.DEV_CTL_SLOT.off)
  else .next (devCtlWrite s v.toNat)

end Sys2Proof.Machine
end

