-- ==== Sys2Proof/Machine/Grants.lean ====
section
/-! DEFINITION. The Damper's steps: grants, reservations, releases, voltage steps and sensor readings (R56 to R79). -/

namespace Sys2Proof.Machine

/-- The Damper takes steps that are not grants: the device runs, or is stopping or STOPPED (R442). -/
def damperOn (s : State) : Bool := s.power == .run || s.power == .stopped

/-! ### Grants (R71 to R76) -/

/-- A reservation is due: a pending request was passed over STARVE_LIMIT times (R72). -/
def reserveDue (s : State) (h : Nat) : Bool :=
  let n := rd s F.DMP_POLICY_STARVE_LIMIT
  n != 0 && (getDisp s h).pending.isSome && decide (n ≤ s.damper.passed.get 0 h)

/-- RESERVATION: a request passed over STARVE_LIMIT times is reserved (R72). -/
def execReservation (h : Fin 16) (s : State) : Res :=
  if unitLive s U.damper && reserveDue s h then .next (wr s (F.DMP_GRANT_RESERVED h) 1) else .next s

/-- A pending request that may be granted: that of a command waits while its hearth stops (R46), and while another command holds a unit or
the staging that it needs (R148, R155). DEDUCED (log entry 42). -/
def considered (s : State) (h : Nat) : Bool :=
  match (getDisp s h).pending with
  | none => false
  | some (.cmd q _) =>
    match findCmd s h q with
    | some c => (chainOf s h c).all fun m => hearthTakes s h m && unitsFree s h m && staged m
    | none => false
  | some _ => true

/-- What the grant of a hearth's pending request charges. -/
def pendingCost (s : State) (h : Nat) : Nat := match (getDisp s h).pending with | some r => r.cost s h | none => 0

/-- A request is refused: TOKEN_WAIT once, a refusal for lack of tokens counted, and the dispatcher starts what fits (R69, R73, R76).
DEDUCED (log entry 42). -/
def refuse (s : State) (h : Nat) : State :=
  match (getDisp s h).pending with
  | none => s
  | some r =>
    let lack := if incFits s h (r.cost s h) then 0 else 1
    let s := tokenWait { s with damper := { s.damper with refused := s.damper.refused + lack } } h r
    match r with
    | .cmd _ _ => if unitLive s (U.disp h) then fillShortfall s h else s
    | _ => s

/-- The Damper may grant a hearth's pending request: it fits, and no other stands reserved (R71, R72). -/
def grantable (s : State) (h : Nat) : Bool :=
  (match reservedAny s with | some r => r == h | none => true) && incFits s h (pendingCost s h)

/-- GRANT_REQUEST: dispatchers without a request offer theirs, and the first pending request in round-robin order that fits is granted; those
before it are refused. While a request is reserved no other is granted; releases go first (R71, R72). DEDUCED (log entry 42). -/
def execGrantRequest (s : State) : Res :=
  if !unitLive s U.damper || (List.range 16).any (fun h => (getDisp s h).releases != 0) then .next s else
  let s := each (List.range 16) s schedule
  let s := each ((List.range 16).filter (reserveDue s)) s fun s h => wr s (F.DMP_GRANT_RESERVED h) 1
  let order := (robin s).filter (considered s)
  let fits := grantable s
  match order with
  | [] => .next s
  | _ =>
    match order.find? fits, order.takeWhile fun h => !fits h with
    | some g, before =>
      let s := match (getDisp s g).pending with
        | some r => grant (clearPending s g) g r
        | none => s
      let s := each before s refuse
      .next (decided (if unitLive s (U.disp g) then schedule s g else s))
    | none, all => .next (decided (each all s refuse))

/-- TOKEN_RELEASE: what completed commands and cores gave back returns to the pool, and the dispatcher schedules (R57, R71, R159). -/
def execTokenRelease (h : Fin 16) (s : State) : Res :=
  if !unitLive s U.damper then .next s else
  let d := getDisp s h
  if d.releases = 0 then .next s else
  .next (schedule (recharge (setDisp s h { d with incs := d.incs - d.releases, releases := 0, meBack := 0 }) h) h)

/-! ### Voltage (R69, R70) -/

/-- SHED_STEP: after SHED_COUNT refusals every hearth that holds ME increments and stands above V_MIN is lowered one step (R69). -/
def execShedStep (s : State) : Res :=
  let n := rd s F.DMP_POLICY_SHED_COUNT
  if !unitLive s U.damper || rd s F.DMP_POLICY_MODE != 1 || n == 0 || decide (s.damper.refused < n) then .next s else
  let s := { s with damper := { s.damper with refused := 0 } }
  let hs := (List.range 16).filter fun h => holdsMe s h && decide (rd s F.DMP_POLICY_V_MIN < rd s (vNowF h)) && !stepping s h
  if hs.isEmpty then .next s else
  .next (wr (each hs s fun s h => lowerStep s h (rd s F.DMP_POLICY_V_MIN)) F.DMP_EVENT_SHED 1)

/-- REGULATOR_IN_WINDOW: the step in progress is done, the holding is that of the new voltage, and the next step towards the set voltage may
begin (R69, R70). DEDUCED (log entry 32). -/
def execRegulatorInWindow (h : Fin 16) (s : State) : Res :=
  if !damperOn s then .next s else
  match s.damper.steps.find? h.val with
  | none => .next s
  | some v =>
    let s := wr { s with damper := { s.damper with steps := s.damper.steps.erase h.val } } (vNowF h) v
    .next (seekStep (recharge s h) h)

/-- OVERDRAW_RECOVER_STEP: after 16 readings within its holding, a hearth that the overdraw guard lowered is raised one step (R65).
DEDUCED (log entry 45). -/
def execOverdrawRecoverStep (h : Fin 16) (s : State) : Res :=
  if !damperOn s || decide (s.damper.okRun.get 0 h.val < 16) then .next s else
  let d := s.damper
  if d.overLow.get 0 h.val = 0 then .next { s with damper := { d with okRun := d.okRun.set h.val 0 } }
  else if stepping s h then .next s
  else
    .next (raiseStep { s with damper := { d with okRun := d.okRun.set h.val 0, overLow := d.overLow.set h.val (d.overLow.get 0 h.val - 1) } } h)

/-! ### Sensor readings (R62 to R68, R471) -/

/-- The readings by sensor number: 0 to 15 hearth temperatures, 16 and 17 memory dies, 18 I/O die, 19 codec die, 20 to 35 hearth currents, 36
and 37 memory-die powers, 38 I/O die, 39 codec die, 40 module input, 41 to 64 GDDR7 devices. -/
def Sensors.all (r : Sensors) : List (Option Nat) :=
  let pad (xs : List (Option Nat)) (n : Nat) : List (Option Nat) := (List.range n).map fun i => xs.getD i none
  pad r.hearthT 16 ++ pad r.memT 2 ++ [r.ioT, r.codT] ++ pad r.hearthI 16 ++ pad r.memW 2 ++ [r.ioW, r.codW, r.inputW] ++ pad r.gddr 24

/-- Sensors that fail, and those that stand failed (R64). DEDUCED (log entry 45). -/
def failSensors (s : State) (xs : List (Option Nat)) : State :=
  let now := (List.range xs.length).filter fun i => (xs.getD i none).isNone
  let s := each (now.filter fun i => !s.damper.failed.contains i) s fun s _ => emberCode s U.damper Code.SENSOR_FAIL none
  let s := { s with damper := { s.damper with failed := now } }
  if now.isEmpty then s else wr s F.DMP_EVENT_SENSOR_FAIL 1

/-- Temperatures: the registers, the hot readings in succession (R471), the thermal ceilings of the core pool and of the rail pools; a failed
sensor reads 105 °C (R62, R64, R66). DEDUCED (log entry 47). -/
def takeTemps (s : State) (xs : List (Option Nat)) : State :=
  let t (i : Nat) : Option Nat := xs.getD i none
  let s := each (List.range 16) s fun s h => match t h with
    | some v => wr s (F.DMP_TEMP_TJ (h / 4) (h % 4)) (min v 65535)
    | none => s
  let tq := (List.range 16).foldl (fun a h => max a ((t h).getD 420)) 0
  let hot := (List.range 20).foldl (fun (m : Smap Nat) i =>
    m.set i (if 448 ≤ (t i).getD 0 then m.get 0 i + 1 else 0)) s.damper.hot
  let pools := [(0, 16), (1, 17), (2, 19)].foldl (fun (m : Smap Nat) p =>
    m.set p.1 (thermCeil (2 * rd s (if p.1 = 2 then F.DMP_RAILS_COD_W else F.DMP_RAILS_MEM_W)) ((t p.2).getD 420))) s.damper.railCeil
  wr { s with damper := { s.damper with hot := hot, railCeil := pools } } F.DMP_POOL_THERM_CEIL (thermCeil (rd s F.DMP_CEIL_CORE_TOKENS) tq)

/-- A hearth's measured current against its holding (R65): each reading above 9/8 of it that follows such a reading lowers the hearth.
DEDUCED (log entry 45). -/
def overdraw (s : State) (h : Nat) (ma : Nat) : State :=
  let d := s.damper
  let held := rd s (F.DMP_GRANT_HELD h)
  if 1125 * held < 2 * ma then
    let s := { s with damper := { d with okRun := d.okRun.set h 0, past := d.past.set h true } }
    if !d.past.get false h then s
    else
      let s := emberCode (wr s F.DMP_EVENT_OVERDRAW 1) U.damper Code.OVERDRAW none
      if rd s (vNowF h) = 0 ∨ stepping s h then s
      else lowerStep { s with damper := { s.damper with overLow := s.damper.overLow.set h (s.damper.overLow.get 0 h + 1) } } h 0
  else
    let ok := if ma ≤ 500 * held then d.okRun.get 0 h + 1 else 0
    { s with damper := { d with past := d.past.set h false, okRun := d.okRun.set h ok } }

/-- The module input against INPUT_W (R66). -/
def takeInput (s : State) (x : Option Nat) : State :=
  let w := rd s F.DMP_CEIL_INPUT_W
  let s := match x with | some v => wr s F.DMP_RAIL_PWR_INPUT_W (min v 4095) | none => s
  let derate := rd s F.DMP_POOL_INPUT_DERATE
  let past := match x with | some v => decide (w < v) | none => true
  if past then
    let s := wr s F.DMP_POOL_INPUT_DERATE (max derate (min (derate + 32) (rd s F.DMP_CEIL_CORE_TOKENS - 512)))
    emberCode (wr s F.DMP_EVENT_INPUT_LIMIT 1) U.damper Code.INPUT_LIMIT none
  else if 100 * x.getD 0 ≤ 97 * w then wr s F.DMP_POOL_INPUT_DERATE (derate - 8) else s

/-- A rail's reading: its register, and its event with an Ember notice where it is at or above its ceiling (R64, R68). -/
def takeRail (s : State) (x : Option Nat) (reg ceil event : Fld) (atCeil : Bool) : State :=
  let c := rd s ceil
  let s := match x with | some v => wr s reg (min v (2 ^ reg.width - 1)) | none => s
  let past := match x with | some v => if atCeil then decide (c ≤ v) else decide (c < v) | none => true
  if past then emberCode (wr s event 1) U.damper Code.RAIL_LIMIT none else s

/-- GDDR7 devices above their ceiling: their controllers space their commands (R68). -/
def takeGddr (s : State) (xs : List (Option Nat)) : State :=
  let c := rd s F.DMP_RAILS_GDDR_QW
  let past := (List.range 24).filter fun i => match xs.getD (41 + i) none with | some v => decide (c < v) | none => true
  let s := { s with damper := { s.damper with gddrOver := past } }
  each past s fun s _ => emberCode (wr s F.DMP_EVENT_RAIL_GDDR 1) U.damper Code.RAIL_LIMIT none

/-- SENSOR_READING: one round of readings (R62 to R68). DEDUCED (log entry 32). DEDUCED (log entry 47). -/
def execSensorReading (r : Sensors) (s : State) : Res :=
  if !damperOn s then .next s else
  let xs := Sensors.all r
  let s := takeTemps (failSensors s xs) xs
  let s := each (List.range 16) s fun s h => overdraw s h ((xs.getD (20 + h) none).getD 200000)
  let s := takeInput s (xs.getD 40 none)
  let s := takeRail s (xs.getD 36 none) F.DMP_RAIL_PWR_MEMA_W F.DMP_RAILS_MEM_W F.DMP_EVENT_RAIL_MEM true
  let s := takeRail s (xs.getD 37 none) F.DMP_RAIL_PWR_MEMB_W F.DMP_RAILS_MEM_W F.DMP_EVENT_RAIL_MEM true
  let s := takeRail s (xs.getD 38 none) F.DMP_RAIL_PWR_IO_W F.DMP_RAILS_IO_W F.DMP_EVENT_RAIL_IO false
  let s := takeRail s (xs.getD 39 none) F.DMP_RAIL_PWR_COD_W F.DMP_RAILS_COD_W F.DMP_EVENT_RAIL_COD true
  let s := computeCeil (takeGddr s xs)
  if overCeil s then
    .next (each (List.range 16) (limitEvent s true) fun s h =>
      if rd s (vSetF h) < rd s (vNowF h) then lowerStep s h (rd s (vSetF h)) else if holdsMe s h then lowerStep s h 0 else s)
  else .next (each (List.range 16) s seekStep)

end Sys2Proof.Machine
end

