-- ==== Sys2Proof/Machine/Observe.lean ====
section
/-! DEFINITION. Observing the device (R435, R439, R444, R445): freezing the Ember rings, resuming from a global stop, debug reads, pace
rings. -/

namespace Sys2Proof.Machine

/-- A write of `EMB_CTL.FREEZE` (R439). -/
def emberCtl (s : State) (v : Nat) : State :=
  if v % 2 = 1 then wr s F.EMB_CTL_FREEZE 1 else if rd s F.EMB_CTL_FREEZE = 1 then emberUnfreeze s else s

/-- EMBER_FREEZE (R439): either host may write `EMB_CTL`. -/
def execEmberFreeze (src : Src) (s : State) : Res := if served s src then .next (emberCtl s 1) else .next s
/-- EMBER_UNFREEZE (R439). -/
def execEmberUnfreeze (src : Src) (s : State) : Res := if served s src then .next (emberCtl s 0) else .next s

/-- PACE_RING_STEP (R435): in every state in which the rail is powered. -/
def execPaceRingStep (h : Fin 16) (s : State) : Res := if pwrGood s then .next (cntHearth s h 0 1) else .next s

/-! ### Resuming (R442, R444) -/

/-- A link processes the frames that it held, sends a STOP_MARK with RESUME set if it sent or echoed one, and goes on.
DESIGN CHOICE (log entry 49). -/
def resumeLink (s : State) (l : Nat) : State :=
  let x := getLink s l
  let s := each x.held (setLink s l { x with held := [], peerMark := false }) fun s f => processFrame s l (Pkt.parse f.1 f.2)
  let x := getLink s l
  let s := if x.marked && linkUp s l then
      sendMark (setLink s l { x with marked := false }) l (rd s F.MGT_STOP_STATE_ORIGIN) 2 (rd s F.MGT_STOP_STATE_STOP_ID)
    else setLink s l { x with marked := false }
  linkGo s l

/-- The device resumes: held items first, then everything goes on; cancels taken during the stop act (R442, R444). -/
def resume (s : State) : State :=
  let s := wr (wr { s with stops := [] } F.MGT_STOP_STATE_STATE 0) F.DEV_STATE_POWER 3
  let s := each (List.range 13) (emberUnfreeze s) resumeLink
  let s := flushHeld (flushBar4 (flushBar4 s 0) 1)
  let s := each (s.tickets.filter (·.cancelling)) s fun s t => finishCancel s t.key
  each (List.range 16) s schedule

/-- RESUME: `MGT_STOP_CTL.OP` 2 (R444, R453). -/
def execResume (src : Src) (s : State) : Res :=
  if !served s src then .next s
  else if !isLead s src then .next (cfgErr s Code.NOT_LEAD 0x14 F.MGT_STOP_CTL_OP.off)
  else if s.power ≠ .stopped then .next (cfgErr s Code.FUNC_STATE 0x14 F.MGT_STOP_CTL_OP.off)
  else .next (resume s)

/-! ### Debug reads (R445) -/

/-- The Awl core that a unit number names. -/
def unitCore (u : Nat) : Option Nat :=
  if u < 0x200 ∧ 8 ≤ u % 32 ∧ u % 32 < 16 then some (8 * (u / 32) + (u % 32 - 8))
  else if 0x2A8 ≤ u ∧ u < 0x2AC then some (128 + (u - 0x2A8)) else none

/-- A core's word in spaces 0 to 3. -/
def coreWord (c : AwlCore) (space i : Nat) : Option (BitVec 64) :=
  match space with
  | 0 => if i < 32 then some (c.sreg (Fin.ofNat 32 i)) else none
  | 1 => if i < 256 then some (BitVec.ofNat 64 (bits (c.vreg (i / 8)).toNat (64 * (i % 8)) 64)) else none
  | 2 => if i < 8 then some (c.cr i) else none
  | 3 => if i < 16384 then some (BitVec.ofNat 64 (leNat (c.lsBytes (8 * i) 8))) else none
  | _ => none

/-- The word that `MGT_DBG_SEL` selects; none where R445 refuses it. A slot that is not KEPT, and a place of the statistics memory, which
the spec does not assign to rows, give free values. DESIGN CHOICE (log entry 93). -/
def debugWord (s : State) (u space i : Nat) : State × Option (BitVec 64) :=
  let open_ (s : State) : State × Option (BitVec 64) := let (x, s) := takeFree s; (s, some (BitVec.ofNat 64 x))
  match unitCore u with
  | some k => (s, coreWord (getCore s k) space i)
  | none =>
    if u < 0x200 ∧ 16 ≤ u % 32 ∧ space = 4 ∧ i < 65536 then
      match keptAt s (16 * (u / 32) + (u % 32 - 16)) (i / 8192) with
      | some x => let w := i % 8192; (s, some (BitVec.ofNat 64 (x.vals.get 0 (2 * w) + 2 ^ 32 * x.vals.get 0 (2 * w + 1))))
      | none => open_ s
    else if u < 0x200 ∧ u % 32 = 2 ∧ space = 5 ∧ i < statMemSize then open_ s
    else (s, none)

/-- A read of `MGT_DBG_DATA`: the word, or zero with ERR (R445). -/
def debugRead (s : State) : State × BitVec 64 :=
  let r := if s.power = .stopped then debugWord s (rd s F.MGT_DBG_SEL_UNIT) (rd s F.MGT_DBG_SEL_SPACE) (rd s F.MGT_DBG_SEL_INDEX) else (s, none)
  match r with
  | (s, some v) => (wr s F.MGT_DBG_SEL_ERR 0, v)
  | (s, none) => (wr s F.MGT_DBG_SEL_ERR 1, 0)

/-- DEBUG_READ (R445). -/
def execDebugRead (src : Src) (s : State) : Res :=
  if !served s src then .next s else
  let r := debugRead s
  .next (emit r.1 (.readReply r.2))

end Sys2Proof.Machine
end

