-- ==== Sys2Proof/Machine/Registers.lean ====
section
/-! DEFINITION. The register file as hosts and supervisor code reach it (R9, R10, R371, R372, R438): reads, writes by the access codes of
the fields and by the rules of the registers that act, and the Awl instructions SREGR and SREGW (R192). -/

namespace Sys2Proof.Machine

/-! ### Reads -/

/-- A 64-bit word of an Ember ring (Table 17-4): unit, entry, half. -/
def emberWord (s : State) (u i half : Nat) : Nat :=
  match emberAt s u i with
  | none => 0
  | some e =>
    if half = 0 then e.useq + 2 ^ 32 * e.cmd
    else e.value + 2 ^ 16 * (e.type + (if e.cmdValid then 8 else 0) + 16 * e.hearth) + 2 ^ 24 * e.check + 2 ^ 32 * e.arg

/-- A word of a port's MSI-X table, or of its PBA: the vectors whose message is held (R380, R383). -/
def msixWord (s : State) (p x : Nat) : Nat :=
  if x < 128 then leNat ((List.range 8).map fun i => (getPort s p).table.get 0 (x + i))
  else if x = 0x800 then (List.range 8).foldl (fun a v => a + if (getPort s p).held.contains v then 2 ^ v else 0) 0
  else 0

/-- The unit whose STATE field a register shows in its three lowest bits, and the STATE that says it is stopped (Tables 7-17, 9-11,
9-16, 13-19). -/
def stopCode (g : RegGroup) (i j : Nat) : Option (Nat × Nat) :=
  match g.name with
  | "AWL_STATE" => some (U.awl i j, 7)
  | "SAWL_STATE" => some (U.sup i, 7)
  | "ATS_STATE" => some (U.ats i, 7)
  | "ROW_STATE" => some (U.row i, 5)
  | "COD_LANE" => some (U.lane i, 5)
  | _ => none

/-- The home sequencer of hearth h is at work on a commit or a swap of a cache homed there (Table 9-11). -/
def homeBusy (s : State) (h : Nat) : Bool :=
  let home (cache : Nat) : Bool := bits (peekNat s (cache + 2) 1) 0 4 == h
  s.walks.any (fun w => home w.cache && (!w.victims.isEmpty || w.swapIn.isSome)) || s.commits.any fun x => home x.cache

/-- A unit that a global stop holds, and a lane of a stopped codec, shows STOPPED in place of its own state; an attention sequencer that
is at work as a home sequencer shows HOME_OP. DEDUCED (log entry 108). -/
def stateView (s : State) (g : RegGroup) (i j : Nat) (v : BitVec 64) : BitVec 64 :=
  match stopCode g i j with
  | none => v
  | some (u, n) =>
    if unitHalted s u || (g.name == "COD_LANE" && fnState s 0x10 == fnSTOPPED) then v &&& ~~~7 ||| BitVec.ofNat 64 n
    else if g.name == "ATS_STATE" && homeBusy s i then v &&& ~~~7 ||| 5
    else v

/-- What a read of BAR0 offset `off` returns and changes: WO fields read zero, RC fields are cleared, a configuration register of a
STOPPED function shows its pending value, an offset that no block defines reads zero (R10, R45, R371, R438, R445).
DESIGN CHOICE (log entry 97). -/
def regRead (s : State) (off : Nat) : State × BitVec 64 :=
  if off = F.MGT_DBG_DATA_DATA.off then debugRead s
  else if 0x1000000 ≤ off ∧ off < 0x1F00000 then
    let x := off - 0x1000000
    (s, BitVec.ofNat 64 (emberWord s (x / 4096) (x % 4096 / 16) (x % 16 / 8)))
  else
    match lookupReg off with
    | none => if 0x1D1000 ≤ off ∧ off < 0x1D3000 then (s, BitVec.ofNat 64 (msixWord s ((off - 0x1D1000) / 4096) ((off - 0x1D1000) % 4096))) else (s, 0)
    | some (g, i, j) =>
      let v := stateView s g i j (pendOr s off &&& ~~~(BitVec.ofNat 64 g.wo))
      (if g.rc = 0 then s else setReg s off (regVal s off &&& ~~~(BitVec.ofNat 64 g.rc)), v)

/-- READ_CLEAR: a read of a register with RC fields (R10). -/
def execReadClear (src : Src) (off : Nat) (s : State) : Res :=
  match lookupReg off with
  | none => .next s
  | some (g, _, _) =>
    if !served s src || g.rc == 0 then .next s
    else
      let r := regRead s off
      .next (emit r.1 (.readReply r.2))

/-! ### Writes -/

/-- The fields of a register that act of themselves: RW fields take the value, W1C bits are cleared by ones (R10). -/
def plainWrite (s : State) (g : RegGroup) (off : Nat) (v : BitVec 64) : State :=
  setReg s off (mergeMask (regVal s off) g.rw v &&& ~~~(v &&& BitVec.ofNat 64 g.w1c))

/-- The state that a row leaves. -/
def after (s : State) : Res → State
  | .next t => t
  | _ => s

/-- A write of `DEV_FUNC_CTL` (Table 2-16). What the training of a restarted port or link finds is known to FUNC_RESTART alone.
DEDUCED (log entry 52). -/
def funcCtlWrite (s : State) (src : Src) (v : Nat) : State :=
  let f := bits v 0 8
  if !isLead s src then cfgErr s Code.NOT_LEAD f F.DEV_FUNC_CTL_OP.off
  else if stopActive s then cfgErr s Code.FUNC_STATE f F.DEV_FUNC_CTL_OP.off
  else
    match bits v 8 2 with
    | 0 => s
    | 1 => funcStop s src f
    | 2 => funcRestart s f .none
    | _ => cfgErr s Code.FUNC_STATE f F.DEV_FUNC_CTL_OP.off

/-- A write of `MGT_RESTORE` (R427): OP 2 and 3; OP 1 and 4, whose reads of flash have outcomes from outside, are rows of their own.
DEDUCED (log entry 52). -/
def restoreWrite (s : State) (src : Src) (v : BitVec 64) : State :=
  let op := bits v.toNat 0 3
  if op = 2 then after s (execRollback src v s)
  else if op = 3 then after s (execFill src v s)
  else if isLead s src && !stopActive s then s
  else after s (restoreRow src s id)

/-- A Colkin or Girth link whose lanes are tested is in the state TEST, and DOWN afterwards (Table 15-10). -/
def syncTest (s : State) (l : Nat) : State :=
  let on := ((List.range 104).filter fun n => laneFunc n == lkFunc l).any fun n =>
    rd s (F.CLK_LT_CTL_GEN n) != 0 || rd s (F.CLK_LT_CTL_CHK n) != 0 || rd s (F.CLK_LT_CTL_LOOP n) != 0
  if on then wr (wr s (lkState l) 5) (lkWidth l) 0 else if rd s (lkState l) = 5 then wr s (lkState l) 0 else s

/-- A write of a lane-test register of lane n (R402, R403): a new checker pattern unlocks the checker. -/
def laneTestWrite (s : State) (src : Src) (g : RegGroup) (n off : Nat) (v : BitVec 64) : State :=
  if !laneTestable s n then cfgErr s Code.FUNC_STATE (laneFunc n) off
  else if g.base ≠ 0x1EA000 then plainWrite s g off v
  else
    let chk := rd s (F.CLK_LT_CTL_CHK n)
    let s := plainWrite s g off v
    let s := if rd s (F.CLK_LT_CTL_CHK n) = chk then s
             else wr { s with laneChk := s.laneChk.erase n } (F.CLK_LT_CTL_LOCK n) 0
    let s := if v.getLsbD 8 then after s (execLaneTestClear src (Fin.ofNat 104 n) s) else s
    if 0x20 ≤ laneFunc n ∧ laneFunc n ≤ 0x2C then syncTest s (laneFunc n - 0x20) else s

/-- Lead-governed registers (R379) and the others whose write is an action of its own. -/
def actWrite (s : State) (src : Src) (g : RegGroup) (i j off : Nat) (v : BitVec 64) : State :=
  let n := v.toNat
  let lead (f : Nat) (s : State) (k : State → State) : State := if isLead s src then k s else cfgErr s Code.NOT_LEAD f off
  match g.base with
  | 0x40 => funcCtlWrite s src n
  | 0x60 => lead 0 s fun s => cancelTicket s (bits n 0 48)
  | 0x68 => lead 0 s fun s => devCtlWrite s n
  | 0x100120 => if n % 2 = 1 then after s (execMeTest src (Fin.ofNat 16 i) (Fin.ofNat 16 j) s) else s
  | 0x1B0000 => bankHandover s src n
  | 0x1D0010 => if srcId src = idHost i then plainWrite s g off v else s
  | 0x1D0020 =>
    let s := plainWrite s g off v
    if bits n 0 2 = 0 then s else lead 0 s fun s => if bits n 0 2 = 1 then giveLead s else s
  | 0x1D0100 => ringBaseWrite s src i j (bits n 0 48)
  | 0x1D0108 => ringCtlWrite s src i j n
  | 0x1D0110 => if srcId src = idHost i then s else ringBusy s i j off
  | 0x1D0300 => irqClear s i n
  | 0x1EA000 => laneTestWrite s src g i off v
  | 0x1EA018 => laneTestWrite s src g i off v
  | 0x1F0030 => lead 0x2C s fun s => if bits n 0 2 = 1 then after s (execTwinReturn src s) else s
  | 0x200000 =>
    lead 0x14 s fun s => match bits n 0 2 with
      | 1 => after s (execGlobalStop src s)
      | 2 => after s (execResume src s)
      | _ => s
  | 0x200020 => lead 0x14 s fun s => plainWrite s g off v
  | 0x208040 => restoreWrite s src v
  | 0x1F00000 => emberCtl s n
  | _ => plainWrite s g off v

/-- A write of the register at BAR0 offset `off` (R10, R45, R371). DEDUCED (log entry 52). -/
def regWrite (s : State) (src : Src) (off : Nat) (v : BitVec 64) : State :=
  match lookupReg off with
  | none => s
  | some (g, i, j) => if g.func = .none then actWrite s src g i j off v else configWrite s off v

/-- REGISTER_WRITE: a write of `len` bytes from an offset; one that is not an aligned 8-byte access is refused with `BAR_WIDTH` (R372). -/
def execRegisterWrite (src : Src) (off len : Nat) (v : BitVec 64) (s : State) : Res :=
  if !served s src then .next s
  else if len ≠ 8 ∨ off % 8 ≠ 0 then
    match src with
    | .host p => .next (hifErr s Code.BAR_WIDTH p.val 0 off)
    | .supervisor => .next s
  else .next (regWrite s src off v)

/-! ### SREGR and SREGW (R192) -/

/-- SREGR: rd := the BAR0 register at offset ra. -/
def execSregr (core : Core) (rd ra : Fin 32) (s : State) : Res :=
  awlStep core (.sregr core rd ra) (fun s c =>
    let off := (c.sreg ra).toNat
    if off % 8 ≠ 0 then .fault s Code.AWL_ALIGN 0
    else
      let r := regRead s off
      .done r.1 (c.setS rd r.2)) s

/-- SREGW: the BAR0 register at offset ra := rb, as a write of the non-lead host (R44, R45). -/
def execSregw (core : Core) (ra rb : Fin 32) (s : State) : Res :=
  awlStep core (.sregw core ra rb) (fun s c =>
    let off := (c.sreg ra).toNat
    if off % 8 ≠ 0 then .fault s Code.AWL_ALIGN 0 else .done (regWrite s .supervisor off (c.sreg rb)) c) s

end Sys2Proof.Machine
end

