-- ==== Sys2Proof/Machine/ImageCheck.lean ====
section
/-! DEFINITION. The configuration image (R26, R29 to R36, R134, R195, R477): what Kindling's stages 0x03 to 0x05, and the management
endpoint at VerifyComplete, find of an image slot. -/

namespace Sys2Proof.Machine

/-! ### Slots (R25, R27, R28) -/

def slotFlash (k : Nat) : Nat := k * 0x01800000
def slotSeq (s : State) (k : Nat) : Nat := flashNat s (0x03100000 + 16 * k) 4
def slotStateWord (s : State) (k : Nat) : Nat := flashNat s (0x03100004 + 16 * k) 4
def slotEmpty (s : State) (k : Nat) : Bool := slotSeq s k == 0xFFFFFFFF
def slotBad (s : State) (k : Nat) : Bool := slotStateWord s k != 0xFFFFFFFF
/-- STATE is programmed to BAD (R27, R38). -/
def markBad (s : State) (k : Nat) : State := flashWrite s (0x03100004 + 16 * k) (zeros 4)

/-! ### The image's own bytes -/

/-- Byte fields and bytes of the image in slot k, relative to its start. -/
def imFld (s : State) (k o n : Nat) : Nat := flashNat s (slotFlash k + o) n
def imBytes (s : State) (k o n : Nat) : Bytes := flashBytes s (slotFlash k + o) n
def imZero (s : State) (k o n : Nat) : Bool := allZero (imBytes s k o n)

/-- The header keeps the rules of Table 2-2 but for PART and MIN_STEPPING (R29). -/
def headerOk (s : State) (k : Nat) : Bool :=
  let f := imFld s k
  let signed := f 0x0C 4
  let n := f 0x20 2
  let tab := f 0x24 4
  f 0 4 == 0x494B5844 && f 4 2 == 1 && f 6 2 == 256 && f 8 4 == signed + 3328 && decide (signed + 3328 ≤ 0x01800000) && signed % 16 == 0 &&
    decide (f 0x10 4 ≤ 128) && decide (f 0x14 4 ≤ 1) && decide (1 ≤ n) && decide (n ≤ 1024) && f 0x22 2 == 0 &&
    tab % 32 == 0 && decide (256 ≤ tab) && decide (tab + 32 * n ≤ signed) && f 0x28 4 == signed && decide (f 0x2C 4 ≤ 1) && imZero s k 0x39 199

/-- PART and MIN_STEPPING fit this device (R40). -/
def partOk (s : State) (k : Nat) : Bool :=
  imBytes s k 0x30 8 == [0x44, 0x58, 0x54, 0x2D, 0x39, 0x30, 0x32, 0x34] && decide (imFld s k 0x38 1 ≤ s.fuses.stepping.toNat)

/-- A section-table entry (R30). -/
structure Sec where
  type : Nat
  target : Nat
  off : Nat
  len : Nat
  load : Nat
  rsvd : Bool
  deriving DecidableEq, Repr

def imSec (s : State) (k i : Nat) : Sec :=
  let b := imBytes s k (imFld s k 0x24 4 + 32 * i) 32
  { type := field b 0 2, target := field b 2 2, off := field b 4 4, len := field b 8 4, load := field b 0x10 8,
    rsvd := rsvdZero b 0xC 4 && rsvdZero b 0x18 8 }
def imSecs (s : State) (k : Nat) : List Sec := (List.range (imFld s k 0x20 2)).map (imSec s k)

/-- No two of a list of ranges overlap. -/
def apart : List (Nat × Nat) → Bool
  | [] => true
  | r :: rs => rs.all (fun q => !overlaps r.1 r.2 q.1 q.2) && apart rs

/-- The sections that are copied into the near tier, as address and length (R35). -/
def loadRanges (xs : List Sec) : List (Nat × Nat) := (xs.filter fun x => decide (4 ≤ x.type)).map fun x => (x.load, x.len)

/-- The section table keeps R30 and Table 2-3. -/
def tableOk (s : State) (k : Nat) (xs : List Sec) : Bool :=
  let one (x : Sec) : Bool :=
    x.rsvd && x.off % 64 == 0 && decide (x.off + x.len ≤ imFld s k 0x0C 4) && decide (1 ≤ x.type) && decide (x.type ≤ 6) &&
    (if x.type = 2 then isFunc x.target else x.target == 0) && (if 4 ≤ x.type then x.load % 64 == 0 else x.load == 0)
  xs.all one && apart ((0, 256) :: (imFld s k 0x24 4, 32 * imFld s k 0x20 2) :: xs.map fun x => (x.off, x.len)) &&
    (xs.filter (·.type == 1)).length == 1 && (xs.filter (·.type == 3)).length == 1 && ((xs.filter (·.type == 2)).map (·.target)).Nodup

/-- The load regions keep R35, the sections' lengths R32 and R34. -/
def placesOk (xs : List Sec) : Bool :=
  (loadRanges xs).all (fun r => decide (r.1 + r.2 ≤ nearEnd)) && apart (loadRanges xs) &&
    xs.all fun x => (x.type != 2 || x.len % 16 == 0) && (x.type != 4 || x.len % 64 == 0) && (x.type != 5 || x.len % 4 == 0)

/-- The signature block keeps its layout (R36). -/
def sigOk (s : State) (k : Nat) : Bool :=
  let o := imFld s k 0x28 4
  imFld s k o 4 == 1 && imFld s k (o + 4) 4 == 3309 && imZero s k (o + 8) 8 && imZero s k (o + 3325) 3

/-- The bytes of the first section of a type. -/
def secBytes (s : State) (k : Nat) (xs : List Sec) (type : Nat) : Bytes :=
  match xs.find? (·.type == type) with
  | some x => imBytes s k x.off x.len
  | none => []

/-- The IDENTITY section keeps R31. -/
def identityOk (b : Bytes) : Bool :=
  let id := field b 0 2
  let size := field b 2 2
  let twin := field b 8 2
  let flags := field b 0xA 2
  b.length == 64 && decide (1 ≤ size) && decide (size ≤ 4096) && decide (id < 4096) && decide (id < size) && decide (twin < 4096) &&
    decide (flags ≤ 1) && (flags == 0 || twin != id) && decide (field b 0xE 1 ≤ 1) && rsvdZero b 0xF 49

/-! ### LOAD_LIST (R32) -/

/-- The register space of a function: the ranges of BAR0 that hold its registers, as address and length (DEDUCED, log entry 19). -/
def funcSpace (f : Nat) : List (Nat × Nat) :=
  let lanes (n c : Nat) : Nat × Nat := (0x1EA000 + 0x20 * n, 0x20 * c)
  if f < 0x10 then
    [0x100000, 0x110000, 0x120000, 0x140000, 0x150000].map (fun b => (b + 0x1000 * f, 0x1000)) ++
      [(0x160200 + 8 * f, 8), (0x1B0100 + 8 * f, 8), (0x1B0600 + 8 * f, 8), (0x1B0180 + 64 * f, 64), (0x1B0680 + 64 * f, 64)]
  else if f = 0x10 then [(0x1C0000, 0x1000)]
  else if f = 0x11 then [(0x160000, 0x200), (0x170000, 0x1000), (0x180000, 0x1000), (0x190000, 8), (0x190010, 8), (0x190100, 0x300)]
  else if f = 0x12 then [(0x190008, 8), (0x190400, 0x300)]
  else if f = 0x13 then [(0x2000, 0x1000)]
  else if f = 0x14 then [(0x200008, 8), (0x208000, 0x100)]
  else if 0x20 ≤ f ∧ f ≤ 0x2B then [(0x1E0000 + 0x40 * (f - 0x20), 0x40), (0x1E1000, 0x8000), lanes (4 * (f - 0x20)) 4]
  else if f = 0x2C then [(0x1F0000, 0x10000), lanes 48 8]
  else if 0x30 ≤ f ∧ f ≤ 0x33 then [(0x1A0000 + 0x100 * (f - 0x30), 0x100), lanes (72 + 8 * (f - 0x30)) 8]
  else if 0x34 ≤ f ∧ f ≤ 0x35 then
    let p := f - 0x34
    [(0x1D0000 + 8 * p, 8), (0x1D0010 + 8 * p, 8), (0x1D0100 + 0x100 * p, 0x80), (0x1D0300 + 8 * p, 8), (0x1D1000 + 0x1000 * p, 0x1000),
      lanes (56 + 8 * p) 8]
  else []

/-- The bits that a register marks RW; none where no register stands. -/
def rwMask (off : Nat) : Nat := match lookupReg off with | some (g, _, _) => g.rw | none => 0

/-- An entry of function f's list keeps R32. -/
def loadOk (f : Nat) (b : Bytes) : Bool :=
  let off := field b 0 4
  let v := field b 8 8
  off % 8 == 0 && field b 4 4 == 0 && (funcSpace f).any (fun r => decide (r.1 ≤ off) && decide (off < r.1 + r.2)) && (v &&& rwMask off) == v

/-- The entries of a LOAD_LIST section. DEDUCED (log entry 19). -/
def loadEntries (s : State) (k : Nat) (x : Sec) : List Bytes := (List.range (x.len / 16)).map fun i => imBytes s k (x.off + 16 * i) 16

/-- What the image writes into registers, in order (R32). -/
def imageLoads (s : State) (k : Nat) (xs : List Sec) : List (Nat × BitVec 64) :=
  (xs.filter (·.type == 2)).flatMap fun x => (loadEntries s k x).map fun b => (field b 0 4, BitVec.ofNat 64 (field b 8 8))

/-! ### PROGRAM_DIR (R33, R34, R134, R195) -/

/-- A directory entry as a program. -/
def progOf (xs : List Sec) (b : Bytes) : Program :=
  let x := (xs.drop (field b 0x10 2)).head?
  { id := field b 0 2, kind := field b 2 1, chain := field b 3 1 == 1, hearthMask := field b 4 2, bufCount := field b 6 1, flags := field b 7 1,
    funcMask := field b 8 8, secAddr := match x with | some x => x.load | none => 0, secLen := match x with | some x => x.len | none => 0,
    entry := field b 0x14 4 }

/-- ASCII, padded with zero bytes. -/
def nameOk (b : Bytes) : Bool := b.all (fun c => decide (c.toNat < 128)) && allZero (b.dropWhile (· != 0))

/-- The entry block of a KIND 1 program (R134). -/
def entryBlockOk (s : State) (k : Nat) (x : Sec) (p : Program) : Bool :=
  decide (p.entry + 64 ≤ x.len) && (List.range 16).all fun h =>
    let w := imFld s k (x.off + p.entry + 4 * h) 4
    if bit p.hearthMask h then w % 64 == 0 && decide (w < x.len) else w == 0

/-- A directory entry keeps Table 2-4, R34, R134 and R195. -/
def progOk (s : State) (k : Nat) (xs : List Sec) (b : Bytes) : Bool :=
  let p := progOf xs b
  decide (1 ≤ p.id) && decide (p.id ≤ 0xFFFE) && (p.kind == 1 || p.kind == 2) && decide (field b 3 1 ≤ 1) && decide (p.bufCount ≤ 64) &&
    decide (p.flags ≤ 2) && field b 0x12 2 == 0 && rsvdZero b 0x18 8 && nameOk ((b.drop 0x20).take 32) &&
    match (xs.drop (field b 0x10 2)).head? with
    | none => false
    | some x =>
      if p.kind = 1 then x.type == 4 && p.entry % 64 == 0 && entryBlockOk s k x p
      else x.type == 5 && p.entry % 4 == 0 && decide (p.entry < x.len) && decide (x.len ≤ 131072) && p.flags == 0

/-- The directory's entries. -/
def dirEntries (b : Bytes) : List Bytes := (List.range (field b 0 4)).map fun i => (b.drop (16 + 64 * i)).take 64

/-- The PROGRAM_DIR section keeps R33. -/
def dirOk (s : State) (k : Nat) (xs : List Sec) : Bool :=
  let b := secBytes s k xs 3
  let n := field b 0 4
  decide (16 ≤ b.length) && decide (1 ≤ n) && decide (n ≤ 1024) && rsvdZero b 4 12 && b.length == 16 + 64 * n &&
    ((dirEntries b).map fun e => field e 0 2).Nodup && (dirEntries b).all (progOk s k xs)

/-! ### Register values (R477) -/

/-- A register as the image will leave it: its reset value with the entries written in order. -/
def loadedVal (loads : List (Nat × BitVec 64)) (off : Nat) : Nat :=
  loads.foldl (fun v e => if e.1 = off then (mergeMask (BitVec.ofNat 64 v) (rwMask off) e.2).toNat else v) (regReset off).toNat

/-- The register values of an image under judgement. -/
def imageCtx (s : State) (k : Nat) (xs : List Sec) (far : Option (List Nat)) : CfgCtx :=
  let v := loadedVal (imageLoads s k xs)
  let id := secBytes s k xs 1
  { v := v, secs := loadRanges xs, owner := fun n => bits (v (F.BNK_INIT_OWNER n).off) 0 8, far := far, rank := field id 0 2, group := field id 2 2,
    records := [] }

/-! ### The stages -/

/-- Stage 0x03 (R29 to R36, R40, R477): the code, or 0. DEDUCED (log entry 92). DEDUCED (log entry 100). -/
def imageStage3 (s : State) (k : Nat) : Nat :=
  if !headerOk s k then Code.IMG_FORMAT
  else if !partOk s k then Code.IMG_PART
  else
    let xs := imSecs s k
    if tableOk s k xs && placesOk xs && sigOk s k && identityOk (secBytes s k xs 1) &&
        (xs.filter (·.type == 2)).all (fun x => (loadEntries s k x).all (loadOk x.target)) && dirOk s k xs &&
        allFuncs.all fun f => !(imageCtx s k xs none).bad f
    then 0 else Code.IMG_FORMAT

/-- The key record of an index is usable (R26). -/
def keyOk (s : State) (i : Nat) : Bool :=
  let o := 0x03000000 + 0x80000 * i
  flashNat s o 4 == 0x59454B44 && flashNat s (o + 4) 4 == i && flashNat s (o + 8) 4 == 1952 && decide (flashNat s (o + 0xC) 4 ≤ 522272) &&
    Config.shake256 (flashBytes s (o + 0x10) 1952) 32 == (if i = 0 then s.fuses.keyHash0 else s.fuses.keyHash1) &&
    !(if i = 0 then s.fuses.revoked0 else s.fuses.revoked1)

/-- The digest of R36. -/
def imageDigest (s : State) (k : Nat) : Bytes := Config.shake256 (imBytes s k 0 (imFld s k 0x0C 4)) 64

/-- Stage 0x04 (R26, R36, R40): the code, or 0. -/
def imageStage4 (s : State) (k : Nat) : Nat :=
  let i := imFld s k 0x14 4
  if !keyOk s i then Code.IMG_KEY_REVOKED
  else if Config.mldsaVerify (flashBytes s (0x03000010 + 0x80000 * i) 1952) (imageDigest s k) (imBytes s k (imFld s k 0x28 4 + 0x10) 3309) then 0
  else Code.IMG_SIG_FAIL

/-- Stage 0x05 (R39): the code, or 0. -/
def imageStage5 (s : State) (k : Nat) : Nat := if imFld s k 0x10 4 < s.fuses.counter then Code.IMG_ROLLBACK else 0

/-- What the device keeps of an image that passed. -/
def imageOf (s : State) (k : Nat) : Image :=
  let xs := imSecs s k
  { slot := k, rollback := imFld s k 0x10 4, keyIndex := imFld s k 0x14 4, advance := bit (imFld s k 0x2C 4) 0, buildId := imFld s k 0x18 8,
    digest := imageDigest s k, progs := (dirEntries (secBytes s k xs 3)).map (progOf xs),
    codeSecs := (xs.filter (·.type == 5)).map fun x => (x.load, x.len), roSecs := loadRanges xs }

end Sys2Proof.Machine
end

