-- ==== Sys2Proof/Machine/Kindling.lean ====
section
/-! DEFINITION. Power states and Kindling (R36 to R42, R53, R322, R369, R393, R399, R465 to R471, R475). -/

namespace Sys2Proof.Machine

/-! ### What a change of power keeps (R433, R436, R469, R470) -/

/-- Registers of the auxiliary domain: `DEV_ID`, `MGT_I3C`, `MGT_ID`, `MGT_UPDATE`. -/
def auxRegs (off : Nat) : Bool := [0x0, 0x200030, 0x200038, 0x200040].contains off

/-- Registers that a re-kindle keeps: those, `DEV_STATE`, `DEV_CTL`, the state of the PCIe ports, and the Ember rings' (R53, R370,
R436). -/
def rekindleRegs (off : Nat) : Bool :=
  auxRegs off || [0x8, 0x68, 0x1D0010, 0x1D0018, 0x1D0020, 0x1F00000].contains off || (decide (0x1F01000 ≤ off) && decide (off < 0x1F03000))

/-- The block with everything lost that main power or a run holds: the near tier's contents are lost and banks are empty (R53, R470). Far
tier, both flashes, fuses, pins, management endpoint and TAP stay. DEDUCED (log entry 62). A lost checkpoint-flash domain is usable again
from here on: DESIGN CHOICE (log entry 111). -/
def fresh (s : State) (keep : Nat → Bool) : State :=
  { State.reset with
    pending := s.pending, free := s.free + 2, out := s.out, regs := s.regs.filter fun e => keep e.1, auxOn := s.auxOn, mainOn := s.mainOn,
    thermTrip := s.thermTrip, pwrFault := s.pwrFault, twinIn := s.twinIn, fuses := s.fuses, flash := s.flash,
    mem := (s.mem.clear 0xF00000000000 0x20000000).loseNear s.free, farPoison := s.farPoison, hostBad := s.hostBad,
    mgmt := { s.mgmt with reports := [] }, tap := s.tap, ckptFlash := s.ckptFlash }

/-- The rollback fuses of the image must advance (R39). -/
def blows (s : State) (i : Image) : Bool := i.advance && decide (s.fuses.counter < i.rollback)

/-- A blow of the rollback fuses that is interrupted leaves the counter anywhere from its old value up to ROLLBACK (R470). -/
def cutBlow (s : State) : State :=
  match s.image with
  | some i =>
    if s.power = .kindling ∧ rd s F.KDL_STATUS_STAGE = 0xD ∧ blows s i then
      let (x, s) := takeFree s
      { s with fuses := { s.fuses with counter := s.fuses.counter + x % (i.rollback - s.fuses.counter + 1) } }
    else s
  | none => s

/-- Entry to AUX from a main-powered state (R469, R470). DEDUCED (log entry 62). -/
def enterAux (s : State) : State :=
  let s := fresh (cutBlow s) auxRegs
  wr { s with mainOn := false, mgmt := { s.mgmt with kindled := false } } F.DEV_STATE_POWER 1

/-! ### Kindling's stages (R37) -/

/-- Kindling ends on a fatal stage; vector 7 (R37, Table 14-4). -/
def kdlFail (s : State) (stage code : Nat) : State :=
  let s := wr (wr (wr s F.KDL_STATUS_STAGE stage) F.KDL_STATUS_FAILED 1) F.KDL_STATUS_CODE code
  raiseVec (raiseVec s 0 7) 1 7

/-- The physical MEs that the retirement area retires in a hearth, as a mask (R42). -/
def areaMask (s : State) (h : Nat) : Nat :=
  (List.range 1024).foldl (fun m k =>
    let r := flashBytes s (0x03110000 + 16 * k) 16
    if field r 0 2 = 0x4D52 ∧ field r 0xC 4 = crc32 (r.take 12) ∧ field r 2 1 = h ∧ field r 3 1 ≤ 16 then m ||| 2 ^ field r 3 1 else m) 0

/-- Map the spare ME of a hearth (R41). DEDUCED (log entry 63). SOURCE is 0, the fuse map, for an ME that stands in the fuse map and in
the retirement area: DESIGN CHOICE (log entry 114). -/
def mapSpare (s : State) (h : Nat) : State :=
  let fuse := s.fuses.meMap.getD h 0
  let gone := maskBits (fuse ||| areaMask s h) 17
  let n := h / 8
  let b := h % 8
  let s := match gone with
    | [] => s
    | [p] => wr (wr (wr s (F.KDL_SPARE_PHYS n b) p) (F.KDL_SPARE_RETIRED n b) 1) (F.KDL_SPARE_SOURCE n b) (if bit fuse p then 0 else 1)
    | _ => wr s (F.KDL_SPARE_DEGRADED n b) 1
  each (List.range 16) s fun s i => wr s (F.MXE_MAP_PHYS h i) (physicalMe s h i)

/-- Stages 0x03 to 0x05 of a slot: the stage it fails at, and the code, 0 where it passes. -/
def slotOutcome (s : State) (k : Nat) : Nat × Nat :=
  match imageStage3 s k, imageStage4 s k, imageStage5 s k with
  | 0, 0, 0 => (5, 0)
  | 0, 0, c => (5, c)
  | 0, c, _ => (4, c)
  | c, _, _ => (3, c)

/-- A slot that passed is loaded: its registers' values are known, spares are mapped, and the training of stage 0x07 begins. -/
def takeSlot (s : State) (k : Nat) (rest : List Nat) : State :=
  let s := { s with cands := rest, image := some (imageOf s k),
                    loads := (imageLoads s k (imSecs s k)).foldl (fun (m : Smap (BitVec 64)) e => m.set e.1 e.2) [] }
  let s := each (List.range 16) (wr s F.KDL_STATUS_SLOT k) mapSpare
  wr s F.KDL_STATUS_STAGE 7

/-- Try candidates in order (R38); `stage` is where the last one failed. -/
def trySlots (s : State) : List Nat → Nat → State
  | [], stage => kdlFail s stage (rd s F.KDL_STATUS_CODE)
  | k :: ks, _ =>
    let r := slotOutcome s k
    if r.2 = 0 then takeSlot s k ks
    else trySlots (wr (wr (wr (markBad s k) F.KDL_STATUS_STAGE r.1) F.KDL_STATUS_CODE r.2) F.KDL_STATUS_FALLBACK 1) ks r.1

/-- The candidates of stage 0x02 in order (R38). Two SEQs exactly 2^31 apart, of which neither is later, are tried as equal ones are:
DESIGN CHOICE (log entry 112). -/
def slotCands (s : State) : List Nat :=
  let ok (k : Nat) : Bool := !slotEmpty s k && !slotBad s k
  match s.slotOvr with
  | some k => if ok k then [k] else []
  | none => (if later32 (slotSeq s 1) (slotSeq s 0) then [1, 0] else [0, 1]).filter ok

/-- Stages 0x01 to 0x06. DEDUCED (log entry 13). -/
def kindle (s : State) (fuseOk : Bool) : State :=
  let s := wr s F.KDL_STATUS_STAGE 1
  if !fuseOk then kdlFail s 1 Code.KDL_FUSE_FAIL
  else
    let b (x : Bool) : Nat := if x then 1 else 0
    let s := wr (wr (wr s F.KDL_FUSE_ROLLBACK_CTR s.fuses.counter) F.KDL_FUSE_KEY0_REVOKED (b s.fuses.revoked0)) F.KDL_FUSE_KEY1_REVOKED (b s.fuses.revoked1)
    let s := wr (wr (wr s F.KDL_STATUS_STAGE 2) F.KDL_SLOTSEQ_SEQ_A (slotSeq s 0)) F.KDL_SLOTSEQ_SEQ_B (slotSeq s 1)
    let s := wr s F.MGT_UPDATE_ACTIVATE_PENDING 0
    match slotCands s with
    | [] => kdlFail s 2 Code.IMG_NONE
    | cs => trySlots s cs 3

/-- Identity in the registers (R31, R55). -/
def identityRegs (s : State) : State :=
  match s.image with
  | none => s
  | some i =>
    let b := secBytes s i.slot (imSecs s i.slot) 1
    let s := wr (wr (wr (wr s F.DEV_IDENT_MODULE_ID (field b 0 2)) F.DEV_IDENT_TWIN_ID (field b 8 2)) F.DEV_IDENT_TWIN_CFG (field b 0xA 2))
      F.DEV_IDENT_GROUP_SIZE (field b 2 2)
    wr (wr s F.DEV_GROUP_GROUP_ID (field b 4 4)) F.DEV_GROUP_PARITY_GROUP (field b 0xC 2)

/-- The ring of a port whose `HIF_RING_CTL` stands at an offset. -/
def ringCtlAt (off : Nat) : Option (Nat × Nat) :=
  match lookupReg off with
  | some (g, p, r) => if g.base = 0x1D0108 then some (p, r) else none
  | none => none

/-- The LOAD_LIST values in the registers (R32), but for the rings' ENABLE. -/
def loadRegs (s : State) : State :=
  each (s.loads.filter fun e => (ringCtlAt e.1).isNone) s fun s e => setReg s e.1 (mergeMask (regVal s e.1) (rwMask e.1) e.2)

/-- The rings that the image sets up: a ring is enabled after R373's check, as by its own port. DEDUCED (log entry 19). -/
def loadRings (s : State) : State :=
  each s.loads s fun s e => match ringCtlAt e.1 with
    | some (p, r) => ringCtlWrite s (.host (Fin.ofNat 2 p)) p r e.2.toNat
    | none => s

/-- Stages 0x07 to 0x0A act on the values that the image will write, while the registers still hold their defaults (R11). -/
def withImage (s : State) (f : State → State) : State :=
  let t := f (loadRegs (identityRegs s))
  each ([F.DEV_IDENT_MODULE_ID.off, F.DEV_GROUP_GROUP_ID.off] ++ ((s.loads.map (·.1)).filter fun o => (ringCtlAt o).isNone && rwMask o != 0)) t fun t o => setReg t o (regVal s o)

/-- Stage 0x08 for a port: one whose link is up stays up (R370). -/
def kindlePcie (s : State) (p : Nat) (t : PcieTrain) : State :=
  if portUp s p then s
  else
    let s := withImage s fun s => pcieTrained s p t
    if portUp s p then msixRelease s p else s

/-- Stage 0x09 for a port whose ENABLE is set (R322). -/
def kindleCxl (s : State) (n : Nat) (t : CxlTrain) : State :=
  withImage s fun s =>
    if rd s (F.CXL_CFG_ENABLE n) = 0 then s
    else match cxlFound s n t with
      | (0, cap) => cxlUp s n cap t
      | (code, _) => cxlFailed s n code

/-- Training outcomes that are not given count as failed. -/
def noLink : LinkTrain := { trained := false, lanes := 0, hello := none }

/-- Stage 0x0B: every bank is cleared (R332). -/
def clearBanks (s : State) (spare : Nat) : State :=
  let s := { s with mem := s.mem.clear 0xF00000000000 0x20000000 }
  wr (each (List.range 144) s fun s n => wr s (F.BNK_OWNER_CLEARING n) 0) F.MGT_FLASH_ERR_SPARE_BLOCKS spare

/-- The 64 KiB pages that ranges touch (R320). -/
def pagesOf (rs : List (Nat × Nat)) : List Nat :=
  (rs.flatMap fun r => if r.2 = 0 then [] else (List.range ((r.1 + r.2 - 1) / 65536 - r.1 / 65536 + 1)).map (r.1 / 65536 + ·)).eraseDups

/-- Stage 0x0C makes its effects (R31, R32, R35, R320, R331, R379, R399). -/
def applyImage (s : State) (i : Image) : State :=
  let xs := imSecs s i.slot
  let id := secBytes s i.slot xs 1
  let s := loadRings (loadRegs (identityRegs s))
  let s := each (xs.filter fun x => decide (4 ≤ x.type)) s fun s x => overwrite s x.load (imBytes s i.slot x.off x.len)
  let s := wr (wr (wr s F.DEV_STATE_LEAD_PORT (field id 0xE 1)) F.HIF_LEAD_LEAD_PORT (field id 0xE 1)) F.MEM_RO_PAGES_COUNT (pagesOf i.roSecs).length
  let s := wr (wr (wr s F.KDL_IMAGE_ROLLBACK i.rollback) F.KDL_IMAGE_KEY_INDEX i.keyIndex) F.KDL_BUILD_ID i.buildId
  let s := each (List.range 144) s fun s n =>
    let o := rd s (F.BNK_INIT_OWNER n)
    let off := decide (16 ≤ n) && (o == 0 || rd s (F.KDL_SPARE_DEGRADED (bankHearth n / 8) (bankHearth n % 8)) == 1)
    wr (wr s (F.BNK_OWNER_OWNER n) o) (F.BNK_OWNER_OFF n) (if off then 1 else 0)
  computeCeil (wr (clearHalves s) F.DMP_POOL_THERM_CEIL (rd s F.DMP_CEIL_CORE_TOKENS))

/-- A function is available at stage 0x0D (Table 2-5). -/
def available (s : State) (f : Nat) : Bool :=
  if f < 0x10 then rd s (F.KDL_SPARE_DEGRADED (f / 8) (f % 8)) == 0
  else if 0x20 ≤ f ∧ f ≤ 0x2C then rd s (lkState (f - 0x20)) != lkFAILED
  else if 0x30 ≤ f ∧ f ≤ 0x33 then rd s (F.CXL_STATE_STATE (f - 0x30)) != 3
  else if 0x34 ≤ f then portUp s (f - 0x34)
  else true

/-- Frames that a link held during Kindling take effect. -/
def runLink (s : State) (l : Nat) : State :=
  let x := getLink s l
  linkGo (each x.held (setLink s l { x with held := [] }) fun s f => processFrame s l (Pkt.parse f.1 f.2)) l

/-- Stage 0x0D begins: the available functions start. -/
def startFuncs (s : State) : State :=
  let s := each allFuncs s fun s f => setFn s f (if available s f then fnRUN else fnUNAVAIL)
  each (List.range 16) (wr s F.KDL_STATUS_STAGE 0xD) fun s h => if fnState s h = fnRUN then wakeUnits s h else s

/-- The rollback fuses reach the image's ROLLBACK where they must advance (R39). -/
def advanceFuses (s : State) (i : Image) : State :=
  if blows s i then wr { s with fuses := { s.fuses with counter := i.rollback } } F.KDL_FUSE_ROLLBACK_CTR i.rollback else s

/-- Stage 0x0D ends: the rollback fuses have advanced (R39), the device enters RUN, and frames that arrived meanwhile take
effect. DEDUCED (log entry 29). DEDUCED (log entry 47). -/
def enterRun (s : State) (i : Image) : State :=
  let s := advanceFuses s i
  let s := wr (wr { s with mgmt := { s.mgmt with kindled := true } } F.KDL_STATUS_STAGE 0xD) F.DEV_STATE_POWER 3
  let s := raiseVec (raiseVec (syncCodec (beginPolicy s)) 0 7) 1 7
  each (List.range 13) s runLink

/-- Stages 0x0C and 0x0D (R37, R477); the blow of the rollback fuses takes time (R39, R470). -/
def finishKindling (s : State) : State :=
  let s := wr s F.KDL_STATUS_STAGE 0xC
  match s.image with
  | none => kdlFail s 0xC Code.IMG_FORMAT
  | some i =>
    if (List.range 4).any (imageCtx s i.slot (imSecs s i.slot) (some ((List.range 4).map (farSize s)))).farArenaBad then kdlFail s 0xC Code.IMG_FORMAT
    else
      let s := startFuncs (applyImage s i)
      if blows s i then s else enterRun s i

/-- KINDLE_STAGE_DONE: a stage that takes time has ended (R37, Table 2-5). DESIGN CHOICE (log entry 50). Stage 0x07 is the only place in
which a lost GDDR7 domain is retrained: DESIGN CHOICE (log entry 111). -/
def execKindleStageDone (r : StageResult) (s : State) : Res :=
  if s.power ≠ .kindling || s.scanHold || rd s F.KDL_STATUS_FAILED = 1 then .next s else
  match rd s F.KDL_STATUS_STAGE, r with
  | 7, .gddr a b =>
    if a && b then .next (wr { s with lostGddr := [] } F.KDL_STATUS_STAGE 8) else .next (kdlFail s 7 Code.KDL_TRAIN_FAIL)
  | 8, .pcie p0 p1 => .next (wr (kindlePcie (kindlePcie s 0 p0) 1 p1) F.KDL_STATUS_STAGE 9)
  | 9, .cxl n0 n1 n2 n3 =>
    .next (wr (kindleCxl (kindleCxl (kindleCxl (kindleCxl s 0 n0) 1 n1) 2 n2) 3 n3) F.KDL_STATUS_STAGE 0xA)
  | 10, .links ts =>
    .next (wr (withImage s fun s => each (List.range 13) s fun s l => (bringUp s l (ts.getD l noLink)).1) F.KDL_STATUS_STAGE 0xB)
  | 11, .banks ok spare => if ok then .next (finishKindling (clearBanks s spare)) else .next (kdlFail s 0xB Code.KDL_TRAIN_FAIL)
  | 13, .fuses => .next (match s.image with | some i => enterRun s i | none => s)
  | _, _ => .next s

/-! ### Power transitions (Table 18-11, R471) -/

/-- Registers whose value fuses or the vendor fix (R55, R446). -/
def fixedRegs (s : State) : State := wr (wr s F.DEV_ID_STEPPING s.fuses.stepping.toNat) F.MGT_ID_IANA Config.iana

/-- AUX_TURN_ON: the management endpoint starts and derives its key (R449, R469). -/
def execAuxTurnOn (s : State) : Res :=
  if s.auxOn then .next s
  else .next (wr (fixedRegs { s with auxOn := true, mgmt := { s.mgmt with key := Config.mldsaKey s.fuses.seed } }) F.DEV_STATE_POWER 1)

/-- AUX_TURN_OFF: everything stops; flashes and fuses keep their contents (R469, R471). -/
def execAuxTurnOff (s : State) : Res :=
  if !s.auxOn then .next s
  else
    .next { fresh (cutBlow s) (fun _ => false) with
      auxOn := false, mainOn := false, thermTrip := false, pwrFault := false, mgmt := State.reset.mgmt, tap := State.reset.tap }

/-- MAIN_INPUT_VALID: from AUX, unless a trip output is low: Kindling starts at stage 0x01, or holds before it (R466, R469, R471, R475).
Supervisor cores 0 to 2 run the boot ROM. -/
def execMainInputValid (scanHold fuseOk : Bool) (s : State) : Res :=
  if s.power ≠ .aux || s.thermTrip || s.pwrFault then .next s
  else
    let s := wr (wr { s with mainOn := true, scanHold := scanHold, slotOvr := none, rekindle := 0 } F.DEV_STATE_POWER 2) F.KDL_STATUS_STAGE 1
    let s := wr s F.GRT_STATE_TWIN_PRESENT (if s.twinIn then 1 else 0)
    let s := each (List.range 3) s fun s n => wr s (F.SAWL_STATE_STATE n) awlRUNNING
    .next (if scanHold then s else kindle s fuseOk)

/-- The main rails are on. -/
def mainPowered (s : State) : Bool := s.power == .kindling || s.power == .run || s.power == .stopped

/-- MAIN_INPUT_INVALID (R469). -/
def execMainInputInvalid (s : State) : Res := if mainPowered s then .next (enterAux s) else .next s
/-- THERMAL_TRIP: THERM_TRIP_N goes low (R471). -/
def execThermalTrip (s : State) : Res := if mainPowered s then .next { enterAux s with thermTrip := true } else .next s
/-- REGULATOR_TRIP: PWR_FAULT_N goes low (R471). -/
def execRegulatorTrip (s : State) : Res := if mainPowered s then .next { enterAux s with pwrFault := true } else .next s
/-- TRIP_RELEASE (R471). -/
def execTripRelease (s : State) : Res := if s.auxOn then .next { s with thermTrip := false, pwrFault := false } else .next s

/-! ### Re-kindle (R53) -/

/-- Entry to KINDLING by a re-kindle: rings and counters follow R433 and R436, a port whose link is up stays up (R53, R370, R439).
DEDUCED (log entry 13). DEDUCED (log entry 62). -/
def rekindleState (s : State) : State :=
  let s := cutBlow (if rd s F.EMB_CTL_FREEZE = 1 then emberUnfreeze s else s)
  let ports := s.ports.map fun p => (p.1, { p.2 with bar4 := [] })
  let t := { fresh s rekindleRegs with ember := s.ember, emberLost := s.emberLost, ports := ports, stopId := s.stopId, slotOvr := s.slotOvr }
  let t := each (List.range 2) t fun t p => wr t (F.HIF_PORT_DRIVER_READY p) 0
  let t := wr (wr (wr t F.DEV_STATE_POWER 2) F.DEV_STATE_LEAD_PORT 0) F.HIF_LEAD_LEAD_PORT 0
  let t := wr (wr t F.HIF_LEAD_CHANGES 0) F.HIF_LEAD_REFUSED 0
  let t := wr t F.GRT_STATE_TWIN_PRESENT (if t.twinIn then 1 else 0)
  each (List.range 3) t fun t n => wr t (F.SAWL_STATE_STATE n) awlRUNNING

/-- The `REKINDLED` records of every open ticket (R53). -/
def rekindleRecords (s : State) : State :=
  each s.tickets { s with tickets := [] } fun s t => completeRecord s { t with status := Code.REKINDLED }

/-- REKINDLE_ENTER: when the global stop is complete, or at once where no stop is needed (R53, R442). -/
def execRekindleEnter (fuseOk : Bool) (s : State) : Res :=
  if (s.rekindle == 1 && s.power == .stopped) || (s.rekindle == 2 && mainPowered s) then
    .next (kindle (rekindleState (rekindleRecords s)) fuseOk)
  else .next s

end Sys2Proof.Machine
end

