-- ==== Sys2Proof/Machine/Manage.lean ====
section
/-! DEFINITION. The management endpoint (R425, R446 to R450): MCTP, PLDM monitoring, image update, SPDM attestation, unit reports. The
encodings of the DMTF standards are not the spec's: a reply is an uninterpreted encoding of the content that the spec gives (log
entry 20). -/

namespace Sys2Proof.Machine

/-- A message from the I3C controller reaches the endpoint, powered from AUX onwards (R446). -/
def mgmtRow (s : State) (f : State → State) : Res := .next (if s.auxOn then f s else s)

/-! ### MCTP (R446) -/

/-- ENTDAA. -/
def execEntdaa (addr : BitVec 7) (s : State) : Res := mgmtRow s fun s => wr (wr s F.MGT_I3C_DYN_ADDR addr.toNat) F.MGT_I3C_ADDR_VALID 1
/-- SET_ENDPOINT_ID. -/
def execSetEndpointId (eid : BitVec 8) (s : State) : Res := mgmtRow s fun s => wr s F.MGT_I3C_EID eid.toNat
/-- MCTP_CONTROL_MESSAGE: the answer draws on the EID, the message types that the endpoint accepts and the enterprise number. -/
def execMctpControlMessage (m : Bytes) (s : State) : Res :=
  mgmtRow s fun s => emit s (.reply (Config.mctpReply m ([BitVec.ofNat 8 (rd s F.MGT_I3C_EID), 0x00, 0x01, 0x05, 0x7F] ++ leBytes 4 (rd s F.MGT_ID_IANA))))

/-! ### Reports and sensors (R425, R447, R450) -/

/-- The report of a function, if the data path has posted one. -/
def reportOf (s : State) (f : Nat) : Option (Nat × Nat × Nat) := s.mgmt.reports.find? f

/-- A report is behind the data path (R425). -/
def stale (s : State) (f : Nat) (r : Nat × Nat × Nat) : Bool := r.1 != fnState s f || r.2.1 != rd s F.DEV_COMMIT_GEN_GEN

/-- A sensor's content: available or not, and its value. -/
def sensor (ok : Bool) (v : Nat) : Bytes := (if ok then 0 else 1) :: leBytes 4 v

/-- Every sensor of R447, in the order of its list. -/
def sensors (s : State) : Bytes :=
  let on := mainPowered s
  (List.range 16).flatMap (fun h => sensor on (rd s (F.DMP_TEMP_TJ (h / 4) (h % 4)))) ++
  ([F.DMP_RAIL_PWR_MEMA_W, F.DMP_RAIL_PWR_MEMB_W, F.DMP_RAIL_PWR_IO_W, F.DMP_RAIL_PWR_COD_W, F.DMP_RAIL_PWR_INPUT_W].flatMap fun f => sensor on (rd s f)) ++
  sensor (on && rd s F.MGT_REPORT_GEN == rd s F.DEV_COMMIT_GEN_GEN) (rd s F.MGT_REPORT_GEN) ++
  allFuncs.flatMap fun f => match reportOf s f with
    | some r => sensor (on && !stale s f r) r.1
    | none => sensor false 0

/-- PLDM Type 2 commands that would change a sensor or an effecter (PRESUMED, log entry 20). -/
def changesSensor (m : Bytes) : Bool :=
  field m 1 1 % 64 == 2 && [0x10, 0x13, 0x14, 0x16, 0x17, 0x20, 0x22, 0x30, 0x31, 0x38, 0x39].contains (field m 2 1)

/-- PLDM_MONITOR_REQUEST (R447): one that would change something is answered ERROR_UNSUPPORTED_PLDM_CMD, 0x05. -/
def execPldmMonitorRequest (m : Bytes) (s : State) : Res :=
  mgmtRow s fun s => emit s (.reply (if changesSensor m then leBytes 1 (field m 0 1 % 128) ++ (m.drop 1).take 2 ++ [0x05] else Config.pldmReply m (sensors s)))

/-- UNIT_REPORT (R450, Table 17-8). DEDUCED (log entry 65). -/
def execUnitReport (f : BitVec 8) (s : State) : Res :=
  mgmtRow s fun s =>
    let n := f.toNat
    let r := (reportOf s n).getD (0, 0, 0)
    let refuse (c : BitVec 8) : State := emit s (.reply (c :: f :: zeros 14))
    if !isFunc n then refuse 1
    else if s.power == .aux || s.power == .kindling then refuse 2
    else
      let st := stale s n r
      emit s (.reply ([0, f] ++ leBytes 1 r.1 ++ [if st then 1 else 0] ++ leBytes 4 r.2.1 ++ leBytes 4 (rd s F.DEV_COMMIT_GEN_GEN) ++
        leBytes 2 (if st then Code.STALE else 0) ++ leBytes 2 r.2.2))

/-! ### Image update (R28, R448) -/

/-- An image runs. -/
def imageRuns (s : State) : Bool := s.power == .run || s.power == .stopped

/-- The slot that an update writes (R28). Two SEQs exactly 2^31 apart, of which neither is later, are taken as
equal ones are: DESIGN CHOICE (log entry 112). -/
def updateSlot (s : State) : Nat :=
  let open_ (k : Nat) : Bool := slotEmpty s k || slotBad s k
  if open_ 0 then 0 else if open_ 1 then 1
  else if imageRuns s then 1 - rd s F.KDL_STATUS_SLOT
  else if later32 (slotSeq s 1) (slotSeq s 0) then 0 else 1

/-- The outcome that a PLDM Type 5 reply carries: accepted or refused (PRESUMED, log entry 20). -/
def updReply (s : State) (ok : Bool) : State := emit s (.reply [if ok then 0 else 1])

/-- REQUEST_UPDATE: refused in KINDLING; the chosen slot's state record is erased first (R28, R448). DEDUCED (log entry 64). -/
def execRequestUpdate (s : State) : Res :=
  mgmtRow s fun s =>
    if s.power = .kindling then updReply s false
    else
      let k := updateSlot s
      let s := flashWrite s (0x03100000 + 16 * k) (List.replicate 16 0xFF)
      updReply (wr (wr (wr s F.MGT_UPDATE_STATE 1) F.MGT_UPDATE_SLOT k) F.MGT_UPDATE_CODE 0) true

/-- PLDM_IMAGE_DATA: bytes of the image, within the slot. -/
def execPldmImageData (off : Nat) (d : Bytes) (s : State) : Res :=
  mgmtRow s fun s =>
    if rd s F.MGT_UPDATE_STATE ≠ 1 ∨ 0x01800000 < off + d.length then s
    else flashWrite s (slotFlash (rd s F.MGT_UPDATE_SLOT) + off) d

/-- The checks at VerifyComplete, under R29, R30, R36, R39 and R40: the code, or 0. DEDUCED (log entry 92). -/
def updateCode (s : State) (k : Nat) : Nat :=
  if !headerOk s k then Code.IMG_FORMAT
  else if !partOk s k then Code.IMG_PART
  else if !(tableOk s k (imSecs s k) && sigOk s k) then Code.IMG_FORMAT
  else match imageStage4 s k with
    | 0 => imageStage5 s k
    | c => c

/-- The SEQ of a verified slot (R28). -/
def nextSeq (s : State) (k : Nat) : Nat :=
  let other := slotSeq s (1 - k)
  if other = 0xFFFFFFFF ∨ other = 0xFFFFFFFE then 0 else other + 1

/-- VERIFY_COMPLETE: SEQ is programmed only after every check has passed; a failure marks the slot BAD (R448). -/
def execVerifyComplete (s : State) : Res :=
  mgmtRow s fun s =>
    if rd s F.MGT_UPDATE_STATE ≠ 1 then updReply s false
    else
      let k := rd s F.MGT_UPDATE_SLOT
      match updateCode s k with
      | 0 => updReply (wr (flashWrite s (0x03100000 + 16 * k) (leBytes 4 (nextSeq s k))) F.MGT_UPDATE_STATE 3) true
      | c => updReply (wr (wr (markBad s k) F.MGT_UPDATE_STATE 4) F.MGT_UPDATE_CODE c) false

/-- ACTIVATE_FIRMWARE: a re-kindle at once in STOPPED, else deferred to the next Kindling (R53, R448). DEDUCED (log entry 64). -/
def execActivateFirmware (s : State) : Res :=
  mgmtRow s fun s =>
    if rd s F.MGT_UPDATE_STATE ≠ 3 then updReply s false
    else if s.power = .stopped then updReply { s with rekindle := 2, slotOvr := slotNow s } true
    else updReply (wr s F.MGT_UPDATE_ACTIVATE_PENDING 1) true

/-! ### SPDM (R449) -/

/-- An SPDM message: it is answered with content, and both go into the transcript; before the algorithms are negotiated a message that
needs them is answered with an error, which has no content (PRESUMED, log entry 20). -/
def spdmRow (s : State) (m : Bytes) (needs : Bool) (content : State → Bytes) (sign : Bool) : Res :=
  mgmtRow s fun s =>
    if needs && !s.mgmt.negotiated then emit s (.reply (Config.spdmReply m []))
    else
      let body := Config.spdmReply m (content s)
      let t := s.mgmt.transcript ++ m ++ body
      let reply := if sign then body ++ Config.mldsaSign s.mgmt.key (Config.shake256 t 64) else body
      emit { s with mgmt := { s.mgmt with transcript := t } } (.reply reply)

/-- Length of a DER element from its first bytes (PRESUMED, log entry 20). -/
def derLen (b : Bytes) : Nat :=
  let n := field b 1 1
  if n < 0x80 then 2 + n else if n = 0x81 then 3 + field b 2 1 else if n = 0x82 then 4 + 256 * field b 2 1 + field b 3 1 else 0

/-- Certificate slot 0 (R449). -/
def certChain (s : State) : Bytes :=
  let i := match s.image with | some i => if imageRuns s then i.keyIndex else 0 | none => 0
  let o := 0x03000000 + 0x80000 * i
  let dev := flashBytes s 0x03120000 0x10000
  flashBytes s (o + 0x10 + 1952) (flashNat s (o + 0xC) 4) ++ dev.take (derLen dev)

/-- A measurement (Table 17-7). -/
def measurement (s : State) (i : Nat) : Bytes :=
  let q (off : Nat) : Bytes := leBytes 8 (regVal s off).toNat
  if i = 1 then Config.shake256 Config.bootRom 64
  else if !s.mgmt.kindled || rd s F.KDL_STATUS_FAILED == 1 then zeros 64
  else match i with
    | 2 => match s.image with | some x => x.digest | none => zeros 64
    | 3 => Config.shake256 (q F.KDL_FUSE_ROLLBACK_CTR.off ++ q F.KDL_IMAGE_ROLLBACK.off) 64
    | _ => Config.shake256 (q (F.KDL_SPARE_PHYS 0 0).off ++ q (F.KDL_SPARE_PHYS 1 0).off) 64

/-- The algorithm names "MLDSA65" and "SHAKE256" with the enterprise number. -/
def algNames (s : State) : Bytes :=
  leBytes 4 (rd s F.MGT_ID_IANA) ++ [0x4D, 0x4C, 0x44, 0x53, 0x41, 0x36, 0x35] ++ [0x53, 0x48, 0x41, 0x4B, 0x45, 0x32, 0x35, 0x36]

/-- GET_VERSION: SPDM 1.3; a new exchange begins. -/
def execGetVersion (m : Bytes) (s : State) : Res :=
  spdmRow { s with mgmt := if s.auxOn then { s.mgmt with transcript := [], negotiated := false } else s.mgmt } m false (fun _ => [0x13]) false
/-- GET_CAPABILITIES: CERT_CAP, CHAL_CAP, and MEAS_CAP with signature. -/
def execGetCapabilities (m : Bytes) (s : State) : Res := spdmRow s m false (fun _ => [1, 1, 2]) false
/-- NEGOTIATE_ALGORITHMS: ML-DSA-65 and SHAKE256 as extended entries. -/
def execNegotiateAlgorithms (m : Bytes) (s : State) : Res :=
  spdmRow { s with mgmt := if s.auxOn then { s.mgmt with negotiated := true } else s.mgmt } m false algNames false
/-- GET_DIGESTS: of certificate slot 0. -/
def execGetDigests (m : Bytes) (s : State) : Res := spdmRow s m true (fun s => Config.shake256 (certChain s) 64) false
/-- GET_CERTIFICATE. -/
def execGetCertificate (m : Bytes) (s : State) : Res := spdmRow s m true certChain false
/-- CHALLENGE: signed over the SHAKE256 transcript hash. -/
def execChallenge (m : Bytes) (s : State) : Res := spdmRow s m true (fun s => Config.shake256 (certChain s) 64) true
/-- GET_MEASUREMENTS (Table 17-7). -/
def execGetMeasurements (m : Bytes) (s : State) : Res :=
  spdmRow s m true (fun s => (List.range 4).flatMap fun i => measurement s (i + 1)) true

end Sys2Proof.Machine
end

