-- ==== Sys2Proof/Machine/Tap.lean ====
section
/-! DEFINITION. The test access port (R473 to R475). The instruction codes are not the spec's: an instruction is held under a number of the
model's own (PRESUMED, log entry 21). -/

namespace Sys2Proof.Machine

/-- PRESUMED (log entry 21). -/
def tapBYPASS : Nat := 0xFF
def tapIDCODE : Nat := 1
def tapSAMPLE : Nat := 2
def tapPRELOAD : Nat := 3
def tapEXTEST : Nat := 4
def tapCLAMP : Nat := 5
def tapHIGHZ : Nat := 6

/-- The TAP is powered from the auxiliary domain (R473). -/
def tapRow (s : State) (f : State → State) : Res := .next (if s.auxOn then f s else s)

/-- An instruction is in force, and a value is shifted out. PRESUMED (log entry 21). -/
def tapShift (s : State) (inst v : Nat) : State := emit { s with tap := { s.tap with inst := inst } } (.tdo v)

/-- The scan hold before stage 0x01 (R475). -/
def inScanHold (s : State) : Bool := s.scanHold && s.power == .kindling

/-- TAP_RESET: Test-Logic-Reset, in which IDCODE is in force (R473; PRESUMED, log entry 21). -/
def execTapReset (s : State) : Res := tapRow s fun s => { s with tap := { s.tap with inst := tapIDCODE } }
/-- IDCODE: version `DEV_ID.STEPPING` [3:0], part 0x9024, manufacturer field 0x4B1, 1 (R474). -/
def execIdcode (s : State) : Res :=
  tapRow s fun s => tapShift s tapIDCODE (2 ^ 28 * (rd s F.DEV_ID_STEPPING % 16) + 2 ^ 12 * 0x9024 + 2 * 0x4B1 + 1)
/-- BYPASS (R474). -/
def execBypass (s : State) : Res := tapRow s fun s => tapShift s tapBYPASS 0
/-- SAMPLE: the contacts are captured and shifted out (R473, R474). -/
def execSample (pins : Bytes) (s : State) : Res := tapRow s fun s => tapShift s tapSAMPLE (leNat pins)
/-- PRELOAD: the boundary register's held value is set (R473, R474). -/
def execPreload (v : Bytes) (s : State) : Res := tapRow s fun s => { s with tap := { inst := tapPRELOAD, boundary := v } }
/-- EXTEST in the scan hold; BYPASS elsewhere (R475). -/
def execExtest (pins : Bytes) (s : State) : Res :=
  tapRow s fun s => if inScanHold s then tapShift s tapEXTEST (leNat pins) else tapShift s tapBYPASS 0
/-- CLAMP in the scan hold; BYPASS elsewhere (R475). -/
def execClamp (s : State) : Res := tapRow s fun s => tapShift s (if inScanHold s then tapCLAMP else tapBYPASS) 0
/-- HIGHZ in the scan hold; BYPASS elsewhere (R475). -/
def execHighz (s : State) : Res := tapRow s fun s => tapShift s (if inScanHold s then tapHIGHZ else tapBYPASS) 0

end Sys2Proof.Machine
end

