-- ==== Sys2Proof/Machine/Dispatch.lean ====
section
/-! DEFINITION. What each command does to the state: one arm per row of the table, each one call of that row's meaning. -/

namespace Sys2Proof.Machine

def exec (i : Instr) (s : State) : Host.Outcome State Fault Refusal :=
  match i with
  | .auxTurnOn => Sys2Proof.Machine.execAuxTurnOn s
  | .auxTurnOff => Sys2Proof.Machine.execAuxTurnOff s
  | .mainInputValid scanHold fuseOk => Sys2Proof.Machine.execMainInputValid scanHold fuseOk s
  | .mainInputInvalid => Sys2Proof.Machine.execMainInputInvalid s
  | .thermalTrip => Sys2Proof.Machine.execThermalTrip s
  | .regulatorTrip => Sys2Proof.Machine.execRegulatorTrip s
  | .tripRelease => Sys2Proof.Machine.execTripRelease s
  | .stopReqEdge => Sys2Proof.Machine.execStopReqEdge s
  | .twinPresentFall => Sys2Proof.Machine.execTwinPresentFall s
  | .kindleStageDone r => Sys2Proof.Machine.execKindleStageDone r s
  | .rekindle src v => Sys2Proof.Machine.execRekindle src v s
  | .rekindleEnter fuseOk => Sys2Proof.Machine.execRekindleEnter fuseOk s
  | .funcStop src f => Sys2Proof.Machine.execFuncStop src f s
  | .funcStopComplete f => Sys2Proof.Machine.execFuncStopComplete f s
  | .funcRestart src f t => Sys2Proof.Machine.execFuncRestart src f t s
  | .configWrite src off v => Sys2Proof.Machine.execConfigWrite src off v s
  | .registerWrite src off len v => Sys2Proof.Machine.execRegisterWrite src off len v s
  | .readClear src off => Sys2Proof.Machine.execReadClear src off s
  | .cancelTicket src t => Sys2Proof.Machine.execCancelTicket src t s
  | .doorbellWrite p r len v => Sys2Proof.Machine.execDoorbellWrite p r len v s
  | .ringEnable src p r v => Sys2Proof.Machine.execRingEnable src p r v s
  | .ringDisable src p r => Sys2Proof.Machine.execRingDisable src p r s
  | .ticketIntake rd => Sys2Proof.Machine.execTicketIntake rd s
  | .ticketStart => Sys2Proof.Machine.execTicketStart s
  | .kind2Start => Sys2Proof.Machine.execKind2Start s
  | .commandFetch h => Sys2Proof.Machine.execCommandFetch h s
  | .commandReady h seq => Sys2Proof.Machine.execCommandReady h seq s
  | .tileFetchComplete h seq level ref => Sys2Proof.Machine.execTileFetchComplete h seq level ref s
  | .commandComplete h seq => Sys2Proof.Machine.execCommandComplete h seq s
  | .handlePut n => Sys2Proof.Machine.execHandlePut n s
  | .commit t => Sys2Proof.Machine.execCommit t s
  | .grantRequest => Sys2Proof.Machine.execGrantRequest s
  | .reservation h => Sys2Proof.Machine.execReservation h s
  | .shedStep => Sys2Proof.Machine.execShedStep s
  | .tokenRelease h => Sys2Proof.Machine.execTokenRelease h s
  | .regulatorInWindow h => Sys2Proof.Machine.execRegulatorInWindow h s
  | .sensorReading r => Sys2Proof.Machine.execSensorReading r s
  | .overdrawRecoverStep h => Sys2Proof.Machine.execOverdrawRecoverStep h s
  | .bellowsStep h m => Sys2Proof.Machine.execBellowsStep h m s
  | .meWakeComplete h m => Sys2Proof.Machine.execMeWakeComplete h m s
  | .slotReadout h m => Sys2Proof.Machine.execSlotReadout h m s
  | .meTest src h m => Sys2Proof.Machine.execMeTest src h m s
  | .meTestComplete h m pass => Sys2Proof.Machine.execMeTestComplete h m pass s
  | .idleScrub u => Sys2Proof.Machine.execIdleScrub u s
  | .nop h seq => Sys2Proof.Machine.execNop h seq s
  | .stepEnd h seq => Sys2Proof.Machine.execStepEnd h seq s
  | .qput h seq => Sys2Proof.Machine.execQput h seq s
  | .xfer h seq => Sys2Proof.Machine.execXfer h seq s
  | .tack h seq => Sys2Proof.Machine.execTack h seq s
  | .handoverWord who w => Sys2Proof.Machine.execHandoverWord who w s
  | .mm h seq => Sys2Proof.Machine.execMm h seq s
  | .conv h seq => Sys2Proof.Machine.execConv h seq s
  | .pool h seq => Sys2Proof.Machine.execPool h seq s
  | .attn h seq => Sys2Proof.Machine.execAttn h seq s
  | .kvHomeRequest h seq => Sys2Proof.Machine.execKvHomeRequest h seq s
  | .swapOutComplete h seq => Sys2Proof.Machine.execSwapOutComplete h seq s
  | .swapInComplete h seq => Sys2Proof.Machine.execSwapInComplete h seq s
  | .kvRetry h seq => Sys2Proof.Machine.execKvRetry h seq s
  | .ptCommit h seq => Sys2Proof.Machine.execPtCommit h seq s
  | .ptCommitRelease h seq => Sys2Proof.Machine.execPtCommitRelease h seq s
  | .rowFwd h seq => Sys2Proof.Machine.execRowFwd h seq s
  | .rowBwd h seq => Sys2Proof.Machine.execRowBwd h seq s
  | .awl h seq => Sys2Proof.Machine.execAwl h seq s
  | .stashPut h seq => Sys2Proof.Machine.execStashPut h seq s
  | .stashStoreComplete h seq => Sys2Proof.Machine.execStashStoreComplete h seq s
  | .stashPutRetry h seq => Sys2Proof.Machine.execStashPutRetry h seq s
  | .stashGet h seq => Sys2Proof.Machine.execStashGet h seq s
  | .reduce h seq => Sys2Proof.Machine.execReduce h seq s
  | .update h seq => Sys2Proof.Machine.execUpdate h seq s
  | .updateResume h seq => Sys2Proof.Machine.execUpdateResume h seq s
  | .gather h seq => Sys2Proof.Machine.execGather h seq s
  | .decode h seq => Sys2Proof.Machine.execDecode h seq s
  | .codecLaneStart h seq => Sys2Proof.Machine.execCodecLaneStart h seq s
  | .ingestGroup h seq => Sys2Proof.Machine.execIngestGroup h seq s
  | .ingest h seq => Sys2Proof.Machine.execIngest h seq s
  | .encode h seq => Sys2Proof.Machine.execEncode h seq s
  | .ckpt h seq => Sys2Proof.Machine.execCkpt h seq s
  | .flashDrain retired => Sys2Proof.Machine.execFlashDrain retired s
  | .hostStoreDrain => Sys2Proof.Machine.execHostStoreDrain s
  | .add core rd ra rb => Sys2Proof.Machine.execAdd core rd ra rb s
  | .sub core rd ra rb => Sys2Proof.Machine.execSub core rd ra rb s
  | .and core rd ra rb => Sys2Proof.Machine.execAnd core rd ra rb s
  | .or core rd ra rb => Sys2Proof.Machine.execOr core rd ra rb s
  | .xor core rd ra rb => Sys2Proof.Machine.execXor core rd ra rb s
  | .sll core rd ra rb => Sys2Proof.Machine.execSll core rd ra rb s
  | .srl core rd ra rb => Sys2Proof.Machine.execSrl core rd ra rb s
  | .sra core rd ra rb => Sys2Proof.Machine.execSra core rd ra rb s
  | .slt core rd ra rb => Sys2Proof.Machine.execSlt core rd ra rb s
  | .sltu core rd ra rb => Sys2Proof.Machine.execSltu core rd ra rb s
  | .mul core rd ra rb => Sys2Proof.Machine.execMul core rd ra rb s
  | .mulh core rd ra rb => Sys2Proof.Machine.execMulh core rd ra rb s
  | .mulhu core rd ra rb => Sys2Proof.Machine.execMulhu core rd ra rb s
  | .div core rd ra rb => Sys2Proof.Machine.execDiv core rd ra rb s
  | .divu core rd ra rb => Sys2Proof.Machine.execDivu core rd ra rb s
  | .rem core rd ra rb => Sys2Proof.Machine.execRem core rd ra rb s
  | .remu core rd ra rb => Sys2Proof.Machine.execRemu core rd ra rb s
  | .min core rd ra rb => Sys2Proof.Machine.execMin core rd ra rb s
  | .max core rd ra rb => Sys2Proof.Machine.execMax core rd ra rb s
  | .minu core rd ra rb => Sys2Proof.Machine.execMinu core rd ra rb s
  | .maxu core rd ra rb => Sys2Proof.Machine.execMaxu core rd ra rb s
  | .clz core rd ra => Sys2Proof.Machine.execClz core rd ra s
  | .popc core rd ra => Sys2Proof.Machine.execPopc core rd ra s
  | .addi core rd ra imm => Sys2Proof.Machine.execAddi core rd ra imm s
  | .andi core rd ra imm => Sys2Proof.Machine.execAndi core rd ra imm s
  | .ori core rd ra imm => Sys2Proof.Machine.execOri core rd ra imm s
  | .xori core rd ra imm => Sys2Proof.Machine.execXori core rd ra imm s
  | .slti core rd ra imm => Sys2Proof.Machine.execSlti core rd ra imm s
  | .sltiu core rd ra imm => Sys2Proof.Machine.execSltiu core rd ra imm s
  | .shi core rd ra kind amt => Sys2Proof.Machine.execShi core rd ra kind amt s
  | .shlo core rd ra imm => Sys2Proof.Machine.execShlo core rd ra imm s
  | .beq core ra rb off => Sys2Proof.Machine.execBeq core ra rb off s
  | .bne core ra rb off => Sys2Proof.Machine.execBne core ra rb off s
  | .blt core ra rb off => Sys2Proof.Machine.execBlt core ra rb off s
  | .bge core ra rb off => Sys2Proof.Machine.execBge core ra rb off s
  | .bltu core ra rb off => Sys2Proof.Machine.execBltu core ra rb off s
  | .bgeu core ra rb off => Sys2Proof.Machine.execBgeu core ra rb off s
  | .j core off => Sys2Proof.Machine.execJ core off s
  | .jal core off => Sys2Proof.Machine.execJal core off s
  | .jalr core rd ra imm => Sys2Proof.Machine.execJalr core rd ra imm s
  | .lb core rd ra imm => Sys2Proof.Machine.execLb core rd ra imm s
  | .lbu core rd ra imm => Sys2Proof.Machine.execLbu core rd ra imm s
  | .lh core rd ra imm => Sys2Proof.Machine.execLh core rd ra imm s
  | .lhu core rd ra imm => Sys2Proof.Machine.execLhu core rd ra imm s
  | .lw core rd ra imm => Sys2Proof.Machine.execLw core rd ra imm s
  | .lwu core rd ra imm => Sys2Proof.Machine.execLwu core rd ra imm s
  | .ld core rd ra imm => Sys2Proof.Machine.execLd core rd ra imm s
  | .sb core rd ra imm => Sys2Proof.Machine.execSb core rd ra imm s
  | .sh core rd ra imm => Sys2Proof.Machine.execSh core rd ra imm s
  | .sw core rd ra imm => Sys2Proof.Machine.execSw core rd ra imm s
  | .sd core rd ra imm => Sys2Proof.Machine.execSd core rd ra imm s
  | .vld core vd ra imm => Sys2Proof.Machine.execVld core vd ra imm s
  | .vst core vd ra imm => Sys2Proof.Machine.execVst core vd ra imm s
  | .vadd core et vd va vb => Sys2Proof.Machine.execVadd core et vd va vb s
  | .vsub core et vd va vb => Sys2Proof.Machine.execVsub core et vd va vb s
  | .vmul core et vd va vb => Sys2Proof.Machine.execVmul core et vd va vb s
  | .vfma core et vd va vb => Sys2Proof.Machine.execVfma core et vd va vb s
  | .vfmaw core et vd va x => Sys2Proof.Machine.execVfmaw core et vd va x s
  | .vmin core et vd va vb => Sys2Proof.Machine.execVmin core et vd va vb s
  | .vmax core et vd va vb => Sys2Proof.Machine.execVmax core et vd va vb s
  | .vabs core et vd va => Sys2Proof.Machine.execVabs core et vd va s
  | .vneg core et vd va => Sys2Proof.Machine.execVneg core et vd va s
  | .vand core et vd va vb => Sys2Proof.Machine.execVand core et vd va vb s
  | .vor core et vd va vb => Sys2Proof.Machine.execVor core et vd va vb s
  | .vxor core et vd va vb => Sys2Proof.Machine.execVxor core et vd va vb s
  | .vshl core et vd va x => Sys2Proof.Machine.execVshl core et vd va x s
  | .vshrl core et vd va x => Sys2Proof.Machine.execVshrl core et vd va x s
  | .vshra core et vd va x => Sys2Proof.Machine.execVshra core et vd va x s
  | .vadds core et vd va vb => Sys2Proof.Machine.execVadds core et vd va vb s
  | .vsubs core et vd va vb => Sys2Proof.Machine.execVsubs core et vd va vb s
  | .vceq core et vd va vb => Sys2Proof.Machine.execVceq core et vd va vb s
  | .vclt core et vd va vb => Sys2Proof.Machine.execVclt core et vd va vb s
  | .vcle core et vd va vb => Sys2Proof.Machine.execVcle core et vd va vb s
  | .vsel core et vd va vb => Sys2Proof.Machine.execVsel core et vd va vb s
  | .vdiv core et vd va vb => Sys2Proof.Machine.execVdiv core et vd va vb s
  | .vsqrt core et vd va => Sys2Proof.Machine.execVsqrt core et vd va s
  | .vexp core et vd va => Sys2Proof.Machine.execVexp core et vd va s
  | .vlog core et vd va => Sys2Proof.Machine.execVlog core et vd va s
  | .vtanh core et vd va => Sys2Proof.Machine.execVtanh core et vd va s
  | .verf core et vd va => Sys2Proof.Machine.execVerf core et vd va s
  | .vbcast core et vd x => Sys2Proof.Machine.execVbcast core et vd x s
  | .vext core et va lane x => Sys2Proof.Machine.execVext core et va lane x s
  | .vins core et vd lane x => Sys2Proof.Machine.execVins core et vd lane x s
  | .vmov core et vd va => Sys2Proof.Machine.execVmov core et vd va s
  | .vperm core et vd va vb => Sys2Proof.Machine.execVperm core et vd va vb s
  | .vrsum core et va x => Sys2Proof.Machine.execVrsum core et va x s
  | .vrmax core et va x => Sys2Proof.Machine.execVrmax core et va x s
  | .vrmin core et va x => Sys2Proof.Machine.execVrmin core et va x s
  | .vamax core et va => Sys2Proof.Machine.execVamax core et va s
  | .crRead core rd n => Sys2Proof.Machine.execCrRead core rd n s
  | .crWrite core ra n => Sys2Proof.Machine.execCrWrite core ra n s
  | .vcvt core vd va rm dfmt sfmt => Sys2Proof.Machine.execVcvt core vd va rm dfmt sfmt s
  | .tackRead core rd ra rb => Sys2Proof.Machine.execTackRead core rd ra rb s
  | .tackWrite core rd ra rb => Sys2Proof.Machine.execTackWrite core rd ra rb s
  | .tackReadFill core n => Sys2Proof.Machine.execTackReadFill core n s
  | .awlQput core ra rb => Sys2Proof.Machine.execAwlQput core ra rb s
  | .qget core rd rb => Sys2Proof.Machine.execQget core rd rb s
  | .qtry core rd rb => Sys2Proof.Machine.execQtry core rd rb s
  | .waitOwn core => Sys2Proof.Machine.execWaitOwn core s
  | .waitSeq core ra => Sys2Proof.Machine.execWaitSeq core ra s
  | .awlWaitEnd core => Sys2Proof.Machine.execAwlWaitEnd core s
  | .tokRequest core n => Sys2Proof.Machine.execTokRequest core n s
  | .tokRelease core => Sys2Proof.Machine.execTokRelease core s
  | .halt core => Sys2Proof.Machine.execHalt core s
  | .trap core ra => Sys2Proof.Machine.execTrap core ra s
  | .fence core => Sys2Proof.Machine.execFence core s
  | .emit core ra => Sys2Proof.Machine.execEmit core ra s
  | .sregr core rd ra => Sys2Proof.Machine.execSregr core rd ra s
  | .sregw core ra rb => Sys2Proof.Machine.execSregw core ra rb s
  | .awlBudget core => Sys2Proof.Machine.execAwlBudget core s
  | .bar4Access p acc => Sys2Proof.Machine.execBar4Access p acc s
  | .bnkHandoverWrite src v => Sys2Proof.Machine.execBnkHandoverWrite src v s
  | .bankClearComplete n => Sys2Proof.Machine.execBankClearComplete n s
  | .memScrubGroup c arisen => Sys2Proof.Machine.execMemScrubGroup c arisen s
  | .gddr7Retrain c => Sys2Proof.Machine.execGddr7Retrain c s
  | .gddr7RetrainComplete c ok => Sys2Proof.Machine.execGddr7RetrainComplete c ok s
  | .edgeDomainLoss d => Sys2Proof.Machine.execEdgeDomainLoss d s
  | .portLinkUp p t => Sys2Proof.Machine.execPortLinkUp p t s
  | .portLinkDown p => Sys2Proof.Machine.execPortLinkDown p s
  | .portReset p => Sys2Proof.Machine.execPortReset p s
  | .pcieConfigWrite p w => Sys2Proof.Machine.execPcieConfigWrite p w s
  | .leadGive src => Sys2Proof.Machine.execLeadGive src s
  | .irqClear src p v => Sys2Proof.Machine.execIrqClear src p v s
  | .ack l f => Sys2Proof.Machine.execAck l f s
  | .nak l f => Sys2Proof.Machine.execNak l f s
  | .linkRetrain l => Sys2Proof.Machine.execLinkRetrain l s
  | .linkRetrainComplete l t => Sys2Proof.Machine.execLinkRetrainComplete l t s
  | .lcredit l f => Sys2Proof.Machine.execLcredit l f s
  | .hello l f => Sys2Proof.Machine.execHello l f s
  | .reject l f => Sys2Proof.Machine.execReject l f s
  | .ecredit l f => Sys2Proof.Machine.execEcredit l f s
  | .stopMark l f => Sys2Proof.Machine.execStopMark l f s
  | .openFrame l f => Sys2Proof.Machine.execOpenFrame l f s
  | .dataFrame l f => Sys2Proof.Machine.execDataFrame l f s
  | .mirrorSend => Sys2Proof.Machine.execMirrorSend s
  | .mirrorAck l f => Sys2Proof.Machine.execMirrorAck l f s
  | .mirrorNak l f => Sys2Proof.Machine.execMirrorNak l f s
  | .twinReturn src => Sys2Proof.Machine.execTwinReturn src s
  | .laneTestClear src n => Sys2Proof.Machine.execLaneTestClear src n s
  | .restore src v corrected uncorrectable => Sys2Proof.Machine.execRestore src v corrected uncorrectable s
  | .rollback src v => Sys2Proof.Machine.execRollback src v s
  | .fill src v => Sys2Proof.Machine.execFill src v s
  | .serve src v corrected uncorrectable => Sys2Proof.Machine.execServe src v corrected uncorrectable s
  | .emberFreeze src => Sys2Proof.Machine.execEmberFreeze src s
  | .emberUnfreeze src => Sys2Proof.Machine.execEmberUnfreeze src s
  | .globalStop src => Sys2Proof.Machine.execGlobalStop src s
  | .stopMarker u chan items last => Sys2Proof.Machine.execStopMarker u chan items last s
  | .resume src => Sys2Proof.Machine.execResume src s
  | .debugRead src => Sys2Proof.Machine.execDebugRead src s
  | .entdaa addr => Sys2Proof.Machine.execEntdaa addr s
  | .setEndpointId eid => Sys2Proof.Machine.execSetEndpointId eid s
  | .pldmMonitorRequest m => Sys2Proof.Machine.execPldmMonitorRequest m s
  | .requestUpdate => Sys2Proof.Machine.execRequestUpdate s
  | .pldmImageData off d => Sys2Proof.Machine.execPldmImageData off d s
  | .verifyComplete => Sys2Proof.Machine.execVerifyComplete s
  | .activateFirmware => Sys2Proof.Machine.execActivateFirmware s
  | .getVersion m => Sys2Proof.Machine.execGetVersion m s
  | .getCapabilities m => Sys2Proof.Machine.execGetCapabilities m s
  | .negotiateAlgorithms m => Sys2Proof.Machine.execNegotiateAlgorithms m s
  | .getDigests m => Sys2Proof.Machine.execGetDigests m s
  | .getCertificate m => Sys2Proof.Machine.execGetCertificate m s
  | .challenge m => Sys2Proof.Machine.execChallenge m s
  | .getMeasurements m => Sys2Proof.Machine.execGetMeasurements m s
  | .unitReport f => Sys2Proof.Machine.execUnitReport f s
  | .tapReset => Sys2Proof.Machine.execTapReset s
  | .idcode => Sys2Proof.Machine.execIdcode s
  | .bypass => Sys2Proof.Machine.execBypass s
  | .sample pins => Sys2Proof.Machine.execSample pins s
  | .preload v => Sys2Proof.Machine.execPreload v s
  | .extest pins => Sys2Proof.Machine.execExtest pins s
  | .clamp => Sys2Proof.Machine.execClamp s
  | .highz => Sys2Proof.Machine.execHighz s
  | .completionTimeout p h seq => Sys2Proof.Machine.execCompletionTimeout p h seq s
  | .frameDiscard l f => Sys2Proof.Machine.execFrameDiscard l f s
  | .paceRingStep h => Sys2Proof.Machine.execPaceRingStep h s
  | .laneCheckerBits n bs => Sys2Proof.Machine.execLaneCheckerBits n bs s
  | .msixTableWrite p off len v => Sys2Proof.Machine.execMsixTableWrite p off len v s
  | .twinPresentRise => Sys2Proof.Machine.execTwinPresentRise s
  | .mctpControlMessage m => Sys2Proof.Machine.execMctpControlMessage m s

end Sys2Proof.Machine
end

