-- ==== Sys2Proof/WellFormed.lean ====
section
/-! DEFINITION. Which commands can reach the block at all: the limits that the spec sets on what an interface carries. The
machine does not consult it: a command outside these limits still has a next state. -/

namespace Sys2Proof

/-- A frame carries a 12-byte header and a payload of 0 to 16 times 64 bytes (R385). -/
def Frame.wf (f : Frame) : Bool := f.hdr.length == 12 && f.payload.length % 64 == 0 && decide (f.payload.length ≤ 1024)

/-- A PCIe port has 8 lanes (R369); a port that did not train reports none. -/
def PcieTrain.wf (t : PcieTrain) : Bool := if t.trained then decide (1 ≤ t.lanes) && decide (t.lanes ≤ 8) else t.lanes == 0

/-- A CXL port has 8 lanes (R321); a port that did not train reports no lanes and no capacity. -/
def CxlTrain.wf (t : CxlTrain) : Bool := if t.trained then decide (1 ≤ t.lanes) && decide (t.lanes ≤ 8) else t.lanes == 0 && t.capacity == 0

/-- A link that trained has a working lane, and a HELLO payload that arrived is that of R393. -/
def LinkTrain.wf (t : LinkTrain) : Bool :=
  (!t.trained || t.lanes != 0) && match t.hello with
    | none => true
    | some p => decide (p.length ≤ 1024)

/-- A stage that trains links reports all 13 (R37). -/
def StageResult.wf : StageResult → Bool
  | .gddr _ _ => true
  | .pcie a b => a.wf && b.wf
  | .cxl a b c d => a.wf && b.wf && c.wf && d.wf
  | .links ts => ts.length == 13 && ts.all (·.wf)
  | .banks _ _ => true
  | .fuses => true

def Training.wf : Training → Bool
  | .none => true
  | .pcie t => t.wf
  | .cxl t => t.wf
  | .link t => t.wf

/-- A round of readings names every sensor: 16 hearths, two memory dies, 24 GDDR7 devices (R62 to R68). -/
def Sensors.wf (r : Sensors) : Bool :=
  r.hearthT.length == 16 && r.memT.length == 2 && r.hearthI.length == 16 && r.memW.length == 2 && r.gddr.length == 24

/-- A ticket entry that was read has 64 bytes (R47). -/
def HostRead.wf : HostRead → Bool
  | .data e => e.length == 64
  | .failed _ => true

/-- A BAR4 access moves at least one byte and stays within 128 MiB (Table 14-2). -/
def BarAccess.wf : BarAccess → Bool
  | .read x n => decide (1 ≤ n) && decide (x + n ≤ 0x08000000)
  | .write x d => decide (1 ≤ d.length) && decide (x + d.length ≤ 0x08000000)

/-- The command is one that its interface can carry: registers lie within BAR0's 64 MiB (Table 14-2), an access has 1 to 8 bytes, a
management message is not empty, and every composite operand has its form. -/
def Instr.wf : Instr → Bool
  | .kindleStageDone r => r.wf
  | .funcRestart _ _ t => t.wf
  | .configWrite _ off _ => decide (off + 8 ≤ 0x04000000)
  | .registerWrite _ off len _ => decide (1 ≤ len) && decide (len ≤ 8) && decide (off + len ≤ 0x04000000)
  | .readClear _ off => decide (off + 8 ≤ 0x04000000)
  | .doorbellWrite _ _ len _ => decide (1 ≤ len) && decide (len ≤ 8)
  | .ticketIntake rd => rd.wf
  | .sensorReading r => r.wf
  | .bar4Access _ acc => acc.wf
  | .portLinkUp _ t => t.wf && t.trained
  | .linkRetrainComplete _ t => t.wf
  | .ack _ f => f.wf
  | .nak _ f => f.wf
  | .lcredit _ f => f.wf
  | .hello _ f => f.wf
  | .reject _ f => f.wf
  | .ecredit _ f => f.wf
  | .stopMark _ f => f.wf
  | .openFrame _ f => f.wf
  | .dataFrame _ f => f.wf
  | .mirrorAck _ f => f.wf
  | .mirrorNak _ f => f.wf
  | .frameDiscard _ f => f.wf
  | .msixTableWrite _ off len _ => decide (1 ≤ len) && decide (len ≤ 8) && decide (off + len ≤ 0x1000)
  | .idleScrub u => u.arisen.all fun a => decide (1 ≤ a.2)
  | .memScrubGroup _ arisen => arisen.all fun a => decide (a.1 < 1020) && decide (1 ≤ a.2) && decide (a.2 < 256)
  | .stopMarker u _ _ _ => decide (u < 0x400)
  | .pldmMonitorRequest m => m != []
  | .pldmImageData _ d => d != []
  | .getVersion m => m != []
  | .getCapabilities m => m != []
  | .negotiateAlgorithms m => m != []
  | .getDigests m => m != []
  | .getCertificate m => m != []
  | .challenge m => m != []
  | .getMeasurements m => m != []
  | .mctpControlMessage m => m != []
  | .auxTurnOn => true
  | .auxTurnOff => true
  | .mainInputValid _ _ => true
  | .mainInputInvalid => true
  | .thermalTrip => true
  | .regulatorTrip => true
  | .tripRelease => true
  | .stopReqEdge => true
  | .twinPresentFall => true
  | .rekindle _ _ => true
  | .rekindleEnter _ => true
  | .funcStop _ _ => true
  | .funcStopComplete _ => true
  | .cancelTicket _ _ => true
  | .ringEnable _ _ _ _ => true
  | .ringDisable _ _ _ => true
  | .ticketStart => true
  | .kind2Start => true
  | .commandFetch _ => true
  | .commandReady _ _ => true
  | .tileFetchComplete _ _ _ _ => true
  | .commandComplete _ _ => true
  | .handlePut _ => true
  | .commit _ => true
  | .grantRequest => true
  | .reservation _ => true
  | .shedStep => true
  | .tokenRelease _ => true
  | .regulatorInWindow _ => true
  | .overdrawRecoverStep _ => true
  | .bellowsStep _ _ => true
  | .meWakeComplete _ _ => true
  | .slotReadout _ _ => true
  | .meTest _ _ _ => true
  | .meTestComplete _ _ _ => true
  | .nop _ _ => true
  | .stepEnd _ _ => true
  | .qput _ _ => true
  | .xfer _ _ => true
  | .tack _ _ => true
  | .handoverWord _ _ => true
  | .mm _ _ => true
  | .conv _ _ => true
  | .pool _ _ => true
  | .attn _ _ => true
  | .kvHomeRequest _ _ => true
  | .swapOutComplete _ _ => true
  | .swapInComplete _ _ => true
  | .kvRetry _ _ => true
  | .ptCommit _ _ => true
  | .ptCommitRelease _ _ => true
  | .rowFwd _ _ => true
  | .rowBwd _ _ => true
  | .awl _ _ => true
  | .stashPut _ _ => true
  | .stashStoreComplete _ _ => true
  | .stashPutRetry _ _ => true
  | .stashGet _ _ => true
  | .reduce _ _ => true
  | .update _ _ => true
  | .updateResume _ _ => true
  | .gather _ _ => true
  | .decode _ _ => true
  | .codecLaneStart _ _ => true
  | .ingestGroup _ _ => true
  | .ingest _ _ => true
  | .encode _ _ => true
  | .ckpt _ _ => true
  | .flashDrain _ => true
  | .hostStoreDrain => true
  | .add _ _ _ _ => true
  | .sub _ _ _ _ => true
  | .and _ _ _ _ => true
  | .or _ _ _ _ => true
  | .xor _ _ _ _ => true
  | .sll _ _ _ _ => true
  | .srl _ _ _ _ => true
  | .sra _ _ _ _ => true
  | .slt _ _ _ _ => true
  | .sltu _ _ _ _ => true
  | .mul _ _ _ _ => true
  | .mulh _ _ _ _ => true
  | .mulhu _ _ _ _ => true
  | .div _ _ _ _ => true
  | .divu _ _ _ _ => true
  | .rem _ _ _ _ => true
  | .remu _ _ _ _ => true
  | .min _ _ _ _ => true
  | .max _ _ _ _ => true
  | .minu _ _ _ _ => true
  | .maxu _ _ _ _ => true
  | .clz _ _ _ => true
  | .popc _ _ _ => true
  | .addi _ _ _ _ => true
  | .andi _ _ _ _ => true
  | .ori _ _ _ _ => true
  | .xori _ _ _ _ => true
  | .slti _ _ _ _ => true
  | .sltiu _ _ _ _ => true
  | .shi _ _ _ _ _ => true
  | .shlo _ _ _ _ => true
  | .beq _ _ _ _ => true
  | .bne _ _ _ _ => true
  | .blt _ _ _ _ => true
  | .bge _ _ _ _ => true
  | .bltu _ _ _ _ => true
  | .bgeu _ _ _ _ => true
  | .j _ _ => true
  | .jal _ _ => true
  | .jalr _ _ _ _ => true
  | .lb _ _ _ _ => true
  | .lbu _ _ _ _ => true
  | .lh _ _ _ _ => true
  | .lhu _ _ _ _ => true
  | .lw _ _ _ _ => true
  | .lwu _ _ _ _ => true
  | .ld _ _ _ _ => true
  | .sb _ _ _ _ => true
  | .sh _ _ _ _ => true
  | .sw _ _ _ _ => true
  | .sd _ _ _ _ => true
  | .vld _ _ _ _ => true
  | .vst _ _ _ _ => true
  | .vadd _ _ _ _ _ => true
  | .vsub _ _ _ _ _ => true
  | .vmul _ _ _ _ _ => true
  | .vfma _ _ _ _ _ => true
  | .vfmaw _ _ _ _ _ => true
  | .vmin _ _ _ _ _ => true
  | .vmax _ _ _ _ _ => true
  | .vabs _ _ _ _ => true
  | .vneg _ _ _ _ => true
  | .vand _ _ _ _ _ => true
  | .vor _ _ _ _ _ => true
  | .vxor _ _ _ _ _ => true
  | .vshl _ _ _ _ _ => true
  | .vshrl _ _ _ _ _ => true
  | .vshra _ _ _ _ _ => true
  | .vadds _ _ _ _ _ => true
  | .vsubs _ _ _ _ _ => true
  | .vceq _ _ _ _ _ => true
  | .vclt _ _ _ _ _ => true
  | .vcle _ _ _ _ _ => true
  | .vsel _ _ _ _ _ => true
  | .vdiv _ _ _ _ _ => true
  | .vsqrt _ _ _ _ => true
  | .vexp _ _ _ _ => true
  | .vlog _ _ _ _ => true
  | .vtanh _ _ _ _ => true
  | .verf _ _ _ _ => true
  | .vbcast _ _ _ _ => true
  | .vext _ _ _ _ _ => true
  | .vins _ _ _ _ _ => true
  | .vmov _ _ _ _ => true
  | .vperm _ _ _ _ _ => true
  | .vrsum _ _ _ _ => true
  | .vrmax _ _ _ _ => true
  | .vrmin _ _ _ _ => true
  | .vamax _ _ _ => true
  | .crRead _ _ _ => true
  | .crWrite _ _ _ => true
  | .vcvt _ _ _ _ _ _ => true
  | .tackRead _ _ _ _ => true
  | .tackWrite _ _ _ _ => true
  | .tackReadFill _ _ => true
  | .awlQput _ _ _ => true
  | .qget _ _ _ => true
  | .qtry _ _ _ => true
  | .waitOwn _ => true
  | .waitSeq _ _ => true
  | .awlWaitEnd _ => true
  | .tokRequest _ _ => true
  | .tokRelease _ => true
  | .halt _ => true
  | .trap _ _ => true
  | .fence _ => true
  | .emit _ _ => true
  | .sregr _ _ _ => true
  | .sregw _ _ _ => true
  | .awlBudget _ => true
  | .bnkHandoverWrite _ _ => true
  | .bankClearComplete _ => true
  | .gddr7Retrain _ => true
  | .gddr7RetrainComplete _ _ => true
  | .edgeDomainLoss _ => true
  | .portLinkDown _ => true
  | .portReset _ => true
  | .pcieConfigWrite _ _ => true
  | .leadGive _ => true
  | .irqClear _ _ _ => true
  | .linkRetrain _ => true
  | .mirrorSend => true
  | .twinReturn _ => true
  | .laneTestClear _ _ => true
  | .restore _ _ _ _ => true
  | .rollback _ _ => true
  | .fill _ _ => true
  | .serve _ _ _ _ => true
  | .emberFreeze _ => true
  | .emberUnfreeze _ => true
  | .globalStop _ => true
  | .resume _ => true
  | .debugRead _ => true
  | .entdaa _ => true
  | .setEndpointId _ => true
  | .requestUpdate => true
  | .verifyComplete => true
  | .activateFirmware => true
  | .unitReport _ => true
  | .tapReset => true
  | .idcode => true
  | .bypass => true
  | .sample _ => true
  | .preload _ => true
  | .extest _ => true
  | .clamp => true
  | .highz => true
  | .completionTimeout _ _ _ => true
  | .paceRingStep _ => true
  | .laneCheckerBits _ _ => true
  | .twinPresentRise => true

end Sys2Proof
end

