-- ==== Sys2Proof/Safety.lean ====
section
/-! DEFINITION. The terms in which the statements speak: what a state leaves as it was, when an Awl core is about to run an
instruction and what its retiring leaves, and when a command of a hearth's window runs. -/

namespace Sys2Proof.Machine

/-! ### Frames -/

/-- Every register but the named ones holds what it held. -/
def RegsKept (s t : State) (offs : List Nat) : Prop := ∀ o, o ∉ offs → regVal t o = regVal s o

/-- A byte range, first address and length, holds an address. -/
def inRange (a : Nat) (r : Nat × Nat) : Prop := r.1 ≤ a ∧ a < r.1 + r.2

/-- Every byte of the device's memory outside the named ranges reads as before. -/
def BytesKept (s t : State) (rs : List (Nat × Nat)) : Prop := ∀ a, (∀ r ∈ rs, ¬ inRange a r) → peek t a = peek s a

/-- The invariant that every step keeps: the memory stands in its one canonical form. -/
def Inv (s : State) : Prop := s.mem.wf = true

/-! ### Awl cores -/

/-- The state after the fetch of the word at a core's pc: single flipped bits of the local-store word are corrected and counted (R167). -/
def fetched (core : Core) (s : State) : State := (lsCheck s (coreKey core) (getCore s (coreKey core)).pc 4).1

/-- The core whose pc stands at the next instruction, as an instruction finds it. -/
def nextCore (core : Core) (s : State) : AwlCore :=
  { getCore (fetched core s) (coreKey core) with pc := (getCore s (coreKey core)).pc + 4 }

/-- Core `core` runs instruction i next: its function lets it execute, it is RUNNING and within its budget, its pc lies in the code
region, and the word there is i's and can be read (R167, R171, R175, R177). -/
structure AwlAt (core : Core) (i : Instr) (s : State) : Prop where
  live : coreLive s (coreKey core) = true
  budget : budgetSpent (coreKey core) (getCore s (coreKey core)) = false
  inCode : (getCore s (coreKey core)).pc < (getCore s (coreKey core)).codeLen
  readable : (lsCheck s (coreKey core) (getCore s (coreKey core)).pc 4).2 = false
  word : awlDecode core (getCore s (coreKey core)).word = some i

/-- The registers that show a core's pc, its state and its instruction count, and the hearth's count of Awl instructions. -/
def retireRegs (k : Nat) : List Nat :=
  [(corePcF k).off, (coreIcountF k).off] ++ if k < 128 then [(F.CNT_HEARTH_VALUE (k / 8) 9).off] else []

/-- State t is state u but for core `core`, which is c with one more instruction retired (R175), and the registers that show it. -/
structure AwlRetired (core : Core) (u : State) (c : AwlCore) (t : State) : Prop where
  itself : getCore t (coreKey core) = { c with icount := c.icount + 1 }
  others : ∀ j, j ≠ coreKey core → getCore t j = getCore u j
  pc : rd t (corePcF (coreKey core)) = c.pc % 2 ^ 18
  count : rd t (coreIcountF (coreKey core)) = (c.icount + 1) % 2 ^ 48
  running : rd t (coreStateF (coreKey core)) = rd u (coreStateF (coreKey core))
  counted : coreKey core < 128 →
    rd t (F.CNT_HEARTH_VALUE (coreKey core / 8) 9) = (rd u (F.CNT_HEARTH_VALUE (coreKey core / 8) 9) + 1) % 2 ^ 48
  regs : RegsKept u t (retireRegs (coreKey core))
  rest : t = { u with regs := t.regs, cores := t.cores }

/-- Instruction i retires and makes the core f of what it found; nothing else of the block changes. -/
def AwlEffect (core : Core) (i : Instr) (s : State) (f : AwlCore → AwlCore) : Prop :=
  AwlAt core i s → ∃ t, exec i s = .next t ∧ AwlRetired core (fetched core s) (f (nextCore core s)) t

/-- A core that may run vector arithmetic: it is no lean core without an increment (R174). -/
def vectorReady (c : AwlCore) : Prop := (c.lean && c.held == 0) = false

/-- A vector instruction retires with its result in vd; `ok` says of each lane what it holds, `st` the bits that it sets in CSTAT. -/
def VecEffect (core : Core) (i : Instr) (s : State) (vd : Fin 16) (st : Nat) (ok : BitVec 512 → Prop) : Prop :=
  AwlAt core i s → vectorReady (getCore s (coreKey core)) →
    ∃ t v, exec i s = .next t ∧ ok v ∧
      AwlRetired core (fetched core s) { (nextCore core s).setV vd.val v with cstat := (nextCore core s).cstat ||| st } t

/-- Lane j of v is g j, for every lane of an element type. -/
def lanesAre (et : Fin 8) (v : BitVec 512) (g : Nat → Nat) : Prop := ∀ j, j < etLanes et.val → vLane et.val v j = g j

/-- The OR over the lanes of an element type. -/
def orLanes (et : Fin 8) (g : Nat → Nat) : Nat := (List.range (etLanes et.val)).foldl (fun a j => a ||| g j) 0

/-- The core waits: WAITING, with what it waits for; its instruction has taken no effect and its pc stands still. -/
structure AwlWaits (core : Core) (u : State) (w : Wait) (t : State) : Prop where
  itself : getCore t (coreKey core) = { getCore u (coreKey core) with wait := some w }
  others : ∀ j, j ≠ coreKey core → getCore t j = getCore u j
  state : rd t (coreStateF (coreKey core)) = awlWAITING
  regs : RegsKept u t [(coreStateF (coreKey core)).off]
  rest : t = { u with regs := t.regs, cores := t.cores }

/-! ### Commands of a window -/

/-- Command c of hearth h's window has its increment, comes after the members of its chain before it, has its MEs awake, and carries an
opcode: the opcode's row runs (R59, R158, R159). -/
structure Runs (h : Fin 16) (seq : BitVec 32) (opcode : Nat) (c : Cmd) (s : State) : Prop where
  live : unitLive s (U.disp h) = true
  found : findCmd s h seq.toNat = some c
  number : c.seq = seq.toNat
  granted : c.st = .granted
  code : c.opcode = opcode
  chain : chainReady s h c = true
  awake : mesAwake s h c = true

/-- State t is u but for one command of hearth h's window, which is now c. -/
structure CommandIs (h : Nat) (c : Cmd) (u t : State) : Prop where
  itself : findCmd t h c.seq = some c
  others : ∀ q, q ≠ c.seq → findCmd t h q = findCmd u h q
  window : getDisp t h = { getDisp u h with cmds := (getDisp t h).cmds }
  hearths : ∀ g, g ≠ h → getDisp t g = getDisp u g
  rest : t = { u with disps := t.disps }

/-- A command stands as `c` does, but for the notices that it has recorded on the way (R105, R107). -/
def StandsAs (t : State) (h : Nat) (c : Cmd) : Prop := ∃ n, findCmd t h c.seq = some { c with noted := n }

/-- The command is done, and memory holds what the store of the values v through descriptor d leaves of state w (R99, R100). -/
def StoresAndDone (h : Fin 16) (c : Cmd) (i : Instr) (s w : State) (d : Desc) (m : StoreMode) (v : List Nat → FVal) : Prop :=
  ∃ t, exec i s = .next t ∧ StandsAs t h { c with st := .done } ∧ t.mem = (storeTensor w d m v).1.mem

/-- The command is done at once, and nothing else changes. -/
def DoneAtOnce (h : Fin 16) (c : Cmd) (i : Instr) (s : State) : Prop := ∃ t, exec i s = .next t ∧ CommandIs h { c with st := .done } s t

end Sys2Proof.Machine
end

