-- ==== Sys2Proof/Certificates/Slice0/Obligations.lean ====
section
/-! DEFINITION. The statements about the block, one def per statement, from the numbered rules of the spec. -/

open Sys2Proof Sys2Proof.Machine

/-- A step runs the command at the front of the queue on the state with the queue's rest; with none waiting the block idles (log entry 1). -/
def Obligations.StepRunsFrontCommand : Prop :=

  (∀ (c : Instr) (rest : List Instr) (s : State), step { s with pending := c :: rest } = exec c { s with pending := rest }) ∧
  ∀ s : State, s.pending = [] → step s = .next s

/-- No command stops the block: every one of them, in every state, answers a next state; it leaves the queue of waiting commands and every earlier
output alone. The model's choices in it: log entries 1, 7. -/
def Obligations.EveryCommandAnswers : Prop :=

  ∀ (i : Instr) (s : State), ∃ t, exec i s = .next t ∧ t.pending = s.pending ∧ ∃ more, t.out = s.out ++ more

/-- The memory's canonical form is an invariant of every step, from every state. -/
def Obligations.StepKeepsMemoryForm : Prop :=
 ∀ s t : State, Inv s → step s = .next t → Inv t

/-- The memory right after reset has the canonical form, and nothing is listed. The model's choices in it: log entry 9. -/
def Obligations.ResetMemoryForm : Prop :=
 Inv State.reset ∧ ∀ a, peek State.reset a = 0

/-- Of the fuses only the rollback counter can change in operation, and it never falls (R39). -/
def Obligations.RollbackCounterOnlyRises : Prop :=

  ∀ s t : State, step s = .next t → t.fuses = { s.fuses with counter := t.fuses.counter } ∧ s.fuses.counter ≤ t.fuses.counter

/-- Every instruction of a core, with every operand that its row allows, is what its word decodes to (R176, R177). -/
def Obligations.AwlDecodeEncode : Prop :=

  ∀ (core : Core) (i : Instr), awlCoreOf i = some core → awlForm i = true → awlEncode i < 2 ^ 32 ∧ awlDecode core (awlEncode i) = some i

/-- Words of the spec's examples and words written out from Tables 7-5 to 7-12 mean what they stand for, on any hearth core. -/
def Obligations.AwlWordsMean : Prop :=

  ∀ (h : Fin 16) (c : Fin 8), let k : Core := .hearth h c
    awlDecode k 0x00000000 = some (.add k 0 0 0) ∧
    awlDecode k 0x8A8C0000 = some (.lh k 20 12 0) ∧
    awlDecode k 0xB10D0000 = some (.vld k 8 13 0) ∧
    awlDecode k 0xC04080B4 = some (.vfmaw k 5 0 8 20) ∧
    awlDecode k 0xC9902111 = some (.vcvt k 6 4 0 0x21 0x11) ∧
    awlDecode k 0b111111_00000_00000_00000_00000000000 = some (.halt k) ∧
    awlDecode k 0b000001_00010_00001_1111111111111111 = some (.addi k 2 1 0xFFFF) ∧
    awlDecode k 0b010000_00011_00100_0000000000000010 = some (.beq k 3 4 2) ∧
    awlDecode k 0b111111_00001_00000_00000_00000000100 = none

/-- A pc outside the code region faults with AWL_ADDR, a word with two flipped bits with AWL_LS_ECC, a word that names no instruction of the core
with AWL_ILLEGAL, whatever instruction row comes; a row of another instruction than the one at the pc changes nothing but what the fetch corrected
(R167, R171, R177; log entry 11). What a fault records (R193), for a supervisor core and for a hearth core whose command has left its window: the
code, the pc, INFO and the word; the core stands FAULTED, its requested increment is on its way back, and its registers and its local store stand
as they were. A read of local-store words (R167): with no flipped bit nothing changes; single flipped bits are corrected, and neither the store's
bytes nor the core's registers nor memory change; the read fails exactly when a word has two. An access that is misaligned, reaches no data
address, stores into code, or names a bank outside BANKS faults with the code of Table 7-15 and takes no effect, misalignment being judged first
(R165, R171; log entry 99). -/
def Obligations.AwlFaults : Prop :=
  (∀ (core : Core) (i : Instr) (s : State), awlCoreOf i = some core →
    let k := coreKey core
    let c := getCore s k
    let word := c.word
    coreLive s k = true → budgetSpent k c = false →
      (c.codeLen ≤ c.pc → exec i s = .next (awlFault s k Code.AWL_ADDR 0 0)) ∧
      (c.pc < c.codeLen → (lsCheck s k c.pc 4).2 = true → exec i s = .next (awlFault (fetched core s) k Code.AWL_LS_ECC 0 0)) ∧
      (c.pc < c.codeLen → (lsCheck s k c.pc 4).2 = false → awlDecode core word = none →
        exec i s = .next (awlFault (fetched core s) k Code.AWL_ILLEGAL 0 word)) ∧
      (c.pc < c.codeLen → (lsCheck s k c.pc 4).2 = false → (∃ j, awlDecode core word = some j ∧ j ≠ i) → exec i s = .next (fetched core s))) ∧
  (∀ (core : Core) (s : State) (code info insn : Nat),
    let k := coreKey core
    let c := getCore s k
    code < 2 ^ 16 → info < 2 ^ 16 → insn < 2 ^ 32 → coreCmd s k = none → s.tickets = [] →
    let t := awlFault s k code info insn
    rd t (coreFld k F.AWL_FAULT_CODE F.SAWL_FAULT_CODE) = code ∧ rd t (coreFld k F.AWL_FAULT_PC F.SAWL_FAULT_PC) = c.pc % 2 ^ 18 ∧
    rd t (coreFld k F.AWL_FAULT_INFO F.SAWL_FAULT_INFO) = info ∧ rd t (coreFld k F.AWL_FAULT_INSN_INSN F.SAWL_FAULT_INSN_INSN) = insn ∧
    rd t (coreStateF k) = awlFAULTED ∧ getCore t k = { c with held := 0, wait := none } ∧
    (getDisp t (k / 8)).releases = (getDisp s (k / 8)).releases + c.held ∧ t.mem = s.mem) ∧
  (∀ (core : Core) (s : State) (a n : Nat),
    let k := coreKey core
    let c := getCore s k
    let touched (w : Nat) : Prop := a / 8 ≤ w ∧ 8 * w < a + n
    let t := (lsCheck s k a n).1
    ((∀ w, touched w → c.lsErr.get 0 w = 0) → lsCheck s k a n = (s, false)) ∧
    ((lsCheck s k a n).2 = true ↔ ∃ w, touched w ∧ 2 ≤ c.lsErr.get 0 w) ∧
    ((lsCheck s k a n).2 = false → (∀ w, touched w → (getCore t k).lsErr.get 0 w = 0) ∧
      (∀ w, ¬touched w → (getCore t k).lsErr.get 0 w = c.lsErr.get 0 w)) ∧
    getCore t k = { c with lsErr := (getCore t k).lsErr } ∧ t.mem = s.mem ∧ t.disps = s.disps ∧ t.tickets = s.tickets) ∧
  (∀ (core : Core) (rd ra : Fin 32) (s : State),
    let k := coreKey core
    let c := getCore s k
    let a := (c.sreg ra).toNat
    let bank := 0xF00010000000 + k / 8 * 0x01000000
    let faults (i : Instr) (code : Nat) : Prop :=
      AwlAt core i s → exec i s = .next (awlFault (fetched core s) k code 0 c.word)
    (a % 8 ≠ 0 → faults (.ld core rd ra 0) Code.AWL_ALIGN ∧ faults (.sd core rd ra 0) Code.AWL_ALIGN) ∧
    (a % 8 = 0 → lsSize ≤ a → a < 0xF00010000000 → faults (.ld core rd ra 0) Code.AWL_ADDR ∧ faults (.sd core rd ra 0) Code.AWL_ADDR) ∧
    (a % 8 = 0 → a + 8 ≤ lsSize → a < c.codeLen → faults (.sd core rd ra 0) Code.AWL_ADDR) ∧
    (a % 8 = 0 → k < 128 → bank ≤ a → a + 8 ≤ bank + 0x01000000 → bit c.banks ((a - bank) / 0x200000) = false →
      faults (.ld core rd ra 0) Code.AWL_BANK ∧ faults (.sd core rd ra 0) Code.AWL_BANK))

/-- Scalar register 0 reads zero and takes no write; another register that is written holds the value, and the rest keep theirs (R164). The
register forms of Table 7-7: rd becomes the table's function of ra and rb, and nothing else changes but the pc and the counts (R178, R179). The
forms with one register or an immediate (Tables 7-6 and 7-7): leading zeros and set bits, and the immediate forms with the extension that the
table names. A taken branch or a jump leaves the pc at the address of the instruction plus 4 × OFF, a branch not taken at the next instruction;
taken modulo 2^64 (R176; log entry 98). JAL sets s31, JALR rd; they and the branches change no other register. -/
def Obligations.AwlScalarInstructions : Prop :=
  (∀ (c : AwlCore) (n m : Fin 32) (v : BitVec 64),
    c.sreg 0 = 0 ∧ c.setS 0 v = c ∧ (n ≠ 0 → (c.setS n v).sreg n = v) ∧ (m ≠ n → (c.setS n v).sreg m = c.sreg m) ∧
    c.setS n v = { c with sregs := (c.setS n v).sregs }) ∧
  (∀ (core : Core) (rd ra rb : Fin 32) (s : State),
    let a := (getCore s (coreKey core)).sreg ra
    let b := (getCore s (coreKey core)).sreg rb
    let gives (i : Instr) (v : BitVec 64) : Prop := AwlEffect core i s fun c => c.setS rd v
    let int (x : Int) : BitVec 64 := BitVec.ofInt 64 x
    let nat (x : Nat) : BitVec 64 := BitVec.ofNat 64 x
    let sh := b.toNat % 64
    gives (.add core rd ra rb) (int (a.toInt + b.toInt)) ∧
    gives (.sub core rd ra rb) (int (a.toInt - b.toInt)) ∧
    gives (.and core rd ra rb) (a &&& b) ∧
    gives (.or core rd ra rb) (a ||| b) ∧
    gives (.xor core rd ra rb) (a ^^^ b) ∧
    gives (.sll core rd ra rb) (nat (a.toNat * 2 ^ sh)) ∧
    gives (.srl core rd ra rb) (nat (a.toNat / 2 ^ sh)) ∧
    gives (.sra core rd ra rb) (int (a.toInt / 2 ^ sh)) ∧
    gives (.slt core rd ra rb) (if a.toInt < b.toInt then 1 else 0) ∧
    gives (.sltu core rd ra rb) (if a.toNat < b.toNat then 1 else 0) ∧
    gives (.mul core rd ra rb) (int (a.toInt * b.toInt)) ∧
    gives (.mulh core rd ra rb) (int (a.toInt * b.toInt / 2 ^ 64)) ∧
    gives (.mulhu core rd ra rb) (nat (a.toNat * b.toNat / 2 ^ 64)) ∧
    gives (.div core rd ra rb) (if b = 0 then int (-1) else int (a.toInt.tdiv b.toInt)) ∧
    gives (.divu core rd ra rb) (if b = 0 then nat (2 ^ 64 - 1) else nat (a.toNat / b.toNat)) ∧
    gives (.rem core rd ra rb) (if b = 0 then a else int (a.toInt.tmod b.toInt)) ∧
    gives (.remu core rd ra rb) (if b = 0 then a else nat (a.toNat % b.toNat)) ∧
    gives (.min core rd ra rb) (int (min a.toInt b.toInt)) ∧
    gives (.max core rd ra rb) (int (max a.toInt b.toInt)) ∧
    gives (.minu core rd ra rb) (nat (min a.toNat b.toNat)) ∧
    gives (.maxu core rd ra rb) (nat (max a.toNat b.toNat))) ∧
  (∀ (core : Core) (rd ra : Fin 32) (imm : BitVec 16) (amt : Fin 64) (s : State),
    let a := (getCore s (coreKey core)).sreg ra
    let gives (i : Instr) (v : BitVec 64) : Prop := AwlEffect core i s fun c => c.setS rd v
    let int (x : Int) : BitVec 64 := BitVec.ofInt 64 x
    let nat (x : Nat) : BitVec 64 := BitVec.ofNat 64 x
    (∀ n, n ≤ 64 → a.toNat < 2 ^ (64 - n) → (n < 64 → 2 ^ (63 - n) ≤ a.toNat) → gives (.clz core rd ra) (nat n)) ∧
    gives (.popc core rd ra) (nat ((List.range 64).filter fun j => a.getLsbD j).length) ∧
    gives (.addi core rd ra imm) (int (a.toInt + imm.toInt)) ∧
    gives (.andi core rd ra imm) (a &&& nat imm.toNat) ∧
    gives (.ori core rd ra imm) (a ||| nat imm.toNat) ∧
    gives (.xori core rd ra imm) (a ^^^ nat imm.toNat) ∧
    gives (.slti core rd ra imm) (if a.toInt < imm.toInt then 1 else 0) ∧
    gives (.sltiu core rd ra imm) (if a.toNat < (int imm.toInt).toNat then 1 else 0) ∧
    gives (.shi core rd ra 0 amt) (nat (a.toNat * 2 ^ amt.val)) ∧
    gives (.shi core rd ra 1 amt) (nat (a.toNat / 2 ^ amt.val)) ∧
    gives (.shi core rd ra 2 amt) (int (a.toInt / 2 ^ amt.val)) ∧
    gives (.shlo core rd ra imm) (nat (a.toNat * 2 ^ 16 + imm.toNat))) ∧
  (∀ (core : Core) (rd ra rb : Fin 32) (off : BitVec 16) (far : BitVec 26) (s : State),
    let c := getCore s (coreKey core)
    let a := c.sreg ra
    let b := c.sreg rb
    let link : BitVec 64 := BitVec.ofNat 64 (c.pc + 4)
    let target (o : Int) : Nat := (((c.pc : Int) + 4 * o) % 2 ^ 64).toNat
    let goes (i : Instr) (taken : Prop) : Prop :=
      (taken → AwlEffect core i s fun c => { c with pc := target off.toInt }) ∧ (¬taken → AwlEffect core i s id)
    goes (.beq core ra rb off) (a = b) ∧ goes (.bne core ra rb off) (a ≠ b) ∧
    goes (.blt core ra rb off) (a.toInt < b.toInt) ∧ goes (.bge core ra rb off) (b.toInt ≤ a.toInt) ∧
    goes (.bltu core ra rb off) (a.toNat < b.toNat) ∧ goes (.bgeu core ra rb off) (b.toNat ≤ a.toNat) ∧
    AwlEffect core (.j core far) s (fun c => { c with pc := target far.toInt }) ∧
    AwlEffect core (.jal core far) s (fun c => { c.setS 31 link with pc := target far.toInt }) ∧
    (let t := (BitVec.ofInt 64 (a.toInt + off.toInt)).toNat
     (t % 4 = 0 → AwlEffect core (.jalr core rd ra off) s fun c => { c.setS rd link with pc := t }) ∧
     (t % 4 ≠ 0 → AwlAt core (.jalr core rd ra off) s →
       exec (.jalr core rd ra off) s = .next (awlFault (fetched core s) (coreKey core) Code.AWL_ALIGN 0 (getCore s (coreKey core)).word))))

/-- A load from the local store: an aligned access to readable words gives its bytes, little-endian and widened as the row says, and a vector load
its 64 bytes; single flipped bits are corrected on the way, and a word with two faults with AWL_LS_ECC (R165, R167, R178). A store to the local
store: an aligned access beyond the code region writes its bytes, and every other byte of the store keeps its content (R165, R171). A direct
access to a bank of the core's own hearth that its command names, held by the hearth and cleared (R165, R326): a load gives the bytes that stand
there; a store puts its bytes there, and every other byte of memory and everything else of the block stay. -/
def Obligations.AwlLoadsAndStores : Prop :=
  (∀ (core : Core) (rd ra : Fin 32) (vd : Fin 16) (imm : BitVec 16) (s : State),
    let k := coreKey core
    let c := getCore s k
    let at_ := (BitVec.ofInt 64 ((c.sreg ra).toInt + imm.toInt)).toNat
    let vat := (BitVec.ofInt 64 ((c.sreg ra).toInt + 64 * imm.toInt)).toNat
    let loads (i : Instr) (a n : Nat) (f : AwlCore → AwlCore) : Prop :=
      let u := lsCheck (fetched core s) k a n
      a % n = 0 → a + n ≤ lsSize → AwlAt core i s →
        (u.2 = false → ∃ t, exec i s = .next t ∧ AwlRetired core u.1 (f { getCore u.1 k with pc := c.pc + 4 }) t) ∧
        (u.2 = true → exec i s = .next (awlFault u.1 k Code.AWL_LS_ECC 0 c.word))
    let val (n : Nat) : Nat := leNat (c.lsBytes at_ n)
    let signed (n : Nat) : BitVec 64 := BitVec.ofInt 64 (if val n < 2 ^ (8 * n - 1) then (val n : Int) else val n - 2 ^ (8 * n))
    loads (.lb core rd ra imm) at_ 1 (fun c => c.setS rd (signed 1)) ∧
    loads (.lbu core rd ra imm) at_ 1 (fun c => c.setS rd (BitVec.ofNat 64 (val 1))) ∧
    loads (.lh core rd ra imm) at_ 2 (fun c => c.setS rd (signed 2)) ∧
    loads (.lhu core rd ra imm) at_ 2 (fun c => c.setS rd (BitVec.ofNat 64 (val 2))) ∧
    loads (.lw core rd ra imm) at_ 4 (fun c => c.setS rd (signed 4)) ∧
    loads (.lwu core rd ra imm) at_ 4 (fun c => c.setS rd (BitVec.ofNat 64 (val 4))) ∧
    loads (.ld core rd ra imm) at_ 8 (fun c => c.setS rd (BitVec.ofNat 64 (val 8))) ∧
    loads (.vld core vd ra imm) vat 64 (fun c' => c'.setV vd.val (bytesV (c.lsBytes vat 64)))) ∧
  (∀ (core : Core) (rd ra : Fin 32) (vd : Fin 16) (imm : BitVec 16) (s : State),
    let k := coreKey core
    let c := getCore s k
    let at_ := (BitVec.ofInt 64 ((c.sreg ra).toInt + imm.toInt)).toNat
    let vat := (BitVec.ofInt 64 ((c.sreg ra).toInt + 64 * imm.toInt)).toNat
    let stores (i : Instr) (a n : Nat) (byte : Nat → BitVec 8) : Prop :=
      a % n = 0 → a + n ≤ lsSize → c.codeLen ≤ a → AwlAt core i s →
        ∃ t c', exec i s = .next t ∧ AwlRetired core (fetched core s) c' t ∧
          (∀ j, j < n → c'.ls.get 0 (a + j) = byte j) ∧ (∀ x, x < a ∨ a + n ≤ x → c'.ls.get 0 x = c.ls.get 0 x) ∧
          c' = { nextCore core s with ls := c'.ls, lsErr := c'.lsErr }
    let low (j : Nat) : BitVec 8 := (c.sreg rd).extractLsb' (8 * j) 8
    stores (.sb core rd ra imm) at_ 1 low ∧ stores (.sh core rd ra imm) at_ 2 low ∧
    stores (.sw core rd ra imm) at_ 4 low ∧ stores (.sd core rd ra imm) at_ 8 low ∧
    stores (.vst core vd ra imm) vat 64 fun j => (c.vreg vd.val).extractLsb' (8 * j) 8) ∧
  (∀ (h : Fin 16) (n : Fin 8) (rd ra : Fin 32) (vd : Fin 16) (b : Fin 8) (s : State),
    let core : Core := .hearth h n
    let c := getCore s (coreKey core)
    let a := (c.sreg ra).toNat
    let bank := 16 + 8 * h.val + b.val
    let ready (w : Nat) : Prop := a % w = 0 ∧ bankBase bank ≤ a ∧ a + w ≤ bankBase bank + bankSize bank ∧ bit c.banks b.val = true ∧
      Machine.rd s (F.BNK_OWNER_OWNER bank) = idDisp h ∧ Machine.rd s (F.BNK_OWNER_CLEARING bank) = 0 ∧ fnState s h ≠ fnSTOPPED ∧ c.lsErr = []
    let val (w : Nat) : Nat := peekNat s a w
    let signed (w : Nat) : BitVec 64 := BitVec.ofInt 64 (if val w < 2 ^ (8 * w - 1) then (val w : Int) else val w - 2 ^ (8 * w))
    let loads (i : Instr) (w : Nat) (v : BitVec 64) : Prop := ready w → AwlEffect core i s fun c => c.setS rd v
    let stores (i : Instr) (w : Nat) (v : Nat) : Prop := Inv s → ready w → AwlAt core i s → ∃ t, exec i s = .next t ∧
      AwlRetired core { s with mem := t.mem } (nextCore core s) t ∧ BytesKept s t [(a, w)] ∧ peekNat t a w = v % 2 ^ (8 * w)
    loads (.lb core rd ra 0) 1 (signed 1) ∧ loads (.lbu core rd ra 0) 1 (BitVec.ofNat 64 (val 1)) ∧
    loads (.lh core rd ra 0) 2 (signed 2) ∧ loads (.lhu core rd ra 0) 2 (BitVec.ofNat 64 (val 2)) ∧
    loads (.lw core rd ra 0) 4 (signed 4) ∧ loads (.lwu core rd ra 0) 4 (BitVec.ofNat 64 (val 4)) ∧
    loads (.ld core rd ra 0) 8 (BitVec.ofNat 64 (val 8)) ∧
    (ready 64 → AwlEffect core (.vld core vd ra 0) s fun c => c.setV vd.val (bytesV (peekBytes s a 64))) ∧
    stores (.sb core rd ra 0) 1 (c.sreg rd).toNat ∧ stores (.sh core rd ra 0) 2 (c.sreg rd).toNat ∧
    stores (.sw core rd ra 0) 4 (c.sreg rd).toNat ∧ stores (.sd core rd ra 0) 8 (c.sreg rd).toNat ∧
    stores (.vst core vd ra 0) 64 (c.vreg vd.val).toNat)

/-- Lane arithmetic (Table 7-9, R181, R182): integer lanes wrap modulo their width, and saturate in VADDS and VSUBS; floating-point lanes are
loaded and rounded under the subnormal mode, with one rounding in VFMA, and set CSTAT bit 0 where a subnormal was flushed. Only vd, CSTAT, the pc
and the counts change. VFMAW (Table 7-9): the FP32 pair vd := vd + va[i] × x, x the low 16 bits of scalar register X, each lane rounded once. The
functions of R182: NaN gives the canonical NaN, VLOG of a negative value too; the special cases have the values of the rule; every other lane is
one of the encodings within the rule's bound of the exact value, 2 ulp for VEXP and VLOG and 3 for VTANH and VERF in FP32, 1 ulp elsewhere (log
entry 5), flushed like any result in that mode (R106, R107). The same input gives the same lane every time. VCVT (R185, R186): an allowed pair,
with stochastic rounding only into BF16, DQ4 and DQ8, converts: only vd (and, for 32-bit elements, the register after it), CSTAT, DOMCNT and, when
stochastic, SRIDX change, CSTAT only gains bits, SRIDX goes on by 32, and the bytes of the destination that the format does not use are zero. A
reserved code, another pair and another stochastic destination fault with FMT_RESERVED, FMT_PAIR and FMT_ROUND. -/
def Obligations.AwlVectorResults : Prop :=
  (∀ (core : Core) (et : Fin 8) (vd va vb : Fin 16) (s : State),
    let c := getCore s (coreKey core)
    let w := etBits et
    let f := etFmt et
    let isF := etFloat et.val
    let lane (r : Fin 16) (j : Nat) : Nat := vLane et (c.vreg r) j
    let num (r : Fin 16) (j : Nat) : Int := sext w (lane r j)
    let val (r : Fin 16) (j : Nat) : FVal := (f.load c.subn (lane r j)).1
    let sub (r : Fin 16) (j : Nat) : Bool := (f.load c.subn (lane r j)).2
    let wrap (x : Int) : Nat := (x % 2 ^ w).toNat
    let sat (x : Int) : Int := max (-(2 ^ (w - 1))) (min (2 ^ (w - 1) - 1) x)
    let two (i : Instr) (g : Int → Int → Int) (r : FVal → FVal → FVal) : Prop :=
      VecEffect core i s vd
        (orLanes et fun j => if isF && (sub va j || sub vb j || (f.round c.subn (r (val va j) (val vb j))).2) then 1 else 0)
        fun v => lanesAre et v fun j =>
          if isF then (f.round c.subn (r (val va j) (val vb j))).1 % 2 ^ w else wrap (g (num va j) (num vb j))
    let one (i : Instr) (g : Int → Int) (r : FVal → FVal) : Prop :=
      VecEffect core i s vd (orLanes et fun j => if isF && (sub va j || (f.round c.subn (r (val va j))).2) then 1 else 0)
        fun v => lanesAre et v fun j => if isF then (f.round c.subn (r (val va j))).1 % 2 ^ w else wrap (g (num va j))
    two (.vadd core et vd va vb) (fun a b => a + b) FVal.add ∧ two (.vsub core et vd va vb) (fun a b => a - b) FVal.sub ∧
    two (.vmul core et vd va vb) (fun a b => a * b) FVal.mul ∧
    two (.vmin core et vd va vb) min FVal.min ∧ two (.vmax core et vd va vb) max FVal.max ∧
    two (.vadds core et vd va vb) (fun a b => sat (a + b)) FVal.add ∧ two (.vsubs core et vd va vb) (fun a b => sat (a - b)) FVal.sub ∧
    (isF = true → two (.vdiv core et vd va vb) (fun a _ => a) FVal.div) ∧
    one (.vabs core et vd va) (fun a => (a.natAbs : Int)) FVal.abs ∧ one (.vneg core et vd va) (fun a => -a) FVal.neg ∧
    (isF = true → one (.vsqrt core et vd va) id FVal.sqrt) ∧
    (let r (j : Nat) : Nat × Bool := f.round c.subn (FVal.fma (val vd j) (val va j) (val vb j))
     VecEffect core (.vfma core et vd va vb) s vd
      (orLanes et fun j => if isF && (sub vd j || sub va j || sub vb j || (r j).2) then 1 else 0)
      fun v => lanesAre et v fun j => if isF then (r j).1 % 2 ^ w else wrap (num vd j + num va j * num vb j))) ∧
  (∀ (core : Core) (et : Fin 8) (vd : Fin 16) (va : Fin 16) (x : Fin 32) (s : State),
    let c := getCore s (coreKey core)
    let f := etFmt et
    let xv := f.load c.subn ((c.sreg x).toNat % 65536)
    let a (j : Nat) : FVal × Bool := f.load c.subn (vLane et (c.vreg va) j)
    let d (j : Nat) : FVal × Bool := fp32.load c.subn (vLane 6 (c.vreg (vd.val + j / 16)) (j % 16))
    let r (j : Nat) : Nat × Bool := fp32.round c.subn (FVal.fma (d j).1 (a j).1 xv.1)
    AwlAt core (.vfmaw core et vd va x) s → vectorReady c →
      ∃ t lo hi, exec (.vfmaw core et vd va x) s = .next t ∧
        (∀ j, j < 16 → vLane 6 lo j = (r j).1 % 2 ^ 32 ∧ vLane 6 hi j = (r (16 + j)).1 % 2 ^ 32) ∧
        AwlRetired core (fetched core s)
          { ((nextCore core s).setV vd.val lo).setV (vd.val + 1) hi with
            cstat := c.cstat ||| (List.range 32).foldl (fun m j => m ||| if xv.2 || (a j).2 || (d j).2 || (r j).2 then 1 else 0) 0 } t) ∧
  (∀ (core : Core) (et : Fin 8) (vd va : Fin 16) (s : State), etFloat et.val = true →
    let c := getCore s (coreKey core)
    let f := etFmt et
    let w := etBits et
    let x (j : Nat) : FVal × Bool := f.load c.subn (vLane et (c.vreg va) j)
    let gives (i : Instr) (ulps : Nat) (special : FVal → Option FVal) (exact : FVal → FVal) : Prop :=
      ∃ k : Nat → Nat, (∀ i j, vLane et (c.vreg va) i = vLane et (c.vreg va) j → k i = k j) ∧
        let r (j : Nat) : Nat × Bool :=
          if (x j).1.isNan then (f.nan, false) else
          match special (x j).1 with
          | some v => ((f.round c.subn v).1, false)
          | none => f.choose c.subn (if et = 6 then ulps else 1) (exact (x j).1) (k j)
        VecEffect core i s vd (orLanes et fun j => if (x j).2 || (r j).2 then 1 else 0) fun v => lanesAre et v fun j => (r j).1 % 2 ^ w
    let limit (v : FVal) : Option FVal := match v with | .inf n => some (.fin n 1 0) | _ => none
    gives (.vexp core et vd va) 2
      (fun v => match v with | .inf true => some (.fin false 0 0) | .inf false => some (.inf false) | _ => none) FVal.expOf ∧
    gives (.vlog core et vd va) 2
      (fun v => if v.isZero then some (.inf true) else if v.isNeg then some .nan else match v with | .inf false => some v | _ => none)
      FVal.logOf ∧
    gives (.vtanh core et vd va) 3 limit FVal.tanhOf ∧ gives (.verf core et vd va) 3 limit FVal.erfOf) ∧
  (∀ (core : Core) (vd va : Fin 16) (rm : Fin 2) (dfmt sfmt : BitVec 8) (s : State),
    let i : Instr := .vcvt core vd va rm dfmt sfmt
    let c := getCore s (coreKey core)
    let faults (code : Nat) : Prop := exec i s = .next (awlFault (fetched core s) (coreKey core) code 0 (getCore s (coreKey core)).word)
    AwlAt core i s →
      (Fmt.ofCode dfmt.toNat = none ∨ Fmt.ofCode sfmt.toNat = none → faults Code.FMT_RESERVED) ∧
      ∀ d f, Fmt.ofCode dfmt.toNat = some d → Fmt.ofCode sfmt.toNat = some f →
        let plain := d ≠ f ∧ d.isDq = false ∧ f.isDq = false
        let pair := plain ∨ (f.isDq = true ∧ d.float.isSome = true) ∨ (d.isDq = true ∧ f.float.isSome = true)
        let stochastic := rm.val = 1 ∧ d ≠ .bf16 ∧ d.isDq = false
        (¬pair → faults Code.FMT_PAIR) ∧ (pair → stochastic → faults Code.FMT_ROUND) ∧
        (pair → ¬stochastic → vectorReady c → ∃ t c', exec i s = .next t ∧ AwlRetired core (fetched core s) c' t ∧
          c' = { nextCore core s with vregs := c'.vregs, cstat := c'.cstat, domcnt := c'.domcnt, sridx := c'.sridx } ∧
          (∀ r : Fin 16, r ≠ vd → (d.bits = 32 → r.val ≠ vd.val + 1) → c'.vreg r = c.vreg r) ∧ (∃ m, c'.cstat = c.cstat ||| m) ∧
          c'.sridx = (if rm.val = 1 then c.sridx + 32 else c.sridx) ∧ c.domcnt ≤ c'.domcnt ∧ c'.domcnt ≤ c.domcnt + 1 ∧
          (d.bits < 32 → (c'.vreg vd).toNat < 2 ^ (32 * d.bits + if d.isDq then 8 else 0))))

/-- Bitwise operations, shifts, comparisons and selection (Table 7-9, R181): a shift by an amount at or beyond the lane width gives 0 or copies of
the sign bit; a true comparison gives all ones, and one with a NaN is false; VSEL takes va's lane where vb's is not zero, which for a
floating-point lane means neither +0 nor −0 (log entry 12). Moves between lanes and registers (Table 7-9); they are no arithmetic, so a lean core
runs them without an increment (R174). -/
def Obligations.AwlVectorBitsAndMoves : Prop :=
  (∀ (core : Core) (et : Fin 8) (vd va vb : Fin 16) (x : Fin 32) (s : State),
    let c := getCore s (coreKey core)
    let w := etBits et
    let f := etFmt et
    let isF := etFloat et.val
    let lane (r : Fin 16) (j : Nat) : Nat := vLane et (c.vreg r) j
    let num (r : Fin 16) (j : Nat) : Int := sext w (lane r j)
    let val (r : Fin 16) (j : Nat) : FVal := (f.load c.subn (lane r j)).1
    let sub (r : Fin 16) (j : Nat) : Bool := (f.load c.subn (lane r j)).2
    let shift (i : Instr) (g : Nat → Nat) : Prop := isF = false → VecEffect core i s vd 0 fun v => lanesAre et v g
    let compare (i : Instr) (g : Int → Int → Bool) (r : Ordering → Bool) : Prop :=
      VecEffect core i s vd (orLanes et fun j => if isF && (sub va j || sub vb j) then 1 else 0)
        fun v => lanesAre et v fun j =>
          if isF then (if !(val va j).isNan && !(val vb j).isNan && r ((val va j).cmp (val vb j)) then 2 ^ w - 1 else 0)
          else if g (num va j) (num vb j) then 2 ^ w - 1 else 0
    VecEffect core (.vand core et vd va vb) s vd 0 (fun v => v = c.vreg va &&& c.vreg vb) ∧
    VecEffect core (.vor core et vd va vb) s vd 0 (fun v => v = c.vreg va ||| c.vreg vb) ∧
    VecEffect core (.vxor core et vd va vb) s vd 0 (fun v => v = c.vreg va ^^^ c.vreg vb) ∧
    shift (.vshl core et vd va x) (fun j => if w ≤ x.val then 0 else lane va j * 2 ^ x.val % 2 ^ w) ∧
    shift (.vshrl core et vd va x) (fun j => if w ≤ x.val then 0 else lane va j / 2 ^ x.val) ∧
    shift (.vshra core et vd va x) (fun j => (num va j / 2 ^ x.val % 2 ^ w).toNat) ∧
    compare (.vceq core et vd va vb) (fun a b => decide (a = b)) (fun o => o == .eq) ∧
    compare (.vclt core et vd va vb) (fun a b => decide (a < b)) (fun o => o == .lt) ∧
    compare (.vcle core et vd va vb) (fun a b => decide (a ≤ b)) (fun o => o != .gt) ∧
    VecEffect core (.vsel core et vd va vb) s vd 0 (fun v => lanesAre et v fun j =>
      if (if isF then lane vb j % 2 ^ (w - 1) else lane vb j) = 0 then lane vd j else lane va j)) ∧
  (∀ (core : Core) (et : Fin 8) (vd va vb : Fin 16) (lane : BitVec 8) (x : Fin 32) (s : State),
    let c := getCore s (coreKey core)
    let w := etBits et
    let fills (i : Instr) (ok : BitVec 512 → Prop) : Prop :=
      AwlAt core i s → ∃ t v, exec i s = .next t ∧ ok v ∧ AwlRetired core (fetched core s) ((nextCore core s).setV vd.val v) t
    fills (.vbcast core et vd x) (fun v => lanesAre et v fun _ => (c.sreg x).toNat % 2 ^ w) ∧
    fills (.vins core et vd lane x) (fun v => lanesAre et v fun j =>
      if j = lane.toNat then (c.sreg x).toNat % 2 ^ w else vLane et (c.vreg vd) j) ∧
    fills (.vmov core et vd va) (fun v => v = c.vreg va) ∧
    fills (.vperm core et vd va vb) (fun v => lanesAre et v fun j =>
      vLane et (c.vreg va) (((c.vreg vb).extractLsb' (8 * j) 8).toNat % etLanes et)) ∧
    AwlEffect core (.vext core et va lane x) s (fun c' => c'.setS x (BitVec.ofNat 64 (vLane et (c.vreg va) lane.toNat))))

/-- Reductions (R183): integer lanes give the exact sum, the largest and the smallest lane, sign-extended; VRSUM of floating-point lanes adds in
ascending lane order, each addition rounded to FP32; VAMAX takes the largest finite magnitude into AMAX and sets CSTAT bit 5 when it leaves a lane
out. -/
def Obligations.AwlReductions : Prop :=

  ∀ (core : Core) (et : Fin 8) (va : Fin 16) (x : Fin 32) (s : State),
    let c := getCore s (coreKey core)
    let f := etFmt et
    let n := etLanes et
    let num (j : Nat) : Int := sext (etBits et) (vLane et (c.vreg va) j)
    let load (j : Nat) : FVal × Bool := f.load c.subn (vLane et (c.vreg va) j)
    let ints (i : Instr) (r : Int) : Prop :=
      etFloat et.val = false → vectorReady c → AwlEffect core i s fun c' => c'.setS x (BitVec.ofInt 64 r)
    let floats (i : Instr) (g : AwlCore → AwlCore → Prop) : Prop :=
      etFloat et.val = true → AwlAt core i s → vectorReady c →
        ∃ t c', exec i s = .next t ∧ g (nextCore core s) c' ∧ AwlRetired core (fetched core s) c' t
    let round (v : FVal) : Nat := (fp32.round c.subn v).1
    let flagged (a : AwlCore) (r m : Nat) : AwlCore := { a.setS x (BitVec.ofNat 64 r) with cstat := a.cstat ||| m }
    let anyNan := ∃ j, j < n ∧ (load j).1 = .nan
    ints (.vrsum core et va x) ((List.range n).foldl (fun a j => a + num j) 0) ∧
    (∀ m : Int, (∃ j, j < n ∧ m = num j) → (∀ j, j < n → num j ≤ m) → ints (.vrmax core et va x) m) ∧
    (∀ m : Int, (∃ j, j < n ∧ m = num j) → (∀ j, j < n → m ≤ num j) → ints (.vrmin core et va x) m) ∧
    floats (.vrsum core et va x) (fun a b => ∃ m, b = flagged a
      ((List.range (n - 1)).foldl (fun acc j => round ((fp32.decode acc).add (load (j + 1)).1)) (round (load 0).1)) m) ∧
    floats (.vrmax core et va x) (fun a b => ∃ r m, b = flagged a r m ∧ (anyNan → r = fp32.nan) ∧
      r = round ((List.range (n - 1)).foldl (fun acc j => acc.max (load (j + 1)).1) (load 0).1)) ∧
    floats (.vrmin core et va x) (fun a b => ∃ r m, b = flagged a r m ∧ (anyNan → r = fp32.nan) ∧
      r = round ((List.range (n - 1)).foldl (fun acc j => acc.min (load (j + 1)).1) (load 0).1)) ∧
    floats (.vamax core et va) (fun a b => ∃ m, b = { a with amax := b.amax, cstat := a.cstat ||| m } ∧
      b.amax = (List.range n).foldl (fun m j => if (load j).1.isFinite then fp32MaxMag m (fp32.round false (load j).1.abs).1 else m) a.amax ∧
      ((∀ j, j < n → (load j).1.isFinite = true) → bit m 5 = false) ∧ ((∃ j, j < n ∧ (load j).1.isFinite = false) → bit m 5 = true))

/-- TACK (R187, R188): a length of 0 does nothing; one above 256 or a crossing of a 256-byte boundary faults with TACK_FORMAT; a device range
outside one region and a local range past the store or, for a read, in the code, with AWL_ADDR. Else a read takes the device bytes, which wait for
their fill, and a write hands the local bytes to the device once the core's earlier puts have taken effect (R154); a request's own failure is the
fault, and one that waits leaves the instruction undone. An outstanding TACK read fills its local destination and is outstanding no longer; every
other byte of the store keeps its content, and nothing else of the block changes (R188). The model's choices in it: log entry 26. -/
def Obligations.AwlTackTransfers : Prop :=
  (∀ (core : Core) (rd ra rb : Fin 32) (s : State),
    let k := coreKey core
    let c := getCore s k
    let l := (c.sreg rd).toNat
    let a := (c.sreg ra).toNat
    let n := (c.sreg rb).toNat
    let u := fetched core s
    let ri : Instr := .tackRead core rd ra rb
    let wi : Instr := .tackWrite core rd ra rb
    let faults (i : Instr) (v : State) (code : Nat) : Prop := exec i s = .next (awlFault v k code 0 c.word)
    let shape := n ≤ 256 ∧ crosses256 l n = false ∧ crosses256 a n = false
    let reach := inOneRegion u a n = true ∧ l + n ≤ lsSize
    (n = 0 → AwlEffect core ri s id ∧ AwlEffect core wi s id) ∧
    (n ≠ 0 → ¬shape → (AwlAt core ri s → faults ri u Code.TACK_FORMAT) ∧ (AwlAt core wi s → faults wi u Code.TACK_FORMAT)) ∧
    (n ≠ 0 → shape → (¬reach ∨ l < c.codeLen) → AwlAt core ri s → faults ri u Code.AWL_ADDR) ∧
    (n ≠ 0 → shape → ¬reach → AwlAt core wi s → faults wi u Code.AWL_ADDR) ∧
    (n ≠ 0 → shape → reach → c.codeLen ≤ l → c.outstanding < 16 → AwlAt core ri s →
      ∀ v r, tackRead u (coreWho k) a n (coreCmdId u k) = (v, r) →
        (∀ d, r = .ok d → ∃ t, exec ri s = .next t ∧
          AwlRetired core v { nextCore core s with ops := c.ops ++ [{ ls := l, data := d }] } t) ∧
        (∀ code, r = .fail code → faults ri v code) ∧ (r = .wait → exec ri s = .next v)) ∧
    (n ≠ 0 → shape → reach → c.outstanding < 16 → c.puts ≠ 0 → AwlAt core wi s → exec wi s = .next u) ∧
    (n ≠ 0 → shape → reach → c.outstanding < 16 → c.puts = 0 → (lsCheck u k l n).2 = false → AwlAt core wi s →
      let w := (lsCheck u k l n).1
      ∀ v r, tackWrite w (coreWho k) a (c.lsBytes l n) (coreCmdId w k) = (v, r) →
        (r = .ok () → ∃ t, exec wi s = .next t ∧ AwlRetired core v { getCore v k with pc := c.pc + 4 } t) ∧
        (∀ code, r = .fail code → faults wi v code) ∧ (r = .wait → exec wi s = .next v)) ∧
    (n ≠ 0 → shape → reach → c.codeLen ≤ l → 16 ≤ c.outstanding →
      (AwlAt core ri s → ∃ t, exec ri s = .next t ∧ AwlWaits core u (.outstanding false) t) ∧
      (AwlAt core wi s → ∃ t, exec wi s = .next t ∧ AwlWaits core u (.outstanding false) t))) ∧
  (∀ (core : Core) (n : Nat) (o : TackOp) (s : State),
    let k := coreKey core
    let c := getCore s k
    unitLive s (coreUnit k) = true → c.ops[n]? = some o →
      ∃ c', exec (.tackReadFill core n) s = .next (setCore s k c') ∧
        c' = { c with ls := c'.ls, lsErr := c'.lsErr, ops := c.ops.eraseIdx n } ∧
        (∀ j, j < o.data.length → c'.ls.get 0 (o.ls + j) = o.data.getD j 0) ∧
        (∀ x, x < o.ls ∨ o.ls + o.data.length ≤ x → c'.ls.get 0 x = c.ls.get 0 x))

/-- WAIT and FENCE (R190, R192): with nothing outstanding WAIT OWN and FENCE retire; WAIT SEQ retires once the command is over, faults with
AWL_ILLEGAL on the core's own command, and waits otherwise. A waiting core whose condition is met retires its instruction and runs on. TOK (R191):
on a supervisor core, and for 0 tokens, a request completes at once; a second request while one is held faults with AWL_TOKEN, one that never fits
with TOKEN_EXCEEDS; any other waits with its request at the dispatcher. A release gives the holding back, and does nothing without one. A lean
core without an increment does not run vector arithmetic, a reduction or VCVT: it waits for 3 RP tokens, and the instruction takes no effect
(R174). Scalar work and vector moves go on without one. -/
def Obligations.AwlWaitsAndTokens : Prop :=
  (∀ (core : Core) (ra : Fin 32) (s : State),
    let k := coreKey core
    let c := getCore s k
    let u := fetched core s
    let n := (c.sreg ra).toNat % 2 ^ 32
    (coreCancelled s k = false →
      (c.outstanding = 0 → AwlEffect core (.waitOwn core) s id) ∧
      (c.outstanding ≠ 0 → AwlAt core (.waitOwn core) s → ∃ t, exec (.waitOwn core) s = .next t ∧ AwlWaits core u .own t) ∧
      (n ≠ c.seq → seqOver s (k / 8) n = true → AwlEffect core (.waitSeq core ra) s id) ∧
      (n ≠ c.seq → seqOver s (k / 8) n = false → AwlAt core (.waitSeq core ra) s →
        ∃ t, exec (.waitSeq core ra) s = .next t ∧ AwlWaits core u (.seq n) t) ∧
      (n = c.seq → AwlAt core (.waitSeq core ra) s →
        exec (.waitSeq core ra) s = .next (awlFault u k Code.AWL_ILLEGAL 0 c.word))) ∧
    (c.outstanding = 0 → AwlEffect core (.fence core) s id) ∧
    (unitLive s (coreUnit k) = true → rd s (coreStateF k) = awlWAITING → c.wait = some .own → coreCancelled s k = false → c.outstanding = 0 →
      ∃ t v, exec (.awlWaitEnd core) s = .next t ∧ AwlRetired core v { c with wait := none, pc := c.pc + 4 } t ∧
        rd t (coreStateF k) = awlRUNNING ∧ RegsKept s v [(coreStateF k).off] ∧ v = { s with regs := v.regs, cores := v.cores })) ∧
  (∀ (core : Core) (n : BitVec 8) (s : State),
    let k := coreKey core
    let c := getCore s k
    let u := fetched core s
    let i : Instr := .tokRequest core n
    let faults (code : Nat) : Prop := exec i s = .next (awlFault u k code 0 c.word)
    coreCancelled s k = false →
      (n = 0 ∨ 128 ≤ k → AwlEffect core i s id) ∧
      (n ≠ 0 → k < 128 → c.held ≠ 0 → AwlAt core i s → faults Code.AWL_TOKEN) ∧
      (n ≠ 0 → k < 128 → c.held = 0 → neverFits u (k / 8) n.toNat = true → AwlAt core i s → faults Code.TOKEN_EXCEEDS) ∧
      (n ≠ 0 → k < 128 → c.held = 0 → neverFits u (k / 8) n.toNat = false → AwlAt core i s →
        ∃ t, exec i s = .next t ∧ AwlWaits core (coreAsks u k n.toNat false) (.tok n.toNat false) t) ∧
      (AwlAt core (.tokRelease core) s → ∃ t, exec (.tokRelease core) s = .next t ∧
        AwlRetired core (releaseHeld u k) { nextCore core s with held := 0 } t ∧
        (getDisp t (k / 8)).releases = (getDisp s (k / 8)).releases + c.held)) ∧
  (∀ (core : Core) (et : Fin 8) (vd va vb : Fin 16) (x : Fin 32) (s : State), (getCore s (coreKey core)).lean = true → (getCore s (coreKey core)).held = 0 →
    let waits (i : Instr) : Prop := AwlAt core i s → ∃ t, exec i s = .next t ∧ AwlWaits core (fetched core s) (.tok 3 true) t
    waits (.vadd core et vd va vb) ∧ waits (.vfma core et vd va vb) ∧ waits (.vfmaw core et vd va x) ∧ waits (.vshl core et vd va x) ∧
    waits (.vceq core et vd va vb) ∧ waits (.vsel core et vd va vb) ∧ waits (.vexp core et vd va) ∧ waits (.vrsum core et va x) ∧
    waits (.vamax core et va) ∧ waits (.vcvt core vd va 0 0x12 0x11) ∧
    AwlEffect core (.vmov core et vd va) s (fun c => c.setV vd.val (c.vreg va)))

/-- CR reads give the register of Table 7-10, zero-extended; CR writes set CVSCALE and AMAX to the low 32 bits of ra, SRSEED and SRIDX to all of
it; nothing else of the core changes (R184). SREGR and SREGW on a supervisor core (R192): rd takes what a read of the BAR0 register gives, with
that read's effect; the write is one of the non-lead host; an offset that is no multiple of 8 faults with AWL_ALIGN. HALT (R172, R192): a hearth
core that is not the last of its command stands HALTED, with the instruction retired and its requested increment on its way back. EMIT records an
Ember program entry with ra[15:0]. TRAP faults with AWL_TRAP and INFO ra[15:0]; a hearth core that has spent its budget faults with AWL_BUDGET
(R175). -/
def Obligations.AwlSystemInstructions : Prop :=
  (∀ (core : Core) (rd ra : Fin 32) (s : State),
    let c := getCore s (coreKey core)
    let v := c.sreg ra
    let reads (n : Fin 8) (x : BitVec 64) : Prop := AwlEffect core (.crRead core rd n) s fun c => c.setS rd x
    let nat (x : Nat) : BitVec 64 := BitVec.ofNat 64 x
    reads 0 (nat c.cstat) ∧ reads 1 (nat c.cvscale) ∧ reads 2 c.srseed ∧ reads 3 c.sridx ∧ reads 4 (nat c.amax) ∧
    reads 5 (nat c.domcnt) ∧ reads 6 (nat c.icount) ∧ reads 7 c.ident ∧
    AwlEffect core (.crWrite core ra 1) s (fun c => { c with cvscale := v.toNat % 2 ^ 32 }) ∧
    AwlEffect core (.crWrite core ra 2) s (fun c => { c with srseed := v }) ∧
    AwlEffect core (.crWrite core ra 3) s (fun c => { c with sridx := v }) ∧
    AwlEffect core (.crWrite core ra 4) s (fun c => { c with amax := v.toNat % 2 ^ 32 })) ∧
  (∀ (core : Core) (rd ra rb : Fin 32) (s : State),
    let k := coreKey core
    let c := getCore s k
    let u := fetched core s
    let off := (c.sreg ra).toNat
    let faults (i : Instr) : Prop := AwlAt core i s → exec i s = .next (awlFault u k Code.AWL_ALIGN 0 c.word)
    (off % 8 = 0 →
      (AwlAt core (.sregr core rd ra) s → ∃ t, exec (.sregr core rd ra) s = .next t ∧
        AwlRetired core (regRead u off).1 ((nextCore core s).setS rd (regRead u off).2) t) ∧
      (AwlAt core (.sregw core ra rb) s → ∃ t, exec (.sregw core ra rb) s = .next t ∧
        AwlRetired core (regWrite u .supervisor off (c.sreg rb)) (nextCore core s) t)) ∧
    (off % 8 ≠ 0 → faults (.sregr core rd ra) ∧ faults (.sregw core ra rb))) ∧
  (∀ (core : Core) (ra : Fin 32) (s : State),
    let k := coreKey core
    let c := getCore s k
    let u := fetched core s
    let v := (c.sreg ra).toNat % 65536
    (k < 128 → coreCmd s k = none → AwlAt core (.halt core) s → ∃ t, exec (.halt core) s = .next t ∧
      rd t (coreStateF k) = awlHALTED ∧ getCore t k = { nextCore core s with icount := c.icount + 1, held := 0, wait := none } ∧
      (getDisp t (k / 8)).releases = (getDisp s (k / 8)).releases + c.held ∧ t.mem = s.mem ∧ t.tickets = s.tickets) ∧
    (128 ≤ k → AwlAt core (.halt core) s → exec (.halt core) s = .next (haltCore (retire u k (nextCore core s)) k)) ∧
    (AwlAt core (.emit core ra) s → ∃ t x, exec (.emit core ra) s = .next t ∧ AwlRetired core x (nextCore core s) t ∧
      ∃ cmd valid hearth arg, x = emberPut u (coreUnit k) 2 v cmd valid hearth arg) ∧
    (AwlAt core (.trap core ra) s → exec (.trap core ra) s = .next (awlFault u k Code.AWL_TRAP v c.word)) ∧
    (coreLive s k = true → budgetSpent k c = true → exec (.awlBudget core) s = .next (awlFault s k Code.AWL_BUDGET 0 c.word)))

/-- QPUT, QGET and QTRY of a core on a queue that its ticket may use (R189): a put of a good handle into a queue with room goes on its way; a pop
takes the oldest entry into rd and leaves the others and every other queue; QTRY on an empty queue gives 0, QGET waits; on a queue that another
ticket holds QTRY waits (R156). A queue register with other bits, or a hearth that is not the core's own, faults with AWL_ILLEGAL, a bad handle
with QUEUE_HANDLE. The model's choices in it: log entry 14. -/
def Obligations.AwlQueues : Prop :=

  ∀ (h : Fin 16) (n : Fin 8) (rd ra rb : Fin 32) (g : Fin 16) (q : Fin 64) (s : State),
    let core : Core := .hearth h n
    let k := coreKey core
    let c := getCore s k
    let u := fetched core s
    let v := (c.sreg ra).toNat
    let queue (s : State) (h q : Nat) : HQueue := (getDisp s h).queue q
    let names := (c.sreg rb).toNat = q.val + 256 * g.val
    let faults (i : Instr) (code : Nat) : Prop := exec i s = .next (awlFault u k code 0 c.word)
    coreCancelled s k = false →
      (names → handleOk s c.ticket v = true → c.outstanding < 16 → putOpen s g q c.ticket = true → AwlAt core (.awlQput core ra rb) s →
        ∃ t, exec (.awlQput core ra rb) s = .next t ∧
          AwlRetired core
            { claimQueue u g q c.ticket with puts := s.puts ++ [{ hearth := g, queue := q, handle := handleOf v, ticket := c.ticket, reserved := false, core := some core, cmd := none }] }
            { nextCore core s with puts := c.puts + 1 } t) ∧
      (names → handleOk s c.ticket v = false → AwlAt core (.awlQput core ra rb) s → faults (.awlQput core ra rb) Code.QUEUE_HANDLE) ∧
      (∀ x xs, g = h → names → (queue s h q).entries = x :: xs → queueFor (queue s h q) c.ticket = true →
        let pops (i : Instr) : Prop := AwlAt core i s → ∃ t w, exec i s = .next t ∧
          AwlRetired core w ((nextCore core s).setS rd (BitVec.ofNat 64 x.value)) t ∧
          (queue w h q).entries = xs ∧ (queue w h q).owner = some c.ticket ∧
          (∀ a b, a ≠ h.val ∨ b ≠ q.val → queue w a b = queue s a b) ∧ w = { u with disps := w.disps, regs := w.regs }
        pops (.qget core rd rb) ∧ pops (.qtry core rd rb)) ∧
      (g = h → names → (queue s h q).entries = [] → queueFor (queue s h q) c.ticket = true →
        (AwlAt core (.qget core rd rb) s → ∃ t, exec (.qget core rd rb) s = .next t ∧
          AwlWaits core (claimQueue u h q c.ticket) (.qget rd q) t) ∧
        (AwlAt core (.qtry core rd rb) s → ∃ t, exec (.qtry core rd rb) s = .next t ∧
          AwlRetired core (claimQueue u h q c.ticket) ((nextCore core s).setS rd 0) t)) ∧
      (g = h → names → queueFor (queue s h q) c.ticket = false → AwlAt core (.qtry core rd rb) s →
        ∃ t, exec (.qtry core rd rb) s = .next t ∧ AwlWaits core u (.qtry rd q) t) ∧
      (g ≠ h → names → (AwlAt core (.qget core rd rb) s → faults (.qget core rd rb) Code.AWL_ILLEGAL) ∧
        (AwlAt core (.qtry core rd rb) s → faults (.qtry core rd rb) Code.AWL_ILLEGAL))

/-- AUX_TURN_ON starts the auxiliary domain in state AUX with the management endpoint's key derived; MAIN_INPUT_VALID in AUX, with no trip output
low, enters KINDLING at stage 0x01, where SCAN_HOLD keeps it, with supervisor cores 0 to 2 running (R449, R466, R469, R471, R475). Loss of main
power from KINDLING, RUN or STOPPED leads to AUX: the near tier's contents are lost and the banks are empty, every register but those of the
auxiliary domain and DEV_STATE holds its reset value, and what a run held is gone; the far tier, both flashes, the fuses, the endpoint's key and
the TAP stay. A trip also drives its pin low, and TRIP_RELEASE releases both; loss of 3V3_AUX leads to OFF and keeps only flashes, fuses and the
far tier (R53, R469, R470, R471). The model's choices in it: log entries 8, 9, 13, 62. -/
def Obligations.PowerOnAndLoss : Prop :=
  (∀ s : State,
    (s.auxOn = false → ∃ t, exec .auxTurnOn s = .next t ∧ t.power = .aux ∧ t.mgmt = { s.mgmt with key := Config.mldsaKey s.fuses.seed } ∧
      rd t F.DEV_ID_STEPPING = s.fuses.stepping.toNat ∧ RegsKept s t [F.DEV_ID_STEPPING.off, F.DEV_STATE_POWER.off, F.MGT_ID_IANA.off] ∧
      t = { s with auxOn := true, regs := t.regs, mgmt := t.mgmt }) ∧
    (∀ scanHold fuseOk : Bool, s.power = .aux → s.thermTrip = false → s.pwrFault = false →
      ∃ u, exec (.mainInputValid scanHold fuseOk) s = .next (if scanHold then u else kindle u fuseOk) ∧
        u.power = .kindling ∧ rd u F.KDL_STATUS_STAGE = 1 ∧ rd u F.GRT_STATE_TWIN_PRESENT = (if s.twinIn then 1 else 0) ∧
        (∀ n, n < 3 → rd u (F.SAWL_STATE_STATE n) = awlRUNNING) ∧
        u = { s with mainOn := true, scanHold := scanHold, slotOvr := none, rekindle := 0, regs := u.regs }) ∧
    (∀ scanHold fuseOk : Bool, s.power ≠ .aux ∨ s.thermTrip = true ∨ s.pwrFault = true →
      exec (.mainInputValid scanHold fuseOk) s = .next s)) ∧
  (∀ s : State,
    let lost (keep : Nat → Bool) (t : State) : Prop :=
      (∀ o, o ≠ F.DEV_STATE_POWER.off → regVal t o = if keep o then regVal s o else regReset o) ∧
      BytesKept s t [(0, nearEnd), (0xF00000000000, 0x20000000)] ∧ (∀ a, 0xF00000000000 ≤ a → a < 0xF00020000000 → peek t a = 0) ∧
      t.flash = s.flash ∧ t.ckptFlash = s.ckptFlash ∧ t.fuses = s.fuses ∧ t.farPoison = s.farPoison ∧ t.mainOn = false ∧
      t.tickets = [] ∧ t.cores = [] ∧ t.disps = [] ∧ t.stash = [] ∧ t.kept = [] ∧ t.image = none ∧ t.links = [] ∧ t.colls = [] ∧
      t.ember = [] ∧ t.pend = []
    let toAux (i : Instr) (therm fault : Bool) : Prop := mainPowered s = true →
      ∃ t, exec i s = .next t ∧ t.power = .aux ∧ lost auxRegs t ∧ t.thermTrip = therm ∧ t.pwrFault = fault ∧ t.tap = s.tap ∧
        t.mgmt.key = s.mgmt.key ∧ t.mgmt.kindled = false
    toAux .mainInputInvalid s.thermTrip s.pwrFault ∧ toAux .thermalTrip true s.pwrFault ∧ toAux .regulatorTrip s.thermTrip true ∧
    (mainPowered s = false → exec .mainInputInvalid s = .next s ∧ exec .thermalTrip s = .next s ∧ exec .regulatorTrip s = .next s) ∧
    (s.auxOn = true → exec .tripRelease s = .next { s with thermTrip := false, pwrFault := false }) ∧
    (s.auxOn = true → ∃ t, exec .auxTurnOff s = .next t ∧ t.power = .off ∧ lost (fun _ => false) t ∧
      regVal t F.DEV_STATE_POWER.off = regReset F.DEV_STATE_POWER.off ∧ t.tap = State.reset.tap ∧ t.mgmt = State.reset.mgmt ∧
      t.thermTrip = false ∧ t.pwrFault = false))

/-- Kindling (R37, R38): a failing fuse check and a missing image end it at stages 0x01 and 0x02 with their codes; the first candidate that passes
stages 0x03 to 0x05 is taken and training begins. The stages that take time go on in order, and a fatal one ends Kindling with its stage and
KDL_TRAIN_FAIL. Once the banks are cleared the image takes effect at stage 0x0C, unless a region of it reaches past the far tier that training
found; at stage 0x0D each function becomes RUN where it is available, else UNAVAILABLE, and once the rollback fuses have advanced, where they must
(R39), the device is in RUN and the frames that links hold take effect. The model's choices in it: log entries 50, 92. -/
def Obligations.KindlingStages : Prop :=

  ∀ s : State,
    let failed (t : State) (stage code : Nat) : Prop :=
      rd t F.KDL_STATUS_FAILED = 1 ∧ rd t F.KDL_STATUS_STAGE = stage ∧ rd t F.KDL_STATUS_CODE = code ∧ t.mem = s.mem ∧ t.flash = s.flash
    let waits := s.power = .kindling ∧ s.scanHold = false ∧ rd s F.KDL_STATUS_FAILED = 0
    failed (kindle s false) 1 Code.KDL_FUSE_FAIL ∧
    ((∀ k, slotEmpty s k = true) → failed (kindle s true) 2 Code.IMG_NONE) ∧
    (∀ k ks stage, k < 2 → slotOutcome s k = (5, 0) → let t := trySlots s (k :: ks) stage
      rd t F.KDL_STATUS_STAGE = 7 ∧ rd t F.KDL_STATUS_SLOT = k ∧ t.image = some (imageOf s k) ∧ t.cands = ks ∧ t.mem = s.mem) ∧
    (waits → rd s F.KDL_STATUS_STAGE = 7 →
      (∃ t, exec (.kindleStageDone (.gddr true true)) s = .next t ∧ rd t F.KDL_STATUS_STAGE = 8 ∧ t.lostGddr = [] ∧
        RegsKept s t [F.KDL_STATUS_STAGE.off] ∧ t = { s with lostGddr := [], regs := t.regs }) ∧
      ∀ a b : Bool, (a && b) = false → ∃ t, exec (.kindleStageDone (.gddr a b)) s = .next t ∧ failed t 7 Code.KDL_TRAIN_FAIL) ∧
    (waits → rd s F.KDL_STATUS_STAGE = 8 → ∀ p0 p1, ∃ t, exec (.kindleStageDone (.pcie p0 p1)) s = .next t ∧ rd t F.KDL_STATUS_STAGE = 9) ∧
    (waits → rd s F.KDL_STATUS_STAGE = 9 → ∀ n0 n1 n2 n3, ∃ t, exec (.kindleStageDone (.cxl n0 n1 n2 n3)) s = .next t ∧
      rd t F.KDL_STATUS_STAGE = 0xA ∧ t.mem = s.mem) ∧
    (waits → rd s F.KDL_STATUS_STAGE = 10 → ∀ ts, ∃ t, exec (.kindleStageDone (.links ts)) s = .next t ∧ rd t F.KDL_STATUS_STAGE = 0xB) ∧
    (waits → rd s F.KDL_STATUS_STAGE = 11 → ∀ spare,
      (∃ t, exec (.kindleStageDone (.banks false spare)) s = .next t ∧ failed t 0xB Code.KDL_TRAIN_FAIL) ∧
      ∃ u, exec (.kindleStageDone (.banks true spare)) s = .next (finishKindling u) ∧
        (∀ a, 0xF00000000000 ≤ a → a < 0xF00020000000 → peek u a = 0) ∧ BytesKept s u [(0xF00000000000, 0x20000000)] ∧
        (∀ n, n < 144 → rd u (F.BNK_OWNER_CLEARING n) = 0) ∧ u.image = s.image ∧ u.loads = s.loads) ∧
    (∀ i, s.image = some i →
      let w := wr s F.KDL_STATUS_STAGE 0xC
      let a := applyImage w i
      let v := startFuncs a
      let tooFar := (List.range 4).any (imageCtx w i.slot (imSecs w i.slot) (some ((List.range 4).map (farSize w)))).farArenaBad
      finishKindling s = (if tooFar then kdlFail w 0xC Code.IMG_FORMAT else if blows v i then v else enterRun v i) ∧
      rd v F.KDL_STATUS_STAGE = 0xD ∧ (∀ f ∈ allFuncs, fnState v f = if available a f then fnRUN else fnUNAVAIL) ∧
      rd a F.KDL_IMAGE_ROLLBACK = i.rollback % 2 ^ 16 ∧ v.fuses = s.fuses) ∧
    (∀ i, ∃ w, enterRun s i = each (List.range 13) w runLink ∧ rd w F.DEV_STATE_POWER = 3 ∧ rd w F.KDL_STATUS_STAGE = 0xD ∧
      w.fuses = { s.fuses with counter := if blows s i then i.rollback else s.fuses.counter } ∧ w.mem = s.mem ∧ w.tickets = s.tickets ∧
      w.mgmt.kindled = true) ∧
    (waits → rd s F.KDL_STATUS_STAGE = 13 → ∀ i, s.image = some i → exec (.kindleStageDone .fuses) s = .next (enterRun s i))

/-- The request for a re-kindle with the key in DEV_CTL, by the lead host (R53, R442): in RUN with no stop in progress it starts a global stop of
source 2 and waits for it; during a stop, in STOPPED and after a failed Kindling it starts at once; while Kindling runs, and without the key, only
SLOT_OVR and SLOT change. Its entry runs Kindling with every ticket ended, the near tier lost, and far tier, flashes and fuses kept; a blow of the
rollback fuses that it interrupts only raises the counter (R470). The model's choices in it: log entries 9, 51, 62. -/
def Obligations.Rekindling : Prop :=

  ∀ (src : Src) (v : BitVec 64) (fuseOk : Bool) (s : State), served s src = true →
    (isLead s src = false → ∃ t, exec (.rekindle src v) s = .next t ∧ rd t F.DEV_CFG_ERR_CODE = Code.NOT_LEAD ∧
      t = { s with regs := t.regs } ∧ RegsKept s t [F.DEV_CFG_ERR_CODE.off]) ∧
    (isLead s src = true → v.toNat % 65536 ≠ 0x4B49 → ∃ t, exec (.rekindle src v) s = .next t ∧
      rd t F.DEV_CTL_SLOT_OVR = bits v.toNat 16 1 ∧ rd t F.DEV_CTL_SLOT = bits v.toNat 17 1 ∧ RegsKept s t [F.DEV_CTL_SLOT.off] ∧
      t = { s with regs := t.regs }) ∧
    (isLead s src = true → v.toNat % 65536 = 0x4B49 → s.power = .run → stopActive s = false → ∃ t, exec (.rekindle src v) s = .next t ∧
      t.rekindle = 1 ∧ rd t F.MGT_STOP_STATE_STATE = 1 ∧ rd t F.MGT_STOP_STATE_SOURCE = 2 ∧ t.tickets = s.tickets ∧ t.mem = s.mem ∧
      t.slotOvr = (if bits v.toNat 16 1 = 1 then some (bits v.toNat 17 1) else none)) ∧
    (isLead s src = true → v.toNat % 65536 = 0x4B49 → s.power = .run → stopActive s = true → ∃ t, exec (.rekindle src v) s = .next t ∧
      t.rekindle = 2 ∧ t.mem = s.mem) ∧
    (isLead s src = true → v.toNat % 65536 = 0x4B49 → s.power = .stopped ∨ (s.power = .kindling ∧ rd s F.KDL_STATUS_FAILED = 1) →
      ∃ t, exec (.rekindle src v) s = .next t ∧
        t.slotOvr = (if bits v.toNat 16 1 = 1 then some (bits v.toNat 17 1) else none) ∧ RegsKept s t [F.DEV_CTL_SLOT.off] ∧
        t = { s with rekindle := 2, slotOvr := t.slotOvr, regs := t.regs }) ∧
    (isLead s src = true → v.toNat % 65536 = 0x4B49 → s.power = .kindling → rd s F.KDL_STATUS_FAILED = 0 →
      ∃ t, exec (.rekindle src v) s = .next t ∧ RegsKept s t [F.DEV_CTL_SLOT.off] ∧ t = { s with regs := t.regs }) ∧
    ((s.rekindle = 1 ∧ s.power = .stopped) ∨ (s.rekindle = 2 ∧ mainPowered s = true) →
      ∃ u, exec (.rekindleEnter fuseOk) s = .next (kindle u fuseOk) ∧
        u.power = .kindling ∧ u.tickets = [] ∧ u.flash = s.flash ∧ u.ckptFlash = s.ckptFlash ∧ u.rekindle = 0 ∧
        u.fuses = { s.fuses with counter := u.fuses.counter } ∧ s.fuses.counter ≤ u.fuses.counter ∧
        (s.power ≠ .kindling → u.fuses = s.fuses) ∧
        u.cores = [] ∧ u.disps = [] ∧ u.image = none ∧ ∀ n, n < 3 → rd u (F.SAWL_STATE_STATE n) = awlRUNNING)

/-- A stop of a running function by the lead host makes it STOPPING and no other function anything else; a writer that is not the lead is refused
with NOT_LEAD, and during a global stop, or from a host for its own port, the request is refused with FUNC_STATE (R44, R46); for a function that
does not run nothing changes. A stopping function that has finished what it began becomes STOPPED; a hearth's cores are then gated, its banks
powered off and its MEs gated or FAULTED (R44, R59). A restart (R45): refused with FUNC_STATE where the function is not STOPPED, and with
CFG_INVALID, changing nothing else, where its pending values break a rule; else the pending values take effect and the function runs, and writes
that waited for it are tried again (R46). For functions 0x10, 0x12 and 0x14, which train nothing and hold no charge, that is all that changes. The
model's choices in it: log entries 29, 52. -/
def Obligations.FunctionControl : Prop :=
  (∀ (src : Src) (f : BitVec 8) (s : State),
    let n := f.toNat
    let others (t : State) : Prop := ∀ g, g ≠ n → fnState t g = fnState s g
    (served s src = true → isLead s src = false → ∃ t, exec (.funcStop src f) s = .next t ∧ rd t F.DEV_CFG_ERR_CODE = Code.NOT_LEAD ∧
      rd t F.DEV_CFG_ERR_FUNC = n ∧ RegsKept s t [F.DEV_CFG_ERR_CODE.off] ∧ t = { s with regs := t.regs }) ∧
    (served s src = true → isLead s src = true → stopActive s = true → ∃ t, exec (.funcStop src f) s = .next t ∧
      rd t F.DEV_CFG_ERR_CODE = Code.FUNC_STATE ∧ RegsKept s t [F.DEV_CFG_ERR_CODE.off] ∧ t = { s with regs := t.regs }) ∧
    (served s src = true → isLead s src = true → stopActive s = false → 0x34 ≤ n → srcId src = idHost (n - 0x34) →
      ∃ t, exec (.funcStop src f) s = .next t ∧ rd t F.DEV_CFG_ERR_CODE = Code.FUNC_STATE ∧ RegsKept s t [F.DEV_CFG_ERR_CODE.off] ∧
        t = { s with regs := t.regs }) ∧
    (served s src = true → isLead s src = true → stopActive s = false → n < 0x34 ∨ srcId src ≠ idHost (n - 0x34) → fnState s n ≠ fnRUN →
      exec (.funcStop src f) s = .next s) ∧
    (served s src = true → isLead s src = true → stopActive s = false → n < 0x34 ∨ srcId src ≠ idHost (n - 0x34) → isFunc n = true →
      fnState s n = fnRUN →
      ∃ t, exec (.funcStop src f) s = .next t ∧ fnState t n = fnSTOPPING ∧ others t ∧ t.mem = s.mem ∧ t.disps = s.disps ∧
        t.tickets = s.tickets ∧ t.cores = s.cores) ∧
    (isRun s = true → stopActive s = false → isFunc n = true → fnState s n = fnSTOPPING → funcDone s n = true →
      ∃ t, exec (.funcStopComplete f) s = .next t ∧ fnState t n = fnSTOPPED ∧ others t ∧ t.mem = s.mem ∧ t.tickets = s.tickets ∧
        (n < 0x10 → (∀ c, c < 8 → rd t (F.AWL_STATE_STATE n c) = awlGATED ∧ rd t (F.BNK_OWNER_OFF (16 + 8 * n + c)) = 1) ∧
          ∀ i, i < 16 → rd t (F.MXE_STATE_STATE n i) = if rd s (F.MXE_STATE_STATE n i) = 6 then 6 else 0)) ∧
    (isRun s = true → fnState s n = fnSTOPPING → funcDone s n = false → exec (.funcStopComplete f) s = .next s)) ∧
  (∀ (src : Src) (f : BitVec 8) (t : Training) (s : State), served s src = true → isLead s src = true →
    let n := f.toNat
    let refused (code : Nat) : Prop := ∃ u, exec (.funcRestart src f t) s = .next u ∧ rd u F.DEV_CFG_ERR_CODE = code ∧
      rd u F.DEV_CFG_ERR_FUNC = n ∧ RegsKept s u [F.DEV_CFG_ERR_CODE.off] ∧ u = { s with regs := u.regs }
    (restartable s n = false → refused Code.FUNC_STATE) ∧
    (restartable s n = true → (restartCtx s n).bad n = true → refused Code.CFG_INVALID) ∧
    (restartable s n = true → (restartCtx s n).bad n = false →
      exec (.funcRestart src f t) s = .next (flushHeld (restartFunc s n t))) ∧
    (restartable s n = true → (restartCtx s n).bad n = false → s.held = [] → n = 0x10 ∨ n = 0x12 ∨ n = 0x14 →
      ∃ u, exec (.funcRestart src f .none) s = .next u ∧ fnState u n = fnRUN ∧ u.mem = s.mem ∧ u.tickets = s.tickets ∧
        u.pend = (applyPend s n).pend ∧ ∀ g, g ≠ n → fnState u g = fnState s g))

/-- A write of a configuration register (R45): for a STOPPED function the value becomes pending and the register keeps the value in force; else
the write is ignored with CFG_RUNNING. Reads show the pending value. The access codes (R10, R372): an aligned 8-byte write of a register whose
fields act of themselves sets its RW bits to the value, clears the W1C bits that the value sets, and keeps every other bit and register; another
width is refused with BAR_WIDTH. A read of a register with RC fields answers it, WO fields as zero, and clears those fields. The model's choices
in it: log entry 52. -/
def Obligations.RegisterWritesAndReads : Prop :=
  (∀ (src : Src) (off : Nat) (v : BitVec 64) (s : State) (g : RegGroup) (i j f : Nat),
    served s src = true → lookupReg off = some (g, i, j) → g.func ≠ .route → g.funcOf i = some f →
      (fnState s f = fnSTOPPED → ∃ t, exec (.configWrite src off v) s = .next t ∧ (∀ o, regVal t o = regVal s o) ∧
        t = { s with pend := t.pend } ∧ (∀ o, o ≠ off → pendOr t o = pendOr s o) ∧
        ∀ b, b < 64 → (pendOr t off).getLsbD b = if bit g.rw b then v.getLsbD b else (pendOr s off).getLsbD b) ∧
      (fnState s f ≠ fnSTOPPED → ∃ t, exec (.configWrite src off v) s = .next t ∧ rd t F.DEV_CFG_ERR_CODE = Code.CFG_RUNNING ∧
        RegsKept s t [F.DEV_CFG_ERR_CODE.off] ∧ t = { s with regs := t.regs })) ∧
  (∀ (src : Src) (off len : Nat) (v : BitVec 64) (s : State) (g : RegGroup) (i j : Nat), served s src = true →
    (lookupReg off = some (g, i, j) → g.func = .none → off % 8 = 0 →
      g.base ∉ [0x40, 0x60, 0x68, 0x100120, 0x1B0000, 0x1D0010, 0x1D0020, 0x1D0100, 0x1D0108, 0x1D0110, 0x1D0300, 0x1EA000, 0x1EA018, 0x1F0030,
        0x200000, 0x200020, 0x208040, 0x1F00000] →
      ∃ t, exec (.registerWrite src off 8 v) s = .next t ∧ RegsKept s t [off] ∧ t = { s with regs := t.regs } ∧
        ∀ b, b < 64 → (regVal t off).getLsbD b =
          if bit g.w1c b && v.getLsbD b then false else if bit g.rw b then v.getLsbD b else (regVal s off).getLsbD b) ∧
    (∀ p : Fin 2, src = .host p → len ≠ 8 ∨ off % 8 ≠ 0 →
      ∃ t, exec (.registerWrite src off len v) s = .next t ∧ rd t F.HIF_ERR_CODE = Code.BAR_WIDTH ∧ t.mem = s.mem ∧ t.tickets = s.tickets ∧
        (rd s ⟨(F.HIF_IRQ_PEND p).off, 4, 1⟩ = 1 → t = { s with regs := t.regs })) ∧
    (lookupReg off = some (g, i, j) → g.rc ≠ 0 → off ≠ F.MGT_DBG_DATA_DATA.off → off < 0x1000000 →
      ∃ t x, exec (.readClear src off) s = .next t ∧ t.out = s.out ++ [.readReply x] ∧ RegsKept s t [off] ∧
        (∀ b, b < 64 → x.getLsbD b = ((pendOr s off).getLsbD b && !bit g.wo b)) ∧
        ∀ b, b < 64 → (regVal t off).getLsbD b = ((regVal s off).getLsbD b && !bit g.rc b)))

/-- DEV_CANCEL by the lead host (R52, R442): a number that no accepted ticket carries answers RESULT 2 and changes nothing else; during a stop the
ticket is marked with CANCELLED and nothing else of it changes; else the cancel acts at once. The model's choices in it: log entry 52. -/
def Obligations.CancellingTickets : Prop :=

  ∀ (src : Src) (n : BitVec 48) (s : State), served s src = true → isLead s src = true →
    ((∀ t ∈ s.tickets, t.num ≠ n.toNat) → ∃ u, exec (.cancelTicket src n) s = .next u ∧ rd u F.DEV_CANCEL_RESULT = 2 ∧
      RegsKept s u [F.DEV_CANCEL_RESULT.off] ∧ u = { s with regs := u.regs }) ∧
    (∀ x, s.tickets.find? (·.num == n.toNat) = some x → x.cancelling = false →
      let mark (t : Ticket) : Ticket :=
        if t.key = x.key then (if t.cancelling then t else { t with cancelling := true, status := Code.CANCELLED, faultSeq := 0, faultHearth := 0xFF }) else t
      ∃ u, u = { s with tickets := s.tickets.map mark, regs := u.regs } ∧ rd u F.DEV_CANCEL_RESULT = 1 ∧
        RegsKept s u [F.DEV_CANCEL_RESULT.off] ∧
        exec (.cancelTicket src n) s = .next (if stopActive s then u else finishCancel u x.key))

/-- Rings and doorbells (R372 to R374, R376): port p's own host enables a ring whose size and base fit, with HEAD and TAIL zero; it disables one
that is on; an accepted doorbell moves TAIL, and one out of range changes no ring and records DOORBELL_INVALID. Nothing else of the rings changes.
A doorbell value is accepted exactly where R374 says: the ring is on, TAIL does not go back, and no more entries than the ring holds wait. The
model's choices in it: log entry 97. -/
def Obligations.RingsAndDoorbells : Prop :=
  (∀ (p : Fin 2) (r : Fin 4) (v : BitVec 64) (s : State), served s (.host p) = true →
    let lg := bits v.toNat 4 5
    let base := rd s (F.HIF_RING_BASE_BASE p r)
    let d := v.toNat % 2 ^ 32
    let ctl := (F.HIF_RING_CTL_ENABLE p r).off
    let idx := (F.HIF_RING_IDX_HEAD p r).off
    (v.getLsbD 0 = true → ringOn s p r = false → 4 ≤ lg → lg ≤ 16 → base % 64 = 0 → 0x100000000000 * (p.val + 1) ≤ base →
      base + 64 * 2 ^ lg ≤ 0x100000000000 * (p.val + 2) →
        ∃ t, exec (.ringEnable (.host p) p r v) s = .next t ∧ ringOn t p r = true ∧ ringSize t p r = 2 ^ lg ∧
          rd t (F.HIF_RING_IDX_HEAD p r) = 0 ∧ rd t (F.HIF_RING_IDX_TAIL p r) = 0 ∧ RegsKept s t [ctl, idx] ∧ t = { s with regs := t.regs }) ∧
    (ringOn s p r = true → ∃ t, exec (.ringDisable (.host p) p r) s = .next t ∧ ringOn t p r = false ∧ RegsKept s t [ctl] ∧
      t = { s with regs := t.regs }) ∧
    (doorbellOk s p r d = true → ∃ t, exec (.doorbellWrite p r 8 v) s = .next t ∧ rd t (F.HIF_RING_IDX_TAIL p r) = d ∧
      rd t (F.HIF_RING_IDX_HEAD p r) = rd s (F.HIF_RING_IDX_HEAD p r) ∧ RegsKept s t [(F.HIF_RING_IDX_TAIL p r).off] ∧ t = { s with regs := t.regs }) ∧
    (doorbellOk s p r d = false → ∃ t, exec (.doorbellWrite p r 8 v) s = .next t ∧ rd t F.HIF_ERR_CODE = Code.DOORBELL_INVALID ∧
      rd t F.HIF_ERR_PORT = p.val ∧ rd t F.HIF_ERR_RING = r.val ∧
      (∀ q z, q < 2 → z < 4 → regVal t (F.HIF_RING_IDX_HEAD q z).off = regVal s (F.HIF_RING_IDX_HEAD q z).off))) ∧
  (∀ (p r d : Nat) (s : State), d < 2 ^ 32 →
    let tail := rd s (F.HIF_RING_IDX_TAIL p r)
    let head := rd s (F.HIF_RING_IDX_HEAD p r)
    (doorbellOk s p r d = true ↔ ringOn s p r = true ∧ (d + 2 ^ 32 - tail) % 2 ^ 32 < 2 ^ 31 ∧
      (2 ^ 31 ≤ (d + 2 ^ 32 - head) % 2 ^ 32 ∨ (d + 2 ^ 32 - head) % 2 ^ 32 ≤ ringSize s p r)))

/-- Intake (R48, R49, R375, R376): the entry at HEAD of the ring whose turn it is is read as one sector; HEAD goes on by one and the next ring has
its turn; a ticket that passes the checks of Table 2-8 is accepted last in order. A read that the host refuses turns the ring off and records the
code. TICKET_START starts the first ticket in the order of R50 on every hearth of its mask, from its list's start (R134, R135); KIND2_START loads
and starts the next KIND 2 program on supervisor core 3 with the registers of R195. The model's choices in it: log entries 50, 70. -/
def Obligations.TicketIntakeAndStart : Prop :=
  (∀ (e : Bytes) (p r : Nat) (s u : State),
    unitLive s (U.sup 0) = true → stopActive s = false → intakeRing s = some (p, r) → e.length = 64 →
    let head := F.HIF_RING_IDX_HEAD p r
    let addr := ringBase s p r + 64 * (rd s head % ringSize s p r)
    access s idSup addr 64 false none = (u, .ok ()) →
      let v := wrapAdd { u with nextRing := (4 * p + r + 1) % 8 } head 1
      (∀ g, ticketCheck v e = (0, some g) → field e 0xC 4 ≠ 0 →
        ∃ t x, exec (.ticketIntake (.data e)) s = .next t ∧ t.tickets = u.tickets ++ [x] ∧ x.raw = e ∧ x.num = field e 0 6 ∧ x.key = u.nextKey ∧
          x.prog = g ∧ x.started = false ∧ x.ring = (p, r) ∧ t.nextKey = u.nextKey + 1 ∧ t.nextRing = (4 * p + r + 1) % 8 ∧
          rd t head = (rd u head + 1) % 2 ^ 32 ∧ t.mem = u.mem) ∧
      (∀ code g, code ≠ 0 → ticketCheck v e = (code, g) → exec (.ticketIntake (.data e)) s = .next (rejectTicket v (p, r) e code)) ∧
      (∃ t, exec (.ticketIntake (.failed (BitVec.ofNat 16 Code.HOST_ACCESS))) s = .next t ∧ ringOn t p r = false ∧
        rd t F.HIF_ERR_CODE = Code.HOST_ACCESS ∧ rd t head = rd u head ∧ t.tickets = u.tickets)) ∧
  (∀ (x : Ticket) (xs : List Ticket) (s u : State),
    (unitLive s (U.sup 0) = true → startQueue s = x :: xs →
      ∀ d, memRead s idSup (x.prog.secAddr + x.prog.entry) 64 none = (u, .ok d) →
      x.prog.training = true → (∀ y ∈ u.tickets, y.key = x.key → y.cancelling = false) →
        ∃ t, exec .ticketStart s = .next t ∧
          t.tickets = u.tickets.map (fun y => if y.key = x.key then { y with started := true } else y) ∧ t.mem = u.mem ∧
          ∀ h, h < 16 → (getDisp t h).cmds = (getDisp u h).cmds ∧ (getDisp t h).cursors = (getDisp u h).cursors ++
            if bit x.prog.hearthMask h then [{ ticket := x.key, off := listStart u x h, pos := 0, step := 0, ended := false }] else []) ∧
    (unitLive s (U.sup 3) = true → sup3Free s = true → kind2Waiting s = x :: xs → ∀ code, memRead s idSup x.prog.secAddr x.prog.secLen none = (u, .ok code) →
      ∃ t, exec .kind2Start s = .next t ∧
        (let c := getCore t 131
         c.pc = x.prog.entry ∧ c.codeLen = x.prog.secLen ∧ c.ticket = x.key ∧ c.sreg 1 = 0x1003 ∧ c.sreg 2 = BitVec.ofNat 64 x.num ∧
         c.sreg 3 = BitVec.ofNat 64 (field x.raw 0x30 8) ∧ c.sreg 4 = BitVec.ofNat 64 (field x.raw 0x38 8) ∧ c.sreg 5 = BitVec.ofNat 64 x.bufTable ∧
         c.sreg 6 = BitVec.ofNat 64 x.bufCount ∧ c.sreg 7 = BitVec.ofNat 64 x.stepCount ∧ c.sreg 9 = BitVec.ofNat 64 x.firstStep ∧
         c.sreg 10 = BitVec.ofNat 64 x.num) ∧
        rd t (coreStateF 131) = awlRUNNING ∧ rd t (coreActiveF 131) = 1 ∧ rd t (coreIcountF 131) = 0 ∧ t.mem = u.mem ∧
        t.tickets = u.tickets.map fun y => if y.key = x.key then { y with started := true } else y))

/-- A fetch (R135, R136): the command at the cursor enters the window last, with the next sequence number, and the cursor goes on by 64 bytes;
past the section's end the ticket ends with CMD_FORMAT. The model's choices in it: log entry 67. -/
def Obligations.CommandFetch : Prop :=

  ∀ (h : Fin 16) (f : NextFetch) (raw : Bytes) (inc : Nat) (s u w : State),
    unitLive s (U.disp h) = true → fnState s h = fnRUN → nextFetch s h = some f → f.recompute = false → f.ticket.eval = false →
      (f.ticket.prog.secLen < f.off + 64 → exec (.commandFetch h) s = .next (endOfList s h f)) ∧
      (f.off + 64 ≤ f.ticket.prog.secLen → memRead s (idDisp h) (f.ticket.prog.secAddr + f.off) 64 none = (u, .ok raw) →
        let c0 := newCmd u h f raw
        readEach u h (some (cmdId u h c0)) (checkReads c0) = (w, .ok ()) →
        (∀ x, findTicket w f.ticket.key = some x → x.cancelling = false) → (findTicket w f.ticket.key).isSome = true →
          let c : Cmd := { c0 with geom := match geomRead w c0 with | some a => peekBytes w (plainAddr w a) 64 | none => zeros 64 }
          let v := syncInflight (advanceFetch (wrapAdd (setDisp w h { getDisp w h with cmds := (getDisp w h).cmds ++ [c] }) (F.HRT_DISP_SEQ_NEXT h) 1) h f c) h
          decodeCode v h f.ticket c = (0, inc) → segmentCut v h c = false →
            exec (.commandFetch h) s = .next (accept v h c inc) ∧ c.seq = rd u (F.HRT_DISP_SEQ_NEXT h) ∧ c.raw = raw ∧ c.st = .decoded ∧
            (getDisp v h).cmds = (getDisp w h).cmds ++ [c] ∧ rd v (F.HRT_DISP_SEQ_NEXT h) = (rd w (F.HRT_DISP_SEQ_NEXT h) + 1) % 2 ^ 32 ∧
            (c.opcode ≠ 2 → ∀ x ∈ (getDisp v h).cursors, ∃ y ∈ (getDisp w h).cursors,
              x = if y.ticket = f.ticket.key then { y with off := y.off + 64, pos := y.pos + 1 } else y))

/-- A decoded command that is ready and pops nothing becomes ready, reserves the entry of its put, and may start (R155, R159); one that still
waits for staging space counts it (R148). The next tile of an operand, read at its home where no used level lies between, is written into its
level's staging region and added to what its command has staged (R146, R149). A completion outside a chain (R155, R156, R160): the command leaves
the window, its increment is on its way back, its put, if it names a queue and did not fail, is on its way, and then its ticket, its segment and
the next commands go on; where the next command takes its MEs with no idle wave between, only what the next does not need is on its way back (R78;
log entry 90). STEP_END completes as soon as it is fetched (R136). The model's choices in it: log entries 69, 95. -/
def Obligations.ReadinessAndCompletion : Prop :=
  (∀ (h : Fin 16) (seq : BitVec 32) (level : Fin 3) (ref : BitVec 8) (c : Cmd) (s : State),
    unitLive s (U.disp h) = true → findCmd s h seq.toNat = some c → c.seq = seq.toNat →
      (c.st = .decoded → c.opcode ≠ 0x02 → readyMet s h c = true → hearthTakes s h c = true → popRefs c = [] →
        ∃ u, (let t := schedule u h
              exec (.commandReady h seq) s = .next (if (findCmd t h seq.toNat).any (fun x => staged x) then t else cntHearth t h 13 1)) ∧
          (∃ c', findCmd u h seq.toNat = some c' ∧ c'.st = .ready ∧ c'.raw = c.raw ∧ c'.pops = []) ∧
          u.mem = s.mem ∧ u.tickets = s.tickets ∧
          ∀ g q, putQueue c = some (g, q) → ((getDisp u g).queue q).reserved = ((getDisp s g).queue q).reserved + 1) ∧
      (let l := level.val + 1
       let n := tileOf s h c l ref.toNat
       let got (l : Nat) : Nat := (c.tiles.filter fun t => t.1 == l && t.2.1 == ref.toNat).length
       let above (x : Nat) : Prop := l < x ∧ x ≤ 3 ∧ tileOf s h c x ref.toNat ≠ 0
       let id := cmdId s h c
       c.st = .ready ∨ c.st = .requested ∨ c.st = .granted → c.placed = true → n ≠ 0 → got l < 5 →
       ∀ tile u v, (tilesOf s c l (ref == 0x10))[got l]? = some tile →
         let rs := tileReads s c (ref == 0x10) tile
         (∀ x, above x → (∀ y, above y → x ≤ y) → got x ≠ 0) → ((∃ x, above x) → u = s) →
         ((¬∃ x, above x) → touchRanges s (idDisp h) false (some id) rs = (u, .ok ())) →
         fillStage u h id l (min n (64 * rs.length)) = (v, .ok ()) →
         ∃ t, exec (.tileFetchComplete h seq level ref) s = .next t ∧ CommandIs h { c with tiles := c.tiles ++ [(l, ref.toNat, min n (64 * rs.length))] } v t)) ∧
  (∀ (h : Fin 16) (seq : BitVec 32) (c : Cmd) (s : State),
    unitLive s (U.disp h) = true → findCmd s h seq.toNat = some c → c.seq = seq.toNat →
    let u := finishCmd s h c
    (c.chain = none → swapNext s h c = none → completable s h c = true →
      exec (.commandComplete h seq) s = .next (afterComplete u h c.ticket (mesOf [c]))) ∧
    (c.chain = none → swapNext s h c = none → completable s h c = false → exec (.commandComplete h seq) s = .next s) ∧
    (∀ b, swapNext s h c = some b → exec (.commandComplete h seq) s = .next (afterComplete (swapTo s h c b) h c.ticket 0) ∧
      c.st = .done ∧ b.st = .ready ∧ b.meMask = c.meMask ∧ (b.inc ≤ c.inc ∨ incFits s h (b.inc - c.inc) = true)) ∧
    (c.opcode = 0x02 → exec (.stepEnd h seq) s = .next (afterComplete u h c.ticket 0)) ∧
    (c.opcode < 0x30 →
      (∀ x ∈ (getDisp u h).cmds, x.seq ≠ c.seq) ∧ (getDisp u h).releases = (getDisp s h).releases + c.inc ∧ u.mem = s.mem ∧
      (c.fail = 0 → ∀ g q x, putQueue c = some (g, q) → destHandle c = some x →
        u.puts = s.puts ++ [{ hearth := g, queue := q, handle := x, ticket := c.ticket, reserved := true, core := none, cmd := some (h.val, c.seq) }]) ∧
      (putQueue c = none → u.puts = s.puts)))

/-- A put takes effect at the end of its queue and is on its way no longer, whether the entry was reserved or there is room (R156, R189); every
other queue keeps its entries. The command that waited for it is done, the core that issued it has one put fewer outstanding, and a hearth core's
command may then have finished its work (R157, R172). -/
def Obligations.PutsTakeEffect : Prop :=

  ∀ (n : Nat) (p : Put) (s : State), s.puts[n]? = some p → unitLive s (U.disp p.hearth) = true → p.hearth < 16 → p.queue < 64 →
    (∀ q ∈ s.puts.take n, samePutter p q = false) →
    let queue (s : State) (h q : Nat) : HQueue := (getDisp s h).queue q
    let old := queue s p.hearth p.queue
    p.reserved = true ∨ old.entries.length + old.reserved < 16 →
      ∃ t, t = { s with puts := s.puts.eraseIdx n, disps := t.disps, regs := t.regs } ∧
        (queue t p.hearth p.queue).entries = old.entries ++ [p.handle] ∧ (queue t p.hearth p.queue).owner = some p.ticket ∧
        (queue t p.hearth p.queue).reserved = old.reserved - (if p.reserved then 1 else 0) ∧
        (∀ g q, g ≠ p.hearth ∨ q ≠ p.queue → queue t g q = queue s g q) ∧
        (∀ h q c, p.cmd = some (h, q) → findCmd s h q = some c → findCmd t h q = some (if c.st = .putting then { c with st := .done } else c)) ∧
        (p.core = none → exec (.handlePut n) s = .next t) ∧
        (∀ k, p.core = some k →
          let v := updCore t (coreKey k) fun c => { c with puts := c.puts - 1 }
          exec (.handlePut n) s = .next (if coreKey k < 128 then awlCheckDone v (coreKey k / 8) (getCore v (coreKey k)).seq else v))

/-- The commands that a dispatcher runs itself: a granted NOP is done; a granted QPUT has its handle on its way, the last of those on their way
(R157). Transfers (R152 to R154): a list of one descriptor copies its rows, as far as its pitches say, and every byte outside them keeps its
value; a tack transfer copies its bytes, 256 at most, once the dispatcher's earlier puts have taken effect. Where every request is served and no
sector holds errors, the command is done. A list of no descriptors and a transfer of no bytes are done at once. The model's choices in it: log
entry 73. -/
def Obligations.DispatcherTransfers : Prop :=
  (∀ (h : Fin 16) (seq : BitVec 32) (c : Cmd) (s : State),
    (Runs h seq 0x01 c s → ∃ t, exec (.nop h seq) s = .next t ∧ CommandIs h { c with st := .done } s t) ∧
    (Runs h seq 0x03 c s →
      let u := { s with puts := s.puts ++ [{ hearth := bits (c.fld 0x10 2) 8 4, queue := bits (c.fld 0x10 2) 0 6, handle := handleOf (c.fld 0x18 8),
                                             ticket := c.ticket, reserved := true, core := none, cmd := some (h.val, c.seq) }] }
      ∃ t, exec (.qput h seq) s = .next t ∧ CommandIs h { c with st := .putting } u t)) ∧
  (∀ (h : Fin 16) (seq : BitVec 32) (c : Cmd) (b : Bytes) (s u v w : State),
    (Runs h seq 0x08 c s → c.fld 0x18 4 = 0 → ∃ t, exec (.xfer h seq) s = .next t ∧ CommandIs h { c with st := .done } s t) ∧
    (let x := XferDesc.parse b
     let me := some (cmdId s h c)
     Runs h seq 0x08 c s → Inv s → s.symErr = [] → c.fld 0x18 4 = 1 → c.phase = 0 → memRead s (idDisp h) (c.fld 0x10 8) 32 me = (u, .ok b) → x.bad u = false →
       rangeBanksMissing u h c [(c.fld 0x10 8, 32)] = false → rangeBanksMissing u h c (x.ranges false ++ x.ranges true) = false → x.src + x.span false ≤ nearEnd → x.dst + x.span true ≤ nearEnd →
       copyRows u h (some (cmdId u h c)) ((x.ranges false).zip (x.ranges true)) = (v, .ok ()) →
         ∃ t, exec (.xfer h seq) s = .next t ∧ CommandIs h { c with st := .done } v t ∧
           (∀ i, i < x.rows → peekBytes t (x.dst + i * x.dstPitch) x.length = peekBytes s (x.src + i * x.srcPitch) x.length) ∧
           BytesKept s t ((List.range x.rows).map fun i => (x.dst + i * x.dstPitch, x.length))) ∧
    (Runs h seq 0x09 c s → c.fld 0x20 2 = 0 → ∃ t, exec (.tack h seq) s = .next t ∧ CommandIs h { c with st := .done } s t) ∧
    (let src := c.fld 0x10 8
     let dst := c.fld 0x18 8
     let n := c.fld 0x20 2
     let earlier := s.puts.any fun p => p.core.isNone && p.cmd.map (·.1) == some h.val
     (Runs h seq 0x09 c s → n ≠ 0 → earlier = true → exec (.tack h seq) s = .next s) ∧
     (Runs h seq 0x09 c s → Inv s → s.symErr = [] → n ≠ 0 → earlier = false → src + n ≤ nearEnd → dst + n ≤ nearEnd →
       memRead s (idDisp h) src n (some (cmdId s h c)) = (v, .ok b) → memWrite v (idDisp h) dst b (some (cmdId s h c)) = (w, .ok ()) →
         ∃ t, exec (.tack h seq) s = .next t ∧ CommandIs h { c with st := .done } w t ∧ peekBytes t dst n = peekBytes s src n ∧
           BytesKept s t [(dst, n)])))

/-- The commit (R24, R136): when every command of a TRAINING ticket's open step has completed on every hearth of its mask and the twin lets it,
the commit generation rises by one, the committed step index is the step's, and the ticket's open step is the next one; while a command of the
step is still held, nothing happens. The model's choices in it: log entry 71. -/
def Obligations.StepCommit : Prop :=

  ∀ (n : BitVec 48) (x : Ticket) (s : State),
    unitLive s (U.sup 1) = true → s.tickets.find? (fun t => t.num == n.toNat) = some x →
      (stepClosed s x x.steps = false → exec (.commit n) s = .next s) ∧
      (x.started = true → x.cancelling = false → x.prog.training = true → x.prog.kind = 1 → stepClosed s x x.steps = true → twinMet s = true →
        exec (.commit n) s = .next (commitStepOf s x) ∧
        (x.steps + 1 < x.stepCount →
          let t := commitStepOf s x
          rd t F.DEV_COMMIT_GEN_GEN = (rd s F.DEV_COMMIT_GEN_GEN + 1) % 2 ^ 32 ∧ t.commitStep = x.stepIndex x.steps))

/-- A grant (R57, R71): each dispatcher offers its request; the first pending request in round-robin order that may be considered and fits, with
the standing charge of the MEs that it wakes (R59), when no release waits and no request is reserved, is charged: the dispatcher's sum of
increments rises by its tokens, it is pending no longer, and the round robin goes on from it. With nothing to consider nothing more happens. A
request that was passed over STARVE_LIMIT times is reserved (R72). Releases take the given-back tokens off the dispatcher's sum and bring the
hearth's charge up to date (R56, R57, R71). The holding of R56: RP tokens scaled by voltage and wave rate against 0.80 V and 1,850 M waves/s,
rounded up. The model's choices in it: log entries 42, 43. -/
def Obligations.TokenPool : Prop :=
  (∀ (g : Fin 16) (r : TokReq) (s : State), unitLive s U.damper = true → (∀ h, h < 16 → (getDisp s h).releases = 0) →
    let v := each (List.range 16) s schedule
    (∀ h, h < 16 → reserveDue v h = false ∧ rd v (F.DMP_GRANT_RESERVED h) = 0) →
      ((robin v).filter (considered v) = [] → exec .grantRequest s = .next v) ∧
      (((robin v).filter (considered v)).head? = some g.val → (getDisp v g).pending = some r → incFits v g (r.cost v g) = true →
        ∃ u, u = grant (clearPending v g) g r ∧ exec .grantRequest s = .next (decided (if unitLive u (U.disp g) then schedule u g else u)) ∧
          (getDisp u g).incs = (getDisp v g).incs + r.rp ∧ (getDisp u g).pending = none ∧ u.damper.last = g.val ∧
          rd u (F.DMP_GRANT_PENDING g) = 0 ∧ u.mem = v.mem ∧ u.tickets = v.tickets)) ∧
  (∀ (h : Fin 16) (s : State), unitLive s U.damper = true →
    (reserveDue s h = true → ∃ t, exec (.reservation h) s = .next t ∧ rd t (F.DMP_GRANT_RESERVED h) = 1 ∧
      RegsKept s t [(F.DMP_GRANT_RESERVED h).off] ∧ t = { s with regs := t.regs }) ∧
    (reserveDue s h = false → exec (.reservation h) s = .next s) ∧
    ((getDisp s h).releases = 0 → exec (.tokenRelease h) s = .next s) ∧
    ((getDisp s h).releases ≠ 0 → ∃ u, exec (.tokenRelease h) s = .next (schedule u h) ∧
      getDisp u h = { getDisp s h with incs := (getDisp s h).incs - (getDisp s h).releases, releases := 0, meBack := 0 } ∧
      rd u (F.DMP_GRANT_RP_SUM h) = (standing u h + (getDisp u h).incs) % 2 ^ (F.DMP_GRANT_RP_SUM h).width ∧
      (∀ g, g ≠ h.val → getDisp u g = getDisp s g) ∧ u = { s with disps := u.disps, regs := u.regs })) ∧
  (∀ r c : Nat, c < 2 ^ 5 →
    let v := 600 + 10 * c
    let f := if c ≤ 10 then 1200 + 35 * c else if c ≤ 20 then 1550 + 30 * (c - 10) else 1850 + 25 * (c - 20)
    r * v * f ≤ holding r c * (800 * 1850) ∧ holding r c * (800 * 1850) < r * v * f + 800 * 1850 ∧
    (∀ r', r ≤ r' → holding r c ≤ holding r' c) ∧ holding r 20 = r)

/-- Voltage steps (R65, R69, R70): the regulator's report puts the target in force, ends the step, and charges the hearth at it; a hearth above
its set voltage then begins the next step down, and one at it, or in SHED mode one below it, begins none; a shed step after SHED_COUNT refusals
begins one lowering step on every hearth that holds ME increments and stands above V_MIN, sets the event and clears the count; a hearth that the
overdraw guard lowered begins one raising step after 16 good readings. A round of sensor readings (R62 to R66): temperatures and module input show
in their registers, the thermal ceiling follows the hottest hearth by R62's formula, and the effective ceiling is the least of its three; a failed
sensor sets SENSOR_FAIL. No memory, ticket or command changes. The model's choices in it: log entries 32, 44, 45, 46, 47. -/
def Obligations.VoltageAndSensors : Prop :=
  (∀ (h : Fin 16) (v : Nat) (s : State),
    (damperOn s = true → s.damper.steps.find? h.val = some v → v < 2 ^ 5 → ∃ u, exec (.regulatorInWindow h) s = .next (seekStep u h) ∧
      rd u (vNowF h) = v ∧ rd u (F.DMP_GRANT_HELD h) = holding (standing u h + (getDisp u h).incs) v % 2 ^ (F.DMP_GRANT_HELD h).width ∧
      u = { s with regs := u.regs, damper := { s.damper with steps := s.damper.steps.erase h.val } }) ∧
    (damperOn s = true → s.damper.steps.find? h.val = some v → v < 2 ^ 5 →
      rd s (vSetF h) = v ∨ rd s F.DMP_POLICY_MODE = 1 ∧ v ≤ rd s (vSetF h) → ∃ t, exec (.regulatorInWindow h) s = .next t ∧ rd t (vNowF h) = v ∧
        t.damper.steps.find? h.val = none ∧ t = { s with regs := t.regs, damper := { s.damper with steps := s.damper.steps.erase h.val } }) ∧
    (damperOn s = true → s.damper.steps.find? h.val = some v → v < 2 ^ 5 → rd s (vSetF h) < v →
      ∃ t, exec (.regulatorInWindow h) s = .next t ∧ rd t (vNowF h) = v ∧ t.damper.steps.find? h.val = some (v - 1) ∧
        t = { s with regs := t.regs, damper := t.damper }) ∧
    (damperOn s = true → s.damper.steps.find? h.val = none → exec (.regulatorInWindow h) s = .next s) ∧
    (unitLive s U.damper = true → rd s F.DMP_POLICY_MODE = 1 → rd s F.DMP_POLICY_SHED_COUNT ≠ 0 → rd s F.DMP_POLICY_SHED_COUNT ≤ s.damper.refused →
      holdsMe s h = true → rd s F.DMP_POLICY_V_MIN < rd s (vNowF h) → stepping s h = false →
        ∃ t, exec .shedStep s = .next t ∧ t.damper.refused = 0 ∧ rd t F.DMP_EVENT_SHED = 1 ∧
          t.damper.steps.find? h.val = some (rd s (vNowF h) - 1) ∧ rd t (vNowF h) = rd s (vNowF h) ∧ t.mem = s.mem ∧ t.disps = s.disps) ∧
    (damperOn s = true → 16 ≤ s.damper.okRun.get 0 h.val → s.damper.overLow.get 0 h.val ≠ 0 → stepping s h = false →
      rd s (vNowF h) < rd s (vSetF h) → fnState s h ≠ fnUNAVAIL →
        ∃ t, exec (.overdrawRecoverStep h) s = .next t ∧ t.damper.steps.find? h.val = some (rd s (vNowF h) + 1) ∧
          t.damper.okRun.get 0 h.val = 0 ∧ t.damper.overLow.get 0 h.val = s.damper.overLow.get 0 h.val - 1 ∧ t.mem = s.mem ∧ t.disps = s.disps)) ∧
  (∀ (r : Sensors) (s : State), damperOn s = true → r.wf = true →
    let temp (h : Nat) : Option Nat := r.hearthT.getD h none
    let hottest := (List.range 16).foldl (fun a h => max a ((temp h).getD 420)) 0
    let pool := rd s F.DMP_CEIL_CORE_TOKENS
    let therm := if hottest ≤ 380 then pool else if hottest < 420 then pool * (460 - hottest) / 80 else pool / 2
    ∃ t, exec (.sensorReading r) s = .next t ∧ t.mem = s.mem ∧ t.tickets = s.tickets ∧ t.disps = s.disps ∧ t.cores = s.cores ∧
      (∀ h v, h < 16 → temp h = some v → v < 2 ^ 9 → rd t (F.DMP_TEMP_TJ (h / 4) (h % 4)) = v) ∧
      rd t F.DMP_POOL_THERM_CEIL = therm % 2 ^ (F.DMP_POOL_THERM_CEIL).width ∧
      ((∃ i, i < 65 ∧ (Sensors.all r).getD i none = none) → rd t F.DMP_EVENT_SENSOR_FAIL = 1))

/-- The steps of a matrix engine: a woken ME begins to load its command or stands idle (R59); with its first 16 rows an ME that has loaded
streams, its command's slots LIVE (R77, R124), Bellows enables the next 16 rows of one that streams and disables the next 16 of one that drains; a
readout frees its slots and no other (R126), and one without errors in its words changes nothing else. The built-in test (R131): on a STOPPED
hearth it is queued, and as the only one of its hearth it wakes its ME and asks for 14 RP tokens; on another hearth it is refused with FUNC_STATE;
a further write while it waits or runs changes nothing (log entry 116). Its end shows the result, clears FAULTED if it passed, empties the ME's
slots and gives the tokens back. The model's choices in it: log entries 29, 90. -/
def Obligations.MatrixEngineSteps : Prop :=
  (∀ (h i : Fin 16) (s : State), unitLive s (U.me h i) = true →
    let k := 16 * h.val + i.val
    let st := rd s (F.MXE_STATE_STATE h i)
    let n := s.bellows.get 0 k
    (st = 1 → s.meTests.contains k = false → rd s (F.MXE_CMD_ACTIVE h i) = 1 → ∃ t, exec (.meWakeComplete h i) s = .next t ∧
      rd t (F.MXE_STATE_STATE h i) = 3 ∧ t.bellows.get 0 k = 0 ∧ t = { s with regs := t.regs, bellows := t.bellows }) ∧
    (st = 1 → s.meTests.contains k = false → rd s (F.MXE_CMD_ACTIVE h i) = 0 → ∃ t, exec (.meWakeComplete h i) s = .next t ∧
      rd t (F.MXE_STATE_STATE h i) = 2 ∧ t = { s with regs := t.regs }) ∧
    (∀ c, st = 3 → meCmd s h i = some c → c.meInc = 0 → exec (.bellowsStep h i) s = .next s) ∧
    (∀ c, st = 3 → meCmd s h i = some c → c.meInc ≠ 0 → ∃ t, exec (.bellowsStep h i) s = .next t ∧ t.bellows.get 0 k = 16 ∧
      (∀ j, j ≠ k → t.bellows.get 0 j = s.bellows.get 0 j) ∧ rd t (F.MXE_STATE_STATE h i) = 4 ∧
      t = { s with regs := t.regs, bellows := t.bellows } ∧ ∀ j, j < 8 → rd t (slotF h i j) = slotLIVE ∨ rd t (slotF h i j) = rd s (slotF h i j)) ∧
    (st = 4 → n < 128 → ∃ t, exec (.bellowsStep h i) s = .next t ∧ t.bellows.get 0 k = n + 16 ∧
      (∀ j, j ≠ k → t.bellows.get 0 j = s.bellows.get 0 j) ∧ t = { s with bellows := t.bellows }) ∧
    (st = 5 → 0 < n → ∃ t, exec (.bellowsStep h i) s = .next t ∧ t.bellows.get 0 k = n - 16 ∧
      (∀ j, j ≠ k → t.bellows.get 0 j = s.bellows.get 0 j) ∧ t = { s with bellows := t.bellows }) ∧
    ((∀ j, j < 8 → rd s (slotF h i j) ≠ slotREADOUT) → exec (.slotReadout h i) s = .next s) ∧
    (s.wordErrs = [] → ∃ t, exec (.slotReadout h i) s = .next t ∧ t = { s with regs := t.regs } ∧ RegsKept s t ((List.range 8).map fun k => (slotF h i k).off) ∧
      ∀ j, j < 8 → rd t (slotF h i j) = if rd s (slotF h i j) = slotREADOUT then slotFREE else rd s (slotF h i j))) ∧
  (∀ (src : Src) (h i : Fin 16) (pass : Bool) (s : State),
    let k := 16 * h.val + i.val
    (served s src = true → isRun s = true → fnState s h ≠ fnSTOPPED → ∃ t, exec (.meTest src h i) s = .next t ∧
      rd t F.DEV_CFG_ERR_CODE = Code.FUNC_STATE ∧ RegsKept s t [F.DEV_CFG_ERR_CODE.off] ∧ t = { s with regs := t.regs }) ∧
    (served s src = true → isRun s = true → fnState s h = fnSTOPPED → s.meTests = [] →
      ∃ u, exec (.meTest src h i) s = .next (schedule u h) ∧ u.meTests = [k] ∧ rd u (F.MXE_STATE_STATE h i) = 1 ∧
        (getDisp u h).awlReqs = (getDisp s h).awlReqs ++ [.meTest i.val 14] ∧ u.mem = s.mem) ∧
    (served s src = true → isRun s = true → fnState s h = fnSTOPPED → s.meTests.contains k = true → exec (.meTest src h i) s = .next s) ∧
    (unitLive s (U.me h i) = true → rd s (F.MXE_STATE_STATE h i) = 7 → s.meTests = [k] → ∃ t, exec (.meTestComplete h i pass) s = .next t ∧
      rd t (F.MXE_STATE_TEST_RESULT h i) = (if pass then 2 else 3) ∧ (pass = true → rd t (F.MXE_ERR_FAULTED h i) = 0) ∧
      rd t (F.MXE_STATE_STATE h i) = (if pass = false ∧ rd s (F.MXE_ERR_FAULTED h i) = 1 then 6 else 0) ∧ t.meTests = [] ∧
      (∀ j, j < 8 → rd t (slotF h i j) = slotFREE) ∧ (getDisp t h).releases = (getDisp s h).releases + 14 ∧ t.mem = s.mem))

/-- Handovers of banks (R328 to R332): a word that names a bank and an owner that Table 12-5 lets it have, from the bank's owner or the
supervisor, sets the owner; a hearth bank handed to nobody is powered off, and one taken from nobody wakes up cleared to zero and waits for its
clear to complete; its hearth's charge follows (R57). Every other bank and every other byte keeps what it held. A word that is refused changes
nothing over the tack path, and sets REFUSED when it was written to BNK_HANDOVER. The model's choices in it: log entry 48. -/
def Obligations.BankHandovers : Prop :=

  ∀ (who : BitVec 8) (src : Src) (w : BitVec 64) (s : State),
    let n := w.toNat % 256
    let owner := w.toNat / 256 % 256
    let old := rd s (F.BNK_OWNER_OWNER n)
    let taken (id : Nat) : Prop := n < 144 ∧ w.toNat < 65536 ∧ (id = old ∨ id = 0x30) ∧
      (owner = 0 ∨ owner = 0x30 ∨ (0x10 ≤ owner ∧ owner ≤ 0x1F ∧ (n < 16 ∨ owner = 0x10 + (n - 16) / 8)) ∨ ((owner = 0x20 ∨ owner = 0x21) ∧ n < 16))
    let g := (n - 16) / 8
    let wakes := 16 ≤ n ∧ old = 0 ∧ owner ≠ 0 ∧ fnState s g ≤ 1
    let charge := if n < 16 then [] else [(F.DMP_GRANT_RP_SUM g).off, (F.DMP_GRANT_HELD g).off, F.DMP_POOL_HELD.off]
    let effect (t : State) : Prop :=
      rd t (F.BNK_OWNER_OWNER n) = owner ∧ RegsKept s t ((F.BNK_OWNER_OWNER n).off :: charge) ∧
      (wakes ∨ (16 ≤ n ∧ old ≠ 0 ∧ owner = 0) →
        rd t (F.DMP_GRANT_RP_SUM g) = (standing t g + (getDisp t g).incs) % 2 ^ (F.DMP_GRANT_RP_SUM g).width) ∧ t = { s with regs := t.regs, mem := t.mem } ∧
      (16 ≤ n → old ≠ owner → owner = 0 → rd t (F.BNK_OWNER_OFF n) = 1 ∧ rd t (F.BNK_OWNER_CLEARING n) = 0 ∧ t.mem = s.mem) ∧
      (wakes → rd t (F.BNK_OWNER_OFF n) = 0 ∧ rd t (F.BNK_OWNER_CLEARING n) = 1 ∧
        BytesKept s t [(bankBase n, 0x200000)] ∧ ∀ a, bankBase n ≤ a → a < bankBase n + 0x200000 → peek t a = 0) ∧
      (n < 16 ∨ (old ≠ 0 ∧ owner ≠ 0) → t.mem = s.mem)
    let id := match src with | .host p => 0x20 + p.val | .supervisor => 0x30
    (isRun s = true → (0x10 ≤ who.toNat ∧ who.toNat ≤ 0x1F) ∨ who.toNat = 0x30 →
      (taken who.toNat → ∃ t, exec (.handoverWord who w) s = .next t ∧ effect t) ∧
      (¬ taken who.toNat → exec (.handoverWord who w) s = .next s)) ∧
    (served s src = true →
      (taken id → ∃ t, exec (.bnkHandoverWrite src w) s = .next t ∧ effect t) ∧
      (¬ taken id → ∃ t, exec (.bnkHandoverWrite src w) s = .next t ∧ rd t F.BNK_EVENT_REFUSED = 1 ∧ RegsKept s t [F.BNK_EVENT_REFUSED.off] ∧
        t = { s with regs := t.regs }))

/-- The aperture (R378, R442) and the end of a bank's clear (R332): a write within one bank that its host owns lands there and nowhere else;
during a stop it is held, last in order, and changes no byte. A read with none before it answers the bytes, or an abort where its request fails;
one that must wait for its bank is held too. A bank that has been cleared is CLEARING no longer, and the accesses held for it go on, in order. The
model's choices in it: log entry 66. -/
def Obligations.ApertureAndClears : Prop :=

  ∀ (p : Fin 2) (n : Fin 144) (x len : Nat) (d : Bytes) (s u : State),
    let a := 0xF00000000000 + x
    let held (s : State) (p : Nat) : List BarAccess := (s.ports.get PciPort.blank p).bar4
    let v := setPort s p { getPort s p with bar4 := [] }
    let mine (s : State) := memRead s (0x20 + p.val) a len none
    let reads := served s (.host p) = true ∧ x + len ≤ 0x8000000
    (Inv s → served s (.host p) = true → x + d.length ≤ 0x8000000 → stopActive s = false → held s p = [] → d ≠ [] →
      x / 0x800000 = (x + d.length - 1) / 0x800000 → rd s (F.BNK_OWNER_OWNER (x / 0x800000)) = 0x20 + p.val →
      rd s (F.BNK_OWNER_CLEARING (x / 0x800000)) = 0 →
        ∃ t, exec (.bar4Access p (.write x d)) s = .next t ∧ peekBytes t a d.length = d ∧ BytesKept s t [(a, d.length)] ∧ held t p = [] ∧
          t = { s with mem := t.mem, ports := t.ports }) ∧
    (served s (.host p) = true → x + d.length ≤ 0x8000000 → stopActive s = true →
      ∃ t, exec (.bar4Access p (.write x d)) s = .next t ∧ held t p = held s p ++ [.write x d] ∧ t = { s with ports := t.ports }) ∧
    (reads → stopActive s = false → held s p = [] → mine v = (u, .ok d) →
      ∃ t, exec (.bar4Access p (.read x len)) s = .next t ∧ held t p = [] ∧ t = { u with out := u.out ++ [.readBytes d], ports := t.ports }) ∧
    (∀ code, reads → stopActive s = false → held s p = [] → mine v = (u, .fail code) →
      ∃ t, exec (.bar4Access p (.read x len)) s = .next t ∧ held t p = [] ∧ t = { u with out := u.out ++ [.completerAbort], ports := t.ports }) ∧
    (reads → stopActive s = false → held s p = [] → mine v = (u, .wait) →
      ∃ t, exec (.bar4Access p (.read x len)) s = .next t ∧ held t p = [.read x len] ∧ t = { s with ports := t.ports }) ∧
    (reads → stopActive s = true → mine s = (u, .ok d) →
      ∃ t, exec (.bar4Access p (.read x len)) s = .next t ∧ t = { u with out := u.out ++ [.readBytes d] }) ∧
    (reads → stopActive s = true → mine s = (u, .wait) →
      ∃ t, exec (.bar4Access p (.read x len)) s = .next t ∧ held t p = held s p ++ [.read x len] ∧ t = { s with ports := t.ports }) ∧
    (served s (.host p) = true → 0x8000000 < x + len → exec (.bar4Access p (.read x len)) s = .next s) ∧
    (pwrGood s = true → ∃ u, rd u (F.BNK_OWNER_CLEARING n) = 0 ∧ RegsKept s u [(F.BNK_OWNER_CLEARING n).off] ∧ u = { s with regs := u.regs } ∧
      exec (.bankClearComplete n) s = .next (if stopActive s then u else flushHeld (flushBar4 (flushBar4 u 0) 1))) ∧
    (pwrGood s = true → s.held = [] → ∃ t, exec (.bankClearComplete n) s = .next t ∧
      ((∀ q, q < 2 → held s q = []) → rd t (F.BNK_OWNER_CLEARING n) = 0 ∧ RegsKept s t [(F.BNK_OWNER_CLEARING n).off] ∧ t = { s with regs := t.regs, ports := t.ports } ∧
        ∀ q, getPort t q = getPort s q) ∧
      (held s 0 = [.write x d] → held s 1 = [] → stopActive s = false → x / 0x800000 = n.val → n.val = (x + d.length - 1) / 0x800000 → d ≠ [] →
        Inv s → n.val < 16 → rd s (F.BNK_OWNER_OWNER n) = 0x20 → peekBytes t a d.length = d ∧ BytesKept s t [(a, d.length)] ∧ held t 0 = []))

/-- The near tier's own work (R315 to R319): a scrub of a group goes on to the next one; a sector whose word the decoder of its mode corrects
holds the corrected bytes and no flipped bit afterwards, one that it does not correct is poisoned and keeps its bytes; no byte outside the group's
sectors changes. A device whose transfers fail RETRY_MAX times retrains, with its retries recorded and counted, and the retraining's end makes it
READY or FAILED. Idle scrubs (R129, R167, R250, R342): the bits that have flipped stand in their words; where the function allows scrubs, an Awl
core's single flipped bits are corrected without changing a byte of its store; a unit whose function does not allow them does no more (log entry
50). The model's choices in it: log entry 57. -/
def Obligations.NearTierUpkeep : Prop :=
  (∀ (c : Fin 24) (arisen : List (Nat × Nat)) (s : State),
    let d := if c.val < 12 then 0 else 1
    let g := rd s (F.MEM_SCRUB_NEXT_GROUP c)
    let wide := 2 ^ (F.MEM_SCRUB_NEXT_GROUP c).width
    let sector (i : Nat) : Nat := nearAddr c (64 * (15 * g + i))
    let mode := rd s (F.MEM_CFG_ECC_MODE d)
    let decoded (i : Nat) : Decoded := eccDecode mode (storedWord s (sector i))
    let holds (t : State) (i : Nat) (w : List Nat) : Prop :=
      peekBytes t (sector i) 64 = (w.take 64).map (BitVec.ofNat 8) ∧ sectorErrs t (sector i) = []
    let scrubbing := unitLive s (U.gddr c) = true ∧ rd s (F.MEM_CFG_SCRUB_EN d) = 1 ∧ fnState s (0x11 + d) ≤ 1 ∧ rd s (F.MEM_STATE_STATE c) = 0 ∧
      s.lostGddr.contains d = false
    (scrubbing → ∃ t, exec (.memScrubGroup c arisen) s = .next t ∧ rd t (F.MEM_SCRUB_NEXT_GROUP c) = (g + 1) % wide ∧
      BytesKept s t ((List.range 15).map fun i => (sector i, 64)) ∧ t.disps = s.disps ∧ t.tickets = s.tickets ∧ t.cores = s.cores ∧
      rd t (F.MEM_SCRUB_PASSES c) = (if (g + 1) % wide = 0 then min (rd s (F.MEM_SCRUB_PASSES c) + 1) (2 ^ (F.MEM_SCRUB_PASSES c).width - 1)
        else rd s (F.MEM_SCRUB_PASSES c)) ∧
      (Inv s → arisen = [] → ∀ i, i < 15 → s.poison.contains (sector i) = false → sectorErrs s (sector i) ≠ [] →
        (decoded i = .good → holds t i (storedWord s (sector i))) ∧
        (∀ es, decoded i = .fixed es → holds t i (repair (storedWord s (sector i)) es) ∧ t.poison.contains (sector i) = false) ∧
        (decoded i = .bad → peekBytes t (sector i) 64 = peekBytes s (sector i) 64 ∧ t.poison.contains (sector i) = true ∧
          rd t (F.MEM_ERR_SCRUB_POISON c) = 1))) ∧
    (¬ scrubbing → exec (.memScrubGroup c arisen) s = .next s) ∧
    (pwrGood s = true → s.power ≠ .kindling → rd s (F.MEM_STATE_STATE c) = 0 → s.lostGddr.contains d = false →
      ∃ t, exec (.gddr7Retrain c) s = .next t ∧ rd t (F.MEM_STATE_STATE c) = 1 ∧ t.mem = s.mem ∧ t.disps = s.disps ∧
        rd t (F.MEM_ERR_RETRY_COUNT c) = min (rd s (F.MEM_ERR_RETRY_COUNT c) + rd s (F.MEM_CFG_RETRY_MAX d)) (2 ^ (F.MEM_ERR_RETRY_COUNT c).width - 1)) ∧
    (∀ ok : Bool, pwrGood s = true → rd s (F.MEM_STATE_STATE c) = 1 → ∃ u, exec (.gddr7RetrainComplete c ok) s = .next (flushHeld u) ∧
      rd u (F.MEM_STATE_STATE c) = (if ok then 0 else 2) ∧ RegsKept s u [(F.MEM_STATE_STATE c).off] ∧ u = { s with regs := u.regs } ∧
      (s.held = [] → flushHeld u = u))) ∧
  (∀ (h : Fin 16) (c : Fin 8) (es : List (Nat × Nat)) (s : State),
    let arisen (u : ScrubUnit) : Prop := exec (.idleScrub ⟨u, es⟩) s = .next (ariseIn s u es)
    (unitLive s (U.awl h c) = true → rd s (F.AWL_HCFG_SCRUB_EN h) = 1 → rd s (F.AWL_STATE_STATE h c) ≠ 0 →
      let u := ariseIn s (.awl (.hearth h c)) es
      let k := 8 * h.val + c.val
      ∃ t, exec (.idleScrub ⟨.awl (.hearth h c), es⟩) s = .next t ∧ t.mem = s.mem ∧ t.disps = s.disps ∧
        getCore t k = { getCore s k with lsErr := (getCore t k).lsErr } ∧
        ∀ w, (getCore u k).lsErr.get 0 w = 1 → (∀ e ∈ (getCore u k).lsErr, e.1 = w → e.2 = 1) → (getCore t k).lsErr.get 0 w = 0) ∧
    (rd s (F.AWL_HCFG_SCRUB_EN h) = 0 → arisen (.awl (.hearth h c))) ∧ (rd s (F.ROW_CFG_SCRUB_EN h) = 0 → arisen (.row h)) ∧
    (∀ i, rd s (F.MXE_HCFG_SCRUB_EN h) = 0 → arisen (.me h i)) ∧ (rd s F.COD_CFG_SCRUB_EN = 0 → arisen .codec) ∧ arisen .landing ∧
    ∀ n, arisen (.awl (.sup n)))

/-- A global stop (R440 to R442, R453): by the lead host, or by the edge of the stop-request input, it starts in RUN with a new STOP_ID, this
module's number and its source; elsewhere the edge and the lead's write change nothing, and a writer that is not the lead is refused. A marker
halts its unit; when the last of its inputs, for a link unit the peer's mark among them, has delivered one the unit has stopped and is counted,
and counted as holding where it holds items; when every unit has stopped, the device is STOPPED and its rings are frozen. The model's choices in
it: log entry 49. -/
def Obligations.GlobalStops : Prop :=

  ∀ (src : Src) (u chan items : Nat) (last : Bool) (s : State),
    let started (t : State) (source : Nat) : Prop := rd t F.MGT_STOP_STATE_STATE = 1 ∧ rd t F.MGT_STOP_STATE_SOURCE = source ∧
      rd t F.MGT_STOP_STATE_STOP_ID = (s.stopId + 1) % 2 ^ 32 ∧ t.stopId = (s.stopId + 1) % 2 ^ 32 ∧
      rd t F.MGT_STOP_STATE_ORIGIN = rd s F.DEV_IDENT_MODULE_ID ∧ rd t F.MGT_STOP_UNITS_STOPPED = 0 ∧ t.stops = [] ∧ t.power = .run ∧
      t = { s with regs := t.regs, stopId := t.stopId, stops := [] } ∧
      RegsKept s t [F.MGT_STOP_STATE_STATE.off, F.MGT_STOP_STATE_STOP_ID.off, F.MGT_STOP_UNITS_STOPPED.off, F.MGT_STOP_STATE_ORIGIN.off]
    (isRun s = true → stopActive s = false → ∃ t, exec .stopReqEdge s = .next t ∧ started t 1) ∧
    (isRun s = true → stopActive s = false → served s src = true → isLead s src = true → ∃ t, exec (.globalStop src) s = .next t ∧ started t 0) ∧
    (isRun s = false ∨ stopActive s = true → exec .stopReqEdge s = .next s ∧
      (served s src = true → isLead s src = true → exec (.globalStop src) s = .next s)) ∧
    (served s src = true → isLead s src = false → ∃ t, exec (.globalStop src) s = .next t ∧ rd t F.DEV_CFG_ERR_CODE = Code.NOT_LEAD ∧
      RegsKept s t [F.DEV_CFG_ERR_CODE.off] ∧ t = { s with regs := t.regs }) ∧
    (isRun s = true → rd s F.MGT_STOP_STATE_STATE = 1 → unitNumbers.contains u = true → (s.stops.get noStop u).stopped = false →
      let v := if (s.stops.get noStop u).seen then s else firstMarker s u
      let full := last && inputsDone v u
      ∃ t, exec (.stopMarker u chan items last) s = .next t ∧ (t.stops.get noStop u).stopped = full ∧ unitHalted t u = true ∧
        (∀ v, v ≠ u → t.stops.get noStop v = s.stops.get noStop v) ∧ t.mem = s.mem ∧ t.disps = s.disps ∧ t.tickets = s.tickets ∧
        (full = false → t = { v with stops := t.stops }) ∧
        (full = true → rd t F.MGT_STOP_UNITS_STOPPED = (rd s F.MGT_STOP_UNITS_STOPPED + 1) % 2 ^ F.MGT_STOP_UNITS_STOPPED.width) ∧
        (full = true → unitLink u = none → s.stops.find? u = none → rd t F.MGT_STOP_UNITS_HOLDING =
          (rd s F.MGT_STOP_UNITS_HOLDING + if items = 0 then 0 else 1) % 2 ^ F.MGT_STOP_UNITS_HOLDING.width) ∧
        (full = true → (∀ v ∈ unitNumbers, v ≠ u → (s.stops.get noStop v).stopped = true) →
          t.power = .stopped ∧ rd t F.MGT_STOP_STATE_STATE = 2 ∧ rd t F.EMB_CTL_FREEZE = 1))

/-- Observing and resuming (R435, R439, R444, R445): RESUME by the lead host of a STOPPED device clears the stop and unfreezes the rings; then the
links process what they held, held BAR4 accesses and held writes go on, cancels that were taken during the stop act, and every dispatcher goes on;
it is refused elsewhere and to others. Freezing stops the rings; unfreezing writes each unit's lost entries as one. A debug read answers a core's
word with ERR clear while the device is STOPPED, and zero with ERR set otherwise. A pace-ring step counts. The model's choices in it: log entry
93. -/
def Obligations.ObservingAndResuming : Prop :=

  ∀ (src : Src) (h : Fin 16) (s : State), served s src = true →
    (isLead s src = true → s.power = .stopped → ∃ u, u.power = .run ∧ rd u F.MGT_STOP_STATE_STATE = 0 ∧ u.stops = [] ∧ rd u F.EMB_CTL_FREEZE = 0 ∧
      u.mem = s.mem ∧ u.disps = s.disps ∧ u.tickets = s.tickets ∧ u.links = s.links ∧
      (let v := flushHeld (flushBar4 (flushBar4 (each (List.range 13) u resumeLink) 0) 1)
       exec (.resume src) s = .next (each (List.range 16) (each (v.tickets.filter (·.cancelling)) v fun s t => finishCancel s t.key) schedule))) ∧
    (∀ code, code = (if isLead s src then Code.FUNC_STATE else Code.NOT_LEAD) → isLead s src = false ∨ s.power ≠ .stopped →
      ∃ t, exec (.resume src) s = .next t ∧ rd t F.DEV_CFG_ERR_CODE = code ∧ RegsKept s t [F.DEV_CFG_ERR_CODE.off] ∧ t = { s with regs := t.regs }) ∧
    (∃ t, exec (.emberFreeze src) s = .next t ∧ rd t F.EMB_CTL_FREEZE = 1 ∧ RegsKept s t [F.EMB_CTL_FREEZE.off] ∧ t = { s with regs := t.regs }) ∧
    (rd s F.EMB_CTL_FREEZE = 0 → exec (.emberUnfreeze src) s = .next s) ∧
    (∀ u n, rd s F.EMB_CTL_FREEZE = 1 → s.emberLost = [(u, n)] → n ≠ 0 → ∃ t, exec (.emberUnfreeze src) s = .next t ∧ rd t F.EMB_CTL_FREEZE = 0 ∧
      t.emberLost = [] ∧ rd t (F.EMB_HEAD_NEXT u) = (rd s (F.EMB_HEAD_NEXT u) + 1) % 2 ^ (F.EMB_HEAD_NEXT u).width ∧
      ∃ e, emberAt t u (rd s (F.EMB_HEAD_NEXT u) % 256) = some e ∧ e.type = 7 ∧ e.arg = n % 2 ^ 32 ∧ e.cmdValid = false) ∧
    (∀ k i, s.power = .stopped → unitCore (rd s F.MGT_DBG_SEL_UNIT) = some k → rd s F.MGT_DBG_SEL_SPACE = 0 → rd s F.MGT_DBG_SEL_INDEX = i → i < 32 →
      ∃ t, exec (.debugRead src) s = .next t ∧ t.out = s.out ++ [.readReply ((getCore s k).sreg (Fin.ofNat 32 i))] ∧ rd t F.MGT_DBG_SEL_ERR = 0 ∧
        t.cores = s.cores ∧ t.mem = s.mem) ∧
    (s.power ≠ .stopped → ∃ t, exec (.debugRead src) s = .next t ∧ t.out = s.out ++ [.readReply 0] ∧ rd t F.MGT_DBG_SEL_ERR = 1 ∧
      RegsKept s t [F.MGT_DBG_SEL_ERR.off] ∧ t = { s with regs := t.regs, out := t.out }) ∧
    (∃ t, exec (.paceRingStep h) s = .next t ∧ rd t (F.CNT_HEARTH_VALUE h 0) = (rd s (F.CNT_HEARTH_VALUE h 0) + 1) % 2 ^ 48 ∧
      RegsKept s t [(F.CNT_HEARTH_VALUE h 0).off] ∧ t = { s with regs := t.regs })

/-- The lead and the ports (R369, R370, R379): only the lead gives the lead, and only to a port that is up with its driver ready; it passes of
itself when the lead port loses its link or is reset while the other is up, and to a port that comes up while the lead's link is down. A link that
comes up outside Table 14-1 and HIF_CFG is FAILED. A reset clears the port's rings, interrupts, DRIVER_READY and Bus Master Enable and touches no
function, ticket or byte of memory. What a lost domain leaves (R22, R324, R377): a CXL port is DOWN with FAR_LINK, its function UNAVAILABLE, its
region as large as before; a memory die's devices and the flash are lost. A host read that is not completed in time fails its command with
HOST_ACCESS: the command is done, puts nothing, and its ticket ends with that code, the command's number and its hearth (R161). The model's
choices in it: log entries 54, 55, 58. -/
def Obligations.LeadPortsAndLostDomains : Prop :=
  (∀ (src : Src) (p : Fin 2) (x : PcieTrain) (s : State),
    let other := 1 - leadPort s
    let hostSide (t : State) : Prop := t = { s with regs := t.regs, ports := t.ports, out := t.out } ∧ (∀ f, fnState t f = fnState s f) ∧
      t.power = s.power
    let leadIs (t : State) (q : Nat) : Prop := rd t F.DEV_STATE_LEAD_PORT = q ∧ (q ≠ leadPort s → rd t F.HIF_LEAD_LEAD_PORT = q ∧
      rd t F.HIF_LEAD_CHANGES = min (rd s F.HIF_LEAD_CHANGES + 1) (2 ^ 16 - 1) ∧ ∀ q, q < 2 → rd t ⟨(F.HIF_IRQ_PEND q).off, 5, 1⟩ = 1)
    let afterLoss := if p.val = leadPort s ∧ portUp s (1 - p.val) = true then 1 - p.val else leadPort s
    let fits := x.trained = true ∧ x.flit = true ∧ (x.lanes = 8 ∨ (x.lanes = 4 ∧ rd s (F.HIF_CFG_ALLOW_X4 p) = 1)) ∧
      (x.rate32 = true → rd s (F.HIF_CFG_ALLOW_32GT p) = 1)
    (served s src = true → isLead s src = true → portUp s other = true → rd s (F.HIF_PORT_DRIVER_READY other) = 1 →
      ∃ t, exec (.leadGive src) s = .next t ∧ leadIs t other ∧ hostSide t) ∧
    (served s src = true → isLead s src = true → portUp s other = false ∨ rd s (F.HIF_PORT_DRIVER_READY other) = 0 →
      ∃ t, exec (.leadGive src) s = .next t ∧ rd t F.HIF_LEAD_REFUSED = 1 ∧ RegsKept s t [F.HIF_LEAD_REFUSED.off] ∧ t = { s with regs := t.regs } ∧
        leadIs t (leadPort s)) ∧
    (served s src = true → isLead s src = false → ∃ t, exec (.leadGive src) s = .next t ∧ rd t F.DEV_CFG_ERR_CODE = Code.NOT_LEAD ∧
      RegsKept s t [F.DEV_CFG_ERR_CODE.off] ∧ t = { s with regs := t.regs }) ∧
    (portsTrained s = true → portUp s p = false → ∃ t, exec (.portLinkUp p x) s = .next t ∧ hostSide t ∧
      (fits → rd t (F.HIF_PORT_STATE p) = 2 ∧ rd t (F.HIF_PORT_WIDTH p) = x.lanes ∧ rd t (F.HIF_PORT_RATE p) = (if x.rate32 then 1 else 0) ∧
        leadIs t (if portUp s (leadPort s) = true then leadPort s else p.val)) ∧
      (¬ fits → rd t (F.HIF_PORT_STATE p) = 3 ∧ rd t (F.HIF_PORT_WIDTH p) = 0 ∧ leadIs t (leadPort s))) ∧
    (pwrGood s = true → portUp s p = true → ∃ t, exec (.portLinkDown p) s = .next t ∧ rd t (F.HIF_PORT_STATE p) = 0 ∧
      rd t (F.HIF_PORT_WIDTH p) = 0 ∧ leadIs t afterLoss ∧ hostSide t ∧ exec (.edgeDomainLoss (.pcie p)) s = .next t) ∧
    (pwrGood s = true → ∃ t, exec (.portReset p) s = .next t ∧ hostSide t ∧ leadIs t afterLoss ∧ (∀ r, r < 4 → ringOn t p r = false) ∧
      rd t (F.HIF_IRQ_PEND p) = (if afterLoss = leadPort s then 0 else 32) ∧ rd t (F.HIF_PORT_DRIVER_READY p) = 0 ∧ rd t (F.HIF_PORT_BME p) = 0 ∧
      (getPort t p).d3hot = false ∧ (getPort t p).msixEnable = false ∧ (getPort t p).bar4 = (getPort s p).bar4 ∧
      ∀ r, r < 4 → ringOn t (1 - p.val) r = ringOn s (1 - p.val) r)) ∧
  (∀ (n : Fin 4) (d : Fin 2) (p : Fin 2) (h : Fin 16) (seq : BitVec 32) (c : Cmd) (x : Ticket) (s : State),
    (pwrGood s = true → rd s (F.CXL_STATE_STATE n) = 2 → ∃ t, exec (.edgeDomainLoss (.cxl n)) s = .next t ∧ rd t (F.CXL_STATE_STATE n) = 0 ∧
      rd t (F.CXL_STATE_CODE n) = Code.FAR_LINK ∧ rd t (F.CXL_ERR_LINK_DOWN n) = 1 ∧ farSize t n = farSize s n ∧ fnState t (0x30 + n.val) = fnUNAVAIL ∧
      (∀ f, f ≠ 0x30 + n.val → fnState t f = fnState s f) ∧ t.mem = s.mem ∧ t.disps = s.disps ∧ t.tickets = s.tickets) ∧
    (pwrGood s = true → s.lostGddr.contains d.val = false → ∃ t, exec (.edgeDomainLoss (.gddr d)) s = .next t ∧
      t = { s with lostGddr := s.lostGddr ++ [d.val] }) ∧
    (pwrGood s = true → s.staged = none → exec (.edgeDomainLoss .flash) s = .next { s with lostFlash := true }) ∧
    (∀ st, pwrGood s = true → s.staged = some st → let u := { s with lostFlash := true }
      exec (.edgeDomainLoss .flash) s = .next (if drainReady u st then drainFail u U.flash Code.FLASH_LINK else u)) ∧
    (isRun s = true → portUp s p = true → rd s (F.HIF_PORT_BME p) = 1 → findCmd s h seq.toNat = some c → c.seq = seq.toNat →
      c.st = .granted ∨ c.st = .working → 4 ≤ c.opcode → c.fail = 0 → findTicket s c.ticket = some x → x.cancelling = false →
        ∃ t c' x', exec (.completionTimeout p h seq) s = .next t ∧ findCmd t h seq.toNat = some c' ∧ c'.st = .done ∧ c'.fail = Code.HOST_ACCESS ∧
          findTicket t c.ticket = some x' ∧
          x' = { x with cancelling := true, status := Code.HOST_ACCESS, faultSeq := c.seq, faultHearth := h.val, flags := x'.flags }))

/-- Interrupts (R372, R380, R383): clearing a pending bit clears no other and drops the bit's held message; a message that was held leaves with
its vector's address and data as soon as the port can send it; an aligned write of 4 or 8 bytes changes those bytes of the MSI-X table, any other
width or alignment is refused with BAR_WIDTH. Configuration writes set what they name. The model's choices in it: log entry 8. -/
def Obligations.InterruptMessages : Prop :=

  ∀ (src : Src) (p : Fin 2) (v : BitVec 64) (k off len : Nat) (on : Bool) (s : State),
    let q := getPort s p
    let pend (s : State) (k : Nat) : Nat := rd s ⟨(F.HIF_IRQ_PEND p).off, k, 1⟩
    (served s src = true → ∃ t, exec (.irqClear src p v) s = .next t ∧ (∀ k, k < 8 → pend t k = if v.getLsbD k then 0 else pend s k) ∧
      RegsKept s t [(F.HIF_IRQ_PEND p).off] ∧ t = { s with regs := t.regs, ports := t.ports } ∧
      getPort t p = { q with held := q.held.filter fun k => !bit v.toNat k } ∧ getPort t (1 - p.val) = getPort s (1 - p.val)) ∧
    (served s (.host p) = true → off + len ≤ 128 → len = 4 ∨ len = 8 → off % len = 0 → q.held = [] →
      ∃ t, exec (.msixTableWrite p off len v) s = .next t ∧ t = { s with ports := t.ports } ∧ getPort t (1 - p.val) = getPort s (1 - p.val) ∧
        getPort t p = { q with table := (getPort t p).table } ∧
        ∀ i, i < 128 → (getPort t p).table.get 0 i = if off ≤ i ∧ i < off + len then BitVec.ofNat 8 (v.toNat / 2 ^ (8 * (i - off))) else q.table.get 0 i) ∧
    (served s (.host p) = true → off < 128 → off + len ≤ 128 → ¬ ((len = 4 ∨ len = 8) ∧ off % len = 0) →
      ∃ t, exec (.msixTableWrite p off len v) s = .next t ∧ rd t F.HIF_ERR_CODE = Code.BAR_WIDTH ∧ rd t F.HIF_ERR_PORT = p.val ∧
        (getPort t p).table = q.table) ∧
    (pwrGood s = true → q.held = [] →
      (∃ t, exec (.pcieConfigWrite p (.busMaster on)) s = .next t ∧ rd t (F.HIF_PORT_BME p) = (if on then 1 else 0) ∧
        RegsKept s t [(F.HIF_PORT_BME p).off] ∧ t = { s with regs := t.regs, ports := t.ports }) ∧
      (∃ t, exec (.pcieConfigWrite p (.power on)) s = .next t ∧ getPort t p = { q with d3hot := on } ∧ t = { s with ports := t.ports }) ∧
      (∃ t, exec (.pcieConfigWrite p (.msixEnable on)) s = .next t ∧ getPort t p = { q with msixEnable := on } ∧ t = { s with ports := t.ports }) ∧
      (∃ t, exec (.pcieConfigWrite p (.msixFunctionMask on)) s = .next t ∧ getPort t p = { q with msixMask := on } ∧ t = { s with ports := t.ports })) ∧
    (pwrGood s = true → q.held = [k] → k < 8 → pend s k = 1 → portUp s p = true → q.d3hot = false → q.msixEnable = true → msixMasked q k = false →
      ∃ t, exec (.pcieConfigWrite p (.busMaster true)) s = .next t ∧ (getPort t p).held = [] ∧
        t.out = s.out ++ [.msix p k (msixEntry q k 0 8) (msixEntry q k 8 4)])

/-- A store of a tensor in a format that is no block format and takes whole bytes (R82, R99): every element holds the value narrowed to the
format, where elements do not share bytes, and no byte outside the tensor's lines changes. -/
def Obligations.TensorStores : Prop :=

  ∀ (d : Desc) (f : Fmt) (m : StoreMode) (v : List Nat → FVal) (s : State),
    Inv s → d.format = some f → f.isDq = false → f.bits ≠ 4 → d.sizes.length = d.rank → d.base + d.span ≤ nearEnd →
      let t := (storeTensor s d m v).1
      let at_ (ix : List Nat) : Nat := (d.elemAddr f ix).1
      t = { s with mem := t.mem } ∧ BytesKept s t d.ranges ∧
      ((∀ x ∈ d.indices, ∀ y ∈ d.indices, x ≠ y → at_ x + f.bits / 8 ≤ at_ y ∨ at_ y + f.bits / 8 ≤ at_ x) →
        ∀ ix ∈ d.indices, d.rawElem t f ix = (storeElem f m (d.linear ix) (v ix)).1 % 2 ^ f.bits)

/-- Integer products are exact (R98, R114): where no sum can leave 32 bits, the accumulator of an INT4 or INT8 product holds the exact sum of the
K products, whatever the tiling of K. MM (R123, R140, R97, R126): a command that names no work is done at once. Else, where its requests are
served, its slots are free to use and its words are good, C holds the readout of the accumulators; a command that keeps its sums leaves them in
KEPT slots and writes no byte. The model's choices in it: log entries 28, 29. -/
def Obligations.MatrixProducts : Prop :=
  (∀ (P : Prod) (b m n : Nat), P.arr = .int4 ∨ P.arr = .int8 → 0 < P.kt → P.k ≤ 2 ^ 17 - 1 →
    (∀ k, k < P.k → (-128 ≤ (P.a b m k).q ∧ (P.a b m k).q ≤ 127) ∧ -128 ≤ (P.b b k n).q ∧ (P.b b k n).q ≤ 127) →
      sext 32 (accumulate P b m n none).1 = (List.range P.k).foldl (fun t k => t + (P.a b m k).q * (P.b b k n).q) 0) ∧
  (∀ (h : Fin 16) (seq : BitVec 32) (c : Cmd) (s u v w : State), Runs h seq 0x10 c s →
    let a := (mmA s c).desc
    let b := (mmB s c).desc
    let d := (mmC s c).desc
    (a.rank = 0 ∨ b.rank = 0 ∨ d.rank = 0 ∨ c.ktF = 0 ∨ c.ntF = 0 ∨ c.runF = 0 ∨ d.size 0 = 0 ∨ d.size 1 = 0 ∨
      d.size 2 = 0 ∨ d.size 3 = 0 → DoneAtOnce h c (.mm h seq) s) ∧
    (∀ fa fb arr, a.format = some fa → b.format = some fb → arr = (pairFormat fa fb c.passes).getD .bf16 →
      let P := mmProd s c arr a b d
      let T := c.tiling true
      let sum (b m n : Nat) : Nat := (accumulate P b m n (initOf v h P T c.acc b m n)).1
      s.symErr = [] → ¬ (a.rank = 0 ∨ b.rank = 0 ∨ d.rank = 0) → noStream P c = false → readTensors s h c [a, b] = (u, .ok ()) → slotRule u h c P T c.acc = 0 →
      readMes u h T.mes (P.k != 0) (fun i => if c.acc.accIn then (List.range (T.liveAll P i)).map (c.acc.base + ·) else []) (some (cmdId u h c)) =
        (v, none) → d.scalePtr = 0 →
        (c.acc.keep = false → writeRanges v h c d.ranges = (w, .ok []) →
          StoresAndDone h c (.mm h seq) s w d (readoutMode u c a b d) fun ix =>
            accValue arr (sum (ix.getD 2 0 + d.size 2 * ix.getD 3 0) (ix.getD 1 0) (ix.getD 0 0))) ∧
        (c.acc.keep = true → ∃ t, exec (.mm h seq) s = .next t ∧ StandsAs t h { c with st := .done } ∧ t.mem = v.mem ∧
          ∀ i ∈ T.mes, ∀ k, k < T.liveAll P i → (keptAt t (16 * h + i) (c.acc.base + k)).isSome = true)))

/-- CONV and POOL (R198, R208, R209, R221, R222): a command that names no work is done at once; one whose output is empty is done with its notice
in the ticket's flags and writes nothing; else the destination holds the readout of the implicit product, or the pooled values. The largest of a
window is what maximum pooling gives. -/
def Obligations.ConvolutionAndPooling : Prop :=

  ∀ (h : Fin 16) (seq : BitVec 32) (c : Cmd) (s u v w : State),
    (Runs h seq 0x11 c s →
      let a := (convA s c).desc
      let b := (convB s c).desc
      let d := (convC s c).desc
      let o := convOp c a b d
      (a.rank = 0 ∨ b.rank = 0 ∨ d.rank = 0 → DoneAtOnce h c (.conv h seq) s) ∧
      (∀ fa fb arr, a.format = some fa → b.format = some fb → arr = (pairFormat fa fb c.passes).getD .bf16 → ¬ (a.rank = 0 ∨ b.rank = 0 ∨ d.rank = 0) →
        (o.g.taps = 0 ∨ o.g.groups = 0 → DoneAtOnce h c (.conv h seq) s) ∧
        (o.g.taps ≠ 0 → o.g.groups ≠ 0 → convEmpty c o = true → ∃ t, exec (.conv h seq) s = .next t ∧
          findCmd t h c.seq = some { c with st := .done } ∧ t.mem = s.mem ∧
          ∀ x, findTicket s c.ticket = some x → findTicket t c.ticket = some { x with flags := x.flags ||| 8 }) ∧
        (let P := if c.wino = 0 then convProd s c arr a b d else winoRows s c a b o
         o.g.taps ≠ 0 → o.g.groups ≠ 0 → convEmpty c o = false → noStream P c = true → DoneAtOnce h c (.conv h seq) s) ∧
        (let P := convProd s c arr a b d
         let T := c.tiling false
         let sum (b m n : Nat) : Nat := ((if c.role = 1 then dgradVal o P else accumulate P) b m n (initOf v h P T c.acc b m n)).1
         s.symErr = [] → o.g.taps ≠ 0 → o.g.groups ≠ 0 → convEmpty c o = false → c.wino = 0 → noStream P c = false →
         readRanges s h c (convReads c o a ++ b.ranges ++ recRanges a false ++ recRanges b false) = (u, .ok ()) → slotRule u h c P T c.acc = 0 →
         readMes u h T.mes (P.k != 0) (fun i => if c.acc.accIn then (List.range (T.liveAll P i)).map (c.acc.base + ·) else [])
           (some (cmdId u h c)) = (v, none) → c.acc.keep = false → d.scalePtr = 0 → writeRanges v h c d.ranges = (w, .ok []) →
           StoresAndDone h c (.conv h seq) s w d (readoutMode u c a b d) fun ix =>
             let p := convAt c o ix
             accValue arr (sum p.1 p.2.1 p.2.2)))) ∧
    (Runs h seq 0x12 c s →
      let a := (poolA s c).desc
      let d := (poolC s c).desc
      let g := Geom.parse c.geom
      let x (i : Nat) : Nat := if i = 2 ∧ g.dims = 2 then 1 else a.size (1 + i)
      let empty := ∃ i, i < 3 ∧ ((x i : Int) + at3 g.lo i + at3 g.hi i < at3 g.dil i * ((at3 g.k i : Int) - 1) + 1 ∨ x i = 0)
      (a.rank = 0 ∨ d.rank = 0 ∨ g.taps = 0 ∨ c.awlMask = 0 → DoneAtOnce h c (.pool h seq) s) ∧
      ((∀ i, i < 3 → 0 < at3 g.st i) → ¬ (a.rank = 0 ∨ d.rank = 0 ∨ g.taps = 0 ∨ c.awlMask = 0) →
        (empty → ∃ t, exec (.pool h seq) s = .next t ∧ findCmd t h c.seq = some { c with st := .done } ∧ t.mem = s.mem ∧
          ∀ x, findTicket s c.ticket = some x → findTicket t c.ticket = some { x with flags := x.flags ||| 8 }) ∧
        (¬ empty → readRanges (poolCores s h c) h c (poolReads g a ++ recRanges a false) = (u, .ok ()) →
          writeRanges u h c d.ranges = (w, .ok []) → d.scalePtr = 0 →
          StoresAndDone h c (.pool h seq) s w d (plainMode u c d) fun ix => (poolValue u c g a ix).1))) ∧
    (∀ (g : Geom) (a : Desc) (ix : List Nat), g.pool = 1 →
      let view := View.plain g.dims a
      let o := if g.dims = 2 then [ix.getD 1 0, ix.getD 2 0, 0] else [ix.getD 1 0, ix.getD 2 0, ix.getD 3 0]
      let inside := (List.range g.taps).filterMap fun t => g.tapPos view.x o (g.tap t)
      let val (p : List Nat) : FVal := (scaledElem s c.subn a (view.ix (ix.getD 0 0) p (ix.getD (g.dims + 1) 0))).1
      inside ≠ [] → (∀ p ∈ inside, (val p).isFinite = true) →
        (∃ p ∈ inside, (poolValue s c g a ix).1 = val p) ∧
        ∀ p ∈ inside, FVal.gt (val p) (poolValue s c g a ix).1 = false)

/-- ATTN without a cache (R226, R227, R230): a command that names no tensor or no query is done at once; else, where its requests are served, the
destination holds each query row's outputs, and a row with no live key holds zeros. -/
def Obligations.Attention : Prop :=

  ∀ (h : Fin 16) (seq : BitVec 32) (c : Cmd) (s u v w y : State), Runs h seq 0x18 c s → kvPaged c = false → s.symErr = [] →
    let q := (atQ s c).desc
    let o := (atO s c).desc
    let k := (atK s c).desc
    let x := (atV s c).desc
    (q.rank = 0 ∨ o.rank = 0 ∨ k.rank = 0 ∨ x.rank = 0 → DoneAtOnce h c (.attn h seq) s) ∧
    (¬ (q.rank = 0 ∨ o.rank = 0 ∨ k.rank = 0 ∨ x.rank = 0) → atBias c = 0 → atStats c = false → q.count ≠ 0 → o.scalePtr = 0 →
      readTensors s h c [q, k, x] = (u, .ok ()) → readMes u h (maskBits c.meMask 16) true (fun _ => []) (some (cmdId u h c)) = (v, none) →
      readBuffer v h (cmdId v h c) = (y, .ok ()) → writeRanges y h c o.ranges = (w, .ok []) →
        let rows := atRows y c q none
        StoresAndDone h c (.attn h seq) s w o (plainMode y c o) fun ix =>
          match rows[ix.getD 2 0 + q.size 2 * (ix.getD 1 0 + q.size 1 * ix.getD 3 0)]? with
          | some r => r.out.getD (ix.getD 0 0) (FVal.fin false 0 0)
          | none => FVal.fin false 0 0) ∧
    (∀ n zs vs, (∀ z ∈ zs, z.v = FVal.inf true) → (atRow s c n zs vs).live = false ∧ (atRow s c n zs vs).out = [])

/-- A walk latches its sequence (R242): the live slot's count of walks and the sequence's HOLDS rise by one, the walk stands at the latched slot,
and no other byte changes. A walk that waits for pages and finds one free takes the page at the ring's head (R244, R248); one that does not wait
is left as it is, and the attention sequencer's register shows how it stands. The copies of a pre-empted sequence and of a resumed one (R246,
R247), for a sequence of one page: the page's bytes stand at the swap address, its entries in both slots say so, the sequence is SWAPPED and its
page is the ring's last; or the bytes stand in the page the walk was given, its entries are resident and the sequence is ACTIVE. Then the walk's
own request goes on. The model's choices in it: log entry 75. -/
def Obligations.CacheWalksAndSwaps : Prop :=
  (∀ (h : Fin 16) (seq : BitVec 32) (c : Cmd) (x : Ticket) (q : Nat) (s u v : State),
    let r := KvRec.at s (kvAddr c)
    let count := r.addr + (if r.live = 0 then 0x60 else 0x62)
    Inv s → findCmd s h seq.toNat = some c → c.seq = seq.toNat → c.st = .granted → kvPaged c = true → homeLive s r = true →
    findTicket s c.ticket = some x → x.cancelling = false → s.symErr = [] →
      (kvAppend c = false → findWalk s h c.seq = none → walkSeqs s c = [(q : Int)] → q < r.seqs → r.live ≤ 1 → r.seqState s q = sqACTIVE →
        touchRanges s (idDisp h) false (some (cmdId s h c)) [(r.addr, 128), (r.seqAddr q, 16), (r.entryAddr r.live q 0, 8 * r.maxPages)] = (u, .ok ()) →
        entriesBad q (r.entries s r.live q) = false → kvTouch u h c [] (holdRanges r r.live [q]) = (v, .ok ()) → r.addr + 128 ≤ r.seqAddr q ∨ r.seqAddr q + 16 ≤ r.addr →
          ∃ t w, exec (.kvHomeRequest h seq) s = .next t ∧ findWalk t h c.seq = some w ∧ w.phase = 1 ∧ w.slot = r.live ∧ w.seqs = [q] ∧
            w.cache = r.addr ∧ w.append = false ∧ peekNat t count 2 = (peekNat s count 2 + 1) % 65536 ∧
            r.seqHolds t q = (r.seqHolds s q + 1) % 65536 ∧ BytesKept s t [(count, 2), (r.seqAddr q + 4, 2)] ∧
            rd t (F.ATS_KV_WALKING h) = 1 ∧ rd t (F.ATS_KV_LATCHED h) = r.live ∧ t.disps = s.disps ∧ t.tickets = s.tickets) ∧
      (∀ w, findWalk s h c.seq = some w → w.hearth = h.val → w.cmd = c.seq →
        (w.waiting = false → exec (.kvRetry h seq) s = .next (wr s (F.ATS_STATE_STATE h) (walkState w c))) ∧
        (w.waiting = true → w.append = true → w.phase = 1 → w.victims = [] → w.swapIn = none → w.seqs = [q] → w.pages = [] → r.sameSlots s q = true →
          newPages (r.entries s w.slot q) (walkLq s c) = 1 → ceilDiv (lengthOf (r.entries s w.slot q) + walkLq s c) 16 ≤ r.maxPages →
          1 ≤ r.freeCount s → 0 < r.ringSize →
          kvTouch s h c [(r.entryAddr 0 q 0, 8 * r.maxPages), (r.entryAddr 1 q 0, 8 * r.maxPages)] [] = (u, .ok ()) →
          kvTouch u h c (r.ringRanges (r.freeHead s) 1) [(r.addr + 0x34, 8)] = (v, .ok ()) →
            ∃ t, exec (.kvRetry h seq) s = .next t ∧
              findWalk t h c.seq = some { w with phase := 2, used := 0, waiting := false, pages := [(q, [peekNat s (r.ring + 8 * (r.freeHead s % r.ringSize)) 8])] } ∧
              r.freeCount t = r.freeCount s - 1 ∧ r.freeHead t = (r.freeHead s + 1) % r.ringSize ∧ BytesKept s t [(r.addr + 0x34, 8)] ∧
              t.disps = s.disps ∧ t.tickets = s.tickets))) ∧
  (∀ (h : Fin 16) (seq : BitVec 32) (c : Cmd) (w : KvWalk) (q p a b : Nat) (rest : List Nat) (s v : State),
    let r := KvRec.at s (kvAddr c)
    let far (x : Nat) : Prop := 0x010000000000 ≤ x ∧ x + r.pageBytes ≤ 0x050000000000
    let fill (slot : Nat) : Nat := entFill (r.entry s slot q p)
    Inv s → findCmd s h seq.toNat = some c → c.seq = seq.toNat → c.st = .granted → kvPaged c = true → homeLive s r = true →
    findWalk s h c.seq = some w → w.hearth = h.val → w.cmd = c.seq → s.symErr = [] → q < r.seqs → p < r.maxPages → a + r.pageBytes ≤ nearEnd →
    [(r.addr, 128), (r.tableA, r.tableBytes), (r.tableB, r.tableBytes), (r.seqTable, 16 * r.seqs), (r.ring, 8 * r.ringSize),
      (a, r.pageBytes)].Pairwise (fun x y => x.1 + x.2 ≤ y.1 ∨ y.1 + y.2 ≤ x.1) →
    r.addr + 128 ≤ nearEnd → r.tableA + r.tableBytes ≤ nearEnd → r.tableB + r.tableBytes ≤ nearEnd → r.seqTable + 16 * r.seqs ≤ nearEnd →
    r.ring + 8 * r.ringSize ≤ nearEnd →
      (w.victims = q :: rest → r.resident s q = [(p, a)] → b = r.swapBase + (q * r.maxPages + p) * r.pageBytes → far b → r.freeCount s < r.ringSize →
        thenPush r w c [a] (swapPages s r w c q [(p, a, b)]) = (v, .ok ()) →
          ∃ t, exec (.swapOutComplete h seq) s = .next (showWalk (kvGoOn t r { w with victims := rest } c) h c.seq) ∧ peekBytes t b r.pageBytes = peekBytes s a r.pageBytes ∧
            (∀ slot, slot < 2 → r.entry t slot q p = entOf false (fill slot) b q % 2 ^ 64) ∧ r.seqState t q = sqSWAPPED ∧
            r.freeCount t = r.freeCount s + 1 ∧ peekNat t (r.ring + 8 * ((r.freeHead s + r.freeCount s) % r.ringSize)) 8 = a ∧
            findWalk t h c.seq = some { w with victims := rest } ∧ t.disps = s.disps ∧ t.tickets = s.tickets) ∧
      (w.victims = [] → w.swapIn = some (q, [a]) → r.absent s q = [(p, b)] → far b → swapPages s r w c q [(p, b, a)] = (v, .ok ()) →
        ∃ t, exec (.swapInComplete h seq) s = .next (showWalk (kvGoOn t r { w with swapIn := none } c) h c.seq) ∧ peekBytes t a r.pageBytes = peekBytes s b r.pageBytes ∧
          (∀ slot, slot < 2 → r.entry t slot q p = entOf true (fill slot) a q % 2 ^ 64) ∧ r.seqState t q = sqACTIVE ∧
          findWalk t h c.seq = some { w with swapIn := none } ∧ t.disps = s.disps ∧ t.tickets = s.tickets))

/-- PT_COMMIT (R245): with no APPEND walk of the cache it flips LIVE and takes the released pages, and while one runs it waits; once the former
slot has no walks, its table becomes a copy of the live one, the released pages join the ring in order, and the command is done. The model's
choices in it: log entry 76. -/
def Obligations.CacheCommits : Prop :=

  ∀ (h : Fin 16) (seq : BitVec 32) (c : Cmd) (d : Bytes) (s u v w : State), Inv s → Runs h seq 0x19 c s → s.symErr = [] →
    let me := some (cmdId s h c)
    let r := KvRec.at s (kvAddr c)
    let n := peekNat s (r.addr + 0x3C) 4
    let appending := s.walks.any fun w => w.cache == r.addr && w.append
    let fresh : KvCommit := { hearth := h, cmd := c.seq, cache := r.addr, published := false, former := r.live, released := [] }
    (homeLive s r = true → s.commits = [] → appending = true → exec (.ptCommit h seq) s = .next { s with commits := [fresh] }) ∧
    (homeLive s r = true → s.commits = [] → appending = false → r.live ≤ 1 → kvTouch s h c [(r.addr, 128)] [] = (v, .ok ()) →
      memRead v (idDisp h) (peekNat s (r.addr + 0x40) 8) (8 * n) me = (u, .ok d) →
      let ps := (List.range n).map fun i => field d (8 * i) 8
      ((∀ p ∈ ps, p % 256 = 0 ∧ p < nearEnd) → kvTouch u h c [] [(r.addr + 0x3C, 4), (r.addr, 1)] = (w, .ok ()) → ∃ t, exec (.ptCommit h seq) s = .next t ∧
        t.commits = [{ fresh with published := true, released := ps }] ∧ peekNat t r.addr 1 = 1 - r.live ∧ peekNat t (r.addr + 0x3C) 4 = 0 ∧
        BytesKept s t [(r.addr, 1), (r.addr + 0x3C, 4)] ∧ t.disps = s.disps ∧ t.tickets = s.tickets) ∧
      ((∃ p ∈ ps, p % 256 ≠ 0 ∨ nearEnd ≤ p) → exec (.ptCommit h seq) s = .next (failRunning u h c (U.ats r.home) Code.KV_FREE))) ∧
    (∀ x r' y z, s.commits = [x] → x.hearth = h.val → x.cmd = c.seq → r' = KvRec.at s x.cache → homeLive s r' = true → x.published = true → x.former ≤ 1 →
      let walks := peekNat s (r'.addr + (if x.former = 0 then 0x60 else 0x62)) 2
      let from_ := r'.table (1 - x.former)
      let to_ := r'.table x.former
      (walks ≠ 0 → exec (.ptCommitRelease h seq) s = .next s) ∧
      (walks = 0 → r'.freeCount s + x.released.length ≤ r'.ringSize → (∀ p ∈ x.released, p < 2 ^ 64) →
        [(r'.addr, 128), (from_, r'.tableBytes), (to_, r'.tableBytes), (r'.ring, 8 * r'.ringSize)].Pairwise (fun x y => x.1 + x.2 ≤ y.1 ∨ y.1 + y.2 ≤ x.1) →
        from_ + r'.tableBytes ≤ nearEnd → to_ + r'.tableBytes ≤ nearEnd →
        kvTouch s h c [(r'.addr, 128)] [] = (v, .ok ()) → memRead v (idDisp h) from_ r'.tableBytes me = (u, .ok d) →
        memWrite u (idDisp h) to_ d me = (y, .ok ()) → r'.push y h c x.released = (z, .ok ()) →
          ∃ t, exec (.ptCommitRelease h seq) s = .next t ∧ t.commits = [] ∧ findCmd t h c.seq = some { c with st := .done } ∧
            peekBytes t to_ r'.tableBytes = peekBytes s from_ r'.tableBytes ∧ r'.freeCount t = r'.freeCount s + x.released.length ∧
            (∀ i, i < x.released.length →
              peekNat t (r'.ring + 8 * ((r'.freeHead s + r'.freeCount s + i) % r'.ringSize)) 8 = x.released.getD i 0) ∧
            BytesKept s t [(to_, r'.tableBytes), (r'.addr + 0x38, 4), (r'.ring, 8 * r'.ringSize)] ∧ t.tickets = s.tickets))

/-- ROW_FWD (R227, R228, R235, R236): where its requests are served the destination holds each row's results. A normalised element is (x − mean) ×
rstd × gain + shift in this order; a soft maximum of one finite score is e × (1 / e) for the value e that stands for exp(+0), and of masked scores
0. ROW_BWD (R256, R259 to R261): with nothing to do it is done, its tag freed where it says so; with the row statistics at hand a normalisation's
and a soft maximum's gradients are stored, and the operation that reads statistics stores them. A masked row's gradient is zero. The model's
choices in it: log entry 5. -/
def Obligations.RowOperations : Prop :=
  (∀ (h : Fin 16) (seq : BitVec 32) (c : Cmd) (s u v w : State),
    (Runs h seq 0x20 c s → s.symErr = [] →
      let x := (rfX s c).desc
      let y := (rfY s c).desc
      let s0 := wr s (F.ROW_STATE_OP h) (rfOp c)
      (x.count = 0 ∨ y.rank = 0 → ∃ t, exec (.rowFwd h seq) s = .next t ∧ CommandIs h { c with st := .done } s0 t) ∧
      (x.count ≠ 0 → y.rank ≠ 0 → rfStats c = false → y.scalePtr = 0 →
        readTensors s0 h c ([x] ++ ([rfG s0 c, rfB s0 c, rfM s0 c].filter Opnd.isSome).map Opnd.desc) = (u, .ok ()) →
        readBuffer u h (cmdId u h c) = (v, .ok ()) → writeRanges v h c y.ranges = (w, .ok []) →
          StoresAndDone h c (.rowFwd h seq) s w y (plainMode v c y) fun ix =>
            (((rowFwdRows v c x).getD (y.rowNum ix) ((FR.zero, FR.zero), [])).2.getD (ix.getD 0 0) FR.zero).v)) ∧
    (∀ (f layer : Bool) (eps : FR) (g b : Nat → FR) (xs : List FR) (k : Nat) (x : FR), xs[k]? = some x →
      let row := normRow f layer eps g b xs
      let n : FR := ⟨FVal.ofInt xs.length, 0⟩
      row.1.1 = (if layer then FR.div f (FR.sum f xs) n else FR.zero) ∧
      row.2[k]? = some (FR.add f (FR.mul f (FR.mul f (if layer then FR.sub f x row.1.1 else x) row.1.2) (g k)) (b k))) ∧
    (∀ (f : Bool) (z : FR), z.v.isFinite = true →
      let e := FR.exp f FR.zero
      ((softRow f [z]).2.map FR.v) = [(FR.mul f e (FR.div f (FR.ofBits fp32One) e)).v]) ∧
    (∀ (f : Bool) (zs : List FR), (∀ z ∈ zs, z.v = FVal.inf true) → ∀ y ∈ (softRow f zs).2, y = FR.zero)) ∧
  (∀ (h : Fin 16) (seq : BitVec 32) (c : Cmd) (st : List (Nat × Nat)) (s u w : State), Runs h seq 0x21 c s → s.symErr = [] →
    let x := (rbX s c).desc
    let dy := (rbDy s c).desc
    let dx := (rbDx s c).desc
    let op := rbOp c
    let f := c.subn
    ((if op = 4 then dx.count = 0 else op ≠ 5 ∧ (x.count = 0 ∨ dy.rank = 0 ∨ dx.rank = 0)) →
      ∃ t, exec (.rowBwd h seq) s = .next t ∧ CommandIs h { c with st := .done } (freeTag s h c) t) ∧
    (op = 5 → x.count = 0 → DoneAtOnce h c (.rowBwd h seq) s) ∧
    (op = 4 → dx.count ≠ 0 → dx.scalePtr = 0 →
      readRows s h c (match findStat s h c.ticket (statTagOf c) with | some t => t.softmax == some true | none => false) (c.fld 0x34 4) (dx.size 1) =
        (u, .ok st) → writeRanges u h c dx.ranges = (w, .ok []) →
        StoresAndDone h c (.rowBwd h seq) s w dx (plainMode u c dx) fun ix =>
          fp32.decode (if ix.getD 0 0 = 0 then (st.getD (ix.getD 1 0) (0, 0)).1 else (st.getD (ix.getD 1 0) (0, 0)).2)) ∧
    (∀ v y, op = 2 ∨ op = 3 → ¬ (x.count = 0 ∨ dy.rank = 0 ∨ dx.rank = 0) → bit (rbFlags c) 1 = false → rbBias c = 0 → dx.scalePtr = 0 →
      (rbG s c).isSome = false → (rbDg s c).isSome = false → (rbDb s c).isSome = false →
      readTensors s h c [x, dy] = (v, .ok ()) → readBuffer v h (cmdId v h c) = (y, .ok ()) →
      readRows y h c false (c.fld 0x34 4) x.rowCount = (u, .ok st) → writeRanges u h c dx.ranges = (w, .ok []) →
        StoresAndDone h c (.rowBwd h seq) s w dx (plainMode u c dx) fun ix =>
          let i := dx.rowNum ix
          match x.rowIx[i]?, st[i]? with
          | some r, some p =>
            ((normBack f (op == 2) (FR.load f p.1) (FR.load f p.2) (vecElem u f (rbG s c) fp32One) (rowValues u f x r) (rowValues u f dy r)).1.getD
              (ix.getD 0 0) FR.zero).v
          | _, _ => FR.zero.v) ∧
    (∀ m l scale d0 zs dys, rowMasked l = true → ∀ y ∈ (softBack f m l scale d0 zs dys).1, y = FR.zero))

/-- AWL (R168 to R175): a command that names no code, no cores or no instructions is done at once. Else every core of its mask runs from the entry
with the registers of Table 7-4, its code in its local store, its counts and flags zero; the command works, and the cores it does not name stay as
they are. -/
def Obligations.AwlCommands : Prop :=

  ∀ (h : Fin 16) (seq : BitVec 32) (c : Cmd) (x : Ticket) (code : Bytes) (s u : State), Runs h seq 0x28 c s →
    (awlIdle c = true → DoneAtOnce h c (.awl h seq) s) ∧
    (awlIdle c = false → findTicket s c.ticket = some x →
      readCode h c s = (u, .ok code) →
        let ks := cmdCores h c
        let ref (o : Nat) : Nat × Nat × Nat := c.refAt o 0
        ∃ t, exec (.awl h seq) s = .next t ∧ findCmd t h c.seq = some { c with st := .working } ∧ t.mem = u.mem ∧ t.tickets = s.tickets ∧
          (∀ k, k ∉ ks → getCore t k = getCore s k) ∧
          ∀ i k, ks[i]? = some k →
            let a := getCore t k
            let ident := k % 8 + 256 * h.val + 65536 * i + 2 ^ 24 * ks.length
            rd t (coreStateF k) = awlRUNNING ∧ rd t (coreActiveF k) = 1 ∧ a.pc = c.fld 0x1C 4 ∧ a.codeLen = c.fld 0x18 4 ∧ a.limit = c.fld 0x20 4 ∧
            a.banks = c.bankMask ∧ a.seq = c.seq ∧ a.ticket = c.ticket ∧ a.icount = 0 ∧ a.cstat = 0 ∧ a.amax = 0 ∧ a.wait = none ∧
            a.lean = bit (c.fld 0x3C 1) 0 ∧ a.held = 0 ∧ a.cvscale = fp32One ∧ a.ident = BitVec.ofNat 64 ident ∧ (∀ v, a.vreg v = 0) ∧
            (∀ n : Fin 32, a.sreg n = BitVec.ofNat 64 (match n.val with
              | 1 => ident | 2 => c.seq | 3 => c.fld 0x30 8 | 4 => c.fld 0x38 4 | 5 => descAddr u c (ref 0x24) | 6 => descAddr u c (ref 0x28)
              | 7 => descAddr u c (ref 0x2C) | 8 => (ref 0x24).2.2 + 65536 * ((ref 0x28).2.2 + 65536 * (ref 0x2C).2.2)
              | 9 => x.stepIndex c.step | 10 => x.num | _ => 0)) ∧
            (codeResident u k c = false → a.lsBytes 0 code.length = code) ∧
            ((getCore s k).lastTicket ≠ some c.ticket → ∀ i, code.length ≤ i → a.ls.get 0 i = 0))

/-- STASH_PUT and the retry of one that waits (R263 to R267): a key in use fails; else the entry goes to pages of the near arena, to ones of the
far arenas, or is dropped, as R265 says, and its bytes go there while the command works, or the command is done when they are dropped; one that
finds no place waits. A retry that finds no place changes nothing. Which free pages an entry takes is open (log entry 33). The store's end, once
no write of it waits, makes the entry NEAR or FAR and the command done. STASH_GET (R268 to R271): an entry that is absent, or too short, fails;
one whose bytes are still on their way makes the command wait. An entry that is stored is copied back. One that was dropped starts its recompute
segment, or fails where the command names none. At its end a command that says FREE frees the entry that no other command reads. The model's
choices in it: log entry 34. -/
def Obligations.StashPutsAndGets : Prop :=
  (∀ (h : Fin 16) (seq : BitVec 32) (c : Cmd) (q : Nat) (e : StashEntry) (retry : Bool) (s u : State),
    let d := (spSrc s c).desc
    let need := ceilDiv (d.rowCount * stashLine (spFmt c) (d.size 0)) 65536
    let went := place s q need (spEligible c)
    let i : Instr := if retry then .stashPutRetry h seq else .stashPut h seq
    let key (x : StashEntry) : Prop := x.ticket = c.ticket ∧ x.id = c.fld 0x16 2 ∧ x.micro = c.fld 0x18 1 ∧ x.fmt = spFmt c ∧ x.size0 = d.size 0 ∧
      x.rows = d.rowCount ∧ x.quota = q ∧ x.cmd = (h.val, c.seq) ∧ x.gone = false ∧ x.readers = []
    let used := (findStash s c.ticket (c.fld 0x16 2) (c.fld 0x18 1)).isSome
    let asks := if retry then unitLive s (U.disp h) = true ∧ findCmd s h seq.toNat = some c ∧ c.seq = seq.toNat ∧ s.stashWait = [(h.val, seq.toNat)]
      else Runs h seq 0x30 c s ∧ s.stashWait = []
    (asks → quotaOf s (cmdProg s c) = some q → s.symErr = [] → readTensors s h c [d] = (u, .ok ()) →
      (used = true → exec i s = .next (saddleFail (syncStash { u with stashWait := [] }) h c Code.STASH_KEY)) ∧
      (used = false → went = .near ∨ went = .far → ∃ v x, exec i s = .next (storeEntry v h c d x) ∧ v.mem = s.mem ∧ v.stash = s.stash ∧
        v.stashWait = [] ∧ findCmd v h c.seq = some c ∧ key x ∧ x.st = 0 ∧ x.far = decide (went = .far) ∧ x.places.length = need ∧
        (∀ p ∈ x.places, p ∈ freeArena s x.far) ∧ ((freeArena s x.far).Nodup → x.places.Nodup)) ∧
      (used = false → went = .drop → ∃ t x, exec i s = .next t ∧ t.stash = s.stash ++ [x] ∧ key x ∧ x.st = 3 ∧ x.places = [] ∧
        findCmd t h c.seq = some { c with st := .done } ∧ t.stashWait = [] ∧ t.mem = s.mem) ∧
      (used = false → went = .wait → retry = true → exec i s = .next s) ∧
      (used = false → went = .wait → retry = false → ∃ v, exec i s = .next (stashDeadlock v) ∧ v.stashWait = [(h.val, c.seq)] ∧ v.stash = s.stash ∧
        findCmd v h c.seq = some { c with st := .working, phase := 1 } ∧ v.mem = s.mem)) ∧
    (went = .near ↔ s.stash.length < rd s F.SBG_CFG_DIR_1K * 1024 ∧ setPages s q false + need ≤ rd s (F.SBG_PQ_NEAR_MIB q) * 16 ∧
      need ≤ (freeArena s false).length) ∧
    (∀ v, let un := saddleOf s e
     let rs := e.spans 0 (e.rows * stashLine e.fmt e.size0)
     findCmd s h c.seq = some c → touchWrites un.2 (idDisp h) (some (cmdId un.2 h c)) rs = (v, .ok []) →
       let t := storeEntry s h c d e
       t.stash = s.stash ++ [e] ∧ t.mem = (pokeSpans v rs ((narrowEntry un.2 c d).flatMap (·.bytes))).mem ∧
       StandsAs t h { c with st := .working, phase := 0 }) ∧
    (isRun s = true → findCmd s h seq.toNat = some c → c.seq = seq.toNat → s.stash.find? (fun x => x.cmd == (h.val, seq.toNat) && x.st == 0) = some e →
      if c.st = .working ∧ heldFor s h c = false then
        ∃ v, exec (.stashStoreComplete h seq) s = .next (syncRails v) ∧
          v.stash = s.stash.map (fun x => if sameEntry x e then { x with st := if e.far then 2 else 1 } else x) ∧
          CommandIs h { c with st := .done } { s with stash := v.stash } v
      else exec (.stashStoreComplete h seq) s = .next s)) ∧
  (∀ (h : Fin 16) (seq : BitVec 32) (c : Cmd) (e : StashEntry) (b : Bytes) (s u w : State), Runs h seq 0x31 c s →
    let d := (sgDst s c).desc
    let first := c.fld 0x24 4
    let rows := c.fld 0x28 4
    let un := saddleOf s e
    let line := stashLine e.fmt e.size0
    let failed := exec (.stashGet h seq) s = .next (failRunning un.2 h c un.1 Code.STASH_KEY)
    (getEntry s h c = none → exec (.stashGet h seq) s = .next (saddleFail s h c Code.STASH_KEY)) ∧
    (getEntry s h c = some e →
      (e.rows < first + rows → failed) ∧
      (first + rows ≤ e.rows →
        (e.st = 0 → exec (.stashGet h seq) s = .next s) ∧
        (e.st = 3 → sgCount c = 0 ∨ c.recompute = true → failed) ∧
        (e.st = 3 → sgCount c ≠ 0 → c.recompute = false → (∀ r ∈ s.recomps, r.hearth ≠ h.val) →
          ∃ t, exec (.stashGet h seq) s = .next t ∧ findCmd t h c.seq = some { c with st := .working } ∧ t.mem = s.mem ∧ t.stash = s.stash ∧
            t.recomps = s.recomps ++ [{ hearth := h, get := c.seq, ticket := c.ticket, off := c.fld 0x1C 4, left := sgCount c, pos := 0 }]) ∧
        (e.st = 1 ∨ e.st = 2 → (d.rank ≠ 0 → 0x20 ≤ d.fmt → d.fmt = e.fmt) → (d.rank ≠ 0 → rows ≠ 0 → d.size 0 = e.size0) → d.scalePtr = 0 →
          readSpans un.2 h (some (cmdId un.2 h c)) (e.spans (first * line) (rows * line)) = (u, .ok b) → writeRanges u h c d.ranges = (w, .ok []) →
            ∃ t, exec (.stashGet h seq) s = .next t ∧ StandsAs t h { c with st := .done } ∧
              t.mem = (if d.rank = 0 then w else (copyBack w c e d b).1).mem ∧ t.stash = s.stash))) ∧
    ((∀ x ∈ s.stash, x.gone = false) → bit (c.fld 0x19 1) 0 = true → c.fail = 0 → otherGets s h c = [] →
      findStash s c.ticket (c.fld 0x16 2) (c.fld 0x18 1) = some e → (getEnds s h c).stash = s.stash.filter fun x => !sameEntry e x))

/-- REDUCE and GATHER (R286, R287, R291, R306 to R308): a member set of this module alone gives its own contribution, widened, at the root; a
gather of a record that has no update of this step fails, and one of a set of this module alone is done. A transfer of no bytes is done at once,
and the last byte of a received tensor places it, unchanged, through its descriptor. The model's choices in it: log entry 81. -/
def Obligations.Collectives : Prop :=

  ∀ (h : Fin 16) (seq : BitVec 32) (c : Cmd) (x : RxStream) (s u w : State),
    s.colls = [] → s.txs = [] → s.symErr = [] → rd s F.STI_DLOG_ENTRIES = 0 → s.collEnded = [] →
    let step := cmdStepIndex s c
    (Runs h seq 0x38 c s → s.rxs = [] →
      let src := (rdSrc s c).desc
      let dst := (rdDst s c).desc
      rdForm c = 1 → c.fld 0x24 1 = 1 → c.fld 0x25 1 = 0 → c.fld 0x26 2 = 0 → c.fld 0x2A 2 = 1 → bit (rdFlags c) 1 = false →
      c.fld 0x28 2 = moduleId s → src.sizes = dst.sizes → src.rank = dst.rank → src.sizes.length = src.rank → src.count ≠ 0 → dst.scalePtr = 0 →
      dst.format = some .fp32 ∨ dst.format = some .bf16 → dieTakes s dst.ranges = true →
      readTensors (unitAt s U.stitch (dst.ranges ++ src.ranges)).2 h c [src] = (u, .ok ()) → writeRanges u h c dst.ranges = (w, .ok []) →
        StoresAndDone h c (.reduce h seq) s w dst { factor := none, before := fp32One, flush := c.subn, rnd := cmdRnd u c } fun ix =>
          fp32.decode (fp32.round c.subn (bf16.load c.subn (src.rawElem u .bf16 ix)).1).1) ∧
    (Runs h seq 0x3A c s →
      let d := (gaRef s c).desc
      let r := gaRecord c
      let size := d.wireSize
      let un := unitAt s U.stitch [(r, 768)]
      let done (v : State) : Prop := ∃ t, exec (.gather h seq) s = .next t ∧ findCmd t h c.seq = some { c with st := .done } ∧ t.mem = v.mem ∧ t.colls = []
      (gaForm c = 0 → recPend s r ≠ 1 ∨ recSstep s r (recOther s r) ≠ step → dieTakes s ((r, 768) :: copyRanges s r (recOther s r)
          ((positionIn s (recFirst s r) (recCount s r) (recStride s r)).getD 0)) = true →
        touchRanges un.2 (idDisp h) false (some (cmdId s h c)) [(r + 0x70, 40)] = (u, .ok ()) →
          exec (.gather h seq) s = .next (failRunning u h c un.1 Code.PARAM_STATE)) ∧
      (gaForm c = 0 → s.rxs = [] → recPend s r = 1 → recSstep s r (recOther s r) = step → recCount s r = 1 → recStride s r ≠ 0 →
        recFirst s r = moduleId s → recHasFwd s r = false → bit (c.fld 0x19 1) 0 = false →
        dieTakes s ((r, 768) :: copyRanges s r (recOther s r) 0) = true →
        touchRanges un.2 (idDisp h) false (some (cmdId s h c)) [(r + 0x70, 40)] = (u, .ok ()) →
        touchRanges u (idDisp h) false (some (cmdId s h c)) (copyRanges s r (recOther s r) 0) = (w, .ok ()) → done s) ∧
      (gaForm c = 1 ∨ gaForm c = 2 → s.rxs = [] → d.rank = 0 → bit (c.fld 0x19 1) 0 = false → done s) ∧
      (gaForm c = 2 → d.rank ≠ 0 → size ≠ 0 → gaPeer c ≠ moduleId s → s.rxs = [x] → x.src = gaPeer c → x.last = true →
        x.consumed = x.bytes.length → x.desc = segDesc 4 (c.fld 0x1C 4) step 1 0 1 0 d.fmt 0 0 0 0 0 d.count size 0 → x.desc.length = 64 →
        step < 2 ^ 32 → size < 2 ^ 64 → bit (c.fld 0x19 1) 0 = false → dieTakes s d.ranges = true →
        writeRanges (unitAt s U.stitch d.ranges).2 h c d.ranges = (w, .ok []) → done (placeBytes w d d.indices x.bytes)))

/-- UPDATE and its resumption (R299 to R301): while a memory die that it needs is stopped it waits (R46); a record that this step has updated
fails; one that an earlier step still holds, or whose other slot has holds, makes the command wait. Else, for a shard of one element without a
second moment and without a forward copy, the other slot takes the new element, its moment, its step counts and its powers of beta, the record has
an update pending, and no other byte changes. The momentum rule is R300's. The model's choices in it: log entry 83. -/
def Obligations.Updates : Prop :=

  ∀ (h : Fin 16) (seq : BitVec 32) (c : Cmd) (b : Bytes) (resume : Bool) (s u v w : State),
    let i : Instr := if resume then .updateResume h seq else .update h seq
    let asks := if resume then unitLive s (U.disp h) = true ∧ findCmd s h seq.toNat = some c ∧ c.seq = seq.toNat ∧ c.opcode = 0x39 ∧ c.st = .working ∧
        c.phase % 16 ≠ 0
      else Runs h seq 0x39 c s
    let r := upRecord c
    let l := recLive s r
    let k := recOther s r
    let step := cmdStepIndex s c
    let me := some (cmdId s h c)
    let takes := dieTakes s ((r, 768) :: (recMaster s r k).ranges)
    let looks := r < nearEnd ∧ takes = true ∧ touchRanges s (idDisp h) false me [recState r] = (u, .ok ())
    (asks → r < nearEnd → takes = false → exec i s = .next (syncBurnish (cntHearth s h 13 1))) ∧
    (asks → s.symErr = [] → looks → recPend s r = 1 → recSstep s r k = step →
      exec i s = .next (syncBurnish (failRunning u h c (U.burnish (controllerOf r)) Code.PARAM_STATE))) ∧
    (asks → s.symErr = [] → looks → recPend s r = 1 → recSstep s r k ≠ step →
      ∃ t, exec i s = .next t ∧ findCmd t h c.seq = some { c with st := .working, phase := c.phase / 16 * 16 + 1 } ∧ t.mem = s.mem) ∧
    (asks → s.symErr = [] → looks → recPend s r ≠ 1 → recHold s r k ≠ 0 →
      ∃ t, exec i s = .next t ∧ findCmd t h c.seq = some { c with st := .working, phase := 34 } ∧ t.mem = s.mem) ∧
    (∀ y z,
     let near : List (Nat × Nat) := (r, 768) :: (recPtr s r 0x58, 64) :: [0x00, 0x08, 0x10, 0x18, 0x30, 0x38, 0x50].map (fun o => (recPtr s r o, 128)) ++
       [recMaster s r 0, recMaster s r 1, recM1 s r 0, recM1 s r 1, recWork s r 0, recWork s r 1, recGshard s r].flatMap Desc.ranges
     let outs := [recMaster s r k, recM1 s r k]
     let pos := (positionIn s (recFirst s r) (recCount s r) (recStride s r)).getD 0
     let o := OptRec.parse b
     let sub := FpNum.op c.subn FVal.sub
     let bc1 := FpNum.op c.subn FVal.mul (FpNum.of (recBc1 s r l)) (FpNum.of o.beta1)
     let bc2 := FpNum.op c.subn FVal.mul (FpNum.of (recBc2 s r l)) (FpNum.of o.beta2)
     let ld (d : Desc) : FpNum := FpNum.of (d.rawElem s .fp32 [0, 0])
     let new := optElement c.subn o (sub (FpNum.of fp32One) bc1) (sub (FpNum.of fp32One) bc2) (ld (recGshard s r)) (ld (recMaster s r l))
       (ld (recM1 s r l)) (FpNum.of 0)
     asks → Inv s → looks → recPend s r ≠ 1 → recHold s r k = 0 → paramBad s r = false → s.symErr = [] → recPtr s r 0x20 = 0 → recHasFwd s r = false →
     near.Pairwise (fun x y => x.1 + x.2 ≤ y.1 ∨ y.1 + y.2 ≤ x.1) → (∀ x ∈ near, x.1 + x.2 ≤ nearEnd) →
     (recMaster s r k).indices = [[0, 0]] → (recM1 s r l).format = some .fp32 → (∀ d ∈ outs ++ [recWork s r k], d.scalePtr = 0) →
     memRead u (idDisp h) (recPtr s r 0x58) 64 me = (v, .ok b) → optBad b false 0x12 = false →
     readTensors v h c [recGshard s r, recMaster s r l, recM1 s r l] = (w, .ok ()) →
     touchRanges w (idDisp h) true me ((outs ++ [recWork s r k]).flatMap fun d => recRanges d true) = (y, .ok ()) →
     writeRanges y h c (recState r :: outs.flatMap Desc.ranges ++ shardRanges s r (recWork s r k) (bit (recLayout s r) 0) pos) = (z, .ok []) →
       ∃ t, exec i s = .next t ∧ StandsAs t h { c with st := .done, phase := 32 } ∧ t.pends = s.pends ++ [(r, c.ticket, c.step)] ∧
         recPend t r = 1 ∧ recLive t r = l ∧ recSstep t r k = step % 2 ^ 32 ∧ recStep t r k = (recStep s r l + 1) % 2 ^ 32 ∧
         recBc1 t r k = bc1.v % 2 ^ 32 ∧ recBc2 t r k = bc2.v % 2 ^ 32 ∧ (recMaster s r k).rawElem t .fp32 [0, 0] = new.1.v % 2 ^ 32 ∧
         (recM1 s r k).rawElem t .fp32 [0, 0] = new.2.1.v % 2 ^ 32 ∧
         BytesKept s t ([(r + 0x71, 1), (r + 0x78 + 4 * k, 4), (r + 0x80 + 8 * k, 8), (r + 0x90 + 4 * k, 4)] ++
           [recMaster s r k, recM1 s r k, recWork s r k].flatMap Desc.ranges)) ∧
    (∀ (f : Bool) (o : OptRec) (c1 c2 gs w m v : FpNum), o.kind = 3 → o.nesterov = false →
      let m' := FpNum.op f FVal.add (FpNum.op f FVal.mul (FpNum.of o.beta1) m)
        (FpNum.op f FVal.add (FpNum.op f FVal.mul gs (FpNum.of o.gscale)) (FpNum.op f FVal.mul (FpNum.of o.wd) w))
      optElement f o c1 c2 gs w m v = (FpNum.op f FVal.sub w (FpNum.op f FVal.mul (FpNum.of o.lr) m'), m', v))

/-- DECODE and ENCODE reach the codec die (R340, R346, R362): one that asks for no pictures writes an empty result record and is done; else it
waits last in the die's queue. A lane starts only the queue's head: with no idle lane or with a pool in use it goes on waiting and the wait is
counted; with too few rail units the lane shows it waits for them; else the command leaves the queue and runs on the lowest idle lane (R341).
INGEST and the groups of the ingest path (R356 to R361): pictures that are not kept fail the command; one that produces nothing is done; else its
run joins the path last. The next run writes its group of the destination and nothing of the others; its last group ends it. The model's choices
in it: log entry 6. -/
def Obligations.CodecAndIngest : Prop :=
  (∀ (h : Fin 16) (seq : BitVec 32) (c : Cmd) (encode : Bool) (lane : Nat) (rest : List (Nat × Nat)) (s u : State),
    let i : Instr := if encode then .encode h seq else .decode h seq
    let empty := if encode then (c.opnd s 0x10 (c.fld 0x14 2) true).desc.size 3 = 0
      else c.fld 0x30 4 = 0 ∨ (StreamRec.parse (peekBytes s (c.fld 0x10 8) 64)).bsLen = 0
    let record := if encode then c.fld 0x30 8 else c.fld 0x38 8
    let pool := codPool s c
    let used := s.codLanes.any fun p => overlaps p.2.pool p.2.size pool.1 pool.2
    let units := 12 + if encode = false ∧ c.fld 0x18 8 ≠ 0 ∧ s.codIngest = [] then 16 else 0
    (Runs h seq (if encode then 0x42 else 0x40) c s →
      (empty → memWrite s (idDisp h) record (zeros 64) (some (cmdId s h c)) = (u, .ok ()) →
        ∃ t, exec i s = .next t ∧ CommandIs h { c with st := .done } u t) ∧
      (¬ empty → ∃ t, exec i s = .next t ∧ t.codQueue = s.codQueue ++ [(h.val, c.seq)] ∧ findCmd t h c.seq = some { c with st := .working, phase := 1 } ∧
        t.mem = s.mem ∧ t.tickets = s.tickets ∧ t.codLanes = s.codLanes)) ∧
    (s.codQueue.head? ≠ some (h.val, seq.toNat) → exec (.codecLaneStart h seq) s = .next s) ∧
    (isRun s = true → fnState s 0x10 = fnRUN → s.codQueue = (h.val, seq.toNat) :: rest → findCmd s h seq.toNat = some c → c.seq = seq.toNat →
      c.opcode = (if encode then 0x42 else 0x40) →
      (idleLane s = none ∨ (idleLane s = some lane ∧ unitHalted s (U.lane lane) = false ∧ used = true) →
        ∃ t, exec (.codecLaneStart h seq) s = .next t ∧ rd t (F.CNT_COD_VALUE 8) = (rd s (F.CNT_COD_VALUE 8) + 1) % 2 ^ (F.CNT_COD_VALUE 8).width ∧
          RegsKept s t [(F.CNT_COD_VALUE 8).off] ∧ t = { s with regs := t.regs }) ∧
      (idleLane s = some lane → unitHalted s (U.lane lane) = false → used = false → codecFree s < units →
        ∃ t, exec (.codecLaneStart h seq) s = .next t ∧ rd t (F.COD_LANE_STATE lane) = 4 ∧ t.codQueue = s.codQueue ∧ t.disps = s.disps ∧ t.mem = s.mem) ∧
      (idleLane s = some lane → unitHalted s (U.lane lane) = false → used = false → units ≤ codecFree s →
        ∃ v, exec (.codecLaneStart h seq) s = .next (syncCodec (if encode then encodeRun v h c lane else decodeRun v h c lane)) ∧ v.codQueue = rest ∧
          v.codLanes.find? lane = some { hearth := h, seq := c.seq, pool := pool.1, size := pool.2, ingest := decide (encode = false ∧ c.fld 0x18 8 ≠ 0) } ∧
          rd v (F.COD_LANE_STATE lane) = (if encode then 3 else 2) ∧ rd v (F.COD_LANE_HEARTH lane) = h.val ∧
          findCmd v h c.seq = some { c with phase := 2 } ∧ v.mem = s.mem))) ∧
  (∀ (h : Fin 16) (seq : BitVec 32) (c : Cmd) (b : Bytes) (run : IngestRun) (s u : State),
    let sr := StreamRec.parse (peekBytes s (c.fld 0x10 8) 64)
    let r := IngestRec.parse (peekBytes s (c.fld 0x18 8) 64)
    let n := c.fld 0x2C 4
    let kept (i : Nat) : Option KeptPic := s.codKept.find? fun k => k.pool == sr.pool && k.slot == field b (2 * i) 2
    let none_ := r.produced n = 0 ∨ r.cropW = 0 ∨ r.cropH = 0
    let good := ∀ i, i < n → ∃ k, kept i = some k ∧ ingestPicBad r k.std k.query = false ∧ k.slot < sr.slots
    (Runs h seq 0x41 c s → s.symErr = [] → fnState s 0x10 = fnRUN → memRead s (idDisp h) (c.fld 0x30 8) (2 * n) (some (cmdId s h c)) = (u, .ok b) →
      ((∃ i, i < n ∧ kept i = none) → exec (.ingest h seq) s = .next (failRunning u h c U.ingest Code.COD_INGEST)) ∧
      (good → none_ → ∃ t, exec (.ingest h seq) s = .next t ∧ CommandIs h { c with st := .done } u t) ∧
      (good → ¬ none_ → s.codIngest ≠ [] ∨ 16 ≤ codecFree s →
        ∃ t x, exec (.ingest h seq) s = .next t ∧ t.codIngest = s.codIngest ++ [x] ∧ x.hearth = h.val ∧ x.seq = c.seq ∧ x.lane = 8 ∧ x.group = 0 ∧
          x.pics = (List.range n).map (fun i => (kept i).map fun k => (k.std, k.query, k.index)) ∧
          findCmd t h c.seq = some { c with st := .working, phase := 2 } ∧ t.mem = s.mem)) ∧
    (let d := (cdDst s c).desc
     let g := run.group
     let r := IngestRec.parse run.record
     let last := g + 1 = ingestGroups r c
     let ranges := groupRanges d 3 g ++ groupRanges (cdMask s c).desc 2 g ++ (if last ∧ 0x20 ≤ d.fmt ∧ d.layout = 1 then [(d.expBase, d.planeBytes)] else [])
     unitLive s U.ingest = true → fnState s 0x10 = fnRUN → nextIngest s = some run → findCmd s h seq.toNat = some c → c.seq = seq.toNat →
     run.hearth = h.val → run.seq = seq.toNat → c.st = .working → c.opcode = 0x41 → s.symErr = [] → d.scalePtr = 0 → (cdMask s c).desc.format = none →
     s.codIngest = [run] → touchRanges s (idDisp h) true (some (cmdId s h c)) ranges = (u, .ok ()) →
       ∃ t c', exec (.ingestGroup h seq) s = .next t ∧ t.mem = (storeGroup u { plainMode u c d with factor := run.factor } d (ingestValue c.subn r run.pics) g).1.mem ∧ t.codLast = run.lane ∧
         findCmd t h c.seq = some c' ∧ c'.raw = c.raw ∧
         (last → t.codIngest = [] ∧ c'.st = .done) ∧ (¬ last → t.codIngest = [{ run with group := g + 1 }] ∧ c'.st = .working)) ∧
    ((∀ x, nextIngest s = some x → x.hearth ≠ h.val ∨ x.seq ≠ seq.toNat) → exec (.ingestGroup h seq) s = .next s))

/-- CKPT (R414, R415): with nothing staged it stages an image of the newest committed state in the staging region, whose drain follows, and is
done; with an image staged it is skipped where SKIP says so, and waits elsewhere. The drains of a staged image, where it can be read (R416 to
R418): to flash it goes into the slot that R416 chooses, behind a header that says what it is and is complete, and no byte of the other slots
changes; to the host its COMPLETE byte is written last. A flash that is lost, or a slot that is too short, ends the drain with its code. -/
def Obligations.CheckpointsAndDrains : Prop :=
  (∀ (h : Fin 16) (seq : BitVec 32) (c : Cmd) (s u w : State), Runs h seq 0x48 c s → unitHalted s (U.sup 1) = false →
    let op := c.fld 0x10 1
    let base := rd s F.MGT_CKPT_STAGE_BASE_64K * 65536
    let img := buildImage u (if op = 2 then 4 else 3) (rd s F.DEV_COMMIT_GEN_GEN) s.commitStep
    (s.staged.isSome = true → bit (c.fld 0x11 1) 0 = true →
      ∃ t, exec (.ckpt h seq) s = .next t ∧ findCmd t h c.seq = some { c with st := .done } ∧ t.staged = s.staged ∧ t.mem = s.mem) ∧
    (s.staged.isSome = true → bit (c.fld 0x11 1) 0 = false → ∃ t, exec (.ckpt h seq) s = .next t ∧ t.disps = s.disps ∧ t.staged = s.staged ∧ t.mem = s.mem ∧
      rd t (F.CNT_HEARTH_VALUE h 13) = (rd s (F.CNT_HEARTH_VALUE h 13) + 1) % 2 ^ 48) ∧
    (Inv s → s.staged = none → op = 1 ∨ op = 2 → s.symErr = [] → touchRanges s idSup false (some (cmdId s h c)) (imageRanges s) = (u, .ok ()) →
      (∀ r ∈ pdirRecords u, recHold u r (recLive u r) < 65535) → img.length ≤ rd s F.MGT_CKPT_STAGE_SIZE_64K * 65536 →
      (op = 2 → img.length ≤ c.fld 0x20 8) → touchRanges u idSup true (some (cmdId u h c)) [(base, img.length)] = (w, .ok ()) →
        ∃ t x, exec (.ckpt h seq) s = .next t ∧ t.staged = some x ∧ x.op = op ∧ x.gen = rd s F.DEV_COMMIT_GEN_GEN ∧ x.step = s.commitStep ∧
          x.size = img.length ∧ x.dst = c.fld 0x18 8 ∧ peekBytes t base img.length = img ∧ BytesKept s t [(base, img.length)] ∧
          findCmd t h c.seq = some { c with st := .done } ∧ rd t F.MGT_CKPT_STATE_STATE = 3 ∧ rd t F.MGT_CKPT_STATE_GEN = rd s F.DEV_COMMIT_GEN_GEN)) ∧
  (∀ (x : Staged) (img : Bytes) (s u v w : State), s.symErr = [] →
    let reads := memRead s idSup (rd s F.MGT_CKPT_STAGE_BASE_64K * 65536) x.size none = (v, .ok img)
    let live := unitLive s U.flash = true ∧ fnState s 0x14 < fnSTOPPED
    let k := drainSlot s
    let at_ := slotBase s k
    let ended (t : State) (code : Nat) : Prop := t.staged = none ∧ rd t F.MGT_CKPT_STATE_STATE = 4 ∧ rd t F.MGT_CKPT_STATE_CODE = code ∧ t.mem = s.mem
    (live → s.staged = some x → x.op = 1 → x.p = none → x.q = none → s.lostFlash = false → 256 + x.size ≤ slotLen s → reads →
      ∃ t, exec (.flashDrain 0) s = .next t ∧ t.staged = none ∧ rd t F.MGT_CKPT_STATE_STATE = 0 ∧ slotWhole t k = true ∧
        slotFld t k 4 4 = x.gen % 2 ^ 32 ∧ slotFld t k 8 4 = x.step % 2 ^ 32 ∧ slotFld t k 0x20 8 = x.size % 2 ^ 64 ∧
        slotFld t k 0x28 8 = crc64 img % 2 ^ 64 ∧ ckBytes t (at_ + 256) x.size = img ∧ (∀ a, a < at_ ∨ at_ + 256 + x.size ≤ a → ckByte t a = ckByte s a) ∧
        rd t F.MGT_CKPT_DONE_GEN = x.gen % 2 ^ 32 ∧ rd t F.MGT_CKPT_DONE_STEP = x.step % 2 ^ 32 ∧ t.mem = s.mem ∧ t.disps = s.disps) ∧
    (∀ n, live → s.staged = some x → x.op = 1 → s.lostFlash = true → ∃ t, exec (.flashDrain n) s = .next t ∧ ended t Code.FLASH_LINK) ∧
    (∀ n, live → s.staged = some x → x.op = 1 → x.p = none → x.q = none → s.lostFlash = false → slotLen s < 256 + x.size →
      ∃ t, exec (.flashDrain n) s = .next t ∧ ended t Code.CKPT_SIZE) ∧
    (∀ n, s.staged = none ∨ (s.staged = some x ∧ x.op = 2) → exec (.flashDrain n) s = .next s) ∧
    (s.staged = none ∨ (s.staged = some x ∧ x.op ≠ 2) → exec .hostStoreDrain s = .next s) ∧
    (unitLive s (U.sup 1) = true → s.staged = some x → x.op = 2 → reads → memWrite v idSup x.dst (img.take 0xFF ++ [0] ++ img.drop 256) none = (u, .ok ()) →
      memWrite u idSup (x.dst + 0xFF) [1] none = (w, .ok ()) →
        ∃ t, exec .hostStoreDrain s = .next t ∧ t.mem = w.mem ∧ t.staged = none ∧ rd t F.MGT_CKPT_STATE_STATE = 0 ∧ t.disps = s.disps))

/-- MGT_RESTORE (R424, R427 to R430): it is refused to other hosts, during a stop, and where R427 says so. A restore whose source holds no image
fails; a rollback with no undo copy fails, and with one goes back by one generation: the records that the last commit changed change back. A fill
of no records is done, and a server with no slot of the step fails. The model's choices in it: log entry 50. -/
def Obligations.Restores : Prop :=

  ∀ (src : Src) (v : BitVec 64) (n : Nat) (bad : Bool) (i : Instr) (s : State), i ∈ [Instr.restore src v n bad, .rollback src v, .fill src v, .serve src v n bad] →
    served s src = true →
    let result (t : State) (r code : Nat) : Prop := rd t F.MGT_RESTORE_STATE_RESULT = r ∧ rd t F.MGT_RESTORE_STATE_CODE = code
    let gen := rd s F.DEV_COMMIT_GEN_GEN
    let taken := isLead s src = true ∧ stopActive s = false ∧ isRun s = true ∧ restoreRefused s = false
    let turned (code : Nat) : Prop := ∃ t, exec i s = .next t ∧ rd t F.DEV_CFG_ERR_CODE = code ∧ rd t F.DEV_CFG_ERR_FUNC = 0x14 ∧
      RegsKept s t [F.DEV_CFG_ERR_CODE.off] ∧ t = { s with regs := t.regs }
    (isLead s src = false → turned Code.NOT_LEAD) ∧
    (isLead s src = true → stopActive s = true → turned Code.FUNC_STATE) ∧
    (isLead s src = true → stopActive s = false → isRun s = true → restoreRefused s = true → rd s F.MGT_RESTORE_STATE_RESULT ≠ 1 →
      ∃ t, exec i s = .next t ∧ result t 3 Code.RESTORE_STATE ∧ t = { s with regs := t.regs }) ∧
    (taken → i = .restore src v n bad → rsSource v = 0 → halfComplete s (returnRegion s) = false →
      ∃ t, exec i s = .next t ∧ result t 3 Code.RESTORE_IMAGE ∧ t = { s with regs := t.regs }) ∧
    (taken → i = .restore src v 0 false → rsSource v = 1 → s.lostFlash = false → rsSlot v < slotCount s → slotWhole s (rsSlot v) = true →
      let b := ckBytes s (slotBase s (rsSlot v) + 256) (slotFld s (rsSlot v) 0x20 8)
      let w := wr (wr s F.MGT_RESTORE_STATE_RESULT 1) F.MGT_RESTORE_STATE_CODE 0
      exec i s = .next (restoreFrom w 1 b) ∧ (imageFits w b = false → result (restoreFrom w 1 b) 3 Code.RESTORE_IMAGE) ∧
      (imageFits w b = true → (touchRanges w idSup true none (restoreRanges w)).2 = .ok () → rd s F.MGT_RLOG_SIZE_LOG2 = 0 → imgGen b < 2 ^ 32 →
        let t := restoreFrom w 1 b
        result t 2 0 ∧ rd t F.DEV_COMMIT_GEN_GEN = imgGen b ∧ t.commitStep = imgStep b ∧ t.undoGen = none ∧
          rd t F.MGT_RESTORE_STATE_EPOCH = (rd s F.MGT_RESTORE_STATE_EPOCH + 1) % 2 ^ (F.MGT_RESTORE_STATE_EPOCH).width)) ∧
    (taken → i = .rollback src v → s.undoGen = none → ∃ t, exec i s = .next t ∧ result t 3 Code.RESTORE_STATE ∧ t = { s with regs := t.regs }) ∧
    (∀ r before, Inv s → s.symErr = [] →
      (touchRanges (wr (wr s F.MGT_RESTORE_STATE_RESULT 1) F.MGT_RESTORE_STATE_CODE 0) idSup true none [(r + 0x70, 40)]).2 = .ok () → taken → i = .rollback src v → s.undoGen = some (gen, before) → s.rolledBack = false → pdirRecords s = [r] → recPend s r ≠ 1 →
      recSstep s r (recLive s r) = s.commitStep → extraList s = [] → rd s F.MGT_RLOG_SIZE_LOG2 = 0 →
        ∃ t, exec i s = .next t ∧ result t 2 0 ∧ rd t F.DEV_COMMIT_GEN_GEN = (gen + 2 ^ 32 - 1) % 2 ^ 32 ∧ t.commitStep = before ∧ t.rolledBack = true ∧
          recLive t r = 1 - recLive s r ∧ BytesKept s t [(r + 0x70, 1)] ∧
          rd t F.MGT_RESTORE_STATE_EPOCH = (rd s F.MGT_RESTORE_STATE_EPOCH + 1) % 2 ^ (F.MGT_RESTORE_STATE_EPOCH).width) ∧
    (taken → i = .fill src v → s.colls = [] → s.rxs = [] → s.txs = [] → pdirRecords s = [] →
      ∃ t, exec i s = .next t ∧ result t 2 0 ∧ t.mem = s.mem ∧ t.colls = []) ∧
    (taken → i = .serve src v n bad → (∀ k, k < slotCount s → slotWhole s k = false) →
      ∃ t, exec i s = .next t ∧ result t 3 Code.RESTORE_IMAGE ∧ t = { s with regs := t.regs }) ∧
    (∀ k p q, taken → i = .serve src v 0 false → s.colls = [] → s.rxs = [] → s.txs = [] → s.lostFlash = false → pgSize s = 2 → pgPos s = some p →
      pgPosOf s (rsPeer v) = some q → k < slotCount s → slotWhole s k = true → slotFld s k 8 4 = rd s F.MGT_RESTORE_ARG_ARG % 2 ^ 32 →
      slotFld s k 0x14 1 = 1 → ∃ t, exec i s = .next t ∧ result t 2 0 ∧ t.mem = s.mem ∧ t.colls = [])

/-- The frames that keep a link in order (R387, R388): a frame that is not accepted gets one NAK for the sequence number that is due, and no
second one; an ACK drops what it acknowledges from the replay buffer; a NAK resends what follows, in order, or, when as many as REPLAY_MAX have
come in succession, the link retrains; an LCREDIT adds credit. The sequenced frames (R386, R387, R441): one that is not accepted, or is of another
type than the row's, changes nothing. One that is accepted advances the sequence number that is due and is acknowledged; while the link's unit is
halted, or in KINDLING, it is then held, last in order, and takes no effect yet. The model's choices in it: log entry 36. -/
def Obligations.LinkFrames : Prop :=
  (∀ (l : Fin 13) (f : Frame) (pre post : List (Nat × Pkt)) (r : Nat × Pkt) (s : State), linkUp s l = true →
    let x := getLink s l
    let type := (Pkt.parse f.hdr f.payload).type
    let q := hdrLseq f.hdr
    let naks := if x.nakSeq = q ∧ x.naks ≠ 0 then x.naks + 1 else 1
    let counted (t : State) : Prop := RegsKept s t [(lkCorr l).off]
    (accepts s l f = true → exec (.frameDiscard l f) s = .next s) ∧
    (accepts s l f = false → f.fecOk = true → x.nakSent = true → exec (.frameDiscard l f) s = .next (satAdd s (lkCorr l) f.corrected.toNat)) ∧
    (accepts s l f = false → f.fecOk = true → x.nakSent = false → ∃ t, exec (.frameDiscard l f) s = .next t ∧ getLink t l = { x with nakSent := true } ∧
      t.out = s.out ++ [.frame l ((ctlPkt tNAK 0 0 0 []).header x.rxNext) []] ∧ counted t ∧ t = { s with regs := t.regs, links := t.links, out := t.out }) ∧
    (accepts s l f = true → type = tACK → x.queue = [] → l.val ≠ 12 → x.replay = pre ++ r :: post → r.1 = q → (∀ p ∈ pre, p.1 ≠ q) →
      ∃ t, exec (.ack l f) s = .next t ∧ getLink t l = { x with replay := post, naks := 0 } ∧ counted t ∧
        t = { s with regs := t.regs, links := t.links }) ∧
    (accepts s l f = true → type = tNAK → x.replay = pre ++ r :: post → r.1 = q → (∀ p ∈ pre, p.1 ≠ q) →
      ∃ t, exec (.nak l f) s = .next t ∧ getLink t l = { x with replay := r :: post, nakSeq := q, naks := naks } ∧ t.mem = s.mem ∧ t.disps = s.disps ∧
        if rd s (lkReplayMax l) ≤ naks then rd t (lkState l) = lkTRAINING ∧ t.out = s.out else
        t.out = s.out ++ (r :: post).map (fun p => .frame l (p.2.header p.1) p.2.padded) ∧ rd t (lkErrReplay l) = 1) ∧
    (accepts s l f = true → type = tLCREDIT → x.queue = [] → l.val ≠ 12 → ∃ t, exec (.lcredit l f) s = .next t ∧ counted t ∧
      t = { s with regs := t.regs, links := t.links } ∧
      getLink t l = { x with credit := (getLink t l).credit } ∧
      ∀ k, k < 16 → (getLink t l).credit.get 0 k = x.credit.get 0 k + field f.payload (2 * k) 2) ∧
    (accepts s l f = false → ∀ i ∈ [Instr.ack l f, .nak l f, .lcredit l f], exec i s = .next s)) ∧
  (∀ (l : Fin 13) (f : Frame) (type : Nat) (i : Instr) (s : State),
    (type, i) ∈ [(tHELLO, Instr.hello l f), (tREJECT, .reject l f), (tECREDIT, .ecredit l f), (tSTOP, .stopMark l f), (tOPEN, .openFrame l f),
      (tDATA, .dataFrame l f), (tMACK, .mirrorAck l f), (tMNAK, .mirrorNak l f)] →
    rd s (lkState l) ≠ lkFAILED →
    let x := getLink s l
    let p := Pkt.parse f.hdr f.payload
    (linkUp s l = false ∨ accepts s l f = false ∨ p.type ≠ type → exec i s = .next s) ∧
    (linkUp s l = true → accepts s l f = true → p.type = type → (unitHalted s (U.link l) = true ∧ type ≠ tSTOP) ∨ s.power = .kindling →
      ∃ t, exec i s = .next t ∧
        getLink t l = { x with rxNext := (x.rxNext + 1) % 4096, nakSent := false, held := x.held ++ [(f.hdr, f.payload)] } ∧
        t.out = s.out ++ [.frame l ((ctlPkt tACK 0 0 0 []).header (hdrLseq f.hdr)) []] ∧ t = { s with regs := t.regs, links := t.links, out := t.out }))

/-- What the sequenced frames do (R389 to R393, R295, R443, R396, R398): HELLO shows its peer, and a peer that is not the expected one fails the
link; REJECT and ECREDIT reach the stream they name; an OPEN for this module opens a stream and its DATA bring the bytes; a resume lifts a stop's
hold on the link and a stop's mark sets it; a mirror that is acknowledged is over, and one refused for the third time fails. The model's choices
in it: log entry 84. -/
def Obligations.FramesTakeEffect : Prop :=

  ∀ (l : Fin 13) (f : Frame) (tx : TxStream) (rx : RxStream) (m : MirrorOut) (s : State),
    let x := getLink s l
    let p := Pkt.parse f.hdr f.payload
    let here := p.dst = moduleId s ∧ l.val ≠ 12
    let quiet := s.colls = [] ∧ s.collEnded = []
    linkUp s l = true → accepts s l f = true → unitHalted s (U.link l) = false → s.power ≠ .kindling →
      (p.type = tHELLO → helloOk s l f.payload = true → ∃ t, exec (.hello l f) s = .next t ∧ linkUp t l = true ∧
        rd t (lkPeerSeen l) = field f.payload 4 2 % 2 ^ (lkPeerSeen l).width ∧ (getLink t l).rxNext = (x.rxNext + 1) % 4096 ∧ t.mem = s.mem) ∧
      (p.type = tHELLO → helloOk s l f.payload = false → s.colls = [] → s.mirrorOut = none → ∃ t, exec (.hello l f) s = .next t ∧
        rd t (lkState l) = lkFAILED ∧ rd t (lkCode l) = Code.LINK_PEER) ∧
      (p.type = tREJECT → here → quiet → s.txs = [tx] → tx.num = field f.payload 2 2 → ∃ t, exec (.reject l f) s = .next t ∧ t.txs = [] ∧ t.mem = s.mem) ∧
      (p.type = tECREDIT → here → quiet → s.rxs = [] → s.txs = [tx] → tx.num = p.stream → tx.dst = p.src → tx.opened = true → tx.finished = true →
        ∃ t, exec (.ecredit l f) s = .next t ∧ t.txs = [{ tx with flight := tx.flight - field f.payload 0 4 }] ∧ t.mem = s.mem) ∧
      (p.type = tOPEN → here → quiet → ∃ t, exec (.openFrame l f) s = .next t ∧ t.mem = s.mem ∧
        t.rxs = s.rxs ++ [{ src := p.src, num := p.stream, link := l, desc := f.payload.take 64, bytes := [], last := false, consumed := 0,
                            counted := false, errs := [] }]) ∧
      (p.type = tDATA → here → quiet → s.rxs = [rx] → rx.src = p.src → rx.num = p.stream → rx.last = false →
        ∃ t, exec (.dataFrame l f) s = .next t ∧ t.mem = s.mem ∧
          t.rxs = [{ rx with bytes := rx.bytes ++ (if p.last then f.payload.take (rx.size - rx.bytes.length) else f.payload), last := p.last }]) ∧
      (p.type = tSTOP → bit (field f.payload 2 2) 1 = true → x.queue = [] → s.txs = [] → s.colls = [] →
        ∃ t, exec (.stopMark l f) s = .next t ∧ (getLink t l).blocked = false ∧ (getLink t l).peerMark = false ∧ t.mem = s.mem) ∧
      (p.type = tSTOP → bit (field f.payload 2 2) 1 = false → bit (field f.payload 2 2) 0 = true →
        ∃ t, exec (.stopMark l f) s = .next t ∧ (getLink t l).peerMark = true ∧ t.mem = s.mem) ∧
      (p.type = tSTOP → field f.payload 2 2 = 0 → stopActive s = false → rd s F.MGT_STOP_CFG_FOLLOW = 0 →
        ∃ t, exec (.stopMark l f) s = .next t ∧ (getLink t l).blocked = true ∧ stopActive t = false ∧ t.mem = s.mem) ∧
      (p.type = tMACK → l.val = 12 → s.mirrorOut = some m → m.kind = 1 → m.holds = [] → m.gen = field f.payload 4 4 → s.returnDue = false →
        ∃ t, exec (.mirrorAck l f) s = .next t ∧ t.mirrorOut = none ∧ t.mirrorOwed = none ∧ rd t F.GRT_STATE_MIRROR = 0 ∧
          rd t F.GRT_GEN_ACKED = m.gen % 2 ^ (F.GRT_GEN_ACKED).width ∧ t.mem = s.mem) ∧
      (p.type = tMNAK → l.val = 12 → s.mirrorOut = some m → m.kind = 1 → m.holds = [] → 3 ≤ m.tries → s.returnDue = false →
        ∃ t, exec (.mirrorNak l f) s = .next t ∧ t.mirrorOut = none ∧ rd t F.GRT_STATE_MIRROR = 3 ∧ rd t F.GRT_ERR_MIRROR_FAIL = 1 ∧
          rd t F.GRT_ERR_MIRROR_NAK = 1 ∧ t.mem = s.mem)

/-- Training and loss of a link (R394, R395): a retraining that all lanes survive ends UP, one that half of them survive ends DEGRADED where the
configuration allows it, and what was not acknowledged is sent again; a failed attempt is counted, and after too many the link is FAILED. A lost
domain fails its link at once. The lane checkers (R402, R403): clearing them zeroes their counts, in a lane whose function is STOPPED or
UNAVAILABLE, and is refused elsewhere; a checker that is locked on the USER pattern counts a bit that differs from the pattern, and one that is
about to lock locks on the predicted bit; in a loop the bits are those of the lane's own generator. The model's choices in it: log entries 50, 61,
89. -/
def Obligations.LinkTrainingAndTests : Prop :=
  (∀ (l : Fin 13) (tr : LinkTrain) (s : State), pwrGood s = true →
    let x := getLink s l
    let lanes := if l.val = 12 then 8 else 4
    let n := popcount tr.lanes.toNat lanes
    let trained := rd s (lkState l) = lkTRAINING ∧ fnState s (lkFunc l) ≠ fnUNAVAIL
    let good (t : State) (st w : Nat) : Prop := rd t (lkState l) = st ∧ rd t (lkWidth l) = w ∧ (getLink t l).attempts = 0 ∧
      (∃ rest, t.out = s.out ++ x.replay.map (fun p => .frame l (p.2.header p.1) p.2.padded) ++ rest) ∧ t.mem = s.mem
    let bad := tr.trained = false ∨ (n ≠ lanes ∧ (rd s (lkNarrow l) = 0 ∨ n < lanes / 2))
    (linkUp s l = true → ∃ t, exec (.linkRetrain l) s = .next t ∧ rd t (lkState l) = lkTRAINING ∧ RegsKept s t [(lkState l).off] ∧ t = { s with regs := t.regs }) ∧
    (linkUp s l = false → exec (.linkRetrain l) s = .next s) ∧
    (trained → tr.trained = true → n = lanes → ∃ t, exec (.linkRetrainComplete l tr) s = .next t ∧ good t lkUP lanes) ∧
    (trained → tr.trained = true → n ≠ lanes → rd s (lkNarrow l) = 1 → lanes / 2 ≤ n →
      ∃ t, exec (.linkRetrainComplete l tr) s = .next t ∧ good t lkDEGRADED (lanes / 2)) ∧
    (trained → bad → x.attempts + 1 ≤ rd s (lkRetrainMax l) → ∃ t, exec (.linkRetrainComplete l tr) s = .next t ∧
      getLink t l = { x with attempts := x.attempts + 1 } ∧ t = { s with links := t.links }) ∧
    (s.colls = [] → s.mirrorOut = none →
      let failed (t : State) : Prop := rd t (lkState l) = lkFAILED ∧ rd t (lkCode l) = Code.LINK_DOWN ∧ rd t (lkErrDown l) = 1 ∧ t.mem = s.mem ∧
        (∀ y ∈ t.txs, y.link ≠ l.val) ∧ t.disps = s.disps
      (trained → bad → rd s (lkRetrainMax l) < x.attempts + 1 → ∃ t, exec (.linkRetrainComplete l tr) s = .next t ∧ failed t) ∧
      (linkUp s l = true → ∃ t, exec (.edgeDomainLoss (.link l)) s = .next t ∧ failed t)) ∧
    (linkUp s l = false → rd s (lkState l) ≠ lkTRAINING → exec (.edgeDomainLoss (.link l)) s = .next s)) ∧
  (∀ (src : Src) (n : Fin 104) (b : Bool) (s : State), pwrGood s = true →
    let x := s.laneChk.get LaneChk.blank n
    let code := rd s (F.CLK_LT_CTL_CHK n)
    let loop := rd s (F.CLK_LT_CTL_LOOP n)
    let errors := F.CLK_LT_ERRS_ERRORS n
    let testable := 2 ≤ fnState s (laneFunc n)
    (served s src = true → testable → ∃ t, exec (.laneTestClear src n) s = .next t ∧ rd t errors = 0 ∧ rd t (F.CLK_LT_BITS_BITS_64K n) = 0 ∧
      (t.laneChk.get LaneChk.blank n) = { x with bits := 0 } ∧ RegsKept s t [errors.off, (F.CLK_LT_BITS_BITS_64K n).off] ∧
      t = { s with regs := t.regs, laneChk := t.laneChk }) ∧
    (served s src = true → ¬ testable → ∃ t, exec (.laneTestClear src n) s = .next t ∧ rd t F.DEV_CFG_ERR_CODE = Code.FUNC_STATE ∧
      RegsKept s t [F.DEV_CFG_ERR_CODE.off] ∧ t = { s with regs := t.regs }) ∧
    (¬ testable ∨ code = 0 → exec (.laneCheckerBits n [b]) s = .next s) ∧
    (testable → code ≠ 0 → loop = 1 → exec (.laneCheckerBits n [b]) s = .next (if rd s (F.CLK_LT_CTL_GEN n) = 0 then s else
      laneBit (genBit s n).2 n (genBit s n).1)) ∧
    (testable → loop ≠ 1 → code = 7 → rd s (F.CLK_LT_CTL_LOCK n) = 1 → x.bits + 1 < 65536 →
      let e := bit (rd s (F.CLK_LT_USER_PATTERN n)) (x.phase % 64)
      ∃ t, exec (.laneCheckerBits n [b]) s = .next t ∧ rd t errors = (if b = e then rd s errors else min (rd s errors + 1) (2 ^ errors.width - 1)) ∧
        (t.laneChk.get LaneChk.blank n).phase = (x.phase + 1) % 64 ∧ (t.laneChk.get LaneChk.blank n).bits = x.bits + 1 ∧ RegsKept s t [errors.off]) ∧
    (testable → loop ≠ 1 → code = 1 → rd s (F.CLK_LT_CTL_LOCK n) = 0 → x.good = 63 → 7 ≤ x.recent.length → (x.recent.take 7).any id = true →
      (b = xor (x.recent.getD 6 false) (x.recent.getD 5 false) → ∃ t, exec (.laneCheckerBits n [b]) s = .next t ∧ rd t (F.CLK_LT_CTL_LOCK n) = 1 ∧
        rd t errors = 0 ∧ t.mem = s.mem) ∧
      (b ≠ xor (x.recent.getD 6 false) (x.recent.getD 5 false) → ∃ t, exec (.laneCheckerBits n [b]) s = .next t ∧ rd t (F.CLK_LT_CTL_LOCK n) = 0 ∧
        (t.laneChk.get LaneChk.blank n).good = 0)))

/-- The twin (R395 to R397, R401, R465): after a commit the mirror image of this module's state leaves over Girth, or fails where Girth is down; a
return sends the held image back as a RETURN, for the lead host alone. The twin's presence shows, and its loss fails Girth. The model's choices in
it: log entries 37, 85. -/
def Obligations.TwinMirror : Prop :=

  ∀ (src : Src) (gen step : Nat) (half : Nat × Nat) (s u : State),
    (unitLive s (U.sup 1) = true → mirrorOn s = true → (freeStream s).isSome = true → s.mirrorOut = none → s.mirrorDue = some (gen, step) → pdirRecords s = [] → s.symErr = [] →
      (linkUp s 12 = false → s.returnDue = false → ∃ t, exec .mirrorSend s = .next t ∧ t.mirrorOut = none ∧ t.mirrorDue = none ∧
        rd t F.GRT_STATE_MIRROR = 3 ∧ rd t F.GRT_ERR_MIRROR_FAIL = 1 ∧ t.mem = s.mem) ∧
      (linkUp s 12 = true → touchRanges { s with mirrorDue := none } idSup false none (imageRanges s) = (u, .ok ()) →
        ∃ t x, exec .mirrorSend s = .next t ∧ t.mirrorOut = some x ∧ x.kind = 1 ∧ x.gen = gen ∧ x.step = step ∧ x.tries = 1 ∧ x.holds = [] ∧
          x.image = buildImage u 1 gen step ∧ t.mirrorDue = none ∧ t.mem = s.mem)) ∧
    (s.mirrorDue = none ∨ s.mirrorOut.isSome = true → exec .mirrorSend s = .next s) ∧
    (served s src = true → isLead s src = false → ∃ t, exec (.twinReturn src) s = .next t ∧ rd t F.DEV_CFG_ERR_CODE = Code.NOT_LEAD ∧
      RegsKept s t [F.DEV_CFG_ERR_CODE.off] ∧ t = { s with regs := t.regs }) ∧
    (served s src = true → isLead s src = true → s.mirrorOut.isSome = true ∨ freeStream s = none → ∃ t, exec (.twinReturn src) s = .next t ∧ t.returnDue = true ∧
      rd t F.GRT_CTL_RESULT = 1 ∧ t.mirrorOut = s.mirrorOut) ∧
    (served s src = true → isLead s src = true → s.mirrorOut = none → (freeStream s).isSome = true → linkUp s 12 = true → heldHalf s = some half → s.symErr = [] →
      touchRanges s idSup false none [(half.1, 256 + peekNat s (half.1 + 0x10) 8)] = (u, .ok ()) →
      let img := peekBytes s half.1 (256 + peekNat s (half.1 + 0x10) 8)
      ∃ t x, exec (.twinReturn src) s = .next t ∧ t.mirrorOut = some x ∧ x.kind = 2 ∧ rd t F.GRT_CTL_RESULT = 1 ∧
        x.image = img.take 0x24 ++ [2] ++ (img.drop 0x25).take 3 ++ zeros 4 ++ img.drop 0x2C ∧ t.mem = s.mem) ∧
    (served s src = true → isLead s src = true → s.mirrorOut = none → (freeStream s).isSome = true → linkUp s 12 = false ∨ heldHalf s = none →
      ∃ t, exec (.twinReturn src) s = .next t ∧ rd t F.GRT_CTL_RESULT = 3 ∧ rd t F.GRT_ERR_MIRROR_FAIL = 1 ∧ t.mirrorOut = none ∧ t.mem = s.mem) ∧
    (∃ t, exec .twinPresentRise s = .next t ∧ t.twinIn = true ∧ (pwrGood s = true → rd t F.GRT_STATE_TWIN_PRESENT = 1) ∧
      RegsKept s t [F.GRT_STATE_TWIN_PRESENT.off] ∧ t = { s with regs := t.regs, twinIn := true }) ∧
    (∃ t, exec .twinPresentFall s = .next t ∧ t.twinIn = false ∧ (pwrGood s = true → rd t F.GRT_STATE_TWIN_PRESENT = 0) ∧
      (pwrGood s = true → linkUp s 12 = true → rd t F.GRT_STATE_STATE = lkFAILED ∧ t.mirrorIn = none ∧ t.mirrorOut = none))

/-- Management messages (R411, R425, R446, R447, R449, R450): the bus assigns the endpoint's addresses; a message that would change a sensor is
refused; a unit report answers what the data path posted and says whether it is stale; SPDM exchanges enter the transcript, and messages that need
the algorithms are answered with an error before they are negotiated. A signed answer is signed over the hash of the transcript. Image update
(R28, R448): refused in KINDLING; else the chosen slot's state record is erased and its data are taken, within the slot. The slot's SEQ is
programmed only where every check passes, one that fails is marked, and an image that is ready is activated by a re-kindling at once in STOPPED,
or waits for the next one. The boundary scan (R473, R475): SAMPLE shifts out what the contacts hold, PRELOAD sets the held value, Test-Logic-Reset
puts IDCODE in force (log entry 21). EXTEST, CLAMP and HIGHZ act in the scan hold alone; elsewhere they are BYPASS, which shifts out a zero. The
model's choices in it: log entries 20, 60, 64, 65. -/
def Obligations.ManagementEndpoint : Prop :=
  (∀ (addr : BitVec 7) (eid f : BitVec 8) (m : Bytes) (s : State), s.auxOn = true →
    let replies (i : Instr) (d : Bytes) : Prop := exec i s = .next { s with out := s.out ++ [.reply d] }
    let spdm (i : Instr) (neg : Bool) (start : Bytes) (content : Bytes) (sign : Bool) : Prop :=
      let body := Config.spdmReply m content
      let tr := start ++ m ++ body
      exec i s = .next { s with mgmt := { s.mgmt with transcript := tr, negotiated := neg },
                                out := s.out ++ [.reply (if sign then body ++ Config.mldsaSign s.mgmt.key (Config.shake256 tr 64) else body)] }
    (∃ t, exec (.entdaa addr) s = .next t ∧ rd t F.MGT_I3C_DYN_ADDR = addr.toNat ∧ rd t F.MGT_I3C_ADDR_VALID = 1 ∧
      rd t F.MGT_I3C_EID = rd s F.MGT_I3C_EID ∧ RegsKept s t [F.MGT_I3C_DYN_ADDR.off] ∧ t = { s with regs := t.regs }) ∧
    (∃ t, exec (.setEndpointId eid) s = .next t ∧ rd t F.MGT_I3C_EID = eid.toNat ∧ rd t F.MGT_I3C_DYN_ADDR = rd s F.MGT_I3C_DYN_ADDR ∧
      RegsKept s t [F.MGT_I3C_EID.off] ∧ t = { s with regs := t.regs }) ∧
    replies (.mctpControlMessage m)
      (Config.mctpReply m ([BitVec.ofNat 8 (rd s F.MGT_I3C_EID), 0x00, 0x01, 0x05, 0x7F] ++ leBytes 4 (rd s F.MGT_ID_IANA))) ∧
    (changesSensor m = true → replies (.pldmMonitorRequest m) (leBytes 1 (field m 0 1 % 128) ++ (m.drop 1).take 2 ++ [0x05])) ∧
    (changesSensor m = false → replies (.pldmMonitorRequest m) (Config.pldmReply m (sensors s))) ∧
    (isFunc f.toNat = false → replies (.unitReport f) (1 :: f :: zeros 14)) ∧
    (isFunc f.toNat = true → s.power = .aux ∨ s.power = .kindling → replies (.unitReport f) (2 :: f :: zeros 14)) ∧
    (∀ st gen code, isFunc f.toNat = true → s.power = .run ∨ s.power = .stopped → s.mgmt.reports.find? f.toNat = some (st, gen, code) →
      let fresh := st = fnState s f.toNat ∧ gen = rd s F.DEV_COMMIT_GEN_GEN
      (fresh → replies (.unitReport f) ([0, f] ++ leBytes 1 st ++ [0] ++ leBytes 4 gen ++ leBytes 4 (rd s F.DEV_COMMIT_GEN_GEN) ++ leBytes 2 0 ++ leBytes 2 code)) ∧
      (¬ fresh → replies (.unitReport f)
        ([0, f] ++ leBytes 1 st ++ [1] ++ leBytes 4 gen ++ leBytes 4 (rd s F.DEV_COMMIT_GEN_GEN) ++ leBytes 2 Code.STALE ++ leBytes 2 code))) ∧
    spdm (.getVersion m) false [] [0x13] false ∧
    spdm (.getCapabilities m) s.mgmt.negotiated s.mgmt.transcript [1, 1, 2] false ∧
    spdm (.negotiateAlgorithms m) true s.mgmt.transcript (algNames s) false ∧
    (s.mgmt.negotiated = false → ∀ i ∈ [Instr.getDigests m, .getCertificate m, .challenge m, .getMeasurements m], replies i (Config.spdmReply m [])) ∧
    (s.mgmt.negotiated = true →
      spdm (.getDigests m) true s.mgmt.transcript (Config.shake256 (certChain s) 64) false ∧
      spdm (.getCertificate m) true s.mgmt.transcript (certChain s) false ∧
      spdm (.challenge m) true s.mgmt.transcript (Config.shake256 (certChain s) 64) true ∧
      spdm (.getMeasurements m) true s.mgmt.transcript ((List.range 4).flatMap fun i => measurement s (i + 1)) true)) ∧
  (∀ (off : Nat) (d : Bytes) (s : State), s.auxOn = true →
    let k := rd s F.MGT_UPDATE_SLOT
    let st := rd s F.MGT_UPDATE_STATE
    let states (t : State) (ok : Bool) : Prop := t.out = s.out ++ [.reply [if ok then 0 else 1]]
    let byte (s : State) (a : Nat) : BitVec 8 := s.flash.get 0xFF a
    let record (k : Nat) : Nat := 0x03100000 + 16 * k
    let refused (i : Instr) : Prop := ∃ t, exec i s = .next t ∧ states t false ∧ t = { s with out := t.out }
    (s.power = .kindling → refused .requestUpdate) ∧
    (s.power ≠ .kindling → ∃ t, exec .requestUpdate s = .next t ∧ states t true ∧ rd t F.MGT_UPDATE_STATE = 1 ∧ rd t F.MGT_UPDATE_SLOT = updateSlot s ∧
      rd t F.MGT_UPDATE_CODE = 0 ∧ (∀ i, i < 16 → byte t (record (updateSlot s) + i) = 0xFF) ∧
      (∀ a, a < record (updateSlot s) ∨ record (updateSlot s) + 16 ≤ a → byte t a = byte s a) ∧ t = { s with regs := t.regs, flash := t.flash, out := t.out }) ∧
    (st ≠ 1 ∨ 0x01800000 < off + d.length → exec (.pldmImageData off d) s = .next s) ∧
    (st = 1 → off + d.length ≤ 0x01800000 → ∃ t, exec (.pldmImageData off d) s = .next t ∧ t = { s with flash := t.flash } ∧
      flashBytes t (slotFlash k + off) d.length = d ∧ ∀ a, a < slotFlash k + off ∨ slotFlash k + off + d.length ≤ a → byte t a = byte s a) ∧
    (st ≠ 1 → refused .verifyComplete) ∧
    (st = 1 → updateCode s k = 0 → ∃ t, exec .verifyComplete s = .next t ∧ states t true ∧ rd t F.MGT_UPDATE_STATE = 3 ∧
      flashNat t (record k) 4 = nextSeq s k ∧ (∀ a, a < record k ∨ record k + 4 ≤ a → byte t a = byte s a) ∧ t = { s with regs := t.regs, flash := t.flash, out := t.out }) ∧
    (∀ c, st = 1 → updateCode s k = c → c ≠ 0 → ∃ t, exec .verifyComplete s = .next t ∧ states t false ∧ rd t F.MGT_UPDATE_STATE = 4 ∧
      rd t F.MGT_UPDATE_CODE = c % 2 ^ (F.MGT_UPDATE_CODE).width ∧ slotBad t k = true) ∧
    (st ≠ 3 → refused .activateFirmware) ∧
    (st = 3 → s.power = .stopped → ∃ t, exec .activateFirmware s = .next t ∧ states t true ∧ t.rekindle = 2 ∧
      t = { s with rekindle := 2, slotOvr := slotNow s, out := t.out }) ∧
    (st = 3 → s.power ≠ .stopped → ∃ t, exec .activateFirmware s = .next t ∧ states t true ∧ rd t F.MGT_UPDATE_ACTIVATE_PENDING = 1 ∧
      RegsKept s t [F.MGT_UPDATE_ACTIVATE_PENDING.off] ∧ t = { s with regs := t.regs, out := t.out }) ∧
    (∀ j, j < 2 → slotSeq s (1 - j) < 0xFFFFFFFE → nextSeq s j = slotSeq s (1 - j) + 1)) ∧
  (∀ (pins : Bytes) (s : State), s.auxOn = true →
    let shifts (i : Instr) (inst v : Nat) : Prop := exec i s = .next { s with tap := { s.tap with inst := inst }, out := s.out ++ [.tdo v] }
    let hold := s.scanHold = true ∧ s.power = .kindling
    exec .tapReset s = .next { s with tap := { s.tap with inst := tapIDCODE } } ∧ shifts .bypass tapBYPASS 0 ∧
    shifts (.sample pins) tapSAMPLE (leNat pins) ∧ exec (.preload pins) s = .next { s with tap := { inst := tapPRELOAD, boundary := pins } } ∧
    (hold → shifts (.extest pins) tapEXTEST (leNat pins) ∧ shifts .clamp tapCLAMP 0 ∧ shifts .highz tapHIGHZ 0) ∧
    (¬ hold → shifts (.extest pins) tapBYPASS 0 ∧ shifts .clamp tapBYPASS 0 ∧ shifts .highz tapBYPASS 0))

/-- What the test access port always offers (R474): IDCODE shifts out the version from DEV_ID.STEPPING [3:0], part 0x9024, manufacturer field
0x4B1 and 1; BYPASS, SAMPLE and PRELOAD come into force in every state in which the port is powered. -/
def Obligations.TestPort : Prop :=

  ∀ (pins : Bytes) (s : State), s.auxOn = true →
    let enters (i : Instr) (inst : Nat) : Prop := ∃ t, exec i s = .next t ∧ t.tap.inst = inst ∧ t = { s with tap := t.tap, out := t.out }
    exec .idcode s = .next { s with tap := { s.tap with inst := tapIDCODE },
                                    out := s.out ++ [.tdo (2 ^ 28 * (rd s F.DEV_ID_STEPPING % 16) + 2 ^ 12 * 0x9024 + 2 * 0x4B1 + 1)] } ∧
    enters .bypass tapBYPASS ∧ enters (.sample pins) tapSAMPLE ∧ enters (.preload pins) tapPRELOAD
end

