-- ==== Sys2Proof/Laws/Registers.lean ====
section
/-! SUPPORT. The laws of the register file: a field written is read back, and a write of a field leaves every other field and
register alone. -/

namespace Sys2Proof.Machine

theorem regVal_setReg_same (s : State) (o : Nat) (v : BitVec 64) : regVal (setReg s o v) o = v := by
  simp [regVal, setReg, Smap.get_set_same]

theorem regVal_setReg_ne (s : State) {o p : Nat} (v : BitVec 64) (h : o ≠ p) : regVal (setReg s o v) p = regVal s p := by
  simp [regVal, setReg, Smap.get_set_ne _ _ _ h]

theorem bits_lt (x lo w : Nat) : bits x lo w < 2 ^ w := Nat.mod_lt _ (Nat.two_pow_pos w)

/-- The written bits. -/
theorem bits_putBits_same (x lo w v : Nat) : bits (putBits x lo w v) lo w = v % 2 ^ w := by
  unfold bits putBits
  have hp : 0 < 2 ^ lo := Nat.two_pow_pos lo
  have hlt : x % 2 ^ lo < 2 ^ lo := Nat.mod_lt _ hp
  rw [Nat.pow_add, Nat.mul_assoc, Nat.add_assoc, ← Nat.mul_add, Nat.add_mul_div_left _ _ hp, Nat.div_eq_of_lt hlt, Nat.zero_add,
    Nat.add_mul_mod_self_left, Nat.mod_mod]

/-- A field that lies below the written bits. -/
theorem bits_putBits_below (x lo w v : Nat) {lo' w' : Nat} (h : lo' + w' ≤ lo) : bits (putBits x lo w v) lo' w' = bits x lo' w' := by
  obtain ⟨d, rfl⟩ := Nat.exists_eq_add_of_le h
  unfold bits putBits
  have hq : 0 < 2 ^ lo' := Nat.two_pow_pos _
  -- everything above bit lo' + w' is a multiple of 2 ^ (lo' + w')
  have e : x % 2 ^ (lo' + w' + d) + 2 ^ (lo' + w' + d) * (v % 2 ^ w) + 2 ^ (lo' + w' + d + w) * (x / 2 ^ (lo' + w' + d + w)) =
      x % 2 ^ (lo' + w' + d) + 2 ^ lo' * (2 ^ w' * (2 ^ d * (v % 2 ^ w) + 2 ^ (d + w) * (x / 2 ^ (lo' + w' + d + w)))) := by
    simp only [Nat.pow_add, Nat.mul_add, Nat.mul_assoc, Nat.add_assoc]
  rw [e, Nat.add_mul_div_left _ _ hq, Nat.add_mul_mod_self_left, Nat.pow_add, Nat.pow_add, Nat.mul_assoc,
    Nat.mod_mul_right_div_self, Nat.mod_mul_right_mod]

/-- A field that lies above the written bits. -/
theorem bits_putBits_above (x lo w v : Nat) {lo' w' : Nat} (h : lo + w ≤ lo') : bits (putBits x lo w v) lo' w' = bits x lo' w' := by
  obtain ⟨d, rfl⟩ := Nat.exists_eq_add_of_le h
  unfold bits putBits
  have hp : 0 < 2 ^ (lo + w) := Nat.two_pow_pos _
  have h1 : x % 2 ^ lo + 2 ^ lo * (v % 2 ^ w) < 2 ^ (lo + w) := by
    have a := Nat.mod_lt x (Nat.two_pow_pos lo)
    have b := Nat.mod_lt v (Nat.two_pow_pos w)
    have c : 2 ^ lo * (v % 2 ^ w) ≤ 2 ^ lo * (2 ^ w - 1) := Nat.mul_le_mul_left _ (by omega)
    rw [Nat.pow_add]
    rw [Nat.mul_sub, Nat.mul_one] at c
    have : 2 ^ lo ≤ 2 ^ lo * 2 ^ w := Nat.le_mul_of_pos_right _ (Nat.two_pow_pos w)
    omega
  rw [Nat.pow_add _ (lo + w) d, ← Nat.div_div_eq_div_mul, ← Nat.div_div_eq_div_mul, Nat.add_mul_div_left _ _ hp,
    Nat.div_eq_of_lt h1, Nat.zero_add]

theorem putBits_lt {x lo w v : Nat} (h : lo + w ≤ 64) (hx : x < 2 ^ 64) : putBits x lo w v < 2 ^ 64 := by
  obtain ⟨d, hd⟩ := Nat.exists_eq_add_of_le h
  unfold putBits
  rw [hd] at hx ⊢
  have h1 : x % 2 ^ lo + 2 ^ lo * (v % 2 ^ w) < 2 ^ (lo + w) := by
    have a := Nat.mod_lt x (Nat.two_pow_pos lo)
    have b := Nat.mod_lt v (Nat.two_pow_pos w)
    have c : 2 ^ lo * (v % 2 ^ w) ≤ 2 ^ lo * (2 ^ w - 1) := Nat.mul_le_mul_left _ (by omega)
    rw [Nat.pow_add]
    rw [Nat.mul_sub, Nat.mul_one] at c
    have : 2 ^ lo ≤ 2 ^ lo * 2 ^ w := Nat.le_mul_of_pos_right _ (Nat.two_pow_pos w)
    omega
  have h2 : x / 2 ^ (lo + w) < 2 ^ d := by
    rw [Nat.div_lt_iff_lt_mul (Nat.two_pow_pos _), Nat.mul_comm, ← Nat.pow_add]; exact hx
  have h3 : 2 ^ (lo + w) * (x / 2 ^ (lo + w)) ≤ 2 ^ (lo + w) * (2 ^ d - 1) := Nat.mul_le_mul_left _ (by omega)
  rw [Nat.mul_sub, Nat.mul_one, ← Nat.pow_add] at h3
  have : 2 ^ (lo + w) ≤ 2 ^ (lo + w + d) := Nat.pow_le_pow_right (by omega) (by omega)
  omega

theorem regVal_wr_same (s : State) {f : Fld} (v : Nat) (h : f.lo + f.width ≤ 64) :
    (regVal (wr s f v) f.off).toNat = putBits (regVal s f.off).toNat f.lo f.width v := by
  rw [wr, regVal_setReg_same, BitVec.toNat_ofNat]
  exact Nat.mod_eq_of_lt (putBits_lt h (regVal s f.off).isLt)

/-- A field that was written reads what was written, cut to its width (R9). -/
theorem rd_wr_same (s : State) {f : Fld} (v : Nat) (h : f.lo + f.width ≤ 64) : rd (wr s f v) f = v % 2 ^ f.width := by
  rw [rd, regVal_wr_same s v h, bits_putBits_same]

/-- A field of another register. -/
theorem rd_wr_off (s : State) {f g : Fld} (v : Nat) (h : f.off ≠ g.off) : rd (wr s f v) g = rd s g := by
  rw [rd, wr, regVal_setReg_ne _ _ h, rd]

/-- Another field of the same register. -/
theorem rd_wr_disjoint (s : State) {f g : Fld} (v : Nat) (hf : f.lo + f.width ≤ 64) (he : f.off = g.off)
    (h : g.lo + g.width ≤ f.lo ∨ f.lo + f.width ≤ g.lo) : rd (wr s f v) g = rd s g := by
  rw [rd, ← he, regVal_wr_same s v hf]
  rcases h with h | h
  · rw [bits_putBits_below _ _ _ _ h, rd, he]
  · rw [bits_putBits_above _ _ _ _ h, rd, he]

/-- A field that shares no bit with the one written. -/
theorem rd_wr_ne (s : State) {f g : Fld} (v : Nat) (hf : f.lo + f.width ≤ 64)
    (h : f.off ≠ g.off ∨ g.lo + g.width ≤ f.lo ∨ f.lo + f.width ≤ g.lo) : rd (wr s f v) g = rd s g := by
  by_cases he : f.off = g.off
  · exact rd_wr_disjoint s v hf he (h.resolve_left (fun k => k he))
  · exact rd_wr_off s v he

end Sys2Proof.Machine
end

