-- ==== Sys2Proof/Laws/State.lean ====
section
/-! SUPPORT. What each named update of the state leaves in each field: one lemma per field per update. -/

namespace Sys2Proof.Machine

/-! ### setReg -/

@[simp] theorem setReg_pending (s : State) (off : Nat) (v : BitVec 64) : (setReg s off v).pending = s.pending := rfl
@[simp] theorem setReg_free (s : State) (off : Nat) (v : BitVec 64) : (setReg s off v).free = s.free := rfl
@[simp] theorem setReg_out (s : State) (off : Nat) (v : BitVec 64) : (setReg s off v).out = s.out := rfl
@[simp] theorem setReg_regs (s : State) (off : Nat) (v : BitVec 64) : (setReg s off v).regs = s.regs.set off v := rfl
@[simp] theorem setReg_pend (s : State) (off : Nat) (v : BitVec 64) : (setReg s off v).pend = s.pend := rfl
@[simp] theorem setReg_auxOn (s : State) (off : Nat) (v : BitVec 64) : (setReg s off v).auxOn = s.auxOn := rfl
@[simp] theorem setReg_mainOn (s : State) (off : Nat) (v : BitVec 64) : (setReg s off v).mainOn = s.mainOn := rfl
@[simp] theorem setReg_thermTrip (s : State) (off : Nat) (v : BitVec 64) : (setReg s off v).thermTrip = s.thermTrip := rfl
@[simp] theorem setReg_pwrFault (s : State) (off : Nat) (v : BitVec 64) : (setReg s off v).pwrFault = s.pwrFault := rfl
@[simp] theorem setReg_twinIn (s : State) (off : Nat) (v : BitVec 64) : (setReg s off v).twinIn = s.twinIn := rfl
@[simp] theorem setReg_scanHold (s : State) (off : Nat) (v : BitVec 64) : (setReg s off v).scanHold = s.scanHold := rfl
@[simp] theorem setReg_fuses (s : State) (off : Nat) (v : BitVec 64) : (setReg s off v).fuses = s.fuses := rfl
@[simp] theorem setReg_flash (s : State) (off : Nat) (v : BitVec 64) : (setReg s off v).flash = s.flash := rfl
@[simp] theorem setReg_rekindle (s : State) (off : Nat) (v : BitVec 64) : (setReg s off v).rekindle = s.rekindle := rfl
@[simp] theorem setReg_slotOvr (s : State) (off : Nat) (v : BitVec 64) : (setReg s off v).slotOvr = s.slotOvr := rfl
@[simp] theorem setReg_cands (s : State) (off : Nat) (v : BitVec 64) : (setReg s off v).cands = s.cands := rfl
@[simp] theorem setReg_image (s : State) (off : Nat) (v : BitVec 64) : (setReg s off v).image = s.image := rfl
@[simp] theorem setReg_loads (s : State) (off : Nat) (v : BitVec 64) : (setReg s off v).loads = s.loads := rfl
@[simp] theorem setReg_mem (s : State) (off : Nat) (v : BitVec 64) : (setReg s off v).mem = s.mem := rfl
@[simp] theorem setReg_symErr (s : State) (off : Nat) (v : BitVec 64) : (setReg s off v).symErr = s.symErr := rfl
@[simp] theorem setReg_poison (s : State) (off : Nat) (v : BitVec 64) : (setReg s off v).poison = s.poison := rfl
@[simp] theorem setReg_farPoison (s : State) (off : Nat) (v : BitVec 64) : (setReg s off v).farPoison = s.farPoison := rfl
@[simp] theorem setReg_hostBad (s : State) (off : Nat) (v : BitVec 64) : (setReg s off v).hostBad = s.hostBad := rfl
@[simp] theorem setReg_lostGddr (s : State) (off : Nat) (v : BitVec 64) : (setReg s off v).lostGddr = s.lostGddr := rfl
@[simp] theorem setReg_lostFlash (s : State) (off : Nat) (v : BitVec 64) : (setReg s off v).lostFlash = s.lostFlash := rfl
@[simp] theorem setReg_tickets (s : State) (off : Nat) (v : BitVec 64) : (setReg s off v).tickets = s.tickets := rfl
@[simp] theorem setReg_nextKey (s : State) (off : Nat) (v : BitVec 64) : (setReg s off v).nextKey = s.nextKey := rfl
@[simp] theorem setReg_nextRing (s : State) (off : Nat) (v : BitVec 64) : (setReg s off v).nextRing = s.nextRing := rfl
@[simp] theorem setReg_disps (s : State) (off : Nat) (v : BitVec 64) : (setReg s off v).disps = s.disps := rfl
@[simp] theorem setReg_puts (s : State) (off : Nat) (v : BitVec 64) : (setReg s off v).puts = s.puts := rfl
@[simp] theorem setReg_held (s : State) (off : Nat) (v : BitVec 64) : (setReg s off v).held = s.held := rfl
@[simp] theorem setReg_cores (s : State) (off : Nat) (v : BitVec 64) : (setReg s off v).cores = s.cores := rfl
@[simp] theorem setReg_damper (s : State) (off : Nat) (v : BitVec 64) : (setReg s off v).damper = s.damper := rfl
@[simp] theorem setReg_ember (s : State) (off : Nat) (v : BitVec 64) : (setReg s off v).ember = s.ember := rfl
@[simp] theorem setReg_emberLost (s : State) (off : Nat) (v : BitVec 64) : (setReg s off v).emberLost = s.emberLost := rfl
@[simp] theorem setReg_stops (s : State) (off : Nat) (v : BitVec 64) : (setReg s off v).stops = s.stops := rfl
@[simp] theorem setReg_ports (s : State) (off : Nat) (v : BitVec 64) : (setReg s off v).ports = s.ports := rfl
@[simp] theorem setReg_mgmt (s : State) (off : Nat) (v : BitVec 64) : (setReg s off v).mgmt = s.mgmt := rfl
@[simp] theorem setReg_tap (s : State) (off : Nat) (v : BitVec 64) : (setReg s off v).tap = s.tap := rfl
@[simp] theorem setReg_kept (s : State) (off : Nat) (v : BitVec 64) : (setReg s off v).kept = s.kept := rfl
@[simp] theorem setReg_bellows (s : State) (off : Nat) (v : BitVec 64) : (setReg s off v).bellows = s.bellows := rfl
@[simp] theorem setReg_parityBad (s : State) (off : Nat) (v : BitVec 64) : (setReg s off v).parityBad = s.parityBad := rfl
@[simp] theorem setReg_wordErrs (s : State) (off : Nat) (v : BitVec 64) : (setReg s off v).wordErrs = s.wordErrs := rfl
@[simp] theorem setReg_meTests (s : State) (off : Nat) (v : BitVec 64) : (setReg s off v).meTests = s.meTests := rfl
@[simp] theorem setReg_stats (s : State) (off : Nat) (v : BitVec 64) : (setReg s off v).stats = s.stats := rfl
@[simp] theorem setReg_walks (s : State) (off : Nat) (v : BitVec 64) : (setReg s off v).walks = s.walks := rfl
@[simp] theorem setReg_commits (s : State) (off : Nat) (v : BitVec 64) : (setReg s off v).commits = s.commits := rfl
@[simp] theorem setReg_scaleOpen (s : State) (off : Nat) (v : BitVec 64) : (setReg s off v).scaleOpen = s.scaleOpen := rfl
@[simp] theorem setReg_scaleHeld (s : State) (off : Nat) (v : BitVec 64) : (setReg s off v).scaleHeld = s.scaleHeld := rfl
@[simp] theorem setReg_stash (s : State) (off : Nat) (v : BitVec 64) : (setReg s off v).stash = s.stash := rfl
@[simp] theorem setReg_stashWait (s : State) (off : Nat) (v : BitVec 64) : (setReg s off v).stashWait = s.stashWait := rfl
@[simp] theorem setReg_recomps (s : State) (off : Nat) (v : BitVec 64) : (setReg s off v).recomps = s.recomps := rfl
@[simp] theorem setReg_colls (s : State) (off : Nat) (v : BitVec 64) : (setReg s off v).colls = s.colls := rfl
@[simp] theorem setReg_collEnded (s : State) (off : Nat) (v : BitVec 64) : (setReg s off v).collEnded = s.collEnded := rfl
@[simp] theorem setReg_collCount (s : State) (off : Nat) (v : BitVec 64) : (setReg s off v).collCount = s.collCount := rfl
@[simp] theorem setReg_txs (s : State) (off : Nat) (v : BitVec 64) : (setReg s off v).txs = s.txs := rfl
@[simp] theorem setReg_rxs (s : State) (off : Nat) (v : BitVec 64) : (setReg s off v).rxs = s.rxs := rfl
@[simp] theorem setReg_pends (s : State) (off : Nat) (v : BitVec 64) : (setReg s off v).pends = s.pends := rfl
@[simp] theorem setReg_evalHolds (s : State) (off : Nat) (v : BitVec 64) : (setReg s off v).evalHolds = s.evalHolds := rfl
@[simp] theorem setReg_codQueue (s : State) (off : Nat) (v : BitVec 64) : (setReg s off v).codQueue = s.codQueue := rfl
@[simp] theorem setReg_codLanes (s : State) (off : Nat) (v : BitVec 64) : (setReg s off v).codLanes = s.codLanes := rfl
@[simp] theorem setReg_codKept (s : State) (off : Nat) (v : BitVec 64) : (setReg s off v).codKept = s.codKept := rfl
@[simp] theorem setReg_codIngest (s : State) (off : Nat) (v : BitVec 64) : (setReg s off v).codIngest = s.codIngest := rfl
@[simp] theorem setReg_codLast (s : State) (off : Nat) (v : BitVec 64) : (setReg s off v).codLast = s.codLast := rfl
@[simp] theorem setReg_codErrs (s : State) (off : Nat) (v : BitVec 64) : (setReg s off v).codErrs = s.codErrs := rfl
@[simp] theorem setReg_links (s : State) (off : Nat) (v : BitVec 64) : (setReg s off v).links = s.links := rfl
@[simp] theorem setReg_rejected (s : State) (off : Nat) (v : BitVec 64) : (setReg s off v).rejected = s.rejected := rfl
@[simp] theorem setReg_forwarded (s : State) (off : Nat) (v : BitVec 64) : (setReg s off v).forwarded = s.forwarded := rfl
@[simp] theorem setReg_mirrorOut (s : State) (off : Nat) (v : BitVec 64) : (setReg s off v).mirrorOut = s.mirrorOut := rfl
@[simp] theorem setReg_mirrorIn (s : State) (off : Nat) (v : BitVec 64) : (setReg s off v).mirrorIn = s.mirrorIn := rfl
@[simp] theorem setReg_mirrorDue (s : State) (off : Nat) (v : BitVec 64) : (setReg s off v).mirrorDue = s.mirrorDue := rfl
@[simp] theorem setReg_returnDue (s : State) (off : Nat) (v : BitVec 64) : (setReg s off v).returnDue = s.returnDue := rfl
@[simp] theorem setReg_mirrorOwed (s : State) (off : Nat) (v : BitVec 64) : (setReg s off v).mirrorOwed = s.mirrorOwed := rfl
@[simp] theorem setReg_laneChk (s : State) (off : Nat) (v : BitVec 64) : (setReg s off v).laneChk = s.laneChk := rfl
@[simp] theorem setReg_commitStep (s : State) (off : Nat) (v : BitVec 64) : (setReg s off v).commitStep = s.commitStep := rfl
@[simp] theorem setReg_staged (s : State) (off : Nat) (v : BitVec 64) : (setReg s off v).staged = s.staged := rfl
@[simp] theorem setReg_ckptFlash (s : State) (off : Nat) (v : BitVec 64) : (setReg s off v).ckptFlash = s.ckptFlash := rfl
@[simp] theorem setReg_undoGen (s : State) (off : Nat) (v : BitVec 64) : (setReg s off v).undoGen = s.undoGen := rfl
@[simp] theorem setReg_rolledBack (s : State) (off : Nat) (v : BitVec 64) : (setReg s off v).rolledBack = s.rolledBack := rfl
@[simp] theorem setReg_meProven (s : State) (off : Nat) (v : BitVec 64) : (setReg s off v).meProven = s.meProven := rfl
@[simp] theorem setReg_stopId (s : State) (off : Nat) (v : BitVec 64) : (setReg s off v).stopId = s.stopId := rfl

/-! ### wr -/

@[simp] theorem wr_pending (s : State) (f : Fld) (v : Nat) : (wr s f v).pending = s.pending := rfl
@[simp] theorem wr_free (s : State) (f : Fld) (v : Nat) : (wr s f v).free = s.free := rfl
@[simp] theorem wr_out (s : State) (f : Fld) (v : Nat) : (wr s f v).out = s.out := rfl
@[simp] theorem wr_pend (s : State) (f : Fld) (v : Nat) : (wr s f v).pend = s.pend := rfl
@[simp] theorem wr_auxOn (s : State) (f : Fld) (v : Nat) : (wr s f v).auxOn = s.auxOn := rfl
@[simp] theorem wr_mainOn (s : State) (f : Fld) (v : Nat) : (wr s f v).mainOn = s.mainOn := rfl
@[simp] theorem wr_thermTrip (s : State) (f : Fld) (v : Nat) : (wr s f v).thermTrip = s.thermTrip := rfl
@[simp] theorem wr_pwrFault (s : State) (f : Fld) (v : Nat) : (wr s f v).pwrFault = s.pwrFault := rfl
@[simp] theorem wr_twinIn (s : State) (f : Fld) (v : Nat) : (wr s f v).twinIn = s.twinIn := rfl
@[simp] theorem wr_scanHold (s : State) (f : Fld) (v : Nat) : (wr s f v).scanHold = s.scanHold := rfl
@[simp] theorem wr_fuses (s : State) (f : Fld) (v : Nat) : (wr s f v).fuses = s.fuses := rfl
@[simp] theorem wr_flash (s : State) (f : Fld) (v : Nat) : (wr s f v).flash = s.flash := rfl
@[simp] theorem wr_rekindle (s : State) (f : Fld) (v : Nat) : (wr s f v).rekindle = s.rekindle := rfl
@[simp] theorem wr_slotOvr (s : State) (f : Fld) (v : Nat) : (wr s f v).slotOvr = s.slotOvr := rfl
@[simp] theorem wr_cands (s : State) (f : Fld) (v : Nat) : (wr s f v).cands = s.cands := rfl
@[simp] theorem wr_image (s : State) (f : Fld) (v : Nat) : (wr s f v).image = s.image := rfl
@[simp] theorem wr_loads (s : State) (f : Fld) (v : Nat) : (wr s f v).loads = s.loads := rfl
@[simp] theorem wr_mem (s : State) (f : Fld) (v : Nat) : (wr s f v).mem = s.mem := rfl
@[simp] theorem wr_symErr (s : State) (f : Fld) (v : Nat) : (wr s f v).symErr = s.symErr := rfl
@[simp] theorem wr_poison (s : State) (f : Fld) (v : Nat) : (wr s f v).poison = s.poison := rfl
@[simp] theorem wr_farPoison (s : State) (f : Fld) (v : Nat) : (wr s f v).farPoison = s.farPoison := rfl
@[simp] theorem wr_hostBad (s : State) (f : Fld) (v : Nat) : (wr s f v).hostBad = s.hostBad := rfl
@[simp] theorem wr_lostGddr (s : State) (f : Fld) (v : Nat) : (wr s f v).lostGddr = s.lostGddr := rfl
@[simp] theorem wr_lostFlash (s : State) (f : Fld) (v : Nat) : (wr s f v).lostFlash = s.lostFlash := rfl
@[simp] theorem wr_tickets (s : State) (f : Fld) (v : Nat) : (wr s f v).tickets = s.tickets := rfl
@[simp] theorem wr_nextKey (s : State) (f : Fld) (v : Nat) : (wr s f v).nextKey = s.nextKey := rfl
@[simp] theorem wr_nextRing (s : State) (f : Fld) (v : Nat) : (wr s f v).nextRing = s.nextRing := rfl
@[simp] theorem wr_disps (s : State) (f : Fld) (v : Nat) : (wr s f v).disps = s.disps := rfl
@[simp] theorem wr_puts (s : State) (f : Fld) (v : Nat) : (wr s f v).puts = s.puts := rfl
@[simp] theorem wr_held (s : State) (f : Fld) (v : Nat) : (wr s f v).held = s.held := rfl
@[simp] theorem wr_cores (s : State) (f : Fld) (v : Nat) : (wr s f v).cores = s.cores := rfl
@[simp] theorem wr_damper (s : State) (f : Fld) (v : Nat) : (wr s f v).damper = s.damper := rfl
@[simp] theorem wr_ember (s : State) (f : Fld) (v : Nat) : (wr s f v).ember = s.ember := rfl
@[simp] theorem wr_emberLost (s : State) (f : Fld) (v : Nat) : (wr s f v).emberLost = s.emberLost := rfl
@[simp] theorem wr_stops (s : State) (f : Fld) (v : Nat) : (wr s f v).stops = s.stops := rfl
@[simp] theorem wr_ports (s : State) (f : Fld) (v : Nat) : (wr s f v).ports = s.ports := rfl
@[simp] theorem wr_mgmt (s : State) (f : Fld) (v : Nat) : (wr s f v).mgmt = s.mgmt := rfl
@[simp] theorem wr_tap (s : State) (f : Fld) (v : Nat) : (wr s f v).tap = s.tap := rfl
@[simp] theorem wr_kept (s : State) (f : Fld) (v : Nat) : (wr s f v).kept = s.kept := rfl
@[simp] theorem wr_bellows (s : State) (f : Fld) (v : Nat) : (wr s f v).bellows = s.bellows := rfl
@[simp] theorem wr_parityBad (s : State) (f : Fld) (v : Nat) : (wr s f v).parityBad = s.parityBad := rfl
@[simp] theorem wr_wordErrs (s : State) (f : Fld) (v : Nat) : (wr s f v).wordErrs = s.wordErrs := rfl
@[simp] theorem wr_meTests (s : State) (f : Fld) (v : Nat) : (wr s f v).meTests = s.meTests := rfl
@[simp] theorem wr_stats (s : State) (f : Fld) (v : Nat) : (wr s f v).stats = s.stats := rfl
@[simp] theorem wr_walks (s : State) (f : Fld) (v : Nat) : (wr s f v).walks = s.walks := rfl
@[simp] theorem wr_commits (s : State) (f : Fld) (v : Nat) : (wr s f v).commits = s.commits := rfl
@[simp] theorem wr_scaleOpen (s : State) (f : Fld) (v : Nat) : (wr s f v).scaleOpen = s.scaleOpen := rfl
@[simp] theorem wr_scaleHeld (s : State) (f : Fld) (v : Nat) : (wr s f v).scaleHeld = s.scaleHeld := rfl
@[simp] theorem wr_stash (s : State) (f : Fld) (v : Nat) : (wr s f v).stash = s.stash := rfl
@[simp] theorem wr_stashWait (s : State) (f : Fld) (v : Nat) : (wr s f v).stashWait = s.stashWait := rfl
@[simp] theorem wr_recomps (s : State) (f : Fld) (v : Nat) : (wr s f v).recomps = s.recomps := rfl
@[simp] theorem wr_colls (s : State) (f : Fld) (v : Nat) : (wr s f v).colls = s.colls := rfl
@[simp] theorem wr_collEnded (s : State) (f : Fld) (v : Nat) : (wr s f v).collEnded = s.collEnded := rfl
@[simp] theorem wr_collCount (s : State) (f : Fld) (v : Nat) : (wr s f v).collCount = s.collCount := rfl
@[simp] theorem wr_txs (s : State) (f : Fld) (v : Nat) : (wr s f v).txs = s.txs := rfl
@[simp] theorem wr_rxs (s : State) (f : Fld) (v : Nat) : (wr s f v).rxs = s.rxs := rfl
@[simp] theorem wr_pends (s : State) (f : Fld) (v : Nat) : (wr s f v).pends = s.pends := rfl
@[simp] theorem wr_evalHolds (s : State) (f : Fld) (v : Nat) : (wr s f v).evalHolds = s.evalHolds := rfl
@[simp] theorem wr_codQueue (s : State) (f : Fld) (v : Nat) : (wr s f v).codQueue = s.codQueue := rfl
@[simp] theorem wr_codLanes (s : State) (f : Fld) (v : Nat) : (wr s f v).codLanes = s.codLanes := rfl
@[simp] theorem wr_codKept (s : State) (f : Fld) (v : Nat) : (wr s f v).codKept = s.codKept := rfl
@[simp] theorem wr_codIngest (s : State) (f : Fld) (v : Nat) : (wr s f v).codIngest = s.codIngest := rfl
@[simp] theorem wr_codLast (s : State) (f : Fld) (v : Nat) : (wr s f v).codLast = s.codLast := rfl
@[simp] theorem wr_codErrs (s : State) (f : Fld) (v : Nat) : (wr s f v).codErrs = s.codErrs := rfl
@[simp] theorem wr_links (s : State) (f : Fld) (v : Nat) : (wr s f v).links = s.links := rfl
@[simp] theorem wr_rejected (s : State) (f : Fld) (v : Nat) : (wr s f v).rejected = s.rejected := rfl
@[simp] theorem wr_forwarded (s : State) (f : Fld) (v : Nat) : (wr s f v).forwarded = s.forwarded := rfl
@[simp] theorem wr_mirrorOut (s : State) (f : Fld) (v : Nat) : (wr s f v).mirrorOut = s.mirrorOut := rfl
@[simp] theorem wr_mirrorIn (s : State) (f : Fld) (v : Nat) : (wr s f v).mirrorIn = s.mirrorIn := rfl
@[simp] theorem wr_mirrorDue (s : State) (f : Fld) (v : Nat) : (wr s f v).mirrorDue = s.mirrorDue := rfl
@[simp] theorem wr_returnDue (s : State) (f : Fld) (v : Nat) : (wr s f v).returnDue = s.returnDue := rfl
@[simp] theorem wr_mirrorOwed (s : State) (f : Fld) (v : Nat) : (wr s f v).mirrorOwed = s.mirrorOwed := rfl
@[simp] theorem wr_laneChk (s : State) (f : Fld) (v : Nat) : (wr s f v).laneChk = s.laneChk := rfl
@[simp] theorem wr_commitStep (s : State) (f : Fld) (v : Nat) : (wr s f v).commitStep = s.commitStep := rfl
@[simp] theorem wr_staged (s : State) (f : Fld) (v : Nat) : (wr s f v).staged = s.staged := rfl
@[simp] theorem wr_ckptFlash (s : State) (f : Fld) (v : Nat) : (wr s f v).ckptFlash = s.ckptFlash := rfl
@[simp] theorem wr_undoGen (s : State) (f : Fld) (v : Nat) : (wr s f v).undoGen = s.undoGen := rfl
@[simp] theorem wr_rolledBack (s : State) (f : Fld) (v : Nat) : (wr s f v).rolledBack = s.rolledBack := rfl
@[simp] theorem wr_meProven (s : State) (f : Fld) (v : Nat) : (wr s f v).meProven = s.meProven := rfl
@[simp] theorem wr_stopId (s : State) (f : Fld) (v : Nat) : (wr s f v).stopId = s.stopId := rfl

/-! ### emit -/

@[simp] theorem emit_pending (s : State) (o : Out) : (emit s o).pending = s.pending := rfl
@[simp] theorem emit_free (s : State) (o : Out) : (emit s o).free = s.free := rfl
@[simp] theorem emit_out (s : State) (o : Out) : (emit s o).out = s.out ++ [o] := rfl
@[simp] theorem emit_regs (s : State) (o : Out) : (emit s o).regs = s.regs := rfl
@[simp] theorem emit_pend (s : State) (o : Out) : (emit s o).pend = s.pend := rfl
@[simp] theorem emit_auxOn (s : State) (o : Out) : (emit s o).auxOn = s.auxOn := rfl
@[simp] theorem emit_mainOn (s : State) (o : Out) : (emit s o).mainOn = s.mainOn := rfl
@[simp] theorem emit_thermTrip (s : State) (o : Out) : (emit s o).thermTrip = s.thermTrip := rfl
@[simp] theorem emit_pwrFault (s : State) (o : Out) : (emit s o).pwrFault = s.pwrFault := rfl
@[simp] theorem emit_twinIn (s : State) (o : Out) : (emit s o).twinIn = s.twinIn := rfl
@[simp] theorem emit_scanHold (s : State) (o : Out) : (emit s o).scanHold = s.scanHold := rfl
@[simp] theorem emit_fuses (s : State) (o : Out) : (emit s o).fuses = s.fuses := rfl
@[simp] theorem emit_flash (s : State) (o : Out) : (emit s o).flash = s.flash := rfl
@[simp] theorem emit_rekindle (s : State) (o : Out) : (emit s o).rekindle = s.rekindle := rfl
@[simp] theorem emit_slotOvr (s : State) (o : Out) : (emit s o).slotOvr = s.slotOvr := rfl
@[simp] theorem emit_cands (s : State) (o : Out) : (emit s o).cands = s.cands := rfl
@[simp] theorem emit_image (s : State) (o : Out) : (emit s o).image = s.image := rfl
@[simp] theorem emit_loads (s : State) (o : Out) : (emit s o).loads = s.loads := rfl
@[simp] theorem emit_mem (s : State) (o : Out) : (emit s o).mem = s.mem := rfl
@[simp] theorem emit_symErr (s : State) (o : Out) : (emit s o).symErr = s.symErr := rfl
@[simp] theorem emit_poison (s : State) (o : Out) : (emit s o).poison = s.poison := rfl
@[simp] theorem emit_farPoison (s : State) (o : Out) : (emit s o).farPoison = s.farPoison := rfl
@[simp] theorem emit_hostBad (s : State) (o : Out) : (emit s o).hostBad = s.hostBad := rfl
@[simp] theorem emit_lostGddr (s : State) (o : Out) : (emit s o).lostGddr = s.lostGddr := rfl
@[simp] theorem emit_lostFlash (s : State) (o : Out) : (emit s o).lostFlash = s.lostFlash := rfl
@[simp] theorem emit_tickets (s : State) (o : Out) : (emit s o).tickets = s.tickets := rfl
@[simp] theorem emit_nextKey (s : State) (o : Out) : (emit s o).nextKey = s.nextKey := rfl
@[simp] theorem emit_nextRing (s : State) (o : Out) : (emit s o).nextRing = s.nextRing := rfl
@[simp] theorem emit_disps (s : State) (o : Out) : (emit s o).disps = s.disps := rfl
@[simp] theorem emit_puts (s : State) (o : Out) : (emit s o).puts = s.puts := rfl
@[simp] theorem emit_held (s : State) (o : Out) : (emit s o).held = s.held := rfl
@[simp] theorem emit_cores (s : State) (o : Out) : (emit s o).cores = s.cores := rfl
@[simp] theorem emit_damper (s : State) (o : Out) : (emit s o).damper = s.damper := rfl
@[simp] theorem emit_ember (s : State) (o : Out) : (emit s o).ember = s.ember := rfl
@[simp] theorem emit_emberLost (s : State) (o : Out) : (emit s o).emberLost = s.emberLost := rfl
@[simp] theorem emit_stops (s : State) (o : Out) : (emit s o).stops = s.stops := rfl
@[simp] theorem emit_ports (s : State) (o : Out) : (emit s o).ports = s.ports := rfl
@[simp] theorem emit_mgmt (s : State) (o : Out) : (emit s o).mgmt = s.mgmt := rfl
@[simp] theorem emit_tap (s : State) (o : Out) : (emit s o).tap = s.tap := rfl
@[simp] theorem emit_kept (s : State) (o : Out) : (emit s o).kept = s.kept := rfl
@[simp] theorem emit_bellows (s : State) (o : Out) : (emit s o).bellows = s.bellows := rfl
@[simp] theorem emit_parityBad (s : State) (o : Out) : (emit s o).parityBad = s.parityBad := rfl
@[simp] theorem emit_wordErrs (s : State) (o : Out) : (emit s o).wordErrs = s.wordErrs := rfl
@[simp] theorem emit_meTests (s : State) (o : Out) : (emit s o).meTests = s.meTests := rfl
@[simp] theorem emit_stats (s : State) (o : Out) : (emit s o).stats = s.stats := rfl
@[simp] theorem emit_walks (s : State) (o : Out) : (emit s o).walks = s.walks := rfl
@[simp] theorem emit_commits (s : State) (o : Out) : (emit s o).commits = s.commits := rfl
@[simp] theorem emit_scaleOpen (s : State) (o : Out) : (emit s o).scaleOpen = s.scaleOpen := rfl
@[simp] theorem emit_scaleHeld (s : State) (o : Out) : (emit s o).scaleHeld = s.scaleHeld := rfl
@[simp] theorem emit_stash (s : State) (o : Out) : (emit s o).stash = s.stash := rfl
@[simp] theorem emit_stashWait (s : State) (o : Out) : (emit s o).stashWait = s.stashWait := rfl
@[simp] theorem emit_recomps (s : State) (o : Out) : (emit s o).recomps = s.recomps := rfl
@[simp] theorem emit_colls (s : State) (o : Out) : (emit s o).colls = s.colls := rfl
@[simp] theorem emit_collEnded (s : State) (o : Out) : (emit s o).collEnded = s.collEnded := rfl
@[simp] theorem emit_collCount (s : State) (o : Out) : (emit s o).collCount = s.collCount := rfl
@[simp] theorem emit_txs (s : State) (o : Out) : (emit s o).txs = s.txs := rfl
@[simp] theorem emit_rxs (s : State) (o : Out) : (emit s o).rxs = s.rxs := rfl
@[simp] theorem emit_pends (s : State) (o : Out) : (emit s o).pends = s.pends := rfl
@[simp] theorem emit_evalHolds (s : State) (o : Out) : (emit s o).evalHolds = s.evalHolds := rfl
@[simp] theorem emit_codQueue (s : State) (o : Out) : (emit s o).codQueue = s.codQueue := rfl
@[simp] theorem emit_codLanes (s : State) (o : Out) : (emit s o).codLanes = s.codLanes := rfl
@[simp] theorem emit_codKept (s : State) (o : Out) : (emit s o).codKept = s.codKept := rfl
@[simp] theorem emit_codIngest (s : State) (o : Out) : (emit s o).codIngest = s.codIngest := rfl
@[simp] theorem emit_codLast (s : State) (o : Out) : (emit s o).codLast = s.codLast := rfl
@[simp] theorem emit_codErrs (s : State) (o : Out) : (emit s o).codErrs = s.codErrs := rfl
@[simp] theorem emit_links (s : State) (o : Out) : (emit s o).links = s.links := rfl
@[simp] theorem emit_rejected (s : State) (o : Out) : (emit s o).rejected = s.rejected := rfl
@[simp] theorem emit_forwarded (s : State) (o : Out) : (emit s o).forwarded = s.forwarded := rfl
@[simp] theorem emit_mirrorOut (s : State) (o : Out) : (emit s o).mirrorOut = s.mirrorOut := rfl
@[simp] theorem emit_mirrorIn (s : State) (o : Out) : (emit s o).mirrorIn = s.mirrorIn := rfl
@[simp] theorem emit_mirrorDue (s : State) (o : Out) : (emit s o).mirrorDue = s.mirrorDue := rfl
@[simp] theorem emit_returnDue (s : State) (o : Out) : (emit s o).returnDue = s.returnDue := rfl
@[simp] theorem emit_mirrorOwed (s : State) (o : Out) : (emit s o).mirrorOwed = s.mirrorOwed := rfl
@[simp] theorem emit_laneChk (s : State) (o : Out) : (emit s o).laneChk = s.laneChk := rfl
@[simp] theorem emit_commitStep (s : State) (o : Out) : (emit s o).commitStep = s.commitStep := rfl
@[simp] theorem emit_staged (s : State) (o : Out) : (emit s o).staged = s.staged := rfl
@[simp] theorem emit_ckptFlash (s : State) (o : Out) : (emit s o).ckptFlash = s.ckptFlash := rfl
@[simp] theorem emit_undoGen (s : State) (o : Out) : (emit s o).undoGen = s.undoGen := rfl
@[simp] theorem emit_rolledBack (s : State) (o : Out) : (emit s o).rolledBack = s.rolledBack := rfl
@[simp] theorem emit_meProven (s : State) (o : Out) : (emit s o).meProven = s.meProven := rfl
@[simp] theorem emit_stopId (s : State) (o : Out) : (emit s o).stopId = s.stopId := rfl

/-! ### setDisp -/

@[simp] theorem setDisp_pending (s : State) (h : Nat) (d : Disp) : (setDisp s h d).pending = s.pending := rfl
@[simp] theorem setDisp_free (s : State) (h : Nat) (d : Disp) : (setDisp s h d).free = s.free := rfl
@[simp] theorem setDisp_out (s : State) (h : Nat) (d : Disp) : (setDisp s h d).out = s.out := rfl
@[simp] theorem setDisp_regs (s : State) (h : Nat) (d : Disp) : (setDisp s h d).regs = s.regs := rfl
@[simp] theorem setDisp_pend (s : State) (h : Nat) (d : Disp) : (setDisp s h d).pend = s.pend := rfl
@[simp] theorem setDisp_auxOn (s : State) (h : Nat) (d : Disp) : (setDisp s h d).auxOn = s.auxOn := rfl
@[simp] theorem setDisp_mainOn (s : State) (h : Nat) (d : Disp) : (setDisp s h d).mainOn = s.mainOn := rfl
@[simp] theorem setDisp_thermTrip (s : State) (h : Nat) (d : Disp) : (setDisp s h d).thermTrip = s.thermTrip := rfl
@[simp] theorem setDisp_pwrFault (s : State) (h : Nat) (d : Disp) : (setDisp s h d).pwrFault = s.pwrFault := rfl
@[simp] theorem setDisp_twinIn (s : State) (h : Nat) (d : Disp) : (setDisp s h d).twinIn = s.twinIn := rfl
@[simp] theorem setDisp_scanHold (s : State) (h : Nat) (d : Disp) : (setDisp s h d).scanHold = s.scanHold := rfl
@[simp] theorem setDisp_fuses (s : State) (h : Nat) (d : Disp) : (setDisp s h d).fuses = s.fuses := rfl
@[simp] theorem setDisp_flash (s : State) (h : Nat) (d : Disp) : (setDisp s h d).flash = s.flash := rfl
@[simp] theorem setDisp_rekindle (s : State) (h : Nat) (d : Disp) : (setDisp s h d).rekindle = s.rekindle := rfl
@[simp] theorem setDisp_slotOvr (s : State) (h : Nat) (d : Disp) : (setDisp s h d).slotOvr = s.slotOvr := rfl
@[simp] theorem setDisp_cands (s : State) (h : Nat) (d : Disp) : (setDisp s h d).cands = s.cands := rfl
@[simp] theorem setDisp_image (s : State) (h : Nat) (d : Disp) : (setDisp s h d).image = s.image := rfl
@[simp] theorem setDisp_loads (s : State) (h : Nat) (d : Disp) : (setDisp s h d).loads = s.loads := rfl
@[simp] theorem setDisp_mem (s : State) (h : Nat) (d : Disp) : (setDisp s h d).mem = s.mem := rfl
@[simp] theorem setDisp_symErr (s : State) (h : Nat) (d : Disp) : (setDisp s h d).symErr = s.symErr := rfl
@[simp] theorem setDisp_poison (s : State) (h : Nat) (d : Disp) : (setDisp s h d).poison = s.poison := rfl
@[simp] theorem setDisp_farPoison (s : State) (h : Nat) (d : Disp) : (setDisp s h d).farPoison = s.farPoison := rfl
@[simp] theorem setDisp_hostBad (s : State) (h : Nat) (d : Disp) : (setDisp s h d).hostBad = s.hostBad := rfl
@[simp] theorem setDisp_lostGddr (s : State) (h : Nat) (d : Disp) : (setDisp s h d).lostGddr = s.lostGddr := rfl
@[simp] theorem setDisp_lostFlash (s : State) (h : Nat) (d : Disp) : (setDisp s h d).lostFlash = s.lostFlash := rfl
@[simp] theorem setDisp_tickets (s : State) (h : Nat) (d : Disp) : (setDisp s h d).tickets = s.tickets := rfl
@[simp] theorem setDisp_nextKey (s : State) (h : Nat) (d : Disp) : (setDisp s h d).nextKey = s.nextKey := rfl
@[simp] theorem setDisp_nextRing (s : State) (h : Nat) (d : Disp) : (setDisp s h d).nextRing = s.nextRing := rfl
@[simp] theorem setDisp_disps (s : State) (h : Nat) (d : Disp) : (setDisp s h d).disps = s.disps.set h d := rfl
@[simp] theorem setDisp_puts (s : State) (h : Nat) (d : Disp) : (setDisp s h d).puts = s.puts := rfl
@[simp] theorem setDisp_held (s : State) (h : Nat) (d : Disp) : (setDisp s h d).held = s.held := rfl
@[simp] theorem setDisp_cores (s : State) (h : Nat) (d : Disp) : (setDisp s h d).cores = s.cores := rfl
@[simp] theorem setDisp_damper (s : State) (h : Nat) (d : Disp) : (setDisp s h d).damper = s.damper := rfl
@[simp] theorem setDisp_ember (s : State) (h : Nat) (d : Disp) : (setDisp s h d).ember = s.ember := rfl
@[simp] theorem setDisp_emberLost (s : State) (h : Nat) (d : Disp) : (setDisp s h d).emberLost = s.emberLost := rfl
@[simp] theorem setDisp_stops (s : State) (h : Nat) (d : Disp) : (setDisp s h d).stops = s.stops := rfl
@[simp] theorem setDisp_ports (s : State) (h : Nat) (d : Disp) : (setDisp s h d).ports = s.ports := rfl
@[simp] theorem setDisp_mgmt (s : State) (h : Nat) (d : Disp) : (setDisp s h d).mgmt = s.mgmt := rfl
@[simp] theorem setDisp_tap (s : State) (h : Nat) (d : Disp) : (setDisp s h d).tap = s.tap := rfl
@[simp] theorem setDisp_kept (s : State) (h : Nat) (d : Disp) : (setDisp s h d).kept = s.kept := rfl
@[simp] theorem setDisp_bellows (s : State) (h : Nat) (d : Disp) : (setDisp s h d).bellows = s.bellows := rfl
@[simp] theorem setDisp_parityBad (s : State) (h : Nat) (d : Disp) : (setDisp s h d).parityBad = s.parityBad := rfl
@[simp] theorem setDisp_wordErrs (s : State) (h : Nat) (d : Disp) : (setDisp s h d).wordErrs = s.wordErrs := rfl
@[simp] theorem setDisp_meTests (s : State) (h : Nat) (d : Disp) : (setDisp s h d).meTests = s.meTests := rfl
@[simp] theorem setDisp_stats (s : State) (h : Nat) (d : Disp) : (setDisp s h d).stats = s.stats := rfl
@[simp] theorem setDisp_walks (s : State) (h : Nat) (d : Disp) : (setDisp s h d).walks = s.walks := rfl
@[simp] theorem setDisp_commits (s : State) (h : Nat) (d : Disp) : (setDisp s h d).commits = s.commits := rfl
@[simp] theorem setDisp_scaleOpen (s : State) (h : Nat) (d : Disp) : (setDisp s h d).scaleOpen = s.scaleOpen := rfl
@[simp] theorem setDisp_scaleHeld (s : State) (h : Nat) (d : Disp) : (setDisp s h d).scaleHeld = s.scaleHeld := rfl
@[simp] theorem setDisp_stash (s : State) (h : Nat) (d : Disp) : (setDisp s h d).stash = s.stash := rfl
@[simp] theorem setDisp_stashWait (s : State) (h : Nat) (d : Disp) : (setDisp s h d).stashWait = s.stashWait := rfl
@[simp] theorem setDisp_recomps (s : State) (h : Nat) (d : Disp) : (setDisp s h d).recomps = s.recomps := rfl
@[simp] theorem setDisp_colls (s : State) (h : Nat) (d : Disp) : (setDisp s h d).colls = s.colls := rfl
@[simp] theorem setDisp_collEnded (s : State) (h : Nat) (d : Disp) : (setDisp s h d).collEnded = s.collEnded := rfl
@[simp] theorem setDisp_collCount (s : State) (h : Nat) (d : Disp) : (setDisp s h d).collCount = s.collCount := rfl
@[simp] theorem setDisp_txs (s : State) (h : Nat) (d : Disp) : (setDisp s h d).txs = s.txs := rfl
@[simp] theorem setDisp_rxs (s : State) (h : Nat) (d : Disp) : (setDisp s h d).rxs = s.rxs := rfl
@[simp] theorem setDisp_pends (s : State) (h : Nat) (d : Disp) : (setDisp s h d).pends = s.pends := rfl
@[simp] theorem setDisp_evalHolds (s : State) (h : Nat) (d : Disp) : (setDisp s h d).evalHolds = s.evalHolds := rfl
@[simp] theorem setDisp_codQueue (s : State) (h : Nat) (d : Disp) : (setDisp s h d).codQueue = s.codQueue := rfl
@[simp] theorem setDisp_codLanes (s : State) (h : Nat) (d : Disp) : (setDisp s h d).codLanes = s.codLanes := rfl
@[simp] theorem setDisp_codKept (s : State) (h : Nat) (d : Disp) : (setDisp s h d).codKept = s.codKept := rfl
@[simp] theorem setDisp_codIngest (s : State) (h : Nat) (d : Disp) : (setDisp s h d).codIngest = s.codIngest := rfl
@[simp] theorem setDisp_codLast (s : State) (h : Nat) (d : Disp) : (setDisp s h d).codLast = s.codLast := rfl
@[simp] theorem setDisp_codErrs (s : State) (h : Nat) (d : Disp) : (setDisp s h d).codErrs = s.codErrs := rfl
@[simp] theorem setDisp_links (s : State) (h : Nat) (d : Disp) : (setDisp s h d).links = s.links := rfl
@[simp] theorem setDisp_rejected (s : State) (h : Nat) (d : Disp) : (setDisp s h d).rejected = s.rejected := rfl
@[simp] theorem setDisp_forwarded (s : State) (h : Nat) (d : Disp) : (setDisp s h d).forwarded = s.forwarded := rfl
@[simp] theorem setDisp_mirrorOut (s : State) (h : Nat) (d : Disp) : (setDisp s h d).mirrorOut = s.mirrorOut := rfl
@[simp] theorem setDisp_mirrorIn (s : State) (h : Nat) (d : Disp) : (setDisp s h d).mirrorIn = s.mirrorIn := rfl
@[simp] theorem setDisp_mirrorDue (s : State) (h : Nat) (d : Disp) : (setDisp s h d).mirrorDue = s.mirrorDue := rfl
@[simp] theorem setDisp_returnDue (s : State) (h : Nat) (d : Disp) : (setDisp s h d).returnDue = s.returnDue := rfl
@[simp] theorem setDisp_mirrorOwed (s : State) (h : Nat) (d : Disp) : (setDisp s h d).mirrorOwed = s.mirrorOwed := rfl
@[simp] theorem setDisp_laneChk (s : State) (h : Nat) (d : Disp) : (setDisp s h d).laneChk = s.laneChk := rfl
@[simp] theorem setDisp_commitStep (s : State) (h : Nat) (d : Disp) : (setDisp s h d).commitStep = s.commitStep := rfl
@[simp] theorem setDisp_staged (s : State) (h : Nat) (d : Disp) : (setDisp s h d).staged = s.staged := rfl
@[simp] theorem setDisp_ckptFlash (s : State) (h : Nat) (d : Disp) : (setDisp s h d).ckptFlash = s.ckptFlash := rfl
@[simp] theorem setDisp_undoGen (s : State) (h : Nat) (d : Disp) : (setDisp s h d).undoGen = s.undoGen := rfl
@[simp] theorem setDisp_rolledBack (s : State) (h : Nat) (d : Disp) : (setDisp s h d).rolledBack = s.rolledBack := rfl
@[simp] theorem setDisp_meProven (s : State) (h : Nat) (d : Disp) : (setDisp s h d).meProven = s.meProven := rfl
@[simp] theorem setDisp_stopId (s : State) (h : Nat) (d : Disp) : (setDisp s h d).stopId = s.stopId := rfl

/-! ### setCore -/

@[simp] theorem setCore_pending (s : State) (k : Nat) (c : AwlCore) : (setCore s k c).pending = s.pending := rfl
@[simp] theorem setCore_free (s : State) (k : Nat) (c : AwlCore) : (setCore s k c).free = s.free := rfl
@[simp] theorem setCore_out (s : State) (k : Nat) (c : AwlCore) : (setCore s k c).out = s.out := rfl
@[simp] theorem setCore_regs (s : State) (k : Nat) (c : AwlCore) : (setCore s k c).regs = s.regs := rfl
@[simp] theorem setCore_pend (s : State) (k : Nat) (c : AwlCore) : (setCore s k c).pend = s.pend := rfl
@[simp] theorem setCore_auxOn (s : State) (k : Nat) (c : AwlCore) : (setCore s k c).auxOn = s.auxOn := rfl
@[simp] theorem setCore_mainOn (s : State) (k : Nat) (c : AwlCore) : (setCore s k c).mainOn = s.mainOn := rfl
@[simp] theorem setCore_thermTrip (s : State) (k : Nat) (c : AwlCore) : (setCore s k c).thermTrip = s.thermTrip := rfl
@[simp] theorem setCore_pwrFault (s : State) (k : Nat) (c : AwlCore) : (setCore s k c).pwrFault = s.pwrFault := rfl
@[simp] theorem setCore_twinIn (s : State) (k : Nat) (c : AwlCore) : (setCore s k c).twinIn = s.twinIn := rfl
@[simp] theorem setCore_scanHold (s : State) (k : Nat) (c : AwlCore) : (setCore s k c).scanHold = s.scanHold := rfl
@[simp] theorem setCore_fuses (s : State) (k : Nat) (c : AwlCore) : (setCore s k c).fuses = s.fuses := rfl
@[simp] theorem setCore_flash (s : State) (k : Nat) (c : AwlCore) : (setCore s k c).flash = s.flash := rfl
@[simp] theorem setCore_rekindle (s : State) (k : Nat) (c : AwlCore) : (setCore s k c).rekindle = s.rekindle := rfl
@[simp] theorem setCore_slotOvr (s : State) (k : Nat) (c : AwlCore) : (setCore s k c).slotOvr = s.slotOvr := rfl
@[simp] theorem setCore_cands (s : State) (k : Nat) (c : AwlCore) : (setCore s k c).cands = s.cands := rfl
@[simp] theorem setCore_image (s : State) (k : Nat) (c : AwlCore) : (setCore s k c).image = s.image := rfl
@[simp] theorem setCore_loads (s : State) (k : Nat) (c : AwlCore) : (setCore s k c).loads = s.loads := rfl
@[simp] theorem setCore_mem (s : State) (k : Nat) (c : AwlCore) : (setCore s k c).mem = s.mem := rfl
@[simp] theorem setCore_symErr (s : State) (k : Nat) (c : AwlCore) : (setCore s k c).symErr = s.symErr := rfl
@[simp] theorem setCore_poison (s : State) (k : Nat) (c : AwlCore) : (setCore s k c).poison = s.poison := rfl
@[simp] theorem setCore_farPoison (s : State) (k : Nat) (c : AwlCore) : (setCore s k c).farPoison = s.farPoison := rfl
@[simp] theorem setCore_hostBad (s : State) (k : Nat) (c : AwlCore) : (setCore s k c).hostBad = s.hostBad := rfl
@[simp] theorem setCore_lostGddr (s : State) (k : Nat) (c : AwlCore) : (setCore s k c).lostGddr = s.lostGddr := rfl
@[simp] theorem setCore_lostFlash (s : State) (k : Nat) (c : AwlCore) : (setCore s k c).lostFlash = s.lostFlash := rfl
@[simp] theorem setCore_tickets (s : State) (k : Nat) (c : AwlCore) : (setCore s k c).tickets = s.tickets := rfl
@[simp] theorem setCore_nextKey (s : State) (k : Nat) (c : AwlCore) : (setCore s k c).nextKey = s.nextKey := rfl
@[simp] theorem setCore_nextRing (s : State) (k : Nat) (c : AwlCore) : (setCore s k c).nextRing = s.nextRing := rfl
@[simp] theorem setCore_disps (s : State) (k : Nat) (c : AwlCore) : (setCore s k c).disps = s.disps := rfl
@[simp] theorem setCore_puts (s : State) (k : Nat) (c : AwlCore) : (setCore s k c).puts = s.puts := rfl
@[simp] theorem setCore_held (s : State) (k : Nat) (c : AwlCore) : (setCore s k c).held = s.held := rfl
@[simp] theorem setCore_cores (s : State) (k : Nat) (c : AwlCore) : (setCore s k c).cores = s.cores.set k c := rfl
@[simp] theorem setCore_damper (s : State) (k : Nat) (c : AwlCore) : (setCore s k c).damper = s.damper := rfl
@[simp] theorem setCore_ember (s : State) (k : Nat) (c : AwlCore) : (setCore s k c).ember = s.ember := rfl
@[simp] theorem setCore_emberLost (s : State) (k : Nat) (c : AwlCore) : (setCore s k c).emberLost = s.emberLost := rfl
@[simp] theorem setCore_stops (s : State) (k : Nat) (c : AwlCore) : (setCore s k c).stops = s.stops := rfl
@[simp] theorem setCore_ports (s : State) (k : Nat) (c : AwlCore) : (setCore s k c).ports = s.ports := rfl
@[simp] theorem setCore_mgmt (s : State) (k : Nat) (c : AwlCore) : (setCore s k c).mgmt = s.mgmt := rfl
@[simp] theorem setCore_tap (s : State) (k : Nat) (c : AwlCore) : (setCore s k c).tap = s.tap := rfl
@[simp] theorem setCore_kept (s : State) (k : Nat) (c : AwlCore) : (setCore s k c).kept = s.kept := rfl
@[simp] theorem setCore_bellows (s : State) (k : Nat) (c : AwlCore) : (setCore s k c).bellows = s.bellows := rfl
@[simp] theorem setCore_parityBad (s : State) (k : Nat) (c : AwlCore) : (setCore s k c).parityBad = s.parityBad := rfl
@[simp] theorem setCore_wordErrs (s : State) (k : Nat) (c : AwlCore) : (setCore s k c).wordErrs = s.wordErrs := rfl
@[simp] theorem setCore_meTests (s : State) (k : Nat) (c : AwlCore) : (setCore s k c).meTests = s.meTests := rfl
@[simp] theorem setCore_stats (s : State) (k : Nat) (c : AwlCore) : (setCore s k c).stats = s.stats := rfl
@[simp] theorem setCore_walks (s : State) (k : Nat) (c : AwlCore) : (setCore s k c).walks = s.walks := rfl
@[simp] theorem setCore_commits (s : State) (k : Nat) (c : AwlCore) : (setCore s k c).commits = s.commits := rfl
@[simp] theorem setCore_scaleOpen (s : State) (k : Nat) (c : AwlCore) : (setCore s k c).scaleOpen = s.scaleOpen := rfl
@[simp] theorem setCore_scaleHeld (s : State) (k : Nat) (c : AwlCore) : (setCore s k c).scaleHeld = s.scaleHeld := rfl
@[simp] theorem setCore_stash (s : State) (k : Nat) (c : AwlCore) : (setCore s k c).stash = s.stash := rfl
@[simp] theorem setCore_stashWait (s : State) (k : Nat) (c : AwlCore) : (setCore s k c).stashWait = s.stashWait := rfl
@[simp] theorem setCore_recomps (s : State) (k : Nat) (c : AwlCore) : (setCore s k c).recomps = s.recomps := rfl
@[simp] theorem setCore_colls (s : State) (k : Nat) (c : AwlCore) : (setCore s k c).colls = s.colls := rfl
@[simp] theorem setCore_collEnded (s : State) (k : Nat) (c : AwlCore) : (setCore s k c).collEnded = s.collEnded := rfl
@[simp] theorem setCore_collCount (s : State) (k : Nat) (c : AwlCore) : (setCore s k c).collCount = s.collCount := rfl
@[simp] theorem setCore_txs (s : State) (k : Nat) (c : AwlCore) : (setCore s k c).txs = s.txs := rfl
@[simp] theorem setCore_rxs (s : State) (k : Nat) (c : AwlCore) : (setCore s k c).rxs = s.rxs := rfl
@[simp] theorem setCore_pends (s : State) (k : Nat) (c : AwlCore) : (setCore s k c).pends = s.pends := rfl
@[simp] theorem setCore_evalHolds (s : State) (k : Nat) (c : AwlCore) : (setCore s k c).evalHolds = s.evalHolds := rfl
@[simp] theorem setCore_codQueue (s : State) (k : Nat) (c : AwlCore) : (setCore s k c).codQueue = s.codQueue := rfl
@[simp] theorem setCore_codLanes (s : State) (k : Nat) (c : AwlCore) : (setCore s k c).codLanes = s.codLanes := rfl
@[simp] theorem setCore_codKept (s : State) (k : Nat) (c : AwlCore) : (setCore s k c).codKept = s.codKept := rfl
@[simp] theorem setCore_codIngest (s : State) (k : Nat) (c : AwlCore) : (setCore s k c).codIngest = s.codIngest := rfl
@[simp] theorem setCore_codLast (s : State) (k : Nat) (c : AwlCore) : (setCore s k c).codLast = s.codLast := rfl
@[simp] theorem setCore_codErrs (s : State) (k : Nat) (c : AwlCore) : (setCore s k c).codErrs = s.codErrs := rfl
@[simp] theorem setCore_links (s : State) (k : Nat) (c : AwlCore) : (setCore s k c).links = s.links := rfl
@[simp] theorem setCore_rejected (s : State) (k : Nat) (c : AwlCore) : (setCore s k c).rejected = s.rejected := rfl
@[simp] theorem setCore_forwarded (s : State) (k : Nat) (c : AwlCore) : (setCore s k c).forwarded = s.forwarded := rfl
@[simp] theorem setCore_mirrorOut (s : State) (k : Nat) (c : AwlCore) : (setCore s k c).mirrorOut = s.mirrorOut := rfl
@[simp] theorem setCore_mirrorIn (s : State) (k : Nat) (c : AwlCore) : (setCore s k c).mirrorIn = s.mirrorIn := rfl
@[simp] theorem setCore_mirrorDue (s : State) (k : Nat) (c : AwlCore) : (setCore s k c).mirrorDue = s.mirrorDue := rfl
@[simp] theorem setCore_returnDue (s : State) (k : Nat) (c : AwlCore) : (setCore s k c).returnDue = s.returnDue := rfl
@[simp] theorem setCore_mirrorOwed (s : State) (k : Nat) (c : AwlCore) : (setCore s k c).mirrorOwed = s.mirrorOwed := rfl
@[simp] theorem setCore_laneChk (s : State) (k : Nat) (c : AwlCore) : (setCore s k c).laneChk = s.laneChk := rfl
@[simp] theorem setCore_commitStep (s : State) (k : Nat) (c : AwlCore) : (setCore s k c).commitStep = s.commitStep := rfl
@[simp] theorem setCore_staged (s : State) (k : Nat) (c : AwlCore) : (setCore s k c).staged = s.staged := rfl
@[simp] theorem setCore_ckptFlash (s : State) (k : Nat) (c : AwlCore) : (setCore s k c).ckptFlash = s.ckptFlash := rfl
@[simp] theorem setCore_undoGen (s : State) (k : Nat) (c : AwlCore) : (setCore s k c).undoGen = s.undoGen := rfl
@[simp] theorem setCore_rolledBack (s : State) (k : Nat) (c : AwlCore) : (setCore s k c).rolledBack = s.rolledBack := rfl
@[simp] theorem setCore_meProven (s : State) (k : Nat) (c : AwlCore) : (setCore s k c).meProven = s.meProven := rfl
@[simp] theorem setCore_stopId (s : State) (k : Nat) (c : AwlCore) : (setCore s k c).stopId = s.stopId := rfl

/-! ### poke -/

@[simp] theorem poke_pending (s : State) (a : Nat) (d : Bytes) : (poke s a d).pending = s.pending := rfl
@[simp] theorem poke_free (s : State) (a : Nat) (d : Bytes) : (poke s a d).free = s.free := rfl
@[simp] theorem poke_out (s : State) (a : Nat) (d : Bytes) : (poke s a d).out = s.out := rfl
@[simp] theorem poke_regs (s : State) (a : Nat) (d : Bytes) : (poke s a d).regs = s.regs := rfl
@[simp] theorem poke_pend (s : State) (a : Nat) (d : Bytes) : (poke s a d).pend = s.pend := rfl
@[simp] theorem poke_auxOn (s : State) (a : Nat) (d : Bytes) : (poke s a d).auxOn = s.auxOn := rfl
@[simp] theorem poke_mainOn (s : State) (a : Nat) (d : Bytes) : (poke s a d).mainOn = s.mainOn := rfl
@[simp] theorem poke_thermTrip (s : State) (a : Nat) (d : Bytes) : (poke s a d).thermTrip = s.thermTrip := rfl
@[simp] theorem poke_pwrFault (s : State) (a : Nat) (d : Bytes) : (poke s a d).pwrFault = s.pwrFault := rfl
@[simp] theorem poke_twinIn (s : State) (a : Nat) (d : Bytes) : (poke s a d).twinIn = s.twinIn := rfl
@[simp] theorem poke_scanHold (s : State) (a : Nat) (d : Bytes) : (poke s a d).scanHold = s.scanHold := rfl
@[simp] theorem poke_fuses (s : State) (a : Nat) (d : Bytes) : (poke s a d).fuses = s.fuses := rfl
@[simp] theorem poke_flash (s : State) (a : Nat) (d : Bytes) : (poke s a d).flash = s.flash := rfl
@[simp] theorem poke_rekindle (s : State) (a : Nat) (d : Bytes) : (poke s a d).rekindle = s.rekindle := rfl
@[simp] theorem poke_slotOvr (s : State) (a : Nat) (d : Bytes) : (poke s a d).slotOvr = s.slotOvr := rfl
@[simp] theorem poke_cands (s : State) (a : Nat) (d : Bytes) : (poke s a d).cands = s.cands := rfl
@[simp] theorem poke_image (s : State) (a : Nat) (d : Bytes) : (poke s a d).image = s.image := rfl
@[simp] theorem poke_loads (s : State) (a : Nat) (d : Bytes) : (poke s a d).loads = s.loads := rfl
@[simp] theorem poke_mem (s : State) (a : Nat) (d : Bytes) : (poke s a d).mem = s.mem.setBytes a d := rfl
@[simp] theorem poke_symErr (s : State) (a : Nat) (d : Bytes) : (poke s a d).symErr = s.symErr := rfl
@[simp] theorem poke_poison (s : State) (a : Nat) (d : Bytes) : (poke s a d).poison = s.poison := rfl
@[simp] theorem poke_farPoison (s : State) (a : Nat) (d : Bytes) : (poke s a d).farPoison = s.farPoison := rfl
@[simp] theorem poke_hostBad (s : State) (a : Nat) (d : Bytes) : (poke s a d).hostBad = s.hostBad := rfl
@[simp] theorem poke_lostGddr (s : State) (a : Nat) (d : Bytes) : (poke s a d).lostGddr = s.lostGddr := rfl
@[simp] theorem poke_lostFlash (s : State) (a : Nat) (d : Bytes) : (poke s a d).lostFlash = s.lostFlash := rfl
@[simp] theorem poke_tickets (s : State) (a : Nat) (d : Bytes) : (poke s a d).tickets = s.tickets := rfl
@[simp] theorem poke_nextKey (s : State) (a : Nat) (d : Bytes) : (poke s a d).nextKey = s.nextKey := rfl
@[simp] theorem poke_nextRing (s : State) (a : Nat) (d : Bytes) : (poke s a d).nextRing = s.nextRing := rfl
@[simp] theorem poke_disps (s : State) (a : Nat) (d : Bytes) : (poke s a d).disps = s.disps := rfl
@[simp] theorem poke_puts (s : State) (a : Nat) (d : Bytes) : (poke s a d).puts = s.puts := rfl
@[simp] theorem poke_held (s : State) (a : Nat) (d : Bytes) : (poke s a d).held = s.held := rfl
@[simp] theorem poke_cores (s : State) (a : Nat) (d : Bytes) : (poke s a d).cores = s.cores := rfl
@[simp] theorem poke_damper (s : State) (a : Nat) (d : Bytes) : (poke s a d).damper = s.damper := rfl
@[simp] theorem poke_ember (s : State) (a : Nat) (d : Bytes) : (poke s a d).ember = s.ember := rfl
@[simp] theorem poke_emberLost (s : State) (a : Nat) (d : Bytes) : (poke s a d).emberLost = s.emberLost := rfl
@[simp] theorem poke_stops (s : State) (a : Nat) (d : Bytes) : (poke s a d).stops = s.stops := rfl
@[simp] theorem poke_ports (s : State) (a : Nat) (d : Bytes) : (poke s a d).ports = s.ports := rfl
@[simp] theorem poke_mgmt (s : State) (a : Nat) (d : Bytes) : (poke s a d).mgmt = s.mgmt := rfl
@[simp] theorem poke_tap (s : State) (a : Nat) (d : Bytes) : (poke s a d).tap = s.tap := rfl
@[simp] theorem poke_kept (s : State) (a : Nat) (d : Bytes) : (poke s a d).kept = s.kept := rfl
@[simp] theorem poke_bellows (s : State) (a : Nat) (d : Bytes) : (poke s a d).bellows = s.bellows := rfl
@[simp] theorem poke_parityBad (s : State) (a : Nat) (d : Bytes) : (poke s a d).parityBad = s.parityBad := rfl
@[simp] theorem poke_wordErrs (s : State) (a : Nat) (d : Bytes) : (poke s a d).wordErrs = s.wordErrs := rfl
@[simp] theorem poke_meTests (s : State) (a : Nat) (d : Bytes) : (poke s a d).meTests = s.meTests := rfl
@[simp] theorem poke_stats (s : State) (a : Nat) (d : Bytes) : (poke s a d).stats = s.stats := rfl
@[simp] theorem poke_walks (s : State) (a : Nat) (d : Bytes) : (poke s a d).walks = s.walks := rfl
@[simp] theorem poke_commits (s : State) (a : Nat) (d : Bytes) : (poke s a d).commits = s.commits := rfl
@[simp] theorem poke_scaleOpen (s : State) (a : Nat) (d : Bytes) : (poke s a d).scaleOpen = s.scaleOpen := rfl
@[simp] theorem poke_scaleHeld (s : State) (a : Nat) (d : Bytes) : (poke s a d).scaleHeld = s.scaleHeld := rfl
@[simp] theorem poke_stash (s : State) (a : Nat) (d : Bytes) : (poke s a d).stash = s.stash := rfl
@[simp] theorem poke_stashWait (s : State) (a : Nat) (d : Bytes) : (poke s a d).stashWait = s.stashWait := rfl
@[simp] theorem poke_recomps (s : State) (a : Nat) (d : Bytes) : (poke s a d).recomps = s.recomps := rfl
@[simp] theorem poke_colls (s : State) (a : Nat) (d : Bytes) : (poke s a d).colls = s.colls := rfl
@[simp] theorem poke_collEnded (s : State) (a : Nat) (d : Bytes) : (poke s a d).collEnded = s.collEnded := rfl
@[simp] theorem poke_collCount (s : State) (a : Nat) (d : Bytes) : (poke s a d).collCount = s.collCount := rfl
@[simp] theorem poke_txs (s : State) (a : Nat) (d : Bytes) : (poke s a d).txs = s.txs := rfl
@[simp] theorem poke_rxs (s : State) (a : Nat) (d : Bytes) : (poke s a d).rxs = s.rxs := rfl
@[simp] theorem poke_pends (s : State) (a : Nat) (d : Bytes) : (poke s a d).pends = s.pends := rfl
@[simp] theorem poke_evalHolds (s : State) (a : Nat) (d : Bytes) : (poke s a d).evalHolds = s.evalHolds := rfl
@[simp] theorem poke_codQueue (s : State) (a : Nat) (d : Bytes) : (poke s a d).codQueue = s.codQueue := rfl
@[simp] theorem poke_codLanes (s : State) (a : Nat) (d : Bytes) : (poke s a d).codLanes = s.codLanes := rfl
@[simp] theorem poke_codKept (s : State) (a : Nat) (d : Bytes) : (poke s a d).codKept = s.codKept := rfl
@[simp] theorem poke_codIngest (s : State) (a : Nat) (d : Bytes) : (poke s a d).codIngest = s.codIngest := rfl
@[simp] theorem poke_codLast (s : State) (a : Nat) (d : Bytes) : (poke s a d).codLast = s.codLast := rfl
@[simp] theorem poke_codErrs (s : State) (a : Nat) (d : Bytes) : (poke s a d).codErrs = s.codErrs := rfl
@[simp] theorem poke_links (s : State) (a : Nat) (d : Bytes) : (poke s a d).links = s.links := rfl
@[simp] theorem poke_rejected (s : State) (a : Nat) (d : Bytes) : (poke s a d).rejected = s.rejected := rfl
@[simp] theorem poke_forwarded (s : State) (a : Nat) (d : Bytes) : (poke s a d).forwarded = s.forwarded := rfl
@[simp] theorem poke_mirrorOut (s : State) (a : Nat) (d : Bytes) : (poke s a d).mirrorOut = s.mirrorOut := rfl
@[simp] theorem poke_mirrorIn (s : State) (a : Nat) (d : Bytes) : (poke s a d).mirrorIn = s.mirrorIn := rfl
@[simp] theorem poke_mirrorDue (s : State) (a : Nat) (d : Bytes) : (poke s a d).mirrorDue = s.mirrorDue := rfl
@[simp] theorem poke_returnDue (s : State) (a : Nat) (d : Bytes) : (poke s a d).returnDue = s.returnDue := rfl
@[simp] theorem poke_mirrorOwed (s : State) (a : Nat) (d : Bytes) : (poke s a d).mirrorOwed = s.mirrorOwed := rfl
@[simp] theorem poke_laneChk (s : State) (a : Nat) (d : Bytes) : (poke s a d).laneChk = s.laneChk := rfl
@[simp] theorem poke_commitStep (s : State) (a : Nat) (d : Bytes) : (poke s a d).commitStep = s.commitStep := rfl
@[simp] theorem poke_staged (s : State) (a : Nat) (d : Bytes) : (poke s a d).staged = s.staged := rfl
@[simp] theorem poke_ckptFlash (s : State) (a : Nat) (d : Bytes) : (poke s a d).ckptFlash = s.ckptFlash := rfl
@[simp] theorem poke_undoGen (s : State) (a : Nat) (d : Bytes) : (poke s a d).undoGen = s.undoGen := rfl
@[simp] theorem poke_rolledBack (s : State) (a : Nat) (d : Bytes) : (poke s a d).rolledBack = s.rolledBack := rfl
@[simp] theorem poke_meProven (s : State) (a : Nat) (d : Bytes) : (poke s a d).meProven = s.meProven := rfl
@[simp] theorem poke_stopId (s : State) (a : Nat) (d : Bytes) : (poke s a d).stopId = s.stopId := rfl

end Sys2Proof.Machine
end

