-- ==== Sys2Proof/Laws/Awl.lean ====
section
/-! SUPPORT. What one instruction of an Awl core can come to, and what its retiring leaves: the lemmas that statements about
instructions cite in place of unfolding `awlStep` and `retire`. -/

namespace Sys2Proof.Machine

theorem getCore_setCore_same (s : State) (k : Nat) (c : AwlCore) : getCore (setCore s k c) k = c := by
  simp [getCore, setCore, Smap.get_set_same]

theorem getCore_setCore_ne (s : State) {k j : Nat} (c : AwlCore) (h : k ≠ j) : getCore (setCore s k c) j = getCore s j := by
  simp [getCore, setCore, Smap.get_set_ne _ _ _ h]

theorem getCore_wr (s : State) (f : Fld) (v k : Nat) : getCore (wr s f v) k = getCore s k := rfl

/-- What an instruction at the pc of a core that may execute comes to. -/
theorem awlStep_at {core : Core} {i : Instr} {s : State} (h : AwlAt core i s) (body : State → AwlCore → AwlRes) :
    awlStep core i body s =
      match body (fetched core s) (nextCore core s) with
      | .done u c => .next (retire u (coreKey core) c)
      | .fault u code info => .next (awlFault u (coreKey core) code info (getCore s (coreKey core)).word)
      | .wait u w => .next (wr (updCore u (coreKey core) fun c => { c with wait := some w }) (coreStateF (coreKey core)) awlWAITING)
      | .stall u => .next u
      | .halt u c => .next (haltCore (retire u (coreKey core) c) (coreKey core)) := by
  obtain ⟨hl, hb, hp, hr, hw⟩ := h
  have hf : lsCheck s (coreKey core) (getCore s (coreKey core)).pc 4 = (fetched core s, false) := Prod.ext rfl hr
  have hn : nextCore core s = { getCore (fetched core s) (coreKey core) with pc := (getCore s (coreKey core)).pc + 4 } := rfl
  unfold awlStep
  simp only [hl, hb, Bool.not_true, Bool.or_self, Bool.false_eq_true, if_false, Nat.not_le.mpr hp, hf, hw, ne_eq, not_true_eq_false, ← hn]
  all_goals cases body (fetched core s) (nextCore core s) <;> rfl

/-- The registers of a core lie apart from one another and from the hearth counters. -/
theorem coreKey_lt (core : Core) : coreKey core < 132 := by
  cases core with
  | hearth h c => have := h.isLt; have := c.isLt; simp only [coreKey]; omega
  | sup n => have := n.isLt; simp only [coreKey]; omega

theorem core_fields (k : Nat) (hk : k < 132) : ∃ p q, corePcF k = ⟨p, 16, 18⟩ ∧ coreIcountF k = ⟨q, 0, 48⟩ ∧ coreStateF k = ⟨p, 0, 3⟩ ∧
    q = p + 0x30 ∧ p < 0x200000 := by
  by_cases h : k < 128
  · exact ⟨_, _, if_pos h, if_pos h, if_pos h, by omega, by omega⟩
  · exact ⟨_, _, if_neg h, if_neg h, if_neg h, by omega, by omega⟩

/-- Retiring leaves what `AwlRetired` says. -/
theorem retire_retired (core : Core) (u : State) (c : AwlCore) : AwlRetired core u c (retire u (coreKey core) c) := by
  obtain ⟨p, q, fp, fi, fs, hoff, hlt⟩ := core_fields (coreKey core) (coreKey_lt core)
  have hcnt : ∀ h, (F.CNT_HEARTH_VALUE h 9).off = 0x400048 + 0x1000 * h := by intro h; simp only [F.CNT_HEARTH_VALUE]; omega
  have hw : ∀ h, (F.CNT_HEARTH_VALUE h 9).lo + (F.CNT_HEARTH_VALUE h 9).width ≤ 64 := by intro h; simp [F.CNT_HEARTH_VALUE]
  constructor
  · unfold retire; split <;> exact getCore_setCore_same _ _ _
  · intro j hj; unfold retire; split <;> exact getCore_setCore_ne _ _ (Ne.symm hj)
  · unfold retire; rw [fp, fi]; simp only [cntHearth, wrapAdd]
    split
    · rw [rd_wr_ne _ _ (hw _) (.inl (by rw [hcnt]; simp only; omega)), rd_wr_ne _ _ (by simp) (.inl (by simp only; omega)), rd_wr_same _ _ (by simp)]
    · rw [rd_wr_ne _ _ (by simp) (.inl (by simp only; omega)), rd_wr_same _ _ (by simp)]
  · unfold retire; rw [fp, fi]; simp only [cntHearth, wrapAdd]
    split
    · rw [rd_wr_ne _ _ (hw _) (.inl (by rw [hcnt]; simp only; omega)), rd_wr_same _ _ (by simp)]
    · rw [rd_wr_same _ _ (by simp)]
  · unfold retire; rw [fp, fi, fs]; simp only [cntHearth, wrapAdd]
    split
    · rw [rd_wr_ne _ _ (hw _) (.inl (by rw [hcnt]; simp only; omega)), rd_wr_ne _ _ (by simp) (.inl (by simp only; omega)),
        rd_wr_ne _ _ (by simp) (.inr (by simp))]; rfl
    · rw [rd_wr_ne _ _ (by simp) (.inl (by simp only; omega)), rd_wr_ne _ _ (by simp) (.inr (by simp))]; rfl
  · intro hk; unfold retire; rw [fp, fi, if_pos hk]; simp only [cntHearth, wrapAdd]
    rw [rd_wr_same _ _ (hw _), rd_wr_ne _ _ (by simp) (.inl (by rw [hcnt]; simp only; omega)),
      rd_wr_ne _ _ (by simp) (.inl (by rw [hcnt]; simp only; omega))]; rfl
  · intro o ho
    unfold retire; rw [fp, fi]; simp only [retireRegs, fp, fi] at ho
    simp only [cntHearth, wrapAdd, wr]
    split at ho
    · rename_i hk; rw [if_pos hk]
      simp only [List.cons_append, List.nil_append, List.mem_cons, List.not_mem_nil, or_false, not_or] at ho
      rw [regVal_setReg_ne _ _ (Ne.symm ho.2.2), regVal_setReg_ne _ _ (Ne.symm ho.2.1), regVal_setReg_ne _ _ (Ne.symm ho.1)]; rfl
    · rename_i hk; rw [if_neg hk]
      simp only [List.append_nil, List.mem_cons, List.not_mem_nil, or_false, not_or] at ho
      rw [regVal_setReg_ne _ _ (Ne.symm ho.2), regVal_setReg_ne _ _ (Ne.symm ho.1)]; rfl
  · unfold retire; split <;> rfl

end Sys2Proof.Machine
end

