-- ==== Sys2Proof/Laws/Memory.lean ====
section
/-! SUPPORT. The laws of the block's memory: a read after a write of the same address gives the byte written, a write leaves every
other address alone, and every operation keeps the canonical form. -/

namespace Sys2Proof.Machine

theorem cellsSorted_iff (cs : List Host.Cell) : cellsSorted cs = true ↔ cs.Pairwise (fun x y => x.1 < y.1) := by
  induction cs with
  | nil => simp [cellsSorted]
  | cons c cs ih =>
    cases cs with
    | nil => simp [cellsSorted]
    | cons c' cs =>
      rw [List.pairwise_cons]
      simp only [cellsSorted, Bool.and_eq_true, decide_eq_true_eq, ih]
      constructor
      · rintro ⟨h, hp⟩
        refine ⟨fun x hx => ?_, hp⟩
        rcases List.mem_cons.1 hx with rfl | hx
        · exact h
        · exact Nat.lt_trans h (List.rel_of_pairwise_cons hp hx)
      · rintro ⟨h, hp⟩
        exact ⟨h c' (by simp), hp⟩

/-- No entry of a list has this address. -/
theorem cellsGet_of_lt {d : BitVec 8} {cs : List Host.Cell} {a : Nat} (h : ∀ c ∈ cs, a < c.1) : cellsGet d cs a = d := by
  induction cs with
  | nil => rfl
  | cons c cs ih =>
    have hc := h c (by simp)
    simp only [cellsGet, if_neg (Nat.ne_of_gt hc)]
    exact ih fun x hx => h x (by simp [hx])

theorem cellsGet_set_same {d b : BitVec 8} {cs : List Host.Cell} {a : Nat} (h : cs.Pairwise (fun x y => x.1 < y.1)) :
    cellsGet d (cellsSet d cs a b) a = b := by
  induction cs with
  | nil => by_cases hb : b = d <;> simp [cellsSet, cellsGet, hb]
  | cons c cs ih =>
    obtain ⟨a', b'⟩ := c
    have hp := List.pairwise_cons.1 h
    simp only [cellsSet]
    split
    · next hlt =>
      split
      · next hb =>
        subst hb
        refine cellsGet_of_lt fun x hx => ?_
        rcases List.mem_cons.1 hx with rfl | hx
        · exact hlt
        · exact Nat.lt_trans hlt (hp.1 x hx)
      · simp [cellsGet]
    · split
      · next heq =>
        subst heq
        split
        · next hb => subst hb; exact cellsGet_of_lt fun x hx => hp.1 x hx
        · simp [cellsGet]
      · next hne => simp only [cellsGet, if_neg hne]; exact ih hp.2

theorem cellsGet_set_ne {d b : BitVec 8} {cs : List Host.Cell} {a x : Nat} (hx : x ≠ a) :
    cellsGet d (cellsSet d cs a b) x = cellsGet d cs x := by
  induction cs with
  | nil => by_cases hb : b = d <;> simp [cellsSet, cellsGet, hb, hx.symm]
  | cons c cs ih =>
    obtain ⟨a', b'⟩ := c
    simp only [cellsSet]
    split
    · split
      · rfl
      · simp [cellsGet, hx.symm]
    · split
      · next heq =>
        subst heq
        split <;> simp [cellsGet, hx.symm]
      · simp only [cellsGet, ih]

theorem cellsSet_mem {d b : BitVec 8} {cs : List Host.Cell} {a : Nat} {c : Host.Cell} (h : c ∈ cellsSet d cs a b) :
    (c = (a, b) ∧ b ≠ d) ∨ c ∈ cs := by
  induction cs with
  | nil =>
    by_cases hb : b = d
    · simp [cellsSet, hb] at h
    · left; simpa [cellsSet, hb] using h
  | cons c' cs ih =>
    obtain ⟨a', b'⟩ := c'
    simp only [cellsSet] at h
    split at h
    · split at h
      · exact .inr h
      · next hb =>
        rcases List.mem_cons.1 h with rfl | h
        · exact .inl ⟨rfl, hb⟩
        · exact .inr h
    · split at h
      · split at h
        · exact .inr (List.mem_cons_of_mem _ h)
        · next hb =>
          rcases List.mem_cons.1 h with rfl | h
          · exact .inl ⟨rfl, hb⟩
          · exact .inr (List.mem_cons_of_mem _ h)
      · rcases List.mem_cons.1 h with rfl | h
        · exact .inr (by simp)
        · rcases ih h with h | h
          · exact .inl h
          · exact .inr (List.mem_cons_of_mem _ h)

theorem cellsSet_sorted {d b : BitVec 8} {cs : List Host.Cell} {a : Nat} (h : cs.Pairwise (fun x y => x.1 < y.1)) :
    (cellsSet d cs a b).Pairwise (fun x y => x.1 < y.1) := by
  induction cs with
  | nil => by_cases hb : b = d <;> simp [cellsSet, hb]
  | cons c cs ih =>
    obtain ⟨a', b'⟩ := c
    have hp := List.pairwise_cons.1 h
    simp only [cellsSet]
    split
    · next hlt =>
      split
      · exact h
      · refine List.pairwise_cons.2 ⟨fun x hx => ?_, h⟩
        rcases List.mem_cons.1 hx with rfl | hx
        · exact hlt
        · exact Nat.lt_trans hlt (hp.1 x hx)
    · next hge =>
      split
      · next heq =>
        subst heq
        split
        · exact hp.2
        · exact List.pairwise_cons.2 ⟨fun x hx => hp.1 x hx, hp.2⟩
      · next hne =>
        refine List.pairwise_cons.2 ⟨fun x hx => ?_, ih hp.2⟩
        rcases cellsSet_mem hx with ⟨rfl, _⟩ | hx
        · exact Nat.lt_of_le_of_ne (Nat.le_of_not_lt hge) hne
        · exact hp.1 x hx

/-- The canonical form, as propositions. -/
theorem Memory.wf_iff (m : Memory) :
    m.wf = true ↔ m.cells.Pairwise (fun x y => x.1 < y.1) ∧ ∀ c ∈ m.cells, c.2 ≠ Memory.blank m.gen c.1 := by
  simp [Memory.wf, cellsSorted_iff]

theorem Memory.get_set_same {m : Memory} (h : m.wf = true) (a : Nat) (b : BitVec 8) : (m.set a b).get a = b :=
  cellsGet_set_same ((Memory.wf_iff m).1 h).1

theorem Memory.get_set_ne {m : Memory} {a x : Nat} (h : x ≠ a) (b : BitVec 8) : (m.set a b).get x = m.get x := by
  unfold Memory.get Memory.set
  by_cases hd : Memory.blank m.gen a = Memory.blank m.gen x
  · simp only [← hd]; exact cellsGet_set_ne h
  · -- the default that a look-up falls back to plays no part in where the write goes
    have key : ∀ (d : BitVec 8) (cs : List Host.Cell),
        cellsGet d (cellsSet (Memory.blank m.gen a) cs a b) x = cellsGet d cs x := by
      intro d cs
      induction cs with
      | nil => by_cases hb : b = Memory.blank m.gen a <;> simp [cellsSet, cellsGet, hb, h.symm]
      | cons c cs ih =>
        obtain ⟨a', b'⟩ := c
        simp only [cellsSet]
        split
        · split
          · rfl
          · simp [cellsGet, h.symm]
        · split
          · next heq =>
            subst heq
            split <;> simp [cellsGet, h.symm]
          · simp only [cellsGet, ih]
    exact key _ _

theorem Memory.set_wf {m : Memory} (h : m.wf = true) (a : Nat) (b : BitVec 8) : (m.set a b).wf = true := by
  rw [Memory.wf_iff] at h ⊢
  refine ⟨cellsSet_sorted h.1, fun c hc => ?_⟩
  rcases cellsSet_mem hc with ⟨rfl, hb⟩ | hc
  · exact hb
  · exact h.2 c hc

theorem Memory.setBytes_wf {m : Memory} (h : m.wf = true) (a : Nat) (d : Bytes) : (m.setBytes a d).wf = true := by
  induction d generalizing m a with
  | nil => exact h
  | cons b bs ih => exact ih (Memory.set_wf h a b) (a + 1)

/-- A write of bytes leaves every byte outside them alone. -/
theorem Memory.get_setBytes_outside {m : Memory} {a x : Nat} {d : Bytes} (h : x < a ∨ a + d.length ≤ x) :
    (m.setBytes a d).get x = m.get x := by
  induction d generalizing m a with
  | nil => rfl
  | cons b bs ih =>
    simp only [List.length_cons] at h
    simp only [Memory.setBytes]
    rw [ih (by omega), Memory.get_set_ne (by omega)]

/-- A write of bytes is read back. -/
theorem Memory.get_setBytes_inside {m : Memory} (hw : m.wf = true) {a i : Nat} {d : Bytes} (h : i < d.length) :
    (m.setBytes a d).get (a + i) = d[i] := by
  induction d generalizing m a i with
  | nil => exact absurd h (Nat.not_lt_zero i)
  | cons b bs ih =>
    simp only [Memory.setBytes]
    cases i with
    | zero =>
      show ((m.set a b).setBytes (a + 1) bs).get a = b
      rw [Memory.get_setBytes_outside (by omega), Memory.get_set_same hw]
    | succ i =>
      have := ih (Memory.set_wf hw a b) (a := a + 1) (i := i) (by simpa using h)
      rw [show a + (i + 1) = a + 1 + i by omega, this]; rfl

theorem Memory.clear_wf {m : Memory} (h : m.wf = true) (a n : Nat) : (m.clear a n).wf = true := by
  rw [Memory.wf_iff] at h ⊢
  exact ⟨h.1.filter _, fun c hc => h.2 c (List.mem_filter.1 hc).1⟩

theorem Memory.loseNear_wf {m : Memory} (h : m.wf = true) (g : Nat) : (m.loseNear g).wf = true := by
  rw [Memory.wf_iff] at h ⊢
  refine ⟨h.1.filter _, fun c hc => ?_⟩
  have hm := List.mem_filter.1 hc
  have hn : nearEnd ≤ c.1 := by simpa using hm.2
  have := h.2 c hm.1
  simp only [Memory.blank, hn, or_true, if_true] at this
  simpa [Memory.blank, Memory.loseNear, hn] using this

end Sys2Proof.Machine
end

