-- ==== Sys2Proof/Laws/Keeps/Base.lean ====
section
/-! SUPPORT. What no command ever does, said once: it never touches the queue of waiting commands, never takes back what has left
the block or an open choice that was made, changes no fuse but the rollback counter, which never falls, and keeps the memory in
its canonical form. Each operation of the machine has one lemma under Laws/Keeps that says so of it. -/

namespace Sys2Proof.Machine

/-- From s the machine may come to t. -/
structure Keeps (s t : State) : Prop where
  pending : t.pending = s.pending
  free : s.free ≤ t.free
  out : s.out <+: t.out
  fuses : t.fuses = { s.fuses with counter := t.fuses.counter }
  counter : s.fuses.counter ≤ t.fuses.counter
  mem : s.mem.wf = true → t.mem.wf = true

theorem Keeps.refl (s : State) : Keeps s s := ⟨rfl, Nat.le_refl _, List.prefix_refl _, rfl, Nat.le_refl _, id⟩

theorem Keeps.trans {s t u : State} (a : Keeps s t) (b : Keeps t u) : Keeps s u :=
  ⟨b.pending.trans a.pending, Nat.le_trans a.free b.free, a.out.trans b.out, by rw [b.fuses, a.fuses],
   Nat.le_trans a.counter b.counter, fun h => b.mem (a.mem h)⟩

theorem Keeps.bind {P : Prop} {s x : State} (k : Keeps s x → P) (h : Keeps s x) : P := k h

theorem Keeps.fst {α : Type} {s x : State} {p : State × α} {r : α} (k : Keeps s p.1) (e : p = (x, r)) : Keeps s x := by
  subst e; exact k

theorem Keeps.snd {α : Type} {s x : State} {p : α × State} {r : α} (k : Keeps s p.2) (e : p = (r, x)) : Keeps s x := by
  subst e; exact k

theorem Keeps.fst_eq {α : Type} {s : State} {p r : State × α} (k : Keeps s p.1) (e : p = r) : Keeps s r.1 := e ▸ k

theorem Keeps.snd_eq {α : Type} {s : State} {p r : α × State} (k : Keeps s p.2) (e : p = r) : Keeps s r.2 := e ▸ k

theorem Keeps.foldl {α : Type} {s₀ : State} {f : State → α → State} (hf : ∀ s a, Keeps s₀ s → Keeps s₀ (f s a)) {s : State}
    {xs : List α} (h : Keeps s₀ s) : Keeps s₀ (xs.foldl f s) := by
  induction xs generalizing s with
  | nil => exact h
  | cons a xs ih => exact ih (hf s a h)

theorem Keeps.foldl_fst {α β : Type} {s₀ : State} {f : State × β → α → State × β}
    (hf : ∀ p a, Keeps s₀ p.1 → Keeps s₀ (f p a).1) {p : State × β} {xs : List α} (h : Keeps s₀ p.1) :
    Keeps s₀ (xs.foldl f p).1 := by
  induction xs generalizing p with
  | nil => exact h
  | cons a xs ih => exact ih (hf p a h)

theorem Keeps.foldl_snd {α β : Type} {s₀ : State} {f : β × State → α → β × State}
    (hf : ∀ p a, Keeps s₀ p.2 → Keeps s₀ (f p a).2) {p : β × State} {xs : List α} (h : Keeps s₀ p.2) :
    Keeps s₀ (xs.foldl f p).2 := by
  induction xs generalizing p with
  | nil => exact h
  | cons a xs ih => exact ih (hf p a h)

/-- An update of other fields. -/
theorem Keeps.upd {s₀ s : State} (h : Keeps s₀ s)
    {x_regs : Smap (BitVec 64)}
    {x_pend : Smap (BitVec 64)}
    {x_auxOn : Bool}
    {x_mainOn : Bool}
    {x_thermTrip : Bool}
    {x_pwrFault : Bool}
    {x_twinIn : Bool}
    {x_scanHold : Bool}
    {x_flash : Smap (BitVec 8)}
    {x_rekindle : Nat}
    {x_slotOvr : Option Nat}
    {x_cands : List Nat}
    {x_image : Option Image}
    {x_loads : Smap (BitVec 64)}
    {x_symErr : Smap Nat}
    {x_poison : List Nat}
    {x_farPoison : List Nat}
    {x_hostBad : Smap Nat}
    {x_lostGddr : List Nat}
    {x_lostFlash : Bool}
    {x_tickets : List Ticket}
    {x_nextKey : Nat}
    {x_nextRing : Nat}
    {x_disps : Smap Disp}
    {x_puts : List Put}
    {x_held : List HeldWrite}
    {x_cores : Smap AwlCore}
    {x_damper : Damper}
    {x_ember : Smap EmberEntry}
    {x_emberLost : Smap Nat}
    {x_stops : Smap StopRec}
    {x_ports : Smap PciPort}
    {x_mgmt : Mgmt}
    {x_tap : Tap}
    {x_kept : List KeptSlot}
    {x_bellows : Smap Nat}
    {x_parityBad : List Nat}
    {x_wordErrs : Smap Nat}
    {x_meTests : List Nat}
    {x_stats : List StatTag}
    {x_walks : List KvWalk}
    {x_commits : List KvCommit}
    {x_scaleOpen : List (Nat × Nat × Nat)}
    {x_scaleHeld : List ScaleReport}
    {x_stash : List StashEntry}
    {x_stashWait : List (Nat × Nat)}
    {x_recomps : List Recomp}
    {x_colls : List Coll}
    {x_collEnded : List (Nat × Nat × Nat × Nat)}
    {x_collCount : Nat}
    {x_txs : List TxStream}
    {x_rxs : List RxStream}
    {x_pends : List (Nat × Nat × Nat)}
    {x_evalHolds : List (Nat × Nat × Nat × Nat)}
    {x_codQueue : List (Nat × Nat)}
    {x_codLanes : Smap LaneRun}
    {x_codKept : List KeptPic}
    {x_codIngest : List IngestRun}
    {x_codLast : Nat}
    {x_codErrs : Smap Nat}
    {x_links : Smap LinkSt}
    {x_rejected : List (Nat × Nat)}
    {x_forwarded : List (Nat × Nat × Nat)}
    {x_mirrorOut : Option MirrorOut}
    {x_mirrorIn : Option MirrorIn}
    {x_mirrorDue : Option (Nat × Nat)}
    {x_returnDue : Bool}
    {x_mirrorOwed : Option Nat}
    {x_laneChk : Smap LaneChk}
    {x_commitStep : Nat}
    {x_staged : Option Staged}
    {x_ckptFlash : Smap (BitVec 8)}
    {x_undoGen : Option (Nat × Nat)}
    {x_rolledBack : Bool}
    {x_meProven : List Nat}
    {x_stopId : Nat} :
    Keeps s₀ (State.mk s.pending s.free s.out x_regs x_pend x_auxOn x_mainOn x_thermTrip x_pwrFault x_twinIn x_scanHold s.fuses x_flash x_rekindle x_slotOvr x_cands x_image x_loads s.mem x_symErr x_poison x_farPoison x_hostBad x_lostGddr x_lostFlash x_tickets x_nextKey x_nextRing x_disps x_puts x_held x_cores x_damper x_ember x_emberLost x_stops x_ports x_mgmt x_tap x_kept x_bellows x_parityBad x_wordErrs x_meTests x_stats x_walks x_commits x_scaleOpen x_scaleHeld x_stash x_stashWait x_recomps x_colls x_collEnded x_collCount x_txs x_rxs x_pends x_evalHolds x_codQueue x_codLanes x_codKept x_codIngest x_codLast x_codErrs x_links x_rejected x_forwarded x_mirrorOut x_mirrorIn x_mirrorDue x_returnDue x_mirrorOwed x_laneChk x_commitStep x_staged x_ckptFlash x_undoGen x_rolledBack x_meProven x_stopId) :=
  ⟨h.pending, h.free, h.out, h.fuses, h.counter, h.mem⟩

/-- A command that answers a next state to which s may come. -/
def KeepsR (s : State) (r : Host.Outcome State Fault Refusal) : Prop := ∃ t, r = .next t ∧ Keeps s t

theorem KeepsR.next {s t : State} (h : Keeps s t) : KeepsR s (.next t) := ⟨t, rfl, h⟩

end Sys2Proof.Machine
end

