-- ==== Sys2Proof/Laws/Keeps/Ops.lean ====
section
/-! SUPPORT. What the operations of Machine/Ops.lean keep (`Keeps`). -/

namespace Sys2Proof.Machine

theorem each_keeps {α : Type} {s₀ : State} {f : State → α → State} (hf : ∀ s a, Keeps s₀ s → Keeps s₀ (f s a)) {s : State}
    {xs : List α} (h : Keeps s₀ s) : Keeps s₀ (each xs s f) := Keeps.foldl hf h

theorem setReg_keeps {s₀ s : State} (h : Keeps s₀ s) {off : Nat} {v : BitVec 64} :
    Keeps s₀ (setReg s off v) := by
  unfold setReg
  repeat' (first
    | with_reducible assumption | (unfold x; clear x)
    | (extract_lets +onlyGivenNames x; first | (refine Keeps.bind (s := s₀) (x := x) ?_ ?_; intro _; clear_value x; revert x; intros) | (clear_value x; revert x; intros))
    | with_reducible apply Keeps.upd)

theorem wr_keeps {s₀ s : State} (h : Keeps s₀ s) {f : Fld} {v : Nat} :
    Keeps s₀ (wr s f v) := by
  unfold wr
  repeat' (first
    | with_reducible assumption | with_reducible apply setReg_keeps)

theorem satAdd_keeps {s₀ s : State} (h : Keeps s₀ s) {f : Fld} {n : Nat} :
    Keeps s₀ (satAdd s f n) := by
  unfold satAdd
  repeat' (first
    | with_reducible assumption | with_reducible apply wr_keeps)

theorem wrapAdd_keeps {s₀ s : State} (h : Keeps s₀ s) {f : Fld} {n : Nat} :
    Keeps s₀ (wrapAdd s f n) := by
  unfold wrapAdd
  repeat' (first
    | with_reducible assumption | with_reducible apply wr_keeps)



theorem takeFree_keeps {s₀ s : State} (h : Keeps s₀ s) : Keeps s₀ (takeFree s).2 :=
  h.trans ⟨rfl, Nat.le_succ _, List.prefix_refl _, rfl, Nat.le_refl _, id⟩

theorem takeFreeBytes_keeps {s₀ s : State} (h : Keeps s₀ s) {n : Nat} : Keeps s₀ (takeFreeBytes s n).2 :=
  h.trans ⟨rfl, Nat.le_succ _, List.prefix_refl _, rfl, Nat.le_refl _, id⟩

theorem emit_keeps {s₀ s : State} (h : Keeps s₀ s) {o : Out} : Keeps s₀ (emit s o) :=
  h.trans ⟨rfl, Nat.le_refl _, List.prefix_append _ _, rfl, Nat.le_refl _, id⟩

theorem cntHearth_keeps {s₀ s : State} (h : Keeps s₀ s) {h k n : Nat} :
    Keeps s₀ (cntHearth s h k n) := by
  unfold cntHearth
  repeat' (first
    | with_reducible assumption | with_reducible apply wrapAdd_keeps)

theorem cntMem_keeps {s₀ s : State} (h : Keeps s₀ s) {d k n : Nat} :
    Keeps s₀ (cntMem s d k n) := by
  unfold cntMem
  repeat' (first
    | with_reducible assumption | with_reducible apply wrapAdd_keeps)

theorem cntCod_keeps {s₀ s : State} (h : Keeps s₀ s) {k n : Nat} :
    Keeps s₀ (cntCod s k n) := by
  unfold cntCod
  repeat' (first
    | with_reducible assumption | with_reducible apply wrapAdd_keeps)

theorem cntIo_keeps {s₀ s : State} (h : Keeps s₀ s) {k n : Nat} :
    Keeps s₀ (cntIo s k n) := by
  unfold cntIo
  repeat' (first
    | with_reducible assumption | with_reducible apply wrapAdd_keeps)

theorem cntLink_keeps {s₀ s : State} (h : Keeps s₀ s) {l k n : Nat} :
    Keeps s₀ (cntLink s l k n) := by
  unfold cntLink
  repeat' (first
    | with_reducible assumption | with_reducible apply wrapAdd_keeps)

theorem emberPut_keeps {s₀ s : State} (h : Keeps s₀ s) {u type value cmd : Nat} {valid : Bool} {hearth arg : Nat} :
    Keeps s₀ (emberPut s u type value cmd valid hearth arg) := by
  unfold emberPut
  repeat' (first
    | with_reducible assumption | (unfold x; clear x)
    | (extract_lets +onlyGivenNames x; first | (refine Keeps.bind (s := s₀) (x := x) ?_ ?_; intro _; clear_value x; revert x; intros) | (clear_value x; revert x; intros))
    | split | with_reducible apply satAdd_keeps | with_reducible apply wrapAdd_keeps | dsimp -zeta only
    | with_reducible apply Keeps.upd)

theorem emberCode_keeps {s₀ s : State} (h : Keeps s₀ s) {u code : Nat} {c : Option CmdId} :
    Keeps s₀ (emberCode s u code c) := by
  unfold emberCode
  repeat' (first
    | with_reducible assumption | (unfold x; clear x)
    | (extract_lets +onlyGivenNames x; first | (refine Keeps.bind (s := s₀) (x := x) ?_ ?_; intro _; clear_value x; revert x; intros) | (clear_value x; revert x; intros))
    | split | with_reducible apply emberPut_keeps | (with_reducible apply Keeps.fst (e := by with_reducible assumption))
    | (with_reducible apply Keeps.snd (e := by with_reducible assumption))
    | (with_reducible apply Keeps.fst_eq (e := by with_reducible assumption))
    | (with_reducible apply Keeps.snd_eq (e := by with_reducible assumption)) | with_reducible apply Keeps.upd)

theorem emberTicket_keeps {s₀ s : State} (h : Keeps s₀ s) {u code ticket : Nat} :
    Keeps s₀ (emberTicket s u code ticket) := by
  unfold emberTicket
  repeat' (first
    | with_reducible assumption | with_reducible apply emberPut_keeps)

theorem emberUnfreeze_keeps {s₀ s : State} (h : Keeps s₀ s)  :
    Keeps s₀ (emberUnfreeze s) := by
  unfold emberUnfreeze
  repeat' (first
    | with_reducible assumption | (unfold x; clear x)
    | (extract_lets +onlyGivenNames x; first | (refine Keeps.bind (s := s₀) (x := x) ?_ ?_; intro _; clear_value x; revert x; intros) | (clear_value x; revert x; intros))
    | split | with_reducible apply wr_keeps | with_reducible apply emberPut_keeps
    | (with_reducible apply each_keeps; intro _ _ _) | dsimp -zeta only | with_reducible apply Keeps.upd)

theorem msixSend_keeps {s₀ s : State} (h : Keeps s₀ s) {p v : Nat} :
    Keeps s₀ (msixSend s p v) := by
  unfold msixSend
  repeat' (first
    | with_reducible assumption | (unfold x; clear x)
    | (extract_lets +onlyGivenNames x; first | (refine Keeps.bind (s := s₀) (x := x) ?_ ?_; intro _; clear_value x; revert x; intros) | (clear_value x; revert x; intros))
    | split | with_reducible apply emit_keeps | with_reducible apply Keeps.upd)

theorem raiseVec_keeps {s₀ s : State} (h : Keeps s₀ s) {p v : Nat} :
    Keeps s₀ (raiseVec s p v) := by
  unfold raiseVec
  repeat' (first
    | with_reducible assumption | (unfold x; clear x)
    | (extract_lets +onlyGivenNames x; first | (refine Keeps.bind (s := s₀) (x := x) ?_ ?_; intro _; clear_value x; revert x; intros) | (clear_value x; revert x; intros))
    | split | with_reducible apply msixSend_keeps | with_reducible apply wr_keeps | dsimp -zeta only)

theorem msixRelease_keeps {s₀ s : State} (h : Keeps s₀ s) {p : Nat} :
    Keeps s₀ (msixRelease s p) := by
  unfold msixRelease
  repeat' (first
    | with_reducible assumption | (unfold x; clear x)
    | (extract_lets +onlyGivenNames x; first | (refine Keeps.bind (s := s₀) (x := x) ?_ ?_; intro _; clear_value x; revert x; intros) | (clear_value x; revert x; intros))
    | split | with_reducible apply msixSend_keeps | (with_reducible apply each_keeps; intro _ _ _) | dsimp -zeta only
    | with_reducible apply Keeps.upd)

theorem hifErr_keeps {s₀ s : State} (h : Keeps s₀ s) {code p ring addr : Nat} :
    Keeps s₀ (hifErr s code p ring addr) := by
  unfold hifErr
  repeat' (first
    | with_reducible assumption | (unfold x; clear x)
    | (extract_lets +onlyGivenNames x; first | (refine Keeps.bind (s := s₀) (x := x) ?_ ?_; intro _; clear_value x; revert x; intros) | (clear_value x; revert x; intros))
    | with_reducible apply wr_keeps | with_reducible apply raiseVec_keeps)

theorem cfgErr_keeps {s₀ s : State} (h : Keeps s₀ s) {code func off : Nat} :
    Keeps s₀ (cfgErr s code func off) := by
  unfold cfgErr
  repeat' (first
    | with_reducible assumption | with_reducible apply wr_keeps)

theorem syncReports_keeps {s₀ s : State} (h : Keeps s₀ s)  :
    Keeps s₀ (syncReports s) := by
  unfold syncReports
  repeat' (first
    | with_reducible assumption | (unfold x; clear x)
    | (extract_lets +onlyGivenNames x; first | (refine Keeps.bind (s := s₀) (x := x) ?_ ?_; intro _; clear_value x; revert x; intros) | (clear_value x; revert x; intros))
    | split | with_reducible apply wr_keeps | (with_reducible apply Keeps.fst (e := by with_reducible assumption))
    | (with_reducible apply Keeps.snd (e := by with_reducible assumption))
    | (with_reducible apply Keeps.fst_eq (e := by with_reducible assumption))
    | (with_reducible apply Keeps.snd_eq (e := by with_reducible assumption)) | with_reducible apply Keeps.upd)

theorem postReports_keeps {s₀ s : State} (h : Keeps s₀ s) {fs : List Nat} :
    Keeps s₀ (postReports s fs) := by
  unfold postReports
  repeat' (first
    | with_reducible assumption | (unfold x; clear x)
    | (extract_lets +onlyGivenNames x; first | (refine Keeps.bind (s := s₀) (x := x) ?_ ?_; intro _; clear_value x; revert x; intros) | (clear_value x; revert x; intros))
    | split | with_reducible apply syncReports_keeps | with_reducible apply wr_keeps
    | (with_reducible apply each_keeps; intro _ _ _) | dsimp -zeta only | with_reducible apply Keeps.upd)

theorem setFn_keeps {s₀ s : State} (h : Keeps s₀ s) {f st : Nat} :
    Keeps s₀ (setFn s f st) := by
  unfold setFn
  repeat' (first
    | with_reducible assumption | (unfold x; clear x)
    | (extract_lets +onlyGivenNames x; first | (refine Keeps.bind (s := s₀) (x := x) ?_ ?_; intro _; clear_value x; revert x; intros) | (clear_value x; revert x; intros))
    | split | with_reducible apply postReports_keeps | with_reducible apply emberPut_keeps | with_reducible apply wr_keeps
    | with_reducible apply raiseVec_keeps)

theorem ticketFlags_keeps {s₀ s : State} (h : Keeps s₀ s) {key m : Nat} :
    Keeps s₀ (ticketFlags s key m) := by
  unfold ticketFlags
  repeat' (first
    | with_reducible assumption | (unfold x; clear x)
    | (extract_lets +onlyGivenNames x; first | (refine Keeps.bind (s := s₀) (x := x) ?_ ?_; intro _; clear_value x; revert x; intros) | (clear_value x; revert x; intros))
    | split | dsimp -zeta only | with_reducible apply Keeps.upd)

theorem updTicket_keeps {s₀ s : State} (h : Keeps s₀ s) {key : Nat} {f : Ticket → Ticket} :
    Keeps s₀ (updTicket s key f) := by
  unfold updTicket
  repeat' (first
    | with_reducible assumption | (unfold x; clear x)
    | (extract_lets +onlyGivenNames x; first | (refine Keeps.bind (s := s₀) (x := x) ?_ ?_; intro _; clear_value x; revert x; intros) | (clear_value x; revert x; intros))
    | split | dsimp -zeta only | with_reducible apply Keeps.upd)

theorem setDisp_keeps {s₀ s : State} (h : Keeps s₀ s) {h : Nat} {d : Disp} :
    Keeps s₀ (setDisp s h d) := by
  unfold setDisp
  repeat' (first
    | with_reducible assumption | (unfold x; clear x)
    | (extract_lets +onlyGivenNames x; first | (refine Keeps.bind (s := s₀) (x := x) ?_ ?_; intro _; clear_value x; revert x; intros) | (clear_value x; revert x; intros))
    | with_reducible apply Keeps.upd)

theorem updCmd_keeps {s₀ s : State} (h : Keeps s₀ s) {h seq : Nat} {f : Cmd → Cmd} :
    Keeps s₀ (updCmd s h seq f) := by
  unfold updCmd
  repeat' (first
    | with_reducible assumption | (unfold x; clear x)
    | (extract_lets +onlyGivenNames x; first | (refine Keeps.bind (s := s₀) (x := x) ?_ ?_; intro _; clear_value x; revert x; intros) | (clear_value x; revert x; intros))
    | split | with_reducible apply setDisp_keeps | dsimp -zeta only | with_reducible apply Keeps.upd)

theorem setCore_keeps {s₀ s : State} (h : Keeps s₀ s) {k : Nat} {c : AwlCore} :
    Keeps s₀ (setCore s k c) := by
  unfold setCore
  repeat' (first
    | with_reducible assumption | (unfold x; clear x)
    | (extract_lets +onlyGivenNames x; first | (refine Keeps.bind (s := s₀) (x := x) ?_ ?_; intro _; clear_value x; revert x; intros) | (clear_value x; revert x; intros))
    | with_reducible apply Keeps.upd)

theorem updCore_keeps {s₀ s : State} (h : Keeps s₀ s) {k : Nat} {f : AwlCore → AwlCore} :
    Keeps s₀ (updCore s k f) := by
  unfold updCore
  repeat' (first
    | with_reducible assumption | with_reducible apply setCore_keeps)

end Sys2Proof.Machine
end

