-- ==== Sys2Proof/Laws/Keeps/Standing.lean ====
section
/-! SUPPORT. What the operations of Machine/Standing.lean keep (`Keeps`). -/

namespace Sys2Proof.Machine

theorem recharge_keeps {s₀ s : State} (h : Keeps s₀ s) {h : Nat} :
    Keeps s₀ (recharge s h) := by
  unfold recharge
  repeat' (first
    | with_reducible assumption | (unfold x; clear x)
    | (extract_lets +onlyGivenNames x; first | (refine Keeps.bind (s := s₀) (x := x) ?_ ?_; intro _; clear_value x; revert x; intros) | (clear_value x; revert x; intros))
    | with_reducible apply wr_keeps | (with_reducible apply Keeps.foldl; intro _ _ _)
    | (with_reducible apply Keeps.foldl_fst; intro _ _ _) | (with_reducible apply Keeps.foldl_snd; intro _ _ _)
    | dsimp -zeta only)

theorem rechargeAll_keeps {s₀ s : State} (h : Keeps s₀ s)  :
    Keeps s₀ (rechargeAll s) := by
  unfold rechargeAll
  repeat' (first
    | with_reducible assumption | with_reducible apply recharge_keeps | (with_reducible apply each_keeps; intro _ _ _))

end Sys2Proof.Machine
end

