-- ==== Sys2Proof/Laws/Keeps/Mem.lean ====
section
/-! SUPPORT. What the operations of Machine/Mem.lean keep (`Keeps`). -/

namespace Sys2Proof.Machine

theorem poke_keeps {s₀ s : State} (h : Keeps s₀ s) {a : Nat} {d : Bytes} : Keeps s₀ (poke s a d) :=
  h.trans ⟨rfl, Nat.le_refl _, List.prefix_refl _, rfl, Nat.le_refl _, fun w => Memory.setBytes_wf w a d⟩

theorem healSector_keeps {s₀ s : State} (h : Keeps s₀ s) {sec : Nat} :
    Keeps s₀ (healSector s sec) := by
  unfold healSector
  repeat' (first
    | with_reducible assumption | (unfold x; clear x)
    | (extract_lets +onlyGivenNames x; first | (refine Keeps.bind (s := s₀) (x := x) ?_ ?_; intro _; clear_value x; revert x; intros) | (clear_value x; revert x; intros))
    | dsimp -zeta only | with_reducible apply Keeps.upd)

theorem overwrite_keeps {s₀ s : State} (h : Keeps s₀ s) {a : Nat} {d : Bytes} :
    Keeps s₀ (overwrite s a d) := by
  unfold overwrite
  repeat' (first
    | with_reducible assumption | (unfold x; clear x)
    | (extract_lets +onlyGivenNames x; first | (refine Keeps.bind (s := s₀) (x := x) ?_ ?_; intro _; clear_value x; revert x; intros) | (clear_value x; revert x; intros))
    | with_reducible apply poke_keeps | dsimp -zeta only | with_reducible apply Keeps.upd)

theorem eccRead_keeps {s₀ s : State} (h : Keeps s₀ s) {sec : Nat} {scrub : Bool} {cmd : Option CmdId} :
    Keeps s₀ (eccRead s sec scrub cmd).1 := by
  unfold eccRead
  dsimp only
  repeat' (first
    | with_reducible assumption | (unfold x; clear x)
    | (extract_lets +onlyGivenNames x; first | (refine Keeps.bind (s := s₀) (x := x) ?_ ?_; intro _; clear_value x; revert x; intros) | (clear_value x; revert x; intros))
    | split | with_reducible apply healSector_keeps | with_reducible apply poke_keeps | with_reducible apply satAdd_keeps
    | with_reducible apply wr_keeps | with_reducible apply emberCode_keeps | with_reducible apply cntMem_keeps
    | (with_reducible apply Keeps.fst (e := by with_reducible assumption))
    | (with_reducible apply Keeps.snd (e := by with_reducible assumption))
    | (with_reducible apply Keeps.fst_eq (e := by with_reducible assumption))
    | (with_reducible apply Keeps.snd_eq (e := by with_reducible assumption)) | dsimp -zeta only
    | with_reducible apply Keeps.upd)

theorem ownerFault_keeps {s₀ s : State} (h : Keeps s₀ s) {n who a : Nat} {write : Bool} :
    Keeps s₀ (ownerFault s n who a write) := by
  unfold ownerFault
  repeat' (first
    | with_reducible assumption | (unfold x; clear x)
    | (extract_lets +onlyGivenNames x; first | (refine Keeps.bind (s := s₀) (x := x) ?_ ?_; intro _; clear_value x; revert x; intros) | (clear_value x; revert x; intros))
    | split | with_reducible apply wr_keeps)

theorem access_keeps {s₀ s : State} (h : Keeps s₀ s) {who a n : Nat} {write : Bool} {cmd : Option CmdId} :
    Keeps s₀ (access s who a n write cmd).1 := by
  unfold access
  repeat' (first
    | with_reducible assumption | (unfold x; clear x)
    | (extract_lets +onlyGivenNames x; first | (refine Keeps.bind (s := s₀) (x := x) ?_ ?_; intro _; clear_value x; revert x; intros) | (clear_value x; revert x; intros))
    | split | with_reducible apply cntMem_keeps | with_reducible apply healSector_keeps | with_reducible apply wr_keeps
    | with_reducible apply eccRead_keeps | with_reducible apply satAdd_keeps | with_reducible apply cntIo_keeps
    | with_reducible apply raiseVec_keeps | with_reducible apply ownerFault_keeps
    | (with_reducible apply Keeps.fst (e := by with_reducible assumption))
    | (with_reducible apply Keeps.snd (e := by with_reducible assumption))
    | (with_reducible apply Keeps.fst_eq (e := by with_reducible assumption))
    | (with_reducible apply Keeps.snd_eq (e := by with_reducible assumption)) | dsimp -zeta only
    | with_reducible apply Keeps.upd)

theorem readFrom_keeps {s₀ s : State} (h : Keeps s₀ s) {who : Nat} {cmd : Option CmdId} {fuel a n : Nat} :
    Keeps s₀ (readFrom s who cmd fuel a n).1 := by
  induction fuel generalizing s a n with
  | zero => exact h
  | succ fuel ih =>
    simp only [readFrom]
    split
    · exact h
    · have ha := access_keeps h (who := who) (a := a) (n := min n (64 - a % 64)) (write := false) (cmd := cmd)
      split
      · next e => exact Keeps.fst ha e
      · next e => exact Keeps.fst ha e
      · next e =>
        have hs := Keeps.fst ha e
        split
        · next e' => exact Keeps.fst (ih hs) e'
        · exact ih hs

theorem memRead_keeps {s₀ s : State} (h : Keeps s₀ s) {who a n : Nat} {cmd : Option CmdId} :
    Keeps s₀ (memRead s who a n cmd).1 := by
  unfold memRead
  repeat' (first
    | with_reducible assumption | with_reducible apply readFrom_keeps)

theorem writeTo_keeps {s₀ s : State} (h : Keeps s₀ s) {who : Nat} {cmd : Option CmdId} {fuel a : Nat} {d : Bytes} :
    Keeps s₀ (writeTo s who cmd fuel a d).1 := by
  induction fuel generalizing s a d with
  | zero => exact h
  | succ fuel ih =>
    simp only [writeTo]
    split
    · exact h
    · have ha := access_keeps h (who := who) (a := a) (n := min d.length (64 - a % 64)) (write := true) (cmd := cmd)
      split
      · next e => exact ih (poke_keeps (Keeps.fst ha e))
      · exact ha

theorem memWrite_keeps {s₀ s : State} (h : Keeps s₀ s) {who a : Nat} {d : Bytes} {cmd : Option CmdId} :
    Keeps s₀ (memWrite s who a d cmd).1 := by
  unfold memWrite
  repeat' (first
    | with_reducible assumption | with_reducible apply writeTo_keeps)

theorem wakeBank_keeps {s₀ s : State} (h : Keeps s₀ s) {n : Nat} : Keeps s₀ (wakeBank s n) :=
  wr_keeps (wr_keeps (s := { s with mem := s.mem.clear (bankBase n) (bankSize n) })
    (h.trans ⟨rfl, Nat.le_refl _, List.prefix_refl _, rfl, Nat.le_refl _, fun w => Memory.clear_wf w _ _⟩))

theorem setOwner_keeps {s₀ s : State} (h : Keeps s₀ s) {n owner : Nat} :
    Keeps s₀ (setOwner s n owner) := by
  unfold setOwner
  repeat' (first
    | with_reducible assumption | (unfold x; clear x)
    | (extract_lets +onlyGivenNames x; first | (refine Keeps.bind (s := s₀) (x := x) ?_ ?_; intro _; clear_value x; revert x; intros) | (clear_value x; revert x; intros))
    | split | with_reducible apply wr_keeps | with_reducible apply recharge_keeps | with_reducible apply wakeBank_keeps)

theorem handover_keeps {s₀ s : State} (h : Keeps s₀ s) {who w : Nat} :
    Keeps s₀ (handover s who w).1 := by
  unfold handover
  repeat' (first
    | with_reducible assumption | split | with_reducible apply setOwner_keeps | dsimp -zeta only)

theorem tackWrite_keeps {s₀ s : State} (h : Keeps s₀ s) {who a : Nat} {d : Bytes} {cmd : Option CmdId} :
    Keeps s₀ (tackWrite s who a d cmd).1 := by
  unfold tackWrite
  repeat' (first
    | with_reducible assumption | (unfold x; clear x)
    | (extract_lets +onlyGivenNames x; first | (refine Keeps.bind (s := s₀) (x := x) ?_ ?_; intro _; clear_value x; revert x; intros) | (clear_value x; revert x; intros))
    | split | with_reducible apply handover_keeps | with_reducible apply memWrite_keeps
    | (with_reducible apply Keeps.fst (e := by with_reducible assumption))
    | (with_reducible apply Keeps.snd (e := by with_reducible assumption))
    | (with_reducible apply Keeps.fst_eq (e := by with_reducible assumption))
    | (with_reducible apply Keeps.snd_eq (e := by with_reducible assumption)) | dsimp -zeta only
    | with_reducible apply Keeps.upd)

theorem tackRead_keeps {s₀ s : State} (h : Keeps s₀ s) {who a n : Nat} {cmd : Option CmdId} :
    Keeps s₀ (tackRead s who a n cmd).1 := by
  unfold tackRead
  repeat' (first
    | with_reducible assumption | (unfold x; clear x)
    | (extract_lets +onlyGivenNames x; first | (refine Keeps.bind (s := s₀) (x := x) ?_ ?_; intro _; clear_value x; revert x; intros) | (clear_value x; revert x; intros))
    | split | with_reducible apply memRead_keeps | dsimp -zeta only)

end Sys2Proof.Machine
end

