-- ==== Sys2Proof/Laws/Keeps/Desc.lean ====
section
/-! SUPPORT. What the operations of Machine/Desc.lean keep (`Keeps`). -/

namespace Sys2Proof.Machine

theorem Desc.setRaw_keeps {s₀ s : State} (h : Keeps s₀ s) {d : Desc} {f : Fmt} {ix : List Nat} {v : Nat} :
    Keeps s₀ (Desc.setRaw s d f ix v) := by
  unfold Desc.setRaw
  repeat' (first
    | with_reducible assumption | (unfold x; clear x)
    | (extract_lets +onlyGivenNames x; first | (refine Keeps.bind (s := s₀) (x := x) ?_ ?_; intro _; clear_value x; revert x; intros) | (clear_value x; revert x; intros))
    | split | with_reducible apply poke_keeps | (with_reducible apply Keeps.fst (e := by with_reducible assumption))
    | (with_reducible apply Keeps.snd (e := by with_reducible assumption))
    | (with_reducible apply Keeps.fst_eq (e := by with_reducible assumption))
    | (with_reducible apply Keeps.snd_eq (e := by with_reducible assumption)) | dsimp -zeta only)

theorem touchFrom_keeps {s₀ s : State} (h : Keeps s₀ s) {who : Nat} {write : Bool} {cmd : Option CmdId} {fuel a n : Nat} :
    Keeps s₀ (touchFrom s who write cmd fuel a n).1 := by
  induction fuel generalizing s a n with
  | zero => exact h
  | succ fuel ih =>
    simp only [touchFrom]
    split
    · exact h
    · have ha := access_keeps h (who := who) (a := a) (n := min n (64 - a % 64)) (write := write) (cmd := cmd)
      split
      · next e => exact ih (Keeps.fst ha e)
      · exact ha

theorem holesFrom_keeps {s₀ s : State} (h : Keeps s₀ s) {who : Nat} {cmd : Option CmdId} {fuel a n : Nat} :
    Keeps s₀ (holesFrom s who cmd fuel a n).1 := by
  induction fuel generalizing s a n with
  | zero => exact h
  | succ fuel ih =>
    unfold holesFrom
    repeat' (first
      | with_reducible assumption | (unfold x; clear x)
      | (extract_lets +onlyGivenNames x; first | (refine Keeps.bind (s := s₀) (x := x) ?_ ?_; intro _; clear_value x; revert x; intros) | (clear_value x; revert x; intros))
      | split | with_reducible apply ih | with_reducible apply access_keeps
      | (with_reducible apply Keeps.fst (e := by with_reducible assumption))
      | (with_reducible apply Keeps.snd (e := by with_reducible assumption))
      | (with_reducible apply Keeps.fst_eq (e := by with_reducible assumption))
      | (with_reducible apply Keeps.snd_eq (e := by with_reducible assumption)) | dsimp -zeta only
      | with_reducible apply Keeps.upd)

theorem touchWrites_keeps {s₀ s : State} (h : Keeps s₀ s) {who : Nat} {cmd : Option CmdId} {rs : List (Nat × Nat)} :
    Keeps s₀ (touchWrites s who cmd rs).1 := by
  induction rs generalizing s with
  | nil => exact h
  | cons r rs ih =>
    unfold touchWrites
    repeat' (first
      | with_reducible assumption | (unfold x; clear x)
      | (extract_lets +onlyGivenNames x; first | (refine Keeps.bind (s := s₀) (x := x) ?_ ?_; intro _; clear_value x; revert x; intros) | (clear_value x; revert x; intros))
      | split | with_reducible apply ih | with_reducible apply holesFrom_keeps
      | (with_reducible apply Keeps.fst (e := by with_reducible assumption))
      | (with_reducible apply Keeps.snd (e := by with_reducible assumption))
      | (with_reducible apply Keeps.fst_eq (e := by with_reducible assumption))
      | (with_reducible apply Keeps.snd_eq (e := by with_reducible assumption)) | dsimp -zeta only
      | with_reducible apply Keeps.upd)

theorem touchRanges_keeps {s₀ s : State} (h : Keeps s₀ s) {who : Nat} {write : Bool} {cmd : Option CmdId}
    {rs : List (Nat × Nat)} : Keeps s₀ (touchRanges s who write cmd rs).1 := by
  induction rs generalizing s with
  | nil => exact h
  | cons r rs ih =>
    simp only [touchRanges]
    have ha := touchFrom_keeps h (who := who) (write := write) (cmd := cmd) (fuel := r.2 / 64 + 2) (a := r.1) (n := r.2)
    split
    · next e => exact ih (Keeps.fst ha e)
    · exact ha

theorem unitTouch_keeps {s₀ s : State} (h : Keeps s₀ s) {rs : List (Nat × Nat)} :
    Keeps s₀ (unitTouch s rs).1 := by
  unfold unitTouch
  repeat' (first
    | with_reducible assumption | (unfold x; clear x)
    | (extract_lets +onlyGivenNames x; first | (refine Keeps.bind (s := s₀) (x := x) ?_ ?_; intro _; clear_value x; revert x; intros) | (clear_value x; revert x; intros))
    | split | with_reducible apply touchRanges_keeps | (with_reducible apply Keeps.fst (e := by with_reducible assumption))
    | (with_reducible apply Keeps.snd (e := by with_reducible assumption))
    | (with_reducible apply Keeps.fst_eq (e := by with_reducible assumption))
    | (with_reducible apply Keeps.snd_eq (e := by with_reducible assumption)) | dsimp -zeta only
    | with_reducible apply Keeps.upd)

theorem unitUpdate_keeps {s₀ s : State} {k : State → State} (hk : ∀ s, Keeps s₀ s → Keeps s₀ (k s)) (h : Keeps s₀ s)
    {rs : List (Nat × Nat)} : Keeps s₀ (unitUpdate s rs k) := by
  unfold unitUpdate
  repeat' (first
    | with_reducible assumption | (unfold x; clear x)
    | (extract_lets +onlyGivenNames x; first | (refine Keeps.bind (s := s₀) (x := x) ?_ ?_; intro _; clear_value x; revert x; intros) | (clear_value x; revert x; intros))
    | split | with_reducible apply hk | with_reducible apply unitTouch_keeps
    | (with_reducible apply Keeps.fst (e := by with_reducible assumption))
    | (with_reducible apply Keeps.snd (e := by with_reducible assumption))
    | (with_reducible apply Keeps.fst_eq (e := by with_reducible assumption))
    | (with_reducible apply Keeps.snd_eq (e := by with_reducible assumption)) | dsimp -zeta only
    | with_reducible apply Keeps.upd)

end Sys2Proof.Machine
end

