-- ==== Sys2Proof/Laws/Keeps/Params.lean ====
section
/-! SUPPORT. What the operations of Machine/Params.lean keep (`Keeps`). -/

namespace Sys2Proof.Machine

theorem takeHold_keeps {s₀ s : State} (h : Keeps s₀ s) {r slot : Nat} :
    Keeps s₀ (takeHold s r slot).1 := by
  unfold takeHold
  repeat' (first
    | with_reducible assumption | (unfold x; clear x)
    | (extract_lets +onlyGivenNames x; first | (refine Keeps.bind (s := s₀) (x := x) ?_ ?_; intro _; clear_value x; revert x; intros) | (clear_value x; revert x; intros))
    | split | with_reducible apply unitTouch_keeps | with_reducible apply wr_keeps | with_reducible apply poke_keeps
    | (with_reducible apply Keeps.fst (e := by with_reducible assumption))
    | (with_reducible apply Keeps.snd (e := by with_reducible assumption))
    | (with_reducible apply Keeps.fst_eq (e := by with_reducible assumption))
    | (with_reducible apply Keeps.snd_eq (e := by with_reducible assumption)) | dsimp -zeta only
    | with_reducible apply Keeps.upd)

theorem dropHold_keeps {s₀ s : State} (h : Keeps s₀ s) {r slot : Nat} :
    Keeps s₀ (dropHold s r slot) := by
  unfold dropHold
  repeat' (first
    | with_reducible assumption | (unfold x; clear x)
    | (extract_lets +onlyGivenNames x; first | (refine Keeps.bind (s := s₀) (x := x) ?_ ?_; intro _; clear_value x; revert x; intros) | (clear_value x; revert x; intros))
    | (with_reducible apply unitUpdate_keeps; intro _ _) | with_reducible apply poke_keeps | dsimp -zeta only)

theorem evalTake_keeps {s₀ s : State} (h : Keeps s₀ s) {ticket step : Nat} :
    Keeps s₀ (evalTake s ticket step).1 := by
  unfold evalTake
  repeat' (first
    | with_reducible assumption | (unfold x; clear x)
    | (extract_lets +onlyGivenNames x; first | (refine Keeps.bind (s := s₀) (x := x) ?_ ?_; intro _; clear_value x; revert x; intros) | (clear_value x; revert x; intros))
    | split | with_reducible apply takeHold_keeps | (with_reducible apply Keeps.foldl; intro _ _ _)
    | (with_reducible apply Keeps.foldl_fst; intro _ _ _) | (with_reducible apply Keeps.foldl_snd; intro _ _ _)
    | (with_reducible apply Keeps.fst (e := by with_reducible assumption))
    | (with_reducible apply Keeps.snd (e := by with_reducible assumption))
    | (with_reducible apply Keeps.fst_eq (e := by with_reducible assumption))
    | (with_reducible apply Keeps.snd_eq (e := by with_reducible assumption)) | dsimp -zeta only
    | with_reducible apply Keeps.upd)

theorem evalDrop_keeps {s₀ s : State} (h : Keeps s₀ s) {p : Nat × Nat × Nat × Nat → Bool} :
    Keeps s₀ (evalDrop s p) := by
  unfold evalDrop
  repeat' (first
    | with_reducible assumption | (unfold x; clear x)
    | (extract_lets +onlyGivenNames x; first | (refine Keeps.bind (s := s₀) (x := x) ?_ ?_; intro _; clear_value x; revert x; intros) | (clear_value x; revert x; intros))
    | with_reducible apply dropHold_keeps | (with_reducible apply each_keeps; intro _ _ _) | dsimp -zeta only
    | with_reducible apply Keeps.upd)

theorem commitRecords_keeps {s₀ s : State} (h : Keeps s₀ s) {ticket step index : Nat} :
    Keeps s₀ (commitRecords s ticket step index) := by
  unfold commitRecords
  repeat' (first
    | with_reducible assumption | (unfold x; clear x)
    | (extract_lets +onlyGivenNames x; first | (refine Keeps.bind (s := s₀) (x := x) ?_ ?_; intro _; clear_value x; revert x; intros) | (clear_value x; revert x; intros))
    | split | (with_reducible apply unitUpdate_keeps; intro _ _) | with_reducible apply poke_keeps
    | (with_reducible apply each_keeps; intro _ _ _) | dsimp -zeta only | with_reducible apply Keeps.upd)

theorem abandonRecords_keeps {s₀ s : State} (h : Keeps s₀ s) {ticket : Nat} :
    Keeps s₀ (abandonRecords s ticket) := by
  unfold abandonRecords
  repeat' (first
    | with_reducible assumption | (unfold x; clear x)
    | (extract_lets +onlyGivenNames x; first | (refine Keeps.bind (s := s₀) (x := x) ?_ ?_; intro _; clear_value x; revert x; intros) | (clear_value x; revert x; intros))
    | split | (with_reducible apply unitUpdate_keeps; intro _ _) | with_reducible apply poke_keeps
    | with_reducible apply takeFreeBytes_keeps | (with_reducible apply each_keeps; intro _ _ _)
    | (with_reducible apply Keeps.fst (e := by with_reducible assumption))
    | (with_reducible apply Keeps.snd (e := by with_reducible assumption))
    | (with_reducible apply Keeps.fst_eq (e := by with_reducible assumption))
    | (with_reducible apply Keeps.snd_eq (e := by with_reducible assumption)) | dsimp -zeta only
    | with_reducible apply Keeps.upd)

end Sys2Proof.Machine
end

