-- ==== Sys2Proof/Laws/Keeps/Charge.lean ====
section
/-! SUPPORT. What the operations of Machine/Charge.lean keep (`Keeps`). -/

namespace Sys2Proof.Machine

theorem gateMes_keeps {s₀ s : State} (h : Keeps s₀ s) {h mask : Nat} :
    Keeps s₀ (gateMes s h mask) := by
  unfold gateMes
  repeat' (first
    | with_reducible assumption | (unfold x; clear x)
    | (extract_lets +onlyGivenNames x; first | (refine Keeps.bind (s := s₀) (x := x) ?_ ?_; intro _; clear_value x; revert x; intros) | (clear_value x; revert x; intros))
    | split | with_reducible apply recharge_keeps | with_reducible apply wr_keeps
    | (with_reducible apply each_keeps; intro _ _ _) | dsimp -zeta only)

end Sys2Proof.Machine
end

