-- ==== Sys2Proof/Laws/Keeps/Abandon.lean ====
section
/-! SUPPORT. What the operations of Machine/Abandon.lean keep (`Keeps`). -/

namespace Sys2Proof.Machine

theorem mergeReport_keeps {s₀ s : State} (h : Keeps s₀ s) {r : ScaleReport} :
    Keeps s₀ (mergeReport s r) := by
  unfold mergeReport
  repeat' (first
    | with_reducible assumption | (unfold x; clear x)
    | (extract_lets +onlyGivenNames x; first | (refine Keeps.bind (s := s₀) (x := x) ?_ ?_; intro _; clear_value x; revert x; intros) | (clear_value x; revert x; intros))
    | split | (with_reducible apply unitUpdate_keeps; intro _ _) | with_reducible apply poke_keeps
    | (with_reducible apply Keeps.fst (e := by with_reducible assumption))
    | (with_reducible apply Keeps.snd (e := by with_reducible assumption))
    | (with_reducible apply Keeps.fst_eq (e := by with_reducible assumption))
    | (with_reducible apply Keeps.snd_eq (e := by with_reducible assumption)) | dsimp -zeta only
    | with_reducible apply Keeps.upd)

theorem reportScale_keeps {s₀ s : State} (h : Keeps s₀ s) {r : ScaleReport} {openStep : Nat} :
    Keeps s₀ (reportScale s r openStep) := by
  unfold reportScale
  repeat' (first
    | with_reducible assumption | (unfold x; clear x)
    | (extract_lets +onlyGivenNames x; first | (refine Keeps.bind (s := s₀) (x := x) ?_ ?_; intro _; clear_value x; revert x; intros) | (clear_value x; revert x; intros))
    | split | with_reducible apply mergeReport_keeps | with_reducible apply Keeps.upd)

theorem appendScale_keeps {s₀ s : State} (h : Keeps s₀ s) {a : Nat} :
    Keeps s₀ (appendScale s a) := by
  unfold appendScale
  repeat' (first
    | with_reducible assumption | (unfold x; clear x)
    | (extract_lets +onlyGivenNames x; first | (refine Keeps.bind (s := s₀) (x := x) ?_ ?_; intro _; clear_value x; revert x; intros) | (clear_value x; revert x; intros))
    | split | (with_reducible apply unitUpdate_keeps; intro _ _) | with_reducible apply poke_keeps
    | (with_reducible apply Keeps.foldl; intro _ _ _) | (with_reducible apply Keeps.foldl_fst; intro _ _ _)
    | (with_reducible apply Keeps.foldl_snd; intro _ _ _)
    | (with_reducible apply Keeps.fst (e := by with_reducible assumption))
    | (with_reducible apply Keeps.snd (e := by with_reducible assumption))
    | (with_reducible apply Keeps.fst_eq (e := by with_reducible assumption))
    | (with_reducible apply Keeps.snd_eq (e := by with_reducible assumption)) | dsimp -zeta only
    | with_reducible apply Keeps.upd)

theorem closeScales_keeps {s₀ s : State} (h : Keeps s₀ s) {ticket : Nat} {step : Option Nat} :
    Keeps s₀ (closeScales s ticket step) := by
  unfold closeScales
  repeat' (first
    | with_reducible assumption | (unfold x; clear x)
    | (extract_lets +onlyGivenNames x; first | (refine Keeps.bind (s := s₀) (x := x) ?_ ?_; intro _; clear_value x; revert x; intros) | (clear_value x; revert x; intros))
    | split | with_reducible apply appendScale_keeps | with_reducible apply mergeReport_keeps
    | (with_reducible apply each_keeps; intro _ _ _) | (with_reducible apply Keeps.fst (e := by with_reducible assumption))
    | (with_reducible apply Keeps.snd (e := by with_reducible assumption))
    | (with_reducible apply Keeps.fst_eq (e := by with_reducible assumption))
    | (with_reducible apply Keeps.snd_eq (e := by with_reducible assumption)) | dsimp -zeta only
    | with_reducible apply Keeps.upd)

theorem abandonScales_keeps {s₀ s : State} (h : Keeps s₀ s) {ticket : Nat} :
    Keeps s₀ (abandonScales s ticket) := by
  unfold abandonScales
  repeat' (first
    | with_reducible assumption | (unfold x; clear x)
    | (extract_lets +onlyGivenNames x; first | (refine Keeps.bind (s := s₀) (x := x) ?_ ?_; intro _; clear_value x; revert x; intros) | (clear_value x; revert x; intros))
    | (with_reducible apply unitUpdate_keeps; intro _ _) | with_reducible apply poke_keeps
    | (with_reducible apply each_keeps; intro _ _ _) | dsimp -zeta only | with_reducible apply Keeps.upd)

theorem freeKept_keeps {s₀ s : State} (h : Keeps s₀ s) {p : KeptSlot → Bool} :
    Keeps s₀ (freeKept s p) := by
  unfold freeKept
  repeat' (first
    | with_reducible assumption | (unfold x; clear x)
    | (extract_lets +onlyGivenNames x; first | (refine Keeps.bind (s := s₀) (x := x) ?_ ?_; intro _; clear_value x; revert x; intros) | (clear_value x; revert x; intros))
    | split | with_reducible apply wr_keeps | with_reducible apply gateMes_keeps
    | (with_reducible apply each_keeps; intro _ _ _) | (with_reducible apply Keeps.foldl; intro _ _ _)
    | (with_reducible apply Keeps.foldl_fst; intro _ _ _) | (with_reducible apply Keeps.foldl_snd; intro _ _ _)
    | dsimp -zeta only | with_reducible apply Keeps.upd)

theorem syncStats_keeps {s₀ s : State} (h : Keeps s₀ s) {h : Nat} :
    Keeps s₀ (syncStats s h) := by
  unfold syncStats
  repeat' (first
    | with_reducible assumption | (unfold x; clear x)
    | (extract_lets +onlyGivenNames x; first | (refine Keeps.bind (s := s₀) (x := x) ?_ ?_; intro _; clear_value x; revert x; intros) | (clear_value x; revert x; intros))
    | with_reducible apply wr_keeps | (with_reducible apply Keeps.foldl; intro _ _ _)
    | (with_reducible apply Keeps.foldl_fst; intro _ _ _) | (with_reducible apply Keeps.foldl_snd; intro _ _ _)
    | dsimp -zeta only)

theorem freeStats_keeps {s₀ s : State} (h : Keeps s₀ s) {p : StatTag → Bool} :
    Keeps s₀ (freeStats s p) := by
  unfold freeStats
  repeat' (first
    | with_reducible assumption | (unfold x; clear x)
    | (extract_lets +onlyGivenNames x; first | (refine Keeps.bind (s := s₀) (x := x) ?_ ?_; intro _; clear_value x; revert x; intros) | (clear_value x; revert x; intros))
    | with_reducible apply syncStats_keeps | (with_reducible apply each_keeps; intro _ _ _) | dsimp -zeta only
    | with_reducible apply Keeps.upd)

theorem syncRails_keeps {s₀ s : State} (h : Keeps s₀ s)  :
    Keeps s₀ (syncRails s) := by
  unfold syncRails
  repeat' (first
    | with_reducible assumption | (unfold x; clear x)
    | (extract_lets +onlyGivenNames x; first | (refine Keeps.bind (s := s₀) (x := x) ?_ ?_; intro _; clear_value x; revert x; intros) | (clear_value x; revert x; intros))
    | split | with_reducible apply wr_keeps)

theorem syncStash_keeps {s₀ s : State} (h : Keeps s₀ s)  :
    Keeps s₀ (syncStash s) := by
  unfold syncStash
  repeat' (first
    | with_reducible assumption | (unfold x; clear x)
    | (extract_lets +onlyGivenNames x; first | (refine Keeps.bind (s := s₀) (x := x) ?_ ?_; intro _; clear_value x; revert x; intros) | (clear_value x; revert x; intros))
    | with_reducible apply wr_keeps | with_reducible apply syncRails_keeps | (with_reducible apply each_keeps; intro _ _ _)
    | dsimp -zeta only)

theorem unitAt_keeps {s₀ s : State} (h : Keeps s₀ s) {unit : Nat → Nat} {rs : List (Nat × Nat)} :
    Keeps s₀ (unitAt s unit rs).2 := by
  unfold unitAt
  repeat' (first
    | with_reducible assumption | (unfold x; clear x)
    | (extract_lets +onlyGivenNames x; first | (refine Keeps.bind (s := s₀) (x := x) ?_ ?_; intro _; clear_value x; revert x; intros) | (clear_value x; revert x; intros))
    | split | with_reducible apply Coll.unit_keeps | with_reducible apply takeFree_keeps
    | (with_reducible apply Keeps.fst (e := by with_reducible assumption))
    | (with_reducible apply Keeps.snd (e := by with_reducible assumption))
    | (with_reducible apply Keeps.fst_eq (e := by with_reducible assumption))
    | (with_reducible apply Keeps.snd_eq (e := by with_reducible assumption)) | dsimp -zeta only
    | with_reducible apply Keeps.upd)

theorem saddleOf_keeps {s₀ s : State} (h : Keeps s₀ s) {e : StashEntry} :
    Keeps s₀ (saddleOf s e).2 := by
  unfold saddleOf
  repeat' (first
    | with_reducible assumption | with_reducible apply unitAt_keeps | dsimp -zeta only)

theorem saddleCount_keeps {s₀ s : State} (h : Keeps s₀ s) {unit k n : Nat} :
    Keeps s₀ (saddleCount s unit k n) := by
  unfold saddleCount
  repeat' (first
    | with_reducible assumption | with_reducible apply cntMem_keeps | with_reducible apply Coll.unit_keeps)

theorem freeStash_keeps {s₀ s : State} (h : Keeps s₀ s) {p : StashEntry → Bool} :
    Keeps s₀ (freeStash s p) := by
  unfold freeStash
  repeat' (first
    | with_reducible assumption | (unfold x; clear x)
    | (extract_lets +onlyGivenNames x; first | (refine Keeps.bind (s := s₀) (x := x) ?_ ?_; intro _; clear_value x; revert x; intros) | (clear_value x; revert x; intros))
    | with_reducible apply syncStash_keeps | dsimp -zeta only | with_reducible apply Keeps.upd)

theorem freeOrphans_keeps {s₀ s : State} (h : Keeps s₀ s) {ticket step : Nat} :
    Keeps s₀ (freeOrphans s ticket step) := by
  unfold freeOrphans
  dsimp only
  repeat' (first
    | with_reducible assumption | (unfold x; clear x)
    | (extract_lets +onlyGivenNames x; first | (refine Keeps.bind (s := s₀) (x := x) ?_ ?_; intro _; clear_value x; revert x; intros) | (clear_value x; revert x; intros))
    | split | with_reducible apply freeKept_keeps | with_reducible apply emberCode_keeps
    | with_reducible apply freeStats_keeps | with_reducible apply saddleOf_keeps | with_reducible apply wr_keeps
    | with_reducible apply freeStash_keeps | (with_reducible apply each_keeps; intro _ _ _)
    | (with_reducible apply Keeps.fst (e := by with_reducible assumption))
    | (with_reducible apply Keeps.snd (e := by with_reducible assumption))
    | (with_reducible apply Keeps.fst_eq (e := by with_reducible assumption))
    | (with_reducible apply Keeps.snd_eq (e := by with_reducible assumption)) | dsimp -zeta only)

theorem freeTicket_keeps {s₀ s : State} (h : Keeps s₀ s) {ticket : Nat} :
    Keeps s₀ (freeTicket s ticket) := by
  unfold freeTicket
  repeat' (first
    | with_reducible assumption | (unfold x; clear x)
    | (extract_lets +onlyGivenNames x; first | (refine Keeps.bind (s := s₀) (x := x) ?_ ?_; intro _; clear_value x; revert x; intros) | (clear_value x; revert x; intros))
    | split | with_reducible apply freeKept_keeps | with_reducible apply freeStats_keeps
    | with_reducible apply freeStash_keeps | with_reducible apply evalDrop_keeps | with_reducible apply wr_keeps
    | (with_reducible apply Keeps.fst (e := by with_reducible assumption))
    | (with_reducible apply Keeps.snd (e := by with_reducible assumption))
    | (with_reducible apply Keeps.fst_eq (e := by with_reducible assumption))
    | (with_reducible apply Keeps.snd_eq (e := by with_reducible assumption)) | dsimp -zeta only
    | with_reducible apply Keeps.upd)

theorem abandonStep_keeps {s₀ s : State} (h : Keeps s₀ s) {ticket : Nat} :
    Keeps s₀ (abandonStep s ticket) := by
  unfold abandonStep
  repeat' (first
    | with_reducible assumption | with_reducible apply abandonRecords_keeps | with_reducible apply abandonScales_keeps)

end Sys2Proof.Machine
end

