-- ==== Sys2Proof/Laws/Keeps/Tickets.lean ====
section
/-! SUPPORT. What the operations of Machine/Tickets.lean keep (`Keeps`). -/

namespace Sys2Proof.Machine

theorem writeMarked_keeps {s₀ s : State} (h : Keeps s₀ s) {addr : Nat} {body : Bytes} {mark : Nat} :
    Keeps s₀ (writeMarked s addr body mark).1 := by
  unfold writeMarked
  repeat' (first
    | with_reducible assumption | (unfold x; clear x)
    | (extract_lets +onlyGivenNames x; first | (refine Keeps.bind (s := s₀) (x := x) ?_ ?_; intro _; clear_value x; revert x; intros) | (clear_value x; revert x; intros))
    | split | with_reducible apply memWrite_keeps | (with_reducible apply Keeps.fst (e := by with_reducible assumption))
    | (with_reducible apply Keeps.snd (e := by with_reducible assumption))
    | (with_reducible apply Keeps.fst_eq (e := by with_reducible assumption))
    | (with_reducible apply Keeps.snd_eq (e := by with_reducible assumption)) | dsimp -zeta only
    | with_reducible apply Keeps.upd)

theorem holdWrite_keeps {s₀ s : State} (h : Keeps s₀ s) {w : HeldWrite} :
    Keeps s₀ (holdWrite s w) := by
  unfold holdWrite
  repeat' (first
    | with_reducible assumption | (unfold x; clear x)
    | (extract_lets +onlyGivenNames x; first | (refine Keeps.bind (s := s₀) (x := x) ?_ ?_; intro _; clear_value x; revert x; intros) | (clear_value x; revert x; intros))
    | with_reducible apply Keeps.upd)

theorem writeRecord_keeps {s₀ s : State} (h : Keeps s₀ s) {addr : Nat} {body : Bytes} {ring : Nat × Nat} {intr : Bool} :
    Keeps s₀ (writeRecord s addr body ring intr) := by
  unfold writeRecord
  dsimp only
  repeat' (first
    | with_reducible assumption | (unfold x; clear x)
    | (extract_lets +onlyGivenNames x; first | (refine Keeps.bind (s := s₀) (x := x) ?_ ?_; intro _; clear_value x; revert x; intros) | (clear_value x; revert x; intros))
    | split | with_reducible apply raiseVec_keeps | with_reducible apply writeMarked_keeps
    | with_reducible apply hifErr_keeps | with_reducible apply holdWrite_keeps
    | (with_reducible apply Keeps.fst (e := by with_reducible assumption))
    | (with_reducible apply Keeps.snd (e := by with_reducible assumption))
    | (with_reducible apply Keeps.fst_eq (e := by with_reducible assumption))
    | (with_reducible apply Keeps.snd_eq (e := by with_reducible assumption)) | dsimp -zeta only
    | with_reducible apply Keeps.upd)

theorem rlogPut_keeps {s₀ s : State} (h : Keeps s₀ s) {addr : Nat} {body : Bytes} :
    Keeps s₀ (rlogPut s addr body) := by
  unfold rlogPut
  repeat' (first
    | with_reducible assumption | (unfold x; clear x)
    | (extract_lets +onlyGivenNames x; first | (refine Keeps.bind (s := s₀) (x := x) ?_ ?_; intro _; clear_value x; revert x; intros) | (clear_value x; revert x; intros))
    | split | with_reducible apply writeMarked_keeps | with_reducible apply emberCode_keeps | with_reducible apply wr_keeps
    | with_reducible apply holdWrite_keeps | (with_reducible apply Keeps.fst (e := by with_reducible assumption))
    | (with_reducible apply Keeps.snd (e := by with_reducible assumption))
    | (with_reducible apply Keeps.fst_eq (e := by with_reducible assumption))
    | (with_reducible apply Keeps.snd_eq (e := by with_reducible assumption)) | dsimp -zeta only
    | with_reducible apply Keeps.upd)

theorem completeRecord_keeps {s₀ s : State} (h : Keeps s₀ s) {t : Ticket} :
    Keeps s₀ (completeRecord s t) := by
  unfold completeRecord
  repeat' (first
    | with_reducible assumption | (unfold x; clear x)
    | (extract_lets +onlyGivenNames x; first | (refine Keeps.bind (s := s₀) (x := x) ?_ ?_; intro _; clear_value x; revert x; intros) | (clear_value x; revert x; intros))
    | split | with_reducible apply writeRecord_keeps | (with_reducible apply Keeps.fst (e := by with_reducible assumption))
    | (with_reducible apply Keeps.snd (e := by with_reducible assumption))
    | (with_reducible apply Keeps.fst_eq (e := by with_reducible assumption))
    | (with_reducible apply Keeps.snd_eq (e := by with_reducible assumption)) | with_reducible apply Keeps.upd)

theorem setQueue_keeps {s₀ s : State} (h : Keeps s₀ s) {h q : Nat} {x : HQueue} :
    Keeps s₀ (setQueue s h q x) := by
  unfold setQueue
  repeat' (first
    | with_reducible assumption | (unfold x; clear x)
    | (extract_lets +onlyGivenNames x; first | (refine Keeps.bind (s := s₀) (x := x) ?_ ?_; intro _; clear_value x; revert x; intros) | (clear_value x; revert x; intros))
    | split | with_reducible apply setDisp_keeps | with_reducible apply wr_keeps | with_reducible apply Keeps.upd)

theorem freeQueues_keeps {s₀ s : State} (h : Keeps s₀ s) {key : Nat} :
    Keeps s₀ (freeQueues s key) := by
  unfold freeQueues
  repeat' (first
    | with_reducible assumption | (unfold x; clear x)
    | (extract_lets +onlyGivenNames x; first | (refine Keeps.bind (s := s₀) (x := x) ?_ ?_; intro _; clear_value x; revert x; intros) | (clear_value x; revert x; intros))
    | split | with_reducible apply setQueue_keeps | (with_reducible apply each_keeps; intro _ _ _) | dsimp -zeta only
    | with_reducible apply Keeps.upd)

theorem releaseHeld_keeps {s₀ s : State} (h : Keeps s₀ s) {k : Nat} :
    Keeps s₀ (releaseHeld s k) := by
  unfold releaseHeld
  repeat' (first
    | with_reducible assumption | (unfold x; clear x)
    | (extract_lets +onlyGivenNames x; first | (refine Keeps.bind (s := s₀) (x := x) ?_ ?_; intro _; clear_value x; revert x; intros) | (clear_value x; revert x; intros))
    | split | with_reducible apply wr_keeps | with_reducible apply setCore_keeps | with_reducible apply setDisp_keeps
    | with_reducible apply Keeps.upd)

theorem clearPending_keeps {s₀ s : State} (h : Keeps s₀ s) {h : Nat} :
    Keeps s₀ (clearPending s h) := by
  unfold clearPending
  repeat' (first
    | with_reducible assumption | (unfold x; clear x)
    | (extract_lets +onlyGivenNames x; first | (refine Keeps.bind (s := s₀) (x := x) ?_ ?_; intro _; clear_value x; revert x; intros) | (clear_value x; revert x; intros))
    | with_reducible apply setDisp_keeps | with_reducible apply wr_keeps | with_reducible apply Keeps.upd)

theorem withdrawCore_keeps {s₀ s : State} (h : Keeps s₀ s) {k : Nat} :
    Keeps s₀ (withdrawCore s k) := by
  unfold withdrawCore
  repeat' (first
    | with_reducible assumption | (unfold x; clear x)
    | (extract_lets +onlyGivenNames x; first | (refine Keeps.bind (s := s₀) (x := x) ?_ ?_; intro _; clear_value x; revert x; intros) | (clear_value x; revert x; intros))
    | split | with_reducible apply setDisp_keeps | with_reducible apply clearPending_keeps | dsimp -zeta only
    | with_reducible apply Keeps.upd)

theorem coreStop_keeps {s₀ s : State} (h : Keeps s₀ s) {k st : Nat} :
    Keeps s₀ (coreStop s k st) := by
  unfold coreStop
  repeat' (first
    | with_reducible assumption | (unfold x; clear x)
    | (extract_lets +onlyGivenNames x; first | (refine Keeps.bind (s := s₀) (x := x) ?_ ?_; intro _; clear_value x; revert x; intros) | (clear_value x; revert x; intros))
    | with_reducible apply withdrawCore_keeps | with_reducible apply releaseHeld_keeps | with_reducible apply wr_keeps
    | with_reducible apply setCore_keeps | with_reducible apply Keeps.upd)

theorem noteOnce_keeps {s₀ s : State} (h : Keeps s₀ s) {h : Nat} {c : Cmd} {unit : Nat} {codes : List (Nat × Nat)} {stat : Nat} :
    Keeps s₀ (noteOnce s h c unit codes stat) := by
  unfold noteOnce
  repeat' (first
    | with_reducible assumption | (unfold x; clear x)
    | (extract_lets +onlyGivenNames x; first | (refine Keeps.bind (s := s₀) (x := x) ?_ ?_; intro _; clear_value x; revert x; intros) | (clear_value x; revert x; intros))
    | split | with_reducible apply emberCode_keeps | with_reducible apply Coll.unit_keeps
    | with_reducible apply updCmd_keeps | (with_reducible apply each_keeps; intro _ _ _)
    | (with_reducible apply Keeps.foldl; intro _ _ _) | (with_reducible apply Keeps.foldl_fst; intro _ _ _)
    | (with_reducible apply Keeps.foldl_snd; intro _ _ _)
    | (with_reducible apply Keeps.fst (e := by with_reducible assumption))
    | (with_reducible apply Keeps.snd (e := by with_reducible assumption))
    | (with_reducible apply Keeps.fst_eq (e := by with_reducible assumption))
    | (with_reducible apply Keeps.snd_eq (e := by with_reducible assumption)) | dsimp -zeta only
    | with_reducible apply Keeps.upd)

theorem notices_keeps {s₀ s : State} (h : Keeps s₀ s) {h : Nat} {c : Cmd} {unit stat : Nat} :
    Keeps s₀ (notices s h c unit stat) := by
  unfold notices
  repeat' (first
    | with_reducible assumption | with_reducible apply noteOnce_keeps | with_reducible apply ticketFlags_keeps
    | with_reducible apply Coll.unit_keeps)

theorem reportTo_keeps {s₀ s : State} (h : Keeps s₀ s) {c : Cmd} {d : Desc} {amax : Option Nat} {dom stat : Nat} :
    Keeps s₀ (reportTo s c d amax dom stat) := by
  unfold reportTo
  repeat' (first
    | with_reducible assumption | split | with_reducible apply reportScale_keeps | dsimp -zeta only)

theorem awlCheckDone_keeps {s₀ s : State} (h : Keeps s₀ s) {h seq : Nat} :
    Keeps s₀ (awlCheckDone s h seq) := by
  unfold awlCheckDone
  repeat' (first
    | with_reducible assumption | (unfold x; clear x)
    | (extract_lets +onlyGivenNames x; first | (refine Keeps.bind (s := s₀) (x := x) ?_ ?_; intro _; clear_value x; revert x; intros) | (clear_value x; revert x; intros))
    | split | with_reducible apply notices_keeps | with_reducible apply cntHearth_keeps
    | with_reducible apply reportTo_keeps | with_reducible apply wr_keeps | with_reducible apply updCmd_keeps
    | (with_reducible apply each_keeps; intro _ _ _) | (with_reducible apply Keeps.foldl; intro _ _ _)
    | (with_reducible apply Keeps.foldl_fst; intro _ _ _) | (with_reducible apply Keeps.foldl_snd; intro _ _ _)
    | (with_reducible apply Keeps.fst (e := by with_reducible assumption))
    | (with_reducible apply Keeps.snd (e := by with_reducible assumption))
    | (with_reducible apply Keeps.fst_eq (e := by with_reducible assumption))
    | (with_reducible apply Keeps.snd_eq (e := by with_reducible assumption)) | dsimp -zeta only
    | with_reducible apply Keeps.upd)

theorem unreserve_keeps {s₀ s : State} (h : Keeps s₀ s) {c : Cmd} :
    Keeps s₀ (unreserve s c) := by
  unfold unreserve
  repeat' (first
    | with_reducible assumption | (unfold x; clear x)
    | (extract_lets +onlyGivenNames x; first | (refine Keeps.bind (s := s₀) (x := x) ?_ ?_; intro _; clear_value x; revert x; intros) | (clear_value x; revert x; intros))
    | split | with_reducible apply setQueue_keeps | (with_reducible apply Keeps.fst (e := by with_reducible assumption))
    | (with_reducible apply Keeps.snd (e := by with_reducible assumption))
    | (with_reducible apply Keeps.fst_eq (e := by with_reducible assumption))
    | (with_reducible apply Keeps.snd_eq (e := by with_reducible assumption)) | dsimp -zeta only
    | with_reducible apply Keeps.upd)

theorem syncInflight_keeps {s₀ s : State} (h : Keeps s₀ s) {h : Nat} :
    Keeps s₀ (syncInflight s h) := by
  unfold syncInflight
  repeat' (first
    | with_reducible assumption | with_reducible apply wr_keeps | with_reducible apply recompute_keeps | dsimp -zeta only)

theorem segmentRun_keeps {s₀ s : State} (h : Keeps s₀ s) {h : Nat} {c : Cmd} :
    Keeps s₀ (segmentRun s h c) := by
  unfold segmentRun
  repeat' (first
    | with_reducible assumption | (unfold x; clear x)
    | (extract_lets +onlyGivenNames x; first | (refine Keeps.bind (s := s₀) (x := x) ?_ ?_; intro _; clear_value x; revert x; intros) | (clear_value x; revert x; intros))
    | split | with_reducible apply saddleOf_keeps | with_reducible apply unitAt_keeps | with_reducible apply emberCode_keeps
    | with_reducible apply ticketFlags_keeps | with_reducible apply saddleCount_keeps | with_reducible apply wr_keeps
    | (with_reducible apply Keeps.fst (e := by with_reducible assumption))
    | (with_reducible apply Keeps.snd (e := by with_reducible assumption))
    | (with_reducible apply Keeps.fst_eq (e := by with_reducible assumption))
    | (with_reducible apply Keeps.snd_eq (e := by with_reducible assumption)) | dsimp -zeta only
    | with_reducible apply Keeps.upd)

theorem recompCheck_keeps {s₀ s : State} (h : Keeps s₀ s) {h : Nat} :
    Keeps s₀ (recompCheck s h) := by
  unfold recompCheck
  repeat' (first
    | with_reducible assumption | (unfold x; clear x)
    | (extract_lets +onlyGivenNames x; first | (refine Keeps.bind (s := s₀) (x := x) ?_ ?_; intro _; clear_value x; revert x; intros) | (clear_value x; revert x; intros))
    | split | with_reducible apply recompute_keeps | with_reducible apply segmentRun_keeps
    | with_reducible apply updCmd_keeps | (with_reducible apply Keeps.fst (e := by with_reducible assumption))
    | (with_reducible apply Keeps.snd (e := by with_reducible assumption))
    | (with_reducible apply Keeps.fst_eq (e := by with_reducible assumption))
    | (with_reducible apply Keeps.snd_eq (e := by with_reducible assumption)) | dsimp -zeta only
    | with_reducible apply Keeps.upd)

theorem wasteTiles_keeps {s₀ s : State} (h : Keeps s₀ s) {h : Nat} {c : Cmd} :
    Keeps s₀ (wasteTiles s h c) := by
  unfold wasteTiles
  repeat' (first
    | with_reducible assumption | (unfold x; clear x)
    | (extract_lets +onlyGivenNames x; first | (refine Keeps.bind (s := s₀) (x := x) ?_ ?_; intro _; clear_value x; revert x; intros) | (clear_value x; revert x; intros))
    | split | with_reducible apply cntHearth_keeps | with_reducible apply takeFree_keeps
    | (with_reducible apply Keeps.foldl; intro _ _ _) | (with_reducible apply Keeps.foldl_fst; intro _ _ _)
    | (with_reducible apply Keeps.foldl_snd; intro _ _ _)
    | (with_reducible apply Keeps.fst (e := by with_reducible assumption))
    | (with_reducible apply Keeps.snd (e := by with_reducible assumption))
    | (with_reducible apply Keeps.fst_eq (e := by with_reducible assumption))
    | (with_reducible apply Keeps.snd_eq (e := by with_reducible assumption)) | dsimp -zeta only)

theorem endUnbegun_keeps {s₀ s : State} (h : Keeps s₀ s) {c : Cmd} :
    Keeps s₀ (endUnbegun s c) := by
  unfold endUnbegun
  repeat' (first
    | with_reducible assumption | (unfold x; clear x)
    | (extract_lets +onlyGivenNames x; first | (refine Keeps.bind (s := s₀) (x := x) ?_ ?_; intro _; clear_value x; revert x; intros) | (clear_value x; revert x; intros))
    | split | dsimp -zeta only | with_reducible apply Keeps.upd)

theorem dropUnstarted_keeps {s₀ s : State} (h : Keeps s₀ s) {key h : Nat} :
    Keeps s₀ (dropUnstarted s key h) := by
  unfold dropUnstarted
  repeat' (first
    | with_reducible assumption | (unfold x; clear x)
    | (extract_lets +onlyGivenNames x; first | (refine Keeps.bind (s := s₀) (x := x) ?_ ?_; intro _; clear_value x; revert x; intros) | (clear_value x; revert x; intros))
    | split | with_reducible apply endUnbegun_keeps | with_reducible apply wasteTiles_keeps
    | with_reducible apply unreserve_keeps | with_reducible apply setDisp_keeps | with_reducible apply recompCheck_keeps
    | with_reducible apply syncInflight_keeps | with_reducible apply clearPending_keeps
    | (with_reducible apply each_keeps; intro _ _ _) | (with_reducible apply Keeps.fst (e := by with_reducible assumption))
    | (with_reducible apply Keeps.snd (e := by with_reducible assumption))
    | (with_reducible apply Keeps.fst_eq (e := by with_reducible assumption))
    | (with_reducible apply Keeps.snd_eq (e := by with_reducible assumption)) | dsimp -zeta only
    | with_reducible apply Keeps.upd)

theorem endWaitingCores_keeps {s₀ s : State} (h : Keeps s₀ s) {key : Nat} :
    Keeps s₀ (endWaitingCores s key) := by
  unfold endWaitingCores
  repeat' (first
    | with_reducible assumption | (unfold x; clear x)
    | (extract_lets +onlyGivenNames x; first | (refine Keeps.bind (s := s₀) (x := x) ?_ ?_; intro _; clear_value x; revert x; intros) | (clear_value x; revert x; intros))
    | split | with_reducible apply coreStop_keeps | with_reducible apply awlCheckDone_keeps
    | (with_reducible apply each_keeps; intro _ _ _) | dsimp -zeta only)

theorem endTicket_keeps {s₀ s : State} (h : Keeps s₀ s) {key : Nat} :
    Keeps s₀ (endTicket s key) := by
  unfold endTicket
  repeat' (first
    | with_reducible assumption | (unfold x; clear x)
    | (extract_lets +onlyGivenNames x; first | (refine Keeps.bind (s := s₀) (x := x) ?_ ?_; intro _; clear_value x; revert x; intros) | (clear_value x; revert x; intros))
    | split | with_reducible apply abandonStep_keeps | with_reducible apply closeScales_keeps
    | with_reducible apply freeTicket_keeps | with_reducible apply freeQueues_keeps | with_reducible apply setDisp_keeps
    | with_reducible apply completeRecord_keeps | (with_reducible apply each_keeps; intro _ _ _)
    | (with_reducible apply Keeps.fst (e := by with_reducible assumption))
    | (with_reducible apply Keeps.snd (e := by with_reducible assumption))
    | (with_reducible apply Keeps.fst_eq (e := by with_reducible assumption))
    | (with_reducible apply Keeps.snd_eq (e := by with_reducible assumption)) | dsimp -zeta only
    | with_reducible apply Keeps.upd)

theorem tryEnd_keeps {s₀ s : State} (h : Keeps s₀ s) {key : Nat} :
    Keeps s₀ (tryEnd s key) := by
  unfold tryEnd
  repeat' (first
    | with_reducible assumption | (unfold x; clear x)
    | (extract_lets +onlyGivenNames x; first | (refine Keeps.bind (s := s₀) (x := x) ?_ ?_; intro _; clear_value x; revert x; intros) | (clear_value x; revert x; intros))
    | split | with_reducible apply endTicket_keeps | (with_reducible apply Keeps.fst (e := by with_reducible assumption))
    | (with_reducible apply Keeps.snd (e := by with_reducible assumption))
    | (with_reducible apply Keeps.fst_eq (e := by with_reducible assumption))
    | (with_reducible apply Keeps.snd_eq (e := by with_reducible assumption)) | with_reducible apply Keeps.upd)

theorem stopTicket_keeps {s₀ s : State} (h : Keeps s₀ s) {key status seq hearth : Nat} :
    Keeps s₀ (stopTicket s key status seq hearth) := by
  unfold stopTicket
  repeat' (first
    | with_reducible assumption | (unfold x; clear x)
    | (extract_lets +onlyGivenNames x; first | (refine Keeps.bind (s := s₀) (x := x) ?_ ?_; intro _; clear_value x; revert x; intros) | (clear_value x; revert x; intros))
    | split | with_reducible apply updTicket_keeps | with_reducible apply dropUnstarted_keeps
    | with_reducible apply tryEnd_keeps | with_reducible apply endWaitingCores_keeps
    | (with_reducible apply each_keeps; intro _ _ _) | dsimp -zeta only | with_reducible apply Keeps.upd)

theorem failCmd_keeps {s₀ s : State} (h : Keeps s₀ s) {h : Nat} {c : Cmd} {unit code : Nat} :
    Keeps s₀ (failCmd s h c unit code) := by
  unfold failCmd
  repeat' (first
    | with_reducible assumption | (unfold x; clear x)
    | (extract_lets +onlyGivenNames x; first | (refine Keeps.bind (s := s₀) (x := x) ?_ ?_; intro _; clear_value x; revert x; intros) | (clear_value x; revert x; intros))
    | split | with_reducible apply endUnbegun_keeps | with_reducible apply emberCode_keeps
    | with_reducible apply Coll.unit_keeps | with_reducible apply stopTicket_keeps | with_reducible apply updCmd_keeps
    | dsimp -zeta only | with_reducible apply Keeps.upd)

theorem failRunning_keeps {s₀ s : State} (h : Keeps s₀ s) {h : Nat} {c : Cmd} {unit code : Nat} :
    Keeps s₀ (failRunning s h c unit code) := by
  unfold failRunning
  repeat' (first
    | with_reducible assumption | (unfold x; clear x)
    | (extract_lets +onlyGivenNames x; first | (refine Keeps.bind (s := s₀) (x := x) ?_ ?_; intro _; clear_value x; revert x; intros) | (clear_value x; revert x; intros))
    | with_reducible apply failCmd_keeps | with_reducible apply updCmd_keeps | with_reducible apply Coll.unit_keeps
    | dsimp -zeta only | with_reducible apply Keeps.upd)

theorem retryWrite_keeps {s₀ s : State} (h : Keeps s₀ s) {w : HeldWrite} :
    Keeps s₀ (retryWrite s w) := by
  unfold retryWrite
  repeat' (first
    | with_reducible assumption | (unfold x; clear x)
    | (extract_lets +onlyGivenNames x; first | (refine Keeps.bind (s := s₀) (x := x) ?_ ?_; intro _; clear_value x; revert x; intros) | (clear_value x; revert x; intros))
    | split | with_reducible apply writeRecord_keeps | with_reducible apply rlogPut_keeps
    | with_reducible apply Coll.unit_keeps | with_reducible apply memWrite_keeps | with_reducible apply holdWrite_keeps
    | with_reducible apply failRunning_keeps | (with_reducible apply Keeps.fst (e := by with_reducible assumption))
    | (with_reducible apply Keeps.snd (e := by with_reducible assumption))
    | (with_reducible apply Keeps.fst_eq (e := by with_reducible assumption))
    | (with_reducible apply Keeps.snd_eq (e := by with_reducible assumption)) | dsimp -zeta only
    | with_reducible apply Keeps.upd)

theorem flushHeld_keeps {s₀ s : State} (h : Keeps s₀ s)  :
    Keeps s₀ (flushHeld s) := by
  unfold flushHeld
  repeat' (first
    | with_reducible assumption | (unfold x; clear x)
    | (extract_lets +onlyGivenNames x; first | (refine Keeps.bind (s := s₀) (x := x) ?_ ?_; intro _; clear_value x; revert x; intros) | (clear_value x; revert x; intros))
    | split | with_reducible apply retryWrite_keeps | (with_reducible apply each_keeps; intro _ _ _)
    | with_reducible apply Keeps.upd)

end Sys2Proof.Machine
end

