-- ==== Sys2Proof/Laws/Keeps/AwlStep.lean ====
section
/-! SUPPORT. What the operations of Machine/AwlStep.lean keep (`Keeps`). -/

namespace Sys2Proof.Machine

theorem lsCheckCount_keeps {s₀ s : State} (h : Keeps s₀ s) {k i n : Nat} : Keeps s₀ (lsCheck.cntHearthCore k s i n) := by
  unfold lsCheck.cntHearthCore
  split
  · exact cntHearth_keeps h
  · exact h

theorem lsCheck_keeps {s₀ s : State} (h : Keeps s₀ s) {k a n : Nat} : Keeps s₀ (lsCheck s k a n).1 := by
  unfold lsCheck
  dsimp only
  split
  · exact lsCheckCount_keeps (wr_keeps h)
  · exact each_keeps (fun _ _ h => lsCheckCount_keeps (emberCode_keeps (satAdd_keeps (wr_keeps (updCore_keeps h))))) h

theorem awlFault_keeps {s₀ s : State} (h : Keeps s₀ s) {k code info insn : Nat} :
    Keeps s₀ (awlFault s k code info insn) := by
  unfold awlFault
  repeat' (first
    | with_reducible assumption | (unfold x; clear x)
    | (extract_lets +onlyGivenNames x; first | (refine Keeps.bind (s := s₀) (x := x) ?_ ?_; intro _; clear_value x; revert x; intros) | (clear_value x; revert x; intros))
    | split | with_reducible apply wr_keeps | with_reducible apply coreStop_keeps | with_reducible apply awlCheckDone_keeps
    | with_reducible apply failCmd_keeps | with_reducible apply emberCode_keeps | with_reducible apply endTicket_keeps
    | with_reducible apply updTicket_keeps | (with_reducible apply each_keeps; intro _ _ _)
    | (with_reducible apply Keeps.fst (e := by with_reducible assumption))
    | (with_reducible apply Keeps.snd (e := by with_reducible assumption))
    | (with_reducible apply Keeps.fst_eq (e := by with_reducible assumption))
    | (with_reducible apply Keeps.snd_eq (e := by with_reducible assumption)) | dsimp -zeta only
    | with_reducible apply Keeps.upd)

theorem retire_keeps {s₀ s : State} (h : Keeps s₀ s) {k : Nat} {c : AwlCore} :
    Keeps s₀ (retire s k c) := by
  unfold retire
  repeat' (first
    | with_reducible assumption | (unfold x; clear x)
    | (extract_lets +onlyGivenNames x; first | (refine Keeps.bind (s := s₀) (x := x) ?_ ?_; intro _; clear_value x; revert x; intros) | (clear_value x; revert x; intros))
    | split | with_reducible apply setCore_keeps | with_reducible apply wr_keeps | with_reducible apply cntHearth_keeps
    | with_reducible apply Keeps.upd)

theorem haltCore_keeps {s₀ s : State} (h : Keeps s₀ s) {k : Nat} :
    Keeps s₀ (haltCore s k) := by
  unfold haltCore
  repeat' (first
    | with_reducible assumption | (unfold x; clear x)
    | (extract_lets +onlyGivenNames x; first | (refine Keeps.bind (s := s₀) (x := x) ?_ ?_; intro _; clear_value x; revert x; intros) | (clear_value x; revert x; intros))
    | split | with_reducible apply coreStop_keeps | with_reducible apply awlCheckDone_keeps
    | with_reducible apply tryEnd_keeps | with_reducible apply wr_keeps | with_reducible apply endTicket_keeps
    | with_reducible apply updTicket_keeps | (with_reducible apply Keeps.fst (e := by with_reducible assumption))
    | (with_reducible apply Keeps.snd (e := by with_reducible assumption))
    | (with_reducible apply Keeps.fst_eq (e := by with_reducible assumption))
    | (with_reducible apply Keeps.snd_eq (e := by with_reducible assumption)) | dsimp -zeta only
    | with_reducible apply Keeps.upd)

/-- What an instruction comes to leaves a state to which s may come. -/
def AwlKeeps (s : State) : AwlRes → Prop
  | .done t _ => Keeps s t
  | .fault t _ _ => Keeps s t
  | .wait t _ => Keeps s t
  | .stall t => Keeps s t
  | .halt t _ => Keeps s t

theorem AwlKeeps.done {s t : State} (h : Keeps s t) {c : AwlCore} : AwlKeeps s (.done t c) := h
theorem AwlKeeps.fault {s t : State} (h : Keeps s t) {a b : Nat} : AwlKeeps s (.fault t a b) := h
theorem AwlKeeps.wait {s t : State} (h : Keeps s t) {w : Wait} : AwlKeeps s (.wait t w) := h
theorem AwlKeeps.stall {s t : State} (h : Keeps s t) : AwlKeeps s (.stall t) := h
theorem AwlKeeps.halt {s t : State} (h : Keeps s t) {c : AwlCore} : AwlKeeps s (.halt t c) := h

theorem awlStep_keeps {s₀ s : State} {body : State → AwlCore → AwlRes} (hb : ∀ s c, Keeps s₀ s → AwlKeeps s₀ (body s c))
    (h : Keeps s₀ s) {core : Core} {i : Instr} : KeepsR s₀ (awlStep core i body s) := by
  unfold awlStep
  dsimp only
  split
  · exact KeepsR.next h
  split
  · exact KeepsR.next (awlFault_keeps h)
  have hl := lsCheck_keeps h (k := coreKey core) (a := (getCore s (coreKey core)).pc) (n := 4)
  split
  · next e => exact KeepsR.next (awlFault_keeps (Keeps.fst hl e))
  · next t e =>
    have ht := Keeps.fst hl e
    split
    · exact KeepsR.next (awlFault_keeps ht)
    · split
      · exact KeepsR.next ht
      · have hr := hb t { getCore t (coreKey core) with pc := (getCore s (coreKey core)).pc + 4 } ht
        split <;> next e => rw [e] at hr; first
          | exact KeepsR.next (retire_keeps hr)
          | exact KeepsR.next (awlFault_keeps hr)
          | exact KeepsR.next (wr_keeps (updCore_keeps hr))
          | exact KeepsR.next (haltCore_keeps (retire_keeps hr))
          | exact KeepsR.next hr

theorem awlReg_keeps {s₀ s : State} (h : Keeps s₀ s) {core : Core} {i : Instr} {f : AwlCore → AwlCore} :
    KeepsR s₀ (awlReg core i f s) := awlStep_keeps (body := fun s c => .done s (f c)) (fun _ _ h => AwlKeeps.done h) h

end Sys2Proof.Machine
end

