-- ==== Sys2Proof/Laws/Keeps/Damper.lean ====
section
/-! SUPPORT. What the operations of Machine/Damper.lean keep (`Keeps`). -/

namespace Sys2Proof.Machine

theorem computeCeil_keeps {s₀ s : State} (h : Keeps s₀ s)  :
    Keeps s₀ (computeCeil s) := by
  unfold computeCeil
  repeat' (first
    | with_reducible assumption | (unfold x; clear x)
    | (extract_lets +onlyGivenNames x; first | (refine Keeps.bind (s := s₀) (x := x) ?_ ?_; intro _; clear_value x; revert x; intros) | (clear_value x; revert x; intros))
    | with_reducible apply wr_keeps)

theorem limitEvent_keeps {s₀ s : State} (h : Keeps s₀ s) {reading : Bool} :
    Keeps s₀ (limitEvent s reading) := by
  unfold limitEvent
  dsimp only
  repeat' (first
    | with_reducible assumption | (unfold x; clear x)
    | (extract_lets +onlyGivenNames x; first | (refine Keeps.bind (s := s₀) (x := x) ?_ ?_; intro _; clear_value x; revert x; intros) | (clear_value x; revert x; intros))
    | split | with_reducible apply Coll.note_keeps | with_reducible apply emberCode_keeps | with_reducible apply wr_keeps)

theorem commandStep_keeps {s₀ s : State} (h : Keeps s₀ s) {h target : Nat} :
    Keeps s₀ (commandStep s h target) := by
  unfold commandStep
  repeat' (first
    | with_reducible assumption | (unfold x; clear x)
    | (extract_lets +onlyGivenNames x; first | (refine Keeps.bind (s := s₀) (x := x) ?_ ?_; intro _; clear_value x; revert x; intros) | (clear_value x; revert x; intros))
    | split | with_reducible apply recharge_keeps | with_reducible apply Keeps.upd)

theorem lowerStep_keeps {s₀ s : State} (h : Keeps s₀ s) {h floor : Nat} :
    Keeps s₀ (lowerStep s h floor) := by
  unfold lowerStep
  repeat' (first
    | with_reducible assumption | (unfold x; clear x)
    | (extract_lets +onlyGivenNames x; first | (refine Keeps.bind (s := s₀) (x := x) ?_ ?_; intro _; clear_value x; revert x; intros) | (clear_value x; revert x; intros))
    | split | with_reducible apply commandStep_keeps)

theorem raiseStep_keeps {s₀ s : State} (h : Keeps s₀ s) {h : Nat} :
    Keeps s₀ (raiseStep s h) := by
  unfold raiseStep
  repeat' (first
    | with_reducible assumption | (unfold x; clear x)
    | (extract_lets +onlyGivenNames x; first | (refine Keeps.bind (s := s₀) (x := x) ?_ ?_; intro _; clear_value x; revert x; intros) | (clear_value x; revert x; intros))
    | split | with_reducible apply commandStep_keeps)

theorem seekStep_keeps {s₀ s : State} (h : Keeps s₀ s) {h : Nat} :
    Keeps s₀ (seekStep s h) := by
  unfold seekStep
  repeat' (first
    | with_reducible assumption | split | with_reducible apply lowerStep_keeps | with_reducible apply raiseStep_keeps)

theorem beginPolicy_keeps {s₀ s : State} (h : Keeps s₀ s)  :
    Keeps s₀ (beginPolicy s) := by
  unfold beginPolicy
  repeat' (first
    | with_reducible assumption | (unfold x; clear x)
    | (extract_lets +onlyGivenNames x; first | (refine Keeps.bind (s := s₀) (x := x) ?_ ?_; intro _; clear_value x; revert x; intros) | (clear_value x; revert x; intros))
    | with_reducible apply wr_keeps | with_reducible apply computeCeil_keeps | with_reducible apply rechargeAll_keeps
    | with_reducible apply syncRails_keeps | with_reducible apply seekStep_keeps
    | (with_reducible apply each_keeps; intro _ _ _))

theorem shedRaise_keeps {s₀ s : State} (h : Keeps s₀ s)  :
    Keeps s₀ (shedRaise s) := by
  unfold shedRaise
  repeat' (first
    | with_reducible assumption | (unfold x; clear x)
    | (extract_lets +onlyGivenNames x; first | (refine Keeps.bind (s := s₀) (x := x) ?_ ?_; intro _; clear_value x; revert x; intros) | (clear_value x; revert x; intros))
    | split | with_reducible apply raiseStep_keeps | (with_reducible apply Keeps.foldl; intro _ _ _)
    | (with_reducible apply Keeps.foldl_fst; intro _ _ _) | (with_reducible apply Keeps.foldl_snd; intro _ _ _)
    | (with_reducible apply Keeps.fst (e := by with_reducible assumption))
    | (with_reducible apply Keeps.snd (e := by with_reducible assumption))
    | (with_reducible apply Keeps.fst_eq (e := by with_reducible assumption))
    | (with_reducible apply Keeps.snd_eq (e := by with_reducible assumption)) | dsimp -zeta only
    | with_reducible apply Keeps.upd)

theorem forward_keeps {s₀ s : State} (h : Keeps s₀ s) {h : Nat} {r : TokReq} :
    Keeps s₀ (forward s h r) := by
  unfold forward
  repeat' (first
    | with_reducible assumption | (unfold x; clear x)
    | (extract_lets +onlyGivenNames x; first | (refine Keeps.bind (s := s₀) (x := x) ?_ ?_; intro _; clear_value x; revert x; intros) | (clear_value x; revert x; intros))
    | with_reducible apply setDisp_keeps | with_reducible apply wr_keeps | with_reducible apply Keeps.upd)

theorem tokenWait_keeps {s₀ s : State} (h : Keeps s₀ s) {h : Nat} {r : TokReq} :
    Keeps s₀ (tokenWait s h r) := by
  unfold tokenWait
  dsimp only
  repeat' (first
    | with_reducible assumption | (unfold x; clear x)
    | (extract_lets +onlyGivenNames x; first | (refine Keeps.bind (s := s₀) (x := x) ?_ ?_; intro _; clear_value x; revert x; intros) | (clear_value x; revert x; intros))
    | split | with_reducible apply Coll.note_keeps | with_reducible apply emberCode_keeps
    | with_reducible apply cntHearth_keeps | with_reducible apply wr_keeps | with_reducible apply updCmd_keeps
    | with_reducible apply updCore_keeps | (with_reducible apply Keeps.fst (e := by with_reducible assumption))
    | (with_reducible apply Keeps.snd (e := by with_reducible assumption))
    | (with_reducible apply Keeps.fst_eq (e := by with_reducible assumption))
    | (with_reducible apply Keeps.snd_eq (e := by with_reducible assumption)) | dsimp -zeta only
    | with_reducible apply Keeps.upd)

theorem meLoad_keeps {s₀ s : State} (h : Keeps s₀ s) {h i : Nat} :
    Keeps s₀ (meLoad s h i) := by
  unfold meLoad
  repeat' (first
    | with_reducible assumption | (unfold x; clear x)
    | (extract_lets +onlyGivenNames x; first | (refine Keeps.bind (s := s₀) (x := x) ?_ ?_; intro _; clear_value x; revert x; intros) | (clear_value x; revert x; intros))
    | with_reducible apply wr_keeps | with_reducible apply Keeps.upd)

theorem wakeMes_keeps {s₀ s : State} (h : Keeps s₀ s) {h seq mask : Nat} :
    Keeps s₀ (wakeMes s h seq mask) := by
  unfold wakeMes
  repeat' (first
    | with_reducible assumption | (unfold x; clear x)
    | (extract_lets +onlyGivenNames x; first | (refine Keeps.bind (s := s₀) (x := x) ?_ ?_; intro _; clear_value x; revert x; intros) | (clear_value x; revert x; intros))
    | split | with_reducible apply wr_keeps | with_reducible apply meLoad_keeps
    | (with_reducible apply each_keeps; intro _ _ _) | dsimp -zeta only)

theorem beginRows_keeps {s₀ s : State} (h : Keeps s₀ s) {h : Nat} {c : Cmd} :
    Keeps s₀ (beginRows s h c) := by
  unfold beginRows
  repeat' (first
    | with_reducible assumption | (unfold x; clear x)
    | (extract_lets +onlyGivenNames x; first | (refine Keeps.bind (s := s₀) (x := x) ?_ ?_; intro _; clear_value x; revert x; intros) | (clear_value x; revert x; intros))
    | split | with_reducible apply wr_keeps)

theorem startCmd_keeps {s₀ s : State} (h : Keeps s₀ s) {h : Nat} {c : Cmd} :
    Keeps s₀ (startCmd s h c) := by
  unfold startCmd
  repeat' (first
    | with_reducible assumption | (unfold x; clear x)
    | (extract_lets +onlyGivenNames x; first | (refine Keeps.bind (s := s₀) (x := x) ?_ ?_; intro _; clear_value x; revert x; intros) | (clear_value x; revert x; intros))
    | split | with_reducible apply updCmd_keeps | with_reducible apply recharge_keeps | with_reducible apply beginRows_keeps
    | with_reducible apply wakeMes_keeps | (with_reducible apply each_keeps; intro _ _ _) | dsimp -zeta only
    | with_reducible apply Keeps.upd)

theorem passOver_keeps {s₀ s : State} (h : Keeps s₀ s) {h : Nat} :
    Keeps s₀ (passOver s h) := by
  unfold passOver
  repeat' (first
    | with_reducible assumption | (unfold x; clear x)
    | (extract_lets +onlyGivenNames x; first | (refine Keeps.bind (s := s₀) (x := x) ?_ ?_; intro _; clear_value x; revert x; intros) | (clear_value x; revert x; intros))
    | (with_reducible apply Keeps.foldl; intro _ _ _) | (with_reducible apply Keeps.foldl_fst; intro _ _ _)
    | (with_reducible apply Keeps.foldl_snd; intro _ _ _) | dsimp -zeta only | with_reducible apply Keeps.upd)

theorem grant_keeps {s₀ s : State} (h : Keeps s₀ s) {h : Nat} {r : TokReq} :
    Keeps s₀ (grant s h r) := by
  unfold grant
  repeat' (first
    | with_reducible assumption | (unfold x; clear x)
    | (extract_lets +onlyGivenNames x; first | (refine Keeps.bind (s := s₀) (x := x) ?_ ?_; intro _; clear_value x; revert x; intros) | (clear_value x; revert x; intros))
    | split | with_reducible apply passOver_keeps | with_reducible apply setDisp_keeps | with_reducible apply startCmd_keeps
    | with_reducible apply wr_keeps | with_reducible apply updCore_keeps | with_reducible apply recharge_keeps
    | (with_reducible apply Keeps.fst (e := by with_reducible assumption))
    | (with_reducible apply Keeps.snd (e := by with_reducible assumption))
    | (with_reducible apply Keeps.fst_eq (e := by with_reducible assumption))
    | (with_reducible apply Keeps.snd_eq (e := by with_reducible assumption)) | dsimp -zeta only
    | with_reducible apply Keeps.upd)

theorem decided_keeps {s₀ s : State} (h : Keeps s₀ s)  :
    Keeps s₀ (decided s) := by
  unfold decided
  repeat' (first
    | with_reducible assumption | with_reducible apply shedRaise_keeps | with_reducible apply limitEvent_keeps
    | with_reducible apply computeCeil_keeps)

end Sys2Proof.Machine
end

