-- ==== Sys2Proof/Laws/Keeps/Schedule.lean ====
section
/-! SUPPORT. What the operations of Machine/Schedule.lean keep (`Keeps`). -/

namespace Sys2Proof.Machine

theorem placeFrom_keeps {s₀ s : State} (h : Keeps s₀ s) {hh : Nat} {kept : List Nat} {cs : List Cmd} :
    Keeps s₀ (placeFrom s hh kept cs) := by
  induction cs generalizing s kept with
  | nil => exact h
  | cons c cs ih =>
    unfold placeFrom
    repeat' (first
      | with_reducible assumption | (unfold x; clear x)
      | (extract_lets +onlyGivenNames x; first | (refine Keeps.bind (s := s₀) (x := x) ?_ ?_; intro _; clear_value x; revert x; intros) | (clear_value x; revert x; intros))
      | split | with_reducible apply ih | with_reducible apply updCmd_keeps | dsimp -zeta only
      | with_reducible apply Keeps.upd)

theorem placeStage_keeps {s₀ s : State} (h : Keeps s₀ s) {h : Nat} :
    Keeps s₀ (placeStage s h) := by
  unfold placeStage
  repeat' (first
    | with_reducible assumption | with_reducible apply placeFrom_keeps)

theorem scheduleFrom_keeps {s₀ s : State} (h : Keeps s₀ s) {hh n : Nat} : Keeps s₀ (scheduleFrom s hh n) := by
  induction n generalizing s with
  | zero => exact h
  | succ n ih =>
    unfold scheduleFrom
    lift_lets
    intro _ x
    have hx : Keeps s₀ x := by
      unfold x
      split
      · exact forward_keeps (setDisp_keeps h)
      · exact h
    clear_value x
    have he : ∀ c, Keeps s₀ (each (chainOf x hh c) x fun s m => updCmd s hh m.seq fun x => { x with st := .requested }) :=
      fun _ => each_keeps (fun _ _ k => updCmd_keeps k) hx
    cases candidates x hh with
    | nil => exact hx
    | cons c cs =>
      dsimp only
      cases List.find? (fun c => totalInc x hh c == 0) (c :: cs) with
      | none =>
        dsimp only
        split
        · exact hx
        · exact forward_keeps (he c)
      | some z =>
        dsimp only
        split
        · exact ih (startCmd_keeps hx)
        · exact ih (forward_keeps (he c))

theorem schedule_keeps {s₀ s : State} (h : Keeps s₀ s) {h : Nat} :
    Keeps s₀ (schedule s h) := by
  unfold schedule
  repeat' (first
    | with_reducible assumption | split | with_reducible apply scheduleFrom_keeps | with_reducible apply placeStage_keeps)

theorem fillShortfall_keeps {s₀ s : State} (h : Keeps s₀ s) {h : Nat} :
    Keeps s₀ (fillShortfall s h) := by
  unfold fillShortfall
  repeat' (first
    | with_reducible assumption | (unfold x; clear x)
    | (extract_lets +onlyGivenNames x; first | (refine Keeps.bind (s := s₀) (x := x) ?_ ?_; intro _; clear_value x; revert x; intros) | (clear_value x; revert x; intros))
    | split | with_reducible apply grant_keeps | (with_reducible apply Keeps.fst (e := by with_reducible assumption))
    | (with_reducible apply Keeps.snd (e := by with_reducible assumption))
    | (with_reducible apply Keeps.fst_eq (e := by with_reducible assumption))
    | (with_reducible apply Keeps.snd_eq (e := by with_reducible assumption)) | dsimp -zeta only
    | with_reducible apply Keeps.upd)

theorem popQueue_keeps {s₀ s t : State} (h : Keeps s₀ s) {hh q ticket : Nat} {x : Handle}
    (e : popQueue s hh q ticket = some (x, t)) : Keeps s₀ t := by
  unfold popQueue at e
  dsimp only at e
  split at e
  · split at e
    · cases e
      exact setQueue_keeps h
    · cases e
  · cases e

theorem claimQueue_keeps {s₀ s : State} (h : Keeps s₀ s) {h q ticket : Nat} :
    Keeps s₀ (claimQueue s h q ticket) := by
  unfold claimQueue
  repeat' (first
    | with_reducible assumption | (unfold x; clear x)
    | (extract_lets +onlyGivenNames x; first | (refine Keeps.bind (s := s₀) (x := x) ?_ ?_; intro _; clear_value x; revert x; intros) | (clear_value x; revert x; intros))
    | split | with_reducible apply setQueue_keeps | with_reducible apply Keeps.upd)

end Sys2Proof.Machine
end

