-- ==== Sys2Proof/Laws/Keeps/CmdDecode.lean ====
section
/-! SUPPORT. What the operations of Machine/CmdDecode.lean keep (`Keeps`). -/

namespace Sys2Proof.Machine

theorem opRow_keeps {s₀ s : State} {body : State → Cmd → State} (hb : ∀ s c, Keeps s₀ s → Keeps s₀ (body s c))
    (h : Keeps s₀ s) {hh : Fin 16} {seq : BitVec 32} {opcode : Nat} : KeepsR s₀ (opRow hh seq opcode s body) := by
  unfold opRow
  split
  · exact KeepsR.next h
  · split
    · exact KeepsR.next h
    · refine KeepsR.next ?_
      split
      · exact hb _ _ h
      · exact h

theorem cmdDone_keeps {s₀ s : State} (h : Keeps s₀ s) {h : Nat} {c : Cmd} :
    Keeps s₀ (cmdDone s h c) := by
  unfold cmdDone
  repeat' (first
    | with_reducible assumption | (unfold x; clear x)
    | (extract_lets +onlyGivenNames x; first | (refine Keeps.bind (s := s₀) (x := x) ?_ ?_; intro _; clear_value x; revert x; intros) | (clear_value x; revert x; intros))
    | with_reducible apply updCmd_keeps | dsimp -zeta only | with_reducible apply Keeps.upd)

theorem orFail_keeps {s₀ : State} {α : Type} {r : State × Req α} {k : State → α → State}
    (hk : ∀ s a, Keeps s₀ s → Keeps s₀ (k s a)) (hr : Keeps s₀ r.1) {h : Nat} {c : Cmd} {unit : Nat} :
    Keeps s₀ (orFail h c unit r k) := by
  obtain ⟨s, r⟩ := r
  cases r with
  | ok a => exact hk s a hr
  | fail code => exact failRunning_keeps hr
  | wait => exact cntHearth_keeps hr

theorem readTensors_keeps {s₀ s : State} (h : Keeps s₀ s) {h : Nat} {c : Cmd} {ds : List Desc} :
    Keeps s₀ (readTensors s h c ds).1 := by
  unfold readTensors
  repeat' (first
    | with_reducible assumption | with_reducible apply touchRanges_keeps | dsimp -zeta only)

theorem readRanges_keeps {s₀ s : State} (h : Keeps s₀ s) {h : Nat} {c : Cmd} {rs : List (Nat × Nat)} :
    Keeps s₀ (readRanges s h c rs).1 := by
  unfold readRanges
  repeat' (first
    | with_reducible assumption | with_reducible apply touchRanges_keeps)

theorem partWritten_keeps {s₀ s : State} (h : Keeps s₀ s) {h : Nat} {c : Cmd} {rs : List (Nat × Nat)} :
    Keeps s₀ (partWritten s h c rs) := by
  unfold partWritten
  repeat' (first
    | with_reducible assumption | (unfold x; clear x)
    | (extract_lets +onlyGivenNames x; first | (refine Keeps.bind (s := s₀) (x := x) ?_ ?_; intro _; clear_value x; revert x; intros) | (clear_value x; revert x; intros))
    | split | with_reducible apply takeFree_keeps | with_reducible apply takeFreeBytes_keeps
    | with_reducible apply access_keeps | with_reducible apply poke_keeps | (with_reducible apply each_keeps; intro _ _ _)
    | (with_reducible apply Keeps.fst (e := by with_reducible assumption))
    | (with_reducible apply Keeps.snd (e := by with_reducible assumption))
    | (with_reducible apply Keeps.fst_eq (e := by with_reducible assumption))
    | (with_reducible apply Keeps.snd_eq (e := by with_reducible assumption)) | dsimp -zeta only
    | with_reducible apply Keeps.upd)

theorem writeTensors_keeps {s₀ s : State} (h : Keeps s₀ s) {h : Nat} {c : Cmd} {ds : List Desc} :
    Keeps s₀ (writeTensors s h c ds).1 := by
  unfold writeTensors
  repeat' (first
    | with_reducible assumption | (unfold x; clear x)
    | (extract_lets +onlyGivenNames x; first | (refine Keeps.bind (s := s₀) (x := x) ?_ ?_; intro _; clear_value x; revert x; intros) | (clear_value x; revert x; intros))
    | split | with_reducible apply touchRanges_keeps | with_reducible apply partWritten_keeps
    | (with_reducible apply Keeps.fst (e := by with_reducible assumption))
    | (with_reducible apply Keeps.snd (e := by with_reducible assumption))
    | (with_reducible apply Keeps.fst_eq (e := by with_reducible assumption))
    | (with_reducible apply Keeps.snd_eq (e := by with_reducible assumption)) | dsimp -zeta only
    | with_reducible apply Keeps.upd)

theorem writeRanges_keeps {s₀ s : State} (h : Keeps s₀ s) {h : Nat} {c : Cmd} {rs : List (Nat × Nat)} :
    Keeps s₀ (writeRanges s h c rs).1 := by
  unfold writeRanges
  repeat' (first
    | with_reducible assumption | (unfold x; clear x)
    | (extract_lets +onlyGivenNames x; first | (refine Keeps.bind (s := s₀) (x := x) ?_ ?_; intro _; clear_value x; revert x; intros) | (clear_value x; revert x; intros))
    | split | with_reducible apply touchWrites_keeps | with_reducible apply partWritten_keeps
    | (with_reducible apply Keeps.fst (e := by with_reducible assumption))
    | (with_reducible apply Keeps.snd (e := by with_reducible assumption))
    | (with_reducible apply Keeps.fst_eq (e := by with_reducible assumption))
    | (with_reducible apply Keeps.snd_eq (e := by with_reducible assumption)) | dsimp -zeta only
    | with_reducible apply Keeps.upd)

theorem holdBack_keeps {s₀ s t : State} (ht : Keeps s₀ t) {hh : Nat} {c : Cmd} {unit : Nat} {holes : List (Nat × Nat)} :
    Keeps s₀ (holdBack s t hh c unit holes) := by
  unfold holdBack
  refine each_keeps (fun t x k => ?_) ?_
  · exact Keeps.upd (poke_keeps k)
  · split
    · exact ht
    · exact cntHearth_keeps ht

theorem storing_keeps {s₀ s : State} {k : State → State} (hk : ∀ s, Keeps s₀ s → Keeps s₀ (k s)) (h : Keeps s₀ s) {hh : Nat} {c : Cmd}
    {unit : Nat} {ds : List Desc} : Keeps s₀ (storing s hh c unit ds k) := by
  unfold storing
  repeat' (first
    | with_reducible assumption | (unfold x; clear x)
    | (extract_lets +onlyGivenNames x; first | (refine Keeps.bind (s := s₀) (x := x) ?_ ?_; intro _; clear_value x; revert x; intros) | (clear_value x; revert x; intros))
    | split | with_reducible apply hk | with_reducible apply touchRanges_keeps | with_reducible apply cntHearth_keeps
    | with_reducible apply failRunning_keeps | with_reducible apply partWritten_keeps | with_reducible apply Coll.unit_keeps
    | with_reducible apply writeRanges_keeps | with_reducible apply holdBack_keeps
    | (with_reducible apply Keeps.fst (e := by with_reducible assumption))
    | (with_reducible apply Keeps.snd (e := by with_reducible assumption))
    | (with_reducible apply Keeps.fst_eq (e := by with_reducible assumption))
    | (with_reducible apply Keeps.snd_eq (e := by with_reducible assumption)) | dsimp -zeta only
    | with_reducible apply Keeps.upd)

end Sys2Proof.Machine
end

