-- ==== Sys2Proof/Laws/Keeps/Store.lean ====
section
/-! SUPPORT. What the operations of Machine/Store.lean keep (`Keeps`). -/

namespace Sys2Proof.Machine

theorem Desc.setBlock_keeps {s₀ s : State} (h : Keeps s₀ s) {d : Desc} {f : Fmt} {ix : List Nat} {code : Nat} {elems : List Nat} :
    Keeps s₀ (Desc.setBlock s d f ix code elems) := by
  unfold Desc.setBlock
  repeat' (first
    | with_reducible assumption | (unfold x; clear x)
    | (extract_lets +onlyGivenNames x; first | (refine Keeps.bind (s := s₀) (x := x) ?_ ?_; intro _; clear_value x; revert x; intros) | (clear_value x; revert x; intros))
    | split | with_reducible apply Desc.setRaw_keeps | with_reducible apply poke_keeps
    | (with_reducible apply each_keeps; intro _ _ _) | dsimp -zeta only)

theorem storeBlockAt_keeps {s₀ s : State} (h : Keeps s₀ s) {d : Desc} {f : Fmt} {m : StoreMode} {v : List Nat → FVal} {ix : List Nat} :
    Keeps s₀ (storeBlockAt s d f m v ix).1 := by
  unfold storeBlockAt
  repeat' (first
    | with_reducible assumption | (unfold x; clear x)
    | (extract_lets +onlyGivenNames x; first | (refine Keeps.bind (s := s₀) (x := x) ?_ ?_; intro _; clear_value x; revert x; intros) | (clear_value x; revert x; intros))
    | split | with_reducible apply Desc.setBlock_keeps | (with_reducible apply Keeps.foldl; intro _ _ _)
    | (with_reducible apply Keeps.foldl_fst; intro _ _ _) | (with_reducible apply Keeps.foldl_snd; intro _ _ _)
    | dsimp -zeta only)

theorem storeTensor_keeps {s₀ s : State} (h : Keeps s₀ s) {d : Desc} {m : StoreMode} {v : List Nat → FVal} :
    Keeps s₀ (storeTensor s d m v).1 := by
  unfold storeTensor
  repeat' (first
    | with_reducible assumption | (unfold x; clear x)
    | (extract_lets +onlyGivenNames x; first | (refine Keeps.bind (s := s₀) (x := x) ?_ ?_; intro _; clear_value x; revert x; intros) | (clear_value x; revert x; intros))
    | split | with_reducible apply storeBlockAt_keeps | with_reducible apply Desc.setRaw_keeps
    | (with_reducible apply Keeps.foldl; intro _ _ _) | (with_reducible apply Keeps.foldl_fst; intro _ _ _)
    | (with_reducible apply Keeps.foldl_snd; intro _ _ _)
    | (with_reducible apply Keeps.fst (e := by with_reducible assumption))
    | (with_reducible apply Keeps.snd (e := by with_reducible assumption))
    | (with_reducible apply Keeps.fst_eq (e := by with_reducible assumption))
    | (with_reducible apply Keeps.snd_eq (e := by with_reducible assumption)) | dsimp -zeta only
    | with_reducible apply Keeps.upd)

theorem noteStat_keeps {s₀ s : State} (h : Keeps s₀ s) {h : Nat} {c : Cmd} {unit stat : Nat} :
    Keeps s₀ (noteStat s h c unit stat) := by
  unfold noteStat
  repeat' (first
    | with_reducible assumption | with_reducible apply noteOnce_keeps | with_reducible apply notices_keeps
    | with_reducible apply Coll.unit_keeps | dsimp -zeta only)

theorem reportStore_keeps {s₀ s : State} (h : Keeps s₀ s) {h : Nat} {c : Cmd} {unit : Nat} {d : Desc} {r : Report} :
    Keeps s₀ (reportStore s h c unit d r) := by
  unfold reportStore
  repeat' (first
    | with_reducible assumption | with_reducible apply reportTo_keeps | with_reducible apply cntHearth_keeps
    | with_reducible apply noteStat_keeps | with_reducible apply Coll.unit_keeps)

theorem storeAndDone_keeps {s₀ s : State} (h : Keeps s₀ s) {h : Nat} {c : Cmd} {unit : Nat} {d : Desc} {m : StoreMode} {v : List Nat → FVal} {stat : Nat} :
    Keeps s₀ (storeAndDone s h c unit d m v stat) := by
  unfold storeAndDone
  repeat' (first
    | with_reducible assumption | (unfold x; clear x)
    | (extract_lets +onlyGivenNames x; first | (refine Keeps.bind (s := s₀) (x := x) ?_ ?_; intro _; clear_value x; revert x; intros) | (clear_value x; revert x; intros))
    | split | (with_reducible apply storing_keeps; intro _ _) | with_reducible apply Coll.unit_keeps
    | with_reducible apply storeTensor_keeps | with_reducible apply cmdDone_keeps | with_reducible apply reportStore_keeps
    | (with_reducible apply Keeps.fst (e := by with_reducible assumption))
    | (with_reducible apply Keeps.snd (e := by with_reducible assumption))
    | (with_reducible apply Keeps.fst_eq (e := by with_reducible assumption))
    | (with_reducible apply Keeps.snd_eq (e := by with_reducible assumption)) | dsimp -zeta only
    | with_reducible apply Keeps.upd)

end Sys2Proof.Machine
end

