-- ==== Sys2Proof/Laws/Keeps/Matrix.lean ====
section
/-! SUPPORT. What the operations of Machine/Matrix.lean keep (`Keeps`). -/

namespace Sys2Proof.Machine

theorem flashWrite_keeps {s₀ s : State} (h : Keeps s₀ s) {a : Nat} {d : Bytes} : Keeps s₀ (flashWrite s a d) := by
  induction d generalizing s a with
  | nil => exact h
  | cons b bs ih => exact ih (Keeps.upd h)

theorem retireRecord_keeps {s₀ s : State} (h : Keeps s₀ s) {h i : Nat} :
    Keeps s₀ (retireRecord s h i) := by
  unfold retireRecord
  repeat' (first
    | with_reducible assumption | (unfold x; clear x)
    | (extract_lets +onlyGivenNames x; first | (refine Keeps.bind (s := s₀) (x := x) ?_ ?_; intro _; clear_value x; revert x; intros) | (clear_value x; revert x; intros))
    | split | with_reducible apply flashWrite_keeps | (with_reducible apply Keeps.fst (e := by with_reducible assumption))
    | (with_reducible apply Keeps.snd (e := by with_reducible assumption))
    | (with_reducible apply Keeps.fst_eq (e := by with_reducible assumption))
    | (with_reducible apply Keeps.snd_eq (e := by with_reducible assumption)) | dsimp -zeta only
    | with_reducible apply Keeps.upd)

theorem faultMe_keeps {s₀ s : State} (h : Keeps s₀ s) {h i : Nat} :
    Keeps s₀ (faultMe s h i) := by
  unfold faultMe
  repeat' (first
    | with_reducible assumption | (unfold x; clear x)
    | (extract_lets +onlyGivenNames x; first | (refine Keeps.bind (s := s₀) (x := x) ?_ ?_; intro _; clear_value x; revert x; intros) | (clear_value x; revert x; intros))
    | split | with_reducible apply retireRecord_keeps | with_reducible apply recharge_keeps | with_reducible apply wr_keeps)

theorem readWords_keeps {s₀ s : State} (h : Keeps s₀ s) {h i : Nat} {errs : Smap Nat} {cmd : Option CmdId} :
    Keeps s₀ (readWords s h i errs cmd).1 := by
  unfold readWords
  repeat' (first
    | with_reducible assumption | split | with_reducible apply cntHearth_keeps | with_reducible apply wr_keeps
    | with_reducible apply emberCode_keeps | with_reducible apply satAdd_keeps
    | (with_reducible apply each_keeps; intro _ _ _) | dsimp -zeta only)

theorem readSlot_keeps {s₀ s : State} (h : Keeps s₀ s) {h i k : Nat} {cmd : Option CmdId} :
    Keeps s₀ (readSlot s h i k cmd).1 := by
  unfold readSlot
  repeat' (first
    | with_reducible assumption | (unfold x; clear x)
    | (extract_lets +onlyGivenNames x; first | (refine Keeps.bind (s := s₀) (x := x) ?_ ?_; intro _; clear_value x; revert x; intros) | (clear_value x; revert x; intros))
    | split | with_reducible apply readWords_keeps | (with_reducible apply Keeps.fst (e := by with_reducible assumption))
    | (with_reducible apply Keeps.snd (e := by with_reducible assumption))
    | (with_reducible apply Keeps.fst_eq (e := by with_reducible assumption))
    | (with_reducible apply Keeps.snd_eq (e := by with_reducible assumption)) | dsimp -zeta only
    | with_reducible apply Keeps.upd)

theorem readLive_keeps {s₀ s : State} (h : Keeps s₀ s) {h i : Nat} {cmd : Option CmdId} :
    Keeps s₀ (readLive s h i cmd).1 := by
  unfold readLive
  repeat' (first
    | with_reducible assumption | (unfold x; clear x)
    | (extract_lets +onlyGivenNames x; first | (refine Keeps.bind (s := s₀) (x := x) ?_ ?_; intro _; clear_value x; revert x; intros) | (clear_value x; revert x; intros))
    | with_reducible apply readWords_keeps | dsimp -zeta only | with_reducible apply Keeps.upd)

theorem readMe_keeps {s₀ s : State} (h : Keeps s₀ s) {h i : Nat} {loads : Bool} {ks : List Nat} {cmd : Option CmdId} :
    Keeps s₀ (readMe s h i loads ks cmd).1 := by
  unfold readMe
  repeat' (first
    | with_reducible assumption | (unfold x; clear x)
    | (extract_lets +onlyGivenNames x; first | (refine Keeps.bind (s := s₀) (x := x) ?_ ?_; intro _; clear_value x; revert x; intros) | (clear_value x; revert x; intros))
    | split | with_reducible apply wr_keeps | with_reducible apply readSlot_keeps | with_reducible apply readLive_keeps
    | (with_reducible apply Keeps.foldl; intro _ _ _) | (with_reducible apply Keeps.foldl_fst; intro _ _ _)
    | (with_reducible apply Keeps.foldl_snd; intro _ _ _)
    | (with_reducible apply Keeps.fst (e := by with_reducible assumption))
    | (with_reducible apply Keeps.snd (e := by with_reducible assumption))
    | (with_reducible apply Keeps.fst_eq (e := by with_reducible assumption))
    | (with_reducible apply Keeps.snd_eq (e := by with_reducible assumption)) | dsimp -zeta only)

theorem readMes_keeps {s₀ s : State} (h : Keeps s₀ s) {h : Nat} {mes : List Nat} {loads : Bool} {ks : Nat → List Nat} {cmd : Option CmdId} :
    Keeps s₀ (readMes s h mes loads ks cmd).1 := by
  unfold readMes
  repeat' (first
    | with_reducible assumption | (unfold x; clear x)
    | (extract_lets +onlyGivenNames x; first | (refine Keeps.bind (s := s₀) (x := x) ?_ ?_; intro _; clear_value x; revert x; intros) | (clear_value x; revert x; intros))
    | split | with_reducible apply readMe_keeps | (with_reducible apply Keeps.foldl; intro _ _ _)
    | (with_reducible apply Keeps.foldl_fst; intro _ _ _) | (with_reducible apply Keeps.foldl_snd; intro _ _ _)
    | (with_reducible apply Keeps.fst (e := by with_reducible assumption))
    | (with_reducible apply Keeps.snd (e := by with_reducible assumption))
    | (with_reducible apply Keeps.fst_eq (e := by with_reducible assumption))
    | (with_reducible apply Keeps.snd_eq (e := by with_reducible assumption)) | dsimp -zeta only
    | with_reducible apply Keeps.upd)

theorem meTiming_keeps {s₀ s : State} (h : Keeps s₀ s) {h : Nat} {mes : List Nat} {waves : Bool} :
    Keeps s₀ (meTiming s h mes waves) := by
  unfold meTiming
  repeat' (first
    | with_reducible assumption | (unfold x; clear x)
    | (extract_lets +onlyGivenNames x; first | (refine Keeps.bind (s := s₀) (x := x) ?_ ?_; intro _; clear_value x; revert x; intros) | (clear_value x; revert x; intros))
    | split | with_reducible apply takeFree_keeps | with_reducible apply wr_keeps | with_reducible apply cntHearth_keeps
    | (with_reducible apply each_keeps; intro _ _ _) | (with_reducible apply Keeps.fst (e := by with_reducible assumption))
    | (with_reducible apply Keeps.snd (e := by with_reducible assumption))
    | (with_reducible apply Keeps.fst_eq (e := by with_reducible assumption))
    | (with_reducible apply Keeps.snd_eq (e := by with_reducible assumption)) | dsimp -zeta only)

theorem countOps_keeps {s₀ s : State} (h : Keeps s₀ s) {h : Nat} {c : Cmd} {arr : Fmt} {waves : Bool} {per : List (Nat × Nat)} :
    Keeps s₀ (countOps s h c arr waves per) := by
  unfold countOps
  repeat' (first
    | with_reducible assumption | (unfold x; clear x)
    | (extract_lets +onlyGivenNames x; first | (refine Keeps.bind (s := s₀) (x := x) ?_ ?_; intro _; clear_value x; revert x; intros) | (clear_value x; revert x; intros))
    | with_reducible apply wr_keeps | with_reducible apply meTiming_keeps | with_reducible apply cntHearth_keeps
    | (with_reducible apply each_keeps; intro _ _ _) | (with_reducible apply Keeps.foldl; intro _ _ _)
    | (with_reducible apply Keeps.foldl_fst; intro _ _ _) | (with_reducible apply Keeps.foldl_snd; intro _ _ _)
    | dsimp -zeta only)

theorem meRan_keeps {s₀ s : State} (h : Keeps s₀ s) {h i shape arr passes : Nat} {waves : Bool} :
    Keeps s₀ (meRan s h i shape arr passes waves) := by
  unfold meRan
  repeat' (first
    | with_reducible assumption | (unfold x; clear x)
    | (extract_lets +onlyGivenNames x; first | (refine Keeps.bind (s := s₀) (x := x) ?_ ?_; intro _; clear_value x; revert x; intros) | (clear_value x; revert x; intros))
    | split | with_reducible apply wr_keeps | with_reducible apply Keeps.upd)

theorem keepSlots_keeps {s₀ s : State} (h : Keeps s₀ s) {h : Nat} {c : Cmd} {P : Prod} {T : Tiling} {A : AccMode} {acc : Nat → Nat → Nat → Nat} :
    Keeps s₀ (keepSlots s h c P T A acc) := by
  unfold keepSlots
  repeat' (first
    | with_reducible assumption | (unfold x; clear x)
    | (extract_lets +onlyGivenNames x; first | (refine Keeps.bind (s := s₀) (x := x) ?_ ?_; intro _; clear_value x; revert x; intros) | (clear_value x; revert x; intros))
    | split | with_reducible apply wr_keeps | (with_reducible apply each_keeps; intro _ _ _)
    | (with_reducible apply Keeps.foldl; intro _ _ _) | (with_reducible apply Keeps.foldl_fst; intro _ _ _)
    | (with_reducible apply Keeps.foldl_snd; intro _ _ _)
    | (with_reducible apply Keeps.fst (e := by with_reducible assumption))
    | (with_reducible apply Keeps.snd (e := by with_reducible assumption))
    | (with_reducible apply Keeps.fst_eq (e := by with_reducible assumption))
    | (with_reducible apply Keeps.snd_eq (e := by with_reducible assumption)) | dsimp -zeta only
    | with_reducible apply Keeps.upd)

theorem endLive_keeps {s₀ s : State} (h : Keeps s₀ s) {h i : Nat} :
    Keeps s₀ (endLive s h i) := by
  unfold endLive
  repeat' (first
    | with_reducible assumption | split | with_reducible apply wr_keeps | (with_reducible apply each_keeps; intro _ _ _)
    | dsimp -zeta only)

theorem takeSlots_keeps {s₀ s : State} (h : Keeps s₀ s) {h i : Nat} {c : Cmd} :
    Keeps s₀ (takeSlots s h i c) := by
  unfold takeSlots
  repeat' (first
    | with_reducible assumption | (unfold x; clear x)
    | (extract_lets +onlyGivenNames x; first | (refine Keeps.bind (s := s₀) (x := x) ?_ ?_; intro _; clear_value x; revert x; intros) | (clear_value x; revert x; intros))
    | split | with_reducible apply wr_keeps | (with_reducible apply each_keeps; intro _ _ _)
    | (with_reducible apply Keeps.fst (e := by with_reducible assumption))
    | (with_reducible apply Keeps.snd (e := by with_reducible assumption))
    | (with_reducible apply Keeps.fst_eq (e := by with_reducible assumption))
    | (with_reducible apply Keeps.snd_eq (e := by with_reducible assumption)) | dsimp -zeta only
    | with_reducible apply Keeps.upd)

theorem readoutSlots_keeps {s₀ s : State} (h : Keeps s₀ s) {h : Nat} {P : Prod} {T : Tiling} {A : AccMode} :
    Keeps s₀ (readoutSlots s h P T A) := by
  unfold readoutSlots
  repeat' (first
    | with_reducible assumption | (unfold x; clear x)
    | (extract_lets +onlyGivenNames x; first | (refine Keeps.bind (s := s₀) (x := x) ?_ ?_; intro _; clear_value x; revert x; intros) | (clear_value x; revert x; intros))
    | split | with_reducible apply endLive_keeps | with_reducible apply wr_keeps
    | (with_reducible apply each_keeps; intro _ _ _) | dsimp -zeta only | with_reducible apply Keeps.upd)

theorem runProduct_keeps {s₀ s : State} (h : Keeps s₀ s) {h : Nat} {c : Cmd} {P : Prod} {T : Tiling} {A : AccMode} {d : Desc} {m : StoreMode} {at_ : List Nat → Nat × Nat × Nat} {val : Nat → Nat → Nat → Option Nat → Nat × Nat} {ops : Nat → Nat} {stat0 : Nat} :
    Keeps s₀ (runProduct s h c P T A d m at_ val ops stat0) := by
  unfold runProduct
  dsimp only
  repeat' (first
    | with_reducible assumption | (unfold x; clear x)
    | (extract_lets +onlyGivenNames x; first | (refine Keeps.bind (s := s₀) (x := x) ?_ ?_; intro _; clear_value x; revert x; intros) | (clear_value x; revert x; intros))
    | split | with_reducible apply readMes_keeps | with_reducible apply failRunning_keeps
    | with_reducible apply faultMe_keeps | with_reducible apply partWritten_keeps | with_reducible apply Coll.unit_keeps
    | with_reducible apply after_keeps | with_reducible apply countOps_keeps | with_reducible apply meRan_keeps
    | with_reducible apply keepSlots_keeps | with_reducible apply cmdDone_keeps | with_reducible apply reportTo_keeps
    | with_reducible apply noteStat_keeps | (with_reducible apply storing_keeps; intro _ _)
    | with_reducible apply storeTensor_keeps | with_reducible apply readoutSlots_keeps
    | with_reducible apply reportStore_keeps | (with_reducible apply each_keeps; intro _ _ _)
    | (with_reducible apply Keeps.foldl; intro _ _ _) | (with_reducible apply Keeps.foldl_fst; intro _ _ _)
    | (with_reducible apply Keeps.foldl_snd; intro _ _ _)
    | (with_reducible apply Keeps.fst (e := by with_reducible assumption))
    | (with_reducible apply Keeps.snd (e := by with_reducible assumption))
    | (with_reducible apply Keeps.fst_eq (e := by with_reducible assumption))
    | (with_reducible apply Keeps.snd_eq (e := by with_reducible assumption)) | dsimp -zeta only
    | with_reducible apply Keeps.upd)

theorem execMm_keeps {s₀ s : State} (h : Keeps s₀ s) {h : Fin 16} {seq : BitVec 32} :
    KeepsR s₀ (execMm h seq s) := by
  unfold execMm
  repeat' (first
    | with_reducible assumption | (unfold x; clear x)
    | (extract_lets +onlyGivenNames x; first | (refine Keeps.bind (s := s₀) (x := x) ?_ ?_; intro _; clear_value x; revert x; intros) | (clear_value x; revert x; intros))
    | split | with_reducible apply KeepsR.next | (with_reducible apply opRow_keeps; intro _ _ _)
    | with_reducible apply cmdDone_keeps | (with_reducible apply orFail_keeps; intro _ _ _)
    | with_reducible apply readTensors_keeps | with_reducible apply runProduct_keeps
    | (with_reducible apply Keeps.fst (e := by with_reducible assumption))
    | (with_reducible apply Keeps.snd (e := by with_reducible assumption))
    | (with_reducible apply Keeps.fst_eq (e := by with_reducible assumption))
    | (with_reducible apply Keeps.snd_eq (e := by with_reducible assumption)) | dsimp -zeta only
    | with_reducible apply Keeps.upd)

theorem execMeWakeComplete_keeps {s₀ s : State} (h : Keeps s₀ s) {h i : Fin 16} :
    KeepsR s₀ (execMeWakeComplete h i s) := by
  unfold execMeWakeComplete
  repeat' (first
    | with_reducible assumption | split | with_reducible apply KeepsR.next | with_reducible apply meLoad_keeps
    | with_reducible apply wr_keeps)

theorem beginStream_keeps {s₀ s : State} (h : Keeps s₀ s) {h i : Nat} {c : Cmd} {n : Nat} :
    Keeps s₀ (beginStream s h i c n) := by
  unfold beginStream
  repeat' (first
    | with_reducible assumption | (unfold x; clear x)
    | (extract_lets +onlyGivenNames x; first | (refine Keeps.bind (s := s₀) (x := x) ?_ ?_; intro _; clear_value x; revert x; intros) | (clear_value x; revert x; intros))
    | with_reducible apply wr_keeps | with_reducible apply takeSlots_keeps | with_reducible apply Keeps.upd)

theorem execBellowsStep_keeps {s₀ s : State} (h : Keeps s₀ s) {h i : Fin 16} :
    KeepsR s₀ (execBellowsStep h i s) := by
  unfold execBellowsStep
  repeat' (first
    | with_reducible assumption | (unfold x; clear x)
    | (extract_lets +onlyGivenNames x; first | (refine Keeps.bind (s := s₀) (x := x) ?_ ?_; intro _; clear_value x; revert x; intros) | (clear_value x; revert x; intros))
    | split | with_reducible apply KeepsR.next | with_reducible apply beginStream_keeps
    | (with_reducible apply Keeps.fst (e := by with_reducible assumption))
    | (with_reducible apply Keeps.snd (e := by with_reducible assumption))
    | (with_reducible apply Keeps.fst_eq (e := by with_reducible assumption))
    | (with_reducible apply Keeps.snd_eq (e := by with_reducible assumption)) | dsimp -zeta only
    | with_reducible apply Keeps.upd)

theorem execSlotReadout_keeps {s₀ s : State} (h : Keeps s₀ s) {h i : Fin 16} :
    KeepsR s₀ (execSlotReadout h i s) := by
  unfold execSlotReadout
  dsimp only
  repeat' (first
    | with_reducible assumption | (unfold x; clear x)
    | (extract_lets +onlyGivenNames x; first | (refine Keeps.bind (s := s₀) (x := x) ?_ ?_; intro _; clear_value x; revert x; intros) | (clear_value x; revert x; intros))
    | split | with_reducible apply KeepsR.next | with_reducible apply wr_keeps | with_reducible apply readLive_keeps
    | with_reducible apply faultMe_keeps | with_reducible apply failRunning_keeps
    | (with_reducible apply each_keeps; intro _ _ _) | (with_reducible apply Keeps.fst (e := by with_reducible assumption))
    | (with_reducible apply Keeps.snd (e := by with_reducible assumption))
    | (with_reducible apply Keeps.fst_eq (e := by with_reducible assumption))
    | (with_reducible apply Keeps.snd_eq (e := by with_reducible assumption)) | dsimp -zeta only
    | with_reducible apply Keeps.upd)

theorem startTest_keeps {s₀ s : State} (h : Keeps s₀ s) {h : Nat} :
    Keeps s₀ (startTest s h) := by
  unfold startTest
  repeat' (first
    | with_reducible assumption | (unfold x; clear x)
    | (extract_lets +onlyGivenNames x; first | (refine Keeps.bind (s := s₀) (x := x) ?_ ?_; intro _; clear_value x; revert x; intros) | (clear_value x; revert x; intros))
    | split | with_reducible apply schedule_keeps | with_reducible apply wr_keeps | with_reducible apply setDisp_keeps
    | (with_reducible apply Keeps.fst (e := by with_reducible assumption))
    | (with_reducible apply Keeps.snd (e := by with_reducible assumption))
    | (with_reducible apply Keeps.fst_eq (e := by with_reducible assumption))
    | (with_reducible apply Keeps.snd_eq (e := by with_reducible assumption)) | dsimp -zeta only
    | with_reducible apply Keeps.upd)

theorem execMeTest_keeps {s₀ s : State} (h : Keeps s₀ s) {src : Src} {h i : Fin 16} :
    KeepsR s₀ (execMeTest src h i s) := by
  unfold execMeTest
  repeat' (first
    | with_reducible assumption | (unfold x; clear x)
    | (extract_lets +onlyGivenNames x; first | (refine Keeps.bind (s := s₀) (x := x) ?_ ?_; intro _; clear_value x; revert x; intros) | (clear_value x; revert x; intros))
    | split | with_reducible apply KeepsR.next | with_reducible apply cfgErr_keeps | with_reducible apply startTest_keeps
    | dsimp -zeta only | with_reducible apply Keeps.upd)

theorem endTest_keeps {s₀ s : State} (h : Keeps s₀ s) {h i : Nat} {pass : Bool} :
    Keeps s₀ (endTest s h i pass) := by
  unfold endTest
  repeat' (first
    | with_reducible assumption | (unfold x; clear x)
    | (extract_lets +onlyGivenNames x; first | (refine Keeps.bind (s := s₀) (x := x) ?_ ?_; intro _; clear_value x; revert x; intros) | (clear_value x; revert x; intros))
    | split | with_reducible apply wr_keeps | with_reducible apply retireRecord_keeps | with_reducible apply freeKept_keeps
    | with_reducible apply setDisp_keeps | with_reducible apply startTest_keeps
    | (with_reducible apply each_keeps; intro _ _ _) | dsimp -zeta only | with_reducible apply Keeps.upd)

theorem execMeTestComplete_keeps {s₀ s : State} (h : Keeps s₀ s) {h i : Fin 16} {pass : Bool} :
    KeepsR s₀ (execMeTestComplete h i pass s) := by
  unfold execMeTestComplete
  repeat' (first
    | with_reducible assumption | split | with_reducible apply KeepsR.next | with_reducible apply endTest_keeps)

end Sys2Proof.Machine
end

