-- ==== Sys2Proof/Laws/Keeps/Conv.lean ====
section
/-! SUPPORT. What the operations of Machine/Conv.lean keep (`Keeps`). -/

namespace Sys2Proof.Machine

theorem emptyOutput_keeps {s₀ s : State} (h : Keeps s₀ s) {h : Nat} {c : Cmd} {unit : Nat} :
    Keeps s₀ (emptyOutput s h c unit) := by
  unfold emptyOutput
  repeat' (first
    | with_reducible assumption | with_reducible apply cmdDone_keeps | with_reducible apply emberCode_keeps
    | with_reducible apply ticketFlags_keeps | with_reducible apply Coll.unit_keeps)

theorem execConv_keeps {s₀ s : State} (h : Keeps s₀ s) {h : Fin 16} {seq : BitVec 32} :
    KeepsR s₀ (execConv h seq s) := by
  unfold execConv
  repeat' (first
    | with_reducible assumption | (unfold x; clear x)
    | (extract_lets +onlyGivenNames x; first | (refine Keeps.bind (s := s₀) (x := x) ?_ ?_; intro _; clear_value x; revert x; intros) | (clear_value x; revert x; intros))
    | split | with_reducible apply KeepsR.next | (with_reducible apply opRow_keeps; intro _ _ _)
    | with_reducible apply cmdDone_keeps | with_reducible apply emptyOutput_keeps
    | (with_reducible apply orFail_keeps; intro _ _ _) | with_reducible apply readRanges_keeps
    | with_reducible apply runProduct_keeps | with_reducible apply cntHearth_keeps
    | (with_reducible apply Keeps.fst (e := by with_reducible assumption))
    | (with_reducible apply Keeps.snd (e := by with_reducible assumption))
    | (with_reducible apply Keeps.fst_eq (e := by with_reducible assumption))
    | (with_reducible apply Keeps.snd_eq (e := by with_reducible assumption)) | dsimp -zeta only
    | with_reducible apply Keeps.upd)

theorem poolCores_keeps {s₀ s : State} (h : Keeps s₀ s) {h : Nat} {c : Cmd} :
    Keeps s₀ (poolCores s h c) := by
  unfold poolCores
  repeat' (first
    | with_reducible assumption | (unfold x; clear x)
    | (extract_lets +onlyGivenNames x; first | (refine Keeps.bind (s := s₀) (x := x) ?_ ?_; intro _; clear_value x; revert x; intros) | (clear_value x; revert x; intros))
    | with_reducible apply setCore_keeps | with_reducible apply wr_keeps | (with_reducible apply each_keeps; intro _ _ _)
    | dsimp -zeta only | with_reducible apply Keeps.upd)

theorem execPool_keeps {s₀ s : State} (h : Keeps s₀ s) {h : Fin 16} {seq : BitVec 32} :
    KeepsR s₀ (execPool h seq s) := by
  unfold execPool
  repeat' (first
    | with_reducible assumption | (unfold x; clear x)
    | (extract_lets +onlyGivenNames x; first | (refine Keeps.bind (s := s₀) (x := x) ?_ ?_; intro _; clear_value x; revert x; intros) | (clear_value x; revert x; intros))
    | split | with_reducible apply KeepsR.next | (with_reducible apply opRow_keeps; intro _ _ _)
    | with_reducible apply cmdDone_keeps | with_reducible apply emptyOutput_keeps
    | (with_reducible apply orFail_keeps; intro _ _ _) | with_reducible apply readRanges_keeps
    | with_reducible apply poolCores_keeps | with_reducible apply Coll.unit_keeps | with_reducible apply storeAndDone_keeps
    | (with_reducible apply Keeps.foldl; intro _ _ _) | (with_reducible apply Keeps.foldl_fst; intro _ _ _)
    | (with_reducible apply Keeps.foldl_snd; intro _ _ _)
    | (with_reducible apply Keeps.fst (e := by with_reducible assumption))
    | (with_reducible apply Keeps.snd (e := by with_reducible assumption))
    | (with_reducible apply Keeps.fst_eq (e := by with_reducible assumption))
    | (with_reducible apply Keeps.snd_eq (e := by with_reducible assumption)) | dsimp -zeta only
    | with_reducible apply Keeps.upd)

end Sys2Proof.Machine
end

