-- ==== Sys2Proof/Laws/Keeps/RowEngine.lean ====
section
/-! SUPPORT. What the operations of Machine/RowEngine.lean keep (`Keeps`). -/

namespace Sys2Proof.Machine

theorem setStat_keeps {s₀ s : State} (h : Keeps s₀ s) {x : StatTag} :
    Keeps s₀ (setStat s x) := by
  unfold setStat
  repeat' (first
    | with_reducible assumption | (unfold x; clear x)
    | (extract_lets +onlyGivenNames x; first | (refine Keeps.bind (s := s₀) (x := x) ?_ ?_; intro _; clear_value x; revert x; intros) | (clear_value x; revert x; intros))
    | split | dsimp -zeta only | with_reducible apply Keeps.upd)

theorem assignRows_keeps {s₀ s : State} (h : Keeps s₀ s) {h : Nat} {c : Cmd} {rows : Nat} :
    Keeps s₀ (assignRows s h c rows) := by
  unfold assignRows
  repeat' (first
    | with_reducible assumption | (unfold x; clear x)
    | (extract_lets +onlyGivenNames x; first | (refine Keeps.bind (s := s₀) (x := x) ?_ ?_; intro _; clear_value x; revert x; intros) | (clear_value x; revert x; intros))
    | with_reducible apply updCmd_keeps | with_reducible apply setStat_keeps | dsimp -zeta only
    | with_reducible apply Keeps.upd)

theorem scrambleSpill_keeps {s₀ s : State} (h : Keeps s₀ s) {h : Nat} :
    Keeps s₀ (scrambleSpill s h) := by
  unfold scrambleSpill
  repeat' (first
    | with_reducible assumption | (unfold x; clear x)
    | (extract_lets +onlyGivenNames x; first | (refine Keeps.bind (s := s₀) (x := x) ?_ ?_; intro _; clear_value x; revert x; intros) | (clear_value x; revert x; intros))
    | split | with_reducible apply takeFreeBytes_keeps | with_reducible apply poke_keeps
    | (with_reducible apply Keeps.fst (e := by with_reducible assumption))
    | (with_reducible apply Keeps.snd (e := by with_reducible assumption))
    | (with_reducible apply Keeps.fst_eq (e := by with_reducible assumption))
    | (with_reducible apply Keeps.snd_eq (e := by with_reducible assumption)) | dsimp -zeta only)

theorem writeRows_keeps {s₀ s : State} (h : Keeps s₀ s) {h : Nat} {c : Cmd} {softmax : Bool} {first : Nat} {vals : List (Nat × Nat)} :
    Keeps s₀ (writeRows s h c softmax first vals) := by
  unfold writeRows
  repeat' (first
    | with_reducible assumption | (unfold x; clear x)
    | (extract_lets +onlyGivenNames x; first | (refine Keeps.bind (s := s₀) (x := x) ?_ ?_; intro _; clear_value x; revert x; intros) | (clear_value x; revert x; intros))
    | split | with_reducible apply syncStats_keeps | with_reducible apply setStat_keeps
    | (with_reducible apply Keeps.foldl; intro _ _ _) | (with_reducible apply Keeps.foldl_fst; intro _ _ _)
    | (with_reducible apply Keeps.foldl_snd; intro _ _ _) | dsimp -zeta only | with_reducible apply Keeps.upd)

/-- What a claim comes to leaves a state to which s may come. -/
def ClaimKeeps (s : State) : Claim → Prop
  | .ok t => Keeps s t
  | .spilled t => Keeps s t
  | .full t => Keeps s t

theorem makeRoom_keeps {s₀ s : State} (h : Keeps s₀ s) {hh : Nat} {c : Cmd} {need : Nat} {did : Bool} {fuel : Nat} :
    ClaimKeeps s₀ (makeRoom s hh c need did fuel) := by
  induction fuel generalizing s did with
  | zero => exact h
  | succ fuel ih =>
    unfold makeRoom
    dsimp only
    split
    · split <;> exact h
    · split
      · exact h
      · split
        · exact h
        · exact ih (syncStats_keeps (wr_keeps (emberCode_keeps (scrambleSpill_keeps (setStat_keeps h)))))

theorem claimRoom_keeps {s₀ s : State} (h : Keeps s₀ s) {hh : Nat} {c : Cmd} {n : Nat} : ClaimKeeps s₀ (claimRoom s hh c n) := by
  unfold claimRoom
  dsimp only
  split
  · exact makeRoom_keeps h
  · split
    · exact h
    · exact scrambleSpill_keeps h

theorem claiming_keeps {s₀ s : State} {k : State → State} (hk : ∀ s, Keeps s₀ s → Keeps s₀ (k s)) (h : Keeps s₀ s) {hh : Nat}
    {c : Cmd} {softmax : Bool} {first : Nat} {vals : List (Nat × Nat)} :
    Keeps s₀ (claiming s hh c softmax first vals k) := by
  unfold claiming
  split
  · exact failRunning_keeps h
  · have hc := claimRoom_keeps h (hh := hh) (c := c) (n := vals.length)
    split
    · next e => exact failRunning_keeps (show Keeps s₀ _ by rw [e] at hc; exact hc)
    · next e => exact cntHearth_keeps (wr_keeps (show Keeps s₀ _ by rw [e] at hc; exact hc))
    · next e => exact hk _ (writeRows_keeps (show Keeps s₀ _ by rw [e] at hc; exact hc))

theorem rowWords_keeps {s₀ s : State} (h : Keeps s₀ s) {h : Nat} {errs : List Nat} {cmd : Option CmdId} :
    Keeps s₀ (rowWords s h errs cmd).1 := by
  unfold rowWords
  repeat' (first
    | with_reducible assumption | split | with_reducible apply cntHearth_keeps | with_reducible apply wr_keeps
    | with_reducible apply emberCode_keeps | with_reducible apply satAdd_keeps
    | (with_reducible apply each_keeps; intro _ _ _) | dsimp -zeta only)

theorem readBuffer_keeps {s₀ s : State} (h : Keeps s₀ s) {h : Nat} {cmd : CmdId} :
    Keeps s₀ (readBuffer s h cmd).1 := by
  unfold readBuffer
  repeat' (first
    | with_reducible assumption | (unfold x; clear x)
    | (extract_lets +onlyGivenNames x; first | (refine Keeps.bind (s := s₀) (x := x) ?_ ?_; intro _; clear_value x; revert x; intros) | (clear_value x; revert x; intros))
    | with_reducible apply rowWords_keeps | dsimp -zeta only | with_reducible apply Keeps.upd)

theorem readRows_keeps {s₀ s : State} (h : Keeps s₀ s) {h : Nat} {c : Cmd} {softmax : Bool} {first n : Nat} :
    Keeps s₀ (readRows s h c softmax first n).1 := by
  unfold readRows
  repeat' (first
    | with_reducible assumption | (unfold x; clear x)
    | (extract_lets +onlyGivenNames x; first | (refine Keeps.bind (s := s₀) (x := x) ?_ ?_; intro _; clear_value x; revert x; intros) | (clear_value x; revert x; intros))
    | split | with_reducible apply rowWords_keeps | with_reducible apply setStat_keeps
    | (with_reducible apply Keeps.fst (e := by with_reducible assumption))
    | (with_reducible apply Keeps.snd (e := by with_reducible assumption))
    | (with_reducible apply Keeps.fst_eq (e := by with_reducible assumption))
    | (with_reducible apply Keeps.snd_eq (e := by with_reducible assumption)) | dsimp -zeta only
    | with_reducible apply Keeps.upd)

theorem rowRan_keeps {s₀ s : State} (h : Keeps s₀ s) {h : Nat} {c : Cmd} {elems : Nat} :
    Keeps s₀ (rowRan s h c elems) := by
  unfold rowRan
  repeat' (first
    | with_reducible assumption | with_reducible apply cntHearth_keeps | with_reducible apply wr_keeps)

theorem maskedRows_keeps {s₀ s : State} (h : Keeps s₀ s) {h : Nat} {c : Cmd} {n : Nat} {note : Bool} :
    Keeps s₀ (maskedRows s h c n note) := by
  unfold maskedRows
  repeat' (first
    | with_reducible assumption | (unfold x; clear x)
    | (extract_lets +onlyGivenNames x; first | (refine Keeps.bind (s := s₀) (x := x) ?_ ?_; intro _; clear_value x; revert x; intros) | (clear_value x; revert x; intros))
    | split | with_reducible apply cntHearth_keeps | with_reducible apply Coll.note_keeps
    | with_reducible apply emberCode_keeps)

theorem execRowFwd_keeps {s₀ s : State} (h : Keeps s₀ s) {h : Fin 16} {seq : BitVec 32} :
    KeepsR s₀ (execRowFwd h seq s) := by
  unfold execRowFwd
  dsimp only
  repeat' (first
    | with_reducible assumption | (unfold x; clear x)
    | (extract_lets +onlyGivenNames x; first | (refine Keeps.bind (s := s₀) (x := x) ?_ ?_; intro _; clear_value x; revert x; intros) | (clear_value x; revert x; intros))
    | split | with_reducible apply KeepsR.next | (with_reducible apply opRow_keeps; intro _ _ _)
    | with_reducible apply wr_keeps | with_reducible apply cmdDone_keeps | (with_reducible apply orFail_keeps; intro _ _ _)
    | with_reducible apply readTensors_keeps | with_reducible apply readBuffer_keeps | with_reducible apply rowRan_keeps
    | with_reducible apply maskedRows_keeps | with_reducible apply storeAndDone_keeps
    | (with_reducible apply claiming_keeps; intro _ _) | (with_reducible apply Keeps.foldl; intro _ _ _)
    | (with_reducible apply Keeps.foldl_fst; intro _ _ _) | (with_reducible apply Keeps.foldl_snd; intro _ _ _)
    | dsimp -zeta only)

theorem storeVals_keeps {s₀ s : State} (h : Keeps s₀ s) {c : Cmd} {o : Opnd} {v : List Nat → FR} :
    Keeps s₀ (storeVals s c o v).1 := by
  unfold storeVals
  repeat' (first
    | with_reducible assumption | (unfold x; clear x)
    | (extract_lets +onlyGivenNames x; first | (refine Keeps.bind (s := s₀) (x := x) ?_ ?_; intro _; clear_value x; revert x; intros) | (clear_value x; revert x; intros))
    | split | with_reducible apply storeTensor_keeps | (with_reducible apply Keeps.fst (e := by with_reducible assumption))
    | (with_reducible apply Keeps.snd (e := by with_reducible assumption))
    | (with_reducible apply Keeps.fst_eq (e := by with_reducible assumption))
    | (with_reducible apply Keeps.snd_eq (e := by with_reducible assumption)) | dsimp -zeta only
    | with_reducible apply Keeps.upd)

theorem reportMore_keeps {s₀ s : State} (h : Keeps s₀ s) {h : Nat} {c : Cmd} {o : Opnd} {r : Report} :
    Keeps s₀ (reportMore s h c o r) := by
  unfold reportMore
  repeat' (first
    | with_reducible assumption | split | with_reducible apply reportStore_keeps)

theorem freeTag_keeps {s₀ s : State} (h : Keeps s₀ s) {h : Nat} {c : Cmd} :
    Keeps s₀ (freeTag s h c) := by
  unfold freeTag
  repeat' (first
    | with_reducible assumption | split | with_reducible apply freeStats_keeps | dsimp -zeta only)

theorem rowBwdNorm_keeps {s₀ s : State} (h : Keeps s₀ s) {h : Nat} {c : Cmd} {x dy dx : Desc} {st : List (Nat × Nat)} :
    Keeps s₀ (rowBwdNorm s h c x dy dx st) := by
  unfold rowBwdNorm
  repeat' (first
    | with_reducible assumption | (unfold x; clear x)
    | (extract_lets +onlyGivenNames x; first | (refine Keeps.bind (s := s₀) (x := x) ?_ ?_; intro _; clear_value x; revert x; intros) | (clear_value x; revert x; intros))
    | split | (with_reducible apply storing_keeps; intro _ _) | with_reducible apply storeVals_keeps
    | with_reducible apply reportMore_keeps | with_reducible apply reportStore_keeps | with_reducible apply cmdDone_keeps
    | with_reducible apply freeTag_keeps | with_reducible apply rowRan_keeps
    | (with_reducible apply Keeps.foldl; intro _ _ _) | (with_reducible apply Keeps.foldl_fst; intro _ _ _)
    | (with_reducible apply Keeps.foldl_snd; intro _ _ _)
    | (with_reducible apply Keeps.fst (e := by with_reducible assumption))
    | (with_reducible apply Keeps.snd (e := by with_reducible assumption))
    | (with_reducible apply Keeps.fst_eq (e := by with_reducible assumption))
    | (with_reducible apply Keeps.snd_eq (e := by with_reducible assumption)) | dsimp -zeta only)

theorem rowBwdSoft_keeps {s₀ s : State} (h : Keeps s₀ s) {h : Nat} {c : Cmd} {x dy dx : Desc} {st : List (Nat × Nat)} :
    Keeps s₀ (rowBwdSoft s h c x dy dx st) := by
  unfold rowBwdSoft
  repeat' (first
    | with_reducible assumption | (unfold x; clear x)
    | (extract_lets +onlyGivenNames x; first | (refine Keeps.bind (s := s₀) (x := x) ?_ ?_; intro _; clear_value x; revert x; intros) | (clear_value x; revert x; intros))
    | split | (with_reducible apply storing_keeps; intro _ _) | with_reducible apply storeVals_keeps
    | with_reducible apply reportMore_keeps | with_reducible apply reportStore_keeps | with_reducible apply maskedRows_keeps
    | with_reducible apply cmdDone_keeps | with_reducible apply freeTag_keeps | with_reducible apply rowRan_keeps
    | (with_reducible apply Keeps.fst (e := by with_reducible assumption))
    | (with_reducible apply Keeps.snd (e := by with_reducible assumption))
    | (with_reducible apply Keeps.fst_eq (e := by with_reducible assumption))
    | (with_reducible apply Keeps.snd_eq (e := by with_reducible assumption)) | dsimp -zeta only
    | with_reducible apply Keeps.upd)

theorem execRowBwd_keeps {s₀ s : State} (h : Keeps s₀ s) {h : Fin 16} {seq : BitVec 32} :
    KeepsR s₀ (execRowBwd h seq s) := by
  unfold execRowBwd
  repeat' (first
    | with_reducible assumption | (unfold x; clear x)
    | (extract_lets +onlyGivenNames x; first | (refine Keeps.bind (s := s₀) (x := x) ?_ ?_; intro _; clear_value x; revert x; intros) | (clear_value x; revert x; intros))
    | split | with_reducible apply KeepsR.next | (with_reducible apply opRow_keeps; intro _ _ _)
    | with_reducible apply cmdDone_keeps | with_reducible apply freeTag_keeps
    | (with_reducible apply orFail_keeps; intro _ _ _) | with_reducible apply readRows_keeps
    | (with_reducible apply storing_keeps; intro _ _) | with_reducible apply storeTensor_keeps
    | with_reducible apply reportStore_keeps | with_reducible apply rowRan_keeps | with_reducible apply readTensors_keeps
    | with_reducible apply failRunning_keeps | (with_reducible apply claiming_keeps; intro _ _)
    | with_reducible apply readRanges_keeps | with_reducible apply readBuffer_keeps | with_reducible apply rowBwdSoft_keeps
    | with_reducible apply rowBwdNorm_keeps | (with_reducible apply Keeps.fst (e := by with_reducible assumption))
    | (with_reducible apply Keeps.snd (e := by with_reducible assumption))
    | (with_reducible apply Keeps.fst_eq (e := by with_reducible assumption))
    | (with_reducible apply Keeps.snd_eq (e := by with_reducible assumption)) | dsimp -zeta only
    | with_reducible apply Keeps.upd)

end Sys2Proof.Machine
end

