-- ==== Sys2Proof/Laws/Keeps/Kv.lean ====
section
/-! SUPPORT. What the operations of Machine/Kv.lean keep (`Keeps`). -/

namespace Sys2Proof.Machine

theorem KvRec.setSeqState_keeps {s₀ s : State} (h : Keeps s₀ s) {r : KvRec} {sq v : Nat} :
    Keeps s₀ (KvRec.setSeqState s r sq v) := by
  unfold KvRec.setSeqState
  repeat' (first
    | with_reducible assumption | with_reducible apply poke_keeps)

theorem kvTouch_keeps {s₀ s : State} (h : Keeps s₀ s) {h : Nat} {c : Cmd} {reads writes : List (Nat × Nat)} :
    Keeps s₀ (kvTouch s h c reads writes).1 := by
  unfold kvTouch
  repeat' (first
    | with_reducible assumption | (unfold x; clear x)
    | (extract_lets +onlyGivenNames x; first | (refine Keeps.bind (s := s₀) (x := x) ?_ ?_; intro _; clear_value x; revert x; intros) | (clear_value x; revert x; intros))
    | split | with_reducible apply touchRanges_keeps | (with_reducible apply Keeps.fst (e := by with_reducible assumption))
    | (with_reducible apply Keeps.snd (e := by with_reducible assumption))
    | (with_reducible apply Keeps.fst_eq (e := by with_reducible assumption))
    | (with_reducible apply Keeps.snd_eq (e := by with_reducible assumption)) | dsimp -zeta only
    | with_reducible apply Keeps.upd)

theorem KvRec.popN_keeps {s₀ s : State} (h : Keeps s₀ s) {r : KvRec} {h : Nat} {c : Cmd} {n : Nat} :
    Keeps s₀ (KvRec.popN s r h c n).1 := by
  unfold KvRec.popN
  repeat' (first
    | with_reducible assumption | (unfold x; clear x)
    | (extract_lets +onlyGivenNames x; first | (refine Keeps.bind (s := s₀) (x := x) ?_ ?_; intro _; clear_value x; revert x; intros) | (clear_value x; revert x; intros))
    | split | with_reducible apply kvTouch_keeps | with_reducible apply poke_keeps
    | (with_reducible apply Keeps.fst (e := by with_reducible assumption))
    | (with_reducible apply Keeps.snd (e := by with_reducible assumption))
    | (with_reducible apply Keeps.fst_eq (e := by with_reducible assumption))
    | (with_reducible apply Keeps.snd_eq (e := by with_reducible assumption)) | dsimp -zeta only
    | with_reducible apply Keeps.upd)

theorem KvRec.push_keeps {s₀ s : State} (h : Keeps s₀ s) {r : KvRec} {h : Nat} {c : Cmd} {ps : List Nat} :
    Keeps s₀ (KvRec.push s r h c ps).1 := by
  unfold KvRec.push
  repeat' (first
    | with_reducible assumption | (unfold x; clear x)
    | (extract_lets +onlyGivenNames x; first | (refine Keeps.bind (s := s₀) (x := x) ?_ ?_; intro _; clear_value x; revert x; intros) | (clear_value x; revert x; intros))
    | split | with_reducible apply kvTouch_keeps | with_reducible apply poke_keeps
    | (with_reducible apply each_keeps; intro _ _ _) | (with_reducible apply Keeps.fst (e := by with_reducible assumption))
    | (with_reducible apply Keeps.snd (e := by with_reducible assumption))
    | (with_reducible apply Keeps.fst_eq (e := by with_reducible assumption))
    | (with_reducible apply Keeps.snd_eq (e := by with_reducible assumption)) | dsimp -zeta only
    | with_reducible apply Keeps.upd)

theorem setWalk_keeps {s₀ s : State} (h : Keeps s₀ s) {w : KvWalk} :
    Keeps s₀ (setWalk s w) := by
  unfold setWalk
  repeat' (first
    | with_reducible assumption | (unfold x; clear x)
    | (extract_lets +onlyGivenNames x; first | (refine Keeps.bind (s := s₀) (x := x) ?_ ?_; intro _; clear_value x; revert x; intros) | (clear_value x; revert x; intros))
    | split | dsimp -zeta only | with_reducible apply Keeps.upd)

theorem dropWalk_keeps {s₀ s : State} (h : Keeps s₀ s) {w : KvWalk} :
    Keeps s₀ (dropWalk s w) := by
  unfold dropWalk
  repeat' (first
    | with_reducible assumption | (unfold x; clear x)
    | (extract_lets +onlyGivenNames x; first | (refine Keeps.bind (s := s₀) (x := x) ?_ ?_; intro _; clear_value x; revert x; intros) | (clear_value x; revert x; intros))
    | dsimp -zeta only | with_reducible apply Keeps.upd)

theorem preempt_keeps {s₀ s : State} (h : Keeps s₀ s) {r : KvRec} {w : KvWalk} {k sq n : Nat} :
    Keeps s₀ (preempt s r w k sq n).1 := by
  induction n generalizing s w with
  | zero => exact h
  | succ n ih =>
    unfold preempt
    split
    · exact h
    · split
      · exact h
      · exact ih (KvRec.setSeqState_keeps h)

theorem takePages_keeps {s₀ s : State} (h : Keeps s₀ s) {r : KvRec} {w : KvWalk} {c : Cmd} {k sq : Nat} :
    Keeps s₀ (takePages s r w c k sq).1 := by
  unfold takePages
  repeat' (first
    | with_reducible assumption | (unfold x; clear x)
    | (extract_lets +onlyGivenNames x; first | (refine Keeps.bind (s := s₀) (x := x) ?_ ?_; intro _; clear_value x; revert x; intros) | (clear_value x; revert x; intros))
    | split | dsimp only | with_reducible apply KvRec.popN_keeps | with_reducible apply kvTouch_keeps
    | with_reducible apply preempt_keeps | with_reducible apply satAdd_keeps | with_reducible apply emberCode_keeps
    | (with_reducible apply Keeps.fst (e := by with_reducible assumption))
    | (with_reducible apply Keeps.snd (e := by with_reducible assumption))
    | (with_reducible apply Keeps.fst_eq (e := by with_reducible assumption))
    | (with_reducible apply Keeps.snd_eq (e := by with_reducible assumption)) | dsimp -zeta only
    | with_reducible apply Keeps.upd)

theorem giveBack_keeps {s₀ s : State} (h : Keeps s₀ s) {r : KvRec} {w : KvWalk} {c : Cmd} :
    Keeps s₀ (giveBack s r w c).1 := by
  unfold giveBack
  repeat' (first
    | with_reducible assumption | (unfold x; clear x)
    | (extract_lets +onlyGivenNames x; first | (refine Keeps.bind (s := s₀) (x := x) ?_ ?_; intro _; clear_value x; revert x; intros) | (clear_value x; revert x; intros))
    | split | with_reducible apply KvRec.push_keeps | with_reducible apply KvRec.setSeqState_keeps
    | (with_reducible apply Keeps.fst (e := by with_reducible assumption))
    | (with_reducible apply Keeps.snd (e := by with_reducible assumption))
    | (with_reducible apply Keeps.fst_eq (e := by with_reducible assumption))
    | (with_reducible apply Keeps.snd_eq (e := by with_reducible assumption)) | dsimp -zeta only
    | with_reducible apply Keeps.upd)

theorem failWalk_keeps {s₀ s : State} (h : Keeps s₀ s) {r : KvRec} {w : KvWalk} {c : Cmd} {code : Nat} :
    Keeps s₀ (failWalk s r w c code) := by
  have hg := giveBack_keeps h (r := r) (w := w) (c := c)
  unfold failWalk
  refine failRunning_keeps ?_
  split
  · exact dropWalk_keeps hg
  · exact setWalk_keeps hg

theorem latchWalk_keeps {s₀ s : State} (h : Keeps s₀ s) {r : KvRec} {w : KvWalk} {seqs : List Nat} :
    Keeps s₀ (latchWalk s r w seqs) := by
  unfold latchWalk
  repeat' (first
    | with_reducible assumption | (unfold x; clear x)
    | (extract_lets +onlyGivenNames x; first | (refine Keeps.bind (s := s₀) (x := x) ?_ ?_; intro _; clear_value x; revert x; intros) | (clear_value x; revert x; intros))
    | split | with_reducible apply poke_keeps | with_reducible apply wr_keeps | with_reducible apply setWalk_keeps
    | (with_reducible apply each_keeps; intro _ _ _) | (with_reducible apply Keeps.foldl; intro _ _ _)
    | (with_reducible apply Keeps.foldl_fst; intro _ _ _) | (with_reducible apply Keeps.foldl_snd; intro _ _ _)
    | dsimp -zeta only | with_reducible apply Keeps.upd)

theorem releaseWalk_keeps {s₀ s : State} (h : Keeps s₀ s) {w : KvWalk} {c : Cmd} :
    Keeps s₀ (releaseWalk s w c) := by
  unfold releaseWalk
  repeat' (first
    | with_reducible assumption | (unfold x; clear x)
    | (extract_lets +onlyGivenNames x; first | (refine Keeps.bind (s := s₀) (x := x) ?_ ?_; intro _; clear_value x; revert x; intros) | (clear_value x; revert x; intros))
    | split | with_reducible apply dropWalk_keeps | with_reducible apply kvTouch_keeps
    | with_reducible apply failRunning_keeps | with_reducible apply wr_keeps | with_reducible apply poke_keeps
    | (with_reducible apply each_keeps; intro _ _ _) | (with_reducible apply Keeps.fst (e := by with_reducible assumption))
    | (with_reducible apply Keeps.snd (e := by with_reducible assumption))
    | (with_reducible apply Keeps.fst_eq (e := by with_reducible assumption))
    | (with_reducible apply Keeps.snd_eq (e := by with_reducible assumption)) | dsimp -zeta only
    | with_reducible apply Keeps.upd)

theorem allocWalk_keeps {s₀ s : State} (h : Keeps s₀ s) {r : KvRec} {w : KvWalk} {c : Cmd} {n : Nat} :
    Keeps s₀ (allocWalk s r w c n) := by
  induction n generalizing s w with
  | zero => unfold allocWalk; exact setWalk_keeps h
  | succ n ih =>
    unfold allocWalk
    dsimp only
    split
    · exact setWalk_keeps h
    · split
      · next e => exact setWalk_keeps (Keeps.fst (kvTouch_keeps h) e)
      · next e => exact failWalk_keeps (Keeps.fst (kvTouch_keeps h) e)
      · next e =>
        have ht := Keeps.fst (kvTouch_keeps h) e
        split
        · exact failWalk_keeps ht
        · split <;> next e' => first
            | with_reducible exact ih (Keeps.fst (takePages_keeps ht) e')
            | with_reducible exact setWalk_keeps (Keeps.fst (takePages_keeps ht) e')
            | with_reducible exact failWalk_keeps (Keeps.fst (takePages_keeps ht) e')

theorem resumeSeq_keeps {s₀ s : State} (h : Keeps s₀ s) {r : KvRec} {w : KvWalk} {c : Cmd} {q : Nat} :
    Keeps s₀ (resumeSeq s r w c q) := by
  unfold resumeSeq
  repeat' (first
    | with_reducible assumption | (unfold x; clear x)
    | (extract_lets +onlyGivenNames x; first | (refine Keeps.bind (s := s₀) (x := x) ?_ ?_; intro _; clear_value x; revert x; intros) | (clear_value x; revert x; intros))
    | split | with_reducible apply takePages_keeps | with_reducible apply setWalk_keeps
    | with_reducible apply failWalk_keeps | (with_reducible apply Keeps.fst (e := by with_reducible assumption))
    | (with_reducible apply Keeps.snd (e := by with_reducible assumption))
    | (with_reducible apply Keeps.fst_eq (e := by with_reducible assumption))
    | (with_reducible apply Keeps.snd_eq (e := by with_reducible assumption)) | dsimp -zeta only
    | with_reducible apply Keeps.upd)

theorem latchRequest_keeps {s₀ s : State} (h : Keeps s₀ s) {r : KvRec} {w : KvWalk} {c : Cmd} :
    Keeps s₀ (latchRequest s r w c) := by
  unfold latchRequest
  repeat' (first
    | with_reducible assumption | (unfold x; clear x)
    | (extract_lets +onlyGivenNames x; first | (refine Keeps.bind (s := s₀) (x := x) ?_ ?_; intro _; clear_value x; revert x; intros) | (clear_value x; revert x; intros))
    | split | with_reducible apply failWalk_keeps | with_reducible apply touchRanges_keeps
    | with_reducible apply setWalk_keeps | with_reducible apply kvTouch_keeps | with_reducible apply resumeSeq_keeps
    | with_reducible apply KvRec.setSeqState_keeps | with_reducible apply latchWalk_keeps
    | (with_reducible apply Keeps.fst (e := by with_reducible assumption))
    | (with_reducible apply Keeps.snd (e := by with_reducible assumption))
    | (with_reducible apply Keeps.fst_eq (e := by with_reducible assumption))
    | (with_reducible apply Keeps.snd_eq (e := by with_reducible assumption)) | dsimp -zeta only
    | with_reducible apply Keeps.upd)

theorem kvGoOn_keeps {s₀ s : State} (h : Keeps s₀ s) {r : KvRec} {w : KvWalk} {c : Cmd} :
    Keeps s₀ (kvGoOn s r w c) := by
  unfold kvGoOn
  repeat' (first
    | with_reducible assumption | (unfold x; clear x)
    | (extract_lets +onlyGivenNames x; first | (refine Keeps.bind (s := s₀) (x := x) ?_ ?_; intro _; clear_value x; revert x; intros) | (clear_value x; revert x; intros))
    | split | with_reducible apply giveBack_keeps | with_reducible apply setWalk_keeps
    | with_reducible apply releaseWalk_keeps | with_reducible apply cmdDone_keeps | with_reducible apply resumeSeq_keeps
    | with_reducible apply latchRequest_keeps | with_reducible apply allocWalk_keeps
    | (with_reducible apply Keeps.fst (e := by with_reducible assumption))
    | (with_reducible apply Keeps.snd (e := by with_reducible assumption))
    | (with_reducible apply Keeps.fst_eq (e := by with_reducible assumption))
    | (with_reducible apply Keeps.snd_eq (e := by with_reducible assumption)) | dsimp -zeta only
    | with_reducible apply Keeps.upd)

theorem showWalk_keeps {s₀ s : State} (h : Keeps s₀ s) {h seq : Nat} :
    Keeps s₀ (showWalk s h seq) := by
  unfold showWalk
  repeat' (first
    | with_reducible assumption | (unfold x; clear x)
    | (extract_lets +onlyGivenNames x; first | (refine Keeps.bind (s := s₀) (x := x) ?_ ?_; intro _; clear_value x; revert x; intros) | (clear_value x; revert x; intros))
    | split | with_reducible apply wr_keeps | (with_reducible apply Keeps.fst (e := by with_reducible assumption))
    | (with_reducible apply Keeps.snd (e := by with_reducible assumption))
    | (with_reducible apply Keeps.fst_eq (e := by with_reducible assumption))
    | (with_reducible apply Keeps.snd_eq (e := by with_reducible assumption)) | dsimp -zeta only
    | with_reducible apply Keeps.upd)

theorem kvRow_keeps {s₀ s : State} {body : State → KvRec → KvWalk → Cmd → State}
    (hb : ∀ s r w c, Keeps s₀ s → Keeps s₀ (body s r w c)) (h : Keeps s₀ s) {hh : Fin 16} {seq : BitVec 32} :
    KeepsR s₀ (kvRow hh seq s body) := by
  unfold kvRow
  split
  · exact KeepsR.next h
  · dsimp only
    split
    · exact KeepsR.next h
    · split
      · exact KeepsR.next (showWalk_keeps (hb _ _ _ _ h))
      · split
        · exact KeepsR.next h
        · exact KeepsR.next (showWalk_keeps (hb _ _ _ _ h))

theorem execKvHomeRequest_keeps {s₀ s : State} (h : Keeps s₀ s) {h : Fin 16} {seq : BitVec 32} :
    KeepsR s₀ (execKvHomeRequest h seq s) := by
  unfold execKvHomeRequest
  repeat' (first
    | with_reducible assumption | with_reducible apply KeepsR.next | (with_reducible apply kvRow_keeps; intro _ _ _ _ _)
    | with_reducible apply kvGoOn_keeps)

theorem copyPages_keeps {s₀ s : State} (h : Keeps s₀ s) {who : Nat} {cmd : Option CmdId} {n : Nat} {ps : List (Nat × Nat)} :
    Keeps s₀ (copyPages s who cmd n ps).1 := by
  induction ps generalizing s with
  | nil => exact h
  | cons p ps ih =>
    unfold copyPages
    have hr := memRead_keeps h (who := who) (a := p.1) (n := n) (cmd := cmd)
    split
    · next e => exact Keeps.fst hr e
    · next e => exact Keeps.fst hr e
    · next t d e =>
      have hw := memWrite_keeps (Keeps.fst hr e) (who := who) (a := p.2) (d := d) (cmd := cmd)
      split
      · next e' => exact ih (Keeps.fst hw e')
      · exact hw

theorem swapPages_keeps {s₀ s : State} (h : Keeps s₀ s) {r : KvRec} {w : KvWalk} {c : Cmd} {sq : Nat} {ps : List (Nat × Nat × Nat)} :
    Keeps s₀ (swapPages s r w c sq ps).1 := by
  unfold swapPages
  repeat' (first
    | with_reducible assumption | (unfold x; clear x)
    | (extract_lets +onlyGivenNames x; first | (refine Keeps.bind (s := s₀) (x := x) ?_ ?_; intro _; clear_value x; revert x; intros) | (clear_value x; revert x; intros))
    | split | with_reducible apply copyPages_keeps | with_reducible apply kvTouch_keeps
    | (with_reducible apply Keeps.fst (e := by with_reducible assumption))
    | (with_reducible apply Keeps.snd (e := by with_reducible assumption))
    | (with_reducible apply Keeps.fst_eq (e := by with_reducible assumption))
    | (with_reducible apply Keeps.snd_eq (e := by with_reducible assumption)) | dsimp -zeta only
    | with_reducible apply Keeps.upd)

theorem thenPush_keeps {s₀ : State} {x : State × Req Unit} (h : Keeps s₀ x.1) {r : KvRec} {w : KvWalk} {c : Cmd} {ps : List Nat} :
    Keeps s₀ (thenPush r w c ps x).1 := by
  unfold thenPush
  split
  · exact KvRec.push_keeps (s := _) h
  · exact h

theorem execSwapOutComplete_keeps {s₀ s : State} (h : Keeps s₀ s) {h : Fin 16} {seq : BitVec 32} :
    KeepsR s₀ (execSwapOutComplete h seq s) := by
  unfold execSwapOutComplete
  repeat' (first
    | with_reducible assumption | (unfold x; clear x)
    | (extract_lets +onlyGivenNames x; first | (refine Keeps.bind (s := s₀) (x := x) ?_ ?_; intro _; clear_value x; revert x; intros) | (clear_value x; revert x; intros))
    | split | with_reducible apply KeepsR.next | (with_reducible apply kvRow_keeps; intro _ _ _ _ _)
    | with_reducible apply thenPush_keeps | with_reducible apply swapPages_keeps | with_reducible apply failWalk_keeps
    | with_reducible apply KvRec.setSeqState_keeps | with_reducible apply poke_keeps | with_reducible apply emberCode_keeps
    | with_reducible apply satAdd_keeps | with_reducible apply wr_keeps | with_reducible apply kvGoOn_keeps
    | with_reducible apply setWalk_keeps | (with_reducible apply each_keeps; intro _ _ _)
    | (with_reducible apply Keeps.fst (e := by with_reducible assumption))
    | (with_reducible apply Keeps.snd (e := by with_reducible assumption))
    | (with_reducible apply Keeps.fst_eq (e := by with_reducible assumption))
    | (with_reducible apply Keeps.snd_eq (e := by with_reducible assumption)) | dsimp -zeta only
    | with_reducible apply Keeps.upd)

theorem execSwapInComplete_keeps {s₀ s : State} (h : Keeps s₀ s) {h : Fin 16} {seq : BitVec 32} :
    KeepsR s₀ (execSwapInComplete h seq s) := by
  unfold execSwapInComplete
  repeat' (first
    | with_reducible assumption | (unfold x; clear x)
    | (extract_lets +onlyGivenNames x; first | (refine Keeps.bind (s := s₀) (x := x) ?_ ?_; intro _; clear_value x; revert x; intros) | (clear_value x; revert x; intros))
    | split | with_reducible apply KeepsR.next | (with_reducible apply kvRow_keeps; intro _ _ _ _ _)
    | with_reducible apply swapPages_keeps | with_reducible apply failWalk_keeps | with_reducible apply poke_keeps
    | with_reducible apply emberCode_keeps | with_reducible apply KvRec.setSeqState_keeps
    | with_reducible apply setWalk_keeps | with_reducible apply satAdd_keeps | with_reducible apply kvGoOn_keeps
    | (with_reducible apply each_keeps; intro _ _ _) | (with_reducible apply Keeps.fst (e := by with_reducible assumption))
    | (with_reducible apply Keeps.snd (e := by with_reducible assumption))
    | (with_reducible apply Keeps.fst_eq (e := by with_reducible assumption))
    | (with_reducible apply Keeps.snd_eq (e := by with_reducible assumption)) | dsimp -zeta only
    | with_reducible apply Keeps.upd)

theorem execKvRetry_keeps {s₀ s : State} (h : Keeps s₀ s) {h : Fin 16} {seq : BitVec 32} :
    KeepsR s₀ (execKvRetry h seq s) := by
  unfold execKvRetry
  repeat' (first
    | with_reducible assumption | split | with_reducible apply KeepsR.next
    | (with_reducible apply kvRow_keeps; intro _ _ _ _ _) | with_reducible apply kvGoOn_keeps | dsimp -zeta only)

theorem setCommit_keeps {s₀ s : State} (h : Keeps s₀ s) {x : KvCommit} :
    Keeps s₀ (setCommit s x) := by
  unfold setCommit
  repeat' (first
    | with_reducible assumption | (unfold x; clear x)
    | (extract_lets +onlyGivenNames x; first | (refine Keeps.bind (s := s₀) (x := x) ?_ ?_; intro _; clear_value x; revert x; intros) | (clear_value x; revert x; intros))
    | split | dsimp -zeta only | with_reducible apply Keeps.upd)

theorem dropCommit_keeps {s₀ s : State} (h : Keeps s₀ s) {x : KvCommit} :
    Keeps s₀ (dropCommit s x) := by
  unfold dropCommit
  repeat' (first
    | with_reducible assumption | (unfold x; clear x)
    | (extract_lets +onlyGivenNames x; first | (refine Keeps.bind (s := s₀) (x := x) ?_ ?_; intro _; clear_value x; revert x; intros) | (clear_value x; revert x; intros))
    | dsimp -zeta only | with_reducible apply Keeps.upd)

theorem ptCommitRead_keeps {s₀ s : State} (k : Keeps s₀ s) {h : Fin 16} {r : KvRec} {c : Cmd} {n : Nat} :
    Keeps s₀ (execPtCommit.readList h s r c n).1 := by
  unfold execPtCommit.readList
  split
  · next e => exact memRead_keeps (Keeps.fst (kvTouch_keeps k) e)
  · next e => exact Keeps.fst (kvTouch_keeps k) e
  · next e => exact Keeps.fst (kvTouch_keeps k) e

theorem ptCommitPublish_keeps {s₀ s : State} (k : Keeps s₀ s) {h : Fin 16} {r : KvRec} {c : Cmd} {x : KvCommit} :
    Keeps s₀ (execPtCommit.publish h s r c x) := by
  unfold execPtCommit.publish
  dsimp only
  split
  · next e => exact setCommit_keeps (Keeps.fst (ptCommitRead_keeps k) e)
  · next e => exact failRunning_keeps (dropCommit_keeps (Keeps.fst (ptCommitRead_keeps k) e))
  · next e =>
    have ht := Keeps.fst (ptCommitRead_keeps k) e
    split
    · exact failRunning_keeps (dropCommit_keeps ht)
    · split
      · next e' => exact setCommit_keeps (Keeps.fst (kvTouch_keeps ht) e')
      · next e' => exact failRunning_keeps (dropCommit_keeps (Keeps.fst (kvTouch_keeps ht) e'))
      · next e' => exact setCommit_keeps (poke_keeps (poke_keeps (Keeps.fst (kvTouch_keeps ht) e')))

theorem execPtCommit_keeps {s₀ s : State} (k : Keeps s₀ s) {h : Fin 16} {seq : BitVec 32} :
    KeepsR s₀ (execPtCommit h seq s) := by
  unfold execPtCommit
  repeat' (first
    | with_reducible assumption | (unfold x; clear x)
    | (extract_lets +onlyGivenNames x; first | (refine Keeps.bind (s := s₀) (x := x) ?_ ?_; intro _; clear_value x; revert x; intros) | (clear_value x; revert x; intros))
    | split | with_reducible apply KeepsR.next | with_reducible apply ptCommitPublish_keeps
    | (with_reducible apply opRow_keeps; intro _ _ _) | with_reducible apply setCommit_keeps
    | with_reducible apply failRunning_keeps | with_reducible apply dropCommit_keeps | with_reducible apply kvTouch_keeps
    | with_reducible apply poke_keeps | with_reducible apply memRead_keeps
    | (with_reducible apply Keeps.fst (e := by with_reducible assumption))
    | (with_reducible apply Keeps.snd (e := by with_reducible assumption))
    | (with_reducible apply Keeps.fst_eq (e := by with_reducible assumption))
    | (with_reducible apply Keeps.snd_eq (e := by with_reducible assumption)) | dsimp -zeta only
    | with_reducible apply Keeps.upd)

theorem execPtCommitRelease_keeps {s₀ s : State} (h : Keeps s₀ s) {h : Fin 16} {seq : BitVec 32} :
    KeepsR s₀ (execPtCommitRelease h seq s) := by
  unfold execPtCommitRelease
  repeat' (first
    | with_reducible assumption | (unfold x; clear x)
    | (extract_lets +onlyGivenNames x; first | (refine Keeps.bind (s := s₀) (x := x) ?_ ?_; intro _; clear_value x; revert x; intros) | (clear_value x; revert x; intros))
    | split | with_reducible apply KeepsR.next | (with_reducible apply opRow_keeps; intro _ _ _)
    | with_reducible apply failRunning_keeps | with_reducible apply dropCommit_keeps | with_reducible apply kvTouch_keeps
    | with_reducible apply memRead_keeps | with_reducible apply memWrite_keeps | with_reducible apply KvRec.push_keeps
    | with_reducible apply cmdDone_keeps | (with_reducible apply Keeps.fst (e := by with_reducible assumption))
    | (with_reducible apply Keeps.snd (e := by with_reducible assumption))
    | (with_reducible apply Keeps.fst_eq (e := by with_reducible assumption))
    | (with_reducible apply Keeps.snd_eq (e := by with_reducible assumption)) | dsimp -zeta only
    | with_reducible apply Keeps.upd)

end Sys2Proof.Machine
end

