-- ==== Sys2Proof/Laws/Keeps/Attn.lean ====
section
/-! SUPPORT. What the operations of Machine/Attn.lean keep (`Keeps`). -/

namespace Sys2Proof.Machine

theorem storeNew_keeps {s₀ s : State} (h : Keeps s₀ s) {c : Cmd} {r : KvRec} {w : KvWalk} {src : Desc} {value : Bool} {b : Nat} :
    Keeps s₀ (storeNew s c r w src value b).1 := by
  unfold storeNew
  repeat' (first
    | with_reducible assumption | (unfold x; clear x)
    | (extract_lets +onlyGivenNames x; first | (refine Keeps.bind (s := s₀) (x := x) ?_ ?_; intro _; clear_value x; revert x; intros) | (clear_value x; revert x; intros))
    | split | with_reducible apply storeTensor_keeps | (with_reducible apply Keeps.foldl; intro _ _ _)
    | (with_reducible apply Keeps.foldl_fst; intro _ _ _) | (with_reducible apply Keeps.foldl_snd; intro _ _ _)
    | (with_reducible apply Keeps.fst (e := by with_reducible assumption))
    | (with_reducible apply Keeps.snd (e := by with_reducible assumption))
    | (with_reducible apply Keeps.fst_eq (e := by with_reducible assumption))
    | (with_reducible apply Keeps.snd_eq (e := by with_reducible assumption)) | dsimp -zeta only
    | with_reducible apply Keeps.upd)

theorem writeEntries_keeps {s₀ s : State} (h : Keeps s₀ s) {r : KvRec} {w : KvWalk} {lq q : Nat} :
    Keeps s₀ (writeEntries s r w lq q) := by
  unfold writeEntries
  repeat' (first
    | with_reducible assumption | (unfold x; clear x)
    | (extract_lets +onlyGivenNames x; first | (refine Keeps.bind (s := s₀) (x := x) ?_ ?_; intro _; clear_value x; revert x; intros) | (clear_value x; revert x; intros))
    | split | with_reducible apply poke_keeps | (with_reducible apply each_keeps; intro _ _ _) | dsimp -zeta only)

theorem appendWalk_keeps {s₀ s : State} (h : Keeps s₀ s) {h : Nat} {c : Cmd} {r : KvRec} {w : KvWalk} :
    Keeps s₀ (appendWalk s h c r w) := by
  unfold appendWalk
  dsimp only
  repeat' (first
    | with_reducible assumption | (unfold x; clear x)
    | (extract_lets +onlyGivenNames x; first | (refine Keeps.bind (s := s₀) (x := x) ?_ ?_; intro _; clear_value x; revert x; intros) | (clear_value x; revert x; intros))
    | split | with_reducible apply storeNew_keeps | with_reducible apply reportStore_keeps
    | with_reducible apply writeEntries_keeps | (with_reducible apply each_keeps; intro _ _ _)
    | (with_reducible apply Keeps.foldl; intro _ _ _) | (with_reducible apply Keeps.foldl_fst; intro _ _ _)
    | (with_reducible apply Keeps.foldl_snd; intro _ _ _)
    | (with_reducible apply Keeps.fst (e := by with_reducible assumption))
    | (with_reducible apply Keeps.snd (e := by with_reducible assumption))
    | (with_reducible apply Keeps.fst_eq (e := by with_reducible assumption))
    | (with_reducible apply Keeps.snd_eq (e := by with_reducible assumption)) | dsimp -zeta only)

theorem atCount_keeps {s₀ s : State} (h : Keeps s₀ s) {h : Nat} {c : Cmd} {dw : Nat} {lens : List Nat} {hq lq : Nat} :
    Keeps s₀ (atCount s h c dw lens hq lq) := by
  unfold atCount
  repeat' (first
    | with_reducible assumption | (unfold x; clear x)
    | (extract_lets +onlyGivenNames x; first | (refine Keeps.bind (s := s₀) (x := x) ?_ ?_; intro _; clear_value x; revert x; intros) | (clear_value x; revert x; intros))
    | split | with_reducible apply cntHearth_keeps | with_reducible apply wr_keeps | with_reducible apply meTiming_keeps
    | with_reducible apply meRan_keeps | with_reducible apply endLive_keeps | (with_reducible apply each_keeps; intro _ _ _)
    | (with_reducible apply Keeps.foldl; intro _ _ _) | (with_reducible apply Keeps.foldl_fst; intro _ _ _)
    | (with_reducible apply Keeps.foldl_snd; intro _ _ _) | dsimp -zeta only)

theorem runAttn_keeps {s₀ s : State} (h : Keeps s₀ s) {h : Nat} {c : Cmd} {q o : Desc} {w : Option KvWalk} {lens : List Nat} :
    Keeps s₀ (runAttn s h c q o w lens) := by
  unfold runAttn
  dsimp only
  repeat' (first
    | with_reducible assumption | (unfold x; clear x)
    | (extract_lets +onlyGivenNames x; first | (refine Keeps.bind (s := s₀) (x := x) ?_ ?_; intro _; clear_value x; revert x; intros) | (clear_value x; revert x; intros))
    | split | with_reducible apply readMes_keeps | with_reducible apply failRunning_keeps
    | with_reducible apply faultMe_keeps | with_reducible apply partWritten_keeps
    | (with_reducible apply orFail_keeps; intro _ _ _) | with_reducible apply readBuffer_keeps
    | with_reducible apply rowRan_keeps | with_reducible apply wr_keeps | with_reducible apply maskedRows_keeps
    | with_reducible apply atCount_keeps | with_reducible apply storeAndDone_keeps
    | (with_reducible apply claiming_keeps; intro _ _) | (with_reducible apply Keeps.foldl; intro _ _ _)
    | (with_reducible apply Keeps.foldl_fst; intro _ _ _) | (with_reducible apply Keeps.foldl_snd; intro _ _ _)
    | (with_reducible apply Keeps.fst (e := by with_reducible assumption))
    | (with_reducible apply Keeps.snd (e := by with_reducible assumption))
    | (with_reducible apply Keeps.fst_eq (e := by with_reducible assumption))
    | (with_reducible apply Keeps.snd_eq (e := by with_reducible assumption)) | dsimp -zeta only
    | with_reducible apply Keeps.upd)

theorem execAttn_keeps {s₀ s : State} (h : Keeps s₀ s) {h : Fin 16} {seq : BitVec 32} :
    KeepsR s₀ (execAttn h seq s) := by
  unfold execAttn
  repeat' (first
    | with_reducible assumption | (unfold x; clear x)
    | (extract_lets +onlyGivenNames x; first | (refine Keeps.bind (s := s₀) (x := x) ?_ ?_; intro _; clear_value x; revert x; intros) | (clear_value x; revert x; intros))
    | split | with_reducible apply KeepsR.next | (with_reducible apply opRow_keeps; intro _ _ _)
    | with_reducible apply cmdDone_keeps | (with_reducible apply orFail_keeps; intro _ _ _)
    | with_reducible apply readTensors_keeps | with_reducible apply touchRanges_keeps
    | with_reducible apply failRunning_keeps | with_reducible apply runAttn_keeps | with_reducible apply setWalk_keeps
    | with_reducible apply appendWalk_keeps | (with_reducible apply Keeps.fst (e := by with_reducible assumption))
    | (with_reducible apply Keeps.snd (e := by with_reducible assumption))
    | (with_reducible apply Keeps.fst_eq (e := by with_reducible assumption))
    | (with_reducible apply Keeps.snd_eq (e := by with_reducible assumption)) | dsimp -zeta only
    | with_reducible apply Keeps.upd)

end Sys2Proof.Machine
end

