-- ==== Sys2Proof/Laws/Keeps/AwlSystem.lean ====
section
/-! SUPPORT. What the operations of Machine/AwlSystem.lean keep (`Keeps`). -/

namespace Sys2Proof.Machine

theorem execCrRead_keeps {s₀ s : State} (h : Keeps s₀ s) {core : Core} {rd : Fin 32} {n : Fin 8} :
    KeepsR s₀ (execCrRead core rd n s) := by
  unfold execCrRead
  repeat' (first
    | with_reducible assumption | with_reducible apply KeepsR.next | with_reducible apply awlReg_keeps | dsimp -zeta only)

theorem execCrWrite_keeps {s₀ s : State} (h : Keeps s₀ s) {core : Core} {ra : Fin 32} {n : Fin 8} :
    KeepsR s₀ (execCrWrite core ra n s) := by
  unfold execCrWrite
  repeat' (first
    | with_reducible assumption | with_reducible apply KeepsR.next | with_reducible apply awlReg_keeps | dsimp -zeta only)

theorem waitStep_keeps {s₀ s : State} {body : State → AwlCore → AwlRes} (hb : ∀ s c, Keeps s₀ s → AwlKeeps s₀ (body s c))
    (h : Keeps s₀ s) {core : Core} {i : Instr} : KeepsR s₀ (waitStep core i body s) := by
  refine awlStep_keeps (fun s c hs => ?_) h
  split
  · exact hs
  · exact hb s c hs

theorem execTackRead_keeps {s₀ s : State} (h : Keeps s₀ s) {core : Core} {rd ra rb : Fin 32} :
    KeepsR s₀ (execTackRead core rd ra rb s) := by
  unfold execTackRead
  repeat' (first
    | with_reducible assumption | (unfold x; clear x)
    | (extract_lets +onlyGivenNames x; first | (refine Keeps.bind (s := s₀) (x := x) ?_ ?_; intro _; clear_value x; revert x; intros) | (clear_value x; revert x; intros))
    | split | with_reducible apply KeepsR.next | (with_reducible apply awlStep_keeps; intro _ _ _)
    | with_reducible apply tackRead_keeps | with_reducible apply AwlKeeps.done | with_reducible apply AwlKeeps.fault
    | with_reducible apply AwlKeeps.wait | with_reducible apply AwlKeeps.stall | with_reducible apply AwlKeeps.halt
    | (with_reducible apply Keeps.fst (e := by with_reducible assumption))
    | (with_reducible apply Keeps.snd (e := by with_reducible assumption))
    | (with_reducible apply Keeps.fst_eq (e := by with_reducible assumption))
    | (with_reducible apply Keeps.snd_eq (e := by with_reducible assumption)) | dsimp -zeta only
    | with_reducible apply Keeps.upd)

theorem execTackWrite_keeps {s₀ s : State} (h : Keeps s₀ s) {core : Core} {rd ra rb : Fin 32} :
    KeepsR s₀ (execTackWrite core rd ra rb s) := by
  unfold execTackWrite
  repeat' (first
    | with_reducible assumption | (unfold x; clear x)
    | (extract_lets +onlyGivenNames x; first | (refine Keeps.bind (s := s₀) (x := x) ?_ ?_; intro _; clear_value x; revert x; intros) | (clear_value x; revert x; intros))
    | split | with_reducible apply KeepsR.next | (with_reducible apply awlStep_keeps; intro _ _ _)
    | with_reducible apply tackWrite_keeps | with_reducible apply lsCheck_keeps | with_reducible apply AwlKeeps.done
    | with_reducible apply AwlKeeps.fault | with_reducible apply AwlKeeps.wait | with_reducible apply AwlKeeps.stall
    | with_reducible apply AwlKeeps.halt | (with_reducible apply Keeps.fst (e := by with_reducible assumption))
    | (with_reducible apply Keeps.snd (e := by with_reducible assumption))
    | (with_reducible apply Keeps.fst_eq (e := by with_reducible assumption))
    | (with_reducible apply Keeps.snd_eq (e := by with_reducible assumption)) | dsimp -zeta only
    | with_reducible apply Keeps.upd)

theorem execTackReadFill_keeps {s₀ s : State} (h : Keeps s₀ s) {core : Core} {n : Nat} :
    KeepsR s₀ (execTackReadFill core n s) := by
  unfold execTackReadFill
  repeat' (first
    | with_reducible assumption | (unfold x; clear x)
    | (extract_lets +onlyGivenNames x; first | (refine Keeps.bind (s := s₀) (x := x) ?_ ?_; intro _; clear_value x; revert x; intros) | (clear_value x; revert x; intros))
    | split | with_reducible apply KeepsR.next | with_reducible apply setCore_keeps
    | (with_reducible apply Keeps.fst (e := by with_reducible assumption))
    | (with_reducible apply Keeps.snd (e := by with_reducible assumption))
    | (with_reducible apply Keeps.fst_eq (e := by with_reducible assumption))
    | (with_reducible apply Keeps.snd_eq (e := by with_reducible assumption)) | with_reducible apply Keeps.upd)

theorem corePut_keeps {s₀ s : State} (h : Keeps s₀ s) {core : Core} {c : AwlCore} {h q : Nat} {x : Handle} :
    Keeps s₀ (corePut s core c h q x).1 := by
  unfold corePut
  repeat' (first
    | with_reducible assumption | (unfold x; clear x)
    | (extract_lets +onlyGivenNames x; first | (refine Keeps.bind (s := s₀) (x := x) ?_ ?_; intro _; clear_value x; revert x; intros) | (clear_value x; revert x; intros))
    | with_reducible apply claimQueue_keeps | dsimp -zeta only | with_reducible apply Keeps.upd)

theorem execAwlQput_keeps {s₀ s : State} (h : Keeps s₀ s) {core : Core} {ra rb : Fin 32} :
    KeepsR s₀ (execAwlQput core ra rb s) := by
  unfold execAwlQput
  repeat' (first
    | with_reducible assumption | (unfold x; clear x)
    | (extract_lets +onlyGivenNames x; first | (refine Keeps.bind (s := s₀) (x := x) ?_ ?_; intro _; clear_value x; revert x; intros) | (clear_value x; revert x; intros))
    | split | with_reducible apply KeepsR.next | (with_reducible apply waitStep_keeps; intro _ _ _)
    | with_reducible apply corePut_keeps | with_reducible apply AwlKeeps.done | with_reducible apply AwlKeeps.fault
    | with_reducible apply AwlKeeps.wait | with_reducible apply AwlKeeps.stall | with_reducible apply AwlKeeps.halt
    | (with_reducible apply Keeps.fst (e := by with_reducible assumption))
    | (with_reducible apply Keeps.snd (e := by with_reducible assumption))
    | (with_reducible apply Keeps.fst_eq (e := by with_reducible assumption))
    | (with_reducible apply Keeps.snd_eq (e := by with_reducible assumption)) | dsimp -zeta only
    | with_reducible apply Keeps.upd)

theorem claimPop_keeps {s₀ s t : State} {a b c d e f : Nat} {x : Handle}
    (k : popQueue (claimQueue s a b c) d e f = some (x, t)) (h : Keeps s₀ s) : Keeps s₀ t := popQueue_keeps (claimQueue_keeps h) k

theorem execQget_keeps {s₀ s : State} (h : Keeps s₀ s) {core : Core} {rd rb : Fin 32} : KeepsR s₀ (execQget core rd rb s) := by
  unfold execQget
  repeat' (first
    | with_reducible assumption | (unfold x; clear x)
    | (extract_lets +onlyGivenNames x; first | (refine Keeps.bind (s := s₀) (x := x) ?_ ?_; intro _; clear_value x; revert x; intros) | (clear_value x; revert x; intros))
    | split | with_reducible apply KeepsR.next
    | (with_reducible exact claimPop_keeps (by with_reducible assumption) (by with_reducible assumption))
    | (with_reducible apply waitStep_keeps; intro _ _ _) | with_reducible apply claimQueue_keeps
    | with_reducible apply AwlKeeps.done | with_reducible apply AwlKeeps.fault | with_reducible apply AwlKeeps.wait
    | with_reducible apply AwlKeeps.stall | with_reducible apply AwlKeeps.halt
    | (with_reducible apply Keeps.fst (e := by with_reducible assumption))
    | (with_reducible apply Keeps.snd (e := by with_reducible assumption))
    | (with_reducible apply Keeps.fst_eq (e := by with_reducible assumption))
    | (with_reducible apply Keeps.snd_eq (e := by with_reducible assumption)) | dsimp -zeta only
    | with_reducible apply Keeps.upd)

theorem tryPop_keeps {s₀ s : State} (k : Keeps s₀ s) {h q ticket : Nat} : Keeps s₀ (tryPop s h q ticket).2 := by
  unfold tryPop
  dsimp only
  split
  · next e => exact popQueue_keeps (claimQueue_keeps k) e
  · exact claimQueue_keeps k

theorem execQtry_keeps {s₀ s : State} (h : Keeps s₀ s) {core : Core} {rd rb : Fin 32} : KeepsR s₀ (execQtry core rd rb s) := by
  refine awlStep_keeps (fun s c hs => ?_) h
  dsimp only
  split
  · exact AwlKeeps.fault hs
  · split
    · exact AwlKeeps.fault hs
    · split
      · exact AwlKeeps.wait hs
      · exact AwlKeeps.done (tryPop_keeps hs)

theorem execWaitOwn_keeps {s₀ s : State} (h : Keeps s₀ s) {core : Core} :
    KeepsR s₀ (execWaitOwn core s) := by
  unfold execWaitOwn
  repeat' (first
    | with_reducible assumption | split | with_reducible apply KeepsR.next
    | (with_reducible apply waitStep_keeps; intro _ _ _) | with_reducible apply AwlKeeps.done
    | with_reducible apply AwlKeeps.fault | with_reducible apply AwlKeeps.wait | with_reducible apply AwlKeeps.stall
    | with_reducible apply AwlKeeps.halt | dsimp -zeta only)

theorem execWaitSeq_keeps {s₀ s : State} (h : Keeps s₀ s) {core : Core} {ra : Fin 32} :
    KeepsR s₀ (execWaitSeq core ra s) := by
  unfold execWaitSeq
  repeat' (first
    | with_reducible assumption | (unfold x; clear x)
    | (extract_lets +onlyGivenNames x; first | (refine Keeps.bind (s := s₀) (x := x) ?_ ?_; intro _; clear_value x; revert x; intros) | (clear_value x; revert x; intros))
    | split | with_reducible apply KeepsR.next | (with_reducible apply waitStep_keeps; intro _ _ _)
    | with_reducible apply AwlKeeps.done | with_reducible apply AwlKeeps.fault | with_reducible apply AwlKeeps.wait
    | with_reducible apply AwlKeeps.stall | with_reducible apply AwlKeeps.halt | dsimp -zeta only)

theorem coreAsks_keeps {s₀ s : State} (h : Keeps s₀ s) {k n : Nat} {implicit : Bool} :
    Keeps s₀ (coreAsks s k n implicit) := by
  unfold coreAsks
  repeat' (first
    | with_reducible assumption | (unfold x; clear x)
    | (extract_lets +onlyGivenNames x; first | (refine Keeps.bind (s := s₀) (x := x) ?_ ?_; intro _; clear_value x; revert x; intros) | (clear_value x; revert x; intros))
    | split | with_reducible apply schedule_keeps | with_reducible apply setDisp_keeps | with_reducible apply Keeps.upd)

theorem execTokRequest_keeps {s₀ s : State} (h : Keeps s₀ s) {core : Core} {n : BitVec 8} :
    KeepsR s₀ (execTokRequest core n s) := by
  unfold execTokRequest
  repeat' (first
    | with_reducible assumption | (unfold x; clear x)
    | (extract_lets +onlyGivenNames x; first | (refine Keeps.bind (s := s₀) (x := x) ?_ ?_; intro _; clear_value x; revert x; intros) | (clear_value x; revert x; intros))
    | split | with_reducible apply KeepsR.next | (with_reducible apply waitStep_keeps; intro _ _ _)
    | with_reducible apply coreAsks_keeps | with_reducible apply AwlKeeps.done | with_reducible apply AwlKeeps.fault
    | with_reducible apply AwlKeeps.wait | with_reducible apply AwlKeeps.stall | with_reducible apply AwlKeeps.halt
    | dsimp -zeta only)

theorem execTokRelease_keeps {s₀ s : State} (h : Keeps s₀ s) {core : Core} :
    KeepsR s₀ (execTokRelease core s) := by
  unfold execTokRelease
  repeat' (first
    | with_reducible assumption | (unfold x; clear x)
    | (extract_lets +onlyGivenNames x; first | (refine Keeps.bind (s := s₀) (x := x) ?_ ?_; intro _; clear_value x; revert x; intros) | (clear_value x; revert x; intros))
    | with_reducible apply KeepsR.next | (with_reducible apply waitStep_keeps; intro _ _ _)
    | with_reducible apply releaseHeld_keeps | with_reducible apply AwlKeeps.done | with_reducible apply AwlKeeps.fault
    | with_reducible apply AwlKeeps.wait | with_reducible apply AwlKeeps.stall | with_reducible apply AwlKeeps.halt
    | dsimp -zeta only | with_reducible apply Keeps.upd)

theorem resumeCore_keeps {s₀ s : State} (h : Keeps s₀ s) {k : Nat} :
    Keeps s₀ (resumeCore s k) := by
  unfold resumeCore
  repeat' (first
    | with_reducible assumption | (unfold x; clear x)
    | (extract_lets +onlyGivenNames x; first | (refine Keeps.bind (s := s₀) (x := x) ?_ ?_; intro _; clear_value x; revert x; intros) | (clear_value x; revert x; intros))
    | with_reducible apply wr_keeps | with_reducible apply updCore_keeps | dsimp -zeta only | with_reducible apply Keeps.upd)

theorem retireWait_keeps {s₀ s : State} (h : Keeps s₀ s) {k : Nat} {f : AwlCore → AwlCore} :
    Keeps s₀ (retireWait s k f) := by
  unfold retireWait
  repeat' (first
    | with_reducible assumption | (unfold x; clear x)
    | (extract_lets +onlyGivenNames x; first | (refine Keeps.bind (s := s₀) (x := x) ?_ ?_; intro _; clear_value x; revert x; intros) | (clear_value x; revert x; intros))
    | with_reducible apply resumeCore_keeps | with_reducible apply retire_keeps | with_reducible apply Keeps.upd)

theorem execAwlWaitEnd_keeps {s₀ s : State} (h : Keeps s₀ s) {core : Core} : KeepsR s₀ (execAwlWaitEnd core s) := by
  unfold execAwlWaitEnd
  dsimp only
  split
  · exact KeepsR.next h
  split
  · exact KeepsR.next h
  split
  · exact KeepsR.next (haltCore_keeps h)
  split
  · refine KeepsR.next ?_
    split
    · exact resumeCore_keeps h
    · exact h
  · refine KeepsR.next ?_
    split
    · exact retireWait_keeps h
    · exact h
  · refine KeepsR.next ?_
    split
    · exact retireWait_keeps h
    · exact h
  · refine KeepsR.next ?_
    split
    · exact retireWait_keeps (setCore_keeps (corePut_keeps h))
    · exact h
  · split
    · next e => exact KeepsR.next (retireWait_keeps (claimPop_keeps e h))
    · exact KeepsR.next (claimQueue_keeps h)
  · refine KeepsR.next ?_
    split
    · exact h
    · exact retireWait_keeps (tryPop_keeps h)
  · refine KeepsR.next ?_
    split
    · exact coreAsks_keeps h
    · split
      · exact resumeCore_keeps h
      · exact retireWait_keeps h

theorem execHalt_keeps {s₀ s : State} (h : Keeps s₀ s) {core : Core} :
    KeepsR s₀ (execHalt core s) := by
  unfold execHalt
  repeat' (first
    | with_reducible assumption | with_reducible apply KeepsR.next | (with_reducible apply awlStep_keeps; intro _ _ _)
    | with_reducible apply AwlKeeps.done | with_reducible apply AwlKeeps.fault | with_reducible apply AwlKeeps.wait
    | with_reducible apply AwlKeeps.stall | with_reducible apply AwlKeeps.halt | dsimp -zeta only)

theorem execTrap_keeps {s₀ s : State} (h : Keeps s₀ s) {core : Core} {ra : Fin 32} :
    KeepsR s₀ (execTrap core ra s) := by
  unfold execTrap
  repeat' (first
    | with_reducible assumption | with_reducible apply KeepsR.next | (with_reducible apply awlStep_keeps; intro _ _ _)
    | with_reducible apply AwlKeeps.done | with_reducible apply AwlKeeps.fault | with_reducible apply AwlKeeps.wait
    | with_reducible apply AwlKeeps.stall | with_reducible apply AwlKeeps.halt | dsimp -zeta only)

theorem execFence_keeps {s₀ s : State} (h : Keeps s₀ s) {core : Core} :
    KeepsR s₀ (execFence core s) := by
  unfold execFence
  repeat' (first
    | with_reducible assumption | split | with_reducible apply KeepsR.next
    | (with_reducible apply awlStep_keeps; intro _ _ _) | with_reducible apply AwlKeeps.done
    | with_reducible apply AwlKeeps.fault | with_reducible apply AwlKeeps.wait | with_reducible apply AwlKeeps.stall
    | with_reducible apply AwlKeeps.halt | dsimp -zeta only)

theorem execEmit_keeps {s₀ s : State} (h : Keeps s₀ s) {core : Core} {ra : Fin 32} :
    KeepsR s₀ (execEmit core ra s) := by
  unfold execEmit
  repeat' (first
    | with_reducible assumption | (unfold x; clear x)
    | (extract_lets +onlyGivenNames x; first | (refine Keeps.bind (s := s₀) (x := x) ?_ ?_; intro _; clear_value x; revert x; intros) | (clear_value x; revert x; intros))
    | split | with_reducible apply KeepsR.next | (with_reducible apply awlStep_keeps; intro _ _ _)
    | with_reducible apply emit_keeps | with_reducible apply emberPut_keeps | with_reducible apply AwlKeeps.done
    | with_reducible apply AwlKeeps.fault | with_reducible apply AwlKeeps.wait | with_reducible apply AwlKeeps.stall
    | with_reducible apply AwlKeeps.halt | (with_reducible apply Keeps.fst (e := by with_reducible assumption))
    | (with_reducible apply Keeps.snd (e := by with_reducible assumption))
    | (with_reducible apply Keeps.fst_eq (e := by with_reducible assumption))
    | (with_reducible apply Keeps.snd_eq (e := by with_reducible assumption)) | dsimp -zeta only
    | with_reducible apply Keeps.upd)

theorem execAwlBudget_keeps {s₀ s : State} (h : Keeps s₀ s) {core : Core} :
    KeepsR s₀ (execAwlBudget core s) := by
  unfold execAwlBudget
  repeat' (first
    | with_reducible assumption | (unfold x; clear x)
    | (extract_lets +onlyGivenNames x; first | (refine Keeps.bind (s := s₀) (x := x) ?_ ?_; intro _; clear_value x; revert x; intros) | (clear_value x; revert x; intros))
    | split | with_reducible apply KeepsR.next | with_reducible apply awlFault_keeps)

end Sys2Proof.Machine
end

