-- ==== Sys2Proof/Laws/Keeps/AwlCommand.lean ====
section
/-! SUPPORT. What the operations of Machine/AwlCommand.lean keep (`Keeps`). -/

namespace Sys2Proof.Machine

theorem readCode_keeps {s₀ s : State} (h : Keeps s₀ s) {h : Nat} {c : Cmd} :
    Keeps s₀ (readCode h c s).1 := by
  unfold readCode
  repeat' (first
    | with_reducible assumption | split | with_reducible apply memRead_keeps | dsimp -zeta only)

theorem execAwl_keeps {s₀ s : State} (h : Keeps s₀ s) {h : Fin 16} {seq : BitVec 32} :
    KeepsR s₀ (execAwl h seq s) := by
  unfold execAwl
  repeat' (first
    | with_reducible assumption | (unfold x; clear x)
    | (extract_lets +onlyGivenNames x; first | (refine Keeps.bind (s := s₀) (x := x) ?_ ?_; intro _; clear_value x; revert x; intros) | (clear_value x; revert x; intros))
    | split | with_reducible apply KeepsR.next | (with_reducible apply opRow_keeps; intro _ _ _)
    | with_reducible apply cmdDone_keeps | (with_reducible apply orFail_keeps; intro _ _ _)
    | with_reducible apply readCode_keeps | with_reducible apply setCore_keeps | with_reducible apply wr_keeps
    | with_reducible apply updCmd_keeps | (with_reducible apply each_keeps; intro _ _ _)
    | (with_reducible apply Keeps.fst (e := by with_reducible assumption))
    | (with_reducible apply Keeps.snd (e := by with_reducible assumption))
    | (with_reducible apply Keeps.fst_eq (e := by with_reducible assumption))
    | (with_reducible apply Keeps.snd_eq (e := by with_reducible assumption)) | dsimp -zeta only
    | with_reducible apply Keeps.upd)

theorem execKind2Start_keeps {s₀ s : State} (h : Keeps s₀ s)  :
    KeepsR s₀ (execKind2Start s) := by
  unfold execKind2Start
  repeat' (first
    | with_reducible assumption | (unfold x; clear x)
    | (extract_lets +onlyGivenNames x; first | (refine Keeps.bind (s := s₀) (x := x) ?_ ?_; intro _; clear_value x; revert x; intros) | (clear_value x; revert x; intros))
    | split | with_reducible apply KeepsR.next | with_reducible apply memRead_keeps | with_reducible apply endTicket_keeps
    | with_reducible apply emberCode_keeps | with_reducible apply updTicket_keeps | with_reducible apply setCore_keeps
    | with_reducible apply wr_keeps | (with_reducible apply Keeps.fst (e := by with_reducible assumption))
    | (with_reducible apply Keeps.snd (e := by with_reducible assumption))
    | (with_reducible apply Keeps.fst_eq (e := by with_reducible assumption))
    | (with_reducible apply Keeps.snd_eq (e := by with_reducible assumption)) | dsimp -zeta only
    | with_reducible apply Keeps.upd)

end Sys2Proof.Machine
end

