-- ==== Sys2Proof/Laws/Keeps/AwlScalar.lean ====
section
/-! SUPPORT. What the operations of Machine/AwlScalar.lean keep (`Keeps`). -/

namespace Sys2Proof.Machine

theorem alu3_keeps {s₀ s : State} (h : Keeps s₀ s) {core : Core} {i : Instr} {op : BitVec 64 → BitVec 64 → BitVec 64} {rd ra rb : Fin 32} :
    KeepsR s₀ (alu3 core i op rd ra rb s) := by
  unfold alu3
  repeat' (first
    | with_reducible assumption | with_reducible apply KeepsR.next | with_reducible apply awlReg_keeps | dsimp -zeta only)

theorem alu2_keeps {s₀ s : State} (h : Keeps s₀ s) {core : Core} {i : Instr} {op : BitVec 64 → BitVec 64} {rd ra : Fin 32} :
    KeepsR s₀ (alu2 core i op rd ra s) := by
  unfold alu2
  repeat' (first
    | with_reducible assumption | with_reducible apply KeepsR.next | with_reducible apply awlReg_keeps | dsimp -zeta only)

theorem execAdd_keeps {s₀ s : State} (h : Keeps s₀ s) {core : Core} {rd ra rb : Fin 32} :
    KeepsR s₀ (execAdd core rd ra rb s) := by
  unfold execAdd
  repeat' (first
    | with_reducible assumption | with_reducible apply KeepsR.next | with_reducible apply alu3_keeps | dsimp -zeta only)

theorem execSub_keeps {s₀ s : State} (h : Keeps s₀ s) {core : Core} {rd ra rb : Fin 32} :
    KeepsR s₀ (execSub core rd ra rb s) := by
  unfold execSub
  repeat' (first
    | with_reducible assumption | with_reducible apply KeepsR.next | with_reducible apply alu3_keeps | dsimp -zeta only)

theorem execAnd_keeps {s₀ s : State} (h : Keeps s₀ s) {core : Core} {rd ra rb : Fin 32} :
    KeepsR s₀ (execAnd core rd ra rb s) := by
  unfold execAnd
  repeat' (first
    | with_reducible assumption | with_reducible apply KeepsR.next | with_reducible apply alu3_keeps | dsimp -zeta only)

theorem execOr_keeps {s₀ s : State} (h : Keeps s₀ s) {core : Core} {rd ra rb : Fin 32} :
    KeepsR s₀ (execOr core rd ra rb s) := by
  unfold execOr
  repeat' (first
    | with_reducible assumption | split | with_reducible apply KeepsR.next | with_reducible apply alu3_keeps
    | dsimp -zeta only)

theorem execXor_keeps {s₀ s : State} (h : Keeps s₀ s) {core : Core} {rd ra rb : Fin 32} :
    KeepsR s₀ (execXor core rd ra rb s) := by
  unfold execXor
  repeat' (first
    | with_reducible assumption | with_reducible apply KeepsR.next | with_reducible apply alu3_keeps | dsimp -zeta only)

theorem execSll_keeps {s₀ s : State} (h : Keeps s₀ s) {core : Core} {rd ra rb : Fin 32} :
    KeepsR s₀ (execSll core rd ra rb s) := by
  unfold execSll
  repeat' (first
    | with_reducible assumption | with_reducible apply KeepsR.next | with_reducible apply alu3_keeps | dsimp -zeta only)

theorem execSrl_keeps {s₀ s : State} (h : Keeps s₀ s) {core : Core} {rd ra rb : Fin 32} :
    KeepsR s₀ (execSrl core rd ra rb s) := by
  unfold execSrl
  repeat' (first
    | with_reducible assumption | with_reducible apply KeepsR.next | with_reducible apply alu3_keeps | dsimp -zeta only)

theorem execSra_keeps {s₀ s : State} (h : Keeps s₀ s) {core : Core} {rd ra rb : Fin 32} :
    KeepsR s₀ (execSra core rd ra rb s) := by
  unfold execSra
  repeat' (first
    | with_reducible assumption | with_reducible apply KeepsR.next | with_reducible apply alu3_keeps | dsimp -zeta only)

theorem execSlt_keeps {s₀ s : State} (h : Keeps s₀ s) {core : Core} {rd ra rb : Fin 32} :
    KeepsR s₀ (execSlt core rd ra rb s) := by
  unfold execSlt
  repeat' (first
    | with_reducible assumption | with_reducible apply KeepsR.next | with_reducible apply alu3_keeps | dsimp -zeta only)

theorem execSltu_keeps {s₀ s : State} (h : Keeps s₀ s) {core : Core} {rd ra rb : Fin 32} :
    KeepsR s₀ (execSltu core rd ra rb s) := by
  unfold execSltu
  repeat' (first
    | with_reducible assumption | with_reducible apply KeepsR.next | with_reducible apply alu3_keeps | dsimp -zeta only)

theorem execMul_keeps {s₀ s : State} (h : Keeps s₀ s) {core : Core} {rd ra rb : Fin 32} :
    KeepsR s₀ (execMul core rd ra rb s) := by
  unfold execMul
  repeat' (first
    | with_reducible assumption | with_reducible apply KeepsR.next | with_reducible apply alu3_keeps | dsimp -zeta only)

theorem execMulh_keeps {s₀ s : State} (h : Keeps s₀ s) {core : Core} {rd ra rb : Fin 32} :
    KeepsR s₀ (execMulh core rd ra rb s) := by
  unfold execMulh
  repeat' (first
    | with_reducible assumption | with_reducible apply KeepsR.next | with_reducible apply alu3_keeps)

theorem execMulhu_keeps {s₀ s : State} (h : Keeps s₀ s) {core : Core} {rd ra rb : Fin 32} :
    KeepsR s₀ (execMulhu core rd ra rb s) := by
  unfold execMulhu
  repeat' (first
    | with_reducible assumption | with_reducible apply KeepsR.next | with_reducible apply alu3_keeps)

theorem execDiv_keeps {s₀ s : State} (h : Keeps s₀ s) {core : Core} {rd ra rb : Fin 32} :
    KeepsR s₀ (execDiv core rd ra rb s) := by
  unfold execDiv
  repeat' (first
    | with_reducible assumption | with_reducible apply KeepsR.next | with_reducible apply alu3_keeps)

theorem execDivu_keeps {s₀ s : State} (h : Keeps s₀ s) {core : Core} {rd ra rb : Fin 32} :
    KeepsR s₀ (execDivu core rd ra rb s) := by
  unfold execDivu
  repeat' (first
    | with_reducible assumption | with_reducible apply KeepsR.next | with_reducible apply alu3_keeps)

theorem execRem_keeps {s₀ s : State} (h : Keeps s₀ s) {core : Core} {rd ra rb : Fin 32} :
    KeepsR s₀ (execRem core rd ra rb s) := by
  unfold execRem
  repeat' (first
    | with_reducible assumption | with_reducible apply KeepsR.next | with_reducible apply alu3_keeps)

theorem execRemu_keeps {s₀ s : State} (h : Keeps s₀ s) {core : Core} {rd ra rb : Fin 32} :
    KeepsR s₀ (execRemu core rd ra rb s) := by
  unfold execRemu
  repeat' (first
    | with_reducible assumption | with_reducible apply KeepsR.next | with_reducible apply alu3_keeps)

theorem execMin_keeps {s₀ s : State} (h : Keeps s₀ s) {core : Core} {rd ra rb : Fin 32} :
    KeepsR s₀ (execMin core rd ra rb s) := by
  unfold execMin
  repeat' (first
    | with_reducible assumption | split | with_reducible apply KeepsR.next | with_reducible apply alu3_keeps
    | dsimp -zeta only)

theorem execMax_keeps {s₀ s : State} (h : Keeps s₀ s) {core : Core} {rd ra rb : Fin 32} :
    KeepsR s₀ (execMax core rd ra rb s) := by
  unfold execMax
  repeat' (first
    | with_reducible assumption | split | with_reducible apply KeepsR.next | with_reducible apply alu3_keeps
    | dsimp -zeta only)

theorem execMinu_keeps {s₀ s : State} (h : Keeps s₀ s) {core : Core} {rd ra rb : Fin 32} :
    KeepsR s₀ (execMinu core rd ra rb s) := by
  unfold execMinu
  repeat' (first
    | with_reducible assumption | split | with_reducible apply KeepsR.next | with_reducible apply alu3_keeps
    | dsimp -zeta only)

theorem execMaxu_keeps {s₀ s : State} (h : Keeps s₀ s) {core : Core} {rd ra rb : Fin 32} :
    KeepsR s₀ (execMaxu core rd ra rb s) := by
  unfold execMaxu
  repeat' (first
    | with_reducible assumption | split | with_reducible apply KeepsR.next | with_reducible apply alu3_keeps
    | dsimp -zeta only)

theorem execClz_keeps {s₀ s : State} (h : Keeps s₀ s) {core : Core} {rd ra : Fin 32} :
    KeepsR s₀ (execClz core rd ra s) := by
  unfold execClz
  repeat' (first
    | with_reducible assumption | with_reducible apply KeepsR.next | with_reducible apply alu2_keeps | dsimp -zeta only)

theorem execPopc_keeps {s₀ s : State} (h : Keeps s₀ s) {core : Core} {rd ra : Fin 32} :
    KeepsR s₀ (execPopc core rd ra s) := by
  unfold execPopc
  repeat' (first
    | with_reducible assumption | with_reducible apply KeepsR.next | with_reducible apply alu2_keeps | dsimp -zeta only)

theorem execAddi_keeps {s₀ s : State} (h : Keeps s₀ s) {core : Core} {rd ra : Fin 32} {imm : BitVec 16} :
    KeepsR s₀ (execAddi core rd ra imm s) := by
  unfold execAddi
  repeat' (first
    | with_reducible assumption | with_reducible apply KeepsR.next | with_reducible apply alu2_keeps | dsimp -zeta only)

theorem execAndi_keeps {s₀ s : State} (h : Keeps s₀ s) {core : Core} {rd ra : Fin 32} {imm : BitVec 16} :
    KeepsR s₀ (execAndi core rd ra imm s) := by
  unfold execAndi
  repeat' (first
    | with_reducible assumption | with_reducible apply KeepsR.next | with_reducible apply alu2_keeps | dsimp -zeta only)

theorem execOri_keeps {s₀ s : State} (h : Keeps s₀ s) {core : Core} {rd ra : Fin 32} {imm : BitVec 16} :
    KeepsR s₀ (execOri core rd ra imm s) := by
  unfold execOri
  repeat' (first
    | with_reducible assumption | split | with_reducible apply KeepsR.next | with_reducible apply alu2_keeps
    | dsimp -zeta only)

theorem execXori_keeps {s₀ s : State} (h : Keeps s₀ s) {core : Core} {rd ra : Fin 32} {imm : BitVec 16} :
    KeepsR s₀ (execXori core rd ra imm s) := by
  unfold execXori
  repeat' (first
    | with_reducible assumption | with_reducible apply KeepsR.next | with_reducible apply alu2_keeps | dsimp -zeta only)

theorem execSlti_keeps {s₀ s : State} (h : Keeps s₀ s) {core : Core} {rd ra : Fin 32} {imm : BitVec 16} :
    KeepsR s₀ (execSlti core rd ra imm s) := by
  unfold execSlti
  repeat' (first
    | with_reducible assumption | with_reducible apply KeepsR.next | with_reducible apply alu2_keeps | dsimp -zeta only)

theorem execSltiu_keeps {s₀ s : State} (h : Keeps s₀ s) {core : Core} {rd ra : Fin 32} {imm : BitVec 16} :
    KeepsR s₀ (execSltiu core rd ra imm s) := by
  unfold execSltiu
  repeat' (first
    | with_reducible assumption | with_reducible apply KeepsR.next | with_reducible apply alu2_keeps | dsimp -zeta only)

theorem execShlo_keeps {s₀ s : State} (h : Keeps s₀ s) {core : Core} {rd ra : Fin 32} {imm : BitVec 16} :
    KeepsR s₀ (execShlo core rd ra imm s) := by
  unfold execShlo
  repeat' (first
    | with_reducible assumption | split | with_reducible apply KeepsR.next | with_reducible apply alu2_keeps
    | dsimp -zeta only)

theorem execShi_keeps {s₀ s : State} (h : Keeps s₀ s) {core : Core} {rd ra : Fin 32} {kind : Fin 3} {amt : Fin 64} :
    KeepsR s₀ (execShi core rd ra kind amt s) := by
  unfold execShi
  repeat' (first
    | with_reducible assumption | with_reducible apply KeepsR.next | with_reducible apply alu2_keeps)

theorem branch_keeps {s₀ s : State} (h : Keeps s₀ s) {core : Core} {i : Instr} {cond : BitVec 64 → BitVec 64 → Bool} {ra rb : Fin 32} {off : BitVec 16} :
    KeepsR s₀ (branch core i cond ra rb off s) := by
  unfold branch
  repeat' (first
    | with_reducible assumption | split | with_reducible apply KeepsR.next | with_reducible apply awlReg_keeps
    | dsimp -zeta only)

theorem execBeq_keeps {s₀ s : State} (h : Keeps s₀ s) {core : Core} {ra rb : Fin 32} {off : BitVec 16} :
    KeepsR s₀ (execBeq core ra rb off s) := by
  unfold execBeq
  repeat' (first
    | with_reducible assumption | with_reducible apply KeepsR.next | with_reducible apply branch_keeps | dsimp -zeta only)

theorem execBne_keeps {s₀ s : State} (h : Keeps s₀ s) {core : Core} {ra rb : Fin 32} {off : BitVec 16} :
    KeepsR s₀ (execBne core ra rb off s) := by
  unfold execBne
  repeat' (first
    | with_reducible assumption | with_reducible apply KeepsR.next | with_reducible apply branch_keeps | dsimp -zeta only)

theorem execBlt_keeps {s₀ s : State} (h : Keeps s₀ s) {core : Core} {ra rb : Fin 32} {off : BitVec 16} :
    KeepsR s₀ (execBlt core ra rb off s) := by
  unfold execBlt
  repeat' (first
    | with_reducible assumption | with_reducible apply KeepsR.next | with_reducible apply branch_keeps | dsimp -zeta only)

theorem execBge_keeps {s₀ s : State} (h : Keeps s₀ s) {core : Core} {ra rb : Fin 32} {off : BitVec 16} :
    KeepsR s₀ (execBge core ra rb off s) := by
  unfold execBge
  repeat' (first
    | with_reducible assumption | with_reducible apply KeepsR.next | with_reducible apply branch_keeps | dsimp -zeta only)

theorem execBltu_keeps {s₀ s : State} (h : Keeps s₀ s) {core : Core} {ra rb : Fin 32} {off : BitVec 16} :
    KeepsR s₀ (execBltu core ra rb off s) := by
  unfold execBltu
  repeat' (first
    | with_reducible assumption | with_reducible apply KeepsR.next | with_reducible apply branch_keeps | dsimp -zeta only)

theorem execBgeu_keeps {s₀ s : State} (h : Keeps s₀ s) {core : Core} {ra rb : Fin 32} {off : BitVec 16} :
    KeepsR s₀ (execBgeu core ra rb off s) := by
  unfold execBgeu
  repeat' (first
    | with_reducible assumption | with_reducible apply KeepsR.next | with_reducible apply branch_keeps | dsimp -zeta only)

theorem execJ_keeps {s₀ s : State} (h : Keeps s₀ s) {core : Core} {off : BitVec 26} :
    KeepsR s₀ (execJ core off s) := by
  unfold execJ
  repeat' (first
    | with_reducible assumption | with_reducible apply KeepsR.next | with_reducible apply awlReg_keeps | dsimp -zeta only)

theorem execJal_keeps {s₀ s : State} (h : Keeps s₀ s) {core : Core} {off : BitVec 26} :
    KeepsR s₀ (execJal core off s) := by
  unfold execJal
  repeat' (first
    | with_reducible assumption | with_reducible apply KeepsR.next | with_reducible apply awlReg_keeps | dsimp -zeta only)

theorem execJalr_keeps {s₀ s : State} (h : Keeps s₀ s) {core : Core} {rd ra : Fin 32} {imm : BitVec 16} :
    KeepsR s₀ (execJalr core rd ra imm s) := by
  unfold execJalr
  repeat' (first
    | with_reducible assumption | (unfold x; clear x)
    | (extract_lets +onlyGivenNames x; first | (refine Keeps.bind (s := s₀) (x := x) ?_ ?_; intro _; clear_value x; revert x; intros) | (clear_value x; revert x; intros))
    | split | with_reducible apply KeepsR.next | (with_reducible apply awlStep_keeps; intro _ _ _)
    | with_reducible apply AwlKeeps.done | with_reducible apply AwlKeeps.fault | with_reducible apply AwlKeeps.wait
    | with_reducible apply AwlKeeps.stall | with_reducible apply AwlKeeps.halt | dsimp -zeta only
    | with_reducible apply Keeps.upd)

theorem loadBytes_keeps {s₀ s : State} {f : State → Bytes → AwlRes} (hf : ∀ s d, Keeps s₀ s → AwlKeeps s₀ (f s d))
    (h : Keeps s₀ s) {k a n : Nat} : AwlKeeps s₀ (loadBytes k a n s f) := by
  unfold loadBytes
  repeat' (first
    | with_reducible assumption | (unfold x; clear x)
    | (extract_lets +onlyGivenNames x; first | (refine Keeps.bind (s := s₀) (x := x) ?_ ?_; intro _; clear_value x; revert x; intros) | (clear_value x; revert x; intros))
    | split | with_reducible apply hf | with_reducible apply AwlKeeps.done | with_reducible apply AwlKeeps.fault
    | with_reducible apply AwlKeeps.stall | with_reducible apply lsCheck_keeps | with_reducible apply memRead_keeps
    | with_reducible apply AwlKeeps.done | with_reducible apply AwlKeeps.fault | with_reducible apply AwlKeeps.wait
    | with_reducible apply AwlKeeps.stall | with_reducible apply AwlKeeps.halt
    | (with_reducible apply Keeps.fst (e := by with_reducible assumption))
    | (with_reducible apply Keeps.snd (e := by with_reducible assumption))
    | (with_reducible apply Keeps.fst_eq (e := by with_reducible assumption))
    | (with_reducible apply Keeps.snd_eq (e := by with_reducible assumption)) | dsimp -zeta only
    | with_reducible apply Keeps.upd)

theorem storeBytes_keeps {s₀ s : State} (h : Keeps s₀ s) {k : Nat} {a : Nat} {d : Bytes} {c : AwlCore} :
    AwlKeeps s₀ (storeBytes k a d s c) := by
  unfold storeBytes
  repeat' (first
    | with_reducible assumption | (unfold x; clear x)
    | (extract_lets +onlyGivenNames x; first | (refine Keeps.bind (s := s₀) (x := x) ?_ ?_; intro _; clear_value x; revert x; intros) | (clear_value x; revert x; intros))
    | split | with_reducible apply memWrite_keeps | with_reducible apply AwlKeeps.done | with_reducible apply AwlKeeps.fault
    | with_reducible apply AwlKeeps.wait | with_reducible apply AwlKeeps.stall | with_reducible apply AwlKeeps.halt
    | (with_reducible apply Keeps.fst (e := by with_reducible assumption))
    | (with_reducible apply Keeps.snd (e := by with_reducible assumption))
    | (with_reducible apply Keeps.fst_eq (e := by with_reducible assumption))
    | (with_reducible apply Keeps.snd_eq (e := by with_reducible assumption)) | dsimp -zeta only
    | with_reducible apply Keeps.upd)

theorem scalarLoad_keeps {s₀ s : State} (h : Keeps s₀ s) {core : Core} {i : Instr} {n : Nat} {ext : Nat → BitVec 64} {rd ra : Fin 32} {imm : BitVec 16} :
    KeepsR s₀ (scalarLoad core i n ext rd ra imm s) := by
  unfold scalarLoad
  repeat' (first
    | with_reducible assumption | (unfold x; clear x)
    | (extract_lets +onlyGivenNames x; first | (refine Keeps.bind (s := s₀) (x := x) ?_ ?_; intro _; clear_value x; revert x; intros) | (clear_value x; revert x; intros))
    | with_reducible apply KeepsR.next | (with_reducible apply awlStep_keeps; intro _ _ _)
    | (with_reducible apply loadBytes_keeps; intro _ _ _) | with_reducible apply AwlKeeps.done
    | with_reducible apply AwlKeeps.fault | with_reducible apply AwlKeeps.wait | with_reducible apply AwlKeeps.stall
    | with_reducible apply AwlKeeps.halt | dsimp -zeta only | with_reducible apply Keeps.upd)

theorem scalarStore_keeps {s₀ s : State} (h : Keeps s₀ s) {core : Core} {i : Instr} {n : Nat} {rd ra : Fin 32} {imm : BitVec 16} :
    KeepsR s₀ (scalarStore core i n rd ra imm s) := by
  unfold scalarStore
  repeat' (first
    | with_reducible assumption | with_reducible apply KeepsR.next | (with_reducible apply awlStep_keeps; intro _ _ _)
    | with_reducible apply storeBytes_keeps | with_reducible apply AwlKeeps.done | with_reducible apply AwlKeeps.fault
    | with_reducible apply AwlKeeps.wait | with_reducible apply AwlKeeps.stall | with_reducible apply AwlKeeps.halt
    | dsimp -zeta only)

theorem execLb_keeps {s₀ s : State} (h : Keeps s₀ s) {core : Core} {rd ra : Fin 32} {imm : BitVec 16} :
    KeepsR s₀ (execLb core rd ra imm s) := by
  unfold execLb
  repeat' (first
    | with_reducible assumption | with_reducible apply KeepsR.next | with_reducible apply scalarLoad_keeps)

theorem execLbu_keeps {s₀ s : State} (h : Keeps s₀ s) {core : Core} {rd ra : Fin 32} {imm : BitVec 16} :
    KeepsR s₀ (execLbu core rd ra imm s) := by
  unfold execLbu
  repeat' (first
    | with_reducible assumption | with_reducible apply KeepsR.next | with_reducible apply scalarLoad_keeps)

theorem execLh_keeps {s₀ s : State} (h : Keeps s₀ s) {core : Core} {rd ra : Fin 32} {imm : BitVec 16} :
    KeepsR s₀ (execLh core rd ra imm s) := by
  unfold execLh
  repeat' (first
    | with_reducible assumption | with_reducible apply KeepsR.next | with_reducible apply scalarLoad_keeps)

theorem execLhu_keeps {s₀ s : State} (h : Keeps s₀ s) {core : Core} {rd ra : Fin 32} {imm : BitVec 16} :
    KeepsR s₀ (execLhu core rd ra imm s) := by
  unfold execLhu
  repeat' (first
    | with_reducible assumption | with_reducible apply KeepsR.next | with_reducible apply scalarLoad_keeps)

theorem execLw_keeps {s₀ s : State} (h : Keeps s₀ s) {core : Core} {rd ra : Fin 32} {imm : BitVec 16} :
    KeepsR s₀ (execLw core rd ra imm s) := by
  unfold execLw
  repeat' (first
    | with_reducible assumption | with_reducible apply KeepsR.next | with_reducible apply scalarLoad_keeps)

theorem execLwu_keeps {s₀ s : State} (h : Keeps s₀ s) {core : Core} {rd ra : Fin 32} {imm : BitVec 16} :
    KeepsR s₀ (execLwu core rd ra imm s) := by
  unfold execLwu
  repeat' (first
    | with_reducible assumption | with_reducible apply KeepsR.next | with_reducible apply scalarLoad_keeps)

theorem execLd_keeps {s₀ s : State} (h : Keeps s₀ s) {core : Core} {rd ra : Fin 32} {imm : BitVec 16} :
    KeepsR s₀ (execLd core rd ra imm s) := by
  unfold execLd
  repeat' (first
    | with_reducible assumption | with_reducible apply KeepsR.next | with_reducible apply scalarLoad_keeps)

theorem execSb_keeps {s₀ s : State} (h : Keeps s₀ s) {core : Core} {rd ra : Fin 32} {imm : BitVec 16} :
    KeepsR s₀ (execSb core rd ra imm s) := by
  unfold execSb
  repeat' (first
    | with_reducible assumption | with_reducible apply KeepsR.next | with_reducible apply scalarStore_keeps)

theorem execSh_keeps {s₀ s : State} (h : Keeps s₀ s) {core : Core} {rd ra : Fin 32} {imm : BitVec 16} :
    KeepsR s₀ (execSh core rd ra imm s) := by
  unfold execSh
  repeat' (first
    | with_reducible assumption | with_reducible apply KeepsR.next | with_reducible apply scalarStore_keeps)

theorem execSw_keeps {s₀ s : State} (h : Keeps s₀ s) {core : Core} {rd ra : Fin 32} {imm : BitVec 16} :
    KeepsR s₀ (execSw core rd ra imm s) := by
  unfold execSw
  repeat' (first
    | with_reducible assumption | with_reducible apply KeepsR.next | with_reducible apply scalarStore_keeps)

theorem execSd_keeps {s₀ s : State} (h : Keeps s₀ s) {core : Core} {rd ra : Fin 32} {imm : BitVec 16} :
    KeepsR s₀ (execSd core rd ra imm s) := by
  unfold execSd
  repeat' (first
    | with_reducible assumption | with_reducible apply KeepsR.next | with_reducible apply scalarStore_keeps)

theorem execVld_keeps {s₀ s : State} (h : Keeps s₀ s) {core : Core} {vd : Fin 16} {ra : Fin 32} {imm : BitVec 16} :
    KeepsR s₀ (execVld core vd ra imm s) := by
  unfold execVld
  repeat' (first
    | with_reducible assumption | (unfold x; clear x)
    | (extract_lets +onlyGivenNames x; first | (refine Keeps.bind (s := s₀) (x := x) ?_ ?_; intro _; clear_value x; revert x; intros) | (clear_value x; revert x; intros))
    | with_reducible apply KeepsR.next | (with_reducible apply awlStep_keeps; intro _ _ _)
    | (with_reducible apply loadBytes_keeps; intro _ _ _) | with_reducible apply AwlKeeps.done
    | with_reducible apply AwlKeeps.fault | with_reducible apply AwlKeeps.wait | with_reducible apply AwlKeeps.stall
    | with_reducible apply AwlKeeps.halt | dsimp -zeta only | with_reducible apply Keeps.upd)

theorem execVst_keeps {s₀ s : State} (h : Keeps s₀ s) {core : Core} {vd : Fin 16} {ra : Fin 32} {imm : BitVec 16} :
    KeepsR s₀ (execVst core vd ra imm s) := by
  unfold execVst
  repeat' (first
    | with_reducible assumption | with_reducible apply KeepsR.next | (with_reducible apply awlStep_keeps; intro _ _ _)
    | with_reducible apply storeBytes_keeps | with_reducible apply AwlKeeps.done | with_reducible apply AwlKeeps.fault
    | with_reducible apply AwlKeeps.wait | with_reducible apply AwlKeeps.stall | with_reducible apply AwlKeeps.halt
    | dsimp -zeta only)

end Sys2Proof.Machine
end

