-- ==== Sys2Proof/Laws/Keeps/AwlVector.lean ====
section
/-! SUPPORT. What the operations of Machine/AwlVector.lean keep (`Keeps`). -/

namespace Sys2Proof.Machine

theorem leanGate_keeps {s₀ s : State} {go : AwlRes} (hg : AwlKeeps s₀ go) (h : Keeps s₀ s) {c : AwlCore} :
    AwlKeeps s₀ (leanGate s c go) := by
  unfold leanGate
  split
  · exact h
  · exact hg

theorem vecOp_keeps {s₀ s : State} (h : Keeps s₀ s) {core : Core} {i : Instr} {f : AwlCore → AwlCore} :
    KeepsR s₀ (vecOp core i f s) := by
  unfold vecOp
  repeat' (first
    | with_reducible assumption | with_reducible apply KeepsR.next | (with_reducible apply awlStep_keeps; intro _ _ _)
    | with_reducible apply leanGate_keeps | with_reducible apply AwlKeeps.done | with_reducible apply AwlKeeps.fault
    | with_reducible apply AwlKeeps.wait | with_reducible apply AwlKeeps.stall | with_reducible apply AwlKeeps.halt
    | dsimp -zeta only)

theorem vecMove_keeps {s₀ s : State} (h : Keeps s₀ s) {core : Core} {i : Instr} {f : AwlCore → AwlCore} :
    KeepsR s₀ (vecMove core i f s) := by
  unfold vecMove
  repeat' (first
    | with_reducible assumption | with_reducible apply KeepsR.next | with_reducible apply awlReg_keeps)

theorem arith2_keeps {s₀ s : State} (h : Keeps s₀ s) {core : Core} {i : Instr} {et : Fin 8} {iop : Nat → Int → Int → Int} {fop : FVal → FVal → FVal} {vd va vb : Fin 16} :
    KeepsR s₀ (arith2 core i et iop fop vd va vb s) := by
  unfold arith2
  repeat' (first
    | with_reducible assumption | split | with_reducible apply KeepsR.next | with_reducible apply vecOp_keeps
    | dsimp -zeta only)

theorem execVadd_keeps {s₀ s : State} (h : Keeps s₀ s) {core : Core} {et : Fin 8} {vd va vb : Fin 16} :
    KeepsR s₀ (execVadd core et vd va vb s) := by
  unfold execVadd
  repeat' (first
    | with_reducible assumption | with_reducible apply KeepsR.next | with_reducible apply arith2_keeps | dsimp -zeta only)

theorem execVsub_keeps {s₀ s : State} (h : Keeps s₀ s) {core : Core} {et : Fin 8} {vd va vb : Fin 16} :
    KeepsR s₀ (execVsub core et vd va vb s) := by
  unfold execVsub
  repeat' (first
    | with_reducible assumption | with_reducible apply KeepsR.next | with_reducible apply arith2_keeps | dsimp -zeta only)

theorem execVmul_keeps {s₀ s : State} (h : Keeps s₀ s) {core : Core} {et : Fin 8} {vd va vb : Fin 16} :
    KeepsR s₀ (execVmul core et vd va vb s) := by
  unfold execVmul
  repeat' (first
    | with_reducible assumption | with_reducible apply KeepsR.next | with_reducible apply arith2_keeps | dsimp -zeta only)

theorem execVmin_keeps {s₀ s : State} (h : Keeps s₀ s) {core : Core} {et : Fin 8} {vd va vb : Fin 16} :
    KeepsR s₀ (execVmin core et vd va vb s) := by
  unfold execVmin
  repeat' (first
    | with_reducible assumption | split | with_reducible apply KeepsR.next | with_reducible apply arith2_keeps
    | dsimp -zeta only)

theorem execVmax_keeps {s₀ s : State} (h : Keeps s₀ s) {core : Core} {et : Fin 8} {vd va vb : Fin 16} :
    KeepsR s₀ (execVmax core et vd va vb s) := by
  unfold execVmax
  repeat' (first
    | with_reducible assumption | split | with_reducible apply KeepsR.next | with_reducible apply arith2_keeps
    | dsimp -zeta only)

theorem execVadds_keeps {s₀ s : State} (h : Keeps s₀ s) {core : Core} {et : Fin 8} {vd va vb : Fin 16} :
    KeepsR s₀ (execVadds core et vd va vb s) := by
  unfold execVadds
  repeat' (first
    | with_reducible assumption | with_reducible apply KeepsR.next | with_reducible apply arith2_keeps | dsimp -zeta only)

theorem execVsubs_keeps {s₀ s : State} (h : Keeps s₀ s) {core : Core} {et : Fin 8} {vd va vb : Fin 16} :
    KeepsR s₀ (execVsubs core et vd va vb s) := by
  unfold execVsubs
  repeat' (first
    | with_reducible assumption | with_reducible apply KeepsR.next | with_reducible apply arith2_keeps | dsimp -zeta only)

theorem execVdiv_keeps {s₀ s : State} (h : Keeps s₀ s) {core : Core} {et : Fin 8} {vd va vb : Fin 16} :
    KeepsR s₀ (execVdiv core et vd va vb s) := by
  unfold execVdiv
  repeat' (first
    | with_reducible assumption | with_reducible apply KeepsR.next | with_reducible apply arith2_keeps | dsimp -zeta only)

theorem execVfma_keeps {s₀ s : State} (h : Keeps s₀ s) {core : Core} {et : Fin 8} {vd va vb : Fin 16} :
    KeepsR s₀ (execVfma core et vd va vb s) := by
  unfold execVfma
  repeat' (first
    | with_reducible assumption | (unfold x; clear x)
    | (extract_lets +onlyGivenNames x; first | (refine Keeps.bind (s := s₀) (x := x) ?_ ?_; intro _; clear_value x; revert x; intros) | (clear_value x; revert x; intros))
    | split | with_reducible apply KeepsR.next | with_reducible apply vecOp_keeps
    | (with_reducible apply Keeps.foldl; intro _ _ _) | (with_reducible apply Keeps.foldl_fst; intro _ _ _)
    | (with_reducible apply Keeps.foldl_snd; intro _ _ _)
    | (with_reducible apply Keeps.fst (e := by with_reducible assumption))
    | (with_reducible apply Keeps.snd (e := by with_reducible assumption))
    | (with_reducible apply Keeps.fst_eq (e := by with_reducible assumption))
    | (with_reducible apply Keeps.snd_eq (e := by with_reducible assumption)) | dsimp -zeta only
    | with_reducible apply Keeps.upd)

theorem execVfmaw_keeps {s₀ s : State} (h : Keeps s₀ s) {core : Core} {et : Fin 8} {vd va : Fin 16} {x : Fin 32} :
    KeepsR s₀ (execVfmaw core et vd va x s) := by
  unfold execVfmaw
  repeat' (first
    | with_reducible assumption | (unfold x; clear x)
    | (extract_lets +onlyGivenNames x; first | (refine Keeps.bind (s := s₀) (x := x) ?_ ?_; intro _; clear_value x; revert x; intros) | (clear_value x; revert x; intros))
    | split | with_reducible apply KeepsR.next | with_reducible apply vecOp_keeps
    | (with_reducible apply Keeps.foldl; intro _ _ _) | (with_reducible apply Keeps.foldl_fst; intro _ _ _)
    | (with_reducible apply Keeps.foldl_snd; intro _ _ _)
    | (with_reducible apply Keeps.fst (e := by with_reducible assumption))
    | (with_reducible apply Keeps.snd (e := by with_reducible assumption))
    | (with_reducible apply Keeps.fst_eq (e := by with_reducible assumption))
    | (with_reducible apply Keeps.snd_eq (e := by with_reducible assumption)) | dsimp -zeta only
    | with_reducible apply Keeps.upd)

theorem lanes1_keeps {s₀ s : State} (h : Keeps s₀ s) {core : Core} {i : Instr} {et : Fin 8} {iop : Int → Int} {fop : Bool → FFmt → Nat → LaneRes} {vd va : Fin 16} :
    KeepsR s₀ (lanes1 core i et iop fop vd va s) := by
  unfold lanes1
  repeat' (first
    | with_reducible assumption | (unfold x; clear x)
    | (extract_lets +onlyGivenNames x; first | (refine Keeps.bind (s := s₀) (x := x) ?_ ?_; intro _; clear_value x; revert x; intros) | (clear_value x; revert x; intros))
    | split | with_reducible apply KeepsR.next | with_reducible apply vecOp_keeps
    | (with_reducible apply Keeps.foldl; intro _ _ _) | (with_reducible apply Keeps.foldl_fst; intro _ _ _)
    | (with_reducible apply Keeps.foldl_snd; intro _ _ _) | dsimp -zeta only | with_reducible apply Keeps.upd)

theorem execVabs_keeps {s₀ s : State} (h : Keeps s₀ s) {core : Core} {et : Fin 8} {vd va : Fin 16} :
    KeepsR s₀ (execVabs core et vd va s) := by
  unfold execVabs
  repeat' (first
    | with_reducible assumption | split | with_reducible apply KeepsR.next | with_reducible apply lanes1_keeps
    | dsimp -zeta only)

theorem execVneg_keeps {s₀ s : State} (h : Keeps s₀ s) {core : Core} {et : Fin 8} {vd va : Fin 16} :
    KeepsR s₀ (execVneg core et vd va s) := by
  unfold execVneg
  repeat' (first
    | with_reducible assumption | with_reducible apply KeepsR.next | with_reducible apply lanes1_keeps | dsimp -zeta only)

theorem execVsqrt_keeps {s₀ s : State} (h : Keeps s₀ s) {core : Core} {et : Fin 8} {vd va : Fin 16} :
    KeepsR s₀ (execVsqrt core et vd va s) := by
  unfold execVsqrt
  repeat' (first
    | with_reducible assumption | with_reducible apply KeepsR.next | with_reducible apply lanes1_keeps | dsimp -zeta only)

theorem execVexp_keeps {s₀ s : State} (h : Keeps s₀ s) {core : Core} {et : Fin 8} {vd va : Fin 16} :
    KeepsR s₀ (execVexp core et vd va s) := by
  unfold execVexp
  repeat' (first
    | with_reducible assumption | (unfold x; clear x)
    | (extract_lets +onlyGivenNames x; first | (refine Keeps.bind (s := s₀) (x := x) ?_ ?_; intro _; clear_value x; revert x; intros) | (clear_value x; revert x; intros))
    | split | with_reducible apply KeepsR.next | with_reducible apply lanes1_keeps
    | (with_reducible apply Keeps.fst (e := by with_reducible assumption))
    | (with_reducible apply Keeps.snd (e := by with_reducible assumption))
    | (with_reducible apply Keeps.fst_eq (e := by with_reducible assumption))
    | (with_reducible apply Keeps.snd_eq (e := by with_reducible assumption)) | dsimp -zeta only
    | with_reducible apply Keeps.upd)

theorem execVlog_keeps {s₀ s : State} (h : Keeps s₀ s) {core : Core} {et : Fin 8} {vd va : Fin 16} :
    KeepsR s₀ (execVlog core et vd va s) := by
  unfold execVlog
  repeat' (first
    | with_reducible assumption | (unfold x; clear x)
    | (extract_lets +onlyGivenNames x; first | (refine Keeps.bind (s := s₀) (x := x) ?_ ?_; intro _; clear_value x; revert x; intros) | (clear_value x; revert x; intros))
    | split | with_reducible apply KeepsR.next | with_reducible apply lanes1_keeps
    | (with_reducible apply Keeps.fst (e := by with_reducible assumption))
    | (with_reducible apply Keeps.snd (e := by with_reducible assumption))
    | (with_reducible apply Keeps.fst_eq (e := by with_reducible assumption))
    | (with_reducible apply Keeps.snd_eq (e := by with_reducible assumption)) | dsimp -zeta only
    | with_reducible apply Keeps.upd)

theorem execVtanh_keeps {s₀ s : State} (h : Keeps s₀ s) {core : Core} {et : Fin 8} {vd va : Fin 16} :
    KeepsR s₀ (execVtanh core et vd va s) := by
  unfold execVtanh
  repeat' (first
    | with_reducible assumption | (unfold x; clear x)
    | (extract_lets +onlyGivenNames x; first | (refine Keeps.bind (s := s₀) (x := x) ?_ ?_; intro _; clear_value x; revert x; intros) | (clear_value x; revert x; intros))
    | split | with_reducible apply KeepsR.next | with_reducible apply lanes1_keeps
    | (with_reducible apply Keeps.fst (e := by with_reducible assumption))
    | (with_reducible apply Keeps.snd (e := by with_reducible assumption))
    | (with_reducible apply Keeps.fst_eq (e := by with_reducible assumption))
    | (with_reducible apply Keeps.snd_eq (e := by with_reducible assumption)) | dsimp -zeta only
    | with_reducible apply Keeps.upd)

theorem execVerf_keeps {s₀ s : State} (h : Keeps s₀ s) {core : Core} {et : Fin 8} {vd va : Fin 16} :
    KeepsR s₀ (execVerf core et vd va s) := by
  unfold execVerf
  repeat' (first
    | with_reducible assumption | (unfold x; clear x)
    | (extract_lets +onlyGivenNames x; first | (refine Keeps.bind (s := s₀) (x := x) ?_ ?_; intro _; clear_value x; revert x; intros) | (clear_value x; revert x; intros))
    | split | with_reducible apply KeepsR.next | with_reducible apply lanes1_keeps
    | (with_reducible apply Keeps.fst (e := by with_reducible assumption))
    | (with_reducible apply Keeps.snd (e := by with_reducible assumption))
    | (with_reducible apply Keeps.fst_eq (e := by with_reducible assumption))
    | (with_reducible apply Keeps.snd_eq (e := by with_reducible assumption)) | dsimp -zeta only
    | with_reducible apply Keeps.upd)

theorem execVand_keeps {s₀ s : State} (h : Keeps s₀ s) {core : Core} {et : Fin 8} {vd va vb : Fin 16} :
    KeepsR s₀ (execVand core et vd va vb s) := by
  unfold execVand
  repeat' (first
    | with_reducible assumption | with_reducible apply KeepsR.next | with_reducible apply vecOp_keeps | dsimp -zeta only)

theorem execVor_keeps {s₀ s : State} (h : Keeps s₀ s) {core : Core} {et : Fin 8} {vd va vb : Fin 16} :
    KeepsR s₀ (execVor core et vd va vb s) := by
  unfold execVor
  repeat' (first
    | with_reducible assumption | split | with_reducible apply KeepsR.next | with_reducible apply vecOp_keeps
    | dsimp -zeta only)

theorem execVxor_keeps {s₀ s : State} (h : Keeps s₀ s) {core : Core} {et : Fin 8} {vd va vb : Fin 16} :
    KeepsR s₀ (execVxor core et vd va vb s) := by
  unfold execVxor
  repeat' (first
    | with_reducible assumption | with_reducible apply KeepsR.next | with_reducible apply vecOp_keeps | dsimp -zeta only)

theorem vShift_keeps {s₀ s : State} (h : Keeps s₀ s) {core : Core} {i : Instr} {et : Fin 8} {op : Nat → Nat → Nat} {vd va : Fin 16} :
    KeepsR s₀ (vShift core i et op vd va s) := by
  unfold vShift
  repeat' (first
    | with_reducible assumption | with_reducible apply KeepsR.next | with_reducible apply vecOp_keeps | dsimp -zeta only)

theorem execVshl_keeps {s₀ s : State} (h : Keeps s₀ s) {core : Core} {et : Fin 8} {vd va : Fin 16} {x : Fin 32} :
    KeepsR s₀ (execVshl core et vd va x s) := by
  unfold execVshl
  repeat' (first
    | with_reducible assumption | split | with_reducible apply KeepsR.next | with_reducible apply vShift_keeps
    | dsimp -zeta only)

theorem execVshrl_keeps {s₀ s : State} (h : Keeps s₀ s) {core : Core} {et : Fin 8} {vd va : Fin 16} {x : Fin 32} :
    KeepsR s₀ (execVshrl core et vd va x s) := by
  unfold execVshrl
  repeat' (first
    | with_reducible assumption | split | with_reducible apply KeepsR.next | with_reducible apply vShift_keeps
    | dsimp -zeta only)

theorem execVshra_keeps {s₀ s : State} (h : Keeps s₀ s) {core : Core} {et : Fin 8} {vd va : Fin 16} {x : Fin 32} :
    KeepsR s₀ (execVshra core et vd va x s) := by
  unfold execVshra
  repeat' (first
    | with_reducible assumption | with_reducible apply KeepsR.next | with_reducible apply vShift_keeps | dsimp -zeta only)

theorem vCompare_keeps {s₀ s : State} (h : Keeps s₀ s) {core : Core} {i : Instr} {et : Fin 8} {iop : Int → Int → Bool} {fop : Ordering → Bool} {vd va vb : Fin 16} :
    KeepsR s₀ (vCompare core i et iop fop vd va vb s) := by
  unfold vCompare
  repeat' (first
    | with_reducible assumption | (unfold x; clear x)
    | (extract_lets +onlyGivenNames x; first | (refine Keeps.bind (s := s₀) (x := x) ?_ ?_; intro _; clear_value x; revert x; intros) | (clear_value x; revert x; intros))
    | split | with_reducible apply KeepsR.next | with_reducible apply vecOp_keeps
    | (with_reducible apply Keeps.fst (e := by with_reducible assumption))
    | (with_reducible apply Keeps.snd (e := by with_reducible assumption))
    | (with_reducible apply Keeps.fst_eq (e := by with_reducible assumption))
    | (with_reducible apply Keeps.snd_eq (e := by with_reducible assumption)) | dsimp -zeta only)

theorem execVceq_keeps {s₀ s : State} (h : Keeps s₀ s) {core : Core} {et : Fin 8} {vd va vb : Fin 16} :
    KeepsR s₀ (execVceq core et vd va vb s) := by
  unfold execVceq
  repeat' (first
    | with_reducible assumption | with_reducible apply KeepsR.next | with_reducible apply vCompare_keeps | dsimp -zeta only)

theorem execVclt_keeps {s₀ s : State} (h : Keeps s₀ s) {core : Core} {et : Fin 8} {vd va vb : Fin 16} :
    KeepsR s₀ (execVclt core et vd va vb s) := by
  unfold execVclt
  repeat' (first
    | with_reducible assumption | with_reducible apply KeepsR.next | with_reducible apply vCompare_keeps | dsimp -zeta only)

theorem execVcle_keeps {s₀ s : State} (h : Keeps s₀ s) {core : Core} {et : Fin 8} {vd va vb : Fin 16} :
    KeepsR s₀ (execVcle core et vd va vb s) := by
  unfold execVcle
  repeat' (first
    | with_reducible assumption | with_reducible apply KeepsR.next | with_reducible apply vCompare_keeps | dsimp -zeta only)

theorem execVsel_keeps {s₀ s : State} (h : Keeps s₀ s) {core : Core} {et : Fin 8} {vd va vb : Fin 16} :
    KeepsR s₀ (execVsel core et vd va vb s) := by
  unfold execVsel
  repeat' (first
    | with_reducible assumption | (unfold x; clear x)
    | (extract_lets +onlyGivenNames x; first | (refine Keeps.bind (s := s₀) (x := x) ?_ ?_; intro _; clear_value x; revert x; intros) | (clear_value x; revert x; intros))
    | split | with_reducible apply KeepsR.next | with_reducible apply vecOp_keeps | dsimp -zeta only)

theorem execVbcast_keeps {s₀ s : State} (h : Keeps s₀ s) {core : Core} {et : Fin 8} {vd : Fin 16} {x : Fin 32} :
    KeepsR s₀ (execVbcast core et vd x s) := by
  unfold execVbcast
  repeat' (first
    | with_reducible assumption | with_reducible apply KeepsR.next | with_reducible apply vecMove_keeps | dsimp -zeta only)

theorem execVext_keeps {s₀ s : State} (h : Keeps s₀ s) {core : Core} {et : Fin 8} {va : Fin 16} {lane : BitVec 8} {x : Fin 32} :
    KeepsR s₀ (execVext core et va lane x s) := by
  unfold execVext
  repeat' (first
    | with_reducible assumption | with_reducible apply KeepsR.next | with_reducible apply vecMove_keeps | dsimp -zeta only)

theorem execVins_keeps {s₀ s : State} (h : Keeps s₀ s) {core : Core} {et : Fin 8} {vd : Fin 16} {lane : BitVec 8} {x : Fin 32} :
    KeepsR s₀ (execVins core et vd lane x s) := by
  unfold execVins
  repeat' (first
    | with_reducible assumption | with_reducible apply KeepsR.next | with_reducible apply vecMove_keeps | dsimp -zeta only)

theorem execVmov_keeps {s₀ s : State} (h : Keeps s₀ s) {core : Core} {et : Fin 8} {vd va : Fin 16} :
    KeepsR s₀ (execVmov core et vd va s) := by
  unfold execVmov
  repeat' (first
    | with_reducible assumption | with_reducible apply KeepsR.next | with_reducible apply vecMove_keeps | dsimp -zeta only)

theorem execVperm_keeps {s₀ s : State} (h : Keeps s₀ s) {core : Core} {et : Fin 8} {vd va vb : Fin 16} :
    KeepsR s₀ (execVperm core et vd va vb s) := by
  unfold execVperm
  repeat' (first
    | with_reducible assumption | (unfold x; clear x)
    | (extract_lets +onlyGivenNames x; first | (refine Keeps.bind (s := s₀) (x := x) ?_ ?_; intro _; clear_value x; revert x; intros) | (clear_value x; revert x; intros))
    | with_reducible apply KeepsR.next | with_reducible apply vecMove_keeps | dsimp -zeta only)

theorem execVrsum_keeps {s₀ s : State} (h : Keeps s₀ s) {core : Core} {et : Fin 8} {va : Fin 16} {x : Fin 32} :
    KeepsR s₀ (execVrsum core et va x s) := by
  unfold execVrsum
  repeat' (first
    | with_reducible assumption | (unfold x; clear x)
    | (extract_lets +onlyGivenNames x; first | (refine Keeps.bind (s := s₀) (x := x) ?_ ?_; intro _; clear_value x; revert x; intros) | (clear_value x; revert x; intros))
    | split | with_reducible apply KeepsR.next | with_reducible apply vecOp_keeps
    | (with_reducible apply Keeps.foldl; intro _ _ _) | (with_reducible apply Keeps.foldl_fst; intro _ _ _)
    | (with_reducible apply Keeps.foldl_snd; intro _ _ _)
    | (with_reducible apply Keeps.fst (e := by with_reducible assumption))
    | (with_reducible apply Keeps.snd (e := by with_reducible assumption))
    | (with_reducible apply Keeps.fst_eq (e := by with_reducible assumption))
    | (with_reducible apply Keeps.snd_eq (e := by with_reducible assumption)) | dsimp -zeta only
    | with_reducible apply Keeps.upd)

theorem vReduce_keeps {s₀ s : State} (h : Keeps s₀ s) {core : Core} {i : Instr} {et : Fin 8} {iop : Int → Int → Int} {fop : FVal → FVal → FVal} {va : Fin 16} {x : Fin 32} :
    KeepsR s₀ (vReduce core i et iop fop va x s) := by
  unfold vReduce
  repeat' (first
    | with_reducible assumption | (unfold x; clear x)
    | (extract_lets +onlyGivenNames x; first | (refine Keeps.bind (s := s₀) (x := x) ?_ ?_; intro _; clear_value x; revert x; intros) | (clear_value x; revert x; intros))
    | split | with_reducible apply KeepsR.next | with_reducible apply vecOp_keeps
    | (with_reducible apply Keeps.foldl; intro _ _ _) | (with_reducible apply Keeps.foldl_fst; intro _ _ _)
    | (with_reducible apply Keeps.foldl_snd; intro _ _ _)
    | (with_reducible apply Keeps.fst (e := by with_reducible assumption))
    | (with_reducible apply Keeps.snd (e := by with_reducible assumption))
    | (with_reducible apply Keeps.fst_eq (e := by with_reducible assumption))
    | (with_reducible apply Keeps.snd_eq (e := by with_reducible assumption)) | dsimp -zeta only
    | with_reducible apply Keeps.upd)

theorem execVrmax_keeps {s₀ s : State} (h : Keeps s₀ s) {core : Core} {et : Fin 8} {va : Fin 16} {x : Fin 32} :
    KeepsR s₀ (execVrmax core et va x s) := by
  unfold execVrmax
  repeat' (first
    | with_reducible assumption | split | with_reducible apply KeepsR.next | with_reducible apply vReduce_keeps
    | dsimp -zeta only)

theorem execVrmin_keeps {s₀ s : State} (h : Keeps s₀ s) {core : Core} {et : Fin 8} {va : Fin 16} {x : Fin 32} :
    KeepsR s₀ (execVrmin core et va x s) := by
  unfold execVrmin
  repeat' (first
    | with_reducible assumption | split | with_reducible apply KeepsR.next | with_reducible apply vReduce_keeps
    | dsimp -zeta only)

theorem execVamax_keeps {s₀ s : State} (h : Keeps s₀ s) {core : Core} {et : Fin 8} {va : Fin 16} :
    KeepsR s₀ (execVamax core et va s) := by
  unfold execVamax
  repeat' (first
    | with_reducible assumption | (unfold x; clear x)
    | (extract_lets +onlyGivenNames x; first | (refine Keeps.bind (s := s₀) (x := x) ?_ ?_; intro _; clear_value x; revert x; intros) | (clear_value x; revert x; intros))
    | split | with_reducible apply KeepsR.next | with_reducible apply vecOp_keeps
    | (with_reducible apply Keeps.foldl; intro _ _ _) | (with_reducible apply Keeps.foldl_fst; intro _ _ _)
    | (with_reducible apply Keeps.foldl_snd; intro _ _ _)
    | (with_reducible apply Keeps.fst (e := by with_reducible assumption))
    | (with_reducible apply Keeps.snd (e := by with_reducible assumption))
    | (with_reducible apply Keeps.fst_eq (e := by with_reducible assumption))
    | (with_reducible apply Keeps.snd_eq (e := by with_reducible assumption)) | dsimp -zeta only
    | with_reducible apply Keeps.upd)

theorem execVcvt_keeps {s₀ s : State} (h : Keeps s₀ s) {core : Core} {vd va : Fin 16} {rm : Fin 2} {dfmt sfmt : BitVec 8} :
    KeepsR s₀ (execVcvt core vd va rm dfmt sfmt s) := by
  unfold execVcvt
  repeat' (first
    | with_reducible assumption | (unfold x; clear x)
    | (extract_lets +onlyGivenNames x; first | (refine Keeps.bind (s := s₀) (x := x) ?_ ?_; intro _; clear_value x; revert x; intros) | (clear_value x; revert x; intros))
    | split | with_reducible apply KeepsR.next | (with_reducible apply awlStep_keeps; intro _ _ _)
    | with_reducible apply leanGate_keeps | with_reducible apply AwlKeeps.done | with_reducible apply AwlKeeps.fault
    | with_reducible apply AwlKeeps.wait | with_reducible apply AwlKeeps.stall | with_reducible apply AwlKeeps.halt
    | (with_reducible apply Keeps.fst (e := by with_reducible assumption))
    | (with_reducible apply Keeps.snd (e := by with_reducible assumption))
    | (with_reducible apply Keeps.fst_eq (e := by with_reducible assumption))
    | (with_reducible apply Keeps.snd_eq (e := by with_reducible assumption)) | dsimp -zeta only
    | with_reducible apply Keeps.upd)

end Sys2Proof.Machine
end

