-- ==== Sys2Proof/Laws/Keeps/Stash.lean ====
section
/-! SUPPORT. What the operations of Machine/Stash.lean keep (`Keeps`). -/

namespace Sys2Proof.Machine

theorem drawPages_keeps {s₀ s : State} (h : Keeps s₀ s) {n : Nat} {ps : List Nat} : Keeps s₀ (drawPages s n ps).2 := by
  induction n generalizing s ps with
  | zero => exact h
  | succ n ih =>
    unfold drawPages
    split
    · exact h
    · exact ih (takeFree_keeps h)

theorem pokeSpans_keeps {s₀ s : State} (h : Keeps s₀ s) {rs : List (Nat × Nat)} {d : Bytes} : Keeps s₀ (pokeSpans s rs d) := by
  induction rs generalizing s d with
  | nil => exact h
  | cons r rs ih => exact ih (poke_keeps h)

theorem readSpans_keeps {s₀ s : State} (h : Keeps s₀ s) {hh : Nat} {cmd : Option CmdId} {rs : List (Nat × Nat)} :
    Keeps s₀ (readSpans s hh cmd rs).1 := by
  induction rs generalizing s with
  | nil => exact h
  | cons r rs ih =>
    unfold readSpans
    repeat' (first
      | with_reducible assumption | (unfold x; clear x)
      | (extract_lets +onlyGivenNames x; first | (refine Keeps.bind (s := s₀) (x := x) ?_ ?_; intro _; clear_value x; revert x; intros) | (clear_value x; revert x; intros))
      | split | with_reducible apply ih | with_reducible apply memRead_keeps
      | (with_reducible apply Keeps.fst (e := by with_reducible assumption))
      | (with_reducible apply Keeps.snd (e := by with_reducible assumption))
      | (with_reducible apply Keeps.fst_eq (e := by with_reducible assumption))
      | (with_reducible apply Keeps.snd_eq (e := by with_reducible assumption)) | dsimp -zeta only
      | with_reducible apply Keeps.upd)

theorem stashCount_keeps {s₀ s : State} (h : Keeps s₀ s) {k : Nat} {far : Bool} {rs : List (Nat × Nat)} :
    Keeps s₀ (stashCount s k far rs) := by
  unfold stashCount
  repeat' (first
    | with_reducible assumption | (unfold x; clear x)
    | (extract_lets +onlyGivenNames x; first | (refine Keeps.bind (s := s₀) (x := x) ?_ ?_; intro _; clear_value x; revert x; intros) | (clear_value x; revert x; intros))
    | split | with_reducible apply takeFree_keeps | with_reducible apply cntMem_keeps
    | (with_reducible apply Keeps.foldl; intro _ _ _) | (with_reducible apply Keeps.foldl_fst; intro _ _ _)
    | (with_reducible apply Keeps.foldl_snd; intro _ _ _)
    | (with_reducible apply Keeps.fst (e := by with_reducible assumption))
    | (with_reducible apply Keeps.snd (e := by with_reducible assumption))
    | (with_reducible apply Keeps.fst_eq (e := by with_reducible assumption))
    | (with_reducible apply Keeps.snd_eq (e := by with_reducible assumption)) | dsimp -zeta only)

theorem saddleAny_keeps {s₀ s : State} (h : Keeps s₀ s)  :
    Keeps s₀ (saddleAny s).2 := by
  unfold saddleAny
  repeat' (first
    | with_reducible assumption | with_reducible apply unitAt_keeps)

theorem saddleFail_keeps {s₀ s : State} (h : Keeps s₀ s) {h : Nat} {c : Cmd} {code : Nat} :
    Keeps s₀ (saddleFail s h c code) := by
  unfold saddleFail
  repeat' (first
    | with_reducible assumption | (unfold x; clear x)
    | (extract_lets +onlyGivenNames x; first | (refine Keeps.bind (s := s₀) (x := x) ?_ ?_; intro _; clear_value x; revert x; intros) | (clear_value x; revert x; intros))
    | split | with_reducible apply saddleAny_keeps | with_reducible apply failRunning_keeps
    | (with_reducible apply Keeps.fst (e := by with_reducible assumption))
    | (with_reducible apply Keeps.snd (e := by with_reducible assumption))
    | (with_reducible apply Keeps.fst_eq (e := by with_reducible assumption))
    | (with_reducible apply Keeps.snd_eq (e := by with_reducible assumption)) | dsimp -zeta only)

theorem storeEntry_keeps {s₀ s : State} (h : Keeps s₀ s) {h : Nat} {c : Cmd} {d : Desc} {e : StashEntry} :
    Keeps s₀ (storeEntry s h c d e) := by
  unfold storeEntry
  dsimp only
  repeat' (first
    | with_reducible assumption | (unfold x; clear x)
    | (extract_lets +onlyGivenNames x; first | (refine Keeps.bind (s := s₀) (x := x) ?_ ?_; intro _; clear_value x; revert x; intros) | (clear_value x; revert x; intros))
    | split | with_reducible apply saddleOf_keeps | with_reducible apply notices_keeps
    | with_reducible apply saddleCount_keeps | with_reducible apply stashCount_keeps | with_reducible apply pokeSpans_keeps
    | with_reducible apply syncStash_keeps | with_reducible apply updCmd_keeps | with_reducible apply touchWrites_keeps
    | with_reducible apply holdBack_keeps | with_reducible apply failRunning_keeps
    | (with_reducible apply Keeps.foldl; intro _ _ _) | (with_reducible apply Keeps.foldl_fst; intro _ _ _)
    | (with_reducible apply Keeps.foldl_snd; intro _ _ _)
    | (with_reducible apply Keeps.fst (e := by with_reducible assumption))
    | (with_reducible apply Keeps.snd (e := by with_reducible assumption))
    | (with_reducible apply Keeps.fst_eq (e := by with_reducible assumption))
    | (with_reducible apply Keeps.snd_eq (e := by with_reducible assumption)) | dsimp -zeta only
    | with_reducible apply Keeps.upd)

theorem placePut_keeps {s₀ s : State} (h : Keeps s₀ s) {h : Nat} {c : Cmd} {d : Desc} :
    Keeps s₀ (placePut s h c d) := by
  unfold placePut
  dsimp only
  repeat' (first
    | with_reducible assumption | (unfold x; clear x)
    | (extract_lets +onlyGivenNames x; first | (refine Keeps.bind (s := s₀) (x := x) ?_ ?_; intro _; clear_value x; revert x; intros) | (clear_value x; revert x; intros))
    | split | with_reducible apply saddleFail_keeps | with_reducible apply syncStash_keeps
    | with_reducible apply drawPages_keeps | with_reducible apply storeEntry_keeps | with_reducible apply saddleAny_keeps
    | with_reducible apply wr_keeps | with_reducible apply emberCode_keeps | with_reducible apply ticketFlags_keeps
    | with_reducible apply saddleCount_keeps | with_reducible apply cmdDone_keeps | with_reducible apply updCmd_keeps
    | (with_reducible apply Keeps.fst (e := by with_reducible assumption))
    | (with_reducible apply Keeps.snd (e := by with_reducible assumption))
    | (with_reducible apply Keeps.fst_eq (e := by with_reducible assumption))
    | (with_reducible apply Keeps.snd_eq (e := by with_reducible assumption)) | dsimp -zeta only
    | with_reducible apply Keeps.upd)

theorem stashDeadlock_keeps {s₀ s : State} (h : Keeps s₀ s)  :
    Keeps s₀ (stashDeadlock s) := by
  unfold stashDeadlock
  repeat' (first
    | with_reducible assumption | (unfold x; clear x)
    | (extract_lets +onlyGivenNames x; first | (refine Keeps.bind (s := s₀) (x := x) ?_ ?_; intro _; clear_value x; revert x; intros) | (clear_value x; revert x; intros))
    | split | with_reducible apply wr_keeps | with_reducible apply saddleFail_keeps | with_reducible apply syncStash_keeps
    | (with_reducible apply Keeps.fst (e := by with_reducible assumption))
    | (with_reducible apply Keeps.snd (e := by with_reducible assumption))
    | (with_reducible apply Keeps.fst_eq (e := by with_reducible assumption))
    | (with_reducible apply Keeps.snd_eq (e := by with_reducible assumption)) | dsimp -zeta only
    | with_reducible apply Keeps.upd)

theorem orStash_keeps {s₀ : State} {α : Type} {r : State × Req α} {k : State → α → State}
    (hk : ∀ s a, Keeps s₀ s → Keeps s₀ (k s a)) (hr : Keeps s₀ r.1) {h : Nat} {c : Cmd} : Keeps s₀ (orStash h c r k) := by
  unfold orStash
  obtain ⟨t, q⟩ := r
  cases q with
  | fail code => exact failRunning_keeps (saddleAny_keeps hr)
  | ok a => exact orFail_keeps (r := (_, .ok a)) hk hr
  | wait => exact orFail_keeps (r := (_, .wait)) hk hr

theorem execStashPut_keeps {s₀ s : State} (k : Keeps s₀ s) {h : Fin 16} {seq : BitVec 32} : KeepsR s₀ (execStashPut h seq s) :=
  opRow_keeps (fun _ _ k => orStash_keeps (fun _ _ k => stashDeadlock_keeps (placePut_keeps k)) (readTensors_keeps k)) k

theorem execStashStoreComplete_keeps {s₀ s : State} (h : Keeps s₀ s) {h : Fin 16} {seq : BitVec 32} :
    KeepsR s₀ (execStashStoreComplete h seq s) := by
  unfold execStashStoreComplete
  repeat' (first
    | with_reducible assumption | (unfold x; clear x)
    | (extract_lets +onlyGivenNames x; first | (refine Keeps.bind (s := s₀) (x := x) ?_ ?_; intro _; clear_value x; revert x; intros) | (clear_value x; revert x; intros))
    | split | with_reducible apply KeepsR.next | with_reducible apply syncRails_keeps | with_reducible apply cmdDone_keeps
    | (with_reducible apply Keeps.fst (e := by with_reducible assumption))
    | (with_reducible apply Keeps.snd (e := by with_reducible assumption))
    | (with_reducible apply Keeps.fst_eq (e := by with_reducible assumption))
    | (with_reducible apply Keeps.snd_eq (e := by with_reducible assumption)) | dsimp -zeta only
    | with_reducible apply Keeps.upd)

theorem execStashPutRetry_keeps {s₀ s : State} (h : Keeps s₀ s) {h : Fin 16} {seq : BitVec 32} :
    KeepsR s₀ (execStashPutRetry h seq s) := by
  unfold execStashPutRetry
  repeat' (first
    | with_reducible assumption | (unfold x; clear x)
    | (extract_lets +onlyGivenNames x; first | (refine Keeps.bind (s := s₀) (x := x) ?_ ?_; intro _; clear_value x; revert x; intros) | (clear_value x; revert x; intros))
    | split | with_reducible apply KeepsR.next | (with_reducible apply orStash_keeps; intro _ _ _)
    | with_reducible apply readTensors_keeps | with_reducible apply placePut_keeps
    | (with_reducible apply Keeps.fst (e := by with_reducible assumption))
    | (with_reducible apply Keeps.snd (e := by with_reducible assumption))
    | (with_reducible apply Keeps.fst_eq (e := by with_reducible assumption))
    | (with_reducible apply Keeps.snd_eq (e := by with_reducible assumption)) | dsimp -zeta only
    | with_reducible apply Keeps.upd)

theorem copyBack_keeps {s₀ s : State} (h : Keeps s₀ s) {c : Cmd} {e : StashEntry} {d : Desc} {b : Bytes} :
    Keeps s₀ (copyBack s c e d b).1 := by
  unfold copyBack
  repeat' (first
    | with_reducible assumption | (unfold x; clear x)
    | (extract_lets +onlyGivenNames x; first | (refine Keeps.bind (s := s₀) (x := x) ?_ ?_; intro _; clear_value x; revert x; intros) | (clear_value x; revert x; intros))
    | split | with_reducible apply Desc.setBlock_keeps | with_reducible apply Desc.setRaw_keeps
    | (with_reducible apply each_keeps; intro _ _ _) | (with_reducible apply Keeps.foldl; intro _ _ _)
    | (with_reducible apply Keeps.foldl_fst; intro _ _ _) | (with_reducible apply Keeps.foldl_snd; intro _ _ _)
    | (with_reducible apply Keeps.fst (e := by with_reducible assumption))
    | (with_reducible apply Keeps.snd (e := by with_reducible assumption))
    | (with_reducible apply Keeps.fst_eq (e := by with_reducible assumption))
    | (with_reducible apply Keeps.snd_eq (e := by with_reducible assumption)) | dsimp -zeta only
    | with_reducible apply Keeps.upd)

theorem getRows_keeps {s₀ s : State} (h : Keeps s₀ s) {h : Nat} {c : Cmd} {d : Desc} {e : StashEntry} :
    Keeps s₀ (getRows s h c d e) := by
  unfold getRows
  repeat' (first
    | with_reducible assumption | (unfold x; clear x)
    | (extract_lets +onlyGivenNames x; first | (refine Keeps.bind (s := s₀) (x := x) ?_ ?_; intro _; clear_value x; revert x; intros) | (clear_value x; revert x; intros))
    | split | with_reducible apply saddleOf_keeps | (with_reducible apply orFail_keeps; intro _ _ _)
    | with_reducible apply readSpans_keeps | (with_reducible apply storing_keeps; intro _ _)
    | with_reducible apply copyBack_keeps | with_reducible apply cmdDone_keeps | with_reducible apply stashCount_keeps
    | with_reducible apply reportStore_keeps | (with_reducible apply Keeps.fst (e := by with_reducible assumption))
    | (with_reducible apply Keeps.snd (e := by with_reducible assumption))
    | (with_reducible apply Keeps.fst_eq (e := by with_reducible assumption))
    | (with_reducible apply Keeps.snd_eq (e := by with_reducible assumption)) | dsimp -zeta only)

theorem execStashGet_keeps {s₀ s : State} (h : Keeps s₀ s) {h : Fin 16} {seq : BitVec 32} :
    KeepsR s₀ (execStashGet h seq s) := by
  unfold execStashGet
  dsimp only
  repeat' (first
    | with_reducible assumption | (unfold x; clear x)
    | (extract_lets +onlyGivenNames x; first | (refine Keeps.bind (s := s₀) (x := x) ?_ ?_; intro _; clear_value x; revert x; intros) | (clear_value x; revert x; intros))
    | split | with_reducible apply KeepsR.next | (with_reducible apply opRow_keeps; intro _ _ _)
    | with_reducible apply saddleFail_keeps | with_reducible apply saddleOf_keeps | with_reducible apply failRunning_keeps
    | with_reducible apply recompute_keeps | with_reducible apply cntHearth_keeps | with_reducible apply updCmd_keeps
    | with_reducible apply getRows_keeps | (with_reducible apply Keeps.fst (e := by with_reducible assumption))
    | (with_reducible apply Keeps.snd (e := by with_reducible assumption))
    | (with_reducible apply Keeps.fst_eq (e := by with_reducible assumption))
    | (with_reducible apply Keeps.snd_eq (e := by with_reducible assumption)) | dsimp -zeta only
    | with_reducible apply Keeps.upd)

theorem getEnds_keeps {s₀ s : State} (h : Keeps s₀ s) {h : Nat} {c : Cmd} :
    Keeps s₀ (getEnds s h c) := by
  unfold getEnds
  repeat' (first
    | with_reducible assumption | (unfold x; clear x)
    | (extract_lets +onlyGivenNames x; first | (refine Keeps.bind (s := s₀) (x := x) ?_ ?_; intro _; clear_value x; revert x; intros) | (clear_value x; revert x; intros))
    | split | with_reducible apply freeStash_keeps | (with_reducible apply Keeps.fst (e := by with_reducible assumption))
    | (with_reducible apply Keeps.snd (e := by with_reducible assumption))
    | (with_reducible apply Keeps.fst_eq (e := by with_reducible assumption))
    | (with_reducible apply Keeps.snd_eq (e := by with_reducible assumption)) | dsimp -zeta only
    | with_reducible apply Keeps.upd)

end Sys2Proof.Machine
end

