-- ==== Sys2Proof/Laws/Keeps/Links.lean ====
section
/-! SUPPORT. What the operations of Machine/Links.lean keep (`Keeps`). -/

namespace Sys2Proof.Machine

theorem setLink_keeps {s₀ s : State} (h : Keeps s₀ s) {l : Nat} {x : LinkSt} :
    Keeps s₀ (setLink s l x) := by
  unfold setLink
  repeat' (first
    | with_reducible assumption | (unfold x; clear x)
    | (extract_lets +onlyGivenNames x; first | (refine Keeps.bind (s := s₀) (x := x) ?_ ?_; intro _; clear_value x; revert x; intros) | (clear_value x; revert x; intros))
    | with_reducible apply Keeps.upd)

theorem sendLocal_keeps {s₀ s : State} (h : Keeps s₀ s) {l type lseq : Nat} {payload : Bytes} :
    Keeps s₀ (sendLocal s l type lseq payload) := by
  unfold sendLocal
  repeat' (first
    | with_reducible assumption | (unfold x; clear x)
    | (extract_lets +onlyGivenNames x; first | (refine Keeps.bind (s := s₀) (x := x) ?_ ?_; intro _; clear_value x; revert x; intros) | (clear_value x; revert x; intros))
    | with_reducible apply emit_keeps)

theorem transmit_keeps {s₀ s : State} (h : Keeps s₀ s) {l : Nat} {p : Pkt} :
    Keeps s₀ (transmit s l p) := by
  unfold transmit
  repeat' (first
    | with_reducible assumption | (unfold x; clear x)
    | (extract_lets +onlyGivenNames x; first | (refine Keeps.bind (s := s₀) (x := x) ?_ ?_; intro _; clear_value x; revert x; intros) | (clear_value x; revert x; intros))
    | split | with_reducible apply setLink_keeps | with_reducible apply cntLink_keeps | with_reducible apply emit_keeps
    | dsimp -zeta only | with_reducible apply Keeps.upd)

theorem pumpLink_keeps {s₀ s : State} (h : Keeps s₀ s) {l : Nat} : Keeps s₀ (pumpLink s l) := by
  unfold pumpLink
  extract_lets +onlyGivenNames q u r
  have hr : Keeps s₀ r.1 := by
    refine Keeps.foldl_fst (fun p a hp => ?_) (setLink_keeps h)
    obtain ⟨s, stuck, kept⟩ := p
    dsimp only
    split
    · exact hp
    · exact transmit_keeps hp
  clear_value r
  dsimp only
  split
  · exact wr_keeps (setLink_keeps hr)
  · exact setLink_keeps hr

theorem post_keeps {s₀ s : State} (h : Keeps s₀ s) {l : Nat} {p : Pkt} :
    Keeps s₀ (post s l p) := by
  unfold post
  repeat' (first
    | with_reducible assumption | (unfold x; clear x)
    | (extract_lets +onlyGivenNames x; first | (refine Keeps.bind (s := s₀) (x := x) ?_ ?_; intro _; clear_value x; revert x; intros) | (clear_value x; revert x; intros))
    | split | with_reducible apply cntLink_keeps | with_reducible apply pumpLink_keeps | with_reducible apply setLink_keeps
    | with_reducible apply Keeps.upd)

theorem sendTo_keeps {s₀ s : State} (h : Keeps s₀ s) {type dst stream : Nat} {payload : Bytes} :
    Keeps s₀ (sendTo s type dst stream payload) := by
  unfold sendTo
  repeat' (first
    | with_reducible assumption | (unfold x; clear x)
    | (extract_lets +onlyGivenNames x; first | (refine Keeps.bind (s := s₀) (x := x) ?_ ?_; intro _; clear_value x; revert x; intros) | (clear_value x; revert x; intros))
    | split | with_reducible apply post_keeps | (with_reducible apply Keeps.fst (e := by with_reducible assumption))
    | (with_reducible apply Keeps.snd (e := by with_reducible assumption))
    | (with_reducible apply Keeps.fst_eq (e := by with_reducible assumption))
    | (with_reducible apply Keeps.snd_eq (e := by with_reducible assumption)) | with_reducible apply Keeps.upd)

theorem rejectFrame_keeps {s₀ s : State} (h : Keeps s₀ s) {p : Pkt} {code : Nat} :
    Keeps s₀ (rejectFrame s p code) := by
  unfold rejectFrame
  repeat' (first
    | with_reducible assumption | (unfold x; clear x)
    | (extract_lets +onlyGivenNames x; first | (refine Keeps.bind (s := s₀) (x := x) ?_ ?_; intro _; clear_value x; revert x; intros) | (clear_value x; revert x; intros))
    | split | with_reducible apply satAdd_keeps | with_reducible apply wr_keeps | with_reducible apply sendTo_keeps
    | dsimp -zeta only | with_reducible apply Keeps.upd)

theorem noteForward_keeps {s₀ s : State} (h : Keeps s₀ s) {p : Pkt} {l : Option Nat} :
    Keeps s₀ (noteForward s p l) := by
  unfold noteForward
  repeat' (first
    | with_reducible assumption | (unfold x; clear x)
    | (extract_lets +onlyGivenNames x; first | (refine Keeps.bind (s := s₀) (x := x) ?_ ?_; intro _; clear_value x; revert x; intros) | (clear_value x; revert x; intros))
    | split | dsimp -zeta only | with_reducible apply Keeps.upd)

theorem forwardFrame_keeps {s₀ s : State} (h : Keeps s₀ s) {p : Pkt} :
    Keeps s₀ (forwardFrame s p) := by
  unfold forwardFrame
  repeat' (first
    | with_reducible assumption | (unfold x; clear x)
    | (extract_lets +onlyGivenNames x; first | (refine Keeps.bind (s := s₀) (x := x) ?_ ?_; intro _; clear_value x; revert x; intros) | (clear_value x; revert x; intros))
    | split | with_reducible apply noteForward_keeps | with_reducible apply rejectFrame_keeps
    | with_reducible apply post_keeps | with_reducible apply cntLink_keeps
    | (with_reducible apply Keeps.fst (e := by with_reducible assumption))
    | (with_reducible apply Keeps.snd (e := by with_reducible assumption))
    | (with_reducible apply Keeps.fst_eq (e := by with_reducible assumption))
    | (with_reducible apply Keeps.snd_eq (e := by with_reducible assumption)) | with_reducible apply Keeps.upd)

theorem setTx_keeps {s₀ s : State} (h : Keeps s₀ s) {t : TxStream} :
    Keeps s₀ (setTx s t) := by
  unfold setTx
  repeat' (first
    | with_reducible assumption | (unfold x; clear x)
    | (extract_lets +onlyGivenNames x; first | (refine Keeps.bind (s := s₀) (x := x) ?_ ?_; intro _; clear_value x; revert x; intros) | (clear_value x; revert x; intros))
    | split | dsimp -zeta only | with_reducible apply Keeps.upd)

theorem pumpTx_keeps {s₀ s : State} (h : Keeps s₀ s) {num n : Nat} : Keeps s₀ (pumpTx s num n) := by
  induction n generalizing s with
  | zero => exact h
  | succ n ih =>
    unfold pumpTx
    repeat' (first
      | with_reducible assumption | (unfold x; clear x)
      | (extract_lets +onlyGivenNames x; first | (refine Keeps.bind (s := s₀) (x := x) ?_ ?_; intro _; clear_value x; revert x; intros) | (clear_value x; revert x; intros))
      | split | with_reducible apply ih | with_reducible apply post_keeps | with_reducible apply setTx_keeps
      | with_reducible apply unitAt_keeps | with_reducible apply cntMem_keeps | with_reducible apply wr_keeps
      | with_reducible apply emberCode_keeps | with_reducible apply updCmd_keeps
      | (with_reducible apply Keeps.fst (e := by with_reducible assumption))
      | (with_reducible apply Keeps.snd (e := by with_reducible assumption))
      | (with_reducible apply Keeps.fst_eq (e := by with_reducible assumption))
      | (with_reducible apply Keeps.snd_eq (e := by with_reducible assumption)) | dsimp -zeta only
      | with_reducible apply Keeps.upd)

theorem pumpStream_keeps {s₀ s : State} (h : Keeps s₀ s) {t : TxStream} :
    Keeps s₀ (pumpStream s t) := by
  unfold pumpStream
  repeat' (first
    | with_reducible assumption | with_reducible apply pumpTx_keeps)

theorem openStream_keeps {s₀ s : State} (h : Keeps s₀ s) {dst vc : Nat} {desc bytes : Bytes} {total : Nat} {cmd coll : Nat × Nat} :
    Keeps s₀ (openStream s dst vc desc bytes total cmd coll).1 := by
  unfold openStream
  repeat' (first
    | with_reducible assumption | (unfold x; clear x)
    | (extract_lets +onlyGivenNames x; first | (refine Keeps.bind (s := s₀) (x := x) ?_ ?_; intro _; clear_value x; revert x; intros) | (clear_value x; revert x; intros))
    | split | with_reducible apply cntHearth_keeps | with_reducible apply pumpStream_keeps
    | (with_reducible apply Keeps.fst (e := by with_reducible assumption))
    | (with_reducible apply Keeps.snd (e := by with_reducible assumption))
    | (with_reducible apply Keeps.fst_eq (e := by with_reducible assumption))
    | (with_reducible apply Keeps.snd_eq (e := by with_reducible assumption)) | dsimp -zeta only
    | with_reducible apply Keeps.upd)

theorem acceptFrame_keeps {s₀ s : State} (h : Keeps s₀ s) {l : Nat} {f : Frame} :
    Keeps s₀ (acceptFrame s l f) := by
  unfold acceptFrame
  repeat' (first
    | with_reducible assumption | (unfold x; clear x)
    | (extract_lets +onlyGivenNames x; first | (refine Keeps.bind (s := s₀) (x := x) ?_ ?_; intro _; clear_value x; revert x; intros) | (clear_value x; revert x; intros))
    | with_reducible apply satAdd_keeps | with_reducible apply setLink_keeps | with_reducible apply cntLink_keeps
    | with_reducible apply sendLocal_keeps | dsimp -zeta only | with_reducible apply Keeps.upd)

theorem grantBack_keeps {s₀ s : State} (h : Keeps s₀ s) {l : Nat} {p : Pkt} :
    Keeps s₀ (grantBack s l p) := by
  unfold grantBack
  repeat' (first
    | with_reducible assumption | split | with_reducible apply sendLocal_keeps | dsimp -zeta only)

theorem execFrameDiscard_keeps {s₀ s : State} (h : Keeps s₀ s) {l : Fin 13} {f : Frame} :
    KeepsR s₀ (execFrameDiscard l f s) := by
  unfold execFrameDiscard
  repeat' (first
    | with_reducible assumption | (unfold x; clear x)
    | (extract_lets +onlyGivenNames x; first | (refine Keeps.bind (s := s₀) (x := x) ?_ ?_; intro _; clear_value x; revert x; intros) | (clear_value x; revert x; intros))
    | split | with_reducible apply KeepsR.next | with_reducible apply satAdd_keeps | with_reducible apply sendLocal_keeps
    | with_reducible apply setLink_keeps | with_reducible apply Keeps.upd)

theorem execAck_keeps {s₀ s : State} (h : Keeps s₀ s) {l : Fin 13} {f : Frame} :
    KeepsR s₀ (execAck l f s) := by
  unfold execAck
  repeat' (first
    | with_reducible assumption | (unfold x; clear x)
    | (extract_lets +onlyGivenNames x; first | (refine Keeps.bind (s := s₀) (x := x) ?_ ?_; intro _; clear_value x; revert x; intros) | (clear_value x; revert x; intros))
    | split | with_reducible apply KeepsR.next | with_reducible apply satAdd_keeps | with_reducible apply pumpLink_keeps
    | with_reducible apply setLink_keeps | dsimp -zeta only | with_reducible apply Keeps.upd)

theorem resend_keeps {s₀ s : State} (h : Keeps s₀ s) {l : Nat} :
    Keeps s₀ (resend s l) := by
  unfold resend
  repeat' (first
    | with_reducible assumption | with_reducible apply emit_keeps | (with_reducible apply each_keeps; intro _ _ _)
    | dsimp -zeta only)

theorem execNak_keeps {s₀ s : State} (h : Keeps s₀ s) {l : Fin 13} {f : Frame} :
    KeepsR s₀ (execNak l f s) := by
  unfold execNak
  repeat' (first
    | with_reducible assumption | (unfold x; clear x)
    | (extract_lets +onlyGivenNames x; first | (refine Keeps.bind (s := s₀) (x := x) ?_ ?_; intro _; clear_value x; revert x; intros) | (clear_value x; revert x; intros))
    | split | with_reducible apply KeepsR.next | with_reducible apply satAdd_keeps | with_reducible apply setLink_keeps
    | with_reducible apply wr_keeps | with_reducible apply emberCode_keeps | with_reducible apply resend_keeps
    | dsimp -zeta only | with_reducible apply Keeps.upd)

theorem execLcredit_keeps {s₀ s : State} (h : Keeps s₀ s) {l : Fin 13} {f : Frame} :
    KeepsR s₀ (execLcredit l f s) := by
  unfold execLcredit
  repeat' (first
    | with_reducible assumption | (unfold x; clear x)
    | (extract_lets +onlyGivenNames x; first | (refine Keeps.bind (s := s₀) (x := x) ?_ ?_; intro _; clear_value x; revert x; intros) | (clear_value x; revert x; intros))
    | split | with_reducible apply KeepsR.next | with_reducible apply satAdd_keeps | with_reducible apply pumpLink_keeps
    | with_reducible apply setLink_keeps | (with_reducible apply Keeps.foldl; intro _ _ _)
    | (with_reducible apply Keeps.foldl_fst; intro _ _ _) | (with_reducible apply Keeps.foldl_snd; intro _ _ _)
    | dsimp -zeta only | with_reducible apply Keeps.upd)

theorem endColl_keeps {s₀ s : State} (h : Keeps s₀ s) {id step : Nat} :
    Keeps s₀ (endColl s id step) := by
  unfold endColl
  repeat' (first
    | with_reducible assumption | (unfold x; clear x)
    | (extract_lets +onlyGivenNames x; first | (refine Keeps.bind (s := s₀) (x := x) ?_ ?_; intro _; clear_value x; revert x; intros) | (clear_value x; revert x; intros))
    | dsimp -zeta only | with_reducible apply Keeps.upd)

theorem endExchange_keeps {s₀ s : State} (h : Keeps s₀ s) {kind code : Nat} :
    Keeps s₀ (endExchange s kind code) := by
  unfold endExchange
  repeat' (first
    | with_reducible assumption | (unfold x; clear x)
    | (extract_lets +onlyGivenNames x; first | (refine Keeps.bind (s := s₀) (x := x) ?_ ?_; intro _; clear_value x; revert x; intros) | (clear_value x; revert x; intros))
    | split | with_reducible apply wr_keeps | with_reducible apply Keeps.upd)

theorem failColl_keeps {s₀ s : State} (h : Keeps s₀ s) {c : Coll} {unit code : Nat} :
    Keeps s₀ (failColl s c unit code) := by
  unfold failColl
  repeat' (first
    | with_reducible assumption | (unfold x; clear x)
    | (extract_lets +onlyGivenNames x; first | (refine Keeps.bind (s := s₀) (x := x) ?_ ?_; intro _; clear_value x; revert x; intros) | (clear_value x; revert x; intros))
    | split | with_reducible apply endExchange_keeps | with_reducible apply endColl_keeps
    | with_reducible apply failRunning_keeps | with_reducible apply Coll.unit_keeps
    | (with_reducible apply each_keeps; intro _ _ _) | (with_reducible apply Keeps.fst (e := by with_reducible assumption))
    | (with_reducible apply Keeps.snd (e := by with_reducible assumption))
    | (with_reducible apply Keeps.fst_eq (e := by with_reducible assumption))
    | (with_reducible apply Keeps.snd_eq (e := by with_reducible assumption)) | dsimp -zeta only
    | with_reducible apply Keeps.upd)

theorem mirrorFail_keeps {s₀ s : State} (h : Keeps s₀ s) {m : MirrorOut} :
    Keeps s₀ (mirrorFail s m) := by
  unfold mirrorFail
  repeat' (first
    | with_reducible assumption | (unfold x; clear x)
    | (extract_lets +onlyGivenNames x; first | (refine Keeps.bind (s := s₀) (x := x) ?_ ?_; intro _; clear_value x; revert x; intros) | (clear_value x; revert x; intros))
    | split | with_reducible apply dropHold_keeps | with_reducible apply wr_keeps | with_reducible apply emberCode_keeps
    | (with_reducible apply each_keeps; intro _ _ _) | dsimp -zeta only | with_reducible apply Keeps.upd)

theorem dropStreams_keeps {s₀ s : State} (h : Keeps s₀ s) {l : Nat} :
    Keeps s₀ (dropStreams s l) := by
  unfold dropStreams
  repeat' (first
    | with_reducible assumption | (unfold x; clear x)
    | (extract_lets +onlyGivenNames x; first | (refine Keeps.bind (s := s₀) (x := x) ?_ ?_; intro _; clear_value x; revert x; intros) | (clear_value x; revert x; intros))
    | split | with_reducible apply setLink_keeps | with_reducible apply failColl_keeps | with_reducible apply wr_keeps
    | with_reducible apply mirrorFail_keeps | (with_reducible apply each_keeps; intro _ _ _)
    | (with_reducible apply Keeps.fst (e := by with_reducible assumption))
    | (with_reducible apply Keeps.snd (e := by with_reducible assumption))
    | (with_reducible apply Keeps.fst_eq (e := by with_reducible assumption))
    | (with_reducible apply Keeps.snd_eq (e := by with_reducible assumption)) | dsimp -zeta only
    | with_reducible apply Keeps.upd)

theorem linkFail_keeps {s₀ s : State} (h : Keeps s₀ s) {l code : Nat} :
    Keeps s₀ (linkFail s l code) := by
  unfold linkFail
  repeat' (first
    | with_reducible assumption | (unfold x; clear x)
    | (extract_lets +onlyGivenNames x; first | (refine Keeps.bind (s := s₀) (x := x) ?_ ?_; intro _; clear_value x; revert x; intros) | (clear_value x; revert x; intros))
    | with_reducible apply wr_keeps | with_reducible apply dropStreams_keeps | with_reducible apply emberCode_keeps)

theorem execLinkRetrain_keeps {s₀ s : State} (h : Keeps s₀ s) {l : Fin 13} :
    KeepsR s₀ (execLinkRetrain l s) := by
  unfold execLinkRetrain
  repeat' (first
    | with_reducible assumption | split | with_reducible apply KeepsR.next | with_reducible apply wr_keeps)

theorem setTrained_keeps {s₀ s : State} (h : Keeps s₀ s) {l : Nat} {t : LinkTrain} {w : Nat} :
    Keeps s₀ (setTrained s l t w) := by
  unfold setTrained
  repeat' (first
    | with_reducible assumption | (unfold x; clear x)
    | (extract_lets +onlyGivenNames x; first | (refine Keeps.bind (s := s₀) (x := x) ?_ ?_; intro _; clear_value x; revert x; intros) | (clear_value x; revert x; intros))
    | split | with_reducible apply wr_keeps | with_reducible apply emberCode_keeps | with_reducible apply setLink_keeps
    | with_reducible apply Keeps.upd)

theorem execLinkRetrainComplete_keeps {s₀ s : State} (h : Keeps s₀ s) {l : Fin 13} {t : LinkTrain} :
    KeepsR s₀ (execLinkRetrainComplete l t s) := by
  unfold execLinkRetrainComplete
  repeat' (first
    | with_reducible assumption | (unfold x; clear x)
    | (extract_lets +onlyGivenNames x; first | (refine Keeps.bind (s := s₀) (x := x) ?_ ?_; intro _; clear_value x; revert x; intros) | (clear_value x; revert x; intros))
    | split | with_reducible apply KeepsR.next | with_reducible apply setTrained_keeps | with_reducible apply setLink_keeps
    | with_reducible apply satAdd_keeps | with_reducible apply wr_keeps | with_reducible apply pumpLink_keeps
    | with_reducible apply resend_keeps | with_reducible apply emberCode_keeps | with_reducible apply linkFail_keeps
    | (with_reducible apply Keeps.fst (e := by with_reducible assumption))
    | (with_reducible apply Keeps.snd (e := by with_reducible assumption))
    | (with_reducible apply Keeps.fst_eq (e := by with_reducible assumption))
    | (with_reducible apply Keeps.snd_eq (e := by with_reducible assumption)) | dsimp -zeta only
    | with_reducible apply Keeps.upd)

theorem seeHello_keeps {s₀ s : State} (h : Keeps s₀ s) {l : Nat} {h : Bytes} :
    Keeps s₀ (seeHello s l h) := by
  unfold seeHello
  repeat' (first
    | with_reducible assumption | (unfold x; clear x)
    | (extract_lets +onlyGivenNames x; first | (refine Keeps.bind (s := s₀) (x := x) ?_ ?_; intro _; clear_value x; revert x; intros) | (clear_value x; revert x; intros))
    | split | with_reducible apply wr_keeps)

theorem peerFail_keeps {s₀ s : State} (h : Keeps s₀ s) {l : Nat} :
    Keeps s₀ (peerFail s l) := by
  unfold peerFail
  repeat' (first
    | with_reducible assumption | (unfold x; clear x)
    | (extract_lets +onlyGivenNames x; first | (refine Keeps.bind (s := s₀) (x := x) ?_ ?_; intro _; clear_value x; revert x; intros) | (clear_value x; revert x; intros))
    | split | with_reducible apply linkFail_keeps | with_reducible apply wr_keeps)

theorem bringUp_keeps {s₀ s : State} (h : Keeps s₀ s) {l : Nat} {t : LinkTrain} :
    Keeps s₀ (bringUp s l t).1 := by
  unfold bringUp
  repeat' (first
    | with_reducible assumption | (unfold x; clear x)
    | (extract_lets +onlyGivenNames x; first | (refine Keeps.bind (s := s₀) (x := x) ?_ ?_; intro _; clear_value x; revert x; intros) | (clear_value x; revert x; intros))
    | split | with_reducible apply setLink_keeps | with_reducible apply dropStreams_keeps | with_reducible apply wr_keeps
    | with_reducible apply linkFail_keeps | with_reducible apply setTrained_keeps | with_reducible apply takeFreeBytes_keeps
    | with_reducible apply pumpLink_keeps | with_reducible apply sendLocal_keeps | with_reducible apply peerFail_keeps
    | with_reducible apply seeHello_keeps | (with_reducible apply Keeps.fst (e := by with_reducible assumption))
    | (with_reducible apply Keeps.snd (e := by with_reducible assumption))
    | (with_reducible apply Keeps.fst_eq (e := by with_reducible assumption))
    | (with_reducible apply Keeps.snd_eq (e := by with_reducible assumption)) | dsimp -zeta only
    | with_reducible apply Keeps.upd)

end Sys2Proof.Machine
end

