-- ==== Sys2Proof/Laws/Keeps/Reduce.lean ====
section
/-! SUPPORT. What the operations of Machine/Reduce.lean keep (`Keeps`). -/

namespace Sys2Proof.Machine

theorem Coll.unit_keeps {s₀ s : State} (h : Keeps s₀ s) {c : Coll} :
    Keeps s₀ (Coll.unit s c).2 := by
  unfold Coll.unit
  repeat' (first
    | with_reducible assumption | split | with_reducible apply unitAt_keeps)

theorem failAt_keeps {s₀ s : State} (h : Keeps s₀ s) {c : Coll} {code : Nat} :
    Keeps s₀ (failAt s c code) := by
  unfold failAt
  repeat' (first
    | with_reducible assumption | (unfold x; clear x)
    | (extract_lets +onlyGivenNames x; first | (refine Keeps.bind (s := s₀) (x := x) ?_ ?_; intro _; clear_value x; revert x; intros) | (clear_value x; revert x; intros))
    | split | with_reducible apply Coll.unit_keeps | with_reducible apply failColl_keeps
    | (with_reducible apply Keeps.fst (e := by with_reducible assumption))
    | (with_reducible apply Keeps.snd (e := by with_reducible assumption))
    | (with_reducible apply Keeps.fst_eq (e := by with_reducible assumption))
    | (with_reducible apply Keeps.snd_eq (e := by with_reducible assumption)) | dsimp -zeta only)

theorem consume_keeps {s₀ s : State} (h : Keeps s₀ s) {c : Coll} {r : RxStream} {bytes : Nat} :
    Keeps s₀ (consume s c r bytes).1 := by
  unfold consume
  repeat' (first
    | with_reducible assumption | (unfold x; clear x)
    | (extract_lets +onlyGivenNames x; first | (refine Keeps.bind (s := s₀) (x := x) ?_ ?_; intro _; clear_value x; revert x; intros) | (clear_value x; revert x; intros))
    | split | with_reducible apply wr_keeps | with_reducible apply unitAt_keeps | with_reducible apply satAdd_keeps
    | with_reducible apply emberCode_keeps | with_reducible apply sendTo_keeps
    | (with_reducible apply each_keeps; intro _ _ _) | (with_reducible apply Keeps.fst (e := by with_reducible assumption))
    | (with_reducible apply Keeps.snd (e := by with_reducible assumption))
    | (with_reducible apply Keeps.fst_eq (e := by with_reducible assumption))
    | (with_reducible apply Keeps.snd_eq (e := by with_reducible assumption)) | dsimp -zeta only
    | with_reducible apply Keeps.upd)

theorem consumeAll_keeps {s₀ s : State} (h : Keeps s₀ s) {c : Coll} {upTo : RxStream → Nat} :
    Keeps s₀ (consumeAll s c upTo).1 := by
  unfold consumeAll
  repeat' (first
    | with_reducible assumption | (unfold x; clear x)
    | (extract_lets +onlyGivenNames x; first | (refine Keeps.bind (s := s₀) (x := x) ?_ ?_; intro _; clear_value x; revert x; intros) | (clear_value x; revert x; intros))
    | split | with_reducible apply consume_keeps | (with_reducible apply Keeps.foldl; intro _ _ _)
    | (with_reducible apply Keeps.foldl_fst; intro _ _ _) | (with_reducible apply Keeps.foldl_snd; intro _ _ _)
    | (with_reducible apply Keeps.fst (e := by with_reducible assumption))
    | (with_reducible apply Keeps.snd (e := by with_reducible assumption))
    | (with_reducible apply Keeps.fst_eq (e := by with_reducible assumption))
    | (with_reducible apply Keeps.snd_eq (e := by with_reducible assumption)) | dsimp -zeta only)

theorem setColl_keeps {s₀ s : State} (h : Keeps s₀ s) {c : Coll} :
    Keeps s₀ (setColl s c) := by
  unfold setColl
  repeat' (first
    | with_reducible assumption | (unfold x; clear x)
    | (extract_lets +onlyGivenNames x; first | (refine Keeps.bind (s := s₀) (x := x) ?_ ?_; intro _; clear_value x; revert x; intros) | (clear_value x; revert x; intros))
    | split | dsimp -zeta only | with_reducible apply Keeps.upd)

theorem syncStitch_keeps {s₀ s : State} (h : Keeps s₀ s)  :
    Keeps s₀ (syncStitch s) := by
  unfold syncStitch
  repeat' (first
    | with_reducible assumption | (unfold x; clear x)
    | (extract_lets +onlyGivenNames x; first | (refine Keeps.bind (s := s₀) (x := x) ?_ ?_; intro _; clear_value x; revert x; intros) | (clear_value x; revert x; intros))
    | split | with_reducible apply takeFree_keeps | with_reducible apply wr_keeps | with_reducible apply syncRails_keeps
    | (with_reducible apply Keeps.foldl; intro _ _ _) | (with_reducible apply Keeps.foldl_fst; intro _ _ _)
    | (with_reducible apply Keeps.foldl_snd; intro _ _ _)
    | (with_reducible apply Keeps.fst (e := by with_reducible assumption))
    | (with_reducible apply Keeps.snd (e := by with_reducible assumption))
    | (with_reducible apply Keeps.fst_eq (e := by with_reducible assumption))
    | (with_reducible apply Keeps.snd_eq (e := by with_reducible assumption)) | dsimp -zeta only)

theorem logDigests_keeps {s₀ s : State} (h : Keeps s₀ s) {c : Coll} :
    Keeps s₀ (logDigests s c) := by
  unfold logDigests
  repeat' (first
    | with_reducible assumption | (unfold x; clear x)
    | (extract_lets +onlyGivenNames x; first | (refine Keeps.bind (s := s₀) (x := x) ?_ ?_; intro _; clear_value x; revert x; intros) | (clear_value x; revert x; intros))
    | split | with_reducible apply wr_keeps | (with_reducible apply unitUpdate_keeps; intro _ _)
    | with_reducible apply poke_keeps | dsimp -zeta only | with_reducible apply Keeps.upd)

theorem feed_keeps {s₀ s : State} (h : Keeps s₀ s) {c : Coll} {cmd : Nat × Nat} {dst vc : Nat} {desc bytes : Bytes} :
    Keeps s₀ (feed s c cmd dst vc desc bytes).1 := by
  unfold feed
  repeat' (first
    | with_reducible assumption | (unfold x; clear x)
    | (extract_lets +onlyGivenNames x; first | (refine Keeps.bind (s := s₀) (x := x) ?_ ?_; intro _; clear_value x; revert x; intros) | (clear_value x; revert x; intros))
    | split | with_reducible apply pumpStream_keeps | with_reducible apply setTx_keeps
    | with_reducible apply openStream_keeps | (with_reducible apply Keeps.fst (e := by with_reducible assumption))
    | (with_reducible apply Keeps.snd (e := by with_reducible assumption))
    | (with_reducible apply Keeps.fst_eq (e := by with_reducible assumption))
    | (with_reducible apply Keeps.snd_eq (e := by with_reducible assumption)) | dsimp -zeta only
    | with_reducible apply Keeps.upd)

theorem feedAll_keeps {s₀ s : State} (h : Keeps s₀ s) {c : Coll} {cmd : Nat × Nat} {xs : List (Nat × Bytes × Bytes)} :
    Keeps s₀ (feedAll s c cmd xs).1 := by
  unfold feedAll
  repeat' (first
    | with_reducible assumption | split | with_reducible apply feed_keeps | (with_reducible apply Keeps.foldl; intro _ _ _)
    | (with_reducible apply Keeps.foldl_fst; intro _ _ _) | (with_reducible apply Keeps.foldl_snd; intro _ _ _)
    | dsimp -zeta only)

theorem shipDone_keeps {s₀ s : State} (h : Keeps s₀ s) {c : Coll} :
    Keeps s₀ (shipDone s c).1 := by
  unfold shipDone
  repeat' (first
    | with_reducible assumption | (unfold x; clear x)
    | (extract_lets +onlyGivenNames x; first | (refine Keeps.bind (s := s₀) (x := x) ?_ ?_; intro _; clear_value x; revert x; intros) | (clear_value x; revert x; intros))
    | with_reducible apply setColl_keeps | dsimp -zeta only | with_reducible apply Keeps.upd)

theorem Coll.note_keeps {s₀ s : State} (h : Keeps s₀ s) {c : Coll} {flushed : Bool} {rs : List (Nat × Nat)} :
    Keeps s₀ (Coll.note s c flushed rs) := by
  unfold Coll.note
  repeat' (first
    | with_reducible assumption | (unfold x; clear x)
    | (extract_lets +onlyGivenNames x; first | (refine Keeps.bind (s := s₀) (x := x) ?_ ?_; intro _; clear_value x; revert x; intros) | (clear_value x; revert x; intros))
    | split | with_reducible apply unitAt_keeps | with_reducible apply notices_keeps
    | (with_reducible apply Keeps.fst (e := by with_reducible assumption))
    | (with_reducible apply Keeps.snd (e := by with_reducible assumption))
    | (with_reducible apply Keeps.fst_eq (e := by with_reducible assumption))
    | (with_reducible apply Keeps.snd_eq (e := by with_reducible assumption)) | dsimp -zeta only
    | with_reducible apply Keeps.upd)

theorem finishCmds_keeps {s₀ s : State} (h : Keeps s₀ s) {c : Coll} {p : Nat × Nat → Bool} :
    Keeps s₀ (finishCmds s c p) := by
  unfold finishCmds
  repeat' (first
    | with_reducible assumption | (unfold x; clear x)
    | (extract_lets +onlyGivenNames x; first | (refine Keeps.bind (s := s₀) (x := x) ?_ ?_; intro _; clear_value x; revert x; intros) | (clear_value x; revert x; intros))
    | split | with_reducible apply cmdDone_keeps | with_reducible apply logDigests_keeps
    | with_reducible apply endColl_keeps | (with_reducible apply each_keeps; intro _ _ _)
    | (with_reducible apply Keeps.fst (e := by with_reducible assumption))
    | (with_reducible apply Keeps.snd (e := by with_reducible assumption))
    | (with_reducible apply Keeps.fst_eq (e := by with_reducible assumption))
    | (with_reducible apply Keeps.snd_eq (e := by with_reducible assumption)) | dsimp -zeta only
    | with_reducible apply Keeps.upd)

theorem checkGo_keeps {s₀ s : State} (h : Keeps s₀ s) {c : Coll} :
    Keeps s₀ (checkGo s c) := by
  unfold checkGo
  dsimp only
  repeat' (first
    | with_reducible assumption | (unfold x; clear x)
    | (extract_lets +onlyGivenNames x; first | (refine Keeps.bind (s := s₀) (x := x) ?_ ?_; intro _; clear_value x; revert x; intros) | (clear_value x; revert x; intros))
    | split | with_reducible apply failAt_keeps | with_reducible apply wr_keeps | with_reducible apply consumeAll_keeps
    | with_reducible apply finishCmds_keeps | with_reducible apply feedAll_keeps
    | (with_reducible apply Keeps.fst (e := by with_reducible assumption))
    | (with_reducible apply Keeps.snd (e := by with_reducible assumption))
    | (with_reducible apply Keeps.fst_eq (e := by with_reducible assumption))
    | (with_reducible apply Keeps.snd_eq (e := by with_reducible assumption)) | dsimp -zeta only
    | with_reducible apply Keeps.upd)

theorem workDone_keeps {s₀ s : State} (h : Keeps s₀ s) {c : Coll} :
    Keeps s₀ (workDone s c) := by
  unfold workDone
  repeat' (first
    | with_reducible assumption | split | with_reducible apply checkGo_keeps | with_reducible apply finishCmds_keeps
    | dsimp -zeta only)

theorem writeSum_keeps {s₀ s : State} (h : Keeps s₀ s) {c : Coll} {sums : List (Nat × Bool)} :
    Keeps s₀ (writeSum s c sums).1 := by
  unfold writeSum
  repeat' (first
    | with_reducible assumption | (unfold x; clear x)
    | (extract_lets +onlyGivenNames x; first | (refine Keeps.bind (s := s₀) (x := x) ?_ ?_; intro _; clear_value x; revert x; intros) | (clear_value x; revert x; intros))
    | split | with_reducible apply unitAt_keeps | with_reducible apply writeRanges_keeps
    | with_reducible apply storeTensor_keeps | with_reducible apply reportStore_keeps | with_reducible apply holdBack_keeps
    | (with_reducible apply Keeps.foldl; intro _ _ _) | (with_reducible apply Keeps.foldl_fst; intro _ _ _)
    | (with_reducible apply Keeps.foldl_snd; intro _ _ _)
    | (with_reducible apply Keeps.fst (e := by with_reducible assumption))
    | (with_reducible apply Keeps.snd (e := by with_reducible assumption))
    | (with_reducible apply Keeps.fst_eq (e := by with_reducible assumption))
    | (with_reducible apply Keeps.snd_eq (e := by with_reducible assumption)) | dsimp -zeta only
    | with_reducible apply Keeps.upd)

theorem stitchCount_keeps {s₀ s : State} (h : Keeps s₀ s) {c : Coll} {terms : Nat} :
    Keeps s₀ (stitchCount s c terms) := by
  unfold stitchCount
  repeat' (first
    | with_reducible assumption | (unfold x; clear x)
    | (extract_lets +onlyGivenNames x; first | (refine Keeps.bind (s := s₀) (x := x) ?_ ?_; intro _; clear_value x; revert x; intros) | (clear_value x; revert x; intros))
    | split | with_reducible apply cntMem_keeps | with_reducible apply takeFree_keeps
    | (with_reducible apply Keeps.fst (e := by with_reducible assumption))
    | (with_reducible apply Keeps.snd (e := by with_reducible assumption))
    | (with_reducible apply Keeps.fst_eq (e := by with_reducible assumption))
    | (with_reducible apply Keeps.snd_eq (e := by with_reducible assumption)) | dsimp -zeta only
    | with_reducible apply Keeps.upd)

theorem ringGo_keeps {s₀ s : State} (h : Keeps s₀ s) {c : Coll} :
    Keeps s₀ (ringGo s c) := by
  unfold ringGo
  repeat' (first
    | with_reducible assumption | (unfold x; clear x)
    | (extract_lets +onlyGivenNames x; first | (refine Keeps.bind (s := s₀) (x := x) ?_ ?_; intro _; clear_value x; revert x; intros) | (clear_value x; revert x; intros))
    | split | with_reducible apply consumeAll_keeps | with_reducible apply failAt_keeps | with_reducible apply feedAll_keeps
    | with_reducible apply Coll.note_keeps | with_reducible apply workDone_keeps | with_reducible apply writeSum_keeps
    | with_reducible apply stitchCount_keeps | with_reducible apply setColl_keeps
    | (with_reducible apply Keeps.fst (e := by with_reducible assumption))
    | (with_reducible apply Keeps.snd (e := by with_reducible assumption))
    | (with_reducible apply Keeps.fst_eq (e := by with_reducible assumption))
    | (with_reducible apply Keeps.snd_eq (e := by with_reducible assumption)) | dsimp -zeta only
    | with_reducible apply Keeps.upd)

theorem rankFinish_keeps {s₀ s : State} (h : Keeps s₀ s) {c : Coll} :
    Keeps s₀ (rankFinish s c) := by
  unfold rankFinish
  repeat' (first
    | with_reducible assumption | split | with_reducible apply checkGo_keeps | with_reducible apply finishCmds_keeps
    | dsimp -zeta only)

theorem rankGo_keeps {s₀ s : State} (h : Keeps s₀ s) {c : Coll} :
    Keeps s₀ (rankGo s c) := by
  unfold rankGo
  repeat' (first
    | with_reducible assumption | (unfold x; clear x)
    | (extract_lets +onlyGivenNames x; first | (refine Keeps.bind (s := s₀) (x := x) ?_ ?_; intro _; clear_value x; revert x; intros) | (clear_value x; revert x; intros))
    | split | with_reducible apply consumeAll_keeps | with_reducible apply failAt_keeps | with_reducible apply feedAll_keeps
    | with_reducible apply rankFinish_keeps | with_reducible apply setColl_keeps | with_reducible apply writeSum_keeps
    | with_reducible apply stitchCount_keeps | (with_reducible apply Keeps.foldl; intro _ _ _)
    | (with_reducible apply Keeps.foldl_fst; intro _ _ _) | (with_reducible apply Keeps.foldl_snd; intro _ _ _)
    | (with_reducible apply Keeps.fst (e := by with_reducible assumption))
    | (with_reducible apply Keeps.snd (e := by with_reducible assumption))
    | (with_reducible apply Keeps.fst_eq (e := by with_reducible assumption))
    | (with_reducible apply Keeps.snd_eq (e := by with_reducible assumption)) | dsimp -zeta only
    | with_reducible apply Keeps.upd)

theorem reduceGo_keeps {s₀ s : State} (h : Keeps s₀ s) {c : Coll} :
    Keeps s₀ (reduceGo s c) := by
  unfold reduceGo
  repeat' (first
    | with_reducible assumption | split | with_reducible apply ringGo_keeps | with_reducible apply rankGo_keeps)

theorem placeBytes_keeps {s₀ s : State} (h : Keeps s₀ s) {d : Desc} {ixs : List (List Nat)} {b : Bytes} :
    Keeps s₀ (placeBytes s d ixs b) := by
  unfold placeBytes
  repeat' (first
    | with_reducible assumption | (unfold x; clear x)
    | (extract_lets +onlyGivenNames x; first | (refine Keeps.bind (s := s₀) (x := x) ?_ ?_; intro _; clear_value x; revert x; intros) | (clear_value x; revert x; intros))
    | split | with_reducible apply Desc.setRaw_keeps | with_reducible apply poke_keeps
    | (with_reducible apply each_keeps; intro _ _ _) | (with_reducible apply Keeps.fst (e := by with_reducible assumption))
    | (with_reducible apply Keeps.snd (e := by with_reducible assumption))
    | (with_reducible apply Keeps.fst_eq (e := by with_reducible assumption))
    | (with_reducible apply Keeps.snd_eq (e := by with_reducible assumption)) | dsimp -zeta only
    | with_reducible apply Keeps.upd)

theorem placeShard_keeps {s₀ s : State} (h : Keeps s₀ s) {r i : Nat} {b : Bytes} :
    Keeps s₀ (placeShard s r i b) := by
  unfold placeShard
  repeat' (first
    | with_reducible assumption | (unfold x; clear x)
    | (extract_lets +onlyGivenNames x; first | (refine Keeps.bind (s := s₀) (x := x) ?_ ?_; intro _; clear_value x; revert x; intros) | (clear_value x; revert x; intros))
    | split | with_reducible apply placeBytes_keeps)

theorem gatherGo_keeps {s₀ s : State} (h : Keeps s₀ s) {c : Coll} :
    Keeps s₀ (gatherGo s c) := by
  unfold gatherGo
  repeat' (first
    | with_reducible assumption | (unfold x; clear x)
    | (extract_lets +onlyGivenNames x; first | (refine Keeps.bind (s := s₀) (x := x) ?_ ?_; intro _; clear_value x; revert x; intros) | (clear_value x; revert x; intros))
    | split | with_reducible apply consumeAll_keeps | with_reducible apply failAt_keeps | with_reducible apply feedAll_keeps
    | with_reducible apply workDone_keeps | with_reducible apply Coll.unit_keeps | with_reducible apply writeRanges_keeps
    | with_reducible apply failColl_keeps | with_reducible apply placeShard_keeps | with_reducible apply setColl_keeps
    | with_reducible apply holdBack_keeps | (with_reducible apply each_keeps; intro _ _ _)
    | (with_reducible apply Keeps.fst (e := by with_reducible assumption))
    | (with_reducible apply Keeps.snd (e := by with_reducible assumption))
    | (with_reducible apply Keeps.fst_eq (e := by with_reducible assumption))
    | (with_reducible apply Keeps.snd_eq (e := by with_reducible assumption)) | dsimp -zeta only
    | with_reducible apply Keeps.upd)

theorem sendRecvGo_keeps {s₀ s : State} (h : Keeps s₀ s) {c : Coll} :
    Keeps s₀ (sendRecvGo s c) := by
  unfold sendRecvGo
  repeat' (first
    | with_reducible assumption | (unfold x; clear x)
    | (extract_lets +onlyGivenNames x; first | (refine Keeps.bind (s := s₀) (x := x) ?_ ?_; intro _; clear_value x; revert x; intros) | (clear_value x; revert x; intros))
    | split | with_reducible apply feedAll_keeps | with_reducible apply failAt_keeps | with_reducible apply workDone_keeps
    | with_reducible apply consumeAll_keeps | with_reducible apply Coll.unit_keeps | with_reducible apply writeRanges_keeps
    | with_reducible apply failColl_keeps | with_reducible apply setColl_keeps | with_reducible apply holdBack_keeps
    | with_reducible apply placeBytes_keeps | (with_reducible apply Keeps.fst (e := by with_reducible assumption))
    | (with_reducible apply Keeps.snd (e := by with_reducible assumption))
    | (with_reducible apply Keeps.fst_eq (e := by with_reducible assumption))
    | (with_reducible apply Keeps.snd_eq (e := by with_reducible assumption)) | dsimp -zeta only
    | with_reducible apply Keeps.upd)

theorem appendOvf_keeps {s₀ s : State} (h : Keeps s₀ s) {a : Nat} :
    Keeps s₀ (appendOvf s a).1 := by
  unfold appendOvf
  repeat' (first
    | with_reducible assumption | (unfold x; clear x)
    | (extract_lets +onlyGivenNames x; first | (refine Keeps.bind (s := s₀) (x := x) ?_ ?_; intro _; clear_value x; revert x; intros) | (clear_value x; revert x; intros))
    | split | with_reducible apply appendScale_keeps | with_reducible apply poke_keeps | dsimp -zeta only)

theorem finishFwd_keeps {s₀ s : State} (h : Keeps s₀ s) {h : Nat} {x : Cmd} {r m : Nat} :
    Keeps s₀ (finishFwd s h x r m) := by
  unfold finishFwd
  repeat' (first
    | with_reducible assumption | (unfold x; clear x)
    | (extract_lets +onlyGivenNames x; first | (refine Keeps.bind (s := s₀) (x := x) ?_ ?_; intro _; clear_value x; revert x; intros) | (clear_value x; revert x; intros))
    | split | with_reducible apply unitAt_keeps | (with_reducible apply orFail_keeps; intro _ _ _)
    | with_reducible apply touchRanges_keeps | with_reducible apply writeRanges_keeps | with_reducible apply poke_keeps
    | with_reducible apply appendOvf_keeps | with_reducible apply wr_keeps | with_reducible apply storeBlockAt_keeps
    | with_reducible apply holdBack_keeps | with_reducible apply notices_keeps | with_reducible apply cmdDone_keeps
    | (with_reducible apply Keeps.foldl; intro _ _ _) | (with_reducible apply Keeps.foldl_fst; intro _ _ _)
    | (with_reducible apply Keeps.foldl_snd; intro _ _ _)
    | (with_reducible apply Keeps.fst (e := by with_reducible assumption))
    | (with_reducible apply Keeps.snd (e := by with_reducible assumption))
    | (with_reducible apply Keeps.fst_eq (e := by with_reducible assumption))
    | (with_reducible apply Keeps.snd_eq (e := by with_reducible assumption)) | dsimp -zeta only
    | with_reducible apply Keeps.upd)

theorem amaxGo_keeps {s₀ s : State} (h : Keeps s₀ s) {c : Coll} :
    Keeps s₀ (amaxGo s c) := by
  unfold amaxGo
  repeat' (first
    | with_reducible assumption | (unfold x; clear x)
    | (extract_lets +onlyGivenNames x; first | (refine Keeps.bind (s := s₀) (x := x) ?_ ?_; intro _; clear_value x; revert x; intros) | (clear_value x; revert x; intros))
    | split | with_reducible apply consumeAll_keeps | with_reducible apply failAt_keeps | with_reducible apply feedAll_keeps
    | with_reducible apply finishFwd_keeps | with_reducible apply endColl_keeps | with_reducible apply finishCmds_keeps
    | (with_reducible apply Keeps.foldl; intro _ _ _) | (with_reducible apply Keeps.foldl_fst; intro _ _ _)
    | (with_reducible apply Keeps.foldl_snd; intro _ _ _)
    | (with_reducible apply Keeps.fst (e := by with_reducible assumption))
    | (with_reducible apply Keeps.snd (e := by with_reducible assumption))
    | (with_reducible apply Keeps.fst_eq (e := by with_reducible assumption))
    | (with_reducible apply Keeps.snd_eq (e := by with_reducible assumption)) | dsimp -zeta only
    | with_reducible apply Keeps.upd)

end Sys2Proof.Machine
end

