-- ==== Sys2Proof/Laws/Keeps/Stop.lean ====
section
/-! SUPPORT. What the operations of Machine/Stop.lean keep (`Keeps`). -/

namespace Sys2Proof.Machine

theorem sendMark_keeps {s₀ s : State} (h : Keeps s₀ s) {l origin flags id : Nat} :
    Keeps s₀ (sendMark s l origin flags id) := by
  unfold sendMark
  repeat' (first
    | with_reducible assumption | with_reducible apply post_keeps)

theorem startStop_keeps {s₀ s : State} (h : Keeps s₀ s) {source origin id : Nat} :
    Keeps s₀ (startStop s source origin id) := by
  unfold startStop
  repeat' (first
    | with_reducible assumption | (unfold x; clear x)
    | (extract_lets +onlyGivenNames x; first | (refine Keeps.bind (s := s₀) (x := x) ?_ ?_; intro _; clear_value x; revert x; intros) | (clear_value x; revert x; intros))
    | split | with_reducible apply wr_keeps | with_reducible apply Keeps.upd)

theorem ownStop_keeps {s₀ s : State} (h : Keeps s₀ s) {source : Nat} :
    Keeps s₀ (ownStop s source) := by
  unfold ownStop
  repeat' (first
    | with_reducible assumption | (unfold x; clear x)
    | (extract_lets +onlyGivenNames x; first | (refine Keeps.bind (s := s₀) (x := x) ?_ ?_; intro _; clear_value x; revert x; intros) | (clear_value x; revert x; intros))
    | split | with_reducible apply startStop_keeps | with_reducible apply Keeps.upd)

theorem firstMarker_keeps {s₀ s : State} (h : Keeps s₀ s) {u : Nat} :
    Keeps s₀ (firstMarker s u) := by
  unfold firstMarker
  repeat' (first
    | with_reducible assumption | (unfold x; clear x)
    | (extract_lets +onlyGivenNames x; first | (refine Keeps.bind (s := s₀) (x := x) ?_ ?_; intro _; clear_value x; revert x; intros) | (clear_value x; revert x; intros))
    | split | with_reducible apply emberPut_keeps | with_reducible apply sendMark_keeps | with_reducible apply setLink_keeps
    | (with_reducible apply Keeps.fst (e := by with_reducible assumption))
    | (with_reducible apply Keeps.snd (e := by with_reducible assumption))
    | (with_reducible apply Keeps.fst_eq (e := by with_reducible assumption))
    | (with_reducible apply Keeps.snd_eq (e := by with_reducible assumption)) | with_reducible apply Keeps.upd)

theorem stopComplete_keeps {s₀ s : State} (h : Keeps s₀ s)  :
    Keeps s₀ (stopComplete s) := by
  unfold stopComplete
  repeat' (first
    | with_reducible assumption | split | with_reducible apply wr_keeps | dsimp -zeta only)

theorem execStopMarker_keeps {s₀ s : State} (h : Keeps s₀ s) {u chan items : Nat} {last : Bool} :
    KeepsR s₀ (execStopMarker u chan items last s) := by
  unfold execStopMarker
  repeat' (first
    | with_reducible assumption | (unfold x; clear x)
    | (extract_lets +onlyGivenNames x; first | (refine Keeps.bind (s := s₀) (x := x) ?_ ?_; intro _; clear_value x; revert x; intros) | (clear_value x; revert x; intros))
    | split | with_reducible apply KeepsR.next | with_reducible apply firstMarker_keeps
    | with_reducible apply emberPut_keeps | with_reducible apply wrapAdd_keeps | with_reducible apply stopComplete_keeps
    | (with_reducible apply each_keeps; intro _ _ _) | (with_reducible apply Keeps.fst (e := by with_reducible assumption))
    | (with_reducible apply Keeps.snd (e := by with_reducible assumption))
    | (with_reducible apply Keeps.fst_eq (e := by with_reducible assumption))
    | (with_reducible apply Keeps.snd_eq (e := by with_reducible assumption)) | dsimp -zeta only
    | with_reducible apply Keeps.upd)

theorem execGlobalStop_keeps {s₀ s : State} (h : Keeps s₀ s) {src : Src} :
    KeepsR s₀ (execGlobalStop src s) := by
  unfold execGlobalStop
  repeat' (first
    | with_reducible assumption | split | with_reducible apply KeepsR.next | with_reducible apply cfgErr_keeps
    | with_reducible apply ownStop_keeps)

theorem execStopReqEdge_keeps {s₀ s : State} (h : Keeps s₀ s)  :
    KeepsR s₀ (execStopReqEdge s) := by
  unfold execStopReqEdge
  repeat' (first
    | with_reducible assumption | with_reducible apply KeepsR.next | with_reducible apply ownStop_keeps)

end Sys2Proof.Machine
end

