-- ==== Sys2Proof/Laws/Keeps/Parity.lean ====
section
/-! SUPPORT. What the operations of Machine/Parity.lean keep (`Keeps`). -/

namespace Sys2Proof.Machine

theorem rlogWrite_keeps {s₀ s : State} (h : Keeps s₀ s) {e : Bytes} :
    Keeps s₀ (rlogWrite s e) := by
  unfold rlogWrite
  repeat' (first
    | with_reducible assumption | (unfold x; clear x)
    | (extract_lets +onlyGivenNames x; first | (refine Keeps.bind (s := s₀) (x := x) ?_ ?_; intro _; clear_value x; revert x; intros) | (clear_value x; revert x; intros))
    | split | with_reducible apply rlogPut_keeps | with_reducible apply wrapAdd_keeps)

theorem rlogRestore_keeps {s₀ s : State} (h : Keeps s₀ s) {source gen step : Nat} :
    Keeps s₀ (rlogRestore s source gen step) := by
  unfold rlogRestore
  repeat' (first
    | with_reducible assumption | with_reducible apply rlogWrite_keeps)

theorem restoreFail_keeps {s₀ s : State} (h : Keeps s₀ s) {code : Nat} :
    Keeps s₀ (restoreFail s code) := by
  unfold restoreFail
  repeat' (first
    | with_reducible assumption | with_reducible apply wr_keeps)

theorem restoreDone_keeps {s₀ s : State} (h : Keeps s₀ s)  :
    Keeps s₀ (restoreDone s) := by
  unfold restoreDone
  repeat' (first
    | with_reducible assumption | with_reducible apply wr_keeps)

theorem setGeneration_keeps {s₀ s : State} (h : Keeps s₀ s) {source gen step : Nat} :
    Keeps s₀ (setGeneration s source gen step) := by
  unfold setGeneration
  repeat' (first
    | with_reducible assumption | (unfold x; clear x)
    | (extract_lets +onlyGivenNames x; first | (refine Keeps.bind (s := s₀) (x := x) ?_ ?_; intro _; clear_value x; revert x; intros) | (clear_value x; revert x; intros))
    | with_reducible apply wrapAdd_keeps | with_reducible apply wr_keeps | with_reducible apply syncReports_keeps
    | with_reducible apply rlogRestore_keeps | with_reducible apply Keeps.upd)

theorem restoreFrom_keeps {s₀ s : State} (h : Keeps s₀ s) {source : Nat} {b : Bytes} :
    Keeps s₀ (restoreFrom s source b) := by
  unfold restoreFrom
  repeat' (first
    | with_reducible assumption | (unfold x; clear x)
    | (extract_lets +onlyGivenNames x; first | (refine Keeps.bind (s := s₀) (x := x) ?_ ?_; intro _; clear_value x; revert x; intros) | (clear_value x; revert x; intros))
    | split | with_reducible apply restoreFail_keeps | with_reducible apply touchRanges_keeps
    | with_reducible apply restoreParts_keeps | with_reducible apply restoreDone_keeps
    | with_reducible apply setGeneration_keeps | with_reducible apply takeFreeBytes_keeps | with_reducible apply poke_keeps
    | (with_reducible apply each_keeps; intro _ _ _) | (with_reducible apply Keeps.fst (e := by with_reducible assumption))
    | (with_reducible apply Keeps.snd (e := by with_reducible assumption))
    | (with_reducible apply Keeps.fst_eq (e := by with_reducible assumption))
    | (with_reducible apply Keeps.snd_eq (e := by with_reducible assumption)) | dsimp -zeta only
    | with_reducible apply Keeps.upd)

theorem feedChunks_keeps {s₀ s : State} (h : Keeps s₀ s) {c : Coll} {xs : List (Nat × Nat × List Nat)} :
    Keeps s₀ (feedChunks s c xs).1 := by
  unfold feedChunks
  repeat' (first
    | with_reducible assumption | split | with_reducible apply feed_keeps | (with_reducible apply Keeps.foldl; intro _ _ _)
    | (with_reducible apply Keeps.foldl_fst; intro _ _ _) | (with_reducible apply Keeps.foldl_snd; intro _ _ _)
    | dsimp -zeta only)

theorem exchangeFail_keeps {s₀ s : State} (h : Keeps s₀ s) {c : Coll} {code : Nat} :
    Keeps s₀ (exchangeFail s c code) := by
  unfold exchangeFail
  repeat' (first
    | with_reducible assumption | with_reducible apply endExchange_keeps | with_reducible apply endColl_keeps)

theorem parityGo_keeps {s₀ s : State} (h : Keeps s₀ s) {c : Coll} :
    Keeps s₀ (parityGo s c) := by
  unfold parityGo
  repeat' (first
    | with_reducible assumption | (unfold x; clear x)
    | (extract_lets +onlyGivenNames x; first | (refine Keeps.bind (s := s₀) (x := x) ?_ ?_; intro _; clear_value x; revert x; intros) | (clear_value x; revert x; intros))
    | split | with_reducible apply consumeAll_keeps | with_reducible apply exchangeFail_keeps
    | with_reducible apply feedChunks_keeps | with_reducible apply wr_keeps | with_reducible apply endColl_keeps
    | (with_reducible apply Keeps.foldl; intro _ _ _) | (with_reducible apply Keeps.foldl_fst; intro _ _ _)
    | (with_reducible apply Keeps.foldl_snd; intro _ _ _)
    | (with_reducible apply Keeps.fst (e := by with_reducible assumption))
    | (with_reducible apply Keeps.snd (e := by with_reducible assumption))
    | (with_reducible apply Keeps.fst_eq (e := by with_reducible assumption))
    | (with_reducible apply Keeps.snd_eq (e := by with_reducible assumption)) | dsimp -zeta only
    | with_reducible apply Keeps.upd)

theorem fillPlace_keeps {s₀ s : State} (h : Keeps s₀ s) {r i : Nat} {b : Bytes} :
    Keeps s₀ (fillPlace s r i b) := by
  unfold fillPlace
  repeat' (first
    | with_reducible assumption | (unfold x; clear x)
    | (extract_lets +onlyGivenNames x; first | (refine Keeps.bind (s := s₀) (x := x) ?_ ?_; intro _; clear_value x; revert x; intros) | (clear_value x; revert x; intros))
    | split | with_reducible apply placeBytes_keeps)

theorem fillGo_keeps {s₀ s : State} (h : Keeps s₀ s) {c : Coll} :
    Keeps s₀ (fillGo s c) := by
  unfold fillGo
  repeat' (first
    | with_reducible assumption | (unfold x; clear x)
    | (extract_lets +onlyGivenNames x; first | (refine Keeps.bind (s := s₀) (x := x) ?_ ?_; intro _; clear_value x; revert x; intros) | (clear_value x; revert x; intros))
    | split | with_reducible apply consumeAll_keeps | with_reducible apply exchangeFail_keeps
    | with_reducible apply feedAll_keeps | with_reducible apply touchRanges_keeps | with_reducible apply setColl_keeps
    | with_reducible apply fillPlace_keeps | with_reducible apply restoreDone_keeps | with_reducible apply endColl_keeps
    | (with_reducible apply each_keeps; intro _ _ _) | (with_reducible apply Keeps.fst (e := by with_reducible assumption))
    | (with_reducible apply Keeps.snd (e := by with_reducible assumption))
    | (with_reducible apply Keeps.fst_eq (e := by with_reducible assumption))
    | (with_reducible apply Keeps.snd_eq (e := by with_reducible assumption)) | dsimp -zeta only
    | with_reducible apply Keeps.upd)

theorem serveGo_keeps {s₀ s : State} (h : Keeps s₀ s) {c : Coll} :
    Keeps s₀ (serveGo s c) := by
  unfold serveGo
  repeat' (first
    | with_reducible assumption | (unfold x; clear x)
    | (extract_lets +onlyGivenNames x; first | (refine Keeps.bind (s := s₀) (x := x) ?_ ?_; intro _; clear_value x; revert x; intros) | (clear_value x; revert x; intros))
    | split | with_reducible apply feedChunks_keeps | with_reducible apply exchangeFail_keeps
    | with_reducible apply restoreDone_keeps | with_reducible apply endColl_keeps
    | (with_reducible apply Keeps.fst (e := by with_reducible assumption))
    | (with_reducible apply Keeps.snd (e := by with_reducible assumption))
    | (with_reducible apply Keeps.fst_eq (e := by with_reducible assumption))
    | (with_reducible apply Keeps.snd_eq (e := by with_reducible assumption)) | dsimp -zeta only)

theorem gatherChunks_keeps {s₀ s : State} (h : Keeps s₀ s) {c : Coll} :
    Keeps s₀ (gatherChunks s c) := by
  unfold gatherChunks
  repeat' (first
    | with_reducible assumption | (unfold x; clear x)
    | (extract_lets +onlyGivenNames x; first | (refine Keeps.bind (s := s₀) (x := x) ?_ ?_; intro _; clear_value x; revert x; intros) | (clear_value x; revert x; intros))
    | split | with_reducible apply consumeAll_keeps | with_reducible apply exchangeFail_keeps
    | with_reducible apply endColl_keeps | with_reducible apply restoreFrom_keeps | with_reducible apply restoreFail_keeps
    | (with_reducible apply Keeps.fst (e := by with_reducible assumption))
    | (with_reducible apply Keeps.snd (e := by with_reducible assumption))
    | (with_reducible apply Keeps.fst_eq (e := by with_reducible assumption))
    | (with_reducible apply Keeps.snd_eq (e := by with_reducible assumption)) | dsimp -zeta only
    | with_reducible apply Keeps.upd)

end Sys2Proof.Machine
end

