-- ==== Sys2Proof/Laws/Keeps/Collect.lean ====
section
/-! SUPPORT. What the operations of Machine/Collect.lean keep (`Keeps`). -/

namespace Sys2Proof.Machine

theorem collGo_keeps {s₀ s : State} (h : Keeps s₀ s) {c : Coll} :
    Keeps s₀ (collGo s c) := by
  unfold collGo
  repeat' (first
    | with_reducible assumption | (unfold x; clear x)
    | (extract_lets +onlyGivenNames x; first | (refine Keeps.bind (s := s₀) (x := x) ?_ ?_; intro _; clear_value x; revert x; intros) | (clear_value x; revert x; intros))
    | split | with_reducible apply parityGo_keeps | with_reducible apply fillGo_keeps | with_reducible apply serveGo_keeps
    | with_reducible apply gatherChunks_keeps | with_reducible apply failAt_keeps | with_reducible apply wr_keeps
    | with_reducible apply reduceGo_keeps | with_reducible apply amaxGo_keeps | with_reducible apply gatherGo_keeps
    | with_reducible apply sendRecvGo_keeps | (with_reducible apply Keeps.fst (e := by with_reducible assumption))
    | (with_reducible apply Keeps.snd (e := by with_reducible assumption))
    | (with_reducible apply Keeps.fst_eq (e := by with_reducible assumption))
    | (with_reducible apply Keeps.snd_eq (e := by with_reducible assumption)) | with_reducible apply Keeps.upd)

theorem dropDead_keeps {s₀ s : State} (h : Keeps s₀ s)  :
    Keeps s₀ (dropDead s) := by
  unfold dropDead
  repeat' (first
    | with_reducible assumption | (unfold x; clear x)
    | (extract_lets +onlyGivenNames x; first | (refine Keeps.bind (s := s₀) (x := x) ?_ ?_; intro _; clear_value x; revert x; intros) | (clear_value x; revert x; intros))
    | split | with_reducible apply sendTo_keeps | (with_reducible apply each_keeps; intro _ _ _) | dsimp -zeta only
    | with_reducible apply Keeps.upd)

theorem collAll_keeps {s₀ s : State} (h : Keeps s₀ s)  :
    Keeps s₀ (collAll s) := by
  unfold collAll
  repeat' (first
    | with_reducible assumption | (unfold x; clear x)
    | (extract_lets +onlyGivenNames x; first | (refine Keeps.bind (s := s₀) (x := x) ?_ ?_; intro _; clear_value x; revert x; intros) | (clear_value x; revert x; intros))
    | split | with_reducible apply shipDone_keeps | with_reducible apply collGo_keeps
    | with_reducible apply syncStitch_keeps | with_reducible apply dropDead_keeps
    | (with_reducible apply each_keeps; intro _ _ _) | (with_reducible apply Keeps.fst (e := by with_reducible assumption))
    | (with_reducible apply Keeps.snd (e := by with_reducible assumption))
    | (with_reducible apply Keeps.fst_eq (e := by with_reducible assumption))
    | (with_reducible apply Keeps.snd_eq (e := by with_reducible assumption)) | dsimp -zeta only
    | with_reducible apply Keeps.upd)

theorem startColl_keeps {s₀ s : State} (h : Keeps s₀ s) {h : Nat} {c : Cmd} {x : Coll} :
    Keeps s₀ (startColl s h c x) := by
  unfold startColl
  dsimp only
  repeat' (first
    | with_reducible assumption | (unfold x; clear x)
    | (extract_lets +onlyGivenNames x; first | (refine Keeps.bind (s := s₀) (x := x) ?_ ?_; intro _; clear_value x; revert x; intros) | (clear_value x; revert x; intros))
    | split | with_reducible apply Coll.unit_keeps | with_reducible apply wr_keeps | with_reducible apply failRunning_keeps
    | with_reducible apply updCmd_keeps | with_reducible apply cntHearth_keeps | with_reducible apply setColl_keeps
    | (with_reducible apply Keeps.fst (e := by with_reducible assumption))
    | (with_reducible apply Keeps.snd (e := by with_reducible assumption))
    | (with_reducible apply Keeps.fst_eq (e := by with_reducible assumption))
    | (with_reducible apply Keeps.snd_eq (e := by with_reducible assumption)) | dsimp -zeta only
    | with_reducible apply Keeps.upd)

theorem execReduce_keeps {s₀ s : State} (h : Keeps s₀ s) {h : Fin 16} {seq : BitVec 32} :
    KeepsR s₀ (execReduce h seq s) := by
  unfold execReduce
  repeat' (first
    | with_reducible assumption | (unfold x; clear x)
    | (extract_lets +onlyGivenNames x; first | (refine Keeps.bind (s := s₀) (x := x) ?_ ?_; intro _; clear_value x; revert x; intros) | (clear_value x; revert x; intros))
    | split | with_reducible apply KeepsR.next | (with_reducible apply opRow_keeps; intro _ _ _)
    | with_reducible apply cntHearth_keeps | with_reducible apply unitAt_keeps
    | (with_reducible apply orFail_keeps; intro _ _ _) | with_reducible apply readTensors_keeps
    | with_reducible apply collAll_keeps | with_reducible apply startColl_keeps
    | (with_reducible apply Keeps.fst (e := by with_reducible assumption))
    | (with_reducible apply Keeps.snd (e := by with_reducible assumption))
    | (with_reducible apply Keeps.fst_eq (e := by with_reducible assumption))
    | (with_reducible apply Keeps.snd_eq (e := by with_reducible assumption)) | dsimp -zeta only)

theorem execGather_keeps {s₀ s : State} (h : Keeps s₀ s) {h : Fin 16} {seq : BitVec 32} :
    KeepsR s₀ (execGather h seq s) := by
  unfold execGather
  repeat' (first
    | with_reducible assumption | (unfold x; clear x)
    | (extract_lets +onlyGivenNames x; first | (refine Keeps.bind (s := s₀) (x := x) ?_ ?_; intro _; clear_value x; revert x; intros) | (clear_value x; revert x; intros))
    | split | with_reducible apply KeepsR.next | (with_reducible apply opRow_keeps; intro _ _ _)
    | with_reducible apply unitAt_keeps | with_reducible apply cntHearth_keeps
    | (with_reducible apply orFail_keeps; intro _ _ _) | with_reducible apply touchRanges_keeps
    | with_reducible apply failRunning_keeps | with_reducible apply collAll_keeps | with_reducible apply startColl_keeps
    | with_reducible apply readTensors_keeps | (with_reducible apply Keeps.fst (e := by with_reducible assumption))
    | (with_reducible apply Keeps.snd (e := by with_reducible assumption))
    | (with_reducible apply Keeps.fst_eq (e := by with_reducible assumption))
    | (with_reducible apply Keeps.snd_eq (e := by with_reducible assumption)) | dsimp -zeta only
    | with_reducible apply Keeps.upd)

end Sys2Proof.Machine
end

