-- ==== Sys2Proof/Laws/Keeps/Update.lean ====
section
/-! SUPPORT. What the operations of Machine/Update.lean keep (`Keeps`). -/

namespace Sys2Proof.Machine

theorem syncBurnish_keeps {s₀ s : State} (h : Keeps s₀ s)  :
    Keeps s₀ (syncBurnish s) := by
  unfold syncBurnish
  repeat' (first
    | with_reducible assumption | (unfold x; clear x)
    | (extract_lets +onlyGivenNames x; first | (refine Keeps.bind (s := s₀) (x := x) ?_ ?_; intro _; clear_value x; revert x; intros) | (clear_value x; revert x; intros))
    | split | with_reducible apply syncRails_keeps | with_reducible apply wr_keeps | dsimp -zeta only)

theorem storeNum_keeps {s₀ s : State} (h : Keeps s₀ s) {c : Cmd} {d : Desc} {ix : List Nat} {n : FpNum} :
    Keeps s₀ (storeNum s c d ix n).1 := by
  unfold storeNum
  repeat' (first
    | with_reducible assumption | (unfold x; clear x)
    | (extract_lets +onlyGivenNames x; first | (refine Keeps.bind (s := s₀) (x := x) ?_ ?_; intro _; clear_value x; revert x; intros) | (clear_value x; revert x; intros))
    | split | with_reducible apply Desc.setRaw_keeps | (with_reducible apply Keeps.fst (e := by with_reducible assumption))
    | (with_reducible apply Keeps.snd (e := by with_reducible assumption))
    | (with_reducible apply Keeps.fst_eq (e := by with_reducible assumption))
    | (with_reducible apply Keeps.snd_eq (e := by with_reducible assumption)) | dsimp -zeta only
    | with_reducible apply Keeps.upd)

theorem updElement_keeps {s₀ s : State} (h : Keeps s₀ s) {c : Cmd} {r : Nat} {o : OptRec} {c1 c2 : FpNum} {lo : Nat} {rep : UpdRep} {ix : List Nat} :
    Keeps s₀ (updElement s c r o c1 c2 lo rep ix).1 := by
  unfold updElement
  repeat' (first
    | with_reducible assumption | (unfold x; clear x)
    | (extract_lets +onlyGivenNames x; first | (refine Keeps.bind (s := s₀) (x := x) ?_ ?_; intro _; clear_value x; revert x; intros) | (clear_value x; revert x; intros))
    | split | with_reducible apply storeNum_keeps | (with_reducible apply Keeps.foldl; intro _ _ _)
    | (with_reducible apply Keeps.foldl_fst; intro _ _ _) | (with_reducible apply Keeps.foldl_snd; intro _ _ _)
    | (with_reducible apply Keeps.fst (e := by with_reducible assumption))
    | (with_reducible apply Keeps.snd (e := by with_reducible assumption))
    | (with_reducible apply Keeps.fst_eq (e := by with_reducible assumption))
    | (with_reducible apply Keeps.snd_eq (e := by with_reducible assumption)) | dsimp -zeta only
    | with_reducible apply Keeps.upd)

theorem updNotes_keeps {s₀ s : State} (h : Keeps s₀ s) {h : Nat} {c : Cmd} {rep : UpdRep} :
    Keeps s₀ (updNotes s h c rep) := by
  unfold updNotes
  repeat' (first
    | with_reducible assumption | (unfold x; clear x)
    | (extract_lets +onlyGivenNames x; first | (refine Keeps.bind (s := s₀) (x := x) ?_ ?_; intro _; clear_value x; revert x; intros) | (clear_value x; revert x; intros))
    | split | with_reducible apply Coll.unit_keeps | with_reducible apply ticketFlags_keeps
    | with_reducible apply noteOnce_keeps | with_reducible apply wr_keeps | with_reducible apply emberCode_keeps
    | (with_reducible apply each_keeps; intro _ _ _) | dsimp -zeta only)

theorem updRun_keeps {s₀ s : State} (h : Keeps s₀ s) {h : Nat} {c : Cmd} :
    Keeps s₀ (updRun s h c) := by
  unfold updRun
  dsimp only
  repeat' (first
    | with_reducible assumption | (unfold x; clear x)
    | (extract_lets +onlyGivenNames x; first | (refine Keeps.bind (s := s₀) (x := x) ?_ ?_; intro _; clear_value x; revert x; intros) | (clear_value x; revert x; intros))
    | split | with_reducible apply unitAt_keeps | (with_reducible apply orFail_keeps; intro _ _ _)
    | with_reducible apply memRead_keeps | with_reducible apply failRunning_keeps | with_reducible apply readTensors_keeps
    | with_reducible apply touchRanges_keeps | with_reducible apply writeRanges_keeps | with_reducible apply poke_keeps
    | with_reducible apply updCmd_keeps | with_reducible apply updElement_keeps | with_reducible apply updNotes_keeps
    | with_reducible apply reportTo_keeps | with_reducible apply holdBack_keeps | with_reducible apply cntMem_keeps
    | with_reducible apply collAll_keeps | with_reducible apply startColl_keeps | with_reducible apply wr_keeps
    | with_reducible apply cmdDone_keeps | (with_reducible apply Keeps.foldl; intro _ _ _)
    | (with_reducible apply Keeps.foldl_fst; intro _ _ _) | (with_reducible apply Keeps.foldl_snd; intro _ _ _)
    | (with_reducible apply Keeps.fst (e := by with_reducible assumption))
    | (with_reducible apply Keeps.snd (e := by with_reducible assumption))
    | (with_reducible apply Keeps.fst_eq (e := by with_reducible assumption))
    | (with_reducible apply Keeps.snd_eq (e := by with_reducible assumption)) | dsimp -zeta only
    | with_reducible apply Keeps.upd)

theorem updGo_keeps {s₀ s : State} (h : Keeps s₀ s) {h : Nat} {c : Cmd} :
    Keeps s₀ (updGo s h c) := by
  unfold updGo
  repeat' (first
    | with_reducible assumption | (unfold x; clear x)
    | (extract_lets +onlyGivenNames x; first | (refine Keeps.bind (s := s₀) (x := x) ?_ ?_; intro _; clear_value x; revert x; intros) | (clear_value x; revert x; intros))
    | split | with_reducible apply unitAt_keeps | with_reducible apply cntHearth_keeps
    | (with_reducible apply orFail_keeps; intro _ _ _) | with_reducible apply touchRanges_keeps
    | with_reducible apply failRunning_keeps | with_reducible apply updCmd_keeps | with_reducible apply wr_keeps
    | with_reducible apply emberCode_keeps | with_reducible apply updRun_keeps | with_reducible apply syncBurnish_keeps
    | (with_reducible apply Keeps.fst (e := by with_reducible assumption))
    | (with_reducible apply Keeps.snd (e := by with_reducible assumption))
    | (with_reducible apply Keeps.fst_eq (e := by with_reducible assumption))
    | (with_reducible apply Keeps.snd_eq (e := by with_reducible assumption)) | dsimp -zeta only
    | with_reducible apply Keeps.upd)

theorem execUpdate_keeps {s₀ s : State} (h : Keeps s₀ s) {h : Fin 16} {seq : BitVec 32} :
    KeepsR s₀ (execUpdate h seq s) := by
  unfold execUpdate
  repeat' (first
    | with_reducible assumption | with_reducible apply KeepsR.next | (with_reducible apply opRow_keeps; intro _ _ _)
    | with_reducible apply updGo_keeps | dsimp -zeta only)

theorem execUpdateResume_keeps {s₀ s : State} (h : Keeps s₀ s) {h : Fin 16} {seq : BitVec 32} :
    KeepsR s₀ (execUpdateResume h seq s) := by
  unfold execUpdateResume
  repeat' (first
    | with_reducible assumption | (unfold x; clear x)
    | (extract_lets +onlyGivenNames x; first | (refine Keeps.bind (s := s₀) (x := x) ?_ ?_; intro _; clear_value x; revert x; intros) | (clear_value x; revert x; intros))
    | split | with_reducible apply KeepsR.next | with_reducible apply updGo_keeps
    | (with_reducible apply Keeps.fst (e := by with_reducible assumption))
    | (with_reducible apply Keeps.snd (e := by with_reducible assumption))
    | (with_reducible apply Keeps.fst_eq (e := by with_reducible assumption))
    | (with_reducible apply Keeps.snd_eq (e := by with_reducible assumption)) | with_reducible apply Keeps.upd)

end Sys2Proof.Machine
end

