-- ==== Sys2Proof/Laws/Keeps/Frames.lean ====
section
/-! SUPPORT. What the operations of Machine/Frames.lean keep (`Keeps`). -/

namespace Sys2Proof.Machine

theorem sendImage_keeps {s₀ s : State} (h : Keeps s₀ s) {m : MirrorOut} :
    Keeps s₀ (sendImage s m) := by
  unfold sendImage
  repeat' (first
    | with_reducible assumption | (unfold x; clear x)
    | (extract_lets +onlyGivenNames x; first | (refine Keeps.bind (s := s₀) (x := x) ?_ ?_; intro _; clear_value x; revert x; intros) | (clear_value x; revert x; intros))
    | split | with_reducible apply wr_keeps | with_reducible apply pumpLink_keeps | with_reducible apply setLink_keeps
    | dsimp -zeta only | with_reducible apply Keeps.upd)

theorem startReturn_keeps {s₀ s : State} (h : Keeps s₀ s)  :
    Keeps s₀ (startReturn s) := by
  unfold startReturn
  dsimp only
  repeat' (first
    | with_reducible assumption | (unfold x; clear x)
    | (extract_lets +onlyGivenNames x; first | (refine Keeps.bind (s := s₀) (x := x) ?_ ?_; intro _; clear_value x; revert x; intros) | (clear_value x; revert x; intros))
    | split | with_reducible apply wr_keeps | with_reducible apply emberCode_keeps | with_reducible apply touchRanges_keeps
    | with_reducible apply sendImage_keeps | (with_reducible apply Keeps.fst (e := by with_reducible assumption))
    | (with_reducible apply Keeps.snd (e := by with_reducible assumption))
    | (with_reducible apply Keeps.fst_eq (e := by with_reducible assumption))
    | (with_reducible apply Keeps.snd_eq (e := by with_reducible assumption)) | dsimp -zeta only
    | with_reducible apply Keeps.upd)

theorem nextImage_keeps {s₀ s : State} (h : Keeps s₀ s)  :
    Keeps s₀ (nextImage s) := by
  unfold nextImage
  repeat' (first
    | with_reducible assumption | split | with_reducible apply startReturn_keeps)

theorem execMirrorSend_keeps {s₀ s : State} (h : Keeps s₀ s)  :
    KeepsR s₀ (execMirrorSend s) := by
  unfold execMirrorSend
  repeat' (first
    | with_reducible assumption | (unfold x; clear x)
    | (extract_lets +onlyGivenNames x; first | (refine Keeps.bind (s := s₀) (x := x) ?_ ?_; intro _; clear_value x; revert x; intros) | (clear_value x; revert x; intros))
    | split | with_reducible apply KeepsR.next | with_reducible apply takeHold_keeps | with_reducible apply emberCode_keeps
    | with_reducible apply nextImage_keeps | with_reducible apply mirrorFail_keeps | with_reducible apply touchRanges_keeps
    | with_reducible apply sendImage_keeps | (with_reducible apply Keeps.foldl; intro _ _ _)
    | (with_reducible apply Keeps.foldl_fst; intro _ _ _) | (with_reducible apply Keeps.foldl_snd; intro _ _ _)
    | (with_reducible apply Keeps.fst (e := by with_reducible assumption))
    | (with_reducible apply Keeps.snd (e := by with_reducible assumption))
    | (with_reducible apply Keeps.fst_eq (e := by with_reducible assumption))
    | (with_reducible apply Keeps.snd_eq (e := by with_reducible assumption)) | dsimp -zeta only
    | with_reducible apply Keeps.upd)

theorem execTwinReturn_keeps {s₀ s : State} (h : Keeps s₀ s) {src : Src} :
    KeepsR s₀ (execTwinReturn src s) := by
  unfold execTwinReturn
  repeat' (first
    | with_reducible assumption | (unfold x; clear x)
    | (extract_lets +onlyGivenNames x; first | (refine Keeps.bind (s := s₀) (x := x) ?_ ?_; intro _; clear_value x; revert x; intros) | (clear_value x; revert x; intros))
    | split | with_reducible apply KeepsR.next | with_reducible apply cfgErr_keeps | with_reducible apply wr_keeps
    | with_reducible apply startReturn_keeps | with_reducible apply Keeps.upd)

theorem girthWrite_keeps {s₀ s : State} (h : Keeps s₀ s) {a : Nat} {d : Bytes} :
    Keeps s₀ (girthWrite s a d).1 := by
  unfold girthWrite
  repeat' (first
    | with_reducible assumption | (unfold x; clear x)
    | (extract_lets +onlyGivenNames x; first | (refine Keeps.bind (s := s₀) (x := x) ?_ ?_; intro _; clear_value x; revert x; intros) | (clear_value x; revert x; intros))
    | split | with_reducible apply touchRanges_keeps | with_reducible apply poke_keeps
    | (with_reducible apply Keeps.fst (e := by with_reducible assumption))
    | (with_reducible apply Keeps.snd (e := by with_reducible assumption))
    | (with_reducible apply Keeps.fst_eq (e := by with_reducible assumption))
    | (with_reducible apply Keeps.snd_eq (e := by with_reducible assumption)) | dsimp -zeta only
    | with_reducible apply Keeps.upd)

theorem girthHeader_keeps {s₀ s : State} (h : Keeps s₀ s) {a mseq : Nat} :
    Keeps s₀ (girthHeader s a mseq).1 := by
  unfold girthHeader
  repeat' (first
    | with_reducible assumption | (unfold x; clear x)
    | (extract_lets +onlyGivenNames x; first | (refine Keeps.bind (s := s₀) (x := x) ?_ ?_; intro _; clear_value x; revert x; intros) | (clear_value x; revert x; intros))
    | split | with_reducible apply girthWrite_keeps | (with_reducible apply Keeps.fst (e := by with_reducible assumption))
    | (with_reducible apply Keeps.snd (e := by with_reducible assumption))
    | (with_reducible apply Keeps.fst_eq (e := by with_reducible assumption))
    | (with_reducible apply Keeps.snd_eq (e := by with_reducible assumption)) | dsimp -zeta only)

theorem syncHeld_keeps {s₀ s : State} (h : Keeps s₀ s)  :
    Keeps s₀ (syncHeld s) := by
  unfold syncHeld
  repeat' (first
    | with_reducible assumption | (unfold x; clear x)
    | (extract_lets +onlyGivenNames x; first | (refine Keeps.bind (s := s₀) (x := x) ?_ ?_; intro _; clear_value x; revert x; intros) | (clear_value x; revert x; intros))
    | split | with_reducible apply wr_keeps | (with_reducible apply Keeps.fst (e := by with_reducible assumption))
    | (with_reducible apply Keeps.snd (e := by with_reducible assumption))
    | (with_reducible apply Keeps.fst_eq (e := by with_reducible assumption))
    | (with_reducible apply Keeps.snd_eq (e := by with_reducible assumption)) | with_reducible apply Keeps.upd)

theorem imageOpen_keeps {s₀ s : State} (h : Keeps s₀ s) {p : Pkt} :
    Keeps s₀ (imageOpen s p) := by
  unfold imageOpen
  repeat' (first
    | with_reducible assumption | (unfold x; clear x)
    | (extract_lets +onlyGivenNames x; first | (refine Keeps.bind (s := s₀) (x := x) ?_ ?_; intro _; clear_value x; revert x; intros) | (clear_value x; revert x; intros))
    | split | with_reducible apply girthHeader_keeps | with_reducible apply syncHeld_keeps | with_reducible apply wr_keeps
    | (with_reducible apply Keeps.fst (e := by with_reducible assumption))
    | (with_reducible apply Keeps.snd (e := by with_reducible assumption))
    | (with_reducible apply Keeps.fst_eq (e := by with_reducible assumption))
    | (with_reducible apply Keeps.snd_eq (e := by with_reducible assumption)) | dsimp -zeta only
    | with_reducible apply Keeps.upd)

theorem imageEnd_keeps {s₀ s : State} (h : Keeps s₀ s) {m : MirrorIn} :
    Keeps s₀ (imageEnd s m) := by
  unfold imageEnd
  dsimp only
  repeat' (first
    | with_reducible assumption | (unfold x; clear x)
    | (extract_lets +onlyGivenNames x; first | (refine Keeps.bind (s := s₀) (x := x) ?_ ?_; intro _; clear_value x; revert x; intros) | (clear_value x; revert x; intros))
    | split | with_reducible apply wr_keeps | with_reducible apply post_keeps | with_reducible apply touchRanges_keeps
    | with_reducible apply syncHeld_keeps | with_reducible apply poke_keeps
    | (with_reducible apply Keeps.fst (e := by with_reducible assumption))
    | (with_reducible apply Keeps.snd (e := by with_reducible assumption))
    | (with_reducible apply Keeps.fst_eq (e := by with_reducible assumption))
    | (with_reducible apply Keeps.snd_eq (e := by with_reducible assumption)) | dsimp -zeta only
    | with_reducible apply Keeps.upd)

theorem imageData_keeps {s₀ s : State} (h : Keeps s₀ s) {m : MirrorIn} {p : Pkt} :
    Keeps s₀ (imageData s m p) := by
  unfold imageData
  repeat' (first
    | with_reducible assumption | (unfold x; clear x)
    | (extract_lets +onlyGivenNames x; first | (refine Keeps.bind (s := s₀) (x := x) ?_ ?_; intro _; clear_value x; revert x; intros) | (clear_value x; revert x; intros))
    | split | with_reducible apply girthWrite_keeps | with_reducible apply imageEnd_keeps
    | (with_reducible apply Keeps.fst (e := by with_reducible assumption))
    | (with_reducible apply Keeps.snd (e := by with_reducible assumption))
    | (with_reducible apply Keeps.fst_eq (e := by with_reducible assumption))
    | (with_reducible apply Keeps.snd_eq (e := by with_reducible assumption)) | dsimp -zeta only
    | with_reducible apply Keeps.upd)

theorem clearHalves_keeps {s₀ s : State} (h : Keeps s₀ s)  :
    Keeps s₀ (clearHalves s) := by
  unfold clearHalves
  repeat' (first
    | with_reducible assumption | split | with_reducible apply syncHeld_keeps | with_reducible apply girthHeader_keeps
    | (with_reducible apply each_keeps; intro _ _ _) | dsimp -zeta only)

theorem onHello_keeps {s₀ s : State} (h : Keeps s₀ s) {l : Nat} {p : Pkt} :
    Keeps s₀ (onHello s l p) := by
  unfold onHello
  repeat' (first
    | with_reducible assumption | (unfold x; clear x)
    | (extract_lets +onlyGivenNames x; first | (refine Keeps.bind (s := s₀) (x := x) ?_ ?_; intro _; clear_value x; revert x; intros) | (clear_value x; revert x; intros))
    | split | with_reducible apply seeHello_keeps | with_reducible apply peerFail_keeps)

theorem onReject_keeps {s₀ s : State} (h : Keeps s₀ s) {l : Nat} {p : Pkt} :
    Keeps s₀ (onReject s l p) := by
  unfold onReject
  repeat' (first
    | with_reducible assumption | (unfold x; clear x)
    | (extract_lets +onlyGivenNames x; first | (refine Keeps.bind (s := s₀) (x := x) ?_ ?_; intro _; clear_value x; revert x; intros) | (clear_value x; revert x; intros))
    | split | with_reducible apply failColl_keeps | (with_reducible apply Keeps.fst (e := by with_reducible assumption))
    | (with_reducible apply Keeps.snd (e := by with_reducible assumption))
    | (with_reducible apply Keeps.fst_eq (e := by with_reducible assumption))
    | (with_reducible apply Keeps.snd_eq (e := by with_reducible assumption)) | dsimp -zeta only
    | with_reducible apply Keeps.upd)

theorem onEcredit_keeps {s₀ s : State} (h : Keeps s₀ s) {p : Pkt} :
    Keeps s₀ (onEcredit s p) := by
  unfold onEcredit
  repeat' (first
    | with_reducible assumption | (unfold x; clear x)
    | (extract_lets +onlyGivenNames x; first | (refine Keeps.bind (s := s₀) (x := x) ?_ ?_; intro _; clear_value x; revert x; intros) | (clear_value x; revert x; intros))
    | split | with_reducible apply collAll_keeps | with_reducible apply pumpStream_keeps
    | (with_reducible apply each_keeps; intro _ _ _) | dsimp -zeta only | with_reducible apply Keeps.upd)

theorem onStopMark_keeps {s₀ s : State} (h : Keeps s₀ s) {l : Nat} {p : Pkt} :
    Keeps s₀ (onStopMark s l p) := by
  unfold onStopMark
  repeat' (first
    | with_reducible assumption | (unfold x; clear x)
    | (extract_lets +onlyGivenNames x; first | (refine Keeps.bind (s := s₀) (x := x) ?_ ?_; intro _; clear_value x; revert x; intros) | (clear_value x; revert x; intros))
    | split | with_reducible apply pumpLink_keeps | with_reducible apply setLink_keeps | with_reducible apply collAll_keeps
    | with_reducible apply pumpStream_keeps | with_reducible apply startStop_keeps | with_reducible apply cntHearth_keeps
    | with_reducible apply sendMark_keeps | (with_reducible apply each_keeps; intro _ _ _) | dsimp -zeta only
    | with_reducible apply Keeps.upd)

theorem onOpen_keeps {s₀ s : State} (h : Keeps s₀ s) {l : Nat} {p : Pkt} :
    Keeps s₀ (onOpen s l p) := by
  unfold onOpen
  repeat' (first
    | with_reducible assumption | (unfold x; clear x)
    | (extract_lets +onlyGivenNames x; first | (refine Keeps.bind (s := s₀) (x := x) ?_ ?_; intro _; clear_value x; revert x; intros) | (clear_value x; revert x; intros))
    | split | with_reducible apply imageOpen_keeps | with_reducible apply collAll_keeps | dsimp -zeta only
    | with_reducible apply Keeps.upd)

theorem onData_keeps {s₀ s : State} (h : Keeps s₀ s) {l : Nat} {p : Pkt} :
    Keeps s₀ (onData s l p) := by
  unfold onData
  repeat' (first
    | with_reducible assumption | (unfold x; clear x)
    | (extract_lets +onlyGivenNames x; first | (refine Keeps.bind (s := s₀) (x := x) ?_ ?_; intro _; clear_value x; revert x; intros) | (clear_value x; revert x; intros))
    | split | with_reducible apply imageData_keeps | with_reducible apply collAll_keeps
    | (with_reducible apply Keeps.fst (e := by with_reducible assumption))
    | (with_reducible apply Keeps.snd (e := by with_reducible assumption))
    | (with_reducible apply Keeps.fst_eq (e := by with_reducible assumption))
    | (with_reducible apply Keeps.snd_eq (e := by with_reducible assumption)) | dsimp -zeta only
    | with_reducible apply Keeps.upd)

theorem onMirrorAck_keeps {s₀ s : State} (h : Keeps s₀ s) {p : Pkt} :
    Keeps s₀ (onMirrorAck s p) := by
  unfold onMirrorAck
  repeat' (first
    | with_reducible assumption | (unfold x; clear x)
    | (extract_lets +onlyGivenNames x; first | (refine Keeps.bind (s := s₀) (x := x) ?_ ?_; intro _; clear_value x; revert x; intros) | (clear_value x; revert x; intros))
    | split | with_reducible apply dropHold_keeps | with_reducible apply nextImage_keeps | with_reducible apply wr_keeps
    | (with_reducible apply each_keeps; intro _ _ _) | (with_reducible apply Keeps.fst (e := by with_reducible assumption))
    | (with_reducible apply Keeps.snd (e := by with_reducible assumption))
    | (with_reducible apply Keeps.fst_eq (e := by with_reducible assumption))
    | (with_reducible apply Keeps.snd_eq (e := by with_reducible assumption)) | dsimp -zeta only
    | with_reducible apply Keeps.upd)

theorem onMirrorNak_keeps {s₀ s : State} (h : Keeps s₀ s) {p : Pkt} :
    Keeps s₀ (onMirrorNak s p) := by
  unfold onMirrorNak
  repeat' (first
    | with_reducible assumption | (unfold x; clear x)
    | (extract_lets +onlyGivenNames x; first | (refine Keeps.bind (s := s₀) (x := x) ?_ ?_; intro _; clear_value x; revert x; intros) | (clear_value x; revert x; intros))
    | split | with_reducible apply wr_keeps | with_reducible apply sendImage_keeps | with_reducible apply nextImage_keeps
    | with_reducible apply mirrorFail_keeps | (with_reducible apply Keeps.fst (e := by with_reducible assumption))
    | (with_reducible apply Keeps.snd (e := by with_reducible assumption))
    | (with_reducible apply Keeps.fst_eq (e := by with_reducible assumption))
    | (with_reducible apply Keeps.snd_eq (e := by with_reducible assumption)) | with_reducible apply Keeps.upd)

theorem processFrame_keeps {s₀ s : State} (h : Keeps s₀ s) {l : Nat} {p : Pkt} :
    Keeps s₀ (processFrame s l p) := by
  unfold processFrame
  repeat' (first
    | with_reducible assumption | (unfold x; clear x)
    | (extract_lets +onlyGivenNames x; first | (refine Keeps.bind (s := s₀) (x := x) ?_ ?_; intro _; clear_value x; revert x; intros) | (clear_value x; revert x; intros))
    | split | with_reducible apply grantBack_keeps | with_reducible apply onHello_keeps
    | with_reducible apply onStopMark_keeps | with_reducible apply forwardFrame_keeps | with_reducible apply onReject_keeps
    | with_reducible apply onEcredit_keeps | with_reducible apply onOpen_keeps | with_reducible apply onData_keeps
    | with_reducible apply onMirrorAck_keeps | with_reducible apply onMirrorNak_keeps)

theorem frameRow_keeps {s₀ s : State} (h : Keeps s₀ s) {l : Fin 13} {f : Frame} {type : Nat} :
    KeepsR s₀ (frameRow l f type s) := by
  unfold frameRow
  repeat' (first
    | with_reducible assumption | (unfold x; clear x)
    | (extract_lets +onlyGivenNames x; first | (refine Keeps.bind (s := s₀) (x := x) ?_ ?_; intro _; clear_value x; revert x; intros) | (clear_value x; revert x; intros))
    | split | with_reducible apply KeepsR.next | with_reducible apply acceptFrame_keeps | with_reducible apply setLink_keeps
    | with_reducible apply processFrame_keeps | dsimp -zeta only | with_reducible apply Keeps.upd)

theorem execHello_keeps {s₀ s : State} (h : Keeps s₀ s) {l : Fin 13} {f : Frame} :
    KeepsR s₀ (execHello l f s) := by
  unfold execHello
  repeat' (first
    | with_reducible assumption | split | with_reducible apply KeepsR.next | with_reducible apply seeHello_keeps
    | with_reducible apply frameRow_keeps)

theorem execReject_keeps {s₀ s : State} (h : Keeps s₀ s) {l : Fin 13} {f : Frame} :
    KeepsR s₀ (execReject l f s) := by
  unfold execReject
  repeat' (first
    | with_reducible assumption | with_reducible apply KeepsR.next | with_reducible apply frameRow_keeps)

theorem execEcredit_keeps {s₀ s : State} (h : Keeps s₀ s) {l : Fin 13} {f : Frame} :
    KeepsR s₀ (execEcredit l f s) := by
  unfold execEcredit
  repeat' (first
    | with_reducible assumption | with_reducible apply KeepsR.next | with_reducible apply frameRow_keeps)

theorem execStopMark_keeps {s₀ s : State} (h : Keeps s₀ s) {l : Fin 13} {f : Frame} :
    KeepsR s₀ (execStopMark l f s) := by
  unfold execStopMark
  repeat' (first
    | with_reducible assumption | with_reducible apply KeepsR.next | with_reducible apply frameRow_keeps)

theorem execOpenFrame_keeps {s₀ s : State} (h : Keeps s₀ s) {l : Fin 13} {f : Frame} :
    KeepsR s₀ (execOpenFrame l f s) := by
  unfold execOpenFrame
  repeat' (first
    | with_reducible assumption | with_reducible apply KeepsR.next | with_reducible apply frameRow_keeps)

theorem execDataFrame_keeps {s₀ s : State} (h : Keeps s₀ s) {l : Fin 13} {f : Frame} :
    KeepsR s₀ (execDataFrame l f s) := by
  unfold execDataFrame
  repeat' (first
    | with_reducible assumption | with_reducible apply KeepsR.next | with_reducible apply frameRow_keeps)

theorem execMirrorAck_keeps {s₀ s : State} (h : Keeps s₀ s) {l : Fin 13} {f : Frame} :
    KeepsR s₀ (execMirrorAck l f s) := by
  unfold execMirrorAck
  repeat' (first
    | with_reducible assumption | with_reducible apply KeepsR.next | with_reducible apply frameRow_keeps)

theorem execMirrorNak_keeps {s₀ s : State} (h : Keeps s₀ s) {l : Fin 13} {f : Frame} :
    KeepsR s₀ (execMirrorNak l f s) := by
  unfold execMirrorNak
  repeat' (first
    | with_reducible assumption | with_reducible apply KeepsR.next | with_reducible apply frameRow_keeps)

theorem execTwinPresentRise_keeps {s₀ s : State} (h : Keeps s₀ s)  :
    KeepsR s₀ (execTwinPresentRise s) := by
  unfold execTwinPresentRise
  repeat' (first
    | with_reducible assumption | (unfold x; clear x)
    | (extract_lets +onlyGivenNames x; first | (refine Keeps.bind (s := s₀) (x := x) ?_ ?_; intro _; clear_value x; revert x; intros) | (clear_value x; revert x; intros))
    | split | with_reducible apply KeepsR.next | with_reducible apply wr_keeps | with_reducible apply Keeps.upd)

theorem execTwinPresentFall_keeps {s₀ s : State} (h : Keeps s₀ s)  :
    KeepsR s₀ (execTwinPresentFall s) := by
  unfold execTwinPresentFall
  repeat' (first
    | with_reducible assumption | (unfold x; clear x)
    | (extract_lets +onlyGivenNames x; first | (refine Keeps.bind (s := s₀) (x := x) ?_ ?_; intro _; clear_value x; revert x; intros) | (clear_value x; revert x; intros))
    | split | with_reducible apply KeepsR.next | with_reducible apply wr_keeps | with_reducible apply linkFail_keeps
    | with_reducible apply Keeps.upd)

theorem laneBit_keeps {s₀ s : State} (h : Keeps s₀ s) {n : Nat} {b : Bool} :
    Keeps s₀ (laneBit s n b) := by
  unfold laneBit
  dsimp only
  repeat' (first
    | with_reducible assumption | (unfold x; clear x)
    | (extract_lets +onlyGivenNames x; first | (refine Keeps.bind (s := s₀) (x := x) ?_ ?_; intro _; clear_value x; revert x; intros) | (clear_value x; revert x; intros))
    | split | with_reducible apply satAdd_keeps | with_reducible apply wrapAdd_keeps | with_reducible apply wr_keeps
    | (with_reducible apply Keeps.fst (e := by with_reducible assumption))
    | (with_reducible apply Keeps.snd (e := by with_reducible assumption))
    | (with_reducible apply Keeps.fst_eq (e := by with_reducible assumption))
    | (with_reducible apply Keeps.snd_eq (e := by with_reducible assumption)) | dsimp -zeta only
    | with_reducible apply Keeps.upd)

theorem seedBits_keeps {s₀ s : State} (h : Keeps s₀ s)  :
    Keeps s₀ (seedBits s).2 := by
  unfold seedBits
  repeat' (first
    | with_reducible assumption | (unfold x; clear x)
    | (extract_lets +onlyGivenNames x; first | (refine Keeps.bind (s := s₀) (x := x) ?_ ?_; intro _; clear_value x; revert x; intros) | (clear_value x; revert x; intros))
    | split | with_reducible apply takeFree_keeps | (with_reducible apply Keeps.fst (e := by with_reducible assumption))
    | (with_reducible apply Keeps.snd (e := by with_reducible assumption))
    | (with_reducible apply Keeps.fst_eq (e := by with_reducible assumption))
    | (with_reducible apply Keeps.snd_eq (e := by with_reducible assumption)) | dsimp -zeta only)

theorem genBit_keeps {s₀ s : State} (h : Keeps s₀ s) {n : Nat} :
    Keeps s₀ (genBit s n).2 := by
  unfold genBit
  repeat' (first
    | with_reducible assumption | (unfold x; clear x)
    | (extract_lets +onlyGivenNames x; first | (refine Keeps.bind (s := s₀) (x := x) ?_ ?_; intro _; clear_value x; revert x; intros) | (clear_value x; revert x; intros))
    | split | with_reducible apply seedBits_keeps | (with_reducible apply Keeps.foldl; intro _ _ _)
    | (with_reducible apply Keeps.foldl_fst; intro _ _ _) | (with_reducible apply Keeps.foldl_snd; intro _ _ _)
    | (with_reducible apply Keeps.fst (e := by with_reducible assumption))
    | (with_reducible apply Keeps.snd (e := by with_reducible assumption))
    | (with_reducible apply Keeps.fst_eq (e := by with_reducible assumption))
    | (with_reducible apply Keeps.snd_eq (e := by with_reducible assumption)) | dsimp -zeta only
    | with_reducible apply Keeps.upd)

theorem execLaneCheckerBits_keeps {s₀ s : State} (h : Keeps s₀ s) {n : Fin 104} {bs : List Bool} :
    KeepsR s₀ (execLaneCheckerBits n bs s) := by
  unfold execLaneCheckerBits
  repeat' (first
    | with_reducible assumption | (unfold x; clear x)
    | (extract_lets +onlyGivenNames x; first | (refine Keeps.bind (s := s₀) (x := x) ?_ ?_; intro _; clear_value x; revert x; intros) | (clear_value x; revert x; intros))
    | split | with_reducible apply KeepsR.next | with_reducible apply genBit_keeps | with_reducible apply laneBit_keeps
    | (with_reducible apply Keeps.foldl; intro _ _ _) | (with_reducible apply Keeps.foldl_fst; intro _ _ _)
    | (with_reducible apply Keeps.foldl_snd; intro _ _ _)
    | (with_reducible apply Keeps.fst (e := by with_reducible assumption))
    | (with_reducible apply Keeps.snd (e := by with_reducible assumption))
    | (with_reducible apply Keeps.fst_eq (e := by with_reducible assumption))
    | (with_reducible apply Keeps.snd_eq (e := by with_reducible assumption)) | dsimp -zeta only)

theorem execLaneTestClear_keeps {s₀ s : State} (h : Keeps s₀ s) {src : Src} {n : Fin 104} :
    KeepsR s₀ (execLaneTestClear src n s) := by
  unfold execLaneTestClear
  repeat' (first
    | with_reducible assumption | (unfold x; clear x)
    | (extract_lets +onlyGivenNames x; first | (refine Keeps.bind (s := s₀) (x := x) ?_ ?_; intro _; clear_value x; revert x; intros) | (clear_value x; revert x; intros))
    | split | with_reducible apply KeepsR.next | with_reducible apply cfgErr_keeps | with_reducible apply wr_keeps
    | with_reducible apply Keeps.upd)

end Sys2Proof.Machine
end

