-- ==== Sys2Proof/Laws/Keeps/Codec.lean ====
section
/-! SUPPORT. What the operations of Machine/Codec.lean keep (`Keeps`). -/

namespace Sys2Proof.Machine

theorem syncCodec_keeps {s₀ s : State} (h : Keeps s₀ s)  :
    Keeps s₀ (syncCodec s) := by
  unfold syncCodec
  repeat' (first
    | with_reducible assumption | (unfold x; clear x)
    | (extract_lets +onlyGivenNames x; first | (refine Keeps.bind (s := s₀) (x := x) ?_ ?_; intro _; clear_value x; revert x; intros) | (clear_value x; revert x; intros))
    | split | with_reducible apply wr_keeps | (with_reducible apply Keeps.foldl; intro _ _ _)
    | (with_reducible apply Keeps.foldl_fst; intro _ _ _) | (with_reducible apply Keeps.foldl_snd; intro _ _ _)
    | dsimp -zeta only)

theorem codecRelease_keeps {s₀ s : State} (h : Keeps s₀ s) {h seq : Nat} :
    Keeps s₀ (codecRelease s h seq) := by
  unfold codecRelease
  repeat' (first
    | with_reducible assumption | (unfold x; clear x)
    | (extract_lets +onlyGivenNames x; first | (refine Keeps.bind (s := s₀) (x := x) ?_ ?_; intro _; clear_value x; revert x; intros) | (clear_value x; revert x; intros))
    | with_reducible apply wr_keeps | with_reducible apply syncCodec_keeps | (with_reducible apply each_keeps; intro _ _ _)
    | dsimp -zeta only | with_reducible apply Keeps.upd)

theorem sbufMeet_keeps {s₀ s : State} (h : Keeps s₀ s) {lane : Nat} {cmd : Option CmdId} :
    Keeps s₀ (sbufMeet s lane cmd).1 := by
  unfold sbufMeet
  repeat' (first
    | with_reducible assumption | (unfold x; clear x)
    | (extract_lets +onlyGivenNames x; first | (refine Keeps.bind (s := s₀) (x := x) ?_ ?_; intro _; clear_value x; revert x; intros) | (clear_value x; revert x; intros))
    | split | with_reducible apply wr_keeps | with_reducible apply emberCode_keeps | with_reducible apply cntCod_keeps
    | with_reducible apply satAdd_keeps | (with_reducible apply each_keeps; intro _ _ _) | dsimp -zeta only
    | with_reducible apply Keeps.upd)

theorem storeGroup_keeps {s₀ s : State} (h : Keeps s₀ s) {m : StoreMode} {d : Desc} {v : List Nat → FR} {g : Nat} :
    Keeps s₀ (storeGroup s m d v g).1 := by
  unfold storeGroup
  repeat' (first
    | with_reducible assumption | (unfold x; clear x)
    | (extract_lets +onlyGivenNames x; first | (refine Keeps.bind (s := s₀) (x := x) ?_ ?_; intro _; clear_value x; revert x; intros) | (clear_value x; revert x; intros))
    | split | with_reducible apply storeBlockAt_keeps | with_reducible apply Desc.setRaw_keeps
    | (with_reducible apply Keeps.foldl; intro _ _ _) | (with_reducible apply Keeps.foldl_fst; intro _ _ _)
    | (with_reducible apply Keeps.foldl_snd; intro _ _ _)
    | (with_reducible apply Keeps.fst (e := by with_reducible assumption))
    | (with_reducible apply Keeps.snd (e := by with_reducible assumption))
    | (with_reducible apply Keeps.fst_eq (e := by with_reducible assumption))
    | (with_reducible apply Keeps.snd_eq (e := by with_reducible assumption)) | dsimp -zeta only
    | with_reducible apply Keeps.upd)

theorem pickSlots_keeps {s₀ s : State} (h : Keeps s₀ s) {n : Nat} {f : List Nat} : Keeps s₀ (pickSlots s n f).1 := by
  induction n generalizing s f with
  | zero => exact h
  | succ n ih =>
    unfold pickSlots
    split
    · exact h
    · exact ih (takeFree_keeps h)

theorem codecEnd_keeps {s₀ s : State} (h : Keeps s₀ s) {h : Nat} {c : Cmd} {unit : Nat} {at_ : Nat} {result : Bytes} {code : Nat} :
    Keeps s₀ (codecEnd s h c unit at_ result code) := by
  unfold codecEnd
  repeat' (first
    | with_reducible assumption | (unfold x; clear x)
    | (extract_lets +onlyGivenNames x; first | (refine Keeps.bind (s := s₀) (x := x) ?_ ?_; intro _; clear_value x; revert x; intros) | (clear_value x; revert x; intros))
    | split | with_reducible apply memWrite_keeps | with_reducible apply failRunning_keeps
    | with_reducible apply Coll.unit_keeps | with_reducible apply cmdDone_keeps
    | (with_reducible apply Keeps.fst (e := by with_reducible assumption))
    | (with_reducible apply Keeps.snd (e := by with_reducible assumption))
    | (with_reducible apply Keeps.fst_eq (e := by with_reducible assumption))
    | (with_reducible apply Keeps.snd_eq (e := by with_reducible assumption)) | dsimp -zeta only
    | with_reducible apply Keeps.upd)

theorem decodeFinish_keeps {s₀ s : State} (h : Keeps s₀ s) {h : Nat} {c : Cmd} {lane std : Nat} {q : Bytes} {record : Bytes} {ps : List Nat} {slots : List Nat} :
    Keeps s₀ (decodeFinish s h c lane std q record ps slots) := by
  unfold decodeFinish
  repeat' (first
    | with_reducible assumption | (unfold x; clear x)
    | (extract_lets +onlyGivenNames x; first | (refine Keeps.bind (s := s₀) (x := x) ?_ ?_; intro _; clear_value x; revert x; intros) | (clear_value x; revert x; intros))
    | split | with_reducible apply emberCode_keeps | with_reducible apply wr_keeps | with_reducible apply cntCod_keeps
    | with_reducible apply ticketFlags_keeps | with_reducible apply reportTo_keeps | with_reducible apply notices_keeps
    | with_reducible apply codecEnd_keeps | (with_reducible apply orFail_keeps; intro _ _ _)
    | with_reducible apply memWrite_keeps | (with_reducible apply Keeps.fst (e := by with_reducible assumption))
    | (with_reducible apply Keeps.snd (e := by with_reducible assumption))
    | (with_reducible apply Keeps.fst_eq (e := by with_reducible assumption))
    | (with_reducible apply Keeps.snd_eq (e := by with_reducible assumption)) | dsimp -zeta only)

theorem decodeRun_keeps {s₀ s : State} (h : Keeps s₀ s) {h : Nat} {c : Cmd} {lane : Nat} :
    Keeps s₀ (decodeRun s h c lane) := by
  unfold decodeRun
  dsimp only
  repeat' (first
    | with_reducible assumption | (unfold x; clear x)
    | (extract_lets +onlyGivenNames x; first | (refine Keeps.bind (s := s₀) (x := x) ?_ ?_; intro _; clear_value x; revert x; intros) | (clear_value x; revert x; intros))
    | split | with_reducible apply Coll.unit_keeps | (with_reducible apply orFail_keeps; intro _ _ _)
    | with_reducible apply memRead_keeps | with_reducible apply codecEnd_keeps | with_reducible apply sbufMeet_keeps
    | with_reducible apply wr_keeps | with_reducible apply touchRanges_keeps | with_reducible apply takeFreeBytes_keeps
    | with_reducible apply poke_keeps | with_reducible apply cntCod_keeps | with_reducible apply decodeFinish_keeps
    | with_reducible apply pickSlots_keeps | (with_reducible apply Keeps.fst (e := by with_reducible assumption))
    | (with_reducible apply Keeps.snd (e := by with_reducible assumption))
    | (with_reducible apply Keeps.fst_eq (e := by with_reducible assumption))
    | (with_reducible apply Keeps.snd_eq (e := by with_reducible assumption)) | dsimp -zeta only
    | with_reducible apply Keeps.upd)

theorem encodeRun_keeps {s₀ s : State} (h : Keeps s₀ s) {h : Nat} {c : Cmd} {lane : Nat} :
    Keeps s₀ (encodeRun s h c lane) := by
  unfold encodeRun
  dsimp only
  repeat' (first
    | with_reducible assumption | (unfold x; clear x)
    | (extract_lets +onlyGivenNames x; first | (refine Keeps.bind (s := s₀) (x := x) ?_ ?_; intro _; clear_value x; revert x; intros) | (clear_value x; revert x; intros))
    | split | with_reducible apply Coll.unit_keeps | (with_reducible apply orFail_keeps; intro _ _ _)
    | with_reducible apply readTensors_keeps | with_reducible apply codecEnd_keeps | with_reducible apply sbufMeet_keeps
    | with_reducible apply touchRanges_keeps | with_reducible apply takeFreeBytes_keeps | with_reducible apply poke_keeps
    | with_reducible apply memWrite_keeps | with_reducible apply notices_keeps | with_reducible apply emberCode_keeps
    | with_reducible apply cntCod_keeps | with_reducible apply wr_keeps | (with_reducible apply Keeps.foldl; intro _ _ _)
    | (with_reducible apply Keeps.foldl_fst; intro _ _ _) | (with_reducible apply Keeps.foldl_snd; intro _ _ _)
    | (with_reducible apply Keeps.fst (e := by with_reducible assumption))
    | (with_reducible apply Keeps.snd (e := by with_reducible assumption))
    | (with_reducible apply Keeps.fst_eq (e := by with_reducible assumption))
    | (with_reducible apply Keeps.snd_eq (e := by with_reducible assumption)) | dsimp -zeta only
    | with_reducible apply Keeps.upd)

theorem codecArrive_keeps {s₀ s : State} (h : Keeps s₀ s) {h : Nat} {c : Cmd} :
    Keeps s₀ (codecArrive s h c) := by
  unfold codecArrive
  repeat' (first
    | with_reducible assumption | (unfold x; clear x)
    | (extract_lets +onlyGivenNames x; first | (refine Keeps.bind (s := s₀) (x := x) ?_ ?_; intro _; clear_value x; revert x; intros) | (clear_value x; revert x; intros))
    | split | with_reducible apply codecEnd_keeps | with_reducible apply syncCodec_keeps | with_reducible apply updCmd_keeps
    | dsimp -zeta only | with_reducible apply Keeps.upd)

theorem execDecode_keeps {s₀ s : State} (h : Keeps s₀ s) {h : Fin 16} {seq : BitVec 32} :
    KeepsR s₀ (execDecode h seq s) := by
  unfold execDecode
  repeat' (first
    | with_reducible assumption | with_reducible apply KeepsR.next | (with_reducible apply opRow_keeps; intro _ _ _)
    | with_reducible apply codecArrive_keeps | dsimp -zeta only)

theorem execEncode_keeps {s₀ s : State} (h : Keeps s₀ s) {h : Fin 16} {seq : BitVec 32} :
    KeepsR s₀ (execEncode h seq s) := by
  unfold execEncode
  repeat' (first
    | with_reducible assumption | with_reducible apply KeepsR.next | (with_reducible apply opRow_keeps; intro _ _ _)
    | with_reducible apply codecArrive_keeps | dsimp -zeta only)

theorem execCodecLaneStart_keeps {s₀ s : State} (h : Keeps s₀ s) {h : Fin 16} {seq : BitVec 32} :
    KeepsR s₀ (execCodecLaneStart h seq s) := by
  unfold execCodecLaneStart
  repeat' (first
    | with_reducible assumption | (unfold x; clear x)
    | (extract_lets +onlyGivenNames x; first | (refine Keeps.bind (s := s₀) (x := x) ?_ ?_; intro _; clear_value x; revert x; intros) | (clear_value x; revert x; intros))
    | split | with_reducible apply KeepsR.next | with_reducible apply cntCod_keeps | with_reducible apply wr_keeps
    | with_reducible apply updCmd_keeps | with_reducible apply syncCodec_keeps | with_reducible apply encodeRun_keeps
    | with_reducible apply decodeRun_keeps | (with_reducible apply Keeps.fst (e := by with_reducible assumption))
    | (with_reducible apply Keeps.snd (e := by with_reducible assumption))
    | (with_reducible apply Keeps.fst_eq (e := by with_reducible assumption))
    | (with_reducible apply Keeps.snd_eq (e := by with_reducible assumption)) | dsimp -zeta only
    | with_reducible apply Keeps.upd)

theorem ingestFinish_keeps {s₀ s : State} (h : Keeps s₀ s) {h : Nat} {c : Cmd} {run : IngestRun} :
    Keeps s₀ (ingestFinish s h c run) := by
  unfold ingestFinish
  repeat' (first
    | with_reducible assumption | (unfold x; clear x)
    | (extract_lets +onlyGivenNames x; first | (refine Keeps.bind (s := s₀) (x := x) ?_ ?_; intro _; clear_value x; revert x; intros) | (clear_value x; revert x; intros))
    | split | with_reducible apply decodeFinish_keeps | with_reducible apply cmdDone_keeps
    | with_reducible apply reportTo_keeps | with_reducible apply notices_keeps)

theorem execIngestGroup_keeps {s₀ s : State} (h : Keeps s₀ s) {h : Fin 16} {seq : BitVec 32} :
    KeepsR s₀ (execIngestGroup h seq s) := by
  unfold execIngestGroup
  repeat' (first
    | with_reducible assumption | (unfold x; clear x)
    | (extract_lets +onlyGivenNames x; first | (refine Keeps.bind (s := s₀) (x := x) ?_ ?_; intro _; clear_value x; revert x; intros) | (clear_value x; revert x; intros))
    | split | with_reducible apply KeepsR.next | (with_reducible apply orFail_keeps; intro _ _ _)
    | with_reducible apply touchRanges_keeps | with_reducible apply storeGroup_keeps
    | with_reducible apply Desc.setRaw_keeps | with_reducible apply cntCod_keeps | with_reducible apply updCmd_keeps
    | with_reducible apply syncCodec_keeps | with_reducible apply ingestFinish_keeps
    | (with_reducible apply each_keeps; intro _ _ _) | (with_reducible apply Keeps.fst (e := by with_reducible assumption))
    | (with_reducible apply Keeps.snd (e := by with_reducible assumption))
    | (with_reducible apply Keeps.fst_eq (e := by with_reducible assumption))
    | (with_reducible apply Keeps.snd_eq (e := by with_reducible assumption)) | dsimp -zeta only
    | with_reducible apply Keeps.upd)

theorem execIngest_keeps {s₀ s : State} (h : Keeps s₀ s) {h : Fin 16} {seq : BitVec 32} :
    KeepsR s₀ (execIngest h seq s) := by
  unfold execIngest
  repeat' (first
    | with_reducible assumption | (unfold x; clear x)
    | (extract_lets +onlyGivenNames x; first | (refine Keeps.bind (s := s₀) (x := x) ?_ ?_; intro _; clear_value x; revert x; intros) | (clear_value x; revert x; intros))
    | split | with_reducible apply KeepsR.next | (with_reducible apply opRow_keeps; intro _ _ _)
    | (with_reducible apply orFail_keeps; intro _ _ _) | with_reducible apply memRead_keeps
    | with_reducible apply failRunning_keeps | with_reducible apply cmdDone_keeps | with_reducible apply wr_keeps
    | with_reducible apply syncCodec_keeps | with_reducible apply updCmd_keeps
    | (with_reducible apply Keeps.fst (e := by with_reducible assumption))
    | (with_reducible apply Keeps.snd (e := by with_reducible assumption))
    | (with_reducible apply Keeps.fst_eq (e := by with_reducible assumption))
    | (with_reducible apply Keeps.snd_eq (e := by with_reducible assumption)) | dsimp -zeta only
    | with_reducible apply Keeps.upd)

end Sys2Proof.Machine
end

