-- ==== Sys2Proof/Laws/Keeps/Ckpt.lean ====
section
/-! SUPPORT. What the operations of Machine/Ckpt.lean keep (`Keeps`). -/

namespace Sys2Proof.Machine

theorem ckWrite_keeps {s₀ s : State} (h : Keeps s₀ s) {a : Nat} {d : Bytes} : Keeps s₀ (ckWrite s a d) := by
  induction d generalizing s a with
  | nil => exact h
  | cons b bs ih => exact ih (Keeps.upd h)

theorem flashReadErrors_keeps {s₀ s : State} (h : Keeps s₀ s) {corrected : Nat} {uncorrectable : Bool} :
    Keeps s₀ (flashReadErrors s corrected uncorrectable).1 := by
  unfold flashReadErrors
  repeat' (first
    | with_reducible assumption | (unfold x; clear x)
    | (extract_lets +onlyGivenNames x; first | (refine Keeps.bind (s := s₀) (x := x) ?_ ?_; intro _; clear_value x; revert x; intros) | (clear_value x; revert x; intros))
    | split | with_reducible apply emberCode_keeps | with_reducible apply satAdd_keeps | with_reducible apply wr_keeps
    | (with_reducible apply each_keeps; intro _ _ _) | dsimp -zeta only)

theorem execCkpt_keeps {s₀ s : State} (h : Keeps s₀ s) {h : Fin 16} {seq : BitVec 32} :
    KeepsR s₀ (execCkpt h seq s) := by
  unfold execCkpt
  repeat' (first
    | with_reducible assumption | (unfold x; clear x)
    | (extract_lets +onlyGivenNames x; first | (refine Keeps.bind (s := s₀) (x := x) ?_ ?_; intro _; clear_value x; revert x; intros) | (clear_value x; revert x; intros))
    | split | with_reducible apply KeepsR.next | (with_reducible apply opRow_keeps; intro _ _ _)
    | with_reducible apply Coll.unit_keeps | with_reducible apply cmdDone_keeps | with_reducible apply emberCode_keeps
    | with_reducible apply cntHearth_keeps | (with_reducible apply orFail_keeps; intro _ _ _)
    | with_reducible apply touchRanges_keeps | with_reducible apply failRunning_keeps | with_reducible apply wr_keeps
    | with_reducible apply poke_keeps | with_reducible apply collAll_keeps | dsimp -zeta only
    | with_reducible apply Keeps.upd)

theorem drainFail_keeps {s₀ s : State} (h : Keeps s₀ s) {unit code : Nat} :
    Keeps s₀ (drainFail s unit code) := by
  unfold drainFail
  repeat' (first
    | with_reducible assumption | (unfold x; clear x)
    | (extract_lets +onlyGivenNames x; first | (refine Keeps.bind (s := s₀) (x := x) ?_ ?_; intro _; clear_value x; revert x; intros) | (clear_value x; revert x; intros))
    | with_reducible apply wr_keeps | with_reducible apply emberCode_keeps | with_reducible apply Coll.unit_keeps
    | with_reducible apply Keeps.upd)

theorem drainOpen_keeps {s₀ s : State} (h : Keeps s₀ s)  :
    Keeps s₀ (drainOpen s) := by
  unfold drainOpen
  repeat' (first
    | with_reducible assumption | (unfold x; clear x)
    | (extract_lets +onlyGivenNames x; first | (refine Keeps.bind (s := s₀) (x := x) ?_ ?_; intro _; clear_value x; revert x; intros) | (clear_value x; revert x; intros))
    | with_reducible apply ckWrite_keeps | with_reducible apply wr_keeps)

theorem drainTo_keeps {s₀ s : State} (h : Keeps s₀ s) {st : Staged} {retired : Nat} {body : Bytes} :
    Keeps s₀ (drainTo s st retired body) := by
  unfold drainTo
  repeat' (first
    | with_reducible assumption | (unfold x; clear x)
    | (extract_lets +onlyGivenNames x; first | (refine Keeps.bind (s := s₀) (x := x) ?_ ?_; intro _; clear_value x; revert x; intros) | (clear_value x; revert x; intros))
    | split | with_reducible apply drainOpen_keeps | with_reducible apply emberCode_keeps | with_reducible apply wr_keeps
    | with_reducible apply drainFail_keeps | with_reducible apply ckWrite_keeps | with_reducible apply cntIo_keeps
    | (with_reducible apply each_keeps; intro _ _ _) | (with_reducible apply Keeps.foldl; intro _ _ _)
    | (with_reducible apply Keeps.foldl_fst; intro _ _ _) | (with_reducible apply Keeps.foldl_snd; intro _ _ _)
    | dsimp -zeta only | with_reducible apply Keeps.upd)

theorem execFlashDrain_keeps {s₀ s : State} (h : Keeps s₀ s) {retired : Nat} :
    KeepsR s₀ (execFlashDrain retired s) := by
  unfold execFlashDrain
  repeat' (first
    | with_reducible assumption | (unfold x; clear x)
    | (extract_lets +onlyGivenNames x; first | (refine Keeps.bind (s := s₀) (x := x) ?_ ?_; intro _; clear_value x; revert x; intros) | (clear_value x; revert x; intros))
    | split | with_reducible apply KeepsR.next | with_reducible apply drainFail_keeps | with_reducible apply drainOpen_keeps
    | with_reducible apply memRead_keeps | with_reducible apply drainTo_keeps
    | (with_reducible apply Keeps.fst (e := by with_reducible assumption))
    | (with_reducible apply Keeps.snd (e := by with_reducible assumption))
    | (with_reducible apply Keeps.fst_eq (e := by with_reducible assumption))
    | (with_reducible apply Keeps.snd_eq (e := by with_reducible assumption)) | dsimp -zeta only
    | with_reducible apply Keeps.upd)

theorem execHostStoreDrain_keeps {s₀ s : State} (h : Keeps s₀ s)  :
    KeepsR s₀ (execHostStoreDrain s) := by
  unfold execHostStoreDrain
  repeat' (first
    | with_reducible assumption | (unfold x; clear x)
    | (extract_lets +onlyGivenNames x; first | (refine Keeps.bind (s := s₀) (x := x) ?_ ?_; intro _; clear_value x; revert x; intros) | (clear_value x; revert x; intros))
    | split | with_reducible apply KeepsR.next | with_reducible apply memRead_keeps | with_reducible apply drainFail_keeps
    | with_reducible apply memWrite_keeps | with_reducible apply wr_keeps
    | (with_reducible apply Keeps.fst (e := by with_reducible assumption))
    | (with_reducible apply Keeps.snd (e := by with_reducible assumption))
    | (with_reducible apply Keeps.fst_eq (e := by with_reducible assumption))
    | (with_reducible apply Keeps.snd_eq (e := by with_reducible assumption)) | dsimp -zeta only
    | with_reducible apply Keeps.upd)

theorem restoreRow_keeps {s₀ s : State} {body : State → State} (hb : ∀ s, Keeps s₀ s → Keeps s₀ (body s)) (h : Keeps s₀ s)
    {src : Src} : KeepsR s₀ (restoreRow src s body) := by
  unfold restoreRow
  repeat' (first
    | with_reducible assumption | split | with_reducible apply KeepsR.next | with_reducible apply hb
    | with_reducible apply cfgErr_keeps | with_reducible apply wr_keeps | with_reducible apply restoreFail_keeps)

theorem startExchange_keeps {s₀ s : State} (h : Keeps s₀ s) {x : Coll} :
    Keeps s₀ (startExchange s x) := by
  unfold startExchange
  repeat' (first
    | with_reducible assumption | (unfold x; clear x)
    | (extract_lets +onlyGivenNames x; first | (refine Keeps.bind (s := s₀) (x := x) ?_ ?_; intro _; clear_value x; revert x; intros) | (clear_value x; revert x; intros))
    | with_reducible apply collAll_keeps | dsimp -zeta only | with_reducible apply Keeps.upd)

theorem readImage_keeps {s₀ s : State} (h : Keeps s₀ s) {a : Nat} :
    Keeps s₀ (readImage s a).1 := by
  unfold readImage
  repeat' (first
    | with_reducible assumption | (unfold x; clear x)
    | (extract_lets +onlyGivenNames x; first | (refine Keeps.bind (s := s₀) (x := x) ?_ ?_; intro _; clear_value x; revert x; intros) | (clear_value x; revert x; intros))
    | split | with_reducible apply memRead_keeps | (with_reducible apply Keeps.fst (e := by with_reducible assumption))
    | (with_reducible apply Keeps.snd (e := by with_reducible assumption))
    | (with_reducible apply Keeps.fst_eq (e := by with_reducible assumption))
    | (with_reducible apply Keeps.snd_eq (e := by with_reducible assumption)) | dsimp -zeta only
    | with_reducible apply Keeps.upd)

theorem execRestore_keeps {s₀ s : State} (h : Keeps s₀ s) {src : Src} {v : BitVec 64} {corrected : Nat} {uncorrectable : Bool} :
    KeepsR s₀ (execRestore src v corrected uncorrectable s) := by
  unfold execRestore
  dsimp only
  repeat' (first
    | with_reducible assumption | (unfold x; clear x)
    | (extract_lets +onlyGivenNames x; first | (refine Keeps.bind (s := s₀) (x := x) ?_ ?_; intro _; clear_value x; revert x; intros) | (clear_value x; revert x; intros))
    | split | with_reducible apply KeepsR.next | (with_reducible apply restoreRow_keeps; intro _ _)
    | with_reducible apply restoreFrom_keeps | with_reducible apply restoreFail_keeps | with_reducible apply readImage_keeps
    | with_reducible apply flashReadErrors_keeps | with_reducible apply startExchange_keeps
    | (with_reducible apply Keeps.fst (e := by with_reducible assumption))
    | (with_reducible apply Keeps.snd (e := by with_reducible assumption))
    | (with_reducible apply Keeps.fst_eq (e := by with_reducible assumption))
    | (with_reducible apply Keeps.snd_eq (e := by with_reducible assumption)) | dsimp -zeta only
    | with_reducible apply Keeps.upd)

theorem execRollback_keeps {s₀ s : State} (h : Keeps s₀ s) {src : Src} {_v : BitVec 64} :
    KeepsR s₀ (execRollback src _v s) := by
  unfold execRollback
  repeat' (first
    | with_reducible assumption | (unfold x; clear x)
    | (extract_lets +onlyGivenNames x; first | (refine Keeps.bind (s := s₀) (x := x) ?_ ?_; intro _; clear_value x; revert x; intros) | (clear_value x; revert x; intros))
    | split | with_reducible apply KeepsR.next | (with_reducible apply restoreRow_keeps; intro _ _)
    | with_reducible apply restoreFail_keeps | with_reducible apply touchRanges_keeps | with_reducible apply poke_keeps
    | with_reducible apply restoreDone_keeps | with_reducible apply setGeneration_keeps
    | (with_reducible apply each_keeps; intro _ _ _) | (with_reducible apply Keeps.foldl; intro _ _ _)
    | (with_reducible apply Keeps.foldl_fst; intro _ _ _) | (with_reducible apply Keeps.foldl_snd; intro _ _ _)
    | (with_reducible apply Keeps.fst (e := by with_reducible assumption))
    | (with_reducible apply Keeps.snd (e := by with_reducible assumption))
    | (with_reducible apply Keeps.fst_eq (e := by with_reducible assumption))
    | (with_reducible apply Keeps.snd_eq (e := by with_reducible assumption)) | dsimp -zeta only
    | with_reducible apply Keeps.upd)

theorem execFill_keeps {s₀ s : State} (h : Keeps s₀ s) {src : Src} {_v : BitVec 64} :
    KeepsR s₀ (execFill src _v s) := by
  unfold execFill
  repeat' (first
    | with_reducible assumption | with_reducible apply KeepsR.next | (with_reducible apply restoreRow_keeps; intro _ _)
    | with_reducible apply startExchange_keeps | dsimp -zeta only)

theorem execServe_keeps {s₀ s : State} (h : Keeps s₀ s) {src : Src} {v : BitVec 64} {corrected : Nat} {uncorrectable : Bool} :
    KeepsR s₀ (execServe src v corrected uncorrectable s) := by
  unfold execServe
  repeat' (first
    | with_reducible assumption | (unfold x; clear x)
    | (extract_lets +onlyGivenNames x; first | (refine Keeps.bind (s := s₀) (x := x) ?_ ?_; intro _; clear_value x; revert x; intros) | (clear_value x; revert x; intros))
    | split | with_reducible apply KeepsR.next | (with_reducible apply restoreRow_keeps; intro _ _)
    | with_reducible apply flashReadErrors_keeps | with_reducible apply startExchange_keeps
    | with_reducible apply restoreFail_keeps | (with_reducible apply Keeps.fst (e := by with_reducible assumption))
    | (with_reducible apply Keeps.snd (e := by with_reducible assumption))
    | (with_reducible apply Keeps.fst_eq (e := by with_reducible assumption))
    | (with_reducible apply Keeps.snd_eq (e := by with_reducible assumption)) | dsimp -zeta only
    | with_reducible apply Keeps.upd)

theorem undoCopy_keeps {s₀ s : State} (h : Keeps s₀ s) {gen before : Nat} :
    Keeps s₀ (undoCopy s gen before) := by
  unfold undoCopy
  repeat' (first
    | with_reducible assumption | (unfold x; clear x)
    | (extract_lets +onlyGivenNames x; first | (refine Keeps.bind (s := s₀) (x := x) ?_ ?_; intro _; clear_value x; revert x; intros) | (clear_value x; revert x; intros))
    | split | with_reducible apply touchRanges_keeps | with_reducible apply poke_keeps
    | (with_reducible apply Keeps.foldl; intro _ _ _) | (with_reducible apply Keeps.foldl_fst; intro _ _ _)
    | (with_reducible apply Keeps.foldl_snd; intro _ _ _)
    | (with_reducible apply Keeps.fst (e := by with_reducible assumption))
    | (with_reducible apply Keeps.snd (e := by with_reducible assumption))
    | (with_reducible apply Keeps.fst_eq (e := by with_reducible assumption))
    | (with_reducible apply Keeps.snd_eq (e := by with_reducible assumption)) | dsimp -zeta only
    | with_reducible apply Keeps.upd)

theorem rlogStep_keeps {s₀ s : State} (h : Keeps s₀ s) {t : Ticket} {gen step : Nat} :
    Keeps s₀ (rlogStep s t gen step) := by
  unfold rlogStep
  repeat' (first
    | with_reducible assumption | (unfold x; clear x)
    | (extract_lets +onlyGivenNames x; first | (refine Keeps.bind (s := s₀) (x := x) ?_ ?_; intro _; clear_value x; revert x; intros) | (clear_value x; revert x; intros))
    | with_reducible apply rlogWrite_keeps)

theorem rlogQuotas_keeps {s₀ s : State} (h : Keeps s₀ s)  :
    Keeps s₀ (rlogQuotas s) := by
  unfold rlogQuotas
  repeat' (first
    | with_reducible assumption | with_reducible apply rlogWrite_keeps | (with_reducible apply each_keeps; intro _ _ _)
    | dsimp -zeta only)

end Sys2Proof.Machine
end

