-- ==== Sys2Proof/Laws/Keeps/Dispatcher.lean ====
section
/-! SUPPORT. What the operations of Machine/Dispatcher.lean keep (`Keeps`). -/

namespace Sys2Proof.Machine

theorem ticketAdvance_keeps {s₀ s : State} (h : Keeps s₀ s) {key : Nat} :
    Keeps s₀ (ticketAdvance s key) := by
  unfold ticketAdvance
  repeat' (first
    | with_reducible assumption | (unfold x; clear x)
    | (extract_lets +onlyGivenNames x; first | (refine Keeps.bind (s := s₀) (x := x) ?_ ?_; intro _; clear_value x; revert x; intros) | (clear_value x; revert x; intros))
    | split | with_reducible apply tryEnd_keeps | with_reducible apply evalDrop_keeps | with_reducible apply updTicket_keeps
    | with_reducible apply endTicket_keeps | (with_reducible apply Keeps.fst (e := by with_reducible assumption))
    | (with_reducible apply Keeps.snd (e := by with_reducible assumption))
    | (with_reducible apply Keeps.fst_eq (e := by with_reducible assumption))
    | (with_reducible apply Keeps.snd_eq (e := by with_reducible assumption)) | dsimp -zeta only
    | with_reducible apply Keeps.upd)

theorem execTicketStart_keeps {s₀ s : State} (h : Keeps s₀ s)  :
    KeepsR s₀ (execTicketStart s) := by
  unfold execTicketStart
  repeat' (first
    | with_reducible assumption | (unfold x; clear x)
    | (extract_lets +onlyGivenNames x; first | (refine Keeps.bind (s := s₀) (x := x) ?_ ?_; intro _; clear_value x; revert x; intros) | (clear_value x; revert x; intros))
    | split | with_reducible apply KeepsR.next | with_reducible apply memRead_keeps | with_reducible apply stopTicket_keeps
    | with_reducible apply emberTicket_keeps | with_reducible apply updTicket_keeps | with_reducible apply setDisp_keeps
    | with_reducible apply ticketAdvance_keeps | (with_reducible apply each_keeps; intro _ _ _)
    | (with_reducible apply Keeps.fst (e := by with_reducible assumption))
    | (with_reducible apply Keeps.snd (e := by with_reducible assumption))
    | (with_reducible apply Keeps.fst_eq (e := by with_reducible assumption))
    | (with_reducible apply Keeps.snd_eq (e := by with_reducible assumption)) | dsimp -zeta only
    | with_reducible apply Keeps.upd)

theorem readAll_keeps {s₀ s : State} (h : Keeps s₀ s) {hh : Nat} {cmd : Option CmdId} {rs : List (Nat × Nat)} :
    Keeps s₀ (readAll s hh cmd rs).1 := by
  induction rs generalizing s with
  | nil => exact h
  | cons r rs ih =>
    unfold readAll
    split
    · next e => exact ih (Keeps.fst (memRead_keeps h) e)
    · next e => exact Keeps.fst (memRead_keeps h) e
    · next e => exact Keeps.fst (memRead_keeps h) e

theorem readEach_keeps {s₀ s : State} (h : Keeps s₀ s) {hh : Nat} {cmd : Option CmdId} {fs : List (State → List (Nat × Nat))} :
    Keeps s₀ (readEach s hh cmd fs).1 := by
  induction fs generalizing s with
  | nil => exact h
  | cons f fs ih =>
    unfold readEach
    repeat' (first
      | with_reducible assumption | (unfold x; clear x)
      | (extract_lets +onlyGivenNames x; first | (refine Keeps.bind (s := s₀) (x := x) ?_ ?_; intro _; clear_value x; revert x; intros) | (clear_value x; revert x; intros))
      | split | with_reducible apply ih | with_reducible apply readAll_keeps
      | (with_reducible apply Keeps.fst (e := by with_reducible assumption))
      | (with_reducible apply Keeps.snd (e := by with_reducible assumption))
      | (with_reducible apply Keeps.fst_eq (e := by with_reducible assumption))
      | (with_reducible apply Keeps.snd_eq (e := by with_reducible assumption)) | dsimp -zeta only
      | with_reducible apply Keeps.upd)



theorem advanceFetch_keeps {s₀ s : State} (h : Keeps s₀ s) {h : Nat} {f : NextFetch} {c : Cmd} :
    Keeps s₀ (advanceFetch s h f c) := by
  unfold advanceFetch
  repeat' (first
    | with_reducible assumption | (unfold x; clear x)
    | (extract_lets +onlyGivenNames x; first | (refine Keeps.bind (s := s₀) (x := x) ?_ ?_; intro _; clear_value x; revert x; intros) | (clear_value x; revert x; intros))
    | split | with_reducible apply recompute_keeps | with_reducible apply setDisp_keeps | dsimp -zeta only
    | with_reducible apply Keeps.upd)

theorem claimQueues_keeps {s₀ s : State} (h : Keeps s₀ s) {h : Nat} {c : Cmd} :
    Keeps s₀ (claimQueues s h c) := by
  unfold claimQueues
  repeat' (first
    | with_reducible assumption | (unfold x; clear x)
    | (extract_lets +onlyGivenNames x; first | (refine Keeps.bind (s := s₀) (x := x) ?_ ?_; intro _; clear_value x; revert x; intros) | (clear_value x; revert x; intros))
    | split | with_reducible apply claimQueue_keeps | (with_reducible apply each_keeps; intro _ _ _)
    | (with_reducible apply Keeps.fst (e := by with_reducible assumption))
    | (with_reducible apply Keeps.snd (e := by with_reducible assumption))
    | (with_reducible apply Keeps.fst_eq (e := by with_reducible assumption))
    | (with_reducible apply Keeps.snd_eq (e := by with_reducible assumption)) | dsimp -zeta only
    | with_reducible apply Keeps.upd)

theorem accept_keeps {s₀ s : State} (h : Keeps s₀ s) {h : Nat} {c : Cmd} {inc : Nat} :
    Keeps s₀ (accept s h c inc) := by
  unfold accept
  repeat' (first
    | with_reducible assumption | (unfold x; clear x)
    | (extract_lets +onlyGivenNames x; first | (refine Keeps.bind (s := s₀) (x := x) ?_ ?_; intro _; clear_value x; revert x; intros) | (clear_value x; revert x; intros))
    | split | with_reducible apply updCmd_keeps | with_reducible apply claimQueues_keeps
    | with_reducible apply assignRows_keeps | (with_reducible apply Keeps.fst (e := by with_reducible assumption))
    | (with_reducible apply Keeps.snd (e := by with_reducible assumption))
    | (with_reducible apply Keeps.fst_eq (e := by with_reducible assumption))
    | (with_reducible apply Keeps.snd_eq (e := by with_reducible assumption)) | dsimp -zeta only
    | with_reducible apply Keeps.upd)

theorem evalStart_keeps {s₀ s : State} (h : Keeps s₀ s) {h : Nat} {t : Ticket} {step : Nat} :
    Keeps s₀ (evalStart s h t step) := by
  unfold evalStart
  repeat' (first
    | with_reducible assumption | (unfold x; clear x)
    | (extract_lets +onlyGivenNames x; first | (refine Keeps.bind (s := s₀) (x := x) ?_ ?_; intro _; clear_value x; revert x; intros) | (clear_value x; revert x; intros))
    | split | with_reducible apply evalTake_keeps | with_reducible apply stopTicket_keeps
    | with_reducible apply emberTicket_keeps | (with_reducible apply Keeps.fst (e := by with_reducible assumption))
    | (with_reducible apply Keeps.snd (e := by with_reducible assumption))
    | (with_reducible apply Keeps.fst_eq (e := by with_reducible assumption))
    | (with_reducible apply Keeps.snd_eq (e := by with_reducible assumption)) | dsimp -zeta only
    | with_reducible apply Keeps.upd)

theorem endOfList_keeps {s₀ s : State} (h : Keeps s₀ s) {h : Nat} {f : NextFetch} :
    Keeps s₀ (endOfList s h f) := by
  unfold endOfList
  repeat' (first
    | with_reducible assumption | (unfold x; clear x)
    | (extract_lets +onlyGivenNames x; first | (refine Keeps.bind (s := s₀) (x := x) ?_ ?_; intro _; clear_value x; revert x; intros) | (clear_value x; revert x; intros))
    | split | with_reducible apply recompute_keeps | with_reducible apply stopTicket_keeps
    | with_reducible apply emberTicket_keeps | dsimp -zeta only)

theorem execCommandFetch_keeps {s₀ s : State} (h : Keeps s₀ s) {h : Fin 16} :
    KeepsR s₀ (execCommandFetch h s) := by
  unfold execCommandFetch
  repeat' (first
    | with_reducible assumption | (unfold x; clear x)
    | (extract_lets +onlyGivenNames x; first | (refine Keeps.bind (s := s₀) (x := x) ?_ ?_; intro _; clear_value x; revert x; intros) | (clear_value x; revert x; intros))
    | split | with_reducible apply KeepsR.next | with_reducible apply cntHearth_keeps | with_reducible apply recompute_keeps
    | with_reducible apply endOfList_keeps | with_reducible apply memRead_keeps | with_reducible apply stopTicket_keeps
    | with_reducible apply emberTicket_keeps | with_reducible apply readEach_keeps | with_reducible apply checkReads_keeps
    | with_reducible apply evalStart_keeps | with_reducible apply wrapAdd_keeps | with_reducible apply setDisp_keeps
    | with_reducible apply syncInflight_keeps | with_reducible apply advanceFetch_keeps | with_reducible apply failCmd_keeps
    | with_reducible apply accept_keeps | (with_reducible apply Keeps.fst (e := by with_reducible assumption))
    | (with_reducible apply Keeps.snd (e := by with_reducible assumption))
    | (with_reducible apply Keeps.fst_eq (e := by with_reducible assumption))
    | (with_reducible apply Keeps.snd_eq (e := by with_reducible assumption)) | dsimp -zeta only
    | with_reducible apply Keeps.upd)

theorem popAll_keeps {s₀ s : State} (h : Keeps s₀ s) {hh ticket : Nat} {ps : List (Nat × Nat)} :
    Keeps s₀ (popAll s hh ticket ps).1 := by
  induction ps generalizing s with
  | nil => exact h
  | cons p ps ih =>
    unfold popAll
    split
    · exact ih h
    · next e => exact ih (popQueue_keeps h e)

theorem reservePut_keeps {s₀ s : State} (h : Keeps s₀ s) {c : Cmd} :
    Keeps s₀ (reservePut s c) := by
  unfold reservePut
  repeat' (first
    | with_reducible assumption | (unfold x; clear x)
    | (extract_lets +onlyGivenNames x; first | (refine Keeps.bind (s := s₀) (x := x) ?_ ?_; intro _; clear_value x; revert x; intros) | (clear_value x; revert x; intros))
    | split | with_reducible apply setQueue_keeps | (with_reducible apply Keeps.fst (e := by with_reducible assumption))
    | (with_reducible apply Keeps.snd (e := by with_reducible assumption))
    | (with_reducible apply Keeps.fst_eq (e := by with_reducible assumption))
    | (with_reducible apply Keeps.snd_eq (e := by with_reducible assumption)) | dsimp -zeta only
    | with_reducible apply Keeps.upd)

theorem execCommandReady_keeps {s₀ s : State} (h : Keeps s₀ s) {h : Fin 16} {seq : BitVec 32} :
    KeepsR s₀ (execCommandReady h seq s) := by
  unfold execCommandReady
  dsimp only
  repeat' (first
    | with_reducible assumption | (unfold x; clear x)
    | (extract_lets +onlyGivenNames x; first | (refine Keeps.bind (s := s₀) (x := x) ?_ ?_; intro _; clear_value x; revert x; intros) | (clear_value x; revert x; intros))
    | split | with_reducible apply KeepsR.next | with_reducible apply cntHearth_keeps | with_reducible apply popAll_keeps
    | with_reducible apply reservePut_keeps | with_reducible apply updCmd_keeps | with_reducible apply schedule_keeps
    | with_reducible apply readEach_keeps | with_reducible apply checkReads_keeps | with_reducible apply failCmd_keeps
    | with_reducible apply assignRows_keeps | (with_reducible apply Keeps.fst (e := by with_reducible assumption))
    | (with_reducible apply Keeps.snd (e := by with_reducible assumption))
    | (with_reducible apply Keeps.fst_eq (e := by with_reducible assumption))
    | (with_reducible apply Keeps.snd_eq (e := by with_reducible assumption)) | dsimp -zeta only
    | with_reducible apply Keeps.upd)

theorem fillStage_keeps {s₀ s : State} (h : Keeps s₀ s) {h : Nat} {cmd : CmdId} {l n : Nat} :
    Keeps s₀ (fillStage s h cmd l n).1 := by
  unfold fillStage
  repeat' (first
    | with_reducible assumption | (unfold x; clear x)
    | (extract_lets +onlyGivenNames x; first | (refine Keeps.bind (s := s₀) (x := x) ?_ ?_; intro _; clear_value x; revert x; intros) | (clear_value x; revert x; intros))
    | split | with_reducible apply takeFree_keeps | with_reducible apply takeFreeBytes_keeps
    | with_reducible apply memWrite_keeps | (with_reducible apply Keeps.fst (e := by with_reducible assumption))
    | (with_reducible apply Keeps.snd (e := by with_reducible assumption))
    | (with_reducible apply Keeps.fst_eq (e := by with_reducible assumption))
    | (with_reducible apply Keeps.snd_eq (e := by with_reducible assumption)) | dsimp -zeta only)

theorem execTileFetchComplete_keeps {s₀ s : State} (h : Keeps s₀ s) {h : Fin 16} {seq : BitVec 32} {level : Fin 3} {ref : BitVec 8} :
    KeepsR s₀ (execTileFetchComplete h seq level ref s) := by
  unfold execTileFetchComplete
  dsimp only
  repeat' (first
    | with_reducible assumption | (unfold x; clear x)
    | (extract_lets +onlyGivenNames x; first | (refine Keeps.bind (s := s₀) (x := x) ?_ ?_; intro _; clear_value x; revert x; intros) | (clear_value x; revert x; intros))
    | split | with_reducible apply KeepsR.next | with_reducible apply failRunning_keeps | with_reducible apply failCmd_keeps
    | with_reducible apply touchRanges_keeps | with_reducible apply cntHearth_keeps | with_reducible apply fillStage_keeps
    | with_reducible apply updCmd_keeps | (with_reducible apply Keeps.fst (e := by with_reducible assumption))
    | (with_reducible apply Keeps.snd (e := by with_reducible assumption))
    | (with_reducible apply Keeps.fst_eq (e := by with_reducible assumption))
    | (with_reducible apply Keeps.snd_eq (e := by with_reducible assumption)) | dsimp -zeta only
    | with_reducible apply Keeps.upd)

theorem releaseRows_keeps {s₀ s : State} (h : Keeps s₀ s) {h : Nat} {c : Cmd} :
    Keeps s₀ (releaseRows s h c) := by
  unfold releaseRows
  repeat' (first
    | with_reducible assumption | (unfold x; clear x)
    | (extract_lets +onlyGivenNames x; first | (refine Keeps.bind (s := s₀) (x := x) ?_ ?_; intro _; clear_value x; revert x; intros) | (clear_value x; revert x; intros))
    | split | with_reducible apply wr_keeps)

theorem releaseUnits_keeps {s₀ s : State} (h : Keeps s₀ s) {h : Nat} {c : Cmd} :
    Keeps s₀ (releaseUnits s h c) := by
  unfold releaseUnits
  repeat' (first
    | with_reducible assumption | (unfold x; clear x)
    | (extract_lets +onlyGivenNames x; first | (refine Keeps.bind (s := s₀) (x := x) ?_ ?_; intro _; clear_value x; revert x; intros) | (clear_value x; revert x; intros))
    | split | with_reducible apply releaseRows_keeps | with_reducible apply endLive_keeps | with_reducible apply wr_keeps
    | (with_reducible apply each_keeps; intro _ _ _) | dsimp -zeta only | with_reducible apply Keeps.upd)

theorem retireCmd_keeps {s₀ s : State} (h : Keeps s₀ s) {h : Nat} {c : Cmd} {back meBack : Nat} :
    Keeps s₀ (retireCmd s h c back meBack) := by
  unfold retireCmd
  repeat' (first
    | with_reducible assumption | (unfold x; clear x)
    | (extract_lets +onlyGivenNames x; first | (refine Keeps.bind (s := s₀) (x := x) ?_ ?_; intro _; clear_value x; revert x; intros) | (clear_value x; revert x; intros))
    | split | with_reducible apply unreserve_keeps | with_reducible apply syncInflight_keeps
    | with_reducible apply setDisp_keeps | with_reducible apply ticketFlags_keeps | with_reducible apply cntHearth_keeps
    | with_reducible apply getEnds_keeps | with_reducible apply codecRelease_keeps | with_reducible apply syncBurnish_keeps
    | (with_reducible apply Keeps.fst (e := by with_reducible assumption))
    | (with_reducible apply Keeps.snd (e := by with_reducible assumption))
    | (with_reducible apply Keeps.fst_eq (e := by with_reducible assumption))
    | (with_reducible apply Keeps.snd_eq (e := by with_reducible assumption)) | dsimp -zeta only
    | with_reducible apply Keeps.upd)

theorem finishCmd_keeps {s₀ s : State} (h : Keeps s₀ s) {h : Nat} {c : Cmd} :
    Keeps s₀ (finishCmd s h c) := by
  unfold finishCmd
  repeat' (first
    | with_reducible assumption | with_reducible apply retireCmd_keeps | with_reducible apply releaseUnits_keeps)

theorem swapTo_keeps {s₀ s : State} (h : Keeps s₀ s) {h : Nat} {c b : Cmd} :
    Keeps s₀ (swapTo s h c b) := by
  unfold swapTo
  repeat' (first
    | with_reducible assumption | (unfold x; clear x)
    | (extract_lets +onlyGivenNames x; first | (refine Keeps.bind (s := s₀) (x := x) ?_ ?_; intro _; clear_value x; revert x; intros) | (clear_value x; revert x; intros))
    | with_reducible apply retireCmd_keeps | with_reducible apply releaseRows_keeps | with_reducible apply updCmd_keeps
    | with_reducible apply setDisp_keeps | with_reducible apply beginStream_keeps | with_reducible apply endLive_keeps
    | with_reducible apply wr_keeps | with_reducible apply recharge_keeps | with_reducible apply beginRows_keeps
    | (with_reducible apply each_keeps; intro _ _ _) | dsimp -zeta only | with_reducible apply Keeps.upd)

theorem afterComplete_keeps {s₀ s : State} (h : Keeps s₀ s) {h key mes : Nat} :
    Keeps s₀ (afterComplete s h key mes) := by
  unfold afterComplete
  repeat' (first
    | with_reducible assumption | with_reducible apply schedule_keeps | with_reducible apply stashDeadlock_keeps
    | with_reducible apply ticketAdvance_keeps | with_reducible apply gateMes_keeps | with_reducible apply recompCheck_keeps)

theorem execCommandComplete_keeps {s₀ s : State} (h : Keeps s₀ s) {h : Fin 16} {seq : BitVec 32} :
    KeepsR s₀ (execCommandComplete h seq s) := by
  unfold execCommandComplete
  repeat' (first
    | with_reducible assumption | (unfold x; clear x)
    | (extract_lets +onlyGivenNames x; first | (refine Keeps.bind (s := s₀) (x := x) ?_ ?_; intro _; clear_value x; revert x; intros) | (clear_value x; revert x; intros))
    | split | with_reducible apply KeepsR.next | with_reducible apply afterComplete_keeps
    | with_reducible apply swapTo_keeps | with_reducible apply finishCmd_keeps
    | (with_reducible apply each_keeps; intro _ _ _) | (with_reducible apply Keeps.fst (e := by with_reducible assumption))
    | (with_reducible apply Keeps.snd (e := by with_reducible assumption))
    | (with_reducible apply Keeps.fst_eq (e := by with_reducible assumption))
    | (with_reducible apply Keeps.snd_eq (e := by with_reducible assumption)) | dsimp -zeta only
    | with_reducible apply Keeps.upd)

theorem execHandlePut_keeps {s₀ s : State} (h : Keeps s₀ s) {n : Nat} :
    KeepsR s₀ (execHandlePut n s) := by
  unfold execHandlePut
  repeat' (first
    | with_reducible assumption | (unfold x; clear x)
    | (extract_lets +onlyGivenNames x; first | (refine Keeps.bind (s := s₀) (x := x) ?_ ?_; intro _; clear_value x; revert x; intros) | (clear_value x; revert x; intros))
    | split | with_reducible apply KeepsR.next | with_reducible apply setQueue_keeps | with_reducible apply updCmd_keeps
    | with_reducible apply updCore_keeps | with_reducible apply awlCheckDone_keeps
    | (with_reducible apply Keeps.fst (e := by with_reducible assumption))
    | (with_reducible apply Keeps.snd (e := by with_reducible assumption))
    | (with_reducible apply Keeps.fst_eq (e := by with_reducible assumption))
    | (with_reducible apply Keeps.snd_eq (e := by with_reducible assumption)) | dsimp -zeta only
    | with_reducible apply Keeps.upd)

theorem execNop_keeps {s₀ s : State} (h : Keeps s₀ s) {h : Fin 16} {seq : BitVec 32} :
    KeepsR s₀ (execNop h seq s) := by
  unfold execNop
  repeat' (first
    | with_reducible assumption | with_reducible apply KeepsR.next | (with_reducible apply opRow_keeps; intro _ _ _)
    | with_reducible apply cmdDone_keeps | dsimp -zeta only)

theorem execStepEnd_keeps {s₀ s : State} (h : Keeps s₀ s) {h : Fin 16} {seq : BitVec 32} :
    KeepsR s₀ (execStepEnd h seq s) := by
  unfold execStepEnd
  repeat' (first
    | with_reducible assumption | (unfold x; clear x)
    | (extract_lets +onlyGivenNames x; first | (refine Keeps.bind (s := s₀) (x := x) ?_ ?_; intro _; clear_value x; revert x; intros) | (clear_value x; revert x; intros))
    | split | with_reducible apply KeepsR.next | with_reducible apply afterComplete_keeps
    | with_reducible apply finishCmd_keeps | (with_reducible apply Keeps.fst (e := by with_reducible assumption))
    | (with_reducible apply Keeps.snd (e := by with_reducible assumption))
    | (with_reducible apply Keeps.fst_eq (e := by with_reducible assumption))
    | (with_reducible apply Keeps.snd_eq (e := by with_reducible assumption)) | with_reducible apply Keeps.upd)

theorem execQput_keeps {s₀ s : State} (h : Keeps s₀ s) {h : Fin 16} {seq : BitVec 32} :
    KeepsR s₀ (execQput h seq s) := by
  unfold execQput
  repeat' (first
    | with_reducible assumption | (unfold x; clear x)
    | (extract_lets +onlyGivenNames x; first | (refine Keeps.bind (s := s₀) (x := x) ?_ ?_; intro _; clear_value x; revert x; intros) | (clear_value x; revert x; intros))
    | with_reducible apply KeepsR.next | (with_reducible apply opRow_keeps; intro _ _ _) | with_reducible apply updCmd_keeps
    | dsimp -zeta only | with_reducible apply Keeps.upd)

theorem copyRows_keeps {s₀ s : State} (h : Keeps s₀ s) {hh : Nat} {cmd : Option CmdId} {rs : List ((Nat × Nat) × (Nat × Nat))} :
    Keeps s₀ (copyRows s hh cmd rs).1 := by
  induction rs generalizing s with
  | nil => exact h
  | cons r rs ih =>
    unfold copyRows
    split
    · next e =>
      split
      · next e' => exact ih (Keeps.fst (memWrite_keeps (Keeps.fst (memRead_keeps h) e)) e')
      · exact memWrite_keeps (Keeps.fst (memRead_keeps h) e)
    · next e => exact Keeps.fst (memRead_keeps h) e
    · next e => exact Keeps.fst (memRead_keeps h) e

theorem fetchBurst_keeps {s₀ s : State} (h : Keeps s₀ s) {hh : Nat} {c : Cmd} {n a : Nat} :
    Keeps s₀ (fetchBurst s hh c n a).1 := by
  induction n generalizing s a with
  | zero => exact h
  | succ n ih =>
    unfold fetchBurst
    repeat' (first
      | with_reducible assumption | (unfold x; clear x)
      | (extract_lets +onlyGivenNames x; first | (refine Keeps.bind (s := s₀) (x := x) ?_ ?_; intro _; clear_value x; revert x; intros) | (clear_value x; revert x; intros))
      | split | with_reducible apply ih | with_reducible apply memRead_keeps
      | (with_reducible apply Keeps.fst (e := by with_reducible assumption))
      | (with_reducible apply Keeps.snd (e := by with_reducible assumption))
      | (with_reducible apply Keeps.fst_eq (e := by with_reducible assumption))
      | (with_reducible apply Keeps.snd_eq (e := by with_reducible assumption)) | dsimp -zeta only
      | with_reducible apply Keeps.upd)

theorem runDesc_keeps {s₀ s : State} (h : Keeps s₀ s) {h : Nat} {c : Cmd} {b : Bytes} :
    Keeps s₀ (runDesc s h c b).1 := by
  unfold runDesc
  repeat' (first
    | with_reducible assumption | (unfold x; clear x)
    | (extract_lets +onlyGivenNames x; first | (refine Keeps.bind (s := s₀) (x := x) ?_ ?_; intro _; clear_value x; revert x; intros) | (clear_value x; revert x; intros))
    | split | with_reducible apply copyRows_keeps | (with_reducible apply Keeps.fst (e := by with_reducible assumption))
    | (with_reducible apply Keeps.snd (e := by with_reducible assumption))
    | (with_reducible apply Keeps.fst_eq (e := by with_reducible assumption))
    | (with_reducible apply Keeps.snd_eq (e := by with_reducible assumption)) | dsimp -zeta only
    | with_reducible apply Keeps.upd)

theorem runDescs_keeps {s₀ s : State} (h : Keeps s₀ s) {hh : Nat} {c : Cmd} {bs : List Bytes} {i : Nat} :
    Keeps s₀ (runDescs s hh c bs i).1 := by
  induction bs generalizing s i with
  | nil => exact h
  | cons b bs ih =>
    unfold runDescs
    repeat' (first
      | with_reducible assumption | (unfold x; clear x)
      | (extract_lets +onlyGivenNames x; first | (refine Keeps.bind (s := s₀) (x := x) ?_ ?_; intro _; clear_value x; revert x; intros) | (clear_value x; revert x; intros))
      | split | with_reducible apply ih | with_reducible apply runDesc_keeps
      | (with_reducible apply Keeps.fst (e := by with_reducible assumption))
      | (with_reducible apply Keeps.snd (e := by with_reducible assumption))
      | (with_reducible apply Keeps.fst_eq (e := by with_reducible assumption))
      | (with_reducible apply Keeps.snd_eq (e := by with_reducible assumption)) | dsimp -zeta only
      | with_reducible apply Keeps.upd)

theorem runList_keeps {s₀ s : State} (h : Keeps s₀ s) {hh : Nat} {c : Cmd} {n i : Nat} : Keeps s₀ (runList s hh c n i) := by
  induction n generalizing s i with
  | zero => unfold runList; exact cmdDone_keeps h
  | succ n ih =>
    unfold runList
    lift_lets
    intro a m waits
    have hw : ∀ s i, Keeps s₀ s → Keeps s₀ (waits s i) := fun _ _ k => updCmd_keeps (cntHearth_keeps k)
    clear_value waits
    split
    · exact cmdDone_keeps h
    · have hf := fetchBurst_keeps h (hh := hh) (c := c) (n := m) (a := a)
      split
      · next e => exact failRunning_keeps (Keeps.fst hf e)
      · next e => exact hw _ _ (Keeps.fst hf e)
      · next e =>
        have ht := Keeps.fst hf e
        split
        · exact failRunning_keeps ht
        · split <;> next e' => have hd := Keeps.fst (runDescs_keeps ht) e'; first
            | with_reducible exact cmdDone_keeps hd
            | with_reducible exact ih hd
            | with_reducible exact failRunning_keeps hd
            | with_reducible exact hw _ _ hd

theorem execXfer_keeps {s₀ s : State} (h : Keeps s₀ s) {h : Fin 16} {seq : BitVec 32} :
    KeepsR s₀ (execXfer h seq s) := by
  unfold execXfer
  repeat' (first
    | with_reducible assumption | with_reducible apply KeepsR.next | (with_reducible apply opRow_keeps; intro _ _ _)
    | with_reducible apply runList_keeps | dsimp -zeta only)

theorem execTack_keeps {s₀ s : State} (h : Keeps s₀ s) {h : Fin 16} {seq : BitVec 32} :
    KeepsR s₀ (execTack h seq s) := by
  unfold execTack
  repeat' (first
    | with_reducible assumption | (unfold x; clear x)
    | (extract_lets +onlyGivenNames x; first | (refine Keeps.bind (s := s₀) (x := x) ?_ ?_; intro _; clear_value x; revert x; intros) | (clear_value x; revert x; intros))
    | split | with_reducible apply KeepsR.next | (with_reducible apply opRow_keeps; intro _ _ _)
    | with_reducible apply cmdDone_keeps | (with_reducible apply orFail_keeps; intro _ _ _)
    | with_reducible apply tackRead_keeps | with_reducible apply tackWrite_keeps | dsimp -zeta only)

theorem commitStepOf_keeps {s₀ s : State} (h : Keeps s₀ s) {t : Ticket} :
    Keeps s₀ (commitStepOf s t) := by
  unfold commitStepOf
  repeat' (first
    | with_reducible assumption | (unfold x; clear x)
    | (extract_lets +onlyGivenNames x; first | (refine Keeps.bind (s := s₀) (x := x) ?_ ?_; intro _; clear_value x; revert x; intros) | (clear_value x; revert x; intros))
    | split | with_reducible apply undoCopy_keeps | with_reducible apply closeScales_keeps
    | with_reducible apply commitRecords_keeps | with_reducible apply freeOrphans_keeps | with_reducible apply wr_keeps
    | with_reducible apply rlogStep_keeps | with_reducible apply postReports_keeps | with_reducible apply emberPut_keeps
    | with_reducible apply cntIo_keeps | with_reducible apply updTicket_keeps | with_reducible apply endTicket_keeps
    | dsimp -zeta only | with_reducible apply Keeps.upd)

theorem execCommit_keeps {s₀ s : State} (h : Keeps s₀ s) {t : BitVec 48} :
    KeepsR s₀ (execCommit t s) := by
  unfold execCommit
  repeat' (first
    | with_reducible assumption | (unfold x; clear x)
    | (extract_lets +onlyGivenNames x; first | (refine Keeps.bind (s := s₀) (x := x) ?_ ?_; intro _; clear_value x; revert x; intros) | (clear_value x; revert x; intros))
    | split | with_reducible apply KeepsR.next | with_reducible apply commitStepOf_keeps
    | (with_reducible apply Keeps.fst (e := by with_reducible assumption))
    | (with_reducible apply Keeps.snd (e := by with_reducible assumption))
    | (with_reducible apply Keeps.fst_eq (e := by with_reducible assumption))
    | (with_reducible apply Keeps.snd_eq (e := by with_reducible assumption)) | dsimp -zeta only
    | with_reducible apply Keeps.upd)

end Sys2Proof.Machine
end

