-- ==== Sys2Proof/Laws/Keeps/MemorySys.lean ====
section
/-! SUPPORT. What the operations of Machine/MemorySys.lean keep (`Keeps`). -/

namespace Sys2Proof.Machine

theorem execHandoverWord_keeps {s₀ s : State} (h : Keeps s₀ s) {who : BitVec 8} {w : BitVec 64} :
    KeepsR s₀ (execHandoverWord who w s) := by
  unfold execHandoverWord
  repeat' (first
    | with_reducible assumption | (unfold x; clear x)
    | (extract_lets +onlyGivenNames x; first | (refine Keeps.bind (s := s₀) (x := x) ?_ ?_; intro _; clear_value x; revert x; intros) | (clear_value x; revert x; intros))
    | split | with_reducible apply KeepsR.next | with_reducible apply handover_keeps)

theorem bankHandover_keeps {s₀ s : State} (h : Keeps s₀ s) {src : Src} {v : Nat} :
    Keeps s₀ (bankHandover s src v) := by
  unfold bankHandover
  repeat' (first
    | with_reducible assumption | (unfold x; clear x)
    | (extract_lets +onlyGivenNames x; first | (refine Keeps.bind (s := s₀) (x := x) ?_ ?_; intro _; clear_value x; revert x; intros) | (clear_value x; revert x; intros))
    | split | with_reducible apply handover_keeps | with_reducible apply wr_keeps
    | (with_reducible apply Keeps.fst (e := by with_reducible assumption))
    | (with_reducible apply Keeps.snd (e := by with_reducible assumption))
    | (with_reducible apply Keeps.fst_eq (e := by with_reducible assumption))
    | (with_reducible apply Keeps.snd_eq (e := by with_reducible assumption)) | dsimp -zeta only
    | with_reducible apply Keeps.upd)

theorem execBnkHandoverWrite_keeps {s₀ s : State} (h : Keeps s₀ s) {src : Src} {v : BitVec 64} :
    KeepsR s₀ (execBnkHandoverWrite src v s) := by
  unfold execBnkHandoverWrite
  repeat' (first
    | with_reducible assumption | split | with_reducible apply KeepsR.next | with_reducible apply bankHandover_keeps)

theorem setPort_keeps {s₀ s : State} (h : Keeps s₀ s) {p : Nat} {q : PciPort} :
    Keeps s₀ (setPort s p q) := by
  unfold setPort
  repeat' (first
    | with_reducible assumption | (unfold x; clear x)
    | (extract_lets +onlyGivenNames x; first | (refine Keeps.bind (s := s₀) (x := x) ?_ ?_; intro _; clear_value x; revert x; intros) | (clear_value x; revert x; intros))
    | with_reducible apply Keeps.upd)

theorem bar4Do_keeps {s₀ s t : State} {p : Nat} {a : BarAccess} (h : Keeps s₀ s) (e : bar4Do s p a = some t) : Keeps s₀ t := by
  unfold bar4Do at e
  split at e
  · split at e <;> cases e <;> next k => exact emit_keeps (Keeps.fst (memRead_keeps h) k)
  · split at e <;> cases e
    next k => exact Keeps.fst (memWrite_keeps h) k

theorem flushBar4_keeps {s₀ s : State} (h : Keeps s₀ s) {p : Nat} : Keeps s₀ (flushBar4 s p) := by
  unfold flushBar4
  extract_lets +onlyGivenNames held u r
  have hr : Keeps s₀ r.1 := by
    refine Keeps.foldl_fst (fun a w ha => ?_) (setPort_keeps h)
    split
    · exact ha
    · split
      · exact ha
      · next e => exact bar4Do_keeps ha e
  clear_value r
  exact setPort_keeps hr

theorem execBankClearComplete_keeps {s₀ s : State} (h : Keeps s₀ s) {n : Fin 144} :
    KeepsR s₀ (execBankClearComplete n s) := by
  unfold execBankClearComplete
  repeat' (first
    | with_reducible assumption | (unfold x; clear x)
    | (extract_lets +onlyGivenNames x; first | (refine Keeps.bind (s := s₀) (x := x) ?_ ?_; intro _; clear_value x; revert x; intros) | (clear_value x; revert x; intros))
    | split | with_reducible apply KeepsR.next | with_reducible apply wr_keeps | with_reducible apply flushHeld_keeps
    | with_reducible apply flushBar4_keeps)

theorem ariseErrs_keeps {s₀ s : State} (h : Keeps s₀ s) {c g : Nat} {es : List (Nat × Nat)} :
    Keeps s₀ (ariseErrs s c g es) := by
  unfold ariseErrs
  repeat' (first
    | with_reducible assumption | (unfold x; clear x)
    | (extract_lets +onlyGivenNames x; first | (refine Keeps.bind (s := s₀) (x := x) ?_ ?_; intro _; clear_value x; revert x; intros) | (clear_value x; revert x; intros))
    | split | (with_reducible apply each_keeps; intro _ _ _) | dsimp -zeta only | with_reducible apply Keeps.upd)

theorem execMemScrubGroup_keeps {s₀ s : State} (h : Keeps s₀ s) {c : Fin 24} {arisen : List (Nat × Nat)} :
    KeepsR s₀ (execMemScrubGroup c arisen s) := by
  unfold execMemScrubGroup
  repeat' (first
    | with_reducible assumption | (unfold x; clear x)
    | (extract_lets +onlyGivenNames x; first | (refine Keeps.bind (s := s₀) (x := x) ?_ ?_; intro _; clear_value x; revert x; intros) | (clear_value x; revert x; intros))
    | split | with_reducible apply KeepsR.next | with_reducible apply ariseErrs_keeps | with_reducible apply eccRead_keeps
    | with_reducible apply cntMem_keeps | with_reducible apply wrapAdd_keeps | with_reducible apply satAdd_keeps
    | (with_reducible apply each_keeps; intro _ _ _) | dsimp -zeta only)

theorem execGddr7Retrain_keeps {s₀ s : State} (h : Keeps s₀ s) {c : Fin 24} :
    KeepsR s₀ (execGddr7Retrain c s) := by
  unfold execGddr7Retrain
  repeat' (first
    | with_reducible assumption | (unfold x; clear x)
    | (extract_lets +onlyGivenNames x; first | (refine Keeps.bind (s := s₀) (x := x) ?_ ?_; intro _; clear_value x; revert x; intros) | (clear_value x; revert x; intros))
    | split | with_reducible apply KeepsR.next | with_reducible apply emberCode_keeps | with_reducible apply satAdd_keeps
    | with_reducible apply wr_keeps | (with_reducible apply each_keeps; intro _ _ _) | dsimp -zeta only)

theorem execGddr7RetrainComplete_keeps {s₀ s : State} (h : Keeps s₀ s) {c : Fin 24} {ok : Bool} :
    KeepsR s₀ (execGddr7RetrainComplete c ok s) := by
  unfold execGddr7RetrainComplete
  repeat' (first
    | with_reducible assumption | split | with_reducible apply KeepsR.next | with_reducible apply flushHeld_keeps
    | with_reducible apply wr_keeps)

theorem scrubMe_keeps {s₀ s : State} (h : Keeps s₀ s) {h i : Nat} :
    Keeps s₀ (scrubMe s h i) := by
  unfold scrubMe
  repeat' (first
    | with_reducible assumption | (unfold x; clear x)
    | (extract_lets +onlyGivenNames x; first | (refine Keeps.bind (s := s₀) (x := x) ?_ ?_; intro _; clear_value x; revert x; intros) | (clear_value x; revert x; intros))
    | split | with_reducible apply readSlot_keeps | with_reducible apply faultMe_keeps
    | with_reducible apply emberCode_keeps | (with_reducible apply each_keeps; intro _ _ _)
    | (with_reducible apply Keeps.fst (e := by with_reducible assumption))
    | (with_reducible apply Keeps.snd (e := by with_reducible assumption))
    | (with_reducible apply Keeps.fst_eq (e := by with_reducible assumption))
    | (with_reducible apply Keeps.snd_eq (e := by with_reducible assumption)) | dsimp -zeta only
    | with_reducible apply Keeps.upd)

theorem scrubAwl_keeps {s₀ s : State} (h : Keeps s₀ s) {k : Nat} :
    Keeps s₀ (scrubAwl s k) := by
  unfold scrubAwl
  repeat' (first
    | with_reducible assumption | with_reducible apply lsCheck_keeps | (with_reducible apply each_keeps; intro _ _ _)
    | dsimp -zeta only)

theorem scrubRow_keeps {s₀ s : State} (h : Keeps s₀ s) {h : Nat} :
    Keeps s₀ (scrubRow s h) := by
  unfold scrubRow
  repeat' (first
    | with_reducible assumption | (unfold x; clear x)
    | (extract_lets +onlyGivenNames x; first | (refine Keeps.bind (s := s₀) (x := x) ?_ ?_; intro _; clear_value x; revert x; intros) | (clear_value x; revert x; intros))
    | split | with_reducible apply rowWords_keeps | dsimp -zeta only | with_reducible apply Keeps.upd)

theorem scrubCodec_keeps {s₀ s : State} (h : Keeps s₀ s)  :
    Keeps s₀ (scrubCodec s) := by
  unfold scrubCodec
  repeat' (first
    | with_reducible assumption | (unfold x; clear x)
    | (extract_lets +onlyGivenNames x; first | (refine Keeps.bind (s := s₀) (x := x) ?_ ?_; intro _; clear_value x; revert x; intros) | (clear_value x; revert x; intros))
    | with_reducible apply emberCode_keeps | with_reducible apply cntCod_keeps | with_reducible apply satAdd_keeps
    | with_reducible apply wr_keeps | (with_reducible apply each_keeps; intro _ _ _) | dsimp -zeta only
    | with_reducible apply Keeps.upd)

theorem ariseMe_keeps {s₀ s : State} (h : Keeps s₀ s) {h i w n : Nat} :
    Keeps s₀ (ariseMe s h i w n) := by
  unfold ariseMe
  repeat' (first
    | with_reducible assumption | (unfold x; clear x)
    | (extract_lets +onlyGivenNames x; first | (refine Keeps.bind (s := s₀) (x := x) ?_ ?_; intro _; clear_value x; revert x; intros) | (clear_value x; revert x; intros))
    | split | dsimp -zeta only | with_reducible apply Keeps.upd)

theorem ariseRow_keeps {s₀ s : State} (h : Keeps s₀ s) {h w n : Nat} :
    Keeps s₀ (ariseRow s h w n) := by
  unfold ariseRow
  repeat' (first
    | with_reducible assumption | (unfold x; clear x)
    | (extract_lets +onlyGivenNames x; first | (refine Keeps.bind (s := s₀) (x := x) ?_ ?_; intro _; clear_value x; revert x; intros) | (clear_value x; revert x; intros))
    | split | (with_reducible apply Keeps.fst (e := by with_reducible assumption))
    | (with_reducible apply Keeps.snd (e := by with_reducible assumption))
    | (with_reducible apply Keeps.fst_eq (e := by with_reducible assumption))
    | (with_reducible apply Keeps.snd_eq (e := by with_reducible assumption)) | dsimp -zeta only
    | with_reducible apply Keeps.upd)

theorem ariseIn_keeps {s₀ s : State} (h : Keeps s₀ s) {u : ScrubUnit} {es : List (Nat × Nat)} :
    Keeps s₀ (ariseIn s u es) := by
  unfold ariseIn
  repeat' (first
    | with_reducible assumption | (unfold x; clear x)
    | (extract_lets +onlyGivenNames x; first | (refine Keeps.bind (s := s₀) (x := x) ?_ ?_; intro _; clear_value x; revert x; intros) | (clear_value x; revert x; intros))
    | split | with_reducible apply ariseMe_keeps | with_reducible apply updCore_keeps | with_reducible apply ariseRow_keeps
    | (with_reducible apply each_keeps; intro _ _ _) | (with_reducible apply Keeps.fst (e := by with_reducible assumption))
    | (with_reducible apply Keeps.snd (e := by with_reducible assumption))
    | (with_reducible apply Keeps.fst_eq (e := by with_reducible assumption))
    | (with_reducible apply Keeps.snd_eq (e := by with_reducible assumption)) | dsimp -zeta only
    | with_reducible apply Keeps.upd)

theorem execIdleScrub_keeps {s₀ s : State} (h : Keeps s₀ s) {u : IdleScrub} :
    KeepsR s₀ (execIdleScrub u s) := by
  unfold execIdleScrub
  repeat' (first
    | with_reducible assumption | (unfold x; clear x)
    | (extract_lets +onlyGivenNames x; first | (refine Keeps.bind (s := s₀) (x := x) ?_ ?_; intro _; clear_value x; revert x; intros) | (clear_value x; revert x; intros))
    | split | with_reducible apply KeepsR.next | with_reducible apply ariseIn_keeps | with_reducible apply Coll.unit_keeps
    | with_reducible apply scrubMe_keeps | with_reducible apply scrubAwl_keeps | with_reducible apply scrubRow_keeps
    | with_reducible apply scrubCodec_keeps | (with_reducible apply Keeps.fst (e := by with_reducible assumption))
    | (with_reducible apply Keeps.snd (e := by with_reducible assumption))
    | (with_reducible apply Keeps.fst_eq (e := by with_reducible assumption))
    | (with_reducible apply Keeps.snd_eq (e := by with_reducible assumption)) | with_reducible apply Keeps.upd)

end Sys2Proof.Machine
end

