-- ==== Sys2Proof/Laws/Keeps/HostIf.lean ====
section
/-! SUPPORT. What the operations of Machine/HostIf.lean keep (`Keeps`). -/

namespace Sys2Proof.Machine

theorem changeLead_keeps {s₀ s : State} (h : Keeps s₀ s) {p : Nat} :
    Keeps s₀ (changeLead s p) := by
  unfold changeLead
  repeat' (first
    | with_reducible assumption | (unfold x; clear x)
    | (extract_lets +onlyGivenNames x; first | (refine Keeps.bind (s := s₀) (x := x) ?_ ?_; intro _; clear_value x; revert x; intros) | (clear_value x; revert x; intros))
    | with_reducible apply satAdd_keeps | with_reducible apply wr_keeps | with_reducible apply raiseVec_keeps)

theorem loseLead_keeps {s₀ s : State} (h : Keeps s₀ s) {p : Nat} :
    Keeps s₀ (loseLead s p) := by
  unfold loseLead
  repeat' (first
    | with_reducible assumption | split | with_reducible apply changeLead_keeps)

theorem giveLead_keeps {s₀ s : State} (h : Keeps s₀ s)  :
    Keeps s₀ (giveLead s) := by
  unfold giveLead
  repeat' (first
    | with_reducible assumption | (unfold x; clear x)
    | (extract_lets +onlyGivenNames x; first | (refine Keeps.bind (s := s₀) (x := x) ?_ ?_; intro _; clear_value x; revert x; intros) | (clear_value x; revert x; intros))
    | split | with_reducible apply changeLead_keeps | with_reducible apply wr_keeps)

theorem execLeadGive_keeps {s₀ s : State} (h : Keeps s₀ s) {src : Src} :
    KeepsR s₀ (execLeadGive src s) := by
  unfold execLeadGive
  repeat' (first
    | with_reducible assumption | split | with_reducible apply KeepsR.next | with_reducible apply cfgErr_keeps
    | with_reducible apply giveLead_keeps)

theorem ringBusy_keeps {s₀ s : State} (h : Keeps s₀ s) {p r off : Nat} :
    Keeps s₀ (ringBusy s p r off) := by
  unfold ringBusy
  repeat' (first
    | with_reducible assumption | with_reducible apply hifErr_keeps)

theorem ringCtlWrite_keeps {s₀ s : State} (h : Keeps s₀ s) {src : Src} {p r v : Nat} :
    Keeps s₀ (ringCtlWrite s src p r v) := by
  unfold ringCtlWrite
  repeat' (first
    | with_reducible assumption | (unfold x; clear x)
    | (extract_lets +onlyGivenNames x; first | (refine Keeps.bind (s := s₀) (x := x) ?_ ?_; intro _; clear_value x; revert x; intros) | (clear_value x; revert x; intros))
    | split | with_reducible apply ringBusy_keeps | with_reducible apply wr_keeps)

theorem ringBaseWrite_keeps {s₀ s : State} (h : Keeps s₀ s) {src : Src} {p r v : Nat} :
    Keeps s₀ (ringBaseWrite s src p r v) := by
  unfold ringBaseWrite
  repeat' (first
    | with_reducible assumption | (unfold x; clear x)
    | (extract_lets +onlyGivenNames x; first | (refine Keeps.bind (s := s₀) (x := x) ?_ ?_; intro _; clear_value x; revert x; intros) | (clear_value x; revert x; intros))
    | split | with_reducible apply ringBusy_keeps | with_reducible apply wr_keeps)

theorem execRingEnable_keeps {s₀ s : State} (h : Keeps s₀ s) {src : Src} {p : Fin 2} {r : Fin 4} {v : BitVec 64} :
    KeepsR s₀ (execRingEnable src p r v s) := by
  unfold execRingEnable
  repeat' (first
    | with_reducible assumption | split | with_reducible apply KeepsR.next | with_reducible apply ringCtlWrite_keeps)

theorem execRingDisable_keeps {s₀ s : State} (h : Keeps s₀ s) {src : Src} {p : Fin 2} {r : Fin 4} :
    KeepsR s₀ (execRingDisable src p r s) := by
  unfold execRingDisable
  repeat' (first
    | with_reducible assumption | split | with_reducible apply KeepsR.next | with_reducible apply ringCtlWrite_keeps)

theorem execDoorbellWrite_keeps {s₀ s : State} (h : Keeps s₀ s) {p : Fin 2} {r : Fin 4} {len : Nat} {v : BitVec 64} :
    KeepsR s₀ (execDoorbellWrite p r len v s) := by
  unfold execDoorbellWrite
  repeat' (first
    | with_reducible assumption | (unfold x; clear x)
    | (extract_lets +onlyGivenNames x; first | (refine Keeps.bind (s := s₀) (x := x) ?_ ?_; intro _; clear_value x; revert x; intros) | (clear_value x; revert x; intros))
    | split | with_reducible apply KeepsR.next | with_reducible apply hifErr_keeps | with_reducible apply wr_keeps)

theorem rejectTicket_keeps {s₀ s : State} (h : Keeps s₀ s) {ring : Nat × Nat} {raw : Bytes} {code : Nat} :
    Keeps s₀ (rejectTicket s ring raw code) := by
  unfold rejectTicket
  repeat' (first
    | with_reducible assumption | (unfold x; clear x)
    | (extract_lets +onlyGivenNames x; first | (refine Keeps.bind (s := s₀) (x := x) ?_ ?_; intro _; clear_value x; revert x; intros) | (clear_value x; revert x; intros))
    | split | with_reducible apply writeRecord_keeps | with_reducible apply emberTicket_keeps
    | with_reducible apply cfgErr_keeps | with_reducible apply hifErr_keeps)

theorem acceptTicket_keeps {s₀ s : State} (h : Keeps s₀ s) {ring : Nat × Nat} {raw : Bytes} {p : Program} :
    Keeps s₀ (acceptTicket s ring raw p) := by
  unfold acceptTicket
  repeat' (first
    | with_reducible assumption | (unfold x; clear x)
    | (extract_lets +onlyGivenNames x; first | (refine Keeps.bind (s := s₀) (x := x) ?_ ?_; intro _; clear_value x; revert x; intros) | (clear_value x; revert x; intros))
    | split | with_reducible apply cntIo_keeps | with_reducible apply completeRecord_keeps | dsimp -zeta only
    | with_reducible apply Keeps.upd)

theorem intakeEntry_keeps {s₀ s : State} (h : Keeps s₀ s) {ring : Nat × Nat} {raw : Bytes} :
    Keeps s₀ (intakeEntry s ring raw) := by
  unfold intakeEntry
  repeat' (first
    | with_reducible assumption | (unfold x; clear x)
    | (extract_lets +onlyGivenNames x; first | (refine Keeps.bind (s := s₀) (x := x) ?_ ?_; intro _; clear_value x; revert x; intros) | (clear_value x; revert x; intros))
    | split | with_reducible apply acceptTicket_keeps | with_reducible apply rejectTicket_keeps
    | (with_reducible apply Keeps.fst (e := by with_reducible assumption))
    | (with_reducible apply Keeps.snd (e := by with_reducible assumption))
    | (with_reducible apply Keeps.fst_eq (e := by with_reducible assumption))
    | (with_reducible apply Keeps.snd_eq (e := by with_reducible assumption)) | dsimp -zeta only
    | with_reducible apply Keeps.upd)

theorem intakeFail_keeps {s₀ s : State} (h : Keeps s₀ s) {p r addr code : Nat} :
    Keeps s₀ (intakeFail s p r addr code) := by
  unfold intakeFail
  repeat' (first
    | with_reducible assumption | with_reducible apply hifErr_keeps | with_reducible apply wr_keeps)

theorem intakeTake_keeps {s₀ s : State} (h : Keeps s₀ s) {p r : Nat} {raw : Bytes} :
    Keeps s₀ (intakeTake s p r raw) := by
  unfold intakeTake
  repeat' (first
    | with_reducible assumption | with_reducible apply intakeEntry_keeps | with_reducible apply wrapAdd_keeps
    | dsimp -zeta only)

theorem execTicketIntake_keeps {s₀ s : State} (h : Keeps s₀ s) {rd_ : HostRead} :
    KeepsR s₀ (execTicketIntake rd_ s) := by
  unfold execTicketIntake
  dsimp only
  repeat' (first
    | with_reducible assumption | (unfold x; clear x)
    | (extract_lets +onlyGivenNames x; first | (refine Keeps.bind (s := s₀) (x := x) ?_ ?_; intro _; clear_value x; revert x; intros) | (clear_value x; revert x; intros))
    | split | with_reducible apply KeepsR.next | with_reducible apply access_keeps | with_reducible apply intakeFail_keeps
    | with_reducible apply intakeTake_keeps | (with_reducible apply Keeps.fst (e := by with_reducible assumption))
    | (with_reducible apply Keeps.snd (e := by with_reducible assumption))
    | (with_reducible apply Keeps.fst_eq (e := by with_reducible assumption))
    | (with_reducible apply Keeps.snd_eq (e := by with_reducible assumption)) | dsimp -zeta only
    | with_reducible apply Keeps.upd)

theorem execBar4Access_keeps {s₀ s : State} (h : Keeps s₀ s) {p : Fin 2} {acc : BarAccess} : KeepsR s₀ (execBar4Access p acc s) := by
  unfold execBar4Access
  dsimp only
  split
  · exact KeepsR.next h
  split <;> refine KeepsR.next ?_ <;> split
  · exact h
  · split
    · cases e : bar4Do s p _ with
      | none => exact setPort_keeps h
      | some t => exact bar4Do_keeps h e
    · exact flushBar4_keeps (setPort_keeps h)
  · exact h
  · split
    · exact setPort_keeps h
    · exact flushBar4_keeps (setPort_keeps h)

theorem irqClear_keeps {s₀ s : State} (h : Keeps s₀ s) {p v : Nat} :
    Keeps s₀ (irqClear s p v) := by
  unfold irqClear
  repeat' (first
    | with_reducible assumption | (unfold x; clear x)
    | (extract_lets +onlyGivenNames x; first | (refine Keeps.bind (s := s₀) (x := x) ?_ ?_; intro _; clear_value x; revert x; intros) | (clear_value x; revert x; intros))
    | with_reducible apply wr_keeps | with_reducible apply setPort_keeps | dsimp -zeta only | with_reducible apply Keeps.upd)

theorem execIrqClear_keeps {s₀ s : State} (h : Keeps s₀ s) {src : Src} {p : Fin 2} {v : BitVec 64} :
    KeepsR s₀ (execIrqClear src p v s) := by
  unfold execIrqClear
  repeat' (first
    | with_reducible assumption | split | with_reducible apply KeepsR.next | with_reducible apply irqClear_keeps)

theorem execMsixTableWrite_keeps {s₀ s : State} (h : Keeps s₀ s) {p : Fin 2} {off len : Nat} {v : BitVec 64} :
    KeepsR s₀ (execMsixTableWrite p off len v s) := by
  unfold execMsixTableWrite
  repeat' (first
    | with_reducible assumption | split | with_reducible apply KeepsR.next | with_reducible apply hifErr_keeps
    | with_reducible apply msixRelease_keeps | with_reducible apply setPort_keeps)

theorem execPcieConfigWrite_keeps {s₀ s : State} (h : Keeps s₀ s) {p : Fin 2} {w : PciWrite} :
    KeepsR s₀ (execPcieConfigWrite p w s) := by
  unfold execPcieConfigWrite
  repeat' (first
    | with_reducible assumption | (unfold x; clear x)
    | (extract_lets +onlyGivenNames x; first | (refine Keeps.bind (s := s₀) (x := x) ?_ ?_; intro _; clear_value x; revert x; intros) | (clear_value x; revert x; intros))
    | split | with_reducible apply KeepsR.next | with_reducible apply wr_keeps | with_reducible apply setPort_keeps
    | with_reducible apply msixRelease_keeps | (with_reducible apply Keeps.fst (e := by with_reducible assumption))
    | (with_reducible apply Keeps.snd (e := by with_reducible assumption))
    | (with_reducible apply Keeps.fst_eq (e := by with_reducible assumption))
    | (with_reducible apply Keeps.snd_eq (e := by with_reducible assumption)) | with_reducible apply Keeps.upd)

theorem pcieTrained_keeps {s₀ s : State} (h : Keeps s₀ s) {p : Nat} {t : PcieTrain} :
    Keeps s₀ (pcieTrained s p t) := by
  unfold pcieTrained
  repeat' (first
    | with_reducible assumption | (unfold x; clear x)
    | (extract_lets +onlyGivenNames x; first | (refine Keeps.bind (s := s₀) (x := x) ?_ ?_; intro _; clear_value x; revert x; intros) | (clear_value x; revert x; intros))
    | split | with_reducible apply wr_keeps)

theorem execPortLinkUp_keeps {s₀ s : State} (h : Keeps s₀ s) {p : Fin 2} {t : PcieTrain} :
    KeepsR s₀ (execPortLinkUp p t s) := by
  unfold execPortLinkUp
  repeat' (first
    | with_reducible assumption | (unfold x; clear x)
    | (extract_lets +onlyGivenNames x; first | (refine Keeps.bind (s := s₀) (x := x) ?_ ?_; intro _; clear_value x; revert x; intros) | (clear_value x; revert x; intros))
    | split | with_reducible apply KeepsR.next | with_reducible apply pcieTrained_keeps
    | with_reducible apply changeLead_keeps | with_reducible apply msixRelease_keeps)

theorem portDown_keeps {s₀ s : State} (h : Keeps s₀ s) {p : Nat} :
    Keeps s₀ (portDown s p) := by
  unfold portDown
  repeat' (first
    | with_reducible assumption | with_reducible apply loseLead_keeps | with_reducible apply wr_keeps)

theorem execPortLinkDown_keeps {s₀ s : State} (h : Keeps s₀ s) {p : Fin 2} :
    KeepsR s₀ (execPortLinkDown p s) := by
  unfold execPortLinkDown
  repeat' (first
    | with_reducible assumption | split | with_reducible apply KeepsR.next | with_reducible apply portDown_keeps)

theorem portReset_keeps {s₀ s : State} (h : Keeps s₀ s) {p : Nat} :
    Keeps s₀ (portReset s p) := by
  unfold portReset
  repeat' (first
    | with_reducible assumption | (unfold x; clear x)
    | (extract_lets +onlyGivenNames x; first | (refine Keeps.bind (s := s₀) (x := x) ?_ ?_; intro _; clear_value x; revert x; intros) | (clear_value x; revert x; intros))
    | with_reducible apply wr_keeps | with_reducible apply setPort_keeps | (with_reducible apply each_keeps; intro _ _ _)
    | dsimp -zeta only | with_reducible apply Keeps.upd)

theorem execPortReset_keeps {s₀ s : State} (h : Keeps s₀ s) {p : Fin 2} :
    KeepsR s₀ (execPortReset p s) := by
  unfold execPortReset
  repeat' (first
    | with_reducible assumption | split | with_reducible apply KeepsR.next | with_reducible apply loseLead_keeps
    | with_reducible apply portReset_keeps)

theorem execCompletionTimeout_keeps {s₀ s : State} (h : Keeps s₀ s) {p : Fin 2} {h : Fin 16} {seq : BitVec 32} :
    KeepsR s₀ (execCompletionTimeout p h seq s) := by
  unfold execCompletionTimeout
  repeat' (first
    | with_reducible assumption | (unfold x; clear x)
    | (extract_lets +onlyGivenNames x; first | (refine Keeps.bind (s := s₀) (x := x) ?_ ?_; intro _; clear_value x; revert x; intros) | (clear_value x; revert x; intros))
    | split | with_reducible apply KeepsR.next | with_reducible apply failRunning_keeps
    | with_reducible apply raiseVec_keeps | (with_reducible apply Keeps.fst (e := by with_reducible assumption))
    | (with_reducible apply Keeps.snd (e := by with_reducible assumption))
    | (with_reducible apply Keeps.fst_eq (e := by with_reducible assumption))
    | (with_reducible apply Keeps.snd_eq (e := by with_reducible assumption)) | with_reducible apply Keeps.upd)

theorem cxlLost_keeps {s₀ s : State} (h : Keeps s₀ s) {n : Nat} :
    Keeps s₀ (cxlLost s n) := by
  unfold cxlLost
  repeat' (first
    | with_reducible assumption | (unfold x; clear x)
    | (extract_lets +onlyGivenNames x; first | (refine Keeps.bind (s := s₀) (x := x) ?_ ?_; intro _; clear_value x; revert x; intros) | (clear_value x; revert x; intros))
    | with_reducible apply wr_keeps | with_reducible apply setFn_keeps)

theorem execEdgeDomainLoss_keeps {s₀ s : State} (h : Keeps s₀ s) {d : EdgeDomain} :
    KeepsR s₀ (execEdgeDomainLoss d s) := by
  unfold execEdgeDomainLoss
  repeat' (first
    | with_reducible assumption | (unfold x; clear x)
    | (extract_lets +onlyGivenNames x; first | (refine Keeps.bind (s := s₀) (x := x) ?_ ?_; intro _; clear_value x; revert x; intros) | (clear_value x; revert x; intros))
    | split | with_reducible apply KeepsR.next | with_reducible apply linkFail_keeps | with_reducible apply portDown_keeps
    | with_reducible apply cxlLost_keeps | with_reducible apply drainFail_keeps
    | (with_reducible apply Keeps.fst (e := by with_reducible assumption))
    | (with_reducible apply Keeps.snd (e := by with_reducible assumption))
    | (with_reducible apply Keeps.fst_eq (e := by with_reducible assumption))
    | (with_reducible apply Keeps.snd_eq (e := by with_reducible assumption)) | with_reducible apply Keeps.upd)

end Sys2Proof.Machine
end

