-- ==== Sys2Proof/Laws/Keeps/Control.lean ====
section
/-! SUPPORT. What the operations of Machine/Control.lean keep (`Keeps`). -/

namespace Sys2Proof.Machine

theorem routeWrite_keeps {s₀ s : State} (h : Keeps s₀ s) {off : Nat} {v : BitVec 64} :
    Keeps s₀ (routeWrite s off v) := by
  unfold routeWrite
  repeat' (first
    | with_reducible assumption | (unfold x; clear x)
    | (extract_lets +onlyGivenNames x; first | (refine Keeps.bind (s := s₀) (x := x) ?_ ?_; intro _; clear_value x; revert x; intros) | (clear_value x; revert x; intros))
    | split | with_reducible apply cfgErr_keeps | (with_reducible apply Keeps.foldl; intro _ _ _)
    | (with_reducible apply Keeps.foldl_fst; intro _ _ _) | (with_reducible apply Keeps.foldl_snd; intro _ _ _)
    | (with_reducible apply Keeps.fst (e := by with_reducible assumption))
    | (with_reducible apply Keeps.snd (e := by with_reducible assumption))
    | (with_reducible apply Keeps.fst_eq (e := by with_reducible assumption))
    | (with_reducible apply Keeps.snd_eq (e := by with_reducible assumption)) | dsimp -zeta only
    | with_reducible apply Keeps.upd)

theorem configWrite_keeps {s₀ s : State} (h : Keeps s₀ s) {off : Nat} {v : BitVec 64} :
    Keeps s₀ (configWrite s off v) := by
  unfold configWrite
  repeat' (first
    | with_reducible assumption | (unfold x; clear x)
    | (extract_lets +onlyGivenNames x; first | (refine Keeps.bind (s := s₀) (x := x) ?_ ?_; intro _; clear_value x; revert x; intros) | (clear_value x; revert x; intros))
    | split | with_reducible apply routeWrite_keeps | with_reducible apply cfgErr_keeps
    | (with_reducible apply Keeps.fst (e := by with_reducible assumption))
    | (with_reducible apply Keeps.snd (e := by with_reducible assumption))
    | (with_reducible apply Keeps.fst_eq (e := by with_reducible assumption))
    | (with_reducible apply Keeps.snd_eq (e := by with_reducible assumption)) | dsimp -zeta only
    | with_reducible apply Keeps.upd)

theorem execConfigWrite_keeps {s₀ s : State} (h : Keeps s₀ s) {src : Src} {off : Nat} {v : BitVec 64} :
    KeepsR s₀ (execConfigWrite src off v s) := by
  unfold execConfigWrite
  repeat' (first
    | with_reducible assumption | split | with_reducible apply KeepsR.next | with_reducible apply configWrite_keeps)

theorem applyOne_keeps {s₀ s : State} (h : Keeps s₀ s) {f : Nat} {p : Nat × BitVec 64} :
    Keeps s₀ (applyOne f s p) := by
  unfold applyOne
  repeat' (first
    | with_reducible assumption | (unfold x; clear x)
    | (extract_lets +onlyGivenNames x; first | (refine Keeps.bind (s := s₀) (x := x) ?_ ?_; intro _; clear_value x; revert x; intros) | (clear_value x; revert x; intros))
    | split | with_reducible apply setReg_keeps | (with_reducible apply Keeps.fst (e := by with_reducible assumption))
    | (with_reducible apply Keeps.snd (e := by with_reducible assumption))
    | (with_reducible apply Keeps.fst_eq (e := by with_reducible assumption))
    | (with_reducible apply Keeps.snd_eq (e := by with_reducible assumption)) | dsimp -zeta only
    | with_reducible apply Keeps.upd)

theorem applyPend_keeps {s₀ s : State} (h : Keeps s₀ s) {f : Nat} :
    Keeps s₀ (applyPend s f) := by
  unfold applyPend
  repeat' (first
    | with_reducible assumption | with_reducible apply applyOne_keeps | (with_reducible apply Keeps.foldl; intro _ _ _)
    | (with_reducible apply Keeps.foldl_fst; intro _ _ _) | (with_reducible apply Keeps.foldl_snd; intro _ _ _))

theorem funcStop_keeps {s₀ s : State} (h : Keeps s₀ s) {src : Src} {f : Nat} :
    Keeps s₀ (funcStop s src f) := by
  unfold funcStop
  repeat' (first
    | with_reducible assumption | split | with_reducible apply cfgErr_keeps | with_reducible apply setFn_keeps)

theorem execFuncStop_keeps {s₀ s : State} (h : Keeps s₀ s) {src : Src} {f : BitVec 8} :
    KeepsR s₀ (execFuncStop src f s) := by
  unfold execFuncStop
  repeat' (first
    | with_reducible assumption | split | with_reducible apply KeepsR.next | with_reducible apply cfgErr_keeps
    | with_reducible apply funcStop_keeps)

theorem withdraw_keeps {s₀ s : State} (h : Keeps s₀ s) {h : Nat} :
    Keeps s₀ (withdraw s h) := by
  unfold withdraw
  repeat' (first
    | with_reducible assumption | (unfold x; clear x)
    | (extract_lets +onlyGivenNames x; first | (refine Keeps.bind (s := s₀) (x := x) ?_ ?_; intro _; clear_value x; revert x; intros) | (clear_value x; revert x; intros))
    | split | with_reducible apply updCmd_keeps | with_reducible apply clearPending_keeps
    | (with_reducible apply each_keeps; intro _ _ _) | (with_reducible apply Keeps.fst (e := by with_reducible assumption))
    | (with_reducible apply Keeps.snd (e := by with_reducible assumption))
    | (with_reducible apply Keeps.fst_eq (e := by with_reducible assumption))
    | (with_reducible apply Keeps.snd_eq (e := by with_reducible assumption)) | dsimp -zeta only
    | with_reducible apply Keeps.upd)

theorem hearthDown_keeps {s₀ s : State} (h : Keeps s₀ s) {h : Nat} :
    Keeps s₀ (hearthDown s h) := by
  unfold hearthDown
  repeat' (first
    | with_reducible assumption | (unfold x; clear x)
    | (extract_lets +onlyGivenNames x; first | (refine Keeps.bind (s := s₀) (x := x) ?_ ?_; intro _; clear_value x; revert x; intros) | (clear_value x; revert x; intros))
    | split | with_reducible apply withdraw_keeps | with_reducible apply wr_keeps | with_reducible apply updCore_keeps
    | (with_reducible apply each_keeps; intro _ _ _) | dsimp -zeta only | with_reducible apply Keeps.upd)

theorem execFuncStopComplete_keeps {s₀ s : State} (h : Keeps s₀ s) {f : BitVec 8} :
    KeepsR s₀ (execFuncStopComplete f s) := by
  unfold execFuncStopComplete
  repeat' (first
    | with_reducible assumption | (unfold x; clear x)
    | (extract_lets +onlyGivenNames x; first | (refine Keeps.bind (s := s₀) (x := x) ?_ ?_; intro _; clear_value x; revert x; intros) | (clear_value x; revert x; intros))
    | split | with_reducible apply KeepsR.next | with_reducible apply recharge_keeps | with_reducible apply hearthDown_keeps
    | with_reducible apply setFn_keeps)

theorem lanesOff_keeps {s₀ s : State} (h : Keeps s₀ s) {f : Nat} :
    Keeps s₀ (lanesOff s f) := by
  unfold lanesOff
  repeat' (first
    | with_reducible assumption | (unfold x; clear x)
    | (extract_lets +onlyGivenNames x; first | (refine Keeps.bind (s := s₀) (x := x) ?_ ?_; intro _; clear_value x; revert x; intros) | (clear_value x; revert x; intros))
    | with_reducible apply wr_keeps | (with_reducible apply each_keeps; intro _ _ _) | dsimp -zeta only
    | with_reducible apply Keeps.upd)

theorem linkGo_keeps {s₀ s : State} (h : Keeps s₀ s) {l : Nat} :
    Keeps s₀ (linkGo s l) := by
  unfold linkGo
  repeat' (first
    | with_reducible assumption | (unfold x; clear x)
    | (extract_lets +onlyGivenNames x; first | (refine Keeps.bind (s := s₀) (x := x) ?_ ?_; intro _; clear_value x; revert x; intros) | (clear_value x; revert x; intros))
    | with_reducible apply pumpLink_keeps | with_reducible apply collAll_keeps | with_reducible apply pumpStream_keeps
    | (with_reducible apply each_keeps; intro _ _ _))

theorem cxlUp_keeps {s₀ s : State} (h : Keeps s₀ s) {n cap : Nat} {t : CxlTrain} :
    Keeps s₀ (cxlUp s n cap t) := by
  unfold cxlUp
  repeat' (first
    | with_reducible assumption | (unfold x; clear x)
    | (extract_lets +onlyGivenNames x; first | (refine Keeps.bind (s := s₀) (x := x) ?_ ?_; intro _; clear_value x; revert x; intros) | (clear_value x; revert x; intros))
    | split | with_reducible apply wr_keeps)

theorem cxlFailed_keeps {s₀ s : State} (h : Keeps s₀ s) {n code : Nat} :
    Keeps s₀ (cxlFailed s n code) := by
  unfold cxlFailed
  repeat' (first
    | with_reducible assumption | with_reducible apply wr_keeps)

theorem restartCxl_keeps {s₀ s : State} (h : Keeps s₀ s) {n : Nat} {t : CxlTrain} :
    Keeps s₀ (restartCxl s n t) := by
  unfold restartCxl
  repeat' (first
    | with_reducible assumption | (unfold x; clear x)
    | (extract_lets +onlyGivenNames x; first | (refine Keeps.bind (s := s₀) (x := x) ?_ ?_; intro _; clear_value x; revert x; intros) | (clear_value x; revert x; intros))
    | split | with_reducible apply lanesOff_keeps | with_reducible apply applyPend_keeps | with_reducible apply cfgErr_keeps
    | with_reducible apply setFn_keeps | with_reducible apply wr_keeps | with_reducible apply cxlUp_keeps
    | with_reducible apply cxlFailed_keeps | (with_reducible apply Keeps.fst (e := by with_reducible assumption))
    | (with_reducible apply Keeps.snd (e := by with_reducible assumption))
    | (with_reducible apply Keeps.fst_eq (e := by with_reducible assumption))
    | (with_reducible apply Keeps.snd_eq (e := by with_reducible assumption)) | dsimp -zeta only
    | with_reducible apply Keeps.upd)

theorem restartPcie_keeps {s₀ s : State} (h : Keeps s₀ s) {p : Nat} {t : PcieTrain} :
    Keeps s₀ (restartPcie s p t) := by
  unfold restartPcie
  repeat' (first
    | with_reducible assumption | (unfold x; clear x)
    | (extract_lets +onlyGivenNames x; first | (refine Keeps.bind (s := s₀) (x := x) ?_ ?_; intro _; clear_value x; revert x; intros) | (clear_value x; revert x; intros))
    | split | with_reducible apply pcieTrained_keeps | with_reducible apply lanesOff_keeps
    | with_reducible apply applyPend_keeps | with_reducible apply msixRelease_keeps | with_reducible apply setFn_keeps
    | with_reducible apply loseLead_keeps)

theorem restartLink_keeps {s₀ s : State} (h : Keeps s₀ s) {l : Nat} {t : LinkTrain} :
    Keeps s₀ (restartLink s l t) := by
  unfold restartLink
  repeat' (first
    | with_reducible assumption | (unfold x; clear x)
    | (extract_lets +onlyGivenNames x; first | (refine Keeps.bind (s := s₀) (x := x) ?_ ?_; intro _; clear_value x; revert x; intros) | (clear_value x; revert x; intros))
    | split | with_reducible apply lanesOff_keeps | with_reducible apply applyPend_keeps
    | with_reducible apply clearHalves_keeps | with_reducible apply linkGo_keeps | with_reducible apply setFn_keeps
    | with_reducible apply bringUp_keeps | dsimp -zeta only)

theorem wakeUnits_keeps {s₀ s : State} (h : Keeps s₀ s) {h : Nat} :
    Keeps s₀ (wakeUnits s h) := by
  unfold wakeUnits
  repeat' (first
    | with_reducible assumption | (unfold x; clear x)
    | (extract_lets +onlyGivenNames x; first | (refine Keeps.bind (s := s₀) (x := x) ?_ ?_; intro _; clear_value x; revert x; intros) | (clear_value x; revert x; intros))
    | split | with_reducible apply wr_keeps | (with_reducible apply each_keeps; intro _ _ _) | dsimp -zeta only)

theorem restartHearth_keeps {s₀ s : State} (h : Keeps s₀ s) {h : Nat} :
    Keeps s₀ (restartHearth s h) := by
  unfold restartHearth
  repeat' (first
    | with_reducible assumption | (unfold x; clear x)
    | (extract_lets +onlyGivenNames x; first | (refine Keeps.bind (s := s₀) (x := x) ?_ ?_; intro _; clear_value x; revert x; intros) | (clear_value x; revert x; intros))
    | split | with_reducible apply applyPend_keeps | with_reducible apply setOwner_keeps | with_reducible apply setFn_keeps
    | with_reducible apply wr_keeps | with_reducible apply wakeBank_keeps | with_reducible apply schedule_keeps
    | with_reducible apply recharge_keeps | with_reducible apply wakeUnits_keeps
    | (with_reducible apply each_keeps; intro _ _ _) | dsimp -zeta only)

theorem restartFunc_keeps {s₀ s : State} (h : Keeps s₀ s) {f : Nat} {t : Training} :
    Keeps s₀ (restartFunc s f t) := by
  unfold restartFunc
  repeat' (first
    | with_reducible assumption | (unfold x; clear x)
    | (extract_lets +onlyGivenNames x; first | (refine Keeps.bind (s := s₀) (x := x) ?_ ?_; intro _; clear_value x; revert x; intros) | (clear_value x; revert x; intros))
    | split | with_reducible apply restartHearth_keeps | with_reducible apply rlogQuotas_keeps
    | with_reducible apply setFn_keeps | with_reducible apply applyPend_keeps | with_reducible apply beginPolicy_keeps
    | with_reducible apply restartLink_keeps | with_reducible apply restartCxl_keeps
    | with_reducible apply restartPcie_keeps | (with_reducible apply Keeps.fst (e := by with_reducible assumption))
    | (with_reducible apply Keeps.snd (e := by with_reducible assumption))
    | (with_reducible apply Keeps.fst_eq (e := by with_reducible assumption))
    | (with_reducible apply Keeps.snd_eq (e := by with_reducible assumption)) | with_reducible apply Keeps.upd)

theorem funcRestart_keeps {s₀ s : State} (h : Keeps s₀ s) {f : Nat} {t : Training} :
    Keeps s₀ (funcRestart s f t) := by
  unfold funcRestart
  repeat' (first
    | with_reducible assumption | split | with_reducible apply cfgErr_keeps | with_reducible apply flushHeld_keeps
    | with_reducible apply restartFunc_keeps)

theorem execFuncRestart_keeps {s₀ s : State} (h : Keeps s₀ s) {src : Src} {f : BitVec 8} {t : Training} :
    KeepsR s₀ (execFuncRestart src f t s) := by
  unfold execFuncRestart
  repeat' (first
    | with_reducible assumption | split | with_reducible apply KeepsR.next | with_reducible apply cfgErr_keeps
    | with_reducible apply funcRestart_keeps)

theorem stopKind2_keeps {s₀ s : State} (h : Keeps s₀ s) {key : Nat} :
    Keeps s₀ (stopKind2 s key) := by
  unfold stopKind2
  repeat' (first
    | with_reducible assumption | split | with_reducible apply wr_keeps | with_reducible apply coreStop_keeps)

theorem finishCancel_keeps {s₀ s : State} (h : Keeps s₀ s) {key : Nat} :
    Keeps s₀ (finishCancel s key) := by
  unfold finishCancel
  repeat' (first
    | with_reducible assumption | (unfold x; clear x)
    | (extract_lets +onlyGivenNames x; first | (refine Keeps.bind (s := s₀) (x := x) ?_ ?_; intro _; clear_value x; revert x; intros) | (clear_value x; revert x; intros))
    | with_reducible apply stopKind2_keeps | with_reducible apply dropUnstarted_keeps | with_reducible apply tryEnd_keeps
    | with_reducible apply endWaitingCores_keeps | (with_reducible apply each_keeps; intro _ _ _) | dsimp -zeta only)

theorem cancelTicket_keeps {s₀ s : State} (h : Keeps s₀ s) {num : Nat} :
    Keeps s₀ (cancelTicket s num) := by
  unfold cancelTicket
  repeat' (first
    | with_reducible assumption | (unfold x; clear x)
    | (extract_lets +onlyGivenNames x; first | (refine Keeps.bind (s := s₀) (x := x) ?_ ?_; intro _; clear_value x; revert x; intros) | (clear_value x; revert x; intros))
    | split | with_reducible apply wr_keeps | with_reducible apply updTicket_keeps | with_reducible apply finishCancel_keeps
    | (with_reducible apply Keeps.fst (e := by with_reducible assumption))
    | (with_reducible apply Keeps.snd (e := by with_reducible assumption))
    | (with_reducible apply Keeps.fst_eq (e := by with_reducible assumption))
    | (with_reducible apply Keeps.snd_eq (e := by with_reducible assumption)) | dsimp -zeta only
    | with_reducible apply Keeps.upd)

theorem execCancelTicket_keeps {s₀ s : State} (h : Keeps s₀ s) {src : Src} {t : BitVec 48} :
    KeepsR s₀ (execCancelTicket src t s) := by
  unfold execCancelTicket
  repeat' (first
    | with_reducible assumption | split | with_reducible apply KeepsR.next | with_reducible apply cfgErr_keeps
    | with_reducible apply cancelTicket_keeps)

theorem requestRekindle_keeps {s₀ s : State} (h : Keeps s₀ s)  :
    Keeps s₀ (requestRekindle s) := by
  unfold requestRekindle
  repeat' (first
    | with_reducible assumption | (unfold x; clear x)
    | (extract_lets +onlyGivenNames x; first | (refine Keeps.bind (s := s₀) (x := x) ?_ ?_; intro _; clear_value x; revert x; intros) | (clear_value x; revert x; intros))
    | split | with_reducible apply ownStop_keeps | (with_reducible apply Keeps.fst (e := by with_reducible assumption))
    | (with_reducible apply Keeps.snd (e := by with_reducible assumption))
    | (with_reducible apply Keeps.fst_eq (e := by with_reducible assumption))
    | (with_reducible apply Keeps.snd_eq (e := by with_reducible assumption)) | with_reducible apply Keeps.upd)

theorem devCtlWrite_keeps {s₀ s : State} (h : Keeps s₀ s) {v : Nat} :
    Keeps s₀ (devCtlWrite s v) := by
  unfold devCtlWrite
  repeat' (first
    | with_reducible assumption | (unfold x; clear x)
    | (extract_lets +onlyGivenNames x; first | (refine Keeps.bind (s := s₀) (x := x) ?_ ?_; intro _; clear_value x; revert x; intros) | (clear_value x; revert x; intros))
    | split | with_reducible apply wr_keeps | with_reducible apply requestRekindle_keeps)

theorem execRekindle_keeps {s₀ s : State} (h : Keeps s₀ s) {src : Src} {v : BitVec 64} :
    KeepsR s₀ (execRekindle src v s) := by
  unfold execRekindle
  repeat' (first
    | with_reducible assumption | split | with_reducible apply KeepsR.next | with_reducible apply cfgErr_keeps
    | with_reducible apply devCtlWrite_keeps)

end Sys2Proof.Machine
end

