-- ==== Sys2Proof/Laws/Keeps/Grants.lean ====
section
/-! SUPPORT. What the operations of Machine/Grants.lean keep (`Keeps`). -/

namespace Sys2Proof.Machine

theorem execReservation_keeps {s₀ s : State} (h : Keeps s₀ s) {h : Fin 16} :
    KeepsR s₀ (execReservation h s) := by
  unfold execReservation
  repeat' (first
    | with_reducible assumption | split | with_reducible apply KeepsR.next | with_reducible apply wr_keeps)

theorem refuse_keeps {s₀ s : State} (h : Keeps s₀ s) {h : Nat} :
    Keeps s₀ (refuse s h) := by
  unfold refuse
  repeat' (first
    | with_reducible assumption | (unfold x; clear x)
    | (extract_lets +onlyGivenNames x; first | (refine Keeps.bind (s := s₀) (x := x) ?_ ?_; intro _; clear_value x; revert x; intros) | (clear_value x; revert x; intros))
    | split | with_reducible apply tokenWait_keeps | with_reducible apply fillShortfall_keeps
    | (with_reducible apply Keeps.fst (e := by with_reducible assumption))
    | (with_reducible apply Keeps.snd (e := by with_reducible assumption))
    | (with_reducible apply Keeps.fst_eq (e := by with_reducible assumption))
    | (with_reducible apply Keeps.snd_eq (e := by with_reducible assumption)) | with_reducible apply Keeps.upd)

theorem execGrantRequest_keeps {s₀ s : State} (h : Keeps s₀ s)  :
    KeepsR s₀ (execGrantRequest s) := by
  unfold execGrantRequest
  repeat' (first
    | with_reducible assumption | (unfold x; clear x)
    | (extract_lets +onlyGivenNames x; first | (refine Keeps.bind (s := s₀) (x := x) ?_ ?_; intro _; clear_value x; revert x; intros) | (clear_value x; revert x; intros))
    | split | with_reducible apply KeepsR.next | with_reducible apply schedule_keeps | with_reducible apply wr_keeps
    | with_reducible apply grant_keeps | with_reducible apply clearPending_keeps | with_reducible apply refuse_keeps
    | with_reducible apply decided_keeps | (with_reducible apply each_keeps; intro _ _ _)
    | (with_reducible apply Keeps.fst (e := by with_reducible assumption))
    | (with_reducible apply Keeps.snd (e := by with_reducible assumption))
    | (with_reducible apply Keeps.fst_eq (e := by with_reducible assumption))
    | (with_reducible apply Keeps.snd_eq (e := by with_reducible assumption)) | dsimp -zeta only
    | with_reducible apply Keeps.upd)

theorem execTokenRelease_keeps {s₀ s : State} (h : Keeps s₀ s) {h : Fin 16} :
    KeepsR s₀ (execTokenRelease h s) := by
  unfold execTokenRelease
  repeat' (first
    | with_reducible assumption | (unfold x; clear x)
    | (extract_lets +onlyGivenNames x; first | (refine Keeps.bind (s := s₀) (x := x) ?_ ?_; intro _; clear_value x; revert x; intros) | (clear_value x; revert x; intros))
    | split | with_reducible apply KeepsR.next | with_reducible apply schedule_keeps | with_reducible apply recharge_keeps
    | with_reducible apply setDisp_keeps | dsimp -zeta only | with_reducible apply Keeps.upd)

theorem execShedStep_keeps {s₀ s : State} (h : Keeps s₀ s)  :
    KeepsR s₀ (execShedStep s) := by
  unfold execShedStep
  repeat' (first
    | with_reducible assumption | (unfold x; clear x)
    | (extract_lets +onlyGivenNames x; first | (refine Keeps.bind (s := s₀) (x := x) ?_ ?_; intro _; clear_value x; revert x; intros) | (clear_value x; revert x; intros))
    | split | with_reducible apply KeepsR.next | with_reducible apply wr_keeps | with_reducible apply lowerStep_keeps
    | (with_reducible apply each_keeps; intro _ _ _) | dsimp -zeta only | with_reducible apply Keeps.upd)

theorem execRegulatorInWindow_keeps {s₀ s : State} (h : Keeps s₀ s) {h : Fin 16} :
    KeepsR s₀ (execRegulatorInWindow h s) := by
  unfold execRegulatorInWindow
  repeat' (first
    | with_reducible assumption | (unfold x; clear x)
    | (extract_lets +onlyGivenNames x; first | (refine Keeps.bind (s := s₀) (x := x) ?_ ?_; intro _; clear_value x; revert x; intros) | (clear_value x; revert x; intros))
    | split | with_reducible apply KeepsR.next | with_reducible apply wr_keeps | with_reducible apply seekStep_keeps
    | with_reducible apply recharge_keeps | (with_reducible apply Keeps.fst (e := by with_reducible assumption))
    | (with_reducible apply Keeps.snd (e := by with_reducible assumption))
    | (with_reducible apply Keeps.fst_eq (e := by with_reducible assumption))
    | (with_reducible apply Keeps.snd_eq (e := by with_reducible assumption)) | with_reducible apply Keeps.upd)

theorem execOverdrawRecoverStep_keeps {s₀ s : State} (h : Keeps s₀ s) {h : Fin 16} :
    KeepsR s₀ (execOverdrawRecoverStep h s) := by
  unfold execOverdrawRecoverStep
  repeat' (first
    | with_reducible assumption | (unfold x; clear x)
    | (extract_lets +onlyGivenNames x; first | (refine Keeps.bind (s := s₀) (x := x) ?_ ?_; intro _; clear_value x; revert x; intros) | (clear_value x; revert x; intros))
    | split | with_reducible apply KeepsR.next | with_reducible apply raiseStep_keeps | dsimp -zeta only
    | with_reducible apply Keeps.upd)

theorem failSensors_keeps {s₀ s : State} (h : Keeps s₀ s) {xs : List (Option Nat)} :
    Keeps s₀ (failSensors s xs) := by
  unfold failSensors
  repeat' (first
    | with_reducible assumption | (unfold x; clear x)
    | (extract_lets +onlyGivenNames x; first | (refine Keeps.bind (s := s₀) (x := x) ?_ ?_; intro _; clear_value x; revert x; intros) | (clear_value x; revert x; intros))
    | split | with_reducible apply emberCode_keeps | with_reducible apply wr_keeps
    | (with_reducible apply each_keeps; intro _ _ _) | dsimp -zeta only | with_reducible apply Keeps.upd)

theorem takeTemps_keeps {s₀ s : State} (h : Keeps s₀ s) {xs : List (Option Nat)} :
    Keeps s₀ (takeTemps s xs) := by
  unfold takeTemps
  repeat' (first
    | with_reducible assumption | (unfold x; clear x)
    | (extract_lets +onlyGivenNames x; first | (refine Keeps.bind (s := s₀) (x := x) ?_ ?_; intro _; clear_value x; revert x; intros) | (clear_value x; revert x; intros))
    | split | with_reducible apply wr_keeps | (with_reducible apply each_keeps; intro _ _ _)
    | (with_reducible apply Keeps.foldl; intro _ _ _) | (with_reducible apply Keeps.foldl_fst; intro _ _ _)
    | (with_reducible apply Keeps.foldl_snd; intro _ _ _)
    | (with_reducible apply Keeps.fst (e := by with_reducible assumption))
    | (with_reducible apply Keeps.snd (e := by with_reducible assumption))
    | (with_reducible apply Keeps.fst_eq (e := by with_reducible assumption))
    | (with_reducible apply Keeps.snd_eq (e := by with_reducible assumption)) | dsimp -zeta only
    | with_reducible apply Keeps.upd)

theorem overdraw_keeps {s₀ s : State} (h : Keeps s₀ s) {h : Nat} {ma : Nat} :
    Keeps s₀ (overdraw s h ma) := by
  unfold overdraw
  repeat' (first
    | with_reducible assumption | (unfold x; clear x)
    | (extract_lets +onlyGivenNames x; first | (refine Keeps.bind (s := s₀) (x := x) ?_ ?_; intro _; clear_value x; revert x; intros) | (clear_value x; revert x; intros))
    | split | with_reducible apply emberCode_keeps | with_reducible apply wr_keeps | with_reducible apply lowerStep_keeps
    | dsimp -zeta only | with_reducible apply Keeps.upd)

theorem takeInput_keeps {s₀ s : State} (h : Keeps s₀ s) {x : Option Nat} :
    Keeps s₀ (takeInput s x) := by
  unfold takeInput
  repeat' (first
    | with_reducible assumption | (unfold x; clear x)
    | (extract_lets +onlyGivenNames x; first | (refine Keeps.bind (s := s₀) (x := x) ?_ ?_; intro _; clear_value x; revert x; intros) | (clear_value x; revert x; intros))
    | split | with_reducible apply wr_keeps | with_reducible apply emberCode_keeps
    | (with_reducible apply Keeps.fst (e := by with_reducible assumption))
    | (with_reducible apply Keeps.snd (e := by with_reducible assumption))
    | (with_reducible apply Keeps.fst_eq (e := by with_reducible assumption))
    | (with_reducible apply Keeps.snd_eq (e := by with_reducible assumption)) | with_reducible apply Keeps.upd)

theorem takeRail_keeps {s₀ s : State} (h : Keeps s₀ s) {x : Option Nat} {reg ceil event : Fld} {atCeil : Bool} :
    Keeps s₀ (takeRail s x reg ceil event atCeil) := by
  unfold takeRail
  repeat' (first
    | with_reducible assumption | (unfold x; clear x)
    | (extract_lets +onlyGivenNames x; first | (refine Keeps.bind (s := s₀) (x := x) ?_ ?_; intro _; clear_value x; revert x; intros) | (clear_value x; revert x; intros))
    | split | with_reducible apply wr_keeps | with_reducible apply emberCode_keeps
    | (with_reducible apply Keeps.fst (e := by with_reducible assumption))
    | (with_reducible apply Keeps.snd (e := by with_reducible assumption))
    | (with_reducible apply Keeps.fst_eq (e := by with_reducible assumption))
    | (with_reducible apply Keeps.snd_eq (e := by with_reducible assumption)) | with_reducible apply Keeps.upd)

theorem takeGddr_keeps {s₀ s : State} (h : Keeps s₀ s) {xs : List (Option Nat)} :
    Keeps s₀ (takeGddr s xs) := by
  unfold takeGddr
  repeat' (first
    | with_reducible assumption | (unfold x; clear x)
    | (extract_lets +onlyGivenNames x; first | (refine Keeps.bind (s := s₀) (x := x) ?_ ?_; intro _; clear_value x; revert x; intros) | (clear_value x; revert x; intros))
    | split | with_reducible apply emberCode_keeps | with_reducible apply wr_keeps
    | (with_reducible apply each_keeps; intro _ _ _) | (with_reducible apply Keeps.fst (e := by with_reducible assumption))
    | (with_reducible apply Keeps.snd (e := by with_reducible assumption))
    | (with_reducible apply Keeps.fst_eq (e := by with_reducible assumption))
    | (with_reducible apply Keeps.snd_eq (e := by with_reducible assumption)) | dsimp -zeta only
    | with_reducible apply Keeps.upd)

theorem execSensorReading_keeps {s₀ s : State} (h : Keeps s₀ s) {r : Sensors} :
    KeepsR s₀ (execSensorReading r s) := by
  unfold execSensorReading
  repeat' (first
    | with_reducible assumption | (unfold x; clear x)
    | (extract_lets +onlyGivenNames x; first | (refine Keeps.bind (s := s₀) (x := x) ?_ ?_; intro _; clear_value x; revert x; intros) | (clear_value x; revert x; intros))
    | split | with_reducible apply KeepsR.next | with_reducible apply takeTemps_keeps
    | with_reducible apply failSensors_keeps | with_reducible apply overdraw_keeps | with_reducible apply takeInput_keeps
    | with_reducible apply takeRail_keeps | with_reducible apply computeCeil_keeps | with_reducible apply takeGddr_keeps
    | with_reducible apply limitEvent_keeps | with_reducible apply lowerStep_keeps | with_reducible apply seekStep_keeps
    | (with_reducible apply each_keeps; intro _ _ _) | dsimp -zeta only)

end Sys2Proof.Machine
end

