-- ==== Sys2Proof/Laws/Keeps/Observe.lean ====
section
/-! SUPPORT. What the operations of Machine/Observe.lean keep (`Keeps`). -/

namespace Sys2Proof.Machine

theorem emberCtl_keeps {s₀ s : State} (h : Keeps s₀ s) {v : Nat} :
    Keeps s₀ (emberCtl s v) := by
  unfold emberCtl
  repeat' (first
    | with_reducible assumption | split | with_reducible apply wr_keeps | with_reducible apply emberUnfreeze_keeps)

theorem execEmberFreeze_keeps {s₀ s : State} (h : Keeps s₀ s) {src : Src} :
    KeepsR s₀ (execEmberFreeze src s) := by
  unfold execEmberFreeze
  repeat' (first
    | with_reducible assumption | split | with_reducible apply KeepsR.next | with_reducible apply emberCtl_keeps)

theorem execEmberUnfreeze_keeps {s₀ s : State} (h : Keeps s₀ s) {src : Src} :
    KeepsR s₀ (execEmberUnfreeze src s) := by
  unfold execEmberUnfreeze
  repeat' (first
    | with_reducible assumption | split | with_reducible apply KeepsR.next | with_reducible apply emberCtl_keeps)

theorem execPaceRingStep_keeps {s₀ s : State} (h : Keeps s₀ s) {h : Fin 16} :
    KeepsR s₀ (execPaceRingStep h s) := by
  unfold execPaceRingStep
  repeat' (first
    | with_reducible assumption | split | with_reducible apply KeepsR.next | with_reducible apply cntHearth_keeps)

theorem resumeLink_keeps {s₀ s : State} (h : Keeps s₀ s) {l : Nat} :
    Keeps s₀ (resumeLink s l) := by
  unfold resumeLink
  repeat' (first
    | with_reducible assumption | (unfold x; clear x)
    | (extract_lets +onlyGivenNames x; first | (refine Keeps.bind (s := s₀) (x := x) ?_ ?_; intro _; clear_value x; revert x; intros) | (clear_value x; revert x; intros))
    | split | with_reducible apply setLink_keeps | with_reducible apply processFrame_keeps
    | with_reducible apply sendMark_keeps | with_reducible apply linkGo_keeps
    | (with_reducible apply each_keeps; intro _ _ _) | dsimp -zeta only | with_reducible apply Keeps.upd)

theorem resume_keeps {s₀ s : State} (h : Keeps s₀ s)  :
    Keeps s₀ (resume s) := by
  unfold resume
  repeat' (first
    | with_reducible assumption | (unfold x; clear x)
    | (extract_lets +onlyGivenNames x; first | (refine Keeps.bind (s := s₀) (x := x) ?_ ?_; intro _; clear_value x; revert x; intros) | (clear_value x; revert x; intros))
    | with_reducible apply wr_keeps | with_reducible apply emberUnfreeze_keeps | with_reducible apply resumeLink_keeps
    | with_reducible apply flushHeld_keeps | with_reducible apply flushBar4_keeps | with_reducible apply finishCancel_keeps
    | with_reducible apply schedule_keeps | (with_reducible apply each_keeps; intro _ _ _) | dsimp -zeta only
    | with_reducible apply Keeps.upd)

theorem execResume_keeps {s₀ s : State} (h : Keeps s₀ s) {src : Src} :
    KeepsR s₀ (execResume src s) := by
  unfold execResume
  repeat' (first
    | with_reducible assumption | split | with_reducible apply KeepsR.next | with_reducible apply cfgErr_keeps
    | with_reducible apply resume_keeps)

theorem debugWord_keeps {s₀ s : State} (h : Keeps s₀ s) {u space i : Nat} :
    Keeps s₀ (debugWord s u space i).1 := by
  unfold debugWord
  dsimp only
  repeat' (first
    | with_reducible assumption | (unfold x; clear x)
    | (extract_lets +onlyGivenNames x; first | (refine Keeps.bind (s := s₀) (x := x) ?_ ?_; intro _; clear_value x; revert x; intros) | (clear_value x; revert x; intros))
    | split | with_reducible apply takeFree_keeps | (with_reducible apply Keeps.fst (e := by with_reducible assumption))
    | (with_reducible apply Keeps.snd (e := by with_reducible assumption))
    | (with_reducible apply Keeps.fst_eq (e := by with_reducible assumption))
    | (with_reducible apply Keeps.snd_eq (e := by with_reducible assumption)) | dsimp -zeta only
    | with_reducible apply Keeps.upd)

theorem debugRead_keeps {s₀ s : State} (h : Keeps s₀ s) : Keeps s₀ (debugRead s).1 := by
  unfold debugRead
  lift_lets
  intro r
  have hr : Keeps s₀ r.1 := by
    unfold r
    split
    · exact debugWord_keeps h
    · exact h
  clear_value r
  split
  · exact wr_keeps hr
  · exact wr_keeps hr

theorem execDebugRead_keeps {s₀ s : State} (h : Keeps s₀ s) {src : Src} : KeepsR s₀ (execDebugRead src s) := by
  unfold execDebugRead
  split
  · exact KeepsR.next h
  · exact KeepsR.next (emit_keeps (debugRead_keeps h))

end Sys2Proof.Machine
end

