-- ==== Sys2Proof/Laws/Keeps/Registers.lean ====
section
/-! SUPPORT. What the operations of Machine/Registers.lean keep (`Keeps`). -/

namespace Sys2Proof.Machine

theorem regRead_keeps {s₀ s : State} (h : Keeps s₀ s) {off : Nat} :
    Keeps s₀ (regRead s off).1 := by
  unfold regRead
  repeat' (first
    | with_reducible assumption | (unfold x; clear x)
    | (extract_lets +onlyGivenNames x; first | (refine Keeps.bind (s := s₀) (x := x) ?_ ?_; intro _; clear_value x; revert x; intros) | (clear_value x; revert x; intros))
    | split | with_reducible apply debugRead_keeps | with_reducible apply setReg_keeps
    | (with_reducible apply Keeps.fst (e := by with_reducible assumption))
    | (with_reducible apply Keeps.snd (e := by with_reducible assumption))
    | (with_reducible apply Keeps.fst_eq (e := by with_reducible assumption))
    | (with_reducible apply Keeps.snd_eq (e := by with_reducible assumption)) | dsimp -zeta only
    | with_reducible apply Keeps.upd)

theorem execReadClear_keeps {s₀ s : State} (h : Keeps s₀ s) {src : Src} {off : Nat} : KeepsR s₀ (execReadClear src off s) := by
  unfold execReadClear
  split
  · exact KeepsR.next h
  · dsimp only
    split
    · exact KeepsR.next h
    · exact KeepsR.next (emit_keeps (regRead_keeps h))

theorem plainWrite_keeps {s₀ s : State} (h : Keeps s₀ s) {g : RegGroup} {off : Nat} {v : BitVec 64} :
    Keeps s₀ (plainWrite s g off v) := by
  unfold plainWrite
  repeat' (first
    | with_reducible assumption | with_reducible apply setReg_keeps)

theorem after_keeps {s₀ s : State} {r : Res} (hr : KeepsR s₀ r) : Keeps s₀ (after s r) := by
  obtain ⟨t, rfl, ht⟩ := hr
  exact ht

theorem funcCtlWrite_keeps {s₀ s : State} (h : Keeps s₀ s) {src : Src} {v : Nat} :
    Keeps s₀ (funcCtlWrite s src v) := by
  unfold funcCtlWrite
  repeat' (first
    | with_reducible assumption | (unfold x; clear x)
    | (extract_lets +onlyGivenNames x; first | (refine Keeps.bind (s := s₀) (x := x) ?_ ?_; intro _; clear_value x; revert x; intros) | (clear_value x; revert x; intros))
    | split | with_reducible apply cfgErr_keeps | with_reducible apply funcStop_keeps
    | with_reducible apply funcRestart_keeps | (with_reducible apply Keeps.fst (e := by with_reducible assumption))
    | (with_reducible apply Keeps.snd (e := by with_reducible assumption))
    | (with_reducible apply Keeps.fst_eq (e := by with_reducible assumption))
    | (with_reducible apply Keeps.snd_eq (e := by with_reducible assumption)) | with_reducible apply Keeps.upd)

theorem restoreWrite_keeps {s₀ s : State} (h : Keeps s₀ s) {src : Src} {v : BitVec 64} : Keeps s₀ (restoreWrite s src v) := by
  unfold restoreWrite
  dsimp only
  split
  · exact after_keeps (execRollback_keeps h)
  split
  · exact after_keeps (execFill_keeps h)
  split
  · exact h
  · exact after_keeps (restoreRow_keeps (body := id) (fun _ k => k) h)

theorem syncTest_keeps {s₀ s : State} (h : Keeps s₀ s) {l : Nat} :
    Keeps s₀ (syncTest s l) := by
  unfold syncTest
  repeat' (first
    | with_reducible assumption | (unfold x; clear x)
    | (extract_lets +onlyGivenNames x; first | (refine Keeps.bind (s := s₀) (x := x) ?_ ?_; intro _; clear_value x; revert x; intros) | (clear_value x; revert x; intros))
    | split | with_reducible apply wr_keeps | dsimp -zeta only)

theorem laneTestWrite_keeps {s₀ s : State} (h : Keeps s₀ s) {src : Src} {g : RegGroup} {n off : Nat} {v : BitVec 64} :
    Keeps s₀ (laneTestWrite s src g n off v) := by
  unfold laneTestWrite
  repeat' (first
    | with_reducible assumption | (unfold x; clear x)
    | (extract_lets +onlyGivenNames x; first | (refine Keeps.bind (s := s₀) (x := x) ?_ ?_; intro _; clear_value x; revert x; intros) | (clear_value x; revert x; intros))
    | split | with_reducible apply cfgErr_keeps | with_reducible apply plainWrite_keeps | with_reducible apply wr_keeps
    | with_reducible apply after_keeps | with_reducible apply execLaneTestClear_keeps | with_reducible apply syncTest_keeps
    | with_reducible apply Keeps.upd)

theorem actWrite_keeps {s₀ s : State} (h : Keeps s₀ s) {src : Src} {g : RegGroup} {i j off : Nat} {v : BitVec 64} :
    Keeps s₀ (actWrite s src g i j off v) := by
  unfold actWrite
  dsimp only
  repeat' (first
    | with_reducible assumption | (unfold x; clear x)
    | (extract_lets +onlyGivenNames x; first | (refine Keeps.bind (s := s₀) (x := x) ?_ ?_; intro _; clear_value x; revert x; intros) | (clear_value x; revert x; intros))
    | split | with_reducible apply cfgErr_keeps | with_reducible apply funcCtlWrite_keeps
    | with_reducible apply cancelTicket_keeps | with_reducible apply devCtlWrite_keeps | with_reducible apply after_keeps
    | with_reducible apply execMeTest_keeps | with_reducible apply bankHandover_keeps
    | with_reducible apply plainWrite_keeps | with_reducible apply giveLead_keeps | with_reducible apply ringBaseWrite_keeps
    | with_reducible apply ringCtlWrite_keeps | with_reducible apply ringBusy_keeps | with_reducible apply irqClear_keeps
    | with_reducible apply laneTestWrite_keeps | with_reducible apply execTwinReturn_keeps
    | with_reducible apply execGlobalStop_keeps | with_reducible apply execResume_keeps
    | with_reducible apply restoreWrite_keeps | with_reducible apply emberCtl_keeps
    | (with_reducible apply Keeps.fst (e := by with_reducible assumption))
    | (with_reducible apply Keeps.snd (e := by with_reducible assumption))
    | (with_reducible apply Keeps.fst_eq (e := by with_reducible assumption))
    | (with_reducible apply Keeps.snd_eq (e := by with_reducible assumption)) | dsimp -zeta only
    | with_reducible apply Keeps.upd)

theorem regWrite_keeps {s₀ s : State} (h : Keeps s₀ s) {src : Src} {off : Nat} {v : BitVec 64} :
    Keeps s₀ (regWrite s src off v) := by
  unfold regWrite
  repeat' (first
    | with_reducible assumption | (unfold x; clear x)
    | (extract_lets +onlyGivenNames x; first | (refine Keeps.bind (s := s₀) (x := x) ?_ ?_; intro _; clear_value x; revert x; intros) | (clear_value x; revert x; intros))
    | split | with_reducible apply actWrite_keeps | with_reducible apply configWrite_keeps
    | (with_reducible apply Keeps.fst (e := by with_reducible assumption))
    | (with_reducible apply Keeps.snd (e := by with_reducible assumption))
    | (with_reducible apply Keeps.fst_eq (e := by with_reducible assumption))
    | (with_reducible apply Keeps.snd_eq (e := by with_reducible assumption)) | dsimp -zeta only
    | with_reducible apply Keeps.upd)

theorem execRegisterWrite_keeps {s₀ s : State} (h : Keeps s₀ s) {src : Src} {off len : Nat} {v : BitVec 64} :
    KeepsR s₀ (execRegisterWrite src off len v s) := by
  unfold execRegisterWrite
  repeat' (first
    | with_reducible assumption | (unfold x; clear x)
    | (extract_lets +onlyGivenNames x; first | (refine Keeps.bind (s := s₀) (x := x) ?_ ?_; intro _; clear_value x; revert x; intros) | (clear_value x; revert x; intros))
    | split | with_reducible apply KeepsR.next | with_reducible apply hifErr_keeps | with_reducible apply regWrite_keeps
    | (with_reducible apply Keeps.fst (e := by with_reducible assumption))
    | (with_reducible apply Keeps.snd (e := by with_reducible assumption))
    | (with_reducible apply Keeps.fst_eq (e := by with_reducible assumption))
    | (with_reducible apply Keeps.snd_eq (e := by with_reducible assumption)) | with_reducible apply Keeps.upd)

theorem execSregr_keeps {s₀ s : State} (h : Keeps s₀ s) {core : Core} {rd ra : Fin 32} : KeepsR s₀ (execSregr core rd ra s) := by
  refine awlStep_keeps (fun s c hs => ?_) h
  dsimp only
  split
  · exact AwlKeeps.fault hs
  · exact AwlKeeps.done (regRead_keeps hs)

theorem execSregw_keeps {s₀ s : State} (h : Keeps s₀ s) {core : Core} {ra rb : Fin 32} :
    KeepsR s₀ (execSregw core ra rb s) := by
  unfold execSregw
  repeat' (first
    | with_reducible assumption | (unfold x; clear x)
    | (extract_lets +onlyGivenNames x; first | (refine Keeps.bind (s := s₀) (x := x) ?_ ?_; intro _; clear_value x; revert x; intros) | (clear_value x; revert x; intros))
    | split | with_reducible apply KeepsR.next | (with_reducible apply awlStep_keeps; intro _ _ _)
    | with_reducible apply regWrite_keeps | with_reducible apply AwlKeeps.done | with_reducible apply AwlKeeps.fault
    | with_reducible apply AwlKeeps.wait | with_reducible apply AwlKeeps.stall | with_reducible apply AwlKeeps.halt
    | dsimp -zeta only)

end Sys2Proof.Machine
end

