-- ==== Sys2Proof/Laws/Keeps/ImageCheck.lean ====
section
/-! SUPPORT. What the operations of Machine/ImageCheck.lean keep (`Keeps`). -/

namespace Sys2Proof.Machine

theorem markBad_keeps {s₀ s : State} (h : Keeps s₀ s) {k : Nat} :
    Keeps s₀ (markBad s k) := by
  unfold markBad
  repeat' (first
    | with_reducible assumption | with_reducible apply flashWrite_keeps)

end Sys2Proof.Machine
end

