-- ==== Sys2Proof/Laws/Keeps/Kindling.lean ====
section
/-! SUPPORT. What the operations of Machine/Kindling.lean keep (`Keeps`). -/

namespace Sys2Proof.Machine

theorem fresh_keeps {s₀ s : State} (h : Keeps s₀ s) {keep : Nat → Bool} : Keeps s₀ (fresh s keep) :=
  h.trans ⟨rfl, Nat.le_add_right _ _, List.prefix_refl _, rfl, Nat.le_refl _,
    fun w => Memory.loseNear_wf (Memory.clear_wf w _ _) _⟩

theorem raiseCounter_keeps {s₀ s : State} (h : Keeps s₀ s) {n : Nat} (hn : s.fuses.counter ≤ n) :
    Keeps s₀ { s with fuses := { s.fuses with counter := n } } :=
  h.trans ⟨rfl, Nat.le_refl _, List.prefix_refl _, rfl, hn, id⟩


theorem cutBlow_keeps {s₀ s : State} (h : Keeps s₀ s) : Keeps s₀ (cutBlow s) := by
  unfold cutBlow
  split
  · split
    · exact raiseCounter_keeps (takeFree_keeps h) (Nat.le_add_right _ _)
    · exact h
  · exact h

theorem enterAux_keeps {s₀ s : State} (h : Keeps s₀ s)  :
    Keeps s₀ (enterAux s) := by
  unfold enterAux
  repeat' (first
    | with_reducible assumption | (unfold x; clear x)
    | (extract_lets +onlyGivenNames x; first | (refine Keeps.bind (s := s₀) (x := x) ?_ ?_; intro _; clear_value x; revert x; intros) | (clear_value x; revert x; intros))
    | with_reducible apply fresh_keeps | with_reducible apply cutBlow_keeps | with_reducible apply wr_keeps
    | dsimp -zeta only | with_reducible apply Keeps.upd)

theorem kdlFail_keeps {s₀ s : State} (h : Keeps s₀ s) {stage code : Nat} :
    Keeps s₀ (kdlFail s stage code) := by
  unfold kdlFail
  repeat' (first
    | with_reducible assumption | (unfold x; clear x)
    | (extract_lets +onlyGivenNames x; first | (refine Keeps.bind (s := s₀) (x := x) ?_ ?_; intro _; clear_value x; revert x; intros) | (clear_value x; revert x; intros))
    | with_reducible apply wr_keeps | with_reducible apply raiseVec_keeps)

theorem mapSpare_keeps {s₀ s : State} (h : Keeps s₀ s) {h : Nat} :
    Keeps s₀ (mapSpare s h) := by
  unfold mapSpare
  repeat' (first
    | with_reducible assumption | (unfold x; clear x)
    | (extract_lets +onlyGivenNames x; first | (refine Keeps.bind (s := s₀) (x := x) ?_ ?_; intro _; clear_value x; revert x; intros) | (clear_value x; revert x; intros))
    | split | with_reducible apply wr_keeps | (with_reducible apply each_keeps; intro _ _ _)
    | (with_reducible apply Keeps.fst (e := by with_reducible assumption))
    | (with_reducible apply Keeps.snd (e := by with_reducible assumption))
    | (with_reducible apply Keeps.fst_eq (e := by with_reducible assumption))
    | (with_reducible apply Keeps.snd_eq (e := by with_reducible assumption)) | dsimp -zeta only
    | with_reducible apply Keeps.upd)

theorem takeSlot_keeps {s₀ s : State} (h : Keeps s₀ s) {k : Nat} {rest : List Nat} :
    Keeps s₀ (takeSlot s k rest) := by
  unfold takeSlot
  repeat' (first
    | with_reducible assumption | (unfold x; clear x)
    | (extract_lets +onlyGivenNames x; first | (refine Keeps.bind (s := s₀) (x := x) ?_ ?_; intro _; clear_value x; revert x; intros) | (clear_value x; revert x; intros))
    | with_reducible apply wr_keeps | with_reducible apply mapSpare_keeps | (with_reducible apply each_keeps; intro _ _ _)
    | (with_reducible apply Keeps.foldl; intro _ _ _) | (with_reducible apply Keeps.foldl_fst; intro _ _ _)
    | (with_reducible apply Keeps.foldl_snd; intro _ _ _) | dsimp -zeta only | with_reducible apply Keeps.upd)

theorem trySlots_keeps {s₀ s : State} (h : Keeps s₀ s) {ks : List Nat} {stage : Nat} : Keeps s₀ (trySlots s ks stage) := by
  induction ks generalizing s stage with
  | nil => unfold trySlots; with_reducible apply kdlFail_keeps; assumption
  | cons k ks ih =>
    unfold trySlots
    repeat' (first
      | with_reducible assumption | (unfold x; clear x)
      | (extract_lets +onlyGivenNames x; first | (refine Keeps.bind (s := s₀) (x := x) ?_ ?_; intro _; clear_value x; revert x; intros) | (clear_value x; revert x; intros))
      | split | with_reducible apply ih | with_reducible apply kdlFail_keeps | with_reducible apply takeSlot_keeps
      | with_reducible apply wr_keeps | with_reducible apply markBad_keeps | dsimp -zeta only)

theorem kindle_keeps {s₀ s : State} (h : Keeps s₀ s) {fuseOk : Bool} :
    Keeps s₀ (kindle s fuseOk) := by
  unfold kindle
  repeat' (first
    | with_reducible assumption | (unfold x; clear x)
    | (extract_lets +onlyGivenNames x; first | (refine Keeps.bind (s := s₀) (x := x) ?_ ?_; intro _; clear_value x; revert x; intros) | (clear_value x; revert x; intros))
    | split | with_reducible apply wr_keeps | with_reducible apply kdlFail_keeps | with_reducible apply trySlots_keeps
    | (with_reducible apply Keeps.fst (e := by with_reducible assumption))
    | (with_reducible apply Keeps.snd (e := by with_reducible assumption))
    | (with_reducible apply Keeps.fst_eq (e := by with_reducible assumption))
    | (with_reducible apply Keeps.snd_eq (e := by with_reducible assumption)) | with_reducible apply Keeps.upd)

theorem identityRegs_keeps {s₀ s : State} (h : Keeps s₀ s)  :
    Keeps s₀ (identityRegs s) := by
  unfold identityRegs
  repeat' (first
    | with_reducible assumption | (unfold x; clear x)
    | (extract_lets +onlyGivenNames x; first | (refine Keeps.bind (s := s₀) (x := x) ?_ ?_; intro _; clear_value x; revert x; intros) | (clear_value x; revert x; intros))
    | split | with_reducible apply wr_keeps | (with_reducible apply Keeps.fst (e := by with_reducible assumption))
    | (with_reducible apply Keeps.snd (e := by with_reducible assumption))
    | (with_reducible apply Keeps.fst_eq (e := by with_reducible assumption))
    | (with_reducible apply Keeps.snd_eq (e := by with_reducible assumption)) | with_reducible apply Keeps.upd)

theorem loadRegs_keeps {s₀ s : State} (h : Keeps s₀ s)  :
    Keeps s₀ (loadRegs s) := by
  unfold loadRegs
  repeat' (first
    | with_reducible assumption | with_reducible apply setReg_keeps | (with_reducible apply each_keeps; intro _ _ _)
    | dsimp -zeta only)

theorem loadRings_keeps {s₀ s : State} (h : Keeps s₀ s)  :
    Keeps s₀ (loadRings s) := by
  unfold loadRings
  repeat' (first
    | with_reducible assumption | (unfold x; clear x)
    | (extract_lets +onlyGivenNames x; first | (refine Keeps.bind (s := s₀) (x := x) ?_ ?_; intro _; clear_value x; revert x; intros) | (clear_value x; revert x; intros))
    | split | with_reducible apply ringCtlWrite_keeps | (with_reducible apply each_keeps; intro _ _ _)
    | (with_reducible apply Keeps.fst (e := by with_reducible assumption))
    | (with_reducible apply Keeps.snd (e := by with_reducible assumption))
    | (with_reducible apply Keeps.fst_eq (e := by with_reducible assumption))
    | (with_reducible apply Keeps.snd_eq (e := by with_reducible assumption)) | dsimp -zeta only
    | with_reducible apply Keeps.upd)

theorem withImage_keeps {s₀ s : State} {f : State → State} (hf : ∀ s, Keeps s₀ s → Keeps s₀ (f s)) (h : Keeps s₀ s) :
    Keeps s₀ (withImage s f) := by
  unfold withImage
  exact each_keeps (fun _ _ k => setReg_keeps k) (hf _ (loadRegs_keeps (identityRegs_keeps h)))

theorem kindlePcie_keeps {s₀ s : State} (h : Keeps s₀ s) {p : Nat} {t : PcieTrain} :
    Keeps s₀ (kindlePcie s p t) := by
  unfold kindlePcie
  repeat' (first
    | with_reducible assumption | (unfold x; clear x)
    | (extract_lets +onlyGivenNames x; first | (refine Keeps.bind (s := s₀) (x := x) ?_ ?_; intro _; clear_value x; revert x; intros) | (clear_value x; revert x; intros))
    | split | (with_reducible apply withImage_keeps; intro _ _) | with_reducible apply pcieTrained_keeps
    | with_reducible apply msixRelease_keeps | dsimp -zeta only)

theorem kindleCxl_keeps {s₀ s : State} (h : Keeps s₀ s) {n : Nat} {t : CxlTrain} :
    Keeps s₀ (kindleCxl s n t) := by
  unfold kindleCxl
  repeat' (first
    | with_reducible assumption | (unfold x; clear x)
    | (extract_lets +onlyGivenNames x; first | (refine Keeps.bind (s := s₀) (x := x) ?_ ?_; intro _; clear_value x; revert x; intros) | (clear_value x; revert x; intros))
    | split | (with_reducible apply withImage_keeps; intro _ _) | with_reducible apply cxlUp_keeps
    | with_reducible apply cxlFailed_keeps | (with_reducible apply Keeps.fst (e := by with_reducible assumption))
    | (with_reducible apply Keeps.snd (e := by with_reducible assumption))
    | (with_reducible apply Keeps.fst_eq (e := by with_reducible assumption))
    | (with_reducible apply Keeps.snd_eq (e := by with_reducible assumption)) | dsimp -zeta only
    | with_reducible apply Keeps.upd)

theorem clearBanks_keeps {s₀ s : State} (h : Keeps s₀ s) {spare : Nat} : Keeps s₀ (clearBanks s spare) := by
  unfold clearBanks
  refine wr_keeps (each_keeps (fun _ _ k => wr_keeps k) ?_)
  exact h.trans ⟨rfl, Nat.le_refl _, List.prefix_refl _, rfl, Nat.le_refl _, fun w => Memory.clear_wf w _ _⟩

theorem applyImage_keeps {s₀ s : State} (h : Keeps s₀ s) {i : Image} :
    Keeps s₀ (applyImage s i) := by
  unfold applyImage
  repeat' (first
    | with_reducible assumption | (unfold x; clear x)
    | (extract_lets +onlyGivenNames x; first | (refine Keeps.bind (s := s₀) (x := x) ?_ ?_; intro _; clear_value x; revert x; intros) | (clear_value x; revert x; intros))
    | split | with_reducible apply loadRings_keeps | with_reducible apply loadRegs_keeps
    | with_reducible apply identityRegs_keeps | with_reducible apply overwrite_keeps | with_reducible apply wr_keeps
    | with_reducible apply computeCeil_keeps | with_reducible apply clearHalves_keeps
    | (with_reducible apply each_keeps; intro _ _ _) | dsimp -zeta only)

theorem runLink_keeps {s₀ s : State} (h : Keeps s₀ s) {l : Nat} :
    Keeps s₀ (runLink s l) := by
  unfold runLink
  repeat' (first
    | with_reducible assumption | (unfold x; clear x)
    | (extract_lets +onlyGivenNames x; first | (refine Keeps.bind (s := s₀) (x := x) ?_ ?_; intro _; clear_value x; revert x; intros) | (clear_value x; revert x; intros))
    | with_reducible apply linkGo_keeps | with_reducible apply setLink_keeps | with_reducible apply processFrame_keeps
    | (with_reducible apply each_keeps; intro _ _ _) | dsimp -zeta only | with_reducible apply Keeps.upd)

theorem startFuncs_keeps {s₀ s : State} (h : Keeps s₀ s)  :
    Keeps s₀ (startFuncs s) := by
  unfold startFuncs
  repeat' (first
    | with_reducible assumption | (unfold x; clear x)
    | (extract_lets +onlyGivenNames x; first | (refine Keeps.bind (s := s₀) (x := x) ?_ ?_; intro _; clear_value x; revert x; intros) | (clear_value x; revert x; intros))
    | split | with_reducible apply setFn_keeps | with_reducible apply wr_keeps | with_reducible apply wakeUnits_keeps
    | (with_reducible apply each_keeps; intro _ _ _) | dsimp -zeta only)

theorem advanceFuses_keeps {s₀ s : State} (h : Keeps s₀ s) {i : Image} : Keeps s₀ (advanceFuses s i) := by
  unfold advanceFuses
  split
  · next hc =>
    refine wr_keeps (raiseCounter_keeps h ?_)
    simp only [blows, Bool.and_eq_true, decide_eq_true_eq] at hc
    omega
  · exact h

theorem enterRun_keeps {s₀ s : State} (h : Keeps s₀ s) {i : Image} :
    Keeps s₀ (enterRun s i) := by
  unfold enterRun
  repeat' (first
    | with_reducible assumption | (unfold x; clear x)
    | (extract_lets +onlyGivenNames x; first | (refine Keeps.bind (s := s₀) (x := x) ?_ ?_; intro _; clear_value x; revert x; intros) | (clear_value x; revert x; intros))
    | with_reducible apply advanceFuses_keeps | with_reducible apply wr_keeps | with_reducible apply raiseVec_keeps
    | with_reducible apply syncCodec_keeps | with_reducible apply beginPolicy_keeps | with_reducible apply runLink_keeps
    | (with_reducible apply each_keeps; intro _ _ _) | with_reducible apply Keeps.upd)

theorem finishKindling_keeps {s₀ s : State} (h : Keeps s₀ s)  :
    Keeps s₀ (finishKindling s) := by
  unfold finishKindling
  repeat' (first
    | with_reducible assumption | (unfold x; clear x)
    | (extract_lets +onlyGivenNames x; first | (refine Keeps.bind (s := s₀) (x := x) ?_ ?_; intro _; clear_value x; revert x; intros) | (clear_value x; revert x; intros))
    | split | with_reducible apply wr_keeps | with_reducible apply kdlFail_keeps | with_reducible apply startFuncs_keeps
    | with_reducible apply applyImage_keeps | with_reducible apply enterRun_keeps
    | (with_reducible apply Keeps.fst (e := by with_reducible assumption))
    | (with_reducible apply Keeps.snd (e := by with_reducible assumption))
    | (with_reducible apply Keeps.fst_eq (e := by with_reducible assumption))
    | (with_reducible apply Keeps.snd_eq (e := by with_reducible assumption)) | with_reducible apply Keeps.upd)

theorem execKindleStageDone_keeps {s₀ s : State} (h : Keeps s₀ s) {r : StageResult} :
    KeepsR s₀ (execKindleStageDone r s) := by
  unfold execKindleStageDone
  repeat' (first
    | with_reducible assumption | (unfold x; clear x)
    | (extract_lets +onlyGivenNames x; first | (refine Keeps.bind (s := s₀) (x := x) ?_ ?_; intro _; clear_value x; revert x; intros) | (clear_value x; revert x; intros))
    | split | with_reducible apply KeepsR.next | with_reducible apply wr_keeps | with_reducible apply kdlFail_keeps
    | with_reducible apply kindlePcie_keeps | with_reducible apply kindleCxl_keeps
    | (with_reducible apply withImage_keeps; intro _ _) | with_reducible apply bringUp_keeps
    | with_reducible apply finishKindling_keeps | with_reducible apply clearBanks_keeps
    | with_reducible apply enterRun_keeps | (with_reducible apply each_keeps; intro _ _ _)
    | (with_reducible apply Keeps.fst (e := by with_reducible assumption))
    | (with_reducible apply Keeps.snd (e := by with_reducible assumption))
    | (with_reducible apply Keeps.fst_eq (e := by with_reducible assumption))
    | (with_reducible apply Keeps.snd_eq (e := by with_reducible assumption)) | dsimp -zeta only
    | with_reducible apply Keeps.upd)

theorem fixedRegs_keeps {s₀ s : State} (h : Keeps s₀ s)  :
    Keeps s₀ (fixedRegs s) := by
  unfold fixedRegs
  repeat' (first
    | with_reducible assumption | with_reducible apply wr_keeps)

theorem execAuxTurnOn_keeps {s₀ s : State} (h : Keeps s₀ s)  :
    KeepsR s₀ (execAuxTurnOn s) := by
  unfold execAuxTurnOn
  repeat' (first
    | with_reducible assumption | (unfold x; clear x)
    | (extract_lets +onlyGivenNames x; first | (refine Keeps.bind (s := s₀) (x := x) ?_ ?_; intro _; clear_value x; revert x; intros) | (clear_value x; revert x; intros))
    | split | with_reducible apply KeepsR.next | with_reducible apply wr_keeps | with_reducible apply fixedRegs_keeps
    | dsimp -zeta only | with_reducible apply Keeps.upd)

theorem execAuxTurnOff_keeps {s₀ s : State} (h : Keeps s₀ s)  :
    KeepsR s₀ (execAuxTurnOff s) := by
  unfold execAuxTurnOff
  repeat' (first
    | with_reducible assumption | (unfold x; clear x)
    | (extract_lets +onlyGivenNames x; first | (refine Keeps.bind (s := s₀) (x := x) ?_ ?_; intro _; clear_value x; revert x; intros) | (clear_value x; revert x; intros))
    | split | with_reducible apply KeepsR.next | with_reducible apply fresh_keeps | with_reducible apply cutBlow_keeps
    | dsimp -zeta only | with_reducible apply Keeps.upd)

theorem execMainInputValid_keeps {s₀ s : State} (h : Keeps s₀ s) {scanHold fuseOk : Bool} :
    KeepsR s₀ (execMainInputValid scanHold fuseOk s) := by
  unfold execMainInputValid
  repeat' (first
    | with_reducible assumption | (unfold x; clear x)
    | (extract_lets +onlyGivenNames x; first | (refine Keeps.bind (s := s₀) (x := x) ?_ ?_; intro _; clear_value x; revert x; intros) | (clear_value x; revert x; intros))
    | split | with_reducible apply KeepsR.next | with_reducible apply wr_keeps | with_reducible apply kindle_keeps
    | (with_reducible apply each_keeps; intro _ _ _) | dsimp -zeta only | with_reducible apply Keeps.upd)

theorem execMainInputInvalid_keeps {s₀ s : State} (h : Keeps s₀ s)  :
    KeepsR s₀ (execMainInputInvalid s) := by
  unfold execMainInputInvalid
  repeat' (first
    | with_reducible assumption | split | with_reducible apply KeepsR.next | with_reducible apply enterAux_keeps)

theorem execThermalTrip_keeps {s₀ s : State} (h : Keeps s₀ s)  :
    KeepsR s₀ (execThermalTrip s) := by
  unfold execThermalTrip
  repeat' (first
    | with_reducible assumption | (unfold x; clear x)
    | (extract_lets +onlyGivenNames x; first | (refine Keeps.bind (s := s₀) (x := x) ?_ ?_; intro _; clear_value x; revert x; intros) | (clear_value x; revert x; intros))
    | split | with_reducible apply KeepsR.next | with_reducible apply enterAux_keeps | with_reducible apply Keeps.upd)

theorem execRegulatorTrip_keeps {s₀ s : State} (h : Keeps s₀ s)  :
    KeepsR s₀ (execRegulatorTrip s) := by
  unfold execRegulatorTrip
  repeat' (first
    | with_reducible assumption | (unfold x; clear x)
    | (extract_lets +onlyGivenNames x; first | (refine Keeps.bind (s := s₀) (x := x) ?_ ?_; intro _; clear_value x; revert x; intros) | (clear_value x; revert x; intros))
    | split | with_reducible apply KeepsR.next | with_reducible apply enterAux_keeps | with_reducible apply Keeps.upd)

theorem execTripRelease_keeps {s₀ s : State} (h : Keeps s₀ s)  :
    KeepsR s₀ (execTripRelease s) := by
  unfold execTripRelease
  repeat' (first
    | with_reducible assumption | (unfold x; clear x)
    | (extract_lets +onlyGivenNames x; first | (refine Keeps.bind (s := s₀) (x := x) ?_ ?_; intro _; clear_value x; revert x; intros) | (clear_value x; revert x; intros))
    | split | with_reducible apply KeepsR.next | dsimp -zeta only | with_reducible apply Keeps.upd)

theorem rekindleState_keeps {s₀ s : State} (h : Keeps s₀ s)  :
    Keeps s₀ (rekindleState s) := by
  unfold rekindleState
  repeat' (first
    | with_reducible assumption | (unfold x; clear x)
    | (extract_lets +onlyGivenNames x; first | (refine Keeps.bind (s := s₀) (x := x) ?_ ?_; intro _; clear_value x; revert x; intros) | (clear_value x; revert x; intros))
    | split | with_reducible apply cutBlow_keeps | with_reducible apply emberUnfreeze_keeps
    | with_reducible apply fresh_keeps | with_reducible apply wr_keeps | (with_reducible apply each_keeps; intro _ _ _)
    | dsimp -zeta only | with_reducible apply Keeps.upd)

theorem rekindleRecords_keeps {s₀ s : State} (h : Keeps s₀ s)  :
    Keeps s₀ (rekindleRecords s) := by
  unfold rekindleRecords
  repeat' (first
    | with_reducible assumption | (unfold x; clear x)
    | (extract_lets +onlyGivenNames x; first | (refine Keeps.bind (s := s₀) (x := x) ?_ ?_; intro _; clear_value x; revert x; intros) | (clear_value x; revert x; intros))
    | with_reducible apply completeRecord_keeps | (with_reducible apply each_keeps; intro _ _ _) | dsimp -zeta only
    | with_reducible apply Keeps.upd)

theorem execRekindleEnter_keeps {s₀ s : State} (h : Keeps s₀ s) {fuseOk : Bool} :
    KeepsR s₀ (execRekindleEnter fuseOk s) := by
  unfold execRekindleEnter
  repeat' (first
    | with_reducible assumption | split | with_reducible apply KeepsR.next | with_reducible apply kindle_keeps
    | with_reducible apply rekindleState_keeps | with_reducible apply rekindleRecords_keeps)

end Sys2Proof.Machine
end

