-- ==== Sys2Proof/Laws/Keeps/Manage.lean ====
section
/-! SUPPORT. What the operations of Machine/Manage.lean keep (`Keeps`). -/

namespace Sys2Proof.Machine

theorem mgmtRow_keeps {s₀ s : State} {f : State → State} (hf : ∀ s, Keeps s₀ s → Keeps s₀ (f s)) (h : Keeps s₀ s) :
    KeepsR s₀ (mgmtRow s f) := by
  unfold mgmtRow
  refine KeepsR.next ?_
  split
  · exact hf _ h
  · exact h

theorem execEntdaa_keeps {s₀ s : State} (h : Keeps s₀ s) {addr : BitVec 7} :
    KeepsR s₀ (execEntdaa addr s) := by
  unfold execEntdaa
  repeat' (first
    | with_reducible assumption | with_reducible apply KeepsR.next | (with_reducible apply mgmtRow_keeps; intro _ _)
    | with_reducible apply wr_keeps | dsimp -zeta only)

theorem execSetEndpointId_keeps {s₀ s : State} (h : Keeps s₀ s) {eid : BitVec 8} :
    KeepsR s₀ (execSetEndpointId eid s) := by
  unfold execSetEndpointId
  repeat' (first
    | with_reducible assumption | with_reducible apply KeepsR.next | (with_reducible apply mgmtRow_keeps; intro _ _)
    | with_reducible apply wr_keeps | dsimp -zeta only)

theorem execMctpControlMessage_keeps {s₀ s : State} (h : Keeps s₀ s) {m : Bytes} :
    KeepsR s₀ (execMctpControlMessage m s) := by
  unfold execMctpControlMessage
  repeat' (first
    | with_reducible assumption | with_reducible apply KeepsR.next | (with_reducible apply mgmtRow_keeps; intro _ _)
    | with_reducible apply emit_keeps | dsimp -zeta only)

theorem execPldmMonitorRequest_keeps {s₀ s : State} (h : Keeps s₀ s) {m : Bytes} :
    KeepsR s₀ (execPldmMonitorRequest m s) := by
  unfold execPldmMonitorRequest
  repeat' (first
    | with_reducible assumption | split | with_reducible apply KeepsR.next | (with_reducible apply mgmtRow_keeps; intro _ _)
    | with_reducible apply emit_keeps | dsimp -zeta only)

theorem execUnitReport_keeps {s₀ s : State} (h : Keeps s₀ s) {f : BitVec 8} :
    KeepsR s₀ (execUnitReport f s) := by
  unfold execUnitReport
  dsimp only
  repeat' (first
    | with_reducible assumption | (unfold x; clear x)
    | (extract_lets +onlyGivenNames x; first | (refine Keeps.bind (s := s₀) (x := x) ?_ ?_; intro _; clear_value x; revert x; intros) | (clear_value x; revert x; intros))
    | split | with_reducible apply KeepsR.next | (with_reducible apply mgmtRow_keeps; intro _ _)
    | with_reducible apply refuse_keeps | with_reducible apply emit_keeps | dsimp -zeta only)

theorem updReply_keeps {s₀ s : State} (h : Keeps s₀ s) {ok : Bool} :
    Keeps s₀ (updReply s ok) := by
  unfold updReply
  repeat' (first
    | with_reducible assumption | split | with_reducible apply emit_keeps)

theorem execRequestUpdate_keeps {s₀ s : State} (h : Keeps s₀ s)  :
    KeepsR s₀ (execRequestUpdate s) := by
  unfold execRequestUpdate
  repeat' (first
    | with_reducible assumption | (unfold x; clear x)
    | (extract_lets +onlyGivenNames x; first | (refine Keeps.bind (s := s₀) (x := x) ?_ ?_; intro _; clear_value x; revert x; intros) | (clear_value x; revert x; intros))
    | split | with_reducible apply KeepsR.next | (with_reducible apply mgmtRow_keeps; intro _ _)
    | with_reducible apply updReply_keeps | with_reducible apply flashWrite_keeps | with_reducible apply wr_keeps
    | dsimp -zeta only)

theorem execPldmImageData_keeps {s₀ s : State} (h : Keeps s₀ s) {off : Nat} {d : Bytes} :
    KeepsR s₀ (execPldmImageData off d s) := by
  unfold execPldmImageData
  repeat' (first
    | with_reducible assumption | split | with_reducible apply KeepsR.next | (with_reducible apply mgmtRow_keeps; intro _ _)
    | with_reducible apply flashWrite_keeps | dsimp -zeta only)

theorem execVerifyComplete_keeps {s₀ s : State} (h : Keeps s₀ s)  :
    KeepsR s₀ (execVerifyComplete s) := by
  unfold execVerifyComplete
  repeat' (first
    | with_reducible assumption | (unfold x; clear x)
    | (extract_lets +onlyGivenNames x; first | (refine Keeps.bind (s := s₀) (x := x) ?_ ?_; intro _; clear_value x; revert x; intros) | (clear_value x; revert x; intros))
    | split | with_reducible apply KeepsR.next | (with_reducible apply mgmtRow_keeps; intro _ _)
    | with_reducible apply updReply_keeps | with_reducible apply wr_keeps | with_reducible apply flashWrite_keeps
    | with_reducible apply markBad_keeps | (with_reducible apply Keeps.fst (e := by with_reducible assumption))
    | (with_reducible apply Keeps.snd (e := by with_reducible assumption))
    | (with_reducible apply Keeps.fst_eq (e := by with_reducible assumption))
    | (with_reducible apply Keeps.snd_eq (e := by with_reducible assumption)) | dsimp -zeta only
    | with_reducible apply Keeps.upd)

theorem execActivateFirmware_keeps {s₀ s : State} (h : Keeps s₀ s)  :
    KeepsR s₀ (execActivateFirmware s) := by
  unfold execActivateFirmware
  repeat' (first
    | with_reducible assumption | (unfold x; clear x)
    | (extract_lets +onlyGivenNames x; first | (refine Keeps.bind (s := s₀) (x := x) ?_ ?_; intro _; clear_value x; revert x; intros) | (clear_value x; revert x; intros))
    | split | with_reducible apply KeepsR.next | (with_reducible apply mgmtRow_keeps; intro _ _)
    | with_reducible apply updReply_keeps | with_reducible apply wr_keeps | dsimp -zeta only
    | with_reducible apply Keeps.upd)

theorem spdmRow_keeps {s₀ s : State} (h : Keeps s₀ s) {m : Bytes} {needs : Bool} {content : State → Bytes} {sign : Bool} :
    KeepsR s₀ (spdmRow s m needs content sign) := by
  unfold spdmRow
  repeat' (first
    | with_reducible assumption | (unfold x; clear x)
    | (extract_lets +onlyGivenNames x; first | (refine Keeps.bind (s := s₀) (x := x) ?_ ?_; intro _; clear_value x; revert x; intros) | (clear_value x; revert x; intros))
    | split | with_reducible apply KeepsR.next | (with_reducible apply mgmtRow_keeps; intro _ _)
    | with_reducible apply emit_keeps | dsimp -zeta only | with_reducible apply Keeps.upd)

theorem execGetVersion_keeps {s₀ s : State} (h : Keeps s₀ s) {m : Bytes} :
    KeepsR s₀ (execGetVersion m s) := by
  unfold execGetVersion
  repeat' (first
    | with_reducible assumption | (unfold x; clear x)
    | (extract_lets +onlyGivenNames x; first | (refine Keeps.bind (s := s₀) (x := x) ?_ ?_; intro _; clear_value x; revert x; intros) | (clear_value x; revert x; intros))
    | split | with_reducible apply KeepsR.next | with_reducible apply spdmRow_keeps | dsimp -zeta only
    | with_reducible apply Keeps.upd)

theorem execGetCapabilities_keeps {s₀ s : State} (h : Keeps s₀ s) {m : Bytes} :
    KeepsR s₀ (execGetCapabilities m s) := by
  unfold execGetCapabilities
  repeat' (first
    | with_reducible assumption | with_reducible apply KeepsR.next | with_reducible apply spdmRow_keeps | dsimp -zeta only)

theorem execNegotiateAlgorithms_keeps {s₀ s : State} (h : Keeps s₀ s) {m : Bytes} :
    KeepsR s₀ (execNegotiateAlgorithms m s) := by
  unfold execNegotiateAlgorithms
  repeat' (first
    | with_reducible assumption | (unfold x; clear x)
    | (extract_lets +onlyGivenNames x; first | (refine Keeps.bind (s := s₀) (x := x) ?_ ?_; intro _; clear_value x; revert x; intros) | (clear_value x; revert x; intros))
    | split | with_reducible apply KeepsR.next | with_reducible apply spdmRow_keeps | with_reducible apply Keeps.upd)

theorem execGetDigests_keeps {s₀ s : State} (h : Keeps s₀ s) {m : Bytes} :
    KeepsR s₀ (execGetDigests m s) := by
  unfold execGetDigests
  repeat' (first
    | with_reducible assumption | with_reducible apply KeepsR.next | with_reducible apply spdmRow_keeps | dsimp -zeta only)

theorem execGetCertificate_keeps {s₀ s : State} (h : Keeps s₀ s) {m : Bytes} :
    KeepsR s₀ (execGetCertificate m s) := by
  unfold execGetCertificate
  repeat' (first
    | with_reducible assumption | with_reducible apply KeepsR.next | with_reducible apply spdmRow_keeps)

theorem execChallenge_keeps {s₀ s : State} (h : Keeps s₀ s) {m : Bytes} :
    KeepsR s₀ (execChallenge m s) := by
  unfold execChallenge
  repeat' (first
    | with_reducible assumption | with_reducible apply KeepsR.next | with_reducible apply spdmRow_keeps | dsimp -zeta only)

theorem execGetMeasurements_keeps {s₀ s : State} (h : Keeps s₀ s) {m : Bytes} :
    KeepsR s₀ (execGetMeasurements m s) := by
  unfold execGetMeasurements
  repeat' (first
    | with_reducible assumption | with_reducible apply KeepsR.next | with_reducible apply spdmRow_keeps | dsimp -zeta only)

end Sys2Proof.Machine
end

