-- ==== Sys2Proof/Laws/Keeps/Tap.lean ====
section
/-! SUPPORT. What the operations of Machine/Tap.lean keep (`Keeps`). -/

namespace Sys2Proof.Machine

theorem tapRow_keeps {s₀ s : State} {f : State → State} (hf : ∀ s, Keeps s₀ s → Keeps s₀ (f s)) (h : Keeps s₀ s) :
    KeepsR s₀ (tapRow s f) := by
  unfold tapRow
  refine KeepsR.next ?_
  split
  · exact hf _ h
  · exact h

theorem tapShift_keeps {s₀ s : State} (h : Keeps s₀ s) {inst v : Nat} :
    Keeps s₀ (tapShift s inst v) := by
  unfold tapShift
  repeat' (first
    | with_reducible assumption | (unfold x; clear x)
    | (extract_lets +onlyGivenNames x; first | (refine Keeps.bind (s := s₀) (x := x) ?_ ?_; intro _; clear_value x; revert x; intros) | (clear_value x; revert x; intros))
    | with_reducible apply emit_keeps | with_reducible apply Keeps.upd)

theorem execTapReset_keeps {s₀ s : State} (h : Keeps s₀ s)  :
    KeepsR s₀ (execTapReset s) := by
  unfold execTapReset
  repeat' (first
    | with_reducible assumption | (unfold x; clear x)
    | (extract_lets +onlyGivenNames x; first | (refine Keeps.bind (s := s₀) (x := x) ?_ ?_; intro _; clear_value x; revert x; intros) | (clear_value x; revert x; intros))
    | with_reducible apply KeepsR.next | (with_reducible apply tapRow_keeps; intro _ _) | dsimp -zeta only
    | with_reducible apply Keeps.upd)

theorem execIdcode_keeps {s₀ s : State} (h : Keeps s₀ s)  :
    KeepsR s₀ (execIdcode s) := by
  unfold execIdcode
  repeat' (first
    | with_reducible assumption | with_reducible apply KeepsR.next | (with_reducible apply tapRow_keeps; intro _ _)
    | with_reducible apply tapShift_keeps | dsimp -zeta only)

theorem execBypass_keeps {s₀ s : State} (h : Keeps s₀ s)  :
    KeepsR s₀ (execBypass s) := by
  unfold execBypass
  repeat' (first
    | with_reducible assumption | with_reducible apply KeepsR.next | (with_reducible apply tapRow_keeps; intro _ _)
    | with_reducible apply tapShift_keeps | dsimp -zeta only)

theorem execSample_keeps {s₀ s : State} (h : Keeps s₀ s) {pins : Bytes} :
    KeepsR s₀ (execSample pins s) := by
  unfold execSample
  repeat' (first
    | with_reducible assumption | with_reducible apply KeepsR.next | (with_reducible apply tapRow_keeps; intro _ _)
    | with_reducible apply tapShift_keeps | dsimp -zeta only)

theorem execPreload_keeps {s₀ s : State} (h : Keeps s₀ s) {v : Bytes} :
    KeepsR s₀ (execPreload v s) := by
  unfold execPreload
  repeat' (first
    | with_reducible assumption | (unfold x; clear x)
    | (extract_lets +onlyGivenNames x; first | (refine Keeps.bind (s := s₀) (x := x) ?_ ?_; intro _; clear_value x; revert x; intros) | (clear_value x; revert x; intros))
    | with_reducible apply KeepsR.next | (with_reducible apply tapRow_keeps; intro _ _) | dsimp -zeta only
    | with_reducible apply Keeps.upd)

theorem execExtest_keeps {s₀ s : State} (h : Keeps s₀ s) {pins : Bytes} :
    KeepsR s₀ (execExtest pins s) := by
  unfold execExtest
  repeat' (first
    | with_reducible assumption | split | with_reducible apply KeepsR.next | (with_reducible apply tapRow_keeps; intro _ _)
    | with_reducible apply tapShift_keeps | dsimp -zeta only)

theorem execClamp_keeps {s₀ s : State} (h : Keeps s₀ s)  :
    KeepsR s₀ (execClamp s) := by
  unfold execClamp
  repeat' (first
    | with_reducible assumption | split | with_reducible apply KeepsR.next | (with_reducible apply tapRow_keeps; intro _ _)
    | with_reducible apply tapShift_keeps | dsimp -zeta only)

theorem execHighz_keeps {s₀ s : State} (h : Keeps s₀ s)  :
    KeepsR s₀ (execHighz s) := by
  unfold execHighz
  repeat' (first
    | with_reducible assumption | split | with_reducible apply KeepsR.next | (with_reducible apply tapRow_keeps; intro _ _)
    | with_reducible apply tapShift_keeps | dsimp -zeta only)

end Sys2Proof.Machine
end

