-- ==== Sys2Proof/Laws/Keeps/All.lean ====
section
/-! SUPPORT. What every command keeps, and with it every step. -/

namespace Sys2Proof.Machine

/-- Every command has a next state, and it keeps what `Keeps` lists. -/
theorem exec_keeps (i : Instr) (s : State) : KeepsR s (exec i s) := by
  cases i with
  | auxTurnOn => exact execAuxTurnOn_keeps (Keeps.refl s)
  | auxTurnOff => exact execAuxTurnOff_keeps (Keeps.refl s)
  | mainInputValid _ _ => exact execMainInputValid_keeps (Keeps.refl s)
  | mainInputInvalid => exact execMainInputInvalid_keeps (Keeps.refl s)
  | thermalTrip => exact execThermalTrip_keeps (Keeps.refl s)
  | regulatorTrip => exact execRegulatorTrip_keeps (Keeps.refl s)
  | tripRelease => exact execTripRelease_keeps (Keeps.refl s)
  | stopReqEdge => exact execStopReqEdge_keeps (Keeps.refl s)
  | twinPresentFall => exact execTwinPresentFall_keeps (Keeps.refl s)
  | kindleStageDone _ => exact execKindleStageDone_keeps (Keeps.refl s)
  | rekindle _ _ => exact execRekindle_keeps (Keeps.refl s)
  | rekindleEnter _ => exact execRekindleEnter_keeps (Keeps.refl s)
  | funcStop _ _ => exact execFuncStop_keeps (Keeps.refl s)
  | funcStopComplete _ => exact execFuncStopComplete_keeps (Keeps.refl s)
  | funcRestart _ _ _ => exact execFuncRestart_keeps (Keeps.refl s)
  | configWrite _ _ _ => exact execConfigWrite_keeps (Keeps.refl s)
  | registerWrite _ _ _ _ => exact execRegisterWrite_keeps (Keeps.refl s)
  | readClear _ _ => exact execReadClear_keeps (Keeps.refl s)
  | cancelTicket _ _ => exact execCancelTicket_keeps (Keeps.refl s)
  | doorbellWrite _ _ _ _ => exact execDoorbellWrite_keeps (Keeps.refl s)
  | ringEnable _ _ _ _ => exact execRingEnable_keeps (Keeps.refl s)
  | ringDisable _ _ _ => exact execRingDisable_keeps (Keeps.refl s)
  | ticketIntake _ => exact execTicketIntake_keeps (Keeps.refl s)
  | ticketStart => exact execTicketStart_keeps (Keeps.refl s)
  | kind2Start => exact execKind2Start_keeps (Keeps.refl s)
  | commandFetch _ => exact execCommandFetch_keeps (Keeps.refl s)
  | commandReady _ _ => exact execCommandReady_keeps (Keeps.refl s)
  | tileFetchComplete _ _ _ _ => exact execTileFetchComplete_keeps (Keeps.refl s)
  | commandComplete _ _ => exact execCommandComplete_keeps (Keeps.refl s)
  | handlePut _ => exact execHandlePut_keeps (Keeps.refl s)
  | commit _ => exact execCommit_keeps (Keeps.refl s)
  | grantRequest => exact execGrantRequest_keeps (Keeps.refl s)
  | reservation _ => exact execReservation_keeps (Keeps.refl s)
  | shedStep => exact execShedStep_keeps (Keeps.refl s)
  | tokenRelease _ => exact execTokenRelease_keeps (Keeps.refl s)
  | regulatorInWindow _ => exact execRegulatorInWindow_keeps (Keeps.refl s)
  | sensorReading _ => exact execSensorReading_keeps (Keeps.refl s)
  | overdrawRecoverStep _ => exact execOverdrawRecoverStep_keeps (Keeps.refl s)
  | bellowsStep _ _ => exact execBellowsStep_keeps (Keeps.refl s)
  | meWakeComplete _ _ => exact execMeWakeComplete_keeps (Keeps.refl s)
  | slotReadout _ _ => exact execSlotReadout_keeps (Keeps.refl s)
  | meTest _ _ _ => exact execMeTest_keeps (Keeps.refl s)
  | meTestComplete _ _ _ => exact execMeTestComplete_keeps (Keeps.refl s)
  | idleScrub _ => exact execIdleScrub_keeps (Keeps.refl s)
  | nop _ _ => exact execNop_keeps (Keeps.refl s)
  | stepEnd _ _ => exact execStepEnd_keeps (Keeps.refl s)
  | qput _ _ => exact execQput_keeps (Keeps.refl s)
  | xfer _ _ => exact execXfer_keeps (Keeps.refl s)
  | tack _ _ => exact execTack_keeps (Keeps.refl s)
  | handoverWord _ _ => exact execHandoverWord_keeps (Keeps.refl s)
  | mm _ _ => exact execMm_keeps (Keeps.refl s)
  | conv _ _ => exact execConv_keeps (Keeps.refl s)
  | pool _ _ => exact execPool_keeps (Keeps.refl s)
  | attn _ _ => exact execAttn_keeps (Keeps.refl s)
  | kvHomeRequest _ _ => exact execKvHomeRequest_keeps (Keeps.refl s)
  | swapOutComplete _ _ => exact execSwapOutComplete_keeps (Keeps.refl s)
  | swapInComplete _ _ => exact execSwapInComplete_keeps (Keeps.refl s)
  | kvRetry _ _ => exact execKvRetry_keeps (Keeps.refl s)
  | ptCommit _ _ => exact execPtCommit_keeps (Keeps.refl s)
  | ptCommitRelease _ _ => exact execPtCommitRelease_keeps (Keeps.refl s)
  | rowFwd _ _ => exact execRowFwd_keeps (Keeps.refl s)
  | rowBwd _ _ => exact execRowBwd_keeps (Keeps.refl s)
  | awl _ _ => exact execAwl_keeps (Keeps.refl s)
  | stashPut _ _ => exact execStashPut_keeps (Keeps.refl s)
  | stashStoreComplete _ _ => exact execStashStoreComplete_keeps (Keeps.refl s)
  | stashPutRetry _ _ => exact execStashPutRetry_keeps (Keeps.refl s)
  | stashGet _ _ => exact execStashGet_keeps (Keeps.refl s)
  | reduce _ _ => exact execReduce_keeps (Keeps.refl s)
  | update _ _ => exact execUpdate_keeps (Keeps.refl s)
  | updateResume _ _ => exact execUpdateResume_keeps (Keeps.refl s)
  | gather _ _ => exact execGather_keeps (Keeps.refl s)
  | decode _ _ => exact execDecode_keeps (Keeps.refl s)
  | codecLaneStart _ _ => exact execCodecLaneStart_keeps (Keeps.refl s)
  | ingestGroup _ _ => exact execIngestGroup_keeps (Keeps.refl s)
  | ingest _ _ => exact execIngest_keeps (Keeps.refl s)
  | encode _ _ => exact execEncode_keeps (Keeps.refl s)
  | ckpt _ _ => exact execCkpt_keeps (Keeps.refl s)
  | flashDrain _ => exact execFlashDrain_keeps (Keeps.refl s)
  | hostStoreDrain => exact execHostStoreDrain_keeps (Keeps.refl s)
  | add _ _ _ _ => exact execAdd_keeps (Keeps.refl s)
  | sub _ _ _ _ => exact execSub_keeps (Keeps.refl s)
  | and _ _ _ _ => exact execAnd_keeps (Keeps.refl s)
  | or _ _ _ _ => exact execOr_keeps (Keeps.refl s)
  | xor _ _ _ _ => exact execXor_keeps (Keeps.refl s)
  | sll _ _ _ _ => exact execSll_keeps (Keeps.refl s)
  | srl _ _ _ _ => exact execSrl_keeps (Keeps.refl s)
  | sra _ _ _ _ => exact execSra_keeps (Keeps.refl s)
  | slt _ _ _ _ => exact execSlt_keeps (Keeps.refl s)
  | sltu _ _ _ _ => exact execSltu_keeps (Keeps.refl s)
  | mul _ _ _ _ => exact execMul_keeps (Keeps.refl s)
  | mulh _ _ _ _ => exact execMulh_keeps (Keeps.refl s)
  | mulhu _ _ _ _ => exact execMulhu_keeps (Keeps.refl s)
  | div _ _ _ _ => exact execDiv_keeps (Keeps.refl s)
  | divu _ _ _ _ => exact execDivu_keeps (Keeps.refl s)
  | rem _ _ _ _ => exact execRem_keeps (Keeps.refl s)
  | remu _ _ _ _ => exact execRemu_keeps (Keeps.refl s)
  | min _ _ _ _ => exact execMin_keeps (Keeps.refl s)
  | max _ _ _ _ => exact execMax_keeps (Keeps.refl s)
  | minu _ _ _ _ => exact execMinu_keeps (Keeps.refl s)
  | maxu _ _ _ _ => exact execMaxu_keeps (Keeps.refl s)
  | clz _ _ _ => exact execClz_keeps (Keeps.refl s)
  | popc _ _ _ => exact execPopc_keeps (Keeps.refl s)
  | addi _ _ _ _ => exact execAddi_keeps (Keeps.refl s)
  | andi _ _ _ _ => exact execAndi_keeps (Keeps.refl s)
  | ori _ _ _ _ => exact execOri_keeps (Keeps.refl s)
  | xori _ _ _ _ => exact execXori_keeps (Keeps.refl s)
  | slti _ _ _ _ => exact execSlti_keeps (Keeps.refl s)
  | sltiu _ _ _ _ => exact execSltiu_keeps (Keeps.refl s)
  | shi _ _ _ _ _ => exact execShi_keeps (Keeps.refl s)
  | shlo _ _ _ _ => exact execShlo_keeps (Keeps.refl s)
  | beq _ _ _ _ => exact execBeq_keeps (Keeps.refl s)
  | bne _ _ _ _ => exact execBne_keeps (Keeps.refl s)
  | blt _ _ _ _ => exact execBlt_keeps (Keeps.refl s)
  | bge _ _ _ _ => exact execBge_keeps (Keeps.refl s)
  | bltu _ _ _ _ => exact execBltu_keeps (Keeps.refl s)
  | bgeu _ _ _ _ => exact execBgeu_keeps (Keeps.refl s)
  | j _ _ => exact execJ_keeps (Keeps.refl s)
  | jal _ _ => exact execJal_keeps (Keeps.refl s)
  | jalr _ _ _ _ => exact execJalr_keeps (Keeps.refl s)
  | lb _ _ _ _ => exact execLb_keeps (Keeps.refl s)
  | lbu _ _ _ _ => exact execLbu_keeps (Keeps.refl s)
  | lh _ _ _ _ => exact execLh_keeps (Keeps.refl s)
  | lhu _ _ _ _ => exact execLhu_keeps (Keeps.refl s)
  | lw _ _ _ _ => exact execLw_keeps (Keeps.refl s)
  | lwu _ _ _ _ => exact execLwu_keeps (Keeps.refl s)
  | ld _ _ _ _ => exact execLd_keeps (Keeps.refl s)
  | sb _ _ _ _ => exact execSb_keeps (Keeps.refl s)
  | sh _ _ _ _ => exact execSh_keeps (Keeps.refl s)
  | sw _ _ _ _ => exact execSw_keeps (Keeps.refl s)
  | sd _ _ _ _ => exact execSd_keeps (Keeps.refl s)
  | vld _ _ _ _ => exact execVld_keeps (Keeps.refl s)
  | vst _ _ _ _ => exact execVst_keeps (Keeps.refl s)
  | vadd _ _ _ _ _ => exact execVadd_keeps (Keeps.refl s)
  | vsub _ _ _ _ _ => exact execVsub_keeps (Keeps.refl s)
  | vmul _ _ _ _ _ => exact execVmul_keeps (Keeps.refl s)
  | vfma _ _ _ _ _ => exact execVfma_keeps (Keeps.refl s)
  | vfmaw _ _ _ _ _ => exact execVfmaw_keeps (Keeps.refl s)
  | vmin _ _ _ _ _ => exact execVmin_keeps (Keeps.refl s)
  | vmax _ _ _ _ _ => exact execVmax_keeps (Keeps.refl s)
  | vabs _ _ _ _ => exact execVabs_keeps (Keeps.refl s)
  | vneg _ _ _ _ => exact execVneg_keeps (Keeps.refl s)
  | vand _ _ _ _ _ => exact execVand_keeps (Keeps.refl s)
  | vor _ _ _ _ _ => exact execVor_keeps (Keeps.refl s)
  | vxor _ _ _ _ _ => exact execVxor_keeps (Keeps.refl s)
  | vshl _ _ _ _ _ => exact execVshl_keeps (Keeps.refl s)
  | vshrl _ _ _ _ _ => exact execVshrl_keeps (Keeps.refl s)
  | vshra _ _ _ _ _ => exact execVshra_keeps (Keeps.refl s)
  | vadds _ _ _ _ _ => exact execVadds_keeps (Keeps.refl s)
  | vsubs _ _ _ _ _ => exact execVsubs_keeps (Keeps.refl s)
  | vceq _ _ _ _ _ => exact execVceq_keeps (Keeps.refl s)
  | vclt _ _ _ _ _ => exact execVclt_keeps (Keeps.refl s)
  | vcle _ _ _ _ _ => exact execVcle_keeps (Keeps.refl s)
  | vsel _ _ _ _ _ => exact execVsel_keeps (Keeps.refl s)
  | vdiv _ _ _ _ _ => exact execVdiv_keeps (Keeps.refl s)
  | vsqrt _ _ _ _ => exact execVsqrt_keeps (Keeps.refl s)
  | vexp _ _ _ _ => exact execVexp_keeps (Keeps.refl s)
  | vlog _ _ _ _ => exact execVlog_keeps (Keeps.refl s)
  | vtanh _ _ _ _ => exact execVtanh_keeps (Keeps.refl s)
  | verf _ _ _ _ => exact execVerf_keeps (Keeps.refl s)
  | vbcast _ _ _ _ => exact execVbcast_keeps (Keeps.refl s)
  | vext _ _ _ _ _ => exact execVext_keeps (Keeps.refl s)
  | vins _ _ _ _ _ => exact execVins_keeps (Keeps.refl s)
  | vmov _ _ _ _ => exact execVmov_keeps (Keeps.refl s)
  | vperm _ _ _ _ _ => exact execVperm_keeps (Keeps.refl s)
  | vrsum _ _ _ _ => exact execVrsum_keeps (Keeps.refl s)
  | vrmax _ _ _ _ => exact execVrmax_keeps (Keeps.refl s)
  | vrmin _ _ _ _ => exact execVrmin_keeps (Keeps.refl s)
  | vamax _ _ _ => exact execVamax_keeps (Keeps.refl s)
  | crRead _ _ _ => exact execCrRead_keeps (Keeps.refl s)
  | crWrite _ _ _ => exact execCrWrite_keeps (Keeps.refl s)
  | vcvt _ _ _ _ _ _ => exact execVcvt_keeps (Keeps.refl s)
  | tackRead _ _ _ _ => exact execTackRead_keeps (Keeps.refl s)
  | tackWrite _ _ _ _ => exact execTackWrite_keeps (Keeps.refl s)
  | tackReadFill _ _ => exact execTackReadFill_keeps (Keeps.refl s)
  | awlQput _ _ _ => exact execAwlQput_keeps (Keeps.refl s)
  | qget _ _ _ => exact execQget_keeps (Keeps.refl s)
  | qtry _ _ _ => exact execQtry_keeps (Keeps.refl s)
  | waitOwn _ => exact execWaitOwn_keeps (Keeps.refl s)
  | waitSeq _ _ => exact execWaitSeq_keeps (Keeps.refl s)
  | awlWaitEnd _ => exact execAwlWaitEnd_keeps (Keeps.refl s)
  | tokRequest _ _ => exact execTokRequest_keeps (Keeps.refl s)
  | tokRelease _ => exact execTokRelease_keeps (Keeps.refl s)
  | halt _ => exact execHalt_keeps (Keeps.refl s)
  | trap _ _ => exact execTrap_keeps (Keeps.refl s)
  | fence _ => exact execFence_keeps (Keeps.refl s)
  | emit _ _ => exact execEmit_keeps (Keeps.refl s)
  | sregr _ _ _ => exact execSregr_keeps (Keeps.refl s)
  | sregw _ _ _ => exact execSregw_keeps (Keeps.refl s)
  | awlBudget _ => exact execAwlBudget_keeps (Keeps.refl s)
  | bar4Access _ _ => exact execBar4Access_keeps (Keeps.refl s)
  | bnkHandoverWrite _ _ => exact execBnkHandoverWrite_keeps (Keeps.refl s)
  | bankClearComplete _ => exact execBankClearComplete_keeps (Keeps.refl s)
  | memScrubGroup _ _ => exact execMemScrubGroup_keeps (Keeps.refl s)
  | gddr7Retrain _ => exact execGddr7Retrain_keeps (Keeps.refl s)
  | gddr7RetrainComplete _ _ => exact execGddr7RetrainComplete_keeps (Keeps.refl s)
  | edgeDomainLoss _ => exact execEdgeDomainLoss_keeps (Keeps.refl s)
  | portLinkUp _ _ => exact execPortLinkUp_keeps (Keeps.refl s)
  | portLinkDown _ => exact execPortLinkDown_keeps (Keeps.refl s)
  | portReset _ => exact execPortReset_keeps (Keeps.refl s)
  | pcieConfigWrite _ _ => exact execPcieConfigWrite_keeps (Keeps.refl s)
  | leadGive _ => exact execLeadGive_keeps (Keeps.refl s)
  | irqClear _ _ _ => exact execIrqClear_keeps (Keeps.refl s)
  | ack _ _ => exact execAck_keeps (Keeps.refl s)
  | nak _ _ => exact execNak_keeps (Keeps.refl s)
  | linkRetrain _ => exact execLinkRetrain_keeps (Keeps.refl s)
  | linkRetrainComplete _ _ => exact execLinkRetrainComplete_keeps (Keeps.refl s)
  | lcredit _ _ => exact execLcredit_keeps (Keeps.refl s)
  | hello _ _ => exact execHello_keeps (Keeps.refl s)
  | reject _ _ => exact execReject_keeps (Keeps.refl s)
  | ecredit _ _ => exact execEcredit_keeps (Keeps.refl s)
  | stopMark _ _ => exact execStopMark_keeps (Keeps.refl s)
  | openFrame _ _ => exact execOpenFrame_keeps (Keeps.refl s)
  | dataFrame _ _ => exact execDataFrame_keeps (Keeps.refl s)
  | mirrorSend => exact execMirrorSend_keeps (Keeps.refl s)
  | mirrorAck _ _ => exact execMirrorAck_keeps (Keeps.refl s)
  | mirrorNak _ _ => exact execMirrorNak_keeps (Keeps.refl s)
  | twinReturn _ => exact execTwinReturn_keeps (Keeps.refl s)
  | laneTestClear _ _ => exact execLaneTestClear_keeps (Keeps.refl s)
  | restore _ _ _ _ => exact execRestore_keeps (Keeps.refl s)
  | rollback _ v => exact execRollback_keeps (_v := v) (Keeps.refl s)
  | fill _ v => exact execFill_keeps (_v := v) (Keeps.refl s)
  | serve _ _ _ _ => exact execServe_keeps (Keeps.refl s)
  | emberFreeze _ => exact execEmberFreeze_keeps (Keeps.refl s)
  | emberUnfreeze _ => exact execEmberUnfreeze_keeps (Keeps.refl s)
  | globalStop _ => exact execGlobalStop_keeps (Keeps.refl s)
  | stopMarker _ _ _ _ => exact execStopMarker_keeps (Keeps.refl s)
  | resume _ => exact execResume_keeps (Keeps.refl s)
  | debugRead _ => exact execDebugRead_keeps (Keeps.refl s)
  | entdaa _ => exact execEntdaa_keeps (Keeps.refl s)
  | setEndpointId _ => exact execSetEndpointId_keeps (Keeps.refl s)
  | pldmMonitorRequest _ => exact execPldmMonitorRequest_keeps (Keeps.refl s)
  | requestUpdate => exact execRequestUpdate_keeps (Keeps.refl s)
  | pldmImageData _ _ => exact execPldmImageData_keeps (Keeps.refl s)
  | verifyComplete => exact execVerifyComplete_keeps (Keeps.refl s)
  | activateFirmware => exact execActivateFirmware_keeps (Keeps.refl s)
  | getVersion _ => exact execGetVersion_keeps (Keeps.refl s)
  | getCapabilities _ => exact execGetCapabilities_keeps (Keeps.refl s)
  | negotiateAlgorithms _ => exact execNegotiateAlgorithms_keeps (Keeps.refl s)
  | getDigests _ => exact execGetDigests_keeps (Keeps.refl s)
  | getCertificate _ => exact execGetCertificate_keeps (Keeps.refl s)
  | challenge _ => exact execChallenge_keeps (Keeps.refl s)
  | getMeasurements _ => exact execGetMeasurements_keeps (Keeps.refl s)
  | unitReport _ => exact execUnitReport_keeps (Keeps.refl s)
  | tapReset => exact execTapReset_keeps (Keeps.refl s)
  | idcode => exact execIdcode_keeps (Keeps.refl s)
  | bypass => exact execBypass_keeps (Keeps.refl s)
  | sample _ => exact execSample_keeps (Keeps.refl s)
  | preload _ => exact execPreload_keeps (Keeps.refl s)
  | extest _ => exact execExtest_keeps (Keeps.refl s)
  | clamp => exact execClamp_keeps (Keeps.refl s)
  | highz => exact execHighz_keeps (Keeps.refl s)
  | completionTimeout _ _ _ => exact execCompletionTimeout_keeps (Keeps.refl s)
  | frameDiscard _ _ => exact execFrameDiscard_keeps (Keeps.refl s)
  | paceRingStep _ => exact execPaceRingStep_keeps (Keeps.refl s)
  | laneCheckerBits _ _ => exact execLaneCheckerBits_keeps (Keeps.refl s)
  | msixTableWrite _ _ _ _ => exact execMsixTableWrite_keeps (Keeps.refl s)
  | twinPresentRise => exact execTwinPresentRise_keeps (Keeps.refl s)
  | mctpControlMessage _ => exact execMctpControlMessage_keeps (Keeps.refl s)

end Sys2Proof.Machine
end

