-- ==== Sys2Proof/Tests/Slice0.lean ====
section
/-! SUPPORT. Tests: commands that no interface carries, values that the spec works out, and for every statement with hypotheses a witness of a
concrete state and operands that meet them (`witness_<statement>`, one part per clause). -/

open Sys2Proof Sys2Proof.Machine

namespace Sys2Proof.Tests

set_option Elab.async false
set_option maxRecDepth 100000
set_option linter.unusedVariables false

/-! ### States -/

/-- A state with some register fields set. -/
def regs (xs : List (Fld × Nat)) (s : State) : State := xs.foldl (fun s x => wr s x.1 x.2) s

/-- The block in RUN with every function in RUN. -/
def on : State :=
  regs [(F.DEV_STATE_POWER, 3), (⟨0x48, 0, 64⟩, 0), (⟨0x50, 0, 64⟩, 0)] { State.reset with auxOn := true, mainOn := true }

/-- The bytes of a list of numbers. -/
def bytes (xs : List Nat) : Bytes := xs.map (BitVec.ofNat 8)

/-- `n` zero bytes with numbers of the given widths at the given offsets. -/
def record (n : Nat) (xs : List (Nat × Nat × Nat)) : Bytes :=
  xs.foldl (fun b x => b.take x.1 ++ leBytes x.2.1 x.2.2 ++ b.drop (x.1 + x.2.1)) (zeros n)

/-- Two rising lists of cells in one. -/
def mergeCells : Nat → List Host.Cell → List Host.Cell → List Host.Cell
  | 0, xs, ys => xs ++ ys
  | _, [], ys => ys
  | _, xs, [] => xs
  | n + 1, x :: xs, y :: ys => if x.1 < y.1 then x :: mergeCells n xs (y :: ys) else y :: mergeCells n (x :: xs) ys

/-- A state whose memory holds bytes at an address where it held zeros. -/
def putAt (a : Nat) (b : Bytes) (s : State) : State :=
  let new := ((List.range b.length).zip b).filterMap fun p => if p.2 = 0 then none else some (a + p.1, p.2)
  { s with mem := { s.mem with cells := mergeCells 1000 new s.mem.cells } }

/-! ### Awl cores -/

/-- A core of ticket 0, with a code region of 64 bytes and a large budget. -/
def core0 : AwlCore := { AwlCore.blank with codeLen := 64, limit := 1 }

/-- Core `core` is c, with instruction i at its pc, and is RUNNING. -/
def atI (core : Core) (c : AwlCore) (i : Instr) (s : State) : State :=
  let w := awlEncode i
  regs [(coreStateF (coreKey core), awlRUNNING)] (setCore s (coreKey core) { c with ls := ((List.range 4).map fun j => (c.pc + j, BitVec.ofNat 8 (w / 2 ^ (8 * j)))) ++ c.ls })

/-- The conditions of `AwlAt`. -/
def isAt (core : Core) (i : Instr) (s : State) : Bool :=
  let k := coreKey core
  let c := getCore s k
  coreLive s k && !budgetSpent k c && decide (c.pc < c.codeLen) && !(lsCheck s k c.pc 4).2 && decide (awlDecode core c.word = some i)

theorem awlAt_of_isAt {core : Core} {i : Instr} {s : State} (h : isAt core i s = true) : AwlAt core i s := by
  simp only [isAt, Bool.and_eq_true, decide_eq_true_eq, Bool.not_eq_true'] at h
  exact ⟨h.1.1.1.1, h.1.1.1.2, h.1.1.2, h.1.2, h.2⟩

/-! ### Tickets and windows -/

/-- A training program on all hearths. -/
def prog0 : Program :=
  { id := 1, kind := 1, chain := false, hearthMask := 0xFFFF, bufCount := 32, flags := 1, funcMask := 0, secAddr := 0x10000, secLen := 4096, entry := 0 }

/-- A started ticket of 2 steps. -/
def ticket0 : Ticket :=
  { key := 0, num := 7, raw := record 64 [(0, 6, 7), (0xC, 4, 2), (0x18, 8, 0x30000), (0x20, 1, 32)], prog := prog0, ring := (0, 0), started := true, cancelling := false, flags := 0,
    status := 0, faultSeq := 0, faultHearth := 0xFF, steps := 0, lastGen := none }

/-- The block with ticket 0 started. -/
def busy : State := { on with tickets := [ticket0], nextKey := 1 }

/-- A granted command of ticket 0 with sequence number 0 and the given bytes. -/
def cmd0 (raw : Bytes) : Cmd :=
  { seq := 0, ticket := 0, pos := 0, step := 0, raw := raw, recompute := false, chain := none, st := .granted, pops := [], inc := 0, kind := 0,
    waited := false, flags := 0, fail := 0, amax := 0, dom := 0, stat := 0, phase := 0, tiles := [], geom := zeros 64, statRow := 0, views := [], stage := [], placed := false,
    slots := [], noted := 0 }

/-- Hearth 0's window holds one command. -/
def window (c : Cmd) (s : State) : State := setDisp s 0 { getDisp s 0 with cmds := [c] }

/-- The fields of the descriptor of a densely packed tensor of `es`-byte elements, and its 128 bytes. -/
def tensorF (base fmt es : Nat) (sizes : List Nat) : List (Nat × Nat × Nat) :=
  [(0, 8, base), (8, 1, fmt), (9, 1, sizes.length)] ++ (List.range sizes.length).map (fun i => (0x10 + 4 * i, 4, sizes.getD i 0)) ++
    (List.range (sizes.length - 1)).map fun i => (0x28 + 8 * i, 8, es * (sizes.take (i + 1)).foldl (· * ·) 1)
def tensor (base fmt es : Nat) (sizes : List Nat) : Bytes := record 128 (tensorF base fmt es sizes)

/-- A state whose memory holds a record's fields where it held zeros. -/
def putRec (a : Nat) (xs : List (Nat × Nat × Nat)) (s : State) : State := xs.foldr (fun x s => putAt (a + x.1) (leBytes x.2.1 x.2.2) s) s

/-- A reference to descriptor n of the ticket's table, and that table with one descriptor set. -/
def ref (n : Nat) : Nat := 0x40000000 + n
def descs (ds : List (List (Nat × Nat × Nat))) (s : State) : State :=
  (List.range ds.length).foldr (fun i s => putRec (0x30000 + 128 * i) (ds.getD i []) s) s

/-- The state that an answer holds. -/
def nx (r : Res) : State := match r with | .next t => t | _ => State.reset

/-- The auxiliary domain alone; the block in Kindling, held by SCAN_HOLD; Kindling at a stage. -/
def aux : State := nx (exec .auxTurnOn State.reset)
def kin : State := nx (exec (.mainInputValid true true) aux)
def scanK (stage : Nat) : State := regs [(F.KDL_STATUS_STAGE, stage)] { kin with scanHold := false }

/-- A state with one function's state set; a stop in progress; the block stopped. -/
def fst (f st : Nat) (s : State) : State := regs [(fnFld f, st)] s
def stopping (s : State) : State := regs [(F.MGT_STOP_STATE_STATE, 1)] s
def stopped (s : State) : State := regs [(F.DEV_STATE_POWER, 4), (F.MGT_STOP_STATE_STATE, 2), (F.EMB_CTL_FREEZE, 1)] s

theorem pair_of {α β : Type} {e : α × β} {b : β} (h : e.2 = b) : e = (e.1, b) := by rw [← h]

/-- The row of Table 3 onward that holds an offset. -/
def rowOf (off : Nat) : RegGroup × Nat × Nat := (lookupReg off).getD ({ name := "", base := 0, n1 := 0, s1 := 0, n2 := 0, s2 := 0, rw := 0, w1c := 0, rc := 0, wo := 0, image := 0, reset := 0, func := .none }, 0, 0)

theorem row_of {off : Nat} (h : (lookupReg off).isSome = true) :
    lookupReg off = some ((rowOf off).1, (rowOf off).2.1, (rowOf off).2.2) := by
  cases e : lookupReg off with
  | none => rw [e] at h; cases h
  | some x => simp only [rowOf, e, Option.getD_some]

theorem some_of {α : Type} {o : Option α} (d : α) (h : o.isSome = true) : o = some (o.getD d) := by
  cases o with
  | none => cases h
  | some x => rfl

theorem slots_empty : ∀ k, slotEmpty State.reset k = true := by
  have h : ∀ a, flashByte State.reset a = 0xFF := fun _ => rfl
  intro k
  simp [slotEmpty, slotSeq, flashNat, flashBytes, h, leNat, List.range, List.range.loop]

def isNext (r : Res) : Bool := match r with | .next _ => true | _ => false
theorem next_of {r : Res} (h : isNext r = true) : r = .next (nx r) := by cases r <;> first | rfl | cases h


/-! ### Ports, rings and tickets -/

/-- Both PCIe ports up and enabled; ring 1 of port 0 with a base; that ring enabled with a head and a tail. -/
def host (s : State) : State := regs [(F.HIF_PORT_STATE 0, 2), (F.HIF_PORT_BME 0, 1), (F.HIF_PORT_STATE 1, 2), (F.HIF_PORT_BME 1, 1)] s
def ringReady (s : State) : State := regs [(F.HIF_RING_BASE_BASE 0 1, 0x100000001000)] (host s)
def ringUp (h t : Nat) (s : State) : State :=
  regs [(F.HIF_RING_CTL_ENABLE 0 1, 1), (F.HIF_RING_CTL_SIZE_LOG2 0 1, 4), (F.HIF_RING_IDX_HEAD 0 1, h), (F.HIF_RING_IDX_TAIL 0 1, t)] (ringReady s)

/-- An image with a training and a KIND 2 program; a ticket entry; a block with one entry to take in. -/
def img0 : Image :=
  { slot := 0, rollback := 0, keyIndex := 0, advance := false, buildId := 0, digest := [], progs := [prog0, { prog0 with id := 2, kind := 2, entry := 16 }],
    codeSecs := [], roSecs := [] }
def entryB (rec prog : Nat) : Bytes := record 64 [(0, 6, 9), (8, 2, prog), (0xC, 4, 3), (0x18, 8, 0x30000), (0x20, 1, 32), (0x28, 8, rec)]
def inS : State := { ringUp 3 5 busy with image := some img0, nextRing := 0 }

/-- Tickets that wait: training, and KIND 2. -/
def tw : Ticket := { ticket0 with started := false, key := 2, num := 11 }
def tw2 : Ticket :=
  { ticket0 with started := false, key := 2, num := 11, prog := { prog0 with kind := 2, hearthMask := 0 }, raw := record 64 [(0, 6, 11), (0xC, 4, 2), (0x30, 8, 77), (0x38, 8, 88)] }
def startS (t : Ticket) : State := putAt 0x10000 (bytes [0x40, 0, 0, 0, 0x80]) { host busy with tickets := [ticket0, t] }

/-! ### The window -/

def nopB : Bytes := record 64 [(0, 1, 1)]
def qputB : Bytes := record 64 [(0, 1, 3), (0x10, 2, 5), (0x18, 8, 0x3)]
def endB : Bytes := record 64 [(0, 1, 2)]
def cursor (off : Nat) (s : State) : State := setDisp s 0 { getDisp s 0 with cursors := [⟨0, off, 0, 0, false⟩] }
def fetchS (raw : Bytes) (off : Nat) : State := putAt (0x10000 + off) raw (cursor off busy)
def fetchOf (s : State) : NextFetch := (nextFetch s 0).getD { ticket := ticket0, off := 0, pos := 0, step := 0, recompute := false }
def decd (raw : Bytes) : Cmd := { cmd0 raw with st := .decoded }
def done (raw : Bytes) : Cmd := { cmd0 raw with st := .done }
def tileC : Cmd :=
  { cmd0 (record 64 [(0, 1, 0x10), (0x10, 4, ref 0), (0x14, 4, ref 1), (0x18, 4, ref 2), (0x2C, 2, 64), (0x2E, 2, 64), (0x30, 2, 32)]) with
    st := .ready, placed := true }
/-- A column of 64 elements, 64 bytes apart; a staging region of its one tile. -/
def tileS : State :=
  descs [[(0, 8, 0x40000), (8, 1, 0x11), (9, 1, 2), (0x10, 4, 1), (0x14, 4, 64), (0x28, 8, 64)], tensorF 0x41000 0x11 2 [1, 1], tensorF 0x42000 0x11 2 [1, 64]]
    (window tileC (regs [(F.BNK_OWNER_OWNER 16, idDisp 0), (F.HRT_STAGE_L1_SIZE_4K 0, 1)] busy))
def tile0 : OpTile := ⟨0, (0, 64), (0, 1)⟩
def tileU : State := (touchRanges tileS (idDisp 0) false (some (cmdId tileS 0 tileC)) (tileReads tileS tileC true tile0)).1

theorem tile_top (x : Nat) : ¬(0 + 1 < x ∧ x ≤ 3 ∧ tileOf tileS 0 tileC x 0x10 ≠ 0) := by
  rintro ⟨a, b, c⟩
  obtain rfl | rfl : x = 2 ∨ x = 3 := by omega
  · exact c (by decide +kernel)
  · exact c (by decide +kernel)

theorem tile_size : min (tileOf tileS 0 tileC 1 0x10) (64 * (tileReads tileS tileC true tile0).length) = 4096 := by decide +kernel
theorem tile_region : stageSize { tileU with free := tileU.free + 1 + 1 } 0 1 - 4096 + 1 = 1 := by decide +kernel

/-- The tile fills its region, so the place that the spec leaves open is the region's start. -/
theorem tile_fills : (fillStage tileU 0 (cmdId tileS 0 tileC) 1 4096).2 = .ok () := by
  simp only [fillStage, takeFree, takeFreeBytes]
  rw [tile_region, Nat.mod_one]
  decide +kernel

def put0 : Put := { hearth := 0, queue := 5, handle := ⟨3, 1⟩, ticket := 0, reserved := true, core := none, cmd := some (0, 0) }
def xfer (n : Nat) : Cmd := cmd0 (record 64 [(0, 1, 8), (0x10, 8, 0x20000), (0x18, 4, n)])
def xferS (n : Nat) : State :=
  putAt 0x1000 (bytes [1, 2, 3]) (putRec 0x20000 ([(0, 8, 0x1000), (8, 8, 0x2000), (0x10, 4, 32), (0x14, 2, 2), (0x18, 4, 64), (0x1C, 4, 128)]) (window (xfer n) busy))
def tackC (n : Nat) : Cmd := cmd0 (record 64 [(0, 1, 9), (0x10, 8, 0x1000), (0x18, 8, 0x2000), (0x20, 2, n)])
def tackS (n : Nat) : State := putAt 0x1000 (bytes [1, 2, 3]) (window (tackC n) busy)

/-- Every dispatcher's cursor stands after n steps. -/
def ended (n : Nat) (s : State) : State := (List.range 16).foldl (fun s h => setDisp s h { getDisp s h with cursors := [⟨0, 64, n, n, false⟩] }) s

/-! ### Power and matrix engines -/

def pool (s : State) : State := regs [(F.DMP_POOL_CEIL_NOW, 3000), (F.DMP_CEIL_CORE_TOKENS, 3000)] s
def asks : Cmd := { cmd0 (record 64 [(0, 1, 0x28), (4, 1, 1)]) with st := .requested, inc := 3 }
def askS (r : TokReq) (s : State) : State := setDisp (window asks s) 0 { getDisp (window asks s) 0 with pending := some r }
def volts (s : State) : State :=
  regs [(vNowF 0, 15), (vSetF 0, 20), (F.DMP_POLICY_V_MIN, 5), (F.DMP_POLICY_MODE, 1), (F.DMP_POLICY_SHED_COUNT, 2)] (pool s)
def reading (t : Option Nat) : Sensors :=
  { hearthT := List.replicate 15 (some 300) ++ [t], memT := [some 300, some 300], ioT := some 300, codT := some 300, hearthI := List.replicate 16 (some 1000),
    memW := [some 10, some 10], ioW := some 10, codW := some 10, inputW := some 500, gddr := List.replicate 24 (some 20) }
def meS (st n a : Nat) : State :=
  regs [(F.MXE_STATE_STATE 0 1, st), (F.MXE_CMD_ACTIVE 0 1, a), (slotF 0 1 3, slotREADOUT), (slotF 0 1 4, 1)] { busy with bellows := [(1, n)] }

/-! ### Banks, stops and ports -/

def bankS (n o : Nat) (s : State) : State := poke (regs [(F.BNK_OWNER_OWNER n, o)] s) (bankBase n + 5) (bytes [7, 8])
def nearS (ecc g st : Nat) : State :=
  regs [(F.MEM_CFG_ECC_MODE 0, ecc), (F.MEM_CFG_SCRUB_EN 0, 1), (F.MEM_SCRUB_NEXT_GROUP 3, g), (F.MEM_STATE_STATE 3, st)] busy
def halted (s : State) : State :=
  regs [(F.MGT_DBG_SEL_UNIT, 8), (F.MGT_DBG_SEL_INDEX, 31)] (stopped { setCore s 0 (core0.setS 31 77) with emberLost := [(8, 5)] })
def portS (up0 up1 lead ready : Nat) : State :=
  regs [(F.HIF_PORT_STATE 0, up0), (F.HIF_PORT_STATE 1, up1), (F.HIF_PORT_BME 0, 1), (F.HIF_PORT_BME 1, 1), (F.DEV_STATE_LEAD_PORT, lead), (F.HIF_LEAD_LEAD_PORT, lead),
    (F.HIF_PORT_DRIVER_READY 0, ready), (F.HIF_PORT_DRIVER_READY 1, ready), (F.HIF_RING_CTL_ENABLE 0 1, 1), (F.HIF_RING_CTL_ENABLE 1 1, 1)] busy
def irqS (held : List Nat) (pend : Nat) : State :=
  regs [(⟨(F.HIF_IRQ_PEND 0).off, 0, 8⟩, pend)]
    { portS 2 2 0 1 with ports := [(0, { PciPort.blank with held := held, msixEnable := true, table := [(0x30, 0x10), (0x31, 0xFE)] })] }

/-! ### Engines -/

def bf (xs : List Nat) : Bytes := xs.flatMap (leBytes 2)
def mmCmd (mode run : Nat) : Cmd :=
  { cmd0 (record 64 [(0, 1, 0x10), (2, 2, 1), (0x10, 4, ref 0), (0x14, 4, ref 1), (0x18, 4, ref 2), (0x24, 4, mode), (0x28, 4, 2 + 2 * 512 + run * 2 ^ 17)]) with kind := 3 }
def mmS (c : Cmd) (sizes : List Nat) : State :=
  regs [(F.MXE_STATE_STATE 0 0, 2)] (putAt 0x40000 (bytes [1, 2, 0xFD, 4]) (putAt 0x41000 (bytes [5, 6, 7, 8])
    (descs [tensorF 0x40000 2 1 [2, 2], tensorF 0x41000 2 1 [2, 2], tensorF 0x42000 4 4 sizes] (window c busy))))
def geo (k taps pl : Nat) : Bytes :=
  record 64 [(0, 1, 2), (1, 1, pl), (4, 2, 1), (8, 1, k), (9, 1, taps), (10, 1, 1), (0xC, 1, 1), (0xD, 1, 1), (0xE, 1, 1), (0x10, 1, 1), (0x11, 1, 1), (0x12, 1, 1)]
def convCmd (g : Bytes) : Cmd :=
  { cmd0 (record 64 [(0, 1, 0x11), (2, 2, 1), (0x10, 4, ref 0), (0x14, 4, ref 1), (0x18, 4, ref 2), (0x24, 4, 4), (0x28, 4, 2 + 2 * 512 + 2 ^ 17), (0x38, 8, 0x50000)]) with kind := 3, geom := g }
def convS (c : Cmd) (as cs : List Nat) : State :=
  regs [(F.MXE_STATE_STATE 0 0, 2)] (putAt 0x40000 (bytes [1, 2, 0xFD, 4, 5, 6]) (putAt 0x41000 (bytes [5, 6, 7, 8])
    (descs [tensorF 0x40000 2 1 as, tensorF 0x41000 2 1 [1, 2, 2, 1, 1], tensorF 0x42000 4 4 cs] (window c busy))))
def poolCmd (g : Bytes) (mask : Nat) : Cmd := { cmd0 (record 64 [(0, 1, 0x12), (4, 1, mask), (0x10, 4, ref 0), (0x14, 4, ref 1), (0x20, 8, 0x50000)]) with geom := g }
def poolS (c : Cmd) (cs : List Nat) : State :=
  putAt 0x40000 (bf [0x3F80, 0x4000, 0xBF80]) (descs [tensorF 0x40000 0x11 2 [1, 3, 1, 1], tensorF 0x42000 0x11 2 cs] (window c busy))
def data4 (a : Nat) (s : State) : State := putAt a (bf [0x3F80, 0x4000, 0x3F00, 0xBF80]) s
def atCmd : Cmd := cmd0 (record 64 [(0, 1, 0x18), (2, 2, 1), (0x10, 4, ref 0), (0x14, 4, ref 1), (0x18, 4, ref 2), (0x1C, 4, ref 3), (0x3C, 4, 0x3F800000)])
def atS (q : List Nat) : State :=
  data4 0x40000 (data4 0x41000 (data4 0x42000 (descs [tensorF 0x40000 0x11 2 q, tensorF 0x41000 0x11 2 [2, 1, 2, 1], tensorF 0x42000 0x11 2 [2, 1, 2, 1], tensorF 0x43000 0x11 2 [2, 1, 2, 1]]
    (window atCmd busy))))
def rowCmd (op : Nat) : Cmd := cmd0 (record 64 [(0, 1, 0x20), (0x10, 4, ref 0), (0x14, 4, ref 1), (0x28, 1, op)])
def rowS (op : Nat) (x : List Nat) : State := data4 0x40000 (descs [tensorF 0x40000 0x11 2 x, tensorF 0x42000 0x11 2 x] (window (rowCmd op) busy))
def backCmd (op : Nat) : Cmd := cmd0 (record 64 [(0, 1, 0x21), (0x10, 4, ref 0), (0x14, 4, ref 1), (0x18, 4, ref 2), (0x30, 1, op)])
def stat0 : StatTag :=
  { hearth := 0, ticket := 0, tag := 0, softmax := some false, next := 2, rows := [(0, (0x3F800000, 0x40000000)), (1, (0x3F000000, 0x3F800000))], errs := [], order := 0,
    spilled := false, step := 0 }
def backS (op : Nat) (x : List Nat) : State :=
  { data4 0x40000 (data4 0x44000 (descs [tensorF 0x40000 0x11 2 x, tensorF 0x42000 (if op == 4 then 0x12 else 0x11) (if op == 4 then 4 else 2) x, tensorF 0x44000 0x11 2 x]
      (window (backCmd op) busy))) with stats := [stat0] }

/-! ### The KV cache -/

def far (s : State) : State := regs [(F.CXL_STATE_STATE 0, 2), (F.CXL_ID_CAP_256M 0, 256)] s
def kvRec : List (Nat × Nat × Nat) :=
  [(1, 1, 0x11), (4, 2, 1), (6, 2, 2), (8, 2, 2), (0xA, 2, 2), (0xC, 4, 256), (0x10, 8, 0x61000), (0x18, 8, 0x62000), (0x20, 8, 0x63000), (0x28, 8, 0x64000),
    (0x30, 4, 4), (0x34, 4, 1), (0x38, 4, 2), (0x48, 8, 0x010000000000)]
def kvCmd (mode : Nat) : Cmd := cmd0 (record 64 [(0, 1, 0x18), (0x10, 4, ref 0), (0x24, 4, ref 1), (0x30, 8, 0x60000), (0x38, 4, mode)])
def kvS (c : Cmd) (e : Nat) (ws : List KvWalk) : State :=
  { far (putRec 0x60000 kvRec (putAt 0x61000 (leBytes 8 e) (putAt 0x62000 (leBytes 8 e) (putAt 0x63000 (leBytes 1 sqACTIVE)
      (putAt 0x64000 (leBytes 8 0x70000 ++ leBytes 8 0x70100 ++ leBytes 8 0x70200 ++ leBytes 8 0x70300) (putAt 0x71000 (bytes [1, 2, 3, 4])
        (descs [tensorF 0x40000 0x11 2 [2, 1, 1, 1], tensorF 0x45000 4 4 [1]] (window c busy)))))))) with walks := ws }
def walk0 : KvWalk :=
  { hearth := 0, cmd := 0, cache := 0x60000, append := true, phase := 1, slot := 0, seqs := [0], victims := [], swapIn := none, used := 0, pages := [], waiting := true, noted := false }
def commitCmd : Cmd := cmd0 (record 64 [(0, 1, 0x19), (0x10, 8, 0x60000)])
def commitS (released : List Nat) : State :=
  putAt 0x6003C (leBytes 4 released.length) (putAt 0x60040 (leBytes 8 0x48000) (putAt 0x48000 (released.flatMap (leBytes 8)) (kvS commitCmd (entOf true 16 0x71000 0) [])))
def commit0 : KvCommit := { hearth := 0, cmd := 0, cache := 0x60000, published := true, former := 0, released := [0x72000, 0x73000] }
def publishedS (users : Nat) : State := { putAt 0x60060 (leBytes 2 users) (putAt 0x60000 (leBytes 1 1) (commitS [])) with commits := [commit0] }

/-! ### Training state -/

def awlCmd (n mask : Nat) : Cmd := cmd0 (record 64 [(0, 1, 0x28), (4, 1, mask), (6, 1, 1), (0x10, 8, 0x20000), (0x18, 4, n), (0x20, 4, 1), (0x24, 4, ref 0)])
def quotas (n f d : Nat) (s : State) : State :=
  regs [(F.SBG_PQ_PROGRAM_ID 0, 1), (F.SBG_PQ_NEAR_MIB 0, n), (F.SBG_PQ_FAR_MIB 0, f), (F.SBG_CFG_DIR_1K, d), (F.SBG_NEAR_SIZE_64K, 16), (F.SBG_FAR_SIZE_64K 0, 16)] s
def putCmd (phase drop : Nat) : Cmd :=
  { cmd0 (record 64 [(0, 1, 0x30), (0x10, 4, ref 0), (0x16, 2, 5), (0x18, 1, 1), (0x19, 1, 0x11), (0x1A, 1, drop)]) with
    phase := phase, st := if phase = 1 then .working else .granted }
def putS (c : Cmd) (n f d : Nat) (held : List StashEntry) : State :=
  { quotas n f d (putAt 0x40000 (bf [1, 2, 3, 4]) (descs [tensorF 0x40000 0x11 2 [2, 2]] (window c busy))) with
    stash := held, stashWait := if c.phase = 1 then [(0, 0)] else [] }
def entry0 (st : Nat) : StashEntry :=
  { ticket := 0, id := 5, micro := 1, fmt := 0x11, size0 := 2, rows := 2, step := 0, st := st, quota := 0, far := st = 2, places := [if st = 2 then 0x1000000 else 5], cmd := (0, 0), gone := false,
    readers := [] }
def getCmd (count first rows : Nat) : Cmd :=
  cmd0 (record 64 [(0, 1, 0x31), (0x10, 4, ref 0), (0x16, 2, 5), (0x18, 1, 1), (0x20, 2, count), (0x24, 4, first), (0x28, 4, rows)])
def getS (c : Cmd) (held : List StashEntry) : State := { descs [tensorF 0x40000 0x11 2 [2, 2]] (window c busy) with stash := held }
def alone (s : State) : State := regs [(F.DEV_IDENT_GROUP_SIZE, 1)] s
def parS (pend sst hold : Nat) (s : State) : State :=
  let one (n a f e : Nat) (s : State) : State := putRec (0x61000 + 128 * n) (tensorF a f e [1, 1]) s
  putRec 0x60000 [(0, 8, 0x61000), (8, 8, 0x61080), (0x10, 8, 0x61100), (0x18, 8, 0x61180), (0x30, 8, 0x61200), (0x38, 8, 0x61280), (0x50, 8, 0x61300), (0x58, 8, 0x61380),
      (0x60, 4, 1), (0x64, 4, 1), (0x6A, 2, 1), (0x6C, 2, 1), (0x71, 1, pend), (0x76, 2, hold), (0x80, 4, 0x3F800000), (0x84, 4, 0x3F800000), (0x90, 4, sst), (0x94, 4, sst)]
    (one 0 0x62000 0x12 4 (one 1 0x62100 0x12 4 (one 2 0x62200 0x12 4 (one 3 0x62300 0x12 4 (one 4 0x62400 0x11 2 (one 5 0x62500 0x11 2 (one 6 0x62600 0x12 4
      (putRec 0x61380 [(0, 1, 3), (1, 1, 0x12), (4, 4, 0x3F000000), (8, 4, 0x3F000000), (0x18, 4, 0x3F800000)]
        (putRec 0x62000 [(0, 4, 0x3F800000), (0x200, 4, 0x40000000), (0x600, 4, 0x40400000)] s)))))))))
def upCmd (phase : Nat) : Cmd := { cmd0 (record 64 [(0, 1, 0x39), (0x10, 8, 0x60000)]) with phase := phase, st := if phase = 0 then .granted else .working }
def upS (phase pend sst hold : Nat) : State := parS pend sst hold (alone (window (upCmd phase) busy))
def redCmd : Cmd :=
  cmd0 (record 64 [(0, 1, 0x38), (0x10, 4, ref 0), (0x16, 1, 1), (0x20, 4, 1), (0x24, 1, 1), (0x2A, 2, 1), (0x2C, 2, 1), (0x30, 4, ref 1)])
def redS : State := putAt 0x40000 (bf [0x3F80, 0x4000]) (descs [tensorF 0x40000 0x11 2 [2, 1], tensorF 0x41000 0x11 2 [2, 1]] (alone (window redCmd busy)))
def gatCmd (form : Nat) : Cmd := cmd0 (record 64 [(0, 1, 0x3A), (0x10, 8, if form = 0 then 0x60000 else 0), (0x18, 1, form), (0x1A, 2, 3), (0x1C, 4, 9), (0x20, 4, ref 0)])
def gatS (form pend : Nat) (sizes : List Nat) : State := parS pend 0 0 (descs [tensorF 0x40000 0x11 2 sizes] (alone (window (gatCmd form) busy)))
def gatX : RxStream :=
  let s := gatS 2 0 [2, 1]
  let d := (gaRef s (gatCmd 2)).desc
  { src := 3, num := 0, link := 0, desc := segDesc 4 9 (cmdStepIndex s (gatCmd 2)) 1 0 1 0 d.fmt 0 0 0 0 0 d.count d.wireSize 0, bytes := bytes [1, 2, 3, 4], last := true,
    consumed := 4, counted := false, errs := [] }

/-! ### The codec and checkpoints -/

def stream (len : Nat) : List (Nat × Nat × Nat) := [(0, 1, 1), (0x10, 8, 0x62000), (0x18, 8, len), (0x20, 8, 0x70000), (0x28, 4, 65536), (0x2C, 2, 8), (0x30, 8, 0x61100)]
def decCmd (phase : Nat) : Cmd :=
  { cmd0 (record 64 [(0, 1, 0x40), (0x10, 8, 0x60000), (0x30, 4, 2), (0x38, 8, 0x61000)]) with st := if phase = 0 then .granted else .working, phase := phase }
def decS (phase len : Nat) (queue : List (Nat × Nat)) : State := putRec 0x60000 (stream len) { window (decCmd phase) busy with codQueue := queue }
def codOn (lanes : Nat) (s : State) : State := regs [(F.COD_CFG_LANES, lanes), (F.DMP_RAILS_COD_W, 300)] s
def ingCmd (n phase : Nat) : Cmd :=
  { cmd0 (record 64 [(0, 1, 0x41), (0x10, 8, 0x60000), (0x18, 8, 0x60100), (0x20, 4, ref 0), (0x2C, 4, n), (0x30, 8, 0x62000)]) with
    st := if phase = 0 then .granted else .working, phase := phase }
def ingS (n phase w : Nat) (kept : List KeptPic) (runs : List IngestRun) : State :=
  { putAt 0x62000 (bf [1]) (putRec 0x60000 (stream 0) (putRec 0x60100 ([(4, 2, w), (6, 2, 1), (0xC, 1, 1), (0xD, 1, 1), (0xE, 1, 1), (0x28, 1, 2), (0x1C, 4, 0x3F800000)])
      (descs [tensorF 0x40000 0x11 2 [1, w, 1, n]] (window (ingCmd n phase) busy)))) with codKept := kept, codIngest := runs }
def kept0 : KeptPic := { pool := 0x70000, slot := 1, std := 1, query := [], index := 1 }
def run0 : IngestRun := 
  { hearth := 0, seq := 0, lane := 8, pics := [], group := 0, factor := none, std := 0, query := [],
    record := record 64 [(4, 2, 1), (6, 2, 1), (0xC, 1, 1), (0xD, 1, 1), (0xE, 1, 1), (0x28, 1, 2), (0x1C, 4, 0x3F800000)] }
def staged0 (op n : Nat) : Staged := { op := op, gen := 5, step := 6, size := n, dst := 0x100000000000, ticket := 0, coll := 0, p := none, q := none }
def ckCmd (op skip : Nat) : Cmd := cmd0 (record 64 [(0, 1, 0x48), (0x10, 1, op), (0x11, 1, skip), (0x20, 8, 1000)])
def ckS (s : State) : State := regs [(F.MGT_CKPT_STAGE_BASE_64K, 0x20), (F.MGT_CKPT_STAGE_SIZE_64K, 1), (F.DEV_COMMIT_GEN_GEN, 9)] s
def drainS (op n slots : Nat) : State := regs [(F.MGT_CKPT_CFG_FLASH_SLOTS, slots)] { ckS (alone busy) with staged := some (staged0 op n) }
def resBase : State := regs [(⟨0x48, 0, 64⟩, 0x2AAAAAAAA), (⟨0x50, 0, 64⟩, 0), (F.MGT_CKPT_CFG_FLASH_SLOTS, 2)] on
def resArg (src : Nat) : BitVec 64 := BitVec.ofNat 64 (8 * src)
def slotImg (s : State) : State :=
  let img := buildImage s 3 77 78
  ckWrite (ckWrite s 256 img) 0 (leBytes 4 0x544B4643 ++ leBytes 4 77 ++ leBytes 4 78 ++ leBytes 4 1 ++ zeros 16 ++ leBytes 8 img.length ++ leBytes 8 (crc64 img) ++ zeros 207 ++ [1])
def oneRec (s : State) : State := regs [(F.BUR_PDIR_COUNT, 1), (F.BUR_PDIR_BASE_64, 0x800)] (putAt 0x20000 (leBytes 8 0x60000) s)

/-! ### Links -/

def upL (l st : Nat) (s : State) : State := regs [(lkState l, st), (lkEnable l, 1)] s
def frame (type lseq : Nat) (last : Bool) (pl : Bytes) : Frame :=
  { hdr := ({ type := type, vc := 0, hop := 0, last := last, dst := 0, src := 3, stream := 5, offset := 0, payload := pl } : Pkt).header lseq, payload := pl, fecOk := true, crcOk := true, corrected := 0 }
def pkt (n : Nat) : Pkt := ctlPkt tDATA 0 n 0 (bytes [n])
def replay0 : List (Nat × Pkt) := [(5, pkt 1), (6, pkt 2), (7, pkt 3)]
def linkS (l st : Nat) (x : LinkSt) : State := upL l st (setLink on l x)
def tx0 : TxStream :=
  { num := 5, dst := 3, link := 0, vc := 0, desc := [], bytes := [], total := 0, coll := (0, 0), opened := true, finished := true, framed := 0, flight := 9, cmd := (0, 0) }
def rx0 : RxStream := { src := 3, num := 5, link := 0, desc := record 64 [(0x20, 8, 100)], bytes := bytes [1, 2], last := false, consumed := 0, counted := false, errs := [] }
def mirror0 (g tries : Nat) : MirrorOut := { kind := 1, gen := g, step := 0, tries := tries, image := [], holds := [], stream := 0 }
def twinS (st : Nat) : State :=
  regs [(F.DEV_IDENT_TWIN_CFG, 1), (F.GRT_CFG_MIRROR_EN, 1), (F.GRT_MIRROR_BASE_64K, 0x20), (F.GRT_MIRROR_SIZE_64K, 2)] (upL 12 st on)
def heldS (st : Nat) : State :=
  putRec 0x200000 ([(0, 4, 0x54524947), (8, 4, 9), (0xC, 4, 8), (0x10, 8, 10), (0x24, 1, 1), (0x28, 4, 3), (0xFF, 1, 1)]) (twinS st)
def laneS (n fs code lock : Nat) (x : LaneChk) : State :=
  let f := laneFunc n
  regs [(⟨0x48 + 8 * (f / 32), 2 * (f % 32), 2⟩, fs), (F.CLK_LT_CTL_CHK n, code), (F.CLK_LT_CTL_LOCK n, lock), (F.CLK_LT_USER_PATTERN n, 0xF0F0)]
    { on with laneChk := [(n, x)] }

/-- The conditions of `Runs`. -/
def runs (h : Fin 16) (seq : BitVec 32) (op : Nat) (c : Cmd) (s : State) : Bool :=
  unitLive s (U.disp h) && decide (findCmd s h seq.toNat = some c) && decide (c.seq = seq.toNat) && decide (c.st = .granted) && c.opcode == op &&
    chainReady s h c && mesAwake s h c

theorem runs_of {h : Fin 16} {seq : BitVec 32} {op : Nat} {c : Cmd} {s : State} (p : runs h seq op c s = true) : Runs h seq op c s := by
  simp only [runs, Bool.and_eq_true, decide_eq_true_eq, beq_iff_eq] at p
  exact ⟨p.1.1.1.1.1.1, p.1.1.1.1.1.2, p.1.1.1.1.2, p.1.1.1.2, p.1.1.2, p.1.2, p.2⟩

theorem inv_of {s : State} (h : s.mem.wf = true) : Inv s := h

def ingGood : State := ingS 1 0 1 [kept0] [run0]


/-! ### Awl cores at work -/

def k0 : Core := .hearth 0 0
def kLast : Core := .hearth 15 7
def kSup : Core := .sup 3

/-- A core whose scalar registers 1, 2 and 3 hold three values. -/
def cr (a b c : BitVec 64) : AwlCore := ((core0.setS 1 a).setS 2 b).setS 3 c

/-- The block with an AWL command of ticket 0 at work in hearth 0's window. -/
def w0 (s : State) : State := window { cmd0 (record 64 [(0, 1, 0x28), (4, 1, 1)]) with st := .working } s
def queueS (es : List Handle) : State := setDisp (w0 busy) 0 { getDisp (w0 busy) 0 with queues := [(5, ⟨none, es, 0⟩)] }
def moving (l a n : BitVec 64) (puts : Nat) (i : Instr) : State :=
  atI k0 { cr l a n with puts := puts } i (putAt 0x1000 (bytes [1, 2, 3]) (w0 busy))
def bank2 (c : AwlCore) : AwlCore := { c with banks := 4 }
def bankOn : State := putAt 0xF00010400000 (bytes [0x80, 0x91, 0xA2, 0xB3]) (regs [(F.BNK_OWNER_OWNER 18, 0x10)] on)

theorem all_at {core : Core} {c : AwlCore} {s : State} {l : List Instr} (h : (l.all fun i => isAt core i (atI core c i s)) = true) :
    ∀ i ∈ l, AwlAt core i (atI core c i s) := by
  intro i hi
  exact awlAt_of_isAt (List.all_eq_true.mp h i hi)

theorem ready_of {c : AwlCore} (h : (c.lean && c.held == 0) = false) : vectorReady c := h


/-! ### An image that passes -/

/-- The pieces of an image with an IDENTITY, five LOAD_LIST, a PROGRAM_DIR and a program section, by offset. -/
def imagePieces : List (Nat × Bytes) :=
  let sec (type target off len load : Nat) : Bytes := record 32 [(0, 2, type), (2, 2, target), (4, 4, off), (8, 4, len), (0x10, 8, load)]
  let load (off v : Nat) : Bytes := record 16 [(0, 4, off), (8, 8, v)]
  [(0, record 256 [(0, 4, 0x494B5844), (4, 2, 1), (6, 2, 256), (8, 4, 4480), (0xC, 4, 1152), (0x20, 2, 8), (0x24, 4, 256), (0x28, 4, 1152),
      (0x30, 8, 0x343230392D545844)]),
   (256, sec 1 0 512 64 0 ++ sec 2 0x10 576 16 0 ++ sec 2 0x11 640 48 0 ++ sec 2 0x12 704 16 0 ++ sec 2 0x14 768 16 0 ++ sec 2 0x2C 832 16 0 ++ sec 3 0 896 80 0 ++
      sec 4 0 1024 128 0x10000),
   (512, record 64 [(2, 2, 1)]), (576, load F.COD_CFG_LANES.off (1 <<< F.COD_CFG_LANES.lo)), (640, load (F.MEM_CFG_RETRY_MAX 0).off (1 <<< (F.MEM_CFG_RETRY_MAX 0).lo) ++ load F.SBG_CFG_DIR_1K.off (1 <<< F.SBG_CFG_DIR_1K.lo) ++
      load F.STI_CFG_CREDIT_KIB.off (4 <<< F.STI_CFG_CREDIT_KIB.lo)),
   (704, load (F.MEM_CFG_RETRY_MAX 1).off (1 <<< (F.MEM_CFG_RETRY_MAX 1).lo)), (768, load F.MGT_CKPT_CFG_FLASH_SLOTS.off (1 <<< F.MGT_CKPT_CFG_FLASH_SLOTS.lo)),
   (832, load F.GRT_CFG_REPLAY_MAX.off (1 <<< F.GRT_CFG_REPLAY_MAX.lo)), (896, record 80 [(0, 4, 1), (0x10, 2, 1), (0x12, 1, 1), (0x14, 2, 1), (0x20, 2, 7)]), (1024, record 64 [(0, 4, 64)]),
   (1152, record 16 [(0, 4, 1), (4, 4, 3309)]), (4477, zeros 3), (0x03000000, record 16 [(0, 4, 0x59454B44), (8, 4, 1952)])]

/-- An update of slot 0 in progress, with that image in slot 0's flash and key record 0; the fuses hold that key's digest. -/
def imageS0 : State :=
  { regs [(F.MGT_UPDATE_STATE, 1)] State.reset with auxOn := true, flash := imagePieces.flatMap fun p => (List.range p.2.length).zip p.2 |>.map fun q => (p.1 + q.1, q.2) }
def imageS : State := { imageS0 with fuses := { State.reset.fuses with keyHash0 := Config.shake256 (flashBytes imageS0 0x03000010 1952) 32 } }

theorem keyOk_of {s : State} (a : (flashNat s 0x03000000 4 == 0x59454B44 && flashNat s 0x03000004 4 == 0 && flashNat s 0x03000008 4 == 1952 &&
    decide (flashNat s 0x0300000C 4 ≤ 522272)) = true) (b : Config.shake256 (flashBytes s 0x03000010 1952) 32 = s.fuses.keyHash0)
    (c : s.fuses.revoked0 = false) : keyOk s 0 = true := by
  simp only [Bool.and_eq_true, decide_eq_true_eq, beq_iff_eq] at a
  simp [keyOk, a, b, c]

/-- Stage 0x03 from its checks. -/
theorem stage3_of {s : State} {k : Nat} {xs : List Sec} (e : imSecs s k = xs) (h : headerOk s k = true) (p : partOk s k = true) (t : tableOk s k xs = true)
    (l : (placesOk xs && sigOk s k && identityOk (secBytes s k xs 1)) = true)
    (o : (xs.filter (·.type == 2)).all (fun x => (loadEntries s k x).all (loadOk x.target)) = true) (d : dirOk s k xs = true)
    (f : (allFuncs.all fun f => !(imageCtx s k xs none).bad f) = true) : imageStage3 s k = 0 := by
  subst e
  simp only [Bool.and_eq_true] at l
  unfold imageStage3
  simp only [h, p, t, l.1.1, l.1.2, l.2, o, d, f, Bool.not_true, Bool.false_eq_true, if_false, Bool.and_self, if_true]

theorem image_head : headerOk imageS 0 = true := by decide +kernel
theorem image_part : partOk imageS 0 = true := by decide +kernel
theorem image_table : tableOk imageS 0 (imSecs imageS 0) = true := by decide +kernel
theorem image_sig : sigOk imageS 0 = true := by decide +kernel
theorem image_places : (placesOk (imSecs imageS 0) && sigOk imageS 0 && identityOk (secBytes imageS 0 (imSecs imageS 0) 1)) = true := by decide +kernel
theorem image_loads : ((imSecs imageS 0).filter (·.type == 2)).all (fun x => (loadEntries imageS 0 x).all (loadOk x.target)) = true := by decide +kernel
theorem image_dir : dirOk imageS 0 (imSecs imageS 0) = true := by decide +kernel
theorem image_values : (allFuncs.all fun f => !(imageCtx imageS 0 (imSecs imageS 0) none).bad f) = true := by decide +kernel

theorem image_stage3 : imageStage3 imageS 0 = 0 :=
  stage3_of rfl image_head image_part image_table image_places image_loads image_dir image_values

theorem image_flash : imageS.flash = imageS0.flash := by rw [imageS]

theorem image_bytes (a n : Nat) : flashBytes imageS a n = flashBytes imageS0 a n := by rw [flashBytes, flashBytes]; unfold flashByte; rw [image_flash]

theorem image_hash : imageS.fuses.keyHash0 = Config.shake256 (flashBytes imageS0 0x03000010 1952) 32 := by rw [imageS]

theorem image_digest : Config.shake256 (flashBytes imageS 0x03000010 1952) 32 = imageS.fuses.keyHash0 :=
  (congrArg (fun b => Config.shake256 b 32) (image_bytes 0x03000010 1952)).trans image_hash.symm

theorem image_header : (flashNat imageS 0x03000000 4 == 0x59454B44 && flashNat imageS 0x03000004 4 == 0 && flashNat imageS 0x03000008 4 == 1952 &&
    decide (flashNat imageS 0x0300000C 4 ≤ 522272)) = true := by decide +kernel

theorem image_open : imageS.fuses.revoked0 = false := by decide +kernel

theorem image_key : keyOk imageS 0 = true := keyOk_of image_header image_digest image_open

theorem outcome_of {s : State} {k : Nat} (h3 : imageStage3 s k = 0) (h4 : imageStage4 s k = 0) (h5 : imageStage5 s k = 0) : slotOutcome s k = (5, 0) := by
  unfold slotOutcome
  revert h3 h4 h5
  generalize imageStage3 s k = a
  generalize imageStage4 s k = b
  generalize imageStage5 s k = c
  intro h3 h4 h5
  subst h3 h4 h5
  rfl

theorem stage4_of {s : State} {k : Nat} (i : imFld s k 0x14 4 = 0) (key : keyOk s 0 = true) (hv : ∀ k d g, Config.mldsaVerify k d g = true) :
    imageStage4 s k = 0 := by
  simp [imageStage4, i, key, hv]

theorem image_index : imFld imageS 0 0x14 4 = 0 := by decide +kernel
theorem image_stage5 : imageStage5 imageS 0 = 0 := by decide +kernel

/-- If the signature verifies (log entry 3), the image passes stages 0x03 to 0x05. -/
theorem image_passes (hv : ∀ k d g, Config.mldsaVerify k d g = true) : slotOutcome imageS 0 = (5, 0) :=
  outcome_of image_stage3 (stage4_of image_index image_key hv) image_stage5

theorem update_of {s : State} {k : Nat} (h : headerOk s k = true) (p : partOk s k = true) (t : tableOk s k (imSecs s k) = true) (g : sigOk s k = true) (h4 : imageStage4 s k = 0)
    (h5 : imageStage5 s k = 0) : updateCode s k = 0 := by
  simp only [updateCode, h, p, t, g, h4, h5, Bool.and_self, Bool.not_true, Bool.false_eq_true, if_false]

/-- The same image passes the checks of VERIFY_COMPLETE. -/
theorem image_updates (hv : ∀ k d g, Config.mldsaVerify k d g = true) : updateCode imageS 0 = 0 :=
  update_of image_head image_part image_table image_sig (stage4_of image_index image_key hv) image_stage5

theorem image_updating : imageS.auxOn = true ∧ rd imageS F.MGT_UPDATE_STATE = 1 ∧ rd imageS F.MGT_UPDATE_SLOT = 0 := by decide +kernel

/-! ### Commands that no interface carries -/

/-- A frame with an all-zero header. -/
def blankFrame (hdr payload : Nat) : Frame := { hdr := zeros hdr, payload := zeros payload, fecOk := true, crcOk := true, corrected := 0 }
def upLink : LinkTrain := { trained := true, lanes := 15, hello := none }
def upNode : CxlTrain := { trained := true, lanes := 8, rate32 := true, type3 := true, capacity := 1, vendor := 0, device := 0 }
def upPort : PcieTrain := { trained := true, lanes := 8, rate32 := true, flit := true }

theorem test_wf_takes : ([.ack 0 (blankFrame 12 0), .dataFrame 12 (blankFrame 12 1024), .kindleStageDone (.links (List.replicate 13 upLink)),
    .sensorReading (reading none), .bar4Access 0 (.read 0x07FFFFFF 1), .configWrite (.host 0) 0x03FFFFF8 5, .ticketIntake (.data (zeros 64))].all Instr.wf) = true := by decide

/-- A frame with a short header, a payload of no whole unit, one that is too long. -/
theorem test_wf_frames : ([blankFrame 11 0, blankFrame 12 63, blankFrame 12 1088].any Frame.wf) = false ∧
    Instr.wf (.openFrame 0 (blankFrame 11 0)) = false ∧ Instr.wf (.frameDiscard 0 (blankFrame 12 63)) = false := by decide

/-- A trained port without lanes or with nine, and one without training that reports lanes. -/
theorem test_wf_ports : ([{ upPort with lanes := 0 }, { upPort with lanes := 9 }, { upPort with trained := false }].any PcieTrain.wf) = false ∧
    CxlTrain.wf { upNode with lanes := 9 } = false ∧ CxlTrain.wf { upNode with trained := false, lanes := 0 } = false ∧
    Instr.wf (.portLinkUp 0 { upPort with trained := false, lanes := 0 }) = false := by decide

/-- A trained link without lanes, a HELLO payload that no frame carries, and a stage that does not report all 13 links. -/
theorem test_wf_links : LinkTrain.wf { upLink with lanes := 0 } = false ∧ LinkTrain.wf { upLink with hello := some (zeros 1025) } = false ∧
    Instr.wf (.kindleStageDone (.links (List.replicate 12 upLink))) = false ∧ Instr.wf (.funcRestart (.host 0) 0x20 (.link { upLink with lanes := 0 })) = false := by decide

theorem test_wf_readings : Sensors.wf { reading none with gddr := [] } = false ∧ Instr.wf (.ticketIntake (.data (zeros 63))) = false ∧
    Instr.wf (.memScrubGroup 0 [(0, 0)]) = false ∧ Instr.wf (.getVersion []) = false := by decide

/-- Accesses that are empty, too wide, or past their window. -/
theorem test_wf_accesses : ([.bar4Access 0 (.read 0 0), .bar4Access 0 (.write 0x08000000 [1]), .configWrite (.host 0) 0x04000000 0, .registerWrite (.host 0) 0 9 0,
    .readClear (.host 0) 0x03FFFFF9, .doorbellWrite 0 0 0 0, .msixTableWrite 0 0xFF9 8 0, .stopMarker 0x400 0 0 false].any Instr.wf) = false := by decide

/-! ### Words and worked values of the spec -/

/-- No row of the table has bits. -/
theorem test_no_table_words : decodeTableWord 32 0 = none ∧ State.reset.withFetchWord 32 0 = State.reset := ⟨rfl, rfl⟩

/-- The words of chapter 7's examples. -/
theorem test_awl_words : awlEncode (.vcvt k0 6 4 0 0x21 0x11) = 0xC9902111 ∧ awlDecode k0 0xC9902111 = some (.vcvt k0 6 4 0 0x21 0x11) ∧
    awlEncode (.halt k0) = 0b111111_00000_00000_00000_00000000000 ∧ awlDecode k0 0b000001_00010_00001_1111111111111111 = some (.addi k0 2 1 0xFFFF) := by decide +kernel

/-- A wrong field, or a word of a supervisor core on a hearth core, is no instruction. -/
theorem test_awl_refuses : awlDecode k0 0b111111_00001_00000_00000_00000000100 = none ∧ awlDecode k0 (awlEncode (.sregr kSup 4 1)) = none := by decide +kernel

/-- Chapter 12's example of one near-tier address: controller 3, local offset 12,725,880. -/
theorem test_near_address : controllerOf 0x12345678 = 3 ∧ localOffset 0x12345678 = 12725880 ∧ nearAddr 3 12725880 = 0x12345678 := by decide

/-- Chapter 15's example of a DATA frame header. -/
theorem test_data_header :
    ({ type := 0x11, vc := 1, hop := 0, last := false, dst := 3, src := 5, stream := 0x01A, offset := 42, payload := zeros 1024 } : Pkt).header 0x7FF =
      bytes [0x11, 0x01, 0x03, 0x50, 0x00, 0x1A, 0xF0, 0x7F, 0x50, 0x05, 0x00, 0x00] := by decide +kernel

/-- Chapter 16's example of parity in a group of six. -/
theorem test_parity : memberRows 6 2 = [0, 3, 4, 5] ∧ ([0, 3, 4, 5].map fun r => rowIndex 6 r 2) = [0, 2, 2, 1] ∧ gfMul (gfPow2 1) 0x53 = 0xA6 ∧
    gfMul (gfPow2 2) 0x53 = 0x51 := by decide

/-- Chapter 4's example: the scale 23.0 / 127 is about 0.181 102 36, and its reciprocal about 5.521 739. -/
theorem test_scale : fp32Div 0x41B80000 0x42FE0000 = 0x3E3972E6 ∧ fp32Div 0x3F800000 0x3E3972E6 / 4 = 0x40B0B216 / 4 := by decide +kernel

/-- Chapter 11's example of one AdamW element. -/
theorem test_adamw :
    let o : OptRec := { kind := 1, momFmt := 0x12, nesterov := false, lr := 0x3A800000, beta1 := 0x3F600000, beta2 := 0x3F700000, eps := 0x35800000, wd := 0x3D800000, gscale := 0x3E000000 }
    let r := optElement false o (.of 0x3ED3E000) (.of 0x3E68FC00) (.of 0x3F000000) (.of 0x3F000000) (.of 0x3D000000) (.of 0x3B800000)
    r.2.1.v = 0x3D100000 ∧ r.2.2.v = 0x3B800000 ∧ r.1.v = 0x3EFFA902 := by decide +kernel

/-- Scalar corners of chapter 7: division by zero, and the most negative number by −1. -/
theorem test_awl_division :
    (getCore (nx (exec (.div k0 3 1 2) (atI k0 (cr 5 0 0) (.div k0 3 1 2) on))) 0).sreg 3 = 0xFFFFFFFFFFFFFFFF ∧
    (getCore (nx (exec (.rem k0 3 1 2) (atI k0 (cr 5 0 0) (.rem k0 3 1 2) on))) 0).sreg 3 = 5 := by decide +kernel

/-- Power comes up to KINDLING at stage 0x01, and a trip leads back to AUX. -/
theorem test_power : State.reset.power = .off ∧ aux.power = .aux ∧ kin.power = .kindling ∧ rd kin F.KDL_STATUS_STAGE = 1 ∧ (nx (exec .thermalTrip kin)).power = .aux := by
  decide +kernel

/-! ### Witnesses -/

theorem witness_StepRunsFrontCommand :
    ∃ s : State, s.pending = [] := by
  refine ⟨State.reset, ?_⟩
  all_goals decide +kernel

theorem witness_StepKeepsMemoryForm :
    ∃ s : State, ∃ t : State, Inv s ∧ step s = .next t := by
  refine ⟨{ busy with pending := [.nop 0 0, .tripRelease] }, _, inv_of ?_, next_of ?_⟩
  all_goals decide +kernel

theorem witness_ResetMemoryForm_forms :
State.reset.mem.wf = true := by
  refine ?_
  all_goals decide +kernel

theorem witness_RollbackCounterOnlyRises :
    ∃ s : State, ∃ t : State, step s = .next t := by
  refine ⟨{ busy with pending := [.nop 0 0, .tripRelease] }, _, next_of ?_⟩
  all_goals decide +kernel

theorem witness_AwlDecodeEncode :
    (∃ core : Core, ∃ i : Instr, awlCoreOf i = some core ∧ awlForm i = true) ∧
    (∃ core : Core, ∃ i : Instr, awlCoreOf i = some core ∧ awlForm i = true) := by
  refine ⟨⟨.hearth 15 7, .vcvt (.hearth 15 7) 15 15 1 0x22 0x11, ?_, ?_⟩,
    ⟨.sup 3, .beq (.sup 3) 31 31 0x8000, ?_, ?_⟩⟩
  all_goals decide +kernel

theorem witness_AwlFaults_1 :
    (∃ core : Core, ∃ i : Instr, ∃ s : State, awlCoreOf i = some core ∧
    let k := coreKey core
    let c := getCore s k
    coreLive s k = true ∧ budgetSpent k c = false ∧ c.codeLen ≤ c.pc) ∧
    (∃ core : Core, ∃ i : Instr, ∃ s : State, awlCoreOf i = some core ∧
    let k := coreKey core
    let c := getCore s k
    coreLive s k = true ∧ budgetSpent k c = false ∧ c.pc < c.codeLen ∧ (lsCheck s k c.pc 4).2 = true) ∧
    (∃ core : Core, ∃ i : Instr, ∃ s : State, awlCoreOf i = some core ∧
    let k := coreKey core
    let c := getCore s k
    let word := c.word
    coreLive s k = true ∧ budgetSpent k c = false ∧ c.pc < c.codeLen ∧ (lsCheck s k c.pc 4).2 = false ∧ awlDecode core word = none) ∧
    (∃ core : Core, ∃ i : Instr, ∃ s : State, awlCoreOf i = some core ∧
    let k := coreKey core
    let c := getCore s k
    let word := c.word
    coreLive s k = true ∧ budgetSpent k c = false ∧ c.pc < c.codeLen ∧ (lsCheck s k c.pc 4).2 = false ∧
    ((∃ j, awlDecode core word = some j ∧ j ≠ i))) ∧
    (∃ core : Core, ∃ s : State, ∃ code : Nat, ∃ info : Nat, ∃ insn : Nat,
    let k := coreKey core
    code < 2 ^ 16 ∧ info < 2 ^ 16 ∧ insn < 2 ^ 32 ∧ coreCmd s k = none ∧ s.tickets = []) ∧
    (∃ core : Core, ∃ s : State, ∃ code : Nat, ∃ info : Nat, ∃ insn : Nat,
    let k := coreKey core
    code < 2 ^ 16 ∧ info < 2 ^ 16 ∧ insn < 2 ^ 32 ∧ coreCmd s k = none ∧ s.tickets = []) ∧
    (∃ core : Core, ∃ s : State, ∃ a : Nat, ∃ n : Nat,
    let k := coreKey core
    let c := getCore s k
    let touched (w : Nat) : Prop := a / 8 ≤ w ∧ 8 * w < a + n
    ((∀ w, touched w → c.lsErr.get 0 w = 0))) ∧
    (∃ core : Core, ∃ s : State, ∃ a : Nat, ∃ n : Nat,
    let k := coreKey core
    let touched (w : Nat) : Prop := a / 8 ≤ w ∧ 8 * w < a + n
    (lsCheck s k a n).2 = false ∧ ∃ w, touched w) := by
  refine ⟨⟨k0, .add k0 1 2 3, atI k0 { cr 0 0 0 with pc := 64 } (.add k0 1 2 3) on, ?_, ?_, ?_, ?_⟩,
    ⟨k0, .add k0 1 2 3, atI k0 { cr 0 0 0 with pc := 60, lsErr := [(7, 2)] } (.add k0 1 2 3) on, ?_, ?_, ?_, ?_, ?_⟩,
    ⟨k0, .add k0 1 2 3, setCore (atI k0 (cr 0 0 0) (.add k0 1 2 3) on) 0 { cr 0 0 0 with ls := [(3, 0xFF)] }, ?_, ?_, ?_, ?_, ?_, ?_⟩,
    ⟨k0, .add k0 1 2 3, atI k0 (cr 0 0 0) (.sub k0 1 2 3) on, ?_, ?_, ?_, ?_, ?_, ⟨.sub k0 1 2 3, by decide +kernel, by decide +kernel⟩⟩,
    ⟨kLast, on, 0xFFFF, 0xFFFF, 0xFFFFFFFF, ?_, ?_, ?_, ?_, ?_⟩,
    ⟨kSup, on, 0xFFFF, 0xFFFF, 0xFFFFFFFF, ?_, ?_, ?_, ?_, ?_⟩,
    ⟨k0, on, 127, 9, fun _ _ => rfl⟩,
    ⟨k0, setCore on 0 { core0 with lsErr := [(15, 1)] }, 127, 9, ?_, 15, ?_⟩⟩
  all_goals decide +kernel

theorem witness_AwlFaults_2 :
    (∃ core : Core, ∃ s : State, ∃ a : Nat, ∃ n : Nat,
    let k := coreKey core
    let touched (w : Nat) : Prop := a / 8 ≤ w ∧ 8 * w < a + n
    (lsCheck s k a n).2 = false ∧ ∃ w, touched w) ∧
    (∃ core : Core, ∃ s : State, ∃ a : Nat, ∃ n : Nat,
    let k := coreKey core
    let touched (w : Nat) : Prop := a / 8 ≤ w ∧ 8 * w < a + n
    (lsCheck s k a n).2 = false ∧ ∃ w, ¬touched w) ∧
    (∃ core : Core, ∃ ra : Fin 32, ∃ s : State,
    let k := coreKey core
    let c := getCore s k
    let a := (c.sreg ra).toNat
    a % 8 ≠ 0) ∧
    (∃ core : Core, ∃ ra : Fin 32, ∃ s : State,
    let k := coreKey core
    let c := getCore s k
    let a := (c.sreg ra).toNat
    a % 8 = 0 ∧ lsSize ≤ a ∧ a < 0xF00010000000) ∧
    (∃ core : Core, ∃ ra : Fin 32, ∃ s : State,
    let k := coreKey core
    let c := getCore s k
    let a := (c.sreg ra).toNat
    a % 8 = 0 ∧ lsSize ≤ a ∧ a < 0xF00010000000) ∧
    (∃ core : Core, ∃ ra : Fin 32, ∃ s : State,
    let k := coreKey core
    let c := getCore s k
    let a := (c.sreg ra).toNat
    a % 8 = 0 ∧ a + 8 ≤ lsSize ∧ a < c.codeLen) ∧
    (∃ core : Core, ∃ ra : Fin 32, ∃ s : State,
    let k := coreKey core
    let c := getCore s k
    let a := (c.sreg ra).toNat
    let bank := 0xF00010000000 + k / 8 * 0x01000000
    a % 8 = 0 ∧ k < 128 ∧ bank ≤ a ∧ a + 8 ≤ bank + 0x01000000 ∧ bit c.banks ((a - bank) / 0x200000) = false) := by
  refine ⟨⟨k0, setCore on 0 { core0 with lsErr := [(15, 1)] }, 127, 9, ?_, 16, ?_⟩,
    ⟨k0, setCore on 0 { core0 with lsErr := [(15, 1), (17, 2)] }, 127, 9, ?_, 17, ?_⟩,
    ⟨k0, 1, atI k0 (cr 129 2 3) (.ld k0 3 1 0) on, ?_⟩,
    ⟨k0, 1, atI k0 (cr 0x40000 2 3) (.ld k0 3 1 0) on, ?_, ?_, ?_⟩,
    ⟨k0, 1, atI k0 (cr 0xF0000FFFFFF8 2 3) (.sd k0 3 1 0) on, ?_, ?_, ?_⟩,
    ⟨k0, 1, atI k0 (cr 56 2 3) (.sd k0 3 1 0) on, ?_, ?_, ?_⟩,
    ⟨k0, 1, atI k0 (bank2 (cr 0xF00010FFFFF8 2 3)) (.ld k0 3 1 0) on, ?_, ?_, ?_, ?_, ?_⟩⟩
  all_goals decide +kernel

theorem witness_AwlFaults_forms :
    (∀ i ∈ [Instr.ld k0 3 1 0, Instr.sd k0 3 1 0],
      AwlAt k0 i (atI k0 (cr 129 2 3) i on)) ∧
    (∀ i ∈ [Instr.ld k0 3 1 0, Instr.sd k0 3 1 0],
      AwlAt k0 i (atI k0 (cr 0x40000 2 3) i on)) ∧
    (∀ i ∈ [Instr.ld k0 3 1 0, Instr.sd k0 3 1 0],
      AwlAt k0 i (atI k0 (bank2 (cr 0xF00010FFFFF8 2 3)) i on)) := by
  refine ⟨all_at ?_,
    all_at ?_,
    all_at ?_⟩
  all_goals decide +kernel

theorem witness_AwlScalarInstructions :
    (∃ n : Fin 32, n ≠ 0) ∧
    (∃ n : Fin 32, ∃ m : Fin 32, m ≠ n) ∧
    (∃ core : Core, ∃ ra : Fin 32, ∃ s : State,
    let a := (getCore s (coreKey core)).sreg ra
    ∃ n, n ≤ 64 ∧ a.toNat < 2 ^ (64 - n) ∧ ((n < 64 → 2 ^ (63 - n) ≤ a.toNat))) ∧
    (∃ core : Core, ∃ ra : Fin 32, ∃ s : State,
    let a := (getCore s (coreKey core)).sreg ra
    ∃ n, n ≤ 64 ∧ a.toNat < 2 ^ (64 - n) ∧ ((n < 64 → 2 ^ (63 - n) ≤ a.toNat))) ∧
    (∃ core : Core, ∃ ra : Fin 32, ∃ s : State,
    let a := (getCore s (coreKey core)).sreg ra
    ∃ n, n ≤ 64 ∧ a.toNat < 2 ^ (64 - n) ∧ ((n < 64 → 2 ^ (63 - n) ≤ a.toNat))) ∧
    (∃ core : Core, ∃ ra : Fin 32, ∃ off : BitVec 16, ∃ s : State,
    let c := getCore s (coreKey core)
    let a := c.sreg ra
    let t := (BitVec.ofInt 64 (a.toInt + off.toInt)).toNat
    t % 4 = 0) ∧
    (∃ core : Core, ∃ rd : Fin 32, ∃ ra : Fin 32, ∃ off : BitVec 16, ∃ s : State,
    let c := getCore s (coreKey core)
    let a := c.sreg ra
    let t := (BitVec.ofInt 64 (a.toInt + off.toInt)).toNat
    t % 4 ≠ 0 ∧ AwlAt core (.jalr core rd ra off) s) := by
  refine ⟨⟨31, ?_⟩,
    ⟨1, 31, ?_⟩,
    ⟨k0, 1, atI k0 (cr 1 2 3) (.clz k0 3 1) on, 63, ?_, ?_, ?_⟩,
    ⟨k0, 1, atI k0 (cr 0 2 3) (.clz k0 3 1) on, 64, ?_, ?_, ?_⟩,
    ⟨k0, 1, atI k0 (cr 0x8000000000000000 2 3) (.clz k0 3 1) on, 0, ?_, ?_, ?_⟩,
    ⟨k0, 1, 0xFFFC, atI k0 (cr 8 2 3) (.jalr k0 3 1 (0xFFFC)) on, ?_⟩,
    ⟨k0, 3, 1, 0xFFFE, atI k0 (cr 8 2 3) (.jalr k0 3 1 (0xFFFE)) on, ?_, awlAt_of_isAt ?_⟩⟩
  all_goals decide +kernel

theorem witness_AwlScalarInstructions_forms :
    (∀ i ∈ [Instr.add kLast 3 1 2, Instr.sub kLast 3 1 2, Instr.and kLast 3 1 2, Instr.or kLast 3 1 2, Instr.xor kLast 3 1 2, Instr.sll kLast 3 1 2, Instr.srl kLast 3 1 2, Instr.sra kLast 3 1 2, Instr.slt kLast 3 1 2, Instr.sltu kLast 3 1 2, Instr.mul kLast 3 1 2, Instr.mulh kLast 3 1 2, Instr.mulhu kLast 3 1 2, Instr.div kLast 3 1 2, Instr.divu kLast 3 1 2, Instr.rem kLast 3 1 2, Instr.remu kLast 3 1 2, Instr.min kLast 3 1 2, Instr.max kLast 3 1 2, Instr.minu kLast 3 1 2, Instr.maxu kLast 3 1 2],
      AwlAt kLast i (atI kLast (cr 0x8000000000000000 0xFFFFFFFFFFFFFFFF 0) i on)) ∧
    (∀ i ∈ [Instr.div kSup 3 1 2, Instr.divu kSup 3 1 2, Instr.rem kSup 3 1 2, Instr.remu kSup 3 1 2],
      AwlAt kSup i (atI kSup (cr 5 0 0) i on)) ∧
    (∀ i ∈ [Instr.popc k0 3 1, Instr.addi k0 3 1 0xFFFF, Instr.andi k0 3 1 0xFFFF, Instr.ori k0 3 1 0xFFFF, Instr.xori k0 3 1 0xFFFF, Instr.slti k0 3 1 0xFFFF, Instr.sltiu k0 3 1 0xFFFF, Instr.shi k0 3 1 0 63, Instr.shi k0 3 1 1 63, Instr.shi k0 3 1 2 63, Instr.shlo k0 3 1 0xFFFF],
      AwlAt k0 i (atI k0 (cr 0x8000000000000000 2 3) i on)) ∧
    (∀ i ∈ [Instr.beq k0 1 2 0x8000, Instr.bge k0 1 2 5, Instr.bgeu k0 1 2 5, Instr.bne k0 1 2 0x8000, Instr.blt k0 1 2 5, Instr.bltu k0 1 2 5, Instr.j k0 0x2000000, Instr.jal k0 0x3FFFFFF, Instr.jalr k0 3 1 0],
      AwlAt k0 i (atI k0 (cr 8 8 3) i on)) ∧
    (∀ i ∈ [Instr.beq k0 1 2 5, Instr.bge k0 1 2 5, Instr.bgeu k0 1 2 5, Instr.bne k0 1 2 5, Instr.blt k0 1 2 5, Instr.bltu k0 1 2 5],
      AwlAt k0 i (atI k0 (cr 7 8 3) i on)) := by
  refine ⟨all_at ?_,
    all_at ?_,
    all_at ?_,
    all_at ?_,
    all_at ?_⟩
  all_goals decide +kernel

theorem witness_AwlLoadsAndStores :
    (∃ h : Fin 16, ∃ n : Fin 8, ∃ rd : Fin 32, ∃ ra : Fin 32, ∃ b : Fin 8, ∃ s : State,
    let core : Core := .hearth h n
    let c := getCore s (coreKey core)
    let a := (c.sreg ra).toNat
    let bank := 16 + 8 * h.val + b.val
    let ready (w : Nat) : Prop := a % w = 0 ∧ bankBase bank ≤ a ∧ a + w ≤ bankBase bank + bankSize bank ∧ bit c.banks b.val = true ∧
          Machine.rd s (F.BNK_OWNER_OWNER bank) = idDisp h ∧ Machine.rd s (F.BNK_OWNER_CLEARING bank) = 0 ∧ fnState s h ≠ fnSTOPPED ∧ c.lsErr = []
    ready 64) ∧
    (∃ h : Fin 16, ∃ n : Fin 8, ∃ rd : Fin 32, ∃ ra : Fin 32, ∃ b : Fin 8, ∃ s : State,
    let core : Core := .hearth h n
    let c := getCore s (coreKey core)
    let a := (c.sreg ra).toNat
    let bank := 16 + 8 * h.val + b.val
    let ready (w : Nat) : Prop := a % w = 0 ∧ bankBase bank ≤ a ∧ a + w ≤ bankBase bank + bankSize bank ∧ bit c.banks b.val = true ∧
          Machine.rd s (F.BNK_OWNER_OWNER bank) = idDisp h ∧ Machine.rd s (F.BNK_OWNER_CLEARING bank) = 0 ∧ fnState s h ≠ fnSTOPPED ∧ c.lsErr = []
    ready 64) := by
  refine ⟨⟨0, 0, 2, 1, 2, atI k0 (bank2 (cr 0xF00010400000 2 3)) (.vld k0 2 1 0) bankOn, ?_⟩,
    ⟨0, 0, 2, 1, 2, atI k0 (bank2 (cr 0xF000105FFFC0 2 3)) (.vst k0 2 1 0) bankOn, ?_⟩⟩
  all_goals decide +kernel

theorem witness_AwlLoadsAndStores_forms :
    (∀ i ∈ [Instr.lb k0 3 1 0, Instr.lbu k0 3 1 0, Instr.lh k0 3 1 0, Instr.lhu k0 3 1 0, Instr.lw k0 3 1 0, Instr.lwu k0 3 1 0, Instr.ld k0 3 1 0, Instr.vld k0 2 1 0],
      AwlAt k0 i (atI k0 (cr 0x3FFC0 2 3) i on)) ∧
    (∀ i ∈ [Instr.lb k0 3 1 0, Instr.lbu k0 3 1 0, Instr.lh k0 3 1 0, Instr.lhu k0 3 1 0, Instr.lw k0 3 1 0, Instr.lwu k0 3 1 0, Instr.ld k0 3 1 0, Instr.vld k0 2 1 0],
      AwlAt k0 i (atI k0 { cr 64 2 3 with lsErr := [(8, 2)] } i on)) ∧
    ((lsCheck (fetched k0 (setCore on 0 (cr 0x3FFC0 2 3))) 0 0x3FFC0 64).2 = false) ∧
    ((lsCheck (fetched k0 (setCore on 0 { cr 64 2 3 with lsErr := [(8, 2)] })) 0 64 1).2 = true) ∧
    (0x3FFC0 + 64 = lsSize) ∧
    (∀ i ∈ [Instr.sb k0 3 1 0, Instr.sh k0 3 1 0, Instr.sw k0 3 1 0, Instr.sd k0 3 1 0, Instr.vst k0 2 1 0],
      AwlAt k0 i (atI k0 (cr 64 2 3) i on)) ∧
    (∀ i ∈ [Instr.sb k0 3 1 0, Instr.sh k0 3 1 0, Instr.sw k0 3 1 0, Instr.sd k0 3 1 0, Instr.vst k0 2 1 0],
      AwlAt k0 i (atI k0 (cr 0x3FFC0 2 3) i on)) ∧
    (core0.codeLen = 64) ∧
    (∀ i ∈ [Instr.lb k0 3 1 0, Instr.lbu k0 3 1 0, Instr.lh k0 3 1 0, Instr.lhu k0 3 1 0, Instr.lw k0 3 1 0, Instr.lwu k0 3 1 0, Instr.ld k0 3 1 0, Instr.sb k0 3 1 0, Instr.sh k0 3 1 0, Instr.sw k0 3 1 0, Instr.sd k0 3 1 0, Instr.vld k0 2 1 0, Instr.vst k0 2 1 0],
      AwlAt k0 i (atI k0 (bank2 (cr 0xF00010400000 2 3)) i bankOn)) ∧
    (Inv bankOn) := by
  refine ⟨all_at ?_,
    all_at ?_,
    ?_,
    ?_,
    ?_,
    all_at ?_,
    all_at ?_,
    ?_,
    all_at ?_,
    inv_of ?_⟩
  all_goals decide +kernel

theorem witness_AwlVectorResults_1 :
    (∃ et : Fin 8,
    let isF := etFloat et.val
    isF = true) ∧
    (∃ core : Core, ∃ et : Fin 8, ∃ vd : Fin 16, ∃ va : Fin 16, ∃ x : Fin 32, ∃ s : State,
    let c := getCore s (coreKey core)
    AwlAt core (.vfmaw core et vd va x) s ∧ vectorReady c) ∧
    (∃ core : Core, ∃ et : Fin 8, ∃ vd : Fin 16, ∃ va : Fin 16, ∃ x : Fin 32, ∃ s : State,
    let c := getCore s (coreKey core)
    AwlAt core (.vfmaw core et vd va x) s ∧ vectorReady c) ∧
    (∃ et : Fin 8, etFloat et.val = true) ∧
    (∃ core : Core, ∃ vd : Fin 16, ∃ va : Fin 16, ∃ rm : Fin 2, ∃ dfmt : BitVec 8, ∃ sfmt : BitVec 8, ∃ s : State,
    let i : Instr := .vcvt core vd va rm dfmt sfmt
    AwlAt core i s ∧ (Fmt.ofCode dfmt.toNat = none ∨ Fmt.ofCode sfmt.toNat = none)) ∧
    (∃ core : Core, ∃ vd : Fin 16, ∃ va : Fin 16, ∃ rm : Fin 2, ∃ dfmt : BitVec 8, ∃ sfmt : BitVec 8, ∃ s : State,
    let i : Instr := .vcvt core vd va rm dfmt sfmt
    AwlAt core i s ∧ ∃ d, ∃ f, Fmt.ofCode dfmt.toNat = some d ∧ Fmt.ofCode sfmt.toNat = some f ∧
    let plain := d ≠ f ∧ d.isDq = false ∧ f.isDq = false
    let pair := plain ∨ (f.isDq = true ∧ d.float.isSome = true) ∨ (d.isDq = true ∧ f.float.isSome = true)
    ¬pair) ∧
    (∃ core : Core, ∃ vd : Fin 16, ∃ va : Fin 16, ∃ rm : Fin 2, ∃ dfmt : BitVec 8, ∃ sfmt : BitVec 8, ∃ s : State,
    let i : Instr := .vcvt core vd va rm dfmt sfmt
    AwlAt core i s ∧ ∃ d, ∃ f, Fmt.ofCode dfmt.toNat = some d ∧ Fmt.ofCode sfmt.toNat = some f ∧
    let plain := d ≠ f ∧ d.isDq = false ∧ f.isDq = false
    let pair := plain ∨ (f.isDq = true ∧ d.float.isSome = true) ∨ (d.isDq = true ∧ f.float.isSome = true)
    let stochastic := rm.val = 1 ∧ d ≠ .bf16 ∧ d.isDq = false
    pair ∧ stochastic) := by
  refine ⟨⟨4, ?_⟩,
    ⟨k0, 4, 4, 1, 1, atI k0 (cr 1 2 3) (.vfmaw k0 (4) 4 1 1) on, awlAt_of_isAt ?_, ready_of ?_⟩,
    ⟨k0, 5, 4, 1, 1, atI k0 (cr 1 2 3) (.vfmaw k0 (5) 4 1 1) on, awlAt_of_isAt ?_, ready_of ?_⟩,
    ⟨6, ?_⟩,
    ⟨k0, 4, 1, 0, 0xFF, 0x11, atI k0 (cr 1 2 3) (.vcvt k0 4 1 (0) (0xFF) (0x11)) on, awlAt_of_isAt ?_, ?_⟩,
    ⟨k0, 4, 1, 0, 0x11, 0x11, atI k0 (cr 1 2 3) (.vcvt k0 4 1 (0) (0x11) (0x11)) on, awlAt_of_isAt ?_, .bf16, .bf16, ?_, ?_, ?_⟩,
    ⟨k0, 4, 1, 1, 0x10, 0x11, atI k0 (cr 1 2 3) (.vcvt k0 4 1 (1) (0x10) (0x11)) on, awlAt_of_isAt ?_, .fp16, .bf16, ?_, ?_, ?_, ?_⟩⟩
  all_goals decide +kernel

theorem witness_AwlVectorResults_2 :
    (∃ core : Core, ∃ vd : Fin 16, ∃ va : Fin 16, ∃ rm : Fin 2, ∃ dfmt : BitVec 8, ∃ sfmt : BitVec 8, ∃ s : State,
    let i : Instr := .vcvt core vd va rm dfmt sfmt
    let c := getCore s (coreKey core)
    AwlAt core i s ∧ ∃ d, ∃ f, Fmt.ofCode dfmt.toNat = some d ∧ Fmt.ofCode sfmt.toNat = some f ∧
    let plain := d ≠ f ∧ d.isDq = false ∧ f.isDq = false
    let pair := plain ∨ (f.isDq = true ∧ d.float.isSome = true) ∨ (d.isDq = true ∧ f.float.isSome = true)
    let stochastic := rm.val = 1 ∧ d ≠ .bf16 ∧ d.isDq = false
    pair ∧ ¬stochastic ∧ vectorReady c) ∧
    (∃ core : Core, ∃ vd : Fin 16, ∃ va : Fin 16, ∃ rm : Fin 2, ∃ dfmt : BitVec 8, ∃ sfmt : BitVec 8, ∃ s : State,
    let i : Instr := .vcvt core vd va rm dfmt sfmt
    let c := getCore s (coreKey core)
    AwlAt core i s ∧ ∃ d, ∃ f, Fmt.ofCode dfmt.toNat = some d ∧ Fmt.ofCode sfmt.toNat = some f ∧
    let plain := d ≠ f ∧ d.isDq = false ∧ f.isDq = false
    let pair := plain ∨ (f.isDq = true ∧ d.float.isSome = true) ∨ (d.isDq = true ∧ f.float.isSome = true)
    let stochastic := rm.val = 1 ∧ d ≠ .bf16 ∧ d.isDq = false
    pair ∧ ¬stochastic ∧ vectorReady c) := by
  refine ⟨⟨k0, 4, 1, 0, 0x12, 0x11, atI k0 (cr 1 2 3) (.vcvt k0 4 1 (0) (0x12) (0x11)) on, awlAt_of_isAt ?_, .fp32, .bf16, ?_, ?_, ?_, ?_, ready_of ?_⟩,
    ⟨k0, 4, 2, 1, 0x11, 0x12, atI k0 (cr 1 2 3) (.vcvt k0 4 2 1 0x11 0x12) on, awlAt_of_isAt ?_, .bf16, .fp32, ?_, ?_, ?_, ?_, ready_of ?_⟩⟩
  all_goals decide +kernel

theorem witness_AwlVectorResults_forms :
    (∀ i ∈ [Instr.vadd k0 0 4 1 2, Instr.vsub k0 0 4 1 2, Instr.vmul k0 0 4 1 2, Instr.vmin k0 0 4 1 2, Instr.vmax k0 0 4 1 2, Instr.vadds k0 0 4 1 2, Instr.vsubs k0 0 4 1 2, Instr.vfma k0 0 4 1 2, Instr.vabs k0 0 4 1, Instr.vneg k0 0 4 1],
      AwlAt k0 i (atI k0 (cr 1 2 3) i on)) ∧
    (∀ i ∈ [Instr.vadd k0 6 4 1 2, Instr.vsub k0 6 4 1 2, Instr.vmul k0 6 4 1 2, Instr.vmin k0 6 4 1 2, Instr.vmax k0 6 4 1 2, Instr.vdiv k0 6 4 1 2, Instr.vfma k0 6 4 1 2, Instr.vabs k0 6 4 1, Instr.vneg k0 6 4 1, Instr.vsqrt k0 6 4 1, Instr.vexp k0 6 4 1, Instr.vlog k0 6 4 1, Instr.vtanh k0 6 4 1, Instr.verf k0 6 4 1],
      AwlAt k0 i (atI k0 (cr 1 2 3) i on)) ∧
    (vectorReady (cr 1 2 3)) ∧
    (etFloat 0 = false ∧ etFloat 6 = true) := by
  refine ⟨all_at ?_,
    all_at ?_,
    ready_of ?_,
    ?_⟩
  all_goals decide +kernel

theorem witness_AwlVectorBitsAndMoves_forms :
    (∀ i ∈ [Instr.vand k0 2 4 1 2, Instr.vor k0 2 4 1 2, Instr.vxor k0 2 4 1 2, Instr.vceq k0 2 4 1 2, Instr.vclt k0 2 4 1 2, Instr.vcle k0 2 4 1 2, Instr.vsel k0 2 4 1 2, Instr.vshl k0 2 4 1 31, Instr.vshrl k0 2 4 1 31, Instr.vshra k0 2 4 1 31, Instr.vbcast k0 2 4 1, Instr.vins k0 2 4 15 1, Instr.vmov k0 2 4 1, Instr.vperm k0 2 4 1 2, Instr.vext k0 2 1 15 3],
      AwlAt k0 i (atI k0 (cr 1 2 3) i on)) ∧
    (∀ i ∈ [Instr.vceq k0 5 4 1 2, Instr.vclt k0 5 4 1 2, Instr.vcle k0 5 4 1 2, Instr.vsel k0 5 4 1 2],
      AwlAt k0 i (atI k0 (cr 1 2 3) i on)) ∧
    (vectorReady (cr 1 2 3)) ∧
    (etFloat 2 = false ∧ etFloat 5 = true) := by
  refine ⟨all_at ?_,
    all_at ?_,
    ready_of ?_,
    ?_⟩
  all_goals decide +kernel

theorem witness_AwlReductions :
    (∃ core : Core, ∃ et : Fin 8, ∃ va : Fin 16, ∃ s : State,
    let c := getCore s (coreKey core)
    let n := etLanes et
    let num (j : Nat) : Int := sext (etBits et) (vLane et (c.vreg va) j)
    ∃ m : Int, ((∃ j, j < n ∧ m = num j)) ∧ ((∀ j, j < n → num j ≤ m))) ∧
    (∃ core : Core, ∃ et : Fin 8, ∃ va : Fin 16, ∃ s : State,
    let c := getCore s (coreKey core)
    let n := etLanes et
    let num (j : Nat) : Int := sext (etBits et) (vLane et (c.vreg va) j)
    ∃ m : Int, ((∃ j, j < n ∧ m = num j)) ∧ ((∀ j, j < n → m ≤ num j))) := by
  refine ⟨⟨k0, 2, 1, atI k0 (core0.setV 1 5) (.vrmax k0 2 1 2) on, 5, ?_, ?_⟩,
    ⟨k0, 2, 1, atI k0 (core0.setV 1 5) (.vrmax k0 2 1 2) on, 0, ?_, ?_⟩⟩
  all_goals decide +kernel

theorem witness_AwlReductions_forms :
    (∀ i ∈ [Instr.vrsum k0 2 1 2, Instr.vrmin k0 2 1 2, Instr.vrsum k0 4 1 2, Instr.vrmax k0 4 1 2, Instr.vrmin k0 4 1 2, Instr.vamax k0 4 1],
      AwlAt k0 i (atI k0 (cr 1 2 3) i on)) ∧
    (vectorReady (cr 1 2 3)) ∧
    (etFloat 2 = false ∧ etFloat 4 = true) := by
  refine ⟨all_at ?_,
    ready_of ?_,
    ?_⟩
  all_goals decide +kernel

theorem witness_AwlTackTransfers_1 :
    (∃ core : Core, ∃ rb : Fin 32, ∃ s : State,
    let k := coreKey core
    let c := getCore s k
    let n := (c.sreg rb).toNat
    n = 0) ∧
    (∃ core : Core, ∃ rd : Fin 32, ∃ ra : Fin 32, ∃ rb : Fin 32, ∃ s : State,
    let k := coreKey core
    let c := getCore s k
    let l := (c.sreg rd).toNat
    let a := (c.sreg ra).toNat
    let n := (c.sreg rb).toNat
    let ri : Instr := .tackRead core rd ra rb
    let shape := n ≤ 256 ∧ crosses256 l n = false ∧ crosses256 a n = false
    n ≠ 0 ∧ ¬shape ∧ AwlAt core ri s) ∧
    (∃ core : Core, ∃ rd : Fin 32, ∃ ra : Fin 32, ∃ rb : Fin 32, ∃ s : State,
    let k := coreKey core
    let c := getCore s k
    let l := (c.sreg rd).toNat
    let a := (c.sreg ra).toNat
    let n := (c.sreg rb).toNat
    let wi : Instr := .tackWrite core rd ra rb
    let shape := n ≤ 256 ∧ crosses256 l n = false ∧ crosses256 a n = false
    n ≠ 0 ∧ ¬shape ∧ AwlAt core wi s) ∧
    (∃ core : Core, ∃ rd : Fin 32, ∃ ra : Fin 32, ∃ rb : Fin 32, ∃ s : State,
    let k := coreKey core
    let c := getCore s k
    let l := (c.sreg rd).toNat
    let a := (c.sreg ra).toNat
    let n := (c.sreg rb).toNat
    let u := fetched core s
    let ri : Instr := .tackRead core rd ra rb
    let shape := n ≤ 256 ∧ crosses256 l n = false ∧ crosses256 a n = false
    let reach := inOneRegion u a n = true ∧ l + n ≤ lsSize
    n ≠ 0 ∧ shape ∧ ((¬reach ∨ l < c.codeLen)) ∧ AwlAt core ri s) := by
  refine ⟨⟨k0, 3, moving 128 0x1000 0 0 (.tackRead k0 1 2 3), ?_⟩,
    ⟨k0, 1, 2, 3, moving 128 0x1000 257 0 (.tackRead k0 1 2 3), ?_, ?_, awlAt_of_isAt ?_⟩,
    ⟨k0, 1, 2, 3, moving 128 0x10FF 2 0 (.tackWrite k0 1 2 3), ?_, ?_, awlAt_of_isAt ?_⟩,
    ⟨k0, 1, 2, 3, moving 63 0x1000 8 0 (.tackRead k0 1 2 3), ?_, ?_, ?_, awlAt_of_isAt ?_⟩⟩
  all_goals decide +kernel

theorem witness_AwlTackTransfers_2 :
    (∃ core : Core, ∃ rd : Fin 32, ∃ ra : Fin 32, ∃ rb : Fin 32, ∃ s : State,
    let k := coreKey core
    let c := getCore s k
    let l := (c.sreg rd).toNat
    let a := (c.sreg ra).toNat
    let n := (c.sreg rb).toNat
    let u := fetched core s
    let wi : Instr := .tackWrite core rd ra rb
    let shape := n ≤ 256 ∧ crosses256 l n = false ∧ crosses256 a n = false
    let reach := inOneRegion u a n = true ∧ l + n ≤ lsSize
    n ≠ 0 ∧ shape ∧ ¬reach ∧ AwlAt core wi s) ∧
    (∃ core : Core, ∃ rd : Fin 32, ∃ ra : Fin 32, ∃ rb : Fin 32, ∃ s : State,
    let k := coreKey core
    let c := getCore s k
    let l := (c.sreg rd).toNat
    let a := (c.sreg ra).toNat
    let n := (c.sreg rb).toNat
    let u := fetched core s
    let ri : Instr := .tackRead core rd ra rb
    let shape := n ≤ 256 ∧ crosses256 l n = false ∧ crosses256 a n = false
    let reach := inOneRegion u a n = true ∧ l + n ≤ lsSize
    n ≠ 0 ∧ shape ∧ reach ∧ c.codeLen ≤ l ∧ c.outstanding < 16 ∧ AwlAt core ri s ∧ ∃ v, ∃ r,
    tackRead u (coreWho k) a n (coreCmdId u k) = (v, r) ∧ ∃ d, r = .ok d) ∧
    (∃ core : Core, ∃ rd : Fin 32, ∃ ra : Fin 32, ∃ rb : Fin 32, ∃ s : State,
    let k := coreKey core
    let c := getCore s k
    let l := (c.sreg rd).toNat
    let a := (c.sreg ra).toNat
    let n := (c.sreg rb).toNat
    let u := fetched core s
    let ri : Instr := .tackRead core rd ra rb
    let shape := n ≤ 256 ∧ crosses256 l n = false ∧ crosses256 a n = false
    let reach := inOneRegion u a n = true ∧ l + n ≤ lsSize
    n ≠ 0 ∧ shape ∧ reach ∧ c.codeLen ≤ l ∧ c.outstanding < 16 ∧ AwlAt core ri s ∧ ∃ v, ∃ r,
    tackRead u (coreWho k) a n (coreCmdId u k) = (v, r) ∧ ∃ code, r = .fail code) := by
  refine ⟨⟨k0, 1, 2, 3, moving 0x40000 0x1000 8 0 (.tackWrite k0 1 2 3), ?_, ?_, ?_, awlAt_of_isAt ?_⟩,
    ⟨k0, 1, 2, 3, moving 256 0x1000 256 15 (.tackRead k0 1 2 3), ?_, ?_, ?_, ?_, ?_, awlAt_of_isAt ?_, _, .ok (peekBytes (moving 256 0x1000 256 15 (.tackRead k0 1 2 3)) 0x1000 256), pair_of ?_, peekBytes (moving 256 0x1000 256 15 (.tackRead k0 1 2 3)) 0x1000 256, ?_⟩,
    ⟨k0, 1, 2, 3, moving 128 0xF00000000000 8 0 (.tackRead k0 1 2 3), ?_, ?_, ?_, ?_, ?_, awlAt_of_isAt ?_, _, .fail (Code.OWNER_FAULT), pair_of ?_, Code.OWNER_FAULT, ?_⟩⟩
  all_goals decide +kernel

theorem witness_AwlTackTransfers_3 :
    (∃ core : Core, ∃ rd : Fin 32, ∃ ra : Fin 32, ∃ rb : Fin 32, ∃ s : State,
    let k := coreKey core
    let c := getCore s k
    let l := (c.sreg rd).toNat
    let a := (c.sreg ra).toNat
    let n := (c.sreg rb).toNat
    let u := fetched core s
    let ri : Instr := .tackRead core rd ra rb
    let shape := n ≤ 256 ∧ crosses256 l n = false ∧ crosses256 a n = false
    let reach := inOneRegion u a n = true ∧ l + n ≤ lsSize
    n ≠ 0 ∧ shape ∧ reach ∧ c.codeLen ≤ l ∧ c.outstanding < 16 ∧ AwlAt core ri s ∧ ∃ v, ∃ r,
    tackRead u (coreWho k) a n (coreCmdId u k) = (v, r) ∧ r = .wait) ∧
    (∃ core : Core, ∃ rd : Fin 32, ∃ ra : Fin 32, ∃ rb : Fin 32, ∃ s : State,
    let k := coreKey core
    let c := getCore s k
    let l := (c.sreg rd).toNat
    let a := (c.sreg ra).toNat
    let n := (c.sreg rb).toNat
    let u := fetched core s
    let wi : Instr := .tackWrite core rd ra rb
    let shape := n ≤ 256 ∧ crosses256 l n = false ∧ crosses256 a n = false
    let reach := inOneRegion u a n = true ∧ l + n ≤ lsSize
    n ≠ 0 ∧ shape ∧ reach ∧ c.outstanding < 16 ∧ c.puts ≠ 0 ∧ AwlAt core wi s) ∧
    (∃ core : Core, ∃ rd : Fin 32, ∃ ra : Fin 32, ∃ rb : Fin 32, ∃ s : State,
    let k := coreKey core
    let c := getCore s k
    let l := (c.sreg rd).toNat
    let a := (c.sreg ra).toNat
    let n := (c.sreg rb).toNat
    let u := fetched core s
    let wi : Instr := .tackWrite core rd ra rb
    let shape := n ≤ 256 ∧ crosses256 l n = false ∧ crosses256 a n = false
    let reach := inOneRegion u a n = true ∧ l + n ≤ lsSize
    n ≠ 0 ∧ shape ∧ reach ∧ c.outstanding < 16 ∧ c.puts = 0 ∧ (lsCheck u k l n).2 = false ∧ AwlAt core wi s ∧
    let w := (lsCheck u k l n).1
    ∃ v, ∃ r, tackWrite w (coreWho k) a (c.lsBytes l n) (coreCmdId w k) = (v, r) ∧ r = .ok ()) := by
  refine ⟨⟨k0, 1, 2, 3, fst 0x11 2 (moving 128 0x1000 8 0 (.tackRead k0 1 2 3)), ?_, ?_, ?_, ?_, ?_, awlAt_of_isAt ?_, _, .wait, pair_of ?_, ?_⟩,
    ⟨k0, 1, 2, 3, moving 256 0x1000 256 15 (.tackWrite k0 1 2 3), ?_, ?_, ?_, ?_, ?_, awlAt_of_isAt ?_⟩,
    ⟨k0, 1, 2, 3, moving 256 0x1000 256 0 (.tackWrite k0 1 2 3), ?_, ?_, ?_, ?_, ?_, ?_, awlAt_of_isAt ?_, _, .ok (), pair_of ?_, ?_⟩⟩
  all_goals decide +kernel

theorem witness_AwlTackTransfers_4 :
    (∃ core : Core, ∃ rd : Fin 32, ∃ ra : Fin 32, ∃ rb : Fin 32, ∃ s : State,
    let k := coreKey core
    let c := getCore s k
    let l := (c.sreg rd).toNat
    let a := (c.sreg ra).toNat
    let n := (c.sreg rb).toNat
    let u := fetched core s
    let wi : Instr := .tackWrite core rd ra rb
    let shape := n ≤ 256 ∧ crosses256 l n = false ∧ crosses256 a n = false
    let reach := inOneRegion u a n = true ∧ l + n ≤ lsSize
    n ≠ 0 ∧ shape ∧ reach ∧ c.outstanding < 16 ∧ c.puts = 0 ∧ (lsCheck u k l n).2 = false ∧ AwlAt core wi s ∧
    let w := (lsCheck u k l n).1
    ∃ v, ∃ r, tackWrite w (coreWho k) a (c.lsBytes l n) (coreCmdId w k) = (v, r) ∧ ∃ code, r = .fail code) ∧
    (∃ core : Core, ∃ rd : Fin 32, ∃ ra : Fin 32, ∃ rb : Fin 32, ∃ s : State,
    let k := coreKey core
    let c := getCore s k
    let l := (c.sreg rd).toNat
    let a := (c.sreg ra).toNat
    let n := (c.sreg rb).toNat
    let u := fetched core s
    let wi : Instr := .tackWrite core rd ra rb
    let shape := n ≤ 256 ∧ crosses256 l n = false ∧ crosses256 a n = false
    let reach := inOneRegion u a n = true ∧ l + n ≤ lsSize
    n ≠ 0 ∧ shape ∧ reach ∧ c.outstanding < 16 ∧ c.puts = 0 ∧ (lsCheck u k l n).2 = false ∧ AwlAt core wi s ∧
    let w := (lsCheck u k l n).1
    ∃ v, ∃ r, tackWrite w (coreWho k) a (c.lsBytes l n) (coreCmdId w k) = (v, r) ∧ r = .wait) := by
  refine ⟨⟨k0, 1, 2, 3, moving 128 0xF00000000000 8 0 (.tackWrite k0 1 2 3), ?_, ?_, ?_, ?_, ?_, ?_, awlAt_of_isAt ?_, _, .fail (Code.OWNER_FAULT), pair_of ?_, Code.OWNER_FAULT, ?_⟩,
    ⟨k0, 1, 2, 3, fst 0x11 2 (moving 128 0x1000 8 0 (.tackWrite k0 1 2 3)), ?_, ?_, ?_, ?_, ?_, ?_, awlAt_of_isAt ?_, _, .wait, pair_of ?_, ?_⟩⟩
  all_goals decide +kernel

theorem witness_AwlTackTransfers_5 :
    (∃ core : Core, ∃ rd : Fin 32, ∃ ra : Fin 32, ∃ rb : Fin 32, ∃ s : State,
    let k := coreKey core
    let c := getCore s k
    let l := (c.sreg rd).toNat
    let a := (c.sreg ra).toNat
    let n := (c.sreg rb).toNat
    let u := fetched core s
    let ri : Instr := .tackRead core rd ra rb
    let shape := n ≤ 256 ∧ crosses256 l n = false ∧ crosses256 a n = false
    let reach := inOneRegion u a n = true ∧ l + n ≤ lsSize
    n ≠ 0 ∧ shape ∧ reach ∧ c.codeLen ≤ l ∧ 16 ≤ c.outstanding ∧ AwlAt core ri s) ∧
    (∃ core : Core, ∃ rd : Fin 32, ∃ ra : Fin 32, ∃ rb : Fin 32, ∃ s : State,
    let k := coreKey core
    let c := getCore s k
    let l := (c.sreg rd).toNat
    let a := (c.sreg ra).toNat
    let n := (c.sreg rb).toNat
    let u := fetched core s
    let wi : Instr := .tackWrite core rd ra rb
    let shape := n ≤ 256 ∧ crosses256 l n = false ∧ crosses256 a n = false
    let reach := inOneRegion u a n = true ∧ l + n ≤ lsSize
    n ≠ 0 ∧ shape ∧ reach ∧ c.codeLen ≤ l ∧ 16 ≤ c.outstanding ∧ AwlAt core wi s) ∧
    (∃ core : Core, ∃ n : Nat, ∃ o : TackOp, ∃ s : State,
    let k := coreKey core
    let c := getCore s k
    unitLive s (coreUnit k) = true ∧ c.ops[n]? = some o) := by
  refine ⟨⟨k0, 1, 2, 3, moving 128 0x1000 8 16 (.tackRead k0 1 2 3), ?_, ?_, ?_, ?_, ?_, awlAt_of_isAt ?_⟩,
    ⟨k0, 1, 2, 3, moving 128 0x1000 8 16 (.tackWrite k0 1 2 3), ?_, ?_, ?_, ?_, ?_, awlAt_of_isAt ?_⟩,
    ⟨k0, 1, ⟨130, bytes [5]⟩, atI k0 { core0 with ops := [⟨128, bytes [1, 2, 3]⟩, ⟨130, bytes [5]⟩] } (.halt k0) (w0 busy), ?_, ?_⟩⟩
  all_goals decide +kernel

theorem witness_AwlTackTransfers_forms :
    (∀ i ∈ [Instr.tackRead k0 1 2 3, Instr.tackWrite k0 1 2 3],
      AwlAt k0 i (atI k0 (cr 128 0x1000 0) i (w0 busy))) ∧
    (∀ i ∈ [Instr.tackRead k0 1 2 3, Instr.tackWrite k0 1 2 3],
      AwlAt k0 i (atI k0 (cr 128 0x1000 257) i (w0 busy))) := by
  refine ⟨all_at ?_,
    all_at ?_⟩
  all_goals decide +kernel

theorem witness_AwlWaitsAndTokens_1 :
    (∃ core : Core, ∃ s : State,
    let k := coreKey core
    let c := getCore s k
    coreCancelled s k = false ∧ c.outstanding = 0) ∧
    (∃ core : Core, ∃ s : State,
    let k := coreKey core
    let c := getCore s k
    coreCancelled s k = false ∧ c.outstanding ≠ 0 ∧ AwlAt core (.waitOwn core) s) ∧
    (∃ core : Core, ∃ ra : Fin 32, ∃ s : State,
    let k := coreKey core
    let c := getCore s k
    let n := (c.sreg ra).toNat % 2 ^ 32
    coreCancelled s k = false ∧ n ≠ c.seq ∧ seqOver s (k / 8) n = true) ∧
    (∃ core : Core, ∃ ra : Fin 32, ∃ s : State,
    let k := coreKey core
    let c := getCore s k
    let n := (c.sreg ra).toNat % 2 ^ 32
    coreCancelled s k = false ∧ n ≠ c.seq ∧ seqOver s (k / 8) n = false ∧ AwlAt core (.waitSeq core ra) s) ∧
    (∃ core : Core, ∃ ra : Fin 32, ∃ s : State,
    let k := coreKey core
    let c := getCore s k
    let n := (c.sreg ra).toNat % 2 ^ 32
    coreCancelled s k = false ∧ n = c.seq ∧ AwlAt core (.waitSeq core ra) s) ∧
    (∃ core : Core, ∃ s : State,
    let k := coreKey core
    let c := getCore s k
    c.outstanding = 0) ∧
    (∃ core : Core, ∃ s : State,
    let k := coreKey core
    let c := getCore s k
    unitLive s (coreUnit k) = true ∧ rd s (coreStateF k) = awlWAITING ∧ c.wait = some .own ∧ coreCancelled s k = false ∧ c.outstanding = 0) ∧
    (∃ core : Core, ∃ n : BitVec 8, ∃ s : State,
    let k := coreKey core
    coreCancelled s k = false ∧ (n = 0 ∨ 128 ≤ k)) ∧
    (∃ core : Core, ∃ n : BitVec 8, ∃ s : State,
    let k := coreKey core
    coreCancelled s k = false ∧ (n = 0 ∨ 128 ≤ k)) ∧
    (∃ core : Core, ∃ n : BitVec 8, ∃ s : State,
    let k := coreKey core
    let c := getCore s k
    let i : Instr := .tokRequest core n
    coreCancelled s k = false ∧ n ≠ 0 ∧ k < 128 ∧ c.held ≠ 0 ∧ AwlAt core i s) := by
  refine ⟨⟨k0, atI k0 (cr 0 0 0) (.waitOwn k0) (w0 busy), ?_, ?_⟩,
    ⟨k0, atI k0 { cr 0 0 0 with puts := 1 } (.waitOwn k0) (w0 busy), ?_, ?_, awlAt_of_isAt ?_⟩,
    ⟨k0, 1, regs [(F.HRT_DISP_SEQ_NEXT 0, 6)] (atI k0 (cr 5 0 0) (.waitSeq k0 1) (w0 busy)), ?_, ?_, ?_⟩,
    ⟨k0, 1, atI k0 { cr 0 0 0 with seq := 6 } (.waitSeq k0 1) (w0 busy), ?_, ?_, ?_, awlAt_of_isAt ?_⟩,
    ⟨k0, 1, atI k0 (cr 0 0 0) (.waitSeq k0 1) (w0 busy), ?_, ?_, awlAt_of_isAt ?_⟩,
    ⟨k0, atI k0 (cr 0 0 0) (.fence k0) (w0 busy), ?_⟩,
    ⟨k0, regs [(coreStateF 0, awlWAITING)] (atI k0 { cr 0 0 0 with wait := some .own } (.waitOwn k0) (w0 busy)), ?_, ?_, ?_, ?_, ?_⟩,
    ⟨k0, 0, atI k0 (cr 0 0 0) (.tokRequest k0 (0)) (w0 busy), ?_, ?_⟩,
    ⟨kSup, 255, atI kSup (cr 0 0 0) (.tokRequest kSup 255) busy, ?_, ?_⟩,
    ⟨k0, 5, atI k0 { cr 0 0 0 with held := 1 } (.tokRequest k0 5) (w0 busy), ?_, ?_, ?_, ?_, awlAt_of_isAt ?_⟩⟩
  all_goals decide +kernel

theorem witness_AwlWaitsAndTokens_2 :
    (∃ core : Core, ∃ n : BitVec 8, ∃ s : State,
    let k := coreKey core
    let c := getCore s k
    let u := fetched core s
    let i : Instr := .tokRequest core n
    coreCancelled s k = false ∧ n ≠ 0 ∧ k < 128 ∧ c.held = 0 ∧ neverFits u (k / 8) n.toNat = true ∧ AwlAt core i s) ∧
    (∃ core : Core, ∃ n : BitVec 8, ∃ s : State,
    let k := coreKey core
    let c := getCore s k
    let u := fetched core s
    let i : Instr := .tokRequest core n
    coreCancelled s k = false ∧ n ≠ 0 ∧ k < 128 ∧ c.held = 0 ∧ neverFits u (k / 8) n.toNat = false ∧ AwlAt core i s) ∧
    (∃ core : Core, ∃ s : State,
    let k := coreKey core
    coreCancelled s k = false ∧ AwlAt core (.tokRelease core) s) ∧
    (∃ core : Core, ∃ s : State, (getCore s (coreKey core)).lean = true ∧ (getCore s (coreKey core)).held = 0) := by
  refine ⟨⟨k0, 255, regs [(F.DMP_CEIL_CORE_TOKENS, 0)] (atI k0 (cr 0 0 0) (.tokRequest k0 255) (w0 busy)), ?_, ?_, ?_, ?_, ?_, awlAt_of_isAt ?_⟩,
    ⟨k0, 1, pool (atI k0 (cr 0 0 0) (.tokRequest k0 1) (w0 busy)), ?_, ?_, ?_, ?_, ?_, awlAt_of_isAt ?_⟩,
    ⟨k0, atI k0 { cr 0 0 0 with held := 3 } (.tokRelease k0) (w0 busy), ?_, awlAt_of_isAt ?_⟩,
    ⟨k0, atI k0 { cr 1 2 3 with lean := true } (.vadd k0 1 4 1 2) on, ?_, ?_⟩⟩
  all_goals decide +kernel

theorem witness_AwlWaitsAndTokens_forms :
    (∀ i ∈ [Instr.vfma k0 1 4 1 2, Instr.vfmaw k0 4 4 1 1, Instr.vshl k0 1 4 1 1, Instr.vceq k0 1 4 1 2, Instr.vsel k0 1 4 1 2, Instr.vexp k0 4 4 1, Instr.vrsum k0 1 1 3, Instr.vamax k0 4 1, Instr.vcvt k0 4 1 0 0x12 0x11, Instr.vmov k0 1 4 1],
      AwlAt k0 i (atI k0 { cr 1 2 3 with lean := true } i on)) ∧
    (∀ i ∈ [Instr.waitOwn k0, Instr.fence k0, Instr.tokRelease k0, Instr.tokRequest k0 0],
      AwlAt k0 i (atI k0 (cr 5 0 0) i (w0 busy))) := by
  refine ⟨all_at ?_,
    all_at ?_⟩
  all_goals decide +kernel

theorem witness_AwlSystemInstructions :
    (∃ core : Core, ∃ rd : Fin 32, ∃ ra : Fin 32, ∃ s : State,
    let k := coreKey core
    let c := getCore s k
    let off := (c.sreg ra).toNat
    off % 8 = 0 ∧ AwlAt core (.sregr core rd ra) s) ∧
    (∃ core : Core, ∃ ra : Fin 32, ∃ rb : Fin 32, ∃ s : State,
    let k := coreKey core
    let c := getCore s k
    let off := (c.sreg ra).toNat
    off % 8 = 0 ∧ AwlAt core (.sregw core ra rb) s) ∧
    (∃ core : Core, ∃ ra : Fin 32, ∃ s : State,
    let k := coreKey core
    let c := getCore s k
    let off := (c.sreg ra).toNat
    off % 8 ≠ 0) ∧
    (∃ core : Core, ∃ s : State,
    let k := coreKey core
    k < 128 ∧ coreCmd s k = none ∧ AwlAt core (.halt core) s) ∧
    (∃ core : Core, ∃ s : State,
    let k := coreKey core
    128 ≤ k ∧ AwlAt core (.halt core) s) ∧
    (∃ core : Core, ∃ ra : Fin 32, ∃ s : State, AwlAt core (.emit core ra) s) ∧
    (∃ core : Core, ∃ ra : Fin 32, ∃ s : State, AwlAt core (.trap core ra) s) ∧
    (∃ core : Core, ∃ s : State,
    let k := coreKey core
    let c := getCore s k
    coreLive s k = true ∧ budgetSpent k c = true) := by
  refine ⟨⟨kSup, 4, 1, atI kSup (cr 0x1D0300 5 6) (.sregr kSup 4 1) on, ?_, awlAt_of_isAt ?_⟩,
    ⟨kSup, 1, 2, atI kSup (cr 0x40 5 6) (.sregw kSup 1 2) on, ?_, awlAt_of_isAt ?_⟩,
    ⟨kSup, 1, atI kSup (cr 0x44 5 6) (.sregr kSup 4 1) on, ?_⟩,
    ⟨k0, atI k0 { cr 0 0 0 with held := 3 } (.halt k0) on, ?_, ?_, awlAt_of_isAt ?_⟩,
    ⟨kSup, atI kSup (cr 0 0 0) (.halt kSup) on, ?_, awlAt_of_isAt ?_⟩,
    ⟨k0, 1, atI k0 (cr 0x12345 0 0) (.emit k0 1) on, awlAt_of_isAt ?_⟩,
    ⟨k0, 1, atI k0 (cr 0x12345 0 0) (.trap k0 1) on, awlAt_of_isAt ?_⟩,
    ⟨k0, atI k0 { cr 0 0 0 with icount := 1024 } (.halt k0) on, ?_, ?_⟩⟩
  all_goals decide +kernel

theorem witness_AwlSystemInstructions_forms :
    (∀ i ∈ [Instr.crRead k0 3 0, Instr.crRead k0 3 1, Instr.crRead k0 3 2, Instr.crRead k0 3 3, Instr.crRead k0 3 4, Instr.crRead k0 3 5, Instr.crRead k0 3 6, Instr.crRead k0 3 7, Instr.crWrite k0 1 1, Instr.crWrite k0 1 2, Instr.crWrite k0 1 3, Instr.crWrite k0 1 4],
      AwlAt k0 i (atI k0 (cr 0x123456789ABCDEF0 2 3) i on)) ∧
    (∀ i ∈ [Instr.sregr kSup 3 1, Instr.sregw kSup 1 2],
      AwlAt kSup i (atI kSup (cr 0x40 2 3) i on)) ∧
    (∀ i ∈ [Instr.sregr kSup 3 1, Instr.sregw kSup 1 2],
      AwlAt kSup i (atI kSup (cr 0x44 2 3) i on)) := by
  refine ⟨all_at ?_,
    all_at ?_,
    all_at ?_⟩
  all_goals decide +kernel

theorem witness_AwlQueues_1 :
    (∃ h : Fin 16, ∃ n : Fin 8, ∃ ra : Fin 32, ∃ rb : Fin 32, ∃ g : Fin 16, ∃ q : Fin 64, ∃ s : State,
    let core : Core := .hearth h n
    let k := coreKey core
    let c := getCore s k
    let v := (c.sreg ra).toNat
    let names := (c.sreg rb).toNat = q.val + 256 * g.val
    coreCancelled s k = false ∧ names ∧ handleOk s c.ticket v = true ∧ c.outstanding < 16 ∧ putOpen s g q c.ticket = true ∧
    AwlAt core (.awlQput core ra rb) s) ∧
    (∃ h : Fin 16, ∃ n : Fin 8, ∃ ra : Fin 32, ∃ rb : Fin 32, ∃ g : Fin 16, ∃ q : Fin 64, ∃ s : State,
    let core : Core := .hearth h n
    let k := coreKey core
    let c := getCore s k
    let v := (c.sreg ra).toNat
    let names := (c.sreg rb).toNat = q.val + 256 * g.val
    coreCancelled s k = false ∧ names ∧ handleOk s c.ticket v = false ∧ AwlAt core (.awlQput core ra rb) s) ∧
    (∃ h : Fin 16, ∃ n : Fin 8, ∃ rb : Fin 32, ∃ g : Fin 16, ∃ q : Fin 64, ∃ s : State,
    let core : Core := .hearth h n
    let k := coreKey core
    let c := getCore s k
    let queue (s : State) (h q : Nat) : HQueue := (getDisp s h).queue q
    let names := (c.sreg rb).toNat = q.val + 256 * g.val
    coreCancelled s k = false ∧ ∃ x, ∃ xs, g = h ∧ names ∧ (queue s h q).entries = x :: xs ∧ queueFor (queue s h q) c.ticket = true) ∧
    (∃ h : Fin 16, ∃ n : Fin 8, ∃ rd : Fin 32, ∃ rb : Fin 32, ∃ g : Fin 16, ∃ q : Fin 64, ∃ s : State,
    let core : Core := .hearth h n
    let k := coreKey core
    let c := getCore s k
    let queue (s : State) (h q : Nat) : HQueue := (getDisp s h).queue q
    let names := (c.sreg rb).toNat = q.val + 256 * g.val
    coreCancelled s k = false ∧ g = h ∧ names ∧ (queue s h q).entries = [] ∧ queueFor (queue s h q) c.ticket = true ∧
    AwlAt core (.qget core rd rb) s) := by
  refine ⟨⟨0, 0, 2, 3, 0, 5, atI k0 { cr 0 0x40000001 5 with puts := 15 } (.awlQput k0 2 3) (queueS []), ?_, ?_, ?_, ?_, ?_, awlAt_of_isAt ?_⟩,
    ⟨0, 0, 2, 3, 0, 5, atI k0 (cr 0 0xFFFFFFFFFFFFFFFF 5) (.awlQput k0 2 3) (queueS []), ?_, ?_, ?_, awlAt_of_isAt ?_⟩,
    ⟨0, 0, 3, 0, 5, atI k0 (cr 0 0 5) (.qget k0 4 3) (queueS [⟨3, 0⟩, ⟨4, 1⟩]), ?_, ⟨3, 0⟩, [⟨4, 1⟩], ?_, ?_, ?_, ?_⟩,
    ⟨0, 0, 4, 3, 0, 5, atI k0 (cr 0 0 5) (.qget k0 4 3) (queueS []), ?_, ?_, ?_, ?_, ?_, awlAt_of_isAt ?_⟩⟩
  all_goals decide +kernel

theorem witness_AwlQueues_2 :
    (∃ h : Fin 16, ∃ n : Fin 8, ∃ rd : Fin 32, ∃ rb : Fin 32, ∃ g : Fin 16, ∃ q : Fin 64, ∃ s : State,
    let core : Core := .hearth h n
    let k := coreKey core
    let c := getCore s k
    let queue (s : State) (h q : Nat) : HQueue := (getDisp s h).queue q
    let names := (c.sreg rb).toNat = q.val + 256 * g.val
    coreCancelled s k = false ∧ g = h ∧ names ∧ (queue s h q).entries = [] ∧ queueFor (queue s h q) c.ticket = true ∧
    AwlAt core (.qtry core rd rb) s) ∧
    (∃ h : Fin 16, ∃ n : Fin 8, ∃ rd : Fin 32, ∃ rb : Fin 32, ∃ g : Fin 16, ∃ q : Fin 64, ∃ s : State,
    let core : Core := .hearth h n
    let k := coreKey core
    let c := getCore s k
    let queue (s : State) (h q : Nat) : HQueue := (getDisp s h).queue q
    let names := (c.sreg rb).toNat = q.val + 256 * g.val
    coreCancelled s k = false ∧ g = h ∧ names ∧ queueFor (queue s h q) c.ticket = false ∧ AwlAt core (.qtry core rd rb) s) ∧
    (∃ h : Fin 16, ∃ n : Fin 8, ∃ rd : Fin 32, ∃ rb : Fin 32, ∃ g : Fin 16, ∃ q : Fin 64, ∃ s : State,
    let core : Core := .hearth h n
    let k := coreKey core
    let c := getCore s k
    let names := (c.sreg rb).toNat = q.val + 256 * g.val
    coreCancelled s k = false ∧ g ≠ h ∧ names ∧ AwlAt core (.qget core rd rb) s) ∧
    (∃ h : Fin 16, ∃ n : Fin 8, ∃ rd : Fin 32, ∃ rb : Fin 32, ∃ g : Fin 16, ∃ q : Fin 64, ∃ s : State,
    let core : Core := .hearth h n
    let k := coreKey core
    let c := getCore s k
    let names := (c.sreg rb).toNat = q.val + 256 * g.val
    coreCancelled s k = false ∧ g ≠ h ∧ names ∧ AwlAt core (.qtry core rd rb) s) := by
  refine ⟨⟨0, 0, 4, 3, 0, 5, atI k0 (cr 0 0 5) (.qtry k0 4 3) (queueS []), ?_, ?_, ?_, ?_, ?_, awlAt_of_isAt ?_⟩,
    ⟨0, 0, 4, 3, 0, 5, atI k0 (cr 0 0 5) (.qtry k0 4 3) (setDisp (w0 busy) 0 { getDisp (w0 busy) 0 with queues := [(5, ⟨some 1, [], 0⟩)] }), ?_, ?_, ?_, ?_, awlAt_of_isAt ?_⟩,
    ⟨0, 0, 4, 3, 1, 5, atI k0 (cr 0 0 0x105) (.qget k0 4 3) (queueS []), ?_, ?_, ?_, awlAt_of_isAt ?_⟩,
    ⟨0, 0, 4, 3, 15, 63, atI k0 (cr 0 0 0xF3F) (.qtry k0 4 3) (queueS []), ?_, ?_, ?_, awlAt_of_isAt ?_⟩⟩
  all_goals decide +kernel

theorem witness_AwlQueues_forms :
    (∀ i ∈ [Instr.qget k0 4 3, Instr.qtry k0 4 3],
      AwlAt k0 i (atI k0 (cr 0 0 5) i (queueS [⟨3, 0⟩, ⟨4, 1⟩]))) ∧
    (∀ i ∈ [Instr.qget k0 4 3, Instr.qtry k0 4 3],
      AwlAt k0 i (atI k0 (cr 0 0 0x105) i (queueS []))) := by
  refine ⟨all_at ?_,
    all_at ?_⟩
  all_goals decide +kernel

theorem witness_PowerOnAndLoss :
    (∃ s : State, s.auxOn = false) ∧
    (∃ s : State, s.power = .aux ∧ s.thermTrip = false ∧ s.pwrFault = false) ∧
    (∃ s : State, (s.power ≠ .aux ∨ s.thermTrip = true ∨ s.pwrFault = true)) ∧
    (∃ s : State, (s.power ≠ .aux ∨ s.thermTrip = true ∨ s.pwrFault = true)) ∧
    (∃ s : State, mainPowered s = false) ∧
    (∃ s : State, s.auxOn = true) := by
  refine ⟨⟨State.reset, ?_⟩,
    ⟨aux, ?_, ?_, ?_⟩,
    ⟨{ aux with thermTrip := true }, ?_⟩,
    ⟨on, ?_⟩,
    ⟨aux, ?_⟩,
    ⟨on, ?_⟩⟩
  all_goals decide +kernel

theorem witness_PowerOnAndLoss_forms :
mainPowered on = true ∧ mainPowered aux = false ∧ on.auxOn = true := by
  refine ?_
  all_goals decide +kernel

theorem witness_KindlingStages :
    (∃ s : State, (∀ k, slotEmpty s k = true)) ∧
    (∃ s : State,
    let waits := s.power = .kindling ∧ s.scanHold = false ∧ rd s F.KDL_STATUS_FAILED = 0
    waits ∧ rd s F.KDL_STATUS_STAGE = 7) ∧
    (∃ s : State,
    let waits := s.power = .kindling ∧ s.scanHold = false ∧ rd s F.KDL_STATUS_FAILED = 0
    waits ∧ rd s F.KDL_STATUS_STAGE = 7 ∧ ∃ a : Bool, ∃ b : Bool, (a && b) = false) ∧
    (∃ s : State,
    let waits := s.power = .kindling ∧ s.scanHold = false ∧ rd s F.KDL_STATUS_FAILED = 0
    waits ∧ rd s F.KDL_STATUS_STAGE = 8) ∧
    (∃ s : State,
    let waits := s.power = .kindling ∧ s.scanHold = false ∧ rd s F.KDL_STATUS_FAILED = 0
    waits ∧ rd s F.KDL_STATUS_STAGE = 9) ∧
    (∃ s : State,
    let waits := s.power = .kindling ∧ s.scanHold = false ∧ rd s F.KDL_STATUS_FAILED = 0
    waits ∧ rd s F.KDL_STATUS_STAGE = 10) ∧
    (∃ s : State,
    let waits := s.power = .kindling ∧ s.scanHold = false ∧ rd s F.KDL_STATUS_FAILED = 0
    waits ∧ rd s F.KDL_STATUS_STAGE = 11) ∧
    (∃ s : State, ∃ i, s.image = some i) ∧
    (∃ s : State, ∃ i, s.image = some i ∧ ∃ f, f ∈ allFuncs) ∧
    (∃ s : State,
    let waits := s.power = .kindling ∧ s.scanHold = false ∧ rd s F.KDL_STATUS_FAILED = 0
    waits ∧ rd s F.KDL_STATUS_STAGE = 13 ∧ ∃ i, s.image = some i) := by
  refine ⟨⟨State.reset, slots_empty⟩,
    ⟨scanK 7, ?_, ?_⟩,
    ⟨scanK 7, ?_, ?_, true, false, ?_⟩,
    ⟨scanK 8, ?_, ?_⟩,
    ⟨scanK 9, ?_, ?_⟩,
    ⟨scanK 10, ?_, ?_⟩,
    ⟨scanK 11, ?_, ?_⟩,
    ⟨{ scanK 11 with image := some img0 }, img0, ?_⟩,
    ⟨{ scanK 11 with image := some img0 }, img0, ?_, 0, ?_⟩,
    ⟨{ scanK 13 with image := some img0 }, ?_, ?_, img0, ?_⟩⟩
  all_goals decide +kernel

/-- The image of `imageS` passes if its signature verifies (log entry 3). -/
theorem witness_KindlingStages_image (hv : ∀ k d g, Config.mldsaVerify k d g = true) :
    0 < 2 ∧ slotOutcome imageS 0 = (5, 0) :=
  ⟨by decide, image_passes hv⟩

theorem witness_Rekindling :
    (∃ src : Src, ∃ s : State, served s src = true ∧ isLead s src = false) ∧
    (∃ src : Src, ∃ v : BitVec 64, ∃ s : State, served s src = true ∧ isLead s src = true ∧ v.toNat % 65536 ≠ 0x4B49) ∧
    (∃ src : Src, ∃ v : BitVec 64, ∃ s : State, served s src = true ∧ isLead s src = true ∧ v.toNat % 65536 = 0x4B49 ∧ s.power = .run ∧
    stopActive s = false) ∧
    (∃ src : Src, ∃ v : BitVec 64, ∃ s : State, served s src = true ∧ isLead s src = true ∧ v.toNat % 65536 = 0x4B49 ∧ s.power = .run ∧
    stopActive s = true) ∧
    (∃ src : Src, ∃ v : BitVec 64, ∃ s : State, served s src = true ∧ isLead s src = true ∧ v.toNat % 65536 = 0x4B49 ∧
    (s.power = .stopped ∨ (s.power = .kindling ∧ rd s F.KDL_STATUS_FAILED = 1))) ∧
    (∃ src : Src, ∃ v : BitVec 64, ∃ s : State, served s src = true ∧ isLead s src = true ∧ v.toNat % 65536 = 0x4B49 ∧ s.power = .kindling ∧
    rd s F.KDL_STATUS_FAILED = 0) ∧
    (∃ src : Src, ∃ s : State, served s src = true ∧ ((s.rekindle = 1 ∧ s.power = .stopped) ∨ (s.rekindle = 2 ∧ mainPowered s = true))) ∧
    (∃ src : Src, ∃ s : State, served s src = true ∧ ((s.rekindle = 1 ∧ s.power = .stopped) ∨ (s.rekindle = 2 ∧ mainPowered s = true))) := by
  refine ⟨⟨.host 1, busy, ?_, ?_⟩,
    ⟨.host 0, 0x4B48, busy, ?_, ?_, ?_⟩,
    ⟨.host 0, 0x34B49, busy, ?_, ?_, ?_, ?_, ?_⟩,
    ⟨.host 0, 0x34B49, stopping busy, ?_, ?_, ?_, ?_, ?_⟩,
    ⟨.host 0, 0x34B49, stopped busy, ?_, ?_, ?_, ?_⟩,
    ⟨.host 0, 0x34B49, scanK 2, ?_, ?_, ?_, ?_, ?_⟩,
    ⟨.host 0, stopped { busy with rekindle := 1 }, ?_, ?_⟩,
    ⟨.host 0, { scanK 13 with rekindle := 2 }, ?_, ?_⟩⟩
  all_goals decide +kernel

theorem witness_FunctionControl_1 :
    (∃ src : Src, ∃ s : State, served s src = true ∧ isLead s src = false) ∧
    (∃ src : Src, ∃ s : State, served s src = true ∧ isLead s src = true ∧ stopActive s = true) ∧
    (∃ src : Src, ∃ f : BitVec 8, ∃ s : State,
    let n := f.toNat
    served s src = true ∧ isLead s src = true ∧ stopActive s = false ∧ 0x34 ≤ n ∧ srcId src = idHost (n - 0x34)) ∧
    (∃ src : Src, ∃ f : BitVec 8, ∃ s : State,
    let n := f.toNat
    served s src = true ∧ isLead s src = true ∧ stopActive s = false ∧ (n < 0x34 ∨ srcId src ≠ idHost (n - 0x34)) ∧ fnState s n ≠ fnRUN) ∧
    (∃ src : Src, ∃ f : BitVec 8, ∃ s : State,
    let n := f.toNat
    served s src = true ∧ isLead s src = true ∧ stopActive s = false ∧ (n < 0x34 ∨ srcId src ≠ idHost (n - 0x34)) ∧ isFunc n = true ∧
    fnState s n = fnRUN) ∧
    (∃ src : Src, ∃ f : BitVec 8, ∃ s : State,
    let n := f.toNat
    served s src = true ∧ isLead s src = true ∧ stopActive s = false ∧ (n < 0x34 ∨ srcId src ≠ idHost (n - 0x34)) ∧ isFunc n = true ∧
    fnState s n = fnRUN) ∧
    (∃ f : BitVec 8, ∃ s : State,
    let n := f.toNat
    isRun s = true ∧ stopActive s = false ∧ isFunc n = true ∧ fnState s n = fnSTOPPING ∧ funcDone s n = true) ∧
    (∃ f : BitVec 8, ∃ s : State,
    let n := f.toNat
    isRun s = true ∧ fnState s n = fnSTOPPING ∧ funcDone s n = false) ∧
    (∃ src : Src, ∃ f : BitVec 8, ∃ s : State, served s src = true ∧ isLead s src = true ∧
    let n := f.toNat
    restartable s n = false) ∧
    (∃ src : Src, ∃ f : BitVec 8, ∃ s : State, served s src = true ∧ isLead s src = true ∧
    let n := f.toNat
    restartable s n = true ∧ (restartCtx s n).bad n = true) ∧
    (∃ src : Src, ∃ f : BitVec 8, ∃ s : State, served s src = true ∧ isLead s src = true ∧
    let n := f.toNat
    restartable s n = true ∧ (restartCtx s n).bad n = false) := by
  refine ⟨⟨.host 1, busy, ?_, ?_⟩,
    ⟨.host 0, stopping busy, ?_, ?_, ?_⟩,
    ⟨.host 0, 0x34, busy, ?_, ?_, ?_, ?_, ?_⟩,
    ⟨.host 0, 0x33, fst 0x33 1 busy, ?_, ?_, ?_, ?_, ?_⟩,
    ⟨.host 0, 0, busy, ?_, ?_, ?_, ?_, ?_, ?_⟩,
    ⟨.host 0, 0x33, busy, ?_, ?_, ?_, ?_, ?_, ?_⟩,
    ⟨0, nx (exec (.funcStop (.host 0) 0) busy), ?_, ?_, ?_, ?_, ?_⟩,
    ⟨0, nx (exec (.funcStop (.host 0) 0) (window { cmd0 (record 64 [(0, 1, 0x10)]) with st := .working } busy)), ?_, ?_, ?_⟩,
    ⟨.host 0, 0, busy, ?_, ?_, ?_⟩,
    ⟨.host 0, 0x14, fst 0x14 2 busy, ?_, ?_, ?_, ?_⟩,
    ⟨.host 0, 3, fst 3 2 busy, ?_, ?_, ?_, ?_⟩⟩
  all_goals decide +kernel

theorem witness_FunctionControl_2 :
    ∃ src : Src, ∃ f : BitVec 8, ∃ s : State, served s src = true ∧ isLead s src = true ∧
    let n := f.toNat
    restartable s n = true ∧ (restartCtx s n).bad n = false ∧ s.held = [] ∧ (n = 0x10 ∨ n = 0x12 ∨ n = 0x14) := by
  refine ⟨.host 0, 0x10, codOn 255 (fst 0x10 2 busy), ?_, ?_, ?_, ?_, ?_, ?_⟩
  all_goals decide +kernel

theorem witness_RegisterWritesAndReads :
    (∃ src : Src, ∃ off : Nat, ∃ s : State, ∃ g : RegGroup, ∃ i : Nat, ∃ j : Nat, ∃ f : Nat, served s src = true ∧
    lookupReg off = some (g, i, j) ∧ g.func ≠ .route ∧ g.funcOf i = some f ∧ fnState s f = fnSTOPPED) ∧
    (∃ src : Src, ∃ off : Nat, ∃ s : State, ∃ g : RegGroup, ∃ i : Nat, ∃ j : Nat, ∃ f : Nat, served s src = true ∧
    lookupReg off = some (g, i, j) ∧ g.func ≠ .route ∧ g.funcOf i = some f ∧ fnState s f ≠ fnSTOPPED) ∧
    (∃ src : Src, ∃ off : Nat, ∃ s : State, ∃ g : RegGroup, ∃ i : Nat, ∃ j : Nat, ∃ f : Nat, served s src = true ∧
    lookupReg off = some (g, i, j) ∧ g.func ≠ .route ∧ g.funcOf i = some f ∧ fnState s f ≠ fnSTOPPED) ∧
    (∃ src : Src, ∃ off : Nat, ∃ s : State, ∃ g : RegGroup, ∃ i : Nat, ∃ j : Nat, served s src = true ∧ lookupReg off = some (g, i, j) ∧
    g.func = .none ∧ off % 8 = 0 ∧
    g.base ∉ [0x40, 0x60, 0x68, 0x100120, 0x1B0000, 0x1D0010, 0x1D0020, 0x1D0100, 0x1D0108, 0x1D0110, 0x1D0300, 0x1EA000, 0x1EA018, 0x1F0030, 0x200000, 0x200020, 0x208040, 0x1F00000]) ∧
    (∃ src : Src, ∃ off : Nat, ∃ len : Nat, ∃ s : State, served s src = true ∧ ∃ p : Fin 2, src = .host p ∧ (len ≠ 8 ∨ off % 8 ≠ 0)) ∧
    (∃ src : Src, ∃ off : Nat, ∃ len : Nat, ∃ s : State, served s src = true ∧ ∃ p : Fin 2, src = .host p ∧ (len ≠ 8 ∨ off % 8 ≠ 0)) ∧
    (∃ src : Src, ∃ off : Nat, ∃ s : State, ∃ g : RegGroup, ∃ i : Nat, ∃ j : Nat, served s src = true ∧ lookupReg off = some (g, i, j) ∧
    g.rc ≠ 0 ∧ off ≠ F.MGT_DBG_DATA_DATA.off ∧ off < 0x1000000) := by
  refine ⟨⟨.host 0, F.DMP_POLICY_MODE.off, fst 0x13 2 on, (rowOf (F.DMP_POLICY_MODE.off)).1, (rowOf (F.DMP_POLICY_MODE.off)).2.1, (rowOf (F.DMP_POLICY_MODE.off)).2.2, 0x13, ?_, row_of (by decide +kernel), ?_, ?_, ?_⟩,
    ⟨.host 0, F.DMP_POLICY_MODE.off, on, (rowOf (F.DMP_POLICY_MODE.off)).1, (rowOf (F.DMP_POLICY_MODE.off)).2.1, (rowOf (F.DMP_POLICY_MODE.off)).2.2, 0x13, ?_, row_of (by decide +kernel), ?_, ?_, ?_⟩,
    ⟨.host 0, F.AWL_HCFG_SCRUB_EN 15 |>.off, on, (rowOf (F.AWL_HCFG_SCRUB_EN 15 |>.off)).1, (rowOf (F.AWL_HCFG_SCRUB_EN 15 |>.off)).2.1, (rowOf (F.AWL_HCFG_SCRUB_EN 15 |>.off)).2.2, 15, ?_, row_of (by decide +kernel), ?_, ?_, ?_⟩,
    ⟨.host 0, 0x10, on, (rowOf (0x10)).1, (rowOf (0x10)).2.1, (rowOf (0x10)).2.2, ?_, row_of (by decide +kernel), ?_, ?_, ?_⟩,
    ⟨.host 0, 0x40, 4, on, ?_, 0, rfl, ?_⟩,
    ⟨.host 1, 0x44, 8, on, ?_, 1, rfl, ?_⟩,
    ⟨.host 0, 0x58, on, (rowOf (0x58)).1, (rowOf (0x58)).2.1, (rowOf (0x58)).2.2, ?_, row_of (by decide +kernel), ?_, ?_, ?_⟩⟩
  all_goals decide +kernel

theorem witness_CancellingTickets :
    (∃ src : Src, ∃ n : BitVec 48, ∃ s : State, served s src = true ∧ isLead s src = true ∧ (∀ t ∈ s.tickets, t.num ≠ n.toNat)) ∧
    (∃ src : Src, ∃ n : BitVec 48, ∃ s : State, served s src = true ∧ isLead s src = true ∧ ∃ x,
    s.tickets.find? (·.num == n.toNat) = some x ∧ x.cancelling = false) := by
  refine ⟨⟨.host 0, 8, busy, ?_, ?_, ?_⟩,
    ⟨.host 0, 7, busy, ?_, ?_, ticket0, ?_, ?_⟩⟩
  all_goals decide +kernel

theorem witness_RingsAndDoorbells :
    (∃ p : Fin 2, ∃ r : Fin 4, ∃ v : BitVec 64, ∃ s : State, served s (.host p) = true ∧
    let lg := bits v.toNat 4 5
    let base := rd s (F.HIF_RING_BASE_BASE p r)
    v.getLsbD 0 = true ∧ ringOn s p r = false ∧ 4 ≤ lg ∧ lg ≤ 16 ∧ base % 64 = 0 ∧ 0x100000000000 * (p.val + 1) ≤ base ∧
    base + 64 * 2 ^ lg ≤ 0x100000000000 * (p.val + 2)) ∧
    (∃ p : Fin 2, ∃ r : Fin 4, ∃ v : BitVec 64, ∃ s : State, served s (.host p) = true ∧
    let lg := bits v.toNat 4 5
    let base := rd s (F.HIF_RING_BASE_BASE p r)
    v.getLsbD 0 = true ∧ ringOn s p r = false ∧ 4 ≤ lg ∧ lg ≤ 16 ∧ base % 64 = 0 ∧ 0x100000000000 * (p.val + 1) ≤ base ∧
    base + 64 * 2 ^ lg ≤ 0x100000000000 * (p.val + 2)) ∧
    (∃ p : Fin 2, ∃ r : Fin 4, ∃ s : State, served s (.host p) = true ∧ ringOn s p r = true) ∧
    (∃ p : Fin 2, ∃ r : Fin 4, ∃ v : BitVec 64, ∃ s : State, served s (.host p) = true ∧
    let d := v.toNat % 2 ^ 32
    doorbellOk s p r d = true) ∧
    (∃ p : Fin 2, ∃ r : Fin 4, ∃ v : BitVec 64, ∃ s : State, served s (.host p) = true ∧
    let d := v.toNat % 2 ^ 32
    doorbellOk s p r d = false) ∧
    (∃ d : Nat, d < 2 ^ 32) := by
  refine ⟨⟨0, 1, 0x41, ringReady on, ?_, ?_, ?_, ?_, ?_, ?_, ?_, ?_⟩,
    ⟨0, 1, 0x101, ringReady on, ?_, ?_, ?_, ?_, ?_, ?_, ?_, ?_⟩,
    ⟨0, 1, ringUp 3 5 on, ?_, ?_⟩,
    ⟨0, 1, 19, ringUp 3 5 on, ?_, ?_⟩,
    ⟨0, 1, 20, ringUp 3 5 on, ?_, ?_⟩,
    ⟨0xFFFFFFFF, ?_⟩⟩
  all_goals decide +kernel

theorem witness_TicketIntakeAndStart_1 :
    (∃ e : Bytes, ∃ p : Nat, ∃ r : Nat, ∃ s : State, ∃ u : State, unitLive s (U.sup 0) = true ∧ stopActive s = false ∧
    intakeRing s = some (p, r) ∧ e.length = 64 ∧
    let head := F.HIF_RING_IDX_HEAD p r
    let addr := ringBase s p r + 64 * (rd s head % ringSize s p r)
    access s idSup addr 64 false none = (u, .ok ()) ∧
    let v := wrapAdd { u with nextRing := (4 * p + r + 1) % 8 } head 1
    ∃ g, ticketCheck v e = (0, some g) ∧ field e 0xC 4 ≠ 0) ∧
    (∃ e : Bytes, ∃ p : Nat, ∃ r : Nat, ∃ s : State, ∃ u : State, unitLive s (U.sup 0) = true ∧ stopActive s = false ∧
    intakeRing s = some (p, r) ∧ e.length = 64 ∧
    let head := F.HIF_RING_IDX_HEAD p r
    let addr := ringBase s p r + 64 * (rd s head % ringSize s p r)
    access s idSup addr 64 false none = (u, .ok ()) ∧
    let v := wrapAdd { u with nextRing := (4 * p + r + 1) % 8 } head 1
    ∃ code, ∃ g, code ≠ 0 ∧ ticketCheck v e = (code, g)) ∧
    (∃ e : Bytes, ∃ p : Nat, ∃ r : Nat, ∃ s : State, ∃ u : State, unitLive s (U.sup 0) = true ∧ stopActive s = false ∧
    intakeRing s = some (p, r) ∧ e.length = 64 ∧
    let head := F.HIF_RING_IDX_HEAD p r
    let addr := ringBase s p r + 64 * (rd s head % ringSize s p r)
    access s idSup addr 64 false none = (u, .ok ()) ∧
    let v := wrapAdd { u with nextRing := (4 * p + r + 1) % 8 } head 1
    ∃ code, ∃ g, code ≠ 0 ∧ ticketCheck v e = (code, g)) ∧
    (∃ e : Bytes, ∃ p : Nat, ∃ r : Nat, ∃ s : State, ∃ u : State, unitLive s (U.sup 0) = true ∧ stopActive s = false ∧
    intakeRing s = some (p, r) ∧ e.length = 64 ∧
    let head := F.HIF_RING_IDX_HEAD p r
    let addr := ringBase s p r + 64 * (rd s head % ringSize s p r)
    access s idSup addr 64 false none = (u, .ok ())) := by
  refine ⟨⟨entryB 0x100000002000 1, 0, 1, inS, _, ?_, ?_, ?_, ?_, pair_of ?_, prog0, ?_, ?_⟩,
    ⟨entryB 0x100000002001 1, 0, 1, inS, _, ?_, ?_, ?_, ?_, pair_of ?_, 2592, none, ?_, ?_⟩,
    ⟨entryB 0x100000002000 5, 0, 1, inS, _, ?_, ?_, ?_, ?_, pair_of ?_, 2594, none, ?_, ?_⟩,
    ⟨entryB 0x100000002000 5, 0, 1, inS, _, ?_, ?_, ?_, ?_, pair_of ?_⟩⟩
  all_goals decide +kernel

theorem witness_TicketIntakeAndStart_2 :
    (∃ x : Ticket, ∃ xs : List Ticket, ∃ s : State, ∃ u : State, unitLive s (U.sup 0) = true ∧ startQueue s = x :: xs ∧ ∃ d,
    memRead s idSup (x.prog.secAddr + x.prog.entry) 64 none = (u, .ok d) ∧ x.prog.training = true ∧
    ((∀ y ∈ u.tickets, y.key = x.key → y.cancelling = false))) ∧
    (∃ x : Ticket, ∃ xs : List Ticket, ∃ s : State, ∃ u : State, unitLive s (U.sup 3) = true ∧ sup3Free s = true ∧ kind2Waiting s = x :: xs ∧
    ∃ code, memRead s idSup x.prog.secAddr x.prog.secLen none = (u, .ok code)) := by
  refine ⟨⟨tw, [], startS tw, _, ?_, ?_, bytes [0x40, 0, 0, 0, 0x80] ++ zeros 59, pair_of ?_, ?_, ?_⟩,
    ⟨tw2, [], startS tw2, _, ?_, ?_, ?_, peekBytes (startS tw2) 0x10000 4096, pair_of ?_⟩⟩
  all_goals decide +kernel

theorem witness_CommandFetch_1 :
    (∃ h : Fin 16, ∃ f : NextFetch, ∃ s : State, unitLive s (U.disp h) = true ∧ fnState s h = fnRUN ∧ nextFetch s h = some f ∧
    f.recompute = false ∧ f.ticket.eval = false ∧ f.ticket.prog.secLen < f.off + 64) ∧
    (∃ h : Fin 16, ∃ f : NextFetch, ∃ raw : Bytes, ∃ inc : Nat, ∃ s : State, ∃ u : State, ∃ w : State, unitLive s (U.disp h) = true ∧
    fnState s h = fnRUN ∧ nextFetch s h = some f ∧ f.recompute = false ∧ f.ticket.eval = false ∧ f.off + 64 ≤ f.ticket.prog.secLen ∧
    memRead s (idDisp h) (f.ticket.prog.secAddr + f.off) 64 none = (u, .ok raw) ∧
    let c0 := newCmd u h f raw
    readEach u h (some (cmdId u h c0)) (checkReads c0) = (w, .ok ()) ∧ ((∀ x, findTicket w f.ticket.key = some x → x.cancelling = false)) ∧
    (findTicket w f.ticket.key).isSome = true ∧
    let c : Cmd := { c0 with geom := match geomRead w c0 with | some a => peekBytes w (plainAddr w a) 64 | none => zeros 64 }
    let v := syncInflight (advanceFetch (wrapAdd (setDisp w h { getDisp w h with cmds := (getDisp w h).cmds ++ [c] }) (F.HRT_DISP_SEQ_NEXT h) 1) h f c) h
    decodeCode v h f.ticket c = (0, inc) ∧ segmentCut v h c = false) := by
  refine ⟨⟨0, fetchOf (cursor 4064 busy), cursor 4064 busy, ?_, ?_, some_of _ (by decide +kernel), ?_, ?_, ?_⟩,
    ⟨0, fetchOf (fetchS nopB 0), nopB, 0, fetchS nopB 0, _, _, ?_, ?_, some_of _ (by decide +kernel), ?_, ?_, ?_, pair_of ?_, pair_of ?_, ?_, ?_, ?_, ?_⟩⟩
  all_goals decide +kernel

theorem witness_CommandFetch_2 :
    ∃ h : Fin 16, ∃ f : NextFetch, ∃ raw : Bytes, ∃ inc : Nat, ∃ s : State, ∃ u : State, ∃ w : State, unitLive s (U.disp h) = true ∧
    fnState s h = fnRUN ∧ nextFetch s h = some f ∧ f.recompute = false ∧ f.ticket.eval = false ∧ f.off + 64 ≤ f.ticket.prog.secLen ∧
    memRead s (idDisp h) (f.ticket.prog.secAddr + f.off) 64 none = (u, .ok raw) ∧
    let c0 := newCmd u h f raw
    readEach u h (some (cmdId u h c0)) (checkReads c0) = (w, .ok ()) ∧ ((∀ x, findTicket w f.ticket.key = some x → x.cancelling = false)) ∧
    (findTicket w f.ticket.key).isSome = true ∧
    let c : Cmd := { c0 with geom := match geomRead w c0 with | some a => peekBytes w (plainAddr w a) 64 | none => zeros 64 }
    let v := syncInflight (advanceFetch (wrapAdd (setDisp w h { getDisp w h with cmds := (getDisp w h).cmds ++ [c] }) (F.HRT_DISP_SEQ_NEXT h) 1) h f c) h
    decodeCode v h f.ticket c = (0, inc) ∧ segmentCut v h c = false ∧ c.opcode ≠ 2 ∧ ∃ x, x ∈ (getDisp v h).cursors := by
  refine ⟨0, fetchOf (fetchS nopB 0), nopB, 0, fetchS nopB 0, _, _, ?_, ?_, some_of _ (by decide +kernel), ?_, ?_, ?_, pair_of ?_, pair_of ?_, ?_, ?_, ?_, ?_, ?_, ⟨0, 64, 1, 0, false⟩, ?_⟩
  all_goals decide +kernel

theorem witness_ReadinessAndCompletion_1 :
    (∃ h : Fin 16, ∃ seq : BitVec 32, ∃ c : Cmd, ∃ s : State, unitLive s (U.disp h) = true ∧ findCmd s h seq.toNat = some c ∧
    c.seq = seq.toNat ∧ c.st = .decoded ∧ c.opcode ≠ 0x02 ∧ readyMet s h c = true ∧ hearthTakes s h c = true ∧ popRefs c = []) ∧
    (∃ h : Fin 16, ∃ seq : BitVec 32, ∃ c : Cmd, ∃ s : State, unitLive s (U.disp h) = true ∧ findCmd s h seq.toNat = some c ∧
    c.seq = seq.toNat ∧ c.st = .decoded ∧ c.opcode ≠ 0x02 ∧ readyMet s h c = true ∧ hearthTakes s h c = true ∧ popRefs c = []) ∧
    (∃ h : Fin 16, ∃ seq : BitVec 32, ∃ level : Fin 3, ∃ ref : BitVec 8, ∃ c : Cmd, ∃ s : State, unitLive s (U.disp h) = true ∧
    findCmd s h seq.toNat = some c ∧ c.seq = seq.toNat ∧
    let l := level.val + 1
    let n := tileOf s h c l ref.toNat
    let got (l : Nat) : Nat := (c.tiles.filter fun t => t.1 == l && t.2.1 == ref.toNat).length
    let above (x : Nat) : Prop := l < x ∧ x ≤ 3 ∧ tileOf s h c x ref.toNat ≠ 0
    let id := cmdId s h c
    (c.st = .ready ∨ c.st = .requested ∨ c.st = .granted) ∧ c.placed = true ∧ n ≠ 0 ∧ got l < 5 ∧ ∃ tile, ∃ u, ∃ v,
    (tilesOf s c l (ref == 0x10))[got l]? = some tile ∧
    let rs := tileReads s c (ref == 0x10) tile
    ((∀ x, above x → (∀ y, above y → x ≤ y) → got x ≠ 0)) ∧ (((∃ x, above x) → u = s)) ∧
    (((¬∃ x, above x) → touchRanges s (idDisp h) false (some id) rs = (u, .ok ()))) ∧
    fillStage u h id l (min n (64 * rs.length)) = (v, .ok ())) ∧
    (∃ h : Fin 16, ∃ seq : BitVec 32, ∃ c : Cmd, ∃ s : State, unitLive s (U.disp h) = true ∧ findCmd s h seq.toNat = some c ∧
    c.seq = seq.toNat ∧ c.chain = none ∧ swapNext s h c = none ∧ completable s h c = true) := by
  refine ⟨⟨0, 0, decd nopB, window (decd nopB) busy, ?_, ?_, ?_, ?_, ?_, ?_, ?_, ?_⟩,
    ⟨0, 0, decd qputB, window (decd qputB) busy, ?_, ?_, ?_, ?_, ?_, ?_, ?_, ?_⟩,
    ⟨0, 0, 0, 0x10, tileC, tileS, ?_, ?_, ?_, ?_, ?_, ?_, ?_, tile0, tileU, _, ?_, (fun x a _ => absurd a (tile_top x)), (fun a => a.elim fun x a => absurd a (tile_top x)), (fun _ => pair_of ?_), (pair_of (tile_size.symm ▸ tile_fills))⟩,
    ⟨0, 0, done nopB, window (done nopB) busy, ?_, ?_, ?_, ?_, ?_, ?_⟩⟩
  all_goals decide +kernel

theorem witness_ReadinessAndCompletion_2 :
    (∃ h : Fin 16, ∃ seq : BitVec 32, ∃ c : Cmd, ∃ s : State, unitLive s (U.disp h) = true ∧ findCmd s h seq.toNat = some c ∧
    c.seq = seq.toNat ∧ c.chain = none ∧ swapNext s h c = none ∧ completable s h c = false) ∧
    (∃ h : Fin 16, ∃ seq : BitVec 32, ∃ c : Cmd, ∃ s : State, unitLive s (U.disp h) = true ∧ findCmd s h seq.toNat = some c ∧
    c.seq = seq.toNat ∧ ∃ b, swapNext s h c = some b) ∧
    (∃ h : Fin 16, ∃ seq : BitVec 32, ∃ c : Cmd, ∃ s : State, unitLive s (U.disp h) = true ∧ findCmd s h seq.toNat = some c ∧
    c.seq = seq.toNat ∧ c.opcode = 0x02) ∧
    (∃ h : Fin 16, ∃ seq : BitVec 32, ∃ c : Cmd, ∃ s : State, unitLive s (U.disp h) = true ∧ findCmd s h seq.toNat = some c ∧
    c.seq = seq.toNat ∧
    let u := finishCmd s h c
    c.opcode < 0x30 ∧ ∃ x, x ∈ (getDisp u h).cmds) ∧
    (∃ h : Fin 16, ∃ seq : BitVec 32, ∃ c : Cmd, ∃ s : State, unitLive s (U.disp h) = true ∧ findCmd s h seq.toNat = some c ∧
    c.seq = seq.toNat ∧ c.opcode < 0x30) ∧
    (∃ h : Fin 16, ∃ seq : BitVec 32, ∃ c : Cmd, ∃ s : State, unitLive s (U.disp h) = true ∧ findCmd s h seq.toNat = some c ∧
    c.seq = seq.toNat ∧ c.opcode < 0x30 ∧ c.fail = 0 ∧ ∃ g, ∃ q, ∃ x, putQueue c = some (g, q) ∧ destHandle c = some x) ∧
    (∃ h : Fin 16, ∃ seq : BitVec 32, ∃ c : Cmd, ∃ s : State, unitLive s (U.disp h) = true ∧ findCmd s h seq.toNat = some c ∧
    c.seq = seq.toNat ∧ c.opcode < 0x30 ∧ putQueue c = none) := by
  refine ⟨⟨0, 0, cmd0 nopB, window (cmd0 nopB) busy, ?_, ?_, ?_, ?_, ?_, ?_⟩,
    ⟨0, 0, { mmCmd 0 1 with st := .done, inc := 5 }, { setDisp (regs [(F.MXE_STATE_STATE 0 0, 5)] busy) 0 { getDisp busy 0 with cmds := [({ mmCmd 0 1 with st := .done, inc := 5 }), ({ mmCmd 0 1 with st := .ready, inc := 5, seq := 1, pos := 1 })] } with bellows := [(0, 128)] }, ?_, ?_, ?_, { mmCmd 0 1 with st := .ready, inc := 5, seq := 1, pos := 1 }, ?_⟩,
    ⟨0, 0, decd endB, window (decd endB) busy, ?_, ?_, ?_, ?_⟩,
    ⟨0, 0, done nopB, setDisp (window (done nopB) busy) 0 { getDisp busy 0 with cmds := [(done nopB), { cmd0 nopB with seq := 1 }] }, ?_, ?_, ?_, ?_, { cmd0 nopB with seq := 1 }, ?_⟩,
    ⟨0, 0, done nopB, window (done nopB) busy, ?_, ?_, ?_, ?_⟩,
    ⟨0, 0, done (record 64 [(0, 1, 0x10), (0xC, 2, 0x8005), (0x18, 4, ref 2), (0x20, 4, ref 2)]), window (done (record 64 [(0, 1, 0x10), (0xC, 2, 0x8005), (0x18, 4, ref 2), (0x20, 4, ref 2)])) busy, ?_, ?_, ?_, ?_, ?_, 0, 5, ⟨0x40000002, 2⟩, ?_, ?_⟩,
    ⟨0, 0, done nopB, window (done nopB) busy, ?_, ?_, ?_, ?_, ?_⟩⟩
  all_goals decide +kernel

theorem witness_PutsTakeEffect :
    ∃ n : Nat, ∃ p : Put, ∃ s : State, s.puts[n]? = some p ∧ unitLive s (U.disp p.hearth) = true ∧ p.hearth < 16 ∧ p.queue < 64 ∧
    (∀ q ∈ s.puts.take n, samePutter p q = false) ∧
    let queue (s : State) (h q : Nat) : HQueue := (getDisp s h).queue q
    let old := queue s p.hearth p.queue
    (p.reserved = true ∨ old.entries.length + old.reserved < 16) := by
  refine ⟨0, put0, { window { cmd0 qputB with st := .putting } busy with puts := [put0] }, ?_, ?_, ?_, ?_, ?_, ?_⟩
  all_goals decide +kernel

theorem witness_DispatcherTransfers :
    (∃ h : Fin 16, ∃ seq : BitVec 32, ∃ c : Cmd, ∃ s : State, Runs h seq 0x01 c s) ∧
    (∃ h : Fin 16, ∃ seq : BitVec 32, ∃ c : Cmd, ∃ s : State, Runs h seq 0x03 c s) ∧
    (∃ h : Fin 16, ∃ seq : BitVec 32, ∃ c : Cmd, ∃ s : State, Runs h seq 0x08 c s ∧ c.fld 0x18 4 = 0) ∧
    (∃ h : Fin 16, ∃ seq : BitVec 32, ∃ c : Cmd, ∃ b : Bytes, ∃ s : State, ∃ u : State, ∃ v : State,
    let x := XferDesc.parse b
    let me := some (cmdId s h c)
    Runs h seq 0x08 c s ∧ Inv s ∧ s.symErr = [] ∧ c.fld 0x18 4 = 1 ∧ c.phase = 0 ∧ memRead s (idDisp h) (c.fld 0x10 8) 32 me = (u, .ok b) ∧
    x.bad u = false ∧ rangeBanksMissing u h c [(c.fld 0x10 8, 32)] = false ∧
    rangeBanksMissing u h c (x.ranges false ++ x.ranges true) = false ∧ x.src + x.span false ≤ nearEnd ∧ x.dst + x.span true ≤ nearEnd ∧
    copyRows u h (some (cmdId u h c)) ((x.ranges false).zip (x.ranges true)) = (v, .ok ())) ∧
    (∃ h : Fin 16, ∃ seq : BitVec 32, ∃ c : Cmd, ∃ s : State, Runs h seq 0x09 c s ∧ c.fld 0x20 2 = 0) ∧
    (∃ h : Fin 16, ∃ seq : BitVec 32, ∃ c : Cmd, ∃ s : State,
    let n := c.fld 0x20 2
    let earlier := s.puts.any fun p => p.core.isNone && p.cmd.map (·.1) == some h.val
    Runs h seq 0x09 c s ∧ n ≠ 0 ∧ earlier = true) ∧
    (∃ h : Fin 16, ∃ seq : BitVec 32, ∃ c : Cmd, ∃ b : Bytes, ∃ s : State, ∃ v : State, ∃ w : State,
    let src := c.fld 0x10 8
    let dst := c.fld 0x18 8
    let n := c.fld 0x20 2
    let earlier := s.puts.any fun p => p.core.isNone && p.cmd.map (·.1) == some h.val
    Runs h seq 0x09 c s ∧ Inv s ∧ s.symErr = [] ∧ n ≠ 0 ∧ earlier = false ∧ src + n ≤ nearEnd ∧ dst + n ≤ nearEnd ∧
    memRead s (idDisp h) src n (some (cmdId s h c)) = (v, .ok b) ∧ memWrite v (idDisp h) dst b (some (cmdId s h c)) = (w, .ok ())) := by
  refine ⟨⟨0, 0, cmd0 nopB, window (cmd0 nopB) busy, runs_of ?_⟩,
    ⟨0, 0, cmd0 qputB, window (cmd0 qputB) busy, runs_of ?_⟩,
    ⟨0, 0, xfer 0, xferS 0, runs_of ?_, ?_⟩,
    ⟨0, 0, xfer 1, peekBytes (xferS 1) 0x20000 32, xferS 1, _, _, runs_of ?_, inv_of ?_, ?_, ?_, ?_, pair_of ?_, ?_, ?_, ?_, ?_, ?_, pair_of ?_⟩,
    ⟨0, 0, tackC 0, tackS 0, runs_of ?_, ?_⟩,
    ⟨0, 0, tackC 32, { tackS 32 with puts := [put0] }, runs_of ?_, ?_, ?_⟩,
    ⟨0, 0, tackC 32, peekBytes (tackS 32) 0x1000 32, tackS 32, _, _, runs_of ?_, inv_of ?_, ?_, ?_, ?_, ?_, ?_, pair_of ?_, pair_of ?_⟩⟩
  all_goals decide +kernel

theorem witness_StepCommit :
    (∃ n : BitVec 48, ∃ x : Ticket, ∃ s : State, unitLive s (U.sup 1) = true ∧ s.tickets.find? (fun t => t.num == n.toNat) = some x ∧
    stepClosed s x x.steps = false) ∧
    (∃ n : BitVec 48, ∃ x : Ticket, ∃ s : State, unitLive s (U.sup 1) = true ∧ s.tickets.find? (fun t => t.num == n.toNat) = some x ∧
    x.started = true ∧ x.cancelling = false ∧ x.prog.training = true ∧ x.prog.kind = 1 ∧ stepClosed s x x.steps = true ∧ twinMet s = true) ∧
    (∃ n : BitVec 48, ∃ x : Ticket, ∃ s : State, unitLive s (U.sup 1) = true ∧ s.tickets.find? (fun t => t.num == n.toNat) = some x ∧
    x.started = true ∧ x.cancelling = false ∧ x.prog.training = true ∧ x.prog.kind = 1 ∧ stepClosed s x x.steps = true ∧ twinMet s = true ∧
    x.steps + 1 < x.stepCount) := by
  refine ⟨⟨7, ticket0, ended 0 busy, ?_, ?_, ?_⟩,
    ⟨7, ticket0, ended 1 busy, ?_, ?_, ?_, ?_, ?_, ?_, ?_, ?_⟩,
    ⟨7, ticket0, ended 1 busy, ?_, ?_, ?_, ?_, ?_, ?_, ?_, ?_, ?_⟩⟩
  all_goals decide +kernel

theorem witness_TokenPool :
    (∃ s : State, unitLive s U.damper = true ∧ ((∀ h, h < 16 → (getDisp s h).releases = 0)) ∧
    let v := each (List.range 16) s schedule
    ((∀ h, h < 16 → reserveDue v h = false ∧ rd v (F.DMP_GRANT_RESERVED h) = 0)) ∧ (robin v).filter (considered v) = []) ∧
    (∃ g : Fin 16, ∃ r : TokReq, ∃ s : State, unitLive s U.damper = true ∧ ((∀ h, h < 16 → (getDisp s h).releases = 0)) ∧
    let v := each (List.range 16) s schedule
    ((∀ h, h < 16 → reserveDue v h = false ∧ rd v (F.DMP_GRANT_RESERVED h) = 0)) ∧ ((robin v).filter (considered v)).head? = some g.val ∧
    (getDisp v g).pending = some r ∧ incFits v g (r.cost v g) = true) ∧
    (∃ h : Fin 16, ∃ s : State, unitLive s U.damper = true ∧ reserveDue s h = true) ∧
    (∃ h : Fin 16, ∃ s : State, unitLive s U.damper = true ∧ reserveDue s h = false) ∧
    (∃ h : Fin 16, ∃ s : State, unitLive s U.damper = true ∧ (getDisp s h).releases = 0) ∧
    (∃ h : Fin 16, ∃ s : State, unitLive s U.damper = true ∧ (getDisp s h).releases ≠ 0) ∧
    (∃ c : Nat, c < 2 ^ 5) ∧
    (∃ r : Nat, ∃ c : Nat, c < 2 ^ 5 ∧ ∃ r', r ≤ r') := by
  refine ⟨⟨pool busy, ?_, ?_, ?_, ?_⟩,
    ⟨0, .core 0 3 false, askS (.core 0 3 false) (pool busy), ?_, ?_, ?_, ?_, ?_, ?_⟩,
    ⟨0, regs [(F.DMP_POLICY_STARVE_LIMIT, 2)] { askS (.core 0 3 false) (pool busy) with damper := { Damper.blank with passed := [(0, 2)] } }, ?_, ?_⟩,
    ⟨0, regs [(F.DMP_POLICY_STARVE_LIMIT, 3)] { askS (.core 0 3 false) (pool busy) with damper := { Damper.blank with passed := [(0, 2)] } }, ?_, ?_⟩,
    ⟨0, pool busy, ?_, ?_⟩,
    ⟨0, setDisp (pool busy) 0 { getDisp busy 0 with incs := 9, releases := 4 }, ?_, ?_⟩,
    ⟨31, ?_⟩,
    ⟨254, 31, ?_, 255, ?_⟩⟩
  all_goals decide +kernel

theorem witness_VoltageAndSensors :
    (∃ h : Fin 16, ∃ v : Nat, ∃ s : State, damperOn s = true ∧ s.damper.steps.find? h.val = some v ∧ v < 2 ^ 5) ∧
    (∃ h : Fin 16, ∃ v : Nat, ∃ s : State, damperOn s = true ∧ s.damper.steps.find? h.val = some v ∧ v < 2 ^ 5 ∧
    (rd s (vSetF h) = v ∨ rd s F.DMP_POLICY_MODE = 1 ∧ v ≤ rd s (vSetF h))) ∧
    (∃ h : Fin 16, ∃ v : Nat, ∃ s : State, damperOn s = true ∧ s.damper.steps.find? h.val = some v ∧ v < 2 ^ 5 ∧
    (rd s (vSetF h) = v ∨ rd s F.DMP_POLICY_MODE = 1 ∧ v ≤ rd s (vSetF h))) ∧
    (∃ h : Fin 16, ∃ v : Nat, ∃ s : State, damperOn s = true ∧ s.damper.steps.find? h.val = some v ∧ v < 2 ^ 5 ∧ rd s (vSetF h) < v) ∧
    (∃ h : Fin 16, ∃ s : State, damperOn s = true ∧ s.damper.steps.find? h.val = none) ∧
    (∃ h : Fin 16, ∃ s : State, unitLive s U.damper = true ∧ rd s F.DMP_POLICY_MODE = 1 ∧ rd s F.DMP_POLICY_SHED_COUNT ≠ 0 ∧
    rd s F.DMP_POLICY_SHED_COUNT ≤ s.damper.refused ∧ holdsMe s h = true ∧ rd s F.DMP_POLICY_V_MIN < rd s (vNowF h) ∧ stepping s h = false) ∧
    (∃ h : Fin 16, ∃ s : State, damperOn s = true ∧ 16 ≤ s.damper.okRun.get 0 h.val ∧ s.damper.overLow.get 0 h.val ≠ 0 ∧
    stepping s h = false ∧ rd s (vNowF h) < rd s (vSetF h) ∧ fnState s h ≠ fnUNAVAIL) ∧
    (∃ r : Sensors, ∃ s : State, damperOn s = true ∧ r.wf = true) ∧
    (∃ r : Sensors, ∃ s : State, damperOn s = true ∧ r.wf = true) := by
  refine ⟨⟨0, 31, { volts busy with damper := { Damper.blank with steps := [(0, 31)] } }, ?_, ?_, ?_⟩,
    ⟨0, 20, { volts busy with damper := { Damper.blank with steps := [(0, 20)] } }, ?_, ?_, ?_, ?_⟩,
    ⟨0, 16, { volts busy with damper := { Damper.blank with steps := [(0, 16)] } }, ?_, ?_, ?_, ?_⟩,
    ⟨0, 21, { volts busy with damper := { Damper.blank with steps := [(0, 21)] } }, ?_, ?_, ?_, ?_⟩,
    ⟨0, volts busy, ?_, ?_⟩,
    ⟨0, { window { cmd0 (record 64 [(0, 1, 0x10), (2, 2, 1)]) with inc := 5, kind := 3, st := .working } (volts busy) with damper := { Damper.blank with refused := 2 } }, ?_, ?_, ?_, ?_, ?_, ?_, ?_⟩,
    ⟨0, { volts busy with damper := { Damper.blank with okRun := [(0, 16)], overLow := [(0, 2)] } }, ?_, ?_, ?_, ?_, ?_, ?_⟩,
    ⟨reading none, volts busy, ?_, ?_⟩,
    ⟨reading (some 420), volts busy, ?_, ?_⟩⟩
  all_goals decide +kernel

theorem witness_MatrixEngineSteps_1 :
    (∃ h : Fin 16, ∃ i : Fin 16, ∃ s : State, unitLive s (U.me h i) = true ∧
    let k := 16 * h.val + i.val
    let st := rd s (F.MXE_STATE_STATE h i)
    st = 1 ∧ s.meTests.contains k = false ∧ rd s (F.MXE_CMD_ACTIVE h i) = 1) ∧
    (∃ h : Fin 16, ∃ i : Fin 16, ∃ s : State, unitLive s (U.me h i) = true ∧
    let k := 16 * h.val + i.val
    let st := rd s (F.MXE_STATE_STATE h i)
    st = 1 ∧ s.meTests.contains k = false ∧ rd s (F.MXE_CMD_ACTIVE h i) = 0) ∧
    (∃ h : Fin 16, ∃ i : Fin 16, ∃ s : State, unitLive s (U.me h i) = true ∧
    let st := rd s (F.MXE_STATE_STATE h i)
    ∃ c, st = 3 ∧ meCmd s h i = some c ∧ c.meInc = 0) ∧
    (∃ h : Fin 16, ∃ i : Fin 16, ∃ s : State, unitLive s (U.me h i) = true ∧
    let st := rd s (F.MXE_STATE_STATE h i)
    ∃ c, st = 3 ∧ meCmd s h i = some c ∧ c.meInc ≠ 0) ∧
    (∃ h : Fin 16, ∃ i : Fin 16, ∃ s : State, unitLive s (U.me h i) = true ∧
    let k := 16 * h.val + i.val
    let st := rd s (F.MXE_STATE_STATE h i)
    let n := s.bellows.get 0 k
    st = 4 ∧ n < 128) ∧
    (∃ h : Fin 16, ∃ i : Fin 16, ∃ s : State, unitLive s (U.me h i) = true ∧
    let k := 16 * h.val + i.val
    let st := rd s (F.MXE_STATE_STATE h i)
    let n := s.bellows.get 0 k
    st = 5 ∧ 0 < n) ∧
    (∃ h : Fin 16, ∃ i : Fin 16, ∃ s : State, unitLive s (U.me h i) = true ∧ ((∀ j, j < 8 → rd s (slotF h i j) ≠ slotREADOUT))) ∧
    (∃ h : Fin 16, ∃ i : Fin 16, ∃ s : State, unitLive s (U.me h i) = true ∧ s.wordErrs = []) ∧
    (∃ src : Src, ∃ h : Fin 16, ∃ s : State, served s src = true ∧ isRun s = true ∧ fnState s h ≠ fnSTOPPED) ∧
    (∃ src : Src, ∃ h : Fin 16, ∃ s : State, served s src = true ∧ isRun s = true ∧ fnState s h = fnSTOPPED ∧ s.meTests = []) := by
  refine ⟨⟨0, 1, meS 1 0 1, ?_, ?_, ?_, ?_⟩,
    ⟨0, 1, meS 1 0 0, ?_, ?_, ?_, ?_⟩,
    ⟨0, 1, window (cmd0 nopB) (meS 3 0 1), ?_, cmd0 nopB, ?_, ?_, ?_⟩,
    ⟨0, 1, window ({ mmCmd 0 1 with inc := 5 }) (meS 3 0 1), ?_, { mmCmd 0 1 with inc := 5 }, ?_, ?_, ?_⟩,
    ⟨0, 1, meS 4 127 1, ?_, ?_, ?_⟩,
    ⟨0, 1, meS 5 1 0, ?_, ?_, ?_⟩,
    ⟨0, 1, busy, ?_, ?_⟩,
    ⟨0, 1, meS 5 0 0, ?_, ?_⟩,
    ⟨.host 0, 0, meS 0 0 0, ?_, ?_, ?_⟩,
    ⟨.host 0, 0, regs [(fnFld 0, 2)] (meS 0 0 0), ?_, ?_, ?_, ?_⟩⟩
  all_goals decide +kernel

theorem witness_MatrixEngineSteps_2 :
    (∃ src : Src, ∃ h : Fin 16, ∃ i : Fin 16, ∃ s : State,
    let k := 16 * h.val + i.val
    served s src = true ∧ isRun s = true ∧ fnState s h = fnSTOPPED ∧ s.meTests.contains k = true) ∧
    (∃ h : Fin 16, ∃ i : Fin 16, ∃ s : State,
    let k := 16 * h.val + i.val
    unitLive s (U.me h i) = true ∧ rd s (F.MXE_STATE_STATE h i) = 7 ∧ s.meTests = [k]) := by
  refine ⟨⟨.host 0, 0, 1, { regs [(fnFld 0, 2)] (meS 1 0 0) with meTests := [1] }, ?_, ?_, ?_, ?_⟩,
    ⟨0, 1, { meS 7 0 0 with meTests := [1] }, ?_, ?_, ?_⟩⟩
  all_goals decide +kernel

theorem witness_BankHandovers_1 :
    (∃ who : BitVec 8, ∃ w : BitVec 64, ∃ s : State,
    let n := w.toNat % 256
    let owner := w.toNat / 256 % 256
    let old := rd s (F.BNK_OWNER_OWNER n)
    let taken (id : Nat) : Prop := n < 144 ∧ w.toNat < 65536 ∧ (id = old ∨ id = 0x30) ∧
          (owner = 0 ∨ owner = 0x30 ∨ (0x10 ≤ owner ∧ owner ≤ 0x1F ∧ (n < 16 ∨ owner = 0x10 + (n - 16) / 8)) ∨ ((owner = 0x20 ∨ owner = 0x21) ∧ n < 16))
    isRun s = true ∧ ((0x10 ≤ who.toNat ∧ who.toNat ≤ 0x1F) ∨ who.toNat = 0x30) ∧ taken who.toNat) ∧
    (∃ who : BitVec 8, ∃ w : BitVec 64, ∃ s : State,
    let n := w.toNat % 256
    let owner := w.toNat / 256 % 256
    let old := rd s (F.BNK_OWNER_OWNER n)
    let taken (id : Nat) : Prop := n < 144 ∧ w.toNat < 65536 ∧ (id = old ∨ id = 0x30) ∧
          (owner = 0 ∨ owner = 0x30 ∨ (0x10 ≤ owner ∧ owner ≤ 0x1F ∧ (n < 16 ∨ owner = 0x10 + (n - 16) / 8)) ∨ ((owner = 0x20 ∨ owner = 0x21) ∧ n < 16))
    isRun s = true ∧ ((0x10 ≤ who.toNat ∧ who.toNat ≤ 0x1F) ∨ who.toNat = 0x30) ∧ ¬ taken who.toNat) ∧
    (∃ src : Src, ∃ w : BitVec 64, ∃ s : State,
    let n := w.toNat % 256
    let owner := w.toNat / 256 % 256
    let old := rd s (F.BNK_OWNER_OWNER n)
    let taken (id : Nat) : Prop := n < 144 ∧ w.toNat < 65536 ∧ (id = old ∨ id = 0x30) ∧
          (owner = 0 ∨ owner = 0x30 ∨ (0x10 ≤ owner ∧ owner ≤ 0x1F ∧ (n < 16 ∨ owner = 0x10 + (n - 16) / 8)) ∨ ((owner = 0x20 ∨ owner = 0x21) ∧ n < 16))
    let id := match src with | .host p => 0x20 + p.val | .supervisor => 0x30
    served s src = true ∧ taken id) := by
  refine ⟨⟨0x10, 0x1011, bankS 17 0x10 busy, ?_, ?_, ?_⟩,
    ⟨0x10, 0x1011, bankS 17 0x11 busy, ?_, ?_, ?_⟩,
    ⟨.host 0, 0x1001, bankS 1 0x20 busy, ?_, ?_⟩⟩
  all_goals decide +kernel

theorem witness_BankHandovers_2 :
    ∃ src : Src, ∃ w : BitVec 64, ∃ s : State,
    let n := w.toNat % 256
    let owner := w.toNat / 256 % 256
    let old := rd s (F.BNK_OWNER_OWNER n)
    let taken (id : Nat) : Prop := n < 144 ∧ w.toNat < 65536 ∧ (id = old ∨ id = 0x30) ∧
          (owner = 0 ∨ owner = 0x30 ∨ (0x10 ≤ owner ∧ owner ≤ 0x1F ∧ (n < 16 ∨ owner = 0x10 + (n - 16) / 8)) ∨ ((owner = 0x20 ∨ owner = 0x21) ∧ n < 16))
    let id := match src with | .host p => 0x20 + p.val | .supervisor => 0x30
    served s src = true ∧ ¬ taken id := by
  refine ⟨.host 0, 0x1090, bankS 143 0x11 busy, ?_, ?_⟩
  all_goals decide +kernel

theorem witness_ApertureAndClears_1 :
    (∃ p : Fin 2, ∃ x : Nat, ∃ d : Bytes, ∃ s : State,
    let held (s : State) (p : Nat) : List BarAccess := (s.ports.get PciPort.blank p).bar4
    Inv s ∧ served s (.host p) = true ∧ x + d.length ≤ 0x8000000 ∧ stopActive s = false ∧ held s p = [] ∧ d ≠ [] ∧
    x / 0x800000 = (x + d.length - 1) / 0x800000 ∧ rd s (F.BNK_OWNER_OWNER (x / 0x800000)) = 0x20 + p.val ∧
    rd s (F.BNK_OWNER_CLEARING (x / 0x800000)) = 0) ∧
    (∃ p : Fin 2, ∃ x : Nat, ∃ d : Bytes, ∃ s : State, served s (.host p) = true ∧ x + d.length ≤ 0x8000000 ∧ stopActive s = true) ∧
    (∃ p : Fin 2, ∃ x : Nat, ∃ len : Nat, ∃ d : Bytes, ∃ s : State, ∃ u : State,
    let a := 0xF00000000000 + x
    let held (s : State) (p : Nat) : List BarAccess := (s.ports.get PciPort.blank p).bar4
    let v := setPort s p { getPort s p with bar4 := [] }
    let mine (s : State) := memRead s (0x20 + p.val) a len none
    let reads := served s (.host p) = true ∧ x + len ≤ 0x8000000
    reads ∧ stopActive s = false ∧ held s p = [] ∧ mine v = (u, .ok d)) ∧
    (∃ p : Fin 2, ∃ x : Nat, ∃ len : Nat, ∃ d : Bytes, ∃ s : State, ∃ u : State,
    let a := 0xF00000000000 + x
    let held (s : State) (p : Nat) : List BarAccess := (s.ports.get PciPort.blank p).bar4
    let v := setPort s p { getPort s p with bar4 := [] }
    let mine (s : State) := memRead s (0x20 + p.val) a len none
    let reads := served s (.host p) = true ∧ x + len ≤ 0x8000000
    reads ∧ stopActive s = false ∧ held s p = [] ∧ mine v = (u, .ok d)) := by
  refine ⟨⟨0, 0xFFFFFD, bytes [9, 9, 9], bankS 1 0x20 (host busy), inv_of ?_, ?_, ?_, ?_, ?_, ?_, ?_, ?_, ?_⟩,
    ⟨0, 0x7FFFFFD, bytes [9, 9, 9], stopping (host busy), ?_, ?_, ?_⟩,
    ⟨0, 0x7FFFFD, 0, [], bankS 1 0x20 (host busy), _, ?_, ?_, ?_, pair_of ?_⟩,
    ⟨0, 0x800004, 3, bytes [0, 7, 8], bankS 1 0x20 (host busy), _, ?_, ?_, ?_, pair_of ?_⟩⟩
  all_goals decide +kernel

theorem witness_ApertureAndClears_2 :
    (∃ p : Fin 2, ∃ x : Nat, ∃ len : Nat, ∃ s : State, ∃ u : State,
    let a := 0xF00000000000 + x
    let held (s : State) (p : Nat) : List BarAccess := (s.ports.get PciPort.blank p).bar4
    let v := setPort s p { getPort s p with bar4 := [] }
    let mine (s : State) := memRead s (0x20 + p.val) a len none
    let reads := served s (.host p) = true ∧ x + len ≤ 0x8000000
    ∃ code, reads ∧ stopActive s = false ∧ held s p = [] ∧ mine v = (u, .fail code)) ∧
    (∃ p : Fin 2, ∃ x : Nat, ∃ len : Nat, ∃ s : State, ∃ u : State,
    let a := 0xF00000000000 + x
    let held (s : State) (p : Nat) : List BarAccess := (s.ports.get PciPort.blank p).bar4
    let v := setPort s p { getPort s p with bar4 := [] }
    let mine (s : State) := memRead s (0x20 + p.val) a len none
    let reads := served s (.host p) = true ∧ x + len ≤ 0x8000000
    reads ∧ stopActive s = false ∧ held s p = [] ∧ mine v = (u, .wait)) ∧
    (∃ p : Fin 2, ∃ x : Nat, ∃ len : Nat, ∃ d : Bytes, ∃ s : State, ∃ u : State,
    let a := 0xF00000000000 + x
    let mine (s : State) := memRead s (0x20 + p.val) a len none
    let reads := served s (.host p) = true ∧ x + len ≤ 0x8000000
    reads ∧ stopActive s = true ∧ mine s = (u, .ok d)) ∧
    (∃ p : Fin 2, ∃ x : Nat, ∃ len : Nat, ∃ s : State, ∃ u : State,
    let a := 0xF00000000000 + x
    let mine (s : State) := memRead s (0x20 + p.val) a len none
    let reads := served s (.host p) = true ∧ x + len ≤ 0x8000000
    reads ∧ stopActive s = true ∧ mine s = (u, .wait)) ∧
    (∃ p : Fin 2, ∃ x : Nat, ∃ len : Nat, ∃ s : State, served s (.host p) = true ∧ 0x8000000 < x + len) ∧
    (∃ s : State, pwrGood s = true) ∧
    (∃ p : Fin 2, ∃ s : State,
    let held (s : State) (p : Nat) : List BarAccess := (s.ports.get PciPort.blank p).bar4
    pwrGood s = true ∧ s.held = []) := by
  refine ⟨⟨0, 5, 3, bankS 1 0x20 (host busy), _, Code.OWNER_FAULT, ?_, ?_, ?_, pair_of ?_⟩,
    ⟨0, 0x800004, 3, regs [(F.BNK_OWNER_CLEARING 1, 1)] (bankS 1 0x20 (host busy)), _, ?_, ?_, ?_, pair_of ?_⟩,
    ⟨0, 0x800004, 3, bytes [0, 7, 8], stopping (bankS 1 0x20 (host busy)), _, ?_, ?_, pair_of ?_⟩,
    ⟨0, 0x800004, 3, stopping (regs [(F.BNK_OWNER_CLEARING 1, 1)] (bankS 1 0x20 (host busy))), _, ?_, ?_, pair_of ?_⟩,
    ⟨0, 0x7FFFFFE, 3, bankS 1 0x20 (host busy), ?_, ?_⟩,
    ⟨busy, ?_⟩,
    ⟨0, busy, ?_, ?_⟩⟩
  all_goals decide +kernel

theorem witness_ApertureAndClears_forms :
∃ s d, pwrGood s = true ∧ s.held = [] ∧ (s.ports.get PciPort.blank 0).bar4 = [.write 0x800004 d] ∧ (s.ports.get PciPort.blank 1).bar4 = [] ∧
      stopActive s = false ∧ 0x800004 / 0x800000 = 1 ∧ 1 = (0x800004 + d.length - 1) / 0x800000 ∧ d ≠ [] ∧ Inv s ∧ rd s (F.BNK_OWNER_OWNER 1) = 0x20 := by
  refine ⟨{ bankS 1 0x20 (host busy) with ports := [(0, { PciPort.blank with bar4 := [.write 0x800004 (bytes [9])] })] }, bytes [9], ?_, ?_, ?_, ?_, ?_, ?_, ?_, ?_, inv_of ?_, ?_⟩
  all_goals decide +kernel

theorem witness_NearTierUpkeep :
    (∃ c : Fin 24, ∃ s : State,
    let d := if c.val < 12 then 0 else 1
    let scrubbing := unitLive s (U.gddr c) = true ∧ rd s (F.MEM_CFG_SCRUB_EN d) = 1 ∧ fnState s (0x11 + d) ≤ 1 ∧ rd s (F.MEM_STATE_STATE c) = 0 ∧
          s.lostGddr.contains d = false
    scrubbing) ∧
    (∃ c : Fin 24, ∃ s : State,
    let d := if c.val < 12 then 0 else 1
    let scrubbing := unitLive s (U.gddr c) = true ∧ rd s (F.MEM_CFG_SCRUB_EN d) = 1 ∧ fnState s (0x11 + d) ≤ 1 ∧ rd s (F.MEM_STATE_STATE c) = 0 ∧
          s.lostGddr.contains d = false
    ¬ scrubbing) ∧
    (∃ c : Fin 24, ∃ s : State,
    let d := if c.val < 12 then 0 else 1
    pwrGood s = true ∧ s.power ≠ .kindling ∧ rd s (F.MEM_STATE_STATE c) = 0 ∧ s.lostGddr.contains d = false) ∧
    (∃ c : Fin 24, ∃ s : State, pwrGood s = true ∧ rd s (F.MEM_STATE_STATE c) = 1) ∧
    (∃ h : Fin 16, ∃ c : Fin 8, ∃ s : State, unitLive s (U.awl h c) = true ∧ rd s (F.AWL_HCFG_SCRUB_EN h) = 1 ∧
    rd s (F.AWL_STATE_STATE h c) ≠ 0) ∧
    (∃ h : Fin 16, ∃ s : State, rd s (F.AWL_HCFG_SCRUB_EN h) = 0) ∧
    (∃ h : Fin 16, ∃ s : State, rd s (F.ROW_CFG_SCRUB_EN h) = 0) ∧
    (∃ h : Fin 16, ∃ s : State, rd s (F.MXE_HCFG_SCRUB_EN h) = 0) ∧
    (∃ s : State, rd s F.COD_CFG_SCRUB_EN = 0) := by
  refine ⟨⟨3, nearS 1 5 0, ?_⟩,
    ⟨3, nearS 0 5 1, ?_⟩,
    ⟨3, nearS 1 5 0, ?_, ?_, ?_, ?_⟩,
    ⟨3, nearS 1 5 1, ?_, ?_⟩,
    ⟨0, 0, regs [(F.AWL_HCFG_SCRUB_EN 0, 1), (F.AWL_STATE_STATE 0 0, 1)] busy, ?_, ?_, ?_⟩,
    ⟨0, busy, ?_⟩,
    ⟨0, busy, ?_⟩,
    ⟨0, busy, ?_⟩,
    ⟨busy, ?_⟩⟩
  all_goals decide +kernel

theorem witness_GlobalStops :
    (∃ s : State, isRun s = true ∧ stopActive s = false) ∧
    (∃ src : Src, ∃ s : State, isRun s = true ∧ stopActive s = false ∧ served s src = true ∧ isLead s src = true) ∧
    (∃ s : State, (isRun s = false ∨ stopActive s = true)) ∧
    (∃ src : Src, ∃ s : State, (isRun s = false ∨ stopActive s = true) ∧ served s src = true ∧ isLead s src = true) ∧
    (∃ src : Src, ∃ s : State, served s src = true ∧ isLead s src = false) ∧
    (∃ u : Nat, ∃ s : State, isRun s = true ∧ rd s F.MGT_STOP_STATE_STATE = 1 ∧ unitNumbers.contains u = true ∧
    (s.stops.get noStop u).stopped = false) := by
  refine ⟨⟨busy, ?_, ?_⟩,
    ⟨.host 0, busy, ?_, ?_, ?_, ?_⟩,
    ⟨stopping busy, ?_⟩,
    ⟨.host 0, stopping busy, ?_, ?_, ?_⟩,
    ⟨.host 1, busy, ?_, ?_⟩,
    ⟨8, stopping busy, ?_, ?_, ?_, ?_⟩⟩
  all_goals decide +kernel

theorem witness_ObservingAndResuming :
    (∃ src : Src, ∃ s : State, served s src = true ∧ isLead s src = true ∧ s.power = .stopped) ∧
    (∃ src : Src, ∃ s : State, served s src = true ∧ ∃ code, code = (if isLead s src then Code.FUNC_STATE else Code.NOT_LEAD) ∧
    (isLead s src = false ∨ s.power ≠ .stopped)) ∧
    (∃ src : Src, ∃ s : State, served s src = true ∧ ∃ code, code = (if isLead s src then Code.FUNC_STATE else Code.NOT_LEAD) ∧
    (isLead s src = false ∨ s.power ≠ .stopped)) ∧
    (∃ src : Src, ∃ s : State, served s src = true) ∧
    (∃ src : Src, ∃ s : State, served s src = true ∧ rd s F.EMB_CTL_FREEZE = 0) ∧
    (∃ src : Src, ∃ s : State, served s src = true ∧ ∃ u, ∃ n, rd s F.EMB_CTL_FREEZE = 1 ∧ s.emberLost = [(u, n)] ∧ n ≠ 0) ∧
    (∃ src : Src, ∃ s : State, served s src = true ∧ ∃ k, ∃ i, s.power = .stopped ∧ unitCore (rd s F.MGT_DBG_SEL_UNIT) = some k ∧
    rd s F.MGT_DBG_SEL_SPACE = 0 ∧ rd s F.MGT_DBG_SEL_INDEX = i ∧ i < 32) ∧
    (∃ src : Src, ∃ s : State, served s src = true ∧ s.power ≠ .stopped) := by
  refine ⟨⟨.host 0, stopped busy, ?_, ?_, ?_⟩,
    ⟨.host 0, busy, ?_, Code.FUNC_STATE, ?_, ?_⟩,
    ⟨.host 1, stopped busy, ?_, Code.NOT_LEAD, ?_, ?_⟩,
    ⟨.host 0, busy, ?_⟩,
    ⟨.host 0, busy, ?_, ?_⟩,
    ⟨.host 0, halted busy, ?_, 8, 5, ?_, ?_, ?_⟩,
    ⟨.host 0, halted busy, ?_, 0, 31, ?_, ?_, ?_, ?_, ?_⟩,
    ⟨.host 0, busy, ?_, ?_⟩⟩
  all_goals decide +kernel

theorem witness_LeadPortsAndLostDomains :
    (∃ src : Src, ∃ s : State,
    let other := 1 - leadPort s
    served s src = true ∧ isLead s src = true ∧ portUp s other = true ∧ rd s (F.HIF_PORT_DRIVER_READY other) = 1) ∧
    (∃ src : Src, ∃ s : State,
    let other := 1 - leadPort s
    served s src = true ∧ isLead s src = true ∧ (portUp s other = false ∨ rd s (F.HIF_PORT_DRIVER_READY other) = 0)) ∧
    (∃ src : Src, ∃ s : State, served s src = true ∧ isLead s src = false) ∧
    (∃ p : Fin 2, ∃ s : State, portsTrained s = true ∧ portUp s p = false) ∧
    (∃ p : Fin 2, ∃ s : State, pwrGood s = true ∧ portUp s p = true) ∧
    (∃ s : State, pwrGood s = true) ∧
    (∃ n : Fin 4, ∃ s : State, pwrGood s = true ∧ rd s (F.CXL_STATE_STATE n) = 2) ∧
    (∃ d : Fin 2, ∃ s : State, pwrGood s = true ∧ s.lostGddr.contains d.val = false) ∧
    (∃ s : State, pwrGood s = true ∧ s.staged = none) ∧
    (∃ s : State, ∃ st, pwrGood s = true ∧ s.staged = some st) ∧
    (∃ p : Fin 2, ∃ h : Fin 16, ∃ seq : BitVec 32, ∃ c : Cmd, ∃ x : Ticket, ∃ s : State, isRun s = true ∧ portUp s p = true ∧
    rd s (F.HIF_PORT_BME p) = 1 ∧ findCmd s h seq.toNat = some c ∧ c.seq = seq.toNat ∧ (c.st = .granted ∨ c.st = .working) ∧ 4 ≤ c.opcode ∧
    c.fail = 0 ∧ findTicket s c.ticket = some x ∧ x.cancelling = false) := by
  refine ⟨⟨.host 0, portS 2 2 0 1, ?_, ?_, ?_, ?_⟩,
    ⟨.host 0, portS 2 2 0 0, ?_, ?_, ?_⟩,
    ⟨.host 1, portS 2 2 0 1, ?_, ?_⟩,
    ⟨1, portS 2 0 0 1, ?_, ?_⟩,
    ⟨0, portS 2 2 0 1, ?_, ?_⟩,
    ⟨on, ?_⟩,
    ⟨1, regs [(F.CXL_STATE_STATE 1, 2)] busy, ?_, ?_⟩,
    ⟨1, busy, ?_, ?_⟩,
    ⟨busy, ?_, ?_⟩,
    ⟨drainS 1 100 2, staged0 1 100, ?_, ?_⟩,
    ⟨0, 0, 0, { cmd0 (record 64 [(0, 1, 8)]) with st := .working }, ticket0, window ({ cmd0 (record 64 [(0, 1, 8)]) with st := .working }) (portS 2 2 0 1), ?_, ?_, ?_, ?_, ?_, ?_, ?_, ?_, ?_, ?_⟩⟩
  all_goals decide +kernel

theorem witness_InterruptMessages :
    (∃ src : Src, ∃ s : State, served s src = true) ∧
    (∃ p : Fin 2, ∃ off : Nat, ∃ len : Nat, ∃ s : State,
    let q := getPort s p
    served s (.host p) = true ∧ off + len ≤ 128 ∧ (len = 4 ∨ len = 8) ∧ off % len = 0 ∧ q.held = []) ∧
    (∃ p : Fin 2, ∃ off : Nat, ∃ len : Nat, ∃ s : State, served s (.host p) = true ∧ off < 128 ∧ off + len ≤ 128 ∧
    (¬ ((len = 4 ∨ len = 8) ∧ off % len = 0))) ∧
    (∃ p : Fin 2, ∃ s : State,
    let q := getPort s p
    pwrGood s = true ∧ q.held = []) ∧
    (∃ p : Fin 2, ∃ k : Nat, ∃ off : Nat, ∃ s : State,
    let q := getPort s p
    let pend (s : State) (k : Nat) : Nat := rd s ⟨(F.HIF_IRQ_PEND p).off, k, 1⟩
    pwrGood s = true ∧ q.held = [k] ∧ k < 8 ∧ pend s k = 1 ∧ portUp s p = true ∧ q.d3hot = false ∧ q.msixEnable = true ∧
    msixMasked q k = false) := by
  refine ⟨⟨.host 0, irqS [] 0, ?_⟩,
    ⟨0, 124, 4, irqS [] 8, ?_, ?_, ?_, ?_, ?_⟩,
    ⟨0, 0x7C, 3, irqS [] 8, ?_, ?_, ?_, ?_⟩,
    ⟨0, irqS [] 8, ?_, ?_⟩,
    ⟨0, 3, 0, irqS [3] 8, ?_, ?_, ?_, ?_, ?_, ?_, ?_, ?_⟩⟩
  all_goals decide +kernel

theorem witness_TensorStores :
    (∃ d : Desc, ∃ f : Fmt, ∃ s : State, Inv s ∧ d.format = some f ∧ f.isDq = false ∧ f.bits ≠ 4 ∧ d.sizes.length = d.rank ∧
    d.base + d.span ≤ nearEnd) ∧
    (∃ d : Desc, ∃ f : Fmt, ∃ s : State, Inv s ∧ d.format = some f ∧ f.isDq = false ∧ f.bits ≠ 4 ∧ d.sizes.length = d.rank ∧
    d.base + d.span ≤ nearEnd ∧
    let at_ (ix : List Nat) : Nat := (d.elemAddr f ix).1
    ((∀ x ∈ d.indices, ∀ y ∈ d.indices, x ≠ y → at_ x + f.bits / 8 ≤ at_ y ∨ at_ y + f.bits / 8 ≤ at_ x)) ∧ ∃ ix, ix ∈ d.indices) := by
  refine ⟨⟨Desc.parse (tensor (nearEnd - 8) 0x12 4 [2, 1]), .fp32, busy, inv_of ?_, ?_, ?_, ?_, ?_, ?_⟩,
    ⟨Desc.parse (tensor 0x42000 0x11 2 [2, 2]), .bf16, busy, inv_of ?_, ?_, ?_, ?_, ?_, ?_, ?_, [1, 1], ?_⟩⟩
  all_goals decide +kernel

theorem witness_MatrixProducts_1 :
    (∃ P : Prod, ∃ b : Nat, ∃ m : Nat, ∃ n : Nat, (P.arr = .int4 ∨ P.arr = .int8) ∧ 0 < P.kt ∧ P.k ≤ 2 ^ 17 - 1 ∧
    ((∀ k, k < P.k → (-128 ≤ (P.a b m k).q ∧ (P.a b m k).q ≤ 127) ∧ -128 ≤ (P.b b k n).q ∧ (P.b b k n).q ≤ 127))) ∧
    (∃ h : Fin 16, ∃ seq : BitVec 32, ∃ c : Cmd, ∃ s : State, Runs h seq 0x10 c s ∧
    let a := (mmA s c).desc
    let b := (mmB s c).desc
    let d := (mmC s c).desc
    (a.rank = 0 ∨ b.rank = 0 ∨ d.rank = 0 ∨ c.ktF = 0 ∨ c.ntF = 0 ∨ c.runF = 0 ∨ d.size 0 = 0 ∨ d.size 1 = 0 ∨ d.size 2 = 0 ∨ d.size 3 = 0)) ∧
    (∃ h : Fin 16, ∃ seq : BitVec 32, ∃ c : Cmd, ∃ s : State, Runs h seq 0x10 c s ∧
    let a := (mmA s c).desc
    let b := (mmB s c).desc
    let d := (mmC s c).desc
    (a.rank = 0 ∨ b.rank = 0 ∨ d.rank = 0 ∨ c.ktF = 0 ∨ c.ntF = 0 ∨ c.runF = 0 ∨ d.size 0 = 0 ∨ d.size 1 = 0 ∨ d.size 2 = 0 ∨ d.size 3 = 0)) ∧
    (∃ h : Fin 16, ∃ seq : BitVec 32, ∃ c : Cmd, ∃ s : State, ∃ u : State, ∃ v : State, ∃ w : State, Runs h seq 0x10 c s ∧
    let a := (mmA s c).desc
    let b := (mmB s c).desc
    let d := (mmC s c).desc
    ∃ fa, ∃ fb, ∃ arr, a.format = some fa ∧ b.format = some fb ∧ arr = (pairFormat fa fb c.passes).getD .bf16 ∧
    let P := mmProd s c arr a b d
    let T := c.tiling true
    s.symErr = [] ∧ (¬ (a.rank = 0 ∨ b.rank = 0 ∨ d.rank = 0)) ∧ noStream P c = false ∧ readTensors s h c [a, b] = (u, .ok ()) ∧
    slotRule u h c P T c.acc = 0 ∧
    (readMes u h T.mes (P.k != 0) (fun i => if c.acc.accIn then (List.range (T.liveAll P i)).map (c.acc.base + ·) else []) (some (cmdId u h c)) = (v, none)) ∧
    d.scalePtr = 0 ∧ c.acc.keep = false ∧ writeRanges v h c d.ranges = (w, .ok [])) := by
  refine ⟨⟨{ arr := .int8, passes := 0, flush := false, kt := 1, m := 3, n := 3, k := 5, batches := 1, seg := 32, a := fun _ m k => { q := if k = 0 then -128 else k - 3 + m, code := 0, hi := 0, lo := 0, stat := 0 }, b := fun _ k n => { q := if k = 0 then 127 else k * 2 - n, code := 0, hi := 0, lo := 0, stat := 0 } }, 0, 1, 2, ?_, ?_, ?_, ?_⟩,
    ⟨0, 0, mmCmd 4 1, mmS (mmCmd 4 1) [], runs_of ?_, ?_⟩,
    ⟨0, 0, mmCmd 4 0, mmS (mmCmd 4 0) [2, 2], runs_of ?_, ?_⟩,
    ⟨0, 0, mmCmd 4 1, mmS (mmCmd 4 1) [2, 2], _, _, _, runs_of ?_, .int8, .int8, .int8, ?_, ?_, ?_, ?_, ?_, ?_, pair_of ?_, ?_, pair_of ?_, ?_, ?_, pair_of ?_⟩⟩
  all_goals decide +kernel

theorem witness_MatrixProducts_2 :
    ∃ h : Fin 16, ∃ seq : BitVec 32, ∃ c : Cmd, ∃ s : State, ∃ u : State, ∃ v : State, Runs h seq 0x10 c s ∧
    let a := (mmA s c).desc
    let b := (mmB s c).desc
    let d := (mmC s c).desc
    ∃ fa, ∃ fb, ∃ arr, a.format = some fa ∧ b.format = some fb ∧ arr = (pairFormat fa fb c.passes).getD .bf16 ∧
    let P := mmProd s c arr a b d
    let T := c.tiling true
    s.symErr = [] ∧ (¬ (a.rank = 0 ∨ b.rank = 0 ∨ d.rank = 0)) ∧ noStream P c = false ∧ readTensors s h c [a, b] = (u, .ok ()) ∧
    slotRule u h c P T c.acc = 0 ∧
    (readMes u h T.mes (P.k != 0) (fun i => if c.acc.accIn then (List.range (T.liveAll P i)).map (c.acc.base + ·) else []) (some (cmdId u h c)) = (v, none)) ∧
    d.scalePtr = 0 ∧ c.acc.keep = true := by
  refine ⟨0, 0, mmCmd 0x24 1, mmS (mmCmd 0x24 1) [2, 2], _, _, runs_of ?_, .int8, .int8, .int8, ?_, ?_, ?_, ?_, ?_, ?_, pair_of ?_, ?_, pair_of ?_, ?_, ?_⟩
  all_goals decide +kernel

theorem witness_ConvolutionAndPooling_1 :
    (∃ h : Fin 16, ∃ seq : BitVec 32, ∃ c : Cmd, ∃ s : State, Runs h seq 0x11 c s ∧
    let a := (convA s c).desc
    let b := (convB s c).desc
    let d := (convC s c).desc
    (a.rank = 0 ∨ b.rank = 0 ∨ d.rank = 0)) ∧
    (∃ h : Fin 16, ∃ seq : BitVec 32, ∃ c : Cmd, ∃ s : State, Runs h seq 0x11 c s ∧
    let a := (convA s c).desc
    let b := (convB s c).desc
    let d := (convC s c).desc
    let o := convOp c a b d
    ∃ fa, ∃ fb, ∃ arr, a.format = some fa ∧ b.format = some fb ∧ arr = (pairFormat fa fb c.passes).getD .bf16 ∧
    (¬ (a.rank = 0 ∨ b.rank = 0 ∨ d.rank = 0)) ∧ (o.g.taps = 0 ∨ o.g.groups = 0)) ∧
    (∃ h : Fin 16, ∃ seq : BitVec 32, ∃ c : Cmd, ∃ s : State, Runs h seq 0x11 c s ∧
    let a := (convA s c).desc
    let b := (convB s c).desc
    let d := (convC s c).desc
    let o := convOp c a b d
    ∃ fa, ∃ fb, ∃ arr, a.format = some fa ∧ b.format = some fb ∧ arr = (pairFormat fa fb c.passes).getD .bf16 ∧
    (¬ (a.rank = 0 ∨ b.rank = 0 ∨ d.rank = 0)) ∧ o.g.taps ≠ 0 ∧ o.g.groups ≠ 0 ∧ convEmpty c o = true) ∧
    (∃ h : Fin 16, ∃ seq : BitVec 32, ∃ c : Cmd, ∃ s : State, Runs h seq 0x11 c s ∧
    let a := (convA s c).desc
    let b := (convB s c).desc
    let d := (convC s c).desc
    let o := convOp c a b d
    ∃ fa, ∃ fb, ∃ arr, a.format = some fa ∧ b.format = some fb ∧ arr = (pairFormat fa fb c.passes).getD .bf16 ∧
    (¬ (a.rank = 0 ∨ b.rank = 0 ∨ d.rank = 0)) ∧
    let P := if c.wino = 0 then convProd s c arr a b d else winoRows s c a b o
    o.g.taps ≠ 0 ∧ o.g.groups ≠ 0 ∧ convEmpty c o = false ∧ noStream P c = true) := by
  refine ⟨⟨0, 0, convCmd (geo 2 1 0), convS (convCmd (geo 2 1 0)) [] [1, 2, 1, 1], runs_of ?_, ?_⟩,
    ⟨0, 0, convCmd (geo 2 0 0), convS (convCmd (geo 2 0 0)) [2, 3, 1, 1] [1, 2, 1, 1], runs_of ?_, .int8, .int8, .int8, ?_, ?_, ?_, ?_, ?_⟩,
    ⟨0, 0, convCmd (geo 5 1 0), convS (convCmd (geo 5 1 0)) [2, 3, 1, 1] [1, 2, 1, 1], runs_of ?_, .int8, .int8, .int8, ?_, ?_, ?_, ?_, ?_, ?_, ?_⟩,
    ⟨0, 0, { convCmd (geo 2 1 0) with raw := (convCmd (geo 2 1 0)).raw.take 0x28 ++ zeros 24 }, convS ({ convCmd (geo 2 1 0) with raw := (convCmd (geo 2 1 0)).raw.take 0x28 ++ zeros 24 }) [2, 3, 1, 1] [1, 2, 1, 1], runs_of ?_, .int8, .int8, .int8, ?_, ?_, ?_, ?_, ?_, ?_, ?_, ?_⟩⟩
  all_goals decide +kernel

theorem witness_ConvolutionAndPooling_2 :
    (∃ h : Fin 16, ∃ seq : BitVec 32, ∃ c : Cmd, ∃ s : State, ∃ u : State, ∃ v : State, ∃ w : State, Runs h seq 0x11 c s ∧
    let a := (convA s c).desc
    let b := (convB s c).desc
    let d := (convC s c).desc
    let o := convOp c a b d
    ∃ fa, ∃ fb, ∃ arr, a.format = some fa ∧ b.format = some fb ∧ arr = (pairFormat fa fb c.passes).getD .bf16 ∧
    (¬ (a.rank = 0 ∨ b.rank = 0 ∨ d.rank = 0)) ∧
    let P := convProd s c arr a b d
    let T := c.tiling false
    s.symErr = [] ∧ o.g.taps ≠ 0 ∧ o.g.groups ≠ 0 ∧ convEmpty c o = false ∧ c.wino = 0 ∧ noStream P c = false ∧
    readRanges s h c (convReads c o a ++ b.ranges ++ recRanges a false ++ recRanges b false) = (u, .ok ()) ∧ slotRule u h c P T c.acc = 0 ∧
    (readMes u h T.mes (P.k != 0) (fun i => if c.acc.accIn then (List.range (T.liveAll P i)).map (c.acc.base + ·) else []) (some (cmdId u h c)) = (v, none)) ∧
    c.acc.keep = false ∧ d.scalePtr = 0 ∧ writeRanges v h c d.ranges = (w, .ok [])) ∧
    (∃ h : Fin 16, ∃ seq : BitVec 32, ∃ c : Cmd, ∃ s : State, Runs h seq 0x12 c s ∧
    let a := (poolA s c).desc
    let d := (poolC s c).desc
    let g := Geom.parse c.geom
    (a.rank = 0 ∨ d.rank = 0 ∨ g.taps = 0 ∨ c.awlMask = 0)) ∧
    (∃ h : Fin 16, ∃ seq : BitVec 32, ∃ c : Cmd, ∃ s : State, Runs h seq 0x12 c s ∧
    let a := (poolA s c).desc
    let d := (poolC s c).desc
    let g := Geom.parse c.geom
    let x (i : Nat) : Nat := if i = 2 ∧ g.dims = 2 then 1 else a.size (1 + i)
    let empty := ∃ i, i < 3 ∧ ((x i : Int) + at3 g.lo i + at3 g.hi i < at3 g.dil i * ((at3 g.k i : Int) - 1) + 1 ∨ x i = 0)
    ((∀ i, i < 3 → 0 < at3 g.st i)) ∧ (¬ (a.rank = 0 ∨ d.rank = 0 ∨ g.taps = 0 ∨ c.awlMask = 0)) ∧ empty) := by
  refine ⟨⟨0, 0, convCmd (geo 2 1 0), convS (convCmd (geo 2 1 0)) [2, 3, 1, 1] [1, 2, 1, 1], _, _, _, runs_of ?_, .int8, .int8, .int8, ?_, ?_, ?_, ?_, ?_, ?_, ?_, ?_, ?_, ?_, pair_of ?_, ?_, pair_of ?_, ?_, ?_, pair_of ?_⟩,
    ⟨0, 0, poolCmd (geo 2 1 1) 0, poolS (poolCmd (geo 2 1 1) 0) [1, 2, 1, 1], runs_of ?_, ?_⟩,
    ⟨0, 0, poolCmd (geo 5 1 1) 1, poolS (poolCmd (geo 5 1 1) 1) [1, 2, 1, 1], runs_of ?_, ?_, ?_, ?_⟩⟩
  all_goals decide +kernel

theorem witness_ConvolutionAndPooling_3 :
    (∃ h : Fin 16, ∃ seq : BitVec 32, ∃ c : Cmd, ∃ s : State, ∃ u : State, ∃ w : State, Runs h seq 0x12 c s ∧
    let a := (poolA s c).desc
    let d := (poolC s c).desc
    let g := Geom.parse c.geom
    let x (i : Nat) : Nat := if i = 2 ∧ g.dims = 2 then 1 else a.size (1 + i)
    let empty := ∃ i, i < 3 ∧ ((x i : Int) + at3 g.lo i + at3 g.hi i < at3 g.dil i * ((at3 g.k i : Int) - 1) + 1 ∨ x i = 0)
    ((∀ i, i < 3 → 0 < at3 g.st i)) ∧ (¬ (a.rank = 0 ∨ d.rank = 0 ∨ g.taps = 0 ∨ c.awlMask = 0)) ∧ ¬ empty ∧
    readRanges (poolCores s h c) h c (poolReads g a ++ recRanges a false) = (u, .ok ()) ∧ writeRanges u h c d.ranges = (w, .ok []) ∧
    d.scalePtr = 0) ∧
    (∃ c : Cmd, ∃ s : State, ∃ g : Geom, ∃ a : Desc, ∃ ix : List Nat, g.pool = 1 ∧
    let view := View.plain g.dims a
    let o := if g.dims = 2 then [ix.getD 1 0, ix.getD 2 0, 0] else [ix.getD 1 0, ix.getD 2 0, ix.getD 3 0]
    let inside := (List.range g.taps).filterMap fun t => g.tapPos view.x o (g.tap t)
    let val (p : List Nat) : FVal := (scaledElem s c.subn a (view.ix (ix.getD 0 0) p (ix.getD (g.dims + 1) 0))).1
    inside ≠ [] ∧ (∀ p ∈ inside, (val p).isFinite = true)) ∧
    (∃ c : Cmd, ∃ s : State, ∃ g : Geom, ∃ a : Desc, ∃ ix : List Nat, g.pool = 1 ∧
    let view := View.plain g.dims a
    let o := if g.dims = 2 then [ix.getD 1 0, ix.getD 2 0, 0] else [ix.getD 1 0, ix.getD 2 0, ix.getD 3 0]
    let inside := (List.range g.taps).filterMap fun t => g.tapPos view.x o (g.tap t)
    let val (p : List Nat) : FVal := (scaledElem s c.subn a (view.ix (ix.getD 0 0) p (ix.getD (g.dims + 1) 0))).1
    inside ≠ [] ∧ (∀ p ∈ inside, (val p).isFinite = true) ∧ ∃ p, p ∈ inside) := by
  refine ⟨⟨0, 0, poolCmd (geo 2 1 1) 1, poolS (poolCmd (geo 2 1 1) 1) [1, 2, 1, 1], _, _, runs_of ?_, ?_, ?_, ?_, pair_of ?_, pair_of ?_, ?_⟩,
    ⟨poolCmd (geo 2 1 1) 1, poolS (poolCmd (geo 2 1 1) 1) [1, 2, 1, 1], Geom.parse (geo 2 1 1), Desc.parse (tensor 0x40000 0x11 2 [1, 3, 1, 1]), [0, 1, 0, 0], ?_, ?_, ?_⟩,
    ⟨poolCmd (geo 2 1 1) 1, poolS (poolCmd (geo 2 1 1) 1) [1, 2, 1, 1], Geom.parse (geo 2 1 1), Desc.parse (tensor 0x40000 0x11 2 [1, 3, 1, 1]), [0, 1, 0, 0], ?_, ?_, ?_, [2, 0, 0], ?_⟩⟩
  all_goals decide +kernel

theorem witness_Attention :
    (∃ h : Fin 16, ∃ seq : BitVec 32, ∃ c : Cmd, ∃ s : State, Runs h seq 0x18 c s ∧ kvPaged c = false ∧ s.symErr = [] ∧
    let q := (atQ s c).desc
    let o := (atO s c).desc
    let k := (atK s c).desc
    let x := (atV s c).desc
    (q.rank = 0 ∨ o.rank = 0 ∨ k.rank = 0 ∨ x.rank = 0)) ∧
    (∃ h : Fin 16, ∃ seq : BitVec 32, ∃ c : Cmd, ∃ s : State, ∃ u : State, ∃ v : State, ∃ w : State, ∃ y : State, Runs h seq 0x18 c s ∧
    kvPaged c = false ∧ s.symErr = [] ∧
    let q := (atQ s c).desc
    let o := (atO s c).desc
    let k := (atK s c).desc
    let x := (atV s c).desc
    (¬ (q.rank = 0 ∨ o.rank = 0 ∨ k.rank = 0 ∨ x.rank = 0)) ∧ atBias c = 0 ∧ atStats c = false ∧ q.count ≠ 0 ∧ o.scalePtr = 0 ∧
    readTensors s h c [q, k, x] = (u, .ok ()) ∧ readMes u h (maskBits c.meMask 16) true (fun _ => []) (some (cmdId u h c)) = (v, none) ∧
    readBuffer v h (cmdId v h c) = (y, .ok ()) ∧ writeRanges y h c o.ranges = (w, .ok [])) ∧
    (∃ h : Fin 16, ∃ seq : BitVec 32, ∃ c : Cmd, ∃ s : State, ∃ v : State, Runs h seq 0x18 c s ∧ kvPaged c = false ∧ s.symErr = [] ∧
    ∃ zs : List FR, (∀ z ∈ zs, z.v = FVal.inf true)) := by
  refine ⟨⟨0, 0, atCmd, atS [], runs_of ?_, ?_, ?_, ?_⟩,
    ⟨0, 0, atCmd, atS [2, 1, 2, 1], _, _, _, _, runs_of ?_, ?_, ?_, ?_, ?_, ?_, ?_, ?_, pair_of ?_, pair_of ?_, pair_of ?_, pair_of ?_⟩,
    ⟨0, 0, atCmd, atS [2, 1, 2, 1], busy, runs_of ?_, ?_, ?_, [⟨.inf true, 0⟩, ⟨.inf true, 0⟩], ?_⟩⟩
  all_goals decide +kernel

theorem witness_CacheWalksAndSwaps_1 :
    (∃ h : Fin 16, ∃ seq : BitVec 32, ∃ c : Cmd, ∃ x : Ticket, ∃ q : Nat, ∃ s : State, ∃ u : State, ∃ v : State,
    let r := KvRec.at s (kvAddr c)
    Inv s ∧ findCmd s h seq.toNat = some c ∧ c.seq = seq.toNat ∧ c.st = .granted ∧ kvPaged c = true ∧ homeLive s r = true ∧
    findTicket s c.ticket = some x ∧ x.cancelling = false ∧ s.symErr = [] ∧ kvAppend c = false ∧ findWalk s h c.seq = none ∧
    walkSeqs s c = [(q : Int)] ∧ q < r.seqs ∧ r.live ≤ 1 ∧ r.seqState s q = sqACTIVE ∧
    touchRanges s (idDisp h) false (some (cmdId s h c)) [(r.addr, 128), (r.seqAddr q, 16), (r.entryAddr r.live q 0, 8 * r.maxPages)] = (u, .ok ()) ∧
    entriesBad q (r.entries s r.live q) = false ∧ kvTouch u h c [] (holdRanges r r.live [q]) = (v, .ok ()) ∧
    (r.addr + 128 ≤ r.seqAddr q ∨ r.seqAddr q + 16 ≤ r.addr)) ∧
    (∃ h : Fin 16, ∃ seq : BitVec 32, ∃ c : Cmd, ∃ x : Ticket, ∃ s : State,
    let r := KvRec.at s (kvAddr c)
    Inv s ∧ findCmd s h seq.toNat = some c ∧ c.seq = seq.toNat ∧ c.st = .granted ∧ kvPaged c = true ∧ homeLive s r = true ∧
    findTicket s c.ticket = some x ∧ x.cancelling = false ∧ s.symErr = [] ∧ ∃ w, findWalk s h c.seq = some w ∧ w.hearth = h.val ∧
    w.cmd = c.seq ∧ w.waiting = false) := by
  refine ⟨⟨0, 0, kvCmd 4, ticket0, 0, kvS (kvCmd 4) (entOf true 16 0x71000 0) [], _, _, inv_of ?_, ?_, ?_, ?_, ?_, ?_, ?_, ?_, ?_, ?_, ?_, ?_, ?_, ?_, ?_, pair_of ?_, ?_, pair_of ?_, ?_⟩,
    ⟨0, 0, kvCmd 12, ticket0, kvS (kvCmd 12) (entOf true 16 0x71000 0) [{ walk0 with waiting := false }], inv_of ?_, ?_, ?_, ?_, ?_, ?_, ?_, ?_, ?_, { walk0 with waiting := false }, ?_, ?_, ?_, ?_⟩⟩
  all_goals decide +kernel

theorem witness_CacheWalksAndSwaps_2 :
    ∃ h : Fin 16, ∃ seq : BitVec 32, ∃ c : Cmd, ∃ x : Ticket, ∃ q : Nat, ∃ s : State, ∃ u : State, ∃ v : State,
    let r := KvRec.at s (kvAddr c)
    Inv s ∧ findCmd s h seq.toNat = some c ∧ c.seq = seq.toNat ∧ c.st = .granted ∧ kvPaged c = true ∧ homeLive s r = true ∧
    findTicket s c.ticket = some x ∧ x.cancelling = false ∧ s.symErr = [] ∧ ∃ w, findWalk s h c.seq = some w ∧ w.hearth = h.val ∧
    w.cmd = c.seq ∧ w.waiting = true ∧ w.append = true ∧ w.phase = 1 ∧ w.victims = [] ∧ w.swapIn = none ∧ w.seqs = [q] ∧ w.pages = [] ∧
    r.sameSlots s q = true ∧ newPages (r.entries s w.slot q) (walkLq s c) = 1 ∧
    ceilDiv (lengthOf (r.entries s w.slot q) + walkLq s c) 16 ≤ r.maxPages ∧ 1 ≤ r.freeCount s ∧ 0 < r.ringSize ∧
    kvTouch s h c [(r.entryAddr 0 q 0, 8 * r.maxPages), (r.entryAddr 1 q 0, 8 * r.maxPages)] [] = (u, .ok ()) ∧
    kvTouch u h c (r.ringRanges (r.freeHead s) 1) [(r.addr + 0x34, 8)] = (v, .ok ()) := by
  refine ⟨0, 0, kvCmd 12, ticket0, 0, kvS (kvCmd 12) (entOf true 16 0x71000 0) [walk0], _, _, inv_of ?_, ?_, ?_, ?_, ?_, ?_, ?_, ?_, ?_, walk0, ?_, ?_, ?_, ?_, ?_, ?_, ?_, ?_, ?_, ?_, ?_, ?_, ?_, ?_, ?_, pair_of ?_, pair_of ?_⟩
  all_goals decide +kernel

theorem witness_CacheWalksAndSwaps_3 :
    ∃ h : Fin 16, ∃ seq : BitVec 32, ∃ c : Cmd, ∃ w : KvWalk, ∃ q : Nat, ∃ p : Nat, ∃ a : Nat, ∃ b : Nat, ∃ rest : List Nat, ∃ s : State,
    ∃ v : State,
    let r := KvRec.at s (kvAddr c)
    let far (x : Nat) : Prop := 0x010000000000 ≤ x ∧ x + r.pageBytes ≤ 0x050000000000
    Inv s ∧ findCmd s h seq.toNat = some c ∧ c.seq = seq.toNat ∧ c.st = .granted ∧ kvPaged c = true ∧ homeLive s r = true ∧
    findWalk s h c.seq = some w ∧ w.hearth = h.val ∧ w.cmd = c.seq ∧ s.symErr = [] ∧ q < r.seqs ∧ p < r.maxPages ∧
    a + r.pageBytes ≤ nearEnd ∧
    ([(r.addr, 128), (r.tableA, r.tableBytes), (r.tableB, r.tableBytes), (r.seqTable, 16 * r.seqs), (r.ring, 8 * r.ringSize), (a, r.pageBytes)].Pairwise (fun x y => x.1 + x.2 ≤ y.1 ∨ y.1 + y.2 ≤ x.1)) ∧
    r.addr + 128 ≤ nearEnd ∧ r.tableA + r.tableBytes ≤ nearEnd ∧ r.tableB + r.tableBytes ≤ nearEnd ∧ r.seqTable + 16 * r.seqs ≤ nearEnd ∧
    r.ring + 8 * r.ringSize ≤ nearEnd ∧ w.victims = q :: rest ∧ r.resident s q = [(p, a)] ∧
    b = r.swapBase + (q * r.maxPages + p) * r.pageBytes ∧ far b ∧ r.freeCount s < r.ringSize ∧
    thenPush r w c [a] (swapPages s r w c q [(p, a, b)]) = (v, .ok ()) := by
  refine ⟨0, 0, kvCmd 12, { walk0 with victims := [0] }, 0, 0, 0x71000, 0x010000000000, [], kvS (kvCmd 12) (entOf true 16 0x71000 0) [({ walk0 with victims := [0] })], _, inv_of ?_, ?_, ?_, ?_, ?_, ?_, ?_, ?_, ?_, ?_, ?_, ?_, ?_, ?_, ?_, ?_, ?_, ?_, ?_, ?_, ?_, ?_, ?_, ?_, pair_of ?_⟩
  all_goals decide +kernel

theorem witness_CacheWalksAndSwaps_4 :
    ∃ h : Fin 16, ∃ seq : BitVec 32, ∃ c : Cmd, ∃ w : KvWalk, ∃ q : Nat, ∃ p : Nat, ∃ a : Nat, ∃ b : Nat, ∃ s : State, ∃ v : State,
    let r := KvRec.at s (kvAddr c)
    let far (x : Nat) : Prop := 0x010000000000 ≤ x ∧ x + r.pageBytes ≤ 0x050000000000
    Inv s ∧ findCmd s h seq.toNat = some c ∧ c.seq = seq.toNat ∧ c.st = .granted ∧ kvPaged c = true ∧ homeLive s r = true ∧
    findWalk s h c.seq = some w ∧ w.hearth = h.val ∧ w.cmd = c.seq ∧ s.symErr = [] ∧ q < r.seqs ∧ p < r.maxPages ∧
    a + r.pageBytes ≤ nearEnd ∧
    ([(r.addr, 128), (r.tableA, r.tableBytes), (r.tableB, r.tableBytes), (r.seqTable, 16 * r.seqs), (r.ring, 8 * r.ringSize), (a, r.pageBytes)].Pairwise (fun x y => x.1 + x.2 ≤ y.1 ∨ y.1 + y.2 ≤ x.1)) ∧
    r.addr + 128 ≤ nearEnd ∧ r.tableA + r.tableBytes ≤ nearEnd ∧ r.tableB + r.tableBytes ≤ nearEnd ∧ r.seqTable + 16 * r.seqs ≤ nearEnd ∧
    r.ring + 8 * r.ringSize ≤ nearEnd ∧ w.victims = [] ∧ w.swapIn = some (q, [a]) ∧ r.absent s q = [(p, b)] ∧ far b ∧
    swapPages s r w c q [(p, b, a)] = (v, .ok ()) := by
  refine ⟨0, 0, kvCmd 12, { walk0 with swapIn := some (0, [0x71000]) }, 0, 0, 0x71000, 0x010000000000, kvS (kvCmd 12) (entOf false 16 0x010000000000 0) [({ walk0 with swapIn := some (0, [0x71000]) })], _, inv_of ?_, ?_, ?_, ?_, ?_, ?_, ?_, ?_, ?_, ?_, ?_, ?_, ?_, ?_, ?_, ?_, ?_, ?_, ?_, ?_, ?_, ?_, ?_, pair_of ?_⟩
  all_goals decide +kernel

theorem witness_CacheCommits_1 :
    (∃ h : Fin 16, ∃ seq : BitVec 32, ∃ c : Cmd, ∃ s : State, ∃ w : State, Inv s ∧ Runs h seq 0x19 c s ∧ s.symErr = [] ∧
    let r := KvRec.at s (kvAddr c)
    let appending := s.walks.any fun w => w.cache == r.addr && w.append
    homeLive s r = true ∧ s.commits = [] ∧ appending = true) ∧
    (∃ h : Fin 16, ∃ seq : BitVec 32, ∃ c : Cmd, ∃ d : Bytes, ∃ s : State, ∃ u : State, ∃ v : State, ∃ w : State, Inv s ∧
    Runs h seq 0x19 c s ∧ s.symErr = [] ∧
    let me := some (cmdId s h c)
    let r := KvRec.at s (kvAddr c)
    let n := peekNat s (r.addr + 0x3C) 4
    let appending := s.walks.any fun w => w.cache == r.addr && w.append
    homeLive s r = true ∧ s.commits = [] ∧ appending = false ∧ r.live ≤ 1 ∧ kvTouch s h c [(r.addr, 128)] [] = (v, .ok ()) ∧
    memRead v (idDisp h) (peekNat s (r.addr + 0x40) 8) (8 * n) me = (u, .ok d) ∧
    let ps := (List.range n).map fun i => field d (8 * i) 8
    ((∀ p ∈ ps, p % 256 = 0 ∧ p < nearEnd)) ∧ kvTouch u h c [] [(r.addr + 0x3C, 4), (r.addr, 1)] = (w, .ok ())) ∧
    (∃ h : Fin 16, ∃ seq : BitVec 32, ∃ c : Cmd, ∃ d : Bytes, ∃ s : State, ∃ u : State, ∃ v : State, ∃ w : State, Inv s ∧
    Runs h seq 0x19 c s ∧ s.symErr = [] ∧
    let me := some (cmdId s h c)
    let r := KvRec.at s (kvAddr c)
    let n := peekNat s (r.addr + 0x3C) 4
    let appending := s.walks.any fun w => w.cache == r.addr && w.append
    homeLive s r = true ∧ s.commits = [] ∧ appending = false ∧ r.live ≤ 1 ∧ kvTouch s h c [(r.addr, 128)] [] = (v, .ok ()) ∧
    memRead v (idDisp h) (peekNat s (r.addr + 0x40) 8) (8 * n) me = (u, .ok d) ∧
    let ps := (List.range n).map fun i => field d (8 * i) 8
    ((∃ p ∈ ps, p % 256 ≠ 0 ∨ nearEnd ≤ p))) := by
  refine ⟨⟨0, 0, commitCmd, { commitS [] with walks := [walk0] }, busy, inv_of ?_, runs_of ?_, ?_, ?_, ?_, ?_⟩,
    ⟨0, 0, commitCmd, leBytes 8 0x72000 ++ leBytes 8 0x73000, commitS [0x72000, 0x73000], _, _, _, inv_of ?_, runs_of ?_, ?_, ?_, ?_, ?_, ?_, pair_of ?_, pair_of ?_, ?_, pair_of ?_⟩,
    ⟨0, 0, commitCmd, leBytes 8 0x72001, commitS [0x72001], _, _, busy, inv_of ?_, runs_of ?_, ?_, ?_, ?_, ?_, ?_, pair_of ?_, pair_of ?_, ?_⟩⟩
  all_goals decide +kernel

theorem witness_CacheCommits_2 :
    (∃ h : Fin 16, ∃ seq : BitVec 32, ∃ c : Cmd, ∃ s : State, Inv s ∧ Runs h seq 0x19 c s ∧ s.symErr = [] ∧ ∃ x, ∃ r', s.commits = [x] ∧
    x.hearth = h.val ∧ x.cmd = c.seq ∧ r' = KvRec.at s x.cache ∧ homeLive s r' = true ∧ x.published = true ∧ x.former ≤ 1 ∧
    let walks := peekNat s (r'.addr + (if x.former = 0 then 0x60 else 0x62)) 2
    walks ≠ 0) ∧
    (∃ h : Fin 16, ∃ seq : BitVec 32, ∃ c : Cmd, ∃ d : Bytes, ∃ s : State, ∃ u : State, ∃ v : State, Inv s ∧ Runs h seq 0x19 c s ∧
    s.symErr = [] ∧
    let me := some (cmdId s h c)
    ∃ x, ∃ r', ∃ y, ∃ z, s.commits = [x] ∧ x.hearth = h.val ∧ x.cmd = c.seq ∧ r' = KvRec.at s x.cache ∧ homeLive s r' = true ∧
    x.published = true ∧ x.former ≤ 1 ∧
    let walks := peekNat s (r'.addr + (if x.former = 0 then 0x60 else 0x62)) 2
    let from_ := r'.table (1 - x.former)
    let to_ := r'.table x.former
    walks = 0 ∧ r'.freeCount s + x.released.length ≤ r'.ringSize ∧ (∀ p ∈ x.released, p < 2 ^ 64) ∧
    ([(r'.addr, 128), (from_, r'.tableBytes), (to_, r'.tableBytes), (r'.ring, 8 * r'.ringSize)].Pairwise (fun x y => x.1 + x.2 ≤ y.1 ∨ y.1 + y.2 ≤ x.1)) ∧
    from_ + r'.tableBytes ≤ nearEnd ∧ to_ + r'.tableBytes ≤ nearEnd ∧ kvTouch s h c [(r'.addr, 128)] [] = (v, .ok ()) ∧
    memRead v (idDisp h) from_ r'.tableBytes me = (u, .ok d) ∧ memWrite u (idDisp h) to_ d me = (y, .ok ()) ∧
    r'.push y h c x.released = (z, .ok ())) := by
  refine ⟨⟨0, 0, commitCmd, publishedS 1, inv_of ?_, runs_of ?_, ?_, commit0, KvRec.at (publishedS 1) 0x60000, ?_, ?_, ?_, ?_, ?_, ?_, ?_, ?_⟩,
    ⟨0, 0, commitCmd, peekBytes (publishedS 0) 0x62000 32, publishedS 0, _, _, inv_of ?_, runs_of ?_, ?_, commit0, KvRec.at (publishedS 0) 0x60000, _, _, ?_, ?_, ?_, rfl, ?_, ?_, ?_, ?_, ?_, ?_, ?_, ?_, ?_, pair_of ?_, pair_of ?_, pair_of ?_, pair_of ?_⟩⟩
  all_goals decide +kernel

theorem witness_RowOperations_1 :
    (∃ h : Fin 16, ∃ seq : BitVec 32, ∃ c : Cmd, ∃ s : State, Runs h seq 0x20 c s ∧ s.symErr = [] ∧
    let x := (rfX s c).desc
    let y := (rfY s c).desc
    (x.count = 0 ∨ y.rank = 0)) ∧
    (∃ h : Fin 16, ∃ seq : BitVec 32, ∃ c : Cmd, ∃ s : State, Runs h seq 0x20 c s ∧ s.symErr = [] ∧
    let x := (rfX s c).desc
    let y := (rfY s c).desc
    (x.count = 0 ∨ y.rank = 0)) ∧
    (∃ h : Fin 16, ∃ seq : BitVec 32, ∃ c : Cmd, ∃ s : State, ∃ u : State, ∃ v : State, ∃ w : State, Runs h seq 0x20 c s ∧ s.symErr = [] ∧
    let x := (rfX s c).desc
    let y := (rfY s c).desc
    let s0 := wr s (F.ROW_STATE_OP h) (rfOp c)
    x.count ≠ 0 ∧ y.rank ≠ 0 ∧ rfStats c = false ∧ y.scalePtr = 0 ∧
    readTensors s0 h c ([x] ++ ([rfG s0 c, rfB s0 c, rfM s0 c].filter Opnd.isSome).map Opnd.desc) = (u, .ok ()) ∧
    readBuffer u h (cmdId u h c) = (v, .ok ()) ∧ writeRanges v h c y.ranges = (w, .ok [])) ∧
    (∃ xs : List FR, ∃ k : Nat, ∃ x : FR, xs[k]? = some x) ∧
    (∃ v : State, ∃ z : FR, z.v.isFinite = true) ∧
    (∃ v : State, ∃ f : Bool, ∃ zs : List FR, (∀ z ∈ zs, z.v = FVal.inf true) ∧ ∃ y, y ∈ (softRow f zs).2) ∧
    (∃ h : Fin 16, ∃ seq : BitVec 32, ∃ c : Cmd, ∃ s : State, Runs h seq 0x21 c s ∧ s.symErr = [] ∧
    let x := (rbX s c).desc
    let dy := (rbDy s c).desc
    let dx := (rbDx s c).desc
    let op := rbOp c
    ((if op = 4 then dx.count = 0 else op ≠ 5 ∧ (x.count = 0 ∨ dy.rank = 0 ∨ dx.rank = 0)))) ∧
    (∃ h : Fin 16, ∃ seq : BitVec 32, ∃ c : Cmd, ∃ s : State, Runs h seq 0x21 c s ∧ s.symErr = [] ∧
    let x := (rbX s c).desc
    let op := rbOp c
    op = 5 ∧ x.count = 0) := by
  refine ⟨⟨0, 0, rowCmd 0, rowS 0 [], runs_of ?_, ?_, ?_⟩,
    ⟨0, 0, rowCmd 0, rowS 0 [2, 0], runs_of ?_, ?_, ?_⟩,
    ⟨0, 0, rowCmd 0, rowS 0 [2, 2], _, _, _, runs_of ?_, ?_, ?_, ?_, ?_, ?_, pair_of ?_, pair_of ?_, pair_of ?_⟩,
    ⟨[⟨.fin false 1 0, 0⟩, ⟨.fin true 3 1, 0⟩], 1, ⟨.fin true 3 1, 0⟩, ?_⟩,
    ⟨busy, ⟨.fin true 7 90, 0⟩, ?_⟩,
    ⟨busy, false, [⟨.inf true, 0⟩, ⟨.inf true, 0⟩], ?_, ⟨.fin false 0 0, 0⟩, ?_⟩,
    ⟨0, 0, backCmd 0, backS 0 [], runs_of ?_, ?_, ?_⟩,
    ⟨0, 0, backCmd 5, backS 5 [], runs_of ?_, ?_, ?_, ?_⟩⟩
  all_goals decide +kernel

theorem witness_RowOperations_2 :
    (∃ h : Fin 16, ∃ seq : BitVec 32, ∃ c : Cmd, ∃ st : List (Nat × Nat), ∃ s : State, ∃ u : State, ∃ w : State, Runs h seq 0x21 c s ∧
    s.symErr = [] ∧
    let dx := (rbDx s c).desc
    let op := rbOp c
    op = 4 ∧ dx.count ≠ 0 ∧ dx.scalePtr = 0 ∧
    readRows s h c (match findStat s h c.ticket (statTagOf c) with | some t => t.softmax == some true | none => false) (c.fld 0x34 4) (dx.size 1) = (u, .ok st) ∧
    writeRanges u h c dx.ranges = (w, .ok [])) ∧
    (∃ h : Fin 16, ∃ seq : BitVec 32, ∃ c : Cmd, ∃ st : List (Nat × Nat), ∃ s : State, ∃ u : State, ∃ w : State, Runs h seq 0x21 c s ∧
    s.symErr = [] ∧
    let x := (rbX s c).desc
    let dy := (rbDy s c).desc
    let dx := (rbDx s c).desc
    let op := rbOp c
    ∃ v, ∃ y, (op = 2 ∨ op = 3) ∧ (¬ (x.count = 0 ∨ dy.rank = 0 ∨ dx.rank = 0)) ∧ bit (rbFlags c) 1 = false ∧ rbBias c = 0 ∧
    dx.scalePtr = 0 ∧ (rbG s c).isSome = false ∧ (rbDg s c).isSome = false ∧ (rbDb s c).isSome = false ∧
    readTensors s h c [x, dy] = (v, .ok ()) ∧ readBuffer v h (cmdId v h c) = (y, .ok ()) ∧
    readRows y h c false (c.fld 0x34 4) x.rowCount = (u, .ok st) ∧ writeRanges u h c dx.ranges = (w, .ok [])) ∧
    (∃ h : Fin 16, ∃ seq : BitVec 32, ∃ c : Cmd, ∃ s : State, Runs h seq 0x21 c s ∧ s.symErr = [] ∧
    let f := c.subn
    ∃ m, ∃ l, ∃ scale, ∃ d0, ∃ zs, ∃ dys, rowMasked l = true ∧ ∃ y, y ∈ (softBack f m l scale d0 zs dys).1) := by
  refine ⟨⟨0, 0, backCmd 4, [(0x3F800000, 0x40000000), (0x3F000000, 0x3F800000)], backS 4 [2, 2], _, _, runs_of ?_, ?_, ?_, ?_, ?_, pair_of ?_, pair_of ?_⟩,
    ⟨0, 0, backCmd 2, [(0x3F800000, 0x40000000), (0x3F000000, 0x3F800000)], backS 2 [2, 2], _, _, runs_of ?_, ?_, _, _, ?_, ?_, ?_, ?_, ?_, ?_, ?_, ?_, pair_of ?_, pair_of ?_, pair_of ?_, pair_of ?_⟩,
    ⟨0, 0, backCmd 5, backS 5 [], runs_of ?_, ?_, FR.zero, FR.zero, FR.zero, none, [FR.zero], [FR.zero], ?_, FR.zero, ?_⟩⟩
  all_goals decide +kernel

theorem witness_AwlCommands :
    (∃ h : Fin 16, ∃ seq : BitVec 32, ∃ c : Cmd, ∃ s : State, Runs h seq 0x28 c s ∧ awlIdle c = true) ∧
    (∃ h : Fin 16, ∃ seq : BitVec 32, ∃ c : Cmd, ∃ x : Ticket, ∃ code : Bytes, ∃ s : State, ∃ u : State, Runs h seq 0x28 c s ∧
    awlIdle c = false ∧ findTicket s c.ticket = some x ∧ readCode h c s = (u, .ok code)) := by
  refine ⟨⟨0, 0, awlCmd 4 0, window (awlCmd 4 0) busy, runs_of ?_, ?_⟩,
    ⟨0, 0, awlCmd 4 3, ticket0, bytes [1, 2, 3, 4], putAt 0x20000 (bytes [1, 2, 3, 4]) (window (awlCmd 4 3) busy), _, runs_of ?_, ?_, ?_, pair_of ?_⟩⟩
  all_goals decide +kernel

theorem witness_StashPutsAndGets_1 :
    (∃ h : Fin 16, ∃ seq : BitVec 32, ∃ c : Cmd, ∃ q : Nat, ∃ retry : Bool, ∃ s : State, ∃ u : State,
    let d := (spSrc s c).desc
    let used := (findStash s c.ticket (c.fld 0x16 2) (c.fld 0x18 1)).isSome
    let asks := if retry then unitLive s (U.disp h) = true ∧ findCmd s h seq.toNat = some c ∧ c.seq = seq.toNat ∧ s.stashWait = [(h.val, seq.toNat)]
          else Runs h seq 0x30 c s ∧ s.stashWait = []
    asks ∧ quotaOf s (cmdProg s c) = some q ∧ s.symErr = [] ∧ readTensors s h c [d] = (u, .ok ()) ∧ used = true) ∧
    (∃ h : Fin 16, ∃ seq : BitVec 32, ∃ c : Cmd, ∃ q : Nat, ∃ retry : Bool, ∃ s : State, ∃ u : State,
    let d := (spSrc s c).desc
    let need := ceilDiv (d.rowCount * stashLine (spFmt c) (d.size 0)) 65536
    let went := place s q need (spEligible c)
    let used := (findStash s c.ticket (c.fld 0x16 2) (c.fld 0x18 1)).isSome
    let asks := if retry then unitLive s (U.disp h) = true ∧ findCmd s h seq.toNat = some c ∧ c.seq = seq.toNat ∧ s.stashWait = [(h.val, seq.toNat)]
          else Runs h seq 0x30 c s ∧ s.stashWait = []
    asks ∧ quotaOf s (cmdProg s c) = some q ∧ s.symErr = [] ∧ readTensors s h c [d] = (u, .ok ()) ∧ used = false ∧
    (went = .near ∨ went = .far)) := by
  refine ⟨⟨0, 0, putCmd 0 0, 0, false, putS (putCmd 0 0) 1 1 1 [entry0 1], _, (by rw [if_neg (by decide)]; exact ⟨runs_of (by decide +kernel), by decide +kernel⟩), ?_, ?_, pair_of ?_, ?_⟩,
    ⟨0, 0, putCmd 0 0, 0, false, putS (putCmd 0 0) 1 1 1 [], _, (by rw [if_neg (by decide)]; exact ⟨runs_of (by decide +kernel), by decide +kernel⟩), ?_, ?_, pair_of ?_, ?_, ?_⟩⟩
  all_goals decide +kernel

theorem witness_StashPutsAndGets_2 :
    (∃ h : Fin 16, ∃ seq : BitVec 32, ∃ c : Cmd, ∃ q : Nat, ∃ retry : Bool, ∃ s : State, ∃ u : State,
    let d := (spSrc s c).desc
    let need := ceilDiv (d.rowCount * stashLine (spFmt c) (d.size 0)) 65536
    let went := place s q need (spEligible c)
    let used := (findStash s c.ticket (c.fld 0x16 2) (c.fld 0x18 1)).isSome
    let asks := if retry then unitLive s (U.disp h) = true ∧ findCmd s h seq.toNat = some c ∧ c.seq = seq.toNat ∧ s.stashWait = [(h.val, seq.toNat)]
          else Runs h seq 0x30 c s ∧ s.stashWait = []
    asks ∧ quotaOf s (cmdProg s c) = some q ∧ s.symErr = [] ∧ readTensors s h c [d] = (u, .ok ()) ∧ used = false ∧
    (went = .near ∨ went = .far)) ∧
    (∃ h : Fin 16, ∃ seq : BitVec 32, ∃ c : Cmd, ∃ q : Nat, ∃ retry : Bool, ∃ s : State, ∃ u : State,
    let d := (spSrc s c).desc
    let need := ceilDiv (d.rowCount * stashLine (spFmt c) (d.size 0)) 65536
    let went := place s q need (spEligible c)
    let used := (findStash s c.ticket (c.fld 0x16 2) (c.fld 0x18 1)).isSome
    let asks := if retry then unitLive s (U.disp h) = true ∧ findCmd s h seq.toNat = some c ∧ c.seq = seq.toNat ∧ s.stashWait = [(h.val, seq.toNat)]
          else Runs h seq 0x30 c s ∧ s.stashWait = []
    asks ∧ quotaOf s (cmdProg s c) = some q ∧ s.symErr = [] ∧ readTensors s h c [d] = (u, .ok ()) ∧ used = false ∧ went = .drop) := by
  refine ⟨⟨0, 0, putCmd 0 0, 0, false, putS (putCmd 0 0) 0 1 1 [], _, (by rw [if_neg (by decide)]; exact ⟨runs_of (by decide +kernel), by decide +kernel⟩), ?_, ?_, pair_of ?_, ?_, ?_⟩,
    ⟨0, 0, putCmd 0 1, 0, false, putS (putCmd 0 1) 0 0 1 [], _, (by rw [if_neg (by decide)]; exact ⟨runs_of (by decide +kernel), by decide +kernel⟩), ?_, ?_, pair_of ?_, ?_, ?_⟩⟩
  all_goals decide +kernel

theorem witness_StashPutsAndGets_3 :
    (∃ h : Fin 16, ∃ seq : BitVec 32, ∃ c : Cmd, ∃ q : Nat, ∃ retry : Bool, ∃ s : State, ∃ u : State,
    let d := (spSrc s c).desc
    let need := ceilDiv (d.rowCount * stashLine (spFmt c) (d.size 0)) 65536
    let went := place s q need (spEligible c)
    let used := (findStash s c.ticket (c.fld 0x16 2) (c.fld 0x18 1)).isSome
    let asks := if retry then unitLive s (U.disp h) = true ∧ findCmd s h seq.toNat = some c ∧ c.seq = seq.toNat ∧ s.stashWait = [(h.val, seq.toNat)]
          else Runs h seq 0x30 c s ∧ s.stashWait = []
    asks ∧ quotaOf s (cmdProg s c) = some q ∧ s.symErr = [] ∧ readTensors s h c [d] = (u, .ok ()) ∧ used = false ∧ went = .wait ∧
    retry = true) ∧
    (∃ h : Fin 16, ∃ seq : BitVec 32, ∃ c : Cmd, ∃ q : Nat, ∃ retry : Bool, ∃ s : State, ∃ u : State,
    let d := (spSrc s c).desc
    let need := ceilDiv (d.rowCount * stashLine (spFmt c) (d.size 0)) 65536
    let went := place s q need (spEligible c)
    let used := (findStash s c.ticket (c.fld 0x16 2) (c.fld 0x18 1)).isSome
    let asks := if retry then unitLive s (U.disp h) = true ∧ findCmd s h seq.toNat = some c ∧ c.seq = seq.toNat ∧ s.stashWait = [(h.val, seq.toNat)]
          else Runs h seq 0x30 c s ∧ s.stashWait = []
    asks ∧ quotaOf s (cmdProg s c) = some q ∧ s.symErr = [] ∧ readTensors s h c [d] = (u, .ok ()) ∧ used = false ∧ went = .wait ∧
    retry = false) ∧
    (∃ h : Fin 16, ∃ seq : BitVec 32, ∃ c : Cmd, ∃ e : StashEntry, ∃ s : State, ∃ v,
    let un := saddleOf s e
    let rs := e.spans 0 (e.rows * stashLine e.fmt e.size0)
    findCmd s h c.seq = some c ∧ touchWrites un.2 (idDisp h) (some (cmdId un.2 h c)) rs = (v, .ok [])) := by
  refine ⟨⟨0, 0, putCmd 1 0, 0, true, putS (putCmd 1 0) 0 0 0 [], _, (by rw [if_pos rfl]; decide +kernel), ?_, ?_, pair_of ?_, ?_, ?_, ?_⟩,
    ⟨0, 0, putCmd 0 0, 0, false, putS (putCmd 0 0) 0 0 0 [], _, (by rw [if_neg (by decide)]; exact ⟨runs_of (by decide +kernel), by decide +kernel⟩), ?_, ?_, pair_of ?_, ?_, ?_, ?_⟩,
    ⟨0, 0, putCmd 0 0, entry0 0, putS (putCmd 0 0) 1 1 1 [], _, ?_, pair_of ?_⟩⟩
  all_goals decide +kernel

theorem witness_StashPutsAndGets_4 :
    (∃ h : Fin 16, ∃ seq : BitVec 32, ∃ c : Cmd, ∃ e : StashEntry, ∃ s : State, isRun s = true ∧ findCmd s h seq.toNat = some c ∧
    c.seq = seq.toNat ∧ s.stash.find? (fun x => x.cmd == (h.val, seq.toNat) && x.st == 0) = some e) ∧
    (∃ h : Fin 16, ∃ seq : BitVec 32, ∃ c : Cmd, ∃ s : State, Runs h seq 0x31 c s ∧ getEntry s h c = none) ∧
    (∃ h : Fin 16, ∃ seq : BitVec 32, ∃ c : Cmd, ∃ e : StashEntry, ∃ s : State, Runs h seq 0x31 c s ∧
    let first := c.fld 0x24 4
    let rows := c.fld 0x28 4
    getEntry s h c = some e ∧ e.rows < first + rows) ∧
    (∃ h : Fin 16, ∃ seq : BitVec 32, ∃ c : Cmd, ∃ e : StashEntry, ∃ s : State, Runs h seq 0x31 c s ∧
    let first := c.fld 0x24 4
    let rows := c.fld 0x28 4
    getEntry s h c = some e ∧ first + rows ≤ e.rows ∧ e.st = 0) ∧
    (∃ h : Fin 16, ∃ seq : BitVec 32, ∃ c : Cmd, ∃ e : StashEntry, ∃ s : State, Runs h seq 0x31 c s ∧
    let first := c.fld 0x24 4
    let rows := c.fld 0x28 4
    getEntry s h c = some e ∧ first + rows ≤ e.rows ∧ e.st = 3 ∧ (sgCount c = 0 ∨ c.recompute = true)) ∧
    (∃ h : Fin 16, ∃ seq : BitVec 32, ∃ c : Cmd, ∃ e : StashEntry, ∃ s : State, Runs h seq 0x31 c s ∧
    let first := c.fld 0x24 4
    let rows := c.fld 0x28 4
    getEntry s h c = some e ∧ first + rows ≤ e.rows ∧ e.st = 3 ∧ sgCount c ≠ 0 ∧ c.recompute = false ∧ (∀ r ∈ s.recomps, r.hearth ≠ h.val)) := by
  refine ⟨⟨0, 0, { putCmd 0 0 with st := .working }, entry0 0, { window ({ putCmd 0 0 with st := .working }) busy with stash := [entry0 0] }, ?_, ?_, ?_, ?_⟩,
    ⟨0, 0, getCmd 0 0 2, getS (getCmd 0 0 2) [], runs_of ?_, ?_⟩,
    ⟨0, 0, getCmd 0 1 2, entry0 1, getS (getCmd 0 1 2) [(entry0 1)], runs_of ?_, ?_, ?_⟩,
    ⟨0, 0, getCmd 0 1 1, entry0 0, getS (getCmd 0 1 1) [(entry0 0)], runs_of ?_, ?_, ?_, ?_⟩,
    ⟨0, 0, getCmd 0 0 2, entry0 3, getS (getCmd 0 0 2) [(entry0 3)], runs_of ?_, ?_, ?_, ?_, ?_⟩,
    ⟨0, 0, getCmd 3 0 2, entry0 3, getS (getCmd 3 0 2) [(entry0 3)], runs_of ?_, ?_, ?_, ?_, ?_, ?_, ?_⟩⟩
  all_goals decide +kernel

theorem witness_StashPutsAndGets_5 :
    (∃ h : Fin 16, ∃ seq : BitVec 32, ∃ c : Cmd, ∃ e : StashEntry, ∃ b : Bytes, ∃ s : State, ∃ u : State, ∃ w : State, Runs h seq 0x31 c s ∧
    let d := (sgDst s c).desc
    let first := c.fld 0x24 4
    let rows := c.fld 0x28 4
    let un := saddleOf s e
    let line := stashLine e.fmt e.size0
    getEntry s h c = some e ∧ first + rows ≤ e.rows ∧ (e.st = 1 ∨ e.st = 2) ∧ ((d.rank ≠ 0 → 0x20 ≤ d.fmt → d.fmt = e.fmt)) ∧
    ((d.rank ≠ 0 → rows ≠ 0 → d.size 0 = e.size0)) ∧ d.scalePtr = 0 ∧
    readSpans un.2 h (some (cmdId un.2 h c)) (e.spans (first * line) (rows * line)) = (u, .ok b) ∧ writeRanges u h c d.ranges = (w, .ok [])) ∧
    (∃ h : Fin 16, ∃ seq : BitVec 32, ∃ c : Cmd, ∃ e : StashEntry, ∃ b : Bytes, ∃ s : State, ∃ u : State, ∃ w : State, Runs h seq 0x31 c s ∧
    let d := (sgDst s c).desc
    let first := c.fld 0x24 4
    let rows := c.fld 0x28 4
    let un := saddleOf s e
    let line := stashLine e.fmt e.size0
    getEntry s h c = some e ∧ first + rows ≤ e.rows ∧ (e.st = 1 ∨ e.st = 2) ∧ ((d.rank ≠ 0 → 0x20 ≤ d.fmt → d.fmt = e.fmt)) ∧
    ((d.rank ≠ 0 → rows ≠ 0 → d.size 0 = e.size0)) ∧ d.scalePtr = 0 ∧
    readSpans un.2 h (some (cmdId un.2 h c)) (e.spans (first * line) (rows * line)) = (u, .ok b) ∧ writeRanges u h c d.ranges = (w, .ok [])) ∧
    (∃ h : Fin 16, ∃ seq : BitVec 32, ∃ c : Cmd, ∃ e : StashEntry, ∃ s : State, Runs h seq 0x31 c s ∧ (∀ x ∈ s.stash, x.gone = false) ∧
    bit (c.fld 0x19 1) 0 = true ∧ c.fail = 0 ∧ otherGets s h c = [] ∧ findStash s c.ticket (c.fld 0x16 2) (c.fld 0x18 1) = some e) := by
  refine ⟨⟨0, 0, getCmd 0 0 2, entry0 1, zeros 8, getS (getCmd 0 0 2) [(entry0 1)], _, _, runs_of ?_, ?_, ?_, ?_, ?_, ?_, ?_, pair_of ?_, pair_of ?_⟩,
    ⟨0, 0, getCmd 0 1 1, entry0 2, zeros 4, far (getS (getCmd 0 1 1) [(entry0 2)]), _, _, runs_of ?_, ?_, ?_, ?_, ?_, ?_, ?_, pair_of ?_, pair_of ?_⟩,
    ⟨0, 0, { getCmd 0 0 2 with raw := record 64 [(0, 1, 0x31), (0x10, 4, ref 0), (0x16, 2, 5), (0x18, 1, 1), (0x19, 1, 1), (0x28, 4, 2)] }, entry0 1, getS ({ getCmd 0 0 2 with raw := record 64 [(0, 1, 0x31), (0x10, 4, ref 0), (0x16, 2, 5), (0x18, 1, 1), (0x19, 1, 1), (0x28, 4, 2)] }) [(entry0 1)], runs_of ?_, ?_, ?_, ?_, ?_, ?_⟩⟩
  all_goals decide +kernel

theorem witness_Collectives_1 :
    ∃ h : Fin 16, ∃ seq : BitVec 32, ∃ c : Cmd, ∃ s : State, ∃ u : State, ∃ w : State, s.colls = [] ∧ s.txs = [] ∧ s.symErr = [] ∧
    rd s F.STI_DLOG_ENTRIES = 0 ∧ s.collEnded = [] ∧ Runs h seq 0x38 c s ∧ s.rxs = [] ∧
    let src := (rdSrc s c).desc
    let dst := (rdDst s c).desc
    rdForm c = 1 ∧ c.fld 0x24 1 = 1 ∧ c.fld 0x25 1 = 0 ∧ c.fld 0x26 2 = 0 ∧ c.fld 0x2A 2 = 1 ∧ bit (rdFlags c) 1 = false ∧
    c.fld 0x28 2 = moduleId s ∧ src.sizes = dst.sizes ∧ src.rank = dst.rank ∧ src.sizes.length = src.rank ∧ src.count ≠ 0 ∧
    dst.scalePtr = 0 ∧ (dst.format = some .fp32 ∨ dst.format = some .bf16) ∧ dieTakes s dst.ranges = true ∧
    readTensors (unitAt s U.stitch (dst.ranges ++ src.ranges)).2 h c [src] = (u, .ok ()) ∧ writeRanges u h c dst.ranges = (w, .ok []) := by
  refine ⟨0, 0, redCmd, redS, _, _, ?_, ?_, ?_, ?_, ?_, runs_of ?_, ?_, ?_, ?_, ?_, ?_, ?_, ?_, ?_, ?_, ?_, ?_, ?_, ?_, ?_, ?_, pair_of ?_, pair_of ?_⟩
  all_goals decide +kernel

theorem witness_Collectives_2 :
    ∃ h : Fin 16, ∃ seq : BitVec 32, ∃ c : Cmd, ∃ s : State, ∃ u : State, s.colls = [] ∧ s.txs = [] ∧ s.symErr = [] ∧
    rd s F.STI_DLOG_ENTRIES = 0 ∧ s.collEnded = [] ∧
    let step := cmdStepIndex s c
    Runs h seq 0x3A c s ∧
    let r := gaRecord c
    let un := unitAt s U.stitch [(r, 768)]
    gaForm c = 0 ∧ (recPend s r ≠ 1 ∨ recSstep s r (recOther s r) ≠ step) ∧
    dieTakes s ((r, 768) :: copyRanges s r (recOther s r) ((positionIn s (recFirst s r) (recCount s r) (recStride s r)).getD 0)) = true ∧
    touchRanges un.2 (idDisp h) false (some (cmdId s h c)) [(r + 0x70, 40)] = (u, .ok ()) := by
  refine ⟨0, 0, gatCmd 0, gatS 0 0 [2, 1], _, ?_, ?_, ?_, ?_, ?_, runs_of ?_, ?_, ?_, ?_, pair_of ?_⟩
  all_goals decide +kernel

theorem witness_Collectives_3 :
    ∃ h : Fin 16, ∃ seq : BitVec 32, ∃ c : Cmd, ∃ s : State, ∃ u : State, ∃ w : State, s.colls = [] ∧ s.txs = [] ∧ s.symErr = [] ∧
    rd s F.STI_DLOG_ENTRIES = 0 ∧ s.collEnded = [] ∧
    let step := cmdStepIndex s c
    Runs h seq 0x3A c s ∧
    let r := gaRecord c
    let un := unitAt s U.stitch [(r, 768)]
    gaForm c = 0 ∧ s.rxs = [] ∧ recPend s r = 1 ∧ recSstep s r (recOther s r) = step ∧ recCount s r = 1 ∧ recStride s r ≠ 0 ∧
    recFirst s r = moduleId s ∧ recHasFwd s r = false ∧ bit (c.fld 0x19 1) 0 = false ∧
    dieTakes s ((r, 768) :: copyRanges s r (recOther s r) 0) = true ∧
    touchRanges un.2 (idDisp h) false (some (cmdId s h c)) [(r + 0x70, 40)] = (u, .ok ()) ∧
    touchRanges u (idDisp h) false (some (cmdId s h c)) (copyRanges s r (recOther s r) 0) = (w, .ok ()) := by
  refine ⟨0, 0, gatCmd 0, gatS 0 1 [2, 1], _, _, ?_, ?_, ?_, ?_, ?_, runs_of ?_, ?_, ?_, ?_, ?_, ?_, ?_, ?_, ?_, ?_, ?_, pair_of ?_, pair_of ?_⟩
  all_goals decide +kernel

theorem witness_Collectives_4 :
    ∃ h : Fin 16, ∃ seq : BitVec 32, ∃ c : Cmd, ∃ s : State, s.colls = [] ∧ s.txs = [] ∧ s.symErr = [] ∧ rd s F.STI_DLOG_ENTRIES = 0 ∧
    s.collEnded = [] ∧ Runs h seq 0x3A c s ∧
    let d := (gaRef s c).desc
    (gaForm c = 1 ∨ gaForm c = 2) ∧ s.rxs = [] ∧ d.rank = 0 ∧ bit (c.fld 0x19 1) 0 = false := by
  refine ⟨0, 0, gatCmd 1, gatS 1 0 [], ?_, ?_, ?_, ?_, ?_, runs_of ?_, ?_, ?_, ?_, ?_⟩
  all_goals decide +kernel

theorem witness_Collectives_5 :
    ∃ h : Fin 16, ∃ seq : BitVec 32, ∃ c : Cmd, ∃ s : State, s.colls = [] ∧ s.txs = [] ∧ s.symErr = [] ∧ rd s F.STI_DLOG_ENTRIES = 0 ∧
    s.collEnded = [] ∧ Runs h seq 0x3A c s ∧
    let d := (gaRef s c).desc
    (gaForm c = 1 ∨ gaForm c = 2) ∧ s.rxs = [] ∧ d.rank = 0 ∧ bit (c.fld 0x19 1) 0 = false := by
  refine ⟨0, 0, gatCmd 2, gatS 2 0 [], ?_, ?_, ?_, ?_, ?_, runs_of ?_, ?_, ?_, ?_, ?_⟩
  all_goals decide +kernel

theorem witness_Collectives_6 :
    ∃ h : Fin 16, ∃ seq : BitVec 32, ∃ c : Cmd, ∃ x : RxStream, ∃ s : State, ∃ w : State, s.colls = [] ∧ s.txs = [] ∧ s.symErr = [] ∧
    rd s F.STI_DLOG_ENTRIES = 0 ∧ s.collEnded = [] ∧
    let step := cmdStepIndex s c
    Runs h seq 0x3A c s ∧
    let d := (gaRef s c).desc
    let size := d.wireSize
    gaForm c = 2 ∧ d.rank ≠ 0 ∧ size ≠ 0 ∧ gaPeer c ≠ moduleId s ∧ s.rxs = [x] ∧ x.src = gaPeer c ∧ x.last = true ∧
    x.consumed = x.bytes.length ∧ x.desc = segDesc 4 (c.fld 0x1C 4) step 1 0 1 0 d.fmt 0 0 0 0 0 d.count size 0 ∧ x.desc.length = 64 ∧
    step < 2 ^ 32 ∧ size < 2 ^ 64 ∧ bit (c.fld 0x19 1) 0 = false ∧ dieTakes s d.ranges = true ∧
    writeRanges (unitAt s U.stitch d.ranges).2 h c d.ranges = (w, .ok []) := by
  refine ⟨0, 0, gatCmd 2, gatX, { gatS 2 0 [2, 1] with rxs := [gatX] }, _, ?_, ?_, ?_, ?_, ?_, runs_of ?_, ?_, ?_, ?_, ?_, ?_, ?_, ?_, ?_, ?_, ?_, ?_, ?_, ?_, ?_, pair_of ?_⟩
  all_goals decide +kernel

theorem witness_Updates_1 :
    ∃ h : Fin 16, ∃ seq : BitVec 32, ∃ c : Cmd, ∃ resume : Bool, ∃ s : State,
    let asks := if resume then unitLive s (U.disp h) = true ∧ findCmd s h seq.toNat = some c ∧ c.seq = seq.toNat ∧ c.opcode = 0x39 ∧ c.st = .working ∧
            c.phase % 16 ≠ 0
          else Runs h seq 0x39 c s
    let r := upRecord c
    let k := recOther s r
    let takes := dieTakes s ((r, 768) :: (recMaster s r k).ranges)
    asks ∧ r < nearEnd ∧ takes = false := by
  refine ⟨0, 0, upCmd 0, false, fst 0x12 1 (fst 0x11 1 (upS 0 1 0 0)), (by rw [if_neg (by decide)]; refine runs_of ?_; decide +kernel), ?_, ?_⟩
  all_goals decide +kernel

theorem witness_Updates_2 :
    ∃ h : Fin 16, ∃ seq : BitVec 32, ∃ c : Cmd, ∃ resume : Bool, ∃ s : State,
    let asks := if resume then unitLive s (U.disp h) = true ∧ findCmd s h seq.toNat = some c ∧ c.seq = seq.toNat ∧ c.opcode = 0x39 ∧ c.st = .working ∧
            c.phase % 16 ≠ 0
          else Runs h seq 0x39 c s
    let r := upRecord c
    let k := recOther s r
    let takes := dieTakes s ((r, 768) :: (recMaster s r k).ranges)
    asks ∧ r < nearEnd ∧ takes = false := by
  refine ⟨0, 0, upCmd 2, true, fst 0x12 1 (fst 0x11 1 (upS 2 1 0 0)), (by rw [if_pos rfl]; decide +kernel), ?_, ?_⟩
  all_goals decide +kernel

theorem witness_Updates_3 :
    ∃ h : Fin 16, ∃ seq : BitVec 32, ∃ c : Cmd, ∃ resume : Bool, ∃ s : State, ∃ u : State,
    let asks := if resume then unitLive s (U.disp h) = true ∧ findCmd s h seq.toNat = some c ∧ c.seq = seq.toNat ∧ c.opcode = 0x39 ∧ c.st = .working ∧
            c.phase % 16 ≠ 0
          else Runs h seq 0x39 c s
    let r := upRecord c
    let k := recOther s r
    let step := cmdStepIndex s c
    let me := some (cmdId s h c)
    let takes := dieTakes s ((r, 768) :: (recMaster s r k).ranges)
    let looks := r < nearEnd ∧ takes = true ∧ touchRanges s (idDisp h) false me [recState r] = (u, .ok ())
    asks ∧ s.symErr = [] ∧ looks ∧ recPend s r = 1 ∧ recSstep s r k = step := by
  refine ⟨0, 0, upCmd 0, false, upS 0 1 0 0, _, (by rw [if_neg (by decide)]; refine runs_of ?_; decide +kernel), ?_, ⟨by decide +kernel, by decide +kernel, pair_of (by decide +kernel)⟩, ?_, ?_⟩
  all_goals decide +kernel

theorem witness_Updates_4 :
    ∃ h : Fin 16, ∃ seq : BitVec 32, ∃ c : Cmd, ∃ resume : Bool, ∃ s : State, ∃ u : State,
    let asks := if resume then unitLive s (U.disp h) = true ∧ findCmd s h seq.toNat = some c ∧ c.seq = seq.toNat ∧ c.opcode = 0x39 ∧ c.st = .working ∧
            c.phase % 16 ≠ 0
          else Runs h seq 0x39 c s
    let r := upRecord c
    let k := recOther s r
    let step := cmdStepIndex s c
    let me := some (cmdId s h c)
    let takes := dieTakes s ((r, 768) :: (recMaster s r k).ranges)
    let looks := r < nearEnd ∧ takes = true ∧ touchRanges s (idDisp h) false me [recState r] = (u, .ok ())
    asks ∧ s.symErr = [] ∧ looks ∧ recPend s r = 1 ∧ recSstep s r k ≠ step := by
  refine ⟨0, 0, upCmd 0, false, upS 0 1 5 0, _, (by rw [if_neg (by decide)]; refine runs_of ?_; decide +kernel), ?_, ⟨by decide +kernel, by decide +kernel, pair_of (by decide +kernel)⟩, ?_, ?_⟩
  all_goals decide +kernel

theorem witness_Updates_5 :
    ∃ h : Fin 16, ∃ seq : BitVec 32, ∃ c : Cmd, ∃ resume : Bool, ∃ s : State, ∃ u : State,
    let asks := if resume then unitLive s (U.disp h) = true ∧ findCmd s h seq.toNat = some c ∧ c.seq = seq.toNat ∧ c.opcode = 0x39 ∧ c.st = .working ∧
            c.phase % 16 ≠ 0
          else Runs h seq 0x39 c s
    let r := upRecord c
    let k := recOther s r
    let me := some (cmdId s h c)
    let takes := dieTakes s ((r, 768) :: (recMaster s r k).ranges)
    let looks := r < nearEnd ∧ takes = true ∧ touchRanges s (idDisp h) false me [recState r] = (u, .ok ())
    asks ∧ s.symErr = [] ∧ looks ∧ recPend s r ≠ 1 ∧ recHold s r k ≠ 0 := by
  refine ⟨0, 0, upCmd 0, false, upS 0 0 0 1, _, (by rw [if_neg (by decide)]; refine runs_of ?_; decide +kernel), ?_, ⟨by decide +kernel, by decide +kernel, pair_of (by decide +kernel)⟩, ?_, ?_⟩
  all_goals decide +kernel

theorem witness_Updates_6 :
    ∃ h : Fin 16, ∃ seq : BitVec 32, ∃ c : Cmd, ∃ b : Bytes, ∃ resume : Bool, ∃ s : State, ∃ u : State, ∃ v : State, ∃ w : State,
    let asks := if resume then unitLive s (U.disp h) = true ∧ findCmd s h seq.toNat = some c ∧ c.seq = seq.toNat ∧ c.opcode = 0x39 ∧ c.st = .working ∧
            c.phase % 16 ≠ 0
          else Runs h seq 0x39 c s
    let r := upRecord c
    let l := recLive s r
    let k := recOther s r
    let me := some (cmdId s h c)
    let takes := dieTakes s ((r, 768) :: (recMaster s r k).ranges)
    let looks := r < nearEnd ∧ takes = true ∧ touchRanges s (idDisp h) false me [recState r] = (u, .ok ())
    ∃ y, ∃ z,
    let near : List (Nat × Nat) := (r, 768) :: (recPtr s r 0x58, 64) :: [0x00, 0x08, 0x10, 0x18, 0x30, 0x38, 0x50].map (fun o => (recPtr s r o, 128)) ++
          [recMaster s r 0, recMaster s r 1, recM1 s r 0, recM1 s r 1, recWork s r 0, recWork s r 1, recGshard s r].flatMap Desc.ranges
    let outs := [recMaster s r k, recM1 s r k]
    let pos := (positionIn s (recFirst s r) (recCount s r) (recStride s r)).getD 0
    asks ∧ Inv s ∧ looks ∧ recPend s r ≠ 1 ∧ recHold s r k = 0 ∧ paramBad s r = false ∧ s.symErr = [] ∧ recPtr s r 0x20 = 0 ∧
    recHasFwd s r = false ∧ (near.Pairwise (fun x y => x.1 + x.2 ≤ y.1 ∨ y.1 + y.2 ≤ x.1)) ∧ (∀ x ∈ near, x.1 + x.2 ≤ nearEnd) ∧
    (recMaster s r k).indices = [[0, 0]] ∧ (recM1 s r l).format = some .fp32 ∧ (∀ d ∈ outs ++ [recWork s r k], d.scalePtr = 0) ∧
    memRead u (idDisp h) (recPtr s r 0x58) 64 me = (v, .ok b) ∧ optBad b false 0x12 = false ∧
    readTensors v h c [recGshard s r, recMaster s r l, recM1 s r l] = (w, .ok ()) ∧
    touchRanges w (idDisp h) true me ((outs ++ [recWork s r k]).flatMap fun d => recRanges d true) = (y, .ok ()) ∧
    writeRanges y h c (recState r :: outs.flatMap Desc.ranges ++ shardRanges s r (recWork s r k) (bit (recLayout s r) 0) pos) = (z, .ok []) := by
  refine ⟨0, 0, upCmd 0, peekBytes (upS 0 0 0 0) 0x61380 64, false, upS 0 0 0 0, _, _, _, _, _, (by rw [if_neg (by decide)]; refine runs_of ?_; decide +kernel), inv_of ?_, ⟨by decide +kernel, by decide +kernel, pair_of (by decide +kernel)⟩, ?_, ?_, ?_, ?_, ?_, ?_, ?_, ?_, ?_, ?_, ?_, pair_of ?_, ?_, pair_of ?_, pair_of ?_, pair_of ?_⟩
  all_goals decide +kernel

theorem witness_Updates_7 :
    ∃ o : OptRec, o.kind = 3 ∧ o.nesterov = false := by
  refine ⟨OptRec.parse (record 64 [(0, 1, 3)]), ?_, ?_⟩
  all_goals decide +kernel

theorem witness_CodecAndIngest_1 :
    (∃ h : Fin 16, ∃ seq : BitVec 32, ∃ c : Cmd, ∃ encode : Bool, ∃ s : State, ∃ u : State,
    let empty := if encode then (c.opnd s 0x10 (c.fld 0x14 2) true).desc.size 3 = 0
          else c.fld 0x30 4 = 0 ∨ (StreamRec.parse (peekBytes s (c.fld 0x10 8) 64)).bsLen = 0
    let record := if encode then c.fld 0x30 8 else c.fld 0x38 8
    Runs h seq (if encode then 0x42 else 0x40) c s ∧ empty ∧ memWrite s (idDisp h) record (zeros 64) (some (cmdId s h c)) = (u, .ok ())) ∧
    (∃ h : Fin 16, ∃ seq : BitVec 32, ∃ c : Cmd, ∃ encode : Bool, ∃ s : State,
    let empty := if encode then (c.opnd s 0x10 (c.fld 0x14 2) true).desc.size 3 = 0
          else c.fld 0x30 4 = 0 ∨ (StreamRec.parse (peekBytes s (c.fld 0x10 8) 64)).bsLen = 0
    Runs h seq (if encode then 0x42 else 0x40) c s ∧ ¬ empty) ∧
    (∃ h : Fin 16, ∃ seq : BitVec 32, ∃ s : State, s.codQueue.head? ≠ some (h.val, seq.toNat)) ∧
    (∃ h : Fin 16, ∃ seq : BitVec 32, ∃ c : Cmd, ∃ encode : Bool, ∃ lane : Nat, ∃ rest : List (Nat × Nat), ∃ s : State,
    let pool := codPool s c
    let used := s.codLanes.any fun p => overlaps p.2.pool p.2.size pool.1 pool.2
    isRun s = true ∧ fnState s 0x10 = fnRUN ∧ s.codQueue = (h.val, seq.toNat) :: rest ∧ findCmd s h seq.toNat = some c ∧ c.seq = seq.toNat ∧
    c.opcode = (if encode then 0x42 else 0x40) ∧
    (idleLane s = none ∨ (idleLane s = some lane ∧ unitHalted s (U.lane lane) = false ∧ used = true))) := by
  refine ⟨⟨0, 0, decCmd 0, false, decS 0 0 [], _, runs_of ?_, ?_, pair_of ?_⟩,
    ⟨0, 0, decCmd 0, false, decS 0 4 [], runs_of ?_, ?_⟩,
    ⟨0, 0, decS 1 4 [], ?_⟩,
    ⟨0, 0, decCmd 1, false, 0, [], codOn 0 (decS 1 4 [(0, 0)]), ?_, ?_, ?_, ?_, ?_, ?_, ?_⟩⟩
  all_goals decide +kernel

theorem witness_CodecAndIngest_2 :
    (∃ h : Fin 16, ∃ seq : BitVec 32, ∃ c : Cmd, ∃ encode : Bool, ∃ lane : Nat, ∃ rest : List (Nat × Nat), ∃ s : State,
    let pool := codPool s c
    let used := s.codLanes.any fun p => overlaps p.2.pool p.2.size pool.1 pool.2
    let units := 12 + if encode = false ∧ c.fld 0x18 8 ≠ 0 ∧ s.codIngest = [] then 16 else 0
    isRun s = true ∧ fnState s 0x10 = fnRUN ∧ s.codQueue = (h.val, seq.toNat) :: rest ∧ findCmd s h seq.toNat = some c ∧ c.seq = seq.toNat ∧
    c.opcode = (if encode then 0x42 else 0x40) ∧ idleLane s = some lane ∧ unitHalted s (U.lane lane) = false ∧ used = false ∧
    codecFree s < units) ∧
    (∃ h : Fin 16, ∃ seq : BitVec 32, ∃ c : Cmd, ∃ encode : Bool, ∃ lane : Nat, ∃ rest : List (Nat × Nat), ∃ s : State,
    let pool := codPool s c
    let used := s.codLanes.any fun p => overlaps p.2.pool p.2.size pool.1 pool.2
    let units := 12 + if encode = false ∧ c.fld 0x18 8 ≠ 0 ∧ s.codIngest = [] then 16 else 0
    isRun s = true ∧ fnState s 0x10 = fnRUN ∧ s.codQueue = (h.val, seq.toNat) :: rest ∧ findCmd s h seq.toNat = some c ∧ c.seq = seq.toNat ∧
    c.opcode = (if encode then 0x42 else 0x40) ∧ idleLane s = some lane ∧ unitHalted s (U.lane lane) = false ∧ used = false ∧
    units ≤ codecFree s) ∧
    (∃ h : Fin 16, ∃ seq : BitVec 32, ∃ c : Cmd, ∃ b : Bytes, ∃ s : State, ∃ u : State,
    let sr := StreamRec.parse (peekBytes s (c.fld 0x10 8) 64)
    let n := c.fld 0x2C 4
    let kept (i : Nat) : Option KeptPic := s.codKept.find? fun k => k.pool == sr.pool && k.slot == field b (2 * i) 2
    Runs h seq 0x41 c s ∧ s.symErr = [] ∧ fnState s 0x10 = fnRUN ∧
    memRead s (idDisp h) (c.fld 0x30 8) (2 * n) (some (cmdId s h c)) = (u, .ok b) ∧ ((∃ i, i < n ∧ kept i = none))) := by
  refine ⟨⟨0, 0, decCmd 1, false, 0, [], regs [(F.COD_CFG_LANES, 255), (F.DMP_RAILS_COD_W, 9), (F.DMP_RAIL_GRANT_COD, 8)] (decS 1 4 [(0, 0)]), ?_, ?_, ?_, ?_, ?_, ?_, ?_, ?_, ?_, ?_⟩,
    ⟨0, 0, decCmd 1, false, 0, [], codOn 255 (decS 1 4 [(0, 0)]), ?_, ?_, ?_, ?_, ?_, ?_, ?_, ?_, ?_, ?_⟩,
    ⟨0, 0, ingCmd 1 0, bf [1], ingS 1 0 1 [] [], _, runs_of ?_, ?_, ?_, pair_of ?_, ?_⟩⟩
  all_goals decide +kernel

theorem witness_CodecAndIngest_3 :
    (∃ h : Fin 16, ∃ seq : BitVec 32, ∃ c : Cmd, ∃ b : Bytes, ∃ s : State, ∃ u : State,
    let sr := StreamRec.parse (peekBytes s (c.fld 0x10 8) 64)
    let r := IngestRec.parse (peekBytes s (c.fld 0x18 8) 64)
    let n := c.fld 0x2C 4
    let kept (i : Nat) : Option KeptPic := s.codKept.find? fun k => k.pool == sr.pool && k.slot == field b (2 * i) 2
    let none_ := r.produced n = 0 ∨ r.cropW = 0 ∨ r.cropH = 0
    let good := ∀ i, i < n → ∃ k, kept i = some k ∧ ingestPicBad r k.std k.query = false ∧ k.slot < sr.slots
    Runs h seq 0x41 c s ∧ s.symErr = [] ∧ fnState s 0x10 = fnRUN ∧
    memRead s (idDisp h) (c.fld 0x30 8) (2 * n) (some (cmdId s h c)) = (u, .ok b) ∧ good ∧ none_) ∧
    (∃ h : Fin 16, ∃ seq : BitVec 32, ∃ c : Cmd, ∃ run : IngestRun, ∃ s : State, ∃ u : State,
    let r := IngestRec.parse (peekBytes s (c.fld 0x18 8) 64)
    let d := (cdDst s c).desc
    let g := run.group
    let r := IngestRec.parse run.record
    let last := g + 1 = ingestGroups r c
    let ranges := groupRanges d 3 g ++ groupRanges (cdMask s c).desc 2 g ++ (if last ∧ 0x20 ≤ d.fmt ∧ d.layout = 1 then [(d.expBase, d.planeBytes)] else [])
    unitLive s U.ingest = true ∧ fnState s 0x10 = fnRUN ∧ nextIngest s = some run ∧ findCmd s h seq.toNat = some c ∧ c.seq = seq.toNat ∧
    run.hearth = h.val ∧ run.seq = seq.toNat ∧ c.st = .working ∧ c.opcode = 0x41 ∧ s.symErr = [] ∧ d.scalePtr = 0 ∧
    (cdMask s c).desc.format = none ∧ s.codIngest = [run] ∧ touchRanges s (idDisp h) true (some (cmdId s h c)) ranges = (u, .ok ())) ∧
    (∃ h : Fin 16, ∃ seq : BitVec 32, ∃ s : State, ((∀ x, nextIngest s = some x → x.hearth ≠ h.val ∨ x.seq ≠ seq.toNat))) := by
  refine ⟨⟨0, 0, ingCmd 0 0, [], ingS 0 0 1 [] [], _, runs_of ?_, ?_, ?_, pair_of ?_, ?_, ?_⟩,
    ⟨0, 0, ingCmd 1 1, run0, ingS 1 1 1 [kept0] [run0], _, ?_, ?_, ?_, ?_, ?_, ?_, ?_, ?_, ?_, ?_, ?_, ?_, ?_, pair_of ?_⟩,
    ⟨0, 0, ingS 1 1 1 [kept0] [], ?_⟩⟩
  all_goals decide +kernel

/-- A good picture is held, if the device reports its size as large enough (log entry 6). -/
theorem witness_CodecAndIngest_kept (hp : ingestPicBad (IngestRec.parse (peekBytes ingGood 0x60100 64)) 1 [] = false) :
    ∃ b u, Runs 0 0 0x41 (ingCmd 1 0) ingGood ∧ ingGood.symErr = [] ∧ fnState ingGood 0x10 = fnRUN ∧
      memRead ingGood (idDisp 0) ((ingCmd 1 0).fld 0x30 8) (2 * 1) (some (cmdId ingGood 0 (ingCmd 1 0))) = (u, .ok b) ∧
      (∀ i, i < 1 → ∃ k, (ingGood.codKept.find? fun k => k.pool == (StreamRec.parse (peekBytes ingGood 0x60000 64)).pool && k.slot == field b (2 * i) 2) = some k ∧
        ingestPicBad (IngestRec.parse (peekBytes ingGood 0x60100 64)) k.std k.query = false ∧ k.slot < (StreamRec.parse (peekBytes ingGood 0x60000 64)).slots) ∧
      (let r := IngestRec.parse (peekBytes ingGood 0x60100 64); ¬(r.produced 1 = 0 ∨ r.cropW = 0 ∨ r.cropH = 0)) ∧ ingGood.codIngest ≠ [] :=
  by
  refine ⟨bf [1], _, runs_of (by decide +kernel), by decide +kernel, by decide +kernel, pair_of (by decide +kernel), ?_, by decide +kernel, by decide +kernel⟩
  intro i hi
  obtain rfl : i = 0 := by omega
  exact ⟨kept0, by decide +kernel, hp, by decide +kernel⟩

theorem witness_CheckpointsAndDrains_1 :
    (∃ h : Fin 16, ∃ seq : BitVec 32, ∃ c : Cmd, ∃ s : State, Runs h seq 0x48 c s ∧ unitHalted s (U.sup 1) = false ∧ s.staged.isSome = true ∧
    bit (c.fld 0x11 1) 0 = true) ∧
    (∃ h : Fin 16, ∃ seq : BitVec 32, ∃ c : Cmd, ∃ s : State, Runs h seq 0x48 c s ∧ unitHalted s (U.sup 1) = false ∧ s.staged.isSome = true ∧
    bit (c.fld 0x11 1) 0 = false) ∧
    (∃ h : Fin 16, ∃ seq : BitVec 32, ∃ c : Cmd, ∃ s : State, ∃ u : State, ∃ w : State, Runs h seq 0x48 c s ∧
    unitHalted s (U.sup 1) = false ∧
    let op := c.fld 0x10 1
    let base := rd s F.MGT_CKPT_STAGE_BASE_64K * 65536
    let img := buildImage u (if op = 2 then 4 else 3) (rd s F.DEV_COMMIT_GEN_GEN) s.commitStep
    Inv s ∧ s.staged = none ∧ (op = 1 ∨ op = 2) ∧ s.symErr = [] ∧
    touchRanges s idSup false (some (cmdId s h c)) (imageRanges s) = (u, .ok ()) ∧
    (∀ r ∈ pdirRecords u, recHold u r (recLive u r) < 65535) ∧ img.length ≤ rd s F.MGT_CKPT_STAGE_SIZE_64K * 65536 ∧
    ((op = 2 → img.length ≤ c.fld 0x20 8)) ∧ touchRanges u idSup true (some (cmdId u h c)) [(base, img.length)] = (w, .ok ())) ∧
    (∃ x : Staged, ∃ img : Bytes, ∃ s : State, ∃ v : State, s.symErr = [] ∧
    let reads := memRead s idSup (rd s F.MGT_CKPT_STAGE_BASE_64K * 65536) x.size none = (v, .ok img)
    let live := unitLive s U.flash = true ∧ fnState s 0x14 < fnSTOPPED
    live ∧ s.staged = some x ∧ x.op = 1 ∧ x.p = none ∧ x.q = none ∧ s.lostFlash = false ∧ 256 + x.size ≤ slotLen s ∧ reads) ∧
    (∃ x : Staged, ∃ s : State, s.symErr = [] ∧
    let live := unitLive s U.flash = true ∧ fnState s 0x14 < fnSTOPPED
    live ∧ s.staged = some x ∧ x.op = 1 ∧ s.lostFlash = true) := by
  refine ⟨⟨0, 0, ckCmd 1 1, { ckS (alone (window (ckCmd 1 1) busy)) with staged := some (staged0 1 20) }, runs_of ?_, ?_, ?_, ?_⟩,
    ⟨0, 0, ckCmd 1 0, { ckS (alone (window (ckCmd 1 0) busy)) with staged := some (staged0 1 20) }, runs_of ?_, ?_, ?_, ?_⟩,
    ⟨0, 0, ckCmd 2 0, ckS (alone (window (ckCmd 2 0) busy)), _, _, runs_of ?_, ?_, inv_of ?_, ?_, ?_, ?_, pair_of ?_, ?_, ?_, ?_, pair_of ?_⟩,
    ⟨staged0 1 300, zeros 300, drainS 1 300 2, _, ?_, ?_, ?_, ?_, ?_, ?_, ?_, ?_, pair_of ?_⟩,
    ⟨staged0 1 300, { drainS 1 300 2 with lostFlash := true }, ?_, ?_, ?_, ?_, ?_⟩⟩
  all_goals decide +kernel

theorem witness_CheckpointsAndDrains_2 :
    (∃ x : Staged, ∃ s : State, s.symErr = [] ∧
    let live := unitLive s U.flash = true ∧ fnState s 0x14 < fnSTOPPED
    live ∧ s.staged = some x ∧ x.op = 1 ∧ x.p = none ∧ x.q = none ∧ s.lostFlash = false ∧ slotLen s < 256 + x.size) ∧
    (∃ x : Staged, ∃ s : State, s.symErr = [] ∧ (s.staged = none ∨ (s.staged = some x ∧ x.op = 2))) ∧
    (∃ x : Staged, ∃ s : State, s.symErr = [] ∧ (s.staged = none ∨ (s.staged = some x ∧ x.op ≠ 2))) ∧
    (∃ x : Staged, ∃ img : Bytes, ∃ s : State, ∃ u : State, ∃ v : State, ∃ w : State, s.symErr = [] ∧
    let reads := memRead s idSup (rd s F.MGT_CKPT_STAGE_BASE_64K * 65536) x.size none = (v, .ok img)
    unitLive s (U.sup 1) = true ∧ s.staged = some x ∧ x.op = 2 ∧ reads ∧
    memWrite v idSup x.dst (img.take 0xFF ++ [0] ++ img.drop 256) none = (u, .ok ()) ∧
    memWrite u idSup (x.dst + 0xFF) [1] none = (w, .ok ())) := by
  refine ⟨⟨staged0 1 0x40000000000, drainS 1 0x40000000000 2, ?_, ?_, ?_, ?_, ?_, ?_, ?_, ?_⟩,
    ⟨staged0 2 300, drainS 2 300 2, ?_, ?_⟩,
    ⟨staged0 1 300, drainS 1 300 2, ?_, ?_⟩,
    ⟨staged0 2 257, zeros 257, host (drainS 2 257 2), _, _, _, ?_, ?_, ?_, ?_, pair_of ?_, pair_of ?_, pair_of ?_⟩⟩
  all_goals decide +kernel

theorem witness_Restores_1 :
    ∃ src : Src, ∃ v : BitVec 64, ∃ n : Nat, ∃ bad : Bool, ∃ i : Instr, ∃ s : State,
    i ∈ [Instr.restore src v n bad, .rollback src v, .fill src v, .serve src v n bad] ∧ served s src = true ∧ isLead s src = false := by
  refine ⟨.host 1, resArg 0, 0, false, .restore (.host 1) (resArg 0) 0 false, resBase, ?_, ?_, ?_⟩
  all_goals decide +kernel

theorem witness_Restores_2 :
    ∃ src : Src, ∃ v : BitVec 64, ∃ n : Nat, ∃ bad : Bool, ∃ i : Instr, ∃ s : State,
    i ∈ [Instr.restore src v n bad, .rollback src v, .fill src v, .serve src v n bad] ∧ served s src = true ∧ isLead s src = true ∧
    stopActive s = true := by
  refine ⟨.host 0, resArg 0, 0, false, .restore (.host 0) (resArg 0) 0 false, stopping resBase, ?_, ?_, ?_, ?_⟩
  all_goals decide +kernel

theorem witness_Restores_3 :
    ∃ src : Src, ∃ v : BitVec 64, ∃ n : Nat, ∃ bad : Bool, ∃ i : Instr, ∃ s : State,
    i ∈ [Instr.restore src v n bad, .rollback src v, .fill src v, .serve src v n bad] ∧ served s src = true ∧ isLead s src = true ∧
    stopActive s = false ∧ isRun s = true ∧ restoreRefused s = true ∧ rd s F.MGT_RESTORE_STATE_RESULT ≠ 1 := by
  refine ⟨.host 0, resArg 0, 0, false, .restore (.host 0) (resArg 0) 0 false, on, ?_, ?_, ?_, ?_, ?_, ?_, ?_⟩
  all_goals decide +kernel

theorem witness_Restores_4 :
    ∃ src : Src, ∃ v : BitVec 64, ∃ n : Nat, ∃ bad : Bool, ∃ i : Instr, ∃ s : State,
    i ∈ [Instr.restore src v n bad, .rollback src v, .fill src v, .serve src v n bad] ∧ served s src = true ∧
    let taken := isLead s src = true ∧ stopActive s = false ∧ isRun s = true ∧ restoreRefused s = false
    taken ∧ i = .restore src v n bad ∧ rsSource v = 0 ∧ halfComplete s (returnRegion s) = false := by
  refine ⟨.host 0, resArg 0, 0, false, .restore (.host 0) (resArg 0) 0 false, resBase, ?_, ?_, ?_, ?_, ?_, ?_⟩
  all_goals decide +kernel

theorem witness_Restores_5 :
    ∃ src : Src, ∃ v : BitVec 64, ∃ n : Nat, ∃ bad : Bool, ∃ i : Instr, ∃ s : State,
    i ∈ [Instr.restore src v n bad, .rollback src v, .fill src v, .serve src v n bad] ∧ served s src = true ∧
    let taken := isLead s src = true ∧ stopActive s = false ∧ isRun s = true ∧ restoreRefused s = false
    taken ∧ i = .restore src v 0 false ∧ rsSource v = 1 ∧ s.lostFlash = false ∧ rsSlot v < slotCount s ∧ slotWhole s (rsSlot v) = true := by
  refine ⟨.host 0, resArg 1, 0, false, .restore (.host 0) (resArg 1) 0 false, slotImg resBase, ?_, ?_, ?_, ?_, ?_, ?_, ?_, ?_⟩
  all_goals decide +kernel

theorem witness_Restores_6 :
    ∃ src : Src, ∃ v : BitVec 64, ∃ n : Nat, ∃ bad : Bool, ∃ i : Instr, ∃ s : State,
    i ∈ [Instr.restore src v n bad, .rollback src v, .fill src v, .serve src v n bad] ∧ served s src = true ∧
    let taken := isLead s src = true ∧ stopActive s = false ∧ isRun s = true ∧ restoreRefused s = false
    taken ∧ i = .restore src v 0 false ∧ rsSource v = 1 ∧ s.lostFlash = false ∧ rsSlot v < slotCount s ∧ slotWhole s (rsSlot v) = true ∧
    let b := ckBytes s (slotBase s (rsSlot v) + 256) (slotFld s (rsSlot v) 0x20 8)
    let w := wr (wr s F.MGT_RESTORE_STATE_RESULT 1) F.MGT_RESTORE_STATE_CODE 0
    imageFits w b = false := by
  refine ⟨.host 0, resArg 1, 0, false, .restore (.host 0) (resArg 1) 0 false, oneRec (slotImg resBase), ?_, ?_, ?_, ?_, ?_, ?_, ?_, ?_, ?_⟩
  all_goals decide +kernel

theorem witness_Restores_7 :
    ∃ src : Src, ∃ v : BitVec 64, ∃ n : Nat, ∃ bad : Bool, ∃ i : Instr, ∃ s : State,
    i ∈ [Instr.restore src v n bad, .rollback src v, .fill src v, .serve src v n bad] ∧ served s src = true ∧
    let taken := isLead s src = true ∧ stopActive s = false ∧ isRun s = true ∧ restoreRefused s = false
    taken ∧ i = .restore src v 0 false ∧ rsSource v = 1 ∧ s.lostFlash = false ∧ rsSlot v < slotCount s ∧ slotWhole s (rsSlot v) = true ∧
    let b := ckBytes s (slotBase s (rsSlot v) + 256) (slotFld s (rsSlot v) 0x20 8)
    let w := wr (wr s F.MGT_RESTORE_STATE_RESULT 1) F.MGT_RESTORE_STATE_CODE 0
    imageFits w b = true ∧ (touchRanges w idSup true none (restoreRanges w)).2 = .ok () ∧ rd s F.MGT_RLOG_SIZE_LOG2 = 0 ∧ imgGen b < 2 ^ 32 := by
  refine ⟨.host 0, resArg 1, 0, false, .restore (.host 0) (resArg 1) 0 false, slotImg resBase, ?_, ?_, ?_, ?_, ?_, ?_, ?_, ?_, ?_, ?_, ?_, ?_⟩
  all_goals decide +kernel

theorem witness_Restores_8 :
    ∃ src : Src, ∃ v : BitVec 64, ∃ n : Nat, ∃ bad : Bool, ∃ i : Instr, ∃ s : State,
    i ∈ [Instr.restore src v n bad, .rollback src v, .fill src v, .serve src v n bad] ∧ served s src = true ∧
    let taken := isLead s src = true ∧ stopActive s = false ∧ isRun s = true ∧ restoreRefused s = false
    taken ∧ i = .rollback src v ∧ s.undoGen = none := by
  refine ⟨.host 0, resArg 0, 0, false, .rollback (.host 0) (resArg 0), resBase, ?_, ?_, ?_, ?_, ?_⟩
  all_goals decide +kernel

theorem witness_Restores_9 :
    ∃ src : Src, ∃ v : BitVec 64, ∃ n : Nat, ∃ bad : Bool, ∃ i : Instr, ∃ s : State,
    i ∈ [Instr.restore src v n bad, .rollback src v, .fill src v, .serve src v n bad] ∧ served s src = true ∧
    let gen := rd s F.DEV_COMMIT_GEN_GEN
    let taken := isLead s src = true ∧ stopActive s = false ∧ isRun s = true ∧ restoreRefused s = false
    ∃ r, ∃ before, Inv s ∧ s.symErr = [] ∧
    (touchRanges (wr (wr s F.MGT_RESTORE_STATE_RESULT 1) F.MGT_RESTORE_STATE_CODE 0) idSup true none [(r + 0x70, 40)]).2 = .ok () ∧ taken ∧
    i = .rollback src v ∧ s.undoGen = some (gen, before) ∧ s.rolledBack = false ∧ pdirRecords s = [r] ∧ recPend s r ≠ 1 ∧
    recSstep s r (recLive s r) = s.commitStep ∧ extraList s = [] ∧ rd s F.MGT_RLOG_SIZE_LOG2 = 0 := by
  refine ⟨.host 0, resArg 0, 0, false, .rollback (.host 0) (resArg 0), { oneRec resBase with undoGen := some (0, 41) }, ?_, ?_, 0x60000, 41, inv_of ?_, ?_, ?_, ?_, ?_, ?_, ?_, ?_, ?_, ?_, ?_, ?_⟩
  all_goals decide +kernel

theorem witness_Restores_10 :
    ∃ src : Src, ∃ v : BitVec 64, ∃ n : Nat, ∃ bad : Bool, ∃ i : Instr, ∃ s : State,
    i ∈ [Instr.restore src v n bad, .rollback src v, .fill src v, .serve src v n bad] ∧ served s src = true ∧
    let taken := isLead s src = true ∧ stopActive s = false ∧ isRun s = true ∧ restoreRefused s = false
    taken ∧ i = .fill src v ∧ s.colls = [] ∧ s.rxs = [] ∧ s.txs = [] ∧ pdirRecords s = [] := by
  refine ⟨.host 0, resArg 0, 0, false, .fill (.host 0) (resArg 0), resBase, ?_, ?_, ?_, ?_, ?_, ?_, ?_, ?_⟩
  all_goals decide +kernel

theorem witness_Restores_11 :
    ∃ src : Src, ∃ v : BitVec 64, ∃ n : Nat, ∃ bad : Bool, ∃ i : Instr, ∃ s : State,
    i ∈ [Instr.restore src v n bad, .rollback src v, .fill src v, .serve src v n bad] ∧ served s src = true ∧
    let taken := isLead s src = true ∧ stopActive s = false ∧ isRun s = true ∧ restoreRefused s = false
    taken ∧ i = .serve src v n bad ∧ ((∀ k, k < slotCount s → slotWhole s k = false)) := by
  refine ⟨.host 0, resArg 0, 0, false, .serve (.host 0) (resArg 0) 0 false, resBase, ?_, ?_, ?_, ?_, ?_⟩
  all_goals decide +kernel

theorem witness_Restores_12 :
    ∃ src : Src, ∃ v : BitVec 64, ∃ n : Nat, ∃ bad : Bool, ∃ i : Instr, ∃ s : State,
    i ∈ [Instr.restore src v n bad, .rollback src v, .fill src v, .serve src v n bad] ∧ served s src = true ∧
    let taken := isLead s src = true ∧ stopActive s = false ∧ isRun s = true ∧ restoreRefused s = false
    ∃ k, ∃ p, ∃ q, taken ∧ i = .serve src v 0 false ∧ s.colls = [] ∧ s.rxs = [] ∧ s.txs = [] ∧ s.lostFlash = false ∧ pgSize s = 2 ∧
    pgPos s = some p ∧ pgPosOf s (rsPeer v) = some q ∧ k < slotCount s ∧ slotWhole s k = true ∧
    slotFld s k 8 4 = rd s F.MGT_RESTORE_ARG_ARG % 2 ^ 32 ∧ slotFld s k 0x14 1 = 1 := by
  refine ⟨.host 0, resArg 0, 0, false, .serve (.host 0) (resArg 0) 0 false, regs [(F.MGT_CKPT_PARITY_G, 2), (F.MGT_CKPT_PARITY_STRIDE, 1), (F.DEV_IDENT_GROUP_SIZE, 2), (F.MGT_RESTORE_ARG_ARG, 78)] (ckWrite (slotImg resBase) 0x14 [1]), ?_, ?_, 0, (pgPos (regs [(F.MGT_CKPT_PARITY_G, 2), (F.MGT_CKPT_PARITY_STRIDE, 1), (F.DEV_IDENT_GROUP_SIZE, 2), (F.MGT_RESTORE_ARG_ARG, 78)] (ckWrite (slotImg resBase) 0x14 [1]))).getD 0, (pgPosOf (regs [(F.MGT_CKPT_PARITY_G, 2), (F.MGT_CKPT_PARITY_STRIDE, 1), (F.DEV_IDENT_GROUP_SIZE, 2), (F.MGT_RESTORE_ARG_ARG, 78)] (ckWrite (slotImg resBase) 0x14 [1])) (rsPeer (resArg 0))).getD 0, ?_, ?_, ?_, ?_, ?_, ?_, ?_, ?_, ?_, ?_, ?_, ?_, ?_⟩
  all_goals decide +kernel

theorem witness_LinkFrames_1 :
    (∃ l : Fin 13, ∃ f : Frame, ∃ s : State, linkUp s l = true ∧ accepts s l f = true) ∧
    (∃ l : Fin 13, ∃ f : Frame, ∃ s : State, linkUp s l = true ∧ accepts s l f = true) ∧
    (∃ l : Fin 13, ∃ f : Frame, ∃ s : State, linkUp s l = true ∧
    let x := getLink s l
    accepts s l f = false ∧ f.fecOk = true ∧ x.nakSent = true) ∧
    (∃ l : Fin 13, ∃ f : Frame, ∃ s : State, linkUp s l = true ∧
    let x := getLink s l
    accepts s l f = false ∧ f.fecOk = true ∧ x.nakSent = false) ∧
    (∃ l : Fin 13, ∃ f : Frame, ∃ pre : List (Nat × Pkt), ∃ post : List (Nat × Pkt), ∃ r : Nat × Pkt, ∃ s : State, linkUp s l = true ∧
    let x := getLink s l
    let type := (Pkt.parse f.hdr f.payload).type
    let q := hdrLseq f.hdr
    accepts s l f = true ∧ type = tACK ∧ x.queue = [] ∧ l.val ≠ 12 ∧ x.replay = pre ++ r :: post ∧ r.1 = q ∧ (∀ p ∈ pre, p.1 ≠ q)) ∧
    (∃ l : Fin 13, ∃ f : Frame, ∃ pre : List (Nat × Pkt), ∃ post : List (Nat × Pkt), ∃ r : Nat × Pkt, ∃ s : State, linkUp s l = true ∧
    let x := getLink s l
    let type := (Pkt.parse f.hdr f.payload).type
    let q := hdrLseq f.hdr
    accepts s l f = true ∧ type = tNAK ∧ x.replay = pre ++ r :: post ∧ r.1 = q ∧ (∀ p ∈ pre, p.1 ≠ q)) ∧
    (∃ l : Fin 13, ∃ f : Frame, ∃ s : State, linkUp s l = true ∧
    let x := getLink s l
    let type := (Pkt.parse f.hdr f.payload).type
    accepts s l f = true ∧ type = tLCREDIT ∧ x.queue = [] ∧ l.val ≠ 12) ∧
    (∃ l : Fin 13, ∃ f : Frame, ∃ s : State, linkUp s l = true ∧ accepts s l f = false ∧ ∃ i, i ∈ [Instr.ack l f, .nak l f, .lcredit l f]) := by
  refine ⟨⟨0, frame tACK 7 false [], linkS 0 lkUP { LinkSt.blank with rxNext := 5, nakSent := true }, ?_, ?_⟩,
    ⟨12, frame tNAK 5 false [], linkS 12 lkDEGRADED { LinkSt.blank with rxNext := 5 }, ?_, ?_⟩,
    ⟨0, { frame tDATA 5 false [] with crcOk := false }, linkS 0 lkUP { LinkSt.blank with rxNext := 5, nakSent := true }, ?_, ?_, ?_, ?_⟩,
    ⟨0, { frame tACK 5 false [] with crcOk := false }, linkS 0 lkUP { LinkSt.blank with rxNext := 5 }, ?_, ?_, ?_, ?_⟩,
    ⟨0, frame tACK 6 false (zeros 64), [(5, pkt 1)], [(7, pkt 3)], (6, pkt 2), linkS 0 lkUP { LinkSt.blank with rxNext := 5, replay := replay0 }, ?_, ?_, ?_, ?_, ?_, ?_, ?_, ?_⟩,
    ⟨0, frame tNAK 5 false (zeros 64), [], [(6, pkt 2), (7, pkt 3)], (5, pkt 1), linkS 0 lkUP { LinkSt.blank with rxNext := 5, replay := replay0 }, ?_, ?_, ?_, ?_, ?_, ?_⟩,
    ⟨0, frame tLCREDIT 5 false (zeros 64), linkS 0 lkUP { LinkSt.blank with rxNext := 5 }, ?_, ?_, ?_, ?_, ?_⟩,
    ⟨0, { frame tACK 5 false [] with crcOk := false }, linkS 0 lkUP { LinkSt.blank with rxNext := 5 }, ?_, ?_, .ack 0 ({ frame tACK 5 false [] with crcOk := false }), ?_⟩⟩
  all_goals decide +kernel

theorem witness_LinkFrames_2 :
    (∃ l : Fin 13, ∃ f : Frame, ∃ type : Nat, ∃ i : Instr, ∃ s : State,
    (type, i) ∈ [(tHELLO, Instr.hello l f), (tREJECT, .reject l f), (tECREDIT, .ecredit l f), (tSTOP, .stopMark l f), (tOPEN, .openFrame l f), (tDATA, .dataFrame l f), (tMACK, .mirrorAck l f), (tMNAK, .mirrorNak l f)] ∧
    rd s (lkState l) ≠ lkFAILED ∧
    let p := Pkt.parse f.hdr f.payload
    (linkUp s l = false ∨ accepts s l f = false ∨ p.type ≠ type)) ∧
    (∃ l : Fin 13, ∃ f : Frame, ∃ type : Nat, ∃ i : Instr, ∃ s : State,
    (type, i) ∈ [(tHELLO, Instr.hello l f), (tREJECT, .reject l f), (tECREDIT, .ecredit l f), (tSTOP, .stopMark l f), (tOPEN, .openFrame l f), (tDATA, .dataFrame l f), (tMACK, .mirrorAck l f), (tMNAK, .mirrorNak l f)] ∧
    rd s (lkState l) ≠ lkFAILED ∧
    let p := Pkt.parse f.hdr f.payload
    linkUp s l = true ∧ accepts s l f = true ∧ p.type = type ∧ ((unitHalted s (U.link l) = true ∧ type ≠ tSTOP) ∨ s.power = .kindling)) := by
  refine ⟨⟨0, frame tHELLO 6 false (zeros 64), tHELLO, .hello 0 (frame tHELLO 6 false (zeros 64)), linkS 0 lkUP { LinkSt.blank with rxNext := 5 }, ?_, ?_, ?_⟩,
    ⟨0, frame tDATA 5 false (zeros 1024), tDATA, .dataFrame 0 (frame tDATA 5 false (zeros 1024)), regs [(F.DEV_STATE_POWER, 2)] (linkS 0 lkUP { LinkSt.blank with rxNext := 5 }), ?_, ?_, ?_, ?_, ?_, ?_⟩⟩
  all_goals decide +kernel

theorem witness_FramesTakeEffect_1 :
    (∃ l : Fin 13, ∃ f : Frame, ∃ s : State,
    let p := Pkt.parse f.hdr f.payload
    linkUp s l = true ∧ accepts s l f = true ∧ unitHalted s (U.link l) = false ∧ s.power ≠ .kindling ∧ p.type = tHELLO ∧
    helloOk s l f.payload = true) ∧
    (∃ l : Fin 13, ∃ f : Frame, ∃ s : State,
    let p := Pkt.parse f.hdr f.payload
    linkUp s l = true ∧ accepts s l f = true ∧ unitHalted s (U.link l) = false ∧ s.power ≠ .kindling ∧ p.type = tHELLO ∧
    helloOk s l f.payload = false ∧ s.colls = [] ∧ s.mirrorOut = none) ∧
    (∃ l : Fin 13, ∃ f : Frame, ∃ tx : TxStream, ∃ s : State,
    let p := Pkt.parse f.hdr f.payload
    let here := p.dst = moduleId s ∧ l.val ≠ 12
    let quiet := s.colls = [] ∧ s.collEnded = []
    linkUp s l = true ∧ accepts s l f = true ∧ unitHalted s (U.link l) = false ∧ s.power ≠ .kindling ∧ p.type = tREJECT ∧ here ∧ quiet ∧
    s.txs = [tx] ∧ tx.num = field f.payload 2 2) ∧
    (∃ l : Fin 13, ∃ f : Frame, ∃ tx : TxStream, ∃ s : State,
    let p := Pkt.parse f.hdr f.payload
    let here := p.dst = moduleId s ∧ l.val ≠ 12
    let quiet := s.colls = [] ∧ s.collEnded = []
    linkUp s l = true ∧ accepts s l f = true ∧ unitHalted s (U.link l) = false ∧ s.power ≠ .kindling ∧ p.type = tECREDIT ∧ here ∧ quiet ∧
    s.rxs = [] ∧ s.txs = [tx] ∧ tx.num = p.stream ∧ tx.dst = p.src ∧ tx.opened = true ∧ tx.finished = true) ∧
    (∃ l : Fin 13, ∃ f : Frame, ∃ s : State,
    let p := Pkt.parse f.hdr f.payload
    let here := p.dst = moduleId s ∧ l.val ≠ 12
    let quiet := s.colls = [] ∧ s.collEnded = []
    linkUp s l = true ∧ accepts s l f = true ∧ unitHalted s (U.link l) = false ∧ s.power ≠ .kindling ∧ p.type = tOPEN ∧ here ∧ quiet) := by
  refine ⟨⟨0, frame tHELLO 0 false (record 64 [(0, 4, 0x4E4B4C43), (4, 2, 7), (6, 2, 0x8000)]), regs [(F.CLK_CFG_PEER 0, 7)] (upL 0 lkUP on), ?_, ?_, ?_, ?_, ?_, ?_⟩,
    ⟨0, frame tHELLO 0 false (zeros 64), regs [(F.CLK_CFG_PEER 0, 7)] (upL 0 lkUP on), ?_, ?_, ?_, ?_, ?_, ?_, ?_, ?_⟩,
    ⟨0, frame tREJECT 0 false (record 64 [(2, 2, 5)]), tx0, upL 0 lkUP { on with txs := [tx0] }, ?_, ?_, ?_, ?_, ?_, ?_, ?_, ?_, ?_⟩,
    ⟨0, frame tECREDIT 0 false (zeros 64), tx0, upL 0 lkUP { on with txs := [tx0] }, ?_, ?_, ?_, ?_, ?_, ?_, ?_, ?_, ?_, ?_, ?_, ?_, ?_⟩,
    ⟨0, frame tOPEN 0 false (zeros 64), upL 0 lkUP on, ?_, ?_, ?_, ?_, ?_, ?_, ?_⟩⟩
  all_goals decide +kernel

theorem witness_FramesTakeEffect_2 :
    (∃ l : Fin 13, ∃ f : Frame, ∃ rx : RxStream, ∃ s : State,
    let p := Pkt.parse f.hdr f.payload
    let here := p.dst = moduleId s ∧ l.val ≠ 12
    let quiet := s.colls = [] ∧ s.collEnded = []
    linkUp s l = true ∧ accepts s l f = true ∧ unitHalted s (U.link l) = false ∧ s.power ≠ .kindling ∧ p.type = tDATA ∧ here ∧ quiet ∧
    s.rxs = [rx] ∧ rx.src = p.src ∧ rx.num = p.stream ∧ rx.last = false) ∧
    (∃ l : Fin 13, ∃ f : Frame, ∃ s : State,
    let x := getLink s l
    let p := Pkt.parse f.hdr f.payload
    linkUp s l = true ∧ accepts s l f = true ∧ unitHalted s (U.link l) = false ∧ s.power ≠ .kindling ∧ p.type = tSTOP ∧
    bit (field f.payload 2 2) 1 = true ∧ x.queue = [] ∧ s.txs = [] ∧ s.colls = []) ∧
    (∃ l : Fin 13, ∃ f : Frame, ∃ s : State,
    let p := Pkt.parse f.hdr f.payload
    linkUp s l = true ∧ accepts s l f = true ∧ unitHalted s (U.link l) = false ∧ s.power ≠ .kindling ∧ p.type = tSTOP ∧
    bit (field f.payload 2 2) 1 = false ∧ bit (field f.payload 2 2) 0 = true) ∧
    (∃ l : Fin 13, ∃ f : Frame, ∃ s : State,
    let p := Pkt.parse f.hdr f.payload
    linkUp s l = true ∧ accepts s l f = true ∧ unitHalted s (U.link l) = false ∧ s.power ≠ .kindling ∧ p.type = tSTOP ∧
    field f.payload 2 2 = 0 ∧ stopActive s = false ∧ rd s F.MGT_STOP_CFG_FOLLOW = 0) ∧
    (∃ l : Fin 13, ∃ f : Frame, ∃ m : MirrorOut, ∃ s : State,
    let p := Pkt.parse f.hdr f.payload
    linkUp s l = true ∧ accepts s l f = true ∧ unitHalted s (U.link l) = false ∧ s.power ≠ .kindling ∧ p.type = tMACK ∧ l.val = 12 ∧
    s.mirrorOut = some m ∧ m.kind = 1 ∧ m.holds = [] ∧ m.gen = field f.payload 4 4 ∧ s.returnDue = false) := by
  refine ⟨⟨0, frame tDATA 0 true (zeros 1024), rx0, upL 0 lkUP { on with rxs := [rx0] }, ?_, ?_, ?_, ?_, ?_, ?_, ?_, ?_, ?_, ?_, ?_⟩,
    ⟨0, frame tSTOP 0 false (record 64 [(2, 2, 2)]), upL 0 lkUP on, ?_, ?_, ?_, ?_, ?_, ?_, ?_, ?_, ?_⟩,
    ⟨0, frame tSTOP 0 false (record 64 [(2, 2, 1)]), upL 0 lkUP on, ?_, ?_, ?_, ?_, ?_, ?_, ?_⟩,
    ⟨0, frame tSTOP 0 false (zeros 64), upL 0 lkUP on, ?_, ?_, ?_, ?_, ?_, ?_, ?_, ?_⟩,
    ⟨12, frame tMACK 0 false (record 64 [(4, 4, 77)]), mirror0 77 1, upL 12 lkUP { on with mirrorOut := some (mirror0 77 1) }, ?_, ?_, ?_, ?_, ?_, ?_, ?_, ?_, ?_, ?_, ?_⟩⟩
  all_goals decide +kernel

theorem witness_FramesTakeEffect_3 :
    ∃ l : Fin 13, ∃ f : Frame, ∃ m : MirrorOut, ∃ s : State,
    let p := Pkt.parse f.hdr f.payload
    linkUp s l = true ∧ accepts s l f = true ∧ unitHalted s (U.link l) = false ∧ s.power ≠ .kindling ∧ p.type = tMNAK ∧ l.val = 12 ∧
    s.mirrorOut = some m ∧ m.kind = 1 ∧ m.holds = [] ∧ 3 ≤ m.tries ∧ s.returnDue = false := by
  refine ⟨12, frame tMNAK 0 false (zeros 64), mirror0 77 3, upL 12 lkUP { on with mirrorOut := some (mirror0 77 3), mirrorOwed := some 77 }, ?_, ?_, ?_, ?_, ?_, ?_, ?_, ?_, ?_, ?_, ?_⟩
  all_goals decide +kernel

theorem witness_LinkTrainingAndTests_1 :
    (∃ l : Fin 13, ∃ s : State, pwrGood s = true ∧ linkUp s l = true) ∧
    (∃ l : Fin 13, ∃ s : State, pwrGood s = true ∧ linkUp s l = false) ∧
    (∃ l : Fin 13, ∃ tr : LinkTrain, ∃ s : State, pwrGood s = true ∧
    let lanes := if l.val = 12 then 8 else 4
    let n := popcount tr.lanes.toNat lanes
    let trained := rd s (lkState l) = lkTRAINING ∧ fnState s (lkFunc l) ≠ fnUNAVAIL
    trained ∧ tr.trained = true ∧ n = lanes) ∧
    (∃ l : Fin 13, ∃ tr : LinkTrain, ∃ s : State, pwrGood s = true ∧
    let lanes := if l.val = 12 then 8 else 4
    let n := popcount tr.lanes.toNat lanes
    let trained := rd s (lkState l) = lkTRAINING ∧ fnState s (lkFunc l) ≠ fnUNAVAIL
    trained ∧ tr.trained = true ∧ n ≠ lanes ∧ rd s (lkNarrow l) = 1 ∧ lanes / 2 ≤ n) ∧
    (∃ l : Fin 13, ∃ tr : LinkTrain, ∃ s : State, pwrGood s = true ∧
    let x := getLink s l
    let lanes := if l.val = 12 then 8 else 4
    let n := popcount tr.lanes.toNat lanes
    let trained := rd s (lkState l) = lkTRAINING ∧ fnState s (lkFunc l) ≠ fnUNAVAIL
    let bad := tr.trained = false ∨ (n ≠ lanes ∧ (rd s (lkNarrow l) = 0 ∨ n < lanes / 2))
    trained ∧ bad ∧ x.attempts + 1 ≤ rd s (lkRetrainMax l)) ∧
    (∃ l : Fin 13, ∃ tr : LinkTrain, ∃ s : State, pwrGood s = true ∧
    let x := getLink s l
    let lanes := if l.val = 12 then 8 else 4
    let n := popcount tr.lanes.toNat lanes
    let trained := rd s (lkState l) = lkTRAINING ∧ fnState s (lkFunc l) ≠ fnUNAVAIL
    let bad := tr.trained = false ∨ (n ≠ lanes ∧ (rd s (lkNarrow l) = 0 ∨ n < lanes / 2))
    s.colls = [] ∧ s.mirrorOut = none ∧ trained ∧ bad ∧ rd s (lkRetrainMax l) < x.attempts + 1) ∧
    (∃ l : Fin 13, ∃ s : State, pwrGood s = true ∧ s.colls = [] ∧ s.mirrorOut = none ∧ linkUp s l = true) := by
  refine ⟨⟨0, linkS 0 lkUP LinkSt.blank, ?_, ?_⟩,
    ⟨0, linkS 0 lkDOWN LinkSt.blank, ?_, ?_⟩,
    ⟨0, { trained := true, lanes := 15, hello := none }, linkS 0 lkTRAINING LinkSt.blank, ?_, ?_, ?_, ?_⟩,
    ⟨0, { trained := true, lanes := 3, hello := none }, regs [(lkNarrow 0, 1)] (linkS 0 lkTRAINING LinkSt.blank), ?_, ?_, ?_, ?_, ?_, ?_⟩,
    ⟨0, { trained := false, lanes := 0, hello := none }, regs [(lkRetrainMax 0, 1)] (linkS 0 lkTRAINING LinkSt.blank), ?_, ?_, ?_, ?_⟩,
    ⟨0, { trained := false, lanes := 0, hello := none }, regs [(lkRetrainMax 0, 0)] (linkS 0 lkTRAINING LinkSt.blank), ?_, ?_, ?_, ?_, ?_, ?_⟩,
    ⟨0, linkS 0 lkUP LinkSt.blank, ?_, ?_, ?_, ?_⟩⟩
  all_goals decide +kernel

theorem witness_LinkTrainingAndTests_2 :
    (∃ l : Fin 13, ∃ s : State, pwrGood s = true ∧ linkUp s l = false ∧ rd s (lkState l) ≠ lkTRAINING) ∧
    (∃ src : Src, ∃ n : Fin 104, ∃ s : State, pwrGood s = true ∧
    let testable := 2 ≤ fnState s (laneFunc n)
    served s src = true ∧ testable) ∧
    (∃ src : Src, ∃ n : Fin 104, ∃ s : State, pwrGood s = true ∧
    let testable := 2 ≤ fnState s (laneFunc n)
    served s src = true ∧ ¬ testable) ∧
    (∃ n : Fin 104, ∃ s : State, pwrGood s = true ∧
    let code := rd s (F.CLK_LT_CTL_CHK n)
    let testable := 2 ≤ fnState s (laneFunc n)
    (¬ testable ∨ code = 0)) ∧
    (∃ n : Fin 104, ∃ s : State, pwrGood s = true ∧
    let code := rd s (F.CLK_LT_CTL_CHK n)
    let loop := rd s (F.CLK_LT_CTL_LOOP n)
    let testable := 2 ≤ fnState s (laneFunc n)
    testable ∧ code ≠ 0 ∧ loop = 1) ∧
    (∃ n : Fin 104, ∃ s : State, pwrGood s = true ∧
    let x := s.laneChk.get LaneChk.blank n
    let code := rd s (F.CLK_LT_CTL_CHK n)
    let loop := rd s (F.CLK_LT_CTL_LOOP n)
    let testable := 2 ≤ fnState s (laneFunc n)
    testable ∧ loop ≠ 1 ∧ code = 7 ∧ rd s (F.CLK_LT_CTL_LOCK n) = 1 ∧ x.bits + 1 < 65536) ∧
    (∃ n : Fin 104, ∃ b : Bool, ∃ s : State, pwrGood s = true ∧
    let x := s.laneChk.get LaneChk.blank n
    let code := rd s (F.CLK_LT_CTL_CHK n)
    let loop := rd s (F.CLK_LT_CTL_LOOP n)
    let testable := 2 ≤ fnState s (laneFunc n)
    testable ∧ loop ≠ 1 ∧ code = 1 ∧ rd s (F.CLK_LT_CTL_LOCK n) = 0 ∧ x.good = 63 ∧ 7 ≤ x.recent.length ∧ (x.recent.take 7).any id = true ∧
    b = xor (x.recent.getD 6 false) (x.recent.getD 5 false)) := by
  refine ⟨⟨0, linkS 0 lkDOWN LinkSt.blank, ?_, ?_, ?_⟩,
    ⟨.host 0, 55, laneS 55 2 0 0 LaneChk.blank, ?_, ?_, ?_⟩,
    ⟨.host 0, 55, laneS 55 0 0 0 LaneChk.blank, ?_, ?_, ?_⟩,
    ⟨103, laneS 103 2 0 0 LaneChk.blank, ?_, ?_⟩,
    ⟨55, regs [(F.CLK_LT_CTL_LOOP 55, 1)] (laneS 55 2 7 1 LaneChk.blank), ?_, ?_, ?_, ?_⟩,
    ⟨55, laneS 55 2 7 1 ⟨[], 63, 65534, 5, [], 0⟩, ?_, ?_, ?_, ?_, ?_, ?_⟩,
    ⟨55, false, laneS 55 2 1 0 ⟨[true, false, true, true, false, true, true, false], 63, 63, 0, [], 0⟩, ?_, ?_, ?_, ?_, ?_, ?_, ?_, ?_, ?_⟩⟩
  all_goals decide +kernel

theorem witness_LinkTrainingAndTests_3 :
    (∃ n : Fin 104, ∃ b : Bool, ∃ s : State, pwrGood s = true ∧
    let x := s.laneChk.get LaneChk.blank n
    let code := rd s (F.CLK_LT_CTL_CHK n)
    let loop := rd s (F.CLK_LT_CTL_LOOP n)
    let testable := 2 ≤ fnState s (laneFunc n)
    testable ∧ loop ≠ 1 ∧ code = 1 ∧ rd s (F.CLK_LT_CTL_LOCK n) = 0 ∧ x.good = 63 ∧ 7 ≤ x.recent.length ∧ (x.recent.take 7).any id = true ∧
    b = xor (x.recent.getD 6 false) (x.recent.getD 5 false)) ∧
    (∃ n : Fin 104, ∃ b : Bool, ∃ s : State, pwrGood s = true ∧
    let x := s.laneChk.get LaneChk.blank n
    let code := rd s (F.CLK_LT_CTL_CHK n)
    let loop := rd s (F.CLK_LT_CTL_LOOP n)
    let testable := 2 ≤ fnState s (laneFunc n)
    testable ∧ loop ≠ 1 ∧ code = 1 ∧ rd s (F.CLK_LT_CTL_LOCK n) = 0 ∧ x.good = 63 ∧ 7 ≤ x.recent.length ∧ (x.recent.take 7).any id = true ∧
    b ≠ xor (x.recent.getD 6 false) (x.recent.getD 5 false)) := by
  refine ⟨⟨55, true, laneS 55 2 1 0 ⟨[true, false, true, true, false, false, true, false], 63, 63, 0, [], 0⟩, ?_, ?_, ?_, ?_, ?_, ?_, ?_, ?_, ?_⟩,
    ⟨55, true, laneS 55 2 1 0 ⟨[true, false, true, true, false, true, true, false], 63, 63, 0, [], 0⟩, ?_, ?_, ?_, ?_, ?_, ?_, ?_, ?_, ?_⟩⟩
  all_goals decide +kernel

theorem witness_TwinMirror :
    (∃ gen : Nat, ∃ step : Nat, ∃ s : State, unitLive s (U.sup 1) = true ∧ mirrorOn s = true ∧ (freeStream s).isSome = true ∧
    s.mirrorOut = none ∧ s.mirrorDue = some (gen, step) ∧ pdirRecords s = [] ∧ s.symErr = [] ∧ linkUp s 12 = false ∧ s.returnDue = false) ∧
    (∃ gen : Nat, ∃ step : Nat, ∃ s : State, ∃ u : State, unitLive s (U.sup 1) = true ∧ mirrorOn s = true ∧ (freeStream s).isSome = true ∧
    s.mirrorOut = none ∧ s.mirrorDue = some (gen, step) ∧ pdirRecords s = [] ∧ s.symErr = [] ∧ linkUp s 12 = true ∧
    touchRanges { s with mirrorDue := none } idSup false none (imageRanges s) = (u, .ok ())) ∧
    (∃ s : State, (s.mirrorDue = none ∨ s.mirrorOut.isSome = true)) ∧
    (∃ src : Src, ∃ s : State, served s src = true ∧ isLead s src = false) ∧
    (∃ src : Src, ∃ s : State, served s src = true ∧ isLead s src = true ∧ (s.mirrorOut.isSome = true ∨ freeStream s = none)) ∧
    (∃ src : Src, ∃ half : Nat × Nat, ∃ s : State, ∃ u : State, served s src = true ∧ isLead s src = true ∧ s.mirrorOut = none ∧
    (freeStream s).isSome = true ∧ linkUp s 12 = true ∧ heldHalf s = some half ∧ s.symErr = [] ∧
    touchRanges s idSup false none [(half.1, 256 + peekNat s (half.1 + 0x10) 8)] = (u, .ok ())) ∧
    (∃ src : Src, ∃ s : State, served s src = true ∧ isLead s src = true ∧ s.mirrorOut = none ∧ (freeStream s).isSome = true ∧
    (linkUp s 12 = false ∨ heldHalf s = none)) := by
  refine ⟨⟨7, 8, { twinS lkDOWN with mirrorDue := some (7, 8) }, ?_, ?_, ?_, ?_, ?_, ?_, ?_, ?_, ?_⟩,
    ⟨7, 8, { twinS lkUP with mirrorDue := some (7, 8) }, _, ?_, ?_, ?_, ?_, ?_, ?_, ?_, ?_, pair_of ?_⟩,
    ⟨twinS lkUP, ?_⟩,
    ⟨.host 1, twinS lkUP, ?_, ?_⟩,
    ⟨.host 0, { twinS lkUP with mirrorOut := some (mirror0 7 1) }, ?_, ?_, ?_⟩,
    ⟨.host 0, (heldHalf (heldS lkUP)).getD (0, 0), heldS lkUP, _, ?_, ?_, ?_, ?_, ?_, ?_, ?_, pair_of ?_⟩,
    ⟨.host 0, heldS lkDOWN, ?_, ?_, ?_, ?_, ?_⟩⟩
  all_goals decide +kernel

theorem witness_ManagementEndpoint_1 :
    (∃ s : State, s.auxOn = true) ∧
    (∃ m : Bytes, ∃ s : State, s.auxOn = true ∧ changesSensor m = true) ∧
    (∃ m : Bytes, ∃ s : State, s.auxOn = true ∧ changesSensor m = false) ∧
    (∃ f : BitVec 8, ∃ s : State, s.auxOn = true ∧ isFunc f.toNat = false) ∧
    (∃ f : BitVec 8, ∃ s : State, s.auxOn = true ∧ isFunc f.toNat = true ∧ (s.power = .aux ∨ s.power = .kindling)) ∧
    (∃ f : BitVec 8, ∃ s : State, s.auxOn = true ∧ ∃ st, ∃ gen, ∃ code, isFunc f.toNat = true ∧ (s.power = .run ∨ s.power = .stopped) ∧
    s.mgmt.reports.find? f.toNat = some (st, gen, code) ∧
    let fresh := st = fnState s f.toNat ∧ gen = rd s F.DEV_COMMIT_GEN_GEN
    fresh) ∧
    (∃ f : BitVec 8, ∃ s : State, s.auxOn = true ∧ ∃ st, ∃ gen, ∃ code, isFunc f.toNat = true ∧ (s.power = .run ∨ s.power = .stopped) ∧
    s.mgmt.reports.find? f.toNat = some (st, gen, code) ∧
    let fresh := st = fnState s f.toNat ∧ gen = rd s F.DEV_COMMIT_GEN_GEN
    ¬ fresh) ∧
    (∃ m : Bytes, ∃ s : State, s.auxOn = true ∧ s.mgmt.negotiated = false ∧
    ∃ i, i ∈ [Instr.getDigests m, .getCertificate m, .challenge m, .getMeasurements m]) ∧
    (∃ s : State, s.auxOn = true ∧ s.mgmt.negotiated = true) ∧
    (∃ s : State, s.auxOn = true ∧ s.power = .kindling) ∧
    (∃ s : State, s.auxOn = true ∧ s.power ≠ .kindling) ∧
    (∃ off : Nat, ∃ d : Bytes, ∃ s : State, s.auxOn = true ∧
    let st := rd s F.MGT_UPDATE_STATE
    (st ≠ 1 ∨ 0x01800000 < off + d.length)) ∧
    (∃ off : Nat, ∃ d : Bytes, ∃ s : State, s.auxOn = true ∧
    let st := rd s F.MGT_UPDATE_STATE
    st = 1 ∧ off + d.length ≤ 0x01800000) ∧
    (∃ s : State, s.auxOn = true ∧
    let st := rd s F.MGT_UPDATE_STATE
    st ≠ 1) ∧
    (∃ s : State, s.auxOn = true ∧
    let k := rd s F.MGT_UPDATE_SLOT
    let st := rd s F.MGT_UPDATE_STATE
    ∃ c, st = 1 ∧ updateCode s k = c ∧ c ≠ 0) := by
  refine ⟨⟨on, ?_⟩,
    ⟨bytes [0x80, 2, 0x10], on, ?_, ?_⟩,
    ⟨bytes [0x80, 2, 0x11], on, ?_, ?_⟩,
    ⟨0x36, on, ?_, ?_⟩,
    ⟨0, aux, ?_, ?_, ?_⟩,
    ⟨0, { on with mgmt := { on.mgmt with reports := [(0, (0, 0, 0))] } }, ?_, 0, 0, 0, ?_, ?_, ?_, ?_⟩,
    ⟨0, { on with mgmt := { on.mgmt with reports := [(0, (2, 0, 0))] } }, ?_, 2, 0, 0, ?_, ?_, ?_, ?_⟩,
    ⟨[5], on, ?_, ?_, .getDigests [5], ?_⟩,
    ⟨{ on with mgmt := { on.mgmt with negotiated := true } }, ?_, ?_⟩,
    ⟨kin, ?_, ?_⟩,
    ⟨on, ?_, ?_⟩,
    ⟨0, [], on, ?_, ?_⟩,
    ⟨0x017FFFFE, bytes [1, 2], regs [(F.MGT_UPDATE_STATE, 1)] on, ?_, ?_, ?_⟩,
    ⟨on, ?_, ?_⟩,
    ⟨regs [(F.MGT_UPDATE_STATE, 1)] on, ?_, Code.IMG_FORMAT, ?_, ?_, ?_⟩⟩
  all_goals decide +kernel

theorem witness_ManagementEndpoint_2 :
    (∃ s : State, s.auxOn = true ∧
    let st := rd s F.MGT_UPDATE_STATE
    st ≠ 3) ∧
    (∃ s : State, s.auxOn = true ∧
    let st := rd s F.MGT_UPDATE_STATE
    st = 3 ∧ s.power = .stopped) ∧
    (∃ s : State, s.auxOn = true ∧
    let st := rd s F.MGT_UPDATE_STATE
    st = 3 ∧ s.power ≠ .stopped) ∧
    (∃ s : State, s.auxOn = true ∧ ∃ j, j < 2 ∧ slotSeq s (1 - j) < 0xFFFFFFFE) ∧
    (∃ s : State, s.auxOn = true ∧ ∃ j, j < 2 ∧ slotSeq s (1 - j) < 0xFFFFFFFE) ∧
    (∃ s : State, s.auxOn = true) ∧
    (∃ s : State, s.auxOn = true ∧
    let hold := s.scanHold = true ∧ s.power = .kindling
    hold) ∧
    (∃ s : State, s.auxOn = true ∧
    let hold := s.scanHold = true ∧ s.power = .kindling
    hold) ∧
    (∃ s : State, s.auxOn = true ∧
    let hold := s.scanHold = true ∧ s.power = .kindling
    ¬ hold) := by
  refine ⟨⟨on, ?_, ?_⟩,
    ⟨regs [(F.MGT_UPDATE_STATE, 3)] (stopped on), ?_, ?_, ?_⟩,
    ⟨regs [(F.MGT_UPDATE_STATE, 3)] on, ?_, ?_, ?_⟩,
    ⟨flashWrite on 0x03100010 (leBytes 4 0xFFFFFFFD), ?_, 0, ?_, ?_⟩,
    ⟨flashWrite on 0x03100000 (leBytes 4 0), ?_, 1, ?_, ?_⟩,
    ⟨on, ?_⟩,
    ⟨regs [(F.DEV_STATE_POWER, 2)] { on with scanHold := true }, ?_, ?_⟩,
    ⟨kin, ?_, ?_⟩,
    ⟨on, ?_, ?_⟩⟩
  all_goals decide +kernel

/-- The image passes VERIFY_COMPLETE if its signature verifies (log entry 3). -/
theorem witness_ManagementEndpoint_image (hv : ∀ k d g, Config.mldsaVerify k d g = true) :
    imageS.auxOn = true ∧ rd imageS F.MGT_UPDATE_STATE = 1 ∧ updateCode imageS (rd imageS F.MGT_UPDATE_SLOT) = 0 :=
  ⟨image_updating.1, image_updating.2.1, image_updating.2.2 ▸ image_updates hv⟩

theorem witness_TestPort :
    ∃ s : State, s.auxOn = true := by
  refine ⟨aux, ?_⟩
  all_goals decide +kernel

end Sys2Proof.Tests
end

section
/-! SUPPORT. The access codes of registers (R10, R45, R372): what a masked word holds bit by bit, what a pending value shows, what the two
error records leave, which registers' writes are no action of their own, and which reads change what they answer. -/

namespace Sys2Proof

/-! ### Finite maps -/

theorem Smap.find?_set_same {α : Type} (m : Smap α) (k : Nat) (v : α) : (m.set k v).find? k = some v := by
  induction m with
  | nil => simp [Smap.set, Smap.find?]
  | cons p m ih => by_cases h : p.1 = k <;> simp [Smap.set, Smap.find?, h, ih]

theorem Smap.find?_set_ne {α : Type} (m : Smap α) {k k₂ : Nat} (v : α) (h : k ≠ k₂) : (m.set k v).find? k₂ = m.find? k₂ := by
  induction m with
  | nil => simp [Smap.set, Smap.find?, h]
  | cons p m ih =>
    by_cases hp : p.1 = k
    · simp [Smap.set, Smap.find?, hp, h]
    · simp [Smap.set, Smap.find?, hp, ih]

/-! ### Masks -/

theorem getLsbD_ofNat_mask (m : Nat) {b : Nat} (h : b < 64) : (BitVec.ofNat 64 m).getLsbD b = bit m b := by
  simp only [BitVec.getLsbD_ofNat, h, decide_true, Bool.true_and, Nat.testBit_eq_decide_div_mod_eq]
  rfl

theorem getLsbD_and_not_mask (x : BitVec 64) (m : Nat) {b : Nat} (h : b < 64) :
    (x &&& ~~~(BitVec.ofNat 64 m)).getLsbD b = (x.getLsbD b && !bit m b) := by
  simp only [BitVec.getLsbD_and, BitVec.getLsbD_not, getLsbD_ofNat_mask m h, h, decide_true, Bool.true_and]

end Sys2Proof

namespace Sys2Proof.Machine

theorem getLsbD_mergeMask (old v : BitVec 64) (m : Nat) {b : Nat} (h : b < 64) :
    (mergeMask old m v).getLsbD b = if bit m b then v.getLsbD b else old.getLsbD b := by
  rw [mergeMask, BitVec.getLsbD_or, getLsbD_and_not_mask old m h, BitVec.getLsbD_and, getLsbD_ofNat_mask m h]
  cases bit m b <;> simp

/-! ### Frames of the register file -/

theorem RegsKept.refl (s : State) (offs : List Nat) : RegsKept s s offs := fun _ _ => rfl

theorem RegsKept.setReg {s t : State} {offs : List Nat} {o : Nat} (h : RegsKept s t offs) (ho : o ∈ offs) (v : BitVec 64) :
    RegsKept s (setReg t o v) offs := by
  intro p hp
  have hne : o ≠ p := fun e => hp (e ▸ ho)
  rw [regVal_setReg_ne t v hne, h p hp]

theorem RegsKept.wr {s t : State} {offs : List Nat} {f : Fld} (h : RegsKept s t offs) (hf : f.off ∈ offs) (v : Nat) :
    RegsKept s (wr t f v) offs :=
  h.setReg hf _

@[simp] theorem regVal_emit (s : State) (o : Out) (off : Nat) : regVal (emit s o) off = regVal s off := rfl

/-! ### Pending values (R45) -/

theorem pendOr_set_same (s : State) (off : Nat) (v : BitVec 64) : pendOr { s with pend := s.pend.set off v } off = v := by
  simp [pendOr, Smap.find?_set_same]

theorem pendOr_set_ne (s : State) {off o : Nat} (v : BitVec 64) (h : off ≠ o) :
    pendOr { s with pend := s.pend.set off v } o = pendOr s o := by
  simp [pendOr, Smap.find?_set_ne _ _ h, regVal]

section
variable {s : State} {off : Nat} {g : RegGroup} {i j f : Nat}

theorem configWrite_stopped (v : BitVec 64) (hr : lookupReg off = some (g, i, j)) (hroute : g.func ≠ .route)
    (hf : g.funcOf i = some f) (hs : fnState s f = fnSTOPPED) :
    configWrite s off v = { s with pend := s.pend.set off (mergeMask (pendOr s off) g.rw v) } := by
  simp [configWrite, hr, hroute, hf, hs]

theorem configWrite_running (v : BitVec 64) (hr : lookupReg off = some (g, i, j)) (hroute : g.func ≠ .route)
    (hf : g.funcOf i = some f) (hs : fnState s f ≠ fnSTOPPED) : configWrite s off v = cfgErr s Code.CFG_RUNNING f off := by
  simp [configWrite, hr, hroute, hf, hs]

end

theorem exec_configWrite_served {src : Src} {s : State} (off : Nat) (v : BitVec 64) (h : served s src = true) :
    exec (.configWrite src off v) s = .next (configWrite s off v) :=
  if_pos h

/-! ### The error records -/

/-- DEV_CFG_ERR is one register, and no other changes (Table 2-19). -/
theorem cfgErr_regsKept (s : State) (code func off : Nat) : RegsKept s (cfgErr s code func off) [F.DEV_CFG_ERR_CODE.off] :=
  (((RegsKept.refl s _).wr (by decide) _).wr (by decide) _).wr (by decide) _

theorem rd_cfgErr_code (s : State) (code func off : Nat) : rd (cfgErr s code func off) F.DEV_CFG_ERR_CODE = code % 2 ^ 16 := by
  rw [cfgErr, rd_wr_ne _ _ (by decide) (by decide), rd_wr_ne _ _ (by decide) (by decide), rd_wr_same _ _ (by decide)]
  rfl

theorem cfgErr_frame (s : State) (code func off : Nat) :
    cfgErr s code func off = { s with regs := (cfgErr s code func off).regs } := rfl

/-- The writes of HIF_ERR and HIF_ERR_ADDR, before their vector is raised (Table 14-13). -/
def hifRecord (s : State) (code p ring addr : Nat) : State :=
  wr (wr (wr (wr s F.HIF_ERR_CODE code) F.HIF_ERR_PORT p) F.HIF_ERR_RING ring) F.HIF_ERR_ADDR_ADDR addr

theorem hifErr_eq (s : State) (code p ring addr : Nat) : hifErr s code p ring addr = raiseVec (hifRecord s code p ring addr) p 4 := rfl

theorem rd_hifRecord_code (s : State) (code p ring addr : Nat) : rd (hifRecord s code p ring addr) F.HIF_ERR_CODE = code % 2 ^ 16 := by
  rw [hifRecord, rd_wr_ne _ _ (by decide) (by decide), rd_wr_ne _ _ (by decide) (by decide), rd_wr_ne _ _ (by decide) (by decide),
    rd_wr_same _ _ (by decide)]
  rfl

theorem hifRecord_regsKept (s : State) (code p ring addr : Nat) :
    RegsKept s (hifRecord s code p ring addr) [F.HIF_ERR_CODE.off, F.HIF_ERR_ADDR_ADDR.off] :=
  ((((RegsKept.refl s _).wr (by decide) _).wr (by decide) _).wr (by decide) _).wr (by decide) _

/-! ### Raising a vector (R380) -/

@[simp] theorem msixSend_regs (s : State) (p v : Nat) : (msixSend s p v).regs = s.regs := by
  simp only [msixSend]; split <;> rfl

@[simp] theorem msixSend_mem (s : State) (p v : Nat) : (msixSend s p v).mem = s.mem := by
  simp only [msixSend]; split <;> rfl

@[simp] theorem msixSend_tickets (s : State) (p v : Nat) : (msixSend s p v).tickets = s.tickets := by
  simp only [msixSend]; split <;> rfl

@[simp] theorem raiseVec_mem (s : State) (p v : Nat) : (raiseVec s p v).mem = s.mem := by
  simp only [raiseVec]; split <;> simp

@[simp] theorem raiseVec_tickets (s : State) (p v : Nat) : (raiseVec s p v).tickets = s.tickets := by
  simp only [raiseVec]; split <;> simp

theorem raiseVec_regsKept (s : State) (p v : Nat) : RegsKept s (raiseVec s p v) [(F.HIF_IRQ_PEND p).off] := by
  simp only [raiseVec]
  split
  · exact RegsKept.refl s _
  · intro o ho
    rw [regVal, msixSend_regs]
    exact (RegsKept.refl s _).wr (List.mem_singleton_self _) 1 o ho

/-- A vector whose cause is pending already sends nothing more. -/
theorem raiseVec_pending {s : State} {p v : Nat} (h : rd s ⟨(F.HIF_IRQ_PEND p).off, v, 1⟩ = 1) : raiseVec s p v = s :=
  if_pos h

/-- The pending bits of a port are in a register of their own. -/
theorem irqPend_not_hifErr (p : Fin 2) :
    (F.HIF_IRQ_PEND p).off ∉ [F.HIF_ERR_CODE.off, F.HIF_ERR_ADDR_ADDR.off] := by
  revert p; decide

theorem rd_hifErr_code (s : State) (code : Nat) (p : Fin 2) (ring addr : Nat) :
    rd (hifErr s code p ring addr) F.HIF_ERR_CODE = code % 2 ^ 16 := by
  have hne : F.HIF_ERR_CODE.off ∉ [(F.HIF_IRQ_PEND p).off] := fun h =>
    irqPend_not_hifErr p (List.mem_singleton.mp h ▸ List.mem_cons_self)
  rw [hifErr_eq, rd, raiseVec_regsKept _ _ _ _ hne]
  exact rd_hifRecord_code s code p ring addr

/-- With vector 4 pending, only the record changes. -/
theorem hifErr_of_pending {s : State} {p : Fin 2} (code ring addr : Nat) (h : rd s ⟨(F.HIF_IRQ_PEND p).off, 4, 1⟩ = 1) :
    hifErr s code p ring addr = hifRecord s code p ring addr := by
  rw [hifErr_eq, raiseVec_pending]
  rw [rd, hifRecord_regsKept _ _ _ _ _ _ (irqPend_not_hifErr p)]
  exact h

/-! ### Writes by the access codes (R10) -/

/-- The registers whose write is an action of its own (Table 2-16, R379): those that `actWrite` names. -/
def actingBases : List Nat :=
  [0x40, 0x60, 0x68, 0x100120, 0x1B0000, 0x1D0010, 0x1D0020, 0x1D0100, 0x1D0108, 0x1D0110, 0x1D0300, 0x1EA000, 0x1EA018, 0x1F0030,
    0x200000, 0x200020, 0x208040, 0x1F00000]

theorem actWrite_of_not_acting (s : State) (src : Src) {g : RegGroup} (i j off : Nat) (v : BitVec 64) (h : g.base ∉ actingBases) :
    actWrite s src g i j off v = plainWrite s g off v := by
  unfold actWrite
  dsimp only
  split
  case h_19 => rfl
  all_goals exact absurd (by rename_i hb; rw [hb]; decide) h

theorem plainWrite_regsKept (s : State) (g : RegGroup) (off : Nat) (v : BitVec 64) : RegsKept s (plainWrite s g off v) [off] :=
  (RegsKept.refl s _).setReg (List.mem_singleton_self _) _

theorem getLsbD_plainWrite (s : State) (g : RegGroup) (off : Nat) (v : BitVec 64) {b : Nat} (h : b < 64) :
    (regVal (plainWrite s g off v) off).getLsbD b =
      if bit g.w1c b && v.getLsbD b then false else if bit g.rw b then v.getLsbD b else (regVal s off).getLsbD b := by
  have hbit : (regVal (plainWrite s g off v) off).getLsbD b =
      ((mergeMask (regVal s off) g.rw v).getLsbD b && !(v.getLsbD b && bit g.w1c b)) := by
    rw [plainWrite, regVal_setReg_same]
    simp only [BitVec.getLsbD_and, BitVec.getLsbD_not, getLsbD_ofNat_mask _ h, h, decide_true, Bool.true_and]
  rw [hbit, getLsbD_mergeMask _ _ _ h]
  cases bit g.w1c b <;> cases v.getLsbD b <;> simp

theorem exec_registerWrite_aligned {src : Src} {s : State} {off : Nat} (v : BitVec 64) (h : served s src = true) (ho : off % 8 = 0) :
    exec (.registerWrite src off 8 v) s = .next (regWrite s src off v) := by
  show execRegisterWrite src off 8 v s = _
  simp [execRegisterWrite, h, ho]

theorem exec_registerWrite_refused {p : Fin 2} {s : State} {off len : Nat} (v : BitVec 64) (h : served s (.host p) = true)
    (hw : len ≠ 8 ∨ off % 8 ≠ 0) :
    exec (.registerWrite (.host p) off len v) s = .next (hifErr s Code.BAR_WIDTH p 0 off) := by
  show execRegisterWrite (.host p) off len v s = _
  rw [execRegisterWrite, h, if_neg (by simp), if_pos hw]

/-! ### Reads that clear (R10) -/

theorem mem_regGroups_of_lookupReg {off : Nat} {g : RegGroup} {i j : Nat} (h : lookupReg off = some (g, i, j)) : g ∈ regGroups := by
  obtain ⟨g', hmem, hg⟩ := List.exists_of_findSome?_eq_some h
  obtain ⟨_, _, he⟩ := Option.map_eq_some_iff.mp hg
  cases he
  exact hmem

/-- Only the records of errors hold RC fields. -/
theorem name_of_rc : ∀ g ∈ regGroups, g.rc ≠ 0 → g.name ∈ ["DEV_CFG_ERR", "HIF_ERR", "HIF_ERR_ADDR"] := by
  decide +kernel

/-- No register with RC fields shows a unit's STATE, so a read shows what it holds. -/
theorem stateView_of_rc {g : RegGroup} (s : State) (i j : Nat) (v : BitVec 64) (hg : g ∈ regGroups) (hrc : g.rc ≠ 0) :
    stateView s g i j v = v := by
  have hname := name_of_rc g hg hrc
  simp only [List.mem_cons, List.not_mem_nil, or_false] at hname
  rcases hname with h | h | h <;> simp [stateView, stopCode, h]

theorem regRead_of_rc {s : State} {off : Nat} {g : RegGroup} {i j : Nat} (hr : lookupReg off = some (g, i, j)) (hrc : g.rc ≠ 0)
    (hdbg : off ≠ F.MGT_DBG_DATA_DATA.off) (hoff : off < 0x1000000) :
    regRead s off = (setReg s off (regVal s off &&& ~~~(BitVec.ofNat 64 g.rc)), pendOr s off &&& ~~~(BitVec.ofNat 64 g.wo)) := by
  rw [regRead, if_neg hdbg, if_neg (by omega), hr]
  simp [hrc, stateView_of_rc s i j _ (mem_regGroups_of_lookupReg hr) hrc]

theorem exec_readClear_of_rc {src : Src} {s : State} {off : Nat} {g : RegGroup} {i j : Nat} (h : served s src = true)
    (hr : lookupReg off = some (g, i, j)) (hrc : g.rc ≠ 0) (hdbg : off ≠ F.MGT_DBG_DATA_DATA.off) (hoff : off < 0x1000000) :
    exec (.readClear src off) s = .next (emit (setReg s off (regVal s off &&& ~~~(BitVec.ofNat 64 g.rc)))
      (.readReply (pendOr s off &&& ~~~(BitVec.ofNat 64 g.wo)))) := by
  show execReadClear src off s = _
  simp [execReadClear, hr, h, hrc, regRead_of_rc hr hrc hdbg hoff]

/-! ### Configuration writes, register writes and clearing reads -/

section
variable {src : Src} {s : State} {off : Nat} {g : RegGroup} {i j : Nat}

theorem configWrite_pends {f : Nat} (v : BitVec 64) (h : served s src = true) (hr : lookupReg off = some (g, i, j))
    (hroute : g.func ≠ .route) (hf : g.funcOf i = some f) (hs : fnState s f = fnSTOPPED) :
    ∃ t, exec (.configWrite src off v) s = .next t ∧ (∀ o, regVal t o = regVal s o) ∧ t = { s with pend := t.pend } ∧
      (∀ o, o ≠ off → pendOr t o = pendOr s o) ∧
      ∀ b, b < 64 → (pendOr t off).getLsbD b = if bit g.rw b then v.getLsbD b else (pendOr s off).getLsbD b := by
  refine ⟨_, (exec_configWrite_served off v h).trans (congrArg _ (configWrite_stopped v hr hroute hf hs)), fun _ => rfl, rfl, ?_, ?_⟩
  · exact fun o ho => pendOr_set_ne s _ ho.symm
  · intro b hb
    rw [pendOr_set_same, getLsbD_mergeMask _ _ _ hb]

theorem configWrite_refused {f : Nat} (v : BitVec 64) (h : served s src = true) (hr : lookupReg off = some (g, i, j))
    (hroute : g.func ≠ .route) (hf : g.funcOf i = some f) (hs : fnState s f ≠ fnSTOPPED) :
    ∃ t, exec (.configWrite src off v) s = .next t ∧ rd t F.DEV_CFG_ERR_CODE = Code.CFG_RUNNING ∧
      RegsKept s t [F.DEV_CFG_ERR_CODE.off] ∧ t = { s with regs := t.regs } :=
  ⟨_, (exec_configWrite_served off v h).trans (congrArg _ (configWrite_running v hr hroute hf hs)), rd_cfgErr_code _ _ _ _,
    cfgErr_regsKept _ _ _ _, cfgErr_frame _ _ _ _⟩

theorem registerWrite_by_accessCodes (v : BitVec 64) (h : served s src = true) (hr : lookupReg off = some (g, i, j))
    (hfunc : g.func = .none) (ho : off % 8 = 0) (hact : g.base ∉ actingBases) :
    ∃ t, exec (.registerWrite src off 8 v) s = .next t ∧ RegsKept s t [off] ∧ t = { s with regs := t.regs } ∧
      ∀ b, b < 64 → (regVal t off).getLsbD b =
        if bit g.w1c b && v.getLsbD b then false else if bit g.rw b then v.getLsbD b else (regVal s off).getLsbD b := by
  have hw : regWrite s src off v = plainWrite s g off v := by
    simp [regWrite, hr, hfunc, actWrite_of_not_acting s src i j off v hact]
  exact ⟨_, (exec_registerWrite_aligned v h ho).trans (congrArg _ hw), plainWrite_regsKept s g off v, rfl,
    fun _ => getLsbD_plainWrite s g off v⟩

theorem registerWrite_barWidth {p : Fin 2} {len : Nat} (v : BitVec 64) (h : served s (.host p) = true) (hw : len ≠ 8 ∨ off % 8 ≠ 0) :
    ∃ t, exec (.registerWrite (.host p) off len v) s = .next t ∧ rd t F.HIF_ERR_CODE = Code.BAR_WIDTH ∧ t.mem = s.mem ∧
      t.tickets = s.tickets ∧ (rd s ⟨(F.HIF_IRQ_PEND p).off, 4, 1⟩ = 1 → t = { s with regs := t.regs }) := by
  refine ⟨_, exec_registerWrite_refused v h hw, rd_hifErr_code s _ p 0 off, ?_, ?_, ?_⟩
  · rw [hifErr_eq, raiseVec_mem]; rfl
  · rw [hifErr_eq, raiseVec_tickets]; rfl
  · intro hp
    rw [hifErr_of_pending _ _ _ hp]; rfl

theorem readClear_answers_and_clears (h : served s src = true) (hr : lookupReg off = some (g, i, j)) (hrc : g.rc ≠ 0)
    (hdbg : off ≠ F.MGT_DBG_DATA_DATA.off) (hoff : off < 0x1000000) :
    ∃ t x, exec (.readClear src off) s = .next t ∧ t.out = s.out ++ [.readReply x] ∧ RegsKept s t [off] ∧
      (∀ b, b < 64 → x.getLsbD b = ((pendOr s off).getLsbD b && !bit g.wo b)) ∧
      ∀ b, b < 64 → (regVal t off).getLsbD b = ((regVal s off).getLsbD b && !bit g.rc b) := by
  refine ⟨_, _, exec_readClear_of_rc h hr hrc hdbg hoff, rfl, (RegsKept.refl s _).setReg (List.mem_singleton_self _) _, fun _ => getLsbD_and_not_mask _ _, ?_⟩
  intro b hb
  rw [regVal_emit, regVal_setReg_same, getLsbD_and_not_mask _ _ hb]

end

/-- Settles O22, clause by clause. What it needs of the register table is `name_of_rc`: no register with RC fields shows a unit's STATE. -/
theorem registerWritesAndReads : Obligations.RegisterWritesAndReads := by
  refine ⟨?_, ?_⟩
  · intro src off v s g i j f h hr hroute hf
    exact ⟨configWrite_pends v h hr hroute hf, configWrite_refused v h hr hroute hf⟩
  · intro src off len v s g i j h
    refine ⟨registerWrite_by_accessCodes v h, ?_, readClear_answers_and_clears h⟩
    rintro p rfl hw
    exact registerWrite_barWidth v h hw

end Sys2Proof.Machine
end

section
/-! SUPPORT. The fuses (R39): what every command keeps of them, a step keeps. -/

namespace Sys2Proof.Machine

/-- The command that a step takes from the queue keeps what every command keeps; an idle step changes nothing. -/
theorem step_keeps_fuses {s t : State} (h : step s = .next t) :
    t.fuses = { s.fuses with counter := t.fuses.counter } ∧ s.fuses.counter ≤ t.fuses.counter := by
  rw [step] at h
  split at h
  next =>
    cases h
    exact ⟨rfl, Nat.le_refl _⟩
  next c rest _ =>
    obtain ⟨u, hu, hk⟩ := exec_keeps c { s with pending := rest }
    cases hu.symm.trans h
    exact ⟨hk.fuses, hk.counter⟩

/-- Settles O5: what every command keeps (`exec_keeps`), a step keeps. -/
theorem rollbackCounterOnlyRises : Obligations.RollbackCounterOnlyRises :=
  fun _ _ => step_keeps_fuses

end Sys2Proof.Machine
end

section
/-! SUPPORT. Little-endian byte strings (R6) and the configuration flash (R25): a number written as bytes is read back, and a write of flash
bytes leaves every other byte alone. -/

namespace Sys2Proof

@[simp] theorem leBytes_length (n v : Nat) : (leBytes n v).length = n := by
  induction n generalizing v with
  | zero => rfl
  | succ n ih => simp [leBytes, ih]

theorem leNat_leBytes (n v : Nat) : leNat (leBytes n v) = v % 2 ^ (8 * n) := by
  induction n generalizing v with
  | zero => simp [leBytes, leNat, Nat.mod_one]
  | succ n ih =>
    have hpow : 2 ^ (8 * (n + 1)) = 256 * 2 ^ (8 * n) := by rw [Nat.mul_succ, Nat.pow_add, Nat.mul_comm]
    simp only [leBytes, leNat, ih, BitVec.toNat_ofNat]
    rw [hpow, Nat.mod_mul]

theorem leNat_lt (b : Bytes) : leNat b < 2 ^ (8 * b.length) := by
  induction b with
  | nil => simp [leNat]
  | cons x xs ih =>
    have hx := x.isLt
    have hpow : 2 ^ (8 * (xs.length + 1)) = 256 * 2 ^ (8 * xs.length) := by rw [Nat.mul_succ, Nat.pow_add, Nat.mul_comm]
    simp only [leNat, List.length_cons, hpow]
    omega

theorem leNat_zeros (n : Nat) : leNat (zeros n) = 0 := by
  induction n with
  | zero => rfl
  | succ n ih =>
    show (0 : BitVec 8).toNat + 256 * leNat (zeros n) = 0
    rw [ih]; rfl

/-- A string is given by its bytes. -/
theorem map_range_eq_of_getElem {α : Type} {d : List α} {g : Nat → α} (h : ∀ i, (hi : i < d.length) → g i = d[i]) :
    (List.range d.length).map g = d := by
  apply List.ext_getElem
  · simp
  · intro i _ hi
    simpa using h i hi

end Sys2Proof

namespace Sys2Proof.Machine

/-! ### The configuration flash -/

theorem flashWrite_frame (s : State) (a : Nat) (d : Bytes) : flashWrite s a d = { s with flash := (flashWrite s a d).flash } := by
  induction d generalizing s a with
  | nil => rfl
  | cons b bs ih => rw [flashWrite, ih]

@[simp] theorem flashWrite_out (s : State) (a : Nat) (d : Bytes) : (flashWrite s a d).out = s.out := by rw [flashWrite_frame]

@[simp] theorem flashByte_wr (s : State) (f : Fld) (v a : Nat) : flashByte (wr s f v) a = flashByte s a := rfl

theorem flashWrite_outside {s : State} {a x : Nat} {d : Bytes} (h : x < a ∨ a + d.length ≤ x) :
    flashByte (flashWrite s a d) x = flashByte s x := by
  induction d generalizing s a with
  | nil => rfl
  | cons b bs ih =>
    simp only [List.length_cons] at h
    rw [flashWrite, ih (by omega), flashByte, Smap.get_set_ne _ _ _ (by omega : a ≠ x), flashByte]

theorem flashWrite_inside {s : State} {a i : Nat} {d : Bytes} (h : i < d.length) : flashByte (flashWrite s a d) (a + i) = d[i] := by
  induction d generalizing s a i with
  | nil => exact absurd h (Nat.not_lt_zero i)
  | cons b bs ih =>
    cases i with
    | zero => rw [flashWrite, flashWrite_outside (by omega), flashByte, Nat.add_zero, Smap.get_set_same]; rfl
    | succ i => rw [flashWrite, show a + (i + 1) = a + 1 + i by omega, ih (by simpa using h)]; rfl

theorem flashBytes_flashWrite (s : State) (a : Nat) (d : Bytes) : flashBytes (flashWrite s a d) a d.length = d :=
  map_range_eq_of_getElem fun _ hi => flashWrite_inside hi

theorem flashNat_lt (s : State) (a n : Nat) : flashNat s a n < 2 ^ (8 * n) := by
  have h := leNat_lt (flashBytes s a n)
  rwa [flashBytes, List.length_map, List.length_range] at h

end Sys2Proof.Machine
end

section
/-! SUPPORT. Power on and its loss (R53, R449, R466, R469 to R471, R475). What a loss leaves is proved clause by clause, but for one: a blow of the
rollback fuses that the loss interrupts leaves the counter where a free number says (`cutBlow`, R470), so the statement, which keeps the fuses in
every case, holds exactly where that number, a constant without a body, is always 0 (`powerOnAndLoss_iff_freeNat_zero`). -/

namespace Sys2Proof

/-- The map with the entries of some keys alone. -/
theorem Smap.get_filter_key {α : Type} (d : α) (p : Nat → Bool) (m : Smap α) (k : Nat) :
    Smap.get d (m.filter fun e => p e.1) k = if p k then m.get d k else d := by
  induction m with
  | nil => simp [Smap.get]
  | cons e m ih =>
    obtain ⟨k', v⟩ := e
    by_cases hk : k' = k
    · subst hk
      by_cases hp : p k' = true
      · simp [hp, Smap.get]
      · simp [hp, ih]
    · by_cases hp : p k' = true
      · simp [hp, Smap.get, hk, ih]
      · simp [hp, Smap.get, hk, ih]

end Sys2Proof

namespace Sys2Proof.Machine

/-! ### Memory that is lost or cleared (R53, R332, R470) -/

theorem cellsGet_filter_addr (d : BitVec 8) (p : Nat → Bool) (cs : List Host.Cell) (a : Nat) :
    cellsGet d (cs.filter fun c => p c.1) a = if p a then cellsGet d cs a else d := by
  induction cs with
  | nil => simp [cellsGet]
  | cons c cs ih =>
    obtain ⟨a', b⟩ := c
    by_cases ha : a' = a
    · subst ha
      by_cases hp : p a' = true
      · simp [hp, cellsGet]
      · simp [hp, ih]
    · by_cases hp : p a' = true
      · simp [hp, cellsGet, ha, ih]
      · simp [hp, cellsGet, ha, ih]

/-- Beyond the near tier a byte that nothing lists reads 0 (log entry 9). -/
theorem Memory.blank_beyond_near (g : Nat) {a : Nat} (h : nearEnd ≤ a) : Memory.blank g a = 0 :=
  if_pos (.inr h)

theorem Memory.get_clear_outside (m : Memory) {a n x : Nat} (h : x < a ∨ a + n ≤ x) : (m.clear a n).get x = m.get x := by
  have hp : (decide (x < a) || decide (a + n ≤ x)) = true := by simpa using h
  rw [Memory.get, Memory.clear, cellsGet_filter_addr _ (fun x => decide (x < a) || decide (a + n ≤ x)), if_pos hp, Memory.get]

theorem Memory.get_clear_inside (m : Memory) {a n x : Nat} (h : a ≤ x ∧ x < a + n) : (m.clear a n).get x = Memory.blank m.gen x := by
  have hp : ¬ (decide (x < a) || decide (a + n ≤ x)) = true := by simp; omega
  rw [Memory.get, Memory.clear, cellsGet_filter_addr _ (fun x => decide (x < a) || decide (a + n ≤ x)), if_neg hp]

/-- A loss of the near tier's contents leaves what lies beyond it. -/
theorem Memory.get_loseNear_beyond (m : Memory) (g : Nat) {x : Nat} (h : nearEnd ≤ x) : (m.loseNear g).get x = m.get x := by
  rw [Memory.get, Memory.loseNear, cellsGet_filter_addr _ (fun x => decide (nearEnd ≤ x)), if_pos (by simpa using h), Memory.get,
    Memory.blank_beyond_near _ h, Memory.blank_beyond_near _ h]

/-! ### What is lost (R53, R469, R470) -/

theorem regVal_fresh (s : State) (keep : Nat → Bool) (o : Nat) :
    regVal (fresh s keep) o = if keep o then regVal s o else regReset o :=
  Smap.get_filter_key _ keep _ _

theorem peek_fresh_bank (s : State) (keep : Nat → Bool) {a : Nat} (h : 0xF00000000000 ≤ a ∧ a < 0xF00020000000) :
    peek (fresh s keep) a = 0 := by
  have hnear : nearEnd ≤ a := by unfold nearEnd; omega
  show ((s.mem.clear 0xF00000000000 0x20000000).loseNear s.free).get a = 0
  rw [Memory.get_loseNear_beyond _ _ hnear, Memory.get_clear_inside _ (by omega), Memory.blank_beyond_near _ hnear]

theorem fresh_bytesKept (s : State) (keep : Nat → Bool) : BytesKept s (fresh s keep) [(0, nearEnd), (0xF00000000000, 0x20000000)] := by
  intro a ha
  have hnear := ha (0, nearEnd) (by simp)
  have hbank := ha (0xF00000000000, 0x20000000) (by simp)
  simp only [inRange] at hnear hbank
  show ((s.mem.clear 0xF00000000000 0x20000000).loseNear s.free).get a = s.mem.get a
  rw [Memory.get_loseNear_beyond _ _ (by omega), Memory.get_clear_outside _ (by omega)]

/-- An interrupted blow of the rollback fuses changes the counter alone (R470). -/
theorem cutBlow_frame (s : State) : cutBlow s = { s with free := (cutBlow s).free, fuses := (cutBlow s).fuses } := by
  unfold cutBlow
  split
  · split <;> rfl
  · rfl

@[simp] theorem cutBlow_auxOn (s : State) : (cutBlow s).auxOn = s.auxOn := by rw [cutBlow_frame]

@[simp] theorem cutBlow_flash (s : State) : (cutBlow s).flash = s.flash := by rw [cutBlow_frame]

@[simp] theorem cutBlow_ckptFlash (s : State) : (cutBlow s).ckptFlash = s.ckptFlash := by rw [cutBlow_frame]

@[simp] theorem cutBlow_farPoison (s : State) : (cutBlow s).farPoison = s.farPoison := by rw [cutBlow_frame]

@[simp] theorem regVal_cutBlow (s : State) (o : Nat) : regVal (cutBlow s) o = regVal s o := by rw [cutBlow_frame]; rfl

@[simp] theorem peek_cutBlow (s : State) (a : Nat) : peek (cutBlow s) a = peek s a := by rw [cutBlow_frame]; rfl

/-- The cut blow leaves the counter as it was where the free number that it takes is 0. -/
theorem cutBlow_fuses_of_freeNat_zero {s : State} (h : Config.freeNat s.free = 0) : (cutBlow s).fuses = s.fuses := by
  unfold cutBlow
  split
  · split
    · simp [takeFree, h]
    · rfl
  · rfl

/-- What a loss takes and keeps, registers by a test of their offsets: the statement's own list. -/
def PowerLost (s : State) (keep : Nat → Bool) (t : State) : Prop :=
  (∀ o, o ≠ F.DEV_STATE_POWER.off → regVal t o = if keep o then regVal s o else regReset o) ∧
  BytesKept s t [(0, nearEnd), (0xF00000000000, 0x20000000)] ∧ (∀ a, 0xF00000000000 ≤ a → a < 0xF00020000000 → peek t a = 0) ∧
  t.flash = s.flash ∧ t.ckptFlash = s.ckptFlash ∧ t.fuses = s.fuses ∧ t.farPoison = s.farPoison ∧ t.mainOn = false ∧
  t.tickets = [] ∧ t.cores = [] ∧ t.disps = [] ∧ t.stash = [] ∧ t.kept = [] ∧ t.image = none ∧ t.links = [] ∧ t.colls = [] ∧
  t.ember = [] ∧ t.pend = []

/-- A state is lost that is `fresh` but for registers of power and the fields that the way of the loss sets. -/
theorem powerLost_of_fresh {s t : State} {keep : Nat → Bool} (hfuses : (cutBlow s).fuses = s.fuses)
    (hregs : ∀ o, o ≠ F.DEV_STATE_POWER.off → regVal t o = regVal (fresh (cutBlow s) keep) o)
    (hrest : t = { fresh (cutBlow s) keep with regs := t.regs, auxOn := t.auxOn, mainOn := false, thermTrip := t.thermTrip,
                                               pwrFault := t.pwrFault, mgmt := t.mgmt, tap := t.tap }) : PowerLost s keep t := by
  have hmem : t.mem = (fresh (cutBlow s) keep).mem := by rw [hrest]
  have hpeek : ∀ a, peek t a = peek (fresh (cutBlow s) keep) a := fun a => by rw [peek, hmem, peek]
  refine ⟨fun o ho => ?_, fun a ha => ?_, fun a h1 h2 => ?_, ?_, ?_, ?_, ?_, ?_⟩
  · rw [hregs o ho, regVal_fresh, regVal_cutBlow]
  · rw [hpeek, fresh_bytesKept (cutBlow s) keep a ha, peek_cutBlow]
  · rw [hpeek, peek_fresh_bank _ _ ⟨h1, h2⟩]
  · rw [hrest]
    exact cutBlow_flash s
  · rw [hrest]
    exact cutBlow_ckptFlash s
  · rw [hrest]
    exact hfuses
  · rw [hrest]
    exact cutBlow_farPoison s
  · rw [hrest]
    exact ⟨rfl, rfl, rfl, rfl, rfl, rfl, rfl, rfl, rfl, rfl, rfl⟩

/-! ### Power states (R469) -/

theorem power_eq_aux {s : State} (ha : s.auxOn = true) (hp : rd s F.DEV_STATE_POWER = 1) : s.power = .aux := by
  simp [State.power, ha, hp]

theorem power_eq_kindling {s : State} (ha : s.auxOn = true) (hp : rd s F.DEV_STATE_POWER = 2) : s.power = .kindling := by
  simp [State.power, ha, hp]

theorem auxOn_of_power {s : State} (h : s.power ≠ .off) : s.auxOn = true := by
  cases ha : s.auxOn
  · simp [State.power, ha] at h
  · rfl

theorem auxOn_of_mainPowered {s : State} (h : mainPowered s = true) : s.auxOn = true := by
  refine auxOn_of_power fun hoff => ?_
  simp [mainPowered, hoff] at h

/-! ### Power on -/

theorem auxTurnOn_starts {s : State} (h : s.auxOn = false) :
    ∃ t, exec .auxTurnOn s = .next t ∧ t.power = .aux ∧ t.mgmt = { s.mgmt with key := Config.mldsaKey s.fuses.seed } ∧
      rd t F.DEV_ID_STEPPING = s.fuses.stepping.toNat ∧ RegsKept s t [F.DEV_ID_STEPPING.off, F.DEV_STATE_POWER.off, F.MGT_ID_IANA.off] ∧
      t = { s with auxOn := true, regs := t.regs, mgmt := t.mgmt } := by
  refine ⟨_, show execAuxTurnOn s = _ from if_neg (by simp [h]), power_eq_aux rfl (rd_wr_same _ _ (by decide)), rfl, ?_, ?_, rfl⟩
  · rw [fixedRegs, rd_wr_off _ _ (by decide), rd_wr_off _ _ (by decide), rd_wr_same _ _ (by decide)]
    exact Nat.mod_eq_of_lt s.fuses.stepping.isLt
  · exact (((RegsKept.refl s _).wr (by decide) _).wr (by decide) _).wr (by decide) _

/-- KINDLING is entered: stage 0x01 shows, TWIN_PRESENT follows its pin, and supervisor cores 0 to 2 run. -/
def kindlingEntered (s : State) (scanHold : Bool) : State :=
  let u := wr (wr { s with mainOn := true, scanHold := scanHold, slotOvr := none, rekindle := 0 } F.DEV_STATE_POWER 2) F.KDL_STATUS_STAGE 1
  each (List.range 3) (wr u F.GRT_STATE_TWIN_PRESENT (if s.twinIn then 1 else 0)) fun s n => wr s (F.SAWL_STATE_STATE n) awlRUNNING

theorem each_wr_frame {α : Type} (xs : List α) (s : State) (f : α → Fld) (v : α → Nat) :
    (each xs s fun s x => wr s (f x) (v x)) = { s with regs := (each xs s fun s x => wr s (f x) (v x)).regs } := by
  induction xs generalizing s with
  | nil => rfl
  | cons x xs ih => exact ih (wr s (f x) (v x))

theorem kindlingEntered_frame (s : State) (scanHold : Bool) : kindlingEntered s scanHold =
    { s with mainOn := true, scanHold := scanHold, slotOvr := none, rekindle := 0, regs := (kindlingEntered s scanHold).regs } :=
  each_wr_frame _ _ _ _

theorem rd_kindlingEntered_core (s : State) (scanHold : Bool) {n : Nat} (hn : n < 3) :
    rd (kindlingEntered s scanHold) (F.SAWL_STATE_STATE n) = awlRUNNING := by
  show rd (wr (wr (wr _ (F.SAWL_STATE_STATE 0) _) (F.SAWL_STATE_STATE 1) _) (F.SAWL_STATE_STATE 2) _) _ = _
  match n, hn with
  | 0, _ => rw [rd_wr_off _ _ (by decide), rd_wr_off _ _ (by decide), rd_wr_same _ _ (by decide)]; rfl
  | 1, _ => rw [rd_wr_off _ _ (by decide), rd_wr_same _ _ (by decide)]; rfl
  | 2, _ => rw [rd_wr_same _ _ (by decide)]; rfl

/-- The registers other than those of the cores. -/
theorem rd_kindlingEntered (s : State) (scanHold : Bool) {f : Fld} (h : ∀ n, n < 3 → (F.SAWL_STATE_STATE n).off ≠ f.off) :
    rd (kindlingEntered s scanHold) f =
      rd (wr (wr (wr { s with mainOn := true, scanHold := scanHold, slotOvr := none, rekindle := 0 } F.DEV_STATE_POWER 2) F.KDL_STATUS_STAGE 1)
        F.GRT_STATE_TWIN_PRESENT (if s.twinIn then 1 else 0)) f := by
  show rd (wr (wr (wr _ (F.SAWL_STATE_STATE 0) _) (F.SAWL_STATE_STATE 1) _) (F.SAWL_STATE_STATE 2) _) _ = _
  rw [rd_wr_off _ _ (h 2 (by decide)), rd_wr_off _ _ (h 1 (by decide)), rd_wr_off _ _ (h 0 (by decide))]

theorem rd_kindlingEntered_power (s : State) (scanHold : Bool) : rd (kindlingEntered s scanHold) F.DEV_STATE_POWER = 2 := by
  rw [rd_kindlingEntered _ _ (by decide), rd_wr_off _ _ (by decide), rd_wr_off _ _ (by decide), rd_wr_same _ _ (by decide)]
  rfl

theorem rd_kindlingEntered_stage (s : State) (scanHold : Bool) : rd (kindlingEntered s scanHold) F.KDL_STATUS_STAGE = 1 := by
  rw [rd_kindlingEntered _ _ (by decide), rd_wr_off _ _ (by decide), rd_wr_same _ _ (by decide)]
  rfl

theorem rd_kindlingEntered_twin (s : State) (scanHold : Bool) :
    rd (kindlingEntered s scanHold) F.GRT_STATE_TWIN_PRESENT = if s.twinIn then 1 else 0 := by
  rw [rd_kindlingEntered _ _ (by decide), rd_wr_same _ _ (by decide)]
  cases s.twinIn <;> rfl

theorem mainInputValid_enters {s : State} (scanHold fuseOk : Bool) (hp : s.power = .aux) (ht : s.thermTrip = false) (hf : s.pwrFault = false) :
    ∃ u, exec (.mainInputValid scanHold fuseOk) s = .next (if scanHold then u else kindle u fuseOk) ∧
      u.power = .kindling ∧ rd u F.KDL_STATUS_STAGE = 1 ∧ rd u F.GRT_STATE_TWIN_PRESENT = (if s.twinIn then 1 else 0) ∧
      (∀ n, n < 3 → rd u (F.SAWL_STATE_STATE n) = awlRUNNING) ∧
      u = { s with mainOn := true, scanHold := scanHold, slotOvr := none, rekindle := 0, regs := u.regs } := by
  have ha : s.auxOn = true := auxOn_of_power (by simp [hp])
  refine ⟨kindlingEntered s scanHold, show execMainInputValid scanHold fuseOk s = _ from if_neg (by simp [hp, ht, hf]),
    power_eq_kindling (s := kindlingEntered s scanHold) ha (rd_kindlingEntered_power s scanHold), rd_kindlingEntered_stage s scanHold,
    rd_kindlingEntered_twin s scanHold, fun n => rd_kindlingEntered_core s scanHold, kindlingEntered_frame s scanHold⟩

theorem mainInputValid_ignored {s : State} (scanHold fuseOk : Bool) (h : s.power ≠ .aux ∨ s.thermTrip = true ∨ s.pwrFault = true) :
    exec (.mainInputValid scanHold fuseOk) s = .next s :=
  show execMainInputValid scanHold fuseOk s = _ from if_pos (by simpa [or_assoc] using h)

/-! ### Loss of power -/

theorem power_enterAux {s : State} (h : s.auxOn = true) : (enterAux s).power = .aux := by
  refine power_eq_aux ?_ (rd_wr_same _ _ (by decide))
  exact (cutBlow_auxOn s).trans h

theorem auxTurnOff_loses {s : State} (h : s.auxOn = true) (hf : (cutBlow s).fuses = s.fuses) :
    ∃ t, exec .auxTurnOff s = .next t ∧ t.power = .off ∧ PowerLost s (fun _ => false) t ∧
      regVal t F.DEV_STATE_POWER.off = regReset F.DEV_STATE_POWER.off ∧ t.tap = State.reset.tap ∧ t.mgmt = State.reset.mgmt ∧
      t.thermTrip = false ∧ t.pwrFault = false :=
  ⟨_, show execAuxTurnOff s = _ from if_neg (by simp [h]), rfl, powerLost_of_fresh hf (fun _ _ => rfl) rfl,
    regVal_fresh (cutBlow s) (fun _ => false) _, rfl, rfl, rfl, rfl⟩

/-- Loss of main power by a command that runs `enterAux` and drives the trip pins as given. -/
theorem mainPower_lost {s t : State} {i : Instr} {therm fault : Bool} (ha : s.auxOn = true) (hf : (cutBlow s).fuses = s.fuses)
    (he : exec i s = .next t) (ht : t = { enterAux s with thermTrip := therm, pwrFault := fault }) :
    ∃ t, exec i s = .next t ∧ t.power = .aux ∧ PowerLost s auxRegs t ∧ t.thermTrip = therm ∧ t.pwrFault = fault ∧ t.tap = s.tap ∧
      t.mgmt.key = s.mgmt.key ∧ t.mgmt.kindled = false := by
  subst ht
  refine ⟨_, he, power_enterAux ha, powerLost_of_fresh hf (fun _ ho => regVal_setReg_ne _ _ ho.symm) rfl, rfl, rfl, ?_, ?_, rfl⟩
  · show (cutBlow s).tap = s.tap
    rw [cutBlow_frame]
  · show (cutBlow s).mgmt.key = s.mgmt.key
    rw [cutBlow_frame]

/-- The pins stand as they were after a loss of the input. -/
theorem enterAux_pins (s : State) : enterAux s = { enterAux s with thermTrip := s.thermTrip, pwrFault := s.pwrFault } := by
  have htherm : (enterAux s).thermTrip = s.thermTrip := by show (cutBlow s).thermTrip = s.thermTrip; rw [cutBlow_frame]
  have hfault : (enterAux s).pwrFault = s.pwrFault := by show (cutBlow s).pwrFault = s.pwrFault; rw [cutBlow_frame]
  rw [← htherm, ← hfault]

/-! ### The statement and the interrupted blow -/

/-- Where no cut blow moves the counter, the statement holds. -/
theorem powerOnAndLoss_of_freeNat_zero (hz : ∀ n, Config.freeNat n = 0) : Obligations.PowerOnAndLoss := by
  refine ⟨fun s => ⟨auxTurnOn_starts, mainInputValid_enters, mainInputValid_ignored⟩, fun s => ?_⟩
  have hf : (cutBlow s).fuses = s.fuses := cutBlow_fuses_of_freeNat_zero (hz s.free)
  refine ⟨fun h => ?_, fun h => ?_, fun h => ?_, fun h => ?_, fun h => ?_, fun h => auxTurnOff_loses h hf⟩
  · exact mainPower_lost (auxOn_of_mainPowered h) hf (show execMainInputInvalid s = _ from if_pos h) (enterAux_pins s)
  · refine mainPower_lost (auxOn_of_mainPowered h) hf (show execThermalTrip s = _ from if_pos h) ?_
    rw [enterAux_pins]
  · refine mainPower_lost (auxOn_of_mainPowered h) hf (show execRegulatorTrip s = _ from if_pos h) ?_
    rw [enterAux_pins]
  · have hoff : ¬ mainPowered s = true := by simp [h]
    exact ⟨show execMainInputInvalid s = _ from if_neg hoff, show execThermalTrip s = _ from if_neg hoff,
      show execRegulatorTrip s = _ from if_neg hoff⟩
  · exact show execTripRelease s = _ from if_pos h

/-- An image that advances the rollback fuses to r. -/
def advancingImage (r : Nat) : Image :=
  { slot := 0, rollback := r, keyIndex := 0, advance := true, buildId := 0, digest := [], progs := [], codeSecs := [], roSecs := [] }

/-- The block in stage 0x0D with its rollback fuses on their way from 0 to r, at free number n. -/
def blowing (r n : Nat) : State :=
  { wr (wr State.reset F.DEV_STATE_POWER 2) F.KDL_STATUS_STAGE 0xD with auxOn := true, free := n, image := some (advancingImage r) }

theorem power_blowing (r n : Nat) : (blowing r n).power = .kindling := by
  refine power_eq_kindling rfl ?_
  show rd (wr (wr State.reset F.DEV_STATE_POWER 2) F.KDL_STATUS_STAGE 0xD) F.DEV_STATE_POWER = 2
  rw [rd_wr_off _ _ (by decide), rd_wr_same _ _ (by decide)]
  rfl

theorem rd_blowing_stage (r n : Nat) : rd (blowing r n) F.KDL_STATUS_STAGE = 0xD := by
  show rd (wr (wr State.reset F.DEV_STATE_POWER 2) F.KDL_STATUS_STAGE 0xD) F.KDL_STATUS_STAGE = 0xD
  rw [rd_wr_same _ _ (by decide)]
  rfl

/-- The interrupted blow leaves the counter at the free number, where that does not pass r (R470). -/
theorem counter_cutBlow_blowing {r n : Nat} (h : Config.freeNat n < r) : (cutBlow (blowing r n)).fuses.counter = Config.freeNat n := by
  have hb : blows (blowing r n) (advancingImage r) = true := by
    have hr : 0 < r := by omega
    exact decide_eq_true hr
  have himage : (blowing r n).image = some (advancingImage r) := rfl
  rw [cutBlow, himage]
  dsimp only
  rw [if_pos ⟨power_blowing r n, rd_blowing_stage r n, hb⟩]
  show 0 + Config.freeNat n % (r - 0 + 1) = Config.freeNat n
  rw [Nat.zero_add]
  exact Nat.mod_eq_of_lt (by omega)

/-- The statement holds exactly where the free number that an interrupted blow takes is always 0. That number is a constant without a body, of
which no value can be proved: neither the statement nor its negation has a proof. -/
theorem powerOnAndLoss_iff_freeNat_zero : Obligations.PowerOnAndLoss ↔ ∀ n, Config.freeNat n = 0 := by
  refine ⟨fun h n => ?_, powerOnAndLoss_of_freeNat_zero⟩
  have hlt : Config.freeNat n < Config.freeNat n + 1 := Nat.lt_succ_self _
  have hon : mainPowered (blowing (Config.freeNat n + 1) n) = true := by simp [mainPowered, power_blowing]
  obtain ⟨_, hloss⟩ := h
  obtain ⟨hinput, _⟩ := hloss (blowing (Config.freeNat n + 1) n)
  obtain ⟨t, ht, _, ⟨_, _, _, _, _, hfuses, _⟩, _⟩ := hinput hon
  cases (show execMainInputInvalid _ = _ from if_pos hon).symm.trans ht
  have hcut : (cutBlow (blowing (Config.freeNat n + 1) n)).fuses = (blowing (Config.freeNat n + 1) n).fuses := hfuses
  rw [← counter_cutBlow_blowing hlt, hcut]
  rfl

end Sys2Proof.Machine
end

section
/-! SUPPORT. Stage 0x0C shows the image's ROLLBACK in the 32 bits of KDL_IMAGE [31:0], so a ROLLBACK beyond 16 bits is shown whole. -/

namespace Sys2Proof.Machine

-- The evaluations below run one after another: side by side each takes a thread, and with the whole text their stacks exceed the memory limit.
set_option Elab.async false

/-- An image in slot 0 whose ROLLBACK needs 17 bits. -/
def wideImage : Image :=
  { slot := 0, rollback := 2 ^ 16, keyIndex := 0, advance := false, buildId := 0, digest := [], progs := [], codeSecs := [], roSecs := [] }

/-- The block after reset with that image taken; its header in the flash counts no sections. -/
def wideState : State := { State.reset with image := some wideImage, flash := [(0x20, 0), (0x21, 0)] }

theorem rd_applyImage_wide : rd (applyImage (wr wideState F.KDL_STATUS_STAGE 0xC) wideImage) F.KDL_IMAGE_ROLLBACK = 2 ^ 16 := by
  decide +kernel

/-- Refutes O19. KDL_IMAGE.ROLLBACK is 32 bits wide, so of `wideImage` it shows 65,536, where the statement says ROLLBACK modulo 2^16, which is 0. -/
theorem not_kindlingStages : ¬ Obligations.KindlingStages := by
  intro h
  obtain ⟨_, _, _, _, _, _, _, _, himage, _⟩ := h wideState
  obtain ⟨_, _, _, hroll, _⟩ := himage wideImage rfl
  rw [rd_applyImage_wide] at hroll
  exact absurd hroll (by decide)

end Sys2Proof.Machine
end

section
/-! SUPPORT. DEV_CANCEL (R52, R442): what it answers, and what it makes of the ticket that it names. -/

namespace Sys2Proof.Machine

/-- What DEV_CANCEL makes of the ticket that it names: the first cancel fixes what its record will show. -/
def cancelMark (t : Ticket) : Ticket :=
  if t.cancelling then t else { t with cancelling := true, status := Code.CANCELLED, faultSeq := 0, faultHearth := 0xFF }

/-- The state once DEV_CANCEL has marked the ticket of a key. -/
def cancelMarked (s : State) (key : Nat) : State := updTicket (wr s F.DEV_CANCEL_RESULT 1) key cancelMark

theorem stopActive_cancelMarked (s : State) (key : Nat) : stopActive (cancelMarked s key) = stopActive s := by
  have hrd : rd (cancelMarked s key) F.MGT_STOP_STATE_STATE = rd s F.MGT_STOP_STATE_STATE := rd_wr_off s 1 (by decide)
  rw [stopActive, hrd, stopActive]

theorem exec_cancelTicket_lead {src : Src} {s : State} (n : BitVec 48) (hs : served s src = true) (hl : isLead s src = true) :
    exec (.cancelTicket src n) s = .next (cancelTicket s n.toNat) := by
  show execCancelTicket src n s = _
  simp [execCancelTicket, hs, hl]

theorem cancelTicket_unknown {s : State} {num : Nat} (h : ∀ t ∈ s.tickets, t.num ≠ num) :
    cancelTicket s num = wr s F.DEV_CANCEL_RESULT 2 := by
  have hnone : s.tickets.find? (·.num == num) = none := List.find?_eq_none.mpr fun t ht => by simpa using h t ht
  rw [cancelTicket, hnone]

theorem cancelTicket_found {s : State} {num : Nat} {x : Ticket} (h : s.tickets.find? (·.num == num) = some x) :
    cancelTicket s num = if stopActive s then cancelMarked s x.key else finishCancel (cancelMarked s x.key) x.key := by
  rw [← stopActive_cancelMarked s x.key, cancelTicket, h]
  rfl

/-- Settles O23: `cancelTicket` by whether a ticket carries the number, and then by whether a stop is active. -/
theorem cancellingTickets : Obligations.CancellingTickets := by
  intro src n s hs hl
  refine ⟨fun h => ?_, fun x hx _ => ?_⟩
  · refine ⟨_, (exec_cancelTicket_lead n hs hl).trans (congrArg _ (cancelTicket_unknown h)), rd_wr_same _ _ (by decide), ?_, rfl⟩
    exact (RegsKept.refl s _).wr (List.mem_singleton_self _) 2
  · refine ⟨cancelMarked s x.key, rfl, rd_wr_same _ _ (by decide), ?_,
      (exec_cancelTicket_lead n hs hl).trans (congrArg _ (cancelTicket_found hx))⟩
    exact (RegsKept.refl s _).wr (List.mem_singleton_self _) 1

end Sys2Proof.Machine
end

section
/-! SUPPORT. An UPDATE of a record in whose member set this module does not stand (R279, R297). Of such a record `paramBad` judges no extent of a
shard, so a first moment of the other slot may have rank 0 and no bytes; the UPDATE still stores the element's moment at its BASE. -/

namespace Sys2Proof.Machine

-- The evaluations below run one after another: side by side each takes a thread, and with the whole text their stacks exceed the memory limit.
set_option Elab.async false

/-! ### A record of one element whose other slot holds a first moment of rank 0 -/

/-- A 1 × 1 tensor's descriptor at address a, as fields (address, width, value): BASE, FORMAT and, where it has one, its shape (Table 6-5). -/
def oneElementDesc (a base fmt es : Nat) : List (Nat × Nat × Nat) :=
  [(a, 8, base), (a + 8, 1, fmt), (a + 9, 1, 2), (a + 0x10, 4, 1), (a + 0x14, 4, 1), (a + 0x28, 8, es)]

/-- The record at 0x60000 (Table 11-1), with FIRST 1, so that module 0 is no member; its descriptors, those of the first moment of slot B without
a shape; a momentum optimiser record (Table 11-7); and the master, the moment of slot A and the gradient: 1.0, 2.0 and 3.0. -/
def strayFields : List (Nat × Nat × Nat) :=
  [(0x60000, 8, 0x61000), (0x60008, 8, 0x61080), (0x60010, 8, 0x61100), (0x60018, 8, 0x61180), (0x60030, 8, 0x61200), (0x60038, 8, 0x61280),
    (0x60050, 8, 0x61300), (0x60058, 8, 0x61380), (0x60060, 4, 1), (0x60064, 4, 1), (0x60068, 2, 1), (0x6006A, 2, 1), (0x6006C, 2, 1)] ++
  oneElementDesc 0x61000 0x62000 0x12 4 ++ oneElementDesc 0x61080 0x62100 0x12 4 ++ oneElementDesc 0x61100 0x62200 0x12 4 ++
  [(0x61180, 8, 0x62300), (0x61188, 1, 0x12)] ++ oneElementDesc 0x61200 0x62400 0x11 2 ++ oneElementDesc 0x61280 0x62500 0x11 2 ++
  oneElementDesc 0x61300 0x62600 0x12 4 ++
  [(0x61380, 1, 3), (0x61381, 1, 0x12), (0x61384, 4, 0x3F000000), (0x61388, 4, 0x3F000000), (0x61398, 4, 0x3F800000)] ++
  [(0x62000, 4, 0x3F800000), (0x62200, 4, 0x40000000), (0x62600, 4, 0x40400000)]

/-- The UPDATE of that record, granted. -/
def strayCmd : Cmd :=
  { seq := 0, ticket := 0, pos := 0, step := 0, raw := 0x39 :: zeros 15 ++ leBytes 8 0x60000 ++ zeros 40, recompute := false, chain := none, st := .granted,
    pops := [], inc := 0, kind := 0, waited := false, flags := 0, fail := 0, amax := 0, dom := 0, stat := 0, phase := 0, tiles := [], geom := [],
    statRow := 0, views := [], stage := [], placed := false, slots := [], noted := 0 }

/-- The block in RUN with every function in RUN, that record in the near tier and the UPDATE in hearth 0's window. -/
def strayState : State :=
  let on : State := { State.reset with auxOn := true, mainOn := true, disps := [(0, { Disp.blank with cmds := [strayCmd] })] }
  strayFields.foldr (fun x s => poke s x.1 (leBytes x.2.1 x.2.2)) (wr (setReg (setReg on 0x48 0) 0x50 0) F.DEV_STATE_POWER 3)

/-! ### The states that the requests of its UPDATE leave -/

/-- The slot that the UPDATE writes. -/
def strayOther : Nat := recOther strayState (upRecord strayCmd)

/-- Whose requests they are. -/
def strayId : Option CmdId := some (cmdId strayState 0 strayCmd)

/-- The destinations in the optimiser's state. -/
def strayOuts : List Desc := [recMaster strayState (upRecord strayCmd) strayOther, recM1 strayState (upRecord strayCmd) strayOther]

/-- The destination in the working copy. -/
def strayWork : Desc := recWork strayState (upRecord strayCmd) strayOther

/-- The operands: the gradient, the master and the first moment of the live slot. -/
def strayReads : List Desc :=
  [recGshard strayState (upRecord strayCmd), recMaster strayState (upRecord strayCmd) (recLive strayState (upRecord strayCmd)),
    recM1 strayState (upRecord strayCmd) (recLive strayState (upRecord strayCmd))]

/-- The position that the UPDATE takes: 0, where this module has none. -/
def strayPos : Nat :=
  (positionIn strayState (recFirst strayState (upRecord strayCmd)) (recCount strayState (upRecord strayCmd))
    (recStride strayState (upRecord strayCmd))).getD 0

/-- The bytes that the UPDATE asks to write. -/
def strayWrites : List (Nat × Nat) :=
  recState (upRecord strayCmd) :: strayOuts.flatMap Desc.ranges ++
    shardRanges strayState (upRecord strayCmd) strayWork (bit (recLayout strayState (upRecord strayCmd)) 0) strayPos

/-- The record's state has been read. -/
def strayLooked : State := (touchRanges strayState (idDisp 0) false strayId [recState (upRecord strayCmd)]).1

/-- The optimiser record has been read. -/
def strayOptRead : State := (memRead strayLooked (idDisp 0) (recPtr strayState (upRecord strayCmd) 0x58) 64 strayId).1

/-- The operands have been read. -/
def strayRead : State := (readTensors strayOptRead 0 strayCmd strayReads).1

/-- The destinations' scale records, of which there are none, have been reached. -/
def strayScales : State :=
  (touchRanges strayRead (idDisp 0) true strayId ((strayOuts ++ [strayWork]).flatMap fun d => recRanges d true)).1

/-- Every request of the UPDATE has been made. -/
def strayWritten : State := (writeRanges strayScales 0 strayCmd strayWrites).1

theorem eq_mk_of_snd {α β : Type} {p : α × β} {b : β} (h : p.2 = b) : p = (p.1, b) := Prod.ext rfl h

/-! ### The statement's hypotheses -/

theorem stray_runs : Runs 0 0 0x39 strayCmd strayState := by
  constructor <;> decide +kernel

theorem stray_inv : Inv strayState := by
  have hwf : strayState.mem.wf = true := by decide +kernel
  exact hwf

theorem stray_looks : upRecord strayCmd < nearEnd ∧
    dieTakes strayState ((upRecord strayCmd, 768) :: (recMaster strayState (upRecord strayCmd) strayOther).ranges) = true ∧
    touchRanges strayState (idDisp 0) false strayId [recState (upRecord strayCmd)] = (strayLooked, .ok ()) :=
  ⟨by decide +kernel, by decide +kernel, eq_mk_of_snd (by decide +kernel)⟩

theorem stray_free : recPend strayState (upRecord strayCmd) ≠ 1 ∧ recHold strayState (upRecord strayCmd) strayOther = 0 := by
  decide +kernel

theorem stray_record : paramBad strayState (upRecord strayCmd) = false ∧ strayState.symErr = [] ∧ recPtr strayState (upRecord strayCmd) 0x20 = 0 ∧
    recHasFwd strayState (upRecord strayCmd) = false := by
  decide +kernel

/-- The record, the optimiser record, the descriptors and the tensors. -/
def strayNear : List (Nat × Nat) :=
  let r := upRecord strayCmd
  (r, 768) :: (recPtr strayState r 0x58, 64) :: [0x00, 0x08, 0x10, 0x18, 0x30, 0x38, 0x50].map (fun o => (recPtr strayState r o, 128)) ++
    [recMaster strayState r 0, recMaster strayState r 1, recM1 strayState r 0, recM1 strayState r 1, recWork strayState r 0, recWork strayState r 1,
      recGshard strayState r].flatMap Desc.ranges

theorem stray_near : strayNear.Pairwise (fun x y => x.1 + x.2 ≤ y.1 ∨ y.1 + y.2 ≤ x.1) ∧ ∀ x ∈ strayNear, x.1 + x.2 ≤ nearEnd := by
  decide +kernel

theorem stray_tensors : (recMaster strayState (upRecord strayCmd) strayOther).indices = [[0, 0]] ∧
    (recM1 strayState (upRecord strayCmd) (recLive strayState (upRecord strayCmd))).format = some .fp32 ∧
    ∀ d ∈ strayOuts ++ [strayWork], d.scalePtr = 0 := by
  decide +kernel

/-- The bytes of the optimiser record. -/
def strayOpt : Bytes := peekBytes strayState 0x61380 64

theorem stray_optRead : memRead strayLooked (idDisp 0) (recPtr strayState (upRecord strayCmd) 0x58) 64 strayId = (strayOptRead, .ok strayOpt) :=
  eq_mk_of_snd (by decide +kernel)

theorem stray_opt : optBad strayOpt false 0x12 = false := by
  decide +kernel

theorem stray_read : readTensors strayOptRead 0 strayCmd strayReads = (strayRead, .ok ()) :=
  eq_mk_of_snd (by decide +kernel)

theorem stray_scales :
    touchRanges strayRead (idDisp 0) true strayId ((strayOuts ++ [strayWork]).flatMap fun d => recRanges d true) = (strayScales, .ok ()) :=
  eq_mk_of_snd (by decide +kernel)

theorem stray_written : writeRanges strayScales 0 strayCmd strayWrites = (strayWritten, .ok []) :=
  eq_mk_of_snd (by decide +kernel)

/-! ### What the statement promises, and what the UPDATE does -/

/-- The byte that the statement speaks of: the third of the element at the BASE of slot B's first moment. -/
def strayByte : Res → BitVec 8
  | .next t => peek t 0x62302
  | _ => 0

/-- The moment 0.5 × 2.0 + 3.0 = 4.0, 0x40800000 in FP32, is stored there. -/
theorem strayByte_written : strayByte (exec (.update 0 0) strayState) = 0x80 := by
  decide +kernel

theorem strayByte_before : peek strayState 0x62302 = 0 := by
  decide +kernel

/-- The ranges outside which the statement keeps every byte. -/
def strayMayChange : List (Nat × Nat) :=
  let r := upRecord strayCmd
  let k := recOther strayState r
  [(r + 0x71, 1), (r + 0x78 + 4 * k, 4), (r + 0x80 + 8 * k, 8), (r + 0x90 + 4 * k, 4)] ++
    [recMaster strayState r k, recM1 strayState r k, recWork strayState r k].flatMap Desc.ranges

theorem strayByte_outside : ∀ x ∈ strayMayChange, ¬ inRange 0x62302 x := by
  unfold inRange
  decide +kernel

/-- Refutes O51. In `strayState` module 0 is no member of the record's set, and the first moment of slot B has rank 0 and so no byte ranges, which
`paramBad` lets pass. The UPDATE stores the new moment at that descriptor's BASE all the same, outside the bytes that the statement lets change. -/
theorem not_updates : ¬ Obligations.Updates := by
  intro h
  obtain ⟨_, _, _, _, hrun, _⟩ := h 0 0 strayCmd strayOpt false strayState strayLooked strayOptRead strayRead
  obtain ⟨hpend, hhold⟩ := stray_free
  obtain ⟨hparam, hsym, hm2, hfwd⟩ := stray_record
  obtain ⟨hapart, hbelow⟩ := stray_near
  obtain ⟨hone, hfmt, hscale⟩ := stray_tensors
  obtain ⟨t, ht, _, _, _, _, _, _, _, _, _, _, hkept⟩ := hrun strayScales strayWritten stray_runs stray_inv stray_looks hpend hhold hparam hsym hm2
    hfwd hapart hbelow hone hfmt hscale stray_optRead stray_opt stray_read stray_scales stray_written
  have hframe : BytesKept strayState t strayMayChange := hkept
  have hsame : peek t 0x62302 = peek strayState 0x62302 := hframe 0x62302 strayByte_outside
  have hnew : strayByte (.next t) = 0x80 := by
    have hexec : exec (.update 0 0) strayState = .next t := ht
    rw [← hexec, strayByte_written]
  have hzero : strayByte (.next t) = 0 := hsame.trans strayByte_before
  rw [hzero] at hnew
  exact absurd hnew (by decide)

end Sys2Proof.Machine
end

section
/-! SUPPORT. The management endpoint (R411, R425, R446 to R450), image update (R28, R448) and the boundary scan (R473, R475), message by
message. -/

namespace Sys2Proof.Machine

theorem mgmtRow_powered {s : State} (f : State → State) (h : s.auxOn = true) : mgmtRow s f = .next (f s) :=
  congrArg _ (if_pos h)

theorem tapRow_powered {s : State} (f : State → State) (h : s.auxOn = true) : tapRow s f = .next (f s) :=
  congrArg _ (if_pos h)

/-! ### MCTP and PLDM monitoring (R446, R447) -/

theorem entdaa_assigns {s : State} (addr : BitVec 7) (h : s.auxOn = true) :
    ∃ t, exec (.entdaa addr) s = .next t ∧ rd t F.MGT_I3C_DYN_ADDR = addr.toNat ∧ rd t F.MGT_I3C_ADDR_VALID = 1 ∧
      rd t F.MGT_I3C_EID = rd s F.MGT_I3C_EID ∧ RegsKept s t [F.MGT_I3C_DYN_ADDR.off] ∧ t = { s with regs := t.regs } := by
  refine ⟨_, show execEntdaa addr s = _ from mgmtRow_powered _ h, ?_, rd_wr_same _ _ (by decide), ?_, ?_, rfl⟩
  · rw [rd_wr_ne _ _ (by decide) (by decide), rd_wr_same _ _ (by decide)]
    exact Nat.mod_eq_of_lt addr.isLt
  · rw [rd_wr_ne _ _ (by decide) (by decide), rd_wr_ne _ _ (by decide) (by decide)]
  · exact ((RegsKept.refl s _).wr (by decide) _).wr (by decide) _

theorem setEndpointId_assigns {s : State} (eid : BitVec 8) (h : s.auxOn = true) :
    ∃ t, exec (.setEndpointId eid) s = .next t ∧ rd t F.MGT_I3C_EID = eid.toNat ∧
      rd t F.MGT_I3C_DYN_ADDR = rd s F.MGT_I3C_DYN_ADDR ∧ RegsKept s t [F.MGT_I3C_EID.off] ∧ t = { s with regs := t.regs } := by
  refine ⟨_, show execSetEndpointId eid s = _ from mgmtRow_powered _ h, ?_, rd_wr_ne _ _ (by decide) (by decide),
    (RegsKept.refl s _).wr (by decide) _, rfl⟩
  rw [rd_wr_same _ _ (by decide)]
  exact Nat.mod_eq_of_lt eid.isLt

theorem mctpControlMessage_replies {s : State} (m : Bytes) (h : s.auxOn = true) :
    exec (.mctpControlMessage m) s = .next (emit s (.reply (Config.mctpReply m
      ([BitVec.ofNat 8 (rd s F.MGT_I3C_EID), 0x00, 0x01, 0x05, 0x7F] ++ leBytes 4 (rd s F.MGT_ID_IANA))))) :=
  show execMctpControlMessage m s = _ from mgmtRow_powered _ h

theorem pldmMonitorRequest_refused {s : State} {m : Bytes} (h : s.auxOn = true) (hc : changesSensor m = true) :
    exec (.pldmMonitorRequest m) s =
      .next (emit s (.reply (leBytes 1 (field m 0 1 % 128) ++ (m.drop 1).take 2 ++ [0x05]))) := by
  refine (show execPldmMonitorRequest m s = _ from mgmtRow_powered _ h).trans ?_
  rw [if_pos hc]

theorem pldmMonitorRequest_answered {s : State} {m : Bytes} (h : s.auxOn = true) (hc : changesSensor m = false) :
    exec (.pldmMonitorRequest m) s = .next (emit s (.reply (Config.pldmReply m (sensors s)))) := by
  refine (show execPldmMonitorRequest m s = _ from mgmtRow_powered _ h).trans ?_
  rw [if_neg (by simp [hc])]

/-! ### Unit reports (R425, R450) -/

theorem unitReport_reserved {s : State} {f : BitVec 8} (h : s.auxOn = true) (hf : isFunc f.toNat = false) :
    exec (.unitReport f) s = .next (emit s (.reply (1 :: f :: zeros 14))) := by
  refine (show execUnitReport f s = _ from mgmtRow_powered _ h).trans ?_
  simp [hf]

theorem unitReport_noDataPath {s : State} {f : BitVec 8} (h : s.auxOn = true) (hf : isFunc f.toNat = true)
    (hp : s.power = .aux ∨ s.power = .kindling) : exec (.unitReport f) s = .next (emit s (.reply (2 :: f :: zeros 14))) := by
  refine (show execUnitReport f s = _ from mgmtRow_powered _ h).trans ?_
  simp [hf, hp]

/-- The answer from a report that the data path has posted. -/
theorem unitReport_posted {s : State} {f : BitVec 8} {st gen code : Nat} (h : s.auxOn = true) (hf : isFunc f.toNat = true)
    (hp : s.power = .run ∨ s.power = .stopped) (hr : s.mgmt.reports.find? f.toNat = some (st, gen, code)) :
    exec (.unitReport f) s = .next (emit s (.reply (
      let old := stale s f.toNat (st, gen, code)
      [0, f] ++ leBytes 1 st ++ [if old then 1 else 0] ++ leBytes 4 gen ++ leBytes 4 (rd s F.DEV_COMMIT_GEN_GEN) ++
        leBytes 2 (if old then Code.STALE else 0) ++ leBytes 2 code))) := by
  refine (show execUnitReport f s = _ from mgmtRow_powered _ h).trans ?_
  have hr' : (reportOf s f.toNat).getD (0, 0, 0) = (st, gen, code) := by rw [reportOf, hr]; rfl
  rcases hp with hp | hp <;> simp [hf, hp, hr']

/-- A report is stale exactly where the function's state or the generation has moved on (R425). -/
theorem stale_eq_false_iff (s : State) (f st gen code : Nat) :
    stale s f (st, gen, code) = false ↔ st = fnState s f ∧ gen = rd s F.DEV_COMMIT_GEN_GEN := by
  simp [stale]

/-! ### SPDM (R449) -/

/-- The state after an SPDM exchange from transcript `start`: message and answer have entered the transcript, and a signed answer carries
the signature over the transcript's hash. -/
def spdmDone (s : State) (m start : Bytes) (neg : Bool) (content : Bytes) (sign : Bool) : State :=
  let body := Config.spdmReply m content
  let tr := start ++ m ++ body
  { s with mgmt := { s.mgmt with transcript := tr, negotiated := neg },
           out := s.out ++ [.reply (if sign then body ++ Config.mldsaSign s.mgmt.key (Config.shake256 tr 64) else body)] }

theorem spdmRow_done {s : State} {m : Bytes} {needs sign : Bool} (content : State → Bytes) (h : s.auxOn = true)
    (hn : needs = false ∨ s.mgmt.negotiated = true) :
    spdmRow s m needs content sign = .next (spdmDone s m s.mgmt.transcript s.mgmt.negotiated (content s) sign) := by
  refine (mgmtRow_powered _ h).trans ?_
  rw [if_neg (by rcases hn with hn | hn <;> simp [hn])]
  rfl

/-- Before the algorithms are negotiated a message that needs them is answered with an error, and nothing enters the transcript. -/
theorem spdmRow_unnegotiated {s : State} {m : Bytes} {sign : Bool} (content : State → Bytes) (h : s.auxOn = true)
    (hn : s.mgmt.negotiated = false) : spdmRow s m true content sign = .next (emit s (.reply (Config.spdmReply m []))) := by
  refine (mgmtRow_powered _ h).trans ?_
  rw [if_pos (by simp [hn])]

theorem getVersion_answered {s : State} (m : Bytes) (h : s.auxOn = true) :
    exec (.getVersion m) s = .next (spdmDone s m [] false [0x13] false) := by
  show spdmRow { s with mgmt := if s.auxOn then { s.mgmt with transcript := [], negotiated := false } else s.mgmt } m false
    (fun _ => [0x13]) false = _
  rw [if_pos h]
  exact spdmRow_done _ h (.inl rfl)

theorem negotiateAlgorithms_answered {s : State} (m : Bytes) (h : s.auxOn = true) :
    exec (.negotiateAlgorithms m) s = .next (spdmDone s m s.mgmt.transcript true (algNames s) false) := by
  show spdmRow { s with mgmt := if s.auxOn then { s.mgmt with negotiated := true } else s.mgmt } m false algNames false = _
  rw [if_pos h]
  exact spdmRow_done _ h (.inl rfl)

/-- The four messages that need the algorithms. -/
theorem spdm_unnegotiated {s : State} (m : Bytes) (h : s.auxOn = true) (hn : s.mgmt.negotiated = false) :
    ∀ i ∈ [Instr.getDigests m, .getCertificate m, .challenge m, .getMeasurements m],
      exec i s = .next (emit s (.reply (Config.spdmReply m []))) := by
  intro i hi
  simp only [List.mem_cons, List.not_mem_nil, or_false] at hi
  rcases hi with rfl | rfl | rfl | rfl
  · exact show execGetDigests m s = _ from spdmRow_unnegotiated _ h hn
  · exact show execGetCertificate m s = _ from spdmRow_unnegotiated _ h hn
  · exact show execChallenge m s = _ from spdmRow_unnegotiated _ h hn
  · exact show execGetMeasurements m s = _ from spdmRow_unnegotiated _ h hn

/-- An exchange that needs the algorithms, once they are negotiated. -/
theorem spdmRow_negotiated {s : State} {m : Bytes} {sign : Bool} (content : State → Bytes) (h : s.auxOn = true)
    (hn : s.mgmt.negotiated = true) :
    spdmRow s m true content sign = .next (spdmDone s m s.mgmt.transcript true (content s) sign) := by
  rw [spdmRow_done content h (.inr hn), hn]

/-! ### Image update (R28, R448) -/

theorem updateSlot_le_one (s : State) : updateSlot s ≤ 1 := by
  rw [updateSlot]
  split
  · exact Nat.zero_le _
  split
  · exact Nat.le_refl _
  split
  · exact Nat.sub_le _ _
  split
  · exact Nat.zero_le _
  · exact Nat.le_refl _

@[simp] theorem updReply_out (s : State) (ok : Bool) : (updReply s ok).out = s.out ++ [.reply [if ok then 0 else 1]] := rfl

@[simp] theorem rd_updReply (s : State) (ok : Bool) (f : Fld) : rd (updReply s ok) f = rd s f := rfl

@[simp] theorem flashNat_updReply (s : State) (ok : Bool) (a n : Nat) : flashNat (updReply s ok) a n = flashNat s a n := rfl

@[simp] theorem flashByte_updReply (s : State) (ok : Bool) (a : Nat) : flashByte (updReply s ok) a = flashByte s a := rfl

/-- An update message that is refused changes nothing. -/
def UpdateRefused (i : Instr) (s : State) : Prop :=
  ∃ t, exec i s = .next t ∧ t.out = s.out ++ [.reply [1]] ∧ t = { s with out := t.out }

theorem requestUpdate_refused {s : State} (h : s.auxOn = true) (hp : s.power = .kindling) : UpdateRefused .requestUpdate s := by
  refine ⟨updReply s false, (show execRequestUpdate s = _ from mgmtRow_powered _ h).trans ?_, rfl, rfl⟩
  rw [if_pos hp]

theorem verifyComplete_refused {s : State} (h : s.auxOn = true) (hst : rd s F.MGT_UPDATE_STATE ≠ 1) :
    UpdateRefused .verifyComplete s := by
  refine ⟨updReply s false, (show execVerifyComplete s = _ from mgmtRow_powered _ h).trans ?_, rfl, rfl⟩
  rw [if_pos hst]

theorem activateFirmware_refused {s : State} (h : s.auxOn = true) (hst : rd s F.MGT_UPDATE_STATE ≠ 3) :
    UpdateRefused .activateFirmware s := by
  refine ⟨updReply s false, (show execActivateFirmware s = _ from mgmtRow_powered _ h).trans ?_, rfl, rfl⟩
  rw [if_pos hst]

/-- The state record of a slot in the configuration flash (R27). -/
def slotRecord (k : Nat) : Nat := 0x03100000 + 16 * k

/-- An update of slot k has begun: its state record is erased, and MGT_UPDATE shows it (R28, R448). -/
def updateBegun (s : State) (k : Nat) : State :=
  wr (wr (wr (flashWrite s (slotRecord k) (List.replicate 16 0xFF)) F.MGT_UPDATE_STATE 1) F.MGT_UPDATE_SLOT k) F.MGT_UPDATE_CODE 0

theorem updateBegun_frame (s : State) (k : Nat) :
    updateBegun s k = { s with regs := (updateBegun s k).regs, flash := (updateBegun s k).flash } := by
  rw [updateBegun, flashWrite_frame]; rfl

theorem rd_updateBegun_state (s : State) (k : Nat) : rd (updateBegun s k) F.MGT_UPDATE_STATE = 1 := by
  rw [updateBegun, rd_wr_ne _ _ (by decide) (by decide), rd_wr_ne _ _ (by decide) (by decide), rd_wr_same _ _ (by decide)]
  rfl

theorem rd_updateBegun_slot (s : State) {k : Nat} (hk : k ≤ 1) : rd (updateBegun s k) F.MGT_UPDATE_SLOT = k := by
  rw [updateBegun, rd_wr_ne _ _ (by decide) (by decide), rd_wr_same _ _ (by decide)]
  exact Nat.mod_eq_of_lt (Nat.lt_succ_of_le hk)

theorem rd_updateBegun_code (s : State) (k : Nat) : rd (updateBegun s k) F.MGT_UPDATE_CODE = 0 := by
  rw [updateBegun, rd_wr_same _ _ (by decide)]
  rfl

theorem updateBegun_erased (s : State) (k : Nat) {i : Nat} (hi : i < 16) : flashByte (updateBegun s k) (slotRecord k + i) = 0xFF := by
  rw [updateBegun, flashByte_wr, flashByte_wr, flashByte_wr, flashWrite_inside (by simpa using hi), List.getElem_replicate]

theorem updateBegun_outside (s : State) (k : Nat) {a : Nat} (ha : a < slotRecord k ∨ slotRecord k + 16 ≤ a) :
    flashByte (updateBegun s k) a = flashByte s a := by
  rw [updateBegun, flashByte_wr, flashByte_wr, flashByte_wr, flashWrite_outside (by simpa using ha)]

theorem exec_requestUpdate {s : State} (h : s.auxOn = true) (hp : s.power ≠ .kindling) :
    exec .requestUpdate s = .next (updReply (updateBegun s (updateSlot s)) true) := by
  refine (show execRequestUpdate s = _ from mgmtRow_powered _ h).trans ?_
  rw [if_neg hp]; rfl

theorem requestUpdate_erases {s : State} (h : s.auxOn = true) (hp : s.power ≠ .kindling) :
    ∃ t, exec .requestUpdate s = .next t ∧ t.out = s.out ++ [.reply [0]] ∧ rd t F.MGT_UPDATE_STATE = 1 ∧
      rd t F.MGT_UPDATE_SLOT = updateSlot s ∧ rd t F.MGT_UPDATE_CODE = 0 ∧
      (∀ i, i < 16 → flashByte t (slotRecord (updateSlot s) + i) = 0xFF) ∧
      (∀ a, a < slotRecord (updateSlot s) ∨ slotRecord (updateSlot s) + 16 ≤ a → flashByte t a = flashByte s a) ∧
      t = { s with regs := t.regs, flash := t.flash, out := t.out } := by
  refine ⟨_, exec_requestUpdate h hp, ?_, ?_, ?_, ?_, fun i hi => ?_, fun a ha => ?_, ?_⟩
  · rw [updReply_out, updateBegun_frame]; rfl
  · rw [rd_updReply, rd_updateBegun_state]
  · rw [rd_updReply, rd_updateBegun_slot _ (updateSlot_le_one s)]
  · rw [rd_updReply, rd_updateBegun_code]
  · rw [flashByte_updReply, updateBegun_erased _ _ hi]
  · rw [flashByte_updReply, updateBegun_outside _ _ ha]
  · rw [updateBegun_frame]; rfl

theorem pldmImageData_ignored {s : State} {off : Nat} {d : Bytes} (h : s.auxOn = true)
    (hst : rd s F.MGT_UPDATE_STATE ≠ 1 ∨ 0x01800000 < off + d.length) : exec (.pldmImageData off d) s = .next s := by
  refine (show execPldmImageData off d s = _ from mgmtRow_powered _ h).trans ?_
  rw [if_pos hst]

theorem pldmImageData_taken {s : State} {off : Nat} {d : Bytes} (h : s.auxOn = true) (hst : rd s F.MGT_UPDATE_STATE = 1)
    (hd : off + d.length ≤ 0x01800000) :
    exec (.pldmImageData off d) s = .next (flashWrite s (slotFlash (rd s F.MGT_UPDATE_SLOT) + off) d) := by
  refine (show execPldmImageData off d s = _ from mgmtRow_powered _ h).trans ?_
  rw [if_neg (by omega)]

theorem nextSeq_lt (s : State) (k : Nat) : nextSeq s k < 2 ^ 32 := by
  have hlt : slotSeq s (1 - k) < 2 ^ 32 := flashNat_lt _ _ 4
  simp only [nextSeq]
  split
  · decide
  · omega

/-- Slot k has passed every check: its SEQ is programmed (R28, R448). -/
def updateReady (s : State) (k : Nat) : State :=
  wr (flashWrite s (slotRecord k) (leBytes 4 (nextSeq s k))) F.MGT_UPDATE_STATE 3

/-- Slot k has failed a check: it is marked (R448). -/
def updateFailed (s : State) (k : Nat) : State := wr (wr (markBad s k) F.MGT_UPDATE_STATE 4) F.MGT_UPDATE_CODE (updateCode s k)

theorem exec_verifyComplete {s : State} (h : s.auxOn = true) (hst : rd s F.MGT_UPDATE_STATE = 1) :
    exec .verifyComplete s = .next (
      let k := rd s F.MGT_UPDATE_SLOT
      if updateCode s k = 0 then updReply (updateReady s k) true else updReply (updateFailed s k) false) := by
  refine (show execVerifyComplete s = _ from mgmtRow_powered _ h).trans (congrArg _ ?_)
  rw [if_neg (not_not_intro hst)]
  dsimp only
  split
  next hc => rw [if_pos hc]; rfl
  next c hc => rw [if_neg hc]; rfl

theorem updateReady_frame (s : State) (k : Nat) :
    updateReady s k = { s with regs := (updateReady s k).regs, flash := (updateReady s k).flash } := by
  rw [updateReady, flashWrite_frame]; rfl

theorem rd_updateReady_state (s : State) (k : Nat) : rd (updateReady s k) F.MGT_UPDATE_STATE = 3 := by
  rw [updateReady, rd_wr_same _ _ (by decide)]
  rfl

theorem slotSeq_updateReady (s : State) (k : Nat) : flashNat (updateReady s k) (slotRecord k) 4 = nextSeq s k := by
  have hb : flashBytes (updateReady s k) (slotRecord k) 4 = leBytes 4 (nextSeq s k) := by
    have hw := flashBytes_flashWrite s (slotRecord k) (leBytes 4 (nextSeq s k))
    rwa [leBytes_length] at hw
  rw [flashNat, hb, leNat_leBytes]
  exact Nat.mod_eq_of_lt (nextSeq_lt s k)

theorem updateReady_outside (s : State) (k : Nat) {a : Nat} (ha : a < slotRecord k ∨ slotRecord k + 4 ≤ a) :
    flashByte (updateReady s k) a = flashByte s a := by
  rw [updateReady, flashByte_wr, flashWrite_outside (by simpa using ha)]

theorem verifyComplete_passes {s : State} (h : s.auxOn = true) (hst : rd s F.MGT_UPDATE_STATE = 1)
    (hc : updateCode s (rd s F.MGT_UPDATE_SLOT) = 0) :
    let k := rd s F.MGT_UPDATE_SLOT
    ∃ t, exec .verifyComplete s = .next t ∧ t.out = s.out ++ [.reply [0]] ∧ rd t F.MGT_UPDATE_STATE = 3 ∧
      flashNat t (slotRecord k) 4 = nextSeq s k ∧
      (∀ a, a < slotRecord k ∨ slotRecord k + 4 ≤ a → flashByte t a = flashByte s a) ∧
      t = { s with regs := t.regs, flash := t.flash, out := t.out } := by
  refine ⟨_, (exec_verifyComplete h hst).trans (congrArg _ (if_pos hc)), ?_, ?_, ?_, fun a ha => ?_, ?_⟩
  · rw [updReply_out, updateReady_frame]; rfl
  · rw [rd_updReply, rd_updateReady_state]
  · rw [flashNat_updReply, slotSeq_updateReady]
  · rw [flashByte_updReply, updateReady_outside _ _ ha]
  · rw [updateReady_frame]; rfl

theorem updateFailed_frame (s : State) (k : Nat) :
    updateFailed s k = { s with regs := (updateFailed s k).regs, flash := (updateFailed s k).flash } := by
  rw [updateFailed, markBad, flashWrite_frame]; rfl

theorem rd_updateFailed_state (s : State) (k : Nat) : rd (updateFailed s k) F.MGT_UPDATE_STATE = 4 := by
  rw [updateFailed, rd_wr_ne _ _ (by decide) (by decide), rd_wr_same _ _ (by decide)]
  rfl

theorem rd_updateFailed_code (s : State) (k : Nat) :
    rd (updateFailed s k) F.MGT_UPDATE_CODE = updateCode s k % 2 ^ (F.MGT_UPDATE_CODE).width := by
  rw [updateFailed, rd_wr_same _ _ (by decide)]

theorem slotBad_markBad (s : State) (k : Nat) : slotBad (markBad s k) k = true := by
  have hb : flashBytes (markBad s k) (0x03100004 + 16 * k) 4 = zeros 4 := flashBytes_flashWrite s _ (zeros 4)
  rw [slotBad, slotStateWord, flashNat, hb, leNat_zeros]
  rfl

theorem verifyComplete_fails {s : State} (h : s.auxOn = true) (hst : rd s F.MGT_UPDATE_STATE = 1)
    (hc : updateCode s (rd s F.MGT_UPDATE_SLOT) ≠ 0) :
    let k := rd s F.MGT_UPDATE_SLOT
    ∃ t, exec .verifyComplete s = .next t ∧ t.out = s.out ++ [.reply [1]] ∧ rd t F.MGT_UPDATE_STATE = 4 ∧
      rd t F.MGT_UPDATE_CODE = updateCode s k % 2 ^ (F.MGT_UPDATE_CODE).width ∧ slotBad t k = true := by
  refine ⟨_, (exec_verifyComplete h hst).trans (congrArg _ (if_neg hc)), ?_, ?_, ?_, slotBad_markBad _ _⟩
  · rw [updReply_out, updateFailed_frame]; rfl
  · rw [rd_updReply, rd_updateFailed_state]
  · rw [rd_updReply, rd_updateFailed_code]

theorem activateFirmware_stopped {s : State} (h : s.auxOn = true) (hst : rd s F.MGT_UPDATE_STATE = 3) (hp : s.power = .stopped) :
    exec .activateFirmware s = .next (updReply { s with rekindle := 2, slotOvr := slotNow s } true) := by
  refine (show execActivateFirmware s = _ from mgmtRow_powered _ h).trans ?_
  rw [if_neg (not_not_intro hst), if_pos hp]

theorem activateFirmware_deferred {s : State} (h : s.auxOn = true) (hst : rd s F.MGT_UPDATE_STATE = 3) (hp : s.power ≠ .stopped) :
    exec .activateFirmware s = .next (updReply (wr s F.MGT_UPDATE_ACTIVATE_PENDING 1) true) := by
  refine (show execActivateFirmware s = _ from mgmtRow_powered _ h).trans ?_
  rw [if_neg (not_not_intro hst), if_neg hp]

theorem nextSeq_of_lt {s : State} {k : Nat} (h : slotSeq s (1 - k) < 0xFFFFFFFE) : nextSeq s k = slotSeq s (1 - k) + 1 :=
  if_neg (by omega)

/-! ### The boundary scan (R473, R475) -/

theorem inScanHold_iff (s : State) : inScanHold s = true ↔ s.scanHold = true ∧ s.power = .kindling := by
  simp [inScanHold]

theorem extest_shifts {s : State} (pins : Bytes) (h : s.auxOn = true) :
    exec (.extest pins) s = .next (if inScanHold s then tapShift s tapEXTEST (leNat pins) else tapShift s tapBYPASS 0) :=
  show execExtest pins s = _ from tapRow_powered _ h

theorem clamp_shifts {s : State} (h : s.auxOn = true) :
    exec .clamp s = .next (tapShift s (if inScanHold s then tapCLAMP else tapBYPASS) 0) :=
  show execClamp s = _ from tapRow_powered _ h

theorem highz_shifts {s : State} (h : s.auxOn = true) :
    exec .highz s = .next (tapShift s (if inScanHold s then tapHIGHZ else tapBYPASS) 0) :=
  show execHighz s = _ from tapRow_powered _ h

/-! ### The three parts of the statement -/

theorem unitReport_fresh_or_stale {s : State} {f : BitVec 8} {st gen code : Nat} (h : s.auxOn = true) (hf : isFunc f.toNat = true)
    (hp : s.power = .run ∨ s.power = .stopped) (hr : s.mgmt.reports.find? f.toNat = some (st, gen, code)) :
    let fresh := st = fnState s f.toNat ∧ gen = rd s F.DEV_COMMIT_GEN_GEN
    let answer (old : BitVec 8) (c : Nat) : Bytes :=
      [0, f] ++ leBytes 1 st ++ [old] ++ leBytes 4 gen ++ leBytes 4 (rd s F.DEV_COMMIT_GEN_GEN) ++ leBytes 2 c ++ leBytes 2 code
    (fresh → exec (.unitReport f) s = .next (emit s (.reply (answer 0 0)))) ∧
    (¬ fresh → exec (.unitReport f) s = .next (emit s (.reply (answer 1 Code.STALE)))) := by
  have hrow := unitReport_posted h hf hp hr
  refine ⟨fun hfresh => ?_, fun hmoved => ?_⟩
  · rw [hrow, (stale_eq_false_iff s _ st gen code).mpr hfresh]; rfl
  · have hold : stale s f.toNat (st, gen, code) = true :=
      (Bool.not_eq_false _).mp (mt (stale_eq_false_iff s _ st gen code).mp hmoved)
    rw [hrow, hold]; rfl

theorem boundary_held {s : State} (pins : Bytes) (h : s.auxOn = true) (hold : s.scanHold = true ∧ s.power = .kindling) :
    exec (.extest pins) s = .next (tapShift s tapEXTEST (leNat pins)) ∧ exec .clamp s = .next (tapShift s tapCLAMP 0) ∧
      exec .highz s = .next (tapShift s tapHIGHZ 0) := by
  rw [extest_shifts pins h, clamp_shifts h, highz_shifts h, (inScanHold_iff s).mpr hold]
  exact ⟨rfl, rfl, rfl⟩

/-- Outside the scan hold the three act as BYPASS. -/
theorem boundary_notHeld {s : State} (pins : Bytes) (h : s.auxOn = true) (hold : ¬ (s.scanHold = true ∧ s.power = .kindling)) :
    exec (.extest pins) s = .next (tapShift s tapBYPASS 0) ∧ exec .clamp s = .next (tapShift s tapBYPASS 0) ∧
      exec .highz s = .next (tapShift s tapBYPASS 0) := by
  have hno : inScanHold s = false := (Bool.not_eq_true _).mp (mt (inScanHold_iff s).mp hold)
  rw [extest_shifts pins h, clamp_shifts h, highz_shifts h, hno]
  exact ⟨rfl, rfl, rfl⟩

/-- Settles O59: messages, image update and boundary scan, each clause by the lemma on its command. -/
theorem managementEndpoint : Obligations.ManagementEndpoint := by
  refine ⟨?_, ?_, ?_⟩
  · intro addr eid f m s h
    refine ⟨entdaa_assigns addr h, setEndpointId_assigns eid h, mctpControlMessage_replies m h, pldmMonitorRequest_refused h,
      pldmMonitorRequest_answered h, unitReport_reserved h, unitReport_noDataPath h, fun st gen code => unitReport_fresh_or_stale h,
      getVersion_answered m h, ?_, negotiateAlgorithms_answered m h, spdm_unnegotiated m h, fun hn => ⟨?_, ?_, ?_, ?_⟩⟩
    · exact show execGetCapabilities m s = _ from spdmRow_done _ h (.inl rfl)
    · exact show execGetDigests m s = _ from spdmRow_negotiated _ h hn
    · exact show execGetCertificate m s = _ from spdmRow_negotiated _ h hn
    · exact show execChallenge m s = _ from spdmRow_negotiated _ h hn
    · exact show execGetMeasurements m s = _ from spdmRow_negotiated _ h hn
  · intro off d s h
    refine ⟨requestUpdate_refused h, requestUpdate_erases h, pldmImageData_ignored h, ?_, verifyComplete_refused h,
      verifyComplete_passes h, ?_, activateFirmware_refused h, ?_, ?_, fun j _ => nextSeq_of_lt⟩
    · intro hst hd
      exact ⟨_, pldmImageData_taken h hst hd, flashWrite_frame _ _ _, flashBytes_flashWrite _ _ _, fun a => flashWrite_outside⟩
    · rintro c hst rfl hc
      exact verifyComplete_fails h hst hc
    · exact fun hst hp => ⟨_, activateFirmware_stopped h hst hp, rfl, rfl, rfl⟩
    · intro hst hp
      exact ⟨_, activateFirmware_deferred h hst hp, rfl, rd_wr_same _ _ (by decide), (RegsKept.refl s _).wr (by decide) _, rfl⟩
  · intro pins s h
    refine ⟨?_, ?_, ?_, ?_, boundary_held pins h, boundary_notHeld pins h⟩
    · exact show execTapReset s = _ from tapRow_powered _ h
    · exact show execBypass s = _ from tapRow_powered _ h
    · exact show execSample pins s = _ from tapRow_powered _ h
    · exact show execPreload pins s = _ from tapRow_powered _ h

end Sys2Proof.Machine
end

section
/-! SUPPORT. The charge of a hearth (R56, R57): what its update leaves alone, what it shows, and the holding of R56 as a bound. -/

namespace Sys2Proof.Machine

/-! ### Frames -/

theorem RegsKept.rd_eq {s t : State} {offs : List Nat} (k : RegsKept s t offs) {f : Fld} (hf : f.off ∉ offs) : rd t f = rd s f := by
  rw [rd, k _ hf, rd]

theorem RegsKept.trans {s t u : State} {a b : List Nat} (k : RegsKept s t a) (l : RegsKept t u b) : RegsKept s u (a ++ b) := fun o ho =>
  (l o fun h => ho (List.mem_append_right a h)).trans (k o fun h => ho (List.mem_append_left b h))

@[simp] theorem getDisp_setDisp_same (s : State) (h : Nat) (d : Disp) : getDisp (setDisp s h d) h = d :=
  Smap.get_set_same _ _ _ _

theorem getDisp_setDisp_ne (s : State) {h g : Nat} (d : Disp) (hne : g ≠ h) : getDisp (setDisp s h d) g = getDisp s g :=
  Smap.get_set_ne _ _ _ hne.symm

/-! ### Bringing the charge up to date -/

/-- The registers that show a hearth's charge (Tables 3-11 and 3-15). -/
def chargeRegs (h : Nat) : List Nat := [(F.DMP_GRANT_RP_SUM h).off, (F.DMP_GRANT_HELD h).off, F.DMP_POOL_HELD.off]

/-- They are the Damper's own. -/
theorem not_mem_chargeRegs {h o : Nat} (hh : h < 16) (ho : o < 0x2000 ∨ 0x2180 ≤ o) : o ∉ chargeRegs h := by
  simp only [chargeRegs, F.DMP_GRANT_RP_SUM, F.DMP_GRANT_HELD, F.DMP_POOL_HELD, List.mem_cons, List.not_mem_nil, or_false]
  omega

theorem recharge_regsKept (s : State) (h : Nat) : RegsKept s (recharge s h) (chargeRegs h) :=
  (((RegsKept.refl s _).wr (by simp [chargeRegs]) _).wr (by simp [chargeRegs]) _).wr (by simp [chargeRegs]) _

theorem recharge_frame (s : State) (h : Nat) : recharge s h = { s with regs := (recharge s h).regs } := rfl

@[simp] theorem getDisp_recharge (s : State) (h g : Nat) : getDisp (recharge s h) g = getDisp s g := rfl

theorem rd_recharge_beyond (s : State) {h : Nat} {f : Fld} (hh : h < 16) (hf : f.off < 0x2000 ∨ 0x2180 ≤ f.off) :
    rd (recharge s h) f = rd s f :=
  (recharge_regsKept s h).rd_eq (not_mem_chargeRegs hh hf)

/-- The pool's sum stands in a register of its own. -/
theorem poolHeld_off_ne (h : Nat) : F.DMP_POOL_HELD.off ≠ 0x2100 + 0x8 * h := by
  show 0x2038 ≠ 0x2100 + 0x8 * h
  omega

/-- The hearth's pending request is a field beside its charge. -/
theorem rd_recharge_pending (s : State) (h : Nat) : rd (recharge s h) (F.DMP_GRANT_PENDING h) = rd s (F.DMP_GRANT_PENDING h) := by
  have hheld : (F.DMP_GRANT_HELD h).lo + (F.DMP_GRANT_HELD h).width ≤ (F.DMP_GRANT_PENDING h).lo := by
    simp [F.DMP_GRANT_HELD, F.DMP_GRANT_PENDING]
  have hsum : (F.DMP_GRANT_RP_SUM h).lo + (F.DMP_GRANT_RP_SUM h).width ≤ (F.DMP_GRANT_PENDING h).lo := by
    simp [F.DMP_GRANT_RP_SUM, F.DMP_GRANT_PENDING]
  rw [recharge, rd_wr_off _ _ (poolHeld_off_ne h), rd_wr_ne _ _ (by simp [F.DMP_GRANT_HELD]) (.inr (.inr hheld)),
    rd_wr_ne _ _ (by simp [F.DMP_GRANT_RP_SUM]) (.inr (.inr hsum))]

/-- The standing charge rests on the power state and on the registers of functions, cores, MEs and banks. -/
theorem standing_congr {s t : State} (h : Nat) (haux : t.auxOn = s.auxOn)
    (hrd : ∀ f : Fld, f.off < 0x2000 ∨ 0x2180 ≤ f.off → rd t f = rd s f) : standing t h = standing s h := by
  have hpower : t.power = s.power := by rw [State.power, haux, hrd F.DEV_STATE_POWER (by decide), State.power]
  have hfn : fnState t h = fnState s h := by
    have hoff : (fnFld h).off < 0x2000 := by unfold fnFld; split <;> simp
    rw [fnState, hrd _ (.inl hoff), fnState]
  have hbank (n : Nat) : rd t (F.BNK_OWNER_OFF n) = rd s (F.BNK_OWNER_OFF n) := hrd _ (.inr (by simp only [F.BNK_OWNER_OFF]; omega))
  have hcore (c : Nat) : rd t (F.AWL_STATE_STATE h c) = rd s (F.AWL_STATE_STATE h c) :=
    hrd _ (.inr (by simp only [F.AWL_STATE_STATE]; omega))
  have hme (i : Nat) : rd t (F.MXE_STATE_STATE h i) = rd s (F.MXE_STATE_STATE h i) :=
    hrd _ (.inr (by simp only [F.MXE_STATE_STATE]; omega))
  simp only [standing, hpower, hfn, hbank, hcore, hme]

theorem standing_recharge (s : State) {h : Nat} (g : Nat) (hh : h < 16) : standing (recharge s h) g = standing s g :=
  standing_congr g rfl fun _ hf => rd_recharge_beyond s hh hf

theorem rd_recharge_rpSum (s : State) {h : Nat} (hh : h < 16) : rd (recharge s h) (F.DMP_GRANT_RP_SUM h) =
    (standing (recharge s h) h + (getDisp (recharge s h) h).incs) % 2 ^ (F.DMP_GRANT_RP_SUM h).width := by
  have hheld : (F.DMP_GRANT_HELD h).lo + (F.DMP_GRANT_HELD h).width ≤ (F.DMP_GRANT_RP_SUM h).lo := by
    simp [F.DMP_GRANT_HELD, F.DMP_GRANT_RP_SUM]
  rw [standing_recharge s h hh, getDisp_recharge, recharge, rd_wr_off _ _ (poolHeld_off_ne h),
    rd_wr_ne _ _ (by simp [F.DMP_GRANT_HELD]) (.inr (.inr hheld)),
    rd_wr_same _ _ (by simp [F.DMP_GRANT_RP_SUM])]

/-! ### The holding (R56) -/

theorem holding_eq (r c : Nat) : holding r c = (r * codeMv c * codeRate c + 1480000 - 1) / 1480000 := by
  rw [holding, ceilDiv, if_neg (Nat.succ_ne_zero _)]

theorem le_holding_mul (r c : Nat) : r * codeMv c * codeRate c ≤ holding r c * (800 * 1850) := by
  rw [holding_eq]
  omega

theorem holding_mul_lt (r c : Nat) : holding r c * (800 * 1850) < r * codeMv c * codeRate c + 800 * 1850 := by
  rw [holding_eq]
  omega

theorem holding_mono {r r' : Nat} (c : Nat) (h : r ≤ r') : holding r c ≤ holding r' c := by
  have hcost : r * codeMv c * codeRate c ≤ r' * codeMv c * codeRate c := Nat.mul_le_mul_right _ (Nat.mul_le_mul_right _ h)
  rw [holding_eq, holding_eq]
  omega

/-- Code 20 is 0.80 V at 1,850 M waves/s. -/
theorem holding_nominal (r : Nat) : holding r 20 = r := by
  have hmv : codeMv 20 = 800 := rfl
  have hrate : codeRate 20 = 1850 := rfl
  rw [holding_eq, hmv, hrate]
  omega

end Sys2Proof.Machine
end

section
/-! SUPPORT. The token pool (R57, R59, R71, R72): what a grant, a reservation and a release leave. What a grant sets going touches the units of
its hearth and their registers, which lie beyond those of the Damper, and so keeps what the Damper has on record of the hearth. -/

namespace Sys2Proof.Machine

/-! ### What a start leaves alone -/

@[simp] theorem each_nil {α : Type} (s : State) (f : State → α → State) : each [] s f = s := rfl

/-- What the Damper has on record of a hearth, the memory and the tickets stand as they were. -/
structure AccountKept (h : Nat) (s t : State) : Prop where
  mem : t.mem = s.mem
  tickets : t.tickets = s.tickets
  damper : t.damper = s.damper
  incs : (getDisp t h).incs = (getDisp s h).incs
  pending : (getDisp t h).pending = (getDisp s h).pending
  shown : rd t (F.DMP_GRANT_PENDING h) = rd s (F.DMP_GRANT_PENDING h)

theorem AccountKept.refl (h : Nat) (s : State) : AccountKept h s s := ⟨rfl, rfl, rfl, rfl, rfl, rfl⟩

theorem AccountKept.trans {h : Nat} {s t u : State} (a : AccountKept h s t) (b : AccountKept h t u) : AccountKept h s u :=
  ⟨b.mem.trans a.mem, b.tickets.trans a.tickets, b.damper.trans a.damper, b.incs.trans a.incs, b.pending.trans a.pending,
    b.shown.trans a.shown⟩

theorem AccountKept.each {α : Type} {h : Nat} {f : State → α → State} (hf : ∀ s x, AccountKept h s (f s x)) (xs : List α) (s : State) :
    AccountKept h s (each xs s f) := by
  induction xs generalizing s with
  | nil => exact .refl h s
  | cons x xs ih => exact (hf s x).trans (ih (f s x))

/-- A function that acts on one command keeps the dispatcher's account. -/
theorem updCmd_accountKept (s : State) (h seq : Nat) (f : Cmd → Cmd) : AccountKept h s (updCmd s h seq f) := by
  refine ⟨rfl, rfl, rfl, ?_, ?_, rfl⟩ <;> rw [updCmd, getDisp_setDisp_same]

theorem recharge_accountKept (s : State) (h : Nat) : AccountKept h s (recharge s h) :=
  ⟨rfl, rfl, rfl, rfl, rfl, rd_recharge_pending s h⟩

/-- The registers of the units lie beyond those of the Damper. -/
theorem wr_accountKept {h : Nat} (hh : h < 16) (s : State) {f : Fld} (v : Nat) (hf : 0x2180 ≤ f.off) : AccountKept h s (wr s f v) := by
  refine ⟨rfl, rfl, rfl, rfl, rfl, rd_wr_off s v ?_⟩
  simp only [F.DMP_GRANT_PENDING]
  omega

theorem coreHeldF_off_ge (k : Nat) : 0x2180 ≤ (coreHeldF k).off := by
  unfold coreHeldF coreFld
  split
  · simp only [F.AWL_STATE_TOKEN_HELD]; omega
  · simp only [F.SAWL_STATE_TOKEN_HELD]; omega

section
variable {h : Nat} (hh : h < 16)
include hh

theorem meLoad_accountKept (s : State) (i : Nat) : AccountKept h s (meLoad s h i) :=
  AccountKept.trans (t := { s with bellows := s.bellows.set (16 * h + i) 0 }) ⟨rfl, rfl, rfl, rfl, rfl, rfl⟩
    (wr_accountKept hh _ _ (by simp only [F.MXE_STATE_STATE]; omega))

theorem wakeMes_accountKept (s : State) (seq mask : Nat) : AccountKept h s (wakeMes s h seq mask) := by
  refine AccountKept.each (fun s i => ?_) _ _
  have hcmd : AccountKept h s (wr (wr s (F.MXE_CMD_SEQ h i) seq) (F.MXE_CMD_ACTIVE h i) 1) :=
    (wr_accountKept hh _ _ (by simp only [F.MXE_CMD_SEQ]; omega)).trans (wr_accountKept hh _ _ (by simp only [F.MXE_CMD_ACTIVE]; omega))
  dsimp only
  split
  · exact hcmd.trans (wr_accountKept hh _ _ (by simp only [F.MXE_STATE_STATE]; omega))
  · exact hcmd.trans (meLoad_accountKept hh _ i)

/-- The three registers of a unit that begins a command. -/
theorem wr_three_accountKept (s : State) {f₁ f₂ f₃ : Fld} (v₁ v₂ v₃ : Nat) (h₁ : 0x2180 ≤ f₁.off) (h₂ : 0x2180 ≤ f₂.off)
    (h₃ : 0x2180 ≤ f₃.off) : AccountKept h s (wr (wr (wr s f₁ v₁) f₂ v₂) f₃ v₃) :=
  ((wr_accountKept hh _ _ h₁).trans (wr_accountKept hh _ _ h₂)).trans (wr_accountKept hh _ _ h₃)

theorem beginRows_accountKept (s : State) (c : Cmd) : AccountKept h s (beginRows s h c) := by
  unfold beginRows
  extract_lets u
  have hrow : AccountKept h s u := by
    unfold u
    split
    · exact wr_three_accountKept hh s _ _ _ (by simp only [F.ROW_CMD_SEQ]; omega) (by simp only [F.ROW_CMD_ACTIVE]; omega)
        (by simp only [F.ROW_STATE_STATE]; omega)
    · exact .refl h s
  split
  · exact hrow.trans (wr_three_accountKept hh u _ _ _ (by simp only [F.ATS_CMD_SEQ]; omega) (by simp only [F.ATS_CMD_ACTIVE]; omega)
      (by simp only [F.ATS_STATE_STATE]; omega))
  · exact hrow

theorem startCmd_accountKept (s : State) (c : Cmd) : AccountKept h s (startCmd s h c) := by
  refine AccountKept.each (fun s m => ?_) _ _
  exact (((updCmd_accountKept s h _ _).trans (wakeMes_accountKept hh _ _ _)).trans (beginRows_accountKept hh _ m)).trans
    (recharge_accountKept _ h)

end

/-! ### Grants (R57, R71) -/

/-- The increment of a request is charged to its dispatcher, and the round robin goes on from there; what asked for it has not gone on yet. -/
def incCharged (s : State) (h : Nat) (r : TokReq) : State :=
  passOver (setDisp s h { getDisp s h with incs := (getDisp s h).incs + r.rp }) h

theorem getDisp_incCharged (s : State) (h : Nat) (r : TokReq) :
    getDisp (incCharged s h r) h = { getDisp s h with incs := (getDisp s h).incs + r.rp } :=
  getDisp_setDisp_same _ _ _

theorem grant_accountKept {h : Nat} (hh : h < 16) (s : State) (r : TokReq) : AccountKept h (incCharged s h r) (grant s h r) := by
  refine AccountKept.trans ?_ (recharge_accountKept _ h)
  cases r with
  | cmd q rp =>
    dsimp only
    split
    · exact startCmd_accountKept hh _ _
    · exact .refl h _
  | core k rp implicit =>
    have hcore (s : State) (f : AwlCore → AwlCore) : AccountKept h s (updCore s (8 * h + k) f) := ⟨rfl, rfl, rfl, rfl, rfl, rfl⟩
    exact (hcore _ _).trans (wr_accountKept hh _ 1 (coreHeldF_off_ge _))
  | meTest i rp =>
    exact (wr_accountKept hh _ 7 (by simp only [F.MXE_STATE_STATE]; omega)).trans
      (wr_accountKept hh _ 1 (by simp only [F.MXE_STATE_TEST_RESULT]; omega))

/-- The dispatcher's pending request is withdrawn from it and from the register that shows it (R73). -/
theorem getDisp_clearPending (s : State) (h : Nat) : getDisp (clearPending s h) h = { getDisp s h with pending := none } :=
  getDisp_setDisp_same _ _ _

theorem rd_clearPending_pending (s : State) {h : Nat} (hh : h < 16) : rd (clearPending s h) (F.DMP_GRANT_PENDING h) = 0 := by
  have hdisp : (F.HRT_DISP_TOKEN_PENDING h).off ≠ (F.DMP_GRANT_PENDING h).off := by
    simp only [F.HRT_DISP_TOKEN_PENDING, F.DMP_GRANT_PENDING]; omega
  have hres : (F.DMP_GRANT_PENDING h).lo + (F.DMP_GRANT_PENDING h).width ≤ (F.DMP_GRANT_RESERVED h).lo := by
    simp [F.DMP_GRANT_RESERVED, F.DMP_GRANT_PENDING]
  rw [clearPending, rd_wr_off _ _ hdisp, rd_wr_ne _ _ (by simp [F.DMP_GRANT_RESERVED]) (.inr (.inl hres)),
    rd_wr_same _ _ (by simp [F.DMP_GRANT_PENDING]), Nat.zero_mod]

/-- What a grant leaves of the dispatcher whose request it is (R57, R71). -/
theorem grant_clearPending {h : Nat} (hh : h < 16) (s : State) (r : TokReq) :
    let u := grant (clearPending s h) h r
    (getDisp u h).incs = (getDisp s h).incs + r.rp ∧ (getDisp u h).pending = none ∧ u.damper.last = h ∧
      rd u (F.DMP_GRANT_PENDING h) = 0 ∧ u.mem = s.mem ∧ u.tickets = s.tickets := by
  have k := grant_accountKept hh (clearPending s h) r
  refine ⟨?_, ?_, ?_, ?_, k.mem, k.tickets⟩
  · rw [k.incs, getDisp_incCharged, getDisp_clearPending]
  · rw [k.pending, getDisp_incCharged, getDisp_clearPending]
  · rw [k.damper]; rfl
  · exact k.shown.trans (rd_clearPending_pending s hh)

/-! ### The decision -/

theorem mem_robin_lt {s : State} {h : Nat} (hm : h ∈ robin s) : h < 16 := by
  obtain ⟨i, _, rfl⟩ := List.mem_map.mp hm
  exact Nat.mod_lt _ (by decide)

theorem reservedAny_eq_none {s : State} (h : ∀ g, g < 16 → rd s (F.DMP_GRANT_RESERVED g) = 0) : reservedAny s = none := by
  refine List.find?_eq_none.mpr fun g hg => ?_
  simp [h g (mem_robin_lt hg)]

/-- With nothing reserved, a request that fits may be granted. -/
theorem grantable_of_fits {s : State} {g : Nat} {r : TokReq} (hres : ∀ h, h < 16 → rd s (F.DMP_GRANT_RESERVED h) = 0)
    (hp : (getDisp s g).pending = some r) (hfit : incFits s g (r.cost s g) = true) : grantable s g = true := by
  simp [grantable, pendingCost, reservedAny_eq_none hres, hp, hfit]

section
variable {s : State} (hlive : unitLive s U.damper = true) (hrel : ∀ h, h < 16 → (getDisp s h).releases = 0)
  (hdue : ∀ h, h < 16 → reserveDue (each (List.range 16) s schedule) h = false)
include hlive hrel hdue

/-- Without releases that wait and reservations that are due, the decision is on the requests as the dispatchers have offered them. -/
theorem noReleases_noReservations :
    (!unitLive s U.damper || (List.range 16).any fun h => (getDisp s h).releases != 0) = false ∧
      (List.range 16).filter (reserveDue (each (List.range 16) s schedule)) = [] := by
  refine ⟨?_, List.filter_eq_nil_iff.mpr fun h hm => ?_⟩
  · rw [hlive, Bool.not_true, Bool.false_or, List.any_eq_false]
    intro h hm
    simp [hrel h (List.mem_range.mp hm)]
  · simp [hdue h (List.mem_range.mp hm)]

theorem grantRequest_nothing (h : (robin (each (List.range 16) s schedule)).filter (considered (each (List.range 16) s schedule)) = []) :
    exec .grantRequest s = .next (each (List.range 16) s schedule) := by
  obtain ⟨hguard, hnone⟩ := noReleases_noReservations hlive hrel hdue
  show execGrantRequest s = _
  simp only [execGrantRequest, hguard, hnone, each_nil, h, Bool.false_eq_true, if_false]

/-- The first request in order is granted where it fits: none stands before it to be refused. -/
theorem grantRequest_first {g : Nat} {r : TokReq}
    (hfirst : ((robin (each (List.range 16) s schedule)).filter (considered (each (List.range 16) s schedule))).head? = some g)
    (hp : (getDisp (each (List.range 16) s schedule) g).pending = some r) (hfit : grantable (each (List.range 16) s schedule) g = true) :
    let u := grant (clearPending (each (List.range 16) s schedule) g) g r
    exec .grantRequest s = .next (decided (if unitLive u (U.disp g) then schedule u g else u)) := by
  obtain ⟨hguard, hnone⟩ := noReleases_noReservations hlive hrel hdue
  obtain ⟨rest, horder⟩ := List.head?_eq_some_iff.mp hfirst
  have htake : (g :: rest).takeWhile (fun h => !grantable (each (List.range 16) s schedule) h) = [] := by simp [hfit]
  show execGrantRequest s = _
  simp only [execGrantRequest, hguard, hnone, each_nil, horder, List.find?_cons_of_pos hfit, htake, hp, Bool.false_eq_true, if_false]

end

/-! ### Reservations and releases (R57, R71, R72) -/

theorem reservation_due {h : Fin 16} {s : State} (hlive : unitLive s U.damper = true) (hdue : reserveDue s h = true) :
    ∃ t, exec (.reservation h) s = .next t ∧ rd t (F.DMP_GRANT_RESERVED h) = 1 ∧ RegsKept s t [(F.DMP_GRANT_RESERVED h).off] ∧
      t = { s with regs := t.regs } :=
  ⟨_, show execReservation h s = _ from if_pos (by simp [hlive, hdue]), rd_wr_same _ _ (by simp [F.DMP_GRANT_RESERVED]),
    (RegsKept.refl s _).wr (List.mem_singleton_self _) 1, rfl⟩

theorem reservation_not_due {h : Fin 16} {s : State} (hdue : reserveDue s h = false) : exec (.reservation h) s = .next s :=
  show execReservation h s = _ from if_neg (by simp [hdue])

/-- What a dispatcher has given back is off its sum, and its hearth is charged at what is left. -/
def released (s : State) (h : Nat) : State :=
  recharge (setDisp s h { getDisp s h with incs := (getDisp s h).incs - (getDisp s h).releases, releases := 0, meBack := 0 }) h

section
variable {h : Fin 16} {s : State} (hlive : unitLive s U.damper = true)
include hlive

theorem tokenRelease_nothing (hrel : (getDisp s h).releases = 0) : exec (.tokenRelease h) s = .next s := by
  show execTokenRelease h s = _
  simp [execTokenRelease, hlive, hrel]

theorem exec_tokenRelease (hrel : (getDisp s h).releases ≠ 0) : exec (.tokenRelease h) s = .next (schedule (released s h) h) := by
  show execTokenRelease h s = _
  simp [execTokenRelease, hlive, hrel, released]

theorem tokenRelease_takesOff (hrel : (getDisp s h).releases ≠ 0) :
    ∃ u, exec (.tokenRelease h) s = .next (schedule u h) ∧
      getDisp u h = { getDisp s h with incs := (getDisp s h).incs - (getDisp s h).releases, releases := 0, meBack := 0 } ∧
      rd u (F.DMP_GRANT_RP_SUM h) = (standing u h + (getDisp u h).incs) % 2 ^ (F.DMP_GRANT_RP_SUM h).width ∧
      (∀ g, g ≠ h.val → getDisp u g = getDisp s g) ∧ u = { s with disps := u.disps, regs := u.regs } :=
  ⟨released s h, exec_tokenRelease hlive hrel, getDisp_setDisp_same _ _ _, rd_recharge_rpSum _ h.isLt,
    fun _ hg => getDisp_setDisp_ne _ _ hg, rfl⟩

end

/-- Settles O31: the grant by `grantRequest_nothing` and `grantRequest_first`, what it charges by `grant_clearPending`. -/
theorem tokenPool : Obligations.TokenPool := by
  refine ⟨fun g r s hlive hrel hnone => ⟨?_, fun hfirst hp hfit => ?_⟩, fun h s hlive => ⟨?_, ?_, ?_, ?_⟩, fun r c _ => ?_⟩
  · exact grantRequest_nothing hlive hrel fun h hh => (hnone h hh).1
  · have hgrant := grantable_of_fits (fun h hh => (hnone h hh).2) hp hfit
    exact ⟨_, rfl, grantRequest_first hlive hrel (fun h hh => (hnone h hh).1) hfirst hp hgrant, grant_clearPending g.isLt _ r⟩
  · exact reservation_due hlive
  · exact reservation_not_due
  · exact tokenRelease_nothing hlive
  · exact tokenRelease_takesOff hlive
  · exact ⟨le_holding_mul r c, holding_mul_lt r c, fun _ => holding_mono c, holding_nominal r⟩

end Sys2Proof.Machine
end

section
/-! SUPPORT. Handovers of banks (R328 to R332): which words are taken, and what a bank's new owner makes of the bank and of its hearth's charge. -/

namespace Sys2Proof.Machine

/-! ### The words that are taken (R328, Table 12-5) -/

theorem ownerAllowed_iff (n owner : Nat) : ownerAllowed n owner = true ↔
    owner = 0 ∨ owner = 0x30 ∨ (0x10 ≤ owner ∧ owner ≤ 0x1F ∧ (n < 16 ∨ owner = 0x10 + (n - 16) / 8)) ∨
      ((owner = 0x20 ∨ owner = 0x21) ∧ n < 16) := by
  simp only [ownerAllowed, Bool.or_eq_true, Bool.and_eq_true, beq_iff_eq, decide_eq_true_eq]
  omega

/-- The word names a bank and an owner that the bank may have, and comes from the bank's owner or the supervisor: the statement's own test. -/
def WordTaken (s : State) (id w : Nat) : Prop :=
  w % 256 < 144 ∧ w < 65536 ∧ (id = rd s (F.BNK_OWNER_OWNER (w % 256)) ∨ id = 0x30) ∧
    (w / 256 % 256 = 0 ∨ w / 256 % 256 = 0x30 ∨
      (0x10 ≤ w / 256 % 256 ∧ w / 256 % 256 ≤ 0x1F ∧ (w % 256 < 16 ∨ w / 256 % 256 = 0x10 + (w % 256 - 16) / 8)) ∨
      ((w / 256 % 256 = 0x20 ∨ w / 256 % 256 = 0x21) ∧ w % 256 < 16))

theorem bits_low_byte (w : Nat) : bits w 0 8 = w % 256 := by
  show w / 1 % 256 = w % 256
  rw [Nat.div_one]

theorem handoverRefused_eq_false_iff (s : State) (id w : Nat) : handoverRefused s id w = false ↔ WordTaken s id w := by
  have hbank : ¬ 143 < w % 256 ↔ w % 256 < 144 := by omega
  have hrest : ¬ w / 65536 ≠ 0 ↔ w < 65536 := by omega
  have howner : bits w 8 8 = w / 256 % 256 := rfl
  rw [handoverRefused, bits_low_byte, howner]
  simp only [Bool.or_eq_false_iff, Bool.and_eq_false_iff, decide_eq_false_iff_not, hbank, hrest, Bool.not_eq_false', bne_eq_false_iff_eq]
  constructor
  · rintro ⟨⟨⟨hn, hw⟩, hallowed⟩, hid⟩
    exact ⟨hn, hw, hid, (ownerAllowed_iff _ _).mp hallowed⟩
  · rintro ⟨hn, hw, hid, hallowed⟩
    exact ⟨⟨⟨hn, hw⟩, (ownerAllowed_iff _ _).mpr hallowed⟩, hid⟩

theorem handover_taken {s : State} {id w : Nat} (h : WordTaken s id w) :
    handover s id w = (setOwner s (w % 256) (w / 256 % 256), 0) := by
  rw [handover, (handoverRefused_eq_false_iff s id w).mpr h, bits_low_byte]
  rfl

theorem handover_refused {s : State} {id w : Nat} (h : ¬ WordTaken s id w) : handover s id w = (s, Code.OWNER_FAULT) :=
  if_pos ((Bool.not_eq_false _).mp (mt (handoverRefused_eq_false_iff s id w).mp h))

/-! ### A bank's new owner (R330, R332) -/

theorem bankHearth_of_ge {n : Nat} (h : 16 ≤ n) : bankHearth n = (n - 16) / 8 := if_neg (Nat.not_lt.mpr h)

/-- The three fields of a bank's register. -/
def bankFields (s : State) (n owner off clearing : Nat) : State :=
  wr (wr (wr s (F.BNK_OWNER_OWNER n) owner) (F.BNK_OWNER_OFF n) off) (F.BNK_OWNER_CLEARING n) clearing

theorem bankFields_frame (s : State) (n owner off clearing : Nat) :
    bankFields s n owner off clearing = { s with regs := (bankFields s n owner off clearing).regs } := rfl

theorem bankFields_regsKept (s : State) (n owner off clearing : Nat) :
    RegsKept s (bankFields s n owner off clearing) [(F.BNK_OWNER_OWNER n).off] := by
  have hoff : (F.BNK_OWNER_OFF n).off ∈ [(F.BNK_OWNER_OWNER n).off] := List.mem_cons_self
  have hclearing : (F.BNK_OWNER_CLEARING n).off ∈ [(F.BNK_OWNER_OWNER n).off] := List.mem_cons_self
  exact (((RegsKept.refl s _).wr List.mem_cons_self _).wr hoff _).wr hclearing _

theorem rd_bankFields (s : State) (n : Nat) {owner off clearing : Nat} (ho : owner < 256) (hoff : off < 2) (hc : clearing < 2) :
    let t := bankFields s n owner off clearing
    rd t (F.BNK_OWNER_OWNER n) = owner ∧ rd t (F.BNK_OWNER_OFF n) = off ∧ rd t (F.BNK_OWNER_CLEARING n) = clearing := by
  have hclearing : (F.BNK_OWNER_CLEARING n).lo + (F.BNK_OWNER_CLEARING n).width ≤ 64 := by simp [F.BNK_OWNER_CLEARING]
  have hoffw : (F.BNK_OWNER_OFF n).lo + (F.BNK_OWNER_OFF n).width ≤ 64 := by simp [F.BNK_OWNER_OFF]
  have hownerw : (F.BNK_OWNER_OWNER n).lo + (F.BNK_OWNER_OWNER n).width ≤ 64 := by simp [F.BNK_OWNER_OWNER]
  have howner_clearing : (F.BNK_OWNER_OWNER n).lo + (F.BNK_OWNER_OWNER n).width ≤ (F.BNK_OWNER_CLEARING n).lo := by
    simp [F.BNK_OWNER_OWNER, F.BNK_OWNER_CLEARING]
  have hclearing_off : (F.BNK_OWNER_CLEARING n).lo + (F.BNK_OWNER_CLEARING n).width ≤ (F.BNK_OWNER_OFF n).lo := by
    simp [F.BNK_OWNER_CLEARING, F.BNK_OWNER_OFF]
  unfold bankFields
  refine ⟨?_, ?_, ?_⟩
  · rw [rd_wr_ne _ _ hclearing (.inr (.inl howner_clearing)), rd_wr_ne _ _ hoffw (.inr (.inl (by omega))), rd_wr_same _ _ hownerw]
    exact Nat.mod_eq_of_lt ho
  · rw [rd_wr_ne _ _ hclearing (.inr (.inr hclearing_off)), rd_wr_same _ _ hoffw]
    exact Nat.mod_eq_of_lt hoff
  · rw [rd_wr_same _ _ hclearing]
    exact Nat.mod_eq_of_lt hc

/-- A hearth bank's new owner, its OFF and its CLEARING, with the memory as given, and the hearth charged accordingly. -/
def bankSet (s : State) (m : Memory) (n owner off clearing : Nat) : State :=
  recharge (bankFields { s with mem := m } n owner off clearing) ((n - 16) / 8)

section
variable {s : State} {n owner : Nat}

theorem setOwner_plain (h : n < 16 ∨ rd s (F.BNK_OWNER_OWNER n) = owner) : setOwner s n owner = wr s (F.BNK_OWNER_OWNER n) owner :=
  if_pos h

theorem setOwner_off (hn : 16 ≤ n) (hold : rd s (F.BNK_OWNER_OWNER n) ≠ 0) : setOwner s n 0 = bankSet s s.mem n 0 1 0 := by
  rw [setOwner, if_neg (by omega), if_pos rfl, bankHearth_of_ge hn]
  rfl

theorem setOwner_wake (hn : 16 ≤ n) (hold : rd s (F.BNK_OWNER_OWNER n) = 0) (ho : owner ≠ 0) (hf : fnState s ((n - 16) / 8) ≤ 1) :
    setOwner s n owner = bankSet s (s.mem.clear (bankBase n) (bankSize n)) n owner 0 1 := by
  rw [setOwner, if_neg (by omega), if_neg ho, bankHearth_of_ge hn, if_pos ⟨hold, hf⟩]
  rfl

/-- A bank of a function that does not run stays off, and one that changes hands keeps what it holds. -/
theorem setOwner_noWake (ho : owner ≠ 0) (h : ¬ (rd s (F.BNK_OWNER_OWNER n) = 0 ∧ fnState s (bankHearth n) ≤ 1)) :
    setOwner s n owner = wr s (F.BNK_OWNER_OWNER n) owner := by
  rw [setOwner, if_neg ho, if_neg h, ite_self]

end

/-! ### What a handover leaves -/

/-- What the new owner of bank n makes of state s: the statement's own list. -/
def OwnerSet (s : State) (n owner : Nat) (t : State) : Prop :=
  let old := rd s (F.BNK_OWNER_OWNER n)
  let g := (n - 16) / 8
  let wakes := 16 ≤ n ∧ old = 0 ∧ owner ≠ 0 ∧ fnState s g ≤ 1
  let charge := if n < 16 then [] else [(F.DMP_GRANT_RP_SUM g).off, (F.DMP_GRANT_HELD g).off, F.DMP_POOL_HELD.off]
  rd t (F.BNK_OWNER_OWNER n) = owner ∧ RegsKept s t ((F.BNK_OWNER_OWNER n).off :: charge) ∧
  (wakes ∨ (16 ≤ n ∧ old ≠ 0 ∧ owner = 0) →
    rd t (F.DMP_GRANT_RP_SUM g) = (standing t g + (getDisp t g).incs) % 2 ^ (F.DMP_GRANT_RP_SUM g).width) ∧ t = { s with regs := t.regs, mem := t.mem } ∧
  (16 ≤ n → old ≠ owner → owner = 0 → rd t (F.BNK_OWNER_OFF n) = 1 ∧ rd t (F.BNK_OWNER_CLEARING n) = 0 ∧ t.mem = s.mem) ∧
  (wakes → rd t (F.BNK_OWNER_OFF n) = 0 ∧ rd t (F.BNK_OWNER_CLEARING n) = 1 ∧
    BytesKept s t [(bankBase n, 0x200000)] ∧ ∀ a, bankBase n ≤ a → a < bankBase n + 0x200000 → peek t a = 0) ∧
  (n < 16 ∨ (old ≠ 0 ∧ owner ≠ 0) → t.mem = s.mem)

section
variable {s : State} {n owner : Nat}

/-- A bank that neither goes off nor wakes has its owner changed and nothing else. -/
theorem ownerSet_wr (ho : owner < 256) (hwake : ¬ (16 ≤ n ∧ rd s (F.BNK_OWNER_OWNER n) = 0 ∧ owner ≠ 0 ∧ fnState s ((n - 16) / 8) ≤ 1))
    (hoff : ¬ (16 ≤ n ∧ rd s (F.BNK_OWNER_OWNER n) ≠ 0 ∧ owner = 0)) : OwnerSet s n owner (wr s (F.BNK_OWNER_OWNER n) owner) := by
  refine ⟨?_, (RegsKept.refl s _).wr List.mem_cons_self _, fun h => (h.elim hwake hoff).elim, rfl, fun hn hne hz => ?_,
    fun h => (hwake h).elim, fun _ => rfl⟩
  · rw [rd_wr_same _ _ (by simp [F.BNK_OWNER_OWNER])]
    exact Nat.mod_eq_of_lt ho
  · exact (hoff ⟨hn, by omega, hz⟩).elim

theorem bankSet_fields (hb : n < 144) (m : Memory) {off clearing : Nat} (ho : owner < 256) (hoff : off < 2) (hc : clearing < 2) :
    let t := bankSet s m n owner off clearing
    rd t (F.BNK_OWNER_OWNER n) = owner ∧ rd t (F.BNK_OWNER_OFF n) = off ∧ rd t (F.BNK_OWNER_CLEARING n) = clearing := by
  have hg : (n - 16) / 8 < 16 := by omega
  have hfar {f : Fld} (hf : f.off = 0x1b0100 + 0x8 * n) :
      rd (bankSet s m n owner off clearing) f = rd (bankFields { s with mem := m } n owner off clearing) f :=
    rd_recharge_beyond _ hg (by omega)
  obtain ⟨howner, hoffed, hclear⟩ := rd_bankFields { s with mem := m } n ho hoff hc
  exact ⟨(hfar rfl).trans howner, (hfar rfl).trans hoffed, (hfar rfl).trans hclear⟩

theorem bankSet_regsKept (hn : 16 ≤ n) (m : Memory) (off clearing : Nat) : RegsKept s (bankSet s m n owner off clearing)
    ((F.BNK_OWNER_OWNER n).off :: if n < 16 then [] else chargeRegs ((n - 16) / 8)) := by
  rw [if_neg (Nat.not_lt.mpr hn)]
  exact RegsKept.trans (bankFields_regsKept { s with mem := m } n owner off clearing) (recharge_regsKept _ _)

theorem bankSet_frame (m : Memory) (off clearing : Nat) :
    bankSet s m n owner off clearing = { s with regs := (bankSet s m n owner off clearing).regs, mem := m } :=
  (recharge_frame _ _).trans (by rw [bankFields_frame]; rfl)

theorem rd_bankSet_rpSum (hb : n < 144) (m : Memory) (off clearing : Nat) :
    let t := bankSet s m n owner off clearing
    let g := (n - 16) / 8
    rd t (F.DMP_GRANT_RP_SUM g) = (standing t g + (getDisp t g).incs) % 2 ^ (F.DMP_GRANT_RP_SUM g).width :=
  rd_recharge_rpSum _ (by omega)

theorem ownerSet_off (hn : 16 ≤ n) (hb : n < 144) : OwnerSet s n 0 (bankSet s s.mem n 0 1 0) := by
  obtain ⟨howner, hoff, hclear⟩ :=
    bankSet_fields (s := s) (owner := 0) (off := 1) (clearing := 0) hb s.mem (by decide) (by decide) (by decide)
  exact ⟨howner, bankSet_regsKept hn s.mem 1 0, fun _ => rd_bankSet_rpSum hb s.mem 1 0, bankSet_frame _ _ _, fun _ _ _ => ⟨hoff, hclear, rfl⟩,
    fun ⟨_, _, hne, _⟩ => (hne rfl).elim, fun _ => rfl⟩

theorem nearEnd_le_bankBase (hn : 16 ≤ n) : nearEnd ≤ bankBase n := by
  rw [bankBase, if_neg (Nat.not_lt.mpr hn), nearEnd]
  omega

theorem ownerSet_wake (hn : 16 ≤ n) (hb : n < 144) (hold : rd s (F.BNK_OWNER_OWNER n) = 0) (ho : owner ≠ 0) (hlt : owner < 256) :
    OwnerSet s n owner (bankSet s (s.mem.clear (bankBase n) (bankSize n)) n owner 0 1) := by
  have hsize : bankSize n = 0x200000 := if_neg (Nat.not_lt.mpr hn)
  rw [hsize]
  obtain ⟨howner, hoff, hclear⟩ :=
    bankSet_fields (s := s) (off := 0) (clearing := 1) hb (s.mem.clear (bankBase n) 0x200000) hlt (by decide) (by decide)
  refine ⟨howner, bankSet_regsKept hn _ 0 1, fun _ => rd_bankSet_rpSum hb _ 0 1, bankSet_frame _ _ _, fun _ _ hz => (ho hz).elim,
    fun _ => ⟨hoff, hclear, fun a ha => ?_, fun a hlo hhi => ?_⟩, fun h => ?_⟩
  · have hout : ¬ inRange a (bankBase n, 0x200000) := ha _ (List.mem_singleton_self _)
    simp only [inRange] at hout
    exact Memory.get_clear_outside _ (by omega)
  · have hnear : nearEnd ≤ a := (nearEnd_le_bankBase hn).trans hlo
    exact (Memory.get_clear_inside _ ⟨hlo, hhi⟩).trans (Memory.blank_beyond_near _ hnear)
  · omega

/-- A handover does to the bank what R330 and R332 say of it. -/
theorem setOwner_ownerSet (hb : n < 144) (ho : owner < 256) : OwnerSet s n owner (setOwner s n owner) := by
  by_cases hplain : n < 16 ∨ rd s (F.BNK_OWNER_OWNER n) = owner
  · rw [setOwner_plain hplain]
    exact ownerSet_wr ho (by omega) (by omega)
  have hn : 16 ≤ n := by omega
  by_cases hz : owner = 0
  · subst hz
    have hold : rd s (F.BNK_OWNER_OWNER n) ≠ 0 := fun h => hplain (.inr h)
    rw [setOwner_off hn hold]
    exact ownerSet_off hn hb
  by_cases hwake : rd s (F.BNK_OWNER_OWNER n) = 0 ∧ fnState s ((n - 16) / 8) ≤ 1
  · obtain ⟨hold, hf⟩ := hwake
    rw [setOwner_wake hn hold hz hf]
    exact ownerSet_wake hn hb hold hz ho
  · rw [setOwner_noWake hz (by rwa [bankHearth_of_ge hn])]
    exact ownerSet_wr ho (fun ⟨_, hold, _, hf⟩ => hwake ⟨hold, hf⟩) (fun ⟨_, _, h⟩ => hz h)

end

/-! ### The two ways of a word -/

section
variable {s : State} {w : BitVec 64}

/-- Over the tack path a word of a dispatcher or of the supervisor reaches the banks (R328). -/
theorem exec_handoverWord {who : BitVec 8} (hrun : isRun s = true) (hwho : (0x10 ≤ who.toNat ∧ who.toNat ≤ 0x1F) ∨ who.toNat = 0x30) :
    exec (.handoverWord who w) s = .next (handover s who.toNat w.toNat).1 := by
  have hid : (decide (0x10 ≤ who.toNat) && decide (who.toNat ≤ 0x1F) || who.toNat == idSup) = true := by simpa [idSup] using hwho
  show execHandoverWord who w s = _
  rw [execHandoverWord, hrun, hid]
  rfl

theorem exec_bnkHandoverWrite {src : Src} (h : served s src = true) :
    exec (.bnkHandoverWrite src w) s = .next (bankHandover s src w.toNat) :=
  if_pos h

theorem bankHandover_taken {src : Src} (h : WordTaken s (srcId src) w.toNat) :
    bankHandover s src w.toNat = setOwner s (w.toNat % 256) (w.toNat / 256 % 256) := by
  rw [bankHandover, handover_taken h]
  rfl

theorem bankHandover_refused {src : Src} (h : ¬ WordTaken s (srcId src) w.toNat) : bankHandover s src w.toNat = wr s F.BNK_EVENT_REFUSED 1 := by
  rw [bankHandover, handover_refused h]
  rfl

/-- A word that is taken sets its bank's owner. -/
theorem WordTaken.ownerSet {id : Nat} (h : WordTaken s id w.toNat) :
    OwnerSet s (w.toNat % 256) (w.toNat / 256 % 256) (setOwner s (w.toNat % 256) (w.toNat / 256 % 256)) := by
  obtain ⟨hb, _⟩ := h
  exact setOwner_ownerSet hb (Nat.mod_lt _ (by decide))

end

/-- Settles O34: which words are taken by `handoverRefused_eq_false_iff`, what they do by `setOwner_ownerSet`. -/
theorem bankHandovers : Obligations.BankHandovers := by
  intro who src w s n owner old taken g wakes charge effect id
  have hid : id = srcId src := by cases src <;> rfl
  refine ⟨fun hrun hwho => ⟨fun h => ?_, fun h => ?_⟩, fun hserved => ⟨fun h => ?_, fun h => ?_⟩⟩
  · have htaken : WordTaken s who.toNat w.toNat := h
    exact ⟨_, (exec_handoverWord hrun hwho).trans (by rw [handover_taken htaken]), htaken.ownerSet⟩
  · have hrefused : ¬ WordTaken s who.toNat w.toNat := h
    rw [exec_handoverWord hrun hwho, handover_refused hrefused]
  · have htaken : WordTaken s (srcId src) w.toNat := hid ▸ h
    exact ⟨_, (exec_bnkHandoverWrite hserved).trans (by rw [bankHandover_taken htaken]), htaken.ownerSet⟩
  · have hrefused : ¬ WordTaken s (srcId src) w.toNat := hid ▸ h
    exact ⟨_, (exec_bnkHandoverWrite hserved).trans (by rw [bankHandover_refused hrefused]), rd_wr_same _ _ (by decide),
      (RegsKept.refl s _).wr (List.mem_singleton_self _) 1, rfl⟩

end Sys2Proof.Machine
end

section
/-! SUPPORT. Vector instructions (R180 to R182): what a core finds after its fetch, lanes packed into a register and read out of it, and the
lane-wise operations by what each lane gives. -/

namespace Sys2Proof.Machine

/-! ### The core that an instruction finds -/

theorem emberPut_cores (s : State) (u type value cmd : Nat) (valid : Bool) (hearth arg : Nat) :
    (emberPut s u type value cmd valid hearth arg).cores = s.cores := by
  unfold emberPut
  split <;> rfl

theorem lsCheckCount_cores (s : State) (k i n : Nat) : (lsCheck.cntHearthCore k s i n).cores = s.cores := by
  unfold lsCheck.cntHearthCore
  split <;> rfl

/-- Core c' is core c but for the record of its local store's flipped bits. -/
def SameButErrs (c c' : AwlCore) : Prop := ∃ e, c' = { c with lsErr := e }

theorem SameButErrs.trans {a b c : AwlCore} (h : SameButErrs a b) (h' : SameButErrs b c) : SameButErrs a c := by
  obtain ⟨_, rfl⟩ := h
  obtain ⟨e, rfl⟩ := h'
  exact ⟨e, rfl⟩

theorem SameButErrs.each {f : State → Nat → State} {k : Nat} (hf : ∀ u w, SameButErrs (getCore u k) (getCore (f u w) k)) (ws : List Nat)
    (u : State) : SameButErrs (getCore u k) (getCore (each ws u f) k) := by
  induction ws generalizing u with
  | nil => exact ⟨_, rfl⟩
  | cons w ws ih => exact (hf u w).trans (ih (f u w))

/-- A read of local-store words leaves of its core all but the record of flipped bits (R167). -/
theorem getCore_lsCheck (s : State) (k a n : Nat) : SameButErrs (getCore s k) (getCore (lsCheck s k a n).1 k) := by
  unfold lsCheck
  extract_lets c ws
  split
  · exact ⟨_, by rw [getCore, lsCheckCount_cores]; rfl⟩
  · refine SameButErrs.each (fun u w => ⟨(getCore u k).lsErr.erase w, ?_⟩) ws s
    simp only [getCore, lsCheckCount_cores, emberCode, emberPut_cores, satAdd, wr_cores]
    exact getCore_setCore_same u k _

section
variable (core : Core) (s : State)

/-- What an instruction finds of its core: all but the pc and the record of flipped bits as it stood. -/
theorem nextCore_eq : ∃ e, nextCore core s = { getCore s (coreKey core) with pc := (getCore s (coreKey core)).pc + 4, lsErr := e } := by
  obtain ⟨e, he⟩ := getCore_lsCheck s (coreKey core) (getCore s (coreKey core)).pc 4
  exact ⟨e, by unfold nextCore fetched; rw [he]⟩

theorem nextCore_reads {α : Type} (p : AwlCore → α) (hp : ∀ c pc e, p { c with pc := pc, lsErr := e } = p c) :
    p (nextCore core s) = p (getCore s (coreKey core)) := by
  obtain ⟨e, h⟩ := nextCore_eq core s
  rw [h, hp]

@[simp] theorem nextCore_subn : (nextCore core s).subn = (getCore s (coreKey core)).subn := nextCore_reads core s (·.subn) fun _ _ _ => rfl
@[simp] theorem nextCore_cstat : (nextCore core s).cstat = (getCore s (coreKey core)).cstat := nextCore_reads core s (·.cstat) fun _ _ _ => rfl
@[simp] theorem nextCore_domcnt : (nextCore core s).domcnt = (getCore s (coreKey core)).domcnt := nextCore_reads core s (·.domcnt) fun _ _ _ => rfl
@[simp] theorem nextCore_sridx : (nextCore core s).sridx = (getCore s (coreKey core)).sridx := nextCore_reads core s (·.sridx) fun _ _ _ => rfl
@[simp] theorem nextCore_lean : (nextCore core s).lean = (getCore s (coreKey core)).lean := nextCore_reads core s (·.lean) fun _ _ _ => rfl
@[simp] theorem nextCore_held : (nextCore core s).held = (getCore s (coreKey core)).held := nextCore_reads core s (·.held) fun _ _ _ => rfl
@[simp] theorem nextCore_vreg (n : Nat) : (nextCore core s).vreg n = (getCore s (coreKey core)).vreg n :=
  nextCore_reads core s (·.vreg n) fun _ _ _ => rfl
@[simp] theorem nextCore_sreg (n : Fin 32) : (nextCore core s).sreg n = (getCore s (coreKey core)).sreg n :=
  nextCore_reads core s (·.sreg n) fun _ _ _ => rfl

end

/-! ### Retiring -/

section
variable {core : Core} {i : Instr} {s : State}

theorem leanGate_ready {u : State} {c : AwlCore} (h : vectorReady c) (go : AwlRes) : leanGate u c go = go := by
  rw [leanGate, h]
  rfl

theorem nextCore_ready (h : vectorReady (getCore s (coreKey core))) : vectorReady (nextCore core s) := by
  rwa [vectorReady, nextCore_lean, nextCore_held]

/-- Vector arithmetic of a core that may run it retires. -/
theorem vecOp_retires (hat : AwlAt core i s) (hready : vectorReady (getCore s (coreKey core))) (f : AwlCore → AwlCore) :
    vecOp core i f s = .next (retire (fetched core s) (coreKey core) (f (nextCore core s))) := by
  rw [vecOp, awlStep_at hat]
  simp only [leanGate_ready (nextCore_ready hready)]

end

/-! ### Lanes (R180, Table 7-8) -/

theorem ofLanes_lt (w : Nat) (xs : List Nat) : ofLanes w xs < 2 ^ (w * xs.length) := by
  induction xs with
  | nil => simp [ofLanes]
  | cons x xs ih =>
    have hx : x % 2 ^ w < 2 ^ w := Nat.mod_lt _ (Nat.two_pow_pos w)
    calc ofLanes w (x :: xs)
      _ < 2 ^ w * (ofLanes w xs + 1) := by rw [ofLanes, Nat.mul_succ]; omega
      _ ≤ 2 ^ w * 2 ^ (w * xs.length) := Nat.mul_le_mul_left _ ih
      _ = 2 ^ (w * (x :: xs).length) := by rw [List.length_cons, Nat.mul_succ, Nat.pow_add, Nat.mul_comm]

theorem toNat_ofLanes {w n : Nat} {xs : List Nat} (h : w * xs.length ≤ n) : (BitVec.ofNat n (ofLanes w xs)).toNat = ofLanes w xs := by
  have hlt : ofLanes w xs < 2 ^ n := (ofLanes_lt w xs).trans_le (Nat.pow_le_pow_right Nat.two_pos h)
  rw [BitVec.toNat_ofNat, Nat.mod_eq_of_lt hlt]

/-- Packed lanes are read back one by one. -/
theorem bits_ofLanes (w : Nat) (xs : List Nat) (j : Nat) : bits (ofLanes w xs) (j * w) w = xs.getD j 0 % 2 ^ w := by
  induction xs generalizing j with
  | nil => simp [ofLanes, bits]
  | cons x xs ih =>
    cases j with
    | zero => simp [ofLanes, bits]
    | succ j =>
      have hdiv : (x % 2 ^ w + 2 ^ w * ofLanes w xs) / 2 ^ w = ofLanes w xs := by
        rw [Nat.add_mul_div_left _ _ (Nat.two_pow_pos w), Nat.div_eq_of_lt (Nat.mod_lt _ (Nat.two_pow_pos w)), Nat.zero_add]
      rw [bits, ofLanes, Nat.succ_mul, Nat.add_comm (j * w), Nat.pow_add, ← Nat.div_div_eq_div_mul, hdiv]
      exact ih j

/-- A lane of a register made of lanes that fit. -/
theorem vLane_vOf {et : Nat} {xs : List Nat} (h : etBits et * xs.length ≤ 512) (j : Nat) :
    vLane et (vOf et xs) j = xs.getD j 0 % 2 ^ etBits et := by
  rw [vLane, vOf, toNat_ofLanes h, bits_ofLanes]

theorem lanes_fit (et : Fin 8) : etBits et.val * etLanes et.val ≤ 512 := by revert et; decide

/-- The OR of flags onto what stands is the OR of what stands and of theirs. -/
theorem foldl_or {α : Type} (g : α → Nat) (xs : List α) (m n : Nat) :
    xs.foldl (fun a x => a ||| g x) (m ||| n) = m ||| xs.foldl (fun a x => a ||| g x) n := by
  induction xs generalizing n with
  | nil => rfl
  | cons x xs ih => rw [List.foldl_cons, Nat.or_assoc, ih, List.foldl_cons]

/-- A core with lane results in a register, and their flags in CSTAT. -/
def withLanes (et : Fin 8) (vd : Fin 16) (r : Nat → LaneRes) (c : AwlCore) : AwlCore :=
  let rs := (List.range (etLanes et.val)).map r
  { c.setV vd.val (vOf et.val (rs.map (·.1))) with cstat := rs.foldl (fun (a : Nat) (r : Nat × Nat) => a ||| r.2) c.cstat }

theorem withLanes_eq (et : Fin 8) (vd : Fin 16) (r : Nat → LaneRes) (c : AwlCore) :
    withLanes et vd r c = { c.setV vd.val (vOf et.val ((List.range (etLanes et.val)).map fun j => (r j).1)) with
      cstat := c.cstat ||| orLanes et fun j => (r j).2 } := by
  have h := foldl_or (fun j => (r j).2) (List.range (etLanes et.val)) c.cstat 0
  rw [Nat.or_zero] at h
  simp only [withLanes, List.map_map, List.foldl_map, orLanes, h]
  rfl

theorem lanesAre_vOf {et : Fin 8} (g : Nat → Nat) :
    lanesAre et (vOf et.val ((List.range (etLanes et.val)).map g)) fun j => g j % 2 ^ etBits et.val := by
  intro j hj
  rw [vLane_vOf (by simpa using lanes_fit et)]
  simp [hj]

theorem orLanes_congr {et : Fin 8} {g h : Nat → Nat} (e : ∀ j, g j = h j) : orLanes et g = orLanes et h := by rw [funext e]

/-- An instruction that runs as lane-wise vector arithmetic has the effect that its lanes say. -/
theorem vecEffect_of_lanes {core : Core} {i : Instr} {s : State} {et : Fin 8} {vd : Fin 16} {f : AwlCore → AwlCore} {r : Nat → LaneRes}
    {st g : Nat → Nat} (hexec : exec i s = vecOp core i f s) (hf : f (nextCore core s) = withLanes et vd r (nextCore core s))
    (hst : ∀ j, (r j).2 = st j) (hg : ∀ j, (r j).1 % 2 ^ etBits et.val = g j) :
    VecEffect core i s vd (orLanes et st) fun v => lanesAre et v g := by
  intro hat hready
  have hlanes := lanesAre_vOf (et := et) fun j => (r j).1
  refine ⟨_, _, hexec.trans (vecOp_retires hat hready f), by simpa only [hg] using hlanes, ?_⟩
  rw [hf, withLanes_eq, orLanes_congr hst]
  exact retire_retired core _ _

/-! ### Lane-wise arithmetic (Table 7-9, R181) -/

theorem mod_intBits (w : Nat) (x : Int) : intBits w x % 2 ^ w = (x % 2 ^ w).toNat := by
  have hpos : (0 : Int) < 2 ^ w := by positivity
  have hlt : intBits w x < 2 ^ w := by
    have h := Int.emod_lt_of_pos x hpos
    have h0 := Int.emod_nonneg x hpos.ne'
    rw [intBits, Int.toNat_lt h0]
    exact_mod_cast h
  exact Nat.mod_eq_of_lt hlt

theorem flagIf_subn (b : Bool) : flagIf b stSubn = if b = true then 1 else 0 := rfl

section
variable {core : Core} {i : Instr} {s : State} {et : Fin 8} {vd va vb : Fin 16}

/-- The results of lanes with an integer and a floating-point form. -/
theorem arith2_effect {iop : Nat → Int → Int → Int} {g : Int → Int → Int} {fop : FVal → FVal → FVal}
    (hexec : exec i s = arith2 core i et iop fop vd va vb s)
    (hint : ∀ a b, iop (etBits et.val) a b = g a b) :
    let c := getCore s (coreKey core)
    let load (r : Fin 16) (j : Nat) : FVal × Bool := (etFmt et.val).load c.subn (vLane et.val (c.vreg r.val) j)
    let num (r : Fin 16) (j : Nat) : Int := sext (etBits et.val) (vLane et.val (c.vreg r.val) j)
    let res (j : Nat) : Nat × Bool := (etFmt et.val).round c.subn (fop (load va j).1 (load vb j).1)
    VecEffect core i s vd (orLanes et fun j => if etFloat et.val && ((load va j).2 || (load vb j).2 || (res j).2) then 1 else 0)
      fun v => lanesAre et v fun j =>
        if etFloat et.val then (res j).1 % 2 ^ etBits et.val else (g (num va j) (num vb j) % 2 ^ etBits et.val).toNat := by
  intro c load num res
  refine vecEffect_of_lanes (r := fun j =>
    if etFloat et.val then fpLane2 (etFmt et.val) c.subn fop (vLane et.val (c.vreg va.val) j) (vLane et.val (c.vreg vb.val) j)
    else intLane (etBits et.val) (iop (etBits et.val) (num va j) (num vb j))) hexec ?_ (fun j => ?_) (fun j => ?_)
  · simp only [lanes2, withLanes, nextCore_subn, nextCore_vreg]
    rfl
  all_goals cases hF : etFloat et.val
  · rfl
  · simp only [if_true, Bool.true_and]; rfl
  · simp only [Bool.false_eq_true, if_false, intLane, mod_intBits, hint]
  · rfl

theorem lanes1_effect {iop g : Int → Int} {fop : Bool → FFmt → Nat → LaneRes} {st res : Nat → Nat}
    (hexec : exec i s = lanes1 core i et iop fop vd va s)
    (hint : ∀ a, iop a = g a)
    (hst : ∀ j, (fop (getCore s (coreKey core)).subn (etFmt et.val) (vLane et.val ((getCore s (coreKey core)).vreg va.val) j)).2 = st j)
    (hres : ∀ j, (fop (getCore s (coreKey core)).subn (etFmt et.val) (vLane et.val ((getCore s (coreKey core)).vreg va.val) j)).1 = res j) :
    VecEffect core i s vd (orLanes et fun j => if etFloat et.val then st j else 0)
      fun v => lanesAre et v fun j =>
        if etFloat et.val then res j % 2 ^ etBits et.val
        else (g (sext (etBits et.val) (vLane et.val ((getCore s (coreKey core)).vreg va.val) j)) % 2 ^ etBits et.val).toNat := by
  refine vecEffect_of_lanes (r := fun j =>
    if etFloat et.val then fop (getCore s (coreKey core)).subn (etFmt et.val) (vLane et.val ((getCore s (coreKey core)).vreg va.val) j)
    else intLane (etBits et.val) (iop (sext (etBits et.val) (vLane et.val ((getCore s (coreKey core)).vreg va.val) j))))
    hexec ?_ (fun j => ?_) (fun j => ?_)
  · simp only [vLanes, withLanes, List.map_map, nextCore_subn, nextCore_vreg]
    rfl
  all_goals cases hF : etFloat et.val
  · rfl
  · exact hst j
  · simp only [Bool.false_eq_true, if_false, intLane, mod_intBits, hint]
  · simp only [if_true, hres]

/-- One operand, in a floating-point form that loads, computes and rounds once. -/
theorem arith1_effect {iop g : Int → Int} {fop : FVal → FVal}
    (hexec : exec i s = lanes1 core i et iop (fun fl f a => fpLane1 f fl fop a) vd va s)
    (hint : ∀ a, iop a = g a) :
    let c := getCore s (coreKey core)
    let load (j : Nat) : FVal × Bool := (etFmt et.val).load c.subn (vLane et.val (c.vreg va.val) j)
    let res (j : Nat) : Nat × Bool := (etFmt et.val).round c.subn (fop (load j).1)
    VecEffect core i s vd (orLanes et fun j => if etFloat et.val && ((load j).2 || (res j).2) then 1 else 0)
      fun v => lanesAre et v fun j =>
        if etFloat et.val then (res j).1 % 2 ^ etBits et.val
        else (g (sext (etBits et.val) (vLane et.val (c.vreg va.val) j)) % 2 ^ etBits et.val).toNat := by
  intro c load res
  have heffect := lanes1_effect (g := g) hexec hint
    (st := fun j => if (load j).2 || (res j).2 then 1 else 0) (res := fun j => (res j).1) (fun _ => rfl) (fun _ => rfl)
  cases hF : etFloat et.val with
  | true => simpa only [hF, if_true, Bool.true_and] using heffect
  | false => simpa only [hF, Bool.false_eq_true, if_false, Bool.false_and] using heffect

/-- VFMA: three operands and one rounding. -/
theorem vfma_effect :
    let c := getCore s (coreKey core)
    let load (r : Fin 16) (j : Nat) : FVal × Bool := (etFmt et.val).load c.subn (vLane et.val (c.vreg r.val) j)
    let num (r : Fin 16) (j : Nat) : Int := sext (etBits et.val) (vLane et.val (c.vreg r.val) j)
    let res (j : Nat) : Nat × Bool := (etFmt et.val).round c.subn (FVal.fma (load vd j).1 (load va j).1 (load vb j).1)
    VecEffect core (.vfma core et vd va vb) s vd
      (orLanes et fun j => if etFloat et.val && ((load vd j).2 || (load va j).2 || (load vb j).2 || (res j).2) then 1 else 0)
      fun v => lanesAre et v fun j =>
        if etFloat et.val then (res j).1 % 2 ^ etBits et.val
        else ((num vd j + num va j * num vb j) % 2 ^ etBits et.val).toNat := by
  intro c load num res
  refine vecEffect_of_lanes (r := fun j =>
    if etFloat et.val then ((res j).1, flagIf ((load vd j).2 || (load va j).2 || (load vb j).2 || (res j).2) stSubn)
    else intLane (etBits et.val) (num vd j + num va j * num vb j))
    (show execVfma core et vd va vb s = vecOp core _ _ s from rfl) ?_ (fun j => ?_) (fun j => ?_)
  · simp only [withLanes, nextCore_subn, nextCore_vreg]
    rfl
  all_goals cases hF : etFloat et.val
  · rfl
  · simp only [if_true, Bool.true_and]; rfl
  · simp only [Bool.false_eq_true, if_false, intLane, mod_intBits]
  · rfl

end

/-! ### Functions of R182 -/

/-- What a function's lane is for an operand x: NaN, a fixed special case, or the k-th of the encodings within the bound. -/
def transRes (f : FFmt) (flush : Bool) (ulps : Nat) (special : FVal → Option FVal) (exact : FVal → FVal) (x : FVal) (k : Nat) : Nat × Bool :=
  if x.isNan then (f.nan, false) else
  match special x with
  | some v => ((f.round flush v).1, false)
  | none => f.choose flush ulps (exact x) k

/-- The number by which a function picks among the encodings within the bound (log entry 5). -/
def transPick (fn et : Nat) (flush : Bool) (f : FFmt) (a : Nat) : Nat :=
  Config.transcend fn et flush (if (f.load flush a).2 then f.zero (bit a (f.eb + f.mb)) else a)

theorem transLane_eq (fn ulps et : Nat) (special : FVal → Option FVal) (exact : FVal → FVal) (flush : Bool) (f : FFmt) (a : Nat) :
    transLane fn ulps et special exact flush f a =
      let x := f.load flush a
      let r := transRes f flush (if et = 6 then ulps else 1) special exact x.1 (transPick fn et flush f a)
      (r.1, flagIf (x.2 || r.2) stSubn) := by
  unfold transLane transRes transPick
  obtain ⟨x, fx⟩ := f.load flush a
  have hor : ∀ a b : Bool, flagIf a stSubn ||| flagIf b stSubn = flagIf (a || b) stSubn := by decide
  cases x with
  | nan => simp only [FVal.isNan, if_true, Bool.or_false]
  | inf neg => cases h : special (.inf neg) <;> simp only [FVal.isNan, Bool.false_eq_true, if_false, h, hor, Bool.or_false]
  | fin neg m e => cases h : special (.fin neg m e) <;> simp only [FVal.isNan, Bool.false_eq_true, if_false, h, hor, Bool.or_false]

theorem trans_effect {core : Core} {i : Instr} {s : State} {et : Fin 8} {vd va : Fin 16} {fn ulps : Nat} {special : FVal → Option FVal}
    {exact : FVal → FVal} (hF : etFloat et.val = true) (hexec : exec i s = lanes1 core i et id (transLane fn ulps et.val special exact) vd va s) :
    let c := getCore s (coreKey core)
    let f := etFmt et.val
    let x (j : Nat) : FVal × Bool := f.load c.subn (vLane et.val (c.vreg va.val) j)
    ∃ k : Nat → Nat, (∀ i j, vLane et.val (c.vreg va.val) i = vLane et.val (c.vreg va.val) j → k i = k j) ∧
      let r (j : Nat) : Nat × Bool := transRes f c.subn (if et = 6 then ulps else 1) special exact (x j).1 (k j)
      VecEffect core i s vd (orLanes et fun j => if (x j).2 || (r j).2 then 1 else 0)
        fun v => lanesAre et v fun j => (r j).1 % 2 ^ etBits et.val := by
  intro c f x
  have het : (if et = 6 then ulps else 1) = if et.val = 6 then ulps else 1 := by simp only [Fin.ext_iff]; rfl
  refine ⟨fun j => transPick fn et.val c.subn f (vLane et.val (c.vreg va.val) j), fun _ _ h => congrArg _ h, ?_⟩
  intro r
  have heffect := lanes1_effect (g := id) hexec (fun _ => rfl)
    (st := fun j => if (x j).2 || (r j).2 then 1 else 0) (res := fun j => (r j).1)
    (fun j => by rw [transLane_eq]; simp only [flagIf_subn, r, het]; rfl) (fun j => by rw [transLane_eq]; simp only [r, het]; rfl)
  simpa only [hF, if_true] using heffect

/-! ### Their special cases -/

def expSpecial (v : FVal) : Option FVal :=
  match v with
  | .inf true => some (.fin false 0 0)
  | .inf false => some (.inf false)
  | _ => none

def logSpecial (v : FVal) : Option FVal :=
  if v.isZero then some (.inf true) else if v.isNeg then some .nan else
  match v with
  | .inf false => some v
  | _ => none

/-- VTANH and VERF go to 1 with the sign of an infinity. -/
def limitSpecial (v : FVal) : Option FVal :=
  match v with
  | .inf n => some (.fin n 1 0)
  | _ => none

section
variable (core : Core) (et : Fin 8) (vd va : Fin 16) (s : State)

theorem exec_vexp : exec (.vexp core et vd va) s =
    lanes1 core (.vexp core et vd va) et id (transLane 0 2 et.val expSpecial FVal.expOf) vd va s := rfl

theorem exec_vlog : exec (.vlog core et vd va) s =
    lanes1 core (.vlog core et vd va) et id (transLane 1 2 et.val logSpecial FVal.logOf) vd va s := by
  show execVlog core et vd va s = _
  unfold execVlog
  congr 2
  funext x
  cases x with
  | inf neg => cases neg <;> rfl
  | _ => rfl

theorem exec_vtanh : exec (.vtanh core et vd va) s =
    lanes1 core (.vtanh core et vd va) et id (transLane 2 3 et.val limitSpecial FVal.tanhOf) vd va s := rfl

theorem exec_verf : exec (.verf core et vd va) s =
    lanes1 core (.verf core et vd va) et id (transLane 3 3 et.val limitSpecial FVal.erfOf) vd va s := rfl

end

/-! ### VFMAW (Table 7-9) -/

/-- What VFMAW makes of lane j of the pair, and the flag that it raises. -/
def vfmawLane (et : Fin 8) (vd va : Fin 16) (x : Fin 32) (c : AwlCore) (j : Nat) : LaneRes :=
  let xv := (etFmt et.val).load c.subn ((c.sreg x).toNat % 65536)
  let a := (etFmt et.val).load c.subn (vLane et.val (c.vreg va.val) j)
  let d := fp32.load c.subn (vLane 6 (c.vreg (vd.val + j / 16)) (j % 16))
  let r := fp32.round c.subn (FVal.fma d.1 a.1 xv.1)
  (r.1, flagIf (xv.2 || a.2 || d.2 || r.2) stSubn)

theorem vfmawLane_nextCore (et : Fin 8) (vd va : Fin 16) (x : Fin 32) (core : Core) (s : State) :
    vfmawLane et vd va x (nextCore core s) = vfmawLane et vd va x (getCore s (coreKey core)) := by
  funext j
  simp only [vfmawLane, nextCore_subn, nextCore_vreg, nextCore_sreg]

/-- A core with 32 lane results in a pair of registers, and their flags in CSTAT. -/
def withPair (vd : Fin 16) (r : Nat → LaneRes) (c : AwlCore) : AwlCore :=
  let rs := (List.range 32).map r
  let ns := rs.map (·.1)
  { (c.setV vd.val (vOf 6 (ns.take 16))).setV (vd.val + 1) (vOf 6 (ns.drop 16)) with
    cstat := rs.foldl (fun (a : Nat) (r : Nat × Nat) => a ||| r.2) c.cstat }

theorem execVfmaw_eq (core : Core) (et : Fin 8) (vd va : Fin 16) (x : Fin 32) (s : State) :
    exec (.vfmaw core et vd va x) s = vecOp core (.vfmaw core et vd va x) (fun c => withPair vd (vfmawLane et vd va x c) c) s := rfl

/-- The lanes of a pair, read from its two registers. -/
theorem vLane_pair (r : Nat → Nat) {j : Nat} (hj : j < 16) :
    vLane 6 (vOf 6 (((List.range 32).map r).take 16)) j = r j % 2 ^ 32 ∧
    vLane 6 (vOf 6 (((List.range 32).map r).drop 16)) j = r (16 + j) % 2 ^ 32 := by
  constructor
  · rw [vLane_vOf (by simp [etBits])]
    simp [hj, etBits, List.getD_eq_getElem?_getD]
  · rw [vLane_vOf (by simp [etBits])]
    simp [etBits, List.getD_eq_getElem?_getD, List.getElem?_range (show 16 + j < 32 by omega)]

theorem vfmaw_retires {core : Core} {et : Fin 8} {vd va : Fin 16} {x : Fin 32} {s : State} (hat : AwlAt core (.vfmaw core et vd va x) s)
    (hready : vectorReady (getCore s (coreKey core))) :
    let c := getCore s (coreKey core)
    let r := vfmawLane et vd va x c
    ∃ t lo hi, exec (.vfmaw core et vd va x) s = .next t ∧
      (∀ j, j < 16 → vLane 6 lo j = (r j).1 % 2 ^ 32 ∧ vLane 6 hi j = (r (16 + j)).1 % 2 ^ 32) ∧
      AwlRetired core (fetched core s)
        { ((nextCore core s).setV vd.val lo).setV (vd.val + 1) hi with
          cstat := c.cstat ||| (List.range 32).foldl (fun m j => m ||| (r j).2) 0 } t := by
  intro c r
  have hflags := foldl_or (fun j => (r j).2) (List.range 32) c.cstat 0
  rw [Nat.or_zero] at hflags
  refine ⟨_, _, _, (execVfmaw_eq core et vd va x s).trans (vecOp_retires hat hready _), fun j hj => vLane_pair (fun j => (r j).1) hj, ?_⟩
  rw [← hflags, vfmawLane_nextCore, withPair, List.map_map, List.foldl_map, nextCore_cstat]
  exact retire_retired core _ _

end Sys2Proof.Machine
end

section
/-! SUPPORT. VCVT (R185, R186): which pairs it converts, how many bytes it makes, and what it leaves of its core; and the statement about vector
results. -/

namespace Sys2Proof.Machine

/-! ### The bytes of a conversion -/

theorem vcvtPair_iff (d f : Fmt) : vcvtPair d f = true ↔
    (d ≠ f ∧ d.isDq = false ∧ f.isDq = false) ∨ (f.isDq = true ∧ d.float.isSome = true) ∨ (d.isDq = true ∧ f.float.isSome = true) := by
  simp only [vcvtPair, Bool.or_eq_true, Bool.and_eq_true, bne_iff_ne, ne_eq, Bool.not_eq_true', or_assoc, and_assoc,
    and_comm (a := f.float.isSome = true)]

theorem leNat_append (a b : Bytes) : leNat (a ++ b) = leNat a + 2 ^ (8 * a.length) * leNat b := by
  induction a with
  | nil => simp [leNat]
  | cons x xs ih =>
    have hpow : 2 ^ (8 * (xs.length + 1)) = 256 * 2 ^ (8 * xs.length) := by rw [Nat.mul_succ, Nat.pow_add, Nat.mul_comm]
    rw [List.cons_append, leNat, ih, leNat, List.length_cons, hpow, Nat.mul_add, Nat.mul_assoc, Nat.add_assoc]

/-- A register filled from bytes and zeros holds no more than the bytes. -/
theorem bytesV_zeros_lt {b : Bytes} (h : b.length ≤ 64) (n : Nat) : (bytesV (b ++ zeros n)).toNat < 2 ^ (8 * b.length) := by
  have hz : leNat ((zeros n).take (64 - b.length)) = 0 := by rw [zeros, List.take_replicate]; exact leNat_zeros _
  rw [bytesV, BitVec.toNat_ofNat, List.take_append, List.take_of_length_le h, leNat_append, hz, Nat.mul_zero, Nat.add_zero]
  exact (Nat.mod_le _ _).trans_lt (leNat_lt b)

/-- Packed elements of whole bytes, one after another (R82). -/
theorem pack_cons {w : Nat} (h : w ≠ 4) (x : Nat) (xs : List Nat) : pack w (x :: xs) = leBytes (w / 8) x ++ pack w xs := by
  cases xs with
  | nil => simp [pack, h]
  | cons y ys => simp [pack, h]

theorem pack_length_bytes {w : Nat} (h : w ≠ 4) (xs : List Nat) : (pack w xs).length = xs.length * (w / 8) := by
  induction xs with
  | nil => simp [pack]
  | cons x xs ih => rw [pack_cons h, List.length_append, leBytes_length, ih, List.length_cons, Nat.succ_mul, Nat.add_comm]

theorem pack_length_nibbles : ∀ xs : List Nat, (pack 4 xs).length = (xs.length + 1) / 2
  | [] => rfl
  | [_] => by simp [pack]
  | x :: y :: xs => by
    simp only [pack, if_true, List.length_cons, pack_length_nibbles xs]
    omega

/-- The 32 elements of a VCVT take four bytes a bit. -/
theorem pack_length_32 (d : Fmt) {xs : List Nat} (h : xs.length = 32) : (pack d.bits xs).length = 4 * d.bits := by
  by_cases h4 : d.bits = 4
  · rw [h4, pack_length_nibbles, h]
  · rw [pack_length_bytes h4, h]
    revert h4
    cases d <;> decide

/-- A block holds an element for each of its inputs (R100). -/
theorem storeBlock_elems_length (f : Fmt) {vs ys : List FVal} (h : ys.length = vs.length) (rnd : Nat → Rnd) (fl : Nat) :
    (storeBlock f vs ys rnd fl).elems.length = vs.length := by
  have hq : ∀ q : FVal × Nat → Int, ((ys.zip (List.range ys.length)).map q).length = vs.length := by simp [h]
  unfold storeBlock
  split
  · exact List.length_map _
  · extract_lets a
    clear_value a
    cases a with
    | nan => exact List.length_map _
    | inf neg => exact List.length_map _
    | fin neg m x =>
      dsimp only
      split
      · exact List.length_map _
      · split
        · exact List.length_map _
        · exact hq _

theorem vcvtBytes_length_le (c : AwlCore) (rm : Nat) (d sf : Fmt) (va : Nat) :
    (vcvtBytes c rm d sf va).1.length ≤ 4 * d.bits + if d.isDq then 1 else 0 := by
  unfold vcvtBytes
  extract_lets src code src' raws rnd rs
  have hraws : raws.length = 32 := by simp [raws]
  cases d.isDq with
  | true =>
    simp only [if_true]
    cases sf.float with
    | none => simp
    | some f =>
      have hblock := storeBlock_elems_length d (vs := (raws.map (f.load c.subn)).map (·.1))
        (ys := (((raws.map (f.load c.subn)).map (·.1)).map fun v => scaleTo fp32 v c.scale.1).map fun y => fp32.decode y.1) (by simp)
      simp only [List.length_cons]
      rw [pack_length_32 d (by rw [List.length_map, hblock]; simpa using hraws)]
  | false =>
    have hrs : rs.length = 32 := by simp [rs, hraws]
    simp only [Bool.false_eq_true, if_false]
    rw [pack_length_32 d (by rw [List.length_map, hrs])]
    exact Nat.le_add_right _ _

theorem vcvtBytes_dominated_le (c : AwlCore) (rm : Nat) (d sf : Fmt) (va : Nat) : (vcvtBytes c rm d sf va).2.2 ≤ 1 := by
  unfold vcvtBytes
  extract_lets src code src' raws
  cases d.isDq with
  | true =>
    simp only [if_true]
    cases sf.float with
    | none => simp
    | some f => dsimp only; split <;> decide
  | false => simp

/-! ### What a VCVT comes to -/

/-- The core that a VCVT leaves. -/
def converted (c : AwlCore) (vd va : Fin 16) (rm : Fin 2) (d sf : Fmt) : AwlCore :=
  let r := vcvtBytes c rm.val d sf va.val
  let b := r.1 ++ zeros (128 - r.1.length)
  let vs := c.vregs.set vd.val (bytesV b)
  { c with
    vregs := if d.bits = 32 then vs.set (vd.val + 1) (bytesV (b.drop 64)) else vs, cstat := c.cstat ||| r.2.1,
    domcnt := c.domcnt + r.2.2, sridx := if rm.val = 1 then c.sridx + 32 else c.sridx }

section
variable {core : Core} {vd va : Fin 16} {rm : Fin 2} {dfmt sfmt : BitVec 8} {s : State}

theorem vcvt_reserved (hat : AwlAt core (.vcvt core vd va rm dfmt sfmt) s) (h : Fmt.ofCode dfmt.toNat = none ∨ Fmt.ofCode sfmt.toNat = none) :
    exec (.vcvt core vd va rm dfmt sfmt) s =
      .next (awlFault (fetched core s) (coreKey core) Code.FMT_RESERVED 0 (getCore s (coreKey core)).word) := by
  show execVcvt core vd va rm dfmt sfmt s = _
  rw [execVcvt, awlStep_at hat]
  rcases h with h | h
  · simp only [h]
  · simp only [h]
    cases Fmt.ofCode dfmt.toNat <;> rfl

variable {d f : Fmt} (hat : AwlAt core (.vcvt core vd va rm dfmt sfmt) s) (hd : Fmt.ofCode dfmt.toNat = some d)
  (hf : Fmt.ofCode sfmt.toNat = some f)
include hat hd hf

theorem vcvt_pair (h : vcvtPair d f = false) : exec (.vcvt core vd va rm dfmt sfmt) s =
    .next (awlFault (fetched core s) (coreKey core) Code.FMT_PAIR 0 (getCore s (coreKey core)).word) := by
  show execVcvt core vd va rm dfmt sfmt s = _
  rw [execVcvt, awlStep_at hat]
  simp only [hd, hf, h, Bool.not_false, if_true]

theorem vcvt_round (h : vcvtPair d f = true) (hr : rm.val = 1 ∧ d ≠ .bf16 ∧ d.isDq = false) : exec (.vcvt core vd va rm dfmt sfmt) s =
    .next (awlFault (fetched core s) (coreKey core) Code.FMT_ROUND 0 (getCore s (coreKey core)).word) := by
  have hr' : rm.val = 1 ∧ d ≠ .bf16 ∧ (!d.isDq) = true := by simpa using hr
  show execVcvt core vd va rm dfmt sfmt s = _
  rw [execVcvt, awlStep_at hat]
  simp only [hd, hf, h, Bool.not_true, Bool.false_eq_true, if_false, if_pos hr']

theorem vcvt_converts (h : vcvtPair d f = true) (hr : ¬ (rm.val = 1 ∧ d ≠ .bf16 ∧ d.isDq = false))
    (hready : vectorReady (getCore s (coreKey core))) :
    exec (.vcvt core vd va rm dfmt sfmt) s =
      .next (retire (fetched core s) (coreKey core) (converted (nextCore core s) vd va rm d f)) := by
  have hr' : ¬ (rm.val = 1 ∧ d ≠ .bf16 ∧ (!d.isDq) = true) := by simpa using hr
  show execVcvt core vd va rm dfmt sfmt s = _
  rw [execVcvt, awlStep_at hat]
  simp only [hd, hf, h, Bool.not_true, Bool.false_eq_true, if_false, if_neg hr', leanGate_ready (nextCore_ready hready), converted]
  split <;> rfl

end

section
variable {c : AwlCore} {vd va : Fin 16} {rm : Fin 2} {d f : Fmt}

/-- A VCVT changes vd alone, and with 32-bit elements the register after it. -/
theorem vreg_converted_other {r : Fin 16} (hvd : r ≠ vd) (hnext : d.bits = 32 → r.val ≠ vd.val + 1) :
    (converted c vd va rm d f).vreg r.val = c.vreg r.val := by
  have hne : vd.val ≠ r.val := fun e => hvd (Fin.ext e.symm)
  simp only [AwlCore.vreg, converted]
  split
  · next h32 => rw [Smap.get_set_ne _ _ _ (hnext h32).symm, Smap.get_set_ne _ _ _ hne]
  · rw [Smap.get_set_ne _ _ _ hne]

/-- The bytes of vd that the format does not use are zero. -/
theorem vreg_converted_lt (h32 : d.bits < 32) : ((converted c vd va rm d f).vreg vd.val).toNat < 2 ^ (32 * d.bits + if d.isDq then 8 else 0) := by
  have hlen := vcvtBytes_length_le c rm.val d f va.val
  have h64 : 4 * d.bits + (if d.isDq then 1 else 0) ≤ 64 := by revert h32; cases d <;> decide
  have hbits : 8 * (4 * d.bits + if d.isDq then 1 else 0) = 32 * d.bits + if d.isDq then 8 else 0 := by split <;> omega
  simp only [AwlCore.vreg, converted, if_neg (Nat.ne_of_lt h32), Smap.get_set_same]
  calc (bytesV _).toNat
    _ < 2 ^ (8 * (vcvtBytes c rm.val d f va.val).1.length) := bytesV_zeros_lt (hlen.trans h64) _
    _ ≤ _ := Nat.pow_le_pow_right (by decide) (hbits ▸ Nat.mul_le_mul_left 8 hlen)

end

/-! ### The parts of the statement -/

/-- A number clamped to an interval that is not empty. -/
theorem clampInt_eq {lo hi : Int} (h : lo ≤ hi) (x : Int) : clampInt lo hi x = max lo (min hi x) := by
  unfold clampInt
  split
  · omega
  · split <;> omega

theorem signedMin_le_signedMax (w : Nat) : -(2 ^ (w - 1) : Int) ≤ 2 ^ (w - 1) - 1 := by
  have : (0 : Int) < 2 ^ (w - 1) := by positivity
  omega

/-- VADDS and VSUBS saturate at the bounds of a signed lane (R181). -/
def satLane (w : Nat) (x : Int) : Int := clampInt (-(2 ^ (w - 1))) (2 ^ (w - 1) - 1) x

theorem satLane_eq (w : Nat) (x : Int) : satLane w x = max (-(2 ^ (w - 1))) (min (2 ^ (w - 1) - 1) x) := clampInt_eq (signedMin_le_signedMax w) x

section
variable (core : Core) (et : Fin 8) (vd va : Fin 16) (s : State)

theorem exec_vabs : exec (.vabs core et vd va) s =
    lanes1 core (.vabs core et vd va) et (fun a => if a < 0 then -a else a) (fun fl f a => fpLane1 f fl FVal.abs a) vd va s := rfl

theorem exec_vneg : exec (.vneg core et vd va) s =
    lanes1 core (.vneg core et vd va) et (fun a => -a) (fun fl f a => fpLane1 f fl FVal.neg a) vd va s := rfl

theorem exec_vsqrt : exec (.vsqrt core et vd va) s =
    lanes1 core (.vsqrt core et vd va) et id (fun fl f a => fpLane1 f fl FVal.sqrt a) vd va s := rfl

end

/-- Settles O11: lanes by `vecEffect_of_lanes`, the functions of R182 by `trans_effect`, VCVT by `converted`. -/
theorem awlVectorResults : Obligations.AwlVectorResults := by
  refine ⟨fun core et vd va vb s => ?_, fun core et vd va x s => vfmaw_retires, fun core et vd va s hF => ?_,
    fun core vd va rm dfmt sfmt s hat => ⟨vcvt_reserved hat, fun d f hd hf => ?_⟩⟩
  · refine ⟨arith2_effect (iop := fun _ a b => a + b) rfl fun _ _ => rfl, arith2_effect (iop := fun _ a b => a - b) rfl fun _ _ => rfl,
      arith2_effect (iop := fun _ a b => a * b) rfl fun _ _ => rfl,
      arith2_effect (iop := fun _ a b => if a ≤ b then a else b) rfl fun a b => (Int.min_def a b).symm,
      arith2_effect (iop := fun _ a b => if a ≤ b then b else a) rfl fun a b => (Int.max_def a b).symm,
      arith2_effect (iop := fun w a b => satLane w (a + b)) rfl fun _ _ => satLane_eq _ _,
      arith2_effect (iop := fun w a b => satLane w (a - b)) rfl fun _ _ => satLane_eq _ _,
      fun _ => arith2_effect (iop := fun _ a _ => a) rfl fun _ _ => rfl,
      arith1_effect (g := fun a => (a.natAbs : Int)) (exec_vabs core et vd va s) fun a => ?_,
      arith1_effect (g := fun a => -a) (exec_vneg core et vd va s) fun _ => rfl,
      fun _ => arith1_effect (g := id) (exec_vsqrt core et vd va s) fun _ => rfl, vfma_effect⟩
    split <;> omega
  · exact ⟨trans_effect hF (exec_vexp core et vd va s), trans_effect hF (exec_vlog core et vd va s),
      trans_effect hF (exec_vtanh core et vd va s), trans_effect hF (exec_verf core et vd va s)⟩
  · refine ⟨fun hpair => ?_, fun hpair hround => ?_, fun hpair hround hready => ?_⟩
    · exact vcvt_pair hat hd hf (Bool.eq_false_iff.2 fun h => hpair ((vcvtPair_iff d f).1 h))
    · exact vcvt_round hat hd hf ((vcvtPair_iff d f).2 hpair) hround
    · refine ⟨_, converted (nextCore core s) vd va rm d f, vcvt_converts hat hd hf ((vcvtPair_iff d f).2 hpair) hround hready,
        retire_retired core _ _, rfl, fun r hvd hnext => ?_, ?_, ?_, ?_, ?_, vreg_converted_lt⟩
      · rw [vreg_converted_other hvd hnext, nextCore_vreg]
      · exact ⟨_, congrArg (· ||| _) (nextCore_cstat core s)⟩
      · simp only [converted, nextCore_sridx]
      · simp only [converted, nextCore_domcnt, Nat.le_add_right]
      · simpa only [converted, nextCore_domcnt] using Nat.add_le_add_left (vcvtBytes_dominated_le _ _ _ _ _) _

end Sys2Proof.Machine
end

section
/-! SUPPORT. A store of a tensor that is no block format (R82, R99): its elements are writes of bytes at places within its lines, and of writes at
places that do not overlap each is read back. -/

namespace Sys2Proof.Machine

/-! ### A run of writes -/

section
variable {α : Type} {a : α → Nat} {b : α → Bytes} {s : State}

/-- The writes of a list, in its order. -/
def pokeAll (xs : List α) (s : State) (a : α → Nat) (b : α → Bytes) : State := each xs s fun s x => poke s (a x) (b x)

theorem pokeAll_frame (xs : List α) (s : State) : pokeAll xs s a b = { s with mem := (pokeAll xs s a b).mem } := by
  induction xs generalizing s with
  | nil => rfl
  | cons x xs ih => exact ih (poke s (a x) (b x))

theorem peek_pokeAll_outside {xs : List α} {y : Nat} (h : ∀ x ∈ xs, y < a x ∨ a x + (b x).length ≤ y) :
    peek (pokeAll xs s a b) y = peek s y := by
  induction xs generalizing s with
  | nil => rfl
  | cons x xs ih =>
    calc peek (pokeAll xs (poke s (a x) (b x)) a b) y
      _ = peek (poke s (a x) (b x)) y := ih fun z hz => h z (List.mem_cons_of_mem _ hz)
      _ = peek s y := Memory.get_setBytes_outside (h x List.mem_cons_self)

/-- A write that no other overlaps is read back. -/
theorem peek_pokeAll_inside {xs : List α} (hs : Inv s) {x : α} (hx : x ∈ xs)
    (hd : ∀ y ∈ xs, y ≠ x → a x + (b x).length ≤ a y ∨ a y + (b y).length ≤ a x) {i : Nat} (hi : i < (b x).length) :
    peek (pokeAll xs s a b) (a x + i) = (b x)[i] := by
  induction xs generalizing s with
  | nil => exact absurd hx List.not_mem_nil
  | cons y ys ih =>
    by_cases hm : x ∈ ys
    · exact ih (Memory.setBytes_wf hs (a y) (b y)) hm fun z hz => hd z (List.mem_cons_of_mem _ hz)
    · obtain rfl : x = y := (List.mem_cons.1 hx).resolve_right hm
      have hlater : peek (pokeAll ys (poke s (a x) (b x)) a b) (a x + i) = peek (poke s (a x) (b x)) (a x + i) :=
        peek_pokeAll_outside fun z hz => by
          have := hd z (List.mem_cons_of_mem _ hz) (fun e => hm (e ▸ hz))
          omega
      exact hlater.trans (Memory.get_setBytes_inside hs hi)

theorem peekBytes_pokeAll {xs : List α} (hs : Inv s) {x : α} (hx : x ∈ xs)
    (hd : ∀ y ∈ xs, y ≠ x → a x + (b x).length ≤ a y ∨ a y + (b y).length ≤ a x) :
    peekBytes (pokeAll xs s a b) (a x) (b x).length = b x :=
  map_range_eq_of_getElem fun _ hi => peek_pokeAll_inside hs hx hd hi

end

/-! ### Index lists -/

/-- An index list counts below each size. -/
theorem mem_indexLists {ns ix : List Nat} : ix ∈ indexLists ns ↔ List.Forall₂ (· < ·) ix ns := by
  induction ns generalizing ix with
  | nil => simp [indexLists]
  | cons n ns ih =>
    simp only [indexLists, List.mem_flatMap, List.mem_map, List.mem_range, List.forall₂_cons_right_iff]
    constructor
    · rintro ⟨t, ht, i, hi, rfl⟩
      exact ⟨i, t, hi, ih.1 ht, rfl⟩
    · rintro ⟨i, t, hi, ht, rfl⟩
      exact ⟨t, ih.2 ht, i, hi, rfl⟩

/-- A list with an index has no size 0. -/
theorem prod_ne_zero_of_mem_indexLists {ns ix : List Nat} (h : ix ∈ indexLists ns) : ns.prod ≠ 0 := by
  have hall : ∀ n ∈ ns, n ≠ 0 := by
    intro n hn
    obtain ⟨i, hi, rfl⟩ := List.mem_iff_getElem.1 hn
    obtain ⟨hlen, hget⟩ := List.forall₂_iff_get.1 (mem_indexLists.1 h)
    have hlt := hget i (by omega) hi
    simp only [List.get_eq_getElem] at hlt
    omega
  exact List.prod_ne_zero fun h0 => hall 0 h0 rfl

section
variable {d : Desc} {f : Fmt} {ix : List Nat}

/-- The sizes that a descriptor of a sound rank gives an index list. -/
theorem Desc.getD_lt_size (hlen : d.sizes.length = d.rank) (h : ix ∈ indexLists d.sizes) {i : Nat} (hi : i < d.rank) :
    ix.getD i 0 < d.size i := by
  obtain ⟨hl, hget⟩ := List.forall₂_iff_get.1 (mem_indexLists.1 h)
  have hs : i < d.sizes.length := by omega
  have hx : i < ix.length := by omega
  rw [Desc.size, if_pos hi, List.getD_eq_getElem _ _ hs, List.getD_eq_getElem _ _ hx]
  simpa using hget i hx hs

/-- A descriptor with an index has a rank and elements. -/
theorem Desc.nonempty_of_mem_indices (h : ix ∈ d.indices) : d.rank ≠ 0 ∧ ix ∈ indexLists d.sizes ∧ d.count ≠ 0 := by
  unfold Desc.indices at h
  split at h
  · exact absurd h List.not_mem_nil
  · next hr =>
    refine ⟨hr, h, ?_⟩
    rw [Desc.count, if_neg hr, ← List.prod_eq_foldl]
    exact prod_ne_zero_of_mem_indexLists h

/-! ### Lines -/

/-- Of an index list the line sees the dims 1 and up. -/
theorem Desc.lineAddr_cons (i j : Nat) (t : List Nat) : d.lineAddr (i :: t) = d.lineAddr (j :: t) := by
  unfold Desc.lineAddr
  refine List.foldl_ext _ _ _ fun a k _ => ?_
  cases k <;> rfl

/-- A fold that adds is no less where each addend is no less. -/
theorem foldl_add_le {g h : Nat → Nat} {xs : List Nat} {a b : Nat} (hab : a ≤ b) (hgh : ∀ i ∈ xs, g i ≤ h i) :
    xs.foldl (fun a i => if i = 0 then a else a + g i) a ≤ xs.foldl (fun a i => if i = 0 then a else a + h i) b := by
  induction xs generalizing a b with
  | nil => exact hab
  | cons x xs ih =>
    have hx := hgh x List.mem_cons_self
    refine ih (a := if x = 0 then a else a + g x) (b := if x = 0 then b else b + h x) ?_ fun i hi => hgh i (List.mem_cons_of_mem _ hi)
    split <;> omega

theorem foldl_add_base (g : Nat → Nat) (xs : List Nat) (a b : Nat) :
    xs.foldl (fun a i => if i = 0 then a else a + g i) (a + b) = a + xs.foldl (fun a i => if i = 0 then a else a + g i) b := by
  induction xs generalizing b with
  | nil => rfl
  | cons x xs ih =>
    by_cases hx : x = 0
    · simp [hx, ih]
    · simp only [List.foldl_cons, if_neg hx, Nat.add_assoc, ih]

/-- Every line lies within the tensor's span. -/
theorem Desc.line_le_span (hlen : d.sizes.length = d.rank) (h : ix ∈ d.indices) : d.lineAddr ix + d.lineBytes ≤ d.base + d.span := by
  obtain ⟨_, hix, hcount⟩ := Desc.nonempty_of_mem_indices h
  have hle : d.lineAddr ix ≤ (List.range d.rank).foldl (fun a i => if i = 0 then a else a + (d.size i - 1) * d.stride i) (d.base + 0) :=
    foldl_add_le (Nat.le_refl _) fun i hi =>
      Nat.mul_le_mul_right _ (by have := Desc.getD_lt_size hlen hix (List.mem_range.1 hi); omega)
  rw [foldl_add_base] at hle
  rw [Desc.span, if_neg hcount]
  omega

/-- Every index list's line is one of the tensor's ranges. -/
theorem Desc.line_mem_ranges (hlen : d.sizes.length = d.rank) (h : ix ∈ d.indices) : (d.lineAddr ix, d.lineBytes) ∈ d.ranges := by
  obtain ⟨hr, hix, hcount⟩ := Desc.nonempty_of_mem_indices h
  rw [mem_indexLists] at hix
  obtain ⟨n, ns, hsizes⟩ := List.exists_cons_of_length_pos (show 0 < d.sizes.length by omega)
  rw [hsizes, List.forall₂_cons_right_iff] at hix
  obtain ⟨i, t, _, ht, rfl⟩ := hix
  rw [Desc.ranges, if_neg hcount, hsizes]
  refine List.mem_append_left _ (List.mem_map.2 ⟨0 :: t, ?_, by rw [Desc.lineAddr_cons]⟩)
  exact mem_indexLists.2 (.cons Nat.one_pos ht)

end

/-! ### Elements -/

section
variable {d : Desc} {f : Fmt} {ix : List Nat}

/-- The bytes of an element of a format that takes whole bytes and is no block format (R82). -/
theorem Desc.elemAddr_plain (hdq : f.isDq = false) (h4 : f.bits ≠ 4) :
    d.elemAddr f ix = (d.lineAddr ix + ix.getD 0 0 * (f.bits / 8), f.bits / 8, 0) := by
  rw [Desc.elemAddr, hdq, if_neg h4]
  rfl

theorem Fmt.bits_eq_bytes (h4 : f.bits ≠ 4) : f.bits = 8 * (f.bits / 8) := by
  revert h4; cases f <;> decide

/-- An element's bytes lie within its line. -/
theorem Desc.elem_in_line (hlen : d.sizes.length = d.rank) (hf : d.format = some f) (hdq : f.isDq = false) (h4 : f.bits ≠ 4)
    (h : ix ∈ d.indices) : (d.elemAddr f ix).1 + f.bits / 8 ≤ d.lineAddr ix + d.lineBytes := by
  obtain ⟨hr, hix, _⟩ := Desc.nonempty_of_mem_indices h
  have hlt := Desc.getD_lt_size hlen hix (Nat.pos_of_ne_zero hr)
  have hline : d.lineBytes = d.size 0 * (f.bits / 8) := by
    have hsize : d.size 0 * f.bits = 8 * (d.size 0 * (f.bits / 8)) := by rw [Nat.mul_left_comm, ← Fmt.bits_eq_bytes h4]
    rw [Desc.lineBytes, hf]
    simp only [hdq, Bool.false_and, Bool.false_eq_true, if_false, ceilDiv, hsize, Nat.reduceEqDiff]
    omega
  rw [Desc.elemAddr_plain hdq h4, hline, Nat.add_assoc, ← Nat.succ_mul]
  exact Nat.add_le_add_left (Nat.mul_le_mul_right _ hlt) _

theorem plainAddr_near (s : State) {a : Nat} (h : a < nearEnd) : plainAddr s a = a := by
  simp [plainAddr, bankOf, regionOf, h]

/-- Where an element stands in the near tier, writing it writes its bytes there. -/
theorem Desc.setRaw_near (s : State) (hdq : f.isDq = false) (h4 : f.bits ≠ 4) (h : (d.elemAddr f ix).1 < nearEnd) (v : Nat) :
    d.setRaw s f ix v = poke s (d.elemAddr f ix).1 (leBytes (f.bits / 8) v) := by
  rw [Desc.elemAddr_plain hdq h4] at h ⊢
  rw [Desc.setRaw, Desc.elemAddr_plain hdq h4]
  simp only [if_neg h4, plainAddr_near s h]

theorem Desc.rawElem_near (s : State) (hdq : f.isDq = false) (h4 : f.bits ≠ 4) (h : (d.elemAddr f ix).1 < nearEnd) :
    d.rawElem s f ix = peekNat s (d.elemAddr f ix).1 (f.bits / 8) := by
  rw [Desc.elemAddr_plain hdq h4] at h ⊢
  rw [Desc.rawElem, Desc.elemAddr_plain hdq h4]
  simp only [if_neg h4, plainAddr_near s h]

end

/-! ### The store -/

/-- The state that a fold of a state and a report makes is the fold of the state alone. -/
theorem foldl_pair_fst {α β : Type} (g : State → α → State) (r : State × β → α → β) (xs : List α) (p : State × β) :
    (xs.foldl (fun p x => (g p.1 x, r p x)) p).1 = each xs p.1 g := by
  induction xs generalizing p with
  | nil => rfl
  | cons x xs ih => exact ih (g p.1 x, r p x)

section
variable {d : Desc} {f : Fmt} {m : StoreMode} {v : List Nat → FVal} {s : State}

/-- The bytes that a store writes for an element. -/
def storedBytes (d : Desc) (f : Fmt) (m : StoreMode) (v : List Nat → FVal) (ix : List Nat) : Bytes :=
  leBytes (f.bits / 8) (storeElem f m (d.linear ix) (v ix)).1

@[simp] theorem storedBytes_length (ix : List Nat) : (storedBytes d f m v ix).length = f.bits / 8 := leBytes_length _ _

variable (hf : d.format = some f) (hdq : f.isDq = false) (h4 : f.bits ≠ 4) (hlen : d.sizes.length = d.rank)
  (hspan : d.base + d.span ≤ nearEnd)
include hf hdq h4 hlen hspan

theorem Desc.elem_near {ix : List Nat} (h : ix ∈ d.indices) : (d.elemAddr f ix).1 < nearEnd := by
  have hline := Desc.elem_in_line hlen hf hdq h4 h
  have := Desc.line_le_span hlen h
  have hbytes : f.bits / 8 ≠ 0 := by revert h4; cases f <;> decide
  omega

/-- A store is the writes of its elements. -/
theorem storeTensor_eq_pokeAll : (storeTensor s d m v).1 = pokeAll d.indices s (fun ix => (d.elemAddr f ix).1) (storedBytes d f m v) := by
  by_cases hc : d.count = 0
  · have hnone : d.indices = [] := List.eq_nil_iff_forall_not_mem.2 fun ix h => (Desc.nonempty_of_mem_indices h).2.2 hc
    rw [storeTensor, hf, hnone]
    simp only [if_pos hc]
    rfl
  · have hfold : (storeTensor s d m v).1 = each d.indices s fun s ix => d.setRaw s f ix (storeElem f m (d.linear ix) (v ix)).1 := by
      rw [storeTensor, hf]
      simp only [if_neg hc, hdq, Bool.false_eq_true, if_false]
      exact foldl_pair_fst (fun s ix => d.setRaw s f ix (storeElem f m (d.linear ix) (v ix)).1) _ _ (s, Report.empty)
    rw [hfold]
    exact List.foldl_ext _ _ _ fun u ix h => Desc.setRaw_near u hdq h4 (Desc.elem_near hf hdq h4 hlen hspan h) _

theorem storeTensor_bytesKept : BytesKept s (storeTensor s d m v).1 d.ranges := by
  intro y hy
  rw [storeTensor_eq_pokeAll hf hdq h4 hlen hspan]
  refine peek_pokeAll_outside fun ix h => ?_
  have hout := hy _ (Desc.line_mem_ranges hlen h)
  have hend := Desc.elem_in_line hlen hf hdq h4 h
  have hstart : d.lineAddr ix ≤ (d.elemAddr f ix).1 := by rw [Desc.elemAddr_plain hdq h4]; exact Nat.le_add_right _ _
  simp only [inRange] at hout
  rw [storedBytes_length]
  omega

theorem rawElem_storeTensor (hs : Inv s) {ix : List Nat} (h : ix ∈ d.indices)
    (hd : ∀ y ∈ d.indices, y ≠ ix →
      (d.elemAddr f ix).1 + f.bits / 8 ≤ (d.elemAddr f y).1 ∨ (d.elemAddr f y).1 + f.bits / 8 ≤ (d.elemAddr f ix).1) :
    d.rawElem (storeTensor s d m v).1 f ix = (storeElem f m (d.linear ix) (v ix)).1 % 2 ^ f.bits := by
  have hread := peekBytes_pokeAll (a := fun ix => (d.elemAddr f ix).1) (b := storedBytes d f m v) hs h (by simpa using hd)
  rw [storedBytes_length] at hread
  rw [Desc.rawElem_near _ hdq h4 (Desc.elem_near hf hdq h4 hlen hspan h), storeTensor_eq_pokeAll hf hdq h4 hlen hspan, peekNat, hread,
    storedBytes, leNat_leBytes, ← Fmt.bits_eq_bytes h4]

end

/-- Settles O41: a store is a run of writes at the elements' places (`storeTensor_eq_pokeAll`), which lie within the lines. -/
theorem tensorStores : Obligations.TensorStores := by
  intro d f m v s hs hf hdq h4 hlen hspan t at_
  refine ⟨?_, storeTensor_bytesKept hf hdq h4 hlen hspan, fun hd ix h => ?_⟩
  · have ht : t = pokeAll d.indices s (fun ix => (d.elemAddr f ix).1) (storedBytes d f m v) := storeTensor_eq_pokeAll hf hdq h4 hlen hspan
    rw [ht]
    exact pokeAll_frame _ _
  · exact rawElem_storeTensor hf hdq h4 hlen hspan hs h fun y hy hne => hd ix h y hy hne.symm

end Sys2Proof.Machine
end

section
/-! SUPPORT. Commands of a window and queues of a hearth: what an update of one leaves of it and of the others; and the puts of handles
(R156, R157, R189). -/

namespace Sys2Proof.Machine

/-! ### Commands of a window -/

section
variable {f : Cmd → Cmd} (hf : ∀ c, (f c).seq = c.seq)
include hf

/-- An update that keeps sequence numbers is seen where its command is looked up, and nowhere else. -/
theorem find?_map_updated (cs : List Cmd) (seq q : Nat) :
    (cs.map fun c => if c.seq = seq then f c else c).find? (·.seq == q) = (cs.find? (·.seq == q)).map fun c => if c.seq = seq then f c else c := by
  rw [List.find?_map]
  congr 1
  refine congrArg (fun p => cs.find? p) (funext fun c => ?_)
  by_cases hc : c.seq = seq <;> simp [hc, hf]

theorem findCmd_updCmd (s : State) (h seq q : Nat) :
    findCmd (updCmd s h seq f) h q = (findCmd s h q).map fun c => if c.seq = seq then f c else c := by
  rw [findCmd, updCmd, getDisp_setDisp_same]
  exact find?_map_updated hf _ _ _

theorem findCmd_updCmd_same {s : State} {h q : Nat} {c : Cmd} (hc : findCmd s h q = some c) : findCmd (updCmd s h q f) h q = some (f c) := by
  have hq : c.seq = q := by simpa using List.find?_some hc
  rw [findCmd_updCmd hf, hc, Option.map_some, if_pos hq]

theorem findCmd_updCmd_ne (s : State) (h : Nat) {seq q : Nat} (hne : q ≠ seq) : findCmd (updCmd s h seq f) h q = findCmd s h q := by
  rw [findCmd_updCmd hf]
  cases hc : findCmd s h q with
  | none => rfl
  | some c =>
    have hq : c.seq = q := by simpa using List.find?_some hc
    rw [Option.map_some, if_neg (hq ▸ hne)]

/-- An update of a command of the window leaves all but the command as it was. -/
theorem updCmd_commandIs {s : State} {h : Nat} {c : Cmd} (hc : findCmd s h c.seq = some c) : CommandIs h (f c) s (updCmd s h c.seq f) where
  itself := by rw [hf]; exact findCmd_updCmd_same hf hc
  others q hq := findCmd_updCmd_ne hf s h (by rwa [hf] at hq)
  window := by rw [updCmd, getDisp_setDisp_same]
  hearths g hg := getDisp_setDisp_ne _ _ hg
  rest := rfl

end

/-! ### Queues -/

/-- A queue of a hearth. -/
def queueOf (s : State) (h q : Nat) : HQueue := (getDisp s h).queue q

theorem getDisp_setQueue_same (s : State) (h q : Nat) (x : HQueue) :
    getDisp (setQueue s h q x) h = { getDisp s h with queues := (getDisp s h).queues.set q x } :=
  getDisp_setDisp_same _ _ _

theorem getDisp_setQueue_ne (s : State) {h g : Nat} (q : Nat) (x : HQueue) (hne : g ≠ h) : getDisp (setQueue s h q x) g = getDisp s g :=
  getDisp_setDisp_ne _ _ hne

theorem queueOf_setQueue_same (s : State) (h q : Nat) (x : HQueue) : queueOf (setQueue s h q x) h q = x := by
  rw [queueOf, getDisp_setQueue_same]
  exact Smap.get_set_same _ _ _ _

theorem queueOf_setQueue_ne (s : State) {h q g r : Nat} (x : HQueue) (hne : g ≠ h ∨ r ≠ q) :
    queueOf (setQueue s h q x) g r = queueOf s g r := by
  by_cases hg : g = h
  · subst hg
    have hr : r ≠ q := hne.resolve_left (fun k => k rfl)
    rw [queueOf, getDisp_setQueue_same]
    exact Smap.get_set_ne _ _ _ hr.symm
  · rw [queueOf, getDisp_setQueue_ne _ _ _ hg, queueOf]

theorem findCmd_setQueue (s : State) (h q g seq : Nat) (x : HQueue) : findCmd (setQueue s h q x) g seq = findCmd s g seq := by
  by_cases hg : g = h
  · subst hg
    rw [findCmd, getDisp_setQueue_same, findCmd]
  · rw [findCmd, getDisp_setQueue_ne _ _ _ hg, findCmd]

theorem queueOf_updCmd (s : State) (h seq g q : Nat) (f : Cmd → Cmd) : queueOf (updCmd s h seq f) g q = queueOf s g q := by
  by_cases hg : g = h
  · subst hg
    rw [queueOf, updCmd, getDisp_setDisp_same, queueOf]
    rfl
  · rw [queueOf, updCmd, getDisp_setDisp_ne _ _ hg, queueOf]

/-! ### A put takes effect -/

/-- The queue of a put with its handle at the end (R156). -/
def putEntry (p : Put) (x : HQueue) : HQueue :=
  { owner := some p.ticket, entries := x.entries ++ [p.handle], reserved := x.reserved - (if p.reserved then 1 else 0) }

/-- A command whose put has taken effect is done (R157). -/
def putSettled (c : Cmd) : Cmd := if c.st = .putting then { c with st := .done } else c

theorem putSettled_seq (c : Cmd) : (putSettled c).seq = c.seq := by
  unfold putSettled
  split <;> rfl

/-- The n-th put, p, is on its way no longer and stands in its queue. -/
def putQueued (s : State) (n : Nat) (p : Put) : State :=
  setQueue { s with puts := s.puts.eraseIdx n } p.hearth p.queue (putEntry p (queueOf s p.hearth p.queue))

/-- The command that waited for it has gone on; the core that issued it has not yet been told. -/
def putApplied (s : State) (n : Nat) (p : Put) : State :=
  match p.cmd with
  | some (h, q) => updCmd (putQueued s n p) h q putSettled
  | none => putQueued s n p

/-- A core has one put fewer outstanding, and a hearth core's command may have finished (R172, R189). -/
def putNoticed (s : State) (core : Core) : State :=
  let v := updCore s (coreKey core) fun c => { c with puts := c.puts - 1 }
  if coreKey core < 128 then awlCheckDone v (coreKey core / 8) (getCore v (coreKey core)).seq else v

section
variable {s : State} {n : Nat} {p : Put}

theorem queueOf_putApplied (g q : Nat) : queueOf (putApplied s n p) g q = queueOf (putQueued s n p) g q := by
  unfold putApplied
  split
  · exact queueOf_updCmd _ _ _ _ _ _
  · rfl

theorem putApplied_frame : putApplied s n p =
    { s with puts := s.puts.eraseIdx n, disps := (putApplied s n p).disps, regs := (putApplied s n p).regs } := by
  unfold putApplied
  split <;> rfl

theorem findCmd_putApplied {h q : Nat} {c : Cmd} (hp : p.cmd = some (h, q)) (hc : findCmd s h q = some c) :
    findCmd (putApplied s n p) h q = some (putSettled c) := by
  simp only [putApplied, hp]
  exact findCmd_updCmd_same putSettled_seq (by rw [putQueued, findCmd_setQueue]; exact hc)

/-- A put whose turn it is, and that has room, takes effect. -/
theorem exec_handlePut (hn : s.puts[n]? = some p) (hlive : unitLive s (U.disp p.hearth) = true)
    (hturn : ∀ q ∈ s.puts.take n, samePutter p q = false)
    (hroom : p.reserved = true ∨ (queueOf s p.hearth p.queue).entries.length + (queueOf s p.hearth p.queue).reserved < 16) :
    exec (.handlePut n) s = .next (p.core.elim (putApplied s n p) (putNoticed (putApplied s n p))) := by
  have hfirst : (s.puts.take n).any (samePutter p) = false := List.any_eq_false.mpr fun q hq => by simp [hturn q hq]
  have hfull : (!p.reserved && decide (16 ≤ (queueOf s p.hearth p.queue).entries.length + (queueOf s p.hearth p.queue).reserved)) = false := by
    rcases hroom with h | h
    · rw [h]; rfl
    · rw [decide_eq_false (Nat.not_le.mpr h), Bool.and_false]
  show execHandlePut n s = _
  rw [queueOf] at hfull
  simp only [execHandlePut, hn, hlive, hfirst, hfull, Bool.not_true, Bool.or_self, Bool.false_eq_true, if_false]
  cases p.core <;> rfl

end

/-- Settles O28: the put is `putApplied`, and then, where a core issued it, `putNoticed`. -/
theorem putsTakeEffect : Obligations.PutsTakeEffect := by
  intro n p s hn hlive _ _ hturn queue old hroom
  have hexec := exec_handlePut hn hlive hturn hroom
  have hqueue : queueOf (putApplied s n p) p.hearth p.queue = putEntry p old :=
    (queueOf_putApplied _ _).trans (queueOf_setQueue_same _ _ _ _)
  refine ⟨putApplied s n p, putApplied_frame, congrArg HQueue.entries hqueue, congrArg HQueue.owner hqueue, congrArg HQueue.reserved hqueue,
    fun g q hne => (queueOf_putApplied g q).trans (queueOf_setQueue_ne _ _ hne), fun h q c hp hc => findCmd_putApplied hp hc,
    fun hnone => ?_, fun k hk => ?_⟩
  · rw [hexec, hnone, Option.elim_none]
  · rw [hexec, hk]
    rfl

end Sys2Proof.Machine
end

section
/-! SUPPORT. TACK of an Awl core (R187, R188): its checks, what its request comes to, and the fill of its local destination. -/

namespace Sys2Proof.Machine

/-! ### The checks of a transfer (R187) -/

/-- Length and boundaries of a transfer are sound. -/
def TackShape (l a n : Nat) : Prop := n ≤ 256 ∧ crosses256 l n = false ∧ crosses256 a n = false

/-- Both ends of a transfer lie where they may. -/
def TackReach (s : State) (l a n : Nat) : Prop := inOneRegion s a n = true ∧ l + n ≤ lsSize

section
variable {s : State} {c : AwlCore} {l a n : Nat} {write : Bool}

theorem tackBad_shape (hn : n ≠ 0) (hshape : ¬ TackShape l a n) : tackBad s c l a n write = Code.TACK_FORMAT := by
  have h : 256 < n ∨ crosses256 l n ∨ crosses256 a n := by
    by_contra hno
    simp only [not_or, Nat.not_lt, Bool.not_eq_true] at hno
    exact hshape hno
  rw [tackBad, if_neg hn, if_pos h]

/-- A transfer of sound shape is judged by its ends. -/
theorem tackBad_of_shape (hn : n ≠ 0) (hshape : TackShape l a n) : tackBad s c l a n write =
    if !inOneRegion s a n || decide (lsSize < l + n) || (!write && decide (l < c.codeLen)) then Code.AWL_ADDR else 0 := by
  obtain ⟨hlen, hl, ha⟩ := hshape
  have h : ¬ (256 < n ∨ crosses256 l n ∨ crosses256 a n) := by simp [hlen, hl, ha]
  rw [tackBad, if_neg hn, if_neg h]

theorem tackBad_addr (hn : n ≠ 0) (hshape : TackShape l a n) (h : ¬ TackReach s l a n ∨ write = false ∧ l < c.codeLen) :
    tackBad s c l a n write = Code.AWL_ADDR := by
  rw [tackBad_of_shape hn hshape]
  refine if_pos ?_
  rcases h with h | ⟨hw, hl⟩
  · have : inOneRegion s a n = false ∨ lsSize < l + n := by
      by_contra hno
      simp only [not_or, Bool.not_eq_false, Nat.not_lt] at hno
      exact h hno
    rcases this with h | h <;> simp [h]
  · simp [hw, hl]

theorem tackBad_ok (hn : n ≠ 0) (hshape : TackShape l a n) (hreach : TackReach s l a n) (hcode : write = false → c.codeLen ≤ l) :
    tackBad s c l a n write = 0 := by
  obtain ⟨hregion, hstore⟩ := hreach
  have hin : (!write && decide (l < c.codeLen)) = false := by
    cases write with
    | false => simp [hcode rfl]
    | true => rfl
  rw [tackBad_of_shape hn hshape, hregion, decide_eq_false (Nat.not_lt.mpr hstore), hin]
  rfl

end

/-! ### What a TACK finds of its core -/

section
variable (core : Core) (s : State)

@[simp] theorem nextCore_ops : (nextCore core s).ops = (getCore s (coreKey core)).ops := nextCore_reads core s (·.ops) fun _ _ _ => rfl
@[simp] theorem nextCore_puts : (nextCore core s).puts = (getCore s (coreKey core)).puts := nextCore_reads core s (·.puts) fun _ _ _ => rfl
@[simp] theorem nextCore_codeLen : (nextCore core s).codeLen = (getCore s (coreKey core)).codeLen :=
  nextCore_reads core s (·.codeLen) fun _ _ _ => rfl
@[simp] theorem nextCore_outstanding : (nextCore core s).outstanding = (getCore s (coreKey core)).outstanding :=
  nextCore_reads core s (·.outstanding) fun _ _ _ => rfl

end

/-- A core that comes to wait is as `AwlWaits` says. -/
theorem awlWaits_wr (core : Core) (u : State) (w : Wait) :
    AwlWaits core u w (wr (updCore u (coreKey core) fun c => { c with wait := some w }) (coreStateF (coreKey core)) awlWAITING) := by
  obtain ⟨p, q, _, _, fs, _, _⟩ := core_fields (coreKey core) (coreKey_lt core)
  refine ⟨getCore_setCore_same _ _ _, fun j hj => getCore_setCore_ne _ _ hj.symm, ?_, ?_, rfl⟩
  · rw [fs, rd_wr_same _ _ (by simp)]
    rfl
  · exact RegsKept.wr (fun _ _ => rfl) (List.mem_singleton_self _) _

/-! ### What a TACK comes to -/

/-- A TACK between its checks and its request, which is `go` (R187, R188). -/
def tackBody (rd ra rb : Fin 32) (write : Bool) (go : State → AwlCore → AwlRes) (s : State) (c : AwlCore) : AwlRes :=
  let code := tackBad s c (c.sreg rd).toNat (c.sreg ra).toNat (c.sreg rb).toNat write
  if code ≠ 0 then .fault s code 0
  else if (c.sreg rb).toNat = 0 then .done s c
  else if 16 ≤ c.outstanding then .wait s (.outstanding false)
  else go s c

/-- The request of a TACK read: its bytes wait for their fill. -/
def tackReadGo (core : Core) (rd ra rb : Fin 32) (s : State) (c : AwlCore) : AwlRes :=
  let k := coreKey core
  match tackRead s (coreWho k) (c.sreg ra).toNat (c.sreg rb).toNat (coreCmdId s k) with
  | (s, .ok d) => .done s { c with ops := c.ops ++ [{ ls := (c.sreg rd).toNat, data := d }] }
  | (s, .fail code) => .fault s code 0
  | (s, .wait) => .stall s

/-- The request of a TACK write, after the core's earlier puts (R154). -/
def tackWriteGo (core : Core) (rd ra rb : Fin 32) (s : State) (c : AwlCore) : AwlRes :=
  let k := coreKey core
  let l := (c.sreg rd).toNat
  let n := (c.sreg rb).toNat
  if c.puts ≠ 0 then .stall s
  else
    match lsCheck s k l n with
    | (s, true) => .fault s Code.AWL_LS_ECC 0
    | (s, false) =>
      match tackWrite s (coreWho k) (c.sreg ra).toNat ((getCore s k).lsBytes l n) (coreCmdId s k) with
      | (s, .ok _) => .done s { getCore s k with pc := c.pc }
      | (s, .fail code) => .fault s code 0
      | (s, .wait) => .stall s

section
variable (core : Core) (rd ra rb : Fin 32) (s : State)

theorem exec_tackRead : exec (.tackRead core rd ra rb) s =
    awlStep core (.tackRead core rd ra rb) (tackBody rd ra rb false (tackReadGo core rd ra rb)) s := by
  show execTackRead core rd ra rb s = _
  unfold execTackRead
  congr 1
  funext s c
  dsimp only [tackBody, tackReadGo]
  split
  · next hcode => rw [hcode]; rfl
  · next hcode => rw [if_pos hcode]

theorem exec_tackWrite : exec (.tackWrite core rd ra rb) s =
    awlStep core (.tackWrite core rd ra rb) (tackBody rd ra rb true (tackWriteGo core rd ra rb)) s := by
  show execTackWrite core rd ra rb s = _
  unfold execTackWrite
  congr 1
  funext s c
  dsimp only [tackBody, tackWriteGo]
  split
  · next hcode => rw [hcode]; rfl
  · next hcode => rw [if_pos hcode]

end

/-- A register of a core, as the length or an end of a transfer. -/
def regNat (core : Core) (s : State) (r : Fin 32) : Nat := ((getCore s (coreKey core)).sreg r).toNat

section
variable {core : Core} {i : Instr} {rd ra rb : Fin 32} {write : Bool} {go : State → AwlCore → AwlRes} {s : State}
  (hexec : exec i s = awlStep core i (tackBody rd ra rb write go) s)

section
variable (hat : AwlAt core i s)
include hexec hat

/-- A transfer of no bytes does nothing. -/
theorem tack_none (hn : regNat core s rb = 0) : exec i s = .next (retire (fetched core s) (coreKey core) (nextCore core s)) := by
  rw [regNat] at hn
  have hbad (l a : Nat) : tackBad (fetched core s) (nextCore core s) l a 0 write = 0 := rfl
  rw [hexec, awlStep_at hat]
  simp only [tackBody, nextCore_sreg, hn, hbad, ne_eq, not_true_eq_false, if_false, if_true]

theorem tack_faults {code : Nat} (hcode : code ≠ 0)
    (hbad : tackBad (fetched core s) (nextCore core s) (regNat core s rd) (regNat core s ra) (regNat core s rb) write = code) :
    exec i s = .next (awlFault (fetched core s) (coreKey core) code 0 (getCore s (coreKey core)).word) := by
  simp only [regNat] at hbad
  rw [hexec, awlStep_at hat]
  simp only [tackBody, nextCore_sreg, hbad, ne_eq, hcode, not_false_eq_true, if_true]

section
variable (hn : regNat core s rb ≠ 0)
  (hbad : tackBad (fetched core s) (nextCore core s) (regNat core s rd) (regNat core s ra) (regNat core s rb) write = 0)
include hn hbad

/-- A core with 16 requests outstanding waits (R188). -/
theorem tack_waits (hfull : 16 ≤ (getCore s (coreKey core)).outstanding) :
    ∃ t, exec i s = .next t ∧ AwlWaits core (fetched core s) (.outstanding false) t := by
  simp only [regNat] at hn hbad
  refine ⟨_, ?_, awlWaits_wr core (fetched core s) (.outstanding false)⟩
  rw [hexec, awlStep_at hat]
  simp only [tackBody, nextCore_sreg, nextCore_outstanding, hbad, hn, hfull, ne_eq, not_true_eq_false, if_false, if_true]

/-- Any other makes the request. -/
theorem tack_goes (hroom : (getCore s (coreKey core)).outstanding < 16) : exec i s = awlStep core i go s := by
  simp only [regNat] at hn hbad
  rw [hexec, awlStep_at hat, awlStep_at hat]
  simp only [tackBody, nextCore_sreg, nextCore_outstanding, hbad, hn, Nat.not_le.mpr hroom, ne_eq, not_true_eq_false, if_false]

end
end

include hexec in
theorem tack_none_effect (hn : regNat core s rb = 0) : AwlEffect core i s id := fun hat =>
  ⟨_, tack_none hexec hat hn, retire_retired core _ _⟩

end

/-! ### The requests -/

/-- The local bytes of a core are what they were before the reads of its local store. -/
theorem lsBytes_lsCheck (core : Core) (s : State) (a n b m : Nat) :
    (getCore (lsCheck (fetched core s) (coreKey core) a n).1 (coreKey core)).lsBytes b m = (getCore s (coreKey core)).lsBytes b m := by
  obtain ⟨e, he⟩ := (getCore_lsCheck s (coreKey core) (getCore s (coreKey core)).pc 4).trans (getCore_lsCheck (fetched core s) (coreKey core) a n)
  rw [he]
  rfl

/-- What a TACK read comes to as its request has ended in state v. -/
def tackReadEnd (core : Core) (rd : Fin 32) (s v : State) : Req Bytes → State
  | .ok d => retire v (coreKey core) { nextCore core s with ops := (getCore s (coreKey core)).ops ++ [{ ls := regNat core s rd, data := d }] }
  | .fail code => awlFault v (coreKey core) code 0 (getCore s (coreKey core)).word
  | .wait => v

/-- What a TACK write comes to as its request has ended in state v. -/
def tackWriteEnd (core : Core) (s v : State) : Req Unit → State
  | .ok _ => retire v (coreKey core) { getCore v (coreKey core) with pc := (getCore s (coreKey core)).pc + 4 }
  | .fail code => awlFault v (coreKey core) code 0 (getCore s (coreKey core)).word
  | .wait => v

section
variable {core : Core} {rd ra rb : Fin 32} {s v : State}

section
variable (hat : AwlAt core (.tackRead core rd ra rb) s) {r : Req Bytes}
  (hreq : tackRead (fetched core s) (coreWho (coreKey core)) (regNat core s ra) (regNat core s rb) (coreCmdId (fetched core s) (coreKey core)) =
    (v, r))
include hat hreq

theorem tackRead_answers :
    awlStep core (.tackRead core rd ra rb) (tackReadGo core rd ra rb) s = .next (tackReadEnd core rd s v r) := by
  simp only [regNat] at hreq
  rw [awlStep_at hat]
  simp only [tackReadGo, nextCore_sreg, nextCore_ops, hreq]
  cases r <;> rfl

end

section
variable (hat : AwlAt core (.tackWrite core rd ra rb) s)
include hat

/-- A TACK write waits for the core's earlier puts (R154). -/
theorem tackWrite_behind (hputs : (getCore s (coreKey core)).puts ≠ 0) :
    awlStep core (.tackWrite core rd ra rb) (tackWriteGo core rd ra rb) s = .next (fetched core s) := by
  rw [awlStep_at hat]
  simp only [tackWriteGo, nextCore_puts, hputs, ne_eq, not_false_eq_true, if_true]

/-- What a TACK write with readable local bytes comes to is what its request comes to. -/
theorem tackWrite_answers {w : State} {r : Req Unit} (hputs : (getCore s (coreKey core)).puts = 0)
    (hls : lsCheck (fetched core s) (coreKey core) (regNat core s rd) (regNat core s rb) = (w, false))
    (hreq : tackWrite w (coreWho (coreKey core)) (regNat core s ra) ((getCore s (coreKey core)).lsBytes (regNat core s rd) (regNat core s rb))
      (coreCmdId w (coreKey core)) = (v, r)) :
    awlStep core (.tackWrite core rd ra rb) (tackWriteGo core rd ra rb) s = .next (tackWriteEnd core s v r) := by
  have hbytes := lsBytes_lsCheck core s (regNat core s rd) (regNat core s rb) (regNat core s rd) (regNat core s rb)
  rw [hls] at hbytes
  simp only [regNat] at hls hreq hbytes
  rw [awlStep_at hat]
  simp only [tackWriteGo, nextCore_sreg, nextCore_puts, hputs, ne_eq, not_true_eq_false, if_false, hls, hbytes, hreq]
  cases r <;> rfl

end
end

/-! ### The fill of a TACK read (R188) -/

section
variable (c : AwlCore) (a : Nat) (d : Bytes)

theorem lsSet_frame : c.lsSet a d = { c with ls := (c.lsSet a d).ls, lsErr := (c.lsSet a d).lsErr } := by
  induction d generalizing c a with
  | nil => rfl
  | cons b bs ih =>
    rw [AwlCore.lsSet, ih]

theorem ls_lsSet_outside {x : Nat} (h : x < a ∨ a + d.length ≤ x) : (c.lsSet a d).ls.get 0 x = c.ls.get 0 x := by
  induction d generalizing c a with
  | nil => rfl
  | cons b bs ih =>
    simp only [List.length_cons] at h
    rw [AwlCore.lsSet, ih _ _ (by omega)]
    exact Smap.get_set_ne _ _ _ (by omega)

theorem ls_lsSet_inside {j : Nat} (h : j < d.length) : (c.lsSet a d).ls.get 0 (a + j) = d.getD j 0 := by
  induction d generalizing c a j with
  | nil => exact absurd h (Nat.not_lt_zero j)
  | cons b bs ih =>
    rw [AwlCore.lsSet]
    cases j with
    | zero =>
      rw [ls_lsSet_outside _ _ _ (by omega)]
      exact Smap.get_set_same _ _ _ _
    | succ j =>
      rw [show a + (j + 1) = a + 1 + j by omega, ih _ _ (by simpa using h)]
      rfl

end

theorem tackRead_fills {core : Core} {n : Nat} {o : TackOp} {s : State} (hlive : unitLive s (coreUnit (coreKey core)) = true)
    (ho : (getCore s (coreKey core)).ops[n]? = some o) : exec (.tackReadFill core n) s =
      .next (setCore s (coreKey core)
        { (getCore s (coreKey core)).lsSet o.ls o.data with ops := (getCore s (coreKey core)).ops.eraseIdx n }) := by
  show execTackReadFill core n s = _
  simp only [execTackReadFill, hlive, ho, Bool.not_true, Bool.false_eq_true, if_false]

/-! ### The statement -/

/-- Settles O14: both transfers are `tackBody` before their requests, and what a request answers is what the instruction comes to. -/
theorem awlTackTransfers : Obligations.AwlTackTransfers := by
  refine ⟨?_, ?_⟩
  · intro core rd ra rb s k c l a n u ri wi faults shape reach
    have hr : exec ri s = awlStep core ri _ s := exec_tackRead core rd ra rb s
    have hw : exec wi s = awlStep core wi _ s := exec_tackWrite core rd ra rb s
    refine ⟨fun hn => ⟨tack_none_effect hr hn, tack_none_effect hw hn⟩,
      fun hn hs => ⟨fun hat => tack_faults hr hat (by decide) (tackBad_shape hn hs),
        fun hat => tack_faults hw hat (by decide) (tackBad_shape hn hs)⟩,
      fun hn hs hbad hat => tack_faults hr hat (by decide) (tackBad_addr hn hs ?_),
      fun hn hs hbad hat => tack_faults hw hat (by decide) (tackBad_addr hn hs (.inl hbad)), ?_, ?_, ?_, ?_⟩
    · exact hbad.imp_right fun hl => ⟨rfl, by rwa [nextCore_codeLen]⟩
    · intro hn hs hreach hcode hroom hat v r hreq
      have hgo : exec ri s = _ :=
        (tack_goes hr hat hn (tackBad_ok hn hs hreach fun _ => by rwa [nextCore_codeLen]) hroom).trans (tackRead_answers hat hreq)
      refine ⟨fun d hd => ⟨_, ?_, retire_retired core v _⟩, fun code hcode => ?_, fun hwait => ?_⟩
      · subst hd; exact hgo
      · subst hcode; exact hgo
      · subst hwait; exact hgo
    · intro hn hs hreach hroom hputs hat
      exact (tack_goes hw hat hn (tackBad_ok hn hs hreach nofun) hroom).trans (tackWrite_behind hat hputs)
    · intro hn hs hreach hroom hputs hls hat w v r hreq
      have hgo : exec wi s = _ := (tack_goes hw hat hn (tackBad_ok hn hs hreach nofun) hroom).trans
        (tackWrite_answers hat hputs (Prod.ext rfl hls) hreq)
      refine ⟨fun hok => ⟨_, ?_, retire_retired core v _⟩, fun code hcode => ?_, fun hwait => ?_⟩
      · subst hok; exact hgo
      · subst hcode; exact hgo
      · subst hwait; exact hgo
    · intro hn hs hreach hcode hfull
      exact ⟨fun hat => tack_waits hr hat hn (tackBad_ok hn hs hreach fun _ => by rwa [nextCore_codeLen]) hfull,
        fun hat => tack_waits hw hat hn (tackBad_ok hn hs hreach nofun) hfull⟩
  · intro core n o s k c hlive ho
    refine ⟨_, tackRead_fills hlive ho, ?_, fun j hj => ls_lsSet_inside c o.ls o.data hj, fun x hx => ls_lsSet_outside c o.ls o.data hx⟩
    rw [lsSet_frame]

end Sys2Proof.Machine
end

section
/-! SUPPORT. Requests to memory without flipped symbols (R312 to R317): a request of any region moves no byte by its checks, a read of the near tier
gives the bytes that stand there, and a write there that is served is a write of its bytes. -/

namespace Sys2Proof.Machine

/-! ### What a request's checks leave alone -/

/-- The bytes of memory, the flipped symbols of the near tier and the dispatchers stand as they did. -/
structure Untouched (s t : State) : Prop where
  mem : t.mem = s.mem
  symErr : t.symErr = s.symErr
  disps : t.disps = s.disps

theorem Untouched.refl (s : State) : Untouched s s := ⟨rfl, rfl, rfl⟩

theorem Untouched.trans {s t u : State} (a : Untouched s t) (b : Untouched t u) : Untouched s u :=
  ⟨b.mem.trans a.mem, b.symErr.trans a.symErr, b.disps.trans a.disps⟩

theorem Untouched.peekBytes {s t : State} (h : Untouched s t) (a n : Nat) : peekBytes t a n = peekBytes s a n := by
  rw [Machine.peekBytes, h.mem, Machine.peekBytes]

theorem Untouched.poke {s t : State} (h : Untouched s t) (a : Nat) (d : Bytes) : Untouched (poke s a d) (poke t a d) :=
  ⟨congrArg (·.setBytes a d) h.mem, h.symErr, h.disps⟩

theorem Untouched.inv {s t : State} (h : Untouched s t) (hs : Inv s) : Inv t := by rwa [Inv, h.mem]

theorem Untouched.findCmd {s t : State} (h : Untouched s t) (g q : Nat) : findCmd t g q = findCmd s g q := by
  rw [Machine.findCmd, getDisp, h.disps, Machine.findCmd, getDisp]

theorem raiseVec_untouched (s : State) (p v : Nat) : Untouched s (raiseVec s p v) := by
  unfold raiseVec msixSend
  dsimp only
  split
  · exact .refl s
  · split <;> exact ⟨rfl, rfl, rfl⟩

/-- Of two ways a request can go, both leave memory alone. -/
theorem Untouched.ite {α : Type} {p : Prop} [Decidable p] {s : State} {x y : State × α} (hx : Untouched s x.1) (hy : Untouched s y.1) :
    Untouched s (if p then x else y).1 := by
  split
  · exact hx
  · exact hy

section
variable {s : State} (hclean : s.symErr = [])
include hclean

/-- A sector without flipped symbols is read as it stands (R315). -/
theorem eccRead_clean (sec : Nat) (scrub : Bool) (cmd : Option CmdId) : eccRead s sec scrub cmd = (s, 0) := by
  rw [eccRead, sectorErrs, hclean]
  rfl

theorem access_untouched (id a n : Nat) (write : Bool) (cmd : Option CmdId) : Untouched s (access s id a n write cmd).1 := by
  unfold access
  extract_lets sec c d
  split
  · exact .refl s
  · exact .refl s
  · have hwhole : Untouched s (cntMem (healSector { s with poison := s.poison.filter (· != sec) } sec) d 1 1) :=
      ⟨rfl, show s.symErr.filter _ = s.symErr by rw [hclean]; rfl, rfl⟩
    rw [eccRead_clean hclean]
    exact .ite ⟨rfl, rfl, rfl⟩ (.ite (.refl s) (.ite ⟨rfl, rfl, rfl⟩ (.ite (.refl s)
      (.ite hwhole (.ite ⟨rfl, rfl, rfl⟩ ⟨rfl, rfl, rfl⟩)))))
  · refine .ite (.ite (.refl s) (.refl s)) (.ite (.refl s) (.ite ⟨rfl, rfl, rfl⟩ ?_))
    cases write <;> exact ⟨rfl, rfl, rfl⟩
  · have hraise := raiseVec_untouched s
    exact .ite (.refl s) (.ite (hraise _ 4) (.ite (hraise _ 4) (.ite (hraise _ 4) (.ite (hraise _ 4) ⟨rfl, rfl, rfl⟩))))
  · split
    · exact .refl s
    · exact .ite ⟨rfl, rfl, rfl⟩ (.ite (.refl s) (.ite (.refl s) (.refl s)))

end

/-! ### Byte strings in pieces -/

theorem peekBytes_add (s : State) (a k m : Nat) : peekBytes s a (k + m) = peekBytes s a k ++ peekBytes s (a + k) m := by
  simp only [peekBytes, Memory.getBytes, List.range_add, List.map_append, List.map_map, Function.comp_def, Nat.add_assoc]

@[simp] theorem peekBytes_length (s : State) (a n : Nat) : (peekBytes s a n).length = n := by
  rw [peekBytes, Memory.getBytes, List.length_map, List.length_range]

theorem poke_append (s : State) (a : Nat) (x y : Bytes) : poke s a (x ++ y) = poke (poke s a x) (a + x.length) y := by
  suffices h : ∀ m : Memory, m.setBytes a (x ++ y) = (m.setBytes a x).setBytes (a + x.length) y by
    rw [poke, h]; rfl
  induction x generalizing a with
  | nil => exact fun _ => rfl
  | cons b bs ih =>
    intro m
    rw [List.cons_append, Memory.setBytes, ih, Memory.setBytes, List.length_cons, Nat.add_assoc, Nat.add_comm 1]

/-- A write of bytes is read back. -/
theorem peekBytes_poke {s : State} (hs : Inv s) (a : Nat) (d : Bytes) : peekBytes (poke s a d) a d.length = d :=
  map_range_eq_of_getElem fun _ hi => Memory.get_setBytes_inside hs hi

theorem poke_bytesKept (s : State) (a : Nat) (d : Bytes) : BytesKept s (poke s a d) [(a, d.length)] := by
  intro x hx
  have hout := hx _ (List.mem_singleton_self _)
  refine Memory.get_setBytes_outside ?_
  simp only [inRange] at hout
  omega

/-! ### Reads -/

section
variable {id : Nat} {cmd : Option CmdId}

/-- A read that is served: its first sector, and then the rest. -/
theorem readFrom_ok {s t : State} {fuel a n : Nat} {b : Bytes} (hn : n ≠ 0) (h : readFrom s id cmd (fuel + 1) a n = (t, .ok b)) :
    ∃ u d, access s id a (min n (64 - a % 64)) false cmd = (u, .ok ()) ∧
      readFrom u id cmd fuel (a + min n (64 - a % 64)) (n - min n (64 - a % 64)) = (t, .ok d) ∧
      b = peekBytes u (plainAddr u a) (min n (64 - a % 64)) ++ d := by
  rw [readFrom, if_neg hn] at h
  dsimp only at h
  split at h
  · cases h
  · cases h
  · next u _ hacc =>
    split at h
    · next d hrest => cases h; exact ⟨u, d, hacc, hrest, rfl⟩
    · next hnot => exact absurd h (hnot _ _)

/-- A read that is served moves no byte, and of the near tier gives the bytes that stand there. -/
theorem readFrom_served {fuel : Nat} {s t : State} {a n : Nat} {b : Bytes} (hclean : s.symErr = []) (hfuel : n ≤ fuel)
    (h : readFrom s id cmd fuel a n = (t, .ok b)) : Untouched s t ∧ (a + n ≤ nearEnd → b = peekBytes s a n) := by
  induction fuel generalizing s a n b with
  | zero =>
    obtain rfl : n = 0 := by omega
    cases h
    exact ⟨.refl _, fun _ => rfl⟩
  | succ fuel ih =>
    by_cases hn : n = 0
    · rw [readFrom, if_pos hn] at h
      cases h
      subst hn
      exact ⟨.refl _, fun _ => rfl⟩
    · obtain ⟨u, d, hacc, hrest, rfl⟩ := readFrom_ok hn h
      generalize hk : min n (64 - a % 64) = k at hacc hrest ⊢
      have hu : Untouched s u := by simpa only [hacc] using access_untouched hclean id a k false cmd
      obtain ⟨ht, hd⟩ := ih (hu.symErr.trans hclean) (by omega) hrest
      refine ⟨hu.trans ht, fun hnear => ?_⟩
      rw [plainAddr_near u (by omega), hd (by omega), ← peekBytes_add, hu.peekBytes]
      congr 1
      omega

theorem memRead_untouched {s t : State} {a n : Nat} {b : Bytes} (hclean : s.symErr = []) (h : memRead s id a n cmd = (t, .ok b)) :
    Untouched s t :=
  (readFrom_served hclean (Nat.le_succ n) h).1

theorem memRead_near {s t : State} {a n : Nat} {b : Bytes} (hclean : s.symErr = []) (hnear : a + n ≤ nearEnd)
    (h : memRead s id a n cmd = (t, .ok b)) : b = peekBytes s a n :=
  (readFrom_served hclean (Nat.le_succ n) h).2 hnear

/-! ### Writes -/

theorem mergeAlias_near (s : State) {a : Nat} (h : a < nearEnd) (d : Bytes) : mergeAlias s a d = d := by
  simp [mergeAlias, bankOf, regionOf, h]

/-- A write that is served: its first sector, and then the rest. -/
theorem writeTo_ok {s t : State} {fuel a : Nat} {d : Bytes} (hd : d.length ≠ 0) (h : writeTo s id cmd (fuel + 1) a d = (t, .ok ())) :
    ∃ u, access s id a (min d.length (64 - a % 64)) true cmd = (u, .ok ()) ∧
      writeTo (poke u (plainAddr u a) (mergeAlias u a (d.take (min d.length (64 - a % 64))))) id cmd fuel
        (a + min d.length (64 - a % 64)) (d.drop (min d.length (64 - a % 64))) = (t, .ok ()) := by
  rw [writeTo, if_neg hd] at h
  dsimp only at h
  split at h
  · next u _ hacc => exact ⟨u, hacc, h⟩
  · next hnot => exact absurd h (hnot _ _)

/-- A write of the near tier that is served writes its bytes, and moves no other. -/
theorem writeTo_served {fuel : Nat} {s t : State} {a : Nat} {d : Bytes} (hclean : s.symErr = []) (hfuel : d.length ≤ fuel)
    (hnear : a + d.length ≤ nearEnd) (h : writeTo s id cmd fuel a d = (t, .ok ())) : Untouched (poke s a d) t := by
  induction fuel generalizing s a d with
  | zero =>
    obtain rfl : d = [] := List.eq_nil_of_length_eq_zero (by omega)
    cases h
    exact .refl _
  | succ fuel ih =>
    by_cases hd : d.length = 0
    · obtain rfl := List.eq_nil_of_length_eq_zero hd
      cases h
      exact .refl _
    · obtain ⟨u, hacc, hrest⟩ := writeTo_ok hd h
      generalize hk : min d.length (64 - a % 64) = k at hacc hrest
      have hu : Untouched s u := by simpa only [hacc] using access_untouched hclean id a k true cmd
      have hlen : (d.take k).length = k := by rw [List.length_take]; omega
      rw [plainAddr_near u (by omega), mergeAlias_near u (by omega)] at hrest
      have ht := ih (s := poke u a (d.take k)) (hu.symErr.trans hclean) (by rw [List.length_drop]; omega) (by rw [List.length_drop]; omega) hrest
      have hsplit := poke_append s a (d.take k) (d.drop k)
      rw [List.take_append_drop, hlen] at hsplit
      exact hsplit ▸ ((hu.poke a _).poke _ _).trans ht

theorem memWrite_near {s t : State} {a : Nat} {d : Bytes} (hclean : s.symErr = []) (hnear : a + d.length ≤ nearEnd)
    (h : memWrite s id a d cmd = (t, .ok ())) : Untouched (poke s a d) t :=
  writeTo_served hclean (Nat.le_succ _) hnear h

/-! ### The tack path -/

theorem regionOf_near (s : State) {a : Nat} (h : a < nearEnd) : regionOf s a = some .near := if_pos h

theorem tackRead_near (s : State) {a : Nat} (h : a < nearEnd) (n : Nat) : tackRead s id a n cmd = memRead s id a n cmd := by
  rw [tackRead, regionOf_near s h]
  exact if_neg (fun k => nomatch k.1)

theorem tackWrite_near (s : State) {a : Nat} (h : a < nearEnd) (d : Bytes) : tackWrite s id a d cmd = memWrite s id a d cmd := by
  rw [tackWrite, regionOf_near s h]
  exact if_neg (fun k => nomatch k.1)

end

end Sys2Proof.Machine
end

section
/-! SUPPORT. The commands that a dispatcher runs itself (R152 to R154, R157): NOP, QPUT, TACK, and an XFER of a list of one descriptor, whose rows
neither meet one another nor the rows that they are copied from. -/

namespace Sys2Proof.Machine

/-! ### A command that runs -/

section
variable {h : Fin 16} {seq : BitVec 32} {op : Nat} {c : Cmd} {s : State}

/-- The row of a command that runs is its body. -/
theorem opRow_runs (hr : Runs h seq op c s) (body : State → Cmd → State) : opRow h seq op s body = .next (body s c) := by
  obtain ⟨hlive, hfound, _, hst, hop, hchain, hawake⟩ := hr
  simp only [opRow, hlive, hfound, hst, hop, hchain, hawake, Bool.not_true, Bool.false_eq_true, if_false, BEq.rfl, Bool.and_self, if_true]

theorem Runs.findCmd (hr : Runs h seq op c s) : findCmd s h c.seq = some c := by rw [hr.number]; exact hr.found

/-- A command of the window whose work is done. -/
theorem cmdDone_commandIs {u : State} {g : Nat} (hc : Machine.findCmd u g c.seq = some c) : CommandIs g { c with st := .done } u (cmdDone u g c) :=
  updCmd_commandIs (f := fun x => { x with st := .done }) (fun _ => rfl) hc

/-! ### NOP and QPUT -/

theorem nop_runs (hr : Runs h seq 0x01 c s) : exec (.nop h seq) s = .next (cmdDone s h c) := by
  show execNop h seq s = _
  rw [execNop, opRow_runs hr]

/-- The put of a QPUT (R157). -/
def qputPut (h : Fin 16) (c : Cmd) : Put :=
  { hearth := bits (c.fld 0x10 2) 8 4, queue := bits (c.fld 0x10 2) 0 6, handle := handleOf (c.fld 0x18 8), ticket := c.ticket, reserved := true,
    core := none, cmd := some (h.val, c.seq) }

theorem qput_runs (hr : Runs h seq 0x03 c s) : exec (.qput h seq) s =
    .next (updCmd { s with puts := s.puts ++ [qputPut h c] } h c.seq fun x => { x with st := .putting }) := by
  show execQput h seq s = _
  rw [execQput, opRow_runs hr]
  rfl

/-! ### TACK (R154) -/

/-- A put of hearth h's dispatcher is on its way. -/
def dispPutsOut (s : State) (h : Nat) : Bool := s.puts.any fun p => p.core.isNone && p.cmd.map (·.1) == some h

section
variable (hr : Runs h seq 0x09 c s)
include hr

theorem dispTack_none (hn : c.fld 0x20 2 = 0) : exec (.tack h seq) s = .next (cmdDone s h c) := by
  show execTack h seq s = _
  rw [execTack, opRow_runs hr]
  simp only [hn, if_true]

theorem dispTack_behind (hn : c.fld 0x20 2 ≠ 0) (hout : dispPutsOut s h = true) : exec (.tack h seq) s = .next s := by
  rw [dispPutsOut] at hout
  show execTack h seq s = _
  rw [execTack, opRow_runs hr]
  simp only [hn, hout, if_false, if_true]

/-- Where both requests are served, the command is done. -/
theorem dispTack_served {v w : State} {b : Bytes} (hn : c.fld 0x20 2 ≠ 0) (hout : dispPutsOut s h = false)
    (hread : tackRead s (idDisp h) (c.fld 0x10 8) (c.fld 0x20 2) (some (cmdId s h c)) = (v, .ok b))
    (hwrite : tackWrite v (idDisp h) (c.fld 0x18 8) b (some (cmdId s h c)) = (w, .ok ())) :
    exec (.tack h seq) s = .next (cmdDone w h c) := by
  rw [dispPutsOut] at hout
  show execTack h seq s = _
  rw [execTack, opRow_runs hr]
  simp only [hn, hout, if_false, Bool.false_eq_true, hread, orFail, hwrite]

end
end

/-- Bytes that go from one place of the near tier to another are written as they were read. -/
theorem copied_near {id src dst n : Nat} {cmd : Option CmdId} {b : Bytes} {s v w : State} (hclean : s.symErr = [])
    (hsrc : src + n ≤ nearEnd) (hdst : dst + n ≤ nearEnd) (hread : memRead s id src n cmd = (v, .ok b))
    (hwrite : memWrite v id dst b cmd = (w, .ok ())) : b = peekBytes s src n ∧ Untouched (poke s dst b) w := by
  have hv := memRead_untouched hclean hread
  have hb := memRead_near hclean hsrc hread
  have hlen : b.length = n := by rw [hb, peekBytes_length]
  exact ⟨hb, (hv.poke dst b).trans (memWrite_near (hv.symErr.trans hclean) (by omega) hwrite)⟩

/-! ### Copies of rows (R153) -/

theorem peekBytes_poke_outside (s : State) {a x n : Nat} {d : Bytes} (h : x + n ≤ a ∨ a + d.length ≤ x) :
    peekBytes (poke s a d) x n = peekBytes s x n := by
  refine List.map_congr_left fun i hi => Memory.get_setBytes_outside ?_
  have := List.mem_range.mp hi
  omega

section
variable {α : Type} {src dst : α → Nat} {n : Nat}

theorem pokeAll_untouched {s t : State} (h : Untouched s t) (xs : List α) (b : α → Bytes) :
    Untouched (pokeAll xs s dst b) (pokeAll xs t dst b) := by
  induction xs generalizing s t with
  | nil => exact h
  | cons x xs ih => exact ih (h.poke (dst x) (b x))

/-- Rows of the near tier that meet no source are written with what their sources held at first. -/
theorem copyRows_served {h : Nat} {cmd : Option CmdId} {xs : List α} {s₀ s t : State} (hclean : s.symErr = [])
    (hheld : ∀ x ∈ xs, peekBytes s (src x) n = peekBytes s₀ (src x) n) (hnear : ∀ x ∈ xs, src x + n ≤ nearEnd ∧ dst x + n ≤ nearEnd)
    (hapart : ∀ x ∈ xs, ∀ y ∈ xs, src x + n ≤ dst y ∨ dst y + n ≤ src x)
    (hok : copyRows s h cmd (xs.map fun x => ((src x, n), (dst x, n))) = (t, .ok ())) :
    Untouched (pokeAll xs s dst fun x => peekBytes s₀ (src x) n) t := by
  induction xs generalizing s with
  | nil => cases hok; exact .refl _
  | cons x xs ih =>
    rw [List.map_cons, copyRows] at hok
    split at hok
    · next v b hread =>
      split at hok
      · next w _ hwrite =>
        obtain ⟨hsrc, hdst⟩ := hnear x List.mem_cons_self
        obtain ⟨rfl, hw⟩ := copied_near hclean hsrc hdst hread hwrite
        have hlater (y : α) (hy : y ∈ xs) : peekBytes w (src y) n = peekBytes s₀ (src y) n := by
          have hy' := List.mem_cons_of_mem x hy
          rw [hw.peekBytes, peekBytes_poke_outside, hheld y hy']
          rw [peekBytes_length]
          exact hapart y hy' x List.mem_cons_self
        have ht := ih (hw.symErr.trans hclean) hlater (fun y hy => hnear y (List.mem_cons_of_mem x hy))
          (fun y hy z hz => hapart y (List.mem_cons_of_mem x hy) z (List.mem_cons_of_mem x hz)) hok
        rw [hheld x List.mem_cons_self] at hw
        exact (pokeAll_untouched hw xs _).trans ht
      · next hnot => exact absurd hok (hnot _ _)
    · cases hok
    · cases hok

end

/-! ### The rows of a descriptor (R153) -/

/-- The rows that a descriptor copies, and where each begins. -/
def XferDesc.rowList (x : XferDesc) : List Nat := if x.length = 0 then [] else List.range x.rows
def XferDesc.srcRow (x : XferDesc) (i : Nat) : Nat := x.src + i * x.srcPitch
def XferDesc.dstRow (x : XferDesc) (i : Nat) : Nat := x.dst + i * x.dstPitch

section
variable {x : XferDesc}

theorem XferDesc.mem_rowList {i : Nat} : i ∈ x.rowList ↔ x.length ≠ 0 ∧ i < x.rows := by
  by_cases hl : x.length = 0 <;> simp [rowList, hl]

theorem XferDesc.ranges_src : x.ranges false = x.rowList.map fun i => (x.srcRow i, x.length) := by
  by_cases hl : x.length = 0 <;> simp [ranges, rowList, srcRow, hl]

theorem XferDesc.ranges_dst : x.ranges true = x.rowList.map fun i => (x.dstRow i, x.length) := by
  by_cases hl : x.length = 0 <;> simp [ranges, rowList, dstRow, hl]

theorem XferDesc.zip_ranges : (x.ranges false).zip (x.ranges true) = x.rowList.map fun i => ((x.srcRow i, x.length), (x.dstRow i, x.length)) := by
  rw [ranges_src, ranges_dst, List.zip_map']

/-- Every row lies within the span. -/
theorem XferDesc.row_le_span {i : Nat} (h : i ∈ x.rowList) (dst : Bool) :
    i * (if dst then x.dstPitch else x.srcPitch) + x.length ≤ x.span dst := by
  obtain ⟨hl, hi⟩ := mem_rowList.mp h
  have hsome : ¬ (x.length = 0 ∨ x.rows = 0) := by omega
  rw [span, if_neg hsome]
  exact Nat.add_le_add_right (Nat.mul_le_mul_right _ (show i ≤ x.rows - 1 by omega)) _

/-- What R153 asks of a descriptor's rows: those written do not overlap one another, nor those that are read. -/
theorem XferDesc.rows_of_not_bad {s : State} (hbad : x.bad s = false) :
    (1 < x.rows → x.length ≤ x.dstPitch) ∧ rangesMeet (plainRanges s (x.ranges false)) (plainRanges s (x.ranges true)) = false := by
  simp only [bad, Bool.or_eq_false_iff, Bool.and_eq_false_iff, decide_eq_false_iff_not] at hbad
  obtain ⟨⟨⟨⟨_, hpitch⟩, hmeet⟩, _⟩, _⟩ := hbad
  exact ⟨fun hrows => by omega, hmeet⟩

section
variable {s : State} (hbad : x.bad s = false) (hsrc : x.src + x.span false ≤ nearEnd) (hdst : x.dst + x.span true ≤ nearEnd)

section
include hsrc hdst

theorem XferDesc.rows_near {i : Nat} (h : i ∈ x.rowList) : x.srcRow i + x.length ≤ nearEnd ∧ x.dstRow i + x.length ≤ nearEnd := by
  have hs := row_le_span h false
  have hd := row_le_span h true
  simp only [Bool.false_eq_true, if_false, if_true] at hs hd
  simp only [srcRow, dstRow]
  omega

include hbad

/-- A sound descriptor's rows meet no row that they are copied from. -/
theorem XferDesc.src_dst_apart {i j : Nat} (hi : i ∈ x.rowList) (hj : j ∈ x.rowList) :
    x.srcRow i + x.length ≤ x.dstRow j ∨ x.dstRow j + x.length ≤ x.srcRow i := by
  obtain ⟨hl, _⟩ := mem_rowList.mp hi
  have hni := (rows_near hsrc hdst hi).1
  have hnj := (rows_near hsrc hdst hj).2
  obtain ⟨_, hmeet⟩ := rows_of_not_bad hbad
  by_contra hno
  refine Bool.eq_false_iff.mp hmeet ?_
  simp only [rangesMeet, plainRanges, List.any_eq_true, List.mem_map, ranges_src, ranges_dst]
  refine ⟨_, ⟨_, ⟨i, hi, rfl⟩, rfl⟩, _, ⟨_, ⟨j, hj, rfl⟩, rfl⟩, ?_⟩
  simp only [plainAddr_near s (show x.srcRow i < nearEnd by omega), plainAddr_near s (show x.dstRow j < nearEnd by omega), Bool.and_eq_true,
    decide_eq_true_eq]
  omega

end

include hbad

/-- Nor one another. -/
theorem XferDesc.dst_apart {i j : Nat} (hi : i ∈ x.rowList) (hj : j ∈ x.rowList) (hne : j ≠ i) :
    x.dstRow i + x.length ≤ x.dstRow j ∨ x.dstRow j + x.length ≤ x.dstRow i := by
  obtain ⟨_, hi⟩ := mem_rowList.mp hi
  obtain ⟨_, hj⟩ := mem_rowList.mp hj
  have hpitch : x.length ≤ x.dstPitch := (rows_of_not_bad hbad).1 (by omega)
  have hlt {a b : Nat} (h : a < b) : x.dstRow a + x.length ≤ x.dstRow b := by
    have := Nat.mul_le_mul_right x.dstPitch (Nat.succ_le_of_lt h)
    rw [Nat.succ_mul] at this
    simp only [dstRow]
    omega
  exact (Nat.lt_or_gt_of_ne hne).symm.imp hlt hlt

include hsrc hdst

section
variable {h : Nat} {cmd : Option CmdId} {v : State} (hclean : s.symErr = [])
  (hok : copyRows s h cmd ((x.ranges false).zip (x.ranges true)) = (v, .ok ()))
include hclean hok

theorem XferDesc.copied : Untouched (pokeAll x.rowList s x.dstRow fun i => peekBytes s (x.srcRow i) x.length) v := by
  rw [zip_ranges] at hok
  exact copyRows_served hclean (fun _ _ => rfl) (fun _ hi => rows_near hsrc hdst hi) (fun _ hi _ hj => src_dst_apart hbad hsrc hdst hi hj) hok

/-- A copy leaves the windows alone. -/
theorem XferDesc.copied_findCmd (g q : Nat) : findCmd v g q = findCmd s g q := by
  rw [(copied hbad hsrc hdst hclean hok).findCmd, pokeAll_frame]
  rfl

/-- Every row holds what it was copied from. -/
theorem XferDesc.copied_rows (hs : Inv s) {i : Nat} (hi : i < x.rows) :
    peekBytes v (x.dstRow i) x.length = peekBytes s (x.srcRow i) x.length := by
  rw [(copied hbad hsrc hdst hclean hok).peekBytes]
  by_cases hl : x.length = 0
  · rw [hl]; rfl
  · have hmem : i ∈ x.rowList := mem_rowList.mpr ⟨hl, hi⟩
    have hread := peekBytes_pokeAll (a := x.dstRow) (b := fun i => peekBytes s (x.srcRow i) x.length) hs hmem fun j hj hne => by
      simp only [peekBytes_length]
      exact dst_apart hbad hmem hj hne
    rwa [peekBytes_length] at hread

/-- Every byte outside the rows keeps its value. -/
theorem XferDesc.copied_bytesKept : BytesKept s v ((List.range x.rows).map fun i => (x.dstRow i, x.length)) := by
  intro y hy
  rw [peek, (copied hbad hsrc hdst hclean hok).mem]
  refine peek_pokeAll_outside fun i hi => ?_
  have hout := hy _ (List.mem_map_of_mem (List.mem_range.mpr (mem_rowList.mp hi).2))
  simp only [inRange] at hout
  rw [peekBytes_length]
  omega

end
end
end

/-! ### XFER (R152, R153) -/

section
variable {h : Fin 16} {seq : BitVec 32} {c : Cmd} {s u v : State}

/-- A list with nothing left is done. -/
theorem runList_end {g fuel i : Nat} (hi : c.fld 0x18 4 ≤ i) : runList s g c (fuel + 1) i = cmdDone s g c := by
  have hn : min 16 (c.fld 0x18 4 - i) = 0 := by omega
  rw [runList]
  simp only [hn, if_true]

theorem xfer_none (hr : Runs h seq 0x08 c s) (hn : c.fld 0x18 4 = 0) : exec (.xfer h seq) s = .next (cmdDone s h c) := by
  show execXfer h seq s = _
  rw [execXfer, opRow_runs hr, runList_end (by omega)]

/-- A burst of one descriptor is that descriptor. -/
theorem fetchBurst_one {g a : Nat} {b : Bytes} (hread : memRead s (idDisp g) a 32 (some (cmdId s g c)) = (u, .ok b)) :
    fetchBurst s g c 1 a = (u, .ok [b]) := by
  rw [fetchBurst, hread]
  simp only [fetchBurst]
  split <;> rfl

/-- A sound descriptor whose rows are copied is executed. -/
theorem runDesc_served {g : Nat} {b : Bytes} (hbad : (XferDesc.parse b).bad u = false)
    (hbanks : rangeBanksMissing u g c ((XferDesc.parse b).ranges false ++ (XferDesc.parse b).ranges true) = false)
    (hok : copyRows u g (some (cmdId u g c)) (((XferDesc.parse b).ranges false).zip ((XferDesc.parse b).ranges true)) = (v, .ok ())) :
    runDesc u g c b = (v, .ok (bit (XferDesc.parse b).flags 0)) := by
  simp only [runDesc, hbad, hbanks, hok, Bool.false_eq_true, if_false]

/-- A list of one descriptor is done with it, whether or not the descriptor is marked as the last (R152). -/
theorem xfer_one {b : Bytes} (hr : Runs h seq 0x08 c s) (hcount : c.fld 0x18 4 = 1) (hphase : c.phase = 0)
    (hread : memRead s (idDisp h) (c.fld 0x10 8) 32 (some (cmdId s h c)) = (u, .ok b))
    (hlist : rangeBanksMissing u h c [(c.fld 0x10 8, 32)] = false) (hdesc : runDesc u h c b = (v, .ok (bit (XferDesc.parse b).flags 0))) :
    exec (.xfer h seq) s = .next (cmdDone v h c) := by
  show execXfer h seq s = _
  rw [execXfer, opRow_runs hr, hphase, runList]
  simp only [hcount, Nat.mul_zero, Nat.add_zero, Nat.sub_zero, Nat.reduceLeDiff, Nat.min_eq_right, Nat.reduceEqDiff, if_false,
    fetchBurst_one hread, List.length_singleton, Nat.mul_one, hlist, Bool.false_eq_true, runDescs, hdesc]
  cases bit (XferDesc.parse b).flags 0 with
  | true => rfl
  | false => exact congrArg _ (runList_end (by omega))

end

/-! ### The statement -/

/-- Settles O29: an XFER of one descriptor is `XferDesc.copied`, a TACK `copied_near`; what the requests' checks do moves no byte. -/
theorem dispatcherTransfers : Obligations.DispatcherTransfers := by
  refine ⟨fun h seq c s => ⟨fun hr => ⟨_, nop_runs hr, cmdDone_commandIs hr.findCmd⟩, fun hr => ?_⟩, ?_⟩
  · exact ⟨_, qput_runs hr, updCmd_commandIs (f := fun x => { x with st := .putting }) (fun _ => rfl) hr.findCmd⟩
  · intro h seq c b s u v w
    refine ⟨fun hr hn => ⟨_, xfer_none hr hn, cmdDone_commandIs hr.findCmd⟩, ?_,
      fun hr hn => ⟨_, dispTack_none hr hn, cmdDone_commandIs hr.findCmd⟩, ?_⟩
    · intro x me hr hs hclean hcount hphase hread hbad hlist hbanks hsrc hdst hok
      have hu := memRead_untouched hclean hread
      have hclean' := hu.symErr.trans hclean
      have hfound : findCmd v h c.seq = some c :=
        (XferDesc.copied_findCmd hbad hsrc hdst hclean' hok h c.seq).trans ((hu.findCmd h c.seq).trans hr.findCmd)
      refine ⟨_, xfer_one hr hcount hphase hread hlist (runDesc_served hbad hbanks hok), cmdDone_commandIs hfound, fun i hi => ?_, fun y hy => ?_⟩
      · exact (XferDesc.copied_rows hbad hsrc hdst hclean' hok (hu.inv hs) hi).trans (hu.peekBytes _ _)
      · exact (XferDesc.copied_bytesKept hbad hsrc hdst hclean' hok y hy).trans (congrArg (·.get y) hu.mem)
    · intro src dst n earlier
      refine ⟨fun hr hn hout => dispTack_behind hr hn hout, fun hr hs hclean hn hout hsrc hdst hread hwrite => ?_⟩
      obtain ⟨hb, hw⟩ := copied_near hclean hsrc hdst hread hwrite
      have hlen : b.length = n := by rw [hb, peekBytes_length]
      have hfound : findCmd w h c.seq = some c := (hw.findCmd h c.seq).trans hr.findCmd
      refine ⟨_, dispTack_served hr hn hout ((tackRead_near s (by omega) _).trans hread) ((tackWrite_near v (by omega) _).trans hwrite),
        cmdDone_commandIs hfound, ?_, fun y hy => ?_⟩
      · have hput := peekBytes_poke hs dst b
        rw [hlen] at hput
        exact (hw.peekBytes dst n).trans (hput.trans hb)
      · exact (congrArg (·.get y) hw.mem).trans (poke_bytesKept s dst b y (by rwa [hlen]))

end Sys2Proof.Machine
end

section
/-! SUPPORT. Scalar instructions (R164, R176, R178, R179): the arithmetic of 64-bit words as arithmetic of numbers, what an instruction that changes
its core alone comes to, and the statement about them. -/

namespace Sys2Proof.Machine

/-! ### Scalar registers (R164) -/

theorem AwlCore.sreg_zero (c : AwlCore) : c.sreg 0 = 0 := if_pos rfl

theorem AwlCore.setS_zero (c : AwlCore) (v : BitVec 64) : c.setS 0 v = c := if_pos rfl

theorem AwlCore.setS_frame (c : AwlCore) (n : Fin 32) (v : BitVec 64) : c.setS n v = { c with sregs := (c.setS n v).sregs } := by
  unfold AwlCore.setS
  split <;> rfl

theorem AwlCore.sreg_setS_same (c : AwlCore) {n : Fin 32} (v : BitVec 64) (h : n ≠ 0) : (c.setS n v).sreg n = v := by
  simp only [AwlCore.sreg, AwlCore.setS, if_neg h, Smap.get_set_same]

theorem AwlCore.sreg_setS_ne (c : AwlCore) {n m : Fin 32} (v : BitVec 64) (h : m ≠ n) : (c.setS n v).sreg m = c.sreg m := by
  have hv : n.val ≠ m.val := fun e => h (Fin.ext e.symm)
  unfold AwlCore.sreg AwlCore.setS
  by_cases hn : n = 0
  · simp only [if_pos hn]
  · simp only [if_neg hn, Smap.get_set_ne _ _ _ hv]

@[simp] theorem AwlCore.setS_pc (c : AwlCore) (n : Fin 32) (v : BitVec 64) : (c.setS n v).pc = c.pc := by rw [AwlCore.setS_frame]

/-! ### Words as numbers (R178, R179) -/

section
variable (a b : BitVec 64)

theorem word_add : a + b = BitVec.ofInt 64 (a.toInt + b.toInt) := by
  rw [BitVec.ofInt_add, BitVec.ofInt_toInt, BitVec.ofInt_toInt]

theorem word_sub : a - b = BitVec.ofInt 64 (a.toInt - b.toInt) := by
  rw [Int.sub_eq_add_neg, BitVec.ofInt_add, BitVec.ofInt_neg, BitVec.ofInt_toInt, BitVec.ofInt_toInt, BitVec.sub_eq_add_neg]

theorem word_mul : a * b = BitVec.ofInt 64 (a.toInt * b.toInt) := by
  rw [BitVec.ofInt_mul, BitVec.ofInt_toInt, BitVec.ofInt_toInt]

theorem word_shiftLeft (n : Nat) : a <<< n = BitVec.ofNat 64 (a.toNat * 2 ^ n) :=
  BitVec.eq_of_toNat_eq (by rw [BitVec.toNat_shiftLeft, BitVec.toNat_ofNat, Nat.shiftLeft_eq])

theorem word_shiftRight (n : Nat) : a >>> n = BitVec.ofNat 64 (a.toNat / 2 ^ n) := by
  refine BitVec.eq_of_toNat_eq ?_
  rw [BitVec.toNat_ushiftRight, BitVec.toNat_ofNat, Nat.shiftRight_eq_div_pow]
  exact (Nat.mod_eq_of_lt ((Nat.div_le_self _ _).trans_lt a.isLt)).symm

theorem word_sshiftRight (n : Nat) : a.sshiftRight n = BitVec.ofInt 64 (a.toInt / 2 ^ n) := by
  rw [← BitVec.ofInt_toInt (x := a.sshiftRight n), BitVec.toInt_sshiftRight, Int.shiftRight_eq_div_pow]
  rfl

theorem word_sll : a <<< shAmt b = BitVec.ofNat 64 (a.toNat * 2 ^ (b.toNat % 64)) := word_shiftLeft a _

theorem word_srl : a >>> shAmt b = BitVec.ofNat 64 (a.toNat / 2 ^ (b.toNat % 64)) := word_shiftRight a _

theorem word_sra : a.sshiftRight (shAmt b) = BitVec.ofInt 64 (a.toInt / 2 ^ (b.toNat % 64)) := word_sshiftRight a _

theorem ofBool_slt : ofBool (a.slt b) = if a.toInt < b.toInt then 1 else 0 := by
  rw [ofBool, BitVec.slt]
  exact if_congr decide_eq_true_iff rfl rfl

theorem ofBool_ult : ofBool (a.ult b) = if a.toNat < b.toNat then 1 else 0 := by
  rw [ofBool, BitVec.ult]
  exact if_congr decide_eq_true_iff rfl rfl

theorem aluSdiv_eq : aluSdiv a b = if b = 0 then BitVec.ofInt 64 (-1) else BitVec.ofInt 64 (a.toInt.tdiv b.toInt) := by
  unfold aluSdiv
  refine ite_congr rfl (fun _ => rfl) fun _ => ?_
  refine BitVec.eq_of_toInt_eq ?_
  rw [BitVec.toInt_sdiv, BitVec.toInt_ofInt]

theorem aluUdiv_eq : aluUdiv a b = if b = 0 then BitVec.ofNat 64 (2 ^ 64 - 1) else BitVec.ofNat 64 (a.toNat / b.toNat) := by
  unfold aluUdiv
  refine ite_congr rfl (fun _ => rfl) fun _ => ?_
  rw [← BitVec.toNat_udiv, BitVec.ofNat_toNat, BitVec.setWidth_eq]

theorem aluSrem_eq : aluSrem a b = if b = 0 then a else BitVec.ofInt 64 (a.toInt.tmod b.toInt) := by
  rw [← BitVec.toInt_srem, BitVec.ofInt_toInt]
  rfl

theorem aluUrem_eq : aluUrem a b = if b = 0 then a else BitVec.ofNat 64 (a.toNat % b.toNat) := by
  rw [← BitVec.toNat_umod, BitVec.ofNat_toNat, BitVec.setWidth_eq]
  rfl

theorem word_smin : (if a.slt b then a else b) = BitVec.ofInt 64 (min a.toInt b.toInt) := by
  by_cases h : a.toInt < b.toInt
  · simp [BitVec.slt, h, min_eq_left h.le]
  · simp [BitVec.slt, h, min_eq_right (Int.not_lt.mp h)]

theorem word_smax : (if a.slt b then b else a) = BitVec.ofInt 64 (max a.toInt b.toInt) := by
  by_cases h : a.toInt < b.toInt
  · simp [BitVec.slt, h, max_eq_right h.le]
  · simp [BitVec.slt, h, max_eq_left (Int.not_lt.mp h)]

theorem word_umin : (if a.ult b then a else b) = BitVec.ofNat 64 (min a.toNat b.toNat) := by
  by_cases h : a.toNat < b.toNat
  · simp [BitVec.ult, h, min_eq_left h.le]
  · simp [BitVec.ult, h, min_eq_right (Nat.not_lt.mp h)]

theorem word_umax : (if a.ult b then b else a) = BitVec.ofNat 64 (max a.toNat b.toNat) := by
  by_cases h : a.toNat < b.toNat
  · simp [BitVec.ult, h, max_eq_right h.le]
  · simp [BitVec.ult, h, max_eq_left (Nat.not_lt.mp h)]

/-- Leading zeros: the width of the number is what is left of 64. -/
theorem clz64_eq {n : Nat} (hn : n ≤ 64) (hlt : a.toNat < 2 ^ (64 - n)) (hle : n < 64 → 2 ^ (63 - n) ≤ a.toNat) : clz64 a = n := by
  unfold clz64
  rcases Nat.lt_or_eq_of_le hn with h | rfl
  · have hpos : a.toNat ≠ 0 := fun h0 => by
      have := hle h
      have := Nat.two_pow_pos (63 - n)
      omega
    have hlog : Nat.log2 a.toNat = 63 - n := (Nat.log2_eq_iff hpos).mpr ⟨hle h, by rwa [show 63 - n + 1 = 64 - n by omega]⟩
    rw [if_neg hpos, hlog]
    omega
  · rw [if_pos (by simpa using hlt)]

theorem bit_toNat (v : BitVec 64) (j : Nat) : bit v.toNat j = v.getLsbD j := by
  rw [bit, BitVec.getLsbD, Nat.testBit_eq_decide_div_mod_eq, Bool.beq_eq_decide_eq]

theorem popc64_eq : popc64 a = ((List.range 64).filter fun j => a.getLsbD j).length := by
  simp only [popc64, popcount, maskBits, bit_toNat]

end

/-! ### Immediates (Table 7-6) -/

section
variable (a : BitVec 64) (imm : BitVec 16)

theorem zeroExtend_eq : imm.zeroExtend 64 = BitVec.ofNat 64 imm.toNat := by
  refine BitVec.eq_of_toNat_eq ?_
  simp

theorem toInt_signExtend : (imm.signExtend 64).toInt = imm.toInt := BitVec.toInt_signExtend_of_le (by decide)

theorem add_signExtend : a + imm.signExtend 64 = BitVec.ofInt 64 (a.toInt + imm.toInt) := by rw [word_add, toInt_signExtend]

theorem shlo_eq : a <<< 16 ||| imm.zeroExtend 64 = BitVec.ofNat 64 (a.toNat * 2 ^ 16 + imm.toNat) := by
  refine BitVec.eq_of_toNat_eq ?_
  have himm : imm.toNat < 2 ^ 16 := imm.isLt
  have hor : (a.toNat * 2 ^ 16 % 2 ^ 64) ||| imm.toNat = a.toNat * 2 ^ 16 % 2 ^ 64 + imm.toNat := by
    rw [show a.toNat * 2 ^ 16 % 2 ^ 64 = 2 ^ 16 * (a.toNat % 2 ^ 48) by omega]
    exact (Nat.two_pow_add_eq_or_of_lt himm _).symm
  rw [zeroExtend_eq, BitVec.toNat_or, BitVec.toNat_shiftLeft, Nat.shiftLeft_eq, BitVec.toNat_ofNat, BitVec.toNat_ofNat,
    Nat.mod_eq_of_lt (himm.trans (by decide)), hor]
  omega

end

/-! ### Instructions that change their core alone -/

@[simp] theorem nextCore_pc (core : Core) (s : State) : (nextCore core s).pc = (getCore s (coreKey core)).pc + 4 := rfl

section
variable {core : Core} {i : Instr} {s : State}

theorem awlReg_effect {f g : AwlCore → AwlCore} (hexec : exec i s = awlReg core i f s) (hf : f (nextCore core s) = g (nextCore core s)) :
    AwlEffect core i s g := by
  intro hat
  refine ⟨_, ?_, retire_retired core (fetched core s) (g (nextCore core s))⟩
  rw [hexec, awlReg, awlStep_at hat, hf]

theorem alu3_effect {op : BitVec 64 → BitVec 64 → BitVec 64} {rd ra rb : Fin 32} {v : BitVec 64} (hexec : exec i s = alu3 core i op rd ra rb s)
    (hv : op ((getCore s (coreKey core)).sreg ra) ((getCore s (coreKey core)).sreg rb) = v) : AwlEffect core i s fun c => c.setS rd v :=
  awlReg_effect hexec (by simp only [nextCore_sreg, hv])

theorem alu2_effect {op : BitVec 64 → BitVec 64} {rd ra : Fin 32} {v : BitVec 64} (hexec : exec i s = alu2 core i op rd ra s)
    (hv : op ((getCore s (coreKey core)).sreg ra) = v) : AwlEffect core i s fun c => c.setS rd v :=
  awlReg_effect hexec (by simp only [nextCore_sreg, hv])

/-! ### Branches and jumps (R176; log entry 98) -/

/-- The address that is o instructions from the one at pc, modulo 2^64. -/
def jumpTarget (pc : Nat) (o : Int) : Nat := (((pc : Int) + 4 * o) % 2 ^ 64).toNat

theorem branchTarget_next (pc : Nat) (o : Int) : branchTarget (pc + 4) o = jumpTarget pc o := by
  rw [branchTarget, jumpTarget]
  congr 2
  omega

theorem branch_effect {cond : BitVec 64 → BitVec 64 → Bool} {ra rb : Fin 32} {off : BitVec 16} {taken : Prop}
    (hexec : exec i s = branch core i cond ra rb off s)
    (htaken : cond ((getCore s (coreKey core)).sreg ra) ((getCore s (coreKey core)).sreg rb) = true ↔ taken) :
    (taken → AwlEffect core i s fun c => { c with pc := jumpTarget (getCore s (coreKey core)).pc off.toInt }) ∧
      (¬taken → AwlEffect core i s id) := by
  constructor <;> intro h <;> refine awlReg_effect hexec ?_
  · simp only [nextCore_sreg, htaken.mpr h, if_true, jumpTo, nextCore_pc, branchTarget_next]
  · simp only [nextCore_sreg, if_neg (mt htaken.mp h), id]

theorem j_effect (off : BitVec 26) :
    AwlEffect core (.j core off) s fun c => { c with pc := jumpTarget (getCore s (coreKey core)).pc off.toInt } :=
  awlReg_effect (f := fun c => jumpTo c off.toInt) rfl (by simp only [jumpTo, nextCore_pc, branchTarget_next])

theorem jal_effect (off : BitVec 26) : AwlEffect core (.jal core off) s fun c =>
    { c.setS 31 (BitVec.ofNat 64 ((getCore s (coreKey core)).pc + 4)) with pc := jumpTarget (getCore s (coreKey core)).pc off.toInt } :=
  awlReg_effect (f := fun c => jumpTo (c.setS 31 (BitVec.ofNat 64 c.pc)) off.toInt) rfl
    (by simp only [jumpTo, AwlCore.setS_pc, nextCore_pc, branchTarget_next])

section
variable {rd ra : Fin 32} {off : BitVec 16}

theorem jalr_effect {t : Nat} (ht : (BitVec.ofInt 64 (((getCore s (coreKey core)).sreg ra).toInt + off.toInt)).toNat = t) (halign : t % 4 = 0) :
    AwlEffect core (.jalr core rd ra off) s fun c => { c.setS rd (BitVec.ofNat 64 ((getCore s (coreKey core)).pc + 4)) with pc := t } := by
  intro hat
  refine ⟨_, ?_, retire_retired core _ _⟩
  show execJalr core rd ra off s = _
  rw [execJalr, awlStep_at hat]
  simp only [nextCore_sreg, nextCore_pc, add_signExtend, ht, halign, ne_eq, not_true_eq_false, if_false]

theorem jalr_faults {t : Nat} (ht : (BitVec.ofInt 64 (((getCore s (coreKey core)).sreg ra).toInt + off.toInt)).toNat = t) (halign : t % 4 ≠ 0)
    (hat : AwlAt core (.jalr core rd ra off) s) : exec (.jalr core rd ra off) s =
      .next (awlFault (fetched core s) (coreKey core) Code.AWL_ALIGN 0 (getCore s (coreKey core)).word) := by
  show execJalr core rd ra off s = _
  rw [execJalr, awlStep_at hat]
  simp only [nextCore_sreg, add_signExtend, ht, halign, ne_eq, not_false_eq_true, if_true]

end
end

/-! ### The statement -/

/-- Settles O9: each instruction by the shape that its row shares with others, and by the lemma on its function of words. -/
theorem awlScalarInstructions : Obligations.AwlScalarInstructions := by
  refine ⟨fun c n m v => ⟨c.sreg_zero, c.setS_zero v, c.sreg_setS_same v, c.sreg_setS_ne v, c.setS_frame n v⟩, ?_, ?_, ?_⟩
  · intro core rd ra rb s a b gives int nat sh
    exact ⟨alu3_effect (show execAdd core rd ra rb s = _ from rfl) (word_add a b),
      alu3_effect (show execSub core rd ra rb s = _ from rfl) (word_sub a b),
      alu3_effect (show execAnd core rd ra rb s = _ from rfl) rfl,
      alu3_effect (show execOr core rd ra rb s = _ from rfl) rfl,
      alu3_effect (show execXor core rd ra rb s = _ from rfl) rfl,
      alu3_effect (show execSll core rd ra rb s = _ from rfl) (word_sll a b),
      alu3_effect (show execSrl core rd ra rb s = _ from rfl) (word_srl a b),
      alu3_effect (show execSra core rd ra rb s = _ from rfl) (word_sra a b),
      alu3_effect (show execSlt core rd ra rb s = _ from rfl) (ofBool_slt a b),
      alu3_effect (show execSltu core rd ra rb s = _ from rfl) (ofBool_ult a b),
      alu3_effect (show execMul core rd ra rb s = _ from rfl) (word_mul a b),
      alu3_effect (show execMulh core rd ra rb s = _ from rfl) rfl,
      alu3_effect (show execMulhu core rd ra rb s = _ from rfl) rfl,
      alu3_effect (show execDiv core rd ra rb s = _ from rfl) (aluSdiv_eq a b),
      alu3_effect (show execDivu core rd ra rb s = _ from rfl) (aluUdiv_eq a b),
      alu3_effect (show execRem core rd ra rb s = _ from rfl) (aluSrem_eq a b),
      alu3_effect (show execRemu core rd ra rb s = _ from rfl) (aluUrem_eq a b),
      alu3_effect (show execMin core rd ra rb s = _ from rfl) (word_smin a b),
      alu3_effect (show execMax core rd ra rb s = _ from rfl) (word_smax a b),
      alu3_effect (show execMinu core rd ra rb s = _ from rfl) (word_umin a b),
      alu3_effect (show execMaxu core rd ra rb s = _ from rfl) (word_umax a b)⟩
  · intro core rd ra imm amt s a gives int nat
    have hslti : ofBool (a.slt (imm.signExtend 64)) = if a.toInt < imm.toInt then 1 else 0 := by rw [ofBool_slt, toInt_signExtend]
    exact ⟨fun n hn hlt hle => alu2_effect (show execClz core rd ra s = _ from rfl) (congrArg (BitVec.ofNat 64) (clz64_eq a hn hlt hle)),
      alu2_effect (show execPopc core rd ra s = _ from rfl) (congrArg (BitVec.ofNat 64) (popc64_eq a)),
      alu2_effect (show execAddi core rd ra imm s = _ from rfl) (add_signExtend a imm),
      alu2_effect (show execAndi core rd ra imm s = _ from rfl) (congrArg (a &&& ·) (zeroExtend_eq imm)),
      alu2_effect (show execOri core rd ra imm s = _ from rfl) (congrArg (a ||| ·) (zeroExtend_eq imm)),
      alu2_effect (show execXori core rd ra imm s = _ from rfl) (congrArg (a ^^^ ·) (zeroExtend_eq imm)),
      alu2_effect (show execSlti core rd ra imm s = _ from rfl) hslti,
      alu2_effect (show execSltiu core rd ra imm s = _ from rfl) (ofBool_ult a _),
      alu2_effect (show execShi core rd ra 0 amt s = _ from rfl) (word_shiftLeft a amt.val),
      alu2_effect (show execShi core rd ra 1 amt s = _ from rfl) (word_shiftRight a amt.val),
      alu2_effect (show execShi core rd ra 2 amt s = _ from rfl) (word_sshiftRight a amt.val),
      alu2_effect (show execShlo core rd ra imm s = _ from rfl) (shlo_eq a imm)⟩
  · intro core rd ra rb off far s c a b link target goes
    have hge : !a.slt b ↔ b.toInt ≤ a.toInt := by simp [BitVec.slt]
    have hgeu : !a.ult b ↔ b.toNat ≤ a.toNat := by simp [BitVec.ult]
    exact ⟨branch_effect (show execBeq core ra rb off s = _ from rfl) beq_iff_eq,
      branch_effect (show execBne core ra rb off s = _ from rfl) bne_iff_ne,
      branch_effect (show execBlt core ra rb off s = _ from rfl) decide_eq_true_iff,
      branch_effect (show execBge core ra rb off s = _ from rfl) hge,
      branch_effect (show execBltu core ra rb off s = _ from rfl) decide_eq_true_iff,
      branch_effect (show execBgeu core ra rb off s = _ from rfl) hgeu,
      j_effect far, jal_effect far, jalr_effect rfl, jalr_faults rfl⟩

end Sys2Proof.Machine
end

section
/-! SUPPORT. Vector bit operations, comparisons, selection and moves (Table 7-9, R181), and the statement about them. -/

namespace Sys2Proof.Machine

/-! ### Lanes -/

theorem vLane_lt (et : Nat) (v : BitVec 512) (j : Nat) : vLane et v j < 2 ^ etBits et := bits_lt _ _ _

/-- A register filled with lanes that fit their width is read back lane by lane. -/
theorem lanesAre_of_fits {et : Fin 8} {g : Nat → Nat} (h : ∀ j, g j < 2 ^ etBits et.val) :
    lanesAre et (vOf et.val ((List.range (etLanes et.val)).map g)) g := by
  intro j hj
  exact (lanesAre_vOf g j hj).trans (Nat.mod_eq_of_lt (h j))

theorem intBits_eq (w : Nat) (x : Int) : intBits w x = (x % 2 ^ w).toNat := rfl

theorem intBits_lt (w : Nat) (x : Int) : intBits w x < 2 ^ w := by
  have hpos : (0 : Int) < 2 ^ w := by positivity
  rw [intBits_eq, Int.toNat_lt (Int.emod_nonneg x hpos.ne')]
  exact_mod_cast Int.emod_lt_of_pos x hpos

theorem ite_lt {p : Prop} [Decidable p] {a b n : Nat} (ha : a < n) (hb : b < n) : (if p then a else b) < n := by
  split
  · exact ha
  · exact hb

/-- All ones, or none. -/
theorem ones_mod (w : Nat) (b : Bool) : (if b then 2 ^ w - 1 else 0) % 2 ^ w = if b then 2 ^ w - 1 else 0 := by
  have := Nat.two_pow_pos w
  exact Nat.mod_eq_of_lt (ite_lt (by omega) this)

/-! ### Vector operations without flags -/

section
variable {core : Core} {i : Instr} {s : State} {et : Fin 8} {vd va vb : Fin 16}

/-- An operation that makes vd of the vector registers and raises no flag. -/
theorem vecEffect_of_setV {f : AwlCore → AwlCore} {v : BitVec 512} {ok : BitVec 512 → Prop} (hexec : exec i s = vecOp core i f s)
    (hf : f (nextCore core s) = (nextCore core s).setV vd.val v) (hv : ok v) : VecEffect core i s vd 0 ok := by
  intro hat hready
  refine ⟨_, v, hexec.trans (vecOp_retires hat hready f), hv, ?_⟩
  rw [hf, Nat.or_zero]
  exact retire_retired core _ _

theorem shift_effect {op : Nat → Nat → Nat} (hexec : exec i s = vShift core i et op vd va s) {g : Nat → Nat}
    (hg : ∀ j, op (etBits et.val) (vLane et.val ((getCore s (coreKey core)).vreg va.val) j) = g j) (hlt : ∀ j, g j < 2 ^ etBits et.val) :
    VecEffect core i s vd 0 fun v => lanesAre et v g := by
  refine vecEffect_of_setV hexec ?_ (lanesAre_of_fits hlt)
  simp only [vLanes, List.map_map, nextCore_vreg]
  rw [← funext hg]
  rfl

/-- A comparison gives all ones where it is true; a NaN compares false (Table 7-9). -/
theorem compare_effect {iop g : Int → Int → Bool} {fop : Ordering → Bool} (hexec : exec i s = vCompare core i et iop fop vd va vb s)
    (hg : ∀ a b, iop a b = g a b) :
    let c := getCore s (coreKey core)
    let load (r : Fin 16) (j : Nat) : FVal × Bool := (etFmt et.val).load c.subn (vLane et.val (c.vreg r.val) j)
    let num (r : Fin 16) (j : Nat) : Int := sext (etBits et.val) (vLane et.val (c.vreg r.val) j)
    VecEffect core i s vd (orLanes et fun j => if etFloat et.val && ((load va j).2 || (load vb j).2) then 1 else 0)
      fun v => lanesAre et v fun j =>
        if etFloat et.val then
          if !(load va j).1.isNan && !(load vb j).1.isNan && fop ((load va j).1.cmp (load vb j).1) then 2 ^ etBits et.val - 1 else 0
        else if g (num va j) (num vb j) then 2 ^ etBits et.val - 1 else 0 := by
  intro c load num
  refine vecEffect_of_lanes (r := fun j =>
    if etFloat et.val then
      (if !(load va j).1.isNan && !(load vb j).1.isNan && fop ((load va j).1.cmp (load vb j).1) then 2 ^ etBits et.val - 1 else 0,
        flagIf ((load va j).2 || (load vb j).2) stSubn)
    else (if iop (num va j) (num vb j) then 2 ^ etBits et.val - 1 else 0, 0)) hexec ?_ (fun j => ?_) (fun j => ?_)
  · simp only [lanes2, withLanes, nextCore_subn, nextCore_vreg]
    rfl
  all_goals cases hF : etFloat et.val
  · rfl
  · simp only [if_true, Bool.true_and]; rfl
  · simp only [Bool.false_eq_true, if_false, ones_mod, hg]
  · simp only [if_true, ones_mod]

theorem vsel_effect :
    let c := getCore s (coreKey core)
    let lane (r : Fin 16) (j : Nat) : Nat := vLane et.val (c.vreg r.val) j
    VecEffect core (.vsel core et vd va vb) s vd 0 fun v => lanesAre et v fun j =>
      if (if etFloat et.val then lane vb j % 2 ^ (etBits et.val - 1) else lane vb j) = 0 then lane vd j else lane va j := by
  intro c lane
  refine vecEffect_of_setV (show execVsel core et vd va vb s = vecOp core _ _ s from rfl) ?_ (lanesAre_of_fits fun j => ?_)
  · simp only [nextCore_vreg]
    congr 2
    refine List.map_congr_left fun j _ => ?_
    cases etFloat et.val <;> simp only [Bool.false_eq_true, if_false, if_true, beq_iff_eq] <;> rfl
  · exact ite_lt (vLane_lt _ _ _) (vLane_lt _ _ _)

/-! ### Moves, which are no arithmetic (R174) -/

/-- A move retires with what it puts into vd, on any core. -/
theorem move_fills {f : AwlCore → AwlCore} {v : BitVec 512} {ok : BitVec 512 → Prop} (hexec : exec i s = vecMove core i f s)
    (hf : f (nextCore core s) = (nextCore core s).setV vd.val v) (hv : ok v) (hat : AwlAt core i s) :
    ∃ t v, exec i s = .next t ∧ ok v ∧ AwlRetired core (fetched core s) ((nextCore core s).setV vd.val v) t := by
  obtain ⟨t, ht, hretired⟩ := awlReg_effect (g := fun c => c.setV vd.val v) hexec hf hat
  exact ⟨t, v, ht, hv, hretired⟩

theorem vext_effect {lane : BitVec 8} {x : Fin 32} : AwlEffect core (.vext core et va lane x) s fun c =>
    c.setS x (BitVec.ofNat 64 (vLane et.val ((getCore s (coreKey core)).vreg va.val) lane.toNat)) :=
  awlReg_effect (show execVext core et va lane x s = vecMove core _ _ s from rfl) (by simp only [nextCore_vreg])

theorem vbcast_lanes (x : Nat) : lanesAre et (vOf et.val (List.replicate (etLanes et.val) x)) fun _ => x % 2 ^ etBits et.val := by
  intro j hj
  rw [vLane_vOf (by simpa using lanes_fit et)]
  simp [List.getD_eq_getElem?_getD, hj]

theorem vins_lanes (v : BitVec 512) (l x : Nat) :
    lanesAre et (vOf et.val ((vLanes et.val v).set l (x % 2 ^ etBits et.val))) fun j => if j = l then x % 2 ^ etBits et.val else vLane et.val v j := by
  intro j hj
  rw [vLane_vOf (by simpa [vLanes] using lanes_fit et), List.getD_eq_getElem?_getD, List.getElem?_set]
  by_cases h : j = l
  · subst h
    simp [vLanes, hj]
  · rw [if_neg (Ne.symm h)]
    simp [vLanes, hj, h, Nat.mod_eq_of_lt (vLane_lt _ _ _)]

/-- The bytes by which VPERM picks its lanes. -/
theorem vLane_byte (v : BitVec 512) (j : Nat) : vLane 0 v j = (v.extractLsb' (8 * j) 8).toNat := by
  rw [vLane, bits, BitVec.extractLsb'_toNat, Nat.shiftRight_eq_div_pow, Nat.mul_comm]
  rfl

end

section
variable (core : Core) (et : Fin 8) (vd va vb : Fin 16) (x : Fin 32) (s : State)

theorem exec_vshl : exec (.vshl core et vd va x) s =
    vShift core (.vshl core et vd va x) et (fun w a => if w ≤ x.val then 0 else a * 2 ^ x.val % 2 ^ w) vd va s := rfl

theorem exec_vshrl : exec (.vshrl core et vd va x) s =
    vShift core (.vshrl core et vd va x) et (fun w a => if w ≤ x.val then 0 else a / 2 ^ x.val) vd va s := rfl

theorem exec_vshra : exec (.vshra core et vd va x) s =
    vShift core (.vshra core et vd va x) et (fun w a => intBits w (sext w a / 2 ^ x.val)) vd va s := rfl

theorem exec_vceq : exec (.vceq core et vd va vb) s =
    vCompare core (.vceq core et vd va vb) et (fun a b => a == b) (fun o => o == .eq) vd va vb s := rfl

theorem exec_vclt : exec (.vclt core et vd va vb) s =
    vCompare core (.vclt core et vd va vb) et (fun a b => decide (a < b)) (fun o => o == .lt) vd va vb s := rfl

theorem exec_vcle : exec (.vcle core et vd va vb) s =
    vCompare core (.vcle core et vd va vb) et (fun a b => decide (a ≤ b)) (fun o => o != .gt) vd va vb s := rfl

end

/-! ### The statement -/

/-- Settles O12: operations by what they put into each lane of vd, moves by `move_fills`. -/
theorem awlVectorBitsAndMoves : Obligations.AwlVectorBitsAndMoves := by
  refine ⟨?_, ?_⟩
  · intro core et vd va vb x s c w f isF lane num val sub shift compare
    have hlane : ∀ r j, lane r j < 2 ^ w := fun r j => vLane_lt _ _ _
    have hpos : 0 < 2 ^ w := Nat.two_pow_pos w
    refine ⟨vecEffect_of_setV (show execVand core et vd va vb s = vecOp core _ _ s from rfl) (by simp only [nextCore_vreg]; rfl) rfl,
      vecEffect_of_setV (show execVor core et vd va vb s = vecOp core _ _ s from rfl) (by simp only [nextCore_vreg]; rfl) rfl,
      vecEffect_of_setV (show execVxor core et vd va vb s = vecOp core _ _ s from rfl) (by simp only [nextCore_vreg]; rfl) rfl,
      fun _ => shift_effect (exec_vshl core et vd va x s) (fun _ => rfl) fun j => ite_lt hpos (Nat.mod_lt _ hpos),
      fun _ => shift_effect (exec_vshrl core et vd va x s) (fun _ => rfl) fun j => ite_lt hpos ((Nat.div_le_self _ _).trans_lt (hlane va j)),
      fun _ => shift_effect (exec_vshra core et vd va x s) (fun _ => rfl) fun j => intBits_lt w _,
      compare_effect (exec_vceq core et vd va vb s) fun a b => Bool.beq_eq_decide_eq a b,
      compare_effect (exec_vclt core et vd va vb s) fun _ _ => rfl, compare_effect (exec_vcle core et vd va vb s) fun _ _ => rfl, vsel_effect⟩
  · intro core et vd va vb lane x s c w fills
    refine ⟨move_fills (show execVbcast core et vd x s = vecMove core _ _ s from rfl) (by simp only [nextCore_sreg]; rfl) (vbcast_lanes _),
      move_fills (show execVins core et vd lane x s = vecMove core _ _ s from rfl) (by simp only [nextCore_vreg, nextCore_sreg]; rfl)
        (vins_lanes (c.vreg vd.val) lane.toNat (c.sreg x).toNat),
      move_fills (show execVmov core et vd va s = vecMove core _ _ s from rfl) (by simp only [nextCore_vreg]; rfl) rfl,
      move_fills (show execVperm core et vd va vb s = vecMove core _ _ s from rfl) (by simp only [nextCore_vreg, vLane_byte]; rfl)
        (lanesAre_of_fits fun j => vLane_lt _ _ _), ?_⟩
    exact vext_effect

end Sys2Proof.Machine
end

section
/-! SUPPORT. Reductions of vector lanes (R183): folds over the lanes of a register, and the statement about them. -/

namespace Sys2Proof.Machine

/-! ### Folds over lanes -/

theorem vLanes_foldl {α : Type} (et : Nat) (v : BitVec 512) (f : α → Nat → α) (a : α) :
    (vLanes et v).foldl f a = (List.range (etLanes et)).foldl (fun a j => f a (vLane et v j)) a := by rw [vLanes, List.foldl_map]

/-- The lanes of an element type that has lanes: the lowest, then the others in ascending order. -/
theorem vLanes_cons {et : Nat} (h : etLanes et ≠ 0) (v : BitVec 512) :
    vLanes et v = vLane et v 0 :: (List.range (etLanes et - 1)).map fun j => vLane et v (j + 1) := by
  obtain ⟨n, hn⟩ := Nat.exists_eq_succ_of_ne_zero h
  rw [vLanes, hn, List.range_succ_eq_map, List.map_cons, List.map_map]
  rfl

theorem exists_vLanes {et : Nat} {v : BitVec 512} {p : Nat → Prop} : (∃ x ∈ vLanes et v, p x) ↔ ∃ j, j < etLanes et ∧ p (vLane et v j) := by
  simp [vLanes]

theorem etValid_of_float {et : Nat} (h : etFloat et = true) : etValid et = true := by
  simp only [etFloat, Bool.or_eq_true, beq_iff_eq] at h
  rcases h with (rfl | rfl) | rfl <;> rfl

theorem etLanes_of_float {et : Nat} (h : etFloat et = true) : etLanes et ≠ 0 := by
  have := etValid_of_float h
  rwa [etValid, bne_iff_ne] at this

/-- A largest element is what a fold with `max` comes to. -/
theorem foldl_max_eq {α : Type} [LinearOrder α] {xs : List α} {a m : α} (hmem : m = a ∨ m ∈ xs) (ha : a ≤ m) (hle : ∀ x ∈ xs, x ≤ m) :
    xs.foldl max a = m := by
  induction xs generalizing a with
  | nil => exact (hmem.resolve_right List.not_mem_nil).symm
  | cons x xs ih =>
    have hx : x ≤ m := hle x List.mem_cons_self
    refine ih ?_ (max_le ha hx) fun y hy => hle y (List.mem_cons_of_mem x hy)
    rcases hmem with rfl | h
    · exact .inl (max_eq_left hx).symm
    · rcases List.mem_cons.mp h with rfl | h
      · exact .inl (max_eq_right ha).symm
      · exact .inr h

theorem foldl_max_headD {α : Type} [LinearOrder α] {xs : List α} {d m : α} (hmem : m ∈ xs) (hle : ∀ x ∈ xs, x ≤ m) :
    xs.tail.foldl max (xs.headD d) = m := by
  cases xs with
  | nil => exact absurd hmem List.not_mem_nil
  | cons a xs => exact foldl_max_eq (List.mem_cons.mp hmem) (hle a List.mem_cons_self) fun x hx => hle x (List.mem_cons_of_mem a hx)

theorem foldl_min_headD {α : Type} [LinearOrder α] {xs : List α} {d m : α} (hmem : m ∈ xs) (hle : ∀ x ∈ xs, m ≤ x) :
    xs.tail.foldl min (xs.headD d) = m :=
  foldl_max_headD (α := αᵒᵈ) hmem hle

/-- A NaN on the way, or before it, is what a fold comes to whose operation keeps NaN. -/
theorem foldl_nan {op : FVal → FVal → FVal} (hl : ∀ v, op .nan v = .nan) (hr : ∀ v, op v .nan = .nan) {xs : List FVal} {a : FVal}
    (h : a = .nan ∨ .nan ∈ xs) : xs.foldl op a = .nan := by
  induction xs generalizing a with
  | nil => exact h.resolve_right List.not_mem_nil
  | cons x xs ih =>
    refine ih ?_
    rcases h with rfl | h
    · exact .inl (hl x)
    · rcases List.mem_cons.mp h with rfl | h
      · exact .inl (hr a)
      · exact .inr h

theorem FVal.max_nan_left (v : FVal) : FVal.max .nan v = .nan := rfl
theorem FVal.max_nan_right (v : FVal) : FVal.max v .nan = .nan := by simp [FVal.max, FVal.isNan]
theorem FVal.min_nan_left (v : FVal) : FVal.min .nan v = .nan := rfl
theorem FVal.min_nan_right (v : FVal) : FVal.min v .nan = .nan := by simp [FVal.min, FVal.isNan]

section
variable (core : Core) (et : Fin 8) (va : Fin 16) (x : Fin 32) (s : State)

theorem exec_vrsum_int (hint : etFloat et.val = false) : exec (.vrsum core et va x) s = vecOp core (.vrsum core et va x)
    (fun c => c.setS x (BitVec.ofInt 64 ((vLanes et.val (c.vreg va.val)).foldl (fun a n => a + sext (etBits et.val) n) 0))) s := by
  show execVrsum core et va x s = _
  simp only [execVrsum, hint, Bool.false_eq_true, if_false]

theorem exec_vrmax : exec (.vrmax core et va x) s =
    vReduce core (.vrmax core et va x) et (fun a b => if a ≤ b then b else a) FVal.max va x s := rfl

theorem exec_vrmin : exec (.vrmin core et va x) s =
    vReduce core (.vrmin core et va x) et (fun a b => if a ≤ b then a else b) FVal.min va x s := rfl

end

/-! ### Integer lanes -/

/-- A lane of a core's register as a signed number, and all of them. -/
def AwlCore.laneInt (c : AwlCore) (et : Fin 8) (va : Fin 16) (j : Nat) : Int := sext (etBits et.val) (vLane et.val (c.vreg va.val) j)
def AwlCore.laneInts (c : AwlCore) (et : Fin 8) (va : Fin 16) : List Int := (List.range (etLanes et.val)).map (c.laneInt et va)

theorem AwlCore.mem_laneInts {c : AwlCore} {et : Fin 8} {va : Fin 16} {m : Int} :
    m ∈ c.laneInts et va ↔ ∃ j, j < etLanes et.val ∧ m = c.laneInt et va j := by
  simp [AwlCore.laneInts, eq_comm]

section
variable {core : Core} {i : Instr} {s : State} {et : Fin 8} {va : Fin 16} {x : Fin 32}

/-- Vector arithmetic leaves the core that it makes. -/
theorem vecOp_leaves {f : AwlCore → AwlCore} (hexec : exec i s = vecOp core i f s) (hready : vectorReady (getCore s (coreKey core)))
    (hat : AwlAt core i s) : ∃ t, exec i s = .next t ∧ AwlRetired core (fetched core s) (f (nextCore core s)) t :=
  ⟨_, hexec.trans (vecOp_retires hat hready f), retire_retired core _ _⟩

section
variable (hint : etFloat et.val = false) (hready : vectorReady (getCore s (coreKey core)))
include hint hready

theorem vrsum_int : AwlEffect core (.vrsum core et va x) s fun c =>
    c.setS x (BitVec.ofInt 64 ((List.range (etLanes et.val)).foldl (fun a j => a + (getCore s (coreKey core)).laneInt et va j) 0)) := by
  intro hat
  obtain ⟨t, ht, hretired⟩ := vecOp_leaves (exec_vrsum_int core et va x s hint) hready hat
  refine ⟨t, ht, ?_⟩
  simp only [nextCore_vreg, vLanes_foldl] at hretired
  exact hretired

theorem vReduce_int {iop : Int → Int → Int} {fop : FVal → FVal → FVal} (hexec : exec i s = vReduce core i et iop fop va x s) :
    let xs := (getCore s (coreKey core)).laneInts et va
    AwlEffect core i s fun c => c.setS x (BitVec.ofInt 64 (xs.tail.foldl iop (xs.headD 0))) := by
  intro xs hat
  obtain ⟨t, ht, hretired⟩ := vecOp_leaves hexec hready hat
  refine ⟨t, ht, ?_⟩
  simp only [hint, Bool.false_eq_true, if_false, nextCore_vreg, vLanes, List.map_map] at hretired
  exact hretired

section
variable {m : Int} (hmem : ∃ j, j < etLanes et.val ∧ m = (getCore s (coreKey core)).laneInt et va j)
include hmem

theorem vrmax_int (hle : ∀ j, j < etLanes et.val → (getCore s (coreKey core)).laneInt et va j ≤ m) :
    AwlEffect core (.vrmax core et va x) s fun c => c.setS x (BitVec.ofInt 64 m) := by
  have heffect := vReduce_int hint hready (exec_vrmax core et va x s)
  have hmax : (fun a b : Int => if a ≤ b then b else a) = max := funext fun a => funext fun b => (max_def a b).symm
  have hm := foldl_max_headD (d := 0) (AwlCore.mem_laneInts.mpr hmem) fun y hy => by
    obtain ⟨j, hj, rfl⟩ := AwlCore.mem_laneInts.mp hy
    exact hle j hj
  simpa only [hmax, hm] using heffect

theorem vrmin_int (hle : ∀ j, j < etLanes et.val → m ≤ (getCore s (coreKey core)).laneInt et va j) :
    AwlEffect core (.vrmin core et va x) s fun c => c.setS x (BitVec.ofInt 64 m) := by
  have heffect := vReduce_int hint hready (exec_vrmin core et va x s)
  have hmin : (fun a b : Int => if a ≤ b then a else b) = min := funext fun a => funext fun b => (min_def a b).symm
  have hm := foldl_min_headD (d := 0) (AwlCore.mem_laneInts.mpr hmem) fun y hy => by
    obtain ⟨j, hj, rfl⟩ := AwlCore.mem_laneInts.mp hy
    exact hle j hj
  simpa only [hmin, hm] using heffect

end
end
end

/-! ### Floating-point lanes -/

/-- A lane of a core's register as a floating-point value, with whether it was flushed. -/
def AwlCore.laneFp (c : AwlCore) (et : Fin 8) (va : Fin 16) (j : Nat) : FVal × Bool := (etFmt et.val).load c.subn (vLane et.val (c.vreg va.val) j)

@[simp] theorem nextCore_laneFp (core : Core) (s : State) (et : Fin 8) (va : Fin 16) :
    (nextCore core s).laneFp et va = (getCore s (coreKey core)).laneFp et va := by
  funext j
  simp only [AwlCore.laneFp, nextCore_subn, nextCore_vreg]

/-- A core with a lane's value in a scalar register, and flags in CSTAT. -/
def reducedTo (x : Fin 32) (r m : Nat) (c : AwlCore) : AwlCore := { c.setS x (BitVec.ofNat 64 r) with cstat := c.cstat ||| m }

/-- One addition of VRSUM, with its flags; before the first lane there is no sum. -/
def sumStep (f : FFmt) (flush : Bool) (a : Option Nat × Nat) (n : Nat) : Option Nat × Nat :=
  let v := f.load flush n
  match a.1 with
  | none =>
    let r := fp32.round flush v.1
    (some r.1, a.2 ||| flagIf (v.2 || r.2) stSubn)
  | some t =>
    let r := fp32.round flush ((fp32.decode t).add v.1)
    (some r.1, a.2 ||| flagIf (v.2 || r.2) stSubn)

theorem sumStep_foldl (f : FFmt) (flush : Bool) (xs : List Nat) (t m : Nat) : (xs.foldl (sumStep f flush) (some t, m)).1 =
    some (xs.foldl (fun t n => (fp32.round flush ((fp32.decode t).add (f.load flush n).1)).1) t) := by
  induction xs generalizing t m with
  | nil => rfl
  | cons x xs ih => exact ih _ _

/-- What VRSUM makes of a core with floating-point lanes. -/
def summed (et : Fin 8) (va : Fin 16) (x : Fin 32) (c : AwlCore) : AwlCore :=
  let r := (vLanes et.val (c.vreg va.val)).foldl (sumStep (etFmt et.val) c.subn) (none, 0)
  reducedTo x (r.1.getD 0) r.2 c

/-- What VRMAX and VRMIN make of one. -/
def picked (fop : FVal → FVal → FVal) (et : Fin 8) (va : Fin 16) (x : Fin 32) (c : AwlCore) : AwlCore :=
  let vs := (vLanes et.val (c.vreg va.val)).map ((etFmt et.val).load c.subn)
  let r := fp32.round c.subn (vs.tail.foldl (fun a v => fop a v.1) (vs.headD (.nan, false)).1)
  reducedTo x r.1 (flagIf (r.2 || vs.any (·.2)) stSubn) c

/-- What VAMAX makes of a core by one lane. -/
def amaxStep (f : FFmt) (c : AwlCore) (n : Nat) : AwlCore :=
  let v := f.load c.subn n
  if v.1.isFinite then
    { c with cstat := c.cstat ||| flagIf v.2 stSubn, amax := fp32MaxMag c.amax (fp32.round false v.1.abs).1 }
  else { c with cstat := c.cstat ||| flagIf v.2 stSubn ||| stNonfiniteAmax }

section
variable (core : Core) (i : Instr) (iop : Int → Int → Int) (fop : FVal → FVal → FVal) (et : Fin 8) (va : Fin 16) (x : Fin 32) (s : State)

theorem exec_vrsum_fp (hfp : etFloat et.val = true) : exec (.vrsum core et va x) s = vecOp core (.vrsum core et va x) (summed et va x) s := by
  show execVrsum core et va x s = _
  simp only [execVrsum, hfp, if_true]
  rfl

theorem vReduce_fp (hfp : etFloat et.val = true) : vReduce core i et iop fop va x s = vecOp core i (picked fop et va x) s := by
  simp only [vReduce, hfp, if_true]
  rfl

theorem exec_vamax : exec (.vamax core et va) s =
    vecOp core (.vamax core et va) (fun c => (vLanes et.val (c.vreg va.val)).foldl (amaxStep (etFmt et.val)) c) s := rfl

end

section
variable {et : Fin 8} (hfp : etFloat et.val = true) (va : Fin 16) (x : Fin 32) (c : AwlCore)
include hfp

/-- The sum in ascending lane order, each addition rounded. -/
theorem summed_eq : ∃ m, summed et va x c = reducedTo x ((List.range (etLanes et.val - 1)).foldl
    (fun acc j => (fp32.round c.subn ((fp32.decode acc).add (c.laneFp et va (j + 1)).1)).1) (fp32.round c.subn (c.laneFp et va 0).1).1) m c := by
  have hsum := (congrArg (fun xs => (xs.foldl (sumStep (etFmt et.val) c.subn) (none, 0)).1) (vLanes_cons (etLanes_of_float hfp) (c.vreg va.val))).trans
    (sumStep_foldl _ _ _ _ _)
  refine ⟨((vLanes et.val (c.vreg va.val)).foldl (sumStep (etFmt et.val) c.subn) (none, 0)).2, ?_⟩
  rw [summed, hsum, List.foldl_map]
  rfl

/-- The pick over the lanes, rounded to FP32; with a NaN among them it is NaN. -/
theorem picked_eq {fop : FVal → FVal → FVal} (hl : ∀ v, fop .nan v = .nan) (hr : ∀ v, fop v .nan = .nan) :
    ∃ r m, picked fop et va x c = reducedTo x r m c ∧ ((∃ j, j < etLanes et.val ∧ (c.laneFp et va j).1 = .nan) → r = fp32.nan) ∧
      r = (fp32.round c.subn ((List.range (etLanes et.val - 1)).foldl (fun acc j => fop acc (c.laneFp et va (j + 1)).1) (c.laneFp et va 0).1)).1 := by
  have hpick : picked fop et va x c = reducedTo x _ _ c := rfl
  rw [vLanes_cons (etLanes_of_float hfp), List.map_cons, List.tail_cons, List.headD_cons, List.map_map, List.foldl_map] at hpick
  refine ⟨_, _, hpick, ?_, rfl⟩
  rintro ⟨j, hj, hnan⟩
  have hfold := foldl_nan hl hr (xs := (List.range (etLanes et.val - 1)).map fun j => (c.laneFp et va (j + 1)).1) (a := (c.laneFp et va 0).1) (by
    cases j with
    | zero => exact .inl hnan
    | succ j => exact .inr (List.mem_map.mpr ⟨j, List.mem_range.mpr (by omega), hnan⟩))
  rw [List.foldl_map] at hfold
  exact congrArg (fun v => (fp32.round c.subn v).1) hfold

end

/-! ### VAMAX -/

theorem bit_eq_testBit (v i : Nat) : bit v i = v.testBit i := by rw [bit, Nat.testBit_eq_decide_div_mod_eq, Bool.beq_eq_decide_eq]

theorem bit_or (a b i : Nat) : bit (a ||| b) i = (bit a i || bit b i) := by simp only [bit_eq_testBit, Nat.testBit_or]

/-- A lane goes into AMAX where it is finite; else CSTAT bit 5 is among the bits that it sets. -/
theorem amaxStep_eq (f : FFmt) (c : AwlCore) (n : Nat) : ∃ m,
    amaxStep f c n = { c with
      amax := if (f.load c.subn n).1.isFinite then fp32MaxMag c.amax (fp32.round false (f.load c.subn n).1.abs).1 else c.amax,
      cstat := c.cstat ||| m } ∧ bit m 5 = !(f.load c.subn n).1.isFinite := by
  have hflag : bit (flagIf (f.load c.subn n).2 stSubn) 5 = false := by cases (f.load c.subn n).2 <;> decide
  unfold amaxStep
  cases hfin : (f.load c.subn n).1.isFinite with
  | true => exact ⟨flagIf (f.load c.subn n).2 stSubn, by simp only [if_true, hfin], hflag⟩
  | false =>
    exact ⟨flagIf (f.load c.subn n).2 stSubn ||| stNonfiniteAmax, by simp only [Bool.false_eq_true, if_false, hfin, Nat.or_assoc],
      by rw [bit_or, hflag]; rfl⟩

theorem amaxStep_foldl (f : FFmt) (c : AwlCore) (xs : List Nat) : ∃ m,
    xs.foldl (amaxStep f) c = { c with
      amax := xs.foldl (fun a n => if (f.load c.subn n).1.isFinite then fp32MaxMag a (fp32.round false (f.load c.subn n).1.abs).1 else a) c.amax,
      cstat := c.cstat ||| m } ∧ (bit m 5 = true ↔ ∃ n ∈ xs, (f.load c.subn n).1.isFinite = false) := by
  induction xs generalizing c with
  | nil => exact ⟨0, by simp, by simp [bit]⟩
  | cons x xs ih =>
    obtain ⟨m, hx, hbit⟩ := amaxStep_eq f c x
    obtain ⟨m', hxs, hbit'⟩ := ih (amaxStep f c x)
    have hsubn : (amaxStep f c x).subn = c.subn := by rw [hx]
    rw [hsubn] at hxs hbit'
    refine ⟨m ||| m', ?_, ?_⟩
    · rw [List.foldl_cons, hxs, hx]
      simp only [List.foldl_cons, Nat.or_assoc]
    · simp only [bit_or, Bool.or_eq_true, hbit, hbit', List.exists_mem_cons_iff, Bool.not_eq_true']

/-! ### The statement -/

/-- Settles O13: integer reductions by their folds, floating-point ones by `summed`, `picked` and `amaxStep`. -/
theorem awlReductions : Obligations.AwlReductions := by
  intro core et va x s c f n num load ints floats round flagged anyNan
  refine ⟨vrsum_int, fun m hmem hle hint hready => vrmax_int hint hready hmem hle, fun m hmem hle hint hready => vrmin_int hint hready hmem hle,
    fun hfp hat hready => ?_, fun hfp hat hready => ?_, fun hfp hat hready => ?_, fun hfp hat hready => ?_⟩
  · obtain ⟨t, ht, hretired⟩ := vecOp_leaves (exec_vrsum_fp core et va x s hfp) hready hat
    obtain ⟨m, hm⟩ := summed_eq hfp va x (nextCore core s)
    rw [nextCore_laneFp, nextCore_subn] at hm
    exact ⟨t, _, ht, ⟨m, hm⟩, hretired⟩
  · obtain ⟨t, ht, hretired⟩ := vecOp_leaves ((exec_vrmax core et va x s).trans (vReduce_fp _ _ _ _ _ _ _ _ hfp)) hready hat
    have hpick := picked_eq hfp va x (nextCore core s) FVal.max_nan_left FVal.max_nan_right
    rw [nextCore_laneFp, nextCore_subn] at hpick
    exact ⟨t, _, ht, hpick, hretired⟩
  · obtain ⟨t, ht, hretired⟩ := vecOp_leaves ((exec_vrmin core et va x s).trans (vReduce_fp _ _ _ _ _ _ _ _ hfp)) hready hat
    have hpick := picked_eq hfp va x (nextCore core s) FVal.min_nan_left FVal.min_nan_right
    rw [nextCore_laneFp, nextCore_subn] at hpick
    exact ⟨t, _, ht, hpick, hretired⟩
  · obtain ⟨t, ht, hretired⟩ := vecOp_leaves (exec_vamax core et va s) hready hat
    obtain ⟨m, hm, hbit⟩ := amaxStep_foldl (etFmt et.val) (nextCore core s) (vLanes et.val ((nextCore core s).vreg va.val))
    simp only [nextCore_subn, nextCore_vreg, exists_vLanes] at hbit
    refine ⟨t, _, ht, ⟨m, ?_, (congrArg AwlCore.amax hm).trans ?_, fun hall => Bool.eq_false_iff.mpr fun h => ?_, hbit.mpr⟩, hretired⟩
    · rw [hm]
    · simp only [nextCore_subn, nextCore_vreg, vLanes_foldl]
      rfl
    · obtain ⟨j, hj, hfin⟩ := hbit.mp h
      exact Bool.false_ne_true (hfin.symm.trans (hall j hj))

end Sys2Proof.Machine
end

section
/-! SUPPORT. Reads of local-store words (R167): which words a read checks, when it fails, what it corrects, and what it leaves of the block. -/

namespace Sys2Proof

theorem Smap.get_erase_same {α : Type} (d : α) (m : Smap α) (k : Nat) : (m.erase k).get d k = d := by
  induction m with
  | nil => rfl
  | cons e m ih =>
    obtain ⟨k', v⟩ := e
    by_cases h : k' = k <;> simp [Smap.erase, Smap.get, h, ih]

theorem Smap.get_erase_ne {α : Type} (d : α) (m : Smap α) {k k₂ : Nat} (h : k ≠ k₂) : (m.erase k).get d k₂ = m.get d k₂ := by
  induction m with
  | nil => rfl
  | cons e m ih =>
    obtain ⟨k', v⟩ := e
    by_cases h' : k' = k
    · subst h'
      simp [Smap.erase, Smap.get, h, ih]
    · simp [Smap.erase, Smap.get, h', ih]

end Sys2Proof

namespace Sys2Proof.Machine

/-! ### The words of a read -/

/-- The flipped words that a read of n bytes at a touches. -/
def lsWords (c : AwlCore) (a n : Nat) : List Nat :=
  ((List.range (n / 8 + 2)).map (a / 8 + ·)).filter fun w => decide (8 * w < a + n) && c.lsErr.get 0 w != 0

/-- A word with a single flipped bit is corrected and counted. -/
def lsFix (k : Nat) (s : State) (w : Nat) : State :=
  let s := updCore s k fun c => { c with lsErr := c.lsErr.erase w }
  let s := satAdd (wr s (coreFld k F.AWL_ERR_LS_CORR F.SAWL_ERR_LS_CORR) 1) (coreFld k F.AWL_ERR_CORR_COUNT F.SAWL_ERR_CORR_COUNT) 1
  lsCheck.cntHearthCore k (emberCode s (coreUnit k) Code.AWL_LS_CORR none) 17 1

/-- A word with two flipped bits is recorded. -/
def lsLost (s : State) (k : Nat) : State :=
  lsCheck.cntHearthCore k (wr s (coreFld k F.AWL_ERR_LS_UNCORR F.SAWL_ERR_LS_UNCORR) 1) 18 1

theorem lsCheck_eq (s : State) (k a n : Nat) : lsCheck s k a n =
    if (lsWords (getCore s k) a n).any fun w => decide (2 ≤ (getCore s k).lsErr.get 0 w) then (lsLost s k, true)
    else (each (lsWords (getCore s k) a n) s (lsFix k), false) := rfl

theorem mem_lsWords {c : AwlCore} {a n w : Nat} : w ∈ lsWords c a n ↔ (a / 8 ≤ w ∧ 8 * w < a + n) ∧ c.lsErr.get 0 w ≠ 0 := by
  simp only [lsWords, List.mem_filter, List.mem_map, List.mem_range, Bool.and_eq_true, decide_eq_true_eq, bne_iff_ne]
  constructor
  · rintro ⟨⟨x, hx, rfl⟩, hlt, hne⟩
    exact ⟨⟨by omega, hlt⟩, hne⟩
  · rintro ⟨⟨hle, hlt⟩, hne⟩
    exact ⟨⟨w - a / 8, by omega, by omega⟩, hlt, hne⟩

/-- A read fails exactly when it touches a word with two flipped bits. -/
theorem lsCheck_fails {s : State} {k a n : Nat} :
    (lsCheck s k a n).2 = true ↔ ∃ w, (a / 8 ≤ w ∧ 8 * w < a + n) ∧ 2 ≤ (getCore s k).lsErr.get 0 w := by
  have hany : ((lsWords (getCore s k) a n).any fun w => decide (2 ≤ (getCore s k).lsErr.get 0 w)) = true ↔
      ∃ w, (a / 8 ≤ w ∧ 8 * w < a + n) ∧ 2 ≤ (getCore s k).lsErr.get 0 w := by
    simp only [List.any_eq_true, mem_lsWords, decide_eq_true_eq]
    exact exists_congr fun w => ⟨fun ⟨⟨ht, _⟩, h2⟩ => ⟨ht, h2⟩, fun ⟨ht, h2⟩ => ⟨⟨ht, by omega⟩, h2⟩⟩
  rw [← hany, lsCheck_eq]
  split
  · next h => exact iff_of_true rfl h
  · next h => exact iff_of_false nofun h

theorem lsCheck_readable {s : State} {k a n : Nat} (h : (lsCheck s k a n).2 = false) :
    lsCheck s k a n = (each (lsWords (getCore s k) a n) s (lsFix k), false) := by
  rw [lsCheck_eq] at h ⊢
  split at h
  · exact absurd h nofun
  · next hn => rw [if_neg hn]

/-- With no flipped bit in the words that it touches, a read changes nothing. -/
theorem lsCheck_clean {s : State} {k a n : Nat} (h : ∀ w, a / 8 ≤ w ∧ 8 * w < a + n → (getCore s k).lsErr.get 0 w = 0) :
    lsCheck s k a n = (s, false) := by
  have hnone : lsWords (getCore s k) a n = [] := List.eq_nil_iff_forall_not_mem.2 fun w hw =>
    have ⟨ht, hne⟩ := mem_lsWords.1 hw
    hne (h w ht)
  rw [lsCheck_eq, hnone]
  rfl

/-! ### What a read corrects -/

theorem getCore_lsFix (k : Nat) (s : State) (w : Nat) : getCore (lsFix k s w) k = { getCore s k with lsErr := (getCore s k).lsErr.erase w } := by
  simp only [lsFix, getCore, lsCheckCount_cores, emberCode, emberPut_cores, satAdd, wr_cores]
  exact getCore_setCore_same s k _

theorem lsErr_each_lsFix (k : Nat) (ws : List Nat) (s : State) (w : Nat) :
    (getCore (each ws s (lsFix k)) k).lsErr.get 0 w = if w ∈ ws then 0 else (getCore s k).lsErr.get 0 w := by
  induction ws generalizing s with
  | nil => simp [each]
  | cons x ws ih =>
    have hx := ih (lsFix k s x)
    rw [getCore_lsFix] at hx
    refine hx.trans ?_
    by_cases hw : w ∈ ws
    · simp [hw]
    · by_cases hxw : w = x
      · subst hxw
        simp [hw, Smap.get_erase_same]
      · simp [hw, hxw, Smap.get_erase_ne _ _ (Ne.symm hxw)]

/-- A read corrects the words that it touches, and those alone. -/
theorem lsErr_lsCheck {s : State} {k a n : Nat} (h : (lsCheck s k a n).2 = false) (w : Nat) :
    (getCore (lsCheck s k a n).1 k).lsErr.get 0 w = if a / 8 ≤ w ∧ 8 * w < a + n then 0 else (getCore s k).lsErr.get 0 w := by
  rw [lsCheck_readable h, lsErr_each_lsFix]
  simp only [mem_lsWords]
  by_cases h0 : (getCore s k).lsErr.get 0 w = 0 <;> simp [h0]

/-! ### What a read leaves of the block -/

/-- An Ember entry changes no register below those of the Embers. -/
theorem regVal_emberPut (s : State) {o : Nat} (ho : o < 0x1f00000) (u type value cmd : Nat) (valid : Bool) (hearth arg : Nat) :
    regVal (emberPut s u type value cmd valid hearth arg) o = regVal s o := by
  unfold emberPut
  split
  · exact regVal_setReg_ne _ _ (by simp only [F.EMB_LOST_COUNT]; omega)
  · exact regVal_setReg_ne _ _ (by simp only [F.EMB_HEAD_NEXT]; omega)

theorem emberPut_frame (s : State) (u type value cmd : Nat) (valid : Bool) (hearth arg : Nat) :
    let t := emberPut s u type value cmd valid hearth arg
    t = { s with regs := t.regs, ember := t.ember, emberLost := t.emberLost } := by
  unfold emberPut
  split <;> rfl

/-- State t is s but for cores, Ember entries, and registers beyond those of the Damper and the dispatchers. -/
structure LsRead (s t : State) : Prop where
  regs : ∀ o, o < 0x120100 → regVal t o = regVal s o
  rest : t = { s with regs := t.regs, cores := t.cores, ember := t.ember, emberLost := t.emberLost }

namespace LsRead
variable {s t u : State}

theorem refl (s : State) : LsRead s s := ⟨fun _ _ => rfl, rfl⟩

theorem trans (a : LsRead s t) (b : LsRead t u) : LsRead s u :=
  ⟨fun o ho => (b.regs o ho).trans (a.regs o ho), by rw [b.rest, a.rest]⟩

theorem wr (h : LsRead s t) {f : Fld} (hf : 0x120100 ≤ f.off) (v : Nat) : LsRead s (Machine.wr t f v) :=
  h.trans ⟨fun _ ho => regVal_setReg_ne _ _ (by omega), rfl⟩

theorem setCore (h : LsRead s t) (k : Nat) (c : AwlCore) : LsRead s (Machine.setCore t k c) := h.trans ⟨fun _ _ => rfl, rfl⟩

theorem count (h : LsRead s t) (k i : Nat) : LsRead s (lsCheck.cntHearthCore k t i 1) := by
  unfold lsCheck.cntHearthCore
  split
  · exact h.wr (by simp only [F.CNT_HEARTH_VALUE]; omega) _
  · exact h

theorem emberCode (h : LsRead s t) (u code : Nat) : LsRead s (Machine.emberCode t u code none) :=
  h.trans ⟨fun _ ho => regVal_emberPut t (by omega) .., by rw [Machine.emberCode, emberPut_frame]⟩

theorem fix (h : LsRead s t) (k w : Nat) : LsRead s (lsFix k t w) := by
  have hcorr : 0x120100 ≤ (coreFld k F.AWL_ERR_LS_CORR F.SAWL_ERR_LS_CORR).off := by
    simp only [coreFld, F.AWL_ERR_LS_CORR, F.SAWL_ERR_LS_CORR]; split <;> simp only <;> omega
  have hcount : 0x120100 ≤ (coreFld k F.AWL_ERR_CORR_COUNT F.SAWL_ERR_CORR_COUNT).off := by
    simp only [coreFld, F.AWL_ERR_CORR_COUNT, F.SAWL_ERR_CORR_COUNT]; split <;> simp only <;> omega
  exact ((((h.setCore k _).wr hcorr _).wr hcount _).emberCode _ _).count k 17

theorem fixes (h : LsRead s t) (k : Nat) (ws : List Nat) : LsRead s (each ws t (lsFix k)) := by
  induction ws generalizing t with
  | nil => exact h
  | cons w ws ih => exact ih (h.fix k w)

theorem rd (h : LsRead s t) {f : Fld} (hf : f.off < 0x120100) : Machine.rd t f = Machine.rd s f := by
  rw [Machine.rd, Machine.rd, h.regs _ hf]

theorem mem (h : LsRead s t) : t.mem = s.mem := by rw [h.rest]
theorem disps (h : LsRead s t) : t.disps = s.disps := by rw [h.rest]
theorem tickets (h : LsRead s t) : t.tickets = s.tickets := by rw [h.rest]

end LsRead

theorem lsRead_lsCheck (s : State) (k a n : Nat) : LsRead s (lsCheck s k a n).1 := by
  rw [lsCheck_eq]
  split
  · have hlost : 0x120100 ≤ (coreFld k F.AWL_ERR_LS_UNCORR F.SAWL_ERR_LS_UNCORR).off := by
      simp only [coreFld, F.AWL_ERR_LS_UNCORR, F.SAWL_ERR_LS_UNCORR]; split <;> simp only <;> omega
    exact ((LsRead.refl s).wr hlost 1).count k 18
  · exact (LsRead.refl s).fixes k _

theorem lsRead_fetched (core : Core) (s : State) : LsRead s (fetched core s) := lsRead_lsCheck s _ _ _

end Sys2Proof.Machine
end

section
/-! SUPPORT. Waits, fences and token requests of Awl cores (R174, R190, R191): what an instruction that may end its core's part comes to on a ticket
that stands, the end of a wait, and the gate of a lean core. -/

namespace Sys2Proof.Machine

/-! ### What the fetch leaves for a wait -/

@[simp] theorem nextCore_seq (core : Core) (s : State) : (nextCore core s).seq = (getCore s (coreKey core)).seq :=
  nextCore_reads core s (·.seq) fun _ _ _ => rfl

theorem coreCancelled_fetched (core : Core) (s : State) : coreCancelled (fetched core s) (coreKey core) = coreCancelled s (coreKey core) := by
  have hticket : (getCore (fetched core s) (coreKey core)).ticket = (getCore s (coreKey core)).ticket :=
    nextCore_reads core s (·.ticket) fun _ _ _ => rfl
  simp only [coreCancelled, findTicket, hticket, (lsRead_fetched core s).tickets]

theorem seqOver_fetched (core : Core) (s : State) (n : Nat) :
    seqOver (fetched core s) (coreKey core / 8) n = seqOver s (coreKey core / 8) n := by
  have hread := lsRead_fetched core s
  have hkey := coreKey_lt core
  have hnext := hread.rd (f := F.HRT_DISP_SEQ_NEXT (coreKey core / 8)) (by simp only [F.HRT_DISP_SEQ_NEXT]; omega)
  simp only [seqOver, findCmd, getDisp, hread.disps, hnext]

/-! ### Instructions that may wait -/

section
variable {core : Core} {i : Instr} {s : State} {body : State → AwlCore → AwlRes}

/-- On a ticket that is not cancelled, a QOP, WAIT or TOK runs. -/
theorem waitStep_at (hat : AwlAt core i s) (hgoes : coreCancelled s (coreKey core) = false) :
    waitStep core i body s = awlStep core i body s := by
  rw [waitStep, awlStep_at hat, awlStep_at hat]
  simp only [coreCancelled_fetched, hgoes, Bool.false_eq_true, if_false]

theorem awlStep_retires (hat : AwlAt core i s) {u : State} {c : AwlCore} (hbody : body (fetched core s) (nextCore core s) = .done u c) :
    ∃ t, awlStep core i body s = .next t ∧ AwlRetired core u c t :=
  ⟨_, by rw [awlStep_at hat, hbody], retire_retired core u c⟩

theorem awlStep_waits (hat : AwlAt core i s) {u : State} {w : Wait} (hbody : body (fetched core s) (nextCore core s) = .wait u w) :
    ∃ t, awlStep core i body s = .next t ∧ AwlWaits core u w t :=
  ⟨_, by rw [awlStep_at hat, hbody], awlWaits_wr core u w⟩

theorem awlStep_faults (hat : AwlAt core i s) {u : State} {code info : Nat}
    (hbody : body (fetched core s) (nextCore core s) = .fault u code info) :
    awlStep core i body s = .next (awlFault u (coreKey core) code info (getCore s (coreKey core)).word) := by
  rw [awlStep_at hat, hbody]

section
variable (hgoes : coreCancelled s (coreKey core) = false)
include hgoes

theorem waitStep_retires (hat : AwlAt core i s) {u : State} {c : AwlCore} (hbody : body (fetched core s) (nextCore core s) = .done u c) :
    ∃ t, waitStep core i body s = .next t ∧ AwlRetired core u c t := waitStep_at hat hgoes ▸ awlStep_retires hat hbody

theorem waitStep_waits (hat : AwlAt core i s) {u : State} {w : Wait} (hbody : body (fetched core s) (nextCore core s) = .wait u w) :
    ∃ t, waitStep core i body s = .next t ∧ AwlWaits core u w t := waitStep_at hat hgoes ▸ awlStep_waits hat hbody

theorem waitStep_faults (hat : AwlAt core i s) {u : State} {code info : Nat}
    (hbody : body (fetched core s) (nextCore core s) = .fault u code info) :
    waitStep core i body s = .next (awlFault u (coreKey core) code info (getCore s (coreKey core)).word) :=
  waitStep_at hat hgoes ▸ awlStep_faults hat hbody

end

/-- A lean core without an increment waits for one in place of vector work, whatever the work (R174). -/
theorem leanGate_waits (hlean : (getCore s (coreKey core)).lean = true) (hheld : (getCore s (coreKey core)).held = 0) (go : AwlRes) :
    leanGate (fetched core s) (nextCore core s) go = .wait (fetched core s) (.tok 3 true) := by
  simp [leanGate, hlean, hheld]

theorem vecOp_waits (hlean : (getCore s (coreKey core)).lean = true) (hheld : (getCore s (coreKey core)).held = 0) {f : AwlCore → AwlCore}
    (hexec : exec i s = vecOp core i f s) (hat : AwlAt core i s) :
    ∃ t, exec i s = .next t ∧ AwlWaits core (fetched core s) (.tok 3 true) t :=
  hexec ▸ awlStep_waits hat (leanGate_waits hlean hheld _)

end

/-- An allowed conversion waits as vector work does. -/
theorem vcvt_waits {core : Core} {vd va : Fin 16} {s : State} (hlean : (getCore s (coreKey core)).lean = true)
    (hheld : (getCore s (coreKey core)).held = 0) (hat : AwlAt core (.vcvt core vd va 0 0x12 0x11) s) :
    ∃ t, exec (.vcvt core vd va 0 0x12 0x11) s = .next t ∧ AwlWaits core (fetched core s) (.tok 3 true) t :=
  (show exec (.vcvt core vd va 0 0x12 0x11) s = execVcvt core vd va 0 0x12 0x11 s from rfl) ▸ awlStep_waits hat (leanGate_waits hlean hheld _)

/-! ### Ends of waits and of holdings -/

/-- A wait for the core's own requests ends once none is outstanding, and the instruction retires. -/
theorem ownWait_ends {core : Core} {s : State} (hlive : unitLive s (coreUnit (coreKey core)) = true)
    (hwaits : rd s (coreStateF (coreKey core)) = awlWAITING) (hown : (getCore s (coreKey core)).wait = some .own)
    (hgoes : coreCancelled s (coreKey core) = false) (hdone : (getCore s (coreKey core)).outstanding = 0) :
    exec (.awlWaitEnd core) s = .next (retireWait s (coreKey core) id) := by
  show execAwlWaitEnd core s = _
  simp only [execAwlWaitEnd, hlive, hwaits, hown, hgoes, hdone]
  rfl

theorem retireWait_retired (core : Core) (s : State) (f : AwlCore → AwlCore) :
    AwlRetired core (resumeCore s (coreKey core))
      (f { getCore s (coreKey core) with wait := none, pc := (getCore s (coreKey core)).pc + 4 }) (retireWait s (coreKey core) f) := by
  have hcore : getCore (resumeCore s (coreKey core)) (coreKey core) = { getCore s (coreKey core) with wait := none } :=
    getCore_setCore_same _ _ _
  simp only [retireWait, hcore]
  exact retire_retired core _ _

theorem rd_resumeCore (core : Core) (s : State) : rd (resumeCore s (coreKey core)) (coreStateF (coreKey core)) = awlRUNNING := by
  obtain ⟨p, q, -, -, fs, -, -⟩ := core_fields (coreKey core) (coreKey_lt core)
  rw [resumeCore, fs, rd_wr_same _ _ (by simp)]
  rfl

/-- A core's holding waits at its dispatcher to be given back. -/
theorem releases_releaseHeld (s : State) (k : Nat) :
    (getDisp (releaseHeld s k) (k / 8)).releases = (getDisp s (k / 8)).releases + (getCore s k).held := by
  unfold releaseHeld
  extract_lets c u d
  split
  · next h => rw [show (getCore s k).held = 0 from h, Nat.add_zero]
  · rw [getDisp_setDisp_same]
    rfl

theorem tokRelease_retires {core : Core} {s t : State}
    (h : AwlRetired core (releaseHeld (fetched core s) (coreKey core)) { nextCore core s with held := 0 } t) :
    (getDisp t (coreKey core / 8)).releases = (getDisp s (coreKey core / 8)).releases + (getCore s (coreKey core)).held := by
  have hheld : (getCore (fetched core s) (coreKey core)).held = (getCore s (coreKey core)).held :=
    nextCore_reads core s (·.held) fun _ _ _ => rfl
  rw [h.rest, ← hheld]
  refine (releases_releaseHeld (fetched core s) (coreKey core)).trans ?_
  rw [getDisp, getDisp, (lsRead_fetched core s).disps]

/-! ### The statement -/

section
variable (core : Core) (s : State)

theorem exec_waitOwn : exec (.waitOwn core) s =
    waitStep core (.waitOwn core) (fun s c => if c.outstanding = 0 then .done s c else .wait s .own) s := rfl

theorem exec_fence : exec (.fence core) s =
    awlStep core (.fence core) (fun s c => if c.outstanding = 0 then .done s c else .stall s) s := rfl

/-- What WAIT SEQ comes to. -/
def waitSeqBody (ra : Fin 32) (s : State) (c : AwlCore) : AwlRes :=
  if (c.sreg ra).toNat % 2 ^ 32 = c.seq then .fault s Code.AWL_ILLEGAL 0
  else if seqOver s (coreKey core / 8) ((c.sreg ra).toNat % 2 ^ 32) then .done s c else .wait s (.seq ((c.sreg ra).toNat % 2 ^ 32))

theorem exec_waitSeq (ra : Fin 32) : exec (.waitSeq core ra) s = waitStep core (.waitSeq core ra) (waitSeqBody core ra) s := rfl

theorem waitSeqBody_eq (ra : Fin 32) : waitSeqBody core ra (fetched core s) (nextCore core s) =
    let n := ((getCore s (coreKey core)).sreg ra).toNat % 2 ^ 32
    if n = (getCore s (coreKey core)).seq then .fault (fetched core s) Code.AWL_ILLEGAL 0
    else if seqOver s (coreKey core / 8) n then .done (fetched core s) (nextCore core s) else .wait (fetched core s) (.seq n) := by
  simp only [waitSeqBody, nextCore_sreg, nextCore_seq, seqOver_fetched]

/-- What a token request comes to. -/
def tokBody (n : BitVec 8) (s : State) (c : AwlCore) : AwlRes :=
  if n = 0 ∨ 128 ≤ coreKey core then .done s c
  else if c.held ≠ 0 then .fault s Code.AWL_TOKEN 0
  else if neverFits s (coreKey core / 8) n.toNat then .fault s Code.TOKEN_EXCEEDS 0
  else .wait (coreAsks s (coreKey core) n.toNat false) (.tok n.toNat false)

/-- A request of a hearth core for some tokens asks for them unless it holds some, or they never fit. -/
theorem tokBody_asks {core : Core} {s : State} {n : BitVec 8} (hn : n ≠ 0) (hk : coreKey core < 128) :
    tokBody core n (fetched core s) (nextCore core s) =
      let u := fetched core s
      if (getCore s (coreKey core)).held ≠ 0 then .fault u Code.AWL_TOKEN 0
      else if neverFits u (coreKey core / 8) n.toNat then .fault u Code.TOKEN_EXCEEDS 0
      else .wait (coreAsks u (coreKey core) n.toNat false) (.tok n.toNat false) := by
  rw [tokBody, if_neg (not_or.2 ⟨hn, Nat.not_le.2 hk⟩), nextCore_held]

theorem exec_tokRequest (n : BitVec 8) : exec (.tokRequest core n) s = waitStep core (.tokRequest core n) (tokBody core n) s := rfl

theorem exec_tokRelease : exec (.tokRelease core) s = waitStep core (.tokRelease core)
    (fun s c => .done (releaseHeld s (coreKey core)) { c with held := 0 }) s := rfl

end

/-- Settles O15: an instruction's outcome is read off its body at what the fetch leaves, and the waits of a lean core off its gate. -/
theorem awlWaitsAndTokens : Obligations.AwlWaitsAndTokens := by
  refine ⟨?_, ?_, ?_⟩
  · intro core ra s k c u n
    refine ⟨fun hgoes => ⟨fun hnone hat => ?_, fun hsome hat => ?_, fun hne hover hat => ?_, fun hne hover hat => ?_, fun heq hat => ?_⟩,
      fun hnone hat => ?_, fun hlive hwaits hown hgoes hnone => ?_⟩
    · exact exec_waitOwn core s ▸ waitStep_retires hgoes hat (by rw [nextCore_outstanding, if_pos hnone]; rfl)
    · exact exec_waitOwn core s ▸ waitStep_waits hgoes hat (by rw [nextCore_outstanding, if_neg hsome])
    · exact exec_waitSeq core s ra ▸ waitStep_retires hgoes hat ((waitSeqBody_eq core s ra).trans (by rw [if_neg hne, if_pos hover]; rfl))
    · exact exec_waitSeq core s ra ▸ waitStep_waits hgoes hat
        ((waitSeqBody_eq core s ra).trans (by rw [if_neg hne, if_neg (Bool.not_eq_true _ ▸ hover)]))
    · exact exec_waitSeq core s ra ▸ waitStep_faults hgoes hat ((waitSeqBody_eq core s ra).trans (if_pos heq))
    · exact exec_fence core s ▸ awlStep_retires hat (by rw [nextCore_outstanding, if_pos hnone]; rfl)
    · exact ⟨_, resumeCore s k, ownWait_ends hlive hwaits hown hgoes hnone, retireWait_retired core s id,
        (retireWait_retired core s id).running.trans (rd_resumeCore core s),
        RegsKept.wr (fun _ _ => rfl) (List.mem_singleton_self _) _, rfl⟩
  · intro core n s k c u i faults hgoes
    refine ⟨fun hfree hat => ?_, fun hn hk hheld hat => ?_, fun hn hk hheld hbig hat => ?_, fun hn hk hheld hfits hat => ?_, fun hat => ?_⟩
    · exact exec_tokRequest core s n ▸ waitStep_retires hgoes hat (if_pos hfree)
    · exact (exec_tokRequest core s n).trans (waitStep_faults hgoes hat ((tokBody_asks hn hk).trans (if_pos hheld)))
    · exact (exec_tokRequest core s n).trans (waitStep_faults hgoes hat
        ((tokBody_asks hn hk).trans ((if_neg (not_not.2 hheld)).trans (if_pos hbig))))
    · exact exec_tokRequest core s n ▸ waitStep_waits hgoes hat
        ((tokBody_asks hn hk).trans ((if_neg (not_not.2 hheld)).trans (if_neg (Bool.not_eq_true _ ▸ hfits))))
    · obtain ⟨t, ht, hret⟩ := waitStep_retires hgoes hat (body := fun s c => .done (releaseHeld s (coreKey core)) { c with held := 0 }) rfl
      exact ⟨t, (exec_tokRelease core s).trans ht, hret, tokRelease_retires hret⟩
  · intro core et vd va vb x s hlean hheld waits
    have waiting {i : Instr} {f : AwlCore → AwlCore} (hexec : exec i s = vecOp core i f s) : waits i := vecOp_waits hlean hheld hexec
    exact ⟨waiting (show exec _ s = execVadd core et vd va vb s from rfl), waiting (show exec _ s = execVfma core et vd va vb s from rfl),
      waiting (show exec _ s = execVfmaw core et vd va x s from rfl), waiting (exec_vshl core et vd va x s),
      waiting (exec_vceq core et vd va vb s), waiting (show exec _ s = execVsel core et vd va vb s from rfl),
      waiting (exec_vexp core et vd va s), waiting (show exec _ s = execVrsum core et va x s from rfl),
      waiting (exec_vamax core et va s), vcvt_waits hlean hheld,
      awlReg_effect (f := fun c => c.setV vd.val (c.vreg va)) rfl (by simp only [nextCore_vreg])⟩

end Sys2Proof.Machine
end

section
/-! SUPPORT. Loads and stores of Awl cores (R165, R167, R171, R326): what an access of the local store and one of a bank come to, for any address,
size and use of the bytes; and the requests of a bank that its owner may use. -/

namespace Sys2Proof

/-- A byte of a number's little-endian string (R6). -/
theorem getD_leBytes {n j : Nat} (h : j < n) (v : Nat) : (leBytes n v).getD j 0 = BitVec.ofNat 8 (v / 2 ^ (8 * j)) := by
  induction n generalizing j v with
  | zero => exact absurd h (Nat.not_lt_zero j)
  | succ n ih =>
    cases j with
    | zero => simp [leBytes]
    | succ j =>
      have hpow : 2 ^ (8 * (j + 1)) = 256 * 2 ^ (8 * j) := by rw [Nat.mul_succ, Nat.pow_add, Nat.mul_comm]
      rw [leBytes, List.getD_cons_succ, ih (by omega), Nat.div_div_eq_div_mul, hpow]

theorem getD_leBytes_word {n j w : Nat} (h : j < n) (v : BitVec w) : (leBytes n v.toNat).getD j 0 = v.extractLsb' (8 * j) 8 := by
  rw [getD_leBytes h, ← Nat.shiftRight_eq_div_pow]
  rfl

end Sys2Proof

namespace Sys2Proof.Machine

@[simp] theorem nextCore_ls (core : Core) (s : State) : (nextCore core s).ls = (getCore s (coreKey core)).ls :=
  nextCore_reads core s (·.ls) fun _ _ _ => rfl
@[simp] theorem nextCore_banks (core : Core) (s : State) : (nextCore core s).banks = (getCore s (coreKey core)).banks :=
  nextCore_reads core s (·.banks) fun _ _ _ => rfl

/-! ### The two shapes -/

/-- A load of n bytes: `g` says what the core does with them. -/
def loadStep (core : Core) (i : Instr) (addr : AwlCore → Nat) (n : Nat) (g : Bytes → AwlCore → AwlCore) : State → Res :=
  awlStep core i fun s c => loadBytes (coreKey core) (addr c) n s fun s d => .done s (g d { getCore s (coreKey core) with pc := c.pc })

/-- A store of bytes. -/
def storeStep (core : Core) (i : Instr) (addr : AwlCore → Nat) (data : AwlCore → Bytes) : State → Res :=
  awlStep core i fun s c => storeBytes (coreKey core) (addr c) (data c) s c

/-- The address of a scalar access and of a vector access (Table 7-6). -/
def scalarAddr (ra : Fin 32) (imm : BitVec 16) (c : AwlCore) : Nat := (c.sreg ra + imm.signExtend 64).toNat
def vectorAddr (ra : Fin 32) (imm : BitVec 16) (c : AwlCore) : Nat := (c.sreg ra + (imm.signExtend 64) <<< 6).toNat

/-- A load into a scalar register, widened by `ext`. -/
def intoReg (rd : Fin 32) (ext : Nat → BitVec 64) (d : Bytes) (c : AwlCore) : AwlCore := c.setS rd (ext (leNat d))

/-- A load into a vector register. -/
def intoVec (vd : Fin 16) (d : Bytes) (c : AwlCore) : AwlCore := c.setV vd.val (bytesV d)

section
variable (core : Core) (rd ra : Fin 32) (vd : Fin 16) (imm : BitVec 16) (s : State)

theorem exec_lb : exec (.lb core rd ra imm) s = loadStep core (.lb core rd ra imm) (scalarAddr ra imm) 1 (intoReg rd (sext64 8)) s := rfl
theorem exec_lbu : exec (.lbu core rd ra imm) s = loadStep core (.lbu core rd ra imm) (scalarAddr ra imm) 1 (intoReg rd zext64) s := rfl
theorem exec_lh : exec (.lh core rd ra imm) s = loadStep core (.lh core rd ra imm) (scalarAddr ra imm) 2 (intoReg rd (sext64 16)) s := rfl
theorem exec_lhu : exec (.lhu core rd ra imm) s = loadStep core (.lhu core rd ra imm) (scalarAddr ra imm) 2 (intoReg rd zext64) s := rfl
theorem exec_lw : exec (.lw core rd ra imm) s = loadStep core (.lw core rd ra imm) (scalarAddr ra imm) 4 (intoReg rd (sext64 32)) s := rfl
theorem exec_lwu : exec (.lwu core rd ra imm) s = loadStep core (.lwu core rd ra imm) (scalarAddr ra imm) 4 (intoReg rd zext64) s := rfl
theorem exec_ld : exec (.ld core rd ra imm) s = loadStep core (.ld core rd ra imm) (scalarAddr ra imm) 8 (intoReg rd zext64) s := rfl
theorem exec_vld : exec (.vld core vd ra imm) s = loadStep core (.vld core vd ra imm) (vectorAddr ra imm) 64 (intoVec vd) s := rfl

/-- The low bytes of a scalar register. -/
def lowBytes (n : Nat) (rd : Fin 32) (c : AwlCore) : Bytes := leBytes n (c.sreg rd).toNat

theorem exec_sb : exec (.sb core rd ra imm) s = storeStep core (.sb core rd ra imm) (scalarAddr ra imm) (lowBytes 1 rd) s := rfl
theorem exec_sh : exec (.sh core rd ra imm) s = storeStep core (.sh core rd ra imm) (scalarAddr ra imm) (lowBytes 2 rd) s := rfl
theorem exec_sw : exec (.sw core rd ra imm) s = storeStep core (.sw core rd ra imm) (scalarAddr ra imm) (lowBytes 4 rd) s := rfl
theorem exec_sd : exec (.sd core rd ra imm) s = storeStep core (.sd core rd ra imm) (scalarAddr ra imm) (lowBytes 8 rd) s := rfl
theorem exec_vst : exec (.vst core vd ra imm) s =
    storeStep core (.vst core vd ra imm) (vectorAddr ra imm) (fun c => vBytes (c.vreg vd.val)) s := rfl

/-! ### Addresses and widening -/

theorem scalarAddr_next : scalarAddr ra imm (nextCore core s) =
    (BitVec.ofInt 64 (((getCore s (coreKey core)).sreg ra).toInt + imm.toInt)).toNat := by
  rw [scalarAddr, nextCore_sreg, add_signExtend]

theorem vectorAddr_next : vectorAddr ra imm (nextCore core s) =
    (BitVec.ofInt 64 (((getCore s (coreKey core)).sreg ra).toInt + 64 * imm.toInt)).toNat := by
  have hshift : imm.signExtend 64 <<< 6 = BitVec.ofInt 64 (64 * imm.toInt) := by
    rw [BitVec.shiftLeft_eq_mul_twoPow, word_mul, toInt_signExtend, Int.mul_comm]
    rfl
  rw [vectorAddr, nextCore_sreg, hshift, BitVec.ofInt_add, BitVec.ofInt_toInt]

/-- Without an offset an access is at its register. -/
theorem scalarAddr_zero : scalarAddr ra 0 (nextCore core s) = ((getCore s (coreKey core)).sreg ra).toNat := by
  rw [scalarAddr, nextCore_sreg]
  exact congrArg BitVec.toNat (BitVec.add_zero _)

theorem vectorAddr_zero : vectorAddr ra 0 (nextCore core s) = ((getCore s (coreKey core)).sreg ra).toNat := by
  rw [vectorAddr, nextCore_sreg]
  exact congrArg BitVec.toNat (BitVec.add_zero _)

end

/-- Bytes that fill a width are widened by their sign bit. -/
theorem sext64_eq {w v : Nat} (hw : 0 < w) (hv : v < 2 ^ w) :
    sext64 w v = BitVec.ofInt 64 (if v < 2 ^ (w - 1) then (v : Int) else v - 2 ^ w) := by
  simp only [sext64, sext, Nat.mod_eq_of_lt hv]
  by_cases h : v < 2 ^ (w - 1)
  · rw [if_pos h, if_neg (by omega)]
  · rw [if_neg h, if_pos ⟨by omega, hw⟩]

/-- A value loaded with its sign (Table 7-6). -/
theorem sext64_bytes {n : Nat} (hn : 0 < n) {d : Bytes} (hd : d.length = n) :
    sext64 (8 * n) (leNat d) = BitVec.ofInt 64 (if leNat d < 2 ^ (8 * n - 1) then (leNat d : Int) else leNat d - 2 ^ (8 * n)) :=
  sext64_eq (by omega) (hd ▸ leNat_lt d)

/-! ### The local store -/

theorem dataAddr_local {k a n : Nat} (h : a + n ≤ lsSize) : dataAddr k a n = .local a := if_pos h

@[simp] theorem AwlCore.lsBytes_length (c : AwlCore) (a n : Nat) : (c.lsBytes a n).length = n := by
  rw [AwlCore.lsBytes, List.length_map, List.length_range]

section
variable {k a n : Nat} {s : State} (halign : a % n = 0) (hls : a + n ≤ lsSize) (f : State → Bytes → AwlRes)
include halign hls

theorem loadBytes_local (h : (lsCheck s k a n).2 = false) :
    loadBytes k a n s f = f (lsCheck s k a n).1 ((getCore (lsCheck s k a n).1 k).lsBytes a n) := by
  have hcheck : lsCheck s k a n = ((lsCheck s k a n).1, false) := Prod.ext rfl h
  simp only [loadBytes, halign, dataAddr_local hls, ne_eq, not_true_eq_false, if_false]
  rw [hcheck]

theorem loadBytes_lost (h : (lsCheck s k a n).2 = true) : loadBytes k a n s f = .fault (lsCheck s k a n).1 Code.AWL_LS_ECC 0 := by
  have hcheck : lsCheck s k a n = ((lsCheck s k a n).1, true) := Prod.ext rfl h
  simp only [loadBytes, halign, dataAddr_local hls, ne_eq, not_true_eq_false, if_false]
  rw [hcheck]

end

section
variable {core : Core} {i : Instr} {s : State} {addr : AwlCore → Nat} {a : Nat} (ha : addr (nextCore core s) = a)
include ha

section
variable {n : Nat} {g : Bytes → AwlCore → AwlCore} (hexec : exec i s = loadStep core i addr n g s)
include hexec

/-- A load of readable local bytes gives them to the core; one of a word with two flipped bits faults. -/
theorem load_local (halign : a % n = 0) (hls : a + n ≤ lsSize) (hat : AwlAt core i s) :
    let k := coreKey core
    let u := lsCheck (fetched core s) k a n
    (u.2 = false → ∃ t, exec i s = .next t ∧
      AwlRetired core u.1 (g ((getCore s k).lsBytes a n) { getCore u.1 k with pc := (getCore s k).pc + 4 }) t) ∧
    (u.2 = true → exec i s = .next (awlFault u.1 k Code.AWL_LS_ECC 0 (getCore s k).word)) := by
  rw [hexec, loadStep]
  refine ⟨fun hok => awlStep_retires hat ?_, fun hlost => awlStep_faults hat ?_⟩
  · simp only [ha, loadBytes_local halign hls _ hok, lsBytes_lsCheck, nextCore_pc]
  · simp only [ha, loadBytes_lost halign hls _ hlost]

end

section
variable {data : AwlCore → Bytes} (hexec : exec i s = storeStep core i addr data s)
include hexec

/-- A store to the local store beyond the code region sets its bytes. -/
theorem store_local (halign : a % (data (nextCore core s)).length = 0) (hls : a + (data (nextCore core s)).length ≤ lsSize)
    (hcode : (getCore s (coreKey core)).codeLen ≤ a) (hat : AwlAt core i s) :
    ∃ t, exec i s = .next t ∧ AwlRetired core (fetched core s) ((nextCore core s).lsSet a (data (nextCore core s))) t := by
  rw [hexec, storeStep]
  refine awlStep_retires hat ?_
  simp only [storeBytes, ha, halign, dataAddr_local hls, nextCore_codeLen, Nat.not_lt.2 hcode, ne_eq, not_true_eq_false, if_false]

end
end

/-! ### Banks (R325 to R332) -/

/-- Address a lies in hearth bank b of hearth h, at its plain address. -/
theorem bank_lies {h b a w : Nat} (hh : h < 16) (hb : b < 8) (hw : 0 < w) (hbase : bankBase (16 + 8 * h + b) ≤ a)
    (hend : a + w ≤ bankBase (16 + 8 * h + b) + bankSize (16 + 8 * h + b)) (s : State) :
    regionOf s a = some (.hearth h 0) ∧ bankOf s a = some (16 + 8 * h + b, a, 0) ∧
      ∀ n < 8, dataAddr (8 * h + n) a w = .bank b a := by
  have hdiv : (16 + 8 * h + b - 16) / 8 = h := by omega
  have hmod : (16 + 8 * h + b - 16) % 8 = b := by omega
  simp only [bankBase, bankSize, show ¬ 16 + 8 * h + b < 16 by omega, if_false, hdiv, hmod] at hbase hend
  have hregion : regionOf s a = some (.hearth h 0) := by
    have hk : (a - 0xF00000000000) / 0x40000000 = 0 := by omega
    have hx : (a - 0xF00000000000) % 0x40000000 = a - 0xF00000000000 := by omega
    have hg : (a - 0xF00000000000 - 0x10000000) / 0x01000000 = h := Nat.div_eq_of_lt_le (by omega) (by omega)
    have hnear : ¬ a < nearEnd := by simp only [nearEnd]; omega
    have hfar : ¬ (0x010000000000 ≤ a ∧ a < 0x050000000000) := by omega
    have hhost : ¬ (0x100000000000 ≤ a ∧ a < 0x300000000000) := by omega
    have hbanks : 0xF00000000000 ≤ a ∧ a < 0xF000C0000000 := by omega
    have hshared : ¬ a - 0xF00000000000 < 0x08000000 := by omega
    have hin : 0x10000000 ≤ a - 0xF00000000000 ∧ a - 0xF00000000000 < 0x20000000 := by omega
    simp only [regionOf, hnear, hfar, hhost, hbanks, hk, hx, hg, hshared, hin, and_self, if_true, if_false]
  refine ⟨hregion, ?_, fun n hn => ?_⟩
  · have hbank : (a - 0xF00010000000 - h * 0x01000000) / 0x200000 = b := by omega
    simp only [bankOf, hregion, Nat.zero_mul, Nat.sub_zero, hbank]
  · have hkey : (8 * h + n) / 8 = h := by omega
    have hbank : (a - (0xF00010000000 + h * 0x01000000)) / 0x200000 = b := by omega
    simp only [dataAddr, hkey]
    rw [if_neg (by simp only [lsSize]; omega), if_pos (by omega), hbank]

/-- An aligned access stays in one sector. -/
theorem aligned_fits {a w : Nat} (hw : w ∣ 64) (halign : a % w = 0) : a % 64 + w ≤ 64 := by
  have hdvd : w ∣ 64 - a % 64 := Nat.dvd_sub hw ((Nat.dvd_mod_iff hw).2 (Nat.dvd_of_mod_eq_zero halign))
  have hle := Nat.le_of_dvd (by omega) hdvd
  omega

section
variable {s : State} {who a n : Nat} {cmd : Option CmdId} (hn : n ≠ 0) (hfit : a % 64 + n ≤ 64) (hplain : plainAddr s a = a)
include hn hfit hplain

/-- A read within one sector that its target serves gives the bytes that stand there. -/
theorem memRead_sector (hacc : access s who a n false cmd = (s, .ok ())) : memRead s who a n cmd = (s, .ok (peekBytes s a n)) := by
  obtain ⟨m, rfl⟩ := Nat.exists_eq_succ_of_ne_zero hn
  have hk : min m.succ (64 - a % 64) = m.succ := by omega
  rw [memRead, readFrom, if_neg hn]
  simp only [hk, hacc, hplain, Nat.sub_self, readFrom, if_true, List.append_nil]

/-- A write within one sector of plain addresses that its target serves sets its bytes. -/
theorem memWrite_sector {d : Bytes} (hd : d.length = n) (hmerge : mergeAlias s a d = d) (hacc : access s who a n true cmd = (s, .ok ())) :
    memWrite s who a d cmd = (poke s a d, .ok ()) := by
  subst hd
  have hk : min d.length (64 - a % 64) = d.length := by omega
  rw [memWrite, writeTo, if_neg hn]
  simp only [hk, hacc, hplain, List.take_length, List.drop_length, hmerge]
  cases d with
  | nil => exact absurd rfl hn
  | cons x xs => rfl

end

/-- An access of w bytes at a, of bank b of hearth h, that the core c may make: aligned, within the bank, which the core's command names, the
hearth holds, and which is cleared, with no flipped bit in the core's local store. -/
structure BankReady (s : State) (h : Fin 16) (c : AwlCore) (b : Fin 8) (a w : Nat) : Prop where
  aligned : a % w = 0
  base : bankBase (16 + 8 * h.val + b.val) ≤ a
  top : a + w ≤ bankBase (16 + 8 * h.val + b.val) + bankSize (16 + 8 * h.val + b.val)
  named : bit c.banks b.val = true
  owner : rd s (F.BNK_OWNER_OWNER (16 + 8 * h.val + b.val)) = idDisp h
  cleared : rd s (F.BNK_OWNER_CLEARING (16 + 8 * h.val + b.val)) = 0
  runs : fnState s h ≠ fnSTOPPED
  clean : c.lsErr = []

section
variable {h : Fin 16} {n b : Fin 8} {s : State} {a w : Nat}

/-- With no flipped bit in its local store a core's fetch leaves the state as it stands. -/
theorem fetched_clean {core : Core} (hclean : (getCore s (coreKey core)).lsErr = []) : fetched core s = s :=
  congrArg Prod.fst (lsCheck_clean fun w _ => by rw [hclean]; rfl)

section
variable (hready : BankReady s h (getCore s (coreKey (.hearth h n))) b a w) (hw : 0 < w)
include hready hw

theorem BankReady.lies : regionOf s a = some (.hearth h.val 0) ∧ bankOf s a = some (16 + 8 * h.val + b.val, a, 0) ∧
    dataAddr (coreKey (.hearth h n)) a w = .bank b.val a := by
  obtain ⟨hregion, hbank, hdata⟩ := bank_lies h.isLt b.isLt hw hready.base hready.top s
  exact ⟨hregion, hbank, hdata n.val n.isLt⟩

theorem BankReady.access (write : Bool) (cmd : Option CmdId) :
    access s (coreWho (coreKey (.hearth h n))) a w write cmd = (s, .ok ()) := by
  obtain ⟨hregion, hbank, -⟩ := hready.lies hw
  have hlt := h.isLt
  have hn := n.isLt
  have hwho : coreWho (coreKey (.hearth h n)) = idDisp h.val := by
    rw [coreWho, coreKey, if_pos (by omega), show (8 * h.val + n.val) / 8 = h.val by omega]
  have hhearth : bankHearth (16 + 8 * h.val + b.val) = h.val := by
    have hb := b.isLt
    rw [bankHearth, if_neg (by omega)]
    omega
  have hid : idDisp h.val ≠ 0 := by simp only [idDisp]; omega
  simp only [Machine.access, hregion, hbank, hwho, hready.owner, hready.cleared, hhearth, hready.runs, hid, ne_eq, not_true_eq_false, or_self,
    false_and, and_false, Nat.zero_ne_one, if_false]

theorem BankReady.memRead (hdvd : w ∣ 64) (cmd : Option CmdId) :
    memRead s (coreWho (coreKey (.hearth h n))) a w cmd = (s, .ok (peekBytes s a w)) := by
  obtain ⟨-, hbank, -⟩ := hready.lies hw
  exact memRead_sector (by omega) (aligned_fits hdvd hready.aligned) (by rw [plainAddr, hbank]) (hready.access hw _ _)

theorem BankReady.memWrite (hdvd : w ∣ 64) {d : Bytes} (hd : d.length = w) (cmd : Option CmdId) :
    memWrite s (coreWho (coreKey (.hearth h n))) a d cmd = (poke s a d, .ok ()) := by
  obtain ⟨-, hbank, -⟩ := hready.lies hw
  exact memWrite_sector (by omega) (aligned_fits hdvd hready.aligned) (by rw [plainAddr, hbank]) hd (by rw [mergeAlias, hbank]; rfl)
    (hready.access hw _ _)

end

section
variable {i : Instr} {addr : AwlCore → Nat} (ha : addr (nextCore (.hearth h n) s) = a)
  (hready : BankReady s h (getCore s (coreKey (.hearth h n))) b a w) (hdvd : w ∣ 64)
include ha hready hdvd

/-- A load of a bank gives the bytes that stand there. -/
theorem load_bank {g : Bytes → AwlCore → AwlCore} (hexec : exec i s = loadStep (.hearth h n) i addr w g s) :
    AwlEffect (.hearth h n) i s (g (peekBytes s a w)) := by
  intro hat
  have hw : 0 < w := Nat.pos_of_dvd_of_pos hdvd (by omega)
  obtain ⟨-, -, hdata⟩ := hready.lies hw
  rw [hexec, loadStep]
  refine awlStep_retires hat ?_
  simp only [ha, fetched_clean hready.clean, loadBytes, hready.aligned, hdata, hready.named, hready.memRead hw hdvd, ne_eq, not_true_eq_false,
    if_false, Bool.not_true, Bool.false_eq_true]
  rw [nextCore, fetched_clean hready.clean]

/-- A store to a bank sets its bytes there, and nothing else of memory. -/
theorem store_bank {data : AwlCore → Bytes} (hexec : exec i s = storeStep (.hearth h n) i addr data s)
    (hd : (data (nextCore (.hearth h n) s)).length = w) (hat : AwlAt (.hearth h n) i s) :
    ∃ t, exec i s = .next t ∧ AwlRetired (.hearth h n) (poke s a (data (nextCore (.hearth h n) s))) (nextCore (.hearth h n) s) t := by
  have hw : 0 < w := Nat.pos_of_dvd_of_pos hdvd (by omega)
  obtain ⟨-, -, hdata⟩ := hready.lies hw
  rw [hexec, storeStep]
  refine awlStep_retires hat ?_
  simp only [ha, fetched_clean hready.clean, storeBytes, hd, hready.aligned, hdata, nextCore_banks, hready.named, hready.memWrite hw hdvd hd,
    ne_eq, not_true_eq_false, if_false, Bool.not_true, Bool.false_eq_true]

end
end

/-! ### The statement -/

/-- Settles O10: both shapes of access, at the local store and at a bank. -/
theorem awlLoadsAndStores : Obligations.AwlLoadsAndStores := by
  refine ⟨?_, ?_, ?_⟩
  · intro core rd ra vd imm s k c at_ vat loads val signed
    have hat : scalarAddr ra imm (nextCore core s) = at_ := scalarAddr_next core ra imm s
    have hvat : vectorAddr ra imm (nextCore core s) = vat := vectorAddr_next core ra imm s
    have hsigned (n : Nat) (hn : 0 < n) : sext64 (8 * n) (val n) = signed n := sext64_bytes hn (c.lsBytes_length at_ n)
    have scalar {i : Instr} {n : Nat} {ext : Nat → BitVec 64} {v : BitVec 64} (hv : ext (val n) = v)
        (hexec : exec i s = loadStep core i (scalarAddr ra imm) n (intoReg rd ext) s) : loads i at_ n fun c => c.setS rd v := by
      subst hv
      exact load_local hat hexec
    exact ⟨scalar (hsigned 1 (by decide)) (exec_lb core rd ra imm s), scalar rfl (exec_lbu core rd ra imm s),
      scalar (hsigned 2 (by decide)) (exec_lh core rd ra imm s), scalar rfl (exec_lhu core rd ra imm s),
      scalar (hsigned 4 (by decide)) (exec_lw core rd ra imm s), scalar rfl (exec_lwu core rd ra imm s), scalar rfl (exec_ld core rd ra imm s),
      load_local hvat (exec_vld core ra vd imm s)⟩
  · intro core rd ra vd imm s k c at_ vat stores low
    have hat : scalarAddr ra imm (nextCore core s) = at_ := scalarAddr_next core ra imm s
    have hvat : vectorAddr ra imm (nextCore core s) = vat := vectorAddr_next core ra imm s
    have storing {i : Instr} {a n : Nat} {addr : AwlCore → Nat} {data : AwlCore → Bytes} {byte : Nat → BitVec 8}
        (hexec : exec i s = storeStep core i addr data s) (ha : addr (nextCore core s) = a) (hn : (data (nextCore core s)).length = n)
        (hbyte : ∀ j, j < n → (data (nextCore core s)).getD j 0 = byte j) : stores i a n byte := by
      subst hn
      intro halign hls hcode hat
      obtain ⟨t, ht, hret⟩ := store_local ha hexec halign hls hcode hat
      refine ⟨t, _, ht, hret, fun j hj => (ls_lsSet_inside _ _ _ hj).trans (hbyte j hj), fun x hx => ?_, lsSet_frame _ _ _⟩
      rw [ls_lsSet_outside _ _ _ hx, nextCore_ls]
    have scalar {i : Instr} {n : Nat} (hexec : exec i s = storeStep core i (scalarAddr ra imm) (lowBytes n rd) s) : stores i at_ n low :=
      storing hexec hat (leBytes_length _ _) fun j hj => by rw [lowBytes, nextCore_sreg]; exact getD_leBytes_word hj _
    exact ⟨scalar (exec_sb core rd ra imm s), scalar (exec_sh core rd ra imm s), scalar (exec_sw core rd ra imm s),
      scalar (exec_sd core rd ra imm s), storing (exec_vst core ra vd imm s) hvat (leBytes_length _ _) fun j hj => by
        rw [nextCore_vreg]; exact getD_leBytes_word hj _⟩
  · intro h n rd ra vd b s core c a bank ready val signed loads stores
    have hat : scalarAddr ra 0 (nextCore core s) = a := scalarAddr_zero core ra s
    have hvat : vectorAddr ra 0 (nextCore core s) = a := vectorAddr_zero core ra s
    have hready {w : Nat} (hr : ready w) : BankReady s h c b a w := by
      obtain ⟨haligned, hbase, htop, hnamed, howner, hcleared, hruns, hclean⟩ := hr
      exact ⟨haligned, hbase, htop, hnamed, howner, hcleared, hruns, hclean⟩
    have hsigned (w : Nat) (hw : 0 < w) : sext64 (8 * w) (val w) = signed w := sext64_bytes hw (peekBytes_length s a w)
    have scalar {i : Instr} {w : Nat} {ext : Nat → BitVec 64} {v : BitVec 64} (hdvd : w ∣ 64) (hv : ext (val w) = v)
        (hexec : exec i s = loadStep core i (scalarAddr ra 0) w (intoReg rd ext) s) : loads i w v := by
      subst hv
      exact fun hr => load_bank hat (hready hr) hdvd hexec
    have storing {i : Instr} {w v : Nat} {addr : AwlCore → Nat} {data : AwlCore → Bytes} (hdvd : w ∣ 64)
        (hexec : exec i s = storeStep core i addr data s) (ha : addr (nextCore core s) = a) (hd : data (nextCore core s) = leBytes w v) :
        stores i w v := by
      intro hs hr hat
      have hlen : (data (nextCore core s)).length = w := by rw [hd, leBytes_length]
      obtain ⟨t, ht, hret⟩ := store_bank ha (hready hr) hdvd hexec hlen hat
      have hmem : t.mem = (poke s a (data (nextCore core s))).mem := by rw [hret.rest]
      have hkept := poke_bytesKept s a (data (nextCore core s))
      have hread := peekBytes_poke hs a (data (nextCore core s))
      rw [hlen] at hkept hread
      refine ⟨t, ht, by rw [hmem]; exact hret, fun x hx => ?_, ?_⟩
      · rw [peek, hmem]
        exact hkept x hx
      · rw [peekNat, peekBytes, hmem, ← leNat_leBytes, ← hd]
        exact congrArg leNat hread
    have word {i : Instr} {w : Nat} (hdvd : w ∣ 64) (hexec : exec i s = storeStep core i (scalarAddr ra 0) (lowBytes w rd) s) :
        stores i w (c.sreg rd).toNat := storing hdvd hexec hat (by rw [lowBytes, nextCore_sreg])
    exact ⟨scalar (by decide) (hsigned 1 (by decide)) (exec_lb core rd ra 0 s), scalar (by decide) rfl (exec_lbu core rd ra 0 s),
      scalar (by decide) (hsigned 2 (by decide)) (exec_lh core rd ra 0 s), scalar (by decide) rfl (exec_lhu core rd ra 0 s),
      scalar (by decide) (hsigned 4 (by decide)) (exec_lw core rd ra 0 s), scalar (by decide) rfl (exec_lwu core rd ra 0 s),
      scalar (by decide) rfl (exec_ld core rd ra 0 s), fun hr => load_bank hvat (hready hr) (by decide) (exec_vld core ra vd 0 s),
      word (by decide) (exec_sb core rd ra 0 s), word (by decide) (exec_sh core rd ra 0 s), word (by decide) (exec_sw core rd ra 0 s),
      word (by decide) (exec_sd core rd ra 0 s), storing (by decide) (exec_vst core ra vd 0 s) hvat (by rw [nextCore_vreg]; rfl)⟩

end Sys2Proof.Machine
end

section
/-! SUPPORT. Faults of Awl cores (R165, R167, R171, R177, R193): every instruction's row is `awlStep` of a body, what a row comes to before its body
runs, what a fault leaves, and which loads and stores fault. -/

namespace Sys2Proof.Machine

/-! ### Every instruction's row -/

/-- What instruction i of a core comes to, r, is `awlStep` of some body. -/
def AwlRow (core : Core) (i : Instr) (s : State) (r : Res) : Prop := ∃ body, r = awlStep core i body s

namespace AwlRow
variable {core : Core} {i : Instr} {s : State} {r : Res} {f : AwlCore → AwlCore} {et : Fin 8} {rd ra rb : Fin 32} {vd va vb : Fin 16} {n : Nat}

theorem step {body : State → AwlCore → AwlRes} (h : r = awlStep core i body s) : AwlRow core i s r := ⟨body, h⟩

theorem reg (h : r = awlReg core i f s) : AwlRow core i s r := step (body := fun s c => .done s (f c)) h

theorem move (h : r = vecMove core i f s) : AwlRow core i s r := reg (f := f) h

theorem wait {body : State → AwlCore → AwlRes} (h : r = waitStep core i body s) : AwlRow core i s r := by
  rw [waitStep] at h
  exact step h

theorem vec (h : r = vecOp core i f s) : AwlRow core i s r := by
  rw [vecOp] at h
  exact step h

theorem alu3 {op : BitVec 64 → BitVec 64 → BitVec 64} (h : r = Machine.alu3 core i op rd ra rb s) : AwlRow core i s r := by
  rw [Machine.alu3] at h
  exact reg h

theorem alu2 {op : BitVec 64 → BitVec 64} (h : r = Machine.alu2 core i op rd ra s) : AwlRow core i s r := by
  rw [Machine.alu2] at h
  exact reg h

theorem branch {cond : BitVec 64 → BitVec 64 → Bool} {off : BitVec 16} (h : r = Machine.branch core i cond ra rb off s) : AwlRow core i s r := by
  rw [Machine.branch] at h
  exact reg h

theorem load {ext : Nat → BitVec 64} {imm : BitVec 16} (h : r = scalarLoad core i n ext rd ra imm s) : AwlRow core i s r := by
  rw [scalarLoad] at h
  exact step h

theorem store {imm : BitVec 16} (h : r = scalarStore core i n rd ra imm s) : AwlRow core i s r := by
  rw [scalarStore] at h
  exact step h

theorem lanes2 {iop : Nat → Int → Int → Int} {fop : FVal → FVal → FVal} (h : r = arith2 core i et iop fop vd va vb s) : AwlRow core i s r := by
  rw [arith2] at h
  exact vec h

theorem lanes1 {iop : Int → Int} {fop : Bool → FFmt → Nat → LaneRes} (h : r = Machine.lanes1 core i et iop fop vd va s) : AwlRow core i s r := by
  rw [Machine.lanes1] at h
  exact vec h

theorem shift {op : Nat → Nat → Nat} (h : r = vShift core i et op vd va s) : AwlRow core i s r := by
  rw [vShift] at h
  exact vec h

theorem compare {iop : Int → Int → Bool} {fop : Ordering → Bool} (h : r = vCompare core i et iop fop vd va vb s) : AwlRow core i s r := by
  rw [vCompare] at h
  exact vec h

theorem reduce {iop : Int → Int → Int} {fop : FVal → FVal → FVal} {x : Fin 32} (h : r = vReduce core i et iop fop va x s) : AwlRow core i s r := by
  rw [vReduce] at h
  exact vec h

end AwlRow

/-- Every instruction of a core is such a row. -/
theorem exec_awl {core : Core} {i : Instr} (hcore : awlCoreOf i = some core) (s : State) : AwlRow core i s (exec i s) := by
  cases i <;> cases hcore <;> dsimp only [exec]
  case add.refl | sub.refl | and.refl | or.refl | xor.refl | sll.refl | srl.refl | sra.refl | slt.refl | sltu.refl | mul.refl | mulh.refl |
      mulhu.refl | div.refl | divu.refl | rem.refl | remu.refl | min.refl | max.refl | minu.refl | maxu.refl => exact .alu3 rfl
  case clz.refl | popc.refl | addi.refl | andi.refl | ori.refl | xori.refl | slti.refl | sltiu.refl | shi.refl | shlo.refl => exact .alu2 rfl
  case beq.refl | bne.refl | blt.refl | bge.refl | bltu.refl | bgeu.refl => exact .branch rfl
  case lb.refl | lbu.refl | lh.refl | lhu.refl | lw.refl | lwu.refl | ld.refl => exact .load rfl
  case sb.refl | sh.refl | sw.refl | sd.refl => exact .store rfl
  case j.refl | jal.refl | crRead.refl | crWrite.refl => exact .reg rfl
  case vbcast.refl | vmov.refl | vperm.refl | vext.refl | vins.refl => exact .move rfl
  case vadd.refl | vsub.refl | vmul.refl | vmin.refl | vmax.refl | vadds.refl | vsubs.refl | vdiv.refl => exact .lanes2 rfl
  case vabs.refl | vneg.refl | vsqrt.refl | vexp.refl | vlog.refl | vtanh.refl | verf.refl => exact .lanes1 rfl
  case vshl.refl | vshrl.refl | vshra.refl => exact .shift rfl
  case vceq.refl | vclt.refl | vcle.refl => exact .compare rfl
  case vrmax.refl | vrmin.refl => exact .reduce rfl
  case vfma.refl | vfmaw.refl | vand.refl | vor.refl | vxor.refl | vsel.refl | vrsum.refl | vamax.refl => exact .vec rfl
  case awlQput.refl | qget.refl | waitOwn.refl | waitSeq.refl | tokRequest.refl | tokRelease.refl => exact .wait rfl
  case jalr.refl | vld.refl | vst.refl | vcvt.refl | tackRead.refl | tackWrite.refl | qtry.refl | halt.refl | trap.refl | fence.refl |
      emit.refl | sregr.refl | sregw.refl => exact .step rfl

/-! ### What a row comes to before its body (log entry 11) -/

section
variable {core : Core} {i : Instr} {s : State} {r : Res} (hrow : AwlRow core i s r) (hlive : coreLive s (coreKey core) = true)
  (hbudget : budgetSpent (coreKey core) (getCore s (coreKey core)) = false)
include hrow hlive hbudget

theorem AwlRow.outside (hpc : (getCore s (coreKey core)).codeLen ≤ (getCore s (coreKey core)).pc) :
    r = .next (awlFault s (coreKey core) Code.AWL_ADDR 0 0) := by
  obtain ⟨body, rfl⟩ := hrow
  simp only [awlStep, hlive, hbudget, hpc, Bool.not_true, Bool.or_self, Bool.false_eq_true, if_false, if_true]

variable (hpc : (getCore s (coreKey core)).pc < (getCore s (coreKey core)).codeLen)
include hpc

theorem AwlRow.unreadable (hlost : (lsCheck s (coreKey core) (getCore s (coreKey core)).pc 4).2 = true) :
    r = .next (awlFault (fetched core s) (coreKey core) Code.AWL_LS_ECC 0 0) := by
  obtain ⟨body, rfl⟩ := hrow
  have hcheck : lsCheck s (coreKey core) (getCore s (coreKey core)).pc 4 = (fetched core s, true) := Prod.ext rfl hlost
  simp only [awlStep, hlive, hbudget, Nat.not_le.2 hpc, hcheck, Bool.not_true, Bool.or_self, Bool.false_eq_true, if_false]

variable (hread : (lsCheck s (coreKey core) (getCore s (coreKey core)).pc 4).2 = false)
include hread

theorem AwlRow.undefined (hword : awlDecode core (getCore s (coreKey core)).word = none) :
    r = .next (awlFault (fetched core s) (coreKey core) Code.AWL_ILLEGAL 0 (getCore s (coreKey core)).word) := by
  obtain ⟨body, rfl⟩ := hrow
  have hcheck : lsCheck s (coreKey core) (getCore s (coreKey core)).pc 4 = (fetched core s, false) := Prod.ext rfl hread
  simp only [awlStep, hlive, hbudget, Nat.not_le.2 hpc, hcheck, hword, Bool.not_true, Bool.or_self, Bool.false_eq_true, if_false]

theorem AwlRow.another {j : Instr} (hword : awlDecode core (getCore s (coreKey core)).word = some j) (hne : j ≠ i) :
    r = .next (fetched core s) := by
  obtain ⟨body, rfl⟩ := hrow
  have hcheck : lsCheck s (coreKey core) (getCore s (coreKey core)).pc 4 = (fetched core s, false) := Prod.ext rfl hread
  simp only [awlStep, hlive, hbudget, Nat.not_le.2 hpc, hcheck, hword, hne, Bool.not_true, Bool.or_self, Bool.false_eq_true, if_false,
    ne_eq, not_false_eq_true, if_true]

end

/-! ### What a fault leaves (R193) -/

/-- The registers of a core stand apart from one another, from p on. -/
structure CoreRegs (k p : Nat) : Prop where
  low : 0x120100 ≤ p
  high : p < 0x200000
  state : coreStateF k = ⟨p, 0, 3⟩
  lean : coreLeanF k = ⟨p, 3, 1⟩
  held : coreHeldF k = ⟨p, 4, 1⟩
  pc : corePcF k = ⟨p, 16, 18⟩
  seq : coreSeqF k = ⟨p + 8, 0, 32⟩
  active : coreActiveF k = ⟨p + 8, 32, 1⟩
  code : coreFld k F.AWL_FAULT_CODE F.SAWL_FAULT_CODE = ⟨p + 16, 0, 16⟩
  faultPc : coreFld k F.AWL_FAULT_PC F.SAWL_FAULT_PC = ⟨p + 16, 16, 18⟩
  info : coreFld k F.AWL_FAULT_INFO F.SAWL_FAULT_INFO = ⟨p + 16, 48, 16⟩
  insn : coreFld k F.AWL_FAULT_INSN_INSN F.SAWL_FAULT_INSN_INSN = ⟨p + 24, 0, 32⟩
  icount : coreIcountF k = ⟨p + 0x30, 0, 48⟩

theorem fld_at {o o' lo w : Nat} (h : o = o') : Fld.mk o lo w = Fld.mk o' lo w := h ▸ rfl

/-- The first register of hearth core k. -/
def coreBase (k : Nat) : Nat := 0x120100 + 0x1000 * (k / 8) + 0x40 * (k % 8)

theorem coreRegs_hearth {k : Nat} (h : k < 128) : CoreRegs k (coreBase k) :=
  have at_ {b n lo w : Nat} (hb : b = 0x120100 + n) :
      Fld.mk (b + 0x1000 * (k / 8) + 0x40 * (k % 8)) lo w = Fld.mk (coreBase k + n) lo w := fld_at (by rw [coreBase]; omega)
  ⟨by rw [coreBase]; omega, by rw [coreBase]; omega, if_pos h, if_pos h, if_pos h, if_pos h, (if_pos h).trans (at_ rfl), (if_pos h).trans (at_ rfl),
    (if_pos h).trans (at_ rfl), (if_pos h).trans (at_ rfl), (if_pos h).trans (at_ rfl), (if_pos h).trans (at_ rfl), (if_pos h).trans (at_ rfl)⟩

theorem exists_coreRegs {k : Nat} (hk : k < 132) : ∃ p, CoreRegs k p := by
  by_cases h : k < 128
  · exact ⟨_, coreRegs_hearth h⟩
  · have at_ {b n lo w : Nat} (hb : b = 0x130100 + n) :
        Fld.mk (b + 0x40 * (k - 128)) lo w = Fld.mk (0x130100 + 0x40 * (k - 128) + n) lo w := fld_at (by omega)
    exact ⟨0x130100 + 0x40 * (k - 128), by omega, by omega, if_neg h, if_neg h, if_neg h, if_neg h, (if_neg h).trans (at_ rfl),
      (if_neg h).trans (at_ rfl), (if_neg h).trans (at_ rfl), (if_neg h).trans (at_ rfl), (if_neg h).trans (at_ rfl), (if_neg h).trans (at_ rfl),
      (if_neg h).trans (at_ rfl)⟩

/-- Core k of state s has given back its increment, and its requests for tokens are gone: the state t. -/
structure CoreReleased (s : State) (k : Nat) (t : State) : Prop where
  core : getCore t k = { getCore s k with held := 0 }
  disp : ∃ p rs, getDisp t (k / 8) =
    { getDisp s (k / 8) with releases := (getDisp s (k / 8)).releases + (getCore s k).held, pending := p, awlReqs := rs }
  regs : ∀ f : Fld, 0x120100 ≤ f.off → f.off ≠ (coreHeldF k).off → rd t f = rd s f
  rest : t = { s with regs := t.regs, cores := t.cores, disps := t.disps }

theorem releaseHeld_released (s : State) (k : Nat) : CoreReleased s k (releaseHeld s k) := by
  unfold releaseHeld
  extract_lets c u d
  split
  · next h =>
    have hheld : (getCore s k).held = 0 := h
    exact ⟨by rw [← hheld], ⟨_, _, by rw [hheld, Nat.add_zero]⟩, fun _ _ _ => rfl, rfl⟩
  · exact ⟨getCore_setCore_same _ _ _, ⟨_, _, getDisp_setDisp_same _ _ _⟩, fun f _ hne => rd_wr_off _ _ hne.symm, rfl⟩

theorem withdrawCore_released {s t : State} {k : Nat} (h : CoreReleased s k t) : CoreReleased s k (withdrawCore t k) := by
  obtain ⟨hcore, ⟨p, rs, hdisp⟩, hregs, hrest⟩ := h
  unfold withdrawCore
  split
  · exact ⟨hcore, ⟨p, rs, hdisp⟩, hregs, hrest⟩
  · next hk =>
    extract_lets d u
    have hd : getDisp u (k / 8) = { getDisp t (k / 8) with awlReqs := d.awlReqs.filter fun r => !r.ofCore k } := getDisp_setDisp_same _ _ _
    split
    · refine ⟨hcore, ⟨none, d.awlReqs.filter fun r => !r.ofCore k, ?_⟩, fun f hf hne => ?_, by simp only [u]; rw [hrest]; rfl⟩
      · rw [getDisp_clearPending, hd, hdisp]
      · have hgrant : (F.DMP_GRANT_PENDING (k / 8)).off ≠ f.off := by simp only [F.DMP_GRANT_PENDING]; omega
        have htoken : (F.HRT_DISP_TOKEN_PENDING (k / 8)).off ≠ f.off := by simp only [F.HRT_DISP_TOKEN_PENDING]; omega
        rw [clearPending, rd_wr_off _ _ htoken, rd_wr_off (f := F.DMP_GRANT_RESERVED _) _ _ hgrant, rd_wr_off _ _ hgrant]
        exact hregs f hf hne
    · exact ⟨hcore, ⟨p, d.awlReqs.filter fun r => !r.ofCore k, by rw [hd, hdisp]⟩, hregs, by simp only [u]; rw [hrest]; rfl⟩

/-- A core that stops: it stands in state st, its increment and requests for tokens are gone, and its pc shows. -/
structure CoreStopped (s : State) (k st : Nat) (t : State) : Prop where
  core : getCore t k = { getCore s k with held := 0, wait := none }
  disp : ∃ p rs, getDisp t (k / 8) =
    { getDisp s (k / 8) with releases := (getDisp s (k / 8)).releases + (getCore s k).held, pending := p, awlReqs := rs }
  state : rd t (coreStateF k) = st % 2 ^ 3
  regs : ∀ f : Fld, 0x120100 ≤ f.off → f.off ≠ (coreStateF k).off → rd t f = rd s f
  rest : t = { s with regs := t.regs, cores := t.cores, disps := t.disps }

theorem coreStop_stopped (s : State) {k : Nat} (hk : k < 132) (st : Nat) : CoreStopped s k st (coreStop s k st) := by
  obtain ⟨p, hp⟩ := exists_coreRegs hk
  have h := withdrawCore_released (releaseHeld_released s k)
  unfold coreStop
  extract_lets u c
  refine ⟨?_, ?_, ?_, fun f hf hne => ?_, ?_⟩
  · rw [getCore_wr, getCore_wr, getCore_setCore_same, show c = _ from h.core]
  · exact h.disp
  · rw [hp.pc, hp.state, rd_wr_ne _ _ (by simp) (.inr (by simp)), rd_wr_same _ _ (by simp)]
  · rw [hp.state] at hne
    have hheld : f.off ≠ (coreHeldF k).off := by rw [hp.held]; exact hne
    rw [hp.pc, hp.state, rd_wr_off (f := ⟨p, 16, 18⟩) _ _ hne.symm, rd_wr_off _ _ hne.symm]
    exact h.regs f hf hheld
  · have hu : u = { s with regs := u.regs, cores := u.cores, disps := u.disps } := h.rest
    rw [hu]
    rfl

/-- A fault of core k with a code, INFO and word is recorded, and the core stands FAULTED. -/
def faultStop (s : State) (k code info insn : Nat) : State :=
  let s := wr (wr (wr s (coreFld k F.AWL_FAULT_CODE F.SAWL_FAULT_CODE) code) (coreFld k F.AWL_FAULT_PC F.SAWL_FAULT_PC) (getCore s k).pc)
    (coreFld k F.AWL_FAULT_INFO F.SAWL_FAULT_INFO) info
  coreStop (wr s (coreFld k F.AWL_FAULT_INSN_INSN F.SAWL_FAULT_INSN_INSN) insn) k awlFAULTED

/-- What a fault records. -/
structure FaultRecorded (s : State) (k code info insn : Nat) (t : State) : Prop where
  code : rd t (coreFld k F.AWL_FAULT_CODE F.SAWL_FAULT_CODE) = code
  pc : rd t (coreFld k F.AWL_FAULT_PC F.SAWL_FAULT_PC) = (getCore s k).pc % 2 ^ 18
  info : rd t (coreFld k F.AWL_FAULT_INFO F.SAWL_FAULT_INFO) = info
  insn : rd t (coreFld k F.AWL_FAULT_INSN_INSN F.SAWL_FAULT_INSN_INSN) = insn
  state : rd t (coreStateF k) = awlFAULTED
  core : getCore t k = { getCore s k with held := 0, wait := none }
  releases : (getDisp t (k / 8)).releases = (getDisp s (k / 8)).releases + (getCore s k).held
  mem : t.mem = s.mem

theorem faultStop_recorded (s : State) {k code info insn : Nat} (hk : k < 132) (hcode : code < 2 ^ 16) (hinfo : info < 2 ^ 16)
    (hinsn : insn < 2 ^ 32) : FaultRecorded s k code info insn (faultStop s k code info insn) := by
  obtain ⟨p, hp⟩ := exists_coreRegs hk
  unfold faultStop
  extract_lets u
  have h := coreStop_stopped (wr u (coreFld k F.AWL_FAULT_INSN_INSN F.SAWL_FAULT_INSN_INSN) insn) hk awlFAULTED
  have hregs (f : Fld) (hf : 0x120100 ≤ f.off) (hne : f.off ≠ p) := h.regs f hf (by rw [hp.state]; exact hne)
  have hlow := hp.low
  obtain ⟨_, _, hdisp⟩ := h.disp
  refine ⟨?_, ?_, ?_, ?_, h.state, h.core, by rw [hdisp]; rfl, by rw [h.rest]; rfl⟩
  · rw [hp.code, hregs _ (by simp only; omega) (by simp), hp.insn, rd_wr_off _ _ (by simp)]
    simp only [u, hp.code, hp.faultPc, hp.info]
    rw [rd_wr_ne _ _ (by simp) (.inr (by simp)), rd_wr_ne _ _ (by simp) (.inr (by simp)), rd_wr_same _ _ (by simp), Nat.mod_eq_of_lt hcode]
  · rw [hp.faultPc, hregs _ (by simp only; omega) (by simp), hp.insn, rd_wr_off _ _ (by simp)]
    simp only [u, hp.code, hp.faultPc, hp.info]
    rw [rd_wr_ne _ _ (by simp) (.inr (by simp)), rd_wr_same _ _ (by simp)]
  · rw [hp.info, hregs _ (by simp only; omega) (by simp), hp.insn, rd_wr_off _ _ (by simp)]
    simp only [u, hp.code, hp.faultPc, hp.info]
    rw [rd_wr_same _ _ (by simp), Nat.mod_eq_of_lt hinfo]
  · rw [hregs _ (by rw [hp.insn]; simp only; omega) (by rw [hp.insn]; simp), hp.insn, rd_wr_same _ _ (by simp), Nat.mod_eq_of_lt hinsn]

/-- A hearth core's fault, where the core's command has left its window. -/
theorem awlFault_hearth {s : State} {k : Nat} (hk : k < 128) (hcmd : coreCmd s k = none) (code info insn : Nat) :
    awlFault s k code info insn = faultStop s k code info insn := by
  have h := coreStop_stopped (wr (wr (wr (wr s (coreFld k F.AWL_FAULT_CODE F.SAWL_FAULT_CODE) code)
    (coreFld k F.AWL_FAULT_PC F.SAWL_FAULT_PC) (getCore s k).pc) (coreFld k F.AWL_FAULT_INFO F.SAWL_FAULT_INFO) info)
    (coreFld k F.AWL_FAULT_INSN_INSN F.SAWL_FAULT_INSN_INSN) insn) (show k < 132 by omega) awlFAULTED
  obtain ⟨_, _, hdisp⟩ := h.disp
  have hgone : coreCmd (faultStop s k code info insn) k = none := by
    rw [coreCmd, if_pos hk] at hcmd ⊢
    rw [findCmd, faultStop, hdisp, h.core]
    exact hcmd
  rw [awlFault, if_pos hk]
  show (match coreCmd (faultStop s k code info insn) k with | none => faultStop s k code info insn | some cmd => _) = _
  rw [hgone]

/-- A supervisor core's fault adds an Ember entry and clears ACTIVE; with no ticket in the block none ends. -/
theorem awlFault_sup {s : State} {k : Nat} (hk : k < 132) (hsup : ¬ k < 128) (hnone : s.tickets = []) (code info insn : Nat) :
    awlFault s k code info insn = emberCode (wr (faultStop s k code info insn) (coreActiveF k) 0) (coreUnit k) code none := by
  generalize hv : emberCode (wr (faultStop s k code info insn) (coreActiveF k) 0) (coreUnit k) code none = v
  have hstop : (faultStop s k code info insn).tickets = [] := by
    rw [faultStop, (coreStop_stopped _ hk _).rest]
    exact hnone
  have htickets : v.tickets = [] := by
    rw [← hv, emberCode, emberPut_frame]
    exact hstop
  have hupd (f : Ticket → Ticket) : updTicket v (getCore s k).ticket f = v := by
    rw [updTicket, htickets, List.map_nil, ← htickets]
  rw [awlFault, if_neg hsup]
  show endTicket (updTicket (emberCode (wr (faultStop s k code info insn) (coreActiveF k) 0) (coreUnit k) code none) _ _) _ = v
  rw [hv, hupd, endTicket, findTicket, htickets]
  rfl

/-- A fault is recorded whatever the core, where no command and no ticket must end with it. -/
theorem awlFault_recorded {s : State} {k code info insn : Nat} (hk : k < 132) (hcode : code < 2 ^ 16) (hinfo : info < 2 ^ 16)
    (hinsn : insn < 2 ^ 32) (hcmd : coreCmd s k = none) (hnone : s.tickets = []) :
    FaultRecorded s k code info insn (awlFault s k code info insn) := by
  have h := faultStop_recorded s hk hcode hinfo hinsn
  by_cases hhearth : k < 128
  · rw [awlFault_hearth hhearth hcmd]
    exact h
  · obtain ⟨p, hp⟩ := exists_coreRegs hk
    have hhigh := hp.high
    have hkept (f : Fld) (hf : f.off = p ∨ f.off = p + 16 ∨ f.off = p + 24) :
        rd (awlFault s k code info insn) f = rd (faultStop s k code info insn) f := by
      rw [awlFault_sup hk hhearth hnone, emberCode, rd, regVal_emberPut _ (by omega), ← rd, hp.active]
      exact rd_wr_off _ _ (by simp only; omega)
    have hrest : awlFault s k code info insn =
        { faultStop s k code info insn with regs := (awlFault s k code info insn).regs, ember := (awlFault s k code info insn).ember,
                                            emberLost := (awlFault s k code info insn).emberLost } := by
      rw [awlFault_sup hk hhearth hnone, emberCode]
      exact emberPut_frame ..
    exact ⟨(hkept _ (by rw [hp.code]; simp)).trans h.code, (hkept _ (by rw [hp.faultPc]; simp)).trans h.pc,
      (hkept _ (by rw [hp.info]; simp)).trans h.info, (hkept _ (by rw [hp.insn]; simp)).trans h.insn,
      (hkept _ (by rw [hp.state]; simp)).trans h.state, by rw [hrest]; exact h.core, by rw [hrest]; exact h.releases, by rw [hrest]; exact h.mem⟩

/-! ### Accesses that fault (R165, R171; log entry 99) -/

theorem dataAddr_bad {k a n : Nat} (hls : lsSize ≤ a) (hn : n ≠ 0) (hbank : a < 0xF00010000000) : dataAddr k a n = .bad := by
  unfold dataAddr
  extract_lets base
  rw [if_neg (by omega), if_neg (by omega)]

theorem dataAddr_bank {k a n : Nat} (hk : k < 128) (hbase : 0xF00010000000 + k / 8 * 0x01000000 ≤ a)
    (hend : a + n ≤ 0xF00010000000 + k / 8 * 0x01000000 + 0x01000000) :
    dataAddr k a n = .bank ((a - (0xF00010000000 + k / 8 * 0x01000000)) / 0x200000) a := by
  unfold dataAddr
  extract_lets base
  rw [if_neg (by simp only [lsSize]; omega), if_pos ⟨hk, hbase, hend⟩]

section
variable {core : Core} {i : Instr} {s : State} {addr : AwlCore → Nat} {a code : Nat} (ha : addr (nextCore core s) = a) (hat : AwlAt core i s)
include ha hat

/-- A load faults with the code that its address gives. -/
theorem load_faults {n : Nat} {g : Bytes → AwlCore → AwlCore} (hexec : exec i s = loadStep core i addr n g s)
    (hfault : ∀ f, loadBytes (coreKey core) a n (fetched core s) f = .fault (fetched core s) code 0) :
    exec i s = .next (awlFault (fetched core s) (coreKey core) code 0 (getCore s (coreKey core)).word) := by
  rw [hexec, loadStep]
  exact awlStep_faults hat (by rw [ha]; exact hfault _)

/-- A store faults with the code that its address gives. -/
theorem store_faults {data : AwlCore → Bytes} (hexec : exec i s = storeStep core i addr data s)
    (hfault : storeBytes (coreKey core) a (data (nextCore core s)) (fetched core s) (nextCore core s) = .fault (fetched core s) code 0) :
    exec i s = .next (awlFault (fetched core s) (coreKey core) code 0 (getCore s (coreKey core)).word) := by
  rw [hexec, storeStep]
  exact awlStep_faults hat (by rw [ha]; exact hfault)

end

/-! ### The statement -/

/-- Settles O8: the fetch's ends through `AwlRow`, a fault's record through `coreStop`, and the accesses through their addresses. -/
theorem awlFaults : Obligations.AwlFaults := by
  refine ⟨?_, ?_, ?_, ?_⟩
  · intro core i s hcore k c word hlive hbudget
    have hrow := exec_awl hcore s
    exact ⟨hrow.outside hlive hbudget, hrow.unreadable hlive hbudget, hrow.undefined hlive hbudget,
      fun hpc hread ⟨j, hword, hne⟩ => hrow.another hlive hbudget hpc hread hword hne⟩
  · intro core s code info insn k c hcode hinfo hinsn hcmd hnone t
    have h : FaultRecorded s k code info insn t := awlFault_recorded (coreKey_lt core) hcode hinfo hinsn hcmd hnone
    exact ⟨h.code, h.pc, h.info, h.insn, h.state, h.core, h.releases, h.mem⟩
  · intro core s a n k c touched t
    have hread := lsRead_lsCheck s k a n
    obtain ⟨e, he⟩ := getCore_lsCheck s k a n
    refine ⟨lsCheck_clean, lsCheck_fails, fun hok => ⟨fun w hw => ?_, fun w hw => ?_⟩, ?_, hread.mem, hread.disps, hread.tickets⟩
    · exact (lsErr_lsCheck hok w).trans (if_pos hw)
    · exact (lsErr_lsCheck hok w).trans (if_neg hw)
    · rw [show getCore t k = _ from he]
  · intro core rd ra s k c a bank faults
    have ha := scalarAddr_zero core ra s
    have hbanks : (getCore (fetched core s) k).banks = c.banks := nextCore_reads core s (·.banks) fun _ _ _ => rfl
    have hlen : (lowBytes 8 rd (nextCore core s)).length = 8 := leBytes_length _ _
    have loading {code : Nat} (h : ∀ f, loadBytes k a 8 (fetched core s) f = .fault (fetched core s) code 0) : faults (.ld core rd ra 0) code :=
      fun hat => load_faults ha hat (exec_ld core rd ra 0 s) h
    have storing {code : Nat} (h : storeBytes k a (lowBytes 8 rd (nextCore core s)) (fetched core s) (nextCore core s) =
        .fault (fetched core s) code 0) : faults (.sd core rd ra 0) code :=
      fun hat => store_faults ha hat (exec_sd core rd ra 0 s) h
    refine ⟨fun hodd => ⟨loading fun f => if_pos hodd, storing (if_pos (by rwa [hlen]))⟩, fun halign hls hlow => ?_,
      fun halign hls hcode => storing ?_, fun halign hk hbase hend hunnamed => ?_⟩
    · have hbad : dataAddr k a 8 = .bad := dataAddr_bad hls (by decide) hlow
      exact ⟨loading fun f => by simp only [loadBytes, halign, hbad, ne_eq, not_true_eq_false, if_false],
        storing (by simp only [storeBytes, hlen, halign, hbad, ne_eq, not_true_eq_false, if_false])⟩
    · simp only [storeBytes, hlen, halign, dataAddr_local hls, nextCore_codeLen, show a < (getCore s (coreKey core)).codeLen from hcode, ne_eq,
        not_true_eq_false, if_false, if_true]
    · have hbank : dataAddr k a 8 = .bank ((a - bank) / 0x200000) a := dataAddr_bank hk hbase hend
      exact ⟨loading fun f => by simp only [loadBytes, halign, hbank, hbanks, hunnamed, ne_eq, not_true_eq_false, if_false, Bool.not_false, if_true],
        storing (by
          simp only [storeBytes, hlen, halign, hbank, nextCore_banks, show bit (getCore s (coreKey core)).banks _ = false from hunnamed, ne_eq,
            not_true_eq_false, if_false, Bool.not_false, if_true])⟩

end Sys2Proof.Machine
end

section
/-! SUPPORT. The AWL command (R168 to R175): what a request leaves alone, what the start of one core gives it and leaves of the others, and the
start of all cores of a command. -/

namespace Sys2Proof.Machine

/-! ### What a request leaves alone -/

/-- The cores, the tickets and the dispatchers stand as they did. -/
structure UnitsKept (s t : State) : Prop where
  cores : t.cores = s.cores
  tickets : t.tickets = s.tickets
  disps : t.disps = s.disps

namespace UnitsKept
variable {s t : State}

theorem refl (s : State) : UnitsKept s s := ⟨rfl, rfl, rfl⟩

theorem trans {u : State} (a : UnitsKept s t) (b : UnitsKept t u) : UnitsKept s u :=
  ⟨b.cores.trans a.cores, b.tickets.trans a.tickets, b.disps.trans a.disps⟩

theorem ite {α : Type} {p : Prop} [Decidable p] {x y : State × α} (hx : UnitsKept s x.1) (hy : UnitsKept s y.1) :
    UnitsKept s (if p then x else y).1 := by
  split
  · exact hx
  · exact hy

theorem wr (h : UnitsKept s t) (f : Fld) (v : Nat) : UnitsKept s (Machine.wr t f v) := h.trans ⟨rfl, rfl, rfl⟩
theorem satAdd (h : UnitsKept s t) (f : Fld) (n : Nat) : UnitsKept s (Machine.satAdd t f n) := h.wr f _
theorem cntMem (h : UnitsKept s t) (d i n : Nat) : UnitsKept s (Machine.cntMem t d i n) := h.wr _ _

end UnitsKept

theorem emberCode_unitsKept (s : State) (u code : Nat) (c : Option CmdId) : UnitsKept s (emberCode s u code c) := by
  cases c <;> rw [emberCode, emberPut_frame] <;> exact ⟨rfl, rfl, rfl⟩

theorem raiseVec_unitsKept (s : State) (p v : Nat) : UnitsKept s (raiseVec s p v) := by
  unfold raiseVec msixSend
  dsimp only
  split
  · exact .refl s
  · split <;> exact ⟨rfl, rfl, rfl⟩

theorem eccRead_unitsKept (s : State) (sec : Nat) (scrub : Bool) (cmd : Option CmdId) : UnitsKept s (eccRead s sec scrub cmd).1 := by
  unfold eccRead
  extract_lets c w rewrite
  have hrewrite (w : List Nat) : UnitsKept s (rewrite s w) := ⟨rfl, rfl, rfl⟩
  refine .ite (.refl s) ?_
  split
  · exact hrewrite w
  · next es _ =>
    have hfixed := ((hrewrite (repair w es)).wr (F.MEM_ERR_CORR c) 1).satAdd (F.MEM_ERR_CORR_COUNT c) 1
    exact ((hfixed.cntMem _ _ _).cntMem _ _ _).trans (emberCode_unitsKept ..)
  · next s₁ s₂ s₃ s₄ _ _ =>
    have hpoison : UnitsKept s s₁ := ⟨rfl, rfl, rfl⟩
    have hpoisoned : UnitsKept s s₄ := ((((hpoison.wr _ _).wr _ _).wr _ _).satAdd _ _).cntMem _ _ _
    split
    · exact (hpoisoned.wr _ _).trans (emberCode_unitsKept ..)
    · exact hpoisoned.trans (emberCode_unitsKept ..)

theorem access_unitsKept (s : State) (id a n : Nat) (write : Bool) (cmd : Option CmdId) : UnitsKept s (access s id a n write cmd).1 := by
  unfold access
  extract_lets sec c d
  split
  · exact .refl s
  · exact .refl s
  · refine .ite ⟨rfl, rfl, rfl⟩ (.ite (.refl s) (.ite ⟨rfl, rfl, rfl⟩ (.ite (.refl s) (.ite ⟨rfl, rfl, rfl⟩ (.ite ⟨rfl, rfl, rfl⟩ ?_)))))
    have hecc := eccRead_unitsKept s sec false cmd
    split
    · next heq => rw [heq] at hecc; exact hecc.trans ⟨rfl, rfl, rfl⟩
    · next heq => rw [heq] at hecc; exact hecc
  · refine .ite (.ite (.refl s) (.refl s)) (.ite (.refl s) (.ite ⟨rfl, rfl, rfl⟩ ?_))
    cases write <;> exact ⟨rfl, rfl, rfl⟩
  · have hraise := raiseVec_unitsKept s
    exact .ite (.refl s) (.ite (hraise _ 4) (.ite (hraise _ 4) (.ite (hraise _ 4) (.ite (hraise _ 4) ⟨rfl, rfl, rfl⟩))))
  · split
    · exact .refl s
    · exact .ite ⟨rfl, rfl, rfl⟩ (.ite (.refl s) (.ite (.refl s) (.refl s)))

theorem readFrom_unitsKept (id : Nat) (cmd : Option CmdId) (fuel : Nat) (s : State) (a n : Nat) :
    UnitsKept s (readFrom s id cmd fuel a n).1 := by
  induction fuel generalizing s a n with
  | zero => exact .refl s
  | succ fuel ih =>
    rw [readFrom]
    refine .ite (.refl s) ?_
    have hacc := access_unitsKept s id a (min n (64 - a % 64)) false cmd
    dsimp only
    split
    · next heq => rw [heq] at hacc; exact hacc
    · next heq => rw [heq] at hacc; exact hacc
    · next v _ heq =>
      rw [heq] at hacc
      have hrest := hacc.trans (ih v (a + min n (64 - a % 64)) (n - min n (64 - a % 64)))
      split
      · next heq => rw [heq] at hrest; exact hrest
      · exact hrest

theorem readCode_unitsKept (h : Nat) (c : Cmd) (s : State) : UnitsKept s (readCode h c s).1 :=
  .ite (.refl s) (readFrom_unitsKept ..)

/-! ### The start of one core (R170) -/

/-- What every core of a command is started with: the command, its ticket, its code and the number of its cores. -/
structure Launch where
  c : Cmd
  x : Ticket
  code : Bytes
  cores : Nat

/-- The identity word of the i-th of a command's cores (Table 7-4). -/
def Launch.ident (l : Launch) (k i : Nat) : Nat := k % 8 + 256 * (k / 8) + 65536 * i + 2 ^ 24 * l.cores

/-- A reference of the command's body, resolved. -/
def Launch.ref (l : Launch) (o : Nat) : Nat × Nat × Nat := l.c.refAt o 0

/-- The registers of Table 7-4 that are not zero. -/
def Launch.sregs (l : Launch) (s : State) (k i : Nat) : List (Nat × Nat) :=
  [(1, l.ident k i), (2, l.c.seq), (3, l.c.fld 0x30 8), (4, l.c.fld 0x38 4), (5, descAddr s l.c (l.ref 0x24)), (6, descAddr s l.c (l.ref 0x28)),
    (7, descAddr s l.c (l.ref 0x2C)), (8, (l.ref 0x24).2.2 + 65536 * ((l.ref 0x28).2.2 + 65536 * (l.ref 0x2C).2.2)),
    (9, l.x.stepIndex l.c.step), (10, l.x.num)]

/-- The core k, the i-th of its command, as it starts from state s (R170, R174). -/
def Launch.core (l : Launch) (s : State) (k i : Nat) : AwlCore :=
  { loadCore (getCore s k) l.code (!codeResident s k l.c) ((getCore s k).lastTicket != some l.c.ticket || (getCore s k).woken) with
    sregs := startRegs (l.sregs s k i), vregs := [], pc := l.c.fld 0x1C 4, cstat := 0, cvscale := fp32One, srseed := cmdSrSeed s l.c, sridx := 0,
    amax := 0, domcnt := 0, icount := 0, ident := BitVec.ofNat 64 (l.ident k i), codeLen := awlCodeLen l.c, banks := l.c.bankMask,
    limit := l.c.fld 0x20 4, seq := l.c.seq, ticket := l.c.ticket, lastTicket := some l.c.ticket, woken := false,
    lean := bit (l.c.fld 0x3C 1) 0, held := 0, noted := false, subn := l.c.subn, puts := 0, wait := none }

/-- The registers that show a started core. -/
def showCore (s : State) (k : Nat) (a : AwlCore) (c : Cmd) : State :=
  let s := wr (wr (wr s (coreStateF k) awlRUNNING) (coreLeanF k) (if a.lean then 1 else 0)) (coreHeldF k) 0
  let s := wr (wr (wr (wr s (corePcF k) a.pc) (coreSeqF k) c.seq) (coreActiveF k) 1) (coreIcountF k) 0
  let s := wr (wr s (F.AWL_RESIDENT_VALID (k / 8) (k % 8)) 1) (F.AWL_RESIDENT_ADDR_64 (k / 8) (k % 8)) (awlCodeAddr c / 64)
  wr s (F.AWL_RESIDENT_LEN (k / 8) (k % 8)) (awlCodeLen c)

/-- The start of core p.1, the p.2-th of its command. -/
def Launch.start (l : Launch) (s : State) (p : Nat × Nat) : State := showCore (setCore s p.1 (l.core s p.1 p.2)) p.1 (l.core s p.1 p.2) l.c

/-- The row of a command that starts cores. -/
theorem awl_starts {h : Fin 16} {seq : BitVec 32} {c : Cmd} {x : Ticket} {code : Bytes} {s u : State} (hr : Runs h seq 0x28 c s)
    (hidle : awlIdle c = false) (hread : readCode h c s = (u, .ok code)) (hx : findTicket u c.ticket = some x) :
    exec (.awl h seq) s = .next (updCmd
      (each ((cmdCores h c).zip (List.range (cmdCores h c).length)) u (Launch.start ⟨c, x, code, (cmdCores h c).length⟩)) h c.seq
      fun x => { x with st := .working }) := by
  show execAwl h seq s = _
  rw [execAwl, opRow_runs hr]
  simp only [hidle, Bool.false_eq_true, if_false, hread, orFail, hx]
  rfl

/-! ### What the start of one core leaves alone -/

/-- The registers of hearth core k. -/
def coreWindow (k o : Nat) : Prop := coreBase k ≤ o ∧ o < coreBase k + 0x40

theorem coreWindow_apart {j k o : Nat} (hne : j ≠ k) (ho : coreWindow j o) : ¬ coreWindow k o := by
  simp only [coreWindow, coreBase] at ho ⊢
  omega

/-- State t is s but for registers of core k. -/
structure OutsideKept (s : State) (k : Nat) (t : State) : Prop where
  regs : ∀ o, ¬ coreWindow k o → regVal t o = regVal s o
  rest : t = { s with regs := t.regs }

theorem OutsideKept.wr {s t : State} {k : Nat} {f : Fld} (h : OutsideKept s k t) (hf : coreWindow k f.off) (v : Nat) :
    OutsideKept s k (Machine.wr t f v) where
  regs o ho := (regVal_setReg_ne _ _ fun e : f.off = o => ho (e ▸ hf)).trans (h.regs o ho)
  rest := by
    rw [h.rest]
    rfl

/-- A core that has been shown as started. -/
structure Shown (s : State) (k : Nat) (t : State) : Prop where
  running : rd t (coreStateF k) = awlRUNNING
  active : rd t (coreActiveF k) = 1
  outside : OutsideKept s k t

theorem residentFields (k : Nat) : F.AWL_RESIDENT_VALID (k / 8) (k % 8) = ⟨coreBase k + 0x28, 61, 1⟩ ∧
    F.AWL_RESIDENT_ADDR_64 (k / 8) (k % 8) = ⟨coreBase k + 0x28, 0, 42⟩ ∧ F.AWL_RESIDENT_LEN (k / 8) (k % 8) = ⟨coreBase k + 0x28, 42, 19⟩ := by
  have hoff : 0x120128 + 0x1000 * (k / 8) + 0x40 * (k % 8) = coreBase k + 0x28 := by rw [coreBase]; omega
  exact ⟨fld_at hoff, fld_at hoff, fld_at hoff⟩

theorem showCore_shown (s : State) {k : Nat} (hk : k < 128) (a : AwlCore) (c : Cmd) : Shown s k (showCore s k a c) := by
  obtain ⟨hvalid, haddr, hlen⟩ := residentFields k
  have hp := coreRegs_hearth hk
  unfold showCore
  rw [hp.state, hp.lean, hp.held, hp.pc, hp.seq, hp.active, hp.icount, hvalid, haddr, hlen]
  refine ⟨?_, ?_, ?_⟩
  · rw [hp.state]
    iterate 6 rw [rd_wr_off _ _ (by simp)]
    iterate 3 rw [rd_wr_ne _ _ (by simp) (.inr (by simp))]
    rw [rd_wr_same _ _ (by simp)]
    rfl
  · rw [hp.active]
    iterate 4 rw [rd_wr_off _ _ (by simp)]
    rw [rd_wr_same _ _ (by simp)]
    rfl
  · iterate 10 refine OutsideKept.wr ?_ (by simp [coreWindow]) _
    exact ⟨fun _ _ => rfl, rfl⟩

/-! ### The start of a command's cores -/

/-- State v is u but for registers and cores; of core k, of its registers and of the parameter directory's register it says the same. -/
structure SeenBy (k : Nat) (u v : State) : Prop where
  core : getCore v k = getCore u k
  regs : ∀ o, o = F.BUR_PDIR_BASE_64.off ∨ coreWindow k o → regVal v o = regVal u o
  rest : v = { u with regs := v.regs, cores := v.cores }

section
variable {k : Nat} {u v : State} (h : SeenBy k u v)
include h

theorem SeenBy.descAddr (c : Cmd) (r : Nat × Nat × Nat) : descAddr v c r = descAddr u c r := by
  have hdir : regVal v F.BUR_PDIR_BASE_64.off = regVal u F.BUR_PDIR_BASE_64.off := h.regs _ (.inl rfl)
  have hbase : rd v F.BUR_PDIR_BASE_64 = rd u F.BUR_PDIR_BASE_64 := by rw [rd, hdir, rd]
  have hcount : rd v F.BUR_PDIR_COUNT = rd u F.BUR_PDIR_COUNT := by rw [rd, show regVal v F.BUR_PDIR_COUNT.off = _ from hdir, rd]; rfl
  have hmem : v.mem = u.mem := by rw [h.rest]
  have htickets : v.tickets = u.tickets := by rw [h.rest]
  have hholds : v.evalHolds = u.evalHolds := by rw [h.rest]
  have hrecord : pdirRecord v = pdirRecord u := funext fun i => by simp only [pdirRecord, peekNat, peekBytes, hbase, hmem]
  simp only [Machine.descAddr, findTicket, programDesc, viewOf, pdirRecords, hrecord, pdirCount, viewDesc, viewSlot, peekNat, peekBytes, hcount, hmem,
    htickets, hholds]
  rfl

theorem SeenBy.codeResident (c : Cmd) : codeResident v k c = codeResident u k c := by
  have hkept : regVal v (coreBase k + 0x28) = regVal u (coreBase k + 0x28) := h.regs _ (.inr ⟨by omega, by omega⟩)
  obtain ⟨hvalid, haddr, hlen⟩ := residentFields k
  simp only [Machine.codeResident, hvalid, haddr, hlen, rd, hkept]

theorem SeenBy.cmdSrSeed (c : Cmd) : cmdSrSeed v c = cmdSrSeed u c := by
  simp only [Machine.cmdSrSeed, findTicket, show v.tickets = u.tickets by rw [h.rest]]

/-- A core starts as what it sees of the state says. -/
theorem SeenBy.start (l : Launch) (i : Nat) : l.core v k i = l.core u k i := by
  simp only [Launch.core, Launch.sregs, h.core, h.descAddr, h.codeResident, h.cmdSrSeed]

end

/-- The cores of a list have started in state t from state u: each one with its place in its command. -/
structure Launched (l : Launch) (u : State) (ps : List (Nat × Nat)) (t : State) : Prop where
  started : ∀ p ∈ ps, getCore t p.1 = l.core u p.1 p.2 ∧ rd t (coreStateF p.1) = awlRUNNING ∧ rd t (coreActiveF p.1) = 1
  others : ∀ k, k ∉ ps.map Prod.fst → getCore t k = getCore u k
  regs : ∀ o, (∀ p ∈ ps, ¬ coreWindow p.1 o) → regVal t o = regVal u o
  rest : t = { u with regs := t.regs, cores := t.cores }

theorem start_launched (l : Launch) (u : State) {p : Nat × Nat} (hp : p.1 < 128) : Launched l u [p] (l.start u p) := by
  have h := showCore_shown (setCore u p.1 (l.core u p.1 p.2)) hp (l.core u p.1 p.2) l.c
  have hcores : (l.start u p).cores = (setCore u p.1 (l.core u p.1 p.2)).cores := by rw [Launch.start, h.outside.rest]
  refine ⟨fun q hq => ?_, fun k hk => ?_, fun o ho => h.outside.regs o (ho p (List.mem_singleton_self p)), ?_⟩
  · obtain rfl := List.mem_singleton.1 hq
    exact ⟨by rw [getCore, hcores]; exact getCore_setCore_same _ _ _, h.running, h.active⟩
  · rw [getCore, hcores]
    exact getCore_setCore_ne _ _ fun e => hk (by simp [e])
  · rw [Launch.start, h.outside.rest]
    rfl

theorem each_cons {α : Type} (x : α) (xs : List α) (s : State) (f : State → α → State) : each (x :: xs) s f = each xs (f s x) f := rfl

/-- Cores that start one after another do not meet. -/
theorem each_launched (l : Launch) {ps : List (Nat × Nat)} (hnodup : (ps.map Prod.fst).Nodup) (hlt : ∀ p ∈ ps, p.1 < 128) (u : State) :
    Launched l u ps (each ps u l.start) := by
  induction ps generalizing u with
  | nil => exact ⟨nofun, fun _ _ => rfl, fun _ _ => rfl, rfl⟩
  | cons p ps ih =>
    have hp := start_launched l u (hlt p (List.mem_cons_self ..))
    obtain ⟨hfresh, hnodup⟩ := List.nodup_cons.1 hnodup
    have hps := ih hnodup (fun q hq => hlt q (List.mem_cons_of_mem _ hq)) (l.start u p)
    have hapart {q : Nat × Nat} (hq : q ∈ ps) : p.1 ≠ q.1 := fun e => hfresh (List.mem_map.2 ⟨q, hq, e.symm⟩)
    rw [each_cons]
    generalize l.start u p = v at hp hps ⊢
    refine ⟨fun q hq => ?_, fun k hk => ?_, fun o ho => ?_, ?_⟩
    · rcases List.mem_cons.1 hq with rfl | hrest
      · obtain ⟨hcore, hrun, hact⟩ := hp.started q (List.mem_singleton_self q)
        have hcoreRegs := coreRegs_hearth (hlt q (List.mem_cons_self ..))
        have hkept {f : Fld} (hf : coreWindow q.1 f.off) : rd (each ps v l.start) f = rd v f := by
          rw [rd, hps.regs _ fun r hr => coreWindow_apart (hapart hr) hf, rd]
        exact ⟨(hps.others _ hfresh).trans hcore, (hkept (by rw [hcoreRegs.state]; simp [coreWindow])).trans hrun,
          (hkept (by rw [hcoreRegs.active]; simp [coreWindow])).trans hact⟩
      · have hseen : SeenBy q.1 u v := by
          refine ⟨hp.others _ (by simpa using (hapart hrest).symm), fun o ho => hp.regs o fun r hr => ?_, hp.rest⟩
          obtain rfl := List.mem_singleton.1 hr
          rcases ho with rfl | ho
          · have hlow := hlt r (List.mem_cons_self ..)
            simp only [coreWindow, coreBase, F.BUR_PDIR_BASE_64]
            omega
          · exact coreWindow_apart (hapart hrest).symm ho
        rw [← hseen.start l q.2]
        exact hps.started q hrest
    · rw [List.map_cons, List.mem_cons, not_or] at hk
      exact (hps.others k hk.2).trans (hp.others k (by simpa using hk.1))
    · refine (hps.regs o fun q hq => ho q (List.mem_cons_of_mem _ hq)).trans (hp.regs o fun q hq => ?_)
      obtain rfl := List.mem_singleton.1 hq
      exact ho q (List.mem_cons_self ..)
    · rw [hps.rest, hp.rest]

/-! ### The cores of a command -/

theorem mem_cmdCores {h k : Nat} {c : Cmd} (hk : k ∈ cmdCores h c) : k / 8 = h := by
  obtain ⟨j, hj, rfl⟩ := List.mem_map.1 hk
  have hlt := List.mem_range.1 (List.mem_filter.1 hj).1
  omega

theorem cmdCores_nodup (h : Nat) (c : Cmd) : (cmdCores h c).Nodup :=
  (List.nodup_range.filter _).map fun _ _ e => by simpa using e

/-- Each core with its place. -/
theorem map_fst_places (ks : List Nat) : (ks.zip (List.range ks.length)).map Prod.fst = ks :=
  List.map_fst_zip (by simp)

theorem mem_places {ks : List Nat} {i k : Nat} (hk : ks[i]? = some k) : (k, i) ∈ ks.zip (List.range ks.length) := by
  obtain ⟨hi, -⟩ := List.getElem?_eq_some_iff.1 hk
  refine List.mem_of_getElem? (i := i) (List.getElem?_zip_eq_some.2 ⟨hk, ?_⟩)
  rw [List.getElem?_range hi]

/-- A command's cores start together. -/
theorem cores_launched (h : Fin 16) (l : Launch) (u : State) :
    Launched l u ((cmdCores h l.c).zip (List.range (cmdCores h l.c).length))
      (each ((cmdCores h l.c).zip (List.range (cmdCores h l.c).length)) u l.start) := by
  refine each_launched l (by rw [map_fst_places]; exact cmdCores_nodup h l.c) (fun p hp => ?_) u
  have hk := mem_cmdCores (List.of_mem_zip hp).1
  omega

/-! ### A started core -/

section
variable (l : Launch) (s : State) (k i : Nat)

/-- The scalar registers of Table 7-4. -/
theorem Launch.core_sreg (n : Fin 32) : (l.core s k i).sreg n = BitVec.ofNat 64 (match n.val with
    | 1 => l.ident k i | 2 => l.c.seq | 3 => l.c.fld 0x30 8 | 4 => l.c.fld 0x38 4 | 5 => descAddr s l.c (l.ref 0x24)
    | 6 => descAddr s l.c (l.ref 0x28) | 7 => descAddr s l.c (l.ref 0x2C)
    | 8 => (l.ref 0x24).2.2 + 65536 * ((l.ref 0x28).2.2 + 65536 * (l.ref 0x2C).2.2) | 9 => l.x.stepIndex l.c.step | 10 => l.x.num | _ => 0) := by
  fin_cases n <;> rfl

/-- A core whose AWL_RESIDENT does not name the code has it copied to its local store. -/
theorem Launch.core_code (hcopy : codeResident s k l.c = false) : (l.core s k i).lsBytes 0 l.code.length = l.code := by
  refine map_range_eq_of_getElem fun j hj => ?_
  show (loadCore (getCore s k) l.code (!codeResident s k l.c) _).ls.get 0 (0 + j) = l.code[j]
  rw [loadCore, hcopy]
  refine (ls_lsSet_inside _ 0 l.code hj).trans ?_
  rw [List.getD_eq_getElem?_getD, List.getElem?_eq_getElem hj, Option.getD_some]

/-- A core that last ran for another ticket has the rest of its local store cleared. -/
theorem Launch.core_cleared (hclear : (getCore s k).lastTicket ≠ some l.c.ticket) {j : Nat} (hj : l.code.length ≤ j) :
    (l.core s k i).ls.get 0 j = 0 := by
  have hbne : ((getCore s k).lastTicket != some l.c.ticket || (getCore s k).woken) = true := by simp [hclear]
  have hfilter : Smap.get 0 ((getCore s k).ls.filter fun p => decide (p.1 < l.code.length)) j = 0 := by
    rw [Smap.get_filter_key 0 (fun a => decide (a < l.code.length)), if_neg (by simpa using hj)]
  show (loadCore (getCore s k) l.code (!codeResident s k l.c) _).ls.get 0 j = 0
  rw [loadCore, hbne]
  cases codeResident s k l.c with
  | true => exact hfilter
  | false => exact (ls_lsSet_outside _ 0 l.code (.inr (by omega))).trans hfilter

end

/-! ### The statement -/

/-- Settles O48: the row's cores start one after another, and each finds of the state what the first found. -/
theorem awlCommands : Obligations.AwlCommands := by
  intro h seq c x code s u hr
  refine ⟨fun hidle => ⟨_, ?_, cmdDone_commandIs hr.findCmd⟩, fun hidle hx hread => ?_⟩
  · show execAwl h seq s = _
    rw [execAwl, opRow_runs hr, if_pos hidle]
  intro ks ref
  have hkept : UnitsKept s u := by simpa only [hread] using readCode_unitsKept h c s
  have hcore (k : Nat) : getCore u k = getCore s k := by rw [getCore, hkept.cores, getCore]
  have hxu : findTicket u c.ticket = some x := by rw [findTicket, hkept.tickets]; exact hx
  have hl := cores_launched h ⟨c, x, code, ks.length⟩ u
  refine ⟨_, awl_starts hr hidle hread hxu, ?_⟩
  generalize each _ u _ = v at hl ⊢
  have hfound : findCmd v h c.seq = some c := by
    rw [findCmd, getDisp, show v.disps = s.disps by rw [hl.rest]; exact hkept.disps]
    exact hr.findCmd
  have hmem : v.mem = u.mem := by rw [hl.rest]
  have htickets : v.tickets = s.tickets := by rw [hl.rest]; exact hkept.tickets
  refine ⟨findCmd_updCmd_same (f := fun x => { x with st := .working }) (fun _ => rfl) hfound, hmem, htickets,
    fun k hk => (hl.others k (by rw [map_fst_places]; exact hk)).trans (hcore k), fun i k hk => ?_⟩
  intro a ident
  obtain ⟨ha, hrun, hact⟩ := hl.started _ (mem_places hk)
  have hhearth : k / 8 = h.val := mem_cmdCores (List.mem_of_getElem? hk)
  have hident : Launch.ident ⟨c, x, code, ks.length⟩ k i = ident := by rw [Launch.ident, hhearth]
  rw [show a = _ from ha]
  refine ⟨hrun, hact, rfl, rfl, rfl, rfl, rfl, rfl, rfl, rfl, rfl, rfl, rfl, rfl, rfl, ?_, fun _ => rfl, fun n => ?_, fun hcopy => ?_,
    fun hclear j hj => ?_⟩
  · rw [← hident]
    rfl
  · rw [← hident]
    exact Launch.core_sreg ..
  · exact Launch.core_code _ u k i hcopy
  · exact Launch.core_cleared _ u k i (by rwa [hcore]) hj

end Sys2Proof.Machine
end

section
/-! SUPPORT. The Awl instruction word: the fields of a word put together in each format of Table 7-5, and the decoder on the words of each major. -/

namespace Sys2Proof.Machine

/-! ### The fields of an encoded word (Table 7-5) -/

section
variable {m rd ra rb fn imm off lo w vd va vb et x rm d sf : Nat}

theorem encR_lt (hm : m < 64) (hd : rd < 32) (ha : ra < 32) (hb : rb < 32) (hf : fn < 2048) : encR m rd ra rb fn < 2 ^ 32 := by
  simp only [encR]; omega

theorem encR_major (hm : m < 64) (hd : rd < 32) (ha : ra < 32) (hb : rb < 32) (hf : fn < 2048) : bits (encR m rd ra rb fn) 26 6 = m := by
  simp only [bits, encR]; omega

theorem encR_rd (hd : rd < 32) (ha : ra < 32) (hb : rb < 32) (hf : fn < 2048) : bits (encR m rd ra rb fn) 21 5 = rd := by
  simp only [bits, encR]; omega

theorem encR_ra (ha : ra < 32) (hb : rb < 32) (hf : fn < 2048) : bits (encR m rd ra rb fn) 16 5 = ra := by
  simp only [bits, encR]; omega

theorem encR_rb (hb : rb < 32) (hf : fn < 2048) : bits (encR m rd ra rb fn) 11 5 = rb := by
  simp only [bits, encR]; omega

theorem encR_fn (hf : fn < 2048) : bits (encR m rd ra rb fn) 0 11 = fn := by
  simp only [bits, encR]; omega

theorem encI_lt (hm : m < 64) (hd : rd < 32) (ha : ra < 32) (hi : imm < 65536) : encI m rd ra imm < 2 ^ 32 := by
  simp only [encI]; omega

theorem encI_major (hm : m < 64) (hd : rd < 32) (ha : ra < 32) (hi : imm < 65536) : bits (encI m rd ra imm) 26 6 = m := by
  simp only [bits, encI]; omega

theorem encI_rd (hd : rd < 32) (ha : ra < 32) (hi : imm < 65536) : bits (encI m rd ra imm) 21 5 = rd := by
  simp only [bits, encI]; omega

theorem encI_ra (ha : ra < 32) (hi : imm < 65536) : bits (encI m rd ra imm) 16 5 = ra := by
  simp only [bits, encI]; omega

/-- A field within IMM is that field of the immediate. -/
theorem encI_imm (h : lo + w ≤ 16) : bits (encI m rd ra imm) lo w = bits imm lo w := by
  have e : encI m rd ra imm = imm + 2 ^ (lo + w) * (2 ^ (16 - (lo + w)) * (m * 2 ^ 10 + rd * 2 ^ 5 + ra)) := by
    rw [← Nat.mul_assoc, ← Nat.pow_add, Nat.add_sub_cancel' h, encI]; omega
  rw [bits, bits, e, Nat.pow_add, Nat.mul_assoc, Nat.add_mul_div_left _ _ (Nat.two_pow_pos lo), Nat.add_mul_mod_self_left]

theorem encJ_lt (hm : m < 64) (ho : off < 2 ^ 26) : encJ m off < 2 ^ 32 := by
  simp only [encJ]; omega

theorem encJ_major (hm : m < 64) (ho : off < 2 ^ 26) : bits (encJ m off) 26 6 = m := by
  simp only [bits, encJ]; omega

theorem encJ_off (ho : off < 2 ^ 26) : bits (encJ m off) 0 26 = off := by
  simp only [bits, encJ]; omega

theorem encVM_lt (hm : m < 64) (hd : vd < 16) (ha : ra < 32) (hi : imm < 65536) : encVM m vd ra imm < 2 ^ 32 := by
  simp only [encVM]; omega

theorem encVM_major (hm : m < 64) (hd : vd < 16) (ha : ra < 32) (hi : imm < 65536) : bits (encVM m vd ra imm) 26 6 = m := by
  simp only [bits, encVM]; omega

theorem encVM_zero (hd : vd < 16) (ha : ra < 32) (hi : imm < 65536) : bits (encVM m vd ra imm) 25 1 = 0 := by
  simp only [bits, encVM]; omega

theorem encVM_vd (hd : vd < 16) (ha : ra < 32) (hi : imm < 65536) : bits (encVM m vd ra imm) 21 4 = vd := by
  simp only [bits, encVM]; omega

theorem encVM_ra (ha : ra < 32) (hi : imm < 65536) : bits (encVM m vd ra imm) 16 5 = ra := by
  simp only [bits, encVM]; omega

theorem encVM_imm (hi : imm < 65536) : bits (encVM m vd ra imm) 0 16 = imm := by
  simp only [bits, encVM]; omega

section
variable (hf : fn < 64) (hd : vd < 16) (ha : va < 16) (hb : vb < 16) (he : et < 8) (hx : x < 32)

include hf hd ha hb he hx in
theorem encV_lt : encV fn vd va vb et x < 2 ^ 32 := by simp only [encV]; omega

include hf hd ha hb he hx in
theorem encV_major : bits (encV fn vd va vb et x) 26 6 = 0x30 := by simp only [bits, encV]; omega

include hf hd ha hb he hx in
theorem encV_fn : bits (encV fn vd va vb et x) 20 6 = fn := by simp only [bits, encV]; omega

include hd ha hb he hx in
theorem encV_vd : bits (encV fn vd va vb et x) 16 4 = vd := by simp only [bits, encV]; omega

include ha hb he hx in
theorem encV_va : bits (encV fn vd va vb et x) 12 4 = va := by simp only [bits, encV]; omega

include hb he hx in
theorem encV_vb : bits (encV fn vd va vb et x) 8 4 = vb := by simp only [bits, encV]; omega

include he hx in
theorem encV_et : bits (encV fn vd va vb et x) 5 3 = et := by simp only [bits, encV]; omega

include hx in
theorem encV_x : bits (encV fn vd va vb et x) 0 5 = x := by simp only [bits, encV]; omega

end

section
variable (hd : vd < 16) (ha : va < 16) (hr : rm < 4) (hdf : d < 256) (hsf : sf < 256)

include hd ha hr hdf hsf in
theorem encC_lt : encC vd va rm d sf < 2 ^ 32 := by simp only [encC]; omega

include hd ha hr hdf hsf in
theorem encC_major : bits (encC vd va rm d sf) 26 6 = 0x32 := by simp only [bits, encC]; omega

include hd ha hr hdf hsf in
theorem encC_vd : bits (encC vd va rm d sf) 22 4 = vd := by simp only [bits, encC]; omega

include ha hr hdf hsf in
theorem encC_va : bits (encC vd va rm d sf) 18 4 = va := by simp only [bits, encC]; omega

include hr hdf hsf in
theorem encC_rm : bits (encC vd va rm d sf) 16 2 = rm := by simp only [bits, encC]; omega

include hdf hsf in
theorem encC_dfmt : bits (encC vd va rm d sf) 8 8 = d := by simp only [bits, encC]; omega

include hsf in
theorem encC_sfmt : bits (encC vd va rm d sf) 0 8 = sf := by simp only [bits, encC]; omega

end
end

/-! ### The decoder on the words of a format -/

/-- Words of the vector major code are decoded by Table 7-9. -/
theorem awlDecode_vec {core : Core} {w : Nat} (hw : bits w 26 6 = 0x30) : awlDecode core w = decodeVec core w := by simp only [awlDecode, hw]

/-- The word of an instruction is a word of 32 bits, and it is that instruction on its core. -/
structure Encodes (core : Core) (i : Instr) : Prop where
  lt : awlEncode i < 2 ^ 32
  decodes : awlDecode core (awlEncode i) = some i

section
variable {core : Core} {i : Instr} {m fn : Nat} {rd ra rb : Fin 32}

theorem Encodes.of_word {n : Nat} (hi : awlEncode i = n) (hlt : n < 2 ^ 32) (hdec : awlDecode core n = some i) : Encodes core i :=
  ⟨hi ▸ hlt, hi ▸ hdec⟩

theorem encodes_R (hi : awlEncode i = encR m rd ra rb fn) (hm : m < 64) (hf : fn < 2048)
    (h : ∀ w, bits w 26 6 = m → f5 w 21 = rd → f5 w 16 = ra → f5 w 11 = rb → bits w 11 5 = rb.val → bits w 0 11 = fn → awlDecode core w = some i) :
    Encodes core i := by
  have hb : bits (encR m rd ra rb fn) 11 5 = rb := encR_rb rb.isLt hf
  refine .of_word hi (encR_lt hm rd.isLt ra.isLt rb.isLt hf) (h _ (encR_major hm rd.isLt ra.isLt rb.isLt hf) ?_ ?_ ?_ hb (encR_fn hf))
  · rw [f5, encR_rd rd.isLt ra.isLt rb.isLt hf, Fin.ofNat_val_eq_self]
  · rw [f5, encR_ra ra.isLt rb.isLt hf, Fin.ofNat_val_eq_self]
  · rw [f5, hb, Fin.ofNat_val_eq_self]

/-- Format I; a field within IMM is that field of the immediate. -/
theorem encodes_I {imm : Nat} (hi : awlEncode i = encI m rd ra imm) (hm : m < 64) (himm : imm < 65536)
    (h : ∀ w, bits w 26 6 = m → f5 w 21 = rd → f5 w 16 = ra → (∀ lo n, lo + n ≤ 16 → bits w lo n = bits imm lo n) → awlDecode core w = some i) :
    Encodes core i := by
  refine .of_word hi (encI_lt hm rd.isLt ra.isLt himm) (h _ (encI_major hm rd.isLt ra.isLt himm) ?_ ?_ fun lo n hlo => encI_imm hlo)
  · rw [f5, encI_rd rd.isLt ra.isLt himm, Fin.ofNat_val_eq_self]
  · rw [f5, encI_ra ra.isLt himm, Fin.ofNat_val_eq_self]

theorem ofNat_bits_toNat {n : Nat} (v : BitVec n) : BitVec.ofNat n (bits v.toNat 0 n) = v := by
  rw [bits, Nat.pow_zero, Nat.div_one, Nat.mod_eq_of_lt v.isLt, BitVec.ofNat_toNat, BitVec.setWidth_eq]

theorem encodes_J {off : BitVec 26} (hi : awlEncode i = encJ m off.toNat) (hm : m < 64)
    (h : ∀ w, bits w 26 6 = m → BitVec.ofNat 26 (bits w 0 26) = off → awlDecode core w = some i) : Encodes core i := by
  refine .of_word hi (encJ_lt hm off.isLt) (h _ (encJ_major hm off.isLt) ?_)
  rw [encJ_off off.isLt, BitVec.ofNat_toNat, BitVec.setWidth_eq]

theorem encodes_VM {vd : Fin 16} {imm : BitVec 16} (hi : awlEncode i = encVM m vd ra imm.toNat) (hm : m < 64)
    (h : ∀ w, bits w 26 6 = m → bits w 25 1 = 0 → f4 w 21 = vd → f5 w 16 = ra → BitVec.ofNat 16 (bits w 0 16) = imm → awlDecode core w = some i) :
    Encodes core i := by
  refine .of_word hi (encVM_lt hm vd.isLt ra.isLt imm.isLt)
    (h _ (encVM_major hm vd.isLt ra.isLt imm.isLt) (encVM_zero vd.isLt ra.isLt imm.isLt) ?_ ?_ ?_)
  · rw [f4, encVM_vd vd.isLt ra.isLt imm.isLt, Fin.ofNat_val_eq_self]
  · rw [f5, encVM_ra ra.isLt imm.isLt, Fin.ofNat_val_eq_self]
  · rw [encVM_imm imm.isLt, BitVec.ofNat_toNat, BitVec.setWidth_eq]

/-- Format V; its words are decoded only for an element type that exists (R180). -/
theorem encodes_V {vd va vb : Fin 16} {et : Fin 8} {x : Fin 32} (hi : awlEncode i = encV fn vd va vb et x) (hf : fn < 64)
    (h : ∀ w, bits w 20 6 = fn → f4 w 16 = vd → f4 w 12 = va → f4 w 8 = vb → f3 w 5 = et → f5 w 0 = x → decodeVec core w = some i) :
    Encodes core i := by
  refine .of_word hi (encV_lt hf vd.isLt va.isLt vb.isLt et.isLt x.isLt) ?_
  rw [awlDecode_vec (encV_major hf vd.isLt va.isLt vb.isLt et.isLt x.isLt)]
  refine h _ (encV_fn hf vd.isLt va.isLt vb.isLt et.isLt x.isLt) ?_ ?_ ?_ ?_ ?_
  · rw [f4, encV_vd vd.isLt va.isLt vb.isLt et.isLt x.isLt, Fin.ofNat_val_eq_self]
  · rw [f4, encV_va va.isLt vb.isLt et.isLt x.isLt, Fin.ofNat_val_eq_self]
  · rw [f4, encV_vb vb.isLt et.isLt x.isLt, Fin.ofNat_val_eq_self]
  · rw [f3, encV_et et.isLt x.isLt, Fin.ofNat_val_eq_self]
  · rw [f5, encV_x x.isLt, Fin.ofNat_val_eq_self]

end

/-! ### Each group of instructions -/

section
variable {core : Core}

theorem encodes_alu {f : Core → Fin 32 → Fin 32 → Fin 32 → Instr} (hf : f ∈ [Instr.add, .sub, .and, .or, .xor, .sll, .srl, .sra, .slt, .sltu, .mul,
    .mulh, .mulhu, .div, .divu, .rem, .remu, .min, .max, .minu, .maxu]) (rd ra rb : Fin 32) : Encodes core (f core rd ra rb) := by
  fin_cases hf
  all_goals exact encodes_R rfl (by decide) (by decide) fun w hm hd ha hb _ hfn => by simp only [awlDecode, hm, decodeAlu, hfn, hd, ha, hb]

theorem encodes_count {f : Core → Fin 32 → Fin 32 → Instr} (hf : f ∈ [Instr.clz, .popc]) (rd ra : Fin 32) : Encodes core (f core rd ra) := by
  fin_cases hf
  all_goals
    exact encodes_R (rb := 0) rfl (by decide) (by decide) fun w hm hd ha _ hz hfn => by
      simp only [awlDecode, hm, decodeAlu, hfn, hd, ha, hz, Fin.val_zero, if_true]

theorem encodes_imm {f : Core → Fin 32 → Fin 32 → BitVec 16 → Instr} (hf : f ∈ [Instr.addi, .andi, .ori, .xori, .slti, .sltiu, .shlo, .beq, .bne,
    .blt, .bge, .bltu, .bgeu, .jalr, .lb, .lbu, .lh, .lhu, .lw, .lwu, .ld, .sb, .sh, .sw, .sd]) (rd ra : Fin 32) (imm : BitVec 16) :
    Encodes core (f core rd ra imm) := by
  fin_cases hf
  all_goals
    exact encodes_I rfl (by decide) imm.isLt fun w hm hd ha himm => by
      simp only [awlDecode, hm, hd, ha, himm 0 16 (by decide), ofNat_bits_toNat]

theorem encodes_shi (rd ra : Fin 32) (kind : Fin 3) (amt : Fin 64) : Encodes core (.shi core rd ra kind amt) := by
  have h8 : bits (kind.val * 64 + amt.val) 8 8 = 0 := by simp only [bits]; omega
  have h6 : bits (kind.val * 64 + amt.val) 6 2 = kind.val := by simp only [bits]; omega
  have h0 : bits (kind.val * 64 + amt.val) 0 6 = amt.val := by simp only [bits]; omega
  exact encodes_I rfl (by decide) (by omega) fun w hm hd ha himm => by
    simp only [awlDecode, hm, hd, ha, himm 8 8 (by decide), himm 6 2 (by decide), himm 0 6 (by decide), h8, h6, h0, kind.isLt, and_self, if_true,
      Fin.ofNat_val_eq_self]

theorem encodes_jump {f : Core → BitVec 26 → Instr} (hf : f ∈ [Instr.j, .jal]) (off : BitVec 26) : Encodes core (f core off) := by
  fin_cases hf
  all_goals exact encodes_J rfl (by decide) fun w hm hoff => by simp only [awlDecode, hm, hoff]

theorem encodes_vecMem {f : Core → Fin 16 → Fin 32 → BitVec 16 → Instr} (hf : f ∈ [Instr.vld, .vst]) (vd : Fin 16) (ra : Fin 32) (imm : BitVec 16) :
    Encodes core (f core vd ra imm) := by
  fin_cases hf
  all_goals exact encodes_VM rfl (by decide) fun w hm hz hd ha himm => by simp only [awlDecode, hm, hz, hd, ha, himm, if_true]

theorem encodes_vec3 {f : Core → Fin 8 → Fin 16 → Fin 16 → Fin 16 → Instr} (hf : f ∈ [Instr.vadd, .vsub, .vmul, .vfma, .vmin, .vmax, .vand, .vor, .vxor,
    .vceq, .vclt, .vcle, .vsel, .vperm]) {et : Fin 8} (het : etValid et.val = true) (vd va vb : Fin 16) : Encodes core (f core et vd va vb) := by
  fin_cases hf
  all_goals
    exact encodes_V (x := 0) rfl (by decide) fun w hfn hd ha hb he hx => by
      simp only [decodeVec, hfn, hd, ha, hb, he, hx, het, Bool.not_true, Bool.false_eq_true, if_false, if_true]

theorem encodes_vec3Int {f : Core → Fin 8 → Fin 16 → Fin 16 → Fin 16 → Instr} (hf : f ∈ [Instr.vadds, .vsubs]) {et : Fin 8}
    (het : etValid et.val = true) (hint : etFloat et.val = false) (vd va vb : Fin 16) : Encodes core (f core et vd va vb) := by
  fin_cases hf
  all_goals
    exact encodes_V (x := 0) rfl (by decide) fun w hfn hd ha hb he hx => by
      simp only [decodeVec, hfn, hd, ha, hb, he, hx, het, hint, Bool.not_true, Bool.not_false, Bool.false_eq_true, if_false, if_true, and_self]

theorem encodes_vdiv {et : Fin 8} (hfp : etFloat et.val = true) (vd va vb : Fin 16) : Encodes core (.vdiv core et vd va vb) :=
  encodes_V (x := 0) rfl (by decide) fun w hfn hd ha hb he hx => by
    simp only [decodeVec, hfn, hd, ha, hb, he, hx, etValid_of_float hfp, hfp, Bool.not_true, Bool.false_eq_true, if_false, if_true, and_self]

theorem encodes_vec2 {f : Core → Fin 8 → Fin 16 → Fin 16 → Instr} (hf : f ∈ [Instr.vabs, .vneg, .vmov]) {et : Fin 8} (het : etValid et.val = true)
    (vd va : Fin 16) : Encodes core (f core et vd va) := by
  fin_cases hf
  all_goals
    exact encodes_V (vb := 0) (x := 0) rfl (by decide) fun w hfn hd ha hb he hx => by
      simp only [decodeVec, hfn, hd, ha, hb, he, hx, het, Bool.not_true, Bool.false_eq_true, if_false, if_true, and_self]

theorem encodes_vec2Fp {f : Core → Fin 8 → Fin 16 → Fin 16 → Instr} (hf : f ∈ [Instr.vsqrt, .vexp, .vlog, .vtanh, .verf]) {et : Fin 8}
    (hfp : etFloat et.val = true) (vd va : Fin 16) : Encodes core (f core et vd va) := by
  fin_cases hf
  all_goals
    exact encodes_V (vb := 0) (x := 0) rfl (by decide) fun w hfn hd ha hb he hx => by
      simp only [decodeVec, hfn, hd, ha, hb, he, hx, etValid_of_float hfp, hfp, Bool.not_true, Bool.false_eq_true, if_false, if_true, and_self]

theorem encodes_shift {f : Core → Fin 8 → Fin 16 → Fin 16 → Fin 32 → Instr} (hf : f ∈ [Instr.vshl, .vshrl, .vshra]) {et : Fin 8}
    (het : etValid et.val = true) (hint : etFloat et.val = false) (vd va : Fin 16) (x : Fin 32) : Encodes core (f core et vd va x) := by
  fin_cases hf
  all_goals
    exact encodes_V (vb := 0) rfl (by decide) fun w hfn hd ha hb he hx => by
      simp only [decodeVec, hfn, hd, ha, hb, he, hx, het, hint, Bool.not_true, Bool.not_false, Bool.false_eq_true, if_false, if_true, and_self]

/-- VFMAW takes 16-bit lanes and a pair that begins at an even register. -/
theorem encodes_vfmaw {et : Fin 8} (het : et.val = 4 ∨ et.val = 5) {vd : Fin 16} (hvd : vd.val % 2 = 0) (va : Fin 16) (x : Fin 32) :
    Encodes core (.vfmaw core et vd va x) := by
  have hvalid : etValid et.val = true := by rcases het with h | h <;> rw [h] <;> rfl
  exact encodes_V (vb := 0) rfl (by decide) fun w hfn hd ha hb he hx => by
    simp only [decodeVec, hfn, hd, ha, hb, he, hx, hvalid, het, hvd, Bool.not_true, Bool.false_eq_true, if_false, if_true, and_self]

theorem encodes_reduce {f : Core → Fin 8 → Fin 16 → Fin 32 → Instr} (hf : f ∈ [Instr.vrsum, .vrmax, .vrmin]) {et : Fin 8} (het : etValid et.val = true)
    (va : Fin 16) (x : Fin 32) : Encodes core (f core et va x) := by
  fin_cases hf
  all_goals
    exact encodes_V (vd := 0) (vb := 0) rfl (by decide) fun w hfn hd ha hb he hx => by
      simp only [decodeVec, hfn, hd, ha, hb, he, hx, het, Bool.not_true, Bool.false_eq_true, if_false, if_true, and_self]

theorem encodes_vamax {et : Fin 8} (hfp : etFloat et.val = true) (va : Fin 16) : Encodes core (.vamax core et va) :=
  encodes_V (vd := 0) (vb := 0) (x := 0) rfl (by decide) fun w hfn hd ha hb he hx => by
    simp only [decodeVec, hfn, hd, ha, hb, he, hx, etValid_of_float hfp, hfp, Bool.not_true, Bool.false_eq_true, if_false, if_true, and_self]

theorem encodes_vbcast {et : Fin 8} (het : etValid et.val = true) (vd : Fin 16) (x : Fin 32) : Encodes core (.vbcast core et vd x) :=
  encodes_V (va := 0) (vb := 0) rfl (by decide) fun w hfn hd ha hb he hx => by
    simp only [decodeVec, hfn, hd, ha, hb, he, hx, het, Bool.not_true, Bool.false_eq_true, if_false, if_true, and_self]

/-! The lane number of VEXT and VINS stands in two fields of four bits. -/

def laneHigh (lane : BitVec 8) : Fin 16 := ⟨lane.toNat / 16, by omega⟩
def laneLow (lane : BitVec 8) : Fin 16 := ⟨lane.toNat % 16, by omega⟩

theorem lane_split (lane : BitVec 8) : BitVec.ofNat 8 (16 * (laneHigh lane).val + (laneLow lane).val) = lane := by
  have h : 16 * (laneHigh lane).val + (laneLow lane).val = lane.toNat := Nat.div_add_mod _ _
  rw [h, BitVec.ofNat_toNat, BitVec.setWidth_eq]

theorem etValid_of_lane {et : Nat} {n : Nat} (h : n < etLanes et) : etValid et = true := by
  simp only [etValid, bne_iff_ne]; omega

theorem encodes_vext {et : Fin 8} {lane : BitVec 8} (hl : lane.toNat < etLanes et.val) (va : Fin 16) (x : Fin 32) :
    Encodes core (.vext core et va lane x) :=
  encodes_V (vd := laneHigh lane) (vb := laneLow lane) rfl (by decide) fun w hfn hd ha hb he hx => by
    simp only [decodeVec, hfn, hd, ha, hb, he, hx, etValid_of_lane hl, lane_split, hl, Bool.not_true, Bool.false_eq_true, if_false, if_true]

theorem encodes_vins {et : Fin 8} {lane : BitVec 8} (hl : lane.toNat < etLanes et.val) (vd : Fin 16) (x : Fin 32) :
    Encodes core (.vins core et vd lane x) :=
  encodes_V (va := laneHigh lane) (vb := laneLow lane) rfl (by decide) fun w hfn hd ha hb he hx => by
    simp only [decodeVec, hfn, hd, ha, hb, he, hx, etValid_of_lane hl, lane_split, hl, Bool.not_true, Bool.false_eq_true, if_false, if_true]

/-! Control registers, conversions, transfers, queues, waits, tokens and the system (Tables 7-10 to 7-12) -/

theorem bits_one (v lo : Nat) : bits v lo 1 = 1 ↔ bit v lo = true := by simp [bits, bit]

theorem encodes_crRead (rd : Fin 32) (n : Fin 8) : Encodes core (.crRead core rd n) := by
  have h4 : bits n.val 4 11 = 0 := by simp only [bits]; omega
  have h0 : bits n.val 0 4 = n.val := by simp only [bits]; omega
  have h15 : bits n.val 15 1 ≠ 1 := by simp only [bits]; omega
  exact encodes_I (ra := 0) rfl (by decide) (by omega) fun w hm hd _ himm => by
    simp only [awlDecode, hm, hd, ← bits_one, himm 4 11 (by decide), himm 0 4 (by decide), himm 15 1 (by decide), h4, h0, h15, ne_eq, not_true_eq_false,
      Nat.not_le.mpr n.isLt, or_self, if_false, Fin.ofNat_val_eq_self]

theorem encodes_crWrite {n : Fin 8} (hn : 1 ≤ n.val ∧ n.val ≤ 4) (ra : Fin 32) : Encodes core (.crWrite core ra n) := by
  have h4 : bits (0x8000 + n.val) 4 11 = 0 := by simp only [bits]; omega
  have h0 : bits (0x8000 + n.val) 0 4 = n.val := by simp only [bits]; omega
  have h15 : bits (0x8000 + n.val) 15 1 = 1 := by simp only [bits]; omega
  exact encodes_I (rd := 0) rfl (by decide) (by omega) fun w hm _ ha himm => by
    simp only [awlDecode, hm, ha, ← bits_one, himm 4 11 (by decide), himm 0 4 (by decide), himm 15 1 (by decide), h4, h0, h15, hn, ne_eq,
      not_true_eq_false, Nat.not_le.mpr n.isLt, or_self, and_self, if_false, if_true, Fin.ofNat_val_eq_self]

theorem encodes_vcvt {vd va : Fin 16} {dfmt sfmt : BitVec 8} (hd : pairOk dfmt.toNat vd = true) (ha : pairOk sfmt.toNat va = true) (rm : Fin 2) :
    Encodes core (.vcvt core vd va rm dfmt sfmt) := by
  have hrm : rm.val < 4 := by omega
  refine ⟨encC_lt vd.isLt va.isLt hrm dfmt.isLt sfmt.isLt, ?_⟩
  simp only [awlEncode, awlDecode, encC_major vd.isLt va.isLt hrm dfmt.isLt sfmt.isLt, f4, encC_vd vd.isLt va.isLt hrm dfmt.isLt sfmt.isLt,
    encC_va va.isLt hrm dfmt.isLt sfmt.isLt, encC_rm hrm dfmt.isLt sfmt.isLt, encC_dfmt dfmt.isLt sfmt.isLt, encC_sfmt sfmt.isLt,
    Fin.ofNat_val_eq_self, hd, ha, rm.isLt, and_self, if_true, BitVec.ofNat_toNat, BitVec.setWidth_eq]

theorem encodes_tack {f : Core → Fin 32 → Fin 32 → Fin 32 → Instr} (hf : f ∈ [Instr.tackRead, .tackWrite]) (rd ra rb : Fin 32) :
    Encodes core (f core rd ra rb) := by
  -- FN[10:1] and FN[0] are read apart
  have hfn : ∀ w fn, bits w 0 11 = fn → fn < 2 → bits w 1 10 = 0 ∧ bit w 0 = decide (fn = 1) := by
    intro w fn h hlt
    simp only [bits, bit, Nat.pow_zero, Nat.div_one] at h ⊢
    refine ⟨by omega, ?_⟩
    rw [Bool.beq_eq_decide_eq, decide_eq_decide]
    omega
  fin_cases hf
  all_goals
    exact encodes_R rfl (by decide) (by decide) fun w hm hd ha hb _ h => by
      obtain ⟨hrest, hbit⟩ := hfn w _ h (by decide)
      simp [awlDecode, hm, hd, ha, hb, hrest, hbit]

theorem encodes_awlQput (ra rb : Fin 32) : Encodes core (.awlQput core ra rb) :=
  encodes_R (rd := 0) rfl (by decide) (by decide) fun w hm _ ha hb _ hfn => by simp only [awlDecode, hm, ha, hb, hfn]

/-- QGET, QTRY and WAIT SEQ are not for supervisor cores (R177). -/
theorem encodes_pop {f : Core → Fin 32 → Fin 32 → Instr} (hf : f ∈ [Instr.qget, .qtry]) (hcore : isSup core = false) (rd rb : Fin 32) :
    Encodes core (f core rd rb) := by
  fin_cases hf
  all_goals
    exact encodes_R (ra := 0) rfl (by decide) (by decide) fun w hm hd _ hb _ hfn => by
      simp only [awlDecode, hm, hd, hb, hfn, hcore, Bool.false_eq_true, if_false]

theorem encodes_waitOwn : Encodes core (.waitOwn core) :=
  encodes_I (rd := 0) (ra := 0) rfl (by decide) (by decide) fun w hm hd _ himm => by
    have h2 : bits 0 2 14 = 0 := rfl
    have h0 : bits 0 0 2 = 0 := rfl
    simp only [awlDecode, hm, hd, himm 2 14 (by decide), himm 0 2 (by decide), h2, h0, ne_eq, not_true_eq_false, or_self, if_false]

theorem encodes_waitSeq (hcore : isSup core = false) (ra : Fin 32) : Encodes core (.waitSeq core ra) :=
  encodes_I (rd := 0) rfl (by decide) (by decide) fun w hm hd ha himm => by
    have h2 : bits 1 2 14 = 0 := rfl
    have h0 : bits 1 0 2 = 1 := rfl
    simp only [awlDecode, hm, hd, ha, himm 2 14 (by decide), himm 0 2 (by decide), h2, h0, hcore, ne_eq, not_true_eq_false, or_self,
      Bool.false_eq_true, if_false]

theorem encodes_tokRequest (n : BitVec 8) : Encodes core (.tokRequest core n) := by
  have h15 : bits n.toNat 15 1 ≠ 1 := by simp only [bits]; omega
  have h8 : bits n.toNat 8 7 = 0 := by simp only [bits]; omega
  exact encodes_I (rd := 0) (ra := 0) rfl (by decide) (by omega) fun w hm _ _ himm => by
    simp only [awlDecode, hm, ← bits_one, himm 15 1 (by decide), himm 8 7 (by decide), himm 0 8 (by decide), h15, h8, ne_eq, not_true_eq_false,
      if_false, ofNat_bits_toNat]

theorem encodes_tokRelease : Encodes core (.tokRelease core) :=
  encodes_I (rd := 0) (ra := 0) rfl (by decide) (by decide) fun w hm _ _ himm => by
    have h15 : bits 0x8000 15 1 = 1 := rfl
    simp only [awlDecode, hm, ← bits_one, himm 15 1 (by decide), h15, if_true]

theorem encodes_sys0 {f : Core → Instr} (hf : f ∈ [Instr.halt, .fence]) : Encodes core (f core) := by
  fin_cases hf
  all_goals
    exact encodes_R (rd := 0) (ra := 0) (rb := 0) rfl (by decide) (by decide) fun w hm hd _ hb _ hfn => by
      simp only [awlDecode, hm, decodeSys, hd, hb, hfn, and_self, if_true]

theorem encodes_sys1 {f : Core → Fin 32 → Instr} (hf : f ∈ [Instr.trap, .emit]) (ra : Fin 32) : Encodes core (f core ra) := by
  fin_cases hf
  all_goals
    exact encodes_R (rd := 0) (rb := 0) rfl (by decide) (by decide) fun w hm hd ha hb _ hfn => by
      simp only [awlDecode, hm, decodeSys, hd, ha, hb, hfn, and_self, if_true]

/-- SREGR and SREGW are for supervisor cores alone (R177). -/
theorem encodes_sregr (hcore : isSup core = true) (rd ra : Fin 32) : Encodes core (.sregr core rd ra) :=
  encodes_R (rb := 0) rfl (by decide) (by decide) fun w hm hd ha hb _ hfn => by
    simp only [awlDecode, hm, decodeSys, hd, ha, hb, hfn, hcore, and_self, if_true]

theorem encodes_sregw (hcore : isSup core = true) (ra rb : Fin 32) : Encodes core (.sregw core ra rb) :=
  encodes_R (rd := 0) rfl (by decide) (by decide) fun w hm hd ha hb _ hfn => by
    simp only [awlDecode, hm, decodeSys, hd, ha, hb, hfn, hcore, and_self, if_true]

end

/-! ### The statement -/

/-- Settles O6: each row by the group its word belongs to; what `awlForm` says of its operands is what the decoder asks of them. -/
theorem awlDecodeEncode : Obligations.AwlDecodeEncode := by
  intro core i hcore hform
  suffices hword : Encodes core i from ⟨hword.lt, hword.decodes⟩
  -- a row that is no instruction word names no core
  cases i <;> cases hcore
  case add.refl | sub.refl | and.refl | or.refl | xor.refl | sll.refl | srl.refl | sra.refl | slt.refl | sltu.refl | mul.refl | mulh.refl
      | mulhu.refl | div.refl | divu.refl | rem.refl | remu.refl | min.refl | max.refl | minu.refl | maxu.refl =>
    exact encodes_alu (by simp) _ _ _
  case clz.refl | popc.refl => exact encodes_count (by simp) _ _
  case addi.refl | andi.refl | ori.refl | xori.refl | slti.refl | sltiu.refl | shlo.refl | beq.refl | bne.refl | blt.refl | bge.refl
      | bltu.refl | bgeu.refl | jalr.refl | lb.refl | lbu.refl | lh.refl | lhu.refl | lw.refl | lwu.refl | ld.refl | sb.refl | sh.refl
      | sw.refl | sd.refl =>
    exact encodes_imm (by simp) _ _ _
  case shi.refl => exact encodes_shi _ _ _ _
  case j.refl | jal.refl => exact encodes_jump (by simp) _
  case vld.refl | vst.refl => exact encodes_vecMem (by simp) _ _ _
  case vadd.refl | vsub.refl | vmul.refl | vfma.refl | vmin.refl | vmax.refl | vand.refl | vor.refl | vxor.refl | vceq.refl | vclt.refl
      | vcle.refl | vsel.refl | vperm.refl =>
    exact encodes_vec3 (by simp) hform _ _ _
  case vadds.refl | vsubs.refl =>
    obtain ⟨het, hint⟩ := Bool.and_eq_true_iff.mp hform
    exact encodes_vec3Int (by simp) het (by simpa using hint) _ _ _
  case vdiv.refl => exact encodes_vdiv hform _ _ _
  case vabs.refl | vneg.refl | vmov.refl => exact encodes_vec2 (by simp) hform _ _
  case vsqrt.refl | vexp.refl | vlog.refl | vtanh.refl | verf.refl => exact encodes_vec2Fp (by simp) hform _ _
  case vshl.refl | vshrl.refl | vshra.refl =>
    obtain ⟨het, hint⟩ := Bool.and_eq_true_iff.mp hform
    exact encodes_shift (by simp) het (by simpa using hint) _ _ _
  case vfmaw.refl =>
    obtain ⟨het, hvd⟩ := Bool.and_eq_true_iff.mp hform
    exact encodes_vfmaw (by simpa using het) (by simpa using hvd) _ _
  case vrsum.refl | vrmax.refl | vrmin.refl => exact encodes_reduce (by simp) hform _ _
  case vamax.refl => exact encodes_vamax hform _
  case vbcast.refl => exact encodes_vbcast hform _ _
  case vext.refl => exact encodes_vext (of_decide_eq_true hform) _ _
  case vins.refl => exact encodes_vins (of_decide_eq_true hform) _ _
  case crRead.refl => exact encodes_crRead _ _
  case crWrite.refl => exact encodes_crWrite (by simpa [awlForm] using hform) _
  case vcvt.refl =>
    obtain ⟨hd, ha⟩ := Bool.and_eq_true_iff.mp hform
    exact encodes_vcvt hd ha _
  case tackRead.refl | tackWrite.refl => exact encodes_tack (by simp) _ _ _
  case awlQput.refl => exact encodes_awlQput _ _
  case qget.refl | qtry.refl => exact encodes_pop (by simp) (by simpa [awlForm] using hform) _ _
  case waitOwn.refl => exact encodes_waitOwn
  case waitSeq.refl => exact encodes_waitSeq (by simpa [awlForm] using hform) _
  case tokRequest.refl => exact encodes_tokRequest _
  case tokRelease.refl => exact encodes_tokRelease
  case halt.refl | fence.refl => exact encodes_sys0 (by simp)
  case trap.refl | emit.refl => exact encodes_sys1 (by simp) _
  case sregr.refl => exact encodes_sregr hform _ _
  case sregw.refl => exact encodes_sregw hform _ _

end Sys2Proof.Machine
end

section
/-! SUPPORT. Commands that read tensors, work, and store one tensor (R126, R129, R312): what their requests and their checks leave of the window, and
what a store that is served leaves of memory and of its command. -/

namespace Sys2Proof.Machine

/-! ### Requests of ranges of bytes -/

/-- A field of the state that every update of a list keeps, the list keeps. -/
theorem each_preserves {α β : Type} (π : State → β) {f : State → α → State} (hf : ∀ s x, π (f s x) = π s) (xs : List α) (s : State) :
    π (each xs s f) = π s := by
  induction xs generalizing s with
  | nil => rfl
  | cons x xs ih => exact (ih (f s x)).trans (hf s x)

theorem findCmd_of_disps {s t : State} (hd : t.disps = s.disps) (h q : Nat) : findCmd t h q = findCmd s h q := by
  rw [findCmd, getDisp, hd, findCmd, getDisp]

namespace UnitsKept

theorem findCmd {s t : State} (k : UnitsKept s t) (h q : Nat) : findCmd t h q = findCmd s h q := findCmd_of_disps k.disps h q

theorem findTicket {s t : State} (k : UnitsKept s t) (key : Nat) : findTicket t key = findTicket s key := by
  rw [Machine.findTicket, k.tickets, Machine.findTicket]

theorem cntHearth {s t : State} (k : UnitsKept s t) (h i n : Nat) : UnitsKept s (Machine.cntHearth t h i n) := k.wr _ _

theorem each {α : Type} {f : State → α → State} (hf : ∀ s x, UnitsKept s (f s x)) (xs : List α) (s : State) :
    UnitsKept s (each xs s f) := by
  induction xs generalizing s with
  | nil => exact .refl s
  | cons x xs ih => exact (hf s x).trans (ih (f s x))

/-- As `each`, where a report goes with the state. -/
theorem foldl {α β : Type} {f : State × β → α → State × β} (hf : ∀ p x, UnitsKept p.1 (f p x).1) (xs : List α) (p : State × β) :
    UnitsKept p.1 (xs.foldl f p).1 := by
  induction xs generalizing p with
  | nil => exact .refl p.1
  | cons x xs ih => exact (hf p x).trans (ih (f p x))

end UnitsKept

section
variable (who : Nat) (cmd : Option CmdId)

theorem touchFrom_unitsKept (write : Bool) (fuel : Nat) (s : State) (a n : Nat) :
    UnitsKept s (touchFrom s who write cmd fuel a n).1 := by
  induction fuel generalizing s a n with
  | zero => exact .refl s
  | succ fuel ih =>
    have hacc := access_unitsKept s who a (min n (64 - a % 64)) write cmd
    rw [touchFrom]
    refine .ite (.refl s) ?_
    dsimp only
    split
    · next heq => rw [heq] at hacc; exact hacc.trans (ih ..)
    · exact hacc

theorem touchRanges_unitsKept (write : Bool) (rs : List (Nat × Nat)) (s : State) : UnitsKept s (touchRanges s who write cmd rs).1 := by
  induction rs generalizing s with
  | nil => exact .refl s
  | cons r rs ih =>
    obtain ⟨a, n⟩ := r
    have hfirst := touchFrom_unitsKept who cmd write (n / 64 + 2) s a n
    rw [touchRanges]
    split
    · next heq => rw [heq] at hfirst; exact hfirst.trans (ih _)
    · exact hfirst

theorem holesFrom_unitsKept (fuel : Nat) (s : State) (a n : Nat) : UnitsKept s (holesFrom s who cmd fuel a n).1 := by
  induction fuel generalizing s a n with
  | zero => exact .refl s
  | succ fuel ih =>
    have hacc := access_unitsKept s who a (min n (64 - a % 64)) true cmd
    rw [holesFrom]
    refine .ite (.refl s) ?_
    dsimp only
    split
    · next heq => rw [heq] at hacc; exact hacc
    · next u _ _ heq =>
      rw [heq] at hacc
      have hrest := hacc.trans (ih u (a + min n (64 - a % 64)) (n - min n (64 - a % 64)))
      split
      · next heq => rw [heq] at hrest; exact hrest
      · exact hrest

theorem touchWrites_unitsKept (rs : List (Nat × Nat)) (s : State) : UnitsKept s (touchWrites s who cmd rs).1 := by
  induction rs generalizing s with
  | nil => exact .refl s
  | cons r rs ih =>
    obtain ⟨a, n⟩ := r
    have hfirst := holesFrom_unitsKept who cmd (n / 64 + 2) s a n
    rw [touchWrites]
    split
    · next u _ heq =>
      rw [heq] at hfirst
      have hrest := hfirst.trans (ih u)
      split
      · next heq => rw [heq] at hrest; exact hrest
      · exact hrest
    · exact hfirst

end

section
variable {s t : State} {h : Nat} {c : Cmd} {rs : List (Nat × Nat)}

theorem readRanges_unitsKept {r : Req Unit} (hread : readRanges s h c rs = (t, r)) : UnitsKept s t := by
  have hreqs := touchRanges_unitsKept (idDisp h) (some (cmdId s h c)) false rs s
  rwa [show touchRanges s (idDisp h) false (some (cmdId s h c)) rs = (t, r) from hread] at hreqs

/-- Writes that are served are their requests. -/
theorem writeRanges_unitsKept {xs : List (Nat × Nat)} (hwrite : writeRanges s h c rs = (t, .ok xs)) : UnitsKept s t := by
  have hreqs := touchWrites_unitsKept (idDisp h) (some (cmdId s h c)) rs s
  unfold writeRanges at hwrite
  split at hwrite
  · cases hwrite
  · rwa [hwrite] at hreqs

end

/-! ### What an ME checks (R129) -/

section
variable (s : State) (h i : Nat) (cmd : Option CmdId)

theorem readWords_unitsKept (errs : Smap Nat) : UnitsKept s (readWords s h i errs cmd).1 :=
  .ite (((UnitsKept.refl s).wr _ _).cntHearth _ _ _)
    (.each (fun s _ => ((((UnitsKept.refl s).wr _ _).satAdd _ _).cntHearth _ _ _).trans (emberCode_unitsKept ..)) errs s)

theorem readSlot_unitsKept (k : Nat) : UnitsKept s (readSlot s h i k cmd).1 := by
  unfold readSlot
  split
  · exact .refl s
  · next x _ =>
    have hwords := readWords_unitsKept s h i cmd x.errs
    split
    · next heq => rw [heq] at hwords; exact hwords
    · next heq => rw [heq] at hwords; exact hwords.trans ⟨rfl, rfl, rfl⟩

theorem readLive_unitsKept : UnitsKept s (readLive s h i cmd).1 :=
  UnitsKept.trans (t := { s with wordErrs := s.wordErrs.filter fun e => !(e.1 / 2 ^ 18 == 16 * h + i) }) ⟨rfl, rfl, rfl⟩
    (readWords_unitsKept _ h i cmd _)

theorem readMe_unitsKept (loads : Bool) (ks : List Nat) : UnitsKept s (readMe s h i loads ks cmd).1 :=
  .ite ((UnitsKept.refl s).wr _ _) ((readLive_unitsKept s h i cmd).trans
    (.foldl (fun p k => .ite (.refl p.1) (readSlot_unitsKept p.1 h i cmd k)) ks (readLive s h i cmd)))

end

theorem readMes_unitsKept {s t : State} {h : Nat} {mes : List Nat} {loads : Bool} {ks : Nat → List Nat} {cmd : Option CmdId} {r : Option (Nat × Nat)}
    (hread : readMes s h mes loads ks cmd = (t, r)) : UnitsKept s t := by
  have hall : UnitsKept s (readMes s h mes loads ks cmd).1 := by
    refine .foldl (fun p i => ?_) mes (s, none)
    split
    · exact .refl p.1
    · exact readMe_unitsKept p.1 h i cmd loads (ks i)
  rwa [hread] at hall

/-! ### What a command's counters and slots leave alone -/

theorem Untouched.each {α : Type} {f : State → α → State} (hf : ∀ s x, Untouched s (f s x)) (xs : List α) (s : State) :
    Untouched s (each xs s f) := by
  induction xs generalizing s with
  | nil => exact .refl s
  | cons x xs ih => exact (hf s x).trans (ih (f s x))

theorem Untouched.wr {s t : State} (k : Untouched s t) (f : Fld) (v : Nat) : Untouched s (Machine.wr t f v) := k.trans ⟨rfl, rfl, rfl⟩

theorem emberCode_untouched (s : State) (u code : Nat) (c : Option CmdId) : Untouched s (emberCode s u code c) := by
  cases c <;> rw [emberCode, emberPut_frame] <;> exact ⟨rfl, rfl, rfl⟩

theorem meTiming_untouched (s : State) (h : Nat) (mes : List Nat) (waves : Bool) : Untouched s (meTiming s h mes waves) :=
  .each (fun _ _ => by cases waves <;> exact ⟨rfl, rfl, rfl⟩) mes s

theorem countOps_untouched (s : State) (h : Nat) (c : Cmd) (arr : Fmt) (waves : Bool) (per : List (Nat × Nat)) :
    Untouched s (countOps s h c arr waves per) := by
  refine .trans (Untouched.wr ?_ _ _) (meTiming_untouched ..)
  exact .each (fun s p => (Untouched.each (fun s _ => (Untouched.refl s).wr _ _) _ s).wr _ _) per s

theorem meRan_untouched (s : State) (h i shape arr passes : Nat) (waves : Bool) : Untouched s (meRan s h i shape arr passes waves) := by
  cases waves <;> exact ⟨rfl, rfl, rfl⟩

theorem endLive_untouched (s : State) (h i : Nat) : Untouched s (endLive s h i) := by
  refine .each (fun s k => ?_) _ s
  split
  · exact .refl s
  · exact (Untouched.refl s).wr _ _

theorem readoutSlots_untouched (s : State) (h : Nat) (P : Prod) (T : Tiling) (A : AccMode) : Untouched s (readoutSlots s h P T A) := by
  refine .each (fun s i => (endLive_untouched s h i).trans ?_) _ s
  generalize endLive s h i = u
  dsimp only
  generalize (if A.accIn = true then _ else _ : List Nat) = ks
  exact Untouched.trans (t := { u with kept := u.kept.filter fun x => !(x.me == 16 * h + i && ks.contains x.slot) }) ⟨rfl, rfl, rfl⟩
    (.each (fun s _ => (Untouched.refl s).wr _ _) ks _)

/-! ### A command on its way to done -/

/-- Memory is m, and the command stands in its window as c, but for the notices that it has recorded. -/
structure StandsOver (m : Memory) (h : Nat) (c : Cmd) (t : State) : Prop where
  stands : StandsAs t h c
  mem : t.mem = m

namespace StandsOver
variable {m : Memory} {h : Nat} {c : Cmd} {s t : State}

theorem of_found (hc : findCmd t h c.seq = some c) : StandsOver t.mem h c t := ⟨⟨c.noted, hc⟩, rfl⟩

theorem untouched (k : StandsOver m h c s) (hu : Untouched s t) : StandsOver m h c t := by
  obtain ⟨⟨n, hn⟩, hm⟩ := k
  exact ⟨⟨n, (hu.findCmd h c.seq).trans hn⟩, hu.mem.trans hm⟩

theorem noteOnce (k : StandsOver m h c s) (unit : Nat) (codes : List (Nat × Nat)) (stat : Nat) :
    StandsOver m h c (noteOnce s h c unit codes stat) := by
  unfold Machine.noteOnce
  extract_lets had u
  have hu : Untouched s u := by
    refine .each (fun s p => ?_) codes s
    split
    · exact emberCode_untouched ..
    · exact .refl s
  obtain ⟨⟨n, hn⟩, hm⟩ := k.untouched hu
  exact ⟨⟨_, (findCmd_updCmd_same (by exact fun _ => rfl) hn).trans rfl⟩, hm⟩

theorem noteStat (k : StandsOver m h c s) (unit stat : Nat) : StandsOver m h c (noteStat s h c unit stat) := by
  have hflags : Untouched s (ticketFlags s c.ticket (stat % 8)) := ⟨rfl, rfl, rfl⟩
  exact ((k.untouched hflags).noteOnce ..).noteOnce ..

/-- A report to a tensor without a scale record goes to the counters and the notices. -/
theorem reportStore (k : StandsOver m h c s) (unit : Nat) {d : Desc} (hscale : d.scalePtr = 0) (r : Report) :
    StandsOver m h c (reportStore s h c unit d r) := by
  rw [Machine.reportStore, reportTo, if_pos hscale]
  exact (k.noteStat unit r.stat).untouched ⟨rfl, rfl, rfl⟩

theorem done (k : StandsOver m h c s) : StandsOver m h { c with st := .done } (cmdDone s h c) := by
  obtain ⟨⟨n, hn⟩, hm⟩ := k
  exact ⟨⟨n, (findCmd_updCmd_same (by exact fun _ => rfl) hn).trans rfl⟩, hm⟩

end StandsOver

/-! ### Stores -/

theorem setRaw_disps (s : State) (d : Desc) (f : Fmt) (ix : List Nat) (v : Nat) : (d.setRaw s f ix v).disps = s.disps := by
  unfold Desc.setRaw
  dsimp only
  split <;> rfl

theorem setBlock_disps (s : State) (d : Desc) (f : Fmt) (ix : List Nat) (code : Nat) (elems : List Nat) :
    (d.setBlock s f ix code elems).disps = s.disps :=
  (each_preserves State.disps (fun s _ => setRaw_disps s d f _ _) _ _).trans (each_preserves State.disps (fun s _ => setRaw_disps s d f _ _) _ s)

theorem storeTensor_disps (s : State) (d : Desc) (m : StoreMode) (v : List Nat → FVal) : (storeTensor s d m v).1.disps = s.disps := by
  unfold storeTensor
  split
  · rfl
  · next f _ =>
    split
    · rfl
    · split
      · exact (congrArg State.disps (foldl_pair_fst (fun s ix => (storeBlockAt s d f m v ix).1) _ _ _)).trans
          (each_preserves State.disps (fun s ix => setBlock_disps s d f ix _ _) _ s)
      · exact (congrArg State.disps (foldl_pair_fst (fun s ix => d.setRaw s f ix (storeElem f m (d.linear ix) (v ix)).1) _ _ _)).trans
          (each_preserves State.disps (fun s ix => setRaw_disps s d f ix _) _ s)

theorem storeTensor_standsOver {s w : State} {h : Nat} {c : Cmd} {d : Desc} (hwrite : writeRanges s h c d.ranges = (w, .ok []))
    (hc : findCmd s h c.seq = some c) (m : StoreMode) (v : List Nat → FVal) :
    StandsOver (storeTensor w d m v).1.mem h c (storeTensor w d m v).1 :=
  .of_found ((findCmd_of_disps (storeTensor_disps w d m v) h c.seq).trans (((writeRanges_unitsKept hwrite).findCmd h c.seq).trans hc))

section
variable {s w : State} {h : Nat} {c : Cmd} {d : Desc} (hscale : d.scalePtr = 0) (hwrite : writeRanges s h c d.ranges = (w, .ok []))
include hscale hwrite

/-- Where no request waits or fails, a store into a tensor without a scale record is what the command makes of the requests. -/
theorem storing_served (unit : Nat) (k : State → State) : storing s h c unit [d] k = k w := by
  have hrec : ([d].flatMap fun d => recRanges d true).eraseDups = [] := by simp [recRanges, hscale]
  have hranges : [d].flatMap Desc.ranges = d.ranges := by simp
  rw [storing, hrec, touchRanges, hranges]
  simp only [hwrite]
  rfl

theorem storeAndDone_standsOver (hc : findCmd s h c.seq = some c) (unit : Nat) (m : StoreMode) (v : List Nat → FVal) (stat : Nat) :
    StandsOver (storeTensor w d m v).1.mem h { c with st := .done } (storeAndDone s h c unit d m v stat) := by
  rw [storeAndDone, storing_served hscale hwrite]
  exact ((storeTensor_standsOver hwrite hc m v).reportStore unit hscale _).done

end

/-- A product whose slots are in order and whose MEs read their words is stored, unless its command keeps its slots (R126, R129). -/
theorem runProduct_standsOver {s v w : State} {h : Nat} {c : Cmd} {P : Prod} {T : Tiling} {A : AccMode} {d : Desc} (hslots : slotRule s h c P T A = 0)
    (hmes : readMes s h T.mes (P.k != 0) (fun i => if A.accIn then (List.range (T.liveAll P i)).map (A.base + ·) else []) (some (cmdId s h c)) = (v, none))
    (hkeep : A.keep = false) (hscale : d.scalePtr = 0) (hwrite : writeRanges v h c d.ranges = (w, .ok [])) (hc : findCmd s h c.seq = some c)
    (m : StoreMode) (at_ : List Nat → Nat × Nat × Nat) (val : Nat → Nat → Nat → Option Nat → Nat × Nat) (ops : Nat → Nat) (stat : Nat) :
    StandsOver (storeTensor w d m fun ix =>
        accValue P.arr (val (at_ ix).1 (at_ ix).2.1 (at_ ix).2.2 (initOf v h P T A (at_ ix).1 (at_ ix).2.1 (at_ ix).2.2)).1).1.mem
      h { c with st := .done } (runProduct s h c P T A d m at_ val ops stat) := by
  have hcv := ((readMes_unitsKept hmes).findCmd h c.seq).trans hc
  unfold runProduct
  simp only [hslots, hmes, hkeep, Bool.false_eq_true, if_false, storing_served hscale hwrite]
  have hafter (u : State) : Untouched u (each T.mes
      (countOps (readoutSlots u h P T A) h c P.arr (P.k != 0) (T.mes.map fun i => (i, ops i)))
      fun s i => meRan s h i T.shape (fmtCode P.arr) P.passes (P.k != 0)) :=
    (readoutSlots_untouched u h P T A).trans ((countOps_untouched ..).trans (.each (fun _ _ => meRan_untouched ..) _ _))
  exact (((storeTensor_standsOver hwrite hcv m _).reportStore _ hscale _).untouched (hafter _)).done

/-- What a command that stands so means for a statement about its store. -/
theorem storesAndDone_of {h : Fin 16} {c : Cmd} {i : Instr} {s w t : State} {d : Desc} {m : StoreMode} {v : List Nat → FVal}
    (hexec : exec i s = .next t) (k : StandsOver (storeTensor w d m v).1.mem h { c with st := .done } t) : StoresAndDone h c i s w d m v :=
  ⟨t, hexec, k.stands, k.mem⟩

end Sys2Proof.Machine
end

section
/-! SUPPORT. The order of finite values (Table 7-9): it is that of the numbers that they stand for, so a fold of the VMAX rule comes to one of its
values, and none is greater. -/

namespace Sys2Proof.Machine

/-- The number that a finite value stands for. -/
def FVal.toRat : FVal → ℚ
  | .fin neg m e => (if neg then -(m : ℚ) else m) * 2 ^ e
  | _ => 0

theorem FVal.isNan_of_isFinite {a : FVal} (ha : a.isFinite = true) : a.isNan = false := by
  cases a with
  | nan => cases ha
  | inf | fin => rfl

/-- A significand aligned to an exponent is the number in units of that exponent. -/
theorem alignTo_eq {e t : ℤ} (neg : Bool) (m : Nat) (h : t ≤ e) : (alignTo neg m e t : ℚ) = (FVal.fin neg m e).toRat / 2 ^ t := by
  have hpow : ((2 : ℚ) ^ (e - t).toNat) = 2 ^ e / 2 ^ t := by
    rw [← zpow_natCast, Int.toNat_of_nonneg (by omega), zpow_sub₀ two_ne_zero]
  cases neg <;> simp [alignTo, FVal.toRat, hpow, mul_div_assoc, neg_div]

section
variable {a b : FVal} (ha : a.isFinite = true) (hb : b.isFinite = true)
include ha hb

/-- Finite values compare as their numbers in units of the lesser exponent. -/
theorem FVal.cmp_eq_compare : ∃ (x y : ℤ) (t : ℤ), a.cmp b = compare x y ∧ (x : ℚ) = a.toRat / 2 ^ t ∧ (y : ℚ) = b.toRat / 2 ^ t := by
  cases a with
  | fin n₁ m₁ e₁ =>
    cases b with
    | fin n₂ m₂ e₂ => exact ⟨_, _, _, rfl, alignTo_eq n₁ m₁ (min_le_left e₁ e₂), alignTo_eq n₂ m₂ (min_le_right e₁ e₂)⟩
    | nan | inf => cases hb
  | nan | inf => cases ha

theorem FVal.cmp_eq_lt_iff : a.cmp b = .lt ↔ a.toRat < b.toRat := by
  obtain ⟨x, y, t, hcmp, hx, hy⟩ := FVal.cmp_eq_compare ha hb
  have hunit : (0 : ℚ) < 2 ^ t := zpow_pos two_pos t
  rw [hcmp, compare_lt_iff_lt, ← Int.cast_lt (R := ℚ), hx, hy, div_lt_div_iff_of_pos_right hunit]

theorem FVal.cmp_eq_gt_iff : a.cmp b = .gt ↔ b.toRat < a.toRat := by
  obtain ⟨x, y, t, hcmp, hx, hy⟩ := FVal.cmp_eq_compare ha hb
  have hunit : (0 : ℚ) < 2 ^ t := zpow_pos two_pos t
  rw [hcmp, compare_gt_iff_gt, ← Int.cast_lt (R := ℚ), hx, hy, div_lt_div_iff_of_pos_right hunit]

/-- The greater of two values is one of them, and neither is greater. -/
theorem FVal.max_spec : (FVal.max a b = a ∨ FVal.max a b = b) ∧ a.toRat ≤ (FVal.max a b).toRat ∧ b.toRat ≤ (FVal.max a b).toRat := by
  have hlt := FVal.cmp_eq_lt_iff ha hb
  have hgt := FVal.cmp_eq_gt_iff ha hb
  have hnan : (a.isNan || b.isNan) = false := by
    rw [FVal.isNan_of_isFinite ha, FVal.isNan_of_isFinite hb, Bool.or_self]
  rw [FVal.max, hnan, if_neg Bool.false_ne_true]
  cases hcmp : a.cmp b with
  | lt => exact ⟨.inr rfl, (hlt.mp hcmp).le, le_rfl⟩
  | gt => exact ⟨.inl rfl, le_rfl, (hgt.mp hcmp).le⟩
  | eq =>
    have hge : ¬ a.toRat < b.toRat := fun k => absurd ((hlt.mpr k).symm.trans hcmp) (by decide)
    have hle : ¬ b.toRat < a.toRat := fun k => absurd ((hgt.mpr k).symm.trans hcmp) (by decide)
    dsimp only
    split
    · exact ⟨.inr rfl, not_lt.mp hle, le_rfl⟩
    · exact ⟨.inl rfl, le_rfl, not_lt.mp hge⟩

theorem FVal.gt_eq_false_of_le (h : a.toRat ≤ b.toRat) : FVal.gt a b = false := by
  have hcmp : a.cmp b ≠ .gt := fun k => h.not_gt ((FVal.cmp_eq_gt_iff ha hb).mp k)
  simp [FVal.gt, hcmp]

end

/-- The greatest of finite values is one of them, and none is greater. -/
theorem FVal.foldl_max_spec {a : FVal} {xs : List FVal} (ha : a.isFinite = true) (hxs : ∀ x ∈ xs, x.isFinite = true) :
    xs.foldl FVal.max a ∈ a :: xs ∧ ∀ x ∈ a :: xs, x.toRat ≤ (xs.foldl FVal.max a).toRat := by
  induction xs generalizing a with
  | nil => simp
  | cons x xs ih =>
    obtain ⟨hone, hale, hxle⟩ := FVal.max_spec ha (hxs x List.mem_cons_self)
    have hfin : (FVal.max a x).isFinite = true := by
      rcases hone with h | h <;> rw [h]
      · exact ha
      · exact hxs x List.mem_cons_self
    obtain ⟨hmem, hle⟩ := ih hfin fun y hy => hxs y (List.mem_cons_of_mem x hy)
    have hbound := hle (FVal.max a x) List.mem_cons_self
    rw [List.foldl_cons]
    generalize xs.foldl FVal.max (FVal.max a x) = r at hmem hle hbound
    constructor
    · rcases List.mem_cons.mp hmem with rfl | h
      · rcases hone with h | h <;> rw [h] <;> simp
      · simp [h]
    · intro y hy
      rcases List.mem_cons.mp hy with rfl | hy
      · exact hale.trans hbound
      · rcases List.mem_cons.mp hy with rfl | hy
        · exact hxle.trans hbound
        · exact hle y (List.mem_cons_of_mem _ hy)

/-- The VMAX rule over finite values, from −∞ on (R222). -/
theorem FVal.foldl_max_negInf {xs : List FVal} (hne : xs ≠ []) (hxs : ∀ x ∈ xs, x.isFinite = true) :
    xs.foldl FVal.max (.inf true) ∈ xs ∧ ∀ x ∈ xs, FVal.gt x (xs.foldl FVal.max (.inf true)) = false := by
  obtain ⟨a, ys, rfl⟩ := List.exists_cons_of_ne_nil hne
  have ha := hxs a List.mem_cons_self
  have hfirst : FVal.max (.inf true) a = a := by
    cases a with
    | fin => rfl
    | nan | inf => cases ha
  obtain ⟨hmem, hle⟩ := FVal.foldl_max_spec ha fun y hy => hxs y (List.mem_cons_of_mem a hy)
  rw [List.foldl_cons, hfirst]
  exact ⟨hmem, fun x hx => FVal.gt_eq_false_of_le (hxs x hx) (hxs _ hmem) (hle x hx)⟩

end Sys2Proof.Machine
end

section
/-! SUPPORT. CONV and POOL (R198, R208, R209, R221, R222): what their rows come to, case by case, the notice of an empty output, and the statement. -/

namespace Sys2Proof.Machine

/-! ### An empty output (R208, R209) -/

theorem findTicket_ticketFlags {s : State} {key : Nat} {x : Ticket} (m : Nat) (hx : findTicket s key = some x) :
    findTicket (ticketFlags s key m) key = some { x with flags := x.flags ||| m } := by
  have hkeys : (fun t : Ticket => t.key == key) ∘ (fun t => if t.key = key then { t with flags := t.flags ||| m } else t) = (·.key == key) := by
    funext t
    by_cases ht : t.key = key <;> simp [ht]
  have hkey : x.key = key := by simpa using List.find?_some hx
  rw [findTicket] at hx ⊢
  rw [ticketFlags, List.find?_map, hkeys, hx, Option.map_some, if_pos hkey]

/-- The command is done with its notice in the ticket's flags, and no byte of memory has changed. -/
theorem emptyOutput_noted {s : State} {h : Nat} {c : Cmd} (hc : findCmd s h c.seq = some c) (unit : Nat) :
    findCmd (emptyOutput s h c unit) h c.seq = some { c with st := .done } ∧ (emptyOutput s h c unit).mem = s.mem ∧
      ∀ x, findTicket s c.ticket = some x → findTicket (emptyOutput s h c unit) c.ticket = some { x with flags := x.flags ||| 8 } := by
  have hflags : Untouched s (ticketFlags s c.ticket 8) := ⟨rfl, rfl, rfl⟩
  have hevent := emberCode_untouched (ticketFlags s c.ticket 8) unit Code.EMPTY_OUTPUT (some (cmdId s h c))
  have hkept := emberCode_unitsKept (ticketFlags s c.ticket 8) unit Code.EMPTY_OUTPUT (some (cmdId s h c))
  refine ⟨?_, (hflags.trans hevent).mem, fun x hx => ?_⟩
  · exact (cmdDone_commandIs (((hflags.trans hevent).findCmd h c.seq).trans hc)).itself
  · exact (hkept.findTicket c.ticket).trans (findTicket_ticketFlags 8 hx)

/-- An output extent is zero or less where the window is larger than the padded input (R208). -/
theorem Geom.out_nonpos_iff {g : Geom} {i : Nat} (hst : 0 < at3 g.st i) (n : Nat) :
    g.out i n ≤ 0 ↔ (n : Int) + at3 g.lo i + at3 g.hi i < at3 g.dil i * ((at3 g.k i : Int) - 1) + 1 := by
  have hpos : (0 : Int) < at3 g.st i := by omega
  rw [Geom.out, Int.fdiv_eq_ediv_of_nonneg _ hpos.le, Int.add_one_le_iff, Int.ediv_lt_iff_lt_mul hpos]
  omega

/-- Where a POOL's output is empty. -/
def poolEmpty (g : Geom) (a : Desc) : Bool :=
  (List.range 3).any fun i => decide (g.out i (at3 (View.plain g.dims a).x i) ≤ 0) || at3 (View.plain g.dims a).x i == 0

/-- A spatial extent of an image-like tensor (R199). -/
theorem View.plain_extent (dims : Nat) (a : Desc) {i : Nat} (hi : i < 3) :
    at3 (View.plain dims a).x i = if i = 2 ∧ dims = 2 then 1 else a.size (1 + i) := by
  match i with
  | 0 | 1 => simp [View.plain, at3]
  | 2 => simp [View.plain, at3]

theorem poolEmpty_iff {g : Geom} (a : Desc) (hst : ∀ i, i < 3 → 0 < at3 g.st i) : poolEmpty g a = true ↔
    ∃ i, i < 3 ∧ (((if i = 2 ∧ g.dims = 2 then 1 else a.size (1 + i) : Nat) : Int) + at3 g.lo i + at3 g.hi i <
      at3 g.dil i * ((at3 g.k i : Int) - 1) + 1 ∨ (if i = 2 ∧ g.dims = 2 then 1 else a.size (1 + i)) = 0) := by
  simp only [poolEmpty, List.any_eq_true, List.mem_range, Bool.or_eq_true, decide_eq_true_eq, beq_iff_eq]
  refine exists_congr fun i => and_congr_right fun hi => ?_
  rw [Geom.out_nonpos_iff (hst i hi), View.plain_extent g.dims a hi]

/-! ### CONV (R198) -/

/-- The product of every role has the array format of its operands. -/
theorem convProd_arr (s : State) (c : Cmd) (arr : Fmt) (a b d : Desc) : (convProd s c arr a b d).arr = arr := by
  unfold convProd
  dsimp only
  split <;> rfl

section
variable {h : Fin 16} {seq : BitVec 32} {c : Cmd} {s u : State} (hr : Runs h seq 0x11 c s)
include hr

/-- A command without a tensor is done. -/
theorem conv_noTensor (hnone : (convA s c).desc.rank = 0 ∨ (convB s c).desc.rank = 0 ∨ (convC s c).desc.rank = 0) :
    exec (.conv h seq) s = .next (cmdDone s h c) := by
  show execConv h seq s = _
  rw [execConv, opRow_runs hr]
  dsimp only
  split
  · rw [if_pos (hnone.imp_right (.imp_right .inl))]
  · rfl

variable {a b d : Desc} (hda : (convA s c).desc = a) (hdb : (convB s c).desc = b) (hdc : (convC s c).desc = d)
  {fa fb : Fmt} (hfa : a.format = some fa) (hfb : b.format = some fb) (hknown : ¬ (a.rank = 0 ∨ b.rank = 0 ∨ d.rank = 0))
include hda hdb hdc hfa hfb

/-- So is one whose filter has no taps, or that has no groups (R210). -/
theorem conv_noTaps (hnone : (convOp c a b d).g.taps = 0 ∨ (convOp c a b d).g.groups = 0) :
    exec (.conv h seq) s = .next (cmdDone s h c) := by
  show execConv h seq s = _
  rw [execConv, opRow_runs hr]
  simp only [hda, hdb, hdc, hfa, hfb]
  rw [if_pos (.inr (.inr (.inr hnone)))]

variable (htaps : (convOp c a b d).g.taps ≠ 0) (hgroups : (convOp c a b d).g.groups ≠ 0)
include hknown htaps hgroups

/-- One with an empty output is done with its notice (R209). -/
theorem conv_empty (hempty : convEmpty c (convOp c a b d) = true) : exec (.conv h seq) s = .next (emptyOutput s h c (U.disp h)) := by
  show execConv h seq s = _
  rw [execConv, opRow_runs hr]
  simp only [hda, hdb, hdc, hfa, hfb]
  rw [if_neg (by tauto), if_pos hempty]

variable (hsome : convEmpty c (convOp c a b d) = false)
include hsome

/-- A command that streams nothing is done (R123). -/
theorem conv_noStream (hstream : noStream (if c.wino = 0 then convProd s c ((pairFormat fa fb c.passes).getD .bf16) a b d
      else winoRows s c a b (convOp c a b d)) c = true) : exec (.conv h seq) s = .next (cmdDone s h c) := by
  show execConv h seq s = _
  rw [execConv, opRow_runs hr]
  simp only [hda, hdb, hdc, hfa, hfb]
  rw [if_neg (by tauto), if_neg (by simp [hsome]), if_pos hstream]

/-- Else its product runs on what its reads leave. -/
theorem conv_runs (hwino : c.wino = 0) {P : Prod} (hP : convProd s c ((pairFormat fa fb c.passes).getD .bf16) a b d = P)
    (hstream : noStream P c = false) (hread : readRanges s h c
      (convReads c (convOp c a b d) a ++ b.ranges ++ recRanges a false ++ recRanges b false) = (u, .ok ())) :
    exec (.conv h seq) s = .next (runProduct u h c P (c.tiling false) c.acc d (readoutMode u c a b d) (convAt c (convOp c a b d))
      (if c.role = 1 then dgradVal (convOp c a b d) P else accumulate P) (opsOf P (c.tiling false))
      (padLane u (convOp c a b d).g P.arr c.passes c.subn a).stat) := by
  show execConv h seq s = _
  rw [execConv, opRow_runs hr]
  simp only [hda, hdb, hdc, hfa, hfb, hwino, hP, if_true]
  rw [if_neg (by tauto), if_neg (by simp [hsome]), if_neg (by simp [hstream]), hread]
  rfl

end

/-! ### POOL (R221, R222) -/

section
variable {h : Fin 16} {seq : BitVec 32} {c : Cmd} {s u : State} (hr : Runs h seq 0x12 c s) {a d : Desc} {g : Geom}
  (hda : (poolA s c).desc = a) (hdc : (poolC s c).desc = d) (hg : Geom.parse c.geom = g)
include hr hda hdc hg

/-- A command without a tensor, a tap or a core is done. -/
theorem pool_idle (hnone : a.rank = 0 ∨ d.rank = 0 ∨ g.taps = 0 ∨ c.awlMask = 0) : exec (.pool h seq) s = .next (cmdDone s h c) := by
  show execPool h seq s = _
  rw [execPool, opRow_runs hr]
  simp only [hda, hdc, hg]
  rw [if_pos hnone]

variable (hwork : ¬ (a.rank = 0 ∨ d.rank = 0 ∨ g.taps = 0 ∨ c.awlMask = 0))
include hwork

theorem pool_empty (hempty : poolEmpty g a = true) : exec (.pool h seq) s = .next (emptyOutput s h c (U.disp h)) := by
  rw [poolEmpty] at hempty
  show execPool h seq s = _
  rw [execPool, opRow_runs hr]
  simp only [hda, hdc, hg]
  rw [if_neg hwork, if_pos hempty]

/-- Else it stores its pooled values on what its reads leave. -/
theorem pool_runs (hsome : poolEmpty g a = false) (hread : readRanges (poolCores s h c) h c (poolReads g a ++ recRanges a false) = (u, .ok ())) :
    ∃ unit stat, exec (.pool h seq) s =
      .next (storeAndDone u h c unit d (plainMode u c d) (fun ix => (poolValue u c g a ix).1) stat) := by
  rw [poolEmpty] at hsome
  show ∃ unit stat, execPool h seq s = _
  rw [execPool, opRow_runs hr]
  simp only [hda, hdc, hg]
  rw [if_neg hwork, if_neg (by simp [hsome]), hread]
  exact ⟨_, _, rfl⟩

end

/-- A POOL that has run on its cores leaves the windows of the dispatchers as they stand. -/
theorem poolCores_disps (s : State) (h : Nat) (c : Cmd) : (poolCores s h c).disps = s.disps :=
  each_preserves State.disps (by exact fun _ _ => rfl) _ s

/-! ### Maximum pooling (R222) -/

/-- The spatial position of an output. -/
def poolSpot (g : Geom) (ix : List Nat) : List Nat :=
  if g.dims = 2 then [ix.getD 1 0, ix.getD 2 0, 0] else [ix.getD 1 0, ix.getD 2 0, ix.getD 3 0]

/-- The positions that the image taps of an output's window read (R204). -/
def poolWindow (g : Geom) (a : Desc) (ix : List Nat) : List (List Nat) :=
  (List.range g.taps).filterMap fun t => g.tapPos (View.plain g.dims a).x (poolSpot g ix) (g.tap t)

/-- The value that an image tap at a position contributes to an output. -/
def poolTap (s : State) (c : Cmd) (g : Geom) (a : Desc) (ix p : List Nat) : FVal :=
  (scaledElem s c.subn a ((View.plain g.dims a).ix (ix.getD 0 0) p (ix.getD (g.dims + 1) 0))).1

/-- Maximum pooling is the VMAX rule over the image taps of a window that has any. -/
theorem poolValue_max {g : Geom} {a : Desc} {ix : List Nat} (s : State) (c : Cmd) (hpool : g.pool = 1) (hne : poolWindow g a ix ≠ []) :
    (poolValue s c g a ix).1 = ((poolWindow g a ix).map (poolTap s c g a ix)).foldl FVal.max (.inf true) := by
  have himage : ((List.range g.taps).map fun t => g.tapPos (View.plain g.dims a).x (poolSpot g ix) (g.tap t)).filterMap id = poolWindow g a ix := by
    rw [List.filterMap_map]
    rfl
  simp only [poolSpot] at himage
  simp only [poolValue, himage, hpool, List.isEmpty_iff, if_neg hne, List.foldl_map]
  rfl

/-- The largest of a window's finite values is one of them, and none is greater. -/
theorem poolValue_greatest {g : Geom} {a : Desc} {ix : List Nat} (s : State) (c : Cmd) (hpool : g.pool = 1) (hne : poolWindow g a ix ≠ [])
    (hfin : ∀ p ∈ poolWindow g a ix, (poolTap s c g a ix p).isFinite = true) :
    (∃ p ∈ poolWindow g a ix, (poolValue s c g a ix).1 = poolTap s c g a ix p) ∧
      ∀ p ∈ poolWindow g a ix, FVal.gt (poolTap s c g a ix p) (poolValue s c g a ix).1 = false := by
  obtain ⟨hmem, hgreatest⟩ := FVal.foldl_max_negInf (xs := (poolWindow g a ix).map (poolTap s c g a ix)) (by simpa using hne) (by simpa using hfin)
  rw [← poolValue_max s c hpool hne] at hmem hgreatest
  obtain ⟨p, hp, hval⟩ := List.mem_map.mp hmem
  exact ⟨⟨p, hp, hval.symm⟩, fun q hq => hgreatest _ (List.mem_map_of_mem hq)⟩

/-! ### The statement -/

/-- Settles O43: each case of a row by its equation, an empty output by `emptyOutput_noted`, a store by what it leaves of its command
(`runProduct_standsOver`, `storeAndDone_standsOver`), and maximum pooling by `poolValue_greatest`. -/
theorem convolutionAndPooling : Obligations.ConvolutionAndPooling := by
  intro h seq c s u v w
  refine ⟨fun hr => ?_, fun hr => ?_, fun g a ix hpool => poolValue_greatest s c hpool⟩
  · have hdone := cmdDone_commandIs hr.findCmd
    refine ⟨fun hnone => ⟨_, conv_noTensor hr hnone, hdone⟩, fun fa fb arr hfa hfb harr hknown => ?_⟩
    subst harr
    refine ⟨fun hnone => ⟨_, conv_noTaps hr rfl rfl rfl hfa hfb hnone, hdone⟩, fun htaps hgroups hempty => ?_,
      fun htaps hgroups hsome hstream => ?_, ?_⟩
    · exact ⟨_, conv_empty hr rfl rfl rfl hfa hfb hknown htaps hgroups hempty, emptyOutput_noted hr.findCmd _⟩
    · exact ⟨_, conv_noStream hr rfl rfl rfl hfa hfb hknown htaps hgroups hsome hstream, hdone⟩
    · intro P T sum _ htaps hgroups hsome hwino hstream hread hslots hmes hkeep hscale hwrite
      have hc := ((readRanges_unitsKept hread).findCmd h c.seq).trans hr.findCmd
      have hrun := conv_runs hr rfl rfl rfl hfa hfb hknown htaps hgroups hsome hwino rfl hstream hread
      have hstands := runProduct_standsOver hslots hmes hkeep hscale hwrite hc (readoutMode u c (convA s c).desc (convB s c).desc (convC s c).desc)
        (convAt c (convOp c (convA s c).desc (convB s c).desc (convC s c).desc))
        (if c.role = 1 then dgradVal (convOp c (convA s c).desc (convB s c).desc (convC s c).desc) P else accumulate P) (opsOf P T)
        (padLane u (convOp c (convA s c).desc (convB s c).desc (convC s c).desc).g P.arr c.passes c.subn (convA s c).desc).stat
      rw [show P.arr = _ from convProd_arr ..] at hstands hrun
      exact storesAndDone_of hrun hstands
  · intro a d g x empty
    refine ⟨fun hnone => ⟨_, pool_idle hr rfl rfl rfl hnone, cmdDone_commandIs hr.findCmd⟩, fun hst hwork => ?_⟩
    have hiff : poolEmpty g a = true ↔ empty := poolEmpty_iff a hst
    refine ⟨fun hempty => ⟨_, pool_empty hr rfl rfl rfl hwork (hiff.mpr hempty), emptyOutput_noted hr.findCmd _⟩, fun hsome hread hwrite hscale => ?_⟩
    have hc : findCmd u h c.seq = some c :=
      ((readRanges_unitsKept hread).findCmd h c.seq).trans ((findCmd_of_disps (poolCores_disps s h c) h c.seq).trans hr.findCmd)
    obtain ⟨unit, stat, hrun⟩ := pool_runs hr rfl rfl rfl hwork (Bool.eq_false_iff.mpr fun k => hsome (hiff.mp k)) hread
    exact storesAndDone_of hrun (storeAndDone_standsOver hscale hwrite hc unit _ _ stat)

end Sys2Proof.Machine
end

section
/-! SUPPORT. The home sequencer of a KV cache (R241): what its requests leave alone, copies between the near tier and a swap area, numbers in memory,
and the free ring. -/

namespace Sys2Proof.Machine

/-! ### What the sequencer's work leaves alone -/

theorem peekBytes_of_mem {s t : State} (hm : t.mem = s.mem) (a n : Nat) : peekBytes t a n = peekBytes s a n := by
  rw [peekBytes, hm, peekBytes]

theorem peekNat_of_mem {s t : State} (hm : t.mem = s.mem) (a n : Nat) : peekNat t a n = peekNat s a n := by
  rw [peekNat, peekBytes_of_mem hm, peekNat]

/-- The flipped symbols, the windows, the tickets, and the walks and commits of the caches stand as they did. -/
structure Still (s t : State) : Prop where
  symErr : t.symErr = s.symErr
  disps : t.disps = s.disps
  tickets : t.tickets = s.tickets
  walks : t.walks = s.walks
  commits : t.commits = s.commits

namespace Still
variable {s t u : State}

theorem refl (s : State) : Still s s := ⟨rfl, rfl, rfl, rfl, rfl⟩

theorem trans (a : Still s t) (b : Still t u) : Still s u :=
  ⟨b.symErr.trans a.symErr, b.disps.trans a.disps, b.tickets.trans a.tickets, b.walks.trans a.walks, b.commits.trans a.commits⟩

theorem poke (h : Still s t) (a : Nat) (d : Bytes) : Still s (Machine.poke t a d) := h.trans ⟨rfl, rfl, rfl, rfl, rfl⟩

theorem findWalk (k : Still s t) (h q : Nat) : findWalk t h q = findWalk s h q := by rw [Machine.findWalk, k.walks, Machine.findWalk]

end Still

/-- Nor does a byte of memory change. -/
structure Quiet (s t : State) : Prop extends Still s t where
  mem : t.mem = s.mem

namespace Quiet
variable {s t u : State}

theorem refl (s : State) : Quiet s s := ⟨.refl s, rfl⟩

theorem trans (a : Quiet s t) (b : Quiet t u) : Quiet s u := ⟨a.toStill.trans b.toStill, b.mem.trans a.mem⟩

theorem wr (h : Quiet s t) (f : Fld) (v : Nat) : Quiet s (Machine.wr t f v) := h.trans ⟨⟨rfl, rfl, rfl, rfl, rfl⟩, rfl⟩

theorem satAdd (h : Quiet s t) (f : Fld) (n : Nat) : Quiet s (Machine.satAdd t f n) := h.wr f _

theorem emberCode (h : Quiet s t) (unit code : Nat) (c : Option CmdId) : Quiet s (Machine.emberCode t unit code c) := by
  refine h.trans ?_
  cases c <;> rw [Machine.emberCode, emberPut_frame] <;> exact ⟨⟨rfl, rfl, rfl, rfl, rfl⟩, rfl⟩

theorem poke (h : Quiet s t) (a : Nat) (d : Bytes) : Quiet (Machine.poke s a d) (Machine.poke t a d) :=
  ⟨⟨h.symErr, h.disps, h.tickets, h.walks, h.commits⟩, congrArg (·.setBytes a d) h.mem⟩

theorem peekBytes (h : Quiet s t) (a n : Nat) : peekBytes t a n = peekBytes s a n := peekBytes_of_mem h.mem a n

theorem peekNat (h : Quiet s t) (a n : Nat) : peekNat t a n = peekNat s a n := peekNat_of_mem h.mem a n

theorem inv (h : Quiet s t) (hs : Inv s) : Inv t := by rwa [Inv, h.mem]

theorem bytesKept (h : Quiet s t) (rs : List (Nat × Nat)) : BytesKept s t rs := fun a _ => by rw [peek, h.mem, peek]

theorem ite {α : Type} {p : Prop} [Decidable p] {x y : State × α} (hx : Quiet s x.1) (hy : Quiet s y.1) : Quiet s (if p then x else y).1 := by
  split
  · exact hx
  · exact hy

end Quiet

theorem raiseVec_quiet (s : State) (p v : Nat) : Quiet s (raiseVec s p v) := by
  unfold raiseVec msixSend
  dsimp only
  split
  · exact .refl s
  · split <;> exact ⟨⟨rfl, rfl, rfl, rfl, rfl⟩, rfl⟩

/-! ### Requests -/

theorem access_quiet {s : State} (hclean : s.symErr = []) (id a n : Nat) (write : Bool) (cmd : Option CmdId) :
    Quiet s (access s id a n write cmd).1 := by
  unfold access
  extract_lets sec c d
  split
  · exact .refl s
  · exact .refl s
  · have hheal : Quiet s (healSector { s with poison := s.poison.filter (· != sec) } sec) :=
      ⟨⟨show s.symErr.filter _ = s.symErr by rw [hclean]; rfl, rfl, rfl, rfl, rfl⟩, rfl⟩
    rw [eccRead_clean hclean]
    have hcount (i : Nat) : Quiet s (cntMem s d i 1) := (Quiet.refl s).wr _ _
    exact .ite (hcount 12) (.ite (.refl s) (.ite (hcount 12) (.ite (.refl s)
      (.ite (hheal.wr _ _) (.ite (((Quiet.refl s).wr _ _).wr _ _) (hcount _))))))
  · refine .ite (.ite (.refl s) (.refl s)) (.ite (.refl s) (.ite ((((Quiet.refl s).wr _ _).satAdd _ _).wr _ _) ?_))
    cases write <;> exact ⟨⟨rfl, rfl, rfl, rfl, rfl⟩, rfl⟩
  · have hraise := raiseVec_quiet s
    exact .ite (.refl s) (.ite (hraise _ 4) (.ite (hraise _ 4) (.ite (hraise _ 4) (.ite (hraise _ 4) ⟨⟨rfl, rfl, rfl, rfl, rfl⟩, rfl⟩))))
  · split
    · exact .refl s
    · exact .ite ⟨⟨rfl, rfl, rfl, rfl, rfl⟩, rfl⟩ (.ite (.refl s) (.ite (.refl s) (.refl s)))

section
variable {id : Nat} {cmd : Option CmdId}

theorem touchFrom_quiet {write : Bool} {fuel : Nat} {s : State} {a n : Nat} (hclean : s.symErr = []) :
    Quiet s (touchFrom s id write cmd fuel a n).1 := by
  induction fuel generalizing s a n with
  | zero => exact .refl s
  | succ fuel ih =>
    have hacc := access_quiet hclean id a (min n (64 - a % 64)) write cmd
    rw [touchFrom]
    refine .ite (.refl s) ?_
    dsimp only
    split
    · next heq => rw [heq] at hacc; exact hacc.trans (ih (hacc.symErr.trans hclean))
    · exact hacc

theorem touchRanges_quiet {write : Bool} {rs : List (Nat × Nat)} {s t : State} {x : Req Unit} (hclean : s.symErr = [])
    (h : touchRanges s id write cmd rs = (t, x)) : Quiet s t := by
  induction rs generalizing s with
  | nil => cases h; exact .refl _
  | cons r rs ih =>
    obtain ⟨a, n⟩ := r
    have hfirst : Quiet s (touchFrom s id write cmd (n / 64 + 2) a n).1 := touchFrom_quiet hclean
    rw [touchRanges] at h
    split at h
    · next heq => rw [heq] at hfirst; exact hfirst.trans (ih (hfirst.symErr.trans hclean) h)
    · rwa [h] at hfirst

end

theorem kvTouch_quiet {s t : State} {h : Nat} {c : Cmd} {reads writes : List (Nat × Nat)} {x : Req Unit} (hclean : s.symErr = [])
    (ht : kvTouch s h c reads writes = (t, x)) : Quiet s t := by
  unfold kvTouch at ht
  split at ht
  · next hread =>
    have hu := touchRanges_quiet hclean hread
    exact hu.trans (touchRanges_quiet (hu.symErr.trans hclean) ht)
  · exact touchRanges_quiet hclean ht

/-! ### Copies below the banks (R247) -/

/-- The first address of the banks (Table 12-1): below it an address is its own plain address, and a write is no merge (R333). -/
def banksStart : Nat := 0xF00000000000

theorem bankOf_below (s : State) {a : Nat} (h : a < banksStart) : bankOf s a = none := by
  have h' : ¬ 0xF00000000000 ≤ a := Nat.not_le.mpr h
  have h'' : ¬ 0xF000F0000000 ≤ a := fun k => h' (Nat.le_trans (by decide) k)
  unfold bankOf regionOf
  simp only [h', h'', false_and, if_false]
  split_ifs <;> rfl

theorem plainAddr_below (s : State) {a : Nat} (h : a < banksStart) : plainAddr s a = a := by rw [plainAddr, bankOf_below s h]

theorem mergeAlias_below (s : State) {a : Nat} (h : a < banksStart) (d : Bytes) : mergeAlias s a d = d := by rw [mergeAlias, bankOf_below s h]

section
variable {id : Nat} {cmd : Option CmdId}

theorem readFrom_quiet {fuel : Nat} {s t : State} {a n : Nat} {b : Bytes} (hclean : s.symErr = []) (hfuel : n ≤ fuel)
    (h : readFrom s id cmd fuel a n = (t, .ok b)) : Quiet s t ∧ (a + n ≤ banksStart → b = peekBytes s a n) := by
  induction fuel generalizing s a n b with
  | zero =>
    obtain rfl : n = 0 := by omega
    cases h
    exact ⟨.refl _, fun _ => rfl⟩
  | succ fuel ih =>
    by_cases hn : n = 0
    · rw [readFrom, if_pos hn] at h
      cases h
      subst hn
      exact ⟨.refl _, fun _ => rfl⟩
    · obtain ⟨u, d, hacc, hrest, rfl⟩ := readFrom_ok hn h
      generalize hk : min n (64 - a % 64) = k at hacc hrest ⊢
      have hu : Quiet s u := by simpa only [hacc] using access_quiet hclean id a k false cmd
      obtain ⟨ht, hd⟩ := ih (hu.symErr.trans hclean) (by omega) hrest
      refine ⟨hu.trans ht, fun hbelow => ?_⟩
      rw [plainAddr_below u (by omega), hd (by omega), ← peekBytes_add, hu.peekBytes]
      congr 1
      omega

theorem memRead_quiet {s t : State} {a n : Nat} {b : Bytes} (hclean : s.symErr = []) (h : memRead s id a n cmd = (t, .ok b)) : Quiet s t :=
  (readFrom_quiet hclean (Nat.le_succ n) h).1

theorem memRead_below {s t : State} {a n : Nat} {b : Bytes} (hclean : s.symErr = []) (hbelow : a + n ≤ banksStart)
    (h : memRead s id a n cmd = (t, .ok b)) : b = peekBytes s a n :=
  (readFrom_quiet hclean (Nat.le_succ n) h).2 hbelow

theorem writeTo_quiet {fuel : Nat} {s t : State} {a : Nat} {d : Bytes} (hclean : s.symErr = []) (hfuel : d.length ≤ fuel)
    (hbelow : a + d.length ≤ banksStart) (h : writeTo s id cmd fuel a d = (t, .ok ())) : Quiet (poke s a d) t := by
  induction fuel generalizing s a d with
  | zero =>
    obtain rfl : d = [] := List.eq_nil_of_length_eq_zero (by omega)
    cases h
    exact .refl _
  | succ fuel ih =>
    by_cases hd : d.length = 0
    · obtain rfl := List.eq_nil_of_length_eq_zero hd
      cases h
      exact .refl _
    · obtain ⟨u, hacc, hrest⟩ := writeTo_ok hd h
      generalize hk : min d.length (64 - a % 64) = k at hacc hrest
      have hu : Quiet s u := by simpa only [hacc] using access_quiet hclean id a k true cmd
      have hlen : (d.take k).length = k := by rw [List.length_take]; omega
      rw [plainAddr_below u (by omega), mergeAlias_below u (by omega)] at hrest
      have ht := ih (s := poke u a (d.take k)) (hu.symErr.trans hclean) (by rw [List.length_drop]; omega) (by rw [List.length_drop]; omega) hrest
      have hsplit := poke_append s a (d.take k) (d.drop k)
      rw [List.take_append_drop, hlen] at hsplit
      exact hsplit ▸ ((hu.poke a _).poke _ _).trans ht

theorem memWrite_quiet {s t : State} {a : Nat} {d : Bytes} (hclean : s.symErr = []) (hbelow : a + d.length ≤ banksStart)
    (h : memWrite s id a d cmd = (t, .ok ())) : Quiet (poke s a d) t :=
  writeTo_quiet hclean (Nat.le_succ _) hbelow h

/-- Bytes that are read and then written stand as they stood where they were read. -/
theorem readWrite_quiet {s u t : State} {n src dst : Nat} {d : Bytes} (hclean : s.symErr = []) (hsrc : src + n ≤ banksStart)
    (hdst : dst + n ≤ banksStart) (hread : memRead s id src n cmd = (u, .ok d)) (hwrite : memWrite u id dst d cmd = (t, .ok ())) :
    Quiet (poke s dst (peekBytes s src n)) t := by
  have hu := memRead_quiet hclean hread
  obtain rfl := memRead_below hclean hsrc hread
  exact (hu.poke dst _).trans (memWrite_quiet (hu.symErr.trans hclean) (by rwa [peekBytes_length]) hwrite)

theorem copyPages_one {s t : State} {n src dst : Nat} (hclean : s.symErr = []) (hsrc : src + n ≤ banksStart) (hdst : dst + n ≤ banksStart)
    (h : copyPages s id cmd n [(src, dst)] = (t, .ok ())) : Quiet (poke s dst (peekBytes s src n)) t := by
  unfold copyPages at h
  split at h
  · cases h
  · cases h
  · next u d hread =>
    split at h
    · next v _ hwrite =>
      cases h
      exact readWrite_quiet hclean hsrc hdst hread hwrite
    · next hnot => exact absurd h (hnot _ _)

end

/-! ### Bytes and numbers of memory -/

/-- One of two ranges of bytes, first address and length, ends before the other begins. -/
def Apart (x y : Nat × Nat) : Prop := x.1 + x.2 ≤ y.1 ∨ y.1 + y.2 ≤ x.1

namespace BytesKept
variable {s t u : State} {rs qs : List (Nat × Nat)}

theorem trans (h : BytesKept s t rs) (k : BytesKept t u qs) : BytesKept s u (rs ++ qs) := fun a ha =>
  (k a fun r hr => ha r (List.mem_append_right _ hr)).trans (h a fun r hr => ha r (List.mem_append_left _ hr))

/-- A frame within a wider one. -/
theorem widen (h : BytesKept s t rs) (hsub : ∀ r ∈ rs, ∃ q ∈ qs, q.1 ≤ r.1 ∧ r.1 + r.2 ≤ q.1 + q.2) : BytesKept s t qs := fun a ha =>
  h a fun r hr hin => by
    obtain ⟨q, hq, hlo, hhi⟩ := hsub r hr
    exact ha q hq ⟨Nat.le_trans hlo hin.1, Nat.lt_of_lt_of_le hin.2 hhi⟩

theorem of_mem (h : BytesKept s t rs) (hm : u.mem = t.mem) : BytesKept s u rs := fun a ha => (congrArg (·.get a) hm).trans (h a ha)

theorem peekBytes (h : BytesKept s t rs) {a n : Nat} (hapart : ∀ r ∈ rs, Apart (a, n) r) : peekBytes t a n = peekBytes s a n := by
  refine List.map_congr_left fun i hi => h _ fun r hr hin => ?_
  have := List.mem_range.mp hi
  have := hapart r hr
  simp only [Apart, inRange] at this hin
  omega

theorem peekNat (h : BytesKept s t rs) {a n : Nat} (hapart : ∀ r ∈ rs, Apart (a, n) r) : peekNat t a n = peekNat s a n := by
  rw [Machine.peekNat, h.peekBytes hapart, Machine.peekNat]

end BytesKept

theorem poke_leBytes_kept (s : State) (a n v : Nat) : BytesKept s (poke s a (leBytes n v)) [(a, n)] := by
  have h := poke_bytesKept s a (leBytes n v)
  rwa [leBytes_length] at h

theorem peekNat_poke_same {s : State} (hs : Inv s) (a n v : Nat) : peekNat (poke s a (leBytes n v)) a n = v % 2 ^ (8 * n) := by
  have h := peekBytes_poke hs a (leBytes n v)
  rw [leBytes_length] at h
  rw [peekNat, h, leNat_leBytes]

theorem peekNat_poke_apart (s : State) {a x n m v : Nat} (h : Apart (x, m) (a, n)) : peekNat (poke s a (leBytes n v)) x m = peekNat s x m :=
  (poke_leBytes_kept s a n v).peekNat fun r hr => by rwa [List.mem_singleton.mp hr]

theorem poke_inv {s : State} (hs : Inv s) (a : Nat) (d : Bytes) : Inv (poke s a d) := Memory.setBytes_wf hs a d

/-- The bytes at one place stand at another too, and nothing else of memory has changed. -/
structure Copied (src dst n : Nat) (s t : State) : Prop extends Still s t where
  inv : Inv t
  bytes : peekBytes t dst n = peekBytes s src n
  kept : BytesKept s t [(dst, n)]

theorem Copied.of_poke {s t : State} {src dst n : Nat} (hs : Inv s) (h : Quiet (poke s dst (peekBytes s src n)) t) : Copied src dst n s t := by
  have hback := peekBytes_poke hs dst (peekBytes s src n)
  have hkept := poke_bytesKept s dst (peekBytes s src n)
  rw [peekBytes_length] at hback hkept
  exact ⟨((Still.refl s).poke _ _).trans h.toStill, h.inv (poke_inv hs _ _), (h.peekBytes _ _).trans hback, hkept.of_mem h.mem⟩

theorem pokeAll_inv {α : Type} {a : α → Nat} {b : α → Bytes} (xs : List α) {s : State} (hs : Inv s) : Inv (pokeAll xs s a b) := by
  induction xs generalizing s with
  | nil => exact hs
  | cons x xs ih => exact ih (poke_inv hs (a x) (b x))

theorem peekNat_lt (s : State) (a n : Nat) : peekNat s a n < 2 ^ (8 * n) := by
  have h := leNat_lt (peekBytes s a n)
  rwa [peekBytes_length] at h

/-! ### The free ring (R241) -/

theorem KvRec.at_ringSize_lt (s : State) (a : Nat) : (KvRec.at s a).ringSize < 2 ^ 32 := by
  refine Nat.lt_of_lt_of_le (leNat_lt (((peekBytes s a 128).drop 0x30).take 4)) (Nat.pow_le_pow_right (by decide) ?_)
  have := List.length_take_le 4 ((peekBytes s a 128).drop 0x30)
  omega

/-- Two entries of a ring of this size are apart, unless their indices are a whole turn away from each other. -/
theorem ringSlots_apart {ring size b i j : Nat} (hi : i < size) (hj : j < size) (hne : i ≠ j) :
    Apart (ring + 8 * ((b + i) % size), 8) (ring + 8 * ((b + j) % size), 8) := by
  have hmod : (b + i) % size ≠ (b + j) % size := fun heq => by
    have hcancel : i % size = j % size := Nat.ModEq.add_left_cancel' b heq
    rw [Nat.mod_eq_of_lt hi, Nat.mod_eq_of_lt hj] at hcancel
    exact hne hcancel
  simp only [Apart]
  omega

theorem ringSlot_within {ring size i : Nat} (hsize : 0 < size) : ring ≤ ring + 8 * (i % size) ∧ ring + 8 * (i % size) + 8 ≤ ring + 8 * size := by
  have := Nat.mod_lt i hsize
  omega

theorem zip_map_range_eq {α β : Type} (f : Nat → α) (ps : List β) (d : β) :
    ((List.range ps.length).map f).zip ps = (List.range ps.length).map fun i => (f i, ps.getD i d) := by
  apply List.ext_getElem
  · simp
  · intro i _ hi
    have hi' : i < ps.length := by simpa using hi
    simp [hi']

/-- Pages written into the ring in order, the first at index b. -/
def KvRec.fillRing (s : State) (r : KvRec) (b : Nat) (ps : List Nat) : State :=
  pokeAll (List.range ps.length) s (fun i => r.ring + 8 * ((b + i) % r.ringSize)) fun i => leBytes 8 (ps.getD i 0)

section
variable {r : KvRec} {s : State} {b : Nat} {ps : List Nat}

theorem KvRec.fillRing_still : Still s (r.fillRing s b ps) := by
  rw [KvRec.fillRing, pokeAll_frame]
  exact ⟨rfl, rfl, rfl, rfl, rfl⟩

theorem KvRec.fillRing_kept (hlen : ps.length ≤ r.ringSize) : BytesKept s (r.fillRing s b ps) [(r.ring, 8 * r.ringSize)] := by
  intro x hx
  have hout := hx _ (List.mem_singleton_self _)
  refine peek_pokeAll_outside fun i hi => ?_
  have hi' := List.mem_range.mp hi
  have := ringSlot_within (ring := r.ring) (i := b + i) (size := r.ringSize) (by omega)
  simp only [inRange, leBytes_length] at hout ⊢
  omega

theorem KvRec.peekNat_fillRing (hs : Inv s) (hlen : ps.length ≤ r.ringSize) (hps : ∀ p ∈ ps, p < 2 ^ 64) {i : Nat} (hi : i < ps.length) :
    peekNat (r.fillRing s b ps) (r.ring + 8 * ((b + i) % r.ringSize)) 8 = ps.getD i 0 := by
  have hread := peekBytes_pokeAll (a := fun i => r.ring + 8 * ((b + i) % r.ringSize)) (b := fun i => leBytes 8 (ps.getD i 0)) hs
    (List.mem_range.mpr hi) fun j hj hne => by
      have hj' := List.mem_range.mp hj
      simpa only [leBytes_length, Apart] using ringSlots_apart (by omega) (by omega) (Ne.symm hne)
  simp only [leBytes_length] at hread
  rw [peekNat, KvRec.fillRing, hread, leNat_leBytes, List.getD_eq_getElem _ _ hi, Nat.mod_eq_of_lt (hps _ (List.getElem_mem hi))]

end

/-- The pages have joined the ring in order, and nothing else of memory has changed. -/
structure Pushed (r : KvRec) (ps : List Nat) (s t : State) : Prop extends Still s t where
  inv : Inv t
  count : r.freeCount t = r.freeCount s + ps.length
  slots : ∀ i, i < ps.length → peekNat t (r.ring + 8 * ((r.freeHead s + r.freeCount s + i) % r.ringSize)) 8 = ps.getD i 0
  kept : BytesKept s t [(r.addr + 0x38, 4), (r.ring, 8 * r.ringSize)]

section
variable {r : KvRec} {s t : State} {h : Nat} {c : Cmd} {ps : List Nat} (hclean : s.symErr = []) (hroom : r.freeCount s + ps.length ≤ r.ringSize)
  (hpush : r.push s h c ps = (t, .ok ()))
include hclean hroom hpush

/-- A push that is served, where the ring has room for its pages. -/
theorem KvRec.push_served : ∃ u, Quiet s u ∧
    t = poke (r.fillRing u (r.freeHead s + r.freeCount s) ps) (r.addr + 0x38) (leBytes 4 (r.freeCount s + ps.length)) := by
  have htake : ps.take (r.ringSize - r.freeCount s) = ps := List.take_of_length_le (by omega)
  unfold KvRec.push at hpush
  simp only [htake] at hpush
  split at hpush
  · next u _ htouch =>
    cases hpush
    refine ⟨u, kvTouch_quiet hclean htouch, ?_⟩
    rw [KvRec.fillRing, pokeAll, KvRec.ringRanges, zip_map_range_eq _ _ 0, each, List.foldl_map]
    rfl
  · next hnot => exact absurd hpush (hnot _ _)

theorem KvRec.push_pushed (hs : Inv s) (hsize : r.ringSize < 2 ^ 32) (hapart : Apart (r.addr, 128) (r.ring, 8 * r.ringSize))
    (hps : ∀ p ∈ ps, p < 2 ^ 64) : Pushed r ps s t := by
  obtain ⟨u, hu, rfl⟩ := KvRec.push_served hclean hroom hpush
  have hlen : ps.length ≤ r.ringSize := by omega
  have hinv : Inv (r.fillRing u (r.freeHead s + r.freeCount s) ps) := pokeAll_inv _ (hu.inv hs)
  refine ⟨(hu.toStill.trans KvRec.fillRing_still).poke _ _, poke_inv hinv _ _, ?_, fun i hi => ?_, ?_⟩
  · rw [KvRec.freeCount, peekNat_poke_same hinv, Nat.mod_eq_of_lt (by omega), KvRec.freeCount]
  · rw [peekNat_poke_apart, KvRec.peekNat_fillRing (hu.inv hs) hlen hps hi]
    have := ringSlot_within (ring := r.ring) (i := r.freeHead s + r.freeCount s + i) (size := r.ringSize) (by omega)
    simp only [Apart] at hapart ⊢
    omega
  · exact (((hu.bytesKept []).trans (KvRec.fillRing_kept hlen)).trans (poke_leBytes_kept _ _ 4 _)).widen (by simp)

end

end Sys2Proof.Machine
end

section
/-! SUPPORT. PT_COMMIT (R245; log entry 76): the row that publishes, the row that releases, and the statement about them. -/

namespace Sys2Proof.Machine

section
variable {h : Fin 16} {seq : BitVec 32} {c : Cmd} {s : State} (hr : Runs h seq 0x19 c s)
include hr

/-! ### Publishing (R245, steps 1 to 3) -/

/-- The commit of a PT_COMMIT that has just begun. -/
def freshCommit (h : Fin 16) (c : Cmd) (r : KvRec) : KvCommit :=
  { hearth := h, cmd := c.seq, cache := r.addr, published := false, former := r.live, released := [] }

section
variable {r : KvRec} (hrec : KvRec.at s (kvAddr c) = r) (hlive : homeLive s r = true) (hnone : s.commits = [])
include hrec hlive hnone

/-- While an APPEND walk of the cache runs, the command waits. -/
theorem ptCommit_waits (happ : (s.walks.any fun w => w.cache == r.addr && w.append) = true) :
    exec (.ptCommit h seq) s = .next { s with commits := [freshCommit h c r] } := by
  show execPtCommit h seq s = _
  rw [execPtCommit, opRow_runs hr]
  simp only [hrec, hlive, hnone, findCommit, happ, if_true]
  simp [setCommit, hnone, freshCommit]

theorem ptCommit_publishes (happ : (s.walks.any fun w => w.cache == r.addr && w.append) = false) :
    exec (.ptCommit h seq) s = .next (execPtCommit.publish h s r c (freshCommit h c r)) := by
  show execPtCommit h seq s = _
  rw [execPtCommit, opRow_runs hr]
  simp only [hrec, hlive, hnone, findCommit, happ, Bool.false_eq_true, if_false]
  rfl

end

end

section
variable {h : Fin 16} {c : Cmd} {d : Bytes} {s u v : State} {r : KvRec} {x : KvCommit} (hclean : s.symErr = [])
  (htouch : kvTouch s h c [(r.addr, 128)] [] = (v, .ok ()))
  (hread : memRead v (idDisp h) (peekNat s (r.addr + 0x40) 8) (8 * peekNat s (r.addr + 0x3C) 4) (some (cmdId s h c)) = (u, .ok d))
include hclean htouch hread

/-- The requests that read the record and its RELEASE_LIST. -/
theorem readList_served : execPtCommit.readList h s r c (peekNat s (r.addr + 0x3C) 4) = (u, .ok d) ∧ Quiet s u := by
  have hv := kvTouch_quiet hclean htouch
  have hid : cmdId v h c = cmdId s h c := by simp only [cmdId, findTicket, hv.tickets]
  refine ⟨?_, hv.trans (memRead_quiet (hv.symErr.trans hclean) hread)⟩
  rw [execPtCommit.readList, htouch]
  simp only [hv.peekNat, hid, hread]

/-- A list that holds an address which no ring may hold fails the command. -/
theorem publish_badList (hbad : (((List.range (peekNat s (r.addr + 0x3C) 4)).map fun i => field d (8 * i) 8).any pageAddrBad) = true) :
    execPtCommit.publish h s r c x = failRunning (dropCommit u x) h c (U.ats r.home) Code.KV_FREE := by
  rw [execPtCommit.publish]
  simp only [(readList_served hclean htouch hread).1, hbad, if_true]

/-- Else the live slot flips and the list is taken. -/
theorem publish_served {w : State} (hgood : (((List.range (peekNat s (r.addr + 0x3C) 4)).map fun i => field d (8 * i) 8).any pageAddrBad) = false)
    (hwrite : kvTouch u h c [] [(r.addr + 0x3C, 4), (r.addr, 1)] = (w, .ok ())) :
    execPtCommit.publish h s r c x = setCommit (poke (poke w (r.addr + 0x3C) (leBytes 4 0)) r.addr (leBytes 1 (1 - r.live)))
      { x with published := true, former := r.live, released := (List.range (peekNat s (r.addr + 0x3C) 4)).map fun i => field d (8 * i) 8 } := by
  rw [execPtCommit.publish]
  simp only [(readList_served hclean htouch hread).1, hgood, Bool.false_eq_true, if_false, hwrite]

end

theorem any_pageAddrBad (ps : List Nat) : ps.any pageAddrBad = true ↔ ∃ p ∈ ps, p % 256 ≠ 0 ∨ nearEnd ≤ p := by
  simp [pageAddrBad]

/-- The record with its live slot flipped and its RELEASE_LIST taken. -/
theorem flippedRecord {s w : State} {r : KvRec} (hs : Inv s) (hw : Quiet s w) (hle : r.live ≤ 1) :
    let t := poke (poke w (r.addr + 0x3C) (leBytes 4 0)) r.addr (leBytes 1 (1 - r.live))
    Still s t ∧ peekNat t r.addr 1 = 1 - r.live ∧ peekNat t (r.addr + 0x3C) 4 = 0 ∧ BytesKept s t [(r.addr, 1), (r.addr + 0x3C, 4)] := by
  have hinv := poke_inv (hw.inv hs) (r.addr + 0x3C) (leBytes 4 0)
  refine ⟨(hw.toStill.poke _ _).poke _ _, ?_, ?_, ?_⟩
  · rw [peekNat_poke_same hinv]
    omega
  · rw [peekNat_poke_apart _ (by simp only [Apart]; omega), peekNat_poke_same (hw.inv hs)]
    rfl
  · exact (((hw.bytesKept []).trans (poke_leBytes_kept w _ 4 _)).trans (poke_leBytes_kept _ _ 1 _)).widen (by simp)

/-! ### Releasing (R245, steps 4 and 5) -/

section
variable {h : Fin 16} {seq : BitVec 32} {c : Cmd} {s : State} (hr : Runs h seq 0x19 c s) {x : KvCommit} {r : KvRec} (hcommit : s.commits = [x])
  (hhearth : x.hearth = h.val) (hcmd : x.cmd = c.seq) (hrec : KvRec.at s x.cache = r)
include hr hcommit hhearth hcmd hrec

/-- While walks hold the former slot, the command waits. -/
theorem ptCommitRelease_waits (hwalks : peekNat s (r.addr + (if x.former = 0 then 0x60 else 0x62)) 2 ≠ 0) :
    exec (.ptCommitRelease h seq) s = .next s := by
  have hfind : findCommit s h c.seq = some x := by simp [findCommit, hcommit, hhearth, hcmd]
  show execPtCommitRelease h seq s = _
  rw [execPtCommitRelease, opRow_runs hr]
  simp [hfind, hrec, hwalks]

/-- Where every request is served, the former table is written with what the live one holds, the pages are pushed, and the command is done. -/
theorem ptCommitRelease_served {d : Bytes} {u v y z : State} (hlive : homeLive s r = true) (hpub : x.published = true)
    (hwalks : peekNat s (r.addr + (if x.former = 0 then 0x60 else 0x62)) 2 = 0)
    (hclean : s.symErr = []) (hroom : r.freeCount s + x.released.length ≤ r.ringSize) (htouch : kvTouch s h c [(r.addr, 128)] [] = (v, .ok ()))
    (hread : memRead v (idDisp h) (r.table (1 - x.former)) r.tableBytes (some (cmdId s h c)) = (u, .ok d))
    (hwrite : memWrite u (idDisp h) (r.table x.former) d (some (cmdId s h c)) = (y, .ok ())) (hpush : r.push y h c x.released = (z, .ok ())) :
    exec (.ptCommitRelease h seq) s = .next (cmdDone (dropCommit z x) h c) := by
  have hfind : findCommit s h c.seq = some x := by simp [findCommit, hcommit, hhearth, hcmd]
  have hv := kvTouch_quiet hclean htouch
  have hu := hv.trans (memRead_quiet (hv.symErr.trans hclean) hread)
  have hid {t : State} (ht : Quiet s t) : cmdId t h c = cmdId s h c := by simp only [cmdId, findTicket, ht.tickets]
  show execPtCommitRelease h seq s = _
  rw [execPtCommitRelease, opRow_runs hr]
  simp only [hfind, hrec, hlive, hpub, hwalks, Bool.not_true, Bool.false_or, bne_self_eq_false, Bool.false_eq_true, if_false,
    if_neg (Nat.not_lt.mpr hroom), htouch, hid hv, hread, hid hu, hwrite, hpush]

end

/-- The former table holds what the live one held, and the released pages are the ring's last. -/
theorem released_pages {h : Nat} {c : Cmd} {src dst n : Nat} {s y z : State} {r : KvRec} {ps : List Nat} (hy : Copied src dst n s y)
    (hclean : s.symErr = []) (hsize : r.ringSize < 2 ^ 32) (hroom : r.freeCount s + ps.length ≤ r.ringSize) (hps : ∀ p ∈ ps, p < 2 ^ 64)
    (hrecord : Apart (r.addr, 128) (dst, n)) (hring : Apart (r.addr, 128) (r.ring, 8 * r.ringSize))
    (htable : Apart (dst, n) (r.ring, 8 * r.ringSize)) (hpush : r.push y h c ps = (z, .ok ())) :
    Still s z ∧ peekBytes z dst n = peekBytes s src n ∧ r.freeCount z = r.freeCount s + ps.length ∧
      (∀ i, i < ps.length → peekNat z (r.ring + 8 * ((r.freeHead s + r.freeCount s + i) % r.ringSize)) 8 = ps.getD i 0) ∧
      BytesKept s z [(dst, n), (r.addr + 0x38, 4), (r.ring, 8 * r.ringSize)] := by
  simp only [Apart] at hrecord
  have hcount : r.freeCount y = r.freeCount s := hy.kept.peekNat (by simp [Apart]; omega)
  have hhead : r.freeHead y = r.freeHead s := hy.kept.peekNat (by simp [Apart]; omega)
  have hz := KvRec.push_pushed (hy.symErr.trans hclean) (by rwa [hcount]) hpush hy.inv hsize hring hps
  have hcounter : Apart (dst, n) (r.addr + 0x38, 4) := by simp only [Apart]; omega
  refine ⟨hy.toStill.trans hz.toStill, ?_, by rw [hz.count, hcount], ?_, (hy.kept.trans hz.kept).widen (by simp)⟩
  · rw [hz.kept.peekBytes (by simp [hcounter, htable]), hy.bytes]
  · rw [← hhead, ← hcount]
    exact hz.slots

/-! ### The statement -/

/-- Settles O46: the publishing row by `publish_served` and `flippedRecord`, the releasing row by `released_pages`. -/
theorem cacheCommits : Obligations.CacheCommits := by
  intro h seq c d s u v w hs hr hclean me r n appending fresh
  refine ⟨fun hlive hnone happ => ptCommit_waits hr rfl hlive hnone happ, fun hlive hnone happ hle htouch hread => ?_,
    fun x r' y z hcommit hhearth hcmd hrec hlive hpub _ => ?_⟩
  · intro ps
    have hu := (readList_served hclean htouch hread).2
    have hexec := ptCommit_publishes hr rfl hlive hnone happ
    refine ⟨fun hgood hwrite => ?_, fun hbad => ?_⟩
    · have hps : ps.any pageAddrBad = false := by
        rw [Bool.eq_false_iff, ne_eq, any_pageAddrBad]
        rintro ⟨p, hp, hbad⟩
        obtain ⟨hal, hnear⟩ := hgood p hp
        omega
      rw [publish_served hclean htouch hread hps hwrite] at hexec
      obtain ⟨hstill, hflip, htaken, hkept⟩ := flippedRecord hs (hu.trans (kvTouch_quiet (hu.symErr.trans hclean) hwrite)) hle
      refine ⟨_, hexec, ?_, hflip, htaken, hkept, hstill.disps, hstill.tickets⟩
      have hempty := hstill.commits.trans hnone
      rw [setCommit, hempty]
      rfl
    · rw [hexec, publish_badList hclean htouch hread ((any_pageAddrBad ps).mpr hbad)]
      have hdrop : dropCommit u (freshCommit h c r) = u := by
        rw [dropCommit, hu.commits.trans hnone, List.filter_nil, ← hu.commits.trans hnone]
      rw [hdrop]
  · intro walks from_ to_
    refine ⟨fun hwalks => ptCommitRelease_waits hr hcommit hhearth hcmd hrec.symm hwalks, ?_⟩
    intro hwalks hroom hps hapart hfrom hto htouch hread hwrite hpush
    obtain ⟨hrecord, htables, hring⟩ : Apart (r'.addr, 128) (to_, r'.tableBytes) ∧ Apart (to_, r'.tableBytes) (r'.ring, 8 * r'.ringSize) ∧
        Apart (r'.addr, 128) (r'.ring, 8 * r'.ringSize) := by
      simp only [List.pairwise_cons, List.mem_cons, List.not_mem_nil, or_false, forall_eq_or_imp, forall_eq] at hapart
      obtain ⟨⟨_, h₁, h₂⟩, _, h₃, _⟩ := hapart
      exact ⟨h₁, h₃, h₂⟩
    have hsize : r'.ringSize < 2 ^ 32 := hrec ▸ KvRec.at_ringSize_lt s x.cache
    have hv := kvTouch_quiet hclean htouch
    have hbelow : nearEnd ≤ banksStart := by decide
    have hy := readWrite_quiet (hv.symErr.trans hclean) (hfrom.trans hbelow) (hto.trans hbelow) hread hwrite
    have hcopy : Copied from_ to_ r'.tableBytes s y := .of_poke hs ((hv.poke to_ _).trans (by rwa [hv.peekBytes] at hy))
    obtain ⟨hstill, hcopied, hcount, hslots, hkept⟩ := released_pages hcopy hclean hsize hroom hps hrecord hring htables hpush
    have hdone : CommandIs h { c with st := .done } (dropCommit z x) (cmdDone (dropCommit z x) h c) :=
      cmdDone_commandIs ((findCmd_of_disps hstill.disps h c.seq).trans hr.findCmd)
    refine ⟨_, ptCommitRelease_served hr hcommit hhearth hcmd hrec.symm hlive hpub hwalks hclean hroom htouch hread hwrite hpush, ?_, hdone.itself,
      hcopied, hcount, hslots, hkept, hstill.tickets⟩
    show (dropCommit z x).commits = []
    rw [dropCommit, hstill.commits, hcommit]
    simp

end Sys2Proof.Machine
end

section
/-! SUPPORT. Walks of a KV cache (R242, R244, R248): the rows of a walk, its latch, and the page that an APPEND walk takes. -/

namespace Sys2Proof.Machine

/-! ### What a record and a command read of a state -/

namespace Quiet
variable {s t : State} (k : Quiet s t) (r : KvRec)
include k

theorem entry : r.entry t = r.entry s := funext fun _ => funext fun _ => funext fun _ => k.peekNat _ _

theorem entries (slot q : Nat) : r.entries t slot q = r.entries s slot q := by rw [KvRec.entries, k.entry, KvRec.entries]

theorem sameSlots (q : Nat) : r.sameSlots t q = r.sameSlots s q := by rw [KvRec.sameSlots, k.entry, KvRec.sameSlots]

theorem seqState (q : Nat) : r.seqState t q = r.seqState s q := k.peekNat _ _

theorem seqHolds (q : Nat) : r.seqHolds t q = r.seqHolds s q := k.peekNat _ _

theorem freeHead : r.freeHead t = r.freeHead s := k.peekNat _ _

theorem freeCount : r.freeCount t = r.freeCount s := k.peekNat _ _

end Quiet

theorem Still.cmdId {s t : State} (k : Still s t) (h : Nat) (c : Cmd) : cmdId t h c = cmdId s h c := by
  simp only [Machine.cmdId, findTicket, k.tickets]

theorem Still.findCmd {s t : State} (k : Still s t) (h q : Nat) : findCmd t h q = findCmd s h q := findCmd_of_disps k.disps h q

/-! ### The walk of a command -/

theorem findWalk_key {s : State} {h q : Nat} {w : KvWalk} (hw : findWalk s h q = some w) : w.hearth = h ∧ w.cmd = q := by
  simpa using List.find?_some hw

/-- Where the elements with a property give way to one that has it, the first that has it is that one. -/
theorem find?_map_replaced {α : Type} {p : α → Bool} {w : α} (hw : p w = true) {xs : List α} (hany : xs.any p = true) :
    (xs.map fun x => if p x then w else x).find? p = some w := by
  induction xs with
  | nil => cases hany
  | cons x xs ih =>
    rw [List.map_cons]
    by_cases hx : p x = true
    · rw [if_pos hx, List.find?_cons_of_pos hw]
    · rw [if_neg hx, List.find?_cons_of_neg hx]
      exact ih (by simpa [hx] using hany)

/-- A walk that is set is found. -/
theorem findWalk_setWalk (s : State) (w : KvWalk) : findWalk (setWalk s w) w.hearth w.cmd = some w := by
  unfold findWalk setWalk
  dsimp only
  split
  · next hany => exact find?_map_replaced (by simp) hany
  · next hnone =>
    have hother : s.walks.find? (fun x => x.hearth == w.hearth && x.cmd == w.cmd) = none :=
      List.find?_eq_none.mpr fun x hx hsame => hnone (List.any_eq_true.mpr ⟨x, hx, hsame⟩)
    rw [List.find?_append, hother]
    simp

/-- The register shows the walk of a command that runs (Table 9-11; log entry 91). -/
theorem showWalk_granted {s : State} {h q : Nat} {w : KvWalk} {c : Cmd} (hw : findWalk s h q = some w) (hc : findCmd s h q = some c)
    (hst : c.st = .granted) : showWalk s h q = wr s (F.ATS_STATE_STATE h) (walkState w c) := by
  rw [showWalk, hw, hc]
  exact if_pos hst

/-! ### The rows of a walk -/

/-- A paged command of hearth h's window has its increment, and the home sequencer of its cache may act (R241). -/
structure Paged (h : Fin 16) (seq : BitVec 32) (c : Cmd) (s : State) : Prop where
  found : findCmd s h seq.toNat = some c
  number : c.seq = seq.toNat
  granted : c.st = .granted
  paged : kvPaged c = true
  home : homeLive s (KvRec.at s (kvAddr c)) = true

/-- The walk of a command that has asked for nothing yet. -/
def newWalk (h : Fin 16) (c : Cmd) (r : KvRec) : KvWalk :=
  { hearth := h, cmd := c.seq, cache := r.addr, append := kvAppend c, phase := 0, slot := 0, seqs := [], victims := [],
    swapIn := none, used := 0, pages := [], waiting := false, noted := false }

section
variable {h : Fin 16} {seq : BitVec 32} {c : Cmd} {s : State} (hp : Paged h seq c s)
include hp

theorem Paged.findCmd : findCmd s h c.seq = some c := by rw [hp.number]; exact hp.found

theorem kvRow_walk {w : KvWalk} (hw : findWalk s h c.seq = some w) (body : State → KvRec → KvWalk → Cmd → State) :
    kvRow h seq s body = .next (showWalk (body s (KvRec.at s (kvAddr c)) w c) h c.seq) := by
  obtain ⟨hfound, _, hst, hpaged, hhome⟩ := hp
  simp only [kvRow, hfound, hst, hpaged, hhome, hw]
  rfl

theorem kvRow_new (hw : findWalk s h c.seq = none) (happ : kvAppend c = false) (body : State → KvRec → KvWalk → Cmd → State) :
    kvRow h seq s body = .next (showWalk (body s (KvRec.at s (kvAddr c)) (newWalk h c (KvRec.at s (kvAddr c))) c) h c.seq) := by
  obtain ⟨hfound, _, hst, hpaged, hhome⟩ := hp
  simp only [kvRow, newWalk, hfound, hst, hpaged, hhome, hw, happ]
  rfl

end

section
variable {s : State} {r : KvRec} {w : KvWalk} {c : Cmd} (hst : c.st = .granted) (hvictims : w.victims = []) (hswap : w.swapIn = none)
include hst hvictims hswap

/-- A walk without a latch asks for it. -/
theorem kvGoOn_latch (hwaiting : w.waiting = false) (hphase : w.phase = 0) : kvGoOn s r w c = latchRequest s r w c := by
  simp only [kvGoOn, hst, hvictims, hswap, hwaiting, hphase, Bool.and_false, List.isEmpty_nil, Bool.not_true, Bool.false_eq_true, if_false, if_true]
  rfl

/-- An APPEND walk that has its latch asks for its pages. -/
theorem kvGoOn_alloc {x : Ticket} (hx : findTicket s c.ticket = some x) (hcancel : x.cancelling = false) (hphase : w.phase = 1)
    (happ : w.append = true) : kvGoOn s r w c = allocWalk s r w c (w.seqs.length + 1) := by
  simp only [kvGoOn, hst, hvictims, hswap, hx, hcancel, hphase, happ, Bool.false_and, List.isEmpty_nil, Bool.not_true, Bool.false_eq_true, if_false]
  rfl

end

/-! ### The latch (R242) -/

/-- The place of a slot's count of walks in a cache record (Table 9-5). -/
def walksAt (r : KvRec) : Nat := r.addr + (if r.live = 0 then 0x60 else 0x62)

/-- One more walk of the live slot, which holds sequence q. -/
def raiseCounts (s : State) (r : KvRec) (q : Nat) : State :=
  let t := poke s (walksAt r) (leBytes 2 (peekNat s (walksAt r) 2 + 1))
  poke t (r.seqAddr q + 4) (leBytes 2 (r.seqHolds t q + 1))

/-- The home sequencer's register shows the latch (Table 9-11). -/
def showLatch (s : State) (r : KvRec) (h : Nat) : State :=
  wr (wr (wr s (F.ATS_KV_CACHE_128 h) (r.addr / 128)) (F.ATS_KV_LATCHED h) r.live) (F.ATS_KV_WALKING h) 1

theorem latchWalk_one (s : State) (r : KvRec) (w : KvWalk) (q : Nat) :
    latchWalk s r w [q] = setWalk (showLatch (raiseCounts s r q) r w.hearth) { w with phase := 1, slot := r.live, seqs := [q] } := rfl

/-- A walk of one active sequence whose entries are in order latches it, where its requests are served. -/
theorem latchRequest_one {s u v : State} {r : KvRec} {w : KvWalk} {c : Cmd} {q : Nat} (hclean : s.symErr = []) (hseqs : walkSeqs s c = [(q : Int)])
    (hlt : q < r.seqs) (hactive : r.seqState s q = sqACTIVE)
    (hread : touchRanges s (idDisp w.hearth) false (some (cmdId s w.hearth c))
      [(r.addr, 128), (r.seqAddr q, 16), (r.entryAddr r.live q 0, 8 * r.maxPages)] = (u, .ok ()))
    (hgood : entriesBad q (r.entries s r.live q) = false) (hwrite : kvTouch u w.hearth c [] (holdRanges r r.live [q]) = (v, .ok ())) :
    latchRequest s r w c = latchWalk v r w [q] := by
  have hu := touchRanges_quiet hclean hread
  have hneg : ¬ (q : Int) < 0 := by omega
  have hdedup : latchWalk.dedupNat [q] = [q] := rfl
  unfold latchRequest
  simp only [hseqs, List.map_cons, List.map_nil, List.any_cons, List.any_nil, Int.toNat_natCast, hneg, Nat.not_le.mpr hlt, hactive, decide_false,
    Bool.or_false, List.cons_append, List.nil_append, hread, hu.seqState, hu.entries, hgood, List.find?_cons, List.find?_nil, hdedup, hwrite]
  rfl

/-- What a latch leaves: its counts have risen, and no other byte has changed. -/
theorem raiseCounts_spec {s : State} {r : KvRec} {q : Nat} (hs : Inv s) (hapart : r.addr + 128 ≤ r.seqAddr q ∨ r.seqAddr q + 16 ≤ r.addr) :
    Still s (raiseCounts s r q) ∧ peekNat (raiseCounts s r q) (walksAt r) 2 = (peekNat s (walksAt r) 2 + 1) % 65536 ∧
      r.seqHolds (raiseCounts s r q) q = (r.seqHolds s q + 1) % 65536 ∧
      BytesKept s (raiseCounts s r q) [(walksAt r, 2), (r.seqAddr q + 4, 2)] := by
  have hwalks : r.addr ≤ walksAt r ∧ walksAt r + 2 ≤ r.addr + 128 := by unfold walksAt; split <;> omega
  have hinv := poke_inv hs (walksAt r) (leBytes 2 (peekNat s (walksAt r) 2 + 1))
  have hholds : r.seqHolds (poke s (walksAt r) (leBytes 2 (peekNat s (walksAt r) 2 + 1))) q = r.seqHolds s q :=
    peekNat_poke_apart s (by simp only [Apart]; omega)
  refine ⟨((Still.refl s).poke _ _).poke _ _, ?_, ?_, ?_⟩
  · rw [raiseCounts, peekNat_poke_apart _ (by simp only [Apart]; omega), peekNat_poke_same hs, show 2 ^ (8 * 2) = 65536 from rfl]
  · rw [raiseCounts, hholds, KvRec.seqHolds, peekNat_poke_same hinv, show 2 ^ (8 * 2) = 65536 from rfl]
  · exact (poke_leBytes_kept s _ 2 _).trans (poke_leBytes_kept _ _ 2 _)

theorem rd_showLatch (s : State) (r : KvRec) (h : Nat) (hle : r.live ≤ 1) :
    rd (showLatch s r h) (F.ATS_KV_WALKING h) = 1 ∧ rd (showLatch s r h) (F.ATS_KV_LATCHED h) = r.live := by
  constructor
  · rw [showLatch, rd_wr_same _ _ (by simp [F.ATS_KV_WALKING])]
    rfl
  · rw [showLatch, rd_wr_ne _ _ (by simp [F.ATS_KV_WALKING]) (by simp [F.ATS_KV_WALKING, F.ATS_KV_LATCHED]), rd_wr_same _ _ (by simp [F.ATS_KV_LATCHED])]
    simp only [F.ATS_KV_LATCHED]
    omega

/-! ### Pages of an APPEND walk (R244, R248) -/

/-- The ring's head moves past the page that has been taken. -/
def advanceRing (s : State) (r : KvRec) (head : Nat) : State :=
  let t := poke s (r.addr + 0x34) (leBytes 4 ((head + 1) % r.ringSize))
  poke t (r.addr + 0x38) (leBytes 4 (r.freeCount t - 1))

section
variable {s u v : State} {r : KvRec} {c : Cmd} {w : KvWalk} {q : Nat}

theorem popN_one {h : Nat} (hclean : s.symErr = []) (ht : kvTouch s h c (r.ringRanges (r.freeHead s) 1) [(r.addr + 0x34, 8)] = (v, .ok ())) :
    r.popN s h c 1 = (advanceRing v r (r.freeHead s), .ok [peekNat s (r.ring + 8 * (r.freeHead s % r.ringSize)) 8]) := by
  have hv := kvTouch_quiet hclean ht
  unfold KvRec.popN
  simp only [Nat.one_ne_zero, if_false, ht]
  simp only [KvRec.ringRanges, List.range_one, List.map_cons, List.map_nil, Nat.add_zero, hv.peekNat]
  rfl

/-- A walk that finds the one page that it needs takes it. -/
theorem allocWalk_one (hclean : s.symErr = []) (hseqs : w.seqs = [q]) (hpages : w.pages = []) (hsame : r.sameSlots s q = true)
    (hneed : newPages (r.entries s w.slot q) (walkLq s c) = 1) (hfit : ceilDiv (lengthOf (r.entries s w.slot q) + walkLq s c) 16 ≤ r.maxPages)
    (hfree : 1 ≤ r.freeCount s)
    (hread : kvTouch s w.hearth c [(r.entryAddr 0 q 0, 8 * r.maxPages), (r.entryAddr 1 q 0, 8 * r.maxPages)] [] = (u, .ok ()))
    (hpop : kvTouch u w.hearth c (r.ringRanges (r.freeHead s) 1) [(r.addr + 0x34, 8)] = (v, .ok ())) :
    allocWalk s r w c (w.seqs.length + 1) = setWalk (advanceRing v r (r.freeHead s))
      { w with phase := 2, used := 0, waiting := false, pages := [(q, [peekNat s (r.ring + 8 * (r.freeHead s % r.ringSize)) 8])] } := by
  have hu := kvTouch_quiet hclean hread
  have hpopped : r.popN u w.hearth c 1 = (advanceRing v r (r.freeHead s), .ok [peekNat s (r.ring + 8 * (r.freeHead s % r.ringSize)) 8]) := by
    have h := popN_one (hu.symErr.trans hclean) (by rwa [hu.freeHead])
    rwa [hu.freeHead, hu.peekNat] at h
  have htake : takePages u r w c 1 q = (advanceRing v r (r.freeHead s), { w with used := 0, waiting := false },
      .ok [peekNat s (r.ring + 8 * (r.freeHead s % r.ringSize)) 8]) := by
    rw [takePages, hu.freeCount, if_pos hfree, hpopped]
  rw [hseqs]
  unfold allocWalk
  simp only [hseqs, hpages, List.any_nil, Bool.not_false, List.find?_cons, List.map_cons, List.map_nil, hread, hu.sameSlots, hsame, hneed,
    Nat.not_lt.mpr hfit, Bool.not_true, decide_false, Bool.or_false, Bool.false_eq_true, if_false, htake]
  unfold allocWalk
  simp

/-- What the ring is after its head has been taken. -/
theorem advanceRing_spec (hs : Inv s) (hsize : r.ringSize < 2 ^ 32) (hpos : 0 < r.ringSize) (head : Nat) :
    Still s (advanceRing s r head) ∧ r.freeCount (advanceRing s r head) = r.freeCount s - 1 ∧
      r.freeHead (advanceRing s r head) = (head + 1) % r.ringSize ∧ BytesKept s (advanceRing s r head) [(r.addr + 0x34, 8)] := by
  have hinv := poke_inv hs (r.addr + 0x34) (leBytes 4 ((head + 1) % r.ringSize))
  have hcount : r.freeCount (poke s (r.addr + 0x34) (leBytes 4 ((head + 1) % r.ringSize))) = r.freeCount s :=
    peekNat_poke_apart s (by simp only [Apart]; omega)
  have hlt : r.freeCount s < 2 ^ 32 := peekNat_lt s (r.addr + 0x38) 4
  have hhead := Nat.mod_lt (head + 1) hpos
  refine ⟨((Still.refl s).poke _ _).poke _ _, ?_, ?_, ?_⟩
  · rw [advanceRing, hcount, KvRec.freeCount, peekNat_poke_same hinv, Nat.mod_eq_of_lt (by omega)]
  · rw [advanceRing, KvRec.freeHead, peekNat_poke_apart _ (by simp only [Apart]; omega), peekNat_poke_same hs, Nat.mod_eq_of_lt (by omega)]
  · exact ((poke_leBytes_kept s _ 4 _).trans (poke_leBytes_kept _ _ 4 _)).widen (by simp)

end

/-! ### The rows -/

/-- State t' is t with the command's walk at w, and the register of the attention sequencer showing it. -/
structure WalkShown (h : Fin 16) (c : Cmd) (w : KvWalk) (t t' : State) : Prop where
  walk : findWalk t' h c.seq = some w
  mem : t'.mem = t.mem
  disps : t'.disps = t.disps
  tickets : t'.tickets = t.tickets
  regs : ∀ f : Fld, f.off ≠ (F.ATS_STATE_STATE h).off → rd t' f = rd t f

section
variable {h : Fin 16} {seq : BitVec 32} {c : Cmd} {s : State} (hp : Paged h seq c s)
include hp

/-- A walk that waits for nothing is left as it is. -/
theorem kvRetry_idle {w : KvWalk} (hw : findWalk s h c.seq = some w) (hwaiting : w.waiting = false) :
    exec (.kvRetry h seq) s = .next (wr s (F.ATS_STATE_STATE h) (walkState w c)) := by
  show execKvRetry h seq s = _
  rw [execKvRetry, kvRow_walk hp hw, if_neg (by simp [hwaiting]), showWalk_granted hw hp.findCmd hp.granted]

/-- A row that leaves the command's walk as w shows it. -/
theorem showWalk_setWalk {t : State} {w : KvWalk} (ht : Still s t) (hhearth : w.hearth = h.val) (hcmd : w.cmd = c.seq) :
    WalkShown h c w t (showWalk (setWalk t w) h c.seq) := by
  have hfound : findWalk (setWalk t w) h c.seq = some w := by rw [← hhearth, ← hcmd]; exact findWalk_setWalk t w
  rw [showWalk_granted hfound ((ht.findCmd h c.seq).trans hp.findCmd) hp.granted]
  exact ⟨hfound, rfl, rfl, rfl, fun f hf => rd_wr_off _ _ (Ne.symm hf)⟩

end

section
variable {h : Fin 16} {seq : BitVec 32} {c : Cmd} {s u v : State} {q : Nat} {r : KvRec} (hp : Paged h seq c s) (hrec : KvRec.at s (kvAddr c) = r)
  (hs : Inv s) (hclean : s.symErr = [])
include hp hrec hs hclean

/-- The latch of a walk of one active sequence (R242). -/
theorem kvHomeRequest_latches (happ : kvAppend c = false) (hnone : findWalk s h c.seq = none) (hseqs : walkSeqs s c = [(q : Int)])
    (hlt : q < r.seqs) (hle : r.live ≤ 1) (hactive : r.seqState s q = sqACTIVE)
    (hread : touchRanges s (idDisp h) false (some (cmdId s h c))
      [(r.addr, 128), (r.seqAddr q, 16), (r.entryAddr r.live q 0, 8 * r.maxPages)] = (u, .ok ()))
    (hgood : entriesBad q (r.entries s r.live q) = false) (hwrite : kvTouch u h c [] (holdRanges r r.live [q]) = (v, .ok ()))
    (hapart : r.addr + 128 ≤ r.seqAddr q ∨ r.seqAddr q + 16 ≤ r.addr) :
    ∃ t w, exec (.kvHomeRequest h seq) s = .next t ∧ findWalk t h c.seq = some w ∧ w.phase = 1 ∧ w.slot = r.live ∧ w.seqs = [q] ∧
      w.cache = r.addr ∧ w.append = false ∧ peekNat t (walksAt r) 2 = (peekNat s (walksAt r) 2 + 1) % 65536 ∧
      r.seqHolds t q = (r.seqHolds s q + 1) % 65536 ∧ BytesKept s t [(walksAt r, 2), (r.seqAddr q + 4, 2)] ∧
      rd t (F.ATS_KV_WALKING h) = 1 ∧ rd t (F.ATS_KV_LATCHED h) = r.live ∧ t.disps = s.disps ∧ t.tickets = s.tickets := by
  have hu := touchRanges_quiet hclean hread
  have hv := hu.trans (kvTouch_quiet (hu.symErr.trans hclean) hwrite)
  obtain ⟨hstill, hwalks, hholds, hkept⟩ := raiseCounts_spec (r := r) (q := q) (hv.inv hs) hapart
  obtain ⟨hwalking, hlatched⟩ := rd_showLatch (raiseCounts v r q) r h hle
  have hlatch : Quiet (raiseCounts v r q) (showLatch (raiseCounts v r q) r h) := (((Quiet.refl _).wr _ _).wr _ _).wr _ _
  have hall := (hv.toStill.trans hstill).trans hlatch.toStill
  have hshown := showWalk_setWalk hp (w := { newWalk h c r with phase := 1, slot := r.live, seqs := [q] }) hall rfl rfl
  have hmem := hshown.mem.trans hlatch.mem
  have hexec : exec (.kvHomeRequest h seq) s = .next (showWalk (latchWalk v r (newWalk h c r) [q]) h c.seq) := by
    show execKvHomeRequest h seq s = _
    rw [execKvHomeRequest, kvRow_new hp hnone happ, hrec, kvGoOn_latch hp.granted rfl rfl rfl rfl,
      latchRequest_one (w := newWalk h c r) hclean hseqs hlt hactive hread hgood hwrite]
  refine ⟨_, _, hexec, hshown.walk, rfl, rfl, rfl, rfl, happ, ?_, ?_, ((hv.bytesKept []).trans hkept).of_mem hmem, ?_, ?_,
    hshown.disps.trans hall.disps, hshown.tickets.trans hall.tickets⟩
  · exact (peekNat_of_mem hmem _ _).trans (hwalks.trans (by rw [hv.peekNat]))
  · exact (peekNat_of_mem hmem _ _).trans (hholds.trans (by rw [hv.seqHolds]))
  · exact (hshown.regs _ (by simp [F.ATS_KV_WALKING, F.ATS_STATE_STATE])).trans hwalking
  · exact (hshown.regs _ (by simp [F.ATS_KV_LATCHED, F.ATS_STATE_STATE])).trans hlatched

/-- The page of an APPEND walk that waited for it (R248). -/
theorem kvRetry_takes {w : KvWalk} {x : Ticket} (hx : findTicket s c.ticket = some x) (hcancel : x.cancelling = false)
    (hw : findWalk s h c.seq = some w) (hwaiting : w.waiting = true) (happ : w.append = true) (hphase : w.phase = 1) (hvictims : w.victims = [])
    (hswap : w.swapIn = none) (hseqs : w.seqs = [q]) (hpages : w.pages = []) (hsame : r.sameSlots s q = true)
    (hneed : newPages (r.entries s w.slot q) (walkLq s c) = 1) (hfit : ceilDiv (lengthOf (r.entries s w.slot q) + walkLq s c) 16 ≤ r.maxPages)
    (hfree : 1 ≤ r.freeCount s) (hpos : 0 < r.ringSize)
    (hread : kvTouch s h c [(r.entryAddr 0 q 0, 8 * r.maxPages), (r.entryAddr 1 q 0, 8 * r.maxPages)] [] = (u, .ok ()))
    (hpop : kvTouch u h c (r.ringRanges (r.freeHead s) 1) [(r.addr + 0x34, 8)] = (v, .ok ())) :
    ∃ t, exec (.kvRetry h seq) s = .next t ∧
      findWalk t h c.seq = some { w with phase := 2, used := 0, waiting := false, pages := [(q, [peekNat s (r.ring + 8 * (r.freeHead s % r.ringSize)) 8])] } ∧
      r.freeCount t = r.freeCount s - 1 ∧ r.freeHead t = (r.freeHead s + 1) % r.ringSize ∧ BytesKept s t [(r.addr + 0x34, 8)] ∧
      t.disps = s.disps ∧ t.tickets = s.tickets := by
  obtain ⟨hhearth, hcmd⟩ := findWalk_key hw
  have hu := kvTouch_quiet hclean hread
  have hv := hu.trans (kvTouch_quiet (hu.symErr.trans hclean) hpop)
  have hsize : r.ringSize < 2 ^ 32 := hrec ▸ KvRec.at_ringSize_lt s (kvAddr c)
  obtain ⟨hstill, hcount, hhead, hkept⟩ := advanceRing_spec (hv.inv hs) hsize hpos (r.freeHead s)
  have hall := hv.toStill.trans hstill
  have hexec : exec (.kvRetry h seq) s = .next (showWalk (setWalk (advanceRing v r (r.freeHead s))
      { w with phase := 2, used := 0, waiting := false, pages := [(q, [peekNat s (r.ring + 8 * (r.freeHead s % r.ringSize)) 8])] }) h c.seq) := by
    rw [← hhearth] at hread hpop
    show execKvRetry h seq s = _
    rw [execKvRetry, kvRow_walk hp hw, hrec, if_pos hwaiting, kvGoOn_alloc hp.granted hvictims hswap hx hcancel hphase happ,
      allocWalk_one hclean hseqs hpages hsame hneed hfit hfree hread hpop]
  have hshown := showWalk_setWalk hp hall (w := { w with
    phase := 2, used := 0, waiting := false, pages := [(q, [peekNat s (r.ring + 8 * (r.freeHead s % r.ringSize)) 8])] }) hhearth hcmd
  refine ⟨_, hexec, hshown.walk, ?_, (peekNat_of_mem hshown.mem _ _).trans hhead, ((hv.bytesKept []).trans hkept).of_mem hshown.mem,
    hshown.disps.trans hall.disps, hshown.tickets.trans hall.tickets⟩
  exact (peekNat_of_mem hshown.mem _ _).trans (hcount.trans (by rw [hv.freeCount]))

end

end Sys2Proof.Machine
end

section
/-! SUPPORT. Pre-emption and resumption of sequences of a KV cache (R246, R247; log entry 75): the copies, the entries and the sequence's state that
they leave, and the statement about walks and swaps. -/

namespace Sys2Proof.Machine

/-! ### A sequence that has moved -/

theorem each_singleton {α : Type} (x : α) (s : State) (f : State → α → State) : each [x] s f = f s x := rfl

/-- A page's entries in both slots say where it stands. -/
def KvRec.setEntries (s : State) (r : KvRec) (resident : Bool) (addr q p : Nat) : State :=
  each [0, 1] s fun s slot => poke s (r.entryAddr slot q p) (leBytes 8 (entOf resident (entFill (r.entry s slot q p)) addr q))

/-- The end of a swap of one page: its entries, then the sequence's state. -/
def KvRec.settle (s : State) (r : KvRec) (resident : Bool) (addr q p state : Nat) : State :=
  r.setSeqState (r.setEntries s resident addr q p) q state

/-- The sequence's one page stands where its entries in both slots say, and the sequence has its state. -/
structure Settled (r : KvRec) (resident : Bool) (addr q p state : Nat) (s t : State) : Prop extends Still s t where
  entries : ∀ slot, slot < 2 → r.entry t slot q p = entOf resident (entFill (r.entry s slot q p)) addr q % 2 ^ 64
  state : r.seqState t q = state
  kept : BytesKept s t [(r.tableA, r.tableBytes), (r.tableB, r.tableBytes), (r.seqTable, 16 * r.seqs)]

theorem Apart.symm {x y : Nat × Nat} (h : Apart x y) : Apart y x := Or.symm h

/-- What is apart from a range is apart from a part of it. -/
theorem Apart.within {x y : Nat × Nat} {a n : Nat} (h : Apart x y) (hlo : y.1 ≤ a) (hhi : a + n ≤ y.1 + y.2) : Apart x (a, n) :=
  h.imp (fun k => k.trans hlo) fun k => hhi.trans k

/-- The parts of a cache in memory, and a page, share no byte (R237). -/
structure CacheApart (r : KvRec) (a : Nat) : Prop where
  recordA : Apart (r.addr, 128) (r.tableA, r.tableBytes)
  recordB : Apart (r.addr, 128) (r.tableB, r.tableBytes)
  recordSeqs : Apart (r.addr, 128) (r.seqTable, 16 * r.seqs)
  recordRing : Apart (r.addr, 128) (r.ring, 8 * r.ringSize)
  tables : Apart (r.tableA, r.tableBytes) (r.tableB, r.tableBytes)
  seqsA : Apart (r.tableA, r.tableBytes) (r.seqTable, 16 * r.seqs)
  seqsB : Apart (r.tableB, r.tableBytes) (r.seqTable, 16 * r.seqs)
  ringA : Apart (r.tableA, r.tableBytes) (r.ring, 8 * r.ringSize)
  ringB : Apart (r.tableB, r.tableBytes) (r.ring, 8 * r.ringSize)
  ringSeqs : Apart (r.seqTable, 16 * r.seqs) (r.ring, 8 * r.ringSize)
  pageA : Apart (r.tableA, r.tableBytes) (a, r.pageBytes)
  pageB : Apart (r.tableB, r.tableBytes) (a, r.pageBytes)
  pageSeqs : Apart (r.seqTable, 16 * r.seqs) (a, r.pageBytes)

theorem CacheApart.of_pairwise {r : KvRec} {a : Nat} (h : [(r.addr, 128), (r.tableA, r.tableBytes), (r.tableB, r.tableBytes), (r.seqTable, 16 * r.seqs),
    (r.ring, 8 * r.ringSize), (a, r.pageBytes)].Pairwise Apart) : CacheApart r a := by
  simp only [List.pairwise_cons, List.mem_cons, List.not_mem_nil, or_false, forall_eq_or_imp, forall_eq] at h
  obtain ⟨⟨hRA, hRB, hRS, hRr, _⟩, ⟨hAB, hAS, hAr, hAp⟩, ⟨hBS, hBr, hBp⟩, ⟨hSr, hSp⟩, _⟩ := h
  exact ⟨hRA, hRB, hRS, hRr, hAB, hAS, hBS, hAr, hBr, hSr, hAp, hBp, hSp⟩

section
variable {r : KvRec} {q p : Nat} (hq : q < r.seqs) (hpage : p < r.maxPages)
include hq hpage

/-- An entry of a sequence lies within its slot's table. -/
theorem entryAddr_within (slot : Nat) : r.table slot ≤ r.entryAddr slot q p ∧ r.entryAddr slot q p + 8 ≤ r.table slot + r.tableBytes := by
  have hlast : (q * r.maxPages + p + 1) * 8 ≤ r.seqs * r.maxPages * 8 := Nat.mul_le_mul_right 8 <| calc
    q * r.maxPages + p + 1 ≤ q * r.maxPages + r.maxPages := Nat.add_le_add_left hpage _
    _ = (q + 1) * r.maxPages := (Nat.succ_mul _ _).symm
    _ ≤ r.seqs * r.maxPages := Nat.mul_le_mul_right _ hq
  simp only [KvRec.entryAddr, KvRec.tableBytes]
  omega

/-- What is apart from both tables is apart from an entry. -/
theorem entry_apart {x : Nat × Nat} (hA : Apart (r.tableA, r.tableBytes) x) (hB : Apart (r.tableB, r.tableBytes) x) (slot : Nat) :
    Apart (r.entryAddr slot q p, 8) x := by
  have hwithin := entryAddr_within hq hpage slot
  simp only [Apart] at hA hB ⊢
  by_cases hslot : slot = 0
  · rw [KvRec.table, if_pos hslot] at hwithin
    omega
  · rw [KvRec.table, if_neg hslot] at hwithin
    omega

variable {s : State} (hs : Inv s) {resident : Bool} {addr : Nat}
include hs

/-- Both entries of a page are written, each with the number of tokens that it had. -/
theorem setEntries_spec (htables : Apart (r.tableA, r.tableBytes) (r.tableB, r.tableBytes)) :
    (∀ slot, slot < 2 → r.entry (r.setEntries s resident addr q p) slot q p = entOf resident (entFill (r.entry s slot q p)) addr q % 2 ^ 64) ∧
      BytesKept s (r.setEntries s resident addr q p) [(r.tableA, r.tableBytes), (r.tableB, r.tableBytes)] := by
  have h0 := entryAddr_within hq hpage 0
  have h1 := entryAddr_within hq hpage 1
  rw [show r.table 0 = r.tableA from rfl] at h0
  rw [show r.table 1 = r.tableB from rfl] at h1
  have hapart : Apart (r.entryAddr 0 q p, 8) (r.entryAddr 1 q p, 8) := by
    simp only [Apart] at htables ⊢
    omega
  let t := poke s (r.entryAddr 0 q p) (leBytes 8 (entOf resident (entFill (r.entry s 0 q p)) addr q))
  have hsecond : r.entry t 1 q p = r.entry s 1 q p := peekNat_poke_apart s hapart.symm
  have hset : r.setEntries s resident addr q p =
      poke t (r.entryAddr 1 q p) (leBytes 8 (entOf resident (entFill (r.entry s 1 q p)) addr q)) := by rw [← hsecond]; rfl
  rw [hset]
  refine ⟨fun slot hslot => ?_, ((poke_leBytes_kept s _ 8 _).trans (poke_leBytes_kept t _ 8 _)).widen (by simp; omega)⟩
  obtain rfl | rfl : slot = 0 ∨ slot = 1 := by omega
  · exact (peekNat_poke_apart t hapart).trans (peekNat_poke_same hs _ 8 _)
  · exact peekNat_poke_same (poke_inv hs _ _) _ 8 _

theorem settle_settled {a state : Nat} (hl : CacheApart r a) (hstate : state < 256) :
    Settled r resident addr q p state s (r.settle s resident addr q p state) := by
  obtain ⟨hentries, hkept⟩ := setEntries_spec hq hpage hs (resident := resident) (addr := addr) hl.tables
  have hinv : Inv (r.setEntries s resident addr q p) := poke_inv (poke_inv hs _ _) _ _
  have hseq : r.seqTable ≤ r.seqAddr q ∧ r.seqAddr q + 1 ≤ r.seqTable + 16 * r.seqs := by rw [KvRec.seqAddr]; omega
  have hstill : Still s (r.setEntries s resident addr q p) := ((Still.refl s).poke _ _).poke _ _
  refine ⟨hstill.poke _ _, fun slot hslot => ?_, ?_, (hkept.trans (poke_leBytes_kept _ (r.seqAddr q) 1 state)).widen (by simp; omega)⟩
  · have happart := entry_apart hq hpage hl.seqsA hl.seqsB slot
    rw [← hentries slot hslot]
    refine peekNat_poke_apart _ ?_
    simp only [Apart] at happart ⊢
    omega
  · exact (peekNat_poke_same hinv _ 1 state).trans (Nat.mod_eq_of_lt hstate)

end

/-! ### The copies (R246, R247) -/

section
variable {s v : State} {r : KvRec} {w : KvWalk} {c : Cmd} {q p src dst : Nat}

/-- A swap of one page, where its requests are served, copies it. -/
theorem swapPages_one (hclean : s.symErr = []) (hsrc : src + r.pageBytes ≤ banksStart) (hdst : dst + r.pageBytes ≤ banksStart)
    (h : swapPages s r w c q [(p, src, dst)] = (v, .ok ())) : Quiet (poke s dst (peekBytes s src r.pageBytes)) v := by
  unfold swapPages at h
  split at h
  · next u _ hcopy =>
    have hu := copyPages_one hclean hsrc hdst hcopy
    exact hu.trans (kvTouch_quiet (hu.symErr.trans hclean) h)
  · next hnot => exact absurd h (hnot _ _)

theorem thenPush_ok {ps : List Nat} {x : State × Req Unit} (h : thenPush r w c ps x = (v, .ok ())) :
    ∃ u, x = (u, .ok ()) ∧ r.push u w.hearth c ps = (v, .ok ()) := by
  obtain ⟨u, x⟩ := x
  cases x with
  | ok _ => exact ⟨u, rfl, h⟩
  | fail => cases h
  | wait => cases h

end

/-! ### The rows -/

/-- A pre-emption is recorded and counted (R246). -/
def notePreempt (s : State) (r : KvRec) (w : KvWalk) (c : Cmd) (q : Nat) : State :=
  satAdd (wr (emberCode s (U.ats r.home) Code.KV_PREEMPT (some (cmdId s w.hearth c))) (F.ATS_PREEMPT_LAST_SEQ r.home) q) (F.ATS_PREEMPT_PREEMPTS r.home) 1

theorem notePreempt_quiet (s : State) (r : KvRec) (w : KvWalk) (c : Cmd) (q : Nat) : Quiet s (notePreempt s r w c q) :=
  (((Quiet.refl s).emberCode _ _ _).wr _ _).satAdd _ _

/-- A resumption is recorded and counted (R247). -/
def noteResume (s : State) (r : KvRec) (id : CmdId) : State :=
  satAdd (emberCode s (U.ats r.home) Code.KV_RESUME (some id)) (F.ATS_PREEMPT_RESUMES r.home) 1

theorem noteResume_quiet (s : State) (r : KvRec) (id : CmdId) : Quiet s (noteResume s r id) :=
  ((Quiet.refl s).emberCode _ _ _).satAdd _ _

section
variable {h : Fin 16} {seq : BitVec 32} {c : Cmd} {s v : State} {r : KvRec} {w : KvWalk} {q p a b : Nat} (hp : Paged h seq c s)
  (hrec : KvRec.at s (kvAddr c) = r) (hw : findWalk s h c.seq = some w)
include hp hrec hw

/-- A victim of one page whose copy is served (R246): its entries and its state follow, and the walk goes on without it. -/
theorem swapOutComplete_served {rest : List Nat} (hvictims : w.victims = q :: rest) (hres : r.resident s q = [(p, a)])
    (hb : b = r.swapBase + (q * r.maxPages + p) * r.pageBytes) (hpush : thenPush r w c [a] (swapPages s r w c q [(p, a, b)]) = (v, .ok ())) :
    ∃ u, Quiet (r.settle v false b q p sqSWAPPED) u ∧ exec (.swapOutComplete h seq) s =
      .next (showWalk (kvGoOn (setWalk u { w with victims := rest }) r { w with victims := rest } c) h c.seq) := by
  refine ⟨_, notePreempt_quiet _ r w c q, ?_⟩
  subst hb
  show execSwapOutComplete h seq s = _
  rw [execSwapOutComplete, kvRow_walk hp hw, hrec]
  simp only [hvictims, hres, List.map_cons, List.map_nil, hpush, each_singleton]
  rfl

/-- A resumed sequence of one page whose copy is served (R247). -/
theorem swapInComplete_served (hswap : w.swapIn = some (q, [a])) (habsent : r.absent s q = [(p, b)])
    (hcopy : swapPages s r w c q [(p, b, a)] = (v, .ok ())) :
    ∃ u, Quiet (r.settle v true a q p sqACTIVE) u ∧ exec (.swapInComplete h seq) s =
      .next (showWalk (kvGoOn (setWalk u { w with swapIn := none }) r { w with swapIn := none } c) h c.seq) := by
  refine ⟨_, noteResume_quiet _ r (cmdId (r.setEntries v true a q p) w.hearth c), ?_⟩
  show execSwapInComplete h seq s = _
  rw [execSwapInComplete, kvRow_walk hp hw, hrec]
  simp only [hswap, habsent, List.length_cons, List.length_nil, ne_eq, not_true, if_false, List.zip_cons_cons, List.zip_nil_right,
    List.map_cons, List.map_nil, hcopy, each_singleton]
  rfl

end

/-- The parts of a cache, and a page, lie in the near tier; the other place of the page lies in the far tier. -/
structure CacheNear (r : KvRec) (a b : Nat) : Prop where
  record : r.addr + 128 ≤ nearEnd
  tableA : r.tableA + r.tableBytes ≤ nearEnd
  tableB : r.tableB + r.tableBytes ≤ nearEnd
  seqs : r.seqTable + 16 * r.seqs ≤ nearEnd
  ring : r.ring + 8 * r.ringSize ≤ nearEnd
  page : a + r.pageBytes ≤ nearEnd
  far : 0x010000000000 ≤ b
  farEnd : b + r.pageBytes ≤ 0x050000000000

section
variable {s t u v : State} {r : KvRec} {w : KvWalk} {c : Cmd} {q p a b : Nat} (hs : Inv s) (hclean : s.symErr = []) (hq : q < r.seqs)
  (hpage : p < r.maxPages) (hl : CacheApart r a) (hn : CacheNear r a b)
include hs hclean hq hpage hl hn

/-- What a pre-emption leaves (R246): the page's bytes at the swap address, and the page at the ring's end. -/
theorem swappedOut (hsize : r.ringSize < 2 ^ 32) (hroom : r.freeCount s < r.ringSize)
    (hpush : thenPush r w c [a] (swapPages s r w c q [(p, a, b)]) = (v, .ok ())) (hu : Quiet (r.settle v false b q p sqSWAPPED) u) :
    Still s u ∧ peekBytes u b r.pageBytes = peekBytes s a r.pageBytes ∧
      (∀ slot, slot < 2 → r.entry u slot q p = entOf false (entFill (r.entry s slot q p)) b q % 2 ^ 64) ∧ r.seqState u q = sqSWAPPED ∧
      r.freeCount u = r.freeCount s + 1 ∧ peekNat u (r.ring + 8 * ((r.freeHead s + r.freeCount s) % r.ringSize)) 8 = a := by
  obtain ⟨hrecord, hA, hB, hS, hR, ha, hfar, hfarEnd⟩ := hn
  have hnear : nearEnd < 0x010000000000 := by decide
  obtain ⟨x, hx, hpushed⟩ := thenPush_ok hpush
  have hcopy : Copied a b r.pageBytes s x := .of_poke hs (swapPages_one hclean (by rw [banksStart]; omega) (by rw [banksStart]; omega) hx)
  have hcount : r.freeCount x = r.freeCount s := hcopy.kept.peekNat (by simp [Apart]; omega)
  have hhead : r.freeHead x = r.freeHead s := hcopy.kept.peekNat (by simp [Apart]; omega)
  have hpush' : Pushed r [a] x v := KvRec.push_pushed (hcopy.symErr.trans hclean) (by rw [hcount, List.length_singleton]; omega) hpushed hcopy.inv
    hsize hl.recordRing (by simp; omega)
  have hset : Settled r false b q p sqSWAPPED v (r.settle v false b q p sqSWAPPED) := settle_settled hq hpage hpush'.inv hl (by decide)
  have hfarA : Apart (r.tableA, r.tableBytes) (b, r.pageBytes) := by simp only [Apart]; omega
  have hfarB : Apart (r.tableB, r.tableBytes) (b, r.pageBytes) := by simp only [Apart]; omega
  refine ⟨((hcopy.toStill.trans hpush'.toStill).trans hset.toStill).trans hu.toStill, ?_, fun slot hslot => ?_, ?_, ?_, ?_⟩
  · rw [hu.peekBytes, hset.kept.peekBytes (by simp [Apart]; omega), hpush'.kept.peekBytes (by simp [Apart]; omega), hcopy.bytes]
  · have hcounterA : Apart (r.tableA, r.tableBytes) (r.addr + 0x38, 4) := .within hl.recordA.symm (by omega) (by omega)
    have hcounterB : Apart (r.tableB, r.tableBytes) (r.addr + 0x38, 4) := .within hl.recordB.symm (by omega) (by omega)
    have hentry : r.entry v slot q p = r.entry s slot q p := (hcopy.kept.trans hpush'.kept).peekNat (by
      simp [entry_apart hq hpage hfarA hfarB slot, entry_apart hq hpage hcounterA hcounterB slot, entry_apart hq hpage hl.ringA hl.ringB slot])
    rw [hu.entry, hset.entries slot hslot, hentry]
  · rw [hu.seqState, hset.state]
  · have hcounter {y : Nat × Nat} (hy : Apart (r.addr, 128) y) : Apart (r.addr + 0x38, 4) y := (hy.symm.within (by omega) (by omega)).symm
    rw [hu.freeCount, ← hcount]
    exact (hset.kept.peekNat (by simp [hcounter hl.recordA, hcounter hl.recordB, hcounter hl.recordSeqs])).trans hpush'.count
  · obtain ⟨hlo, hhi⟩ := ringSlot_within (ring := r.ring) (i := r.freeHead s + r.freeCount s) (size := r.ringSize) (by omega)
    rw [hu.peekNat, hset.kept.peekNat, ← hhead, ← hcount]
    · exact hpush'.slots 0 (by simp)
    · simp [(hl.ringA.within hlo hhi).symm, (hl.ringB.within hlo hhi).symm, (hl.ringSeqs.within hlo hhi).symm]

/-- What a resumption leaves (R247): the page's bytes in the page that the walk was given. -/
theorem swappedIn (hcopy : swapPages s r w c q [(p, b, a)] = (v, .ok ())) (hu : Quiet (r.settle v true a q p sqACTIVE) u) :
    Still s u ∧ peekBytes u a r.pageBytes = peekBytes s b r.pageBytes ∧
      (∀ slot, slot < 2 → r.entry u slot q p = entOf true (entFill (r.entry s slot q p)) a q % 2 ^ 64) ∧ r.seqState u q = sqACTIVE := by
  obtain ⟨_, _, _, _, _, ha, _, hfarEnd⟩ := hn
  have hnear : nearEnd < 0x010000000000 := by decide
  have hcopy : Copied b a r.pageBytes s v := .of_poke hs (swapPages_one hclean (by rw [banksStart]; omega) (by rw [banksStart]; omega) hcopy)
  have hset : Settled r true a q p sqACTIVE v (r.settle v true a q p sqACTIVE) := settle_settled hq hpage hcopy.inv hl (by decide)
  refine ⟨(hcopy.toStill.trans hset.toStill).trans hu.toStill, ?_, fun slot hslot => ?_, ?_⟩
  · rw [hu.peekBytes, hset.kept.peekBytes (by simp [hl.pageA.symm, hl.pageB.symm, hl.pageSeqs.symm]), hcopy.bytes]
  · have hentry : r.entry v slot q p = r.entry s slot q p := hcopy.kept.peekNat (by simpa using entry_apart hq hpage hl.pageA hl.pageB slot)
    rw [hu.entry, hset.entries slot hslot, hentry]
  · rw [hu.seqState, hset.state]

end

/-! ### The statement -/

/-- Settles O45: the latch and the page of a walk by `kvHomeRequest_latches` and `kvRetry_takes`, the two swaps by `swappedOut` and `swappedIn`. -/
theorem cacheWalksAndSwaps : Obligations.CacheWalksAndSwaps := by
  constructor
  · intro h seq c x q s u v r count hs hfound hnumber hst hpaged hhome hx hcancel hclean
    have hp : Paged h seq c s := ⟨hfound, hnumber, hst, hpaged, hhome⟩
    refine ⟨fun happ hnone hseqs hlt hle hactive hread hgood hwrite hapart =>
        kvHomeRequest_latches hp rfl hs hclean happ hnone hseqs hlt hle hactive hread hgood hwrite hapart,
      fun w hw _ _ => ⟨fun hidle => kvRetry_idle hp hw hidle, ?_⟩⟩
    intro hwaiting happ hphase hvictims hswap hseqs hpages hsame hneed hfit hfree hpos hread hpop
    exact kvRetry_takes hp rfl hs hclean hx hcancel hw hwaiting happ hphase hvictims hswap hseqs hpages hsame hneed hfit hfree hpos hread hpop
  · intro h seq c w q p a b rest s v r far fill hs hfound hnumber hst hpaged hhome hw hhearth hcmd hclean hq hpage ha hpairs hrecord hA hB hS hring
    have hp : Paged h seq c s := ⟨hfound, hnumber, hst, hpaged, hhome⟩
    have hl : CacheApart r a := .of_pairwise hpairs
    have hset (t : State) (w' : KvWalk) (h₁ : w'.hearth = w.hearth) (h₂ : w'.cmd = w.cmd) : findWalk (setWalk t w') h c.seq = some w' := by
      rw [← hhearth, ← hcmd, ← h₁, ← h₂]
      exact findWalk_setWalk t w'
    refine ⟨fun hvictims hres hb hfar hroom hpush => ?_, fun _ hswap habsent hfar hcopy => ?_⟩
    · obtain ⟨u, hu, hexec⟩ := swapOutComplete_served hp rfl hw hvictims hres hb hpush
      obtain ⟨hstill, hbytes, hentries, hstate, hcount, hslot⟩ := swappedOut hs hclean hq hpage hl ⟨hrecord, hA, hB, hS, hring, ha, hfar.1, hfar.2⟩
        (KvRec.at_ringSize_lt s (kvAddr c)) hroom hpush hu
      exact ⟨_, hexec, hbytes, hentries, hstate, hcount, hslot, hset _ _ rfl rfl, hstill.disps, hstill.tickets⟩
    · obtain ⟨u, hu, hexec⟩ := swapInComplete_served hp rfl hw hswap habsent hcopy
      obtain ⟨hstill, hbytes, hentries, hstate⟩ := swappedIn hs hclean hq hpage hl ⟨hrecord, hA, hB, hS, hring, ha, hfar.1, hfar.2⟩ hcopy hu
      exact ⟨_, hexec, hbytes, hentries, hstate, hset _ _ rfl rfl, hstill.disps, hstill.tickets⟩

end Sys2Proof.Machine
end

section
/-! SUPPORT. What the stash's placement looks at (R265): the entries, the PUTs that wait, and the registers of arenas and quotas; and what leaves
them alone. -/

namespace Sys2Proof.Machine

/-! ### What requests leave of the stash -/

/-- What a placement reads stands as it did: the entries, and the registers of the directory, the arenas and the quotas (R265, Table 10-8). -/
structure PlacesKept (s t : State) : Prop where
  stash : t.stash = s.stash
  regs : ∀ o, o < 0x1600c0 → regVal t o = regVal s o

theorem PlacesKept.trans {s t u : State} (a : PlacesKept s t) (b : PlacesKept t u) : PlacesKept s u :=
  ⟨b.stash.trans a.stash, fun o ho => (b.regs o ho).trans (a.regs o ho)⟩

/-- So do the PUTs that wait. -/
structure StashKept (s t : State) : Prop extends PlacesKept s t where
  waits : t.stashWait = s.stashWait

namespace StashKept
variable {s t : State}

theorem refl (s : State) : StashKept s s := ⟨⟨rfl, fun _ _ => rfl⟩, rfl⟩

theorem trans {u : State} (a : StashKept s t) (b : StashKept t u) : StashKept s u :=
  ⟨a.toPlacesKept.trans b.toPlacesKept, b.waits.trans a.waits⟩

theorem ite {α : Type} {p : Prop} [Decidable p] {x y : State × α} (hx : StashKept s x.1) (hy : StashKept s y.1) :
    StashKept s (if p then x else y).1 := by
  split
  · exact hx
  · exact hy

theorem select {p : Prop} [Decidable p] {x y : State} (hx : StashKept s x) (hy : StashKept s y) : StashKept s (if p then x else y) := by
  split
  · exact hx
  · exact hy

theorem wr (h : StashKept s t) (f : Fld) (hf : 0x1600c0 ≤ f.off) (v : Nat) : StashKept s (Machine.wr t f v) :=
  h.trans ⟨⟨rfl, fun _ ho => regVal_setReg_ne _ _ (by omega)⟩, rfl⟩

theorem satAdd (h : StashKept s t) (f : Fld) (hf : 0x1600c0 ≤ f.off) (n : Nat) : StashKept s (Machine.satAdd t f n) := h.wr f hf _

theorem cntMem (h : StashKept s t) (d k n : Nat) : StashKept s (Machine.cntMem t d k n) :=
  h.wr _ (by simp only [F.CNT_MEM_VALUE]; omega) _

theorem cntIo (h : StashKept s t) (k n : Nat) : StashKept s (Machine.cntIo t k n) :=
  h.wr _ (by simp only [F.CNT_IO_VALUE]; omega) _

theorem cntHearth (h : StashKept s t) (g k n : Nat) : StashKept s (Machine.cntHearth t g k n) :=
  h.wr _ (by simp only [F.CNT_HEARTH_VALUE]; omega) _

theorem emberCode (h : StashKept s t) (u code : Nat) (c : Option CmdId) : StashKept s (Machine.emberCode t u code c) := by
  refine h.trans ?_
  cases c <;> exact ⟨⟨by rw [Machine.emberCode, emberPut_frame], fun _ ho => regVal_emberPut t (by omega) ..⟩,
    by rw [Machine.emberCode, emberPut_frame]⟩

theorem poke (h : StashKept s t) (a : Nat) (d : Bytes) : StashKept s (Machine.poke t a d) := h.trans ⟨⟨rfl, fun _ _ => rfl⟩, rfl⟩

theorem updCmd (h : StashKept s t) (g seq : Nat) (f : Cmd → Cmd) : StashKept s (Machine.updCmd t g seq f) :=
  h.trans ⟨⟨rfl, fun _ _ => rfl⟩, rfl⟩

theorem each {α : Type} {f : State → α → State} (hf : ∀ s x, StashKept s (f s x)) (xs : List α) (s : State) :
    StashKept s (Machine.each xs s f) := by
  induction xs generalizing s with
  | nil => exact .refl s
  | cons x xs ih => exact (hf s x).trans (ih (f s x))

end StashKept

theorem raiseVec_stashKept (s : State) (p v : Nat) : StashKept s (raiseVec s p v) := by
  have hpend : StashKept s (wr s ⟨(F.HIF_IRQ_PEND p).off, v, 1⟩ 1) :=
    (StashKept.refl s).wr _ (by simp only [F.HIF_IRQ_PEND]; omega) 1
  unfold raiseVec msixSend
  dsimp only
  split
  · exact .refl s
  · split <;> exact hpend.trans ⟨⟨rfl, fun _ _ => rfl⟩, rfl⟩

theorem eccRead_stashKept (s : State) (sec : Nat) (scrub : Bool) (cmd : Option CmdId) : StashKept s (eccRead s sec scrub cmd).1 := by
  unfold eccRead
  extract_lets c w rewrite
  have hrewrite (w : List Nat) : StashKept s (rewrite s w) := ⟨⟨rfl, fun _ _ => rfl⟩, rfl⟩
  have herr : 0x1600c0 ≤ (F.MEM_ERR_CORR c).off := by simp only [F.MEM_ERR_CORR]; omega
  have haddr : 0x1600c0 ≤ (F.MEM_ERR_ADDR_ADDR c).off := by simp only [F.MEM_ERR_ADDR_ADDR]; omega
  refine .ite (.refl s) ?_
  split
  · exact hrewrite w
  · next es _ =>
    have hfixed := ((hrewrite (repair w es)).wr (F.MEM_ERR_CORR c) herr 1).satAdd (F.MEM_ERR_CORR_COUNT c) herr 1
    exact ((hfixed.cntMem _ _ _).cntMem _ _ _).emberCode _ _ _
  · next s₁ s₂ s₃ s₄ _ _ =>
    have hpoison : StashKept s s₁ := ⟨⟨rfl, fun _ _ => rfl⟩, rfl⟩
    have hpoisoned : StashKept s s₄ :=
      ((((hpoison.wr (F.MEM_ERR_ADDR_ADDR c) haddr _).wr (F.MEM_ERR_ADDR_KIND c) haddr _).wr (F.MEM_ERR_UNCORR c) herr 1).satAdd
        (F.MEM_ERR_UNCORR_COUNT c) herr 1).cntMem _ _ _
    split
    · exact (hpoisoned.wr (F.MEM_ERR_SCRUB_POISON c) herr 1).emberCode _ _ _
    · exact hpoisoned.emberCode _ _ _

theorem ownerFault_stashKept (s : State) (n who a : Nat) (write : Bool) : StashKept s (ownerFault s n who a write) := by
  have hfault := (((StashKept.refl s).wr F.BNK_FAULT_BANK (by decide) n).wr F.BNK_FAULT_INITIATOR (by decide) who).wr F.BNK_FAULT_WRITE (by decide)
    (if write then 1 else 0)
  exact (hfault.wr F.BNK_FAULT_ADDR_ADDR (by decide) a).wr F.BNK_EVENT_OWNER_FAULT (by decide) 1

theorem access_stashKept (s : State) (id a n : Nat) (write : Bool) (cmd : Option CmdId) : StashKept s (access s id a n write cmd).1 := by
  unfold access
  extract_lets sec c d
  have hself := StashKept.refl s
  split
  · exact hself
  · exact hself
  · have haddr : 0x1600c0 ≤ (F.MEM_ERR_ADDR_ADDR c).off := by simp only [F.MEM_ERR_ADDR_ADDR]; omega
    have hheal : StashKept s (healSector { s with poison := s.poison.filter (· != sec) } sec) := ⟨⟨rfl, fun _ _ => rfl⟩, rfl⟩
    refine .ite (hself.cntMem _ _ _) (.ite hself (.ite (hself.cntMem _ _ _) (.ite hself (.ite (hheal.cntMem _ _ _)
      (.ite ((hself.wr (F.MEM_ERR_ADDR_ADDR c) haddr sec).wr (F.MEM_ERR_ADDR_KIND c) haddr 3) ?_)))))
    have hecc := eccRead_stashKept s sec false cmd
    split
    · next heq => rw [heq] at hecc; exact hecc.cntMem _ _ _
    · next heq => rw [heq] at hecc; exact hecc
  · next k _ =>
    have herr : 0x1600c0 ≤ (F.CXL_ERR_POISON k).off := by simp only [F.CXL_ERR_POISON]; omega
    have haddr : 0x1600c0 ≤ (F.CXL_ERR_ADDR_ADDR k).off := by simp only [F.CXL_ERR_ADDR_ADDR]; omega
    have hpoison : StashKept s { s with farPoison := s.farPoison.filter (· != sec) } := ⟨⟨rfl, fun _ _ => rfl⟩, rfl⟩
    have hpoisoned := (hself.wr (F.CXL_ERR_POISON k) herr 1).satAdd (F.CXL_ERR_POISON_COUNT k) herr 1
    refine .ite (.ite hself hself) (.ite hself (.ite (hpoisoned.wr (F.CXL_ERR_ADDR_ADDR k) haddr sec) ?_))
    cases write
    · exact hself.cntIo _ _
    · exact hpoison.cntIo _ _
  · have hraise := raiseVec_stashKept s
    exact .ite hself (.ite (hraise _ 4) (.ite (hraise _ 4) (.ite (hraise _ 4) (.ite (hraise _ 4) (hself.cntIo _ _)))))
  · split
    · exact hself
    · exact .ite (ownerFault_stashKept ..) (.ite hself (.ite hself hself))

section
variable (who : Nat) (cmd : Option CmdId)

theorem touchFrom_stashKept (write : Bool) (fuel : Nat) (s : State) (a n : Nat) : StashKept s (touchFrom s who write cmd fuel a n).1 := by
  induction fuel generalizing s a n with
  | zero => exact .refl s
  | succ fuel ih =>
    have hacc := access_stashKept s who a (min n (64 - a % 64)) write cmd
    rw [touchFrom]
    refine .ite (.refl s) ?_
    dsimp only
    split
    · next heq => rw [heq] at hacc; exact hacc.trans (ih ..)
    · exact hacc

theorem touchRanges_stashKept (write : Bool) (rs : List (Nat × Nat)) (s : State) : StashKept s (touchRanges s who write cmd rs).1 := by
  induction rs generalizing s with
  | nil => exact .refl s
  | cons r rs ih =>
    obtain ⟨a, n⟩ := r
    have hfirst := touchFrom_stashKept who cmd write (n / 64 + 2) s a n
    rw [touchRanges]
    split
    · next heq => rw [heq] at hfirst; exact hfirst.trans (ih _)
    · exact hfirst

theorem holesFrom_stashKept (fuel : Nat) (s : State) (a n : Nat) : StashKept s (holesFrom s who cmd fuel a n).1 := by
  induction fuel generalizing s a n with
  | zero => exact .refl s
  | succ fuel ih =>
    have hacc := access_stashKept s who a (min n (64 - a % 64)) true cmd
    rw [holesFrom]
    refine .ite (.refl s) ?_
    dsimp only
    split
    · next heq => rw [heq] at hacc; exact hacc
    · next u _ _ heq =>
      rw [heq] at hacc
      have hrest := hacc.trans (ih u (a + min n (64 - a % 64)) (n - min n (64 - a % 64)))
      split
      · next heq => rw [heq] at hrest; exact hrest
      · exact hrest

theorem touchWrites_stashKept (rs : List (Nat × Nat)) (s : State) : StashKept s (touchWrites s who cmd rs).1 := by
  induction rs generalizing s with
  | nil => exact .refl s
  | cons r rs ih =>
    obtain ⟨a, n⟩ := r
    have hfirst := holesFrom_stashKept who cmd (n / 64 + 2) s a n
    rw [touchWrites]
    split
    · next u _ heq =>
      rw [heq] at hfirst
      have hrest := hfirst.trans (ih u)
      split
      · next heq => rw [heq] at hrest; exact hrest
      · exact hrest
    · exact hfirst

theorem readFrom_stashKept (fuel : Nat) (s : State) (a n : Nat) : StashKept s (readFrom s who cmd fuel a n).1 := by
  induction fuel generalizing s a n with
  | zero => exact .refl s
  | succ fuel ih =>
    have hacc := access_stashKept s who a (min n (64 - a % 64)) false cmd
    rw [readFrom]
    refine .ite (.refl s) ?_
    dsimp only
    split
    · next heq => rw [heq] at hacc; exact hacc
    · next heq => rw [heq] at hacc; exact hacc
    · next v _ heq =>
      rw [heq] at hacc
      have hrest := hacc.trans (ih v (a + min n (64 - a % 64)) (n - min n (64 - a % 64)))
      split
      · next heq => rw [heq] at hrest; exact hrest
      · exact hrest

theorem writeTo_stashKept (fuel : Nat) (s : State) (a : Nat) (d : Bytes) : StashKept s (writeTo s who cmd fuel a d).1 := by
  induction fuel generalizing s a d with
  | zero => exact .refl s
  | succ fuel ih =>
    have hacc := access_stashKept s who a (min d.length (64 - a % 64)) true cmd
    rw [writeTo]
    refine .ite (.refl s) ?_
    dsimp only
    split
    · next heq => rw [heq] at hacc; exact (hacc.poke _ _).trans (ih ..)
    · exact hacc

end

end Sys2Proof.Machine
end

section
/-! SUPPORT. What a failure leaves of the PUTs that wait (R161, R266): it drops unstarted commands and may end its ticket, and takes no PUT off the
list of those that wait. -/

namespace Sys2Proof.Machine

/-- The PUTs that wait, oldest first. -/
structure Waiting (ws : List (Nat × Nat)) (s : State) : Prop where
  list : s.stashWait = ws

theorem StashKept.waiting {s t : State} {ws : List (Nat × Nat)} (k : StashKept s t) (h : Waiting ws s) : Waiting ws t :=
  ⟨k.waits.trans h.list⟩

namespace Waiting
variable {ws : List (Nat × Nat)} {s : State}

/-! ### Updates -/

theorem ite {p : Prop} [Decidable p] {x y : State} (hx : Waiting ws x) (hy : Waiting ws y) : Waiting ws (if p then x else y) := by
  split
  · exact hx
  · exact hy

theorem each {α : Type} (h : Waiting ws s) {f : State → α → State} (hf : ∀ {s} x, Waiting ws s → Waiting ws (f s x)) (xs : List α) :
    Waiting ws (each xs s f) := by
  induction xs generalizing s with
  | nil => exact h
  | cons x xs ih => exact ih (hf x h)

theorem wr (h : Waiting ws s) (f : Fld) (v : Nat) : Waiting ws (wr s f v) := ⟨h.list⟩
theorem poke (h : Waiting ws s) (a : Nat) (d : Bytes) : Waiting ws (poke s a d) := ⟨h.list⟩
theorem setDisp (h : Waiting ws s) (g : Nat) (d : Disp) : Waiting ws (setDisp s g d) := ⟨h.list⟩
theorem setCore (h : Waiting ws s) (k : Nat) (c : AwlCore) : Waiting ws (setCore s k c) := ⟨h.list⟩
theorem updCmd (h : Waiting ws s) (g seq : Nat) (f : Cmd → Cmd) : Waiting ws (updCmd s g seq f) := ⟨h.list⟩
theorem updTicket (h : Waiting ws s) (key : Nat) (f : Ticket → Ticket) : Waiting ws (updTicket s key f) := ⟨h.list⟩
theorem ticketFlags (h : Waiting ws s) (key m : Nat) : Waiting ws (ticketFlags s key m) := ⟨h.list⟩
theorem setQueue (h : Waiting ws s) (g q : Nat) (x : HQueue) : Waiting ws (setQueue s g q x) := ⟨h.list⟩
theorem clearPending (h : Waiting ws s) (g : Nat) : Waiting ws (clearPending s g) := ⟨h.list⟩
theorem syncInflight (h : Waiting ws s) (g : Nat) : Waiting ws (syncInflight s g) := ⟨h.list⟩
theorem cntHearth (h : Waiting ws s) (g k n : Nat) : Waiting ws (cntHearth s g k n) := ⟨h.list⟩

theorem emberCode (h : Waiting ws s) (u code : Nat) (c : Option CmdId) : Waiting ws (emberCode s u code c) :=
  ((StashKept.refl s).emberCode u code c).waiting h

theorem raiseVec (h : Waiting ws s) (p v : Nat) : Waiting ws (raiseVec s p v) := (raiseVec_stashKept s p v).waiting h

theorem hifErr (h : Waiting ws s) (code p ring addr : Nat) : Waiting ws (hifErr s code p ring addr) :=
  raiseVec (((((h.wr _ _).wr _ _).wr _ _).wr _ _)) p 4

theorem unitAt (h : Waiting ws s) (unit : Nat → Nat) (rs : List (Nat × Nat)) : Waiting ws (unitAt s unit rs).2 := by
  unfold Machine.unitAt
  split
  · exact h
  · exact ⟨h.list⟩

/-! ### Requests and records -/

theorem unitUpdate (h : Waiting ws s) (rs : List (Nat × Nat)) {k : State → State} (hk : ∀ {s}, Waiting ws s → Waiting ws (k s)) :
    Waiting ws (unitUpdate s rs k) := by
  have htouch : Waiting ws (unitTouch s rs).1 := by
    have hreqs := (touchRanges_stashKept idSup none true (rs.filter fun r => decide (r.1 < nearEnd)) s).waiting h
    unfold unitTouch
    split
    · next heq => rw [heq] at hreqs; exact hreqs
    · next heq => rw [heq] at hreqs; exact hreqs
  unfold Machine.unitUpdate
  split
  · next heq => rw [heq] at htouch; exact hk htouch
  · next heq => rw [heq] at htouch; exact htouch

theorem memWrite (h : Waiting ws s) (who a : Nat) (d : Bytes) (cmd : Option CmdId) : Waiting ws (memWrite s who a d cmd).1 :=
  (writeTo_stashKept who cmd _ s a d).waiting h

theorem writeMarked (h : Waiting ws s) (addr : Nat) (body : Bytes) (mark : Nat) : Waiting ws (writeMarked s addr body mark).1 := by
  have hbody := h.memWrite idSup addr body none
  unfold Machine.writeMarked
  split
  · next heq => rw [heq] at hbody; exact memWrite hbody ..
  · exact hbody

theorem writeRecord (h : Waiting ws s) (addr : Nat) (body : Bytes) (ring : Nat × Nat) (intr : Bool) :
    Waiting ws (writeRecord s addr body ring intr) := by
  have hmarked := h.writeMarked addr body 0x1F
  unfold Machine.writeRecord
  extract_lets told
  have htold {t : State} (ht : Waiting ws t) : Waiting ws (told t) := .ite (ht.raiseVec _ _) ht
  split
  · next t _ heq =>
    have ht : Waiting ws t := by rwa [heq] at hmarked
    exact .ite (h.hifErr ..) (htold ht)
  · next heq => rw [heq] at hmarked; exact ⟨hmarked.list⟩
  · next heq => rw [heq] at hmarked; exact htold hmarked

/-! ### Scale records, parameter records and holds -/

theorem mergeReport (h : Waiting ws s) (r : ScaleReport) : Waiting ws (mergeReport s r) := by
  refine h.unitUpdate _ fun h => ?_
  extract_lets c s₁ s₂
  have h₂ : Waiting ws s₂ := (h.poke _ _).poke _ _
  split
  · exact h₂
  · exact .ite ((h₂.poke _ _).poke _ _) ⟨by exact h₂.list⟩

theorem reportTo (h : Waiting ws s) (c : Cmd) (d : Desc) (amax : Option Nat) (dom stat : Nat) : Waiting ws (reportTo s c d amax dom stat) :=
  .ite h (.ite ⟨h.list⟩ (h.mergeReport _))

theorem appendScale (h : Waiting ws s) (a : Nat) : Waiting ws (appendScale s a) := by
  refine h.unitUpdate _ fun h => ?_
  extract_lets c s₂ n s₃ s₄ m v p s₁
  have h₁ : Waiting ws s₁ := by
    refine .ite h ?_
    have h₄ : Waiting ws s₄ := ((h.poke _ _).poke _ _).poke _ _
    split
    · exact .ite ((h₄.poke _ _).poke _ _) h₄
    · exact h₄
  exact .ite h ((h₁.poke _ _).poke _ _)

theorem closeScales (h : Waiting ws s) (ticket : Nat) (step : Option Nat) : Waiting ws (closeScales s ticket step) := by
  unfold Machine.closeScales
  extract_lets mine s₁
  have h₁ : Waiting ws s₁ := each ⟨by exact h.list⟩ (fun _ h => h.appendScale _) _
  split
  · exact h₁
  · exact each ⟨by exact h₁.list⟩ (fun r h => h.mergeReport r) _

theorem abandonStep (h : Waiting ws s) (ticket : Nat) : Waiting ws (abandonStep s ticket) := by
  have hscales : Waiting ws (abandonScales s ticket) := each ⟨by exact h.list⟩ (fun e h => h.unitUpdate _ fun h => (h.poke _ _).poke _ _) _
  exact each ⟨by exact hscales.list⟩ (fun x h => (h.unitUpdate _ fun h => h.poke _ _).each (fun r h => ⟨by exact h.list⟩) _) _

theorem evalDrop (h : Waiting ws s) (p : Nat × Nat × Nat × Nat → Bool) : Waiting ws (evalDrop s p) :=
  each ⟨by exact h.list⟩ (fun x h => h.unitUpdate _ fun h => h.poke _ _) _

/-! ### The end of a ticket -/

theorem gateMes (h : Waiting ws s) (g mask : Nat) : Waiting ws (gateMes s g mask) :=
  .ite h (.ite h ((((h.each (fun _ h => h.wr _ _) _).wr _ _).wr _ _).wr _ _))

theorem freeKept (h : Waiting ws s) (p : KeptSlot → Bool) : Waiting ws (freeKept s p) := by
  have hslots : Waiting ws (Machine.each (s.kept.filter p) { s with kept := s.kept.filter fun x => !p x } fun s x =>
    Machine.wr s (slotF (x.me / 16) (x.me % 16) x.slot) slotFREE) := each ⟨by exact h.list⟩ (fun x h => h.wr _ _) _
  exact .ite hslots (hslots.each (fun g h => h.gateMes g _) _)

theorem freeStats (h : Waiting ws s) (p : StatTag → Bool) : Waiting ws (freeStats s p) := each ⟨by exact h.list⟩ (fun g h => (h.wr _ _).wr _ _) _

theorem syncRails (h : Waiting ws s) : Waiting ws (syncRails s) := .ite (((h.wr _ _).wr _ _).wr _ _) ((h.wr _ _).wr _ _)

theorem syncStash (h : Waiting ws s) : Waiting ws (syncStash s) :=
  (((h.each (fun _ h => (h.wr _ _).wr _ _) _).wr _ _).wr _ _).syncRails

theorem freeStash (h : Waiting ws s) (p : StashEntry → Bool) : Waiting ws (freeStash s p) :=
  syncStash ⟨h.list⟩

theorem freeTicket (h : Waiting ws s) (ticket : Nat) : Waiting ws (freeTicket s ticket) := by
  unfold Machine.freeTicket
  extract_lets s₁ s₂ s₃ s₄ past gone mine s₅
  have h₄ : Waiting ws s₄ := (((h.freeKept _).freeStats _).freeStash _).evalDrop _
  clear_value s₄
  have h₅ : Waiting ws s₅ := .ite (wr (s := { s₄ with staged := none }) ⟨h₄.list⟩ _ _) h₄
  clear_value s₅
  exact ⟨h₅.list⟩

theorem freeQueues (h : Waiting ws s) (key : Nat) : Waiting ws (freeQueues s key) :=
  h.each (fun _ h => h.each (fun _ h => .ite (h.setQueue _ _ _) h) _) _

theorem completeRecord (h : Waiting ws s) (t : Ticket) : Waiting ws (completeRecord s t) := h.writeRecord ..

theorem endTicket (h : Waiting ws s) (key : Nat) : Waiting ws (endTicket s key) := by
  have hended (t : Ticket) {u : State} (hu : Waiting ws u) : Waiting ws (Machine.completeRecord (Machine.each (List.range 16)
      { u with puts := u.puts.filter fun p => p.ticket != key } fun s g =>
        Machine.setDisp s g { getDisp s g with cursors := (getDisp s g).cursors.filter fun c => c.ticket != key }) t) := by
    refine completeRecord (each ?_ (fun g h => h.setDisp _ _) _) t
    exact ⟨hu.list⟩
  unfold Machine.endTicket
  split
  · exact h
  · next t _ =>
    have hstep : Waiting ws (if t.status ≠ 0 ∧ t.prog.training = true then Machine.abandonStep s key
      else if (!t.prog.training) = true then Machine.closeScales s key none else s) :=
      .ite (h.abandonStep key) (.ite (h.closeScales key none) h)
    have hall := hended t ((hstep.freeQueues key).freeTicket key)
    exact ⟨hall.list⟩

theorem tryEnd (h : Waiting ws s) (key : Nat) : Waiting ws (tryEnd s key) := by
  unfold Machine.tryEnd
  split
  · exact .ite (h.endTicket key) h
  · exact h

/-! ### Cores -/

theorem noteOnce (h : Waiting ws s) (g : Nat) (c : Cmd) (unit : Nat) (codes : List (Nat × Nat)) (stat : Nat) :
    Waiting ws (noteOnce s g c unit codes stat) :=
  (h.each (fun _ h => .ite (h.emberCode ..) h) codes).updCmd ..

theorem notices (h : Waiting ws s) (g : Nat) (c : Cmd) (unit stat : Nat) : Waiting ws (notices s g c unit stat) :=
  (h.ticketFlags _ _).noteOnce ..

theorem coreStop (h : Waiting ws s) (k st : Nat) : Waiting ws (coreStop s k st) := by
  have hrelease : Waiting ws (releaseHeld s k) := .ite h (((h.setCore _ _).wr _ _).setDisp _ _)
  have hwithdraw : Waiting ws (withdrawCore (releaseHeld s k) k) :=
    .ite hrelease (.ite ((hrelease.setDisp _ _).clearPending _) (hrelease.setDisp _ _))
  exact ((hwithdraw.setCore _ _).wr _ _).wr _ _

theorem awlCheckDone (h : Waiting ws s) (g seq : Nat) : Waiting ws (awlCheckDone s g seq) := by
  unfold Machine.awlCheckDone
  split
  · exact h
  · next c _ =>
    extract_lets ks mine cs stat dom amax s₁ s₂ rec_ s₃ s₄
    have h₂ : Waiting ws s₂ := (h.notices ..).cntHearth ..
    have h₃ : Waiting ws s₃ := .ite h₂ (h₂.reportTo ..)
    have h₄ : Waiting ws s₄ := h₃.each (fun k h => (Waiting.ite (h.wr _ _) h).wr _ _) mine
    exact .ite h (h₄.updCmd ..)

theorem endWaitingCores (h : Waiting ws s) (key : Nat) : Waiting ws (endWaitingCores s key) :=
  h.each (fun k h => .ite (.ite ((h.coreStop k _).awlCheckDone ..) (h.coreStop k _)) h) _

/-! ### Unstarted commands -/

theorem endUnbegun (h : Waiting ws s) (c : Cmd) : Waiting ws (endUnbegun s c) := .ite h ⟨h.list⟩

theorem wasteTiles (h : Waiting ws s) (g : Nat) (c : Cmd) : Waiting ws (wasteTiles s g c) :=
  .ite (h.cntHearth ..) (cntHearth (s := { s with free := s.free + 1 }) ⟨h.list⟩ ..)

theorem unreserve (h : Waiting ws s) (c : Cmd) : Waiting ws (unreserve s c) := by
  unfold Machine.unreserve
  split
  · exact h
  · exact .ite h (h.setQueue ..)

theorem segmentRun (h : Waiting ws s) (g : Nat) (c : Cmd) : Waiting ws (segmentRun s g c) := by
  unfold Machine.segmentRun
  split
  next u v heq =>
  have hv : Waiting ws v := by
    split at heq
    · have hunit := h.unitAt U.saddle (StashEntry.places ‹_› |>.map fun p => (p * 65536, 65536))
      rwa [show Machine.unitAt s U.saddle _ = (u, v) from heq] at hunit
    · have hunit := h.unitAt U.saddle []
      rwa [heq] at hunit
  exact (((hv.ticketFlags ..).emberCode ..).wr _ _).wr _ _

theorem recompCheck (h : Waiting ws s) (g : Nat) : Waiting ws (recompCheck s g) := by
  unfold Machine.recompCheck
  split
  · exact h
  · next r _ =>
    extract_lets goes s₁
    have h₁ : Waiting ws s₁ := by
      unfold s₁
      split
      · exact .ite (h.segmentRun ..) h
      · exact h
    exact .ite (updCmd (s := { s₁ with recomps := s₁.recomps.filter fun x => x.hearth != g }) ⟨h₁.list⟩ ..) h

theorem dropUnstarted (h : Waiting ws s) (key g : Nat) : Waiting ws (dropUnstarted s key g) := by
  unfold Machine.dropUnstarted
  extract_lets d gone s₁ d₁ withdrawn s₂
  have h₁ : Waiting ws s₁ := h.each (fun c h => ((h.unreserve c).wasteTiles g c).endUnbegun c) gone
  have h₂ : Waiting ws s₂ := h₁.setDisp ..
  exact ((Waiting.ite (h₂.clearPending g) h₂).syncInflight g).recompCheck g

/-! ### A failure -/

theorem failRunning (h : Waiting ws s) (g : Nat) (c : Cmd) (unit code : Nat) : Waiting ws (failRunning s g c unit code) := by
  unfold Machine.failRunning failCmd
  extract_lets s₁
  have h₁ : Waiting ws s₁ := ((h.updCmd ..).emberCode ..).endUnbegun c
  unfold stopTicket
  extract_lets s₂ s₃
  have h₂ : Waiting ws s₂ := (h₁.updCmd ..).updTicket ..
  have h₃ : Waiting ws s₃ := h₂.each (fun g h => h.dropUnstarted _ g) _
  exact (h₃.endWaitingCores _).tryEnd _

end Waiting

end Sys2Proof.Machine
end

section
/-! SUPPORT. Where a PUT goes (R263, R265): what a placement reads of the state, the pages that it draws, and the registers that follow the
directory. -/

namespace Sys2Proof.Machine

/-! ### What a placement reads -/

theorem lt_of_quotaOf {s : State} {prog q : Nat} (hq : quotaOf s prog = some q) : q < 16 :=
  List.mem_range.mp (List.mem_of_find?_eq_some hq)

namespace PlacesKept
variable {s t : State} (k : PlacesKept s t)
include k

theorem rd {f : Fld} (hf : f.off < 0x1600c0) : Machine.rd t f = Machine.rd s f := by
  rw [Machine.rd, Machine.rd, k.regs _ hf]

theorem quotaOf (prog : Nat) : quotaOf t prog = quotaOf s prog := by
  refine List.find?_congr fun n hn => ?_
  have := List.mem_range.mp hn
  rw [k.rd (by simp only [F.SBG_PQ_PROGRAM_ID]; omega)]

theorem findStash (ticket id micro : Nat) : findStash t ticket id micro = findStash s ticket id micro := by
  rw [Machine.findStash, k.stash, Machine.findStash]

theorem arena (far : Bool) : arena t far = arena s far := by
  have hdir := k.rd (f := F.SBG_CFG_DIR_1K) (by decide)
  have hsize := k.rd (f := F.SBG_NEAR_SIZE_64K) (by decide)
  have hbase := k.rd (f := F.SBG_NEAR_BASE_64K) (by decide)
  have hfars : ∀ n ∈ List.range 4, (List.range (Machine.rd t (F.SBG_FAR_SIZE_64K n))).map (Machine.rd t (F.SBG_FAR_BASE_64K n) + ·) =
      (List.range (Machine.rd s (F.SBG_FAR_SIZE_64K n))).map (Machine.rd s (F.SBG_FAR_BASE_64K n) + ·) := by
    intro n hn
    have := List.mem_range.mp hn
    rw [k.rd (f := F.SBG_FAR_SIZE_64K n) (by simp only [F.SBG_FAR_SIZE_64K]; omega),
      k.rd (f := F.SBG_FAR_BASE_64K n) (by simp only [F.SBG_FAR_BASE_64K]; omega)]
  rw [Machine.arena, List.flatMap_congr hfars, hdir, hsize, hbase, Machine.arena]

theorem freeArena (far : Bool) : freeArena t far = freeArena s far := by
  rw [Machine.freeArena, k.arena, k.stash, Machine.freeArena]

theorem place {q : Nat} (hq : q < 16) (need : Nat) (eligible : Bool) : place t q need eligible = place s q need eligible := by
  have hnear := k.rd (f := F.SBG_PQ_NEAR_MIB q) (by simp only [F.SBG_PQ_NEAR_MIB]; omega)
  have hfar := k.rd (f := F.SBG_PQ_FAR_MIB q) (by simp only [F.SBG_PQ_FAR_MIB]; omega)
  have helig := k.rd (f := F.SBG_PQ_ELIG_FAR q) (by simp only [F.SBG_PQ_ELIG_FAR]; omega)
  have hdir := k.rd (f := F.SBG_CFG_DIR_1K) (by decide)
  have hpages : setPages t = setPages s := by
    funext q far
    rw [setPages, k.stash, setPages]
  rw [Machine.place, hdir, k.stash, hpages, funext k.freeArena, hnear, hfar, helig, Machine.place]

end PlacesKept

theorem cmdProg_of_tickets {s t : State} (ht : t.tickets = s.tickets) (c : Cmd) : cmdProg t c = cmdProg s c := by
  rw [cmdProg, findTicket, ht, cmdProg, findTicket]

/-- An entry goes near where the directory has room for it, its set's quota covers it, and the near arena has as many free pages (R265). -/
theorem place_near_iff (s : State) (q need : Nat) (eligible : Bool) : place s q need eligible = .near ↔
    s.stash.length < rd s F.SBG_CFG_DIR_1K * 1024 ∧ setPages s q false + need ≤ rd s (F.SBG_PQ_NEAR_MIB q) * 16 ∧
      need ≤ (freeArena s false).length := by
  unfold place
  extract_lets fits
  by_cases hroom : rd s F.SBG_CFG_DIR_1K * 1024 ≤ s.stash.length
  · simp [hroom]
  · have hfits : fits false (rd s (F.SBG_PQ_NEAR_MIB q)) = true ↔
        setPages s q false + need ≤ rd s (F.SBG_PQ_NEAR_MIB q) * 16 ∧ need ≤ (freeArena s false).length := by
      simp only [fits, Bool.and_eq_true, decide_eq_true_eq]
    rw [if_neg hroom, ← hfits]
    by_cases hnear : fits false (rd s (F.SBG_PQ_NEAR_MIB q)) = true
    · simp [hnear, Nat.not_le.mp hroom]
    · rw [if_neg hnear]
      split_ifs <;> simp [hnear]

/-- What goes near or far finds as many free pages there as it needs (R265). -/
theorem need_le_of_place {s : State} {q need : Nat} {eligible far : Bool} (h : place s q need eligible = if far then .far else .near) :
    need ≤ (freeArena s far).length := by
  cases far with
  | false => exact ((place_near_iff s q need eligible).mp h).2.2
  | true =>
    rw [if_pos rfl] at h
    unfold place at h
    extract_lets fits at h
    by_cases hfits : fits true (rd s (F.SBG_PQ_FAR_MIB q)) = true
    · simp only [fits, Bool.and_eq_true, decide_eq_true_eq] at hfits
      exact hfits.2
    · rw [if_neg hfits] at h
      split_ifs at h

/-! ### Pages (log entry 33) -/

theorem drawPages_frame (s : State) (n : Nat) (ps : List Nat) : (drawPages s n ps).2 = { s with free := (drawPages s n ps).2.free } := by
  induction n generalizing s ps with
  | zero => rfl
  | succ n ih =>
    rw [drawPages]
    split
    · rfl
    · exact ih { s with free := s.free + 1 } _

section
variable {ps : List Nat}

/-- The page that a free number picks of a list is one of its pages. -/
theorem getD_mod_mem (x : Nat) (h : 0 < ps.length) : ps.getD (x % ps.length) 0 ∈ ps := by
  rw [List.getD_eq_getElem _ _ (Nat.mod_lt x h)]
  exact List.getElem_mem _

theorem drawPages_length (s : State) {n : Nat} (hn : n ≤ ps.length) : (drawPages s n ps).1.length = n := by
  induction n generalizing s ps with
  | zero => rfl
  | succ n ih =>
    rw [drawPages]
    split
    · next hle => exact Nat.le_antisymm hle hn
    · next hlt =>
      have herase : n ≤ (ps.erase (ps.getD (Config.freeNat s.free % ps.length) 0)).length := by
        rw [List.length_erase_of_mem (getD_mod_mem _ (by omega))]
        omega
      exact congrArg (· + 1) (ih _ herase)

theorem mem_of_mem_drawPages (s : State) {n p : Nat} (hp : p ∈ (drawPages s n ps).1) : p ∈ ps := by
  induction n generalizing s ps with
  | zero => exact absurd hp List.not_mem_nil
  | succ n ih =>
    rw [drawPages] at hp
    split at hp
    · exact hp
    · next hlt =>
      rcases List.mem_cons.mp hp with rfl | hp
      · exact getD_mod_mem _ (by omega)
      · exact List.mem_of_mem_erase (ih _ hp)

theorem drawPages_nodup (s : State) (n : Nat) (hps : ps.Nodup) : (drawPages s n ps).1.Nodup := by
  induction n generalizing s ps with
  | zero => exact List.nodup_nil
  | succ n ih =>
    rw [drawPages]
    split
    · exact hps
    · exact List.nodup_cons.mpr ⟨fun hp => hps.not_mem_erase (mem_of_mem_drawPages _ hp), ih _ (hps.erase _)⟩

end

/-! ### The registers that follow the directory -/

theorem syncRails_frame (s : State) : syncRails s = { s with regs := (syncRails s).regs } := by
  unfold syncRails
  extract_lets ceil n s'
  split <;> rfl

theorem syncStash_frame (s : State) : syncStash s = { s with regs := (syncStash s).regs } := by
  have hpages (ns : List Nat) (u : State) : ∃ regs, each ns u (fun u n => wr (wr u (F.SBG_PUSE_NEAR_PAGES n) (setPages u n false))
      (F.SBG_PUSE_FAR_PAGES n) (setPages u n true)) = { u with regs := regs } := by
    induction ns generalizing u with
    | nil => exact ⟨u.regs, rfl⟩
    | cons n ns ih =>
      obtain ⟨regs, hregs⟩ := ih (wr (wr u (F.SBG_PUSE_NEAR_PAGES n) (setPages u n false)) (F.SBG_PUSE_FAR_PAGES n) (setPages u n true))
      exact ⟨regs, hregs⟩
  obtain ⟨regs, hregs⟩ := hpages (List.range 16) s
  rw [syncStash, hregs, syncRails_frame]
  rfl

theorem syncStash_untouched (s : State) : Untouched s (syncStash s) :=
  ⟨by rw [syncStash_frame], by rw [syncStash_frame], by rw [syncStash_frame]⟩

theorem syncStash_stash (s : State) : (syncStash s).stash = s.stash := by rw [syncStash_frame]

end Sys2Proof.Machine
end

section
/-! SUPPORT. The store of a PUT's entry (R264, R265): its notices and counts, its bytes on its pages, and what it leaves of the directory, the window
and the PUTs that wait. -/

namespace Sys2Proof.Machine

/-! ### Engines and notices -/

theorem unitAt_frame (s : State) (unit : Nat → Nat) (rs : List (Nat × Nat)) :
    (unitAt s unit rs).2 = { s with free := (unitAt s unit rs).2.free } := by
  unfold unitAt
  split <;> rfl

theorem unitAt_stashKept (s : State) (unit : Nat → Nat) (rs : List (Nat × Nat)) : StashKept s (unitAt s unit rs).2 := by
  rw [unitAt_frame]
  exact ⟨⟨rfl, fun _ _ => rfl⟩, rfl⟩

theorem unitAt_untouched (s : State) (unit : Nat → Nat) (rs : List (Nat × Nat)) : Untouched s (unitAt s unit rs).2 := by
  rw [unitAt_frame]
  exact ⟨rfl, rfl, rfl⟩

theorem notices_stashKept (s : State) (h : Nat) (c : Cmd) (unit stat : Nat) : StashKept s (notices s h c unit stat) := by
  have hflags : StashKept s (ticketFlags s c.ticket (stat % 8)) := ⟨⟨rfl, fun _ _ => rfl⟩, rfl⟩
  exact hflags.trans (.updCmd (.each (fun s _ => .select ((StashKept.refl s).emberCode ..) (.refl s)) _ _) ..)

theorem stashCount_stashKept (s : State) (k : Nat) (far : Bool) (rs : List (Nat × Nat)) : StashKept s (stashCount s k far rs) := by
  have hfree : StashKept s { s with free := s.free + 1 } := ⟨⟨rfl, fun _ _ => rfl⟩, rfl⟩
  cases far
  · exact ((StashKept.refl s).cntMem ..).cntMem ..
  · exact (hfree.cntMem ..).cntMem ..

theorem stashCount_untouched (s : State) (k : Nat) (far : Bool) (rs : List (Nat × Nat)) : Untouched s (stashCount s k far rs) := by
  cases far <;> exact ⟨rfl, rfl, rfl⟩

/-- A stash command that fails takes no other PUT off the list. -/
theorem saddleFail_waiting {s : State} {ws : List (Nat × Nat)} (h : Waiting ws s) (g : Nat) (c : Cmd) (code : Nat) :
    Waiting ws (saddleFail s g c code) :=
  (h.unitAt U.saddle []).failRunning ..

/-! ### The store of an entry -/

theorem pokeSpans_frame (s : State) (rs : List (Nat × Nat)) (d : Bytes) : pokeSpans s rs d = { s with mem := (pokeSpans s rs d).mem } := by
  induction rs generalizing s d with
  | nil => rfl
  | cons r rs ih => exact ih (poke s r.1 (d.take r.2)) (d.drop r.2)

theorem pokeSpans_mem {s t : State} (hm : t.mem = s.mem) (rs : List (Nat × Nat)) (d : Bytes) : (pokeSpans t rs d).mem = (pokeSpans s rs d).mem := by
  induction rs generalizing s t d with
  | nil => exact hm
  | cons r rs ih => exact ih (congrArg (·.setBytes r.1 (d.take r.2)) hm) (d.drop r.2)

/-- The entry stands in the directory and its bytes on its pages, and its PUT works on (R264, R265): the requests have left state v. -/
def entryPlaced (s : State) (h : Nat) (c : Cmd) (d : Desc) (e : StashEntry) (v : State) : State :=
  let un := saddleOf s e
  let ps := narrowEntry un.2 c d
  let rs := e.spans 0 (e.rows * stashLine e.fmt e.size0)
  let noted := notices v h c un.1 (ps.foldl (fun a p => a ||| p.stat) 0)
  let counted := stashCount (saddleCount noted un.1 9 (ps.filter (·.dominated)).length) 4 e.far rs
  let poked := pokeSpans { counted with stash := counted.stash ++ [e] } rs (ps.flatMap (·.bytes))
  syncStash (updCmd poked h c.seq fun x => { x with st := .working, phase := 0 })

section
variable {s v : State} {h : Nat} {c : Cmd} {d : Desc} {e : StashEntry}

theorem storeEntry_served (hw : touchWrites (saddleOf s e).2 (idDisp h) (some (cmdId (saddleOf s e).2 h c))
    (e.spans 0 (e.rows * stashLine e.fmt e.size0)) = (v, .ok [])) : storeEntry s h c d e = entryPlaced s h c d e v := by
  unfold storeEntry
  simp only [hw]
  rfl

theorem entryPlaced_stash (s : State) (h : Nat) (c : Cmd) (d : Desc) (e : StashEntry) (v : State) :
    (entryPlaced s h c d e v).stash = v.stash ++ [e] := by
  have hkept := (((notices_stashKept v h c (saddleOf s e).1 ((narrowEntry (saddleOf s e).2 c d).foldl (fun a p => a ||| p.stat) 0)).cntMem
    (dieOf ((saddleOf s e).1 - U.saddle 0)) 9 ((narrowEntry (saddleOf s e).2 c d).filter (·.dominated)).length).trans
      (stashCount_stashKept _ 4 e.far (e.spans 0 (e.rows * stashLine e.fmt e.size0)))).stash
  rw [entryPlaced, syncStash_stash]
  exact (congrArg State.stash (pokeSpans_frame ..)).trans (congrArg (· ++ [e]) hkept)

theorem entryPlaced_standsOver (hc : findCmd v h c.seq = some c) :
    StandsOver (pokeSpans v (e.spans 0 (e.rows * stashLine e.fmt e.size0)) ((narrowEntry (saddleOf s e).2 c d).flatMap (·.bytes))).mem h
      { c with st := .working, phase := 0 } (entryPlaced s h c d e v) := by
  unfold entryPlaced
  extract_lets un ps rs noted counted poked
  have hflags : Untouched v (ticketFlags v c.ticket ((ps.foldl (fun a p => a ||| p.stat) 0) % 8)) := ⟨rfl, rfl, rfl⟩
  have hnoted : StandsOver v.mem h c noted := ((StandsOver.of_found hc).untouched hflags).noteOnce ..
  have hsaddle : Untouched noted (saddleCount noted un.1 9 (ps.filter (·.dominated)).length) := ⟨rfl, rfl, rfl⟩
  obtain ⟨⟨n, hn⟩, hm⟩ := (hnoted.untouched hsaddle).untouched (stashCount_untouched _ 4 e.far rs)
  have hfound : findCmd poked h c.seq = some { c with noted := n } :=
    (findCmd_of_disps (by unfold poked; rw [pokeSpans_frame]) h c.seq).trans hn
  have hmem : poked.mem = (pokeSpans v rs (ps.flatMap (·.bytes))).mem := pokeSpans_mem (by exact hm) rs _
  clear_value poked
  have hstands : StandsOver (pokeSpans v rs (ps.flatMap (·.bytes))).mem h { c with st := .working, phase := 0 }
      (updCmd poked h c.seq fun x => { x with st := .working, phase := 0 }) :=
    ⟨⟨n, findCmd_updCmd_same (f := fun x => { x with st := .working, phase := 0 }) (fun _ => rfl) hfound⟩, hmem⟩
  exact hstands.untouched (syncStash_untouched _)

/-- An entry whose writes are served stands in the directory and its bytes on its pages (R264, R265). -/
theorem storeEntry_places (d : Desc) (hc : findCmd s h c.seq = some c)
    (hw : touchWrites (saddleOf s e).2 (idDisp h) (some (cmdId (saddleOf s e).2 h c)) (e.spans 0 (e.rows * stashLine e.fmt e.size0)) = (v, .ok [])) :
    (storeEntry s h c d e).stash = s.stash ++ [e] ∧
      StandsOver (pokeSpans v (e.spans 0 (e.rows * stashLine e.fmt e.size0)) ((narrowEntry (saddleOf s e).2 c d).flatMap (·.bytes))).mem h
        { c with st := .working, phase := 0 } (storeEntry s h c d e) := by
  have hstash := (touchWrites_stashKept (idDisp h) (some (cmdId (saddleOf s e).2 h c)) (e.spans 0 (e.rows * stashLine e.fmt e.size0))
    (saddleOf s e).2).stash
  have hunits := touchWrites_unitsKept (idDisp h) (some (cmdId (saddleOf s e).2 h c)) (e.spans 0 (e.rows * stashLine e.fmt e.size0)) (saddleOf s e).2
  rw [hw] at hstash hunits
  rw [storeEntry_served hw, entryPlaced_stash]
  refine ⟨congrArg (· ++ [e]) (hstash.trans (unitAt_stashKept s U.saddle _).stash), entryPlaced_standsOver ?_⟩
  exact (hunits.findCmd ..).trans (((unitAt_untouched s U.saddle _).findCmd ..).trans hc)

theorem entryPlaced_waiting {ws : List (Nat × Nat)} (hv : Waiting ws v) : Waiting ws (entryPlaced s h c d e v) := by
  unfold entryPlaced
  extract_lets un ps rs noted counted poked
  have hcounted : Waiting ws counted := (stashCount_stashKept ..).waiting ((hv.notices ..).wr _ _)
  have hpoked : Waiting ws poked := by
    unfold poked
    rw [pokeSpans_frame]
    exact ⟨hcounted.list⟩
  exact (hpoked.updCmd ..).syncStash

end

/-- The store of an entry takes no PUT off the list, however it ends. -/
theorem storeEntry_waiting {s : State} {ws : List (Nat × Nat)} (hs : Waiting ws s) (h : Nat) (c : Cmd) (d : Desc) (e : StashEntry) :
    Waiting ws (storeEntry s h c d e) := by
  have hreqs : Waiting ws (touchWrites (saddleOf s e).2 (idDisp h) (some (cmdId (saddleOf s e).2 h c))
      (e.spans 0 (e.rows * stashLine e.fmt e.size0))).1 := (touchWrites_stashKept ..).waiting (hs.unitAt ..)
  unfold storeEntry
  dsimp only
  split
  · next v holes heq =>
    rw [heq] at hreqs
    have hplaced : Waiting ws (entryPlaced s h c d e v) := entryPlaced_waiting hreqs
    refine Waiting.each (.ite hplaced (hplaced.cntHearth ..)) (fun _ h => ?_) holes
    exact ⟨h.list⟩
  · next heq => rw [heq] at hreqs; exact hreqs.failRunning ..
  · next heq => rw [heq] at hreqs; exact hreqs

end Sys2Proof.Machine
end

section
/-! SUPPORT. STASH_PUT (R263 to R267): what a placement decision comes to, place by place, the rows of a PUT and of its retry, and the end of its
store. -/

namespace Sys2Proof.Machine

/-! ### Placement decisions (R265) -/

/-- The PUT is off the list of those that wait. -/
def unwaited (s : State) (h : Nat) (c : Cmd) : State := { s with stashWait := s.stashWait.filter (· != (h, c.seq)) }

theorem unwaited_placesKept (s : State) (h : Nat) (c : Cmd) : PlacesKept s (unwaited s h c) := ⟨rfl, fun _ _ => rfl⟩

/-- The pages of a PUT's entry (R264). -/
def putNeed (c : Cmd) (d : Desc) : Nat := ceilDiv (d.rowCount * stashLine (spFmt c) (d.size 0)) 65536

/-- The entry of a PUT in a state, on pages (R262). -/
def putEntryOf (h : Nat) (c : Cmd) (d : Desc) (q st : Nat) (far : Bool) (ps : List Nat) : StashEntry :=
  { ticket := c.ticket, id := c.fld 0x16 2, micro := c.fld 0x18 1, fmt := spFmt c, size0 := d.size 0, rows := d.rowCount,
    step := c.step, st := st, quota := q, far := far, places := ps, cmd := (h, c.seq), gone := false, readers := [] }

/-- A PUT draws its pages of an arena and stores its entry there. -/
def storeDrawn (s : State) (h : Nat) (c : Cmd) (d : Desc) (q need : Nat) (far : Bool) : State :=
  let drawn := drawPages s need (freeArena s far)
  storeEntry drawn.2 h c d (putEntryOf h c d q 0 far drawn.1)

/-- A far placement is noted (R265). -/
def farNoted (s : State) (h : Nat) (c : Cmd) : State :=
  let un := saddleAny s
  saddleCount (wr (emberCode (ticketFlags un.2 c.ticket 16) un.1 Code.STASH_SPILL (some (cmdId s h c))) F.SBG_EVENT_SPILL 1) un.1 6 1

/-- A dropped entry stands in the directory, and the drop is noted (R265). -/
def dropNoted (s : State) (h : Nat) (c : Cmd) (d : Desc) (q : Nat) : State :=
  let un := saddleAny s
  let noted := wr (emberCode un.2 un.1 Code.STASH_DROP (some (cmdId s h c))) F.SBG_EVENT_DROP 1
  syncStash (saddleCount { noted with stash := noted.stash ++ [putEntryOf h c d q 3 false []] } un.1 7 1)

/-- The PUT stands at the end of the list of those that wait, and its first wait is noted (R266). -/
def waitNoted (s : State) (h : Nat) (c : Cmd) : State :=
  let un := saddleAny s
  let noted := if c.phase = 1 then un.2 else wr (emberCode un.2 un.1 Code.STASH_WAIT (some (cmdId s h c))) F.SBG_EVENT_WAIT 1
  { noted with stashWait := noted.stashWait ++ [(h, c.seq)] }

/-- What a placement decision comes to. -/
def putTo (s : State) (h : Nat) (c : Cmd) (d : Desc) (q need : Nat) : Place → State
  | .near => storeDrawn s h c d q need false
  | .far => storeDrawn (farNoted s h c) h c d q need true
  | .drop => cmdDone (dropNoted s h c d q) h c
  | .wait => syncStash (updCmd (waitNoted s h c) h c.seq fun x => { x with st := .working, phase := 1 })

section
variable {s : State} {h : Nat} {c : Cmd} {d : Desc} {q : Nat} (hq : quotaOf s (cmdProg s c) = some q)
include hq

theorem quotaOf_unwaited : quotaOf (unwaited s h c) (cmdProg (unwaited s h c) c) = some q := by
  rw [(unwaited_placesKept s h c).quotaOf, cmdProg_of_tickets (s := s) (t := unwaited s h c) rfl, hq]

/-- A key in use fails the PUT (R263). -/
theorem placePut_used (hu : (findStash s c.ticket (c.fld 0x16 2) (c.fld 0x18 1)).isSome = true) :
    placePut s h c d = saddleFail (syncStash (unwaited s h c)) h c Code.STASH_KEY := by
  rw [← (unwaited_placesKept s h c).findStash] at hu
  unfold placePut
  extract_lets v
  split
  · next hnone => cases (quotaOf_unwaited hq).symm.trans hnone
  · exact if_pos hu

/-- Else it goes where the decision says (R265). -/
theorem placePut_unused (hu : (findStash s c.ticket (c.fld 0x16 2) (c.fld 0x18 1)).isSome = false) :
    placePut s h c d = putTo (unwaited s h c) h c d q (putNeed c d) (place (unwaited s h c) q (putNeed c d) (spEligible c)) := by
  rw [← (unwaited_placesKept s h c).findStash] at hu
  have hquota := quotaOf_unwaited (h := h) hq
  unfold placePut
  extract_lets v rows need cmd
  obtain ⟨n, hn⟩ : ∃ n, n = need := ⟨_, rfl⟩
  rw [show unwaited s h c = v from rfl, show putNeed c d = need from rfl, ← hn]
  rw [show quotaOf v (cmdProg v c) = some q from hquota]
  dsimp only
  rw [if_neg (by exact Bool.eq_false_iff.mp hu)]
  cases place v q n (spEligible c) <;> rfl

end

/-! ### What the notices of a placement leave alone -/

theorem farNoted_stashKept (s : State) (h : Nat) (c : Cmd) : StashKept s (farNoted s h c) := by
  have hflags : StashKept (saddleAny s).2 (ticketFlags (saddleAny s).2 c.ticket 16) := ⟨⟨rfl, fun _ _ => rfl⟩, rfl⟩
  exact ((((unitAt_stashKept s U.saddle []).trans hflags).emberCode _ _ _).wr F.SBG_EVENT_SPILL (by decide) 1).cntMem _ _ _

theorem farNoted_untouched (s : State) (h : Nat) (c : Cmd) : Untouched s (farNoted s h c) := by
  have hflags : Untouched (saddleAny s).2 (ticketFlags (saddleAny s).2 c.ticket 16) := ⟨rfl, rfl, rfl⟩
  exact ((((unitAt_untouched s U.saddle []).trans hflags).trans (emberCode_untouched ..)).wr _ _).wr _ _

/-- Noting an event of an engine that no address names. -/
theorem saddleNoted_stashKept (s : State) (code : Nat) (cmd : Option CmdId) (f : Fld) (hf : 0x1600c0 ≤ f.off) :
    StashKept s (wr (emberCode (saddleAny s).2 (saddleAny s).1 code cmd) f 1) :=
  ((unitAt_stashKept s U.saddle []).emberCode _ _ _).wr f hf 1

theorem saddleNoted_untouched (s : State) (code : Nat) (cmd : Option CmdId) (f : Fld) :
    Untouched s (wr (emberCode (saddleAny s).2 (saddleAny s).1 code cmd) f 1) :=
  ((unitAt_untouched s U.saddle []).trans (emberCode_untouched ..)).wr _ _

section
variable (s : State) (h : Nat) (c : Cmd)

/-- The first wait of a PUT is noted, a later one is not (R266). -/
theorem waitNoted_frame : ∃ t, StashKept s t ∧ Untouched s t ∧ waitNoted s h c = { t with stashWait := s.stashWait ++ [(h, c.seq)] } := by
  by_cases hphase : c.phase = 1
  · have hkept : StashKept s (saddleAny s).2 := unitAt_stashKept ..
    refine ⟨_, hkept, unitAt_untouched .., ?_⟩
    rw [waitNoted, if_pos hphase, hkept.waits]
  · have hkept := saddleNoted_stashKept s Code.STASH_WAIT (some (cmdId s h c)) F.SBG_EVENT_WAIT (by decide)
    refine ⟨_, hkept, saddleNoted_untouched .., ?_⟩
    rw [waitNoted, if_neg hphase, ← hkept.waits]

theorem dropNoted_stash (d : Desc) (q : Nat) : (dropNoted s h c d q).stash = s.stash ++ [putEntryOf h c d q 3 false []] := by
  rw [dropNoted, syncStash_stash]
  exact congrArg (· ++ _) (saddleNoted_stashKept s Code.STASH_DROP _ F.SBG_EVENT_DROP (by decide)).stash

theorem dropNoted_waiting {ws : List (Nat × Nat)} (hs : Waiting ws s) (d : Desc) (q : Nat) : Waiting ws (dropNoted s h c d q) :=
  .syncStash ⟨((saddleNoted_stashKept s Code.STASH_DROP _ F.SBG_EVENT_DROP (by decide)).waiting hs).list⟩

theorem dropNoted_untouched (d : Desc) (q : Nat) : Untouched s (dropNoted s h c d q) := by
  have hnoted := saddleNoted_untouched s Code.STASH_DROP (some (cmdId s h c)) F.SBG_EVENT_DROP
  refine Untouched.trans ?_ (syncStash_untouched _)
  exact ⟨hnoted.mem, hnoted.symErr, hnoted.disps⟩

end

section
variable {s w : State} {h : Nat} {c : Cmd} {q need : Nat} {el far : Bool}

/-- The pages drawn for an entry that goes to an arena are free ones of it, as many as it needs, each once (R262, R265). -/
theorem storeDrawn_pages (kept : PlacesKept s w) (hwent : place s q need el = if far then .far else .near) (d : Desc) :
    ∃ v ps, storeDrawn w h c d q need far = storeEntry v h c d (putEntryOf h c d q 0 far ps) ∧ v = { w with free := v.free } ∧ ps.length = need ∧
      (∀ p ∈ ps, p ∈ freeArena s far) ∧ ((freeArena s far).Nodup → ps.Nodup) := by
  have harena := kept.freeArena far
  exact ⟨(drawPages w need (freeArena w far)).2, (drawPages w need (freeArena w far)).1, rfl, drawPages_frame ..,
    drawPages_length w (harena ▸ need_le_of_place hwent), fun p hp => harena ▸ mem_of_mem_drawPages w hp,
    fun hnodup => drawPages_nodup w need (harena ▸ hnodup)⟩

theorem storeDrawn_waiting {ws : List (Nat × Nat)} (hw : Waiting ws w) (d : Desc) : Waiting ws (storeDrawn w h c d q need far) := by
  refine storeEntry_waiting (s := (drawPages w need (freeArena w far)).2) ?_ h c d (putEntryOf h c d q 0 far (drawPages w need (freeArena w far)).1)
  rw [drawPages_frame]
  exact ⟨hw.list⟩

end

/-! ### The rows -/

/-- The PUT of the row, or its retry. -/
def putInstr (h : Fin 16) (seq : BitVec 32) (retry : Bool) : Instr := if retry then .stashPutRetry h seq else .stashPut h seq

/-- A PUT runs while no other waits, or the only one that waits is retried (R266). -/
def PutAsks (h : Fin 16) (seq : BitVec 32) (c : Cmd) (retry : Bool) (s : State) : Prop :=
  if retry then unitLive s (U.disp h) = true ∧ findCmd s h seq.toNat = some c ∧ c.seq = seq.toNat ∧ s.stashWait = [(h.val, seq.toNat)]
  else Runs h seq 0x30 c s ∧ s.stashWait = []

/-- The pages and the place of a command's PUT (R264, R265). -/
def went (s : State) (c : Cmd) (q : Nat) : Place := place s q (putNeed c (spSrc s c).desc) (spEligible c)

/-- The key of a PUT is in use (R263). -/
def keyUsed (s : State) (c : Cmd) : Bool := (findStash s c.ticket (c.fld 0x16 2) (c.fld 0x18 1)).isSome

theorem stashDeadlock_idle {s : State} (hs : Waiting [] s) : stashDeadlock s = s := by
  have hstuck : stashStuck s = false := by rw [stashStuck, hs.list]; rfl
  rw [stashDeadlock, hstuck]
  rfl

section
variable {h : Fin 16} {seq : BitVec 32} {c : Cmd} {q : Nat} {s u : State}

theorem put_runs (hr : Runs h seq 0x30 c s) (hread : readTensors s h c [(spSrc s c).desc] = (u, .ok ())) :
    exec (.stashPut h seq) s = .next (stashDeadlock (placePut u h c (spSrc s c).desc)) := by
  show execStashPut h seq s = _
  rw [execStashPut, opRow_runs hr]
  dsimp only
  rw [hread]
  rfl

section
variable (hlive : unitLive s (U.disp h) = true) (hfound : findCmd s h seq.toNat = some c) (hwaits : s.stashWait = [(h.val, seq.toNat)])
  (hq : quotaOf s (cmdProg s c) = some q)
include hlive hfound hwaits hq

theorem putRetry_places (hgo : keyUsed s c = true ∨ went s c q ≠ .wait) (hread : readTensors s h c [(spSrc s c).desc] = (u, .ok ())) :
    exec (.stashPutRetry h seq) s = .next (placePut u h c (spSrc s c).desc) := by
  have hplaceable : (keyUsed s c || went s c q != .wait) = true := by
    simpa only [Bool.or_eq_true, bne_iff_ne] using hgo
  simp only [keyUsed, went, putNeed] at hplaceable
  show execStashPutRetry h seq s = _
  rw [execStashPutRetry]
  simp only [hlive, hwaits, hfound, hq, hplaceable, hread]
  simp [orStash, orFail]

theorem putRetry_waits (hu : keyUsed s c = false) (hwait : went s c q = .wait) : exec (.stashPutRetry h seq) s = .next s := by
  have hplaceable : (keyUsed s c || went s c q != .wait) = false := by rw [hu, hwait]; rfl
  simp only [keyUsed, went, putNeed] at hplaceable
  show execStashPutRetry h seq s = _
  rw [execStashPutRetry]
  simp only [hlive, hwaits, hfound, hq, hplaceable]
  simp

end

end

/-! ### What a PUT comes to (R263 to R266) -/

/-- No PUT waits. -/
def noneWaits (s : State) : State := { s with stashWait := [] }

section
variable (s : State)

theorem noneWaits_placesKept : PlacesKept s (noneWaits s) := ⟨rfl, fun _ _ => rfl⟩
theorem noneWaits_untouched : Untouched s (noneWaits s) := ⟨rfl, rfl, rfl⟩
theorem noneWaits_waiting : Waiting [] (noneWaits s) := ⟨rfl⟩

end

/-- A PUT's row, or its retry's, with a quota for its program and its tensor's reads served: they leave state u. -/
structure PutServed (h : Fin 16) (seq : BitVec 32) (c : Cmd) (q : Nat) (retry : Bool) (s u : State) : Prop where
  asks : PutAsks h seq c retry s
  quota : quotaOf s (cmdProg s c) = some q
  clean : s.symErr = []
  read : readTensors s h c [(spSrc s c).desc] = (u, .ok ())

namespace PutServed
variable {h : Fin 16} {seq : BitVec 32} {c : Cmd} {q : Nat} {retry : Bool} {s u : State} (p : PutServed h seq c q retry s u)
include p

theorem found : findCmd s h c.seq = some c := by
  have hasks := p.asks
  cases retry with
  | false => exact hasks.1.findCmd
  | true => obtain ⟨_, hfound, hseq, _⟩ := hasks; rwa [hseq]

theorem kept : StashKept s u := by
  have hkept := touchRanges_stashKept (idDisp h) (some (cmdId s h c)) false
    ([(spSrc s c).desc].flatMap Desc.ranges ++ ([(spSrc s c).desc].flatMap fun d => recRanges d false).eraseDups) s
  rwa [show touchRanges s _ _ _ _ = (u, .ok ()) from p.read] at hkept

theorem quiet : Quiet s u := touchRanges_quiet p.clean p.read

theorem quota_read : quotaOf u (cmdProg u c) = some q := by
  rw [p.kept.quotaOf, cmdProg_of_tickets p.quiet.tickets, p.quota]

/-- Off the list, the PUT leaves it empty. -/
theorem unwaited_eq : unwaited u h c = noneWaits u := by
  have hasks := p.asks
  rw [unwaited, p.kept.waits]
  cases retry with
  | false => rw [show s.stashWait = [] from hasks.2]; rfl
  | true =>
    obtain ⟨_, _, hseq, hwait⟩ := hasks
    simp [hwait, hseq, noneWaits]

/-- A PUT that need not go on waiting is placed, or fails. -/
theorem decides {t : State} (hgo : keyUsed s c = true ∨ went s c q ≠ .wait) (ht : placePut u h c (spSrc s c).desc = t) (hw : Waiting [] t) :
    exec (putInstr h seq retry) s = .next t := by
  obtain ⟨hasks, hq, _, hread⟩ := p
  subst ht
  cases retry with
  | false => exact (put_runs hasks.1 hread).trans (by rw [stashDeadlock_idle hw])
  | true =>
    obtain ⟨hlive, hfound, _, hwait⟩ := hasks
    exact putRetry_places hlive hfound hwait hq hgo hread

/-- A key in use fails the PUT (R263). -/
theorem key_used (hu : keyUsed s c = true) :
    exec (putInstr h seq retry) s = .next (saddleFail (syncStash (noneWaits u)) h c Code.STASH_KEY) := by
  have hfails := placePut_used (d := (spSrc s c).desc) (h := h) p.quota_read ((congrArg Option.isSome (p.kept.findStash ..)).trans hu)
  rw [p.unwaited_eq] at hfails
  exact p.decides (.inl hu) hfails (saddleFail_waiting (noneWaits_waiting u).syncStash ..)

section
variable (hu : keyUsed s c = false)
include hu

/-- Else it goes where R265 says. -/
theorem placed : placePut u h c (spSrc s c).desc =
    putTo (noneWaits u) h c (spSrc s c).desc q (putNeed c (spSrc s c).desc) (went s c q) := by
  rw [placePut_unused p.quota_read ((congrArg Option.isSome (p.kept.findStash ..)).trans hu),
    (p.kept.toPlacesKept.trans (unwaited_placesKept u h c)).place (lt_of_quotaOf p.quota), p.unwaited_eq, went]

/-- Near or far, its entry takes free pages of the arena (R265, log entry 33). -/
theorem stores {far : Bool} (hwent : went s c q = if far then .far else .near) :
    ∃ v ps, exec (putInstr h seq retry) s = .next (storeEntry v h c (spSrc s c).desc (putEntryOf h c (spSrc s c).desc q 0 far ps)) ∧
      v.mem = s.mem ∧ v.stash = s.stash ∧ v.stashWait = [] ∧ findCmd v h c.seq = some c ∧ ps.length = putNeed c (spSrc s c).desc ∧
      (∀ p ∈ ps, p ∈ freeArena s far) ∧ ((freeArena s far).Nodup → ps.Nodup) := by
  obtain ⟨w, hto, hplaces, hsame, hwaits⟩ : ∃ w, putTo (noneWaits u) h c (spSrc s c).desc q (putNeed c (spSrc s c).desc) (went s c q) =
      storeDrawn w h c (spSrc s c).desc q (putNeed c (spSrc s c).desc) far ∧ PlacesKept (noneWaits u) w ∧ Untouched (noneWaits u) w ∧ Waiting [] w := by
    rw [hwent]
    cases far with
    | false => exact ⟨_, rfl, ⟨rfl, fun _ _ => rfl⟩, .refl _, noneWaits_waiting u⟩
    | true =>
      have hnoted := farNoted_stashKept (noneWaits u) h c
      exact ⟨_, rfl, hnoted.toPlacesKept, farNoted_untouched .., hnoted.waiting (noneWaits_waiting u)⟩
  have hkept := (p.kept.toPlacesKept.trans (noneWaits_placesKept u)).trans hplaces
  obtain ⟨v, ps, hstore, hv, hlen, hfree, hnodup⟩ := storeDrawn_pages (h := h) (c := c) hkept hwent (spSrc s c).desc
  have hexec := p.decides (.inr (by rw [hwent]; cases far <;> decide)) ((p.placed hu).trans hto) (storeDrawn_waiting hwaits _)
  have hmem : w.mem = s.mem := hsame.mem.trans p.quiet.mem
  have hfound : findCmd w h c.seq = some c := (hsame.findCmd ..).trans ((findCmd_of_disps p.quiet.disps h c.seq).trans p.found)
  refine ⟨v, ps, hexec.trans (by rw [hstore]), ?_, ?_, ?_, ?_, hlen, hfree, hnodup⟩
  · rw [hv]; exact hmem
  · rw [hv]; exact hkept.stash
  · rw [hv]; exact hwaits.list
  · rw [hv]; exact hfound

/-- Dropped, its entry holds nothing and the command is done (R265). -/
theorem drops (hwent : went s c q = .drop) :
    ∃ t, exec (putInstr h seq retry) s = .next t ∧ t.stash = s.stash ++ [putEntryOf h c (spSrc s c).desc q 3 false []] ∧
      findCmd t h c.seq = some { c with st := .done } ∧ t.stashWait = [] ∧ t.mem = s.mem := by
  have hsame := dropNoted_untouched (noneWaits u) h c (spSrc s c).desc q
  have hplaced := p.placed hu
  rw [hwent, putTo] at hplaced
  have hstash := dropNoted_stash (noneWaits u) h c (spSrc s c).desc q
  have hnoted := dropNoted_waiting (noneWaits u) h c (noneWaits_waiting u) (spSrc s c).desc q
  generalize dropNoted (noneWaits u) h c (spSrc s c).desc q = w at hsame hplaced hstash hnoted
  have hfound : findCmd w h c.seq = some c := (hsame.findCmd ..).trans ((findCmd_of_disps p.quiet.disps h c.seq).trans p.found)
  have hwaits : Waiting [] (cmdDone w h c) := hnoted.updCmd ..
  refine ⟨_, p.decides (.inr (by rw [hwent]; decide)) hplaced hwaits, ?_, (cmdDone_commandIs hfound).itself, hwaits.list, ?_⟩
  · exact hstash.trans (congrArg (· ++ _) p.kept.stash)
  · exact hsame.mem.trans p.quiet.mem

/-- A retry that finds no place changes nothing (R266). -/
theorem retry_waits (hwent : went s c q = .wait) (hretry : retry = true) : exec (putInstr h seq retry) s = .next s := by
  subst hretry
  obtain ⟨⟨hlive, hfound, _, hwait⟩, hq, _, _⟩ := p
  exact putRetry_waits hlive hfound hwait hq hu hwent

/-- A PUT that finds no place joins the list of those that wait (R266). -/
theorem put_waits (hwent : went s c q = .wait) (hretry : retry = false) :
    ∃ v, exec (putInstr h seq retry) s = .next (stashDeadlock v) ∧ v.stashWait = [(h.val, c.seq)] ∧ v.stash = s.stash ∧
      findCmd v h c.seq = some { c with st := .working, phase := 1 } ∧ v.mem = s.mem := by
  obtain ⟨w, hkept, hsame, hw⟩ := waitNoted_frame (noneWaits u) h c
  have hfound : findCmd w h c.seq = some c := (hsame.findCmd ..).trans ((findCmd_of_disps p.quiet.disps h c.seq).trans p.found)
  have hplaced := p.placed hu
  subst hretry
  have hexec := put_runs p.asks.1 p.read
  rw [hplaced, hwent, putTo, hw] at hexec
  refine ⟨_, hexec, (Waiting.syncStash ⟨rfl⟩).list, ?_, ?_, ?_⟩
  · exact (syncStash_stash _).trans (hkept.stash.trans p.kept.stash)
  · exact ((syncStash_untouched _).findCmd ..).trans (findCmd_updCmd_same (f := fun x => { x with st := .working, phase := 1 }) (fun _ => rfl) hfound)
  · exact (syncStash_untouched _).mem.trans (hsame.mem.trans p.quiet.mem)

end

end PutServed

/-! ### The end of a store (R265) -/

/-- The last byte of an entry makes it NEAR or FAR, and its PUT done, once no write of the PUT is held (R265). -/
theorem stashStoreComplete_row {h : Fin 16} {seq : BitVec 32} {c : Cmd} {e : StashEntry} {s : State} (hrun : isRun s = true)
    (hc : findCmd s h seq.toNat = some c) (hentry : s.stash.find? (fun x => x.cmd == (h.val, seq.toNat) && x.st == 0) = some e) :
    exec (.stashStoreComplete h seq) s = .next (if c.st = .working ∧ heldFor s h c = false then
      syncRails (cmdDone { s with stash := s.stash.map fun x => if sameEntry x e then { x with st := if e.far then 2 else 1 } else x } h c) else s) := by
  show execStashStoreComplete h seq s = _
  simp only [execStashStoreComplete, hrun, hentry, hc]
  by_cases hends : c.st = .working ∧ heldFor s h c = false
  · rw [if_pos hends]
    simp [hends]
  · rw [if_neg hends]
    have : c.st ≠ .working ∨ heldFor s h c = true := (not_and_or.mp hends).imp_right eq_true_of_ne_false
    simp [this]

end Sys2Proof.Machine
end

section
/-! SUPPORT. STASH_GET (R268 to R271): its rows, what a copy back leaves alone, and the end of a GET that frees its entry. -/

namespace Sys2Proof.Machine

/-! ### Copies back (R269) -/

/-- Nothing but bytes of memory has changed. -/
structure OnlyBytes (s t : State) : Prop where
  rest : t = { s with mem := t.mem }

namespace OnlyBytes
variable {s t : State}

theorem refl (s : State) : OnlyBytes s s := ⟨rfl⟩

theorem trans {u : State} (a : OnlyBytes s t) (b : OnlyBytes t u) : OnlyBytes s u := ⟨b.rest.trans (by rw [a.rest])⟩

theorem poke (s : State) (a : Nat) (d : Bytes) : OnlyBytes s (Machine.poke s a d) := ⟨rfl⟩

theorem each {α : Type} {f : State → α → State} (hf : ∀ s x, OnlyBytes s (f s x)) (xs : List α) (s : State) : OnlyBytes s (each xs s f) := by
  induction xs generalizing s with
  | nil => exact .refl s
  | cons x xs ih => exact (hf s x).trans (ih (f s x))

theorem foldl {α β : Type} {f : State × β → α → State × β} (hf : ∀ p x, OnlyBytes p.1 (f p x).1) (xs : List α) (p : State × β) :
    OnlyBytes p.1 (xs.foldl f p).1 := by
  induction xs generalizing p with
  | nil => exact .refl p.1
  | cons x xs ih => exact (hf p x).trans (ih (f p x))

theorem stash (k : OnlyBytes s t) : t.stash = s.stash := by rw [k.rest]

theorem disps (k : OnlyBytes s t) : t.disps = s.disps := by rw [k.rest]

end OnlyBytes

theorem setRaw_onlyBytes (s : State) (d : Desc) (f : Fmt) (ix : List Nat) (v : Nat) : OnlyBytes s (d.setRaw s f ix v) := by
  unfold Desc.setRaw
  dsimp only
  split <;> exact .poke ..

theorem setBlock_onlyBytes (s : State) (d : Desc) (f : Fmt) (ix : List Nat) (code : Nat) (elems : List Nat) :
    OnlyBytes s (d.setBlock s f ix code elems) :=
  ((OnlyBytes.each (fun s _ => setRaw_onlyBytes s d f _ _) _ s).trans (.poke ..)).trans (.each (fun s _ => setRaw_onlyBytes s d f _ _) _ _)

theorem copyBack_onlyBytes (s : State) (c : Cmd) (e : StashEntry) (d : Desc) (b : Bytes) : OnlyBytes s (copyBack s c e d b).1 := by
  unfold copyBack
  split
  · exact .refl s
  · next f _ =>
    extract_lets mode one
    refine .foldl (fun p r => ?_) _ (s, Report.empty)
    split
    · exact .each (fun s _ => setBlock_onlyBytes s d f _ _ _) _ p.1
    · exact .foldl (fun p k => setRaw_onlyBytes p.1 d f _ _) _ p

/-! ### Reads of an entry -/

section
variable (h : Nat) (cmd : Option CmdId)

/-- What every request of the reads keeps, the reads keep. -/
theorem readSpans_preserves {R : State → State → Prop} (hrefl : ∀ s, R s s) (htrans : ∀ {s t u}, R s t → R t u → R s u)
    (hreq : ∀ s a n, R s (memRead s (idDisp h) a n cmd).1) (rs : List (Nat × Nat)) (s : State) : R s (readSpans s h cmd rs).1 := by
  induction rs generalizing s with
  | nil => exact hrefl s
  | cons r rs ih =>
    obtain ⟨a, n⟩ := r
    have hfirst := hreq s a n
    rw [readSpans]
    split
    · next u _ heq =>
      rw [heq] at hfirst
      have hrest := htrans hfirst (ih u)
      split
      · next heq => rw [heq] at hrest; exact hrest
      · exact hrest
    · exact hfirst

theorem readSpans_stashKept (rs : List (Nat × Nat)) (s : State) : StashKept s (readSpans s h cmd rs).1 :=
  readSpans_preserves h cmd .refl .trans (fun _ _ _ => readFrom_stashKept ..) rs s

theorem readSpans_unitsKept (rs : List (Nat × Nat)) (s : State) : UnitsKept s (readSpans s h cmd rs).1 :=
  readSpans_preserves h cmd .refl .trans (fun _ _ _ => readFrom_unitsKept ..) rs s

end

section
variable {s t : State} {h : Nat} {c : Cmd}

theorem writeRanges_stashKept {rs xs : List (Nat × Nat)} (hwrite : writeRanges s h c rs = (t, .ok xs)) : StashKept s t := by
  have hreqs := touchWrites_stashKept (idDisp h) (some (cmdId s h c)) rs s
  unfold writeRanges at hwrite
  split at hwrite
  · cases hwrite
  · rwa [hwrite] at hreqs

theorem noteOnce_stashKept (s : State) (h : Nat) (c : Cmd) (unit : Nat) (codes : List (Nat × Nat)) (stat : Nat) :
    StashKept s (noteOnce s h c unit codes stat) :=
  .updCmd (.each (fun s _ => .select ((StashKept.refl s).emberCode ..) (.refl s)) _ _) ..

theorem reportStore_stashKept (s : State) (h : Nat) (c : Cmd) (unit : Nat) {d : Desc} (hscale : d.scalePtr = 0) (r : Report) :
    StashKept s (reportStore s h c unit d r) := by
  have hnoted : StashKept s (noteStat s h c unit r.stat) := (notices_stashKept ..).trans (noteOnce_stashKept ..)
  rw [reportStore, reportTo, if_pos hscale]
  exact hnoted.cntHearth ..

end

/-! ### The row of a GET -/

/-- The recompute segment of a GET (R270). -/
def segmentOf (h : Nat) (c : Cmd) : Recomp :=
  { hearth := h, get := c.seq, ticket := c.ticket, off := c.fld 0x1C 4, left := sgCount c, pos := 0 }

section
variable {h : Fin 16} {seq : BitVec 32} {c : Cmd} {e : StashEntry} {s : State} (hr : Runs h seq 0x31 c s)
include hr

/-- An entry that is absent fails the GET (R268). -/
theorem stashGet_absent (hget : getEntry s h c = none) : exec (.stashGet h seq) s = .next (saddleFail s h c Code.STASH_KEY) := by
  show execStashGet h seq s = _
  rw [execStashGet, opRow_runs hr]
  dsimp only
  rw [hget]

section
variable (hget : getEntry s h c = some e)
include hget

/-- What becomes of one that is there (R268 to R270). -/
theorem stashGet_found : exec (.stashGet h seq) s = .next (
    if e.rows < c.fld 0x24 4 + c.fld 0x28 4 then failRunning (saddleOf s e).2 h c (saddleOf s e).1 Code.STASH_KEY
    else if e.st = 0 then s
    else if e.st = 3 then
      if sgCount c = 0 ∨ c.recompute then failRunning (saddleOf s e).2 h c (saddleOf s e).1 Code.STASH_KEY
      else if s.recomps.any (·.hearth == h.val) then cntHearth s h 13 1
      else updCmd { s with recomps := s.recomps ++ [segmentOf h c] } h c.seq fun x => { x with st := .working }
    else if (sgDst s c).desc.rank ≠ 0 ∧ decide (0x20 ≤ (sgDst s c).desc.fmt) && (sgDst s c).desc.fmt != e.fmt then
      failRunning (saddleOf s e).2 h c (saddleOf s e).1 Code.STASH_FORMAT
    else if (sgDst s c).desc.rank ≠ 0 ∧ c.fld 0x28 4 ≠ 0 ∧ (sgDst s c).desc.size 0 ≠ e.size0 then
      failRunning (saddleOf s e).2 h c (saddleOf s e).1 Code.DESC_SHAPE
    else getRows s h c (sgDst s c).desc e) := by
  show execStashGet h seq s = _
  rw [execStashGet, opRow_runs hr]
  dsimp only
  rw [hget]
  rfl

/-- One that is too short fails it (R268). -/
theorem stashGet_short (hrows : e.rows < c.fld 0x24 4 + c.fld 0x28 4) :
    exec (.stashGet h seq) s = .next (failRunning (saddleOf s e).2 h c (saddleOf s e).1 Code.STASH_KEY) := by
  rw [stashGet_found hr hget, if_pos hrows]

section
variable (hrows : c.fld 0x24 4 + c.fld 0x28 4 ≤ e.rows)
include hrows

/-- One whose bytes are on their way makes it wait (R268). -/
theorem stashGet_waits (hst : e.st = 0) : exec (.stashGet h seq) s = .next s := by
  rw [stashGet_found hr hget, if_neg (Nat.not_lt.mpr hrows), if_pos hst]

/-- One that was dropped fails it without a recompute segment (R270). -/
theorem stashGet_lost (hst : e.st = 3) (hno : sgCount c = 0 ∨ c.recompute = true) :
    exec (.stashGet h seq) s = .next (failRunning (saddleOf s e).2 h c (saddleOf s e).1 Code.STASH_KEY) := by
  rw [stashGet_found hr hget, if_neg (Nat.not_lt.mpr hrows), if_neg (by omega), if_pos hst, if_pos hno]

/-- With one, the segment starts, and the GET works on (R270). -/
theorem stashGet_recomputes (hst : e.st = 3) (hseg : sgCount c ≠ 0) (hno : c.recompute = false) (hidle : ∀ r ∈ s.recomps, r.hearth ≠ h.val) :
    exec (.stashGet h seq) s =
      .next (updCmd { s with recomps := s.recomps ++ [segmentOf h c] } h c.seq fun x => { x with st := .working }) := by
  have hany : s.recomps.any (·.hearth == h.val) = false := by
    simpa only [List.any_eq_false, beq_iff_eq] using hidle
  rw [stashGet_found hr hget, if_neg (Nat.not_lt.mpr hrows), if_neg (by omega), if_pos hst, if_neg (by simp [hseg, hno]), if_neg (by simp [hany])]

/-- One that is stored, in a format and of an extent that its destination takes, is copied back (R269). -/
theorem stashGet_copies (hst : e.st = 1 ∨ e.st = 2) (hfmt : (sgDst s c).desc.rank ≠ 0 → 0x20 ≤ (sgDst s c).desc.fmt → (sgDst s c).desc.fmt = e.fmt)
    (hsize : (sgDst s c).desc.rank ≠ 0 → c.fld 0x28 4 ≠ 0 → (sgDst s c).desc.size 0 = e.size0) :
    exec (.stashGet h seq) s = .next (getRows s h c (sgDst s c).desc e) := by
  rw [stashGet_found hr hget, if_neg (Nat.not_lt.mpr hrows), if_neg (by omega), if_neg (by omega), if_neg ?_, if_neg ?_]
  · exact fun ⟨hrank, hn, hne⟩ => hne (hsize hrank hn)
  · rintro ⟨hrank, hdq⟩
    obtain ⟨hdq, hne⟩ := Bool.and_eq_true_iff.mp hdq
    exact bne_iff_ne.mp hne (hfmt hrank (of_decide_eq_true hdq))

end

end

end

/-! ### The copy of a GET (R269) -/

/-- The rows of an entry in the destination of a GET, if it has one, and their report. -/
def copied (w : State) (c : Cmd) (e : StashEntry) (d : Desc) (b : Bytes) : State × Report :=
  if d.rank = 0 then (w, Report.empty) else copyBack w c e d b

theorem copied_onlyBytes (w : State) (c : Cmd) (e : StashEntry) (d : Desc) (b : Bytes) : OnlyBytes w (copied w c e d b).1 := by
  unfold copied
  split
  · exact .refl w
  · exact copyBack_onlyBytes ..

section
variable {s u w : State} {h : Nat} {c : Cmd} {d : Desc} {e : StashEntry} {b : Bytes} (hscale : d.scalePtr = 0)
  (hread : readSpans (saddleOf s e).2 h (some (cmdId (saddleOf s e).2 h c))
    (e.spans (c.fld 0x24 4 * stashLine e.fmt e.size0) (c.fld 0x28 4 * stashLine e.fmt e.size0)) = (u, .ok b))
  (hwrite : writeRanges u h c d.ranges = (w, .ok []))
include hscale hread hwrite

theorem getRows_served : getRows s h c d e =
    cmdDone (stashCount (reportStore (copied w c e d b).1 h c (saddleOf s e).1 d (copied w c e d b).2) 5 e.far
      (e.spans (c.fld 0x24 4 * stashLine e.fmt e.size0) (c.fld 0x28 4 * stashLine e.fmt e.size0))) h c := by
  rw [getRows]
  simp only [hread]
  exact storing_served hscale hwrite ..

/-- A GET whose requests are served is done over the bytes that it copied, and the directory stands as it did. -/
theorem getRows_done (hc : findCmd s h c.seq = some c) :
    StandsOver (copied w c e d b).1.mem h { c with st := .done } (getRows s h c d e) ∧ (getRows s h c d e).stash = s.stash := by
  rw [getRows_served hscale hread hwrite]
  have hcopied := copied_onlyBytes w c e d b
  have hreadUnits := readSpans_unitsKept h (some (cmdId (saddleOf s e).2 h c))
    (e.spans (c.fld 0x24 4 * stashLine e.fmt e.size0) (c.fld 0x28 4 * stashLine e.fmt e.size0)) (saddleOf s e).2
  have hreadStash := readSpans_stashKept h (some (cmdId (saddleOf s e).2 h c))
    (e.spans (c.fld 0x24 4 * stashLine e.fmt e.size0) (c.fld 0x28 4 * stashLine e.fmt e.size0)) (saddleOf s e).2
  rw [hread] at hreadUnits hreadStash
  have hfound : findCmd w h c.seq = some c := ((writeRanges_unitsKept hwrite).findCmd ..).trans
    ((hreadUnits.findCmd ..).trans (((unitAt_untouched s U.saddle _).findCmd ..).trans hc))
  have hstands : StandsOver (copied w c e d b).1.mem h c (copied w c e d b).1 := .of_found ((findCmd_of_disps hcopied.disps h c.seq).trans hfound)
  refine ⟨((hstands.reportStore (saddleOf s e).1 hscale _).untouched (stashCount_untouched ..)).done, ?_⟩
  have hreport := reportStore_stashKept (copied w c e d b).1 h c (saddleOf s e).1 hscale (copied w c e d b).2
  calc _ = (copied w c e d b).1.stash := (hreport.trans (stashCount_stashKept ..)).stash
    _ = w.stash := hcopied.stash
    _ = s.stash := (((unitAt_stashKept s U.saddle _).trans hreadStash).trans (writeRanges_stashKept hwrite)).stash

end

/-! ### The end of a GET that frees its entry (R271) -/

theorem getEnds_frees {s : State} {h : Nat} {c : Cmd} {e : StashEntry} (hgone : ∀ x ∈ s.stash, x.gone = false)
    (hfree : bit (c.fld 0x19 1) 0 = true) (hfail : c.fail = 0) (hothers : otherGets s h c = [])
    (hfound : findStash s c.ticket (c.fld 0x16 2) (c.fld 0x18 1) = some e) : (getEnds s h c).stash = s.stash.filter fun x => !sameEntry e x := by
  have hnone : s.stash.any (fun e => e.gone && e.readers.contains (h, c.seq)) = false := by
    rw [List.any_eq_false]
    intro x hx
    rw [hgone x hx]
    exact Bool.false_ne_true
  rw [getEnds, if_neg (by rw [hnone]; exact Bool.false_ne_true), if_pos ⟨hfree, hfail⟩]
  simp only [hfound, hothers]
  rw [freeStash, syncStash_stash]

/-! ### The statement -/

/-- Settles O49: what a placement reads is kept by the reads before it, so the PUT goes where R265 says of the state of the row; a GET's copy leaves
the directory, and all but bytes of memory, alone. -/
theorem stashPutsAndGets : Obligations.StashPutsAndGets := by
  unfold Obligations.StashPutsAndGets
  refine ⟨?_, ?_⟩
  · intro h seq c q e retry s u d need went' i key used asks
    refine ⟨fun hasks hq hclean hread => ?_, place_near_iff .., ?_, ?_⟩
    · have p : PutServed h seq c q retry s u := ⟨hasks, hq, hclean, hread⟩
      refine ⟨p.key_used, fun hu hwent => ?_, fun hu hwent => ?_, p.retry_waits, p.put_waits⟩
      · obtain ⟨far, hfar, hdec⟩ : ∃ far, went s c q = (if far = true then .far else .near) ∧ far = decide (went s c q = .far) := by
          rcases hwent with hnear | hfar
          · exact ⟨false, hnear, by rw [show went s c q = .near from hnear]; rfl⟩
          · exact ⟨true, hfar, by rw [show went s c q = .far from hfar]; rfl⟩
        obtain ⟨v, ps, hexec, hmem, hstash, hwaits, hfound, hpages⟩ := p.stores hu hfar
        exact ⟨v, _, hexec, hmem, hstash, hwaits, hfound, ⟨rfl, rfl, rfl, rfl, rfl, rfl, rfl, rfl, rfl, rfl⟩, rfl, hdec, hpages⟩
      · obtain ⟨t, hexec, hstash, ht⟩ := p.drops hu hwent
        exact ⟨t, _, hexec, hstash, ⟨rfl, rfl, rfl, rfl, rfl, rfl, rfl, rfl, rfl, rfl⟩, rfl, rfl, ht⟩
    · intro v un rs hc hw
      obtain ⟨hstash, hstands⟩ := storeEntry_places d hc hw
      exact ⟨hstash, hstands.mem, hstands.stands⟩
    · intro hrun hc hseq hentry
      rw [stashStoreComplete_row hrun hc hentry]
      split
      · exact ⟨_, rfl, rfl, cmdDone_commandIs (by rw [hseq]; exact hc)⟩
      · rfl
  · intro h seq c e b s u w hr d first rows un line failed
    refine ⟨stashGet_absent hr, fun hget => ⟨stashGet_short hr hget, fun hrows => ⟨stashGet_waits hr hget hrows, stashGet_lost hr hget hrows, ?_, ?_⟩⟩,
      getEnds_frees⟩
    · intro hst hseg hno hidle
      have hc : findCmd { s with recomps := s.recomps ++ [segmentOf h c] } h c.seq = some c := hr.findCmd
      exact ⟨_, stashGet_recomputes hr hget hrows hst hseg hno hidle,
        findCmd_updCmd_same (f := fun x => { x with st := .working }) (fun _ => rfl) hc, rfl, rfl, rfl⟩
    · intro hst hfmt hsize hscale hread hwrite
      obtain ⟨hstands, hstash⟩ := getRows_done hscale hread hwrite hr.findCmd
      exact ⟨_, stashGet_copies hr hget hrows hst hfmt hsize, hstands.stands, hstands.mem.trans (by rw [copied]; split <;> rfl), hstash⟩

end Sys2Proof.Machine
end

section
/-! SUPPORT. Sequenced frames (R386 to R391, R441): what accepting one leaves of the block, and the row of a frame that is taken in, by the frame's
type. -/

namespace Sys2Proof.Machine

/-! ### Links -/

theorem getLink_setLink_same (s : State) (l : Nat) (x : LinkSt) : getLink (setLink s l x) l = x := Smap.get_set_same _ _ _ _

theorem getLink_setLink_ne (s : State) {l k : Nat} (x : LinkSt) (h : k ≠ l) : getLink (setLink s l x) k = getLink s k :=
  Smap.get_set_ne _ _ _ h.symm

theorem getLink_of_links {s t : State} (h : t.links = s.links) (l : Nat) : getLink t l = getLink s l := by rw [getLink, h, getLink]

/-! ### What accepting a frame leaves (R387, R388) -/

theorem acceptFrame_frame (s : State) (l : Nat) (f : Frame) :
    acceptFrame s l f = { s with regs := (acceptFrame s l f).regs, links := (acceptFrame s l f).links, out := (acceptFrame s l f).out } := rfl

theorem acceptFrame_getLink (s : State) (l : Nat) (f : Frame) :
    getLink (acceptFrame s l f) l = { getLink s l with rxNext := ((getLink s l).rxNext + 1) % 4096, nakSent := false } :=
  getLink_setLink_same (satAdd s (lkCorr l) f.corrected.toNat) l _

theorem acceptFrame_regsKept (s : State) (l : Nat) (f : Frame) :
    RegsKept s (acceptFrame s l f) [(lkCorr l).off, (F.CNT_LINK_VALUE l (4 + (Pkt.parse f.hdr f.payload).vc)).off] :=
  ((RegsKept.refl s _).wr (f := lkCorr l) (by simp) _).wr (by simp) _

theorem grantBack_frame (s : State) (l : Nat) (p : Pkt) : grantBack s l p = { s with out := (grantBack s l p).out } := by
  unfold grantBack
  split
  · rfl
  · rfl

/-- A frame that arrives is accepted, and its buffer granted back, before it takes effect. -/
def received (l : Nat) (f : Frame) (s : State) : State := grantBack (acceptFrame s l f) l (Pkt.parse f.hdr f.payload)

section
variable (l : Nat) (f : Frame) (s : State)

theorem received_frame : received l f s = { s with regs := (received l f s).regs, links := (received l f s).links, out := (received l f s).out } := by
  rw [received, grantBack_frame, acceptFrame_frame]

theorem received_getLink :
    getLink (received l f s) l = { getLink s l with rxNext := ((getLink s l).rxNext + 1) % 4096, nakSent := false } := by
  rw [received, grantBack_frame]
  exact acceptFrame_getLink s l f

theorem received_regsKept : RegsKept s (received l f s) [(lkCorr l).off, (F.CNT_LINK_VALUE l (4 + (Pkt.parse f.hdr f.payload).vc)).off] := by
  rw [received, grantBack_frame]
  exact acceptFrame_regsKept s l f

variable {l f s}

theorem rd_received {g : Fld} (hcorr : g.off ≠ (lkCorr l).off) (hcnt : g.off < 0x424000) : rd (received l f s) g = rd s g :=
  (received_regsKept l f s).rd_eq (by simp only [F.CNT_LINK_VALUE, List.mem_cons, List.not_mem_nil, or_false]; omega)

theorem received_mem : (received l f s).mem = s.mem := by rw [received_frame]
theorem received_colls : (received l f s).colls = s.colls := by rw [received_frame]
theorem received_collEnded : (received l f s).collEnded = s.collEnded := by rw [received_frame]
theorem received_txs : (received l f s).txs = s.txs := by rw [received_frame]
theorem received_rxs : (received l f s).rxs = s.rxs := by rw [received_frame]
theorem received_mirrorOut : (received l f s).mirrorOut = s.mirrorOut := by rw [received_frame]
theorem received_returnDue : (received l f s).returnDue = s.returnDue := by rw [received_frame]

end

/-! ### The row of a frame that is accepted -/

/-- A frame is accepted by a link whose unit neither stops nor waits for the device to run (R387, R399, R441). -/
structure TakesIn (l : Fin 13) (f : Frame) (s : State) : Prop where
  up : linkUp s l = true
  accepted : accepts s l f = true
  live : unitHalted s (U.link l) = false
  awake : s.power ≠ .kindling

/-- The register of a link's corrected codewords is neither the one that shows its state, nor one of its configuration, nor one of the device. -/
theorem lkCorr_off {l : Nat} (hl : l < 13) :
    (lkCorr l).off ≠ (lkState l).off ∧ (lkCorr l).off ≠ 0x1e0000 + 0x40 * l ∧ 0x1e0000 ≤ (lkCorr l).off ∧ (lkCorr l).off < 0x200000 := by
  unfold lkCorr lkState lkPick
  split <;> simp only [F.CLK_FEC_CORR_CW, F.GRT_FEC_CORR_CW, F.CLK_STATE_STATE, F.GRT_STATE_STATE] <;> omega

/-- A register of the device that lies before those of the links. -/
theorem rd_received_low {l : Fin 13} {f : Frame} {s : State} {g : Fld} (hg : g.off < 0x1e0000) : rd (received l f s) g = rd s g := by
  obtain ⟨_, _, hlo, _⟩ := lkCorr_off l.isLt
  exact rd_received (by omega) (by omega)

/-- A register of the management block. -/
theorem rd_received_mgmt {l : Fin 13} {f : Frame} {s : State} {g : Fld} (hlo : 0x200000 ≤ g.off) (hhi : g.off < 0x424000) :
    rd (received l f s) g = rd s g := by
  obtain ⟨_, _, _, hcorr⟩ := lkCorr_off l.isLt
  exact rd_received (by omega) hhi

namespace TakesIn
variable {l : Fin 13} {f : Frame} {s : State}

/-- The row of a frame that is taken in is what the frame does. -/
theorem frameRow (h : TakesIn l f s) {type : Nat} (htype : (Pkt.parse f.hdr f.payload).type = type) :
    frameRow l f type s = .next (processFrame (acceptFrame s l f) l (Pkt.parse f.hdr f.payload)) := by
  have hlive : unitHalted (acceptFrame s l f) (U.link l) = false := h.live
  have hpower : (acceptFrame s l f).power = s.power := by
    have hrd : rd (acceptFrame s l f) F.DEV_STATE_POWER = rd s F.DEV_STATE_POWER :=
      (rd_wr_off _ _ (by simp only [F.CNT_LINK_VALUE, F.DEV_STATE_POWER]; omega)).trans
        (rd_wr_off s _ (by have := lkCorr_off l.isLt; simp only [F.DEV_STATE_POWER]; omega))
    rw [State.power, hrd]
    rfl
  have hawake : (s.power == .kindling) = false := beq_eq_false_iff_ne.mpr h.awake
  simp only [Machine.frameRow, h.up, h.accepted, htype, hlive, hpower, hawake, Bool.not_true, Bool.or_false, Bool.false_and, bne_self_eq_false,
    Bool.false_eq_true, if_false]

end TakesIn

/-! ### The effect of a frame by its type -/

section
variable {s : State} {l : Nat} {p : Pkt}

theorem processFrame_hello (ht : p.type = tHELLO) : processFrame s l p = onHello (grantBack s l p) l p := by
  rw [processFrame, if_pos ht]

theorem processFrame_stop (ht : p.type = tSTOP) : processFrame s l p = onStopMark (grantBack s l p) l p := by
  rw [processFrame, if_neg (by rw [ht]; decide), if_pos ht]

/-- A frame that stays here is none to forward. -/
theorem processFrame_here (hhere : p.dst = moduleId s ∨ l = 12) (h₁ : p.type ≠ tHELLO) (h₂ : p.type ≠ tSTOP) :
    processFrame s l p =
      if p.type = tREJECT then onReject (grantBack s l p) l p
      else if p.type = tECREDIT then onEcredit (grantBack s l p) p
      else if p.type = tOPEN then onOpen (grantBack s l p) l p
      else if p.type = tDATA then onData (grantBack s l p) l p
      else if p.type = tMACK then onMirrorAck (grantBack s l p) p
      else if p.type = tMNAK then onMirrorNak (grantBack s l p) p
      else grantBack s l p := by
  have hh : (p.dst == moduleId s || l == 12) = true := by simpa using hhere
  rw [processFrame]
  simp only [if_neg h₁, if_neg h₂, hh, Bool.not_true, Bool.false_eq_true, if_false]

end

theorem acceptFrame_moduleId (l : Fin 13) (f : Frame) (s : State) : moduleId (acceptFrame s l f) = moduleId s := by
  have hcorr := lkCorr_off l.isLt
  exact (acceptFrame_regsKept s l f).rd_eq
    (by simp only [F.DEV_IDENT_MODULE_ID, F.CNT_LINK_VALUE, List.mem_cons, List.not_mem_nil, or_false]; omega)

namespace TakesIn
variable {l : Fin 13} {f : Frame} {s : State}

theorem row_here (h : TakesIn l f s) {type : Nat} (htype : (Pkt.parse f.hdr f.payload).type = type)
    (hhere : (Pkt.parse f.hdr f.payload).dst = moduleId s ∨ l.val = 12) (h₁ : type ≠ tHELLO) (h₂ : type ≠ tSTOP) :
    Machine.frameRow l f type s = .next (
      if type = tREJECT then onReject (received l f s) l (Pkt.parse f.hdr f.payload)
      else if type = tECREDIT then onEcredit (received l f s) (Pkt.parse f.hdr f.payload)
      else if type = tOPEN then onOpen (received l f s) l (Pkt.parse f.hdr f.payload)
      else if type = tDATA then onData (received l f s) l (Pkt.parse f.hdr f.payload)
      else if type = tMACK then onMirrorAck (received l f s) (Pkt.parse f.hdr f.payload)
      else if type = tMNAK then onMirrorNak (received l f s) (Pkt.parse f.hdr f.payload)
      else received l f s) := by
  rw [h.frameRow htype, processFrame_here (by rwa [acceptFrame_moduleId]) (by rwa [htype]) (by rwa [htype]), htype]
  rfl

section
variable (h : TakesIn l f s) (hhere : (Pkt.parse f.hdr f.payload).dst = moduleId s ∨ l.val = 12)
include h hhere

theorem row_reject (htype : (Pkt.parse f.hdr f.payload).type = tREJECT) :
    exec (.reject l f) s = .next (onReject (received l f s) l (Pkt.parse f.hdr f.payload)) := by
  show Machine.frameRow l f tREJECT s = _
  rw [h.row_here htype hhere (by decide) (by decide), if_pos rfl]

theorem row_ecredit (htype : (Pkt.parse f.hdr f.payload).type = tECREDIT) :
    exec (.ecredit l f) s = .next (onEcredit (received l f s) (Pkt.parse f.hdr f.payload)) := by
  show Machine.frameRow l f tECREDIT s = _
  rw [h.row_here htype hhere (by decide) (by decide), if_neg (by decide), if_pos rfl]

theorem row_open (htype : (Pkt.parse f.hdr f.payload).type = tOPEN) :
    exec (.openFrame l f) s = .next (onOpen (received l f s) l (Pkt.parse f.hdr f.payload)) := by
  show Machine.frameRow l f tOPEN s = _
  rw [h.row_here htype hhere (by decide) (by decide), if_neg (by decide), if_neg (by decide), if_pos rfl]

theorem row_data (htype : (Pkt.parse f.hdr f.payload).type = tDATA) :
    exec (.dataFrame l f) s = .next (onData (received l f s) l (Pkt.parse f.hdr f.payload)) := by
  show Machine.frameRow l f tDATA s = _
  rw [h.row_here htype hhere (by decide) (by decide), if_neg (by decide), if_neg (by decide), if_neg (by decide), if_pos rfl]

theorem row_mirrorAck (htype : (Pkt.parse f.hdr f.payload).type = tMACK) :
    exec (.mirrorAck l f) s = .next (onMirrorAck (received l f s) (Pkt.parse f.hdr f.payload)) := by
  show Machine.frameRow l f tMACK s = _
  rw [h.row_here htype hhere (by decide) (by decide), if_neg (by decide), if_neg (by decide), if_neg (by decide), if_neg (by decide), if_pos rfl]

theorem row_mirrorNak (htype : (Pkt.parse f.hdr f.payload).type = tMNAK) :
    exec (.mirrorNak l f) s = .next (onMirrorNak (received l f s) (Pkt.parse f.hdr f.payload)) := by
  show Machine.frameRow l f tMNAK s = _
  rw [h.row_here htype hhere (by decide) (by decide), if_neg (by decide), if_neg (by decide),
    if_neg (by decide), if_neg (by decide), if_neg (by decide), if_pos rfl]

end

theorem row_hello (h : TakesIn l f s) (htype : (Pkt.parse f.hdr f.payload).type = tHELLO) :
    exec (.hello l f) s = .next (onHello (received l f s) l (Pkt.parse f.hdr f.payload)) := by
  have hnot : ¬ (rd s (lkState l) = lkFAILED ∧ rd s (lkCode l) = Code.LINK_PEER ∧ frameIntact l f ∧
      (Pkt.parse f.hdr f.payload).type = tHELLO ∧ pwrGood s) := by
    rintro ⟨hfailed, _⟩
    have hup := h.up
    rw [linkUp, hfailed] at hup
    exact absurd hup (by decide)
  show execHello l f s = _
  rw [execHello, if_neg hnot, h.frameRow htype, processFrame_hello htype]
  rfl

theorem row_stop (h : TakesIn l f s) (htype : (Pkt.parse f.hdr f.payload).type = tSTOP) :
    exec (.stopMark l f) s = .next (onStopMark (received l f s) l (Pkt.parse f.hdr f.payload)) := by
  show execStopMark l f s = _
  rw [execStopMark, h.frameRow htype, processFrame_stop htype]
  rfl

end TakesIn

end Sys2Proof.Machine
end

section
/-! SUPPORT. HELLO and the loss of a link (R22, R393, R395): what a HELLO shows, what it is checked against, and what a link that fails shows. -/

namespace Sys2Proof.Machine

/-! ### HELLO (R393) -/

section
variable (s : State) (l : Nat) (h : Bytes)

theorem seeHello_frame : seeHello s l h = { s with regs := (seeHello s l h).regs } := by
  unfold seeHello
  split
  · rfl
  · rfl

/-- The peer seen, and of Colkin its link, stand in the register that shows the link's state. -/
theorem seeHello_regsKept : RegsKept s (seeHello s l h) [(lkState l).off] := by
  unfold seeHello lkPeerSeen lkState lkPick
  split
  · exact (RegsKept.refl s _).wr (by decide) _
  · exact ((RegsKept.refl s _).wr (f := F.CLK_STATE_PEER_SEEN l) (List.mem_singleton_self _) _).wr (f := F.CLK_STATE_LINK_SEEN l)
      (List.mem_singleton_self _) _

theorem rd_seeHello_state : rd (seeHello s l h) (lkState l) = rd s (lkState l) := by
  unfold seeHello lkPeerSeen lkState lkPick
  split
  · exact rd_wr_ne _ _ (by decide) (by decide)
  · rw [rd_wr_ne _ _ (by simp [F.CLK_STATE_LINK_SEEN]) (by simp [F.CLK_STATE_LINK_SEEN, F.CLK_STATE_STATE]),
      rd_wr_ne _ _ (by simp [F.CLK_STATE_PEER_SEEN]) (by simp [F.CLK_STATE_PEER_SEEN, F.CLK_STATE_STATE])]

theorem rd_seeHello_peerSeen : rd (seeHello s l h) (lkPeerSeen l) = field h 4 2 % 2 ^ (lkPeerSeen l).width := by
  unfold seeHello lkPeerSeen lkPick
  split
  · exact rd_wr_same _ _ (by decide)
  · rw [rd_wr_ne _ _ (by simp [F.CLK_STATE_LINK_SEEN]) (by simp [F.CLK_STATE_LINK_SEEN, F.CLK_STATE_PEER_SEEN]),
      rd_wr_same _ _ (by simp [F.CLK_STATE_PEER_SEEN])]

end

/-- What a HELLO is checked against stands in registers of the device and of the link's configuration. -/
theorem helloOk_of_regs {s t : State} {l : Nat} (hdev : ∀ g : Fld, g.off < 0x20 → rd t g = rd s g)
    (hcfg : ∀ g : Fld, g.off = 0x1e0000 + 0x40 * l → rd t g = rd s g) (h : Bytes) : helloOk t l h = helloOk s l h := by
  unfold helloOk moduleId
  rw [hdev F.DEV_GROUP_GROUP_ID (by decide), hdev F.DEV_IDENT_TWIN_ID (by decide), hdev F.DEV_IDENT_MODULE_ID (by decide),
    hcfg (F.CLK_CFG_PEER l) rfl, hcfg (F.CLK_CFG_PEER_LINK l) rfl]

/-! ### Loss of a link (R22, R395) -/

/-- Streams that are dropped while nothing collects and no image is out change no register but of Girth that it receives. -/
theorem rd_dropStreams_idle {s : State} (hcolls : s.colls = []) (hout : s.mirrorOut = none) (l : Nat) {g : Fld}
    (hg : g.off ≠ 0x1f0020 ∨ g.lo + g.width ≤ 10 ∨ 11 ≤ g.lo) : rd (dropStreams s l) g = rd s g := by
  unfold dropStreams
  extract_lets x blank s₁ outs ins s₂ hit s₃ s₄ s₅
  have h₃ : s₃ = s₂ := by
    unfold s₃
    rw [show s₂.colls = [] from hcolls]
    rfl
  have hout₅ : s₅.mirrorOut = none := by
    show s₃.mirrorOut = none
    rw [h₃]
    exact hout
  have hkeep : rd s₃ g = rd s g := by rw [h₃]; rfl
  split
  · rw [hout₅]
    exact (rd_wr_ne s₄ 0 (by decide) (by simp only [F.GRT_STATE_RECEIVING]; omega)).trans hkeep
  · exact hkeep

/-- Where the fields stand that show a link's loss. -/
theorem lkShown (l : Nat) :
    (lkErrDown l).off ≠ (lkState l).off ∧ (lkCode l).off = (lkState l).off ∧ (lkState l).lo = 0 ∧ (lkState l).width = 3 ∧
      (lkWidth l).lo = 3 ∧ (lkWidth l).width ≤ 4 ∧ (lkCode l).lo = 16 ∧ (lkCode l).width = 16 ∧
      (lkErrDown l).lo + (lkErrDown l).width ≤ 64 := by
  unfold lkErrDown lkState lkCode lkWidth lkPick
  split
  · decide
  · simp [F.CLK_ERR_DOWN, F.CLK_STATE_STATE, F.CLK_STATE_CODE, F.CLK_STATE_WIDTH]

theorem emberCode_frame (s : State) (u code : Nat) (c : Option CmdId) :
    emberCode s u code c =
      { s with regs := (emberCode s u code c).regs, ember := (emberCode s u code c).ember, emberLost := (emberCode s u code c).emberLost } := by
  cases c <;> exact emberPut_frame ..

theorem rd_emberCode (s : State) (u code : Nat) (c : Option CmdId) {g : Fld} (hg : g.off < 0x1f00000) : rd (emberCode s u code c) g = rd s g := by
  cases c <;> rw [emberCode, rd, regVal_emberPut _ hg, rd]

/-- A link that fails shows it, with the code (Table 15-10). -/
theorem linkFail_shows {s : State} (hcolls : s.colls = []) (hout : s.mirrorOut = none) {l : Nat} (hl : l < 13) (code : Nat) :
    rd (linkFail s l code) (lkState l) = lkFAILED ∧ rd (linkFail s l code) (lkCode l) = code % 2 ^ 16 := by
  obtain ⟨hdown, hcode, hslo, hsw, hwlo, hww, hclo, hcw, hdw⟩ := lkShown l
  have hlow : (lkState l).off < 0x1f00000 := by
    unfold lkState lkPick
    split <;> simp only [F.CLK_STATE_STATE, F.GRT_STATE_STATE] <;> omega
  unfold linkFail
  extract_lets s₁
  have hshows (g : Fld) (hg : g.off = (lkState l).off) (hapart : g.lo + g.width ≤ 10 ∨ 11 ≤ g.lo) :
      rd (dropStreams (emberCode s₁ (U.link l) code none) l) g = rd s₁ g := by
    refine (rd_dropStreams_idle ?_ ?_ l (.inr hapart)).trans (rd_emberCode s₁ _ _ _ (by omega))
    · rw [emberCode_frame]; exact hcolls
    · rw [emberCode_frame]; exact hout
  constructor
  · rw [hshows _ rfl (by omega), rd_wr_off _ _ hdown, rd_wr_ne _ _ (by omega) (by omega), rd_wr_ne _ _ (by omega) (by omega),
      rd_wr_same _ _ (by omega), hsw]
    rfl
  · rw [hshows _ hcode (by omega), rd_wr_off _ _ (by omega), rd_wr_same _ _ (by omega), hcw]

end Sys2Proof.Machine
end

section
/-! SUPPORT. What sending on links leaves alone (R388, R443), and the progress of collectives on a module that has none (R290, R296). -/

namespace Sys2Proof.Machine

/-! ### What sending leaves of the holds on links (R443) -/

/-- Memory, the collectives and streams of the module, the global stop, and the holds and marks of the links stand as they did. -/
structure HoldsKept (s t : State) : Prop where
  mem : t.mem = s.mem
  colls : t.colls = s.colls
  txs : t.txs = s.txs
  stop : stopActive t = stopActive s
  blocked : ∀ k, (getLink t k).blocked = (getLink s k).blocked
  peerMark : ∀ k, (getLink t k).peerMark = (getLink s k).peerMark

namespace HoldsKept
variable {s t : State}

theorem refl (s : State) : HoldsKept s s := ⟨rfl, rfl, rfl, rfl, fun _ => rfl, fun _ => rfl⟩

theorem trans {u : State} (a : HoldsKept s t) (b : HoldsKept t u) : HoldsKept s u :=
  ⟨b.mem.trans a.mem, b.colls.trans a.colls, b.txs.trans a.txs, b.stop.trans a.stop, fun k => (b.blocked k).trans (a.blocked k),
    fun k => (b.peerMark k).trans (a.peerMark k)⟩

theorem ite {p : Prop} [Decidable p] {x y : State} (hx : HoldsKept s x) (hy : HoldsKept s y) : HoldsKept s (if p then x else y) := by
  split
  · exact hx
  · exact hy

theorem wr (h : HoldsKept s t) {f : Fld} (hf : f.off ≠ 0x200010) (v : Nat) : HoldsKept s (Machine.wr t f v) := by
  refine h.trans ⟨rfl, rfl, rfl, ?_, fun _ => rfl, fun _ => rfl⟩
  rw [stopActive, rd_wr_off _ _ hf, stopActive]

theorem cntLink (h : HoldsKept s t) (l k n : Nat) : HoldsKept s (Machine.cntLink t l k n) :=
  h.wr (by simp only [F.CNT_LINK_VALUE]; omega) _

theorem cntHearth (h : HoldsKept s t) (g k n : Nat) : HoldsKept s (Machine.cntHearth t g k n) :=
  h.wr (by simp only [F.CNT_HEARTH_VALUE]; omega) _

theorem emit (h : HoldsKept s t) (o : Out) : HoldsKept s (Machine.emit t o) := h.trans ⟨rfl, rfl, rfl, rfl, fun _ => rfl, fun _ => rfl⟩

theorem setLink (h : HoldsKept s t) {l : Nat} {x : LinkSt} (hb : x.blocked = (getLink t l).blocked) (hp : x.peerMark = (getLink t l).peerMark) :
    HoldsKept s (Machine.setLink t l x) := by
  refine h.trans ⟨rfl, rfl, rfl, rfl, fun k => ?_, fun k => ?_⟩ <;> by_cases hk : k = l
  · rw [hk, getLink_setLink_same, hb]
  · rw [getLink_setLink_ne t x hk]
  · rw [hk, getLink_setLink_same, hp]
  · rw [getLink_setLink_ne t x hk]

theorem each {α : Type} {f : State → α → State} (hf : ∀ s x, HoldsKept s (f s x)) (xs : List α) (s : State) : HoldsKept s (each xs s f) := by
  induction xs generalizing s with
  | nil => exact .refl s
  | cons x xs ih => exact (hf s x).trans (ih (f s x))

/-- As `each`, where more goes with the state. -/
theorem foldl {α β : Type} {f : State × β → α → State × β} (hf : ∀ p x, HoldsKept p.1 (f p x).1) (xs : List α) (p : State × β) :
    HoldsKept p.1 (xs.foldl f p).1 := by
  induction xs generalizing p with
  | nil => exact .refl p.1
  | cons x xs ih => exact (hf p x).trans (ih (f p x))

theorem transmit (h : HoldsKept s t) (l : Nat) (p : Pkt) : HoldsKept s (transmit t l p) := by
  have hlink (x : LinkSt) (hb : x.blocked = (getLink t l).blocked) (hp : x.peerMark = (getLink t l).peerMark) :=
    (h.setLink hb hp).cntLink l p.vc (p.len + 1)
  unfold Machine.transmit
  extract_lets x k u v w
  have hv : HoldsKept s v := hlink _ rfl rfl
  exact (HoldsKept.ite (hv.cntLink ..) hv : HoldsKept s w).emit _

theorem pumpLink (h : HoldsKept s t) (l : Nat) : HoldsKept s (pumpLink t l) := by
  unfold Machine.pumpLink
  extract_lets q u r
  have hr : HoldsKept s r.1 := by
    refine (h.setLink (l := l) (x := { getLink t l with queue := [] }) rfl rfl).trans
      (HoldsKept.foldl (p := (Machine.setLink t l { getLink t l with queue := [] }, [], [])) (fun a p => ?_) q)
    obtain ⟨v, stuck, kept⟩ := a
    dsimp only
    split
    · exact .refl v
    · exact (HoldsKept.refl v).transmit l p
  clear_value r
  have hq := hr.setLink (l := l) (x := { getLink r.1 l with queue := r.2.2 }) rfl rfl
  exact .ite (hq.wr (by decide) 2) hq

theorem post (h : HoldsKept s t) (l : Nat) (p : Pkt) : HoldsKept s (post t l p) := by
  unfold Machine.post
  extract_lets u
  have hu : HoldsKept s u := .ite (h.cntLink ..) h
  exact (hu.setLink (l := l) (x := { getLink u l with queue := (getLink u l).queue ++ [p] }) rfl rfl).pumpLink l

theorem sendTo (h : HoldsKept s t) (type dst stream : Nat) (payload : Bytes) : HoldsKept s (sendTo t type dst stream payload) := by
  unfold Machine.sendTo
  split
  · exact h
  · exact h.post _ _

end HoldsKept

/-! ### A module without collectives -/

theorem syncStitch_frame (s : State) : syncStitch s = { s with free := (syncStitch s).free, regs := (syncStitch s).regs } := by
  have hsome : ∃ n rs, syncStitch s = { s with free := n, regs := rs } := by
    unfold syncStitch
    extract_lets n
    split
    next x u heq =>
      split at heq
      · cases heq
        exact ⟨_, _, syncRails_frame _⟩
      · cases heq
        exact ⟨_, _, syncRails_frame _⟩
  obtain ⟨n, rs, h⟩ := hsome
  rw [h]

/-- With no collective on the module, segments of ended ones are dropped, and the Stitch registers follow. -/
theorem collAll_idle {s : State} (hcolls : s.colls = []) : collAll s = syncStitch (dropDead s) := by
  rw [collAll, hcolls]
  rfl

/-- Where none has ended either, no segment is dropped. -/
theorem collAll_quiet {s : State} (hcolls : s.colls = []) (hended : s.collEnded = []) : collAll s = syncStitch s := by
  have hdead : dropDead s = s := by
    unfold dropDead
    extract_lets dead
    have hnone : dead = fun _ => false := funext fun r => by simp [dead, hcolls, hended]
    clear_value dead
    subst hnone
    simp [each]
  rw [collAll_idle hcolls, hdead]

theorem dropDead_holdsKept (s : State) : HoldsKept s (dropDead s) := by
  unfold dropDead
  extract_lets dead
  refine HoldsKept.trans (t := { s with rxs := s.rxs.filter fun r => !dead r || !r.last }) ⟨rfl, rfl, rfl, rfl, fun _ => rfl, fun _ => rfl⟩
    (.each (fun u r => ?_) _ _)
  extract_lets k v
  have hv : HoldsKept u v := ⟨rfl, rfl, rfl, rfl, fun _ => rfl, fun _ => rfl⟩
  exact .ite hv (hv.sendTo ..)

end Sys2Proof.Machine
end

section
/-! SUPPORT. What each sequenced frame does (R389 to R393, R295, R396, R398, R443), and the statement. -/

namespace Sys2Proof.Machine

/-! ### What each frame does -/

section
variable {l : Fin 13} {f : Frame} {s : State}

/-- The check of a HELLO finds what it found before the frame came. -/
theorem helloOk_received (l : Fin 13) (f : Frame) (s : State) (h : Bytes) :
    helloOk (seeHello (received l f s) l h) l h = helloOk s l h := by
  obtain ⟨hstate, hcfg, hlo, _⟩ := lkCorr_off l.isLt
  have hshow : 0x1e0000 ≤ (lkState l).off ∧ (lkState l).off ≠ 0x1e0000 + 0x40 * l.val := by
    unfold lkState lkPick
    split <;> simp only [F.CLK_STATE_STATE, F.GRT_STATE_STATE] <;> omega
  have hsee (g : Fld) (hg : g.off ≠ (lkState l).off) : rd (seeHello (received l f s) l h) g = rd (received l f s) g :=
    (seeHello_regsKept _ _ _).rd_eq (by simpa using hg)
  refine helloOk_of_regs (fun g hg => ?_) (fun g hg => ?_) h
  · rw [hsee g (by omega), rd_received_low (by omega)]
  · rw [hsee g (by omega), rd_received (by omega) (by omega)]

theorem rd_received_state (l : Fin 13) (f : Frame) (s : State) : rd (received l f s) (lkState l) = rd s (lkState l) := by
  obtain ⟨hstate, _⟩ := lkCorr_off l.isLt
  refine rd_received hstate.symm ?_
  unfold lkState lkPick
  split <;> simp only [F.CLK_STATE_STATE, F.GRT_STATE_STATE] <;> omega

namespace TakesIn

/-- A HELLO of the expected peer shows it, and no more (R393). -/
theorem hello_seen (h : TakesIn l f s) (htype : (Pkt.parse f.hdr f.payload).type = tHELLO) (hok : helloOk s l f.payload = true) :
    exec (.hello l f) s = .next (seeHello (received l f s) l f.payload) := by
  rw [h.row_hello htype, onHello]
  exact congrArg Host.Outcome.next (if_pos ((helloOk_received l f s f.payload).trans hok))

/-- A HELLO of another peer fails the link (R393). -/
theorem hello_refused (h : TakesIn l f s) (htype : (Pkt.parse f.hdr f.payload).type = tHELLO) (hbad : helloOk s l f.payload = false) :
    exec (.hello l f) s = .next (peerFail (seeHello (received l f s) l f.payload) l) := by
  rw [h.row_hello htype, onHello]
  exact congrArg Host.Outcome.next (if_neg (Bool.eq_false_iff.mp ((helloOk_received l f s f.payload).trans hbad)))

end TakesIn

theorem linkUp_hello (l : Fin 13) (f : Frame) (s : State) (b : Bytes) : linkUp (seeHello (received l f s) l b) l = linkUp s l := by
  rw [linkUp, rd_seeHello_state, rd_received_state, linkUp]

theorem getLink_hello (l : Fin 13) (f : Frame) (s : State) (b : Bytes) :
    getLink (seeHello (received l f s) l b) l = { getLink s l with rxNext := ((getLink s l).rxNext + 1) % 4096, nakSent := false } := by
  rw [seeHello_frame]
  exact received_getLink ..

/-- A peer check that fails shows on the link (Table 15-10). -/
theorem peerFail_shows {u : State} (hcolls : u.colls = []) (hout : u.mirrorOut = none) (l : Fin 13) :
    rd (peerFail u l) (lkState l) = lkFAILED ∧ rd (peerFail u l) (lkCode l) = Code.LINK_PEER := by
  obtain ⟨hstate, hcode⟩ := linkFail_shows hcolls hout l.isLt Code.LINK_PEER
  unfold peerFail
  dsimp only
  split
  · exact ⟨hstate, hcode⟩
  · next h12 =>
    have hevent : F.CLK_EVENT_PEER.off ≠ (lkState l).off := by
      simp only [lkState, lkPick, if_neg h12, F.CLK_STATE_STATE, F.CLK_EVENT_PEER]
      omega
    obtain ⟨_, hoff, _⟩ := lkShown l
    exact ⟨(rd_wr_off _ _ hevent).trans hstate, (rd_wr_off _ _ (by omega)).trans hcode⟩

/-- A REJECT for a stream of no collective closes the stream (R390). -/
theorem onReject_closes {u : State} {tx : TxStream} {p : Pkt} (hcolls : u.colls = []) (htxs : u.txs = [tx]) (hnum : tx.num = field p.payload 2 2)
    (l : Nat) : onReject u l p = { u with txs := [] } := by
  simp [onReject, htxs, hcolls, hnum]

/-- A stream to which landing credit comes back (R295). -/
def creditedStream (t : TxStream) (p : Pkt) : TxStream := { t with flight := t.flight - field p.payload 0 4 }

/-- A stream that has sent all its frames sends nothing more. -/
theorem pumpStream_finished {u : State} {t : TxStream} (htxs : u.txs = [t]) (hopened : t.opened = true) (hfinished : t.finished = true) :
    pumpStream u t = u := by
  simp [pumpStream, pumpTx, htxs, hopened, hfinished]

theorem onEcredit_returns {u : State} {tx : TxStream} {p : Pkt} (hcolls : u.colls = []) (hended : u.collEnded = []) (htxs : u.txs = [tx])
    (hnum : tx.num = p.stream) (hdst : tx.dst = p.src) (hopened : tx.opened = true) (hfinished : tx.finished = true) :
    onEcredit u p = syncStitch { u with txs := [creditedStream tx p] } := by
  have hback : u.txs.map (fun t => if t.num = p.stream ∧ t.dst = p.src then { t with flight := t.flight - field p.payload 0 4 } else t) =
      [creditedStream tx p] := by
    rw [htxs, List.map_singleton, if_pos ⟨hnum, hdst⟩, creditedStream]
  have hto : ((creditedStream tx p).dst == p.src) = true := beq_iff_eq.mpr hdst
  rw [onEcredit]
  dsimp only
  rw [hback, List.filter_singleton, hto, cond_true, each, List.foldl_cons, List.foldl_nil,
    pumpStream_finished (t := creditedStream tx p) rfl hopened hfinished]
  exact collAll_quiet hcolls hended

/-- The stream that an OPEN opens. -/
def openedStream (l : Nat) (p : Pkt) : RxStream :=
  { src := p.src, num := p.stream, link := l, desc := p.payload.take 64, bytes := [], last := false, consumed := 0, counted := false, errs := [] }

theorem onOpen_opens {u : State} (hcolls : u.colls = []) (hended : u.collEnded = []) {l : Nat} (hl : l ≠ 12) (p : Pkt) :
    onOpen u l p = syncStitch { u with rxs := u.rxs ++ [openedStream l p] } := by
  rw [onOpen, if_neg hl]
  exact collAll_quiet hcolls hended

/-- What DATA make of the stream that they belong to (R392). -/
def broughtStream (r : RxStream) (p : Pkt) : RxStream :=
  { r with bytes := r.bytes ++ (if p.last then p.payload.take (r.size - r.bytes.length) else p.payload), last := p.last }

theorem onData_brings {u : State} {r : RxStream} {p : Pkt} (hcolls : u.colls = []) (hended : u.collEnded = []) {l : Nat} (hl : l ≠ 12)
    (hrxs : u.rxs = [r]) (hsrc : r.src = p.src) (hnum : r.num = p.stream) (hlast : r.last = false) :
    onData u l p = syncStitch { u with rxs := [broughtStream r p] } := by
  rw [onData, if_neg hl, hrxs, List.map_singleton, if_pos ⟨hsrc, hnum, by rw [hlast]; rfl⟩]
  exact collAll_quiet hcolls hended

/-- A resume lifts the stop's hold on the link (R443). -/
theorem onStopMark_resumes {u : State} {l : Nat} {p : Pkt} (hbit : bit (field p.payload 2 2) 1 = true) (htxs : u.txs = []) (hcolls : u.colls = []) :
    (onStopMark u l p).mem = u.mem ∧ (getLink (onStopMark u l p) l).blocked = false ∧ (getLink (onStopMark u l p) l).peerMark = false := by
  let v := setLink u l { getLink u l with blocked := false, peerMark := false }
  have hlink : getLink v l = { getLink u l with blocked := false, peerMark := false } := getLink_setLink_same ..
  have hpump : HoldsKept v (pumpLink v l) := (HoldsKept.refl v).pumpLink l
  have hrow : onStopMark u l p = syncStitch (dropDead (pumpLink v l)) := by
    rw [← collAll_idle (hpump.colls.trans hcolls), onStopMark]
    dsimp only
    rw [if_pos hbit]
    show collAll (each (pumpLink v l).txs (pumpLink v l) pumpStream) = _
    rw [hpump.txs.trans htxs]
    rfl
  have hkept := hpump.trans (dropDead_holdsKept _)
  have hlinks : (onStopMark u l p).links = (dropDead (pumpLink v l)).links := by rw [hrow, syncStitch_frame]
  refine ⟨?_, ?_, ?_⟩
  · rw [hrow, syncStitch_frame]
    exact hkept.mem
  · rw [getLink_of_links hlinks, hkept.blocked, hlink]
  · rw [getLink_of_links hlinks, hkept.peerMark, hlink]

/-- A peer's mark, of a stop or an echo. -/
theorem onStopMark_marks {u : State} {l : Nat} {p : Pkt} (hresume : bit (field p.payload 2 2) 1 = false)
    (hecho : bit (field p.payload 2 2) 0 = true) :
    onStopMark u l p = setLink u l { getLink u l with peerMark := true } := by
  rw [onStopMark]
  dsimp only
  rw [if_neg (by rw [hresume]; decide), if_pos (by rw [hecho]; rfl)]

/-- A mark of a stop that is not followed holds the link, and is echoed (R443). -/
theorem onStopMark_holds {u : State} {l : Nat} {p : Pkt} (hflags : field p.payload 2 2 = 0) (hnone : stopActive u = false)
    (hfollow : rd u F.MGT_STOP_CFG_FOLLOW = 0) :
    (onStopMark u l p).mem = u.mem ∧ (getLink (onStopMark u l p) l).blocked = true ∧ stopActive (onStopMark u l p) = false := by
  let v := each (u.txs.filter fun t => t.link == l && !t.finished) u fun s t => cntHearth s t.cmd.1 13 1
  let w := setLink v l { getLink u l with blocked := true, marked := true }
  have hrow : onStopMark u l p = sendMark w l (field p.payload 0 2) 1 (field p.payload 4 4) := by
    rw [onStopMark]
    dsimp only
    rw [hflags, hnone, hfollow, if_neg (by decide), if_neg (by decide), if_neg (fun k => absurd k.1 (by decide))]
  have hv : HoldsKept u v := .each (fun s t => (HoldsKept.refl s).cntHearth ..) _ u
  have hsent : HoldsKept w (onStopMark u l p) := by
    rw [hrow]
    exact (HoldsKept.refl w).post _ _
  refine ⟨hsent.mem.trans hv.mem, ?_, ?_⟩
  · rw [hsent.blocked]
    exact congrArg LinkSt.blocked (getLink_setLink_same v l _)
  · rw [hsent.stop]
    exact hv.stop.trans hnone

theorem nextImage_none {u : State} (hdue : u.returnDue = false) : nextImage u = u := by simp [nextImage, hdue]

/-- An image of a commit that has arrived is over, and its generation is acknowledged (R396). -/
theorem onMirrorAck_ends {u : State} {m : MirrorOut} {p : Pkt} (hout : u.mirrorOut = some m) (hkind : m.kind = 1) (hholds : m.holds = [])
    (hgen : m.gen = field p.payload 4 4) (hdue : u.returnDue = false) :
    onMirrorAck u p = wr (wr { u with mirrorOut := none, mirrorOwed := none } F.GRT_STATE_MIRROR 0) F.GRT_GEN_ACKED m.gen := by
  rw [onMirrorAck, hout]
  dsimp only
  rw [if_neg (by rw [hgen]; exact fun k => k rfl), hholds, hkind, if_neg (by decide), nextImage_none (by exact hdue)]
  rfl

/-- An image of a commit that is refused for the third time fails the mirror (R398). -/
theorem onMirrorNak_fails {u : State} {m : MirrorOut} {p : Pkt} (hout : u.mirrorOut = some m) (hkind : m.kind = 1) (hholds : m.holds = [])
    (htries : 3 ≤ m.tries) (hdue : u.returnDue = false) :
    onMirrorNak u p = wr (wr (emberCode { wr u F.GRT_ERR_MIRROR_NAK 1 with mirrorOut := none } U.girth Code.MIRROR_FAIL none)
      F.GRT_ERR_MIRROR_FAIL 1) F.GRT_STATE_MIRROR 3 := by
  have hfail : mirrorFail (wr u F.GRT_ERR_MIRROR_NAK 1) m =
      wr (wr (emberCode { wr u F.GRT_ERR_MIRROR_NAK 1 with mirrorOut := none } U.girth Code.MIRROR_FAIL none) F.GRT_ERR_MIRROR_FAIL 1)
        F.GRT_STATE_MIRROR 3 := by
    rw [mirrorFail, hholds, hkind, if_neg (by decide)]
    rfl
  rw [onMirrorNak, hout]
  dsimp only
  rw [if_neg (by omega), hfail]
  refine nextImage_none (Eq.trans ?_ hdue)
  rw [emberCode_frame]
  rfl

end

/-! ### The statement -/

/-- Settles O56: a frame that is taken in has the effect of its type (`processFrame_here`) on the state that its receipt leaves. -/
theorem framesTakeEffect : Obligations.FramesTakeEffect := by
  unfold Obligations.FramesTakeEffect
  intro l f tx rx m s x p here quiet hup haccepts hlive hawake
  have h : TakesIn l f s := ⟨hup, haccepts, hlive, hawake⟩
  have hkept : (received l f s).mem = s.mem := received_mem
  refine ⟨?_, ?_, ?_, ?_, ?_, ?_, ?_, ?_, ?_, ?_, ?_⟩
  · intro ht hok
    refine ⟨_, h.hello_seen ht hok, (linkUp_hello ..).trans hup, rd_seeHello_peerSeen .., ?_, ?_⟩
    · rw [getLink_hello]
    · rw [seeHello_frame]
      exact hkept
  · intro ht hbad hcolls hout
    refine ⟨_, h.hello_refused ht hbad, peerFail_shows ?_ ?_ l⟩
    · rw [seeHello_frame]
      exact received_colls.trans hcolls
    · rw [seeHello_frame]
      exact received_mirrorOut.trans hout
  · rintro ht ⟨hdst, _⟩ ⟨hcolls, _⟩ htxs hnum
    have heffect := onReject_closes (u := received l f s) (p := p) (received_colls.trans hcolls) (received_txs.trans htxs) hnum l
    exact ⟨_, (h.row_reject (.inl hdst) ht).trans (congrArg _ heffect), rfl, hkept⟩
  · rintro ht ⟨hdst, _⟩ ⟨hcolls, hended⟩ _ htxs hnum hsrc hopened hfinished
    have heffect := onEcredit_returns (u := received l f s) (p := p) (received_colls.trans hcolls) (received_collEnded.trans hended)
      (received_txs.trans htxs) hnum hsrc hopened hfinished
    refine ⟨_, (h.row_ecredit (.inl hdst) ht).trans (congrArg _ heffect), ?_⟩
    rw [syncStitch_frame]
    exact ⟨rfl, hkept⟩
  · rintro ht ⟨hdst, hl⟩ ⟨hcolls, hended⟩
    have heffect := onOpen_opens (u := received l f s) (received_colls.trans hcolls) (received_collEnded.trans hended) hl p
    refine ⟨_, (h.row_open (.inl hdst) ht).trans (congrArg _ heffect), ?_⟩
    rw [syncStitch_frame]
    exact ⟨hkept, congrArg (· ++ [openedStream l p]) (received_rxs (l := l) (f := f))⟩
  · rintro ht ⟨hdst, hl⟩ ⟨hcolls, hended⟩ hrxs hsrc hnum hlast
    have heffect := onData_brings (u := received l f s) (p := p) (received_colls.trans hcolls) (received_collEnded.trans hended) hl
      (received_rxs.trans hrxs) hsrc hnum hlast
    refine ⟨_, (h.row_data (.inl hdst) ht).trans (congrArg _ heffect), ?_⟩
    rw [syncStitch_frame]
    exact ⟨hkept, rfl⟩
  · intro ht hbit _ htxs hcolls
    obtain ⟨hmem, hblocked, hmark⟩ := onStopMark_resumes (u := received l f s) (l := l) (p := p) hbit (received_txs.trans htxs)
      (received_colls.trans hcolls)
    exact ⟨_, h.row_stop ht, hblocked, hmark, hmem.trans hkept⟩
  · intro ht hresume hecho
    refine ⟨_, (h.row_stop ht).trans (congrArg _ (onStopMark_marks hresume hecho)), ?_, hkept⟩
    rw [getLink_setLink_same]
  · intro ht hflags hnone hfollow
    obtain ⟨hmem, hblocked, hstop⟩ := onStopMark_holds (u := received l f s) (l := l) (p := p) hflags
      (by rw [stopActive, rd_received_mgmt (by decide) (by decide)]; exact hnone)
      ((rd_received_mgmt (by decide) (by decide)).trans hfollow)
    exact ⟨_, h.row_stop ht, hblocked, hstop, hmem.trans hkept⟩
  · intro ht hl hout hkind hholds hgen hdue
    have heffect := onMirrorAck_ends (u := received l f s) (p := p) (received_mirrorOut.trans hout) hkind hholds hgen (received_returnDue.trans hdue)
    refine ⟨_, (h.row_mirrorAck (.inr hl) ht).trans (congrArg _ heffect), rfl, rfl, ?_, ?_, hkept⟩
    · rw [rd_wr_off _ _ (by decide), rd_wr_same _ _ (by decide)]
      rfl
    · rw [rd_wr_same _ _ (by decide)]
  · intro ht hl hout hkind hholds htries hdue
    have heffect := onMirrorNak_fails (u := received l f s) (p := p) (received_mirrorOut.trans hout) hkind hholds htries
      (received_returnDue.trans hdue)
    refine ⟨_, (h.row_mirrorNak (.inr hl) ht).trans (congrArg _ heffect), ?_, ?_, ?_, ?_, ?_⟩
    · rw [emberCode_frame]
      rfl
    · rw [rd_wr_same _ _ (by decide)]
      rfl
    · rw [rd_wr_off _ _ (by decide), rd_wr_same _ _ (by decide)]
      rfl
    · rw [rd_wr_off _ _ (by decide), rd_wr_ne _ _ (by decide) (by decide), rd_emberCode _ _ _ _ (by decide)]
      exact (rd_wr_same (received l f s) 1 (by decide)).trans rfl
    · rw [emberCode_frame]
      exact hkept

end Sys2Proof.Machine
end

section
/-! SUPPORT. Requests that are served (R312 to R317) where no symbol is flipped: what they leave, and that they look at no window, no
collective and no free choice. -/

namespace Sys2Proof.Machine

/-! ### What a request that is served leaves -/

/-- Counters, and the poison of sectors that are written, are all that changes. -/
structure Served (s t : State) : Prop where
  regs : ∀ o, o < 0x420000 → regVal t o = regVal s o
  rest : t = { s with regs := t.regs, poison := t.poison, farPoison := t.farPoison }

namespace Served
variable {s t : State}

theorem refl (s : State) : Served s s := ⟨fun _ _ => rfl, rfl⟩

theorem trans {u : State} (a : Served s t) (b : Served t u) : Served s u :=
  ⟨fun o ho => (b.regs o ho).trans (a.regs o ho), by rw [b.rest, a.rest]⟩

theorem count (h : Served s t) {f : Fld} (hf : 0x420000 ≤ f.off) (n : Nat) : Served s (wrapAdd t f n) :=
  h.trans ⟨fun _ ho => regVal_setReg_ne _ _ (by omega), rfl⟩

theorem rd_eq (h : Served s t) {f : Fld} (hf : f.off < 0x420000) : rd t f = rd s f := by rw [rd, h.regs _ hf, rd]

theorem mem (h : Served s t) : t.mem = s.mem := by rw [h.rest]
theorem symErr (h : Served s t) : t.symErr = s.symErr := by rw [h.rest]
theorem tickets (h : Served s t) : t.tickets = s.tickets := by rw [h.rest]
theorem disps (h : Served s t) : t.disps = s.disps := by rw [h.rest]
theorem evalHolds (h : Served s t) : t.evalHolds = s.evalHolds := by rw [h.rest]
theorem colls (h : Served s t) : t.colls = s.colls := by rw [h.rest]
theorem collEnded (h : Served s t) : t.collEnded = s.collEnded := by rw [h.rest]
theorem txs (h : Served s t) : t.txs = s.txs := by rw [h.rest]
theorem rxs (h : Served s t) : t.rxs = s.rxs := by rw [h.rest]

end Served

theorem healed_served {s : State} (hclean : s.symErr = []) (xs : List Nat) (sec : Nat) : Served s (healSector { s with poison := xs } sec) := by
  have hsym : s.symErr.filter (fun e => e.1 / 68 != sec / 64) = s.symErr := by rw [hclean]; rfl
  refine ⟨fun _ _ => rfl, ?_⟩
  rw [healSector, hsym]

/-- A request of one sector that is served. -/
theorem access_served {s t : State} (hclean : s.symErr = []) {who a n : Nat} {write : Bool} {cmd : Option CmdId}
    (h : access s who a n write cmd = (t, .ok ())) : Served s t := by
  have hmem (u : State) (hu : Served s u) (d k : Nat) : Served s (cntMem u d k 1) := hu.count (by simp only [F.CNT_MEM_VALUE]; omega) 1
  have hio (u : State) (hu : Served s u) (k : Nat) : Served s (cntIo u k 1) := hu.count (by simp only [F.CNT_IO_VALUE]; omega) 1
  unfold access at h
  extract_lets sec c d at h
  split at h
  · cases h
  · cases h
  · rw [eccRead_clean hclean] at h
    split_ifs at h <;> cases h
    · exact hmem _ (healed_served hclean _ sec) d 1
    · exact hmem _ (.refl s) d 1
    · exact hmem _ (.refl s) d 0
  · have hwrite : Served s { s with farPoison := s.farPoison.filter (· != sec) } := ⟨fun _ _ => rfl, rfl⟩
    split_ifs at h <;> cases h
    · exact hio _ hwrite _
    · exact hio _ (.refl s) _
  · split_ifs at h <;> cases h
    · exact hio _ (.refl s) _
    · exact hio _ (.refl s) _
  · split at h
    · cases h
    · split_ifs at h <;> cases h
      exact .refl _

section
variable {who : Nat} {cmd : Option CmdId}

theorem touchFrom_served {write : Bool} {fuel : Nat} {s t : State} {a n : Nat} (hclean : s.symErr = [])
    (h : touchFrom s who write cmd fuel a n = (t, .ok ())) : Served s t := by
  induction fuel generalizing s a n with
  | zero => cases h; exact .refl _
  | succ fuel ih =>
    rw [touchFrom] at h
    split at h
    · cases h; exact .refl _
    · dsimp only at h
      split at h
      · next u _ heq =>
        have hu := access_served hclean heq
        exact hu.trans (ih (hu.symErr.trans hclean) h)
      · next hne => exact absurd h (hne t ())

theorem touchRanges_served {write : Bool} {rs : List (Nat × Nat)} {s t : State} (hclean : s.symErr = [])
    (h : touchRanges s who write cmd rs = (t, .ok ())) : Served s t := by
  induction rs generalizing s with
  | nil => cases h; exact .refl _
  | cons r rs ih =>
    obtain ⟨a, n⟩ := r
    rw [touchRanges] at h
    split at h
    · next u _ heq =>
      have hu := touchFrom_served hclean heq
      exact hu.trans (ih (hu.symErr.trans hclean) h)
    · next hne => exact absurd h (hne t ())

end

/-! ### What a request looks at -/

/-- State t is s but for the windows, the collectives and the free choices, at which no request looks. -/
def Alike (s t : State) : Prop := ∃ d cs es n, t = { s with disps := d, colls := cs, collEnded := es, free := n }

/-- A request that is served in one state is served in the other, and leaves them alike. -/
def Carries {α : Type} (p q : State × Req α) : Prop := ∀ s' x, p = (s', .ok x) → ∃ t', q = (t', .ok x) ∧ Alike s' t'

namespace Carries
variable {α : Type} {p q p' q' : State × Req α}

theorem ok {s t : State} (k : Alike s t) (x : α) : Carries (s, .ok x) (t, .ok x) := by
  intro s' y he
  cases he
  exact ⟨t, rfl, k⟩

theorem ite {a b : Prop} [Decidable a] [Decidable b] (hab : a = b) (h : Carries p q) (h' : Carries p' q') :
    Carries (if a then p else p') (if b then q else q') := by
  subst hab
  by_cases ha : a
  · rwa [if_pos ha, if_pos ha]
  · rwa [if_neg ha, if_neg ha]

theorem fail {s : State} (c : Nat) (q : State × Req α) : Carries (s, .fail c) q := by
  intro _ _ he
  cases he

theorem wait {s : State} (q : State × Req α) : Carries (s, .wait) q := by
  intro _ _ he
  cases he

end Carries

theorem access_carries {s t : State} (hclean : s.symErr = []) (who a n : Nat) (write : Bool) (cmd cmd' : Option CmdId) (k : Alike s t) :
    Carries (access s who a n write cmd) (access t who a n write cmd') := by
  obtain ⟨d, cs, es, m, rfl⟩ := k
  have hecc := eccRead_clean (s := { s with disps := d, colls := cs, collEnded := es, free := m }) hclean
  have hreg : regionOf { s with disps := d, colls := cs, collEnded := es, free := m } a = regionOf s a := rfl
  unfold access
  simp only [hreg, hecc, eccRead_clean hclean]
  have hbank : bankOf { s with disps := d, colls := cs, collEnded := es, free := m } a = bankOf s a := rfl
  have kk (u : State) : Alike u { u with disps := d, colls := cs, collEnded := es, free := m } := ⟨d, cs, es, m, rfl⟩
  rcases regionOf s a with _ | _ | k | p | _ | _ | _ <;> simp only [hbank]
  · exact .fail _ _
  · exact .ite rfl (.wait _) (.ite rfl (.fail _ _) (.ite rfl (.wait _) (.ite rfl (.fail _ _)
      (.ite rfl (.ok (kk _) ()) (.ite rfl (.fail _ _) (.ok (kk _) ()))))))
  · exact .ite rfl (.ite rfl (.wait _) (.fail _ _)) (.ite rfl (.wait _) (.ite rfl (.fail _ _) (by cases write <;> exact .ok (kk _) ())))
  · exact .ite rfl (.wait _) (.ite rfl (.fail _ _) (.ite rfl (.fail _ _) (.ite rfl (.fail _ _) (.ite rfl (.fail _ _) (.ok (kk _) ())))))
  · rcases bankOf s a with _ | ⟨b, p, _⟩
    · exact .fail _ _
    · exact .ite rfl (.fail _ _) (.ite rfl (.wait _) (.ite rfl (.wait _) (.ok (kk _) ())))
  · rcases bankOf s a with _ | ⟨b, p, _⟩
    · exact .fail _ _
    · exact .ite rfl (.fail _ _) (.ite rfl (.wait _) (.ite rfl (.wait _) (.ok (kk _) ())))
  · exact .fail _ _

theorem touchFrom_carries {who : Nat} {write : Bool} {cmd : Option CmdId} (cmd' : Option CmdId) {fuel : Nat} {s t : State} {a n : Nat}
    (hclean : s.symErr = []) (k : Alike s t) : Carries (touchFrom s who write cmd fuel a n) (touchFrom t who write cmd' fuel a n) := by
  induction fuel generalizing s t a n with
  | zero => exact .ok k ()
  | succ fuel ih =>
    by_cases hn : n = 0
    · simp only [touchFrom, hn, if_true]
      exact .ok k ()
    · intro s' x h
      simp only [touchFrom, hn, if_false] at h ⊢
      split at h
      · next u _ heq =>
        obtain ⟨v, hv, kv⟩ := access_carries hclean who a _ write cmd cmd' k _ _ heq
        rw [hv]
        exact ih ((access_served hclean heq).symErr.trans hclean) kv _ _ h
      · next hne => exact absurd h (hne s' ())

theorem touchRanges_carries {who : Nat} {write : Bool} {cmd : Option CmdId} (cmd' : Option CmdId) {rs : List (Nat × Nat)} {s t : State}
    (hclean : s.symErr = []) (k : Alike s t) : Carries (touchRanges s who write cmd rs) (touchRanges t who write cmd' rs) := by
  induction rs generalizing s t with
  | nil => exact .ok k ()
  | cons r rs ih =>
    obtain ⟨a, n⟩ := r
    intro s' x h
    rw [touchRanges] at h ⊢
    split at h
    · next u _ heq =>
      obtain ⟨v, hv, kv⟩ := touchFrom_carries cmd' hclean k _ _ heq
      rw [hv]
      exact ih ((touchFrom_served hclean heq).symErr.trans hclean) kv _ _ h
    · next hne => exact absurd h (hne s' ())

/-! ### A write without a hole is a touch -/

/-- A hole makes the list of holes longer, so without one each sector is served. -/
theorem holesFrom_iff_touchFrom {who : Nat} {cmd : Option CmdId} {fuel : Nat} {s t : State} {a n : Nat} :
    holesFrom s who cmd fuel a n = (t, .ok []) ↔ touchFrom s who true cmd fuel a n = (t, .ok ()) := by
  induction fuel generalizing s a n with
  | zero => simp [holesFrom, touchFrom]
  | succ fuel ih =>
    by_cases hn : n = 0
    · simp [holesFrom, touchFrom, hn]
    · simp only [holesFrom, touchFrom, hn, if_false]
      rcases access s who a (min n (64 - a % 64)) true cmd with ⟨u, _ | _ | _⟩
      all_goals simp only [← ih]
      all_goals rcases holesFrom u who cmd fuel (a + min n (64 - a % 64)) (n - min n (64 - a % 64)) with ⟨v, _ | _ | _⟩
      all_goals simp

theorem touchWrites_iff_touchRanges {who : Nat} {cmd : Option CmdId} {rs : List (Nat × Nat)} {s t : State} :
    touchWrites s who cmd rs = (t, .ok []) ↔ touchRanges s who true cmd rs = (t, .ok ()) := by
  induction rs generalizing s with
  | nil => simp [touchWrites, touchRanges]
  | cons r rs ih =>
    obtain ⟨a, n⟩ := r
    rw [touchWrites, touchRanges]
    constructor
    · intro h
      split at h
      · next u xs heq =>
        split at h
        · next v ys hrest =>
          obtain ⟨rfl, hnil⟩ : v = t ∧ xs ++ ys = [] := by simpa using h
          obtain ⟨rfl, rfl⟩ := List.append_eq_nil_iff.1 hnil
          rw [holesFrom_iff_touchFrom.1 heq]
          exact ih.1 hrest
        · next hne => exact absurd h (hne t [])
      · next hne => exact absurd h (hne t [])
    · intro h
      split at h
      · next u _ heq =>
        rw [holesFrom_iff_touchFrom.2 heq]
        simp only [ih.2 h, List.append_nil]
      · next hne => exact absurd h (hne t ())

theorem writeRanges_iff_touchRanges {s t : State} {h : Nat} {c : Cmd} {rs : List (Nat × Nat)} :
    writeRanges s h c rs = (t, .ok []) ↔ touchRanges s (idDisp h) true (some (cmdId s h c)) rs = (t, .ok ()) := by
  rw [← touchWrites_iff_touchRanges, writeRanges]
  split
  · next heq => simp [heq]
  · exact Iff.rfl

theorem writeRanges_served {s t : State} (hclean : s.symErr = []) {h : Nat} {c : Cmd} {rs : List (Nat × Nat)}
    (hok : writeRanges s h c rs = (t, .ok [])) : Served s t :=
  touchRanges_served hclean (writeRanges_iff_touchRanges.1 hok)

/-- A write without a hole has none where only windows, collectives and free choices differ. -/
theorem writeRanges_alike {s t s' : State} (hclean : s.symErr = []) (k : Alike s t) {h : Nat} {c : Cmd} (c' : Cmd) {rs : List (Nat × Nat)}
    (hok : writeRanges s h c rs = (s', .ok [])) : ∃ t', writeRanges t h c' rs = (t', .ok []) ∧ Alike s' t' := by
  obtain ⟨t', ht, kt⟩ := touchRanges_carries (some (cmdId t h c')) hclean k _ _ (writeRanges_iff_touchRanges.1 hok)
  exact ⟨t', writeRanges_iff_touchRanges.2 ht, kt⟩

/-! ### Elements placed in states that are alike -/

namespace Alike
variable {s t : State}

theorem mem (k : Alike s t) : t.mem = s.mem := by obtain ⟨_, _, _, _, rfl⟩ := k; rfl
theorem symErr (k : Alike s t) : t.symErr = s.symErr := by obtain ⟨_, _, _, _, rfl⟩ := k; rfl

theorem setRaw (k : Alike s t) (d : Desc) (f : Fmt) (ix : List Nat) (v : Nat) : Alike (d.setRaw s f ix v) (d.setRaw t f ix v) := by
  obtain ⟨w, cs, es, n, rfl⟩ := k
  unfold Desc.setRaw
  dsimp only
  split
  · exact ⟨w, cs, es, n, rfl⟩
  · exact ⟨w, cs, es, n, rfl⟩

theorem each {α : Type} {f g : State → α → State} {xs : List α} (hfg : ∀ s t, ∀ x ∈ xs, Alike s t → Alike (f s x) (g t x))
    (k : Alike s t) : Alike (Machine.each xs s f) (Machine.each xs t g) := by
  induction xs generalizing s t with
  | nil => exact k
  | cons x xs ih => exact ih (fun s t y hy => hfg s t y (List.mem_cons_of_mem x hy)) (hfg s t x List.mem_cons_self k)

theorem placeBytes (k : Alike s t) (d : Desc) (ixs : List (List Nat)) (b : Bytes) : Alike (placeBytes s d ixs b) (placeBytes t d ixs b) := by
  unfold Machine.placeBytes
  split
  · exact k
  · next f _ =>
    have hplaced : Alike (Machine.each (ixs.zip (List.range ixs.length)) s fun s p => d.setRaw s f p.1 (packedGet f.bits b p.2))
        (Machine.each (ixs.zip (List.range ixs.length)) t fun s p => d.setRaw s f p.1 (packedGet f.bits b p.2)) :=
      k.each fun _ _ p _ k => k.setRaw d f p.1 _
    dsimp only
    split
    · refine hplaced.each fun s t p _ k => ?_
      obtain ⟨w, cs, es, n, rfl⟩ := k
      exact ⟨w, cs, es, n, rfl⟩
    · exact hplaced

/-- Values that agree on the tensor's indices are stored alike, where no element shares its block's scale. -/
theorem storeTensor (k : Alike s t) {d : Desc} {m : StoreMode} {v v' : List Nat → FVal} (hplain : ∀ f, d.format = some f → f.isDq = false)
    (hv : ∀ ix ∈ d.indices, v' ix = v ix) : Alike (storeTensor s d m v).1 (storeTensor t d m v').1 := by
  unfold Machine.storeTensor
  split
  · exact k
  · next f hf =>
    rw [hplain f hf]
    simp only [Bool.false_eq_true, if_false]
    split
    · exact k
    · rw [foldl_pair_fst (fun s ix => d.setRaw s f ix (storeElem f m (d.linear ix) (v ix)).1),
        foldl_pair_fst (fun s ix => d.setRaw s f ix (storeElem f m (d.linear ix) (v' ix)).1)]
      exact k.each fun _ _ ix hix k => by rw [hv ix hix]; exact k.setRaw d f ix _

end Alike

/-! ### References where memory and the registers that map it stand -/

theorem regionOf_far_lt {s : State} {a n : Nat} (h : regionOf s a = some (.far n)) : n < 4 := by
  unfold regionOf at h
  split at h
  · cases h
  · split at h
    · next hfar =>
      dsimp only at h
      split at h
      · obtain rfl : a / 0x010000000000 - 1 = n := by simpa using h
        omega
      · cases h
    · dsimp only at h
      split_ifs at h <;> cases h

/-- Memory, the tickets, the EVAL holds, and all registers but counters and the Ember rings' stand as they did. -/
structure Sees (s t : State) : Prop where
  regs : ∀ o, o < 0x420000 → regVal t o = regVal s o
  mem : t.mem = s.mem
  tickets : t.tickets = s.tickets
  evalHolds : t.evalHolds = s.evalHolds

theorem Served.sees {s t : State} (k : Served s t) : Sees s t := ⟨k.regs, k.mem, k.tickets, k.evalHolds⟩

theorem Alike.sees {s t : State} (k : Alike s t) : Sees s t := by
  obtain ⟨_, _, _, _, rfl⟩ := k
  exact ⟨fun _ _ => rfl, rfl, rfl, rfl⟩

namespace Sees
variable {s t : State}

theorem trans {u : State} (a : Sees s t) (b : Sees t u) : Sees s u :=
  ⟨fun o ho => (b.regs o ho).trans (a.regs o ho), b.mem.trans a.mem, b.tickets.trans a.tickets, b.evalHolds.trans a.evalHolds⟩

theorem rd_eq (k : Sees s t) {f : Fld} (hf : f.off < 0x420000) : rd t f = rd s f := by rw [rd, k.regs _ hf, rd]

variable (k : Sees s t)
include k

theorem farSize_eq (n : Nat) (hn : n < 4) : farSize t n = farSize s n := by
  rw [farSize, farSize, k.rd_eq (by simp only [F.CXL_ID_CAP_256M]; omega)]

theorem regionOf_eq (a : Nat) : regionOf t a = regionOf s a := by
  unfold regionOf
  split
  · rfl
  · split
    · next hfar => dsimp only; rw [k.farSize_eq _ (by omega)]
    · rfl

theorem range_eq {a : Nat} {r : Region} (hreg : regionOf s a = some r) : r.range t = r.range s := by
  cases r with
  | far n =>
    rw [Region.range, Region.range, k.farSize_eq n (regionOf_far_lt hreg)]
  | _ => rfl

theorem plainAddr_eq (a : Nat) : plainAddr t a = plainAddr s a := by rw [plainAddr, plainAddr, bankOf, bankOf, k.regionOf_eq]

theorem peekBytes_eq (a n : Nat) : peekBytes t a n = peekBytes s a n := by rw [peekBytes, peekBytes, k.mem]

theorem peekNat_eq (a n : Nat) : peekNat t a n = peekNat s a n := by rw [peekNat, peekNat, k.peekBytes_eq]

theorem inOneRegion_eq (a n : Nat) : inOneRegion t a n = inOneRegion s a n := by
  unfold inOneRegion
  rw [k.regionOf_eq]
  rcases hreg : regionOf s a with _ | r
  · rfl
  · simp only [k.range_eq hreg]

theorem scaleRecBad_eq (ptr fmt : Nat) : scaleRecBad t ptr fmt = scaleRecBad s ptr fmt := by
  unfold scaleRecBad
  rw [k.peekBytes_eq, k.regionOf_eq]
  simp only [k.inOneRegion_eq]

theorem checkDesc_eq (b : Bytes) (slice : Nat) : checkDesc t b slice = checkDesc s b slice := by
  unfold checkDesc
  simp only [k.inOneRegion_eq, k.scaleRecBad_eq]

theorem viewOf_eq (a : Nat) : viewOf t a = viewOf s a := by
  have hrecord : pdirRecord t = pdirRecord s := by
    funext i
    rw [pdirRecord, pdirRecord, k.rd_eq (by decide), k.peekNat_eq]
  have hcount : pdirCount t = pdirCount s := k.rd_eq (by decide)
  rw [viewOf, viewOf, pdirRecords, pdirRecords, hcount, hrecord]

theorem findTicket_eq (key : Nat) : findTicket t key = findTicket s key := by rw [findTicket, findTicket, k.tickets]

theorem cmdStepIndex_eq (c : Cmd) : cmdStepIndex t c = cmdStepIndex s c := by rw [cmdStepIndex, cmdStepIndex, k.findTicket_eq]

theorem cmdRnd_eq (c : Cmd) : cmdRnd t c = cmdRnd s c := by
  funext i
  rw [cmdRnd, cmdRnd, cmdSrSeed, cmdSrSeed, k.findTicket_eq]

theorem recPend_eq (r : Nat) : recPend t r = recPend s r := k.peekNat_eq _ _

theorem recSstep_eq (r slot : Nat) : recSstep t r slot = recSstep s r slot := k.peekNat_eq _ _

theorem descAddr_eq (c : Cmd) (r : Nat × Nat × Nat) : descAddr t c r = descAddr s c r := by
  have hview (a : Nat) : programDesc t c a = programDesc s c a := by
    unfold programDesc viewDesc viewSlot
    rw [k.viewOf_eq]
    simp only [k.peekNat_eq, k.evalHolds]
  unfold descAddr
  rw [k.findTicket_eq]
  simp only [hview]

/-- A reference gives the command the tensor that it gave. -/
theorem opnd_eq (c : Cmd) (off slice : Nat) (required : Bool) : c.opnd t off slice required = c.opnd s off slice required := by
  have hlook (r : Nat × Nat × Nat) (handle : Bool) : Cmd.opnd.look t c r handle = Cmd.opnd.look s c r handle := by
    unfold Cmd.opnd.look viewDesc
    simp only [k.peekBytes_eq, k.peekNat_eq, k.plainAddr_eq, k.descAddr_eq, k.checkDesc_eq, k.viewOf_eq]
  unfold Cmd.opnd
  simp only [hlook, k.findTicket_eq]

end Sees

end Sys2Proof.Machine
end

section
/-! SUPPORT. A collective that is the only one of its module, and its end (R290, R292). -/

namespace Sys2Proof.Machine

/-! ### What leaves the collectives and their segments alone -/

/-- The collectives, the streams and the digest log's length stand as they did. -/
structure CollsKept (s t : State) : Prop where
  colls : t.colls = s.colls
  txs : t.txs = s.txs
  rxs : t.rxs = s.rxs
  log : rd t F.STI_DLOG_ENTRIES = rd s F.STI_DLOG_ENTRIES

namespace CollsKept
variable {s t : State}

theorem refl (s : State) : CollsKept s s := ⟨rfl, rfl, rfl, rfl⟩

theorem trans {u : State} (a : CollsKept s t) (b : CollsKept t u) : CollsKept s u :=
  ⟨b.colls.trans a.colls, b.txs.trans a.txs, b.rxs.trans a.rxs, b.log.trans a.log⟩

theorem wr (s : State) {f : Fld} (hf : f.off ≠ 0x170008) (v : Nat) : CollsKept s (Machine.wr s f v) := ⟨rfl, rfl, rfl, rd_wr_off s v hf⟩

theorem each {α : Type} {f : State → α → State} (hf : ∀ s x, CollsKept s (f s x)) (xs : List α) (s : State) :
    CollsKept s (Machine.each xs s f) := by
  induction xs generalizing s with
  | nil => exact .refl s
  | cons x xs ih => exact (hf s x).trans (ih _)

theorem emberCode (s : State) (u code : Nat) (c : Option CmdId) : CollsKept s (emberCode s u code c) := by
  have hlog := rd_emberCode s u code c (g := F.STI_DLOG_ENTRIES) (by decide)
  rw [emberCode_frame] at hlog ⊢
  exact ⟨rfl, rfl, rfl, hlog⟩

theorem noteOnce (s : State) (h : Nat) (c : Cmd) (unit : Nat) (codes : List (Nat × Nat)) (stat : Nat) :
    CollsKept s (noteOnce s h c unit codes stat) := by
  unfold Machine.noteOnce
  extract_lets had u
  have hu : CollsKept s u := by
    refine .each (fun s p => ?_) codes s
    split
    · exact .emberCode ..
    · exact .refl s
  exact hu.trans ⟨rfl, rfl, rfl, rfl⟩

theorem reportStore (s : State) (h : Nat) (c : Cmd) (unit : Nat) {d : Desc} (hscale : d.scalePtr = 0) (r : Report) :
    CollsKept s (reportStore s h c unit d r) := by
  have hflags : CollsKept s (ticketFlags s c.ticket (r.stat % 8)) := ⟨rfl, rfl, rfl, rfl⟩
  rw [Machine.reportStore, reportTo, if_pos hscale, noteStat, notices]
  exact ((hflags.trans (.noteOnce ..)).trans (.noteOnce ..)).trans (.wr _ (by simp only [F.CNT_HEARTH_VALUE]; omega) _)

theorem unitAt (s : State) (unit : Nat → Nat) (rs : List (Nat × Nat)) : CollsKept s (unitAt s unit rs).2 := by
  rw [unitAt_frame]
  exact ⟨rfl, rfl, rfl, rfl⟩

theorem setRaw (s : State) (d : Desc) (f : Fmt) (ix : List Nat) (v : Nat) : CollsKept s (d.setRaw s f ix v) := by
  unfold Desc.setRaw
  dsimp only
  split <;> exact ⟨rfl, rfl, rfl, rfl⟩

theorem poke (s : State) (a : Nat) (b : Bytes) : CollsKept s (poke s a b) := ⟨rfl, rfl, rfl, rfl⟩

theorem placeBytes (s : State) (d : Desc) (ixs : List (List Nat)) (b : Bytes) : CollsKept s (placeBytes s d ixs b) := by
  unfold Machine.placeBytes
  split
  · exact .refl s
  · next f _ =>
    have hplaced : CollsKept s (Machine.each (ixs.zip (List.range ixs.length)) s fun s p => d.setRaw s f p.1 (packedGet f.bits b p.2)) := by
      refine .each ?_ _ s
      intro s p
      exact setRaw s d f p.1 _
    dsimp only
    split
    · exact hplaced.trans (.each (fun s p => poke s _ _) _ _)
    · exact hplaced

/-- A store whose elements share no scale. -/
theorem storeTensor (s : State) {d : Desc} (m : StoreMode) (v : List Nat → FVal) (hplain : ∀ f, d.format = some f → f.isDq = false) :
    CollsKept s (storeTensor s d m v).1 := by
  unfold Machine.storeTensor
  split
  · exact .refl s
  · next f hf =>
    rw [hplain f hf]
    simp only [Bool.false_eq_true, if_false]
    split
    · exact .refl s
    · rw [foldl_pair_fst (fun s ix => d.setRaw s f ix (storeElem f m (d.linear ix) (v ix)).1)]
      exact .each (fun s ix => setRaw s d f ix _) _ s

end CollsKept

theorem Served.collsKept {s t : State} (k : Served s t) : CollsKept s t := ⟨k.colls, k.txs, k.rxs, k.rd_eq (by decide)⟩

/-! ### The only collective of a module -/

/-- Collective x is the only one; no stream goes out, the segments that came are its own, and digests are not logged. -/
structure Alone (x : Coll) (s : State) : Prop where
  colls : s.colls = [x]
  txs : s.txs = []
  rxs : ∀ r ∈ s.rxs, r.key = (x.id, x.step)
  noLog : rd s F.STI_DLOG_ENTRIES = 0

theorem Alone.kept {x : Coll} {s t : State} (a : Alone x s) (k : CollsKept s t) : Alone x t :=
  ⟨k.colls.trans a.colls, k.txs.trans a.txs, k.rxs ▸ a.rxs, k.log.trans a.noLog⟩

theorem Alone.setColl {x : Coll} {s : State} (a : Alone x s) {y : Coll} (hid : y.id = x.id) (hstep : y.step = x.step) : Alone y (setColl s y) where
  colls := by simp [Machine.setColl, a.colls, hid, hstep]
  txs := a.txs
  rxs := hid ▸ hstep ▸ a.rxs
  noLog := a.noLog

/-- The command that begins it is working, and every mark of an ended collective of that name is gone. -/
def started (s : State) (h : Nat) (c : Cmd) (x : Coll) : State :=
  { updCmd s h c.seq (fun y => { y with st := .working }) with colls := [x], collEnded := [] }

section
variable {s : State} {h : Nat} {c : Cmd} {x : Coll}

theorem startColl_first (hcolls : s.colls = []) (hended : s.collEnded = []) : startColl s h c x = started s h c x := by
  have hcolls' : (updCmd s h c.seq fun y => { y with st := .working }).colls = [] := hcolls
  have hended' : (updCmd s h c.seq fun y => { y with st := .working }).collEnded = [] := hended
  simp [startColl, hcolls, idReused, hended, hcolls', hended', started]

theorem started_alike (s : State) (h : Nat) (c : Cmd) (x : Coll) : Alike s (started s h c x) := ⟨_, [x], [], s.free, rfl⟩

theorem started_findCmd (hc : findCmd s h c.seq = some c) : findCmd (started s h c x) h c.seq = some { c with st := .working } :=
  (findCmd_of_disps (s := updCmd s h c.seq fun y => { y with st := .working }) rfl h c.seq).trans
    (findCmd_updCmd_same (by exact fun _ => rfl) hc)

theorem started_alone (htxs : s.txs = []) (hrxs : ∀ r ∈ s.rxs, r.key = (x.id, x.step)) (hlog : rd s F.STI_DLOG_ENTRIES = 0) :
    Alone x (started s h c x) := ⟨rfl, htxs, hrxs, hlog⟩

/-- The only collective goes on, and the registers follow. -/
theorem collAll_alone (a : Alone x s) (hrxs : (collGo s x).rxs = []) : collAll s = syncStitch (collGo s x) := by
  have hship : shipDone s x = (s, x) := by
    have hmap : (s.colls.map fun y => if y.id = x.id ∧ y.step = x.step then x else y) = s.colls := by simp [a.colls]
    have hset : setColl { s with txs := [] } x = s := by
      rw [setColl, hmap, ← a.txs]
    simp [shipDone, a.txs, hset]
  have hdead : dropDead (collGo s x) = collGo s x := by
    unfold dropDead
    simp only [hrxs, List.filter_nil, each, List.foldl_nil]
    rw [← hrxs]
  rw [collAll, a.colls, each, List.foldl_cons, List.foldl_nil, a.colls]
  simp only [List.find?_cons, BEq.rfl, Bool.and_self, hship, hdead]

end

/-! ### Its end -/

/-- The command y has ended with the module's only collective, and memory is m. -/
structure CollOver (m : Memory) (h : Nat) (y : Cmd) (t : State) : Prop where
  found : findCmd t h y.seq = some y
  mem : t.mem = m
  colls : t.colls = []
  rxs : t.rxs = []

theorem syncStitch_collOver {m : Memory} {h : Nat} {y : Cmd} {s : State} (k : CollOver m h y s) : CollOver m h y (syncStitch s) := by
  rw [syncStitch_frame]
  exact ⟨k.found, k.mem, k.colls, k.rxs⟩

/-- With no digest log the digests go to the registers alone (R292). -/
theorem logDigests_unlogged {s : State} (hlog : rd s F.STI_DLOG_ENTRIES = 0) (x : Coll) :
    ∃ rs, logDigests s x = { s with regs := rs, collCount := s.collCount + 1 } := by
  unfold logDigests
  extract_lets u v n entry a w
  have hn : n = 0 := by
    rw [← hlog]
    simp only [n, v, u]
    rw [rd_wr_off _ _ (by decide), rd_wr_off _ _ (by decide), rd_wr_off _ _ (by decide), rd_wr_off _ _ (by decide)]
  have hw : w = v := if_pos hn
  rw [hw]
  exact ⟨v.regs, rfl⟩

/-- A collective of one part whose command is found ends with it. -/
theorem finishCmds_over {s : State} {x : Coll} {h part : Nat} {y : Cmd} (a : Alone x s) (hcmds : x.cmds = [(h, y.seq, part)]) (hparts : x.parts = 1)
    (hy : findCmd s h y.seq = some y) {p : Nat × Nat → Bool} (hp : p (h, y.seq) = true) :
    CollOver s.mem h { y with st := .done } (finishCmds s x p) := by
  have hdone : findCmd (cmdDone s h y) h y.seq = some { y with st := .done } := findCmd_updCmd_same (by exact fun _ => rfl) hy
  unfold finishCmds
  extract_lets u past x' v w
  have hu : u = cmdDone s h y := by simp [u, hcmds, hp, each, hy]
  have hend : x.cmds.length = x.parts ∧ x.cmds.all past = true := by
    simp [hcmds, hparts, past, hu, hdone]
  rw [if_pos hend]
  have hlog : rd u F.STI_DLOG_ENTRIES = 0 := by rw [hu]; exact a.noLog
  obtain ⟨rs, hv⟩ := logDigests_unlogged hlog x'
  have hv' : v = { u with regs := rs, collCount := u.collCount + 1 } := hv
  have hx' : x'.id = x.id ∧ x'.step = x.step := ⟨rfl, rfl⟩
  clear_value u x' v
  subst hu hv'
  refine ⟨hdone, rfl, ?_, ?_⟩
  · have hcolls : (cmdDone s h y).colls = [x] := a.colls
    simp [endColl, w, hcolls, hx']
  · have hrxs : ∀ r ∈ (cmdDone s h y).rxs, r.key = (x.id, x.step) := a.rxs
    simpa [endColl, w, hx'] using hrxs

end Sys2Proof.Machine
end

section
/-! SUPPORT. GATHER on the module alone (R306 to R308). -/

namespace Sys2Proof.Machine

/-! ### Fields of a segment's descriptor (Table 15-3) -/

theorem field_append_right {a b : Bytes} {off n : Nat} (h : a.length ≤ off) : field (a ++ b) off n = field b (off - a.length) n := by
  rw [field, List.drop_append, List.drop_eq_nil_of_le h, List.nil_append, field]

theorem field_append_left {a b : Bytes} {n : Nat} (h : a.length = n) : field (a ++ b) 0 n = leNat a := by
  rw [field, List.drop_zero, List.take_append_of_le_length (by omega), List.take_of_length_le (by omega)]

section
variable (kind id step form order parts part fmt hop first count stride shard elems bytes record : Nat)

theorem segDesc_id :
    field (segDesc kind id step form order parts part fmt hop first count stride shard elems bytes record) 0 4 = id % 2 ^ 32 := by
  simp only [segDesc, List.append_assoc]
  rw [field_append_left (leBytes_length ..), leNat_leBytes]

theorem segDesc_step :
    field (segDesc kind id step form order parts part fmt hop first count stride shard elems bytes record) 4 4 = step % 2 ^ 32 := by
  simp only [segDesc, List.append_assoc]
  rw [field_append_right (by simp), leBytes_length, field_append_left (leBytes_length ..), leNat_leBytes]

theorem segDesc_kind :
    field (segDesc kind id step form order parts part fmt hop first count stride shard elems bytes record) 8 1 = kind % 2 ^ 8 := by
  simp only [segDesc, List.append_assoc]
  rw [field_append_right (by simp), leBytes_length, field_append_right (by simp), leBytes_length, field_append_left (leBytes_length ..),
    leNat_leBytes]

theorem segDesc_bytes :
    field (segDesc kind id step form order parts part fmt hop first count stride shard elems bytes record) 0x20 8 = bytes % 2 ^ 64 := by
  have hhead : (leBytes 4 id ++ leBytes 4 step ++ leBytes 1 kind ++ leBytes 1 form ++ leBytes 1 order ++ leBytes 1 parts ++ leBytes 1 part ++
      leBytes 1 fmt ++ leBytes 2 hop ++ leBytes 2 first ++ leBytes 2 count ++ leBytes 2 stride ++ leBytes 2 shard ++
      leBytes 8 elems).length = 0x20 := by simp
  rw [segDesc, List.append_assoc, List.append_assoc, field_append_right hhead.le, hhead, field_append_left (leBytes_length ..), leNat_leBytes]

end

/-! ### The two kinds of GATHER -/

/-- The gather of a record's updated slot that a command begins (R306, R307). -/
def paramGather (s : State) (h : Fin 16) (c : Cmd) : Coll :=
  let r := gaRecord c
  { kind := 3, id := c.fld 0x1C 4, step := cmdStepIndex s c, ticket := c.ticket, cmds := [(h.val, c.seq, 0)], form := 0, ring := recRing s r,
    parts := 1, first := recFirst s r, count := recCount s r, stride := recStride s r,
    pos := (positionIn s (recFirst s r) (recCount s r) (recStride s r)).getD 0, root := recOther s r, record := r, fmt := 0x11, elems := 0,
    check := bit (c.fld 0x19 1) 0, own := [], sent := 0, recv := 0, chk := 0, chkVals := [], written := false, no := c.step, shipped := [] }

/-- The transfer from or to a peer that a command begins (R308). -/
def peerTransfer (s : State) (h : Fin 16) (c : Cmd) (own : List (Nat × Nat × List Nat)) : Coll :=
  let d := (gaRef s c).desc
  { paramGather s h c with
    kind := 4, form := gaForm c, ring := false, first := gaPeer c, count := 2, stride := 1, pos := gaForm c - 1, record := 0, fmt := d.fmt,
    elems := d.count, root := d.wireSize, own := own }

/-- Choosing a unit takes at most a free choice. -/
theorem unitAt_free (s : State) (unit : Nat → Nat) (rs : List (Nat × Nat)) : ∃ n m, unitAt s unit rs = (n, { s with free := m }) :=
  ⟨_, _, Prod.ext rfl (unitAt_frame s unit rs)⟩

theorem unitAt_alike (s : State) (unit : Nat → Nat) (rs : List (Nat × Nat)) : Alike s (unitAt s unit rs).2 := by
  obtain ⟨n, m, hun⟩ := unitAt_free s unit rs
  rw [hun]
  exact ⟨s.disps, s.colls, s.collEnded, m, rfl⟩

section
variable {h : Fin 16} {seq : BitVec 32} {c : Cmd} {s u w : State} (hr : Runs h seq 0x3A c s)

include hr

/-- A gather of a record goes on from the request for the record's state. -/
theorem gather_param (hform : gaForm c = 0)
    (hdies : dieTakes s ((gaRecord c, 768) :: copyRanges s (gaRecord c) (recOther s (gaRecord c)) (paramGather s h c).pos) = true)
    (htouch : touchRanges (unitAt s U.stitch [(gaRecord c, 768)]).2 (idDisp h) false (some (cmdId s h c)) [(gaRecord c + 0x70, 40)] = (u, .ok ())) :
    exec (.gather h seq) s = .next (
      if recPend u (gaRecord c) ≠ 1 ∨ recSstep u (gaRecord c) (recOther s (gaRecord c)) ≠ cmdStepIndex u c then
        failRunning u h c (unitAt s U.stitch [(gaRecord c, 768)]).1 Code.PARAM_STATE
      else orFail h c (unitAt s U.stitch [(gaRecord c, 768)]).1
        (touchRanges u (idDisp h) false (some (cmdId s h c)) (copyRanges s (gaRecord c) (recOther s (gaRecord c)) (paramGather s h c).pos))
        fun v _ => collAll (startColl v h c (paramGather s h c))) := by
  have hexec : exec (.gather h seq) s = execGather h seq s := rfl
  obtain ⟨n, m, hun⟩ := unitAt_free s U.stitch [(gaRecord c, 768)]
  rw [hexec, execGather, opRow_runs hr]
  congr 1
  rw [hun] at htouch ⊢
  simp only [hform, if_true, hun]
  have hdies' : dieTakes { s with free := m } ((gaRecord c, 768) :: copyRanges { s with free := m } (gaRecord c) (recOther s (gaRecord c))
    ((positionIn s (recFirst s (gaRecord c)) (recCount s (gaRecord c)) (recStride s (gaRecord c))).getD 0)) = true := hdies
  rw [hdies', htouch]
  rfl


/-- A transfer to or from a peer that asks for no bytes begins and goes on at once. -/
theorem gather_transfer_empty (hform : gaForm c = 1 ∨ gaForm c = 2) (hrank : (gaRef s c).desc.rank = 0) :
    ∃ m own, exec (.gather h seq) s = .next (collAll (startColl { s with free := m } h c (peerTransfer s h c own))) := by
  have hexec : exec (.gather h seq) s = execGather h seq s := rfl
  have hcount : (gaRef s c).desc.count = 0 := if_pos hrank
  have hranges : (gaRef s c).desc.ranges = [] := if_pos hcount
  obtain ⟨n, m, hun⟩ := unitAt_free s U.stitch []
  have hform0 : gaForm c ≠ 0 := by omega
  have hdies : dieTakes { s with free := m } [] = true := by simp [dieTakes, diesOf]
  rw [hexec, execGather, opRow_runs hr]
  simp only [hform0, if_false, hranges, hun, hdies, Bool.not_true, Bool.false_eq_true]
  rcases hform with hform | hform
  · have hread : readTensors { s with free := m } h c [(gaRef s c).desc] = ({ s with free := m }, .ok ()) := by
      simp [readTensors, hranges, recRanges, hcount, touchRanges]
    rw [if_pos hform, hread]
    exact ⟨m, [(0, 0, (wireBytes { s with free := m } (gaRef s c).desc (gaRef s c).desc.indices).map BitVec.toNat)], rfl⟩
  · rw [if_neg (by omega)]
    exact ⟨m, [], rfl⟩

/-- A transfer from a peer begins and goes on where the memory dies that it needs run. -/
theorem gather_receives (hform : gaForm c = 2) (hdies : dieTakes s (gaRef s c).desc.ranges = true) :
    exec (.gather h seq) s = .next (collAll (startColl (unitAt s U.stitch (gaRef s c).desc.ranges).2 h c (peerTransfer s h c []))) := by
  have hexec : exec (.gather h seq) s = execGather h seq s := rfl
  obtain ⟨n, m, hun⟩ := unitAt_free s U.stitch (gaRef s c).desc.ranges
  have hdies' : dieTakes { s with free := m } (gaRef s c).desc.ranges = true := hdies
  have hform0 : gaForm c ≠ 0 := by omega
  have hform1 : gaForm c ≠ 1 := by omega
  rw [hexec, execGather, opRow_runs hr]
  simp only [hform0, hform1, if_false, hun, hdies', Bool.not_true, Bool.false_eq_true, peerTransfer, paramGather]

end

/-! ### A transfer goes on -/

/-- A single command y of hearth h does all of collective x. -/
structure SoleWork (x : Coll) (h : Nat) (y : Cmd) (s : State) : Prop where
  alone : Alone x s
  cmds : ∃ part, x.cmds = [(h, y.seq, part)]
  parts : x.parts = 1
  unchecked : x.check = false
  found : findCmd s h y.seq = some y

namespace SoleWork
variable {x : Coll} {h : Nat} {y : Cmd} {s t : State}

theorem head (k : SoleWork x h y s) : x.head s = some (h, y) := by
  obtain ⟨part, hcmds⟩ := k.cmds
  rw [Coll.head, hcmds]
  simp only [k.found, Option.map_some]

theorem kept (k : SoleWork x h y s) (hc : CollsKept s t) (hd : t.disps = s.disps) : SoleWork x h y t :=
  ⟨k.alone.kept hc, k.cmds, k.parts, k.unchecked, (findCmd_of_disps hd h y.seq).trans k.found⟩

/-- What it has written is marked. -/
theorem written (k : SoleWork x h y s) : SoleWork { x with written := true } h y (setColl s { x with written := true }) :=
  ⟨k.alone.setColl rfl rfl, k.cmds, k.parts, k.unchecked, k.found⟩

theorem finish (k : SoleWork x h y s) {p : Nat × Nat → Bool} (hp : p (h, y.seq) = true) :
    CollOver s.mem h { y with st := .done } (finishCmds s x p) := by
  obtain ⟨part, hcmds⟩ := k.cmds
  exact finishCmds_over k.alone hcmds k.parts k.found hp

theorem workDone (k : SoleWork x h y s) : CollOver s.mem h { y with st := .done } (workDone s x) := by
  rw [Machine.workDone, k.unchecked]
  exact k.finish (p := fun _ => true) rfl

end SoleWork

theorem consumeAll_none {s : State} (x : Coll) (hrxs : s.rxs = []) (upTo : RxStream → Nat) : consumeAll s x upTo = (s, 0) := by
  rw [consumeAll, collRx, hrxs]
  rfl

theorem mismatched_none {s : State} (x : Coll) (hrxs : s.rxs = []) : mismatched s x = false := by
  rw [mismatched, collRx, hrxs]
  rfl

section
variable {x : Coll} {h : Nat} {y : Cmd} {s : State} (k : SoleWork x h y s)
include k

/-- A gather among one member sends and receives nothing (R307). -/
theorem gatherGo_one (hrxs : s.rxs = []) (hkind : x.kind = 3) (hcount : x.count = 1) (hpos : x.pos = 0) (hwritten : x.written = false) :
    CollOver s.mem h { y with st := .done } (collGo s x) := by
  have hout (own : Bytes) (rxOf : Nat → Option RxStream) : gatherOut s x own rxOf = [] := by
    rw [gatherOut, hcount, hpos]
    split <;> rfl
  have hothers : ((List.range x.count).filter fun p => p != x.pos && gatherBytes s x.record x.root p != 0) = [] := by
    rw [hcount, hpos]
    rfl
  have hgo : collGo s x = gatherGo s x := by
    rw [collGo, hkind, mismatched_none x hrxs]
    rfl
  obtain ⟨n, m, hun⟩ : ∃ n m, x.unit s = (n, { s with free := m }) := unitAt_free ..
  have hfeed (cmd : Nat × Nat) : feedAll s x cmd [] = (s, 0) := rfl
  have hwrite : writeRanges { s with free := m } h y ([].flatMap (copyRanges { s with free := m } x.record x.root)) =
    ({ s with free := m }, .ok []) := rfl
  rw [hgo, gatherGo]
  simp only [consumeAll_none x hrxs, hout, hfeed, hwritten, hothers, List.all_nil, k.head, hun, hwrite]
  have k' : SoleWork x h y { s with free := m } := k.kept ⟨rfl, rfl, rfl, rfl⟩ rfl
  exact k'.written.workDone

/-- A transfer of no bytes has nothing to send and nothing to wait for (R308). -/
theorem sendRecvGo_empty (hrxs : s.rxs = []) (hkind : x.kind = 4) (hroot : x.root = 0) : CollOver s.mem h { y with st := .done } (collGo s x) := by
  have hgo : collGo s x = sendRecvGo s x := by
    rw [collGo, hkind, mismatched_none x hrxs]
    rfl
  have hsize : field (x.desc s 4 0 0 0) 0x20 8 = 0 := by
    rw [Coll.desc, segDesc_bytes, hroot]
    rfl
  rw [hgo, sendRecvGo]
  by_cases hform : x.form = 1
  · rw [if_pos hform]
    have hfeed (cmd : Nat × Nat) (b : Bytes) : feedAll s x cmd [(x.first, x.desc s 4 0 0 0, b)] = (s, 0) := by
      simp [feedAll, feed, hsize]
    have hsegs (b : Bytes) : segsDone x [(x.first, x.desc s 4 0 0 0, b)] = true := by simp [segsDone, hsize]
    simp only [hfeed, hsegs]
    exact k.workDone
  · rw [if_neg hform]
    simp only [consumeAll_none x hrxs, hroot]
    exact k.workDone

end

theorem placeBytes_disps (s : State) (d : Desc) (ixs : List (List Nat)) (b : Bytes) : (placeBytes s d ixs b).disps = s.disps := by
  unfold placeBytes
  split
  · rfl
  · next f _ =>
    have hplaced : (each (ixs.zip (List.range ixs.length)) s fun s p => d.setRaw s f p.1 (packedGet f.bits b p.2)).disps = s.disps := by
      refine each_preserves State.disps ?_ _ s
      intro s p
      exact setRaw_disps s d f p.1 _
    dsimp only
    split
    · refine (each_preserves State.disps ?_ _ _).trans hplaced
      intro s p
      rfl
    · exact hplaced

section
variable {x : Coll} {h : Nat} {y : Cmd} {s t : State} {r : RxStream} (k : SoleWork x h y s)
include k

/-- A segment that has come whole is placed through the destination's descriptor (R308). -/
theorem sendRecvGo_received (hrxs : s.rxs = [r]) (hclean : s.symErr = []) (hkind : x.kind = 4) (hform : x.form = 2) (hroot : x.root ≠ 0)
    (hwritten : x.written = false) (hdesc : r.desc = x.desc s 4 0 0 0) (hsrc : r.src = x.first) (hlast : r.last = true)
    (hbytes : r.consumed = r.bytes.length) (hwrite : writeRanges s h y (gaRef s y).desc.ranges = (t, .ok [])) :
    CollOver (placeBytes t (gaRef s y).desc (gaRef s y).desc.indices r.bytes).mem h { y with st := .done } (collGo s x) := by
  have hown : collRx s x = [r] := by
    have hkey : r.key = (x.id, x.step) := k.alone.rxs r (by rw [hrxs]; exact List.mem_singleton_self r)
    simp [collRx, hrxs, hkey]
  have hrkind : r.kind = 4 := by
    rw [RxStream.kind, hdesc, Coll.desc, segDesc_kind]
    rfl
  have hexpects : x.expects s r = true := by
    rw [Coll.expects, hrkind]
    simp [hkind, hform, hsrc, hdesc]
  have hgo : collGo s x = sendRecvGo s x := by
    have hmis : mismatched s x = false := by simp [mismatched, hown, hexpects]
    rw [collGo, hkind, hmis]
    rfl
  have hconsume : consumeAll s x (fun r => if r.kind = 4 then r.bytes.length else r.consumed) = (s, 0) := by
    simp [consumeAll, hown, consume, hrkind, hbytes]
  have hfind : (collRx s x).find? (fun r => r.kind == 4 && r.last) = some r := by simp [hown, hrkind, hlast]
  obtain ⟨n, m, hun⟩ : ∃ n m, x.unit s = (n, { s with free := m }) := unitAt_free ..
  obtain ⟨v, hv, kv⟩ := writeRanges_alike (t := { s with free := m }) hclean ⟨s.disps, s.colls, s.collEnded, m, rfl⟩ y hwrite
  have hserved : Served { s with free := m } v := writeRanges_served hclean hv
  have hplaced := kv.placeBytes (gaRef s y).desc (gaRef s y).desc.indices r.bytes
  have k₁ : SoleWork x h y { s with free := m } := k.kept ⟨rfl, rfl, rfl, rfl⟩ rfl
  have k₂ : SoleWork x h y (placeBytes v (gaRef s y).desc (gaRef s y).desc.indices r.bytes) :=
    (k₁.kept hserved.collsKept hserved.disps).kept (.placeBytes ..) (placeBytes_disps ..)
  have hstart : (x.root = 0 || x.written) = false := by simp [hroot, hwritten]
  rw [hgo, sendRecvGo, if_neg (by rw [hform]; decide)]
  simp only [hconsume, hfind, k.head, hun, hv, hstart]
  rw [← hplaced.mem]
  exact k₂.written.workDone

end

/-! ### The first collective of a module -/

/-- No collective is under way or has ended, no stream goes out, and digests are not logged. -/
structure NoColls (s : State) : Prop where
  colls : s.colls = []
  ended : s.collEnded = []
  txs : s.txs = []
  noLog : rd s F.STI_DLOG_ENTRIES = 0

namespace NoColls
variable {s t : State}

theorem served (k : NoColls s) (hs : Served s t) : NoColls t :=
  ⟨hs.colls.trans k.colls, hs.collEnded.trans k.ended, hs.txs.trans k.txs, (hs.rd_eq (by decide)).trans k.noLog⟩

theorem unitAt (k : NoColls s) (unit : Nat → Nat) (rs : List (Nat × Nat)) : NoColls (unitAt s unit rs).2 := by
  obtain ⟨n, m, hun⟩ := unitAt_free s unit rs
  rw [hun]
  exact ⟨k.colls, k.ended, k.txs, k.noLog⟩

end NoColls

section
variable {s : State} {h : Nat} {c : Cmd} {x : Coll} (k : NoColls s) (hc : findCmd s h c.seq = some c)

include k

theorem started_soleWork (hc : findCmd s h c.seq = some c) (hrxs : ∀ r ∈ s.rxs, r.key = (x.id, x.step)) {part : Nat}
    (hcmds : x.cmds = [(h, c.seq, part)]) (hparts : x.parts = 1) (hcheck : x.check = false) :
    SoleWork x h { c with st := .working } (started s h c x) :=
  ⟨started_alone k.txs hrxs k.noLog, ⟨part, hcmds⟩, hparts, hcheck, started_findCmd hc⟩

theorem collAll_first {m : Memory} {y : Cmd} (hrxs : ∀ r ∈ s.rxs, r.key = (x.id, x.step)) (hover : CollOver m h y (collGo (started s h c x) x)) :
    CollOver m h y (collAll (startColl s h c x)) := by
  rw [startColl_first k.colls k.ended, collAll_alone (started_alone k.txs hrxs k.noLog) hover.rxs]
  exact syncStitch_collOver hover

end

theorem fld_lt (c : Cmd) (off n : Nat) : c.fld off n < 2 ^ (8 * n) := by
  refine (leNat_lt _).trans_le (Nat.pow_le_pow_right (by decide) ?_)
  rw [List.length_take]
  omega

/-- A command that works names the tensors that it named. -/
theorem opnd_working {s t : State} (k : Sees s t) (c : Cmd) (off slice : Nat) (required : Bool) :
    ({ c with st := .working } : Cmd).opnd t off slice required = c.opnd s off slice required :=
  k.opnd_eq { c with st := .working } off slice required

/-! ### GATHER's outcomes -/

section
variable {h : Fin 16} {seq : BitVec 32} {c : Cmd} {s u w : State} (hr : Runs h seq 0x3A c s) (k : NoColls s) (hclean : s.symErr = [])

include hr hclean

/-- A record without an update of the step fails its gather (R306). -/
theorem gather_stale (hform : gaForm c = 0)
    (hstale : recPend s (gaRecord c) ≠ 1 ∨ recSstep s (gaRecord c) (recOther s (gaRecord c)) ≠ cmdStepIndex s c)
    (hdies : dieTakes s ((gaRecord c, 768) :: copyRanges s (gaRecord c) (recOther s (gaRecord c)) (paramGather s h c).pos) = true)
    (htouch : touchRanges (unitAt s U.stitch [(gaRecord c, 768)]).2 (idDisp h) false (some (cmdId s h c)) [(gaRecord c + 0x70, 40)] = (u, .ok ())) :
    exec (.gather h seq) s = .next (failRunning u h c (unitAt s U.stitch [(gaRecord c, 768)]).1 Code.PARAM_STATE) := by
  have hun := unitAt_alike s U.stitch [(gaRecord c, 768)]
  have hsees : Sees s u := hun.sees.trans (touchRanges_served (hun.symErr.trans hclean) htouch).sees
  rw [gather_param hr hform hdies htouch, hsees.recPend_eq, hsees.recSstep_eq, hsees.cmdStepIndex_eq, if_pos hstale]

include k

/-- A record whose set is this module alone is gathered at once (R307). -/
theorem gather_alone (hform : gaForm c = 0) (hrxs : s.rxs = []) (hpend : recPend s (gaRecord c) = 1)
    (hstep : recSstep s (gaRecord c) (recOther s (gaRecord c)) = cmdStepIndex s c) (hcount : recCount s (gaRecord c) = 1)
    (hstride : recStride s (gaRecord c) ≠ 0) (hfirst : recFirst s (gaRecord c) = moduleId s) (hcheck : bit (c.fld 0x19 1) 0 = false)
    (hdies : dieTakes s ((gaRecord c, 768) :: copyRanges s (gaRecord c) (recOther s (gaRecord c)) 0) = true)
    (htouch : touchRanges (unitAt s U.stitch [(gaRecord c, 768)]).2 (idDisp h) false (some (cmdId s h c)) [(gaRecord c + 0x70, 40)] = (u, .ok ()))
    (hcopy : touchRanges u (idDisp h) false (some (cmdId s h c)) (copyRanges s (gaRecord c) (recOther s (gaRecord c)) 0) = (w, .ok ())) :
    ∃ t, exec (.gather h seq) s = .next t ∧ CollOver s.mem h { c with st := .done } t := by
  have hpos : (paramGather s h c).pos = 0 := by
    rw [moduleId] at hfirst
    simp [paramGather, positionIn, hcount, hstride, hfirst]
  have hun := unitAt_alike s U.stitch [(gaRecord c, 768)]
  have hclean₁ := hun.symErr.trans hclean
  have hu := touchRanges_served hclean₁ htouch
  have hw := touchRanges_served (hu.symErr.trans hclean₁) hcopy
  have hsees : Sees s u := hun.sees.trans hu.sees
  have hgoes : ¬ (recPend u (gaRecord c) ≠ 1 ∨ recSstep u (gaRecord c) (recOther s (gaRecord c)) ≠ cmdStepIndex u c) := by
    rw [hsees.recPend_eq, hsees.recSstep_eq, hsees.cmdStepIndex_eq]
    simp [hpend, hstep]
  rw [gather_param hr hform (hpos ▸ hdies) htouch, if_neg hgoes, hpos, hcopy]
  have hrxs' : w.rxs = [] := hw.rxs.trans (hu.rxs.trans ((CollsKept.unitAt ..).rxs.trans hrxs))
  have hmem : w.mem = s.mem := (hsees.trans hw.sees).mem
  have hdisps : w.disps = s.disps := hw.disps.trans (hu.disps.trans (unitAt_untouched ..).disps)
  have hc : findCmd w h c.seq = some c := (findCmd_of_disps hdisps h c.seq).trans hr.findCmd
  have k' : NoColls w := ((k.unitAt U.stitch [(gaRecord c, 768)]).served hu).served hw
  have hsole : SoleWork (paramGather s h c) h { c with st := .working } (started w h c (paramGather s h c)) :=
    started_soleWork k' hc (by simp [hrxs']) rfl rfl hcheck
  refine ⟨_, rfl, ?_⟩
  rw [← hmem]
  exact collAll_first k' (by simp [hrxs']) (gatherGo_one hsole hrxs' rfl hcount hpos rfl)

omit hclean in
/-- A transfer of no bytes is done at once (R308). -/
theorem gather_empty (hform : gaForm c = 1 ∨ gaForm c = 2) (hrxs : s.rxs = []) (hrank : (gaRef s c).desc.rank = 0)
    (hcheck : bit (c.fld 0x19 1) 0 = false) : ∃ t, exec (.gather h seq) s = .next t ∧ CollOver s.mem h { c with st := .done } t := by
  obtain ⟨m, own, hexec⟩ := gather_transfer_empty hr hform hrank
  have hcount : (gaRef s c).desc.count = 0 := if_pos hrank
  have hroot : (peerTransfer s h c own).root = 0 := by
    have hsize : (gaRef s c).desc.wireSize = 0 := by
      unfold Desc.wireSize
      split
      · rfl
      · simp [hcount, Desc.planeBytes, ceilDiv]
    exact hsize
  have k' : NoColls { s with free := m } := ⟨k.colls, k.ended, k.txs, k.noLog⟩
  have hc : findCmd { s with free := m } h c.seq = some c := hr.findCmd
  have hsole : SoleWork (peerTransfer s h c own) h { c with st := .working } (started { s with free := m } h c (peerTransfer s h c own)) :=
    started_soleWork k' hc (by simp [hrxs]) rfl rfl hcheck
  refine ⟨_, hexec, ?_⟩
  exact collAll_first k' (by simp [hrxs]) (sendRecvGo_empty hsole hrxs rfl hroot)

/-- A tensor that has come whole from the peer is placed through its descriptor (R308). -/
theorem gather_received {x : RxStream} (hform : gaForm c = 2) (hsize : (gaRef s c).desc.wireSize ≠ 0) (hrxs : s.rxs = [x]) (hsrc : x.src = gaPeer c)
    (hlast : x.last = true) (hconsumed : x.consumed = x.bytes.length)
    (hdesc : x.desc = segDesc 4 (c.fld 0x1C 4) (cmdStepIndex s c) 1 0 1 0 (gaRef s c).desc.fmt 0 0 0 0 0
      (gaRef s c).desc.count (gaRef s c).desc.wireSize 0)
    (hstep : cmdStepIndex s c < 2 ^ 32) (hcheck : bit (c.fld 0x19 1) 0 = false) (hdies : dieTakes s (gaRef s c).desc.ranges = true)
    (hwrite : writeRanges (unitAt s U.stitch (gaRef s c).desc.ranges).2 h c (gaRef s c).desc.ranges = (w, .ok [])) :
    ∃ t, exec (.gather h seq) s = .next t ∧
      CollOver (placeBytes w (gaRef s c).desc (gaRef s c).desc.indices x.bytes).mem h { c with st := .done } t := by
  have hid : c.fld 0x1C 4 < 2 ^ 32 := fld_lt c 0x1C 4
  have hkey : x.key = ((peerTransfer s h c []).id, (peerTransfer s h c []).step) := by
    rw [RxStream.key, hdesc, segDesc_id, segDesc_step, Nat.mod_eq_of_lt hid, Nat.mod_eq_of_lt hstep]
    rfl
  have hun := unitAt_alike s U.stitch (gaRef s c).desc.ranges
  have k' : NoColls (unitAt s U.stitch (gaRef s c).desc.ranges).2 := k.unitAt ..
  have hrxs' : (unitAt s U.stitch (gaRef s c).desc.ranges).2.rxs = [x] := (CollsKept.unitAt ..).rxs.trans hrxs
  have hc : findCmd (unitAt s U.stitch (gaRef s c).desc.ranges).2 h c.seq = some c :=
    (findCmd_of_disps (unitAt_untouched ..).disps h c.seq).trans hr.findCmd
  rw [gather_receives hr hform hdies]
  generalize (unitAt s U.stitch (gaRef s c).desc.ranges).2 = v at *
  have hkeys : ∀ r ∈ v.rxs, r.key = ((peerTransfer s h c []).id, (peerTransfer s h c []).step) := by simp [hrxs', hkey]
  have hsole := started_soleWork k' hc hkeys (part := 0) rfl rfl hcheck
  have hstarted := started_alike v h c (peerTransfer s h c [])
  have href : gaRef (started v h c (peerTransfer s h c [])) { c with st := .working } = gaRef s c :=
    (opnd_working hstarted.sees c ..).trans (hun.sees.opnd_eq c ..)
  obtain ⟨w', hw', kw⟩ := writeRanges_alike (hun.symErr.trans hclean) hstarted { c with st := .working } hwrite
  refine ⟨_, rfl, ?_⟩
  have hover := sendRecvGo_received hsole hrxs' (hstarted.symErr.trans (hun.symErr.trans hclean)) rfl hform hsize rfl hdesc hsrc hlast hconsumed
    (t := w') (by rw [href]; exact hw')
  rw [href] at hover
  rw [← (kw.placeBytes (gaRef s c).desc (gaRef s c).desc.indices x.bytes).mem]
  exact collAll_first k' hkeys hover

end

end Sys2Proof.Machine
end

section
/-! SUPPORT. The elements of a tensor by their linear index. -/

namespace Sys2Proof.Machine

theorem indexLists_length (ns : List Nat) : (indexLists ns).length = ns.prod := by
  induction ns with
  | nil => rfl
  | cons n ns ih => simp [indexLists, ih, Nat.mul_comm]

theorem Desc.indices_length (d : Desc) : d.indices.length = d.count := by
  unfold Desc.indices Desc.count
  split
  · rfl
  · rw [indexLists_length, List.prod_eq_foldl]

/-- The linear index over the first k dims, with the product of their sizes. -/
def Desc.linearTo (d : Desc) (k : Nat) (ix : List Nat) : Nat × Nat :=
  (List.range k).foldl (fun a i => (a.1 + ix.getD i 0 * a.2, a.2 * d.size i)) (0, 1)

theorem Desc.linear_eq_linearTo (d : Desc) (ix : List Nat) : d.linear ix = (d.linearTo d.rank ix).1 := rfl

theorem Desc.linearTo_succ (d : Desc) (k : Nat) (ix : List Nat) :
    d.linearTo (k + 1) ix = ((d.linearTo k ix).1 + ix.getD k 0 * (d.linearTo k ix).2, (d.linearTo k ix).2 * d.size k) := by
  rw [Desc.linearTo, List.range_succ, List.foldl_append]
  rfl

theorem Desc.linearTo_snd (d : Desc) (k : Nat) (ix jx : List Nat) : (d.linearTo k ix).2 = (d.linearTo k jx).2 := by
  induction k with
  | zero => rfl
  | succ k ih => rw [linearTo_succ, linearTo_succ, ih]

theorem Desc.linearTo_lt (d : Desc) {k : Nat} {ix : List Nat} (h : ∀ i < k, ix.getD i 0 < d.size i) :
    (d.linearTo k ix).1 < (d.linearTo k ix).2 := by
  induction k with
  | zero => exact Nat.one_pos
  | succ k ih =>
    rw [linearTo_succ]
    have hk := h k (by omega)
    have := ih fun i hi => h i (by omega)
    calc (d.linearTo k ix).1 + ix.getD k 0 * (d.linearTo k ix).2 < (ix.getD k 0 + 1) * (d.linearTo k ix).2 := by rw [Nat.add_mul]; omega
      _ ≤ d.size k * (d.linearTo k ix).2 := Nat.mul_le_mul_right _ hk
      _ = (d.linearTo k ix).2 * d.size k := Nat.mul_comm ..

theorem Desc.linearTo_inj (d : Desc) {k : Nat} {ix jx : List Nat} (hi : ∀ i < k, ix.getD i 0 < d.size i) (hj : ∀ i < k, jx.getD i 0 < d.size i)
    (h : (d.linearTo k ix).1 = (d.linearTo k jx).1) : ∀ i < k, ix.getD i 0 = jx.getD i 0 := by
  induction k with
  | zero => intro i hi; omega
  | succ k ih =>
    have hlow := d.linearTo_lt fun i hik => hi i (Nat.lt_succ_of_lt hik)
    have hlow' := d.linearTo_lt fun i hik => hj i (Nat.lt_succ_of_lt hik)
    rw [linearTo_succ, linearTo_succ, d.linearTo_snd k jx ix] at h
    rw [d.linearTo_snd k jx ix] at hlow'
    dsimp only at h
    have hmod := congrArg (· % (d.linearTo k ix).2) h
    have hdiv := congrArg (· / (d.linearTo k ix).2) h
    have hpos : 0 < (d.linearTo k ix).2 := by omega
    simp only [Nat.add_mul_mod_self_right, Nat.mod_eq_of_lt hlow, Nat.mod_eq_of_lt hlow'] at hmod
    simp only [Nat.add_mul_div_right _ _ hpos, Nat.div_eq_of_lt hlow, Nat.div_eq_of_lt hlow', Nat.zero_add] at hdiv
    intro i hik
    rcases Nat.lt_succ_iff_lt_or_eq.1 hik with hlt | rfl
    · exact ih (fun i hik => hi i (Nat.lt_succ_of_lt hik)) (fun i hik => hj i (Nat.lt_succ_of_lt hik)) hmod i hlt
    · exact hdiv

/-- Different indices of a tensor have different linear indices. -/
theorem Desc.linear_inj {d : Desc} (hlen : d.sizes.length = d.rank) {ix jx : List Nat} (hi : ix ∈ d.indices) (hj : jx ∈ d.indices)
    (h : d.linear ix = d.linear jx) : ix = jx := by
  obtain ⟨-, hi, -⟩ := Desc.nonempty_of_mem_indices hi
  obtain ⟨-, hj, -⟩ := Desc.nonempty_of_mem_indices hj
  rw [Desc.linear_eq_linearTo, Desc.linear_eq_linearTo] at h
  have hdigits := d.linearTo_inj (fun i => Desc.getD_lt_size hlen hi) (fun i => Desc.getD_lt_size hlen hj) h
  have hilen := (mem_indexLists.1 hi).length_eq
  have hjlen := (mem_indexLists.1 hj).length_eq
  refine List.ext_getElem (hilen.trans hjlen.symm) fun i h₁ h₂ => ?_
  have := hdigits i (by omega)
  rwa [List.getD_eq_getElem _ _ h₁, List.getD_eq_getElem _ _ h₂] at this

/-- A map filled at the indices of a tensor gives back what was put at each. -/
theorem Desc.get_filled {d : Desc} (hlen : d.sizes.length = d.rank) (g : List Nat → Nat) {ix : List Nat} (hix : ix ∈ d.indices)
    {xs : List (List Nat)} (hsub : ∀ jx ∈ xs, jx ∈ d.indices) (m : Smap Nat) (h : ix ∈ xs ∨ m.get 0 (d.linear ix) = g ix) :
    (xs.foldl (fun a jx => a.set (d.linear jx) (g jx)) m).get 0 (d.linear ix) = g ix := by
  induction xs generalizing m with
  | nil => simpa using h
  | cons jx xs ih =>
    refine ih (fun x hx => hsub x (List.mem_cons_of_mem _ hx)) _ ?_
    by_cases heq : d.linear jx = d.linear ix
    · have hjx : jx = ix := Desc.linear_inj hlen (hsub jx List.mem_cons_self) hix heq
      subst hjx
      exact .inr (Smap.get_set_same ..)
    · rcases h with h | h
      · rcases List.mem_cons.1 h with rfl | h
        · exact absurd rfl heq
        · exact .inl h
      · exact .inr ((Smap.get_set_ne _ _ _ heq).trans h)

end Sys2Proof.Machine
end

section
/-! SUPPORT. REDUCE to a root that is its only member (R286, R287, R290), and the statement about collectives. -/

namespace Sys2Proof.Machine

/-! ### The reduction that a command begins -/

/-- The reduction to one that a command begins, with the elements of the source that it contributes (R286). -/
def rootReduction (s : State) (h : Fin 16) (c : Cmd) (src : Desc) : Coll :=
  { kind := 1, id := c.fld 0x20 4, step := cmdStepIndex s c, ticket := c.ticket, cmds := [(h.val, c.seq, c.fld 0x25 1)], form := rdForm c,
    ring := rdForm c == 0 && recRing s (rdRecord c), parts := c.fld 0x24 1, first := (rdSet s c).1, count := (rdSet s c).2.1,
    stride := (rdSet s c).2.2,
    pos := (positionIn s (rdSet s c).1 (rdSet s c).2.1 (rdSet s c).2.2).getD 0, root := c.fld 0x26 2, record := rdRecord c, fmt := 0x11,
    elems := src.count, check := bit (rdFlags c) 1,
    own := [(c.fld 0x25 1, c.fld 0x26 2, src.indices.map fun ix => src.rawElem s .bf16 ix)], sent := 0, recv := 0, chk := 0,
    chkVals := [], written := false, no := c.step, shipped := [] }

section
variable {h : Fin 16} {seq : BitVec 32} {c : Cmd} {s u : State} (hr : Runs h seq 0x38 c s)
include hr

theorem reduce_begins (hform : rdForm c = 1) (hdies : dieTakes s (rdDst s c).desc.ranges = true) (hcount : (rdSrc s c).desc.count ≠ 0)
    (hread : readTensors (unitAt s U.stitch ((rdDst s c).desc.ranges ++ (rdSrc s c).desc.ranges)).2 h c [(rdSrc s c).desc] = (u, .ok ())) :
    exec (.reduce h seq) s = .next (collAll (startColl u h c (rootReduction u h c (rdSrc s c).desc))) := by
  have hexec : exec (.reduce h seq) s = execReduce h seq s := rfl
  obtain ⟨n, m, hun⟩ := unitAt_free s U.stitch ((rdDst s c).desc.ranges ++ (rdSrc s c).desc.ranges)
  have hform0 : rdForm c ≠ 0 := by omega
  have hrank : (rdSrc s c).desc.rank ≠ 0 := fun h0 => hcount (if_pos h0)
  rw [hun] at hread
  rw [hexec, execReduce, opRow_runs hr]
  simp only [hform0, false_and, if_false, hun]
  rw [hdies, hread]
  simp only [Bool.not_true, Bool.false_eq_true, if_false, orFail, hrank]
  rw [if_pos hform]
  rfl

end

/-! ### The sum is written -/

section
variable {x : Coll} {h : Nat} {y : Cmd} {s w : State} {dst : Desc} (k : SoleWork x h y s) (hclean : s.symErr = []) (hscale : dst.scalePtr = 0)
  (hplain : ∀ f, dst.format = some f → f.isDq = false) (hlen : dst.sizes.length = dst.rank) (hwrite : writeRanges s h y dst.ranges = (w, .ok []))

include k hclean hscale hplain hlen hwrite

/-- Sums that are given for a tensor's elements in order are stored there, with the command's notices (R287). -/
theorem writeSum_stores (hdest : x.dest s = some (h, y, dst, dst.indices)) (sum : List Nat → Nat × Bool) :
    ∃ t n, writeSum s x (dst.indices.map sum) = (t, 0) ∧ CollsKept s t ∧ findCmd t h y.seq = some { y with noted := n } ∧
      t.mem = (storeTensor w dst { factor := none, before := fp32One, flush := y.subn, rnd := cmdRnd s y }
        fun ix => fp32.decode (sum ix).1).1.mem := by
  have hfill {ix : List Nat} (hix : ix ∈ dst.indices) :
      ((dst.indices.zip (dst.indices.map sum)).foldl (fun (a : Smap Nat) p => a.set (dst.linear p.1) p.2.1) []).get 0
        (dst.linear ix) = (sum ix).1 := by
    have hzip : dst.indices.zip (dst.indices.map sum) = dst.indices.map fun ix => (ix, sum ix) := by
      simpa using List.zip_map' (f := id) (g := sum) (l := dst.indices)
    rw [hzip, List.foldl_map]
    exact Desc.get_filled hlen (fun ix => (sum ix).1) hix (fun _ h => h) [] (.inl hix)
  rw [writeSum, hdest]
  dsimp only
  generalize hunit : unitAt s U.stitch _ = un
  obtain ⟨m, hun⟩ : ∃ m, un.2 = { s with free := m } := by rw [← hunit]; exact ⟨_, unitAt_frame ..⟩
  obtain ⟨unit, v⟩ := un
  dsimp only at hun ⊢
  subst hun
  obtain ⟨v, hv, kv⟩ := writeRanges_alike (t := { s with free := m }) hclean ⟨s.disps, s.colls, s.collEnded, m, rfl⟩ y hwrite
  have hserved : Served { s with free := m } v := writeRanges_served hclean hv
  have hcmd : findCmd v h y.seq = some y := (findCmd_of_disps hserved.disps h y.seq).trans k.found
  have hfree : CollsKept s { s with free := m } := ⟨rfl, rfl, rfl, rfl⟩
  have hrnd : cmdRnd v y = cmdRnd s y := hserved.sees.cmdRnd_eq y
  rw [hv]
  dsimp only
  rw [hrnd]
  generalize hval : (fun ix => fp32.decode (Smap.get 0 _ (dst.linear ix))) = val
  have hval' : ∀ ix ∈ dst.indices, val ix = fp32.decode (sum ix).1 := by
    intro ix hix
    rw [← hval]
    exact congrArg fp32.decode (hfill hix)
  clear hval hfill
  have hstored := kv.storeTensor (m := { factor := none, before := fp32One, flush := y.subn, rnd := cmdRnd s y })
    (v := fun ix => fp32.decode (sum ix).1) (v' := val) hplain hval'
  have hkept := CollsKept.storeTensor v { factor := none, before := fp32One, flush := y.subn, rnd := cmdRnd s y } val hplain
  have hstands := StandsOver.of_found ((findCmd_of_disps
    (storeTensor_disps v dst { factor := none, before := fp32One, flush := y.subn, rnd := cmdRnd s y } val) h y.seq).trans hcmd)
  revert hstored hkept hstands
  generalize storeTensor v dst { factor := none, before := fp32One, flush := y.subn, rnd := cmdRnd s y } val = p
  intro hstored hkept hstands
  obtain ⟨t, rep⟩ := p
  dsimp only at *
  obtain ⟨⟨n, hn⟩, hmem⟩ := hstands.reportStore unit hscale _
  refine ⟨_, n, rfl, ?_, hn, hmem.trans hstored.mem⟩
  exact ((hfree.trans hserved.collsKept).trans hkept).trans (.reportStore _ h y unit hscale _)

end

/-- Counting the additions of a sum at a root changes counters alone. -/
theorem stitchCount_kept {s : State} {x : Coll} (hform : x.form = 1) (n : Nat) :
    CollsKept s (stitchCount s x n) ∧ (stitchCount s x n).disps = s.disps ∧ (stitchCount s x n).mem = s.mem := by
  unfold stitchCount
  split
  · rw [if_neg (by rw [hform]; decide)]
    refine ⟨?_, rfl, rfl⟩
    refine CollsKept.trans ?_ (.wr _ (by simp only [F.CNT_MEM_VALUE]; omega) _)
    refine CollsKept.trans ?_ (.wr _ (by simp only [F.CNT_MEM_VALUE]; omega) _)
    exact ⟨rfl, rfl, rfl, rfl⟩
  · exact ⟨.refl s, rfl, rfl⟩

/-- A root alone in its set sends nothing. -/
theorem reduceOut_root (s : State) {x : Coll} (hform : x.form = 1) (hpos : x.pos = 0) (hroot : x.root = 0) (part : Nat) :
    reduceOut s x part = [] := by
  simp [reduceOut, hform, hpos, hroot]

theorem rankFinish_root {x : Coll} {h : Nat} {y : Cmd} {s : State} (k : SoleWork x h y s) (hform : x.form = 1) (hpos : x.pos = 0)
    (hroot : x.root = 0) : CollOver s.mem h { y with st := .done } (rankFinish s x) := by
  obtain ⟨part, hcmds⟩ := k.cmds
  rw [rankFinish, k.unchecked, if_neg Bool.false_ne_true]
  refine k.finish ?_
  simp [hcmds, reduceOut_root s hform hpos hroot, segsDone]

/-- One BF16 term alone is its sum, widened (R287). -/
def soleSum (flush : Bool) (t : Nat) : Nat × Bool := addTerms flush none [t]

theorem soleSum_fst (flush : Bool) (t : Nat) : (soleSum flush t).1 = (fp32.round flush (bf16.load flush t).1).1 := rfl

section
variable {x : Coll} {h : Nat} {y : Cmd} {s w : State} (k : SoleWork x h y s) (hclean : s.symErr = []) (hrxs : s.rxs = [])
  (hscale : (rdDst s y).desc.scalePtr = 0) (hplain : ∀ f, (rdDst s y).desc.format = some f → f.isDq = false)
  (hlen : (rdDst s y).desc.sizes.length = (rdDst s y).desc.rank) (hwrite : writeRanges s h y (rdDst s y).desc.ranges = (w, .ok []))

include k hclean hrxs hscale hplain hlen hwrite

/-- A reduction whose only member is its root writes that member's elements, widened (R287), and its command ends. -/
theorem reduceGo_one (hkind : x.kind = 1) (hform : x.form = 1) (hring : x.ring = false) (hcount : x.count = 1) (hpos : x.pos = 0)
    (hroot : x.root = 0) (hwritten : x.written = false) {raw : List Nat → Nat} (hown : x.own = [(0, 0, (rdDst s y).desc.indices.map raw)])
    (helems : x.elems = (rdDst s y).desc.count) (hne : x.elems ≠ 0) :
    ∃ n, CollOver (storeTensor w (rdDst s y).desc { factor := none, before := fp32One, flush := y.subn, rnd := cmdRnd s y }
      fun ix => fp32.decode (soleSum y.subn (raw ix)).1).1.mem h { y with st := .done, noted := n } (collGo s x) := by
  have hgo : collGo s x = rankGo s x := by
    rw [collGo, hkind, mismatched_none x hrxs]
    simp [reduceGo, hring]
  have hmine : (if x.form = 1 then (if x.pos = x.root then x.elems else 0) else x.shardElems s x.pos) = x.elems := by
    rw [if_pos hform, hpos, hroot, if_pos rfl]
  have hterms (n : Nat) : rankTerms s x n = [(rdDst s y).desc.indices.map raw] := by
    simp [rankTerms, hform, hcount, k.parts, hpos, hroot, hown]
  have hfeeds : x.cmds.foldl (fun (a : State × Nat) m => if a.2 ≠ 0 then a else feedAll a.1 x (m.1, m.2.1) (reduceOut a.1 x m.2.2))
      (s, 0) = (s, 0) := by
    obtain ⟨part, hcmds⟩ := k.cmds
    simp [hcmds, reduceOut_root s hform hpos hroot, feedAll]
  have hflush : x.flush s = y.subn := by
    rw [Coll.flush, k.head]
  have hlength : ((rdDst s y).desc.indices.map raw).length = x.elems := by rw [List.length_map, Desc.indices_length, helems]
  have hdest : x.dest s = some (h, y, (rdDst s y).desc, (rdDst s y).desc.indices) := by
    rw [Coll.dest, k.head]
    simp [hform, hpos, hroot]
  have hsums : ((List.range x.elems).map fun e => addTerms (x.flush s) none ([(rdDst s y).desc.indices.map raw].map fun t => t.getD e 0)) =
      (rdDst s y).desc.indices.map fun ix => soleSum y.subn (raw ix) := by
    rw [hflush, ← hlength]
    refine List.ext_getElem (by simp) fun e h₁ h₂ => ?_
    have he : e < (rdDst s y).desc.indices.length := by simpa using h₂
    simp [soleSum, he]
  obtain ⟨t, n, ht, kt, hfound, hmem⟩ := writeSum_stores k hclean hscale hplain hlen hwrite hdest fun ix => soleSum y.subn (raw ix)
  rw [hgo, rankGo]
  simp only [hmine, hterms, consumeAll_none x hrxs, hfeeds, hwritten, hne, hsums, ht]
  rw [if_neg (by decide), if_neg (by decide), if_neg (by decide), if_neg not_false, if_pos (by simp only [List.all_cons, hlength, BEq.rfl]; rfl)]
  have ky : SoleWork x h { y with noted := n } t := ⟨k.alone.kept kt, k.cmds, k.parts, k.unchecked, hfound⟩
  obtain ⟨kcount, hdisps, hmem'⟩ := stitchCount_kept (s := setColl t { x with written := true }) (x := { x with written := true }) hform 1
  refine ⟨n, ?_⟩
  rw [← hmem]
  refine hmem' ▸ rankFinish_root (ky.written.kept kcount hdisps) hform hpos hroot

end

theorem rdSet_of_form {s : State} {c : Cmd} (hform : rdForm c = 1) : rdSet s c = (c.fld 0x28 2, c.fld 0x2A 2, c.fld 0x2C 2) :=
  if_neg (by omega)

theorem positionIn_first {s : State} {first count : Nat} (hfirst : first = moduleId s) (hcount : count = 1) (stride : Nat) :
    (positionIn s first count stride).getD 0 = 0 := by
  rw [moduleId] at hfirst
  simp only [positionIn, hfirst, hcount, Nat.sub_self, Nat.zero_mod, Nat.zero_div]
  split <;> rfl

/-- A command that works has the destination that it had. -/
theorem rdDst_working {s t : State} (k : Sees s t) (c : Cmd) (hform : rdForm c = 1) : rdDst t { c with st := .working } = rdDst s c := by
  have hroot : rdAtRoot t { c with st := .working } = rdAtRoot s c := by
    have hset : rdSet t { c with st := .working } = rdSet s c := (rdSet_of_form hform).trans (rdSet_of_form hform).symm
    have hpos (a b d : Nat) : positionIn t a b d = positionIn s a b d := by rw [positionIn, positionIn, k.rd_eq (by decide)]
    rw [rdAtRoot, rdAtRoot, hset, hpos]
    rfl
  rw [rdDst, rdDst, hroot]
  exact opnd_working k c ..

section
variable {h : Fin 16} {seq : BitVec 32} {c : Cmd} {s u w : State} (hr : Runs h seq 0x38 c s) (k : NoColls s) (hclean : s.symErr = [])
include hr k hclean

/-- A member set of this module alone gives its contribution at the root (R286, R287). -/
theorem reduce_alone (hrxs : s.rxs = []) (hform : rdForm c = 1) (hparts : c.fld 0x24 1 = 1) (hpart : c.fld 0x25 1 = 0) (hroot : c.fld 0x26 2 = 0)
    (hcount : c.fld 0x2A 2 = 1) (hcheck : bit (rdFlags c) 1 = false) (hfirst : c.fld 0x28 2 = moduleId s)
    (hsizes : (rdSrc s c).desc.sizes = (rdDst s c).desc.sizes) (hrank : (rdSrc s c).desc.rank = (rdDst s c).desc.rank)
    (hlen : (rdSrc s c).desc.sizes.length = (rdSrc s c).desc.rank) (hne : (rdSrc s c).desc.count ≠ 0) (hscale : (rdDst s c).desc.scalePtr = 0)
    (hformat : (rdDst s c).desc.format = some .fp32 ∨ (rdDst s c).desc.format = some .bf16) (hdies : dieTakes s (rdDst s c).desc.ranges = true)
    (hread : readTensors (unitAt s U.stitch ((rdDst s c).desc.ranges ++ (rdSrc s c).desc.ranges)).2 h c [(rdSrc s c).desc] = (u, .ok ()))
    (hwrite : writeRanges u h c (rdDst s c).desc.ranges = (w, .ok [])) :
    StoresAndDone h c (.reduce h seq) s w (rdDst s c).desc { factor := none, before := fp32One, flush := c.subn, rnd := cmdRnd u c } fun ix =>
      fp32.decode (fp32.round c.subn (bf16.load c.subn ((rdSrc s c).desc.rawElem u .bf16 ix)).1).1 := by
  have hun := unitAt_alike s U.stitch ((rdDst s c).desc.ranges ++ (rdSrc s c).desc.ranges)
  have hu := touchRanges_served (hun.symErr.trans hclean) hread
  have hclean' : u.symErr = [] := hu.symErr.trans (hun.symErr.trans hclean)
  have hrxs' : u.rxs = [] := hu.rxs.trans ((CollsKept.unitAt ..).rxs.trans hrxs)
  have hc : findCmd u h c.seq = some c := (findCmd_of_disps (hu.disps.trans (unitAt_untouched ..).disps) h c.seq).trans hr.findCmd
  have k' : NoColls u := (k.unitAt ..).served hu
  have hmodule : moduleId u = moduleId s := (hun.sees.trans hu.sees).rd_eq (by decide)
  have hindices : (rdSrc s c).desc.indices = (rdDst s c).desc.indices := by rw [Desc.indices, Desc.indices, hsizes, hrank]
  have hcount' : (rdSrc s c).desc.count = (rdDst s c).desc.count := by rw [Desc.count, Desc.count, hsizes, hrank]
  have hplain : ∀ f, (rdDst s c).desc.format = some f → f.isDq = false := by
    intro f hf
    rcases hformat with h | h
    · rw [h] at hf; cases hf; rfl
    · rw [h] at hf; cases hf; rfl
  have hset := rdSet_of_form (s := u) hform
  have hpos : (rootReduction u h c (rdSrc s c).desc).pos = 0 := by
    rw [rootReduction, hset]
    exact positionIn_first (hfirst.trans hmodule.symm) hcount _
  have hsole : SoleWork (rootReduction u h c (rdSrc s c).desc) h { c with st := .working } (started u h c (rootReduction u h c (rdSrc s c).desc)) :=
    started_soleWork k' hc (by simp [hrxs']) rfl hparts hcheck
  have hst := started_alike u h c (rootReduction u h c (rdSrc s c).desc)
  have hdst := rdDst_working ((hun.sees.trans hu.sees).trans hst.sees) c hform
  have hrnd : cmdRnd (started u h c (rootReduction u h c (rdSrc s c).desc)) { c with st := .working } = cmdRnd u c :=
    hst.sees.cmdRnd_eq { c with st := .working }
  have hring : (rootReduction u h c (rdSrc s c).desc).ring = false := by simp [rootReduction, hform]
  have hmembers : (rootReduction u h c (rdSrc s c).desc).count = 1 := by
    rw [rootReduction, hset]
    exact hcount
  have hown : (rootReduction u h c (rdSrc s c).desc).own =
      [(0, 0, (rdDst s c).desc.indices.map fun ix => (rdSrc s c).desc.rawElem u .bf16 ix)] := by
    simp only [rootReduction, hpart, hroot, hindices]
  obtain ⟨w', hw', kw⟩ := writeRanges_alike hclean' hst { c with st := .working } hwrite
  have hover := reduceGo_one hsole (hst.symErr.trans hclean') hrxs' (by rw [hdst]; exact hscale) (by rw [hdst]; exact hplain)
    (by rw [hdst, ← hsizes, ← hrank]; exact hlen) (by rw [hdst]; exact hw') rfl hform hring hmembers hpos hroot rfl
    (by rw [hdst]; exact hown) (by rw [hdst]; exact hcount') hne
  rw [hdst, hrnd] at hover
  simp only [soleSum_fst] at hover
  obtain ⟨n, hover⟩ := hover
  obtain ⟨hfound, hmem, -, -⟩ := collAll_first k' (by simp [hrxs']) hover
  rw [StoresAndDone, reduce_begins hr hform hdies hne hread]
  exact ⟨_, rfl, ⟨n, hfound⟩, hmem.trans (kw.storeTensor hplain fun _ _ => rfl).mem⟩

end

/-! ### The statement -/

/-- Settles O50: each command's collective is the only one of its module, so it goes on at once, and the requests that the statement lets be served
leave memory as it was; what is written is what the collective's own bytes are. -/
theorem collectives : Obligations.Collectives := by
  unfold Obligations.Collectives
  intro h seq c x s u w hcolls htxs hclean hlog hended step
  have k : NoColls s := ⟨hcolls, hended, htxs, hlog⟩
  have hends {v : State} {t : State} (hover : CollOver v.mem h { c with st := .done } t) :
      findCmd t h c.seq = some { c with st := .done } ∧ t.mem = v.mem ∧ t.colls = [] := ⟨hover.found, hover.mem, hover.colls⟩
  constructor
  · intro hr hrxs src dst hform hparts hpart hroot hcount hcheck hfirst hsizes hrank hlen hne hscale hformat hdies hread hwrite
    exact reduce_alone hr k hclean hrxs hform hparts hpart hroot hcount hcheck hfirst hsizes hrank hlen hne hscale hformat hdies hread hwrite
  · intro hr d r size un ends
    refine ⟨fun hform hstale hdies htouch => ?_, fun hform hrxs hpend hstep hcount hstride hfirst _ hcheck hdies htouch hcopy => ?_,
      fun hform hrxs hrank hcheck => ?_, fun hform _ hsize _ hrxs hsrc hlast hconsumed hdesc _ hstep _ hcheck hdies hwrite => ?_⟩
    · exact gather_stale hr hclean hform hstale hdies htouch
    · obtain ⟨t, ht, hover⟩ := gather_alone hr k hclean hform hrxs hpend hstep hcount hstride hfirst hcheck hdies htouch hcopy
      exact ⟨t, ht, hends hover⟩
    · obtain ⟨t, ht, hover⟩ := gather_empty hr k hform hrxs hrank hcheck
      exact ⟨t, ht, hends hover⟩
    · obtain ⟨t, ht, hover⟩ := gather_received hr k hclean hform hsize hrxs hsrc hlast hconsumed hdesc hstep hcheck hdies hwrite
      exact ⟨t, ht, hends hover⟩

end Sys2Proof.Machine
end
